-- ==== Sys2Proof/Word.lean ====
section
/-! DEFINITION. The words the manual counts in, bit fields (R5), little-endian bytes (R6) and
half-range serial comparison (R20, R546). -/

namespace Sys2Proof

/-- One byte of a memory, record or message. -/
abbrev Byte := BitVec 8

/-- A run of bytes, lowest address first. -/
abbrev Bytes := List Byte

/-- A 32-bit register or word. -/
abbrev W32 := BitVec 32

/-- A 64-bit register, word or scalar register. -/
abbrev W64 := BitVec 64

/-- Bits [hi:lo] of a number, both ends included (R5). -/
def bits (v : Nat) (hi lo : Nat) : Nat := (v >>> lo) % 2 ^ (hi + 1 - lo)

/-- Bit n of a number (R5). -/
def bit (v : Nat) (n : Nat) : Bool := v.testBit n

/-- `v` with bits [hi:lo] replaced by the low bits of `x`. -/
def setBits (v : Nat) (hi lo x : Nat) : Nat :=
  (v >>> (hi + 1)) <<< (hi + 1) + (x % 2 ^ (hi + 1 - lo)) <<< lo + v % 2 ^ lo

/-- `v` placed at bit `lo`. -/
def at' (v lo : Nat) : Nat := v <<< lo

/-- A number as `n` little-endian bytes (R6). -/
def toLE (v : Nat) : Nat → Bytes
  | 0 => []
  | n + 1 => BitVec.ofNat 8 v :: toLE (v / 256) n

/-- The number that little-endian bytes spell (R6). -/
def fromLE : Bytes → Nat
  | [] => 0
  | b :: bs => b.toNat + 256 * fromLE bs

/-- `n` bytes of a record from byte offset `off`; bytes past its end read as zero. -/
def bytesAt (bs : Bytes) (off n : Nat) : Bytes :=
  ((bs.drop off).take n) ++ List.replicate (n - ((bs.drop off).take n).length) 0

/-- The little-endian field of `n` bytes at byte `off` of a record (R6). -/
def fieldAt (bs : Bytes) (off n : Nat) : Nat := fromLE (bytesAt bs off n)

/-- Outcome of comparing two sequence or step numbers (R546). -/
inductive Serial where
  | equal
  | later
  | earlier
  deriving DecidableEq, Repr

/-- R546: half-range serial comparison of the new value `a` with the held value `b` in `n` bits.
The unordered pair d = 2^(n-1) counts the new value as earlier. -/
def serial (n a b : Nat) : Serial :=
  let d := (a + 2 ^ n - b % 2 ^ n) % 2 ^ n
  if d = 0 then .equal else if d < 2 ^ (n - 1) then .later else .earlier

/-- Sign extension of an `n`-bit number to an integer. -/
def signed (n v : Nat) : Int :=
  if v % 2 ^ n < 2 ^ (n - 1) then (v % 2 ^ n : Nat) else (v % 2 ^ n : Nat) - (2 ^ n : Nat)

/-- An integer as an `n`-bit two's-complement number. -/
def wrapInt (n : Nat) (x : Int) : Nat := (x % (2 ^ n : Nat)).toNat

/-- A natural number clamped to a range. -/
def clampNat (lo hi v : Nat) : Nat := min hi (max lo v)

/-- Ceiling division. -/
def ceilDiv (a b : Nat) : Nat := (a + b - 1) / b

end Sys2Proof
end

