-- ==== Sys2Proof/Syntax.lean ====
section
/-! DEFINITION. The commands of the block: one constructor for each row of spec/opcode_table.json,
with what the row leaves to whoever sends it (who writes, which unit, which value, which message, and
what physics decided). -/

namespace Sys2Proof

/-- R489, R549: who makes a control-register access. All fabric initiators are one. -/
inductive Initiator where
  | cp (p : Fin 4)
  | qs (q : Fin 4)
  | host
  | peer
  | dbg
  deriving DecidableEq, Repr

/-- What soft errors a core's memories had taken when the next instruction read them: 8-byte units
that no longer correct (R85, R117), and how many reads were corrected. -/
structure Strike where
  ts : List Nat := []
  acc : List Nat := []
  vreg : List Nat := []
  mask : List Nat := []
  imem : List Nat := []
  tsCorrected : Nat := 0
  accCorrected : Nat := 0
  deriving DecidableEq, Repr

/-- What a unit outside the module answers to one part: the status, and the bytes a read returns. -/
structure Ext where
  status : Byte := 0
  data : Bytes := []
  deriving DecidableEq, Repr

/-- An access of the local tensor space (R28). The address is kept whole, so that a bit above 43 shows (R29).
`faults` are symbol errors that arose in stored fast lines (by line key) and deep granules (by DGA) before it. -/
structure LtaReq where
  unit : Nat
  addr : Nat
  len : Nat
  write : Bool
  data : Bytes := []
  fastFaults : List (Nat × Nat) := []
  deepFaults : List (Nat × Nat) := []
  deriving DecidableEq, Repr

/-- A line request to a fast stack controller (R148, R149). -/
structure LineReq where
  initiator : Nat
  channel : Fin 64
  chaddr : Nat
  len : Nat
  write : Bool
  data : Bytes := []
  deriving DecidableEq, Repr

/-- What a granule request of the placement engine serves (R213). -/
inductive GranUse where
  | plain
  | bypass (unit page : Nat)
  | promotion (page : Nat)
  | writeback (page : Nat)
  deriving DecidableEq, Repr

/-- A granule request to a deep stack controller (R150, R180). -/
structure GranReq where
  dga : Nat
  count : Nat
  write : Bool
  data : Bytes := []
  use : GranUse := .plain
  deriving DecidableEq, Repr

/-- A Sargil message (R358): header fields and payload. -/
structure FabMsg where
  mtype : Nat
  dst : Nat
  src : Nat
  hops : Nat := 0
  tag : Nat := 0
  gen : Nat := 0
  sr : Bool := false
  rsvd : Nat := 0
  sub : Nat := 0
  addr : Nat := 0
  len : Nat := 0
  status : Byte := 0
  route : List Nat := []
  rroute : List Nat := []
  payload : Bytes := []
  deriving DecidableEq, Repr

/-- A link-layer flit (R349): header word fields, payload and whether its CRC matches. -/
structure Flit where
  seq : Nat := 0
  ack : Nat := 0xFFF
  ftype : Nat := 0
  vc : Nat := 0
  hc : Nat := 0
  msgStart : Bool := false
  msgEnd : Bool := false
  cvc : Nat := 0
  chc : Nat := 0
  credits : Nat := 0
  rsvd : Nat := 0
  payload : Bytes := []
  crcOk : Bool := true
  deriving DecidableEq, Repr

/-- A Raline message (R420). -/
structure HostMsg where
  mtype : Nat
  tag : Nat := 0
  jseq : Nat := 0
  addr : Nat := 0
  len : Nat := 0
  status : Byte := 0
  hepoch : Nat := 0
  payload : Bytes := []
  deriving DecidableEq, Repr

/-- One plane of a decoded picture: its rows of samples as coded (8 or 10 bits). -/
abbrev Plane := List (List Nat)

/-- One picture as its standard's decoding process gives it, in display order (R314): its time stamp and
duration in 90 kHz ticks, its scan, whether it is bad (R331), and its stream's colour fields (R325, R327). -/
structure Picture where
  pts : Option Int
  duration : Nat
  interlaced : Bool
  bottomFirst : Bool := false
  bad : Bool := false
  tenBit : Bool := false
  width : Nat
  height : Nat
  luma : Plane
  cb : Plane := []
  cr : Plane := []
  matrixCoeffs : Option Nat := none
  fullRange : Bool := false
  chromaLoc : Nat := 0
  deriving DecidableEq, Repr

/-- What a decode engine's decoding of one clip gives: its pictures, how often a transport stream was
resynchronised (R330), the status of failed bitstream reads (R332), whether the stream lay outside R312. -/
structure Decoded where
  pictures : List Picture
  resyncs : Nat := 0
  readStatus : Byte := 0
  outsideLimits : Bool := false
  deriving DecidableEq, Repr

/-- The size of a processor load or store (R443). -/
inductive AccSize where
  | b | h | w | d
  deriving DecidableEq, Repr

/-- Integer register operations of RV64GC (R442). -/
inductive AluOp where
  | add | sub | sll | slt | sltu | xor | srl | sra | or | and
  | addw | subw | sllw | srlw | sraw
  | mul | mulh | mulhsu | mulhu | div | divu | rem | remu
  | mulw | divw | divuw | remw | remuw
  deriving DecidableEq, Repr

/-- Conditions of RV64GC branches. -/
inductive BrCond where
  | eq | ne | lt | ge | ltu | geu
  deriving DecidableEq, Repr

/-- Atomic memory operations of RV64GC. -/
inductive AmoOp where
  | swap | add | xor | and | or | min | max | minu | maxu
  deriving DecidableEq, Repr

/-- Floating-point register operations of RV64GC, by operand precision. -/
inductive FpOp where
  | add | sub | mul | div | sqrt | min | max | fma | fms | fnma | fnms
  | sgnj | sgnjn | sgnjx | eq | lt | le | classify
  | cvtToW | cvtToWu | cvtToL | cvtToLu | cvtFromW | cvtFromWu | cvtFromL | cvtFromLu
  | cvtPrec | mvToX | mvFromX
  deriving DecidableEq, Repr

/-- One RV64GC instruction in decoded form (R442). `len` bytes (2 or 4) are fetched at the pc; register
numbers are RISC-V's; `ext` is what a host window or a fabric aperture answers. -/
inductive RvInstr where
  | alu (op : AluOp) (rd rs1 rs2 : Fin 32)
  | alui (op : AluOp) (rd rs1 : Fin 32) (imm : Int)
  | lui (rd : Fin 32) (imm : Int)
  | auipc (rd : Fin 32) (imm : Int)
  | jal (rd : Fin 32) (imm : Int)
  | jalr (rd rs1 : Fin 32) (imm : Int)
  | branch (c : BrCond) (rs1 rs2 : Fin 32) (imm : Int)
  | load (sz : AccSize) (unsigned : Bool) (rd rs1 : Fin 32) (imm : Int) (ext : Ext)
  | store (sz : AccSize) (rs1 rs2 : Fin 32) (imm : Int) (ext : Ext)
  | lr (sz : AccSize) (rd rs1 : Fin 32)
  | sc (sz : AccSize) (rd rs1 rs2 : Fin 32)
  | amo (op : AmoOp) (sz : AccSize) (rd rs1 rs2 : Fin 32)
  | fence (succWrites : Bool)
  | fenceI
  | wfi
  | ecall
  | ebreak
  | mret
  | csr (write set : Bool) (num : Nat) (rd rs1 : Fin 32)
  | csri (write set : Bool) (num : Nat) (rd : Fin 32) (imm : Fin 32)
  | fload (double : Bool) (rd rs1 : Fin 32) (imm : Int) (ext : Ext)
  | fstore (double : Bool) (rs1 rs2 : Fin 32) (imm : Int) (ext : Ext)
  | fp (op : FpOp) (double : Bool) (rd rs1 rs2 rs3 : Fin 32) (rm : Fin 8)
  | illegal
  deriving DecidableEq, Repr

/-- The rails whose thresholds RST watches (R560). -/
inductive Rail where
  | dome
  | vio
  | vdd (q : Fin 4)
  | s | sram | stk | vpp | ser | ser2
  deriving DecidableEq, Repr

/-- The sources of a device reset (R501), in RST_CAUSE bit order. -/
inductive RstSource where
  | powerOn | brownout | pin | watchdog | software | debug | clock | lockup
  deriving DecidableEq, Repr

/-- The reach of a reset (R500). -/
inductive Reach where
  | cold | warm | core
  deriving DecidableEq, Repr

/-- The commands of the block. -/
inductive Instr where
  -- control registers, quiesce and commit
  | registerWrite (i : Initiator) (addr : Nat) (len : Nat) (v : W32)
  | reg64LowRead (i : Initiator) (addr : Nat)
  | reg64HighRead (i : Initiator) (addr : Nat)
  | reg64LowWrite (i : Initiator) (addr : Nat) (v : W32)
  | reg64HighWrite (i : Initiator) (addr : Nat) (v : W32)
  | rcCounterRead (i : Initiator) (addr : Nat) (sameCycle : Bool)
  | shShadowWrite (i : Initiator) (addr : Nat) (v : W32)
  | quiesceRequest (i : Initiator) (hi : W32)
  | blockQuiesced (b : Fin 45)
  | quiesceTimeout
  | commitGo (i : Initiator) (v : W32)
  | commitConfirm
  -- tile core: CTL class
  | nop (c : Fin 96) (k : Strike)
  | halt (c : Fin 96) (k : Strike)
  | li (c : Fin 96) (k : Strike)
  | lui (c : Fin 96) (k : Strike)
  | addi (c : Fin 96) (k : Strike)
  | add (c : Fin 96) (k : Strike)
  | sub (c : Fin 96) (k : Strike)
  | shli (c : Fin 96) (k : Strike)
  | bz (c : Fin 96) (k : Strike)
  | bnz (c : Fin 96) (k : Strike)
  | jmp (c : Fin 96) (k : Strike)
  | loop (c : Fin 96) (k : Strike)
  -- tile core: STREAM, MM and SYNC classes
  | strmIssue (c : Fin 96) (k : Strike)
  | strmCancelInstr (c : Fin 96) (k : Strike)
  | mmLdw (c : Fin 96) (k : Strike)
  | mmRun (c : Fin 96) (k : Strike)
  | mmRunComplete (c : Fin 96)
  | syncWait (c : Fin 96) (k : Strike)
  | syncWaitm (c : Fin 96) (k : Strike)
  | syncSet (c : Fin 96) (k : Strike)
  | syncClr (c : Fin 96) (k : Strike)
  | syncTest (c : Fin 96) (k : Strike)
  | syncSig (c : Fin 96) (k : Strike)
  | syncSigDeliver (c : Fin 96)
  | syncBar (c : Fin 96) (k : Strike)
  | barComplete (group : Fin 64) (id : Fin 256)
  | syncMark (c : Fin 96) (k : Strike)
  | syncDrain (c : Fin 96) (k : Strike)
  | coreStallResume (c : Fin 96)
  -- tile core: registers and streamers
  | coreRun (i : Initiator) (c : Fin 96)
  | coreStop (i : Initiator) (c : Fin 96)
  | corePcWrite (i : Initiator) (c : Fin 96) (v : W32)
  | coreFaultClr (i : Initiator) (c : Fin 96)
  | coreSbClear (i : Initiator) (c : Fin 96) (hi : W32)
  | coreSbSet (i : Initiator) (c : Fin 96) (hi : W32)
  | accTmodeWrite (i : Initiator) (c : Fin 96) (hi : W32)
  | coreInitDone (c : Fin 96)
  | strmPush (i : Initiator) (c : Fin 96) (s : Fin 4) (hi : W32)
  | strmPushFetch (c : Fin 96) (s : Fin 4)
  | strmCancel (i : Initiator) (c : Fin 96) (s : Fin 4)
  | strmFailClear (i : Initiator) (c : Fin 96) (s : Fin 4)
  | strmDescStart (c : Fin 96) (s : Fin 4) (tsBad : List Nat)
  | strmPartDone (c : Fin 96) (s : Fin 4) (d : Fin 4) (part : Nat) (ext : Ext)
  | strmDescComplete (c : Fin 96) (s : Fin 4) (d : Fin 4)
  -- accumulator
  | accMode (c : Fin 96) (k : Strike)
  | accZero (c : Fin 96) (k : Strike)
  | accLd (c : Fin 96) (k : Strike)
  | accSt (c : Fin 96) (k : Strike)
  | accPush (c : Fin 96) (k : Strike)
  | trqPush (c : Fin 96)
  | accSadd (c : Fin 96) (k : Strike)
  | accSmrg (c : Fin 96) (k : Strike)
  | accSfin (c : Fin 96) (k : Strike)
  -- vector engine
  | vsetvl (c : Fin 96) (k : Strike)
  | vld (c : Fin 96) (k : Strike)
  | vst (c : Fin 96) (k : Strike)
  | vstg8 (c : Fin 96) (k : Strike)
  | vtrqpop (c : Fin 96) (k : Strike)
  | vext (c : Fin 96) (k : Strike)
  | vins (c : Fin 96) (k : Strike)
  | vmov (c : Fin 96) (k : Strike)
  | vfadd (c : Fin 96) (k : Strike)
  | vfsub (c : Fin 96) (k : Strike)
  | vfmul (c : Fin 96) (k : Strike)
  | vffma (c : Fin 96) (k : Strike)
  | vfmax (c : Fin 96) (k : Strike)
  | vfmin (c : Fin 96) (k : Strike)
  | vfabs (c : Fin 96) (k : Strike)
  | vfneg (c : Fin 96) (k : Strike)
  | vrcp (c : Fin 96) (k : Strike)
  | vrsqrt (c : Fin 96) (k : Strike)
  | vsqrt (c : Fin 96) (k : Strike)
  | vexp2 (c : Fin 96) (k : Strike)
  | vlog2 (c : Fin 96) (k : Strike)
  | vtanh (c : Fin 96) (k : Strike)
  | vsigm (c : Fin 96) (k : Strike)
  | verf (c : Fin 96) (k : Strike)
  | vcvtif (c : Fin 96) (k : Strike)
  | vcvtfi (c : Fin 96) (k : Strike)
  | vexps (c : Fin 96) (k : Strike)
  | vfcmp (c : Fin 96) (k : Strike)
  | vfrsum (c : Fin 96) (k : Strike)
  | vfrmax (c : Fin 96) (k : Strike)
  | vfrmin (c : Fin 96) (k : Strike)
  | vsel (c : Fin 96) (k : Strike)
  | viadd (c : Fin 96) (k : Strike)
  | visub (c : Fin 96) (k : Strike)
  | vimul (c : Fin 96) (k : Strike)
  | vimax (c : Fin 96) (k : Strike)
  | vimin (c : Fin 96) (k : Strike)
  | vand (c : Fin 96) (k : Strike)
  | vor (c : Fin 96) (k : Strike)
  | vxor (c : Fin 96) (k : Strike)
  | vshl (c : Fin 96) (k : Strike)
  | vshra (c : Fin 96) (k : Strike)
  | vshrl (c : Fin 96) (k : Strike)
  | vicmp (c : Fin 96) (k : Strike)
  | virsum (c : Fin 96) (k : Strike)
  | vmset (c : Fin 96) (k : Strike)
  | vmnot (c : Fin 96) (k : Strike)
  | vmand (c : Fin 96) (k : Strike)
  | vmor (c : Fin 96) (k : Strike)
  | vmpop (c : Fin 96) (k : Strike)
  -- memory tiers: stacks 0 to 11 are F0 to F11, 12 to 19 are D0 to D7
  | fastLineRequest (f : Fin 12) (r : LineReq)
  | fastAccessDone (f : Fin 12) (n : Nat) (symErrors onDie : Nat)
  | deepGranuleRequest (d : Fin 8) (r : GranReq)
  | deepAccessDone (d : Fin 8) (n : Nat) (symErrors : List Nat) (onDie : Nat)
  | deepTierTimeout (d : Fin 8) (n : Nat) (issued : Bool)
  | refreshInterval (s : Fin 20) (channel bank : Nat)
  | bankRefresh (s : Fin 20) (channel bank : Nat)
  | stackTempSample (s : Fin 20) (celsius : Byte)
  | scrubStep (s : Fin 20) (symErrors : List (Nat × Nat)) (onDie : Nat)
  | rowlogClr (i : Initiator) (s : Fin 20)
  | errCaptureClear (i : Initiator) (s : Fin 20)
  | stackInitDone (s : Fin 20)
  | controllerReady (s : Fin 20)
  | selfRefreshExit (s : Fin 20)
  -- placement engine
  | ltaAccess (r : LtaReq)
  | migrationStart
  | promotionSector (slot : Fin 32)
  | stalledRequestResume (n : Nat)
  | writebackSector (slot : Fin 32)
  | frameWaitExpire (page : Nat)
  | epochTick
  | sweepVisit (die : Fin 2)
  | pagePoisonReport (page : Nat) (status : Byte) (loc : W64)
  | plcJournalReplay
  | plcRead (i : Initiator) (ch : Fin 4) (evt : Bool)
  | plcMap (i : Initiator) (ch : Fin 4) (evt : Bool)
  | plcUnmap (i : Initiator) (ch : Fin 4) (evt : Bool)
  | plcSetAttr (i : Initiator) (ch : Fin 4) (evt : Bool)
  | plcPromote (i : Initiator) (ch : Fin 4) (evt : Bool)
  | plcDemote (i : Initiator) (ch : Fin 4) (evt : Bool)
  | plcFlush (i : Initiator) (ch : Fin 4) (evt : Bool)
  | plcHome (i : Initiator) (ch : Fin 4) (evt : Bool)
  | plcRelocate (i : Initiator) (ch : Fin 4) (evt : Bool)
  | plcRetire (i : Initiator) (ch : Fin 4) (evt : Bool)
  | plcRelease (i : Initiator) (ch : Fin 4) (evt : Bool)
  | plcRebuild (i : Initiator) (ch : Fin 4) (evt : Bool)
  | ephLoad (i : Initiator) (ch : Fin 4) (evt : Bool)
  | ephArm (i : Initiator) (ch : Fin 4) (evt : Bool)
  | ephDisarm (i : Initiator) (ch : Fin 4) (evt : Bool)
  | ephUnload (i : Initiator) (ch : Fin 4) (evt : Bool)
  | plcCmdDone (ch : Fin 4)
  | ephMarker
  | ephDescPush (plan : Fin 4) (entry : Nat)
  | ephEntryComplete (plan : Fin 4) (entry : Nat)
  -- near-bank units
  | nbuPageAcquire (n : Fin 48) (page : Nat) (sectors : W64)
  | nbuFence (n : Fin 48) (page : Nat)
  | nbuPageRelease (n : Fin 48) (page : Nat)
  | burstGrant (n : Fin 48) (banks : List (Fin 32))
  | burstEnd (n : Fin 48)
  | burstPreempt (n : Fin 48)
  | nbuRowReceive (n : Fin 48) (row : Bytes)
  | nbuRowApply (n : Fin 48)
  | rowUnpark (n : Fin 48)
  | transposeTile (n : Fin 48)
  | nbuRowAnswer (n : Fin 48)
  | deltaReceive (n : Fin 48) (delta : Bytes)
  | deltaAckReceive (n : Fin 48) (ack : Bytes)
  | commitLineWrite (n : Fin 48)
  | deltaResend (n : Fin 48) (dev : Nat) (holder : Fin 48)
  | markSend (n : Fin 48) (dev : Nat) (holder : Fin 48)
  | nbuRetainedRestore (n : Fin 48)
  | progLoad (i : Initiator) (n : Fin 48) (evt : Bool)
  | bindLoad (i : Initiator) (n : Fin 48) (evt : Bool)
  | bindClear (i : Initiator) (n : Fin 48) (evt : Bool)
  | job (i : Initiator) (n : Fin 48) (evt : Bool)
  | jobPart (n : Fin 48)
  | audit (i : Initiator) (n : Fin 48) (evt : Bool)
  | transpose (i : Initiator) (n : Fin 48) (evt : Bool)
  | seqReset (i : Initiator) (n : Fin 48) (evt : Bool)
  | nbuCmdDone (n : Fin 48)
  -- gradient relay and rebuild channel
  | rlySqPiWrite (i : Initiator) (e : Fin 2) (q : Fin 16) (v : W32)
  | rlyOpen (e : Fin 2) (q : Fin 16)
  | rlySend (e : Fin 2) (q : Fin 16)
  | rlyCancel (e : Fin 2) (q : Fin 16)
  | rlyRelease (e : Fin 2) (q : Fin 16)
  | contribReceive (e : Fin 2) (rec : Bytes)
  | answerReceive (e : Fin 2) (rec : Bytes)
  | resendReceive (e : Fin 2) (rec : Bytes)
  | doneReceive (e : Fin 2) (rec : Bytes)
  | doneAckReceive (e : Fin 2) (rec : Bytes)
  | rlyHopTimeout (e : Fin 2) (n : Nat)
  | rlyRetryTimer (e : Fin 2) (n : Nat)
  | bucketDeadline (e : Fin 2) (tag : Nat)
  | bucketHardLimit (e : Fin 2) (tag : Nat)
  | rowDeliver (e : Fin 2)
  | nbuAnswerReceive (e : Fin 2) (answer : Bytes)
  | deliveryTimeout (e : Fin 2) (tag row : Nat)
  | doneRepeat (e : Fin 2) (n : Nat)
  | sendProbe (e : Fin 2) (n : Nat)
  | rlyRbPiWrite (i : Initiator) (e : Fin 2) (v : W32)
  | rebuildEntry (e : Fin 2)
  | xpartReceive (e : Fin 2) (rec : Bytes)
  | xpartReturn (e : Fin 2) (rec : Bytes) (ext : Ext)
  | xpartTimeout (e : Fin 2) (token : Nat)
  -- media
  | medSqPiWrite (i : Initiator) (r : Fin 8) (v : W32)
  | ingest (r : Fin 8) (d : Decoded)
  | shuf (r : Fin 8)
  | medCancel (r : Fin 8)
  | shufJobGenerate
  | ingestFrame (e : Fin 32) (ext : Ext)
  | ingestJobDone (e : Fin 32) (ext : Ext)
  -- Sargil fabric: links 0 to 23
  | linkEnable (i : Initiator) (l : Fin 24) (v : W32)
  | linkAdmit (i : Initiator) (l : Fin 24) (v : W32)
  | linkRetrain (i : Initiator) (l : Fin 25)
  | linkTrained (l : Fin 25) (lanes : Byte)
  | linkTrainingTimeout (l : Fin 25)
  | linkAutoRetrain (l : Fin 25)
  | laneLockLost (l : Fin 25)
  | initFlitReceive (l : Fin 25) (f : Flit)
  | dataFlitReceive (l : Fin 25) (f : Flit)
  | fecUncorrectable (l : Fin 25) (flits : Nat)
  | nakReceive (l : Fin 25) (f : Flit)
  | ackTimeout (l : Fin 25)
  | flitSend (l : Fin 25)
  | keepaliveSend (l : Fin 25)
  | keepaliveTimeout (l : Fin 25)
  | peerStalled (l : Fin 24)
  | helloReceive (l : Fin 24) (m : FabMsg)
  | helloProofReceive (l : Fin 24) (m : FabMsg)
  | messageRoute (ingress : Option (Fin 24)) (m : FabMsg)
  | fabricRequestIssue (m : FabMsg)
  | rdReq (m : FabMsg)
  | wrReq (m : FabMsg)
  | rdRsp (m : FabMsg)
  | wrRsp (m : FabMsg)
  | fabricRequestTimeout (tag : Nat)
  | relayMsgReceive (m : FabMsg)
  | srForward (ingress : Fin 24) (m : FabMsg)
  | srRead (m : FabMsg)
  | srWrite (m : FabMsg)
  | mailboxReceive (m : FabMsg)
  | fabcMgmtPush (i : Initiator) (hi : W32)
  | routeBankSwitch (i : Initiator)
  | jrnlExport (i : Initiator) (dev : Nat)
  | jrnlRevert (i : Initiator) (dev : Nat)
  | jrnlForget (i : Initiator) (dev : Nat)
  -- Raline host link
  | hRd (m : HostMsg) (ext : Ext)
  | hWr (m : HostMsg) (ext : Ext)
  | hostWriteIssue (owner : Nat) (addr : Nat) (data : Bytes)
  | hostReadIssue (owner : Nat) (addr : Nat) (len : Nat)
  | dRsp (m : HostMsg)
  | hostReadTimeout (tag : Nat)
  | jack (m : HostMsg)
  | resume (m : HostMsg)
  | hostReset (m : HostMsg)
  | detachTimeout
  | hostAttach (i : Initiator) (key : BitVec 16)
  | hostDetach (i : Initiator)
  | detachComplete
  | sqDoorbell (i : Initiator) (q : Fin 256) (v : W32)
  | cqHeadWrite (i : Initiator) (q : Fin 256) (v : W32)
  | sqFetch (q : Fin 256) (ext : Ext)
  | hlkNop (q : Fin 256) (cid : BitVec 16)
  | writeInline (q : Fin 256) (cid : BitVec 16) (ext : Ext)
  | copy (q : Fin 256) (cid : BitVec 16) (part : Nat) (src dst : Ext)
  | readSmall (q : Fin 256) (cid : BitVec 16) (ext : Ext)
  | fwCall (q : Fin 256) (cid : BitVec 16)
  | powerEnter (q : Fin 256) (cid : BitVec 16)
  | powerQuery (q : Fin 256) (cid : BitVec 16)
  | hlkCmdComplete (q : Fin 256) (cid : BitVec 16)
  | cqCoalTimer (q : Fin 256)
  | vecUnmask (i : Initiator) (v : Fin 256)
  | fwDone (i : Initiator) (hi : W32)
  | hwinWrite (i : Initiator) (w : Fin 64) (size : Bool) (hi : W32)
  -- control processors: 0 to 3 are CP0 to CP3, 4 to 7 are QS0 to QS3
  | procInstruction (p : Fin 8) (op : RvInstr) (len : Nat) (fetchFails : Option Byte)
  | procRun (i : Initiator) (p : Fin 8)
  | procHalt (i : Initiator) (p : Fin 8)
  | procDinv (i : Initiator) (p : Fin 8)
  | procWfiWake (p : Fin 8)
  | mtimecmpMatch (p : Fin 8)
  | wdtKick (i : Initiator) (p : Fin 8) (v : W32)
  | wdtExpire (p : Fin 8)
  -- event controller
  | evtSwraise (i : Initiator) (v : W32)
  | evtRingWrite (t : Fin 9)
  | evtNestEnter (i : Initiator) (t : Fin 9)
  | evtNestExit (i : Initiator) (t : Fin 9)
  | evtTgtCiWrite (i : Initiator) (t : Fin 9) (v : W32)
  | evtFaultClear (i : Initiator) (t : Fin 9)
  | evtSrcPurge (i : Initiator) (n : Nat)
  | evtLineAccept (l : Fin 8) (asserted : Bool)
  | domeBufferDrain
  -- boot and security
  | modeOvr (i : Initiator) (m : Fin 16)
  | confirm (i : Initiator)
  | bootRelease (i : Initiator)
  | bootHostData (i : Initiator) (v : W32)
  | flashRead (i : Initiator)
  | flashProgram (i : Initiator)
  | flashErase (i : Initiator)
  | flashReadId (i : Initiator) (id : Bytes)
  | flashDone
  | secHash (i : Initiator)
  | secVerify (i : Initiator)
  | secExtend (i : Initiator)
  | secReport (i : Initiator)
  | svnSet (i : Initiator)
  | keyProgram (i : Initiator)
  | keyRevoke (i : Initiator)
  | lifecycleAdvance (i : Initiator)
  | secCmdDone
  | secPermLock (i : Initiator)
  | helloProofSign (l : Fin 24)
  -- reset controller
  | railThreshold (r : Rail) (good : Bool)
  | resetPinAccept (high : Bool)
  | clockMonitorWindow (edges : Nat)
  | rstSwreq (i : Initiator) (v : W32)
  | rstDbgreq (i : Initiator) (v : W32)
  | resetSourceAssert (src : RstSource) (reach : Reach) (hart : Option (Fin 8))
  | resetSourceRelease (src : RstSource)
  | fuseLoadDone (words : List W32)
  | pllLockDone
  | resetRelease
  | blockResetRequest (i : Initiator) (b : Fin 64)
  | blockResetEnter (b : Fin 64)
  | blkTimeout (b : Fin 64)
  | blockResetEnd (i : Initiator) (b : Fin 64)
  | blkDone (b : Fin 64)
  -- power
  | entryQuiesced
  | entryClockStop
  | entryAbandoned
  | wakePinAccept (high : Bool)
  | smbusAddressMatch (addr : BitVec 7)
  | ralineActivity
  | watchWake (source : Nat)
  | wakeDone
  | offWake
  | domainAutoOff (d : Fin 41)
  | domainWake (d : Fin 41)
  | domainReady (d : Fin 41)
  | oppDone
  | powerSample (fast slow : Nat) (energy : Nat)
  | capAdjust
  | thermalSample (tj : Byte) (sensor : Fin 40)
  | thermalShutdown
  | railEnRelease
  | smbusBlockRead (code : Byte)
  -- the Plate, and the late rows of the table
  | platePublish (i : Initiator)
  | plateClear (i : Initiator)
  | plateClearDone
  | plateAck (i : Initiator) (seq : W32)
  | powerOnHoldEnd
  | pllLossOfLock
  | vstbyLoss
  | strapReadDone (codes : List Byte)
  deriving DecidableEq, Repr

end Sys2Proof
end

