-- ==== Sys2Proof/Decode.lean ====
section
/-! DEFINITION. The words that spell commands: the table of commands gives no row any bits, so no word
spells one (log entry 1). -/

namespace Sys2Proof

/-- The command a word spells by the table's bits: none, since no row of the table gives bits. -/
def decodeTableWord (_nbits _w : Nat) : Option Instr := none

end Sys2Proof
end

