-- ==== Sys2Proof/Config.lean ====
section
/-! DEFINITION. What an implementation fixes and the manual leaves open: free values, which nothing in
Lean can evaluate, and functions whose definition the manual takes from other documents. -/

namespace Sys2Proof.Config

/-- The free value of a value the manual leaves open. The first argument is the kind of value, the
second a counter of the state (or the operands' own bits), so that two open values need not agree. -/
opaque freeValue (kind counter : Nat) : Nat

/-- R135 and the rules after it: each of the seven vector functions is a fixed function of its
input bits whose result lies within the stated accuracy; nothing else is stated of its value. -/
opaque vrcp : Nat → Nat
opaque vrsqrt : Nat → Nat
opaque vexp2 : Nat → Nat
opaque vlog2 : Nat → Nat
opaque vtanh : Nat → Nat
opaque vsigm : Nat → Nat
opaque verf : Nat → Nat

/-- SHA-384 (R485, R488): the manual names the function and leaves its definition to its source. The number is the
one that the 48 bytes of the hash spell in little-endian order. -/
opaque sha384 : List Byte → BitVec 384

/-- ECDSA on brainpoolP384r1 (R483, R499): whether a 96-byte signature of a 48-byte digest verifies under a 97-byte
public key. -/
opaque ecdsaVerify (key digest signature : List Byte) : Bool

/-- The 96-byte signature of a digest by the key of the device whose seed is given (R491). -/
opaque ecdsaSign (seed : Nat) (digest : List Byte) : List Byte

/-- The public key, 97 bytes, of the device whose seed is given (R491). -/
opaque devPub (seed : Nat) : List Byte

/-- The subject public key of the first certificate of an identity chain (R491). -/
opaque leafKey (chain : List Byte) : List Byte

/-- A RISC-V floating-point operation by its number, rounding mode and operands: the result and the
five exception flags (the manual names IEEE 754 and the RISC-V specification, R437). -/
opaque floatResult (op rm a b c : Nat) : Nat
opaque floatFlags (op rm a b c : Nat) : BitVec 5

end Sys2Proof.Config
end

