-- ==== Sys2Proof/Machine/Formats.lean ====
section
/-! DEFINITION. Number formats (R50 to R59), exact values, rounding, the conversion to a destination format
(R71 to R74) and the FP32 arithmetic of the array and the vector engine (R65, R66, R133). -/

namespace Sys2Proof.Machine

/-- A value as the arithmetic sees it: (−1)^neg × m × 2^e, an infinity, or NaN. -/
inductive Num where
  | nan
  | inf (neg : Bool)
  | fin (neg : Bool) (m : Nat) (e : Int)
  deriving DecidableEq, Repr

/-- A floating format: exponent bits, fraction bits, bias, and whether infinities exist (E4M3 has none and
uses its top exponent for finite values, R52). -/
structure Fp where
  ebits : Nat
  fbits : Nat
  bias : Int
  ieee : Bool
  deriving DecidableEq, Repr

def fp32 : Fp := ⟨8, 23, 127, true⟩
def fp64 : Fp := ⟨11, 52, 1023, true⟩
def binary16 : Fp := ⟨5, 10, 15, true⟩
def bf16 : Fp := ⟨8, 7, 127, true⟩
def f19 : Fp := ⟨8, 10, 127, true⟩
def e4m3 : Fp := ⟨4, 3, 7, false⟩
def e5m2 : Fp := ⟨5, 2, 15, true⟩

/-- R50: element width in bits of a format code; G8 elements are bytes. -/
def fmtBits (fmt : Nat) : Nat :=
  match fmt with
  | 0 => 32 | 1 => 16 | 2 => 16 | 3 => 32 | 4 => 8 | 5 => 8 | 6 => 8 | 7 => 8 | 8 => 4 | 9 => 4
  | 10 => 8 | 11 => 8 | _ => 8

/-- R50: the codes 0x0 to 0xB are defined. -/
def fmtDefined (fmt : Nat) : Bool := decide (fmt < 12)

/-- R50: floating formats. -/
def fmtFloat (fmt : Nat) : Bool := decide (fmt < 6)

/-- R50: integer formats. -/
def fmtInt (fmt : Nat) : Bool := decide (6 ≤ fmt) && decide (fmt < 10)

/-- R56: bytes of a 64 × 64 tile. -/
def tileBytes (fmt : Nat) : Nat := 512 * fmtBits fmt

/-- The layout of a floating code; F19 is held in its container (R53). -/
def fmtFp (fmt : Nat) : Fp :=
  match fmt with
  | 0 => fp32 | 1 => binary16 | 2 => bf16 | 3 => f19 | 4 => e4m3 | _ => e5m2

/-- R51, R52: the value an encoding stands for. -/
def fpDec (f : Fp) (v : Nat) : Num :=
  let neg := bit v (f.ebits + f.fbits)
  let e := bits v (f.ebits + f.fbits - 1) f.fbits
  let m := bits v (f.fbits - 1) 0
  let top := 2 ^ f.ebits - 1
  if f.ieee ∧ e = top then (if m = 0 then .inf neg else .nan)
  else if ¬ f.ieee ∧ e = top ∧ m = 2 ^ f.fbits - 1 then .nan
  else if e = 0 then .fin neg m (1 - f.bias - f.fbits)
  else .fin neg (m + 2 ^ f.fbits) (e - f.bias - f.fbits)

/-- R52: canonical NaN. -/
def fpNan (f : Fp) : Nat :=
  if f.ieee then (2 ^ f.ebits - 1) <<< f.fbits + 2 ^ (f.fbits - 1)
  else 2 ^ (f.ebits + f.fbits) - 1

/-- Sign bit in place. -/
def fpSign (f : Fp) (neg : Bool) : Nat := if neg then 2 ^ (f.ebits + f.fbits) else 0

/-- An infinity. -/
def fpInf (f : Fp) (neg : Bool) : Nat := fpSign f neg + (2 ^ f.ebits - 1) <<< f.fbits

/-- R51: the largest finite encoding. -/
def fpMax (f : Fp) (neg : Bool) : Nat :=
  fpSign f neg + (if f.ieee then (2 ^ f.ebits - 1) <<< f.fbits - 1 else 2 ^ (f.ebits + f.fbits) - 2)

/-- Rounding modes: to nearest even, toward zero, and the two directed modes and ties away that RISC-V adds. -/
inductive Rnd where
  | rne | rtz | rdn | rup | rmm
  deriving DecidableEq, Repr

/-- `m / 2^k` rounded to a whole number. -/
def roundShift (r : Rnd) (neg : Bool) (m k : Nat) : Nat :=
  let q := m >>> k
  let rem := m % 2 ^ k
  let up :=
    match r with
    | .rne => decide (2 * rem > 2 ^ k) || (decide (2 * rem = 2 ^ k) && decide (q % 2 = 1) && decide (0 < k))
    | .rtz => false
    | .rdn => neg && decide (rem ≠ 0)
    | .rup => !neg && decide (rem ≠ 0)
    | .rmm => decide (2 * rem ≥ 2 ^ k) && decide (0 < k)
  if up then q + 1 else q

/-- ⌊log₂⌋ of a non-zero magnitude m × 2^e. -/
def floorLog2 (m : Nat) (e : Int) : Int := (Nat.log2 m : Int) + e

/-- A magnitude rounded to the precision of a format, its exponent range taken as unbounded above (R72):
the significand and the exponent of its last place. -/
def fpRoundMag (f : Fp) (r : Rnd) (neg : Bool) (m : Nat) (e : Int) : Nat × Int :=
  if m = 0 then (0, 1 - f.bias - f.fbits) else
  let q := max (floorLog2 m e - f.fbits) (1 - f.bias - f.fbits)
  let n := if q ≤ e then m <<< (e - q).toNat else roundShift r neg m (q - e).toNat
  if n = 2 ^ (f.fbits + 1) then (2 ^ f.fbits, q + 1) else (n, q)

/-- The encoding's exponent-and-fraction bits as a number; it exceeds the largest finite encoding when the
rounded magnitude does. -/
def fpMagCode (f : Fp) (n : Nat) (q : Int) : Nat :=
  if n < 2 ^ f.fbits then n
  else ((q + f.fbits + f.bias).toNat) <<< f.fbits + (n - 2 ^ f.fbits)

/-- A finite magnitude rounded into a format: its code, and whether it overflows (R72). -/
def fpRoundCode (f : Fp) (r : Rnd) (neg : Bool) (m : Nat) (e : Int) : Nat × Bool :=
  let (n, q) := fpRoundMag f r neg m e
  let c := fpMagCode f n q
  (c, decide (fpMax f false < c))

/-- IEEE rounding into a format: overflow gives an infinity, or the largest finite value where the mode
does not round away from zero. -/
def fpEnc (f : Fp) (r : Rnd) (x : Num) : Nat :=
  match x with
  | .nan => fpNan f
  | .inf neg => fpInf f neg
  | .fin neg m e =>
    let (c, ov) := fpRoundCode f r neg m e
    if ov then
      (match r with
       | .rtz => fpMax f neg
       | .rdn => if neg then fpInf f neg else fpMax f neg
       | .rup => if neg then fpMax f neg else fpInf f neg
       | _ => fpInf f neg)
    else fpSign f neg + c

/-! ### Exact arithmetic -/

/-- R66: exact product. -/
def numMul : Num → Num → Num
  | .nan, _ => .nan
  | _, .nan => .nan
  | .inf a, .inf b => .inf (a != b)
  | .inf a, .fin b m _ => if m = 0 then .nan else .inf (a != b)
  | .fin a m _, .inf b => if m = 0 then .nan else .inf (a != b)
  | .fin a m e, .fin b m' e' => .fin (a != b) (m * m') (e + e')

/-- A signed magnitude as an integer. -/
def sgnInt (neg : Bool) (m : Nat) : Int := if neg then -(m : Int) else m

/-- R66: exact sum; an exact zero is +0 unless both terms are negative (round to nearest even). -/
def numAdd : Num → Num → Num
  | .nan, _ => .nan
  | _, .nan => .nan
  | .inf a, .inf b => if a = b then .inf a else .nan
  | .inf a, _ => .inf a
  | _, .inf b => .inf b
  | .fin a m e, .fin b m' e' =>
    let lo := min e e'
    let x := sgnInt a (m <<< (e - lo).toNat) + sgnInt b (m' <<< (e' - lo).toNat)
    if x = 0 then .fin (a && b) 0 lo else .fin (decide (x < 0)) x.natAbs lo

def numNeg : Num → Num
  | .nan => .nan
  | .inf n => .inf (!n)
  | .fin n m e => .fin (!n) m e

def numAbs : Num → Num
  | .nan => .nan
  | .inf _ => .inf false
  | .fin _ m e => .fin false m e

/-- A quotient with a sticky bit below 80 quotient bits, enough for one correct rounding of any format. -/
def numDiv : Num → Num → Num
  | .nan, _ => .nan
  | _, .nan => .nan
  | .inf _, .inf _ => .nan
  | .inf a, .fin b _ _ => .inf (a != b)
  | .fin a _ e, .inf b => .fin (a != b) 0 e
  | .fin a m e, .fin b m' e' =>
    if m' = 0 then (if m = 0 then .nan else .inf (a != b))
    else if m = 0 then .fin (a != b) 0 e
    else
      let k := 80 + Nat.log2 m'
      let n := m <<< k
      let q := n / m'
      .fin (a != b) (2 * q + (if n % m' = 0 then 0 else 1)) (e - e' - k - 1)

/-- Integer square root, bit by bit from bit `k`. -/
def isqrt (n : Nat) : Nat → Nat → Nat
  | 0, acc => if (acc + 1) * (acc + 1) ≤ n then acc + 1 else acc
  | k + 1, acc =>
    let t := acc + 2 ^ (k + 1)
    isqrt n k (if t * t ≤ n then t else acc)

/-- A square root with a sticky bit. −0 keeps its sign; a negative value gives NaN (R135). -/
def numSqrt : Num → Num
  | .nan => .nan
  | .inf neg => if neg then .nan else .inf false
  | .fin neg m e =>
    if m = 0 then .fin neg 0 e else if neg then .nan
    else
      let sh := if (e - 160) % 2 = 0 then 160 else 161
      let n := m <<< sh
      let r := isqrt n (Nat.log2 n / 2 + 1) 0
      .fin false (2 * r + (if r * r = n then 0 else 1)) ((e - sh) / 2 - 1)

/-- Order of two numbers that are not NaN, with −0 equal to +0. -/
def numLt : Num → Num → Bool
  | .nan, _ => false
  | _, .nan => false
  | .inf a, .inf b => a && !b
  | .inf a, .fin _ _ _ => a
  | .fin _ _ _, .inf b => !b
  | .fin a m e, .fin b m' e' =>
    let lo := min e e'
    decide (sgnInt a (m <<< (e - lo).toNat) < sgnInt b (m' <<< (e' - lo).toNat))

def numEq (x y : Num) : Bool := x ≠ .nan && y ≠ .nan && !numLt x y && !numLt y x

/-- Multiplication by 2^k: exact (R60). -/
def numScale (x : Num) (k : Int) : Num :=
  match x with
  | .fin n m e => .fin n m (e + k)
  | y => y

/-- An integer as an exact number. -/
def numOfInt (x : Int) : Num := .fin (decide (x < 0)) x.natAbs 0

/-- A finite number rounded to an integer. -/
def numToInt (r : Rnd) : Num → Int
  | .fin neg m e =>
    sgnInt neg (if 0 ≤ e then m <<< e.toNat else roundShift r neg m (-e).toNat)
  | _ => 0

/-! ### FP32 operations: one rounding to nearest even, canonical NaN (R52, R133) -/

def dec32 (v : Nat) : Num := fpDec fp32 (v % 2 ^ 32)
def enc32 (x : Num) : Nat := fpEnc fp32 .rne x
def fadd (a b : Nat) : Nat := enc32 (numAdd (dec32 a) (dec32 b))
def fsub (a b : Nat) : Nat := enc32 (numAdd (dec32 a) (numNeg (dec32 b)))
def fmul (a b : Nat) : Nat := enc32 (numMul (dec32 a) (dec32 b))
def fdiv (a b : Nat) : Nat := enc32 (numDiv (dec32 a) (dec32 b))
def ffma (a b c : Nat) : Nat := enc32 (numAdd (numMul (dec32 a) (dec32 b)) (dec32 c))
def fsqrt (a : Nat) : Nat := enc32 (numSqrt (dec32 a))

/-- FP32 canonical NaN. -/
def nan32 : Nat := 0x7FC0_0000

def isNan32 (v : Nat) : Bool := dec32 v = .nan

/-- R133: −0.0 orders below +0.0. -/
def fltOrd (a b : Nat) : Bool :=
  numLt (dec32 a) (dec32 b) || (numEq (dec32 a) (dec32 b) && bit a 31 && !bit b 31)

/-- R133: VFMAX. Two NaNs give the canonical NaN. -/
def fmax (a b : Nat) : Nat :=
  if isNan32 a then (if isNan32 b then nan32 else b) else if isNan32 b then a
  else if fltOrd a b then b else a

/-- R133: VFMIN. -/
def fmin (a b : Nat) : Nat :=
  if isNan32 a then (if isNan32 b then nan32 else b) else if isNan32 b then a
  else if fltOrd b a then b else a

/-! ### Elements -/

/-- The element with index i of a run of elements of w bits (R56): nibbles low half first. -/
def elemAt (bs : Bytes) (w i : Nat) : Nat :=
  if w = 4 then (fieldAt bs (i / 2) 1) / (if i % 2 = 0 then 1 else 16) % 16
  else fieldAt bs (w / 8 * i) (w / 8)

/-- All elements of a run of bytes, in order. -/
def elemsOf (bs : Bytes) (w : Nat) : List Nat :=
  if w = 4 then bs.flatMap (fun b => [b.toNat % 16, b.toNat / 16])
  else
    let n := w / 8
    let rec go : Nat → Bytes → List Nat
      | 0, _ => []
      | k + 1, r => fromLE (r.take n) :: go k (r.drop n)
    go (bs.length / n) bs

/-- Elements of w bits packed into bytes (R56). -/
def packElems (w : Nat) : List Nat → Bytes
  | [] => []
  | x :: xs =>
    if w = 4 then
      match xs with
      | [] => [BitVec.ofNat 8 (x % 16)]
      | y :: ys => BitVec.ofNat 8 (x % 16 + 16 * (y % 16)) :: packElems w ys
    else toLE x (w / 8) ++ packElems w xs

/-- R51 to R53: the value of an element of a floating format. -/
def decElem (fmt v : Nat) : Num :=
  if fmt = 3 then fpDec f19 (bits v 31 13) else fpDec (fmtFp fmt) v

/-- R55: the value of an element of an integer format. -/
def intElem (fmt v : Nat) : Int :=
  match fmt with
  | 6 => signed 8 v | 7 => (v % 256 : Nat) | 8 => signed 4 v | _ => (v % 16 : Nat)

/-- R130: an element loaded to a 32-bit lane. FP32 moves bit for bit. -/
def loadElem (fmt v : Nat) : Nat :=
  if fmt = 0 then v % 2 ^ 32
  else if fmtFloat fmt then enc32 (decElem fmt v)
  else wrapInt 32 (intElem fmt v)

/-! ### Conversion to a destination format (R71 to R74) -/

/-- The sticky flags of R74. -/
structure Flags where
  overflow : Bool := false
  saturated : Bool := false
  nanOut : Bool := false
  g8Invalid : Bool := false
  deriving DecidableEq, Repr

def flagsOr (a b : Flags) : Flags :=
  ⟨a.overflow || b.overflow, a.saturated || b.saturated, a.nanOut || b.nanOut, a.g8Invalid || b.g8Invalid⟩

/-- R74: the flags in their register's bit order. -/
def flagsNat (f : Flags) : Nat :=
  (if f.overflow then 1 else 0) + (if f.saturated then 2 else 0) + (if f.nanOut then 4 else 0)
    + (if f.g8Invalid then 8 else 0)

/-- R71: a permitted conversion control: a defined code other than E8M0, and its reserved bits zero. -/
def convOk (ctl : Nat) : Bool := decide (ctl / 16 < 11) && decide (ctl % 4 = 0)

/-- R71: rounding of a conversion control. -/
def convRnd (ctl : Nat) : Rnd := if bit ctl 2 then .rtz else .rne

/-- R72: the range of an integer destination. -/
def intRange (fmt : Nat) : Int × Int :=
  match fmt with
  | 6 => (-128, 127) | 7 => (0, 255) | 8 => (-8, 7) | _ => (0, 15)

/-- R72, R74: a conversion to a floating destination. -/
def convFloat (fmt : Nat) (sat : Bool) (r : Rnd) (x : Num) : Nat × Flags :=
  let f := fmtFp fmt
  let place (c : Nat) : Nat := if fmt = 3 then c <<< 13 else c
  match x with
  | .nan => (place (fpNan f), { nanOut := true })
  | .inf neg =>
    if sat then (place (fpMax f neg), { saturated := true })
    else if f.ieee then (place (fpInf f neg), {})
    else (fpSign f neg + fpNan f, { nanOut := true })
  | .fin neg m e =>
    let (c, ov) := fpRoundCode f r neg m e
    if !ov then (place (fpSign f neg + c), {})
    else if r = .rtz then (place (fpMax f neg), { overflow := true, saturated := sat })
    else if sat then (place (fpMax f neg), { overflow := true, saturated := true })
    else if f.ieee then (place (fpInf f neg), { overflow := true })
    else (fpSign f neg + fpNan f, { overflow := true, nanOut := true })

/-- R72, R74: a conversion to an integer destination. -/
def convInt (fmt : Nat) (r : Rnd) (x : Num) : Nat × Flags :=
  let (lo, hi) := intRange fmt
  let w := fmtBits fmt
  match x with
  | .nan => (0, {})
  | .inf neg => (wrapInt w (if neg then lo else hi), { saturated := true })
  | y =>
    let v := numToInt r y
    if v < lo then (wrapInt w lo, { overflow := true, saturated := true })
    else if hi < v then (wrapInt w hi, { overflow := true, saturated := true })
    else (wrapInt w v, {})

/-- R72: one element converted under a conversion control. G8 is by group (`convG8`). -/
def convElem (ctl : Nat) (x : Num) : Nat × Flags :=
  if fmtFloat (ctl / 16) then convFloat (ctl / 16) (bit ctl 3) (convRnd ctl) x
  else convInt (ctl / 16) (convRnd ctl) x

/-- The largest exponent ⌊log₂ |x|⌋ of the non-zero values of a group. -/
def groupExp : List Num → Option Int
  | [] => none
  | .fin _ m e :: xs =>
    if m = 0 then groupExp xs
    else match groupExp xs with
      | none => some (floorLog2 m e)
      | some k => some (max k (floorLog2 m e))
  | _ :: xs => groupExp xs

/-- R73: one G8 row group: its exponent byte, its mantissas and the flags. -/
def convG8 (r : Rnd) (xs : List Num) : Nat × List Int × Flags :=
  if xs.any (fun x => match x with | .fin _ _ _ => false | _ => true) then
    (0xFF, xs.map (fun _ => 0), { g8Invalid := true })
  else
    match groupExp xs with
    | none => (0, xs.map (fun _ => 0), {})
    | some k =>
      let big := decide (254 < k + 127)
      let X : Int := if k + 127 < 1 then 1 else if big then 254 else k + 127
      let mant (x : Num) : Int :=
        let v := numToInt r (numScale x (6 - (X - 127)))
        if v < -127 then -127 else if 127 < v then 127 else v
      (X.toNat, xs.map mant, { overflow := big, saturated := big })

/-- R57: the value of a G8 element. -/
def g8Value (m : Int) (X : Nat) : Num := numScale (numOfInt m) ((X : Int) - 133)

/-! ### Operands of the array (R63, R68) -/

/-- R63, R64: FP32 to F19 by truncation or rounding; a NaN stays NaN. -/
def toF19 (r : Rnd) (x : Num) : Num :=
  match x with
  | .fin neg m e => fpDec f19 (fpEnc f19 r (.fin neg m e))
  | y => y

/-- R68: the high and low part of an FP32 operand in multipass use. -/
def splitF19 (x : Num) : Num × Num :=
  match x with
  | .fin neg m e =>
    let hi := toF19 .rtz (.fin neg m e)
    (hi, toF19 .rne (numAdd (.fin neg m e) (numNeg hi)))
  | y => (y, .fin false 0 0)

/-- The zero low part of an operand that is not split. -/
def numZero : Num := .fin false 0 0

/-- The two parts of an operand element: `multi` when a pass uses its low part, else a single conversion
under RND_IN (R62, R68). -/
def operandParts (fmt : Nat) (rndIn multi : Bool) (v : Nat) : Num × Num :=
  let x := decElem fmt v
  if fmt = 0 then (if multi then splitF19 x else (toF19 (if rndIn then .rne else .rtz) x, numZero))
  else (x, numZero)

/-- R60: an E8M0 scale byte as a power of two; 0xFF is NaN. -/
def scaleExp (s : Nat) : Option Int := if s = 255 then none else some ((s : Int) - 127)

/-- R60, R65, R66: an exact product with its scales; beyond the FP32 range it is an infinity. -/
def scaledProduct (a b : Num) (sa sb : Option Int) : Num :=
  match sa, sb with
  | some i, some j =>
    match numScale (numMul a b) (i + j) with
    | .fin neg m e => if (fpRoundCode fp32 .rne neg m e).2 then .inf neg else .fin neg m e
    | y => y
  | _, _ => .nan

end Sys2Proof.Machine
end

