-- ==== Sys2Proof/Machine/State.lean ====
section
/-! DEFINITION. The state of the module: every register, memory, table, queue, counter, mode and latch
the manual gives it, as plain data, and the machine right after a power-on reset. -/

namespace Sys2Proof.Machine

/-- Why the machine stops. No command of this model stops: the manual gives each of them an effect. -/
inductive Fault where
  /-- A command to which the manual gives no effect at all. No meaning raises it; stopping is safe. -/
  | noEffect (why : String)
  deriving DecidableEq, Repr

/-- Why a command has no meaning. -/
inductive Refusal where
  /-- Raised by a dispatch arm whose meaning is not written; refusing is safe. -/
  | notModelled (mnemonic : String)
  deriving DecidableEq, Repr

/-- The blocks of the control-register space (R33), with their unit numbers. -/
inductive Blk where
  | glb | rst | pwr | evt | aon | boot | sec | clk
  | core (c : Nat) | quad (q : Nat) | fsc (s : Nat) | nbu (n : Nat) | dsc (d : Nat)
  | plc | rly (e : Nat) | port (p : Nat) | fabc | hlk | med | cpx | dbg
  deriving DecidableEq, Repr

/-- An event record before delivery (R19, R452). `level` and `target` are fixed when it is raised. -/
structure EvRec where
  src : Nat
  level : Nat
  target : Nat
  code : Nat
  stamp : Nat
  d0 : Nat
  d1 : Nat
  deriving DecidableEq, Repr

/-- One event target's delivery state (R455 to R460): indices, next sequence number, the groups of the
ring's unconsumed entries (oldest first), and the nesting stack (top first). -/
structure Target where
  pi : Nat := 0
  ci : Nat := 0
  seq : Nat := 0
  groups : List Nat := []
  stack : List Nat := []
  fault : Bool := false
  fstat : Nat := 0
  /-- The host target's interrupt condition as last seen (R460). -/
  irqSeen : Bool := false
  deriving DecidableEq, Repr

/-- The event controller and the Dome's record buffer (R451 to R464). -/
structure Evt where
  pool : List EvRec := []
  tgts : SMap Target := []
  dome : List EvRec := []
  /-- Accepted level of each external line, true when asserted (R462). -/
  lines : SMap Bool := []
  /-- Lines whose accepted level has not been taken since the last reset (R462, reset exit). -/
  linesFresh : List Nat := []
  deriving DecidableEq, Repr

/-- A register write held by a commit in progress (R45). -/
structure HeldWrite where
  ini : Initiator
  addr : Nat
  v : Nat
  deriving DecidableEq, Repr

/-- Where the exit sequence of a reset stands (R509). -/
inductive ExitPhase where
  | none | strap | fuse | pll | release
  deriving DecidableEq, Repr

/-- The reset controller (R500 to R513). Masks are in RST_CAUSE bit order for sources, and in
RST_BLK_REQ bit order for blocks, with 48 CP0, 52 GLB, 53 BOOT, 54 SEC, 55 CPX, 56 DBG. -/
structure Rst where
  asserted : Nat := 0
  episode : Bool := false
  epReach : Nat := 2
  epSources : Nat := 0
  epHart : Option Nat := none
  phase : ExitPhase := .none
  /-- Blocks in a device reset. -/
  dev : Nat := 0
  /-- Blocks in a block reset. -/
  blk : Nat := 0
  /-- Idle requests pending (R511). -/
  idle : Nat := 0
  /-- Blocks whose own exit after a block reset has not ended (R512). -/
  exiting : Nat := 0
  /-- Accepted level of RESET_N. -/
  pinHigh : Bool := false
  /-- Rails below their thresholds (numbered by `railIndex`). -/
  railsLow : Nat := 0
  /-- Dome supply valid. -/
  domeValid : Bool := false
  /-- Consecutive good clock-monitor windows, up to 4; clock monitor failure; PLL loss of lock. -/
  goodWindows : Nat := 4
  refFail : Bool := false
  pllFail : Bool := false
  /-- Strap sample sets (R470) and fuse loads (R473) made in this exit. -/
  sets : Nat := 0
  loads : Nat := 0
  /-- An exit that is a wake from Deep sleep and no reset episode (R527). -/
  wakeExit : Bool := false
  deriving DecidableEq, Repr

/-- A POWER ENTER in progress (R520). -/
structure Entry where
  target : Nat
  sq : Nat
  cid : Nat
  /-- Step 4 reached: the command has completed and the journal drains. -/
  completed : Bool := false
  deriving DecidableEq, Repr

/-- The power controller (R516 to R535) and the standby domain (R562 to R565). -/
structure Pwr where
  state : Nat := 0
  lastState : Nat := 0
  entry : Option Entry := none
  wakePend : Bool := false
  /-- A wake to Run is under way, from this state. -/
  waking : Option Nat := none
  cap : Nat := 9
  /-- Effective operating points, four bits each (R534). -/
  eff : Nat := 0
  oppPending : Bool := false
  trip : Bool := false
  fast : Nat := 0
  slow : Nat := 0
  tj : Nat := 0
  sensor : Nat := 0
  /-- Domains off, and off domains that are waking (R529, R530). -/
  off : Nat := 0
  domWaking : Nat := 0
  /-- Sensors in over-temperature: the thermal condition of R535 holds. -/
  hot : Bool := false
  wakePin : Bool := false
  railEn : Bool := false
  vstby : Bool := true
  /-- RAIL_EN is held off by a thermal shutdown (R565) or an Off entry (R563). -/
  shutHold : Bool := false
  /-- What an SMBus Block Read returned last (R569). -/
  smbus : Bytes := []
  deriving DecidableEq, Repr

/-- Core states (R105). -/
inductive CoreSt where
  | halted | running | waiting | fault
  deriving DecidableEq, Repr

/-- What a WAITING core waits for (R102, R103). -/
inductive Wait where
  | sb (mask : Nat) (clr : Bool)
  | bar (id : Nat)
  | drain
  deriving DecidableEq, Repr

/-- What stalls a RUNNING core at issue (R103, R124, R125). -/
inductive Stall where
  | queue (s : Nat)
  | trqEmpty
  | drain
  | unit (mm : Bool)
  deriving DecidableEq, Repr

/-- The weight registers of the array: cell (k, j)'s element code at 64k + j, k to 127 in dual-lane use,
with the operand control, depth and scale bytes of the load (R79 to R81). -/
structure Weights where
  opb : Nat
  depth : Bool
  cells : List Nat
  scale : List Nat
  deriving DecidableEq, Repr

/-- An MM run or tile-ready push that has issued and not completed, in program order (R82, R123). -/
structure Flight where
  seq : Nat
  tile : Nat
  /-- An MM run whose last row is not yet written. -/
  run : Bool
  /-- It pushes its tile. -/
  push : Bool
  /-- Made by the MM unit (else by ACC.PUSH). -/
  mm : Bool
  deriving DecidableEq, Repr

/-- A streamer queue entry: a descriptor (with the Ephemeris plan and entry it serves, if any) or a pushed
address whose descriptor is still to be read (R574). -/
inductive QEnt where
  | desc (b : Bytes) (eph : Option (Nat × Nat))
  | push (lta : Nat)
  deriving DecidableEq, Repr

/-- A descriptor in progress (R88, R95): its bytes, its part count, the status of each ended part, the entries of its
address list (none: an entry that did not correct), and the parts whose host writes are journaled (R425). -/
structure Prog where
  b : Bytes
  eph : Option (Nat × Nat)
  parts : Nat
  done : List (Nat × Nat) := []
  list : List (Option Nat) := []
  away : List Nat := []
  /-- Status of a rejected descriptor (R93), or of one cancelled: it moves no more bytes. -/
  ended : Option Nat := none
  deriving DecidableEq, Repr

/-- One streamer (R87 to R99): its queue, and its in-progress slots 0 to 3. -/
structure Strm where
  queue : List QEnt := []
  prog : SMap (Option Prog) := []
  deriving DecidableEq, Repr

/-- One tile core (R76 to R144), as it is after a reset: memories zero, its zeroing in progress. -/
structure Core where
  st : CoreSt := .halted
  wait : Option Wait := none
  stall : Option Stall := none
  pc : Nat := 0
  init : Bool := true
  x : SMap W64 := []
  sb : Nat := 0
  sbFail : Nat := 0
  /-- Status recorded against each failed scoreboard bit (R98). -/
  sbStatus : SMap Nat := []
  ts : List Host.Cell := []
  acc : SMap W32 := []
  imem : SMap W64 := []
  vreg : SMap W32 := []
  /-- Mask registers; all ones after reset. -/
  mask : SMap (BitVec 256) := []
  vl : Nat := 64
  /-- 8-byte units that no longer correct (R85, R117). -/
  tsBad : List Nat := []
  accBad : List Nat := []
  vregBad : List Nat := []
  maskBad : List Nat := []
  imemBad : List Nat := []
  tmode : Nat := 0
  shadow : Option Weights := none
  active : Option Weights := none
  flight : List Flight := []
  issued : Nat := 0
  trq : List Nat := []
  trqDropped : Bool := false
  /-- SIG instructions not delivered: the issue count they wait for, the core named and the bit (R103). -/
  sigs : List (Nat × Nat × Nat) := []
  /-- BAR arrived at (R103). -/
  bar : Option Nat := none
  strm : SMap Strm := []
  deriving DecidableEq, Repr

/-- What a stored line or granule holds when it is not a clean code word: a poison mark (R158), or latent
symbol errors that the next read decodes (R157; the largest count of its code words). -/
inductive Mark where
  | poison
  | errs (n : Nat)
  deriving DecidableEq, Repr

/-- One entry of a controller's row table (R162). The table is kept in order of last correction, oldest
first. -/
structure RowEnt where
  channel : Nat
  bank : Nat
  row : Nat
  count : Nat
  reported : Bool
  deriving DecidableEq, Repr

/-- One stack and its controller (R145 to R180), as it is after a reset. Stacks 0 to 11 are F0 to F11, 12
to 19 are D0 to D7. A queued request carries whether it has been accepted and, for a deep one, the stamp at
its acceptance. -/
structure Stk where
  /-- Contents not yet initialised since the last cold reset (R172). -/
  cold : Bool := true
  /-- In self-refresh because of a power state (R175). -/
  powerSr : Bool := false
  lines : List (LineReq × Bool) := []
  grans : List (GranReq × Option Nat) := []
  /-- The shorter tREFI is in use (R153). -/
  hotRate : Bool := false
  /-- Owed refreshes by channel (or pair) × 64 + bank (R152). -/
  owed : SMap Int := []
  /-- Open row plus one, by channel (or pair) × 64 + bank (R147). -/
  openRow : SMap Nat := []
  rowlog : List RowEnt := []
  /-- Banks held in a burst by near-bank unit k of the stack, and the units signalled to give theirs up
  (R222 to R224). -/
  bursts : SMap (List Nat) := []
  preempt : List Nat := []
  deriving DecidableEq, Repr

/-- An answer that the last command gave to a requester outside the modelled engines. -/
structure Answer where
  who : Nat
  status : Nat
  data : Bytes
  deriving DecidableEq, Repr

/-- Page states (R185). -/
inductive PSt where
  | invalid | fastHomed | deepResident | cachedClean | cachedDirty | migrating | poison | retired
  deriving DecidableEq, Repr

/-- A placement entry (R184). HEAT and EPOCH here are the region's; LOCK_NBU is the holder count. -/
structure Ent where
  dirty : Nat := 0
  epoch : Nat := 0
  heat : Nat := 0
  cfmt : Nat := 0
  banked : Bool := false
  stack : Nat := 0
  pin : Bool := false
  lockFw : Bool := false
  state : PSt := .invalid
  frame : Nat := 0
  pstate : PSt := .invalid
  extLen : Nat := 0
  dga : Nat := 0
  swtag : Nat := 0
  deriving DecidableEq, Repr

/-- What a migration does (R195). -/
inductive MigDir where
  | promote | demote | flush
  deriving DecidableEq, Repr

/-- A migration, waiting or in a slot (R188, R195, R196): its page, class, direction, the state it started
from, the sectors arrived (a mask), and the sectors its Ephemeris ranges name first. -/
structure Mig where
  page : Nat
  cls : Nat
  dir : MigDir
  start : PSt := .invalid
  arrived : Nat := 0
  eph : List (Nat × Nat) := []
  /-- A promotion that waits for a frame (R190). -/
  frameWait : Bool := false
  deriving DecidableEq, Repr

/-- An access stalled in the placement engine (R198, R199): its requester's key, page and sectors, and the
request itself when it came as a command. -/
structure Stalled where
  key : Nat
  page : Nat
  sectors : List Nat
  req : Option LtaReq
  deriving DecidableEq, Repr

/-- One part of a page command (R205): not begun, waiting for its migration, or ended. -/
inductive PlcPart where
  | todo
  | waits
  | ended (status : Nat)
  deriving DecidableEq, Repr

/-- A PLC command in progress (R205): `whole` is the status of one that ended before any part or has none. -/
structure PlcCmd where
  op : Nat
  a0 : Nat
  a1 : Nat
  a2 : Nat
  evt : Bool
  parts : List PlcPart
  whole : Option Nat := none
  deriving DecidableEq, Repr

/-- One firing of an Ephemeris entry that has not completed (R211): the pages of its range that ended (status
plus one, by index), whether its descriptor has been pushed, its streamer's status, and whether it was fired
in the current arming. -/
structure EphRun where
  pages : SMap Nat := []
  pushed : Bool := false
  result : Option Nat := none
  now : Bool := true
  deriving DecidableEq, Repr

/-- An entry of the trigger store (R207 to R211): its bytes, whether it is void, whether it may still fire in
this arming, has completed in it and has been counted late in it, and its firings in progress, oldest first. -/
structure EphEnt where
  b : Bytes
  isVoid : Bool := false
  ready : Bool := false
  done : Bool := false
  late : Bool := false
  runs : List EphRun := []
  deriving DecidableEq, Repr

/-- An Ephemeris plan slot (R206 to R211). -/
structure Plan where
  loaded : Bool := false
  armed : Bool := false
  ents : List EphEnt := []
  deriving DecidableEq, Repr

/-- A line in a near-bank unit's commit buffer (R247): its new bytes and, for a protected line, its delta, the
holder it is sent to (device × 64 + NBU), its sequence number once sent, and whether it is acknowledged. Its
group (R395), whether it is the group's stamp line, and the tile of a row's line. -/
structure CLine where
  lta : Nat
  data : Bytes
  delta : Bytes
  grp : Nat
  stamp : Bool
  prot : Bool
  key : Nat := 0
  paddr : Nat := 0
  seq : Option Nat := none
  acked : Bool := false
  tile : Option Nat := none
  deriving DecidableEq, Repr

/-- A row in the row buffer (R244, R245): the delivery, whether it is parked, and on which page. -/
structure NRow where
  raw : Bytes
  parked : Bool := false
  page : Option Nat := none
  deriving DecidableEq, Repr

/-- A row past its application (R235 to R238): the delivery, its binding record, the groups of lines it waits
for, whether a transposition is due, the pages it holds and the status it ends with. `entry`: it still holds
its row-buffer entry. -/
structure Work where
  raw : Bytes
  bind : Bytes := []
  grps : List Nat := []
  needT : Bool := false
  pages : List Nat := []
  status : Nat := 0
  entry : Bool := false
  deriving DecidableEq, Repr

/-- A command of a near-bank unit (R255). -/
structure NCmd where
  op : Nat
  a0 : Nat
  a1 : Nat
  a2 : Nat
  evt : Bool
  parts : List PlcPart := []
  whole : Option Nat := none
  /-- The job descriptor (R252), once read. -/
  job : Bytes := []
  grps : List Nat := []
  pages : List Nat := []
  /-- AUDIT: mismatching elements, and the first: tile, stream, element. -/
  miss : Nat := 0
  first : Option (Nat × Nat × Nat) := none
  deriving DecidableEq, Repr

/-- A mark sent and not acknowledged (R396): holder, sequence number and record. -/
structure MarkOut where
  key : Nat
  seq : Nat
  msg : Bytes
  deriving DecidableEq, Repr

/-- A near-bank unit (R219 to R258, R389 to R399), number 4s + k. -/
structure Nbu where
  rowq : List NRow := []
  /-- Credits the Relay holds (R244). -/
  credits : Nat := 0
  works : List Work := []
  progs : SMap (List Nat) := []
  binds : SMap Bytes := []
  commit : List CLine := []
  nextGrp : Nat := 0
  /-- Unresolved groups, with the holders of their deltas (R395). -/
  groups : SMap (List Nat) := []
  /-- Source sequence counters, the PADDR of the last delta, whether a delta was sent since the last mark, and
  resends without progress, by holder. -/
  nextSeq : SMap Nat := []
  lastPaddr : SMap (Option Nat) := []
  sinceMark : SMap Bool := []
  resends : SMap Nat := []
  marks : List MarkOut := []
  /-- Deltas of rows not yet covered by an acknowledged mark (R398): tile, holder, sequence number. -/
  uncovered : List (Nat × Nat × Nat) := []
  /-- Holder sequence table (R249): last applied, by source device × 64 + NBU. -/
  hseq : SMap (Option Nat) := []
  /-- Holder journal (R397), in order of application. -/
  jrnl : List Bytes := []
  /-- Pages acquired by bare acquires (R228). -/
  held : List Nat := []
  cmd : Option NCmd := none
  /-- Retained lines await restoring after a reset (R251). -/
  restoring : Bool := false
  deriving DecidableEq, Repr

/-- Row states of R304: DELIVERING is split by whether the row waits for its turn, for the unit's answer, or
for the retry interval. -/
inductive RowSt where
  | filling
  | ready
  | sent
  | later
  | held (status : Nat)
  | ended (status : Nat)
  deriving DecidableEq, Repr

/-- The recorded taker of a source in a row (R299): whether it is a Substitute, and the device and staging
form of its contribution. -/
structure Taker where
  sub : Bool
  dev : Nat
  sparse : Bool
  deriving DecidableEq, Repr

/-- A held Substitute (R299): exponent, mantissas, and who sent it in which form. -/
structure HeldSub where
  x : Nat
  ms : List Int
  dev : Nat
  sparse : Bool
  deriving DecidableEq, Repr

/-- A row slot (R295, R297): sums and residues, flags, the largest exponent taken, how far REF has been
raised, takers and taken marks by source, attempts, held Substitutes, the sources substituted (SUBMASK), and
whether the row has been sent to its unit. -/
structure RRow where
  st : RowSt := .filling
  sum : SMap Int := []
  res : SMap Nat := []
  tooBig : Bool := false
  invalid : Bool := false
  maxX : Nat := 0
  refUp : Nat := 0
  takers : SMap (Option Taker) := []
  taken : SMap Bool := []
  attempts : Nat := 0
  subs : SMap (Option HeldSub) := []
  everSent : Bool := false
  deriving DecidableEq, Repr

/-- An open bucket (R277, R287): its OPEN entry, delivery list and reference table, whether its deadline has
passed, its rows, the first-event marks, and the modules that contributed. -/
structure Bucket where
  entry : Bytes
  dlist : Bytes
  reft : Bytes
  passed : Bool := false
  rows : SMap RRow := []
  subEvt : Bool := false
  heldEvt : Bool := false
  senders : List Nat := []
  deriving DecidableEq, Repr

/-- A CONTRIB that its sender keeps (R293): tile, rows, bytes once read from staging, sends without an answer,
and whether it waits for the retry interval. -/
structure CRec where
  tile : Nat
  mask : Nat
  bytes : Option Bytes := none
  sends : Nat := 0
  waits : Bool := false
  deriving DecidableEq, Repr

/-- A SEND in progress (R288, R306): its entry, its parts' statuses, the tiles acknowledged and those with a
malformed sparse row, rows not taken, the bucket status once known, kept records, and unanswered probes
(`none`: not probing). -/
structure RSend where
  id : Nat
  entry : Bytes
  parts : List (Option Nat)
  acked : List Nat := []
  bad : List Nat := []
  notTaken : Nat := 0
  bstat : Option Nat := none
  recs : List CRec := []
  probes : Option Nat := none
  deriving DecidableEq, Repr

/-- A completion that waits for its completion word to be written (R291, R406): the entry and its report. -/
structure RFin where
  id : Nat
  entry : Bytes
  word : Nat
  map : Nat
  rebuild : Bool
  deriving DecidableEq, Repr

/-- A DONE that has had no DONE_ACK (R305). -/
structure RDone where
  tag : Nat
  step : Nat
  status : Nat
  dev : Nat
  sends : Nat
  deriving DecidableEq, Repr

/-- A rebuild entry in progress (R402 to R406): its contributors (device, page), and its sectors' statuses. -/
structure RbEnt where
  id : Nat
  entry : Bytes
  con : List (Nat × Nat)
  parts : List (Option Nat)
  deriving DecidableEq, Repr

/-- A sector in flight (R405): its entry, number, TOKEN and sends. -/
structure XOut where
  ent : Nat
  sector : Nat
  token : Nat
  sends : Nat
  deriving DecidableEq, Repr

/-- A Relay engine (R277 to R311, R402 to R406). -/
structure Rly where
  open_ : List Bucket := []
  /-- Last closed step of each tag, with the bucket status (R294). -/
  closed : SMap (Option (Nat × Nat)) := []
  /-- Complete rows waiting to be sent, in order of completion: tag and row (R303). -/
  dlv : List (Nat × Nat) := []
  sends : List RSend := []
  fins : List RFin := []
  dones : List RDone := []
  rbs : List RbEnt := []
  xouts : List XOut := []
  /-- Numbers the engine's requests and TOKENs. -/
  next : Nat := 0
  deriving DecidableEq, Repr

/-- An ingest job on a decode engine (R335 to R337): its ring, entry and profile, what its clip decoded to, its
frames' statuses, the status of a job that failed whole, concealed frames, and the number that names its free
values. -/
structure MedJob where
  ring : Nat
  entry : Bytes
  prof : Bytes := []
  clip : Decoded := { pictures := [] }
  parts : List (Option Nat) := []
  whole : Option Nat := none
  conceal : Nat := 0
  free : Nat := 0
  deriving DecidableEq, Repr

/-- The shuffle job (R340, R341): its ring, entry, template and rank table, the next slot, its parts so far, and
how it ended early. -/
structure ShufJob where
  ring : Nat
  entry : Bytes
  template : Bytes := []
  ranks : Bytes := []
  q : Nat := 0
  parts : List Nat := []
  whole : Option Nat := none
  stopped : Bool := false
  deriving DecidableEq, Repr

/-- The media block (R312 to R344). -/
structure Med where
  jobs : SMap (Option MedJob) := []
  shuf : Option ShufJob := none
  deriving DecidableEq, Repr

/-- Link states (R348, R419). -/
inductive LinkSt where
  | off | training | init | hello | up | down
  deriving DecidableEq, Repr

/-- One link: 0 to 23 the Sargil links, 24 the Raline link (R345 to R357, R417 to R419). Credits and buffers are
kept by VC × 2 + class. -/
structure Link where
  st : LinkSt := .off
  width : Nat := 0
  /-- An INIT flit has been received, so that INIT flits sent have SEEN = 1. -/
  seen : Bool := false
  /-- Initial credits of the peer, flits sent on first sends, and the cumulative count last received. -/
  crInit : SMap Nat := []
  crSent : SMap Nat := []
  crCum : SMap Nat := []
  /-- Receive buffers in use, and the cumulative count of buffers freed. -/
  rxUsed : SMap Nat := []
  rxFreed : SMap Nat := []
  txSeq : Nat := 0
  /-- Replay buffer, oldest first, and resends since the last progress. -/
  replay : List Flit := []
  resends : Nat := 0
  rxNext : Nat := 0
  nakSent : Bool := false
  /-- Bytes of messages that are partly received. -/
  part : SMap (Option Bytes) := []
  /-- Flits waiting for their first send. -/
  txq : List Flit := []
  /-- Messages received whole that still hold their buffers. -/
  arrived : List (Nat × Bytes) := []
  gotHello : Bool := false
  gotProof : Bool := false
  /-- The nonce of this entry into HELLO. -/
  nonce : Nat := 0
  lastHb : Option Nat := none
  stalled : Bool := false
  /-- Hello buffer: payloads of the last HELLO and HELLO_PROOF. -/
  hello : Bytes := []
  proof : Bytes := []
  /-- The flit sent last. -/
  lastTx : Option Flit := none
  deriving DecidableEq, Repr

/-- An outstanding fabric request (R362): its generation, the request, and the link it left on. -/
structure Txn where
  gen : Nat
  req : FabMsg
  link : Option Nat := none
  deriving DecidableEq, Repr

/-- The fabric common block beyond its registers (R358 to R388): outstanding requests and tag generations,
management entries pushed, the ports that wait for a HELLO_PROOF signature in order of request (R492), and the
journal operation in progress with its source (R415). -/
structure Fabc where
  txns : SMap (Option Txn) := []
  gens : SMap Nat := []
  push : List Nat := []
  proofs : List Nat := []
  jop : Option (Nat × Nat) := none
  deriving DecidableEq, Repr

/-- Who waits for a write into host memory (R425). -/
inductive HostOwner where
  | unit (n : Nat)
  | part (sq cid part : Nat)
  | peer (m : FabMsg)
  /-- Part `part` of slot d of streamer t of core c. -/
  | strm (c t d part : Nat)
  /-- A store of processor p. -/
  | hart (p : Nat)
  | none
  deriving DecidableEq, Repr

/-- A journal entry (R425): its JSEQ, host address, length and owner. -/
structure JEnt where
  jseq : Nat
  addr : Nat
  len : Nat
  owner : HostOwner
  deriving DecidableEq, Repr

/-- An outstanding read of host memory (R426). -/
structure HRead where
  tag : Nat
  addr : Nat
  len : Nat
  owner : HostOwner
  deriving DecidableEq, Repr

/-- A part of an HLK command (R434, R435). -/
inductive HPart where
  | todo
  | waits
  | ended (status : Nat)
  deriving DecidableEq, Repr

/-- A command fetched from a submission queue (R432 to R437). -/
structure HCmd where
  sq : Nat
  incarn : Nat
  bytes : Bytes
  started : Bool := false
  parts : List HPart := []
  whole : Option Nat := none
  result : Nat := 0
  /-- Given to firmware (R437) or to the power controller, and not completed. -/
  away : Bool := false
  /-- Its session has ended (R428). -/
  orphan : Bool := false
  deriving DecidableEq, Repr

/-- The host link beyond its registers (R417 to R441): journal and reads outstanding, commands by age,
what waits to be written out (a CQ's number and an entry with PHASE zero, 256 for the orphan ring, 512 + v for the
data of vector v), completions not yet signalled by CQ, whether an orphan has been dropped since the session ended,
whether the last session ended by a host loss, and the queue whose turn to fetch is next (R432). -/
structure Hlk where
  jrnl : List JEnt := []
  reads : List HRead := []
  cmds : List HCmd := []
  cqWait : List (Nat × Bytes) := []
  coal : SMap Nat := []
  orphanSeen : Bool := false
  lost : Bool := false
  cursor : Nat := 0
  deriving DecidableEq, Repr


/-- Processor states (R448). -/
inductive HartSt where
  | halted | running | wfi | lockup
  deriving DecidableEq, Repr

/-- A processor (R442 to R449): 0 to 3 are CP0 to CP3, 4 to 7 QS0 to QS3. The registers are RV64GC's in machine mode;
`trapped`: the next fetch is the first at the trap vector. `wdtLeft` is the watchdog's count when it last started or
stopped, `wdtAt` the stamp at which it started. -/
structure Hart where
  st : HartSt := .halted
  pc : Nat := 0
  x : SMap W64 := []
  f : SMap W64 := []
  mstatus : W64 := 0x1800
  mtvec : W64 := 0
  mepc : W64 := 0
  mcause : W64 := 0
  mtval : W64 := 0
  mie : W64 := 0
  mscratch : W64 := 0
  fcsr : W32 := 0
  instret : W64 := 0
  resv : Option (Nat × Nat) := none
  /-- A store to host memory under way (`some none`), or its status when it has ended. -/
  hostIo : Option (Option Nat) := none
  trapped : Bool := false
  /-- Local memory, by offset. -/
  lmem : List Host.Cell := []
  wdtLeft : Nat := 0
  wdtAt : Nat := 0
  deriving DecidableEq, Repr

/-- What the boot ROM is doing (R477 to R485): its image with the slot (`none`: the host's bytes), the slots already
tried, the local memories it has written, the next CONFIG record, whether a COMMIT record has written GO, and the stamp
at which a WAIT began. -/
structure Rom where
  image : Bytes := []
  slot : Option Nat := none
  tried : List Nat := []
  wrote : List Nat := []
  next : Nat := 0
  went : Bool := false
  waitAt : Option Nat := none
  deriving DecidableEq, Repr

/-- BOOT and SEC beyond their registers (R469 to R499): bits blown by the module's own commands in the fuse array, the
flash (erased bytes are 0xFF), a flash command in progress (operation, address, length), the ROM while it is in control
of CP0, the host's image bytes, a SEC command in progress (operation and arguments), the device seed as loaded, and
the owner slot of the running image. -/
structure Boot where
  blown : SMap W32 := []
  flash : SMap Byte := []
  flCmd : Option (Nat × Nat × Nat) := none
  flId : Bytes := []
  rom : Option Rom := none
  hostImg : Bytes := []
  secCmd : Option (Nat × Nat × Nat) := none
  seed : Nat := 0
  keyIdx : Option Nat := none
  deriving DecidableEq, Repr
/-- The whole state of the module. -/
structure State where
  /-- The commands that are waiting, first in, first out. -/
  pending : List Instr := []
  /-- Value of the last control-register read served (the model's own output latch). -/
  busData : Nat := 0
  /-- Plain counter that names fresh free values (the model's own, not the manual's). -/
  freeCtr : Nat := 0
  /-- Event timestamp: SCLK cycles since the last cold reset (R19, R463). -/
  stamp : Nat := 0
  /-- Register contents by control-register address; for SH fields the active copy. -/
  csr : SMap W64 := []
  /-- Shadow copies of the registers that have SH fields (R12). -/
  shadow : SMap W64 := []
  /-- Low words held for 64-bit writes, by initiator and address (R10). -/
  heldLow : SMap (Option W32) := []
  /-- High words latched by low-word reads, by initiator and address (R9, R549). -/
  latchHigh : SMap W32 := []
  /-- Blocks that have reached their quiesced condition (R41). -/
  quiet : Nat := 0
  /-- SH writes stalled by a commit (R45). -/
  heldWrites : List HeldWrite := []
  evt : Evt := {}
  rst : Rst := {}
  pwr : Pwr := {}
  /-- The tile cores, number 24q + nn. -/
  cores : SMap Core := []
  /-- Register writes held while a core zeroes its memories (R86), in order of arrival. -/
  coreHeld : List HeldWrite := []
  /-- Ephemeris markers sent and not yet taken: core group and marker (R103, R207). -/
  triggers : List (Nat × Nat) := []
  /-- Ephemeris transfers that a streamer ended: plan, entry and status (R87, R211). -/
  ephResults : List (Nat × Nat × Nat) := []
  /-- Answers that the last command gave to the requesters its operands name. -/
  answers : List Answer := []
  stks : SMap Stk := []
  /-- Fast-tier bytes, keyed stack × 2^37 + channel × 2^31 + channel address (R167 to R169). -/
  fast : List Host.Cell := []
  /-- Deep-tier bytes, keyed DGA × 512 + byte (R171). -/
  deep : List Host.Cell := []
  /-- Fast lines that are no clean code word, by key of the line's first byte divided by 64. -/
  fastMark : SMap (Option Mark) := []
  /-- Deep granules that are no clean code word, by DGA. -/
  deepMark : SMap (Option Mark) := []
  /-- Placement table (R181): entries by page. -/
  pages : SMap Ent := []
  /-- Entry caches (R189): by set (page mod 8,192), the cached pages with their live HEAT and EPOCH, most
  recently used first. -/
  pageCache : SMap (List (Nat × Nat × Nat)) := []
  /-- Near-bank holder count of each page (R228). -/
  holders : SMap Nat := []
  /-- Frame map codes by index (R183). -/
  frameMap : SMap Nat := []
  /-- Deep allocation map: blocks in use, stack × 2^27 + block (R181). -/
  blocks : SMap Bool := []
  /-- Rotating cursors: 0 to 11 the BANKED regions, 12 the pool (R190); and of the deep stacks (R191). -/
  frameCur : SMap Nat := []
  blockCur : SMap Nat := []
  slots : SMap (Option Mig) := []
  /-- Waiting migrations, oldest first. -/
  migq : List Mig := []
  /-- The sweepers' next page of each edge die, divided by two (R192). -/
  sweep : SMap Nat := []
  stalled : List Stalled := []
  /-- Statuses that ended the stalled accesses of engines, by key. -/
  stallFail : SMap Nat := []
  plcCh : SMap (Option PlcCmd) := []
  plans : SMap Plan := []
  /-- R182: the region fits the STRIPED pool, as the last commit or cold reset left it. -/
  plcFits : Bool := false
  /-- R200: a journal replay is owed. -/
  plcRestoring : Bool := false
  nbus : SMap Nbu := []
  /-- Row deliveries sent to a near-bank unit against a credit and not yet received (R303, R244). -/
  rowsInFlight : List (Nat × Bytes) := []
  /-- Row answers on their way to the Relay engines (R238). -/
  rowAnswers : List Bytes := []
  /-- Data-cache lines of the processors, by line address (R444, R229). -/
  dcache : SMap (SMap (Option Bytes)) := []
  /-- Messages that units of this module have given to the fabric and that have not started (R366). -/
  outbox : List FabMsg := []
  /-- The Relay engines. -/
  rlys : SMap Rly := []
  /-- The media block. -/
  med : Med := {}
  /-- The links. -/
  links : SMap Link := []
  fabc : Fabc := {}
  hlk : Hlk := {}
  /-- The processors. -/
  harts : SMap Hart := []
  boot : Boot := {}
  /-- Blocks selected by a commit in progress (R43). -/
  commit : Option Nat := none
  deriving DecidableEq, Repr

/-- The machine at a power-on reset: the Dome supply has just become valid, POWER_ON is asserted, and every
block the reset reaches is in reset with its registers at their reset values (R501, R505, R506). -/
def State.reset : State :=
  { evt := { linesFresh := [0, 1, 2, 3, 4, 5, 6, 7] },
    rst := { asserted := 1, episode := true, epReach := 0, epSources := 1, domeValid := true,
             dev := 0x01FF_0FFF_FFFF_FFFF },
    pwr := { railEn := true } }

end Sys2Proof.Machine
end

