-- ==== Sys2Proof/Machine/Mem.lean ====
section
/-! DEFINITION. Byte memories in canonical form (Host.Cell): addresses rise strictly and no entry is the
zero an unlisted byte reads as. -/

namespace Sys2Proof.Machine

/-- The byte at an address; an unlisted byte is zero (R86, R172: memories are written with zeros). -/
def memByte (m : List Host.Cell) (a : Nat) : Byte := smGet 0 m a

/-- `n` bytes from an address. -/
def memRead (m : List Host.Cell) (a : Nat) : Nat → Bytes
  | 0 => []
  | n + 1 => memByte m a :: memRead m (a + 1) n

/-- Bytes written at an address. -/
def memWrite (m : List Host.Cell) (a : Nat) : Bytes → List Host.Cell
  | [] => m
  | b :: bs => memWrite (smSet 0 m a b) (a + 1) bs

/-- `n` bytes written with zero. -/
def memZero (m : List Host.Cell) (a n : Nat) : List Host.Cell :=
  m.filter (fun c => c.1 < a || a + n ≤ c.1)

/-- A sector of zeros. -/
def zeroSector : Bytes := List.replicate 4096 0

/-- A page of zeros. -/
def zeroPage : Bytes := List.replicate 262144 0

/-- The canonical form. -/
def memWf (m : List Host.Cell) : Bool := smWf 0 m

/-- The numbers `a`, `a + 1`, … `n` of them. -/
def countUp (a : Nat) : Nat → List Nat
  | 0 => []
  | n + 1 => a :: countUp (a + 1) n

end Sys2Proof.Machine
end

