-- ==== Sys2Proof/Machine/RegTable.lean ====
section
/-! DEFINITION. The control registers: their names, addresses (R33), fields, access codes (R12), reset
values and permitted values (R15), as the register tables of the manual list them (R49, R109, R110, R144,
R178, R179, R216 to R218, R257, R258, R310, R311, R343, R344, R387, R388, R415, R416, R440, R441, R466 to
R468, R499, R515, R538, R539, R558, R565). A field named RSVD is left out: it reads as zero. -/

namespace Sys2Proof.Machine

/-- The registers by name. One name covers every repeat of the register. -/
inductive Reg where
  | GLB_QUIESCE_REQ
  | GLB_QUIESCE_STAT
  | GLB_QUIESCE_TMO
  | GLB_SHADOW_DIRTY
  | GLB_COMMIT_MASK
  | GLB_COMMIT
  | GLB_COMMIT_STAT
  | GLB_COMMIT_NOTQ
  | GLB_GEN
  | CORE_ID
  | CORE_CTRL
  | CORE_STATUS
  | CORE_PC
  | CORE_CFG
  | CORE_FAULT
  | CORE_FAULT_ADDR
  | CORE_FAULT_CLR
  | CORE_SB
  | CORE_SB_SET
  | CORE_SB_FAIL
  | CORE_SB_OVERSET
  | CORE_TS_CE
  | CORE_CONV_FLAGS
  | CORE_STAT_MM
  | CORE_STAT_WAIT
  | STRM_PUSH
  | STRM_STAT
  | STRM_CANCEL
  | STRM_FAIL
  | STRM_FAIL_TAG
  | STRM_FAIL_PREFIX
  | STRM_FAIL_MAP
  | STRM_BYTES
  | ACC_TMODE
  | ACC_VEC_FLAGS
  | ACC_CE
  | ACC_ERR
  | CORE_TRQ
  | VEC_VL
  | VEC_STAT
  | ACC_STAT_TRQ
  | FSC_ID
  | FSC_CTRL
  | FSC_STAT
  | FSC_TEMP
  | FSC_LAYOUT
  | FSC_REFRESH
  | FSC_SCRUB
  | FSC_ROW_THRESH
  | FSC_SCRUB_POS
  | FSC_CE
  | FSC_ODCE
  | FSC_UE
  | FSC_POISON_RD
  | FSC_REF_LIMIT
  | FSC_ERR_STAT
  | FSC_ERR_LOC
  | FSC_RD_BYTES
  | FSC_WR_BYTES
  | DSC_TMO
  | DSC_TMO_CNT
  | DSC_REQ_STAT
  | PLC_TABLE
  | PLC_STAT
  | PLC_HEAT
  | PLC_EPOCH_CYC
  | PLC_EPOCH
  | PLC_FREE_TGT
  | PLC_SWEEP
  | PLC_MIG
  | PLC_FREE_POOL
  | PLC_FREE_BANKED
  | PLC_FREE_DEEP
  | PLC_LOOKUPS
  | PLC_MISSES
  | PLC_PROMOTIONS
  | PLC_DEMOTIONS
  | PLC_WB_SECTORS
  | PLC_BYPASS
  | PLC_LATE
  | PLC_TMO
  | PLC_POISON
  | PLC_RELOC
  | PLC_CMD
  | PLC_CMD_ARG
  | PLC_CMD_STAT
  | PLC_CMD_PREFIX
  | PLC_CMD_MAP
  | PLC_CMD_ENTRY
  | EPH_STAT
  | EPH_STEP
  | EPH_FIRED
  | EPH_LATE
  | EPH_FAIL
  | NBU_ID
  | NBU_CTRL
  | NBU_STAT
  | NBU_BURST
  | NBU_PAR
  | NBU_COMMIT
  | NBU_SLOT
  | NBU_ROWS
  | NBU_PARK
  | NBU_DELTA
  | NBU_HOLD
  | NBU_PREEMPT
  | NBU_RESIDUE
  | NBU_STALE
  | NBU_DUP
  | NBU_PAR_RETRY
  | NBU_CMD
  | NBU_CMD_ARG
  | NBU_CMD_STAT
  | NBU_CMD_PREFIX
  | NBU_CMD_MAP
  | NBU_CMD_RESULT
  | NBU_CMD_RESULT2
  | NBU_K
  | RLY_ID
  | RLY_CTRL
  | RLY_STAT
  | RLY_CFG
  | RLY_HOP
  | RLY_DLV
  | RLY_FREE_SLOTS
  | RLY_FREE_SUBST
  | RLY_FAIL
  | RLY_FAIL_STEP
  | RLY_ELEMS
  | RLY_ROWS
  | RLY_RX_BYTES
  | RLY_TX_BYTES
  | RLY_RESIDUE
  | RLY_SAT
  | RLY_SUBST
  | RLY_NOTTAKEN
  | RLY_REDELIVER
  | RLY_RESEND
  | RLY_SQ_BASE
  | RLY_SQ_SIZE
  | RLY_SQ_PI
  | RLY_SQ_CI
  | MED_CTRL
  | MED_STAT
  | MED_SCRATCH
  | MED_CONV_FLAGS
  | MED_SQ_BASE
  | MED_SQ_SIZE
  | MED_SQ_PI
  | MED_SQ_CI
  | MED_TAP
  | MED_DECODED
  | MED_FRAMES
  | MED_SHUF_EVAL
  | MED_BAD
  | MED_CONCEAL
  | MED_DISC
  | MED_TS_RESYNC
  | FAB_PORT_CFG
  | FAB_PORT_STAT
  | FAB_LINK_CTRL
  | FAB_LINK_STAT
  | FAB_LINK_PEER
  | FAB_LINK_PEER_INFO
  | FAB_LINK_KA
  | FAB_LINK_RETRY
  | FAB_LINK_CREDIT
  | FAB_LINK_TX_FLITS
  | FAB_LINK_RX_FLITS
  | FAB_LINK_FEC_SYM
  | FAB_LINK_FEC_UNC
  | FAB_LINK_CRC
  | FAB_LINK_REPLAY
  | FAB_LINK_DOWN
  | FABC_SELF
  | FABC_PHYS
  | FABC_CFG
  | FABC_TXN_TMO
  | FABC_HB
  | FABC_TAGS
  | FABC_EPOCH
  | FABC_EPOCH_NEXT
  | FABC_SWITCH
  | FABC_MBX_BASE
  | FABC_MBX_SIZE
  | FABC_MBX_PI
  | FABC_MBX_CI
  | FABC_VIOL_CAP
  | FABC_DROP_CAP
  | FABC_MGMT_PUSH
  | FABC_MGMT_STAT
  | FABC_TX_MSGS
  | FABC_RX_MSGS
  | FABC_VIOL
  | FABC_DROP
  | FABC_STALE_RSP
  | FABC_TMO
  | FABC_REPLY_DROP
  | FABC_MBX_DROP
  | FABC_ROUTE
  | FABC_WIN_CTRL
  | FABC_WIN_BASE
  | FABC_WIN_SIZE
  | PGRP_CFG
  | PGRP_D
  | PGRP_PROT_BASE
  | PGRP_PAR_BASE
  | PGRP_DEV
  | PGRP_EN
  | PGRP_LOST
  | PGRP_STAT
  | PGRP_JRNL_CMD
  | PGRP_JRNL_ADDR
  | PGRP_JRNL_STAT
  | PGRP_JRNL_COUNT
  | PGRP_JRNL_FULL
  | FT_HEALTH
  | FT_FAILED
  | RLY_RB_BASE
  | RLY_RB_SIZE
  | RLY_RB_PI
  | RLY_RB_CI
  | RLY_RB_SECTORS
  | HLK_CTRL
  | HLK_LINK_STAT
  | HLK_SESSION
  | HLK_ATTACH
  | HLK_HEPOCH
  | HLK_TMO
  | HLK_KA
  | HLK_RETRY
  | HLK_JRNL_BASE
  | HLK_JRNL_STAT
  | HLK_JSEQ_NEXT
  | HLK_JSEQ_ACK
  | HLK_ORPHAN_BASE
  | HLK_ORPHAN_SIZE
  | HLK_ORPHAN_PI
  | HLK_ORPHAN_START
  | HLK_FWQ_BASE
  | HLK_FWQ_SIZE
  | HLK_FWQ_PI
  | HLK_FWQ_CI
  | HLK_FW_RESULT
  | HLK_FW_DONE
  | HLK_TX_FLITS
  | HLK_RX_FLITS
  | HLK_CMDS
  | HLK_FEC_UNC
  | HLK_CRC
  | HLK_LINK_DOWN
  | HLK_REPLAY
  | HLK_HOST_LOST
  | HLK_ORPHAN_DROP
  | HLK_HWR_FAIL
  | HLK_VIOL
  | HLK_SQ_BASE
  | HLK_SQ_CFG
  | HLK_SQ_TAIL
  | HLK_SQ_HEAD
  | HLK_SQ_STAT
  | HLK_CQ_BASE
  | HLK_CQ_CFG
  | HLK_CQ_HEAD
  | HLK_CQ_TAIL
  | HLK_CQ_COAL
  | HLK_HWIN_CTRL
  | HLK_HWIN_HOST
  | HLK_HWIN_SIZE
  | HLK_DWIN_CTRL
  | HLK_DWIN_TGT
  | HLK_DWIN_SIZE
  | HLK_VEC_ADDR
  | HLK_VEC_DATA
  | HLK_VEC_CTRL
  | EVT_CTRL
  | EVT_STAT
  | EVT_SWRAISE
  | EVT_DROPPED
  | EVT_RAISED
  | EVT_TGT_BASE
  | EVT_TGT_CFG
  | EVT_TGT_PI
  | EVT_TGT_CI
  | EVT_TGT_STAT
  | EVT_TGT_FSTAT
  | EVT_TGT_NEST
  | EVT_TGT_PEND
  | EVT_TGT_SEQ
  | EVT_SRC_CFG
  | EVT_SRC_STAT
  | AON_LINE
  | AON_WATCH
  | AON_DREC
  | PROC_CTRL
  | PROC_STAT
  | PROC_BOOT
  | PROC_MTIMECMP
  | PROC_MSIP
  | PROC_WDT
  | PROC_WDT_KICK
  | PROC_WDT_STAT
  | PROC_ERR
  | PROC_APER
  | BOOT_STAT
  | BOOT_CTRL
  | BOOT_IMAGE
  | BOOT_SVN
  | BOOT_TRY
  | BOOT_STRAP
  | BOOT_FUSE
  | BOOT_FL_CMD
  | BOOT_FL_ADDR
  | BOOT_FL_LEN
  | BOOT_FL_STAT
  | BOOT_FL_BUF
  | BOOT_HOST_DATA
  | BOOT_HOST_CNT
  | SEC_STAT
  | SEC_LOCK
  | SEC_PERM
  | SEC_CMD
  | SEC_CMD_ARG
  | SEC_CMD_STAT
  | SEC_DIGEST
  | SEC_ROOT_HASH
  | SEC_DEVPUB
  | SEC_OWNER
  | SEC_OWNER_STAT
  | SEC_CHAIN_LEN
  | SEC_M
  | SEC_CHAIN
  | RST_CAUSE
  | RST_LAST
  | RST_CFG
  | RST_SWREQ
  | RST_DBGREQ
  | RST_STAT
  | RST_COUNT
  | RST_BLK_REQ
  | RST_BLK_STAT
  | RST_BLK_TMOMAP
  | RST_BLK_TMO
  | PWR_STAT
  | PWR_CFG
  | PWR_ENTRY_TMO
  | PWR_QOPP
  | PWR_EFF
  | PWR_LIMIT
  | PWR_THERM
  | PWR_MEAS
  | PWR_DOM_AUTO
  | PWR_DOM_STAT
  | PWR_DOM_IDLE
  | PWR_THROTTLE_CYC
  | PWR_ENERGY
  | PWR_WAKES
  | PWR_DOM_WAKES
  | PWR_TRIPS
  | AON_WAKE_EN
  | AON_WAKE_CAUSE
  | AON_SMB_ADDR
  | AON_WAKE_PIN
  | GLB_VIOL_CNT
  | GLB_VIOL_CAP
  | GLB_STAT_OVF
  | GLB_PLATE_BASE
  | GLB_PLATE_STAT
  | GLB_PLATE_SEQ
  | GLB_PLATE_CTRL
  | GLB_PLATE_ACK
  | AON_STBY
  | FAB_HELLO
  | CPX_MTIME
  | DSC_ID
  | DSC_CTRL
  | DSC_STAT
  | DSC_TEMP
  | DSC_REFRESH
  | DSC_SCRUB
  | DSC_ROW_THRESH
  | DSC_SCRUB_POS
  | DSC_CE
  | DSC_ODCE
  | DSC_UE
  | DSC_POISON_RD
  | DSC_REF_LIMIT
  | DSC_ERR_STAT
  | DSC_ERR_LOC
  | DSC_RD_BYTES
  | DSC_WR_BYTES
  deriving DecidableEq, Repr

/-- Access codes of fields (R12). -/
inductive Acc where
  | rw | ro | w1c | w1s | wo | rc | rws | sh
  deriving DecidableEq, Repr

/-- Which values a field accepts; all others are reserved (R15). -/
inductive Legal where
  | any
  | le (n : Nat)
  | nz
  | range (lo hi : Nat)
  | nibbles (n : Nat)
  | smbus
  deriving DecidableEq, Repr

/-- R15: is `v` a defined value. `nibbles n` is four 4-bit fields each at most n (PWR_QOPP.REQ);
`smbus` leaves out the reserved SMBus addresses (R539). -/
def Legal.ok : Legal → Nat → Bool
  | .any, _ => true
  | .le n, v => v ≤ n
  | .nz, v => v ≠ 0
  | .range lo hi, v => lo ≤ v && v ≤ hi
  | .nibbles n, v =>
    v % 16 ≤ n && v / 16 % 16 ≤ n && v / 256 % 16 ≤ n && v / 4096 % 16 ≤ n
  | .smbus, v => !([0, 1, 2, 3, 4, 5, 6, 7, 0x0C, 0x28, 0x37, 0x61].contains v) && v < 0x78

/-- One field of a register. -/
structure Field where
  hi : Nat
  lo : Nat
  acc : Acc
  reset : Nat
  legal : Legal
  deriving DecidableEq, Repr

/-- One register and its repeats: the address of the first, and for each level of repetition its stride
and count. `idx0` is added to the first index (the quadrant sequencers are processors 4 to 7). -/
structure RegRow where
  reg : Reg
  first : Nat
  dims : List (Nat × Nat)
  wide : Bool
  fields : List Field
  idx0 : Nat := 0
  deriving DecidableEq, Repr

/-- A field without reserved values. -/
def fd (hi lo : Nat) (acc : Acc) (reset : Nat) : Field := ⟨hi, lo, acc, reset, .any⟩

/-- A field with reserved values. -/
def fl (hi lo : Nat) (acc : Acc) (reset : Nat) (l : Legal) : Field := ⟨hi, lo, acc, reset, l⟩

/-- Registers of GLB. -/
def rowsGlb0 : List RegRow := [
  ⟨.GLB_QUIESCE_REQ, 0x10, [], true, [fd 44 0 .rw 0 /- BLOCKS -/], 0⟩,
  ⟨.GLB_QUIESCE_STAT, 0x18, [], true, [fd 44 0 .ro 0 /- BLOCKS -/], 0⟩,
  ⟨.GLB_QUIESCE_TMO, 0x20, [], false, [fd 23 0 .rw 0xf4240 /- CYCLES -/], 0⟩,
  ⟨.GLB_SHADOW_DIRTY, 0x28, [], true, [fd 44 0 .ro 0 /- BLOCKS -/], 0⟩,
  ⟨.GLB_COMMIT_MASK, 0x30, [], true, [fd 44 0 .rw 0 /- BLOCKS -/], 0⟩,
  ⟨.GLB_COMMIT, 0x38, [], false, [fd 0 0 .wo 0 /- GO -/], 0⟩,
  ⟨.GLB_COMMIT_STAT, 0x3c, [], false, [fd 2 2 .w1c 0 /- TMO -/, fd 1 1 .ro 0 /- REFUSED -/, fd 0 0 .ro 0 /- BUSY -/], 0⟩,
  ⟨.GLB_COMMIT_NOTQ, 0x40, [], true, [fd 44 0 .ro 0 /- BLOCKS -/], 0⟩,
  ⟨.GLB_GEN, 0x48, [], false, [fd 31 0 .ro 0 /- GEN -/], 0⟩,
  ⟨.GLB_VIOL_CNT, 0x80, [], false, [fd 31 0 .rc 0 /- COUNT -/], 0⟩,
  ⟨.GLB_VIOL_CAP, 0x88, [], true, [fd 63 63 .w1c 0 /- VALID -/, fd 62 62 .ro 0 /- WR -/, fd 61 59 .ro 0 /- CLASS -/, fd 55 52 .ro 0 /- KIND -/, fd 31 0 .ro 0 /- ADDR -/], 0⟩,
  ⟨.GLB_STAT_OVF, 0x90, [], true, [fd 44 0 .w1c 0 /- BLOCKS -/], 0⟩,
  ⟨.GLB_PLATE_BASE, 0xa0, [], true, [fd 63 63 .rws 0 /- VALID -/, fd 25 0 .rws 0 /- PAGE -/], 0⟩,
  ⟨.GLB_PLATE_STAT, 0xa8, [], false, [fd 31 31 .rws 0 /- PRESENT -/, fd 30 30 .ro 0 /- CLEAR_BUSY -/, fd 15 8 .ro 0 /- CLEAR_STATUS -/], 0⟩]

/-- Registers of GLB. -/
def rowsGlb1 : List RegRow := [
  ⟨.GLB_PLATE_SEQ, 0xac, [], false, [fd 31 0 .rws 0 /- SEQ -/], 0⟩,
  ⟨.GLB_PLATE_CTRL, 0xb0, [], false, [fd 1 1 .wo 0 /- CLEAR -/, fd 0 0 .wo 0 /- PUBLISH -/], 0⟩,
  ⟨.GLB_PLATE_ACK, 0xb4, [], false, [fd 31 0 .wo 0 /- SEQ -/], 0⟩]

/-- Registers of CORE. -/
def rowsCore0 : List RegRow := [
  ⟨.CORE_ID, 0x1000000, [(0x400000, 4), (0x10000, 24)], false, [fd 9 8 .ro 0 /- QUAD -/, fd 4 0 .ro 0 /- CORE -/], 0⟩,
  ⟨.CORE_CTRL, 0x1000004, [(0x400000, 4), (0x10000, 24)], false, [fd 2 2 .rw 0 /- FAIL_CONT -/, fd 1 1 .wo 0 /- STOP -/, fd 0 0 .wo 0 /- RUN -/], 0⟩,
  ⟨.CORE_STATUS, 0x1000008, [(0x400000, 4), (0x10000, 24)], false, [fd 11 8 .ro 0 /- STRM_BUSY -/, fd 3 3 .ro 1 /- INIT -/, fd 2 2 .ro 0 /- QUIESCED -/, fd 1 0 .ro 0 /- STATE -/], 0⟩,
  ⟨.CORE_PC, 0x100000c, [(0x400000, 4), (0x10000, 24)], false, [fd 14 0 .rw 0 /- PC -/], 0⟩,
  ⟨.CORE_CFG, 0x1000010, [(0x400000, 4), (0x10000, 24)], false, [fd 9 8 .sh 3 /- EPH_STREAMER -/, fd 5 0 .sh 0 /- GROUP -/], 0⟩,
  ⟨.CORE_FAULT, 0x1000018, [(0x400000, 4), (0x10000, 24)], true, [fd 47 40 .ro 0 /- CAUSE -/, fd 39 32 .ro 0 /- STATUS -/, fd 25 20 .ro 0 /- OP -/, fd 19 16 .ro 0 /- CLASS -/, fd 14 0 .ro 0 /- PC -/], 0⟩,
  ⟨.CORE_FAULT_ADDR, 0x1000020, [(0x400000, 4), (0x10000, 24)], false, [fd 21 0 .ro 0 /- ADDR -/], 0⟩,
  ⟨.CORE_FAULT_CLR, 0x1000024, [(0x400000, 4), (0x10000, 24)], false, [fd 0 0 .wo 0 /- CLR -/], 0⟩,
  ⟨.CORE_SB, 0x1000028, [(0x400000, 4), (0x10000, 24)], true, [fd 63 0 .w1c 0 /- BITS -/], 0⟩,
  ⟨.CORE_SB_SET, 0x1000030, [(0x400000, 4), (0x10000, 24)], true, [fd 63 0 .w1s 0 /- BITS -/], 0⟩,
  ⟨.CORE_SB_FAIL, 0x1000038, [(0x400000, 4), (0x10000, 24)], true, [fd 63 0 .w1c 0 /- BITS -/], 0⟩,
  ⟨.CORE_SB_OVERSET, 0x1000040, [(0x400000, 4), (0x10000, 24)], false, [fd 31 0 .rc 0 /- COUNT -/], 0⟩,
  ⟨.CORE_TS_CE, 0x1000044, [(0x400000, 4), (0x10000, 24)], false, [fd 31 0 .rc 0 /- COUNT -/], 0⟩,
  ⟨.CORE_CONV_FLAGS, 0x1000048, [(0x400000, 4), (0x10000, 24)], false, [fd 3 3 .w1c 0 /- G8_INVALID -/, fd 2 2 .w1c 0 /- NAN_OUT -/, fd 1 1 .w1c 0 /- SATURATED -/, fd 0 0 .w1c 0 /- OVERFLOW -/], 0⟩]

/-- Registers of CORE. -/
def rowsCore1 : List RegRow := [
  ⟨.CORE_STAT_MM, 0x1000050, [(0x400000, 4), (0x10000, 24)], true, [fd 63 0 .ro 0 /- CYCLES -/], 0⟩,
  ⟨.CORE_STAT_WAIT, 0x1000058, [(0x400000, 4), (0x10000, 24)], true, [fd 63 0 .ro 0 /- CYCLES -/], 0⟩,
  ⟨.STRM_PUSH, 0x1000100, [(0x400000, 4), (0x10000, 24), (0x40, 4)], true, [fd 43 0 .wo 0 /- LTA -/], 0⟩,
  ⟨.STRM_STAT, 0x1000108, [(0x400000, 4), (0x10000, 24), (0x40, 4)], false, [fd 12 8 .ro 0x10 /- FREE -/, fd 4 4 .w1c 0 /- PUSH_DROP -/, fd 0 0 .ro 0 /- BUSY -/], 0⟩,
  ⟨.STRM_CANCEL, 0x100010c, [(0x400000, 4), (0x10000, 24), (0x40, 4)], false, [fd 0 0 .wo 0 /- GO -/], 0⟩,
  ⟨.STRM_FAIL, 0x1000110, [(0x400000, 4), (0x10000, 24), (0x40, 4)], false, [fd 31 24 .ro 0 /- STATUS -/, fd 23 16 .ro 0 /- FIRST_FAIL -/, fd 15 8 .ro 0 /- EXTRA -/, fd 0 0 .w1c 0 /- VALID -/], 0⟩,
  ⟨.STRM_FAIL_TAG, 0x1000114, [(0x400000, 4), (0x10000, 24), (0x40, 4)], false, [fd 31 0 .ro 0 /- TAG -/], 0⟩,
  ⟨.STRM_FAIL_PREFIX, 0x1000118, [(0x400000, 4), (0x10000, 24), (0x40, 4)], false, [fd 31 0 .ro 0 /- PREFIX -/], 0⟩,
  ⟨.STRM_FAIL_MAP, 0x1000120, [(0x400000, 4), (0x10000, 24), (0x40, 4)], true, [fd 63 0 .ro 0 /- MAP -/], 0⟩,
  ⟨.STRM_BYTES, 0x1000128, [(0x400000, 4), (0x10000, 24), (0x40, 4)], true, [fd 63 0 .ro 0 /- BYTES -/], 0⟩,
  ⟨.ACC_TMODE, 0x1000200, [(0x400000, 4), (0x10000, 24)], true, [fd 63 0 .rw 0 /- MODE -/], 0⟩,
  ⟨.ACC_VEC_FLAGS, 0x1000208, [(0x400000, 4), (0x10000, 24)], false, [fd 5 5 .w1c 0 /- STAT_SAT -/, fd 4 4 .w1c 0 /- INT_SAT -/, fd 3 3 .w1c 0 /- G8_INVALID -/, fd 2 2 .w1c 0 /- NAN_OUT -/, fd 1 1 .w1c 0 /- SATURATED -/, fd 0 0 .w1c 0 /- OVERFLOW -/], 0⟩,
  ⟨.ACC_CE, 0x100020c, [(0x400000, 4), (0x10000, 24)], false, [fd 31 0 .rc 0 /- COUNT -/], 0⟩,
  ⟨.ACC_ERR, 0x1000210, [(0x400000, 4), (0x10000, 24)], false, [fd 31 31 .w1c 0 /- VALID -/, fd 30 28 .ro 0 /- SRC -/, fd 17 11 .ro 0 /- UNIT -/, fd 10 0 .ro 0 /- INDEX -/], 0⟩]

/-- Registers of CORE. -/
def rowsCore2 : List RegRow := [
  ⟨.CORE_TRQ, 0x1000214, [(0x400000, 4), (0x10000, 24)], false, [fd 16 16 .w1c 0 /- DROPPED -/, fd 12 8 .ro 0 /- HEAD -/, fd 4 0 .ro 0 /- COUNT -/], 0⟩,
  ⟨.VEC_VL, 0x1000218, [(0x400000, 4), (0x10000, 24)], false, [fd 8 0 .ro 0x40 /- VL -/], 0⟩,
  ⟨.VEC_STAT, 0x1000220, [(0x400000, 4), (0x10000, 24)], true, [fd 63 0 .ro 0 /- CYCLES -/], 0⟩,
  ⟨.ACC_STAT_TRQ, 0x1000228, [(0x400000, 4), (0x10000, 24)], true, [fd 63 0 .ro 0 /- CYCLES -/], 0⟩]

/-- Registers of FSC. -/
def rowsFsc0 : List RegRow := [
  ⟨.FSC_ID, 0x2000000, [(0x100000, 12)], false, [fd 11 8 .ro 0 /- STACK -/, fd 7 0 .ro 0x40 /- CHANNELS -/], 0⟩,
  ⟨.FSC_CTRL, 0x2000004, [(0x100000, 12)], false, [fd 1 1 .rw 1 /- SCRUB_EN -/, fd 0 0 .wo 0 /- ROWLOG_CLR -/], 0⟩,
  ⟨.FSC_STAT, 0x2000008, [(0x100000, 12)], false, [fd 4 4 .ro 0 /- HOT -/, fd 3 3 .ro 0 /- INIT_DONE -/, fd 2 2 .ro 0 /- SELF_REFRESH -/, fd 1 1 .ro 0 /- QUIESCED -/, fd 0 0 .ro 0 /- READY -/], 0⟩,
  ⟨.FSC_TEMP, 0x200000c, [(0x100000, 12)], false, [fd 7 0 .ro 0 /- TEMP -/], 0⟩,
  ⟨.FSC_LAYOUT, 0x2000010, [(0x100000, 12)], false, [fl 19 0 .sh 0 (.le 524288) /- STRIPED_FRAMES -/], 0⟩,
  ⟨.FSC_REFRESH, 0x2000014, [(0x100000, 12)], false, [fd 15 8 .sh 0x5f /- HOT_TEMP -/, fl 3 0 .sh 8 (.le 8) /- POSTPONE_MAX -/], 0⟩,
  ⟨.FSC_SCRUB, 0x2000018, [(0x100000, 12)], false, [fd 23 0 .sh 0x2625a0 /- INTERVAL -/], 0⟩,
  ⟨.FSC_ROW_THRESH, 0x200001c, [(0x100000, 12)], false, [fd 7 0 .sh 0x10 /- COUNT -/], 0⟩,
  ⟨.FSC_SCRUB_POS, 0x2000020, [(0x100000, 12)], true, [fd 63 32 .ro 0 /- PASSES -/, fd 25 0 .ro 0 /- INDEX -/], 0⟩,
  ⟨.FSC_CE, 0x2000028, [(0x100000, 12)], false, [fd 31 0 .rc 0 /- COUNT -/], 0⟩,
  ⟨.FSC_ODCE, 0x200002c, [(0x100000, 12)], false, [fd 31 0 .rc 0 /- COUNT -/], 0⟩,
  ⟨.FSC_UE, 0x2000030, [(0x100000, 12)], false, [fd 31 0 .rc 0 /- COUNT -/], 0⟩,
  ⟨.FSC_POISON_RD, 0x2000034, [(0x100000, 12)], false, [fd 31 0 .rc 0 /- COUNT -/], 0⟩,
  ⟨.FSC_REF_LIMIT, 0x2000038, [(0x100000, 12)], false, [fd 31 0 .rc 0 /- COUNT -/], 0⟩]

/-- Registers of FSC. -/
def rowsFsc1 : List RegRow := [
  ⟨.FSC_ERR_STAT, 0x200003c, [(0x100000, 12)], false, [fd 31 31 .w1c 0 /- VALID -/, fd 30 28 .ro 0 /- KIND -/, fd 7 0 .ro 0 /- EXTRA -/], 0⟩,
  ⟨.FSC_ERR_LOC, 0x2000040, [(0x100000, 12)], true, [fd 63 0 .ro 0 /- LOC -/], 0⟩,
  ⟨.FSC_RD_BYTES, 0x2000048, [(0x100000, 12)], true, [fd 63 0 .ro 0 /- BYTES -/], 0⟩,
  ⟨.FSC_WR_BYTES, 0x2000050, [(0x100000, 12)], true, [fd 63 0 .ro 0 /- BYTES -/], 0⟩]

/-- Registers of DSC. -/
def rowsDsc0 : List RegRow := [
  ⟨.DSC_TMO, 0x3000060, [(0x100000, 8)], false, [fd 23 0 .sh 0x7a120 /- CYCLES -/], 0⟩,
  ⟨.DSC_TMO_CNT, 0x3000064, [(0x100000, 8)], false, [fd 31 0 .rc 0 /- COUNT -/], 0⟩,
  ⟨.DSC_REQ_STAT, 0x3000068, [(0x100000, 8)], false, [fd 15 8 .ro 0 /- QUEUED -/, fd 7 0 .ro 0 /- OLDEST_MS -/], 0⟩,
  ⟨.DSC_ID, 0x3000000, [(0x100000, 8)], false, [fd 11 8 .ro 0 /- STACK -/, fd 7 0 .ro 0x40 /- CHANNELS -/], 0⟩,
  ⟨.DSC_CTRL, 0x3000004, [(0x100000, 8)], false, [fd 1 1 .rw 1 /- SCRUB_EN -/, fd 0 0 .wo 0 /- ROWLOG_CLR -/], 0⟩,
  ⟨.DSC_STAT, 0x3000008, [(0x100000, 8)], false, [fd 4 4 .ro 0 /- HOT -/, fd 3 3 .ro 0 /- INIT_DONE -/, fd 2 2 .ro 0 /- SELF_REFRESH -/, fd 1 1 .ro 0 /- QUIESCED -/, fd 0 0 .ro 0 /- READY -/], 0⟩,
  ⟨.DSC_TEMP, 0x300000c, [(0x100000, 8)], false, [fd 7 0 .ro 0 /- TEMP -/], 0⟩,
  ⟨.DSC_REFRESH, 0x3000014, [(0x100000, 8)], false, [fd 15 8 .sh 0x5f /- HOT_TEMP -/, fl 3 0 .sh 8 (.le 8) /- POSTPONE_MAX -/], 0⟩,
  ⟨.DSC_SCRUB, 0x3000018, [(0x100000, 8)], false, [fd 23 0 .sh 0x2625a0 /- INTERVAL -/], 0⟩,
  ⟨.DSC_ROW_THRESH, 0x300001c, [(0x100000, 8)], false, [fd 7 0 .sh 0x10 /- COUNT -/], 0⟩,
  ⟨.DSC_SCRUB_POS, 0x3000020, [(0x100000, 8)], true, [fd 63 32 .ro 0 /- PASSES -/, fd 25 0 .ro 0 /- INDEX -/], 0⟩,
  ⟨.DSC_CE, 0x3000028, [(0x100000, 8)], false, [fd 31 0 .rc 0 /- COUNT -/], 0⟩,
  ⟨.DSC_ODCE, 0x300002c, [(0x100000, 8)], false, [fd 31 0 .rc 0 /- COUNT -/], 0⟩,
  ⟨.DSC_UE, 0x3000030, [(0x100000, 8)], false, [fd 31 0 .rc 0 /- COUNT -/], 0⟩]

/-- Registers of DSC. -/
def rowsDsc1 : List RegRow := [
  ⟨.DSC_POISON_RD, 0x3000034, [(0x100000, 8)], false, [fd 31 0 .rc 0 /- COUNT -/], 0⟩,
  ⟨.DSC_REF_LIMIT, 0x3000038, [(0x100000, 8)], false, [fd 31 0 .rc 0 /- COUNT -/], 0⟩,
  ⟨.DSC_ERR_STAT, 0x300003c, [(0x100000, 8)], false, [fd 31 31 .w1c 0 /- VALID -/, fd 30 28 .ro 0 /- KIND -/, fd 7 0 .ro 0 /- EXTRA -/], 0⟩,
  ⟨.DSC_ERR_LOC, 0x3000040, [(0x100000, 8)], true, [fd 63 0 .ro 0 /- LOC -/], 0⟩,
  ⟨.DSC_RD_BYTES, 0x3000048, [(0x100000, 8)], true, [fd 63 0 .ro 0 /- BYTES -/], 0⟩,
  ⟨.DSC_WR_BYTES, 0x3000050, [(0x100000, 8)], true, [fd 63 0 .ro 0 /- BYTES -/], 0⟩]

/-- Registers of PLC. -/
def rowsPlc0 : List RegRow := [
  ⟨.PLC_TABLE, 0x3800000, [], false, [fd 22 0 .sh 0 /- BASE_FRAME -/], 0⟩,
  ⟨.PLC_STAT, 0x3800004, [], false, [fd 3 3 .ro 0 /- RESTORING -/, fd 2 2 .ro 1 /- CONFIG_ERR -/, fd 1 1 .ro 0 /- QUIESCED -/, fd 0 0 .ro 0 /- READY -/], 0⟩,
  ⟨.PLC_HEAT, 0x3800008, [], false, [fd 15 8 .sh 0x40 /- PROMOTE_T -/, fd 7 0 .sh 8 /- DEMOTE_T -/], 0⟩,
  ⟨.PLC_EPOCH_CYC, 0x380000c, [], false, [fd 31 0 .sh 0x7270e00 /- CYCLES -/], 0⟩,
  ⟨.PLC_EPOCH, 0x3800010, [], false, [fd 15 0 .ro 0 /- EPOCH -/], 0⟩,
  ⟨.PLC_FREE_TGT, 0x3800014, [], false, [fd 31 16 .sh 0x400 /- FREE_HIGH -/, fd 15 0 .sh 0x100 /- FREE_LOW -/], 0⟩,
  ⟨.PLC_SWEEP, 0x3800018, [], false, [fd 15 0 .sh 0x40 /- INTERVAL -/], 0⟩,
  ⟨.PLC_MIG, 0x380001c, [], false, [fd 23 8 .sh 0x494 /- FRAME_WAIT -/, fl 5 0 .sh 0x20 (.range 3 32) /- SLOTS -/], 0⟩,
  ⟨.PLC_FREE_POOL, 0x3800020, [], false, [fd 22 0 .ro 0 /- FRAMES -/], 0⟩,
  ⟨.PLC_FREE_BANKED, 0x3800040, [(4, 12)], false, [fd 19 0 .ro 0 /- FRAMES -/], 0⟩,
  ⟨.PLC_FREE_DEEP, 0x3800080, [(4, 8)], false, [fd 27 0 .ro 0 /- BLOCKS -/], 0⟩,
  ⟨.PLC_LOOKUPS, 0x3800100, [], true, [fd 63 0 .ro 0 /- COUNT -/], 0⟩,
  ⟨.PLC_MISSES, 0x3800108, [], true, [fd 63 0 .ro 0 /- COUNT -/], 0⟩,
  ⟨.PLC_PROMOTIONS, 0x3800110, [], true, [fd 63 0 .ro 0 /- COUNT -/], 0⟩]

/-- Registers of PLC. -/
def rowsPlc1 : List RegRow := [
  ⟨.PLC_DEMOTIONS, 0x3800118, [], true, [fd 63 0 .ro 0 /- COUNT -/], 0⟩,
  ⟨.PLC_WB_SECTORS, 0x3800120, [], true, [fd 63 0 .ro 0 /- COUNT -/], 0⟩,
  ⟨.PLC_BYPASS, 0x3800128, [], true, [fd 63 0 .ro 0 /- COUNT -/], 0⟩,
  ⟨.PLC_LATE, 0x3800140, [], false, [fd 31 0 .rc 0 /- COUNT -/], 0⟩,
  ⟨.PLC_TMO, 0x3800144, [], false, [fd 31 0 .rc 0 /- COUNT -/], 0⟩,
  ⟨.PLC_POISON, 0x3800148, [], false, [fd 31 0 .rc 0 /- COUNT -/], 0⟩,
  ⟨.PLC_RELOC, 0x380014c, [], false, [fd 31 0 .rc 0 /- COUNT -/], 0⟩,
  ⟨.PLC_CMD, 0x3801000, [(0x100, 4)], false, [fd 8 8 .rw 0 /- EVT -/, fd 7 0 .wo 0 /- OP -/], 0⟩,
  ⟨.PLC_CMD_ARG, 0x3801008, [(0x100, 4), (8, 3)], true, [fd 63 0 .rw 0 /- ARG -/], 0⟩,
  ⟨.PLC_CMD_STAT, 0x3801020, [(0x100, 4)], false, [fd 31 24 .ro 0 /- STATUS -/, fd 23 16 .ro 0 /- FIRST_FAIL -/, fd 0 0 .ro 0 /- BUSY -/], 0⟩,
  ⟨.PLC_CMD_PREFIX, 0x3801024, [(0x100, 4)], false, [fd 31 0 .ro 0 /- PREFIX -/], 0⟩,
  ⟨.PLC_CMD_MAP, 0x3801028, [(0x100, 4)], true, [fd 63 0 .ro 0 /- MAP -/], 0⟩,
  ⟨.PLC_CMD_ENTRY, 0x3801030, [(0x100, 4), (8, 4)], true, [fd 63 0 .ro 0 /- WORD -/], 0⟩,
  ⟨.EPH_STAT, 0x3802000, [(0x40, 4)], false, [fd 31 31 .ro 0 /- LOADED -/, fd 30 30 .ro 0 /- ARMED -/, fd 14 0 .ro 0 /- ENTRIES -/], 0⟩]

/-- Registers of PLC. -/
def rowsPlc2 : List RegRow := [
  ⟨.EPH_STEP, 0x3802004, [(0x40, 4)], false, [fd 31 0 .ro 0 /- STEP -/], 0⟩,
  ⟨.EPH_FIRED, 0x3802008, [(0x40, 4)], false, [fd 31 0 .ro 0 /- COUNT -/], 0⟩,
  ⟨.EPH_LATE, 0x380200c, [(0x40, 4)], false, [fd 31 0 .rc 0 /- COUNT -/], 0⟩,
  ⟨.EPH_FAIL, 0x3802010, [(0x40, 4)], false, [fd 31 0 .rc 0 /- COUNT -/], 0⟩]

/-- Registers of NBU. -/
def rowsNbu0 : List RegRow := [
  ⟨.NBU_ID, 0x2080000, [(0x100000, 12), (0x20000, 4)], false, [fd 11 8 .ro 0 /- STACK -/, fd 1 0 .ro 0 /- INDEX -/], 0⟩,
  ⟨.NBU_CTRL, 0x2080004, [(0x100000, 12), (0x20000, 4)], false, [fd 0 0 .rw 0 /- ACCEPT -/], 0⟩,
  ⟨.NBU_STAT, 0x2080008, [(0x100000, 12), (0x20000, 4)], false, [fd 24 16 .ro 0 /- PARKED -/, fd 13 4 .ro 0 /- QUEUED -/, fd 2 2 .ro 0 /- RESTORING -/, fd 1 1 .ro 0 /- QUIESCED -/, fd 0 0 .ro 0 /- READY -/], 0⟩,
  ⟨.NBU_BURST, 0x208000c, [(0x100000, 12), (0x20000, 4)], false, [fl 10 0 .sh 0x753 (.range 1 1875) /- MAX_MCLK -/], 0⟩,
  ⟨.NBU_PAR, 0x2080010, [(0x100000, 12), (0x20000, 4)], false, [fd 31 28 .sh 3 /- RETRIES -/, fd 23 0 .sh 0x1e848 /- TMO -/], 0⟩,
  ⟨.NBU_COMMIT, 0x2080014, [(0x100000, 12), (0x20000, 4)], false, [fd 16 0 .ro 0x10000 /- FREE -/], 0⟩,
  ⟨.NBU_SLOT, 0x2080018, [(0x100000, 12), (0x20000, 4)], false, [fd 15 0 .ro 0 /- LOADED -/], 0⟩,
  ⟨.NBU_ROWS, 0x2080100, [(0x100000, 12), (0x20000, 4)], true, [fd 63 0 .ro 0 /- COUNT -/], 0⟩,
  ⟨.NBU_PARK, 0x2080108, [(0x100000, 12), (0x20000, 4)], true, [fd 63 0 .ro 0 /- COUNT -/], 0⟩,
  ⟨.NBU_DELTA, 0x2080110, [(0x100000, 12), (0x20000, 4)], true, [fd 63 0 .ro 0 /- COUNT -/], 0⟩,
  ⟨.NBU_HOLD, 0x2080118, [(0x100000, 12), (0x20000, 4)], true, [fd 63 0 .ro 0 /- COUNT -/], 0⟩,
  ⟨.NBU_PREEMPT, 0x2080140, [(0x100000, 12), (0x20000, 4)], false, [fd 31 0 .rc 0 /- COUNT -/], 0⟩,
  ⟨.NBU_RESIDUE, 0x2080144, [(0x100000, 12), (0x20000, 4)], false, [fd 31 0 .rc 0 /- COUNT -/], 0⟩,
  ⟨.NBU_STALE, 0x2080148, [(0x100000, 12), (0x20000, 4)], false, [fd 31 0 .rc 0 /- COUNT -/], 0⟩]

/-- Registers of NBU. -/
def rowsNbu1 : List RegRow := [
  ⟨.NBU_DUP, 0x208014c, [(0x100000, 12), (0x20000, 4)], false, [fd 31 0 .rc 0 /- COUNT -/], 0⟩,
  ⟨.NBU_PAR_RETRY, 0x2080150, [(0x100000, 12), (0x20000, 4)], false, [fd 31 0 .rc 0 /- COUNT -/], 0⟩,
  ⟨.NBU_CMD, 0x2080200, [(0x100000, 12), (0x20000, 4)], false, [fd 8 8 .rw 0 /- EVT -/, fd 7 0 .wo 0 /- OP -/], 0⟩,
  ⟨.NBU_CMD_ARG, 0x2080208, [(0x100000, 12), (0x20000, 4), (8, 3)], true, [fd 63 0 .rw 0 /- ARG -/], 0⟩,
  ⟨.NBU_CMD_STAT, 0x2080220, [(0x100000, 12), (0x20000, 4)], false, [fd 31 24 .ro 0 /- STATUS -/, fd 23 16 .ro 0 /- FIRST_FAIL -/, fd 0 0 .ro 0 /- BUSY -/], 0⟩,
  ⟨.NBU_CMD_PREFIX, 0x2080224, [(0x100000, 12), (0x20000, 4)], false, [fd 31 0 .ro 0 /- PREFIX -/], 0⟩,
  ⟨.NBU_CMD_MAP, 0x2080228, [(0x100000, 12), (0x20000, 4)], true, [fd 63 0 .ro 0 /- MAP -/], 0⟩,
  ⟨.NBU_CMD_RESULT, 0x2080230, [(0x100000, 12), (0x20000, 4)], false, [fd 31 0 .ro 0 /- COUNT -/], 0⟩,
  ⟨.NBU_CMD_RESULT2, 0x2080238, [(0x100000, 12), (0x20000, 4)], true, [fd 63 38 .ro 0 /- TILE -/, fd 37 35 .ro 0 /- STREAM -/, fd 11 0 .ro 0 /- ELEMENT -/], 0⟩,
  ⟨.NBU_K, 0x2081000, [(0x100000, 12), (0x20000, 4), (0x80, 16), (0x40, 2), (4, 16)], false, [fd 31 0 .rw 0 /- VALUE -/], 0⟩]

/-- Registers of RLY. -/
def rowsRly0 : List RegRow := [
  ⟨.RLY_ID, 0x3c00000, [(0x200000, 2)], false, [fd 0 0 .ro 0 /- ENGINE -/], 0⟩,
  ⟨.RLY_CTRL, 0x3c00004, [(0x200000, 2)], false, [fd 0 0 .rw 0 /- ENABLE -/], 0⟩,
  ⟨.RLY_STAT, 0x3c00008, [(0x200000, 2)], false, [fd 28 16 .ro 0 /- OPEN -/, fd 1 1 .ro 0 /- QUIESCED -/, fd 0 0 .ro 0 /- READY -/], 0⟩,
  ⟨.RLY_CFG, 0x3c0000c, [(0x200000, 2)], false, [fl 7 4 .sh 4 (.nz) /- SAT_RAISE -/, fd 3 0 .sh 3 /- RETRY_MAX -/], 0⟩,
  ⟨.RLY_HOP, 0x3c00010, [(0x200000, 2)], false, [fl 31 16 .sh 0x494 (.nz) /- TMO -/, fl 15 8 .sh 8 (.nz) /- LIMIT -/, fd 7 0 .sh 0xc /- RETRY -/], 0⟩,
  ⟨.RLY_DLV, 0x3c00014, [(0x200000, 2)], false, [fl 31 0 .sh 0xb71b00 (.nz) /- TMO -/], 0⟩,
  ⟨.RLY_FREE_SLOTS, 0x3c00018, [(0x200000, 2)], false, [fd 16 0 .ro 0x10000 /- SLOTS -/], 0⟩,
  ⟨.RLY_FREE_SUBST, 0x3c0001c, [(0x200000, 2)], false, [fd 14 0 .ro 0x4000 /- SLOTS -/], 0⟩,
  ⟨.RLY_FAIL, 0x3c00020, [(0x200000, 2)], false, [fd 31 31 .w1c 0 /- VALID -/, fd 30 30 .ro 0 /- SEND -/, fd 23 16 .ro 0 /- STATUS -/, fd 15 0 .ro 0 /- TAG -/], 0⟩,
  ⟨.RLY_FAIL_STEP, 0x3c00024, [(0x200000, 2)], false, [fd 31 0 .ro 0 /- STEP -/], 0⟩,
  ⟨.RLY_ELEMS, 0x3c00100, [(0x200000, 2)], true, [fd 63 0 .ro 0 /- COUNT -/], 0⟩,
  ⟨.RLY_ROWS, 0x3c00108, [(0x200000, 2)], true, [fd 63 0 .ro 0 /- COUNT -/], 0⟩,
  ⟨.RLY_RX_BYTES, 0x3c00110, [(0x200000, 2)], true, [fd 63 0 .ro 0 /- COUNT -/], 0⟩,
  ⟨.RLY_TX_BYTES, 0x3c00118, [(0x200000, 2)], true, [fd 63 0 .ro 0 /- COUNT -/], 0⟩]

/-- Registers of RLY. -/
def rowsRly1 : List RegRow := [
  ⟨.RLY_RESIDUE, 0x3c00140, [(0x200000, 2)], false, [fd 31 0 .rc 0 /- COUNT -/], 0⟩,
  ⟨.RLY_SAT, 0x3c00144, [(0x200000, 2)], false, [fd 31 0 .rc 0 /- COUNT -/], 0⟩,
  ⟨.RLY_SUBST, 0x3c00148, [(0x200000, 2)], false, [fd 31 0 .rc 0 /- COUNT -/], 0⟩,
  ⟨.RLY_NOTTAKEN, 0x3c0014c, [(0x200000, 2)], false, [fd 31 0 .rc 0 /- COUNT -/], 0⟩,
  ⟨.RLY_REDELIVER, 0x3c00150, [(0x200000, 2)], false, [fd 31 0 .rc 0 /- COUNT -/], 0⟩,
  ⟨.RLY_RESEND, 0x3c00154, [(0x200000, 2)], false, [fd 31 0 .rc 0 /- COUNT -/], 0⟩,
  ⟨.RLY_SQ_BASE, 0x3c01000, [(0x200000, 2), (0x20, 16)], true, [fd 43 0 .rw 0 /- LTA -/], 0⟩,
  ⟨.RLY_SQ_SIZE, 0x3c01008, [(0x200000, 2), (0x20, 16)], false, [fd 31 31 .rw 0 /- ENABLE -/, fl 4 0 .rw 0 (.le 16) /- LOG2 -/], 0⟩,
  ⟨.RLY_SQ_PI, 0x3c0100c, [(0x200000, 2), (0x20, 16)], false, [fd 16 0 .rw 0 /- PI -/], 0⟩,
  ⟨.RLY_SQ_CI, 0x3c01010, [(0x200000, 2), (0x20, 16)], false, [fd 16 0 .ro 0 /- CI -/], 0⟩,
  ⟨.RLY_RB_BASE, 0x3c03000, [(0x200000, 2)], true, [fd 43 0 .rw 0 /- LTA -/], 0⟩,
  ⟨.RLY_RB_SIZE, 0x3c03008, [(0x200000, 2)], false, [fd 31 31 .rw 0 /- ENABLE -/, fl 4 0 .rw 0 (.le 16) /- LOG2 -/], 0⟩,
  ⟨.RLY_RB_PI, 0x3c0300c, [(0x200000, 2)], false, [fd 16 0 .rw 0 /- PI -/], 0⟩,
  ⟨.RLY_RB_CI, 0x3c03010, [(0x200000, 2)], false, [fd 16 0 .ro 0 /- CI -/], 0⟩]

/-- Registers of RLY. -/
def rowsRly2 : List RegRow := [
  ⟨.RLY_RB_SECTORS, 0x3c03100, [(0x200000, 2)], true, [fd 63 0 .ro 0 /- COUNT -/], 0⟩]

/-- Registers of MED. -/
def rowsMed0 : List RegRow := [
  ⟨.MED_CTRL, 0x6000004, [], false, [fd 0 0 .rw 0 /- ENABLE -/], 0⟩,
  ⟨.MED_STAT, 0x6000008, [], false, [fd 3 3 .ro 0 /- COEF_BAD1 -/, fd 2 2 .ro 0 /- COEF_BAD0 -/, fd 1 1 .ro 0 /- QUIESCED -/, fd 0 0 .ro 0 /- READY -/], 0⟩,
  ⟨.MED_SCRATCH, 0x6000010, [], true, [fd 43 0 .sh 0 /- LTA -/], 0⟩,
  ⟨.MED_CONV_FLAGS, 0x6000018, [], false, [fd 2 2 .w1c 0 /- NAN_OUT -/, fd 1 1 .w1c 0 /- SATURATED -/, fd 0 0 .w1c 0 /- OVERFLOW -/], 0⟩,
  ⟨.MED_SQ_BASE, 0x6001000, [(0x20, 8)], true, [fd 43 0 .rw 0 /- LTA -/], 0⟩,
  ⟨.MED_SQ_SIZE, 0x6001008, [(0x20, 8)], false, [fd 31 31 .rw 0 /- ENABLE -/, fl 4 0 .rw 0 (.le 16) /- LOG2 -/], 0⟩,
  ⟨.MED_SQ_PI, 0x600100c, [(0x20, 8)], false, [fd 16 0 .rw 0 /- PI -/], 0⟩,
  ⟨.MED_SQ_CI, 0x6001010, [(0x20, 8)], false, [fd 16 0 .ro 0 /- CI -/], 0⟩,
  ⟨.MED_TAP, 0x6004000, [(0x800, 2), (0x20, 64), (4, 8)], false, [fd 11 0 .sh 0 /- TAP -/], 0⟩,
  ⟨.MED_DECODED, 0x6000100, [], true, [fd 63 0 .ro 0 /- COUNT -/], 0⟩,
  ⟨.MED_FRAMES, 0x6000108, [], true, [fd 63 0 .ro 0 /- COUNT -/], 0⟩,
  ⟨.MED_SHUF_EVAL, 0x6000110, [], true, [fd 63 0 .ro 0 /- COUNT -/], 0⟩,
  ⟨.MED_BAD, 0x6000140, [], false, [fd 31 0 .rc 0 /- COUNT -/], 0⟩,
  ⟨.MED_CONCEAL, 0x6000144, [], false, [fd 31 0 .rc 0 /- COUNT -/], 0⟩]

/-- Registers of MED. -/
def rowsMed1 : List RegRow := [
  ⟨.MED_DISC, 0x6000148, [], false, [fd 31 0 .rc 0 /- COUNT -/], 0⟩,
  ⟨.MED_TS_RESYNC, 0x600014c, [], false, [fd 31 0 .rc 0 /- COUNT -/], 0⟩]

/-- Registers of PORT. -/
def rowsPort0 : List RegRow := [
  ⟨.FAB_PORT_CFG, 0x4000000, [(0x100000, 12)], false, [fd 3 3 .sh 0 /- DL1 -/, fd 2 2 .sh 0 /- DL0 -/, fd 1 1 .sh 1 /- AUTO_RETRAIN -/, fd 0 0 .sh 0 /- SPLIT -/], 0⟩,
  ⟨.FAB_PORT_STAT, 0x4000004, [(0x100000, 12)], false, [fd 0 0 .ro 0 /- QUIESCED -/], 0⟩,
  ⟨.FAB_LINK_CTRL, 0x4000100, [(0x100000, 12), (0x80, 2)], false, [fd 2 2 .wo 0 /- RETRAIN -/, fd 1 1 .rw 0 /- ADMIT -/, fd 0 0 .rw 0 /- ENABLE -/], 0⟩,
  ⟨.FAB_LINK_STAT, 0x4000104, [(0x100000, 12), (0x80, 2)], false, [fd 11 8 .ro 0 /- WIDTH -/, fd 2 0 .ro 0 /- STATE -/], 0⟩,
  ⟨.FAB_LINK_PEER, 0x4000108, [(0x100000, 12), (0x80, 2)], true, [fd 63 0 .ro 0 /- PHYS -/], 0⟩,
  ⟨.FAB_LINK_PEER_INFO, 0x4000110, [(0x100000, 12), (0x80, 2)], false, [fd 31 31 .ro 0 /- VALID -/, fd 20 16 .ro 0 /- LINK -/, fd 11 0 .ro 0 /- DEV -/], 0⟩,
  ⟨.FAB_LINK_KA, 0x4000114, [(0x100000, 12), (0x80, 2)], false, [fl 31 16 .sh 0xc8 (.nz) /- TMO -/, fl 15 0 .sh 0x64 (.nz) /- INTERVAL -/], 0⟩,
  ⟨.FAB_LINK_RETRY, 0x4000118, [(0x100000, 12), (0x80, 2)], false, [fd 23 8 .sh 0x2000 /- ACK_TMO -/, fl 7 0 .sh 0x10 (.nz) /- LIMIT -/], 0⟩,
  ⟨.FAB_LINK_CREDIT, 0x4000120, [(0x100000, 12), (0x80, 2), (4, 4)], false, [fd 31 16 .ro 0 /- HC1 -/, fd 15 0 .ro 0 /- HC0 -/], 0⟩,
  ⟨.FAB_LINK_TX_FLITS, 0x4000140, [(0x100000, 12), (0x80, 2)], true, [fd 63 0 .ro 0 /- COUNT -/], 0⟩,
  ⟨.FAB_LINK_RX_FLITS, 0x4000148, [(0x100000, 12), (0x80, 2)], true, [fd 63 0 .ro 0 /- COUNT -/], 0⟩,
  ⟨.FAB_LINK_FEC_SYM, 0x4000150, [(0x100000, 12), (0x80, 2)], true, [fd 63 0 .ro 0 /- COUNT -/], 0⟩,
  ⟨.FAB_LINK_FEC_UNC, 0x4000158, [(0x100000, 12), (0x80, 2)], false, [fd 31 0 .rc 0 /- COUNT -/], 0⟩,
  ⟨.FAB_LINK_CRC, 0x400015c, [(0x100000, 12), (0x80, 2)], false, [fd 31 0 .rc 0 /- COUNT -/], 0⟩]

/-- Registers of PORT. -/
def rowsPort1 : List RegRow := [
  ⟨.FAB_LINK_REPLAY, 0x4000160, [(0x100000, 12), (0x80, 2)], false, [fd 31 0 .rc 0 /- COUNT -/], 0⟩,
  ⟨.FAB_LINK_DOWN, 0x4000164, [(0x100000, 12), (0x80, 2)], false, [fd 31 0 .rc 0 /- COUNT -/], 0⟩,
  ⟨.FAB_HELLO, 0x4001000, [(0x100000, 12), (0x1000, 2), (4, 1024)], false, [fd 31 0 .ro 0 /- DATA -/], 0⟩]

/-- Registers of FABC. -/
def rowsFabc0 : List RegRow := [
  ⟨.FABC_SELF, 0x4c00000, [], false, [fd 31 31 .sh 0 /- VALID -/, fd 11 0 .sh 0 /- DEV -/], 0⟩,
  ⟨.FABC_PHYS, 0x4c00008, [], true, [fd 63 0 .ro 0 /- PHYS -/], 0⟩,
  ⟨.FABC_CFG, 0x4c00010, [], false, [fd 8 8 .sh 0 /- SR_EN -/, fl 3 0 .sh 6 (.nz) /- MAX_HOPS -/], 0⟩,
  ⟨.FABC_TXN_TMO, 0x4c00014, [], false, [fl 23 0 .sh 0x5b8e (.nz) /- UNITS -/], 0⟩,
  ⟨.FABC_HB, 0x4c00018, [], false, [fd 31 16 .sh 0x14 /- TMO -/, fd 15 0 .rw 0 /- HB -/], 0⟩,
  ⟨.FABC_TAGS, 0x4c0001c, [], false, [fd 17 0 .ro 0x20000 /- FREE -/], 0⟩,
  ⟨.FABC_EPOCH, 0x4c00020, [], false, [fd 31 0 .ro 0 /- EPOCH -/], 0⟩,
  ⟨.FABC_EPOCH_NEXT, 0x4c00024, [], false, [fd 31 0 .rw 0 /- EPOCH -/], 0⟩,
  ⟨.FABC_SWITCH, 0x4c00028, [], false, [fd 1 1 .ro 0 /- ACTIVE -/, fd 0 0 .wo 0 /- GO -/], 0⟩,
  ⟨.FABC_MBX_BASE, 0x4c00030, [], true, [fd 43 0 .rw 0 /- LTA -/], 0⟩,
  ⟨.FABC_MBX_SIZE, 0x4c00038, [], false, [fd 31 31 .rw 0 /- ENABLE -/, fl 4 0 .rw 0 (.le 16) /- LOG2 -/], 0⟩,
  ⟨.FABC_MBX_PI, 0x4c0003c, [], false, [fd 16 0 .ro 0 /- PI -/], 0⟩,
  ⟨.FABC_MBX_CI, 0x4c00040, [], false, [fd 16 0 .rw 0 /- CI -/], 0⟩,
  ⟨.FABC_VIOL_CAP, 0x4c00048, [], true, [fd 63 63 .w1c 0 /- VALID -/, fd 62 62 .ro 0 /- WR -/, fd 61 60 .ro 0 /- SPACE -/, fd 59 48 .ro 0 /- SRC -/, fd 43 0 .ro 0 /- OFFSET -/], 0⟩]

/-- Registers of FABC. -/
def rowsFabc1 : List RegRow := [
  ⟨.FABC_DROP_CAP, 0x4c00050, [], true, [fd 63 63 .w1c 0 /- VALID -/, fd 59 48 .ro 0 /- DST -/, fd 47 36 .ro 0 /- SRC -/, fd 35 32 .ro 0 /- MTYPE -/, fd 7 0 .ro 0 /- REASON -/], 0⟩,
  ⟨.FABC_MGMT_PUSH, 0x4c00058, [], true, [fd 43 0 .wo 0 /- LTA -/], 0⟩,
  ⟨.FABC_MGMT_STAT, 0x4c00060, [], false, [fd 8 8 .w1c 0 /- PUSH_DROP -/, fd 4 0 .ro 0x10 /- FREE -/], 0⟩,
  ⟨.FABC_TX_MSGS, 0x4c00100, [], true, [fd 63 0 .ro 0 /- COUNT -/], 0⟩,
  ⟨.FABC_RX_MSGS, 0x4c00108, [], true, [fd 63 0 .ro 0 /- COUNT -/], 0⟩,
  ⟨.FABC_VIOL, 0x4c00140, [], false, [fd 31 0 .rc 0 /- COUNT -/], 0⟩,
  ⟨.FABC_DROP, 0x4c00144, [], false, [fd 31 0 .rc 0 /- COUNT -/], 0⟩,
  ⟨.FABC_STALE_RSP, 0x4c00148, [], false, [fd 31 0 .rc 0 /- COUNT -/], 0⟩,
  ⟨.FABC_TMO, 0x4c0014c, [], false, [fd 31 0 .rc 0 /- COUNT -/], 0⟩,
  ⟨.FABC_REPLY_DROP, 0x4c00150, [], false, [fd 31 0 .rc 0 /- COUNT -/], 0⟩,
  ⟨.FABC_MBX_DROP, 0x4c00154, [], false, [fd 31 0 .rc 0 /- COUNT -/], 0⟩,
  ⟨.FABC_ROUTE, 0x4c10000, [(0x4000, 2), (4, 4096)], false, [fd 31 31 .rw 0 /- VALID -/, fd 30 30 .rw 0 /- ADMIT -/, fd 23 0 .rw 0 /- LINKS -/], 0⟩,
  ⟨.FABC_WIN_CTRL, 0x4c08000, [(0x20, 64)], false, [fd 31 31 .sh 0 /- VALID -/, fd 30 30 .sh 0 /- WR -/, fd 29 29 .sh 0 /- RD -/, fl 25 24 .sh 0 (.le 2) /- SPACE -/, fd 23 12 .sh 0 /- SRC_HI -/, fd 11 0 .sh 0 /- SRC_LO -/], 0⟩,
  ⟨.FABC_WIN_BASE, 0x4c08008, [(0x20, 64)], true, [fd 43 12 .sh 0 /- BASE -/], 0⟩]

/-- Registers of FABC. -/
def rowsFabc2 : List RegRow := [
  ⟨.FABC_WIN_SIZE, 0x4c08010, [(0x20, 64)], true, [fd 44 12 .sh 0 /- SIZE -/], 0⟩,
  ⟨.PGRP_CFG, 0x4c20000, [(0x100, 2)], false, [fl 27 24 .rw 3 (.range 3 15) /- NM1 -/, fd 19 16 .rw 0 /- MEMBER -/], 0⟩,
  ⟨.PGRP_D, 0x4c20004, [(0x100, 2)], false, [fd 25 0 .rw 0 /- D -/], 0⟩,
  ⟨.PGRP_PROT_BASE, 0x4c20008, [(0x100, 2)], false, [fd 25 0 .rw 0 /- PAGE -/], 0⟩,
  ⟨.PGRP_PAR_BASE, 0x4c2000c, [(0x100, 2)], false, [fd 25 0 .rw 0 /- PAGE -/], 0⟩,
  ⟨.PGRP_DEV, 0x4c20040, [(0x100, 2), (4, 16)], false, [fd 11 0 .rw 0 /- DEV -/], 0⟩,
  ⟨.PGRP_EN, 0x4c20400, [], false, [fd 0 0 .rw 0 /- ENABLE -/], 0⟩,
  ⟨.PGRP_LOST, 0x4c20404, [], false, [fd 31 31 .rw 0 /- VALID -/, fd 11 0 .rw 0 /- DEV -/], 0⟩,
  ⟨.PGRP_STAT, 0x4c20408, [], false, [fd 0 0 .ro 1 /- SETTLED -/], 0⟩,
  ⟨.PGRP_JRNL_CMD, 0x4c2040c, [], false, [fd 27 16 .rw 0 /- DEV -/, fd 1 0 .wo 0 /- OP -/], 0⟩,
  ⟨.PGRP_JRNL_ADDR, 0x4c20410, [], true, [fd 43 0 .rw 0 /- LTA -/], 0⟩,
  ⟨.PGRP_JRNL_STAT, 0x4c20418, [], false, [fd 31 24 .ro 0 /- STATUS -/, fd 0 0 .ro 0 /- BUSY -/], 0⟩,
  ⟨.PGRP_JRNL_COUNT, 0x4c2041c, [], false, [fd 31 0 .ro 0 /- COUNT -/], 0⟩,
  ⟨.PGRP_JRNL_FULL, 0x4c20420, [], false, [fd 31 0 .rc 0 /- COUNT -/], 0⟩]

/-- Registers of FABC. -/
def rowsFabc3 : List RegRow := [
  ⟨.FT_HEALTH, 0x4c20440, [], false, [fd 31 31 .ro 0 /- DEGRADED -/, fd 22 0 .ro 0 /- RETIRED -/], 0⟩,
  ⟨.FT_FAILED, 0x4c20448, [], true, [fd 44 0 .ro 0 /- BLOCKS -/], 0⟩]

/-- Registers of HLK. -/
def rowsHlk0 : List RegRow := [
  ⟨.HLK_CTRL, 0x5000000, [], false, [fd 2 2 .wo 0 /- RETRAIN -/, fd 1 1 .rw 1 /- AUTO_RETRAIN -/, fd 0 0 .rw 1 /- ENABLE -/], 0⟩,
  ⟨.HLK_LINK_STAT, 0x5000004, [], false, [fd 11 8 .ro 0 /- WIDTH -/, fd 2 0 .ro 0 /- STATE -/], 0⟩,
  ⟨.HLK_SESSION, 0x5000008, [], false, [fd 31 16 .ro 0 /- INCARNATION -/, fd 2 2 .w1c 0 /- ATTACH_FAIL -/, fd 1 0 .ro 0 /- STATE -/], 0⟩,
  ⟨.HLK_ATTACH, 0x500000c, [], false, [fd 31 16 .wo 0 /- KEY -/, fd 1 1 .wo 0 /- DETACH -/, fd 0 0 .wo 0 /- GO -/], 0⟩,
  ⟨.HLK_HEPOCH, 0x5000010, [], false, [fd 31 0 .ro 0 /- HEPOCH -/], 0⟩,
  ⟨.HLK_TMO, 0x5000014, [], false, [fd 31 16 .rw 0x1388 /- DETACH_MS -/, fl 15 0 .rw 0x32 (.nz) /- RD_MS -/], 0⟩,
  ⟨.HLK_KA, 0x5000018, [], false, [fl 31 16 .sh 0xc8 (.nz) /- TMO -/, fl 15 0 .sh 0x64 (.nz) /- INTERVAL -/], 0⟩,
  ⟨.HLK_RETRY, 0x500001c, [], false, [fd 23 8 .sh 0x2000 /- ACK_TMO -/, fl 7 0 .sh 0x10 (.nz) /- LIMIT -/], 0⟩,
  ⟨.HLK_JRNL_BASE, 0x5000020, [], true, [fd 43 0 .sh 0 /- LTA -/], 0⟩,
  ⟨.HLK_JRNL_STAT, 0x5000028, [], false, [fd 13 0 .ro 0x2000 /- FREE -/], 0⟩,
  ⟨.HLK_JSEQ_NEXT, 0x500002c, [], false, [fd 31 0 .ro 0 /- JSEQ -/], 0⟩,
  ⟨.HLK_JSEQ_ACK, 0x5000030, [], false, [fd 31 0 .ro 0 /- JSEQ -/], 0⟩,
  ⟨.HLK_ORPHAN_BASE, 0x5000038, [], true, [fd 43 0 .rw 0 /- LTA -/], 0⟩,
  ⟨.HLK_ORPHAN_SIZE, 0x5000040, [], false, [fd 31 31 .rw 0 /- ENABLE -/, fl 4 0 .rw 0 (.le 16) /- LOG2 -/], 0⟩]

/-- Registers of HLK. -/
def rowsHlk1 : List RegRow := [
  ⟨.HLK_ORPHAN_PI, 0x5000044, [], false, [fd 31 0 .ro 0 /- PI -/], 0⟩,
  ⟨.HLK_ORPHAN_START, 0x5000048, [], false, [fd 31 0 .ro 0 /- PI -/], 0⟩,
  ⟨.HLK_FWQ_BASE, 0x5000050, [], true, [fd 43 0 .rw 0 /- LTA -/], 0⟩,
  ⟨.HLK_FWQ_SIZE, 0x5000058, [], false, [fd 31 31 .rw 0 /- ENABLE -/, fl 4 0 .rw 0 (.le 16) /- LOG2 -/], 0⟩,
  ⟨.HLK_FWQ_PI, 0x500005c, [], false, [fd 16 0 .ro 0 /- PI -/], 0⟩,
  ⟨.HLK_FWQ_CI, 0x5000060, [], false, [fd 16 0 .rw 0 /- CI -/], 0⟩,
  ⟨.HLK_FW_RESULT, 0x5000068, [], true, [fd 63 0 .rw 0 /- RESULT -/], 0⟩,
  ⟨.HLK_FW_DONE, 0x5000070, [], true, [fd 63 56 .wo 0 /- STATUS -/, fd 55 48 .wo 0 /- INCARN -/, fd 47 40 .wo 0 /- SQ -/, fd 15 0 .wo 0 /- CID -/], 0⟩,
  ⟨.HLK_TX_FLITS, 0x5000100, [], true, [fd 63 0 .ro 0 /- COUNT -/], 0⟩,
  ⟨.HLK_RX_FLITS, 0x5000108, [], true, [fd 63 0 .ro 0 /- COUNT -/], 0⟩,
  ⟨.HLK_CMDS, 0x5000110, [], true, [fd 63 0 .ro 0 /- COUNT -/], 0⟩,
  ⟨.HLK_FEC_UNC, 0x5000140, [], false, [fd 31 0 .rc 0 /- COUNT -/], 0⟩,
  ⟨.HLK_CRC, 0x5000144, [], false, [fd 31 0 .rc 0 /- COUNT -/], 0⟩,
  ⟨.HLK_LINK_DOWN, 0x5000148, [], false, [fd 31 0 .rc 0 /- COUNT -/], 0⟩]

/-- Registers of HLK. -/
def rowsHlk2 : List RegRow := [
  ⟨.HLK_REPLAY, 0x500014c, [], false, [fd 31 0 .rc 0 /- COUNT -/], 0⟩,
  ⟨.HLK_HOST_LOST, 0x5000150, [], false, [fd 31 0 .rc 0 /- COUNT -/], 0⟩,
  ⟨.HLK_ORPHAN_DROP, 0x5000154, [], false, [fd 31 0 .rc 0 /- COUNT -/], 0⟩,
  ⟨.HLK_HWR_FAIL, 0x5000158, [], false, [fd 31 0 .rc 0 /- COUNT -/], 0⟩,
  ⟨.HLK_VIOL, 0x500015c, [], false, [fd 31 0 .rc 0 /- COUNT -/], 0⟩,
  ⟨.HLK_SQ_BASE, 0x5010000, [(0x20, 256)], true, [fd 43 0 .rw 0 /- ADDR -/], 0⟩,
  ⟨.HLK_SQ_CFG, 0x5010008, [(0x20, 256)], false, [fd 31 31 .rw 0 /- ENABLE -/, fd 30 30 .rw 0 /- LOC -/, fd 23 16 .rw 0 /- CQ -/, fl 4 0 .rw 0 (.le 16) /- LOG2 -/], 0⟩,
  ⟨.HLK_SQ_TAIL, 0x501000c, [(0x20, 256)], false, [fd 16 0 .rw 0 /- TAIL -/], 0⟩,
  ⟨.HLK_SQ_HEAD, 0x5010010, [(0x20, 256)], false, [fd 16 0 .ro 0 /- HEAD -/], 0⟩,
  ⟨.HLK_SQ_STAT, 0x5010014, [(0x20, 256)], false, [fd 6 0 .ro 0 /- INFLIGHT -/], 0⟩,
  ⟨.HLK_CQ_BASE, 0x5020000, [(0x20, 256)], true, [fd 43 0 .rw 0 /- ADDR -/], 0⟩,
  ⟨.HLK_CQ_CFG, 0x5020008, [(0x20, 256)], false, [fd 31 31 .rw 0 /- ENABLE -/, fd 30 30 .rw 0 /- LOC -/, fd 29 29 .rw 0 /- IRQ_EN -/, fd 23 16 .rw 0 /- VEC -/, fl 4 0 .rw 0 (.le 16) /- LOG2 -/], 0⟩,
  ⟨.HLK_CQ_HEAD, 0x502000c, [(0x20, 256)], false, [fd 16 0 .rw 0 /- HEAD -/], 0⟩,
  ⟨.HLK_CQ_TAIL, 0x5020010, [(0x20, 256)], false, [fd 16 0 .ro 0 /- TAIL -/], 0⟩]

/-- Registers of HLK. -/
def rowsHlk3 : List RegRow := [
  ⟨.HLK_CQ_COAL, 0x5020014, [(0x20, 256)], false, [fd 31 16 .rw 0 /- TIME -/, fd 15 0 .rw 1 /- COUNT -/], 0⟩,
  ⟨.HLK_HWIN_CTRL, 0x5030000, [(0x20, 64)], false, [fd 31 31 .rw 0 /- ENABLE -/, fd 30 30 .rw 0 /- WR -/, fd 29 29 .rw 0 /- RD -/], 0⟩,
  ⟨.HLK_HWIN_HOST, 0x5030008, [(0x20, 64)], true, [fd 63 12 .rw 0 /- ADDR -/], 0⟩,
  ⟨.HLK_HWIN_SIZE, 0x5030010, [(0x20, 64)], false, [fl 26 0 .rw 0 (.le 67108864) /- SIZE -/], 0⟩,
  ⟨.HLK_DWIN_CTRL, 0x5040020, [(0x20, 63)], false, [fd 31 31 .rw 0 /- VALID -/, fd 30 30 .rw 0 /- WR -/, fd 29 29 .rw 0 /- RD -/], 0⟩,
  ⟨.HLK_DWIN_TGT, 0x5040028, [(0x20, 63)], true, [fd 63 12 .rw 0 /- TGT -/], 0⟩,
  ⟨.HLK_DWIN_SIZE, 0x5040030, [(0x20, 63)], false, [fl 22 0 .rw 0 (.le 4194304) /- SIZE -/], 0⟩,
  ⟨.HLK_VEC_ADDR, 0x5050000, [(0x10, 256)], true, [fd 43 0 .rw 0 /- ADDR -/], 0⟩,
  ⟨.HLK_VEC_DATA, 0x5050008, [(0x10, 256)], false, [fd 31 0 .rw 0 /- DATA -/], 0⟩,
  ⟨.HLK_VEC_CTRL, 0x505000c, [(0x10, 256)], false, [fd 1 1 .ro 0 /- PENDING -/, fd 0 0 .rw 1 /- MASK -/], 0⟩]

/-- Registers of EVT. -/
def rowsEvt0 : List RegRow := [
  ⟨.EVT_CTRL, 0x30000, [], false, [fd 0 0 .rw 0 /- DELIVER -/], 0⟩,
  ⟨.EVT_STAT, 0x30004, [], false, [fd 16 16 .w1c 0 /- DROP -/, fd 15 15 .ro 0 /- QUIESCED -/, fd 13 0 .ro 0x2000 /- FREE -/], 0⟩,
  ⟨.EVT_SWRAISE, 0x30020, [], false, [fd 31 16 .wo 0 /- DATA -/, fd 15 8 .wo 0 /- CODE -/, fd 4 0 .wo 0 /- INDEX -/], 0⟩,
  ⟨.EVT_DROPPED, 0x30040, [], true, [fd 63 0 .ro 0 /- COUNT -/], 0⟩,
  ⟨.EVT_RAISED, 0x30048, [], true, [fd 63 0 .ro 0 /- COUNT -/], 0⟩,
  ⟨.EVT_TGT_BASE, 0x30100, [(0x40, 9)], true, [fd 43 0 .rw 0 /- LTA -/], 0⟩,
  ⟨.EVT_TGT_CFG, 0x30108, [(0x40, 9)], false, [fd 31 31 .rw 0 /- ENABLE -/, fl 26 24 .sh 0 (.le 4) /- BP -/, fd 23 16 .rw 0 /- VEC -/, fd 7 4 .rw 0 /- THRESH -/, fl 3 0 .rw 0 (.le 12) /- LOG2 -/], 0⟩,
  ⟨.EVT_TGT_PI, 0x3010c, [(0x40, 9)], false, [fd 16 0 .ro 0 /- PI -/], 0⟩,
  ⟨.EVT_TGT_CI, 0x30110, [(0x40, 9)], false, [fd 16 0 .rw 0 /- CI -/], 0⟩,
  ⟨.EVT_TGT_STAT, 0x30114, [(0x40, 9)], false, [fd 31 31 .w1c 0 /- FAULT -/, fd 30 30 .ro 0 /- IRQ -/, fd 20 16 .ro 0 /- DEPTH -/, fd 15 8 .ro 0xff /- TOP -/, fd 7 0 .ro 0xff /- SIGNALLED -/], 0⟩,
  ⟨.EVT_TGT_FSTAT, 0x30118, [(0x40, 9)], false, [fd 7 0 .ro 0 /- STATUS -/], 0⟩,
  ⟨.EVT_TGT_NEST, 0x3011c, [(0x40, 9)], false, [fd 1 1 .wo 0 /- EXIT -/, fd 0 0 .wo 0 /- ENTER -/], 0⟩,
  ⟨.EVT_TGT_PEND, 0x30120, [(0x40, 9)], false, [fd 13 0 .ro 0 /- COUNT -/], 0⟩,
  ⟨.EVT_TGT_SEQ, 0x30124, [(0x40, 9)], false, [fd 31 0 .ro 0 /- SEQ -/], 0⟩]

/-- Registers of EVT. -/
def rowsEvt1 : List RegRow := [
  ⟨.EVT_SRC_CFG, 0x31000, [(4, 480)], false, [fd 31 31 .rw 0 /- ENABLE -/, fd 30 30 .wo 0 /- PURGE -/, fl 11 8 .rw 0 (.le 8) /- TARGET -/, fd 3 0 .rw 0 /- LEVEL -/], 0⟩,
  ⟨.EVT_SRC_STAT, 0x32000, [(4, 480)], false, [fd 31 31 .w1c 0 /- LOST -/, fd 6 0 .ro 0 /- PEND -/], 0⟩]

/-- Registers of AON. -/
def rowsAon : List RegRow := [
  ⟨.AON_LINE, 0x40100, [(4, 8)], false, [fl 15 8 .rw 0x10 (.nz) /- FILT -/, fd 2 2 .ro 0 /- LEVEL -/, fl 1 0 .rw 0 (.le 2) /- MODE -/], 0⟩,
  ⟨.AON_WATCH, 0x40140, [(4, 32)], false, [fd 31 31 .rw 0 /- VALID -/, fd 9 0 .rw 0 /- SOURCE -/], 0⟩,
  ⟨.AON_DREC, 0x401c0, [], false, [fd 31 31 .w1c 0 /- LOST -/, fd 6 0 .ro 0 /- HELD -/], 0⟩,
  ⟨.AON_WAKE_EN, 0x40000, [], false, [fd 3 3 .rw 1 /- WATCH -/, fd 2 2 .rw 1 /- RALINE -/, fd 1 1 .rw 1 /- SMBUS -/, fd 0 0 .rw 1 /- PIN -/], 0⟩,
  ⟨.AON_WAKE_CAUSE, 0x40004, [], false, [fd 5 5 .w1c 0 /- ACCESS -/, fd 4 4 .w1c 0 /- HOST -/, fd 3 3 .w1c 0 /- WATCH -/, fd 2 2 .w1c 0 /- RALINE -/, fd 1 1 .w1c 0 /- SMBUS -/, fd 0 0 .w1c 0 /- PIN -/], 0⟩,
  ⟨.AON_SMB_ADDR, 0x40008, [], false, [fl 6 0 .rw 0x5a (.smbus) /- ADDR -/], 0⟩,
  ⟨.AON_WAKE_PIN, 0x4000c, [], false, [fd 8 8 .ro 0 /- LEVEL -/, fl 7 0 .rw 0xfa (.nz) /- FILT -/], 0⟩,
  ⟨.AON_STBY, 0x40010, [], false, [fd 0 0 .w1c 0 /- THERM_SHUT -/], 0⟩]

/-- Registers of PROC. -/
def rowsProc0 : List RegRow := [
  ⟨.PROC_CTRL, 0x7001000, [(0x100, 4)], false, [fd 3 3 .rw 1 /- LOCKUP_RST -/, fd 2 2 .wo 0 /- DINV -/, fd 1 1 .wo 0 /- HALT -/, fd 0 0 .wo 0 /- RUN -/], 0⟩,
  ⟨.PROC_CTRL, 0x1200000, [(0x400000, 4)], false, [fd 3 3 .rw 1 /- LOCKUP_RST -/, fd 2 2 .wo 0 /- DINV -/, fd 1 1 .wo 0 /- HALT -/, fd 0 0 .wo 0 /- RUN -/], 4⟩,
  ⟨.PROC_STAT, 0x7001004, [(0x100, 4)], false, [fd 15 8 .ro 0 /- HART -/, fd 1 0 .ro 0 /- STATE -/], 0⟩,
  ⟨.PROC_STAT, 0x1200004, [(0x400000, 4)], false, [fd 15 8 .ro 0 /- HART -/, fd 1 0 .ro 0 /- STATE -/], 4⟩,
  ⟨.PROC_BOOT, 0x7001008, [(0x100, 4)], true, [fd 47 0 .rw 0x20000000 /- ADDR -/], 0⟩,
  ⟨.PROC_BOOT, 0x1200008, [(0x400000, 4)], true, [fd 47 0 .rw 0x20000000 /- ADDR -/], 4⟩,
  ⟨.PROC_MTIMECMP, 0x7001010, [(0x100, 4)], true, [fd 63 0 .rw 0xffffffffffffffff /- CMP -/], 0⟩,
  ⟨.PROC_MTIMECMP, 0x1200010, [(0x400000, 4)], true, [fd 63 0 .rw 0xffffffffffffffff /- CMP -/], 4⟩,
  ⟨.PROC_MSIP, 0x7001018, [(0x100, 4)], false, [fd 0 0 .rw 0 /- MSIP -/], 0⟩,
  ⟨.PROC_MSIP, 0x1200018, [(0x400000, 4)], false, [fd 0 0 .rw 0 /- MSIP -/], 4⟩,
  ⟨.PROC_WDT, 0x700101c, [(0x100, 4)], false, [fd 31 31 .rw 0 /- ENABLE -/, fl 23 0 .rw 0x11e1a3 (.nz) /- TIMEOUT -/], 0⟩,
  ⟨.PROC_WDT, 0x120001c, [(0x400000, 4)], false, [fd 31 31 .rw 0 /- ENABLE -/, fl 23 0 .rw 0x11e1a3 (.nz) /- TIMEOUT -/], 4⟩,
  ⟨.PROC_WDT_KICK, 0x7001020, [(0x100, 4)], false, [fd 15 0 .wo 0 /- KEY -/], 0⟩,
  ⟨.PROC_WDT_KICK, 0x1200020, [(0x400000, 4)], false, [fd 15 0 .wo 0 /- KEY -/], 4⟩]

/-- Registers of PROC. -/
def rowsProc1 : List RegRow := [
  ⟨.PROC_WDT_STAT, 0x7001024, [(0x100, 4)], false, [fd 31 31 .w1c 0 /- BARKED -/, fd 23 0 .ro 0 /- COUNT -/], 0⟩,
  ⟨.PROC_WDT_STAT, 0x1200024, [(0x400000, 4)], false, [fd 31 31 .w1c 0 /- BARKED -/, fd 23 0 .ro 0 /- COUNT -/], 4⟩,
  ⟨.PROC_ERR, 0x7001028, [(0x100, 4)], true, [fd 63 63 .w1c 0 /- VALID -/, fd 55 48 .ro 0 /- STATUS -/, fd 47 0 .ro 0 /- ADDR -/], 0⟩,
  ⟨.PROC_ERR, 0x1200028, [(0x400000, 4)], true, [fd 63 63 .w1c 0 /- VALID -/, fd 55 48 .ro 0 /- STATUS -/, fd 47 0 .ro 0 /- ADDR -/], 4⟩,
  ⟨.PROC_APER, 0x7001040, [(0x100, 4), (8, 16)], true, [fd 57 32 .rw 0 /- BASE -/, fd 0 0 .rw 0 /- VALID -/], 0⟩,
  ⟨.PROC_APER, 0x1200040, [(0x400000, 4), (8, 16)], true, [fd 57 32 .rw 0 /- BASE -/, fd 0 0 .rw 0 /- VALID -/], 4⟩]

/-- Registers of BOOT. -/
def rowsBoot : List RegRow := [
  ⟨.BOOT_STAT, 0x50000, [], false, [fd 31 28 .ro 0 /- PHASE -/, fd 27 24 .ro 0 /- MODE -/, fd 23 20 .ro 0 /- MODE_USED -/, fd 7 7 .ro 0 /- STRAP_ERR -/, fd 6 6 .ro 0 /- FUSE_ERR -/, fd 5 5 .ro 0 /- FALLBACK -/, fd 4 4 .ro 0 /- SLOT -/], 0⟩,
  ⟨.BOOT_CTRL, 0x50004, [], false, [fd 7 4 .wo 0 /- MODE_OVR -/, fd 1 1 .wo 0 /- CONFIRM -/, fd 0 0 .wo 0 /- RELEASE -/], 0⟩,
  ⟨.BOOT_IMAGE, 0x50008, [], false, [fd 31 0 .ro 0 /- SEQ -/], 0⟩,
  ⟨.BOOT_SVN, 0x5000c, [], false, [fd 15 8 .ro 0 /- FUSED -/, fd 7 0 .ro 0 /- IMAGE -/], 0⟩,
  ⟨.BOOT_TRY, 0x50010, [], false, [fd 5 4 .rws 0 /- TRY_B -/, fd 1 0 .rws 0 /- TRY_A -/], 0⟩,
  ⟨.BOOT_STRAP, 0x50014, [], false, [fd 11 8 .ro 0 /- BAND -/, fd 7 0 .ro 0 /- CODE -/], 0⟩,
  ⟨.BOOT_FUSE, 0x50018, [], false, [fd 9 8 .ro 0 /- LOADS -/, fd 4 4 .ro 0 /- DEBUG_ALLOWED -/, fd 3 0 .ro 0xf /- LIFECYCLE -/], 0⟩,
  ⟨.BOOT_FL_CMD, 0x50040, [], false, [fd 7 0 .wo 0 /- OP -/], 0⟩,
  ⟨.BOOT_FL_ADDR, 0x50044, [], false, [fd 25 0 .rw 0 /- ADDR -/], 0⟩,
  ⟨.BOOT_FL_LEN, 0x50048, [], false, [fd 8 0 .rw 0 /- LEN -/], 0⟩,
  ⟨.BOOT_FL_STAT, 0x5004c, [], false, [fd 31 24 .ro 0 /- STATUS -/, fd 0 0 .ro 0 /- BUSY -/], 0⟩,
  ⟨.BOOT_FL_BUF, 0x50100, [(4, 64)], false, [fd 31 0 .rw 0 /- DATA -/], 0⟩,
  ⟨.BOOT_HOST_DATA, 0x50200, [], false, [fd 31 0 .wo 0 /- DATA -/], 0⟩,
  ⟨.BOOT_HOST_CNT, 0x50204, [], false, [fd 31 0 .ro 0 /- BYTES -/], 0⟩]

/-- Registers of SEC. -/
def rowsSec : List RegRow := [
  ⟨.SEC_STAT, 0x60000, [], false, [fd 3 3 .ro 0 /- DEBUG_OPEN -/, fd 2 2 .ro 0 /- KEY_OK -/, fd 1 1 .ro 0 /- IDENT -/, fd 0 0 .ro 0 /- PERM_LOCK -/], 0⟩,
  ⟨.SEC_LOCK, 0x60004, [], false, [fd 0 0 .w1s 0 /- PERM -/], 0⟩,
  ⟨.SEC_PERM, 0x60100, [(4, 19)], false, [fd 9 0 .rw 0 /- BITS -/], 0⟩,
  ⟨.SEC_CMD, 0x60200, [], false, [fd 7 0 .wo 0 /- OP -/], 0⟩,
  ⟨.SEC_CMD_ARG, 0x60208, [(8, 2)], true, [fd 63 0 .rw 0 /- ARG -/], 0⟩,
  ⟨.SEC_CMD_STAT, 0x60218, [], false, [fd 31 24 .ro 0 /- STATUS -/, fd 8 8 .ro 0 /- PASS -/, fd 0 0 .ro 0 /- BUSY -/], 0⟩,
  ⟨.SEC_DIGEST, 0x60300, [(4, 12)], false, [fd 31 0 .ro 0 /- DIGEST -/], 0⟩,
  ⟨.SEC_ROOT_HASH, 0x60400, [(4, 12)], false, [fd 31 0 .ro 0 /- HASH -/], 0⟩,
  ⟨.SEC_DEVPUB, 0x60440, [(4, 25)], false, [fd 31 0 .ro 0 /- KEY -/], 0⟩,
  ⟨.SEC_OWNER, 0x60500, [(0x40, 4), (4, 12)], false, [fd 31 0 .ro 0 /- HASH -/], 0⟩,
  ⟨.SEC_OWNER_STAT, 0x60600, [], false, [fd 7 4 .ro 0 /- REVOKED -/, fd 3 0 .ro 0 /- PROGRAMMED -/], 0⟩,
  ⟨.SEC_CHAIN_LEN, 0x60604, [], false, [fd 11 0 .ro 0 /- LEN -/], 0⟩,
  ⟨.SEC_M, 0x60800, [(0x40, 8), (4, 12)], false, [fd 31 0 .ro 0 /- M -/], 0⟩,
  ⟨.SEC_CHAIN, 0x61000, [(4, 768)], false, [fd 31 0 .ro 0 /- CHAIN -/], 0⟩]

/-- Registers of RST. -/
def rowsRst : List RegRow := [
  ⟨.RST_CAUSE, 0x10000, [], false, [fd 7 7 .w1c 0 /- LOCKUP -/, fd 6 6 .w1c 0 /- CLOCK -/, fd 5 5 .w1c 0 /- DEBUG -/, fd 4 4 .w1c 0 /- SOFTWARE -/, fd 3 3 .w1c 0 /- WATCHDOG -/, fd 2 2 .w1c 0 /- PIN -/, fd 1 1 .w1c 0 /- BROWNOUT -/, fd 0 0 .w1c 1 /- POWER_ON -/], 0⟩,
  ⟨.RST_LAST, 0x10004, [], false, [fd 25 24 .ro 0 /- REACH -/, fd 19 16 .ro 0xf /- HART -/, fd 15 8 .ro 1 /- SOURCES -/], 0⟩,
  ⟨.RST_CFG, 0x10008, [], false, [fl 5 4 .rws 1 (.range 1 2) /- LOCKUP_REACH -/, fl 3 2 .rws 1 (.range 1 2) /- WDT_REACH -/, fl 1 0 .rws 0 (.le 1) /- PIN_REACH -/], 0⟩,
  ⟨.RST_SWREQ, 0x1000c, [], false, [fd 31 16 .wo 0 /- KEY -/, fd 1 0 .wo 0 /- REACH -/], 0⟩,
  ⟨.RST_DBGREQ, 0x10010, [], false, [fd 31 16 .wo 0 /- KEY -/, fd 1 0 .wo 0 /- REACH -/], 0⟩,
  ⟨.RST_STAT, 0x10014, [], false, [fd 8 8 .ro 0 /- PIN_LEVEL -/, fd 0 0 .ro 0 /- IN_RESET -/], 0⟩,
  ⟨.RST_COUNT, 0x10018, [], false, [fd 31 0 .rc 0 /- COUNT -/], 0⟩,
  ⟨.RST_BLK_REQ, 0x10020, [], true, [fd 51 49 .rw 0 /- CPS -/, fd 44 0 .rw 0 /- BLOCKS -/], 0⟩,
  ⟨.RST_BLK_STAT, 0x10028, [], true, [fd 51 49 .ro 0 /- CPS -/, fd 44 0 .ro 0 /- BLOCKS -/], 0⟩,
  ⟨.RST_BLK_TMOMAP, 0x10030, [], true, [fd 51 49 .w1c 0 /- CPS -/, fd 44 0 .w1c 0 /- BLOCKS -/], 0⟩,
  ⟨.RST_BLK_TMO, 0x10038, [], false, [fl 23 0 .rw 0xf4240 (.nz) /- CYCLES -/], 0⟩]

/-- Registers of PWR. -/
def rowsPwr0 : List RegRow := [
  ⟨.PWR_STAT, 0x20000, [], false, [fd 13 13 .ro 0 /- TRIP -/, fd 12 12 .ro 0 /- THROTTLE -/, fd 10 8 .rws 0 /- LAST_STATE -/, fd 4 4 .ro 0 /- WAKE_PEND -/, fd 3 3 .ro 0 /- ENTERING -/, fd 2 0 .ro 0 /- STATE -/], 0⟩,
  ⟨.PWR_CFG, 0x20004, [], false, [fd 4 0 .rw 0x1f /- HOST_ENTRY -/], 0⟩,
  ⟨.PWR_ENTRY_TMO, 0x20008, [], false, [fl 23 0 .rw 0xf4240 (.nz) /- CYCLES -/], 0⟩,
  ⟨.PWR_QOPP, 0x20010, [], false, [fl 15 0 .sh 0 (.nibbles 7) /- REQ -/], 0⟩,
  ⟨.PWR_EFF, 0x20014, [], false, [fd 19 16 .ro 9 /- CAP -/, fd 15 0 .ro 0 /- EFF -/], 0⟩,
  ⟨.PWR_LIMIT, 0x20018, [], false, [fl 26 16 .sh 0x708 (.le 1800) /- WATTS -/, fl 10 0 .sh 0x640 (.le 1800) /- SUSTAIN -/], 0⟩,
  ⟨.PWR_THERM, 0x2001c, [], false, [fd 15 8 .sh 0x64 /- THROTTLE -/, fl 7 0 .sh 0x69 (.le 105) /- TRIP -/], 0⟩,
  ⟨.PWR_MEAS, 0x20020, [], false, [fd 29 24 .ro 0 /- SENSOR -/, fd 23 16 .ro 0 /- TJ -/, fd 15 0 .ro 0 /- POWER -/], 0⟩,
  ⟨.PWR_DOM_AUTO, 0x20028, [], true, [fd 40 40 .rw 0 /- MED -/, fd 23 0 .rw 0 /- DOMS -/], 0⟩,
  ⟨.PWR_DOM_STAT, 0x20030, [], true, [fd 40 40 .ro 0 /- MED -/, fd 23 0 .ro 0 /- DOMS -/], 0⟩,
  ⟨.PWR_DOM_IDLE, 0x20038, [], false, [fl 15 0 .rw 0x64 (.nz) /- US -/], 0⟩,
  ⟨.PWR_THROTTLE_CYC, 0x20100, [], true, [fd 63 0 .ro 0 /- COUNT -/], 0⟩,
  ⟨.PWR_ENERGY, 0x20108, [], true, [fd 63 0 .ro 0 /- COUNT -/], 0⟩,
  ⟨.PWR_WAKES, 0x20140, [], false, [fd 31 0 .rc 0 /- COUNT -/], 0⟩]

/-- Registers of PWR. -/
def rowsPwr1 : List RegRow := [
  ⟨.PWR_DOM_WAKES, 0x20144, [], false, [fd 31 0 .rc 0 /- COUNT -/], 0⟩,
  ⟨.PWR_TRIPS, 0x20148, [], false, [fd 31 0 .rc 0 /- COUNT -/], 0⟩]

/-- Registers of CPX. -/
def rowsCpx : List RegRow := [
  ⟨.CPX_MTIME, 0x7000000, [], true, [fd 63 0 .ro 0 /- MTIME -/], 0⟩]

/-- All registers of GLB. -/
def regsGlb : List RegRow := rowsGlb0 ++ rowsGlb1

/-- All registers of CORE. -/
def regsCore : List RegRow := rowsCore0 ++ rowsCore1 ++ rowsCore2

/-- All registers of FSC. -/
def regsFsc : List RegRow := rowsFsc0 ++ rowsFsc1

/-- All registers of DSC. -/
def regsDsc : List RegRow := rowsDsc0 ++ rowsDsc1

/-- All registers of PLC. -/
def regsPlc : List RegRow := rowsPlc0 ++ rowsPlc1 ++ rowsPlc2

/-- All registers of NBU. -/
def regsNbu : List RegRow := rowsNbu0 ++ rowsNbu1

/-- All registers of RLY. -/
def regsRly : List RegRow := rowsRly0 ++ rowsRly1 ++ rowsRly2

/-- All registers of MED. -/
def regsMed : List RegRow := rowsMed0 ++ rowsMed1

/-- All registers of PORT. -/
def regsPort : List RegRow := rowsPort0 ++ rowsPort1

/-- All registers of FABC. -/
def regsFabc : List RegRow := rowsFabc0 ++ rowsFabc1 ++ rowsFabc2 ++ rowsFabc3

/-- All registers of HLK. -/
def regsHlk : List RegRow := rowsHlk0 ++ rowsHlk1 ++ rowsHlk2 ++ rowsHlk3

/-- All registers of EVT. -/
def regsEvt : List RegRow := rowsEvt0 ++ rowsEvt1

/-- All registers of AON. -/
def regsAon : List RegRow := rowsAon

/-- All registers of PROC. -/
def regsProc : List RegRow := rowsProc0 ++ rowsProc1

/-- All registers of BOOT. -/
def regsBoot : List RegRow := rowsBoot

/-- All registers of SEC. -/
def regsSec : List RegRow := rowsSec

/-- All registers of RST. -/
def regsRst : List RegRow := rowsRst

/-- All registers of PWR. -/
def regsPwr : List RegRow := rowsPwr0 ++ rowsPwr1

/-- All registers of CPX. -/
def regsCpx : List RegRow := rowsCpx

namespace Csr

/-- Address of GLB_QUIESCE_REQ. -/
def GLB_QUIESCE_REQ : Nat := 0x10
/-- Address of GLB_QUIESCE_STAT. -/
def GLB_QUIESCE_STAT : Nat := 0x18
/-- Address of GLB_QUIESCE_TMO. -/
def GLB_QUIESCE_TMO : Nat := 0x20
/-- Address of GLB_SHADOW_DIRTY. -/
def GLB_SHADOW_DIRTY : Nat := 0x28
/-- Address of GLB_COMMIT_MASK. -/
def GLB_COMMIT_MASK : Nat := 0x30
/-- Address of GLB_COMMIT. -/
def GLB_COMMIT : Nat := 0x38
/-- Address of GLB_COMMIT_STAT. -/
def GLB_COMMIT_STAT : Nat := 0x3c
/-- Address of GLB_COMMIT_NOTQ. -/
def GLB_COMMIT_NOTQ : Nat := 0x40
/-- Address of GLB_GEN. -/
def GLB_GEN : Nat := 0x48
/-- Address of CORE_ID. -/
def CORE_ID (q n : Nat) : Nat := 0x1000000 + q * 0x400000 + n * 0x10000
/-- Address of CORE_CTRL. -/
def CORE_CTRL (q n : Nat) : Nat := 0x1000004 + q * 0x400000 + n * 0x10000
/-- Address of CORE_STATUS. -/
def CORE_STATUS (q n : Nat) : Nat := 0x1000008 + q * 0x400000 + n * 0x10000
/-- Address of CORE_PC. -/
def CORE_PC (q n : Nat) : Nat := 0x100000c + q * 0x400000 + n * 0x10000
/-- Address of CORE_CFG. -/
def CORE_CFG (q n : Nat) : Nat := 0x1000010 + q * 0x400000 + n * 0x10000
/-- Address of CORE_FAULT. -/
def CORE_FAULT (q n : Nat) : Nat := 0x1000018 + q * 0x400000 + n * 0x10000
/-- Address of CORE_FAULT_ADDR. -/
def CORE_FAULT_ADDR (q n : Nat) : Nat := 0x1000020 + q * 0x400000 + n * 0x10000
/-- Address of CORE_FAULT_CLR. -/
def CORE_FAULT_CLR (q n : Nat) : Nat := 0x1000024 + q * 0x400000 + n * 0x10000
/-- Address of CORE_SB. -/
def CORE_SB (q n : Nat) : Nat := 0x1000028 + q * 0x400000 + n * 0x10000
/-- Address of CORE_SB_SET. -/
def CORE_SB_SET (q n : Nat) : Nat := 0x1000030 + q * 0x400000 + n * 0x10000
/-- Address of CORE_SB_FAIL. -/
def CORE_SB_FAIL (q n : Nat) : Nat := 0x1000038 + q * 0x400000 + n * 0x10000
/-- Address of CORE_SB_OVERSET. -/
def CORE_SB_OVERSET (q n : Nat) : Nat := 0x1000040 + q * 0x400000 + n * 0x10000
/-- Address of CORE_TS_CE. -/
def CORE_TS_CE (q n : Nat) : Nat := 0x1000044 + q * 0x400000 + n * 0x10000
/-- Address of CORE_CONV_FLAGS. -/
def CORE_CONV_FLAGS (q n : Nat) : Nat := 0x1000048 + q * 0x400000 + n * 0x10000
/-- Address of CORE_STAT_MM. -/
def CORE_STAT_MM (q n : Nat) : Nat := 0x1000050 + q * 0x400000 + n * 0x10000
/-- Address of CORE_STAT_WAIT. -/
def CORE_STAT_WAIT (q n : Nat) : Nat := 0x1000058 + q * 0x400000 + n * 0x10000
/-- Address of STRM_PUSH. -/
def STRM_PUSH (q n t : Nat) : Nat := 0x1000100 + q * 0x400000 + n * 0x10000 + t * 0x40
/-- Address of STRM_STAT. -/
def STRM_STAT (q n t : Nat) : Nat := 0x1000108 + q * 0x400000 + n * 0x10000 + t * 0x40
/-- Address of STRM_CANCEL. -/
def STRM_CANCEL (q n t : Nat) : Nat := 0x100010c + q * 0x400000 + n * 0x10000 + t * 0x40
/-- Address of STRM_FAIL. -/
def STRM_FAIL (q n t : Nat) : Nat := 0x1000110 + q * 0x400000 + n * 0x10000 + t * 0x40
/-- Address of STRM_FAIL_TAG. -/
def STRM_FAIL_TAG (q n t : Nat) : Nat := 0x1000114 + q * 0x400000 + n * 0x10000 + t * 0x40
/-- Address of STRM_FAIL_PREFIX. -/
def STRM_FAIL_PREFIX (q n t : Nat) : Nat := 0x1000118 + q * 0x400000 + n * 0x10000 + t * 0x40
/-- Address of STRM_FAIL_MAP. -/
def STRM_FAIL_MAP (q n t : Nat) : Nat := 0x1000120 + q * 0x400000 + n * 0x10000 + t * 0x40
/-- Address of STRM_BYTES. -/
def STRM_BYTES (q n t : Nat) : Nat := 0x1000128 + q * 0x400000 + n * 0x10000 + t * 0x40
/-- Address of ACC_TMODE. -/
def ACC_TMODE (q n : Nat) : Nat := 0x1000200 + q * 0x400000 + n * 0x10000
/-- Address of ACC_VEC_FLAGS. -/
def ACC_VEC_FLAGS (q n : Nat) : Nat := 0x1000208 + q * 0x400000 + n * 0x10000
/-- Address of ACC_CE. -/
def ACC_CE (q n : Nat) : Nat := 0x100020c + q * 0x400000 + n * 0x10000
/-- Address of ACC_ERR. -/
def ACC_ERR (q n : Nat) : Nat := 0x1000210 + q * 0x400000 + n * 0x10000
/-- Address of CORE_TRQ. -/
def CORE_TRQ (q n : Nat) : Nat := 0x1000214 + q * 0x400000 + n * 0x10000
/-- Address of VEC_VL. -/
def VEC_VL (q n : Nat) : Nat := 0x1000218 + q * 0x400000 + n * 0x10000
/-- Address of VEC_STAT. -/
def VEC_STAT (q n : Nat) : Nat := 0x1000220 + q * 0x400000 + n * 0x10000
/-- Address of ACC_STAT_TRQ. -/
def ACC_STAT_TRQ (q n : Nat) : Nat := 0x1000228 + q * 0x400000 + n * 0x10000
/-- Address of FSC_ID. -/
def FSC_ID (s : Nat) : Nat := 0x2000000 + s * 0x100000
/-- Address of FSC_CTRL. -/
def FSC_CTRL (s : Nat) : Nat := 0x2000004 + s * 0x100000
/-- Address of FSC_STAT. -/
def FSC_STAT (s : Nat) : Nat := 0x2000008 + s * 0x100000
/-- Address of FSC_TEMP. -/
def FSC_TEMP (s : Nat) : Nat := 0x200000c + s * 0x100000
/-- Address of FSC_LAYOUT. -/
def FSC_LAYOUT (s : Nat) : Nat := 0x2000010 + s * 0x100000
/-- Address of FSC_REFRESH. -/
def FSC_REFRESH (s : Nat) : Nat := 0x2000014 + s * 0x100000
/-- Address of FSC_SCRUB. -/
def FSC_SCRUB (s : Nat) : Nat := 0x2000018 + s * 0x100000
/-- Address of FSC_ROW_THRESH. -/
def FSC_ROW_THRESH (s : Nat) : Nat := 0x200001c + s * 0x100000
/-- Address of FSC_SCRUB_POS. -/
def FSC_SCRUB_POS (s : Nat) : Nat := 0x2000020 + s * 0x100000
/-- Address of FSC_CE. -/
def FSC_CE (s : Nat) : Nat := 0x2000028 + s * 0x100000
/-- Address of FSC_ODCE. -/
def FSC_ODCE (s : Nat) : Nat := 0x200002c + s * 0x100000
/-- Address of FSC_UE. -/
def FSC_UE (s : Nat) : Nat := 0x2000030 + s * 0x100000
/-- Address of FSC_POISON_RD. -/
def FSC_POISON_RD (s : Nat) : Nat := 0x2000034 + s * 0x100000
/-- Address of FSC_REF_LIMIT. -/
def FSC_REF_LIMIT (s : Nat) : Nat := 0x2000038 + s * 0x100000
/-- Address of FSC_ERR_STAT. -/
def FSC_ERR_STAT (s : Nat) : Nat := 0x200003c + s * 0x100000
/-- Address of FSC_ERR_LOC. -/
def FSC_ERR_LOC (s : Nat) : Nat := 0x2000040 + s * 0x100000
/-- Address of FSC_RD_BYTES. -/
def FSC_RD_BYTES (s : Nat) : Nat := 0x2000048 + s * 0x100000
/-- Address of FSC_WR_BYTES. -/
def FSC_WR_BYTES (s : Nat) : Nat := 0x2000050 + s * 0x100000
/-- Address of DSC_TMO. -/
def DSC_TMO (d : Nat) : Nat := 0x3000060 + d * 0x100000
/-- Address of DSC_TMO_CNT. -/
def DSC_TMO_CNT (d : Nat) : Nat := 0x3000064 + d * 0x100000
/-- Address of DSC_REQ_STAT. -/
def DSC_REQ_STAT (d : Nat) : Nat := 0x3000068 + d * 0x100000
/-- Address of PLC_TABLE. -/
def PLC_TABLE : Nat := 0x3800000
/-- Address of PLC_STAT. -/
def PLC_STAT : Nat := 0x3800004
/-- Address of PLC_HEAT. -/
def PLC_HEAT : Nat := 0x3800008
/-- Address of PLC_EPOCH_CYC. -/
def PLC_EPOCH_CYC : Nat := 0x380000c
/-- Address of PLC_EPOCH. -/
def PLC_EPOCH : Nat := 0x3800010
/-- Address of PLC_FREE_TGT. -/
def PLC_FREE_TGT : Nat := 0x3800014
/-- Address of PLC_SWEEP. -/
def PLC_SWEEP : Nat := 0x3800018
/-- Address of PLC_MIG. -/
def PLC_MIG : Nat := 0x380001c
/-- Address of PLC_FREE_POOL. -/
def PLC_FREE_POOL : Nat := 0x3800020
/-- Address of PLC_FREE_BANKED. -/
def PLC_FREE_BANKED (s : Nat) : Nat := 0x3800040 + s * 4
/-- Address of PLC_FREE_DEEP. -/
def PLC_FREE_DEEP (d : Nat) : Nat := 0x3800080 + d * 4
/-- Address of PLC_LOOKUPS. -/
def PLC_LOOKUPS : Nat := 0x3800100
/-- Address of PLC_MISSES. -/
def PLC_MISSES : Nat := 0x3800108
/-- Address of PLC_PROMOTIONS. -/
def PLC_PROMOTIONS : Nat := 0x3800110
/-- Address of PLC_DEMOTIONS. -/
def PLC_DEMOTIONS : Nat := 0x3800118
/-- Address of PLC_WB_SECTORS. -/
def PLC_WB_SECTORS : Nat := 0x3800120
/-- Address of PLC_BYPASS. -/
def PLC_BYPASS : Nat := 0x3800128
/-- Address of PLC_LATE. -/
def PLC_LATE : Nat := 0x3800140
/-- Address of PLC_TMO. -/
def PLC_TMO : Nat := 0x3800144
/-- Address of PLC_POISON. -/
def PLC_POISON : Nat := 0x3800148
/-- Address of PLC_RELOC. -/
def PLC_RELOC : Nat := 0x380014c
/-- Address of PLC_CMD. -/
def PLC_CMD (c : Nat) : Nat := 0x3801000 + c * 0x100
/-- Address of PLC_CMD_ARG. -/
def PLC_CMD_ARG (c i : Nat) : Nat := 0x3801008 + c * 0x100 + i * 8
/-- Address of PLC_CMD_STAT. -/
def PLC_CMD_STAT (c : Nat) : Nat := 0x3801020 + c * 0x100
/-- Address of PLC_CMD_PREFIX. -/
def PLC_CMD_PREFIX (c : Nat) : Nat := 0x3801024 + c * 0x100
/-- Address of PLC_CMD_MAP. -/
def PLC_CMD_MAP (c : Nat) : Nat := 0x3801028 + c * 0x100
/-- Address of PLC_CMD_ENTRY. -/
def PLC_CMD_ENTRY (c i : Nat) : Nat := 0x3801030 + c * 0x100 + i * 8
/-- Address of EPH_STAT. -/
def EPH_STAT (p : Nat) : Nat := 0x3802000 + p * 0x40
/-- Address of EPH_STEP. -/
def EPH_STEP (p : Nat) : Nat := 0x3802004 + p * 0x40
/-- Address of EPH_FIRED. -/
def EPH_FIRED (p : Nat) : Nat := 0x3802008 + p * 0x40
/-- Address of EPH_LATE. -/
def EPH_LATE (p : Nat) : Nat := 0x380200c + p * 0x40
/-- Address of EPH_FAIL. -/
def EPH_FAIL (p : Nat) : Nat := 0x3802010 + p * 0x40
/-- Address of NBU_ID. -/
def NBU_ID (s k : Nat) : Nat := 0x2080000 + s * 0x100000 + k * 0x20000
/-- Address of NBU_CTRL. -/
def NBU_CTRL (s k : Nat) : Nat := 0x2080004 + s * 0x100000 + k * 0x20000
/-- Address of NBU_STAT. -/
def NBU_STAT (s k : Nat) : Nat := 0x2080008 + s * 0x100000 + k * 0x20000
/-- Address of NBU_BURST. -/
def NBU_BURST (s k : Nat) : Nat := 0x208000c + s * 0x100000 + k * 0x20000
/-- Address of NBU_PAR. -/
def NBU_PAR (s k : Nat) : Nat := 0x2080010 + s * 0x100000 + k * 0x20000
/-- Address of NBU_COMMIT. -/
def NBU_COMMIT (s k : Nat) : Nat := 0x2080014 + s * 0x100000 + k * 0x20000
/-- Address of NBU_SLOT. -/
def NBU_SLOT (s k : Nat) : Nat := 0x2080018 + s * 0x100000 + k * 0x20000
/-- Address of NBU_ROWS. -/
def NBU_ROWS (s k : Nat) : Nat := 0x2080100 + s * 0x100000 + k * 0x20000
/-- Address of NBU_PARK. -/
def NBU_PARK (s k : Nat) : Nat := 0x2080108 + s * 0x100000 + k * 0x20000
/-- Address of NBU_DELTA. -/
def NBU_DELTA (s k : Nat) : Nat := 0x2080110 + s * 0x100000 + k * 0x20000
/-- Address of NBU_HOLD. -/
def NBU_HOLD (s k : Nat) : Nat := 0x2080118 + s * 0x100000 + k * 0x20000
/-- Address of NBU_PREEMPT. -/
def NBU_PREEMPT (s k : Nat) : Nat := 0x2080140 + s * 0x100000 + k * 0x20000
/-- Address of NBU_RESIDUE. -/
def NBU_RESIDUE (s k : Nat) : Nat := 0x2080144 + s * 0x100000 + k * 0x20000
/-- Address of NBU_STALE. -/
def NBU_STALE (s k : Nat) : Nat := 0x2080148 + s * 0x100000 + k * 0x20000
/-- Address of NBU_DUP. -/
def NBU_DUP (s k : Nat) : Nat := 0x208014c + s * 0x100000 + k * 0x20000
/-- Address of NBU_PAR_RETRY. -/
def NBU_PAR_RETRY (s k : Nat) : Nat := 0x2080150 + s * 0x100000 + k * 0x20000
/-- Address of NBU_CMD. -/
def NBU_CMD (s k : Nat) : Nat := 0x2080200 + s * 0x100000 + k * 0x20000
/-- Address of NBU_CMD_ARG. -/
def NBU_CMD_ARG (s k i : Nat) : Nat := 0x2080208 + s * 0x100000 + k * 0x20000 + i * 8
/-- Address of NBU_CMD_STAT. -/
def NBU_CMD_STAT (s k : Nat) : Nat := 0x2080220 + s * 0x100000 + k * 0x20000
/-- Address of NBU_CMD_PREFIX. -/
def NBU_CMD_PREFIX (s k : Nat) : Nat := 0x2080224 + s * 0x100000 + k * 0x20000
/-- Address of NBU_CMD_MAP. -/
def NBU_CMD_MAP (s k : Nat) : Nat := 0x2080228 + s * 0x100000 + k * 0x20000
/-- Address of NBU_CMD_RESULT. -/
def NBU_CMD_RESULT (s k : Nat) : Nat := 0x2080230 + s * 0x100000 + k * 0x20000
/-- Address of NBU_CMD_RESULT2. -/
def NBU_CMD_RESULT2 (s k : Nat) : Nat := 0x2080238 + s * 0x100000 + k * 0x20000
/-- Address of NBU_K. -/
def NBU_K (s k t p i : Nat) : Nat := 0x2081000 + s * 0x100000 + k * 0x20000 + t * 0x80 + p * 0x40 + i * 4
/-- Address of RLY_ID. -/
def RLY_ID (e : Nat) : Nat := 0x3c00000 + e * 0x200000
/-- Address of RLY_CTRL. -/
def RLY_CTRL (e : Nat) : Nat := 0x3c00004 + e * 0x200000
/-- Address of RLY_STAT. -/
def RLY_STAT (e : Nat) : Nat := 0x3c00008 + e * 0x200000
/-- Address of RLY_CFG. -/
def RLY_CFG (e : Nat) : Nat := 0x3c0000c + e * 0x200000
/-- Address of RLY_HOP. -/
def RLY_HOP (e : Nat) : Nat := 0x3c00010 + e * 0x200000
/-- Address of RLY_DLV. -/
def RLY_DLV (e : Nat) : Nat := 0x3c00014 + e * 0x200000
/-- Address of RLY_FREE_SLOTS. -/
def RLY_FREE_SLOTS (e : Nat) : Nat := 0x3c00018 + e * 0x200000
/-- Address of RLY_FREE_SUBST. -/
def RLY_FREE_SUBST (e : Nat) : Nat := 0x3c0001c + e * 0x200000
/-- Address of RLY_FAIL. -/
def RLY_FAIL (e : Nat) : Nat := 0x3c00020 + e * 0x200000
/-- Address of RLY_FAIL_STEP. -/
def RLY_FAIL_STEP (e : Nat) : Nat := 0x3c00024 + e * 0x200000
/-- Address of RLY_ELEMS. -/
def RLY_ELEMS (e : Nat) : Nat := 0x3c00100 + e * 0x200000
/-- Address of RLY_ROWS. -/
def RLY_ROWS (e : Nat) : Nat := 0x3c00108 + e * 0x200000
/-- Address of RLY_RX_BYTES. -/
def RLY_RX_BYTES (e : Nat) : Nat := 0x3c00110 + e * 0x200000
/-- Address of RLY_TX_BYTES. -/
def RLY_TX_BYTES (e : Nat) : Nat := 0x3c00118 + e * 0x200000
/-- Address of RLY_RESIDUE. -/
def RLY_RESIDUE (e : Nat) : Nat := 0x3c00140 + e * 0x200000
/-- Address of RLY_SAT. -/
def RLY_SAT (e : Nat) : Nat := 0x3c00144 + e * 0x200000
/-- Address of RLY_SUBST. -/
def RLY_SUBST (e : Nat) : Nat := 0x3c00148 + e * 0x200000
/-- Address of RLY_NOTTAKEN. -/
def RLY_NOTTAKEN (e : Nat) : Nat := 0x3c0014c + e * 0x200000
/-- Address of RLY_REDELIVER. -/
def RLY_REDELIVER (e : Nat) : Nat := 0x3c00150 + e * 0x200000
/-- Address of RLY_RESEND. -/
def RLY_RESEND (e : Nat) : Nat := 0x3c00154 + e * 0x200000
/-- Address of RLY_SQ_BASE. -/
def RLY_SQ_BASE (e q : Nat) : Nat := 0x3c01000 + e * 0x200000 + q * 0x20
/-- Address of RLY_SQ_SIZE. -/
def RLY_SQ_SIZE (e q : Nat) : Nat := 0x3c01008 + e * 0x200000 + q * 0x20
/-- Address of RLY_SQ_PI. -/
def RLY_SQ_PI (e q : Nat) : Nat := 0x3c0100c + e * 0x200000 + q * 0x20
/-- Address of RLY_SQ_CI. -/
def RLY_SQ_CI (e q : Nat) : Nat := 0x3c01010 + e * 0x200000 + q * 0x20
/-- Address of MED_CTRL. -/
def MED_CTRL : Nat := 0x6000004
/-- Address of MED_STAT. -/
def MED_STAT : Nat := 0x6000008
/-- Address of MED_SCRATCH. -/
def MED_SCRATCH : Nat := 0x6000010
/-- Address of MED_CONV_FLAGS. -/
def MED_CONV_FLAGS : Nat := 0x6000018
/-- Address of MED_SQ_BASE. -/
def MED_SQ_BASE (r : Nat) : Nat := 0x6001000 + r * 0x20
/-- Address of MED_SQ_SIZE. -/
def MED_SQ_SIZE (r : Nat) : Nat := 0x6001008 + r * 0x20
/-- Address of MED_SQ_PI. -/
def MED_SQ_PI (r : Nat) : Nat := 0x600100c + r * 0x20
/-- Address of MED_SQ_CI. -/
def MED_SQ_CI (r : Nat) : Nat := 0x6001010 + r * 0x20
/-- Address of MED_TAP. -/
def MED_TAP (t p k : Nat) : Nat := 0x6004000 + t * 0x800 + p * 0x20 + k * 4
/-- Address of MED_DECODED. -/
def MED_DECODED : Nat := 0x6000100
/-- Address of MED_FRAMES. -/
def MED_FRAMES : Nat := 0x6000108
/-- Address of MED_SHUF_EVAL. -/
def MED_SHUF_EVAL : Nat := 0x6000110
/-- Address of MED_BAD. -/
def MED_BAD : Nat := 0x6000140
/-- Address of MED_CONCEAL. -/
def MED_CONCEAL : Nat := 0x6000144
/-- Address of MED_DISC. -/
def MED_DISC : Nat := 0x6000148
/-- Address of MED_TS_RESYNC. -/
def MED_TS_RESYNC : Nat := 0x600014c
/-- Address of FAB_PORT_CFG. -/
def FAB_PORT_CFG (p : Nat) : Nat := 0x4000000 + p * 0x100000
/-- Address of FAB_PORT_STAT. -/
def FAB_PORT_STAT (p : Nat) : Nat := 0x4000004 + p * 0x100000
/-- Address of FAB_LINK_CTRL. -/
def FAB_LINK_CTRL (p h : Nat) : Nat := 0x4000100 + p * 0x100000 + h * 0x80
/-- Address of FAB_LINK_STAT. -/
def FAB_LINK_STAT (p h : Nat) : Nat := 0x4000104 + p * 0x100000 + h * 0x80
/-- Address of FAB_LINK_PEER. -/
def FAB_LINK_PEER (p h : Nat) : Nat := 0x4000108 + p * 0x100000 + h * 0x80
/-- Address of FAB_LINK_PEER_INFO. -/
def FAB_LINK_PEER_INFO (p h : Nat) : Nat := 0x4000110 + p * 0x100000 + h * 0x80
/-- Address of FAB_LINK_KA. -/
def FAB_LINK_KA (p h : Nat) : Nat := 0x4000114 + p * 0x100000 + h * 0x80
/-- Address of FAB_LINK_RETRY. -/
def FAB_LINK_RETRY (p h : Nat) : Nat := 0x4000118 + p * 0x100000 + h * 0x80
/-- Address of FAB_LINK_CREDIT. -/
def FAB_LINK_CREDIT (p h v : Nat) : Nat := 0x4000120 + p * 0x100000 + h * 0x80 + v * 4
/-- Address of FAB_LINK_TX_FLITS. -/
def FAB_LINK_TX_FLITS (p h : Nat) : Nat := 0x4000140 + p * 0x100000 + h * 0x80
/-- Address of FAB_LINK_RX_FLITS. -/
def FAB_LINK_RX_FLITS (p h : Nat) : Nat := 0x4000148 + p * 0x100000 + h * 0x80
/-- Address of FAB_LINK_FEC_SYM. -/
def FAB_LINK_FEC_SYM (p h : Nat) : Nat := 0x4000150 + p * 0x100000 + h * 0x80
/-- Address of FAB_LINK_FEC_UNC. -/
def FAB_LINK_FEC_UNC (p h : Nat) : Nat := 0x4000158 + p * 0x100000 + h * 0x80
/-- Address of FAB_LINK_CRC. -/
def FAB_LINK_CRC (p h : Nat) : Nat := 0x400015c + p * 0x100000 + h * 0x80
/-- Address of FAB_LINK_REPLAY. -/
def FAB_LINK_REPLAY (p h : Nat) : Nat := 0x4000160 + p * 0x100000 + h * 0x80
/-- Address of FAB_LINK_DOWN. -/
def FAB_LINK_DOWN (p h : Nat) : Nat := 0x4000164 + p * 0x100000 + h * 0x80
/-- Address of FABC_SELF. -/
def FABC_SELF : Nat := 0x4c00000
/-- Address of FABC_PHYS. -/
def FABC_PHYS : Nat := 0x4c00008
/-- Address of FABC_CFG. -/
def FABC_CFG : Nat := 0x4c00010
/-- Address of FABC_TXN_TMO. -/
def FABC_TXN_TMO : Nat := 0x4c00014
/-- Address of FABC_HB. -/
def FABC_HB : Nat := 0x4c00018
/-- Address of FABC_TAGS. -/
def FABC_TAGS : Nat := 0x4c0001c
/-- Address of FABC_EPOCH. -/
def FABC_EPOCH : Nat := 0x4c00020
/-- Address of FABC_EPOCH_NEXT. -/
def FABC_EPOCH_NEXT : Nat := 0x4c00024
/-- Address of FABC_SWITCH. -/
def FABC_SWITCH : Nat := 0x4c00028
/-- Address of FABC_MBX_BASE. -/
def FABC_MBX_BASE : Nat := 0x4c00030
/-- Address of FABC_MBX_SIZE. -/
def FABC_MBX_SIZE : Nat := 0x4c00038
/-- Address of FABC_MBX_PI. -/
def FABC_MBX_PI : Nat := 0x4c0003c
/-- Address of FABC_MBX_CI. -/
def FABC_MBX_CI : Nat := 0x4c00040
/-- Address of FABC_VIOL_CAP. -/
def FABC_VIOL_CAP : Nat := 0x4c00048
/-- Address of FABC_DROP_CAP. -/
def FABC_DROP_CAP : Nat := 0x4c00050
/-- Address of FABC_MGMT_PUSH. -/
def FABC_MGMT_PUSH : Nat := 0x4c00058
/-- Address of FABC_MGMT_STAT. -/
def FABC_MGMT_STAT : Nat := 0x4c00060
/-- Address of FABC_TX_MSGS. -/
def FABC_TX_MSGS : Nat := 0x4c00100
/-- Address of FABC_RX_MSGS. -/
def FABC_RX_MSGS : Nat := 0x4c00108
/-- Address of FABC_VIOL. -/
def FABC_VIOL : Nat := 0x4c00140
/-- Address of FABC_DROP. -/
def FABC_DROP : Nat := 0x4c00144
/-- Address of FABC_STALE_RSP. -/
def FABC_STALE_RSP : Nat := 0x4c00148
/-- Address of FABC_TMO. -/
def FABC_TMO : Nat := 0x4c0014c
/-- Address of FABC_REPLY_DROP. -/
def FABC_REPLY_DROP : Nat := 0x4c00150
/-- Address of FABC_MBX_DROP. -/
def FABC_MBX_DROP : Nat := 0x4c00154
/-- Address of FABC_ROUTE. -/
def FABC_ROUTE (b d : Nat) : Nat := 0x4c10000 + b * 0x4000 + d * 4
/-- Address of FABC_WIN_CTRL. -/
def FABC_WIN_CTRL (w : Nat) : Nat := 0x4c08000 + w * 0x20
/-- Address of FABC_WIN_BASE. -/
def FABC_WIN_BASE (w : Nat) : Nat := 0x4c08008 + w * 0x20
/-- Address of FABC_WIN_SIZE. -/
def FABC_WIN_SIZE (w : Nat) : Nat := 0x4c08010 + w * 0x20
/-- Address of PGRP_CFG. -/
def PGRP_CFG (b : Nat) : Nat := 0x4c20000 + b * 0x100
/-- Address of PGRP_D. -/
def PGRP_D (b : Nat) : Nat := 0x4c20004 + b * 0x100
/-- Address of PGRP_PROT_BASE. -/
def PGRP_PROT_BASE (b : Nat) : Nat := 0x4c20008 + b * 0x100
/-- Address of PGRP_PAR_BASE. -/
def PGRP_PAR_BASE (b : Nat) : Nat := 0x4c2000c + b * 0x100
/-- Address of PGRP_DEV. -/
def PGRP_DEV (b i : Nat) : Nat := 0x4c20040 + b * 0x100 + i * 4
/-- Address of PGRP_EN. -/
def PGRP_EN : Nat := 0x4c20400
/-- Address of PGRP_LOST. -/
def PGRP_LOST : Nat := 0x4c20404
/-- Address of PGRP_STAT. -/
def PGRP_STAT : Nat := 0x4c20408
/-- Address of PGRP_JRNL_CMD. -/
def PGRP_JRNL_CMD : Nat := 0x4c2040c
/-- Address of PGRP_JRNL_ADDR. -/
def PGRP_JRNL_ADDR : Nat := 0x4c20410
/-- Address of PGRP_JRNL_STAT. -/
def PGRP_JRNL_STAT : Nat := 0x4c20418
/-- Address of PGRP_JRNL_COUNT. -/
def PGRP_JRNL_COUNT : Nat := 0x4c2041c
/-- Address of PGRP_JRNL_FULL. -/
def PGRP_JRNL_FULL : Nat := 0x4c20420
/-- Address of FT_HEALTH. -/
def FT_HEALTH : Nat := 0x4c20440
/-- Address of FT_FAILED. -/
def FT_FAILED : Nat := 0x4c20448
/-- Address of RLY_RB_BASE. -/
def RLY_RB_BASE (e : Nat) : Nat := 0x3c03000 + e * 0x200000
/-- Address of RLY_RB_SIZE. -/
def RLY_RB_SIZE (e : Nat) : Nat := 0x3c03008 + e * 0x200000
/-- Address of RLY_RB_PI. -/
def RLY_RB_PI (e : Nat) : Nat := 0x3c0300c + e * 0x200000
/-- Address of RLY_RB_CI. -/
def RLY_RB_CI (e : Nat) : Nat := 0x3c03010 + e * 0x200000
/-- Address of RLY_RB_SECTORS. -/
def RLY_RB_SECTORS (e : Nat) : Nat := 0x3c03100 + e * 0x200000
/-- Address of HLK_CTRL. -/
def HLK_CTRL : Nat := 0x5000000
/-- Address of HLK_LINK_STAT. -/
def HLK_LINK_STAT : Nat := 0x5000004
/-- Address of HLK_SESSION. -/
def HLK_SESSION : Nat := 0x5000008
/-- Address of HLK_ATTACH. -/
def HLK_ATTACH : Nat := 0x500000c
/-- Address of HLK_HEPOCH. -/
def HLK_HEPOCH : Nat := 0x5000010
/-- Address of HLK_TMO. -/
def HLK_TMO : Nat := 0x5000014
/-- Address of HLK_KA. -/
def HLK_KA : Nat := 0x5000018
/-- Address of HLK_RETRY. -/
def HLK_RETRY : Nat := 0x500001c
/-- Address of HLK_JRNL_BASE. -/
def HLK_JRNL_BASE : Nat := 0x5000020
/-- Address of HLK_JRNL_STAT. -/
def HLK_JRNL_STAT : Nat := 0x5000028
/-- Address of HLK_JSEQ_NEXT. -/
def HLK_JSEQ_NEXT : Nat := 0x500002c
/-- Address of HLK_JSEQ_ACK. -/
def HLK_JSEQ_ACK : Nat := 0x5000030
/-- Address of HLK_ORPHAN_BASE. -/
def HLK_ORPHAN_BASE : Nat := 0x5000038
/-- Address of HLK_ORPHAN_SIZE. -/
def HLK_ORPHAN_SIZE : Nat := 0x5000040
/-- Address of HLK_ORPHAN_PI. -/
def HLK_ORPHAN_PI : Nat := 0x5000044
/-- Address of HLK_ORPHAN_START. -/
def HLK_ORPHAN_START : Nat := 0x5000048
/-- Address of HLK_FWQ_BASE. -/
def HLK_FWQ_BASE : Nat := 0x5000050
/-- Address of HLK_FWQ_SIZE. -/
def HLK_FWQ_SIZE : Nat := 0x5000058
/-- Address of HLK_FWQ_PI. -/
def HLK_FWQ_PI : Nat := 0x500005c
/-- Address of HLK_FWQ_CI. -/
def HLK_FWQ_CI : Nat := 0x5000060
/-- Address of HLK_FW_RESULT. -/
def HLK_FW_RESULT : Nat := 0x5000068
/-- Address of HLK_FW_DONE. -/
def HLK_FW_DONE : Nat := 0x5000070
/-- Address of HLK_TX_FLITS. -/
def HLK_TX_FLITS : Nat := 0x5000100
/-- Address of HLK_RX_FLITS. -/
def HLK_RX_FLITS : Nat := 0x5000108
/-- Address of HLK_CMDS. -/
def HLK_CMDS : Nat := 0x5000110
/-- Address of HLK_FEC_UNC. -/
def HLK_FEC_UNC : Nat := 0x5000140
/-- Address of HLK_CRC. -/
def HLK_CRC : Nat := 0x5000144
/-- Address of HLK_LINK_DOWN. -/
def HLK_LINK_DOWN : Nat := 0x5000148
/-- Address of HLK_REPLAY. -/
def HLK_REPLAY : Nat := 0x500014c
/-- Address of HLK_HOST_LOST. -/
def HLK_HOST_LOST : Nat := 0x5000150
/-- Address of HLK_ORPHAN_DROP. -/
def HLK_ORPHAN_DROP : Nat := 0x5000154
/-- Address of HLK_HWR_FAIL. -/
def HLK_HWR_FAIL : Nat := 0x5000158
/-- Address of HLK_VIOL. -/
def HLK_VIOL : Nat := 0x500015c
/-- Address of HLK_SQ_BASE. -/
def HLK_SQ_BASE (q : Nat) : Nat := 0x5010000 + q * 0x20
/-- Address of HLK_SQ_CFG. -/
def HLK_SQ_CFG (q : Nat) : Nat := 0x5010008 + q * 0x20
/-- Address of HLK_SQ_TAIL. -/
def HLK_SQ_TAIL (q : Nat) : Nat := 0x501000c + q * 0x20
/-- Address of HLK_SQ_HEAD. -/
def HLK_SQ_HEAD (q : Nat) : Nat := 0x5010010 + q * 0x20
/-- Address of HLK_SQ_STAT. -/
def HLK_SQ_STAT (q : Nat) : Nat := 0x5010014 + q * 0x20
/-- Address of HLK_CQ_BASE. -/
def HLK_CQ_BASE (q : Nat) : Nat := 0x5020000 + q * 0x20
/-- Address of HLK_CQ_CFG. -/
def HLK_CQ_CFG (q : Nat) : Nat := 0x5020008 + q * 0x20
/-- Address of HLK_CQ_HEAD. -/
def HLK_CQ_HEAD (q : Nat) : Nat := 0x502000c + q * 0x20
/-- Address of HLK_CQ_TAIL. -/
def HLK_CQ_TAIL (q : Nat) : Nat := 0x5020010 + q * 0x20
/-- Address of HLK_CQ_COAL. -/
def HLK_CQ_COAL (q : Nat) : Nat := 0x5020014 + q * 0x20
/-- Address of HLK_HWIN_CTRL. -/
def HLK_HWIN_CTRL (w : Nat) : Nat := 0x5030000 + w * 0x20
/-- Address of HLK_HWIN_HOST. -/
def HLK_HWIN_HOST (w : Nat) : Nat := 0x5030008 + w * 0x20
/-- Address of HLK_HWIN_SIZE. -/
def HLK_HWIN_SIZE (w : Nat) : Nat := 0x5030010 + w * 0x20
/-- Address of HLK_DWIN_CTRL. -/
def HLK_DWIN_CTRL (w : Nat) : Nat := 0x5040020 + w * 0x20
/-- Address of HLK_DWIN_TGT. -/
def HLK_DWIN_TGT (w : Nat) : Nat := 0x5040028 + w * 0x20
/-- Address of HLK_DWIN_SIZE. -/
def HLK_DWIN_SIZE (w : Nat) : Nat := 0x5040030 + w * 0x20
/-- Address of HLK_VEC_ADDR. -/
def HLK_VEC_ADDR (v : Nat) : Nat := 0x5050000 + v * 0x10
/-- Address of HLK_VEC_DATA. -/
def HLK_VEC_DATA (v : Nat) : Nat := 0x5050008 + v * 0x10
/-- Address of HLK_VEC_CTRL. -/
def HLK_VEC_CTRL (v : Nat) : Nat := 0x505000c + v * 0x10
/-- Address of EVT_CTRL. -/
def EVT_CTRL : Nat := 0x30000
/-- Address of EVT_STAT. -/
def EVT_STAT : Nat := 0x30004
/-- Address of EVT_SWRAISE. -/
def EVT_SWRAISE : Nat := 0x30020
/-- Address of EVT_DROPPED. -/
def EVT_DROPPED : Nat := 0x30040
/-- Address of EVT_RAISED. -/
def EVT_RAISED : Nat := 0x30048
/-- Address of EVT_TGT_BASE. -/
def EVT_TGT_BASE (t : Nat) : Nat := 0x30100 + t * 0x40
/-- Address of EVT_TGT_CFG. -/
def EVT_TGT_CFG (t : Nat) : Nat := 0x30108 + t * 0x40
/-- Address of EVT_TGT_PI. -/
def EVT_TGT_PI (t : Nat) : Nat := 0x3010c + t * 0x40
/-- Address of EVT_TGT_CI. -/
def EVT_TGT_CI (t : Nat) : Nat := 0x30110 + t * 0x40
/-- Address of EVT_TGT_STAT. -/
def EVT_TGT_STAT (t : Nat) : Nat := 0x30114 + t * 0x40
/-- Address of EVT_TGT_FSTAT. -/
def EVT_TGT_FSTAT (t : Nat) : Nat := 0x30118 + t * 0x40
/-- Address of EVT_TGT_NEST. -/
def EVT_TGT_NEST (t : Nat) : Nat := 0x3011c + t * 0x40
/-- Address of EVT_TGT_PEND. -/
def EVT_TGT_PEND (t : Nat) : Nat := 0x30120 + t * 0x40
/-- Address of EVT_TGT_SEQ. -/
def EVT_TGT_SEQ (t : Nat) : Nat := 0x30124 + t * 0x40
/-- Address of EVT_SRC_CFG. -/
def EVT_SRC_CFG (n : Nat) : Nat := 0x31000 + n * 4
/-- Address of EVT_SRC_STAT. -/
def EVT_SRC_STAT (n : Nat) : Nat := 0x32000 + n * 4
/-- Address of AON_LINE. -/
def AON_LINE (i : Nat) : Nat := 0x40100 + i * 4
/-- Address of AON_WATCH. -/
def AON_WATCH (j : Nat) : Nat := 0x40140 + j * 4
/-- Address of AON_DREC. -/
def AON_DREC : Nat := 0x401c0
/-- Address of PROC_CTRL. -/
def PROC_CTRL (p : Nat) : Nat := (if p < 4 then 0x7001000 + p * 0x100 else 0x1200000 + (p - 4) * 0x400000) + 0
/-- Address of PROC_STAT. -/
def PROC_STAT (p : Nat) : Nat := (if p < 4 then 0x7001000 + p * 0x100 else 0x1200000 + (p - 4) * 0x400000) + 4
/-- Address of PROC_BOOT. -/
def PROC_BOOT (p : Nat) : Nat := (if p < 4 then 0x7001000 + p * 0x100 else 0x1200000 + (p - 4) * 0x400000) + 8
/-- Address of PROC_MTIMECMP. -/
def PROC_MTIMECMP (p : Nat) : Nat := (if p < 4 then 0x7001000 + p * 0x100 else 0x1200000 + (p - 4) * 0x400000) + 0x10
/-- Address of PROC_MSIP. -/
def PROC_MSIP (p : Nat) : Nat := (if p < 4 then 0x7001000 + p * 0x100 else 0x1200000 + (p - 4) * 0x400000) + 0x18
/-- Address of PROC_WDT. -/
def PROC_WDT (p : Nat) : Nat := (if p < 4 then 0x7001000 + p * 0x100 else 0x1200000 + (p - 4) * 0x400000) + 0x1c
/-- Address of PROC_WDT_KICK. -/
def PROC_WDT_KICK (p : Nat) : Nat := (if p < 4 then 0x7001000 + p * 0x100 else 0x1200000 + (p - 4) * 0x400000) + 0x20
/-- Address of PROC_WDT_STAT. -/
def PROC_WDT_STAT (p : Nat) : Nat := (if p < 4 then 0x7001000 + p * 0x100 else 0x1200000 + (p - 4) * 0x400000) + 0x24
/-- Address of PROC_ERR. -/
def PROC_ERR (p : Nat) : Nat := (if p < 4 then 0x7001000 + p * 0x100 else 0x1200000 + (p - 4) * 0x400000) + 0x28
/-- Address of PROC_APER. -/
def PROC_APER (p i : Nat) : Nat := (if p < 4 then 0x7001000 + p * 0x100 else 0x1200000 + (p - 4) * 0x400000) + 0x40 + i * 8
/-- Address of BOOT_STAT. -/
def BOOT_STAT : Nat := 0x50000
/-- Address of BOOT_CTRL. -/
def BOOT_CTRL : Nat := 0x50004
/-- Address of BOOT_IMAGE. -/
def BOOT_IMAGE : Nat := 0x50008
/-- Address of BOOT_SVN. -/
def BOOT_SVN : Nat := 0x5000c
/-- Address of BOOT_TRY. -/
def BOOT_TRY : Nat := 0x50010
/-- Address of BOOT_STRAP. -/
def BOOT_STRAP : Nat := 0x50014
/-- Address of BOOT_FUSE. -/
def BOOT_FUSE : Nat := 0x50018
/-- Address of BOOT_FL_CMD. -/
def BOOT_FL_CMD : Nat := 0x50040
/-- Address of BOOT_FL_ADDR. -/
def BOOT_FL_ADDR : Nat := 0x50044
/-- Address of BOOT_FL_LEN. -/
def BOOT_FL_LEN : Nat := 0x50048
/-- Address of BOOT_FL_STAT. -/
def BOOT_FL_STAT : Nat := 0x5004c
/-- Address of BOOT_FL_BUF. -/
def BOOT_FL_BUF (i : Nat) : Nat := 0x50100 + i * 4
/-- Address of BOOT_HOST_DATA. -/
def BOOT_HOST_DATA : Nat := 0x50200
/-- Address of BOOT_HOST_CNT. -/
def BOOT_HOST_CNT : Nat := 0x50204
/-- Address of SEC_STAT. -/
def SEC_STAT : Nat := 0x60000
/-- Address of SEC_LOCK. -/
def SEC_LOCK : Nat := 0x60004
/-- Address of SEC_PERM. -/
def SEC_PERM (n : Nat) : Nat := 0x60100 + n * 4
/-- Address of SEC_CMD. -/
def SEC_CMD : Nat := 0x60200
/-- Address of SEC_CMD_ARG. -/
def SEC_CMD_ARG (i : Nat) : Nat := 0x60208 + i * 8
/-- Address of SEC_CMD_STAT. -/
def SEC_CMD_STAT : Nat := 0x60218
/-- Address of SEC_DIGEST. -/
def SEC_DIGEST (w : Nat) : Nat := 0x60300 + w * 4
/-- Address of SEC_ROOT_HASH. -/
def SEC_ROOT_HASH (w : Nat) : Nat := 0x60400 + w * 4
/-- Address of SEC_DEVPUB. -/
def SEC_DEVPUB (w : Nat) : Nat := 0x60440 + w * 4
/-- Address of SEC_OWNER. -/
def SEC_OWNER (t w : Nat) : Nat := 0x60500 + t * 0x40 + w * 4
/-- Address of SEC_OWNER_STAT. -/
def SEC_OWNER_STAT : Nat := 0x60600
/-- Address of SEC_CHAIN_LEN. -/
def SEC_CHAIN_LEN : Nat := 0x60604
/-- Address of SEC_M. -/
def SEC_M (i w : Nat) : Nat := 0x60800 + i * 0x40 + w * 4
/-- Address of SEC_CHAIN. -/
def SEC_CHAIN (w : Nat) : Nat := 0x61000 + w * 4
/-- Address of RST_CAUSE. -/
def RST_CAUSE : Nat := 0x10000
/-- Address of RST_LAST. -/
def RST_LAST : Nat := 0x10004
/-- Address of RST_CFG. -/
def RST_CFG : Nat := 0x10008
/-- Address of RST_SWREQ. -/
def RST_SWREQ : Nat := 0x1000c
/-- Address of RST_DBGREQ. -/
def RST_DBGREQ : Nat := 0x10010
/-- Address of RST_STAT. -/
def RST_STAT : Nat := 0x10014
/-- Address of RST_COUNT. -/
def RST_COUNT : Nat := 0x10018
/-- Address of RST_BLK_REQ. -/
def RST_BLK_REQ : Nat := 0x10020
/-- Address of RST_BLK_STAT. -/
def RST_BLK_STAT : Nat := 0x10028
/-- Address of RST_BLK_TMOMAP. -/
def RST_BLK_TMOMAP : Nat := 0x10030
/-- Address of RST_BLK_TMO. -/
def RST_BLK_TMO : Nat := 0x10038
/-- Address of PWR_STAT. -/
def PWR_STAT : Nat := 0x20000
/-- Address of PWR_CFG. -/
def PWR_CFG : Nat := 0x20004
/-- Address of PWR_ENTRY_TMO. -/
def PWR_ENTRY_TMO : Nat := 0x20008
/-- Address of PWR_QOPP. -/
def PWR_QOPP : Nat := 0x20010
/-- Address of PWR_EFF. -/
def PWR_EFF : Nat := 0x20014
/-- Address of PWR_LIMIT. -/
def PWR_LIMIT : Nat := 0x20018
/-- Address of PWR_THERM. -/
def PWR_THERM : Nat := 0x2001c
/-- Address of PWR_MEAS. -/
def PWR_MEAS : Nat := 0x20020
/-- Address of PWR_DOM_AUTO. -/
def PWR_DOM_AUTO : Nat := 0x20028
/-- Address of PWR_DOM_STAT. -/
def PWR_DOM_STAT : Nat := 0x20030
/-- Address of PWR_DOM_IDLE. -/
def PWR_DOM_IDLE : Nat := 0x20038
/-- Address of PWR_THROTTLE_CYC. -/
def PWR_THROTTLE_CYC : Nat := 0x20100
/-- Address of PWR_ENERGY. -/
def PWR_ENERGY : Nat := 0x20108
/-- Address of PWR_WAKES. -/
def PWR_WAKES : Nat := 0x20140
/-- Address of PWR_DOM_WAKES. -/
def PWR_DOM_WAKES : Nat := 0x20144
/-- Address of PWR_TRIPS. -/
def PWR_TRIPS : Nat := 0x20148
/-- Address of AON_WAKE_EN. -/
def AON_WAKE_EN : Nat := 0x40000
/-- Address of AON_WAKE_CAUSE. -/
def AON_WAKE_CAUSE : Nat := 0x40004
/-- Address of AON_SMB_ADDR. -/
def AON_SMB_ADDR : Nat := 0x40008
/-- Address of AON_WAKE_PIN. -/
def AON_WAKE_PIN : Nat := 0x4000c
/-- Address of GLB_VIOL_CNT. -/
def GLB_VIOL_CNT : Nat := 0x80
/-- Address of GLB_VIOL_CAP. -/
def GLB_VIOL_CAP : Nat := 0x88
/-- Address of GLB_STAT_OVF. -/
def GLB_STAT_OVF : Nat := 0x90
/-- Address of GLB_PLATE_BASE. -/
def GLB_PLATE_BASE : Nat := 0xa0
/-- Address of GLB_PLATE_STAT. -/
def GLB_PLATE_STAT : Nat := 0xa8
/-- Address of GLB_PLATE_SEQ. -/
def GLB_PLATE_SEQ : Nat := 0xac
/-- Address of GLB_PLATE_CTRL. -/
def GLB_PLATE_CTRL : Nat := 0xb0
/-- Address of GLB_PLATE_ACK. -/
def GLB_PLATE_ACK : Nat := 0xb4
/-- Address of AON_STBY. -/
def AON_STBY : Nat := 0x40010
/-- Address of FAB_HELLO. -/
def FAB_HELLO (p h w : Nat) : Nat := 0x4001000 + p * 0x100000 + h * 0x1000 + w * 4
/-- Address of CPX_MTIME. -/
def CPX_MTIME : Nat := 0x7000000
/-- Address of DSC_ID. -/
def DSC_ID (d : Nat) : Nat := 0x3000000 + d * 0x100000
/-- Address of DSC_CTRL. -/
def DSC_CTRL (d : Nat) : Nat := 0x3000004 + d * 0x100000
/-- Address of DSC_STAT. -/
def DSC_STAT (d : Nat) : Nat := 0x3000008 + d * 0x100000
/-- Address of DSC_TEMP. -/
def DSC_TEMP (d : Nat) : Nat := 0x300000c + d * 0x100000
/-- Address of DSC_REFRESH. -/
def DSC_REFRESH (d : Nat) : Nat := 0x3000014 + d * 0x100000
/-- Address of DSC_SCRUB. -/
def DSC_SCRUB (d : Nat) : Nat := 0x3000018 + d * 0x100000
/-- Address of DSC_ROW_THRESH. -/
def DSC_ROW_THRESH (d : Nat) : Nat := 0x300001c + d * 0x100000
/-- Address of DSC_SCRUB_POS. -/
def DSC_SCRUB_POS (d : Nat) : Nat := 0x3000020 + d * 0x100000
/-- Address of DSC_CE. -/
def DSC_CE (d : Nat) : Nat := 0x3000028 + d * 0x100000
/-- Address of DSC_ODCE. -/
def DSC_ODCE (d : Nat) : Nat := 0x300002c + d * 0x100000
/-- Address of DSC_UE. -/
def DSC_UE (d : Nat) : Nat := 0x3000030 + d * 0x100000
/-- Address of DSC_POISON_RD. -/
def DSC_POISON_RD (d : Nat) : Nat := 0x3000034 + d * 0x100000
/-- Address of DSC_REF_LIMIT. -/
def DSC_REF_LIMIT (d : Nat) : Nat := 0x3000038 + d * 0x100000
/-- Address of DSC_ERR_STAT. -/
def DSC_ERR_STAT (d : Nat) : Nat := 0x300003c + d * 0x100000
/-- Address of DSC_ERR_LOC. -/
def DSC_ERR_LOC (d : Nat) : Nat := 0x3000040 + d * 0x100000
/-- Address of DSC_RD_BYTES. -/
def DSC_RD_BYTES (d : Nat) : Nat := 0x3000048 + d * 0x100000
/-- Address of DSC_WR_BYTES. -/
def DSC_WR_BYTES (d : Nat) : Nat := 0x3000050 + d * 0x100000

end Csr

end Sys2Proof.Machine
end

