-- ==== Sys2Proof/Machine/Ops.lean ====
section
/-! DEFINITION. The named operations every command shares: finding a register (R33), reading and writing
its fields (R12), counters (R545 to R548), violations (R544) and raising events (R452, R453, R464). -/

namespace Sys2Proof.Machine

/-! ### Blocks and addresses -/

/-- R33, R34: the block an address falls in. -/
def blkOf (a : Nat) : Option Blk :=
  if a < 0x80000 then
    match a / 0x10000 with
    | 0 => some .glb | 1 => some .rst | 2 => some .pwr | 3 => some .evt
    | 4 => some .aon | 5 => some .boot | 6 => some .sec | _ => some .clk
  else if a < 0x1000000 then none
  else if a < 0x2000000 then
    let q := (a - 0x1000000) / 0x400000
    let r := (a - 0x1000000) % 0x400000
    if r < 0x180000 then some (.core (24 * q + r / 0x10000))
    else if r < 0x200000 then none else some (.quad q)
  else if a < 0x2C00000 then
    let s := (a - 0x2000000) / 0x100000
    let r := (a - 0x2000000) % 0x100000
    if r < 0x80000 then some (.fsc s) else some (.nbu (4 * s + (r - 0x80000) / 0x20000))
  else if a < 0x3000000 then none
  else if a < 0x3800000 then some (.dsc ((a - 0x3000000) / 0x100000))
  else if a < 0x3C00000 then some .plc
  else if a < 0x4000000 then some (.rly ((a - 0x3C00000) / 0x200000))
  else if a < 0x4C00000 then some (.port ((a - 0x4000000) / 0x100000))
  else if a < 0x5000000 then some .fabc
  else if a < 0x6000000 then some .hlk
  else if a < 0x7000000 then some .med
  else if a < 0x7F00000 then some .cpx
  else if a < 0x8000000 then some .dbg
  else none

/-- The register rows of a block. -/
def rowsOf : Blk → List RegRow
  | .glb => regsGlb | .rst => regsRst | .pwr => regsPwr | .evt => regsEvt | .aon => regsAon
  | .boot => regsBoot | .sec => regsSec | .clk => []
  | .core _ => regsCore | .quad _ => regsProc | .fsc _ => regsFsc | .nbu _ => regsNbu | .dsc _ => regsDsc
  | .plc => regsPlc | .rly _ => regsRly | .port _ => regsPort | .fabc => regsFabc | .hlk => regsHlk
  | .med => regsMed | .cpx => regsProc ++ regsCpx | .dbg => []

/-- The commit index of a block (R40); `none` for blocks without SH fields. -/
def Blk.commitIdx : Blk → Option Nat
  | .core c => some (c / 24) | .quad q => some q
  | .fsc s => some (4 + s) | .nbu n => some (4 + n / 4) | .dsc d => some (16 + d)
  | .plc => some 24 | .rly _ => some 25 | .port p => some (26 + p) | .fabc => some 38 | .hlk => some 39
  | .med => some 40 | .evt => some 41 | .pwr => some 42 | .clk => some 43 | .aon => some 44
  | _ => none

/-- The permission region of a block (R489). -/
def Blk.region : Blk → Nat
  | .glb => 0 | .rst => 1 | .pwr => 2 | .evt => 3 | .aon => 4 | .boot => 5 | .sec => 6 | .clk => 7
  | .core _ => 8 | .quad _ => 8 | .fsc _ => 9 | .nbu _ => 9 | .dsc _ => 10 | .plc => 11 | .rly _ => 12
  | .port _ => 13 | .fabc => 14 | .hlk => 15 | .med => 16 | .cpx => 17 | .dbg => 18

/-- The bit that stands for a block in the reset masks (R510, `Rst`). RST itself is never held. -/
def Blk.rstBit : Blk → Option Nat
  | .glb => some 52 | .boot => some 53 | .sec => some 54 | .cpx => some 55 | .dbg => some 56
  | .rst => none
  | b => b.commitIdx

/-- Indices of the repeat of `row` that holds offset `off`, with what is left below the last stride. -/
def matchDims : List (Nat × Nat) → Nat → Option (List Nat × Nat)
  | [], off => some ([], off)
  | (stride, count) :: ds, off =>
    if off / stride < count then
      match matchDims ds (off % stride) with
      | some (is, r) => some (off / stride :: is, r)
      | none => none
    else none

/-- A register met at an address: its row, the indices of the repeat, the repeat's address, and whether
the address is the high word. -/
structure RegAt where
  row : RegRow
  idx : List Nat
  base : Nat
  high : Bool
  deriving DecidableEq, Repr

/-- R451: event sources that exist. -/
def sourceExists (n : Nat) : Bool :=
  n ≤ 93 || (96 ≤ n && n ≤ 143) || (256 ≤ n && n ≤ 351) || (384 ≤ n && n ≤ 479)

/-- The row matched at an address, if it is one of its repeats. -/
def matchRow (row : RegRow) (a : Nat) : Option RegAt :=
  if a < row.first then none else
  match matchDims row.dims (a - row.first) with
  | none => none
  | some (is, r) =>
    if r < (if row.wide then 8 else 4) then
      let idx := match is with | i :: t => (i + row.idx0) :: t | [] => []
      if (row.reg = .EVT_SRC_CFG ∨ row.reg = .EVT_SRC_STAT) ∧ ¬ sourceExists (idx.headD 0) then none
      else some ⟨row, idx, a - r % 8, decide (4 ≤ r)⟩
    else none

/-- The first row of a list that holds an address. -/
def findRow : List RegRow → Nat → Option RegAt
  | [], _ => none
  | row :: rows, a =>
    match matchRow row a with
    | some x => some x
    | none => findRow rows a

/-- The register at an address; `none` where no register occupies it (R11). -/
def regAt (a : Nat) : Option RegAt :=
  match blkOf a with
  | none => none
  | some b => findRow (rowsOf b) a

/-- R489: reset values of SEC_PERM. -/
def permReset (n : Nat) : Nat := if n = 5 then 0x337 else if n = 6 then 0x117 else 0x11F

/-- Reset value of a register (R49 and the other register tables; R344 and R489 for the two that are
given by rule). -/
def resetValue (r : RegAt) : Nat :=
  match r.row.reg, r.idx with
  | .MED_TAP, [_, p, k] => if k = 3 then 1024 - 16 * p else if k = 4 then 16 * p else 0
  | .SEC_PERM, n :: _ => permReset n
  | _, _ => r.row.fields.foldl (fun v f => v + f.reset <<< f.lo) 0

/-- Reset value of the register whose address is `a`. -/
def csrReset (a : Nat) : W64 :=
  match regAt a with
  | some r => BitVec.ofNat 64 (resetValue r)
  | none => 0

/-! ### Registers -/

/-- The active value of the register at `a`. -/
def rd (s : State) (a : Nat) : Nat := (smGet (csrReset a) s.csr a).toNat

/-- The register at `a` set to `v`. -/
def wr (s : State) (a v : Nat) : State := { s with csr := smSet (csrReset a) s.csr a (BitVec.ofNat 64 v) }

/-- The shadow copy of the register at `a`. -/
def rdShadow (s : State) (a : Nat) : Nat := (smGet (csrReset a) s.shadow a).toNat

/-- The shadow copy of the register at `a` set to `v`. -/
def wrShadow (s : State) (a v : Nat) : State :=
  { s with shadow := smSet (csrReset a) s.shadow a (BitVec.ofNat 64 v) }

/-- Field [hi:lo] of the register at `a`. -/
def fld (s : State) (a hi lo : Nat) : Nat := bits (rd s a) hi lo

/-- Bit n of the register at `a`. -/
def flag (s : State) (a n : Nat) : Bool := bit (rd s a) n

/-- Field [hi:lo] of the register at `a` set to `v`. -/
def setFld (s : State) (a hi lo v : Nat) : State := wr s a (setBits (rd s a) hi lo v)

/-- Bit n of the register at `a` set or cleared. -/
def setFlag (s : State) (a n : Nat) (b : Bool) : State := setFld s a n n (if b then 1 else 0)

/-! ### Initiators -/

/-- R489: initiator classes. -/
def iniClass : Initiator → Nat
  | .cp _ => 0 | .qs _ => 1 | .host => 2 | .peer => 3 | .dbg => 4

/-- R10, R549: each initiator holds its own low words and latches. -/
def iniNum : Initiator → Nat
  | .cp p => p.val | .qs q => 4 + q.val | .host => 8 | .dbg => 9 | .peer => 10

/-- R454: mhartid of a processor that writes, 0xFFFF otherwise. -/
def iniHart : Initiator → Nat
  | .cp p => p.val | .qs q => 4 + q.val | _ => 0xFFFF

/-- Key of a held or latched word. -/
def iniKey (i : Initiator) (a : Nat) : Nat := iniNum i * 2 ^ 32 + a

/-! ### Reset and power of blocks -/

/-- Bit b of the reset masks is held in reset, by the device or by a block reset (R510). -/
def inResetBit (s : State) (b : Nat) : Bool := bit s.rst.dev b || bit s.rst.blk b

/-- R512: a block held in reset. -/
def blkInReset (s : State) (b : Blk) : Bool :=
  match b.rstBit with
  | none => false
  | some i => inResetBit s i

/-- R516: clocks outside the Dome run (Run and Idle). -/
def awake (s : State) : Bool := decide (s.pwr.state < 2)

/-- A block is clocked and out of reset. -/
def blkUp (s : State) (b : Blk) : Bool := awake s && !blkInReset s b

/-- R529: domain d is off or still waking. -/
def domainOff (s : State) (d : Nat) : Bool := bit s.pwr.off d

/-- R519, R520: blocks that an entry to a power state quiesces. -/
def entryMask (s : State) : Nat :=
  match s.pwr.entry with
  | none => 0
  | some e => if e.target = 1 then 0xF else 2 ^ 42 - 1

/-- R41 to R44, R519, R520, R511: blocks whose quiesce some requester asks for, or that a commit holds. -/
def quiesceWanted (s : State) : Nat :=
  (rd s Csr.GLB_QUIESCE_REQ &&& (2 ^ 45 - 1)) ||| entryMask s ||| (s.rst.idle &&& (2 ^ 45 - 1))
    ||| (if s.pwr.state = 1 then 0xF else 0) ||| s.commit.getD 0

/-- R41, R44, R531: block index i reads quiesced. -/
def quiescedBit (s : State) (i : Nat) : Bool :=
  !inResetBit s i && ((bit s.quiet i && bit (quiesceWanted s) i) || domainOff s i)

/-- A block is held: it accepts no new work (R41), or it is in reset or unclocked (R512, R516). -/
def blkHeld (s : State) (i : Nat) : Bool :=
  !awake s || inResetBit s i || (bit s.quiet i && bit (quiesceWanted s) i)

/-- A block may do work. -/
def works (s : State) (i : Nat) : Bool := !blkHeld s i && !domainOff s i

/-! ### Events (R452, R453, R464) -/

/-- The pool's records of one source. -/
def pendOf (s : State) (src : Nat) : Nat := (s.evt.pool.filter (fun r => r.src = src)).length

/-- R464: sources that live in the Dome. -/
def domeSource (src : Nat) : Bool := src = 1 || src = 4 || (8 ≤ src && src ≤ 15)

/-- R453: room in the pool for a record of this source: 16 of the 8,192 records are kept for source 3,
and a source holds at most 64. -/
def poolRoom (s : State) (src : Nat) : Bool :=
  let kept := if src = 3 then 0 else 16 - min 16 (pendOf s 3)
  decide (s.evt.pool.length + kept < 8192) && decide (pendOf s src < 64)

/-- A record as the controller forms it (R452). -/
def formRec (s : State) (src code d0 d1 : Nat) : EvRec :=
  { src := src, level := fld s (Csr.EVT_SRC_CFG src) 3 0, target := fld s (Csr.EVT_SRC_CFG src) 11 8,
    code := code % 256, stamp := s.stamp, d0 := d0 % 2 ^ 64, d1 := d1 % 2 ^ 64 }

/-- A record put at the end of the pending pool. -/
def poolPut (s : State) (r : EvRec) : State := { s with evt := { s.evt with pool := s.evt.pool ++ [r] } }

/-- R548: a statistics counter of the block with commit index `blk` grows by n, stopping at all ones. -/
def bumpStat (s : State) (a n : Nat) (blk : Option Nat) : State :=
  if rd s a + n < 2 ^ 64 then wr s a (rd s a + n)
  else
    let s := wr s a (2 ^ 64 - 1)
    match blk with
    | some i => wr s Csr.GLB_STAT_OVF (rd s Csr.GLB_STAT_OVF ||| 1 <<< i)
    | none => s

/-- A 32-bit counter grown by n, stopping at all ones, without its event. -/
def bumpRaw (s : State) (a n : Nat) : State := wr s a (min (rd s a + n) 0xFFFF_FFFF)

/-- R453: a record that finds no room is dropped. -/
def dropRec (s : State) (src : Nat) : State :=
  bumpStat (setFlag s (Csr.EVT_SRC_STAT src) 31 true) Csr.EVT_DROPPED 1 (some 41)

/-- One raise that meets the pool; a drop is not itself reported. -/
def raiseQuiet (s : State) (src code d0 d1 : Nat) : State :=
  if flag s (Csr.EVT_SRC_CFG src) 31 then
    let s := bumpStat s Csr.EVT_RAISED 1 (some 41)
    if poolRoom s src then poolPut s (formRec s src code d0 d1) else dropRec s src
  else s

/-- R453: after a drop, DROP sets and source 3 raises DROPPED, unless DROP was set. -/
def reportDrop (s : State) (src : Nat) : State :=
  if flag s Csr.EVT_STAT 16 then s
  else raiseQuiet (setFlag s Csr.EVT_STAT 16 true) 3 0x01 src (rd s Csr.EVT_DROPPED % 2 ^ 32)

/-- A raise that reaches the controller (R452, R453). -/
def raisePool (s : State) (src code d0 d1 : Nat) : State :=
  if flag s (Csr.EVT_SRC_CFG src) 31 then
    let s := bumpStat s Csr.EVT_RAISED 1 (some 41)
    if poolRoom s src then poolPut s (formRec s src code d0 d1) else reportDrop (dropRec s src) src
  else s

/-- R464: the Dome holds at most 64 records while EVT is unpowered. -/
def raiseDome (s : State) (src code d0 d1 : Nat) : State :=
  if s.evt.dome.length < 64 then
    { s with evt := { s.evt with dome := s.evt.dome ++ [formRec s src code d0 d1] } }
  else setFlag s Csr.AON_DREC 31 true

/-- The event controller is powered, clocked and out of reset. -/
def evtUp (s : State) : Bool := blkUp s .evt

/-- R464: the Dome buffer's records enter the pool, in the order raised. -/
def drainDome (s : State) : State :=
  s.evt.dome.foldl (fun s r =>
    if poolRoom s r.src then poolPut (bumpStat s Csr.EVT_RAISED 1 (some 41)) r
    else reportDrop (dropRec (bumpStat s Csr.EVT_RAISED 1 (some 41)) r.src) r.src)
    { s with evt := { s.evt with dome := [] } }

/-- A source raises an event (R452, R453, R464, R517). Records held in the Dome enter the pool before it. -/
def raise (s : State) (src code d0 d1 : Nat) : State :=
  if evtUp s then raisePool (drainDome s) src code d0 d1
  else if domeSource src then raiseDome s src code d0 d1
  else s

/-- R547: an occurrence counter at `a` counts n occurrences, raising COUNTER_SATURATED when it reaches
its limit. -/
def bumpOcc (s : State) (a n : Nat) : State :=
  let old := rd s a
  let s := bumpRaw s a n
  if old < 0xFFFF_FFFF ∧ 0xFFFF_FFFF ≤ old + n then raise s 0 0x03 a 0 else s

/-! ### Violations (R544) -/

/-- The first violation after the capture was cleared. -/
def captureViol (s : State) (kind : Nat) (write : Bool) (cls addr : Nat) : State :=
  if flag s Csr.GLB_VIOL_CAP 63 then s
  else wr s Csr.GLB_VIOL_CAP
    (1 <<< 63 + (if write then 1 <<< 62 else 0) + cls <<< 59 + kind <<< 52 + addr % 2 ^ 32)

/-- A silent violation: counted and captured, with no event of its own. ADDR is 0 for kind 4. -/
def violation (s : State) (kind : Nat) (write : Bool) (ini : Initiator) (addr : Nat) : State :=
  captureViol (bumpOcc s Csr.GLB_VIOL_CNT 1) kind write (iniClass ini) (if kind = 4 then 0 else addr)

end Sys2Proof.Machine
end

