-- ==== Sys2Proof/Machine/CoreOps.lean ====
section
/-! DEFINITION. What every instruction of a tile core shares: the core's record, its memories with their
check bits (R85, R117), faults (R105, R107), the instruction word (R103, R139, R142) and how one issues. -/

namespace Sys2Proof.Machine

/-- The record of core c. -/
def coreOf (s : State) (c : Nat) : Core := smGet {} s.cores c

/-- Core c's record replaced. -/
def setCore (s : State) (c : Nat) (k : Core) : State := { s with cores := smSet {} s.cores c k }

/-- R451: a core's control source. -/
def coreSrc (c : Nat) : Nat := 256 + c

/-- R451: a core's stream source. -/
def strmSrc (c : Nat) : Nat := 384 + c

/-- R103: scalar register n; X0 reads as zero. -/
def xr (k : Core) (n : Nat) : Nat := if n = 0 then 0 else (smGet 0 k.x n).toNat

/-- R103: scalar register n written; a write of X0 has no effect. -/
def xw (k : Core) (n v : Nat) : Core :=
  if n = 0 then k else { k with x := smSet 0 k.x n (BitVec.ofNat 64 v) }

/-- R113: mode of accumulator tile t. -/
def tileMode (k : Core) (t : Nat) : Nat := bits k.tmode (2 * t + 1) (2 * t)

/-! ### Memories with check bits -/

/-- Where an uncorrectable error was met: a 64-byte tile-store unit, or an 8-byte unit of an accumulator
row, a vector register or a mask register. -/
inductive Bad where
  | ts (addr : Nat)
  | acc (row unit : Nat)
  | vreg (reg unit : Nat)
  | mask (reg unit : Nat)
  deriving DecidableEq, Repr

/-- Writes of numbered cells to a memory whose units of `usz` cells carry check bits (R85): a unit that no
longer corrects takes no partial write; a write of all its cells stores fresh check bits. Answers the memory,
the units that still do not correct, and those that refused a partial write. -/
def unitWrite {α : Type} [DecidableEq α] (d : α) (usz : Nat) (m : SMap α) (bad : List Nat)
    (ws : List (Nat × α)) : SMap α × List Nat × List Nat :=
  let hit := bad.filter (fun u => ws.any (fun w => w.1 / usz = u))
  let part := hit.filter (fun u => (countUp (u * usz) usz).any (fun i => !ws.any (fun w => w.1 = i)))
  (ws.foldl (fun m w => if part.contains (w.1 / usz) then m else smSet d m w.1 w.2) m,
   bad.filter (fun u => !hit.contains u || part.contains u), part)

/-- R85: a tile-store read: a 64-byte unit that holds an 8-byte unit read and uncorrectable is taken as
zeros. Answers the bytes and the failing units. -/
def tsRead (k : Core) (a n : Nat) : Bytes × List Bad :=
  let hit := k.tsBad.filter (fun u => decide (u * 8 < a + n) && decide (a < u * 8 + 8))
  if hit.isEmpty then (memRead k.ts a n, [])
  else
    let fails := hit.map (fun u => u / 8)
    (((memRead k.ts a n).zip (countUp a n)).map (fun x => if fails.contains (x.2 / 64) then 0 else x.1),
     fails.map (fun u => .ts (u * 64)))

/-- R85: a tile-store write of single bytes. -/
def tsPut (k : Core) (ws : List (Nat × Byte)) : Core × List Bad :=
  let (m, bad, part) := unitWrite 0 8 k.ts k.tsBad ws
  ({ k with ts := m, tsBad := bad }, part.map (fun u => .ts (u / 8 * 64)))

/-- A tile-store write of consecutive bytes. -/
def tsWrite (k : Core) (a : Nat) (bs : Bytes) : Core × List Bad := tsPut k ((countUp a bs.length).zip bs)

/-- R112, R117: accumulator word `i` = row × 64 + column; an uncorrectable 8-byte unit reads as zeros. -/
def accRead (k : Core) (i : Nat) : Nat × List Bad :=
  if k.accBad.contains (i / 2) then (0, [.acc (i / 64) (i / 2 % 32)]) else ((smGet 0 k.acc i).toNat, [])

/-- R117: accumulator words written. -/
def accPut (k : Core) (ws : List (Nat × Nat)) : Core × List Bad :=
  let (m, bad, part) := unitWrite 0 2 k.acc k.accBad (ws.map (fun w => (w.1, BitVec.ofNat 32 w.2)))
  ({ k with acc := m, accBad := bad }, part.map (fun u => .acc (u / 32) (u % 32)))

/-- All 64 rows of a tile zeroed, with fresh check bits (R114, R139). -/
def accZeroTile (k : Core) (t : Nat) : Core :=
  { k with acc := k.acc.filter (fun w => w.1 / 4096 ≠ t), accBad := k.accBad.filter (fun u => u / 2048 ≠ t) }

/-- R117, R126: element i of vector register r. -/
def vRead (k : Core) (r i : Nat) : Nat × List Bad :=
  if k.vregBad.contains (r * 128 + i / 2) then (0, [.vreg r (i / 2)])
  else ((smGet 0 k.vreg (r * 256 + i)).toNat, [])

/-- Elements of vector register r written. -/
def vPut (k : Core) (r : Nat) (ws : List (Nat × Nat)) : Core × List Bad :=
  let (m, bad, part) := unitWrite 0 2 k.vreg k.vregBad (ws.map (fun w => (r * 256 + w.1, BitVec.ofNat 32 w.2)))
  ({ k with vreg := m, vregBad := bad }, part.map (fun u => .vreg (u / 128) (u % 128)))

/-- R126: a mask register is all ones after reset. -/
def maskReset : BitVec 256 := BitVec.ofNat 256 (2 ^ 256 - 1)

/-- R117: mask register m; an uncorrectable 8-byte unit reads as zeros. -/
def mRead (k : Core) (m : Nat) : Nat × List Bad :=
  let us := (countUp 0 4).filter (fun u => k.maskBad.contains (m * 4 + u))
  (us.foldl (fun v u => setBits v (64 * u + 63) (64 * u) 0) (smGet maskReset k.mask m).toNat,
   us.map (fun u => .mask m u))

/-- A whole mask register written. -/
def mPut (k : Core) (m v : Nat) : Core :=
  { k with mask := smSet maskReset k.mask m (BitVec.ofNat 256 v),
           maskBad := k.maskBad.filter (fun u => u / 4 ≠ m) }

/-! ### Faults and flow -/

/-- What follows an instruction: the next word, a jump, a halt, a stall or wait at this word, or a fault. -/
inductive Flow where
  | next
  | jump (t : Nat)
  | halt
  | stall (k : Stall)
  | wait (w : Wait)
  | fault (status cause addr : Nat)
  deriving DecidableEq, Repr

/-- R107: ILLEGAL. -/
def illegal : Flow := .fault 0x09 0x01 0

/-- R107: ADDRESS. -/
def badAddress : Flow := .fault 0x0A 0x04 0

/-- R103, R105, R108: core c faults on instruction word w. A BAR arrival is withdrawn. -/
def coreFault (s : State) (c w status cause addr : Nat) : State :=
  let k := coreOf s c
  let v := cause <<< 40 + status <<< 32 + bits w 59 54 <<< 20 + bits w 63 60 <<< 16 + k.pc % 2 ^ 15
  let s := setCore s c { k with st := .fault, wait := none, stall := none, bar := none }
  let s := wr s (Csr.CORE_FAULT (c / 24) (c % 24)) v
  let s := wr s (Csr.CORE_FAULT_ADDR (c / 24) (c % 24)) (addr % 2 ^ 22)
  raise s (coreSrc c) 0x01 v (addr % 2 ^ 22)

/-- R144: the first uncorrectable accumulator, vector or mask error since VALID was cleared. -/
def accErrCapture (s : State) (c : Nat) (b : Bad) : State :=
  let a := Csr.ACC_ERR (c / 24) (c % 24)
  let put (src unit idx : Nat) : State :=
    if flag s a 31 then s else wr s a (1 <<< 31 + src <<< 28 + unit <<< 11 + idx)
  match b with
  | .ts _ => s
  | .acc row u => put 0 u row
  | .vreg r u => put 1 u r
  | .mask m u => put 2 u m

/-- R85, R117: an instruction that met uncorrectable data completes, then faults; the first failing unit is
the one named. -/
def afterBads (s : State) (c : Nat) (bads : List Bad) : State × Flow :=
  match bads with
  | [] => (s, .next)
  | b :: _ =>
    (bads.foldl (fun s b => accErrCapture s c b) s,
     .fault 0x02 0x06 (match b with | .ts a => a | _ => 0))

/-- R103: the core moves to the next word; passing word 32,767 faults. -/
def advance (s : State) (c w : Nat) : State :=
  let k := coreOf s c
  if 32767 ≤ k.pc then coreFault s c w 0x0A 0x08 0
  else setCore s c { k with st := .running, wait := none, stall := none, pc := k.pc + 1 }

/-- R103, R105: what an instruction leaves to be done. -/
def applyFlow (s : State) (c w : Nat) (fl : Flow) : State :=
  let k := coreOf s c
  match fl with
  | .next => advance s c w
  | .jump t => setCore s c { k with pc := t, stall := none }
  | .halt =>
    if 32767 ≤ k.pc then coreFault s c w 0x0A 0x08 0
    else raise (setCore s c { k with st := .halted, pc := k.pc + 1 }) (coreSrc c) 0x02 (k.pc + 1) 0
  | .stall x => setCore s c { k with stall := some x }
  | .wait x => setCore s c { k with st := .waiting, wait := some x }
  | .fault st cause addr => coreFault s c w st cause addr

/-! ### The instruction word (R103, R139, R142) -/

/-- The number of operations of each class; higher OP values are reserved. -/
def opCount (cls : Nat) : Nat :=
  match cls with
  | 0 => 12 | 1 => 2 | 2 => 2 | 3 => 8 | 4 => 50 | 5 => 9 | _ => 0

/-- Bits [hi:lo] as a mask. -/
def span (hi lo : Nat) : Nat := 2 ^ (hi + 1) - 2 ^ lo

/-- VEC rows with destination, one source, MEN and MSK. -/
def vecDA : Nat := span 53 44 + span 33 31

/-- VEC rows with destination, two sources, MEN and MSK. -/
def vecDAB : Nat := span 53 39 + span 33 31

/-- The bits of [53:0] that an instruction names; all others must be zero. -/
def namedBits (cls op : Nat) : Nat :=
  match cls with
  | 0 =>
    match op with
    | 2 => span 53 50 + span 31 0 | 3 => span 53 50 + span 31 0
    | 4 => span 53 46 + span 31 0 | 5 => span 53 42 | 6 => span 53 42
    | 7 => span 53 46 + span 5 0
    | 8 => span 49 46 + span 14 0 | 9 => span 49 46 + span 14 0
    | 10 => span 14 0 | 11 => span 49 46 + span 14 0 | _ => 0
  | 1 => if op = 0 then span 53 39 else span 53 52
  | 2 => if op = 0 then span 53 40 else span 53 21
  | 3 =>
    match op with
    | 0 => span 53 47 | 1 => span 53 49 | 2 => span 53 40 | 3 => span 53 31 | 4 => span 53 49
    | 5 => span 53 24 | 6 => span 53 36 | _ => span 53 34
  | 4 =>
    match op with
    | 0x00 => span 53 46 + span 8 0
    | 0x01 => span 53 36 + span 33 31
    | 0x02 => span 53 41 + span 36 35 + span 33 23
    | 0x03 => span 53 36 + span 33 33 + span 30 30
    | 0x04 => span 53 50
    | 0x05 => span 53 50 + span 48 44 + span 8 0
    | 0x06 => span 53 45 + span 8 0
    | 0x07 => vecDA | 0x0B => vecDAB + span 38 34 | 0x0E => vecDA | 0x0F => vecDA
    | 0x10 => vecDA | 0x11 => vecDA | 0x12 => vecDA | 0x13 => vecDA
    | 0x14 => vecDA | 0x15 => vecDA | 0x16 => vecDA | 0x17 => vecDA | 0x18 => vecDA
    | 0x19 => vecDA + span 30 30
    | 0x1A => vecDA + span 7 0
    | 0x1B => span 50 39 + span 33 28
    | 0x1C => vecDA | 0x1D => vecDA | 0x1E => vecDA
    | 0x2B => span 50 39 + span 33 28
    | 0x2C => vecDA
    | 0x2D => span 50 49
    | 0x2E => span 50 49 + span 45 44
    | 0x2F => span 50 49 + span 45 44 + span 40 39
    | 0x30 => span 50 49 + span 45 44 + span 40 39
    | 0x31 => span 53 50 + span 45 44
    | _ => vecDAB
  | _ =>
    match op with
    | 0 => span 53 47 | 1 => span 53 50 + span 47 47 | 2 => span 53 48 | 3 => span 53 48
    | 4 => span 53 50 + span 47 42 | 5 => span 53 41 | 6 => span 53 46 | 7 => span 53 38 | _ => 0

/-- R103, R104, R140, R143: reserved field values that make a word ILLEGAL whatever the state. -/
def reservedValue (cls op w : Nat) : Bool :=
  match cls, op with
  | 2, 0 => decide (bits w 43 42 ≠ 0)
  | 2, 1 => decide (bits w 43 42 ≠ 0) || decide (bits w 24 23 = 0)
  | 3, 2 => decide (10 ≤ bits w 49 46)
  | 3, 3 => !convOk (bits w 49 42)
  | 3, 5 => decide (10 ≤ bits w 34 31) || decide (9 < bits w 48 45) || decide (bits w 30 24 = 0) ||
      decide (64 < bits w 30 24)
  | 3, 6 => decide (9 < bits w 48 45) || decide (9 < bits w 39 36)
  | 3, 7 => decide (9 < bits w 48 45)
  | 4, 0x01 => decide (10 ≤ bits w 40 37) || (bit w 36 && decide (bits w 40 37 ≠ 0))
  | 4, 0x02 => !convOk (bits w 30 23) || decide (bits w 30 27 = 10) || (bit w 36 && decide (bits w 30 23 ≠ 0))
  | 4, 0x03 => bit w 33
  | 4, 0x05 => decide (255 < bits w 8 0)
  | 4, 0x06 => decide (255 < bits w 8 0)
  | 4, 0x1B => decide (5 < bits w 30 28)
  | 4, 0x1F => bit w 33
  | 4, 0x2B => decide (5 < bits w 30 28)
  | _, _ => false

/-- A word of a defined class and operation. -/
def knownWord (w : Nat) : Bool := decide (bits w 59 54 < opCount (bits w 63 60))

/-- R103: a word that executes: defined, with its zero bits zero and no reserved value. -/
def legalWord (w : Nat) : Bool :=
  knownWord w && decide (bits w 53 0 &&& (2 ^ 54 - 1 - namedBits (bits w 63 60) (bits w 59 54)) = 0)
    && !reservedValue (bits w 63 60) (bits w 59 54) w

/-! ### Issue -/

/-- The soft errors a core's memories took before its next read (R85, R117). -/
def strike (s : State) (c : Nat) (k : Strike) : State :=
  let r := coreOf s c
  let s := setCore s c
    { r with
      tsBad := r.tsBad ++ k.ts
      accBad := r.accBad ++ k.acc
      vregBad := r.vregBad ++ k.vreg
      maskBad := r.maskBad ++ k.mask
      imemBad := r.imemBad ++ k.imem }
  bumpOcc (bumpOcc s (Csr.CORE_TS_CE (c / 24) (c % 24)) k.tsCorrected)
    (Csr.ACC_CE (c / 24) (c % 24)) k.accCorrected

/-- A core that can issue: RUNNING, not stalled, zeroed, its quadrant clocked, powered and not quiesced
(R41, R86, R105, R529). -/
def coreIssues (s : State) (c : Nat) : Bool :=
  let k := coreOf s c
  decide (k.st = .running) && k.stall.isNone && !k.init && works s (c / 24) && !inResetBit s (c / 24)

/-- A fresh free value of a kind, and the state with its counter advanced. -/
def fresh (s : State) (kind : Nat) : Nat × State :=
  (Config.freeValue kind s.freeCtr, { s with freeCtr := s.freeCtr + 1 })

/-- The word the core fetches next (R103). -/
def fetchWord (k : Core) : Nat := (smGet 0 k.imem k.pc).toNat

/-- R103, R105, R106: one instruction command. The core fetches the word at CORE_PC; an uncorrectable fetch
and an undefined or illegal word fault; a word of another instruction leaves the command without effect. -/
def issue (cls op : Nat) (eff : State → Nat → Nat → State × Flow) (c : Fin 96) (k : Strike) (s : State) :
    State :=
  if !coreIssues s c then s else
  let s := strike s c k
  let r := coreOf s c
  if r.imemBad.contains r.pc then
    let (v, s) := fresh s 1
    coreFault s c (v % 1024 <<< 54) 0x02 0x07 0
  else
    let w := fetchWord r
    if bits w 63 60 = cls ∧ bits w 59 54 = op then
      if legalWord w then
        let (s, fl) := eff s c w
        applyFlow s c w fl
      else applyFlow s c w illegal
    else if knownWord w then s
    else applyFlow s c w illegal

/-- An effect on the core's record alone. -/
def onCore (f : Core → Nat → Core × Flow) (s : State) (c w : Nat) : State × Flow :=
  let (k, fl) := f (coreOf s c) w
  (setCore s c k, fl)

end Sys2Proof.Machine
end

