-- ==== Sys2Proof/Machine/Parts.lean ====
section
/-! DEFINITION. How a split request reports (R18, R96, R540): one status, a part map and a prefix. -/

namespace Sys2Proof.Machine

/-- The report of a request whose parts ended with these statuses. -/
structure Report where
  status : Nat
  firstFail : Nat
  map : Nat
  pfx : Nat
  deriving DecidableEq, Repr

/-- The status of the lowest-numbered failed part; OK when none failed. -/
def firstFail : List Nat → Nat
  | [] => 0
  | s :: ss => if s = 0 then firstFail ss else s

/-- R96: the number of leading parts that all succeeded. -/
def okPrefix : List Nat → Nat
  | [] => 0
  | s :: ss => if s = 0 then okPrefix ss + 1 else 0

/-- The map bits from bit `b` on, for what is left of the part statuses in groups of `g`; at most `fuel`. -/
def mapBits (g : Nat) : Nat → Nat → List Nat → Nat
  | 0, _, _ => 0
  | fuel + 1, b, ss =>
    if ss.isEmpty then 0
    else (if (ss.take g).all (· = 0) then 2 ^ b else 0) + mapBits g fuel (b + 1) (ss.drop g)

/-- R96: the 64-bit part map. -/
def partMap (ss : List Nat) : Nat := mapBits (ceilDiv ss.length 64) 64 0 ss

/-- R96: OK, the one part's status, or PARTIAL. -/
def partStatus (ss : List Nat) : Nat :=
  if ss.all (· = 0) then 0 else match ss with | [s] => s | _ => 1

/-- R96: the whole report. -/
def partReport (ss : List Nat) : Report := ⟨partStatus ss, firstFail ss, partMap ss, okPrefix ss⟩

/-- A request that failed before any part: its status, an empty map and a zero prefix. -/
def wholeReport (st : Nat) : Report := ⟨st, st, 0, 0⟩

/-- R18: the order in which failures of one part are reported; a smaller rank is reported first. -/
def statusRank (st : Nat) : Nat :=
  match st with
  | 0x08 => 1 | 0x0E => 2 | 0x09 => 3 | 0x0A => 4 | 0x0B => 5 | 0x05 => 6 | 0x07 => 7 | 0x04 => 8
  | 0x03 => 9 | 0x02 => 10 | 0x06 => 11 | 0x0C => 12 | 0x0D => 13 | _ => 14

/-- R18: of two outcomes of one part, the one it reports. -/
def worse (a b : Nat) : Nat := if a = 0 then b else if b = 0 then a else if statusRank b < statusRank a then b else a

end Sys2Proof.Machine
end

