-- ==== Sys2Proof/Machine/StrmOps.lean ====
section
/-! DEFINITION. Scoreboards (R100 to R102) and the streamer operations that move no data: queueing,
completion duties (R98), capture (R111) and cancelling (R99). -/

namespace Sys2Proof.Machine

/-! ### Scoreboard -/

/-- R100, R101: scoreboard bit b of core c is set; setting a set bit counts. -/
def sbSet (s : State) (c b : Nat) : State :=
  let k := coreOf s c
  if bit k.sb b then bumpOcc s (Csr.CORE_SB_OVERSET (c / 24) (c % 24)) 1
  else setCore s c { k with sb := k.sb ||| 1 <<< b }

/-- R98: the fail bit and status recorded against scoreboard bit b. -/
def sbFailSet (s : State) (c b st : Nat) : State :=
  let k := coreOf s c
  setCore s c { k with sbFail := k.sbFail ||| 1 <<< b, sbStatus := smSet 0 k.sbStatus b st }

/-- The bits of a 64-bit mask that are clear in `m`. -/
def without64 (v m : Nat) : Nat := v &&& (2 ^ 64 - 1 - m % 2 ^ 64)

/-- R100: scoreboard bits cleared, with their fail bits. -/
def sbClear (k : Core) (mask : Nat) : Core :=
  { k with sb := without64 k.sb mask, sbFail := without64 k.sbFail mask,
           sbStatus := k.sbStatus.filter (fun e => !bit mask e.1) }

/-- The lowest set bit of a 64-bit mask. -/
def lowBit (m : Nat) : Nat := ((List.range 64).find? (fun b => bit m b)).getD 0

/-- R102: what a wait on the bits of `mask` does now. -/
def waitFlow (s : State) (c mask : Nat) (clr : Bool) : State × Flow :=
  let k := coreOf s c
  if k.sb &&& mask ≠ mask then (s, .wait (.sb mask clr))
  else
    let bad := mask &&& k.sbFail
    if bad ≠ 0 ∧ ¬ flag s (Csr.CORE_CTRL (c / 24) (c % 24)) 2 then
      (s, .fault (smGet 0 k.sbStatus (lowBit bad)) 0x05 (lowBit bad))
    else (if clr then setCore s c (sbClear k mask) else s, .next)

/-! ### Streamers -/

/-- Streamer t of a core. -/
def strmOf (k : Core) (t : Nat) : Strm := smGet {} k.strm t

/-- Streamer t of a core replaced. -/
def setStrm (k : Core) (t : Nat) (v : Strm) : Core := { k with strm := smSet {} k.strm t v }

/-- R88: the queue has a free entry. -/
def strmRoom (k : Core) (t : Nat) : Bool := decide ((strmOf k t).queue.length < 16)

/-- An entry put at the end of streamer t's queue. -/
def strmEnqueue (k : Core) (t : Nat) (e : QEnt) : Core :=
  let v := strmOf k t
  setStrm k t { v with queue := v.queue ++ [e] }

/-- R111: a completion that is not OK is captured, or counted in EXTRA. -/
def strmCapture (s : State) (c t tag : Nat) (r : Report) : State :=
  let q := c / 24; let n := c % 24
  let a := Csr.STRM_FAIL q n t
  if flag s a 0 then setFld s a 15 8 (min 255 (fld s a 15 8 + 1))
  else
    let s := wr s a (r.status <<< 24 + r.firstFail <<< 16 + 1)
    let s := wr s (Csr.STRM_FAIL_TAG q n t) tag
    let s := wr s (Csr.STRM_FAIL_PREFIX q n t) r.pfx
    wr s (Csr.STRM_FAIL_MAP q n t) r.map

/-- R98: the ordered duties of a completion of the descriptor `b`. -/
def strmDuties (s : State) (c t : Nat) (b : Bytes) (r : Report) : State :=
  let w := fieldAt b 0 4
  let tag := fieldAt b 60 4
  let s := if bit w 21 then sbSet s c (bits w 20 15) else s
  let s :=
    if r.status ≠ 0 then
      strmCapture (if bit w 21 then sbFailSet s c (bits w 20 15) r.status else s) c t tag r
    else s
  if bit w 14 then raise s (strmSrc c) r.status (tag <<< 32 + r.pfx) r.map else s

/-- R98, R211: a descriptor completes; an Ephemeris transfer's result goes to the placement engine. -/
def strmComplete (s : State) (c t : Nat) (b : Bytes) (eph : Option (Nat × Nat)) (r : Report) : State :=
  let s := strmDuties s c t b r
  match eph with
  | some (p, e) => { s with ephResults := s.ephResults ++ [(p, e, r.status)] }
  | none => s

/-- R574: a push that completes without its descriptor: captured with TAG 0, and nothing else. -/
def strmPushFailed (s : State) (c t st : Nat) : State := strmCapture s c t 0 (wholeReport st)

/-- R99: a queued entry that has not started completes with CANCELLED. -/
def strmDropQueued (s : State) (c t : Nat) : List QEnt → State
  | [] => s
  | .desc b eph :: es => strmDropQueued (strmComplete s c t b eph (wholeReport 0x0E)) c t es
  | .push _ :: es => strmDropQueued (strmPushFailed s c t 0x0E) c t es

/-- R99: descriptors in progress stop at their next part boundary. -/
def stopProgs : SMap (Option Prog) → SMap (Option Prog)
  | [] => []
  | (d, none) :: m => (d, none) :: stopProgs m
  | (d, some p) :: m =>
    (d, some (if p.ended.isNone ∧ p.done.length < p.parts then { p with ended := some 0x0E } else p)) ::
      stopProgs m

/-- R99: streamer t of core c is cancelled. -/
def strmCancelAll (s : State) (c t : Nat) : State :=
  let k := coreOf s c
  let v := strmOf k t
  let s := setCore s c (setStrm k t { queue := [], prog := stopProgs v.prog })
  strmDropQueued s c t v.queue

/-- R99: the report of a descriptor in progress: as its parts ended, or CANCELLED, and PARTIAL where a
part had completed. -/
def progReport (p : Prog) : Report :=
  let sts := (countUp 0 p.parts).map (fun i => match p.done.find? (fun d => d.1 = i) with
    | some d => d.2 | none => 0x0E)
  match p.ended with
  | none => partReport sts
  | some st =>
    if p.parts = 0 then wholeReport st
    else if sts.any (· = 0) then { partReport sts with status := 0x01, firstFail := st }
    else ⟨st, st, 0, 0⟩

end Sys2Proof.Machine
end

