-- ==== Sys2Proof/Machine/CoreCtl.lean ====
section
/-! DEFINITION. The CTL, STREAM and SYNC instructions of a tile core (R103), how a waiting or stalled core
goes on, and the core's run-control registers (R105). -/

namespace Sys2Proof.Machine

/-- The outcome of a command. -/
abbrev Out := Host.Outcome State Fault Refusal

/-! ### CTL class -/

/-- IMM[31:0] sign-extended to 64 bits. -/
def imm32 (w : Nat) : Nat := wrapInt 64 (signed 32 (bits w 31 0))

/-- NOP: nothing but the next word. -/
def execNop (c : Fin 96) (k : Strike) (s : State) : Out :=
  .next (issue 0 0x00 (onCore fun r _ => (r, .next)) c k s)

/-- HALT (R105). -/
def execHalt (c : Fin 96) (k : Strike) (s : State) : Out :=
  .next (issue 0 0x01 (onCore fun r _ => (r, .halt)) c k s)

/-- LI: Xd = IMM sign-extended. -/
def execLi (c : Fin 96) (k : Strike) (s : State) : Out :=
  .next (issue 0 0x02 (onCore fun r w => (xw r (bits w 53 50) (imm32 w), .next)) c k s)

/-- LUI: Xd[63:32] = IMM. -/
def execLui (c : Fin 96) (k : Strike) (s : State) : Out :=
  .next (issue 0 0x03 (onCore fun r w =>
    (xw r (bits w 53 50) (bits w 31 0 <<< 32 + xr r (bits w 53 50) % 2 ^ 32), .next)) c k s)

/-- ADDI: Xd = Xa + IMM sign-extended, wrapping. -/
def execAddi (c : Fin 96) (k : Strike) (s : State) : Out :=
  .next (issue 0 0x04 (onCore fun r w => (xw r (bits w 53 50) (xr r (bits w 49 46) + imm32 w), .next)) c k s)

/-- ADD: Xd = Xa + Xb, wrapping. -/
def execAdd (c : Fin 96) (k : Strike) (s : State) : Out :=
  .next (issue 0 0x05 (onCore fun r w =>
    (xw r (bits w 53 50) (xr r (bits w 49 46) + xr r (bits w 45 42)), .next)) c k s)

/-- SUB: Xd = Xa − Xb, wrapping. -/
def execSub (c : Fin 96) (k : Strike) (s : State) : Out :=
  .next (issue 0 0x06 (onCore fun r w =>
    (xw r (bits w 53 50) (xr r (bits w 49 46) + (2 ^ 64 - xr r (bits w 45 42))), .next)) c k s)

/-- SHLI: Xd = Xa << IMM[5:0]. -/
def execShli (c : Fin 96) (k : Strike) (s : State) : Out :=
  .next (issue 0 0x07 (onCore fun r w =>
    (xw r (bits w 53 50) (xr r (bits w 49 46) <<< bits w 5 0), .next)) c k s)

/-- The flow of a conditional jump to word IMM[14:0]. -/
def jumpIf (b : Bool) (w : Nat) : Flow := if b then .jump (bits w 14 0) else .next

/-- BZ: jump when Xa = 0. -/
def execBz (c : Fin 96) (k : Strike) (s : State) : Out :=
  .next (issue 0 0x08 (onCore fun r w => (r, jumpIf (xr r (bits w 49 46) = 0) w)) c k s)

/-- BNZ: jump when Xa ≠ 0. -/
def execBnz (c : Fin 96) (k : Strike) (s : State) : Out :=
  .next (issue 0 0x09 (onCore fun r w => (r, jumpIf (xr r (bits w 49 46) ≠ 0) w)) c k s)

/-- JMP: jump. -/
def execJmp (c : Fin 96) (k : Strike) (s : State) : Out :=
  .next (issue 0 0x0A (onCore fun r w => (r, jumpIf true w)) c k s)

/-- LOOP: Xa = Xa − 1; jump when the result is not 0. With Xa = X0 the result is −1 and is not kept. -/
def execLoop (c : Fin 96) (k : Strike) (s : State) : Out :=
  .next (issue 0 0x0B (onCore fun r w =>
    let v := (xr r (bits w 49 46) + (2 ^ 64 - 1)) % 2 ^ 64
    (xw r (bits w 49 46) v, jumpIf (v ≠ 0) w)) c k s)

/-! ### STREAM class -/

/-- The descriptor bytes with XS and XT added to its addresses, wrapping at 64 bits. -/
def addDescAddrs (b : Bytes) (xs xt : Nat) : Bytes :=
  bytesAt b 0 8 ++ toLE ((fieldAt b 8 8 + xs) % 2 ^ 64) 8 ++ toLE ((fieldAt b 16 8 + xt) % 2 ^ 64) 8
    ++ bytesAt b 24 40

/-- R103: STRM.ISSUE. -/
def strmIssueEff (s : State) (c w : Nat) : State × Flow :=
  let k := coreOf s c
  let xd := xr k (bits w 51 48)
  if xd % 64 ≠ 0 ∨ 2 ^ 22 ≤ xd then (s, badAddress)
  else if bit w 39 ∧ ¬ k.flight.isEmpty then (s, .stall .drain)
  else if ¬ strmRoom k (bits w 53 52) then (s, .stall (.queue (bits w 53 52)))
  else
    match tsRead k xd 64 with
    | (_, .ts a :: _) => (s, .fault 0x02 0x06 a)
    | (b, _) =>
      (setCore s c (strmEnqueue k (bits w 53 52)
        (.desc (addDescAddrs b (xr k (bits w 47 44)) (xr k (bits w 43 40))) none)), .next)

/-- STRM.ISSUE: a descriptor from the tile store is queued on streamer S. -/
def execStrmIssue (c : Fin 96) (k : Strike) (s : State) : Out := .next (issue 1 0x00 strmIssueEff c k s)

/-- STRM.CANCEL: as a write of STRM_CANCEL.GO (R99). -/
def execStrmCancelInstr (c : Fin 96) (k : Strike) (s : State) : Out :=
  .next (issue 1 0x01 (fun s c w => (strmCancelAll s c (bits w 53 52), .next)) c k s)

/-! ### SYNC class -/

/-- SYNC.WAIT (R102). -/
def execSyncWait (c : Fin 96) (k : Strike) (s : State) : Out :=
  .next (issue 5 0x00 (fun s c w => waitFlow s c (1 <<< bits w 53 48) (bit w 47)) c k s)

/-- SYNC.WAITM: every bit set in Xa. -/
def execSyncWaitm (c : Fin 96) (k : Strike) (s : State) : Out :=
  .next (issue 5 0x01 (fun s c w => waitFlow s c (xr (coreOf s c) (bits w 53 50)) (bit w 47)) c k s)

/-- SYNC.SET. -/
def execSyncSet (c : Fin 96) (k : Strike) (s : State) : Out :=
  .next (issue 5 0x02 (fun s c w => (sbSet s c (bits w 53 48), .next)) c k s)

/-- SYNC.CLR. -/
def execSyncClr (c : Fin 96) (k : Strike) (s : State) : Out :=
  .next (issue 5 0x03 (onCore fun r w => (sbClear r (1 <<< bits w 53 48), .next)) c k s)

/-- SYNC.TEST: Xd = bit B of CORE_SB plus twice bit B of CORE_SB_FAIL. -/
def execSyncTest (c : Fin 96) (k : Strike) (s : State) : Out :=
  .next (issue 5 0x04 (onCore fun r w =>
    let b := bits w 47 42
    (xw r (bits w 53 50) ((if bit r.sb b then 1 else 0) + (if bit r.sbFail b then 2 else 0)), .next)) c k s)

/-- SYNC.SIG: the set waits for the earlier instructions of this core (R82). -/
def execSyncSig (c : Fin 96) (k : Strike) (s : State) : Out :=
  .next (issue 5 0x05 (onCore fun r w =>
    if 23 < bits w 51 47 then (r, badAddress)
    else ({ r with sigs := r.sigs ++ [(r.issued, 24 * bits w 53 52 + bits w 51 47, bits w 46 41)] }, .next)) c k s)

/-- R103: the oldest SIG whose earlier MM, ACC and VEC instructions have completed sets its bit, or is
dropped when the named core is held in reset. A set that meets an off quadrant waits for it (R530). -/
def execSyncSigDeliver (c : Fin 96) (s : State) : Out :=
  let k := coreOf s c
  match k.sigs with
  | [] => .next s
  | (mark, tgt, b) :: rest =>
    if k.flight.any (fun f => f.seq < mark) ∨ ¬ awake s then .next s
    else if inResetBit s (tgt / 24) then .next (setCore s c { k with sigs := rest })
    else if domainOff s (tgt / 24) then .next s
    else .next (sbSet (setCore s c { k with sigs := rest }) tgt b)

/-- R103: the cores of a barrier group: those whose CORE_CFG.GROUP is `g` and that are not in reset. -/
def barGroup (s : State) (g : Nat) : List Nat :=
  (List.range 96).filter (fun c => fld s (Csr.CORE_CFG (c / 24) (c % 24)) 5 0 = g && !inResetBit s (c / 24))

/-- SYNC.BAR: the core arrives; a group of one completes at once. -/
def execSyncBar (c : Fin 96) (k : Strike) (s : State) : Out :=
  .next (issue 5 0x06 (fun s c w =>
    if barGroup s (fld s (Csr.CORE_CFG (c / 24) (c % 24)) 5 0) = [c] then (s, .next)
    else (setCore s c { coreOf s c with bar := some (bits w 53 46) }, .wait (.bar (bits w 53 46)))) c k s)

/-- The cores of a list released from their barrier. -/
def releaseBar (s : State) : List Nat → State
  | [] => s
  | c :: cs =>
    let k := coreOf s c
    releaseBar (advance (setCore s c { k with bar := none }) c (fetchWord k)) cs

/-- R103: the barrier completes when every core of the group has arrived with the same ID. -/
def execBarComplete (group : Fin 64) (id : Fin 256) (s : State) : Out :=
  let cs := barGroup s group
  if ¬ cs.isEmpty ∧ awake s ∧ cs.all (fun c => (coreOf s c).bar = some id.val) then .next (releaseBar s cs)
  else .next s

/-- SYNC.MARK: the group and marker go to the placement engine (R207). -/
def execSyncMark (c : Fin 96) (k : Strike) (s : State) : Out :=
  .next (issue 5 0x07 (fun s c w =>
    ({ s with triggers := s.triggers ++
        [(fld s (Csr.CORE_CFG (c / 24) (c % 24)) 5 0, bits w 53 38)] }, .next)) c k s)

/-- SYNC.DRAIN. -/
def execSyncDrain (c : Fin 96) (k : Strike) (s : State) : Out :=
  .next (issue 5 0x08 (fun s c _ =>
    if (coreOf s c).flight.isEmpty then (s, .next) else (s, .wait .drain)) c k s)

/-- R125: a push of the MM unit (or of ACC) that finds the queue full stalls that unit. -/
def unitStalled (k : Core) (mm : Bool) : Bool :=
  decide (16 ≤ k.trq.length) && k.flight.any (fun f => f.push && !f.run && f.mm == mm)

/-- R105: the condition of a core's stall or wait is met, and it goes on: a waiting core completes its wait,
a stalled one issues again. -/
def execCoreStallResume (c : Fin 96) (s : State) : Out :=
  let k := coreOf s c
  if ¬ works s (c / 24) ∨ inResetBit s (c / 24) then .next s
  else match k.st, k.wait, k.stall with
    | .waiting, some (.sb mask clr), _ =>
      if k.sb &&& mask = mask then
        let (s, fl) := waitFlow s c mask clr
        .next (applyFlow s c (fetchWord k) fl)
      else .next s
    | .waiting, some .drain, _ =>
      if k.flight.isEmpty then .next (advance s c (fetchWord k)) else .next s
    | .running, _, some (.queue t) =>
      .next (if strmRoom k t then setCore s c { k with stall := none } else s)
    | .running, _, some .trqEmpty =>
      .next (if k.trq.isEmpty then s else setCore s c { k with stall := none })
    | .running, _, some .drain =>
      .next (if k.flight.isEmpty then setCore s c { k with stall := none } else s)
    | .running, _, some (.unit mm) =>
      .next (if unitStalled k mm then s else setCore s c { k with stall := none })
    | _, _, _ => .next s

/-! ### Register effects (R105, R109) -/

/-- CORE_CTRL.RUN written 1: a HALTED core runs; elsewhere a violation. -/
def coreRunEff (s : State) (i : Initiator) (c : Nat) : State :=
  let k := coreOf s c
  if k.st = .halted then setCore s c { k with st := .running, stall := none }
  else violation s 0x3 true i (Csr.CORE_CTRL (c / 24) (c % 24))

/-- R125: pushes still waiting for the full queue are dropped by STOP. -/
def dropStalledPush (k : Core) : Core :=
  let stuck := k.flight.filter (fun f => f.push && !f.run)
  if 16 ≤ k.trq.length ∧ ¬ stuck.isEmpty then
    { k with flight := k.flight.filter (fun f => !(f.push && !f.run)), trqDropped := true }
  else k

/-- CORE_CTRL.STOP written 1: the core halts at an instruction boundary; CORE_PC is the next unexecuted
word, which is the wait or stalled instruction itself. In-flight instructions complete (their results are
already in place); a BAR arrival is withdrawn. -/
def coreStopEff (s : State) (c : Nat) : State :=
  let k := coreOf s c
  if k.st = .running ∨ k.st = .waiting then
    setCore s c { dropStalledPush k with st := .halted, wait := none, stall := none, bar := none }
  else s

/-- CORE_PC written: sets the next instruction in HALTED only. -/
def corePcEff (s : State) (i : Initiator) (c v : Nat) : State :=
  let k := coreOf s c
  if k.st = .halted then setCore s c { k with pc := v % 2 ^ 15 }
  else violation s 0x3 true i (Csr.CORE_PC (c / 24) (c % 24))

/-- CORE_FAULT_CLR.CLR written 1: a FAULT core becomes HALTED at the faulting word. -/
def coreFaultClrEff (s : State) (c : Nat) : State :=
  let k := coreOf s c
  if k.st = .fault then setCore s c { k with st := .halted } else s

/-- CORE_SB written: each 1 clears the bit and its fail bit. -/
def coreSbClearEff (s : State) (c v : Nat) : State := setCore s c (sbClear (coreOf s c) v)

/-- CORE_SB_SET written: each 1 sets the bit. -/
def coreSbSetEff (s : State) (c v : Nat) : State :=
  ((List.range 64).filter (fun b => bit v b)).foldl (fun s b => sbSet s c b) s

/-- CORE_SB_FAIL written: each 1 clears the fail bit alone. -/
def coreSbFailEff (s : State) (c v : Nat) : State :=
  let k := coreOf s c
  setCore s c { k with sbFail := without64 k.sbFail v, sbStatus := k.sbStatus.filter (fun e => !bit v e.1) }

/-- R114: ACC_TMODE written: sets the modes in HALTED only. -/
def accTmodeEff (s : State) (i : Initiator) (c v : Nat) : State :=
  let k := coreOf s c
  if k.st = .halted then setCore s c { k with tmode := v % 2 ^ 64 }
  else violation s 0x3 true i (Csr.ACC_TMODE (c / 24) (c % 24))

/-- R88, R574: STRM_PUSH written: the address takes a queue entry, or sets PUSH_DROP. -/
def strmPushEff (s : State) (c t v : Nat) : State :=
  let k := coreOf s c
  if strmRoom k t then setCore s c (strmEnqueue k t (.push (v % 2 ^ 44)))
  else setFlag s (Csr.STRM_STAT (c / 24) (c % 24) t) 4 true

end Sys2Proof.Machine
end

