-- ==== Sys2Proof/Machine/MatMul.lean ====
section
/-! DEFINITION. The MM class: weight loads, array runs and their completion (R76 to R81, R104), and the
tile-ready queue they push to (R123 to R125). -/

namespace Sys2Proof.Machine

/-- R64, R77: the class of an operand pair with the depth of its weights. -/
inductive PairClass where
  | float | narrow | int
  deriving DecidableEq, Repr

/-- R64, R77: the permitted pairs. Dual-lane use is for two 8-bit floats or two integers only. -/
def pairClass (fa fb : Nat) (depth : Bool) : Option PairClass :=
  if fmtFloat fa ∧ fmtFloat fb then
    if (fa = 4 ∨ fa = 5) ∧ (fb = 4 ∨ fb = 5) then some .narrow
    else if depth then none else some .float
  else if fmtInt fa ∧ fmtInt fb then some .int
  else none

/-- R80: bytes of an operand: one or two tiles and its scale vector. -/
def operandBytes (op : Nat) (dual : Bool) : Nat :=
  (if dual then 2 else 1) * tileBytes (op / 16) + (if bit op 2 then 64 else 0)

/-- R104: an operand address that is 64-byte aligned and whose operand lies within the tile store. -/
def operandFits (a n : Nat) : Bool := decide (a % 64 = 0) && decide (a + n ≤ 2 ^ 22)

/-- The elements of a 64 × 64 tile with element (r, c) taken from (c, r). -/
def transposeTile' (xs : List Nat) : List Nat :=
  let a := xs.toArray
  (List.range 4096).map (fun i => a.getD (64 * (i % 64) + i / 64) 0)

/-- R79, R80: the weights a load reads. -/
def loadWeights (k : Core) (a opb : Nat) (tb depth : Bool) : Weights × List Bad :=
  let fmt := opb / 16
  let t := tileBytes fmt
  let one (off : Nat) : List Nat × List Bad :=
    let (bs, bad) := tsRead k (a + off) t
    let es := elemsOf bs (fmtBits fmt)
    (if tb then transposeTile' es else es, bad)
  let (c0, b0) := one 0
  let (c1, b1) := if depth then one t else ([], [])
  let (sc, b2) := if bit opb 2 then tsRead k (a + (if depth then 2 * t else t)) 64 else ([], [])
  (⟨opb, depth, c0 ++ c1, sc.map (·.toNat)⟩, b0 ++ b1 ++ b2)

/-- R79, R81, R104: MM.LDW fills the shadow weight registers. -/
def mmLdwEff (s : State) (c w : Nat) : State × Flow :=
  let k := coreOf s c
  let a := xr k (bits w 53 50)
  let opb := bits w 49 42
  if unitStalled k true then (s, .stall (.unit true))
  else if ¬ operandFits a (operandBytes opb (bit w 40)) then (s, badAddress)
  else
    let (wt, bads) := loadWeights k a opb (bit w 41) (bit w 40)
    afterBads (setCore s c { k with shadow := some wt }) c bads

/-- MM.LDW. -/
def execMmLdw (c : Fin 96) (k : Strike) (s : State) : Out := .next (issue 2 0x00 mmLdwEff c k s)

/-- R76 to R78: the order of the products of one element: 0, 1, … 63, or 0, 64, 1, 65, … in dual-lane use. -/
def sumOrder (dual : Bool) : List Nat :=
  if dual then (List.range 64).flatMap (fun k => [k, k + 64]) else List.range 64

/-- One pass of a floating run: products added in order, each addition rounded (R65, R76). -/
def floatPass (t : Nat) (order : List Nat) (a b : Nat → Num) (sa sb : Option Int) : Nat :=
  order.foldl (fun t k => enc32 (numAdd (dec32 t) (scaledProduct (a k) (b k) sa sb))) t

/-- R113, R115: an addition to an integer accumulator element: the sum and whether it clamped. -/
def intAccAdd (sat : Bool) (t p : Int) : Int × Bool :=
  if ¬ sat then (signed 32 (wrapInt 32 (t + p)), false)
  else if t + p < -(2 ^ 31) then (-(2 ^ 31), true)
  else if (2 ^ 31 - 1 : Int) < t + p then (2 ^ 31 - 1, true)
  else (t + p, false)

/-- One integer element's sum (R67, R76). -/
def intSum (sat : Bool) (t : Int) (order : List Nat) (a b : Nat → Int) : Int × Bool :=
  order.foldl (fun r k => let x := intAccAdd sat r.1 (a k * b k); (x.1, r.2 || x.2)) (t, false)

/-- The A rows of a run, as element codes: row i's k-th element at (tile k / 64, index 64i + k % 64). -/
structure ARows where
  lane0 : Array Nat
  lane1 : Array Nat
  scale : List Nat
  deriving Repr

/-- R80: the rows 0 to ROWS − 1 of the A tiles, and the scale vector. -/
def loadARows (k : Core) (a opa rows : Nat) (dual : Bool) : ARows × List Bad :=
  let fmt := opa / 16
  let t := tileBytes fmt
  let (d0, b0) := tsRead k a (rows * t / 64)
  let (d1, b1) := if dual then tsRead k (a + t) (rows * t / 64) else ([], [])
  let (sc, b2) := if bit opa 2 then tsRead k (a + (if dual then 2 * t else t)) 64 else ([], [])
  (⟨(elemsOf d0 (fmtBits fmt)).toArray, (elemsOf d1 (fmtBits fmt)).toArray, sc.map (·.toNat)⟩, b0 ++ b1 ++ b2)

/-- Element k of A row i. -/
def aElem (r : ARows) (i k : Nat) : Nat :=
  if k < 64 then r.lane0.getD (64 * i + k) 0 else r.lane1.getD (64 * i + k - 64) 0

/-- The scale of row or column i; 2^0 where no vector accompanies the operand. -/
def scaleAt (sc : List Nat) (i : Nat) : Option Int := if sc.isEmpty then some 0 else scaleExp (sc.getD i 0)

/-- R69, R76: the element a floating run leaves at (i, j). -/
def floatElem (t opa opb p : Nat) (order : List Nat) (ar : ARows) (wt : Weights) (cells : Array Nat)
    (i j : Nat) : Nat :=
  let multiA := decide (opa / 16 = 0) && decide (2 ≤ p)
  let multiB := decide (opb / 16 = 0) && decide (p = 3)
  let a (k : Nat) := operandParts (opa / 16) (bit opa 3) multiA (aElem ar i k)
  let b (k : Nat) := operandParts (opb / 16) (bit opb 3) multiB (cells.getD (64 * k + j) 0)
  let sa := scaleAt ar.scale i
  let sb := scaleAt wt.scale j
  let t := floatPass t order (fun k => (a k).1) (fun k => (b k).1) sa sb
  let t := if multiA then floatPass t order (fun k => (a k).2) (fun k => (b k).1) sa sb else t
  if multiB then floatPass t order (fun k => (a k).1) (fun k => (b k).2) sa sb else t

/-- R69: the passes that run. -/
def passCount (opa opb p : Nat) (cls : PairClass) : Nat :=
  match cls with
  | .int => 1
  | _ => 1 + (if opa / 16 = 0 ∧ 2 ≤ p then 1 else 0) + (if opb / 16 = 0 ∧ p = 3 then 1 else 0)

/-- R104: the first check of MM.RUN that fails, in the order of its table. -/
def mmRunCheck (k : Core) (w : Nat) : Option Flow :=
  match (k.shadow <|> k.active) with
  | none => some (.fault 0x09 0x02 0)
  | some wt =>
    match pairClass (bits w 49 46) (wt.opb / 16) wt.depth with
    | none => some (.fault 0x09 0x02 0)
    | some cls =>
      let m := tileMode k (bits w 41 37)
      let rows := if bits w 30 25 = 0 then 64 else bits w 30 25
      let accOk : Bool := match cls with | .int => m == 1 || m == 2 | _ => m == 0
      if !accOk then some (.fault 0x09 0x03 0)
      else if 64 < bits w 36 31 + rows then some badAddress
      else if ¬ operandFits (xr k (bits w 53 50)) (operandBytes (bits w 49 42) wt.depth) then some badAddress
      else none

/-- The accumulator rows a run writes: (word index, value) and whether an addition clamped; with the
uncorrectable units its reads met. -/
def mmRunRows (k : Core) (w : Nat) (wt : Weights) (cls : PairClass) :
    List (Nat × Nat) × Bool × List Bad :=
  let opa := bits w 49 42
  let rows := if bits w 30 25 = 0 then 64 else bits w 30 25
  let row0 := bits w 41 31
  let (ar, bad) := loadARows k (xr k (bits w 53 50)) opa rows wt.depth
  let cells := wt.cells.toArray
  let order := sumOrder wt.depth
  let sat := decide (tileMode k (row0 / 64) = 2)
  (List.range (rows * 64)).foldl (fun (r : List (Nat × Nat) × Bool × List Bad) n =>
    let i := n / 64; let j := n % 64
    let idx := (row0 + i) * 64 + j
    let (t, b) := if bit w 22 then (0, []) else accRead k idx
    match cls with
    | .int =>
      let (v, cl) := intSum sat (signed 32 t) order (fun k' => intElem (opa / 16) (aElem ar i k'))
        (fun k' => intElem (wt.opb / 16) (cells.getD (64 * k' + j) 0))
      (r.1 ++ [(idx, wrapInt 32 v)], r.2.1 || cl, r.2.2 ++ b)
    | _ =>
      (r.1 ++ [(idx, floatElem t opa wt.opb (bits w 24 23) order ar wt cells i j)], r.2.1, r.2.2 ++ b))
    ([], false, bad)

/-- R76, R81, R104: MM.RUN. The sums are formed at issue; the run stays in flight until its last row is
written (MM_RUN_COMPLETE). -/
def mmRunEff (s : State) (c w : Nat) : State × Flow :=
  let k := coreOf s c
  if unitStalled k true then (s, .stall (.unit true)) else
  match mmRunCheck k w, (k.shadow <|> k.active) with
  | some fl, _ => (s, fl)
  | none, none => (s, .fault 0x09 0x02 0)
  | none, some wt =>
    match pairClass (bits w 49 46) (wt.opb / 16) wt.depth with
    | none => (s, .fault 0x09 0x02 0)
    | some cls =>
      let rows := if bits w 30 25 = 0 then 64 else bits w 30 25
      let (ws, clamped, bads) := mmRunRows k w wt cls
      let (k, part) := accPut k ws
      let fl : Flight := ⟨k.issued, bits w 41 37, true, bit w 21, true⟩
      let k := { k with active := some wt, shadow := none, flight := k.flight ++ [fl], issued := k.issued + 1 }
      let s := setCore s c k
      let s := if clamped then setFlag s (Csr.ACC_VEC_FLAGS (c / 24) (c % 24)) 4 true else s
      let s := bumpStat s (Csr.CORE_STAT_MM (c / 24) (c % 24))
        (rows * passCount (bits w 49 42) wt.opb (bits w 24 23) cls) (some (c / 24))
      afterBads s c (bads ++ part)

/-- MM.RUN. -/
def execMmRun (c : Fin 96) (k : Strike) (s : State) : Out := .next (issue 2 0x01 mmRunEff c k s)

/-- The flights with the first run marked as written: it becomes a push, or leaves when it pushes nothing. -/
def completeRun : List Flight → List Flight
  | [] => []
  | f :: fs => if f.run then (if f.push then { f with run := false } :: fs else fs) else f :: completeRun fs

/-- R81, R104: the oldest run's last row reaches the accumulator. -/
def execMmRunComplete (c : Fin 96) (s : State) : Out :=
  let k := coreOf s c
  if awake s ∧ ¬ inResetBit s (c / 24) then .next (setCore s c { k with flight := completeRun k.flight })
  else .next s

/-- R123: the first push that may enter: pushes enter in program order, none before an earlier run with
RDY, and an ACC.PUSH none before an earlier run that writes its tile. -/
def nextPush : List Flight → List Flight → Option (Flight × List Flight)
  | _, [] => none
  | before, f :: fs =>
    if f.push ∧ ¬ f.run ∧ before.all (fun g => !g.push && g.tile ≠ f.tile) then some (f, before ++ fs)
    else nextPush (before ++ [f]) fs

/-- R123, R125: a tile number enters the tile-ready queue, which holds 16. -/
def execTrqPush (c : Fin 96) (s : State) : Out :=
  let k := coreOf s c
  if ¬ awake s ∨ inResetBit s (c / 24) ∨ 16 ≤ k.trq.length then .next s
  else match nextPush [] k.flight with
    | none => .next s
    | some (f, rest) => .next (setCore s c { k with trq := k.trq ++ [f.tile], flight := rest })

end Sys2Proof.Machine
end

