-- ==== Sys2Proof/Machine/Accum.lean ====
section
/-! DEFINITION. The ACC class (R112 to R122, R139 to R141). -/

namespace Sys2Proof.Machine

/-- The conversion flags of a core's ACC and VEC instructions (R74, R144). -/
def accFlags (s : State) (c : Nat) (f : Nat) : State :=
  let a := Csr.ACC_VEC_FLAGS (c / 24) (c % 24)
  wr s a (rd s a ||| f)

/-- R125: an ACC instruction stalls at issue while an ACC.PUSH stalls the unit. -/
def accIssue (op : Nat) (eff : State → Nat → Nat → State × Flow) (c : Fin 96) (k : Strike) (s : State) : State :=
  issue 3 op (fun s c w => if unitStalled (coreOf s c) false then (s, .stall (.unit false)) else eff s c w) c k s

/-- ACC.MODE: set the mode and zero the tile (R114). -/
def accModeEff (k : Core) (w : Nat) : Core × Flow :=
  let t := bits w 53 49
  (accZeroTile { k with tmode := setBits k.tmode (2 * t + 1) (2 * t) (bits w 48 47) } t, .next)

/-- ACC.MODE. -/
def execAccMode (c : Fin 96) (k : Strike) (s : State) : Out := .next (accIssue 0x00 (onCore accModeEff) c k s)

/-- ACC.ZERO: all 64 rows zero. -/
def execAccZero (c : Fin 96) (k : Strike) (s : State) : Out :=
  .next (accIssue 0x01 (onCore fun r w => (accZeroTile r (bits w 53 49), .next)) c k s)

/-- R130, R139: an element loaded into an accumulator word, or added under the tile's mode. -/
def accLoadElem (mode fmt : Nat) (add : Bool) (old v : Nat) : Nat × Bool :=
  let x := loadElem fmt v
  if ¬ add then (x, false)
  else if mode = 0 then (fadd old x, false)
  else
    let (r, cl) := intAccAdd (mode = 2) (signed 32 old) (signed 32 x)
    (wrapInt 32 r, cl)

/-- R139, R140: ACC.LD. -/
def accLdEff (s : State) (c w : Nat) : State × Flow :=
  let k := coreOf s c
  let fmt := bits w 49 46
  let t := bits w 45 41
  let add := bit w 40
  let m := tileMode k t
  let a := bits (xr k (bits w 53 50)) 21 0
  if m = 3 ∨ (fmtFloat fmt && m != 0) ∨ (fmtInt fmt && m == 0) then (s, .fault 0x09 0x03 0)
  else if ¬ operandFits a (tileBytes fmt) then (s, badAddress)
  else
    let (bs, bad0) := tsRead k a (tileBytes fmt)
    let es := (elemsOf bs (fmtBits fmt)).toArray
    let (ws, cl, bads) := (List.range 4096).foldl (fun (r : List (Nat × Nat) × Bool × List Bad) i =>
      let (old, b) := if add then accRead k (4096 * t + i) else (0, [])
      let (v, cl) := accLoadElem m fmt add old (es.getD i 0)
      (r.1 ++ [(4096 * t + i, v)], r.2.1 || cl, r.2.2 ++ b)) ([], false, bad0)
    let (k, part) := accPut k ws
    let s := setCore s c k
    afterBads (if cl then accFlags s c 16 else s) c (bads ++ part)

/-- ACC.LD. -/
def execAccLd (c : Fin 96) (k : Strike) (s : State) : Out := .next (accIssue 0x02 accLdEff c k s)

/-- R141: the exact value of element (r, j) of a tile for ACC.ST. -/
def accStValue (m scl v : Nat) (rs cs : Option Int) : Num :=
  if m = 0 then dec32 v
  else
    let row := if bit scl 0 then rs else some 0
    let col := if bit scl 1 then cs else some 0
    match row, col with
    | some i, some j => numScale (numOfInt (signed 32 v)) (i + j)
    | _, _ => .nan

/-- R140: the checks of ACC.ST in order. -/
def accStCheck (k : Core) (w : Nat) : Option Flow :=
  let m := tileMode k (bits w 41 37)
  let fmt := bits w 49 46
  let scl := bits w 36 35
  let a := bits (xr k (bits w 53 50)) 21 0
  let b := bits (xr k (bits w 34 31)) 21 0
  if m = 3 then some (.fault 0x09 0x03 0)
  else if (scl ≠ 0 ∧ m = 0) ∨ (fmt = 10 ∧ (m ≠ 0 ∨ scl ≠ 0)) then some illegal
  else if ¬ operandFits a (tileBytes fmt) then some badAddress
  else if fmt = 10 ∧ ¬ operandFits b 64 then some badAddress
  else if scl ≠ 0 ∧ ¬ operandFits b (if bit scl 1 then 128 else 64) then some badAddress
  else none

/-- R73, R141: the G8 rows of a tile: mantissa bytes, exponent bytes, flags. -/
def accG8Rows (r : Rnd) (rows : List (List Num)) : Bytes × Bytes × Flags :=
  rows.foldl (fun (o : Bytes × Bytes × Flags) xs =>
    let (X, ms, f) := convG8 r xs
    (o.1 ++ ms.map (fun m => BitVec.ofInt 8 m), o.2.1 ++ [BitVec.ofNat 8 X], flagsOr o.2.2 f)) ([], [], {})

/-- R141: ACC.ST. -/
def accStEff (s : State) (c w : Nat) : State × Flow :=
  let k := coreOf s c
  match accStCheck k w with
  | some fl => (s, fl)
  | none =>
    let t := bits w 41 37
    let ctl := bits w 49 42
    let fmt := bits w 49 46
    let scl := bits w 36 35
    let a := bits (xr k (bits w 53 50)) 21 0
    let b := bits (xr k (bits w 34 31)) 21 0
    let (rs, br) := if bit scl 0 then tsRead k b 64 else ([], [])
    let (cs, bc) := if bit scl 1 then tsRead k (b + 64) 64 else ([], [])
    let words := (List.range 4096).map (fun i => accRead k (4096 * t + i))
    let val (i : Nat) (v : Nat) : Num :=
      accStValue (tileMode k t) scl v (scaleExp (fieldAt rs (i / 64) 1)) (scaleExp (fieldAt cs (i % 64) 1))
    let xs := (words.zip (List.range 4096)).map (fun p => val p.2 p.1.1)
    let badw := words.flatMap (·.2)
    if fmt = 10 then
      let rows := (List.range 64).map (fun r => (xs.drop (64 * r)).take 64)
      let (ms, es, f) := accG8Rows (convRnd ctl) rows
      let (k, p1) := tsWrite k a ms
      let (k, p2) := tsWrite k b es
      afterBads (accFlags (setCore s c k) c (flagsNat f)) c (br ++ bc ++ badw ++ p1 ++ p2)
    else
      let cv := xs.map (convElem ctl)
      let f := cv.foldl (fun f x => flagsOr f x.2) {}
      let (k, p) := tsWrite k a (packElems (fmtBits fmt) (cv.map (·.1)))
      afterBads (accFlags (setCore s c k) c (flagsNat f)) c (br ++ bc ++ badw ++ p)

/-- ACC.ST. -/
def execAccSt (c : Fin 96) (k : Strike) (s : State) : Out := .next (accIssue 0x03 accStEff c k s)

/-- ACC.PUSH: the push is made, and enters the queue under R123. -/
def execAccPush (c : Fin 96) (k : Strike) (s : State) : Out :=
  .next (accIssue 0x04 (onCore fun r w =>
    ({ r with flight := r.flight ++ [⟨r.issued, bits w 53 49, false, true, false⟩], issued := r.issued + 1 },
     .next)) c k s)

/-! ### Statistics (R119 to R122) -/

/-- One column of a statistics set. -/
structure StatCol where
  K : Nat
  N : Nat
  S : Nat
  CS : Nat
  Q : Nat
  CQ : Nat
  deriving DecidableEq, Repr

/-- R119: word of row `row` of set `set`, column j, of tile t. -/
def statIdx (t set row j : Nat) : Nat := (64 * t + 6 * set + row) * 64 + j

/-- Column j of a set, with the uncorrectable units met. -/
def statRead (k : Core) (t set j : Nat) : StatCol × List Bad :=
  let f (r : Nat) := accRead k (statIdx t set r j)
  (⟨(f 0).1, (f 1).1, (f 2).1, (f 3).1, (f 4).1, (f 5).1⟩,
   (f 0).2 ++ (f 1).2 ++ (f 2).2 ++ (f 3).2 ++ (f 4).2 ++ (f 5).2)

/-- The words of a column. -/
def statWords (t set j : Nat) (x : StatCol) : List (Nat × Nat) :=
  [(statIdx t set 0 j, x.K), (statIdx t set 1 j, x.N), (statIdx t set 2 j, x.S), (statIdx t set 3 j, x.CS),
   (statIdx t set 4 j, x.Q), (statIdx t set 5 j, x.CQ)]

/-- R120: one value folded into a column; the flag is STAT_SAT. -/
def statFold (x : StatCol) (v : Nat) : StatCol × Bool :=
  if x.N = 0xFFFF_FFFF then (x, true)
  else
    let K := if x.N = 0 then v else x.K
    let d := fsub v K
    let y := fsub d x.CS
    let t := fadd x.S y
    let cs := fsub (fsub t x.S) y
    let p := fmul d d
    let y2 := fsub p x.CQ
    let t2 := fadd x.Q y2
    let cq := fsub (fsub t2 x.Q) y2
    (⟨K, x.N + 1, t, cs, t2, cq⟩, false)

/-- All values of one column folded in row order. -/
def statFoldAll (x : StatCol) (vs : List Nat) : StatCol × Bool :=
  vs.foldl (fun r v => let y := statFold r.1 v; (y.1, r.2 || y.2)) (x, false)

/-- R120, R140: ACC.SADD. -/
def accSaddEff (s : State) (c w : Nat) : State × Flow :=
  let k := coreOf s c
  let t := bits w 53 49
  let set := bits w 48 45
  let src := bits w 43 39
  let fmt := bits w 34 31
  let rows := bits w 30 24
  let a := bits (xr k (bits w 38 35)) 21 0
  if tileMode k t ≠ 3 ∨ (¬ bit w 44 ∧ tileMode k src ≠ 0) then (s, .fault 0x09 0x03 0)
  else if bit w 44 ∧ ¬ operandFits a (tileBytes fmt) then (s, badAddress)
  else
    let (bs, bad0) := if bit w 44 then tsRead k a (rows * (tileBytes fmt / 64)) else ([], [])
    let es := (elemsOf bs (fmtBits fmt)).toArray
    let srcVal (r j : Nat) : Nat × List Bad :=
      if bit w 44 then
        (if fmtInt fmt then enc32 (numOfInt (intElem fmt (es.getD (64 * r + j) 0)))
         else loadElem fmt (es.getD (64 * r + j) 0), [])
      else accRead k ((64 * src + r) * 64 + j)
    let (ws, sat, bads) := (List.range 64).foldl (fun (o : List (Nat × Nat) × Bool × List Bad) j =>
      let vs := (List.range rows).map (fun r => srcVal r j)
      let (x, b) := statRead k t set j
      let (y, sat) := statFoldAll x (vs.map (·.1))
      (o.1 ++ statWords t set j y, o.2.1 || sat, o.2.2 ++ b ++ vs.flatMap (·.2))) ([], false, bad0)
    let (k, part) := accPut k ws
    let s := setCore s c k
    afterBads (if sat then accFlags s c 32 else s) c (bads ++ part)

/-- ACC.SADD. -/
def execAccSadd (c : Fin 96) (k : Strike) (s : State) : Out := .next (accIssue 0x05 accSaddEff c k s)

/-- R122: one column of the source merged into one of the target; the flag is STAT_SAT. -/
def statMerge (g x : StatCol) : StatCol × Bool :=
  if x.N = 0 then (g, false)
  else if g.N = 0 then (x, false)
  else
    let n := enc32 (numOfInt x.N)
    let d := fsub x.K g.K
    let st := fsub g.S g.CS
    let ss := fsub x.S x.CS
    let qt := fsub g.Q g.CQ
    let qs := fsub x.Q x.CQ
    let S := fadd (fadd st ss) (fmul n d)
    let Q := fadd (fadd (fadd qt qs) (fmul (fmul 0x4000_0000 d) ss)) (fmul (fmul n d) d)
    (⟨g.K, min (g.N + x.N) 0xFFFF_FFFF, S, 0, Q, 0⟩, decide (0xFFFF_FFFF < g.N + x.N))

/-- R122, R140: ACC.SMRG. -/
def accSmrgEff (s : State) (c w : Nat) : State × Flow :=
  let k := coreOf s c
  let t := bits w 53 49
  let src := bits w 44 40
  if tileMode k t ≠ 3 ∨ tileMode k src ≠ 3 then (s, .fault 0x09 0x03 0)
  else
    let (ws, sat, bads) := (List.range 64).foldl (fun (o : List (Nat × Nat) × Bool × List Bad) j =>
      let (g, b1) := statRead k t (bits w 48 45) j
      let (x, b2) := statRead k src (bits w 39 36) j
      let (y, sat) := statMerge g x
      (o.1 ++ statWords t (bits w 48 45) j y, o.2.1 || sat, o.2.2 ++ b1 ++ b2)) ([], false, [])
    let (k, part) := accPut k ws
    let s := setCore s c k
    afterBads (if sat then accFlags s c 32 else s) c (bads ++ part)

/-- ACC.SMRG. -/
def execAccSmrg (c : Fin 96) (k : Strike) (s : State) : Out := .next (accIssue 0x06 accSmrgEff c k s)

/-- R121: the mean and variance of one column. -/
def statFinish (x : StatCol) (sample : Bool) : Nat × Nat :=
  let n := enc32 (numOfInt x.N)
  let sc := fsub x.S x.CS
  let q := fsub x.Q x.CQ
  if x.N = 0 then (nan32, nan32)
  else
    let m := fdiv sc n
    let mean := fadd x.K m
    let t := ffma (fsub 0x8000_0000 sc) m q
    let t := if numLt (dec32 t) (dec32 0) then 0 else t
    let den := if sample then fsub n 0x3F80_0000 else n
    (mean, if numEq (dec32 den) (dec32 0) then nan32 else fdiv t den)

/-- R121, R140: ACC.SFIN. -/
def accSfinEff (s : State) (c w : Nat) : State × Flow :=
  let k := coreOf s c
  let t := bits w 53 49
  if tileMode k t ≠ 3 then (s, .fault 0x09 0x03 0)
  else
    let cols := (List.range 64).map (fun j => (j, statRead k t (bits w 48 45) j))
    let out := cols.map (fun p => (p.1, statFinish p.2.1 (bit w 34)))
    let (k, p1) := vPut k (bits w 44 40) (out.map (fun p => (p.1, p.2.1)))
    let (k, p2) := vPut k (bits w 39 35) (out.map (fun p => (p.1, p.2.2)))
    afterBads (setCore s c k) c (cols.flatMap (·.2.2) ++ p1 ++ p2)

/-- ACC.SFIN. -/
def execAccSfin (c : Fin 96) (k : Strike) (s : State) : Out := .next (accIssue 0x07 accSfinEff c k s)

end Sys2Proof.Machine
end

