-- ==== Sys2Proof/Machine/Stacks.lean ====
section
/-! DEFINITION. The stacks and their controllers (R145 to R180): where a frame byte or a granule lies, line
and granule accesses with their error outcomes, refresh, temperature, scrub, and the controllers' commands.
Stack numbers 0 to 11 are F0 to F11 and 12 to 19 are D0 to D7. -/

namespace Sys2Proof.Machine

/-! ### Registers and records -/

def stkOf (s : State) (i : Nat) : Stk := smGet {} s.stks i

def setStk (s : State) (i : Nat) (k : Stk) : State := { s with stks := smSet {} s.stks i k }

/-- R178, R179: a controller register at an offset both kinds share. -/
def stkReg (i off : Nat) : Nat :=
  (if i < 12 then 0x200_0000 + i * 0x10_0000 else 0x300_0000 + (i - 12) * 0x10_0000) + off

/-- R451: a stack controller's event source. -/
def stkSrc (i : Nat) : Nat := 56 + i

/-- Commit index of a stack. -/
def stkIdx (i : Nat) : Nat := 4 + i

/-- FSC_STAT or DSC_STAT bits. -/
def stkReady (s : State) (i : Nat) : Bool := flag s (stkReg i 0x08) 0

def stkInitDone (s : State) (i : Nat) : Bool := flag s (stkReg i 0x08) 3

/-- The controller accepts requests: clocked, out of reset, not quiesced or off, READY and initialised. -/
def stkOpen (s : State) (i : Nat) : Bool := works s (stkIdx i) && stkReady s i && stkInitDone s i

/-- POSTPONE_MAX (R152). -/
def postponeMax (s : State) (i : Nat) : Nat := fld s (stkReg i 0x14) 3 0

/-! ### Where data lies -/

/-- A place in a fast stack: stack, channel and 31-bit channel address. -/
structure Loc where
  stack : Nat
  ch : Nat
  a : Nat
  deriving DecidableEq, Repr

/-- R167: byte o of BANKED frame f of stack s. -/
def bankedLoc (st f o : Nat) : Loc :=
  let n := o / 256
  ⟨st, 32 * (n % 2) + bits n 5 1, f * 4096 + bits n 9 6 * 256 + o % 256⟩

/-- R168: byte o of STRIPED frame F. -/
def stripedLoc (f o : Nat) : Loc :=
  let u := f * 1024 + o / 256
  let g := u % 768
  let m := g % 64
  ⟨g / 64, 32 * (m % 2) + bits m 5 1, u / 768 * 256 + o % 256⟩

/-- R169: row, bank and column of a fast channel address. -/
def fastRow (a : Nat) : Nat := bits a 30 16

def fastBank (a : Nat) : Nat := bits a 15 11 ^^^ bits (fastRow a) 4 0

def fastCol (a : Nat) : Nat := bits a 10 0

/-- R169: the BANKED frame that row r of bank b belongs to. -/
def rowFrame (r b : Nat) : Nat := r * 16 + (b ^^^ bits r 4 0) / 2

/-- R171: stack, channel, row, bank and column of a deep granule address. -/
def dgaStack (g : Nat) : Nat := bits g 33 31

def dgaChannel (g : Nat) : Nat := bits g 4 0

def dgaByte (g : Nat) : Nat := bits g 30 5 * 512

def dgaRow (g : Nat) : Nat := bits (dgaByte g) 34 18

def dgaBank (g : Nat) : Nat := bits (dgaByte g) 17 12 ^^^ bits (dgaByte g) 23 18

def dgaCol (g : Nat) : Nat := bits (dgaByte g) 11 0

/-- Key of a fast byte. -/
def fastKey (l : Loc) : Nat := l.stack * 2 ^ 37 + l.ch * 2 ^ 31 + l.a

/-- Key of a fast line. -/
def lineKey (l : Loc) : Nat := fastKey l / 64

/-- R165: the location word. -/
def locWord (stack ch bank row col : Nat) : Nat :=
  stack <<< 60 + ch <<< 48 + bank <<< 40 + row <<< 16 + col

/-- The location word of a fast line: its home channel, and the column of its first byte. -/
def fastLocWord (l : Loc) : Nat :=
  locWord l.stack l.ch (fastBank l.a) (fastRow l.a) (fastCol l.a / 64 * 64)

/-- The location word of a granule. STACK is the number within its tier. -/
def deepLocWord (g : Nat) : Nat := locWord (dgaStack g) (dgaChannel g) (dgaBank g) (dgaRow g) (dgaCol g)

/-! ### Error outcomes -/

/-- R164: capture of an uncorrectable outcome. -/
def stkCapture (s : State) (i kind loc : Nat) : State :=
  let a := stkReg i 0x3C
  if flag s a 31 then setFld s a 7 0 (min 255 (fld s a 7 0 + 1))
  else wr (wr s a (1 <<< 31 + kind <<< 28)) (stkReg i 0x40) loc

/-- R162: a correction found in a row; the table replaces the entry whose last correction is oldest. -/
def rowCorrect (s : State) (i ch bank row : Nat) : State :=
  let k := stkOf s i
  let same (e : RowEnt) : Bool := e.channel == ch && e.bank == bank && e.row == row
  let old := (k.rowlog.find? same).getD ⟨ch, bank, row, 0, false⟩
  let rest := k.rowlog.filter (fun e => !same e)
  let rest := if 64 ≤ rest.length then rest.drop 1 else rest
  let lim := fld s (stkReg i 0x1C) 7 0
  let n := old.count + 1
  let hit := decide (lim ≠ 0) && !old.reported && decide (lim ≤ n)
  let s := setStk s i { k with rowlog := rest ++ [⟨ch, bank, row, n, old.reported || hit⟩] }
  if hit then raise s (stkSrc i) 0x03 (locWord (i % 12) ch bank row 0) n else s

/-- Data bytes read and written are counted (R178). -/
def countRead (s : State) (i n : Nat) : State := bumpStat s (stkReg i 0x48) n (some (stkIdx i))

def countWritten (s : State) (i n : Nat) : State := bumpStat s (stkReg i 0x50) n (some (stkIdx i))

/-- R147: the row an access leaves open. -/
def openRowAt (s : State) (i ch bank row : Nat) : State :=
  let k := stkOf s i
  setStk s i { k with openRow := smSet 0 k.openRow (ch * 64 + bank) (row + 1) }

/-- What one access to memory gave: the state after it, its status, the place of the failing line or
granule, and the bytes read. -/
structure Hit where
  s : State
  st : Nat := 0
  loc : Nat := 0
  data : Bytes := []

/-- R157, R158, R160: the decode of a fast line, with its counters, write-back, poisoning, capture and event.
Answers the status. -/
def lineDecode (s : State) (l : Loc) (kind : Nat) : State × Nat :=
  let i := l.stack
  let s := countRead (openRowAt s i (l.ch % 32) (fastBank l.a) (fastRow l.a)) i 64
  match smGet none s.fastMark (lineKey l) with
  | none => (s, 0)
  | some .poison => (bumpOcc s (stkReg i 0x34) 1, 0x03)
  | some (.errs n) =>
    if n ≤ 3 then
      let s := bumpOcc { s with fastMark := smSet none s.fastMark (lineKey l) none } (stkReg i 0x28) 1
      (rowCorrect (countWritten s i 64) i (l.ch % 32) (fastBank l.a) (fastRow l.a), 0)
    else
      let s := bumpOcc { s with fastMark := smSet none s.fastMark (lineKey l) (some .poison) } (stkReg i 0x30) 1
      let s := stkCapture (countWritten s i 64) i kind (fastLocWord l)
      (raise s (stkSrc i) 0x01 (fastLocWord l) kind, 0x02)

/-- `n` bytes of one line read. -/
def lineRead (s : State) (l : Loc) (n kind : Nat) : Hit :=
  match lineDecode s l kind with
  | (s, 0) => { s := s, data := memRead s.fast (fastKey l) n }
  | (s, st) => { s := s, st := st, loc := fastLocWord l, data := List.replicate n 0 }

/-- R149, R159: bytes written within one line: a whole line ends its poisoning; part of one is a
read-modify-write that fails on an unreadable line. -/
def lineWrite (s : State) (l : Loc) (bs : Bytes) : Hit :=
  let i := l.stack
  let put (s : State) : Hit :=
    { s := countWritten { s with fast := memWrite s.fast (fastKey l) bs } i 64 }
  if bs.length = 64 then
    let s := openRowAt s i (l.ch % 32) (fastBank l.a) (fastRow l.a)
    put { s with fastMark := smSet none s.fastMark (lineKey l) none }
  else
    match lineDecode s l 0x3 with
    | (s, 0) => put s
    | (s, st) => { s := s, st := st, loc := fastLocWord l }

/-- R157, R158, R160: the decode of a granule. -/
def granDecode (s : State) (g kind : Nat) : State × Nat :=
  let i := 12 + dgaStack g
  let s := countRead (openRowAt s i (dgaChannel g) (dgaBank g) (dgaRow g)) i 512
  match smGet none s.deepMark g with
  | none => (s, 0)
  | some .poison => (bumpOcc s (stkReg i 0x34) 1, 0x03)
  | some (.errs n) =>
    if n ≤ 7 then
      let s := bumpOcc { s with deepMark := smSet none s.deepMark g none } (stkReg i 0x28) 1
      (rowCorrect (countWritten s i 512) i (dgaChannel g) (dgaBank g) (dgaRow g), 0)
    else
      let s := bumpOcc { s with deepMark := smSet none s.deepMark g (some .poison) } (stkReg i 0x30) 1
      let s := stkCapture (countWritten s i 512) i kind (deepLocWord g)
      (raise s (stkSrc i) 0x02 (deepLocWord g) (g <<< 16 + kind), 0x02)

/-- A granule read. -/
def granRead (s : State) (g : Nat) : Hit :=
  match granDecode s g 0x1 with
  | (s, 0) => { s := s, data := memRead s.deep (g * 512) 512 }
  | (s, st) => { s := s, st := st, loc := deepLocWord g, data := List.replicate 512 0 }

/-- R159: a whole granule written. -/
def granWrite (s : State) (g : Nat) (bs : Bytes) : State :=
  let i := 12 + dgaStack g
  let s := openRowAt s i (dgaChannel g) (dgaBank g) (dgaRow g)
  countWritten { s with deep := memWrite s.deep (g * 512) (bytesAt bs 0 512),
                        deepMark := smSet none s.deepMark g none } i 512

/-- `n` consecutive granules read; the first failure is reported and every granule is read. -/
def gransRead (s : State) (g : Nat) : Nat → Hit
  | 0 => { s := s }
  | n + 1 =>
    let h := granRead s g
    let t := gransRead h.s (g + 1) n
    { s := t.s, st := if h.st ≠ 0 then h.st else t.st, loc := if h.st ≠ 0 then h.loc else t.loc,
      data := h.data ++ t.data }

/-- Consecutive granules written. -/
def gransWrite (s : State) (g : Nat) : Nat → Bytes → State
  | 0, _ => s
  | n + 1, bs => gransWrite (granWrite s g bs) (g + 1) n (bs.drop 512)

/-! ### Frames -/

/-- A frame: layout and stack as an entry names it, and its number (R184). -/
structure Frame where
  banked : Bool
  stack : Nat
  num : Nat
  deriving DecidableEq, Repr

/-- P, the active STRIPED_FRAMES of a fast stack (R166). -/
def stripedFrames (s : State) (i : Nat) : Nat := fld s (Csr.FSC_LAYOUT i) 19 0

/-- Where byte o of a frame lies. -/
def frameLoc (f : Frame) (o : Nat) : Loc :=
  if f.banked then bankedLoc f.stack f.num o else stripedLoc f.num o

/-- R166: the controller's own check of a part of an access. -/
def locFits (s : State) (f : Frame) (l : Loc) : Bool :=
  if f.banked then decide (stripedFrames s l.stack ≤ f.num) && decide (f.num < 524288)
  else decide (l.a < stripedFrames s l.stack * 4096)

/-- The pieces [offset, offset + length) of an access, each within one line. -/
def linePieces (o n : Nat) : List (Nat × Nat) :=
  if n = 0 then [] else
  (countUp (o / 64) ((o + n - 1) / 64 + 1 - o / 64)).map fun k =>
    (max o (k * 64), min (o + n) (k * 64 + 64) - max o (k * 64))

/-- Bytes of a frame read piece by piece. -/
def frameReadAt (s : State) (f : Frame) (kind : Nat) : List (Nat × Nat) → Hit
  | [] => { s := s }
  | (o, n) :: ps =>
    let l := frameLoc f o
    let h : Hit := if locFits s f l then lineRead s l n kind else { s := s, st := 0x0A, data := List.replicate n 0 }
    let t := frameReadAt h.s f kind ps
    let w := worse h.st t.st
    { s := t.s, st := w, loc := if h.loc ≠ 0 then h.loc else t.loc, data := h.data ++ t.data }

/-- `n` bytes of a frame from offset o. -/
def frameRead (s : State) (f : Frame) (o n : Nat) : Hit := frameReadAt s f 0x1 (linePieces o n)

/-- The same read by a near-bank unit (KIND 0b011, R177). -/
def frameReadNbu (s : State) (f : Frame) (o n : Nat) : Hit := frameReadAt s f 0x3 (linePieces o n)

/-- Bytes of a frame written piece by piece. -/
def frameWriteAt (s : State) (f : Frame) : List (Nat × Nat) → Bytes → Hit
  | [], _ => { s := s }
  | (o, n) :: ps, bs =>
    let l := frameLoc f o
    let h : Hit := if locFits s f l then lineWrite s l (bytesAt bs 0 n) else { s := s, st := 0x0A }
    let t := frameWriteAt h.s f ps (bs.drop n)
    { s := t.s, st := worse h.st t.st, loc := if h.loc ≠ 0 then h.loc else t.loc }

/-- Bytes written at offset o of a frame. -/
def frameWrite (s : State) (f : Frame) (o : Nat) (bs : Bytes) : Hit :=
  frameWriteAt s f (linePieces o bs.length) bs

/-- The stacks that an access to a frame touches. -/
def frameStacks (f : Frame) (o n : Nat) : List Nat :=
  if f.banked then [f.stack]
  else (countUp (o / 256) ((o + n - 1) / 256 + 1 - o / 256)).map (fun u => (stripedLoc f.num (u * 256)).stack)

/-- Every stack that an access touches accepts requests. -/
def frameOpen (s : State) (f : Frame) (o n : Nat) : Bool := (frameStacks f o n).all (fun i => stkOpen s i)

/-! ### Requests to a controller (R148, R174, R180) -/

/-- Requests held by backpressure are accepted, oldest first; a deep controller holds at most 128. -/
def acceptGrans (now room : Nat) : List (GranReq × Option Nat) → List (GranReq × Option Nat)
  | [] => []
  | (r, some t) :: q => (r, some t) :: acceptGrans now room q
  | (r, none) :: q =>
    match room with
    | 0 => (r, none) :: acceptGrans now 0 q
    | m + 1 => (r, some now) :: acceptGrans now m q

/-- R180: granule requests accepted and not complete. -/
def acceptedGrans (k : Stk) : Nat := (k.grans.filter (fun g => g.2.isSome)).length

/-- An open controller accepts what it holds. -/
def stkAccept (s : State) (i : Nat) : State :=
  if stkOpen s i then
    let k := stkOf s i
    setStk s i { k with lines := k.lines.map (fun r => (r.1, true)),
                        grans := acceptGrans s.stamp (128 - acceptedGrans k) k.grans }
  else s

/-- The answer of the last command. -/
def answer (s : State) (who st : Nat) (data : Bytes) : State :=
  { s with answers := s.answers ++ [⟨who, st, data⟩] }

/-- The place a line request names. -/
def reqLoc (i : Nat) (r : LineReq) : Loc := ⟨i, r.channel, r.chaddr⟩

/-- R148: a line request is queued; it names bytes of one line. -/
def execFastLineRequest (f : Fin 12) (r : LineReq) (s : State) : Out :=
  let s := { s with answers := [] }
  if r.chaddr < 2 ^ 31 ∧ 1 ≤ r.len ∧ r.chaddr % 64 + r.len ≤ 64 then
    let k := stkOf s f
    .next (stkAccept (setStk s f { k with lines := k.lines ++ [(r, false)] }) f)
  else .next s

/-- A line request performed. -/
def lineServe (s : State) (i : Nat) (r : LineReq) : State :=
  if r.write then
    let h := lineWrite s (reqLoc i r) (bytesAt r.data 0 r.len)
    answer h.s r.initiator h.st []
  else
    let h := lineRead s (reqLoc i r) r.len 0x1
    answer h.s r.initiator h.st (if h.st = 0 then h.data else [])

/-- New symbol errors found in a stored word. -/
def addErrs (m : Option Mark) (n : Nat) : Option Mark :=
  if n = 0 then m else
  match m with
  | some .poison => some (.errs 255)
  | some (.errs k) => some (.errs (k + n))
  | none => some (.errs n)

/-- Symbol errors that a fast line holds when it is next read. -/
def strikeLine (s : State) (key n : Nat) : State :=
  { s with fastMark := smSet none s.fastMark key (addErrs (smGet none s.fastMark key) n) }

/-- Symbol errors that a granule holds when it is next read. -/
def strikeGran (s : State) (g n : Nat) : State :=
  { s with deepMark := smSet none s.deepMark g (addErrs (smGet none s.deepMark g) n) }

/-- R152, R222: a bank is blocked for a new activation, or held by a burst. -/
def bankBlocked (s : State) (i ch bank row : Nat) : Bool :=
  let k := stkOf s i
  (decide (smGet 0 k.openRow (ch * 64 + bank) ≠ row + 1) &&
    decide ((postponeMax s i : Int) ≤ smGet 0 k.owed (ch * 64 + bank))) ||
  (k.bursts.any (fun b => b.1 == ch / 8 && b.2.contains bank) && decide (i < 12))

/-- An accepted request in flight may complete: the stack is clocked and out of reset. -/
def stkRuns (s : State) (i : Nat) : Bool :=
  awake s && !inResetBit s (stkIdx i) && !domainOff s (stkIdx i) && stkReady s i

/-- R24, R148: request n is accepted, no older request of its initiator to its line waits, and its bank is
free. -/
def execFastAccessDone (f : Fin 12) (n : Nat) (symErrors onDie : Nat) (s : State) : Out :=
  let s := { s with answers := [] }
  let k := stkOf s f
  match k.lines[n]? with
  | some (r, true) =>
    let l := reqLoc f r
    if !stkRuns s f ||
        (k.lines.take n).any (fun q => q.1.initiator = r.initiator && lineKey (reqLoc f q.1) = lineKey l) ||
        bankBlocked s f (l.ch % 32) (fastBank l.a) (fastRow l.a) then .next s
    else
      let s := setStk s f { k with lines := k.lines.take n ++ k.lines.drop (n + 1) }
      .next (lineServe (bumpOcc (strikeLine s (lineKey l) symErrors) (stkReg f 0x2C) onDie) f r)
  | _ => .next s

/-- R180: the granule request is in range, or fails at once. -/
def granReqOk (d : Nat) (r : GranReq) : Bool :=
  decide (r.dga < 2 ^ 34) && decide (dgaStack r.dga = d) && decide (1 ≤ r.count) && decide (r.count ≤ 8)
    && decide (bits r.dga 30 0 + r.count ≤ 2 ^ 31)

/-- Requester number of the placement engine in answers. -/
def plcUnit : Nat := 0

/-- R150, R180: a granule request reaches a deep controller. -/
def execDeepGranuleRequest (d : Fin 8) (r : GranReq) (s : State) : Out :=
  let s := { s with answers := [] }
  if granReqOk d r then
    let k := stkOf s (12 + d)
    .next (stkAccept (setStk s (12 + d) { k with grans := k.grans ++ [(r, none)] }) (12 + d))
  else .next (answer s plcUnit 0x0A [])

/-- A granule request performed. -/
def granServe (s : State) (r : GranReq) : State :=
  if r.write then answer (gransWrite s r.dga r.count r.data) plcUnit 0 []
  else
    let h := gransRead s r.dga r.count
    answer h.s plcUnit h.st (if h.st = 0 then h.data else [])

/-- The request at place n of a deep queue removed. -/
def dropGran (s : State) (i n : Nat) : State :=
  let k := stkOf s i
  stkAccept (setStk s i { k with grans := k.grans.take n ++ k.grans.drop (n + 1) }) i

/-- R157: request n of a deep controller completes. -/
def execDeepAccessDone (d : Fin 8) (n : Nat) (symErrors : List Nat) (onDie : Nat) (s : State) : Out :=
  let s := { s with answers := [] }
  match (stkOf s (12 + d)).grans[n]? with
  | some (r, some _) =>
    if !stkRuns s (12 + d) ||
        bankBlocked s (12 + d) (dgaChannel r.dga) (dgaBank r.dga) (dgaRow r.dga) then .next s
    else
      let s := ((countUp r.dga r.count).zip symErrors).foldl (fun s x => strikeGran s x.1 x.2) s
      .next (granServe (dropGran (bumpOcc s (stkReg (12 + d) 0x2C) onDie) (12 + d) n) r)
  | _ => .next s

/-! ### Refresh (R151, R152) -/

/-- The named bank exists: a pair's of a fast stack, a channel's of a deep one. -/
def bankExists (i ch bank : Nat) : Bool := decide (ch < 32) && decide (bank < (if i < 12 then 32 else 64))

/-- R152, R224: a tREFI passes for a bank; reaching POSTPONE_MAX counts and pre-empts a burst that holds the
bank. -/
def execRefreshInterval (i : Fin 20) (channel bank : Nat) (s : State) : Out :=
  if bankExists i channel bank ∧ stkRuns s i then
    let k := stkOf s i
    let o := smGet 0 k.owed (channel * 64 + bank) + 1
    let lim := (postponeMax s i : Int)
    let held := (k.bursts.filter (fun b => b.1 = channel / 8 ∧ b.2.contains bank ∧ i < 12)).map (·.1)
    let k := { k with owed := smSet 0 k.owed (channel * 64 + bank) o,
                      hotRate := decide (85 ≤ fld s (stkReg i 0x0C) 7 0),
                      preempt := if lim ≤ o then k.preempt ++ held.filter (fun u => !k.preempt.contains u)
                                 else k.preempt }
    let s := setStk s i k
    .next (if o = lim then bumpOcc s (stkReg i 0x38) 1 else s)
  else .next s

/-- R151: a bank that no burst holds is refreshed; its row closes. -/
def execBankRefresh (i : Fin 20) (channel bank : Nat) (s : State) : Out :=
  let k := stkOf s i
  let o := smGet 0 k.owed (channel * 64 + bank)
  if bankExists i channel bank ∧ stkRuns s i ∧ -8 < o ∧
      ¬ (i.val < 12 ∧ k.bursts.any (fun b => b.1 == channel / 8 && b.2.contains bank)) then
    .next (setStk s i { k with owed := smSet 0 k.owed (channel * 64 + bank) (o - 1),
                               openRow := smSet 0 k.openRow (channel * 64 + bank) 0 })
  else .next s

/-! ### Temperature (R153) -/

/-- R153: a temperature report. -/
def execStackTempSample (i : Fin 20) (celsius : Byte) (s : State) : Out :=
  if awake s ∧ ¬ inResetBit s (stkIdx i) then
    let t := celsius.toNat
    let lim := fld s (stkReg i 0x14) 15 8
    let s := wr s (stkReg i 0x0C) t
    let hot := flag s (stkReg i 0x08) 4
    .next (if ¬ hot ∧ lim ≤ t then raise (setFlag s (stkReg i 0x08) 4 true) (stkSrc i) 0x04 t lim
      else if hot ∧ t + 5 ≤ lim then setFlag s (stkReg i 0x08) 4 false else s)
  else .next s

/-! ### Scrub (R161) -/

/-- The channels whose word at the scrub index is worth reading: the rest decode clean. -/
def scrubReads (s : State) (i idx : Nat) (syms : List (Nat × Nat)) : State :=
  if i < 12 then
    (countUp 0 64).foldl (fun s ch =>
      let l : Loc := ⟨i, ch, idx * 64⟩
      let n := ((syms.find? (fun e => e.1 = ch)).map (·.2)).getD 0
      (lineDecode (strikeLine s (lineKey l) n) l 0x2).1) s
  else
    (countUp 0 32).foldl (fun s ch =>
      let g := (i - 12) * 2 ^ 31 + idx * 32 + ch
      let n := ((syms.find? (fun e => e.1 = ch)).map (·.2)).getD 0
      (granDecode (strikeGran s g n) g 0x2).1) s

/-- R161: one scrub step. A poisoned word read here counts in POISON_RD and gives no event. -/
def execScrubStep (i : Fin 20) (symErrors : List (Nat × Nat)) (onDie : Nat) (s : State) : Out :=
  if flag s (stkReg i 0x04) 1 ∧ stkOpen s i then
    let pos := rd s (stkReg i 0x20)
    let idx := bits pos 25 0
    let s := bumpOcc (scrubReads s i idx symErrors) (stkReg i 0x2C) onDie
    let last := if i.val < 12 then 33554431 else 67108863
    if last ≤ idx then
      let p := (bits pos 63 32 + 1) % 2 ^ 32
      .next (raise (wr s (stkReg i 0x20) (p <<< 32)) (stkSrc i) 0x06 p 0)
    else .next (wr s (stkReg i 0x20) (pos + 1))
  else .next s

/-! ### Register effects (R162, R164) -/

/-- R162: ROWLOG_CLR empties the row table. -/
def rowlogClrEff (s : State) (i : Nat) : State := setStk s i { stkOf s i with rowlog := [] }

/-- R164: clearing VALID clears EXTRA. -/
def errClearEff (s : State) (i : Nat) : State :=
  setFld (setFlag s (stkReg i 0x3C) 31 false) (stkReg i 0x3C) 7 0 0

/-! ### Initialisation, self-refresh and reset (R172 to R175) -/

/-- R172: a stack's contents after a cold reset are zeros; the end of initialisation says so. -/
def execStackInitDone (i : Fin 20) (s : State) : Out :=
  let k := stkOf s i
  if k.cold ∧ awake s ∧ ¬ inResetBit s (stkIdx i) ∧ stkReady s i then
    let s := setFlag (setStk s i { k with cold := false }) (stkReg i 0x08) 3 true
    .next (stkAccept (raise s (stkSrc i) 0x05 0 0) i)
  else .next s

/-- R172, R174: READY sets after a reset's exit; contents kept by the reset are still initialised. -/
def execControllerReady (i : Fin 20) (s : State) : Out :=
  let k := stkOf s i
  if awake s ∧ ¬ inResetBit s (stkIdx i) ∧ ¬ stkReady s i ∧ ¬ k.powerSr ∧ ¬ domainOff s (stkIdx i) then
    let s := setFlag (setFlag s (stkReg i 0x08) 0 true) (stkReg i 0x08) 2 false
    .next (stkAccept (if k.cold then s else setFlag s (stkReg i 0x08) 3 true) i)
  else .next s

/-- R175: self-refresh entry for a power state. -/
def stkSelfRefresh (s : State) (i : Nat) : State :=
  if stkReady s i then
    let k := stkOf s i
    let s := setStk s i { k with powerSr := true, openRow := [] }
    setFlag (setFlag s (stkReg i 0x08) 2 true) (stkReg i 0x08) 0 false
  else s

/-- A stack leaves a power state's self-refresh. -/
def stkWake (s : State) (i : Nat) : State :=
  let k := stkOf s i
  if k.powerSr then
    let s := setStk s i { k with powerSr := false }
    stkAccept (setFlag (setFlag s (stkReg i 0x08) 2 false) (stkReg i 0x08) 0 true) i
  else s

/-- R175: the first request that reaches a stack in a power state's self-refresh brings it out. -/
def execSelfRefreshExit (i : Fin 20) (s : State) : Out :=
  if awake s ∧ ¬ inResetBit s (stkIdx i) ∧ ¬ domainOff s (stkIdx i) then .next (stkWake s i) else .next s

/-- R173, R174: a reset reaches a stack controller. Accepted writes complete, other accepted requests end
with ABORTED_RESET, requests held by backpressure stay held; a cold reset loses the contents. The registers
are reset apart. -/
def stkReset (s : State) (i : Nat) (cold : Bool) : State :=
  let k := stkOf s i
  let s := k.lines.foldl (fun s r =>
    if r.2 then (if r.1.write then lineServe s i r.1 else answer s r.1.initiator 0x08 []) else s) s
  let s := k.grans.foldl (fun s r =>
    if r.2.isSome then (if r.1.write then granServe s r.1 else answer s plcUnit 0x08 []) else s) s
  let s := setStk s i { cold := k.cold || cold, lines := k.lines.filter (fun r => !r.2),
                        grans := k.grans.filter (fun r => r.2.isNone) }
  if cold then
    if i < 12 then
      { s with fast := s.fast.filter (fun c => c.1 / 2 ^ 37 ≠ i),
               fastMark := s.fastMark.filter (fun m => m.1 / 2 ^ 31 ≠ i) }
    else
      { s with deep := s.deep.filter (fun c => c.1 / 2 ^ 40 ≠ i - 12),
               deepMark := s.deepMark.filter (fun m => m.1 / 2 ^ 31 ≠ i - 12) }
  else s

end Sys2Proof.Machine
end

