-- ==== Sys2Proof/Machine/Link.lean ====
section
/-! DEFINITION. The link layer of Sargil and Raline (R345 to R357, R374, R375, R417 to R419): states, flits, retry,
credits, and the hellos of a link (R372, R373). -/

namespace Sys2Proof.Machine

def linkOf (s : State) (l : Nat) : Link := smGet {} s.links l
def setLink (s : State) (l : Nat) (v : Link) : State := { s with links := smSet {} s.links l v }

/-- Link 24 is the Raline link. -/
def isHost (l : Nat) : Bool := decide (l = 24)

/-- Commit index of the block that drives a link (R40). -/
def linkIdx (l : Nat) : Nat := if isHost l then 39 else 26 + l / 2

/-- R451: event source of that block. -/
def linkSrc (l : Nat) : Nat := if isHost l then 80 else 82 + l / 2

/-- The block is clocked and out of reset. -/
def linkPowered (s : State) (l : Nat) : Bool := awake s && !inResetBit s (linkIdx l)

/-- FAB_PORT_CFG.SPLIT of the link's port. -/
def linkSplit (s : State) (l : Nat) : Bool := flag s (Csr.FAB_PORT_CFG (l / 2)) 0

/-- R345: the link exists. -/
def linkExists (s : State) (l : Nat) : Bool := isHost l || decide (l % 2 = 0) || linkSplit s l

/-- FAB_LINK_CTRL.ENABLE or HLK_CTRL.ENABLE. -/
def linkEnabled (s : State) (l : Nat) : Bool :=
  if isHost l then flag s Csr.HLK_CTRL 0 else flag s (Csr.FAB_LINK_CTRL (l / 2) (l % 2)) 0

/-- AUTO_RETRAIN of the link. -/
def linkAuto (s : State) (l : Nat) : Bool :=
  if isHost l then flag s Csr.HLK_CTRL 1 else flag s (Csr.FAB_PORT_CFG (l / 2)) 1

/-- The link carries DATA flits (R348, R419). -/
def linkOpen (v : Link) : Bool := decide (v.st = .hello) || decide (v.st = .up)

/-- FAB_LINK_STAT or HLK_LINK_STAT. -/
def linkStat (l : Nat) (v : Link) : Nat :=
  v.width <<< 8 + (match v.st with
    | .off => 0 | .training => 1 | .init => 2 | .hello => 3
    | .up => if isHost l then 3 else 4
    | .down => if isHost l then 4 else 5)

/-- R355, R418: receive buffers of a VC and class. -/
def rxCap (s : State) (l key : Nat) : Nat :=
  let vc := key / 2
  if isHost l then (if key % 2 = 1 then 0 else match vc with | 0 => 64 | 1 => 256 | 2 => 256 | _ => 16)
  else
    let full := match vc with | 0 => 128 | 1 => 256 | 2 => 256 | _ => 16
    if linkSplit s l then full / 2 else full

/-- R352, R417: flits of the replay buffer. -/
def replayCap (s : State) (l : Nat) : Nat := if isHost l || linkSplit s l then 512 else 1024

/-- R356: available credit of a VC and class. -/
def linkCredit (v : Link) (key : Nat) : Nat :=
  (smGet 0 v.crInit key + 4096 + smGet 0 v.crCum key - smGet 0 v.crSent key % 4096) % 4096

/-! ### Flits sent -/

/-- R356: the freed count a flit header carries: of the first VC and class that has one. -/
def creditField (v : Link) : Nat × Nat :=
  match v.rxFreed.getLast? with
  | some (k, n) => (k, n % 4096)
  | none => (0, 0)

/-- A flit goes out with the link's current ACK and credits (R353, R356). -/
def emit (s : State) (l : Nat) (f : Flit) : State :=
  let v := linkOf s l
  let (k, n) := creditField v
  setLink s l { v with lastTx := some { f with ack := (v.rxNext + 4095) % 4096, cvc := k / 2, chc := k % 2, credits := n } }

/-- R349: bytes of a message cut into flits of 244 payload bytes. -/
def flitsOf (vc hc : Nat) : Nat → Bool → Bytes → List Flit
  | 0, _, _ => []
  | n + 1, start, bs =>
    { ftype := 1, vc := vc, hc := hc, msgStart := start, msgEnd := decide (n = 0), payload := bytesAt bs 0 244 }
      :: flitsOf vc hc n false (bs.drop 244)

/-- A message waits on a link for its flits to be sent. -/
def linkQueue (s : State) (l vc hc : Nat) (bs : Bytes) : State :=
  let v := linkOf s l
  setLink s l { v with txq := v.txq ++ flitsOf vc hc (ceilDiv bs.length 244) true bs }

/-- R351: the payload of an INIT flit. -/
def initPayload (s : State) (l : Nat) : Bytes :=
  let v := linkOf s l
  bytesAt (toLE 1 2 ++ toLE v.width 1 ++ toLE (if v.seen then 1 else 0) 1
    ++ ((countUp 0 8).map (fun k => toLE (rxCap s l k) 2)).flatten ++ toLE (replayCap s l) 2) 0 244

/-- An INIT flit is sent. -/
def emitInit (s : State) (l : Nat) : State := emit s l { ftype := 4, payload := initPayload s l }

/-! ### Leaving HELLO and UP (R348, R370) -/

/-- R370: a dropped message is counted, and the first is captured with an event (R386). -/
def dropMsg (s : State) (reason dst src mtype : Nat) : State :=
  let s := bumpOcc s Csr.FABC_DROP 1
  if flag s Csr.FABC_DROP_CAP 63 then s
  else
    let c := 1 <<< 63 + dst <<< 48 + src <<< 36 + mtype <<< 32 + reason
    raise (wr s Csr.FABC_DROP_CAP c) 81 0x03 c 0

/-- DST, SRC and MTYPE of a message header. -/
def headDst (b : Bytes) : Nat := bits (fieldAt b 0 4) 27 16
def headSrc (b : Bytes) : Nat := bits (fieldAt b 0 4) 15 4
def headType (b : Bytes) : Nat := bits (fieldAt b 0 4) 31 28

/-- Messages with only some of their flits sent: those whose first waiting flit is no first flit. -/
def partSent (v : Link) : Nat :=
  ((countUp 0 8).filter (fun k =>
    match v.txq.find? (fun f => f.vc * 2 + f.hc = k) with | some f => !f.msgStart | none => false)).length

/-- A Sargil link leaves HELLO or UP: messages partly across are dropped. -/
def dropPartial (s : State) (l : Nat) (v : Link) : State :=
  if isHost l then s
  else
    let s := v.part.foldl (fun s x => match x.2 with
      | some b => dropMsg s 0x06 (headDst b) (headSrc b) (headType b)
      | none => s) s
    (countUp 0 (partSent v)).foldl (fun s _ => dropMsg s 0x06 0 0 0) s

/-- What stays of a link that stops: its hello buffer. -/
def linkIdle (v : Link) (st : LinkSt) : Link := { st := st, hello := v.hello, proof := v.proof }

/-- R427: the link leaves UP under an attached session. -/
def hostSuspend (s : State) : State :=
  if fld s Csr.HLK_SESSION 1 0 = 1 then setFld s Csr.HLK_SESSION 1 0 2 else s

/-- R348, R419: the link goes DOWN, or OFF, with a cause. -/
def linkStop (s : State) (l : Nat) (st : LinkSt) (cause : Nat) : State :=
  let v := linkOf s l
  let s := if linkOpen v then dropPartial s l v else s
  let s := setLink s l (linkIdle v st)
  if isHost l then
    let s := bumpOcc s Csr.HLK_LINK_DOWN 1
    let s := if v.st = .up then hostSuspend s else s
    raise s 80 0x02 cause (rd s Csr.HLK_JSEQ_ACK)
  else
    let p := l / 2
    let h := l % 2
    let s := setFlag (bumpOcc s (Csr.FAB_LINK_DOWN p h) 1) (Csr.FAB_LINK_CTRL p h) 1 false
    let s := { s with fabc := { s.fabc with proofs := s.fabc.proofs.filter (· ≠ l) } }
    raise s (linkSrc l) 0x02 (cause + l <<< 8) (rd s (Csr.FAB_LINK_PEER p h))

/-- R357: a protocol error. -/
def protoError (s : State) (l : Nat) : State := linkStop s l .down 0x03

/-- A link starts training. -/
def linkTrain (s : State) (l : Nat) : State := setLink s l (linkIdle (linkOf s l) .training)

/-- R348, R419: ENABLE as it is now acts on the link. -/
def linkEnableEff (s : State) (l : Nat) : State :=
  let v := linkOf s l
  if linkEnabled s l then (if v.st = .off ∧ linkExists s l then linkTrain s l else s)
  else if v.st = .off then s
  else linkStop s l .off 0x04

/-- R348: 1 written to RETRAIN. -/
def linkRetrainEff (s : State) (l : Nat) : State := if (linkOf s l).st = .down then linkTrain s l else s

/-! ### Hellos (R372, R373) -/

/-- R385: LINK_UP of a Sargil link. -/
def linkUpEvent (s : State) (l : Nat) : State :=
  let p := l / 2
  let h := l % 2
  raise s (linkSrc l) 0x01 (rd s (Csr.FAB_LINK_PEER p h))
    (fld s (Csr.FAB_LINK_PEER_INFO p h) 11 0 + l <<< 16 + (linkOf s l).width <<< 24)

/-- R348: ADMIT = 1 takes a link in HELLO to UP. -/
def linkAdmitEff (s : State) (l : Nat) : State :=
  let v := linkOf s l
  if v.st = .hello ∧ flag s (Csr.FAB_LINK_CTRL (l / 2) (l % 2)) 1 then linkUpEvent (setLink s l { v with st := .up }) l
  else s

/-- R348: 0 written to ADMIT of an UP link. -/
def linkRevokeEff (s : State) (l : Nat) : State := if (linkOf s l).st = .up then linkStop s l .down 0x06 else s

/-- R491, R492: the certificate chain a HELLO carries. -/
def chainBytes (s : State) : Bytes :=
  if flag s Csr.SEC_STAT 1 then
    bytesAt ((List.range 768).map (fun w => toLE (rd s (Csr.SEC_CHAIN w)) 4)).flatten 0 (fld s Csr.SEC_CHAIN_LEN 11 0)
  else [0]

/-- FABC_SELF.DEV, or 0xFFF while unassigned (R358). -/
def devId (s : State) : Nat := if flag s Csr.FABC_SELF 31 then fld s Csr.FABC_SELF 11 0 else 0xFFF

/-- R372: the payload of a HELLO. -/
def helloBytes (s : State) (l : Nat) : Bytes :=
  let v := linkOf s l
  let c := chainBytes s
  toLE (rd s Csr.FABC_PHYS) 8 ++ toLE (rd s Csr.FABC_EPOCH) 4 ++ toLE (devId s) 2 ++ toLE l 1 ++ toLE v.width 1
    ++ toLE v.nonce 32 ++ toLE c.length 2 ++ toLE 0 14 ++ c

/-- R358: the 32-byte header of a message. -/
def packSlots (l : List Nat) : Nat := l.foldr (fun x n => n * 32 + x % 32) 0

def msgHead (m : FabMsg) : Bytes :=
  toLE (m.mtype <<< 28 + m.dst <<< 16 + m.src <<< 4 + m.hops) 4
    ++ toLE (m.tag <<< 15 + m.gen <<< 12 + (if m.sr then 1 <<< 11 else 0) + m.rsvd <<< 8 + m.sub) 4
    ++ toLE m.addr 8 ++ toLE m.len 2 ++ [m.status, 0] ++ toLE (packSlots m.route) 6 ++ toLE (packSlots m.rroute) 6

/-- R359: a message carries a payload of LEN bytes. -/
def msgPayload (mtype len : Nat) : Nat := if mtype = 1 ∨ mtype = 4 then 0 else len

def msgBytes (m : FabMsg) : Bytes := msgHead m ++ bytesAt m.payload 0 (msgPayload m.mtype m.len)

/-- A link-local management message on a link. -/
def sendLocal (s : State) (l sub : Nat) (p : Bytes) : State :=
  linkQueue s l 3 0 (msgBytes { mtype := 6, dst := 0, src := devId s, sub := sub, len := p.length, payload := p })

/-- R348, R419: INIT flits with SEEN = 1 have crossed both ways. -/
def linkReady (s : State) (l : Nat) : State :=
  let v := linkOf s l
  if isHost l then
    let s := setLink s l { v with st := .up }
    raise s 80 0x01 v.width 0
  else
    let n := Config.freeValue 10 s.freeCtr % 2 ^ 256
    let s := setLink { s with freeCtr := s.freeCtr + 1 } l { v with st := .hello, nonce := n }
    linkAdmitEff (sendLocal s l 0x01 (helloBytes s l)) l

/-- R373: both hellos have arrived. -/
def helloRx (s : State) (l : Nat) : State :=
  let v := linkOf s l
  if v.gotHello && v.gotProof then raise s (linkSrc l) 0x03 (rd s (Csr.FAB_LINK_PEER (l / 2) (l % 2))) l else s

/-- The buffers of a received message are freed (R356). -/
def freeArrived (s : State) (l : Nat) (bs : Bytes) : State :=
  let v := linkOf s l
  match v.arrived.find? (fun x => x.2 = bs) with
  | none => s
  | some x =>
    let n := ceilDiv bs.length 244
    setLink s l { v with arrived := v.arrived.erase x, rxUsed := smSet 0 v.rxUsed x.1 (smGet 0 v.rxUsed x.1 - n),
                         rxFreed := smSet 0 v.rxFreed x.1 ((smGet 0 v.rxFreed x.1 + n) % 4096) }

/-! ### Receiving flits (R351 to R357) -/

/-- R353: a discarded flit asks for one NAK. -/
def flitLost (s : State) (l : Nat) : State :=
  let v := linkOf s l
  if v.nakSent then s else emit (setLink s l { v with nakSent := true }) l { ftype := 2 }

/-- R351: a flit whose CRC fails. -/
def crcFail (s : State) (l n : Nat) : State :=
  let s := bumpOcc s (if isHost l then Csr.HLK_CRC else Csr.FAB_LINK_CRC (l / 2) (l % 2)) n
  if linkOpen (linkOf s l) ∧ n ≠ 0 then flitLost s l else s

/-- R354: held flits up to ACK are freed; answers whether there was progress. -/
def ackFlits (a : Nat) : List Flit → List Flit × Bool
  | [] => ([], false)
  | f :: fs => if serial 12 a f.seq = .earlier then (f :: fs, false) else ((ackFlits a fs).1, true)

/-- The ACK and credit fields of a flit taken; `none` for a protocol error (R356, R357). -/
def flitHeader (v : Link) (f : Flit) : Option Link :=
  let (held, moved) := ackFlits f.ack v.replay
  let k := 2 * f.cvc + f.chc
  let v := { v with replay := held, resends := if moved then 0 else v.resends, crCum := smSet 0 v.crCum k (f.credits % 4096) }
  if smGet 0 v.crInit k < linkCredit v k then none else some v

/-- P of a message by its header: bytes of payload that follow it (R360, R420). -/
def payloadLen (l : Nat) (b : Bytes) : Nat :=
  let t := headType b
  if isHost l then
    (if t = 2 ∨ t = 5 then fieldAt b 16 2 % 8192
     else if (t = 3 ∨ t = 6) ∧ fieldAt b 18 1 = 0 then fieldAt b 16 2 % 8192 else 0)
  else msgPayload t (fieldAt b 16 2 % 16384)

/-- R360: an accepted DATA flit joins its message; `none` for a protocol error. -/
def assemble (l : Nat) (v : Link) (f : Flit) : Option Link :=
  let k := 2 * f.vc + f.hc
  let sofar := smGet none v.part k
  if f.msgStart ≠ sofar.isNone then none
  else
    let b := sofar.getD [] ++ bytesAt f.payload 0 244
    let total := 32 + payloadLen l b
    if decide (total ≤ b.length) ≠ f.msgEnd ∨ total + 244 ≤ b.length then none
    else if f.msgEnd then some { v with part := smSet none v.part k none, arrived := v.arrived ++ [(k, b.take total)] }
    else some { v with part := smSet none v.part k (some b) }

/-- R351, R357: form of a flit that passed its CRC. -/
def flitOk (l : Nat) (f : Flit) : Bool :=
  decide (f.ftype ≤ 4) && f.rsvd = 0 && decide (f.vc < 4) && decide (f.hc < 2) && decide (f.cvc < 4) && decide (f.chc < 2)
    && (!isHost l || (f.hc = 0 && f.chc = 0))

/-- R353: a DATA flit in order, out of order or repeated. -/
def dataFlit (s : State) (l : Nat) (f : Flit) : State :=
  let v := linkOf s l
  match serial 12 f.seq v.rxNext with
  | .earlier => s
  | .later => flitLost s l
  | .equal =>
    let k := 2 * f.vc + f.hc
    if rxCap s l k ≤ smGet 0 v.rxUsed k then protoError s l
    else
      match assemble l { v with rxNext := (v.rxNext + 1) % 4096, nakSent := false,
                                rxUsed := smSet 0 v.rxUsed k (smGet 0 v.rxUsed k + 1) } f with
      | none => protoError s l
      | some v =>
        bumpStat (setLink s l v) (if isHost l then Csr.HLK_RX_FLITS else Csr.FAB_LINK_RX_FLITS (l / 2) (l % 2)) 1
          (some (linkIdx l))

/-- R374, R375: a KEEPALIVE's heartbeat. -/
def heartbeat (s : State) (l : Nat) (f : Flit) : State :=
  let v := linkOf s l
  let hb := fieldAt f.payload 14 2
  if isHost l ∨ v.lastHb = some hb then s else setLink s l { v with lastHb := some hb, stalled := false }

/-- INIT (R351): the peer's credits; once SEEN has come back the link goes on. -/
def initFlit (s : State) (l : Nat) (f : Flit) : State :=
  let v := linkOf s l
  if v.st ≠ .init then s
  else
    let cr := (countUp 0 8).foldl (fun m k => smSet 0 m k (fieldAt f.payload (4 + 2 * k) 2)) ([] : SMap Nat)
    let s := emitInit (setLink s l { v with seen := true, crInit := cr }) l
    if bit (fieldAt f.payload 3 1) 0 then linkReady s l else s

/-- R354: every held flit is sent again, or the link gives up. `count`: FAB_LINK_REPLAY counts. -/
def resendHeld (s : State) (l : Nat) : State :=
  let v := linkOf s l
  let limit := if isHost l then fld s Csr.HLK_RETRY 7 0 else fld s (Csr.FAB_LINK_RETRY (l / 2) (l % 2)) 7 0
  match v.replay.getLast? with
  | none => s
  | some f =>
    if limit ≤ v.resends then linkStop s l .down 0x02
    else
      let s := setLink s l { v with resends := v.resends + 1 }
      emit (if isHost l then s else bumpOcc s (Csr.FAB_LINK_REPLAY (l / 2) (l % 2)) 1) l f

/-- Any flit of a link in HELLO or UP. -/
def takeFlit (s : State) (l : Nat) (f : Flit) : State :=
  let v := linkOf s l
  if ¬ linkOpen v then s
  else if ¬ f.crcOk then crcFail s l 1
  else if ¬ flitOk l f then protoError s l
  else
    match flitHeader v f with
    | none => protoError s l
    | some v =>
      let s := setLink s l v
      if f.ftype = 1 then dataFlit s l f
      else if f.ftype = 2 then resendHeld s l
      else if f.ftype = 3 then heartbeat s l f
      else s

/-! ### The commands -/

/-- LINK_TRAINED (R347): enough lanes and their code words are locked. -/
def execLinkTrained (l : Fin 25) (lanes : Byte) (s : State) : Out :=
  let v := linkOf s l
  let m := lanes.toNat
  let lo := decide (m &&& 0x0F = 0x0F)
  let hi := decide (m &&& 0xF0 = 0xF0)
  let width := if isHost l then (if lo then 4 else 0)
    else if linkSplit s l then (if (if l.val % 2 = 0 then lo else hi) then 4 else 0)
    else if lo && hi then 8 else if lo || hi then 4 else 0
  if linkPowered s l ∧ v.st = .training ∧ width ≠ 0 then
    let s := emitInit (setLink s l { v with st := .init, width := width }) l
    .next (if ¬ isHost l ∧ ¬ linkSplit s l ∧ width = 4 then raise s (linkSrc l) 0x04 m l else s)
  else .next s

/-- LINK_TRAINING_TIMEOUT (R347). -/
def execLinkTrainingTimeout (l : Fin 25) (s : State) : Out :=
  if linkPowered s l ∧ (linkOf s l).st = .training then .next (linkStop s l .down 0x05) else .next s

/-- LINK_AUTO_RETRAIN (R348): 1 ms after DOWN. -/
def execLinkAutoRetrain (l : Fin 25) (s : State) : Out :=
  if linkPowered s l ∧ (linkOf s l).st = .down ∧ linkAuto s l then .next (linkTrain s l) else .next s

/-- LANE_LOCK_LOST (R419). A Sargil link without lock meets its keepalive limit. -/
def execLaneLockLost (l : Fin 25) (s : State) : Out :=
  if linkPowered s l ∧ (linkOpen (linkOf s l) ∨ (linkOf s l).st = .init) then
    .next (linkStop s l .down (if isHost l then 0x07 else 0x01))
  else .next s

/-- INIT_FLIT_RECEIVE (R351). -/
def execInitFlitReceive (l : Fin 25) (f : Flit) (s : State) : Out :=
  if ¬ linkPowered s l ∨ (linkOf s l).st ≠ .init then .next s
  else if ¬ f.crcOk then .next (crcFail s l 1)
  else if ¬ flitOk l f ∨ f.ftype ≠ 4 then .next (if flitOk l f then s else protoError s l)
  else .next (initFlit s l f)

/-- DATA_FLIT_RECEIVE (R353): a DATA, IDLE or KEEPALIVE flit. -/
def execDataFlitReceive (l : Fin 25) (f : Flit) (s : State) : Out :=
  if linkPowered s l ∧ f.ftype ≠ 2 then .next (takeFlit s l f) else .next s

/-- FEC_UNCORRECTABLE (R346). -/
def execFecUncorrectable (l : Fin 25) (flits : Nat) (s : State) : Out :=
  if linkPowered s l ∧ (linkOpen (linkOf s l) ∨ (linkOf s l).st = .init) then
    .next (crcFail (bumpOcc s (if isHost l then Csr.HLK_FEC_UNC else Csr.FAB_LINK_FEC_UNC (l.val / 2) (l.val % 2)) 1) l flits)
  else .next s

/-- NAK_RECEIVE (R354). -/
def execNakReceive (l : Fin 25) (f : Flit) (s : State) : Out :=
  if linkPowered s l ∧ f.ftype = 2 then .next (takeFlit s l f) else .next s

/-- ACK_TIMEOUT (R354). -/
def execAckTimeout (l : Fin 25) (s : State) : Out :=
  if linkPowered s l ∧ linkOpen (linkOf s l) then .next (resendHeld s l) else .next s

/-- The first waiting flit that may go: the oldest of its VC and class, with credit. -/
def pickFlit (s : State) (l : Nat) (v : Link) : List Flit → List Flit → Option (Flit × List Flit)
  | _, [] => none
  | done, f :: fs =>
    let k := 2 * f.vc + f.hc
    let held := !isHost l && blkHeld s (linkIdx l) && f.msgStart && (f.vc = 0 || f.vc = 2)
    if linkCredit v k = 0 || held || done.any (fun g => 2 * g.vc + g.hc = k) then pickFlit s l v (done ++ [f]) fs
    else some (f, done ++ fs)

/-- FLIT_SEND (R352, R356). -/
def execFlitSend (l : Fin 25) (s : State) : Out :=
  let v := linkOf s l
  match pickFlit s l v [] v.txq with
  | none => .next s
  | some (f, rest) =>
    if linkPowered s l ∧ linkOpen v ∧ v.replay.length < replayCap s l then
      let k := 2 * f.vc + f.hc
      let f := { f with seq := v.txSeq }
      let v := { v with txq := rest, txSeq := (v.txSeq + 1) % 4096, replay := v.replay ++ [f],
                        crSent := smSet 0 v.crSent k ((smGet 0 v.crSent k + 1) % 4096) }
      let s := emit (setLink s l v) l f
      .next (bumpStat s (if isHost l then Csr.HLK_TX_FLITS else Csr.FAB_LINK_TX_FLITS (l.val / 2) (l.val % 2)) 1
        (some (linkIdx l)))
    else .next s

/-- R374, R419: the payload of a KEEPALIVE. -/
def keepalivePayload (s : State) (l : Nat) : Bytes :=
  let id := toLE (rd s Csr.FABC_PHYS) 8
  bytesAt (if isHost l then id
    else id ++ toLE (rd s Csr.FABC_EPOCH) 4 ++ toLE (devId s) 2 ++ toLE (fld s Csr.FABC_HB 15 0) 2) 0 244

/-- KEEPALIVE_SEND (R374). -/
def execKeepaliveSend (l : Fin 25) (s : State) : Out :=
  if linkPowered s l ∧ linkOpen (linkOf s l) then
    .next (emit s l { ftype := 3, payload := keepalivePayload s l })
  else .next s

/-- KEEPALIVE_TIMEOUT (R374). -/
def execKeepaliveTimeout (l : Fin 25) (s : State) : Out :=
  if linkPowered s l ∧ linkOpen (linkOf s l) then .next (linkStop s l .down 0x01) else .next s

/-- PEER_STALLED (R375): once for each value of the heartbeat. -/
def execPeerStalled (l : Fin 24) (s : State) : Out :=
  let v := linkOf s l
  if linkPowered s l ∧ v.st = .up ∧ ¬ v.stalled ∧ fld s Csr.FABC_HB 31 16 ≠ 0 then
    match v.lastHb with
    | some hb => .next (raise (setLink s l { v with stalled := true }) (linkSrc l) 0x05
        (rd s (Csr.FAB_LINK_PEER (l.val / 2) (l.val % 2))) (hb + l.val <<< 16))
    | none => .next s
  else .next s

/-- HELLO_RECEIVE (R373): stored, and a proof asked of SEC. -/
def execHelloReceive (l : Fin 24) (m : FabMsg) (s : State) : Out :=
  let v := linkOf s l
  if linkPowered s l ∧ v.st = .hello ∧ m.mtype = 6 ∧ m.sub = 0x01 ∧ ¬ m.sr ∧ m.hops = 0 then
    let b := m.payload
    let s := setLink (freeArrived s l (msgBytes m)) l { linkOf (freeArrived s l (msgBytes m)) l with gotHello := true, hello := b }
    let s := wr s (Csr.FAB_LINK_PEER (l.val / 2) (l.val % 2)) (fieldAt b 0 8)
    let s := wr s (Csr.FAB_LINK_PEER_INFO (l.val / 2) (l.val % 2))
      (1 <<< 31 + bits (fieldAt b 14 1) 4 0 <<< 16 + bits (fieldAt b 12 2) 11 0)
    let s := { s with fabc := { s.fabc with proofs := (s.fabc.proofs ++ [l.val]).eraseDups } }
    .next (helloRx s l)
  else .next s

/-- HELLO_PROOF_RECEIVE (R373). -/
def execHelloProofReceive (l : Fin 24) (m : FabMsg) (s : State) : Out :=
  if linkPowered s l ∧ (linkOf s l).st = .hello ∧ m.mtype = 6 ∧ m.sub = 0x02 ∧ ¬ m.sr ∧ m.hops = 0 then
    let s := freeArrived s l (msgBytes m)
    .next (helloRx (setLink s l { linkOf s l with gotProof := true, proof := m.payload }) l)
  else .next s

/-- Requests that meet a condition end with a status, and their tags are freed. -/
def endTxns (s : State) (p : Txn → Bool) (st : Nat) : State :=
  let hit (x : Nat × Option Txn) : Bool := match x.2 with | some t => p t | none => false
  let s' := { s with fabc := { s.fabc with txns := s.fabc.txns.filter (fun x => !hit x) } }
  (s.fabc.txns.filter hit).foldl (fun s x => answer s x.1 st []) s'

/-- A reset reaches a port: its links go OFF and its requests end (R388). -/
def portReset (s : State) (p : Nat) : State :=
  let s := { s with links := smSet {} (smSet {} s.links (2 * p) {}) (2 * p + 1) {},
                    fabc := { s.fabc with proofs := s.fabc.proofs.filter (fun l => l / 2 ≠ p) } }
  endTxns s (fun t => t.link.map (· / 2) == some p) 0x08

/-- R345: a commit of a port that changes SPLIT takes both links to OFF, and trains those enabled. -/
def portCommit (s : State) (p : Nat) (was : Bool) : State :=
  if linkSplit s (2 * p) = was then s
  else
    let off (s : State) (l : Nat) : State := if (linkOf s l).st = .off then s else linkStop s l .off 0x04
    let s := off (off s (2 * p)) (2 * p + 1)
    linkEnableEff (linkEnableEff s (2 * p)) (2 * p + 1)

end Sys2Proof.Machine
end

