-- ==== Sys2Proof/Machine/Place.lean ====
section
/-! DEFINITION. The placement engine's tables (R181 to R192) and the deep-sector format (R201 to R204):
entries and their caches, frame and extent allocation, heat, map granules and the PLANES coding. -/

namespace Sys2Proof.Machine

/-! ### State of the engine (R182) -/

/-- Commit index of the PLC. -/
def plcIdx : Nat := 24

/-- R451: the PLC's event source. -/
def plcSrc : Nat := 76

/-- P as the engine takes it: equal in all fast controllers (R166). -/
def poolP (s : State) : Nat := stripedFrames s 0

/-- PLC_TABLE.BASE_FRAME, active. -/
def baseFrame (s : State) : Nat := fld s Csr.PLC_TABLE 22 0

/-- R182: the region fits below 12 times the smallest P. -/
def plcFitsNow (s : State) : Bool :=
  decide (baseFrame s + 8711 ≤ 12 * ((countUp 0 12).map (stripedFrames s)).foldl min 524288)

/-- PLC_STAT.READY. -/
def plcReady (s : State) : Bool := s.plcFits && !s.plcRestoring && !inResetBit s plcIdx

/-- The engine is clocked, out of reset and not quiesced: it takes accesses. -/
def plcRuns (s : State) : Bool := works s plcIdx

/-- R182: an access waits for a PLC that is held, and fails where the region does not fit. -/
def plcTakes (s : State) : Bool := plcRuns s && plcReady s

/-! ### Entries (R184) -/

def pageEnt (s : State) (p : Nat) : Ent := smGet {} s.pages p

def setEnt (s : State) (p : Nat) (e : Ent) : State := { s with pages := smSet {} s.pages p e }

/-- R185: STATE codes. -/
def PSt.code : PSt → Nat
  | .invalid => 0 | .fastHomed => 1 | .deepResident => 2 | .cachedClean => 3 | .cachedDirty => 4
  | .migrating => 5 | .poison => 6 | .retired => 7

/-- R228: the holder count of a page. -/
def holderCount (s : State) (p : Nat) : Nat := smGet 0 s.holders p

/-- LOCK_NBU. -/
def nbuLocked (s : State) (p : Nat) : Bool := decide (0 < holderCount s p)

/-- R188: the page's frame. -/
def entFrame (e : Ent) : Frame := ⟨e.banked, e.stack, e.frame⟩

/-- R188: a state that holds a frame. -/
def PSt.hasFrame : PSt → Bool
  | .fastHomed | .cachedClean | .cachedDirty => true
  | _ => false

/-- R188: an entry that holds a frame outside migration. -/
def hasFrame (e : Ent) : Bool := if e.state = .poison then e.pstate.hasFrame else e.state.hasFrame

/-- The four words of an entry, with its live HEAT and EPOCH. -/
def entWords (e : Ent) (heat epoch : Nat) (locked : Bool) : List Nat :=
  [e.dirty,
   epoch <<< 48 + heat <<< 40 + e.cfmt <<< 36 + (if e.banked then 1 else 0) <<< 35 + e.stack <<< 31
     + (if e.pin then 1 else 0) <<< 30 + (if e.lockFw then 1 else 0) <<< 29
     + (if locked then 1 else 0) <<< 28 + e.state.code <<< 23 + e.frame,
   e.pstate.code <<< 44 + e.extLen <<< 34 + e.dga, e.swtag]

/-! ### Entry caches (R189) -/

/-- The set of a page: its die and set index are bits [12:0]. -/
def pageSet (p : Nat) : Nat := p % 8192

def setOf (s : State) (p : Nat) : List (Nat × Nat × Nat) := smGet [] s.pageCache (pageSet p)

def putSet (s : State) (p : Nat) (l : List (Nat × Nat × Nat)) : State :=
  { s with pageCache := smSet [] s.pageCache (pageSet p) l }

/-- R189: an entry is pinned while its page migrates or is held by near-bank units. -/
def pagePinned (s : State) (p : Nat) : Bool := nbuLocked s p || decide ((pageEnt s p).state = .migrating)

/-- Pinned ways of a page's set. -/
def pinnedWays (s : State) (p : Nat) : Nat := ((setOf s p).filter (fun w => pagePinned s w.1)).length

/-- R189: the page may be pinned: it is, or its set has fewer than 12 pinned ways. -/
def mayPin (s : State) (p : Nat) : Bool := pagePinned s p || decide (pinnedWays s p < 12)

/-- Live HEAT and EPOCH of a page. -/
def heatOf (s : State) (p : Nat) : Nat × Nat :=
  match (setOf s p).find? (fun w => w.1 = p) with
  | some (_, h, ep) => (h, ep)
  | none => ((pageEnt s p).heat, (pageEnt s p).epoch)

/-- HEAT and EPOCH written to the region (R187). -/
def heatToRegion (s : State) (w : Nat × Nat × Nat) : State :=
  if (pageEnt s w.1).state = .invalid then s
  else setEnt s w.1 { pageEnt s w.1 with heat := w.2.1, epoch := w.2.2 }

/-- The least recently used way that is not pinned. -/
def evictable (s : State) (l : List (Nat × Nat × Nat)) : Option (Nat × Nat × Nat) :=
  (l.reverse).find? (fun w => !pagePinned s w.1)

/-- R189: an entry is met through its cache. A miss reads it from the region, replacing the least recently
used way that is not pinned. -/
def touchCache (s : State) (p : Nat) : State :=
  match (setOf s p).find? (fun w => w.1 = p) with
  | some w => putSet s p (w :: (setOf s p).filter (fun x => x.1 ≠ p))
  | none =>
    let s := bumpStat s Csr.PLC_MISSES 1 (some plcIdx)
    let w := (p, (pageEnt s p).heat, (pageEnt s p).epoch)
    if (setOf s p).length < 16 then putSet s p (w :: setOf s p)
    else
      match evictable s (setOf s p) with
      | some v => let s := heatToRegion s v
                  putSet s p (w :: (setOf s p).filter (fun x => x.1 ≠ v.1))
      | none => s

/-- HEAT and EPOCH set where they live. -/
def setHeat (s : State) (p h ep : Nat) : State :=
  if (setOf s p).any (fun w => w.1 = p) then
    putSet s p ((setOf s p).map (fun w => if w.1 = p then (p, h, ep) else w))
  else heatToRegion s (p, h, ep)

/-! ### Heat (R192) -/

/-- PLC_EPOCH.EPOCH. -/
def epochNow (s : State) : Nat := fld s Csr.PLC_EPOCH 15 0

/-- current_heat. -/
def currentHeat (s : State) (p : Nat) : Nat :=
  let (h, ep) := heatOf s p
  let age := (epochNow s + 65536 - ep) % 65536
  if 8 ≤ age then 0 else h >>> age

/-- touch. -/
def touchHeat (s : State) (p n : Nat) : State := setHeat s p (min 255 (currentHeat s p + n)) (epochNow s)

/-! ### Frames (R183, R190) -/

/-- First and end frame number of an allocation domain: 0 to 11 the BANKED regions, 12 the pool. -/
def domLo (s : State) (d : Nat) : Nat := if d = 12 then 0 else stripedFrames s d

def domHi (s : State) (d : Nat) : Nat := if d = 12 then 12 * poolP s else 524288

/-- R190: the domain of a layout and stack. -/
def domOf (banked : Bool) (stack : Nat) : Nat := if banked then stack else 12

/-- R183: index of a frame in the map. -/
def frameIdx (s : State) (d f : Nat) : Nat :=
  let p := poolP s
  if d = 12 then f else 12 * p + d * (524288 - p) + (f - p)

/-- The frame numbers of a domain whose map code is not FREE, rising. -/
def usedFrames (s : State) (d : Nat) : List Nat :=
  let lo := frameIdx s d (domLo s d)
  let n := domHi s d - domLo s d
  ((smKeys s.frameMap).filter (fun i => decide (lo ≤ i) && decide (i < lo + n))).map (fun i => i - lo + domLo s d)

/-- R183: the region's own frames, in a domain: [first, end). -/
def regionSpan (s : State) (d : Nat) : Nat × Nat := if d = 12 then (baseFrame s, baseFrame s + 8711) else (0, 0)

/-- A number moved past an interval it falls in. -/
def skipSpan (r : Nat × Nat) (n : Nat) : Nat := if r.1 ≤ n ∧ n < r.2 then r.2 else n

/-- The lowest number at or after `n` that is neither in the rising list nor in the interval. -/
def firstFree (r : Nat × Nat) : List Nat → Nat → Nat
  | [], n => skipSpan r n
  | u :: us, n =>
    let n := skipSpan r n
    if u < n then firstFree r us n else if u = n then firstFree r us (n + 1) else n

/-- R190: the frame an allocation in domain d takes. -/
def findFrame (s : State) (d : Nat) : Option Nat :=
  let used := usedFrames s d
  let cur := max (domLo s d) (smGet 0 s.frameCur d)
  let f := firstFree (regionSpan s d) used cur
  if f < domHi s d then some f
  else
    let f := firstFree (regionSpan s d) used (domLo s d)
    if f < domHi s d then some f else none

/-- R183: a map code written: 0 FREE, 1 USED, 2 RETIRED, 3 SYSTEM. -/
def setFrameCode (s : State) (d f c : Nat) : State :=
  { s with frameMap := smSet 0 s.frameMap (frameIdx s d f) c }

/-- R190: the lowest FREE frame at or after the cursor is taken, and the cursor moves past it. -/
def allocFrame (s : State) (d : Nat) : Option (State × Nat) :=
  match findFrame s d with
  | none => none
  | some f =>
    let s := setFrameCode s d f 1
    let c := if f + 1 < domHi s d then f + 1 else domLo s d
    some ({ s with frameCur := smSet 0 s.frameCur d c }, f)

/-- An entry's frame given code c. -/
def giveFrame (s : State) (e : Ent) (c : Nat) : State := setFrameCode s (domOf e.banked e.stack) e.frame c

/-- FREE frames of a domain. -/
def freeFrames (s : State) (d : Nat) : Nat :=
  let used := usedFrames s d
  let r := regionSpan s d
  let reg := min r.2 (domHi s d) - r.1
  (domHi s d - domLo s d) - used.length - (reg - (used.filter (fun u => decide (r.1 ≤ u) && decide (u < r.2))).length)

/-! ### Extents (R191) -/

/-- Blocks in use of deep stack d, rising. -/
def usedBlocks (s : State) (d : Nat) : List Nat :=
  ((smKeys s.blocks).filter (fun b => b / 2 ^ 27 = d)).map (fun b => b % 2 ^ 27)

/-- Free 16-granule blocks of deep stack d. -/
def freeBlocks (s : State) (d : Nat) : Nat := 2 ^ 27 - (usedBlocks s d).length

/-- The first run of `len` numbers at or after `n` that misses the rising list. -/
def firstRun (len : Nat) : List Nat → Nat → Nat
  | [], n => n
  | u :: us, n => if u < n then firstRun len us n else if n + len ≤ u then n else firstRun len us (u + 1)

/-- A run of free blocks in deep stack d: from its cursor, then from block 0. -/
def findRun (s : State) (d len : Nat) : Option Nat :=
  let used := usedBlocks s d
  let a := firstRun len used (smGet 0 s.blockCur d)
  if a + len ≤ 2 ^ 27 then some a
  else
    let a := firstRun len used 0
    if a + len ≤ 2 ^ 27 then some a else none

/-- A (free blocks, stack) pair put before the first with fewer free blocks. -/
def orderIns (x : Nat × Nat) : List (Nat × Nat) → List (Nat × Nat)
  | [] => [x]
  | y :: ys => if y.1 < x.1 then x :: y :: ys else y :: orderIns x ys

/-- Deep stacks by decreasing free blocks, ties to the lowest number. -/
def stackOrder (s : State) : List Nat :=
  ((countUp 0 8).foldl (fun l d => orderIns (freeBlocks s d, d) l) []).map (·.2)

/-- Blocks of an extent marked. -/
def markBlocks (s : State) (d b n : Nat) (used : Bool) : State :=
  { s with blocks := (countUp (d * 2 ^ 27 + b) n).foldl (fun m k => smSet false m k used) s.blocks }

/-- R191: the first stack tried that holds the run. -/
def allocRun (s : State) (len : Nat) : List Nat → Option (State × Nat)
  | [] => none
  | d :: ds =>
    match findRun s d len with
    | none => allocRun s len ds
    | some b =>
      let s := markBlocks s d b len true
      some ({ s with blockCur := smSet 0 s.blockCur d ((b + len) % 2 ^ 27) }, d * 2 ^ 31 + b * 16)

/-- R191: an extent of `n` granules (a multiple of 16); answers its first DGA. -/
def allocExtent (s : State) (n : Nat) : Option (State × Nat) := allocRun s (n / 16) (stackOrder s)

/-- The blocks of an extent freed. -/
def freeExtent (s : State) (dga len : Nat) : State := markBlocks s (dga / 2 ^ 31) (dga % 2 ^ 31 / 16) (len / 16) false

/-- R191: DEEP_FULL. -/
def deepFull (s : State) (p n : Nat) : State := raise s plcSrc 0x07 p n

/-! ### Deep-sector format (R201 to R204) -/

/-- R202: one map entry. -/
structure MapEnt where
  method : Nat := 0
  count : Nat := 0
  off : Nat := 0
  deriving DecidableEq, Repr

/-- R203: element width, exponent width, fraction width and fraction shift of a format. -/
def planesFmt (cfmt : Nat) : Option (Nat × Nat × Nat × Nat) :=
  match cfmt with
  | 0 => some (32, 8, 23, 0) | 1 => some (16, 5, 10, 0) | 2 => some (16, 8, 7, 0)
  | 3 => some (32, 8, 10, 13) | 4 => some (8, 4, 3, 0) | 5 => some (8, 5, 2, 0)
  | _ => none

/-- Elements of a sector, `wb` bytes each. -/
def sectorElems (wb : Nat) : Nat → Bytes → List Nat
  | 0, _ => []
  | n + 1, bs => fromLE (bs.take wb) :: sectorElems wb n (bs.drop wb)

/-- Number of bits of a number. -/
def bitLen (n : Nat) : Nat := if n = 0 then 0 else Nat.log2 n + 1

/-- A bit string, least significant bit first, as a list of (value, width) fields. -/
abbrev BitFields := List (Nat × Nat)

/-- Total width of a field list. -/
def fieldsLen (fs : BitFields) : Nat := fs.foldl (fun n f => n + f.2) 0

/-- The number that packed fields spell. -/
def fieldsVal : BitFields → Nat
  | [] => 0
  | (v, w) :: fs => v % 2 ^ w + (fieldsVal fs) <<< w

/-- Zigzag of the differences of consecutive fractions within one block. -/
def zigzags (prev : Nat) : List Nat → List Nat
  | [] => []
  | f :: fs => (if prev ≤ f then 2 * (f - prev) else 2 * (prev - f) - 1) :: zigzags f fs

/-- One mantissa block. -/
def blockFields (fracs : List Nat) : BitFields :=
  let zs := zigzags 0 fracs
  let w := bitLen (zs.foldl max 0)
  (w, 5) :: zs.map (fun z => (z, w))

/-- The mantissa blocks of 64 elements. -/
def mantissaFields : Nat → List Nat → BitFields
  | 0, _ => []
  | n + 1, fs => blockFields (fs.take 64) ++ mantissaFields n (fs.drop 64)

/-- R203: the PLANES stream of a sector, unpadded. -/
def planesEncode (cfmt : Nat) (sector : Bytes) : Option Bytes :=
  match planesFmt cfmt with
  | none => none
  | some (w, e, f, sh) =>
    let n := 32768 / w
    let els := sectorElems (w / 8) n sector
    if cfmt = 3 ∧ els.any (fun x => x % 2 ^ 13 ≠ 0) then none
    else
      let exps := els.map (fun x => bits x (w - 2) (w - 1 - e))
      let emin := exps.foldl min (2 ^ e)
      let be := bitLen (exps.foldl max 0 - emin)
      let fs := els.map (fun x => (x / 2 ^ (w - 1), 1)) ++ exps.map (fun x => (x - emin, be))
        ++ mantissaFields (n / 64) (els.map (fun x => bits x (sh + f - 1) sh))
      some (toLE emin 1 ++ toLE be 1 ++ [0, 0] ++ toLE (fieldsVal fs) (ceilDiv (fieldsLen fs) 8))

/-- R204: a sector as stored: its method and its granules' bytes. -/
def compressSector (cfmt : Nat) (sector : Bytes) : Nat × Bytes :=
  if sector.all (· = 0) then (0, [])
  else match planesEncode cfmt sector with
    | some bs => if bs.length ≤ 3584 then (2, bytesAt bs 0 (ceilDiv bs.length 512 * 512)) else (1, sector)
    | none => (1, sector)

/-- `n` fields of width `w` taken from a bit string. -/
def takeFields (w : Nat) : Nat → Nat → List Nat × Nat
  | 0, v => ([], v)
  | n + 1, v =>
    let (xs, r) := takeFields w n (v >>> w)
    (v % 2 ^ w :: xs, r)

/-- Fractions recovered from zigzags. -/
def unzigzag (f : Nat) (prev : Int) : List Nat → List Nat
  | [] => []
  | z :: zs =>
    let d : Int := if z % 2 = 0 then (z / 2 : Nat) else -((z + 1) / 2 : Nat)
    let x := prev + d
    wrapInt f x :: unzigzag f x zs

/-- Mantissa blocks decoded. -/
def takeBlocks (f : Nat) : Nat → Nat → List Nat
  | 0, _ => []
  | n + 1, v =>
    let (zs, r) := takeFields (v % 32) 64 (v >>> 5)
    unzigzag f 0 zs ++ takeBlocks f n r

/-- R203: decoding of a PLANES stream. -/
def planesDecode (cfmt : Nat) (bs : Bytes) : Bytes :=
  match planesFmt cfmt with
  | none => zeroSector
  | some (w, e, f, sh) =>
    let n := 32768 / w
    let emin := fieldAt bs 0 1
    let be := fieldAt bs 1 1
    let (signs, v) := takeFields 1 n (fromLE (bs.drop 4))
    let (exps, v) := takeFields be n v
    let fracs := takeBlocks f (n / 64) v
    ((signs.zip (exps.zip fracs)).map (fun x =>
      toLE (x.1 <<< (w - 1) + ((x.2.1 + emin) % 2 ^ e) <<< (w - 1 - e) + x.2.2 <<< sh) (w / 8))).flatten

/-- R201: a map granule parsed: page, CFMT and the 64 entries. -/
structure MapGran where
  page : Nat
  cfmt : Nat
  ents : List MapEnt

def parseMap (bs : Bytes) : MapGran :=
  ⟨bits (fieldAt bs 128 8) 25 0, bits (fieldAt bs 128 8) 35 32,
   (countUp 0 64).map (fun k => let w := fieldAt bs (2 * k) 2; ⟨bits w 15 14, bits w 13 10, bits w 9 0⟩)⟩

/-- R201: the bytes of a map granule. -/
def mapBytes (p cfmt : Nat) (ents : List MapEnt) : Bytes :=
  bytesAt ((ents.map (fun e => toLE (e.method <<< 14 + e.count <<< 10 + e.off) 2)).flatten) 0 128
    ++ toLE (cfmt <<< 32 + p) 8 ++ List.replicate 376 0

/-- R202: a map entry that reaches past the extent, or a reserved method. -/
def mapEntBad (extLen : Nat) (m : MapEnt) : Bool :=
  m.method = 3 || (decide (m.method ≠ 0) && decide (extLen < m.off + m.count))

/-- The map granule of page p read and checked; a map fault is an uncorrectable read with location 0. -/
def readMap (s : State) (p : Nat) (e : Ent) : Hit × MapGran :=
  let h := granRead s e.dga
  let m := parseMap h.data
  if h.st ≠ 0 then (h, m)
  else if m.page ≠ p then ({ h with st := 0x02, loc := 0 }, m)
  else (h, m)

/-- Sector k of a deep page, decompressed. -/
def deepSector (s : State) (p : Nat) (e : Ent) (k : Nat) : Hit :=
  let (h, m) := readMap s p e
  if h.st ≠ 0 then h
  else
    let x := (m.ents[k]?).getD {}
    if mapEntBad e.extLen x then { h with st := 0x02, loc := 0 }
    else match x.method with
      | 0 => { s := h.s, data := zeroSector }
      | 1 => gransRead h.s (e.dga + x.off) x.count
      | _ =>
        let g := gransRead h.s (e.dga + x.off) x.count
        { g with data := planesDecode m.cfmt g.data }

end Sys2Proof.Machine
end

