-- ==== Sys2Proof/Machine/PlaceMig.lean ====
section
/-! DEFINITION. The placement engine at work (R185 to R200, R213, R214): accesses of the local tensor space,
migrations in their slots, write-back, poisoned pages, and the commands of the memory side that move them. -/

namespace Sys2Proof.Machine

/-! ### Migrations in the lists -/

def slotOf (s : State) (i : Nat) : Option Mig := smGet none s.slots i

def setSlot (s : State) (i : Nat) (m : Option Mig) : State := { s with slots := smSet none s.slots i m }

/-- The slots in use. -/
def runningMigs (s : State) : List (Nat × Mig) :=
  (countUp 0 32).filterMap (fun i => (slotOf s i).map (fun m => (i, m)))

/-- The slot of a page. -/
def pageSlot (s : State) (p : Nat) : Option (Nat × Mig) := (runningMigs s).find? (fun x => x.2.page = p)

/-- A promotion of the page waits. -/
def promoteQueued (s : State) (p : Nat) : Bool := s.migq.any (fun m => m.page == p && m.dir == .promote)

/-- R195: the page's migrations, waiting and running, raised to a lower-numbered class. -/
def raiseClass (s : State) (p c : Nat) : State :=
  let up (m : Mig) : Mig := if m.page = p then { m with cls := min m.cls c } else m
  { s with migq := s.migq.map up, slots := s.slots.map (fun x => (x.1, x.2.map up)) }

/-- R195: a migration is wanted: it joins one already waiting or running in its direction, or waits. -/
def queueMig (s : State) (p : Nat) (dir : MigDir) (c : Nat) (eph : List (Nat × Nat)) : State :=
  let same (m : Mig) : Bool := m.page == p && m.dir == dir
  let up (m : Mig) : Mig := if same m then { m with cls := min m.cls c, eph := m.eph ++ eph } else m
  if s.migq.any same || (runningMigs s).any (fun x => same x.2) then
    { s with migq := s.migq.map up, slots := s.slots.map (fun x => (x.1, x.2.map up)) }
  else { s with migq := s.migq ++ [{ page := p, cls := c, dir := dir, eph := eph }] }

/-! ### Who waits for a migration -/

/-- R190, R213, R214: accesses stalled on a page end with a status. -/
def endStalled (s : State) (p st : Nat) : State :=
  let (mine, rest) := s.stalled.partition (fun x => x.page = p)
  mine.foldl (fun s x => match x.req with
    | some r => answer s r.unit st []
    | none => { s with stallFail := smSet 0 s.stallFail x.key st }) { s with stalled := rest }

/-- First page of a page command. -/
def cmdPage (c : PlcCmd) : Nat := bits c.a0 25 0

/-- R188: a cached page becomes fast-homed; its extent is freed. -/
def homeFast (s : State) (p : Nat) : State :=
  let e := pageEnt s p
  let s := if e.extLen = 0 then s else freeExtent s e.dga e.extLen
  setEnt s p { e with state := .fastHomed, dirty := 0, extLen := 0, dga := 0 }

/-- The commands that wait for a migration of this direction (R206). -/
def waitsFor (op : Nat) (dir : MigDir) : Bool :=
  match dir with
  | .promote => op == 0x05 || op == 0x08
  | .demote => op == 0x06
  | .flush => op == 0x07

/-- Part i of a list of parts replaced. -/
def setPart (l : List PlcPart) (i : Nat) (v : PlcPart) : List PlcPart := l.take i ++ v :: l.drop (i + 1)

/-- A command channel's waiting part for the page. -/
def chanWaits (s : State) (ch p : Nat) (dir : MigDir) : Bool :=
  match smGet none s.plcCh ch with
  | none => false
  | some c => waitsFor c.op dir && decide (cmdPage c ≤ p) && (c.parts[p - cmdPage c]? == some .waits)

/-- Some command waits for the page's migration. -/
def cmdWaits (s : State) (p : Nat) (dir : MigDir) : Bool := (countUp 0 4).any (fun ch => chanWaits s ch p dir)

/-- A channel's part for the page ends when it waits for this direction. -/
def notifyCh (p : Nat) (dir : MigDir) (st : Nat) (s : State) (ch : Nat) : State :=
  match smGet none s.plcCh ch with
  | some c =>
    if chanWaits s ch p dir then
      let s := if c.op = 0x08 ∧ st = 0 then homeFast s p else s
      { s with plcCh := smSet none s.plcCh ch
                 (some { c with parts := setPart c.parts (p - cmdPage c) (.ended st) }) }
    else s
  | none => s

/-- R207: first page and number of pages of an entry's range. -/
def ephFirst (b : Bytes) : Nat := bits (fieldAt b 8 8) 43 18

def ephPages (b : Bytes) : Nat :=
  let l := bits (fieldAt b 8 8) 43 0
  (l + bits (fieldAt b 16 4) 23 0 * 4096 - 1) / 2 ^ 18 + 1 - l / 2 ^ 18

/-- R211, R213: a page of a range that an entry still waits for ends. -/
def notifyRun (b : Bytes) (p st : Nat) (r : EphRun) : EphRun :=
  let i := p - ephFirst b
  if ephFirst b ≤ p ∧ i < ephPages b ∧ smGet 0 r.pages i = 0 then { r with pages := smSet 0 r.pages i (st + 1) }
  else r

/-- The Ephemeris entries that wait for a page of their range. -/
def notifyEph (s : State) (p st : Nat) : State :=
  { s with plans := s.plans.map (fun x => (x.1, { x.2 with ents := x.2.ents.map (fun e =>
      { e with runs := e.runs.map (notifyRun e.b p st) }) })) }

/-- A page's migration in this direction has ended with a status. -/
def notify (s : State) (p : Nat) (dir : MigDir) (st : Nat) : State :=
  let s := (countUp 0 4).foldl (notifyCh p dir st) s
  if dir = .promote then notifyEph s p st else s

/-! ### Ends of migrations -/

/-- A cached page's state by its DIRTY bits (R188). -/
def cachedState (dirty : Nat) : PSt := if dirty = 0 then .cachedClean else .cachedDirty

/-- R188: the page of a migration back in its starting state; a promotion's frame is freed. -/
def revertMig (s : State) (m : Mig) : State :=
  let e := pageEnt s m.page
  match m.dir with
  | .promote => setEnt (giveFrame s e 0) m.page { e with state := m.start, frame := 0 }
  | .demote => setEnt s m.page { e with state := cachedState e.dirty }
  | .flush => s

/-- R188, R190, R197, R213: a migration in slot i is abandoned with a status. -/
def abandonMig (s : State) (i : Nat) (m : Mig) (st : Nat) : State :=
  let s := setSlot (revertMig s m) i none
  let s := if m.dir = .promote then endStalled s m.page st else s
  notify s m.page m.dir st

/-- R188: a write ends a running demotion; a waiting DEMOTE command queues it again (R206). -/
def stopDemotion (s : State) (i : Nat) (m : Mig) : State :=
  let e := pageEnt s m.page
  let s := setSlot (setEnt s m.page { e with state := cachedState e.dirty }) i none
  if cmdWaits s m.page .demote then queueMig s m.page .demote 7 [] else s

/-- R188, R214: uncorrectable or poisoned data met in a page. -/
def poisonPage (s : State) (p st loc : Nat) : State :=
  let e := pageEnt s p
  match e.state with
  | .invalid | .retired | .poison => s
  | _ =>
    let (s, pst) : State × PSt := match pageSlot s p with
      | some (i, m) =>
        if m.dir = .flush then (setSlot s i none, e.state)
        else if m.dir = .promote then (setSlot (giveFrame s e 0) i none, m.start)
        else (setSlot s i none, cachedState e.dirty)
      | none => (s, e.state)
    let e := { pageEnt s p with state := .poison, pstate := pst,
                                frame := if pst = .deepResident then 0 else e.frame }
    let s := { setEnt s p e with migq := s.migq.filter (fun m => m.page ≠ p) }
    let s := raise (bumpOcc s Csr.PLC_POISON 1) plcSrc 0x01 p loc
    let s := endStalled s p st
    notify (notify (notify s p .promote st) p .demote st) p .flush st

/-- A failure a requester met is reported (R214). -/
def reportBad (s : State) (p st loc : Nat) : State := if st = 0x02 ∨ st = 0x03 then poisonPage s p st loc else s

/-! ### Accesses (R185, R186, R193, R198, R199) -/

/-- One page's piece of an access: page, first byte within the page, length. -/
structure Piece where
  page : Nat
  off : Nat
  len : Nat
  deriving DecidableEq, Repr

/-- An access cut at page boundaries. -/
def pagePieces (addr n : Nat) : List Piece :=
  if n = 0 then [] else
  (countUp (addr / 2 ^ 18) ((addr + n - 1) / 2 ^ 18 + 1 - addr / 2 ^ 18)).map fun p =>
    let a := max addr (p * 2 ^ 18)
    ⟨p, a - p * 2 ^ 18, min (addr + n) ((p + 1) * 2 ^ 18) - a⟩

/-- The sectors of a piece. -/
def pieceSectors (q : Piece) : List Nat := countUp (q.off / 4096) ((q.off + q.len - 1) / 4096 + 1 - q.off / 4096)

/-- A mask of sectors. -/
def sectorMask (l : List Nat) : Nat := l.foldl (fun m k => m ||| 1 <<< k) 0

/-- A stalled access recorded: a stall that begins counts in PLC_LATE when it waits for a migration (R198). -/
def registerStall (s : State) (key : Nat) (fresh : Bool) (req : Option LtaReq) (p : Nat) (secs : List Nat)
    (late : Bool) : State :=
  if req.isNone && s.stalled.any (fun x => x.req.isNone && x.key == key) then
    { s with stalled := s.stalled.map (fun x => if x.req.isNone ∧ x.key = key
        then { x with page := p, sectors := secs } else x) }
  else
    let s := if fresh && late then bumpOcc s Csr.PLC_LATE 1 else s
    { s with stalled := s.stalled ++ [⟨key, p, secs, req⟩] }

/-- Whether a piece must wait, after what its arrival does: promotions queued and raised, demotions ended. -/
def pieceWaits (s : State) (write : Bool) (q : Piece) : State × Bool × Bool :=
  let e := pageEnt s q.page
  match e.state with
  | .invalid | .retired | .poison => (s, false, false)
  | .fastHomed | .cachedClean | .cachedDirty => (s, !frameOpen s (entFrame e) q.off q.len, false)
  | .deepResident =>
    if !write && !promoteQueued s q.page then (s, !stkOpen s (12 + dgaStack e.dga), false)
    else (raiseClass (queueMig s q.page .promote 0 []) q.page 0, true, true)
  | .migrating =>
    match pageSlot s q.page with
    | some (i, m) =>
      if m.dir = .promote then
        if !write && (pieceSectors q).all (fun k => bit m.arrived k) then
          (s, !frameOpen s (entFrame e) q.off q.len, false)
        else (raiseClass s q.page 0, true, true)
      else if write then
        let s := stopDemotion s i m
        (s, !frameOpen s (entFrame e) q.off q.len, false)
      else (s, !frameOpen s (entFrame e) q.off q.len, false)
    | none => (s, true, false)

/-- The first piece that waits. -/
def firstWait (s : State) (write : Bool) : List Piece → State × Option (Piece × Bool)
  | [] => (s, none)
  | q :: qs =>
    match pieceWaits s write q with
    | (s, true, late) => (s, some (q, late))
    | (s, false, _) => firstWait s write qs

/-- R193: bypass reads of the sectors of a piece. -/
def bypassRead (s : State) (p : Nat) (e : Ent) : List Nat → Hit
  | [] => { s := s }
  | k :: ks =>
    let h := deepSector (bumpStat s Csr.PLC_BYPASS 1 (some plcIdx)) p e k
    let t := bypassRead h.s p e ks
    { s := t.s, st := worse h.st t.st, loc := if h.st ≠ 0 then h.loc else t.loc,
      data := (if h.st = 0 then h.data else zeroSector) ++ t.data }

/-- R186: DIRTY bits set before a write to a cached page. -/
def markDirty (s : State) (p mask : Nat) : State :=
  let e := pageEnt s p
  match e.state with
  | .cachedClean | .cachedDirty => setEnt s p { e with dirty := e.dirty ||| mask, state := .cachedDirty }
  | _ => s

/-- R192, R193: heat of an admitted access, and the promotion it may queue. -/
def admitHeat (s : State) (q : Piece) : State :=
  let s := touchHeat s q.page (pieceSectors q).length
  let e := pageEnt s q.page
  let t := fld s Csr.PLC_HEAT 15 8
  if e.state = .deepResident ∧ t ≠ 0 ∧ t ≤ currentHeat s q.page ∧ ¬ e.lockFw then
    queueMig s q.page .promote 6 []
  else s

/-- A piece that need not wait, performed. -/
def pieceServe (s : State) (q : Piece) (wr? : Option Bytes) : Hit :=
  let s := touchCache (bumpStat s Csr.PLC_LOOKUPS 1 (some plcIdx)) q.page
  let e := pageEnt s q.page
  match e.state with
  | .invalid | .retired => { s := s, st := 0x0A, data := List.replicate q.len 0 }
  | .poison => { s := s, st := 0x03, data := List.replicate q.len 0 }
  | .deepResident =>
    let h := bypassRead (admitHeat s q) q.page e (pieceSectors q)
    { h with s := reportBad h.s q.page h.st h.loc, data := bytesAt h.data (q.off % 4096) q.len }
  | _ =>
    let s := admitHeat s q
    match wr? with
    | some bs =>
      let h := frameWrite (markDirty s q.page (sectorMask (pieceSectors q))) (entFrame e) q.off bs
      { h with s := reportBad h.s q.page h.st h.loc }
    | none =>
      let h := frameRead s (entFrame e) q.off q.len
      { h with s := reportBad h.s q.page h.st h.loc }

/-- The pieces of an access performed in order. -/
def serveAll (s : State) : List Piece → Option Bytes → Hit
  | [], _ => { s := s }
  | q :: qs, w =>
    let h := pieceServe s q (w.map (fun bs => bytesAt bs 0 q.len))
    let t := serveAll h.s qs (w.map (fun bs => bs.drop q.len))
    { s := t.s, st := worse h.st t.st, loc := if h.st ≠ 0 then h.loc else t.loc, data := h.data ++ t.data }

/-- R29: the access stays within the space. -/
def ltaInRange (addr n : Nat) : Bool := decide (addr + n ≤ 2 ^ 44)

/-- An access resolved: done with its status and bytes, or stalled. -/
def ltaRun (s : State) (key : Nat) (fresh : Bool) (req : Option LtaReq) (addr n : Nat) (w : Option Bytes) :
    State × Option (Nat × Bytes) :=
  if !plcRuns s then (registerStall s key fresh req (addr / 2 ^ 18) [] false, none)
  else if !plcReady s || !ltaInRange addr n then (s, some (0x0A, List.replicate n 0))
  else
    match firstWait s w.isSome (pagePieces addr n) with
    | (s, some (q, late)) => (registerStall s key fresh req q.page (pieceSectors q) late, none)
    | (s, none) =>
      let h := serveAll s (pagePieces addr n) w
      (h.s, some (h.st, h.data))

/-- An engine's access, identified by its key while it stalls. A status that ended its stall is taken. -/
def engineLta (s : State) (key addr n : Nat) (w : Option Bytes) : State × Option (Nat × Bytes) :=
  let st := smGet 0 s.stallFail key
  if st ≠ 0 then ({ s with stallFail := smSet 0 s.stallFail key 0 }, some (st, List.replicate n 0))
  else
    match ltaRun s key true none addr n w with
    | (s, some r) => ({ s with stalled := s.stalled.filter (fun x => x.req.isSome || x.key ≠ key) }, some r)
    | (s, none) => (s, none)

/-- An engine reads `n` bytes at an LTA. -/
def ltaRead (s : State) (key addr n : Nat) : State × Option (Nat × Bytes) := engineLta s key addr n none

/-- An engine writes bytes at an LTA; its status, or `none` while it stalls. -/
def ltaWrite (s : State) (key addr : Nat) (bs : Bytes) : State × Option Nat :=
  match engineLta s key addr bs.length (some bs) with
  | (s, some (st, _)) => (s, some st)
  | (s, none) => (s, none)

/-- Key of an engine's access: a kind below 32, a unit and a part. -/
def engKey (kind unit part : Nat) : Nat := kind + 32 * (unit + 65536 * part)

/-- R185: an access of the local tensor space by a unit outside the modelled engines. -/
def execLtaAccess (r : LtaReq) (s : State) : Out :=
  let s := r.fastFaults.foldl (fun s x => strikeLine s x.1 x.2) { s with answers := [] }
  let s := r.deepFaults.foldl (fun s x => strikeGran s x.1 x.2) s
  let w := if r.write then some (bytesAt r.data 0 r.len) else none
  match ltaRun s r.unit true (some r) r.addr r.len w with
  | (s, some (st, d)) => .next (answer s r.unit st (if r.write ∨ st ≠ 0 then [] else d))
  | (s, none) => .next s

/-- R198, R199: the n-th stalled request is tried again; it keeps its place while it must wait. -/
def execStalledRequestResume (n : Nat) (s : State) : Out :=
  let s := { s with answers := [] }
  match s.stalled[n]?, (s.stalled[n]?).bind (·.req) with
  | some _, some r =>
    let w := if r.write then some (bytesAt r.data 0 r.len) else none
    let t := { s with stalled := s.stalled.take n ++ s.stalled.drop (n + 1) }
    match ltaRun t r.unit false (some r) r.addr r.len w with
    | (t, some (st, d)) => .next (answer t r.unit st (if r.write ∨ st ≠ 0 then [] else d))
    | (t, none) =>
      match t.stalled.reverse with
      | x :: rest => .next { t with stalled := rest.reverse.take n ++ x :: rest.reverse.drop n }
      | [] => .next t
  | _, _ => .next s

/-! ### Starting a migration (R190, R195) -/

/-- The engine works on migrations: clocked, out of reset and ready. -/
def plcAlive (s : State) : Bool := awake s && plcReady s

/-- Frames of a domain that running demotions will free. -/
def freeingFrames (s : State) (d : Nat) : Nat :=
  ((runningMigs s).filter (fun x => x.2.dir == .demote &&
    (let e := pageEnt s x.2.page; domOf e.banked e.stack == d))).length

/-- R194: pressure demotion in a domain has reached FREE_HIGH. -/
def pressureMet (s : State) (d : Nat) : Bool :=
  decide (fld s Csr.PLC_FREE_TGT 31 16 ≤ freeFrames s d + freeingFrames s d)

/-- A waiting migration whose page no longer needs or allows it, and the status it ends with. -/
def migMoot (s : State) (m : Mig) : Option Nat :=
  let e := pageEnt s m.page
  match m.dir, e.state with
  | _, .invalid => some 0x0A
  | _, .retired => some 0x0A
  | _, .poison => some 0x03
  | _, .migrating => none
  | .promote, .deepResident => none
  | .promote, _ => some 0
  | .demote, .deepResident => some 0
  | .demote, .fastHomed => some 0x0A
  | .demote, _ =>
    if m.cls = 5 ∧ (e.pin ∨ e.lockFw ∨ pressureMet s (domOf e.banked e.stack)) then some 0 else none
  | .flush, .deepResident => some 0x0A
  | .flush, .fastHomed => some 0x0A
  | .flush, _ => none

/-- Waiting migrations that are moot leave the list. -/
def settleMigs (s : State) : State :=
  (s.migq.filterMap (fun m => (migMoot s m).map (fun st => (m, st)))).foldl (fun s x =>
    notify { s with migq := s.migq.filter (fun m => m ≠ x.1) } x.1.page x.1.dir x.2) s

/-- A waiting migration may take a slot now: no other of its page runs, no near-bank unit holds the page, its
set has room for the pin, and a promotion that waits for a frame can have one. -/
def migMay (s : State) (m : Mig) : Bool :=
  let e := pageEnt s m.page
  (pageSlot s m.page).isNone && !nbuLocked s m.page && decide (e.state ≠ .migrating)
    && (m.dir == .flush || mayPin s m.page)
    && (!m.frameWait || (findFrame s (domOf e.banked e.stack)).isSome)

/-- R195: the oldest of the lowest class among those that may start. -/
def pickMig (l : List Mig) : Option Mig :=
  l.foldl (fun best m => match best with
    | none => some m
    | some b => if m.cls < b.cls then some m else best) none

/-- R195: a slot is free for class c: two of the slots in use serve only class 0. -/
def slotFree (s : State) (c : Nat) : Option Nat :=
  let n := fld s Csr.PLC_MIG 5 0
  let run := runningMigs s
  if n ≤ run.length then none
  else if c ≠ 0 ∧ n ≤ (run.filter (fun x => x.2.cls ≠ 0)).length + 2 then none
  else (countUp 0 32).find? (fun i => (slotOf s i).isNone)

/-- A chosen migration takes slot i. -/
def startMig (s : State) (i : Nat) (m : Mig) : State :=
  let e := pageEnt s m.page
  let s' := { s with migq := s.migq.filter (fun x => x ≠ m) }
  match m.dir with
  | .promote =>
    match allocFrame s' (domOf e.banked e.stack) with
    | none => { s with migq := s.migq.map (fun x => if x = m then { x with frameWait := true } else x) }
    | some (s', f) =>
      let s' := touchCache s' m.page
      setSlot (setEnt s' m.page { pageEnt s' m.page with state := .migrating, frame := f }) i
        (some { m with start := e.state, frameWait := false })
  | .demote =>
    let s' := touchCache s' m.page
    setSlot (setEnt s' m.page { pageEnt s' m.page with state := .migrating }) i (some { m with start := e.state })
  | .flush => setSlot (touchCache s' m.page) i (some { m with start := e.state })

/-- R195: a free slot goes to the oldest waiting migration of the lowest class. -/
def execMigrationStart (s : State) : Out :=
  if plcAlive s ∧ plcRuns s then
    let s := settleMigs s
    match pickMig (s.migq.filter (fun m => migMay s m && (slotFree s m.cls).isSome)) with
    | none => .next s
    | some m =>
      match slotFree s m.cls with
      | some i => .next (startMig s i m)
      | none => .next s
  else .next s

/-- R190: the wait of a page's promotion for a frame expires. -/
def execFrameWaitExpire (page : Nat) (s : State) : Out :=
  let s := { s with answers := [] }
  if plcAlive s ∧ s.migq.any (fun m => m.page = page ∧ m.dir = .promote ∧ m.frameWait) then
    let e := pageEnt s page
    let s := { s with migq := s.migq.filter (fun m => ¬ (m.page = page ∧ m.dir = .promote)) }
    let s := notify (endStalled s page 0x0B) page .promote 0x0B
    .next (raise s plcSrc 0x06 page (if e.banked then e.stack else 0xF))
  else .next s

/-! ### Promotion (R196) and write-back (R197) -/

/-- R196: the next sector of a promotion: sectors waited for, in order of arrival; the firing Ephemeris
ranges; the rest. -/
def nextSector (s : State) (m : Mig) : Option Nat :=
  let want := ((s.stalled.filter (fun x => x.page = m.page)).map (·.sectors)).flatten
  let eph := (m.eph.map (fun r => countUp r.1 r.2)).flatten
  (want ++ eph ++ countUp 0 64).find? (fun k => decide (k < 64) && !bit m.arrived k)

/-- R196: a promotion moves one sector up; the last one makes the page CACHED_CLEAN. -/
def execPromotionSector (slot : Fin 32) (s : State) : Out :=
  let s := { s with answers := [] }
  match slotOf s slot with
  | some m =>
    let e := pageEnt s m.page
    match m.dir, nextSector s m with
    | .promote, some k =>
      if !plcAlive s || !stkOpen s (12 + dgaStack e.dga) || !frameOpen s (entFrame e) (k * 4096) 4096 then .next s
      else
        let h := deepSector s m.page e k
        if h.st = 0x02 ∨ h.st = 0x03 then .next (poisonPage h.s m.page h.st h.loc)
        else
          let w := frameWrite h.s (entFrame e) (k * 4096) h.data
          if w.st ≠ 0 then .next (abandonMig w.s slot m w.st)
          else
            let m := { m with arrived := m.arrived ||| 1 <<< k }
            if m.arrived = 2 ^ 64 - 1 then
              let s := setEnt w.s m.page { pageEnt w.s m.page with state := .cachedClean, dirty := 0 }
              let s := bumpStat (setSlot s slot none) Csr.PLC_PROMOTIONS 1 (some plcIdx)
              .next (notify s m.page .promote 0)
            else .next (setSlot w.s slot (some m))
    | _, _ => .next s
  | none => .next s

/-- R197: the first run of granules of an extent that its map does not reference. -/
def freeGranules (extLen n : Nat) (ents : List MapEnt) : Option Nat :=
  let used := fun g => ents.any (fun m => decide (m.method ≠ 0) && decide (m.off ≤ g) && decide (g < m.off + m.count))
  (countUp 1 (extLen - n)).find? (fun o => decide (o + n ≤ extLen) && (countUp o n).all (fun g => !used g))

/-- All 64 sectors of a frame. -/
def frameSectors (s : State) (f : Frame) : List Nat → Hit × List Bytes
  | [] => ({ s := s }, [])
  | k :: ks =>
    let h := frameRead s f (k * 4096) 4096
    let (t, l) := frameSectors h.s f ks
    ({ s := t.s, st := worse h.st t.st, loc := if h.st ≠ 0 then h.loc else t.loc }, h.data :: l)

/-- Compressed sectors laid out from granule `g` on: map entries and the bytes in order. -/
def layOut (g : Nat) : List (Nat × Bytes) → List MapEnt × Bytes
  | [] => ([], [])
  | (method, bs) :: l =>
    let n := bs.length / 512
    let (es, rest) := layOut (g + n) l
    (⟨method, n, if n = 0 then 0 else g⟩ :: es, bs ++ rest)

/-- R197: the extent is relocated: a new one is built from all 64 sectors of the frame. Answers the state and
a status: OK, QUOTA, or the failure of a frame read with its place. -/
def relocateExtent (s : State) (p : Nat) : State × Nat × Nat :=
  let e := pageEnt s p
  let (h, secs) := frameSectors s (entFrame e) (countUp 0 64)
  if h.st ≠ 0 then (h.s, h.st, h.loc)
  else
    let (ents, bs) := layOut 1 (secs.map (compressSector e.cfmt))
    let n := ceilDiv (1 + bs.length / 512) 16 * 16
    match allocExtent h.s n with
    | none => (deepFull h.s p n, 0x0B, 0)
    | some (s, g) =>
      let s := gransWrite s (g + 1) (bs.length / 512) bs
      let s := granWrite s g (mapBytes p e.cfmt ents)
      let done := ((countUp 0 64).filter (fun k => bit e.dirty k)).length
      let s := setEnt s p { pageEnt s p with dga := g, extLen := n, dirty := 0 }
      let s := bumpStat (bumpOcc (freeExtent s e.dga e.extLen) Csr.PLC_RELOC 1) Csr.PLC_WB_SECTORS done (some plcIdx)
      (s, 0, 0)

/-- R197: dirty sector k written back. Answers the state, a status and the place of a failure. -/
def writeBack (s : State) (p k : Nat) : State × Nat × Nat :=
  let e := pageEnt s p
  let h := frameRead s (entFrame e) (k * 4096) 4096
  if h.st ≠ 0 then (h.s, h.st, h.loc)
  else
    let (hm, m) := readMap h.s p e
    if hm.st ≠ 0 then (hm.s, hm.st, hm.loc)
    else if m.ents.any (mapEntBad e.extLen) then (hm.s, 0x02, 0)
    else
      let (method, bs) := compressSector e.cfmt h.data
      let n := bs.length / 512
      let others := (m.ents.take k ++ m.ents.drop (k + 1)).any (fun x => x.method = 2)
      match (if n = 0 then some 0 else freeGranules e.extLen n m.ents) with
      | some o =>
        if m.cfmt ≠ e.cfmt ∧ others then relocateExtent hm.s p
        else
          let s := gransWrite hm.s (e.dga + o) n bs
          let ents := m.ents.take k ++ ⟨method, n, o⟩ :: m.ents.drop (k + 1)
          let s := granWrite s e.dga (mapBytes p e.cfmt ents)
          let s := setEnt s p { pageEnt s p with dirty := (pageEnt s p).dirty &&& (2 ^ 64 - 1 - 2 ^ k) }
          (bumpStat s Csr.PLC_WB_SECTORS 1 (some plcIdx), 0, 0)
      | none => relocateExtent hm.s p

/-- R188: a write-back with no dirty sector left ends. -/
def finishWriteback (s : State) (slot : Nat) (m : Mig) : State :=
  let e := pageEnt s m.page
  let s := setSlot s slot none
  match m.dir with
  | .demote =>
    let s := setEnt (giveFrame s e 0) m.page { e with state := .deepResident, frame := 0 }
    notify (bumpStat s Csr.PLC_DEMOTIONS 1 (some plcIdx)) m.page .demote 0
  | _ =>
    let s := if e.state = .cachedDirty then setEnt s m.page { e with state := .cachedClean } else s
    notify s m.page .flush 0

/-- The lowest sector of a mask. -/
def lowSector (mask : Nat) : Option Nat := (countUp 0 64).find? (fun k => bit mask k)

/-- R197: a demotion or flush writes one dirty sector back. -/
def execWritebackSector (slot : Fin 32) (s : State) : Out :=
  let s := { s with answers := [] }
  match slotOf s slot with
  | some m =>
    let e := pageEnt s m.page
    if m.dir = .promote ∨ ¬ plcAlive s ∨ ¬ stkOpen s (12 + dgaStack e.dga) ∨
        ¬ frameOpen s (entFrame e) 0 262144 then .next s
    else
      match lowSector e.dirty with
      | none => .next (finishWriteback s slot m)
      | some k =>
        match writeBack s m.page k with
        | (s, 0, _) =>
          if (pageEnt s m.page).dirty = 0 then .next (finishWriteback s slot m) else .next s
        | (s, st, loc) =>
          if st = 0x02 ∨ st = 0x03 then .next (poisonPage s m.page st loc)
          else .next (abandonMig s slot m st)
  | none => .next s

/-! ### Timeouts (R176, R213) -/

/-- R213: a granule request that timed out ends what it served. -/
def timeoutUse (s : State) (r : GranReq) : State :=
  let abandon (p : Nat) (ok : MigDir → Bool) (s : State) : State :=
    match pageSlot s p with
    | some (i, m) =>
      if ok m.dir then
        let s := raise (bumpOcc s Csr.PLC_TMO 1) plcSrc 0x02 p r.dga
        abandonMig s i m 0x04
      else s
    | none => s
  match r.use with
  | .plain => answer s plcUnit 0x04 []
  | .bypass u _ =>
    let s := bumpOcc s Csr.PLC_TMO 1
    let (mine, rest) := s.stalled.partition (fun x => x.key = u)
    if mine.any (fun x => x.req.isNone) then
      { s with stalled := rest, stallFail := smSet 0 s.stallFail u 0x04 }
    else answer { s with stalled := rest } u 0x04 []
  | .promotion p => abandon p (fun d => d == .promote) s
  | .writeback p => abandon p (fun d => d != .promote) s

/-- R176: request n of a deep controller reaches the tier timeout. -/
def execDeepTierTimeout (d : Fin 8) (n : Nat) (issued : Bool) (s : State) : Out :=
  let s := { s with answers := [] }
  match (stkOf s (12 + d)).grans[n]? with
  | some (r, some _) =>
    if fld s (Csr.DSC_TMO d) 23 0 = 0 ∨ ¬ awake s ∨ blkHeld s (stkIdx (12 + d)) then .next s
    else
      let s := bumpOcc (dropGran s (12 + d) n) (Csr.DSC_TMO_CNT d) 1
      let s := if r.write ∧ issued then gransWrite s r.dga r.count r.data else s
      .next (timeoutUse s r)
  | _ => .next s

/-! ### Epoch, sweeper, reports and replay -/

/-- R192: the decay epoch counter increments. -/
def execEpochTick (s : State) : Out :=
  if plcRuns s ∧ fld s Csr.PLC_EPOCH_CYC 31 0 ≠ 0 then
    .next (setFld s Csr.PLC_EPOCH 15 0 (epochNow s + 1))
  else .next s

/-- R192, R194: the sweeper of an edge die visits its next entry. -/
def execSweepVisit (die : Fin 2) (s : State) : Out :=
  if plcTakes s ∧ fld s Csr.PLC_SWEEP 15 0 ≠ 0 then
    let i := smGet 0 s.sweep die
    let p := 2 * i + die
    let s := { s with sweep := smSet 0 s.sweep die ((i + 1) % 2 ^ 25) }
    let s := setHeat s p (currentHeat s p) (epochNow s)
    let e := pageEnt s p
    let d := domOf e.banked e.stack
    if (e.state = .cachedClean ∨ e.state = .cachedDirty) ∧ freeFrames s d < fld s Csr.PLC_FREE_TGT 15 0
        ∧ ¬ pressureMet s d ∧ ¬ e.pin ∧ ¬ e.lockFw ∧ ¬ nbuLocked s p
        ∧ currentHeat s p ≤ fld s Csr.PLC_HEAT 7 0 then
      .next (queueMig s p .demote 5 [])
    else .next s
  else .next s

/-- R214: a requester reports data of a page that a controller gave as uncorrectable or poisoned. -/
def execPagePoisonReport (page : Nat) (status : Byte) (loc : W64) (s : State) : Out :=
  let s := { s with answers := [] }
  if plcAlive s ∧ page < 2 ^ 26 then .next (reportBad s page status.toNat loc.toNat) else .next s

/-- R174, R200, R218: a reset reaches the engine: stalled requests end, waiting migrations and commands are
forgotten, plans are unloaded; the slots stay in the journal until the replay. A cold reset clears the region. -/
def plcReset (s : State) (cold : Bool) : State :=
  let s := s.stalled.foldl (fun s x => match x.req with
    | some r => answer s r.unit 0x08 []
    | none => { s with stallFail := smSet 0 s.stallFail x.key 0x08 }) s
  let s := { s with stalled := [], migq := [], pageCache := [], holders := [], frameCur := [], blockCur := [],
                    sweep := [], plcCh := [], plans := [], ephResults := [], triggers := [],
                    plcRestoring := s.plcRestoring || !cold }
  if cold then
    { s with pages := [], frameMap := [], blocks := [], slots := [], plcFits := false, plcRestoring := false }
  else s

/-- R200: journal replay: every migrating page returns to its starting state. -/
def execPlcJournalReplay (s : State) : Out :=
  if awake s ∧ ¬ inResetBit s plcIdx ∧ s.plcRestoring then
    let s := (runningMigs s).foldl (fun s x => setSlot (revertMig s x.2) x.1 none) s
    .next { s with plcRestoring := false }
  else .next s

end Sys2Proof.Machine
end

