-- ==== Sys2Proof/Machine/PlaceCmd.lean ====
section
/-! DEFINITION. The placement engine's command channels (R205, R206) and the Ephemeris (R207 to R211). The
commands are issued by register writes; what a write of PLC_CMD does is `plcIssue`. -/

namespace Sys2Proof.Machine

/-! ### Page commands, one part at a time (R188, R206) -/

/-- Migrations of a page that leaves the placement engine's care are dropped. -/
def dropMigs (s : State) (p : Nat) : State :=
  let s := { s with migq := s.migq.filter (fun m => m.page ≠ p) }
  let s := match pageSlot s p with
    | some (i, _) => setSlot s i none
    | none => s
  notify (notify (notify s p .promote 0x0A) p .demote 0x0A) p .flush 0x0A

/-- Frame and extent of a page given up; its frame takes code c. -/
def freeStorage (s : State) (e : Ent) (c : Nat) : State :=
  let s := if hasFrame e then giveFrame s e c else s
  if e.extLen = 0 then s else freeExtent s e.dga e.extLen

/-- R205: the status of a page whose state a command does not admit. -/
def notAdmitted (e : Ent) : PlcPart := .ended (if e.state = .poison then 0x03 else 0x0A)

/-- R191: a map granule of 64 ZERO sectors. -/
def blankMap (p cfmt : Nat) : Bytes := mapBytes p cfmt (List.replicate 64 {})

/-- R191: an extent of 16 granules whose sectors are all ZERO. -/
def newExtent (s : State) (p cfmt : Nat) : Option (State × Nat) :=
  (allocExtent s 16).map (fun x => (granWrite x.1 x.2 (blankMap p cfmt), x.2))

/-- Requests of the new frame's domain and the deep stacks are taken now. -/
def tiersOpen (s : State) (is : List Nat) : Bool := is.all (fun i => stkOpen s i)

/-- The stacks of a whole frame. -/
def frameAll (f : Frame) : List Nat := if f.banked then [f.stack] else countUp 0 12

/-- R206: the end of a MAP in the fast tier, after frame f of domain d was zeroed. -/
def mapFastDone (h : Hit) (p d f : Nat) (n : Ent) : State × PlcPart :=
  if h.st ≠ 0 then (setFrameCode h.s d f 0, .ended h.st)
  else (setEnt h.s p { n with state := .fastHomed, frame := f }, .ended 0)

/-- MAP. -/
def partMapCmd (s : State) (p a1 a2 : Nat) : State × PlcPart :=
  let e := pageEnt s p
  let banked := bit a1 1
  let stack := bits a1 5 2
  let cfmt := bits a1 9 6
  if (banked ∧ 11 < stack) ∨ (0xC ≤ cfmt ∧ cfmt ≤ 0xE) then (s, .ended 0x09)
  else if e.state ≠ .invalid then (s, notAdmitted e)
  else
    let n : Ent := { cfmt := cfmt, banked := banked, stack := stack, pin := bit a1 10, swtag := a2 }
    if bit a1 0 then
      if !tiersOpen s (countUp 12 8) then (s, .todo)
      else match newExtent s p cfmt with
        | none => (deepFull s p 16, .ended 0x0B)
        | some (s, g) => (setEnt s p { n with state := .deepResident, dga := g, extLen := 16 }, .ended 0)
    else
      let d := domOf banked stack
      match allocFrame s d with
      | none => (s, .ended 0x0B)
      | some (s', f) =>
        let fr : Frame := ⟨banked, stack, f⟩
        if !tiersOpen s (frameAll fr) then (s, .todo)
        else
          mapFastDone (frameWrite s' fr 0 zeroPage) p d f n

/-- UNMAP. -/
def partUnmap (s : State) (p : Nat) : State × PlcPart :=
  let e := pageEnt s p
  if e.state = .invalid ∨ e.state = .retired then (s, .ended 0x0A)
  else (setEnt (dropMigs (freeStorage s e 0) p) p {}, .ended 0)

/-- SET_ATTR. -/
def partSetAttr (s : State) (p a1 a2 : Nat) : State × PlcPart :=
  let e := pageEnt s p
  if (bit a1 19 ∧ bit a1 6 ∧ 11 < bits a1 10 7) ∨ (bit a1 18 ∧ 0xC ≤ bits a1 5 2 ∧ bits a1 5 2 ≤ 0xE) then
    (s, .ended 0x09)
  else if e.state = .invalid ∨ e.state = .retired then (s, .ended 0x0A)
  else if bit a1 19 ∧ e.state ≠ .deepResident then (s, notAdmitted e)
  else
    let e := if bit a1 16 then { e with pin := bit a1 0 } else e
    let e := if bit a1 17 then { e with lockFw := bit a1 1 } else e
    let e := if bit a1 18 then { e with cfmt := bits a1 5 2 } else e
    let e := if bit a1 19 then { e with banked := bit a1 6, stack := bits a1 10 7 } else e
    let e := if bit a1 20 then { e with swtag := a2 } else e
    (setEnt s p e, .ended 0)

/-- PROMOTE. -/
def partPromote (s : State) (p a1 : Nat) : State × PlcPart :=
  let e := pageEnt s p
  match e.state with
  | .deepResident => (raiseClass (queueMig s p .promote (if bit a1 0 then 0 else 4) []) p
                        (if bit a1 0 then 0 else 4), .waits)
  | .fastHomed | .cachedClean | .cachedDirty => (s, .ended 0)
  | _ => (s, notAdmitted e)

/-- DEMOTE. -/
def partDemote (s : State) (p : Nat) : State × PlcPart :=
  let e := pageEnt s p
  match e.state with
  | .deepResident => (s, .ended 0)
  | .cachedClean | .cachedDirty =>
    if e.pin ∨ e.lockFw ∨ nbuLocked s p then (s, .ended 0x0A) else (queueMig s p .demote 7 [], .waits)
  | _ => (s, notAdmitted e)

/-- FLUSH. -/
def partFlush (s : State) (p : Nat) : State × PlcPart :=
  let e := pageEnt s p
  match e.state with
  | .cachedClean => (s, .ended 0)
  | .cachedDirty => (queueMig s p .flush 7 [], .waits)
  | _ => (s, notAdmitted e)

/-- HOME. -/
def partHome (s : State) (p a1 : Nat) : State × PlcPart :=
  let e := pageEnt s p
  if bit a1 0 then
    match e.state with
    | .fastHomed =>
      if !tiersOpen s (countUp 12 8) then (s, .todo)
      else match newExtent s p e.cfmt with
        | none => (deepFull s p 16, .ended 0x0B)
        | some (s, g) =>
          (setEnt s p { e with state := .cachedDirty, dga := g, extLen := 16, dirty := 2 ^ 64 - 1 }, .ended 0)
    | .deepResident | .cachedClean | .cachedDirty => (s, .ended 0)
    | _ => (s, notAdmitted e)
  else
    match e.state with
    | .fastHomed => (s, .ended 0)
    | .cachedClean | .cachedDirty => (homeFast (dropMigs s p) p, .ended 0)
    | .deepResident => (raiseClass (queueMig s p .promote 4 []) p 4, .waits)
    | _ => (s, notAdmitted e)

/-- 64 sectors copied from a reader to a frame; stops at the first failure. -/
def copySectors (f : Frame) : State → List Bytes → Nat → Hit
  | s, [], _ => { s := s }
  | s, b :: bs, k =>
    let h := frameWrite s f (k * 4096) b
    if h.st ≠ 0 then h else copySectors f h.s bs (k + 1)

/-- RELOCATE. The copy is one step, so that no write meets it. -/
def partRelocate (s : State) (p a1 : Nat) : State × PlcPart :=
  let e := pageEnt s p
  let banked := bit a1 1
  let stack := bits a1 5 2
  if banked ∧ 11 < stack then (s, .ended 0x09)
  else match e.state with
    | .fastHomed | .cachedClean | .cachedDirty =>
      let d := domOf banked stack
      match allocFrame s d with
      | none => (s, .ended 0x0B)
      | some (s', f) =>
        let fr : Frame := ⟨banked, stack, f⟩
        if !tiersOpen s (frameAll fr ++ frameAll (entFrame e)) then (s, .todo)
        else
          let (h, secs) := frameSectors s' (entFrame e) (countUp 0 64)
          if h.st ≠ 0 then (reportBad (setFrameCode h.s d f 0) p h.st h.loc, .ended h.st)
          else
            let w := copySectors fr h.s secs 0
            if w.st ≠ 0 then (setFrameCode w.s d f 0, .ended w.st)
            else
              let s := giveFrame w.s e (if bit a1 0 then 2 else 0)
              (setEnt s p { pageEnt s p with banked := banked, stack := stack, frame := f }, .ended 0)
    | _ => (s, notAdmitted e)

/-- RETIRE. -/
def partRetire (s : State) (p : Nat) : State × PlcPart :=
  let e := pageEnt s p
  if e.state = .invalid ∨ e.state = .retired then (s, .ended 0x0A)
  else
    let s := dropMigs (freeStorage s e 2) p
    (setEnt s p { e with state := .retired, frame := 0, dirty := 0, pstate := .invalid, extLen := 0, dga := 0 },
     .ended 0)

/-- RELEASE. -/
def partRelease (s : State) (p : Nat) : State × PlcPart :=
  let e := pageEnt s p
  if e.state = .retired then (setEnt s p {}, .ended 0) else (s, notAdmitted e)

/-- REBUILD. -/
def partRebuild (s : State) (ch p a1 a2 : Nat) : State × PlcPart :=
  let e := pageEnt s p
  if e.state ≠ .poison then (s, .ended 0x0A)
  else if bits a1 17 0 ≠ 0 then (s, .ended 0x0A)
  else
    let own := hasFrame e && !bit a2 0
    let d := domOf e.banked e.stack
    match (if own then some (s, e.frame) else allocFrame s d) with
    | none => (s, .ended 0x0B)
    | some (s', f) =>
      let fr : Frame := ⟨e.banked, e.stack, f⟩
      if !tiersOpen s (frameAll fr) then (s, .todo)
      else
        let undo (s : State) : State := if own then s else setFrameCode s d f 0
        match ltaRead s' (engKey 1 ch 0) (bits a1 43 0) 262144 with
        | (s, none) => (undo s, .todo)
        | (s, some (st, data)) =>
          if st ≠ 0 then (undo s, .ended st)
          else
            let h := frameWrite s fr 0 data
            if h.st ≠ 0 then (undo h.s, .ended h.st)
            else
              let s := if own || !hasFrame e then h.s else giveFrame h.s e 2
              let e := { e with frame := f, pstate := .invalid }
              (setEnt s p (if e.extLen = 0 then { e with state := .fastHomed, dirty := 0 }
                           else { e with state := .cachedDirty, dirty := 2 ^ 64 - 1 }), .ended 0)

/-- READ: the entry with its heat decayed; the stored entry is not changed. -/
def partRead (s : State) (ch p : Nat) : State × PlcPart :=
  let ws := entWords (pageEnt s p) (currentHeat s p) (epochNow s) (nbuLocked s p)
  ((ws.zip (countUp 0 4)).foldl (fun s x => wr s (Csr.PLC_CMD_ENTRY ch x.2) x.1) s, .ended 0)

/-- One part of a page command tried. A part whose page migrates waits. -/
def tryPart (s : State) (ch : Nat) (c : PlcCmd) (i : Nat) : State × PlcPart :=
  let p := cmdPage c + i
  if !plcReady s then (s, .ended 0x0A)
  else if 2 ^ 26 ≤ p then (s, .ended 0x0A)
  else if (pageEnt s p).state = .migrating then (s, .todo)
  else match c.op with
    | 0x01 => partRead s ch p
    | 0x02 => partMapCmd s p c.a1 c.a2
    | 0x03 => partUnmap s p
    | 0x04 => partSetAttr s p c.a1 c.a2
    | 0x05 => partPromote s p c.a1
    | 0x06 => partDemote s p
    | 0x07 => partFlush s p
    | 0x08 => partHome s p c.a1
    | 0x09 => partRelocate s p c.a1
    | 0x0A => partRetire s p
    | 0x0B => partRelease s p
    | _ => partRebuild s ch p c.a1 c.a2

/-- The parts of a channel's page command that have not begun are tried, lowest first. -/
def tryParts (ch : Nat) : Nat → Nat → State → State
  | 0, _, s => s
  | n + 1, i, s =>
    match smGet none s.plcCh ch with
    | none => s
    | some c =>
      let s :=
        if c.parts[i]? = some .todo then
          let (s, r) := tryPart s ch c i
          match smGet none s.plcCh ch with
          | some c => { s with plcCh := smSet none s.plcCh ch (some { c with parts := setPart c.parts i r }) }
          | none => s
        else s
      tryParts ch n (i + 1) s

/-! ### Ephemeris plans (R206 to R209) -/

def planOf (s : State) (p : Nat) : Plan := smGet {} s.plans p

def setPlan (s : State) (p : Nat) (v : Plan) : State := { s with plans := smSet {} s.plans p v }

/-- Fields of an Ephemeris entry (R207). -/
def ephGroup (b : Bytes) : Nat := bits (fieldAt b 0 4) 31 26
def ephTarget (b : Bytes) : Nat := bits (fieldAt b 0 4) 25 24
def ephPrio (b : Bytes) : Nat := bits (fieldAt b 0 4) 23 22
def ephMarkerOf (b : Bytes) : Nat := bits (fieldAt b 0 4) 15 0
def ephLead (b : Bytes) : Nat := bits (fieldAt b 4 4) 7 0
def ephLta (b : Bytes) : Nat := bits (fieldAt b 8 8) 43 0
def ephSectors (b : Bytes) : Nat := bits (fieldAt b 16 4) 23 0
def ephCore (b : Bytes) : Nat := 24 * bits (fieldAt b 20 4) 31 30 + bits (fieldAt b 20 4) 29 25
def ephTag (b : Bytes) : Nat := fieldAt b 28 4

/-- R208: how an entry loads: OK, or void with a status. -/
def ephCheck (b : Bytes) : Nat :=
  let w20 := fieldAt b 20 4
  let w24 := fieldAt b 24 4
  let t := ephTarget b
  if 2 ≤ t ∨ bits (fieldAt b 0 4) 19 16 ≠ 0 ∨ bits (fieldAt b 4 4) 31 8 ≠ 0 ∨ ephLead b = 0
      ∨ bits (fieldAt b 8 8) 63 44 ≠ 0 ∨ bits (fieldAt b 16 4) 31 24 ≠ 0 ∨ ephSectors b = 0
      ∨ (t = 0 ∧ (w20 ≠ 0 ∨ w24 ≠ 0))
      ∨ (t = 1 ∧ (bits w20 24 22 ≠ 0 ∨ bits w24 31 8 ≠ 0 ∨ bit w24 6)) then 0x09
  else if ephLta b % 4096 ≠ 0 ∨ 2 ^ 44 < ephLta b + ephSectors b * 4096
      ∨ (t = 1 ∧ (2 ^ 22 < bits w20 21 0 + ephSectors b * 4096 ∨ 23 < bits w20 29 25 ∨ bits w20 5 0 ≠ 0)) then 0x0A
  else 0

/-- Entries held by all plans. -/
def triggerUse (s : State) : Nat := ((countUp 0 4).map (fun p => (planOf s p).ents.length)).foldl (· + ·) 0

/-- The plan's status registers follow it. -/
def showPlan (s : State) (p : Nat) : State :=
  let v := planOf s p
  wr s (Csr.EPH_STAT p) ((if v.loaded then 1 <<< 31 else 0) + (if v.armed then 1 <<< 30 else 0) + v.ents.length)

/-- The entries of a load read once each; `none` while a read stalls. -/
def readEntries (ch : Nat) (a : Nat) : Nat → Nat → State → State × Option (List (Nat × Bytes))
  | 0, _, s => (s, some [])
  | n + 1, i, s =>
    match ltaRead s (engKey 2 ch i) (a + 32 * i) 32 with
    | (s, none) => (s, none)
    | (s, some r) =>
      match readEntries ch a n (i + 1) s with
      | (s, none) => (s, none)
      | (s, some l) => (s, some (r :: l))

/-- EPH_LOAD. -/
def ephLoadEff (s : State) (ch : Nat) (c : PlcCmd) : State × PlcCmd :=
  let p := bits c.a0 1 0
  let n := bits c.a2 14 0
  let a := bits c.a1 43 0
  if n = 0 then (s, { c with whole := some 0x09 })
  else if 16384 < n ∨ a % 32 ≠ 0 ∨ (planOf s p).loaded then (s, { c with whole := some 0x0A })
  else if 16384 < triggerUse s + n then (s, { c with whole := some 0x0B })
  else match readEntries ch a n 0 s with
    | (s, none) => (s, { c with parts := [.todo] })
    | (s, some l) =>
      let ents : List (EphEnt × Nat) := l.map (fun x =>
        let st := if x.1 ≠ 0 then x.1 else ephCheck x.2
        ({ b := x.2, isVoid := st ≠ 0 }, st))
      let s := { s with ephResults := s.ephResults.filter (fun r => r.1 ≠ p) }
      (showPlan (setPlan s p { loaded := true, ents := ents.map (·.1) }) p,
       { c with parts := ents.map (fun x => .ended x.2) })

/-- EPH_ARM: every non-void entry is ready to fire once; entries in progress continue. -/
def ephArmEff (s : State) (c : PlcCmd) : State × Nat :=
  let p := bits c.a0 1 0
  let v := planOf s p
  if !v.loaded then (s, 0x0A)
  else
    let ents := v.ents.map (fun e => { e with ready := !e.isVoid, done := false, late := false,
                                              runs := e.runs.map (fun r => { r with now := false }) })
    let s := showPlan (setPlan s p { v with armed := true, ents := ents }) p
    (wr (wr s (Csr.EPH_STEP p) (bits c.a1 31 0)) (Csr.EPH_FIRED p) 0, 0)

/-- EPH_DISARM. -/
def ephDisarmEff (s : State) (c : PlcCmd) : State × Nat :=
  let p := bits c.a0 1 0
  let v := planOf s p
  if !v.armed then (s, 0x0A)
  else (showPlan (setPlan s p { v with armed := false, ents := v.ents.map (fun e => { e with ready := false }) }) p, 0)

/-- EPH_UNLOAD. -/
def ephUnloadEff (s : State) (c : PlcCmd) : State × Nat :=
  let p := bits c.a0 1 0
  let v := planOf s p
  if !v.loaded || v.armed || v.ents.any (fun e => !e.runs.isEmpty) then (s, 0x0A)
  else (showPlan (setPlan s p {}) p, 0)

/-! ### Issue and completion (R205) -/

/-- R205: bits of the arguments that a command names: ARG0, ARG1 and ARG2 masks; `none` for a reserved OP. A
used argument with another bit set makes the command malformed; an unused one (`none`) is ignored. -/
def argMasks (op : Nat) : Option (Nat × Option Nat × Option Nat) :=
  let pages := 2 ^ 26 - 1 + (2 ^ 48 - 2 ^ 32)
  match op with
  | 0x01 => some (pages, none, none)
  | 0x02 => some (pages, some 0x7FF, some (2 ^ 64 - 1))
  | 0x03 => some (pages, none, none)
  | 0x04 => some (pages, some 0x1F_07FF, some (2 ^ 64 - 1))
  | 0x05 => some (pages, some 1, none)
  | 0x06 => some (pages, none, none)
  | 0x07 => some (pages, none, none)
  | 0x08 => some (pages, some 1, none)
  | 0x09 => some (pages, some 0x3F, none)
  | 0x0A => some (pages, none, none)
  | 0x0B => some (pages, none, none)
  | 0x0C => some (pages, some (2 ^ 44 - 1), some 1)
  | 0x10 => some (3, some (2 ^ 44 - 1), some 0x7FFF)
  | 0x11 => some (3, some 0xFFFF_FFFF, none)
  | 0x12 => some (3, none, none)
  | 0x13 => some (3, none, none)
  | _ => none

/-- Bits of `v` outside a mask. -/
def strayBits (v : Nat) : Option Nat → Bool
  | none => false
  | some m => decide (v &&& m ≠ v)

/-- R16, R205: malformed arguments. -/
def argsBad (op a0 a1 a2 : Nat) : Bool :=
  match argMasks op with
  | none => true
  | some (m0, m1, m2) =>
    strayBits a0 (some m0) || strayBits a1 m1 || strayBits a2 m2
      || ((op = 0x01 ∨ op = 0x09 ∨ op = 0x0C) && decide (bits a0 47 32 ≠ 0))

/-- A plan command tried. -/
def tryPlan (s : State) (ch : Nat) (c : PlcCmd) : State :=
  let put (x : State × PlcCmd) : State := { x.1 with plcCh := smSet none x.1.plcCh ch (some x.2) }
  let putSt (x : State × Nat) : State := put (x.1, { c with whole := some x.2 })
  match c.op with
  | 0x10 => put (ephLoadEff s ch c)
  | 0x11 => putSt (ephArmEff s c)
  | 0x12 => putSt (ephDisarmEff s c)
  | _ => putSt (ephUnloadEff s c)

/-- What is left of a channel's command is tried. -/
def plcTry (s : State) (ch : Nat) : State :=
  match smGet none s.plcCh ch with
  | none => s
  | some c =>
    if c.whole.isSome then s
    else if 0x10 ≤ c.op then (if c.parts = [] ∨ c.parts = [.todo] then tryPlan s ch { c with parts := [] } else s)
    else tryParts ch c.parts.length 0 s

/-- R205: a non-zero OP written to PLC_CMD of channel ch starts a command; while BUSY it is ignored. -/
def plcIssue (s : State) (i : Initiator) (ch op : Nat) (evt : Bool) : State :=
  match smGet none s.plcCh ch with
  | some _ => violation s 0x3 true i (Csr.PLC_CMD ch)
  | none =>
    let a0 := rd s (Csr.PLC_CMD_ARG ch 0)
    let a1 := rd s (Csr.PLC_CMD_ARG ch 1)
    let a2 := rd s (Csr.PLC_CMD_ARG ch 2)
    let c : PlcCmd := { op := op, a0 := a0, a1 := a1, a2 := a2, evt := evt, parts := [] }
    let n := bits a0 47 32 + 1
    let c :=
      if !plcReady s then
        if argsBad op a0 a1 a2 || decide (0x10 ≤ op) then { c with whole := some (if argsBad op a0 a1 a2 then 0x09 else 0x0A) }
        else { c with parts := List.replicate n (.ended 0x0A) }
      else if argsBad op a0 a1 a2 then { c with whole := some 0x09 }
      else if 0x10 ≤ op then c
      else { c with parts := List.replicate n .todo }
    plcTry { s with plcCh := smSet none s.plcCh ch (some c) } ch

/-- The statuses of a command's parts, when all have ended. -/
def partStatuses : List PlcPart → Option (List Nat)
  | [] => some []
  | .ended st :: l => (partStatuses l).map (st :: ·)
  | _ :: _ => none

/-- R205, R96: a command's report once it has ended. -/
def plcReport (c : PlcCmd) : Option Report :=
  match c.whole with
  | some st => some (wholeReport st)
  | none => (partStatuses c.parts).map partReport

/-- R205: the last part of a channel's command has ended: status, map and prefix are recorded, BUSY clears and
CMD_DONE is raised. Parts that wait are tried again. -/
def execPlcCmdDone (ch : Fin 4) (s : State) : Out :=
  let s := { s with answers := [] }
  if !awake s || inResetBit s plcIdx then .next s
  else
    let s := plcTry s ch
    match smGet none s.plcCh ch with
    | none => .next s
    | some c =>
      match plcReport c with
      | none => .next s
      | some r =>
        let s := { s with plcCh := smSet none s.plcCh ch none }
        let s := wr s (Csr.PLC_CMD_STAT ch) (r.status <<< 24 + r.firstFail <<< 16)
        let s := wr (wr s (Csr.PLC_CMD_PREFIX ch) r.pfx) (Csr.PLC_CMD_MAP ch) r.map
        .next (if c.evt then
          raise s plcSrc 0x05 (ch.val <<< 62 + c.op <<< 48 + r.status) r.pfx else s)

/-! ### Markers, firing and completion of entries (R210, R211) -/

/-- Entry e of plan p replaced. -/
def setEph (s : State) (p e : Nat) (v : EphEnt) : State :=
  let pl := planOf s p
  setPlan s p { pl with ents := pl.ents.take e ++ v :: pl.ents.drop (e + 1) }

/-- R210: the armed entries, PRIO 3 first, then by plan and entry index. -/
def armedEntries (s : State) : List (Nat × Nat × EphEnt) :=
  let all := ((countUp 0 4).map (fun p =>
    let pl := planOf s p
    if pl.armed then ((countUp 0 pl.ents.length).zip pl.ents).map (fun x => (p, x.1, x.2)) else [])).flatten
  ([3, 2, 1, 0].map (fun pr => all.filter (fun x => ephPrio x.2.2.b = pr))).flatten

/-- The sectors of page p that a range covers: first and count. -/
def ephSpan (b : Bytes) (p : Nat) : Nat × Nat :=
  let lo := max (ephLta b / 4096) (p * 64)
  let hi := min (ephLta b / 4096 + ephSectors b) ((p + 1) * 64)
  (lo - p * 64, hi - lo)

/-- R211: promotions of a fired entry; pages that can never be resident fail at once. -/
def fireCls (b : Bytes) : Nat := 4 - ephPrio b

def firePages (b : Bytes) : List Nat → State → EphRun → State × EphRun
  | [], s, r => (s, r)
  | p :: ps, s, r =>
    let e := pageEnt s p
    match e.state with
    | .deepResident =>
      firePages b ps (raiseClass (queueMig s p .promote (fireCls b) [ephSpan b p]) p (fireCls b)) r
    | .migrating => firePages b ps (raiseClass s p (fireCls b)) r
    | .invalid | .retired => firePages b ps s { r with pages := smSet 0 r.pages (p - ephFirst b) 0x0B }
    | .poison => firePages b ps s { r with pages := smSet 0 r.pages (p - ephFirst b) 0x04 }
    | _ => firePages b ps s r

/-- R210: a ready entry whose group and marker match fires. -/
def fireEntry (g m : Nat) (s : State) (x : Nat × Nat × EphEnt) : State :=
  let (p, e, v) := x
  if v.ready ∧ ephGroup v.b = g ∧ ephMarkerOf v.b = m then
    let (s, r) := firePages v.b (countUp (ephFirst v.b) (ephPages v.b)) s {}
    bumpRaw (setEph s p e { v with ready := false, runs := v.runs ++ [r] }) (Csr.EPH_FIRED p) 1
  else s

/-- R215: detail 0 of the Ephemeris events. -/
def ephDetail (p e : Nat) (b : Bytes) : Nat := p <<< 62 + e <<< 48 + ephTag b

/-- R210: an entry whose need marker is delivered before it has completed is late, once per arming. -/
def lateEntry (g m : Nat) (s : State) (x : Nat × Nat × EphEnt) : State :=
  let (p, e, _) := x
  match (planOf s p).ents[e]? with
  | none => s
  | some v =>
    let need := (ephMarkerOf v.b + ephLead v.b) % 65536
    if !v.isVoid && decide (ephGroup v.b = g) && decide (need = m) && !v.done && !v.late then
      let s := setEph s p e { v with late := true }
      let s := bumpOcc (bumpOcc s Csr.PLC_LATE 1) (Csr.EPH_LATE p) 1
      if bit (fieldAt v.b 0 4) 21 then
        raise s plcSrc 0x03 (ephDetail p e v.b) (rd s (Csr.EPH_STEP p) <<< 32 + need)
      else s
    else s

/-- R207, R210: the oldest marker sent is delivered. -/
def execEphMarker (s : State) : Out :=
  match s.triggers with
  | [] => .next s
  | (g, m) :: rest =>
    if plcRuns s then
      let s := { s with triggers := rest }
      let s := (armedEntries s).foldl (fireEntry g m) s
      .next ((armedEntries s).foldl (lateEntry g m) s)
    else .next s

/-- R211: the LINEAR descriptor of a tile-store entry. -/
def ephDescriptor (b : Bytes) : Bytes :=
  let w24 := fieldAt b 24 4
  let word := 1 <<< 28 + 2 <<< 25 + (if bit w24 7 then 1 <<< 21 + bits w24 5 0 <<< 15 else 0)
  toLE word 4 ++ toLE (ephSectors b * 4096) 4 ++ toLE (ephLta b) 8 ++ toLE (bits (fieldAt b 20 4) 21 0) 8
    ++ toLE (1 <<< 16 + 1) 4 ++ toLE 0 32 ++ toLE (ephTag b) 4

/-- The first firing of an entry whose descriptor waits, marked pushed. -/
def pushRun : List EphRun → List EphRun
  | [] => []
  | r :: rs => if r.pushed then r :: pushRun rs else { r with pushed := true } :: rs

/-- R211: a fired tile-store entry's descriptor enters the target core's streamer queue when it has room. -/
def execEphDescPush (plan : Fin 4) (entry : Nat) (s : State) : Out :=
  match (planOf s plan).ents[entry]? with
  | none => .next s
  | some v =>
    let c := ephCore v.b
    let t := fld s (Csr.CORE_CFG (c / 24) (c % 24)) 9 8
    let k := coreOf s c
    if plcAlive s ∧ ephTarget v.b = 1 ∧ v.runs.any (fun r => !r.pushed) ∧ strmRoom k t ∧ works s (c / 24) then
      let s := setEph s plan entry { v with runs := pushRun v.runs }
      .next (setCore s c (strmEnqueue k t (.desc (ephDescriptor v.b) (some (plan.val, entry)))))
    else .next s

/-- The page of a range is resident now (R211). -/
def resident (s : State) (p : Nat) : Bool :=
  match (pageEnt s p).state with
  | .fastHomed | .cachedClean | .cachedDirty => true
  | _ => false

/-- The part statuses of a fast-tier firing, when every page has ended or is resident. -/
def runStatuses (s : State) (b : Bytes) (r : EphRun) : Option (List Nat) :=
  let l := (countUp 0 (ephPages b)).map (fun i =>
    let x := smGet 0 r.pages i
    if x ≠ 0 then some (x - 1) else if resident s (ephFirst b + i) then some 0 else none)
  if l.any (·.isNone) then none else some (l.map (·.getD 0))

/-- Index of the first failed part. -/
def firstBad : List Nat → Nat
  | [] => 0
  | st :: l => if st ≠ 0 then 0 else firstBad l + 1

/-- R211: EPH_FAIL for an entry's completion. -/
def ephFinish (s : State) (p e : Nat) (v : EphEnt) (r : EphRun) (rest : List EphRun) (rep : Report) (lta : Nat) :
    State :=
  let s := setEph s p e { v with runs := rest, done := v.done || r.now }
  let s := if rep.status ≠ 0 then bumpOcc s (Csr.EPH_FAIL p) 1 else s
  if rep.status ≠ 0 ∨ bit (fieldAt v.b 0 4) 20 then
    raise s plcSrc 0x04 (ephDetail p e v.b) (rep.status <<< 56 + rep.firstFail <<< 48 + (if rep.status = 0 then 0 else lta))
  else s

/-- R211: the oldest firing of an entry completes. -/
def execEphEntryComplete (plan : Fin 4) (entry : Nat) (s : State) : Out :=
  match (planOf s plan).ents[entry]? with
  | none => .next s
  | some v =>
    match v.runs with
    | [] => .next s
    | r :: rest =>
      if !plcAlive s then .next s
      else if ephTarget v.b = 0 then
        match runStatuses s v.b r with
        | none => .next s
        | some l =>
          .next (ephFinish s plan entry v r rest (partReport l)
            (max (ephLta v.b) ((ephFirst v.b + firstBad l) * 2 ^ 18)))
      else if r.pushed then
        match s.ephResults.find? (fun x => x.1 = plan.val ∧ x.2.1 = entry) with
        | none => .next s
        | some x =>
          .next (ephFinish { s with ephResults := s.ephResults.erase x } plan entry v r rest
            (wholeReport x.2.2) (ephLta v.b))
      else .next s

end Sys2Proof.Machine
end

