-- ==== Sys2Proof/Machine/Transc.lean ====
section
/-! DEFINITION. The function operations of the vector engine (R135): the special values the manual gives,
and elsewhere a free value held to the manual's accuracy. The reference values are fixed-point, with 256
fraction bits, far below the bounds. -/

namespace Sys2Proof.Machine

/-- One in fixed point. -/
def fxOne : Nat := 2 ^ 256

/-- A finite magnitude in fixed point. -/
def fxOf (m : Nat) (e : Int) : Nat :=
  if 0 ≤ e + 256 then m <<< (e + 256).toNat else m >>> (-(e + 256)).toNat

/-- Σ 1/(k·2^k), which is ln 2, from term k on. -/
def fxLn2From : Nat → Nat → Nat
  | 0, _ => 0
  | n + 1, k => fxOne / (k * 2 ^ k) + fxLn2From n (k + 1)

/-- ln 2. -/
def fxLn2 : Nat := fxLn2From 256 1

/-- The exponential series from the term `t` on. -/
def fxExpFrom (x : Nat) : Nat → Nat → Nat → Nat
  | 0, _, _ => 0
  | n + 1, k, t => t + fxExpFrom x n (k + 1) (t * x / fxOne / (k + 1))

/-- e^x for 0 ≤ x < 1. -/
def fxExp (x : Nat) : Nat := fxExpFrom x 64 0 fxOne

/-- 2^y of a signed fixed-point number, as an exact number. -/
def fxExp2 (y : Int) : Num :=
  let n := y / (fxOne : Int)
  let f := (y % (fxOne : Int)).toNat
  .fin false (fxExp (f * fxLn2 / fxOne)) (n - 256)

/-- e^x of a signed fixed-point number. -/
def fxExpSigned (x : Int) : Num := fxExp2 (x * (fxOne : Int) / (fxLn2 : Int))

/-- The fraction bits of log₂ y for y in [1, 2). -/
def fxLogBits : Nat → Nat → Nat
  | 0, _ => 0
  | n + 1, y =>
    let z := y * y / fxOne
    if 2 * fxOne ≤ z then 2 ^ n + fxLogBits n (z / 2) else fxLogBits n z

/-- log₂ of a non-zero magnitude. -/
def numLog2 (m : Nat) (e : Int) : Num :=
  let k := floorLog2 m e
  let y := fxOf m (e - k)
  let v : Int := k * 2 ^ 128 + fxLogBits 128 y
  .fin (decide (v < 0)) v.natAbs (-128)

/-- The terms (−1)^n x^(2n+1) / (n! (2n+1)) of the error function's series from term n on. -/
def fxErfFrom (x2 : Nat) : Nat → Nat → Nat → Int
  | 0, _, _ => 0
  | k + 1, n, t =>
    sgnInt (decide (n % 2 = 1)) (t / (2 * n + 1))
      + fxErfFrom x2 k (n + 1) (t * x2 / fxOne / (n + 1))

/-- erf x for 0 ≤ x < 8. 2/√π is taken to 62 decimals. -/
def fxErf (x : Nat) : Nat :=
  (fxErfFrom (x * x / fxOne) 500 0 x).toNat *
    112837916709551257389615890312154517168810125865799771368817144 / 10 ^ 62

/-- The distance of two finite numbers is at most `tol`. -/
def numWithin (a b tol : Num) : Bool :=
  match numAdd a (numNeg b) with
  | .fin n m e => !numLt tol (.fin false m e) || (n && decide (m = 0))
  | _ => false

/-- One unit in the last place of FP32 at a magnitude. -/
def ulp32 (x : Num) : Num :=
  match x with
  | .fin _ m e => if m = 0 then .fin false 1 (-149) else .fin false 1 (max (floorLog2 m e - 23) (-149))
  | _ => .fin false 1 (-149)

/-- k times a number. -/
def numTimes (k : Nat) (x : Num) : Num := numMul (.fin false k 0) x

/-- A free value kept within `tol` of the exact result `x`; outside it, the nearest value stands in its place. -/
def freeWithin (v : Nat) (x tol : Num) : Nat :=
  match dec32 v with
  | .fin _ _ _ => if numWithin (dec32 v) x tol then v % 2 ^ 32 else enc32 x
  | _ => enc32 x

/-- FP32 with its sign set. -/
def withSign (neg : Bool) (v : Nat) : Nat := v % 2 ^ 31 + (if neg then 2 ^ 31 else 0)

/-- VRCP: 1/a within 1 ulp. -/
def fnRcp (a : Nat) : Nat :=
  match dec32 a with
  | .nan => nan32
  | .inf neg => withSign neg 0
  | .fin neg m e =>
    if m = 0 then fpInf fp32 neg
    else let x := numDiv (.fin false 1 0) (.fin neg m e); freeWithin (Config.vrcp a) x (ulp32 x)

/-- VRSQRT: 1/√a within 1 ulp. -/
def fnRsqrt (a : Nat) : Nat :=
  match dec32 a with
  | .nan => nan32
  | .inf neg => if neg then nan32 else 0
  | .fin neg m e =>
    if m = 0 then fpInf fp32 neg else if neg then nan32
    else let x := numDiv (.fin false 1 0) (numSqrt (.fin false m e)); freeWithin (Config.vrsqrt a) x (ulp32 x)

/-- VSQRT: correctly rounded. -/
def fnSqrt (a : Nat) : Nat := fsqrt a

/-- VEXP2: 2^a within 2 ulp. -/
def fnExp2 (a : Nat) : Nat :=
  match dec32 a with
  | .nan => nan32
  | .inf neg => if neg then 0 else fpInf fp32 false
  | .fin neg m e =>
    if !numLt (.fin neg m e) (.fin false 128 0) then fpInf fp32 false
    else if numLt (.fin neg m e) (.fin true 150 0) then 0
    else let x := fxExp2 (sgnInt neg (fxOf m e)); freeWithin (Config.vexp2 a) x (numTimes 2 (ulp32 x))

/-- VLOG2: within 2 ulp, or 2^−22 absolute when the result is below 1 in magnitude. -/
def fnLog2 (a : Nat) : Nat :=
  match dec32 a with
  | .nan => nan32
  | .inf neg => if neg then nan32 else fpInf fp32 false
  | .fin neg m e =>
    if m = 0 then fpInf fp32 true else if neg then nan32
    else if a % 2 ^ 32 = 0x3F80_0000 then 0
    else
      let x := numLog2 m e
      let tol := if numLt (numAbs x) (.fin false 1 0) then .fin false 1 (-22) else numTimes 2 (ulp32 x)
      freeWithin (Config.vlog2 a) x tol

/-- tanh of a positive magnitude. -/
def tanhExact (m : Nat) (e : Int) : Num :=
  if !numLt (.fin false m e) (.fin false 40 0) then .fin false 1 0
  else
    let t := fxExpSigned (2 * fxOf m e : Nat)
    numDiv (numAdd t (.fin true 1 0)) (numAdd t (.fin false 1 0))

/-- VTANH: odd, within 2^−21 absolute. -/
def fnTanh (a : Nat) : Nat :=
  match dec32 a with
  | .nan => nan32
  | .inf neg => withSign neg 0x3F80_0000
  | .fin neg m e =>
    if m = 0 then a % 2 ^ 32
    else withSign neg (freeWithin (Config.vtanh (a % 2 ^ 31)) (tanhExact m e) (.fin false 1 (-21)))

/-- The logistic sigmoid of a finite number. -/
def sigmExact (neg : Bool) (m : Nat) (e : Int) : Num :=
  if !numLt (.fin false m e) (.fin false 200 0) then (if neg then .fin false 0 0 else .fin false 1 0)
  else
    let t := fxExpSigned (-(fxOf m e : Int))
    numDiv (if neg then t else .fin false 1 0) (numAdd (.fin false 1 0) t)

/-- VSIGM: within 2^−22 absolute. -/
def fnSigm (a : Nat) : Nat :=
  match dec32 a with
  | .nan => nan32
  | .inf neg => if neg then 0 else 0x3F80_0000
  | .fin neg m e => freeWithin (Config.vsigm a) (sigmExact neg m e) (.fin false 1 (-22))

/-- VERF: odd, within 2^−21 absolute. -/
def fnErf (a : Nat) : Nat :=
  match dec32 a with
  | .nan => nan32
  | .inf neg => withSign neg 0x3F80_0000
  | .fin neg m e =>
    if m = 0 then a % 2 ^ 32
    else
      let x : Num := if numLt (.fin false m e) (.fin false 8 0) then .fin false (fxErf (fxOf m e)) (-256)
        else .fin false 1 0
      withSign neg (freeWithin (Config.verf (a % 2 ^ 31)) x (.fin false 1 (-21)))

end Sys2Proof.Machine
end

