-- ==== Sys2Proof/Machine/Nbu.lean ====
section
/-! DEFINITION. Near-bank units (R219 to R257) and the parity group they serve (R389 to R399): holding pages,
streams, update programs, rows, the commit buffer, deltas and marks. -/

namespace Sys2Proof.Machine

/-! ### Records -/

def nbuOf (s : State) (n : Nat) : Nbu := smGet {} s.nbus n

def setNbu (s : State) (n : Nat) (v : Nbu) : State := { s with nbus := smSet {} s.nbus n v }

/-- R451: event source of near-bank unit n. -/
def nbuSrc (n : Nat) : Nat := 96 + n

/-- The unit's stack is clocked, out of reset and takes work. -/
def nbuWorks (s : State) (n : Nat) : Bool := works s (4 + n / 4)

/-- A message given to the fabric. -/
def send (s : State) (m : FabMsg) : State := { s with outbox := s.outbox ++ [m] }

/-- FABC_SELF.DEV, or 0xFFF while unassigned (R358). -/
def selfDev (s : State) : Nat := if flag s Csr.FABC_SELF 31 then fld s Csr.FABC_SELF 11 0 else 0xFFF

/-- R359: a RELAY message. -/
def relayMsg (s : State) (dst sub : Nat) (p : Bytes) : FabMsg :=
  { mtype := 5, dst := dst, src := selfDev s, sub := sub, len := p.length, payload := p }

/-! ### Bank bursts (R222 to R224) -/

/-- R222: the burst is granted when every named bank owes fewer than POSTPONE_MAX in the unit's pairs and no
other burst of the unit stands. -/
def execBurstGrant (n : Fin 48) (banks : List (Fin 32)) (s : State) : Out :=
  let i := n.val / 4
  let k := n.val % 4
  let r := stkOf s i
  let bs := (banks.map (·.val)).eraseDups
  if nbuWorks s n ∧ stkOpen s i ∧ bs ≠ [] ∧ bs.length ≤ 8 ∧ smGet [] r.bursts k = [] ∧
      bs.all (fun b => (countUp (8 * k) 8).all (fun p => decide (smGet 0 r.owed (p * 64 + b) < (postponeMax s i : Int)))) then
    .next (setStk s i { r with bursts := smSet [] r.bursts k bs })
  else .next s

/-- The burst of unit n given up; the rows of its banks close (R147). -/
def endBurst (s : State) (n : Nat) : State :=
  let i := n / 4
  let k := n % 4
  let r := stkOf s i
  let bs := smGet [] r.bursts k
  setStk s i { r with bursts := smSet [] r.bursts k [], preempt := r.preempt.filter (· ≠ k),
                      openRow := r.openRow.filter (fun o => !(o.1 / 512 == k && bs.contains (o.1 % 64))) }

/-- R223: a burst ends. -/
def execBurstEnd (n : Fin 48) (s : State) : Out :=
  if smGet [] (stkOf s (n.val / 4)).bursts (n.val % 4) = [] then .next s else .next (endBurst s n)

/-- R224: a pre-empted unit gives its burst up. -/
def execBurstPreempt (n : Fin 48) (s : State) : Out :=
  let r := stkOf s (n.val / 4)
  if r.preempt.contains (n.val % 4) ∧ smGet [] r.bursts (n.val % 4) ≠ [] then
    .next (bumpOcc (endBurst s n) (Csr.NBU_PREEMPT (n.val / 4) (n.val % 4)) 1)
  else .next s

/-! ### Holding a page (R228 to R230) -/

/-- What an acquire answers. -/
inductive Acq where
  | got
  | wait
  | full
  | fail (st : Nat)
  | later
  deriving DecidableEq, Repr

/-- R228: one acquire, with the sectors to be written. -/
def acquire (s : State) (p secs : Nat) : State × Acq :=
  if !plcTakes s then (s, .later)
  else
    let e := pageEnt s p
    let take (s : State) : State × Acq :=
      if !mayPin s p || decide (255 ≤ holderCount s p) then (s, .full)
      else
        let s := touchCache s p
        let s := if secs = 0 then s else markDirty s p secs
        ({ s with holders := smSet 0 s.holders p (holderCount s p + 1) }, .got)
    match e.state with
    | .invalid | .retired => (s, .fail 0x0A)
    | .poison => (s, .fail 0x03)
    | .deepResident => (raiseClass (queueMig s p .promote 0 []) p 0, .wait)
    | .fastHomed | .cachedClean | .cachedDirty => take s
    | .migrating =>
      match pageSlot s p with
      | some (i, m) =>
        if m.dir = .promote then (raiseClass s p 0, .wait)
        else if !mayPin s p || decide (255 ≤ holderCount s p) then (s, .full)
        else take (stopDemotion s i m)
      | none => (s, .wait)

/-- R230: one hold of a page given up. -/
def releasePage (s : State) (p : Nat) : State := { s with holders := smSet 0 s.holders p (holderCount s p - 1) }

def releasePages (s : State) (l : List Nat) : State := l.foldl releasePage s

/-- R229: the lines of a page leave the data caches of CP0 to CP3. Streamer reads are served within one step
of this model, so that none admitted earlier is outstanding. -/
def fencePage (s : State) (p : Nat) : State :=
  (countUp 0 4).foldl (fun s c =>
    { s with dcache := smSet [] s.dcache c ((smGet [] s.dcache c).filter (fun l => l.1 / 2 ^ 18 ≠ p)) }) s

/-- R228: pages acquired for one work item, each with the sectors to be written; on a refusal those already
acquired are given up. Answers the page that stopped it. -/
def acquireAll (s : State) (taken : List Nat) : List (Nat × Nat) → State × Acq × Nat
  | [] => (s, .got, 0)
  | (p, secs) :: l =>
    match acquire s p secs with
    | (s, .got) => acquireAll s (p :: taken) l
    | (s, a) => (releasePages s taken, a, p)

/-- NBU_PAGE_ACQUIRE (R228). -/
def execNbuPageAcquire (n : Fin 48) (page : Nat) (sectors : W64) (s : State) : Out :=
  if nbuWorks s n ∧ page < 2 ^ 26 then
    match acquire s page sectors.toNat with
    | (s, .got) => .next (setNbu s n { nbuOf s n with held := page :: (nbuOf s n).held })
    | (s, _) => .next s
  else .next s

/-- NBU_FENCE (R229). -/
def execNbuFence (n : Fin 48) (page : Nat) (s : State) : Out :=
  if (nbuOf s n).held.contains page then .next (fencePage s page) else .next s

/-- NBU_PAGE_RELEASE (R230). -/
def execNbuPageRelease (n : Fin 48) (page : Nat) (s : State) : Out :=
  if (nbuOf s n).held.contains page then
    .next (setNbu (releasePage s page) n { nbuOf s n with held := (nbuOf s n).held.erase page })
  else .next s

/-! ### Quarters, lines and the commit buffer (R219, R220, R247, R399) -/

/-- R220: byte x of the run that starts at a quarter-linear base. -/
def qlin (base x : Nat) : Nat := base + 16384 * (x / 4096) + x % 4096

/-- R220: a quarter-linear base of unit n. -/
def qbaseOk (n base : Nat) : Bool := decide (base % 4096 = 0) && decide (base / 4096 % 4 = n % 4)

/-- R219: an LTA lies in the unit's quarter of a BANKED page of its stack. -/
def inQuarter (s : State) (n lta : Nat) : Bool :=
  let e := pageEnt s (lta / 2 ^ 18)
  decide (lta < 2 ^ 44) && e.banked && decide (e.stack = n / 4) && decide (lta / 4096 % 4 = n % 4)

/-- R219: no operand page is named that the unit cannot reach; an INVALID page fails at its acquire. -/
def reachable (s : State) (n lta : Nat) : Bool :=
  (pageEnt s (lta / 2 ^ 18)).state = .invalid || (pageEnt s (lta / 2 ^ 18)).state = .retired || inQuarter s n lta

/-- The newest waiting version of a line. -/
def pendingLine (v : Nbu) (lta : Nat) : Option Bytes := ((v.commit.reverse).find? (fun c => c.lta = lta)).map (·.data)

/-- R225: one 64-byte line as the unit sees it. -/
def nbuLine (s : State) (n lta : Nat) : Hit :=
  match pendingLine (nbuOf s n) lta with
  | some d => { s := s, data := d }
  | none => frameReadNbu s (entFrame (pageEnt s (lta / 2 ^ 18))) (lta % 2 ^ 18) 64

/-- Consecutive bytes within one sector as the unit sees them; a failure is reported (R214, R227). -/
def nbuBytesAt (s : State) (n : Nat) : List Nat → Hit
  | [] => { s := s }
  | a :: as =>
    let h := nbuLine s n a
    let t := nbuBytesAt (reportBad h.s (a / 2 ^ 18) h.st h.loc) n as
    { s := t.s, st := if h.st ≠ 0 then h.st else t.st, data := h.data ++ t.data }

def nbuBytes (s : State) (n lta len : Nat) : Hit :=
  let l0 := lta / 64 * 64
  let k := (lta + len - 1) / 64 + 1 - lta / 64
  let h := nbuBytesAt s n ((countUp 0 k).map (fun i => l0 + 64 * i))
  { h with data := bytesAt h.data (lta - l0) len }

/-- A change of bytes at an LTA. -/
abbrev Edit := Nat × Bytes

/-- The lines that edits touch, in order of first touch. -/
def editLines (es : List Edit) : List Nat :=
  ((es.map (fun e => (countUp (e.1 / 64) ((e.1 + e.2.length - 1) / 64 + 1 - e.1 / 64)).map (· * 64))).flatten).eraseDups

/-- A line with edits applied. -/
def applyEdits (lta : Nat) (es : List Edit) (old : Bytes) : Bytes :=
  es.foldl (fun d e => ((countUp 0 64).zip d).map (fun x =>
    let a := lta + x.1
    if e.1 ≤ a ∧ a < e.1 + e.2.length then e.2.getD (a - e.1) 0 else x.2)) old

/-- Every byte of the line is written by the edits. -/
def fullLine (lta : Nat) (es : List Edit) : Bool :=
  (countUp lta 64).all (fun a => es.any (fun e => decide (e.1 ≤ a) && decide (a < e.1 + e.2.length)))

/-- A line to be placed in the commit buffer: its LTA, new bytes and delta. -/
structure NewLine where
  lta : Nat
  data : Bytes
  delta : Bytes
  stamp : Bool := false

/-- Bytewise XOR. -/
def xorBytes (a b : Bytes) : Bytes := (a.zip b).map (fun x => x.1 ^^^ x.2)

/-- R226, R247: edits turned into whole lines. The old line is read when a delta or a merge needs it. -/
def formLines (s : State) (n : Nat) (prot : Bool) (es : List Edit) : List Nat → State × Nat × List NewLine
  | [] => (s, 0, [])
  | l :: ls =>
    let h : Hit :=
      if !prot && fullLine l es then { s := s, data := List.replicate 64 0 } else nbuBytesAt s n [l]
    let d := applyEdits l es h.data
    let (s, st, rest) := formLines h.s n prot es ls
    (s, if h.st ≠ 0 then h.st else st, ⟨l, d, xorBytes h.data d, false⟩ :: rest)

/-! ### The parity map (R389 to R392) -/

/-- The active parity-map bank. -/
def pgBank (s : State) : Nat := fld s Csr.FABC_SWITCH 1 1

def pgN (s : State) : Nat := fld s (Csr.PGRP_CFG (pgBank s)) 27 24 + 1
def pgMember (s : State) : Nat := fld s (Csr.PGRP_CFG (pgBank s)) 19 16
def pgD (s : State) : Nat := fld s (Csr.PGRP_D (pgBank s)) 25 0
def pgProt (s : State) : Nat := fld s (Csr.PGRP_PROT_BASE (pgBank s)) 25 0
def pgPar (s : State) : Nat := fld s (Csr.PGRP_PAR_BASE (pgBank s)) 25 0
def pgDev (s : State) (i : Nat) : Nat := fld s (Csr.PGRP_DEV (pgBank s) i) 11 0
def pgOn (s : State) : Bool := flag s Csr.PGRP_EN 0

/-- R392: holder key (device × 64 + NBU) and PADDR of a protected line; `none` outside the protected range. -/
def parityOf (s : State) (lta : Nat) : Option (Nat × Nat) :=
  let p := lta / 2 ^ 18
  let n1 := pgN s - 1
  if !pgOn s || n1 = 0 || decide (p < pgProt s) || decide (pgProt s + pgD s ≤ p) then none
  else
    let j := p - pgProt s
    let h := (pgMember s + 1 + j % n1) % pgN s
    let slot := pgPar s + j / n1
    let dev := pgDev s h
    some (dev * 64 + 4 * (slot % 12) + lta / 4096 % 4, dev <<< 46 + slot <<< 18 + lta % 2 ^ 18)

/-! ### Deltas (R248 to R250, R393 to R396) -/

/-- R248: a delta record. -/
def deltaRec (dev lta seq n paddr : Nat) (d : Bytes) : Bytes :=
  toLE (dev <<< 46 + lta) 8 ++ toLE seq 4 ++ toLE n 4 ++ toLE paddr 8 ++ toLE 0 8 ++ bytesAt d 0 64

/-- The record of a commit line that has been sent. -/
def lineRec (s : State) (n : Nat) (c : CLine) : Bytes :=
  deltaRec (selfDev s) c.lta (c.seq.getD 0) n c.paddr c.delta

/-- A delta record given to the fabric. -/
def sendDelta (s : State) (n key : Nat) (r : Bytes) : State :=
  bumpStat (send s (relayMsg s (key / 64) 0x02 r)) (Csr.NBU_DELTA (n / 4) (n % 4)) 1 (some (4 + n / 4))

/-- R395: a line's delta may be sent now. -/
def maySend (v : Nbu) (c : CLine) : Bool :=
  c.prot && c.seq.isNone && (!c.stamp || !v.commit.any (fun x => x.grp = c.grp && !x.stamp && !x.acked))

/-- R249: the first commit line whose delta is due takes the next sequence number and is sent. -/
def sendFirst (s : State) (n : Nat) : List CLine → List CLine → State
  | _, [] => s
  | done, c :: cs =>
    let v := nbuOf s n
    if maySend v c then
      let q := smGet 0 v.nextSeq c.key
      let c := { c with seq := some q }
      let v := { v with commit := done ++ c :: cs,
                        nextSeq := smSet 0 v.nextSeq c.key ((q + 1) % 2 ^ 32),
                        lastPaddr := smSet none v.lastPaddr c.key (some c.paddr),
                        sinceMark := smSet false v.sinceMark c.key true,
                        uncovered := match c.tile with
                          | some t => v.uncovered ++ [(t, c.key, q)]
                          | none => v.uncovered }
      sendDelta (setNbu s n v) n c.key (lineRec s n c)
    else sendFirst s n (done ++ [c]) cs

/-- Every delta that is due is sent, at most `fuel` of them. -/
def sendDue (n : Nat) : Nat → State → State
  | 0, s => s
  | f + 1, s => sendDue n f (sendFirst s n [] (nbuOf s n).commit)

/-- R399: the bytes of an acknowledged line are what every read returns. -/
def showLine (s : State) (c : CLine) : State :=
  let l := frameLoc (entFrame (pageEnt s (c.lta / 2 ^ 18))) (c.lta % 2 ^ 18)
  { s with fast := memWrite s.fast (fastKey l) c.data, fastMark := smSet none s.fastMark (lineKey l) none }

/-- Sequence number q is acknowledged by an acknowledgement of s0 (R20, R393). -/
def ackCovers (s0 q : Nat) : Bool := serial 32 q s0 ≠ .later

/-- R393, R396, R398: an acknowledgement of SEQ q by holder `key`. -/
def takeAck (s : State) (n key q : Nat) : State :=
  let v := nbuOf s n
  let hit (c : CLine) : Bool := c.prot && decide (c.key = key) && !c.acked &&
    (match c.seq with | some x => ackCovers q x | none => false)
  let newly := v.commit.filter hit
  let marked := v.marks.filter (fun m => decide (m.key = key) && ackCovers q m.seq)
  let covered (u : Nat × Nat × Nat) : Bool :=
    decide (u.2.1 = key) && marked.any (fun m => serial 32 m.seq u.2.2 = .later)
  let commit := v.commit.map (fun c => if hit c then { c with acked := true } else c)
  let v := { v with commit := commit,
                    marks := v.marks.filter (fun m => !marked.contains m),
                    uncovered := v.uncovered.filter (fun u => !covered u),
                    groups := v.groups.filter (fun g => commit.any (fun c => c.grp = g.1 && c.prot && !c.acked)),
                    resends := if newly.isEmpty && marked.isEmpty then v.resends else smSet 0 v.resends key 0 }
  sendDue n commit.length (newly.foldl showLine (setNbu s n v))

/-- DELTA_ACK received by a source unit (R393). -/
def deltaAckEff (s : State) (n : Nat) (a : Bytes) : State :=
  takeAck s n (bits (fieldAt a 6 2) 11 0 * 64 + bits (fieldAt a 5 1) 5 0) (fieldAt a 0 4)

/-- DELTA_ACK_RECEIVE. -/
def execDeltaAckReceive (n : Fin 48) (ack : Bytes) (s : State) : Out :=
  if awake s ∧ ¬ inResetBit s (4 + n.val / 4) ∧ bits (fieldAt ack 4 1) 5 0 = n.val then .next (deltaAckEff s n ack)
  else .next s

/-- R396: a mark's LTA page names PAR_BASE. -/
def isMark (s : State) (d : Bytes) : Bool := decide (bits (fieldAt d 0 8) 43 18 = pgPar s)

/-- R393: the acknowledgement of a delta. -/
def ackDelta (s : State) (n : Nat) (d : Bytes) : State :=
  let p := fieldAt d 8 4
  send s (relayMsg s (bits (fieldAt d 0 8) 57 46) 0x03
    (toLE p 4 ++ toLE (bits (fieldAt d 12 4) 5 0) 1 ++ toLE n 1 ++ toLE (selfDev s) 2 ++ toLE 0 8))

/-- R397: entries of the source that a mark with SEQ q ends. -/
def pruneJrnl (j : List Bytes) (src q : Nat) : List Bytes :=
  j.filter (fun e => !(bits (fieldAt e 0 8) 57 46 * 64 + bits (fieldAt e 12 4) 5 0 = src &&
    serial 32 q (fieldAt e 8 4) = .later))

/-- R249, R391, R394, R396, R397: a delta reaches a holder unit. -/
def deltaEff (s : State) (n : Nat) (d : Bytes) : State :=
  let v := nbuOf s n
  let src := bits (fieldAt d 0 8) 57 46 * 64 + bits (fieldAt d 12 4) 5 0
  let q := fieldAt d 8 4
  let pl := bits (fieldAt d 16 8) 43 0
  let known := smGet none v.hseq src
  let order := match known with
    | none => Serial.equal
    | some last => serial 32 q ((last + 1) % 2 ^ 32)
  if !pgOn s then s
  else if known.isNone && decide (1024 ≤ v.hseq.length) then s
  else match order with
    | .later => s
    | .earlier => ackDelta s n d
    | .equal =>
      let accept (s : State) : State :=
        let v := nbuOf s n
        ackDelta (setNbu s n { v with hseq := smSet none v.hseq src (some q) }) n d
      if isMark s d then
        accept (setNbu s n { v with jrnl := pruneJrnl v.jrnl src q })
      else if !inQuarter s n pl then s
      else if 32768 ≤ v.jrnl.length then bumpOcc s Csr.PGRP_JRNL_FULL 1
      else
        let p := pl / 2 ^ 18
        match acquire s p (1 <<< (pl / 4096 % 64)) with
        | (s, .got) =>
          let s := fencePage s p
          let h := nbuBytesAt s n [pl / 64 * 64]
          if h.st ≠ 0 then releasePage h.s p
          else
            let w := frameWrite h.s (entFrame (pageEnt h.s p)) (pl / 64 * 64 % 2 ^ 18) (xorBytes h.data (bytesAt d 32 64))
            let s := releasePage w.s p
            let v := nbuOf s n
            let s := setNbu s n { v with jrnl := v.jrnl ++ [bytesAt d 0 96] }
            accept (bumpStat s (Csr.NBU_HOLD (n / 4) (n % 4)) 1 (some (4 + n / 4)))
        | (s, _) => s

/-- DELTA_RECEIVE. -/
def execDeltaReceive (n : Fin 48) (delta : Bytes) (s : State) : Out :=
  if nbuWorks s n then .next (deltaEff s n delta) else .next s

/-- R250: every unacknowledged delta and mark to a holder, in SEQ order. -/
def unacked (s : State) (n key : Nat) : List (Nat × Bytes) :=
  let v := nbuOf s n
  let l := v.commit.filterMap (fun c => if c.prot && c.key = key && !c.acked then c.seq.map (fun q => (q, lineRec s n c)) else none)
  let m := v.marks.filterMap (fun m => if m.key = key then some (m.seq, m.msg) else none)
  let ins (x : Nat × Bytes) : List (Nat × Bytes) → List (Nat × Bytes) := fun ys =>
    ys.takeWhile (fun y => serial 32 x.1 y.1 = .later) ++ x :: ys.dropWhile (fun y => serial 32 x.1 y.1 = .later)
  (l ++ m).foldl (fun acc x => ins x acc) []

/-- Records sent again. -/
def resendAll (s : State) (n key : Nat) : State :=
  (unacked s n key).foldl (fun s x =>
    bumpOcc (send s (relayMsg s (key / 64) 0x02 x.2)) (Csr.NBU_PAR_RETRY (n / 4) (n % 4)) 1) s

/-- DELTA_RESEND (R250): NBU_PAR.TMO has passed without progress toward a holder. -/
def execDeltaResend (n : Fin 48) (dev : Nat) (holder : Fin 48) (s : State) : Out :=
  let key := dev * 64 + holder
  match unacked s n key with
  | [] => .next s
  | (q, r) :: _ =>
    if !nbuWorks s n then .next s
    else
      let v := nbuOf s n
      let c := smGet 0 v.resends key + 1
      let s := resendAll (setNbu s n { v with resends := smSet 0 v.resends key c }) n key
      .next (if c = fld s (Csr.NBU_PAR (n.val / 4) (n.val % 4)) 31 28 then
        raise s (nbuSrc n) 0x02 (fieldAt r 16 8) q else s)

/-- MARK_SEND (R396). -/
def execMarkSend (n : Fin 48) (dev : Nat) (holder : Fin 48) (s : State) : Out :=
  let key := dev * 64 + holder
  let v := nbuOf s n
  match smGet none v.lastPaddr key with
  | none => .next s
  | some pa =>
    if nbuWorks s n ∧ smGet false v.sinceMark key ∧ ¬ v.groups.any (fun g => g.2.contains key)
        ∧ ¬ v.marks.any (fun m => m.key = key) then
      let q := smGet 0 v.nextSeq key
      let r := deltaRec (selfDev s) (pgPar s <<< 18) q n pa (List.replicate 64 0)
      let v := { v with nextSeq := smSet 0 v.nextSeq key ((q + 1) % 2 ^ 32),
                        sinceMark := smSet false v.sinceMark key false,
                        marks := v.marks ++ [⟨key, q, r⟩] }
      .next (sendDelta (setNbu s n v) n key r)
    else .next s

/-! ### The commit buffer (R247) -/

/-- Free lines of the commit buffer. -/
def commitFree (v : Nbu) : Nat := 65536 - v.commit.length

/-- R392: every line of a protected group has a parity address. -/
def parityOk (s : State) (ls : List NewLine) : Bool := ls.all (fun l => (parityOf s l.lta).isSome)

/-- R247, R395: lines placed in the commit buffer as one group, and its deltas sent; answers the group. -/
def placeLines (s : State) (n : Nat) (prot : Bool) (tile : Option Nat) (ls : List NewLine) : State × Nat :=
  let v := nbuOf s n
  let g := v.nextGrp
  let mk (l : NewLine) : CLine :=
    let (k, pa) := (parityOf s l.lta).getD (0, 0)
    { lta := l.lta, data := l.data, delta := l.delta, grp := g, stamp := l.stamp, prot := prot,
      key := if prot then k else 0, paddr := if prot then pa else 0, tile := tile }
  let new := ls.map mk
  let v := { v with commit := v.commit ++ new, nextGrp := g + 1,
                    groups := if prot ∧ ¬ new.isEmpty then smSet [] v.groups g ((new.map (·.key)).eraseDups) else v.groups }
  (sendDue n new.length (setNbu s n v), g)

/-- Lines of these groups still wait. -/
def grpsOpen (v : Nbu) (gs : List Nat) : Bool := v.commit.any (fun c => gs.contains c.grp)

/-- The first line that may be written: acknowledged or unprotected, with no older version waiting. -/
def writableLine : List CLine → List CLine → Option (CLine × List CLine)
  | _, [] => none
  | done, c :: cs =>
    if (c.acked || !c.prot) && !done.any (fun d => d.lta = c.lta) then some (c, done ++ cs)
    else writableLine (done ++ [c]) cs

/-- COMMIT_LINE_WRITE (R247): a line whose delta is acknowledged is written to its bank. -/
def execCommitLineWrite (n : Fin 48) (s : State) : Out :=
  let v := nbuOf s n
  match writableLine [] v.commit with
  | none => .next s
  | some (c, rest) =>
    if awake s ∧ stkRuns s (n.val / 4) ∧ (c.lta / 2 ^ 18) < 2 ^ 26 ∧ hasFrame (pageEnt s (c.lta / 2 ^ 18)) then
      let w := frameWrite (setNbu s n { v with commit := rest, restoring := v.restoring && !rest.isEmpty }) 
                 (entFrame (pageEnt s (c.lta / 2 ^ 18))) (c.lta % 2 ^ 18) c.data
      .next w.s
    else .next s

/-- NBU_RETAINED_RESTORE (R251): after a reset the pages of retained lines are held again and their deltas
resent. -/
def execNbuRetainedRestore (n : Fin 48) (s : State) : Out :=
  let v := nbuOf s n
  if v.restoring ∧ nbuWorks s n ∧ v.held = [] then
    let pages := (v.commit.map (fun c => c.lta / 2 ^ 18)).eraseDups
    match acquireAll s [] (pages.map (fun p => (p,
        sectorMask ((v.commit.filter (fun c => c.lta / 2 ^ 18 = p)).map (fun c => c.lta / 4096 % 64))))) with
    | (s, .got, _) =>
      let s := setNbu s n { nbuOf s n with held := pages }
      let s := sendDue n v.commit.length s
      .next (((v.commit.filterMap (fun c => if c.prot then some c.key else none)).eraseDups).foldl
        (fun s k => resendAll s n k) s)
    | (s, _, _) => .next s
  else .next s

end Sys2Proof.Machine
end

