-- ==== Sys2Proof/Machine/NbuRow.lean ====
section
/-! DEFINITION. What near-bank units do with rows and commands: bindings and streams (R231 to R234), update
programs (R239 to R243), row application, parking and transposition (R235 to R246), jobs, audit and the
command channel (R252 to R255). -/

namespace Sys2Proof.Machine

/-! ### Bindings and streams (R231 to R233) -/

/-- A stream descriptor (R232). -/
structure Stream where
  derived : Bool
  depth : Nat
  src : Nat
  kind : Nat
  conv : Nat
  fmt : Nat
  base : Nat
  aux : Nat

def streamOf (b : Bytes) (i : Nat) : Stream :=
  let w := fieldAt b (16 + 16 * i) 8
  let a := fieldAt b (24 + 16 * i) 8
  ⟨bit w 63, bits w 62 61, bits w 60 58, bits w 57 56, bits w 55 48, bits w 47 44, bits w 43 0, bits a 43 0⟩

def bindValid (b : Bytes) : Bool := bit (fieldAt b 0 4) 31
def bindProt (b : Bytes) : Bool := bit (fieldAt b 0 4) 30
def bindSlot (b : Bytes) : Nat := bits (fieldAt b 0 4) 29 26
def bindTiles (b : Bytes) : Nat := bits (fieldAt b 0 4) 25 0
def bindStreams (b : Bytes) : Nat := bits (fieldAt b 4 4) 3 0
def bindStamp (b : Bytes) : Nat := bits (fieldAt b 8 8) 43 0

/-- Bytes of an element of a stream. -/
def elemW (fmt : Nat) : Nat := fmtBits fmt / 8

/-- R232: ring entry of a step. -/
def ringEntry (x : Stream) (step : Nat) : Nat := step % (x.depth + 1)

/-- R232: offset of tile t of a ring entry. -/
def tileOff (x : Stream) (i t : Nat) : Nat := (if 0 < x.depth then i * x.aux else 0) + t * 4096 * elemW x.fmt

/-- The LTA of row r of tile t: 64 elements, within one sector. -/
def rowLta (x : Stream) (step t r : Nat) : Nat := qlin x.base (tileOff x (ringEntry x step) t + elemW x.fmt * 64 * r)

/-- The LTA of a SCALED8 row's scale byte. -/
def scaleLta (x : Stream) (t r : Nat) : Nat := qlin x.aux (64 * t + r)

/-- The LTA of a tile's stamp (R236). -/
def stampLta (b : Bytes) (t : Nat) : Nat := qlin (bindStamp b) (16 * t)

/-- A micro-op's fields (R239). -/
def mop (w : Nat) : Nat := bits w 31 26
def mD (w : Nat) : Nat := bits w 25 21
def mA (w : Nat) : Nat := bits w 20 16
def mB (w : Nat) : Nat := bits w 15 11
def mC (w : Nat) : Nat := bits w 10 6
def mX (w : Nat) : Nat := bits w 5 0

/-- The micro-ops up to END. -/
def liveOps : List Nat → List Nat
  | [] => []
  | w :: ws => if mop w = 0 then [] else w :: liveOps ws

/-- Streams a program loads, and stores. -/
def loadsOf (p : List Nat) : List Nat := (((liveOps p).filter (fun w => mop w = 2)).map (fun w => mX w % 8)).eraseDups
def storesOf (p : List Nat) : List Nat := (((liveOps p).filter (fun w => mop w = 4)).map (fun w => mX w % 8)).eraseDups

/-- R240, R242: bits of [25:0] that a micro-op names. -/
def mopMask (op : Nat) : Nat :=
  let d := span 25 21; let a := span 20 16; let b := span 15 11; let c := span 10 6
  match op with
  | 0x00 => 0 | 0x01 => d | 0x02 => d + 7 | 0x03 => d + 15 | 0x04 => a + 7
  | 0x05 => d + a | 0x06 => d + a + b | 0x07 => d + a + b | 0x08 => d + a + b | 0x09 => d + a + b + c
  | 0x0A => d + a + b | 0x0B => d + a | 0x0C => d + a | 0x0D => d + a + b | 0x0E => d + a + b
  | 0x0F => d + a | 0x10 => d + a | 0x11 => d + a | 0x12 => d + a + b | _ => d + a + b + c

/-- R242: a program image that PROG_LOAD rejects. Every word is checked, those after END too. -/
def progBad (p : List Nat) : Bool :=
  p.any (fun w => decide (0x14 ≤ mop w) || decide (w % 2 ^ 26 &&& mopMask (mop w) ≠ w % 2 ^ 26) ||
    (mop w = 0x12 && mD w = 31))
    || (let st := (p.filter (fun w => mop w = 4)).map (fun w => mX w % 8)
        decide (st.eraseDups.length ≠ st.length))

/-- The kinds of the other rules of R233, one stream. -/
def streamBad (n : Nat) (b : Bytes) (i : Nat) : Bool :=
  let x := streamOf b i
  let y := streamOf b x.src
  let a := fieldAt b (24 + 16 * i) 8
  let srcIn := decide (x.src < bindStreams b)
  decide (x.kind = 3) || decide (bits a 63 44 ≠ 0) || !qbaseOk n x.base || !convOk x.conv
    || (x.kind = 0 && decide (5 < x.fmt))
    || (x.kind = 1 && (decide (x.fmt ≠ 4) || decide (x.depth ≠ 0) || decide (x.conv / 16 ≠ 4) || !qbaseOk n x.aux))
    || (x.kind = 2 && (!srcIn || decide (y.kind ≠ 0) || decide (x.fmt ≠ y.fmt) || decide (x.depth ≠ y.depth)))
    || (x.derived && (decide (x.kind ≠ 0) || !srcIn || decide (y.kind ≠ 0) || decide (y.fmt ≠ 0)))
    || (x.kind ≠ 1 && (if x.depth = 0 then decide (x.aux ≠ 0)
        else decide (x.aux % 4096 ≠ 0) || decide (x.aux < bindTiles b * 4096 * elemW x.fmt)))

/-- R233: a binding record that BIND_LOAD rejects. -/
def bindBad (v : Nbu) (n : Nat) (b : Bytes) : Bool :=
  let ns := bindStreams b
  let prog := smGet [] v.progs (bindSlot b)
  let used := loadsOf prog ++ storesOf prog
  decide (bits (fieldAt b 4 4) 31 4 ≠ 0) || decide (bits (fieldAt b 8 8) 63 44 ≠ 0) || decide (ns = 0) || decide (7 < ns)
    || (bindValid b && decide (bindTiles b = 0)) || !qbaseOk n (bindStamp b)
    || (countUp 0 ns).any (streamBad n b)
    || (countUp ns (7 - ns)).any (fun i => decide (fieldAt b (16 + 16 * i) 16 ≠ 0))
    || prog.isEmpty || used.any (fun i => decide (ns ≤ i) || decide ((streamOf b i).kind = 2))

/-! ### Values of streams (R232, R241) -/

/-- The FP32 values of row r of tile t of a stream. -/
def loadRow (s : State) (n : Nat) (x : Stream) (step t r : Nat) : State × Nat × List Nat :=
  let w := elemW x.fmt
  let h := nbuBytes s n (rowLta x step t r) (64 * w)
  let els := elemsOf h.data (8 * w)
  if x.kind = 1 then
    let c := nbuBytes h.s n (scaleLta x t r) 1
    let sc := fieldAt c.data 0 1
    (c.s, if h.st ≠ 0 then h.st else c.st,
     els.map (fun v => if sc = 255 then nan32 else enc32 (numScale (decElem 4 v) ((sc : Int) - 127))))
  else (h.s, h.st, els.map (fun v => if x.fmt = 0 then (if isNan32 v then nan32 else v) else loadElem x.fmt v))

/-- Conversion control of a store: the stream's format with its own rounding and overflow bits (R241). -/
def storeConv (x : Stream) : Nat := x.fmt * 16 + x.conv % 16

/-- R241: the scale byte of 64 values. -/
def scaleByte (vs : List Nat) : Nat :=
  let xs := vs.map dec32
  if xs.any (fun v => match v with | .fin _ _ _ => false | _ => true) then 255
  else match groupExp xs with
    | none => 127
    | some k => (max 0 (min 254 (k + 120))).toNat

/-- R241: 64 values stored to row r of tile t of a stream, as edits. -/
def storeRow (x : Stream) (step t r : Nat) (vs : List Nat) : List Edit :=
  let w := elemW x.fmt
  if x.kind = 1 then
    let sc := scaleByte vs
    let bs := vs.map (fun v => if sc = 255 then 0x7F else (convElem (storeConv x) (numScale (dec32 v) (127 - (sc : Int)))).1)
    [(rowLta x step t r, packElems 8 bs), (scaleLta x t r, toLE sc 1)]
  else [(rowLta x step t r, packElems (8 * w) (vs.map (fun v => (convElem (storeConv x) (dec32 v)).1)))]

/-! ### Update programs (R239 to R243) -/

/-- R241: only the canonical NaN. -/
def canon (v : Nat) : Nat := if isNan32 v then nan32 else v % 2 ^ 32

/-- Registers of a lane. -/
abbrev Lane := SMap Nat

/-- R240: the result of a micro-op that computes D from its registers. -/
def mopVal (w : Nat) (g : Nat) (k : Nat → Nat) (ld : Nat → Nat) (r : Nat → Nat) : Nat :=
  let a := r (mA w); let b := r (mB w); let c := r (mC w)
  let pos : Bool := numLt (.fin false 0 0) (dec32 a)
  canon (match mop w with
    | 0x01 => g
    | 0x02 => ld (mX w % 8)
    | 0x03 => k (mX w % 16)
    | 0x05 => a
    | 0x06 => fadd a b
    | 0x07 => fsub a b
    | 0x08 => fmul a b
    | 0x09 => ffma a b c
    | 0x0A => fdiv a b
    | 0x0B => fsqrt a
    | 0x0C => fnRsqrt a
    | 0x0D => fmax a b
    | 0x0E => fmin a b
    | 0x0F => a % 2 ^ 31
    | 0x10 => a ^^^ 2 ^ 31
    | 0x11 => if isNan32 a ∨ a % 2 ^ 31 = 0 then a else if pos then 0x3F80_0000 else 0xBF80_0000
    | 0x12 => fadd a b
    | _ => if pos then b else c)

/-- R240: the rounding error of TWOSUM. -/
def twoSumErr (a b d : Nat) : Nat :=
  match dec32 d with
  | .fin _ _ _ =>
    let x := numAdd (numAdd (dec32 a) (dec32 b)) (numNeg (dec32 d))
    match x with
    | .fin _ 0 _ => 0
    | y => enc32 y
  | _ => 0

/-- R239: one element's run: micro-ops in order up to END; the stores in order. -/
def runOps (g : Nat) (k ld : Nat → Nat) : List Nat → Lane → List (Nat × Nat)
  | [], _ => []
  | w :: ws, r =>
    let get (i : Nat) : Nat := smGet 0 r i
    if mop w = 0 then []
    else if mop w = 4 then (mX w % 8, get (mA w)) :: runOps g k ld ws r
    else
      let d := mopVal w g k ld get
      let r' := smSet 0 r (mD w) d
      let r' := if mop w = 0x12 then smSet 0 r' (mD w + 1) (twoSumErr (get (mA w)) (get (mB w)) d) else r'
      runOps g k ld ws r'

/-- R235: the gradient of an element. -/
def gradient (v ref : Nat) : Nat := enc32 (numScale (numOfInt (signed 40 v)) ((ref : Int) - 153))

/-! ### Rows (R234 to R238) -/

def rStep (b : Bytes) : Nat := fieldAt b 0 4
def rBucket (b : Bytes) : Nat := bits (fieldAt b 4 4) 31 16
def rBinding (b : Bytes) : Nat := bits (fieldAt b 4 4) 11 0
def rRow (b : Bytes) : Nat := bits (fieldAt b 8 4) 31 26
def rTile (b : Bytes) : Nat := bits (fieldAt b 8 4) 25 0

/-- The tile a row belongs to, within its unit. -/
def rKey (b : Bytes) : Nat := rBinding b * 2 ^ 26 + rTile b

/-- R235: element e and its residue. -/
def rElem (b : Bytes) (e : Nat) : Nat := fieldAt b (16 + 5 * e) 5
def rRes (b : Bytes) (e : Nat) : Nat := fieldAt b (336 + e) 1

/-- R235 steps 1 to 3: the status a row ends with before any page is touched. -/
def rowCheck (bind b : Bytes) : Nat :=
  if bits (fieldAt b 4 4) 15 12 ≠ 0 ∨ fieldAt b 13 3 ≠ 0 ∨ fieldAt b 12 1 = 0xFF then 0x09
  else if ¬ bindValid bind ∨ bindTiles bind ≤ rTile b then 0x0A
  else if (countUp 0 64).any (fun e => decide (signed 40 (rElem b e) % 255 ≠ (rRes b e : Int))) then 0x06
  else 0

/-- A stamp (R236). -/
structure Stamp where
  step : Nat
  bucket : Nat
  tdone : Bool
  map : Nat

def parseStamp (b : Bytes) : Stamp := ⟨fieldAt b 0 4, fieldAt b 4 2, bit (fieldAt b 6 1) 0, fieldAt b 8 8⟩

def stampBytes (x : Stamp) : Bytes := toLE x.step 4 ++ toLE x.bucket 2 ++ toLE (if x.tdone then 1 else 0) 1 ++ [0] ++ toLE x.map 8

/-- TRANS streams of a binding. -/
def transOf (b : Bytes) : List Nat := (countUp 0 (bindStreams b)).filter (fun i => (streamOf b i).kind = 2)

/-- The operands of a row: (LTA, whether it is written). -/
def rowOperands (prog : List Nat) (bind b : Bytes) : List (Nat × Bool) :=
  let at1 (w : Bool) (i : Nat) : List (Nat × Bool) :=
    let x := streamOf bind i
    (rowLta x (rStep b) (rTile b) (rRow b), w) ::
      (if x.kind = 1 then [(scaleLta x (rTile b) (rRow b), w)] else [])
  ((loadsOf prog).map (at1 false)).flatten ++ ((storesOf prog).map (at1 true)).flatten
    ++ [(stampLta bind (rTile b), true)]

/-- The pages of operands, each with the sectors to be written. -/
def operandPages (ops : List (Nat × Bool)) : List (Nat × Nat) :=
  ((ops.map (fun o => o.1 / 2 ^ 18)).eraseDups).map (fun p =>
    (p, sectorMask ((ops.filter (fun o => o.1 / 2 ^ 18 = p ∧ o.2)).map (fun o => o.1 / 4096 % 64))))

/-- What became of a row that was taken. -/
inductive RowRes where
  | stay
  | park (page : Option Nat)
  | ended (st : Nat)
  | applied (w : Work)

/-- Values of the streams a program loads, for one row. -/
def loadStreams (s : State) (n : Nat) (bind b : Bytes) : List Nat → State × Nat × SMap (List Nat)
  | [] => (s, 0, [])
  | i :: is =>
    let (s, st, vs) := loadRow s n (streamOf bind i) (rStep b) (rTile b) (rRow b)
    let (s, st', m) := loadStreams s n bind b is
    (s, if st ≠ 0 then st else st', smSet [] m i vs)

/-- R235 step 7: the edits that the program makes. -/
def rowEdits (s : State) (n : Nat) (bind b : Bytes) (vals : SMap (List Nat)) : List Edit :=
  let v := nbuOf s n
  let slot := bindSlot bind
  let prog := smGet [] v.progs slot
  let k (i : Nat) : Nat := rd s (Csr.NBU_K (n / 4) (n % 4) slot (rStep b % 2) i)
  let outs := (countUp 0 64).map (fun e =>
    runOps (gradient (rElem b e) (fieldAt b 12 1)) k (fun i => (smGet [] vals i).getD e 0) prog [])
  ((storesOf prog).map (fun i =>
    storeRow (streamOf bind i) (rStep b) (rTile b) (rRow b)
      (outs.map (fun o => ((o.find? (fun y => y.1 = i)).map (·.2)).getD 0)))).flatten

/-- R236: a row that is applied: its lines and the stamp's are formed and placed. -/
def applyRow (s : State) (n : Nat) (bind b : Bytes) (pages : List Nat) (x : Stamp) : State × RowRes :=
  let v := nbuOf s n
  let prog := smGet [] v.progs (bindSlot bind)
  let (s, st, vals) := loadStreams s n bind b (loadsOf prog)
  if st ≠ 0 then (releasePages s pages, .ended st)
  else
    let map := x.map ||| 1 <<< rRow b
    let fills := decide (map = 2 ^ 64 - 1)
    let noT := (transOf bind).isEmpty
    let stamp : Edit := (stampLta bind (rTile b), stampBytes { x with map := map, tdone := fills && noT })
    let es := rowEdits s n bind b vals
    let prot := bindProt bind
    let sl := stamp.1 / 64 * 64
    let lines := (editLines es).filter (fun l => l ≠ sl)
    let all := es ++ [stamp]
    let (s, st, ls) := formLines s n prot all (lines ++ [sl])
    let ls := ls.map (fun l => { l with stamp := decide (l.lta = sl) })
    if st ≠ 0 then (releasePages s pages, .ended st)
    else if prot && !parityOk s ls then (releasePages s pages, .ended 0x0A)
    else if commitFree v < ls.length then (releasePages s pages, .stay)
    else
      let s := pages.foldl fencePage s
      let (s, g) := placeLines s n prot (some (rKey b)) ls
      (bumpStat s (Csr.NBU_ROWS (n / 4) (n % 4)) 1 (some (4 + n / 4)),
       .applied { raw := bytesAt b 0 12, bind := bind, grps := [g], needT := fills && !noT, pages := pages })

/-- R235, R236, R398: a row taken. -/
def tryRow (s : State) (n : Nat) (b : Bytes) : State × RowRes :=
  let v := nbuOf s n
  let bind := smGet [] v.binds (rBinding b)
  let st := rowCheck bind b
  if st ≠ 0 then
    (if st = 0x06 then bumpOcc s (Csr.NBU_RESIDUE (n / 4) (n % 4)) 1 else s, .ended st)
  else
    let prog := smGet [] v.progs (bindSlot bind)
    let ops := rowOperands prog bind b
    if 65536 ≤ v.commit.length then (s, .stay)
    else if ops.any (fun o => !reachable s n o.1) then (s, .ended 0x0A)
    else match acquireAll s [] (operandPages ops) with
      | (s, .later, _) => (s, .stay)
      | (s, .full, _) => (s, .stay)
      | (s, .fail st, _) => (s, .ended st)
      | (s, .wait, p) => (registerStall s (engKey 3 n p) true none p ((ops.filter (fun o => o.1 / 2 ^ 18 = p)).map
          (fun o => o.1 / 4096 % 64)) false, .park (some p))
      | (s, .got, _) =>
        let pages := (operandPages ops).map (·.1)
        let h := nbuBytes s n (stampLta bind (rTile b)) 16
        let x := parseStamp h.data
        if h.st ≠ 0 then (releasePages h.s pages, .ended h.st)
        else match serial 32 (rStep b) x.step with
          | .later =>
            if (nbuOf s n).uncovered.any (fun u => u.1 = rKey b) then (releasePages h.s pages, .park none)
            else applyRow h.s n bind b pages ⟨rStep b, rBucket b, false, 0⟩
          | .earlier =>
            (bumpOcc (releasePages h.s pages) (Csr.NBU_STALE (n / 4) (n % 4)) 1, .ended 0x0D)
          | .equal =>
            if x.bucket ≠ rBucket b then (releasePages h.s pages, .ended 0x09)
            else if !bit x.map (rRow b) then applyRow h.s n bind b pages x
            else if decide (x.map ≠ 2 ^ 64 - 1) || x.tdone then
              (bumpOcc (releasePages h.s pages) (Csr.NBU_DUP (n / 4) (n % 4)) 1, .ended 0)
            else (h.s, .applied { raw := bytesAt b 0 12, bind := bind, needT := true, pages := pages })

/-- R244: a row-buffer entry frees and its credit returns while ACCEPT = 1. -/
def freeEntry (s : State) (n : Nat) : State :=
  if flag s (Csr.NBU_CTRL (n / 4) (n % 4)) 0 then
    setNbu s n { nbuOf s n with credits := (nbuOf s n).credits + 1 }
  else s

/-- Rows parked in a unit. -/
def parkedRows (v : Nbu) : Nat := (v.rowq.filter (·.parked)).length

/-- Row i of the row buffer taken, with what follows. -/
def takeRow (s : State) (n i : Nat) : State :=
  match (nbuOf s n).rowq[i]? with
  | none => s
  | some r =>
    let (s, res) := tryRow s n r.raw
    let v := nbuOf s n
    let rest := v.rowq.take i ++ v.rowq.drop (i + 1)
    match res with
    | .stay => s
    | .park p =>
      if r.parked then setNbu s n { v with rowq := v.rowq.take i ++ { r with page := p } :: v.rowq.drop (i + 1) }
      else if parkedRows v < 256 then
        bumpStat (setNbu s n { v with rowq := v.rowq.take i ++ { r with parked := true, page := p } :: v.rowq.drop (i + 1) })
          (Csr.NBU_PARK (n / 4) (n % 4)) 1 (some (4 + n / 4))
      else s
    | .ended st => setNbu s n { v with rowq := rest, works := v.works ++
        [{ raw := bytesAt r.raw 0 12, status := st, entry := true }] }
    | .applied w => freeEntry (setNbu s n { v with rowq := rest, works := v.works ++ [w] }) n

/-- Index of the first row that is not parked. -/
def firstUnparked : List NRow → Nat → Option Nat
  | [], _ => none
  | r :: rs, i => if r.parked then firstUnparked rs (i + 1) else some i

/-- NBU_ROW_RECEIVE (R244): a row arrives, against the credit it was sent with or one still held. -/
def execNbuRowReceive (n : Fin 48) (row : Bytes) (s : State) : Out :=
  let b := bytesAt row 0 400
  let v := nbuOf s n
  let sent := s.rowsInFlight.any (fun x => x.1 = n.val ∧ x.2 = b)
  if !awake s || inResetBit s (4 + n.val / 4) then .next s
  else if sent then
    .next { setNbu s n { v with rowq := v.rowq ++ [{ raw := b }] } with
      rowsInFlight := s.rowsInFlight.erase (n.val, b) }
  else if 0 < v.credits then .next (setNbu s n { v with rowq := v.rowq ++ [{ raw := b }], credits := v.credits - 1 })
  else .next (raise s (nbuSrc n) 0x04 (rBinding b <<< 52 + rTile b) (rStep b))

/-- NBU_ROW_APPLY (R235, R245): the first row that is not parked is taken; a row of a tile with a parked row
parks behind it. -/
def execNbuRowApply (n : Fin 48) (s : State) : Out :=
  let v := nbuOf s n
  match firstUnparked v.rowq 0 with
  | none => .next s
  | some i =>
    if !nbuWorks s n then .next s
    else
      match v.rowq[i]? with
      | none => .next s
      | some r =>
        if (v.rowq.take i).any (fun q => rKey q.raw = rKey r.raw) then
          if parkedRows v < 256 then
            .next (bumpStat (setNbu s n { v with rowq := v.rowq.take i ++ { r with parked := true } :: v.rowq.drop (i + 1) })
              (Csr.NBU_PARK (n.val / 4) (n.val % 4)) 1 (some (4 + n.val / 4)))
          else .next s
        else .next (takeRow s n i)

/-- R246: the parked rows of a page whose promotion was abandoned or that was poisoned end. -/
def endParked (s : State) (n : Nat) (p st : Nat) : State :=
  let v := nbuOf s n
  let hit := v.rowq.filter (fun r => r.parked && r.page == some p)
  setNbu s n { v with rowq := v.rowq.filter (fun r => !(r.parked && r.page == some p)),
                      works := v.works ++ hit.map (fun r => { raw := bytesAt r.raw 0 12, status := st, entry := true }) }

/-- The parked rows tried in order of arrival, each unless an older row of its tile remains. -/
def unparkFrom (n : Nat) : Nat → Nat → State → State
  | 0, _, s => s
  | f + 1, i, s =>
    let v := nbuOf s n
    match v.rowq[i]? with
    | none => s
    | some r =>
      if r.parked && !(v.rowq.take i).any (fun q => rKey q.raw = rKey r.raw) then
        let s' := takeRow s n i
        if (nbuOf s' n).rowq.length < v.rowq.length then unparkFrom n f i s' else unparkFrom n f (i + 1) s'
      else unparkFrom n f (i + 1) s

/-- ROW_UNPARK (R246). -/
def execRowUnpark (n : Fin 48) (s : State) : Out :=
  if !nbuWorks s n then .next s
  else
    let pages := (((nbuOf s n).rowq.filterMap (·.page)).eraseDups)
    let s := pages.foldl (fun s p =>
      let k := engKey 3 n p
      let st := smGet 0 s.stallFail k
      let s := { s with stallFail := smSet 0 s.stallFail k 0,
                        stalled := s.stalled.filter (fun x => x.req.isSome || x.key ≠ k) }
      if st ≠ 0 then endParked s n p st else s) s
    .next (unparkFrom n (nbuOf s n).rowq.length 0 s)

/-! ### Transposition (R237) -/

/-- A tile of a stream in the ring entry of a step: 64 rows of raw element codes. -/
def loadTile (s : State) (n : Nat) (x : Stream) (step t : Nat) : List Nat → State × Nat × List (List Nat)
  | [] => (s, 0, [])
  | r :: rs =>
    let h := nbuBytes s n (rowLta x step t r) (64 * elemW x.fmt)
    let (s, st, l) := loadTile h.s n x step t rs
    (s, if h.st ≠ 0 then h.st else st, elemsOf h.data (8 * elemW x.fmt) :: l)

/-- Column c of a tile. -/
def column (rows : List (List Nat)) (c : Nat) : List Nat := rows.map (fun r => r.getD c 0)

/-- Rows written to a tile of a stream. -/
def tileEdits (x : Stream) (step t : Nat) (rows : List (List Nat)) : List Edit :=
  ((countUp 0 64).zip rows).map (fun r => (rowLta x step t r.1, packElems (8 * elemW x.fmt) r.2))

/-- R237: the edits of the TRANS streams of a tile. -/
def transEdits (s : State) (n : Nat) (bind : Bytes) (step t : Nat) : List Nat → State × Nat × List Edit
  | [] => (s, 0, [])
  | i :: is =>
    let x := streamOf bind i
    let (s, st, rows) := loadTile s n (streamOf bind x.src) step t (countUp 0 64)
    let es := tileEdits x step t ((countUp 0 64).map (column rows))
    let (s, st', rest) := transEdits s n bind step t is
    (s, if st ≠ 0 then st else st', es ++ rest)

/-- The operands of a transposition. -/
def transOperands (bind : Bytes) (step t : Nat) : List (Nat × Bool) :=
  ((transOf bind).map (fun i =>
    let x := streamOf bind i
    let y := streamOf bind x.src
    (countUp 0 64).map (fun r => (rowLta y step t r, false)) ++ (countUp 0 64).map (fun r => (rowLta x step t r, true)))).flatten
    ++ [(stampLta bind t, true)]

/-- Edits and a stamp turned into a placed group; answers a status and the group. -/
def placeEdits (s : State) (n : Nat) (prot : Bool) (es : List Edit) (stamp : Option Edit) : State × Nat × Nat :=
  let sl := (stamp.map (fun e => e.1 / 64 * 64)).getD 0
  let lines := (editLines es).filter (fun l => stamp.isNone || decide (l ≠ sl))
  let (s, st, ls) := formLines s n prot (es ++ stamp.toList) (lines ++ (if stamp.isSome then [sl] else []))
  let ls := ls.map (fun l => { l with stamp := stamp.isSome && decide (l.lta = sl) })
  if st ≠ 0 then (s, st, 0)
  else if prot && !parityOk s ls then (s, 0x0A, 0)
  else if commitFree (nbuOf s n) < ls.length then (s, 0xFF, 0)
  else
    let (s, g) := placeLines s n prot none ls
    (s, 0, g)

/-- R237: one tile transposed with its stamp's TDONE set. Answers 0xFF where it must wait. -/
def transposeTile (s : State) (n : Nat) (bind : Bytes) (step t : Nat) : State × Nat × Nat × List Nat :=
  let ops := transOperands bind step t
  if ops.any (fun o => !reachable s n o.1) then (s, 0x0A, 0, [])
  else match acquireAll s [] (operandPages ops) with
    | (s, .fail st, _) => (s, st, 0, [])
    | (s, .got, _) =>
      let pages := (operandPages ops).map (·.1)
      let s := pages.foldl fencePage s
      let h := nbuBytes s n (stampLta bind t) 16
      let (s, st, es) := transEdits h.s n bind step t (transOf bind)
      let st := if h.st ≠ 0 then h.st else st
      if st ≠ 0 then (releasePages s pages, st, 0, [])
      else
        let x := parseStamp h.data
        match placeEdits s n (bindProt bind) es (some (stampLta bind t, stampBytes { x with tdone := true })) with
        | (s, 0, g) => (s, 0, g, pages)
        | (s, st, _) => (releasePages s pages, st, 0, [])
    | (s, _, _) => (s, 0xFF, 0, [])

/-- Work i replaced. -/
def setWork (s : State) (n i : Nat) (w : Work) : State :=
  let v := nbuOf s n
  setNbu s n { v with works := v.works.take i ++ w :: v.works.drop (i + 1) }

/-- The first work that a predicate accepts, with its place. -/
def findWork (p : Work → Bool) : List Work → Nat → Option (Nat × Work)
  | [], _ => none
  | w :: ws, i => if p w then some (i, w) else findWork p ws (i + 1)

/-- TRANSPOSE_TILE (R237): after a row that fills MAP has been written. -/
def execTransposeTile (n : Fin 48) (s : State) : Out :=
  let v := nbuOf s n
  match findWork (fun w => w.needT && !grpsOpen v w.grps) v.works 0 with
  | none => .next s
  | some (i, w) =>
    if !nbuWorks s n then .next s
    else match transposeTile s n w.bind (rStep w.raw) (rTile w.raw) with
      | (s, 0, g, pages) =>
        .next (setWork s n i { w with needT := false, grps := w.grps ++ [g], pages := w.pages ++ pages })
      | (s, st, _, _) => .next (if st = 0xFF then s else setWork s n i { w with needT := false, status := st })

/-- NBU_ROW_ANSWER (R238): the first row that has ended is answered once, and its pages are released. -/
def execNbuRowAnswer (n : Fin 48) (s : State) : Out :=
  let v := nbuOf s n
  match findWork (fun w => !w.needT && !grpsOpen v w.grps) v.works 0 with
  | none => .next s
  | some (i, w) =>
    if !awake s || inResetBit s (4 + n.val / 4) then .next s
    else
      let s := setNbu s n { v with works := v.works.take i ++ v.works.drop (i + 1) }
      let s := if w.entry then freeEntry s n else s
      .next { releasePages s w.pages with
        rowAnswers := s.rowAnswers ++ [bytesAt w.raw 0 12 ++ toLE w.status 1 ++ [0, 0, 0]] }

/-! ### Commands (R252 to R255) -/

def putCmd (s : State) (n : Nat) (c : Option NCmd) : State := setNbu s n { nbuOf s n with cmd := c }

/-- R255: argument bits that a command names. -/
def nbuMasks (op : Nat) : Option (Option Nat × Option Nat × Option Nat) :=
  match op with
  | 0x01 => some (some 0xF, some (2 ^ 44 - 1), none)
  | 0x02 => some (some 0x0FFF_0FFF, some (2 ^ 44 - 1), none)
  | 0x03 => some (some 0x0FFF_0FFF, none, none)
  | 0x04 => some (none, some (2 ^ 44 - 1), none)
  | 0x05 => some (some 0x1FFF, some (2 ^ 26 - 1), some (2 ^ 26 - 1))
  | 0x06 => some (some 0xFFF, some (2 ^ 26 - 1), some (2 ^ 26 - 1))
  | 0x07 => some (none, none, none)
  | _ => none

def nbuArgsBad (op a0 a1 a2 : Nat) : Bool :=
  match nbuMasks op with
  | none => true
  | some (m0, m1, m2) => strayBits a0 m0 || strayBits a1 m1 || strayBits a2 m2

/-- R242: PROG_LOAD. -/
def progLoad (s : State) (n : Nat) (c : NCmd) : State × NCmd :=
  match ltaRead s (engKey 4 n 0) (bits c.a1 43 0) 256 with
  | (s, none) => (s, c)
  | (s, some (st, d)) =>
    let ws := elemsOf d 32
    if st ≠ 0 then (s, { c with whole := some st })
    else if progBad ws then (s, { c with whole := some 0x09 })
    else
      let v := nbuOf s n
      (setNbu s n { v with progs := smSet [] v.progs (bits c.a0 3 0) ws }, { c with whole := some 0 })

/-- R233: one record of BIND_LOAD. -/
def bindLoadPart (s : State) (n : Nat) (c : NCmd) (i : Nat) : State × PlcPart :=
  let k := bits c.a0 11 0 + i
  if 4096 ≤ k then (s, .ended 0x0A)
  else match ltaRead s (engKey 4 n (i + 1)) (bits c.a1 43 0 + 128 * i) 128 with
    | (s, none) => (s, .todo)
    | (s, some (st, d)) =>
      let v := nbuOf s n
      if st ≠ 0 then (s, .ended st)
      else if bindBad v n d then (s, .ended 0x09)
      else (setNbu s n { v with binds := smSet [] v.binds k d }, .ended 0)

/-- R255: BIND_CLEAR of one record. -/
def bindClearPart (s : State) (n : Nat) (c : NCmd) (i : Nat) : State × PlcPart :=
  let k := bits c.a0 11 0 + i
  if 4096 ≤ k then (s, .ended 0x0A)
  else
    let v := nbuOf s n
    let b := smGet [] v.binds k
    let b := if b = [] then [] else toLE (fieldAt b 0 4 % 2 ^ 31) 4 ++ b.drop 4
    (setNbu s n { v with binds := smSet [] v.binds k b }, .ended 0)

/-- R254: the values a DERIVED or TRANS stream should hold, for rows 0 to 63 of a tile. -/
def rederive (s : State) (n : Nat) (bind : Bytes) (step t i : Nat) : State × Nat × List (List Nat) :=
  let x := streamOf bind i
  let y := streamOf bind x.src
  let (s, st, rows) := loadTile s n y step t (countUp 0 64)
  if x.kind = 2 then (s, st, (countUp 0 64).map (column rows))
  else (s, st, rows.map (fun r => r.map (fun v => (convElem (storeConv x) (dec32 v)).1)))

/-- Mismatching elements between two tiles: how many, and the first's index. -/
def tileMiss (a b : List (List Nat)) : Nat × Option Nat :=
  let l := (a.flatten.zip b.flatten).zip (countUp 0 4096)
  let m := l.filter (fun x => decide (x.1.1 ≠ x.1.2))
  (m.length, m.head?.map (·.2))

/-- R254: streams of a tile audited in order. Answers the count, the first mismatch, and the edits of repair. -/
def auditStreams (s : State) (n : Nat) (bind : Bytes) (step t : Nat) :
    List Nat → State × Nat × Nat × Option (Nat × Nat) × List Edit
  | [] => (s, 0, 0, none, [])
  | i :: is =>
    let x := streamOf bind i
    let (s, st1, want) := rederive s n bind step t i
    let (s, st2, got) := loadTile s n x step t (countUp 0 64)
    let (m, f) := tileMiss want got
    let (s, st3, m', f', es) := auditStreams s n bind step t is
    (s, if st1 ≠ 0 then st1 else if st2 ≠ 0 then st2 else st3, m + m',
     match f with | some e => some (i, e) | none => f',
     (if m = 0 then [] else tileEdits x step t want) ++ es)

/-- The operands of an audit of a tile. -/
def auditOperands (bind : Bytes) (step t : Nat) (repair : Bool) (l : List Nat) : List (Nat × Bool) :=
  (l.map (fun i =>
    let x := streamOf bind i
    let y := streamOf bind x.src
    (countUp 0 64).map (fun r => (rowLta y step t r, false)) ++ (countUp 0 64).map (fun r => (rowLta x step t r, repair)))).flatten

/-- R254: one tile of AUDIT. -/
def auditPart (s : State) (n : Nat) (c : NCmd) (i : Nat) : State × NCmd × PlcPart :=
  let bind := smGet [] (nbuOf s n).binds (bits c.a0 11 0)
  let t := bits c.a1 25 0 + i
  let repair := bit c.a0 12
  let l := (countUp 0 (bindStreams bind)).filter (fun i => (streamOf bind i).derived || decide ((streamOf bind i).kind = 2))
  if ¬ bindValid bind ∨ bindTiles bind ≤ t then (s, c, .ended 0x0A)
  else if !reachable s n (stampLta bind t) then (s, c, .ended 0x0A)
  else match acquireAll s [] [(stampLta bind t / 2 ^ 18, 0)] with
    | (s, .fail st, _) => (s, c, .ended st)
    | (s, .got, _p0) =>
      let h := nbuBytes s n (stampLta bind t) 16
      let s := releasePage h.s (stampLta bind t / 2 ^ 18)
      let step := (parseStamp h.data).step
      let ops := auditOperands bind step t repair l
      if h.st ≠ 0 then (s, c, .ended h.st)
      else if ops.any (fun o => !reachable s n o.1) then (s, c, .ended 0x0A)
      else match acquireAll s [] (operandPages ops) with
        | (s, .fail st, _) => (s, c, .ended st)
        | (s, .got, _) =>
          let pages := (operandPages ops).map (·.1)
          let s := if repair then pages.foldl fencePage s else s
          let (s, st, m, f, es) := auditStreams s n bind step t l
          let c' := { c with miss := c.miss + m,
                             first := match c.first, f with
                               | some x, _ => some x
                               | none, some (i, e) => some (t, i, e)
                               | none, none => none }
          if st ≠ 0 then (releasePages s pages, c, .ended st)
          else if !repair || es.isEmpty then (releasePages s pages, c', .ended 0)
          else match placeEdits s n (bindProt bind) es none with
            | (s, 0, g) => (s, { c' with grps := c'.grps ++ [g], pages := c'.pages ++ pages }, .ended 0)
            | (s, st, _) => (releasePages s pages, c, if st = 0xFF then .todo else .ended st)
        | (s, _, _) => (s, c, .todo)
    | (s, _, _) => (s, c, .todo)

/-- R255: one tile of TRANSPOSE, in the ring entry of the stamp's step. -/
def transposePart (s : State) (n : Nat) (c : NCmd) (i : Nat) : State × NCmd × PlcPart :=
  let bind := smGet [] (nbuOf s n).binds (bits c.a0 11 0)
  let t := bits c.a1 25 0 + i
  if ¬ bindValid bind ∨ bindTiles bind ≤ t then (s, c, .ended 0x0A)
  else if !reachable s n (stampLta bind t) then (s, c, .ended 0x0A)
  else match acquireAll s [] [(stampLta bind t / 2 ^ 18, 0)] with
    | (s, .fail st, _) => (s, c, .ended st)
    | (s, .got, _) =>
      let h := nbuBytes s n (stampLta bind t) 16
      let s := releasePage h.s (stampLta bind t / 2 ^ 18)
      if h.st ≠ 0 then (s, c, .ended h.st)
      else match transposeTile s n bind (parseStamp h.data).step t with
        | (s, 0, g, pages) => (s, { c with grps := c.grps ++ [g], pages := c.pages ++ pages }, .ended 0)
        | (s, st, _, _) => (s, c, if st = 0xFF then .todo else .ended st)
    | (s, _, _) => (s, c, .todo)

/-- R252: job descriptor fields. -/
def jKind (b : Bytes) : Nat := bits (fieldAt b 0 4) 31 28
def jAfmt (b : Bytes) : Nat := bits (fieldAt b 0 4) 27 24
def jXfmt (b : Bytes) : Nat := bits (fieldAt b 0 4) 23 20
def jConv (b : Bytes) : Nat := bits (fieldAt b 0 4) 19 12
def jProt (b : Bytes) : Bool := bit (fieldAt b 0 4) 11
def jN (b : Bytes) : Nat := fieldAt b 4 4
def jA (b : Bytes) : Nat := bits (fieldAt b 8 8) 43 0
def jX (b : Bytes) : Nat := bits (fieldAt b 16 8) 43 0
def jY (b : Bytes) : Nat := bits (fieldAt b 24 8) 43 0
def jBatch (b : Bytes) : Nat := bits (fieldAt b 40 4) 3 0

/-- R252, R253, R220: a malformed job. -/
def jobBad (n : Nat) (b : Bytes) : Bool :=
  let k := jKind b
  decide (k = 0) || decide (3 < k) || decide (bits (fieldAt b 0 4) 9 0 ≠ 0)
    || decide (5 < jAfmt b) || decide (5 < jXfmt b) || !convOk (jConv b) || decide (5 < jConv b / 16)
    || decide (bits (fieldAt b 8 8) 63 44 ≠ 0) || decide (bits (fieldAt b 16 8) 63 44 ≠ 0)
    || decide (bits (fieldAt b 24 8) 63 44 ≠ 0) || decide (bits (fieldAt b 40 4) 31 4 ≠ 0)
    || decide (fieldAt b 44 20 ≠ 0) || decide (jN b = 0)
    || (k = 1 && (decide (jN b % 64 ≠ 0) || !qbaseOk n (jX b) || !qbaseOk n (jY b)))
    || (k = 2 && (decide (jBatch b = 0) || decide (8 < jBatch b)))
    || (k ≠ 1 && !qbaseOk n (jA b))

/-- R253: parts of a job. -/
def jobParts (b : Bytes) : Nat := if jKind b = 1 then jN b / 64 else 1

/-- R255: JOB reads its descriptor. -/
def jobRead (s : State) (n : Nat) (c : NCmd) : State × NCmd :=
  match ltaRead s (engKey 4 n 0) (bits c.a1 43 0) 64 with
  | (s, none) => (s, c)
  | (s, some (st, d)) =>
    if st ≠ 0 then (s, { c with whole := some st })
    else if jobBad n d then (s, { c with whole := some 0x09 })
    else (s, { c with job := d, parts := List.replicate (jobParts d) .todo })

/-- R253: AXPBY, 64 elements. -/
def axpbyPart (s : State) (n : Nat) (c : NCmd) (i : Nat) : State × NCmd × PlcPart :=
  let b := c.job
  let wx := elemW (jXfmt b)
  let fy := jConv b / 16
  let wy := elemW fy
  let lx := qlin (jX b) (64 * i * wx)
  let ly := qlin (jY b) (64 * i * wy)
  let ops := [(lx, false), (ly, true)]
  if ops.any (fun o => !reachable s n o.1) then (s, c, .ended 0x0A)
  else match acquireAll s [] (operandPages ops) with
    | (s, .fail st, _) => (s, c, .ended st)
    | (s, .got, _) =>
      let pages := (operandPages ops).map (·.1)
      let s := fencePage s (ly / 2 ^ 18)
      let hx := nbuBytes s n lx (64 * wx)
      let hy := nbuBytes hx.s n ly (64 * wy)
      let st := if hx.st ≠ 0 then hx.st else hy.st
      if st ≠ 0 then (releasePages hy.s pages, c, .ended st)
      else
        let al := fieldAt b 32 4
        let be := fieldAt b 36 4
        let ys := ((elemsOf hx.data (8 * wx)).zip (elemsOf hy.data (8 * wy))).map (fun p =>
          (convElem (jConv b) (dec32 (ffma al (loadElem (jXfmt b) p.1) (fmul be (loadElem fy p.2))))).1)
        match placeEdits hy.s n (jProt b) [(ly, packElems (8 * wy) ys)] none with
        | (s, 0, g) => (s, { c with grps := c.grps ++ [g], pages := c.pages ++ pages }, .ended 0)
        | (s, st, _) => (releasePages s pages, c, if st = 0xFF then .todo else .ended st)
    | (s, _, _) => (s, c, .todo)

/-- Sums in order from +0.0, each product and each sum rounded. -/
def dotFrom (acc : Nat) : List (Nat × Nat) → Nat
  | [] => acc
  | (x, a) :: l => dotFrom (fadd acc (fmul x a)) l

/-- The FP32 values of 64-element rows of A at quarter offsets. -/
def loadRowsAt (s : State) (n base w fmt : Nat) : List Nat → State × Nat × List (List Nat)
  | [] => (s, 0, [])
  | off :: os =>
    let h := nbuBytes s n (qlin base off) (64 * w)
    let (s, st, l) := loadRowsAt h.s n base w fmt os
    (s, if h.st ≠ 0 then h.st else st, (elemsOf h.data (8 * w)).map (loadElem fmt) :: l)

/-- R253: GEMV and EMBED: the offsets of the rows of A, and the weight each result vector gives them. -/
def jobDense (s : State) (n : Nat) (c : NCmd) (offs : List Nat) (weights : List (List Nat)) : State × NCmd × PlcPart :=
  let b := c.job
  let w := elemW (jAfmt b)
  let ops := offs.map (fun o => (qlin (jA b) o, false))
  if ops.any (fun o => !inQuarter s n o.1) then (s, c, .ended 0x0A)
  else match acquireAll s [] (operandPages ops) with
    | (s, .fail st, _) => (s, c, .ended st)
    | (s, .got, _) =>
      let pages := (operandPages ops).map (·.1)
      let (s, st, rows) := loadRowsAt s n (jA b) w (jAfmt b) offs
      let s := releasePages s pages
      if st ≠ 0 then (s, c, .ended st)
      else
        let ys := (weights.map (fun ws => (countUp 0 64).map (fun j =>
          (convElem (jConv b) (dec32 (dotFrom 0 (ws.zip (column rows j))))).1))).flatten
        match ltaWrite s (engKey 4 n 2) (jY b) (packElems (fmtBits (jConv b / 16)) ys) with
        | (s, none) => (s, c, .todo)
        | (s, some st) => (s, c, .ended st)
    | (s, _, _) => (s, c, .todo)

/-- R253: GEMV. -/
def gemvPart (s : State) (n : Nat) (c : NCmd) : State × NCmd × PlcPart :=
  let b := c.job
  let wx := elemW (jXfmt b)
  let k := 64 * jN b
  match ltaRead s (engKey 4 n 1) (jX b) (jBatch b * k * wx) with
  | (s, none) => (s, c, .todo)
  | (s, some (st, d)) =>
    if st ≠ 0 then (s, c, .ended st)
    else
      let xs := (elemsOf d (8 * wx)).map (loadElem (jXfmt b))
      jobDense s n c ((countUp 0 k).map (fun r => 64 * elemW (jAfmt b) * r))
        ((countUp 0 (jBatch b)).map (fun v => (xs.drop (v * k)).take k))

/-- R253: EMBED. -/
def embedPart (s : State) (n : Nat) (c : NCmd) : State × NCmd × PlcPart :=
  let b := c.job
  let wtd := bit (fieldAt b 0 4) 10
  match ltaRead s (engKey 4 n 1) (jX b) (jN b * (if wtd then 8 else 4)) with
  | (s, none) => (s, c, .todo)
  | (s, some (st, d)) =>
    if st ≠ 0 then (s, c, .ended st)
    else
      let ws := elemsOf d 32
      let idx := ws.take (jN b)
      let wt := if wtd then ws.drop (jN b) else idx.map (fun _ => 0x3F80_0000)
      jobDense s n c (idx.map (fun r => 64 * elemW (jAfmt b) * r)) [wt]

/-- One part of a job. -/
def jobPart1 (s : State) (n : Nat) (c : NCmd) (i : Nat) : State × NCmd × PlcPart :=
  match jKind c.job with
  | 1 => axpbyPart s n c i
  | 2 => gemvPart s n c
  | _ => embedPart s n c

/-- One part of a multi-part command other than a job. -/
def nbuPart (s : State) (n : Nat) (c : NCmd) (i : Nat) : State × NCmd × PlcPart :=
  match c.op with
  | 0x02 => let (s, r) := bindLoadPart s n c i; (s, c, r)
  | 0x03 => let (s, r) := bindClearPart s n c i; (s, c, r)
  | 0x05 => auditPart s n c i
  | _ => transposePart s n c i

/-- The parts that have not ended, tried in order. -/
def nbuTryParts (n : Nat) : Nat → Nat → State → State
  | 0, _, s => s
  | f + 1, i, s =>
    match (nbuOf s n).cmd with
    | none => s
    | some c =>
      let s := if c.parts[i]? = some .todo then
          let (s, c, r) := nbuPart s n c i
          putCmd s n (some { c with parts := setPart c.parts i r })
        else s
      nbuTryParts n f (i + 1) s

/-- R249, R251: SEQ_RESET clears the sequence state, with the commit buffer and the journal that go with it. -/
def seqClear (v : Nbu) : Nbu :=
  { v with commit := [], groups := [], nextSeq := [], lastPaddr := [], sinceMark := [], resends := [], marks := [],
           uncovered := [], hseq := [], jrnl := [] }

/-- What is left of a unit's command, tried. Parts of a job wait for JOB_PART. -/
def nbuTry (s : State) (n : Nat) : State :=
  match (nbuOf s n).cmd with
  | none => s
  | some c =>
    if c.whole.isSome then s
    else match c.op with
      | 0x01 => let (s, c) := progLoad s n c; putCmd s n (some c)
      | 0x04 => if c.job = [] then (let (s, c) := jobRead s n c; putCmd s n (some c)) else s
      | 0x07 => let s := setNbu s n (seqClear (nbuOf s n)); putCmd s n (some { c with whole := some 0 })
      | _ => nbuTryParts n c.parts.length 0 s

/-- R255: a non-zero OP written to NBU_CMD starts a command; while BUSY it is ignored. -/
def nbuIssue (s : State) (i : Initiator) (n op : Nat) (evt : Bool) : State :=
  let a (k : Nat) : Nat := rd s (Csr.NBU_CMD_ARG (n / 4) (n % 4) k)
  match (nbuOf s n).cmd with
  | some _ => violation s 0x3 true i (Csr.NBU_CMD (n / 4) (n % 4))
  | none =>
    let c : NCmd := { op := op, a0 := a 0, a1 := a 1, a2 := a 2, evt := evt }
    let c :=
      if nbuArgsBad op c.a0 c.a1 c.a2 then { c with whole := some 0x09 }
      else if op = 0x02 ∨ op = 0x03 then { c with parts := List.replicate (bits c.a0 27 16 + 1) .todo }
      else if op = 0x05 ∨ op = 0x06 then
        if bits c.a2 25 0 = 0 then { c with whole := some 0x09 }
        else { c with parts := List.replicate (bits c.a2 25 0) .todo }
      else c
    let s := putCmd s n (some c)
    if nbuWorks s n then nbuTry s n else s

/-- The first part of a list that has not ended. -/
def firstTodo : List PlcPart → Nat → Option Nat
  | [], _ => none
  | .todo :: _, i => some i
  | _ :: l, i => firstTodo l (i + 1)

/-- JOB_PART (R253): the next part of a job is computed and its lines are placed. -/
def execJobPart (n : Fin 48) (s : State) : Out :=
  let s := { s with answers := [] }
  match (nbuOf s n).cmd with
  | none => .next s
  | some c =>
    match firstTodo c.parts 0 with
    | none => .next s
    | some i =>
      if c.op = 0x04 ∧ c.job ≠ [] ∧ nbuWorks s n then
        let (s, c, r) := jobPart1 s n c i
        .next (putCmd s n (some { c with parts := setPart c.parts i r }))
      else .next s

/-- NBU_CMD_DONE (R255): the command's parts have ended and its lines are written. -/
def execNbuCmdDone (n : Fin 48) (s : State) : Out :=
  let s := { s with answers := [] }
  let q := n.val / 4; let k := n.val % 4
  if !nbuWorks s n then .next s
  else
    let s := nbuTry s n
    match (nbuOf s n).cmd with
    | none => .next s
    | some c =>
      let rep := match c.whole with
        | some st => some (wholeReport st)
        | none => if c.op = 0x01 ∨ (c.op = 0x04 ∧ c.job = []) then none else (partStatuses c.parts).map partReport
      match rep with
      | none => .next s
      | some r =>
        if grpsOpen (nbuOf s n) c.grps then .next s
        else
          let s := releasePages (putCmd s n none) c.pages
          let s := wr s (Csr.NBU_CMD_STAT q k) (r.status <<< 24 + r.firstFail <<< 16)
          let s := wr (wr s (Csr.NBU_CMD_PREFIX q k) r.pfx) (Csr.NBU_CMD_MAP q k) r.map
          let s := if c.op = 0x05 then
              let s := wr s (Csr.NBU_CMD_RESULT q k) (min c.miss 0xFFFF_FFFF)
              let s := wr s (Csr.NBU_CMD_RESULT2 q k) (match c.first with
                | some (t, x, e) => t <<< 38 + x <<< 35 + e
                | none => 0)
              if 0 < c.miss then raise s (nbuSrc n) 0x03
                (bits c.a0 11 0 <<< 52 + ((c.first.map (·.1)).getD 0)) c.miss else s
            else s
          .next (if c.evt then raise s (nbuSrc n) 0x01 (c.op <<< 48 + r.status) r.pfx else s)

/-! ### Register effects and reset -/

/-- R244: NBU_CTRL.ACCEPT: setting it grants a credit for each free entry. -/
def nbuAcceptEff (s : State) (n : Nat) (was now : Bool) : State :=
  if now && !was then
    let v := nbuOf s n
    let used := v.rowq.length + (v.works.filter (·.entry)).length
      + (s.rowsInFlight.filter (fun x => x.1 = n)).length
    setNbu s n { v with credits := 512 - used }
  else s

/-- R230, R251: a reset reaches the unit. Retained lines, sequence state and journal stay, except in a cold
reset; pages are released. -/
def nbuReset (s : State) (n : Nat) (cold : Bool) : State :=
  let v := nbuOf s n
  let s := releasePages s (v.held ++ (v.works.map (·.pages)).flatten ++ (match v.cmd with | some c => c.pages | none => []))
  let s := { s with rowsInFlight := s.rowsInFlight.filter (fun x => x.1 ≠ n) }
  if cold then setNbu s n {}
  else
    setNbu s n { commit := v.commit, nextGrp := v.nextGrp, groups := v.groups, nextSeq := v.nextSeq,
                 lastPaddr := v.lastPaddr, sinceMark := v.sinceMark, marks := v.marks, uncovered := v.uncovered,
                 hseq := v.hseq, jrnl := v.jrnl, restoring := !v.commit.isEmpty }

/-- R250, R380: at an epoch switch each unacknowledged delta goes to the holder that the new map names; a new
holder gives it a new sequence number. -/
def nbuEpochLine (s : State) (n : Nat) (c : CLine) : State × CLine :=
  match (if c.prot && c.seq.isSome && !c.acked then parityOf s c.lta else none) with
  | none => (s, c)
  | some (k, pa) =>
    if k = c.key then (s, { c with paddr := pa })
    else
      let v := nbuOf s n
      let q := smGet 0 v.nextSeq k
      (setNbu s n { v with nextSeq := smSet 0 v.nextSeq k ((q + 1) % 2 ^ 32),
                           lastPaddr := smSet none v.lastPaddr k (some pa),
                           sinceMark := smSet false v.sinceMark k true },
       { c with key := k, paddr := pa, seq := some q })

def nbuEpochLines (n : Nat) : State → List CLine → State × List CLine
  | s, [] => (s, [])
  | s, c :: cs =>
    let (s, c) := nbuEpochLine s n c
    let (s, l) := nbuEpochLines n s cs
    (s, c :: l)

def nbuEpoch (s : State) (n : Nat) : State :=
  let (s, l) := nbuEpochLines n s (nbuOf s n).commit
  let s := setNbu s n { nbuOf s n with commit := l }
  ((l.filterMap (fun c => if c.prot && c.seq.isSome && !c.acked then some c.key else none)).eraseDups).foldl
    (fun s k => resendAll s n k) s

/-- PGRP_STAT.SETTLED (R415). -/
def settled (s : State) : Bool :=
  (countUp 0 48).all (fun n =>
    let v := nbuOf s n
    let lost (k : Nat) : Bool := flag s Csr.PGRP_LOST 31 && decide (k / 64 = fld s Csr.PGRP_LOST 11 0)
    v.commit.all (fun c => !c.prot || (lost c.key && !c.acked)) && v.marks.all (fun m => lost m.key))

end Sys2Proof.Machine
end

