-- ==== Sys2Proof/Machine/Relay.lean ====
section
/-! DEFINITION. The Gradient Relay, what both sides share and the final side: rings and entries (R285 to R290),
completions (R291, R309), exact sums (R295 to R298), Substitutes (R299 to R301), delivery (R302, R303) and
closing (R305). -/

namespace Sys2Proof.Machine

def rlyOf (s : State) (e : Nat) : Rly := smGet {} s.rlys e
def setRly (s : State) (e : Nat) (v : Rly) : State := { s with rlys := smSet {} s.rlys e v }

/-- R451: event source of Relay engine e. -/
def rlySrc (e : Nat) : Nat := 77 + e

/-- R40: commit index of both engines. -/
def rlyIdx : Nat := 25

/-- The engines are clocked and out of reset. -/
def rlyUp (s : State) : Bool := awake s && !inResetBit s rlyIdx

/-- RLY_CTRL.ENABLE. -/
def rlyOn (s : State) (e : Nat) : Bool := flag s (Csr.RLY_CTRL e) 0

/-! ### Rings (R285) -/

/-- Entries that wait between the consumer and the producer index. -/
def ringCount (pi ci : Nat) : Nat := (pi + 2 ^ 17 - ci % 2 ^ 17) % 2 ^ 17

/-- R285: a producer index written over a ring of 2^log2 entries; one that would overfill it is ignored and
counted. -/
def ringPush (s : State) (ini : Initiator) (piA ciA log2 v : Nat) : State :=
  let pi := v % 2 ^ 17
  if 2 ^ log2 < ringCount pi (fld s ciA 16 0) then violation s 3 true ini piA else setFld s piA 16 0 pi

/-- A ring entry copied whole: `none` while its read stalls, its bytes, or a failed read. -/
def ringFetch (s : State) (key base log2 ci n : Nat) : State × Option (Option Bytes) :=
  match ltaRead s key (base + n * (ci % 2 ^ log2)) n with
  | (s, none) => (s, none)
  | (s, some (st, b)) => (s, some (if st = 0 then some b else none))

/-! ### Entries (R286 to R289) -/

def eKind (b : Bytes) : Nat := bits (fieldAt b 0 4) 31 28
def eEvt (b : Bytes) : Bool := bit (fieldAt b 0 4) 27
def eSbEn (b : Bytes) : Bool := bit (fieldAt b 0 4) 26
def eSbCore (b : Bytes) : Nat := bits (fieldAt b 0 4) 23 19
def eCore (b : Bytes) : Nat := 24 * bits (fieldAt b 0 4) 25 24 + eSbCore b
def eSb (b : Bytes) : Nat := bits (fieldAt b 0 4) 18 13
def eStep (b : Bytes) : Nat := fieldAt b 4 4
def eTag (b : Bytes) : Nat := fieldAt b 8 2
def eComp (b : Bytes) : Nat := fieldAt b 56 8
def oNsrc (b : Bytes) : Nat := fieldAt b 10 1 + 1
def oTiles (b : Bytes) : Nat := fieldAt b 12 4 % 128
def oDlist (b : Bytes) : Nat := fieldAt b 16 8
def oReft (b : Bytes) : Nat := fieldAt b 24 8
def oStats (b : Bytes) : Nat := fieldAt b 32 8
def oLog (b : Bytes) : Nat := fieldAt b 40 8
def oDeadline (b : Bytes) : Nat := fieldAt b 48 4
def oHard (b : Bytes) : Nat := fieldAt b 52 4

/-- R309: TAG in [63:48] and STEP in [31:0]. -/
def tagStep (b : Bytes) : Nat := eTag b <<< 48 + eStep b

/-- R290: what any entry of engine e must hold. -/
def commonBad (e : Nat) (b : Bytes) : Bool :=
  eKind b = 0 || decide (4 < eKind b) || fieldAt b 0 4 % 2 ^ 13 ≠ 0 || eTag b % 2 ≠ e
    || decide (2 ^ 44 ≤ eComp b) || (eSbEn b && decide (23 < eSbCore b))

/-! ### Completions (R291, R309) -/

/-- R291: a completion word. -/
def complWord (r : Report) (count : Nat) (bstat : Option Nat) : Nat :=
  r.status <<< 56 + r.firstFail <<< 48 + bstat.getD 0 <<< 40 + (if bstat.isSome then 1 <<< 39 else 0)
    + min count 65535 <<< 23 + min r.pfx 8191

/-- A completion put in line. -/
def rlyFinish (s : State) (e : Nat) (b : Bytes) (r : Report) (count : Nat) (bstat : Option Nat)
    (rebuild : Bool) : State :=
  let v := rlyOf s e
  let f : RFin := ⟨v.next, b, complWord r count bstat, r.map, rebuild⟩
  setRly s e { v with next := v.next + 1, fins := v.fins ++ [f] }

/-- R310: the first failed bucket or SEND completion is captured. -/
def rlyCapture (s : State) (e st : Nat) (b : Bytes) : State :=
  if st = 0 ∨ flag s (Csr.RLY_FAIL e) 31 then s
  else wr (wr s (Csr.RLY_FAIL e) (1 <<< 31 + (if eKind b = 2 then 1 <<< 30 else 0) + st <<< 16 + eTag b))
    (Csr.RLY_FAIL_STEP e) (eStep b)

/-- R309, R406: the completion event of an entry. -/
def rlyEvent (s : State) (e : Nat) (f : RFin) : State :=
  let st := bits f.word 63 56
  let w := fieldAt f.entry 0 4
  if st = 0 ∧ ¬ eEvt f.entry then s
  else if f.rebuild then
    raise s (rlySrc e) st ((if bit w 26 then 1 <<< 63 else 0) + bits w 25 22 <<< 56 + fieldAt f.entry 4 4 % 2 ^ 26) f.map
  else if eKind f.entry = 1 then
    raise s (rlySrc e) st (tagStep f.entry + st <<< 40 + bits f.word 55 48 <<< 32) f.map
  else if eKind f.entry = 2 then
    raise s (rlySrc e) st (tagStep f.entry + fieldAt f.entry 10 1 <<< 40 + bits f.word 55 48 <<< 32) f.map
  else s

/-- R286: the scoreboard bit an entry names, set as SYNC.SIG sets it. -/
def rlySignal (s : State) (b : Bytes) : State :=
  if eSbEn b ∧ eSbCore b ≤ 23 ∧ ¬ inResetBit s (eCore b / 24) then sbSet s (eCore b) (eSb b) else s

/-- What a completion does once its word is written. -/
def finDuties (s : State) (e : Nat) (f : RFin) : State :=
  if f.rebuild then rlyEvent s e f
  else
    let s := rlySignal s f.entry
    let s := if eKind f.entry = 1 ∨ eKind f.entry = 2 then rlyCapture s e (bits f.word 63 56) f.entry else s
    rlyEvent s e f

/-- R286: the word of a completion written; false while the write stalls or the signalled quadrant is off. -/
def finOne (s : State) (e : Nat) (f : RFin) : State × Bool :=
  let c := eComp f.entry
  if ¬ f.rebuild ∧ eSbEn f.entry ∧ eSbCore f.entry ≤ 23 ∧ ¬ inResetBit s (eCore f.entry / 24)
      ∧ domainOff s (eCore f.entry / 24) then (s, false)
  else if c = 0 ∨ c % 8 ≠ 0 ∨ 2 ^ 44 ≤ c then (finDuties s e f, true)
  else
    match ltaWrite s (engKey 8 e f.id) c (toLE f.word 8) with
    | (s, none) => (s, false)
    | (s, some _) => (finDuties s e f, true)

/-- Every completion in line is tried. -/
def runFins (e : Nat) : State → List RFin → State
  | s, [] => s
  | s, f :: fs =>
    match finOne s e f with
    | (s, true) =>
      let v := rlyOf s e
      runFins e (setRly s e { v with fins := v.fins.filter (fun g => g.id ≠ f.id) }) fs
    | (s, false) => runFins e s fs

/-! ### Rows and buckets -/

def bktOf (s : State) (e tag : Nat) : Option Bucket := (rlyOf s e).open_.find? (fun k => eTag k.entry = tag)

def setBkt (s : State) (e : Nat) (k : Bucket) : State :=
  let v := rlyOf s e
  setRly s e { v with open_ := v.open_.map (fun x => if eTag x.entry = eTag k.entry then k else x) }

def rowOf (k : Bucket) (b : Nat) : RRow := smGet {} k.rows b

def setRow (s : State) (e : Nat) (k : Bucket) (b : Nat) (r : RRow) : State :=
  setBkt s e { k with rows := smSet {} k.rows b r }

def rowEnded (r : RRow) : Bool := match r.st with | .ended _ => true | _ => false

/-- R304: DELIVERING. -/
def rowDelivering (r : RRow) : Bool := match r.st with | .ready => true | .sent => true | .later => true | _ => false

/-- Rows of a bucket. -/
def bktRows (k : Bucket) : List Nat := countUp 0 (64 * oTiles k.entry)

/-- R279: row slots not reserved. -/
def freeSlots (s : State) (e : Nat) : Nat :=
  65536 - ((rlyOf s e).open_.map (fun k =>
    64 * oTiles k.entry - (k.rows.filter (fun x => rowEnded x.2)).length)).sum

/-- Free Substitute slots (R299). -/
def freeSubst (s : State) (e : Nat) : Nat :=
  16384 - ((rlyOf s e).open_.map (fun k => (k.rows.map (fun x => x.2.subs.length)).sum)).sum

/-- R300: the sources of a row whose taker is a Substitute. -/
def subMask (r : RRow) : Nat :=
  r.takers.foldl (fun m x => match x.2 with | some t => if t.sub then m ||| 1 <<< x.1 else m | none => m) 0

/-- The reference exponent in force (R295, R297). -/
def rowRef (k : Bucket) (b : Nat) : Nat := fieldAt k.reft b 1 + (rowOf k b).refUp

/-! ### Sums (R295, R296) -/

/-- An integer divided by 2^k, rounded to nearest, ties to even. -/
def rneDiv (m : Int) (k : Nat) : Int :=
  let q := m / 2 ^ k
  let r := m % 2 ^ k
  if 2 ^ k < 2 * r ∨ (2 * r = 2 ^ k ∧ q % 2 = 1 ∧ 0 < k) then q + 1 else q

/-- R295: the fixed-point value and the residue of one element. -/
def fixElem (m s : Int) : Int × Nat :=
  if 0 ≤ s then (m * 2 ^ s.toNat, (((m % 255) * 2 ^ (s.toNat % 8)) % 255).toNat)
  else
    let v := rneDiv m (-s).toNat
    (v, (v % 255).toNat)

/-- R295: one element added. -/
def addElem (s : Int) (r : RRow) (e : Nat) (m : Int) : RRow :=
  let (v, rho) := fixElem m s
  if 2 ^ 39 ≤ v.natAbs then { r with tooBig := true }
  else { r with sum := smSet 0 r.sum e (smGet 0 r.sum e + v), res := smSet 0 r.res e ((smGet 0 r.res e + rho) % 255) }

/-- The elements of a row added in order. -/
def addElems (s : Int) : RRow → Nat → List Int → RRow
  | r, _, [] => r
  | r, e, m :: ms => addElems s (addElem s r e m) (e + 1) ms

/-- R295: a contribution row taken. -/
def takeSum (ref X : Nat) (ms : List Int) (r : RRow) : RRow :=
  if X = 0xFF then { r with invalid := true }
  else
    let r := addElems ((X : Int) - ref + 20) r 0 ms
    { r with maxX := max r.maxX X }

/-- R296: the result of the checks; 0 for OK. -/
def rowVerdict (r : RRow) : Nat :=
  if r.invalid then 0x09
  else if (countUp 0 64).any (fun e => decide (smGet 0 r.sum e % 255 ≠ ((smGet 0 r.res e : Nat) : Int))) then 0x06
  else if r.tooBig || (countUp 0 64).any (fun e => decide (smGet 0 r.sum e < -2 ^ 39) || decide (2 ^ 39 ≤ smGet 0 r.sum e)) then 0x0C
  else 0

/-! ### Ends and retries (R297, R303, R304) -/

/-- A row ends. -/
def endRow (s : State) (e tag b st : Nat) : State :=
  match bktOf s e tag with
  | none => s
  | some k =>
    let s := setRow s e k b { rowOf k b with st := .ended st }
    let v := rlyOf s e
    let s := setRly s e { v with dlv := v.dlv.filter (· ≠ (tag, b)) }
    if st = 0 then bumpStat s (Csr.RLY_ROWS e) 1 (some rlyIdx) else s

/-- R292: the header of a record of this exchange. -/
def rlyHead (type dev src sub sparse tile step tag mask : Nat) : Bytes :=
  toLE (type <<< 28 + dev <<< 16 + src <<< 8 + sub <<< 7 + sparse <<< 6 + tile) 4 ++ toLE step 4 ++ toLE tag 2
    ++ toLE 0 6 ++ toLE mask 8 ++ toLE 0 8

def b01 (b : Bool) : Nat := if b then 1 else 0

/-- R297 step 4: a RESEND to each taker of the row. -/
def sendResends (s : State) (e : Nat) (k : Bucket) (b : Nat) : State :=
  (rowOf k b).takers.foldl (fun s x => match x.2 with
    | some t =>
      bumpOcc (send s (relayMsg s t.dev 0x01
        (bytesAt (rlyHead 3 t.dev x.1 (b01 t.sub) (b01 t.sparse) (b / 64) (eStep k.entry) (eTag k.entry) (1 <<< (b % 64))) 0 24)))
        (Csr.RLY_RESEND e) 1
    | none => s) s

/-- R296, R297: a row that failed its check is tried again or ends. -/
def rowFailed (s : State) (e tag b st : Nat) : State :=
  match bktOf s e tag with
  | none => s
  | some k =>
    if st = 0x09 then endRow s e tag b 0x09
    else
      let s := bumpOcc s (if st = 0x06 then Csr.RLY_RESIDUE e else Csr.RLY_SAT e) 1
      let r := rowOf k b
      let up := if st = 0x0C then fld s (Csr.RLY_CFG e) 7 4 else 0
      if fld s (Csr.RLY_CFG e) 3 0 ≤ r.attempts then endRow s e tag b st
      else if 254 < rowRef k b + up ∧ st = 0x0C then endRow s e tag b 0x0C
      else
        let r := { st := .filling, refUp := r.refUp + up, takers := r.takers, attempts := r.attempts + 1,
                   subs := r.subs, everSent := r.everSent }
        let s := setRow s e k b r
        let v := rlyOf s e
        let s := setRly s e { v with dlv := v.dlv.filter (· ≠ (tag, b)) }
        sendResends s e { k with rows := smSet {} k.rows b r } b

/-- A row waits for its turn to be sent. -/
def queueRow (s : State) (e tag b : Nat) : State :=
  match bktOf s e tag with
  | none => s
  | some k =>
    let s := setRow s e k b { rowOf k b with st := .ready }
    let v := rlyOf s e
    setRly s e { v with dlv := v.dlv.filter (· ≠ (tag, b)) ++ [(tag, b)] }

/-- R296: a filling row that every source has filled is checked. -/
def rowSettle (s : State) (e tag b : Nat) : State :=
  match bktOf s e tag with
  | none => s
  | some k =>
    let r := rowOf k b
    if r.st = .filling ∧ (countUp 0 (oNsrc k.entry)).all (fun c => smGet false r.taken c) then
      let st := rowVerdict r
      if st = 0 then queueRow s e tag b else rowFailed s e tag b st
    else s

/-- R295, R299, R300: source c of a row is taken. -/
def takeSource (s : State) (e tag b c X : Nat) (ms : List Int) (t : Taker) : State :=
  match bktOf s e tag with
  | none => s
  | some k =>
    let r := rowOf k b
    let first := t.sub && decide (subMask r = 0)
    let r' := takeSum (rowRef k b) X ms r
    let r' := { r' with taken := smSet false r'.taken c true, takers := smSet none r'.takers c (some t),
                        subs := if t.sub then r'.subs else smSet none r'.subs c none }
    let s := setRow s e { k with subEvt := k.subEvt || t.sub } b r'
    let s := if X = 0xFF then s else bumpStat s (Csr.RLY_ELEMS e) 64 (some rlyIdx)
    let s := if first then bumpOcc s (Csr.RLY_SUBST e) 1 else s
    if t.sub ∧ ¬ k.subEvt then raise s (rlySrc e) 0x04 (tagStep k.entry) c else s

/-! ### OPEN (R287, R290) -/

/-- R290: the check of an OPEN. -/
def openCheck (s : State) (e : Nat) (b : Bytes) : Nat :=
  if commonBad e b ∨ fieldAt b 11 1 ≠ 0 ∨ 128 ≤ fieldAt b 12 4 ∨ oTiles b = 0 ∨ 64 < oTiles b
      ∨ 2 ^ 44 ≤ oDlist b ∨ 2 ^ 44 ≤ oReft b ∨ 2 ^ 44 ≤ oStats b ∨ 2 ^ 44 ≤ oLog b
      ∨ (bktOf s e (eTag b)).isSome then 0x09
  else if oDlist b % 8 ≠ 0 ∨ oReft b % 8 ≠ 0 ∨ oStats b % 8 ≠ 0 ∨ eComp b % 8 ≠ 0 then 0x0A
  else if 4096 ≤ (rlyOf s e).open_.length ∨ freeSlots s e < 64 * oTiles b then 0x0B
  else 0

/-- Delivery-list entry of a bucket tile (R302). -/
def dlMbase (d : Bytes) (j : Nat) : Nat := fieldAt d (16 * j) 8
def dlTile (d : Bytes) (j : Nat) : Nat := fieldAt d (16 * j + 8) 4
def dlBind (d : Bytes) (j : Nat) : Nat := fieldAt d (16 * j + 12) 2

/-- R302: the form of a delivery-list entry. -/
def dlBad (d : Bytes) (j : Nat) : Bool :=
  decide (2 ^ 44 ≤ dlMbase d j) || decide (dlMbase d j % 4096 ≠ 0) || decide (2 ^ 26 ≤ dlTile d j)
    || decide (2 ^ 12 ≤ fieldAt d (16 * j + 12) 4)

/-- The ring's consumer index moves past the entry taken. -/
def ringTaken (s : State) (ciA : Nat) : State := setFld s ciA 16 0 (fld s ciA 16 0 + 1)

/-- The head entry of submission ring q: `none` when there is none or its read stalls; an entry whose copy
fails is passed over. -/
def sqHead (s : State) (e q : Nat) : State × Option Bytes :=
  let sz := Csr.RLY_SQ_SIZE e q
  if ¬ rlyOn s e ∨ ¬ works s rlyIdx ∨ ¬ flag s sz 31
      ∨ ringCount (fld s (Csr.RLY_SQ_PI e q) 16 0) (fld s (Csr.RLY_SQ_CI e q) 16 0) = 0 then (s, none)
  else
    match ringFetch s (engKey 5 (e * 16 + q) 0) (fld s (Csr.RLY_SQ_BASE e q) 43 0) (fld s sz 4 0)
        (fld s (Csr.RLY_SQ_CI e q) 16 0) 64 with
    | (s, none) => (s, none)
    | (s, some none) => (ringTaken s (Csr.RLY_SQ_CI e q), none)
    | (s, some (some b)) => (s, some b)

/-- An OPEN taken: its lists read, and the bucket opened or the entry failed; `none` while a read stalls. -/
def openTake (s : State) (e q : Nat) (b : Bytes) : State :=
  let done (s : State) : State := ringTaken s (Csr.RLY_SQ_CI e q)
  let fail (s : State) (st : Nat) : State := rlyFinish (done s) e b (wholeReport st) 0 none false
  let st := openCheck s e b
  if st ≠ 0 then fail s st
  else
    match ltaRead s (engKey 6 (e * 16 + q) 0) (oDlist b) (16 * oTiles b) with
    | (s, none) => s
    | (s, some (st, dl)) =>
      if st ≠ 0 then fail s st
      else
        match ltaRead s (engKey 6 (e * 16 + q) 1) (oReft b) (64 * oTiles b) with
        | (s, none) => s
        | (s, some (st, rf)) =>
          if st ≠ 0 then fail s st
          else if (countUp 0 (oTiles b)).any (dlBad dl) then fail s 0x09
          else
            let s := done s
            let v := rlyOf s e
            setRly s e { v with open_ := v.open_ ++ [{ entry := b, dlist := dl, reft := rf }] }

/-! ### CONTRIB (R292, R294, R299) -/

/-- A signed mantissa byte. -/
def mant (b : Byte) : Int := b.toInt

/-- R283: pairs placed over a row of zeros. -/
def placePairs : List Int → Bytes → List Int
  | ms, i :: m :: ps => placePairs (ms.set (i.toNat % 64) (mant m)) ps
  | ms, _ => ms

/-- The rows carried by a CONTRIB's payload: row, exponent and mantissas. -/
def contribRows (sparse : Bool) : Bytes → List Nat → List (Nat × Nat × List Int)
  | _, [] => []
  | p, r :: rs =>
    let X := fieldAt p 0 1
    if sparse then
      let n := min 64 (fieldAt p 1 1)
      (r, if 64 < fieldAt p 1 1 then 0xFF else X, placePairs (List.replicate 64 0) (bytesAt p 2 (2 * n)))
        :: contribRows sparse (p.drop (2 + 2 * n)) rs
    else (r, X, (bytesAt p 1 64).map mant) :: contribRows sparse (p.drop 65) rs

/-- What becomes of an arriving row (R299). -/
inductive Arr where
  | take | hold | no
  deriving DecidableEq, Repr

/-- R299: the table of arrivals. -/
def arrival (k : Bucket) (r : RRow) (c : Nat) (sub : Bool) : Arr :=
  if r.st ≠ .filling then .no
  else
    match smGet none r.takers c with
    | none =>
      if !sub || k.passed then .take
      else if (smGet none r.subs c).isSome then .no else .hold
    | some t => if t.sub == sub && !smGet false r.taken c then .take else .no

/-- R293: an ANSWER to a CONTRIB. -/
def answerRec (r : Bytes) (code notTaken bst : Nat) : Bytes :=
  toLE (fieldAt r 0 4 % 2 ^ 28 + 2 <<< 28) 4 ++ bytesAt r 4 12 ++ toLE notTaken 8 ++ toLE code 1 ++ toLE bst 1 ++ toLE 0 6

def sendAnswer (s : State) (r : Bytes) (code notTaken bst : Nat) : State :=
  send s (relayMsg s (bits (fieldAt r 0 4) 27 16) 0x01 (answerRec r code notTaken bst))

/-- The rows of a CONTRIB settled one after the other; answers the mask of rows not taken. -/
def settleRows (e tag c : Nat) (t : Taker) : State → List (Nat × Nat × Nat × List Int) → State × Nat
  | s, [] => (s, 0)
  | s, (b, r, X, ms) :: xs =>
    match bktOf s e tag with
    | none => (s, 0)
    | some k =>
      let (s, no) : State × Nat := match arrival k (rowOf k b) c t.sub with
        | .take => (takeSource s e tag b c X ms t, 0)
        | .hold => (setRow s e k b { rowOf k b with subs := smSet none (rowOf k b).subs c (some ⟨X, ms, t.dev, t.sparse⟩) }, 0)
        | .no => (s, 1 <<< r)
      let (s, m) := settleRows e tag c t s xs
      (s, no ||| m)

/-- Numbers of the set bits of a 64-bit mask. -/
def maskBits (m : Nat) : List Nat := (countUp 0 64).filter (fun i => bit m i)

/-- R294, R299: a contribution for the step its bucket is at: the rows it settles, and the answer. -/
def contribTake (s : State) (e tag c tile : Nat) (t : Taker) (k : Bucket) (r : Bytes) : State :=
  let s := setBkt s e { k with senders := (k.senders ++ [t.dev]).eraseDups }
  if oNsrc k.entry ≤ c ∨ oTiles k.entry ≤ tile then sendAnswer s r 4 0 0
  else
    let rows := (contribRows t.sparse (r.drop 32) (maskBits (fieldAt r 16 8))).map
      (fun x => (64 * tile + x.1, x))
    let holds := rows.filter (fun x => arrival k (rowOf k x.1) c t.sub = .hold)
    if freeSubst s e < holds.length then sendAnswer s r 2 0 0
    else
      let no := settleRows e tag c t s rows
      let s := bumpOcc no.1 (Csr.RLY_NOTTAKEN e) (maskBits no.2).length
      let s := sendAnswer s r 0 no.2 0
      rows.foldl (fun s x => rowSettle s e tag x.1) s

/-- R294: the answer to a CONTRIB for a tag without a bucket, by how its step stands to the last one closed. -/
def closedAnswer (s : State) (r : Bytes) (step : Serial) (st : Nat) : State :=
  match step with
  | .later => sendAnswer s r 1 0 0
  | .earlier => sendAnswer s r 3 0 0
  | .equal => sendAnswer s r 5 0 st

/-- R294: a CONTRIB whose bucket is open, by how its step stands to the bucket's. -/
def contribOpen (s : State) (e tag c tile : Nat) (t : Taker) (k : Bucket) (r : Bytes) (step : Serial) : State :=
  match step with
  | .later => sendAnswer s r 1 0 0
  | .earlier => sendAnswer s r 3 0 0
  | .equal => contribTake s e tag c tile t k r

/-- R294: a CONTRIB with its fields, at a working engine. -/
def contribFor (s : State) (e tag c tile step : Nat) (t : Taker) (r : Bytes) : State :=
  match bktOf s e tag with
  | none =>
    match smGet none (rlyOf s e).closed tag with
    | none => sendAnswer s r 1 0 0
    | some x => closedAnswer s r (serial 32 step x.1) x.2
  | some k =>
    contribOpen s e tag c tile t k r (serial 32 step (eStep k.entry))

/-- R294: a CONTRIB reaches the final engine. -/
def contribEff (s : State) (e : Nat) (r : Bytes) : State :=
  let w := fieldAt r 0 4
  let s := bumpStat s (Csr.RLY_RX_BYTES e) r.length (some rlyIdx)
  if ¬ rlyOn s e then sendAnswer s r 1 0 0
  else contribFor s e (fieldAt r 8 2) (bits w 15 8) (bits w 5 0) (fieldAt r 4 4) ⟨bit w 7, bits w 27 16, bit w 6⟩ r

/-- Held Substitutes of a row whose sources have no taker are taken. -/
def takeHeld (e tag b : Nat) (s : State) (x : Nat × Option HeldSub) : State :=
  match x.2, bktOf s e tag with
  | some h, some k =>
    if (smGet none (rowOf k b).takers x.1).isNone then
      let s := setRow s e k b { rowOf k b with subs := smSet none (rowOf k b).subs x.1 none }
      takeSource s e tag b x.1 h.x h.ms ⟨true, h.dev, h.sparse⟩
    else s
  | _, _ => s

/-- The deadline of a bucket passes. -/
def deadlineEff (s : State) (e tag : Nat) : State :=
  match bktOf s e tag with
  | none => s
  | some k =>
    let s := setBkt s e { k with passed := true }
    let s := (k.rows.filter (fun x => x.2.st = .filling)).foldl (fun s x =>
      rowSettle (x.2.subs.foldl (takeHeld e tag x.1) s) e tag x.1) s
    match bktOf s e tag with
    | none => s
    | some k =>
      let left := (bktRows k).filter (fun b => (rowOf k b).st = .filling)
      if left = [] then s else raise s (rlySrc e) 0x05 (tagStep k.entry) left.length

/-- The hard limit of a bucket: rows not complete end. -/
def hardEff (s : State) (e tag : Nat) : State :=
  match bktOf s e tag with
  | none => s
  | some k => ((bktRows k).filter (fun b => (rowOf k b).st = .filling)).foldl (fun s b => endRow s e tag b 0x05) s

/-! ### Delivery (R302, R303) -/

/-- R234: the row as it is delivered. -/
def deliveryBytes (k : Bucket) (b : Nat) : Bytes :=
  let r := rowOf k b
  toLE (eStep k.entry) 4 ++ toLE (eTag k.entry <<< 16 + dlBind k.dlist (b / 64)) 4
    ++ toLE ((b % 64) <<< 26 + dlTile k.dlist (b / 64)) 4 ++ toLE (rowRef k b) 1 ++ toLE 0 3
    ++ ((countUp 0 64).map (fun i => toLE (wrapInt 40 (smGet 0 r.sum i)) 5)).flatten
    ++ (countUp 0 64).map (fun i => BitVec.ofNat 8 (smGet 0 r.res i))

/-- R302: the unit of a row, `none` for a page that no row can reach. -/
def rowUnit (s : State) (k : Bucket) (b : Nat) : Option Nat :=
  let m := dlMbase k.dlist (b / 64)
  let e := pageEnt s ((m + 16384 * (b % 64 / 16) + 256 * (b % 16)) / 2 ^ 18)
  if e.state = .invalid ∨ e.state = .retired ∨ ¬ e.banked then none else some (4 * e.stack + bits m 13 12)

/-- R303: the first waiting row whose unit has a credit is sent; a row that no unit can take ends. -/
def deliverNext (s : State) (e : Nat) : List (Nat × Nat) → State
  | [] => s
  | (tag, b) :: xs =>
    match bktOf s e tag with
    | none => deliverNext s e xs
    | some k =>
      let st := rowVerdict (rowOf k b)
      if st ≠ 0 then rowFailed s e tag b st
      else
        match rowUnit s k b with
        | none => endRow s e tag b 0x0A
        | some n =>
          let v := nbuOf s n
          if v.credits = 0 then deliverNext s e xs
          else
            let d := deliveryBytes k b
            let s := setRow s e k b { rowOf k b with st := .sent, everSent := true }
            let y := rlyOf s e
            let s := setRly s e { y with dlv := y.dlv.filter (· ≠ (tag, b)) }
            setNbu { s with rowsInFlight := s.rowsInFlight ++ [(n, d)] } n { v with credits := v.credits - 1 }

/-- A row goes back to its turn to be sent again. -/
def resendRow (s : State) (e tag b : Nat) : State := queueRow (bumpOcc s (Csr.RLY_REDELIVER e) 1) e tag b

/-- The row that a unit's answer names (R238). -/
def answeredRow (k : Bucket) (a : Bytes) : Option Nat :=
  (bktRows k).find? (fun b => rowDelivering (rowOf k b) && (rowOf k b).everSent && decide (b % 64 = rRow a)
    && decide (dlTile k.dlist (b / 64) = rTile a) && decide (dlBind k.dlist (b / 64) = rBinding a))

/-- R303: the engine acts on a unit's answer. -/
def nbuAnswerEff (s : State) (e : Nat) (a : Bytes) : State :=
  match bktOf s e (rBucket a) with
  | none => s
  | some k =>
    match (if eStep k.entry = rStep a then answeredRow k a else none) with
    | none => s
    | some b =>
      let tag := eTag k.entry
      let r := rowOf k b
      let st := fieldAt a 12 1
      let more := decide (r.attempts < fld s (Csr.RLY_CFG e) 3 0)
      let out (s : State) : State :=
        let v := rlyOf s e
        setRly s e { v with dlv := v.dlv.filter (· ≠ (tag, b)) }
      if st = 0x06 then
        let c := rowVerdict r
        if c ≠ 0 then rowFailed s e tag b c
        else if more then resendRow (setRow s e k b { r with attempts := r.attempts + 1 }) e tag b
        else endRow s e tag b st
      else if st = 0x0B ∨ st = 0x04 then
        if more then out (setRow s e k b { r with attempts := r.attempts + 1, st := .later }) else endRow s e tag b st
      else if st = 0x02 ∨ st = 0x03 then
        let s := out (setRow s e { k with heldEvt := true } b { r with st := .held st })
        if k.heldEvt then s else raise s (rlySrc e) 0x03 (tagStep k.entry) (b + st <<< 16)
      else if st = 0x08 then out (setRow s e k b { r with st := .later })
      else endRow s e tag b st

/-! ### CANCEL, RELEASE and closing (R289, R305) -/

/-- The open instance of a tag at a step. -/
def instanceOf (s : State) (e : Nat) (b : Bytes) : Option Bucket :=
  match bktOf s e (eTag b) with
  | some k => if eStep k.entry = eStep b then some k else none
  | none => none

/-- R289: every row that has not ended ends with CANCELLED. -/
def cancelRows (s : State) (e : Nat) (k : Bucket) : State :=
  ((bktRows k).filter (fun b => !rowEnded (rowOf k b))).foldl (fun s b => endRow s e (eTag k.entry) b 0x0E) s

/-- R289: the rows in HELD are delivered again or end. -/
def releaseRows (s : State) (e : Nat) (k : Bucket) (again : Bool) : State :=
  k.rows.foldl (fun s x => match x.2.st with
    | .held st => if again then resendRow s e (eTag k.entry) x.1 else endRow s e (eTag k.entry) x.1 st
    | _ => s) s

/-- A DONE record: the header's TAG and STEP, and the bucket status at byte 25. -/
def doneRec (dev step tag st : Nat) : Bytes := bytesAt (rlyHead 4 dev 0 0 0 0 step tag 0) 0 25 ++ toLE st 1 ++ toLE 0 6

def sendDone (s : State) (d : RDone) : State :=
  send s (relayMsg s d.dev 0x01 (doneRec (selfDev s) d.step d.tag d.status))

/-- R298, R300: the STATS bytes and the Substitute log. -/
def statsBytes (k : Bucket) : Bytes := (bktRows k).map (fun b => BitVec.ofNat 8 (rowOf k b).maxX)

def logBytes (k : Bucket) : Bytes :=
  toLE ((bktRows k).foldl (fun m b => m ||| subMask (rowOf k b)) 0) 32
    ++ ((bktRows k).map (fun b => toLE (subMask (rowOf k b)) 32)).flatten

/-- An optional write of an engine: address zero writes nothing. -/
def optWrite (s : State) (key addr : Nat) (bs : Bytes) : State × Bool :=
  if addr = 0 then (s, true)
  else
    match ltaWrite s key addr bs with
    | (s, none) => (s, false)
    | (s, some _) => (s, true)

/-- R305: a bucket whose every row has ended closes, once its tables are written. -/
def closeBucket (e : Nat) (s : State) (k : Bucket) : State :=
  if ¬ (bktRows k).all (fun b => rowEnded (rowOf k b)) then s
  else
    match optWrite s (engKey 9 e (eTag k.entry * 2)) (oStats k.entry) (statsBytes k) with
    | (s, false) => s
    | (s, true) =>
      match optWrite s (engKey 9 e (eTag k.entry * 2 + 1)) (oLog k.entry) (logBytes k) with
      | (s, false) => s
      | (s, true) =>
        let sts := (bktRows k).map (fun b => match (rowOf k b).st with | .ended st => st | _ => 0)
        let r := partReport sts
        let n := ((bktRows k).filter (fun b => subMask (rowOf k b) ≠ 0)).length
        let s := rlyFinish s e k.entry r n none false
        let v := rlyOf s e
        let dones := k.senders.map (fun d => (⟨eTag k.entry, eStep k.entry, r.status, d, 1⟩ : RDone))
        let s := setRly s e { v with open_ := v.open_.filter (fun x => eTag x.entry ≠ eTag k.entry),
                                     closed := smSet none v.closed (eTag k.entry) (some (eStep k.entry, r.status)),
                                     dones := v.dones ++ dones.filter (fun _ => 1 < fld s (Csr.RLY_HOP e) 15 8) }
        dones.foldl sendDone s

end Sys2Proof.Machine
end

