-- ==== Sys2Proof/Machine/RelaySend.lean ====
section
/-! DEFINITION. The Gradient Relay's sender side (R283, R284, R288, R293, R306, R307), the rebuild channel
(R402 to R406), and the commands of both engines. -/

namespace Sys2Proof.Machine

/-! ### Staging (R283, R284) -/

def sSource (b : Bytes) : Nat := fieldAt b 10 1
def sSparse (b : Bytes) : Bool := bit (fieldAt b 11 1) 1
def sSub (b : Bytes) : Bool := bit (fieldAt b 11 1) 0
def sDev (b : Bytes) : Nat := fieldAt b 12 2 % 4096
def sFirst (b : Bytes) : Nat := fieldAt b 14 1
def sCount (b : Bytes) : Nat := fieldAt b 15 1 + 1
def sMaddr (b : Bytes) : Nat := fieldAt b 16 8
def sXaddr (b : Bytes) : Nat := fieldAt b 24 8
def sCaddr (b : Bytes) : Nat := fieldAt b 32 8

/-- R290: the check of a SEND. -/
def sendCheck (e : Nat) (b : Bytes) : Nat :=
  if commonBad e b ∨ 4 ≤ fieldAt b 11 1 ∨ 4096 ≤ fieldAt b 12 2 ∨ 64 ≤ sFirst b ∨ 64 ≤ fieldAt b 15 1
      ∨ 2 ^ 44 ≤ sMaddr b ∨ 2 ^ 44 ≤ sXaddr b ∨ 2 ^ 44 ≤ sCaddr b ∨ (¬ sSparse b ∧ sCaddr b ≠ 0)
      ∨ fieldAt b 40 16 ≠ 0 ∨ 63 < sFirst b + fieldAt b 15 1 then 0x09
  else if sMaddr b % 64 ≠ 0 ∨ sXaddr b % 64 ≠ 0 ∨ sCaddr b % 64 ≠ 0 ∨ eComp b % 8 ≠ 0 then 0x0A
  else 0

/-- The indices of a row's pairs strictly ascend and their upper bits are zero (R283). -/
def pairsOk : Option Nat → Bytes → Bool
  | last, i :: _ :: ps =>
    decide (i.toNat < 64) && (match last with | none => true | some l => decide (l < i.toNat)) && pairsOk (some i.toNat) ps
  | _, _ => true

/-- R284: the payload of the sparse rows in `mask`, and whether a row was malformed. -/
def sparseRows (mask : Nat) (xs counts : Bytes) : Bytes → List Nat → Bytes × Bool
  | _, [] => ([], false)
  | ps, r :: rs =>
    let c := fieldAt counts r 1
    let mine := bytesAt ps 0 (2 * c)
    let (rest, bad) := sparseRows mask xs counts (ps.drop (2 * c)) rs
    if ¬ bit mask r then (rest, bad)
    else if 64 < c ∨ ¬ pairsOk none mine then ([0xFF, 0] ++ rest, true)
    else (toLE (fieldAt xs r 1) 1 ++ toLE c 1 ++ mine ++ rest, bad)

/-- The payload of the dense rows in `mask`. -/
def denseRows (mask : Nat) (xs ms : Bytes) : Bytes :=
  ((maskBits mask).map (fun r => bytesAt xs r 1 ++ bytesAt ms (64 * r) 64)).flatten

/-- The sum of bytes. -/
def byteSum (bs : Bytes) : Nat := (bs.map (·.toNat)).sum

/-- R283, R292: the rows in `mask` of the j-th tile of a SEND read from staging: `none` while a read stalls;
else the status, the CONTRIB and whether a row was malformed. -/
def stageTile (s : State) (e : Nat) (x : RSend) (j mask : Nat) : State × Option (Nat × Bytes × Bool) :=
  let b := x.entry
  let key (p : Nat) : Nat := engKey 7 e (x.id * 512 + j * 8 + p)
  let head := rlyHead 1 (selfDev s) (sSource b) (b01 (sSub b)) (b01 (sSparse b)) (sFirst b + j) (eStep b) (eTag b) mask
  match ltaRead s (key 0) (sXaddr b + 64 * j) 64 with
  | (s, none) => (s, none)
  | (s, some (st, xs)) =>
    if st ≠ 0 then (s, some (st, [], false))
    else if ¬ sSparse b then
      match ltaRead s (key 1) (sMaddr b + 4096 * j) 4096 with
      | (s, none) => (s, none)
      | (s, some (st, ms)) => (s, some (st, head ++ denseRows mask xs ms, false))
    else
      match ltaRead s (key 1) (sCaddr b) (64 * (j + 1)) with
      | (s, none) => (s, none)
      | (s, some (st, cs)) =>
        if st ≠ 0 then (s, some (st, [], false))
        else
          let mine := bytesAt cs (64 * j) 64
          match ltaRead s (key 2) (sMaddr b + 2 * byteSum (bytesAt cs 0 (64 * j))) (2 * byteSum mine) with
          | (s, none) => (s, none)
          | (s, some (st, ps)) =>
            let (rows, bad) := sparseRows mask xs mine ps (countUp 0 64)
            (s, some (st, head ++ rows, bad))

/-! ### SENDs in progress -/

def setSend (s : State) (e : Nat) (x : RSend) : State :=
  let v := rlyOf s e
  setRly s e { v with sends := v.sends.map (fun y => if y.id = x.id then x else y) }

/-- A part ends; one that has ended keeps its status. -/
def endPart (l : List (Option Nat)) (j st : Nat) : List (Option Nat) :=
  match l[j]? with
  | some none => l.set j (some st)
  | _ => l

/-- A CONTRIB given to the fabric. -/
def sendContrib (s : State) (e : Nat) (dev : Nat) (r : Bytes) : State :=
  bumpStat (send s (relayMsg s dev 0x01 r)) (Csr.RLY_TX_BYTES e) r.length (some rlyIdx)

/-- R293, R306: records whose rows are still to be read are read and sent. -/
def runRecs (e : Nat) : State → RSend → List CRec → List CRec → State
  | s, x, done, [] => setSend s e { x with recs := done }
  | s, x, done, r :: rs =>
    if r.bytes.isSome then runRecs e s x (done ++ [r]) rs
    else
      match stageTile s e x r.tile r.mask with
      | (s, none) => runRecs e s x (done ++ [r]) rs
      | (s, some (st, b, bad)) =>
        if st ≠ 0 then runRecs e s { x with parts := endPart x.parts r.tile st } done rs
        else
          let x := if bad then { x with bad := (x.bad ++ [r.tile]).eraseDups } else x
          runRecs e (sendContrib s e (sDev x.entry) b) x (done ++ [{ r with bytes := some b, sends := 1 }]) rs

/-- R306: a SEND completes; its bucket status is reported when it is known. -/
def completeSend (s : State) (e : Nat) (x : RSend) : State :=
  let v := rlyOf s e
  let s := setRly s e { v with sends := v.sends.filter (fun y => y.id ≠ x.id) }
  rlyFinish s e x.entry (partReport (x.parts.map (fun p => p.getD 0x0E))) x.notTaken x.bstat false

/-- R306: a SEND whose parts have ended and whose bucket is settled completes. -/
def checkSend (e : Nat) (s : State) (x : RSend) : State :=
  if x.parts.all (·.isSome) ∧ (x.bstat.isSome ∨ x.parts.all (· ≠ some 0)) then completeSend s e x else s

/-! ### What an engine does on its own after any of its commands -/

/-- R404: the next hop of an XPART record. -/
def xpartTo (r : Bytes) : Nat :=
  let w := fieldAt r 0 4
  if bits w 15 12 ≤ bits w 11 8 then bits (fieldAt r (16 + 8 * bits w 15 12) 8) 37 26 else bits w 27 16

/-- R403: the record of a sector. -/
def xpartRec (orig token sector : Nat) (con : List (Nat × Nat)) (data : Bytes) : Bytes :=
  toLE (6 <<< 28 + orig <<< 16 + (con.length - 1) <<< 8) 4 ++ toLE token 4 ++ toLE sector 1 ++ toLE 0 7
    ++ bytesAt ((con.map (fun c => toLE (c.1 <<< 26 + c.2) 8)).flatten) 0 120 ++ toLE 0 24 ++ bytesAt data 0 4096

/-- R404, R405: a sector sent from contributor 0 under a fresh TOKEN, whose bit 0 names the engine. -/
def sendSector (s : State) (e : Nat) (x : RbEnt) (k sends : Nat) : State :=
  let v := rlyOf s e
  let tok := (2 * v.next + e) % 2 ^ 32
  let s := setRly s e { v with next := v.next + 1, xouts := v.xouts ++ [⟨x.id, k, tok, sends⟩] }
  let r := xpartRec (selfDev s) tok k x.con []
  send s (relayMsg s (xpartTo r) 0x01 r)

/-- R406: sectors start while fewer than 1,024 are in flight. -/
def startSectors (e : Nat) (x : RbEnt) : State → List Nat → State
  | s, [] => s
  | s, k :: ks =>
    let v := rlyOf s e
    if (x.parts[k]? = some none) ∧ ¬ v.xouts.any (fun o => o.ent = x.id ∧ o.sector = k) ∧ v.xouts.length < 1024 then
      startSectors e x (sendSector s e x k 1) ks
    else startSectors e x s ks

/-- R405, R406: a rebuild entry whose sectors have all ended completes. -/
def checkRebuild (e : Nat) (s : State) (x : RbEnt) : State :=
  match (rlyOf s e).rbs.find? (fun y => y.id = x.id) with
  | none => s
  | some x =>
    if x.parts.all (·.isSome) then
      let v := rlyOf s e
      let s := setRly s e { v with rbs := v.rbs.filter (fun y => y.id ≠ x.id) }
      rlyFinish s e x.entry (partReport (x.parts.map (fun p => p.getD 0))) 0 none true
    else startSectors e x s (countUp 0 64)

/-- Staged rows that could not be read before are tried again; SENDs, buckets and rebuild entries whose parts
have ended complete; completion words that could not be written are tried again. -/
def rlyWork (s : State) (e : Nat) : State :=
  if ¬ rlyUp s then s else
  let s := (rlyOf s e).sends.foldl (fun s x => runRecs e s x [] x.recs) s
  let s := (rlyOf s e).sends.foldl (checkSend e) s
  let s := (rlyOf s e).open_.foldl (closeBucket e) s
  let s := (rlyOf s e).rbs.foldl (checkRebuild e) s
  runFins e s (rlyOf s e).fins

/-! ### Answers (R293, R306, R307) -/

/-- The SEND and its tile that a record of the exchange names. -/
def sendOf (v : Rly) (a : Bytes) : Option (RSend × Nat) :=
  let w := fieldAt a 0 4
  match v.sends.find? (fun x => decide (eTag x.entry = fieldAt a 8 2) && decide (eStep x.entry = fieldAt a 4 4)
      && decide (sSource x.entry = bits w 15 8) && (sSub x.entry == bit w 7)
      && decide (sFirst x.entry ≤ bits w 5 0) && decide (bits w 5 0 < sFirst x.entry + sCount x.entry)) with
  | some x => some (x, bits w 5 0 - sFirst x.entry)
  | none => none

/-- The status an acknowledged tile ends with (R284). -/
def ackStatus (x : RSend) (j : Nat) : Nat := if x.bad.contains j then 0x09 else 0

/-- The lowest acknowledged tile (R307). -/
def lowestAck (x : RSend) : Option Nat := (countUp 0 (sCount x.entry)).find? (fun j => x.acked.contains j)

/-- R307: an answer to a probe. -/
def probeAnswer (s : State) (e : Nat) (x : RSend) (a : Bytes) : State :=
  let code := fieldAt a 24 1
  if code = 5 then setSend s e { x with bstat := some (fieldAt a 25 1), probes := none }
  else if code = 1 ∨ code = 3 then completeSend s e { x with bstat := none }
  else setSend s e { x with probes := some 0 }

/-- R293: an ANSWER reaches the sender. -/
def answerEff (s : State) (e : Nat) (a : Bytes) : State :=
  match sendOf (rlyOf s e) a with
  | none => s
  | some (x, j) =>
    match x.recs.find? (fun r => r.tile = j ∧ r.bytes.isSome ∧ ¬ r.waits) with
    | none => if x.probes.isSome ∧ lowestAck x = some j then probeAnswer s e x a else s
    | some r =>
      let code := fieldAt a 24 1
      let gone := { x with recs := x.recs.erase r }
      let ended (st : Nat) : RSend := { gone with parts := endPart x.parts j st }
      if code = 0 then
        setSend s e { ended (ackStatus x j) with notTaken := x.notTaken + (maskBits (fieldAt a 16 8)).length,
                                                 acked := (x.acked ++ [j]).eraseDups }
      else if code = 1 ∨ code = 2 then
        setSend s e { x with recs := x.recs.map (fun y => if y = r then { y with waits := true, sends := 0 } else y) }
      else if code = 3 then setSend s e (ended 0x0D)
      else if code = 4 then setSend s e (ended 0x0A)
      else if code = 5 then setSend s e { ended (ackStatus x j) with bstat := some (fieldAt a 25 1) }
      else s

/-- R293: a RESEND names rows to be read and sent again. -/
def resendEff (s : State) (e : Nat) (a : Bytes) : State :=
  match sendOf (rlyOf s e) a with
  | none => s
  | some (x, j) => setSend s e { x with recs := x.recs ++ [{ tile := j, mask := fieldAt a 16 8 }] }

/-- R305, R306: a DONE reaches a sender; it is answered with DONE_ACK. -/
def doneEff (s : State) (e : Nat) (a : Bytes) : State :=
  let dev := bits (fieldAt a 0 4) 27 16
  let v := rlyOf s e
  let s := setRly s e { v with sends := v.sends.map (fun x =>
    if eTag x.entry = fieldAt a 8 2 ∧ eStep x.entry = fieldAt a 4 4 ∧ sDev x.entry = dev then
      { x with bstat := some (fieldAt a 25 1) } else x) }
  send s (relayMsg s dev 0x01 (rlyHead 5 (selfDev s) 0 0 0 0 (fieldAt a 4 4) (fieldAt a 8 2) 0))

/-- R305: a DONE_ACK ends the repeats to its sender. -/
def doneAckEff (s : State) (e : Nat) (a : Bytes) : State :=
  let v := rlyOf s e
  setRly s e { v with dones := v.dones.filter (fun d => ¬ (d.tag = fieldAt a 8 2 ∧ d.step = fieldAt a 4 4
    ∧ d.dev = bits (fieldAt a 0 4) 27 16)) }

/-- R309: HOP_FAIL of a SEND. -/
def hopFail (s : State) (e : Nat) (x : RSend) : State :=
  raise s (rlySrc e) 0x06 (tagStep x.entry) (sDev x.entry + 1 <<< 16)

/-! ### Rebuild (R402 to R405) -/

def rbMember (b : Bytes) : Nat := bits (fieldAt b 0 4) 25 22
def rbIndex (b : Bytes) : Nat := bits (fieldAt b 4 4) 25 0
def rbParity (b : Bytes) : Bool := bit (fieldAt b 0 4) 26
def rbDst (b : Bytes) : Nat := fieldAt b 8 8

/-- R402: the check of a rebuild entry. NM1 of the active map is reserved below 3. -/
def rbCheck (s : State) (b : Bytes) : Nat :=
  if eKind b ≠ 1 ∨ fieldAt b 0 4 % 2 ^ 22 ≠ 0 ∨ 2 ^ 26 ≤ fieldAt b 4 4 ∨ 2 ^ 58 ≤ rbDst b ∨ fieldAt b 16 40 ≠ 0
      ∨ 2 ^ 44 ≤ eComp b ∨ pgN s ≤ rbMember b ∨ pgN s < 4 then 0x09
  else if (if rbParity b then ceilDiv (pgD s) (pgN s - 1) ≤ rbIndex b else pgD s ≤ rbIndex b)
      ∨ rbDst b % 2 ^ 18 ≠ 0 ∨ bits (rbDst b) 45 44 ≠ 0 ∨ eComp b % 8 ≠ 0 then 0x0A
  else 0

/-- R390, R403: the contributors of a page's stripe: device and page, in ascending member index. -/
def rbContrib (s : State) (b : Bytes) : List (Nat × Nat) :=
  let n := pgN s
  let m := rbMember b
  let j := rbIndex b
  let q := if rbParity b then j else j / (n - 1)
  let h := if rbParity b then m else (m + 1 + j % (n - 1)) % n
  (countUp 0 n).filterMap (fun i =>
    if i = m then none
    else if i = h then some (pgDev s i, pgPar s + q)
    else
      let d := q * (n - 1) + (h + 2 * n - i - 1) % n
      if d < pgD s then some (pgDev s i, pgProt s + d) else none)

/-- R404: a sector read that leaves HEAT and promotions alone: `none` while it must wait. -/
def quietSector (s : State) (p k : Nat) : State × Option Hit :=
  let e := pageEnt s p
  if ¬ plcRuns s then (s, none)
  else if ¬ plcReady s then (s, some { s := s, st := 0x0A })
  else
    let s' := touchCache (bumpStat s Csr.PLC_LOOKUPS 1 (some plcIdx)) p
    let deep : State × Option Hit :=
      if ¬ stkOpen s (12 + dgaStack e.dga) then (s, none)
      else
        let h := deepSector (bumpStat s' Csr.PLC_BYPASS 1 (some plcIdx)) p e k
        (h.s, some { h with s := reportBad h.s p h.st h.loc })
    let fast : State × Option Hit :=
      if ¬ frameOpen s (entFrame e) (k * 4096) 4096 then (s, none)
      else
        let h := frameRead s' (entFrame e) (k * 4096) 4096
        (h.s, some { h with s := reportBad h.s p h.st h.loc })
    match e.state with
    | .invalid | .retired => (s', some { s := s', st := 0x0A })
    | .poison => (s', some { s := s', st := 0x03 })
    | .deepResident => deep
    | .migrating =>
      match pageSlot s p with
      | some (_, m) => if m.dir = .promote ∧ ¬ bit m.arrived k then deep else fast
      | none => fast
    | _ => fast

/-- R404: a contributor's engine handles an XPART record and passes it on. -/
def xpartEff (s : State) (e : Nat) (r : Bytes) : State :=
  let w := fieldAt r 0 4
  let hop := bits w 15 12
  let c := fieldAt r (16 + 8 * hop) 8
  if ¬ rlyOn s e ∨ bits c 37 26 ≠ selfDev s then s
  else
    let pass (s : State) (st : Nat) (data : Bytes) : State :=
      let r' := toLE (setBits (setBits w 7 0 st) 15 12 (hop + 1)) 4 ++ bytesAt r 4 156 ++ data
      send s (relayMsg s (xpartTo r') 0x01 r')
    if w % 256 ≠ 0 then pass s (w % 256) (bytesAt r 160 4096)
    else
      match quietSector s (bits c 25 0) (fieldAt r 8 1 % 64) with
      | (t, none) => t
      | (_, some h) =>
        if h.st ≠ 0 then pass h.s h.st (bytesAt r 160 4096)
        else pass h.s 0 (xorBytes (bytesAt r 160 4096) h.data)

/-- The XPART record has passed its last contributor. -/
def xpartBack (r : Bytes) : Bool := decide (bits (fieldAt r 0 4) 11 8 < bits (fieldAt r 0 4) 15 12)

/-- The TOKEN's sector ends. -/
def endSector (s : State) (e : Nat) (o : XOut) (st : Nat) : State :=
  let v := rlyOf s e
  let rbs := v.rbs.map (fun x => if x.id = o.ent then { x with parts := endPart x.parts o.sector st } else x)
  let s := setRly s e { v with xouts := v.xouts.erase o, rbs := rbs }
  if st = 0 then bumpStat s (Csr.RLY_RB_SECTORS e) 1 (some rlyIdx) else s

/-- R405: a returning record. A DST on another module answers through `ext`. -/
def xpartReturnEff (s : State) (e : Nat) (r : Bytes) (ext : Ext) : State :=
  let v := rlyOf s e
  match v.xouts.find? (fun o => o.token = fieldAt r 4 4 ∧ o.sector = fieldAt r 8 1) with
  | none => s
  | some o =>
    match v.rbs.find? (fun x => x.id = o.ent) with
    | none => s
    | some x =>
      let st := fieldAt r 0 4 % 256
      if st ≠ 0 then endSector s e o st
      else if bits (rbDst x.entry) 57 46 ≠ selfDev s then endSector s e o ext.status.toNat
      else
        match ltaWrite s (engKey 10 e o.token) (rbDst x.entry % 2 ^ 44 + 4096 * o.sector) (bytesAt r 160 4096) with
        | (s, none) => s
        | (s, some st) => endSector s e o st

/-! ### The commands -/

/-- RLY_OPEN (R287). -/
def execRlyOpen (e : Fin 2) (q : Fin 16) (s : State) : Out :=
  match sqHead s e q with
  | (t, none) => .next (rlyWork t e)
  | (t, some b) =>
    if eKind b = 1 ∨ eKind b = 0 ∨ 4 < eKind b then .next (rlyWork (openTake t e q b) e) else .next s

/-- RLY_SEND (R288). -/
def execRlySend (e : Fin 2) (q : Fin 16) (s : State) : Out :=
  match sqHead s e q with
  | (t, none) => .next (rlyWork t e)
  | (t, some b) =>
    if eKind b ≠ 2 then .next s
    else
      let t := ringTaken t (Csr.RLY_SQ_CI e q)
      let st := sendCheck e b
      if st ≠ 0 then .next (rlyWork (rlyFinish t e b (wholeReport st) 0 none false) e)
      else
        let v := rlyOf t e
        let x : RSend := { id := v.next, entry := b, parts := List.replicate (sCount b) none,
                           recs := (countUp 0 (sCount b)).map (fun j => { tile := j, mask := 2 ^ 64 - 1 }) }
        .next (rlyWork (setRly t e { v with next := v.next + 1, sends := v.sends ++ [x] }) e)

/-- R289: a CANCEL acts on the open instance and on the SENDs of its tag and step. -/
def cancelEff (s : State) (e : Nat) (b : Bytes) : State :=
  let s := match instanceOf s e b with | some k => cancelRows s e k | none => s
  ((rlyOf s e).sends.filter (fun x => eTag x.entry = eTag b ∧ eStep x.entry = eStep b)).foldl
    (fun s x => completeSend s e x) s

/-- RLY_CANCEL (R289). -/
def execRlyCancel (e : Fin 2) (q : Fin 16) (s : State) : Out :=
  match sqHead s e q with
  | (t, none) => .next (rlyWork t e)
  | (t, some b) =>
    if eKind b ≠ 3 then .next s
    else
      let t := ringTaken t (Csr.RLY_SQ_CI e q)
      let st := if commonBad e b ∨ fieldAt b 10 46 ≠ 0 then 0x09 else if eComp b % 8 ≠ 0 then 0x0A else 0
      let t := if st = 0 then cancelEff t e b else t
      .next (rlyWork (rlyFinish t e b (wholeReport st) 0 none false) e)

/-- RLY_RELEASE (R289). -/
def execRlyRelease (e : Fin 2) (q : Fin 16) (s : State) : Out :=
  match sqHead s e q with
  | (t, none) => .next (rlyWork t e)
  | (t, some b) =>
    if eKind b ≠ 4 then .next s
    else
      let t := ringTaken t (Csr.RLY_SQ_CI e q)
      let st := if commonBad e b ∨ 2 ≤ fieldAt b 10 46 then 0x09 else if eComp b % 8 ≠ 0 then 0x0A else 0
      let t := match (if st = 0 then instanceOf t e b else none) with
        | some k => releaseRows t e k (bit (fieldAt b 10 1) 0)
        | none => t
      .next (rlyWork (rlyFinish t e b (wholeReport st) 0 none false) e)

/-- The engine number a record's TAG gives (R277). -/
def recEngine (r : Bytes) : Nat := fieldAt r 8 2 % 2

/-- CONTRIB_RECEIVE (R294); held while the engine is quiesced. -/
def execContribReceive (e : Fin 2) (r : Bytes) (s : State) : Out :=
  if works s rlyIdx ∧ recEngine r = e.val then .next (rlyWork (contribEff s e r) e) else .next s

/-- ANSWER_RECEIVE (R293). -/
def execAnswerReceive (e : Fin 2) (r : Bytes) (s : State) : Out :=
  if rlyUp s ∧ rlyOn s e ∧ recEngine r = e.val then .next (rlyWork (answerEff s e r) e) else .next s

/-- RESEND_RECEIVE (R293). -/
def execResendReceive (e : Fin 2) (r : Bytes) (s : State) : Out :=
  if rlyUp s ∧ rlyOn s e ∧ recEngine r = e.val then .next (rlyWork (resendEff s e r) e) else .next s

/-- DONE_RECEIVE (R306). -/
def execDoneReceive (e : Fin 2) (r : Bytes) (s : State) : Out :=
  if rlyUp s ∧ rlyOn s e ∧ recEngine r = e.val then .next (rlyWork (doneEff s e r) e) else .next s

/-- DONE_ACK_RECEIVE (R305). -/
def execDoneAckReceive (e : Fin 2) (r : Bytes) (s : State) : Out :=
  if rlyUp s ∧ rlyOn s e ∧ recEngine r = e.val then .next (rlyWork (doneAckEff s e r) e) else .next s

/-- The n-th kept record of the engine that meets a condition, with its SEND. -/
def nthRec (v : Rly) (p : CRec → Bool) (n : Nat) : Option (RSend × CRec) :=
  ((v.sends.map (fun x => (x.recs.filter p).map (fun r => (x, r)))).flatten)[n]?

/-- RLY_HOP_TIMEOUT (R293): the n-th record that awaits its answer has none. -/
def execRlyHopTimeout (e : Fin 2) (n : Nat) (s : State) : Out :=
  match nthRec (rlyOf s e) (fun r => r.bytes.isSome && !r.waits) n with
  | none => .next s
  | some (x, r) =>
    if ¬ rlyUp s then .next s
    else if fld s (Csr.RLY_HOP e) 15 8 ≤ r.sends then
      let x' := { x with recs := x.recs.erase r, parts := endPart x.parts r.tile 0x05 }
      .next (rlyWork (hopFail (setSend s e x') e x) e)
    else
      let s := setSend s e { x with recs := x.recs.map (fun y => if y = r then { y with sends := y.sends + 1 } else y) }
      .next (rlyWork (sendContrib s e (sDev x.entry) (r.bytes.getD [])) e)

/-- Rows that wait for the retry interval: tag and row. -/
def laterRows (v : Rly) : List (Nat × Nat) :=
  (v.open_.map (fun k => (k.rows.filter (fun x => x.2.st = .later)).map (fun x => (eTag k.entry, x.1)))).flatten

/-- RLY_RETRY_TIMER (R293, R303): the interval of the n-th waiting record, or of a waiting row after them,
ends. -/
def execRlyRetryTimer (e : Fin 2) (n : Nat) (s : State) : Out :=
  let v := rlyOf s e
  let waits := (v.sends.map (fun x => (x.recs.filter (·.waits)).length)).sum
  if ¬ rlyUp s then .next s
  else if n < waits then
    match nthRec v (·.waits) n with
    | none => .next s
    | some (x, r) =>
      let s := setSend s e { x with recs := x.recs.map (fun y => if y = r then { y with waits := false, sends := 1 } else y) }
      .next (rlyWork (sendContrib s e (sDev x.entry) (r.bytes.getD [])) e)
  else
    match (laterRows v)[n - waits]? with
    | none => .next s
    | some (tag, b) => .next (rlyWork (resendRow s e tag b) e)

/-- BUCKET_DEADLINE (R299, R301). -/
def execBucketDeadline (e : Fin 2) (tag : Nat) (s : State) : Out :=
  match bktOf s e tag with
  | none => .next s
  | some k =>
    if works s rlyIdx ∧ oDeadline k.entry ≠ 0 ∧ ¬ k.passed then .next (rlyWork (deadlineEff s e tag) e) else .next s

/-- BUCKET_HARD_LIMIT (R301). -/
def execBucketHardLimit (e : Fin 2) (tag : Nat) (s : State) : Out :=
  match bktOf s e tag with
  | none => .next s
  | some k => if works s rlyIdx ∧ oHard k.entry ≠ 0 then .next (rlyWork (hardEff s e tag) e) else .next s

/-- ROW_DELIVER (R303). While the placement table cannot be looked up the rows wait (R182). -/
def execRowDeliver (e : Fin 2) (s : State) : Out :=
  if rlyUp s ∧ plcRuns s ∧ plcReady s then .next (rlyWork (deliverNext s e (rlyOf s e).dlv) e) else .next s

/-- NBU_ANSWER_RECEIVE (R303). -/
def execNbuAnswerReceive (e : Fin 2) (answer : Bytes) (s : State) : Out :=
  if rlyUp s ∧ rBucket answer % 2 = e.val then
    .next (rlyWork (nbuAnswerEff { s with rowAnswers := s.rowAnswers.erase answer } e answer) e)
  else .next s

/-- DELIVERY_TIMEOUT (R303). -/
def execDeliveryTimeout (e : Fin 2) (tag row : Nat) (s : State) : Out :=
  match bktOf s e tag with
  | none => .next s
  | some k =>
    if rlyUp s ∧ (rowOf k row).st = .sent then .next (rlyWork (resendRow s e tag row) e) else .next s

/-- DONE_REPEAT (R305): the n-th DONE without DONE_ACK. -/
def execDoneRepeat (e : Fin 2) (n : Nat) (s : State) : Out :=
  let v := rlyOf s e
  match v.dones[n]? with
  | none => .next s
  | some d =>
    if ¬ rlyUp s then .next s
    else
      let last := decide (fld s (Csr.RLY_HOP e) 15 8 ≤ d.sends + 1)
      let rest := if last then v.dones.erase d else v.dones.set n { d with sends := d.sends + 1 }
      .next (rlyWork (sendDone (setRly s e { v with dones := rest }) d) e)

/-- SENDs whose parts have ended, one of them OK, and that wait for a DONE (R307). -/
def probing (v : Rly) : List RSend :=
  v.sends.filter (fun x => x.parts.all (·.isSome) && x.parts.any (· = some 0) && x.bstat.isNone)

/-- SEND_PROBE (R307): the n-th SEND that awaits DONE. -/
def execSendProbe (e : Fin 2) (n : Nat) (s : State) : Out :=
  match (probing (rlyOf s e))[n]? with
  | none => .next s
  | some x =>
    let c := x.probes.getD 0
    if ¬ rlyUp s then .next s
    else if fld s (Csr.RLY_HOP e) 15 8 ≤ c then .next (rlyWork (hopFail (completeSend s e x) e x) e)
    else
      match lowestAck x with
      | none => .next s
      | some j =>
        match stageTile s e x j (2 ^ 64 - 1) with
        | (s, none) => .next s
        | (s, some (st, b, _)) =>
          let s := setSend s e { x with probes := some (c + 1) }
          .next (rlyWork (if st = 0 then sendContrib s e (sDev x.entry) b else s) e)

/-- REBUILD_ENTRY (R402 to R404). -/
def execRebuildEntry (e : Fin 2) (s : State) : Out :=
  let sz := Csr.RLY_RB_SIZE e
  let ci := fld s (Csr.RLY_RB_CI e) 16 0
  if ¬ rlyOn s e ∨ ¬ works s rlyIdx ∨ ¬ flag s sz 31 ∨ ringCount (fld s (Csr.RLY_RB_PI e) 16 0) ci = 0 then
    .next (if rlyUp s then rlyWork s e else s)
  else
    match ringFetch s (engKey 5 (32 + e) 0) (fld s (Csr.RLY_RB_BASE e) 43 0) (fld s sz 4 0) ci 64 with
    | (s, none) => .next s
    | (s, some none) => .next (rlyWork (ringTaken s (Csr.RLY_RB_CI e)) e)
    | (s, some (some b)) =>
      let s := ringTaken s (Csr.RLY_RB_CI e)
      let st := rbCheck s b
      if st ≠ 0 then .next (rlyWork (rlyFinish s e b (wholeReport st) 0 none true) e)
      else
        let v := rlyOf s e
        let x : RbEnt := ⟨v.next, b, rbContrib s b, List.replicate 64 none⟩
        .next (rlyWork (setRly s e { v with next := v.next + 1, rbs := v.rbs ++ [x] }) e)

/-- XPART_RECEIVE (R404). A record that must wait for a stack or a stalled engine is taken later. -/
def execXpartReceive (e : Fin 2) (r : Bytes) (s : State) : Out :=
  if rlyUp s ∧ ¬ xpartBack r then .next (rlyWork (xpartEff s e r) e) else .next s

/-- XPART_RETURN (R405). -/
def execXpartReturn (e : Fin 2) (r : Bytes) (ext : Ext) (s : State) : Out :=
  if rlyUp s ∧ xpartBack r ∧ fieldAt r 4 4 % 2 = e.val then .next (rlyWork (xpartReturnEff s e r ext) e) else .next s

/-- XPART_TIMEOUT (R405). -/
def execXpartTimeout (e : Fin 2) (token : Nat) (s : State) : Out :=
  let v := rlyOf s e
  match v.xouts.find? (fun o => o.token = token) with
  | none => .next s
  | some o =>
    match v.rbs.find? (fun x => x.id = o.ent) with
    | none => .next s
    | some x =>
      if ¬ rlyUp s then .next s
      else if fld s (Csr.RLY_HOP e) 15 8 ≤ o.sends then .next (rlyWork (endSector s e o 0x05) e)
      else .next (rlyWork (sendSector (setRly s e { v with xouts := v.xouts.erase o }) e x o.sector (o.sends + 1)) e)

/-- R308, R416: a reset that reaches the engines ends everything they hold. -/
def rlyReset (s : State) : State := { s with rlys := [], rowAnswers := [] }

/-- Effect of RLY_SQ_PI (R285). -/
def rlySqPi (s : State) (ini : Initiator) (e q v : Nat) : State :=
  ringPush s ini (Csr.RLY_SQ_PI e q) (Csr.RLY_SQ_CI e q) (fld s (Csr.RLY_SQ_SIZE e q) 4 0) v

/-- Effect of RLY_RB_PI (R402). -/
def rlyRbPi (s : State) (ini : Initiator) (e v : Nat) : State :=
  ringPush s ini (Csr.RLY_RB_PI e) (Csr.RLY_RB_CI e) (fld s (Csr.RLY_RB_SIZE e) 4 0) v

end Sys2Proof.Machine
end

