-- ==== Sys2Proof/Machine/Fabric.lean ====
section
/-! DEFINITION. The fabric common block (R358 to R371, R376 to R380): routing and drops, tags and responses, relay
messages, source routes, the mailbox and the push queue, the bank switch, and the journal operations (R415). -/

namespace Sys2Proof.Machine

/-- The FABC is clocked and out of reset. -/
def fabcUp (s : State) : Bool := awake s && !inResetBit s 38

/-- R367: the active bank's entry for a destination. -/
def routeEntry (s : State) (d : Nat) : Nat := rd s (Csr.FABC_ROUTE (pgBank s) (d % 4096))

/-- R367, R422: the message's destination is this module. -/
def forSelf (s : State) (m : FabMsg) : Bool := flag s Csr.FABC_SELF 31 && decide (m.dst = fld s Csr.FABC_SELF 11 0)

/-- R359: the virtual channel of a type. -/
def vcOf (mtype : Nat) : Nat := if mtype ≤ 2 then 0 else if mtype ≤ 4 then 1 else if mtype = 5 then 2 else 3

/-- R369: the link is a dateline. -/
def dateline (s : State) (l : Nat) : Bool := flag s (Csr.FAB_PORT_CFG (l / 2)) (2 + l % 2)

/-- R348: the link is UP. -/
def linkUp (s : State) (l : Nat) : Bool := decide ((linkOf s l).st = .up)

/-- R369: the class of a message that leaves on a link. -/
def outClass (s : State) (c l : Nat) : Nat := if c = 1 ∨ dateline s l then 1 else 0

/-- The candidate links of an entry. -/
def candidates (e : Nat) : List Nat := (countUp 0 24).filter (fun l => bit e l)

/-- R368: the eligible links of an entry for class c. -/
def eligible (s : State) (e c : Nat) : List Nat :=
  (candidates e).filter (fun l => linkUp s l && !(decide (c = 1) && dateline s l))

/-- R368: of the eligible links, the one with the most credit, ties to the lower number. -/
def mostCredit (s : State) (vc c : Nat) : List Nat → Option Nat
  | [] => none
  | l :: ls =>
    match mostCredit s vc c ls with
    | none => some l
    | some k =>
      if linkCredit (linkOf s l) (2 * vc + outClass s c l) < linkCredit (linkOf s k) (2 * vc + outClass s c k) then some k
      else some l

/-- R368: the link a message leaves on. -/
def chooseLink (s : State) (m : FabMsg) (c : Nat) (ls : List Nat) : Option Nat :=
  if m.mtype = 5 ∧ m.sub = 2 then ls[(bits (fieldAt m.payload 12 4) 5 0 + m.dst) % ls.length]?
  else mostCredit s (vcOf m.mtype) c ls

/-- R359, R370: a message that is dropped with reason FORMAT. A request with a non-zero SUB is answered at its
target (R361). -/
def formatBad (m : FabMsg) : Bool :=
  decide (m.mtype = 0) || decide (6 < m.mtype) || (decide (m.mtype = 3 ∨ m.mtype = 4) && decide (m.sub ≠ 0))
    || (decide (m.mtype = 5) && (decide (m.sub = 0) || decide (3 < m.sub)))
    || (decide (m.mtype = 6) && (decide (m.sub = 0) || decide (6 < m.sub)))
    || (m.sr && decide (m.mtype ≠ 6))
    || (decide (m.mtype = 6) && decide (m.sub ≤ 2) && decide (m.hops ≠ 0))

/-- What becomes of a routed message. -/
inductive Fate where
  | here
  | drop (reason : Nat)
  | via (l c : Nat)
  deriving DecidableEq, Repr

/-- R367 to R370: the fate of a message that is not source-routed, in class c. `arrived`: it came over a link. -/
def routeFate (s : State) (m : FabMsg) (c : Nat) (arrived : Bool) : Fate :=
  if formatBad m then .drop 0x05
  else if forSelf s m then
    if arrived && !bit (routeEntry s m.src) 30 then .drop 0x03 else .here
  else if fld s Csr.FABC_CFG 3 0 < m.hops + 1 then .drop 0x01
  else
    let e := routeEntry s m.dst
    if !bit e 31 then .drop 0x02
    else if decide (c = 1) && !(candidates e).isEmpty && (candidates e).all (dateline s) then .drop 0x04
    else
      match chooseLink s m c (eligible s e c) with
      | none => .drop 0x02
      | some l => .via l (outClass s c l)

/-- R366: a reply, which is discarded when it finds no room to leave. -/
def isReply (m : FabMsg) : Bool :=
  (decide (m.mtype = 5) && (decide (m.sub = 3) ||
    (decide (m.sub = 1) &&
      (let w := fieldAt m.payload 0 4
       bits w 31 28 = 2 || bits w 31 28 = 5 || (bits w 31 28 = 6 && decide (0 < bits w 15 12))))))
    || (decide (m.mtype = 6) && decide (m.sub = 5))

/-- Slot i of a route (R358). -/
def slotAt (r : List Nat) (i : Nat) : Nat := r.getD i 0

def setSlotAt (r : List Nat) (i v : Nat) : List Nat :=
  (countUp 0 9).map (fun k => if k = i then v else slotAt r k)

/-- R376: the fate of a source-routed message that takes the slot with index i. -/
def srFate (s : State) (m : FabMsg) (i c : Nat) : Fate :=
  if formatBad m ∨ 9 ≤ i then .drop 0x05
  else
    let v := slotAt m.route i % 32
    if v = 31 then .here
    else if 24 ≤ v ∨ ¬ linkUp s v then .drop 0x05
    else if c = 1 ∧ dateline s v then .drop 0x04
    else .via v (outClass s c v)

/-- A message of 32-byte header and payload read from bytes (R358). -/
def unpackSlots (v : Nat) : List Nat := (countUp 0 9).map (fun i => bits v (5 * i + 4) (5 * i))

def parseMsg (b : Bytes) : FabMsg :=
  let w := fieldAt b 0 4
  let x := fieldAt b 4 4
  let n := fieldAt b 16 2 % 2 ^ 14
  { mtype := bits w 31 28, dst := bits w 27 16, src := bits w 15 4, hops := bits w 3 0,
    tag := bits x 31 15, gen := bits x 14 12, sr := bit x 11, rsvd := bits x 10 8, sub := bits x 7 0,
    addr := fieldAt b 8 8, len := n, status := BitVec.ofNat 8 (fieldAt b 18 1),
    route := unpackSlots (fieldAt b 20 6), rroute := unpackSlots (fieldAt b 26 6),
    payload := bytesAt b 32 (msgPayload (bits w 31 28) n) }

/-- The class a message arrived in. -/
def arrivedClass (s : State) (l : Nat) (m : FabMsg) : Nat :=
  match (linkOf s l).arrived.find? (fun x => x.2 = msgBytes m) with
  | some x => x.1 % 2
  | none => 0

/-- Room on a link for a message to start (R368). -/
def mayStart (s : State) (m : FabMsg) (l c : Nat) : Bool := decide (0 < linkCredit (linkOf s l) (2 * vcOf m.mtype + c))

/-- A message leaves on link l in class c. -/
def leave (s : State) (m : FabMsg) (l c : Nat) : State :=
  linkQueue s l (vcOf m.mtype) c (msgBytes { m with hops := m.hops + 1 })

/-- R388: the link a request of this module left on. -/
def noteLink (s : State) (m : FabMsg) (l : Nat) : State :=
  match smGet none s.fabc.txns m.tag with
  | some t =>
    if t.req = m then { s with fabc := { s.fabc with txns := smSet none s.fabc.txns m.tag (some { t with link := some l }) } }
    else s
  | none => s

/-- A message of this module starts: the fate it meets, for one given as `m`. -/
def startOwn (s t : State) (m : FabMsg) (f : Fate) : State :=
  let t := bumpStat t Csr.FABC_TX_MSGS 1 (some 38)
  match f with
  | .here => bumpStat t Csr.FABC_RX_MSGS 1 (some 38)
  | .drop r => dropMsg t r m.dst m.src m.mtype
  | .via l c =>
    if mayStart s m l c then noteLink (leave t m l c) m l
    else if isReply m then bumpOcc t Csr.FABC_REPLY_DROP 1
    else s

/-- R377: the head of the push queue read: `none` while the read stalls or the queue is empty, and no message for a
failed read. -/
def pushHead (s : State) : State × Option (Option FabMsg) :=
  match s.fabc.push with
  | [] => (s, none)
  | a :: _ =>
    match ltaRead s (engKey 15 0 0) a 512 with
    | (s, none) => (s, none)
    | (s, some (st, b)) => (s, some (if st = 0 then some (parseMsg b) else none))

def popPush (s : State) : State := { s with fabc := { s.fabc with push := s.fabc.push.tail } }

/-- The fate of a message of this module. -/
def ownFate (s : State) (m : FabMsg) : Fate := if m.sr then srFate s m 0 0 else routeFate s m 0 false

/-- A message of this module: one its units gave to the fabric, or the head of the push queue. -/
def routeOwn (s : State) (m : FabMsg) : State :=
  if s.outbox.contains m then startOwn s { s with outbox := s.outbox.erase m } m (ownFate s m)
  else
    match pushHead s with
    | (t, none) => t
    | (t, some none) => popPush t
    | (t, some (some h)) => if msgBytes h = msgBytes m then startOwn t (popPush t) h (ownFate t h) else s

/-- A message that came over link l meets its fate. -/
def routeIn (s : State) (l : Nat) (m out : FabMsg) (f : Fate) : State :=
  let t := freeArrived s l (msgBytes m)
  match f with
  | .here => bumpStat t Csr.FABC_RX_MSGS 1 (some 38)
  | .drop r => dropMsg t r m.dst m.src m.mtype
  | .via k c => if mayStart s out k c then leave t out k c else s

/-- MESSAGE_ROUTE (R368). A link-local message stays with its port (R359), a source-routed one goes by SR_FORWARD. -/
def execMessageRoute (ingress : Option (Fin 24)) (m : FabMsg) (s : State) : Out :=
  if ¬ fabcUp s then .next s
  else
    match ingress with
    | none => .next (routeOwn s m)
    | some l =>
      if ¬ linkUp s l ∨ (m.sr ∧ ¬ formatBad m) ∨ (m.mtype = 6 ∧ m.sub ≤ 2 ∧ m.hops = 0) then .next s
      else .next (routeIn s l m m (routeFate s m (arrivedClass s l m) true))

/-- SR_FORWARD (R376): the ingress link is recorded, and the slot with index HOPS is taken. -/
def execSrForward (ingress : Fin 24) (m : FabMsg) (s : State) : Out :=
  if ¬ fabcUp s ∨ ¬ linkUp s ingress ∨ ¬ m.sr then .next s
  else
    let out := { m with rroute := setSlotAt m.rroute (m.hops - 1) ingress.val }
    let f := if m.hops = 0 then .drop 0x05 else srFate s m m.hops (arrivedClass s ingress m)
    .next (routeIn s ingress m out f)

/-! ### Responses (R362, R363) -/

/-- The request's answer: its tag is freed. -/
def endTxn (s : State) (tag st : Nat) (data : Bytes) : State :=
  answer { s with fabc := { s.fabc with txns := smSet none s.fabc.txns tag none } } tag st data

/-- R362: a response reaches its source. -/
def responseEff (s : State) (m : FabMsg) : State :=
  match smGet none s.fabc.txns m.tag with
  | some t =>
    if t.gen = m.gen then endTxn s m.tag m.status.toNat (bytesAt m.payload 0 (msgPayload m.mtype m.len))
    else bumpOcc s Csr.FABC_STALE_RSP 1
  | none => bumpOcc s Csr.FABC_STALE_RSP 1

/-- RD_RSP (R362). -/
def execRdRsp (m : FabMsg) (s : State) : Out :=
  let s := { s with answers := [] }
  if fabcUp s ∧ m.mtype = 3 then .next (responseEff s m) else .next s

/-- WR_RSP (R362). -/
def execWrRsp (m : FabMsg) (s : State) : Out :=
  let s := { s with answers := [] }
  if fabcUp s ∧ m.mtype = 4 then .next (responseEff s m) else .next s

/-- FABRIC_REQUEST_TIMEOUT (R363). -/
def execFabricRequestTimeout (tag : Nat) (s : State) : Out :=
  let s := { s with answers := [] }
  if fabcUp s ∧ (smGet none s.fabc.txns tag).isSome then .next (endTxn (bumpOcc s Csr.FABC_TMO 1) tag 0x05 [])
  else .next s

/-- FABC_TAGS.FREE. -/
def freeTags (s : State) : Nat := 131072 - s.fabc.txns.length

/-! ### Relay messages (R359) -/

/-- A Relay record reaches the engine of its number (R292, R403). -/
def recordEff (s : State) (b : Bytes) : State :=
  let t := bits (fieldAt b 0 4) 31 28
  let e := if t = 6 then fieldAt b 4 4 % 2 else recEngine b
  if ¬ rlyUp s then s
  else if t = 1 then (if works s rlyIdx then contribEff s e b else s)
  else if t ≠ 6 ∧ ¬ rlyOn s e then s
  else if t = 2 then answerEff s e b
  else if t = 3 then resendEff s e b
  else if t = 4 then doneEff s e b
  else if t = 5 then doneAckEff s e b
  else if t = 6 then (if xpartBack b then xpartReturnEff s e b {} else xpartEff s e b)
  else s

/-- RELAY_MSG_RECEIVE (R359): a RELAY message is handed to its engine or unit. A returning sector for another
module's destination is completed by XPART_RETURN. -/
def execRelayMsgReceive (m : FabMsg) (s : State) : Out :=
  let b := m.payload
  if ¬ fabcUp s ∨ m.mtype ≠ 5 then .next s
  else if m.sub = 1 then
    let t := recordEff s b
    .next (if rlyUp s then rlyWork t (if bits (fieldAt b 0 4) 31 28 = 6 then fieldAt b 4 4 % 2 else recEngine b) else t)
  else if m.sub = 2 then
    let p := bits (fieldAt b 16 8) 43 0
    let n := 4 * (p / 2 ^ 18 % 12) + p / 4096 % 4
    if nbuWorks s n then .next (deltaEff s n b) else .next s
  else if m.sub = 3 then
    let n := fieldAt b 4 1 % 64
    if n < 48 ∧ awake s ∧ ¬ inResetBit s (4 + n / 4) then .next (deltaAckEff s n b) else .next s
  else .next s

/-! ### Mailbox and push queue (R377) -/

/-- MAILBOX_RECEIVE (R377): SR_RSP and FW_MSG. -/
def execMailboxReceive (m : FabMsg) (s : State) : Out :=
  if ¬ fabcUp s ∨ m.mtype ≠ 6 ∨ (m.sub ≠ 5 ∧ m.sub ≠ 6) then .next s
  else
    let pi := fld s Csr.FABC_MBX_PI 16 0
    let ci := fld s Csr.FABC_MBX_CI 16 0
    let n := fld s Csr.FABC_MBX_SIZE 4 0
    if ¬ flag s Csr.FABC_MBX_SIZE 31 ∨ 2 ^ n ≤ ringCount pi ci then .next (bumpOcc s Csr.FABC_MBX_DROP 1)
    else
      match ltaWrite s (engKey 15 1 0) (rd s Csr.FABC_MBX_BASE % 2 ^ 44 + 512 * (pi % 2 ^ n)) (bytesAt (msgBytes m) 0 512) with
      | (t, none) => .next t
      | (t, some st) =>
        if st ≠ 0 then .next (bumpOcc t Csr.FABC_MBX_DROP 1)
        else
          let t := setFld t Csr.FABC_MBX_PI 16 0 (pi + 1)
          .next (if ringCount pi ci = 0 then raise t 81 0x01 ((pi + 1) % 2 ^ 17) 0 else t)

/-- R377: a write of FABC_MGMT_PUSH. -/
def mgmtPush (s : State) (lta : Nat) : State :=
  if 16 ≤ s.fabc.push.length then setFlag s Csr.FABC_MGMT_STAT 8 true
  else { s with fabc := { s.fabc with push := s.fabc.push ++ [lta % 2 ^ 44] } }

/-- R380: 1 written to FABC_SWITCH.GO. -/
def routeSwitch (s : State) : State :=
  let s := setFlag s Csr.FABC_SWITCH 1 (!flag s Csr.FABC_SWITCH 1)
  let s := wr s Csr.FABC_EPOCH (rd s Csr.FABC_EPOCH_NEXT % 2 ^ 32)
  let s := (countUp 0 48).foldl nbuEpoch s
  raise s 81 0x02 (rd s Csr.FABC_EPOCH) (fld s Csr.FABC_SWITCH 1 1)

/-! ### Journal operations (R410, R415) -/

/-- A record put among others by SEQ (R20). -/
def seqIns (x : Bytes) : List Bytes → List Bytes
  | [] => [x]
  | y :: ys => if serial 32 (fieldAt x 8 4) (fieldAt y 8 4) = .earlier then x :: y :: ys else y :: seqIns x ys

/-- The journal entries of a source module, in order of unit and then SEQ. -/
def jrnlEntries (s : State) (dev : Nat) : List Bytes :=
  ((countUp 0 48).map (fun n =>
    (((nbuOf s n).jrnl.filter (fun b => bits (fieldAt b 0 8) 57 46 = dev)).foldl (fun l x => seqIns x l) []))).flatten

/-- R410, R415: the entries of a source are discarded; `seqs`: its sequence entries too. -/
def jrnlDrop (s : State) (dev : Nat) (seqs : Bool) : State :=
  (countUp 0 48).foldl (fun s n =>
    let v := nbuOf s n
    setNbu s n { v with jrnl := v.jrnl.filter (fun b => bits (fieldAt b 0 8) 57 46 ≠ dev),
                        hseq := if seqs then v.hseq.filter (fun x => x.1 / 64 ≠ dev) else v.hseq }) s

/-- Bytes kept where the mask has a bit set. -/
def maskBytes (mask : Nat) (b : Bytes) : Bytes := (b.zip (countUp 0 64)).map (fun x => if bit mask x.2 then x.1 else 0)

/-- The parity line of an entry. -/
def entryLine (b : Bytes) : Nat := bits (fieldAt b 16 8) 43 0 / 64 * 64

/-- R410: masked deltas XORed into their parity lines; a line that fails stays. -/
def revertLines : State → List (Bytes × Nat) → State
  | s, [] => s
  | s, (b, mask) :: l =>
    match ltaRead s (engKey 16 2 0) (entryLine b) 64 with
    | (t, some (0, old)) =>
      let (t, _) := ltaWrite t (engKey 16 3 0) (entryLine b) (xorBytes old (maskBytes mask (bytesAt b 32 64)))
      revertLines t l
    | (t, _) => revertLines t l

/-- Some parity line must wait before it can be written. -/
def linesWait (s : State) : List Bytes → State × Bool
  | [] => (s, false)
  | b :: l =>
    match firstWait s true (pagePieces (entryLine b) 64) with
    | (s, some _) => (s, true)
    | (s, none) => linesWait s l

/-- The operation ends with the status of its list. -/
def jrnlEnd (s : State) (st : Nat) : State :=
  setFld { s with fabc := { s.fabc with jop := none } } Csr.PGRP_JRNL_STAT 31 24 st

/-- R415: the journal operation in progress goes on, unless an access must wait. -/
def jrnlWork (s : State) : State :=
  match s.fabc.jop with
  | none => s
  | some (op, dev) =>
    let a := rd s Csr.PGRP_JRNL_ADDR % 2 ^ 44
    let es := jrnlEntries s dev
    if op = 1 then
      if es.isEmpty then jrnlEnd (wr s Csr.PGRP_JRNL_COUNT 0) 0
      else
        match ltaWrite s (engKey 16 0 0) a es.flatten with
        | (s, none) => s
        | (s, some st) => jrnlEnd (wr s Csr.PGRP_JRNL_COUNT es.length) st
    else if op = 2 then
      let n := rd s Csr.PGRP_JRNL_COUNT % 2 ^ 32
      match (if n = 0 then (s, some (0, [])) else ltaRead s (engKey 16 1 0) a (8 * n)) with
      | (s, none) => s
      | (s, some (st, masks)) =>
        if st ≠ 0 then jrnlEnd s st
        else
          match linesWait s es with
          | (s, true) => s
          | (s, false) =>
            let todo := (es.zip (countUp 0 es.length)).map (fun x => (x.1, if x.2 < n then fieldAt masks (8 * x.2) 8 else 0))
            jrnlEnd (jrnlDrop (revertLines s todo) dev true) 0
    else jrnlEnd (jrnlDrop s dev true) 0

/-- R415: an OP written to PGRP_JRNL_CMD; while one is in progress it is ignored and counted. -/
def jrnlEff (s : State) (ini : Initiator) (op dev : Nat) : State :=
  if op = 0 then s
  else if s.fabc.jop.isSome then violation s 3 true ini Csr.PGRP_JRNL_CMD
  else jrnlWork { s with fabc := { s.fabc with jop := some (op, dev) } }

/-- R388: a reset reaches the FABC: requests end, and its banks, windows and registers are at their reset values. -/
def fabcReset (s : State) : State :=
  let t := endTxns s (fun _ => true) 0x08
  { t with fabc := {}, outbox := [] }

end Sys2Proof.Machine
end

