-- ==== Sys2Proof/Machine/Hlk.lean ====
section
/-! DEFINITION. The host link above its link layer (R420 to R441): host windows, the journal, reads of host memory,
sessions, submission and completion queues, and the firmware ring. -/

namespace Sys2Proof.Machine

def hlkIdx : Nat := 39
def hlkSrc : Nat := 80

/-- The HLK is clocked and out of reset. -/
def hlkUp (s : State) : Bool := awake s && !inResetBit s hlkIdx

/-- HLK_SESSION.STATE: 0 DETACHED, 1 ATTACHED, 2 SUSPENDED, 3 DETACHING. -/
def session (s : State) : Nat := fld s Csr.HLK_SESSION 1 0

def setSession (s : State) (v : Nat) : State := setFld s Csr.HLK_SESSION 1 0 v

def setHlk (s : State) (h : Hlk) : State := { s with hlk := h }

/-! ### Messages (R420) -/

def hostHead (m : HostMsg) : Bytes :=
  toLE (m.mtype <<< 28 + m.tag) 4 ++ toLE m.jseq 4 ++ toLE m.addr 8 ++ toLE m.len 2 ++ [m.status, 0]
    ++ toLE m.hepoch 4 ++ toLE 0 8

def hostBytes (m : HostMsg) : Bytes := hostHead m ++ m.payload

/-- R418: the virtual channel of a type. -/
def hostVc (t : Nat) : Nat := if t = 1 ∨ t = 4 then 0 else if t = 3 ∨ t = 6 then 1 else if t = 2 ∨ t = 5 then 2 else 3

/-- A message goes to the link when it is UP. -/
def hostSend (s : State) (m : HostMsg) : State :=
  if linkUp s 24 then linkQueue s 24 (hostVc m.mtype) 0 (hostBytes m) else s

/-- A message has been taken from the link: its buffers are free. -/
def hostTaken (s : State) (m : HostMsg) : State := freeArrived s 24 (hostBytes m)

/-! ### Host windows (R424) -/

/-- The host address of an admitted access. -/
def hostAddr (s : State) (a n : Nat) (write : Bool) : Option Nat :=
  let w := bits a 43 38
  let o := a % 2 ^ 38
  let c := rd s (Csr.HLK_HWIN_CTRL w)
  if a < 2 ^ 44 ∧ bit c 31 ∧ bit c (if write then 30 else 29) ∧ o + n ≤ fld s (Csr.HLK_HWIN_SIZE w) 26 0 * 4096 then
    some ((fld s (Csr.HLK_HWIN_HOST w) 63 12 <<< 12 + o) % 2 ^ 64)
  else none

/-- A host-window violation (R424, R544). -/
def hostViol (s : State) (write : Bool) (ini : Initiator) : State :=
  violation (bumpOcc s Csr.HLK_VIOL 1) 4 write ini 0

/-- Pieces of `n` bytes at `a` that do not cross 4 KiB, `fuel` at most: offset from `a` and length. -/
def cut4k : Nat → Nat → Nat → Nat → List (Nat × Nat)
  | 0, _, _, _ => []
  | f + 1, a, o, n =>
    if n = 0 then []
    else
      let k := min n (4096 - a % 4096)
      (o, k) :: cut4k f (a + k) (o + k) (n - k)

def pieces4k (a n : Nat) : List (Nat × Nat) := cut4k (n / 4096 + 2) a 0 n

/-! ### Writes into host memory (R425) -/

/-- Where the data of a journal entry is held. -/
def jrnlAddr (s : State) (j : Nat) : Nat := rd s Csr.HLK_JRNL_BASE % 2 ^ 44 + 4096 * (j % 8192)

/-- The D_WR of a journal entry. -/
def dWr (j : JEnt) (data : Bytes) : HostMsg := { mtype := 5, jseq := j.jseq, addr := j.addr, len := j.len, payload := data }

/-- Each piece takes the next JSEQ, is journaled and sent; `none` while its journal write stalls. -/
def issueWrites (addr : Nat) (data : Bytes) (o : HostOwner) : State → List (Nat × Nat) → State × Bool
  | s, [] => (s, true)
  | s, (off, n) :: ps =>
    let q := rd s Csr.HLK_JSEQ_NEXT % 2 ^ 32
    let d := bytesAt data off n
    match ltaWrite s (engKey 17 0 (q % 8192)) (jrnlAddr s q) d with
    | (s, none) => (s, false)
    | (s, some _) =>
      let j : JEnt := ⟨q, (addr + off) % 2 ^ 64, n, o⟩
      let s := wr s Csr.HLK_JSEQ_NEXT ((q + 1) % 2 ^ 32)
      issueWrites addr data o (hostSend (setHlk s { s.hlk with jrnl := s.hlk.jrnl ++ [j] }) (dWr j d)) ps

/-- The journal region's places for some pieces can all be written now. -/
def jrnlReady (s : State) : List (Nat × Nat) → Nat → State × Bool
  | [], _ => (s, true)
  | (_, n) :: ps, q =>
    match firstWait s true (pagePieces (jrnlAddr s q) n) with
    | (s, some _) => (s, false)
    | (s, none) => jrnlReady s ps (q + 1)

/-- What becomes of an access of host memory: it waits, it has ended, or it is under way. -/
inductive HostRes where
  | wait
  | ended (status : Nat)
  | going
  deriving DecidableEq, Repr

/-- R424, R425, R428: a write into host memory by a unit, for an owner. -/
def hostWrite (s : State) (ini : Initiator) (a : Nat) (data : Bytes) (o : HostOwner) : State × HostRes :=
  if session s = 0 ∧ s.hlk.lost then (s, .ended 0x07)
  else
    match hostAddr s a data.length true with
    | none => (hostViol s true ini, .ended 0)
    | some h =>
      let ps := pieces4k h data.length
      if session s = 0 then (s, .ended 0x07)
      else if session s = 2 ∨ 8192 < s.hlk.jrnl.length + ps.length then (s, .wait)
      else
        match (if plcTakes s then jrnlReady s ps (rd s Csr.HLK_JSEQ_NEXT) else (s, plcRuns s)) with
        | (s, false) => (s, .wait)
        | (s, true) =>
          match issueWrites h data o s ps with
          | (s, true) => (s, .going)
          | (s, false) => (s, .wait)

/-! ### Reads of host memory (R426) -/

/-- A free read tag. -/
def freeHostTag (s : State) : Option Nat :=
  (countUp 0 (s.hlk.reads.length + 1)).find? (fun t => t < 2 ^ 24 ∧ ¬ s.hlk.reads.any (fun r => r.tag = t))

/-- The D_RD of a read. -/
def dRd (r : HRead) : HostMsg := { mtype := 4, tag := r.tag, addr := r.addr, len := r.len }

/-- Reads issued for the pieces of one access. -/
def issueReads (addr : Nat) (o : HostOwner) : State → List (Nat × Nat) → State
  | s, [] => s
  | s, (off, n) :: ps =>
    match freeHostTag s with
    | none => s
    | some t =>
      let r : HRead := ⟨t, (addr + off) % 2 ^ 64, n, o⟩
      issueReads addr o (hostSend (setHlk s { s.hlk with reads := s.hlk.reads ++ [r] }) (dRd r)) ps

/-- R424, R426, R428: a read of host memory by a unit. -/
def hostRead (s : State) (ini : Initiator) (a n : Nat) (o : HostOwner) : State × HostRes :=
  if session s = 0 ∧ s.hlk.lost then (s, .ended 0x07)
  else
    match hostAddr s a n false with
    | none => (hostViol s false ini, .ended 0)
    | some h =>
      if session s = 0 then (s, .ended 0x07)
      else if 2 ^ 24 ≤ s.hlk.reads.length + 1 then (s, .wait)
      else (issueReads h o s (pieces4k h n), .going)

/-! ### The ends of parts -/

def setHPart (l : List HPart) (i : Nat) (v : HPart) : List HPart := l.take i ++ v :: l.drop (i + 1)

/-- A command's waiting part ends. -/
def endCmdPart (s : State) (q cid part st : Nat) : State :=
  let hit (c : HCmd) : Bool := decide (c.sq = q) && decide (fieldAt c.bytes 0 2 = cid) && (c.parts[part]? == some .waits)
  match s.hlk.cmds.find? hit with
  | none => s
  | some c =>
    let cs := s.hlk.cmds.map (fun x => if x = c then { c with parts := setHPart c.parts part (.ended st) } else x)
    setHlk s { s.hlk with cmds := cs }

/-- R364: the response to a peer's request. -/
def respond (s : State) (m : FabMsg) (st : Nat) (data : Bytes) : State :=
  let isRd := m.mtype = 1
  let body := if isRd ∧ st = 0 then data else []
  send s { mtype := if isRd then 3 else 4, dst := m.src, src := selfDev s, tag := m.tag, gen := m.gen,
           addr := m.addr, len := if isRd then body.length else 0, status := BitVec.ofNat 8 st, payload := body }

/-- A streamer's part whose host writes have ended. -/
def endStrmPart (s : State) (c t d part st : Nat) : State :=
  let k := coreOf s c
  let v := strmOf k t
  match smGet none v.prog d with
  | some p =>
    if p.away.contains part then
      let p := { p with done := p.done ++ [(part, st)], away := p.away.erase part }
      setCore s c (setStrm k t { v with prog := smSet none v.prog d (some p) })
    else s
  | none => s

/-- A processor's store whose host writes have ended (R444). -/
def endHartStore (s : State) (p st : Nat) : State :=
  let h := smGet {} s.harts p
  if h.hostIo = some none then { s with harts := smSet {} s.harts p { h with hostIo := some (some st) } } else s

/-- The owner of host accesses that have ended. -/
def ownerDone (s : State) (o : HostOwner) (st : Nat) (data : Bytes) : State :=
  match o with
  | .unit n => answer s n st data
  | .part q cid p => endCmdPart s q cid p st
  | .peer m => respond s m st data
  | .strm c t d p => endStrmPart s c t d p st
  | .hart p => endHartStore s p st
  | .none => s

/-- R425: owners whose last entry has gone. -/
def settleOwners (st : Nat) : State → List HostOwner → State
  | s, [] => s
  | s, o :: os => settleOwners st (if s.hlk.jrnl.any (fun j => j.owner = o) then s else ownerDone s o st []) os

/-- R425: entries up to a JSEQ are freed, and their parts end OK. -/
def freeJrnl (s : State) (q : Nat) : State :=
  let gone (j : JEnt) : Bool := decide (serial 32 j.jseq q ≠ .later)
  let os := ((s.hlk.jrnl.filter gone).map (·.owner)).eraseDups
  let s := setHlk s { s.hlk with jrnl := s.hlk.jrnl.filter (fun j => !gone j) }
  settleOwners 0 (wr s Csr.HLK_JSEQ_ACK q) os

/-- R421: a JSEQ later than the last sent. -/
def jseqBad (s : State) (q : Nat) : Bool := decide (serial 32 q ((rd s Csr.HLK_JSEQ_NEXT + 2 ^ 32 - 1) % 2 ^ 32) = .later)

/-! ### Completions (R429, R435, R436) -/

/-- R429: an orphan is written or dropped; false while its write stalls. -/
def orphanPut (s : State) (e : Bytes) : State × Bool :=
  let pi := rd s Csr.HLK_ORPHAN_PI
  let n := fld s Csr.HLK_ORPHAN_SIZE 4 0
  let held := (pi + 2 ^ 32 - rd s Csr.HLK_ORPHAN_START % 2 ^ 32) % 2 ^ 32
  if ¬ flag s Csr.HLK_ORPHAN_SIZE 31 ∨ 2 ^ n ≤ held then
    let s := bumpOcc s Csr.HLK_ORPHAN_DROP 1
    if s.hlk.orphanSeen then (s, true)
    else (raise (setHlk s { s.hlk with orphanSeen := true }) hlkSrc 0x06 pi 0, true)
  else
    match ltaWrite s (engKey 19 0 0) (rd s Csr.HLK_ORPHAN_BASE % 2 ^ 44 + 32 * (pi % 2 ^ n)) e with
    | (s, none) => (s, false)
    | (s, some _) => (wr s Csr.HLK_ORPHAN_PI ((pi + 1) % 2 ^ 32), true)

/-- R436: the data of a vector is sent. -/
def vecWrite (s : State) (v : Nat) : State × Bool :=
  match hostWrite s .host (rd s (Csr.HLK_VEC_ADDR v) % 2 ^ 44) (toLE (rd s (Csr.HLK_VEC_DATA v)) 4) .none with
  | (s, .wait) => (s, false)
  | (s, _) => (s, true)

/-- R436: a vector is signalled: sent, put in line, or left pending while masked. -/
def signalVec (s : State) (v : Nat) : State :=
  if flag s (Csr.HLK_VEC_CTRL v) 0 then setFlag s (Csr.HLK_VEC_CTRL v) 1 true
  else if s.hlk.cqWait.any (fun x => x.1 = 512 + v) then setHlk s { s.hlk with cqWait := s.hlk.cqWait ++ [(512 + v, [])] }
  else
    match vecWrite s v with
    | (s, true) => s
    | (s, false) => setHlk s { s.hlk with cqWait := s.hlk.cqWait ++ [(512 + v, [])] }

/-- R436: a CQ signals the completions it has not signalled. -/
def cqSignal (s : State) (c : Nat) : State :=
  signalVec (setHlk s { s.hlk with coal := smSet 0 s.hlk.coal c 0 }) (fld s (Csr.HLK_CQ_CFG c) 23 16)

/-- R435, R436: an entry has been written to its CQ. -/
def cqAdvance (s : State) (c : Nat) : State :=
  let s := setFld s (Csr.HLK_CQ_TAIL c) 16 0 (fld s (Csr.HLK_CQ_TAIL c) 16 0 + 1)
  let k := smGet 0 s.hlk.coal c + 1
  let s := setHlk s { s.hlk with coal := smSet 0 s.hlk.coal c k }
  if flag s (Csr.HLK_CQ_CFG c) 29 ∧ max 1 (fld s (Csr.HLK_CQ_COAL c) 15 0) ≤ k then cqSignal s c else s

/-- R435: entry i of a CQ carries its phase. -/
def withPhase (e : Bytes) (i n : Nat) : Bytes :=
  bytesAt e 0 7 ++ toLE ((1 - (i >>> n) % 2) * 128) 1 ++ bytesAt e 8 24

/-- R435: an entry written to its CQ; false while it waits. -/
def cqPut (s : State) (c : Nat) (e : Bytes) : State × Bool :=
  let cfg := rd s (Csr.HLK_CQ_CFG c)
  let n := bits cfg 4 0
  let t := fld s (Csr.HLK_CQ_TAIL c) 16 0
  let a := rd s (Csr.HLK_CQ_BASE c) % 2 ^ 44 + 32 * (t % 2 ^ n)
  if ¬ bit cfg 31 ∨ 2 ^ n ≤ ringCount t (fld s (Csr.HLK_CQ_HEAD c) 16 0) then (s, false)
  else if bit cfg 30 then
    match ltaWrite s (engKey 20 c 0) a (withPhase e t n) with
    | (s, none) => (s, false)
    | (s, some _) => (cqAdvance s c, true)
  else
    match hostWrite s .host a (withPhase e t n) .none with
    | (s, .wait) => (s, false)
    | (s, _) => (cqAdvance s c, true)

/-- One waiting item tried. -/
def putOne (s : State) (k : Nat) (e : Bytes) : State × Bool :=
  if 512 ≤ k then vecWrite s (k - 512) else if k = 256 then orphanPut s e else cqPut s k e

/-- Waiting items written in order, each behind those of its own kind. -/
def putAll : State → List Nat → List (Nat × Bytes) → State × List (Nat × Bytes)
  | s, _, [] => (s, [])
  | s, held, (k, e) :: l =>
    if held.contains k then
      let (s, r) := putAll s held l
      (s, (k, e) :: r)
    else
      match putOne s k e with
      | (s, true) => putAll s held l
      | (s, false) =>
        let (s, r) := putAll s (k :: held) l
        (s, (k, e) :: r)

/-- What waits to be written out goes on. -/
def hlkDrain (s : State) : State :=
  let l := s.hlk.cqWait
  let (s, r) := putAll (setHlk s { s.hlk with cqWait := [] }) [] l
  setHlk s { s.hlk with cqWait := r ++ s.hlk.cqWait }

/-! ### Commands (R432 to R435) -/

def cCid (c : HCmd) : Nat := fieldAt c.bytes 0 2
def cOp (c : HCmd) : Nat := fieldAt c.bytes 2 1
def cNoCqe (c : HCmd) : Bool := bit (fieldAt c.bytes 3 1) 3
def cFence (c : HCmd) : Bool := bit (fieldAt c.bytes 3 1) 2
def cDstHost (c : HCmd) : Bool := bit (fieldAt c.bytes 3 1) 1
def cSrcHost (c : HCmd) : Bool := bit (fieldAt c.bytes 3 1) 0
def cInline (c : HCmd) : Nat := fieldAt c.bytes 4 1
def cAddr0 (c : HCmd) : Nat := fieldAt c.bytes 8 8
def cAddr1 (c : HCmd) : Nat := fieldAt c.bytes 16 8
def cLen (c : HCmd) : Nat := fieldAt c.bytes 24 4

/-- R434, R518: a malformed command. -/
def cmdBad (c : HCmd) : Bool :=
  let b := c.bytes
  let op := cOp c
  decide (5 < op) || fieldAt b 3 1 / 16 ≠ 0 || decide (96 < cInline c) || fieldAt b 5 3 ≠ 0 || fieldAt b 28 4 ≠ 0
    || (decide (op = 2 ∨ op = 3) && cInline c ≠ 0) || (decide (op = 1) && cInline c = 0)
    || (decide (op = 2) && cLen c = 0) || (decide (op = 3) && (cLen c = 0 || decide (8 < cLen c) || cSrcHost c))
    || (decide (op ≠ 2 ∧ op ≠ 3) && cLen c ≠ 0)
    || (decide (op = 5) && (cInline c ≠ 4 || fieldAt b 32 1 = 0 || decide (2 < fieldAt b 32 1)
        || decide (4 < fieldAt b 33 1) || fieldAt b 34 2 ≠ 0 || (fieldAt b 32 1 = 2 && fieldAt b 33 1 ≠ 0)))

/-- R434: parts of a command. -/
def cmdParts (c : HCmd) : Nat := if cOp c = 2 then ceilDiv (cLen c) 4096 else 1

/-- A command starts: a malformed one ends whole. -/
def cmdStart (c : HCmd) : HCmd :=
  if cmdBad c then { c with started := true, whole := some 0x09 }
  else { c with started := true, parts := List.replicate (cmdParts c) .todo }

/-- R432: the commands of a queue that may start do, in order: a fenced one only as the oldest. `prior`: there is an
earlier one, `stop`: an earlier one has not started. -/
def startQ (q : Nat) (prior stop : Bool) : List HCmd → List HCmd
  | [] => []
  | c :: cs =>
    if c.sq ≠ q ∨ c.orphan then c :: startQ q prior stop cs
    else if c.started then c :: startQ q true stop cs
    else if stop || (cFence c && prior) then c :: startQ q true true cs
    else cmdStart c :: startQ q true stop cs

def startCmds (s : State) (q : Nat) : State := setHlk s { s.hlk with cmds := startQ q false false s.hlk.cmds }

/-- HLK_SQ_STAT.INFLIGHT. -/
def inflight (s : State) (q : Nat) : Nat := (s.hlk.cmds.filter (fun c => c.sq = q ∧ c.started)).length

/-- Statuses of a command's parts, once all have ended. -/
def hpartStatuses : List HPart → Option (List Nat)
  | [] => some []
  | .ended st :: l => (hpartStatuses l).map (st :: ·)
  | _ :: _ => none

/-- The report of a command that has ended. -/
def cmdReport (c : HCmd) : Option Report :=
  match c.whole with
  | some st => some (wholeReport st)
  | none => if c.started then (hpartStatuses c.parts).map partReport else none

/-- R435: the completion entry, PHASE zero. -/
def cqEntry (c : HCmd) (r : Report) : Bytes :=
  toLE (cCid c) 2 ++ toLE r.status 1 ++ toLE r.firstFail 1 ++ toLE c.sq 1 ++ toLE c.incarn 1 ++ toLE 0 2
    ++ toLE r.pfx 4 ++ toLE 0 4 ++ toLE r.map 8 ++ toLE c.result 8

/-- R435: a command that has ended completes. -/
def cmdComplete (s : State) (c : HCmd) (r : Report) : State :=
  let s := bumpStat (setHlk s { s.hlk with cmds := s.hlk.cmds.erase c }) Csr.HLK_CMDS 1 (some hlkIdx)
  let s := if cNoCqe c ∧ r.status = 0 then s
    else setHlk s { s.hlk with cqWait := s.hlk.cqWait ++
      [(if c.orphan then 256 else fld s (Csr.HLK_SQ_CFG c.sq) 23 16, cqEntry c r)] }
  hlkDrain (startCmds s c.sq)

/-- HLK_CMD_COMPLETE (R435). -/
def execHlkCmdComplete (q : Fin 256) (cid : BitVec 16) (s : State) : Out :=
  if ¬ hlkUp s then .next s
  else
    match s.hlk.cmds.find? (fun c => c.sq = q.val ∧ cCid c = cid.toNat ∧ (cmdReport c).isSome) with
    | none => .next (hlkDrain s)
    | some c =>
      match cmdReport c with
      | some r => .next (cmdComplete s c r)
      | none => .next s

/-- A started command of an operation whose part k is still to be done. -/
def todoCmd (s : State) (q cid op part : Nat) : Option HCmd :=
  s.hlk.cmds.find? (fun c => c.sq = q ∧ cCid c = cid ∧ cOp c = op ∧ c.started ∧ c.whole.isNone ∧ ¬ c.away
    ∧ c.parts[part]? = some .todo)

/-- A command replaced. -/
def putCmdH (s : State) (c c' : HCmd) : State :=
  setHlk s { s.hlk with cmds := s.hlk.cmds.map (fun x => if x = c then c' else x) }

/-- Part k of a command takes a new state. -/
def setCmdPart (s : State) (c : HCmd) (k : Nat) (v : HPart) : State := putCmdH s c { c with parts := setHPart c.parts k v }

/-- NOP (R434). -/
def execHlkNop (q : Fin 256) (cid : BitVec 16) (s : State) : Out :=
  match todoCmd s q cid.toNat 0x00 0 with
  | some c => if hlkUp s then .next (setCmdPart s c 0 (.ended 0)) else .next s
  | none => .next s

/-- FW_CALL (R437): the command is copied to the firmware ring. -/
def execFwCall (q : Fin 256) (cid : BitVec 16) (s : State) : Out :=
  match todoCmd s q cid.toNat 0x04 0 with
  | none => .next s
  | some c =>
    let pi := fld s Csr.HLK_FWQ_PI 16 0
    let ci := fld s Csr.HLK_FWQ_CI 16 0
    let n := fld s Csr.HLK_FWQ_SIZE 4 0
    if ¬ hlkUp s ∨ ¬ flag s Csr.HLK_FWQ_SIZE 31 ∨ 2 ^ n ≤ ringCount pi ci then .next s
    else
      let e := bytesAt c.bytes 0 28 ++ toLE c.sq 1 ++ toLE c.incarn 1 ++ bytesAt c.bytes 30 98
      match ltaWrite s (engKey 21 0 0) (rd s Csr.HLK_FWQ_BASE % 2 ^ 44 + 128 * (pi % 2 ^ n)) e with
      | (s, none) => .next s
      | (s, some st) =>
        if st ≠ 0 then .next (setCmdPart s c 0 (.ended st))
        else
          let s := putCmdH (setFld s Csr.HLK_FWQ_PI 16 0 (pi + 1)) c { c with away := true }
          .next (if ringCount pi ci = 0 then raise s hlkSrc 0x05 ((pi + 1) % 2 ^ 17) 0 else s)

/-- R437: a write of HLK_FW_DONE. -/
def fwDoneEff (s : State) (ini : Initiator) (v : Nat) : State :=
  let hit (c : HCmd) : Bool := c.away && decide (cOp c = 4) && decide (c.sq = bits v 47 40)
    && decide (cCid c = bits v 15 0) && decide (c.incarn = bits v 55 48)
  match s.hlk.cmds.find? hit with
  | none => violation s 3 true ini Csr.HLK_FW_DONE
  | some c => putCmdH s c { c with away := false, parts := [.ended (bits v 63 56)], result := rd s Csr.HLK_FW_RESULT }

/-! ### Submission queues (R431, R432) -/

/-- R431: a write of HLK_SQ_TAIL. -/
def sqTailEff (s : State) (ini : Initiator) (q v : Nat) : State :=
  let t := v % 2 ^ 17
  if 2 ^ fld s (Csr.HLK_SQ_CFG q) 4 0 < ringCount t (fld s (Csr.HLK_SQ_HEAD q) 16 0) then
    violation s 3 true ini (Csr.HLK_SQ_TAIL q)
  else setFld s (Csr.HLK_SQ_TAIL q) 16 0 t

/-- R431: a write of HLK_CQ_HEAD. -/
def cqHeadEff (s : State) (ini : Initiator) (c v : Nat) : State :=
  let t := fld s (Csr.HLK_CQ_TAIL c) 16 0
  let h := v % 2 ^ 17
  if ringCount t (fld s (Csr.HLK_CQ_HEAD c) 16 0) < ringCount t h then violation s 3 true ini (Csr.HLK_CQ_HEAD c)
  else hlkDrain (setFld s (Csr.HLK_CQ_HEAD c) 16 0 h)

/-- R432: the queue holds unfetched entries and may have one fetched. -/
def sqReady (s : State) (q : Nat) : Bool :=
  flag s (Csr.HLK_SQ_CFG q) 31 && decide (fld s (Csr.HLK_SQ_TAIL q) 16 0 ≠ fld s (Csr.HLK_SQ_HEAD q) 16 0)
    && decide ((s.hlk.cmds.filter (fun c => c.sq = q)).length < 64)

/-- R432: the queue whose turn it is, from the cursor on. -/
def sqTurn (s : State) : Option Nat := (countUp 0 256).findSome? (fun i =>
  let q := (s.hlk.cursor + i) % 256
  if sqReady s q then some q else none)

/-- An entry fetched from queue q. -/
def sqTake (s : State) (q : Nat) (b : Bytes) : State :=
  let s := setFld s (Csr.HLK_SQ_HEAD q) 16 0 (fld s (Csr.HLK_SQ_HEAD q) 16 0 + 1)
  let c : HCmd := { sq := q, incarn := fld s Csr.HLK_SESSION 23 16, bytes := bytesAt b 0 128 }
  startCmds (setHlk s { s.hlk with cmds := s.hlk.cmds ++ [c], cursor := (q + 1) % 256 }) q

/-- SQ_FETCH (R432). `ext` is what host memory answers for a ring that lies there. -/
def execSqFetch (q : Fin 256) (ext : Ext) (s : State) : Out :=
  if ¬ works s hlkIdx ∨ session s ≠ 1 ∨ sqTurn s ≠ some q.val then .next s
  else
    let cfg := rd s (Csr.HLK_SQ_CFG q)
    let a := rd s (Csr.HLK_SQ_BASE q) % 2 ^ 44 + 128 * (fld s (Csr.HLK_SQ_HEAD q) 16 0 % 2 ^ bits cfg 4 0)
    if bit cfg 30 then
      match ltaRead s (engKey 18 q 0) a 128 with
      | (s, none) => .next s
      | (s, some (st, b)) => .next (if st = 0 then sqTake s q b else s)
    else
      match hostAddr s a 128 false with
      | none => .next (sqTake (hostViol s false .host) q [])
      | some _ => .next (if ext.status = 0 then sqTake s q ext.data else s)

/-- CQ_COAL_TIMER (R436). -/
def execCqCoalTimer (q : Fin 256) (s : State) : Out :=
  if hlkUp s ∧ flag s (Csr.HLK_CQ_CFG q) 29 ∧ fld s (Csr.HLK_CQ_COAL q) 31 16 ≠ 0 ∧ smGet 0 s.hlk.coal q ≠ 0 then
    .next (cqSignal s q)
  else .next s

/-- R436: MASK of a vector is cleared. -/
def vecUnmaskEff (s : State) (v : Nat) : State :=
  let s := setFlag s (Csr.HLK_VEC_CTRL v) 0 false
  if flag s (Csr.HLK_VEC_CTRL v) 1 then signalVec (setFlag s (Csr.HLK_VEC_CTRL v) 1 false) v else s

/-! ### Sessions (R427, R428) -/

/-- R427, R428: queues, windows and vectors are disabled. -/
def hostDisable (s : State) : State :=
  let s := (countUp 0 256).foldl (fun s q =>
    setFlag (setFlag s (Csr.HLK_SQ_CFG q) 31 false) (Csr.HLK_CQ_CFG q) 31 false) s
  let s := (countUp 0 64).foldl (fun s w => setFlag s (Csr.HLK_HWIN_CTRL w) 31 false) s
  (countUp 0 256).foldl (fun s v => setFld s (Csr.HLK_VEC_CTRL v) 1 0 1) s

/-- R428: what a host loss does to a command. -/
def lostCmd (c : HCmd) : HCmd :=
  let c := { c with orphan := true }
  if c.started then { c with parts := c.parts.map (fun p => if p = .waits then .ended 0x07 else p) }
  else { c with whole := some 0x0E }

/-- R428: the session ends by a host loss. -/
def hostLost (s : State) (cause : Nat) (epoch : Option Nat) : State :=
  let os := ((s.hlk.jrnl.map (·.owner)) ++ (s.hlk.reads.map (·.owner))).eraseDups
  let waits := (s.hlk.cqWait.filter (fun x => x.1 < 512)).map (fun x => (256, x.2))
  let s := setHlk s { s.hlk with jrnl := [], reads := [], cqWait := [], coal := [] }
  let s := os.foldl (fun s o => ownerDone s o 0x07 []) s
  let s := setHlk s { s.hlk with cmds := s.hlk.cmds.map lostCmd }
  let s := hostDisable s
  let s := wr s Csr.HLK_ORPHAN_START (rd s Csr.HLK_ORPHAN_PI)
  let s := bumpOcc (setSession s 0) Csr.HLK_HOST_LOST 1
  let s := match epoch with | some e => wr s Csr.HLK_HEPOCH (e % 2 ^ 32) | none => s
  let s := raise s hlkSrc 0x03 cause (rd s Csr.HLK_ORPHAN_START)
  hlkDrain (setHlk s { s.hlk with cqWait := waits, orphanSeen := false, lost := true })

/-- R427: the entries of the journal read back; `none` while a read stalls, `some none` when one fails. -/
def replayRead : State → List JEnt → State × Option (Option (List (JEnt × Bytes)))
  | s, [] => (s, some (some []))
  | s, j :: js =>
    match ltaRead s (engKey 22 0 (j.jseq % 8192)) (jrnlAddr s j.jseq) j.len with
    | (s, none) => (s, none)
    | (s, some (st, b)) =>
      if st ≠ 0 then (s, some none)
      else
        match replayRead s js with
        | (s, some (some l)) => (s, some (some ((j, b) :: l)))
        | r => r

/-- R427: the journal and the reads are sent again. -/
def replay (s : State) : State :=
  match replayRead s s.hlk.jrnl with
  | (s, none) => s
  | (s, some none) => hostLost s 0x04 none
  | (s, some (some l)) =>
    let s := l.foldl (fun s x => bumpOcc (hostSend s (dWr x.1 x.2)) Csr.HLK_REPLAY 1) s
    let s := s.hlk.reads.foldl (fun s r => hostSend s (dRd r)) s
    hlkDrain (if session s = 2 then setSession s 1 else s)

/-- R421, R427: RESUME. -/
def resumeEff (s : State) (m : HostMsg) : State :=
  if jseqBad s m.jseq then protoError s 24
  else if session s = 0 then wr s Csr.HLK_HEPOCH (m.hepoch % 2 ^ 32)
  else if m.hepoch ≠ rd s Csr.HLK_HEPOCH then hostLost s 0x02 (some m.hepoch)
  else replay (freeJrnl s m.jseq)

/-- R427: HLK_ATTACH.GO. -/
def attachEff (s : State) (ini : Initiator) (key : Nat) : State :=
  let n := fld s Csr.HLK_SESSION 31 16
  if session s = 0 ∧ key = n ∧ linkUp s 24 then
    let s := setFld (setSession s 1) Csr.HLK_SESSION 31 16 (n + 1)
    raise (setHlk s { s.hlk with lost := false }) hlkSrc 0x04 (fld s Csr.HLK_SESSION 31 16) (rd s Csr.HLK_HEPOCH)
  else violation (setFlag s Csr.HLK_SESSION 2 true) 3 true ini Csr.HLK_ATTACH

/-- R427: HLK_ATTACH.DETACH. -/
def detachEff (s : State) : State := if session s = 1 then setSession s 3 else s

/-- DETACH_TIMEOUT (R427). -/
def execDetachTimeout (s : State) : Out :=
  let s := { s with answers := [] }
  if hlkUp s ∧ session s = 2 ∧ fld s Csr.HLK_TMO 31 16 ≠ 0 then .next (hostLost s 0x03 none) else .next s

/-- DETACH_COMPLETE (R427). -/
def execDetachComplete (s : State) : Out :=
  if hlkUp s ∧ session s = 3 ∧ (s.hlk.cmds.all (·.orphan)) ∧ s.hlk.jrnl.isEmpty
      ∧ s.hlk.cqWait.all (fun x => x.1 = 256) then
    let s := setSession (hostDisable s) 0
    .next (wr (setHlk s { s.hlk with coal := [], orphanSeen := false }) Csr.HLK_ORPHAN_START (rd s Csr.HLK_ORPHAN_PI))
  else .next s

/-! ### Messages from the adapter -/

/-- A message of a type arrives over the link. -/
def hostArrives (s : State) (m : HostMsg) (t : Nat) : Bool := hlkUp s && linkUp s 24 && decide (m.mtype = t)

/-- JACK (R425). -/
def execJack (m : HostMsg) (s : State) : Out :=
  let s := { s with answers := [] }
  if ¬ hostArrives s m 8 then .next s
  else
    let s := hostTaken s m
    .next (if jseqBad s m.jseq then protoError s 24 else hlkDrain (freeJrnl s m.jseq))

/-- RESUME (R427). -/
def execResume (m : HostMsg) (s : State) : Out :=
  let s := { s with answers := [] }
  if hostArrives s m 9 then .next (resumeEff (hostTaken s m) m) else .next s

/-- HOST_RESET (R427). -/
def execHostReset (m : HostMsg) (s : State) : Out :=
  let s := { s with answers := [] }
  if ¬ hostArrives s m 10 then .next s
  else
    let s := hostTaken s m
    .next (if session s = 0 then wr s Csr.HLK_HEPOCH (m.hepoch % 2 ^ 32) else hostLost s 0x01 (some m.hepoch))

/-- A read of host memory ends. -/
def endRead (s : State) (r : HRead) (st : Nat) (data : Bytes) : State :=
  ownerDone (setHlk s { s.hlk with reads := s.hlk.reads.erase r }) r.owner st data

/-- D_RSP (R426). -/
def execDRsp (m : HostMsg) (s : State) : Out :=
  let s := { s with answers := [] }
  if ¬ hostArrives s m 6 then .next s
  else
    let s := hostTaken s m
    match s.hlk.reads.find? (fun r => r.tag = m.tag) with
    | none => .next s
    | some r => .next (if m.status = 0 then endRead s r 0 (bytesAt m.payload 0 r.len) else endRead s r 0x07 [])

/-- HOST_READ_TIMEOUT (R426). -/
def execHostReadTimeout (tag : Nat) (s : State) : Out :=
  let s := { s with answers := [] }
  match s.hlk.reads.find? (fun r => r.tag = tag) with
  | none => .next s
  | some r => if hlkUp s ∧ session s = 1 then .next (endRead s r 0x07 []) else .next s

/-- HOST_WRITE_ISSUE (R425): a unit's part that writes host memory. -/
def execHostWriteIssue (owner addr : Nat) (data : Bytes) (s : State) : Out :=
  let s := { s with answers := [] }
  if ¬ hlkUp s ∨ data = [] ∨ 4096 < data.length then .next s
  else
    match hostWrite s .host addr data (.unit owner) with
    | (s, .ended st) => .next (answer s owner st [])
    | (s, _) => .next s

/-- HOST_READ_ISSUE (R426): a unit's part that reads host memory. -/
def execHostReadIssue (owner addr len : Nat) (s : State) : Out :=
  let s := { s with answers := [] }
  if ¬ hlkUp s ∨ len = 0 ∨ 4096 < len then .next s
  else
    match hostRead s .host addr len (.unit owner) with
    | (s, .ended st) => .next (answer s owner st (if st = 0 then List.replicate len 0 else []))
    | (s, _) => .next s

/-! ### Reset (R438) -/

/-- A reset reaches the HLK: commands end without entries, journal and reads end with ABORTED_RESET. Registers are
reset with the others, but for INCARNATION and HLK_HEPOCH outside a cold reset. -/
def hlkReset (s : State) : State :=
  let os := ((s.hlk.jrnl.map (·.owner)) ++ (s.hlk.reads.map (·.owner))).eraseDups
  let s := setHlk s {}
  let s := os.foldl (fun s o => match o with | .part _ _ _ => s | o => ownerDone s o 0x08 []) s
  setLink s 24 {}

end Sys2Proof.Machine
end

