-- ==== Sys2Proof/Machine/Event.lean ====
section
/-! DEFINITION. The event controller (R451 to R466): targets, ring writes, nesting, purging, external lines and the
Dome buffer. -/

namespace Sys2Proof.Machine

def tgtOf (s : State) (t : Nat) : Target := smGet {} s.evt.tgts t
def setTgt (s : State) (t : Nat) (v : Target) : State := { s with evt := { s.evt with tgts := smSet {} s.evt.tgts t v } }

/-- R459: the highest group among the ring's unconsumed entries. -/
def signalled (v : Target) : Option Nat := v.groups.max?

/-- R459: the ring holds an unconsumed entry above the nesting stack. -/
def nestMay (v : Target) : Bool :=
  match signalled v, v.stack with
  | none, _ => false
  | some _, [] => true
  | some g, top :: _ => decide (top < g)

/-- R458, R459: the target's interrupt. -/
def tgtIrq (v : Target) : Bool := v.fault || nestMay v

/-- R460: the host target's interrupt signals its vector when its condition becomes true. -/
def evtSettle (s : State) : State :=
  let v := tgtOf s 8
  let c := tgtIrq v
  if c = v.irqSeen then s
  else
    let s := setTgt s 8 { v with irqSeen := c }
    if c then signalVec s (fld s (Csr.EVT_TGT_CFG 8) 23 16) else s

/-- R456: the group of a level. -/
def groupOf (s : State) (t level : Nat) : Nat := level >>> fld s (Csr.EVT_TGT_CFG t) 26 24

/-- R456: a pool record may be written to target t. -/
def recEligible (s : State) (t : Nat) (r : EvRec) : Bool :=
  decide (r.target = t) && decide (fld s (Csr.EVT_TGT_CFG t) 7 4 ≤ r.level)

/-- R456: the record to write: of the highest level, then the lowest source, then the first raised. -/
def bestRec : List EvRec → Option EvRec
  | [] => none
  | r :: rs =>
    match bestRec rs with
    | none => some r
    | some x => if r.level < x.level ∨ (r.level = x.level ∧ x.src < r.src) then some x else some r

/-- R19: a delivered record. -/
def recBytes (r : EvRec) (seq : Nat) : Bytes :=
  toLE r.src 2 ++ toLE r.level 1 ++ toLE r.code 1 ++ toLE seq 4 ++ toLE r.stamp 8 ++ toLE r.d0 8 ++ toLE r.d1 8

/-- R457: a line leaves a processor's data cache. -/
def dropLine (s : State) (p lta : Nat) : State :=
  { s with dcache := smSet [] s.dcache p (smSet none (smGet [] s.dcache p) (lta / 64 * 64) none) }

/-- EVT_RING_WRITE (R457, R458). -/
def execEvtRingWrite (t : Fin 9) (s : State) : Out :=
  let v := tgtOf s t
  let cfg := rd s (Csr.EVT_TGT_CFG t)
  let n := bits cfg 3 0
  if ¬ works s 41 ∨ ¬ flag s Csr.EVT_CTRL 0 ∨ ¬ bit cfg 31 ∨ v.fault ∨ 2 ^ n ≤ ringCount v.pi v.ci then .next s
  else
    match bestRec (s.evt.pool.filter (recEligible s t)) with
    | none => .next s
    | some r =>
      let a := rd s (Csr.EVT_TGT_BASE t) % 2 ^ 44 + 32 * (v.pi % 2 ^ n)
      match ltaWrite s (engKey 23 t 0) a (recBytes r v.seq) with
      | (s, none) => .next s
      | (s, some st) =>
        if st ≠ 0 then
          let s := setTgt s t { tgtOf s t with fault := true, fstat := st }
          .next (evtSettle (raise s 3 0x02 t st))
        else
          let v := { v with pi := (v.pi + 1) % 2 ^ 17, seq := (v.seq + 1) % 2 ^ 32, groups := v.groups ++ [groupOf s t r.level] }
          let s := setTgt { s with evt := { s.evt with pool := s.evt.pool.erase r } } t v
          .next (evtSettle (if t.val < 8 then dropLine s t a else s))

/-- R459: a write of ENTER. -/
def nestEnterEff (s : State) (t : Nat) : State :=
  let v := tgtOf s t
  match signalled v with
  | some g => if nestMay v ∧ v.stack.length < 16 then evtSettle (setTgt s t { v with stack := g :: v.stack }) else s
  | none => s

/-- R459: a write of EXIT. -/
def nestExitEff (s : State) (ini : Initiator) (t : Nat) : State :=
  let v := tgtOf s t
  match v.stack with
  | [] => violation s 3 true ini (Csr.EVT_TGT_NEST t)
  | _ :: l => evtSettle (setTgt s t { v with stack := l })

/-- R459: a CI write. -/
def tgtCiEff (s : State) (ini : Initiator) (t w : Nat) : State :=
  let v := tgtOf s t
  let k := ringCount (w % 2 ^ 17) v.ci
  if w < 2 ^ 17 ∧ k ≤ ringCount v.pi v.ci then evtSettle (setTgt s t { v with ci := w, groups := v.groups.drop k })
  else violation s 3 true ini (Csr.EVT_TGT_CI t)

/-- R458: 1 written to FAULT. -/
def evtFaultClearEff (s : State) (t : Nat) : State := evtSettle (setTgt s t { tgtOf s t with fault := false })

/-- R461: a commit has changed the binary point of a target. -/
def bpCommit (s : State) (t : Nat) : State := evtSettle (setTgt s t { tgtOf s t with stack := [] })

/-- R452: 1 written to PURGE. -/
def purgeEff (s : State) (src : Nat) : State :=
  { s with evt := { s.evt with pool := s.evt.pool.filter (fun r => r.src ≠ src) } }

/-- R454: a write of EVT_SWRAISE. -/
def swraiseEff (s : State) (ini : Initiator) (v : Nat) : State :=
  raise s (16 + bits v 4 0) (bits v 15 8) (bits v 31 16) (iniHart ini)

/-- EVT_LINE_ACCEPT (R462). After a reset the first accepted level raises nothing. -/
def execEvtLineAccept (l : Fin 8) (asserted : Bool) (s : State) : Out :=
  let fresh := s.evt.linesFresh.contains l.val
  let was := smGet false s.evt.lines l
  if ¬ s.rst.domeValid ∨ (¬ fresh ∧ was = asserted) then .next s
  else
    let e := { s.evt with lines := smSet false s.evt.lines l asserted, linesFresh := s.evt.linesFresh.erase l.val }
    let s := { s with evt := e }
    let mode := fld s (Csr.AON_LINE l) 1 0
    if fresh then .next s
    else if (asserted ∧ mode = 1) ∨ (¬ asserted ∧ mode = 0) then .next s
    else .next (raise s (8 + l) (if asserted then 0x01 else 0x02) (l + (if asserted then 256 else 0)) 0)

/-- DOME_BUFFER_DRAIN (R464). -/
def execDomeBufferDrain (s : State) : Out := if evtUp s then .next (drainDome s) else .next s

/-- A reset reaches EVT (R461): the Dome's part stays. -/
def evtReset (s : State) : State := { s with evt := { s.evt with pool := [], tgts := [] } }

end Sys2Proof.Machine
end

