-- ==== Sys2Proof/Machine/Hart.lean ====
section
/-! DEFINITION. The processors as the rest of the module meets them (R442 to R449): their states, interrupts,
timers and watchdogs. -/

namespace Sys2Proof.Machine

def hartOf (s : State) (p : Nat) : Hart := smGet {} s.harts p
def setHart (s : State) (p : Nat) (h : Hart) : State := { s with harts := smSet {} s.harts p h }

/-- R451: the event source of a processor. -/
def procSrc (p : Nat) : Nat := 48 + p

/-- R510: the reset bit of a processor; QSq goes with its quadrant. -/
def procBit (p : Nat) : Nat := if p < 4 then 48 + p else p - 4

/-- A processor is clocked and out of reset. -/
def procUp (s : State) (p : Nat) : Bool := awake s && !inResetBit s (procBit p)

/-! ### Interrupts (R447) -/

/-- The `mip` bits: software 3, timer 7, external 11. -/
def mipOf (s : State) (p : Nat) : Nat :=
  (if flag s (Csr.PROC_MSIP p) 0 then 0x8 else 0)
    + (if rd s (Csr.PROC_MTIMECMP p) ≤ s.stamp then 0x80 else 0)
    + (if tgtIrq (tgtOf s p) then 0x800 else 0)

/-- An interrupt that `mie` enables is pending. -/
def irqPending (s : State) (p : Nat) : Bool := decide (mipOf s p &&& (hartOf s p).mie.toNat ≠ 0)

/-- PROC_WFI_WAKE (R448). -/
def execProcWfiWake (p : Fin 8) (s : State) : Out :=
  let h := hartOf s p
  if procUp s p ∧ h.st = .wfi ∧ irqPending s p then .next (setHart s p { h with st := .running }) else .next s

/-- MTIMECMP_MATCH (R447): the timestamp has reached the compare value. -/
def execMtimecmpMatch (p : Fin 8) (s : State) : Out :=
  .next { s with stamp := max s.stamp (rd s (Csr.PROC_MTIMECMP p)) }

/-! ### Watchdogs (R449) -/

/-- The watchdog counts: ENABLE = 1 and the processor is not HALTED. -/
def wdtRuns (s : State) (p : Nat) : Bool := flag s (Csr.PROC_WDT p) 31 && decide ((hartOf s p).st ≠ .halted)

/-- PROC_WDT_STAT.COUNT. -/
def wdtCount (s : State) (p : Nat) : Nat :=
  let h := hartOf s p
  if wdtRuns s p then h.wdtLeft - (s.stamp - h.wdtAt) / 1024 else h.wdtLeft

/-- The count as it stands becomes the base of what follows. -/
def wdtSync (s : State) (p : Nat) : State :=
  setHart s p { hartOf s p with wdtLeft := wdtCount s p, wdtAt := s.stamp }

/-- The count reloads from TIMEOUT. -/
def wdtLoad (s : State) (p : Nat) : State :=
  setHart s p { hartOf s p with wdtLeft := fld s (Csr.PROC_WDT p) 23 0, wdtAt := s.stamp }

/-- A write of PROC_WDT: the count loads when ENABLE rises. -/
def wdtWriteEff (s : State) (p v : Nat) : State :=
  let was := flag s (Csr.PROC_WDT p) 31
  let s := wr (wdtSync s p) (Csr.PROC_WDT p) v
  if ¬ was ∧ bit v 31 then wdtLoad s p else s

/-- R449: a write of PROC_WDT_KICK. -/
def wdtKickEff (s : State) (ini : Initiator) (p v : Nat) : State :=
  if v % 2 ^ 16 = 0x6B6B then wdtLoad s p else violation s 3 true ini (Csr.PROC_WDT_KICK p)

/-! ### Run and halt (R448) -/

/-- A processor no longer waits for a store to host memory. -/
def dropHostIo (s : State) (p : Nat) : State :=
  let own (o : HostOwner) : HostOwner := if o = .hart p then .none else o
  let s := setHlk s { s.hlk with jrnl := s.hlk.jrnl.map (fun j => { j with owner := own j.owner }) }
  setHart s p { hartOf s p with hostIo := none }

/-- 1 written to RUN. -/
def runEff (s : State) (p : Nat) : State :=
  let h := hartOf s p
  if h.st = .halted then
    let s := wdtSync s p
    setHart s p { hartOf s p with st := .running, pc := fld s (Csr.PROC_BOOT p) 47 0, trapped := false, resv := none }
  else s

/-- A processor stops at an instruction boundary. -/
def haltNow (s : State) (p : Nat) : State :=
  let s := wdtSync (dropHostIo s p) p
  let h := hartOf s p
  raise (setHart s p { h with st := .halted }) (procSrc p) 0x03 h.pc 0

/-- 1 written to HALT. -/
def haltEff (s : State) (p : Nat) : State := if (hartOf s p).st = .halted then s else haltNow s p

/-- R445: 1 written to DINV. -/
def dinvEff (s : State) (p : Nat) : State := { s with dcache := smSet [] s.dcache p [] }

/-- R448: a reset that reaches a processor leaves it HALTED, its caches invalidated and its target's stack empty. -/
def hartReset (s : State) (p : Nat) : State :=
  let s := setHart (dropHostIo s p) p {}
  let s := dinvEff s p
  setTgt s p { tgtOf s p with stack := [] }

/-- R444: the first failed access is captured. -/
def procErr (s : State) (p st addr : Nat) : State :=
  if flag s (Csr.PROC_ERR p) 63 then s else wr s (Csr.PROC_ERR p) (1 <<< 63 + st <<< 48 + addr % 2 ^ 48)

end Sys2Proof.Machine
end

