-- ==== Sys2Proof/Machine/Media.lean ====
section
/-! DEFINITION. What the media block does to pictures (R317 to R332): the timeline and its candidates, sampling,
deinterlacing, scaling, colour conversion and tiling; and the shuffle permutation (R338). -/

namespace Sys2Proof.Machine

/-! ### Profile records (R336) -/

def pfCrop (p : Bytes) (i : Nat) : Nat := fieldAt p (2 * i) 2
def pfOutW (p : Bytes) : Nat := fieldAt p 8 2
def pfOutH (p : Bytes) : Nat := fieldAt p 10 2
def pfB12 (p : Bytes) : Nat := fieldAt p 12 1
def pfB13 (p : Bytes) : Nat := fieldAt p 13 1
def pfB14 (p : Bytes) : Nat := fieldAt p 14 1
def pfChromaLoc (p : Bytes) : Nat := bits (pfB12 p) 6 4
def pfCoef (p : Bytes) : Nat := bits (pfB12 p) 2 2
def pfDeint (p : Bytes) : Nat := bits (pfB12 p) 1 0
def pfPs (p : Bytes) : Nat := 4 * 2 ^ bits (pfB14 p) 6 4
def pfPatch (p : Bytes) : Bool := decide (bits (pfB14 p) 3 2 = 1)
def pfChannels (p : Bytes) : Nat := bits (pfB14 p) 1 0
def pfConv (p : Bytes) : Nat := fieldAt p 15 1
def pfThresh (p : Bytes) : Nat := fieldAt p 16 2
def pfHold (p : Bytes) : Nat := fieldAt p 18 2
def pfMean (p : Bytes) (c : Nat) : Nat := fieldAt p (32 + 4 * c) 4
def pfScale (p : Bytes) (c : Nat) : Nat := fieldAt p (44 + 4 * c) 4

/-- Number of channels (R328). -/
def pfC (p : Bytes) : Nat := if pfChannels p = 2 then 1 else 3

/-- W = H = 0 selects the whole picture (R336). -/
def pfWhole (p : Bytes) : Bool := decide (pfCrop p 2 = 0) && decide (pfCrop p 3 = 0)

/-- The crop rectangle of a picture: X, Y, W, H. -/
def cropOf (p : Bytes) (w h : Nat) : Nat × Nat × Nat × Nat :=
  if pfWhole p then (0, 0, w, h) else (pfCrop p 0, pfCrop p 1, pfCrop p 2, pfCrop p 3)

/-- R326: the scale limits. -/
def scaleOk (w ow : Nat) : Bool := decide (w ≤ 8 * ow) && decide (ow ≤ 8 * w)

/-- R326, R328, R336: the form of a profile. -/
def profOk (p : Bytes) : Bool :=
  (pfB12 p &&& 0x88 = 0) && pfChromaLoc p ≠ 6 && pfDeint p ≠ 3
    && (pfB13 p &&& 0x80 = 0) && bits (pfB13 p) 3 2 ≠ 0
    && (pfB14 p &&& 0x80 = 0) && decide (bits (pfB14 p) 6 4 ≤ 3) && decide (bits (pfB14 p) 3 2 ≤ 1) && pfChannels p ≠ 3
    && convOk (pfConv p) && decide (pfConv p / 16 ≤ 9)
    && decide (pfThresh p < 1024) && fieldAt p 20 12 = 0 && fieldAt p 56 72 = 0
    && decide (16 ≤ pfOutW p) && decide (pfOutW p ≤ 4096) && decide (16 ≤ pfOutH p) && decide (pfOutH p ≤ 4096)
    && (if pfPatch p then pfOutW p % pfPs p = 0 ∧ pfOutH p % pfPs p = 0 else true)
    && (if pfWhole p then pfCrop p 0 = 0 ∧ pfCrop p 1 = 0
        else scaleOk (pfCrop p 2) (pfOutW p) ∧ scaleOk (pfCrop p 3) (pfOutH p))

/-- R329: tiles in a frame block: rows and columns of tiles in one matrix. -/
def tileGrid (p : Bytes) : Nat × Nat :=
  if pfPatch p then
    (ceilDiv (pfOutW p * pfOutH p / (pfPs p * pfPs p)) 64, ceilDiv (pfC p * (pfPs p * pfPs p)) 64)
  else (ceilDiv (pfOutH p) 64, ceilDiv (pfOutW p) 64)

/-- R329: F_B. -/
def frameBytes (p : Bytes) : Nat :=
  (if pfPatch p then 1 else pfC p) * ((tileGrid p).1 * (tileGrid p).2) * tileBytes (pfConv p / 16)

/-! ### Timeline (R317 to R321) -/

/-- R318: PTS values on the signed timeline; `raw` is the last raw value and `acc` its place. -/
def unwrapPts (wrap : Bool) : Option (Int × Int) → List (Option Int) → List (Option Int)
  | _, [] => []
  | last, none :: ps => none :: unwrapPts wrap last ps
  | last, some t :: ps =>
    let u : Int := match last with
      | none => t
      | some (raw, acc) => if wrap then acc + signed 33 ((t - raw) % 2 ^ 33).toNat else t
    some u :: unwrapPts wrap (some (t, u)) ps

/-- R317, R319: the time and duration of each picture in display order. A duration of pad is one the stream
does not give. `free` stands for what neither gives. -/
def picTimes (free : Int) : Option (Int × Int) → List (Option Int × Nat) → List (Int × Int)
  | _, [] => []
  | prev, (t, d) :: ps =>
    let time : Int := match t, prev with
      | some t, _ => t
      | none, some (pt, pd) => pt + pd
      | none, none => free
    let before : Int := match prev with | some (_, pd) => pd | none => free
    let dur : Int :=
      if d ≠ 0 then d
      else match ps with
        | (some n, _) :: _ => n - time
        | _ => before
    (time, dur) :: picTimes free (some (time, dur)) ps

/-- A candidate (R320): its time and interval, its picture, and for a BOB field whether it is the bottom one. -/
structure Cand where
  tau : Int
  dur : Int
  pic : Nat
  bottom : Option Bool
  deriving DecidableEq, Repr

/-- R320: candidates of the pictures from number `i` on; `odd` rounds half of an odd duration. -/
def candsOf (bob : Bool) (odd : Int) : Nat → List Picture → List (Int × Int) → List Cand
  | i, p :: ps, (t, d) :: ts =>
    (if p.interlaced && bob then
      let h := (d + odd) / 2
      [⟨t, h, i, some p.bottomFirst⟩, ⟨t + h, d - h, i, some (!p.bottomFirst)⟩]
    else [⟨t, d, i, none⟩]) ++ candsOf bob odd (i + 1) ps ts
  | _, _, _ => []

/-- R321: discontinuities closed; answers the candidates and how many there were. -/
def closeGaps : Option Cand → Int → List Cand → List Cand × Nat
  | _, _, [] => ([], 0)
  | prev, shift, c :: cs =>
    match prev with
    | none =>
      let (r, n) := closeGaps (some c) shift cs
      (c :: r, n)
    | some p =>
      let t := c.tau + shift
      if t ≤ p.tau ∨ 10 * p.dur < t - p.tau then
        let c' := { c with tau := p.tau + p.dur }
        let (r, n) := closeGaps (some c') (p.tau + p.dur - c.tau) cs
        (c' :: r, n + 1)
      else
        let c' := { c with tau := t }
        let (r, n) := closeGaps (some c') shift cs
        (c' :: r, n)

/-- R322: the last candidate at or before the target; `t` is the target times RATE_NUM. -/
def pickCand (num : Int) (t : Int) (cs : List Cand) : Option Cand := (cs.filter (fun c => c.tau * num ≤ t)).getLast?

/-- R322: the target lies at or after the end of the last candidate's interval. -/
def pastEnd (num : Int) (t : Int) (cs : List Cand) : Bool :=
  match cs.getLast? with
  | none => true
  | some c => decide ((c.tau + c.dur) * num ≤ t)

/-- R332: the candidate used in place of a bad one. -/
def holdCand (bad : Nat → Bool) (hold : Nat) (c : Cand) (cs : List Cand) : Option Cand :=
  if hold = 0 then none
  else (cs.filter (fun x => !bad x.pic && decide (x.tau < c.tau) && decide (c.tau - x.tau ≤ hold))).getLast?

/-! ### Deinterlacing (R323) -/

/-- A missing line: the spatial estimate, or the other field's pixel where it is near. -/
def missLine (thresh : Option Nat) (above below : Option (List Nat)) (own : List Nat) : List Nat :=
  let est : List Nat := match above, below with
    | some a, some b => (a.zip b).map (fun x => (x.1 + x.2 + 1) / 2)
    | some a, none => a
    | none, some b => b
    | none, none => own
  match thresh with
  | none => est
  | some th => (own.zip est).map (fun x => if x.1 ≤ x.2 + th ∧ x.2 ≤ x.1 + th then x.1 else x.2)

/-- R323: a plane with the lines of one field kept and the others formed. -/
def deintPlane (bottom : Bool) (thresh : Option Nat) (p : Plane) : Plane :=
  p.zipIdx.map (fun x =>
    if decide (x.2 % 2 = 1) = bottom then x.1
    else missLine thresh (if x.2 = 0 then none else p[x.2 - 1]?) (p[x.2 + 1]?) x.1)

/-- R323: the picture of a candidate. -/
def deint (prof : Bytes) (pic : Picture) (c : Cand) (p : Plane) : Plane :=
  match c.bottom with
  | some b => deintPlane b none p
  | none =>
    if pic.interlaced ∧ pfDeint prof = 2 then deintPlane pic.bottomFirst (some (pfThresh prof)) p
    else p

/-- R324: samples held as 10-bit values. -/
def tenBits (pic : Picture) (p : Plane) : Plane := if pic.tenBit then p else p.map (fun r => r.map (· * 4))

/-! ### Scaling (R324, R325) -/

/-- The positions of output pixels on the luma grid. -/
def lumaPos (crop0 crop out : Nat) (x : Nat) : Int :=
  (crop0 : Int) * 65536 + (((2 * x + 1) * crop * 32768 / out : Nat) : Int) - 32768

/-- R325: dx and dy of a chroma location, in 1/65,536 sample. -/
def chromaOff (loc : Nat) : Int × Int :=
  match loc with
  | 0 => (0, 32768) | 1 => (32768, 32768) | 2 => (0, 0) | 3 => (32768, 0) | 4 => (0, 65536) | _ => (32768, 65536)

/-- One pass of eight taps at a position over the entries `lo` to `hi` of a line whose first entry is number
`base`. -/
def tapSum (taps : List (List Int)) (line : List Int) (base lo hi pos : Int) : Int :=
  let i := pos / 65536
  let row := taps.getD ((pos / 1024) % 64).toNat []
  (row.zipIdx.map (fun t =>
    let col := max lo (min hi (i - 3 + (t.2 : Int)))
    t.1 * line.getD (col - base).toNat 0)).sum

/-- R324: a plane cropped and scaled: horizontal pass, then vertical. -/
def scalePlane (taps : List (List Int)) (p : Plane) (xs ys : List Int) (xlo xhi ylo yhi : Nat) : List (List Nat) :=
  let rows := ((p.drop ylo).take (yhi + 1 - ylo)).map (fun r =>
    let line := r.map (fun (v : Nat) => (v : Int))
    xs.map (fun x => (tapSum taps line 0 xlo xhi x + 32) / 64))
  let cols := (List.range xs.length).map (fun k => rows.map (fun r => r.getD k 0))
  ys.map (fun y => cols.map (fun col =>
    let v := (tapSum taps col ylo ylo yhi y + 8192) / 16384
    (max 0 (min 1023 v)).toNat))

/-! ### Colour (R327, R328) -/

/-- The FP32 code nearest p / q. -/
def ratio32 (p : Int) (q : Nat) : Nat :=
  let n := p.natAbs * 2 ^ 80
  enc32 (.fin (decide (p < 0)) (n / q * 2 + (if n % q = 0 then 0 else 1)) (-81))

/-- R327: the constants a, b, c and d in millionths, by matrix code. -/
def matrixOf (m : Nat) : Nat × Nat × Nat × Nat :=
  match m with
  | 1 => (1402000, 1772000, 344136, 714136)
  | 2 => (1574800, 1855600, 187324, 468124)
  | _ => (1474600, 1881400, 164553, 571353)

/-- R327: the matrix a profile selects for a stream. -/
def matrixSel (prof : Bytes) (mc : Option Nat) : Nat :=
  let m := bits (pfB13 prof) 1 0
  if m ≠ 0 then m
  else match mc with
    | some 1 => 2
    | some 5 => 1
    | some 6 => 1
    | some 9 => 3
    | _ => bits (pfB13 prof) 3 2

/-- R327: full range. -/
def fullRangeOf (prof : Bytes) (codec : Nat) (pic : Picture) : Bool :=
  if bit (pfB13 prof) 4 then bit (pfB13 prof) 5 else pic.fullRange && codec ≠ 0

/-- A value held within bounds, as FP32 codes. -/
def clamp32 (lo hi v : Nat) : Nat := if numLt (dec32 v) (dec32 lo) then lo else if numLt (dec32 hi) (dec32 v) then hi else v

/-- R327: the channels of one pixel, as FP32 codes. -/
def pixelOf (prof : Bytes) (full ten : Bool) (m : Nat × Nat × Nat × Nat) (Y Cb Cr : Nat) : List Nat :=
  let cr : Nat := if full then (if ten then 1023 else 1020) else 896
  let y := if full then ratio32 Y (if ten then 1023 else 1020) else ratio32 ((Y : Int) - 64) 876
  let cb := ratio32 ((Cb : Int) - 512) cr
  let cr := ratio32 ((Cr : Int) - 512) cr
  let k (x : Nat) : Nat := ratio32 x 1000000
  let neg (v : Nat) : Nat := v + 2 ^ 31
  let cl (lo hi v : Nat) : Nat := if bit (pfB13 prof) 6 then clamp32 lo hi v else v
  let one := 0x3F80_0000
  let half := 0x3F00_0000
  match pfChannels prof with
  | 0 =>
    [cl 0 one (ffma (k m.1) cr y),
     cl 0 one (ffma (neg (k m.2.2.2)) cr (ffma (neg (k m.2.2.1)) cb y)),
     cl 0 one (ffma (k m.2.1) cb y)]
  | 1 => [cl 0 one y, cl (neg half) half cb, cl (neg half) half cr]
  | _ => [cl 0 one y]

/-- R328: channel c's value normalised and converted. -/
def channelOf (prof : Bytes) (c v : Nat) : Nat × Flags :=
  convElem (pfConv prof) (dec32 (enc32 (numMul (numAdd (dec32 v) (numNeg (dec32 (pfMean prof c)))) (dec32 (pfScale prof c)))))

/-! ### Tiles (R329) -/

/-- Element (r, k) of tile (tr, tc) of matrix `c`, as an image coordinate (channel, y, x); `none` for padding. -/
def tileCoord (prof : Bytes) (c tr tc r k : Nat) : Option (Nat × Nat × Nat) :=
  let row := 64 * tr + r
  let col := 64 * tc + k
  if pfPatch prof then
    let ps := pfPs prof
    let per := pfOutW prof / ps
    if row < per * (pfOutH prof / ps) ∧ col < pfC prof * (ps * ps) then
      some (col / (ps * ps), row / per * ps + col % (ps * ps) / ps, row % per * ps + col % ps)
    else none
  else if row < pfOutH prof ∧ col < pfOutW prof then some (c, row, col) else none

/-- The elements of one tile in tile-major order. -/
def tileElems (prof : Bytes) (px : List (List (List Nat))) (pad c tr tc : Nat) : List Nat :=
  ((List.range 64).map (fun r => (List.range 64).map (fun k =>
    match tileCoord prof c tr tc r k with
    | some (ch, y, x) => ((px.getD y []).getD x []).getD ch pad
    | none => pad))).flatten

/-- R329: the frame block of a picture given as rows of pixels of channel codes. -/
def frameBlock (prof : Bytes) (px : List (List (List Nat))) : Bytes :=
  let (nr, nc) := tileGrid prof
  let pad := (convElem (pfConv prof) numZero).1
  let mats := if pfPatch prof then 1 else pfC prof
  ((List.range mats).map (fun c => ((List.range nr).map (fun tr => ((List.range nc).map (fun tc =>
    packElems (fmtBits (pfConv prof / 16)) (tileElems prof px pad c tr tc))).flatten)).flatten)).flatten

/-! ### A sampled frame -/

/-- R323 to R329: a sampled frame of a candidate: its status, its block, and the conversion flags. `neutral` is
the chroma sample of a picture without chroma. -/
def frameOf (prof : Bytes) (codec neutral : Nat) (taps : List (List Int)) (pic : Picture) (c : Cand) :
    Nat × Bytes × Flags :=
  let (cx, cy, cw, ch) := cropOf prof pic.width pic.height
  if pic.width < cx + cw ∨ pic.height < cy + ch ∨ cw = 0 ∨ ch = 0 then (0x0A, [], {})
  else if ¬ (scaleOk cw (pfOutW prof) ∧ scaleOk ch (pfOutH prof)) then (0x09, [], {})
  else
    let plane (p : Plane) : Plane := deint prof pic c (tenBits pic p)
    let xs := (List.range (pfOutW prof)).map (lumaPos cx cw (pfOutW prof))
    let ys := (List.range (pfOutH prof)).map (lumaPos cy ch (pfOutH prof))
    let (dx, dy) := chromaOff (if pfChromaLoc prof = 7 then pic.chromaLoc else pfChromaLoc prof)
    let chroma (p : Plane) : List (List Nat) :=
      if p.isEmpty then ys.map (fun _ => xs.map (fun _ => neutral))
      else scalePlane taps (plane p) (xs.map (fun v => (v - dx) / 2)) (ys.map (fun v => (v - dy) / 2))
        (cx / 2) ((cx + cw - 1) / 2) (cy / 2) ((cy + ch - 1) / 2)
    let L := scalePlane taps (plane pic.luma) xs ys cx (cx + cw - 1) cy (cy + ch - 1)
    let B := chroma pic.cb
    let R := chroma pic.cr
    let full := fullRangeOf prof codec pic
    let m := matrixOf (matrixSel prof pic.matrixCoeffs)
    let px := ((L.zip B).zip R).map (fun r => ((r.1.1.zip r.1.2).zip r.2).map (fun v =>
      (pixelOf prof full pic.tenBit m v.1.1 v.1.2 v.2).zipIdx.map (fun x => channelOf prof x.2 x.1)))
    let fl := px.foldl (fun f r => r.foldl (fun f p => p.foldl (fun f x => flagsOr f x.2) f) f) {}
    (0, frameBlock prof (px.map (fun r => r.map (fun p => p.map (·.1)))), fl)

/-! ### The shuffle permutation (R338) -/

/-- R338: mix, modulo 2^64. -/
def mix64 (z : Nat) : Nat :=
  let z := z % 2 ^ 64
  let z := ((z ^^^ (z >>> 30)) * 0xBF58476D1CE4E5B9) % 2 ^ 64
  let z := ((z ^^^ (z >>> 27)) * 0x94D049BB133111EB) % 2 ^ 64
  z ^^^ (z >>> 31)

/-- Bit length. -/
def bitLength (n : Nat) : Nat := if n = 0 then 0 else Nat.log2 n + 1

/-- Half the width of the permutation's domain. -/
def shufHalf (n : Nat) : Nat := max 2 (ceilDiv (bitLength (n - 1)) 2 * 2) / 2

/-- R338: one pass through the six rounds. -/
def shufPass (n seed x : Nat) : Nat :=
  let h := shufHalf n
  let mask := 2 ^ h
  let (l, r) := (List.range 6).foldl (fun (lr : Nat × Nat) i =>
    (lr.2, lr.1 ^^^ (mix64 (lr.2 ^^^ mix64 (seed + (i + 1) * 0x9E3779B97F4A7C15)) % mask))) (x >>> h, x % mask)
  l <<< h ||| r

/-- R338: the cycle walk, with the number of passes made; at most `fuel` of them. -/
def shufWalk (n seed : Nat) : Nat → Nat → Nat → Nat × Nat
  | 0, k, x => (x, k)
  | f + 1, k, x =>
    let y := shufPass n seed x
    if y < n then (y, k + 1) else shufWalk n seed f (k + 1) y

/-- R338: π(p), and its passes. -/
def shufPi (p n seed : Nat) : Nat × Nat := shufWalk n seed (2 ^ (2 * shufHalf n)) 0 p

end Sys2Proof.Machine
end

