-- ==== Sys2Proof/Machine/MediaJobs.lean ====
section
/-! DEFINITION. The media block's jobs (R312 to R316, R322, R333 to R344): taking entries, ingest jobs on the decode
engines, the shuffle engine, completions and trailers. -/

namespace Sys2Proof.Machine

def medIdx : Nat := 40
def medSrc : Nat := 79

def medJob (s : State) (e : Nat) : Option MedJob := smGet none s.med.jobs e
def setMedJob (s : State) (e : Nat) (j : Option MedJob) : State :=
  { s with med := { s.med with jobs := smSet none s.med.jobs e j } }

/-! ### Entries (R334, R335) -/

def mComp (b : Bytes) : Nat := fieldAt b 120 8
def mCodec (b : Bytes) : Nat := bits (fieldAt b 21 1) 5 2
def mContainer (b : Bytes) : Nat := bits (fieldAt b 21 1) 1 0
def mFrames (b : Bytes) : Nat := fieldAt b 48 2
def mNum (b : Bytes) : Nat := fieldAt b 50 2
def mDen (b : Bytes) : Nat := fieldAt b 52 2
def mProfile (b : Bytes) : Nat := fieldAt b 56 8
def mDst (b : Bytes) : Nat := fieldAt b 64 8
def mStride (b : Bytes) : Nat := fieldAt b 72 4
def mTrailer (b : Bytes) : Nat := fieldAt b 96 8

/-- R286, R334: what any entry must hold. -/
def medCommonBad (b : Bytes) : Bool :=
  eKind b = 0 || decide (3 < eKind b) || fieldAt b 0 4 % 2 ^ 13 ≠ 0 || decide (2 ^ 44 ≤ mComp b)
    || (eSbEn b && decide (23 < eSbCore b))

/-- R30: a fabric address of tensor memory. -/
def fabTensor (a : Nat) : Bool := decide (a < 2 ^ 58) && bits a 45 44 = 0

/-- R335: the check of an INGEST entry. -/
def ingestCheck (b : Bytes) : Nat :=
  let sp := fieldAt b 20 1
  if medCommonBad b ∨ ¬ (sp = 2 ∨ sp = 3 ∨ sp = 4) ∨ 64 ≤ fieldAt b 21 1 ∨ 3 < mCodec b ∨ 1 < mContainer b
      ∨ (mCodec b = 3 ∧ mContainer b ≠ 1) ∨ 2 ^ 13 ≤ fieldAt b 22 2 ∨ (mContainer b = 1 ∧ fieldAt b 22 2 ≠ 0)
      ∨ (mContainer b = 0 ∧ fieldAt b 24 8 ≠ 0) ∨ fieldAt b 36 4 ≠ 0 ∨ 2 ^ 11 ≤ mFrames b
      ∨ 2 ^ 44 ≤ mProfile b ∨ ¬ fabTensor (mDst b) ∨ ¬ fabTensor (mTrailer b) ∨ fieldAt b 76 4 ≠ 0
      ∨ fieldAt b 104 16 ≠ 0 then 0x09
  else if fieldAt b 16 4 = 0 ∨ fieldAt b 24 8 % 32 ≠ 0 ∨ mFrames b = 0 ∨ 1024 < mFrames b ∨ mNum b = 0 ∨ mDen b = 0
      ∨ mDst b % 64 ≠ 0 ∨ mComp b % 8 ≠ 0 then 0x0A
  else 0

/-! ### Coefficient tables (R344) -/

def tapOf (s : State) (t p k : Nat) : Int := signed 12 (fld s (Csr.MED_TAP t p k) 11 0)

def tapsOf (s : State) (t : Nat) : List (List Int) :=
  (List.range 64).map (fun p => (List.range 8).map (tapOf s t p))

/-- MED_STAT.COEF_BAD0 and COEF_BAD1. -/
def coefBad (s : State) (t : Nat) : Bool := (tapsOf s t).any (fun r => decide (r.sum ≠ 1024))

/-! ### Completions (R334, R342) -/

/-- R334: a completion: its word written, then its scoreboard bit and its event; false while the write stalls. -/
def medComplete (s : State) (ring : Nat) (b : Bytes) (r : Report) (count : Nat) : State × Bool :=
  let c := mComp b
  let write : State × Option Nat :=
    if c = 0 ∨ c % 8 ≠ 0 ∨ 2 ^ 44 ≤ c then (s, some 0)
    else ltaWrite s (engKey 11 ring (fieldAt b 4 4)) c (toLE (complWord r count none) 8)
  match write with
  | (s, none) => (s, false)
  | (s, some _) =>
    let s := rlySignal s b
    (if r.status = 0 ∧ ¬ eEvt b then s
     else raise s medSrc r.status (ring <<< 61 + eKind b <<< 56 + r.firstFail <<< 32 + eStep b) r.map, true)

/-! ### Rings (R333) -/

/-- The head entry of ring r: `none` when there is none or its read stalls; an entry whose copy fails is passed
over. -/
def medHead (s : State) (r : Nat) : State × Option Bytes :=
  let sz := Csr.MED_SQ_SIZE r
  let ci := fld s (Csr.MED_SQ_CI r) 16 0
  if ¬ flag s Csr.MED_CTRL 0 ∨ ¬ works s medIdx ∨ ¬ flag s sz 31 ∨ ringCount (fld s (Csr.MED_SQ_PI r) 16 0) ci = 0 then
    (s, none)
  else
    match ringFetch s (engKey 12 r 0) (fld s (Csr.MED_SQ_BASE r) 43 0) (fld s sz 4 0) ci 128 with
    | (s, none) => (s, none)
    | (s, some none) => (ringTaken s (Csr.MED_SQ_CI r), none)
    | (s, some (some b)) => (s, some b)

def medTaken (s : State) (r : Nat) : State := ringTaken s (Csr.MED_SQ_CI r)

/-- The lowest-numbered idle decode engine. -/
def idleEngine (s : State) : Option Nat := (countUp 0 32).find? (fun e => (medJob s e).isNone)

/-! ### Ingest jobs (R316, R320 to R322, R332, R337) -/

/-- Free value k of a job. -/
def medFree (j : MedJob) (k : Nat) : Nat := Config.freeValue (20 + k) j.free

/-- The candidates of a job, and the discontinuities closed. -/
def jobCands (j : MedJob) : List Cand × Nat :=
  let ps := j.clip.pictures
  let pts := unwrapPts (mContainer j.entry = 0) none (ps.map (·.pts))
  let times := picTimes (medFree j 0) none (pts.zip (ps.map (·.duration)))
  closeGaps none 0 (candsOf (pfDeint j.prof = 1) (medFree j 1 % 2 : Nat) 0 ps times)

/-- R322: the target of frame k, times RATE_NUM. -/
def jobTarget (j : MedJob) (cs : List Cand) (k : Nat) : Int :=
  let w := fieldAt j.entry 40 8
  let t0 : Int := if bit w 63 then signed 63 (w % 2 ^ 63) else match cs with | c :: _ => c.tau | [] => 0
  t0 * mNum j.entry + (k * 90000 * mDen j.entry : Nat)

/-- Picture i of the clip is bad. -/
def picBad (j : MedJob) (i : Nat) : Bool := match j.clip.pictures[i]? with | some p => p.bad | none => true

/-- R322, R332: the candidate of frame k and whether it conceals a bad one, or the status the frame ends with. -/
def jobPick (j : MedJob) (cs : List Cand) (k : Nat) : Sum Nat (Cand × Bool) :=
  let num : Int := mNum j.entry
  let t := jobTarget j cs k
  if pastEnd num t cs then
    .inl (if j.clip.outsideLimits then 0x09 else if j.clip.readStatus ≠ 0 then j.clip.readStatus.toNat else 0x0A)
  else
    match pickCand num t cs with
    | none => .inl 0x0A
    | some c =>
      if ¬ picBad j c.pic then .inr (c, false)
      else match holdCand (picBad j) (pfHold j.prof) c cs with
        | some h => .inr (h, true)
        | none => .inl 0x09

/-- R316: the status of an engine's scratch region: 0 while every page of it can be written. -/
def scratchStatus (s : State) (e : Nat) : Nat :=
  let p0 := (fld s Csr.MED_SCRATCH 43 0 + e * 0x10000000) / 2 ^ 18
  let bad := (s.pages.filter (fun x => decide (p0 ≤ x.1) && decide (x.1 < p0 + 1024)))
  if bad.any (fun x => x.2.state = .poison) then 0x03
  else if (bad.filter (fun x => x.2.state ≠ .invalid && x.2.state ≠ .retired)).length < 1024 then 0x0A
  else 0

/-- R315, R330, R331: what decoding a clip counts and raises. -/
def decodeEvents (s : State) (e : Nat) (j : MedJob) : State :=
  let bad := (j.clip.pictures.filter (·.bad)).length
  let s := bumpStat s Csr.MED_DECODED j.clip.pictures.length (some medIdx)
  let s := bumpOcc s Csr.MED_TS_RESYNC (if mContainer j.entry = 0 then j.clip.resyncs else 0)
  let s := bumpOcc s Csr.MED_DISC (jobCands j).2
  let s := bumpOcc s Csr.MED_BAD bad
  let s := if bad = 0 then s else raise s medSrc 0x02 (e <<< 56 + eStep j.entry) (fieldAt j.entry 88 8)
  if j.clip.outsideLimits then
    raise s medSrc 0x03 (e <<< 56 + mCodec j.entry <<< 48 + eStep j.entry) (fieldAt j.entry 88 8)
  else s

/-- INGEST (R335): the head entry starts on an idle engine; a failed one ends whole there. -/
def execIngest (r : Fin 8) (d : Decoded) (s : State) : Out :=
  match medHead s r, idleEngine s with
  | (t, none), _ => .next t
  | (_, some _), none => .next s
  | (t, some b), some e =>
    if eKind b = 2 ∨ eKind b = 3 then .next s
    else
      let whole (t : State) (st : Nat) : State := setMedJob (medTaken t r) e (some { ring := r, entry := b, whole := some st })
      let st := ingestCheck b
      if st ≠ 0 then .next (whole t st)
      else
        match ltaRead t (engKey 13 e 0) (mProfile b) 128 with
        | (t, none) => .next t
        | (t, some (st, p)) =>
          if st ≠ 0 then .next (whole t st)
          else if ¬ profOk p ∨ coefBad t (pfCoef p) then .next (whole t 0x09)
          else if mStride b % 64 ≠ 0 ∨ mStride b < frameBytes p then .next (whole t 0x0A)
          else
            let sc := scratchStatus t e
            let j : MedJob := { ring := r, entry := b, prof := p, clip := d, free := t.freeCtr,
                                parts := List.replicate (mFrames b) (if sc = 0 then none else some sc) }
            let t := setMedJob (medTaken { t with freeCtr := t.freeCtr + 1 } r) e (some j)
            .next (if sc = 0 then decodeEvents t e j else t)

/-- The first frame of a job that has not ended. -/
def nextFrame (l : List (Option Nat)) : Option Nat := (countUp 0 l.length).find? (fun k => l[k]? = some none)

/-- INGEST_FRAME (R322 to R329): the next frame of an engine's job. `ext` is what another module answers to its
write. -/
def execIngestFrame (e : Fin 32) (ext : Ext) (s : State) : Out :=
  match medJob s e with
  | none => .next s
  | some j =>
    match (if works s medIdx ∧ j.whole.isNone then nextFrame j.parts else none) with
    | none => .next s
    | some k =>
      let finish (s : State) (st : Nat) (hidden : Bool) : State :=
        setMedJob s e (some { j with parts := j.parts.set k (some st), conceal := j.conceal + (if hidden && decide (st = 0) then 1 else 0) })
      match jobPick j (jobCands j).1 k with
      | .inl st => .next (finish s st false)
      | .inr (c, hidden) =>
        match j.clip.pictures[c.pic]? with
        | none => .next (finish s 0x0A false)
        | some pic =>
          let (st, blk, fl) := frameOf j.prof (mCodec j.entry) (medFree j 2 % 1024) (tapsOf s (pfCoef j.prof)) pic c
          if st ≠ 0 then .next (finish s st false)
          else
            let done (s : State) (st : Nat) : State :=
              let s := wr s Csr.MED_CONV_FLAGS (rd s Csr.MED_CONV_FLAGS ||| flagsNat fl % 8)
              let s := if st = 0 then bumpStat s Csr.MED_FRAMES 1 (some medIdx) else s
              let s := if hidden ∧ st = 0 then bumpOcc s Csr.MED_CONCEAL 1 else s
              finish s st hidden
            if bits (mDst j.entry) 57 46 ≠ selfDev s then .next (done s ext.status.toNat)
            else
              match ltaWrite s (engKey 13 e 1) (mDst j.entry % 2 ^ 44 + k * mStride j.entry) blk with
              | (s, none) => .next s
              | (s, some st) => .next (done s st)

/-- R337: a sample trailer. -/
def trailerBytes (s : State) (b : Bytes) (r : Report) : Bytes :=
  bytesAt b 80 16 ++ bytesAt b 4 4 ++ toLE r.status 1 ++ toLE r.firstFail 1 ++ toLE r.pfx 2 ++ toLE r.map 8
    ++ toLE (selfDev s) 2 ++ toLE 0 30

/-- INGEST_JOB_DONE (R337): a job whose frames have ended writes its trailer, then completes. -/
def execIngestJobDone (e : Fin 32) (_ext : Ext) (s : State) : Out :=
  match medJob s e with
  | none => .next s
  | some j =>
    if ¬ (awake s ∧ ¬ inResetBit s medIdx) ∨ (j.whole.isNone ∧ ¬ j.parts.all (·.isSome)) then .next s
    else
      let r := match j.whole with
        | some st => wholeReport st
        | none => partReport (j.parts.map (fun p => p.getD 0))
      let a := mTrailer j.entry
      let local_ := decide (eKind j.entry = 1) && decide (a ≠ 0) && fabTensor a && decide (bits a 57 46 = selfDev s)
      let wrote : State × Bool :=
        if local_ then
          match ltaWrite s (engKey 13 e 2) (a % 2 ^ 44) (trailerBytes s j.entry r) with
          | (s, none) => (s, false)
          | (s, some _) => (s, true)
        else (s, true)
      match wrote with
      | (s, false) => .next s
      | (s, true) =>
        match medComplete s j.ring j.entry r j.conceal with
        | (s, false) => .next s
        | (s, true) => .next (setMedJob s e none)

/-! ### CANCEL (R334) -/

/-- The frames of a job of the cancelled STEP that have not ended end with CANCELLED. -/
def cancelJob (step : Nat) (j : MedJob) : MedJob :=
  if eStep j.entry = step then { j with parts := j.parts.map (fun p => some (p.getD 0x0E)) } else j

/-- MED_CANCEL (R334). -/
def execMedCancel (r : Fin 8) (s : State) : Out :=
  match medHead s r with
  | (t, none) => .next t
  | (t, some b) =>
    if eKind b ≠ 3 then .next s
    else
      let st := if medCommonBad b then 0x09 else if mComp b % 8 ≠ 0 then 0x0A else 0
      match medComplete t r b (wholeReport st) 0 with
      | (t, false) => .next t
      | (t, true) =>
        let t := medTaken t r
        if st ≠ 0 then .next t
        else
          .next { t with med := { jobs := t.med.jobs.map (fun x => (x.1, x.2.map (cancelJob (eStep b)))),
                                  shuf := t.med.shuf.map (fun x =>
                                    if eStep x.entry = eStep b then { x with stopped := true } else x) } }

/-! ### The shuffle engine (R338 to R341) -/

def zSeed (b : Bytes) : Nat := fieldAt b 8 8
def zN (b : Bytes) : Nat := fieldAt b 16 8
def zBatch (b : Bytes) : Nat := fieldAt b 24 4
def zEstep (b : Bytes) : Nat := fieldAt b 28 4
def zFirst (b : Bytes) : Nat := fieldAt b 32 8
def zCount (b : Bytes) : Nat := fieldAt b 40 8
def zDir (b : Bytes) : Nat := fieldAt b 48 8
def zM (b : Bytes) : Nat := fieldAt b 56 2
def zRing (b : Bytes) : Nat := fieldAt b 58 1
def zDepth (b : Bytes) : Nat := fieldAt b 59 1
def zRanks (b : Bytes) : Nat := fieldAt b 64 8
def zDst (b : Bytes) : Nat := fieldAt b 72 8
def zBytes (b : Bytes) : Nat := fieldAt b 80 4
def zTemplate (b : Bytes) : Nat := fieldAt b 88 8
def zTrailer (b : Bytes) : Nat := fieldAt b 96 8

/-- R340: the check of a SHUF entry. -/
def shufCheck (s : State) (b : Bytes) : Nat :=
  if medCommonBad b ∨ zN b = 0 ∨ zBatch b = 0 ∨ zM b = 0 ∨ 4096 < zM b ∨ zBatch b % zM b ≠ 0 ∨ zDepth b = 0 ∨ 8 ≤ zRing b
      ∨ ¬ flag s (Csr.MED_SQ_SIZE (zRing b)) 31 ∨ fieldAt b 60 4 ≠ 0 ∨ fieldAt b 84 4 ≠ 0 ∨ fieldAt b 104 16 ≠ 0
      ∨ 2 ^ 44 ≤ zDir b ∨ 2 ^ 44 ≤ zRanks b ∨ 2 ^ 44 ≤ zDst b ∨ 2 ^ 44 ≤ zTemplate b ∨ 2 ^ 44 ≤ zTrailer b then 0x09
  else if zN b / zBatch b ≤ zEstep b ∨ zBytes b % 64 ≠ 0 ∨ mComp b % 8 ≠ 0 then 0x0A
  else 0

/-- SHUF (R341): the head entry starts on the idle shuffle engine. -/
def execShuf (r : Fin 8) (s : State) : Out :=
  match medHead s r, s.med.shuf with
  | (t, none), _ => .next t
  | (_, some _), some _ => .next s
  | (t, some b), none =>
    if eKind b ≠ 2 then .next s
    else
      let start (t : State) (x : ShufJob) : State := { medTaken t r with med := { t.med with shuf := some x } }
      let st := shufCheck t b
      if st ≠ 0 then .next (start t { ring := r, entry := b, whole := some st })
      else
        match ltaRead t (engKey 14 0 0) (zTemplate b) 128 with
        | (t, none) => .next t
        | (t, some (st, tp)) =>
          if st ≠ 0 then .next (start t { ring := r, entry := b, whole := some st })
          else
            match ltaRead t (engKey 14 0 1) (zRanks b) (2 * zM b) with
            | (t, none) => .next t
            | (t, some (st, rk)) =>
              if st ≠ 0 then .next (start t { ring := r, entry := b, whole := some st })
              else .next (start t { ring := r, entry := b, template := tp, ranks := rk })

/-- R341: the next slot from `q` on whose sample this module holds, its sample, and the passes evaluated. -/
def nextHeld (b : Bytes) : Nat → Nat → Nat → Option (Nat × Nat) × Nat
  | 0, _, k => (none, k)
  | f + 1, q, k =>
    let (i, n) := shufPi (zEstep b * zBatch b + q) (zN b) (zSeed b)
    if zFirst b ≤ i ∧ i < zFirst b + zCount b then (some (q, i), k + n) else nextHeld b f (q + 1) (k + n)

/-- R341: the generated job of slot q, sample i, from the sample's directory bytes. -/
def shufEntry (x : ShufJob) (q i : Nat) (dir : Bytes) : Bytes :=
  let b := x.entry
  let z := eStep b % zDepth b * (zBatch b / zM b) + q / zM b
  let dev := fieldAt x.ranks (2 * (q % zM b)) 2 % 4096
  bytesAt x.template 0 4 ++ bytesAt b 4 4 ++ bytesAt dir 0 40 ++ bytesAt x.template 48 16
    ++ toLE (dev <<< 46 + zDst b + z * zBytes b) 8 ++ bytesAt x.template 72 8
    ++ toLE (zEstep b * zBatch b + q) 8 ++ toLE i 8 ++ toLE (dev <<< 46 + zTrailer b + 64 * z) 8
    ++ bytesAt x.template 104 16 ++ toLE 0 8

/-- The shuffle job completes: as its parts ended, or as it ended early. -/
def shufFinish (s : State) (x : ShufJob) : State :=
  let r := match x.whole with
    | some st => wholeReport st
    | none =>
      if x.stopped then
        (if x.parts.any (· = 0) then { partReport x.parts with status := 0x01, firstFail := 0x0E } else wholeReport 0x0E)
      else partReport x.parts
  match medComplete s x.ring x.entry r (x.parts.filter (· = 0)).length with
  | (s, false) => s
  | (s, true) => { s with med := { s.med with shuf := none } }

/-- SHUF_JOB_GENERATE (R341): the next held sample's job is written to OUT_RING once the ring has room; with no
slot left the job completes. -/
def execShufJobGenerate (s : State) : Out :=
  match s.med.shuf with
  | none => .next s
  | some x =>
    if ¬ works s medIdx then .next s
    else if x.whole.isSome ∨ x.stopped then .next (shufFinish s x)
    else
      let b := x.entry
      match nextHeld b (zBatch b - x.q) x.q 0 with
      | (none, n) =>
        let x := { x with q := zBatch b }
        let s := bumpStat s Csr.MED_SHUF_EVAL n (some medIdx)
        .next (shufFinish { s with med := { s.med with shuf := some x } } x)
      | (some (q, i), n) =>
        let o := zRing b
        let pi := fld s (Csr.MED_SQ_PI o) 16 0
        let lg := fld s (Csr.MED_SQ_SIZE o) 4 0
        let step (s : State) (st : Nat) : State :=
          let s := bumpStat s Csr.MED_SHUF_EVAL n (some medIdx)
          { s with med := { s.med with shuf := some { x with q := q + 1, parts := x.parts ++ [st] } } }
        match ltaRead s (engKey 14 0 2) (zDir b + 64 * (i - zFirst b)) 64 with
        | (s, none) => .next s
        | (s', some (st, dir)) =>
          if st ≠ 0 then .next (step s' st)
          else if 2 ^ lg ≤ ringCount pi (fld s (Csr.MED_SQ_CI o) 16 0) then .next s
          else
            match ltaWrite s' (engKey 14 0 3) (fld s (Csr.MED_SQ_BASE o) 43 0 + 128 * (pi % 2 ^ lg)) (shufEntry x q i dir) with
            | (s, none) => .next s
            | (s, some st) => .next (step (if st = 0 then setFld s (Csr.MED_SQ_PI o) 16 0 (pi + 1) else s) st)

/-! ### Register effects and reset -/

/-- Effect of MED_SQ_PI (R333). -/
def medSqPi (s : State) (ini : Initiator) (r v : Nat) : State :=
  ringPush s ini (Csr.MED_SQ_PI r) (Csr.MED_SQ_CI r) (fld s (Csr.MED_SQ_SIZE r) 4 0) v

/-- A reset that reaches MED ends every job (R342). -/
def medReset (s : State) : State := { s with med := {} }

end Sys2Proof.Machine
end

