-- ==== Sys2Proof/Machine/Reset.lean ====
section
/-! DEFINITION. The reset controller (R500 to R515): what a reset does to the state it reaches, sources, episodes, the
exit sequence with straps and fuses (R470 to R476), and block resets. -/

namespace Sys2Proof.Machine

/-- Blocks whose quiesce nobody asks for any longer are no longer quiet. -/
def trimQuiet (s : State) : State := { s with quiet := s.quiet &&& quiesceWanted s }

/-! ### What a reset reaches (R500, R505) -/

/-- R500: blocks of a reach, 0 COLD, 1 WARM, 2 CORE, as reset bits. -/
def reachMask (r : Nat) : Nat := if r = 2 then 2 ^ 41 - 1 else 0x01FF_0FFF_FFFF_FFFF

/-- The reset bit of the unit whose register lies at `a`; the registers of CPp go with CPp. RST has none. -/
def addrBit (a : Nat) : Option Nat :=
  match blkOf a with
  | some .cpx => if 0x7001000 ≤ a ∧ a < 0x7001400 then some (48 + (a - 0x7001000) / 0x100) else some 55
  | some b => b.rstBit
  | none => none

/-- A register lies in a unit that a mask of reset bits names. -/
def addrIn (mask a : Nat) : Bool := match addrBit a with | some b => bit mask b | none => false

/-- R46, R473, R475, R505: the registers of which every field outlives all but a cold reset. -/
def keptReg : Reg → Bool
  | .FSC_LAYOUT | .PLC_TABLE | .GLB_GEN | .HLK_HEPOCH | .FABC_PHYS | .BOOT_FUSE | .SEC_ROOT_HASH | .SEC_OWNER
  | .SEC_OWNER_STAT | .SEC_DEVPUB => true
  | _ => false

/-- R505, R12: a field that outlives all but a cold reset: a sticky one, or one that the table names. -/
def keptField (r : Reg) (f : Field) : Bool :=
  keptReg r || decide (f.acc = .rws) ||
    (match r with
     | .HLK_SESSION => decide (f.lo = 16)
     | .BOOT_STAT => decide (f.lo = 24)
     | .BOOT_SVN => decide (f.lo = 8)
     | _ => false)

/-- A register's value after a reset that is not cold. -/
def warmValue (a v : Nat) : Nat :=
  match regAt a with
  | none => v
  | some r => r.row.fields.foldl (fun x f => if keptField r.row.reg f then setBits x f.hi f.lo (bits v f.hi f.lo) else x) (resetValue r)

/-- Every listed register of the units in a mask, after a reset. -/
def resetMap (mask : Nat) (cold : Bool) : SMap W64 → SMap W64
  | [] => []
  | (a, v) :: m =>
    if addrIn mask a then
      let w := BitVec.ofNat 64 (warmValue a v.toNat)
      if cold ∨ w = csrReset a then resetMap mask cold m else (a, w) :: resetMap mask cold m
    else (a, v) :: resetMap mask cold m

/-- R46: the shadow copies: only those that outlive the reset stay. -/
def resetShadow (mask : Nat) (cold : Bool) (m : SMap W64) : SMap W64 :=
  m.filter (fun e => !addrIn mask e.1 || (!cold && (match regAt e.1 with | some r => keptReg r.row.reg | none => false)))

/-- R9, R10, R46: registers, shadows, held and latched words and dirty bits of the units in a mask. -/
def resetRegs (s : State) (mask : Nat) (cold : Bool) : State :=
  let s := { s with csr := resetMap mask cold s.csr, shadow := resetShadow mask cold s.shadow,
                    heldLow := s.heldLow.filter (fun e => !addrIn mask (e.1 % 2 ^ 32)),
                    latchHigh := s.latchHigh.filter (fun e => !addrIn mask (e.1 % 2 ^ 32)),
                    heldWrites := s.heldWrites.filter (fun h => !addrIn mask h.addr),
                    coreHeld := s.coreHeld.filter (fun h => !addrIn mask h.addr),
                    quiet := without64 s.quiet mask }
  let s := wr s Csr.GLB_SHADOW_DIRTY (without64 (rd s Csr.GLB_SHADOW_DIRTY) mask)
  if bit mask 53 ∧ ¬ cold then setFld s Csr.BOOT_STAT 23 20 (fld s Csr.BOOT_STAT 27 24) else s

/-- The Ephemeris transfers that a streamer holds. -/
def strmEphs (v : Strm) : List (Nat × Nat) :=
  v.queue.filterMap (fun e => match e with | .desc _ x => x | .push _ => none)
    ++ v.prog.filterMap (fun p => match p.2 with | some g => g.eph | none => none)

/-- R86, R505: a reset reaches the cores of a quadrant. Ephemeris transfers in their streamers end. -/
def coresReset (s : State) (q : Nat) : State :=
  let own (o : HostOwner) : HostOwner := match o with
    | .strm c t d p => if c / 24 = q then .none else .strm c t d p
    | o => o
  let s := setHlk s { s.hlk with jrnl := s.hlk.jrnl.map (fun j => { j with owner := own j.owner }) }
  (countUp (24 * q) 24).foldl (fun s c =>
    let es := (smGet {} s.cores c).strm.flatMap (fun v => strmEphs v.2)
    { s with cores := smDel s.cores c, ephResults := s.ephResults ++ es.map (fun e => (e.1, e.2, 0x08)) }) s

/-- A streamer that no longer serves a plan. -/
def stripEph (v : Strm) : Strm :=
  { queue := v.queue.map (fun e => match e with | .desc b _ => .desc b none | e => e),
    prog := v.prog.map (fun p => (p.1, p.2.map (fun g => { g with eph := none }))) }

/-- R505, R211: the placement engine forgets its plans; descriptors they have pushed go on. -/
def stripPlans (s : State) : State :=
  { s with cores := s.cores.map (fun c => (c.1, { c.2 with strm := c.2.strm.map (fun v => (v.1, stripEph v.2)) })) }

/-- R517, R530, R534: a reset of PWR. Supplies, latches of the Dome and LAST_STATE stay, except in a cold reset. -/
def pwrReset (s : State) (cold : Bool) : State :=
  let p := s.pwr
  { s with pwr := { state := if p.state = 4 ∧ ¬ p.railEn then 4 else 0, lastState := if cold then 0 else p.lastState,
                    wakePin := p.wakePin, railEn := p.railEn, vstby := p.vstby, shutHold := p.shutHold, smbus := p.smbus } }

/-- R531: a reset that reaches an off domain wakes it; Idle and a thermal trip go on holding theirs. -/
def domReset (s : State) (mask : Nat) : State :=
  let held := if s.pwr.state = 1 ∨ s.pwr.trip then 0xF else 0
  { s with pwr := { s.pwr with off := without64 s.pwr.off mask ||| (s.pwr.off &&& held),
                               domWaking := without64 s.pwr.domWaking mask } }

/-- BOOT and SEC: what the flash and the fuses hold stays; the loaded seed goes with a cold reset alone. -/
def bootReset (s : State) (cold : Bool) : State :=
  { s with boot := { blown := s.boot.blown, flash := s.boot.flash, seed := if cold then 0 else s.boot.seed } }

/-- The state with `f` applied when bit `b` of the mask is set. -/
def onBit (mask b : Nat) (f : State → State) (s : State) : State := if bit mask b then f s else s

/-- The state with `f` applied to each of `n` units whose reset bits start at `b`. -/
def onBits (mask b n : Nat) (f : State → Nat → State) (s : State) : State :=
  (countUp 0 n).foldl (fun s i => if bit mask (b + i) then f s i else s) s

/-- R505: a reset reaches the units of a mask. -/
def doReset (s : State) (mask : Nat) (cold : Bool) : State :=
  let s := onBits mask 0 4 coresReset s
  let s := onBits mask 4 20 (fun s i => stkReset s i cold) s
  let s := onBit mask 24 (fun s => plcReset (stripPlans s) cold) s
  let s := onBits mask 4 12 (fun s i => (countUp (4 * i) 4).foldl (fun s n => nbuReset s n cold) s) s
  let s := onBit mask 25 rlyReset s
  let s := onBit mask 39 hlkReset s
  let s := onBits mask 26 12 portReset s
  let s := onBit mask 38 fabcReset s
  let s := onBit mask 40 medReset s
  let s := onBit mask 41 evtReset s
  let s := onBit mask 42 (fun s => pwrReset s cold) (domReset s mask)
  let s := onBits mask 48 4 hartReset s
  let s := onBits mask 0 4 (fun s q => hartReset s (4 + q)) s
  let s := onBit mask 52 (fun s => { s with commit := none, heldWrites := [] }) s
  let s := onBit mask 53 (fun s => bootReset s cold) s
  let s := resetRegs s mask cold
  if cold then { s with stamp := 0 } else s

/-! ### The Dome (R501, R505) -/

/-- R505, R515: POWER_ON resets RST, AON (but for AON_STBY, R565), the filters and the Dome's record buffer. -/
def porReset (s : State) : State :=
  let keep := rd s Csr.AON_STBY
  let inDome (a : Nat) : Bool := match blkOf a with | some .rst => true | some .aon => true | _ => false
  let s := { s with csr := s.csr.filter (fun e => !inDome e.1), shadow := s.shadow.filter (fun e => !inDome e.1),
                    heldLow := s.heldLow.filter (fun e => !inDome (e.1 % 2 ^ 32)),
                    latchHigh := s.latchHigh.filter (fun e => !inDome (e.1 % 2 ^ 32)),
                    evt := { s.evt with dome := [], lines := [], linesFresh := countUp 0 8 },
                    pwr := { s.pwr with wakePin := false },
                    rst := { railsLow := s.rst.railsLow, domeValid := s.rst.domeValid } }
  wr s Csr.AON_STBY keep

/-! ### Sources and episodes (R501, R506, R507) -/

/-- RST_CAUSE bit of a source. -/
def srcBit : RstSource → Nat
  | .powerOn => 0 | .brownout => 1 | .pin => 2 | .watchdog => 3 | .software => 4 | .debug => 5 | .clock => 6 | .lockup => 7

def reachCode : Reach → Nat
  | .cold => 0 | .warm => 1 | .core => 2

/-- R501: the reach of a request from a processor; CP0 to CP3 take WARM in place of CORE. -/
def hartReach (s : State) (hi lo : Nat) (hart : Option Nat) : Nat :=
  let r := fld s Csr.RST_CFG hi lo
  match hart with
  | some p => if p < 4 ∧ r = 2 then 1 else r
  | none => r

/-- R501: the reach of a source; `asked` is what its request named. -/
def srcReach (s : State) (src : RstSource) (asked : Nat) (hart : Option Nat) : Nat :=
  match src with
  | .powerOn | .brownout => 0
  | .pin => fld s Csr.RST_CFG 1 0
  | .watchdog => hartReach s 3 2 hart
  | .lockup => hartReach s 5 4 hart
  | .software | .debug => asked
  | .clock => 1

/-- R505, R506, R513: the reset of a reach: its blocks enter reset, and idle requests are withdrawn. A requested block
reset stands when the reach is CORE. -/
def enterReach (s : State) (r : Nat) : State :=
  let m := reachMask r
  let x := s.rst
  let s := { s with rst := { x with dev := x.dev ||| m, idle := 0, exiting := without64 x.exiting m,
                                    blk := if r = 2 then x.blk ||| (x.idle &&& m) else 0 } }
  let s := doReset (trimQuiet s) m (r == 0)
  let s := if r = 2 then s else wr s Csr.RST_BLK_REQ 0
  if r = 0 then wr s Csr.RST_CFG (csrReset Csr.RST_CFG).toNat else s

/-- R506, R507: source number b asserts with a reach. -/
def assertSrc (s : State) (b r : Nat) (hart : Option Nat) : State :=
  let s := if b = 0 ∧ ¬ bit s.rst.asserted 0 then porReset s else s
  let x := s.rst
  let fresh := !x.episode
  let r' := if x.episode then min x.epReach r else if x.wakeExit then min 1 r else r
  let again := x.phase ≠ .none
  let s := { s with rst := { x with asserted := x.asserted ||| 1 <<< b, episode := true, epReach := r',
                                    epSources := (if fresh then 0 else x.epSources) ||| 1 <<< b,
                                    epHart := (if fresh then none else x.epHart) <|> hart, phase := .none,
                                    wakeExit := false, sets := 0, loads := 0 } }
  if fresh ∨ again ∨ r' < x.epReach then enterReach s r' else s

/-- R508, R509: the exit sequence begins. -/
def startExit (s : State) : State :=
  let x := s.rst
  let s := wr s Csr.RST_CAUSE (rd s Csr.RST_CAUSE ||| x.epSources)
  let s := wr s Csr.RST_LAST (x.epReach <<< 24 + x.epHart.getD 0xF <<< 16 + x.epSources <<< 8)
  let s := bumpOcc s Csr.RST_COUNT 1
  { s with rst := { x with phase := if x.epReach = 0 then .strap else if x.epReach = 1 then .fuse else .release,
                           sets := 0, loads := 0 } }

/-- R507: source number b is released. -/
def releaseSrc (s : State) (b : Nat) : State :=
  if bit s.rst.asserted b then
    let s := { s with rst := { s.rst with asserted := without64 s.rst.asserted (1 <<< b) } }
    if s.rst.asserted = 0 ∧ s.rst.episode ∧ s.rst.phase = .none then startExit s else s
  else s

/-- BROWNOUT follows its condition (R501). -/
def brownoutLevel (s : State) : State :=
  let c := s.rst.domeValid ∧ s.rst.railsLow ≠ 0
  if c ∧ ¬ bit s.rst.asserted 1 then assertSrc s 1 0 none else if ¬ c then releaseSrc s 1 else s

/-- CLOCK follows its condition (R502). -/
def clockLevel (s : State) : State :=
  let c := s.rst.refFail || s.rst.pllFail
  if c ∧ ¬ bit s.rst.asserted 6 then assertSrc s 6 1 none else if ¬ c then releaseSrc s 6 else s

def railIndex : Rail → Nat
  | .dome => 0 | .vio => 1 | .vdd q => 2 + q.val | .s => 6 | .sram => 7 | .stk => 8 | .vpp => 9 | .ser => 10 | .ser2 => 11

/-- R560: a rail that PWR has removed in Deep sleep is not monitored. -/
def railWatched (s : State) : Rail → Bool
  | .vdd _ | .s | .ser | .ser2 => decide (s.pwr.state ≠ 3)
  | _ => true

/-- RAIL_THRESHOLD (R501). The release of POWER_ON waits for its hold. -/
def execRailThreshold (r : Rail) (good : Bool) (s : State) : Out :=
  match r with
  | .dome =>
    if good = s.rst.domeValid then .next s
    else
      let s := { s with rst := { s.rst with domeValid := good } }
      .next (brownoutLevel (if good then s else assertSrc s 0 0 none))
  | r =>
    if railWatched s r then
      let m := s.rst.railsLow
      let m := if good then without64 m (1 <<< railIndex r) else m ||| 1 <<< railIndex r
      .next (brownoutLevel { s with rst := { s.rst with railsLow := m } })
    else .next s

/-- POWER_ON_HOLD_END (R501): the Dome supply has been valid for 4,096 ACLK. -/
def execPowerOnHoldEnd (s : State) : Out := if s.rst.domeValid then .next (releaseSrc s 0) else .next s

/-- RESET_PIN_ACCEPT (R504). -/
def execResetPinAccept (high : Bool) (s : State) : Out :=
  if ¬ s.rst.domeValid then .next s
  else
    let s := { s with rst := { s.rst with pinHigh := high } }
    if high then .next (releaseSrc s 2)
    else if bit s.rst.asserted 2 then .next s
    else .next (assertSrc s 2 (srcReach s .pin 0 none) none)

/-- CLOCK_MONITOR_WINDOW (R502). -/
def execClockMonitorWindow (edges : Nat) (s : State) : Out :=
  if ¬ s.rst.domeValid then .next s
  else if 973 ≤ edges ∧ edges ≤ 1075 then
    let n := min 4 (s.rst.goodWindows + 1)
    let x := { s.rst with goodWindows := n }
    .next (clockLevel { s with rst := if n = 4 then { x with refFail := false, pllFail := false } else x })
  else .next (clockLevel { s with rst := { s.rst with goodWindows := 0, refFail := true } })

/-- PLL_LOSS_OF_LOCK (R502): not while CLK is in reset or relocking. -/
def execPllLossOfLock (s : State) : Out :=
  if s.rst.domeValid ∧ ¬ inResetBit s 43 ∧ s.pwr.state < 3 then
    .next (clockLevel { s with rst := { s.rst with goodWindows := 0, pllFail := true } })
  else .next s

/-- The condition of a level source holds; a pulse source fires when asked. -/
def srcHolds (s : State) : RstSource → Bool
  | .powerOn => !s.rst.domeValid
  | .brownout => s.rst.domeValid && decide (s.rst.railsLow ≠ 0)
  | .pin => !s.rst.pinHigh
  | .clock => s.rst.refFail || s.rst.pllFail
  | _ => true

/-- R501: sources whose requests come as pulses. -/
def srcPulse : RstSource → Bool
  | .watchdog | .software | .debug | .lockup => true
  | _ => false

/-- RESET_SOURCE_ASSERT (R506). -/
def execResetSourceAssert (src : RstSource) (reach : Reach) (hart : Option (Fin 8)) (s : State) : Out :=
  let h := hart.map (·.val)
  if srcHolds s src ∧ ¬ (src = .debug ∧ reach = .cold) then
    .next (assertSrc s (srcBit src) (srcReach s src (reachCode reach) h) (if src = .watchdog ∨ src = .lockup then h else none))
  else .next s

/-- RESET_SOURCE_RELEASE (R507). -/
def execResetSourceRelease (src : RstSource) (s : State) : Out :=
  if srcPulse src ∨ ¬ srcHolds s src ∧ src ≠ .powerOn then .next (releaseSrc s (srcBit src)) else .next s

/-- R503: RST_SWREQ and RST_DBGREQ. -/
def swreqEff (s : State) (ini : Initiator) (v : Nat) : State :=
  let r := v % 4
  if bits v 31 16 = 0xA5C3 ∧ r ≤ 2 then assertSrc s 4 r none else violation s 3 true ini Csr.RST_SWREQ

def dbgreqEff (s : State) (ini : Initiator) (v : Nat) : State :=
  let r := v % 4
  if iniClass ini ≠ 4 ∨ ¬ flag s Csr.SEC_STAT 3 then violation s 1 true ini Csr.RST_DBGREQ
  else if bits v 31 16 = 0xA5C3 ∧ 1 ≤ r ∧ r ≤ 2 then assertSrc s 5 r none
  else violation s 3 true ini Csr.RST_DBGREQ

/-- WDT_EXPIRE (R449). -/
def execWdtExpire (p : Fin 8) (s : State) : Out :=
  if procUp s p ∧ wdtRuns s p then
    if flag s (Csr.PROC_WDT_STAT p) 31 then .next (assertSrc s 3 (hartReach s 3 2 (some p.val)) (some p.val))
    else
      let s := setFlag s (Csr.PROC_WDT_STAT p) 31 true
      .next (wdtLoad (raise s (procSrc p) 0x01 (hartOf s p).pc 0) p)
  else .next s

/-- R448: a processor locks up. -/
def lockup (s : State) (p pc cause : Nat) : State :=
  let s := setHart s p { hartOf s p with st := .lockup }
  let s := raise s (procSrc p) 0x02 pc cause
  if flag s (Csr.PROC_CTRL p) 3 then assertSrc s 7 (hartReach s 5 4 (some p)) (some p) else s

/-! ### Exit sequence (R509, R470 to R476) -/

/-- The mode in force changes with the latched mode. -/
def setMode (s : State) (m : Nat) : State := setFld (setFld s Csr.BOOT_STAT 27 24 m) Csr.BOOT_STAT 23 20 m

/-- STRAP_READ_DONE (R470): one set of eight samples. -/
def execStrapReadDone (codes : List Byte) (s : State) : Out :=
  if s.rst.phase = .strap ∧ codes.length = 8 then
    let bands := codes.map (fun c => c.toNat / 16)
    let last := (codes.getLast?.getD 0).toNat
    let s := wr s Csr.BOOT_STRAP ((last / 16) <<< 8 + last)
    let n := s.rst.sets + 1
    if bands.all (· == bands.headD 0) then .next { setMode s (bands.headD 0) with rst := { s.rst with phase := .fuse, sets := n } }
    else if 4 ≤ n then
      .next { setFlag (setMode s 0xF) Csr.BOOT_STAT 7 true with rst := { s.rst with phase := .fuse, sets := n } }
    else .next { s with rst := { s.rst with sets := n } }
  else .next s

/-- One bit of a reflected CRC-32C. -/
def crcBit (c : Nat) : Nat := if c % 2 = 1 then (c / 2) ^^^ 0x82F63B78 else c / 2

def crcByte (c : Nat) (b : Byte) : Nat :=
  crcBit (crcBit (crcBit (crcBit (crcBit (crcBit (crcBit (crcBit (c ^^^ b.toNat))))))))

/-- R351: CRC-32C. -/
def crc32c (bs : Bytes) : Nat := bs.foldl crcByte 0xFFFF_FFFF ^^^ 0xFFFF_FFFF

/-- The number of set bits below bit n. -/
def popcount (v : Nat) : Nat → Nat
  | 0 => 0
  | n + 1 => popcount v n + (if bit v n then 1 else 0)

/-- R472: a fuse word as it reads: the array as loaded with what the module's own commands have blown. -/
def fuseWord (s : State) (ws : List W32) (i : Nat) : Nat := ((ws[i]?.getD 0) ||| smGet 0 s.boot.blown i).toNat

/-- R472: a security word: blown in either copy. -/
def secWord (s : State) (ws : List W32) (i : Nat) : Nat := fuseWord s ws i ||| fuseWord s ws (128 + i)

/-- `n` security words as one number, the first lowest. -/
def secWords (s : State) (ws : List W32) (i : Nat) : Nat → Nat
  | 0 => 0
  | n + 1 => secWord s ws i + 2 ^ 32 * secWords s ws (i + 1) n

/-- A number written into consecutive 32-bit registers. -/
def wrWords (s : State) (a v : Nat) : Nat → State
  | 0 => s
  | n + 1 => wrWords (wr s a (v % 2 ^ 32)) (a + 4) (v / 2 ^ 32) n

/-- Consecutive 32-bit registers as one number. -/
def rdWords (s : State) (a : Nat) : Nat → Nat
  | 0 => 0
  | n + 1 => rd s a + 2 ^ 32 * rdWords s (a + 4) n

def lifecycle (s : State) : Nat := fld s Csr.BOOT_FUSE 3 0

/-- R496: debug is open to JTAG. -/
def debugOpens (s : State) : Bool :=
  let l := lifecycle s
  let m := fld s Csr.BOOT_STAT 23 20
  decide (l ≤ 1) || (decide (l = 2) && (decide (m = 0xD) || decide (m = 0xE)) && flag s Csr.BOOT_FUSE 4)

/-- R474, R496: DEBUG_OPEN and KEY_OK as lifecycle, mode and fuse load give them. -/
def showKey (s : State) : State :=
  let o := debugOpens s
  let l := lifecycle s
  let ok := !flag s Csr.BOOT_STAT 6 && decide (l ≤ 2) && !(decide (l = 2) && o)
  setFlag (setFlag s Csr.SEC_STAT 3 o) Csr.SEC_STAT 2 ok

/-- R472, R473: the loaded words become the active values. -/
def fuseCommit (s : State) (ws : List W32) : State :=
  let w2 := secWord s ws 2
  let owner (t : Nat) : Nat := secWords s ws (17 + 12 * t) 12
  let programmed := (countUp 0 4).foldl (fun m t => if owner t = 0 then m else m ||| 1 <<< t) 0
  let seed := secWords s ws 65 12
  let s := wr s Csr.FABC_PHYS (secWords s ws 0 2)
  let s := wr s Csr.BOOT_FUSE ((if bit w2 3 then 16 else 0) + popcount w2 3)
  let s := setFld s Csr.BOOT_SVN 15 8 (popcount (secWords s ws 3 2) 64)
  let s := wrWords s (Csr.SEC_ROOT_HASH 0) (secWords s ws 5 12) 12
  let s := (countUp 0 4).foldl (fun s t => wrWords s (Csr.SEC_OWNER t 0) (owner t) 12) s
  let s := wr s Csr.SEC_OWNER_STAT (bits w2 7 4 <<< 4 + programmed)
  let s := wrWords s (Csr.SEC_DEVPUB 0) (fromLE (bytesAt (Config.devPub seed) 0 97)) 25
  { s with boot := { s.boot with seed := seed } }

/-- FUSE_LOAD_DONE (R473, R474): one load of the array. -/
def execFuseLoadDone (words : List W32) (s : State) : Out :=
  if s.rst.phase = .fuse ∧ words.length = 512 then
    let n := s.rst.loads + 1
    let trim := (countUp 205 306).flatMap (fun i => toLE (fuseWord s words i) 4)
    if crc32c trim = fuseWord s words 511 then
      let s := setFlag (fuseCommit s words) Csr.BOOT_STAT 6 false
      let s := showKey (setFld s Csr.BOOT_FUSE 9 8 n)
      .next { s with rst := { s.rst with phase := .pll, loads := n } }
    else if n < 3 then .next { s with rst := { s.rst with loads := n } }
    else
      let s := setFld (setFld s Csr.BOOT_FUSE 9 8 n) Csr.BOOT_FUSE 3 0 0xF
      let s := setFld (setFlag s Csr.BOOT_STAT 6 true) Csr.BOOT_STAT 23 20 0xF
      let s := showKey s
      .next { s with rst := { s.rst with phase := .pll, loads := n } }
  else .next s

/-- PLL_LOCK_DONE (R476, R509). -/
def execPllLockDone (s : State) : Out :=
  if s.rst.phase = .pll then .next { s with rst := { s.rst with phase := .release } } else .next s

/-- R476: CP0 starts at the boot ROM. -/
def startRom (s : State) : State :=
  let s := { s with boot := { s.boot with rom := some {} } }
  runEff s 0

/-- The exits of the blocks of a mask begin: the Raline link trains (R419). -/
def blocksExit (s : State) (mask : Nat) : State := onBit mask 39 (fun s => linkEnableEff s 24) s

/-- R514: RESET_DONE. A record of a cold or warm episode waits in the Dome until EVT takes it. -/
def resetDone (s : State) (core : Bool) : State :=
  let d0 := rd s Csr.RST_LAST
  let d1 := rd s Csr.RST_CAUSE + rd s Csr.RST_COUNT <<< 32
  if core then raise s 1 0x01 d0 d1 else raiseDome s 1 0x01 d0 d1

/-- RESET_RELEASE (R509, R527): every block of the reach leaves reset. A wake from Deep sleep is no episode. -/
def execResetRelease (s : State) : Out :=
  if s.rst.phase = .release then
    let x := s.rst
    let r := if x.wakeExit then 1 else x.epReach
    let s := { s with rst := { x with phase := .none, dev := 0, episode := false, wakeExit := false } }
    let s := if x.wakeExit then { s with pwr := { s.pwr with state := 0 } } else resetDone s (r == 2)
    let s := if r = 2 then s else startRom s
    .next (blocksExit s (without64 (reachMask r) s.rst.blk))
  else .next s

/-! ### Block reset (R510 to R513) -/

/-- A write of RST_BLK_REQ. -/
def blkReqEff (s : State) (v : Nat) : State :=
  let old := rd s Csr.RST_BLK_REQ
  let up := without64 v old
  let down := without64 old v
  let s := wr s Csr.RST_BLK_REQ v
  let x := s.rst
  let held := x.dev ||| x.blk
  let ended := x.blk &&& down
  let blk := without64 x.blk down ||| (up &&& held)
  let out := without64 ended x.dev
  let s := { s with rst := { x with idle := without64 x.idle down ||| without64 up held, blk := blk,
                                    exiting := x.exiting ||| out } }
  blocksExit (trimQuiet s) out

/-- BLOCK_RESET_ENTER (R511): the block has reached its quiesced condition; a processor stops. -/
def execBlockResetEnter (b : Fin 64) (s : State) : Out :=
  if bit s.rst.idle b ∧ (48 ≤ b.val ∨ quiescedBit s b) then
    let s := if 48 ≤ b.val then haltEff s (b - 48) else s
    let x := s.rst
    let s := { s with rst := { x with idle := without64 x.idle (1 <<< b.val), blk := x.blk ||| 1 <<< b.val,
                                      exiting := without64 x.exiting (1 <<< b.val) } }
    let s := doReset s (1 <<< b.val) false
    if b.val = 44 then .next { s with csr := s.csr.filter (fun e => decide (blkOf e.1 ≠ some .aon) || decide (e.1 = Csr.AON_STBY)) }
    else .next s
  else .next s

/-- BLK_TIMEOUT (R511, R514). -/
def execBlkTimeout (b : Fin 64) (s : State) : Out :=
  if bit s.rst.idle b then
    let m := 1 <<< b.val
    let s := { s with rst := { s.rst with idle := without64 s.rst.idle m } }
    let s := wr s Csr.RST_BLK_REQ (without64 (rd s Csr.RST_BLK_REQ) m)
    let s := wr (trimQuiet s) Csr.RST_BLK_TMOMAP (rd s Csr.RST_BLK_TMOMAP ||| m)
    .next (raise s 1 0x02 m (fld s Csr.RST_BLK_TMO 23 0))
  else .next s

/-- A block's own exit has ended (R509). -/
def exitEnded (s : State) (b : Nat) : Bool :=
  if b < 4 then (countUp (24 * b) 24).all (fun c => !(smGet {} s.cores c).init)
  else if b < 16 then stkReady s (b - 4) && (countUp (4 * (b - 4)) 4).all (fun n => !(nbuOf s n).restoring)
  else if b < 24 then stkReady s (b - 4)
  else if b = 24 then !s.plcRestoring
  else true

/-- BLK_DONE (R512, R514). -/
def execBlkDone (b : Fin 64) (s : State) : Out :=
  if bit s.rst.exiting b ∧ ¬ inResetBit s b ∧ exitEnded s b then
    let m := 1 <<< b.val
    .next (raise { s with rst := { s.rst with exiting := without64 s.rst.exiting m } } 1 0x03 m 0)
  else .next s

end Sys2Proof.Machine
end

