-- ==== Sys2Proof/Machine/Power.lean ====
section
/-! DEFINITION. Power states, wakes, domain gating, operating points, the power limit and thermal protection (R516 to
R539), the standby domain (R562 to R565) and the SMBus block read (R569). -/

namespace Sys2Proof.Machine

def setPwr (s : State) (p : Pwr) : State := { s with pwr := p }

/-- PWR is clocked and out of reset. -/
def pwrUp (s : State) : Bool := awake s && !inResetBit s 42

/-- R520: PWR_STAT.ENTERING: an entry to Sleep, Deep sleep or Off is in progress. -/
def entering (s : State) : Bool := match s.pwr.entry with | some e => decide (2 ≤ e.target) | none => false

/-! ### Operating points (R532 to R534) -/

/-- R534: the effective point of one requested point under a cap. -/
def effOpp (cap req : Nat) : Nat := if cap = 9 then req else if cap < 2 then 0 else min req (cap - 2)

/-- R533, R534: the effective points that PWR moves to. -/
def effWanted (s : State) : Nat :=
  let req := rd s Csr.PWR_QOPP
  (countUp 0 4).foldl (fun v q => v + effOpp s.pwr.cap (bits req (4 * q + 3) (4 * q)) <<< (4 * q)) 0

/-- A change of the cap or of the requests starts a move of the points it changes. -/
def oppStart (s : State) : State :=
  if effWanted s = s.pwr.eff then s else setPwr s { s.pwr with oppPending := true }

/-- OPP_DONE (R533). -/
def execOppDone (s : State) : Out :=
  if pwrUp s ∧ s.pwr.oppPending then
    let s := setPwr s { s.pwr with eff := effWanted s, oppPending := false }
    .next (raise s 2 0x04 s.pwr.eff s.pwr.cap)
  else .next s

/-- POWER_SAMPLE (R534): the averages and the energy since the last sample. -/
def execPowerSample (fast slow : Nat) (energy : Nat) (s : State) : Out :=
  if pwrUp s then .next (bumpStat (setPwr s { s.pwr with fast := fast % 2 ^ 16, slow := slow % 2 ^ 16 }) Csr.PWR_ENERGY energy (some 42))
  else .next s

/-- R534, R535: a condition for a fall of the cap holds. -/
def capFalls (s : State) : Bool :=
  decide (fld s Csr.PWR_LIMIT 26 16 < s.pwr.fast) || decide (fld s Csr.PWR_LIMIT 10 0 < s.pwr.slow) || s.pwr.hot

/-- R534: both averages are 50 W below their limits. -/
def capRises (s : State) : Bool :=
  decide (s.pwr.fast + 50 < fld s Csr.PWR_LIMIT 26 16) && decide (s.pwr.slow + 50 < fld s Csr.PWR_LIMIT 10 0)

/-- CAP_ADJUST (R534): an interval timer of the cap has run out. -/
def execCapAdjust (s : State) : Out :=
  if ¬ pwrUp s then .next s
  else
    let c := s.pwr.cap
    if capFalls s then
      if c = 0 then .next s
      else
        let s := oppStart (setPwr s { s.pwr with cap := c - 1 })
        .next (if c = 9 then raise s 2 0x05 s.pwr.fast s.pwr.slow else s)
    else if capRises s ∧ c < 9 then .next (oppStart (setPwr s { s.pwr with cap := c + 1 }))
    else .next s

/-- R535: the quadrant domains are released, unless Idle holds them. -/
def releaseQuads (s : State) : State :=
  if s.pwr.state = 1 then s else setPwr s { s.pwr with off := without64 s.pwr.off 0xF, domWaking := without64 s.pwr.domWaking 0xF }

/-- THERMAL_SAMPLE (R535): the hottest reading and its sensor. -/
def execThermalSample (tj : Byte) (sensor : Fin 40) (s : State) : Out :=
  if ¬ pwrUp s then .next s
  else
    let t := tj.toNat
    let lim := fld s Csr.PWR_THERM 7 0
    let s := setPwr s { s.pwr with tj := t, sensor := sensor, hot := decide (fld s Csr.PWR_THERM 15 8 ≤ t) }
    if ¬ s.pwr.trip ∧ lim ≤ t then
      let s := setPwr s { s.pwr with trip := true, off := s.pwr.off ||| 0xF, domWaking := without64 s.pwr.domWaking 0xF }
      .next (raise (bumpOcc s Csr.PWR_TRIPS 1) 2 0x06 t sensor)
    else if s.pwr.trip ∧ t + 5 < lim then .next (raise (releaseQuads (setPwr s { s.pwr with trip := false })) 2 0x07 t sensor)
    else .next s

/-! ### Domain gating (R529 to R531) -/

/-- R529: domains that may turn off. -/
def gatedDomain (d : Nat) : Bool := d < 24 || d == 40

/-- A core has no queued, moving or unfinished work of its quadrant's domain. -/
def coreIdle (k : Core) : Bool :=
  k.flight.isEmpty && k.strm.all (fun v => v.2.queue.isEmpty && v.2.prog.all (fun p => p.2.isNone))

/-- R529: a domain has no work. -/
def domIdle (s : State) (d : Nat) : Bool :=
  if d < 4 then (countUp (24 * d) 24).all (fun c => coreIdle (coreOf s c))
  else if d < 24 then
    let k := stkOf s (d - 4)
    k.lines.isEmpty && k.grans.isEmpty
      && (decide (16 ≤ d) || (countUp (4 * (d - 4)) 4).all (fun n => (nbuOf s n).rowq.isEmpty && (nbuOf s n).works.isEmpty
            && (nbuOf s n).commit.isEmpty && (nbuOf s n).cmd.isNone))
  else (countUp 0 32).all (fun e => (medJob s e).isNone) && s.med.shuf.isNone

/-- DOMAIN_AUTO_OFF (R529). -/
def execDomainAutoOff (d : Fin 41) (s : State) : Out :=
  if pwrUp s ∧ s.pwr.state = 0 ∧ gatedDomain d ∧ flag s Csr.PWR_DOM_AUTO d ∧ ¬ domainOff s d ∧ ¬ inResetBit s d ∧ domIdle s d then
    let s := if 4 ≤ d.val ∧ d.val < 24 then stkSelfRefresh s (d - 4) else s
    .next (setPwr s { s.pwr with off := s.pwr.off ||| 1 <<< d.val })
  else .next s

/-! ### Wakes (R523 to R527) -/

/-- A wake leaves the state: in Deep sleep the supplies return and the exit of R509 for WARM begins. -/
def startWake (s : State) : State :=
  let s := bumpOcc s Csr.PWR_WAKES 1
  let s := setPwr s { s.pwr with waking := some s.pwr.state, wakePend := false }
  if s.pwr.state = 3 then { s with rst := { s.rst with phase := .fuse, wakeExit := true, sets := 0, loads := 0 } } else s

/-- R523, R525: a wake source fires, by its bit in AON_WAKE_CAUSE. -/
def wakeFire (s : State) (c : Nat) : State :=
  let may := if c < 4 then flag s Csr.AON_WAKE_EN c else true
  let acts := entering s || (decide (1 ≤ s.pwr.state ∧ s.pwr.state ≤ 3) && s.pwr.waking.isNone)
  if may ∧ acts then
    let s := wr s Csr.AON_WAKE_CAUSE (rd s Csr.AON_WAKE_CAUSE ||| 1 <<< c)
    let s := raise s 4 0x01 (rd s Csr.AON_WAKE_CAUSE) 0
    if entering s then setPwr s { s.pwr with wakePend := true } else startWake s
  else s

/-- WAKE_PIN_ACCEPT (R523). -/
def execWakePinAccept (high : Bool) (s : State) : Out :=
  if s.rst.domeValid ∧ s.pwr.wakePin ≠ high then
    let s := setPwr s { s.pwr with wakePin := high }
    .next (if high then wakeFire s 0 else s)
  else .next s

/-- SMBUS_ADDRESS_MATCH (R524). -/
def execSmbusAddressMatch (addr : BitVec 7) (s : State) : Out :=
  if s.rst.domeValid ∧ (s.pwr.state = 2 ∨ s.pwr.state = 3) ∧ addr.toNat = fld s Csr.AON_SMB_ADDR 6 0 then .next (wakeFire s 1)
  else .next s

/-- RALINE_ACTIVITY (R523). -/
def execRalineActivity (s : State) : Out := if s.rst.domeValid then .next (wakeFire s 2) else .next s

/-- R464: a source stands in a watch slot. -/
def watched (s : State) (n : Nat) : Bool :=
  (countUp 0 32).any (fun j => flag s (Csr.AON_WATCH j) 31 && decide (fld s (Csr.AON_WATCH j) 9 0 = n))

/-- WATCH_WAKE (R464, R523): a watched source has raised an event; in Sleep and Deep sleep only those of the Dome can. -/
def execWatchWake (source : Nat) (s : State) : Out :=
  if s.rst.domeValid ∧ watched s source ∧ (domeSource source ∨ awake s) then .next (wakeFire s 3) else .next s

/-- Links that AUTO_RETRAIN covers train again (R526). -/
def linksBack (s : State) : State := (countUp 0 25).foldl (fun s l => if linkAuto s l then linkEnableEff s l else s) s

/-- The quadrants come back from Idle (R526, R531): all of them, but after an ACCESS wake only those whose AUTO bit is 0 and
those that work has reached. -/
def quadsBack (s : State) : State :=
  let reached := s.pwr.domWaking &&& 0xF
  let keep := if reached = 0 then 0 else without64 (rd s Csr.PWR_DOM_AUTO &&& 0xF) reached
  if s.pwr.trip then s
  else setPwr s { s.pwr with off := without64 s.pwr.off 0xF ||| (s.pwr.off &&& keep), domWaking := without64 s.pwr.domWaking 0xF }

/-- R526, R527: Run is reached again. -/
def wakeEnd (s : State) (from_ : Nat) : State :=
  let s := setPwr s { s.pwr with state := 0, lastState := from_, waking := none }
  let s := if from_ = 1 then trimQuiet (quadsBack s) else if from_ = 2 then trimQuiet (linksBack s) else s
  raise s 2 0x03 from_ (rd s Csr.AON_WAKE_CAUSE)

/-- WAKE_DONE (R526, R527): after Deep sleep once the exit sequence has ended. -/
def execWakeDone (s : State) : Out :=
  match s.pwr.waking with
  | none => .next s
  | some st => if st = 3 ∧ (s.rst.wakeExit ∨ s.rst.dev ≠ 0) then .next s else .next (wakeEnd s st)

/-- DOMAIN_WAKE (R530, R531): the first work reaches an off domain. -/
def execDomainWake (d : Fin 41) (s : State) : Out :=
  if pwrUp s ∧ gatedDomain d ∧ domainOff s d ∧ ¬ bit s.pwr.domWaking d ∧ ¬ (d.val < 4 ∧ s.pwr.trip) then
    let s := setPwr s { s.pwr with domWaking := s.pwr.domWaking ||| 1 <<< d.val }
    let s := bumpOcc s Csr.PWR_DOM_WAKES 1
    .next (if d.val < 4 ∧ s.pwr.state = 1 then wakeFire s 5 else s)
  else .next s

/-- DOMAIN_READY (R530). -/
def execDomainReady (d : Fin 41) (s : State) : Out :=
  if pwrUp s ∧ bit s.pwr.domWaking d ∧ ¬ (d.val < 4 ∧ s.pwr.state = 1) then
    let m := 1 <<< d.val
    let s := setPwr s { s.pwr with off := without64 s.pwr.off m, domWaking := without64 s.pwr.domWaking m }
    .next (if 4 ≤ d.val ∧ d.val < 24 then stkWake s (d - 4) else s)
  else .next s

/-! ### Entries (R518 to R522) -/

/-- ENTER of a state that no rule accepts from the present one: the manual names no status. -/
def openStatus (s : State) : Nat × State :=
  match fresh s 30 with
  | (v, s) => (1 + v % 14, s)

/-- R518: an ENTER is taken. -/
def enterState (s : State) (c : HCmd) (t : Nat) : State :=
  let fin (s : State) (st : Nat) : State := setCmdPart s c 0 (.ended st)
  if ¬ flag s Csr.PWR_CFG t then fin s 0x0A
  else if t = s.pwr.state then fin s 0
  else if t = 0 then (if s.pwr.state = 1 then wakeFire (fin s 0) 4 else fin s 0)
  else if s.pwr.state = 0 ∧ s.pwr.entry.isNone ∧ s.pwr.waking.isNone then
    let s := setPwr (putCmdH s c { c with away := true }) { s.pwr with entry := some { target := t, sq := c.sq, cid := cCid c } }
    if 2 ≤ t then raise s 2 0x01 t (cCid c) else s
  else
    match openStatus s with
    | (v, s) => fin s v

/-- POWER_ENTER (R518). -/
def execPowerEnter (q : Fin 256) (cid : BitVec 16) (s : State) : Out :=
  match todoCmd s q cid.toNat 0x05 0 with
  | none => .next s
  | some c => if hlkUp s ∧ pwrUp s ∧ fieldAt c.bytes 32 1 = 1 then .next (enterState s c (fieldAt c.bytes 33 1)) else .next s

/-- PWR_STAT as it reads. -/
def pwrStat (s : State) : Nat :=
  s.pwr.state + (if entering s then 8 else 0) + (if s.pwr.wakePend then 16 else 0) + s.pwr.lastState <<< 8
    + (if s.pwr.cap < 9 then 1 <<< 12 else 0) + (if s.pwr.trip then 1 <<< 13 else 0)

/-- POWER_QUERY (R518). -/
def execPowerQuery (q : Fin 256) (cid : BitVec 16) (s : State) : Out :=
  match todoCmd s q cid.toNat 0x05 0 with
  | none => .next s
  | some c =>
    if hlkUp s ∧ fieldAt c.bytes 32 1 = 2 then
      .next (putCmdH s c { c with result := pwrStat s, parts := setHPart c.parts 0 (.ended 0) })
    else .next s

/-- The POWER command of an entry ends. -/
def entryReply (s : State) (e : Entry) (st : Nat) : State :=
  match s.hlk.cmds.find? (fun c => c.sq = e.sq ∧ cCid c = e.cid ∧ cOp c = 5 ∧ c.away) with
  | some c => putCmdH s c { c with away := false, parts := setHPart c.parts 0 (.ended st) }
  | none => s

/-- R519, R520: the blocks that the entry waits for read quiesced. -/
def entryBlocks (s : State) : Nat := if entering s then 42 else 4

/-- Blocks of the entry not quiesced, as a mask. -/
def entryMissing (s : State) : Nat :=
  (countUp 0 (entryBlocks s)).foldl (fun m b => if quiescedBit s b then m else m ||| 1 <<< b) 0

/-- R520: every processor is in WFI or HALTED. -/
def hartsRest (s : State) : Bool :=
  (countUp 0 8).all (fun p => decide ((hartOf s p).st = .wfi) || decide ((hartOf s p).st = .halted))

/-- ENTRY_QUIESCED (R519, R520 step 3): the command completes; Idle is then reached. -/
def execEntryQuiesced (s : State) : Out :=
  match s.pwr.entry with
  | none => .next s
  | some e =>
    if pwrUp s ∧ ¬ e.completed ∧ entryMissing s = 0 ∧ (e.target = 1 ∨ hartsRest s) then
      let s := entryReply s e 0
      if e.target = 1 then .next (setPwr s { s.pwr with entry := none, state := 1, off := s.pwr.off ||| 0xF })
      else .next (setPwr s { s.pwr with entry := some { e with completed := true } })
    else .next s

/-- R517, R520 step 5: a link is taken to OFF with the clocks. -/
def linkSleep (s : State) (l : Nat) : State :=
  let s := setLink s l (linkIdle (linkOf s l) .off)
  if isHost l then hostSuspend s
  else
    let s := { s with fabc := { s.fabc with proofs := s.fabc.proofs.filter (· ≠ l) } }
    setFlag s (Csr.FAB_LINK_CTRL (l / 2) (l % 2)) 1 false

/-- R520 steps 5 to 7, R525. -/
def clockStop (s : State) (e : Entry) : State :=
  let s := (countUp 0 25).foldl linkSleep s
  let s := (countUp 0 20).foldl stkSelfRefresh s
  let pend := s.pwr.wakePend
  if e.target = 2 then
    let s := setPwr s { s.pwr with entry := none, state := 2 }
    if pend then startWake s else s
  else if e.target = 3 then
    let s := enterReach s 1
    let s := setPwr s { s.pwr with entry := none, state := 3 }
    if pend then startWake s else s
  else setPwr s { s.pwr with entry := none, state := 4, railEn := false, shutHold := true, wakePend := false }

/-- R520 step 4: the command has its completion entry and the journal is empty. -/
def entryDrained (s : State) (e : Entry) : Bool :=
  s.hlk.jrnl.isEmpty && s.hlk.cqWait.isEmpty && !s.hlk.cmds.any (fun c => c.sq == e.sq && cCid c == e.cid && cOp c == 5)

/-- ENTRY_CLOCK_STOP (R520). -/
def execEntryClockStop (s : State) : Out :=
  match s.pwr.entry with
  | none => .next s
  | some e => if e.completed ∧ entryDrained s e then .next (clockStop s e) else .next s

/-- ENTRY_ABANDONED (R520, R521): the limit is reached. Past step 4 the entry goes ahead. -/
def execEntryAbandoned (s : State) : Out :=
  match s.pwr.entry with
  | none => .next s
  | some e =>
    if e.target < 2 then .next s
    else if e.completed then .next (clockStop s e)
    else
      let m := entryMissing s
      let s := entryReply (setPwr s { s.pwr with entry := none, wakePend := false }) e 0x0E
      .next (raise (trimQuiet s) 2 0x02 e.target m)

/-! ### The standby domain (R527, R560 to R565) -/

/-- The rails have gone with RAIL_EN: the Dome supply is invalid. -/
def railsGone (s : State) : State :=
  let s := { s with rst := { s.rst with domeValid := false } }
  if bit s.rst.asserted 0 then s else assertSrc s 0 0 none

/-- OFF_WAKE (R527): RAIL_EN asserts and a cold episode begins. -/
def execOffWake (s : State) : Out :=
  if s.pwr.state = 4 ∧ s.pwr.vstby ∧ ¬ s.pwr.railEn then
    let s := railsGone s
    .next (setPwr s { s.pwr with state := 0, railEn := true, shutHold := false })
  else .next s

/-- THERMAL_SHUTDOWN (R565). -/
def execThermalShutdown (s : State) : Out :=
  if s.rst.domeValid ∧ s.pwr.railEn then
    .next (setPwr (setFlag s Csr.AON_STBY 0 true) { s.pwr with railEn := false, shutHold := true })
  else .next s

/-- RAIL_EN_RELEASE (R562, R565): VSTBY has become valid, or the sensors have cooled. -/
def execRailEnRelease (s : State) : Out :=
  if s.pwr.railEn ∨ s.pwr.state = 4 then .next s
  else
    let s := railsGone s
    .next (setPwr s { s.pwr with railEn := true, shutHold := false, vstby := true })

/-- VSTBY_LOSS (R560). -/
def execVstbyLoss (s : State) : Out :=
  let s := wr (railsGone s) Csr.AON_STBY 0
  .next (setPwr s { s.pwr with vstby := false, railEn := false, shutHold := false, state := 0 })

/-! ### SMBus (R569) -/

/-- PWR_MEAS as it reads. -/
def pwrMeas (s : State) : Nat := s.pwr.sensor <<< 24 + s.pwr.tj <<< 16 + s.pwr.fast

/-- R414: FT_HEALTH as it reads: DEGRADED, and the frames whose map code is RETIRED. -/
def ftHealth (s : State) : Nat :=
  setBits (rd s Csr.FT_HEALTH) 22 0 (s.frameMap.filter (fun f => decide (f.2 = 2))).length

/-- The SMBus packet error code: CRC-8 with polynomial x⁸ + x² + x + 1. PRESUMED from the SMBus specification. -/
def pecBit (c : Nat) : Nat := if 128 ≤ c then (2 * c) % 256 ^^^ 0x07 else 2 * c

def pec (bs : Bytes) : Nat :=
  bs.foldl (fun c b => pecBit (pecBit (pecBit (pecBit (pecBit (pecBit (pecBit (pecBit (c ^^^ b.toNat))))))))) 0

/-- SMBUS_BLOCK_READ (R569): what the bus carries is kept; a command code that is not served leaves nothing. -/
def execSmbusBlockRead (code : Byte) (s : State) : Out :=
  if s.rst.domeValid ∧ awake s ∧ code = 0x10 then
    let a := fld s Csr.AON_SMB_ADDR 6 0
    let d := toLE (pwrStat s) 4 ++ toLE (pwrMeas s) 4 ++ toLE (rd s Csr.RST_CAUSE) 4 ++ toLE (rd s Csr.BOOT_STAT) 4
      ++ toLE (ftHealth s) 4
    let p := pec (toLE (2 * a) 1 ++ [code] ++ toLE (2 * a + 1) 1 ++ [20] ++ d)
    .next (setPwr s { s.pwr with smbus := 20 :: d ++ [BitVec.ofNat 8 p] })
  else .next (setPwr s { s.pwr with smbus := [] })

end Sys2Proof.Machine
end

