-- ==== Sys2Proof/Machine/Plate.lean ====
section
/-! DEFINITION. The GLB block: quiesce and commit (R40 to R48), and the Plate dump (R550 to R557). -/

namespace Sys2Proof.Machine

/-! ### Quiesce (R41, R42, R47) -/

/-- R42: a new value of GLB_QUIESCE_REQ. -/
def quiesceReqEff (s : State) (v : Nat) : State := trimQuiet (wr s Csr.GLB_QUIESCE_REQ v)

/-- R41: the in-flight work of block b stands at its quiesce point. Steps of this model end at instruction, line, sector
and frame boundaries. -/
def quiescePoint (s : State) (b : Nat) : Bool :=
  if b < 4 then (countUp (24 * b) 24).all (fun c => (coreOf s c).flight.all (fun f => !f.run))
  else if b < 24 then
    let k := stkOf s (b - 4)
    k.lines.all (fun r => !r.2) && k.grans.all (fun r => r.2.isNone) && k.bursts.isEmpty
  else if b = 24 then (runningMigs s).isEmpty
  else if b = 42 then !s.pwr.oppPending && s.pwr.waking.isNone && (s.pwr.entry.isNone || entering s)
  else true

/-- BLOCK_QUIESCED (R41). -/
def execBlockQuiesced (b : Fin 45) (s : State) : Out :=
  if awake s ∧ bit (quiesceWanted s) b ∧ ¬ inResetBit s b ∧ quiescePoint s b then .next { s with quiet := s.quiet ||| 1 <<< b.val }
  else .next s

/-- R42: GLB_QUIESCE_STAT as it reads. -/
def quiesceStat (s : State) : Nat := (countUp 0 45).foldl (fun m b => if quiescedBit s b then m ||| 1 <<< b else m) 0

/-- QUIESCE_TIMEOUT (R47). -/
def execQuiesceTimeout (s : State) : Out :=
  let m := without64 (rd s Csr.GLB_QUIESCE_REQ) (quiesceStat s)
  if blkUp s .glb ∧ fld s Csr.GLB_QUIESCE_TMO 23 0 ≠ 0 ∧ m ≠ 0 then
    .next (raise (setFlag s Csr.GLB_COMMIT_STAT 2 true) 0 0x01 m (rd s Csr.GLB_GEN))
  else .next s

/-! ### Commit (R43 to R45) -/

/-- A write of 1 to GLB_COMMIT.GO. -/
def commitGoEff (s : State) (ini : Initiator) : State :=
  match s.commit with
  | some _ => violation s 3 true ini Csr.GLB_COMMIT
  | none =>
    let mask := rd s Csr.GLB_COMMIT_MASK
    let bad := without64 mask (quiesceStat s)
    if bad ≠ 0 then
      let s := wr (setFlag s Csr.GLB_COMMIT_STAT 1 true) Csr.GLB_COMMIT_NOTQ bad
      raise s 0 0x02 bad (rd s Csr.GLB_GEN)
    else { s with commit := some mask }

/-- The row of a register with a committed field in a selected block. -/
def commitRow (mask a : Nat) : Option RegRow :=
  match blkOf a with
  | none => none
  | some b =>
    match b.commitIdx, regAt a with
    | some i, some r => if bit mask i && r.row.fields.any (fun f => decide (f.acc = .sh)) then some r.row else none
    | _, _ => none

/-- R43: the shadow copies of one register become active. -/
def commitReg (mask : Nat) (s : State) (a : Nat) : State :=
  match commitRow mask a with
  | none => s
  | some r =>
    let sh := rdShadow s a
    wr s a (r.fields.foldl (fun v f => if f.acc = .sh then setBits v f.hi f.lo (bits sh f.hi f.lo) else v) (rd s a))

/-- The registers whose copies can differ. -/
def commitAddrs (s : State) : List Nat := (smKeys s.shadow ++ smKeys s.csr).eraseDups

/-- What follows in the units when new values become active: ports that change their split (R345), binary points (R461),
operating points (R533), and whether the placement region fits (R182). -/
def commitUnits (mask : Nat) (was s : State) : State :=
  let s := (countUp 0 12).foldl (fun s p => if bit mask (26 + p) then portCommit s p (linkSplit was (2 * p)) else s) s
  let s := (countUp 0 9).foldl (fun s t =>
    if fld was (Csr.EVT_TGT_CFG t) 26 24 = fld s (Csr.EVT_TGT_CFG t) 26 24 then s else bpCommit s t) s
  let s := if bit mask 42 then oppStart s else s
  if bit mask 24 ∨ mask &&& 0xFFF0 ≠ 0 then { s with plcFits := plcFitsNow s } else s

/-- R43: the last block has confirmed. -/
def commitDo (s : State) (mask : Nat) : State :=
  let g := rd s Csr.GLB_GEN
  let t := (commitAddrs s).foldl (commitReg mask) s
  let t := commitUnits mask s t
  let t := wr t Csr.GLB_GEN ((g + 1) % 2 ^ 32)
  let t := wr t Csr.GLB_SHADOW_DIRTY (without64 (rd t Csr.GLB_SHADOW_DIRTY) mask)
  trimQuiet { setFlag t Csr.GLB_COMMIT_STAT 1 false with commit := none }

/-! ### The Plate dump (R554 to R557) -/

def platePresent (s : State) : Bool := flag s Csr.GLB_PLATE_STAT 31

/-- A write of PUBLISH. -/
def publishEff (s : State) : State :=
  let s := setFlag s Csr.GLB_PLATE_STAT 31 true
  raise s 0 0x04 (rd s Csr.GLB_PLATE_SEQ) 1

/-- A write of CLEAR. -/
def plateClearEff (s : State) (ini : Initiator) : State :=
  if platePresent s ∨ ¬ flag s Csr.GLB_PLATE_BASE 63 then violation s 3 true ini Csr.GLB_PLATE_CTRL
  else setFlag s Csr.GLB_PLATE_STAT 30 true

/-- A write of GLB_PLATE_ACK. -/
def plateAckEff (s : State) (ini : Initiator) (v : Nat) : State :=
  if v = rd s Csr.GLB_PLATE_SEQ then raise (setFlag s Csr.GLB_PLATE_STAT 31 false) 0 0x05 v 0
  else violation s 3 true ini Csr.GLB_PLATE_ACK

/-- One page of a clear: zeros over its lines; `none` while it stalls. -/
def clearPage (s : State) (p : Nat) : State × Option Nat :=
  ltaWrite s (engKey 24 0 p) (p * 2 ^ 18) zeroPage

/-- Pages of a clear, up to one that stalls, with their statuses. -/
def clearPages : List Nat → State → List Nat → State × Option (List Nat)
  | [], s, st => (s, some st.reverse)
  | p :: ps, s, st =>
    match clearPage s p with
    | (s, none) => (s, none)
    | (s, some x) => clearPages ps s (x :: st)

/-- PLATE_CLEAR_DONE (R556): all 256 pages. -/
def execPlateClearDone (s : State) : Out :=
  if blkUp s .glb ∧ flag s Csr.GLB_PLATE_STAT 30 then
    match clearPages (countUp (fld s Csr.GLB_PLATE_BASE 25 0) 256) s [] with
    | (s, none) => .next s
    | (s, some sts) =>
      let r := partReport sts
      let s := setFlag (setFld s Csr.GLB_PLATE_STAT 15 8 r.status) Csr.GLB_PLATE_STAT 30 false
      .next (raise s 0 0x06 r.status r.pfx)
  else .next s

end Sys2Proof.Machine
end

