-- ==== Sys2Proof/Machine/View.lean ====
section
/-! DEFINITION. What a control register reads as (R9, R12): the stored value, with the fields whose home is a unit's own
state put in place. -/

namespace Sys2Proof.Machine

def b2n (b : Bool) : Nat := if b then 1 else 0

/-- CORE_STATUS.STATE (R105). -/
def CoreSt.code : CoreSt → Nat
  | .halted => 0 | .running => 1 | .waiting => 2 | .fault => 3

/-- PROC_STAT.STATE (R468). -/
def HartSt.code : HartSt → Nat
  | .halted => 0 | .running => 1 | .wfi => 2 | .lockup => 3

/-- A streamer has a descriptor queued or in progress. -/
def strmBusy (v : Strm) : Bool := !v.queue.isEmpty || v.prog.any (fun p => p.2.isSome)

/-- Registers of a core (R109, R110, R144), by core and streamer. -/
def viewCore (s : State) (reg : Reg) (c t v : Nat) : Nat :=
  let k := coreOf s c
  match reg with
  | .CORE_ID => (c / 24) <<< 8 + c % 24
  | .CORE_STATUS =>
    (countUp 0 4).foldl (fun m t => m + b2n (strmBusy (strmOf k t)) <<< (8 + t)) 0 + b2n k.init <<< 3
      + b2n (quiescedBit s (c / 24)) <<< 2 + k.st.code
  | .CORE_PC => k.pc
  | .CORE_SB | .CORE_SB_SET => k.sb
  | .CORE_SB_FAIL => k.sbFail
  | .ACC_TMODE => k.tmode
  | .CORE_TRQ => b2n k.trqDropped <<< 16 + k.trq.headD 0 <<< 8 + k.trq.length
  | .VEC_VL => k.vl
  | .STRM_STAT => setBits v 12 8 (16 - (strmOf k t).queue.length) ||| b2n (strmBusy (strmOf k t))
  | _ => v

/-- Age in milliseconds of the oldest accepted granule request of a deep stack (R179). -/
def oldestMs (s : State) (d : Nat) : Nat :=
  match (stkOf s (12 + d)).grans.findSome? (fun r => r.2) with
  | some at_ => min 255 ((s.stamp - at_) / 1200000)
  | none => 0

/-- Registers of the stacks and near-bank units (R178, R179, R257). -/
def viewTier (s : State) (reg : Reg) (i k v : Nat) : Nat :=
  let n := 4 * i + k
  match reg with
  | .FSC_ID => i <<< 8 + 64
  | .DSC_ID => i <<< 8 + 32
  | .FSC_STAT => setBits v 1 1 (b2n (quiescedBit s (4 + i)))
  | .DSC_STAT => setBits v 1 1 (b2n (quiescedBit s (16 + i)))
  | .DSC_REQ_STAT => (min 255 ((stkOf s (12 + i)).grans.filter (fun r => r.2.isSome)).length) <<< 8 + oldestMs s i
  | .NBU_ID => i <<< 8 + k
  | .NBU_STAT =>
    let u := nbuOf s n
    (u.rowq.filter (·.parked)).length <<< 16 + u.rowq.length <<< 4 + b2n u.restoring <<< 2
      + b2n (quiescedBit s (4 + i)) <<< 1 + b2n (nbuWorks s n && !u.restoring)
  | .NBU_COMMIT => commitFree (nbuOf s n)
  | .NBU_SLOT => (nbuOf s n).progs.foldl (fun m p => m ||| 1 <<< p.1) 0
  | .NBU_CMD_STAT => setBits v 0 0 (b2n (nbuOf s n).cmd.isSome)
  | _ => v

/-- Registers of the placement engine, the Relay and the media block (R216 to R218, R310, R343). -/
def viewEngine (s : State) (reg : Reg) (i v : Nat) : Nat :=
  match reg with
  | .PLC_STAT => b2n s.plcRestoring <<< 3 + b2n (!s.plcFits) <<< 2 + b2n (quiescedBit s 24) <<< 1 + b2n (plcReady s)
  | .PLC_FREE_POOL => freeFrames s 12
  | .PLC_FREE_BANKED => freeFrames s i
  | .PLC_FREE_DEEP => freeBlocks s i
  | .PLC_CMD_STAT => setBits v 0 0 (b2n (smGet none s.plcCh i).isSome)
  | .RLY_ID => i
  | .RLY_STAT => (rlyOf s i).open_.length <<< 16 + b2n (quiescedBit s 25) <<< 1 + b2n (works s 25)
  | .RLY_FREE_SLOTS => freeSlots s i
  | .RLY_FREE_SUBST => freeSubst s i
  | .MED_STAT =>
    b2n (coefBad s 1) <<< 3 + b2n (coefBad s 0) <<< 2 + b2n (quiescedBit s 40) <<< 1 + b2n (works s 40)
  | _ => v

/-- R388: a word of the hello buffer. -/
def helloWord (l : Link) (w : Nat) : Nat :=
  if 4 * w < 3136 then fieldAt l.hello (4 * w) 4
  else if 3840 ≤ 4 * w ∧ 4 * w < 3944 then fieldAt l.proof (4 * w - 3840) 4
  else 0

/-- R471: in ISOLATED every link's ENABLE reads 0. -/
def isolated (s : State) : Bool := decide (fld s Csr.BOOT_STAT 23 20 = 6)

/-- Registers of the ports, the fabric block and the host link (R387, R388, R415, R440). -/
def viewFabric (s : State) (reg : Reg) (i h w v : Nat) : Nat :=
  let l := 2 * i + h
  match reg with
  | .FAB_PORT_STAT => b2n (quiescedBit s (26 + i))
  | .FAB_LINK_CTRL => if isolated s then setBits v 0 0 0 else v
  | .FAB_LINK_STAT => linkStat l (linkOf s l)
  | .FAB_LINK_CREDIT => linkCredit (linkOf s l) (2 * w + 1) <<< 16 + linkCredit (linkOf s l) (2 * w)
  | .FAB_HELLO => helloWord (linkOf s l) w
  | .FABC_TAGS => 131072 - s.fabc.txns.length
  | .FABC_MGMT_STAT => setBits v 4 0 (16 - s.fabc.push.length)
  | .PGRP_STAT => b2n (settled s)
  | .PGRP_JRNL_STAT => setBits v 0 0 (b2n s.fabc.jop.isSome)
  | .FT_HEALTH => ftHealth s
  | .HLK_LINK_STAT => linkStat 24 (linkOf s 24)
  | .HLK_JRNL_STAT => 8192 - s.hlk.jrnl.length
  | .HLK_SQ_STAT => (s.hlk.cmds.filter (fun c => c.sq = i && !c.orphan)).length
  | _ => v

/-- R466: EVT_TGT_STAT as it reads. -/
def tgtStat (v : Target) : Nat :=
  b2n v.fault <<< 31 + b2n (tgtIrq v) <<< 30 + v.stack.length <<< 16 + v.stack.headD 0xFF <<< 8 + (signalled v).getD 0xFF

/-- Registers of EVT and AON (R466, R467, R539). -/
def viewEvent (s : State) (reg : Reg) (i v : Nat) : Nat :=
  let t := tgtOf s i
  match reg with
  | .EVT_STAT => setBits (setBits v 15 15 (b2n (quiescedBit s 41))) 13 0 (8192 - s.evt.pool.length)
  | .EVT_TGT_PI => t.pi
  | .EVT_TGT_CI => t.ci
  | .EVT_TGT_STAT => tgtStat t
  | .EVT_TGT_FSTAT => t.fstat
  | .EVT_TGT_PEND => (s.evt.pool.filter (fun r => r.target = i)).length
  | .EVT_TGT_SEQ => t.seq
  | .EVT_SRC_STAT => setBits v 6 0 (pendOf s i)
  | .AON_LINE => setBits v 2 2 (b2n (smGet false s.evt.lines i))
  | .AON_DREC => setBits v 6 0 s.evt.dome.length
  | .AON_WAKE_PIN => setBits v 8 8 (b2n s.pwr.wakePin)
  | _ => v

/-- R515: a CORE episode or its exit is in progress. -/
def coreEpisode (s : State) : Bool := s.rst.episode && decide (s.rst.epReach = 2)

/-- Registers of the remaining blocks (R49, R468, R499, R515, R538). -/
def viewRest (s : State) (reg : Reg) (i v : Nat) : Nat :=
  match reg with
  | .GLB_QUIESCE_STAT => quiesceStat s
  | .GLB_COMMIT_STAT => setBits v 0 0 (b2n s.commit.isSome)
  | .PROC_STAT => i <<< 8 + (hartOf s i).st.code
  | .PROC_WDT_STAT => setBits v 23 0 (wdtCount s i)
  | .CPX_MTIME => s.stamp % 2 ^ 64
  | .BOOT_FL_STAT => setBits v 0 0 (b2n s.boot.flCmd.isSome)
  | .BOOT_HOST_CNT => s.boot.hostImg.length
  | .SEC_CMD_STAT => setBits v 0 0 (b2n s.boot.secCmd.isSome)
  | .RST_STAT => b2n s.rst.pinHigh <<< 8 + b2n (coreEpisode s)
  | .RST_BLK_STAT => (s.rst.blk ||| s.rst.exiting) &&& 0xE_1FFF_FFFF_FFFF
  | .PWR_STAT => pwrStat s
  | .PWR_EFF => s.pwr.cap <<< 16 + s.pwr.eff
  | .PWR_MEAS => pwrMeas s
  | .PWR_DOM_STAT => s.pwr.off
  | _ => v

/-- The stored value with shadow copies in its SH fields (R12). -/
def storedValue (s : State) (r : RegAt) : Nat :=
  if r.row.fields.any (fun f => decide (f.acc = .sh)) then
    let sh := rdShadow s r.base
    r.row.fields.foldl (fun v f => if f.acc = .sh then setBits v f.hi f.lo (bits sh f.hi f.lo) else v) (rd s r.base)
  else rd s r.base

/-- What the whole register reads as. -/
def regView (s : State) (r : RegAt) : Nat :=
  let v := storedValue s r
  let i := r.idx.getD 0 0
  let j := r.idx.getD 1 0
  match blkOf r.base with
  | some (.core c) => viewCore s r.row.reg c (r.idx.getD 2 0) v
  | some (.fsc _) => viewTier s r.row.reg i j v
  | some (.nbu _) => viewTier s r.row.reg i j v
  | some (.dsc _) => viewTier s r.row.reg i j v
  | some .plc => viewEngine s r.row.reg i v
  | some (.rly _) => viewEngine s r.row.reg i v
  | some .med => viewEngine s r.row.reg i v
  | some (.port _) => viewFabric s r.row.reg i j (r.idx.getD 2 0) v
  | some .fabc => viewFabric s r.row.reg i j 0 v
  | some .hlk => viewFabric s r.row.reg i j 0 v
  | some .evt => viewEvent s r.row.reg i v
  | some .aon => viewEvent s r.row.reg i v
  | some _ => viewRest s r.row.reg i v
  | none => v

/-- R12, R547: what a read clears. -/
def readClear (s : State) (r : RegAt) (left : Nat) : State :=
  if r.row.fields.any (fun f => decide (f.acc = .rc)) then
    wr s r.base (r.row.fields.foldl (fun v f => if f.acc = .rc then setBits v f.hi f.lo left else v) (rd s r.base))
  else s

end Sys2Proof.Machine
end

