-- ==== Sys2Proof/Machine/Boot.lean ====
section
/-! DEFINITION. Boot and security beyond the boot ROM: starting an image (R485), flash commands (R479, R486, R487), the
commands of SEC (R488, R494, R495, R497, R499) and the signatures of hellos (R492). -/

namespace Sys2Proof.Machine

def bootPhase (s : State) : Nat := fld s Csr.BOOT_STAT 31 28
def setPhase (s : State) (p : Nat) : State := setFld s Csr.BOOT_STAT 31 28 p
def bootMode (s : State) : Nat := fld s Csr.BOOT_STAT 23 20
def setBoot (s : State) (b : Boot) : State := { s with boot := b }

/-! ### The Almanac image (R480) -/

def imMagic (b : Bytes) : Nat := fieldAt b 0 4
def imFormat (b : Bytes) : Nat := fieldAt b 4 2
def imKeyIdx (b : Bytes) : Nat := fieldAt b 6 1
def imSvn (b : Bytes) : Nat := fieldAt b 7 1
def imSeq (b : Bytes) : Nat := fieldAt b 8 4
def imLength (b : Bytes) : Nat := fieldAt b 12 4
def imNsec (b : Bytes) : Nat := fieldAt b 16 2

/-- A section's type, target, offset, length and destination. -/
structure Sect where
  type : Nat
  target : Nat
  off : Nat
  len : Nat
  dest : Nat
  deriving DecidableEq, Repr

def imSect (b : Bytes) (i : Nat) : Sect :=
  let o := 512 + 16 * i
  ⟨fieldAt b o 1, fieldAt b (o + 1) 1, fieldAt b (o + 4) 4, fieldAt b (o + 8) 4, fieldAt b (o + 12) 4⟩

def imSects (b : Bytes) : List Sect := (countUp 0 (imNsec b)).map (imSect b)

/-- R486: the slot that is running, if an image from the flash is. -/
def runningSlot (s : State) : Option Nat :=
  if bootMode s = 4 ∨ bootMode s = 8 ∨ bootMode s = 9 ∨ bootMode s = 0xF then none else some (fld s Csr.BOOT_STAT 4 4)

/-- A CODE_START section starts its target; CP0 jumps, another processor is run from there. -/
def startSect (s : State) (x : Sect) : State :=
  let pc := 0x1000_0000 + x.dest
  if x.type ≠ 2 then s
  else if x.target = 0 then setHart s 0 { hartOf s 0 with st := .running, pc := pc }
  else runEff (wr s (Csr.PROC_BOOT x.target) pc) x.target

/-- R477, R485: the ROM starts the firmware; a CP0 without a start section halts. -/
def startFirmware (s : State) (r : Rom) : State :=
  let b := r.image
  let s := match r.slot with
    | some 0 => setFld s Csr.BOOT_TRY 1 0 (min 3 (fld s Csr.BOOT_TRY 1 0 + 1))
    | some _ => setFld s Csr.BOOT_TRY 5 4 (min 3 (fld s Csr.BOOT_TRY 5 4 + 1))
    | none => s
  let s := setPhase (setBoot s { s.boot with rom := none }) 7
  let s := setHart s 0 { hartOf s 0 with st := .halted }
  let s := (imSects b).foldl startSect s
  raise s 5 0x01 (bootMode s + fld s Csr.BOOT_STAT 4 4 <<< 4) (imSeq b)

/-! ### BOOT_CTRL and BOOT_HOST_DATA (R471, R485) -/

/-- A write of MODE_OVR. -/
def modeOvrEff (s : State) (ini : Initiator) (m : Nat) : State :=
  if bootMode s = 0xF ∧ (m = 4 ∨ m = 8 ∨ m = 9) then
    let s := setFld s Csr.BOOT_STAT 23 20 m
    if bootPhase s = 6 then setPhase (setBoot s { s.boot with hostImg := [] }) (if m = 4 then 3 else 8) else s
  else violation s 3 true ini Csr.BOOT_CTRL

/-- A write of CONFIRM. -/
def confirmEff (s : State) : State :=
  match runningSlot s with
  | some 0 => setFld s Csr.BOOT_TRY 1 0 0
  | some _ => setFld s Csr.BOOT_TRY 5 4 0
  | none => s

/-- A write of RELEASE. -/
def releaseEff (s : State) : State :=
  match s.boot.rom with
  | some r => if bootPhase s = 6 ∧ (bootMode s = 5 ∨ bootMode s = 0xE) then startFirmware s r else s
  | none => s

/-- A write of BOOT_HOST_DATA. -/
def hostDataEff (s : State) (ini : Initiator) (v : Nat) : State :=
  if bootMode s = 4 ∧ bootPhase s = 3 ∧ s.boot.rom.isSome then
    setBoot s { s.boot with hostImg := s.boot.hostImg ++ toLE v 4 }
  else violation s 3 true ini Csr.BOOT_HOST_DATA

/-! ### Flash commands (R487, R498, R499) -/

/-- Bytes of the flash; an erased byte is 0xFF. -/
def flashBytes (s : State) (a : Nat) : Nat → Bytes
  | 0 => []
  | n + 1 => smGet 0xFF s.boot.flash a :: flashBytes s (a + 1) n

/-- An OP written to BOOT_FL_CMD. `id`: what the flash answers to READ_ID. -/
def flCmdEff (s : State) (ini : Initiator) (op : Nat) (id : Bytes) : State :=
  match s.boot.flCmd with
  | some _ => violation s 3 true ini Csr.BOOT_FL_CMD
  | none => setBoot s { s.boot with flCmd := some (op, rd s Csr.BOOT_FL_ADDR, rd s Csr.BOOT_FL_LEN), flId := id }

/-- R487: whether a range may be written or erased now. -/
def flashMay (s : State) (a : Nat) : Bool :=
  if a < 0x10000 then decide (bootMode s = 0xC)
  else
    let slot := if 0x1000000 ≤ a ∧ a < 0x2000000 then some 0 else if 0x2000000 ≤ a ∧ a < 0x3000000 then some 1 else none
    slot.isNone || decide (slot ≠ runningSlot s)

/-- The data buffer as bytes. -/
def flBuf (s : State) : Bytes := ((countUp 0 64).map (fun i => toLE (rd s (Csr.BOOT_FL_BUF i)) 4)).flatten

/-- Bytes written to the front of the data buffer. -/
def flBufPut (s : State) (bs : Bytes) : State :=
  let n := bs.length
  let all := bs ++ (flBuf s).drop n
  (countUp 0 64).foldl (fun s i => wr s (Csr.BOOT_FL_BUF i) (fieldAt all (4 * i) 4)) s

/-- Bytes programmed: a programmed bit only clears. -/
def flashAnd (m : SMap Byte) (a : Nat) : Bytes → SMap Byte
  | [] => m
  | b :: bs => flashAnd (smSet 0xFF m a (smGet 0xFF m a &&& b)) (a + 1) bs

/-- What a flash command does, and its status. -/
def flashDo (s : State) (op a n : Nat) : State × Nat :=
  let page := decide (1 ≤ n) && decide (a % 256 + n ≤ 256)
  if op = 1 then (if page then (flBufPut s (flashBytes s a n), 0) else (s, 0x0A))
  else if op = 2 then
    if page && flashMay s a then (setBoot s { s.boot with flash := flashAnd s.boot.flash a ((flBuf s).take n) }, 0) else (s, 0x0A)
  else if op = 3 then
    if flashMay s a then (setBoot s { s.boot with flash := s.boot.flash.filter (fun c => c.1 / 65536 ≠ a / 65536) }, 0)
    else (s, 0x0A)
  else if op = 4 then (flBufPut s s.boot.flId, 0)
  else (s, 0x09)

/-- FLASH_DONE (R498). -/
def execFlashDone (s : State) : Out :=
  match s.boot.flCmd with
  | none => .next s
  | some (op, a, n) =>
    if ¬ blkUp s .boot then .next s
    else
      match flashDo s op a n with
      | (s, st) =>
        let s := setFld (setBoot s { s.boot with flCmd := none, flId := [] }) Csr.BOOT_FL_STAT 31 24 st
        .next (raise s 5 0x05 (op + st <<< 8) a)

/-! ### SEC commands (R494 to R499) -/

/-- An OP written to SEC_CMD. -/
def secCmdEff (s : State) (ini : Initiator) (op : Nat) : State :=
  match s.boot.secCmd with
  | some _ => violation s 3 true ini Csr.SEC_CMD
  | none => setBoot s { s.boot with secCmd := some (op, rd s (Csr.SEC_CMD_ARG 0), rd s (Csr.SEC_CMD_ARG 1)) }

/-- SHA-384 as bytes. -/
def hashBytes (bs : Bytes) : Bytes := toLE (Config.sha384 bs).toNat 48

/-- Measurement i as bytes. -/
def measure (s : State) (i : Nat) : Bytes := toLE (rdWords s (Csr.SEC_M i 0) 12) 48

/-- R494: an extension by 48 bytes. -/
def extend (s : State) (i : Nat) (d : Bytes) : State := wrWords s (Csr.SEC_M i 0) (fromLE (hashBytes (measure s i ++ d))) 12

/-- A bit of a security word blown in both copies. -/
def blow (s : State) (w v : Nat) : State :=
  let put (m : SMap W32) (i : Nat) : SMap W32 := smSet 0 m i (smGet 0 m i ||| BitVec.ofNat 32 v)
  setBoot s { s.boot with blown := put (put s.boot.blown w) (128 + w) }

/-- `n` words blown. -/
def blowWords (s : State) (w v : Nat) : Nat → State
  | 0 => s
  | n + 1 => blowWords (blow s w (v % 2 ^ 32)) (w + 1) (v / 2 ^ 32) n

/-- R495: the report before its signature. -/
def reportBytes (s : State) (nonce : Bytes) : Bytes :=
  let b7 := bootMode s + fld s Csr.BOOT_STAT 4 4 <<< 4 + b2n (flag s Csr.SEC_STAT 3) <<< 5
    + b2n (flag s Csr.FT_HEALTH 31) <<< 6 + b2n (flag s Csr.BOOT_STAT 6) <<< 7
  toLE 0x52505441 4 ++ toLE 1 2 ++ toLE (lifecycle s) 1 ++ toLE b7 1 ++ toLE (rd s Csr.FABC_PHYS) 8
    ++ toLE (rd s Csr.BOOT_IMAGE) 4 ++ toLE (fld s Csr.BOOT_SVN 7 0) 1 ++ toLE (fld s Csr.BOOT_SVN 15 8) 1 ++ toLE 0 10
    ++ ((countUp 0 8).map (measure s)).flatten ++ nonce

/-- A signature by the device key over the SHA-384 of some bytes. -/
def devSign (s : State) (bs : Bytes) : Bytes := bytesAt (Config.ecdsaSign s.boot.seed (hashBytes bs)) 0 96

/-- A read of tensor memory by SEC: `none` while it stalls, else what follows from its bytes or its status. -/
def secRead (s : State) (k a n : Nat) (f : State → Bytes → State × Option Nat) : State × Option Nat :=
  match ltaRead s (engKey 25 0 k) a n with
  | (s, none) => (s, none)
  | (s, some (st, b)) => if st = 0 then f s b else (s, some st)

/-- HASH. -/
def secHashDo (s : State) (a n : Nat) : State × Option Nat :=
  secRead s 0 a n (fun s b => (wrWords s (Csr.SEC_DIGEST 0) (fromLE (hashBytes b)) 12, some 0))

/-- VERIFY. -/
def secVerifyDo (s : State) (a : Nat) : State × Option Nat :=
  secRead (setFlag s Csr.SEC_CMD_STAT 8 false) 0 a 241 (fun s b =>
    (setFlag s Csr.SEC_CMD_STAT 8 (Config.ecdsaVerify (bytesAt b 144 97) (bytesAt b 0 48) (bytesAt b 48 96)), some 0))

/-- EXTEND: from firmware start M0 to M3 are closed. -/
def secExtendDo (s : State) (i a : Nat) : State × Option Nat :=
  if 8 ≤ i ∨ (i < 4 ∧ bootPhase s = 7) then (s, some 0x0A)
  else secRead s 0 a 48 (fun s b => (extend s i b, some 0))

/-- REPORT. -/
def secReportDo (s : State) (a d : Nat) : State × Option Nat :=
  if ¬ flag s Csr.SEC_STAT 2 then (s, some 0x0B)
  else
    secRead s 0 a 48 (fun s b =>
      let r := reportBytes s b
      ltaWrite s (engKey 25 0 1) d (r ++ devSign s r))

/-- SVN_SET. -/
def svnSetDo (s : State) (v : Nat) : State × Option Nat :=
  if fld s Csr.BOOT_SVN 7 0 < v ∨ v < fld s Csr.BOOT_SVN 15 8 then (s, some 0x0A)
  else (setFld (blowWords s 3 (2 ^ v - 1) 2) Csr.BOOT_SVN 15 8 v, some 0)

/-- KEY_PROGRAM. -/
def keyProgramDo (s : State) (t a : Nat) : State × Option Nat :=
  if 4 ≤ t ∨ flag s Csr.SEC_OWNER_STAT t then (s, some 0x0A)
  else
    secRead s 0 a 48 (fun s b =>
      let v := fromLE b
      let s := wrWords (blowWords s (17 + 12 * t) v 12) (Csr.SEC_OWNER t 0) v 12
      (setFlag s Csr.SEC_OWNER_STAT t (decide (v ≠ 0)), some 0))

/-- KEY_REVOKE. -/
def keyRevokeDo (s : State) (t : Nat) : State × Option Nat :=
  if 4 ≤ t ∨ s.boot.keyIdx = some t then (s, some 0x0A)
  else (setFlag (blow s 2 (1 <<< (4 + t))) Csr.SEC_OWNER_STAT (4 + t) true, some 0)

/-- LIFECYCLE_ADVANCE. -/
def lifecycleDo (s : State) : State × Option Nat :=
  let l := lifecycle s
  if l < 3 ∧ (bootMode s = 0xC ∨ l = 2) then
    (showKey (setFld (blow s 2 (1 <<< l)) Csr.BOOT_FUSE 3 0 (l + 1)), some 0)
  else (s, some 0x0A)

/-- What a SEC command does: `none` while an access stalls, else its status. -/
def secDo (s : State) (op a b : Nat) : State × Option Nat :=
  if op = 1 then secHashDo s a b
  else if op = 2 then secVerifyDo s a
  else if op = 3 then secExtendDo s a b
  else if op = 4 then secReportDo s a b
  else if op = 5 then svnSetDo s a
  else if op = 6 then keyProgramDo s a b
  else if op = 7 then keyRevokeDo s a
  else if op = 8 then lifecycleDo s
  else (s, some 0x09)

/-- SEC_CMD_DONE (R498): the Code field carries the status. -/
def execSecCmdDone (s : State) : Out :=
  match s.boot.secCmd with
  | none => .next s
  | some (op, a, b) =>
    if ¬ blkUp s .sec then .next s
    else
      match secDo s op a b with
      | (s, none) => .next s
      | (s, some st) =>
        let s := setFld (setBoot s { s.boot with secCmd := none }) Csr.SEC_CMD_STAT 31 24 st
        .next (raise s 6 st op 0)

/-! ### Hellos (R372, R492) -/

/-- HELLO_PROOF_SIGN (R492): the request that came first is served; no proof is sent while KEY_OK = 0. -/
def execHelloProofSign (l : Fin 24) (s : State) : Out :=
  if blkUp s .sec ∧ flag s Csr.SEC_STAT 2 ∧ s.fabc.proofs.head? = some l.val ∧ (linkOf s l).st = .hello then
    let v := linkOf s l
    let phys := toLE (rd s Csr.FABC_PHYS) 8
    let peer := fieldAt v.hello 0 8
    let sig := devSign s (bytesAt v.hello 16 32 ++ toLE peer 8 ++ phys ++ toLE v.nonce 32)
    let s := { s with fabc := { s.fabc with proofs := s.fabc.proofs.tail } }
    .next (sendLocal s l 0x02 (phys ++ sig))
  else .next s

end Sys2Proof.Machine
end

