-- ==== Sys2Proof/Machine/Access.lean ====
section
/-! DEFINITION. Control-register accesses (R7 to R15, R34, R489, R490, R544, R549): the checks, the reads, and what a
write does to each register. -/

namespace Sys2Proof.Machine

/-! ### Checks -/

/-- R489, R490, R555: the permission of an access. -/
def permitted (s : State) (ini : Initiator) (b : Blk) (a : Nat) (write : Bool) : Bool :=
  let c := iniClass ini
  let p := bit (rd s (Csr.SEC_PERM b.region)) (2 * c + (if write then 1 else 0))
  let dbg := decide (c ≠ 4) || flag s Csr.SEC_STAT 3
  if write then
    match b with
    | .sec => p && decide (c = 0)
    | .boot => p && dbg && (decide (c ≠ 2) || [4, 8, 9, 15].contains (bootMode s))
    | .glb => (p && dbg) || (decide (a = Csr.GLB_PLATE_ACK) && (decide (c = 0) || decide (c = 2)))
    | .rst => (p && dbg) || decide (a = Csr.RST_DBGREQ)
    | _ => p && dbg
  else p && dbg

/-- R512: the unit that holds an address is in reset. -/
def addrHeld (s : State) (a : Nat) : Bool :=
  match addrBit a with
  | some b => inResetBit s b
  | none => false

/-- What becomes of an access before it reaches a register. -/
inductive Gate where
  /-- Refused under R8: a violation. -/
  | viol
  /-- Served as an unoccupied offset, or by a block in reset (R11, R34, R512). -/
  | empty
  | served (r : RegAt)
  deriving DecidableEq, Repr

/-- R8, R11, R34, R489, R512. -/
def gate (s : State) (ini : Initiator) (a len : Nat) (write : Bool) : Gate :=
  if len ≠ 4 ∨ a % 4 ≠ 0 then .viol
  else
    match blkOf a with
    | none => .empty
    | some b =>
      if addrHeld s a then .empty
      else if ¬ permitted s ini b a write then .viol
      else match regAt a with | some r => .served r | none => .empty

/-! ### Fields (R12, R15, R42) -/

/-- The block's bit of GLB_SHADOW_DIRTY sets. -/
def markShadow (s : State) (a : Nat) : State :=
  match (blkOf a).bind Blk.commitIdx with
  | some i => wr s Csr.GLB_SHADOW_DIRTY (rd s Csr.GLB_SHADOW_DIRTY ||| 1 <<< i)
  | none => s

/-- One field of a write of `v` to the register at `a`, addressed at `w`. -/
def putField (s : State) (ini : Initiator) (a w v : Nat) (f : Field) : State :=
  let x := bits v f.hi f.lo
  match f.acc with
  | .rw | .rws => if f.legal.ok x then setFld s a f.hi f.lo x else violation s 2 true ini w
  | .sh =>
    if f.legal.ok x then markShadow (wrShadow s a (setBits (rdShadow s a) f.hi f.lo x)) a else violation s 2 true ini w
  | .w1c => setFld s a f.hi f.lo (without64 (fld s a f.hi f.lo) x)
  | .w1s => setFld s a f.hi f.lo (fld s a f.hi f.lo ||| x)
  | .ro | .wo | .rc => s

/-- The fields of a write, from the highest down. -/
def putFields (s : State) (ini : Initiator) (r : RegAt) (w v : Nat) : State :=
  r.row.fields.foldl (fun s f => putField s ini r.base w v f) s

/-- A write that the block's state turns away (R544). -/
def turnedAway (s : State) (ini : Initiator) (w : Nat) : State := violation s 3 true ini w

/-- A write of a register of which field [hi:lo] is locked: that field keeps its value. -/
def putLocked (s : State) (ini : Initiator) (r : RegAt) (w v hi lo : Nat) (locked : Bool) : State :=
  let old := fld s r.base hi lo
  if locked ∧ bits v hi lo ≠ old then turnedAway (putFields s ini r w (setBits v hi lo old)) ini w
  else putFields s ini r w v

/-- A write of a register that is locked as a whole. -/
def putUnless (s : State) (ini : Initiator) (r : RegAt) (w v : Nat) (locked : Bool) : State :=
  if locked then turnedAway s ini w else putFields s ini r w v

/-- `s` changed by `f` where `c` holds. -/
def whenB (c : Bool) (f : State → State) (s : State) : State := if c then f s else s

/-! ### What a write does, by block -/

/-- Writes to GLB. -/
def putGlb (s : State) (ini : Initiator) (r : RegAt) (w v : Nat) : State :=
  match r.row.reg with
  | .GLB_QUIESCE_REQ => quiesceReqEff s (v % 2 ^ 45)
  | .GLB_COMMIT => whenB (bit v 0) (fun s => commitGoEff s ini) s
  | .GLB_PLATE_CTRL => whenB (bit v 1) (fun s => plateClearEff s ini) (whenB (bit v 0) publishEff s)
  | .GLB_PLATE_ACK => plateAckEff s ini v
  | _ => putFields s ini r w v

/-- R111: 1 written to STRM_FAIL.VALID. -/
def strmFailEff (s : State) (a v : Nat) : State := if bit v 0 then setFlag (setFld s a 15 8 0) a 0 false else s

/-- Writes to the registers of core c. -/
def putCore (s : State) (ini : Initiator) (r : RegAt) (w v c : Nat) : State :=
  let t := r.idx.getD 2 0
  match r.row.reg with
  | .CORE_CTRL =>
    whenB (bit v 0) (fun s => coreRunEff s ini c) (whenB (bit v 1) (fun s => coreStopEff s c) (putFields s ini r w v))
  | .CORE_PC => corePcEff s ini c v
  | .CORE_FAULT_CLR => whenB (bit v 0) (fun s => coreFaultClrEff s c) s
  | .CORE_SB => coreSbClearEff s c v
  | .CORE_SB_SET => coreSbSetEff s c v
  | .CORE_SB_FAIL => coreSbFailEff s c v
  | .ACC_TMODE => accTmodeEff s ini c v
  | .CORE_TRQ => whenB (bit v 16) (fun s => setCore s c { coreOf s c with trqDropped := false }) s
  | .STRM_PUSH => strmPushEff s c t v
  | .STRM_CANCEL => whenB (bit v 0) (fun s => strmCancelAll s c t) s
  | .STRM_FAIL => strmFailEff s r.base v
  | _ => putFields s ini r w v

/-- Writes to the stack controllers: stack i. -/
def putStk (s : State) (ini : Initiator) (r : RegAt) (w v i : Nat) : State :=
  match r.row.reg with
  | .FSC_CTRL | .DSC_CTRL => whenB (bit v 0) (fun s => rowlogClrEff s i) (putFields s ini r w v)
  | .FSC_ERR_STAT | .DSC_ERR_STAT => whenB (bit v 31) (fun s => errClearEff s i) s
  | _ => putFields s ini r w v

/-- Writes to a near-bank unit. -/
def putNbu (s : State) (ini : Initiator) (r : RegAt) (w v n : Nat) : State :=
  match r.row.reg with
  | .NBU_CMD =>
    if v % 256 = 0 then putFields s ini r w v
    else if (nbuOf s n).cmd.isSome then turnedAway s ini w
    else nbuIssue (putFields s ini r w v) ini n (v % 256) (bit v 8)
  | _ => putFields s ini r w v

/-- Writes to the placement engine. -/
def putPlc (s : State) (ini : Initiator) (r : RegAt) (w v : Nat) : State :=
  match r.row.reg with
  | .PLC_CMD =>
    let ch := r.idx.getD 0 0
    if v % 256 = 0 then putFields s ini r w v
    else if (smGet none s.plcCh ch).isSome then turnedAway s ini w
    else plcIssue (putFields s ini r w v) ini ch (v % 256) (bit v 8)
  | _ => putFields s ini r w v

/-- Writes to the Relay engines and to the media block. -/
def putRings (s : State) (ini : Initiator) (r : RegAt) (w v : Nat) : State :=
  let i := r.idx.getD 0 0
  let q := r.idx.getD 1 0
  match r.row.reg with
  | .RLY_SQ_BASE => putUnless s ini r w v (flag s (Csr.RLY_SQ_SIZE i q) 31)
  | .RLY_RB_BASE => putUnless s ini r w v (flag s (Csr.RLY_RB_SIZE i) 31)
  | .MED_SQ_BASE => putUnless s ini r w v (flag s (Csr.MED_SQ_SIZE i) 31)
  | .RLY_SQ_PI => rlySqPi s ini i q (v % 2 ^ 17)
  | .RLY_RB_PI => rlyRbPi s ini i (v % 2 ^ 17)
  | .MED_SQ_PI => medSqPi s ini i (v % 2 ^ 17)
  | _ => putFields s ini r w v

/-- A write of FAB_LINK_CTRL of link l (R348, R471). -/
def linkCtrlEff (s : State) (ini : Initiator) (r : RegAt) (w v l : Nat) : State :=
  let v := if isolated s then setBits v 0 0 (fld s r.base 0 0) else v
  let s := linkEnableEff (putFields s ini r w v) l
  let s := if bit v 1 then linkAdmitEff s l else linkRevokeEff s l
  whenB (bit v 2) (fun s => linkRetrainEff s l) s

/-- Writes to the fabric ports. -/
def putPort (s : State) (ini : Initiator) (r : RegAt) (w v : Nat) : State :=
  match r.row.reg with
  | .FAB_LINK_CTRL => linkCtrlEff s ini r w v (2 * r.idx.getD 0 0 + r.idx.getD 1 0)
  | _ => putFields s ini r w v

/-- Writes to the fabric block. -/
def putFabc (s : State) (ini : Initiator) (r : RegAt) (w v : Nat) : State :=
  let active := decide (r.idx.getD 0 0 = pgBank s)
  match r.row.reg with
  | .FABC_ROUTE | .PGRP_CFG | .PGRP_D | .PGRP_PROT_BASE | .PGRP_PAR_BASE | .PGRP_DEV => putUnless s ini r w v active
  | .FABC_SWITCH => whenB (bit v 0) routeSwitch s
  | .FABC_MGMT_PUSH => mgmtPush s v
  | .PGRP_JRNL_CMD =>
    if v % 4 = 0 then putFields s ini r w v
    else if s.fabc.jop.isSome then turnedAway s ini w
    else jrnlEff (putFields s ini r w v) ini (v % 4) (bits v 27 16)
  | _ => putFields s ini r w v

/-- Writes to the host link. -/
def putHlk (s : State) (ini : Initiator) (r : RegAt) (w v : Nat) : State :=
  let i := r.idx.getD 0 0
  match r.row.reg with
  | .HLK_CTRL => whenB (bit v 2) (fun s => linkRetrainEff s 24) (linkEnableEff (putFields s ini r w v) 24)
  | .HLK_ATTACH => whenB (bit v 1) detachEff (whenB (bit v 0) (fun s => attachEff s ini (bits v 31 16)) s)
  | .HLK_FW_DONE => fwDoneEff s ini v
  | .HLK_SQ_TAIL => sqTailEff s ini i v
  | .HLK_CQ_HEAD => cqHeadEff s ini i v
  | .HLK_SQ_BASE => putUnless s ini r w v (flag s (Csr.HLK_SQ_CFG i) 31)
  | .HLK_CQ_BASE => putUnless s ini r w v (flag s (Csr.HLK_CQ_CFG i) 31)
  | .HLK_SQ_CFG => putLocked s ini r w v 4 0 (flag s r.base 31)
  | .HLK_CQ_CFG => hlkDrain (putLocked s ini r w v 4 0 (flag s r.base 31))
  | .HLK_ORPHAN_SIZE => hlkDrain (putFields s ini r w v)
  | .HLK_HWIN_HOST | .HLK_HWIN_SIZE => putUnless s ini r w v (flag s (Csr.HLK_HWIN_CTRL i) 31)
  | .HLK_VEC_CTRL => if flag s r.base 0 ∧ ¬ bit v 0 then vecUnmaskEff s i else putFields s ini r w v
  | _ => putFields s ini r w v

/-- Writes to the event controller. -/
def putEvt (s : State) (ini : Initiator) (r : RegAt) (w v : Nat) : State :=
  let i := r.idx.getD 0 0
  match r.row.reg with
  | .EVT_SWRAISE => swraiseEff s ini v
  | .EVT_TGT_BASE => putUnless s ini r w v (flag s (Csr.EVT_TGT_CFG i) 31)
  | .EVT_TGT_CFG =>
    let v := if i = 8 then v else setBits v 23 16 0
    putLocked s ini r w v 3 0 (flag s r.base 31)
  | .EVT_TGT_CI => tgtCiEff s ini i (v % 2 ^ 17)
  | .EVT_TGT_NEST => whenB (bit v 1) (fun s => nestExitEff s ini i) (whenB (bit v 0) (fun s => nestEnterEff s i) s)
  | .EVT_TGT_STAT => whenB (bit v 31) (fun s => evtFaultClearEff s i) s
  | .EVT_SRC_CFG => whenB (bit v 30) (fun s => purgeEff s i) (putFields s ini r w v)
  | _ => putFields s ini r w v

/-- Writes to the processors' registers: processor p. -/
def putProc (s : State) (ini : Initiator) (r : RegAt) (w v p : Nat) : State :=
  match r.row.reg with
  | .PROC_CTRL =>
    let s := putFields s ini r w v
    let s := whenB (bit v 1) (fun s => haltEff s p) s
    let s := whenB (bit v 0) (fun s => runEff s p) s
    whenB (bit v 2) (fun s => dinvEff s p) s
  | .PROC_WDT =>
    if bits v 23 0 = 0 then wdtWriteEff (violation s 2 true ini w) p (setBits (rd s r.base) 31 31 (bits v 31 31))
    else wdtWriteEff s p (bits v 31 31 <<< 31 + bits v 23 0)
  | .PROC_WDT_KICK => wdtKickEff s ini p v
  | _ => putFields s ini r w v

/-- R498: an OP written to BOOT_FL_CMD. What the flash answers to READ_ID is not the module's to say. -/
def flOpEff (s : State) (ini : Initiator) (op : Nat) : State :=
  if op = 0 then s
  else if op = 4 then
    match fresh s 31 with
    | (n, s) => flCmdEff s ini op (toLE n 256)
  else flCmdEff s ini op []

/-- Writes to BOOT and SEC. -/
def putBoot (s : State) (ini : Initiator) (r : RegAt) (w v : Nat) : State :=
  match r.row.reg with
  | .BOOT_CTRL =>
    let s := whenB (decide (bits v 7 4 ≠ 0)) (fun s => modeOvrEff s ini (bits v 7 4)) s
    whenB (bit v 0) releaseEff (whenB (bit v 1) confirmEff s)
  | .BOOT_FL_CMD => flOpEff s ini (v % 256)
  | .BOOT_HOST_DATA => hostDataEff s ini v
  | .SEC_LOCK => whenB (bit v 0) (fun s => setFlag s Csr.SEC_STAT 0 true) (putFields s ini r w v)
  | .SEC_PERM => putUnless s ini r w v (flag s Csr.SEC_STAT 0)
  | .SEC_CMD => whenB (decide (v % 256 ≠ 0)) (fun s => secCmdEff s ini (v % 256)) s
  | _ => putFields s ini r w v

/-- Writes to RST and PWR. -/
def putRst (s : State) (ini : Initiator) (r : RegAt) (w v : Nat) : State :=
  match r.row.reg with
  | .RST_SWREQ => swreqEff s ini v
  | .RST_DBGREQ => dbgreqEff s ini v
  | .RST_BLK_REQ => blkReqEff s (v &&& 0xE_1FFF_FFFF_FFFF)
  | .PWR_STAT => setPwr s { s.pwr with lastState := bits v 10 8 }
  | _ => putFields s ini r w v

/-- The whole value of a register written. -/
def putReg (s : State) (ini : Initiator) (r : RegAt) (w v : Nat) : State :=
  let i := r.idx.getD 0 0
  match blkOf r.base with
  | some .glb => putGlb s ini r w v
  | some (.core c) => putCore s ini r w v c
  | some (.fsc k) => putStk s ini r w v k
  | some (.dsc d) => putStk s ini r w v (12 + d)
  | some (.nbu n) => putNbu s ini r w v n
  | some .plc => putPlc s ini r w v
  | some (.rly _) => putRings s ini r w v
  | some .med => putRings s ini r w v
  | some (.port _) => putPort s ini r w v
  | some .fabc => putFabc s ini r w v
  | some .hlk => putHlk s ini r w v
  | some .evt => putEvt s ini r w v
  | some (.quad _) => putProc s ini r w v i
  | some .cpx => putProc s ini r w v i
  | some .boot => putBoot s ini r w v
  | some .sec => putBoot s ini r w v
  | some .rst => putRst s ini r w v
  | some .pwr => putRst s ini r w v
  | some .aon => putFields s ini r w v
  | some .clk => s
  | some .dbg => s
  | none => s

/-! ### Words -/

/-- R86: the core that an address belongs to zeroes its memories, and holds writes. -/
def coreHolds (s : State) (a : Nat) : Bool :=
  match blkOf a with
  | some (.core c) => (coreOf s c).init
  | _ => false

/-- R45: a commit in progress holds writes of a register's SH fields. -/
def commitHolds (s : State) (r : RegAt) : Bool :=
  match s.commit, (blkOf r.base).bind Blk.commitIdx with
  | some m, some i => bit m i && r.row.fields.any (fun f => decide (f.acc = .sh))
  | _, _ => false

/-- A word that has passed the checks (R10, R45, R86). -/
def putWord (s : State) (ini : Initiator) (r : RegAt) (a v : Nat) : State :=
  let key := iniKey ini r.base
  if coreHolds s a then { s with coreHeld := s.coreHeld ++ [⟨ini, a, v⟩] }
  else if r.row.wide ∧ ¬ r.high then { s with heldLow := smSet none s.heldLow key (some (BitVec.ofNat 32 v)) }
  else if commitHolds s r then { s with heldWrites := s.heldWrites ++ [⟨ini, a, v⟩] }
  else if r.row.wide then
    let low := match smGet none s.heldLow key with
      | some x => x.toNat
      | none => regView s r % 2 ^ 32
    putReg { s with heldLow := smSet none s.heldLow key none } ini r a (v % 2 ^ 32 * 2 ^ 32 + low)
  else putReg s ini r a (v % 2 ^ 32)

/-- A write of the control-register space. -/
def ctlWrite (ini : Initiator) (a len v : Nat) (s : State) : State :=
  if awake s then
    match gate s ini a len true with
    | .viol => violation s 1 true ini a
    | .empty => s
    | .served r => putWord s ini r a v
  else s

/-- A held write lands. -/
def land (s : State) (h : HeldWrite) : State :=
  match regAt h.addr with
  | some r => putWord s h.ini r h.addr h.v
  | none => s

/-- A word read (R9, R12, R549). `left`: what an RC counter keeps. -/
def getWord (s : State) (ini : Initiator) (r : RegAt) (left : Nat) : State × Nat :=
  let key := iniKey ini r.base
  if r.high then (s, (smGet 0 s.latchHigh key).toNat)
  else
    let v := regView s r
    let s := if r.row.wide then { s with latchHigh := smSet 0 s.latchHigh key (BitVec.ofNat 32 (v / 2 ^ 32)) } else s
    (readClear s r left, v % 2 ^ 32)

/-- A read of the control-register space, with its value. -/
def ctlReadLeft (ini : Initiator) (a len left : Nat) (s : State) : State × Nat :=
  if awake s then
    match gate s ini a len false with
    | .viol => (violation s 1 false ini a, 0)
    | .empty => (s, 0)
    | .served r => getWord s ini r left
  else (s, 0)

/-- A read of the control-register space. -/
def ctlRead (ini : Initiator) (a len : Nat) (s : State) : State × Nat := ctlReadLeft ini a len 0 s

/-- A read, its value left in the output latch. -/
def readOut (ini : Initiator) (a left : Nat) (s : State) : State :=
  match ctlReadLeft ini a 4 left s with
  | (s, v) => { s with busData := v }

end Sys2Proof.Machine
end

