-- ==== Sys2Proof/Machine/FabAccess.lean ====
section
/-! DEFINITION. Accesses by fabric address (R30 to R32, R361 to R365, R383, R384), source-routed register accesses (R378)
and the host's device windows (R422, R423). -/

namespace Sys2Proof.Machine

/-! ### Service in this module -/

/-- What becomes of an access: it stalls, it goes on in host memory, or it has ended. -/
inductive FabRes where
  | wait
  | going
  | ended (status : Nat) (data : Bytes)
  deriving DecidableEq, Repr

/-- Parts of a fabric address (R30). -/
def fabRsvd (a : Nat) : Nat := a % 2 ^ 64 / 2 ^ 58
def fabDev (a : Nat) : Nat := bits a 57 46
def fabSpace (a : Nat) : Nat := bits a 45 44
def fabOff (a : Nat) : Nat := bits a 43 0

/-- R31, R32: statuses that an address has of itself. -/
def fabBad (space off : Nat) : Nat := if space = 3 then 0x09 else if space = 1 ∧ 2 ^ 28 ≤ off then 0x0A else 0

/-- The end of a placement access. -/
def ltaEnd : State × Option (Nat × Bytes) → State × FabRes
  | (s, none) => (s, .wait)
  | (s, some (st, d)) => (s, .ended st d)

/-- The end of an access of host memory. -/
def hostEnd (n : Nat) : State × HostRes → State × FabRes
  | (s, .wait) => (s, .wait)
  | (s, .going) => (s, .going)
  | (s, .ended st) => (s, .ended st (List.replicate n 0))

/-- R31, R364: an access of a space of this module by `ini`. `owner` waits for host memory. -/
def fabServe (s : State) (ini : Initiator) (key space off n : Nat) (w : Option Bytes) (owner : HostOwner) :
    State × FabRes :=
  let bad := fabBad space off
  if bad ≠ 0 then (s, .ended bad [])
  else if space = 0 then ltaEnd (engineLta s key off n w)
  else if space = 1 then
    match w with
    | some bs => (ctlWrite ini off n (fieldAt bs 0 4) s, .ended 0 [])
    | none =>
      match ctlRead ini off n s with
      | (s, v) => (s, .ended 0 (toLE v n))
  else
    match w with
    | some bs => hostEnd n (hostWrite s ini off bs owner)
    | none => hostEnd n (hostRead s ini off n owner)

/-- R361, R433: the device ID is this module's own. `bare`: any ID is, while none is assigned (R422). -/
def ownDev (s : State) (dev : Nat) (bare : Bool) : Bool :=
  if flag s Csr.FABC_SELF 31 then decide (dev = fld s Csr.FABC_SELF 11 0) else bare

/-! ### Requests of peers (R361, R364, R383, R384) -/

/-- R361: what a request is answered with before anything else. -/
def reqBad (m : FabMsg) : Nat :=
  if m.rsvd ≠ 0 ∨ m.sub ≠ 0 ∨ m.addr / 2 ^ 46 ≠ 0 then 0x09
  else if m.len = 0 ∨ 4096 < m.len ∨ 4096 < fabOff m.addr % 4096 + m.len then 0x0A
  else fabBad (fabSpace m.addr) (fabOff m.addr)

/-- R383: window w admits the request. -/
def windowAdmits (s : State) (m : FabMsg) (w : Nat) : Bool :=
  let c := rd s (Csr.FABC_WIN_CTRL w)
  let base := rd s (Csr.FABC_WIN_BASE w)
  bit c 31 && bit c (if m.mtype = 1 then 29 else 30) && decide (bits c 25 24 = fabSpace m.addr)
    && decide (bits c 11 0 ≤ m.src) && decide (m.src ≤ bits c 23 12) && decide (base ≤ fabOff m.addr)
    && decide (fabOff m.addr + m.len ≤ base + rd s (Csr.FABC_WIN_SIZE w))

/-- R383: some window admits it, or it is the module's own. -/
def admitted (s : State) (m : FabMsg) : Bool :=
  ownDev s m.src false || (countUp 0 64).any (windowAdmits s m)

/-- R384: a request that no window admits. -/
def windowViol (s : State) (m : FabMsg) : State :=
  let s := bumpOcc (violation s 4 (decide (m.mtype = 2)) .peer 0) Csr.FABC_VIOL 1
  if flag s Csr.FABC_VIOL_CAP 63 then s
  else wr s Csr.FABC_VIOL_CAP (1 <<< 63 + (if m.mtype = 2 then 1 else 0) <<< 62 + fabSpace m.addr <<< 60
    + (m.src % 4096) <<< 48 + fabOff m.addr)

/-- The request performed and answered; one that stalls, or whose host write goes on, is answered later. -/
def requestEff (s : State) (m : FabMsg) : State :=
  let bad := reqBad m
  if bad ≠ 0 then respond s m bad []
  else if ¬ admitted s m then respond (windowViol s m) m 0 (List.replicate m.len 0)
  else
    let w := if m.mtype = 2 then some (bytesAt m.payload 0 m.len) else none
    match fabServe s .peer (engKey 26 m.src m.tag) (fabSpace m.addr) (fabOff m.addr) m.len w (.peer m) with
    | (t, .ended st d) => respond t m st (bytesAt d 0 m.len)
    | (t, _) => t

/-- RD_REQ (R364). -/
def execRdReq (m : FabMsg) (s : State) : Out :=
  if fabcUp s ∧ m.mtype = 1 then .next (requestEff s m) else .next s

/-- WR_REQ (R364). -/
def execWrReq (m : FabMsg) (s : State) : Out :=
  if fabcUp s ∧ m.mtype = 2 then .next (requestEff s m) else .next s

/-! ### Requests of this module (R361 to R363, R365) -/

/-- R365: the range shares a 64-byte line with an outstanding request to the same destination. -/
def lineHeld (s : State) (m : FabMsg) : Bool :=
  s.fabc.txns.any (fun x => match x.2 with
    | some t => decide (t.req.dst = m.dst) && decide (fabSpace t.req.addr = fabSpace m.addr)
        && decide (fabOff t.req.addr / 64 ≤ (fabOff m.addr + m.len - 1) / 64)
        && decide (fabOff m.addr / 64 ≤ (fabOff t.req.addr + t.req.len - 1) / 64)
    | none => false)

/-- R362: the lowest free tag. -/
def freeTag (s : State) : Option Nat :=
  (countUp 0 (s.fabc.txns.length + 1)).find? (fun t => t < 131072 ∧ (smGet none s.fabc.txns t).isNone)

/-- R362: the request takes a tag, with its generation advanced, and goes to the fabric. -/
def takeTag (s : State) (m : FabMsg) (t : Nat) : State :=
  let g := (smGet 0 s.fabc.gens t + 1) % 8
  let m := { m with tag := t, gen := g, src := selfDev s, hops := 0 }
  let f := { s.fabc with txns := smSet none s.fabc.txns t (some { gen := g, req := m }), gens := smSet 0 s.fabc.gens t g }
  send { s with fabc := f } m

/-- FABRIC_REQUEST_ISSUE (R361 to R365): a unit's request, which carries the unit's own number as its tag until it takes
one. A request to this module is served here. -/
def execFabricRequestIssue (m : FabMsg) (s : State) : Out :=
  let s := { s with answers := [] }
  if ¬ fabcUp s ∨ (m.mtype ≠ 1 ∧ m.mtype ≠ 2) then .next s
  else if ownDev s m.dst false then
    let bad := reqBad m
    if bad ≠ 0 then .next (answer s m.tag bad [])
    else
      let w := if m.mtype = 2 then some (bytesAt m.payload 0 m.len) else none
      match fabServe s .peer (engKey 27 0 m.tag) (fabSpace m.addr) (fabOff m.addr) m.len w (.unit m.tag) with
      | (t, .ended st d) => .next (answer t m.tag st (if m.mtype = 1 ∧ st = 0 then bytesAt d 0 m.len else []))
      | (t, _) => .next t
  else if lineHeld s m then .next s
  else
    match routeFate s { m with src := selfDev s, hops := 0, sub := 0 } 0 false with
    | .drop _ => .next (answer s m.tag 0x05 [])
    | _ =>
      match freeTag s with
      | some t => .next (takeTag s m t)
      | none => .next s

/-! ### Source-routed register accesses (R378) -/

/-- R376: the answer's route: the recorded links in reverse order, ended by 31. -/
def answerRoute (m : FabMsg) : List Nat :=
  let back := ((countUp 0 (min 8 m.hops)).map (slotAt m.rroute)).reverse ++ [31]
  (countUp 0 9).map (fun i => back.getD i 0)

/-- SR_RSP. -/
def srAnswer (s : State) (m : FabMsg) (st : Nat) (d : Bytes) : State :=
  send s { mtype := 6, sub := 5, dst := m.src, src := selfDev s, tag := m.tag, gen := m.gen, sr := m.sr, addr := m.addr,
           len := d.length, status := BitVec.ofNat 8 st, route := if m.sr then answerRoute m else [], payload := d }

/-- R32, R378: an address that is no control register. -/
def srBad (m : FabMsg) : Nat := if fabSpace m.addr ≠ 1 then 0x09 else fabBad 1 (fabOff m.addr)

/-- SR_READ (R378). -/
def execSrRead (m : FabMsg) (s : State) : Out :=
  if ¬ fabcUp s ∨ m.mtype ≠ 6 ∨ m.sub ≠ 3 then .next s
  else if srBad m ≠ 0 then .next (srAnswer s m (srBad m) [])
  else if ¬ flag s Csr.FABC_CFG 8 then .next (srAnswer (violation s 1 false .peer (fabOff m.addr)) m 0 (toLE 0 4))
  else
    match ctlRead .peer (fabOff m.addr) m.len s with
    | (s, v) => .next (srAnswer s m 0 (toLE v 4))

/-- SR_WRITE (R378). -/
def execSrWrite (m : FabMsg) (s : State) : Out :=
  if ¬ fabcUp s ∨ m.mtype ≠ 6 ∨ m.sub ≠ 4 then .next s
  else if srBad m ≠ 0 then .next (srAnswer s m (srBad m) [])
  else if ¬ flag s Csr.FABC_CFG 8 then .next (srAnswer (violation s 1 true .peer (fabOff m.addr)) m 0 [])
  else .next (srAnswer (ctlWrite .peer (fabOff m.addr) m.len (fieldAt m.payload 0 4) s) m 0 [])

/-! ### Device windows (R422, R423) -/

/-- R422: where a device-window access goes: a control register, a fabric address, or nowhere. -/
inductive DwinRes where
  | ctl (a : Nat)
  | fab (a : Nat)
  | viol
  deriving DecidableEq, Repr

def dwin (s : State) (a n : Nat) (write : Bool) : DwinRes :=
  let w := bits a 39 34
  let o := a % 2 ^ 34
  if w = 0 then (if o < 2 ^ 28 then .ctl o else .viol)
  else
    let c := rd s (Csr.HLK_DWIN_CTRL (w - 1))
    let t := (fld s (Csr.HLK_DWIN_TGT (w - 1)) 63 12 <<< 12 + o) % 2 ^ 64
    if bit c 31 ∧ bit c (if write then 30 else 29) ∧ o + n ≤ fld s (Csr.HLK_DWIN_SIZE (w - 1)) 22 0 * 4096
        ∧ fabSpace t < 2 then .fab t
    else .viol

/-- R422: an access that no window admits. -/
def dwinViol (s : State) (write : Bool) : State := violation (bumpOcc s Csr.HLK_VIOL 1) 4 write .host 0

/-- The access performed; `none` while it stalls. A target on another module answers through `ext`. -/
def dwinServe (s : State) (a n : Nat) (w : Option Bytes) (ext : Ext) : State × Option (Nat × Bytes) :=
  let zeros := List.replicate n (0 : Byte)
  match dwin s a n w.isSome with
  | .viol => (dwinViol s w.isSome, some (0, zeros))
  | .ctl o =>
    match w with
    | some bs => (ctlWrite .host o n (fieldAt bs 0 4) s, some (0, zeros))
    | none => match ctlRead .host o n s with | (s, v) => (s, some (0, toLE v n))
  | .fab t =>
    if fabRsvd t ≠ 0 then (s, some (0x09, zeros))
    else if ownDev s (fabDev t) true then
      match fabServe s .peer (engKey 28 0 0) (fabSpace t) (fabOff t) n w .none with
      | (s, .ended st d) => (s, some (st, d))
      | (s, _) => (s, none)
    else (s, some (ext.status.toNat, ext.data))

/-- H_RSP (R423). -/
def hostResponse (s : State) (m : HostMsg) (st : Nat) (d : Bytes) : State :=
  hostSend s { mtype := 3, tag := m.tag, addr := m.addr, len := m.len, status := BitVec.ofNat 8 st,
               payload := if st = 0 then bytesAt d 0 m.len else [] }

/-- R420: the message breaks the protocol. -/
def hostMsgBad (m : HostMsg) : Bool := decide (m.len = 0) || decide (4096 < m.addr % 4096 + m.len)

/-- H_RD (R422, R423). -/
def execHRd (m : HostMsg) (ext : Ext) (s : State) : Out :=
  if ¬ hostArrives s m 1 then .next s
  else if hostMsgBad m then .next (protoError s 24)
  else
    match dwinServe s m.addr m.len none ext with
    | (s, none) => .next s
    | (s, some (st, d)) => .next (hostResponse (hostTaken s m) m st d)

/-- H_WR (R422, R423). -/
def execHWr (m : HostMsg) (ext : Ext) (s : State) : Out :=
  if ¬ hostArrives s m 2 then .next s
  else if hostMsgBad m then .next (protoError s 24)
  else
    match dwinServe s m.addr m.len (some (bytesAt m.payload 0 m.len)) ext with
    | (s, none) => .next s
    | (s, some (st, _)) =>
      let s := hostTaken s m
      .next (if st = 0 then s else bumpOcc s Csr.HLK_HWR_FAIL 1)

/-! ### HLK commands that move bytes (R434) -/

/-- R434: how a part of an HLK command ends. -/
def endHPart (s : State) (q cid op part : Nat) (v : HPart) : State :=
  match todoCmd s q cid op part with
  | some c => setCmdPart s c part v
  | none => s

/-- A read of a device-side address; `none` while it stalls. -/
def cmdReadDev (s : State) (key a n : Nat) (ext : Ext) : State × Option (Nat × Bytes) :=
  if fabRsvd a ≠ 0 then (s, some (0x09, []))
  else if fabBad (fabSpace a) (fabOff a) ≠ 0 then (s, some (fabBad (fabSpace a) (fabOff a), []))
  else if ¬ ownDev s (fabDev a) true then (s, some (ext.status.toNat, bytesAt ext.data 0 n))
  else if fabSpace a = 2 then
    if session s = 0 ∧ s.hlk.lost then (s, some (0x07, []))
    else if (hostAddr s (fabOff a) n false).isNone then (hostViol s false .host, some (0, List.replicate n 0))
    else if session s = 0 ∨ ext.status ≠ 0 then (s, some (0x07, []))
    else (s, some (0, bytesAt ext.data 0 n))
  else
    match fabServe s .peer key (fabSpace a) (fabOff a) n none .none with
    | (s, .ended st d) => (s, some (st, bytesAt d 0 n))
    | (s, _) => (s, none)

/-- A read of host memory by a command: what the host answers is an operand. -/
def cmdReadHost (s : State) (a n : Nat) (ext : Ext) : State × Option (Nat × Bytes) :=
  if 2 ^ 44 ≤ a then (s, some (0x0A, []))
  else if session s = 0 ∧ s.hlk.lost then (s, some (0x07, []))
  else if (hostAddr s a n false).isNone then (hostViol s false .host, some (0, List.replicate n 0))
  else if session s = 0 ∨ ext.status ≠ 0 then (s, some (0x07, []))
  else (s, some (0, bytesAt ext.data 0 n))

/-- A write by a command's part. -/
def cmdWrite (s : State) (key a : Nat) (bs : Bytes) (toHost : Bool) (owner : HostOwner) (ext : Ext) : State × FabRes :=
  if toHost then (if 2 ^ 44 ≤ a then (s, .ended 0x0A []) else hostEnd 0 (hostWrite s .host a bs owner))
  else if fabRsvd a ≠ 0 then (s, .ended 0x09 [])
  else if fabBad (fabSpace a) (fabOff a) ≠ 0 then (s, .ended (fabBad (fabSpace a) (fabOff a)) [])
  else if ownDev s (fabDev a) true then fabServe s .peer key (fabSpace a) (fabOff a) bs.length (some bs) owner
  else (s, .ended ext.status.toNat [])

/-- What a write leaves of its part. -/
def writeEnd (q cid op part : Nat) : State × FabRes → State
  | (s, .wait) => s
  | (s, .going) => endHPart s q cid op part .waits
  | (s, .ended st _) => endHPart s q cid op part (.ended st)

/-- WRITE_INLINE (R434). -/
def execWriteInline (q : Fin 256) (cid : BitVec 16) (ext : Ext) (s : State) : Out :=
  match todoCmd s q cid.toNat 0x01 0 with
  | none => .next s
  | some c =>
    if ¬ hlkUp s then .next s
    else .next (writeEnd q cid.toNat 0x01 0 (cmdWrite s (engKey 29 q cid.toNat) (cAddr1 c)
      (bytesAt c.bytes 32 (cInline c)) (cDstHost c) (.part q cid.toNat 0) ext))

/-- COPY (R434): one part. -/
def execCopy (q : Fin 256) (cid : BitVec 16) (part : Nat) (src dst : Ext) (s : State) : Out :=
  match todoCmd s q cid.toNat 0x02 part with
  | none => .next s
  | some c =>
    if ¬ hlkUp s then .next s
    else
      let o := 4096 * part
      let n := min 4096 (cLen c - o)
      let a := (cAddr0 c + o) % 2 ^ 64
      match (if cSrcHost c then cmdReadHost s a n src else cmdReadDev s (engKey 29 q (cid.toNat + 65536)) a n src) with
      | (s, none) => .next s
      | (s, some (st, d)) =>
        if st ≠ 0 then .next (endHPart s q cid.toNat 0x02 part (.ended st))
        else
          match cmdWrite s (engKey 29 q (cid.toNat + 131072)) ((cAddr1 c + o) % 2 ^ 64) d (cDstHost c)
              (.part q cid.toNat part) dst with
          | (t, .wait) => .next t
          | r => .next (writeEnd q cid.toNat 0x02 part r)

/-- READ_SMALL (R434). -/
def execReadSmall (q : Fin 256) (cid : BitVec 16) (ext : Ext) (s : State) : Out :=
  match todoCmd s q cid.toNat 0x03 0 with
  | none => .next s
  | some c =>
    if ¬ hlkUp s then .next s
    else
      match cmdReadDev s (engKey 29 q cid.toNat) (cAddr0 c) (cLen c) ext with
      | (s, none) => .next s
      | (s, some (st, d)) =>
        let r := if st = 0 then fieldAt d 0 (cLen c) else 0
        .next (putCmdH s c { c with parts := setHPart c.parts 0 (.ended st), result := r })

end Sys2Proof.Machine
end

