-- ==== Sys2Proof/Machine/BootRom.lean ====
section
/-! DEFINITION. The boot ROM (R476 to R485, R490, R491, R494): while CP0 executes it, one phase, one CONFIG record or one
poll of a wait is the effect of one PROC_INSTRUCTION of CP0. -/

namespace Sys2Proof.Machine

def setRom (s : State) (r : Rom) : State := setBoot s { s.boot with rom := some r }

/-- Base of a slot in the flash (R479). -/
def slotBase (t : Nat) : Nat := if t = 0 then 0x1000000 else 0x2000000

/-- R479: bytes of a slot. -/
def slotSize : Nat := 0x1000000

/-- R442: bytes of a processor's local memory that an image may fill; the ROM keeps the top 64 KiB of CP0's (R476). -/
def lmemRoom (p : Nat) : Nat := if p = 0 then 0xF0000 else 0x100000

/-- R477: a failure ends the boot. -/
def bootFail (s : State) : State :=
  let ph := bootPhase s
  let s := haltNow (setPhase s 9) 0
  raise (setBoot s { s.boot with rom := none }) 5 0x03 ph 0

/-- R484: the boot goes on in SAFE. -/
def endInSafe (s : State) : State := showKey (setRom (setPhase (setFld s Csr.BOOT_STAT 23 20 0xF) 6) {})

/-! ### Self-test (R478) and the identity block (R491) -/

/-- The blocks of a mask failed the self-test. -/
def testFailed (s : State) (m : Nat) : State :=
  if m = 0 then s
  else
    let hold := m % 2 ^ 41
    let s := { s with rst := { s.rst with blk := s.rst.blk ||| hold, exiting := without64 s.rst.exiting hold } }
    let s := wr (doReset s hold false) Csr.RST_BLK_REQ (rd s Csr.RST_BLK_REQ ||| hold)
    setFlag (wr s Csr.FT_FAILED m) Csr.FT_HEALTH 31 true

/-- R491: the chain goes to SEC_CHAIN; IDENT is set when its leaf carries the device's key. -/
def loadIdentity (s : State) : State :=
  let n := fromLE (flashBytes s 4 2)
  if fromLE (flashBytes s 0 4) = 0x54494449 ∧ 1 ≤ n ∧ n ≤ 3072 then
    let chain := flashBytes s 8 n
    let s := wrWords (wr s Csr.SEC_CHAIN_LEN n) (Csr.SEC_CHAIN 0) (fromLE chain) 768
    setFlag s Csr.SEC_STAT 1 (decide (Config.leafKey chain = toLE (rdWords s (Csr.SEC_DEVPUB 0) 25) 97))
  else s

/-- R471: where the boot goes after the self-test. -/
def afterTest (s : State) : State :=
  let m := bootMode s
  if m = 4 then setPhase s 3
  else if m = 8 ∨ m = 9 then setPhase s 8
  else if m = 0xF then setPhase s 6
  else if m = 0xC ∧ 1 < lifecycle s then endInSafe s
  else setPhase s 2

/-- Phase SELFTEST: which blocks fail is not the manual's to say. -/
def romSelfTest (s : State) : State :=
  match fresh s 32 with
  | (n, s) =>
    let m := n % 2 ^ 45
    let s := testFailed s m
    if m / 2 ^ 41 ≠ 0 then bootFail s
    else if bootMode s = 0xA then haltNow s 0
    else if bootMode s = 0xB then s
    else afterTest (loadIdentity s)

/-! ### Slot choice (R484) -/

/-- The header of a slot. -/
def slotHeader (s : State) (t : Nat) : Bytes := flashBytes s (slotBase t) 4096

/-- R484: a slot is considered. -/
def slotConsidered (s : State) (r : Rom) (t : Nat) : Bool :=
  let only := if bootMode s = 2 then decide (t = 0) else if bootMode s = 3 then decide (t = 1) else true
  only && !r.tried.contains t && decide (imMagic (slotHeader s t) = 0x4E4D4C41)
    && decide (fld s Csr.BOOT_TRY (4 * t + 1) (4 * t) < 3)

/-- R484: the slot to try next: the later by SEQ first (R20). -/
def nextSlot (s : State) (r : Rom) : Option Nat :=
  if slotConsidered s r 0 then
    if slotConsidered s r 1 ∧ serial 32 (imSeq (slotHeader s 1)) (imSeq (slotHeader s 0)) = .later then some 1 else some 0
  else if slotConsidered s r 1 then some 1
  else none

/-- Phase SELECT. -/
def romSelect (s : State) (r : Rom) : State :=
  match nextSlot s r with
  | none => endInSafe s
  | some t => setPhase (setRom (setFld s Csr.BOOT_STAT 4 4 t) { r with slot := some t }) 3

/-- R484: an image fails: the local memories it wrote are zeroed, and the other slot is tried. -/
def imageFails (s : State) (r : Rom) : State :=
  let s := r.wrote.foldl (fun s p => setHart s p { hartOf s p with lmem := [] }) s
  match r.slot with
  | none => endInSafe s
  | some t =>
    let r := { tried := t :: r.tried : Rom }
    match nextSlot s r, fresh s 33 with
    | none, _ => endInSafe s
    | some _, (n, s) => setPhase (setRom (raise (setFlag s Csr.BOOT_STAT 5 true) 5 0x02 t (1 + n % 14)) r) 2

/-! ### Loading (R480, R481) -/

/-- Sections that hold records or permissions. -/
def stagedSect (x : Sect) : Bool := decide (x.type = 3) || decide (x.type = 4)

/-- R480, R481: a section that an image may hold; `room`: the bytes there are for the image. -/
def sectOk (room : Nat) (x : Sect) : Bool :=
  decide (x.off % 64 = 0) && decide (4096 ≤ x.off) && decide (x.off + x.len ≤ room) &&
    (if x.type = 1 ∨ x.type = 2 then decide (x.target < 8) && decide (x.dest + x.len ≤ lmemRoom x.target)
     else if x.type = 3 then decide (x.len % 16 = 0)
     else decide (x.type = 4) && decide (x.len = 76))

/-- R480, R481, R483: the header and sections are such as an image may have. -/
def imageFormOk (b : Bytes) (room : Nat) : Bool :=
  let ss := imSects b
  decide (imMagic b = 0x4E4D4C41) && decide (imFormat b = 1) && decide (4096 ≤ imLength b) && decide (imLength b ≤ slotSize)
    && decide (imLength b % 64 = 0) && decide (1 ≤ imNsec b) && decide (imNsec b ≤ 64) && ss.all (sectOk room)
    && decide (((ss.filter stagedSect).map (·.len)).sum ≤ 0x40000) && decide ((ss.filter (fun x => decide (x.type = 4))).length ≤ 1)

/-- R481: a CODE section goes into its target's local memory. -/
def writeCode (b : Bytes) (s : State) (x : Sect) : State :=
  if (x.type = 1 ∨ x.type = 2) ∧ ¬ inResetBit s (procBit x.target) then
    let h := hartOf s x.target
    setHart s x.target { h with lmem := memWrite h.lmem x.dest (bytesAt b x.off x.len) }
  else s

/-- An image is there: its sections are checked and its CODE written. -/
def loadImage (s : State) (r : Rom) (b : Bytes) (room : Nat) : State :=
  if imageFormOk b room then
    let code := (imSects b).filter (fun x => decide (x.type = 1) || decide (x.type = 2))
    setPhase (setRom (code.foldl (writeCode b) s) { r with image := b, wrote := (code.map (·.target)).eraseDups }) 4
  else imageFails s r

/-- Phase LOAD. In HOST_LOAD the ROM waits for the host's bytes. -/
def romLoad (s : State) (r : Rom) : State :=
  match r.slot with
  | some t => loadImage s r (flashBytes s (slotBase t) slotSize) slotSize
  | none =>
    let b := s.boot.hostImg
    if b.length < 4096 then s
    else if imLength b ≤ slotSize ∧ b.length < imLength b then s
    else loadImage s r b (imLength b)

/-! ### Verification (R483) -/

/-- R483: the image digest. -/
def imageDigest (b : Bytes) : Bytes :=
  hashBytes (bytesAt b 0 256 ++ List.replicate 96 0 ++ bytesAt b 352 (imLength b - 352))

/-- R483: the image is valid. -/
def imageValid (s : State) (b : Bytes) : Bool :=
  let k := imKeyIdx b % 4
  let key := bytesAt b 128 97
  flag s Csr.SEC_OWNER_STAT k && !flag s Csr.SEC_OWNER_STAT (4 + k)
    && decide (hashBytes key = toLE (rdWords s (Csr.SEC_OWNER k 0) 12) 48)
    && Config.ecdsaVerify key (imageDigest b) (bytesAt b 256 96)
    && decide (fld s Csr.BOOT_SVN 15 8 ≤ imSvn b) && decide (imSvn b ≤ 64)

/-- The bytes of the sections of a type, in order. -/
def sectBytes (b : Bytes) (ty : Nat) : Bytes :=
  ((imSects b).filter (fun x => decide (x.type = ty))).flatMap (fun x => bytesAt b x.off x.len)

/-- R490: the PERM section is written and locked. -/
def applyPerm (s : State) (b : Bytes) : State :=
  let p := sectBytes b 4
  let s := if p = [] then s else (countUp 0 19).foldl (fun s n => wr s (Csr.SEC_PERM n) (fieldAt p (4 * n) 4 % 1024)) s
  setFlag (setFlag s Csr.SEC_LOCK 0 true) Csr.SEC_STAT 0 true

/-- Phase VERIFY. A valid image is the one that runs from now on; its permissions come into force. -/
def romVerify (s : State) (r : Rom) : State :=
  let b := r.image
  if imageValid s b then
    let s := wr (setFld s Csr.BOOT_SVN 7 0 (imSvn b)) Csr.BOOT_IMAGE (imSeq b)
    let s := setBoot s { s.boot with keyIdx := some (imKeyIdx b % 4) }
    setPhase (setRom (applyPerm s b) { r with next := 0 }) 5
  else imageFails s r

/-! ### CONFIG records (R482) -/

/-- The ROM writes a 64-bit register. -/
def romWrite64 (s : State) (a v : Nat) : State :=
  ctlWrite (.cp 0) (a + 4) 4 (v / 2 ^ 32 % 2 ^ 32) (ctlWrite (.cp 0) a 4 (v % 2 ^ 32) s)

/-- The ROM reads a 64-bit register. -/
def romRead64 (s : State) (a : Nat) : State × Nat :=
  let lo := ctlRead (.cp 0) a 4 s
  let hi := ctlRead (.cp 0) (a + 4) 4 lo.1
  (hi.1, lo.2 + hi.2 * 2 ^ 32)

/-- What one look at a record brings. -/
inductive RecRes where
  | done
  | again (r : Rom)
  | failed
  deriving DecidableEq, Repr

/-- R42: the sequence of a COMMIT record: the request and GO when the blocks are quiesced, then the outcome. -/
def recCommit (s : State) (r : Rom) (mask : Nat) : State × RecRes :=
  if r.went then
    let v := ctlRead (.cp 0) Csr.GLB_COMMIT_STAT 4 s
    if bit v.2 0 then (v.1, .again r)
    else if bit v.2 1 then (v.1, .failed)
    else
      let q := romRead64 v.1 Csr.GLB_QUIESCE_REQ
      (romWrite64 q.1 Csr.GLB_QUIESCE_REQ (without64 q.2 mask), .done)
  else
    let q := romRead64 s Csr.GLB_QUIESCE_REQ
    let s := if without64 mask q.2 = 0 then q.1 else romWrite64 q.1 Csr.GLB_QUIESCE_REQ (q.2 ||| mask)
    let st := romRead64 s Csr.GLB_QUIESCE_STAT
    if without64 mask st.2 = 0 then
      let s := romWrite64 st.1 Csr.GLB_COMMIT_MASK mask
      (ctlWrite (.cp 0) Csr.GLB_COMMIT 4 1 s, .again { r with went := true })
    else (st.1, .again r)

/-- A WAIT record: one look at the register; 1 ms is 1,200,000 SCLK. -/
def recWait (s : State) (r : Rom) (a mask want tmo : Nat) : State × RecRes :=
  match ctlRead (.cp 0) a 4 s with
  | (s, v) =>
    let t0 := r.waitAt.getD s.stamp
    if v &&& mask = want then (s, .done)
    else if t0 + tmo * 1200000 ≤ s.stamp then (s, .failed)
    else (s, .again { r with waitAt := some t0 })

/-- One record. A WAIT whose timeout is 0 has a reserved encoding. -/
def recDo (s : State) (r : Rom) (x : Bytes) : State × RecRes :=
  let op := fieldAt x 0 1
  let tmo := fieldAt x 2 2
  let a := fieldAt x 4 4
  if op = 1 then (ctlWrite (.cp 0) a 4 (fieldAt x 8 4) s, .done)
  else if op = 2 then recCommit s r (fieldAt x 8 8 % 2 ^ 45)
  else if op = 3 ∧ tmo ≠ 0 then recWait s r a (fieldAt x 8 4) (fieldAt x 12 4) tmo
  else (s, .failed)

/-- R494: the measurements the ROM makes. How M0's and M3's data are laid out is not stated. -/
def romMeasure (s : State) (b : Bytes) : State :=
  match fresh s 34 with
  | (n0, s) =>
    match fresh s 35 with
    | (n3, s) =>
      let s := extend (extend s 0 (toLE n0 48)) 1 (imageDigest b)
      extend (extend s 2 (hashBytes (sectBytes b 4 ++ sectBytes b 3))) 3 (toLE n3 48)

/-- Phase CONFIG: one record, or the end of the records. -/
def romConfig (s : State) (r : Rom) : State :=
  let cs := sectBytes r.image 3
  if 16 * r.next < cs.length then
    let x := bytesAt cs (16 * r.next) 16
    match recDo s r x with
    | (s, .done) => setRom s { r with next := r.next + 1, went := false, waitAt := none }
    | (s, .again r) => setRom s r
    | (s, .failed) => bootFail (raise s 5 0x04 r.next (fieldAt x 4 4))
  else
    let s := romMeasure s r.image
    if bootMode s = 5 ∨ bootMode s = 0xE then setPhase s 6 else startFirmware s r

/-! ### The ROM in control -/

/-- CP0 executes the boot ROM. -/
def romRuns (s : State) : Option Rom :=
  let pc := (hartOf s 0).pc
  if 0x20000000 ≤ pc ∧ pc < 0x20010000 then s.boot.rom else none

/-- R477: what the ROM does next. In SERVICE and HOLD it waits. -/
def romStep (s : State) (r : Rom) : State :=
  match bootPhase s with
  | 0 => setPhase s 1
  | 1 => romSelfTest s
  | 2 => romSelect s r
  | 3 => romLoad s r
  | 4 => romVerify s r
  | 5 => romConfig s r
  | _ => s

end Sys2Proof.Machine
end

