-- ==== Sys2Proof/Machine/RiscV.lean ====
section
/-! DEFINITION. The RV64GC instruction set as far as one processor's registers go (R442): integer and floating-point
operations, control and status registers, traps. PRESUMED from the RISC-V specifications that R442 names. -/

namespace Sys2Proof.Machine

/-! ### Registers -/

def xOf (h : Hart) (i : Fin 32) : W64 := if i.val = 0 then 0 else smGet 0 h.x i
def setX (h : Hart) (i : Fin 32) (v : W64) : Hart := if i.val = 0 then h else { h with x := smSet 0 h.x i v }
def fOf (h : Hart) (i : Fin 32) : W64 := smGet 0 h.f i

/-- A write of a floating-point register marks FS dirty. -/
def setF (h : Hart) (i : Fin 32) (v : W64) : Hart :=
  { h with f := smSet 0 h.f i v, mstatus := h.mstatus ||| 0x6000 }

/-- A number as a register value. -/
def w64 (v : Nat) : W64 := BitVec.ofNat 64 v

/-- Sign extension of the low 32 bits. -/
def sext32 (v : W64) : W64 := (v.setWidth 32).signExtend 64

/-! ### Integer operations -/

/-- Signed quotient, with RISC-V's answers for division by zero and overflow. -/
def divS {n : Nat} (a b : BitVec n) : BitVec n := if b = 0 then BitVec.allOnes n else a.sdiv b
def divU {n : Nat} (a b : BitVec n) : BitVec n := if b = 0 then BitVec.allOnes n else a / b
def remS {n : Nat} (a b : BitVec n) : BitVec n := if b = 0 then a else a.srem b
def remU {n : Nat} (a b : BitVec n) : BitVec n := if b = 0 then a else a % b

/-- The upper 64 bits of a product. -/
def mulHigh (a b : Int) : W64 := BitVec.ofInt 64 (a * b / 2 ^ 64)

/-- An operation on the low words. -/
def onW (f : BitVec 32 → BitVec 32 → BitVec 32) (a b : W64) : W64 := (f (a.setWidth 32) (b.setWidth 32)).signExtend 64

def aluDo (op : AluOp) (a b : W64) : W64 :=
  let sh := b.toNat % 64
  let shw := b.toNat % 32
  match op with
  | .add => a + b
  | .sub => a - b
  | .sll => a <<< sh
  | .slt => if a.slt b then 1 else 0
  | .sltu => if a.ult b then 1 else 0
  | .xor => a ^^^ b
  | .srl => a >>> sh
  | .sra => a.sshiftRight sh
  | .or => a ||| b
  | .and => a &&& b
  | .addw => onW (· + ·) a b
  | .subw => onW (· - ·) a b
  | .sllw => onW (fun x _ => x <<< shw) a b
  | .srlw => onW (fun x _ => x >>> shw) a b
  | .sraw => onW (fun x _ => x.sshiftRight shw) a b
  | .mul => a * b
  | .mulh => mulHigh a.toInt b.toInt
  | .mulhsu => mulHigh a.toInt b.toNat
  | .mulhu => mulHigh a.toNat b.toNat
  | .div => divS a b
  | .divu => divU a b
  | .rem => remS a b
  | .remu => remU a b
  | .mulw => onW (· * ·) a b
  | .divw => onW divS a b
  | .divuw => onW divU a b
  | .remw => onW remS a b
  | .remuw => onW remU a b

def brTaken (c : BrCond) (a b : W64) : Bool :=
  match c with
  | .eq => decide (a = b)
  | .ne => decide (a ≠ b)
  | .lt => a.slt b
  | .ge => !a.slt b
  | .ltu => a.ult b
  | .geu => !a.ult b

/-- An atomic operation on `n` bits: old value, operand. -/
def amoDo {n : Nat} (op : AmoOp) (a b : BitVec n) : BitVec n :=
  match op with
  | .swap => b
  | .add => a + b
  | .xor => a ^^^ b
  | .and => a &&& b
  | .or => a ||| b
  | .min => if a.slt b then a else b
  | .max => if a.slt b then b else a
  | .minu => if a.ult b then a else b
  | .maxu => if a.ult b then b else a

def accLen : AccSize → Nat
  | .b => 1 | .h => 2 | .w => 4 | .d => 8

/-- A loaded value as a register takes it. -/
def loadValue (n : Nat) (unsigned : Bool) (v : Nat) : W64 :=
  if unsigned then w64 v else BitVec.ofInt 64 (signed (8 * n) v)

/-! ### Floating point -/

/-- A single-precision operand: a value that is not NaN-boxed reads as the canonical NaN. -/
def unbox (v : W64) : Nat := if v.toNat / 2 ^ 32 = 2 ^ 32 - 1 then v.toNat % 2 ^ 32 else 0x7FC00000

/-- A single-precision value in a register. -/
def nanBox (v : Nat) : W64 := w64 ((2 ^ 32 - 1) * 2 ^ 32 + v % 2 ^ 32)

def fpCode : FpOp → Nat
  | .add => 0 | .sub => 1 | .mul => 2 | .div => 3 | .sqrt => 4 | .min => 5 | .max => 6
  | .fma => 7 | .fms => 8 | .fnma => 9 | .fnms => 10
  | .sgnj => 11 | .sgnjn => 12 | .sgnjx => 13 | .eq => 14 | .lt => 15 | .le => 16 | .classify => 17
  | .cvtToW => 18 | .cvtToWu => 19 | .cvtToL => 20 | .cvtToLu => 21
  | .cvtFromW => 22 | .cvtFromWu => 23 | .cvtFromL => 24 | .cvtFromLu => 25
  | .cvtPrec => 26 | .mvToX => 27 | .mvFromX => 28

/-- The operation rounds, so that its rounding mode must be a defined one. -/
def fpRounds : FpOp → Bool
  | .add | .sub | .mul | .div | .sqrt | .fma | .fms | .fnma | .fnms => true
  | .cvtToW | .cvtToWu | .cvtToL | .cvtToLu | .cvtFromW | .cvtFromWu | .cvtFromL | .cvtFromLu | .cvtPrec => true
  | _ => false

/-- The rounding mode in force; `none` for a reserved one. -/
def roundMode (h : Hart) (rm : Nat) : Option Nat :=
  let r := if rm = 7 then bits h.fcsr.toNat 7 5 else rm
  if r ≤ 4 then some r else none

/-- Sign injection on `n`-bit operands. -/
def signInject (op : FpOp) (n a b : Nat) : Nat :=
  let s := b / 2 ^ (n - 1) % 2
  let t := match op with | .sgnj => s | .sgnjn => 1 - s | _ => (a / 2 ^ (n - 1) + s) % 2
  t * 2 ^ (n - 1) + a % 2 ^ (n - 1)

/-- One floating-point operation. IEEE results and flags are functions of the operands that the manual leaves to the
standards it names. -/
def fpDo (h : Hart) (op : FpOp) (double : Bool) (rd rs1 rs2 rs3 : Fin 32) (rm : Nat) : Hart :=
  let n := if double then 64 else 32
  let val (i : Fin 32) : Nat := if double then (fOf h i).toNat else unbox (fOf h i)
  let box (d : Bool) (v : Nat) : W64 := if d then w64 v else nanBox v
  let code := 2 * fpCode op + b2n double
  let a := match op with
    | .cvtFromW | .cvtFromWu | .cvtFromL | .cvtFromLu => (xOf h rs1).toNat
    | _ => val rs1
  let r := Config.floatResult code rm a (val rs2) (val rs3)
  let flags := Config.floatFlags code rm a (val rs2) (val rs3)
  let hf := { h with fcsr := h.fcsr ||| flags.setWidth 32, mstatus := h.mstatus ||| 0x6000 }
  match op with
  | .sgnj | .sgnjn | .sgnjx => setF h rd (box double (signInject op n (val rs1) (val rs2)))
  | .mvToX => setX h rd (if double then fOf h rs1 else sext32 (fOf h rs1))
  | .mvFromX => setF h rd (box double (xOf h rs1).toNat)
  | .eq | .lt | .le => setX hf rd (w64 (r % 2))
  | .classify => setX h rd (w64 (r % 2 ^ 10))
  | .cvtToW | .cvtToWu => setX hf rd (sext32 (w64 r))
  | .cvtToL | .cvtToLu => setX hf rd (w64 r)
  | .cvtPrec => setF hf rd (box (!double) r)
  | _ => setF hf rd (box double r)

/-! ### Control and status registers -/

/-- Value of a CSR of processor p; `none` where there is none. Cycle counts and the vendor's identifiers are free. -/
def csrValue (s : State) (p num : Nat) : Option Nat :=
  let h := hartOf s p
  let fs := bits h.mstatus.toNat 14 13 ≠ 0
  if num = 0x001 then (if fs then some (h.fcsr.toNat % 32) else none)
  else if num = 0x002 then (if fs then some (bits h.fcsr.toNat 7 5) else none)
  else if num = 0x003 then (if fs then some (h.fcsr.toNat % 256) else none)
  else if num = 0x300 then some (h.mstatus.toNat + (if bits h.mstatus.toNat 14 13 = 3 then 2 ^ 63 else 0))
  else if num = 0x301 then some 0x800000000000112D
  else if num = 0x304 then some h.mie.toNat
  else if num = 0x305 then some h.mtvec.toNat
  else if num = 0x320 then some 0
  else if 0x323 ≤ num ∧ num ≤ 0x33F then some 0
  else if num = 0x340 then some h.mscratch.toNat
  else if num = 0x341 then some h.mepc.toNat
  else if num = 0x342 then some h.mcause.toNat
  else if num = 0x343 then some h.mtval.toNat
  else if num = 0x344 then some (mipOf s p)
  else if num = 0xB00 ∨ num = 0xC00 then some (Config.freeValue 37 s.freeCtr % 2 ^ 64)
  else if num = 0xB02 ∨ num = 0xC02 then some h.instret.toNat
  else if num = 0xC01 then some (s.stamp % 2 ^ 64)
  else if (0xB03 ≤ num ∧ num ≤ 0xB1F) ∨ (0xC03 ≤ num ∧ num ≤ 0xC1F) then some 0
  else if num = 0xF11 ∨ num = 0xF12 ∨ num = 0xF13 then some (Config.freeValue 38 num % 2 ^ 64)
  else if num = 0xF14 then some p
  else if num = 0xF15 then some 0
  else none

/-- A CSR written; the read-only parts of a register keep their value. -/
def csrPut (h : Hart) (num v : Nat) : Hart :=
  let w := w64 v
  if num = 0x001 then { h with fcsr := BitVec.ofNat 32 (setBits h.fcsr.toNat 4 0 v), mstatus := h.mstatus ||| 0x6000 }
  else if num = 0x002 then { h with fcsr := BitVec.ofNat 32 (setBits h.fcsr.toNat 7 5 v), mstatus := h.mstatus ||| 0x6000 }
  else if num = 0x003 then { h with fcsr := BitVec.ofNat 32 (v % 256), mstatus := h.mstatus ||| 0x6000 }
  else if num = 0x300 then { h with mstatus := (w &&& 0x6088) ||| 0x1800 }
  else if num = 0x304 then { h with mie := w &&& 0x888 }
  else if num = 0x305 then { h with mtvec := w &&& ~~~2 }
  else if num = 0x340 then { h with mscratch := w }
  else if num = 0x341 then { h with mepc := w &&& ~~~1 }
  else if num = 0x342 then { h with mcause := w }
  else if num = 0x343 then { h with mtval := w }
  else if num = 0xB02 then { h with instret := w - 1 }
  else h

/-- A CSR instruction: `none` when it is illegal. `src`: its operand; `writes`: whether it writes at all. -/
def csrDo (s : State) (p : Nat) (write set : Bool) (num : Nat) (rd : Fin 32) (src : W64) (writes : Bool) : Option State :=
  match csrValue s p num with
  | none => none
  | some old =>
    if writes && decide (num / 1024 % 4 = 3) then none
    else
      let v := if write then src.toNat else if set then old ||| src.toNat else without64 old src.toNat
      let h := hartOf s p
      let h := if writes then csrPut h num v else h
      some (setHart { s with freeCtr := s.freeCtr + 1 } p (setX h rd (w64 old)))

/-! ### Traps -/

/-- A trap into machine mode. -/
def takeTrap (s : State) (p cause tval : Nat) (irq : Bool) : State :=
  let h := hartOf s p
  let m := h.mstatus.toNat
  let base := h.mtvec.toNat / 4 * 4
  let pc := if irq ∧ h.mtvec.toNat % 4 = 1 then (base + 4 * cause) % 2 ^ 64 else base
  setHart s p { h with pc := pc, mepc := w64 h.pc &&& ~~~1, mcause := w64 (b2n irq * 2 ^ 63 + cause), mtval := w64 tval,
                       mstatus := w64 (setBits (setBits m 7 7 (b2n (bit m 3))) 3 3 0), trapped := true }

/-- R447: the interrupt to take: external, software, timer. -/
def irqNow (s : State) (p : Nat) : Option Nat :=
  let m := mipOf s p &&& (hartOf s p).mie.toNat
  if ¬ bit (hartOf s p).mstatus.toNat 3 then none
  else if bit m 11 then some 11
  else if bit m 3 then some 3
  else if bit m 7 then some 7
  else none

/-- MRET. -/
def mretDo (h : Hart) : Hart :=
  let m := h.mstatus.toNat
  { h with pc := h.mepc.toNat, mstatus := w64 (setBits (setBits m 3 3 (b2n (bit m 7))) 7 7 1) }

end Sys2Proof.Machine
end

