-- ==== Sys2Proof/Machine/ProcInstr.lean ====
section
/-! DEFINITION. PROC_INSTRUCTION (R442 to R448): what one instruction of a processor does to its registers and to the
spaces it reaches. -/

namespace Sys2Proof.Machine

/-! ### The address map (R443) -/

/-- Where a processor's address lies. -/
inductive Region where
  | ctl (a : Nat)
  | loc (off : Nat)
  | rom (a : Nat)
  | tensor (lta : Nat)
  | host (a : Nat)
  | aper (i off : Nat)
  | none
  deriving DecidableEq, Repr

/-- R443: the region of `n` bytes at an address. -/
def regionOf (a n : Nat) : Region :=
  if a + n ≤ 0x10000000 then .ctl a
  else if 0x10000000 ≤ a ∧ a + n ≤ 0x10100000 then .loc (a - 0x10000000)
  else if 0x20000000 ≤ a ∧ a + n ≤ 0x20010000 then .rom a
  else if 0x1000_0000_0000 ≤ a ∧ a + n ≤ 0x2000_0000_0000 then .tensor (a - 0x1000_0000_0000)
  else if 0x2000_0000_0000 ≤ a ∧ a + n ≤ 0x3000_0000_0000 then .host (a - 0x2000_0000_0000)
  else if 0x3000_0000_0000 ≤ a ∧ a + n ≤ 0x3010_0000_0000 then
    .aper ((a - 0x3000_0000_0000) / 2 ^ 32) ((a - 0x3000_0000_0000) % 2 ^ 32)
  else .none

/-- The initiator that a processor is (R489, R549). -/
def hartIni (p : Nat) : Initiator := if p < 4 then .cp ⟨p % 4, Nat.mod_lt _ (by decide)⟩ else .qs ⟨p % 4, Nat.mod_lt _ (by decide)⟩

/-- What one instruction comes to: it waits, the next instruction follows at `pc`, or it traps. -/
inductive HRes where
  | wait
  | go (pc : Nat)
  | trap (cause tval : Nat)
  deriving DecidableEq, Repr

/-- What a load brings: it waits, its bytes, or an exception. -/
inductive LdRes where
  | wait
  | got (d : Bytes)
  | exc (cause : Nat)
  deriving DecidableEq, Repr

/-- What a store comes to. -/
inductive StRes where
  | wait
  | done
  | exc (cause : Nat)
  deriving DecidableEq, Repr

/-- R444: the end of an access with a status. -/
def ldEnd (s : State) (p a st : Nat) (d : Bytes) : State × LdRes :=
  if st = 0 then (s, .got d) else (procErr s p st a, .exc 5)

def stEnd (s : State) (p a st : Nat) : State × StRes :=
  if st = 0 then (s, .done) else (procErr s p st a, .exc 7)

/-! ### The data cache (R442, R443, R445) -/

/-- A line read into the data cache of 512 lines. Which line, if any, gives way is not stated. -/
def cacheFill (s : State) (p line : Nat) (d : Bytes) : State :=
  let c := smGet [] s.dcache p
  match fresh s 39 with
  | (n, s) =>
    let i := if c.length < 512 then n % (c.length + 1) else n % 512
    let c := c.take i ++ c.drop (i + 1)
    { s with dcache := smSet [] s.dcache p (smSet none c line (some d)) }

/-- A line of tensor memory as the processor reads it. -/
def cachedLine (s : State) (p line : Nat) : State × Option (Nat × Bytes) :=
  match smGet none (smGet [] s.dcache p) line with
  | some d => (s, some (0, d))
  | none =>
    match ltaRead s (engKey 30 p 0) line 64 with
    | (s, some (0, d)) => (cacheFill s p line d, some (0, d))
    | r => r

/-- A load from tensor memory: the line of its first byte, and the next where it goes on. -/
def tensorLoad (s : State) (p a lta n : Nat) : State × LdRes :=
  let line := lta / 64 * 64
  match cachedLine s p line with
  | (s, none) => (s, .wait)
  | (s, some (st, d)) =>
    if st ≠ 0 ∨ lta % 64 + n ≤ 64 then ldEnd s p a st (bytesAt d (lta % 64) n)
    else
      match cachedLine s p (line + 64) with
      | (s, none) => (s, .wait)
      | (s, some (st, e)) => ldEnd s p a st (bytesAt (d ++ e) (lta % 64) n)

/-- A line of the data cache takes the bytes of a store that touch it. -/
def cacheUpdate (s : State) (p line lta : Nat) (bs : Bytes) : State :=
  let c := smGet [] s.dcache p
  match smGet none c line with
  | none => s
  | some d =>
    let m := memWrite ((countUp 0 64).foldl (fun m i => smSet 0 m (line + i) (d[i]?.getD 0)) []) lta bs
    { s with dcache := smSet [] s.dcache p (smSet none c line (some (memRead m line 64))) }

/-- R443: a store to tensor memory is written through and allocates no line. -/
def tensorStore (s : State) (p a lta : Nat) (bs : Bytes) : State × StRes :=
  match ltaWrite s (engKey 30 p 0) lta bs with
  | (s, none) => (s, .wait)
  | (s, some st) =>
    if st ≠ 0 then stEnd s p a st
    else
      let line := lta / 64 * 64
      let s := cacheUpdate s p line lta bs
      (if lta % 64 + bs.length ≤ 64 then s else cacheUpdate s p (line + 64) lta bs, .done)

/-! ### Host windows and apertures -/

/-- A load through a host window: what the host answers is an operand. -/
def hostLoad (s : State) (p a h n : Nat) (ext : Ext) : State × LdRes :=
  if session s = 0 ∧ s.hlk.lost then ldEnd s p a 0x07 []
  else if (hostAddr s h n false).isNone then (hostViol s false (hartIni p), .got (List.replicate n 0))
  else if session s = 0 ∨ ext.status ≠ 0 then ldEnd s p a 0x07 []
  else (s, .got (bytesAt ext.data 0 n))

/-- A host write under way holds the processor. -/
def hartWaits (s : State) (p : Nat) : State := setHart s p { hartOf s p with hostIo := some none }

/-- A store to host memory, whose end the processor awaits. -/
def hostStoreEnd (p a : Nat) : State × HostRes → State × StRes
  | (s, .wait) => (s, .wait)
  | (s, .going) => (hartWaits s p, .wait)
  | (s, .ended st) => stEnd s p a st

/-- R443: the fabric address of an aperture; `none` while the aperture is invalid. -/
def aperAddr (s : State) (p i off : Nat) : Option Nat :=
  if flag s (Csr.PROC_APER p i) 0 then some (fld s (Csr.PROC_APER p i) 57 32 <<< 32 + off) else none

/-- A load through an aperture. -/
def aperLoad (s : State) (p a f n : Nat) (ext : Ext) : State × LdRes :=
  if ¬ ownDev s (fabDev f) true then ldEnd s p a ext.status.toNat (bytesAt ext.data 0 n)
  else if fabSpace f = 2 then hostLoad s p a (fabOff f) n ext
  else
    match fabServe s .peer (engKey 30 p 1) (fabSpace f) (fabOff f) n none .none with
    | (s, .ended st d) => ldEnd s p a st (bytesAt d 0 n)
    | (s, _) => (s, .wait)

/-- A store through an aperture. -/
def aperStore (s : State) (p a f : Nat) (bs : Bytes) (ext : Ext) : State × StRes :=
  if ¬ ownDev s (fabDev f) true then stEnd s p a ext.status.toNat
  else
    match fabServe s .peer (engKey 30 p 1) (fabSpace f) (fabOff f) bs.length (some bs) (.hart p) with
    | (s, .ended st _) => stEnd s p a st
    | (s, .going) => (hartWaits s p, .wait)
    | (s, .wait) => (s, .wait)

/-! ### Loads and stores -/

/-- Whether the processors perform misaligned accesses is left to the implementation. -/
def misalignedRuns : Bool := decide (Config.freeValue 40 0 % 2 = 1)

/-- A misaligned access that traps: control registers have their own rule (R8). -/
def misTraps (a n : Nat) : Bool :=
  decide (a % n ≠ 0) && !misalignedRuns && (match regionOf a n with | .ctl _ => false | _ => true)

/-- A load of `n` bytes. `ext.status` 0x03 on a local-memory load is an uncorrectable error. -/
def loadMem (s : State) (p a n : Nat) (ext : Ext) : State × LdRes :=
  if misTraps a n then (s, .exc 4)
  else
    match regionOf a n with
    | .ctl c => match ctlRead (hartIni p) c n s with | (s, v) => (s, .got (toLE v n))
    | .loc o => if ext.status = 3 then ldEnd s p a 0x03 [] else (s, .got (memRead (hartOf s p).lmem o n))
    | .rom o => (s, .got ((countUp o n).map (fun i => BitVec.ofNat 8 (Config.freeValue 36 i))))
    | .tensor l => tensorLoad s p a l n
    | .host h => hostLoad s p a h n ext
    | .aper i o =>
      match aperAddr s p i o with
      | some f => aperLoad s p a f n ext
      | none => (s, .exc 5)
    | .none => (s, .exc 5)

/-- Bytes written into a processor's local memory. -/
def putLocal (s : State) (p o : Nat) (bs : Bytes) : State :=
  let h := hartOf s p
  setHart s p { h with lmem := memWrite h.lmem o bs }

/-- A store; one to host memory that has ended brings its status. -/
def storeMem (s : State) (p a : Nat) (bs : Bytes) (ext : Ext) : State × StRes :=
  let n := bs.length
  match (hartOf s p).hostIo with
  | some (some st) => stEnd (setHart s p { hartOf s p with hostIo := none }) p a st
  | _ =>
    if misTraps a n then (s, .exc 6)
    else
      match regionOf a n with
      | .ctl c => (ctlWrite (hartIni p) c n (fromLE bs) s, .done)
      | .loc o => (putLocal s p o bs, .done)
      | .rom _ => (s, .exc 7)
      | .tensor l => tensorStore s p a l bs
      | .host h => hostStoreEnd p a (hostWrite s (hartIni p) h bs (.hart p))
      | .aper i o =>
        match aperAddr s p i o with
        | some f => aperStore s p a f bs ext
        | none => (s, .exc 7)
      | .none => (s, .exc 7)

/-! ### Atomics (R446) -/

/-- What an AMO reads and writes: the old value. -/
inductive AmoRes where
  | wait
  | got (old : Nat)
  | exc (cause : Nat)
  deriving DecidableEq, Repr

/-- The new value of an AMO on n bytes. -/
def amoNew (op : AmoOp) (n old v : Nat) : Bytes :=
  toLE (amoDo op (BitVec.ofNat (8 * n) old) (BitVec.ofNat (8 * n) v)).toNat n

/-- An AMO on tensor memory: the page is promoted first, then the line is read and written without a gap. -/
def tensorAmo (s : State) (p a lta n v : Nat) (op : AmoOp) : State × AmoRes :=
  let key := engKey 31 p 0
  let err (s : State) (st : Nat) : State × AmoRes := (procErr s p st a, .exc 7)
  let ready := plcRuns s && plcReady s && (firstWait s true (pagePieces lta n)).2.isNone && decide (smGet 0 s.stallFail key = 0)
  if ready then
    match engineLta s key lta n none with
    | (s, none) => (s, .wait)
    | (s, some (st, d)) =>
      if st ≠ 0 then err s st
      else
        match ltaWrite s key lta (amoNew op n (fieldAt d 0 n) v) with
        | (s, none) => (s, .wait)
        | (s, some st) => if st ≠ 0 then err s st else (dropLine s p lta, .got (fieldAt d 0 n))
  else
    match engineLta s key lta n (some (List.replicate n 0)) with
    | (s, none) => (s, .wait)
    | (s, some (st, _)) => err s st

/-- An AMO of `n` bytes. -/
def amoMem (s : State) (p a n v : Nat) (op : AmoOp) : State × AmoRes :=
  if a % n ≠ 0 then (s, .exc 6)
  else
    match regionOf a n with
    | .loc o =>
      let old := fromLE (memRead (hartOf s p).lmem o n)
      (putLocal s p o (amoNew op n old v), .got old)
    | .tensor l => tensorAmo s p a l n v op
    | _ => (s, .exc 7)

/-! ### Instructions by kind -/

/-- A register written, and the next instruction. -/
def toX (s : State) (p : Nat) (rd : Fin 32) (v : W64) (pc : Nat) : State × HRes :=
  (setHart s p (setX (hartOf s p) rd v), .go pc)

/-- An effective address. -/
def effAddr (h : Hart) (rs1 : Fin 32) (imm : Int) : Nat := ((xOf h rs1) + BitVec.ofInt 64 imm).toNat

/-- A load into a register by `put`. -/
def loadDo (s : State) (p a n next : Nat) (ext : Ext) (put : Hart → Nat → Hart) : State × HRes :=
  match loadMem s p a n ext with
  | (s, .wait) => (s, .wait)
  | (s, .exc c) => (s, .trap c a)
  | (s, .got d) => (setHart s p (put (hartOf s p) (fieldAt d 0 n)), .go next)

/-- A store. -/
def storeDo (s : State) (p a next : Nat) (bs : Bytes) (ext : Ext) : State × HRes :=
  match storeMem s p a bs ext with
  | (s, .wait) => (s, .wait)
  | (s, .exc c) => (s, .trap c a)
  | (s, .done) => (s, .go next)

/-- LR (R446). -/
def lrDo (s : State) (p a n next : Nat) (rd : Fin 32) : State × HRes :=
  if a % n ≠ 0 then (s, .trap 4 a)
  else
    match regionOf a n with
    | .loc o =>
      let h := setX (hartOf s p) rd (loadValue n false (fromLE (memRead (hartOf s p).lmem o n)))
      (setHart s p { h with resv := some (o, n) }, .go next)
    | _ => (s, .trap 5 a)

/-- SC (R446): it stores while its bytes' reservation holds, and ends the reservation. -/
def scDo (s : State) (p a n next v : Nat) (rd : Fin 32) : State × HRes :=
  if a % n ≠ 0 then (s, .trap 6 a)
  else
    match regionOf a n with
    | .loc o =>
      let h := hartOf s p
      let ok := decide (h.resv = some (o, n))
      let h := setX { h with resv := none } rd (if ok then 0 else 1)
      let s := setHart s p h
      (if ok then putLocal s p o (toLE v n) else s, .go next)
    | _ => (s, .trap 7 a)

/-- An AMO. -/
def amoInstr (s : State) (p a n next v : Nat) (op : AmoOp) (rd : Fin 32) : State × HRes :=
  match amoMem s p a n v op with
  | (s, .wait) => (s, .wait)
  | (s, .exc c) => (s, .trap c a)
  | (s, .got old) => toX s p rd (loadValue n false old) next

/-- A CSR instruction. -/
def csrInstr (s : State) (p next : Nat) (write set : Bool) (num : Nat) (rd : Fin 32) (src : W64) (writes : Bool) : State × HRes :=
  match csrDo s p write set num rd src writes with
  | some s => (s, .go next)
  | none => (s, .trap 2 0)

/-- A floating-point instruction is illegal while FS is off. -/
def fpInstr (s : State) (p : Nat) (f : State × HRes) : State × HRes :=
  if bits (hartOf s p).mstatus.toNat 14 13 = 0 then (s, .trap 2 0) else f

/-- One instruction at the processor's pc, `len` bytes long. -/
def hartOp (s : State) (p len : Nat) (op : RvInstr) : State × HRes :=
  let h := hartOf s p
  let next := (h.pc + len) % 2 ^ 64
  let rel (imm : Int) : Nat := (w64 h.pc + BitVec.ofInt 64 imm).toNat
  match op with
  | .alu op rd a b => toX s p rd (aluDo op (xOf h a) (xOf h b)) next
  | .alui op rd a imm => toX s p rd (aluDo op (xOf h a) (BitVec.ofInt 64 imm)) next
  | .lui rd imm => toX s p rd (sext32 (BitVec.ofInt 64 (imm * 4096))) next
  | .auipc rd imm => toX s p rd (w64 h.pc + sext32 (BitVec.ofInt 64 (imm * 4096))) next
  | .jal rd imm => toX s p rd (w64 next) (rel imm)
  | .jalr rd a imm => toX s p rd (w64 next) (effAddr h a imm / 2 * 2)
  | .branch c a b imm => (s, .go (if brTaken c (xOf h a) (xOf h b) then rel imm else next))
  | .load sz u rd a imm ext => loadDo s p (effAddr h a imm) (accLen sz) next ext (fun h v => setX h rd (loadValue (accLen sz) u v))
  | .store sz a b imm ext => storeDo s p (effAddr h a imm) next (toLE (xOf h b).toNat (accLen sz)) ext
  | .lr sz rd a => lrDo s p (xOf h a).toNat (accLen sz) next rd
  | .sc sz rd a b => scDo s p (xOf h a).toNat (accLen sz) next (xOf h b).toNat rd
  | .amo op sz rd a b => amoInstr s p (xOf h a).toNat (accLen sz) next (xOf h b).toNat op rd
  | .fence _ => (s, .go next)
  | .fenceI => (s, .go next)
  | .wfi => (setHart s p { h with st := .wfi }, .go next)
  | .ecall => (s, .trap 11 0)
  | .ebreak => (s, .trap 3 h.pc)
  | .mret => (setHart s p (mretDo h), .go (mretDo h).pc)
  | .csr w st num rd a => csrInstr s p next w st num rd (xOf h a) (w || decide (a.val ≠ 0))
  | .csri w st num rd imm => csrInstr s p next w st num rd (w64 imm.val) (w || decide (imm.val ≠ 0))
  | .fload d rd a imm ext =>
    fpInstr s p (loadDo s p (effAddr h a imm) (if d then 8 else 4) next ext (fun h v => setF h rd (if d then w64 v else nanBox v)))
  | .fstore d a b imm ext => fpInstr s p (storeDo s p (effAddr h a imm) next (toLE (fOf h b).toNat (if d then 8 else 4)) ext)
  | .fp op d rd a b c rm =>
    match roundMode h rm with
    | some r => fpInstr s p (setHart s p (fpDo h op d rd a b c r), .go next)
    | none => if fpRounds op then (s, .trap 2 0) else fpInstr s p (setHart s p (fpDo h op d rd a b c 0), .go next)
  | .illegal => (s, .trap 2 0)

/-! ### One instruction command -/

/-- The exception of the fetch at the pc, with the status of an access that failed. -/
def fetchExc (h : Hart) (fails : Option Byte) : Option (Nat × Nat) :=
  if h.pc % 2 = 1 then some (0, 0)
  else
    match regionOf h.pc 2, fails with
    | .none, _ => some (1, 0)
    | _, some st => if st = 0 then none else some (1, st.toNat)
    | _, none => none

/-- The instruction retires or traps. -/
def hartEnd (p : Nat) : State × HRes → State
  | (s, .wait) => s
  | (s, .go pc) => let h := hartOf s p; setHart s p { h with pc := pc, instret := h.instret + 1 }
  | (s, .trap c v) => takeTrap s p c v false

/-- A running processor goes on: an interrupt, a failed fetch or an instruction (R444, R447, R448). -/
def hartStep (s : State) (p len : Nat) (op : RvInstr) (fails : Option Byte) : State :=
  let h := hartOf s p
  if h.hostIo = some none then s
  else
    match (if h.hostIo.isSome then none else irqNow s p) with
    | some c => takeTrap s p c 0 true
    | none =>
      match fetchExc h fails with
      | some (c, st) =>
        let s := if st = 0 then s else procErr s p st h.pc
        if h.trapped then lockup s p h.pc h.mcause.toNat else takeTrap s p c h.pc false
      | none => hartEnd p (hartOp (setHart s p { h with trapped := false }) p len op)

/-- PROC_INSTRUCTION (R442). While CP0 executes the boot ROM, what it does is the ROM's (R476). -/
def execProcInstruction (p : Fin 8) (op : RvInstr) (len : Nat) (fetchFails : Option Byte) (s : State) : Out :=
  if ¬ procUp s p ∨ (hartOf s p).st ≠ .running ∨ (len ≠ 2 ∧ len ≠ 4) then .next s
  else
    match (if p.val = 0 then romRuns s else none) with
    | some r => .next (romStep s r)
    | none => .next (hartStep s p len op fetchFails)

end Sys2Proof.Machine
end

