-- ==== Sys2Proof/Machine/RegCmds.lean ====
section
/-! DEFINITION. The commands that are accesses of control registers. -/

namespace Sys2Proof.Machine

/-- A word written. -/
def write32 (i : Initiator) (a v : Nat) (s : State) : Out := .next (ctlWrite i a 4 v s)

/-- Quadrant and place of core c in it (R33). -/
def coreQ (c : Fin 96) : Nat := c.val / 24
def coreN (c : Fin 96) : Nat := c.val % 24

/-! ### Any register -/

/-- REGISTER_WRITE (R12). -/
def execRegisterWrite (i : Initiator) (a len : Nat) (v : W32) (s : State) : Out := .next (ctlWrite i a len v.toNat s)

/-- REG64_LOW_READ (R9). -/
def execReg64LowRead (i : Initiator) (a : Nat) (s : State) : Out := .next (readOut i a 0 s)

/-- REG64_HIGH_READ (R549). -/
def execReg64HighRead (i : Initiator) (a : Nat) (s : State) : Out := .next (readOut i a 0 s)

/-- REG64_LOW_WRITE (R10). -/
def execReg64LowWrite (i : Initiator) (a : Nat) (v : W32) (s : State) : Out := write32 i a v.toNat s

/-- REG64_HIGH_WRITE (R10). -/
def execReg64HighWrite (i : Initiator) (a : Nat) (v : W32) (s : State) : Out := write32 i a v.toNat s

/-- RC_COUNTER_READ (R13, R547): an increment in the same cycle stays counted. -/
def execRcCounterRead (i : Initiator) (a : Nat) (sameCycle : Bool) (s : State) : Out :=
  .next (readOut i a (if sameCycle then 1 else 0) s)

/-- SH_SHADOW_WRITE (R42, R45). -/
def execShShadowWrite (i : Initiator) (a : Nat) (v : W32) (s : State) : Out := write32 i a v.toNat s

/-! ### Quiesce and commit -/

/-- QUIESCE_REQUEST (R42): the high word of GLB_QUIESCE_REQ. -/
def execQuiesceRequest (i : Initiator) (hi : W32) (s : State) : Out := write32 i (Csr.GLB_QUIESCE_REQ + 4) hi.toNat s

/-- COMMIT_GO (R43 to R45). -/
def execCommitGo (i : Initiator) (v : W32) (s : State) : Out := write32 i Csr.GLB_COMMIT v.toNat s

/-- COMMIT_CONFIRM (R43, R45): the commit ends, and the writes it held land in the shadow copies. -/
def execCommitConfirm (s : State) : Out :=
  match s.commit with
  | none => .next s
  | some mask =>
    let t := commitDo s mask
    .next (s.heldWrites.foldl land { t with heldWrites := [] })

/-! ### Tile cores and streamers -/

/-- CORE_RUN (R105). -/
def execCoreRun (i : Initiator) (c : Fin 96) (s : State) : Out :=
  let a := Csr.CORE_CTRL (coreQ c) (coreN c)
  write32 i a (setBits (rd s a % 8) 1 0 1) s

/-- CORE_STOP (R105, R125). -/
def execCoreStop (i : Initiator) (c : Fin 96) (s : State) : Out :=
  let a := Csr.CORE_CTRL (coreQ c) (coreN c)
  write32 i a (setBits (rd s a % 8) 1 0 2) s

/-- CORE_PC_WRITE (R105). -/
def execCorePcWrite (i : Initiator) (c : Fin 96) (v : W32) (s : State) : Out :=
  write32 i (Csr.CORE_PC (coreQ c) (coreN c)) v.toNat s

/-- CORE_FAULT_CLR (R105). -/
def execCoreFaultClr (i : Initiator) (c : Fin 96) (s : State) : Out :=
  write32 i (Csr.CORE_FAULT_CLR (coreQ c) (coreN c)) 1 s

/-- CORE_SB_CLEAR (R100): the high word of CORE_SB. -/
def execCoreSbClear (i : Initiator) (c : Fin 96) (hi : W32) (s : State) : Out :=
  write32 i (Csr.CORE_SB (coreQ c) (coreN c) + 4) hi.toNat s

/-- CORE_SB_SET (R100): the high word of CORE_SB_SET. -/
def execCoreSbSet (i : Initiator) (c : Fin 96) (hi : W32) (s : State) : Out :=
  write32 i (Csr.CORE_SB_SET (coreQ c) (coreN c) + 4) hi.toNat s

/-- ACC_TMODE_WRITE (R114): the high word of ACC_TMODE. -/
def execAccTmodeWrite (i : Initiator) (c : Fin 96) (hi : W32) (s : State) : Out :=
  write32 i (Csr.ACC_TMODE (coreQ c) (coreN c) + 4) hi.toNat s

/-- CORE_INIT_DONE (R86): the memories are zeroed, and the held writes take effect in order. -/
def execCoreInitDone (c : Fin 96) (s : State) : Out :=
  let k := coreOf s c
  if awake s ∧ ¬ inResetBit s (c / 24) ∧ k.init then
    let mine (h : HeldWrite) : Bool := decide (blkOf h.addr = some (.core c))
    let t := { setCore s c { k with init := false } with coreHeld := s.coreHeld.filter (fun h => !mine h) }
    .next ((s.coreHeld.filter mine).foldl land t)
  else .next s

/-- STRM_PUSH (R574): the high word of STRM_PUSH. -/
def execStrmPush (i : Initiator) (c : Fin 96) (t : Fin 4) (hi : W32) (s : State) : Out :=
  write32 i (Csr.STRM_PUSH (coreQ c) (coreN c) t + 4) hi.toNat s

/-- STRM_CANCEL (R99). -/
def execStrmCancel (i : Initiator) (c : Fin 96) (t : Fin 4) (s : State) : Out :=
  write32 i (Csr.STRM_CANCEL (coreQ c) (coreN c) t) 1 s

/-- STRM_FAIL_CLEAR (R111). -/
def execStrmFailClear (i : Initiator) (c : Fin 96) (t : Fin 4) (s : State) : Out :=
  write32 i (Csr.STRM_FAIL (coreQ c) (coreN c) t) 1 s

/-! ### Memory tiers -/

/-- ROWLOG_CLR (R162). -/
def execRowlogClr (i : Initiator) (k : Fin 20) (s : State) : Out :=
  let a := stkReg k 0x04
  write32 i a (rd s a / 2 % 2 * 2 + 1) s

/-- ERR_CAPTURE_CLEAR (R164). -/
def execErrCaptureClear (i : Initiator) (k : Fin 20) (s : State) : Out := write32 i (stkReg k 0x3C) (2 ^ 31) s

/-! ### Placement engine -/

/-- An OP written to PLC_CMD. -/
def plcWrite (i : Initiator) (ch : Fin 4) (evt : Bool) (op : Nat) (s : State) : Out :=
  write32 i (Csr.PLC_CMD ch) ((if evt then 256 else 0) + op) { s with answers := [] }

/-- The page and plan commands (R205, R206, R208, R209). -/
def execPlcRead (i : Initiator) (ch : Fin 4) (evt : Bool) (s : State) : Out := plcWrite i ch evt 0x01 s
def execPlcMap (i : Initiator) (ch : Fin 4) (evt : Bool) (s : State) : Out := plcWrite i ch evt 0x02 s
def execPlcUnmap (i : Initiator) (ch : Fin 4) (evt : Bool) (s : State) : Out := plcWrite i ch evt 0x03 s
def execPlcSetAttr (i : Initiator) (ch : Fin 4) (evt : Bool) (s : State) : Out := plcWrite i ch evt 0x04 s
def execPlcPromote (i : Initiator) (ch : Fin 4) (evt : Bool) (s : State) : Out := plcWrite i ch evt 0x05 s
def execPlcDemote (i : Initiator) (ch : Fin 4) (evt : Bool) (s : State) : Out := plcWrite i ch evt 0x06 s
def execPlcFlush (i : Initiator) (ch : Fin 4) (evt : Bool) (s : State) : Out := plcWrite i ch evt 0x07 s
def execPlcHome (i : Initiator) (ch : Fin 4) (evt : Bool) (s : State) : Out := plcWrite i ch evt 0x08 s
def execPlcRelocate (i : Initiator) (ch : Fin 4) (evt : Bool) (s : State) : Out := plcWrite i ch evt 0x09 s
def execPlcRetire (i : Initiator) (ch : Fin 4) (evt : Bool) (s : State) : Out := plcWrite i ch evt 0x0A s
def execPlcRelease (i : Initiator) (ch : Fin 4) (evt : Bool) (s : State) : Out := plcWrite i ch evt 0x0B s
def execPlcRebuild (i : Initiator) (ch : Fin 4) (evt : Bool) (s : State) : Out := plcWrite i ch evt 0x0C s
def execEphLoad (i : Initiator) (ch : Fin 4) (evt : Bool) (s : State) : Out := plcWrite i ch evt 0x10 s
def execEphArm (i : Initiator) (ch : Fin 4) (evt : Bool) (s : State) : Out := plcWrite i ch evt 0x11 s
def execEphDisarm (i : Initiator) (ch : Fin 4) (evt : Bool) (s : State) : Out := plcWrite i ch evt 0x12 s
def execEphUnload (i : Initiator) (ch : Fin 4) (evt : Bool) (s : State) : Out := plcWrite i ch evt 0x13 s

/-! ### Near-bank units -/

/-- An OP written to NBU_CMD. -/
def nbuWrite (i : Initiator) (n : Fin 48) (evt : Bool) (op : Nat) (s : State) : Out :=
  write32 i (Csr.NBU_CMD (n / 4) (n % 4)) ((if evt then 256 else 0) + op) s

/-- The commands of R255. -/
def execProgLoad (i : Initiator) (n : Fin 48) (evt : Bool) (s : State) : Out := nbuWrite i n evt 0x01 s
def execBindLoad (i : Initiator) (n : Fin 48) (evt : Bool) (s : State) : Out := nbuWrite i n evt 0x02 s
def execBindClear (i : Initiator) (n : Fin 48) (evt : Bool) (s : State) : Out := nbuWrite i n evt 0x03 s
def execJob (i : Initiator) (n : Fin 48) (evt : Bool) (s : State) : Out := nbuWrite i n evt 0x04 s
def execAudit (i : Initiator) (n : Fin 48) (evt : Bool) (s : State) : Out := nbuWrite i n evt 0x05 s
def execTranspose (i : Initiator) (n : Fin 48) (evt : Bool) (s : State) : Out := nbuWrite i n evt 0x06 s
def execSeqReset (i : Initiator) (n : Fin 48) (evt : Bool) (s : State) : Out := nbuWrite i n evt 0x07 s

/-! ### Relay and media -/

/-- RLY_SQ_PI_WRITE (R285). -/
def execRlySqPiWrite (i : Initiator) (e : Fin 2) (q : Fin 16) (v : W32) (s : State) : Out :=
  write32 i (Csr.RLY_SQ_PI e q) v.toNat s

/-- RLY_RB_PI_WRITE (R402). -/
def execRlyRbPiWrite (i : Initiator) (e : Fin 2) (v : W32) (s : State) : Out := write32 i (Csr.RLY_RB_PI e) v.toNat s

/-- MED_SQ_PI_WRITE (R333). -/
def execMedSqPiWrite (i : Initiator) (r : Fin 8) (v : W32) (s : State) : Out := write32 i (Csr.MED_SQ_PI r) v.toNat s

/-! ### Fabric -/

/-- LINK_ENABLE (R348). -/
def execLinkEnable (i : Initiator) (l : Fin 24) (v : W32) (s : State) : Out :=
  write32 i (Csr.FAB_LINK_CTRL (l / 2) (l % 2)) v.toNat s

/-- LINK_ADMIT (R348). -/
def execLinkAdmit (i : Initiator) (l : Fin 24) (v : W32) (s : State) : Out :=
  write32 i (Csr.FAB_LINK_CTRL (l / 2) (l % 2)) v.toNat s

/-- LINK_RETRAIN (R348, R419): RETRAIN written with the other fields as they are. -/
def execLinkRetrain (i : Initiator) (l : Fin 25) (s : State) : Out :=
  let a := if l.val = 24 then Csr.HLK_CTRL else Csr.FAB_LINK_CTRL (l / 2) (l % 2)
  write32 i a (rd s a % 4 + 4) s

/-- FABC_MGMT_PUSH (R377): the high word of FABC_MGMT_PUSH. -/
def execFabcMgmtPush (i : Initiator) (hi : W32) (s : State) : Out := write32 i (Csr.FABC_MGMT_PUSH + 4) hi.toNat s

/-- ROUTE_BANK_SWITCH (R380). -/
def execRouteBankSwitch (i : Initiator) (s : State) : Out := write32 i Csr.FABC_SWITCH 1 s

/-- An OP written to PGRP_JRNL_CMD. -/
def jrnlWrite (i : Initiator) (dev op : Nat) (s : State) : Out := write32 i Csr.PGRP_JRNL_CMD (dev % 4096 * 65536 + op) s

/-- The journal operations (R410, R415). -/
def execJrnlExport (i : Initiator) (dev : Nat) (s : State) : Out := jrnlWrite i dev 1 s
def execJrnlRevert (i : Initiator) (dev : Nat) (s : State) : Out := jrnlWrite i dev 2 s
def execJrnlForget (i : Initiator) (dev : Nat) (s : State) : Out := jrnlWrite i dev 3 s

/-! ### Host link -/

/-- HOST_ATTACH (R427). -/
def execHostAttach (i : Initiator) (key : BitVec 16) (s : State) : Out := write32 i Csr.HLK_ATTACH (key.toNat * 65536 + 1) s

/-- HOST_DETACH (R427). -/
def execHostDetach (i : Initiator) (s : State) : Out := write32 i Csr.HLK_ATTACH 2 s

/-- SQ_DOORBELL (R431). -/
def execSqDoorbell (i : Initiator) (q : Fin 256) (v : W32) (s : State) : Out := write32 i (Csr.HLK_SQ_TAIL q) v.toNat s

/-- CQ_HEAD_WRITE (R431). -/
def execCqHeadWrite (i : Initiator) (q : Fin 256) (v : W32) (s : State) : Out := write32 i (Csr.HLK_CQ_HEAD q) v.toNat s

/-- VEC_UNMASK (R436). -/
def execVecUnmask (i : Initiator) (v : Fin 256) (s : State) : Out := write32 i (Csr.HLK_VEC_CTRL v) 0 s

/-- FW_DONE (R437): the high word of HLK_FW_DONE. -/
def execFwDone (i : Initiator) (hi : W32) (s : State) : Out := write32 i (Csr.HLK_FW_DONE + 4) hi.toNat s

/-- HWIN_WRITE (R424): SIZE, or the high word of HOST. -/
def execHwinWrite (i : Initiator) (w : Fin 64) (size : Bool) (hi : W32) (s : State) : Out :=
  write32 i (if size then Csr.HLK_HWIN_SIZE w else Csr.HLK_HWIN_HOST w + 4) hi.toNat s

/-! ### Processors -/

/-- PROC_RUN, PROC_HALT and PROC_DINV (R445, R448), LOCKUP_RST as it is. -/
def procCtrl (i : Initiator) (p : Fin 8) (v : Nat) (s : State) : Out :=
  let a := Csr.PROC_CTRL p
  write32 i a (fld s a 3 3 * 8 + v) s

def execProcRun (i : Initiator) (p : Fin 8) (s : State) : Out := procCtrl i p 1 s
def execProcHalt (i : Initiator) (p : Fin 8) (s : State) : Out := procCtrl i p 2 s
def execProcDinv (i : Initiator) (p : Fin 8) (s : State) : Out := procCtrl i p 4 s

/-- WDT_KICK (R449). -/
def execWdtKick (i : Initiator) (p : Fin 8) (v : W32) (s : State) : Out := write32 i (Csr.PROC_WDT_KICK p) v.toNat s

/-! ### Events -/

/-- EVT_SWRAISE (R454). -/
def execEvtSwraise (i : Initiator) (v : W32) (s : State) : Out := write32 i Csr.EVT_SWRAISE v.toNat s

/-- EVT_NEST_ENTER (R459). -/
def execEvtNestEnter (i : Initiator) (t : Fin 9) (s : State) : Out := write32 i (Csr.EVT_TGT_NEST t) 1 s

/-- EVT_NEST_EXIT (R459). -/
def execEvtNestExit (i : Initiator) (t : Fin 9) (s : State) : Out := write32 i (Csr.EVT_TGT_NEST t) 2 s

/-- EVT_TGT_CI_WRITE (R459). -/
def execEvtTgtCiWrite (i : Initiator) (t : Fin 9) (v : W32) (s : State) : Out := write32 i (Csr.EVT_TGT_CI t) v.toNat s

/-- EVT_FAULT_CLEAR (R458). -/
def execEvtFaultClear (i : Initiator) (t : Fin 9) (s : State) : Out := write32 i (Csr.EVT_TGT_STAT t) (2 ^ 31) s

/-- EVT_SRC_PURGE (R452): PURGE written with the other fields as they are. -/
def execEvtSrcPurge (i : Initiator) (n : Nat) (s : State) : Out :=
  let a := Csr.EVT_SRC_CFG n
  if sourceExists n then write32 i a (rd s a + 2 ^ 30) s else .next s

/-! ### Boot and security -/

/-- MODE_OVR (R471). -/
def execModeOvr (i : Initiator) (m : Fin 16) (s : State) : Out := write32 i Csr.BOOT_CTRL (m.val * 16) s

/-- CONFIRM (R485). -/
def execConfirm (i : Initiator) (s : State) : Out := write32 i Csr.BOOT_CTRL 2 s

/-- BOOT_RELEASE (R477). -/
def execBootRelease (i : Initiator) (s : State) : Out := write32 i Csr.BOOT_CTRL 1 s

/-- BOOT_HOST_DATA (R471). -/
def execBootHostData (i : Initiator) (v : W32) (s : State) : Out := write32 i Csr.BOOT_HOST_DATA v.toNat s

/-- The flash commands (R487, R499). -/
def execFlashRead (i : Initiator) (s : State) : Out := write32 i Csr.BOOT_FL_CMD 0x01 s
def execFlashProgram (i : Initiator) (s : State) : Out := write32 i Csr.BOOT_FL_CMD 0x02 s
def execFlashErase (i : Initiator) (s : State) : Out := write32 i Csr.BOOT_FL_CMD 0x03 s

/-- FLASH_READ_ID (R499), with what the flash will answer. -/
def execFlashReadId (i : Initiator) (id : Bytes) (s : State) : Out :=
  let t := ctlWrite i Csr.BOOT_FL_CMD 4 0x04 s
  if s.boot.flCmd.isNone ∧ t.boot.flCmd.isSome then .next (setBoot t { t.boot with flId := bytesAt id 0 (min 256 id.length) })
  else .next t

/-- The SEC commands (R494 to R499). -/
def execSecHash (i : Initiator) (s : State) : Out := write32 i Csr.SEC_CMD 0x01 s
def execSecVerify (i : Initiator) (s : State) : Out := write32 i Csr.SEC_CMD 0x02 s
def execSecExtend (i : Initiator) (s : State) : Out := write32 i Csr.SEC_CMD 0x03 s
def execSecReport (i : Initiator) (s : State) : Out := write32 i Csr.SEC_CMD 0x04 s
def execSvnSet (i : Initiator) (s : State) : Out := write32 i Csr.SEC_CMD 0x05 s
def execKeyProgram (i : Initiator) (s : State) : Out := write32 i Csr.SEC_CMD 0x06 s
def execKeyRevoke (i : Initiator) (s : State) : Out := write32 i Csr.SEC_CMD 0x07 s
def execLifecycleAdvance (i : Initiator) (s : State) : Out := write32 i Csr.SEC_CMD 0x08 s

/-- SEC_PERM_LOCK (R490). -/
def execSecPermLock (i : Initiator) (s : State) : Out := write32 i Csr.SEC_LOCK 1 s

/-! ### Reset -/

/-- RST_SWREQ (R503). -/
def execRstSwreq (i : Initiator) (v : W32) (s : State) : Out := write32 i Csr.RST_SWREQ v.toNat s

/-- RST_DBGREQ (R503). -/
def execRstDbgreq (i : Initiator) (v : W32) (s : State) : Out := write32 i Csr.RST_DBGREQ v.toNat s

/-- Bit b of RST_BLK_REQ written, the others as they are: both words, low then high (R10). -/
def blkReqWrite (i : Initiator) (v : Nat) (s : State) : Out :=
  write32 i (Csr.RST_BLK_REQ + 4) (v / 2 ^ 32) (ctlWrite i Csr.RST_BLK_REQ 4 (v % 2 ^ 32) s)

/-- BLOCK_RESET_REQUEST (R511). -/
def execBlockResetRequest (i : Initiator) (b : Fin 64) (s : State) : Out :=
  blkReqWrite i (rd s Csr.RST_BLK_REQ ||| 1 <<< b.val) s

/-- BLOCK_RESET_END (R512). -/
def execBlockResetEnd (i : Initiator) (b : Fin 64) (s : State) : Out :=
  blkReqWrite i (without64 (rd s Csr.RST_BLK_REQ) (1 <<< b.val)) s

/-! ### The Plate -/

/-- PLATE_PUBLISH (R554). -/
def execPlatePublish (i : Initiator) (s : State) : Out := write32 i Csr.GLB_PLATE_CTRL 1 s

/-- PLATE_CLEAR (R556). -/
def execPlateClear (i : Initiator) (s : State) : Out := write32 i Csr.GLB_PLATE_CTRL 2 s

/-- PLATE_ACK (R555). -/
def execPlateAck (i : Initiator) (seq : W32) (s : State) : Out := write32 i Csr.GLB_PLATE_ACK seq.toNat s

end Sys2Proof.Machine
end

