-- ==== Sys2Proof/Machine/StrmCmds.lean ====
section
/-! DEFINITION. What the streamers do (R88 to R98, R574): reading pushed descriptors, starting them with their checks,
moving their parts, and completing them. -/

namespace Sys2Proof.Machine

/-! ### Descriptor fields (R90) -/

def dW0 (b : Bytes) : Nat := fieldAt b 0 4
def dType (b : Bytes) : Nat := bits (dW0 b) 31 28
def dSrcSpace (b : Bytes) : Nat := bits (dW0 b) 27 25
def dDstSpace (b : Bytes) : Nat := bits (dW0 b) 24 22
def dOrder (b : Bytes) : Bool := bit (dW0 b) 13
def dConvEn (b : Bytes) : Bool := bit (dW0 b) 12
def dSrcFmt (b : Bytes) : Nat := bits (dW0 b) 11 8
def dConv (b : Bytes) : Nat := bits (dW0 b) 7 0
def dDim0 (b : Bytes) : Nat := bits (fieldAt b 4 4) 23 0
def dSrc (b : Bytes) : Nat := fieldAt b 8 8
def dDst (b : Bytes) : Nat := fieldAt b 16 8
def dDim1 (b : Bytes) : Nat := fieldAt b 24 2
def dDim2 (b : Bytes) : Nat := fieldAt b 26 2
def dStride (b : Bytes) (i : Nat) : Int := signed 32 (fieldAt b (32 + 4 * i) 4)
def dList (b : Bytes) : Nat := bits (fieldAt b 48 4) 21 0
def dGather (b : Bytes) : Bool := decide (dType b = 4)
def dScatter (b : Bytes) : Bool := decide (dType b = 5)
def dListed (b : Bytes) : Bool := dGather b || dScatter b

/-- R90: the bits that must be zero. -/
def dRsvd (b : Bytes) : Bool :=
  decide (bits (fieldAt b 4 4) 31 24 ≠ 0) || decide (fieldAt b 28 4 ≠ 0) || decide (bits (fieldAt b 48 4) 31 22 ≠ 0)
    || decide (fieldAt b 52 8 ≠ 0)

/-- Destination bytes of a run (R94). -/
def dDstLen (b : Bytes) : Nat :=
  if dConvEn b then dDim0 b * 8 / fmtBits (dSrcFmt b) * fmtBits (dConv b / 16) / 8 else dDim0 b

/-- R95: the number of parts. -/
def dParts (b : Bytes) : Nat := dDim1 b * dDim2 b

/-! ### Checks (R93) -/

/-- The size of a space in the core: tile store, accumulator, instruction memory. -/
def spaceSize (sp : Nat) : Option Nat :=
  match sp with
  | 0 => some 0x40_0000
  | 1 => some 0x8_0000
  | 5 => some 0x4_0000
  | _ => none

/-- The address granule of a space in the core (R92). -/
def spaceUnit (sp : Nat) : Nat := if sp = 1 then 256 else if sp = 5 then 8 else 1

/-- R91: what the type requires of the other fields. -/
def dTypeOk (b : Bytes) : Bool :=
  match dType b with
  | 1 => decide (dDim1 b = 1) && decide (dDim2 b = 1) && (countUp 0 4).all (fun i => decide (dStride b i = 0))
  | 2 => decide (dDim2 b = 1)
  | 3 => true
  | 4 => decide (dDim2 b = 1)
  | 5 => decide (dDim2 b = 1)
  | _ => false

/-- R93: a conversion that the descriptor may ask for. -/
def dConvOk (b : Bytes) : Bool :=
  !dConvEn b ||
    (convOk (dConv b) && decide (dConv b / 16 < 10) && decide (dSrcFmt b < 10)
      && decide (dDim0 b * 8 % fmtBits (dSrcFmt b) = 0)
      && decide (dDim0 b * 8 / fmtBits (dSrcFmt b) * fmtBits (dConv b / 16) % 8 = 0))

/-- R93: the conditions of FORMAT_INVALID. -/
def dFormatBad (b : Bytes) : Bool :=
  !dTypeOk b || decide (5 < dSrcSpace b) || decide (5 < dDstSpace b) || dRsvd b || decide (dDim0 b = 0)
    || decide (dDim1 b = 0) || decide (dDim2 b = 0)
    || ((spaceSize (dSrcSpace b)).isNone && (spaceSize (dDstSpace b)).isNone) || decide (dSrcSpace b = 5) || !dConvOk b

/-- A run of `n` bytes at `a` lies in a space of the core. -/
def runFits (sp n : Nat) (a : Int) : Bool :=
  match spaceSize sp with
  | some z => decide (0 ≤ a) && decide (a + n ≤ (z : Int)) && decide (a % (spaceUnit sp : Int) = 0)
  | none => true

/-- R93: the strided runs of one end lie in its space. -/
def endFits (b : Bytes) (sp n base : Nat) (s1 s2 : Int) : Bool :=
  let last1 : Int := (dDim1 b : Int) - 1
  let last2 : Int := (dDim2 b : Int) - 1
  (sp ≠ 1 || (decide (n % 256 = 0) && (decide (dDim1 b = 1) || decide (s1 % 256 = 0))
      && (decide (dDim2 b = 1) || decide (s2 % 256 = 0))))
    && runFits sp n base && runFits sp n (base + last1 * s1) && runFits sp n (base + last2 * s2)
    && runFits sp n (base + last1 * s1 + last2 * s2)

/-- R91: the address list as the tile store holds it: none for an entry that does not correct. -/
def readList (k : Core) (b : Bytes) : List (Option Nat) :=
  (countUp 0 (dDim1 b)).map (fun e =>
    match tsRead k (dList b + 8 * e) 8 with
    | (d, []) => some (fromLE d)
    | _ => none)

/-- R93: an end whose addresses come from the list lies in its space. -/
def listFits (sp n : Nat) (l : List (Option Nat)) : Bool :=
  (sp ≠ 1 || decide (n % 256 = 0)) && l.all (fun a => match a with | some a => runFits sp n a | none => true)

/-- R93: the conditions of RANGE_INVALID. -/
def dRangeBad (k : Core) (b : Bytes) : Bool :=
  (decide (dDstSpace b = 5) && decide (k.st ≠ .halted))
    || (dListed b && (decide (dList b % 8 ≠ 0) || decide (0x40_0000 < dList b + 8 * dDim1 b)))
    || !(if dGather b then listFits (dSrcSpace b) (dDim0 b) (readList k b)
         else endFits b (dSrcSpace b) (dDim0 b) (dSrc b) (dStride b 0) (dStride b 1))
    || !(if dScatter b then listFits (dDstSpace b) (dDstLen b) (readList k b)
         else endFits b (dDstSpace b) (dDstLen b) (dDst b) (dStride b 2) (dStride b 3))

/-- R93: what rejects a descriptor; 0 when nothing does. -/
def dBad (k : Core) (b : Bytes) : Nat := if dFormatBad b then 0x09 else if dRangeBad k b then 0x0A else 0

/-! ### Queue (R88, R574) -/

/-- The streamers of core c may work: clocked, zeroed, and not quiesced (R41, R86). -/
def strmWorks (s : State) (c : Nat) : Bool := works s (c / 24) && !(coreOf s c).init

/-- The first free in-progress slot. -/
def freeProg (v : Strm) : Option Nat := (countUp 0 4).find? (fun d => (smGet none v.prog d).isNone)

/-- STRM_PUSH_FETCH (R574): the pushed entry at the head of the queue reads its descriptor. -/
def execStrmPushFetch (c : Fin 96) (t : Fin 4) (s : State) : Out :=
  let v := strmOf (coreOf s c) t
  match v.queue with
  | .push a :: rest =>
    if ¬ strmWorks s c then .next s
    else
      let drop (s : State) : State := setCore s c (setStrm (coreOf s c) t { strmOf (coreOf s c) t with queue := rest })
      if a % 64 ≠ 0 then .next (strmPushFailed (drop s) c t 0x0A)
      else
        match ltaRead s (engKey 0 (4 * c + t) 0) a 64 with
        | (s, none) => .next s
        | (s, some (st, b)) =>
          if st ≠ 0 then .next (strmPushFailed (drop s) c t st)
          else .next (setCore s c (setStrm (coreOf s c) t { strmOf (coreOf s c) t with queue := .desc b none :: rest }))
  | _ => .next s

/-- STRM_DESC_START (R88, R93). `tsBad`: 8-byte units of the tile store that no longer correct. -/
def execStrmDescStart (c : Fin 96) (t : Fin 4) (tsBad : List Nat) (s : State) : Out :=
  let k := coreOf s c
  let v := strmOf k t
  match v.queue, freeProg v with
  | .desc b eph :: rest, some d =>
    if ¬ strmWorks s c ∨ (dOrder b ∧ v.prog.any (fun p => p.2.isSome)) then .next s
    else
      let k := { k with tsBad := k.tsBad ++ tsBad.filter (fun u => u < 0x8_0000 ∧ ¬ k.tsBad.contains u) }
      let bad := dBad k b
      let p : Prog :=
        if bad ≠ 0 then { b := b, eph := eph, parts := 0, ended := some bad }
        else { b := b, eph := eph, parts := dParts b, list := if dListed b then readList k b else [] }
      .next (setCore s c (setStrm k t { queue := rest, prog := smSet none v.prog d (some p) }))
  | _, _ => .next s

/-! ### Parts (R91, R94, R95) -/

/-- Source and destination of part i; `none` when its list entry does not correct. -/
def partEnds (p : Prog) (i : Nat) : Option (Nat × Nat) :=
  let b := p.b
  let at64 (base : Nat) (x : Int) : Nat := wrapInt 64 (base + x)
  if dListed b then
    match p.list[i]?.join with
    | none => none
    | some e => some (if dGather b then (e, at64 (dDst b) (i * dStride b 2)) else (at64 (dSrc b) (i * dStride b 0), e))
  else
    let d1 : Int := (i % dDim1 b : Nat)
    let d2 : Int := (i / dDim1 b : Nat)
    some (at64 (dSrc b) (d1 * dStride b 0 + d2 * dStride b 1), at64 (dDst b) (d1 * dStride b 2 + d2 * dStride b 3))

/-- R94: the bytes of a run as the destination takes them, with the flags of their conversion. -/
def convertRun (b bs : Bytes) : Bytes × Nat :=
  if dConvEn b then
    let f := dSrcFmt b
    let es := (elemsOf bs (fmtBits f)).map (fun v =>
      convElem (dConv b) (if fmtFloat f then decElem f v else numOfInt (intElem f v)))
    (packElems (fmtBits (dConv b / 16)) (es.map (·.1)), flagsNat (es.foldl (fun m e => flagsOr m e.2) {}) % 16)
  else (bs, 0)

/-- Accumulator words as bytes (R118). -/
def accBytes (k : Core) (a n : Nat) : Bytes × List Bad :=
  let ws := (countUp (a / 4) (n / 4)).map (accRead k)
  ((ws.map (fun w => toLE w.1 4)).flatten, (ws.map (·.2)).flatten)

/-- Instruction words written from bytes; whole words get fresh check bits. -/
def imemWrite (k : Core) (a : Nat) (bs : Bytes) : Core :=
  let ws := countUp (a / 8) (ceilDiv bs.length 8)
  let put (m : SMap W64) (w : Nat) : SMap W64 :=
    let n := min 8 (bs.length - 8 * (w - a / 8))
    let old := toLE (smGet 0 m w).toNat 8
    smSet 0 m w (BitVec.ofNat 64 (fromLE (bytesAt bs (8 * (w - a / 8)) n ++ old.drop n)))
  { k with imem := ws.foldl put k.imem,
           imemBad := k.imemBad.filter (fun u => ¬ (a / 8 ≤ u ∧ 8 * (u + 1) ≤ a + bs.length)) }

/-- The bytes of a part's source. `ext` answers for another module or the host; `none` while it stalls. -/
def runRead (s : State) (c key sp a n : Nat) (ext : Ext) : State × Option (Nat × Bytes) :=
  let core (r : Bytes × List Bad) : State × Option (Nat × Bytes) := (s, some (if r.2.isEmpty then 0 else 0x02, r.1))
  match sp with
  | 0 => core (tsRead (coreOf s c) a n)
  | 1 => core (accBytes (coreOf s c) a n)
  | 2 => if 2 ^ 44 ≤ a then (s, some (0x0A, [])) else ltaRead s key a n
  | 3 => cmdReadPeer s key a n ext
  | _ => cmdReadHost s a n ext
where
  /-- R361: a fabric address; pieces that do not cross 4 KiB. -/
  cmdReadPeer (s : State) (key a n : Nat) (ext : Ext) : State × Option (Nat × Bytes) :=
    if fabRsvd a ≠ 0 then (s, some (0x09, []))
    else if fabBad (fabSpace a) (fabOff a) ≠ 0 then (s, some (fabBad (fabSpace a) (fabOff a), []))
    else if ¬ ownDev s (fabDev a) false then (s, some (ext.status.toNat, bytesAt ext.data 0 n))
    else if fabSpace a = 2 then cmdReadHost s (fabOff a) n ext
    else if fabSpace a = 0 then ltaRead s key (fabOff a) n
    else
      (pieces4k (fabOff a) n).foldl (fun r p =>
        match r with
        | (s, some (_, d)) => match ctlRead .peer (fabOff a + p.1) p.2 s with | (s, v) => (s, some (0, d ++ toLE v p.2))
        | r => r) (s, some (0, []))

/-- Bytes written to memory of the core. -/
def coreWrite (s : State) (c sp a : Nat) (bs : Bytes) : State × Nat :=
  let k := coreOf s c
  match sp with
  | 0 => match tsWrite k a bs with | (k, bads) => (setCore s c k, if bads.isEmpty then 0 else 0x02)
  | 1 =>
    let ws := (countUp (a / 4) (bs.length / 4)).map (fun i => (i, fieldAt bs (4 * i - a) 4))
    match accPut k ws with | (k, bads) => (setCore s c k, if bads.isEmpty then 0 else 0x02)
  | _ => (setCore s c (imemWrite k a bs), 0)

/-- A part's bytes written at its destination. -/
def runWrite (s : State) (c key sp a : Nat) (bs : Bytes) (owner : HostOwner) (ext : Ext) : State × FabRes :=
  if (spaceSize sp).isSome then match coreWrite s c sp a bs with | (s, st) => (s, .ended st [])
  else if sp = 3 then
    if fabRsvd a ≠ 0 then (s, .ended 0x09 [])
    else if fabBad (fabSpace a) (fabOff a) ≠ 0 then (s, .ended (fabBad (fabSpace a) (fabOff a)) [])
    else if ¬ ownDev s (fabDev a) false then (s, .ended ext.status.toNat [])
    else if fabSpace a = 1 then
      ((pieces4k (fabOff a) bs.length).foldl (fun s p => ctlWrite .peer (fabOff a + p.1) p.2 (fieldAt bs p.1 4) s) s, .ended 0 [])
    else fabServe s .peer key (fabSpace a) (fabOff a) bs.length (some bs) owner
  else if 2 ^ 44 ≤ a then (s, .ended 0x0A [])
  else if sp = 2 then fabServe s .peer key 0 a bs.length (some bs) owner
  else hostEnd 0 (hostWrite s .peer a bs owner)

/-- R95: the stretches of [a, a + n) that no higher-numbered part has already written, as offset and length. -/
def keepOut (p : Prog) (i a n : Nat) : List (Nat × Nat) :=
  let len := dDstLen p.b
  let taken := p.done.filterMap (fun d =>
    if i < d.1 ∧ d.2 = 0 then (partEnds p d.1).map (·.2) else none)
  let free (x : Nat) : Bool := taken.all (fun t => decide (x < t) || decide (t + len ≤ x))
  if taken.all (fun t => decide (t + len ≤ a) || decide (a + n ≤ t)) then [(0, n)]
  else ((countUp 0 n).filter (fun o => free (a + o))).map (fun o => (o, 1))

/-- The stretches written one after another, up to the first that does not end OK. -/
def writeKept (c key sp a : Nat) (bs : Bytes) (owner : HostOwner) (ext : Ext) : State → List (Nat × Nat) → State × FabRes
  | s, [] => (s, .ended 0 [])
  | s, (o, n) :: l =>
    match runWrite s c key sp (a + o) (bytesAt bs o n) owner ext with
    | (s, .ended 0 _) => writeKept c key sp a bs owner ext s l
    | r => r

/-- A part of slot d ends, its bytes counted. -/
def endRun (s : State) (c t d i st n : Nat) : State :=
  let s := if st = 0 then bumpStat s (Csr.STRM_BYTES (c / 24) (c % 24) t) n (some (c / 24)) else s
  let k := coreOf s c
  let v := strmOf k t
  match smGet none v.prog d with
  | some p => setCore s c (setStrm k t { v with prog := smSet none v.prog d (some { p with done := p.done ++ [(i, st)] }) })
  | none => s

/-- A part of slot d has journaled its host writes (R425). -/
def partAway (s : State) (c t d i n : Nat) : State :=
  let s := bumpStat s (Csr.STRM_BYTES (c / 24) (c % 24) t) n (some (c / 24))
  let k := coreOf s c
  let v := strmOf k t
  match smGet none v.prog d with
  | some p => setCore s c (setStrm k t { v with prog := smSet none v.prog d (some { p with away := p.away ++ [i] }) })
  | none => s

/-- STRM_PART_DONE (R95): part i of slot d moves its bytes. -/
def execStrmPartDone (c : Fin 96) (t d : Fin 4) (i : Nat) (ext : Ext) (s : State) : Out :=
  let v := strmOf (coreOf s c) t
  match smGet none v.prog d with
  | none => .next s
  | some p =>
    if ¬ strmWorks s c ∨ p.parts ≤ i ∨ p.ended.isSome ∨ p.away.contains i ∨ p.done.any (fun x => x.1 = i) then .next s
    else
      match partEnds p i with
      | none => .next (endRun s c t d i 0x02 0)
      | some (src, dst) =>
        let key := engKey 0 (4 * c + t) (1 + 8 * i + 2 * d)
        match runRead s c key (dSrcSpace p.b) src (dDim0 p.b) ext with
        | (s, none) => .next s
        | (s, some (st, bs)) =>
          if st ≠ 0 then .next (endRun s c t d i st 0)
          else
            match convertRun p.b bs with
            | (out, fl) =>
              let n := dDstLen p.b
              match writeKept c (key + 32 * 65536) (dDstSpace p.b) dst out (.strm c t d i) ext s (keepOut p i dst n) with
              | (s, .wait) => .next s
              | (s, r) =>
                let a := Csr.CORE_CONV_FLAGS (c / 24) (c % 24)
                let s := wr s a (rd s a ||| fl)
                match r with
                | .ended st _ => .next (endRun s c t d i st n)
                | _ => .next (partAway s c t d i n)

/-- STRM_DESC_COMPLETE (R96 to R98). -/
def execStrmDescComplete (c : Fin 96) (t d : Fin 4) (s : State) : Out :=
  let k := coreOf s c
  let v := strmOf k t
  match smGet none v.prog d with
  | none => .next s
  | some p =>
    if ¬ strmWorks s c ∨ ¬ p.away.isEmpty ∨ (p.ended.isNone ∧ p.done.length < p.parts) then .next s
    else
      let s := setCore s c (setStrm k t { v with prog := smSet none v.prog d none })
      .next (strmComplete s c t p.b p.eph (progReport p))

end Sys2Proof.Machine
end

