-- ==== Sys2Proof/Machine/Vector.lean ====
section
/-! DEFINITION. The VEC class (R126 to R137, R142, R143). -/

namespace Sys2Proof.Machine

/-! ### Participation and element operations -/

/-- R127: the elements that take part under MEN and MSK, and the uncorrectable mask units met. -/
def takers (k : Core) (w : Nat) : List Nat × List Bad :=
  if bit w 33 then
    let (m, b) := mRead k (bits w 32 31)
    ((List.range k.vl).filter (fun i => bit m i), b)
  else (List.range k.vl, [])

/-- R138, R144: lane groups issued. -/
def laneGroups (s : State) (c : Nat) : State :=
  bumpStat s (Csr.VEC_STAT (c / 24) (c % 24)) (ceilDiv (coreOf s c).vl 64) (some (c / 24))

/-- An element operation: each participating element of VD becomes `f` of the elements of the sources. -/
def vecElems (srcs : Nat → List Nat) (f : List Nat → Nat) (s : State) (c w : Nat) : State × Flow :=
  let k := coreOf s c
  let (is, bm) := takers k w
  let rows := is.map (fun i => (i, (srcs w).map (fun r => vRead k r i)))
  let (k, part) := vPut k (bits w 53 49) (rows.map (fun p => (p.1, f (p.2.map (·.1)))))
  afterBads (laneGroups (setCore s c k) c) c (bm ++ rows.flatMap (fun p => p.2.flatMap (·.2)) ++ part)

/-- Sources VA. -/
def srcA (w : Nat) : List Nat := [bits w 48 44]

/-- Sources VA, VB. -/
def srcAB (w : Nat) : List Nat := [bits w 48 44, bits w 43 39]

/-- Sources VA, VB, VC. -/
def srcABC (w : Nat) : List Nat := [bits w 48 44, bits w 43 39, bits w 38 34]

/-- A one-source operation. -/
def vec1 (op : Nat) (f : Nat → Nat) (c : Fin 96) (k : Strike) (s : State) : Out :=
  .next (issue 4 op (vecElems srcA (fun l => f (l.getD 0 0))) c k s)

/-- A two-source operation. -/
def vec2 (op : Nat) (f : Nat → Nat → Nat) (c : Fin 96) (k : Strike) (s : State) : Out :=
  .next (issue 4 op (vecElems srcAB (fun l => f (l.getD 0 0) (l.getD 1 0))) c k s)

/-- A lane as a signed integer. -/
def i32 (v : Nat) : Int := signed 32 v

/-! ### VSETVL, loads and stores -/

/-- R128: VSETVL. -/
def vsetvlEff (k : Core) (w : Nat) : Core × Flow :=
  let v := (xr k (bits w 49 46) + bits w 8 0) % 2 ^ 64
  if v = 0 then (k, illegal)
  else
    let n := min v 256
    ({ xw k (bits w 53 50) n with vl := n }, .next)

/-- VSETVL. -/
def execVsetvl (c : Fin 96) (k : Strike) (s : State) : Out := .next (issue 4 0x00 (onCore vsetvlEff) c k s)

/-- R129: element addresses in units of the element (nibbles for 4-bit elements, bytes else; words for the
accumulator), as signed numbers. -/
def elemAddr (k : Core) (w fmt i : Nat) : Int :=
  let xa := xr k (bits w 48 45)
  let st := signed 32 (xr k (bits w 44 41))
  if bit w 36 then (bits xa 16 0 : Nat) + (i : Int) * st
  else if fmtBits fmt = 4 then (2 * bits xa 21 0 : Nat) + (i : Int) * st
  else (bits xa 21 0 : Nat) + (i : Int) * st * (fmtBits fmt / 8 : Nat)

/-- R143: an element inside its memory and aligned to its width. -/
def elemInside (w fmt : Nat) (a : Int) : Bool :=
  if bit w 36 then decide (0 ≤ a) && decide (a < 2 ^ 17)
  else if fmtBits fmt = 4 then decide (0 ≤ a) && decide (a < 2 ^ 23)
  else decide (0 ≤ a) && decide (a + (fmtBits fmt / 8 : Nat) ≤ 2 ^ 22) && decide (a % (fmtBits fmt / 8 : Nat) = 0)

/-- One element read for a load. -/
def vldElem (k : Core) (w fmt : Nat) (a : Nat) : Nat × List Bad :=
  if bit w 36 then accRead k a
  else if fmtBits fmt = 4 then
    let (b, bad) := tsRead k (a / 2) 1
    (loadElem fmt (fieldAt b 0 1 / (if a % 2 = 0 then 1 else 16) % 16), bad)
  else
    let (b, bad) := tsRead k a (fmtBits fmt / 8)
    (loadElem fmt (fromLE b), bad)

/-- R129, R130: VLD. -/
def vldEff (s : State) (c w : Nat) : State × Flow :=
  let k := coreOf s c
  let fmt := bits w 40 37
  let (is, bm) := takers k w
  if is.any (fun i => !elemInside w fmt (elemAddr k w fmt i)) then (s, badAddress)
  else
    let rs := is.map (fun i => (i, vldElem k w fmt (elemAddr k w fmt i).toNat))
    let (k, part) := vPut k (bits w 53 49) (rs.map (fun r => (r.1, r.2.1)))
    afterBads (laneGroups (setCore s c k) c) c (bm ++ rs.flatMap (·.2.2) ++ part)

/-- VLD. -/
def execVld (c : Fin 96) (k : Strike) (s : State) : Out := .next (issue 4 0x01 vldEff c k s)

/-- A byte of a pending store list, or of the tile store where none is pending. -/
def pendingByte (k : Core) (ws : List (Nat × Byte)) (a : Nat) : Nat :=
  match ws.reverse.find? (fun w => w.1 = a) with
  | some w => w.2.toNat
  | none => (memByte k.ts a).toNat

/-- The bytes one stored element writes; a nibble keeps the other half of its byte (R56). -/
def storeElem (k : Core) (fmt : Nat) (ws : List (Nat × Byte)) (a v : Nat) : List (Nat × Byte) :=
  if fmtBits fmt = 4 then
    let old := pendingByte k ws (a / 2)
    ws ++ [(a / 2, BitVec.ofNat 8 (if a % 2 = 0 then old / 16 * 16 + v % 16 else old % 16 + 16 * (v % 16)))]
  else ws ++ (countUp a (fmtBits fmt / 8)).zip (toLE v (fmtBits fmt / 8))

/-- A nibble store whose byte has only one nibble written is a partial write of its 8-byte unit; the bytes
of which both nibbles are written. -/
def nibbleWhole (as : List Nat) (b : Nat) : Bool := as.contains (2 * b) && as.contains (2 * b + 1)

/-- R85: the tile-store writes of a store instruction. -/
def vstPut (k : Core) (fmt : Nat) (as : List Nat) (ws : List (Nat × Byte)) : Core × List Bad :=
  if fmtBits fmt = 4 then
    -- a unit with a half-written byte counts as written in part
    let half := k.tsBad.filter (fun u => (countUp (u * 8) 8).any (fun b =>
      (as.contains (2 * b) || as.contains (2 * b + 1)) && !nibbleWhole as b))
    let (k', p) := tsPut k (ws.filter (fun w => !half.contains (w.1 / 8)))
    (k', p ++ half.map (fun u => .ts (u / 8 * 64)))
  else tsPut k ws

/-- R131: VST. -/
def vstEff (s : State) (c w : Nat) : State × Flow :=
  let k := coreOf s c
  let ctl := bits w 30 23
  let fmt := if bit w 36 then 0 else ctl / 16
  let (is, bm) := takers k w
  if is.any (fun i => !elemInside w fmt (elemAddr k w fmt i)) then (s, badAddress)
  else
    let vs := is.map (fun i => ((elemAddr k w fmt i).toNat, vRead k (bits w 53 49) i))
    let badv := vs.flatMap (·.2.2)
    if bit w 36 then
      let (k, part) := accPut k (vs.map (fun v => (v.1, v.2.1)))
      afterBads (laneGroups (setCore s c k) c) c (bm ++ badv ++ part)
    else
      let cv := vs.map (fun v => (v.1, convElem ctl (if bit w 35 then numOfInt (i32 v.2.1) else dec32 v.2.1)))
      let f := cv.foldl (fun f x => flagsOr f x.2.2) {}
      let ws := cv.foldl (fun ws x => storeElem k fmt ws x.1 x.2.1) []
      let (k, part) := vstPut k fmt (cv.map (·.1)) ws
      afterBads (accFlags (laneGroups (setCore s c k) c) c (flagsNat f)) c (bm ++ badv ++ part)

/-- VST. -/
def execVst (c : Fin 96) (k : Strike) (s : State) : Out := .next (issue 4 0x02 vstEff c k s)

/-- R132: one group: its exponent, mantissas, remainders and flags. -/
def g8Group (r : Rnd) (xs : List Nat) : Nat × List Int × List Nat × Flags :=
  let (X, ms, f) := convG8 r (xs.map dec32)
  (X, ms, (xs.zip ms).map (fun p => if X = 255 then 0 else enc32 (numAdd (dec32 p.1) (numNeg (g8Value p.2 X)))), f)

/-- R132, R143: VSTG8. -/
def vstg8Eff (s : State) (c w : Nat) : State × Flow :=
  let k := coreOf s c
  let xa := bits (xr k (bits w 48 45)) 21 0
  let xb := bits (xr k (bits w 44 41)) 21 0
  let r : Rnd := if bit w 30 then .rtz else .rne
  if k.vl % 64 ≠ 0 then (s, illegal)
  else if 2 ^ 22 < xa + k.vl ∨ 2 ^ 22 < xb + k.vl / 64 then (s, badAddress)
  else
    let vs := (List.range k.vl).map (fun i => vRead k (bits w 53 49) i)
    let gs := (List.range (k.vl / 64)).map (fun g => g8Group r (((vs.map (·.1)).drop (64 * g)).take 64))
    let f := gs.foldl (fun f g => flagsOr f g.2.2.2) {}
    let (k1, p1) := tsWrite k xa (gs.flatMap (fun g => g.2.1.map (fun m => BitVec.ofInt 8 m)))
    let (k2, p2) := tsWrite k1 xb (gs.map (fun g => BitVec.ofNat 8 g.1))
    let rem := gs.flatMap (fun g => g.2.2.1)
    let (k3, p3) := vPut k2 (bits w 40 36) ((List.range k.vl).zip rem)
    afterBads (accFlags (laneGroups (setCore s c k3) c) c (flagsNat f)) c (vs.flatMap (·.2) ++ p1 ++ p2 ++ p3)

/-- VSTG8. -/
def execVstg8 (c : Fin 96) (k : Strike) (s : State) : Out := .next (issue 4 0x03 vstg8Eff c k s)

/-- R124: VTRQPOP stalls on an empty queue. -/
def vtrqpopEff (k : Core) (w : Nat) : Core × Flow :=
  match k.trq with
  | [] => (k, .stall .trqEmpty)
  | t :: rest => ({ xw k (bits w 53 50) t with trq := rest }, .next)

/-- VTRQPOP. -/
def execVtrqpop (c : Fin 96) (k : Strike) (s : State) : Out := .next (issue 4 0x04 (onCore vtrqpopEff) c k s)

/-- VEXT: Xd = element IDX of VA, sign-extended. -/
def execVext (c : Fin 96) (k : Strike) (s : State) : Out :=
  .next (issue 4 0x05 (fun s c w =>
    let k := coreOf s c
    let (v, b) := vRead k (bits w 48 44) (bits w 8 0)
    afterBads (setCore s c (xw k (bits w 53 50) (wrapInt 64 (i32 v)))) c b) c k s)

/-- VINS: element IDX of VD = Xa[31:0]. -/
def execVins (c : Fin 96) (k : Strike) (s : State) : Out :=
  .next (issue 4 0x06 (fun s c w =>
    let k := coreOf s c
    let (k, p) := vPut k (bits w 53 49) [(bits w 8 0, bits (xr k (bits w 48 45)) 31 0)]
    afterBads (setCore s c k) c p) c k s)

/-! ### Arithmetic (R133, R142) -/

/-- VMOV. -/
def execVmov (c : Fin 96) (k : Strike) (s : State) : Out := vec1 0x07 (fun a => a) c k s
/-- VFADD. -/
def execVfadd (c : Fin 96) (k : Strike) (s : State) : Out := vec2 0x08 fadd c k s
/-- VFSUB. -/
def execVfsub (c : Fin 96) (k : Strike) (s : State) : Out := vec2 0x09 fsub c k s
/-- VFMUL. -/
def execVfmul (c : Fin 96) (k : Strike) (s : State) : Out := vec2 0x0A fmul c k s
/-- VFFMA: one rounding. -/
def execVffma (c : Fin 96) (k : Strike) (s : State) : Out :=
  .next (issue 4 0x0B (vecElems srcABC (fun l => ffma (l.getD 0 0) (l.getD 1 0) (l.getD 2 0))) c k s)
/-- VFMAX. -/
def execVfmax (c : Fin 96) (k : Strike) (s : State) : Out := vec2 0x0C fmax c k s
/-- VFMIN. -/
def execVfmin (c : Fin 96) (k : Strike) (s : State) : Out := vec2 0x0D fmin c k s
/-- R52: an operation's NaN is canonical; the sign of a number is cleared. -/
def absElem (a : Nat) : Nat := if isNan32 a then nan32 else a % 2 ^ 31
/-- VFABS. -/
def execVfabs (c : Fin 96) (k : Strike) (s : State) : Out := vec1 0x0E absElem c k s
/-- R52: an operation's NaN is canonical; the sign of a number is turned. -/
def negElem (a : Nat) : Nat := if isNan32 a then nan32 else (a + 2 ^ 31) % 2 ^ 32
/-- VFNEG. -/
def execVfneg (c : Fin 96) (k : Strike) (s : State) : Out := vec1 0x0F negElem c k s
/-- VRCP (R135). -/
def execVrcp (c : Fin 96) (k : Strike) (s : State) : Out := vec1 0x10 fnRcp c k s
/-- VRSQRT (R135). -/
def execVrsqrt (c : Fin 96) (k : Strike) (s : State) : Out := vec1 0x11 fnRsqrt c k s
/-- VSQRT (R135). -/
def execVsqrt (c : Fin 96) (k : Strike) (s : State) : Out := vec1 0x12 fnSqrt c k s
/-- VEXP2 (R135). -/
def execVexp2 (c : Fin 96) (k : Strike) (s : State) : Out := vec1 0x13 fnExp2 c k s
/-- VLOG2 (R135). -/
def execVlog2 (c : Fin 96) (k : Strike) (s : State) : Out := vec1 0x14 fnLog2 c k s
/-- VTANH (R135). -/
def execVtanh (c : Fin 96) (k : Strike) (s : State) : Out := vec1 0x15 fnTanh c k s
/-- VSIGM (R135). -/
def execVsigm (c : Fin 96) (k : Strike) (s : State) : Out := vec1 0x16 fnSigm c k s
/-- VERF (R135). -/
def execVerf (c : Fin 96) (k : Strike) (s : State) : Out := vec1 0x17 fnErf c k s
/-- VCVTIF: I32 to FP32. -/
def execVcvtif (c : Fin 96) (k : Strike) (s : State) : Out := vec1 0x18 (fun a => enc32 (numOfInt (i32 a))) c k s

/-- R133: FP32 to I32 with saturation, and its flags. -/
def cvtfi (r : Rnd) (a : Nat) : Nat × Flags :=
  match dec32 a with
  | .nan => (0, {})
  | .inf neg => (wrapInt 32 (if neg then -(2 ^ 31) else 2 ^ 31 - 1), { saturated := true })
  | x =>
    let v := numToInt r x
    if v < -(2 ^ 31) then (wrapInt 32 (-(2 ^ 31)), { overflow := true, saturated := true })
    else if (2 ^ 31 - 1 : Int) < v then (2 ^ 31 - 1, { overflow := true, saturated := true })
    else (wrapInt 32 v, {})

/-- R133: VCVTFI. -/
def vcvtfiEff (s : State) (c w : Nat) : State × Flow :=
  let r : Rnd := if bit w 30 then .rtz else .rne
  let k := coreOf s c
  let f := (takers k w).1.foldl (fun f i => flagsOr f (cvtfi r (vRead k (bits w 48 44) i).1).2) {}
  let (s, fl) := vecElems srcA (fun l => (cvtfi r (l.getD 0 0)).1) s c w
  (accFlags s c (flagsNat f), fl)

/-- VCVTFI. -/
def execVcvtfi (c : Fin 96) (k : Strike) (s : State) : Out := .next (issue 4 0x19 vcvtfiEff c k s)

/-- R136: a scale byte from a value and a signed offset. -/
def expScale (off : Int) (a : Nat) : Nat :=
  match dec32 a with
  | .fin _ m e =>
    if m = 0 then 0
    else
      let v := floorLog2 m e + 127 - off
      (if v < 0 then 0 else if 254 < v then 254 else v).toNat
  | _ => 255

/-- VEXPS. -/
def execVexps (c : Fin 96) (k : Strike) (s : State) : Out :=
  .next (issue 4 0x1A (fun s c w =>
    vecElems srcA (fun l => expScale (signed 8 (bits w 7 0)) (l.getD 0 0)) s c w) c k s)

/-! ### Comparisons and masks (R137) -/

/-- R137: an FP32 condition; a NaN fails every condition but NE. -/
def fcond (cond a b : Nat) : Bool :=
  let x := dec32 a; let y := dec32 b
  if x = .nan ∨ y = .nan then cond == 1
  else match cond with
    | 0 => numEq x y | 1 => !numEq x y | 2 => numLt x y | 3 => !numLt y x | 4 => numLt y x | _ => !numLt x y

/-- R137: a signed integer condition. -/
def icond (cond a b : Nat) : Bool :=
  let x := i32 a; let y := i32 b
  match cond with
  | 0 => x == y | 1 => x != y | 2 => decide (x < y) | 3 => decide (x ≤ y) | 4 => decide (y < x) | _ => decide (y ≤ x)

/-- A number with the bits of a list set. -/
def maskOf (is : List Nat) : Nat := is.foldl (fun m i => m ||| 1 <<< i) 0

/-- R137: a comparison writes the whole destination mask. -/
def vcmpEff (cmp : Nat → Nat → Nat → Bool) (s : State) (c w : Nat) : State × Flow :=
  let k := coreOf s c
  let (is, bm) := takers k w
  let rows := is.map (fun i => (i, vRead k (bits w 48 44) i, vRead k (bits w 43 39) i))
  let m := maskOf ((rows.filter (fun r => cmp (bits w 30 28) r.2.1.1 r.2.2.1)).map (·.1))
  afterBads (laneGroups (setCore s c (mPut k (bits w 50 49) m)) c) c
    (bm ++ rows.flatMap (fun r => r.2.1.2 ++ r.2.2.2))

/-- VFCMP. -/
def execVfcmp (c : Fin 96) (k : Strike) (s : State) : Out := .next (issue 4 0x1B (vcmpEff fcond) c k s)

/-- VICMP. -/
def execVicmp (c : Fin 96) (k : Strike) (s : State) : Out := .next (issue 4 0x2B (vcmpEff icond) c k s)

/-! ### Reductions (R134) -/

/-- The last lane values folded in pairs: from 64 lanes to one. -/
def foldPairs (op : Nat → Nat → Nat) : Nat → List Nat → Nat
  | 0, l => l.getD 0 0
  | n + 1, l => foldPairs op n ((List.range (l.length / 2)).map (fun i => op (l.getD (2 * i) 0) (l.getD (2 * i + 1) 0)))

/-- R134: the fixed-order reduction over the participating elements. -/
def reduceElems (op : Nat → Nat → Nat) (ident : Nat) (vals : List (Nat × Nat)) : Nat :=
  let lane (l : Nat) : Nat :=
    [l, l + 64, l + 128, l + 192].foldl (fun acc e =>
      match vals.find? (fun v => v.1 = e) with | some v => op acc v.2 | none => acc) ident
  foldPairs op 6 ((List.range 64).map lane)

/-- R134: a reduction writes element 0 of VD. -/
def vredEff (op : Nat → Nat → Nat) (ident : Nat) (s : State) (c w : Nat) : State × Flow :=
  let k := coreOf s c
  let (is, bm) := takers k w
  let rows := is.map (fun i => (i, vRead k (bits w 48 44) i))
  let v := reduceElems op ident (rows.map (fun r => (r.1, r.2.1)))
  let (k, part) := vPut k (bits w 53 49) [(0, v)]
  afterBads (laneGroups (setCore s c k) c) c (bm ++ rows.flatMap (·.2.2) ++ part)

/-- VFRSUM: the identity is −0.0. -/
def execVfrsum (c : Fin 96) (k : Strike) (s : State) : Out := .next (issue 4 0x1C (vredEff fadd 0x8000_0000) c k s)
/-- VFRMAX. -/
def execVfrmax (c : Fin 96) (k : Strike) (s : State) : Out := .next (issue 4 0x1D (vredEff fmax nan32) c k s)
/-- VFRMIN. -/
def execVfrmin (c : Fin 96) (k : Strike) (s : State) : Out := .next (issue 4 0x1E (vredEff fmin nan32) c k s)
/-- VIRSUM: wrapping addition. -/
def execVirsum (c : Fin 96) (k : Strike) (s : State) : Out :=
  .next (issue 4 0x2C (vredEff (fun a b => (a + b) % 2 ^ 32) 0) c k s)

/-! ### Select and integer operations -/

/-- R137: VSEL chooses by mask MSK for the elements below VL. -/
def vselEff (s : State) (c w : Nat) : State × Flow :=
  let k := coreOf s c
  let (m, bm) := mRead k (bits w 32 31)
  let rows := (List.range k.vl).map (fun i => (i, vRead k (bits w (if bit m i then 48 else 43) (if bit m i then 44 else 39)) i))
  let (k, part) := vPut k (bits w 53 49) (rows.map (fun r => (r.1, r.2.1)))
  afterBads (laneGroups (setCore s c k) c) c (bm ++ rows.flatMap (·.2.2) ++ part)

/-- VSEL. -/
def execVsel (c : Fin 96) (k : Strike) (s : State) : Out := .next (issue 4 0x1F vselEff c k s)
/-- VIADD. -/
def execViadd (c : Fin 96) (k : Strike) (s : State) : Out := vec2 0x20 (fun a b => (a + b) % 2 ^ 32) c k s
/-- VISUB. -/
def execVisub (c : Fin 96) (k : Strike) (s : State) : Out := vec2 0x21 (fun a b => (a + (2 ^ 32 - b)) % 2 ^ 32) c k s
/-- VIMUL. -/
def execVimul (c : Fin 96) (k : Strike) (s : State) : Out := vec2 0x22 (fun a b => (a * b) % 2 ^ 32) c k s
/-- VIMAX. -/
def execVimax (c : Fin 96) (k : Strike) (s : State) : Out := vec2 0x23 (fun a b => if i32 a < i32 b then b else a) c k s
/-- VIMIN. -/
def execVimin (c : Fin 96) (k : Strike) (s : State) : Out := vec2 0x24 (fun a b => if i32 b < i32 a then b else a) c k s
/-- VAND. -/
def execVand (c : Fin 96) (k : Strike) (s : State) : Out := vec2 0x25 (fun a b => a &&& b) c k s
/-- VOR. -/
def execVor (c : Fin 96) (k : Strike) (s : State) : Out := vec2 0x26 (fun a b => a ||| b) c k s
/-- VXOR. -/
def execVxor (c : Fin 96) (k : Strike) (s : State) : Out := vec2 0x27 (fun a b => a ^^^ b) c k s
/-- VSHL. -/
def execVshl (c : Fin 96) (k : Strike) (s : State) : Out := vec2 0x28 (fun a b => (a <<< (b % 32)) % 2 ^ 32) c k s
/-- VSHRA. -/
def execVshra (c : Fin 96) (k : Strike) (s : State) : Out :=
  vec2 0x29 (fun a b => wrapInt 32 (i32 a / (2 ^ (b % 32) : Nat))) c k s
/-- VSHRL. -/
def execVshrl (c : Fin 96) (k : Strike) (s : State) : Out := vec2 0x2A (fun a b => a >>> (b % 32)) c k s

/-! ### Whole-register mask operations -/

/-- A mask operation over the masks named in VA and VB. -/
def maskEff (f : Nat → Nat → Nat) (useA useB : Bool) (s : State) (c w : Nat) : State × Flow :=
  let k := coreOf s c
  let (a, ba) := if useA then mRead k (bits w 45 44) else (0, [])
  let (b, bb) := if useB then mRead k (bits w 40 39) else (0, [])
  afterBads (setCore s c (mPut k (bits w 50 49) (f a b))) c (ba ++ bb)

/-- VMSET. -/
def execVmset (c : Fin 96) (k : Strike) (s : State) : Out :=
  .next (issue 4 0x2D (maskEff (fun _ _ => 2 ^ 256 - 1) false false) c k s)
/-- VMNOT. -/
def execVmnot (c : Fin 96) (k : Strike) (s : State) : Out :=
  .next (issue 4 0x2E (maskEff (fun a _ => 2 ^ 256 - 1 - a) true false) c k s)
/-- VMAND. -/
def execVmand (c : Fin 96) (k : Strike) (s : State) : Out :=
  .next (issue 4 0x2F (maskEff (fun a b => a &&& b) true true) c k s)
/-- VMOR. -/
def execVmor (c : Fin 96) (k : Strike) (s : State) : Out :=
  .next (issue 4 0x30 (maskEff (fun a b => a ||| b) true true) c k s)

/-- VMPOP: the set bits below VL counted. -/
def execVmpop (c : Fin 96) (k : Strike) (s : State) : Out :=
  .next (issue 4 0x31 (fun s c w =>
    let k := coreOf s c
    let (m, b) := mRead k (bits w 45 44)
    afterBads (setCore s c (xw k (bits w 53 50) ((List.range k.vl).filter (fun i => bit m i)).length)) c b) c k s)

end Sys2Proof.Machine
end

