-- ==== Sys2Proof/Machine/Dispatch.lean ====
section
/-! DEFINITION. The meaning of each command, one arm per row of the opcode table. -/

namespace Sys2Proof.Machine

open Sys2Proof

def exec (i : Instr) (s : State) : Host.Outcome State Fault Refusal :=
  match i with
  | .registerWrite who addr len v => Sys2Proof.Machine.execRegisterWrite who addr len v s
  | .reg64LowRead who addr => Sys2Proof.Machine.execReg64LowRead who addr s
  | .reg64HighRead who addr => Sys2Proof.Machine.execReg64HighRead who addr s
  | .reg64LowWrite who addr v => Sys2Proof.Machine.execReg64LowWrite who addr v s
  | .reg64HighWrite who addr v => Sys2Proof.Machine.execReg64HighWrite who addr v s
  | .rcCounterRead who addr sameCycle => Sys2Proof.Machine.execRcCounterRead who addr sameCycle s
  | .shShadowWrite who addr v => Sys2Proof.Machine.execShShadowWrite who addr v s
  | .quiesceRequest who hi => Sys2Proof.Machine.execQuiesceRequest who hi s
  | .blockQuiesced b => Sys2Proof.Machine.execBlockQuiesced b s
  | .quiesceTimeout => Sys2Proof.Machine.execQuiesceTimeout s
  | .commitGo who v => Sys2Proof.Machine.execCommitGo who v s
  | .commitConfirm => Sys2Proof.Machine.execCommitConfirm s
  | .nop c k => Sys2Proof.Machine.execNop c k s
  | .halt c k => Sys2Proof.Machine.execHalt c k s
  | .li c k => Sys2Proof.Machine.execLi c k s
  | .lui c k => Sys2Proof.Machine.execLui c k s
  | .addi c k => Sys2Proof.Machine.execAddi c k s
  | .add c k => Sys2Proof.Machine.execAdd c k s
  | .sub c k => Sys2Proof.Machine.execSub c k s
  | .shli c k => Sys2Proof.Machine.execShli c k s
  | .bz c k => Sys2Proof.Machine.execBz c k s
  | .bnz c k => Sys2Proof.Machine.execBnz c k s
  | .jmp c k => Sys2Proof.Machine.execJmp c k s
  | .loop c k => Sys2Proof.Machine.execLoop c k s
  | .strmIssue c k => Sys2Proof.Machine.execStrmIssue c k s
  | .strmCancelInstr c k => Sys2Proof.Machine.execStrmCancelInstr c k s
  | .mmLdw c k => Sys2Proof.Machine.execMmLdw c k s
  | .mmRun c k => Sys2Proof.Machine.execMmRun c k s
  | .mmRunComplete c => Sys2Proof.Machine.execMmRunComplete c s
  | .syncWait c k => Sys2Proof.Machine.execSyncWait c k s
  | .syncWaitm c k => Sys2Proof.Machine.execSyncWaitm c k s
  | .syncSet c k => Sys2Proof.Machine.execSyncSet c k s
  | .syncClr c k => Sys2Proof.Machine.execSyncClr c k s
  | .syncTest c k => Sys2Proof.Machine.execSyncTest c k s
  | .syncSig c k => Sys2Proof.Machine.execSyncSig c k s
  | .syncSigDeliver c => Sys2Proof.Machine.execSyncSigDeliver c s
  | .syncBar c k => Sys2Proof.Machine.execSyncBar c k s
  | .barComplete group id => Sys2Proof.Machine.execBarComplete group id s
  | .syncMark c k => Sys2Proof.Machine.execSyncMark c k s
  | .syncDrain c k => Sys2Proof.Machine.execSyncDrain c k s
  | .coreStallResume c => Sys2Proof.Machine.execCoreStallResume c s
  | .coreRun who c => Sys2Proof.Machine.execCoreRun who c s
  | .coreStop who c => Sys2Proof.Machine.execCoreStop who c s
  | .corePcWrite who c v => Sys2Proof.Machine.execCorePcWrite who c v s
  | .coreFaultClr who c => Sys2Proof.Machine.execCoreFaultClr who c s
  | .coreSbClear who c hi => Sys2Proof.Machine.execCoreSbClear who c hi s
  | .coreSbSet who c hi => Sys2Proof.Machine.execCoreSbSet who c hi s
  | .accTmodeWrite who c hi => Sys2Proof.Machine.execAccTmodeWrite who c hi s
  | .coreInitDone c => Sys2Proof.Machine.execCoreInitDone c s
  | .strmPush who c u hi => Sys2Proof.Machine.execStrmPush who c u hi s
  | .strmPushFetch c u => Sys2Proof.Machine.execStrmPushFetch c u s
  | .strmCancel who c u => Sys2Proof.Machine.execStrmCancel who c u s
  | .strmFailClear who c u => Sys2Proof.Machine.execStrmFailClear who c u s
  | .strmDescStart c u tsBad => Sys2Proof.Machine.execStrmDescStart c u tsBad s
  | .strmPartDone c u d part ext => Sys2Proof.Machine.execStrmPartDone c u d part ext s
  | .strmDescComplete c u d => Sys2Proof.Machine.execStrmDescComplete c u d s
  | .accMode c k => Sys2Proof.Machine.execAccMode c k s
  | .accZero c k => Sys2Proof.Machine.execAccZero c k s
  | .accLd c k => Sys2Proof.Machine.execAccLd c k s
  | .accSt c k => Sys2Proof.Machine.execAccSt c k s
  | .accPush c k => Sys2Proof.Machine.execAccPush c k s
  | .trqPush c => Sys2Proof.Machine.execTrqPush c s
  | .accSadd c k => Sys2Proof.Machine.execAccSadd c k s
  | .accSmrg c k => Sys2Proof.Machine.execAccSmrg c k s
  | .accSfin c k => Sys2Proof.Machine.execAccSfin c k s
  | .vsetvl c k => Sys2Proof.Machine.execVsetvl c k s
  | .vld c k => Sys2Proof.Machine.execVld c k s
  | .vst c k => Sys2Proof.Machine.execVst c k s
  | .vstg8 c k => Sys2Proof.Machine.execVstg8 c k s
  | .vtrqpop c k => Sys2Proof.Machine.execVtrqpop c k s
  | .vext c k => Sys2Proof.Machine.execVext c k s
  | .vins c k => Sys2Proof.Machine.execVins c k s
  | .vmov c k => Sys2Proof.Machine.execVmov c k s
  | .vfadd c k => Sys2Proof.Machine.execVfadd c k s
  | .vfsub c k => Sys2Proof.Machine.execVfsub c k s
  | .vfmul c k => Sys2Proof.Machine.execVfmul c k s
  | .vffma c k => Sys2Proof.Machine.execVffma c k s
  | .vfmax c k => Sys2Proof.Machine.execVfmax c k s
  | .vfmin c k => Sys2Proof.Machine.execVfmin c k s
  | .vfabs c k => Sys2Proof.Machine.execVfabs c k s
  | .vfneg c k => Sys2Proof.Machine.execVfneg c k s
  | .vrcp c k => Sys2Proof.Machine.execVrcp c k s
  | .vrsqrt c k => Sys2Proof.Machine.execVrsqrt c k s
  | .vsqrt c k => Sys2Proof.Machine.execVsqrt c k s
  | .vexp2 c k => Sys2Proof.Machine.execVexp2 c k s
  | .vlog2 c k => Sys2Proof.Machine.execVlog2 c k s
  | .vtanh c k => Sys2Proof.Machine.execVtanh c k s
  | .vsigm c k => Sys2Proof.Machine.execVsigm c k s
  | .verf c k => Sys2Proof.Machine.execVerf c k s
  | .vcvtif c k => Sys2Proof.Machine.execVcvtif c k s
  | .vcvtfi c k => Sys2Proof.Machine.execVcvtfi c k s
  | .vexps c k => Sys2Proof.Machine.execVexps c k s
  | .vfcmp c k => Sys2Proof.Machine.execVfcmp c k s
  | .vfrsum c k => Sys2Proof.Machine.execVfrsum c k s
  | .vfrmax c k => Sys2Proof.Machine.execVfrmax c k s
  | .vfrmin c k => Sys2Proof.Machine.execVfrmin c k s
  | .vsel c k => Sys2Proof.Machine.execVsel c k s
  | .viadd c k => Sys2Proof.Machine.execViadd c k s
  | .visub c k => Sys2Proof.Machine.execVisub c k s
  | .vimul c k => Sys2Proof.Machine.execVimul c k s
  | .vimax c k => Sys2Proof.Machine.execVimax c k s
  | .vimin c k => Sys2Proof.Machine.execVimin c k s
  | .vand c k => Sys2Proof.Machine.execVand c k s
  | .vor c k => Sys2Proof.Machine.execVor c k s
  | .vxor c k => Sys2Proof.Machine.execVxor c k s
  | .vshl c k => Sys2Proof.Machine.execVshl c k s
  | .vshra c k => Sys2Proof.Machine.execVshra c k s
  | .vshrl c k => Sys2Proof.Machine.execVshrl c k s
  | .vicmp c k => Sys2Proof.Machine.execVicmp c k s
  | .virsum c k => Sys2Proof.Machine.execVirsum c k s
  | .vmset c k => Sys2Proof.Machine.execVmset c k s
  | .vmnot c k => Sys2Proof.Machine.execVmnot c k s
  | .vmand c k => Sys2Proof.Machine.execVmand c k s
  | .vmor c k => Sys2Proof.Machine.execVmor c k s
  | .vmpop c k => Sys2Proof.Machine.execVmpop c k s
  | .fastLineRequest f r => Sys2Proof.Machine.execFastLineRequest f r s
  | .fastAccessDone f n symErrors onDie => Sys2Proof.Machine.execFastAccessDone f n symErrors onDie s
  | .deepGranuleRequest d r => Sys2Proof.Machine.execDeepGranuleRequest d r s
  | .deepAccessDone d n symErrors onDie => Sys2Proof.Machine.execDeepAccessDone d n symErrors onDie s
  | .deepTierTimeout d n issued => Sys2Proof.Machine.execDeepTierTimeout d n issued s
  | .refreshInterval u channel bank => Sys2Proof.Machine.execRefreshInterval u channel bank s
  | .bankRefresh u channel bank => Sys2Proof.Machine.execBankRefresh u channel bank s
  | .stackTempSample u celsius => Sys2Proof.Machine.execStackTempSample u celsius s
  | .scrubStep u symErrors onDie => Sys2Proof.Machine.execScrubStep u symErrors onDie s
  | .rowlogClr who u => Sys2Proof.Machine.execRowlogClr who u s
  | .errCaptureClear who u => Sys2Proof.Machine.execErrCaptureClear who u s
  | .stackInitDone u => Sys2Proof.Machine.execStackInitDone u s
  | .controllerReady u => Sys2Proof.Machine.execControllerReady u s
  | .selfRefreshExit u => Sys2Proof.Machine.execSelfRefreshExit u s
  | .ltaAccess r => Sys2Proof.Machine.execLtaAccess r s
  | .migrationStart => Sys2Proof.Machine.execMigrationStart s
  | .promotionSector slot => Sys2Proof.Machine.execPromotionSector slot s
  | .stalledRequestResume n => Sys2Proof.Machine.execStalledRequestResume n s
  | .writebackSector slot => Sys2Proof.Machine.execWritebackSector slot s
  | .frameWaitExpire page => Sys2Proof.Machine.execFrameWaitExpire page s
  | .epochTick => Sys2Proof.Machine.execEpochTick s
  | .sweepVisit die => Sys2Proof.Machine.execSweepVisit die s
  | .pagePoisonReport page status loc => Sys2Proof.Machine.execPagePoisonReport page status loc s
  | .plcJournalReplay => Sys2Proof.Machine.execPlcJournalReplay s
  | .plcRead who ch evt => Sys2Proof.Machine.execPlcRead who ch evt s
  | .plcMap who ch evt => Sys2Proof.Machine.execPlcMap who ch evt s
  | .plcUnmap who ch evt => Sys2Proof.Machine.execPlcUnmap who ch evt s
  | .plcSetAttr who ch evt => Sys2Proof.Machine.execPlcSetAttr who ch evt s
  | .plcPromote who ch evt => Sys2Proof.Machine.execPlcPromote who ch evt s
  | .plcDemote who ch evt => Sys2Proof.Machine.execPlcDemote who ch evt s
  | .plcFlush who ch evt => Sys2Proof.Machine.execPlcFlush who ch evt s
  | .plcHome who ch evt => Sys2Proof.Machine.execPlcHome who ch evt s
  | .plcRelocate who ch evt => Sys2Proof.Machine.execPlcRelocate who ch evt s
  | .plcRetire who ch evt => Sys2Proof.Machine.execPlcRetire who ch evt s
  | .plcRelease who ch evt => Sys2Proof.Machine.execPlcRelease who ch evt s
  | .plcRebuild who ch evt => Sys2Proof.Machine.execPlcRebuild who ch evt s
  | .ephLoad who ch evt => Sys2Proof.Machine.execEphLoad who ch evt s
  | .ephArm who ch evt => Sys2Proof.Machine.execEphArm who ch evt s
  | .ephDisarm who ch evt => Sys2Proof.Machine.execEphDisarm who ch evt s
  | .ephUnload who ch evt => Sys2Proof.Machine.execEphUnload who ch evt s
  | .plcCmdDone ch => Sys2Proof.Machine.execPlcCmdDone ch s
  | .ephMarker => Sys2Proof.Machine.execEphMarker s
  | .ephDescPush plan entry => Sys2Proof.Machine.execEphDescPush plan entry s
  | .ephEntryComplete plan entry => Sys2Proof.Machine.execEphEntryComplete plan entry s
  | .nbuPageAcquire n page sectors => Sys2Proof.Machine.execNbuPageAcquire n page sectors s
  | .nbuFence n page => Sys2Proof.Machine.execNbuFence n page s
  | .nbuPageRelease n page => Sys2Proof.Machine.execNbuPageRelease n page s
  | .burstGrant n banks => Sys2Proof.Machine.execBurstGrant n banks s
  | .burstEnd n => Sys2Proof.Machine.execBurstEnd n s
  | .burstPreempt n => Sys2Proof.Machine.execBurstPreempt n s
  | .nbuRowReceive n row => Sys2Proof.Machine.execNbuRowReceive n row s
  | .nbuRowApply n => Sys2Proof.Machine.execNbuRowApply n s
  | .rowUnpark n => Sys2Proof.Machine.execRowUnpark n s
  | .transposeTile n => Sys2Proof.Machine.execTransposeTile n s
  | .nbuRowAnswer n => Sys2Proof.Machine.execNbuRowAnswer n s
  | .deltaReceive n delta => Sys2Proof.Machine.execDeltaReceive n delta s
  | .deltaAckReceive n ack => Sys2Proof.Machine.execDeltaAckReceive n ack s
  | .commitLineWrite n => Sys2Proof.Machine.execCommitLineWrite n s
  | .deltaResend n dev holder => Sys2Proof.Machine.execDeltaResend n dev holder s
  | .markSend n dev holder => Sys2Proof.Machine.execMarkSend n dev holder s
  | .nbuRetainedRestore n => Sys2Proof.Machine.execNbuRetainedRestore n s
  | .progLoad who n evt => Sys2Proof.Machine.execProgLoad who n evt s
  | .bindLoad who n evt => Sys2Proof.Machine.execBindLoad who n evt s
  | .bindClear who n evt => Sys2Proof.Machine.execBindClear who n evt s
  | .job who n evt => Sys2Proof.Machine.execJob who n evt s
  | .jobPart n => Sys2Proof.Machine.execJobPart n s
  | .audit who n evt => Sys2Proof.Machine.execAudit who n evt s
  | .transpose who n evt => Sys2Proof.Machine.execTranspose who n evt s
  | .seqReset who n evt => Sys2Proof.Machine.execSeqReset who n evt s
  | .nbuCmdDone n => Sys2Proof.Machine.execNbuCmdDone n s
  | .rlySqPiWrite who e q v => Sys2Proof.Machine.execRlySqPiWrite who e q v s
  | .rlyOpen e q => Sys2Proof.Machine.execRlyOpen e q s
  | .rlySend e q => Sys2Proof.Machine.execRlySend e q s
  | .rlyCancel e q => Sys2Proof.Machine.execRlyCancel e q s
  | .rlyRelease e q => Sys2Proof.Machine.execRlyRelease e q s
  | .contribReceive e rec => Sys2Proof.Machine.execContribReceive e rec s
  | .answerReceive e rec => Sys2Proof.Machine.execAnswerReceive e rec s
  | .resendReceive e rec => Sys2Proof.Machine.execResendReceive e rec s
  | .doneReceive e rec => Sys2Proof.Machine.execDoneReceive e rec s
  | .doneAckReceive e rec => Sys2Proof.Machine.execDoneAckReceive e rec s
  | .rlyHopTimeout e n => Sys2Proof.Machine.execRlyHopTimeout e n s
  | .rlyRetryTimer e n => Sys2Proof.Machine.execRlyRetryTimer e n s
  | .bucketDeadline e tag => Sys2Proof.Machine.execBucketDeadline e tag s
  | .bucketHardLimit e tag => Sys2Proof.Machine.execBucketHardLimit e tag s
  | .rowDeliver e => Sys2Proof.Machine.execRowDeliver e s
  | .nbuAnswerReceive e answer => Sys2Proof.Machine.execNbuAnswerReceive e answer s
  | .deliveryTimeout e tag row => Sys2Proof.Machine.execDeliveryTimeout e tag row s
  | .doneRepeat e n => Sys2Proof.Machine.execDoneRepeat e n s
  | .sendProbe e n => Sys2Proof.Machine.execSendProbe e n s
  | .rlyRbPiWrite who e v => Sys2Proof.Machine.execRlyRbPiWrite who e v s
  | .rebuildEntry e => Sys2Proof.Machine.execRebuildEntry e s
  | .xpartReceive e rec => Sys2Proof.Machine.execXpartReceive e rec s
  | .xpartReturn e rec ext => Sys2Proof.Machine.execXpartReturn e rec ext s
  | .xpartTimeout e token => Sys2Proof.Machine.execXpartTimeout e token s
  | .medSqPiWrite who r v => Sys2Proof.Machine.execMedSqPiWrite who r v s
  | .ingest r d => Sys2Proof.Machine.execIngest r d s
  | .shuf r => Sys2Proof.Machine.execShuf r s
  | .medCancel r => Sys2Proof.Machine.execMedCancel r s
  | .shufJobGenerate => Sys2Proof.Machine.execShufJobGenerate s
  | .ingestFrame e ext => Sys2Proof.Machine.execIngestFrame e ext s
  | .ingestJobDone e ext => Sys2Proof.Machine.execIngestJobDone e ext s
  | .linkEnable who l v => Sys2Proof.Machine.execLinkEnable who l v s
  | .linkAdmit who l v => Sys2Proof.Machine.execLinkAdmit who l v s
  | .linkRetrain who l => Sys2Proof.Machine.execLinkRetrain who l s
  | .linkTrained l lanes => Sys2Proof.Machine.execLinkTrained l lanes s
  | .linkTrainingTimeout l => Sys2Proof.Machine.execLinkTrainingTimeout l s
  | .linkAutoRetrain l => Sys2Proof.Machine.execLinkAutoRetrain l s
  | .laneLockLost l => Sys2Proof.Machine.execLaneLockLost l s
  | .initFlitReceive l f => Sys2Proof.Machine.execInitFlitReceive l f s
  | .dataFlitReceive l f => Sys2Proof.Machine.execDataFlitReceive l f s
  | .fecUncorrectable l flits => Sys2Proof.Machine.execFecUncorrectable l flits s
  | .nakReceive l f => Sys2Proof.Machine.execNakReceive l f s
  | .ackTimeout l => Sys2Proof.Machine.execAckTimeout l s
  | .flitSend l => Sys2Proof.Machine.execFlitSend l s
  | .keepaliveSend l => Sys2Proof.Machine.execKeepaliveSend l s
  | .keepaliveTimeout l => Sys2Proof.Machine.execKeepaliveTimeout l s
  | .peerStalled l => Sys2Proof.Machine.execPeerStalled l s
  | .helloReceive l m => Sys2Proof.Machine.execHelloReceive l m s
  | .helloProofReceive l m => Sys2Proof.Machine.execHelloProofReceive l m s
  | .messageRoute ingress m => Sys2Proof.Machine.execMessageRoute ingress m s
  | .fabricRequestIssue m => Sys2Proof.Machine.execFabricRequestIssue m s
  | .rdReq m => Sys2Proof.Machine.execRdReq m s
  | .wrReq m => Sys2Proof.Machine.execWrReq m s
  | .rdRsp m => Sys2Proof.Machine.execRdRsp m s
  | .wrRsp m => Sys2Proof.Machine.execWrRsp m s
  | .fabricRequestTimeout tag => Sys2Proof.Machine.execFabricRequestTimeout tag s
  | .relayMsgReceive m => Sys2Proof.Machine.execRelayMsgReceive m s
  | .srForward ingress m => Sys2Proof.Machine.execSrForward ingress m s
  | .srRead m => Sys2Proof.Machine.execSrRead m s
  | .srWrite m => Sys2Proof.Machine.execSrWrite m s
  | .mailboxReceive m => Sys2Proof.Machine.execMailboxReceive m s
  | .fabcMgmtPush who hi => Sys2Proof.Machine.execFabcMgmtPush who hi s
  | .routeBankSwitch who => Sys2Proof.Machine.execRouteBankSwitch who s
  | .jrnlExport who dev => Sys2Proof.Machine.execJrnlExport who dev s
  | .jrnlRevert who dev => Sys2Proof.Machine.execJrnlRevert who dev s
  | .jrnlForget who dev => Sys2Proof.Machine.execJrnlForget who dev s
  | .hRd m ext => Sys2Proof.Machine.execHRd m ext s
  | .hWr m ext => Sys2Proof.Machine.execHWr m ext s
  | .hostWriteIssue owner addr data => Sys2Proof.Machine.execHostWriteIssue owner addr data s
  | .hostReadIssue owner addr len => Sys2Proof.Machine.execHostReadIssue owner addr len s
  | .dRsp m => Sys2Proof.Machine.execDRsp m s
  | .hostReadTimeout tag => Sys2Proof.Machine.execHostReadTimeout tag s
  | .jack m => Sys2Proof.Machine.execJack m s
  | .resume m => Sys2Proof.Machine.execResume m s
  | .hostReset m => Sys2Proof.Machine.execHostReset m s
  | .detachTimeout => Sys2Proof.Machine.execDetachTimeout s
  | .hostAttach who key => Sys2Proof.Machine.execHostAttach who key s
  | .hostDetach who => Sys2Proof.Machine.execHostDetach who s
  | .detachComplete => Sys2Proof.Machine.execDetachComplete s
  | .sqDoorbell who q v => Sys2Proof.Machine.execSqDoorbell who q v s
  | .cqHeadWrite who q v => Sys2Proof.Machine.execCqHeadWrite who q v s
  | .sqFetch q ext => Sys2Proof.Machine.execSqFetch q ext s
  | .hlkNop q cid => Sys2Proof.Machine.execHlkNop q cid s
  | .writeInline q cid ext => Sys2Proof.Machine.execWriteInline q cid ext s
  | .copy q cid part src dst => Sys2Proof.Machine.execCopy q cid part src dst s
  | .readSmall q cid ext => Sys2Proof.Machine.execReadSmall q cid ext s
  | .fwCall q cid => Sys2Proof.Machine.execFwCall q cid s
  | .powerEnter q cid => Sys2Proof.Machine.execPowerEnter q cid s
  | .powerQuery q cid => Sys2Proof.Machine.execPowerQuery q cid s
  | .hlkCmdComplete q cid => Sys2Proof.Machine.execHlkCmdComplete q cid s
  | .cqCoalTimer q => Sys2Proof.Machine.execCqCoalTimer q s
  | .vecUnmask who v => Sys2Proof.Machine.execVecUnmask who v s
  | .fwDone who hi => Sys2Proof.Machine.execFwDone who hi s
  | .hwinWrite who w size hi => Sys2Proof.Machine.execHwinWrite who w size hi s
  | .procInstruction p op len fetchFails => Sys2Proof.Machine.execProcInstruction p op len fetchFails s
  | .procRun who p => Sys2Proof.Machine.execProcRun who p s
  | .procHalt who p => Sys2Proof.Machine.execProcHalt who p s
  | .procDinv who p => Sys2Proof.Machine.execProcDinv who p s
  | .procWfiWake p => Sys2Proof.Machine.execProcWfiWake p s
  | .mtimecmpMatch p => Sys2Proof.Machine.execMtimecmpMatch p s
  | .wdtKick who p v => Sys2Proof.Machine.execWdtKick who p v s
  | .wdtExpire p => Sys2Proof.Machine.execWdtExpire p s
  | .evtSwraise who v => Sys2Proof.Machine.execEvtSwraise who v s
  | .evtRingWrite t => Sys2Proof.Machine.execEvtRingWrite t s
  | .evtNestEnter who t => Sys2Proof.Machine.execEvtNestEnter who t s
  | .evtNestExit who t => Sys2Proof.Machine.execEvtNestExit who t s
  | .evtTgtCiWrite who t v => Sys2Proof.Machine.execEvtTgtCiWrite who t v s
  | .evtFaultClear who t => Sys2Proof.Machine.execEvtFaultClear who t s
  | .evtSrcPurge who n => Sys2Proof.Machine.execEvtSrcPurge who n s
  | .evtLineAccept l asserted => Sys2Proof.Machine.execEvtLineAccept l asserted s
  | .domeBufferDrain => Sys2Proof.Machine.execDomeBufferDrain s
  | .modeOvr who m => Sys2Proof.Machine.execModeOvr who m s
  | .confirm who => Sys2Proof.Machine.execConfirm who s
  | .bootRelease who => Sys2Proof.Machine.execBootRelease who s
  | .bootHostData who v => Sys2Proof.Machine.execBootHostData who v s
  | .flashRead who => Sys2Proof.Machine.execFlashRead who s
  | .flashProgram who => Sys2Proof.Machine.execFlashProgram who s
  | .flashErase who => Sys2Proof.Machine.execFlashErase who s
  | .flashReadId who id => Sys2Proof.Machine.execFlashReadId who id s
  | .flashDone => Sys2Proof.Machine.execFlashDone s
  | .secHash who => Sys2Proof.Machine.execSecHash who s
  | .secVerify who => Sys2Proof.Machine.execSecVerify who s
  | .secExtend who => Sys2Proof.Machine.execSecExtend who s
  | .secReport who => Sys2Proof.Machine.execSecReport who s
  | .svnSet who => Sys2Proof.Machine.execSvnSet who s
  | .keyProgram who => Sys2Proof.Machine.execKeyProgram who s
  | .keyRevoke who => Sys2Proof.Machine.execKeyRevoke who s
  | .lifecycleAdvance who => Sys2Proof.Machine.execLifecycleAdvance who s
  | .secCmdDone => Sys2Proof.Machine.execSecCmdDone s
  | .secPermLock who => Sys2Proof.Machine.execSecPermLock who s
  | .helloProofSign l => Sys2Proof.Machine.execHelloProofSign l s
  | .railThreshold r good => Sys2Proof.Machine.execRailThreshold r good s
  | .resetPinAccept high => Sys2Proof.Machine.execResetPinAccept high s
  | .clockMonitorWindow edges => Sys2Proof.Machine.execClockMonitorWindow edges s
  | .rstSwreq who v => Sys2Proof.Machine.execRstSwreq who v s
  | .rstDbgreq who v => Sys2Proof.Machine.execRstDbgreq who v s
  | .resetSourceAssert src reach hart => Sys2Proof.Machine.execResetSourceAssert src reach hart s
  | .resetSourceRelease src => Sys2Proof.Machine.execResetSourceRelease src s
  | .fuseLoadDone words => Sys2Proof.Machine.execFuseLoadDone words s
  | .pllLockDone => Sys2Proof.Machine.execPllLockDone s
  | .resetRelease => Sys2Proof.Machine.execResetRelease s
  | .blockResetRequest who b => Sys2Proof.Machine.execBlockResetRequest who b s
  | .blockResetEnter b => Sys2Proof.Machine.execBlockResetEnter b s
  | .blkTimeout b => Sys2Proof.Machine.execBlkTimeout b s
  | .blockResetEnd who b => Sys2Proof.Machine.execBlockResetEnd who b s
  | .blkDone b => Sys2Proof.Machine.execBlkDone b s
  | .entryQuiesced => Sys2Proof.Machine.execEntryQuiesced s
  | .entryClockStop => Sys2Proof.Machine.execEntryClockStop s
  | .entryAbandoned => Sys2Proof.Machine.execEntryAbandoned s
  | .wakePinAccept high => Sys2Proof.Machine.execWakePinAccept high s
  | .smbusAddressMatch addr => Sys2Proof.Machine.execSmbusAddressMatch addr s
  | .ralineActivity => Sys2Proof.Machine.execRalineActivity s
  | .watchWake source => Sys2Proof.Machine.execWatchWake source s
  | .wakeDone => Sys2Proof.Machine.execWakeDone s
  | .offWake => Sys2Proof.Machine.execOffWake s
  | .domainAutoOff d => Sys2Proof.Machine.execDomainAutoOff d s
  | .domainWake d => Sys2Proof.Machine.execDomainWake d s
  | .domainReady d => Sys2Proof.Machine.execDomainReady d s
  | .oppDone => Sys2Proof.Machine.execOppDone s
  | .powerSample fast slow energy => Sys2Proof.Machine.execPowerSample fast slow energy s
  | .capAdjust => Sys2Proof.Machine.execCapAdjust s
  | .thermalSample tj sensor => Sys2Proof.Machine.execThermalSample tj sensor s
  | .thermalShutdown => Sys2Proof.Machine.execThermalShutdown s
  | .railEnRelease => Sys2Proof.Machine.execRailEnRelease s
  | .smbusBlockRead code => Sys2Proof.Machine.execSmbusBlockRead code s
  | .platePublish who => Sys2Proof.Machine.execPlatePublish who s
  | .plateClear who => Sys2Proof.Machine.execPlateClear who s
  | .plateClearDone => Sys2Proof.Machine.execPlateClearDone s
  | .plateAck who seq => Sys2Proof.Machine.execPlateAck who seq s
  | .powerOnHoldEnd => Sys2Proof.Machine.execPowerOnHoldEnd s
  | .pllLossOfLock => Sys2Proof.Machine.execPllLossOfLock s
  | .vstbyLoss => Sys2Proof.Machine.execVstbyLoss s
  | .strapReadDone codes => Sys2Proof.Machine.execStrapReadDone codes s

end Sys2Proof.Machine
end

