-- ==== Sys2Proof/Machine/Tick.lean ====
section
/-! DEFINITION. What happens by itself from one clock cycle to the next (R415, R463, R538), with no command waiting. -/

namespace Sys2Proof.Machine

/-- Statistics of cycles with the power level below 9 (R538). -/
def tickThrottle (s : State) : State :=
  if s.pwr.cap < 9 then bumpStat s Csr.PWR_THROTTLE_CYC 1 (some 42) else s

/-- One SCLK cycle; while SCLK is stopped, one ACLK cycle, which is 48 of them (R463). -/
def tickEff (s : State) : State :=
  if ¬ s.rst.domeValid then s
  else if ¬ awake s then { s with stamp := s.stamp + 48 }
  else jrnlWork (tickThrottle { s with stamp := s.stamp + 1 })

end Sys2Proof.Machine
end

