-- ==== Sys2Proof/WellFormed.lean ====
section
/-! DEFINITION. Which commands are well formed: operands that the widths and counts of the manual allow. A command that
is not well formed is no access, message or operand that the module could be given. -/

namespace Sys2Proof

/-- An address of the control-register space (R33). -/
def ctlAddr (a : Nat) : Bool := decide (a < 2 ^ 28)

/-- Every number of a list is below a bound. -/
def below (n : Nat) (l : List Nat) : Bool := l.all (fun x => decide (x < n))

/-- Units of a core's memories (R85, R103, R112, R126). -/
def wfStrike (k : Strike) : Bool :=
  below 524288 k.ts && below 65536 k.acc && below 4096 k.vreg && below 16 k.mask && below 32768 k.imem

/-- R17: a status that the device can report. -/
def wfExt (e : Ext) : Bool := decide (e.status.toNat < 0x0F)

/-- A line request stays within its 64-byte line (R148, R168). -/
def wfLine (r : LineReq) : Bool :=
  decide (r.chaddr < 2 ^ 31) && decide (1 ≤ r.len) && decide (r.chaddr % 64 + r.len ≤ 64)
    && decide (if r.write then r.data.length = r.len else r.data = [])

/-- A granule request names granules and brings their bytes (R150, R171). -/
def wfGran (r : GranReq) : Bool :=
  decide (1 ≤ r.count) && decide (if r.write then r.data.length = 512 * r.count else r.data = [])

/-- An access of the local tensor space (R28). -/
def wfLta (r : LtaReq) : Bool :=
  decide (1 ≤ r.len) && decide (r.addr < 2 ^ 64) && decide (if r.write then r.data.length = r.len else r.data = [])

/-- A page number (R28). -/
def pageNo (p : Nat) : Bool := decide (p < 2 ^ 26)

/-- A record fits a message (R359). -/
def record (b : Bytes) : Bool := decide (b.length ≤ 8192)

/-- R349: the fields of a flit. -/
def wfFlit (f : Flit) : Bool :=
  decide (f.seq < 4096) && decide (f.ack < 4096) && decide (f.ftype < 8) && decide (f.vc < 4) && decide (f.hc < 2)
    && decide (f.cvc < 4) && decide (f.chc < 2) && decide (f.payload.length ≤ 244)

/-- R358: the fields of a message. -/
def wfMsg (m : FabMsg) : Bool :=
  decide (m.mtype < 16) && decide (m.dst < 4096) && decide (m.src < 4096) && decide (m.hops < 16) && decide (m.tag < 131072)
    && decide (m.gen < 8) && decide (m.rsvd < 8) && decide (m.sub < 256) && decide (m.addr < 2 ^ 64) && decide (m.len < 16384)
    && below 32 m.route && decide (m.route.length ≤ 9) && below 32 m.rroute && decide (m.rroute.length ≤ 9)

/-- R420: the fields of a Raline message. -/
def wfHost (m : HostMsg) : Bool :=
  decide (m.mtype < 16) && decide (m.tag < 2 ^ 24) && decide (m.jseq < 2 ^ 32) && decide (m.addr < 2 ^ 64)
    && decide (m.len ≤ 4096) && decide (m.hepoch < 2 ^ 32)

/-- R451: an event source. -/
def sourceNo (n : Nat) : Bool :=
  decide (n ≤ 93) || (decide (96 ≤ n) && decide (n ≤ 143)) || (decide (256 ≤ n) && decide (n ≤ 351)) || (decide (384 ≤ n) && decide (n ≤ 479))

/-- R442: a decoded instruction that RV64GC has: word and doubleword atomics, 12-bit offsets, CSR numbers. -/
def wfRv (op : RvInstr) : Bool :=
  match op with
  | .lr sz _ _ => decide (sz = .w) || decide (sz = .d)
  | .sc sz _ _ _ => decide (sz = .w) || decide (sz = .d)
  | .amo _ sz _ _ _ => decide (sz = .w) || decide (sz = .d)
  | .load _ _ _ _ _ e => wfExt e
  | .store _ _ _ _ e => wfExt e
  | .fload _ _ _ _ e => wfExt e
  | .fstore _ _ _ _ e => wfExt e
  | .csr _ _ n _ _ => decide (n < 4096)
  | .csri _ _ n _ _ => decide (n < 4096)
  | .alu _ _ _ _ => true
  | .alui _ _ _ _ => true
  | .lui _ _ => true
  | .auipc _ _ => true
  | .jal _ _ => true
  | .jalr _ _ _ => true
  | .branch _ _ _ _ => true
  | .fence _ => true
  | .fenceI => true
  | .wfi => true
  | .ecall => true
  | .ebreak => true
  | .mret => true
  | .fp _ _ _ _ _ _ _ => true
  | .illegal => true

/-- A well-formed command. -/
def WellFormed (i : Instr) : Bool :=
  match i with
  | .registerWrite _ addr _ _ => ctlAddr addr
  | .reg64LowRead _ addr => ctlAddr addr
  | .reg64HighRead _ addr => ctlAddr addr
  | .reg64LowWrite _ addr _ => ctlAddr addr
  | .reg64HighWrite _ addr _ => ctlAddr addr
  | .rcCounterRead _ addr _ => ctlAddr addr
  | .shShadowWrite _ addr _ => ctlAddr addr
  | .quiesceRequest _ _ => true
  | .blockQuiesced _ => true
  | .quiesceTimeout => true
  | .commitGo _ _ => true
  | .commitConfirm => true
  | .nop _ k => wfStrike k
  | .halt _ k => wfStrike k
  | .li _ k => wfStrike k
  | .lui _ k => wfStrike k
  | .addi _ k => wfStrike k
  | .add _ k => wfStrike k
  | .sub _ k => wfStrike k
  | .shli _ k => wfStrike k
  | .bz _ k => wfStrike k
  | .bnz _ k => wfStrike k
  | .jmp _ k => wfStrike k
  | .loop _ k => wfStrike k
  | .strmIssue _ k => wfStrike k
  | .strmCancelInstr _ k => wfStrike k
  | .mmLdw _ k => wfStrike k
  | .mmRun _ k => wfStrike k
  | .mmRunComplete _ => true
  | .syncWait _ k => wfStrike k
  | .syncWaitm _ k => wfStrike k
  | .syncSet _ k => wfStrike k
  | .syncClr _ k => wfStrike k
  | .syncTest _ k => wfStrike k
  | .syncSig _ k => wfStrike k
  | .syncSigDeliver _ => true
  | .syncBar _ k => wfStrike k
  | .barComplete _ _ => true
  | .syncMark _ k => wfStrike k
  | .syncDrain _ k => wfStrike k
  | .coreStallResume _ => true
  | .coreRun _ _ => true
  | .coreStop _ _ => true
  | .corePcWrite _ _ _ => true
  | .coreFaultClr _ _ => true
  | .coreSbClear _ _ _ => true
  | .coreSbSet _ _ _ => true
  | .accTmodeWrite _ _ _ => true
  | .coreInitDone _ => true
  | .strmPush _ _ _ _ => true
  | .strmPushFetch _ _ => true
  | .strmCancel _ _ _ => true
  | .strmFailClear _ _ _ => true
  | .strmDescStart _ _ tsBad => below 524288 tsBad
  | .strmPartDone _ _ _ part ext => decide (part < 64) && wfExt ext
  | .strmDescComplete _ _ _ => true
  | .accMode _ k => wfStrike k
  | .accZero _ k => wfStrike k
  | .accLd _ k => wfStrike k
  | .accSt _ k => wfStrike k
  | .accPush _ k => wfStrike k
  | .trqPush _ => true
  | .accSadd _ k => wfStrike k
  | .accSmrg _ k => wfStrike k
  | .accSfin _ k => wfStrike k
  | .vsetvl _ k => wfStrike k
  | .vld _ k => wfStrike k
  | .vst _ k => wfStrike k
  | .vstg8 _ k => wfStrike k
  | .vtrqpop _ k => wfStrike k
  | .vext _ k => wfStrike k
  | .vins _ k => wfStrike k
  | .vmov _ k => wfStrike k
  | .vfadd _ k => wfStrike k
  | .vfsub _ k => wfStrike k
  | .vfmul _ k => wfStrike k
  | .vffma _ k => wfStrike k
  | .vfmax _ k => wfStrike k
  | .vfmin _ k => wfStrike k
  | .vfabs _ k => wfStrike k
  | .vfneg _ k => wfStrike k
  | .vrcp _ k => wfStrike k
  | .vrsqrt _ k => wfStrike k
  | .vsqrt _ k => wfStrike k
  | .vexp2 _ k => wfStrike k
  | .vlog2 _ k => wfStrike k
  | .vtanh _ k => wfStrike k
  | .vsigm _ k => wfStrike k
  | .verf _ k => wfStrike k
  | .vcvtif _ k => wfStrike k
  | .vcvtfi _ k => wfStrike k
  | .vexps _ k => wfStrike k
  | .vfcmp _ k => wfStrike k
  | .vfrsum _ k => wfStrike k
  | .vfrmax _ k => wfStrike k
  | .vfrmin _ k => wfStrike k
  | .vsel _ k => wfStrike k
  | .viadd _ k => wfStrike k
  | .visub _ k => wfStrike k
  | .vimul _ k => wfStrike k
  | .vimax _ k => wfStrike k
  | .vimin _ k => wfStrike k
  | .vand _ k => wfStrike k
  | .vor _ k => wfStrike k
  | .vxor _ k => wfStrike k
  | .vshl _ k => wfStrike k
  | .vshra _ k => wfStrike k
  | .vshrl _ k => wfStrike k
  | .vicmp _ k => wfStrike k
  | .virsum _ k => wfStrike k
  | .vmset _ k => wfStrike k
  | .vmnot _ k => wfStrike k
  | .vmand _ k => wfStrike k
  | .vmor _ k => wfStrike k
  | .vmpop _ k => wfStrike k
  | .fastLineRequest _ r => wfLine r
  | .fastAccessDone _ _ symErrors _ => decide (symErrors ≤ 72)
  | .deepGranuleRequest _ r => wfGran r
  | .deepAccessDone _ _ _ _ => true
  | .deepTierTimeout _ _ _ => true
  | .refreshInterval _ channel bank => decide (channel < 64) && decide (bank < 32)
  | .bankRefresh _ channel bank => decide (channel < 64) && decide (bank < 32)
  | .stackTempSample _ _ => true
  | .scrubStep _ symErrors _ => decide (symErrors.length ≤ 64)
  | .rowlogClr _ _ => true
  | .errCaptureClear _ _ => true
  | .stackInitDone _ => true
  | .controllerReady _ => true
  | .selfRefreshExit _ => true
  | .ltaAccess r => wfLta r
  | .migrationStart => true
  | .promotionSector _ => true
  | .stalledRequestResume _ => true
  | .writebackSector _ => true
  | .frameWaitExpire page => pageNo page
  | .epochTick => true
  | .sweepVisit _ => true
  | .pagePoisonReport page _ _ => pageNo page
  | .plcJournalReplay => true
  | .plcRead _ _ _ => true
  | .plcMap _ _ _ => true
  | .plcUnmap _ _ _ => true
  | .plcSetAttr _ _ _ => true
  | .plcPromote _ _ _ => true
  | .plcDemote _ _ _ => true
  | .plcFlush _ _ _ => true
  | .plcHome _ _ _ => true
  | .plcRelocate _ _ _ => true
  | .plcRetire _ _ _ => true
  | .plcRelease _ _ _ => true
  | .plcRebuild _ _ _ => true
  | .ephLoad _ _ _ => true
  | .ephArm _ _ _ => true
  | .ephDisarm _ _ _ => true
  | .ephUnload _ _ _ => true
  | .plcCmdDone _ => true
  | .ephMarker => true
  | .ephDescPush _ entry => decide (entry < 4096)
  | .ephEntryComplete _ entry => decide (entry < 4096)
  | .nbuPageAcquire _ page _ => pageNo page
  | .nbuFence _ page => pageNo page
  | .nbuPageRelease _ page => pageNo page
  | .burstGrant _ _ => true
  | .burstEnd _ => true
  | .burstPreempt _ => true
  | .nbuRowReceive _ row => decide (row.length ≤ 8192)
  | .nbuRowApply _ => true
  | .rowUnpark _ => true
  | .transposeTile _ => true
  | .nbuRowAnswer _ => true
  | .deltaReceive _ delta => record delta
  | .deltaAckReceive _ ack => record ack
  | .commitLineWrite _ => true
  | .deltaResend _ dev _ => decide (dev < 4096)
  | .markSend _ dev _ => decide (dev < 4096)
  | .nbuRetainedRestore _ => true
  | .progLoad _ _ _ => true
  | .bindLoad _ _ _ => true
  | .bindClear _ _ _ => true
  | .job _ _ _ => true
  | .jobPart _ => true
  | .audit _ _ _ => true
  | .transpose _ _ _ => true
  | .seqReset _ _ _ => true
  | .nbuCmdDone _ => true
  | .rlySqPiWrite _ _ _ _ => true
  | .rlyOpen _ _ => true
  | .rlySend _ _ => true
  | .rlyCancel _ _ => true
  | .rlyRelease _ _ => true
  | .contribReceive _ rec => record rec
  | .answerReceive _ rec => record rec
  | .resendReceive _ rec => record rec
  | .doneReceive _ rec => record rec
  | .doneAckReceive _ rec => record rec
  | .rlyHopTimeout _ _ => true
  | .rlyRetryTimer _ _ => true
  | .bucketDeadline _ _ => true
  | .bucketHardLimit _ _ => true
  | .rowDeliver _ => true
  | .nbuAnswerReceive _ answer => record answer
  | .deliveryTimeout _ _ _ => true
  | .doneRepeat _ _ => true
  | .sendProbe _ _ => true
  | .rlyRbPiWrite _ _ _ => true
  | .rebuildEntry _ => true
  | .xpartReceive _ rec => record rec
  | .xpartReturn _ rec ext => record rec && wfExt ext
  | .xpartTimeout _ _ => true
  | .medSqPiWrite _ _ _ => true
  | .ingest _ _ => true
  | .shuf _ => true
  | .medCancel _ => true
  | .shufJobGenerate => true
  | .ingestFrame _ ext => wfExt ext
  | .ingestJobDone _ ext => wfExt ext
  | .linkEnable _ _ _ => true
  | .linkAdmit _ _ _ => true
  | .linkRetrain _ _ => true
  | .linkTrained _ _ => true
  | .linkTrainingTimeout _ => true
  | .linkAutoRetrain _ => true
  | .laneLockLost _ => true
  | .initFlitReceive _ f => wfFlit f
  | .dataFlitReceive _ f => wfFlit f
  | .fecUncorrectable _ _ => true
  | .nakReceive _ f => wfFlit f
  | .ackTimeout _ => true
  | .flitSend _ => true
  | .keepaliveSend _ => true
  | .keepaliveTimeout _ => true
  | .peerStalled _ => true
  | .helloReceive _ m => wfMsg m
  | .helloProofReceive _ m => wfMsg m
  | .messageRoute _ m => wfMsg m
  | .fabricRequestIssue m => wfMsg m
  | .rdReq m => wfMsg m
  | .wrReq m => wfMsg m
  | .rdRsp m => wfMsg m
  | .wrRsp m => wfMsg m
  | .fabricRequestTimeout tag => decide (tag < 131072)
  | .relayMsgReceive m => wfMsg m
  | .srForward _ m => wfMsg m
  | .srRead m => wfMsg m
  | .srWrite m => wfMsg m
  | .mailboxReceive m => wfMsg m
  | .fabcMgmtPush _ _ => true
  | .routeBankSwitch _ => true
  | .jrnlExport _ dev => decide (dev < 4096)
  | .jrnlRevert _ dev => decide (dev < 4096)
  | .jrnlForget _ dev => decide (dev < 4096)
  | .hRd m ext => wfHost m && wfExt ext
  | .hWr m ext => wfHost m && wfExt ext
  | .hostWriteIssue _ addr data => decide (addr < 2 ^ 44) && decide (1 ≤ data.length)
  | .hostReadIssue _ addr len => decide (addr < 2 ^ 44) && decide (1 ≤ len)
  | .dRsp m => wfHost m
  | .hostReadTimeout tag => decide (tag < 2 ^ 24)
  | .jack m => wfHost m
  | .resume m => wfHost m
  | .hostReset m => wfHost m
  | .detachTimeout => true
  | .hostAttach _ _ => true
  | .hostDetach _ => true
  | .detachComplete => true
  | .sqDoorbell _ _ _ => true
  | .cqHeadWrite _ _ _ => true
  | .sqFetch _ ext => decide (ext.data.length = 64) || decide (ext.status ≠ 0)
  | .hlkNop _ _ => true
  | .writeInline _ _ ext => wfExt ext
  | .copy _ _ part src dst => decide (part < 1048576) && wfExt src && wfExt dst
  | .readSmall _ _ ext => wfExt ext
  | .fwCall _ _ => true
  | .powerEnter _ _ => true
  | .powerQuery _ _ => true
  | .hlkCmdComplete _ _ => true
  | .cqCoalTimer _ => true
  | .vecUnmask _ _ => true
  | .fwDone _ _ => true
  | .hwinWrite _ _ _ _ => true
  | .procInstruction _ op len _ => (decide (len = 2) || decide (len = 4)) && wfRv op
  | .procRun _ _ => true
  | .procHalt _ _ => true
  | .procDinv _ _ => true
  | .procWfiWake _ => true
  | .mtimecmpMatch _ => true
  | .wdtKick _ _ _ => true
  | .wdtExpire _ => true
  | .evtSwraise _ _ => true
  | .evtRingWrite _ => true
  | .evtNestEnter _ _ => true
  | .evtNestExit _ _ => true
  | .evtTgtCiWrite _ _ _ => true
  | .evtFaultClear _ _ => true
  | .evtSrcPurge _ n => sourceNo n
  | .evtLineAccept _ _ => true
  | .domeBufferDrain => true
  | .modeOvr _ _ => true
  | .confirm _ => true
  | .bootRelease _ => true
  | .bootHostData _ _ => true
  | .flashRead _ => true
  | .flashProgram _ => true
  | .flashErase _ => true
  | .flashReadId _ id => decide (id.length ≤ 256)
  | .flashDone => true
  | .secHash _ => true
  | .secVerify _ => true
  | .secExtend _ => true
  | .secReport _ => true
  | .svnSet _ => true
  | .keyProgram _ => true
  | .keyRevoke _ => true
  | .lifecycleAdvance _ => true
  | .secCmdDone => true
  | .secPermLock _ => true
  | .helloProofSign _ => true
  | .railThreshold _ _ => true
  | .resetPinAccept _ => true
  | .clockMonitorWindow _ => true
  | .rstSwreq _ _ => true
  | .rstDbgreq _ _ => true
  | .resetSourceAssert _ _ _ => true
  | .resetSourceRelease _ => true
  | .fuseLoadDone words => decide (words.length = 512)
  | .pllLockDone => true
  | .resetRelease => true
  | .blockResetRequest _ _ => true
  | .blockResetEnter _ => true
  | .blkTimeout _ => true
  | .blockResetEnd _ _ => true
  | .blkDone _ => true
  | .entryQuiesced => true
  | .entryClockStop => true
  | .entryAbandoned => true
  | .wakePinAccept _ => true
  | .smbusAddressMatch _ => true
  | .ralineActivity => true
  | .watchWake source => sourceNo source
  | .wakeDone => true
  | .offWake => true
  | .domainAutoOff _ => true
  | .domainWake _ => true
  | .domainReady _ => true
  | .oppDone => true
  | .powerSample fast slow _ => decide (fast < 65536) && decide (slow < 65536)
  | .capAdjust => true
  | .thermalSample _ _ => true
  | .thermalShutdown => true
  | .railEnRelease => true
  | .smbusBlockRead _ => true
  | .platePublish _ => true
  | .plateClear _ => true
  | .plateClearDone => true
  | .plateAck _ _ => true
  | .powerOnHoldEnd => true
  | .pllLossOfLock => true
  | .vstbyLoss => true
  | .strapReadDone codes => decide (codes.length = 8)

end Sys2Proof
end

