-- ==== Sys2Proof/Safety.lean ====
section
/-! DEFINITION. The terms that claims about the module use: what a command does, what it leaves unchanged, when a register
access or an instruction of a tile core is served, and the invariant of every step. -/

namespace Sys2Proof.Machine

/-- Command `c` answers a next state, of which `P` holds. -/
def Does (c : Instr) (s : State) (P : State → Prop) : Prop := ∃ t, exec c s = .next t ∧ P t

/-! ### What stays as it was -/

/-- The parts of the state, by the name of their field. -/
inductive Part where
  | pending | busData | freeCtr | stamp | csr | shadow | heldLow | latchHigh
  | quiet | heldWrites | evt | rst | pwr | cores | coreHeld | triggers
  | ephResults | answers | stks | fast | deep | fastMark | deepMark | pages
  | pageCache | holders | frameMap | blocks | frameCur | blockCur | slots | migq
  | sweep | stalled | stallFail | plcCh | plans | plcFits | plcRestoring | nbus
  | rowsInFlight | rowAnswers | dcache | outbox | rlys | med | links | fabc
  | hlk | harts | boot | commit_
  deriving DecidableEq, Repr

/-- A part is the same in two states; memories and registers as they read. -/
def Part.same : Part → State → State → Prop
  | .pending, s, t => t.pending = s.pending
  | .busData, s, t => t.busData = s.busData
  | .freeCtr, s, t => t.freeCtr = s.freeCtr
  | .stamp, s, t => t.stamp = s.stamp
  | .csr, s, t => ∀ a, rd t a = rd s a
  | .shadow, s, t => ∀ a, rdShadow t a = rdShadow s a
  | .heldLow, s, t => t.heldLow = s.heldLow
  | .latchHigh, s, t => t.latchHigh = s.latchHigh
  | .quiet, s, t => t.quiet = s.quiet
  | .heldWrites, s, t => t.heldWrites = s.heldWrites
  | .evt, s, t => t.evt = s.evt
  | .rst, s, t => t.rst = s.rst
  | .pwr, s, t => t.pwr = s.pwr
  | .cores, s, t => ∀ c, coreOf t c = coreOf s c
  | .coreHeld, s, t => t.coreHeld = s.coreHeld
  | .triggers, s, t => t.triggers = s.triggers
  | .ephResults, s, t => t.ephResults = s.ephResults
  | .answers, s, t => t.answers = s.answers
  | .stks, s, t => t.stks = s.stks
  | .fast, s, t => ∀ a, memByte t.fast a = memByte s.fast a
  | .deep, s, t => ∀ a, memByte t.deep a = memByte s.deep a
  | .fastMark, s, t => t.fastMark = s.fastMark
  | .deepMark, s, t => t.deepMark = s.deepMark
  | .pages, s, t => t.pages = s.pages
  | .pageCache, s, t => t.pageCache = s.pageCache
  | .holders, s, t => t.holders = s.holders
  | .frameMap, s, t => t.frameMap = s.frameMap
  | .blocks, s, t => t.blocks = s.blocks
  | .frameCur, s, t => t.frameCur = s.frameCur
  | .blockCur, s, t => t.blockCur = s.blockCur
  | .slots, s, t => t.slots = s.slots
  | .migq, s, t => t.migq = s.migq
  | .sweep, s, t => t.sweep = s.sweep
  | .stalled, s, t => t.stalled = s.stalled
  | .stallFail, s, t => t.stallFail = s.stallFail
  | .plcCh, s, t => t.plcCh = s.plcCh
  | .plans, s, t => t.plans = s.plans
  | .plcFits, s, t => t.plcFits = s.plcFits
  | .plcRestoring, s, t => t.plcRestoring = s.plcRestoring
  | .nbus, s, t => t.nbus = s.nbus
  | .rowsInFlight, s, t => t.rowsInFlight = s.rowsInFlight
  | .rowAnswers, s, t => t.rowAnswers = s.rowAnswers
  | .dcache, s, t => t.dcache = s.dcache
  | .outbox, s, t => t.outbox = s.outbox
  | .rlys, s, t => t.rlys = s.rlys
  | .med, s, t => t.med = s.med
  | .links, s, t => t.links = s.links
  | .fabc, s, t => t.fabc = s.fabc
  | .hlk, s, t => t.hlk = s.hlk
  | .harts, s, t => ∀ p, hartOf t p = hartOf s p
  | .boot, s, t => t.boot = s.boot
  | .commit_, s, t => t.commit = s.commit

/-- Every part but the listed ones is unchanged. -/
def SameBut (ps : List Part) (s t : State) : Prop := ∀ p, p ∉ ps → p.same s t

/-- Every core but one is unchanged. -/
def OtherCores (c : Nat) (s t : State) : Prop := ∀ d, d ≠ c → coreOf t d = coreOf s d

/-- Every control register but the listed ones reads as before. -/
def OtherRegs (l : List Nat) (s t : State) : Prop := ∀ a, a ∉ l → rd t a = rd s a

/-! ### When an access or an instruction is served -/

/-- R8, R11, R34, R489, R512: a word access at `a` by `i` reaches register `r` now; no core and no commit holds it (R45,
R86). -/
def Reaches (s : State) (i : Initiator) (a : Nat) (write : Bool) (r : RegAt) : Prop :=
  awake s = true ∧ gate s i a 4 write = .served r ∧ (write = true → coreHolds s a = false ∧ commitHolds s r = false)

/-- The same, whichever register lies at `a`. -/
def Access (s : State) (i : Initiator) (a : Nat) (write : Bool) : Prop := ∃ r, regAt a = some r ∧ Reaches s i a write r

/-- R103, R105: core c issues the legal word `w` of class `cls` and operation `op`, and a word follows it. -/
def Issues (s : State) (c : Fin 96) (cls op w : Nat) : Prop :=
  coreIssues s c = true ∧ (coreOf s c).imemBad.contains (coreOf s c).pc = false ∧ fetchWord (coreOf s c) = w
    ∧ bits w 63 60 = cls ∧ bits w 59 54 = op ∧ legalWord w = true ∧ (coreOf s c).pc < 32767

/-- R85, R117: no unit of core c's memories holds an uncorrectable error. -/
def Sound (s : State) (c : Nat) : Prop :=
  (coreOf s c).tsBad = [] ∧ (coreOf s c).accBad = [] ∧ (coreOf s c).vregBad = [] ∧ (coreOf s c).maskBad = []

/-- Core c alone changes, to `k`. The two soft-error counters that every issue may grow (R85, R117) read as before as
long as they fit their 32 bits. -/
def CoreBecomes (c : Nat) (s : State) (k : Core) (t : State) : Prop :=
  coreOf t c = k ∧ OtherCores c s t ∧ SameBut [.cores, .csr] s t
    ∧ ∀ a, rd t a = rd s a ∨ ((a = Csr.CORE_TS_CE (c / 24) (c % 24) ∨ a = Csr.ACC_CE (c / 24) (c % 24)) ∧ 2 ^ 32 ≤ rd s a)

/-- R103: core c alone changes, to `k` standing at the next word. -/
def Moves (c : Nat) (s : State) (k : Core) (t : State) : Prop :=
  CoreBecomes c s { k with pc := (coreOf s c).pc + 1, wait := none } t

/-! ### What a register write does -/

/-- Registers that do more on a write than their fields' access codes say, by the rules of their units. -/
def ownRule : List Reg :=
  [.GLB_QUIESCE_REQ, .GLB_COMMIT, .GLB_PLATE_CTRL, .GLB_PLATE_ACK, .CORE_CTRL, .CORE_PC, .CORE_FAULT_CLR, .CORE_SB,
   .CORE_SB_SET, .CORE_SB_FAIL, .ACC_TMODE, .CORE_TRQ, .STRM_PUSH, .STRM_CANCEL, .STRM_FAIL, .FSC_CTRL, .DSC_CTRL,
   .FSC_ERR_STAT, .DSC_ERR_STAT, .NBU_CMD, .PLC_CMD, .RLY_SQ_BASE, .RLY_RB_BASE, .MED_SQ_BASE, .RLY_SQ_PI,
   .RLY_RB_PI, .MED_SQ_PI, .FAB_LINK_CTRL, .FABC_ROUTE, .PGRP_CFG, .PGRP_D, .PGRP_PROT_BASE, .PGRP_PAR_BASE,
   .PGRP_DEV, .FABC_SWITCH, .FABC_MGMT_PUSH, .PGRP_JRNL_CMD, .HLK_CTRL, .HLK_ATTACH, .HLK_FW_DONE, .HLK_SQ_TAIL,
   .HLK_CQ_HEAD, .HLK_SQ_BASE, .HLK_CQ_BASE, .HLK_SQ_CFG, .HLK_CQ_CFG, .HLK_ORPHAN_SIZE, .HLK_HWIN_HOST,
   .HLK_HWIN_SIZE, .HLK_VEC_CTRL, .EVT_SWRAISE, .EVT_TGT_BASE, .EVT_TGT_CFG, .EVT_TGT_CI, .EVT_TGT_NEST,
   .EVT_TGT_STAT, .EVT_SRC_CFG, .PROC_CTRL, .PROC_WDT, .PROC_WDT_KICK, .BOOT_CTRL, .BOOT_FL_CMD, .BOOT_HOST_DATA,
   .SEC_LOCK, .SEC_PERM, .SEC_CMD, .RST_SWREQ, .RST_DBGREQ, .RST_BLK_REQ, .PWR_STAT]

/-- R12, R15: no field of the register takes a reserved value from `v`. -/
def LegalFor (r : RegAt) (v : Nat) : Prop := ∀ f ∈ r.row.fields, f.legal.ok (bits v f.hi f.lo) = true

/-- R12, R42: every field of the register follows its access code in a write of `v`. -/
def FieldsTake (s : State) (r : RegAt) (v : Nat) (t : State) : Prop :=
  ∀ f ∈ r.row.fields,
    fld t r.base f.hi f.lo = (match f.acc with
      | .rw | .rws => bits v f.hi f.lo
      | .w1c => without64 (fld s r.base f.hi f.lo) (bits v f.hi f.lo)
      | .w1s => fld s r.base f.hi f.lo ||| bits v f.hi f.lo
      | .ro | .wo | .rc | .sh => fld s r.base f.hi f.lo)
    ∧ (f.acc = .sh → bits (rdShadow t r.base) f.hi f.lo = bits v f.hi f.lo
        ∧ ∀ b, (blkOf r.base).bind Blk.commitIdx = some b → bit (rd t Csr.GLB_SHADOW_DIRTY) b = true)

/-- Shadow copies of the registers but the listed ones are unchanged. -/
def OtherShadows (l : List Nat) (s t : State) : Prop := ∀ a, a ∉ l → rdShadow t a = rdShadow s a

/-- R10: the low word that goes with a high word written at register r. -/
def lowWordFor (s : State) (i : Initiator) (r : RegAt) : Nat :=
  match smGet none s.heldLow (iniKey i r.base) with
  | some x => x.toNat
  | none => regView s r % 2 ^ 32

/-! ### Vector and accumulator results -/

/-- R126: element i of vector register r. -/
def elemVal (k : Core) (r i : Nat) : Nat := (smGet 0 k.vreg (r * 256 + i)).toNat

/-- R112: accumulator word i. -/
def accVal (k : Core) (i : Nat) : Nat := (smGet 0 k.acc i).toNat

/-- R126: mask register m. -/
def maskVal (k : Core) (m : Nat) : BitVec 256 := smGet maskReset k.mask m

/-- R127, R128: element i takes part in the vector instruction `w`. -/
def TakesPart (k : Core) (w i : Nat) : Prop := i < k.vl ∧ (bit w 33 = true → (maskVal k (bits w 32 31)).getLsbD i = true)

/-- The registers that issuing an instruction on core c may change: the two soft-error counters (R85, R117). -/
def issueRegs (c : Nat) : List Nat := [Csr.CORE_TS_CE (c / 24) (c % 24), Csr.ACC_CE (c / 24) (c % 24)]

/-- Core c alone changes, to `k`, and of the registers only the listed ones and those of every issue. -/
def CoreDoes (c : Nat) (s : State) (regs : List Nat) (k : Core) (t : State) : Prop :=
  coreOf t c = k ∧ OtherCores c s t ∧ SameBut [.cores, .csr] s t ∧ OtherRegs (regs ++ issueRegs c) s t

/-- R133, R138: the elements of vector register d that satisfy P become `f`, every other element stays, the lane groups are
counted, and the core stands at the next word. -/
def VecResult (c : Nat) (s : State) (regs : List Nat) (P : Nat → Prop) (d : Nat) (f : Nat → Nat) (t : State) : Prop :=
  let k := coreOf s c
  let v := Csr.VEC_STAT (c / 24) (c % 24)
  (∀ r i, i < 256 → ((r = d ∧ P i → elemVal (coreOf t c) r i = f i % 2 ^ 32)
    ∧ (¬(r = d ∧ P i) → elemVal (coreOf t c) r i = elemVal k r i)))
  ∧ CoreDoes c s (v :: Csr.GLB_STAT_OVF :: regs) { k with vreg := (coreOf t c).vreg, pc := k.pc + 1, wait := none } t
  ∧ (rd s v + ceilDiv k.vl 64 < 2 ^ 64 → rd t v = rd s v + ceilDiv k.vl 64)

/-- R133, R142: the instruction `mk` of operation `op` makes each participating element of VD `f` of the core before. -/
def ElemRule (mk : Fin 96 → Strike → Instr) (op : Nat) (f : Core → Nat → Nat → Nat) : Prop :=
  ∀ (s : State) (c : Fin 96) (w : Nat), Issues s c 4 op w → Sound s c → (coreOf s c).vl ≤ 256 →
    Does (mk c {}) s (VecResult c s [] (TakesPart (coreOf s c) w) (bits w 53 49) (f (coreOf s c) w))

/-- Element i of VA, of VB and of VC. -/
def va (k : Core) (w i : Nat) : Nat := elemVal k (bits w 48 44) i
def vb (k : Core) (w i : Nat) : Nat := elemVal k (bits w 43 39) i
def vc (k : Core) (w i : Nat) : Nat := elemVal k (bits w 38 34) i

/-- The accumulator words that satisfy P become `f`, every other word stays; the core stands at the next word. -/
def AccResult (c : Nat) (s : State) (regs : List Nat) (P : Nat → Prop) (f : Nat → Nat) (t : State) : Prop :=
  let k := coreOf s c
  (∀ i, (P i → accVal (coreOf t c) i = f i % 2 ^ 32) ∧ (¬P i → accVal (coreOf t c) i = accVal k i))
  ∧ CoreDoes c s regs { k with acc := (coreOf t c).acc, pc := k.pc + 1, wait := none } t

/-- Bytes of core c's tile store from `a` on become `bs`, every other byte stays; the core stands at the next word. -/
def TsResult (c : Nat) (s : State) (regs : List Nat) (a : Nat) (bs : Bytes) (t : State) : Prop :=
  let k := coreOf s c
  memRead (coreOf t c).ts a bs.length = bs
  ∧ (∀ x, x < a ∨ a + bs.length ≤ x → memByte (coreOf t c).ts x = memByte k.ts x)
  ∧ CoreDoes c s regs { k with ts := (coreOf t c).ts, pc := k.pc + 1, wait := none } t

/-! ### Memory tiers and placement -/

/-- No stored line and no granule holds an error or a poison mark. -/
def Clean (s : State) : Prop := (∀ x, smGet none s.fastMark x = none) ∧ ∀ x, smGet none s.deepMark x = none

/-- R166: every byte of the frame lies where its controller admits it. -/
def FrameFits (s : State) (f : Frame) : Prop :=
  ∀ o, o < 2 ^ 18 → locFits s f (frameLoc f o) = true ∧ (frameLoc f o).a < 2 ^ 31

/-- Byte o of a frame. -/
def frameByte (s : State) (f : Frame) (o : Nat) : Byte := memByte s.fast (fastKey (frameLoc f o))

/-- No byte of the fast tier outside the frame has changed. -/
def OtherFrames (f : Frame) (s t : State) : Prop :=
  ∀ x, (∀ o, o < 2 ^ 18 → fastKey (frameLoc f o) ≠ x) → memByte t.fast x = memByte s.fast x

/-- The statistics that accesses of the tiers and of the placement table count in. -/
def tierRegs : List Nat :=
  [Csr.PLC_LOOKUPS, Csr.PLC_MISSES, Csr.PLC_BYPASS, Csr.GLB_STAT_OVF]
    ++ (List.range 20).map (fun i => stkReg i 0x48) ++ (List.range 20).map (fun i => stkReg i 0x50)

/-- R185: the page is in the fast tier: FAST_HOMED, CACHED_CLEAN or CACHED_DIRTY. -/
def InFast (s : State) (p : Nat) : Prop :=
  (pageEnt s p).state = .fastHomed ∨ (pageEnt s p).state = .cachedClean ∨ (pageEnt s p).state = .cachedDirty

/-- No migration of the page waits or runs, and no command, access or Ephemeris entry waits for one. -/
def NoMigration (s : State) (p : Nat) : Prop :=
  (∀ m ∈ s.migq, m.page ≠ p) ∧ pageSlot s p = none ∧ s.plans = [] ∧ s.stalled = []

/-- R205: channel ch is idle, the engine is ready, and PLC_CMD may be written. -/
def PlcStarts (s : State) (i : Initiator) (ch : Nat) : Prop :=
  Access s i (Csr.PLC_CMD ch) true ∧ s.plcCh = [] ∧ plcReady s = true

/-- R205: the command held in channel ch: its operation, its arguments and its parts. -/
def HoldsCmd (s : State) (ch op : Nat) (evt : Bool) (ps : List PlcPart) (t : State) : Prop :=
  smGet none t.plcCh ch = some
    { op := op, a0 := rd s (Csr.PLC_CMD_ARG ch 0), a1 := rd s (Csr.PLC_CMD_ARG ch 1), a2 := rd s (Csr.PLC_CMD_ARG ch 2),
      evt := evt, parts := ps }

/-! ### Near-bank units and engines' accesses -/

/-- A page's entry is as before but for its heat and epoch. -/
def HeatOnly (s t : State) (p : Nat) : Prop := ∃ h ep, pageEnt t p = { pageEnt s p with heat := h, epoch := ep }

/-- R185, R193: an engine's read of `n` bytes at `a`, within one page of the fast tier, is served now. -/
def ReadsNow (s : State) (a n : Nat) : Prop :=
  plcRuns s = true ∧ plcReady s = true ∧ s.stallFail = [] ∧ s.stalled = [] ∧ Clean s ∧ a < 2 ^ 44 ∧ 0 < n
    ∧ a % 2 ^ 18 + n ≤ 2 ^ 18 ∧ InFast s (a / 2 ^ 18) ∧ FrameFits s (entFrame (pageEnt s (a / 2 ^ 18)))
    ∧ frameOpen s (entFrame (pageEnt s (a / 2 ^ 18))) (a % 2 ^ 18) n = true

/-- The `n` bytes at `a`, within one page of the fast tier. -/
def ltaBytes (s : State) (a n : Nat) : Bytes :=
  (countUp 0 n).map (fun j => frameByte s (entFrame (pageEnt s (a / 2 ^ 18))) (a % 2 ^ 18 + j))

/-- R186: an engine's write of bytes at `a`, within one fast-homed page, is served now. -/
def WritesNow (s : State) (a n : Nat) : Prop := ReadsNow s a n ∧ (pageEnt s (a / 2 ^ 18)).state = .fastHomed

/-- The bytes at `a` become `bs`, within one page; every other byte of the fast tier stays. -/
def LtaBecomes (s : State) (a : Nat) (bs : Bytes) (t : State) : Prop :=
  (∀ j, j < bs.length → frameByte t (entFrame (pageEnt s (a / 2 ^ 18))) (a % 2 ^ 18 + j) = bs.getD j 0)
  ∧ ∀ x, (∀ j, j < bs.length → fastKey (frameLoc (entFrame (pageEnt s (a / 2 ^ 18))) (a % 2 ^ 18 + j)) ≠ x) →
      memByte t.fast x = memByte s.fast x

/-- Parts that a served access of the fast tier may touch, beside the bytes it writes. -/
def readParts : List Part := [.csr, .stks, .pages, .pageCache]

/-- And those that a served write may touch. -/
def writeParts : List Part := [.csr, .stks, .pages, .pageCache, .fast, .fastMark]

/-- Near-bank units but n are unchanged. -/
def OtherNbus (n : Nat) (s t : State) : Prop := ∀ m, m ≠ n → nbuOf t m = nbuOf s m

/-- R228: a near-bank unit can hold the page now. -/
def Holdable (s : State) (p : Nat) : Prop :=
  plcTakes s = true ∧ mayPin s p = true ∧ holderCount s p < 255 ∧ (pageEnt s p).state = .fastHomed

/-- R219, R228: the operands at `as` lie in one page p of unit n, which it can hold; nothing waits in its commit buffer. -/
def UnitPage (s : State) (n p : Nat) (as : List Nat) : Prop :=
  nbuWorks s n = true ∧ Holdable s p ∧ Clean s ∧ FrameFits s (entFrame (pageEnt s p)) ∧ (nbuOf s n).commit = []
    ∧ ∀ a ∈ as, a / 2 ^ 18 = p ∧ inQuarter s n a = true

/-- The 64-byte line at `a`. -/
def lineOf (s : State) (a : Nat) : Bytes := ltaBytes s a 64

/-- R226, R247: the lines that edits and a stamp's edit touch, in the order in which they are placed. -/
def placedLines (es : List Edit) (stamp : Option Edit) : List Nat :=
  match stamp with
  | some e => (editLines es).filter (fun l => l ≠ e.1 / 64 * 64) ++ [e.1 / 64 * 64]
  | none => editLines es

/-- R247: those lines, changed by the edits, are the commit buffer of unit n: one unprotected group. -/
def Placed (s : State) (n : Nat) (es : List Edit) (stamp : Option Edit) (t : State) : Prop :=
  (nbuOf t n).commit.map (fun c => (c.lta, c.data, c.grp, c.prot, c.acked, c.stamp))
    = (placedLines es stamp).map (fun l => (l, applyEdits l (es ++ stamp.toList) (lineOf s l), (nbuOf s n).nextGrp, false,
        false, stamp.isSome && decide (l = (stamp.map (fun e => e.1 / 64 * 64)).getD 0)))

/-- The holder counts but for `k` more holds of page p. -/
def HoldsMore (s : State) (p k : Nat) (t : State) : Prop :=
  ∀ q, smGet 0 t.holders q = smGet 0 s.holders q + if q = p then k else 0

/-- R255: unit n is idle and works, and NBU_CMD may be written. -/
def NbuStarts (s : State) (i : Initiator) (n : Nat) : Prop :=
  Access s i (Csr.NBU_CMD (n / 4) (n % 4)) true ∧ (nbuOf s n).cmd = none ∧ nbuWorks s n = true

/-! ### Relay engines -/

/-- R277: engine e is enabled, and both are clocked, out of reset and at work. -/
def RlyAtWork (s : State) (e : Nat) : Prop := rlyOn s e = true ∧ works s 25 = true

/-- An engine without a bucket, a SEND, a rebuild entry or a completion. -/
def RlyIdle (v : Rly) : Prop := v.sends = [] ∧ v.open_ = [] ∧ v.rbs = [] ∧ v.fins = []

/-- Relay engines but e are unchanged. -/
def OtherRlys (e : Nat) (s t : State) : Prop := ∀ d, d ≠ e → rlyOf t d = rlyOf s d

/-- R286: an entry that signals nothing, writes no completion word and asks for no event. -/
def Silent (b : Bytes) : Prop := eComp b = 0 ∧ eSbEn b = false ∧ eEvt b = false

/-- R285: `b` is the next entry, of n bytes, of a ring whose base, size, producer and consumer registers these are, and it
can be read. -/
def RingHas (s : State) (n base size pi ci : Nat) (b : Bytes) : Prop :=
  flag s size 31 = true ∧ ringCount (fld s pi 16 0) (fld s ci 16 0) ≠ 0
    ∧ ReadsNow s (fld s base 43 0 + n * (fld s ci 16 0 % 2 ^ fld s size 4 0)) n
    ∧ ltaBytes s (fld s base 43 0 + n * (fld s ci 16 0 % 2 ^ fld s size 4 0)) n = b

/-- R285: submission ring q of Relay engine e. -/
def SqHas (s : State) (e q : Nat) (b : Bytes) : Prop :=
  RlyAtWork s e ∧ RingHas s 64 (Csr.RLY_SQ_BASE e q) (Csr.RLY_SQ_SIZE e q) (Csr.RLY_SQ_PI e q) (Csr.RLY_SQ_CI e q) b

/-- The consumer index moves past one entry. -/
def Takes (s : State) (ci : Nat) (t : State) : Prop := fld t ci 16 0 = (fld s ci 16 0 + 1) % 2 ^ 17

/-- R289, R305: the bucket closes with this status in every row: its report, the capture of a failure and its event. -/
def ClosesAll (s : State) (e : Nat) (k : Bucket) (st : Nat) (regs : List Nat) (parts : List Part) (w : Rly) (t : State) : Prop :=
  let r := partReport (List.replicate (64 * oTiles k.entry) st)
  let f := Csr.RLY_FAIL e
  ∃ u, rlyOf u e = { w with
      open_ := []
      closed := smSet none w.closed (eTag k.entry) (some (eStep k.entry, r.status))
      next := w.next + 1
      fins := [] }
    ∧ OtherRlys e s u
    ∧ (flag s f 31 = false → rd u f = 2 ^ 31 + r.status * 2 ^ 16 + eTag k.entry ∧ rd u (Csr.RLY_FAIL_STEP e) = eStep k.entry)
    ∧ (flag s f 31 = true → rd u f = rd s f ∧ rd u (Csr.RLY_FAIL_STEP e) = rd s (Csr.RLY_FAIL_STEP e))
    ∧ SameBut (.rlys :: .csr :: parts) s u ∧ OtherRegs (f :: Csr.RLY_FAIL_STEP e :: regs) s u
    ∧ t = raise u (77 + e) r.status (tagStep k.entry + r.status * 2 ^ 40 + r.firstFail * 2 ^ 32) r.map

/-! ### Media and links -/

/-- R333: entry `b` is next in media ring r, and the block takes it. -/
def MedHas (s : State) (r : Nat) (b : Bytes) : Prop :=
  flag s Csr.MED_CTRL 0 = true ∧ works s 40 = true
    ∧ RingHas s 128 (Csr.MED_SQ_BASE r) (Csr.MED_SQ_SIZE r) (Csr.MED_SQ_PI r) (Csr.MED_SQ_CI r) b

/-- Decode engines but e hold what they held. -/
def OtherJobs (e : Nat) (s t : State) : Prop := ∀ d, d ≠ e → medJob t d = medJob s d

/-- Links but l are unchanged. -/
def OtherLinks (l : Nat) (s t : State) : Prop := ∀ d, d ≠ l → linkOf t d = linkOf s d

/-- R353, R356: a flit with the ACK and the credits that a link sends. -/
def sentFlit (v : Link) (f : Flit) : Flit :=
  { f with ack := (v.rxNext + 4095) % 4096, cvc := (creditField v).1 / 2, chc := (creditField v).1 % 2, credits := (creditField v).2 }

/-- A register that a Sargil link has in its port and the Raline link in HLK. -/
def linkReg (l : Nat) (fab : Nat → Nat → Nat) (host : Nat) : Nat := if l = 24 then host else fab (l / 2) (l % 2)

/-- R348, R370, R419, R427: the link goes DOWN with a cause. -/
def LinkStops (s : State) (l cause : Nat) (t : State) : Prop :=
  let v := linkOf s l
  let a := linkReg l Csr.FAB_LINK_DOWN Csr.HLK_LINK_DOWN
  let c := Csr.FAB_LINK_CTRL (l / 2) (l % 2)
  ∃ u, linkOf u l = { st := .down, hello := v.hello, proof := v.proof } ∧ OtherLinks l s u ∧ rd u a = rd s a + 1
    ∧ (l < 24 → flag u c 1 = false ∧ u.fabc = { s.fabc with proofs := s.fabc.proofs.filter (· ≠ l) } ∧ OtherRegs [a, c] s u
        ∧ SameBut [.links, .fabc, .csr] s u
        ∧ t = raise u (82 + l / 2) 0x02 (cause + l * 256) (rd s (Csr.FAB_LINK_PEER (l / 2) (l % 2))))
    ∧ (l = 24 → fld u Csr.HLK_SESSION 1 0 = (if v.st = .up ∧ fld s Csr.HLK_SESSION 1 0 = 1 then 2 else fld s Csr.HLK_SESSION 1 0)
        ∧ OtherRegs [a, Csr.HLK_SESSION] s u ∧ SameBut [.links, .csr] s u ∧ t = raise u 80 0x02 cause (rd s Csr.HLK_JSEQ_ACK))

/-- A link that can stop: powered, with nothing half-way across it, and its count has room. -/
def CanStop (s : State) (l : Nat) : Prop :=
  linkPowered s l = true ∧ (linkOf s l).part = [] ∧ (linkOf s l).txq = []
    ∧ rd s (linkReg l Csr.FAB_LINK_DOWN Csr.HLK_LINK_DOWN) + 1 < 2 ^ 32 - 1

/-- R356: the credits a flit carries leave no more than the initial ones. -/
def CreditsFit (v : Link) (f : Flit) : Prop :=
  (smGet 0 v.crInit (2 * f.cvc + f.chc) + 4096 + f.credits % 4096 - smGet 0 v.crSent (2 * f.cvc + f.chc) % 4096) % 4096
    ≤ smGet 0 v.crInit (2 * f.cvc + f.chc)

/-! ### Fabric -/

/-- R358, R368: a message waits on link l in the flits of its virtual channel and class, its hop counted. -/
def Leaves (s : State) (m : FabMsg) (l c : Nat) (t : State) : Prop :=
  let bs := msgBytes { m with hops := m.hops + 1 }
  linkOf t l = { linkOf s l with txq := (linkOf s l).txq ++ flitsOf (vcOf m.mtype) c (ceilDiv bs.length 244) true bs }

/-- R366 to R369: the active route of a message for another module, in class 0, names one link, which is UP and has credit. -/
def RoutesBy (s : State) (m : FabMsg) (l : Nat) : Prop :=
  formatBad m = false ∧ m.sr = false ∧ forSelf s m = false ∧ m.hops + 1 ≤ fld s Csr.FABC_CFG 3 0
    ∧ bit (routeEntry s m.dst) 31 = true ∧ candidates (routeEntry s m.dst) = [l] ∧ linkUp s l = true
    ∧ 0 < linkCredit (linkOf s l) (2 * vcOf m.mtype + if dateline s l then 1 else 0)

/-- A message received whole that has its buffers in link l, and those freed. -/
def Frees (s : State) (l : Nat) (m : FabMsg) (c : Nat) (v : Link) : Prop :=
  let n := ceilDiv (msgBytes m).length 244
  let w := linkOf s l
  w.arrived = [(c, msgBytes m)]
    ∧ v = { w with
        arrived := []
        rxUsed := smSet 0 w.rxUsed c (smGet 0 w.rxUsed c - n)
        rxFreed := smSet 0 w.rxFreed c ((smGet 0 w.rxFreed c + n) % 4096) }

/-! ### Host link -/

/-- Link 24's messages wait in its transmit queue after those it holds in state `m`. -/
def ToHost (s m : State) (ms : List HostMsg) (t : State) : Prop :=
  linkOf t 24 = { linkOf m 24 with txq := (linkOf m 24).txq
    ++ (ms.map (fun x => flitsOf (hostVc x.mtype) 0 (ceilDiv (hostBytes x).length 244) true (hostBytes x))).flatten }
  ∧ OtherLinks 24 s t

/-- R424, R425: `n` bytes may be written at host-window address `a` now, in one piece that goes to host address `h`. -/
def HostReady (s : State) (a n h : Nat) : Prop :=
  hlkUp s = true ∧ session s = 1 ∧ linkUp s 24 = true ∧ hostAddr s a n true = some h ∧ 0 < n ∧ h % 4096 + n ≤ 4096
    ∧ s.hlk.jrnl.length < 8192 ∧ WritesNow s (jrnlAddr s (rd s Csr.HLK_JSEQ_NEXT % 2 ^ 32)) n

/-- The journal entry that such a write takes. -/
def newEntry (s : State) (h n : Nat) (o : HostOwner) : JEnt := ⟨rd s Csr.HLK_JSEQ_NEXT % 2 ^ 32, h, n, o⟩

/-- R425: the bytes are journaled under the next JSEQ and sent. -/
def HostWrote (s : State) (h : Nat) (bs : Bytes) (t : State) : Prop :=
  let q := rd s Csr.HLK_JSEQ_NEXT % 2 ^ 32
  LtaBecomes s (jrnlAddr s q) bs t ∧ rd t Csr.HLK_JSEQ_NEXT = (q + 1) % 2 ^ 32
    ∧ ToHost s s [{ mtype := 5, jseq := q, addr := h, len := bs.length, payload := bs }] t ∧ ∀ p, HeatOnly s t p

/-- R428: the session ends by a host loss. -/
def HostGone (s m : State) (cause : Nat) (epoch : Option Nat) (t : State) : Prop :=
  let os := (s.hlk.jrnl.map (·.owner) ++ s.hlk.reads.map (·.owner)).eraseDups
  let off (n : Nat) (f : Nat → Nat) (u : State) : Prop := ∀ q, q < n → flag u (f q) 31 = false ∧ fld u (f q) 30 0 = fld s (f q) 30 0
  ∃ u, session u = 0 ∧ fld u Csr.HLK_SESSION 31 2 = fld s Csr.HLK_SESSION 31 2 ∧ off 256 Csr.HLK_SQ_CFG u
    ∧ off 256 Csr.HLK_CQ_CFG u ∧ off 64 Csr.HLK_HWIN_CTRL u ∧ (∀ v, v < 256 → fld u (Csr.HLK_VEC_CTRL v) 1 0 = 1)
    ∧ rd u Csr.HLK_ORPHAN_START = rd s Csr.HLK_ORPHAN_PI ∧ rd u Csr.HLK_HOST_LOST = rd s Csr.HLK_HOST_LOST + 1
    ∧ rd u Csr.HLK_HEPOCH = (epoch.map (· % 2 ^ 32)).getD (rd s Csr.HLK_HEPOCH)
    ∧ u.answers = os.filterMap (fun o => match o with | .unit n => some ⟨n, 0x07, []⟩ | _ => none)
    ∧ u.hlk = { s.hlk with
        jrnl := []
        reads := []
        cmds := s.hlk.cmds.map lostCmd
        coal := []
        orphanSeen := false
        lost := true
        cqWait := (s.hlk.cqWait.filter (fun x => x.1 < 512)).map (fun x => (256, x.2)) }
    ∧ linkOf u 24 = linkOf m 24 ∧ OtherLinks 24 s u ∧ SameBut [.hlk, .csr, .answers, .links] s u
    ∧ OtherRegs ([Csr.HLK_SESSION, Csr.HLK_ORPHAN_START, Csr.HLK_HOST_LOST, Csr.HLK_HEPOCH]
        ++ (List.range 256).flatMap (fun q => [Csr.HLK_SQ_CFG q, Csr.HLK_CQ_CFG q, Csr.HLK_VEC_CTRL q])
        ++ (List.range 64).map Csr.HLK_HWIN_CTRL) s u
    ∧ t = hlkDrain (raise u 80 0x03 cause (rd u Csr.HLK_ORPHAN_START))

/-- Nothing the host loss would end is held by a streamer, a processor, a peer or a command. -/
def UnitsOnly (s : State) : Prop :=
  ∀ o ∈ s.hlk.jrnl.map (·.owner) ++ s.hlk.reads.map (·.owner), o = .none ∨ ∃ n, o = .unit n

/-- R432: command c of the HLK is `c'` now; the others stay. -/
def CmdBecomes (s : State) (c c' : HCmd) : Hlk := { s.hlk with cmds := s.hlk.cmds.map (fun x => if x = c then c' else x) }

/-- The command of SQ q and identifier cid, whose parts have all ended. -/
def CmdEnded (s : State) (q : Nat) (cid : Nat) (c : HCmd) (r : Report) : Prop :=
  hlkUp s = true ∧ s.hlk.cmds.find? (fun c => c.sq = q ∧ cCid c = cid ∧ (cmdReport c).isSome) = some c ∧ cmdReport c = some r
    ∧ rd s Csr.HLK_CMDS + 1 < 2 ^ 64

/-! ### Processors and events -/

/-- Processors but p are unchanged. -/
def OtherHarts (p : Nat) (s t : State) : Prop := ∀ q, q ≠ p → hartOf t q = hartOf s q

/-- R442, R448: processor p is running, with no store under way and not under the boot ROM, and the instruction's length is
one of the two. -/
def HartRuns (s : State) (p : Fin 8) (len : Nat) : Prop :=
  procUp s p = true ∧ (hartOf s p).st = .running ∧ (len = 2 ∨ len = 4) ∧ (hartOf s p).hostIo = none
    ∧ (p.val = 0 → romRuns s = none)

/-- A trap of processor p (PRESUMED from RISC-V). -/
def Traps (s : State) (p cause tval : Nat) (irq : Bool) (t : State) : Prop :=
  let h := hartOf s p
  let k := hartOf t p
  let base := h.mtvec.toNat / 4 * 4
  k = { h with
      pc := if irq = true ∧ h.mtvec.toNat % 4 = 1 then (base + 4 * cause) % 2 ^ 64 else base
      mepc := w64 h.pc &&& ~~~1
      mcause := w64 ((if irq then 2 ^ 63 else 0) + cause)
      mtval := w64 tval
      mstatus := k.mstatus
      trapped := true }
  ∧ k.mstatus.getLsbD 3 = false ∧ k.mstatus.getLsbD 7 = h.mstatus.getLsbD 3 ∧ k.mstatus &&& ~~~0x88 = h.mstatus &&& ~~~0x88
  ∧ OtherHarts p s t

/-- R459, R460: target t becomes `v'`, the others stay; the host target remembers its interrupt's condition. -/
def TargetBecomes (s : State) (t : Nat) (v' : Target) (u : State) : Prop :=
  tgtOf u t = { v' with irqSeen := if t = 8 then tgtIrq v' else v'.irqSeen } ∧ (∀ q, q ≠ t → tgtOf u q = tgtOf s q)
    ∧ u.evt = { s.evt with tgts := u.evt.tgts } ∧ SameBut [.evt] s u

/-- R460: the host target's vector has been signalled as its condition stands. -/
def HostSettled (s : State) : Prop := (tgtOf s 8).irqSeen = tgtIrq (tgtOf s 8)

/-! ### Resets and power -/

/-- R505: a reset reaches the units that a mask of reset bits names: their registers but those with a field that outlives
it, and their cores and processors, are as after reset. -/
def ResetTo (mask : Nat) (cold : Bool) (t : State) : Prop :=
  (∀ a x, regAt a = some x → addrIn mask a = true →
    (cold = true ∨ ∀ f ∈ x.row.fields, keptField x.row.reg f = false) → rd t a = (csrReset a).toNat)
  ∧ (∀ c, c < 96 → bit mask (c / 24) = true → coreOf t c = {})
  ∧ ∀ p, p < 8 → bit mask (procBit p) = true → hartOf t p = {}

/-- No line request and no granule request is being served. -/
def TiersQuiet (s : State) : Prop :=
  ∀ i, i < 20 → (stkOf s i).lines.all (fun r => !r.2) = true ∧ (stkOf s i).grans.all (fun r => r.2.isNone) = true

/-- R505, R506: the blocks of reach r enter reset; `x` is what RST then holds. -/
def Enters (s : State) (r : Nat) (x : Rst) (t : State) : Prop :=
  t.rst = x ∧ ResetTo (reachMask r) (r == 0) t ∧ t.rlys = [] ∧ t.med = {} ∧ t.hlk = {} ∧ (∀ l, l < 25 → linkOf t l = {})
    ∧ t.stamp = (if r = 0 then 0 else s.stamp)
    ∧ (r ≠ 2 → t.evt.pool = [] ∧ t.commit = none
        ∧ t.boot = { blown := s.boot.blown, flash := s.boot.flash, seed := if r = 0 then 0 else s.boot.seed })
    ∧ (r = 0 → (∀ a, a < 12 * 2 ^ 37 → memByte t.fast a = 0) ∧ (∀ a, a < 8 * 2 ^ 40 → memByte t.deep a = 0) ∧ t.pages = []
        ∧ t.frameMap = [] ∧ t.blocks = [])
    ∧ (r ≠ 0 → TiersQuiet s → Part.same .fast s t ∧ Part.same .deep s t ∧ t.fastMark = s.fastMark ∧ t.deepMark = s.deepMark
        ∧ t.frameMap = s.frameMap ∧ t.blocks = s.blocks ∧ t.slots = s.slots)

/-- R507, R508: the exit sequence of the episode begins. -/
def ExitStarts (s : State) (x : Rst) (t : State) : Prop :=
  let c := Csr.RST_CAUSE
  let l := Csr.RST_LAST
  let n := Csr.RST_COUNT
  t.rst = { x with
      asserted := 0
      phase := if x.epReach = 0 then .strap else if x.epReach = 1 then .fuse else .release
      sets := 0
      loads := 0 }
  ∧ rd t c = rd s c ||| x.epSources ∧ rd t l = x.epReach * 2 ^ 24 + x.epHart.getD 0xF * 2 ^ 16 + x.epSources * 2 ^ 8
  ∧ rd t n = rd s n + 1 ∧ SameBut [.rst, .csr] s t ∧ OtherRegs [c, l, n] s t

/-- Source number b alone keeps the episode in reset. -/
def LastSource (s : State) (b : Nat) : Prop :=
  s.rst.asserted = 2 ^ b ∧ s.rst.episode = true ∧ s.rst.phase = .none ∧ s.rst.epReach ≤ 2 ∧ s.rst.epSources < 2 ^ 8 ∧ s.rst.epHart.getD 0xF < 16
    ∧ rd s Csr.RST_COUNT + 1 < 2 ^ 32 - 1

/-- R476: CP0 starts at the boot ROM. -/
def RomStarts (s t : State) : Prop :=
  hartOf t 0 = { hartOf s 0 with
      st := .running
      pc := fld s (Csr.PROC_BOOT 0) 47 0
      trapped := false
      resv := none
      wdtLeft := wdtCount s 0
      wdtAt := s.stamp }
  ∧ OtherHarts 0 s t ∧ t.boot = { s.boot with rom := some {} }

/-- R419: the Raline link, off until now and enabled, trains. -/
def HostLinkTrains (s t : State) : Prop := linkOf t 24 = { st := .training } ∧ OtherLinks 24 s t

/-- R501, R505: the Dome supply goes: POWER_ON asserts and begins a cold episode, with RST and AON reset but for AON_STBY. -/
def DomeLost (s t : State) : Prop :=
  (∀ a y, regAt a = some y → blkOf a = some .rst ∨ blkOf a = some .aon → a ≠ Csr.AON_STBY → rd t a = (csrReset a).toNat)
  ∧ t.evt.dome = [] ∧ t.evt.linesFresh = countUp 0 8 ∧ Enters s 0 t.rst t
  ∧ t.rst = { railsLow := s.rst.railsLow, asserted := 1, episode := true, epReach := 0, epSources := 1, dev := reachMask 0 }

/-- R523: wake cause c can act now. -/
def CanWake (s : State) (c : Nat) : Prop :=
  (c < 4 → flag s Csr.AON_WAKE_EN c = true)
  ∧ (entering s = true ∨ (1 ≤ s.pwr.state ∧ s.pwr.state ≤ 3 ∧ s.pwr.waking = none)) ∧ rd s Csr.PWR_WAKES + 1 < 2 ^ 32 - 1

/-- R523, R525, R527: the wake is recorded and raised; it waits for the end of an entry, or the exit to Run begins. -/
def Wakes (s : State) (c : Nat) (t : State) : Prop :=
  let a := Csr.AON_WAKE_CAUSE
  let n := Csr.PWR_WAKES
  ∃ u v, rd u a = rd s a ||| 2 ^ c ∧ SameBut [.csr] s u ∧ OtherRegs [a] s u ∧ v = raise u 4 0x01 (rd s a ||| 2 ^ c) 0
  ∧ (entering s = true → t = { v with pwr := { s.pwr with wakePend := true } })
  ∧ (entering s = false → rd t n = rd s n + 1 ∧ OtherRegs [n] v t ∧ SameBut [.pwr, .rst, .csr] v t
    ∧ t.pwr = { s.pwr with waking := some s.pwr.state, wakePend := false }
    ∧ t.rst = if s.pwr.state = 3 then { s.rst with phase := .fuse, wakeExit := true, sets := 0, loads := 0 } else s.rst)

/-- R174, R529: a stack goes into self-refresh when it is ready: its controller's state and its status register. -/
def SelfRefreshes (s : State) (i : Nat) (t : State) : Prop :=
  stkOf t i = (if stkReady s i then { stkOf s i with powerSr := true, openRow := [] } else stkOf s i)
  ∧ rd t (stkReg i 0x08) = if stkReady s i then setBits (setBits (rd s (stkReg i 0x08)) 2 2 1) 0 0 0 else rd s (stkReg i 0x08)

/-- R517, R520: with the clocks every link goes OFF, the host session is suspended, and the stacks go into self-refresh. -/
def ClocksStop (s t : State) : Prop :=
  (∀ l, linkOf t l = if l < 25 then { st := .off, hello := (linkOf s l).hello, proof := (linkOf s l).proof } else linkOf s l)
  ∧ t.fabc = { s.fabc with proofs := s.fabc.proofs.filter (fun l => 24 ≤ l) }
  ∧ (∀ l, l < 24 → rd t (Csr.FAB_LINK_CTRL (l / 2) (l % 2)) = setBits (rd s (Csr.FAB_LINK_CTRL (l / 2) (l % 2))) 1 1 0)
  ∧ fld t Csr.HLK_SESSION 1 0 = (if fld s Csr.HLK_SESSION 1 0 = 1 then 2 else fld s Csr.HLK_SESSION 1 0)
  ∧ fld t Csr.HLK_SESSION 63 2 = fld s Csr.HLK_SESSION 63 2 ∧ ∀ i, i < 20 → SelfRefreshes s i t

/-- Registers that stopping the clocks may change. -/
def clockRegs : List Nat :=
  Csr.HLK_SESSION :: (List.range 24).map (fun l => Csr.FAB_LINK_CTRL (l / 2) (l % 2)) ++ (List.range 20).map (fun i => stkReg i 0x08)

/-- R518: the POWER command that entry e belongs to. -/
def EntryCmd (s : State) (e : Entry) (c : HCmd) : Prop :=
  s.hlk.cmds.find? (fun c => c.sq = e.sq ∧ cCid c = e.cid ∧ cOp c = 5 ∧ c.away) = some c

/-- It ends with a status. -/
def entryEnds (s : State) (c : HCmd) (st : Nat) : Hlk :=
  CmdBecomes s c { c with
    away := false
    parts := setHPart c.parts 0 (.ended st) }

/-! ### The invariant -/

/-- R128: VL is 1 to 256; the tile store is in canonical form. -/
def CoreInv (k : Core) : Prop := (1 ≤ k.vl ∧ k.vl ≤ 256) ∧ memWf k.ts = true

/-- Every memory of the module is in its canonical form, and VL of every core lies in its range. -/
structure Inv (s : State) : Prop where
  fast : memWf s.fast = true
  deep : memWf s.deep = true
  cores : ∀ c, CoreInv (coreOf s c)
  harts : ∀ p, memWf (hartOf s p).lmem = true

end Sys2Proof.Machine
end

