-- ==== Sys2Proof/Certificates/Slice0/Obligations.lean ====
section
/-! DEFINITION. The statements about the module. Each says of the commands it names that they are answered with a next state,
what that state holds, and what they leave as it was. -/

open Sys2Proof Sys2Proof.Machine

/-! ### The machine -/

/-- A step with a command waiting is that command's effect on the state with the queue's rest. -/
def Obligations.StepRunsFrontCommand : Prop :=
  ∀ (c : Instr) (rest : List Instr) (s : State), s.pending = c :: rest → step s = exec c { s with pending := rest }

/-- With no command waiting and no journal operation in progress one clock cycle passes: the timestamp grows by one, or by
48 while SCLK is stopped, and not at all without the Dome supply (R463; the queue's idle step is the model's choice, log
entry 2). Nothing else changes but the count of throttled cycles (R538). -/
def Obligations.IdleStepPassesTime : Prop :=
  ∀ s : State, s.pending = [] → s.fabc.jop = none →
    ∃ t, step s = .next t ∧ SameBut [.stamp, .csr] s t
      ∧ t.stamp = s.stamp + (if s.rst.domeValid then (if awake s then 1 else 48) else 0)
      ∧ OtherRegs [Csr.PWR_THROTTLE_CYC, Csr.GLB_STAT_OVF] s t
      ∧ (9 ≤ s.pwr.cap → OtherRegs [] s t)
      ∧ (s.rst.domeValid = true → awake s = true → s.pwr.cap < 9 → rd s Csr.PWR_THROTTLE_CYC + 1 < 2 ^ 64 →
          rd t Csr.PWR_THROTTLE_CYC = rd s Csr.PWR_THROTTLE_CYC + 1)

/-- Every command answers a next state, in every state: none of them stops the machine.
No command changes the queue of waiting commands. -/
def Obligations.CommandsLeaveQueue : Prop :=
  (∀ (c : Instr) (s : State), ∃ t, exec c s = .next t)
  ∧ (∀ (c : Instr) (s t : State), exec c s = .next t → t.pending = s.pending)

/-- The invariant holds of the state after every step from a state it holds of: every memory stays in its canonical form,
and VL of every core stays 1 to 256 (R128). -/
def Obligations.StepKeepsInv : Prop := ∀ s t : State, Inv s → step s = .next t → Inv t

/-- R105, R348, R427, R448, R501, R516, R538, R539: the machine after a power-on: the invariant holds, POWER_ON is asserted,
no command waits, cores and processors are halted, links are OFF, no session is held, and registers hold their reset values. -/
def Obligations.ResetHasInv : Prop := let r := State.reset
  Inv r ∧ r.pending = [] ∧ r.stamp = 0 ∧ r.rst.asserted = 1 ∧ r.rst.epReach = 0 ∧ r.pwr.state = 0 ∧ session r = 0 ∧ r.pages = []
  ∧ (∀ c, (coreOf r c).st = .halted ∧ (coreOf r c).pc = 0 ∧ (coreOf r c).sb = 0 ∧ (coreOf r c).sbFail = 0)
  ∧ (∀ p, (hartOf r p).st = .halted) ∧ (∀ l, (linkOf r l).st = .off)
  ∧ rd r Csr.PWR_CFG = 0x1F ∧ rd r Csr.PWR_ENTRY_TMO = 0xF4240 ∧ fld r Csr.PWR_LIMIT 26 16 = 1800 ∧ fld r Csr.PWR_LIMIT 10 0 = 1600
  ∧ fld r Csr.PWR_THERM 15 8 = 100 ∧ fld r Csr.PWR_THERM 7 0 = 105 ∧ rd r Csr.PWR_DOM_IDLE = 100 ∧ rd r Csr.AON_WAKE_EN = 0xF
  ∧ rd r Csr.AON_SMB_ADDR = 0x5A ∧ rd r Csr.AON_WAKE_PIN % 256 = 250 ∧ rd r Csr.GLB_GEN = 0 ∧ rd r Csr.GLB_VIOL_CNT = 0

/-! ### Registers -/

/-- R9, R549: a low-word read answers the low word and latches the high word for its initiator; a high-word read answers
what is latched for it. Nothing else changes.
R13, R547: a read of a clearing counter answers its value and leaves it at 0, or at 1 when an occurrence comes in the same
cycle. -/
def Obligations.RegisterReads : Prop :=
  (∀ (s : State) (i : Initiator) (a : Nat) (r : RegAt), Reaches s i a false r →
  (r.row.wide = true → r.high = false → Does (.reg64LowRead i a) s fun t =>
    t.busData = regView s r % 2 ^ 32
      ∧ smGet 0 t.latchHigh (iniKey i r.base) = BitVec.ofNat 32 (regView s r / 2 ^ 32)
      ∧ (∀ k, k ≠ iniKey i r.base → smGet 0 t.latchHigh k = smGet 0 s.latchHigh k)
      ∧ SameBut [.busData, .latchHigh] s t)
  ∧ (r.high = true → Does (.reg64HighRead i a) s fun t =>
    t.busData = (smGet 0 s.latchHigh (iniKey i r.base)).toNat ∧ SameBut [.busData] s t))
  ∧ (∀ (s : State) (i : Initiator) (a : Nat) (r : RegAt) (same : Bool),
  Reaches s i a false r → (∃ f ∈ r.row.fields, f.acc = .rc) →
    Does (.rcCounterRead i a same) s fun t =>
      t.busData = regView s r % 2 ^ 32 ∧ rd t r.base = (if same then 1 else 0)
        ∧ SameBut [.busData, .csr] s t ∧ OtherRegs [r.base] s t)

/-- R10, R12, R15, R42: a word written to a register that no unit gives a rule of its own takes effect field by field; for a
64-bit register with its high word, together with the low word held for the initiator; a low word is only held. -/
def Obligations.WritesByField : Prop := ∀ (s : State) (i : Initiator) (a : Nat) (v : W32) (r : RegAt),
  Reaches s i a true r →
  (r.row.reg ∉ ownRule → r.row.wide = false → LegalFor r v.toNat → Does (.registerWrite i a 4 v) s fun t =>
    FieldsTake s r v.toNat t ∧ SameBut [.csr, .shadow] s t ∧ OtherRegs [r.base, Csr.GLB_SHADOW_DIRTY] s t ∧ OtherShadows [r.base] s t)
  ∧ (r.row.reg ∉ ownRule → r.row.wide = false → LegalFor r v.toNat → Does (.shShadowWrite i a v) s fun t =>
    FieldsTake s r v.toNat t ∧ SameBut [.csr, .shadow] s t ∧ OtherRegs [r.base, Csr.GLB_SHADOW_DIRTY] s t ∧ OtherShadows [r.base] s t)
  ∧ (r.row.wide = true → r.high = false → Does (.reg64LowWrite i a v) s fun t =>
    smGet none t.heldLow (iniKey i r.base) = some v
      ∧ (∀ k, k ≠ iniKey i r.base → smGet none t.heldLow k = smGet none s.heldLow k) ∧ SameBut [.heldLow] s t)
  ∧ (r.row.reg ∉ ownRule → r.row.wide = true → r.high = true → LegalFor r (v.toNat * 2 ^ 32 + lowWordFor s i r) →
    Does (.reg64HighWrite i a v) s fun t =>
      FieldsTake s r (v.toNat * 2 ^ 32 + lowWordFor s i r) t ∧ smGet none t.heldLow (iniKey i r.base) = none
        ∧ SameBut [.csr, .shadow, .heldLow] s t ∧ OtherRegs [r.base, Csr.GLB_SHADOW_DIRTY] s t ∧ OtherShadows [r.base] s t)

/-- R8, R15, R544: an access that is not one aligned word, or whose initiator may not make it, and a reserved value written
to a field, count as violations and are captured; the access itself changes nothing else. -/
def Obligations.ViolationsCounted : Prop := ∀ (s : State) (i : Initiator) (a len : Nat) (v : W32),
  awake s = true → rd s Csr.GLB_VIOL_CNT + 1 < 2 ^ 32 - 1 →
  (gate s i a len true = .viol → Does (.registerWrite i a len v) s fun t =>
    rd t Csr.GLB_VIOL_CNT = rd s Csr.GLB_VIOL_CNT + 1 ∧ SameBut [.csr] s t
      ∧ OtherRegs [Csr.GLB_VIOL_CNT, Csr.GLB_VIOL_CAP] s t
      ∧ (flag s Csr.GLB_VIOL_CAP 63 = true → rd t Csr.GLB_VIOL_CAP = rd s Csr.GLB_VIOL_CAP)
      ∧ (flag s Csr.GLB_VIOL_CAP 63 = false → flag t Csr.GLB_VIOL_CAP 63 = true ∧ flag t Csr.GLB_VIOL_CAP 62 = true
          ∧ fld t Csr.GLB_VIOL_CAP 61 59 = iniClass i ∧ fld t Csr.GLB_VIOL_CAP 55 52 = 1
          ∧ fld t Csr.GLB_VIOL_CAP 31 0 = a % 2 ^ 32))
  ∧ (len ≠ 4 ∨ a % 4 ≠ 0 → gate s i a len true = .viol)
  ∧ (gate s i a len true = .empty → Does (.registerWrite i a len v) s fun t => SameBut [] s t)

/-- R452, R453: a source that is enabled puts one record at the end of the pool, with the level and target of its
configuration and the time, and counts it. -/
def Obligations.RaisePutsRecord : Prop := ∀ (s : State) (src code d0 d1 : Nat),
  evtUp s = true → s.evt.dome = [] → sourceExists src = true →
  (flag s (Csr.EVT_SRC_CFG src) 31 = true → poolRoom s src = true → rd s Csr.EVT_RAISED + 1 < 2 ^ 64 →
    (raise s src code d0 d1).evt.pool = s.evt.pool ++ [⟨src, fld s (Csr.EVT_SRC_CFG src) 3 0,
      fld s (Csr.EVT_SRC_CFG src) 11 8, code % 256, s.stamp, d0 % 2 ^ 64, d1 % 2 ^ 64⟩]
    ∧ rd (raise s src code d0 d1) Csr.EVT_RAISED = rd s Csr.EVT_RAISED + 1
    ∧ OtherRegs [Csr.EVT_RAISED] s (raise s src code d0 d1) ∧ SameBut [.csr, .evt] s (raise s src code d0 d1))
  ∧ (flag s (Csr.EVT_SRC_CFG src) 31 = false → SameBut [] s (raise s src code d0 d1))

/-! ### Tile cores: control and synchronisation -/

/-- R103: LI, LUI, ADDI, ADD, SUB and SHLI write their result to Xd, and the core stands at the next word. Nothing else
changes; X0 reads as zero and takes no value. -/
def Obligations.ScalarArithmetic : Prop := ∀ (s : State) (c : Fin 96) (w : Nat), let k := coreOf s c
  let d := bits w 53 50; let a := xr k (bits w 49 46); let b := xr k (bits w 45 42)
  (Issues s c 0 0x02 w → Does (.li c {}) s (Moves c s (xw k d (wrapInt 64 (signed 32 (bits w 31 0))))))
  ∧ (Issues s c 0 0x03 w → Does (.lui c {}) s (Moves c s (xw k d (bits w 31 0 * 2 ^ 32 + xr k d % 2 ^ 32))))
  ∧ (Issues s c 0 0x04 w → Does (.addi c {}) s (Moves c s (xw k d (a + wrapInt 64 (signed 32 (bits w 31 0))))))
  ∧ (Issues s c 0 0x05 w → Does (.add c {}) s (Moves c s (xw k d ((a + b) % 2 ^ 64))))
  ∧ (Issues s c 0 0x06 w → Does (.sub c {}) s (Moves c s (xw k d ((a + 2 ^ 64 - b) % 2 ^ 64))))
  ∧ (Issues s c 0 0x07 w → Does (.shli c {}) s (Moves c s (xw k d (a * 2 ^ bits w 5 0 % 2 ^ 64))))
  ∧ (∀ n v, xr (xw k n v) n = if n = 0 then 0 else v % 2 ^ 64) ∧ (∀ n m v, m ≠ n → xr (xw k n v) m = xr k m)

/-- R103, R105: NOP, BZ, BNZ, JMP and LOOP go on at the next word or at word IMM; HALT stops the core with CORE_PC at the next
word and raises HALTED with it. -/
def Obligations.ScalarFlow : Prop := ∀ (s : State) (c : Fin 96) (w : Nat), let k := coreOf s c
  let a := xr k (bits w 49 46); let l := (a + (2 ^ 64 - 1)) % 2 ^ 64
  (Issues s c 0 0x00 w → Does (.nop c {}) s (Moves c s k))
  ∧ (Issues s c 0 0x01 w → Does (.halt c {}) s fun t =>
      ∃ u, CoreBecomes c s { k with st := .halted, pc := k.pc + 1 } u ∧ t = raise u (256 + c) 0x02 (k.pc + 1) 0)
  ∧ (Issues s c 0 0x08 w → Does (.bz c {}) s fun t =>
      (a = 0 → CoreBecomes c s { k with pc := bits w 14 0 } t) ∧ (a ≠ 0 → Moves c s k t))
  ∧ (Issues s c 0 0x09 w → Does (.bnz c {}) s fun t =>
      (a ≠ 0 → CoreBecomes c s { k with pc := bits w 14 0 } t) ∧ (a = 0 → Moves c s k t))
  ∧ (Issues s c 0 0x0A w → Does (.jmp c {}) s (CoreBecomes c s { k with pc := bits w 14 0 }))
  ∧ (Issues s c 0 0x0B w → Does (.loop c {}) s fun t =>
      (l ≠ 0 → CoreBecomes c s { xw k (bits w 49 46) l with pc := bits w 14 0 } t)
      ∧ (l = 0 → Moves c s (xw k (bits w 49 46) l) t))

/-- R102: what SYNC.WAIT and SYNC.WAITM do with the bits of `mask`: the core goes on once all are set and none has failed (or
FAIL_CONT is set), clearing them where the word says so; until then it waits.
R100, R103: SYNC.SET sets its bit, or counts an overset; SYNC.CLR clears the bit and its fail bit; SYNC.TEST reads both;
SYNC.SIG notes the core and bit to be set; SYNC.MARK sends the group and marker to the placement engine. -/
def Obligations.ScoreboardUse : Prop :=
  (∀ (s : State) (c : Fin 96) (w : Nat), let k := coreOf s c
  let ready (mask : Nat) : Prop := k.sb &&& mask = mask ∧ (mask &&& k.sbFail = 0 ∨ flag s (Csr.CORE_CTRL (c / 24) (c % 24)) 2 = true)
  (Issues s c 5 0x00 w → ready (2 ^ bits w 53 48) →
    Does (.syncWait c {}) s (Moves c s (if bit w 47 then sbClear k (2 ^ bits w 53 48) else k)))
  ∧ (Issues s c 5 0x00 w → bit k.sb (bits w 53 48) = false →
    Does (.syncWait c {}) s (CoreBecomes c s { k with st := .waiting, wait := some (.sb (2 ^ bits w 53 48) (bit w 47)) }))
  ∧ (Issues s c 5 0x01 w → ready (xr k (bits w 53 50)) →
    Does (.syncWaitm c {}) s (Moves c s (if bit w 47 then sbClear k (xr k (bits w 53 50)) else k)))
  ∧ (Issues s c 5 0x01 w → k.sb &&& xr k (bits w 53 50) ≠ xr k (bits w 53 50) →
    Does (.syncWaitm c {}) s
      (CoreBecomes c s { k with st := .waiting, wait := some (.sb (xr k (bits w 53 50)) (bit w 47)) }))
  ∧ (Issues s c 5 0x08 w → k.flight = [] → Does (.syncDrain c {}) s (Moves c s k))
  ∧ (Issues s c 5 0x08 w → k.flight ≠ [] →
    Does (.syncDrain c {}) s (CoreBecomes c s { k with st := .waiting, wait := some .drain })))
  ∧ (∀ (s : State) (c : Fin 96) (w : Nat), let k := coreOf s c
  let b := bits w 53 48; let o := Csr.CORE_SB_OVERSET (c / 24) (c % 24)
  (Issues s c 5 0x02 w → bit k.sb b = false → Does (.syncSet c {}) s (Moves c s { k with sb := k.sb ||| 2 ^ b }))
  ∧ (Issues s c 5 0x02 w → bit k.sb b = true → rd s o + 1 < 2 ^ 32 - 1 → Does (.syncSet c {}) s fun t =>
      rd t o = rd s o + 1 ∧ coreOf t c = { k with pc := k.pc + 1, wait := none } ∧ OtherCores c s t
        ∧ SameBut [.cores, .csr] s t
        ∧ OtherRegs [o, Csr.CORE_TS_CE (c / 24) (c % 24), Csr.ACC_CE (c / 24) (c % 24)] s t)
  ∧ (Issues s c 5 0x03 w → Does (.syncClr c {}) s (Moves c s (sbClear k (2 ^ b))))
  ∧ (∀ m n, bit (sbClear k m).sb n = (bit k.sb n && decide (n < 64) && !bit m n)
      ∧ bit (sbClear k m).sbFail n = (bit k.sbFail n && decide (n < 64) && !bit m n))
  ∧ (Issues s c 5 0x04 w → Does (.syncTest c {}) s (Moves c s
      (xw k (bits w 53 50) ((if bit k.sb (bits w 47 42) then 1 else 0) + (if bit k.sbFail (bits w 47 42) then 2 else 0)))))
  ∧ (Issues s c 5 0x05 w → bits w 51 47 ≤ 23 → Does (.syncSig c {}) s
      (Moves c s { k with sigs := k.sigs ++ [(k.issued, 24 * bits w 53 52 + bits w 51 47, bits w 46 41)] }))
  ∧ (Issues s c 5 0x07 w → Does (.syncMark c {}) s fun t =>
      t.triggers = s.triggers ++ [(fld s (Csr.CORE_CFG (c / 24) (c % 24)) 5 0, bits w 53 38)]
        ∧ coreOf t c = { k with pc := k.pc + 1, wait := none } ∧ OtherCores c s t
        ∧ SameBut [.cores, .csr, .triggers] s t
        ∧ OtherRegs [Csr.CORE_TS_CE (c / 24) (c % 24), Csr.ACC_CE (c / 24) (c % 24)] s t))

/-- R82, R103: a SIG whose earlier instructions have completed sets the named core's bit, and is dropped when that core is in
reset.
R103: a core that arrives at the barrier of its group waits there, or goes on when it is the group's only core; once every
core of the group has arrived with the same number all of them go on.
R105: a waiting or stalled core goes on once what it waits for is there: the bits of its wait, no instruction in flight,
room in the queue, or an entry to pop. -/
def Obligations.SignalsAndBarriers : Prop :=
  (∀ (s : State) (c : Fin 96) (mark tgt b : Nat) (rest : List (Nat × Nat × Nat)),
  awake s = true → (coreOf s c).sigs = (mark, tgt, b) :: rest → (∀ f ∈ (coreOf s c).flight, mark ≤ f.seq) →
  (inResetBit s (tgt / 24) = false → domainOff s (tgt / 24) = false → bit (coreOf s tgt).sb b = false →
    Does (.syncSigDeliver c) s fun t =>
      coreOf t tgt = { coreOf s tgt with
        sb := (coreOf s tgt).sb ||| 2 ^ b, sigs := if tgt = c then rest else (coreOf s tgt).sigs }
      ∧ (tgt ≠ c → coreOf t c = { coreOf s c with sigs := rest })
      ∧ (∀ d, d ≠ c.val → d ≠ tgt → coreOf t d = coreOf s d) ∧ SameBut [.cores] s t)
  ∧ (inResetBit s (tgt / 24) = true → Does (.syncSigDeliver c) s fun t =>
      coreOf t c = { coreOf s c with sigs := rest } ∧ OtherCores c s t ∧ SameBut [.cores] s t))
  ∧ (∀ (s : State) (c : Fin 96) (w : Nat) (g : Fin 64) (id : Fin 256), let k := coreOf s c
  (Issues s c 5 0x06 w → barGroup s (fld s (Csr.CORE_CFG (c / 24) (c % 24)) 5 0) = [c.val] →
    Does (.syncBar c {}) s (Moves c s k))
  ∧ (Issues s c 5 0x06 w → barGroup s (fld s (Csr.CORE_CFG (c / 24) (c % 24)) 5 0) ≠ [c.val] →
    Does (.syncBar c {}) s (CoreBecomes c s
      { k with st := .waiting, wait := some (.bar (bits w 53 46)), bar := some (bits w 53 46) }))
  ∧ (awake s = true → barGroup s g ≠ [] → (∀ d ∈ barGroup s g, (coreOf s d).bar = some id.val ∧ (coreOf s d).pc < 32767) →
    Does (.barComplete g id) s fun t =>
      (∀ d ∈ barGroup s g, coreOf t d =
        { coreOf s d with bar := none, st := .running, wait := none, stall := none, pc := (coreOf s d).pc + 1 })
      ∧ (∀ d, d ∉ barGroup s g → coreOf t d = coreOf s d) ∧ SameBut [.cores] s t))
  ∧ (∀ (s : State) (c : Fin 96), let k := coreOf s c
  let on := { k with st := .running, wait := none, stall := none, pc := k.pc + 1 }
  works s (c / 24) = true → inResetBit s (c / 24) = false → k.pc < 32767 →
  (∀ mask clr, k.st = .waiting → k.wait = some (.sb mask clr) → k.sb &&& mask = mask → mask &&& k.sbFail = 0 →
    Does (.coreStallResume c) s fun t =>
      coreOf t c = (if clr then sbClear on mask else on) ∧ OtherCores c s t ∧ SameBut [.cores] s t)
  ∧ (k.st = .waiting → k.wait = some .drain → k.flight = [] → Does (.coreStallResume c) s fun t =>
      coreOf t c = on ∧ OtherCores c s t ∧ SameBut [.cores] s t)
  ∧ (k.st = .running → ((∃ q, k.stall = some (.queue q) ∧ (strmOf k q).queue.length < 16)
        ∨ (k.stall = some .trqEmpty ∧ k.trq ≠ []) ∨ (k.stall = some .drain ∧ k.flight = [])
        ∨ ∃ mm, k.stall = some (.unit mm) ∧ unitStalled k mm = false) →
    Does (.coreStallResume c) s fun t =>
      coreOf t c = { k with stall := none } ∧ OtherCores c s t ∧ SameBut [.cores] s t))

/-- R105: a write of RUN starts a HALTED core; STOP halts a RUNNING or WAITING one and withdraws what it waits for; CORE_PC and
ACC_TMODE take a value while HALTED; CLR makes a FAULT core HALTED.
R86: when a core has zeroed its memories INIT clears, and a register write held for it takes effect. -/
def Obligations.CoreRunControl : Prop :=
  (∀ (s : State) (i : Initiator) (c : Fin 96), let k := coreOf s c
  let q := c.val / 24; let n := c.val % 24
  let only (k' : Core) (t : State) : Prop := coreOf t c = k' ∧ OtherCores c s t ∧ SameBut [.cores] s t
  (Access s i (Csr.CORE_CTRL q n) true → k.st = .halted →
    Does (.coreRun i c) s (only { k with st := .running, stall := none }))
  ∧ (Access s i (Csr.CORE_CTRL q n) true → k.st = .running ∨ k.st = .waiting →
    (k.trq.length < 16 ∨ ∀ f ∈ k.flight, (f.push && !f.run) = false) →
    Does (.coreStop i c) s (only { k with st := .halted, wait := none, stall := none, bar := none }))
  ∧ (Access s i (Csr.CORE_CTRL q n) true → k.st = .running ∨ k.st = .waiting → 16 ≤ k.trq.length →
    (∃ f ∈ k.flight, (f.push && !f.run) = true) → Does (.coreStop i c) s (only { k with
      st := .halted, wait := none, stall := none, bar := none, trqDropped := true,
      flight := k.flight.filter (fun f => !(f.push && !f.run)) }))
  ∧ (∀ v, Access s i (Csr.CORE_PC q n) true → k.st = .halted →
    Does (.corePcWrite i c v) s (only { k with pc := v.toNat % 2 ^ 15 }))
  ∧ (Access s i (Csr.CORE_FAULT_CLR q n) true → k.st = .fault →
    Does (.coreFaultClr i c) s (only { k with st := .halted }))
  ∧ (∀ hi lo, Access s i (Csr.ACC_TMODE q n + 4) true → k.st = .halted →
    smGet none s.heldLow (iniKey i (Csr.ACC_TMODE q n)) = some lo → Does (.accTmodeWrite i c hi) s fun t =>
      coreOf t c = { k with tmode := hi.toNat * 2 ^ 32 + lo.toNat } ∧ OtherCores c s t ∧ SameBut [.cores, .heldLow] s t))
  ∧ (∀ (s : State) (c : Fin 96), let k := coreOf s c
  awake s = true → inResetBit s (c / 24) = false → k.init = true →
  ((∀ h ∈ s.coreHeld, blkOf h.addr ≠ some (.core c)) → Does (.coreInitDone c) s fun t =>
    coreOf t c = { k with init := false } ∧ OtherCores c s t ∧ t.coreHeld = s.coreHeld ∧ SameBut [.cores] s t)
  ∧ (∀ i v, s.coreHeld = [⟨i, Csr.CORE_PC (c / 24) (c % 24), v⟩] → k.st = .halted → Does (.coreInitDone c) s fun t =>
    coreOf t c = { k with init := false, pc := v % 2 ^ 15 } ∧ OtherCores c s t ∧ t.coreHeld = []
      ∧ SameBut [.cores, .coreHeld] s t))

/-- R100, R574, R99, R111: the scoreboard and streamer registers of a core: bits written 1 clear or set scoreboard bits; a
pushed address takes a queue entry; GO cancels a streamer; VALID written 1 re-arms the capture. -/
def Obligations.CoreRegisters : Prop := ∀ (s : State) (i : Initiator) (c : Fin 96) (u : Fin 4) (hi lo : W32), let k := coreOf s c
  let q := c.val / 24; let n := c.val % 24
  let v := hi.toNat * 2 ^ 32 + lo.toNat
  (Access s i (Csr.CORE_SB q n + 4) true → smGet none s.heldLow (iniKey i (Csr.CORE_SB q n)) = some lo →
    Does (.coreSbClear i c hi) s fun t =>
      coreOf t c = sbClear k v ∧ OtherCores c s t ∧ SameBut [.cores, .heldLow] s t)
  ∧ (Access s i (Csr.CORE_SB_SET q n + 4) true → smGet none s.heldLow (iniKey i (Csr.CORE_SB_SET q n)) = some lo →
    k.sb &&& v = 0 → Does (.coreSbSet i c hi) s fun t =>
      coreOf t c = { k with sb := k.sb ||| v } ∧ OtherCores c s t ∧ SameBut [.cores, .heldLow] s t)
  ∧ (Access s i (Csr.STRM_PUSH q n u + 4) true → smGet none s.heldLow (iniKey i (Csr.STRM_PUSH q n u)) = some lo →
    (strmOf k u).queue.length < 16 → Does (.strmPush i c u hi) s fun t =>
      (strmOf (coreOf t c) u).queue = (strmOf k u).queue ++ [.push (v % 2 ^ 44)]
      ∧ coreOf t c = setStrm k u (strmOf (coreOf t c) u) ∧ (strmOf (coreOf t c) u).prog = (strmOf k u).prog
      ∧ OtherCores c s t ∧ SameBut [.cores, .heldLow] s t)
  ∧ (Access s i (Csr.STRM_CANCEL q n u) true → Does (.strmCancel i c u) s fun t =>
      (strmOf (coreOf t c) u).queue = [] ∧ (strmOf (coreOf t c) u).prog = stopProgs (strmOf k u).prog
      ∧ (∀ b e, QEnt.desc b e ∈ (strmOf k u).queue → bit (fieldAt b 0 4) 21 = true →
          bit (coreOf t c).sb (bits (fieldAt b 0 4) 20 15) = true
          ∧ bit (coreOf t c).sbFail (bits (fieldAt b 0 4) 20 15) = true)
      ∧ OtherCores c s t ∧ SameBut [.cores, .csr, .evt, .ephResults] s t)
  ∧ (Access s i (Csr.STRM_FAIL q n u) true → Does (.strmFailClear i c u) s fun t =>
      flag t (Csr.STRM_FAIL q n u) 0 = false ∧ fld t (Csr.STRM_FAIL q n u) 15 8 = 0
      ∧ fld t (Csr.STRM_FAIL q n u) 31 16 = fld s (Csr.STRM_FAIL q n u) 31 16
      ∧ OtherRegs [Csr.STRM_FAIL q n u] s t ∧ SameBut [.csr] s t)

/-! ### Tile cores: the array and the accumulator -/

/-- R79 to R81, R104: MM.LDW fills the shadow weights with the elements of its one or two tiles, transposed where the word says
so, and with the scale vector where one goes with the operand.
R81, R104, R123, R125: the oldest run that is not written completes, and pushes its tile when it was asked to; a push enters
the tile-ready queue while that holds fewer than 16 and nothing earlier must enter first. -/
def Obligations.MatrixRuns : Prop :=
  (∀ (s : State) (c : Fin 96) (w : Nat), let k := coreOf s c
  let opb := bits w 49 42; let n := tileBytes (opb / 16); let a := xr k (bits w 53 50)
  let tile (x : Nat) : List Nat :=
    let es := elemsOf (memRead k.ts x n) (fmtBits (opb / 16))
    if bit w 41 then transposeTile' es else es
  Issues s c 2 0x00 w → Sound s c → unitStalled k true = false → operandFits a (operandBytes opb (bit w 40)) = true →
  Does (.mmLdw c {}) s (Moves c s { k with shadow := some ⟨opb, bit w 40, tile a ++ (if bit w 40 then tile (a + n) else []),
    if bit opb 2 then (memRead k.ts (a + (if bit w 40 then 2 * n else n)) 64).map (·.toNat) else []⟩ }))
  ∧ (∀ (s : State) (c : Fin 96) (before after : List Flight) (f : Flight),
  let k := coreOf s c
  awake s = true → inResetBit s (c / 24) = false → k.flight = before ++ f :: after →
  ((∀ g ∈ before, g.run = false) → f.run = true → Does (.mmRunComplete c) s fun t =>
    coreOf t c = { k with flight := before ++ (if f.push then [{ f with run := false }] else []) ++ after }
      ∧ OtherCores c s t ∧ SameBut [.cores] s t)
  ∧ ((∀ g ∈ before, g.push = false ∧ g.tile ≠ f.tile) → f.push = true → f.run = false → k.trq.length < 16 →
    Does (.trqPush c) s fun t =>
      coreOf t c = { k with trq := k.trq ++ [f.tile], flight := before ++ after } ∧ OtherCores c s t ∧ SameBut [.cores] s t))

/-- R76 to R78, R81, R104: MM.RUN adds the products of its A rows and the weights to the accumulator rows it names, in the order
and with the roundings of the pair's class; the weights become the active ones and the run is in flight. No other word of the
accumulator changes. -/
def Obligations.ArrayRun : Prop := ∀ (s : State) (c : Fin 96) (w : Nat) (wt : Weights) (cls : PairClass), let k := coreOf s c
  let opa := bits w 49 42; let rows := if bits w 30 25 = 0 then 64 else bits w 30 25; let row0 := bits w 41 31
  let ar := (loadARows k (xr k (bits w 53 50)) opa rows wt.depth).1
  let m := Csr.CORE_STAT_MM (c / 24) (c % 24); let n := rows * passCount opa wt.opb (bits w 24 23) cls
  let old (x : Nat) : Nat := if bit w 22 then 0 else accVal k x
  Issues s c 2 0x01 w → Sound s c → unitStalled k true = false → (k.shadow <|> k.active) = some wt →
  pairClass (bits w 49 46) (wt.opb / 16) wt.depth = some cls →
  mmRunCheck k w = none →
  Does (.mmRun c {}) s fun t =>
    (∀ i j, i < rows → j < 64 → accVal (coreOf t c) ((row0 + i) * 64 + j) =
      (match cls with
        | .int => wrapInt 32 (intSum (decide (tileMode k (row0 / 64) = 2)) (signed 32 (old ((row0 + i) * 64 + j)))
            (sumOrder wt.depth) (fun x => intElem (opa / 16) (aElem ar i x))
            (fun x => intElem (wt.opb / 16) (wt.cells.toArray.getD (64 * x + j) 0))).1
        | _ => floatElem (old ((row0 + i) * 64 + j)) opa wt.opb (bits w 24 23) (sumOrder wt.depth) ar wt wt.cells.toArray i j)
      % 2 ^ 32)
    ∧ (∀ x, x < row0 * 64 ∨ (row0 + rows) * 64 ≤ x → accVal (coreOf t c) x = accVal k x)
    ∧ CoreDoes c s [m, Csr.GLB_STAT_OVF, Csr.ACC_VEC_FLAGS (c / 24) (c % 24)]
        { k with acc := (coreOf t c).acc, active := some wt, shadow := none,
                 flight := k.flight ++ [⟨k.issued, bits w 41 37, true, bit w 21, true⟩], issued := k.issued + 1,
                 pc := k.pc + 1, wait := none } t
    ∧ (rd s m + n < 2 ^ 64 → rd t m = rd s m + n)

/-- R114, R139: ACC.MODE sets a tile's mode and zeroes it, ACC.ZERO zeroes it; ACC.PUSH leaves a push of the tile in flight.
R130, R139 to R141: ACC.LD loads a tile of elements, or adds it under the tile's mode; ACC.ST stores a tile converted, with
its scales where the word says so.
R119 to R122: ACC.SADD folds the rows of its source into a set of statistics column by column, ACC.SMRG merges one set into
another, and ACC.SFIN writes the mean and the variance of each column to two vector registers. -/
def Obligations.AccumulatorInstructions : Prop :=
  (∀ (s : State) (c : Fin 96) (w : Nat), let k := coreOf s c
  let u := bits w 53 49
  unitStalled k false = false → Sound s c →
  (Issues s c 3 0x00 w → Does (.accMode c {}) s fun t =>
    (∀ i, accVal (coreOf t c) i = if i / 4096 = u then 0 else accVal k i)
    ∧ tileMode (coreOf t c) u = bits w 48 47 ∧ (∀ v, v < 32 → v ≠ u → tileMode (coreOf t c) v = tileMode k v)
    ∧ CoreDoes c s [] { k with acc := (coreOf t c).acc, tmode := (coreOf t c).tmode, pc := k.pc + 1, wait := none } t)
  ∧ (Issues s c 3 0x01 w → Does (.accZero c {}) s fun t => AccResult c s [] (fun i => i / 4096 = u) (fun _ => 0) t)
  ∧ (Issues s c 3 0x04 w → Does (.accPush c {}) s
    (Moves c s { k with flight := k.flight ++ [⟨k.issued, u, false, true, false⟩], issued := k.issued + 1 })))
  ∧ (∀ (s : State) (c : Fin 96) (w : Nat), let k := coreOf s c
  let fmt := bits w 49 46; let a := bits (xr k (bits w 53 50)) 21 0
  let flags := Csr.ACC_VEC_FLAGS (c / 24) (c % 24)
  unitStalled k false = false → Sound s c →
  (let u := bits w 45 41
    let m := tileMode k u
    let es := (elemsOf (memRead k.ts a (tileBytes fmt)) (fmtBits fmt)).toArray
    Issues s c 3 0x02 w → m ≠ 3 → (fmtFloat fmt = true → m = 0) → (fmtInt fmt = true → m ≠ 0) →
    operandFits a (tileBytes fmt) = true → Does (.accLd c {}) s (AccResult c s [flags] (fun i => i / 4096 = u) fun i =>
      (accLoadElem m fmt (bit w 40) (if bit w 40 then accVal k i else 0) (es.getD (i % 4096) 0)).1))
  ∧ (let u := bits w 41 37
    let b := bits (xr k (bits w 34 31)) 21 0
    let xs := (List.range 4096).map (fun i => accStValue (tileMode k u) (bits w 36 35) (accVal k (4096 * u + i))
      (scaleExp (if bit (bits w 36 35) 0 then (memByte k.ts (b + i / 64)).toNat else 0))
      (scaleExp (if bit (bits w 36 35) 1 then (memByte k.ts (b + 64 + i % 64)).toNat else 0)))
    Issues s c 3 0x03 w → accStCheck k w = none →
    (fmt ≠ 10 → Does (.accSt c {}) s (TsResult c s [flags] a
      (packElems (fmtBits fmt) (xs.map (fun x => (convElem (bits w 49 42) x).1)))))
    ∧ (fmt = 10 → (a + 4096 ≤ b ∨ b + 64 ≤ a) → Does (.accSt c {}) s fun t =>
      let rows := (List.range 64).map (fun r => convG8 (convRnd (bits w 49 42)) ((xs.drop (64 * r)).take 64))
      memRead (coreOf t c).ts a 4096 = rows.flatMap (fun r => r.2.1.map (fun m => BitVec.ofInt 8 m))
      ∧ memRead (coreOf t c).ts b 64 = rows.map (fun r => BitVec.ofNat 8 r.1)
      ∧ (∀ x, (x < a ∨ a + 4096 ≤ x) → (x < b ∨ b + 64 ≤ x) → memByte (coreOf t c).ts x = memByte k.ts x)
      ∧ CoreDoes c s [flags] { k with ts := (coreOf t c).ts, pc := k.pc + 1, wait := none } t)))
  ∧ (∀ (s : State) (c : Fin 96) (w : Nat), let k := coreOf s c
  let u := bits w 53 49; let set := bits w 48 45
  let flags := Csr.ACC_VEC_FLAGS (c / 24) (c % 24)
  let col (v st j : Nat) : StatCol := ⟨accVal k (statIdx v st 0 j), accVal k (statIdx v st 1 j), accVal k (statIdx v st 2 j),
    accVal k (statIdx v st 3 j), accVal k (statIdx v st 4 j), accVal k (statIdx v st 5 j)⟩
  let becomes (new : Nat → StatCol) (t : State) : Prop :=
    (∀ j, j < 64 → ∀ x ∈ statWords u set j (new j), accVal (coreOf t c) x.1 = x.2 % 2 ^ 32)
    ∧ (∀ i, i / 64 < 64 * u + 6 * set ∨ 64 * u + 6 * set + 6 ≤ i / 64 → accVal (coreOf t c) i = accVal k i)
    ∧ CoreDoes c s [flags] { k with acc := (coreOf t c).acc, pc := k.pc + 1, wait := none } t
  unitStalled k false = false → Sound s c → tileMode k u = 3 →
  (Issues s c 3 0x05 w → bit w 44 = false → tileMode k (bits w 43 39) = 0 → Does (.accSadd c {}) s (becomes fun j =>
    (statFoldAll (col u set j) ((List.range (bits w 30 24)).map (fun r => accVal k ((64 * bits w 43 39 + r) * 64 + j)))).1))
  ∧ (let fmt := bits w 34 31
    let a := bits (xr k (bits w 38 35)) 21 0
    let es := (elemsOf (memRead k.ts a (bits w 30 24 * (tileBytes fmt / 64))) (fmtBits fmt)).toArray
    Issues s c 3 0x05 w → bit w 44 = true → fmtInt fmt = false → operandFits a (tileBytes fmt) = true →
    Does (.accSadd c {}) s (becomes fun j =>
      (statFoldAll (col u set j) ((List.range (bits w 30 24)).map (fun r => loadElem fmt (es.getD (64 * r + j) 0)))).1))
  ∧ (Issues s c 3 0x06 w → tileMode k (bits w 44 40) = 3 → Does (.accSmrg c {}) s
    (becomes fun j => (statMerge (col u set j) (col (bits w 44 40) (bits w 39 36) j)).1))
  ∧ (Issues s c 3 0x07 w → Does (.accSfin c {}) s fun t =>
    (∀ j, j < 64 → (bits w 44 40 ≠ bits w 39 35 →
        elemVal (coreOf t c) (bits w 44 40) j = (statFinish (col u set j) (bit w 34)).1 % 2 ^ 32)
      ∧ elemVal (coreOf t c) (bits w 39 35) j = (statFinish (col u set j) (bit w 34)).2 % 2 ^ 32)
    ∧ (∀ r i, i < 256 → (r = bits w 44 40 ∨ r = bits w 39 35 → 64 ≤ i) → elemVal (coreOf t c) r i = elemVal k r i)
    ∧ CoreDoes c s [] { k with vreg := (coreOf t c).vreg, pc := k.pc + 1, wait := none } t))

/-! ### Tile cores: vectors -/

/-- R133, R142: the floating-point element operations with one rounding each, VMOV, and the conversion from integers.
R135: the function operations make each participating element the value of one fixed function of its bits; the square root
is the correctly rounded one. The values of the other seven are free within their stated accuracy. -/
def Obligations.VectorFloat : Prop :=
  (ElemRule .vmov 0x07 va
  ∧ ElemRule .vfadd 0x08 (fun k w i => fadd (va k w i) (vb k w i)) ∧ ElemRule .vfsub 0x09 (fun k w i => fsub (va k w i) (vb k w i))
  ∧ ElemRule .vfmul 0x0A (fun k w i => fmul (va k w i) (vb k w i))
  ∧ ElemRule .vffma 0x0B (fun k w i => ffma (va k w i) (vb k w i) (vc k w i))
  ∧ ElemRule .vfmax 0x0C (fun k w i => fmax (va k w i) (vb k w i)) ∧ ElemRule .vfmin 0x0D (fun k w i => fmin (va k w i) (vb k w i))
  ∧ ElemRule .vfabs 0x0E (fun k w i => if isNan32 (va k w i) then nan32 else va k w i % 2 ^ 31)
  ∧ ElemRule .vfneg 0x0F (fun k w i => if isNan32 (va k w i) then nan32 else va k w i ^^^ 2 ^ 31)
  ∧ ElemRule .vcvtif 0x18 (fun k w i => enc32 (numOfInt (signed 32 (va k w i))))
  ∧ ElemRule .vexps 0x1A (fun k w i => expScale (signed 8 (bits w 7 0)) (va k w i)))
  ∧ (ElemRule .vrcp 0x10 (fun k w i => fnRcp (va k w i)) ∧ ElemRule .vrsqrt 0x11 (fun k w i => fnRsqrt (va k w i))
  ∧ ElemRule .vsqrt 0x12 (fun k w i => fsqrt (va k w i)) ∧ ElemRule .vexp2 0x13 (fun k w i => fnExp2 (va k w i))
  ∧ ElemRule .vlog2 0x14 (fun k w i => fnLog2 (va k w i)) ∧ ElemRule .vtanh 0x15 (fun k w i => fnTanh (va k w i))
  ∧ ElemRule .vsigm 0x16 (fun k w i => fnSigm (va k w i)) ∧ ElemRule .verf 0x17 (fun k w i => fnErf (va k w i)))

/-- R133, R142: the integer element operations wrap at 32 bits; shifts take their distance from the low five bits; VSHRA keeps
the sign; VIMAX and VIMIN compare as signed numbers. -/
def Obligations.VectorInteger : Prop :=
  ElemRule .viadd 0x20 (fun k w i => va k w i + vb k w i) ∧ ElemRule .visub 0x21 (fun k w i => va k w i + 2 ^ 32 - vb k w i)
  ∧ ElemRule .vimul 0x22 (fun k w i => va k w i * vb k w i)
  ∧ ElemRule .vimax 0x23 (fun k w i => wrapInt 32 (max (signed 32 (va k w i)) (signed 32 (vb k w i))))
  ∧ ElemRule .vimin 0x24 (fun k w i => wrapInt 32 (min (signed 32 (va k w i)) (signed 32 (vb k w i))))
  ∧ ElemRule .vand 0x25 (fun k w i => va k w i &&& vb k w i) ∧ ElemRule .vor 0x26 (fun k w i => va k w i ||| vb k w i)
  ∧ ElemRule .vxor 0x27 (fun k w i => va k w i ^^^ vb k w i)
  ∧ ElemRule .vshl 0x28 (fun k w i => va k w i * 2 ^ (vb k w i % 32))
  ∧ ElemRule .vshra 0x29 (fun k w i => wrapInt 32 (signed 32 (va k w i) / 2 ^ (vb k w i % 32)))
  ∧ ElemRule .vshrl 0x2A (fun k w i => va k w i / 2 ^ (vb k w i % 32))

/-- R133, R134, R137: VCVTFI converts with saturation and notes its flags; VSEL chooses between two registers by a mask; the
reductions write element 0.
R137, R142: comparisons write every bit of their mask, those of elements that take no part as zero; the mask operations act
on whole masks; VMPOP counts the bits below VL. -/
def Obligations.VectorSelect : Prop :=
  (∀ (s : State) (c : Fin 96) (w : Nat), let k := coreOf s c
  let flags := Csr.ACC_VEC_FLAGS (c / 24) (c % 24)
  let vals := ((List.range k.vl).filter (fun i => !bit w 33 || (maskVal k (bits w 32 31)).getLsbD i)).map (fun i => (i, va k w i))
  let zero : Nat → Prop := fun i => i = 0
  Sound s c → k.vl ≤ 256 →
  (Issues s c 4 0x19 w → Does (.vcvtfi c {}) s (VecResult c s [flags] (TakesPart k w) (bits w 53 49)
    fun i => (cvtfi (if bit w 30 then .rtz else .rne) (va k w i)).1))
  ∧ (Issues s c 4 0x1F w → Does (.vsel c {}) s (VecResult c s [] (fun i => i < k.vl) (bits w 53 49)
    fun i => if (maskVal k (bits w 32 31)).getLsbD i then va k w i else vb k w i))
  ∧ (Issues s c 4 0x1C w → Does (.vfrsum c {}) s
    (VecResult c s [] zero (bits w 53 49) fun _ => reduceElems fadd 0x8000_0000 vals))
  ∧ (Issues s c 4 0x1D w → Does (.vfrmax c {}) s (VecResult c s [] zero (bits w 53 49) fun _ => reduceElems fmax nan32 vals))
  ∧ (Issues s c 4 0x1E w → Does (.vfrmin c {}) s (VecResult c s [] zero (bits w 53 49) fun _ => reduceElems fmin nan32 vals))
  ∧ (Issues s c 4 0x2C w → Does (.virsum c {}) s
    (VecResult c s [] zero (bits w 53 49) fun _ => (vals.map (·.2)).sum)))
  ∧ (∀ (s : State) (c : Fin 96) (w : Nat), let k := coreOf s c
  let d := bits w 50 49; let a := maskVal k (bits w 45 44); let b := maskVal k (bits w 40 39)
  let put (v : BitVec 256) : Core := { k with mask := smSet maskReset k.mask d v }
  let v := Csr.VEC_STAT (c / 24) (c % 24)
  let compares (f : Nat → Nat → Nat → Bool) (t : State) : Prop :=
    (∀ i, i < 256 → ((maskVal (coreOf t c) d).getLsbD i = true ↔ TakesPart k w i ∧ f (bits w 30 28) (va k w i) (vb k w i) = true))
    ∧ (∀ m, m ≠ d → maskVal (coreOf t c) m = maskVal k m)
    ∧ CoreDoes c s [v, Csr.GLB_STAT_OVF] { k with mask := (coreOf t c).mask, pc := k.pc + 1, wait := none } t
  Sound s c → k.vl ≤ 256 →
  (Issues s c 4 0x1B w → Does (.vfcmp c {}) s (compares fcond)) ∧ (Issues s c 4 0x2B w → Does (.vicmp c {}) s (compares icond))
  ∧ (Issues s c 4 0x2D w → Does (.vmset c {}) s (Moves c s (put (~~~ 0))))
  ∧ (Issues s c 4 0x2E w → Does (.vmnot c {}) s (Moves c s (put (~~~ a))))
  ∧ (Issues s c 4 0x2F w → Does (.vmand c {}) s (Moves c s (put (a &&& b))))
  ∧ (Issues s c 4 0x30 w → Does (.vmor c {}) s (Moves c s (put (a ||| b))))
  ∧ (Issues s c 4 0x31 w → Does (.vmpop c {}) s (Moves c s (xw k (bits w 53 50)
      ((List.range k.vl).filter (fun i => (maskVal k (bits w 45 44)).getLsbD i)).length))))

/-- R124, R128, R142: VSETVL sets VL to at most 256; VTRQPOP takes the oldest tile of the queue; VEXT and VINS move one element
between a vector and a scalar register. -/
def Obligations.VectorScalar : Prop := ∀ (s : State) (c : Fin 96) (w : Nat), let k := coreOf s c
  let n := (xr k (bits w 49 46) + bits w 8 0) % 2 ^ 64
  (Issues s c 4 0x00 w → n ≠ 0 → Does (.vsetvl c {}) s (Moves c s { xw k (bits w 53 50) (min n 256) with vl := min n 256 }))
  ∧ (∀ u rest, Issues s c 4 0x04 w → k.trq = u :: rest →
    Does (.vtrqpop c {}) s (Moves c s { xw k (bits w 53 50) u with trq := rest }))
  ∧ (Issues s c 4 0x04 w → k.trq = [] → Does (.vtrqpop c {}) s (CoreBecomes c s { k with stall := some .trqEmpty }))
  ∧ (Issues s c 4 0x05 w → Sound s c → Does (.vext c {}) s
    (Moves c s (xw k (bits w 53 50) (wrapInt 64 (signed 32 (elemVal k (bits w 48 44) (bits w 8 0)))))))
  ∧ (Issues s c 4 0x06 w → Sound s c → Does (.vins c {}) s (Moves c s
    { k with vreg := smSet 0 k.vreg (bits w 53 49 * 256 + bits w 8 0) (BitVec.ofNat 32 (xr k (bits w 48 45))) }))

/-- R129 to R132: VLD fills the participating elements from their addresses; VST writes each participating element converted at
its address and no other byte; VSTG8 writes the mantissas, the exponents and the remainders of its groups. -/
def Obligations.VectorMemory : Prop := ∀ (s : State) (c : Fin 96) (w : Nat), let k := coreOf s c
  let flags := Csr.ACC_VEC_FLAGS (c / 24) (c % 24); let v := Csr.VEC_STAT (c / 24) (c % 24)
  Sound s c → k.vl ≤ 256 →
  (let fmt := bits w 40 37;
    Issues s c 4 0x01 w → (∀ i, TakesPart k w i → elemInside w fmt (elemAddr k w fmt i) = true) →
    Does (.vld c {}) s (VecResult c s [] (TakesPart k w) (bits w 53 49)
      fun i => (vldElem k w fmt (elemAddr k w fmt i).toNat).1))
  ∧ (let fmt := bits w 30 27
    let n := fmtBits fmt / 8
    let a (i : Nat) : Nat := (elemAddr k w fmt i).toNat
    let val (i : Nat) : Nat := (convElem (bits w 30 23)
      (if bit w 35 then numOfInt (signed 32 (elemVal k (bits w 53 49) i)) else dec32 (elemVal k (bits w 53 49) i))).1
    Issues s c 4 0x02 w → bit w 36 = false → (∀ i, TakesPart k w i → elemInside w fmt (elemAddr k w fmt i) = true) →
    (fmtBits fmt ≠ 4 → Does (.vst c {}) s fun t =>
      (∀ i, TakesPart k w i → (∀ j, i < j → TakesPart k w j → a i + n ≤ a j ∨ a j + n ≤ a i) →
        memRead (coreOf t c).ts (a i) n = toLE (val i) n)
      ∧ (∀ x, (∀ i, TakesPart k w i → x < a i ∨ a i + n ≤ x) → memByte (coreOf t c).ts x = memByte k.ts x)
      ∧ CoreDoes c s [v, Csr.GLB_STAT_OVF, flags] { k with ts := (coreOf t c).ts, pc := k.pc + 1, wait := none } t)
    ∧ (fmtBits fmt = 4 → Does (.vst c {}) s fun t =>
      (∀ i, TakesPart k w i → (∀ j, i < j → TakesPart k w j → a i ≠ a j) →
        (memByte (coreOf t c).ts (a i / 2)).toNat / 16 ^ (a i % 2) % 16 = val i % 16)
      ∧ (∀ x, (∀ i, TakesPart k w i → a i ≠ x) →
        (memByte (coreOf t c).ts (x / 2)).toNat / 16 ^ (x % 2) % 16 = (memByte k.ts (x / 2)).toNat / 16 ^ (x % 2) % 16)
      ∧ CoreDoes c s [v, Csr.GLB_STAT_OVF, flags] { k with ts := (coreOf t c).ts, pc := k.pc + 1, wait := none } t))
  ∧ (let a (i : Nat) : Nat := (elemAddr k w 0 i).toNat;
    Issues s c 4 0x02 w → bit w 36 = true → (∀ i, TakesPart k w i → elemInside w 0 (elemAddr k w 0 i) = true) →
    Does (.vst c {}) s fun t =>
      (∀ i, TakesPart k w i → (∀ j, i < j → TakesPart k w j → a i ≠ a j) →
        accVal (coreOf t c) (a i) = elemVal k (bits w 53 49) i)
      ∧ (∀ x, (∀ i, TakesPart k w i → a i ≠ x) → accVal (coreOf t c) x = accVal k x)
      ∧ CoreDoes c s [v, Csr.GLB_STAT_OVF] { k with acc := (coreOf t c).acc, pc := k.pc + 1, wait := none } t)
  ∧ (let xa := bits (xr k (bits w 48 45)) 21 0
    let xb := bits (xr k (bits w 44 41)) 21 0
    let gs := (List.range (k.vl / 64)).map (fun g => g8Group (if bit w 30 then .rtz else .rne)
      ((List.range 64).map (fun i => elemVal k (bits w 53 49) (64 * g + i))))
    Issues s c 4 0x03 w → k.vl % 64 = 0 → 1 ≤ k.vl → xa + k.vl ≤ 2 ^ 22 → xb + k.vl / 64 ≤ 2 ^ 22 →
    (xa + k.vl ≤ xb ∨ xb + k.vl / 64 ≤ xa) → Does (.vstg8 c {}) s fun t =>
      memRead (coreOf t c).ts xa k.vl = gs.flatMap (fun g => g.2.1.map (fun m => BitVec.ofInt 8 m))
      ∧ memRead (coreOf t c).ts xb (k.vl / 64) = gs.map (fun g => BitVec.ofNat 8 g.1)
      ∧ (∀ x, (x < xa ∨ xa + k.vl ≤ x) → (x < xb ∨ xb + k.vl / 64 ≤ x) → memByte (coreOf t c).ts x = memByte k.ts x)
      ∧ (∀ i, i < k.vl → elemVal (coreOf t c) (bits w 40 36) i = (gs.flatMap (fun g => g.2.2.1)).getD i 0 % 2 ^ 32)
      ∧ (∀ r i, i < 256 → (r = bits w 40 36 → k.vl ≤ i) → elemVal (coreOf t c) r i = elemVal k r i)
      ∧ CoreDoes c s [v, Csr.GLB_STAT_OVF, flags]
          { k with ts := (coreOf t c).ts, vreg := (coreOf t c).vreg, pc := k.pc + 1, wait := none } t)

/-! ### Streamers -/

/-- R88, R103: STRM.ISSUE queues the descriptor of the tile store with the two offsets added to its addresses; a full queue
stalls it. STRM.CANCEL empties the queue, completing what it held with CANCELLED, and stops what is in progress.
R96 to R98: a descriptor whose parts have ended leaves its place; its scoreboard bit sets; when a part failed the fail bit
sets with the status, and the completion is captured. -/
def Obligations.StreamWork : Prop :=
  (∀ (s : State) (c : Fin 96) (w : Nat), let k := coreOf s c
  let u := bits w 53 52; let xd := xr k (bits w 51 48); let b := memRead k.ts xd 64
  let moved := bytesAt b 0 8 ++ toLE (fieldAt b 8 8 + xr k (bits w 47 44)) 8 ++ toLE (fieldAt b 16 8 + xr k (bits w 43 40)) 8
    ++ bytesAt b 24 40
  (Issues s c 1 0x00 w → Sound s c → xd % 64 = 0 → xd < 2 ^ 22 → (bit w 39 = true → k.flight = []) →
    (strmOf k u).queue.length < 16 → Does (.strmIssue c {}) s
      (Moves c s (setStrm k u { strmOf k u with queue := (strmOf k u).queue ++ [.desc moved none] })))
  ∧ (Issues s c 1 0x00 w → xd % 64 = 0 → xd < 2 ^ 22 → (bit w 39 = true → k.flight = []) →
    16 ≤ (strmOf k u).queue.length → Does (.strmIssue c {}) s (CoreBecomes c s { k with stall := some (.queue u) }))
  ∧ (Issues s c 1 0x01 w → Does (.strmCancelInstr c {}) s fun t =>
      (strmOf (coreOf t c) u).queue = [] ∧ (strmOf (coreOf t c) u).prog = stopProgs (strmOf k u).prog
      ∧ (coreOf t c).pc = k.pc + 1
      ∧ (∀ d e, QEnt.desc d e ∈ (strmOf k u).queue → bit (fieldAt d 0 4) 21 = true →
          bit (coreOf t c).sb (bits (fieldAt d 0 4) 20 15) = true
          ∧ bit (coreOf t c).sbFail (bits (fieldAt d 0 4) 20 15) = true)
      ∧ OtherCores c s t ∧ SameBut [.cores, .csr, .evt, .ephResults] s t))
  ∧ (∀ (s : State) (c : Fin 96) (u d : Fin 4) (p : Prog), let k := coreOf s c
  let w := fieldAt p.b 0 4; let r := progReport p; let a := Csr.STRM_FAIL (c / 24) (c % 24) u
  strmWorks s c = true → smGet none (strmOf k u).prog d = some p → p.away = [] → p.ended.isSome = true ∨ p.parts ≤ p.done.length →
  p.eph = none → bit w 14 = false →
  (r.status = 0 → bit w 21 = true → bit k.sb (bits w 20 15) = false → Does (.strmDescComplete c u d) s fun t =>
    coreOf t c = { setStrm k u { strmOf k u with prog := smSet none (strmOf k u).prog d none } with
      sb := k.sb ||| 2 ^ bits w 20 15 } ∧ OtherCores c s t ∧ SameBut [.cores] s t)
  ∧ (r.status ≠ 0 → bit w 21 = true → bit k.sb (bits w 20 15) = false → flag s a 0 = false →
    Does (.strmDescComplete c u d) s fun t =>
      bit (coreOf t c).sb (bits w 20 15) = true ∧ bit (coreOf t c).sbFail (bits w 20 15) = true
      ∧ smGet 0 (coreOf t c).sbStatus (bits w 20 15) = r.status
      ∧ rd t a = (r.status * 2 ^ 24 + r.firstFail * 2 ^ 16 + 1) % 2 ^ 64
      ∧ rd t (Csr.STRM_FAIL_TAG (c / 24) (c % 24) u) = fieldAt p.b 60 4
      ∧ rd t (Csr.STRM_FAIL_PREFIX (c / 24) (c % 24) u) = r.pfx % 2 ^ 64
      ∧ rd t (Csr.STRM_FAIL_MAP (c / 24) (c % 24) u) = r.map % 2 ^ 64
      ∧ smGet none (strmOf (coreOf t c) u).prog d = none ∧ OtherCores c s t ∧ SameBut [.cores, .csr] s t))

/-- R88, R93, R574: a pushed address becomes the descriptor read there, or a failed push; the descriptor at the head of the queue
takes a free place among those in progress, with its parts, or as rejected.
R93: what rejects a descriptor: a type, space, format or reserved bit that is not defined, an empty dimension, or a run
outside its space. -/
def Obligations.StreamStarts : Prop :=
  (∀ (s : State) (c : Fin 96) (u : Fin 4) (rest : List QEnt), let k := coreOf s c
  strmWorks s c = true →
  (∀ a b v, (strmOf k u).queue = .push a :: rest → a % 64 = 0 →
    ltaRead s (engKey 0 (4 * c + u) 0) a 64 = (v, some (0, b)) → Does (.strmPushFetch c u) s fun t =>
      coreOf t c = setStrm (coreOf v c) u { strmOf (coreOf v c) u with queue := .desc b none :: rest }
        ∧ OtherCores c v t ∧ SameBut [.cores] v t)
  ∧ (∀ a, (strmOf k u).queue = .push a :: rest → a % 64 ≠ 0 → flag s (Csr.STRM_FAIL (c / 24) (c % 24) u) 0 = false →
    Does (.strmPushFetch c u) s fun t =>
      coreOf t c = setStrm k u { strmOf k u with queue := rest }
        ∧ flag t (Csr.STRM_FAIL (c / 24) (c % 24) u) 0 = true ∧ fld t (Csr.STRM_FAIL (c / 24) (c % 24) u) 31 24 = 0x0A
        ∧ rd t (Csr.STRM_FAIL_TAG (c / 24) (c % 24) u) = 0 ∧ OtherCores c s t ∧ SameBut [.cores, .csr] s t)
  ∧ (∀ b e d, (strmOf k u).queue = .desc b e :: rest → freeProg (strmOf k u) = some d →
    (dOrder b = true → (strmOf k u).prog.any (fun p => p.2.isSome) = false) → Does (.strmDescStart c u []) s fun t =>
      coreOf t c = setStrm k u { queue := rest, prog := smSet none (strmOf k u).prog d (some
        (if dBad k b = 0 then { b := b, eph := e, parts := dDim1 b * dDim2 b, list := if dListed b then readList k b else [] }
         else { b := b, eph := e, parts := 0, ended := some (dBad k b) })) }
      ∧ OtherCores c s t ∧ SameBut [.cores] s t))
  ∧ (∀ (k : Core) (b : Bytes),
  (dDim0 b = 0 ∨ dDim1 b = 0 ∨ dDim2 b = 0 → dBad k b = 0x09) ∧ (5 < dSrcSpace b ∨ 5 < dDstSpace b → dBad k b = 0x09)
  ∧ (dType b = 0 ∨ 5 < dType b → dBad k b = 0x09) ∧ (dSrcSpace b = 5 → dBad k b = 0x09)
  ∧ (dBad k b = 0 → dType b = 1 → dSrcSpace b = 0 → dDstSpace b = 0 →
      dSrc b + dDim0 b ≤ 0x40_0000 ∧ dDst b + dDstLen b ≤ 0x40_0000)
  ∧ (dBad k b = 0 → dDstSpace b = 5 → k.st = .halted))

/-- R94, R95: a part moves its run: between two places of the tile store the bytes at the destination become those of the source
and no other byte changes; in every case the part ends with the status its source and destination answer. -/
def Obligations.StreamParts : Prop := ∀ (s : State) (c : Fin 96) (u d : Fin 4) (i : Nat) (ext : Ext) (p : Prog) (src dst : Nat),
  let k := coreOf s c
  let n := dDim0 p.b
  let ended (st : Nat) (q : Core) (t : State) : Prop :=
    smGet none (strmOf (coreOf t c) u).prog d = some { p with done := p.done ++ [(i, st)] }
      ∧ coreOf t c = setStrm { q with ts := (coreOf t c).ts, tsBad := (coreOf t c).tsBad } u
          { strmOf q u with prog := smSet none (strmOf q u).prog d (some { p with done := p.done ++ [(i, st)] }) }
  strmWorks s c = true → smGet none (strmOf k u).prog d = some p → i < p.parts → p.ended = none → p.away = [] →
  (∀ x ∈ p.done, x.1 ≠ i) → partEnds p i = some (src, dst) →
  (dSrcSpace p.b = 0 → dDstSpace p.b = 0 → dConvEn p.b = false → p.done = [] → k.tsBad = [] →
    Does (.strmPartDone c u d i ext) s fun t =>
      memRead (coreOf t c).ts dst n = memRead k.ts src n
      ∧ (∀ x, x < dst ∨ dst + n ≤ x → memByte (coreOf t c).ts x = memByte k.ts x)
      ∧ ended 0 k t ∧ OtherCores c s t ∧ SameBut [.cores, .csr] s t
      ∧ OtherRegs [Csr.STRM_BYTES (c / 24) (c % 24) u, Csr.GLB_STAT_OVF] s t)
  ∧ (∀ v st bs, st ≠ 0 → runRead s c (engKey 0 (4 * c + u) (1 + 8 * i + 2 * d)) (dSrcSpace p.b) src n ext = (v, some (st, bs)) →
    coreOf v c = k → Does (.strmPartDone c u d i ext) s fun t => ended st k t ∧ OtherCores c v t ∧ SameBut [.cores] v t)

/-! ### Memory tiers -/

/-- R24, R147 to R149, R157 to R159: a line request is queued, and accepted while the controller is open; when it completes a
write has stored its bytes and no others, a read answers the line's bytes, up to 3 symbol errors are corrected, more make the
read uncorrectable and poison the line, and a poisoned line answers POISON. -/
def Obligations.FastLines : Prop := ∀ (s : State) (f : Fin 12) (r : LineReq) (n : Nat), let k := stkOf s f
  let l := reqLoc f r; let key := fastKey l
  let k' : Stk := { k with
    lines := k.lines.take n ++ k.lines.drop (n + 1)
    openRow := smSet 0 k.openRow (l.ch % 32 * 64 + fastBank l.a) (fastRow l.a + 1) }
  let marks (m : Option Mark) (t : State) : Prop :=
    smGet none t.fastMark (lineKey l) = m ∧ ∀ x, x ≠ lineKey l → smGet none t.fastMark x = smGet none s.fastMark x
  let others (t : State) : Prop := ∀ j, j ≠ f.val → stkOf t j = stkOf s j
  let done : Prop := k.lines[n]? = some (r, true) ∧ stkRuns s f = true
    ∧ (∀ q ∈ k.lines.take n, q.1.initiator ≠ r.initiator ∨ lineKey (reqLoc f q.1) ≠ lineKey l)
    ∧ bankBlocked s f (l.ch % 32) (fastBank l.a) (fastRow l.a) = false
  r.chaddr < 2 ^ 31 → 1 ≤ r.len → r.chaddr % 64 + r.len ≤ 64 →
  (k.grans = [] → Does (.fastLineRequest f r) s fun t =>
    stkOf t f = { k with
      lines := if stkOpen s f then (k.lines ++ [(r, false)]).map (fun q => (q.1, true)) else k.lines ++ [(r, false)] }
    ∧ t.answers = [] ∧ others t ∧ SameBut [.stks, .answers] s t)
  ∧ (done → r.write = true → (r.len = 64 ∨ smGet none s.fastMark (lineKey l) = none) → Does (.fastAccessDone f n 0 0) s fun t =>
    memRead t.fast key r.len = bytesAt r.data 0 r.len
    ∧ (∀ x, x < key ∨ key + r.len ≤ x → memByte t.fast x = memByte s.fast x)
    ∧ t.answers = [⟨r.initiator, 0, []⟩] ∧ stkOf t f = k' ∧ others t ∧ marks none t
    ∧ SameBut [.stks, .answers, .fast, .fastMark, .csr] s t
    ∧ OtherRegs [stkReg f 0x2C, stkReg f 0x48, stkReg f 0x50, Csr.GLB_STAT_OVF] s t)
  ∧ (done → r.write = false → smGet none s.fastMark (lineKey l) = none → Does (.fastAccessDone f n 0 0) s fun t =>
    t.answers = [⟨r.initiator, 0, memRead s.fast key r.len⟩] ∧ stkOf t f = k' ∧ others t ∧ marks none t
    ∧ SameBut [.stks, .answers, .fastMark, .csr] s t ∧ OtherRegs [stkReg f 0x2C, stkReg f 0x48, Csr.GLB_STAT_OVF] s t)
  ∧ (∀ e, done → r.write = false → smGet none s.fastMark (lineKey l) = none → 1 ≤ e → e ≤ 3 →
    rd s (stkReg f 0x28) + 1 < 2 ^ 32 - 1 → Does (.fastAccessDone f n e 0) s fun t =>
      t.answers = [⟨r.initiator, 0, memRead s.fast key r.len⟩] ∧ rd t (stkReg f 0x28) = rd s (stkReg f 0x28) + 1
      ∧ marks none t ∧ others t ∧ SameBut [.stks, .answers, .fastMark, .csr, .evt] s t)
  ∧ (∀ e, done → r.write = false → smGet none s.fastMark (lineKey l) = none → 4 ≤ e →
    rd s (stkReg f 0x30) + 1 < 2 ^ 32 - 1 → Does (.fastAccessDone f n e 0) s fun t =>
      t.answers = [⟨r.initiator, 0x02, []⟩] ∧ rd t (stkReg f 0x30) = rd s (stkReg f 0x30) + 1
      ∧ marks (some .poison) t ∧ others t ∧ SameBut [.stks, .answers, .fastMark, .csr, .evt] s t)
  ∧ (done → r.write = false → smGet none s.fastMark (lineKey l) = some .poison → Does (.fastAccessDone f n 0 0) s fun t =>
      t.answers = [⟨r.initiator, 0x03, []⟩] ∧ marks (some .poison) t ∧ others t
      ∧ SameBut [.stks, .answers, .fastMark, .csr, .evt] s t)

/-- R150, R159, R180: a granule request in range is queued, and one out of range answered RANGE_INVALID; when it completes a
write has stored its granules and nothing else, and a read answers them. -/
def Obligations.DeepGranules : Prop := ∀ (s : State) (d : Fin 8) (r : GranReq) (n at_ : Nat), let i := 12 + d.val
  let k := stkOf s i
  let others (t : State) : Prop := ∀ j, j ≠ i → stkOf t j = stkOf s j
  let done : Prop := k.grans[n]? = some (r, some at_) ∧ stkRuns s i = true
    ∧ bankBlocked s i (dgaChannel r.dga) (dgaBank r.dga) (dgaRow r.dga) = false
  let left (t : State) : Prop := (stkOf t i).grans.map (·.1) = (k.grans.take n ++ k.grans.drop (n + 1)).map (·.1)
  (granReqOk d r = true → Does (.deepGranuleRequest d r) s fun t =>
    (stkOf t i).grans.map (·.1) = k.grans.map (·.1) ++ [r] ∧ t.answers = [] ∧ others t
    ∧ (stkOpen s i = true → acceptedGrans k < 128 → (∀ g ∈ k.grans, g.2.isSome = true) →
        (stkOf t i).grans = k.grans ++ [(r, some s.stamp)])
    ∧ SameBut [.stks, .answers] s t)
  ∧ (granReqOk d r = false → Does (.deepGranuleRequest d r) s fun t => t.answers = [⟨0, 0x0A, []⟩] ∧ SameBut [.answers] s t)
  ∧ (granReqOk d r = true → done → r.write = true → r.data.length = 512 * r.count → Does (.deepAccessDone d n [] 0) s fun t =>
    memRead t.deep (r.dga * 512) (512 * r.count) = r.data
    ∧ (∀ x, x < r.dga * 512 ∨ (r.dga + r.count) * 512 ≤ x → memByte t.deep x = memByte s.deep x)
    ∧ t.answers = [⟨0, 0, []⟩] ∧ left t ∧ others t
    ∧ (∀ g, smGet none t.deepMark g = if r.dga ≤ g ∧ g < r.dga + r.count then none else smGet none s.deepMark g)
    ∧ SameBut [.stks, .answers, .deep, .deepMark, .csr] s t
    ∧ OtherRegs [stkReg i 0x2C, stkReg i 0x50, Csr.GLB_STAT_OVF] s t)
  ∧ (granReqOk d r = true → done → r.write = false →
    (∀ g, r.dga ≤ g → g < r.dga + r.count → smGet none s.deepMark g = none) → Does (.deepAccessDone d n [] 0) s fun t =>
    t.answers = [⟨0, 0, memRead s.deep (r.dga * 512) (512 * r.count)⟩] ∧ left t ∧ others t
    ∧ SameBut [.stks, .answers, .csr] s t ∧ OtherRegs [stkReg i 0x2C, stkReg i 0x48, Csr.GLB_STAT_OVF] s t)

/-- R151 to R153, R161: an interval adds one owed refresh, counting at the limit; a refresh takes one away and closes the row; a
temperature is noted, and over the limit raises once; a scrub step moves to the next word, and after the last one begins again,
counts the pass and raises it.
R162, R164, R172, R174, R175: ROWLOG_CLR empties the row table; VALID written 1 clears the capture; the end of initialisation
sets its bit and raises INIT_DONE; READY sets after a reset's exit; the first request after a power state's self-refresh brings
the stack out of it. -/
def Obligations.StackControl : Prop :=
  (∀ (s : State) (i : Fin 20) (ch bank : Nat) (celsius : Byte), let k := stkOf s i
  let key := ch * 64 + bank; let o := smGet 0 k.owed key; let others (t : State) : Prop := ∀ j, j ≠ i.val → stkOf t j = stkOf s j
  let lim := fld s (stkReg i 0x14) 15 8; let stat := stkReg i 0x08; let pos := rd s (stkReg i 0x20)
  let last := if i.val < 12 then 33554431 else 67108863
  (bankExists i ch bank = true → stkRuns s i = true → o + 1 ≠ (postponeMax s i : Int) → Does (.refreshInterval i ch bank) s fun t =>
    (∀ x, smGet 0 (stkOf t i).owed x = if x = key then o + 1 else smGet 0 k.owed x)
    ∧ (stkOf t i).openRow = k.openRow ∧ others t ∧ SameBut [.stks] s t)
  ∧ (bankExists i ch bank = true → stkRuns s i = true → o + 1 = (postponeMax s i : Int) →
    rd s (stkReg i 0x38) + 1 < 2 ^ 32 - 1 → Does (.refreshInterval i ch bank) s fun t =>
      smGet 0 (stkOf t i).owed key = o + 1 ∧ rd t (stkReg i 0x38) = rd s (stkReg i 0x38) + 1 ∧ others t
      ∧ SameBut [.stks, .csr] s t ∧ OtherRegs [stkReg i 0x38] s t)
  ∧ (bankExists i ch bank = true → stkRuns s i = true → -8 < o → k.bursts = [] → Does (.bankRefresh i ch bank) s fun t =>
    (∀ x, smGet 0 (stkOf t i).owed x = if x = key then o - 1 else smGet 0 k.owed x)
    ∧ (∀ x, smGet 0 (stkOf t i).openRow x = if x = key then 0 else smGet 0 k.openRow x) ∧ others t ∧ SameBut [.stks] s t)
  ∧ (awake s = true → inResetBit s (4 + i) = false → Does (.stackTempSample i celsius) s fun t =>
    (flag s stat 4 = false → celsius.toNat < lim → rd t (stkReg i 0x0C) = celsius.toNat ∧ SameBut [.csr] s t
      ∧ OtherRegs [stkReg i 0x0C] s t)
    ∧ (flag s stat 4 = false → lim ≤ celsius.toNat → ∃ u, rd u (stkReg i 0x0C) = celsius.toNat ∧ flag u stat 4 = true
      ∧ SameBut [.csr] s u ∧ OtherRegs [stkReg i 0x0C, stat] s u ∧ t = raise u (56 + i) 0x04 celsius.toNat lim)
    ∧ (flag s stat 4 = true → celsius.toNat + 5 ≤ lim → rd t (stkReg i 0x0C) = celsius.toNat ∧ flag t stat 4 = false
      ∧ SameBut [.csr] s t ∧ OtherRegs [stkReg i 0x0C, stat] s t))
  ∧ (flag s (stkReg i 0x04) 1 = true → stkOpen s i = true → (∀ x, smGet none s.fastMark x = none) →
    (∀ x, smGet none s.deepMark x = none) → bits pos 25 0 < last → pos + 1 < 2 ^ 64 → Does (.scrubStep i [] 0) s fun t =>
      rd t (stkReg i 0x20) = pos + 1 ∧ (∀ x, smGet none t.fastMark x = none ∧ smGet none t.deepMark x = none) ∧ others t
      ∧ SameBut [.stks, .csr, .fastMark, .deepMark] s t
      ∧ OtherRegs [stkReg i 0x20, stkReg i 0x2C, stkReg i 0x48, Csr.GLB_STAT_OVF] s t)
  ∧ (flag s (stkReg i 0x04) 1 = true → stkOpen s i = true → (∀ x, smGet none s.fastMark x = none) →
    (∀ x, smGet none s.deepMark x = none) → last ≤ bits pos 25 0 → Does (.scrubStep i [] 0) s fun t => ∃ u,
      rd u (stkReg i 0x20) = (bits pos 63 32 + 1) % 2 ^ 32 * 2 ^ 32 ∧ SameBut [.stks, .csr, .fastMark, .deepMark] s u
      ∧ t = raise u (56 + i) 0x06 ((bits pos 63 32 + 1) % 2 ^ 32) 0))
  ∧ (∀ (s : State) (i : Initiator) (k : Fin 20), let v := stkOf s k
  let others (t : State) : Prop := ∀ j, j ≠ k.val → stkOf t j = stkOf s j
  let stat := stkReg k 0x08; let cap := stkReg k 0x3C
  (Access s i (stkReg k 0x04) true → Does (.rowlogClr i k) s fun t =>
    stkOf t k = { v with rowlog := [] } ∧ others t ∧ SameBut [.stks] s t)
  ∧ (Access s i cap true → Does (.errCaptureClear i k) s fun t =>
    flag t cap 31 = false ∧ fld t cap 7 0 = 0 ∧ fld t cap 30 8 = fld s cap 30 8 ∧ SameBut [.csr] s t ∧ OtherRegs [cap] s t)
  ∧ (v.lines = [] → v.grans = [] → v.cold = true → awake s = true → inResetBit s (4 + k) = false → flag s stat 0 = true →
    Does (.stackInitDone k) s fun t => ∃ u, stkOf u k = { v with cold := false } ∧ flag u stat 3 = true
      ∧ (∀ j, j ≠ k.val → stkOf u j = stkOf s j) ∧ SameBut [.stks, .csr] s u ∧ OtherRegs [stat] s u
      ∧ (∀ j, stkOf t j = stkOf u j) ∧ SameBut [.stks, .evt, .csr] u t
      ∧ t.evt = (raise u (56 + k) 0x05 0 0).evt)
  ∧ (v.lines = [] → v.grans = [] → v.powerSr = false → awake s = true → inResetBit s (4 + k) = false →
    domainOff s (4 + k) = false → flag s stat 0 = false → Does (.controllerReady k) s fun t =>
      flag t stat 0 = true ∧ flag t stat 2 = false ∧ (flag t stat 3 = true ↔ v.cold = false ∨ flag s stat 3 = true)
      ∧ (∀ j, stkOf t j = stkOf s j) ∧ SameBut [.stks, .csr] s t ∧ OtherRegs [stat] s t)
  ∧ (v.lines = [] → v.grans = [] → v.powerSr = true → awake s = true → inResetBit s (4 + k) = false →
    domainOff s (4 + k) = false → Does (.selfRefreshExit k) s fun t =>
      stkOf t k = { v with powerSr := false } ∧ flag t stat 0 = true ∧ flag t stat 2 = false ∧ others t
      ∧ SameBut [.stks, .csr] s t ∧ OtherRegs [stat] s t))

/-! ### Placement engine -/

/-- R185, R186, R192: an access within one page of the fast tier is served from its frame: a read answers the frame's bytes, a
write changes exactly those bytes and marks its sectors dirty in a cached page. A page that is invalid or retired answers
RANGE_INVALID and a poisoned one POISONED. A write to a page of the deep tier stalls and asks for its promotion. -/
def Obligations.TensorAccess : Prop := ∀ (s : State) (u a n : Nat) (d : Bytes), let p := a / 2 ^ 18; let o := a % 2 ^ 18
  let e := pageEnt s p; let f := entFrame e
  plcRuns s = true → plcReady s = true → a + n ≤ 2 ^ 44 → 1 ≤ n → o + n ≤ 2 ^ 18 → d.length = n → Clean s →
  (InFast s p → frameOpen s f o n = true → FrameFits s f → Does (.ltaAccess { unit := u, addr := a, len := n, write := false }) s fun t =>
    t.answers = [⟨u, 0, (List.range n).map (fun k => frameByte s f (o + k))⟩]
    ∧ (pageEnt t p).state = e.state ∧ (pageEnt t p).frame = e.frame ∧ (pageEnt t p).dirty = e.dirty
    ∧ SameBut [.answers, .csr, .stks, .pages, .pageCache] s t ∧ OtherRegs tierRegs s t)
  ∧ (InFast s p → frameOpen s f o n = true → FrameFits s f →
    Does (.ltaAccess { unit := u, addr := a, len := n, write := true, data := d }) s fun t =>
      t.answers = [⟨u, 0, []⟩] ∧ (∀ k, k < n → frameByte t f (o + k) = d.getD k 0)
      ∧ (∀ x, (∀ k, k < n → fastKey (frameLoc f (o + k)) ≠ x) → memByte t.fast x = memByte s.fast x)
      ∧ (e.state = .fastHomed → (pageEnt t p).state = .fastHomed ∧ (pageEnt t p).dirty = e.dirty)
      ∧ (e.state ≠ .fastHomed → (pageEnt t p).state = .cachedDirty
          ∧ ∀ k, k < 64 → bit (pageEnt t p).dirty k = (bit e.dirty k || (decide (o / 4096 ≤ k) && decide (k ≤ (o + n - 1) / 4096))))
      ∧ SameBut [.answers, .csr, .stks, .pages, .pageCache, .fast, .fastMark] s t ∧ OtherRegs tierRegs s t)
  ∧ (e.state = .invalid ∨ e.state = .retired → Does (.ltaAccess { unit := u, addr := a, len := n, write := false }) s fun t =>
    t.answers = [⟨u, 0x0A, []⟩] ∧ SameBut [.answers, .csr, .pages, .pageCache] s t ∧ OtherRegs tierRegs s t)
  ∧ (e.state = .poison → Does (.ltaAccess { unit := u, addr := a, len := n, write := false }) s fun t =>
    t.answers = [⟨u, 0x03, []⟩] ∧ SameBut [.answers, .csr, .pages, .pageCache] s t ∧ OtherRegs tierRegs s t)
  ∧ (e.state = .deepResident → s.migq = [] → s.slots = [] → rd s Csr.PLC_LATE + 1 < 2 ^ 32 - 1 →
    Does (.ltaAccess { unit := u, addr := a, len := n, write := true, data := d }) s fun t =>
      t.answers = [] ∧ t.migq = [{ page := p, cls := 0, dir := .promote }]
      ∧ t.stalled.map (fun x => (x.key, x.page)) = s.stalled.map (fun x => (x.key, x.page)) ++ [(u, p)]
      ∧ rd t Csr.PLC_LATE = rd s Csr.PLC_LATE + 1 ∧ SameBut [.answers, .csr, .migq, .stalled] s t
      ∧ OtherRegs [Csr.PLC_LATE] s t)

/-- R188, R195 to R197: a waiting promotion or demotion takes a free slot and its page is MIGRATING; the last sector of a
promotion makes the page CACHED_CLEAN; a demotion with nothing left to write back makes it DEEP_RESIDENT and frees the frame;
a write-back clears the sector's dirty bit.
R176, R190, R192, R198, R200, R213, R214: the rest of what the engine does by itself: the decay epoch counts, the sweeper
moves on and decays a page's heat, a reported page becomes POISON, a wait for a frame ends with QUOTA, a granule request that
times out answers TIMEOUT, a journal replay returns a migrating page to its starting state, and a stalled access is served once
its page is in the fast tier. -/
def Obligations.PlacementUpkeep : Prop :=
  (∀ (s : State) (m : Mig) (slot : Fin 32) (f k : Nat), let e := pageEnt s m.page
  plcAlive s = true → s.plcCh = [] → s.plans = [] → s.stalled = [] →
  (plcRuns s = true → s.migq = [m] → s.slots = [] → m.dir = .promote → m.frameWait = false → e.state = .deepResident →
    migMay s m = true → 3 ≤ fld s Csr.PLC_MIG 5 0 → findFrame s (domOf e.banked e.stack) = some f → Does .migrationStart s fun t =>
      (pageEnt t m.page).state = .migrating ∧ (pageEnt t m.page).frame = f ∧ t.migq = []
      ∧ slotOf t 0 = some { m with start := .deepResident }
      ∧ smGet 0 t.frameMap (frameIdx s (domOf e.banked e.stack) f) = 1
      ∧ SameBut [.pages, .pageCache, .migq, .slots, .frameMap, .frameCur, .csr] s t ∧ OtherRegs tierRegs s t)
  ∧ (plcRuns s = true → s.migq = [m] → s.slots = [] → m.dir = .demote → m.cls = 7 → (e.state = .cachedClean ∨ e.state = .cachedDirty) →
    migMay s m = true → 3 ≤ fld s Csr.PLC_MIG 5 0 → Does .migrationStart s fun t =>
      (pageEnt t m.page).state = .migrating ∧ (pageEnt t m.page).frame = e.frame ∧ t.migq = []
      ∧ slotOf t 0 = some { m with start := e.state }
      ∧ SameBut [.pages, .pageCache, .migq, .slots, .csr] s t ∧ OtherRegs tierRegs s t)
  ∧ (let h := deepSector { s with answers := [] } m.page e k;
    slotOf s slot = some m → m.dir = .promote → nextSector s m = some k → h.st = 0 →
    (frameWrite h.s (entFrame e) (k * 4096) h.data).st = 0 →
    stkOpen s (12 + dgaStack e.dga) = true → frameOpen s (entFrame e) (k * 4096) 4096 = true →
    (m.arrived ||| 1 <<< k ≠ 2 ^ 64 - 1 → Does (.promotionSector slot) s fun t =>
      slotOf t slot = some { m with arrived := m.arrived ||| 1 <<< k } ∧ (pageEnt t m.page).state = e.state
      ∧ (∀ p, pageEnt t p = pageEnt s p))
    ∧ (m.arrived ||| 1 <<< k = 2 ^ 64 - 1 → Does (.promotionSector slot) s fun t =>
      slotOf t slot = none ∧ pageEnt t m.page = { e with state := .cachedClean, dirty := 0 }
      ∧ (∀ p, p ≠ m.page → pageEnt t p = pageEnt s p)))
  ∧ (slotOf s slot = some m → m.dir = .demote → stkOpen s (12 + dgaStack e.dga) = true →
    frameOpen s (entFrame e) 0 262144 = true → (∀ j, j < 64 → bit e.dirty j = false) → Does (.writebackSector slot) s fun t =>
      pageEnt t m.page = { e with state := .deepResident, frame := 0 } ∧ slotOf t slot = none
      ∧ smGet 0 t.frameMap (frameIdx s (domOf e.banked e.stack) e.frame) = 0 ∧ (∀ p, p ≠ m.page → pageEnt t p = pageEnt s p)
      ∧ SameBut [.answers, .pages, .slots, .frameMap, .csr] s t ∧ OtherRegs [Csr.PLC_DEMOTIONS, Csr.GLB_STAT_OVF] s t)
  ∧ (slotOf s slot = some m → m.dir = .flush → stkOpen s (12 + dgaStack e.dga) = true →
    frameOpen s (entFrame e) 0 262144 = true → (∀ j, j < 64 → bit e.dirty j = false) → e.state = .cachedDirty →
    Does (.writebackSector slot) s fun t =>
      pageEnt t m.page = { e with state := .cachedClean } ∧ slotOf t slot = none
      ∧ (∀ p, p ≠ m.page → pageEnt t p = pageEnt s p) ∧ SameBut [.answers, .pages, .slots] s t))
  ∧ (∀ (s : State) (p : Nat), let e := pageEnt s p
  (plcRuns s = true → fld s Csr.PLC_EPOCH_CYC 31 0 ≠ 0 → Does .epochTick s fun t =>
    fld t Csr.PLC_EPOCH 15 0 = (fld s Csr.PLC_EPOCH 15 0 + 1) % 2 ^ 16 ∧ SameBut [.csr] s t ∧ OtherRegs [Csr.PLC_EPOCH] s t)
  ∧ (∀ die : Fin 2, plcTakes s = true → fld s Csr.PLC_SWEEP 15 0 ≠ 0 → p = 2 * smGet 0 s.sweep die + die → e.state = .deepResident →
    Does (.sweepVisit die) s fun t =>
      smGet 0 t.sweep die = (smGet 0 s.sweep die + 1) % 2 ^ 25 ∧ heatOf t p = (currentHeat s p, epochNow s)
      ∧ (pageEnt t p).state = .deepResident ∧ SameBut [.sweep, .pages, .pageCache] s t)
  ∧ (∀ (st : Byte) (loc : W64), plcAlive s = true → p < 2 ^ 26 → st = 0x02 ∨ st = 0x03 → NoMigration s p → s.plcCh = [] →
    (e.state = .deepResident ∨ InFast s p) → rd s Csr.PLC_POISON + 1 < 2 ^ 32 - 1 → Does (.pagePoisonReport p st loc) s fun t =>
      pageEnt t p = { e with state := .poison, pstate := e.state, frame := if e.state = .deepResident then 0 else e.frame }
      ∧ (∀ q, q ≠ p → pageEnt t q = pageEnt s q) ∧ rd t Csr.PLC_POISON = rd s Csr.PLC_POISON + 1
      ∧ SameBut [.answers, .pages, .csr, .evt] s t)
  ∧ (∀ m, plcAlive s = true → s.migq = [m] → m.page = p → m.dir = .promote → m.frameWait = true → s.stalled = [] → s.plcCh = [] →
    s.plans = [] → Does (.frameWaitExpire p) s fun t => ∃ u, u.migq = [] ∧ SameBut [.answers, .migq] s u
      ∧ t = raise u 76 0x06 p (if e.banked then e.stack else 0xF))
  ∧ (∀ (d : Fin 8) (n at_ : Nat) (r : GranReq), (stkOf s (12 + d)).grans[n]? = some (r, some at_) → fld s (Csr.DSC_TMO d) 23 0 ≠ 0 →
    awake s = true → blkHeld s (16 + d) = false → r.use = .plain → rd s (Csr.DSC_TMO_CNT d) + 1 < 2 ^ 32 - 1 →
    Does (.deepTierTimeout d n false) s fun t =>
      t.answers = [⟨0, 0x04, []⟩] ∧ rd t (Csr.DSC_TMO_CNT d) = rd s (Csr.DSC_TMO_CNT d) + 1
      ∧ (stkOf t (12 + d)).grans.map (·.1) = ((stkOf s (12 + d)).grans.take n ++ (stkOf s (12 + d)).grans.drop (n + 1)).map (·.1)
      ∧ SameBut [.answers, .stks, .csr] s t ∧ OtherRegs [Csr.DSC_TMO_CNT d] s t)
  ∧ (∀ m, awake s = true → inResetBit s 24 = false → s.plcRestoring = true → s.slots = [(0, some m)] → m.page = p → m.dir = .promote →
    Does .plcJournalReplay s fun t =>
      pageEnt t p = { e with state := m.start, frame := 0 } ∧ smGet 0 t.frameMap (frameIdx s (domOf e.banked e.stack) e.frame) = 0
      ∧ slotOf t 0 = none ∧ t.plcRestoring = false ∧ SameBut [.pages, .frameMap, .slots, .plcRestoring] s t)
  ∧ (∀ x r, s.stalled = [x] → x.req = some r → r.write = false → r.addr / 2 ^ 18 = p → 1 ≤ r.len → r.addr % 2 ^ 18 + r.len ≤ 2 ^ 18 →
    r.addr + r.len ≤ 2 ^ 44 → plcRuns s = true → plcReady s = true → Clean s → InFast s p → FrameFits s (entFrame e) →
    frameOpen s (entFrame e) (r.addr % 2 ^ 18) r.len = true → Does (.stalledRequestResume 0) s fun t =>
      t.answers = [⟨r.unit, 0, (List.range r.len).map (fun k => frameByte s (entFrame e) (r.addr % 2 ^ 18 + k))⟩] ∧ t.stalled = []
      ∧ SameBut [.answers, .stalled, .csr, .stks, .pages, .pageCache] s t ∧ OtherRegs tierRegs s t))

/-! ### Placement commands and the Ephemeris -/

/-- R188, R191, R205, R206: READ shows the entry of a page; MAP gives an invalid page a zeroed frame, or an extent of zero
sectors; UNMAP frees what a page holds and zeroes its entry; SET_ATTR changes the attributes whose bits of the mask are set. -/
def Obligations.PageCommands : Prop := ∀ (s : State) (i : Initiator) (ch : Fin 4) (evt : Bool), let p := rd s (Csr.PLC_CMD_ARG ch 0)
  let a1 := rd s (Csr.PLC_CMD_ARG ch 1); let a2 := rd s (Csr.PLC_CMD_ARG ch 2); let e := pageEnt s p
  let cmd := Csr.PLC_CMD ch; let others (t : State) : Prop := ∀ q, q ≠ p → pageEnt t q = pageEnt s q
  PlcStarts s i ch → p < 2 ^ 26 →
  (e.state ≠ .migrating → Does (.plcRead i ch evt) s fun t =>
    (∀ j w, (entWords e (currentHeat s p) (epochNow s) (nbuLocked s p))[j]? = some w → rd t (Csr.PLC_CMD_ENTRY ch j) = w % 2 ^ 64)
    ∧ HoldsCmd s ch 0x01 evt [.ended 0] t ∧ SameBut [.answers, .plcCh, .csr] s t
    ∧ OtherRegs (cmd :: (List.range 4).map (Csr.PLC_CMD_ENTRY ch)) s t)
  ∧ (∀ f, let d := domOf (bit a1 1) (bits a1 5 2); let fr : Frame := ⟨bit a1 1, bits a1 5 2, f⟩;
    e.state = .invalid → a1 < 2 ^ 11 → bit a1 0 = false → (bit a1 1 = true → bits a1 5 2 ≤ 11) →
    (bits a1 9 6 < 12 ∨ 14 < bits a1 9 6) → findFrame s d = some f → tiersOpen s (frameAll fr) = true → FrameFits s fr →
    Does (.plcMap i ch evt) s fun t =>
      pageEnt t p = { state := .fastHomed, frame := f, banked := bit a1 1, stack := bits a1 5 2, cfmt := bits a1 9 6,
                      pin := bit a1 10, swtag := a2 }
      ∧ others t ∧ (∀ o, o < 2 ^ 18 → frameByte t fr o = 0) ∧ OtherFrames fr s t ∧ smGet 0 t.frameMap (frameIdx s d f) = 1
      ∧ HoldsCmd s ch 0x02 evt [.ended 0] t
      ∧ SameBut [.answers, .plcCh, .csr, .pages, .frameMap, .frameCur, .fast, .fastMark, .stks] s t
      ∧ OtherRegs (cmd :: tierRegs) s t)
  ∧ (e.state = .invalid → a1 < 2 ^ 11 → bit a1 0 = true → (bit a1 1 = true → bits a1 5 2 ≤ 11) →
    (bits a1 9 6 < 12 ∨ 14 < bits a1 9 6) → tiersOpen s (countUp 12 8) = true → s.blocks = [] → s.blockCur = [] →
    Does (.plcMap i ch evt) s fun t =>
      pageEnt t p = { state := .deepResident, dga := 0, extLen := 16, banked := bit a1 1, stack := bits a1 5 2, cfmt := bits a1 9 6,
                      pin := bit a1 10, swtag := a2 }
      ∧ others t ∧ memRead t.deep 0 512 = mapBytes p (bits a1 9 6) (List.replicate 64 {})
      ∧ (∀ x, 512 ≤ x → memByte t.deep x = memByte s.deep x) ∧ HoldsCmd s ch 0x02 evt [.ended 0] t
      ∧ (∀ b, smGet false t.blocks b = decide (b = 0))
      ∧ SameBut [.answers, .plcCh, .csr, .pages, .blocks, .blockCur, .deep, .deepMark, .stks] s t
      ∧ OtherRegs (cmd :: tierRegs) s t)
  ∧ (InFast s p → e.extLen = 0 → NoMigration s p → Does (.plcUnmap i ch evt) s fun t =>
    pageEnt t p = {} ∧ others t ∧ smGet 0 t.frameMap (frameIdx s (domOf e.banked e.stack) e.frame) = 0
    ∧ HoldsCmd s ch 0x03 evt [.ended 0] t ∧ SameBut [.answers, .plcCh, .csr, .pages, .frameMap] s t ∧ OtherRegs [cmd] s t)
  ∧ (e.state = .deepResident ∨ InFast s p → a1 < 2 ^ 21 → a1 &&& 0x1F07FF = a1 → (bit a1 19 = true → e.state = .deepResident) →
    (bit a1 19 = true → bit a1 6 = true → bits a1 10 7 ≤ 11) → (bit a1 18 = true → bits a1 5 2 < 12 ∨ 14 < bits a1 5 2) →
    Does (.plcSetAttr i ch evt) s fun t =>
      pageEnt t p = { e with
        pin := if bit a1 16 then bit a1 0 else e.pin
        lockFw := if bit a1 17 then bit a1 1 else e.lockFw
        cfmt := if bit a1 18 then bits a1 5 2 else e.cfmt
        banked := if bit a1 19 then bit a1 6 else e.banked
        stack := if bit a1 19 then bits a1 10 7 else e.stack
        swtag := if bit a1 20 then a2 else e.swtag }
      ∧ others t ∧ HoldsCmd s ch 0x04 evt [.ended 0] t ∧ SameBut [.answers, .plcCh, .csr, .pages] s t ∧ OtherRegs [cmd] s t)

/-- R188, R206: PROMOTE, DEMOTE and FLUSH ask for the page's migration and wait for it; HOME frees a cached page's extent and
makes it fast-homed; RETIRE gives its storage up; RELEASE makes a retired page invalid. -/
def Obligations.PageMovement : Prop := ∀ (s : State) (i : Initiator) (ch : Fin 4) (evt : Bool), let p := rd s (Csr.PLC_CMD_ARG ch 0)
  let a1 := rd s (Csr.PLC_CMD_ARG ch 1); let e := pageEnt s p
  let cmd := Csr.PLC_CMD ch; let others (t : State) : Prop := ∀ q, q ≠ p → pageEnt t q = pageEnt s q
  PlcStarts s i ch → p < 2 ^ 26 →
  (e.state = .deepResident → a1 < 2 → s.migq = [] → s.slots = [] → Does (.plcPromote i ch evt) s fun t =>
    t.migq = [{ page := p, cls := if a1 = 1 then 0 else 4, dir := .promote }] ∧ HoldsCmd s ch 0x05 evt [.waits] t
    ∧ SameBut [.answers, .plcCh, .csr, .migq] s t ∧ OtherRegs [cmd] s t)
  ∧ (e.state = .cachedClean ∨ e.state = .cachedDirty → e.pin = false → e.lockFw = false → nbuLocked s p = false → s.migq = [] →
    s.slots = [] → Does (.plcDemote i ch evt) s fun t =>
      t.migq = [{ page := p, cls := 7, dir := .demote }] ∧ HoldsCmd s ch 0x06 evt [.waits] t
      ∧ SameBut [.answers, .plcCh, .csr, .migq] s t ∧ OtherRegs [cmd] s t)
  ∧ (e.state = .cachedDirty → s.migq = [] → s.slots = [] → Does (.plcFlush i ch evt) s fun t =>
    t.migq = [{ page := p, cls := 7, dir := .flush }] ∧ HoldsCmd s ch 0x07 evt [.waits] t
    ∧ SameBut [.answers, .plcCh, .csr, .migq] s t ∧ OtherRegs [cmd] s t)
  ∧ (e.state = .cachedClean ∨ e.state = .cachedDirty → a1 = 0 → NoMigration s p → e.extLen ≠ 0 → Does (.plcHome i ch evt) s fun t =>
    pageEnt t p = { e with state := .fastHomed, dirty := 0, extLen := 0, dga := 0 } ∧ others t
    ∧ (∀ k, e.dga / 2 ^ 31 * 2 ^ 27 + e.dga % 2 ^ 31 / 16 ≤ k →
        k < e.dga / 2 ^ 31 * 2 ^ 27 + e.dga % 2 ^ 31 / 16 + e.extLen / 16 → smGet false t.blocks k = false)
    ∧ HoldsCmd s ch 0x08 evt [.ended 0] t ∧ SameBut [.answers, .plcCh, .csr, .pages, .blocks] s t ∧ OtherRegs [cmd] s t)
  ∧ (InFast s p → NoMigration s p → e.extLen = 0 → Does (.plcRetire i ch evt) s fun t =>
    pageEnt t p = { e with state := .retired, frame := 0, dirty := 0, pstate := .invalid, extLen := 0, dga := 0 } ∧ others t
    ∧ smGet 0 t.frameMap (frameIdx s (domOf e.banked e.stack) e.frame) = 2 ∧ HoldsCmd s ch 0x0A evt [.ended 0] t
    ∧ SameBut [.answers, .plcCh, .csr, .pages, .frameMap] s t ∧ OtherRegs [cmd] s t)
  ∧ (e.state = .retired → Does (.plcRelease i ch evt) s fun t =>
    pageEnt t p = {} ∧ others t ∧ HoldsCmd s ch 0x0B evt [.ended 0] t ∧ SameBut [.answers, .plcCh, .csr, .pages] s t
    ∧ OtherRegs [cmd] s t)

/-- R188, R206: RELOCATE moves a page of the fast tier to another frame with its bytes; REBUILD fills a poisoned page's frame from
another page and makes it usable again. -/
def Obligations.PageCopies : Prop := ∀ (s : State) (i : Initiator) (ch : Fin 4) (evt : Bool), let p := rd s (Csr.PLC_CMD_ARG ch 0)
  let a1 := rd s (Csr.PLC_CMD_ARG ch 1); let a2 := rd s (Csr.PLC_CMD_ARG ch 2); let e := pageEnt s p
  let regs := Csr.PLC_CMD ch :: tierRegs
  PlcStarts s i ch → p < 2 ^ 26 → Clean s →
  (∀ f, let d := domOf (bit a1 1) (bits a1 5 2); let fr : Frame := ⟨bit a1 1, bits a1 5 2, f⟩;
    InFast s p → a1 < 2 ^ 6 → (bit a1 1 = true → bits a1 5 2 ≤ 11) → findFrame s d = some f →
    frameIdx s d f ≠ frameIdx s (domOf e.banked e.stack) e.frame →
    tiersOpen s (frameAll fr ++ frameAll (entFrame e)) = true → FrameFits s fr → FrameFits s (entFrame e) →
    Does (.plcRelocate i ch evt) s fun t =>
      pageEnt t p = { e with banked := bit a1 1, stack := bits a1 5 2, frame := f }
      ∧ (∀ q, q ≠ p → pageEnt t q = pageEnt s q) ∧ (∀ o, o < 2 ^ 18 → frameByte t fr o = frameByte s (entFrame e) o) ∧ OtherFrames fr s t
      ∧ smGet 0 t.frameMap (frameIdx s d f) = 1
      ∧ smGet 0 t.frameMap (frameIdx s (domOf e.banked e.stack) e.frame) = (if bit a1 0 then 2 else 0)
      ∧ HoldsCmd s ch 0x09 evt [.ended 0] t
      ∧ SameBut [.answers, .plcCh, .csr, .pages, .frameMap, .frameCur, .fast, .fastMark, .stks] s t ∧ OtherRegs regs s t)
  ∧ (let q := bits a1 43 0 / 2 ^ 18; let g := entFrame (pageEnt s q);
    e.state = .poison → e.pstate = .fastHomed → e.extLen = 0 → a1 < 2 ^ 44 → a1 % 2 ^ 18 = 0 → a2 = 0 → q ≠ p → InFast s q →
    s.stallFail = [] → s.stalled = [] → plcRuns s = true → frameOpen s g 0 262144 = true → FrameFits s g →
    tiersOpen s (frameAll (entFrame e)) = true → FrameFits s (entFrame e) → Does (.plcRebuild i ch evt) s fun t =>
      (pageEnt t p).state = .fastHomed ∧ (pageEnt t p).frame = e.frame ∧ (pageEnt t p).dirty = 0 ∧ (pageEnt t p).pstate = .invalid
      ∧ (∀ o, o < 2 ^ 18 → frameByte t (entFrame e) o = frameByte s g o) ∧ OtherFrames (entFrame e) s t
      ∧ HoldsCmd s ch 0x0C evt [.ended 0] t
      ∧ SameBut [.answers, .plcCh, .csr, .pages, .pageCache, .fast, .fastMark, .stks] s t ∧ OtherRegs regs s t)

/-- R206, R208, R209: EPH_LOAD takes a plan's entries, those malformed as void; EPH_ARM makes them ready and sets the step;
EPH_DISARM and EPH_UNLOAD undo the two.
R205: once every part of a channel's command has ended, the channel is idle, the report is recorded, and CMD_DONE is raised
where the command asks for it.
R207, R210, R211: a delivered marker fires the ready entries it names; a fired tile-store entry's descriptor enters its core's
streamer; an entry whose page is resident, or whose streamer has reported, completes. -/
def Obligations.PlacementPlans : Prop :=
  (∀ (s : State) (i : Initiator) (ch : Fin 4) (evt : Bool), let q := rd s (Csr.PLC_CMD_ARG ch 0)
  let a1 := rd s (Csr.PLC_CMD_ARG ch 1); let n := rd s (Csr.PLC_CMD_ARG ch 2); let v := planOf s q
  let cmd := Csr.PLC_CMD ch; let others (t : State) : Prop := ∀ r, r ≠ q → planOf t r = planOf s r
  let held (op : Nat) (ps : List PlcPart) (whole : Option Nat) (t : State) : Prop := smGet none t.plcCh ch =
    some { op := op, a0 := q, a1 := a1, a2 := n, evt := evt, parts := ps, whole := whole }
  PlcStarts s i ch → q < 4 →
  (let g := entFrame (pageEnt s (a1 / 2 ^ 18)); let l := frameLoc g (a1 % 2 ^ 18); let b := memRead s.fast (fastKey l) 32;
    n = 1 → a1 < 2 ^ 44 → a1 % 32 = 0 → v.loaded = false → triggerUse s < 16384 → plcRuns s = true → s.stallFail = [] →
    s.stalled = [] → Clean s → InFast s (a1 / 2 ^ 18) → frameOpen s g (a1 % 2 ^ 18) 32 = true → locFits s g l = true →
    Does (.ephLoad i ch evt) s fun t =>
      planOf t q = { loaded := true, armed := false, ents := [{ b := b, isVoid := decide (ephCheck b ≠ 0) }] } ∧ others t
      ∧ held 0x10 [.ended (ephCheck b)] none t ∧ rd t (Csr.EPH_STAT q) = 2 ^ 31 + 1
      ∧ (∀ x ∈ t.ephResults, x.1 ≠ q) ∧ SameBut [.answers, .plcCh, .csr, .plans, .ephResults, .pages, .pageCache, .stks] s t
      ∧ OtherRegs (cmd :: Csr.EPH_STAT q :: tierRegs) s t)
  ∧ (v.loaded = true → a1 < 2 ^ 32 → Does (.ephArm i ch evt) s fun t =>
    planOf t q = { v with
      armed := true
      ents := v.ents.map (fun e => { e with
        ready := !e.isVoid
        done := false
        late := false
        runs := e.runs.map (fun r => { r with now := false }) }) }
    ∧ others t ∧ rd t (Csr.EPH_STEP q) = a1 ∧ rd t (Csr.EPH_FIRED q) = 0 ∧ held 0x11 [] (some 0) t
    ∧ SameBut [.answers, .plcCh, .csr, .plans] s t ∧ OtherRegs [cmd, Csr.EPH_STAT q, Csr.EPH_STEP q, Csr.EPH_FIRED q] s t)
  ∧ (v.armed = true → Does (.ephDisarm i ch evt) s fun t =>
    planOf t q = { v with armed := false, ents := v.ents.map (fun e => { e with ready := false }) } ∧ others t
    ∧ held 0x12 [] (some 0) t ∧ SameBut [.answers, .plcCh, .csr, .plans] s t ∧ OtherRegs [cmd, Csr.EPH_STAT q] s t)
  ∧ (v.loaded = true → v.armed = false → (∀ e ∈ v.ents, e.runs = []) → Does (.ephUnload i ch evt) s fun t =>
    planOf t q = {} ∧ others t ∧ held 0x13 [] (some 0) t ∧ SameBut [.answers, .plcCh, .csr, .plans] s t
    ∧ OtherRegs [cmd, Csr.EPH_STAT q] s t))
  ∧ (∀ (s : State) (ch : Fin 4) (c : PlcCmd) (r : Report),
  awake s = true → inResetBit s 24 = false → smGet none s.plcCh ch = some c → plcReport c = some r →
  (∀ x ∈ c.parts, x ≠ .todo) → c.op < 0x10 ∨ c.whole.isSome = true →
  Does (.plcCmdDone ch) s fun t => ∃ u, smGet none u.plcCh ch = none ∧ (∀ j, j ≠ ch.val → smGet none u.plcCh j = smGet none s.plcCh j)
    ∧ rd u (Csr.PLC_CMD_STAT ch) = (r.status * 2 ^ 24 + r.firstFail * 2 ^ 16) % 2 ^ 64
    ∧ rd u (Csr.PLC_CMD_PREFIX ch) = r.pfx % 2 ^ 64 ∧ rd u (Csr.PLC_CMD_MAP ch) = r.map % 2 ^ 64
    ∧ SameBut [.answers, .plcCh, .csr] s u ∧ OtherRegs [Csr.PLC_CMD_STAT ch, Csr.PLC_CMD_PREFIX ch, Csr.PLC_CMD_MAP ch] s u
    ∧ t = if c.evt then raise u 76 0x05 (ch.val * 2 ^ 62 + c.op * 2 ^ 48 + r.status) r.pfx else u)
  ∧ (∀ (s : State) (q : Fin 4) (n : Nat) (v : EphEnt), let pl := planOf s q
  pl.ents[n]? = some v →
  (∀ g m rest, plcRuns s = true → s.triggers = (g, m) :: rest → (∀ r, r ≠ q.val → (planOf s r).armed = false) → pl.armed = true →
    pl.ents = [v] → v.ready = true → v.isVoid = false → v.late = false → v.done = false → ephGroup v.b = g → ephMarkerOf v.b = m →
    ephLead v.b ≠ 0 → ephPages v.b = 1 → InFast s (ephFirst v.b) → rd s (Csr.EPH_FIRED q) + 1 < 2 ^ 32 → Does .ephMarker s fun t =>
      t.triggers = rest ∧ (planOf t q).ents = [{ v with ready := false, runs := v.runs ++ [{}] }]
      ∧ rd t (Csr.EPH_FIRED q) = rd s (Csr.EPH_FIRED q) + 1 ∧ SameBut [.triggers, .plans, .csr] s t
      ∧ OtherRegs [Csr.EPH_FIRED q] s t)
  ∧ (let c := ephCore v.b; let u := fld s (Csr.CORE_CFG (c / 24) (c % 24)) 9 8;
    plcAlive s = true → ephTarget v.b = 1 → (∃ r ∈ v.runs, r.pushed = false) → (strmOf (coreOf s c) u).queue.length < 16 →
    works s (c / 24) = true → Does (.ephDescPush q n) s fun t =>
      (strmOf (coreOf t c) u).queue = (strmOf (coreOf s c) u).queue ++ [.desc (ephDescriptor v.b) (some (q.val, n))]
      ∧ OtherCores c s t ∧ (planOf t q).ents[n]? = some { v with runs := pushRun v.runs } ∧ SameBut [.plans, .cores] s t)
  ∧ (∀ r rest, plcAlive s = true → v.runs = r :: rest → ephTarget v.b = 0 → bit (fieldAt v.b 0 4) 20 = false →
    (∀ k, k < ephPages v.b → smGet 0 r.pages k = 0 ∧ InFast s (ephFirst v.b + k)) → Does (.ephEntryComplete q n) s fun t =>
      (planOf t q).ents[n]? = some { v with runs := rest, done := v.done || r.now } ∧ SameBut [.plans] s t)
  ∧ (∀ r rest, plcAlive s = true → v.runs = r :: rest → ephTarget v.b = 1 → r.pushed = true → bit (fieldAt v.b 0 4) 20 = false →
    s.ephResults = [(q.val, n, 0)] → Does (.ephEntryComplete q n) s fun t =>
      (planOf t q).ents[n]? = some { v with runs := rest, done := v.done || r.now } ∧ t.ephResults = []
      ∧ SameBut [.plans, .ephResults] s t))

/-! ### Near-bank units -/

/-- R222 to R224, R228 to R230: a unit acquires, fences and releases a page, and a burst of its banks is granted, ends and is
pre-empted. -/
def Obligations.UnitPagesAndBursts : Prop := ∀ (s : State) (n : Fin 48) (p : Nat), let v := nbuOf s n
  let r := stkOf s (n.val / 4); let k := n.val % 4
  let other (t : State) : Prop := ∀ j, j ≠ n.val / 4 → stkOf t j = stkOf s j
  (∀ sec : W64, nbuWorks s n = true → plcTakes s = true → mayPin s p = true → holderCount s p < 255 → InFast s p → p < 2 ^ 26 →
    Does (.nbuPageAcquire n p sec) s fun t =>
      HoldsMore s p 1 t ∧ nbuOf t n = { v with held := p :: v.held } ∧ OtherNbus n s t
      ∧ (let e := pageEnt s p;
         if sec = 0 ∨ e.state = .fastHomed then pageEnt t p = e
         else pageEnt t p = { e with dirty := e.dirty ||| sec.toNat, state := .cachedDirty })
      ∧ (∀ q, q ≠ p → HeatOnly s t q) ∧ SameBut [.holders, .nbus, .pages, .pageCache, .csr] s t
      ∧ OtherRegs [Csr.PLC_MISSES, Csr.GLB_STAT_OVF] s t)
  ∧ (p ∈ v.held → Does (.nbuFence n p) s fun t =>
    (∀ c l, smGet none (smGet [] t.dcache c) l = if c < 4 ∧ l / 2 ^ 18 = p then none else smGet none (smGet [] s.dcache c) l)
    ∧ SameBut [.dcache] s t)
  ∧ (p ∈ v.held → Does (.nbuPageRelease n p) s fun t =>
    (∀ q, smGet 0 t.holders q = smGet 0 s.holders q - if q = p then 1 else 0) ∧ nbuOf t n = { v with held := v.held.erase p }
    ∧ OtherNbus n s t ∧ SameBut [.holders, .nbus] s t)
  ∧ (∀ banks : List (Fin 32), nbuWorks s n = true → stkOpen s (n.val / 4) = true → banks ≠ [] →
    (banks.map (·.val)).eraseDups.length ≤ 8 → smGet [] r.bursts k = [] →
    (∀ b ∈ banks, ∀ j, j < 8 → smGet 0 r.owed ((8 * k + j) * 64 + b.val) < (postponeMax s (n.val / 4) : Int)) →
    Does (.burstGrant n banks) s fun t => (let u := stkOf t (n.val / 4);
      smGet [] u.bursts k = (banks.map (·.val)).eraseDups ∧ (∀ j, j ≠ k → smGet [] u.bursts j = smGet [] r.bursts j)
      ∧ u = { r with bursts := u.bursts }) ∧ other t ∧ SameBut [.stks] s t)
  ∧ (smGet [] r.bursts k ≠ [] → Does (.burstEnd n) s fun t => (let u := stkOf t (n.val / 4);
      smGet [] u.bursts k = [] ∧ (∀ j, j ≠ k → smGet [] u.bursts j = smGet [] r.bursts j) ∧ k ∉ u.preempt
      ∧ (∀ o ∈ u.openRow, ¬(o.1 / 512 = k ∧ o.1 % 64 ∈ smGet [] r.bursts k))
      ∧ u = { r with bursts := u.bursts, preempt := u.preempt, openRow := u.openRow }) ∧ other t ∧ SameBut [.stks] s t)
  ∧ (let a := Csr.NBU_PREEMPT (n / 4) (n % 4); k ∈ r.preempt → smGet [] r.bursts k ≠ [] → rd s a + 1 < 2 ^ 32 - 1 →
    Does (.burstPreempt n) s fun t => smGet [] (stkOf t (n.val / 4)).bursts k = [] ∧ k ∉ (stkOf t (n.val / 4)).preempt
      ∧ rd t a = rd s a + 1 ∧ other t ∧ SameBut [.stks, .csr] s t ∧ OtherRegs [a] s t)

/-- R235 to R238, R244 to R246: a row arrives against a credit; the first row is applied to its tile, fails its checks, or parks
behind an older one; a parked row whose page was given up ends; an ended row is answered. -/
def Obligations.RowsOfUnits : Prop := ∀ (s : State) (n : Fin 48), let v := nbuOf s n
  let acc := flag s (Csr.NBU_CTRL (n / 4) (n % 4)) 0; let park := Csr.NBU_PARK (n / 4) (n % 4)
  (∀ row, let b := bytesAt row 0 400; awake s = true → inResetBit s (4 + n.val / 4) = false →
    ((n.val, b) ∈ s.rowsInFlight → Does (.nbuRowReceive n row) s fun t =>
      nbuOf t n = { v with rowq := v.rowq ++ [{ raw := b }] } ∧ t.rowsInFlight = s.rowsInFlight.erase (n.val, b)
      ∧ OtherNbus n s t ∧ SameBut [.nbus, .rowsInFlight] s t)
    ∧ ((n.val, b) ∉ s.rowsInFlight → 0 < v.credits → Does (.nbuRowReceive n row) s fun t =>
      nbuOf t n = { v with rowq := v.rowq ++ [{ raw := b }], credits := v.credits - 1 } ∧ OtherNbus n s t ∧ SameBut [.nbus] s t)
    ∧ ((n.val, b) ∉ s.rowsInFlight → v.credits = 0 → Does (.nbuRowReceive n row) s fun t =>
      t = raise s (96 + n.val) 0x04 (rBinding b * 2 ^ 52 + rTile b) (rStep b)))
  ∧ (∀ r rest p, let b := r.raw; let bind := smGet [] v.binds (rBinding b); let prog := smGet [] v.progs (bindSlot bind)
    let ops := rowOperands prog bind b; let a := stampLta bind (rTile b); let x0 := parseStamp (ltaBytes s a 16)
    let vals := loadStreams s n bind b (loadsOf prog); let es := rowEdits s n bind b vals.2.2
    let x : Stamp := if serial 32 (rStep b) x0.step = .later then ⟨rStep b, rBucket b, false, 0⟩ else x0
    let m := x.map ||| 2 ^ rRow b; let full := decide (m = 2 ^ 64 - 1)
    let st : Edit := (a, stampBytes ⟨x.step, x.bucket, full && (transOf bind).isEmpty, m⟩)
    v.rowq = r :: rest → r.parked = false → rowCheck bind b = 0 → bindProt bind = false → v.uncovered = [] →
    UnitPage s n p (ops.map (·.1)) → a % 16 = 0 → vals.2.1 = 0 → (∀ l ∈ editLines es, l / 2 ^ 18 = p) →
    serial 32 (rStep b) x0.step = .later ∨ (serial 32 (rStep b) x0.step = .equal ∧ x0.bucket = rBucket b ∧
      bit x0.map (rRow b) = false) →
    (placedLines es (some st)).length ≤ 65536 → rd s (Csr.NBU_ROWS (n / 4) (n % 4)) + 1 < 2 ^ 64 →
    Does (.nbuRowApply n) s fun t =>
      Placed s n es (some st) t ∧ HoldsMore s p 1 t
      ∧ nbuOf t n = { v with
                      rowq := rest
                      credits := if acc then v.credits + 1 else v.credits
                      works := v.works ++ [{ raw := bytesAt b 0 12, bind := bind, grps := [v.nextGrp],
                                             needT := full && !(transOf bind).isEmpty, pages := [p] }]
                      commit := (nbuOf t n).commit
                      nextGrp := v.nextGrp + 1 }
      ∧ rd t (Csr.NBU_ROWS (n / 4) (n % 4)) = rd s (Csr.NBU_ROWS (n / 4) (n % 4)) + 1 ∧ (∀ q, HeatOnly s t q) ∧ OtherNbus n s t
      ∧ SameBut (.nbus :: .holders :: .dcache :: readParts) s t ∧ OtherRegs (Csr.NBU_ROWS (n / 4) (n % 4) :: tierRegs) s t)
  ∧ (∀ r rest, let st := rowCheck (smGet [] v.binds (rBinding r.raw)) r.raw; let a := Csr.NBU_RESIDUE (n / 4) (n % 4)
    v.rowq = r :: rest → r.parked = false → nbuWorks s n = true → st ≠ 0 → rd s a + 1 < 2 ^ 32 - 1 → Does (.nbuRowApply n) s fun t =>
      nbuOf t n = { v with rowq := rest, works := v.works ++ [{ raw := bytesAt r.raw 0 12, status := st, entry := true }] }
      ∧ rd t a = rd s a + (if st = 0x06 then 1 else 0) ∧ OtherNbus n s t ∧ SameBut [.nbus, .csr] s t ∧ OtherRegs [a] s t)
  ∧ (∀ q r rest, v.rowq = q :: r :: rest → q.parked = true → r.parked = false → rKey q.raw = rKey r.raw → nbuWorks s n = true →
    parkedRows v < 256 → rd s park + 1 < 2 ^ 64 → Does (.nbuRowApply n) s fun t =>
      nbuOf t n = { v with rowq := q :: { r with parked := true } :: rest } ∧ rd t park = rd s park + 1 ∧ OtherNbus n s t
      ∧ SameBut [.nbus, .csr] s t ∧ OtherRegs [park] s t)
  ∧ (∀ r p, let k := engKey 3 n p; let st := smGet 0 s.stallFail k
    nbuWorks s n = true → v.rowq = [r] → r.parked = true → r.page = some p → st ≠ 0 → Does (.rowUnpark n) s fun t =>
      nbuOf t n = { v with rowq := [], works := v.works ++ [{ raw := bytesAt r.raw 0 12, status := st, entry := true }] }
      ∧ (∀ j, smGet 0 t.stallFail j = if j = k then 0 else smGet 0 s.stallFail j)
      ∧ t.stalled = s.stalled.filter (fun x => x.req.isSome || x.key ≠ k) ∧ OtherNbus n s t
      ∧ SameBut [.nbus, .stallFail, .stalled] s t)
  ∧ (∀ w rest, v.works = w :: rest → w.needT = false → grpsOpen v w.grps = false → awake s = true →
    inResetBit s (4 + n.val / 4) = false → Does (.nbuRowAnswer n) s fun t =>
      t.rowAnswers = s.rowAnswers ++ [bytesAt w.raw 0 12 ++ toLE w.status 1 ++ [0, 0, 0]]
      ∧ nbuOf t n = { v with works := rest, credits := if w.entry && acc then v.credits + 1 else v.credits }
      ∧ (∀ q, smGet 0 t.holders q = smGet 0 s.holders q - w.pages.count q) ∧ OtherNbus n s t
      ∧ SameBut [.nbus, .holders, .rowAnswers] s t)

/-- R247 to R251, R393 to R398: a holder applies a delta and acknowledges it; the source's line then reads as written and goes to
its bank; deltas and marks are sent, and sent again; after a reset the retained lines hold their pages again. -/
def Obligations.DeltasAndCommit : Prop := ∀ (s : State) (n : Fin 48), let v := nbuOf s n
  let par := Csr.NBU_PAR_RETRY (n / 4) (n % 4); let work := nbuWorks s n = true
  (∀ d, let src := bits (fieldAt d 0 8) 57 46 * 64 + bits (fieldAt d 12 4) 5 0; let q := fieldAt d 8 4
    let a := bits (fieldAt d 16 8) 43 0 / 64 * 64; let hold := Csr.NBU_HOLD (n / 4) (n % 4)
    pgOn s = true → v.jrnl.length < 32768 → UnitPage s n (a / 2 ^ 18) [bits (fieldAt d 16 8) 43 0] →
    isMark s d = false → (smGet none v.hseq src = none ∧ v.hseq.length < 1024
      ∨ ∃ l, smGet none v.hseq src = some l ∧ q = (l + 1) % 2 ^ 32) → rd s hold + 1 < 2 ^ 64 → Does (.deltaReceive n d) s fun t =>
      LtaBecomes s a (xorBytes (lineOf s a) (bytesAt d 32 64)) t
      ∧ nbuOf t n = { v with hseq := smSet none v.hseq src (some q), jrnl := v.jrnl ++ [bytesAt d 0 96] }
      ∧ t.outbox = s.outbox ++ [relayMsg s (src / 64) 0x03
          (toLE q 4 ++ toLE (src % 64) 1 ++ toLE n.val 1 ++ toLE (selfDev s) 2 ++ toLE 0 8)]
      ∧ HoldsMore s 0 0 t ∧ rd t hold = rd s hold + 1 ∧ (∀ p, HeatOnly s t p) ∧ OtherNbus n s t
      ∧ SameBut (.nbus :: .outbox :: .holders :: .dcache :: writeParts) s t ∧ OtherRegs (hold :: tierRegs) s t)
  ∧ (∀ ack c, let q := fieldAt ack 0 4; let key := bits (fieldAt ack 6 2) 11 0 * 64 + bits (fieldAt ack 5 1) 5 0
    awake s = true → inResetBit s (4 + n.val / 4) = false → bits (fieldAt ack 4 1) 5 0 = n.val → v.commit = [c] → v.marks = [] →
    c.prot = true → c.key = key → c.acked = false → c.seq = some q → c.data.length = 64 → c.lta % 64 = 0 →
    FrameFits s (entFrame (pageEnt s (c.lta / 2 ^ 18))) → Does (.deltaAckReceive n ack) s fun t =>
      LtaBecomes s c.lta c.data t ∧ nbuOf t n = { v with commit := [{ c with acked := true }], groups := [],
                                                         resends := smSet 0 v.resends key 0 }
      ∧ OtherNbus n s t ∧ SameBut [.nbus, .fast, .fastMark] s t)
  ∧ (∀ c, v.commit = [c] → c.acked = true ∨ c.prot = false → awake s = true → stkRuns s (n.val / 4) = true →
    c.lta / 2 ^ 18 < 2 ^ 26 → hasFrame (pageEnt s (c.lta / 2 ^ 18)) = true → c.data.length = 64 → c.lta % 64 = 0 →
    FrameFits s (entFrame (pageEnt s (c.lta / 2 ^ 18))) → Does (.commitLineWrite n) s fun t =>
      LtaBecomes s c.lta c.data t ∧ nbuOf t n = { v with commit := [], restoring := false } ∧ OtherNbus n s t
      ∧ SameBut [.nbus, .fast, .fastMark, .stks, .csr] s t ∧ OtherRegs tierRegs s t)
  ∧ (∀ (dev : Nat) (h : Fin 48) c q, let key := dev * 64 + h.val; let k := smGet 0 v.resends key + 1
    work → v.commit = [c] → v.marks = [] → c.prot = true → c.key = key → c.acked = false → c.seq = some q →
    rd s par + 1 < 2 ^ 32 - 1 → Does (.deltaResend n dev h) s fun t => ∃ u,
      u.outbox = s.outbox ++ [relayMsg s dev 0x02 (lineRec s n c)] ∧ nbuOf u n = { v with resends := smSet 0 v.resends key k }
      ∧ rd u par = rd s par + 1 ∧ OtherNbus n s u ∧ SameBut [.nbus, .outbox, .csr] s u ∧ OtherRegs [par] s u
      ∧ t = if k = fld s (Csr.NBU_PAR (n / 4) (n % 4)) 31 28
            then raise u (96 + n.val) 0x02 (fieldAt (lineRec s n c) 16 8) q else u)
  ∧ (∀ (dev : Nat) (h : Fin 48) pa, let key := dev * 64 + h.val; let q := smGet 0 v.nextSeq key
    let r := deltaRec (selfDev s) (pgPar s * 2 ^ 18) q n pa (List.replicate 64 0); let del := Csr.NBU_DELTA (n / 4) (n % 4)
    work → smGet none v.lastPaddr key = some pa → smGet false v.sinceMark key = true → v.groups = [] → v.marks = [] →
    rd s del + 1 < 2 ^ 64 → Does (.markSend n dev h) s fun t =>
      t.outbox = s.outbox ++ [relayMsg s dev 0x02 r] ∧ rd t del = rd s del + 1
      ∧ nbuOf t n = { v with nextSeq := smSet 0 v.nextSeq key ((q + 1) % 2 ^ 32), sinceMark := smSet false v.sinceMark key false,
                             marks := [⟨key, q, r⟩] }
      ∧ OtherNbus n s t ∧ SameBut [.nbus, .outbox, .csr] s t ∧ OtherRegs [del] s t)
  ∧ (∀ c q, let p := c.lta / 2 ^ 18; work → v.restoring = true → v.held = [] → v.commit = [c] → v.marks = [] → c.prot = true →
    c.acked = false → c.seq = some q → Holdable s p → rd s par + 1 < 2 ^ 32 - 1 → Does (.nbuRetainedRestore n) s fun t =>
      HoldsMore s p 1 t ∧ nbuOf t n = { v with held := [p] } ∧ t.outbox = s.outbox ++ [relayMsg s (c.key / 64) 0x02 (lineRec s n c)]
      ∧ rd t par = rd s par + 1 ∧ (∀ q, HeatOnly s t q) ∧ OtherNbus n s t
      ∧ SameBut [.nbus, .outbox, .holders, .pages, .pageCache, .csr] s t ∧ OtherRegs (par :: tierRegs) s t)

/-- R231 to R233, R237, R242, R249, R252 to R255: what a unit's commands and the transposition of a tile do, and how a command
ends. -/
def Obligations.UnitCommands : Prop := ∀ (s : State) (n : Fin 48) (i : Initiator) (evt : Bool), let v := nbuOf s n
  let a (k : Nat) : Nat := rd s (Csr.NBU_CMD_ARG (n / 4) (n % 4) k); let cr := Csr.NBU_CMD (n / 4) (n % 4)
  let cmd (op : Nat) : NCmd := { op := op, a0 := a 0, a1 := a 1, a2 := a 2, evt := evt }
  let quiet (l : List Part) (t : State) : Prop :=
    (∀ q, HeatOnly s t q) ∧ OtherNbus n s t ∧ SameBut (.nbus :: l) s t ∧ OtherRegs (cr :: tierRegs) s t
  let dense (c : NCmd) : List Nat × List (List Nat) := (let b := c.job; let w := elemW (jXfmt b);
    if jKind b = 2 then
      (let k := 64 * jN b; let xs := (elemsOf (ltaBytes s (jX b) (jBatch b * k * w)) (8 * w)).map (loadElem (jXfmt b));
       ((countUp 0 k).map (fun r => 64 * elemW (jAfmt b) * r), (countUp 0 (jBatch b)).map (fun x => (xs.drop (x * k)).take k)))
    else
      (let ws := elemsOf (ltaBytes s (jX b) (jN b * if bit (fieldAt b 0 4) 10 then 8 else 4)) 32;
       ((ws.take (jN b)).map (fun r => 64 * elemW (jAfmt b) * r),
        [if bit (fieldAt b 0 4) 10 then ws.drop (jN b) else (ws.take (jN b)).map (fun _ => 0x3F80_0000)])))
  (NbuStarts s i n →
    (a 0 < 16 → ReadsNow s (a 1) 256 → progBad (elemsOf (ltaBytes s (a 1) 256) 32) = false → Does (.progLoad i n evt) s fun t =>
      nbuOf t n = { v with progs := smSet [] v.progs (a 0) (elemsOf (ltaBytes s (a 1) 256) 32),
                           cmd := some { cmd 0x01 with whole := some 0 } } ∧ quiet readParts t)
    ∧ (let b := ltaBytes s (a 1) 128; a 0 < 4096 → ReadsNow s (a 1) 128 → bindBad v n b = false → Does (.bindLoad i n evt) s fun t =>
      nbuOf t n = { v with binds := smSet [] v.binds (a 0) b, cmd := some { cmd 0x02 with parts := [.ended 0] } }
      ∧ quiet readParts t)
    ∧ (let b := smGet [] v.binds (a 0); a 0 < 4096 → b ≠ [] → Does (.bindClear i n evt) s fun t =>
      nbuOf t n = { v with binds := smSet [] v.binds (a 0) (toLE (fieldAt b 0 4 % 2 ^ 31) 4 ++ b.drop 4),
                           cmd := some { cmd 0x03 with parts := [.ended 0] } }
      ∧ OtherNbus n s t ∧ SameBut [.nbus, .csr] s t ∧ OtherRegs [cr] s t)
    ∧ (let b := ltaBytes s (a 1) 64; ReadsNow s (a 1) 64 → jobBad n b = false → Does (.job i n evt) s fun t =>
      nbuOf t n = { v with cmd := some { cmd 0x04 with job := b, parts := List.replicate (jobParts b) .todo } } ∧ quiet readParts t)
    ∧ (∀ k p, let b := smGet [] v.binds (a 0); let sa := stampLta b (a 1); let step := (parseStamp (ltaBytes s sa 16)).step
      let want := rederive s n b step (a 1) k; let got := loadTile s n (streamOf b k) step (a 1) (countUp 0 64)
      let x := tileMiss want.2.2 got.2.2
      a 0 < 4096 → a 1 < bindTiles b → a 2 = 1 → bindValid b = true →
      (countUp 0 (bindStreams b)).filter (fun j => (streamOf b j).derived || decide ((streamOf b j).kind = 2)) = [k] →
      UnitPage s n p (sa :: (auditOperands b step (a 1) false [k]).map (·.1)) → sa % 16 = 0 → want.2.1 = 0 → got.2.1 = 0 →
      Does (.audit i n evt) s fun t =>
        nbuOf t n = { v with cmd := some { cmd 0x05 with parts := [.ended 0], miss := x.1, first := x.2.map (fun e => (a 1, k, e)) } }
        ∧ HoldsMore s p 0 t ∧ quiet (.holders :: readParts) t)
    ∧ (∀ p, let b := smGet [] v.binds (a 0); let sa := stampLta b (a 1); let y := parseStamp (ltaBytes s sa 16)
      let es := transEdits s n b y.step (a 1) (transOf b); let st : Edit := (sa, stampBytes { y with tdone := true })
      a 0 < 4096 → a 1 < bindTiles b → a 2 = 1 → bindValid b = true → bindProt b = false →
      UnitPage s n p ((transOperands b y.step (a 1)).map (·.1)) → sa % 16 = 0 → es.2.1 = 0 →
      (∀ l ∈ editLines es.2.2, l / 2 ^ 18 = p) → (placedLines es.2.2 (some st)).length ≤ 65536 → Does (.transpose i n evt) s fun t =>
        Placed s n es.2.2 (some st) t ∧ HoldsMore s p 1 t
        ∧ nbuOf t n = { v with commit := (nbuOf t n).commit, nextGrp := v.nextGrp + 1,
                               cmd := some { cmd 0x06 with parts := [.ended 0], grps := [v.nextGrp], pages := [p] } }
        ∧ quiet (.holders :: .dcache :: readParts) t)
    ∧ Does (.seqReset i n evt) s fun t =>
      nbuOf t n = { v with commit := [], groups := [], nextSeq := [], lastPaddr := [], sinceMark := [], resends := [], marks := [],
                           uncovered := [], hseq := [], jrnl := [], cmd := some { cmd 0x07 with whole := some 0 } }
      ∧ OtherNbus n s t ∧ SameBut [.nbus, .csr] s t ∧ OtherRegs [cr] s t)
  ∧ (∀ w rest p, let b := w.bind; let t0 := rTile w.raw; let sa := stampLta b t0; let y := parseStamp (ltaBytes s sa 16)
    let es := transEdits s n b (rStep w.raw) t0 (transOf b); let st : Edit := (sa, stampBytes { y with tdone := true })
    v.works = w :: rest → w.needT = true → bindProt b = false → UnitPage s n p ((transOperands b (rStep w.raw) t0).map (·.1)) →
    sa % 16 = 0 → es.2.1 = 0 → (∀ l ∈ editLines es.2.2, l / 2 ^ 18 = p) → (placedLines es.2.2 (some st)).length ≤ 65536 →
    Does (.transposeTile n) s fun t =>
      Placed s n es.2.2 (some st) t ∧ HoldsMore s p 1 t
      ∧ nbuOf t n = { v with commit := (nbuOf t n).commit, nextGrp := v.nextGrp + 1,
                             works := { w with needT := false, grps := w.grps ++ [v.nextGrp], pages := w.pages ++ [p] } :: rest }
      ∧ quiet (.holders :: .dcache :: readParts) t)
  ∧ (∀ (c : NCmd) k p, let b := c.job; let wx := elemW (jXfmt b); let fy := jConv b / 16; let wy := elemW fy
    let lx := qlin (jX b) (64 * k * wx); let ly := qlin (jY b) (64 * k * wy)
    let ys := ((elemsOf (ltaBytes s lx (64 * wx)) (8 * wx)).zip (elemsOf (ltaBytes s ly (64 * wy)) (8 * wy))).map (fun e =>
      (convElem (jConv b) (dec32 (ffma (fieldAt b 32 4) (loadElem (jXfmt b) e.1)
        (fmul (fieldAt b 36 4) (loadElem fy e.2))))).1)
    let es : List Edit := [(ly, packElems (8 * wy) ys)]
    v.cmd = some c → c.op = 0x04 → b ≠ [] → firstTodo c.parts 0 = some k → jKind b = 1 → jProt b = false →
    UnitPage s n p [lx, ly] → lx % 2 ^ 18 + 64 * wx ≤ 2 ^ 18 → ly % 2 ^ 18 + 64 * wy ≤ 2 ^ 18 → 0 < wx → 0 < wy →
    Does (.jobPart n) s fun t =>
      Placed s n es none t ∧ HoldsMore s p 1 t
      ∧ nbuOf t n = { v with commit := (nbuOf t n).commit, nextGrp := v.nextGrp + 1,
                             cmd := some { c with parts := setPart c.parts k (.ended 0), grps := c.grps ++ [v.nextGrp],
                                                  pages := c.pages ++ [p] } }
      ∧ quiet (.answers :: .holders :: .dcache :: readParts) t)
  ∧ (∀ (c : NCmd) p, let b := c.job; let d := dense c; let w := elemW (jAfmt b)
    let nx := if jKind b = 2 then jBatch b * (64 * jN b) * elemW (jXfmt b) else jN b * if bit (fieldAt b 0 4) 10 then 8 else 4
    let rows := d.1.map (fun o => (elemsOf (ltaBytes s (qlin (jA b) o) (64 * w)) (8 * w)).map (loadElem (jAfmt b)))
    let ys := packElems (fmtBits (jConv b / 16)) ((d.2.map (fun ws => (countUp 0 64).map (fun j =>
      (convElem (jConv b) (dec32 (dotFrom 0 (ws.zip (column rows j))))).1))).flatten)
    v.cmd = some c → c.op = 0x04 → b ≠ [] → c.parts = [.todo] → jKind b = 2 ∨ jKind b = 3 → d.1 ≠ [] → 0 < w →
    UnitPage s n p (d.1.map (fun o => qlin (jA b) o)) → (∀ o ∈ d.1, qlin (jA b) o % 2 ^ 18 + 64 * w ≤ 2 ^ 18) →
    jX b / 2 ^ 18 = p → jY b / 2 ^ 18 = p → ReadsNow s (jX b) nx → ReadsNow s (jY b) ys.length → Does (.jobPart n) s fun t =>
      LtaBecomes s (jY b) ys t ∧ HoldsMore s p 0 t ∧ nbuOf t n = { v with cmd := some { c with parts := [.ended 0] } }
      ∧ quiet (.answers :: .holders :: writeParts) t)
  ∧ (∀ (c : NCmd) r, nbuWorks s n = true → v.cmd = some c → c.pages = [] → grpsOpen v c.grps = false → c.op ≠ 0x05 →
    (c.whole = none → c.op ∈ [0x02, 0x03, 0x06] ∨ c.op = 0x04 ∧ c.job ≠ []) → (∀ x ∈ c.parts, x ≠ .todo) →
    (match c.whole with | some st => some (wholeReport st) | none => (partStatuses c.parts).map partReport) = some r →
    let st := Csr.NBU_CMD_STAT (n / 4) (n % 4); let pf := Csr.NBU_CMD_PREFIX (n / 4) (n % 4)
    let mp := Csr.NBU_CMD_MAP (n / 4) (n % 4)
    Does (.nbuCmdDone n) s fun t => ∃ u, nbuOf u n = { v with cmd := none } ∧ OtherNbus n s u
      ∧ rd u st = (r.status * 2 ^ 24 + r.firstFail * 2 ^ 16) % 2 ^ 64 ∧ rd u pf = r.pfx % 2 ^ 64 ∧ rd u mp = r.map % 2 ^ 64
      ∧ SameBut [.answers, .nbus, .csr] s u ∧ OtherRegs [st, pf, mp] s u
      ∧ t = if c.evt then raise u (96 + n.val) 0x01 (c.op * 2 ^ 48 + r.status) r.pfx else u)

/-! ### Gradient relay and rebuild channel -/

/-- R285 to R290, R402 to R404: producer indices, and what OPEN, SEND, CANCEL, RELEASE and rebuild entries do once taken. -/
def Obligations.RelayEntries : Prop := ∀ (s : State) (e : Fin 2) (q : Fin 16) (b : Bytes), let v := rlyOf s e
  let ci := Csr.RLY_SQ_CI e q; let rci := Csr.RLY_RB_CI e
  (∀ (i : Initiator) (x : W32), let pi := Csr.RLY_SQ_PI e q; Access s i pi true →
    ringCount (x.toNat % 2 ^ 17) (fld s ci 16 0) ≤ 2 ^ fld s (Csr.RLY_SQ_SIZE e q) 4 0 → Does (.rlySqPiWrite i e q x) s fun t =>
      fld t pi 16 0 = x.toNat % 2 ^ 17 ∧ SameBut [.csr] s t ∧ OtherRegs [pi] s t)
  ∧ (∀ (i : Initiator) (x : W32), let pi := Csr.RLY_SQ_PI e q; Access s i pi true →
    2 ^ fld s (Csr.RLY_SQ_SIZE e q) 4 0 < ringCount (x.toNat % 2 ^ 17) (fld s ci 16 0) → Does (.rlySqPiWrite i e q x) s fun t =>
      t = violation s 3 true i pi)
  ∧ (∀ (i : Initiator) (x : W32), let pi := Csr.RLY_RB_PI e; Access s i pi true →
    ringCount (x.toNat % 2 ^ 17) (fld s rci 16 0) ≤ 2 ^ fld s (Csr.RLY_RB_SIZE e) 4 0 → Does (.rlyRbPiWrite i e x) s fun t =>
      fld t pi 16 0 = x.toNat % 2 ^ 17 ∧ SameBut [.csr] s t ∧ OtherRegs [pi] s t)
  ∧ (let dl := ltaBytes s (oDlist b) (16 * oTiles b); let rf := ltaBytes s (oReft b) (64 * oTiles b)
    SqHas s e q b → RlyIdle v → eKind b = 1 → openCheck s e b = 0 → ReadsNow s (oDlist b) (16 * oTiles b) →
    ReadsNow s (oReft b) (64 * oTiles b) → (countUp 0 (oTiles b)).any (dlBad dl) = false → Does (.rlyOpen e q) s fun t =>
      rlyOf t e = { v with open_ := [{ entry := b, dlist := dl, reft := rf }] } ∧ Takes s ci t ∧ OtherRlys e s t
      ∧ (∀ p, HeatOnly s t p) ∧ SameBut (.rlys :: readParts) s t ∧ OtherRegs (ci :: tierRegs) s t)
  ∧ (let xs := ltaBytes s (sXaddr b) 64; let ms := ltaBytes s (sMaddr b) 4096
    let r := rlyHead 1 (selfDev s) (sSource b) (b01 (sSub b)) 0 (sFirst b) (eStep b) (eTag b) (2 ^ 64 - 1) ++ denseRows (2 ^ 64 - 1) xs ms
    let tx := Csr.RLY_TX_BYTES e
    SqHas s e q b → RlyIdle v → eKind b = 2 → sendCheck e b = 0 → sCount b = 1 → sSparse b = false → ReadsNow s (sXaddr b) 64 →
    ReadsNow s (sMaddr b) 4096 → rd s tx + 4192 < 2 ^ 64 → Does (.rlySend e q) s fun t =>
      rlyOf t e = { v with
        next := v.next + 1
        sends := [{ id := v.next, entry := b, parts := [none], recs := [⟨0, 2 ^ 64 - 1, some r, 1, false⟩] }] }
      ∧ t.outbox = s.outbox ++ [relayMsg s (sDev b) 0x01 r] ∧ rd t tx = rd s tx + 4192 ∧ Takes s ci t ∧ OtherRlys e s t
      ∧ (∀ p, HeatOnly s t p) ∧ SameBut (.rlys :: .outbox :: readParts) s t ∧ OtherRegs (ci :: tx :: tierRegs) s t)
  ∧ (∀ k, SqHas s e q b → eKind b = 3 → commonBad e b = false → fieldAt b 10 46 = 0 → Silent b → Silent k.entry → eKind k.entry = 1 →
    v.sends = [] → v.rbs = [] → v.fins = [] → v.dlv = [] → v.open_ = [k] → eTag k.entry = eTag b → eStep k.entry = eStep b →
    k.rows = [] → k.senders = [] → oStats k.entry = 0 → oLog k.entry = 0 → 0 < oTiles k.entry → Does (.rlyCancel e q) s fun t =>
      ClosesAll s e k 0x0E (ci :: tierRegs) readParts { v with next := v.next + 1 } t)
  ∧ (∀ k x r st again, let redo := Csr.RLY_REDELIVER e
    SqHas s e q b → eKind b = 4 → commonBad e b = false → fieldAt b 10 46 = b01 again → Silent b → v.sends = [] →
    v.rbs = [] → v.fins = [] → v.dlv = [] → v.open_ = [k] → eTag k.entry = eTag b → eStep k.entry = eStep b → k.rows = [(x, r)] →
    r.st = .held st → 1 < oTiles k.entry → st ≠ 0 → rd s redo + 1 < 2 ^ 32 - 1 → Does (.rlyRelease e q) s fun t =>
      rlyOf t e = { v with
        next := v.next + 1
        dlv := if again then [(eTag b, x)] else []
        open_ := [{ k with rows := [(x, { r with st := if again then .ready else .ended st })] }] }
      ∧ rd t redo = rd s redo + b01 again ∧ Takes s ci t ∧ OtherRlys e s t ∧ SameBut (.rlys :: readParts) s t
      ∧ OtherRegs (ci :: redo :: tierRegs) s t)
  ∧ (let con := rbContrib s b; let tok (k : Nat) : Nat := (2 * (v.next + 1 + k) + e) % 2 ^ 32
    let r (k : Nat) : Bytes := xpartRec (selfDev s) (tok k) k con []
    RlyAtWork s e → RingHas s 64 (Csr.RLY_RB_BASE e) (Csr.RLY_RB_SIZE e) (Csr.RLY_RB_PI e) rci b → rbCheck s b = 0 → RlyIdle v →
    v.xouts = [] → Does (.rebuildEntry e) s fun t =>
      rlyOf t e = { v with
        next := v.next + 65
        rbs := [⟨v.next, b, con, List.replicate 64 none⟩]
        xouts := (countUp 0 64).map (fun k => ⟨v.next, k, tok k, 1⟩) }
      ∧ t.outbox = s.outbox ++ (countUp 0 64).map (fun k => relayMsg s (xpartTo (r k)) 0x01 (r k)) ∧ Takes s rci t
      ∧ OtherRlys e s t ∧ SameBut (.rlys :: .outbox :: readParts) s t ∧ OtherRegs (rci :: tierRegs) s t)

/-- R294 to R303, R305: a contribution is added to its row and answered; a settled row is sent to its unit, is answered and ends; the
deadline passes, and the hard limit closes what is left. -/
def Obligations.RelayRows : Prop := ∀ (s : State) (e : Fin 2) (k : Bucket), let v := rlyOf s e; let tag := eTag k.entry
  let alone : Prop := v.sends = [] ∧ v.rbs = [] ∧ v.fins = [] ∧ v.open_ = [k]
  (∀ r x, let w := fieldAt r 0 4; let c := bits w 15 8; let b := 64 * bits w 5 0 + x; let r0 := rowOf k b
    let ms := (bytesAt (r.drop 32) 1 64).map mant; let X := fieldAt (r.drop 32) 0 1; let d := bits w 27 16
    let rx := Csr.RLY_RX_BYTES e; let el := Csr.RLY_ELEMS e
    RlyAtWork s e → alone → fieldAt r 8 2 = tag → tag % 2 = e → fieldAt r 4 4 = eStep k.entry → bit w 7 = false → bit w 6 = false →
    c < oNsrc k.entry → bits w 5 0 < oTiles k.entry → x < 64 → fieldAt r 16 8 = 2 ^ x → X ≠ 0xFF → r0.st = .filling →
    smGet none r0.takers c = none → (∃ o, o < oNsrc k.entry ∧ o ≠ c ∧ smGet false r0.taken o = false) →
    rd s rx + r.length < 2 ^ 64 → rd s el + 64 < 2 ^ 64 → rd s (Csr.RLY_NOTTAKEN e) < 2 ^ 32 →
    Does (.contribReceive e r) s fun t => ∃ r1,
      rlyOf t e = { v with
        open_ := [{ k with senders := (k.senders ++ [d]).eraseDups, rows := smSet {} k.rows b r1 }] }
      ∧ (∀ j, j < 64 → let z := fixElem (ms.getD j 0) ((X : Int) - rowRef k b + 20);
          smGet 0 r1.sum j = (if z.1.natAbs < 2 ^ 39 then smGet 0 r0.sum j + z.1 else smGet 0 r0.sum j)
          ∧ smGet 0 r1.res j = (if z.1.natAbs < 2 ^ 39 then (smGet 0 r0.res j + z.2) % 255 else smGet 0 r0.res j))
      ∧ r1 = { r0 with
        sum := r1.sum
        res := r1.res
        tooBig := r1.tooBig
        maxX := max r0.maxX X
        taken := smSet false r0.taken c true
        takers := smSet none r0.takers c (some ⟨false, d, false⟩)
        subs := smSet none r0.subs c none }
      ∧ t.outbox = s.outbox ++ [relayMsg s d 0x01 (answerRec r 0 0 0)] ∧ rd t rx = rd s rx + r.length ∧ rd t el = rd s el + 64
      ∧ OtherRlys e s t ∧ SameBut [.rlys, .outbox, .csr] s t ∧ OtherRegs [rx, el] s t)
  ∧ (∀ r st, let rx := Csr.RLY_RX_BYTES e
    RlyAtWork s e → RlyIdle v → fieldAt r 8 2 % 2 = e → smGet none v.closed (fieldAt r 8 2) = some (fieldAt r 4 4, st) →
    rd s rx + r.length < 2 ^ 64 → Does (.contribReceive e r) s fun t =>
      t.outbox = s.outbox ++ [relayMsg s (bits (fieldAt r 0 4) 27 16) 0x01 (answerRec r 5 0 st)] ∧ rd t rx = rd s rx + r.length
      ∧ SameBut [.outbox, .csr] s t ∧ OtherRegs [rx] s t)
  ∧ (works s 25 = true → alone → k.rows = [] → k.passed = false → oDeadline k.entry ≠ 0 → 0 < oTiles k.entry →
    Does (.bucketDeadline e tag) s fun t => ∃ u, rlyOf u e = { v with open_ := [{ k with passed := true }] } ∧ OtherRlys e s u
      ∧ SameBut [.rlys] s u ∧ t = raise u (77 + e) 0x05 (tagStep k.entry) (64 * oTiles k.entry))
  ∧ (works s 25 = true → alone → v.dlv = [] → k.rows = [] → k.senders = [] → oHard k.entry ≠ 0 → oStats k.entry = 0 →
    oLog k.entry = 0 → Silent k.entry → eKind k.entry = 1 → 0 < oTiles k.entry → Does (.bucketHardLimit e tag) s fun t =>
      ClosesAll s e k 0x05 [] [] v t)
  ∧ (∀ b n, let d := deliveryBytes k b; let y := nbuOf s n
    rlyUp s = true → plcRuns s = true → plcReady s = true → alone → v.dlv = [(tag, b)] → rowVerdict (rowOf k b) = 0 →
    rowUnit s k b = some n → 0 < y.credits → 1 < oTiles k.entry → k.rows.length ≤ 64 → Does (.rowDeliver e) s fun t =>
      t.rowsInFlight = s.rowsInFlight ++ [(n, d)] ∧ nbuOf t n = { y with credits := y.credits - 1 } ∧ OtherNbus n s t
      ∧ rlyOf t e = { v with
        dlv := []
        open_ := [{ k with rows := smSet {} k.rows b { rowOf k b with st := .sent, everSent := true } }] }
      ∧ OtherRlys e s t ∧ SameBut [.rlys, .nbus, .rowsInFlight] s t)
  ∧ (∀ a b, let rows := Csr.RLY_ROWS e
    rlyUp s = true → alone → v.dlv = [] → rBucket a = tag → tag % 2 = e → rStep a = eStep k.entry → answeredRow k a = some b →
    fieldAt a 12 1 = 0 → (∃ o ∈ bktRows k, o ≠ b ∧ rowEnded (rowOf k o) = false) → rd s rows + 1 < 2 ^ 64 →
    Does (.nbuAnswerReceive e a) s fun t =>
      rlyOf t e = { v with open_ := [{ k with rows := smSet {} k.rows b { rowOf k b with st := .ended 0 } }] }
      ∧ t.rowAnswers = s.rowAnswers.erase a ∧ rd t rows = rd s rows + 1 ∧ OtherRlys e s t
      ∧ SameBut [.rlys, .rowAnswers, .csr] s t ∧ OtherRegs [rows] s t)
  ∧ (∀ b, let redo := Csr.RLY_REDELIVER e
    rlyUp s = true → alone → v.dlv = [] → (rowOf k b).st = .sent → (∃ o ∈ bktRows k, o ≠ b ∧ rowEnded (rowOf k o) = false) →
    rd s redo + 1 < 2 ^ 32 - 1 → Does (.deliveryTimeout e tag b) s fun t =>
      rlyOf t e = { v with
        dlv := [(tag, b)]
        open_ := [{ k with rows := smSet {} k.rows b { rowOf k b with st := .ready } }] }
      ∧ rd t redo = rd s redo + 1 ∧ OtherRlys e s t ∧ SameBut [.rlys, .csr] s t ∧ OtherRegs [redo] s t)

/-- R293, R305 to R307, R404, R405: what answers, resends, dones and their times do to a SEND, and how a rebuilt sector travels. -/
def Obligations.RelaySenders : Prop := ∀ (s : State) (e : Fin 2) (a : Bytes), let v := rlyOf s e
  let tx := Csr.RLY_TX_BYTES e; let here : Prop := rlyUp s = true ∧ rlyOn s e = true ∧ recEngine a = e
  let one (x : RSend) : Prop := v.sends = [x] ∧ v.open_ = [] ∧ v.rbs = [] ∧ v.fins = [] ∧ x.parts = [none]
  let sends (x : RSend) (l : List CRec) (t : State) : Prop := rlyOf t e = { v with sends := [{ x with recs := l }] }
  let sent (x : RSend) (r : Bytes) (t : State) : Prop :=
    t.outbox = s.outbox ++ [relayMsg s (sDev x.entry) 0x01 r] ∧ rd t tx = rd s tx + r.length
  (∀ x r, here → one x → sendOf v a = some (x, 0) → x.recs = [r] → r.tile = 0 → r.bytes.isSome = true → r.waits = false → x.bad = [] →
    x.acked = [] → x.bstat = none → fieldAt a 24 1 = 0 → Does (.answerReceive e a) s fun t =>
      rlyOf t e = { v with
        sends := [{ x with recs := [], parts := [some 0], acked := [0],
                           notTaken := x.notTaken + (maskBits (fieldAt a 16 8)).length }] }
      ∧ OtherRlys e s t ∧ SameBut [.rlys] s t)
  ∧ (∀ x, let b := x.entry; let m := fieldAt a 16 8
    let r := rlyHead 1 (selfDev s) (sSource b) (b01 (sSub b)) 0 (sFirst b) (eStep b) (eTag b) m
      ++ denseRows m (ltaBytes s (sXaddr b) 64) (ltaBytes s (sMaddr b) 4096)
    here → one x → sendOf v a = some (x, 0) → x.recs = [] → sSparse b = false → ReadsNow s (sXaddr b) 64 →
    ReadsNow s (sMaddr b) 4096 → rd s tx + r.length < 2 ^ 64 → Does (.resendReceive e a) s fun t =>
      sends x [⟨0, m, some r, 1, false⟩] t ∧ sent x r t ∧ OtherRlys e s t ∧ (∀ p, HeatOnly s t p)
      ∧ SameBut (.rlys :: .outbox :: readParts) s t ∧ OtherRegs (tx :: tierRegs) s t)
  ∧ (∀ x, here → one x → (∀ r ∈ x.recs, r.bytes.isSome = true) → eTag x.entry = fieldAt a 8 2 → eStep x.entry = fieldAt a 4 4 →
    sDev x.entry = bits (fieldAt a 0 4) 27 16 → Does (.doneReceive e a) s fun t =>
      rlyOf t e = { v with sends := [{ x with bstat := some (fieldAt a 25 1) }] }
      ∧ t.outbox = s.outbox ++ [relayMsg s (sDev x.entry) 0x01 (rlyHead 5 (selfDev s) 0 0 0 0 (eStep x.entry) (eTag x.entry) 0)]
      ∧ OtherRlys e s t ∧ SameBut [.rlys, .outbox] s t)
  ∧ (here → RlyIdle v → Does (.doneAckReceive e a) s fun t =>
    rlyOf t e = { v with dones := v.dones.filter (fun d => ¬ (d.tag = fieldAt a 8 2 ∧ d.step = fieldAt a 4 4
                         ∧ d.dev = bits (fieldAt a 0 4) 27 16)) } ∧ OtherRlys e s t ∧ SameBut [.rlys] s t)
  ∧ (∀ x r bs, rlyUp s = true → one x → x.recs = [r] → r.bytes = some bs → r.waits = false → rd s tx + bs.length < 2 ^ 64 →
    r.sends < fld s (Csr.RLY_HOP e) 15 8 → Does (.rlyHopTimeout e 0) s fun t =>
      sends x [{ r with sends := r.sends + 1 }] t ∧ sent x bs t ∧ OtherRlys e s t ∧ SameBut [.rlys, .outbox, .csr] s t
      ∧ OtherRegs [tx] s t)
  ∧ (∀ x r bs, rlyUp s = true → one x → x.recs = [r] → r.bytes = some bs → r.waits = true → rd s tx + bs.length < 2 ^ 64 →
    Does (.rlyRetryTimer e 0) s fun t =>
      sends x [{ r with waits := false, sends := 1 }] t ∧ sent x bs t ∧ OtherRlys e s t ∧ SameBut [.rlys, .outbox, .csr] s t
      ∧ OtherRegs [tx] s t)
  ∧ (∀ n d, rlyUp s = true → RlyIdle v → v.dones[n]? = some d → d.sends + 1 < fld s (Csr.RLY_HOP e) 15 8 →
    Does (.doneRepeat e n) s fun t =>
      rlyOf t e = { v with dones := v.dones.set n { d with sends := d.sends + 1 } }
      ∧ t.outbox = s.outbox ++ [relayMsg s d.dev 0x01 (doneRec (selfDev s) d.step d.tag d.status)] ∧ OtherRlys e s t
      ∧ SameBut [.rlys, .outbox] s t)
  ∧ (∀ x, let b := x.entry; let c := x.probes.getD 0
    let r := rlyHead 1 (selfDev s) (sSource b) (b01 (sSub b)) 0 (sFirst b) (eStep b) (eTag b) (2 ^ 64 - 1)
      ++ denseRows (2 ^ 64 - 1) (ltaBytes s (sXaddr b) 64) (ltaBytes s (sMaddr b) 4096)
    rlyUp s = true → v.sends = [x] → v.open_ = [] → v.rbs = [] → v.fins = [] → x.parts = [some 0] → x.acked = [0] → x.recs = [] →
    x.bstat = none → sSparse b = false → c < fld s (Csr.RLY_HOP e) 15 8 → ReadsNow s (sXaddr b) 64 → ReadsNow s (sMaddr b) 4096 →
    rd s tx + 4192 < 2 ^ 64 → Does (.sendProbe e 0) s fun t =>
      rlyOf t e = { v with sends := [{ x with probes := some (c + 1) }] } ∧ sent x r t ∧ OtherRlys e s t ∧ (∀ p, HeatOnly s t p)
      ∧ SameBut (.rlys :: .outbox :: readParts) s t ∧ OtherRegs (tx :: tierRegs) s t)
  ∧ (let w := fieldAt a 0 4; let hop := bits w 15 12; let c := fieldAt a (16 + 8 * hop) 8; let p := bits c 25 0
    let k := fieldAt a 8 1 % 64
    let r := toLE (setBits (setBits w 7 0 0) 15 12 (hop + 1)) 4 ++ bytesAt a 4 156
      ++ xorBytes (bytesAt a 160 4096) (ltaBytes s (p * 2 ^ 18 + 4096 * k) 4096)
    rlyUp s = true → rlyOn s e = true → RlyIdle v → xpartBack a = false → bits c 37 26 = selfDev s → w % 256 = 0 →
    ReadsNow s (p * 2 ^ 18 + 4096 * k) 4096 → Does (.xpartReceive e a) s fun t =>
      t.outbox = s.outbox ++ [relayMsg s (xpartTo r) 0x01 r] ∧ (∀ p, HeatOnly s t p) ∧ SameBut (.outbox :: readParts) s t
      ∧ OtherRegs tierRegs s t)
  ∧ (∀ o x ext, let sec := Csr.RLY_RB_SECTORS e; let dst := rbDst x.entry % 2 ^ 44 + 4096 * o.sector
    rlyUp s = true → v.sends = [] → v.open_ = [] → v.fins = [] → v.xouts = [o] → v.rbs = [x] → x.id = o.ent → o.sector < 64 →
    x.parts = (List.replicate 64 (some 0)).set o.sector none → Silent x.entry → xpartBack a = true →
    fieldAt a 4 4 = o.token → o.token % 2 = e → fieldAt a 8 1 = o.sector → fieldAt a 0 4 % 256 = 0 →
    bits (rbDst x.entry) 57 46 = selfDev s → WritesNow s dst 4096 → rd s sec + 1 < 2 ^ 64 → Does (.xpartReturn e a ext) s fun t =>
      LtaBecomes s dst (bytesAt a 160 4096) t ∧ rlyOf t e = { v with xouts := [], rbs := [], next := v.next + 1 }
      ∧ rd t sec = rd s sec + 1 ∧ OtherRlys e s t ∧ (∀ p, HeatOnly s t p) ∧ SameBut (.rlys :: writeParts) s t
      ∧ OtherRegs (sec :: tierRegs) s t)
  ∧ (∀ o x, let tok := (2 * v.next + e) % 2 ^ 32; let r := xpartRec (selfDev s) tok o.sector x.con []
    rlyUp s = true → v.sends = [] → v.open_ = [] → v.fins = [] → v.xouts = [o] → v.rbs = [x] → x.id = o.ent → o.sector < 64 →
    x.parts = (List.replicate 64 (some 0)).set o.sector none → o.sends < fld s (Csr.RLY_HOP e) 15 8 →
    Does (.xpartTimeout e o.token) s fun t =>
      rlyOf t e = { v with xouts := [⟨o.ent, o.sector, tok, o.sends + 1⟩], next := v.next + 1 }
      ∧ t.outbox = s.outbox ++ [relayMsg s (xpartTo r) 0x01 r] ∧ OtherRlys e s t ∧ SameBut [.rlys, .outbox] s t)

/-! ### Media -/

/-- R315, R322, R333 to R341: entries are taken to the engines; an ingest job's frames and trailer are written and it completes;
CANCEL ends what is left; the shuffle engine writes one job for each sample held. -/
def Obligations.MediaJobs : Prop := ∀ (s : State) (r : Fin 8) (b : Bytes), let ci := Csr.MED_SQ_CI r
  (∀ (i : Initiator) (x : W32), let pi := Csr.MED_SQ_PI r; Access s i pi true →
    ringCount (x.toNat % 2 ^ 17) (fld s ci 16 0) ≤ 2 ^ fld s (Csr.MED_SQ_SIZE r) 4 0 → Does (.medSqPiWrite i r x) s fun t =>
      fld t pi 16 0 = x.toNat % 2 ^ 17 ∧ SameBut [.csr] s t ∧ OtherRegs [pi] s t)
  ∧ (∀ d e, MedHas s r b → idleEngine s = some e → eKind b = 1 → ingestCheck b ≠ 0 → Does (.ingest r d) s fun t =>
    medJob t e = some { ring := r, entry := b, whole := some (ingestCheck b) } ∧ OtherJobs e s t ∧ t.med.shuf = s.med.shuf
    ∧ Takes s ci t ∧ (∀ p, HeatOnly s t p) ∧ SameBut (.med :: readParts) s t ∧ OtherRegs (ci :: tierRegs) s t)
  ∧ (∀ d e, let p := ltaBytes s (mProfile b) 128
    let j : MedJob := { ring := r, entry := b, prof := p, clip := d, free := s.freeCtr, parts := List.replicate (mFrames b) none }
    let n := Csr.MED_DECODED; let y := Csr.MED_TS_RESYNC; let g := Csr.MED_DISC
    let ny := if mContainer b = 0 then d.resyncs else 0
    MedHas s r b → idleEngine s = some e → eKind b = 1 → ingestCheck b = 0 → ReadsNow s (mProfile b) 128 → profOk p = true →
    coefBad s (pfCoef p) = false → mStride b % 64 = 0 → frameBytes p ≤ mStride b → smWf {} s.pages = true → scratchStatus s e = 0 →
    (∀ x ∈ d.pictures, x.bad = false) → d.outsideLimits = false → rd s n + d.pictures.length < 2 ^ 64 →
    rd s y + ny < 2 ^ 32 - 1 → rd s g + (jobCands j).2 < 2 ^ 32 - 1 → rd s Csr.MED_BAD < 2 ^ 32 → Does (.ingest r d) s fun t =>
      medJob t e = some j ∧ OtherJobs e s t ∧ t.med.shuf = s.med.shuf ∧ rd t n = rd s n + d.pictures.length
      ∧ rd t y = rd s y + ny ∧ rd t g = rd s g + (jobCands j).2 ∧ Takes s ci t ∧ (∀ p, HeatOnly s t p)
      ∧ SameBut (.med :: .freeCtr :: readParts) s t ∧ OtherRegs (ci :: n :: y :: g :: tierRegs) s t)
  ∧ (∀ (e : Fin 32) j k st ext, works s 40 = true → medJob s e = some j → j.whole = none → nextFrame j.parts = some k →
    jobPick j (jobCands j).1 k = .inl st → Does (.ingestFrame e ext) s fun t =>
      medJob t e = some { j with parts := j.parts.set k (some st) } ∧ OtherJobs e s t ∧ t.med.shuf = s.med.shuf ∧ SameBut [.med] s t)
  ∧ (∀ (e : Fin 32) j k c pic blk fl ext, let dst := mDst j.entry % 2 ^ 44 + k * mStride j.entry; let n := Csr.MED_FRAMES
    let f := Csr.MED_CONV_FLAGS
    works s 40 = true → medJob s e = some j → j.whole = none → nextFrame j.parts = some k →
    jobPick j (jobCands j).1 k = .inr (c, false) → j.clip.pictures[c.pic]? = some pic →
    frameOf j.prof (mCodec j.entry) (medFree j 2 % 1024) (tapsOf s (pfCoef j.prof)) pic c = (0, blk, fl) →
    bits (mDst j.entry) 57 46 = selfDev s → WritesNow s dst blk.length → rd s n + 1 < 2 ^ 64 → Does (.ingestFrame e ext) s fun t =>
      LtaBecomes s dst blk t ∧ medJob t e = some { j with parts := j.parts.set k (some 0) } ∧ OtherJobs e s t
      ∧ t.med.shuf = s.med.shuf ∧ rd t n = rd s n + 1 ∧ rd t f = rd s f ||| flagsNat fl % 8 ∧ (∀ p, HeatOnly s t p)
      ∧ SameBut (.med :: writeParts) s t ∧ OtherRegs (n :: f :: tierRegs) s t)
  ∧ (∀ (e : Fin 32) j ext, let r := partReport (j.parts.map (fun p => p.getD 0)); let a := mTrailer j.entry
    awake s = true → inResetBit s 40 = false → medJob s e = some j → j.whole = none → j.parts.all (·.isSome) = true →
    eKind j.entry = 1 → mComp j.entry = 0 → eSbEn j.entry = false → a ≠ 0 → fabTensor a = true → bits a 57 46 = selfDev s →
    WritesNow s (a % 2 ^ 44) 64 → Does (.ingestJobDone e ext) s fun t => ∃ u,
      LtaBecomes s (a % 2 ^ 44) (trailerBytes s j.entry r) u ∧ medJob u e = none ∧ OtherJobs e s u ∧ u.med.shuf = s.med.shuf
      ∧ (∀ p, HeatOnly s u p) ∧ SameBut (.med :: writeParts) s u ∧ OtherRegs tierRegs s u
      ∧ t = if r.status = 0 ∧ eEvt j.entry = false then u
            else raise u 79 r.status (j.ring * 2 ^ 61 + eKind j.entry * 2 ^ 56 + r.firstFail * 2 ^ 32 + eStep j.entry) r.map)
  ∧ (MedHas s r b → eKind b = 3 → medCommonBad b = false → mComp b = 0 → eSbEn b = false → eEvt b = false →
    Does (.medCancel r) s fun t =>
      (∀ e, medJob t e = (medJob s e).map (fun j => if eStep j.entry = eStep b then
          { j with parts := j.parts.map (fun p => some (p.getD 0x0E)) } else j))
      ∧ t.med.shuf = s.med.shuf.map (fun x => if eStep x.entry = eStep b then { x with stopped := true } else x)
      ∧ Takes s ci t ∧ (∀ p, HeatOnly s t p) ∧ SameBut (.med :: readParts) s t ∧ OtherRegs (ci :: tierRegs) s t)
  ∧ (MedHas s r b → s.med.shuf = none → eKind b = 2 → shufCheck s b = 0 → ReadsNow s (zTemplate b) 128 →
    ReadsNow s (zRanks b) (2 * zM b) → Does (.shuf r) s fun t =>
      t.med = { s.med with shuf := some { ring := r, entry := b, template := ltaBytes s (zTemplate b) 128,
                                          ranks := ltaBytes s (zRanks b) (2 * zM b) } }
      ∧ Takes s ci t ∧ (∀ p, HeatOnly s t p) ∧ SameBut (.med :: readParts) s t ∧ OtherRegs (ci :: tierRegs) s t)
  ∧ (∀ x q i n, let z := x.entry; let dir := zDir z + 64 * (i - zFirst z); let o := zRing z; let lg := fld s (Csr.MED_SQ_SIZE o) 4 0
    let pi := fld s (Csr.MED_SQ_PI o) 16 0; let slot := fld s (Csr.MED_SQ_BASE o) 43 0 + 128 * (pi % 2 ^ lg)
    let ev := Csr.MED_SHUF_EVAL
    works s 40 = true → s.med.shuf = some x → x.whole = none → x.stopped = false → o < 8 →
    nextHeld z (zBatch z - x.q) x.q 0 = (some (q, i), n) → ReadsNow s dir 64 → ringCount pi (fld s (Csr.MED_SQ_CI o) 16 0) < 2 ^ lg →
    WritesNow s slot 128 → rd s ev + n < 2 ^ 64 → Does .shufJobGenerate s fun t =>
      LtaBecomes s slot (shufEntry x q i (ltaBytes s dir 64)) t ∧ fld t (Csr.MED_SQ_PI o) 16 0 = (pi + 1) % 2 ^ 17
      ∧ t.med = { s.med with shuf := some { x with q := q + 1, parts := x.parts ++ [0] } } ∧ rd t ev = rd s ev + n
      ∧ (∀ p, HeatOnly s t p) ∧ SameBut (.med :: writeParts) s t ∧ OtherRegs (Csr.MED_SQ_PI o :: ev :: tierRegs) s t)

/-! ### Links -/

/-- R347, R348, R351, R372 to R375, R419: what the writes of a link's control register, training, INIT flits, hellos, keepalives and
their times do. -/
def Obligations.LinkStates : Prop := ∀ (s : State) (l : Fin 24) (k : Fin 25) (i : Initiator) (x : W32), let v := linkOf s l
  let y := linkOf s k; let c := Csr.FAB_LINK_CTRL (l / 2) (l % 2); let pw := linkPowered s k = true
  let trains (n : Nat) (t : State) : Prop :=
    linkOf t n = { st := .training, hello := (linkOf s n).hello, proof := (linkOf s n).proof } ∧ OtherLinks n s t
  (Access s i c true → isolated s = false → v.st = .off → linkExists s l = true → bit x.toNat 0 = true → Does (.linkEnable i l x) s fun t =>
    trains l t ∧ flag t c 0 = true ∧ flag t c 1 = bit x.toNat 1 ∧ SameBut [.links, .csr] s t ∧ OtherRegs [c] s t)
  ∧ (Access s i c true → isolated s = false → v.st = .hello → bit x.toNat 0 = true → bit x.toNat 1 = true →
    Does (.linkAdmit i l x) s fun t => ∃ u, linkOf u l = { v with st := .up } ∧ OtherLinks l s u ∧ flag u c 0 = true
      ∧ flag u c 1 = true ∧ SameBut [.links, .csr] s u ∧ OtherRegs [c] s u
      ∧ t = raise u (82 + l / 2) 0x01 (rd s (Csr.FAB_LINK_PEER (l / 2) (l % 2)))
              (fld s (Csr.FAB_LINK_PEER_INFO (l / 2) (l % 2)) 11 0 + l * 2 ^ 16 + v.width * 2 ^ 24))
  ∧ (let a := linkReg k Csr.FAB_LINK_CTRL Csr.HLK_CTRL; Access s i a true → y.st = .down → linkEnabled s k = true →
    Does (.linkRetrain i k) s fun t => trains k t ∧ SameBut [.links, .csr] s t ∧ OtherRegs [a] s t)
  ∧ (∀ lanes : Byte, let w := if k.val = 24 ∨ linkSplit s k = true then 4 else 8; pw → y.st = .training → lanes = 0xFF →
    Does (.linkTrained k lanes) s fun t =>
      linkOf t k = { y with
        st := .init
        width := w
        lastTx := some (sentFlit y { ftype := 4, payload := initPayload t k }) }
      ∧ OtherLinks k s t ∧ SameBut [.links] s t)
  ∧ (CanStop s k → y.st = .training → Does (.linkTrainingTimeout k) s (LinkStops s k 0x05))
  ∧ (pw → y.st = .down → linkAuto s k = true → Does (.linkAutoRetrain k) s fun t => trains k t ∧ SameBut [.links] s t)
  ∧ (CanStop s k → y.st = .init ∨ y.st = .hello ∨ y.st = .up → Does (.laneLockLost k) s
      (LinkStops s k (if k.val = 24 then 0x07 else 0x01)))
  ∧ (CanStop s k → y.st = .hello ∨ y.st = .up → Does (.keepaliveTimeout k) s (LinkStops s k 0x01))
  ∧ (∀ f, pw → y.st = .init → f.crcOk = true → flitOk k f = true → f.ftype = 4 → bit (fieldAt f.payload 3 1) 0 = false →
    Does (.initFlitReceive k f) s fun t =>
      (∀ j, smGet 0 (linkOf t k).crInit j = if j < 8 then fieldAt f.payload (4 + 2 * j) 2 else 0)
      ∧ linkOf t k = { y with
        seen := true
        crInit := (linkOf t k).crInit
        lastTx := some (sentFlit y { ftype := 4, payload := initPayload t k }) }
      ∧ OtherLinks k s t ∧ SameBut [.links] s t)
  ∧ (∀ f, linkPowered s 24 = true → (linkOf s 24).st = .init → f.crcOk = true → flitOk 24 f = true → f.ftype = 4 →
    bit (fieldAt f.payload 3 1) 0 = true → Does (.initFlitReceive 24 f) s fun t => ∃ u, (linkOf u 24).st = .up
      ∧ (linkOf u 24).seen = true ∧ OtherLinks 24 s u ∧ SameBut [.links] s u ∧ t = raise u 80 0x01 (linkOf s 24).width 0)
  ∧ (∀ f, linkPowered s l = true → v.st = .init → f.crcOk = true → flitOk l f = true → f.ftype = 4 →
    bit (fieldAt f.payload 3 1) 0 = true → flag s c 1 = false → Does (.initFlitReceive l.castSucc f) s fun t => let w := linkOf t l
      let m := msgBytes { mtype := 6, dst := 0, src := devId s, sub := 1, len := (helloBytes t l).length, payload := helloBytes t l }
      w.st = .hello ∧ w.seen = true ∧ w.nonce = Config.freeValue 10 s.freeCtr % 2 ^ 256 ∧ t.freeCtr = s.freeCtr + 1
      ∧ w.txq = v.txq ++ flitsOf 3 0 (ceilDiv m.length 244) true m ∧ OtherLinks l s t ∧ SameBut [.links, .freeCtr] s t)
  ∧ (pw → y.st = .hello ∨ y.st = .up → Does (.keepaliveSend k) s fun t =>
    linkOf t k = { y with lastTx := some (sentFlit y { ftype := 3, payload := keepalivePayload s k }) } ∧ OtherLinks k s t
    ∧ SameBut [.links] s t)
  ∧ (∀ hb, linkPowered s l = true → v.st = .up → v.stalled = false → fld s Csr.FABC_HB 31 16 ≠ 0 → v.lastHb = some hb →
    Does (.peerStalled l) s fun t => ∃ u, linkOf u l = { v with stalled := true } ∧ OtherLinks l s u ∧ SameBut [.links] s u
      ∧ t = raise u (82 + l / 2) 0x05 (rd s (Csr.FAB_LINK_PEER (l / 2) (l % 2))) (hb + l * 2 ^ 16))
  ∧ (∀ m : FabMsg, let p := Csr.FAB_LINK_PEER (l / 2) (l % 2); let q := Csr.FAB_LINK_PEER_INFO (l / 2) (l % 2); let b := m.payload
    linkPowered s l = true → v.st = .hello → m.mtype = 6 → m.sub = 1 → m.sr = false → m.hops = 0 → v.arrived = [] →
    v.gotProof = false → Does (.helloReceive l m) s fun t =>
      linkOf t l = { v with gotHello := true, hello := b } ∧ OtherLinks l s t ∧ rd t p = fieldAt b 0 8
      ∧ rd t q = 2 ^ 31 + bits (fieldAt b 14 1) 4 0 * 2 ^ 16 + bits (fieldAt b 12 2) 11 0
      ∧ t.fabc = { s.fabc with proofs := (s.fabc.proofs ++ [l.val]).eraseDups } ∧ SameBut [.links, .fabc, .csr] s t
      ∧ OtherRegs [p, q] s t)
  ∧ (∀ m : FabMsg, linkPowered s l = true → v.st = .hello → m.mtype = 6 → m.sub = 2 → m.sr = false → m.hops = 0 → v.arrived = [] →
    Does (.helloProofReceive l m) s fun t => ∃ u, linkOf u l = { v with gotProof := true, proof := m.payload } ∧ OtherLinks l s u
      ∧ SameBut [.links] s u
      ∧ t = if v.gotHello then raise u (82 + l / 2) 0x03 (rd s (Csr.FAB_LINK_PEER (l / 2) (l % 2))) l.val else u)

/-- R346, R351 to R356: flits are sent against credit and kept until acknowledged, resent, and received in order; a flit that fails
its CRC asks for one NAK. -/
def Obligations.LinkFlits : Prop := ∀ (s : State) (k : Fin 25), let y := linkOf s k; let pw := linkPowered s k = true
  let up := y.st = .hello ∨ y.st = .up; let crc := linkReg k Csr.FAB_LINK_CRC Csr.HLK_CRC
  let nak (n : Nat) (t : State) : Prop := OtherLinks k s t ∧ rd t crc = rd s crc + n
    ∧ linkOf t k = if y.nakSent then y else { y with nakSent := true, lastTx := some (sentFlit y { ftype := 2 }) }
  let limit := fld s (linkReg k Csr.FAB_LINK_RETRY Csr.HLK_RETRY) 7 0; let rep := Csr.FAB_LINK_REPLAY (k / 2) (k % 2)
  let room := rd s rep + 1 < 2 ^ 32 - 1
  let again (w : Link) (g : Flit) (t : State) : Prop :=
    linkOf t k = { w with resends := w.resends + 1, lastTx := some (sentFlit w g) } ∧ OtherLinks k s t
    ∧ (k.val ≠ 24 → rd t rep = rd s rep + 1) ∧ SameBut [.links, .csr] s t ∧ OtherRegs (if k.val = 24 then [] else [rep]) s t
  (∀ f rest, let c := 2 * f.vc + f.hc; let g : Flit := { f with seq := y.txSeq }; let tx := linkReg k Csr.FAB_LINK_TX_FLITS Csr.HLK_TX_FLITS
    let w : Link := { y with
      txq := rest
      txSeq := (y.txSeq + 1) % 4096
      replay := y.replay ++ [g]
      crSent := smSet 0 y.crSent c ((smGet 0 y.crSent c + 1) % 4096) }
    pw → up → y.txq = f :: rest → linkCredit y c ≠ 0 → blkHeld s (linkIdx k) = false → y.replay.length < replayCap s k →
    rd s tx + 1 < 2 ^ 64 → Does (.flitSend k) s fun t =>
      linkOf t k = { w with lastTx := some (sentFlit w g) } ∧ OtherLinks k s t ∧ rd t tx = rd s tx + 1
      ∧ SameBut [.links, .csr] s t ∧ OtherRegs [tx] s t)
  ∧ (∀ f, let c := 2 * f.vc + f.hc; let b := bytesAt f.payload 0 244; let n := 32 + payloadLen k b
    let rx := linkReg k Csr.FAB_LINK_RX_FLITS Csr.HLK_RX_FLITS
    pw → up → f.crcOk = true → flitOk k f = true → f.ftype = 1 → f.msgStart = true → f.msgEnd = true → y.replay = [] →
    CreditsFit y f → f.seq = y.rxNext → smGet 0 y.rxUsed c < rxCap s k c → y.part = [] → n ≤ 244 → rd s rx + 1 < 2 ^ 64 →
    Does (.dataFlitReceive k f) s fun t =>
      linkOf t k = { y with
        crCum := smSet 0 y.crCum (2 * f.cvc + f.chc) (f.credits % 4096)
        rxNext := (y.rxNext + 1) % 4096
        nakSent := false
        rxUsed := smSet 0 y.rxUsed c (smGet 0 y.rxUsed c + 1)
        arrived := y.arrived ++ [(c, b.take n)] }
      ∧ OtherLinks k s t ∧ rd t rx = rd s rx + 1 ∧ SameBut [.links, .csr] s t ∧ OtherRegs [rx] s t)
  ∧ (∀ f, pw → up → f.crcOk = false → f.ftype ≠ 2 → rd s crc + 1 < 2 ^ 32 - 1 → Does (.dataFlitReceive k f) s fun t =>
    nak 1 t ∧ SameBut [.links, .csr] s t ∧ OtherRegs [crc] s t)
  ∧ (∀ n, let unc := linkReg k Csr.FAB_LINK_FEC_UNC Csr.HLK_FEC_UNC
    pw → up → 0 < n → rd s crc + n < 2 ^ 32 - 1 → rd s unc + 1 < 2 ^ 32 - 1 → Does (.fecUncorrectable k n) s fun t =>
      nak n t ∧ rd t unc = rd s unc + 1 ∧ SameBut [.links, .csr] s t ∧ OtherRegs [crc, unc] s t)
  ∧ (∀ f g, let w : Link := { y with crCum := smSet 0 y.crCum (2 * f.cvc + f.chc) (f.credits % 4096) }
    pw → up → f.crcOk = true → flitOk k f = true → f.ftype = 2 → y.replay = [g] → serial 12 f.ack g.seq = .earlier → CreditsFit y f →
    y.resends < limit → room → Does (.nakReceive k f) s (again w g))
  ∧ (∀ g rest, pw → up → y.replay = rest ++ [g] → y.resends < limit → room → Does (.ackTimeout k) s (again y g))
  ∧ (∀ g rest, CanStop s k → up → y.replay = rest ++ [g] → limit ≤ y.resends → Does (.ackTimeout k) s (LinkStops s k 0x02))

/-! ### Fabric -/

/-- R366 to R371, R376: a message of this module or one that came over a link is taken here, leaves on the routed link, or is
dropped. -/
def Obligations.FabricRouting : Prop := ∀ (s : State) (m : FabMsg), let tx := Csr.FABC_TX_MSGS; let rx := Csr.FABC_RX_MSGS
  fabcUp s = true →
  (m ∈ s.outbox → formatBad m = false → m.sr = false → forSelf s m = true → rd s tx + 1 < 2 ^ 64 → rd s rx + 1 < 2 ^ 64 →
    Does (.messageRoute none m) s fun t =>
      t.outbox = s.outbox.erase m ∧ rd t tx = rd s tx + 1 ∧ rd t rx = rd s rx + 1 ∧ SameBut [.outbox, .csr] s t
      ∧ OtherRegs [tx, rx] s t)
  ∧ (∀ l, m ∈ s.outbox → RoutesBy s m l → smGet none s.fabc.txns m.tag = none → rd s tx + 1 < 2 ^ 64 →
    Does (.messageRoute none m) s fun t =>
      Leaves s m l (if dateline s l then 1 else 0) t ∧ OtherLinks l s t ∧ t.outbox = s.outbox.erase m ∧ rd t tx = rd s tx + 1
      ∧ SameBut [.outbox, .links, .csr] s t ∧ OtherRegs [tx] s t)
  ∧ (m ∈ s.outbox → formatBad m = false → m.sr = false → forSelf s m = false → m.hops + 1 ≤ fld s Csr.FABC_CFG 3 0 →
    bit (routeEntry s m.dst) 31 = false → rd s tx + 1 < 2 ^ 64 → Does (.messageRoute none m) s fun t => ∃ u,
      u.outbox = s.outbox.erase m ∧ rd u tx = rd s tx + 1 ∧ SameBut [.outbox, .csr] s u ∧ OtherRegs [tx] s u
      ∧ t = dropMsg u 0x02 m.dst m.src m.mtype)
  ∧ (∀ (l : Fin 24) c v, linkUp s l = true → formatBad m = false → m.sr = false → ¬(m.mtype = 6 ∧ m.sub ≤ 2 ∧ m.hops = 0) →
    forSelf s m = true → bit (routeEntry s m.src) 30 = true → Frees s l m c v → rd s rx + 1 < 2 ^ 64 →
    Does (.messageRoute (some l) m) s fun t =>
      linkOf t l = v ∧ OtherLinks l s t ∧ rd t rx = rd s rx + 1 ∧ SameBut [.links, .csr] s t ∧ OtherRegs [rx] s t)
  ∧ (∀ (l : Fin 24) c v k, let o : FabMsg := { m with rroute := setSlotAt m.rroute (m.hops - 1) l.val }
    linkUp s l = true → m.sr = true → formatBad m = false → 0 < m.hops → m.hops < 9 → slotAt m.route m.hops % 32 = k → k < 24 →
    linkUp s k = true → k ≠ l.val → Frees s l m c v → c % 2 = 0 →
    0 < linkCredit (linkOf s k) (2 * vcOf m.mtype + if dateline s k then 1 else 0) → Does (.srForward l m) s fun t =>
      linkOf t l = v ∧ Leaves s o k (if dateline s k then 1 else 0) t ∧ (∀ d, d ≠ l.val → d ≠ k → linkOf t d = linkOf s d)
      ∧ SameBut [.links] s t)

/-- R361 to R365, R378, R383, R384: a request of this module takes a tag and is answered or times out; a peer's request is served
through a window, or refused; source-routed accesses reach the registers. -/
def Obligations.FabricRequests : Prop := ∀ (s : State) (m : FabMsg), let stale := Csr.FABC_STALE_RSP; let n := m.len
  let a := fabOff m.addr; let txns := s.fabc.txns
  let rsp (mt len st : Nat) (bs : Bytes) : FabMsg :=
    { mtype := mt, dst := m.src, src := selfDev s, tag := m.tag, gen := m.gen, addr := m.addr, len := len,
      status := BitVec.ofNat 8 st, payload := bs }
  let srRsp (bs : Bytes) : FabMsg :=
    { mtype := 6, sub := 5, dst := m.src, src := selfDev s, tag := m.tag, gen := m.gen, sr := m.sr, addr := m.addr,
      len := bs.length, route := if m.sr then answerRoute m else [], payload := bs }
  fabcUp s = true →
  (∀ l c, let g := (smGet 0 s.fabc.gens 0 + 1) % 8; let o : FabMsg := { m with tag := 0, gen := g, src := selfDev s, hops := 0 }
    m.mtype = 1 ∨ m.mtype = 2 → ownDev s m.dst false = false → txns = [] →
    routeFate s { m with src := selfDev s, hops := 0, sub := 0 } 0 false = .via l c → Does (.fabricRequestIssue m) s fun t =>
      t.outbox = s.outbox ++ [o]
      ∧ t.fabc = { s.fabc with txns := [(0, some { gen := g, req := o })], gens := smSet 0 s.fabc.gens 0 g }
      ∧ t.answers = [] ∧ SameBut [.answers, .fabc, .outbox] s t)
  ∧ (∀ r, m.mtype = 1 ∨ m.mtype = 2 → ownDev s m.dst false = false → lineHeld s m = false →
    routeFate s { m with src := selfDev s, hops := 0, sub := 0 } 0 false = .drop r → Does (.fabricRequestIssue m) s fun t =>
      t.answers = [⟨m.tag, 0x05, []⟩] ∧ SameBut [.answers] s t)
  ∧ (m.mtype = 1 → reqBad m = 0 → admitted s m = true → fabSpace m.addr = 0 → ReadsNow s a n → Does (.rdReq m) s fun t =>
    t.outbox = s.outbox ++ [rsp 3 n 0 (ltaBytes s a n)] ∧ (∀ p, HeatOnly s t p) ∧ SameBut (.outbox :: readParts) s t
    ∧ OtherRegs tierRegs s t)
  ∧ (m.mtype = 2 → reqBad m = 0 → admitted s m = true → fabSpace m.addr = 0 → WritesNow s a n → Does (.wrReq m) s fun t =>
    LtaBecomes s a (bytesAt m.payload 0 n) t ∧ t.outbox = s.outbox ++ [rsp 4 0 0 []] ∧ (∀ p, HeatOnly s t p)
    ∧ SameBut (.outbox :: writeParts) s t ∧ OtherRegs tierRegs s t)
  ∧ (let v := Csr.FABC_VIOL; let w := Csr.GLB_VIOL_CNT
    m.mtype = 1 → reqBad m = 0 → admitted s m = false → rd s v + 1 < 2 ^ 32 - 1 → rd s w + 1 < 2 ^ 32 - 1 → Does (.rdReq m) s fun t =>
      t.outbox = s.outbox ++ [rsp 3 n 0 (List.replicate n 0)] ∧ rd t v = rd s v + 1 ∧ rd t w = rd s w + 1
      ∧ SameBut [.outbox, .csr] s t ∧ OtherRegs [v, w, Csr.FABC_VIOL_CAP, Csr.GLB_VIOL_CAP] s t)
  ∧ (∀ x, m.mtype = 3 → smGet none txns m.tag = some x → x.gen = m.gen → Does (.rdRsp m) s fun t =>
    t.answers = [⟨m.tag, m.status.toNat, bytesAt m.payload 0 n⟩] ∧ t.fabc = { s.fabc with txns := smSet none txns m.tag none }
    ∧ SameBut [.answers, .fabc] s t)
  ∧ (∀ x, m.mtype = 4 → smGet none txns m.tag = some x → x.gen = m.gen → Does (.wrRsp m) s fun t =>
    t.answers = [⟨m.tag, m.status.toNat, []⟩] ∧ t.fabc = { s.fabc with txns := smSet none txns m.tag none }
    ∧ SameBut [.answers, .fabc] s t)
  ∧ (m.mtype = 3 → (∀ x, smGet none txns m.tag = some x → x.gen ≠ m.gen) → rd s stale + 1 < 2 ^ 32 - 1 → Does (.rdRsp m) s fun t =>
    rd t stale = rd s stale + 1 ∧ t.answers = [] ∧ SameBut [.answers, .csr] s t ∧ OtherRegs [stale] s t)
  ∧ (∀ tag x, let c := Csr.FABC_TMO; smGet none txns tag = some x → rd s c + 1 < 2 ^ 32 - 1 → Does (.fabricRequestTimeout tag) s fun t =>
    t.answers = [⟨tag, 0x05, []⟩] ∧ t.fabc = { s.fabc with txns := smSet none txns tag none } ∧ rd t c = rd s c + 1
    ∧ SameBut [.answers, .fabc, .csr] s t ∧ OtherRegs [c] s t)
  ∧ (∀ r, m.mtype = 6 → m.sub = 3 → fabSpace m.addr = 1 → a < 2 ^ 28 → flag s Csr.FABC_CFG 8 = true → n = 4 →
    Reaches s .peer a false r → r.row.wide = false → r.high = false → (∀ f ∈ r.row.fields, f.acc ≠ .rc) →
    Does (.srRead m) s fun t => t.outbox = s.outbox ++ [srRsp (toLE (regView s r % 2 ^ 32) 4)] ∧ SameBut [.outbox] s t)
  ∧ (m.mtype = 6 → m.sub = 4 → fabSpace m.addr = 1 → a < 2 ^ 28 → flag s Csr.FABC_CFG 8 = true → n = 4 →
    ownRule.all (fun r => (regAt a).all (fun x => decide (x.row.reg ≠ r))) = true → Access s .peer a true → (regAt a).all (fun r =>
      decide (r.base ≠ Csr.FABC_SELF)) = true → Does (.srWrite m) s fun t =>
      ∃ u, exec (.registerWrite .peer a 4 (BitVec.ofNat 32 (fieldAt m.payload 0 4))) s = .next u
        ∧ t = { u with outbox := u.outbox ++ [srRsp []] })

/-- R359, R377, R380, R410, R415: what a RELAY message hands on, the mailbox, the push queue, the bank switch, and the journal's
export, revert and forget. -/
def Obligations.FabricManagement : Prop := ∀ (s : State) (i : Initiator), let sw := Csr.FABC_SWITCH; let ep := Csr.FABC_EPOCH
  let cmd := Csr.PGRP_JRNL_CMD; let st := Csr.PGRP_JRNL_STAT; let cnt := Csr.PGRP_JRNL_COUNT
  let starts (dev : Nat) : Prop := Access s i cmd true ∧ s.fabc.jop = none ∧ dev < 4096
  let ended (dev : Nat) (t : State) : Prop := fld t st 31 24 = 0 ∧ fld t cmd 27 16 = dev ∧ t.fabc = s.fabc
  let forgets (dev : Nat) (t : State) : Prop := ∀ n, nbuOf t n = if n < 48 then { nbuOf s n with
    jrnl := (nbuOf s n).jrnl.filter (fun b => bits (fieldAt b 0 8) 57 46 ≠ dev)
    hseq := (nbuOf s n).hseq.filter (fun x => x.1 / 64 ≠ dev) } else nbuOf s n
  (∀ m : FabMsg, let b := m.payload; fabcUp s = true → m.mtype = 5 →
    (∀ (n : Fin 48), m.sub = 2 → n.val = 4 * (bits (fieldAt b 16 8) 43 0 / 2 ^ 18 % 12) + bits (fieldAt b 16 8) 43 0 / 4096 % 4 →
      Does (.relayMsgReceive m) s fun t => exec (.deltaReceive n b) s = .next t)
    ∧ (∀ (n : Fin 48), m.sub = 3 → fieldAt b 4 1 % 64 = n.val → Does (.relayMsgReceive m) s fun t =>
      exec (.deltaAckReceive n b) s = .next t)
    ∧ (∀ (e : Fin 2), let k := bits (fieldAt b 0 4) 31 28; m.sub = 1 → works s 25 = true → rlyOn s e = true → recEngine b = e →
      (k = 1 → Does (.relayMsgReceive m) s fun t => exec (.contribReceive e b) s = .next t)
      ∧ (k = 2 → Does (.relayMsgReceive m) s fun t => exec (.answerReceive e b) s = .next t)
      ∧ (k = 3 → Does (.relayMsgReceive m) s fun t => exec (.resendReceive e b) s = .next t)
      ∧ (k = 4 → Does (.relayMsgReceive m) s fun t => exec (.doneReceive e b) s = .next t)
      ∧ (k = 5 → Does (.relayMsgReceive m) s fun t => exec (.doneAckReceive e b) s = .next t)))
  ∧ (∀ m : FabMsg, let pi := fld s Csr.FABC_MBX_PI 16 0; let ci := fld s Csr.FABC_MBX_CI 16 0; let lg := fld s Csr.FABC_MBX_SIZE 4 0
    let slot := rd s Csr.FABC_MBX_BASE % 2 ^ 44 + 512 * (pi % 2 ^ lg)
    fabcUp s = true → m.mtype = 6 → m.sub = 5 ∨ m.sub = 6 → flag s Csr.FABC_MBX_SIZE 31 = true → ringCount pi ci < 2 ^ lg →
    WritesNow s slot 512 → Does (.mailboxReceive m) s fun t => ∃ u,
      LtaBecomes s slot (bytesAt (msgBytes m) 0 512) u ∧ fld u Csr.FABC_MBX_PI 16 0 = (pi + 1) % 2 ^ 17
      ∧ (∀ p, HeatOnly s u p) ∧ SameBut writeParts s u ∧ OtherRegs (Csr.FABC_MBX_PI :: tierRegs) s u
      ∧ t = if ringCount pi ci = 0 then raise u 81 0x01 ((pi + 1) % 2 ^ 17) 0 else u)
  ∧ (∀ m : FabMsg, let d := Csr.FABC_MBX_DROP
    fabcUp s = true → m.mtype = 6 → m.sub = 5 ∨ m.sub = 6 → flag s Csr.FABC_MBX_SIZE 31 = false → rd s d + 1 < 2 ^ 32 - 1 →
    Does (.mailboxReceive m) s fun t => rd t d = rd s d + 1 ∧ SameBut [.csr] s t ∧ OtherRegs [d] s t)
  ∧ (∀ (hi lo : W32), let a := Csr.FABC_MGMT_PUSH; Access s i (a + 4) true → smGet none s.heldLow (iniKey i a) = some lo →
    s.fabc.push.length < 16 → Does (.fabcMgmtPush i hi) s fun t =>
      t.fabc = { s.fabc with push := s.fabc.push ++ [(hi.toNat * 2 ^ 32 + lo.toNat) % 2 ^ 44] } ∧ SameBut [.fabc, .heldLow] s t)
  ∧ (Access s i sw true → (∀ n, (nbuOf s n).commit = []) → Does (.routeBankSwitch i) s fun t => ∃ u,
    flag u sw 1 = !flag s sw 1 ∧ rd u ep = rd s Csr.FABC_EPOCH_NEXT % 2 ^ 32 ∧ (∀ n, nbuOf u n = nbuOf s n)
    ∧ SameBut [.nbus, .csr] s u ∧ OtherRegs [sw, ep] s u ∧ t = raise u 81 0x02 (rd u ep) (fld u sw 1 1))
  ∧ (∀ dev, let es := jrnlEntries s dev; let a := rd s Csr.PGRP_JRNL_ADDR % 2 ^ 44
    starts dev → es ≠ [] → es.length < 2 ^ 32 → WritesNow s a es.flatten.length → Does (.jrnlExport i dev) s fun t =>
      LtaBecomes s a es.flatten t ∧ rd t cnt = es.length ∧ ended dev t ∧ (∀ p, HeatOnly s t p)
      ∧ SameBut (.fabc :: writeParts) s t ∧ OtherRegs (cmd :: st :: cnt :: tierRegs) s t)
  ∧ (∀ dev b, let a := rd s Csr.PGRP_JRNL_ADDR % 2 ^ 44; let l := entryLine b
    starts dev → jrnlEntries s dev = [b] → rd s cnt = 1 → ReadsNow s a 8 → WritesNow s l 64 → Does (.jrnlRevert i dev) s fun t =>
      LtaBecomes s l (xorBytes (lineOf s l) (maskBytes (fieldAt (ltaBytes s a 8) 0 8) (bytesAt b 32 64))) t
      ∧ forgets dev t ∧ ended dev t ∧ (∀ p, HeatOnly s t p) ∧ SameBut (.fabc :: .nbus :: writeParts) s t
      ∧ OtherRegs (cmd :: st :: tierRegs) s t)
  ∧ (∀ dev, starts dev → Does (.jrnlForget i dev) s fun t =>
    forgets dev t ∧ ended dev t ∧ SameBut [.fabc, .nbus, .csr] s t ∧ OtherRegs [cmd, st] s t)

/-! ### Host link -/

/-- R418, R420 to R426: a message taken frees its buffers; the host's reads and writes go through device windows, and this module's
through host windows, its writes journaled until a JACK; what no window admits is a violation. -/
def Obligations.HostAccess : Prop := ∀ (s : State) (m : HostMsg) (ext : Ext), let n := m.len; let vi := Csr.HLK_VIOL
  let vc := Csr.GLB_VIOL_CNT; let b := hostTaken s m
  let rsp (st : Nat) (bs : Bytes) : HostMsg :=
    { mtype := 3, tag := m.tag, addr := m.addr, len := n, status := BitVec.ofNat 8 st, payload := bs }
  let viol (t : State) : Prop := rd t vi = rd s vi + 1 ∧ rd t vc = rd s vc + 1 ∧ OtherRegs [vi, vc, Csr.GLB_VIOL_CAP] s t
  let room := rd s vi + 1 < 2 ^ 32 - 1 ∧ rd s vc + 1 < 2 ^ 32 - 1
  let ack := Csr.HLK_JSEQ_ACK
  (∀ c, (linkOf s 24).arrived = [(c, hostBytes m)] → let k := ceilDiv (hostBytes m).length 244
    linkOf b 24 = { linkOf s 24 with
      arrived := []
      rxUsed := smSet 0 (linkOf s 24).rxUsed c (smGet 0 (linkOf s 24).rxUsed c - k)
      rxFreed := smSet 0 (linkOf s 24).rxFreed c ((smGet 0 (linkOf s 24).rxFreed c + k) % 4096) })
  ∧ (∀ w o k wr, 0 < w → w < 64 → o < 2 ^ 34 → let c := rd s (Csr.HLK_DWIN_CTRL (w - 1))
    let t := (fld s (Csr.HLK_DWIN_TGT (w - 1)) 63 12 * 4096 + o) % 2 ^ 64
    dwin s (w * 2 ^ 34 + o) k wr = if bit c 31 = true ∧ bit c (if wr then 30 else 29) = true
      ∧ o + k ≤ fld s (Csr.HLK_DWIN_SIZE (w - 1)) 22 0 * 4096 ∧ fabSpace t < 2 then .fab t else .viol)
  ∧ (∀ r, hostArrives s m 1 = true → n = 4 → m.addr < 2 ^ 28 → Reaches s .host m.addr false r → r.row.wide = false →
    (∀ f ∈ r.row.fields, f.acc ≠ .rc) → Does (.hRd m ext) s fun t =>
      ToHost s b [rsp 0 (toLE (regView s r % 2 ^ 32) 4)] t ∧ SameBut [.links] s t)
  ∧ (∀ a, hostArrives s m 1 = true → hostMsgBad m = false → dwin s m.addr n false = .fab a → a / 2 ^ 58 = 0 → fabSpace a = 0 →
    ownDev s (fabDev a) true = true → ReadsNow s (fabOff a) n → Does (.hRd m ext) s fun t =>
      ToHost s b [rsp 0 (ltaBytes s (fabOff a) n)] t ∧ (∀ p, HeatOnly s t p) ∧ SameBut (.links :: readParts) s t
      ∧ OtherRegs tierRegs s t)
  ∧ (∀ a, hostArrives s m 1 = true → hostMsgBad m = false → dwin s m.addr n false = .fab a → a / 2 ^ 58 = 0 →
    ownDev s (fabDev a) true = false → Does (.hRd m ext) s fun t =>
      ToHost s b [rsp ext.status.toNat (if ext.status = 0 then bytesAt ext.data 0 n else [])] t ∧ SameBut [.links] s t)
  ∧ (hostArrives s m 1 = true → hostMsgBad m = false → dwin s m.addr n false = .viol → room → Does (.hRd m ext) s fun t =>
    ToHost s b [rsp 0 (List.replicate n 0)] t ∧ viol t ∧ SameBut [.links, .csr] s t)
  ∧ (hostArrives s m 1 = true → hostMsgBad m = true → CanStop s 24 → Does (.hRd m ext) s (LinkStops s 24 0x03))
  ∧ (hostArrives s m 2 = true → hostMsgBad m = false → m.addr < 2 ^ 28 → Does (.hWr m ext) s fun t => ∃ u,
    exec (.registerWrite .host m.addr n (BitVec.ofNat 32 (fieldAt (bytesAt m.payload 0 n) 0 4))) s = .next u ∧ t = hostTaken u m)
  ∧ (∀ a, hostArrives s m 2 = true → hostMsgBad m = false → dwin s m.addr n true = .fab a → a / 2 ^ 58 = 0 → fabSpace a = 0 →
    ownDev s (fabDev a) true = true → WritesNow s (fabOff a) n → Does (.hWr m ext) s fun t =>
      LtaBecomes s (fabOff a) (bytesAt m.payload 0 n) t ∧ ToHost s b [] t ∧ (∀ p, HeatOnly s t p)
      ∧ SameBut (.links :: writeParts) s t ∧ OtherRegs tierRegs s t)
  ∧ (∀ a, let f := Csr.HLK_HWR_FAIL
    hostArrives s m 2 = true → hostMsgBad m = false → dwin s m.addr n true = .fab a → a / 2 ^ 58 = 0 →
    ownDev s (fabDev a) true = false → rd s f + 1 < 2 ^ 32 - 1 → Does (.hWr m ext) s fun t =>
      ToHost s b [] t ∧ rd t f = rd s f + (if ext.status = 0 then 0 else 1) ∧ SameBut [.links, .csr] s t ∧ OtherRegs [f] s t)
  ∧ (hostArrives s m 2 = true → hostMsgBad m = false → dwin s m.addr n true = .viol → room → Does (.hWr m ext) s fun t =>
    ToHost s b [] t ∧ viol t ∧ SameBut [.links, .csr] s t)
  ∧ (∀ o a h bs, HostReady s a bs.length h → Does (.hostWriteIssue o a bs) s fun t =>
    HostWrote s h bs t ∧ t.hlk = { s.hlk with jrnl := s.hlk.jrnl ++ [newEntry s h bs.length (.unit o)] } ∧ t.answers = []
    ∧ SameBut (.answers :: .hlk :: .links :: writeParts) s t ∧ OtherRegs (Csr.HLK_JSEQ_NEXT :: tierRegs) s t)
  ∧ (∀ o a k g h, hlkUp s = true → session s = 1 → linkUp s 24 = true → hostAddr s a k false = some h → 0 < k →
    h % 4096 + k ≤ 4096 → s.hlk.reads.length + 1 < 2 ^ 24 → freeHostTag s = some g → Does (.hostReadIssue o a k) s fun t =>
      t.hlk = { s.hlk with reads := s.hlk.reads ++ [⟨g, h, k, .unit o⟩] } ∧ t.answers = []
      ∧ ToHost s s [{ mtype := 4, tag := g, addr := h, len := k }] t ∧ SameBut [.answers, .hlk, .links] s t)
  ∧ (∀ o a k, hlkUp s = true → s.hlk.lost = false → hostAddr s a k false = none → 0 < k → k ≤ 4096 → room →
    Does (.hostReadIssue o a k) s fun t =>
      t.answers = [⟨o, 0, List.replicate k 0⟩] ∧ viol t ∧ SameBut [.answers, .csr] s t)
  ∧ (∀ o a bs, hlkUp s = true → s.hlk.lost = false → hostAddr s a bs.length true = none → bs ≠ [] → bs.length ≤ 4096 → room →
    Does (.hostWriteIssue o a bs) s fun t => t.answers = [⟨o, 0, []⟩] ∧ viol t ∧ SameBut [.answers, .csr] s t)
  ∧ (∀ o a k, hlkUp s = true → session s = 0 → s.hlk.lost = true → 0 < k → k ≤ 4096 → Does (.hostReadIssue o a k) s fun t =>
    t.answers = [⟨o, 0x07, []⟩] ∧ SameBut [.answers] s t)
  ∧ (∀ r o, let ok := m.status = 0
    hostArrives s m 6 = true → s.hlk.reads.find? (fun r => r.tag = m.tag) = some r → r.owner = .unit o → Does (.dRsp m) s fun t =>
      t.answers = [if ok then ⟨o, 0, bytesAt m.payload 0 r.len⟩ else ⟨o, 0x07, []⟩]
      ∧ t.hlk = { s.hlk with reads := s.hlk.reads.erase r } ∧ ToHost s b [] t ∧ SameBut [.answers, .hlk, .links] s t)
  ∧ (∀ r o, hlkUp s = true → session s = 1 → s.hlk.reads.find? (fun x => x.tag = r.tag) = some r → r.owner = .unit o →
    Does (.hostReadTimeout r.tag) s fun t =>
      t.answers = [⟨o, 0x07, []⟩] ∧ t.hlk = { s.hlk with reads := s.hlk.reads.erase r } ∧ SameBut [.answers, .hlk] s t)
  ∧ (∀ j l o, hostArrives s m 8 = true → jseqBad s m.jseq = false → m.jseq < 2 ^ 32 → s.hlk.jrnl = j :: l →
    serial 32 j.jseq m.jseq ≠ .later → (∀ x ∈ l, serial 32 x.jseq m.jseq = .later) → j.owner = .unit o →
    (∀ x ∈ l, x.owner ≠ .unit o) → s.hlk.cqWait = [] → Does (.jack m) s fun t =>
      t.answers = [⟨o, 0, []⟩] ∧ t.hlk = { s.hlk with jrnl := l } ∧ rd t ack = m.jseq ∧ ToHost s b [] t
      ∧ SameBut [.answers, .hlk, .links, .csr] s t ∧ OtherRegs [ack] s t)
  ∧ (hostArrives s m 8 = true → jseqBad s m.jseq = true → CanStop s 24 → (linkOf s 24).arrived = [] → s.answers = [] →
    Does (.jack m) s (LinkStops s 24 0x03))
  ∧ (∀ (i : Initiator) (w : Fin 64) (hi : W32), let a := Csr.HLK_HWIN_SIZE w; let on := flag s (Csr.HLK_HWIN_CTRL w) 31
    Access s i a true → bits hi.toNat 26 0 ≤ 2 ^ 26 →
    (on = false → Does (.hwinWrite i w true hi) s fun t =>
      fld t a 26 0 = bits hi.toNat 26 0 ∧ SameBut [.csr] s t ∧ OtherRegs [a] s t)
    ∧ (on = true → rd s vc + 1 < 2 ^ 32 - 1 → Does (.hwinWrite i w true hi) s fun t =>
      rd t vc = rd s vc + 1 ∧ SameBut [.csr] s t ∧ OtherRegs [vc, Csr.GLB_VIOL_CAP] s t))
  ∧ (∀ (i : Initiator) (w : Fin 64) (hi lo : W32), let a := Csr.HLK_HWIN_HOST w
    Access s i (a + 4) true → smGet none s.heldLow (iniKey i a) = some lo → flag s (Csr.HLK_HWIN_CTRL w) 31 = false →
    Does (.hwinWrite i w false hi) s fun t => fld t a 63 12 = (hi.toNat * 2 ^ 32 + lo.toNat) / 4096
      ∧ smGet none t.heldLow (iniKey i a) = none ∧ SameBut [.heldLow, .csr] s t ∧ OtherRegs [a] s t)

/-- R427, R428: attaching, detaching, RESUME, and the ends of a session.
R429, R431, R432, R435, R436: doorbells, fetching, completions and orphans, and vectors. -/
def Obligations.HostSessions : Prop :=
  (∀ (s : State) (i : Initiator) (m : HostMsg), let x := Csr.HLK_SESSION
  let n := fld s x 31 16; let e := Csr.HLK_HEPOCH; let ack := Csr.HLK_JSEQ_ACK; let b := hostTaken s m
  let lostRoom := rd s Csr.HLK_HOST_LOST + 1 < 2 ^ 32 - 1
  (∀ key : BitVec 16, Access s i Csr.HLK_ATTACH true → session s = 0 →
    (key.toNat = n → linkUp s 24 = true → Does (.hostAttach i key) s fun t => ∃ u,
      session u = 1 ∧ fld u x 31 16 = (n + 1) % 2 ^ 16 ∧ flag u x 2 = flag s x 2 ∧ u.hlk = { s.hlk with lost := false }
      ∧ SameBut [.hlk, .csr] s u ∧ OtherRegs [x] s u ∧ t = raise u 80 0x04 ((n + 1) % 2 ^ 16) (rd s e))
    ∧ (key.toNat ≠ n ∨ linkUp s 24 = false → rd s Csr.GLB_VIOL_CNT + 1 < 2 ^ 32 - 1 → Does (.hostAttach i key) s fun t =>
      flag t x 2 = true ∧ session t = 0 ∧ fld t x 31 16 = n ∧ rd t Csr.GLB_VIOL_CNT = rd s Csr.GLB_VIOL_CNT + 1 ∧ SameBut [.csr] s t
      ∧ OtherRegs [x, Csr.GLB_VIOL_CNT, Csr.GLB_VIOL_CAP] s t))
  ∧ (Access s i Csr.HLK_ATTACH true → session s = 1 → Does (.hostDetach i) s fun t =>
    session t = 3 ∧ fld t x 31 2 = fld s x 31 2 ∧ SameBut [.csr] s t ∧ OtherRegs [x] s t)
  ∧ (hlkUp s = true → session s = 3 → s.hlk.cmds.all (·.orphan) = true → s.hlk.jrnl = [] →
    s.hlk.cqWait.all (fun x => decide (x.1 = 256)) = true → Does .detachComplete s fun t =>
      session t = 0 ∧ fld t x 31 2 = fld s x 31 2 ∧ (∀ q, q < 256 → flag t (Csr.HLK_SQ_CFG q) 31 = false
        ∧ flag t (Csr.HLK_CQ_CFG q) 31 = false ∧ fld t (Csr.HLK_SQ_CFG q) 30 0 = fld s (Csr.HLK_SQ_CFG q) 30 0
        ∧ fld t (Csr.HLK_CQ_CFG q) 30 0 = fld s (Csr.HLK_CQ_CFG q) 30 0 ∧ fld t (Csr.HLK_VEC_CTRL q) 1 0 = 1)
      ∧ (∀ w, w < 64 → flag t (Csr.HLK_HWIN_CTRL w) 31 = false ∧ fld t (Csr.HLK_HWIN_CTRL w) 30 0 = fld s (Csr.HLK_HWIN_CTRL w) 30 0)
      ∧ rd t Csr.HLK_ORPHAN_START = rd s Csr.HLK_ORPHAN_PI ∧ t.hlk = { s.hlk with coal := [], orphanSeen := false }
      ∧ SameBut [.hlk, .csr] s t ∧ OtherRegs ([x, Csr.HLK_ORPHAN_START]
        ++ (List.range 256).flatMap (fun q => [Csr.HLK_SQ_CFG q, Csr.HLK_CQ_CFG q, Csr.HLK_VEC_CTRL q])
        ++ (List.range 64).map Csr.HLK_HWIN_CTRL) s t)
  ∧ (hostArrives s m 10 = true → session s ≠ 0 → UnitsOnly s → lostRoom → Does (.hostReset m) s (HostGone s b 0x01 (some m.hepoch)))
  ∧ (hostArrives s m 10 = true → session s = 0 → Does (.hostReset m) s fun t =>
    rd t e = m.hepoch % 2 ^ 32 ∧ t.answers = [] ∧ ToHost s b [] t ∧ SameBut [.answers, .links, .csr] s t ∧ OtherRegs [e] s t)
  ∧ (hlkUp s = true → session s = 2 → fld s Csr.HLK_TMO 31 16 ≠ 0 → UnitsOnly s → lostRoom →
    Does .detachTimeout s (HostGone s s 0x03 none))
  ∧ (hostArrives s m 9 = true → jseqBad s m.jseq = false → session s ≠ 0 → m.hepoch ≠ rd s e → UnitsOnly s → lostRoom →
    Does (.resume m) s (HostGone s b 0x02 (some m.hepoch)))
  ∧ (hostArrives s m 9 = true → jseqBad s m.jseq = false → session s = 0 → Does (.resume m) s fun t =>
    rd t e = m.hepoch % 2 ^ 32 ∧ t.answers = [] ∧ ToHost s b [] t ∧ SameBut [.answers, .links, .csr] s t ∧ OtherRegs [e] s t)
  ∧ (hostArrives s m 9 = true → jseqBad s m.jseq = false → session s = 2 → m.hepoch = rd s e → m.jseq < 2 ^ 32 →
    (∀ j ∈ s.hlk.jrnl, serial 32 j.jseq m.jseq ≠ .later ∧ j.owner = .none) → s.hlk.cqWait = [] → Does (.resume m) s fun t =>
      session t = 1 ∧ fld t x 31 2 = fld s x 31 2 ∧ rd t ack = m.jseq ∧ t.hlk = { s.hlk with jrnl := [] } ∧ t.answers = []
      ∧ ToHost s b (s.hlk.reads.map dRd) t ∧ SameBut [.answers, .hlk, .links, .csr] s t ∧ OtherRegs [x, ack] s t)
  ∧ (∀ j, let a := jrnlAddr s j.jseq; let rp := Csr.HLK_REPLAY
    hostArrives s m 9 = true → jseqBad s m.jseq = false → session s = 2 → m.hepoch = rd s e → m.jseq < 2 ^ 32 → s.hlk.jrnl = [j] →
    serial 32 j.jseq m.jseq = .later → ReadsNow s a j.len → rd s rp + 1 < 2 ^ 32 - 1 → s.hlk.cqWait = [] → Does (.resume m) s fun t =>
      session t = 1 ∧ fld t x 31 2 = fld s x 31 2 ∧ rd t ack = m.jseq ∧ rd t rp = rd s rp + 1 ∧ t.hlk = s.hlk ∧ t.answers = []
      ∧ ToHost s b ({ mtype := 5, jseq := j.jseq, addr := j.addr, len := j.len, payload := ltaBytes s a j.len } :: s.hlk.reads.map dRd) t
      ∧ (∀ p, HeatOnly s t p) ∧ SameBut (.answers :: .hlk :: .links :: readParts) s t ∧ OtherRegs (x :: ack :: rp :: tierRegs) s t))
  ∧ (∀ (s : State) (i : Initiator) (q : Fin 256) (x : W32), let vc := Csr.GLB_VIOL_CNT
  let h := Csr.HLK_SQ_HEAD q; let cmds := s.hlk.cmds; let v := x.toNat % 2 ^ 17
  let viol (t : State) : Prop := rd t vc = rd s vc + 1 ∧ SameBut [.csr] s t ∧ OtherRegs [vc, Csr.GLB_VIOL_CAP] s t
  (let a := Csr.HLK_SQ_TAIL q; let size := 2 ^ fld s (Csr.HLK_SQ_CFG q) 4 0
    Access s i a true →
    (ringCount v (fld s h 16 0) ≤ size → Does (.sqDoorbell i q x) s fun t =>
      fld t a 16 0 = v ∧ SameBut [.csr] s t ∧ OtherRegs [a] s t)
    ∧ (size < ringCount v (fld s h 16 0) → rd s vc + 1 < 2 ^ 32 - 1 → Does (.sqDoorbell i q x) s viol))
  ∧ (let a := Csr.HLK_CQ_HEAD q; let t := fld s (Csr.HLK_CQ_TAIL q) 16 0
    Access s i a true →
    (ringCount t v ≤ ringCount t (fld s a 16 0) → Does (.cqHeadWrite i q x) s fun r => ∃ u,
      fld u a 16 0 = v ∧ SameBut [.csr] s u ∧ OtherRegs [a] s u ∧ r = hlkDrain u ∧ (s.hlk.cqWait = [] → r = u))
    ∧ (ringCount t (fld s a 16 0) < ringCount t v → rd s vc + 1 < 2 ^ 32 - 1 → Does (.cqHeadWrite i q x) s viol))
  ∧ (∀ (ext : Ext) (b : Bytes), let g := Csr.HLK_SQ_CFG q
    let a := rd s (Csr.HLK_SQ_BASE q) % 2 ^ 44 + 128 * (fld s h 16 0 % 2 ^ fld s g 4 0)
    let c : HCmd := { sq := q, incarn := fld s Csr.HLK_SESSION 23 16, bytes := b }
    let old := cmds.filter (fun c => decide (c.sq = q.val) && !c.orphan)
    let taken (c' : HCmd) (t : State) : Prop := t.hlk = { s.hlk with cmds := cmds ++ [c'], cursor := (q.val + 1) % 256 }
      ∧ fld t h 16 0 = (fld s h 16 0 + 1) % 2 ^ 17
    works s 39 = true → session s = 1 → sqTurn s = some q.val → b.length = 128 → (∀ c ∈ old, c.started = true) →
    let c' := if cFence c = true ∧ old ≠ [] then c
      else if cmdBad c = true then { c with started := true, whole := some 0x09 }
      else { c with started := true, parts := List.replicate (cmdParts c) .todo }
    (flag s g 30 = true → ReadsNow s a 128 → ltaBytes s a 128 = b → Does (.sqFetch q ext) s fun t =>
      taken c' t ∧ (∀ p, HeatOnly s t p) ∧ SameBut (.hlk :: readParts) s t ∧ OtherRegs (h :: tierRegs) s t)
    ∧ (∀ o, flag s g 30 = false → hostAddr s a 128 false = some o → ext.status = 0 → ext.data = b → Does (.sqFetch q ext) s fun t =>
      taken c' t ∧ SameBut [.hlk, .csr] s t ∧ OtherRegs [h] s t))
  ∧ (∀ (cid : BitVec 16) c r, let n := Csr.HLK_CMDS; let k := fld s (Csr.HLK_SQ_CFG c.sq) 23 16; let cf := Csr.HLK_CQ_CFG k
    let tl := Csr.HLK_CQ_TAIL k; let t0 := fld s tl 16 0; let lg := fld s cf 4 0
    let a := rd s (Csr.HLK_CQ_BASE k) % 2 ^ 44 + 32 * (t0 % 2 ^ lg); let vec := Csr.HLK_VEC_CTRL (fld s cf 23 16)
    let left : Hlk := { s.hlk with cmds := startQ c.sq false false (cmds.erase c) }
    let nco := smGet 0 s.hlk.coal k + 1; let pi := rd s Csr.HLK_ORPHAN_PI; let os := Csr.HLK_ORPHAN_SIZE
    let ringed : Bool := flag s cf 29 && decide (max 1 (fld s (Csr.HLK_CQ_COAL k) 15 0) ≤ nco)
    let ph := (1 - t0 / 2 ^ lg % 2) * 128
    let d := cqEntry c r; let d' := bytesAt d 0 7 ++ [BitVec.ofNat 8 ph] ++ bytesAt d 8 24
    let written (t : State) : Prop := fld t tl 16 0 = (t0 + 1) % 2 ^ 17 ∧ rd t n = rd s n + 1
      ∧ (∀ y, smGet 0 t.hlk.coal y = if y = k then (if ringed then 0 else nco) else smGet 0 s.hlk.coal y)
      ∧ flag t vec 1 = (ringed || flag s vec 1) ∧ flag t vec 0 = flag s vec 0
    CmdEnded s q cid.toNat c r → s.hlk.cqWait = [] →
    (cNoCqe c = true → r.status = 0 → Does (.hlkCmdComplete q cid) s fun t =>
      t.hlk = left ∧ rd t n = rd s n + 1 ∧ SameBut [.hlk, .csr] s t ∧ OtherRegs [n] s t)
    ∧ (¬(cNoCqe c = true ∧ r.status = 0) → c.orphan = false →
      (flag s cf 31 = true → ringCount t0 (fld s (Csr.HLK_CQ_HEAD k) 16 0) < 2 ^ lg → (ringed = true → flag s vec 0 = true) →
        (flag s cf 30 = true → WritesNow s a 32 → Does (.hlkCmdComplete q cid) s fun t =>
          LtaBecomes s a d' t ∧ written t ∧ t.hlk = { left with coal := t.hlk.coal } ∧ (∀ p, HeatOnly s t p)
          ∧ SameBut (.hlk :: writeParts) s t ∧ OtherRegs (tl :: n :: vec :: tierRegs) s t)
        ∧ (∀ o, flag s cf 30 = false → HostReady s a 32 o → Does (.hlkCmdComplete q cid) s fun t =>
          HostWrote s o d' t ∧ written t ∧ t.hlk = { left with coal := t.hlk.coal, jrnl := s.hlk.jrnl ++ [newEntry s o 32 .none] }
          ∧ SameBut (.hlk :: .links :: writeParts) s t ∧ OtherRegs (Csr.HLK_JSEQ_NEXT :: tl :: n :: vec :: tierRegs) s t))
      ∧ (flag s cf 31 = false ∨ 2 ^ lg ≤ ringCount t0 (fld s (Csr.HLK_CQ_HEAD k) 16 0) → Does (.hlkCmdComplete q cid) s fun t =>
        t.hlk = { left with cqWait := [(k, d)] } ∧ rd t n = rd s n + 1 ∧ SameBut [.hlk, .csr] s t ∧ OtherRegs [n] s t))
    ∧ (¬(cNoCqe c = true ∧ r.status = 0) → c.orphan = true →
      let held := (pi + 2 ^ 32 - rd s Csr.HLK_ORPHAN_START % 2 ^ 32) % 2 ^ 32; let ol := fld s os 4 0
      let oa := rd s Csr.HLK_ORPHAN_BASE % 2 ^ 44 + 32 * (pi % 2 ^ ol); let dr := Csr.HLK_ORPHAN_DROP
      (flag s os 31 = true → held < 2 ^ ol → WritesNow s oa 32 → Does (.hlkCmdComplete q cid) s fun t =>
        LtaBecomes s oa d t ∧ rd t Csr.HLK_ORPHAN_PI = (pi + 1) % 2 ^ 32 ∧ t.hlk = left ∧ rd t n = rd s n + 1
        ∧ (∀ p, HeatOnly s t p) ∧ SameBut (.hlk :: writeParts) s t ∧ OtherRegs (Csr.HLK_ORPHAN_PI :: n :: tierRegs) s t)
      ∧ (flag s os 31 = false ∨ 2 ^ ol ≤ held → rd s dr + 1 < 2 ^ 32 - 1 → Does (.hlkCmdComplete q cid) s fun t => ∃ u,
        u.hlk = { left with orphanSeen := true } ∧ rd u n = rd s n + 1 ∧ rd u dr = rd s dr + 1 ∧ SameBut [.hlk, .csr] s u
        ∧ OtherRegs [n, dr] s u ∧ t = if s.hlk.orphanSeen then u else raise u 80 0x06 pi 0)))
  ∧ (let cf := Csr.HLK_CQ_CFG q; let v := fld s cf 23 16; let vec := Csr.HLK_VEC_CTRL v
    hlkUp s = true → flag s cf 29 = true → fld s (Csr.HLK_CQ_COAL q) 31 16 ≠ 0 → smGet 0 s.hlk.coal q ≠ 0 → s.hlk.cqWait = [] →
    let rest := { s.hlk with coal := smSet 0 s.hlk.coal q.val 0 }
    (flag s vec 0 = true → Does (.cqCoalTimer q) s fun t =>
      t.hlk = rest ∧ fld t vec 1 0 = 3 ∧ SameBut [.hlk, .csr] s t ∧ OtherRegs [vec] s t)
    ∧ (∀ o, flag s vec 0 = false → HostReady s (rd s (Csr.HLK_VEC_ADDR v) % 2 ^ 44) 4 o → Does (.cqCoalTimer q) s fun t =>
      HostWrote s o (toLE (rd s (Csr.HLK_VEC_DATA v)) 4) t ∧ t.hlk = { rest with jrnl := s.hlk.jrnl ++ [newEntry s o 4 .none] }
      ∧ SameBut (.hlk :: .links :: writeParts) s t ∧ OtherRegs (Csr.HLK_JSEQ_NEXT :: tierRegs) s t))
  ∧ (let vec := Csr.HLK_VEC_CTRL q
    Access s i vec true →
    (flag s vec 1 = false → Does (.vecUnmask i q) s fun t => fld t vec 1 0 = 0 ∧ SameBut [.csr] s t ∧ OtherRegs [vec] s t)
    ∧ (∀ o, fld s vec 1 0 = 3 → s.hlk.cqWait = [] → HostReady s (rd s (Csr.HLK_VEC_ADDR q) % 2 ^ 44) 4 o →
      Does (.vecUnmask i q) s fun t => HostWrote s o (toLE (rd s (Csr.HLK_VEC_DATA q)) 4) t ∧ fld t vec 1 0 = 0
        ∧ t.hlk = { s.hlk with jrnl := s.hlk.jrnl ++ [newEntry s o 4 .none] }
        ∧ SameBut (.hlk :: .links :: writeParts) s t ∧ OtherRegs (vec :: Csr.HLK_JSEQ_NEXT :: tierRegs) s t)))

/-- R433, R434, R437, R518: what the HLK's commands do. -/
def Obligations.HostCommands : Prop := ∀ (s : State) (q : Fin 256) (cid : BitVec 16) (ext : Ext), let q' := q.val; let id := cid.toNat
  let did (c : HCmd) (k st : Nat) : Hlk := CmdBecomes s c { c with parts := setHPart c.parts k (.ended st) }
  let todo (op k : Nat) (c : HCmd) : Prop := hlkUp s = true ∧ todoCmd s q' id op k = some c
  let near (a : Nat) : Prop := a / 2 ^ 58 = 0 ∧ fabSpace a = 0 ∧ ownDev s (fabDev a) true = true
  let far (a : Nat) : Prop := a / 2 ^ 58 = 0 ∧ fabSpace a = 0 ∧ ownDev s (fabDev a) true = false
  let wrote (a : Nat) (bs : Bytes) (t : State) : Prop := LtaBecomes s a bs t ∧ (∀ p, HeatOnly s t p)
    ∧ SameBut (.hlk :: writeParts) s t ∧ OtherRegs tierRegs s t
  let sent (c : HCmd) (k h : Nat) (bs : Bytes) (t : State) : Prop := HostWrote s h bs t
    ∧ t.hlk = { CmdBecomes s c { c with parts := setHPart c.parts k .waits } with
        jrnl := s.hlk.jrnl ++ [newEntry s h bs.length (.part q' id k)] }
    ∧ SameBut (.hlk :: .links :: writeParts) s t ∧ OtherRegs (Csr.HLK_JSEQ_NEXT :: tierRegs) s t
  (∀ c, todo 0 0 c → Does (.hlkNop q cid) s fun t => t.hlk = did c 0 0 ∧ SameBut [.hlk] s t)
  ∧ (∀ c, let a := cAddr1 c; let bs := bytesAt c.bytes 32 (cInline c)
    todo 1 0 c →
    (cDstHost c = false → near a → WritesNow s (fabOff a) (cInline c) → Does (.writeInline q cid ext) s fun t =>
      wrote (fabOff a) bs t ∧ t.hlk = did c 0 0)
    ∧ (cDstHost c = false → far a → Does (.writeInline q cid ext) s fun t => t.hlk = did c 0 ext.status.toNat ∧ SameBut [.hlk] s t)
    ∧ (∀ h, cDstHost c = true → a < 2 ^ 44 → HostReady s a (cInline c) h → Does (.writeInline q cid ext) s (sent c 0 h bs)))
  ∧ (∀ c k dst, let n := min 4096 (cLen c - 4096 * k); let a := (cAddr0 c + 4096 * k) % 2 ^ 64
    let b := (cAddr1 c + 4096 * k) % 2 ^ 64; let bs := bytesAt ext.data 0 n
    todo 2 k c →
    (cSrcHost c = false → cDstHost c = false → near a → near b → ReadsNow s (fabOff a) n → WritesNow s (fabOff b) n →
      Does (.copy q cid k ext dst) s fun t => wrote (fabOff b) (ltaBytes s (fabOff a) n) t ∧ t.hlk = did c k 0)
    ∧ (∀ h, cSrcHost c = true → cDstHost c = false → a < 2 ^ 44 → session s ≠ 0 → hostAddr s a n false = some h → ext.status = 0 →
      near b → WritesNow s (fabOff b) n → Does (.copy q cid k ext dst) s fun t => wrote (fabOff b) bs t ∧ t.hlk = did c k 0)
    ∧ (∀ h, cSrcHost c = false → cDstHost c = true → far a → ext.status = 0 → b < 2 ^ 44 → HostReady s b n h →
      Does (.copy q cid k ext dst) s (sent c k h bs))
    ∧ (∀ h, cSrcHost c = false → cDstHost c = true → near a → ReadsNow s (fabOff a) n → b < 2 ^ 44 → HostReady s b n h →
      Does (.copy q cid k ext dst) s (sent c k h (ltaBytes s (fabOff a) n)))
    ∧ (∀ h, cSrcHost c = true → cDstHost c = true → a < 2 ^ 44 → hostAddr s a n false = some h → ext.status ≠ 0 →
      Does (.copy q cid k ext dst) s fun t => t.hlk = did c k 0x07 ∧ SameBut [.hlk] s t))
  ∧ (∀ c, let a := cAddr0 c; todo 3 0 c → near a → ReadsNow s (fabOff a) (cLen c) → Does (.readSmall q cid ext) s fun t =>
    t.hlk = CmdBecomes s c { c with
      parts := setHPart c.parts 0 (.ended 0)
      result := fieldAt (ltaBytes s (fabOff a) (cLen c)) 0 (cLen c) }
    ∧ (∀ p, HeatOnly s t p) ∧ SameBut (.hlk :: readParts) s t ∧ OtherRegs tierRegs s t)
  ∧ (∀ c, let pi := fld s Csr.HLK_FWQ_PI 16 0; let n := ringCount pi (fld s Csr.HLK_FWQ_CI 16 0); let lg := fld s Csr.HLK_FWQ_SIZE 4 0
    let a := rd s Csr.HLK_FWQ_BASE % 2 ^ 44 + 128 * (pi % 2 ^ lg)
    todo 4 0 c → flag s Csr.HLK_FWQ_SIZE 31 = true → n < 2 ^ lg → WritesNow s a 128 → Does (.fwCall q cid) s fun t => ∃ u,
      LtaBecomes s a (bytesAt c.bytes 0 28 ++ toLE c.sq 1 ++ toLE c.incarn 1 ++ bytesAt c.bytes 30 98) u
      ∧ fld u Csr.HLK_FWQ_PI 16 0 = (pi + 1) % 2 ^ 17 ∧ u.hlk = CmdBecomes s c { c with away := true } ∧ (∀ p, HeatOnly s u p)
      ∧ SameBut (.hlk :: writeParts) s u ∧ OtherRegs (Csr.HLK_FWQ_PI :: tierRegs) s u
      ∧ t = if n = 0 then raise u 80 0x05 ((pi + 1) % 2 ^ 17) 0 else u)
  ∧ (∀ c, let st := s.pwr.state; let t := fieldAt c.bytes 33 1; let now := s.pwr.entry = none ∧ s.pwr.waking = none
    let done (x : Nat) (t : State) : Prop := t.hlk = did c 0 x ∧ SameBut [.hlk] s t
    todo 5 0 c → pwrUp s = true → fieldAt c.bytes 32 1 = 1 →
    (flag s Csr.PWR_CFG t = false → Does (.powerEnter q cid) s (done 0x0A))
    ∧ (flag s Csr.PWR_CFG t = true → t = st → Does (.powerEnter q cid) s (done 0))
    ∧ (flag s Csr.PWR_CFG t = true → t ≠ 0 → st = 0 → now → Does (.powerEnter q cid) s fun r => ∃ u,
      u.hlk = CmdBecomes s c { c with away := true }
      ∧ u.pwr = { s.pwr with entry := some { target := t, sq := c.sq, cid := cCid c } }
      ∧ SameBut [.hlk, .pwr] s u ∧ r = if 2 ≤ t then raise u 2 0x01 t (cCid c) else u))
  ∧ (∀ c, todo 5 0 c → fieldAt c.bytes 32 1 = 2 → Does (.powerQuery q cid) s fun t =>
    t.hlk = CmdBecomes s c { c with result := pwrStat s, parts := setHPart c.parts 0 (.ended 0) } ∧ SameBut [.hlk] s t)
  ∧ (∀ (i : Initiator) (hi lo : W32), let a := Csr.HLK_FW_DONE; let vc := Csr.GLB_VIOL_CNT
    let hit (c : HCmd) : Bool := c.away && decide (cOp c = 4) && decide (c.sq = bits hi.toNat 15 8)
      && decide (cCid c = bits lo.toNat 15 0) && decide (c.incarn = bits hi.toNat 23 16)
    Access s i (a + 4) true → smGet none s.heldLow (iniKey i a) = some lo →
    (∀ c, s.hlk.cmds.find? hit = some c → Does (.fwDone i hi) s fun t =>
      t.hlk = CmdBecomes s c { c with
        away := false
        parts := [.ended (bits hi.toNat 31 24)]
        result := rd s Csr.HLK_FW_RESULT }
      ∧ smGet none t.heldLow (iniKey i a) = none ∧ SameBut [.hlk, .heldLow] s t)
    ∧ (s.hlk.cmds.find? hit = none → rd s vc + 1 < 2 ^ 32 - 1 → Does (.fwDone i hi) s fun t =>
      rd t vc = rd s vc + 1 ∧ SameBut [.csr, .heldLow] s t ∧ OtherRegs [vc, Csr.GLB_VIOL_CAP] s t))

/-! ### Processors -/

/-- R442 to R448: one instruction of a running processor (PRESUMED from RISC-V, log entry 140), its accesses of the regions, and the
interrupt, the failed fetch and the lock-up in its place. -/
def Obligations.ProcessorInstructions : Prop := ∀ (s : State) (p : Fin 8) (len : Nat) (ff : Option Byte), HartRuns s p len →
  let h := { hartOf s p with trapped := false }; let next := (h.pc + len) % 2 ^ 64
  let goes (k : Hart) (pc : Nat) (t : State) : Prop := hartOf t p = { k with pc := pc, instret := k.instret + 1 } ∧ OtherHarts p s t
  let here (k : Hart) (pc : Nat) (t : State) : Prop := goes k pc t ∧ SameBut [.harts] s t
  let fetched := irqNow s p = none ∧ h.pc % 2 = 0 ∧ regionOf h.pc 2 ≠ .none ∧ ∀ st, ff = some st → st = 0
  let rel (imm : Int) : Nat := (w64 h.pc + BitVec.ofInt 64 imm).toNat
  let addr (r : Fin 32) (imm : Int) : Nat := (xOf h r + BitVec.ofInt 64 imm).toNat
  let traps (c v : Nat) (t : State) : Prop := Traps s p c v false t ∧ SameBut [.harts] s t
  let line (t : State) (l : Nat) : Option Bytes := smGet none (smGet [] t.dcache p.val) l
  let run (op : RvInstr) (P : State → Prop) : Prop := Does (.procInstruction p op len ff) s P
  let err := Csr.PROC_ERR p
  let fails (st a c : Nat) (t : State) : Prop := Traps s p c a false t ∧ SameBut [.harts, .csr] s t ∧ OtherRegs [err] s t
    ∧ rd t err = if flag s err 63 then rd s err else 2 ^ 63 + st * 2 ^ 48 + a % 2 ^ 48
  (fetched →
    (∀ op d a b, run (.alu op d a b) (here (setX h d (aluDo op (xOf h a) (xOf h b))) next))
    ∧ (∀ op d a imm, run (.alui op d a imm) (here (setX h d (aluDo op (xOf h a) (BitVec.ofInt 64 imm))) next))
    ∧ (∀ d imm, run (.lui d imm) (here (setX h d (sext32 (BitVec.ofInt 64 (imm * 4096)))) next)
      ∧ run (.auipc d imm) (here (setX h d (w64 h.pc + sext32 (BitVec.ofInt 64 (imm * 4096)))) next)
      ∧ run (.jal d imm) (here (setX h d (w64 next)) (rel imm)))
    ∧ (∀ d a imm, run (.jalr d a imm) (here (setX h d (w64 next)) (addr a imm / 2 * 2)))
    ∧ (∀ c a b imm, run (.branch c a b imm) (here h (if brTaken c (xOf h a) (xOf h b) then rel imm else next)))
    ∧ (∀ w, run (.fence w) (here h next)) ∧ run .fenceI (here h next) ∧ run .wfi (here { h with st := .wfi } next)
    ∧ run .ecall (traps 11 0) ∧ run .ebreak (traps 3 h.pc) ∧ run .illegal (traps 2 0)
    ∧ run .mret (fun t => ∃ m : W64, here { h with mstatus := m } h.mepc.toNat t ∧ m.getLsbD 3 = h.mstatus.getLsbD 7
      ∧ m.getLsbD 7 = true ∧ m &&& ~~~0x88 = h.mstatus &&& ~~~0x88)
    ∧ (∀ w st n d a old, let v := if w then (xOf h a).toNat else if st then old ||| (xOf h a).toNat else without64 old (xOf h a).toNat
      let put : Bool := w || decide (a.val ≠ 0)
      csrValue s p n = some old →
      ((put = false ∨ n / 1024 % 4 ≠ 3) → run (.csr w st n d a) fun t =>
        goes (setX (if put then csrPut h n v else h) d (w64 old)) next t ∧ SameBut [.harts, .freeCtr] s t)
      ∧ (put = true → n / 1024 % 4 = 3 → run (.csr w st n d a) (traps 2 0)))
    ∧ (∀ w st n d (z : Fin 32) old, let v := if w then z.val else if st then old ||| z.val else without64 old z.val
      let put : Bool := w || decide (z.val ≠ 0)
      csrValue s p n = some old → (put = false ∨ n / 1024 % 4 ≠ 3) → run (.csri w st n d z) fun t =>
        goes (setX (if put then csrPut h n v else h) d (w64 old)) next t ∧ SameBut [.harts, .freeCtr] s t)
    ∧ (∀ op x d a b c rm, bits h.mstatus.toNat 14 13 ≠ 0 →
      (∀ r, roundMode h rm.val = some r → run (.fp op x d a b c rm) (here (fpDo h op x d a b c r) next))
      ∧ (roundMode h rm.val = none → fpRounds op = true → run (.fp op x d a b c rm) (traps 2 0)))
    ∧ (∀ op x d a b c rm r, bits h.mstatus.toNat 14 13 = 0 → roundMode h rm.val = some r → run (.fp op x d a b c rm) (traps 2 0))
    ∧ (∀ z u d a imm ext, let n := accLen z; let e := addr a imm; let lta := e - 2 ^ 44; let l := lta / 64 * 64
      let loaded (bs : Bytes) : Hart := setX h d (loadValue n u (fieldAt bs 0 n))
      (e % n = 0 → regionOf e n = .loc (e - 2 ^ 28) → ext.status ≠ 3 →
        run (.load z u d a imm ext) (here (loaded (memRead h.lmem (e - 2 ^ 28) n)) next))
      ∧ (e % n = 0 → regionOf e n = .loc (e - 2 ^ 28) → ext.status = 3 → run (.load z u d a imm ext) (fails 3 e 5))
      ∧ (∀ r, n = 4 → e % 4 = 0 → e + 4 ≤ 2 ^ 28 → Reaches s (hartIni p) e false r → r.row.wide = false →
        (∀ f ∈ r.row.fields, f.acc ≠ .rc) →
        run (.load z u d a imm ext) (here (loaded (toLE (regView s r % 2 ^ 32) 4)) next))
      ∧ (e % n = 0 → regionOf e n = .tensor lta →
        (∀ bs, line s l = some bs → run (.load z u d a imm ext) (here (loaded (bytesAt bs (lta % 64) n)) next))
        ∧ (line s l = none → ReadsNow s l 64 → run (.load z u d a imm ext) fun t =>
          goes (loaded (bytesAt (ltaBytes s l 64) (lta % 64) n)) next t ∧ line t l = some (ltaBytes s l 64) ∧ (∀ p, HeatOnly s t p)
          ∧ SameBut (.harts :: .dcache :: .freeCtr :: readParts) s t ∧ OtherRegs tierRegs s t))
      ∧ (e % n = 0 → regionOf e n = .host (e - 2 ^ 45) → session s = 0 → s.hlk.lost = true →
        run (.load z u d a imm ext) (fails 7 e 5))
      ∧ (∀ w, e % n = 0 → regionOf e n = .host (e - 2 ^ 45) → session s ≠ 0 → hostAddr s (e - 2 ^ 45) n false = some w →
        ext.status = 0 → run (.load z u d a imm ext) (here (loaded (bytesAt ext.data 0 n)) next))
      ∧ (∀ i o f, e % n = 0 → regionOf e n = .aper i o → aperAddr s p i o = some f → ownDev s (fabDev f) true = false →
        ext.status = 0 → run (.load z u d a imm ext) (here (loaded (bytesAt ext.data 0 n)) next))
      ∧ (e % n = 0 → regionOf e n = .none → run (.load z u d a imm ext) (traps 5 e)))
    ∧ (∀ z a b imm ext, let n := accLen z; let e := addr a imm; let lta := e - 2 ^ 44; let l := lta / 64 * 64
      let bs := toLE (xOf h b).toNat n
      (∀ o, e % n = 0 → regionOf e n = .loc o → run (.store z a b imm ext) fun t => ∃ m, here { h with lmem := m } next t
        ∧ memRead m o n = bs ∧ ∀ x, x < o ∨ o + n ≤ x → memByte m x = memByte h.lmem x)
      ∧ (n = 4 → e % 4 = 0 → e + 4 ≤ 2 ^ 28 → run (.store z a b imm ext) fun t => ∃ u,
        exec (.registerWrite (hartIni p) e 4 (BitVec.ofNat 32 (xOf h b).toNat)) (setHart s p h) = .next u
        ∧ t = setHart u p { hartOf u p with pc := next, instret := (hartOf u p).instret + 1 })
      ∧ (e % n = 0 → regionOf e n = .tensor lta → WritesNow s lta n → run (.store z a b imm ext) fun t =>
        LtaBecomes s lta bs t ∧ goes h next t ∧ (line s l = none → line t l = none)
        ∧ (∀ d, line s l = some d → d.length = 64 → line t l = some (d.take (lta % 64) ++ bs ++ d.drop (lta % 64 + n)))
        ∧ (∀ p, HeatOnly s t p) ∧ SameBut (.harts :: .dcache :: writeParts) s t ∧ OtherRegs tierRegs s t)
      ∧ (∀ o, regionOf e n = .rom o → e % n = 0 → run (.store z a b imm ext) (traps 7 e)))
    ∧ (∀ z d a, let n := accLen z; let e := (xOf h a).toNat
      (∀ o, e % n = 0 → regionOf e n = .loc o → run (.lr z d a)
        (here { setX h d (loadValue n false (fromLE (memRead h.lmem o n))) with resv := some (o, n) } next))
      ∧ (e % n = 0 → (∀ o, regionOf e n ≠ .loc o) → run (.lr z d a) (traps 5 e)))
    ∧ (∀ z d a b, let n := accLen z; let e := (xOf h a).toNat; let bs := toLE (xOf h b).toNat n
      (∀ o, e % n = 0 → regionOf e n = .loc o → h.resv = some (o, n) → run (.sc z d a b) fun t => ∃ m,
        here { setX { h with resv := none } d 0 with lmem := m } next t
        ∧ memRead m o n = bs ∧ ∀ x, x < o ∨ o + n ≤ x → memByte m x = memByte h.lmem x)
      ∧ (∀ o, e % n = 0 → regionOf e n = .loc o → h.resv ≠ some (o, n) → run (.sc z d a b)
        (here (setX { h with resv := none } d 1) next))
      ∧ (e % n = 0 → (∀ o, regionOf e n ≠ .loc o) → run (.sc z d a b) (traps 7 e)))
    ∧ (∀ op z d a b, let n := accLen z; let e := (xOf h a).toNat; let lta := e - 2 ^ 44
      let new (old : Nat) : Bytes := toLE (amoDo op (BitVec.ofNat (8 * n) old) (BitVec.ofNat (8 * n) (xOf h b).toNat)).toNat n
      (∀ o, let old := fromLE (memRead h.lmem o n); e % n = 0 → regionOf e n = .loc o → run (.amo op z d a b) fun t => ∃ m,
        here { setX h d (loadValue n false old) with lmem := m } next t ∧ memRead m o n = new old
        ∧ ∀ x, x < o ∨ o + n ≤ x → memByte m x = memByte h.lmem x)
      ∧ (let old := fieldAt (ltaBytes s lta n) 0 n; e % n = 0 → regionOf e n = .tensor lta → WritesNow s lta n →
        run (.amo op z d a b) fun t =>
          LtaBecomes s lta (new old) t ∧ goes (setX h d (loadValue n false old)) next t ∧ line t (lta / 64 * 64) = none
          ∧ (∀ p, HeatOnly s t p) ∧ SameBut (.harts :: .dcache :: writeParts) s t ∧ OtherRegs tierRegs s t))
    ∧ (∀ x d a imm ext o, let n := if x then 8 else 4; let e := addr a imm
      bits h.mstatus.toNat 14 13 ≠ 0 → e % n = 0 → regionOf e n = .loc o → ext.status ≠ 3 → run (.fload x d a imm ext)
        (here (setF h d (if x then w64 (fieldAt (memRead h.lmem o n) 0 n) else nanBox (fieldAt (memRead h.lmem o n) 0 n))) next))
    ∧ (∀ x a b imm ext o, let n := if x then 8 else 4; let e := addr a imm
      bits h.mstatus.toNat 14 13 ≠ 0 → e % n = 0 → regionOf e n = .loc o → run (.fstore x a b imm ext) fun t => ∃ m,
        here { h with lmem := m } next t ∧ memRead m o n = toLE (fOf h b).toNat n
        ∧ ∀ x, x < o ∨ o + n ≤ x → memByte m x = memByte h.lmem x))
  ∧ (∀ op, (∀ c, irqNow s p = some c → run op fun t => Traps s p c 0 true t ∧ SameBut [.harts] s t)
    ∧ (irqNow s p = none → h.pc % 2 = 1 → (hartOf s p).trapped = false → run op (traps 0 h.pc))
    ∧ (∀ st, irqNow s p = none → h.pc % 2 = 0 → ff = some st → st ≠ 0 → regionOf h.pc 2 ≠ .none → (hartOf s p).trapped = false →
      run op (fails st.toNat h.pc 1))
    ∧ (irqNow s p = none → h.pc % 2 = 0 → regionOf h.pc 2 = .none → (hartOf s p).trapped = true → run op fun t => ∃ u,
      hartOf u p = { hartOf s p with st := .lockup } ∧ OtherHarts p s u ∧ SameBut [.harts] s u
      ∧ let r := raise u (48 + p) 0x02 h.pc h.mcause.toNat
        if flag s (Csr.PROC_CTRL p) 3 = true then exec (.resetSourceAssert .lockup .core (some p)) r = .next t else t = r))

/-- R447 to R449: interrupts, run, halt and cache invalidation, timers and watchdogs of the processors. -/
def Obligations.ProcessorControl : Prop := ∀ (s : State) (i : Initiator) (p : Fin 8), let h := hartOf s p; let c := Csr.PROC_CTRL p
  let becomes (k : Hart) (t : State) : Prop := hartOf t p = k ∧ OtherHarts p s t
  let vc := Csr.GLB_VIOL_CNT; let ws := Csr.PROC_WDT_STAT p
  let loaded := { h with wdtLeft := fld s (Csr.PROC_WDT p) 23 0, wdtAt := s.stamp }
  let synced := { h with wdtLeft := wdtCount s p, wdtAt := s.stamp }
  ((bit (mipOf s p) 3 = flag s (Csr.PROC_MSIP p) 0) ∧ (bit (mipOf s p) 7 = decide (rd s (Csr.PROC_MTIMECMP p) ≤ s.stamp))
    ∧ (bit (mipOf s p) 11 = tgtIrq (tgtOf s p)))
  ∧ (Access s i c true → h.st = .halted → Does (.procRun i p) s fun t =>
    becomes { synced with st := .running, pc := fld s (Csr.PROC_BOOT p) 47 0, trapped := false, resv := none } t
    ∧ SameBut [.harts] s t)
  ∧ (Access s i c true → h.st ≠ .halted → Does (.procRun i p) s fun t => SameBut [] s t)
  ∧ (Access s i c true → h.st ≠ .halted → Does (.procHalt i p) s fun t => ∃ u,
    becomes { synced with st := .halted, hostIo := none } u
    ∧ u.hlk = { s.hlk with jrnl := s.hlk.jrnl.map (fun j => if j.owner = .hart p then { j with owner := .none } else j) }
    ∧ SameBut [.harts, .hlk] s u ∧ t = raise u (48 + p) 0x03 h.pc 0)
  ∧ (Access s i c true → h.st = .halted → Does (.procHalt i p) s fun t => SameBut [] s t)
  ∧ (Access s i c true → Does (.procDinv i p) s fun t =>
    smGet [] t.dcache p.val = [] ∧ (∀ q, q ≠ p.val → smGet [] t.dcache q = smGet [] s.dcache q) ∧ SameBut [.dcache] s t)
  ∧ (procUp s p = true → h.st = .wfi → irqPending s p = true → Does (.procWfiWake p) s fun t =>
    becomes { h with st := .running } t ∧ SameBut [.harts] s t)
  ∧ Does (.mtimecmpMatch p) s (fun t => t.stamp = max s.stamp (rd s (Csr.PROC_MTIMECMP p)) ∧ bit (mipOf t p) 7 = true
      ∧ SameBut [.stamp] s t)
  ∧ (∀ v : W32, Access s i (Csr.PROC_WDT_KICK p) true →
    (v.toNat % 2 ^ 16 = 0x6B6B → Does (.wdtKick i p v) s fun t => becomes loaded t ∧ SameBut [.harts] s t)
    ∧ (v.toNat % 2 ^ 16 ≠ 0x6B6B → rd s vc + 1 < 2 ^ 32 - 1 → Does (.wdtKick i p v) s fun t =>
      rd t vc = rd s vc + 1 ∧ SameBut [.csr] s t ∧ OtherRegs [vc, Csr.GLB_VIOL_CAP] s t))
  ∧ (procUp s p = true → wdtRuns s p = true →
    (flag s ws 31 = false → Does (.wdtExpire p) s fun t => ∃ u,
      becomes loaded u ∧ flag u ws 31 = true ∧ SameBut [.harts, .csr] s u ∧ OtherRegs [ws] s u ∧ t = raise u (48 + p) 0x01 h.pc 0)
    ∧ (flag s ws 31 = true → Does (.wdtExpire p) s fun t =>
      exec (.resetSourceAssert .watchdog .core (some p)) s = .next t))

/-! ### Events -/

/-- R454, R456 to R460, R462, R464: raises by software and by lines, delivery into the rings, nesting, consumption, purging and the
Dome's buffer. -/
def Obligations.Events : Prop := ∀ (s : State) (i : Initiator) (t : Fin 9), let v := tgtOf s t; let cf := Csr.EVT_TGT_CFG t
  let vc := Csr.GLB_VIOL_CNT; let ns := Csr.EVT_TGT_NEST t; let lg := fld s cf 3 0; let calm := HostSettled s
  let viol (u : State) : Prop := rd u vc = rd s vc + 1 ∧ SameBut [.csr] s u ∧ OtherRegs [vc, Csr.GLB_VIOL_CAP] s u
  (∀ x : W32, Access s i Csr.EVT_SWRAISE true → Does (.evtSwraise i x) s fun u =>
    u = raise s (16 + bits x.toNat 4 0) (bits x.toNat 15 8) (bits x.toNat 31 16) (iniHart i))
  ∧ (∀ f r b, let ring := rd s (Csr.EVT_TGT_BASE t) % 2 ^ 44 + 32 * (v.pi % 2 ^ lg); let rcd := recBytes r v.seq
    let new := { v with pi := (v.pi + 1) % 2 ^ 17, seq := (v.seq + 1) % 2 ^ 32, groups := v.groups ++ [r.level / 2 ^ fld s cf 26 24] }
    let line (x : State) (p l : Nat) : Option Bytes := smGet none (smGet [] x.dcache p) l
    works s 41 = true → flag s Csr.EVT_CTRL 0 = true → flag s cf 31 = true → v.fault = false → ringCount v.pi v.ci < 2 ^ lg →
    s.evt.pool = f ++ r :: b → recEligible s t r = true →
    (∀ x ∈ f, recEligible s t x = true → x.level < r.level ∨ (x.level = r.level ∧ r.src < x.src)) →
    (∀ x ∈ b, recEligible s t x = true → x.level < r.level ∨ (x.level = r.level ∧ r.src ≤ x.src)) →
    (t.val < 8 → HostSettled s → WritesNow s ring 32 → Does (.evtRingWrite t) s fun u =>
      LtaBecomes s ring rcd u ∧ tgtOf u t = new ∧ (∀ q, q ≠ t.val → tgtOf u q = tgtOf s q)
      ∧ u.evt = { s.evt with pool := f ++ b, tgts := u.evt.tgts } ∧ line u t (ring / 64 * 64) = none
      ∧ (∀ p l, p ≠ t.val ∨ l ≠ ring / 64 * 64 → line u p l = line s p l) ∧ (∀ p, HeatOnly s u p)
      ∧ SameBut (.evt :: .dcache :: writeParts) s u ∧ OtherRegs tierRegs s u)
    ∧ (let vec := Csr.HLK_VEC_CTRL (fld s cf 23 16)
      t.val = 8 → v.irqSeen = false → nestMay new = true → flag s vec 0 = true → WritesNow s ring 32 → Does (.evtRingWrite t) s fun u =>
        LtaBecomes s ring rcd u ∧ tgtOf u t = { new with irqSeen := true } ∧ (∀ q, q ≠ t.val → tgtOf u q = tgtOf s q)
        ∧ u.evt = { s.evt with pool := f ++ b, tgts := u.evt.tgts } ∧ flag u vec 1 = true ∧ (∀ p, HeatOnly s u p)
        ∧ SameBut (.evt :: writeParts) s u ∧ OtherRegs (vec :: tierRegs) s u)
    ∧ (∀ w st, t.val < 8 → HostSettled w → ltaWrite s (engKey 23 t 0) ring rcd = (w, some st) → st ≠ 0 → Does (.evtRingWrite t) s fun u =>
      u = raise (setTgt w t { tgtOf w t with fault := true, fstat := st }) 3 0x02 t st))
  ∧ (Access s i ns true → calm →
    (∀ g, signalled v = some g → nestMay v = true → v.stack.length < 16 → Does (.evtNestEnter i t) s
      (TargetBecomes s t { v with stack := g :: v.stack }))
    ∧ (nestMay v = false → Does (.evtNestEnter i t) s fun u => SameBut [] s u)
    ∧ (∀ g l, v.stack = g :: l → (t.val = 8 → tgtIrq { v with stack := l } = true → v.irqSeen = true) → Does (.evtNestExit i t) s
      (TargetBecomes s t { v with stack := l }))
    ∧ (v.stack = [] → rd s vc + 1 < 2 ^ 32 - 1 → Does (.evtNestExit i t) s viol))
  ∧ (∀ x : W32, let k := ringCount (x.toNat % 2 ^ 17) v.ci; let ok := k ≤ ringCount v.pi v.ci
    let new := { v with ci := x.toNat % 2 ^ 17, groups := v.groups.drop k }
    Access s i (Csr.EVT_TGT_CI t) true → calm →
    (ok → (t.val = 8 → tgtIrq new = true → v.irqSeen = true) → Does (.evtTgtCiWrite i t x) s (TargetBecomes s t new))
    ∧ (¬ok → rd s vc + 1 < 2 ^ 32 - 1 → Does (.evtTgtCiWrite i t x) s viol))
  ∧ (Access s i (Csr.EVT_TGT_STAT t) true → calm → (t.val = 8 → nestMay v = true → v.irqSeen = true) → Does (.evtFaultClear i t) s
    (TargetBecomes s t { v with fault := false }))
  ∧ (∀ n, let a := Csr.EVT_SRC_CFG n; sourceExists n = true → Access s i a true → flag s a 30 = false → fld s a 11 8 ≤ 8 →
    Does (.evtSrcPurge i n) s fun u =>
      u.evt = { s.evt with pool := s.evt.pool.filter (fun r => r.src ≠ n) } ∧ SameBut [.evt] s u)
  ∧ (∀ (l : Fin 8) (up : Bool), let mode := fld s (Csr.AON_LINE l) 1 0; let e := s.evt
    let seen (u : State) : Prop := (∀ k, smGet false u.evt.lines k = if k = l.val then up else smGet false e.lines k)
      ∧ u.evt = { e with lines := u.evt.lines, linesFresh := e.linesFresh.erase l.val } ∧ SameBut [.evt] s u
    s.rst.domeValid = true →
    (e.linesFresh.contains l.val = false → smGet false e.lines l.val ≠ up → Does (.evtLineAccept l up) s fun r => ∃ u, seen u
      ∧ r = if (up = true ∧ mode = 1) ∨ (up = false ∧ mode = 0) then u
            else raise u (8 + l) (if up then 0x01 else 0x02) (l + if up then 256 else 0) 0)
    ∧ (e.linesFresh.contains l.val = true → Does (.evtLineAccept l up) s seen))
  ∧ (let d := s.evt.dome; let n := Csr.EVT_RAISED
    evtUp s = true → s.evt.pool.length + 16 + d.length ≤ 8192 → (∀ r ∈ d, pendOf s r.src + d.length ≤ 64) →
    rd s n + d.length < 2 ^ 64 → Does .domeBufferDrain s fun u =>
      u.evt = { s.evt with dome := [], pool := s.evt.pool ++ d } ∧ rd u n = rd s n + d.length ∧ SameBut [.evt, .csr] s u
      ∧ OtherRegs [n] s u)

/-! ### Boot and security -/

/-- R471, R477, R479, R485 to R487, R490, R498, R499: what the writes of BOOT and SEC do, and the ends of flash commands.
R476 to R484, R490: what the boot ROM does in its phases, while CP0 executes it. -/
def Obligations.BootCommands : Prop :=
  (∀ (s : State) (i : Initiator), let vc := Csr.GLB_VIOL_CNT; let st := Csr.BOOT_STAT
  let ctl := Access s i Csr.BOOT_CTRL true; let bt := Csr.BOOT_TRY; let fst := Csr.BOOT_FL_STAT
  let viol (t : State) : Prop := rd t vc = rd s vc + 1 ∧ SameBut [.csr] s t ∧ OtherRegs [vc, Csr.GLB_VIOL_CAP] s t
  let room := rd s vc + 1 < 2 ^ 32 - 1
  (∀ m : Fin 16, ctl →
    (bootMode s = 0xF → m.val = 4 ∨ m.val = 8 ∨ m.val = 9 → bootPhase s = 6 → Does (.modeOvr i m) s fun t =>
      bootMode t = m ∧ bootPhase t = (if m.val = 4 then 3 else 8) ∧ fld t st 27 24 = fld s st 27 24 ∧ fld t st 19 0 = fld s st 19 0
      ∧ t.boot = { s.boot with hostImg := [] } ∧ SameBut [.boot, .csr] s t ∧ OtherRegs [st] s t)
    ∧ (m.val ≠ 0 → bootMode s ≠ 0xF ∨ (m.val ≠ 4 ∧ m.val ≠ 8 ∧ m.val ≠ 9) → room → Does (.modeOvr i m) s viol))
  ∧ (ctl → ∀ k, runningSlot s = some k → Does (.confirm i) s fun t =>
    fld t bt (4 * k + 1) (4 * k) = 0 ∧ (∀ j, j < 2 → j ≠ k → fld t bt (4 * j + 1) (4 * j) = fld s bt (4 * j + 1) (4 * j)) ∧ SameBut [.csr] s t ∧ OtherRegs [bt] s t)
  ∧ (∀ r, let secs := (imSects r.image).filter (fun x => decide (x.type = 2))
    ctl → s.boot.rom = some r → bootPhase s = 6 → bootMode s = 5 ∨ bootMode s = 0xE → r.slot = some 0 →
    secs = [] ∨ (∃ x, secs = [x] ∧ x.target = 0) → Does (.bootRelease i) s fun t => ∃ u,
      hartOf u 0 = (match secs with
        | x :: _ => { hartOf s 0 with st := .running, pc := 0x10000000 + x.dest }
        | [] => { hartOf s 0 with st := .halted })
      ∧ OtherHarts 0 s u ∧ bootPhase u = 7 ∧ fld u st 27 0 = fld s st 27 0 ∧ fld u bt 1 0 = min 3 (fld s bt 1 0 + 1)
      ∧ fld u bt 5 4 = fld s bt 5 4 ∧ u.boot = { s.boot with rom := none } ∧ SameBut [.harts, .boot, .csr] s u
      ∧ OtherRegs [st, bt] s u ∧ t = raise u 5 0x01 (bootMode s + fld s st 4 4 * 16) (imSeq r.image))
  ∧ (∀ v : W32, Access s i Csr.BOOT_HOST_DATA true →
    (bootMode s = 4 → bootPhase s = 3 → s.boot.rom ≠ none → Does (.bootHostData i v) s fun t =>
      t.boot = { s.boot with hostImg := s.boot.hostImg ++ toLE v.toNat 4 } ∧ SameBut [.boot] s t)
    ∧ (bootMode s ≠ 4 → room → Does (.bootHostData i v) s viol))
  ∧ (Access s i Csr.BOOT_FL_CMD true →
    let holds (op : Nat) (id : Bytes) (t : State) : Prop := SameBut (.boot :: if op = 4 then [.freeCtr] else []) s t
      ∧ t.boot = { s.boot with flCmd := some (op, rd s Csr.BOOT_FL_ADDR, rd s Csr.BOOT_FL_LEN), flId := id }
    (s.boot.flCmd = none → Does (.flashRead i) s (holds 1 []) ∧ Does (.flashProgram i) s (holds 2 [])
      ∧ Does (.flashErase i) s (holds 3 []) ∧ ∀ id, Does (.flashReadId i id) s (holds 4 (bytesAt id 0 (min 256 id.length))))
    ∧ (s.boot.flCmd ≠ none → room → Does (.flashRead i) s viol ∧ Does (.flashProgram i) s viol ∧ Does (.flashErase i) s viol
      ∧ ∀ id, Does (.flashReadId i id) s fun t =>
          rd t vc = rd s vc + 1 ∧ SameBut [.csr, .freeCtr] s t ∧ OtherRegs [vc, Csr.GLB_VIOL_CAP] s t))
  ∧ (∀ op a n, let page := 1 ≤ n ∧ a % 256 + n ≤ 256
    let bufs := (List.range 64).map Csr.BOOT_FL_BUF
    let ends (code : Nat) (regs : List Nat) (fl : SMap Byte) (P : State → Prop) (t : State) : Prop := ∃ u, P u
      ∧ u.boot = { s.boot with flCmd := none, flId := [], flash := fl } ∧ fld u fst 31 24 = code ∧ fld u fst 23 0 = fld s fst 23 0
      ∧ SameBut [.boot, .csr] s u ∧ OtherRegs (fst :: regs) s u ∧ t = raise u 5 0x05 (op + code * 256) a
    let fl := s.boot.flash
    s.boot.flCmd = some (op, a, n) → blkUp s .boot = true →
    (op = 1 → page → Does .flashDone s (ends 0 bufs fl fun u => flBuf u = flashBytes s a n ++ (flBuf s).drop n))
    ∧ (op = 2 → page → flashMay s a = true → Does .flashDone s fun t => ∃ f, ends 0 [] f (fun _ => True) t ∧ ∀ x,
      smGet 0xFF f x = if a ≤ x ∧ x < a + n then smGet 0xFF fl x &&& (flBuf s).getD (x - a) 0 else smGet 0xFF fl x)
    ∧ (op = 3 → flashMay s a = true → Does .flashDone s fun t => ∃ f, ends 0 [] f (fun _ => True) t ∧ ∀ x,
      smGet 0xFF f x = if x / 65536 = a / 65536 then 0xFF else smGet 0xFF fl x)
    ∧ (op = 4 → s.boot.flId.length ≤ 256 → Does .flashDone s
      (ends 0 bufs fl fun u => flBuf u = s.boot.flId ++ (flBuf s).drop s.boot.flId.length))
    ∧ ((op = 1 ∨ op = 2) ∧ ¬page ∨ (op = 2 ∨ op = 3) ∧ flashMay s a = false →
      Does .flashDone s (ends 0x0A [] fl fun _ => True)))
  ∧ (∀ a, flashMay s a = true ↔ (if a < 0x10000 then bootMode s = 0xC
      else ¬(0x1000000 ≤ a ∧ a < 0x2000000 ∧ runningSlot s = some 0) ∧ ¬(0x2000000 ≤ a ∧ a < 0x3000000 ∧ runningSlot s = some 1)))
  ∧ (let l := Csr.SEC_LOCK; Access s i l true → Does (.secPermLock i) s fun t =>
    flag t l 0 = true ∧ flag t Csr.SEC_STAT 0 = true ∧ fld t Csr.SEC_STAT 31 1 = fld s Csr.SEC_STAT 31 1 ∧ SameBut [.csr] s t
    ∧ OtherRegs [l, Csr.SEC_STAT] s t)
  ∧ (Access s i Csr.SEC_CMD true →
    let holds (op : Nat) (t : State) : Prop := SameBut [.boot] s t
      ∧ t.boot = { s.boot with secCmd := some (op, rd s (Csr.SEC_CMD_ARG 0), rd s (Csr.SEC_CMD_ARG 1)) }
    (s.boot.secCmd = none → Does (.secHash i) s (holds 1) ∧ Does (.secVerify i) s (holds 2) ∧ Does (.secExtend i) s (holds 3)
      ∧ Does (.secReport i) s (holds 4) ∧ Does (.svnSet i) s (holds 5) ∧ Does (.keyProgram i) s (holds 6)
      ∧ Does (.keyRevoke i) s (holds 7) ∧ Does (.lifecycleAdvance i) s (holds 8))
    ∧ (s.boot.secCmd ≠ none → room → Does (.secHash i) s viol ∧ Does (.secVerify i) s viol ∧ Does (.secExtend i) s viol
      ∧ Does (.secReport i) s viol ∧ Does (.svnSet i) s viol ∧ Does (.keyProgram i) s viol ∧ Does (.keyRevoke i) s viol
      ∧ Does (.lifecycleAdvance i) s viol)))
  ∧ (∀ (s : State) (len : Nat) (op : RvInstr) (ff : Option Byte) (r : Rom), let st := Csr.BOOT_STAT
  let step (P : State → Prop) : Prop := Does (.procInstruction 0 op len ff) s P
  let phase (n : Nat) (t : State) : Prop := bootPhase t = n ∧ fld t st 27 5 = fld s st 27 5
  let rom (r' : Rom) (t : State) : Prop := t.boot = { s.boot with rom := some r' }
  let safe (t : State) : Prop := bootPhase t = 6 ∧ bootMode t = 0xF ∧ fld t st 27 24 = fld s st 27 24
    ∧ fld t st 19 0 = fld s st 19 0 ∧ rom {} t ∧ OtherRegs [st, Csr.SEC_STAT] s t
  procUp s 0 = true → (hartOf s 0).st = .running → len = 2 ∨ len = 4 → romRuns s = some r →
  (bootPhase s = 0 → step fun t => phase 1 t ∧ fld t st 4 0 = fld s st 4 0 ∧ SameBut [.csr] s t ∧ OtherRegs [st] s t)
  ∧ (∀ k, k < 2 → bootPhase s = 2 → nextSlot s r = some k → step fun t =>
    phase 3 t ∧ fld t st 4 4 = k ∧ fld t st 3 0 = fld s st 3 0 ∧ rom { r with slot := some k } t ∧ SameBut [.boot, .csr] s t
    ∧ OtherRegs [st] s t)
  ∧ (bootPhase s = 2 → nextSlot s r = none → step fun t => safe t ∧ SameBut [.boot, .csr] s t)
  ∧ ((∀ x, slotConsidered s r 0 = true → slotConsidered s r 1 = true → serial 32 (imSeq (slotHeader s 1)) (imSeq (slotHeader s 0)) = x →
      (x = .later → nextSlot s r = some 1) ∧ (x ≠ .later → nextSlot s r = some 0))
    ∧ (slotConsidered s r 0 = true → slotConsidered s r 1 = false → nextSlot s r = some 0)
    ∧ (slotConsidered s r 0 = false → slotConsidered s r 1 = true → nextSlot s r = some 1)
    ∧ (slotConsidered s r 0 = false → slotConsidered s r 1 = false → nextSlot s r = none))
  ∧ (∀ k b x, let code := (imSects b).filter (fun x => decide (x.type = 1) || decide (x.type = 2))
    b = flashBytes s (slotBase k) slotSize → bootPhase s = 3 → r.slot = some k → imageFormOk b slotSize = true → code = [x] →
    inResetBit s (procBit x.target) = false → step fun t => ∃ m,
      hartOf t x.target = { hartOf s x.target with lmem := m } ∧ memRead m x.dest x.len = bytesAt b x.off x.len
      ∧ (∀ y, y < x.dest ∨ x.dest + x.len ≤ y → memByte m y = memByte (hartOf s x.target).lmem y) ∧ OtherHarts x.target s t
      ∧ phase 4 t ∧ fld t st 4 0 = fld s st 4 0 ∧ rom { r with image := b, wrote := [x.target] } t
      ∧ SameBut [.harts, .boot, .csr] s t ∧ OtherRegs [st] s t)
  ∧ (let b := r.image; let sv := Csr.BOOT_SVN; let perm := sectBytes b 4
    let perms := (List.range 19).map Csr.SEC_PERM
    let last := r.slot = none ∨ ∃ k, r.slot = some k ∧ nextSlot s { tried := k :: r.tried } = none
    bootPhase s = 4 → last → step fun t =>
      if imageValid s b = true then
        phase 5 t ∧ fld t st 4 0 = fld s st 4 0 ∧ fld t sv 7 0 = imSvn b ∧ fld t sv 15 8 = fld s sv 15 8 ∧ rd t Csr.BOOT_IMAGE = imSeq b
        ∧ t.boot = { s.boot with rom := some { r with next := 0 }, keyIdx := some (imKeyIdx b % 4) }
        ∧ (∀ n, n < 19 → rd t (Csr.SEC_PERM n) = if perm = [] then rd s (Csr.SEC_PERM n) else fieldAt perm (4 * n) 4 % 1024)
        ∧ flag t Csr.SEC_LOCK 0 = true ∧ flag t Csr.SEC_STAT 0 = true ∧ fld t Csr.SEC_STAT 31 1 = fld s Csr.SEC_STAT 31 1
        ∧ SameBut [.boot, .csr] s t ∧ OtherRegs (st :: sv :: Csr.BOOT_IMAGE :: Csr.SEC_LOCK :: Csr.SEC_STAT :: perms) s t
      else
        safe t ∧ (∀ p, hartOf t p = if p ∈ r.wrote then { hartOf s p with lmem := [] } else hartOf s p)
        ∧ SameBut [.harts, .boot, .csr] s t)
  ∧ (∀ x, let cs := sectBytes r.image 3
    bootPhase s = 5 → 16 * r.next < cs.length → x = bytesAt cs (16 * r.next) 16 → fieldAt x 0 1 = 1 → step fun t => ∃ u,
      exec (.registerWrite (.cp 0) (fieldAt x 4 4) 4 (BitVec.ofNat 32 (fieldAt x 8 4))) s = .next u
      ∧ t = { u with boot := { u.boot with rom := some { r with next := r.next + 1, went := false, waitAt := none } } })
  ∧ (∀ x, let cs := sectBytes r.image 3
    bootPhase s = 5 → 16 * r.next < cs.length → x = bytesAt cs (16 * r.next) 16 → 3 < fieldAt x 0 1 →
    (∀ j ∈ s.hlk.jrnl, j.owner ≠ .hart 0) → (hartOf s 0).hostIo = none → step fun t => ∃ u v,
      u = raise s 5 0x04 r.next (fieldAt x 4 4)
      ∧ hartOf v 0 = { hartOf s 0 with st := .halted, wdtLeft := wdtCount s 0, wdtAt := s.stamp } ∧ OtherHarts 0 u v
      ∧ bootPhase v = 9 ∧ fld v st 27 0 = fld s st 27 0 ∧ SameBut [.harts, .csr] u v ∧ OtherRegs [st] u v
      ∧ t.boot = { s.boot with rom := none }
      ∧ ∃ w, w = raise v 48 0x03 (hartOf s 0).pc 0 ∧ t = raise { w with boot := t.boot } 5 0x03 5 0))

/-- R488, R491, R492, R494, R495, R497, R498: how the commands of SEC end, and the signing of a hello's proof. -/
def Obligations.SecurityCommands : Prop := ∀ (s : State) (op a b : Nat), let st := Csr.SEC_CMD_STAT
  let words (c n : Nat) : List Nat := (List.range n).map (fun k => c + 4 * k)
  let ends (code : Nat) (bt : Boot) (tier : Bool) (regs : List Nat) (P : State → Prop) (t : State) : Prop := ∃ u, P u
    ∧ u.boot = { bt with secCmd := none } ∧ fld u st 31 24 = code ∧ (2 ≠ op → flag u st 8 = flag s st 8)
    ∧ SameBut (.boot :: .csr :: if tier then writeParts else []) s u
    ∧ OtherRegs (st :: regs ++ if tier then tierRegs else []) s u ∧ t = raise u 6 code op 0
  let read (n : Nat) (x : Nat) : Prop := ReadsNow s x n
  let num (c n : Nat) (u : State) : Nat := rdWords u c n
  let bt := s.boot; let dig := Csr.SEC_DIGEST 0; let sv := Csr.BOOT_SVN; let os := Csr.SEC_OWNER_STAT
  let blown (w v : Nat) (f : SMap W32) : Prop := ∀ x, smGet 0 f x =
    if x = w ∨ x = 128 + w then smGet 0 bt.blown x ||| BitVec.ofNat 32 v else smGet 0 bt.blown x
  (bt.secCmd = some (op, a, b) → blkUp s .sec = true →
    (op = 1 → read b a → Does .secCmdDone s (ends 0 bt true (words dig 12) fun u =>
      num dig 12 u = (Config.sha384 (ltaBytes s a b)).toNat ∧ (∀ p, HeatOnly s u p) ∧ Part.same .fast s u))
    ∧ (op = 2 → read 241 a → let d := ltaBytes s a 241
      Does .secCmdDone s (ends 0 bt true [] fun u =>
        flag u st 8 = Config.ecdsaVerify (bytesAt d 144 97) (bytesAt d 0 48) (bytesAt d 48 96) ∧ (∀ p, HeatOnly s u p)
        ∧ Part.same .fast s u))
    ∧ (op = 3 → a < 8 → (a < 4 → bootPhase s ≠ 7) → read 48 b → let m := Csr.SEC_M a 0
      Does .secCmdDone s (ends 0 bt true (words m 12) fun u =>
        num m 12 u = (Config.sha384 (toLE (num m 12 s) 48 ++ ltaBytes s b 48)).toNat ∧ (∀ p, HeatOnly s u p) ∧ Part.same .fast s u))
    ∧ (op = 3 → 8 ≤ a ∨ (a < 4 ∧ bootPhase s = 7) → Does .secCmdDone s (ends 0x0A bt false [] fun _ => True))
    ∧ (op = 4 → flag s Csr.SEC_STAT 2 = true → read 48 a → WritesNow s b 560 → let r := reportBytes s (ltaBytes s a 48)
      Does .secCmdDone s (ends 0 bt true [] fun u =>
        LtaBecomes s b (r ++ bytesAt (Config.ecdsaSign bt.seed (toLE (Config.sha384 r).toNat 48)) 0 96) u ∧ (∀ p, HeatOnly s u p)))
    ∧ (op = 4 → flag s Csr.SEC_STAT 2 = false → Does .secCmdDone s (ends 0x0B bt false [] fun _ => True))
    ∧ (op = 5 → fld s sv 15 8 ≤ a → a ≤ fld s sv 7 0 → a ≤ 64 → Does .secCmdDone s fun t => ∃ f,
      ends 0 { bt with blown := f } false [sv] (fun u => fld u sv 15 8 = a ∧ fld u sv 7 0 = fld s sv 7 0) t
      ∧ ∀ x, smGet 0 f x = if x = 3 ∨ x = 131 then smGet 0 bt.blown x ||| BitVec.ofNat 32 (2 ^ a - 1)
          else if x = 4 ∨ x = 132 then smGet 0 bt.blown x ||| BitVec.ofNat 32 ((2 ^ a - 1) / 2 ^ 32) else smGet 0 bt.blown x)
    ∧ (op = 5 → a < fld s sv 15 8 ∨ fld s sv 7 0 < a → Does .secCmdDone s (ends 0x0A bt false [] fun _ => True))
    ∧ (op = 6 → a < 4 → flag s os a = false → read 48 b → let o := Csr.SEC_OWNER a 0; let d := ltaBytes s b 48
      Does .secCmdDone s fun t => ∃ f, ends 0 { bt with blown := f } true (os :: words o 12) (fun u =>
        num o 12 u = fromLE d ∧ flag u os a = decide (fromLE d ≠ 0) ∧ (∀ k, k ≠ a → flag u os k = flag s os k)
        ∧ (∀ p, HeatOnly s u p) ∧ Part.same .fast s u) t
      ∧ ∀ x, smGet 0 f x =
        if 17 + 12 * a ≤ x ∧ x < 29 + 12 * a then smGet 0 bt.blown x ||| BitVec.ofNat 32 (fieldAt d (4 * (x - (17 + 12 * a))) 4)
        else if 145 + 12 * a ≤ x ∧ x < 157 + 12 * a then
          smGet 0 bt.blown x ||| BitVec.ofNat 32 (fieldAt d (4 * (x - (145 + 12 * a))) 4)
        else smGet 0 bt.blown x)
    ∧ (op = 6 → 4 ≤ a ∨ flag s os a = true → Does .secCmdDone s (ends 0x0A bt false [] fun _ => True))
    ∧ (op = 7 → a < 4 → bt.keyIdx ≠ some a → Does .secCmdDone s fun t => ∃ f, ends 0 { bt with blown := f } false [os] (fun u =>
      flag u os (4 + a) = true ∧ ∀ k, k ≠ 4 + a → flag u os k = flag s os k) t ∧ blown 2 (2 ^ (4 + a)) f)
    ∧ (op = 7 → 4 ≤ a ∨ bt.keyIdx = some a → Does .secCmdDone s (ends 0x0A bt false [] fun _ => True))
    ∧ (let l := lifecycle s; let fu := Csr.BOOT_FUSE; let ss := Csr.SEC_STAT
      op = 8 →
      (l < 3 → bootMode s = 0xC ∨ l = 2 → Does .secCmdDone s fun t => ∃ f, ends 0 { bt with blown := f } false [fu, ss] (fun u =>
        lifecycle u = l + 1 ∧ fld u fu 31 4 = fld s fu 31 4 ∧ flag u ss 3 = debugOpens u ∧ fld u ss 1 0 = fld s ss 1 0
        ∧ (l = 2 → flag u ss 2 = false)) t ∧ blown 2 (2 ^ l) f)
      ∧ (3 ≤ l ∨ (bootMode s ≠ 0xC ∧ l ≠ 2) → Does .secCmdDone s (ends 0x0A bt false [] fun _ => True))))
  ∧ (∀ (l : Fin 24) rest, let v := linkOf s l; let phys := toLE (rd s Csr.FABC_PHYS) 8
    let said := bytesAt v.hello 16 32 ++ bytesAt v.hello 0 8 ++ phys ++ toLE v.nonce 32
    let p := phys ++ bytesAt (Config.ecdsaSign bt.seed (toLE (Config.sha384 said).toNat 48)) 0 96
    let m := msgBytes { mtype := 6, dst := 0, src := devId s, sub := 2, len := p.length, payload := p }
    blkUp s .sec = true → flag s Csr.SEC_STAT 2 = true → s.fabc.proofs = l.val :: rest → v.st = .hello → Does (.helloProofSign l) s fun t =>
      linkOf t l = { v with txq := v.txq ++ flitsOf 3 0 (ceilDiv m.length 244) true m } ∧ OtherLinks l s t
      ∧ t.fabc = { s.fabc with proofs := rest } ∧ SameBut [.links, .fabc] s t)
  ∧ (∀ l : Fin 24, flag s Csr.SEC_STAT 2 = false → Does (.helloProofSign l) s fun t => SameBut [] s t)

/-! ### Reset -/

/-- R500 to R508: sources assert and are released; an episode takes its blocks into reset and records its sources. -/
def Obligations.ResetSources : Prop := ∀ (s : State) (i : Initiator), let x := s.rst; let vc := Csr.GLB_VIOL_CNT
  let viol (t : State) : Prop := rd t vc = rd s vc + 1 ∧ SameBut [.csr] s t ∧ OtherRegs [vc, Csr.GLB_VIOL_CAP] s t
  let room := rd s vc + 1 < 2 ^ 32 - 1
  (∀ src reach (hart : Option (Fin 8)), let h := hart.map (·.val); let r := srcReach s src (reachCode reach) h
    let who := if src = .watchdog ∨ src = .lockup then h else none; let b := srcBit src; let m := reachMask r
    srcHolds s src = true → src ≠ .powerOn → ¬(src = .debug ∧ reach = .cold) →
    (x.episode = false → x.phase = .none → x.wakeExit = false → r ≤ 2 → Does (.resetSourceAssert src reach hart) s fun t =>
      (∀ a ∈ [Csr.RST_CAUSE, Csr.RST_LAST, Csr.RST_COUNT], rd t a = rd s a) ∧ Enters s r { x with
        asserted := x.asserted ||| 2 ^ b
        episode := true
        epReach := r
        epSources := 2 ^ b
        epHart := who
        dev := x.dev ||| m
        idle := 0
        exiting := without64 x.exiting m
        blk := if r = 2 then x.blk ||| (x.idle &&& m) else 0
        sets := 0
        loads := 0 } t)
    ∧ (x.episode = true → x.phase = .none → x.epReach ≤ r → Does (.resetSourceAssert src reach hart) s fun t =>
      t.rst = { x with
        asserted := x.asserted ||| 2 ^ b
        epSources := x.epSources ||| 2 ^ b
        epHart := x.epHart.orElse (fun _ => who)
        wakeExit := false
        sets := 0
        loads := 0 } ∧ SameBut [.rst] s t)
    ∧ (x.episode = true → (x.phase ≠ .none ∨ r < x.epReach) → r ≤ 2 → x.epReach ≤ 2 →
      Does (.resetSourceAssert src reach hart) s fun t => let r' := min x.epReach r
        t.rst.asserted = x.asserted ||| 2 ^ b ∧ t.rst.epReach = r' ∧ t.rst.epSources = x.epSources ||| 2 ^ b ∧ t.rst.phase = .none
        ∧ t.rst.dev = x.dev ||| reachMask r' ∧ Enters s r' t.rst t))
  ∧ (∀ src reach hart, srcHolds s src = false → Does (.resetSourceAssert src reach hart) s fun t => SameBut [] s t)
  ∧ (∀ src asked (p : Nat), let cfg := Csr.RST_CFG
    srcReach s .powerOn asked none = 0 ∧ srcReach s .brownout asked none = 0 ∧ srcReach s .pin asked none = fld s cfg 1 0
    ∧ srcReach s .clock asked none = 1 ∧ (src = .software ∨ src = .debug → srcReach s src asked none = asked)
    ∧ srcReach s .watchdog asked (some p) = (if p < 4 ∧ fld s cfg 3 2 = 2 then 1 else fld s cfg 3 2)
    ∧ srcReach s .lockup asked (some p) = (if p < 4 ∧ fld s cfg 5 4 = 2 then 1 else fld s cfg 5 4))
  ∧ (∀ src, let b := srcBit src; let gone := srcPulse src = true ∨ (srcHolds s src = false ∧ src ≠ .powerOn)
    (gone → LastSource s b → Does (.resetSourceRelease src) s (ExitStarts s x))
    ∧ (gone → bit x.asserted b = true → without64 x.asserted (2 ^ b) ≠ 0 → Does (.resetSourceRelease src) s fun t =>
      t.rst = { x with asserted := without64 x.asserted (2 ^ b) } ∧ SameBut [.rst] s t))
  ∧ (x.domeValid = true → LastSource s 0 → Does .powerOnHoldEnd s (ExitStarts s x))
  ∧ (∀ v : W32, Access s i Csr.RST_SWREQ true →
    (∀ reach, bits v.toNat 31 16 = 0xA5C3 → v.toNat % 4 = reachCode reach → Does (.rstSwreq i v) s fun t =>
      exec (.resetSourceAssert .software reach none) s = .next t)
    ∧ (bits v.toNat 31 16 ≠ 0xA5C3 ∨ v.toNat % 4 = 3 → room → Does (.rstSwreq i v) s viol))
  ∧ (∀ v : W32, let key := bits v.toNat 31 16 = 0xA5C3; let may := iniClass i = 4 ∧ flag s Csr.SEC_STAT 3 = true
    Access s i Csr.RST_DBGREQ true →
    (∀ reach, may → key → reach ≠ .cold → v.toNat % 4 = reachCode reach → Does (.rstDbgreq i v) s fun t =>
      exec (.resetSourceAssert .debug reach none) s = .next t)
    ∧ (¬(may ∧ key ∧ (v.toNat % 4 = 1 ∨ v.toNat % 4 = 2)) → room → Does (.rstDbgreq i v) s viol))
  ∧ (let pin (up : Bool) : State := { s with rst := { x with pinHigh := up } }
    x.domeValid = true →
    Does (.resetPinAccept true) s (fun t => exec (.resetSourceRelease .pin) (pin true) = .next t)
    ∧ (bit x.asserted 2 = false → Does (.resetPinAccept false) s fun t =>
        exec (.resetSourceAssert .pin .cold none) (pin false) = .next t)
    ∧ (bit x.asserted 2 = true → Does (.resetPinAccept false) s fun t => t = pin false))
  ∧ (∀ edges, let good := 973 ≤ edges ∧ edges ≤ 1075; let n := min 4 (x.goodWindows + 1)
    x.domeValid = true →
    (good → n < 4 → (x.refFail || x.pllFail) = true → bit x.asserted 6 = true → Does (.clockMonitorWindow edges) s fun t =>
      t = { s with rst := { x with goodWindows := n } })
    ∧ (good → n = 4 → Does (.clockMonitorWindow edges) s fun t =>
      exec (.resetSourceRelease .clock) { s with rst := { x with goodWindows := 4, refFail := false, pllFail := false } } = .next t)
    ∧ (¬good → bit x.asserted 6 = false → Does (.clockMonitorWindow edges) s fun t =>
      exec (.resetSourceAssert .clock .warm none) { s with rst := { x with goodWindows := 0, refFail := true } } = .next t)
    ∧ (¬good → bit x.asserted 6 = true → Does (.clockMonitorWindow edges) s fun t =>
      t = { s with rst := { x with goodWindows := 0, refFail := true } }))
  ∧ (x.domeValid = true → inResetBit s 43 = false → s.pwr.state < 3 → bit x.asserted 6 = false → Does .pllLossOfLock s fun t =>
    exec (.resetSourceAssert .clock .warm none) { s with rst := { x with goodWindows := 0, pllFail := true } } = .next t)
  ∧ (∀ (rail : Rail) (up : Bool), let k := railIndex rail
    let u : State := { s with rst := { x with railsLow := if up then without64 x.railsLow (2 ^ k) else x.railsLow ||| 2 ^ k } }
    rail ≠ .dome → railWatched s rail = true →
    (x.domeValid = true → u.rst.railsLow ≠ 0 → bit x.asserted 1 = false → Does (.railThreshold rail up) s fun t =>
      exec (.resetSourceAssert .brownout .cold none) u = .next t)
    ∧ (x.domeValid = true → u.rst.railsLow ≠ 0 → bit x.asserted 1 = true → Does (.railThreshold rail up) s fun t => t = u)
    ∧ (u.rst.railsLow = 0 → Does (.railThreshold rail up) s fun t => exec (.resetSourceRelease .brownout) u = .next t))
  ∧ (x.domeValid = true → bit x.asserted 0 = false → Does (.railThreshold .dome false) s fun t =>
    DomeLost s t ∧ rd t Csr.AON_STBY = rd s Csr.AON_STBY)

/-- R470 to R476, R509 to R514: the exit sequence, and the resets of single blocks. -/
def Obligations.ResetExits : Prop := ∀ (s : State) (i : Initiator), let x := s.rst; let st := Csr.BOOT_STAT; let sp := Csr.BOOT_STRAP
  let fu := Csr.BOOT_FUSE; let ss := Csr.SEC_STAT; let rq := Csr.RST_BLK_REQ; let low := Access s i rq true; let high := Access s i (rq + 4) true
  (∀ (codes : List Byte) c, let band := c.toNat / 16; let read (t : State) : Prop := rd t sp = c.toNat / 16 * 2 ^ 8 + c.toNat
    let mode (m : Nat) (t : State) : Prop := fld t st 27 24 = m ∧ fld t st 23 20 = m ∧ fld t st 31 28 = fld s st 31 28 ∧ read t
      ∧ SameBut [.rst, .csr] s t ∧ OtherRegs [st, sp] s t
    x.phase = .strap → codes.length = 8 → codes.getLast? = some c →
    ((∀ d ∈ codes, d.toNat / 16 = band) → Does (.strapReadDone codes) s fun t =>
      mode band t ∧ flag t st 7 = flag s st 7 ∧ t.rst = { x with phase := .fuse, sets := x.sets + 1 })
    ∧ ((∃ d ∈ codes, d.toNat / 16 ≠ band) → 3 ≤ x.sets → Does (.strapReadDone codes) s fun t =>
      mode 0xF t ∧ flag t st 7 = true ∧ t.rst = { x with phase := .fuse, sets := x.sets + 1 })
    ∧ ((∃ d ∈ codes, d.toNat / 16 ≠ band) → x.sets < 3 → Does (.strapReadDone codes) s fun t =>
      read t ∧ t.rst = { x with sets := x.sets + 1 } ∧ SameBut [.rst, .csr] s t ∧ OtherRegs [sp] s t))
  ∧ (∀ ws : List W32, let good := crc32c ((countUp 205 306).flatMap (fun i => toLE (fuseWord s ws i) 4)) = fuseWord s ws 511
    let sec (i n : Nat) : Nat := secWords s ws i n; let w2 := secWord s ws 2; let n := x.loads + 1
    x.phase = .fuse → ws.length = 512 → x.loads < 3 →
    (good → Does (.fuseLoadDone ws) s fun t =>
      t.rst = { x with phase := .pll, loads := n } ∧ rd t Csr.FABC_PHYS = sec 0 2 ∧ fld t fu 3 0 = popcount w2 3
      ∧ flag t fu 4 = bit w2 3 ∧ fld t fu 9 8 = n ∧ fld t Csr.BOOT_SVN 15 8 = popcount (sec 3 2) 64
      ∧ rdWords t (Csr.SEC_ROOT_HASH 0) 12 = sec 5 12 ∧ (∀ o, o < 4 → rdWords t (Csr.SEC_OWNER o 0) 12 = sec (17 + 12 * o) 12
        ∧ flag t Csr.SEC_OWNER_STAT o = decide (sec (17 + 12 * o) 12 ≠ 0) ∧ flag t Csr.SEC_OWNER_STAT (4 + o) = bit w2 (4 + o))
      ∧ t.boot = { s.boot with seed := sec 65 12 } ∧ flag t st 6 = false ∧ flag t ss 3 = debugOpens t
      ∧ flag t ss 2 = (decide (lifecycle t ≤ 2) && !(decide (lifecycle t = 2) && debugOpens t)) ∧ SameBut [.rst, .boot, .csr] s t)
    ∧ (¬good → n < 3 → Does (.fuseLoadDone ws) s fun t => t.rst = { x with loads := n } ∧ SameBut [.rst] s t)
    ∧ (¬good → n = 3 → Does (.fuseLoadDone ws) s fun t =>
      t.rst = { x with phase := .pll, loads := n } ∧ fld t fu 3 0 = 0xF ∧ fld t fu 9 8 = 3 ∧ flag t st 6 = true ∧ fld t st 23 20 = 0xF
      ∧ flag t ss 2 = false ∧ flag t ss 3 = false ∧ SameBut [.rst, .csr] s t ∧ OtherRegs [fu, st, ss] s t))
  ∧ (x.phase = .pll → Does .pllLockDone s fun t => t.rst = { x with phase := .release } ∧ SameBut [.rst] s t)
  ∧ (let free := linkOf s 24 = {} ∧ flag s Csr.HLK_CTRL 0 = true ∧ bit x.blk 39 = false
    let d0 := rd s Csr.RST_LAST; let d1 := rd s Csr.RST_CAUSE + rd s Csr.RST_COUNT * 2 ^ 32
    let out := { x with phase := .none, dev := 0, episode := false, wakeExit := false }
    x.phase = .release → free →
    (x.wakeExit = false → x.epReach < 2 → (hartOf s 0).st = .halted → s.evt.dome.length < 64 → Does .resetRelease s fun t =>
      t.rst = out ∧ RomStarts s t ∧ HostLinkTrains s t ∧ t.evt = { s.evt with dome := s.evt.dome ++ [formRec s 1 0x01 d0 d1] }
      ∧ SameBut [.rst, .evt, .harts, .boot, .links] s t)
    ∧ (x.wakeExit = false → x.epReach = 2 → Does .resetRelease s fun t => ∃ u,
      u.rst = out ∧ HostLinkTrains s u ∧ SameBut [.rst, .links] s u ∧ t = raise u 1 0x01 d0 d1)
    ∧ (x.wakeExit = true → (hartOf s 0).st = .halted → Does .resetRelease s fun t =>
      t.rst = out ∧ t.pwr = { s.pwr with state := 0 } ∧ RomStarts s t ∧ HostLinkTrains s t
      ∧ SameBut [.rst, .pwr, .harts, .boot, .links] s t))
  ∧ (∀ b : Fin 64, let old := rd s rq; let known := old &&& 0xE1FFFFFFFFFFF = old ∧ bit 0xE1FFFFFFFFFFF b = true
    let same (f g : Nat) (v : Bool) : Prop := ∀ k, k < 64 → bit f k = if k = b then v else bit g k
    let moved (t : State) : Prop := smGet none t.heldLow (iniKey i rq) = none ∧ t.quiet = s.quiet &&& quiesceWanted t
      ∧ t.rst = { x with idle := t.rst.idle, blk := t.rst.blk, exiting := t.rst.exiting } ∧ OtherRegs [rq] s t
    let held := bit x.dev b = true ∨ bit x.blk b = true
    low → high → known →
    (bit old b = false → Does (.blockResetRequest i b) s fun t =>
      rd t rq = old + 2 ^ b.val ∧ moved t ∧ (held → same t.rst.blk x.blk true ∧ same t.rst.idle x.idle (bit x.idle b))
      ∧ (¬held → same t.rst.idle x.idle true ∧ same t.rst.blk x.blk (bit x.blk b)) ∧ same t.rst.exiting x.exiting (bit x.exiting b)
      ∧ SameBut [.csr, .heldLow, .rst, .quiet] s t)
    ∧ (bit old b = true → bit x.blk b = true → bit x.dev b = false → Does (.blockResetEnd i b) s fun t =>
      rd t rq = old - 2 ^ b.val ∧ moved t ∧ same t.rst.blk x.blk false ∧ same t.rst.exiting x.exiting true
      ∧ same t.rst.idle x.idle false ∧ (b.val = 39 → linkOf s 24 = {} → flag s Csr.HLK_CTRL 0 = true → HostLinkTrains s t)
      ∧ (b.val ≠ 39 → t.links = s.links) ∧ SameBut [.csr, .heldLow, .rst, .quiet, .links] s t)
    ∧ (bit old b = true → bit x.blk b = false → Does (.blockResetEnd i b) s fun t =>
      rd t rq = old - 2 ^ b.val ∧ moved t ∧ same t.rst.idle x.idle false ∧ same t.rst.blk x.blk false
      ∧ same t.rst.exiting x.exiting (bit x.exiting b) ∧ SameBut [.csr, .heldLow, .rst, .quiet] s t))
  ∧ (∀ b : Fin 64, let m := 2 ^ b.val
    bit x.idle b = true → (b.val < 45 → quiescedBit s b = true) → (48 ≤ b.val → b.val < 52 ∧ (hartOf s (b.val - 48)).st = .halted) →
    b.val < 45 ∨ 48 ≤ b.val → Does (.blockResetEnter b) s fun t =>
      t.rst = { x with idle := without64 x.idle m, blk := x.blk ||| m, exiting := without64 x.exiting m } ∧ ResetTo m false t
      ∧ (b.val = 44 → ∀ a y, regAt a = some y → blkOf a = some .aon → a ≠ Csr.AON_STBY → rd t a = (csrReset a).toNat)
      ∧ t.stamp = s.stamp)
  ∧ (∀ b : Fin 64, let m := 2 ^ b.val; let tm := Csr.RST_BLK_TMOMAP
    bit x.idle b = true → Does (.blkTimeout b) s fun t => ∃ u,
      u.rst = { x with idle := without64 x.idle m } ∧ rd u rq = without64 (rd s rq) m ∧ rd u tm = rd s tm ||| m
      ∧ u.quiet = s.quiet &&& quiesceWanted u ∧ SameBut [.rst, .quiet, .csr] s u ∧ OtherRegs [rq, tm] s u
      ∧ t = raise u 1 0x02 m (fld s Csr.RST_BLK_TMO 23 0))
  ∧ (∀ b : Fin 64, let m := 2 ^ b.val
    bit x.exiting b = true → inResetBit s b = false → exitEnded s b = true → Does (.blkDone b) s fun t => ∃ u,
      u.rst = { x with exiting := without64 x.exiting m } ∧ SameBut [.rst] s u ∧ t = raise u 1 0x03 m 0)

/-! ### Power -/

/-- R518 to R535, R560 to R565, R569: entries to the power states, wakes and their ends, domains, operating points, the power
limit and thermal protection, and the standby domain. -/
def Obligations.Power : Prop := ∀ s : State, let p := s.pwr; let up := pwrUp s = true; let vs := s.rst.domeValid = true
  let only (q : Pwr) (t : State) : Prop := t = { s with pwr := q }
  let wake (c : Instr) (n : Nat) (s' : State) : Prop := (CanWake s' n → Does c s (Wakes s' n))
    ∧ ((n < 4 ∧ flag s' Csr.AON_WAKE_EN n = false) ∨ s'.pwr.state = 0 ∧ entering s' = false → Does c s (fun t => t = s'))
  let quads (x : Nat) : Nat := without64 x 0xF
  (∀ e c, p.entry = some e → up → e.completed = false → EntryCmd s e c →
    (∀ b, b < (if 2 ≤ e.target then 42 else 4) → quiescedBit s b = true) →
    (e.target = 1 ∨ ∀ h, h < 8 → (hartOf s h).st = .wfi ∨ (hartOf s h).st = .halted) → Does .entryQuiesced s fun t =>
      t.hlk = entryEnds s c 0 ∧ SameBut [.hlk, .pwr] s t
      ∧ t.pwr = if e.target = 1 then { p with entry := none, state := 1, off := p.off ||| 0xF }
          else { p with entry := some { e with completed := true } })
  ∧ (∀ e cmd, p.entry = some e → e.completed = true →
    cmd = .entryAbandoned ∨ (cmd = .entryClockStop ∧ entryDrained s e = true) →
    let ends (t : State) : Prop := ClocksStop s t ∧ SameBut [.pwr, .links, .fabc, .csr, .stks] s t;
    (e.target = 2 → p.wakePend = false → Does cmd s fun t =>
      ends t ∧ t.pwr = { p with entry := none, state := 2 } ∧ OtherRegs clockRegs s t)
    ∧ (e.target = 2 → p.wakePend = true → rd s Csr.PWR_WAKES + 1 < 2 ^ 32 - 1 → Does cmd s fun t =>
      ends t ∧ t.pwr = { p with entry := none, state := 2, waking := some 2, wakePend := false }
      ∧ rd t Csr.PWR_WAKES = rd s Csr.PWR_WAKES + 1 ∧ OtherRegs (Csr.PWR_WAKES :: clockRegs) s t)
    ∧ (e.target = 3 → p.wakePend = false → Does cmd s fun t =>
      t.pwr = { state := 3, lastState := p.lastState, wakePin := p.wakePin, railEn := p.railEn, vstby := p.vstby,
                shutHold := p.shutHold, smbus := p.smbus }
      ∧ Enters s 1 { s.rst with dev := s.rst.dev ||| reachMask 1, idle := 0, exiting := without64 s.rst.exiting (reachMask 1),
                                blk := 0 } t
      ∧ ∀ r ∈ [Csr.RST_CAUSE, Csr.RST_LAST, Csr.RST_COUNT], rd t r = rd s r)
    ∧ (e.target = 4 → Does cmd s fun t =>
      ends t ∧ t.pwr = { p with entry := none, state := 4, railEn := false, shutHold := true, wakePend := false }
      ∧ OtherRegs clockRegs s t))
  ∧ (∀ e c m, p.entry = some e → e.completed = false → 2 ≤ e.target → EntryCmd s e c →
    (∀ b, bit m b = (decide (b < 42) && !quiescedBit s b)) → Does .entryAbandoned s fun t => ∃ u,
      u.hlk = entryEnds s c 0x0E ∧ u.pwr = { p with entry := none, wakePend := false } ∧ u.quiet = s.quiet &&& quiesceWanted u
      ∧ SameBut [.hlk, .pwr, .quiet] s u ∧ t = raise u 2 0x02 e.target m)
  ∧ (vs → p.wakePin = false → wake (.wakePinAccept true) 0 { s with pwr := { p with wakePin := true } })
  ∧ (vs → p.wakePin = true → Does (.wakePinAccept false) s (only { p with wakePin := false }))
  ∧ (∀ a, vs → p.state = 2 ∨ p.state = 3 → a.toNat = fld s Csr.AON_SMB_ADDR 6 0 → wake (.smbusAddressMatch a) 1 s)
  ∧ (∀ a, ¬(p.state = 2 ∨ p.state = 3) ∨ a.toNat ≠ fld s Csr.AON_SMB_ADDR 6 0 → Does (.smbusAddressMatch a) s (fun t => t = s))
  ∧ (vs → wake .ralineActivity 2 s)
  ∧ (∀ n j, vs → j < 32 → flag s (Csr.AON_WATCH j) 31 = true → fld s (Csr.AON_WATCH j) 9 0 = n →
    domeSource n = true ∨ awake s = true → wake (.watchWake n) 3 s)
  ∧ (∀ st, p.waking = some st → let back := { p with state := 0, lastState := st, waking := none }
    let done (u t : State) : Prop := t = raise u 2 0x03 st (rd s Csr.AON_WAKE_CAUSE);
    (st = 3 → s.rst.wakeExit = false → s.rst.dev = 0 → Does .wakeDone s (done { s with pwr := back }))
    ∧ (st = 1 → p.trip = true → Does .wakeDone s fun t => ∃ u, u.pwr = back ∧ u.quiet = s.quiet &&& quiesceWanted u
      ∧ SameBut [.pwr, .quiet] s u ∧ done u t)
    ∧ (st = 1 → p.trip = false → Does .wakeDone s fun t => ∃ u,
      u.pwr = { back with off := u.pwr.off, domWaking := quads p.domWaking } ∧ (∀ d, d < 64 → bit u.pwr.off d = (bit p.off d &&
        (decide (4 ≤ d) || (decide (bits p.domWaking 3 0 ≠ 0) && flag s Csr.PWR_DOM_AUTO d && !bit p.domWaking d))))
      ∧ u.quiet = s.quiet &&& quiesceWanted u ∧ SameBut [.pwr, .quiet] s u ∧ done u t)
    ∧ (st = 2 → (∀ l, l < 25 → (linkOf s l).st = .off) → Does .wakeDone s fun t => ∃ u,
      u.pwr = back ∧ (∀ l, linkOf u l = if l < 25 ∧ linkAuto s l ∧ linkEnabled s l ∧ linkExists s l
        then { st := .training, hello := (linkOf s l).hello, proof := (linkOf s l).proof } else linkOf s l) ∧ u.quiet = s.quiet &&& quiesceWanted u
      ∧ SameBut [.pwr, .quiet, .links] s u ∧ done u t))
  ∧ (∀ d : Fin 41, let on := (d.val < 24 ∨ d.val = 40) ∧ bit p.off d = false; let m := 2 ^ d.val
    let stk := 4 ≤ d.val ∧ d.val < 24; let i := d.val - 4;
    (up → p.state = 0 → on → flag s Csr.PWR_DOM_AUTO d = true → inResetBit s d = false → domIdle s d = true →
      Does (.domainAutoOff d) s fun t => t.pwr = { p with off := p.off ||| m } ∧ SameBut [.pwr, .stks, .csr] s t
        ∧ (stk → SelfRefreshes s i t ∧ OtherRegs [stkReg i 0x08] s t ∧ ∀ j, j ≠ i → stkOf t j = stkOf s j)
        ∧ (¬stk → SameBut [.pwr] s t))
    ∧ (up → d.val < 24 ∨ d.val = 40 → bit p.off d = true → bit p.domWaking d = false → ¬(d.val < 4 ∧ p.trip = true) →
      rd s Csr.PWR_DOM_WAKES + 1 < 2 ^ 32 - 1 →
      let asks (u : State) : Prop := u.pwr = { p with domWaking := p.domWaking ||| m }
        ∧ rd u Csr.PWR_DOM_WAKES = rd s Csr.PWR_DOM_WAKES + 1 ∧ SameBut [.pwr, .csr] s u ∧ OtherRegs [Csr.PWR_DOM_WAKES] s u;
      (¬(d.val < 4 ∧ p.state = 1) → Does (.domainWake d) s asks)
      ∧ (d.val < 4 → p.state = 1 → CanWake s 5 → Does (.domainWake d) s fun t => ∃ u, asks u ∧ Wakes u 5 t))
    ∧ (up → bit p.domWaking d = true → ¬(d.val < 4 ∧ p.state = 1) →
      let ready (t : State) : Prop := t.pwr = { p with off := without64 p.off m, domWaking := without64 p.domWaking m };
      (¬stk ∨ (stkOf s i).powerSr = false → Does (.domainReady d) s fun t => ready t ∧ SameBut [.pwr] s t)
      ∧ (stk → (stkOf s i).powerSr = true → (stkOf s i).grans = [] → Does (.domainReady d) s fun t => ready t
        ∧ rd t (stkReg i 0x08) = setBits (setBits (rd s (stkReg i 0x08)) 2 2 0) 0 0 1 ∧ SameBut [.pwr, .stks, .csr] s t
        ∧ stkOf t i = { stkOf s i with
            powerSr := false
            lines := if stkOpen t i then (stkOf s i).lines.map (fun r => (r.1, true)) else (stkOf s i).lines }
        ∧ OtherRegs [stkReg i 0x08] s t ∧ ∀ j, j ≠ i → stkOf t j = stkOf s j)))
  ∧ (up → p.oppPending = true → Does .oppDone s fun t => ∃ u, u.pwr = { p with eff := u.pwr.eff, oppPending := false }
    ∧ (∀ q, q < 4 → let r := fld s Csr.PWR_QOPP (4 * q + 3) (4 * q)
        bits u.pwr.eff (4 * q + 3) (4 * q) = if p.cap = 9 then r else if p.cap < 2 then 0 else min r (p.cap - 2))
    ∧ u.pwr.eff < 2 ^ 16 ∧ SameBut [.pwr] s u ∧ t = raise u 2 0x04 u.pwr.eff p.cap)
  ∧ (∀ fast slow n, up → rd s Csr.PWR_ENERGY + n < 2 ^ 64 → Does (.powerSample fast slow n) s fun t =>
    t.pwr = { p with fast := fast % 2 ^ 16, slow := slow % 2 ^ 16 } ∧ rd t Csr.PWR_ENERGY = rd s Csr.PWR_ENERGY + n
    ∧ SameBut [.pwr, .csr] s t ∧ OtherRegs [Csr.PWR_ENERGY] s t)
  ∧ (let watts := fld s Csr.PWR_LIMIT 26 16; let sustain := fld s Csr.PWR_LIMIT 10 0
    let falls := watts < p.fast ∨ sustain < p.slow ∨ p.hot = true; let rises := p.fast + 50 < watts ∧ p.slow + 50 < sustain
    let capped (c : Nat) (u : State) : Prop := SameBut [.pwr] s u
      ∧ u.pwr = { p with cap := c, oppPending := p.oppPending || decide (effWanted u ≠ p.eff) };
    up → (falls → p.cap ≠ 0 → Does .capAdjust s fun t => ∃ u,
      capped (p.cap - 1) u ∧ t = if p.cap = 9 then raise u 2 0x05 p.fast p.slow else u)
    ∧ (¬falls → rises → p.cap < 9 → Does .capAdjust s (capped (p.cap + 1)))
    ∧ ((falls ∧ p.cap = 0) ∨ (¬falls ∧ ¬(rises ∧ p.cap < 9)) → Does .capAdjust s (fun t => t = s)))
  ∧ (∀ (tj : Byte) (n : Fin 40), let x := tj.toNat; let lim := fld s Csr.PWR_THERM 7 0; let c := Csr.PWR_TRIPS
    let q := { p with tj := x, sensor := n, hot := decide (fld s Csr.PWR_THERM 15 8 ≤ x) }
    up → (p.trip = false → lim ≤ x → rd s c + 1 < 2 ^ 32 - 1 → Does (.thermalSample tj n) s fun t => ∃ u,
      u.pwr = { q with trip := true, off := p.off ||| 0xF, domWaking := quads p.domWaking } ∧ rd u c = rd s c + 1
      ∧ SameBut [.pwr, .csr] s u ∧ OtherRegs [c] s u ∧ t = raise u 2 0x06 x n)
    ∧ (p.trip = true → x + 5 < lim → Does (.thermalSample tj n) s fun t => ∃ u, t = raise u 2 0x07 x n ∧ SameBut [.pwr] s u
      ∧ u.pwr = if p.state = 1 then { q with trip := false }
          else { q with trip := false, off := quads p.off, domWaking := quads p.domWaking })
    ∧ ((p.trip = false ∧ x < lim) ∨ (p.trip = true ∧ lim ≤ x + 5) → Does (.thermalSample tj n) s (only q)))
  ∧ (vs → p.railEn = true → Does .thermalShutdown s fun t => t.pwr = { p with railEn := false, shutHold := true }
    ∧ rd t Csr.AON_STBY = setBits (rd s Csr.AON_STBY) 0 0 1 ∧ SameBut [.pwr, .csr] s t ∧ OtherRegs [Csr.AON_STBY] s t)
  ∧ (∀ cmd, let stby := Csr.AON_STBY
    (cmd = .offWake ∧ p.state = 4 ∧ p.vstby = true ∧ p.railEn = false) ∨ (cmd = .railEnRelease ∧ p.railEn = false ∧ p.state ≠ 4) →
    let v := p.vstby || decide (cmd = .railEnRelease)
    (bit s.rst.asserted 0 = false → Does cmd s fun t => DomeLost s t ∧ rd t stby = rd s stby
      ∧ t.pwr = { railEn := true, vstby := v, smbus := p.smbus })
    ∧ (bit s.rst.asserted 0 = true → Does cmd s fun t => t = { s with
        rst := { s.rst with domeValid := false }
        pwr := { p with state := if cmd = .offWake then 0 else p.state, railEn := true, shutHold := false, vstby := v } }))
  ∧ (bit s.rst.asserted 0 = false → Does .vstbyLoss s fun t =>
    DomeLost s t ∧ rd t Csr.AON_STBY = 0 ∧ t.pwr = { vstby := false, smbus := p.smbus })
  ∧ (bit s.rst.asserted 0 = true → Does .vstbyLoss s fun t => rd t Csr.AON_STBY = 0
    ∧ t.pwr = { p with vstby := false, railEn := false, shutHold := false, state := 0 } ∧ t.rst = { s.rst with domeValid := false }
    ∧ SameBut [.pwr, .rst, .csr] s t ∧ OtherRegs [Csr.AON_STBY] s t)
  ∧ (vs → awake s = true → Does (.smbusBlockRead 0x10) s fun t => SameBut [.pwr] s t
    ∧ t.pwr = { p with smbus := t.pwr.smbus } ∧ t.pwr.smbus.length = 22 ∧ t.pwr.smbus.take 21 = 20 :: (toLE (pwrStat s) 4
      ++ toLE (pwrMeas s) 4 ++ toLE (rd s Csr.RST_CAUSE) 4 ++ toLE (rd s Csr.BOOT_STAT) 4 ++ toLE (ftHealth s) 4))
  ∧ (∀ (q : Fin 256) (cid : BitVec 16) (c : HCmd), todoCmd s q cid.toNat 0x05 0 = some c → hlkUp s = true → up →
    fieldAt c.bytes 32 1 = 1 → fieldAt c.bytes 33 1 = 0 → flag s Csr.PWR_CFG 0 = true → p.state = 1 → CanWake s 4 →
    Does (.powerEnter q cid) s fun t => ∃ u,
      u.hlk = CmdBecomes s c { c with parts := setHPart c.parts 0 (.ended 0) } ∧ SameBut [.hlk] s u ∧ Wakes u 4 t)

/-! ### Quiesce, commit and the Plate dump -/

/-- R41 to R47, R554 to R556: blocks are asked to quiesce and read quiesced; a commit of quiesced blocks makes their shadow copies
active, in one step, and holds writes to them until then; the Plate dump is published, acknowledged and cleared. -/
def Obligations.CommitsAndPlate : Prop := ∀ (s : State) (i : Initiator), let st := Csr.GLB_COMMIT_STAT; let gen := Csr.GLB_GEN
  let req := Csr.GLB_QUIESCE_REQ; let dirty := Csr.GLB_SHADOW_DIRTY; let ps := Csr.GLB_PLATE_STAT; let seq := rd s Csr.GLB_PLATE_SEQ
  let page := fld s Csr.GLB_PLATE_BASE 25 0; let vc := Csr.GLB_VIOL_CNT; let mask := rd s Csr.GLB_COMMIT_MASK
  let viol (t : State) : Prop := rd t vc = rd s vc + 1 ∧ SameBut [.csr] s t ∧ OtherRegs [vc, Csr.GLB_VIOL_CAP] s t
  let room := rd s vc + 1 < 2 ^ 32 - 1
  let sets (a v : Nat) (u : State) : Prop := rd u a = v ∧ SameBut [.csr] s u ∧ OtherRegs [a] s u
  (∀ hi lo : W32, Access s i (req + 4) true → smGet none s.heldLow (iniKey i req) = some lo → Does (.quiesceRequest i hi) s fun t =>
    rd t req = (hi.toNat * 2 ^ 32 + lo.toNat) % 2 ^ 45 ∧ smGet none t.heldLow (iniKey i req) = none
    ∧ t.quiet = s.quiet &&& quiesceWanted t ∧ SameBut [.csr, .heldLow, .quiet] s t ∧ OtherRegs [req] s t)
  ∧ (∀ b : Fin 45, awake s = true → bit (quiesceWanted s) b = true → inResetBit s b = false → quiescePoint s b = true →
    Does (.blockQuiesced b) s fun t => t = { s with quiet := s.quiet ||| 2 ^ b.val } ∧ quiescedBit t b = true)
  ∧ (∀ m, blkUp s .glb = true → fld s Csr.GLB_QUIESCE_TMO 23 0 ≠ 0 → m ≠ 0 →
    (∀ b, bit m b = (bit (rd s req) b && !(decide (b < 45) && quiescedBit s b))) → Does .quiesceTimeout s fun t => ∃ u,
      sets st (setBits (rd s st) 2 2 1) u ∧ t = raise u 0 0x01 m (rd s gen))
  ∧ (∀ v : W32, bit v.toNat 0 = true → Access s i Csr.GLB_COMMIT true →
    (s.commit = none → (∀ b, bit mask b = true → b < 45 ∧ quiescedBit s b = true) → Does (.commitGo i v) s fun t =>
      t = { s with commit := some mask })
    ∧ (∀ bad, s.commit = none → bad ≠ 0 → (∀ b, bit bad b = (bit mask b && !(decide (b < 45) && quiescedBit s b))) →
      Does (.commitGo i v) s fun t => ∃ u, rd u st = setBits (rd s st) 1 1 1 ∧ rd u Csr.GLB_COMMIT_NOTQ = bad ∧ SameBut [.csr] s u
        ∧ OtherRegs [st, Csr.GLB_COMMIT_NOTQ] s u ∧ t = raise u 0 0x02 bad (rd s gen))
    ∧ (∀ m, s.commit = some m → room → Does (.commitGo i v) s viol))
  ∧ (∀ m, s.commit = some m → (∀ p, p < 12 → bit m (26 + p) = true →
      bit (rdShadow s (Csr.FAB_PORT_CFG p)) 0 = linkSplit s (2 * p)) →
    (bit m 41 = true → ∀ n, n < 9 → bits (rdShadow s (Csr.EVT_TGT_CFG n)) 26 24 = fld s (Csr.EVT_TGT_CFG n) 26 24) → Does .commitConfirm s fun t =>
      ∃ u, t = s.heldWrites.foldl land u ∧ u.commit = none ∧ u.heldWrites = []
        ∧ (∀ a r, commitRow m a = some r → ∀ f ∈ r.fields,
          fld u a f.hi f.lo = if f.acc = .sh then bits (rdShadow s a) f.hi f.lo else fld s a f.hi f.lo)
        ∧ rd u gen = (rd s gen + 1) % 2 ^ 32 ∧ rd u dirty = without64 (rd s dirty) m ∧ rd u st = setBits (rd s st) 1 1 0
        ∧ (∀ a, commitRow m a = none → a ∉ [gen, dirty, st] → rd u a = rd s a) ∧ u.quiet = s.quiet &&& quiesceWanted u
        ∧ u.pwr = { s.pwr with oppPending := s.pwr.oppPending || (bit m 42 && decide (effWanted u ≠ s.pwr.eff)) }
        ∧ u.plcFits = (if bit m 24 = true ∨ bits m 15 4 ≠ 0 then plcFitsNow u else s.plcFits)
        ∧ SameBut [.csr, .commit_, .heldWrites, .quiet, .pwr, .plcFits] s u)
  ∧ (∀ a (v : W32) r, awake s = true → gate s i a 4 true = .served r → coreHolds s a = false → commitHolds s r = true →
    r.row.wide = false → Does (.shShadowWrite i a v) s fun t => t = { s with heldWrites := s.heldWrites ++ [⟨i, a, v.toNat⟩] })
  ∧ (Access s i Csr.GLB_PLATE_CTRL true →
    (Does (.platePublish i) s fun t => ∃ u, sets ps (setBits (rd s ps) 31 31 1) u ∧ t = raise u 0 0x04 seq 1)
    ∧ (flag s ps 31 = false → flag s Csr.GLB_PLATE_BASE 63 = true → Does (.plateClear i) s (sets ps (setBits (rd s ps) 30 30 1)))
    ∧ (flag s ps 31 = true ∨ flag s Csr.GLB_PLATE_BASE 63 = false → room → Does (.plateClear i) s viol))
  ∧ (blkUp s .glb = true → flag s ps 30 = true → (∀ p, p < 256 → WritesNow s ((page + p) * 2 ^ 18) (2 ^ 18)) →
    Does .plateClearDone s fun t => ∃ u, (∀ p o, p < 256 → o < 2 ^ 18 → frameByte u (entFrame (pageEnt s (page + p))) o = 0)
      ∧ (∀ x, (∀ p o, p < 256 → o < 2 ^ 18 → fastKey (frameLoc (entFrame (pageEnt s (page + p))) o) ≠ x) →
          memByte u.fast x = memByte s.fast x)
      ∧ rd u ps = setBits (setBits (rd s ps) 15 8 0) 30 30 0 ∧ (∀ p, HeatOnly s u p) ∧ SameBut writeParts s u
      ∧ OtherRegs (ps :: tierRegs) s u ∧ t = raise u 0 0x06 0 256)
  ∧ (∀ v : W32, Access s i Csr.GLB_PLATE_ACK true →
    (v.toNat = seq → Does (.plateAck i v) s fun t => ∃ u, sets ps (setBits (rd s ps) 31 31 0) u ∧ t = raise u 0 0x05 seq 0)
    ∧ (v.toNat ≠ seq → room → Does (.plateAck i v) s viol))
end

