-- ==== Sys2Proof/Laws/Frame.lean ====
section
/-! SUPPORT. What a function of the model leaves unchanged. For every function that answers a state one lemma,
named <function>_same, says which parts it may change; the ones of the meanings are exec…_same. -/

namespace Sys2Proof.Machine


/-- Every part of the first list is in the second. -/
abbrev Within (a b : List Part) : Prop := ∀ p ∈ a, p ∈ b

theorem Within.trans {a b c : List Part} (h : Within a b) (k : Within b c) : Within a c := fun p hp => k p (h p hp)

theorem Within.refl (a : List Part) : Within a a := fun _ h => h

theorem Part.same_refl (p : Part) (s : State) : p.same s s := by cases p <;> first | rfl | exact fun _ => rfl

theorem SameBut.refl (ps : List Part) (s : State) : SameBut ps s s := fun p _ => p.same_refl s

theorem Part.same_trans (p : Part) {s t u : State} (h : p.same s t) (k : p.same t u) : p.same s u := by
  cases p <;> first | exact Eq.trans k h | exact fun a => (k a).trans (h a)

theorem SameBut.trans {ps : List Part} {s t u : State} (h : SameBut ps s t) (k : SameBut ps t u) : SameBut ps s u :=
  fun p hp => p.same_trans (h p hp) (k p hp)

theorem SameBut.mono {ps qs : List Part} {s t : State} (h : SameBut ps s t) (hs : Within ps qs) : SameBut qs s t :=
  fun p hp => h p (fun hq => hp (hs p hq))

/-- The next state that an outcome answers is the same but for the listed parts. -/
def OutSame (ps : List Part) (s : State) (o : Out) : Prop := ∀ t, o = .next t → SameBut ps s t

theorem outSame_next {ps : List Part} {s t : State} (h : SameBut ps s t) : OutSame ps s (.next t) := by
  intro u e; cases e; exact h

section
variable {ps : List Part} {s0 s : State}

theorem same_fst {α} {a : α} {x : State × α} (e : x = (s, a)) (h : SameBut ps s0 x.1) : SameBut ps s0 s := by
  subst e; exact h
theorem same_snd {α} {a : α} {x : α × State} (e : x = (a, s)) (h : SameBut ps s0 x.2) : SameBut ps s0 s := by
  subst e; exact h
theorem same_pair {α : Type} {a : α} (h : SameBut ps s0 s) : SameBut ps s0 (s, a).1 := h
theorem same_fstH {α} {h : Hit} {a : α} {x : Hit × α} (e : x = (h, a)) (k : SameBut ps s0 x.1.s) : SameBut ps s0 h.s
    := by
  subst e; exact k
theorem same_some {α} {a : α} {o : Option (State × α)} (h : ∀ r, o = some r → SameBut ps s0 r.1)
    (e : o = some (s, a)) :
    SameBut ps s0 s := h _ e

theorem same_foldl {α} {f : State → α → State} (hf : ∀ s x, SameBut ps s0 s → SameBut ps s0 (f s x)) :
    ∀ (l : List α) (s : State), SameBut ps s0 s → SameBut ps s0 (l.foldl f s)
  | [], _, h => h
  | x :: l, s, h => same_foldl hf l _ (hf s x h)

theorem same_foldl1 {α β} {f : State × β → α → State × β} (hf : ∀ s x, SameBut ps s0 s.1 → SameBut ps s0 (f s x).1) :
    ∀ (l : List α) (s : State × β), SameBut ps s0 s.1 → SameBut ps s0 (l.foldl f s).1
  | [], _, h => h
  | x :: l, s, h => same_foldl1 hf l _ (hf s x h)

theorem same_mk_csr {x_csr : SMap W64}
    (hW : Within [.csr] ps) :
    SameBut ps s0 { s with csr := x_csr } ↔ SameBut ps s0 s := by
  constructor <;> intro h p hp <;> have hs := h p hp <;> cases p <;> first | exact hs | exact absurd (hW _ (by decide)) hp

theorem same_mk_shadow {x_shadow : SMap W64}
    (hW : Within [.shadow] ps) :
    SameBut ps s0 { s with shadow := x_shadow } ↔ SameBut ps s0 s := by
  constructor <;> intro h p hp <;> have hs := h p hp <;> cases p <;> first | exact hs | exact absurd (hW _ (by decide)) hp

theorem same_mk_evt {x_evt : Evt}
    (hW : Within [.evt] ps) :
    SameBut ps s0 { s with evt := x_evt } ↔ SameBut ps s0 s := by
  constructor <;> intro h p hp <;> have hs := h p hp <;> cases p <;> first | exact hs | exact absurd (hW _ (by decide)) hp

theorem same_mk_cores {x_cores : SMap Core}
    (hW : Within [.cores] ps) :
    SameBut ps s0 { s with cores := x_cores } ↔ SameBut ps s0 s := by
  constructor <;> intro h p hp <;> have hs := h p hp <;> cases p <;> first | exact hs | exact absurd (hW _ (by decide)) hp

theorem same_mk_freeCtr {x_freeCtr : Nat}
    (hW : Within [.freeCtr] ps) :
    SameBut ps s0 { s with freeCtr := x_freeCtr } ↔ SameBut ps s0 s := by
  constructor <;> intro h p hp <;> have hs := h p hp <;> cases p <;> first | exact hs | exact absurd (hW _ (by decide)) hp

theorem same_mk_ephResults {x_ephResults : List (Nat × Nat × Nat)}
    (hW : Within [.ephResults] ps) :
    SameBut ps s0 { s with ephResults := x_ephResults } ↔ SameBut ps s0 s := by
  constructor <;> intro h p hp <;> have hs := h p hp <;> cases p <;> first | exact hs | exact absurd (hW _ (by decide)) hp

theorem same_mk_triggers {x_triggers : List (Nat × Nat)}
    (hW : Within [.triggers] ps) :
    SameBut ps s0 { s with triggers := x_triggers } ↔ SameBut ps s0 s := by
  constructor <;> intro h p hp <;> have hs := h p hp <;> cases p <;> first | exact hs | exact absurd (hW _ (by decide)) hp

theorem same_mk_stks {x_stks : SMap Stk}
    (hW : Within [.stks] ps) :
    SameBut ps s0 { s with stks := x_stks } ↔ SameBut ps s0 s := by
  constructor <;> intro h p hp <;> have hs := h p hp <;> cases p <;> first | exact hs | exact absurd (hW _ (by decide)) hp

theorem same_mk_fastMark {x_fastMark : SMap (Option Mark)}
    (hW : Within [.fastMark] ps) :
    SameBut ps s0 { s with fastMark := x_fastMark } ↔ SameBut ps s0 s := by
  constructor <;> intro h p hp <;> have hs := h p hp <;> cases p <;> first | exact hs | exact absurd (hW _ (by decide)) hp

theorem same_mk_fast {x_fast : List Host.Cell}
    (hW : Within [.fast] ps) :
    SameBut ps s0 { s with fast := x_fast } ↔ SameBut ps s0 s := by
  constructor <;> intro h p hp <;> have hs := h p hp <;> cases p <;> first | exact hs | exact absurd (hW _ (by decide)) hp

theorem same_mk_fast_fastMark {x_fast : List Host.Cell} {x_fastMark : SMap (Option Mark)}
    (hW : Within [.fast, .fastMark] ps) :
    SameBut ps s0 { s with fast := x_fast, fastMark := x_fastMark } ↔ SameBut ps s0 s := by
  constructor <;> intro h p hp <;> have hs := h p hp <;> cases p <;> first | exact hs | exact absurd (hW _ (by decide)) hp

theorem same_mk_deepMark {x_deepMark : SMap (Option Mark)}
    (hW : Within [.deepMark] ps) :
    SameBut ps s0 { s with deepMark := x_deepMark } ↔ SameBut ps s0 s := by
  constructor <;> intro h p hp <;> have hs := h p hp <;> cases p <;> first | exact hs | exact absurd (hW _ (by decide)) hp

theorem same_mk_deep_deepMark {x_deep : List Host.Cell} {x_deepMark : SMap (Option Mark)}
    (hW : Within [.deep, .deepMark] ps) :
    SameBut ps s0 { s with deep := x_deep, deepMark := x_deepMark } ↔ SameBut ps s0 s := by
  constructor <;> intro h p hp <;> have hs := h p hp <;> cases p <;> first | exact hs | exact absurd (hW _ (by decide)) hp

theorem same_mk_answers {x_answers : List Answer}
    (hW : Within [.answers] ps) :
    SameBut ps s0 { s with answers := x_answers } ↔ SameBut ps s0 s := by
  constructor <;> intro h p hp <;> have hs := h p hp <;> cases p <;> first | exact hs | exact absurd (hW _ (by decide)) hp

theorem same_mk_pages {x_pages : SMap Ent}
    (hW : Within [.pages] ps) :
    SameBut ps s0 { s with pages := x_pages } ↔ SameBut ps s0 s := by
  constructor <;> intro h p hp <;> have hs := h p hp <;> cases p <;> first | exact hs | exact absurd (hW _ (by decide)) hp

theorem same_mk_pageCache {x_pageCache : SMap (List (Nat × Nat × Nat))}
    (hW : Within [.pageCache] ps) :
    SameBut ps s0 { s with pageCache := x_pageCache } ↔ SameBut ps s0 s := by
  constructor <;> intro h p hp <;> have hs := h p hp <;> cases p <;> first | exact hs | exact absurd (hW _ (by decide)) hp

theorem same_mk_frameMap {x_frameMap : SMap Nat}
    (hW : Within [.frameMap] ps) :
    SameBut ps s0 { s with frameMap := x_frameMap } ↔ SameBut ps s0 s := by
  constructor <;> intro h p hp <;> have hs := h p hp <;> cases p <;> first | exact hs | exact absurd (hW _ (by decide)) hp

theorem same_mk_frameCur {x_frameCur : SMap Nat}
    (hW : Within [.frameCur] ps) :
    SameBut ps s0 { s with frameCur := x_frameCur } ↔ SameBut ps s0 s := by
  constructor <;> intro h p hp <;> have hs := h p hp <;> cases p <;> first | exact hs | exact absurd (hW _ (by decide)) hp

theorem same_mk_blocks {x_blocks : SMap Bool}
    (hW : Within [.blocks] ps) :
    SameBut ps s0 { s with blocks := x_blocks } ↔ SameBut ps s0 s := by
  constructor <;> intro h p hp <;> have hs := h p hp <;> cases p <;> first | exact hs | exact absurd (hW _ (by decide)) hp

theorem same_mk_blockCur {x_blockCur : SMap Nat}
    (hW : Within [.blockCur] ps) :
    SameBut ps s0 { s with blockCur := x_blockCur } ↔ SameBut ps s0 s := by
  constructor <;> intro h p hp <;> have hs := h p hp <;> cases p <;> first | exact hs | exact absurd (hW _ (by decide)) hp

theorem same_mk_slots {x_slots : SMap (Option Mig)}
    (hW : Within [.slots] ps) :
    SameBut ps s0 { s with slots := x_slots } ↔ SameBut ps s0 s := by
  constructor <;> intro h p hp <;> have hs := h p hp <;> cases p <;> first | exact hs | exact absurd (hW _ (by decide)) hp

theorem same_mk_slots_migq {x_slots : SMap (Option Mig)} {x_migq : List Mig}
    (hW : Within [.slots, .migq] ps) :
    SameBut ps s0 { s with slots := x_slots, migq := x_migq } ↔ SameBut ps s0 s := by
  constructor <;> intro h p hp <;> have hs := h p hp <;> cases p <;> first | exact hs | exact absurd (hW _ (by decide)) hp

theorem same_mk_migq {x_migq : List Mig}
    (hW : Within [.migq] ps) :
    SameBut ps s0 { s with migq := x_migq } ↔ SameBut ps s0 s := by
  constructor <;> intro h p hp <;> have hs := h p hp <;> cases p <;> first | exact hs | exact absurd (hW _ (by decide)) hp

theorem same_mk_stallFail {x_stallFail : SMap Nat}
    (hW : Within [.stallFail] ps) :
    SameBut ps s0 { s with stallFail := x_stallFail } ↔ SameBut ps s0 s := by
  constructor <;> intro h p hp <;> have hs := h p hp <;> cases p <;> first | exact hs | exact absurd (hW _ (by decide)) hp

theorem same_mk_stalled {x_stalled : List Stalled}
    (hW : Within [.stalled] ps) :
    SameBut ps s0 { s with stalled := x_stalled } ↔ SameBut ps s0 s := by
  constructor <;> intro h p hp <;> have hs := h p hp <;> cases p <;> first | exact hs | exact absurd (hW _ (by decide)) hp

theorem same_mk_plcCh {x_plcCh : SMap (Option PlcCmd)}
    (hW : Within [.plcCh] ps) :
    SameBut ps s0 { s with plcCh := x_plcCh } ↔ SameBut ps s0 s := by
  constructor <;> intro h p hp <;> have hs := h p hp <;> cases p <;> first | exact hs | exact absurd (hW _ (by decide)) hp

theorem same_mk_plans {x_plans : SMap Plan}
    (hW : Within [.plans] ps) :
    SameBut ps s0 { s with plans := x_plans } ↔ SameBut ps s0 s := by
  constructor <;> intro h p hp <;> have hs := h p hp <;> cases p <;> first | exact hs | exact absurd (hW _ (by decide)) hp

theorem same_mk_answers_stalled {x_answers : List Answer} {x_stalled : List Stalled}
    (hW : Within [.answers, .stalled] ps) :
    SameBut ps s0 { s with answers := x_answers, stalled := x_stalled } ↔ SameBut ps s0 s := by
  constructor <;> intro h p hp <;> have hs := h p hp <;> cases p <;> first | exact hs | exact absurd (hW _ (by decide)) hp

theorem same_mk_answers_migq {x_answers : List Answer} {x_migq : List Mig}
    (hW : Within [.answers, .migq] ps) :
    SameBut ps s0 { s with answers := x_answers, migq := x_migq } ↔ SameBut ps s0 s := by
  constructor <;> intro h p hp <;> have hs := h p hp <;> cases p <;> first | exact hs | exact absurd (hW _ (by decide)) hp

theorem same_mk_stalled_stallFail {x_stalled : List Stalled} {x_stallFail : SMap Nat}
    (hW : Within [.stalled, .stallFail] ps) :
    SameBut ps s0 { s with stalled := x_stalled, stallFail := x_stallFail } ↔ SameBut ps s0 s := by
  constructor <;> intro h p hp <;> have hs := h p hp <;> cases p <;> first | exact hs | exact absurd (hW _ (by decide)) hp

theorem same_mk_sweep {x_sweep : SMap Nat}
    (hW : Within [.sweep] ps) :
    SameBut ps s0 { s with sweep := x_sweep } ↔ SameBut ps s0 s := by
  constructor <;> intro h p hp <;> have hs := h p hp <;> cases p <;> first | exact hs | exact absurd (hW _ (by decide)) hp

theorem same_mk_triggers_ephResults_pageCache_holders_frameCur_blockCur_migq_sweep_stalled_plcCh_plans_plcRestoring
    {x_triggers : List (Nat × Nat)} {x_ephResults : List (Nat × Nat × Nat)}
    {x_pageCache : SMap (List (Nat × Nat × Nat))} {x_holders : SMap Nat} {x_frameCur : SMap Nat}
    {x_blockCur : SMap Nat} {x_migq : List Mig} {x_sweep : SMap Nat} {x_stalled : List Stalled}
    {x_plcCh : SMap (Option PlcCmd)} {x_plans : SMap Plan} {x_plcRestoring : Bool}
    (hW : Within [.triggers, .ephResults, .pageCache, .holders, .frameCur, .blockCur, .migq, .sweep, .stalled, .plcCh, .plans, .plcRestoring] ps) :
    SameBut ps s0 { s with triggers := x_triggers, ephResults := x_ephResults, pageCache := x_pageCache,
                           holders := x_holders, frameCur := x_frameCur, blockCur := x_blockCur, migq := x_migq,
                           sweep := x_sweep, stalled := x_stalled, plcCh := x_plcCh, plans := x_plans,
                           plcRestoring := x_plcRestoring } ↔ SameBut ps s0 s := by
  constructor <;> intro h p hp <;> have hs := h p hp <;> cases p <;> first | exact hs | exact absurd (hW _ (by decide)) hp

theorem same_mk_pages_frameMap_blocks_slots_plcFits_plcRestoring {x_pages : SMap Ent} {x_frameMap : SMap Nat}
    {x_blocks : SMap Bool} {x_slots : SMap (Option Mig)} {x_plcFits : Bool} {x_plcRestoring : Bool}
    (hW : Within [.pages, .frameMap, .blocks, .slots, .plcFits, .plcRestoring] ps) :
    SameBut ps s0 { s with pages := x_pages, frameMap := x_frameMap, blocks := x_blocks, slots := x_slots,
                           plcFits := x_plcFits, plcRestoring := x_plcRestoring } ↔ SameBut ps s0 s := by
  constructor <;> intro h p hp <;> have hs := h p hp <;> cases p <;> first | exact hs | exact absurd (hW _ (by decide)) hp

theorem
    same_mk_triggers_ephResults_pages_pageCache_holders_frameMap_blocks_frameCur_blockCur_slots_migq_sweep_stalled_plcCh_plans_plcFits_plcRestoring
    {x_triggers : List (Nat × Nat)} {x_ephResults : List (Nat × Nat × Nat)} {x_pages : SMap Ent}
    {x_pageCache : SMap (List (Nat × Nat × Nat))} {x_holders : SMap Nat} {x_frameMap : SMap Nat}
    {x_blocks : SMap Bool} {x_frameCur : SMap Nat} {x_blockCur : SMap Nat} {x_slots : SMap (Option Mig)}
    {x_migq : List Mig} {x_sweep : SMap Nat} {x_stalled : List Stalled} {x_plcCh : SMap (Option PlcCmd)}
    {x_plans : SMap Plan} {x_plcFits : Bool} {x_plcRestoring : Bool}
    (hW : Within [.triggers, .ephResults, .pages, .pageCache, .holders, .frameMap, .blocks, .frameCur, .blockCur, .slots, .migq, .sweep, .stalled, .plcCh, .plans, .plcFits, .plcRestoring] ps) :
    SameBut ps s0 { s with triggers := x_triggers, ephResults := x_ephResults, pages := x_pages,
                           pageCache := x_pageCache, holders := x_holders, frameMap := x_frameMap,
                           blocks := x_blocks, frameCur := x_frameCur, blockCur := x_blockCur, slots := x_slots,
                           migq := x_migq, sweep := x_sweep, stalled := x_stalled, plcCh := x_plcCh,
                           plans := x_plans, plcFits := x_plcFits,
                           plcRestoring := x_plcRestoring } ↔ SameBut ps s0 s := by
  constructor <;> intro h p hp <;> have hs := h p hp <;> cases p <;> first | exact hs | exact absurd (hW _ (by decide)) hp

theorem same_mk_plcRestoring {x_plcRestoring : Bool}
    (hW : Within [.plcRestoring] ps) :
    SameBut ps s0 { s with plcRestoring := x_plcRestoring } ↔ SameBut ps s0 s := by
  constructor <;> intro h p hp <;> have hs := h p hp <;> cases p <;> first | exact hs | exact absurd (hW _ (by decide)) hp

theorem same_mk_nbus {x_nbus : SMap Nbu}
    (hW : Within [.nbus] ps) :
    SameBut ps s0 { s with nbus := x_nbus } ↔ SameBut ps s0 s := by
  constructor <;> intro h p hp <;> have hs := h p hp <;> cases p <;> first | exact hs | exact absurd (hW _ (by decide)) hp

theorem same_mk_outbox {x_outbox : List FabMsg}
    (hW : Within [.outbox] ps) :
    SameBut ps s0 { s with outbox := x_outbox } ↔ SameBut ps s0 s := by
  constructor <;> intro h p hp <;> have hs := h p hp <;> cases p <;> first | exact hs | exact absurd (hW _ (by decide)) hp

theorem same_mk_holders {x_holders : SMap Nat}
    (hW : Within [.holders] ps) :
    SameBut ps s0 { s with holders := x_holders } ↔ SameBut ps s0 s := by
  constructor <;> intro h p hp <;> have hs := h p hp <;> cases p <;> first | exact hs | exact absurd (hW _ (by decide)) hp

theorem same_mk_dcache {x_dcache : SMap (SMap (Option Bytes))}
    (hW : Within [.dcache] ps) :
    SameBut ps s0 { s with dcache := x_dcache } ↔ SameBut ps s0 s := by
  constructor <;> intro h p hp <;> have hs := h p hp <;> cases p <;> first | exact hs | exact absurd (hW _ (by decide)) hp

theorem same_mk_stamp {x_stamp : Nat}
    (hW : Within [.stamp] ps) :
    SameBut ps s0 { s with stamp := x_stamp } ↔ SameBut ps s0 s := by
  constructor <;> intro h p hp <;> have hs := h p hp <;> cases p <;> first | exact hs | exact absurd (hW _ (by decide)) hp

theorem same_mk_rowsInFlight {x_rowsInFlight : List (Nat × Bytes)}
    (hW : Within [.rowsInFlight] ps) :
    SameBut ps s0 { s with rowsInFlight := x_rowsInFlight } ↔ SameBut ps s0 s := by
  constructor <;> intro h p hp <;> have hs := h p hp <;> cases p <;> first | exact hs | exact absurd (hW _ (by decide)) hp

theorem same_mk_rowAnswers {x_rowAnswers : List Bytes}
    (hW : Within [.rowAnswers] ps) :
    SameBut ps s0 { s with rowAnswers := x_rowAnswers } ↔ SameBut ps s0 s := by
  constructor <;> intro h p hp <;> have hs := h p hp <;> cases p <;> first | exact hs | exact absurd (hW _ (by decide)) hp

theorem same_mk_commit {x_commit : Option Nat}
    (hW : Within [.commit_] ps) :
    SameBut ps s0 { s with commit := x_commit } ↔ SameBut ps s0 s := by
  constructor <;> intro h p hp <;> have hs := h p hp <;> cases p <;> first | exact hs | exact absurd (hW _ (by decide)) hp

theorem same_mk_rlys {x_rlys : SMap Rly}
    (hW : Within [.rlys] ps) :
    SameBut ps s0 { s with rlys := x_rlys } ↔ SameBut ps s0 s := by
  constructor <;> intro h p hp <;> have hs := h p hp <;> cases p <;> first | exact hs | exact absurd (hW _ (by decide)) hp

theorem same_mk_rowAnswers_rlys {x_rowAnswers : List Bytes} {x_rlys : SMap Rly}
    (hW : Within [.rowAnswers, .rlys] ps) :
    SameBut ps s0 { s with rowAnswers := x_rowAnswers, rlys := x_rlys } ↔ SameBut ps s0 s := by
  constructor <;> intro h p hp <;> have hs := h p hp <;> cases p <;> first | exact hs | exact absurd (hW _ (by decide)) hp

theorem same_mk_med {x_med : Med}
    (hW : Within [.med] ps) :
    SameBut ps s0 { s with med := x_med } ↔ SameBut ps s0 s := by
  constructor <;> intro h p hp <;> have hs := h p hp <;> cases p <;> first | exact hs | exact absurd (hW _ (by decide)) hp

theorem same_mk_links {x_links : SMap Link}
    (hW : Within [.links] ps) :
    SameBut ps s0 { s with links := x_links } ↔ SameBut ps s0 s := by
  constructor <;> intro h p hp <;> have hs := h p hp <;> cases p <;> first | exact hs | exact absurd (hW _ (by decide)) hp

theorem same_mk_fabc {x_fabc : Fabc}
    (hW : Within [.fabc] ps) :
    SameBut ps s0 { s with fabc := x_fabc } ↔ SameBut ps s0 s := by
  constructor <;> intro h p hp <;> have hs := h p hp <;> cases p <;> first | exact hs | exact absurd (hW _ (by decide)) hp

theorem same_mk_links_fabc {x_links : SMap Link} {x_fabc : Fabc}
    (hW : Within [.links, .fabc] ps) :
    SameBut ps s0 { s with links := x_links, fabc := x_fabc } ↔ SameBut ps s0 s := by
  constructor <;> intro h p hp <;> have hs := h p hp <;> cases p <;> first | exact hs | exact absurd (hW _ (by decide)) hp

theorem same_mk_outbox_fabc {x_outbox : List FabMsg} {x_fabc : Fabc}
    (hW : Within [.outbox, .fabc] ps) :
    SameBut ps s0 { s with outbox := x_outbox, fabc := x_fabc } ↔ SameBut ps s0 s := by
  constructor <;> intro h p hp <;> have hs := h p hp <;> cases p <;> first | exact hs | exact absurd (hW _ (by decide)) hp

theorem same_mk_hlk {x_hlk : Hlk}
    (hW : Within [.hlk] ps) :
    SameBut ps s0 { s with hlk := x_hlk } ↔ SameBut ps s0 s := by
  constructor <;> intro h p hp <;> have hs := h p hp <;> cases p <;> first | exact hs | exact absurd (hW _ (by decide)) hp

theorem same_mk_harts {x_harts : SMap Hart}
    (hW : Within [.harts] ps) :
    SameBut ps s0 { s with harts := x_harts } ↔ SameBut ps s0 s := by
  constructor <;> intro h p hp <;> have hs := h p hp <;> cases p <;> first | exact hs | exact absurd (hW _ (by decide)) hp

theorem same_mk_quiet {x_quiet : Nat}
    (hW : Within [.quiet] ps) :
    SameBut ps s0 { s with quiet := x_quiet } ↔ SameBut ps s0 s := by
  constructor <;> intro h p hp <;> have hs := h p hp <;> cases p <;> first | exact hs | exact absurd (hW _ (by decide)) hp

theorem same_mk_csr_shadow_heldLow_latchHigh_quiet_heldWrites_coreHeld {x_csr : SMap W64} {x_shadow : SMap W64}
    {x_heldLow : SMap (Option W32)} {x_latchHigh : SMap W32} {x_quiet : Nat} {x_heldWrites : List HeldWrite}
    {x_coreHeld : List HeldWrite}
    (hW : Within [.csr, .shadow, .heldLow, .latchHigh, .quiet, .heldWrites, .coreHeld] ps) :
    SameBut ps s0 { s with csr := x_csr, shadow := x_shadow, heldLow := x_heldLow, latchHigh := x_latchHigh,
                           quiet := x_quiet, heldWrites := x_heldWrites,
                           coreHeld := x_coreHeld } ↔ SameBut ps s0 s := by
  constructor <;> intro h p hp <;> have hs := h p hp <;> cases p <;> first | exact hs | exact absurd (hW _ (by decide)) hp

theorem same_mk_cores_ephResults {x_cores : SMap Core} {x_ephResults : List (Nat × Nat × Nat)}
    (hW : Within [.cores, .ephResults] ps) :
    SameBut ps s0 { s with cores := x_cores, ephResults := x_ephResults } ↔ SameBut ps s0 s := by
  constructor <;> intro h p hp <;> have hs := h p hp <;> cases p <;> first | exact hs | exact absurd (hW _ (by decide)) hp

theorem same_mk_pwr {x_pwr : Pwr}
    (hW : Within [.pwr] ps) :
    SameBut ps s0 { s with pwr := x_pwr } ↔ SameBut ps s0 s := by
  constructor <;> intro h p hp <;> have hs := h p hp <;> cases p <;> first | exact hs | exact absurd (hW _ (by decide)) hp

theorem same_mk_boot {x_boot : Boot}
    (hW : Within [.boot] ps) :
    SameBut ps s0 { s with boot := x_boot } ↔ SameBut ps s0 s := by
  constructor <;> intro h p hp <;> have hs := h p hp <;> cases p <;> first | exact hs | exact absurd (hW _ (by decide)) hp

theorem same_mk_heldWrites_commit {x_heldWrites : List HeldWrite} {x_commit : Option Nat}
    (hW : Within [.heldWrites, .commit_] ps) :
    SameBut ps s0 { s with heldWrites := x_heldWrites, commit := x_commit } ↔ SameBut ps s0 s := by
  constructor <;> intro h p hp <;> have hs := h p hp <;> cases p <;> first | exact hs | exact absurd (hW _ (by decide)) hp

theorem same_mk_csr_shadow_heldLow_latchHigh_evt_rst_pwr {x_csr : SMap W64} {x_shadow : SMap W64}
    {x_heldLow : SMap (Option W32)} {x_latchHigh : SMap W32} {x_evt : Evt} {x_rst : Rst} {x_pwr : Pwr}
    (hW : Within [.csr, .shadow, .heldLow, .latchHigh, .evt, .rst, .pwr] ps) :
    SameBut ps s0 { s with csr := x_csr, shadow := x_shadow, heldLow := x_heldLow, latchHigh := x_latchHigh,
                           evt := x_evt, rst := x_rst, pwr := x_pwr } ↔ SameBut ps s0 s := by
  constructor <;> intro h p hp <;> have hs := h p hp <;> cases p <;> first | exact hs | exact absurd (hW _ (by decide)) hp

theorem same_mk_rst {x_rst : Rst}
    (hW : Within [.rst] ps) :
    SameBut ps s0 { s with rst := x_rst } ↔ SameBut ps s0 s := by
  constructor <;> intro h p hp <;> have hs := h p hp <;> cases p <;> first | exact hs | exact absurd (hW _ (by decide)) hp

theorem same_mk_rst_pwr {x_rst : Rst} {x_pwr : Pwr}
    (hW : Within [.rst, .pwr] ps) :
    SameBut ps s0 { s with rst := x_rst, pwr := x_pwr } ↔ SameBut ps s0 s := by
  constructor <;> intro h p hp <;> have hs := h p hp <;> cases p <;> first | exact hs | exact absurd (hW _ (by decide)) hp

theorem same_mk_plcFits {x_plcFits : Bool}
    (hW : Within [.plcFits] ps) :
    SameBut ps s0 { s with plcFits := x_plcFits } ↔ SameBut ps s0 s := by
  constructor <;> intro h p hp <;> have hs := h p hp <;> cases p <;> first | exact hs | exact absurd (hW _ (by decide)) hp

theorem same_mk_coreHeld {x_coreHeld : List HeldWrite}
    (hW : Within [.coreHeld] ps) :
    SameBut ps s0 { s with coreHeld := x_coreHeld } ↔ SameBut ps s0 s := by
  constructor <;> intro h p hp <;> have hs := h p hp <;> cases p <;> first | exact hs | exact absurd (hW _ (by decide)) hp

theorem same_mk_heldLow {x_heldLow : SMap (Option W32)}
    (hW : Within [.heldLow] ps) :
    SameBut ps s0 { s with heldLow := x_heldLow } ↔ SameBut ps s0 s := by
  constructor <;> intro h p hp <;> have hs := h p hp <;> cases p <;> first | exact hs | exact absurd (hW _ (by decide)) hp

theorem same_mk_heldWrites {x_heldWrites : List HeldWrite}
    (hW : Within [.heldWrites] ps) :
    SameBut ps s0 { s with heldWrites := x_heldWrites } ↔ SameBut ps s0 s := by
  constructor <;> intro h p hp <;> have hs := h p hp <;> cases p <;> first | exact hs | exact absurd (hW _ (by decide)) hp

theorem same_mk_latchHigh {x_latchHigh : SMap W32}
    (hW : Within [.latchHigh] ps) :
    SameBut ps s0 { s with latchHigh := x_latchHigh } ↔ SameBut ps s0 s := by
  constructor <;> intro h p hp <;> have hs := h p hp <;> cases p <;> first | exact hs | exact absurd (hW _ (by decide)) hp

theorem same_mk_busData {x_busData : Nat}
    (hW : Within [.busData] ps) :
    SameBut ps s0 { s with busData := x_busData } ↔ SameBut ps s0 s := by
  constructor <;> intro h p hp <;> have hs := h p hp <;> cases p <;> first | exact hs | exact absurd (hW _ (by decide)) hp

end

end Sys2Proof.Machine
end

