-- ==== Sys2Proof/Laws/FrameOps.lean ====
section
/-! SUPPORT. What the functions of Machine/Ops.lean leave unchanged (see Laws/Frame.lean). -/

set_option Elab.async false -- many small kernel checks: one thread does them
set_option linter.unusedSimpArgs false
set_option simprocs false -- no numeral of a goal is evaluated in these proofs

namespace Sys2Proof.Machine

theorem wr_same {ps : List Part} {s0 : State} {s : State} {a : Nat} {v : Nat}
    (hW : Within [.csr] ps) (hK : SameBut ps s0 s) :
    SameBut ps s0 (wr s a v) := by
  unfold wr
  repeat' (first | with_reducible assumption | simp only [same_mk_csr hW])

theorem wrShadow_same {ps : List Part} {s0 : State} {s : State} {a : Nat} {v : Nat}
    (hW : Within [.shadow] ps) (hK : SameBut ps s0 s) :
    SameBut ps s0 (wrShadow s a v) := by
  unfold wrShadow
  repeat' (first | with_reducible assumption | simp only [same_mk_shadow hW])

theorem setFld_same {ps : List Part} {s0 : State} {s : State} {a : Nat} {hi : Nat} {lo : Nat} {v : Nat}
    (hW : Within [.csr] ps) (hK : SameBut ps s0 s) :
    SameBut ps s0 (setFld s a hi lo v) := by
  unfold setFld
  repeat' (first | with_reducible assumption | with_reducible apply wr_same hW)

theorem setFlag_same {ps : List Part} {s0 : State} {s : State} {a : Nat} {n : Nat} {b : Bool}
    (hW : Within [.csr] ps) (hK : SameBut ps s0 s) :
    SameBut ps s0 (setFlag s a n b) := by
  unfold setFlag
  repeat' (first | with_reducible assumption | with_reducible apply setFld_same hW)

theorem poolPut_same {ps : List Part} {s0 : State} {s : State} {r : EvRec}
    (hW : Within [.evt] ps) (hK : SameBut ps s0 s) :
    SameBut ps s0 (poolPut s r) := by
  unfold poolPut
  repeat' (first | with_reducible assumption | simp only [same_mk_evt hW])

theorem bumpStat_same {ps : List Part} {s0 : State} {s : State} {a : Nat} {n : Nat} {blk : Option Nat}
    (hW : Within [.csr] ps) (hK : SameBut ps s0 s) :
    SameBut ps s0 (bumpStat s a n blk) := by
  unfold bumpStat
  repeat' (first | with_reducible assumption | with_reducible apply wr_same hW | extract_lets | split)

theorem bumpRaw_same {ps : List Part} {s0 : State} {s : State} {a : Nat} {n : Nat}
    (hW : Within [.csr] ps) (hK : SameBut ps s0 s) :
    SameBut ps s0 (bumpRaw s a n) := by
  unfold bumpRaw
  repeat' (first | with_reducible assumption | with_reducible apply wr_same hW)

theorem dropRec_same {ps : List Part} {s0 : State} {s : State} {src : Nat}
    (hW : Within [.csr] ps) (hK : SameBut ps s0 s) :
    SameBut ps s0 (dropRec s src) := by
  unfold dropRec
  repeat' (first | with_reducible assumption | with_reducible apply setFlag_same hW
                  | with_reducible apply bumpStat_same hW)

theorem raiseQuiet_same {ps : List Part} {s0 : State} {s : State} {src : Nat} {code : Nat} {d0 : Nat} {d1 : Nat}
    (hW : Within [.csr, .evt] ps) (hK : SameBut ps s0 s) :
    SameBut ps s0 (raiseQuiet s src code d0 d1) := by
  have w1 : Within [.evt] ps := Within.trans (by decide +kernel) hW
  have w2 : Within [.csr] ps := Within.trans (by decide +kernel) hW
  unfold raiseQuiet
  repeat' (first | with_reducible assumption | with_reducible apply poolPut_same w1
                  | with_reducible apply bumpStat_same w2 | with_reducible apply dropRec_same w2 | extract_lets
                  | split)

theorem reportDrop_same {ps : List Part} {s0 : State} {s : State} {src : Nat}
    (hW : Within [.csr, .evt] ps) (hK : SameBut ps s0 s) :
    SameBut ps s0 (reportDrop s src) := by
  have w1 : Within [.csr] ps := Within.trans (by decide +kernel) hW
  unfold reportDrop
  repeat' (first | with_reducible assumption | with_reducible apply setFlag_same w1
                  | with_reducible apply raiseQuiet_same hW | split)

theorem raisePool_same {ps : List Part} {s0 : State} {s : State} {src : Nat} {code : Nat} {d0 : Nat} {d1 : Nat}
    (hW : Within [.csr, .evt] ps) (hK : SameBut ps s0 s) :
    SameBut ps s0 (raisePool s src code d0 d1) := by
  have w1 : Within [.evt] ps := Within.trans (by decide +kernel) hW
  have w2 : Within [.csr] ps := Within.trans (by decide +kernel) hW
  unfold raisePool
  repeat' (first | with_reducible assumption | with_reducible apply poolPut_same w1
                  | with_reducible apply bumpStat_same w2 | with_reducible apply dropRec_same w2
                  | with_reducible apply reportDrop_same hW | extract_lets | split)

theorem raiseDome_same {ps : List Part} {s0 : State} {s : State} {src : Nat} {code : Nat} {d0 : Nat} {d1 : Nat}
    (hW : Within [.csr, .evt] ps) (hK : SameBut ps s0 s) :
    SameBut ps s0 (raiseDome s src code d0 d1) := by
  have w1 : Within [.csr] ps := Within.trans (by decide +kernel) hW
  have w2 : Within [.evt] ps := Within.trans (by decide +kernel) hW
  unfold raiseDome
  repeat' (first | with_reducible assumption | with_reducible apply setFlag_same w1 | simp only [same_mk_evt w2]
                  | split)

theorem drainDome_same {ps : List Part} {s0 : State} {s : State}
    (hW : Within [.csr, .evt] ps) (hK : SameBut ps s0 s) :
    SameBut ps s0 (drainDome s) := by
  have w1 : Within [.evt] ps := Within.trans (by decide +kernel) hW
  have w2 : Within [.csr] ps := Within.trans (by decide +kernel) hW
  unfold drainDome
  repeat' (first | with_reducible assumption | with_reducible apply poolPut_same w1
                  | with_reducible apply bumpStat_same w2 | with_reducible apply dropRec_same w2
                  | with_reducible apply reportDrop_same hW | simp only [same_mk_evt w1]
                  | (with_reducible apply same_foldl; (try intros)) | extract_lets | split)

theorem raise_same {ps : List Part} {s0 : State} {s : State} {src : Nat} {code : Nat} {d0 : Nat} {d1 : Nat}
    (hW : Within [.csr, .evt] ps) (hK : SameBut ps s0 s) :
    SameBut ps s0 (raise s src code d0 d1) := by
  unfold raise
  repeat' (first | with_reducible assumption | with_reducible apply raisePool_same hW
                  | with_reducible apply raiseDome_same hW | with_reducible apply drainDome_same hW | split)

theorem bumpOcc_same {ps : List Part} {s0 : State} {s : State} {a : Nat} {n : Nat}
    (hW : Within [.csr, .evt] ps) (hK : SameBut ps s0 s) :
    SameBut ps s0 (bumpOcc s a n) := by
  have w1 : Within [.csr] ps := Within.trans (by decide +kernel) hW
  unfold bumpOcc
  repeat' (first | with_reducible assumption | with_reducible apply bumpRaw_same w1
                  | with_reducible apply raise_same hW | extract_lets | split)

theorem captureViol_same {ps : List Part} {s0 : State} {s : State} {kind : Nat} {write : Bool} {cls : Nat}
    {addr : Nat}
    (hW : Within [.csr] ps) (hK : SameBut ps s0 s) :
    SameBut ps s0 (captureViol s kind write cls addr) := by
  unfold captureViol
  repeat' (first | with_reducible assumption | with_reducible apply wr_same hW | split)

theorem violation_same {ps : List Part} {s0 : State} {s : State} {kind : Nat} {write : Bool} {ini : Initiator}
    {addr : Nat}
    (hW : Within [.csr, .evt] ps) (hK : SameBut ps s0 s) :
    SameBut ps s0 (violation s kind write ini addr) := by
  have w1 : Within [.csr] ps := Within.trans (by decide +kernel) hW
  unfold violation
  repeat' (first | with_reducible assumption | with_reducible apply bumpOcc_same hW
                  | with_reducible apply captureViol_same w1)

end Sys2Proof.Machine
end

