-- ==== Sys2Proof/Laws/FrameCoreOps.lean ====
section
/-! SUPPORT. What the functions of Machine/CoreOps.lean leave unchanged (see Laws/Frame.lean). -/

set_option Elab.async false -- many small kernel checks: one thread does them
set_option linter.unusedSimpArgs false
set_option simprocs false -- no numeral of a goal is evaluated in these proofs

namespace Sys2Proof.Machine

theorem setCore_same {ps : List Part} {s0 : State} {s : State} {c : Nat} {k : Core}
    (hW : Within [.cores] ps) (hK : SameBut ps s0 s) :
    SameBut ps s0 (setCore s c k) := by
  unfold setCore
  repeat' (first | with_reducible assumption | simp only [same_mk_cores hW])

theorem coreFault_same {ps : List Part} {s0 : State} {s : State} {c : Nat} {w : Nat} {status : Nat} {cause : Nat}
    {addr : Nat}
    (hW : Within [.csr, .evt, .cores] ps) (hK : SameBut ps s0 s) :
    SameBut ps s0 (coreFault s c w status cause addr) := by
  have w1 : Within [.csr] ps := Within.trans (by decide +kernel) hW
  have w2 : Within [.csr, .evt] ps := Within.trans (by decide +kernel) hW
  have w3 : Within [.cores] ps := Within.trans (by decide +kernel) hW
  unfold coreFault
  repeat' (first | with_reducible assumption | with_reducible apply wr_same w1 | with_reducible apply raise_same w2
                  | with_reducible apply setCore_same w3)

theorem accErrCapture_same {ps : List Part} {s0 : State} {s : State} {c : Nat} {b : Bad}
    (hW : Within [.csr] ps) (hK : SameBut ps s0 s) :
    SameBut ps s0 (accErrCapture s c b) := by
  unfold accErrCapture
  repeat' (first | with_reducible assumption | with_reducible apply wr_same hW | extract_lets | split
                  | dsimp +zetaDelta only)

theorem afterBads_same {ps : List Part} {s0 : State} {s : State} {c : Nat} {bads : List Bad}
    (hW : Within [.csr] ps) (hK : SameBut ps s0 s) :
    SameBut ps s0 (afterBads s c bads).1 := by
  unfold afterBads
  repeat' (first | with_reducible assumption | with_reducible apply accErrCapture_same hW
                  | (with_reducible apply same_foldl; (try intros)) | split)

theorem advance_same {ps : List Part} {s0 : State} {s : State} {c : Nat} {w : Nat}
    (hW : Within [.csr, .evt, .cores] ps) (hK : SameBut ps s0 s) :
    SameBut ps s0 (advance s c w) := by
  have w1 : Within [.cores] ps := Within.trans (by decide +kernel) hW
  unfold advance
  repeat' (first | with_reducible assumption | with_reducible apply setCore_same w1
                  | with_reducible apply coreFault_same hW | extract_lets | split)

theorem applyFlow_same {ps : List Part} {s0 : State} {s : State} {c : Nat} {w : Nat} {fl : Flow}
    (hW : Within [.csr, .evt, .cores] ps) (hK : SameBut ps s0 s) :
    SameBut ps s0 (applyFlow s c w fl) := by
  have w1 : Within [.csr, .evt] ps := Within.trans (by decide +kernel) hW
  have w2 : Within [.cores] ps := Within.trans (by decide +kernel) hW
  unfold applyFlow
  repeat' (first | with_reducible assumption | with_reducible apply raise_same w1
                  | with_reducible apply setCore_same w2 | with_reducible apply coreFault_same hW
                  | with_reducible apply advance_same hW | extract_lets | split)

theorem strike_same {ps : List Part} {s0 : State} {s : State} {c : Nat} {k : Strike}
    (hW : Within [.csr, .evt, .cores] ps) (hK : SameBut ps s0 s) :
    SameBut ps s0 (strike s c k) := by
  have w1 : Within [.csr, .evt] ps := Within.trans (by decide +kernel) hW
  have w2 : Within [.cores] ps := Within.trans (by decide +kernel) hW
  unfold strike
  repeat' (first | with_reducible assumption | with_reducible apply bumpOcc_same w1
                  | with_reducible apply setCore_same w2)

theorem fresh_same {ps : List Part} {s0 : State} {s : State} {kind : Nat}
    (hW : Within [.freeCtr] ps) (hK : SameBut ps s0 s) :
    SameBut ps s0 (fresh s kind).2 := by
  unfold fresh
  repeat' (first | with_reducible assumption | simp only [same_mk_freeCtr hW])

theorem issue_same {ps : List Part} {s0 : State} {cls : Nat} {op : Nat} {eff : State → Nat → Nat → State × Flow}
    {c : Fin 96} {k : Strike} {s : State}
    (hW : Within [.freeCtr, .csr, .evt, .cores] ps) (hK : SameBut ps s0 s) (hf_eff : ∀ a0 a1 a2, SameBut ps s0 a0 → SameBut ps s0 (eff a0 a1 a2).1) :
    SameBut ps s0 (issue cls op eff c k s) := by
  have w1 : Within [.csr, .evt, .cores] ps := Within.trans (by decide +kernel) hW
  have w2 : Within [.freeCtr] ps := Within.trans (by decide +kernel) hW
  unfold issue
  repeat' (first | with_reducible assumption | with_reducible apply hf_eff | with_reducible apply coreFault_same w1
                  | with_reducible apply applyFlow_same w1 | with_reducible apply strike_same w1
                  | with_reducible apply fresh_same w2 | extract_lets | split)

theorem onCore_same {ps : List Part} {s0 : State} {f : Core → Nat → Core × Flow} {s : State} {c : Nat} {w : Nat}
    (hW : Within [.cores] ps) (hK : SameBut ps s0 s) :
    SameBut ps s0 (onCore f s c w).1 := by
  unfold onCore
  repeat' (first | with_reducible assumption | with_reducible apply setCore_same hW)

end Sys2Proof.Machine
end

