-- ==== Sys2Proof/Laws/FrameStrmOps.lean ====
section
/-! SUPPORT. What the functions of Machine/StrmOps.lean leave unchanged (see Laws/Frame.lean). -/

set_option Elab.async false -- many small kernel checks: one thread does them
set_option linter.unusedSimpArgs false
set_option simprocs false -- no numeral of a goal is evaluated in these proofs

namespace Sys2Proof.Machine

theorem sbSet_same {ps : List Part} {s0 : State} {s : State} {c : Nat} {b : Nat}
    (hW : Within [.csr, .evt, .cores] ps) (hK : SameBut ps s0 s) :
    SameBut ps s0 (sbSet s c b) := by
  have w1 : Within [.csr, .evt] ps := Within.trans (by decide +kernel) hW
  have w2 : Within [.cores] ps := Within.trans (by decide +kernel) hW
  unfold sbSet
  repeat' (first | with_reducible assumption | with_reducible apply bumpOcc_same w1
                  | with_reducible apply setCore_same w2 | extract_lets | split)

theorem sbFailSet_same {ps : List Part} {s0 : State} {s : State} {c : Nat} {b : Nat} {st : Nat}
    (hW : Within [.cores] ps) (hK : SameBut ps s0 s) :
    SameBut ps s0 (sbFailSet s c b st) := by
  unfold sbFailSet
  repeat' (first | with_reducible assumption | with_reducible apply setCore_same hW)

theorem waitFlow_same {ps : List Part} {s0 : State} {s : State} {c : Nat} {mask : Nat} {clr : Bool}
    (hW : Within [.cores] ps) (hK : SameBut ps s0 s) :
    SameBut ps s0 (waitFlow s c mask clr).1 := by
  unfold waitFlow
  repeat' (first | with_reducible assumption | with_reducible apply setCore_same hW | extract_lets | split)

theorem strmCapture_same {ps : List Part} {s0 : State} {s : State} {c : Nat} {t : Nat} {tag : Nat} {r : Report}
    (hW : Within [.csr] ps) (hK : SameBut ps s0 s) :
    SameBut ps s0 (strmCapture s c t tag r) := by
  unfold strmCapture
  repeat' (first | with_reducible assumption | with_reducible apply wr_same hW | with_reducible apply setFld_same hW
                  | extract_lets | split)

theorem strmDuties_same {ps : List Part} {s0 : State} {s : State} {c : Nat} {t : Nat} {b : Bytes} {r : Report}
    (hW : Within [.csr, .evt, .cores] ps) (hK : SameBut ps s0 s) :
    SameBut ps s0 (strmDuties s c t b r) := by
  have w1 : Within [.csr, .evt] ps := Within.trans (by decide +kernel) hW
  have w2 : Within [.cores] ps := Within.trans (by decide +kernel) hW
  have w3 : Within [.csr] ps := Within.trans (by decide +kernel) hW
  unfold strmDuties
  repeat' (first | with_reducible assumption | with_reducible apply raise_same w1
                  | with_reducible apply sbSet_same hW | with_reducible apply sbFailSet_same w2
                  | with_reducible apply strmCapture_same w3 | extract_lets | split | dsimp +zetaDelta only)

theorem strmComplete_same {ps : List Part} {s0 : State} {s : State} {c : Nat} {t : Nat} {b : Bytes}
    {eph : Option (Nat × Nat)} {r : Report}
    (hW : Within [.csr, .evt, .cores, .ephResults] ps) (hK : SameBut ps s0 s) :
    SameBut ps s0 (strmComplete s c t b eph r) := by
  have w1 : Within [.csr, .evt, .cores] ps := Within.trans (by decide +kernel) hW
  have w2 : Within [.ephResults] ps := Within.trans (by decide +kernel) hW
  unfold strmComplete
  repeat' (first | with_reducible assumption | with_reducible apply strmDuties_same w1
                  | simp only [same_mk_ephResults w2] | split)

theorem strmPushFailed_same {ps : List Part} {s0 : State} {s : State} {c : Nat} {t : Nat} {st : Nat}
    (hW : Within [.csr] ps) (hK : SameBut ps s0 s) :
    SameBut ps s0 (strmPushFailed s c t st) := by
  unfold strmPushFailed
  repeat' (first | with_reducible assumption | with_reducible apply strmCapture_same hW)

theorem strmDropQueued_same {ps : List Part} {s0 : State} {s : State} {c : Nat} {t : Nat} {e0 : List QEnt}
    (hW : Within [.csr, .evt, .cores, .ephResults] ps) (hK : SameBut ps s0 s) :
    SameBut ps s0 (strmDropQueued s c t e0) := by
  have w1 : Within [.csr] ps := Within.trans (by decide +kernel) hW
  revert hK
  fun_induction strmDropQueued s c t e0 <;> intro hK
  all_goals (repeat' (with_reducible assumption))
  all_goals (try (apply_assumption; repeat' (first | with_reducible assumption | with_reducible apply strmComplete_same hW
                                                     | with_reducible apply strmPushFailed_same w1)))

theorem strmCancelAll_same {ps : List Part} {s0 : State} {s : State} {c : Nat} {t : Nat}
    (hW : Within [.csr, .evt, .cores, .ephResults] ps) (hK : SameBut ps s0 s) :
    SameBut ps s0 (strmCancelAll s c t) := by
  have w1 : Within [.cores] ps := Within.trans (by decide +kernel) hW
  unfold strmCancelAll
  repeat' (first | with_reducible assumption | with_reducible apply setCore_same w1
                  | with_reducible apply strmDropQueued_same hW)

end Sys2Proof.Machine
end

