-- ==== Sys2Proof/Laws/FrameCoreCtl.lean ====
section
/-! SUPPORT. What the functions of Machine/CoreCtl.lean leave unchanged (see Laws/Frame.lean). -/

set_option Elab.async false -- many small kernel checks: one thread does them
set_option linter.unusedSimpArgs false
set_option simprocs false -- no numeral of a goal is evaluated in these proofs

namespace Sys2Proof.Machine

theorem execNop_same {ps : List Part} {s0 : State} {c : Fin 96} {k : Strike} {s : State}
    (hW : Within [.freeCtr, .csr, .evt, .cores] ps) (hK : SameBut ps s0 s) :
    OutSame ps s0 (execNop c k s) := by
  have w1 : Within [.cores] ps := Within.trans (by decide +kernel) hW
  unfold execNop
  repeat' (first | with_reducible assumption | with_reducible apply issue_same hW
                  | with_reducible apply onCore_same w1 | with_reducible apply outSame_next | extract_lets
                  | with_reducible intro _)

theorem execHalt_same {ps : List Part} {s0 : State} {c : Fin 96} {k : Strike} {s : State}
    (hW : Within [.freeCtr, .csr, .evt, .cores] ps) (hK : SameBut ps s0 s) :
    OutSame ps s0 (execHalt c k s) := by
  have w1 : Within [.cores] ps := Within.trans (by decide +kernel) hW
  unfold execHalt
  repeat' (first | with_reducible assumption | with_reducible apply issue_same hW
                  | with_reducible apply onCore_same w1 | with_reducible apply outSame_next | extract_lets
                  | with_reducible intro _)

theorem execLi_same {ps : List Part} {s0 : State} {c : Fin 96} {k : Strike} {s : State}
    (hW : Within [.freeCtr, .csr, .evt, .cores] ps) (hK : SameBut ps s0 s) :
    OutSame ps s0 (execLi c k s) := by
  have w1 : Within [.cores] ps := Within.trans (by decide +kernel) hW
  unfold execLi
  repeat' (first | with_reducible assumption | with_reducible apply issue_same hW
                  | with_reducible apply onCore_same w1 | with_reducible apply outSame_next | extract_lets
                  | with_reducible intro _)

theorem execLui_same {ps : List Part} {s0 : State} {c : Fin 96} {k : Strike} {s : State}
    (hW : Within [.freeCtr, .csr, .evt, .cores] ps) (hK : SameBut ps s0 s) :
    OutSame ps s0 (execLui c k s) := by
  have w1 : Within [.cores] ps := Within.trans (by decide +kernel) hW
  unfold execLui
  repeat' (first | with_reducible assumption | with_reducible apply issue_same hW
                  | with_reducible apply onCore_same w1 | with_reducible apply outSame_next | extract_lets
                  | with_reducible intro _)

theorem execAddi_same {ps : List Part} {s0 : State} {c : Fin 96} {k : Strike} {s : State}
    (hW : Within [.freeCtr, .csr, .evt, .cores] ps) (hK : SameBut ps s0 s) :
    OutSame ps s0 (execAddi c k s) := by
  have w1 : Within [.cores] ps := Within.trans (by decide +kernel) hW
  unfold execAddi
  repeat' (first | with_reducible assumption | with_reducible apply issue_same hW
                  | with_reducible apply onCore_same w1 | with_reducible apply outSame_next | extract_lets
                  | with_reducible intro _)

theorem execAdd_same {ps : List Part} {s0 : State} {c : Fin 96} {k : Strike} {s : State}
    (hW : Within [.freeCtr, .csr, .evt, .cores] ps) (hK : SameBut ps s0 s) :
    OutSame ps s0 (execAdd c k s) := by
  have w1 : Within [.cores] ps := Within.trans (by decide +kernel) hW
  unfold execAdd
  repeat' (first | with_reducible assumption | with_reducible apply issue_same hW
                  | with_reducible apply onCore_same w1 | with_reducible apply outSame_next | extract_lets
                  | with_reducible intro _)

theorem execSub_same {ps : List Part} {s0 : State} {c : Fin 96} {k : Strike} {s : State}
    (hW : Within [.freeCtr, .csr, .evt, .cores] ps) (hK : SameBut ps s0 s) :
    OutSame ps s0 (execSub c k s) := by
  have w1 : Within [.cores] ps := Within.trans (by decide +kernel) hW
  unfold execSub
  repeat' (first | with_reducible assumption | with_reducible apply issue_same hW
                  | with_reducible apply onCore_same w1 | with_reducible apply outSame_next | extract_lets
                  | with_reducible intro _)

theorem execShli_same {ps : List Part} {s0 : State} {c : Fin 96} {k : Strike} {s : State}
    (hW : Within [.freeCtr, .csr, .evt, .cores] ps) (hK : SameBut ps s0 s) :
    OutSame ps s0 (execShli c k s) := by
  have w1 : Within [.cores] ps := Within.trans (by decide +kernel) hW
  unfold execShli
  repeat' (first | with_reducible assumption | with_reducible apply issue_same hW
                  | with_reducible apply onCore_same w1 | with_reducible apply outSame_next | extract_lets
                  | with_reducible intro _)

theorem execBz_same {ps : List Part} {s0 : State} {c : Fin 96} {k : Strike} {s : State}
    (hW : Within [.freeCtr, .csr, .evt, .cores] ps) (hK : SameBut ps s0 s) :
    OutSame ps s0 (execBz c k s) := by
  have w1 : Within [.cores] ps := Within.trans (by decide +kernel) hW
  unfold execBz
  repeat' (first | with_reducible assumption | with_reducible apply issue_same hW
                  | with_reducible apply onCore_same w1 | with_reducible apply outSame_next | extract_lets
                  | with_reducible intro _)

theorem execBnz_same {ps : List Part} {s0 : State} {c : Fin 96} {k : Strike} {s : State}
    (hW : Within [.freeCtr, .csr, .evt, .cores] ps) (hK : SameBut ps s0 s) :
    OutSame ps s0 (execBnz c k s) := by
  have w1 : Within [.cores] ps := Within.trans (by decide +kernel) hW
  unfold execBnz
  repeat' (first | with_reducible assumption | with_reducible apply issue_same hW
                  | with_reducible apply onCore_same w1 | with_reducible apply outSame_next | extract_lets
                  | with_reducible intro _)

theorem execJmp_same {ps : List Part} {s0 : State} {c : Fin 96} {k : Strike} {s : State}
    (hW : Within [.freeCtr, .csr, .evt, .cores] ps) (hK : SameBut ps s0 s) :
    OutSame ps s0 (execJmp c k s) := by
  have w1 : Within [.cores] ps := Within.trans (by decide +kernel) hW
  unfold execJmp
  repeat' (first | with_reducible assumption | with_reducible apply issue_same hW
                  | with_reducible apply onCore_same w1 | with_reducible apply outSame_next | extract_lets
                  | with_reducible intro _)

theorem execLoop_same {ps : List Part} {s0 : State} {c : Fin 96} {k : Strike} {s : State}
    (hW : Within [.freeCtr, .csr, .evt, .cores] ps) (hK : SameBut ps s0 s) :
    OutSame ps s0 (execLoop c k s) := by
  have w1 : Within [.cores] ps := Within.trans (by decide +kernel) hW
  unfold execLoop
  repeat' (first | with_reducible assumption | with_reducible apply issue_same hW
                  | with_reducible apply onCore_same w1 | with_reducible apply outSame_next | extract_lets
                  | with_reducible intro _)

theorem strmIssueEff_same {ps : List Part} {s0 : State} {s : State} {c : Nat} {w : Nat}
    (hW : Within [.cores] ps) (hK : SameBut ps s0 s) :
    SameBut ps s0 (strmIssueEff s c w).1 := by
  unfold strmIssueEff
  repeat' (first | with_reducible assumption | with_reducible apply setCore_same hW | extract_lets | split)

theorem execStrmIssue_same {ps : List Part} {s0 : State} {c : Fin 96} {k : Strike} {s : State}
    (hW : Within [.freeCtr, .csr, .evt, .cores] ps) (hK : SameBut ps s0 s) :
    OutSame ps s0 (execStrmIssue c k s) := by
  have w1 : Within [.cores] ps := Within.trans (by decide +kernel) hW
  unfold execStrmIssue
  repeat' (first | with_reducible assumption | with_reducible apply issue_same hW
                  | with_reducible apply strmIssueEff_same w1 | with_reducible apply outSame_next | extract_lets
                  | with_reducible intro _)

theorem execStrmCancelInstr_same {ps : List Part} {s0 : State} {c : Fin 96} {k : Strike} {s : State}
    (hW : Within [.freeCtr, .csr, .evt, .cores, .ephResults] ps) (hK : SameBut ps s0 s) :
    OutSame ps s0 (execStrmCancelInstr c k s) := by
  have w1 : Within [.freeCtr, .csr, .evt, .cores] ps := Within.trans (by decide +kernel) hW
  have w2 : Within [.csr, .evt, .cores, .ephResults] ps := Within.trans (by decide +kernel) hW
  unfold execStrmCancelInstr
  repeat' (first | with_reducible assumption | with_reducible apply issue_same w1
                  | with_reducible apply strmCancelAll_same w2 | with_reducible apply outSame_next | extract_lets
                  | with_reducible intro _)

theorem execSyncWait_same {ps : List Part} {s0 : State} {c : Fin 96} {k : Strike} {s : State}
    (hW : Within [.freeCtr, .csr, .evt, .cores] ps) (hK : SameBut ps s0 s) :
    OutSame ps s0 (execSyncWait c k s) := by
  have w1 : Within [.cores] ps := Within.trans (by decide +kernel) hW
  unfold execSyncWait
  repeat' (first | with_reducible assumption | with_reducible apply issue_same hW
                  | with_reducible apply waitFlow_same w1 | with_reducible apply outSame_next | extract_lets
                  | with_reducible intro _)

theorem execSyncWaitm_same {ps : List Part} {s0 : State} {c : Fin 96} {k : Strike} {s : State}
    (hW : Within [.freeCtr, .csr, .evt, .cores] ps) (hK : SameBut ps s0 s) :
    OutSame ps s0 (execSyncWaitm c k s) := by
  have w1 : Within [.cores] ps := Within.trans (by decide +kernel) hW
  unfold execSyncWaitm
  repeat' (first | with_reducible assumption | with_reducible apply issue_same hW
                  | with_reducible apply waitFlow_same w1 | with_reducible apply outSame_next | extract_lets
                  | with_reducible intro _)

theorem execSyncSet_same {ps : List Part} {s0 : State} {c : Fin 96} {k : Strike} {s : State}
    (hW : Within [.freeCtr, .csr, .evt, .cores] ps) (hK : SameBut ps s0 s) :
    OutSame ps s0 (execSyncSet c k s) := by
  have w1 : Within [.csr, .evt, .cores] ps := Within.trans (by decide +kernel) hW
  unfold execSyncSet
  repeat' (first | with_reducible assumption | with_reducible apply issue_same hW
                  | with_reducible apply sbSet_same w1 | with_reducible apply outSame_next | extract_lets
                  | with_reducible intro _)

theorem execSyncClr_same {ps : List Part} {s0 : State} {c : Fin 96} {k : Strike} {s : State}
    (hW : Within [.freeCtr, .csr, .evt, .cores] ps) (hK : SameBut ps s0 s) :
    OutSame ps s0 (execSyncClr c k s) := by
  have w1 : Within [.cores] ps := Within.trans (by decide +kernel) hW
  unfold execSyncClr
  repeat' (first | with_reducible assumption | with_reducible apply issue_same hW
                  | with_reducible apply onCore_same w1 | with_reducible apply outSame_next | extract_lets
                  | with_reducible intro _)

theorem execSyncTest_same {ps : List Part} {s0 : State} {c : Fin 96} {k : Strike} {s : State}
    (hW : Within [.freeCtr, .csr, .evt, .cores] ps) (hK : SameBut ps s0 s) :
    OutSame ps s0 (execSyncTest c k s) := by
  have w1 : Within [.cores] ps := Within.trans (by decide +kernel) hW
  unfold execSyncTest
  repeat' (first | with_reducible assumption | with_reducible apply issue_same hW
                  | with_reducible apply onCore_same w1 | with_reducible apply outSame_next | extract_lets
                  | with_reducible intro _)

theorem execSyncSig_same {ps : List Part} {s0 : State} {c : Fin 96} {k : Strike} {s : State}
    (hW : Within [.freeCtr, .csr, .evt, .cores] ps) (hK : SameBut ps s0 s) :
    OutSame ps s0 (execSyncSig c k s) := by
  have w1 : Within [.cores] ps := Within.trans (by decide +kernel) hW
  unfold execSyncSig
  repeat' (first | with_reducible assumption | with_reducible apply issue_same hW
                  | with_reducible apply onCore_same w1 | with_reducible apply outSame_next | extract_lets
                  | with_reducible intro _)

theorem execSyncSigDeliver_same {ps : List Part} {s0 : State} {c : Fin 96} {s : State}
    (hW : Within [.csr, .evt, .cores] ps) (hK : SameBut ps s0 s) :
    OutSame ps s0 (execSyncSigDeliver c s) := by
  have w1 : Within [.cores] ps := Within.trans (by decide +kernel) hW
  unfold execSyncSigDeliver
  repeat' (first | with_reducible assumption | with_reducible apply setCore_same w1
                  | with_reducible apply sbSet_same hW | with_reducible apply outSame_next | extract_lets | split)

theorem execSyncBar_same {ps : List Part} {s0 : State} {c : Fin 96} {k : Strike} {s : State}
    (hW : Within [.freeCtr, .csr, .evt, .cores] ps) (hK : SameBut ps s0 s) :
    OutSame ps s0 (execSyncBar c k s) := by
  have w1 : Within [.cores] ps := Within.trans (by decide +kernel) hW
  unfold execSyncBar
  repeat' (first | with_reducible assumption | with_reducible apply setCore_same w1
                  | with_reducible apply issue_same hW | with_reducible apply outSame_next | extract_lets | split
                  | with_reducible intro _)

theorem releaseBar_same {ps : List Part} {s0 : State} {s : State} {e0 : List Nat}
    (hW : Within [.csr, .evt, .cores] ps) (hK : SameBut ps s0 s) :
    SameBut ps s0 (releaseBar s e0) := by
  have w1 : Within [.cores] ps := Within.trans (by decide +kernel) hW
  revert hK
  fun_induction releaseBar s e0 <;> intro hK
  all_goals (repeat' (first | with_reducible assumption | dsimp +zetaDelta only))
  all_goals (try (apply_assumption; repeat' (first | with_reducible assumption | with_reducible apply setCore_same w1
                                                     | with_reducible apply advance_same hW)))

theorem execBarComplete_same {ps : List Part} {s0 : State} {group : Fin 64} {id : Fin 256} {s : State}
    (hW : Within [.csr, .evt, .cores] ps) (hK : SameBut ps s0 s) :
    OutSame ps s0 (execBarComplete group id s) := by
  unfold execBarComplete
  repeat' (first | with_reducible assumption | with_reducible apply releaseBar_same hW
                  | with_reducible apply outSame_next | extract_lets | split)

theorem execSyncMark_same {ps : List Part} {s0 : State} {c : Fin 96} {k : Strike} {s : State}
    (hW : Within [.freeCtr, .csr, .evt, .cores, .triggers] ps) (hK : SameBut ps s0 s) :
    OutSame ps s0 (execSyncMark c k s) := by
  have w1 : Within [.freeCtr, .csr, .evt, .cores] ps := Within.trans (by decide +kernel) hW
  have w2 : Within [.triggers] ps := Within.trans (by decide +kernel) hW
  unfold execSyncMark
  repeat' (first | with_reducible assumption | with_reducible apply issue_same w1
                  | with_reducible apply outSame_next | simp only [same_mk_triggers w2] | with_reducible intro _)

theorem execSyncDrain_same {ps : List Part} {s0 : State} {c : Fin 96} {k : Strike} {s : State}
    (hW : Within [.freeCtr, .csr, .evt, .cores] ps) (hK : SameBut ps s0 s) :
    OutSame ps s0 (execSyncDrain c k s) := by
  unfold execSyncDrain
  repeat' (first | with_reducible assumption | with_reducible apply issue_same hW
                  | with_reducible apply outSame_next | extract_lets | split | with_reducible intro _)

theorem execCoreStallResume_same {ps : List Part} {s0 : State} {c : Fin 96} {s : State}
    (hW : Within [.csr, .evt, .cores] ps) (hK : SameBut ps s0 s) :
    OutSame ps s0 (execCoreStallResume c s) := by
  have w1 : Within [.cores] ps := Within.trans (by decide +kernel) hW
  unfold execCoreStallResume
  repeat' (first | with_reducible assumption | with_reducible apply setCore_same w1
                  | with_reducible apply advance_same hW | with_reducible apply applyFlow_same hW
                  | with_reducible apply waitFlow_same w1 | with_reducible apply outSame_next | extract_lets | split)

theorem coreRunEff_same {ps : List Part} {s0 : State} {s : State} {i : Initiator} {c : Nat}
    (hW : Within [.csr, .evt, .cores] ps) (hK : SameBut ps s0 s) :
    SameBut ps s0 (coreRunEff s i c) := by
  have w1 : Within [.csr, .evt] ps := Within.trans (by decide +kernel) hW
  have w2 : Within [.cores] ps := Within.trans (by decide +kernel) hW
  unfold coreRunEff
  repeat' (first | with_reducible assumption | with_reducible apply violation_same w1
                  | with_reducible apply setCore_same w2 | extract_lets | split)

theorem coreStopEff_same {ps : List Part} {s0 : State} {s : State} {c : Nat}
    (hW : Within [.cores] ps) (hK : SameBut ps s0 s) :
    SameBut ps s0 (coreStopEff s c) := by
  unfold coreStopEff
  repeat' (first | with_reducible assumption | with_reducible apply setCore_same hW | extract_lets | split)

theorem corePcEff_same {ps : List Part} {s0 : State} {s : State} {i : Initiator} {c : Nat} {v : Nat}
    (hW : Within [.csr, .evt, .cores] ps) (hK : SameBut ps s0 s) :
    SameBut ps s0 (corePcEff s i c v) := by
  have w1 : Within [.csr, .evt] ps := Within.trans (by decide +kernel) hW
  have w2 : Within [.cores] ps := Within.trans (by decide +kernel) hW
  unfold corePcEff
  repeat' (first | with_reducible assumption | with_reducible apply violation_same w1
                  | with_reducible apply setCore_same w2 | extract_lets | split)

theorem coreFaultClrEff_same {ps : List Part} {s0 : State} {s : State} {c : Nat}
    (hW : Within [.cores] ps) (hK : SameBut ps s0 s) :
    SameBut ps s0 (coreFaultClrEff s c) := by
  unfold coreFaultClrEff
  repeat' (first | with_reducible assumption | with_reducible apply setCore_same hW | extract_lets | split)

theorem coreSbClearEff_same {ps : List Part} {s0 : State} {s : State} {c : Nat} {v : Nat}
    (hW : Within [.cores] ps) (hK : SameBut ps s0 s) :
    SameBut ps s0 (coreSbClearEff s c v) := by
  unfold coreSbClearEff
  repeat' (first | with_reducible assumption | with_reducible apply setCore_same hW)

theorem coreSbSetEff_same {ps : List Part} {s0 : State} {s : State} {c : Nat} {v : Nat}
    (hW : Within [.csr, .evt, .cores] ps) (hK : SameBut ps s0 s) :
    SameBut ps s0 (coreSbSetEff s c v) := by
  unfold coreSbSetEff
  repeat' (first | with_reducible assumption | with_reducible apply sbSet_same hW
                  | (with_reducible apply same_foldl; (try intros)))

theorem coreSbFailEff_same {ps : List Part} {s0 : State} {s : State} {c : Nat} {v : Nat}
    (hW : Within [.cores] ps) (hK : SameBut ps s0 s) :
    SameBut ps s0 (coreSbFailEff s c v) := by
  unfold coreSbFailEff
  repeat' (first | with_reducible assumption | with_reducible apply setCore_same hW)

theorem accTmodeEff_same {ps : List Part} {s0 : State} {s : State} {i : Initiator} {c : Nat} {v : Nat}
    (hW : Within [.csr, .evt, .cores] ps) (hK : SameBut ps s0 s) :
    SameBut ps s0 (accTmodeEff s i c v) := by
  have w1 : Within [.csr, .evt] ps := Within.trans (by decide +kernel) hW
  have w2 : Within [.cores] ps := Within.trans (by decide +kernel) hW
  unfold accTmodeEff
  repeat' (first | with_reducible assumption | with_reducible apply violation_same w1
                  | with_reducible apply setCore_same w2 | extract_lets | split)

theorem strmPushEff_same {ps : List Part} {s0 : State} {s : State} {c : Nat} {t : Nat} {v : Nat}
    (hW : Within [.csr, .cores] ps) (hK : SameBut ps s0 s) :
    SameBut ps s0 (strmPushEff s c t v) := by
  have w1 : Within [.csr] ps := Within.trans (by decide +kernel) hW
  have w2 : Within [.cores] ps := Within.trans (by decide +kernel) hW
  unfold strmPushEff
  repeat' (first | with_reducible assumption | with_reducible apply setFlag_same w1
                  | with_reducible apply setCore_same w2 | extract_lets | split)

end Sys2Proof.Machine
end

