-- ==== Sys2Proof/Laws/FrameMatMul.lean ====
section
/-! SUPPORT. What the functions of Machine/MatMul.lean leave unchanged (see Laws/Frame.lean). -/

set_option Elab.async false -- many small kernel checks: one thread does them
set_option linter.unusedSimpArgs false
set_option simprocs false -- no numeral of a goal is evaluated in these proofs

namespace Sys2Proof.Machine

theorem mmLdwEff_same {ps : List Part} {s0 : State} {s : State} {c : Nat} {w : Nat}
    (hW : Within [.csr, .shadow, .cores] ps) (hK : SameBut ps s0 s) :
    SameBut ps s0 (mmLdwEff s c w).1 := by
  have w1 : Within [.cores] ps := Within.trans (by decide +kernel) hW
  have w2 : Within [.csr] ps := Within.trans (by decide +kernel) hW
  have w3 : Within [.shadow] ps := Within.trans (by decide +kernel) hW
  unfold mmLdwEff
  repeat' (first | with_reducible assumption | with_reducible apply setCore_same w1
                  | with_reducible apply afterBads_same w2 | simp only [same_mk_shadow w3] | split)

theorem execMmLdw_same {ps : List Part} {s0 : State} {c : Fin 96} {k : Strike} {s : State}
    (hW : Within [.freeCtr, .csr, .shadow, .evt, .cores] ps) (hK : SameBut ps s0 s) :
    OutSame ps s0 (execMmLdw c k s) := by
  have w1 : Within [.freeCtr, .csr, .evt, .cores] ps := Within.trans (by decide +kernel) hW
  have w2 : Within [.csr, .shadow, .cores] ps := Within.trans (by decide +kernel) hW
  unfold execMmLdw
  repeat' (first | with_reducible assumption | with_reducible apply issue_same w1
                  | with_reducible apply mmLdwEff_same w2 | with_reducible apply outSame_next | extract_lets
                  | with_reducible intro _)

theorem mmRunEff_same {ps : List Part} {s0 : State} {s : State} {c : Nat} {w : Nat}
    (hW : Within [.csr, .shadow, .cores] ps) (hK : SameBut ps s0 s) :
    SameBut ps s0 (mmRunEff s c w).1 := by
  have w1 : Within [.csr] ps := Within.trans (by decide +kernel) hW
  have w2 : Within [.cores] ps := Within.trans (by decide +kernel) hW
  unfold mmRunEff
  repeat' (first | with_reducible assumption | with_reducible apply setFlag_same w1
                  | with_reducible apply bumpStat_same w1 | with_reducible apply setCore_same w2
                  | with_reducible apply afterBads_same w1 | extract_lets | split)

theorem execMmRun_same {ps : List Part} {s0 : State} {c : Fin 96} {k : Strike} {s : State}
    (hW : Within [.freeCtr, .csr, .shadow, .evt, .cores] ps) (hK : SameBut ps s0 s) :
    OutSame ps s0 (execMmRun c k s) := by
  have w1 : Within [.freeCtr, .csr, .evt, .cores] ps := Within.trans (by decide +kernel) hW
  have w2 : Within [.csr, .shadow, .cores] ps := Within.trans (by decide +kernel) hW
  unfold execMmRun
  repeat' (first | with_reducible assumption | with_reducible apply issue_same w1
                  | with_reducible apply mmRunEff_same w2 | with_reducible apply outSame_next | extract_lets
                  | with_reducible intro _)

theorem execMmRunComplete_same {ps : List Part} {s0 : State} {c : Fin 96} {s : State}
    (hW : Within [.cores] ps) (hK : SameBut ps s0 s) :
    OutSame ps s0 (execMmRunComplete c s) := by
  unfold execMmRunComplete
  repeat' (first | with_reducible assumption | with_reducible apply setCore_same hW
                  | with_reducible apply outSame_next | extract_lets | split)

theorem execTrqPush_same {ps : List Part} {s0 : State} {c : Fin 96} {s : State}
    (hW : Within [.cores] ps) (hK : SameBut ps s0 s) :
    OutSame ps s0 (execTrqPush c s) := by
  unfold execTrqPush
  repeat' (first | with_reducible assumption | with_reducible apply setCore_same hW
                  | with_reducible apply outSame_next | extract_lets | split)

end Sys2Proof.Machine
end

