-- ==== Sys2Proof/Laws/FrameAccum.lean ====
section
/-! SUPPORT. What the functions of Machine/Accum.lean leave unchanged (see Laws/Frame.lean). -/

set_option Elab.async false -- many small kernel checks: one thread does them
set_option linter.unusedSimpArgs false
set_option simprocs false -- no numeral of a goal is evaluated in these proofs

namespace Sys2Proof.Machine

theorem accFlags_same {ps : List Part} {s0 : State} {s : State} {c : Nat} {f : Nat}
    (hW : Within [.csr] ps) (hK : SameBut ps s0 s) :
    SameBut ps s0 (accFlags s c f) := by
  unfold accFlags
  repeat' (first | with_reducible assumption | with_reducible apply wr_same hW)

theorem accIssue_same {ps : List Part} {s0 : State} {op : Nat} {eff : State → Nat → Nat → State × Flow} {c : Fin 96}
    {k : Strike} {s : State}
    (hW : Within [.freeCtr, .csr, .evt, .cores] ps) (hK : SameBut ps s0 s) (hf_eff : ∀ a0 a1 a2, SameBut ps s0 a0 → SameBut ps s0 (eff a0 a1 a2).1) :
    SameBut ps s0 (accIssue op eff c k s) := by
  unfold accIssue
  repeat' (first | with_reducible assumption | with_reducible apply hf_eff | with_reducible apply issue_same hW
                  | extract_lets | split | with_reducible intro _)

theorem execAccMode_same {ps : List Part} {s0 : State} {c : Fin 96} {k : Strike} {s : State}
    (hW : Within [.freeCtr, .csr, .evt, .cores] ps) (hK : SameBut ps s0 s) :
    OutSame ps s0 (execAccMode c k s) := by
  have w1 : Within [.cores] ps := Within.trans (by decide +kernel) hW
  unfold execAccMode
  repeat' (first | with_reducible assumption | with_reducible apply onCore_same w1
                  | with_reducible apply accIssue_same hW | with_reducible apply outSame_next | extract_lets
                  | with_reducible intro _)

theorem execAccZero_same {ps : List Part} {s0 : State} {c : Fin 96} {k : Strike} {s : State}
    (hW : Within [.freeCtr, .csr, .evt, .cores] ps) (hK : SameBut ps s0 s) :
    OutSame ps s0 (execAccZero c k s) := by
  have w1 : Within [.cores] ps := Within.trans (by decide +kernel) hW
  unfold execAccZero
  repeat' (first | with_reducible assumption | with_reducible apply onCore_same w1
                  | with_reducible apply accIssue_same hW | with_reducible apply outSame_next | extract_lets
                  | with_reducible intro _)

theorem accLdEff_same {ps : List Part} {s0 : State} {s : State} {c : Nat} {w : Nat} (hW : Within [.csr, .cores] ps)
    (hK : SameBut ps s0 s) :
    SameBut ps s0 (accLdEff s c w).1 := by
  unfold accLdEff
  extract_lets
  split
  · exact hK
  split
  · exact hK
  split
  extract_lets
  split
  split
  extract_lets
  apply afterBads_same (Within.trans (by decide +kernel) hW)
  split
  · exact accFlags_same (Within.trans (by decide +kernel) hW) (setCore_same (Within.trans (by decide +kernel) hW) hK)
  · exact setCore_same (Within.trans (by decide +kernel) hW) hK

theorem execAccLd_same {ps : List Part} {s0 : State} {c : Fin 96} {k : Strike} {s : State}
    (hW : Within [.freeCtr, .csr, .evt, .cores] ps) (hK : SameBut ps s0 s) :
    OutSame ps s0 (execAccLd c k s) := by
  have w1 : Within [.csr, .cores] ps := Within.trans (by decide +kernel) hW
  unfold execAccLd
  repeat' (first | with_reducible assumption | with_reducible apply accIssue_same hW
                  | with_reducible apply accLdEff_same w1 | with_reducible apply outSame_next | extract_lets
                  | with_reducible intro _)

theorem accStEff_same {ps : List Part} {s0 : State} {s : State} {c : Nat} {w : Nat}
    (hW : Within [.csr, .cores] ps) (hK : SameBut ps s0 s) :
    SameBut ps s0 (accStEff s c w).1 := by
  have w1 : Within [.cores] ps := Within.trans (by decide +kernel) hW
  have w2 : Within [.csr] ps := Within.trans (by decide +kernel) hW
  unfold accStEff
  repeat' (first | with_reducible assumption | with_reducible apply setCore_same w1
                  | with_reducible apply afterBads_same w2 | with_reducible apply accFlags_same w2 | extract_lets
                  | split)

theorem execAccSt_same {ps : List Part} {s0 : State} {c : Fin 96} {k : Strike} {s : State}
    (hW : Within [.freeCtr, .csr, .evt, .cores] ps) (hK : SameBut ps s0 s) :
    OutSame ps s0 (execAccSt c k s) := by
  have w1 : Within [.csr, .cores] ps := Within.trans (by decide +kernel) hW
  unfold execAccSt
  repeat' (first | with_reducible assumption | with_reducible apply accIssue_same hW
                  | with_reducible apply accStEff_same w1 | with_reducible apply outSame_next | extract_lets
                  | with_reducible intro _)

theorem execAccPush_same {ps : List Part} {s0 : State} {c : Fin 96} {k : Strike} {s : State}
    (hW : Within [.freeCtr, .csr, .evt, .cores] ps) (hK : SameBut ps s0 s) :
    OutSame ps s0 (execAccPush c k s) := by
  have w1 : Within [.cores] ps := Within.trans (by decide +kernel) hW
  unfold execAccPush
  repeat' (first | with_reducible assumption | with_reducible apply onCore_same w1
                  | with_reducible apply accIssue_same hW | with_reducible apply outSame_next | extract_lets
                  | with_reducible intro _)

theorem accSaddEff_same {ps : List Part} {s0 : State} {s : State} {c : Nat} {w : Nat}
    (hW : Within [.csr, .cores] ps) (hK : SameBut ps s0 s) :
    SameBut ps s0 (accSaddEff s c w).1 := by
  have w1 : Within [.cores] ps := Within.trans (by decide +kernel) hW
  have w2 : Within [.csr] ps := Within.trans (by decide +kernel) hW
  unfold accSaddEff
  repeat' (first | with_reducible assumption | with_reducible apply setCore_same w1
                  | with_reducible apply afterBads_same w2 | with_reducible apply accFlags_same w2 | extract_lets
                  | split)

theorem execAccSadd_same {ps : List Part} {s0 : State} {c : Fin 96} {k : Strike} {s : State}
    (hW : Within [.freeCtr, .csr, .evt, .cores] ps) (hK : SameBut ps s0 s) :
    OutSame ps s0 (execAccSadd c k s) := by
  have w1 : Within [.csr, .cores] ps := Within.trans (by decide +kernel) hW
  unfold execAccSadd
  repeat' (first | with_reducible assumption | with_reducible apply accIssue_same hW
                  | with_reducible apply accSaddEff_same w1 | with_reducible apply outSame_next | extract_lets
                  | with_reducible intro _)

theorem accSmrgEff_same {ps : List Part} {s0 : State} {s : State} {c : Nat} {w : Nat}
    (hW : Within [.csr, .cores] ps) (hK : SameBut ps s0 s) :
    SameBut ps s0 (accSmrgEff s c w).1 := by
  have w1 : Within [.cores] ps := Within.trans (by decide +kernel) hW
  have w2 : Within [.csr] ps := Within.trans (by decide +kernel) hW
  unfold accSmrgEff
  repeat' (first | with_reducible assumption | with_reducible apply setCore_same w1
                  | with_reducible apply afterBads_same w2 | with_reducible apply accFlags_same w2 | extract_lets
                  | split)

theorem execAccSmrg_same {ps : List Part} {s0 : State} {c : Fin 96} {k : Strike} {s : State}
    (hW : Within [.freeCtr, .csr, .evt, .cores] ps) (hK : SameBut ps s0 s) :
    OutSame ps s0 (execAccSmrg c k s) := by
  have w1 : Within [.csr, .cores] ps := Within.trans (by decide +kernel) hW
  unfold execAccSmrg
  repeat' (first | with_reducible assumption | with_reducible apply accIssue_same hW
                  | with_reducible apply accSmrgEff_same w1 | with_reducible apply outSame_next | extract_lets
                  | with_reducible intro _)

theorem accSfinEff_same {ps : List Part} {s0 : State} {s : State} {c : Nat} {w : Nat}
    (hW : Within [.csr, .cores] ps) (hK : SameBut ps s0 s) :
    SameBut ps s0 (accSfinEff s c w).1 := by
  have w1 : Within [.cores] ps := Within.trans (by decide +kernel) hW
  have w2 : Within [.csr] ps := Within.trans (by decide +kernel) hW
  unfold accSfinEff
  repeat' (first | with_reducible assumption | with_reducible apply setCore_same w1
                  | with_reducible apply afterBads_same w2 | extract_lets | split)

theorem execAccSfin_same {ps : List Part} {s0 : State} {c : Fin 96} {k : Strike} {s : State}
    (hW : Within [.freeCtr, .csr, .evt, .cores] ps) (hK : SameBut ps s0 s) :
    OutSame ps s0 (execAccSfin c k s) := by
  have w1 : Within [.csr, .cores] ps := Within.trans (by decide +kernel) hW
  unfold execAccSfin
  repeat' (first | with_reducible assumption | with_reducible apply accIssue_same hW
                  | with_reducible apply accSfinEff_same w1 | with_reducible apply outSame_next | extract_lets
                  | with_reducible intro _)

end Sys2Proof.Machine
end

