-- ==== Sys2Proof/Laws/FrameVector.lean ====
section
/-! SUPPORT. What the functions of Machine/Vector.lean leave unchanged (see Laws/Frame.lean). -/

set_option Elab.async false -- many small kernel checks: one thread does them
set_option linter.unusedSimpArgs false
set_option simprocs false -- no numeral of a goal is evaluated in these proofs

namespace Sys2Proof.Machine

theorem laneGroups_same {ps : List Part} {s0 : State} {s : State} {c : Nat}
    (hW : Within [.csr] ps) (hK : SameBut ps s0 s) :
    SameBut ps s0 (laneGroups s c) := by
  unfold laneGroups
  repeat' (first | with_reducible assumption | with_reducible apply bumpStat_same hW)

theorem vecElems_same {ps : List Part} {s0 : State} {srcs : Nat → List Nat} {f : List Nat → Nat} {s : State}
    {c : Nat} {w : Nat}
    (hW : Within [.csr, .cores] ps) (hK : SameBut ps s0 s) :
    SameBut ps s0 (vecElems srcs f s c w).1 := by
  have w1 : Within [.cores] ps := Within.trans (by decide +kernel) hW
  have w2 : Within [.csr] ps := Within.trans (by decide +kernel) hW
  unfold vecElems
  repeat' (first | with_reducible assumption | with_reducible apply setCore_same w1
                  | with_reducible apply afterBads_same w2 | with_reducible apply laneGroups_same w2)

theorem vec1_same {ps : List Part} {s0 : State} {op : Nat} {f : Nat → Nat} {c : Fin 96} {k : Strike} {s : State}
    (hW : Within [.freeCtr, .csr, .evt, .cores] ps) (hK : SameBut ps s0 s) :
    OutSame ps s0 (vec1 op f c k s) := by
  have w1 : Within [.csr, .cores] ps := Within.trans (by decide +kernel) hW
  unfold vec1
  repeat' (first | with_reducible assumption | with_reducible apply issue_same hW
                  | with_reducible apply vecElems_same w1 | with_reducible apply outSame_next | extract_lets
                  | with_reducible intro _)

theorem vec2_same {ps : List Part} {s0 : State} {op : Nat} {f : Nat → Nat → Nat} {c : Fin 96} {k : Strike} {s : State}
    (hW : Within [.freeCtr, .csr, .evt, .cores] ps) (hK : SameBut ps s0 s) :
    OutSame ps s0 (vec2 op f c k s) := by
  have w1 : Within [.csr, .cores] ps := Within.trans (by decide +kernel) hW
  unfold vec2
  repeat' (first | with_reducible assumption | with_reducible apply issue_same hW
                  | with_reducible apply vecElems_same w1 | with_reducible apply outSame_next | extract_lets
                  | with_reducible intro _)

theorem execVsetvl_same {ps : List Part} {s0 : State} {c : Fin 96} {k : Strike} {s : State}
    (hW : Within [.freeCtr, .csr, .evt, .cores] ps) (hK : SameBut ps s0 s) :
    OutSame ps s0 (execVsetvl c k s) := by
  have w1 : Within [.cores] ps := Within.trans (by decide +kernel) hW
  unfold execVsetvl
  repeat' (first | with_reducible assumption | with_reducible apply issue_same hW
                  | with_reducible apply onCore_same w1 | with_reducible apply outSame_next | extract_lets
                  | with_reducible intro _)

theorem vldEff_same {ps : List Part} {s0 : State} {s : State} {c : Nat} {w : Nat}
    (hW : Within [.csr, .cores] ps) (hK : SameBut ps s0 s) :
    SameBut ps s0 (vldEff s c w).1 := by
  have w1 : Within [.cores] ps := Within.trans (by decide +kernel) hW
  have w2 : Within [.csr] ps := Within.trans (by decide +kernel) hW
  unfold vldEff
  repeat' (first | with_reducible assumption | with_reducible apply setCore_same w1
                  | with_reducible apply afterBads_same w2 | with_reducible apply laneGroups_same w2 | extract_lets
                  | split)

theorem execVld_same {ps : List Part} {s0 : State} {c : Fin 96} {k : Strike} {s : State}
    (hW : Within [.freeCtr, .csr, .evt, .cores] ps) (hK : SameBut ps s0 s) :
    OutSame ps s0 (execVld c k s) := by
  have w1 : Within [.csr, .cores] ps := Within.trans (by decide +kernel) hW
  unfold execVld
  repeat' (first | with_reducible assumption | with_reducible apply issue_same hW
                  | with_reducible apply vldEff_same w1 | with_reducible apply outSame_next | extract_lets
                  | with_reducible intro _)

theorem vstEff_same {ps : List Part} {s0 : State} {s : State} {c : Nat} {w : Nat}
    (hW : Within [.csr, .cores] ps) (hK : SameBut ps s0 s) :
    SameBut ps s0 (vstEff s c w).1 := by
  have w1 : Within [.cores] ps := Within.trans (by decide +kernel) hW
  have w2 : Within [.csr] ps := Within.trans (by decide +kernel) hW
  unfold vstEff
  repeat' (first | with_reducible assumption | with_reducible apply setCore_same w1
                  | with_reducible apply afterBads_same w2 | with_reducible apply accFlags_same w2
                  | with_reducible apply laneGroups_same w2 | extract_lets | split)

theorem execVst_same {ps : List Part} {s0 : State} {c : Fin 96} {k : Strike} {s : State}
    (hW : Within [.freeCtr, .csr, .evt, .cores] ps) (hK : SameBut ps s0 s) :
    OutSame ps s0 (execVst c k s) := by
  have w1 : Within [.csr, .cores] ps := Within.trans (by decide +kernel) hW
  unfold execVst
  repeat' (first | with_reducible assumption | with_reducible apply issue_same hW
                  | with_reducible apply vstEff_same w1 | with_reducible apply outSame_next | extract_lets
                  | with_reducible intro _)

theorem vstg8Eff_same {ps : List Part} {s0 : State} {s : State} {c : Nat} {w : Nat}
    (hW : Within [.csr, .cores] ps) (hK : SameBut ps s0 s) :
    SameBut ps s0 (vstg8Eff s c w).1 := by
  have w1 : Within [.cores] ps := Within.trans (by decide +kernel) hW
  have w2 : Within [.csr] ps := Within.trans (by decide +kernel) hW
  unfold vstg8Eff
  repeat' (first | with_reducible assumption | with_reducible apply setCore_same w1
                  | with_reducible apply afterBads_same w2 | with_reducible apply accFlags_same w2
                  | with_reducible apply laneGroups_same w2 | extract_lets | split)

theorem execVstg8_same {ps : List Part} {s0 : State} {c : Fin 96} {k : Strike} {s : State}
    (hW : Within [.freeCtr, .csr, .evt, .cores] ps) (hK : SameBut ps s0 s) :
    OutSame ps s0 (execVstg8 c k s) := by
  have w1 : Within [.csr, .cores] ps := Within.trans (by decide +kernel) hW
  unfold execVstg8
  repeat' (first | with_reducible assumption | with_reducible apply issue_same hW
                  | with_reducible apply vstg8Eff_same w1 | with_reducible apply outSame_next | extract_lets
                  | with_reducible intro _)

theorem execVtrqpop_same {ps : List Part} {s0 : State} {c : Fin 96} {k : Strike} {s : State}
    (hW : Within [.freeCtr, .csr, .evt, .cores] ps) (hK : SameBut ps s0 s) :
    OutSame ps s0 (execVtrqpop c k s) := by
  have w1 : Within [.cores] ps := Within.trans (by decide +kernel) hW
  unfold execVtrqpop
  repeat' (first | with_reducible assumption | with_reducible apply issue_same hW
                  | with_reducible apply onCore_same w1 | with_reducible apply outSame_next | extract_lets
                  | with_reducible intro _)

theorem execVext_same {ps : List Part} {s0 : State} {c : Fin 96} {k : Strike} {s : State}
    (hW : Within [.freeCtr, .csr, .evt, .cores] ps) (hK : SameBut ps s0 s) :
    OutSame ps s0 (execVext c k s) := by
  have w1 : Within [.cores] ps := Within.trans (by decide +kernel) hW
  have w2 : Within [.csr] ps := Within.trans (by decide +kernel) hW
  unfold execVext
  repeat' (first | with_reducible assumption | with_reducible apply setCore_same w1
                  | with_reducible apply afterBads_same w2 | with_reducible apply issue_same hW
                  | with_reducible apply outSame_next | extract_lets | split | with_reducible intro _)

theorem execVins_same {ps : List Part} {s0 : State} {c : Fin 96} {k : Strike} {s : State}
    (hW : Within [.freeCtr, .csr, .evt, .cores] ps) (hK : SameBut ps s0 s) :
    OutSame ps s0 (execVins c k s) := by
  have w1 : Within [.cores] ps := Within.trans (by decide +kernel) hW
  have w2 : Within [.csr] ps := Within.trans (by decide +kernel) hW
  unfold execVins
  repeat' (first | with_reducible assumption | with_reducible apply setCore_same w1
                  | with_reducible apply afterBads_same w2 | with_reducible apply issue_same hW
                  | with_reducible apply outSame_next | extract_lets | split | with_reducible intro _)

theorem execVmov_same {ps : List Part} {s0 : State} {c : Fin 96} {k : Strike} {s : State}
    (hW : Within [.freeCtr, .csr, .evt, .cores] ps) (hK : SameBut ps s0 s) :
    OutSame ps s0 (execVmov c k s) := by
  unfold execVmov
  repeat' (first | with_reducible assumption | with_reducible apply vec1_same hW)

theorem execVfadd_same {ps : List Part} {s0 : State} {c : Fin 96} {k : Strike} {s : State}
    (hW : Within [.freeCtr, .csr, .evt, .cores] ps) (hK : SameBut ps s0 s) :
    OutSame ps s0 (execVfadd c k s) := by
  unfold execVfadd
  repeat' (first | with_reducible assumption | with_reducible apply vec2_same hW)

theorem execVfsub_same {ps : List Part} {s0 : State} {c : Fin 96} {k : Strike} {s : State}
    (hW : Within [.freeCtr, .csr, .evt, .cores] ps) (hK : SameBut ps s0 s) :
    OutSame ps s0 (execVfsub c k s) := by
  unfold execVfsub
  repeat' (first | with_reducible assumption | with_reducible apply vec2_same hW)

theorem execVfmul_same {ps : List Part} {s0 : State} {c : Fin 96} {k : Strike} {s : State}
    (hW : Within [.freeCtr, .csr, .evt, .cores] ps) (hK : SameBut ps s0 s) :
    OutSame ps s0 (execVfmul c k s) := by
  unfold execVfmul
  repeat' (first | with_reducible assumption | with_reducible apply vec2_same hW)

theorem execVffma_same {ps : List Part} {s0 : State} {c : Fin 96} {k : Strike} {s : State}
    (hW : Within [.freeCtr, .csr, .evt, .cores] ps) (hK : SameBut ps s0 s) :
    OutSame ps s0 (execVffma c k s) := by
  have w1 : Within [.csr, .cores] ps := Within.trans (by decide +kernel) hW
  unfold execVffma
  repeat' (first | with_reducible assumption | with_reducible apply issue_same hW
                  | with_reducible apply vecElems_same w1 | with_reducible apply outSame_next | extract_lets
                  | with_reducible intro _)

theorem execVfmax_same {ps : List Part} {s0 : State} {c : Fin 96} {k : Strike} {s : State}
    (hW : Within [.freeCtr, .csr, .evt, .cores] ps) (hK : SameBut ps s0 s) :
    OutSame ps s0 (execVfmax c k s) := by
  unfold execVfmax
  repeat' (first | with_reducible assumption | with_reducible apply vec2_same hW)

theorem execVfmin_same {ps : List Part} {s0 : State} {c : Fin 96} {k : Strike} {s : State}
    (hW : Within [.freeCtr, .csr, .evt, .cores] ps) (hK : SameBut ps s0 s) :
    OutSame ps s0 (execVfmin c k s) := by
  unfold execVfmin
  repeat' (first | with_reducible assumption | with_reducible apply vec2_same hW)

theorem execVfabs_same {ps : List Part} {s0 : State} {c : Fin 96} {k : Strike} {s : State}
    (hW : Within [.freeCtr, .csr, .evt, .cores] ps) (hK : SameBut ps s0 s) :
    OutSame ps s0 (execVfabs c k s) := by
  unfold execVfabs
  repeat' (first | with_reducible assumption | with_reducible apply vec1_same hW)

theorem execVfneg_same {ps : List Part} {s0 : State} {c : Fin 96} {k : Strike} {s : State}
    (hW : Within [.freeCtr, .csr, .evt, .cores] ps) (hK : SameBut ps s0 s) :
    OutSame ps s0 (execVfneg c k s) := by
  unfold execVfneg
  repeat' (first | with_reducible assumption | with_reducible apply vec1_same hW)

theorem execVrcp_same {ps : List Part} {s0 : State} {c : Fin 96} {k : Strike} {s : State}
    (hW : Within [.freeCtr, .csr, .evt, .cores] ps) (hK : SameBut ps s0 s) :
    OutSame ps s0 (execVrcp c k s) := by
  unfold execVrcp
  repeat' (first | with_reducible assumption | with_reducible apply vec1_same hW)

theorem execVrsqrt_same {ps : List Part} {s0 : State} {c : Fin 96} {k : Strike} {s : State}
    (hW : Within [.freeCtr, .csr, .evt, .cores] ps) (hK : SameBut ps s0 s) :
    OutSame ps s0 (execVrsqrt c k s) := by
  unfold execVrsqrt
  repeat' (first | with_reducible assumption | with_reducible apply vec1_same hW)

theorem execVsqrt_same {ps : List Part} {s0 : State} {c : Fin 96} {k : Strike} {s : State}
    (hW : Within [.freeCtr, .csr, .evt, .cores] ps) (hK : SameBut ps s0 s) :
    OutSame ps s0 (execVsqrt c k s) := by
  unfold execVsqrt
  repeat' (first | with_reducible assumption | with_reducible apply vec1_same hW)

theorem execVexp2_same {ps : List Part} {s0 : State} {c : Fin 96} {k : Strike} {s : State}
    (hW : Within [.freeCtr, .csr, .evt, .cores] ps) (hK : SameBut ps s0 s) :
    OutSame ps s0 (execVexp2 c k s) := by
  unfold execVexp2
  repeat' (first | with_reducible assumption | with_reducible apply vec1_same hW)

theorem execVlog2_same {ps : List Part} {s0 : State} {c : Fin 96} {k : Strike} {s : State}
    (hW : Within [.freeCtr, .csr, .evt, .cores] ps) (hK : SameBut ps s0 s) :
    OutSame ps s0 (execVlog2 c k s) := by
  unfold execVlog2
  repeat' (first | with_reducible assumption | with_reducible apply vec1_same hW)

theorem execVtanh_same {ps : List Part} {s0 : State} {c : Fin 96} {k : Strike} {s : State}
    (hW : Within [.freeCtr, .csr, .evt, .cores] ps) (hK : SameBut ps s0 s) :
    OutSame ps s0 (execVtanh c k s) := by
  unfold execVtanh
  repeat' (first | with_reducible assumption | with_reducible apply vec1_same hW)

theorem execVsigm_same {ps : List Part} {s0 : State} {c : Fin 96} {k : Strike} {s : State}
    (hW : Within [.freeCtr, .csr, .evt, .cores] ps) (hK : SameBut ps s0 s) :
    OutSame ps s0 (execVsigm c k s) := by
  unfold execVsigm
  repeat' (first | with_reducible assumption | with_reducible apply vec1_same hW)

theorem execVerf_same {ps : List Part} {s0 : State} {c : Fin 96} {k : Strike} {s : State}
    (hW : Within [.freeCtr, .csr, .evt, .cores] ps) (hK : SameBut ps s0 s) :
    OutSame ps s0 (execVerf c k s) := by
  unfold execVerf
  repeat' (first | with_reducible assumption | with_reducible apply vec1_same hW)

theorem execVcvtif_same {ps : List Part} {s0 : State} {c : Fin 96} {k : Strike} {s : State}
    (hW : Within [.freeCtr, .csr, .evt, .cores] ps) (hK : SameBut ps s0 s) :
    OutSame ps s0 (execVcvtif c k s) := by
  unfold execVcvtif
  repeat' (first | with_reducible assumption | with_reducible apply vec1_same hW)

theorem vcvtfiEff_same {ps : List Part} {s0 : State} {s : State} {c : Nat} {w : Nat}
    (hW : Within [.csr, .cores] ps) (hK : SameBut ps s0 s) :
    SameBut ps s0 (vcvtfiEff s c w).1 := by
  have w1 : Within [.csr] ps := Within.trans (by decide +kernel) hW
  unfold vcvtfiEff
  repeat' (first | with_reducible assumption | with_reducible apply accFlags_same w1
                  | with_reducible apply vecElems_same hW)

theorem execVcvtfi_same {ps : List Part} {s0 : State} {c : Fin 96} {k : Strike} {s : State}
    (hW : Within [.freeCtr, .csr, .evt, .cores] ps) (hK : SameBut ps s0 s) :
    OutSame ps s0 (execVcvtfi c k s) := by
  have w1 : Within [.csr, .cores] ps := Within.trans (by decide +kernel) hW
  unfold execVcvtfi
  repeat' (first | with_reducible assumption | with_reducible apply issue_same hW
                  | with_reducible apply vcvtfiEff_same w1 | with_reducible apply outSame_next | extract_lets
                  | with_reducible intro _)

theorem execVexps_same {ps : List Part} {s0 : State} {c : Fin 96} {k : Strike} {s : State}
    (hW : Within [.freeCtr, .csr, .evt, .cores] ps) (hK : SameBut ps s0 s) :
    OutSame ps s0 (execVexps c k s) := by
  have w1 : Within [.csr, .cores] ps := Within.trans (by decide +kernel) hW
  unfold execVexps
  repeat' (first | with_reducible assumption | with_reducible apply issue_same hW
                  | with_reducible apply vecElems_same w1 | with_reducible apply outSame_next | extract_lets
                  | with_reducible intro _)

theorem vcmpEff_same {ps : List Part} {s0 : State} {cmp : Nat → Nat → Nat → Bool} {s : State} {c : Nat} {w : Nat}
    (hW : Within [.csr, .cores] ps) (hK : SameBut ps s0 s) :
    SameBut ps s0 (vcmpEff cmp s c w).1 := by
  have w1 : Within [.cores] ps := Within.trans (by decide +kernel) hW
  have w2 : Within [.csr] ps := Within.trans (by decide +kernel) hW
  unfold vcmpEff
  repeat' (first | with_reducible assumption | with_reducible apply setCore_same w1
                  | with_reducible apply afterBads_same w2 | with_reducible apply laneGroups_same w2)

theorem execVfcmp_same {ps : List Part} {s0 : State} {c : Fin 96} {k : Strike} {s : State}
    (hW : Within [.freeCtr, .csr, .evt, .cores] ps) (hK : SameBut ps s0 s) :
    OutSame ps s0 (execVfcmp c k s) := by
  have w1 : Within [.csr, .cores] ps := Within.trans (by decide +kernel) hW
  unfold execVfcmp
  repeat' (first | with_reducible assumption | with_reducible apply issue_same hW
                  | with_reducible apply vcmpEff_same w1 | with_reducible apply outSame_next | extract_lets
                  | with_reducible intro _)

theorem execVicmp_same {ps : List Part} {s0 : State} {c : Fin 96} {k : Strike} {s : State}
    (hW : Within [.freeCtr, .csr, .evt, .cores] ps) (hK : SameBut ps s0 s) :
    OutSame ps s0 (execVicmp c k s) := by
  have w1 : Within [.csr, .cores] ps := Within.trans (by decide +kernel) hW
  unfold execVicmp
  repeat' (first | with_reducible assumption | with_reducible apply issue_same hW
                  | with_reducible apply vcmpEff_same w1 | with_reducible apply outSame_next | extract_lets
                  | with_reducible intro _)

theorem vredEff_same {ps : List Part} {s0 : State} {op : Nat → Nat → Nat} {ident : Nat} {s : State} {c : Nat}
    {w : Nat}
    (hW : Within [.csr, .cores] ps) (hK : SameBut ps s0 s) :
    SameBut ps s0 (vredEff op ident s c w).1 := by
  have w1 : Within [.cores] ps := Within.trans (by decide +kernel) hW
  have w2 : Within [.csr] ps := Within.trans (by decide +kernel) hW
  unfold vredEff
  repeat' (first | with_reducible assumption | with_reducible apply setCore_same w1
                  | with_reducible apply afterBads_same w2 | with_reducible apply laneGroups_same w2)

theorem execVfrsum_same {ps : List Part} {s0 : State} {c : Fin 96} {k : Strike} {s : State}
    (hW : Within [.freeCtr, .csr, .evt, .cores] ps) (hK : SameBut ps s0 s) :
    OutSame ps s0 (execVfrsum c k s) := by
  have w1 : Within [.csr, .cores] ps := Within.trans (by decide +kernel) hW
  unfold execVfrsum
  repeat' (first | with_reducible assumption | with_reducible apply issue_same hW
                  | with_reducible apply vredEff_same w1 | with_reducible apply outSame_next | extract_lets
                  | with_reducible intro _)

theorem execVfrmax_same {ps : List Part} {s0 : State} {c : Fin 96} {k : Strike} {s : State}
    (hW : Within [.freeCtr, .csr, .evt, .cores] ps) (hK : SameBut ps s0 s) :
    OutSame ps s0 (execVfrmax c k s) := by
  have w1 : Within [.csr, .cores] ps := Within.trans (by decide +kernel) hW
  unfold execVfrmax
  repeat' (first | with_reducible assumption | with_reducible apply issue_same hW
                  | with_reducible apply vredEff_same w1 | with_reducible apply outSame_next | extract_lets
                  | with_reducible intro _)

theorem execVfrmin_same {ps : List Part} {s0 : State} {c : Fin 96} {k : Strike} {s : State}
    (hW : Within [.freeCtr, .csr, .evt, .cores] ps) (hK : SameBut ps s0 s) :
    OutSame ps s0 (execVfrmin c k s) := by
  have w1 : Within [.csr, .cores] ps := Within.trans (by decide +kernel) hW
  unfold execVfrmin
  repeat' (first | with_reducible assumption | with_reducible apply issue_same hW
                  | with_reducible apply vredEff_same w1 | with_reducible apply outSame_next | extract_lets
                  | with_reducible intro _)

theorem execVirsum_same {ps : List Part} {s0 : State} {c : Fin 96} {k : Strike} {s : State}
    (hW : Within [.freeCtr, .csr, .evt, .cores] ps) (hK : SameBut ps s0 s) :
    OutSame ps s0 (execVirsum c k s) := by
  have w1 : Within [.csr, .cores] ps := Within.trans (by decide +kernel) hW
  unfold execVirsum
  repeat' (first | with_reducible assumption | with_reducible apply issue_same hW
                  | with_reducible apply vredEff_same w1 | with_reducible apply outSame_next | extract_lets
                  | with_reducible intro _)

theorem vselEff_same {ps : List Part} {s0 : State} {s : State} {c : Nat} {w : Nat}
    (hW : Within [.csr, .cores] ps) (hK : SameBut ps s0 s) :
    SameBut ps s0 (vselEff s c w).1 := by
  have w1 : Within [.cores] ps := Within.trans (by decide +kernel) hW
  have w2 : Within [.csr] ps := Within.trans (by decide +kernel) hW
  unfold vselEff
  repeat' (first | with_reducible assumption | with_reducible apply setCore_same w1
                  | with_reducible apply afterBads_same w2 | with_reducible apply laneGroups_same w2)

theorem execVsel_same {ps : List Part} {s0 : State} {c : Fin 96} {k : Strike} {s : State}
    (hW : Within [.freeCtr, .csr, .evt, .cores] ps) (hK : SameBut ps s0 s) :
    OutSame ps s0 (execVsel c k s) := by
  have w1 : Within [.csr, .cores] ps := Within.trans (by decide +kernel) hW
  unfold execVsel
  repeat' (first | with_reducible assumption | with_reducible apply issue_same hW
                  | with_reducible apply vselEff_same w1 | with_reducible apply outSame_next | extract_lets
                  | with_reducible intro _)

theorem execViadd_same {ps : List Part} {s0 : State} {c : Fin 96} {k : Strike} {s : State}
    (hW : Within [.freeCtr, .csr, .evt, .cores] ps) (hK : SameBut ps s0 s) :
    OutSame ps s0 (execViadd c k s) := by
  unfold execViadd
  repeat' (first | with_reducible assumption | with_reducible apply vec2_same hW)

theorem execVisub_same {ps : List Part} {s0 : State} {c : Fin 96} {k : Strike} {s : State}
    (hW : Within [.freeCtr, .csr, .evt, .cores] ps) (hK : SameBut ps s0 s) :
    OutSame ps s0 (execVisub c k s) := by
  unfold execVisub
  repeat' (first | with_reducible assumption | with_reducible apply vec2_same hW)

theorem execVimul_same {ps : List Part} {s0 : State} {c : Fin 96} {k : Strike} {s : State}
    (hW : Within [.freeCtr, .csr, .evt, .cores] ps) (hK : SameBut ps s0 s) :
    OutSame ps s0 (execVimul c k s) := by
  unfold execVimul
  repeat' (first | with_reducible assumption | with_reducible apply vec2_same hW)

theorem execVimax_same {ps : List Part} {s0 : State} {c : Fin 96} {k : Strike} {s : State}
    (hW : Within [.freeCtr, .csr, .evt, .cores] ps) (hK : SameBut ps s0 s) :
    OutSame ps s0 (execVimax c k s) := by
  unfold execVimax
  repeat' (first | with_reducible assumption | with_reducible apply vec2_same hW)

theorem execVimin_same {ps : List Part} {s0 : State} {c : Fin 96} {k : Strike} {s : State}
    (hW : Within [.freeCtr, .csr, .evt, .cores] ps) (hK : SameBut ps s0 s) :
    OutSame ps s0 (execVimin c k s) := by
  unfold execVimin
  repeat' (first | with_reducible assumption | with_reducible apply vec2_same hW)

theorem execVand_same {ps : List Part} {s0 : State} {c : Fin 96} {k : Strike} {s : State}
    (hW : Within [.freeCtr, .csr, .evt, .cores] ps) (hK : SameBut ps s0 s) :
    OutSame ps s0 (execVand c k s) := by
  unfold execVand
  repeat' (first | with_reducible assumption | with_reducible apply vec2_same hW)

theorem execVor_same {ps : List Part} {s0 : State} {c : Fin 96} {k : Strike} {s : State}
    (hW : Within [.freeCtr, .csr, .evt, .cores] ps) (hK : SameBut ps s0 s) :
    OutSame ps s0 (execVor c k s) := by
  unfold execVor
  repeat' (first | with_reducible assumption | with_reducible apply vec2_same hW)

theorem execVxor_same {ps : List Part} {s0 : State} {c : Fin 96} {k : Strike} {s : State}
    (hW : Within [.freeCtr, .csr, .evt, .cores] ps) (hK : SameBut ps s0 s) :
    OutSame ps s0 (execVxor c k s) := by
  unfold execVxor
  repeat' (first | with_reducible assumption | with_reducible apply vec2_same hW)

theorem execVshl_same {ps : List Part} {s0 : State} {c : Fin 96} {k : Strike} {s : State}
    (hW : Within [.freeCtr, .csr, .evt, .cores] ps) (hK : SameBut ps s0 s) :
    OutSame ps s0 (execVshl c k s) := by
  unfold execVshl
  repeat' (first | with_reducible assumption | with_reducible apply vec2_same hW)

theorem execVshra_same {ps : List Part} {s0 : State} {c : Fin 96} {k : Strike} {s : State}
    (hW : Within [.freeCtr, .csr, .evt, .cores] ps) (hK : SameBut ps s0 s) :
    OutSame ps s0 (execVshra c k s) := by
  unfold execVshra
  repeat' (first | with_reducible assumption | with_reducible apply vec2_same hW)

theorem execVshrl_same {ps : List Part} {s0 : State} {c : Fin 96} {k : Strike} {s : State}
    (hW : Within [.freeCtr, .csr, .evt, .cores] ps) (hK : SameBut ps s0 s) :
    OutSame ps s0 (execVshrl c k s) := by
  unfold execVshrl
  repeat' (first | with_reducible assumption | with_reducible apply vec2_same hW)

theorem maskEff_same {ps : List Part} {s0 : State} {f : Nat → Nat → Nat} {useA : Bool} {useB : Bool} {s : State}
    {c : Nat} {w : Nat}
    (hW : Within [.csr, .cores] ps) (hK : SameBut ps s0 s) :
    SameBut ps s0 (maskEff f useA useB s c w).1 := by
  have w1 : Within [.cores] ps := Within.trans (by decide +kernel) hW
  have w2 : Within [.csr] ps := Within.trans (by decide +kernel) hW
  unfold maskEff
  repeat' (first | with_reducible assumption | with_reducible apply setCore_same w1
                  | with_reducible apply afterBads_same w2)

theorem execVmset_same {ps : List Part} {s0 : State} {c : Fin 96} {k : Strike} {s : State}
    (hW : Within [.freeCtr, .csr, .evt, .cores] ps) (hK : SameBut ps s0 s) :
    OutSame ps s0 (execVmset c k s) := by
  have w1 : Within [.csr, .cores] ps := Within.trans (by decide +kernel) hW
  unfold execVmset
  repeat' (first | with_reducible assumption | with_reducible apply issue_same hW
                  | with_reducible apply maskEff_same w1 | with_reducible apply outSame_next | extract_lets
                  | with_reducible intro _)

theorem execVmnot_same {ps : List Part} {s0 : State} {c : Fin 96} {k : Strike} {s : State}
    (hW : Within [.freeCtr, .csr, .evt, .cores] ps) (hK : SameBut ps s0 s) :
    OutSame ps s0 (execVmnot c k s) := by
  have w1 : Within [.csr, .cores] ps := Within.trans (by decide +kernel) hW
  unfold execVmnot
  repeat' (first | with_reducible assumption | with_reducible apply issue_same hW
                  | with_reducible apply maskEff_same w1 | with_reducible apply outSame_next | extract_lets
                  | with_reducible intro _)

theorem execVmand_same {ps : List Part} {s0 : State} {c : Fin 96} {k : Strike} {s : State}
    (hW : Within [.freeCtr, .csr, .evt, .cores] ps) (hK : SameBut ps s0 s) :
    OutSame ps s0 (execVmand c k s) := by
  have w1 : Within [.csr, .cores] ps := Within.trans (by decide +kernel) hW
  unfold execVmand
  repeat' (first | with_reducible assumption | with_reducible apply issue_same hW
                  | with_reducible apply maskEff_same w1 | with_reducible apply outSame_next | extract_lets
                  | with_reducible intro _)

theorem execVmor_same {ps : List Part} {s0 : State} {c : Fin 96} {k : Strike} {s : State}
    (hW : Within [.freeCtr, .csr, .evt, .cores] ps) (hK : SameBut ps s0 s) :
    OutSame ps s0 (execVmor c k s) := by
  have w1 : Within [.csr, .cores] ps := Within.trans (by decide +kernel) hW
  unfold execVmor
  repeat' (first | with_reducible assumption | with_reducible apply issue_same hW
                  | with_reducible apply maskEff_same w1 | with_reducible apply outSame_next | extract_lets
                  | with_reducible intro _)

theorem execVmpop_same {ps : List Part} {s0 : State} {c : Fin 96} {k : Strike} {s : State}
    (hW : Within [.freeCtr, .csr, .evt, .cores] ps) (hK : SameBut ps s0 s) :
    OutSame ps s0 (execVmpop c k s) := by
  have w1 : Within [.cores] ps := Within.trans (by decide +kernel) hW
  have w2 : Within [.csr] ps := Within.trans (by decide +kernel) hW
  unfold execVmpop
  repeat' (first | with_reducible assumption | with_reducible apply setCore_same w1
                  | with_reducible apply afterBads_same w2 | with_reducible apply issue_same hW
                  | with_reducible apply outSame_next | extract_lets | split | with_reducible intro _)

end Sys2Proof.Machine
end

