-- ==== Sys2Proof/Laws/FrameStacks.lean ====
section
/-! SUPPORT. What the functions of Machine/Stacks.lean leave unchanged (see Laws/Frame.lean). -/

set_option Elab.async false -- many small kernel checks: one thread does them
set_option linter.unusedSimpArgs false
set_option simprocs false -- no numeral of a goal is evaluated in these proofs

namespace Sys2Proof.Machine

theorem setStk_same {ps : List Part} {s0 : State} {s : State} {i : Nat} {k : Stk}
    (hW : Within [.stks] ps) (hK : SameBut ps s0 s) :
    SameBut ps s0 (setStk s i k) := by
  unfold setStk
  repeat' (first | with_reducible assumption | simp only [same_mk_stks hW])

theorem stkCapture_same {ps : List Part} {s0 : State} {s : State} {i : Nat} {kind : Nat} {loc : Nat}
    (hW : Within [.csr] ps) (hK : SameBut ps s0 s) :
    SameBut ps s0 (stkCapture s i kind loc) := by
  unfold stkCapture
  repeat' (first | with_reducible assumption | with_reducible apply wr_same hW | with_reducible apply setFld_same hW
                  | extract_lets | split)

theorem rowCorrect_same {ps : List Part} {s0 : State} {s : State} {i : Nat} {ch : Nat} {bank : Nat} {row : Nat}
    (hW : Within [.csr, .evt, .stks] ps) (hK : SameBut ps s0 s) :
    SameBut ps s0 (rowCorrect s i ch bank row) := by
  have w1 : Within [.csr, .evt] ps := Within.trans (by decide +kernel) hW
  have w2 : Within [.stks] ps := Within.trans (by decide +kernel) hW
  unfold rowCorrect
  repeat' (first | with_reducible assumption | with_reducible apply raise_same w1
                  | with_reducible apply setStk_same w2 | extract_lets | split)

theorem countRead_same {ps : List Part} {s0 : State} {s : State} {i : Nat} {n : Nat}
    (hW : Within [.csr] ps) (hK : SameBut ps s0 s) :
    SameBut ps s0 (countRead s i n) := by
  unfold countRead
  repeat' (first | with_reducible assumption | with_reducible apply bumpStat_same hW)

theorem countWritten_same {ps : List Part} {s0 : State} {s : State} {i : Nat} {n : Nat}
    (hW : Within [.csr] ps) (hK : SameBut ps s0 s) :
    SameBut ps s0 (countWritten s i n) := by
  unfold countWritten
  repeat' (first | with_reducible assumption | with_reducible apply bumpStat_same hW)

theorem openRowAt_same {ps : List Part} {s0 : State} {s : State} {i : Nat} {ch : Nat} {bank : Nat} {row : Nat}
    (hW : Within [.stks] ps) (hK : SameBut ps s0 s) :
    SameBut ps s0 (openRowAt s i ch bank row) := by
  unfold openRowAt
  repeat' (first | with_reducible assumption | with_reducible apply setStk_same hW)

theorem lineDecode_same {ps : List Part} {s0 : State} {s : State} {l : Loc} {kind : Nat}
    (hW : Within [.csr, .evt, .stks, .fastMark] ps) (hK : SameBut ps s0 s) :
    SameBut ps s0 (lineDecode s l kind).1 := by
  have w1 : Within [.csr, .evt] ps := Within.trans (by decide +kernel) hW
  have w2 : Within [.csr] ps := Within.trans (by decide +kernel) hW
  have w3 : Within [.csr, .evt, .stks] ps := Within.trans (by decide +kernel) hW
  have w4 : Within [.stks] ps := Within.trans (by decide +kernel) hW
  have w5 : Within [.fastMark] ps := Within.trans (by decide +kernel) hW
  unfold lineDecode
  repeat' (first | with_reducible assumption | with_reducible apply raise_same w1
                  | with_reducible apply bumpOcc_same w1 | with_reducible apply stkCapture_same w2
                  | with_reducible apply rowCorrect_same w3 | with_reducible apply countRead_same w2
                  | with_reducible apply countWritten_same w2 | with_reducible apply openRowAt_same w4
                  | simp only [same_mk_fastMark w5] | split)

theorem lineRead_same {ps : List Part} {s0 : State} {s : State} {l : Loc} {n : Nat} {kind : Nat}
    (hW : Within [.csr, .evt, .stks, .fastMark] ps) (hK : SameBut ps s0 s) :
    SameBut ps s0 (lineRead s l n kind).s := by
  unfold lineRead
  repeat' (first | with_reducible assumption | with_reducible apply lineDecode_same hW
                  | with_reducible refine same_fst (by assumption) ?_ | split)

theorem lineWrite_same {ps : List Part} {s0 : State} {s : State} {l : Loc} {bs : Bytes}
    (hW : Within [.csr, .evt, .stks, .fast, .fastMark] ps) (hK : SameBut ps s0 s) :
    SameBut ps s0 (lineWrite s l bs).s := by
  have w1 : Within [.csr] ps := Within.trans (by decide +kernel) hW
  have w2 : Within [.stks] ps := Within.trans (by decide +kernel) hW
  have w3 : Within [.csr, .evt, .stks, .fastMark] ps := Within.trans (by decide +kernel) hW
  have w4 : Within [.fast] ps := Within.trans (by decide +kernel) hW
  have w6 : Within [.fast, .fastMark] ps := Within.trans (by decide +kernel) hW
  unfold lineWrite
  repeat' (first | with_reducible assumption | with_reducible apply countWritten_same w1
                  | with_reducible apply openRowAt_same w2 | with_reducible apply lineDecode_same w3
                  | simp only [same_mk_fast w4] | simp only [same_mk_fast_fastMark w6]
                  | with_reducible refine same_fst (by assumption) ?_ | split)

theorem granDecode_same {ps : List Part} {s0 : State} {s : State} {g : Nat} {kind : Nat}
    (hW : Within [.csr, .evt, .stks, .deepMark] ps) (hK : SameBut ps s0 s) :
    SameBut ps s0 (granDecode s g kind).1 := by
  have w1 : Within [.csr, .evt] ps := Within.trans (by decide +kernel) hW
  have w2 : Within [.csr] ps := Within.trans (by decide +kernel) hW
  have w3 : Within [.csr, .evt, .stks] ps := Within.trans (by decide +kernel) hW
  have w4 : Within [.stks] ps := Within.trans (by decide +kernel) hW
  have w5 : Within [.deepMark] ps := Within.trans (by decide +kernel) hW
  unfold granDecode
  repeat' (first | with_reducible assumption | with_reducible apply raise_same w1
                  | with_reducible apply bumpOcc_same w1 | with_reducible apply stkCapture_same w2
                  | with_reducible apply rowCorrect_same w3 | with_reducible apply countRead_same w2
                  | with_reducible apply countWritten_same w2 | with_reducible apply openRowAt_same w4
                  | simp only [same_mk_deepMark w5] | split)

theorem granRead_same {ps : List Part} {s0 : State} {s : State} {g : Nat}
    (hW : Within [.csr, .evt, .stks, .deepMark] ps) (hK : SameBut ps s0 s) :
    SameBut ps s0 (granRead s g).s := by
  unfold granRead
  repeat' (first | with_reducible assumption | with_reducible apply granDecode_same hW
                  | with_reducible refine same_fst (by assumption) ?_ | split)

theorem granWrite_same {ps : List Part} {s0 : State} {s : State} {g : Nat} {bs : Bytes}
    (hW : Within [.csr, .stks, .deep, .deepMark] ps) (hK : SameBut ps s0 s) :
    SameBut ps s0 (granWrite s g bs) := by
  have w1 : Within [.csr] ps := Within.trans (by decide +kernel) hW
  have w2 : Within [.stks] ps := Within.trans (by decide +kernel) hW
  have w3 : Within [.deep, .deepMark] ps := Within.trans (by decide +kernel) hW
  unfold granWrite
  repeat' (first | with_reducible assumption | with_reducible apply countWritten_same w1
                  | with_reducible apply openRowAt_same w2 | simp only [same_mk_deep_deepMark w3])

theorem gransRead_same {ps : List Part} {s0 : State} {s : State} {g : Nat} {e0 : Nat}
    (hW : Within [.csr, .evt, .stks, .deepMark] ps) (hK : SameBut ps s0 s) :
    SameBut ps s0 (gransRead s g e0).s := by
  revert hK
  fun_induction gransRead s g e0 <;> intro hK
  all_goals (repeat' (first | with_reducible assumption | split | dsimp only | dsimp +zetaDelta only))
  all_goals (try (apply_assumption; repeat' (first | with_reducible assumption | with_reducible apply granRead_same hW)))

theorem gransWrite_same {ps : List Part} {s0 : State} {s : State} {g : Nat} {e0 : Nat} {e1 : Bytes}
    (hW : Within [.csr, .stks, .deep, .deepMark] ps) (hK : SameBut ps s0 s) :
    SameBut ps s0 (gransWrite s g e0 e1) := by
  revert hK
  fun_induction gransWrite s g e0 e1 <;> intro hK
  all_goals (repeat' (with_reducible assumption))
  all_goals (try (apply_assumption; repeat' (first | with_reducible assumption | with_reducible apply granWrite_same hW)))

theorem frameReadAt_same {ps : List Part} {s0 : State} {s : State} {f : Frame} {kind : Nat} {e0 : List (Nat × Nat)}
    (hW : Within [.csr, .evt, .stks, .fastMark] ps) (hK : SameBut ps s0 s) : SameBut ps s0 (frameReadAt s f kind e0).s := by
  induction e0 generalizing s with
  | nil => exact hK
  | cons x xs ih =>
    unfold frameReadAt
    apply ih
    split
    · exact lineRead_same (Within.trans (by decide +kernel) hW) hK
    · exact hK

theorem frameRead_same {ps : List Part} {s0 : State} {s : State} {f : Frame} {o : Nat} {n : Nat}
    (hW : Within [.csr, .evt, .stks, .fastMark] ps) (hK : SameBut ps s0 s) :
    SameBut ps s0 (frameRead s f o n).s := by
  unfold frameRead
  repeat' (first | with_reducible assumption | with_reducible apply frameReadAt_same hW)

theorem frameReadNbu_same {ps : List Part} {s0 : State} {s : State} {f : Frame} {o : Nat} {n : Nat}
    (hW : Within [.csr, .evt, .stks, .fastMark] ps) (hK : SameBut ps s0 s) :
    SameBut ps s0 (frameReadNbu s f o n).s := by
  unfold frameReadNbu
  repeat' (first | with_reducible assumption | with_reducible apply frameReadAt_same hW)

theorem frameWriteAt_same {ps : List Part} {s0 : State} {s : State} {f : Frame} {e0 : List (Nat × Nat)} {e1 : Bytes}
    (hW : Within [.csr, .evt, .stks, .fast, .fastMark] ps) (hK : SameBut ps s0 s) : SameBut ps s0 (frameWriteAt s f e0 e1).s := by
  induction e0 generalizing s e1 with
  | nil => exact hK
  | cons x xs ih =>
    unfold frameWriteAt
    apply ih
    split
    · exact lineWrite_same (Within.trans (by decide +kernel) hW) hK
    · exact hK

theorem frameWrite_same {ps : List Part} {s0 : State} {s : State} {f : Frame} {o : Nat} {bs : Bytes}
    (hW : Within [.csr, .evt, .stks, .fast, .fastMark] ps) (hK : SameBut ps s0 s) :
    SameBut ps s0 (frameWrite s f o bs).s := by
  unfold frameWrite
  repeat' (first | with_reducible assumption | with_reducible apply frameWriteAt_same hW)

theorem stkAccept_same {ps : List Part} {s0 : State} {s : State} {i : Nat}
    (hW : Within [.stks] ps) (hK : SameBut ps s0 s) :
    SameBut ps s0 (stkAccept s i) := by
  unfold stkAccept
  repeat' (first | with_reducible assumption | with_reducible apply setStk_same hW | extract_lets | split)

theorem answer_same {ps : List Part} {s0 : State} {s : State} {who : Nat} {st : Nat} {data : Bytes}
    (hW : Within [.answers] ps) (hK : SameBut ps s0 s) :
    SameBut ps s0 (answer s who st data) := by
  unfold answer
  repeat' (first | with_reducible assumption | simp only [same_mk_answers hW])

theorem execFastLineRequest_same {ps : List Part} {s0 : State} {f : Fin 12} {r : LineReq} {s : State}
    (hW : Within [.answers, .stks] ps) (hK : SameBut ps s0 s) :
    OutSame ps s0 (execFastLineRequest f r s) := by
  have w1 : Within [.stks] ps := Within.trans (by decide +kernel) hW
  have w2 : Within [.answers] ps := Within.trans (by decide +kernel) hW
  unfold execFastLineRequest
  repeat' (first | with_reducible assumption | with_reducible apply setStk_same w1
                  | with_reducible apply stkAccept_same w1 | with_reducible apply outSame_next
                  | simp only [same_mk_answers w2] | split)

theorem lineServe_same {ps : List Part} {s0 : State} {s : State} {i : Nat} {r : LineReq}
    (hW : Within [.csr, .evt, .answers, .stks, .fast, .fastMark] ps) (hK : SameBut ps s0 s) :
    SameBut ps s0 (lineServe s i r) := by
  have w1 : Within [.csr, .evt, .stks, .fastMark] ps := Within.trans (by decide +kernel) hW
  have w2 : Within [.csr, .evt, .stks, .fast, .fastMark] ps := Within.trans (by decide +kernel) hW
  have w3 : Within [.answers] ps := Within.trans (by decide +kernel) hW
  unfold lineServe
  repeat' (first | with_reducible assumption | with_reducible apply lineRead_same w1
                  | with_reducible apply lineWrite_same w2 | with_reducible apply answer_same w3 | extract_lets
                  | split)

theorem strikeLine_same {ps : List Part} {s0 : State} {s : State} {key : Nat} {n : Nat}
    (hW : Within [.fastMark] ps) (hK : SameBut ps s0 s) :
    SameBut ps s0 (strikeLine s key n) := by
  unfold strikeLine
  repeat' (first | with_reducible assumption | simp only [same_mk_fastMark hW])

theorem strikeGran_same {ps : List Part} {s0 : State} {s : State} {g : Nat} {n : Nat}
    (hW : Within [.deepMark] ps) (hK : SameBut ps s0 s) :
    SameBut ps s0 (strikeGran s g n) := by
  unfold strikeGran
  repeat' (first | with_reducible assumption | simp only [same_mk_deepMark hW])

theorem execFastAccessDone_same {ps : List Part} {s0 : State} {f : Fin 12} {n : Nat} {symErrors : Nat} {onDie : Nat}
    {s : State}
    (hW : Within [.csr, .evt, .answers, .stks, .fast, .fastMark] ps) (hK : SameBut ps s0 s) :
    OutSame ps s0 (execFastAccessDone f n symErrors onDie s) := by
  have w1 : Within [.csr, .evt] ps := Within.trans (by decide +kernel) hW
  have w2 : Within [.stks] ps := Within.trans (by decide +kernel) hW
  have w3 : Within [.fastMark] ps := Within.trans (by decide +kernel) hW
  have w4 : Within [.answers] ps := Within.trans (by decide +kernel) hW
  unfold execFastAccessDone
  repeat' (first | with_reducible assumption | with_reducible apply bumpOcc_same w1
                  | with_reducible apply setStk_same w2 | with_reducible apply lineServe_same hW
                  | with_reducible apply strikeLine_same w3 | with_reducible apply outSame_next
                  | simp only [same_mk_answers w4] | split)

theorem execDeepGranuleRequest_same {ps : List Part} {s0 : State} {d : Fin 8} {r : GranReq} {s : State}
    (hW : Within [.answers, .stks] ps) (hK : SameBut ps s0 s) :
    OutSame ps s0 (execDeepGranuleRequest d r s) := by
  have w1 : Within [.stks] ps := Within.trans (by decide +kernel) hW
  have w2 : Within [.answers] ps := Within.trans (by decide +kernel) hW
  unfold execDeepGranuleRequest
  repeat' (first | with_reducible assumption | with_reducible apply setStk_same w1
                  | with_reducible apply stkAccept_same w1 | with_reducible apply answer_same w2
                  | with_reducible apply outSame_next | simp only [same_mk_answers w2] | split)

theorem granServe_same {ps : List Part} {s0 : State} {s : State} {r : GranReq}
    (hW : Within [.csr, .evt, .answers, .stks, .deep, .deepMark] ps) (hK : SameBut ps s0 s) :
    SameBut ps s0 (granServe s r) := by
  have w1 : Within [.csr, .evt, .stks, .deepMark] ps := Within.trans (by decide +kernel) hW
  have w2 : Within [.csr, .stks, .deep, .deepMark] ps := Within.trans (by decide +kernel) hW
  have w3 : Within [.answers] ps := Within.trans (by decide +kernel) hW
  unfold granServe
  repeat' (first | with_reducible assumption | with_reducible apply gransRead_same w1
                  | with_reducible apply gransWrite_same w2 | with_reducible apply answer_same w3 | extract_lets
                  | split)

theorem dropGran_same {ps : List Part} {s0 : State} {s : State} {i : Nat} {n : Nat}
    (hW : Within [.stks] ps) (hK : SameBut ps s0 s) :
    SameBut ps s0 (dropGran s i n) := by
  unfold dropGran
  repeat' (first | with_reducible assumption | with_reducible apply setStk_same hW
                  | with_reducible apply stkAccept_same hW)

theorem execDeepAccessDone_same {ps : List Part} {s0 : State} {d : Fin 8} {n : Nat} {symErrors : List Nat}
    {onDie : Nat} {s : State}
    (hW : Within [.csr, .evt, .answers, .stks, .deep, .deepMark] ps) (hK : SameBut ps s0 s) :
    OutSame ps s0 (execDeepAccessDone d n symErrors onDie s) := by
  have w1 : Within [.csr, .evt] ps := Within.trans (by decide +kernel) hW
  have w2 : Within [.deepMark] ps := Within.trans (by decide +kernel) hW
  have w3 : Within [.stks] ps := Within.trans (by decide +kernel) hW
  have w4 : Within [.answers] ps := Within.trans (by decide +kernel) hW
  unfold execDeepAccessDone
  repeat' (first | with_reducible assumption | with_reducible apply bumpOcc_same w1
                  | with_reducible apply strikeGran_same w2 | with_reducible apply granServe_same hW
                  | with_reducible apply dropGran_same w3 | with_reducible apply outSame_next
                  | simp only [same_mk_answers w4] | (with_reducible apply same_foldl; (try intros)) | split)

theorem execRefreshInterval_same {ps : List Part} {s0 : State} {i : Fin 20} {channel : Nat} {bank : Nat} {s : State}
    (hW : Within [.csr, .evt, .stks] ps) (hK : SameBut ps s0 s) :
    OutSame ps s0 (execRefreshInterval i channel bank s) := by
  have w1 : Within [.csr, .evt] ps := Within.trans (by decide +kernel) hW
  have w2 : Within [.stks] ps := Within.trans (by decide +kernel) hW
  unfold execRefreshInterval
  repeat' (first | with_reducible assumption | with_reducible apply bumpOcc_same w1
                  | with_reducible apply setStk_same w2 | with_reducible apply outSame_next | extract_lets | split)

theorem execBankRefresh_same {ps : List Part} {s0 : State} {i : Fin 20} {channel : Nat} {bank : Nat} {s : State}
    (hW : Within [.stks] ps) (hK : SameBut ps s0 s) :
    OutSame ps s0 (execBankRefresh i channel bank s) := by
  unfold execBankRefresh
  repeat' (first | with_reducible assumption | with_reducible apply setStk_same hW
                  | with_reducible apply outSame_next | extract_lets | split)

theorem execStackTempSample_same {ps : List Part} {s0 : State} {i : Fin 20} {celsius : Byte} {s : State}
    (hW : Within [.csr, .evt] ps) (hK : SameBut ps s0 s) :
    OutSame ps s0 (execStackTempSample i celsius s) := by
  have w1 : Within [.csr] ps := Within.trans (by decide +kernel) hW
  unfold execStackTempSample
  repeat' (first | with_reducible assumption | with_reducible apply wr_same w1
                  | with_reducible apply setFlag_same w1 | with_reducible apply raise_same hW
                  | with_reducible apply outSame_next | extract_lets | split)

theorem scrubReads_same {ps : List Part} {s0 : State} {s : State} {i : Nat} {idx : Nat} {syms : List (Nat × Nat)}
    (hW : Within [.csr, .evt, .stks, .fastMark, .deepMark] ps) (hK : SameBut ps s0 s) :
    SameBut ps s0 (scrubReads s i idx syms) := by
  have w1 : Within [.csr, .evt, .stks, .fastMark] ps := Within.trans (by decide +kernel) hW
  have w2 : Within [.csr, .evt, .stks, .deepMark] ps := Within.trans (by decide +kernel) hW
  have w3 : Within [.fastMark] ps := Within.trans (by decide +kernel) hW
  have w4 : Within [.deepMark] ps := Within.trans (by decide +kernel) hW
  unfold scrubReads
  repeat' (first | with_reducible assumption | with_reducible apply lineDecode_same w1
                  | with_reducible apply granDecode_same w2 | with_reducible apply strikeLine_same w3
                  | with_reducible apply strikeGran_same w4 | (with_reducible apply same_foldl; (try intros))
                  | split)

theorem execScrubStep_same {ps : List Part} {s0 : State} {i : Fin 20} {symErrors : List (Nat × Nat)} {onDie : Nat}
    {s : State}
    (hW : Within [.csr, .evt, .stks, .fastMark, .deepMark] ps) (hK : SameBut ps s0 s) :
    OutSame ps s0 (execScrubStep i symErrors onDie s) := by
  have w1 : Within [.csr] ps := Within.trans (by decide +kernel) hW
  have w2 : Within [.csr, .evt] ps := Within.trans (by decide +kernel) hW
  unfold execScrubStep
  repeat' (first | with_reducible assumption | with_reducible apply wr_same w1 | with_reducible apply raise_same w2
                  | with_reducible apply bumpOcc_same w2 | with_reducible apply scrubReads_same hW
                  | with_reducible apply outSame_next | extract_lets | split)

theorem rowlogClrEff_same {ps : List Part} {s0 : State} {s : State} {i : Nat}
    (hW : Within [.stks] ps) (hK : SameBut ps s0 s) :
    SameBut ps s0 (rowlogClrEff s i) := by
  unfold rowlogClrEff
  repeat' (first | with_reducible assumption | with_reducible apply setStk_same hW)

theorem errClearEff_same {ps : List Part} {s0 : State} {s : State} {i : Nat}
    (hW : Within [.csr] ps) (hK : SameBut ps s0 s) :
    SameBut ps s0 (errClearEff s i) := by
  unfold errClearEff
  repeat' (first | with_reducible assumption | with_reducible apply setFld_same hW
                  | with_reducible apply setFlag_same hW)

theorem execStackInitDone_same {ps : List Part} {s0 : State} {i : Fin 20} {s : State}
    (hW : Within [.csr, .evt, .stks] ps) (hK : SameBut ps s0 s) :
    OutSame ps s0 (execStackInitDone i s) := by
  have w1 : Within [.csr] ps := Within.trans (by decide +kernel) hW
  have w2 : Within [.csr, .evt] ps := Within.trans (by decide +kernel) hW
  have w3 : Within [.stks] ps := Within.trans (by decide +kernel) hW
  unfold execStackInitDone
  repeat' (first | with_reducible assumption | with_reducible apply setFlag_same w1
                  | with_reducible apply raise_same w2 | with_reducible apply setStk_same w3
                  | with_reducible apply stkAccept_same w3 | with_reducible apply outSame_next | extract_lets
                  | split)

theorem execControllerReady_same {ps : List Part} {s0 : State} {i : Fin 20} {s : State}
    (hW : Within [.csr, .stks] ps) (hK : SameBut ps s0 s) :
    OutSame ps s0 (execControllerReady i s) := by
  have w1 : Within [.csr] ps := Within.trans (by decide +kernel) hW
  have w2 : Within [.stks] ps := Within.trans (by decide +kernel) hW
  unfold execControllerReady
  repeat' (first | with_reducible assumption | with_reducible apply setFlag_same w1
                  | with_reducible apply stkAccept_same w2 | with_reducible apply outSame_next | extract_lets
                  | split)

theorem stkSelfRefresh_same {ps : List Part} {s0 : State} {s : State} {i : Nat}
    (hW : Within [.csr, .stks] ps) (hK : SameBut ps s0 s) :
    SameBut ps s0 (stkSelfRefresh s i) := by
  have w1 : Within [.csr] ps := Within.trans (by decide +kernel) hW
  have w2 : Within [.stks] ps := Within.trans (by decide +kernel) hW
  unfold stkSelfRefresh
  repeat' (first | with_reducible assumption | with_reducible apply setFlag_same w1
                  | with_reducible apply setStk_same w2 | extract_lets | split)

theorem stkWake_same {ps : List Part} {s0 : State} {s : State} {i : Nat}
    (hW : Within [.csr, .stks] ps) (hK : SameBut ps s0 s) :
    SameBut ps s0 (stkWake s i) := by
  have w1 : Within [.csr] ps := Within.trans (by decide +kernel) hW
  have w2 : Within [.stks] ps := Within.trans (by decide +kernel) hW
  unfold stkWake
  repeat' (first | with_reducible assumption | with_reducible apply setFlag_same w1
                  | with_reducible apply setStk_same w2 | with_reducible apply stkAccept_same w2 | extract_lets
                  | split)

theorem execSelfRefreshExit_same {ps : List Part} {s0 : State} {i : Fin 20} {s : State}
    (hW : Within [.csr, .stks] ps) (hK : SameBut ps s0 s) :
    OutSame ps s0 (execSelfRefreshExit i s) := by
  unfold execSelfRefreshExit
  repeat' (first | with_reducible assumption | with_reducible apply stkWake_same hW
                  | with_reducible apply outSame_next | split)

theorem stkReset_same {ps : List Part} {s0 : State} {s : State} {i : Nat} {cold : Bool}
    (hW : Within [.csr, .evt, .answers, .stks, .fast, .deep, .fastMark, .deepMark] ps) (hK : SameBut ps s0 s) :
    SameBut ps s0 (stkReset s i cold) := by
  have w1 : Within [.stks] ps := Within.trans (by decide +kernel) hW
  have w2 : Within [.answers] ps := Within.trans (by decide +kernel) hW
  have w3 : Within [.csr, .evt, .answers, .stks, .fast, .fastMark] ps := Within.trans (by decide +kernel) hW
  have w4 : Within [.csr, .evt, .answers, .stks, .deep, .deepMark] ps := Within.trans (by decide +kernel) hW
  have w5 : Within [.fast, .fastMark] ps := Within.trans (by decide +kernel) hW
  have w6 : Within [.deep, .deepMark] ps := Within.trans (by decide +kernel) hW
  unfold stkReset
  repeat' (first | with_reducible assumption | with_reducible apply setStk_same w1
                  | with_reducible apply answer_same w2 | with_reducible apply lineServe_same w3
                  | with_reducible apply granServe_same w4 | simp only [same_mk_fast_fastMark w5]
                  | simp only [same_mk_deep_deepMark w6] | (with_reducible apply same_foldl; (try intros)) | split)

end Sys2Proof.Machine
end

