-- ==== Sys2Proof/Laws/FramePlace.lean ====
section
/-! SUPPORT. What the functions of Machine/Place.lean leave unchanged (see Laws/Frame.lean). -/

set_option Elab.async false -- many small kernel checks: one thread does them
set_option linter.unusedSimpArgs false
set_option simprocs false -- no numeral of a goal is evaluated in these proofs

namespace Sys2Proof.Machine

theorem setEnt_same {ps : List Part} {s0 : State} {s : State} {p : Nat} {e : Ent}
    (hW : Within [.pages] ps) (hK : SameBut ps s0 s) :
    SameBut ps s0 (setEnt s p e) := by
  unfold setEnt
  repeat' (first | with_reducible assumption | simp only [same_mk_pages hW])

theorem putSet_same {ps : List Part} {s0 : State} {s : State} {p : Nat} {l : List (Nat × Nat × Nat)}
    (hW : Within [.pageCache] ps) (hK : SameBut ps s0 s) :
    SameBut ps s0 (putSet s p l) := by
  unfold putSet
  repeat' (first | with_reducible assumption | simp only [same_mk_pageCache hW])

theorem heatToRegion_same {ps : List Part} {s0 : State} {s : State} {w : Nat × Nat × Nat}
    (hW : Within [.pages] ps) (hK : SameBut ps s0 s) :
    SameBut ps s0 (heatToRegion s w) := by
  unfold heatToRegion
  repeat' (first | with_reducible assumption | with_reducible apply setEnt_same hW | extract_lets | split)

theorem touchCache_same {ps : List Part} {s0 : State} {s : State} {p : Nat}
    (hW : Within [.csr, .pages, .pageCache] ps) (hK : SameBut ps s0 s) :
    SameBut ps s0 (touchCache s p) := by
  have w1 : Within [.csr] ps := Within.trans (by decide +kernel) hW
  have w2 : Within [.pageCache] ps := Within.trans (by decide +kernel) hW
  have w3 : Within [.pages] ps := Within.trans (by decide +kernel) hW
  unfold touchCache
  repeat' (first | with_reducible assumption | with_reducible apply bumpStat_same w1
                  | with_reducible apply putSet_same w2 | with_reducible apply heatToRegion_same w3 | extract_lets
                  | split)

theorem setHeat_same {ps : List Part} {s0 : State} {s : State} {p : Nat} {h : Nat} {ep : Nat}
    (hW : Within [.pages, .pageCache] ps) (hK : SameBut ps s0 s) :
    SameBut ps s0 (setHeat s p h ep) := by
  have w1 : Within [.pageCache] ps := Within.trans (by decide +kernel) hW
  have w2 : Within [.pages] ps := Within.trans (by decide +kernel) hW
  unfold setHeat
  repeat' (first | with_reducible assumption | with_reducible apply putSet_same w1
                  | with_reducible apply heatToRegion_same w2 | split)

theorem touchHeat_same {ps : List Part} {s0 : State} {s : State} {p : Nat} {n : Nat}
    (hW : Within [.pages, .pageCache] ps) (hK : SameBut ps s0 s) :
    SameBut ps s0 (touchHeat s p n) := by
  unfold touchHeat
  repeat' (first | with_reducible assumption | with_reducible apply setHeat_same hW)

theorem setFrameCode_same {ps : List Part} {s0 : State} {s : State} {d : Nat} {f : Nat} {c : Nat}
    (hW : Within [.frameMap] ps) (hK : SameBut ps s0 s) :
    SameBut ps s0 (setFrameCode s d f c) := by
  unfold setFrameCode
  repeat' (first | with_reducible assumption | simp only [same_mk_frameMap hW])

theorem allocFrame_same {ps : List Part} {s0 s : State} {d : Nat} (hW : Within [.frameMap, .frameCur] ps)
    (hK : SameBut ps s0 s) :
    ∀ r, allocFrame s d = some r → SameBut ps s0 r.1 := by
  intro r hr
  unfold allocFrame at hr
  split at hr
  · cases hr
  · cases hr
    rw [same_mk_frameCur (Within.trans (by decide +kernel) hW)]
    exact setFrameCode_same (Within.trans (by decide +kernel) hW) hK

theorem giveFrame_same {ps : List Part} {s0 : State} {s : State} {e : Ent} {c : Nat}
    (hW : Within [.frameMap] ps) (hK : SameBut ps s0 s) :
    SameBut ps s0 (giveFrame s e c) := by
  unfold giveFrame
  repeat' (first | with_reducible assumption | with_reducible apply setFrameCode_same hW)

theorem markBlocks_same {ps : List Part} {s0 : State} {s : State} {d : Nat} {b : Nat} {n : Nat} {used : Bool}
    (hW : Within [.blocks] ps) (hK : SameBut ps s0 s) :
    SameBut ps s0 (markBlocks s d b n used) := by
  unfold markBlocks
  repeat' (first | with_reducible assumption | simp only [same_mk_blocks hW])

theorem allocRun_same {ps : List Part} {s0 s : State} {len : Nat} {e0 : List Nat}
    (hW : Within [.blocks, .blockCur] ps) (hK : SameBut ps s0 s) :
    ∀ r, allocRun s len e0 = some r → SameBut ps s0 r.1 := by
  intro r hr
  induction e0 with
  | nil => cases hr
  | cons d ds ih =>
    unfold allocRun at hr
    split at hr
    · exact ih hr
    · cases hr
      rw [same_mk_blockCur (Within.trans (by decide +kernel) hW)]
      exact markBlocks_same (Within.trans (by decide +kernel) hW) hK

theorem allocExtent_same {ps : List Part} {s0 s : State} {n : Nat} (hW : Within [.blocks, .blockCur] ps)
    (hK : SameBut ps s0 s) :
    ∀ r, allocExtent s n = some r → SameBut ps s0 r.1 :=
  allocRun_same hW hK

theorem freeExtent_same {ps : List Part} {s0 : State} {s : State} {dga : Nat} {len : Nat}
    (hW : Within [.blocks] ps) (hK : SameBut ps s0 s) :
    SameBut ps s0 (freeExtent s dga len) := by
  unfold freeExtent
  repeat' (first | with_reducible assumption | with_reducible apply markBlocks_same hW)

theorem deepFull_same {ps : List Part} {s0 : State} {s : State} {p : Nat} {n : Nat}
    (hW : Within [.csr, .evt] ps) (hK : SameBut ps s0 s) :
    SameBut ps s0 (deepFull s p n) := by
  unfold deepFull
  repeat' (first | with_reducible assumption | with_reducible apply raise_same hW)

theorem readMap_same {ps : List Part} {s0 : State} {s : State} {p : Nat} {e : Ent}
    (hW : Within [.csr, .evt, .stks, .deepMark] ps) (hK : SameBut ps s0 s) :
    SameBut ps s0 (readMap s p e).1.s := by
  unfold readMap
  repeat' (first | with_reducible assumption | with_reducible apply granRead_same hW | extract_lets | split)

theorem deepSector_same {ps : List Part} {s0 : State} {s : State} {p : Nat} {e : Ent} {k : Nat}
    (hW : Within [.csr, .evt, .stks, .deepMark] ps) (hK : SameBut ps s0 s) :
    SameBut ps s0 (deepSector s p e k).s := by
  unfold deepSector
  repeat' (first | with_reducible assumption | with_reducible apply gransRead_same hW
                  | with_reducible apply readMap_same hW | extract_lets | split | dsimp only
                  | with_reducible refine same_fstH (by assumption) ?_)

end Sys2Proof.Machine
end

