-- ==== Sys2Proof/Laws/FramePlaceMig.lean ====
section
/-! SUPPORT. What the functions of Machine/PlaceMig.lean leave unchanged (see Laws/Frame.lean). -/

set_option Elab.async false -- many small kernel checks: one thread does them
set_option linter.unusedSimpArgs false
set_option simprocs false -- no numeral of a goal is evaluated in these proofs

namespace Sys2Proof.Machine

theorem setSlot_same {ps : List Part} {s0 : State} {s : State} {i : Nat} {m : Option Mig}
    (hW : Within [.slots] ps) (hK : SameBut ps s0 s) :
    SameBut ps s0 (setSlot s i m) := by
  unfold setSlot
  repeat' (first | with_reducible assumption | simp only [same_mk_slots hW])

theorem raiseClass_same {ps : List Part} {s0 : State} {s : State} {p : Nat} {c : Nat}
    (hW : Within [.slots, .migq] ps) (hK : SameBut ps s0 s) :
    SameBut ps s0 (raiseClass s p c) := by
  unfold raiseClass
  repeat' (first | with_reducible assumption | simp only [same_mk_slots_migq hW])

theorem queueMig_same {ps : List Part} {s0 : State} {s : State} {p : Nat} {dir : MigDir} {c : Nat}
    {eph : List (Nat × Nat)}
    (hW : Within [.slots, .migq] ps) (hK : SameBut ps s0 s) :
    SameBut ps s0 (queueMig s p dir c eph) := by
  unfold queueMig
  repeat' (first | with_reducible assumption | simp only [same_mk_slots_migq hW] | split)

theorem endStalled_same {ps : List Part} {s0 : State} {s : State} {p : Nat} {st : Nat}
    (hW : Within [.answers, .stalled, .stallFail] ps) (hK : SameBut ps s0 s) :
    SameBut ps s0 (endStalled s p st) := by
  have w1 : Within [.answers] ps := Within.trans (by decide +kernel) hW
  have w2 : Within [.stallFail] ps := Within.trans (by decide +kernel) hW
  have w3 : Within [.stalled] ps := Within.trans (by decide +kernel) hW
  unfold endStalled
  repeat' (first | with_reducible assumption | with_reducible apply answer_same w1
                  | simp only [same_mk_stallFail w2] | simp only [same_mk_stalled w3]
                  | (with_reducible apply same_foldl; (try intros)) | extract_lets | split)

theorem homeFast_same {ps : List Part} {s0 : State} {s : State} {p : Nat}
    (hW : Within [.pages, .blocks] ps) (hK : SameBut ps s0 s) :
    SameBut ps s0 (homeFast s p) := by
  have w1 : Within [.pages] ps := Within.trans (by decide +kernel) hW
  have w2 : Within [.blocks] ps := Within.trans (by decide +kernel) hW
  unfold homeFast
  repeat' (first | with_reducible assumption | with_reducible apply setEnt_same w1
                  | with_reducible apply freeExtent_same w2 | extract_lets | split)

theorem notifyCh_same {ps : List Part} {s0 : State} {p : Nat} {dir : MigDir} {st : Nat} {s : State} {ch : Nat}
    (hW : Within [.pages, .blocks, .plcCh] ps) (hK : SameBut ps s0 s) :
    SameBut ps s0 (notifyCh p dir st s ch) := by
  have w1 : Within [.pages, .blocks] ps := Within.trans (by decide +kernel) hW
  have w2 : Within [.plcCh] ps := Within.trans (by decide +kernel) hW
  unfold notifyCh
  repeat' (first | with_reducible assumption | with_reducible apply homeFast_same w1 | simp only [same_mk_plcCh w2]
                  | split)

theorem notifyEph_same {ps : List Part} {s0 : State} {s : State} {p : Nat} {st : Nat}
    (hW : Within [.pages, .plans] ps) (hK : SameBut ps s0 s) :
    SameBut ps s0 (notifyEph s p st) := by
  have w1 : Within [.plans] ps := Within.trans (by decide +kernel) hW
  unfold notifyEph
  repeat' (first | with_reducible assumption | simp only [same_mk_plans w1])

theorem notify_same {ps : List Part} {s0 : State} {s : State} {p : Nat} {dir : MigDir} {st : Nat}
    (hW : Within [.pages, .blocks, .plcCh, .plans] ps) (hK : SameBut ps s0 s) :
    SameBut ps s0 (notify s p dir st) := by
  have w1 : Within [.pages, .blocks, .plcCh] ps := Within.trans (by decide +kernel) hW
  have w2 : Within [.pages, .plans] ps := Within.trans (by decide +kernel) hW
  unfold notify
  repeat' (first | with_reducible assumption | with_reducible apply notifyCh_same w1
                  | with_reducible apply notifyEph_same w2 | (with_reducible apply same_foldl; (try intros))
                  | extract_lets | split)

theorem revertMig_same {ps : List Part} {s0 : State} {s : State} {m : Mig}
    (hW : Within [.pages, .frameMap] ps) (hK : SameBut ps s0 s) :
    SameBut ps s0 (revertMig s m) := by
  have w1 : Within [.pages] ps := Within.trans (by decide +kernel) hW
  have w2 : Within [.frameMap] ps := Within.trans (by decide +kernel) hW
  unfold revertMig
  repeat' (first | with_reducible assumption | with_reducible apply setEnt_same w1
                  | with_reducible apply giveFrame_same w2 | extract_lets | split)

theorem abandonMig_same {ps : List Part} {s0 : State} {s : State} {i : Nat} {m : Mig} {st : Nat}
    (hW : Within [.answers, .pages, .frameMap, .blocks, .slots, .stalled, .stallFail, .plcCh, .plans] ps) (hK : SameBut ps s0 s) :
    SameBut ps s0 (abandonMig s i m st) := by
  have w1 : Within [.slots] ps := Within.trans (by decide +kernel) hW
  have w2 : Within [.answers, .stalled, .stallFail] ps := Within.trans (by decide +kernel) hW
  have w3 : Within [.pages, .blocks, .plcCh, .plans] ps := Within.trans (by decide +kernel) hW
  have w4 : Within [.pages, .frameMap] ps := Within.trans (by decide +kernel) hW
  unfold abandonMig
  repeat' (first | with_reducible assumption | with_reducible apply setSlot_same w1
                  | with_reducible apply endStalled_same w2 | with_reducible apply notify_same w3
                  | with_reducible apply revertMig_same w4 | extract_lets | split)

theorem stopDemotion_same {ps : List Part} {s0 : State} {s : State} {i : Nat} {m : Mig}
    (hW : Within [.pages, .slots, .migq] ps) (hK : SameBut ps s0 s) :
    SameBut ps s0 (stopDemotion s i m) := by
  have w1 : Within [.pages] ps := Within.trans (by decide +kernel) hW
  have w2 : Within [.slots] ps := Within.trans (by decide +kernel) hW
  have w3 : Within [.slots, .migq] ps := Within.trans (by decide +kernel) hW
  unfold stopDemotion
  repeat' (first | with_reducible assumption | with_reducible apply setEnt_same w1
                  | with_reducible apply setSlot_same w2 | with_reducible apply queueMig_same w3 | extract_lets
                  | split)

theorem poisonPage_same {ps : List Part} {s0 : State} {s : State} {p : Nat} {st : Nat} {loc : Nat}
    (hW : Within [.csr, .evt, .answers, .pages, .frameMap, .blocks, .slots, .migq, .stalled, .stallFail, .plcCh, .plans] ps) (hK : SameBut ps s0 s) :
    SameBut ps s0 (poisonPage s p st loc) := by
  have w1 : Within [.csr, .evt] ps := Within.trans (by decide +kernel) hW
  have w2 : Within [.pages] ps := Within.trans (by decide +kernel) hW
  have w3 : Within [.frameMap] ps := Within.trans (by decide +kernel) hW
  have w4 : Within [.slots] ps := Within.trans (by decide +kernel) hW
  have w5 : Within [.answers, .stalled, .stallFail] ps := Within.trans (by decide +kernel) hW
  have w6 : Within [.pages, .blocks, .plcCh, .plans] ps := Within.trans (by decide +kernel) hW
  have w7 : Within [.migq] ps := Within.trans (by decide +kernel) hW
  unfold poisonPage
  repeat' (first | with_reducible assumption | with_reducible apply raise_same w1
                  | with_reducible apply bumpOcc_same w1 | with_reducible apply setEnt_same w2
                  | with_reducible apply giveFrame_same w3 | with_reducible apply setSlot_same w4
                  | with_reducible apply endStalled_same w5 | with_reducible apply notify_same w6
                  | simp only [same_mk_migq w7] | split)

theorem reportBad_same {ps : List Part} {s0 : State} {s : State} {p : Nat} {st : Nat} {loc : Nat}
    (hW : Within [.csr, .evt, .answers, .pages, .frameMap, .blocks, .slots, .migq, .stalled, .stallFail, .plcCh, .plans] ps) (hK : SameBut ps s0 s) :
    SameBut ps s0 (reportBad s p st loc) := by
  unfold reportBad
  repeat' (first | with_reducible assumption | with_reducible apply poisonPage_same hW | split)

theorem registerStall_same {ps : List Part} {s0 : State} {s : State} {key : Nat} {fresh : Bool}
    {req : Option LtaReq} {p : Nat} {secs : List Nat} {late : Bool}
    (hW : Within [.freeCtr, .csr, .evt, .stalled] ps) (hK : SameBut ps s0 s) :
    SameBut ps s0 (registerStall s key fresh req p secs late) := by
  have w1 : Within [.csr, .evt] ps := Within.trans (by decide +kernel) hW
  have w3 : Within [.stalled] ps := Within.trans (by decide +kernel) hW
  unfold registerStall
  repeat' (first | with_reducible assumption | with_reducible apply bumpOcc_same w1 | simp only [same_mk_stalled w3]
                  | split)

theorem pieceWaits_same {ps : List Part} {s0 : State} {s : State} {write : Bool} {q : Piece}
    (hW : Within [.pages, .slots, .migq] ps) (hK : SameBut ps s0 s) :
    SameBut ps s0 (pieceWaits s write q).1 := by
  have w1 : Within [.slots, .migq] ps := Within.trans (by decide +kernel) hW
  unfold pieceWaits
  repeat' (first | with_reducible assumption | with_reducible apply raiseClass_same w1
                  | with_reducible apply queueMig_same w1 | with_reducible apply stopDemotion_same hW | extract_lets
                  | split)

theorem firstWait_same {ps : List Part} {s0 : State} {s : State} {write : Bool} {e0 : List Piece}
    (hW : Within [.pages, .slots, .migq] ps) (hK : SameBut ps s0 s) :
    SameBut ps s0 (firstWait s write e0).1 := by
  revert hK
  fun_induction firstWait s write e0 <;> intro hK
  all_goals (repeat' (first | with_reducible assumption | with_reducible apply pieceWaits_same hW
                             | with_reducible refine same_fst (by assumption) ?_))
  all_goals (try (apply_assumption; repeat' (first | with_reducible assumption | with_reducible apply pieceWaits_same hW
                                                     | with_reducible refine same_fst (by assumption) ?_)))

theorem bypassRead_same {ps : List Part} {s0 : State} {s : State} {p : Nat} {e : Ent} {e0 : List Nat}
    (hW : Within [.csr, .evt, .stks, .deepMark] ps) (hK : SameBut ps s0 s) :
    SameBut ps s0 (bypassRead s p e e0).s := by
  have w1 : Within [.csr] ps := Within.trans (by decide +kernel) hW
  revert hK
  fun_induction bypassRead s p e e0 <;> intro hK
  all_goals (repeat' (first | with_reducible assumption | split | dsimp only | dsimp +zetaDelta only))
  all_goals (try (apply_assumption; repeat' (first | with_reducible assumption | with_reducible apply bumpStat_same w1
                                                     | with_reducible apply deepSector_same hW)))

theorem markDirty_same {ps : List Part} {s0 : State} {s : State} {p : Nat} {mask : Nat}
    (hW : Within [.pages] ps) (hK : SameBut ps s0 s) :
    SameBut ps s0 (markDirty s p mask) := by
  unfold markDirty
  repeat' (first | with_reducible assumption | with_reducible apply setEnt_same hW | extract_lets | split)

theorem admitHeat_same {ps : List Part} {s0 : State} {s : State} {q : Piece}
    (hW : Within [.pages, .pageCache, .slots, .migq] ps) (hK : SameBut ps s0 s) :
    SameBut ps s0 (admitHeat s q) := by
  have w1 : Within [.pages, .pageCache] ps := Within.trans (by decide +kernel) hW
  have w2 : Within [.slots, .migq] ps := Within.trans (by decide +kernel) hW
  unfold admitHeat
  repeat' (first | with_reducible assumption | with_reducible apply touchHeat_same w1
                  | with_reducible apply queueMig_same w2 | extract_lets | split)

theorem pieceServe_same {ps : List Part} {s0 : State} {s : State} {q : Piece} {wr? : Option Bytes}
    (hW : Within [.csr, .evt, .answers, .stks, .fast, .fastMark, .deepMark, .pages, .pageCache, .frameMap, .blocks, .slots, .migq, .stalled, .stallFail, .plcCh, .plans] ps) (hK : SameBut ps s0 s) :
    SameBut ps s0 (pieceServe s q wr?).s := by
  have w1 : Within [.csr] ps := Within.trans (by decide +kernel) hW
  have w2 : Within [.csr, .evt, .stks, .fastMark] ps := Within.trans (by decide +kernel) hW
  have w3 : Within [.csr, .evt, .stks, .fast, .fastMark] ps := Within.trans (by decide +kernel) hW
  have w4 : Within [.csr, .pages, .pageCache] ps := Within.trans (by decide +kernel) hW
  have w5 : Within [.csr, .evt, .answers, .pages, .frameMap, .blocks, .slots, .migq, .stalled, .stallFail, .plcCh, .plans] ps := Within.trans (by decide +kernel) hW
  have w6 : Within [.csr, .evt, .stks, .deepMark] ps := Within.trans (by decide +kernel) hW
  have w7 : Within [.pages] ps := Within.trans (by decide +kernel) hW
  have w8 : Within [.pages, .pageCache, .slots, .migq] ps := Within.trans (by decide +kernel) hW
  unfold pieceServe
  repeat' (first | with_reducible assumption | with_reducible apply bumpStat_same w1
                  | with_reducible apply frameRead_same w2 | with_reducible apply frameWrite_same w3
                  | with_reducible apply touchCache_same w4 | with_reducible apply reportBad_same w5
                  | with_reducible apply bypassRead_same w6 | with_reducible apply markDirty_same w7
                  | with_reducible apply admitHeat_same w8 | extract_lets | split)

theorem serveAll_same {ps : List Part} {s0 : State} {s : State} {e0 : List Piece} {e1 : Option Bytes}
    (hW : Within [.csr, .evt, .answers, .stks, .fast, .fastMark, .deepMark, .pages, .pageCache, .frameMap, .blocks, .slots, .migq, .stalled, .stallFail, .plcCh, .plans] ps) (hK : SameBut ps s0 s) :
    SameBut ps s0 (serveAll s e0 e1).s := by
  revert hK
  fun_induction serveAll s e0 e1 <;> intro hK
  all_goals (repeat' (first | with_reducible assumption | split | dsimp only | dsimp +zetaDelta only))
  all_goals (try (apply_assumption; repeat' (first | with_reducible assumption | with_reducible apply pieceServe_same hW)))

theorem ltaRun_same {ps : List Part} {s0 : State} {s : State} {key : Nat} {fresh : Bool} {req : Option LtaReq}
    {addr : Nat} {n : Nat} {w : Option Bytes}
    (hW : Within [.freeCtr, .csr, .evt, .answers, .stks, .fast, .fastMark, .deepMark, .pages, .pageCache, .frameMap, .blocks, .slots, .migq, .stalled, .stallFail, .plcCh, .plans] ps) (hK : SameBut ps s0 s) :
    SameBut ps s0 (ltaRun s key fresh req addr n w).1 := by
  have w2 : Within [.freeCtr, .csr, .evt, .stalled] ps := Within.trans (by decide +kernel) hW
  have w3 : Within [.pages, .slots, .migq] ps := Within.trans (by decide +kernel) hW
  have w4 : Within [.csr, .evt, .answers, .stks, .fast, .fastMark, .deepMark, .pages, .pageCache, .frameMap, .blocks, .slots, .migq, .stalled, .stallFail, .plcCh, .plans] ps := Within.trans (by decide +kernel) hW
  unfold ltaRun
  repeat' (first | with_reducible assumption | with_reducible apply registerStall_same w2
                  | with_reducible apply firstWait_same w3 | with_reducible apply serveAll_same w4
                  | with_reducible refine same_fst (by assumption) ?_ | split)

theorem engineLta_same {ps : List Part} {s0 : State} {s : State} {key : Nat} {addr : Nat} {n : Nat} {w : Option Bytes}
    (hW : Within [.freeCtr, .csr, .evt, .answers, .stks, .fast, .fastMark, .deepMark, .pages, .pageCache, .frameMap, .blocks, .slots, .migq, .stalled, .stallFail, .plcCh, .plans] ps) (hK : SameBut ps s0 s) :
    SameBut ps s0 (engineLta s key addr n w).1 := by
  have w1 : Within [.stallFail] ps := Within.trans (by decide +kernel) hW
  have w2 : Within [.stalled] ps := Within.trans (by decide +kernel) hW
  unfold engineLta
  repeat' (first | with_reducible assumption | with_reducible apply ltaRun_same hW
                  | simp only [same_mk_stallFail w1] | simp only [same_mk_stalled w2]
                  | with_reducible refine same_fst (by assumption) ?_ | split)

theorem ltaRead_same {ps : List Part} {s0 : State} {s : State} {key : Nat} {addr : Nat} {n : Nat}
    (hW : Within [.freeCtr, .csr, .evt, .answers, .stks, .fast, .fastMark, .deepMark, .pages, .pageCache, .frameMap, .blocks, .slots, .migq, .stalled, .stallFail, .plcCh, .plans] ps) (hK : SameBut ps s0 s) :
    SameBut ps s0 (ltaRead s key addr n).1 := by
  unfold ltaRead
  repeat' (first | with_reducible assumption | with_reducible apply engineLta_same hW)

theorem ltaWrite_same {ps : List Part} {s0 : State} {s : State} {key : Nat} {addr : Nat} {bs : Bytes}
    (hW : Within [.freeCtr, .csr, .evt, .answers, .stks, .fast, .fastMark, .deepMark, .pages, .pageCache, .frameMap, .blocks, .slots, .migq, .stalled, .stallFail, .plcCh, .plans] ps) (hK : SameBut ps s0 s) :
    SameBut ps s0 (ltaWrite s key addr bs).1 := by
  unfold ltaWrite
  repeat' (first | with_reducible assumption | with_reducible apply engineLta_same hW
                  | with_reducible refine same_fst (by assumption) ?_ | split)

theorem execLtaAccess_same {ps : List Part} {s0 : State} {r : LtaReq} {s : State}
    (hW : Within [.freeCtr, .csr, .evt, .answers, .stks, .fast, .fastMark, .deepMark, .pages, .pageCache, .frameMap, .blocks, .slots, .migq, .stalled, .stallFail, .plcCh, .plans] ps) (hK : SameBut ps s0 s) :
    OutSame ps s0 (execLtaAccess r s) := by
  have w1 : Within [.answers] ps := Within.trans (by decide +kernel) hW
  have w2 : Within [.fastMark] ps := Within.trans (by decide +kernel) hW
  have w3 : Within [.deepMark] ps := Within.trans (by decide +kernel) hW
  unfold execLtaAccess
  repeat' (first | with_reducible assumption | with_reducible apply answer_same w1
                  | with_reducible apply strikeLine_same w2 | with_reducible apply strikeGran_same w3
                  | with_reducible apply ltaRun_same hW | with_reducible apply outSame_next
                  | simp only [same_mk_answers w1] | with_reducible refine same_fst (by assumption) ?_
                  | (with_reducible apply same_foldl; (try intros)) | split)

theorem execStalledRequestResume_same {ps : List Part} {s0 : State} {n : Nat} {s : State}
    (hW : Within [.freeCtr, .csr, .evt, .answers, .stks, .fast, .fastMark, .deepMark, .pages, .pageCache, .frameMap, .blocks, .slots, .migq, .stalled, .stallFail, .plcCh, .plans] ps) (hK : SameBut ps s0 s) :
    OutSame ps s0 (execStalledRequestResume n s) := by
  have w1 : Within [.answers] ps := Within.trans (by decide +kernel) hW
  have w2 : Within [.stalled] ps := Within.trans (by decide +kernel) hW
  have w3 : Within [.answers, .stalled] ps := Within.trans (by decide +kernel) hW
  unfold execStalledRequestResume
  repeat' (first | with_reducible assumption | with_reducible apply answer_same w1
                  | with_reducible apply ltaRun_same hW | with_reducible apply outSame_next
                  | simp only [same_mk_answers w1] | simp only [same_mk_stalled w2]
                  | simp only [same_mk_answers_stalled w3] | with_reducible refine same_fst (by assumption) ?_
                  | split)

theorem settleMigs_same {ps : List Part} {s0 : State} {s : State}
    (hW : Within [.pages, .blocks, .migq, .plcCh, .plans] ps) (hK : SameBut ps s0 s) :
    SameBut ps s0 (settleMigs s) := by
  have w1 : Within [.pages, .blocks, .plcCh, .plans] ps := Within.trans (by decide +kernel) hW
  have w2 : Within [.migq] ps := Within.trans (by decide +kernel) hW
  unfold settleMigs
  repeat' (first | with_reducible assumption | with_reducible apply notify_same w1 | simp only [same_mk_migq w2]
                  | (with_reducible apply same_foldl; (try intros)))

theorem startMig_same {ps : List Part} {s0 : State} {s : State} {i : Nat} {m : Mig}
    (hW : Within [.csr, .pages, .pageCache, .frameMap, .frameCur, .slots, .migq] ps) (hK : SameBut ps s0 s) :
    SameBut ps s0 (startMig s i m) := by
  have w1 : Within [.pages] ps := Within.trans (by decide +kernel) hW
  have w2 : Within [.csr, .pages, .pageCache] ps := Within.trans (by decide +kernel) hW
  have w3 : Within [.frameMap, .frameCur] ps := Within.trans (by decide +kernel) hW
  have w4 : Within [.slots] ps := Within.trans (by decide +kernel) hW
  have w5 : Within [.migq] ps := Within.trans (by decide +kernel) hW
  unfold startMig
  repeat' (first | with_reducible assumption | with_reducible apply setEnt_same w1
                  | with_reducible apply touchCache_same w2 | with_reducible apply setSlot_same w4
                  | simp only [same_mk_migq w5] | extract_lets | split
                  | with_reducible refine same_some (allocFrame_same w3 ?_) (by assumption))

theorem execMigrationStart_same {ps : List Part} {s0 : State} {s : State}
    (hW : Within [.csr, .pages, .pageCache, .frameMap, .blocks, .frameCur, .slots, .migq, .plcCh, .plans] ps) (hK : SameBut ps s0 s) :
    OutSame ps s0 (execMigrationStart s) := by
  have w1 : Within [.pages, .blocks, .migq, .plcCh, .plans] ps := Within.trans (by decide +kernel) hW
  have w2 : Within [.csr, .pages, .pageCache, .frameMap, .frameCur, .slots, .migq] ps := Within.trans (by decide +kernel) hW
  unfold execMigrationStart
  repeat' (first | with_reducible assumption | with_reducible apply settleMigs_same w1
                  | with_reducible apply startMig_same w2 | with_reducible apply outSame_next | extract_lets | split)

theorem execFrameWaitExpire_same {ps : List Part} {s0 : State} {page : Nat} {s : State}
    (hW : Within [.csr, .evt, .answers, .pages, .blocks, .migq, .stalled, .stallFail, .plcCh, .plans] ps) (hK : SameBut ps s0 s) :
    OutSame ps s0 (execFrameWaitExpire page s) := by
  have w1 : Within [.csr, .evt] ps := Within.trans (by decide +kernel) hW
  have w2 : Within [.answers, .stalled, .stallFail] ps := Within.trans (by decide +kernel) hW
  have w3 : Within [.pages, .blocks, .plcCh, .plans] ps := Within.trans (by decide +kernel) hW
  have w4 : Within [.answers] ps := Within.trans (by decide +kernel) hW
  have w6 : Within [.answers, .migq] ps := Within.trans (by decide +kernel) hW
  unfold execFrameWaitExpire
  repeat' (first | with_reducible assumption | with_reducible apply raise_same w1
                  | with_reducible apply endStalled_same w2 | with_reducible apply notify_same w3
                  | with_reducible apply outSame_next | simp only [same_mk_answers w4]
                  | simp only [same_mk_answers_migq w6] | split)

theorem execPromotionSector_same {ps : List Part} {s0 : State} {slot : Fin 32} {s : State}
    (hW : Within [.csr, .evt, .answers, .stks, .fast, .fastMark, .deepMark, .pages, .frameMap, .blocks, .slots, .migq, .stalled, .stallFail, .plcCh, .plans] ps) (hK : SameBut ps s0 s) :
    OutSame ps s0 (execPromotionSector slot s) := by
  have w1 : Within [.csr] ps := Within.trans (by decide +kernel) hW
  have w2 : Within [.csr, .evt, .stks, .fast, .fastMark] ps := Within.trans (by decide +kernel) hW
  have w3 : Within [.pages] ps := Within.trans (by decide +kernel) hW
  have w4 : Within [.csr, .evt, .stks, .deepMark] ps := Within.trans (by decide +kernel) hW
  have w5 : Within [.slots] ps := Within.trans (by decide +kernel) hW
  have w6 : Within [.pages, .blocks, .plcCh, .plans] ps := Within.trans (by decide +kernel) hW
  have w7 : Within [.answers, .pages, .frameMap, .blocks, .slots, .stalled, .stallFail, .plcCh, .plans] ps := Within.trans (by decide +kernel) hW
  have w8 : Within [.csr, .evt, .answers, .pages, .frameMap, .blocks, .slots, .migq, .stalled, .stallFail, .plcCh, .plans] ps := Within.trans (by decide +kernel) hW
  have w9 : Within [.answers] ps := Within.trans (by decide +kernel) hW
  unfold execPromotionSector
  repeat' (first | with_reducible assumption | with_reducible apply bumpStat_same w1
                  | with_reducible apply frameWrite_same w2 | with_reducible apply setEnt_same w3
                  | with_reducible apply deepSector_same w4 | with_reducible apply setSlot_same w5
                  | with_reducible apply notify_same w6 | with_reducible apply abandonMig_same w7
                  | with_reducible apply poisonPage_same w8 | with_reducible apply outSame_next
                  | simp only [same_mk_answers w9] | split)

theorem frameSectors_same {ps : List Part} {s0 : State} {s : State} {f : Frame} {e0 : List Nat}
    (hW : Within [.csr, .evt, .stks, .fastMark] ps) (hK : SameBut ps s0 s) :
    SameBut ps s0 (frameSectors s f e0).1.s := by
  revert hK
  fun_induction frameSectors s f e0 <;> intro hK
  all_goals (repeat' (first | with_reducible assumption | extract_lets | split | dsimp only
                             | with_reducible refine same_fstH (by assumption) ?_ | dsimp +zetaDelta only))
  all_goals (try (apply_assumption; repeat' (first | with_reducible assumption | with_reducible apply frameRead_same hW)))

theorem relocateExtent_same {ps : List Part} {s0 : State} {s : State} {p : Nat}
    (hW : Within [.csr, .evt, .stks, .deep, .fastMark, .deepMark, .pages, .blocks, .blockCur] ps) (hK : SameBut ps s0 s) :
    SameBut ps s0 (relocateExtent s p).1 := by
  have w1 : Within [.csr] ps := Within.trans (by decide +kernel) hW
  have w2 : Within [.csr, .evt] ps := Within.trans (by decide +kernel) hW
  have w3 : Within [.csr, .stks, .deep, .deepMark] ps := Within.trans (by decide +kernel) hW
  have w4 : Within [.pages] ps := Within.trans (by decide +kernel) hW
  have w5 : Within [.blocks, .blockCur] ps := Within.trans (by decide +kernel) hW
  have w6 : Within [.blocks] ps := Within.trans (by decide +kernel) hW
  have w7 : Within [.csr, .evt, .stks, .fastMark] ps := Within.trans (by decide +kernel) hW
  unfold relocateExtent
  repeat' (first | with_reducible assumption | with_reducible apply bumpStat_same w1
                  | with_reducible apply bumpOcc_same w2 | with_reducible apply granWrite_same w3
                  | with_reducible apply gransWrite_same w3 | with_reducible apply setEnt_same w4
                  | with_reducible apply freeExtent_same w6 | with_reducible apply deepFull_same w2
                  | with_reducible apply frameSectors_same w7 | extract_lets | split | dsimp only
                  | with_reducible refine same_fstH (by assumption) ?_
                  | with_reducible refine same_some (allocExtent_same w5 ?_) (by assumption))

theorem writeBack_same {ps : List Part} {s0 : State} {s : State} {p : Nat} {k : Nat}
    (hW : Within [.csr, .evt, .stks, .deep, .fastMark, .deepMark, .pages, .blocks, .blockCur] ps) (hK : SameBut ps s0 s) :
    SameBut ps s0 (writeBack s p k).1 := by
  have w1 : Within [.csr] ps := Within.trans (by decide +kernel) hW
  have w2 : Within [.csr, .stks, .deep, .deepMark] ps := Within.trans (by decide +kernel) hW
  have w3 : Within [.csr, .evt, .stks, .fastMark] ps := Within.trans (by decide +kernel) hW
  have w4 : Within [.pages] ps := Within.trans (by decide +kernel) hW
  have w5 : Within [.csr, .evt, .stks, .deepMark] ps := Within.trans (by decide +kernel) hW
  unfold writeBack
  repeat' (first | with_reducible assumption | with_reducible apply bumpStat_same w1
                  | with_reducible apply granWrite_same w2 | with_reducible apply gransWrite_same w2
                  | with_reducible apply frameRead_same w3 | with_reducible apply setEnt_same w4
                  | with_reducible apply readMap_same w5 | with_reducible apply relocateExtent_same hW
                  | extract_lets | split | dsimp only | with_reducible refine same_fstH (by assumption) ?_)

theorem finishWriteback_same {ps : List Part} {s0 : State} {s : State} {slot : Nat} {m : Mig}
    (hW : Within [.csr, .pages, .frameMap, .blocks, .slots, .plcCh, .plans] ps) (hK : SameBut ps s0 s) :
    SameBut ps s0 (finishWriteback s slot m) := by
  have w1 : Within [.csr] ps := Within.trans (by decide +kernel) hW
  have w2 : Within [.pages] ps := Within.trans (by decide +kernel) hW
  have w3 : Within [.frameMap] ps := Within.trans (by decide +kernel) hW
  have w4 : Within [.slots] ps := Within.trans (by decide +kernel) hW
  have w5 : Within [.pages, .blocks, .plcCh, .plans] ps := Within.trans (by decide +kernel) hW
  unfold finishWriteback
  repeat' (first | with_reducible assumption | with_reducible apply bumpStat_same w1
                  | with_reducible apply setEnt_same w2 | with_reducible apply giveFrame_same w3
                  | with_reducible apply setSlot_same w4 | with_reducible apply notify_same w5 | extract_lets
                  | split | dsimp +zetaDelta only)

theorem execWritebackSector_same {ps : List Part} {s0 : State} {slot : Fin 32} {s : State}
    (hW : Within [.csr, .evt, .answers, .stks, .deep, .fastMark, .deepMark, .pages, .frameMap, .blocks, .blockCur, .slots, .migq, .stalled, .stallFail, .plcCh, .plans] ps) (hK : SameBut ps s0 s) :
    OutSame ps s0 (execWritebackSector slot s) := by
  have w1 : Within [.answers, .pages, .frameMap, .blocks, .slots, .stalled, .stallFail, .plcCh, .plans] ps := Within.trans (by decide +kernel) hW
  have w2 : Within [.csr, .evt, .answers, .pages, .frameMap, .blocks, .slots, .migq, .stalled, .stallFail, .plcCh, .plans] ps := Within.trans (by decide +kernel) hW
  have w3 : Within [.csr, .evt, .stks, .deep, .fastMark, .deepMark, .pages, .blocks, .blockCur] ps := Within.trans (by decide +kernel) hW
  have w4 : Within [.csr, .pages, .frameMap, .blocks, .slots, .plcCh, .plans] ps := Within.trans (by decide +kernel) hW
  have w5 : Within [.answers] ps := Within.trans (by decide +kernel) hW
  unfold execWritebackSector
  repeat' (first | with_reducible assumption | with_reducible apply abandonMig_same w1
                  | with_reducible apply poisonPage_same w2 | with_reducible apply writeBack_same w3
                  | with_reducible apply finishWriteback_same w4 | with_reducible apply outSame_next
                  | simp only [same_mk_answers w5] | with_reducible refine same_fst (by assumption) ?_ | split)

theorem timeoutUse_same {ps : List Part} {s0 : State} {s : State} {r : GranReq}
    (hW : Within [.csr, .evt, .answers, .pages, .frameMap, .blocks, .slots, .stalled, .stallFail, .plcCh, .plans] ps) (hK : SameBut ps s0 s) :
    SameBut ps s0 (timeoutUse s r) := by
  have w1 : Within [.csr, .evt] ps := Within.trans (by decide +kernel) hW
  have w2 : Within [.answers] ps := Within.trans (by decide +kernel) hW
  have w3 : Within [.answers, .pages, .frameMap, .blocks, .slots, .stalled, .stallFail, .plcCh, .plans] ps := Within.trans (by decide +kernel) hW
  have w4 : Within [.stalled, .stallFail] ps := Within.trans (by decide +kernel) hW
  unfold timeoutUse
  repeat' (first | with_reducible assumption | with_reducible apply raise_same w1
                  | with_reducible apply bumpOcc_same w1 | with_reducible apply answer_same w2
                  | with_reducible apply abandonMig_same w3 | simp only [same_mk_stalled_stallFail w4] | split)

theorem execDeepTierTimeout_same {ps : List Part} {s0 : State} {d : Fin 8} {n : Nat} {issued : Bool} {s : State}
    (hW : Within [.csr, .evt, .answers, .stks, .deep, .deepMark, .pages, .frameMap, .blocks, .slots, .stalled, .stallFail, .plcCh, .plans] ps) (hK : SameBut ps s0 s) :
    OutSame ps s0 (execDeepTierTimeout d n issued s) := by
  have w1 : Within [.csr, .evt] ps := Within.trans (by decide +kernel) hW
  have w2 : Within [.csr, .stks, .deep, .deepMark] ps := Within.trans (by decide +kernel) hW
  have w3 : Within [.stks] ps := Within.trans (by decide +kernel) hW
  have w4 : Within [.csr, .evt, .answers, .pages, .frameMap, .blocks, .slots, .stalled, .stallFail, .plcCh, .plans] ps := Within.trans (by decide +kernel) hW
  have w5 : Within [.answers] ps := Within.trans (by decide +kernel) hW
  unfold execDeepTierTimeout
  repeat' (first | with_reducible assumption | with_reducible apply bumpOcc_same w1
                  | with_reducible apply gransWrite_same w2 | with_reducible apply dropGran_same w3
                  | with_reducible apply timeoutUse_same w4 | with_reducible apply outSame_next
                  | simp only [same_mk_answers w5] | extract_lets | split)

theorem execEpochTick_same {ps : List Part} {s0 : State} {s : State}
    (hW : Within [.csr] ps) (hK : SameBut ps s0 s) :
    OutSame ps s0 (execEpochTick s) := by
  unfold execEpochTick
  repeat' (first | with_reducible assumption | with_reducible apply setFld_same hW
                  | with_reducible apply outSame_next | split)

theorem execSweepVisit_same {ps : List Part} {s0 : State} {die : Fin 2} {s : State}
    (hW : Within [.pages, .pageCache, .slots, .migq, .sweep] ps) (hK : SameBut ps s0 s) :
    OutSame ps s0 (execSweepVisit die s) := by
  have w1 : Within [.pages, .pageCache] ps := Within.trans (by decide +kernel) hW
  have w2 : Within [.slots, .migq] ps := Within.trans (by decide +kernel) hW
  have w3 : Within [.sweep] ps := Within.trans (by decide +kernel) hW
  unfold execSweepVisit
  repeat' (first | with_reducible assumption | with_reducible apply setHeat_same w1
                  | with_reducible apply queueMig_same w2 | with_reducible apply outSame_next
                  | simp only [same_mk_sweep w3] | split)

theorem execPagePoisonReport_same {ps : List Part} {s0 : State} {page : Nat} {status : Byte} {loc : W64} {s : State}
    (hW : Within [.csr, .evt, .answers, .pages, .frameMap, .blocks, .slots, .migq, .stalled, .stallFail, .plcCh, .plans] ps) (hK : SameBut ps s0 s) :
    OutSame ps s0 (execPagePoisonReport page status loc s) := by
  have w1 : Within [.answers] ps := Within.trans (by decide +kernel) hW
  unfold execPagePoisonReport
  repeat' (first | with_reducible assumption | with_reducible apply reportBad_same hW
                  | with_reducible apply outSame_next | simp only [same_mk_answers w1] | split)

theorem plcReset_same {ps : List Part} {s0 : State} {s : State} {cold : Bool}
    (hW : Within [.triggers, .ephResults, .answers, .pages, .pageCache, .holders, .frameMap, .blocks, .frameCur, .blockCur, .slots, .migq, .sweep, .stalled, .stallFail, .plcCh, .plans, .plcFits, .plcRestoring] ps) (hK : SameBut ps s0 s) :
    SameBut ps s0 (plcReset s cold) := by
  have w1 : Within [.answers] ps := Within.trans (by decide +kernel) hW
  have w2 : Within [.stallFail] ps := Within.trans (by decide +kernel) hW
  have w3 : Within [.triggers, .ephResults, .pageCache, .holders, .frameCur, .blockCur, .migq, .sweep, .stalled, .plcCh, .plans, .plcRestoring] ps := Within.trans (by decide +kernel) hW
  have w5 : Within [.triggers, .ephResults, .pages, .pageCache, .holders, .frameMap, .blocks, .frameCur, .blockCur, .slots, .migq, .sweep, .stalled, .plcCh, .plans, .plcFits, .plcRestoring] ps := Within.trans (by decide +kernel) hW
  unfold plcReset
  repeat' (first | with_reducible assumption | with_reducible apply answer_same w1
                  | simp only [same_mk_stallFail w2]
                  | simp only [same_mk_triggers_ephResults_pageCache_holders_frameCur_blockCur_migq_sweep_stalled_plcCh_plans_plcRestoring w3]
                  | simp only [same_mk_triggers_ephResults_pages_pageCache_holders_frameMap_blocks_frameCur_blockCur_slots_migq_sweep_stalled_plcCh_plans_plcFits_plcRestoring w5]
                  | (with_reducible apply same_foldl; (try intros)) | extract_lets | split)

theorem execPlcJournalReplay_same {ps : List Part} {s0 : State} {s : State}
    (hW : Within [.pages, .frameMap, .slots, .plcRestoring] ps) (hK : SameBut ps s0 s) :
    OutSame ps s0 (execPlcJournalReplay s) := by
  have w1 : Within [.slots] ps := Within.trans (by decide +kernel) hW
  have w2 : Within [.pages, .frameMap] ps := Within.trans (by decide +kernel) hW
  have w3 : Within [.plcRestoring] ps := Within.trans (by decide +kernel) hW
  unfold execPlcJournalReplay
  repeat' (first | with_reducible assumption | with_reducible apply setSlot_same w1
                  | with_reducible apply revertMig_same w2 | with_reducible apply outSame_next
                  | simp only [same_mk_plcRestoring w3] | (with_reducible apply same_foldl; (try intros)) | split)

end Sys2Proof.Machine
end

