-- ==== Sys2Proof/Laws/FramePlaceCmd.lean ====
section
/-! SUPPORT. What the functions of Machine/PlaceCmd.lean leave unchanged (see Laws/Frame.lean). -/

set_option Elab.async false -- many small kernel checks: one thread does them
set_option linter.unusedSimpArgs false
set_option simprocs false -- no numeral of a goal is evaluated in these proofs

namespace Sys2Proof.Machine

theorem dropMigs_same {ps : List Part} {s0 : State} {s : State} {p : Nat}
    (hW : Within [.pages, .blocks, .slots, .migq, .plcCh, .plans] ps) (hK : SameBut ps s0 s) :
    SameBut ps s0 (dropMigs s p) := by
  have w1 : Within [.slots] ps := Within.trans (by decide +kernel) hW
  have w2 : Within [.pages, .blocks, .plcCh, .plans] ps := Within.trans (by decide +kernel) hW
  have w3 : Within [.migq] ps := Within.trans (by decide +kernel) hW
  unfold dropMigs
  repeat' (first | with_reducible assumption | with_reducible apply setSlot_same w1
                  | with_reducible apply notify_same w2 | simp only [same_mk_migq w3] | split)

theorem freeStorage_same {ps : List Part} {s0 : State} {s : State} {e : Ent} {c : Nat}
    (hW : Within [.frameMap, .blocks] ps) (hK : SameBut ps s0 s) :
    SameBut ps s0 (freeStorage s e c) := by
  have w1 : Within [.frameMap] ps := Within.trans (by decide +kernel) hW
  have w2 : Within [.blocks] ps := Within.trans (by decide +kernel) hW
  unfold freeStorage
  repeat' (first | with_reducible assumption | with_reducible apply giveFrame_same w1
                  | with_reducible apply freeExtent_same w2 | extract_lets | split | dsimp +zetaDelta only)

theorem newExtent_same {ps : List Part} {s0 s : State} {p cfmt : Nat}
    (hW : Within [.csr, .stks, .deep, .deepMark, .blocks, .blockCur] ps) (hK : SameBut ps s0 s) :
    ∀ r, newExtent s p cfmt = some r → SameBut ps s0 r.1 := by
  intro r hr
  obtain ⟨x, hx, hr⟩ := Option.map_eq_some_iff.1 hr
  rw [← hr]
  exact same_pair (granWrite_same (Within.trans (by decide +kernel) hW)
    (allocExtent_same (Within.trans (by decide +kernel) hW) hK x hx))

theorem mapFastDone_same {ps : List Part} {s0 : State} {h : Hit} {p d f : Nat} {n : Ent}
    (hW : Within [.pages, .frameMap] ps)
    (hK : SameBut ps s0 h.s) : SameBut ps s0 (mapFastDone h p d f n).1 := by
  unfold mapFastDone
  split
  · exact setFrameCode_same (Within.trans (by decide +kernel) hW) hK
  · exact setEnt_same (Within.trans (by decide +kernel) hW) hK

theorem partMapCmd_same {ps : List Part} {s0 : State} {s : State} {p : Nat} {a1 : Nat} {a2 : Nat}
    (hW : Within [.csr, .evt, .stks, .fast, .deep, .fastMark, .deepMark, .pages, .frameMap, .blocks, .frameCur, .blockCur] ps) (hK : SameBut ps s0 s) :
    SameBut ps s0 (partMapCmd s p a1 a2).1 := by
  have w1 : Within [.csr, .evt, .stks, .fast, .fastMark] ps := Within.trans (by decide +kernel) hW
  have w2 : Within [.pages] ps := Within.trans (by decide +kernel) hW
  have w3 : Within [.frameMap, .frameCur] ps := Within.trans (by decide +kernel) hW
  have w4 : Within [.csr, .evt] ps := Within.trans (by decide +kernel) hW
  have w5 : Within [.csr, .stks, .deep, .deepMark, .blocks, .blockCur] ps := Within.trans (by decide +kernel) hW
  have w6 : Within [.pages, .frameMap] ps := Within.trans (by decide +kernel) hW
  unfold partMapCmd
  repeat' (first | with_reducible assumption | with_reducible apply frameWrite_same w1
                  | with_reducible apply setEnt_same w2 | with_reducible apply deepFull_same w4
                  | with_reducible apply mapFastDone_same w6 | extract_lets | split
                  | with_reducible refine same_some (allocFrame_same w3 ?_) (by assumption)
                  | with_reducible refine same_some (newExtent_same w5 ?_) (by assumption))

theorem partUnmap_same {ps : List Part} {s0 : State} {s : State} {p : Nat}
    (hW : Within [.pages, .frameMap, .blocks, .slots, .migq, .plcCh, .plans] ps) (hK : SameBut ps s0 s) :
    SameBut ps s0 (partUnmap s p).1 := by
  have w1 : Within [.pages] ps := Within.trans (by decide +kernel) hW
  have w2 : Within [.pages, .blocks, .slots, .migq, .plcCh, .plans] ps := Within.trans (by decide +kernel) hW
  have w3 : Within [.frameMap, .blocks] ps := Within.trans (by decide +kernel) hW
  unfold partUnmap
  repeat' (first | with_reducible assumption | with_reducible apply setEnt_same w1
                  | with_reducible apply dropMigs_same w2 | with_reducible apply freeStorage_same w3 | extract_lets
                  | split)

theorem partSetAttr_same {ps : List Part} {s0 : State} {s : State} {p : Nat} {a1 : Nat} {a2 : Nat}
    (hW : Within [.pages] ps) (hK : SameBut ps s0 s) :
    SameBut ps s0 (partSetAttr s p a1 a2).1 := by
  unfold partSetAttr
  repeat' (first | with_reducible assumption | with_reducible apply setEnt_same hW | extract_lets | split)

theorem partPromote_same {ps : List Part} {s0 : State} {s : State} {p : Nat} {a1 : Nat}
    (hW : Within [.slots, .migq] ps) (hK : SameBut ps s0 s) :
    SameBut ps s0 (partPromote s p a1).1 := by
  unfold partPromote
  repeat' (first | with_reducible assumption | with_reducible apply raiseClass_same hW
                  | with_reducible apply queueMig_same hW | extract_lets | split)

theorem partDemote_same {ps : List Part} {s0 : State} {s : State} {p : Nat}
    (hW : Within [.slots, .migq] ps) (hK : SameBut ps s0 s) :
    SameBut ps s0 (partDemote s p).1 := by
  unfold partDemote
  repeat' (first | with_reducible assumption | with_reducible apply queueMig_same hW | extract_lets | split)

theorem partFlush_same {ps : List Part} {s0 : State} {s : State} {p : Nat}
    (hW : Within [.slots, .migq] ps) (hK : SameBut ps s0 s) :
    SameBut ps s0 (partFlush s p).1 := by
  unfold partFlush
  repeat' (first | with_reducible assumption | with_reducible apply queueMig_same hW | extract_lets | split)

theorem partHome_same {ps : List Part} {s0 : State} {s : State} {p : Nat} {a1 : Nat}
    (hW : Within [.csr, .evt, .stks, .deep, .deepMark, .pages, .blocks, .blockCur, .slots, .migq, .plcCh, .plans] ps) (hK : SameBut ps s0 s) :
    SameBut ps s0 (partHome s p a1).1 := by
  have w1 : Within [.pages] ps := Within.trans (by decide +kernel) hW
  have w2 : Within [.csr, .evt] ps := Within.trans (by decide +kernel) hW
  have w3 : Within [.slots, .migq] ps := Within.trans (by decide +kernel) hW
  have w4 : Within [.pages, .blocks] ps := Within.trans (by decide +kernel) hW
  have w5 : Within [.pages, .blocks, .slots, .migq, .plcCh, .plans] ps := Within.trans (by decide +kernel) hW
  have w6 : Within [.csr, .stks, .deep, .deepMark, .blocks, .blockCur] ps := Within.trans (by decide +kernel) hW
  unfold partHome
  repeat' (first | with_reducible assumption | with_reducible apply setEnt_same w1
                  | with_reducible apply deepFull_same w2 | with_reducible apply raiseClass_same w3
                  | with_reducible apply queueMig_same w3 | with_reducible apply homeFast_same w4
                  | with_reducible apply dropMigs_same w5 | extract_lets | split
                  | with_reducible refine same_some (newExtent_same w6 ?_) (by assumption))

theorem copySectors_same {ps : List Part} {s0 : State} {f : Frame} {e0 : State} {e1 : List Bytes} {e2 : Nat}
    (hW : Within [.csr, .evt, .stks, .fast, .fastMark] ps) (hK : SameBut ps s0 e0) :
    SameBut ps s0 (copySectors f e0 e1 e2).s := by
  revert hK
  fun_induction copySectors f e0 e1 e2 <;> intro hK
  all_goals (repeat' (first | with_reducible assumption | with_reducible apply frameWrite_same hW | dsimp +zetaDelta only))
  all_goals (try (apply_assumption; repeat' (first | with_reducible assumption | with_reducible apply frameWrite_same hW)))

theorem partRelocate_same {ps : List Part} {s0 : State} {s : State} {p : Nat} {a1 : Nat}
    (hW : Within [.csr, .evt, .answers, .stks, .fast, .fastMark, .pages, .frameMap, .blocks, .frameCur, .slots, .migq, .stalled, .stallFail, .plcCh, .plans] ps) (hK : SameBut ps s0 s) :
    SameBut ps s0 (partRelocate s p a1).1 := by
  have w1 : Within [.pages] ps := Within.trans (by decide +kernel) hW
  have w2 : Within [.frameMap] ps := Within.trans (by decide +kernel) hW
  have w3 : Within [.frameMap, .frameCur] ps := Within.trans (by decide +kernel) hW
  have w4 : Within [.csr, .evt, .answers, .pages, .frameMap, .blocks, .slots, .migq, .stalled, .stallFail, .plcCh, .plans] ps := Within.trans (by decide +kernel) hW
  have w5 : Within [.csr, .evt, .stks, .fastMark] ps := Within.trans (by decide +kernel) hW
  have w6 : Within [.csr, .evt, .stks, .fast, .fastMark] ps := Within.trans (by decide +kernel) hW
  unfold partRelocate
  repeat' (first | with_reducible assumption | with_reducible apply setEnt_same w1
                  | with_reducible apply setFrameCode_same w2 | with_reducible apply giveFrame_same w2
                  | with_reducible apply reportBad_same w4 | with_reducible apply frameSectors_same w5
                  | with_reducible apply copySectors_same w6 | extract_lets | split
                  | with_reducible refine same_fstH (by assumption) ?_
                  | with_reducible refine same_some (allocFrame_same w3 ?_) (by assumption))

theorem partRetire_same {ps : List Part} {s0 : State} {s : State} {p : Nat}
    (hW : Within [.pages, .frameMap, .blocks, .slots, .migq, .plcCh, .plans] ps) (hK : SameBut ps s0 s) :
    SameBut ps s0 (partRetire s p).1 := by
  have w1 : Within [.pages] ps := Within.trans (by decide +kernel) hW
  have w2 : Within [.pages, .blocks, .slots, .migq, .plcCh, .plans] ps := Within.trans (by decide +kernel) hW
  have w3 : Within [.frameMap, .blocks] ps := Within.trans (by decide +kernel) hW
  unfold partRetire
  repeat' (first | with_reducible assumption | with_reducible apply setEnt_same w1
                  | with_reducible apply dropMigs_same w2 | with_reducible apply freeStorage_same w3 | extract_lets
                  | split)

theorem partRelease_same {ps : List Part} {s0 : State} {s : State} {p : Nat}
    (hW : Within [.pages] ps) (hK : SameBut ps s0 s) :
    SameBut ps s0 (partRelease s p).1 := by
  unfold partRelease
  repeat' (first | with_reducible assumption | with_reducible apply setEnt_same hW | extract_lets | split)

theorem rebuildFrame_same {ps : List Part} {s0 s : State} {own : Bool} {f d : Nat}
    (hW : Within [.frameMap, .frameCur] ps)
    (hK : SameBut ps s0 s) : ∀ r, (if own = true then some (s, f) else allocFrame s d) = some r → SameBut ps s0 r.1 := by
  intro r hr
  split at hr
  · cases hr; exact hK
  · exact allocFrame_same hW hK r hr

theorem partRebuild_same {ps : List Part} {s0 : State} {s : State} {ch : Nat} {p : Nat} {a1 : Nat} {a2 : Nat}
    (hW : Within [.freeCtr, .csr, .evt, .answers, .stks, .fast, .fastMark, .deepMark, .pages, .pageCache, .frameMap, .blocks, .frameCur, .slots, .migq, .stalled, .stallFail, .plcCh, .plans] ps)
    (hK : SameBut ps s0 s) : SameBut ps s0 (partRebuild s ch p a1 a2).1 := by
  unfold partRebuild
  extract_lets e own d
  split; exact hK
  split; exact hK
  split; exact hK
  rename_i s' f heq
  have h1 : SameBut ps s0 s' := same_some (rebuildFrame_same (Within.trans (by decide +kernel) hW) hK) heq
  extract_lets fr undo
  have hu : ∀ x, SameBut ps s0 x → SameBut ps s0 (undo x) := by
    intro x hx
    show SameBut ps s0 (if own then x else setFrameCode x d f 0)
    split
    · exact hx
    · exact setFrameCode_same (Within.trans (by decide +kernel) hW) hx
  split; exact hK
  split
  · rename_i e1
    exact hu _ (same_fst e1 (ltaRead_same (Within.trans (by decide +kernel) hW) h1))
  · rename_i e1
    have h2 := same_fst e1 (ltaRead_same (Within.trans (by decide +kernel) hW) h1)
    split; exact hu _ h2
    extract_lets h
    have h3 : SameBut ps s0 h.s := frameWrite_same (Within.trans (by decide +kernel) hW) h2
    split; exact hu _ h3
    apply setEnt_same (Within.trans (by decide +kernel) hW)
    show SameBut ps s0 (if own || !hasFrame e then h.s else giveFrame h.s e 2)
    split
    · exact h3
    · exact giveFrame_same (Within.trans (by decide +kernel) hW) h3

theorem partRead_same {ps : List Part} {s0 : State} {s : State} {ch : Nat} {p : Nat}
    (hW : Within [.csr] ps) (hK : SameBut ps s0 s) :
    SameBut ps s0 (partRead s ch p).1 := by
  unfold partRead
  repeat' (first | with_reducible assumption | with_reducible apply wr_same hW
                  | (with_reducible apply same_foldl; (try intros)))

theorem tryPart_same {ps : List Part} {s0 : State} {s : State} {ch : Nat} {c : PlcCmd} {i : Nat}
    (hW : Within [.freeCtr, .csr, .evt, .answers, .stks, .fast, .deep, .fastMark, .deepMark, .pages, .pageCache, .frameMap, .blocks, .frameCur, .blockCur, .slots, .migq, .stalled, .stallFail, .plcCh, .plans] ps) (hK : SameBut ps s0 s) :
    SameBut ps s0 (tryPart s ch c i).1 := by
  have w1 : Within [.csr, .evt, .stks, .fast, .deep, .fastMark, .deepMark, .pages, .frameMap, .blocks, .frameCur, .blockCur] ps := Within.trans (by decide +kernel) hW
  have w2 : Within [.pages, .frameMap, .blocks, .slots, .migq, .plcCh, .plans] ps := Within.trans (by decide +kernel) hW
  have w3 : Within [.pages] ps := Within.trans (by decide +kernel) hW
  have w4 : Within [.slots, .migq] ps := Within.trans (by decide +kernel) hW
  have w5 : Within [.csr, .evt, .stks, .deep, .deepMark, .pages, .blocks, .blockCur, .slots, .migq, .plcCh, .plans] ps := Within.trans (by decide +kernel) hW
  have w6 : Within [.csr, .evt, .answers, .stks, .fast, .fastMark, .pages, .frameMap, .blocks, .frameCur, .slots, .migq, .stalled, .stallFail, .plcCh, .plans] ps := Within.trans (by decide +kernel) hW
  have w7 : Within [.freeCtr, .csr, .evt, .answers, .stks, .fast, .fastMark, .deepMark, .pages, .pageCache, .frameMap, .blocks, .frameCur, .slots, .migq, .stalled, .stallFail, .plcCh, .plans] ps := Within.trans (by decide +kernel) hW
  have w8 : Within [.csr] ps := Within.trans (by decide +kernel) hW
  unfold tryPart
  repeat' (first | with_reducible assumption | with_reducible apply partMapCmd_same w1
                  | with_reducible apply partUnmap_same w2 | with_reducible apply partSetAttr_same w3
                  | with_reducible apply partPromote_same w4 | with_reducible apply partDemote_same w4
                  | with_reducible apply partFlush_same w4 | with_reducible apply partHome_same w5
                  | with_reducible apply partRelocate_same w6 | with_reducible apply partRetire_same w2
                  | with_reducible apply partRelease_same w3 | with_reducible apply partRebuild_same w7
                  | with_reducible apply partRead_same w8 | extract_lets | split)

theorem tryParts_same {ps : List Part} {s0 : State} {ch e0 e1 : Nat} {e2 : State}
    (hW : Within [.freeCtr, .csr, .evt, .answers, .stks, .fast, .deep, .fastMark, .deepMark, .pages, .pageCache, .frameMap, .blocks, .frameCur, .blockCur, .slots, .migq, .stalled, .stallFail, .plcCh, .plans] ps)
    (hK : SameBut ps s0 e2) :
    SameBut ps s0 (tryParts ch e0 e1 e2) := by
  induction e0 generalizing e1 e2 with
  | zero => exact hK
  | succ n ih =>
    unfold tryParts
    split
    · exact hK
    · apply ih
      split
      · split
        rename_i e
        have h := same_fst e (tryPart_same (Within.trans (by decide +kernel) hW) hK)
        split
        · rw [same_mk_plcCh (Within.trans (by decide +kernel) hW)]; exact h
        · exact h
      · exact hK

theorem setPlan_same {ps : List Part} {s0 : State} {s : State} {p : Nat} {v : Plan}
    (hW : Within [.plans] ps) (hK : SameBut ps s0 s) :
    SameBut ps s0 (setPlan s p v) := by
  unfold setPlan
  repeat' (first | with_reducible assumption | simp only [same_mk_plans hW])

theorem showPlan_same {ps : List Part} {s0 : State} {s : State} {p : Nat}
    (hW : Within [.csr] ps) (hK : SameBut ps s0 s) :
    SameBut ps s0 (showPlan s p) := by
  unfold showPlan
  repeat' (first | with_reducible assumption | with_reducible apply wr_same hW)

theorem readEntries_same {ps : List Part} {s0 : State} {ch : Nat} {a : Nat} {e0 : Nat} {e1 : Nat} {e2 : State}
    (hW : Within [.freeCtr, .csr, .evt, .answers, .stks, .fast, .fastMark, .deepMark, .pages, .pageCache, .frameMap, .blocks, .slots, .migq, .stalled, .stallFail, .plcCh, .plans] ps) (hK : SameBut ps s0 e2) :
    SameBut ps s0 (readEntries ch a e0 e1 e2).1 := by
  revert hK
  fun_induction readEntries ch a e0 e1 e2 <;> intro hK
  all_goals (repeat' (first | with_reducible assumption | with_reducible apply ltaRead_same hW
                             | with_reducible refine same_fst (by assumption) ?_ | extract_lets))
  all_goals (try (apply_assumption; repeat' (first | with_reducible assumption | with_reducible apply ltaRead_same hW
                                                     | with_reducible refine same_fst (by assumption) ?_)))

theorem ephLoadEff_same {ps : List Part} {s0 : State} {s : State} {ch : Nat} {c : PlcCmd}
    (hW : Within [.freeCtr, .csr, .evt, .ephResults, .answers, .stks, .fast, .fastMark, .deepMark, .pages, .pageCache, .frameMap, .blocks, .slots, .migq, .stalled, .stallFail, .plcCh, .plans] ps) (hK : SameBut ps s0 s) :
    SameBut ps s0 (ephLoadEff s ch c).1 := by
  have w1 : Within [.plans] ps := Within.trans (by decide +kernel) hW
  have w2 : Within [.csr] ps := Within.trans (by decide +kernel) hW
  have w3 : Within [.freeCtr, .csr, .evt, .answers, .stks, .fast, .fastMark, .deepMark, .pages, .pageCache, .frameMap, .blocks, .slots, .migq, .stalled, .stallFail, .plcCh, .plans] ps := Within.trans (by decide +kernel) hW
  have w4 : Within [.ephResults] ps := Within.trans (by decide +kernel) hW
  unfold ephLoadEff
  repeat' (first | with_reducible assumption | with_reducible apply setPlan_same w1
                  | with_reducible apply showPlan_same w2 | with_reducible apply readEntries_same w3
                  | simp only [same_mk_ephResults w4] | with_reducible refine same_fst (by assumption) ?_ | split)

theorem ephArmEff_same {ps : List Part} {s0 : State} {s : State} {c : PlcCmd}
    (hW : Within [.csr, .plans] ps) (hK : SameBut ps s0 s) :
    SameBut ps s0 (ephArmEff s c).1 := by
  have w1 : Within [.csr] ps := Within.trans (by decide +kernel) hW
  have w2 : Within [.plans] ps := Within.trans (by decide +kernel) hW
  unfold ephArmEff
  repeat' (first | with_reducible assumption | with_reducible apply wr_same w1
                  | with_reducible apply setPlan_same w2 | with_reducible apply showPlan_same w1 | extract_lets
                  | split)

theorem ephDisarmEff_same {ps : List Part} {s0 : State} {s : State} {c : PlcCmd}
    (hW : Within [.csr, .plans] ps) (hK : SameBut ps s0 s) :
    SameBut ps s0 (ephDisarmEff s c).1 := by
  have w1 : Within [.plans] ps := Within.trans (by decide +kernel) hW
  have w2 : Within [.csr] ps := Within.trans (by decide +kernel) hW
  unfold ephDisarmEff
  repeat' (first | with_reducible assumption | with_reducible apply setPlan_same w1
                  | with_reducible apply showPlan_same w2 | extract_lets | split)

theorem ephUnloadEff_same {ps : List Part} {s0 : State} {s : State} {c : PlcCmd}
    (hW : Within [.csr, .plans] ps) (hK : SameBut ps s0 s) :
    SameBut ps s0 (ephUnloadEff s c).1 := by
  have w1 : Within [.plans] ps := Within.trans (by decide +kernel) hW
  have w2 : Within [.csr] ps := Within.trans (by decide +kernel) hW
  unfold ephUnloadEff
  repeat' (first | with_reducible assumption | with_reducible apply setPlan_same w1
                  | with_reducible apply showPlan_same w2 | extract_lets | split)

theorem tryPlan_same {ps : List Part} {s0 : State} {s : State} {ch : Nat} {c : PlcCmd}
    (hW : Within [.freeCtr, .csr, .evt, .ephResults, .answers, .stks, .fast, .fastMark, .deepMark, .pages, .pageCache, .frameMap, .blocks, .slots, .migq, .stalled, .stallFail, .plcCh, .plans] ps) (hK : SameBut ps s0 s) :
    SameBut ps s0 (tryPlan s ch c) := by
  have w1 : Within [.csr, .plans] ps := Within.trans (by decide +kernel) hW
  have w2 : Within [.plcCh] ps := Within.trans (by decide +kernel) hW
  unfold tryPlan
  repeat' (first | with_reducible assumption | with_reducible apply ephLoadEff_same hW
                  | with_reducible apply ephArmEff_same w1 | with_reducible apply ephDisarmEff_same w1
                  | with_reducible apply ephUnloadEff_same w1 | simp only [same_mk_plcCh w2] | split)

theorem plcTry_same {ps : List Part} {s0 : State} {s : State} {ch : Nat}
    (hW : Within [.freeCtr, .csr, .evt, .ephResults, .answers, .stks, .fast, .deep, .fastMark, .deepMark, .pages, .pageCache, .frameMap, .blocks, .frameCur, .blockCur, .slots, .migq, .stalled, .stallFail, .plcCh, .plans] ps) (hK : SameBut ps s0 s) :
    SameBut ps s0 (plcTry s ch) := by
  have w1 : Within [.freeCtr, .csr, .evt, .answers, .stks, .fast, .deep, .fastMark, .deepMark, .pages, .pageCache, .frameMap, .blocks, .frameCur, .blockCur, .slots, .migq, .stalled, .stallFail, .plcCh, .plans] ps := Within.trans (by decide +kernel) hW
  have w2 : Within [.freeCtr, .csr, .evt, .ephResults, .answers, .stks, .fast, .fastMark, .deepMark, .pages, .pageCache, .frameMap, .blocks, .slots, .migq, .stalled, .stallFail, .plcCh, .plans] ps := Within.trans (by decide +kernel) hW
  unfold plcTry
  repeat' (first | with_reducible assumption | with_reducible apply tryParts_same w1
                  | with_reducible apply tryPlan_same w2 | split)

theorem plcIssue_same {ps : List Part} {s0 : State} {s : State} {i : Initiator} {ch : Nat} {op : Nat} {evt : Bool}
    (hW : Within [.freeCtr, .csr, .evt, .ephResults, .answers, .stks, .fast, .deep, .fastMark, .deepMark, .pages, .pageCache, .frameMap, .blocks, .frameCur, .blockCur, .slots, .migq, .stalled, .stallFail, .plcCh, .plans] ps) (hK : SameBut ps s0 s) :
    SameBut ps s0 (plcIssue s i ch op evt) := by
  have w1 : Within [.csr, .evt] ps := Within.trans (by decide +kernel) hW
  have w2 : Within [.plcCh] ps := Within.trans (by decide +kernel) hW
  unfold plcIssue
  repeat' (first | with_reducible assumption | with_reducible apply violation_same w1
                  | with_reducible apply plcTry_same hW | simp only [same_mk_plcCh w2] | split)

theorem execPlcCmdDone_same {ps : List Part} {s0 : State} {ch : Fin 4} {s : State}
    (hW : Within [.freeCtr, .csr, .evt, .ephResults, .answers, .stks, .fast, .deep, .fastMark, .deepMark, .pages, .pageCache, .frameMap, .blocks, .frameCur, .blockCur, .slots, .migq, .stalled, .stallFail, .plcCh, .plans] ps) (hK : SameBut ps s0 s) :
    OutSame ps s0 (execPlcCmdDone ch s) := by
  have w1 : Within [.csr] ps := Within.trans (by decide +kernel) hW
  have w2 : Within [.csr, .evt] ps := Within.trans (by decide +kernel) hW
  have w3 : Within [.answers] ps := Within.trans (by decide +kernel) hW
  have w4 : Within [.plcCh] ps := Within.trans (by decide +kernel) hW
  unfold execPlcCmdDone
  repeat' (first | with_reducible assumption | with_reducible apply wr_same w1 | with_reducible apply raise_same w2
                  | with_reducible apply plcTry_same hW | with_reducible apply outSame_next
                  | simp only [same_mk_answers w3] | simp only [same_mk_plcCh w4] | extract_lets | split)

theorem setEph_same {ps : List Part} {s0 : State} {s : State} {p : Nat} {e : Nat} {v : EphEnt}
    (hW : Within [.plans] ps) (hK : SameBut ps s0 s) :
    SameBut ps s0 (setEph s p e v) := by
  unfold setEph
  repeat' (first | with_reducible assumption | with_reducible apply setPlan_same hW)

theorem firePages_same {ps : List Part} {s0 : State} {b : Bytes} {e0 : List Nat} {e1 : State} {e2 : EphRun}
    (hW : Within [.pages, .slots, .migq] ps) (hK : SameBut ps s0 e1) :
    SameBut ps s0 (firePages b e0 e1 e2).1 := by
  have w2 : Within [.pages] ps := Within.trans (by decide +kernel) hW
  have w1 : Within [.slots, .migq] ps := Within.trans (by decide +kernel) hW
  revert hK
  fun_induction firePages b e0 e1 e2 <;> intro hK
  all_goals (repeat' (first | with_reducible assumption | simp only [same_mk_pages w2]))
  all_goals (try (apply_assumption; repeat' (first | with_reducible assumption | with_reducible apply raiseClass_same w1
                                                     | with_reducible apply queueMig_same w1)))

theorem fireEntry_same {ps : List Part} {s0 : State} {g : Nat} {m : Nat} {s : State} {x : Nat × Nat × EphEnt}
    (hW : Within [.csr, .pages, .slots, .migq, .plans] ps) (hK : SameBut ps s0 s) :
    SameBut ps s0 (fireEntry g m s x) := by
  have w1 : Within [.csr] ps := Within.trans (by decide +kernel) hW
  have w2 : Within [.plans] ps := Within.trans (by decide +kernel) hW
  have w3 : Within [.pages, .slots, .migq] ps := Within.trans (by decide +kernel) hW
  unfold fireEntry
  repeat' (first | with_reducible assumption | with_reducible apply bumpRaw_same w1
                  | with_reducible apply setEph_same w2 | with_reducible apply firePages_same w3 | split)

theorem lateEntry_same {ps : List Part} {s0 : State} {g : Nat} {m : Nat} {s : State} {x : Nat × Nat × EphEnt}
    (hW : Within [.csr, .evt, .plans] ps) (hK : SameBut ps s0 s) :
    SameBut ps s0 (lateEntry g m s x) := by
  have w1 : Within [.csr, .evt] ps := Within.trans (by decide +kernel) hW
  have w2 : Within [.plans] ps := Within.trans (by decide +kernel) hW
  unfold lateEntry
  repeat' (first | with_reducible assumption | with_reducible apply raise_same w1
                  | with_reducible apply bumpOcc_same w1 | with_reducible apply setEph_same w2 | extract_lets
                  | split)

theorem execEphMarker_same {ps : List Part} {s0 : State} {s : State}
    (hW : Within [.csr, .evt, .triggers, .pages, .slots, .migq, .plans] ps) (hK : SameBut ps s0 s) :
    OutSame ps s0 (execEphMarker s) := by
  have w1 : Within [.csr, .pages, .slots, .migq, .plans] ps := Within.trans (by decide +kernel) hW
  have w2 : Within [.csr, .evt, .plans] ps := Within.trans (by decide +kernel) hW
  have w3 : Within [.triggers] ps := Within.trans (by decide +kernel) hW
  unfold execEphMarker
  repeat' (first | with_reducible assumption | with_reducible apply fireEntry_same w1
                  | with_reducible apply lateEntry_same w2 | with_reducible apply outSame_next
                  | simp only [same_mk_triggers w3] | (with_reducible apply same_foldl; (try intros)) | split)

theorem execEphDescPush_same {ps : List Part} {s0 : State} {plan : Fin 4} {entry : Nat} {s : State}
    (hW : Within [.cores, .plans] ps) (hK : SameBut ps s0 s) :
    OutSame ps s0 (execEphDescPush plan entry s) := by
  have w1 : Within [.cores] ps := Within.trans (by decide +kernel) hW
  have w2 : Within [.plans] ps := Within.trans (by decide +kernel) hW
  unfold execEphDescPush
  repeat' (first | with_reducible assumption | with_reducible apply setCore_same w1
                  | with_reducible apply setEph_same w2 | with_reducible apply outSame_next | extract_lets | split)

theorem ephFinish_same {ps : List Part} {s0 : State} {s : State} {p : Nat} {e : Nat} {v : EphEnt} {r : EphRun}
    {rest : List EphRun} {rep : Report} {lta : Nat}
    (hW : Within [.csr, .evt, .plans] ps) (hK : SameBut ps s0 s) :
    SameBut ps s0 (ephFinish s p e v r rest rep lta) := by
  have w1 : Within [.csr, .evt] ps := Within.trans (by decide +kernel) hW
  have w2 : Within [.plans] ps := Within.trans (by decide +kernel) hW
  unfold ephFinish
  repeat' (first | with_reducible assumption | with_reducible apply raise_same w1
                  | with_reducible apply bumpOcc_same w1 | with_reducible apply setEph_same w2 | extract_lets
                  | split | dsimp +zetaDelta only)

theorem execEphEntryComplete_same {ps : List Part} {s0 : State} {plan : Fin 4} {entry : Nat} {s : State}
    (hW : Within [.csr, .evt, .ephResults, .plans] ps) (hK : SameBut ps s0 s) :
    OutSame ps s0 (execEphEntryComplete plan entry s) := by
  have w1 : Within [.csr, .evt, .plans] ps := Within.trans (by decide +kernel) hW
  have w2 : Within [.ephResults] ps := Within.trans (by decide +kernel) hW
  unfold execEphEntryComplete
  repeat' (first | with_reducible assumption | with_reducible apply ephFinish_same w1
                  | with_reducible apply outSame_next | simp only [same_mk_ephResults w2] | split)

end Sys2Proof.Machine
end

