-- ==== Sys2Proof/Laws/FrameNbu.lean ====
section
/-! SUPPORT. What the functions of Machine/Nbu.lean leave unchanged (see Laws/Frame.lean). -/

set_option Elab.async false -- many small kernel checks: one thread does them
set_option linter.unusedSimpArgs false
set_option simprocs false -- no numeral of a goal is evaluated in these proofs

namespace Sys2Proof.Machine

theorem setNbu_same {ps : List Part} {s0 : State} {s : State} {n : Nat} {v : Nbu}
    (hW : Within [.nbus] ps) (hK : SameBut ps s0 s) :
    SameBut ps s0 (setNbu s n v) := by
  unfold setNbu
  repeat' (first | with_reducible assumption | simp only [same_mk_nbus hW])

theorem send_same {ps : List Part} {s0 : State} {s : State} {m : FabMsg}
    (hW : Within [.outbox] ps) (hK : SameBut ps s0 s) :
    SameBut ps s0 (send s m) := by
  unfold send
  repeat' (first | with_reducible assumption | simp only [same_mk_outbox hW])

theorem execBurstGrant_same {ps : List Part} {s0 : State} {n : Fin 48} {banks : List (Fin 32)} {s : State}
    (hW : Within [.stks] ps) (hK : SameBut ps s0 s) :
    OutSame ps s0 (execBurstGrant n banks s) := by
  unfold execBurstGrant
  repeat' (first | with_reducible assumption | with_reducible apply setStk_same hW
                  | with_reducible apply outSame_next | extract_lets | split)

theorem endBurst_same {ps : List Part} {s0 : State} {s : State} {n : Nat}
    (hW : Within [.stks] ps) (hK : SameBut ps s0 s) :
    SameBut ps s0 (endBurst s n) := by
  unfold endBurst
  repeat' (first | with_reducible assumption | with_reducible apply setStk_same hW)

theorem execBurstEnd_same {ps : List Part} {s0 : State} {n : Fin 48} {s : State}
    (hW : Within [.stks] ps) (hK : SameBut ps s0 s) :
    OutSame ps s0 (execBurstEnd n s) := by
  unfold execBurstEnd
  repeat' (first | with_reducible assumption | with_reducible apply endBurst_same hW
                  | with_reducible apply outSame_next | split)

theorem execBurstPreempt_same {ps : List Part} {s0 : State} {n : Fin 48} {s : State}
    (hW : Within [.csr, .evt, .stks] ps) (hK : SameBut ps s0 s) :
    OutSame ps s0 (execBurstPreempt n s) := by
  have w1 : Within [.csr, .evt] ps := Within.trans (by decide +kernel) hW
  have w2 : Within [.stks] ps := Within.trans (by decide +kernel) hW
  unfold execBurstPreempt
  repeat' (first | with_reducible assumption | with_reducible apply bumpOcc_same w1
                  | with_reducible apply endBurst_same w2 | with_reducible apply outSame_next | extract_lets | split)

theorem acquire_same {ps : List Part} {s0 : State} {s : State} {p : Nat} {secs : Nat}
    (hW : Within [.csr, .pages, .pageCache, .holders, .slots, .migq] ps) (hK : SameBut ps s0 s) :
    SameBut ps s0 (acquire s p secs).1 := by
  have w1 : Within [.csr, .pages, .pageCache] ps := Within.trans (by decide +kernel) hW
  have w2 : Within [.slots, .migq] ps := Within.trans (by decide +kernel) hW
  have w3 : Within [.pages, .slots, .migq] ps := Within.trans (by decide +kernel) hW
  have w4 : Within [.pages] ps := Within.trans (by decide +kernel) hW
  have w5 : Within [.holders] ps := Within.trans (by decide +kernel) hW
  unfold acquire
  repeat' (first | with_reducible assumption | with_reducible apply touchCache_same w1
                  | with_reducible apply raiseClass_same w2 | with_reducible apply queueMig_same w2
                  | with_reducible apply stopDemotion_same w3 | with_reducible apply markDirty_same w4
                  | simp only [same_mk_holders w5] | split)

theorem releasePage_same {ps : List Part} {s0 : State} {s : State} {p : Nat}
    (hW : Within [.holders] ps) (hK : SameBut ps s0 s) :
    SameBut ps s0 (releasePage s p) := by
  unfold releasePage
  repeat' (first | with_reducible assumption | simp only [same_mk_holders hW])

theorem releasePages_same {ps : List Part} {s0 : State} {s : State} {l : List Nat}
    (hW : Within [.holders] ps) (hK : SameBut ps s0 s) :
    SameBut ps s0 (releasePages s l) := by
  unfold releasePages
  repeat' (first | with_reducible assumption | with_reducible apply releasePage_same hW
                  | (with_reducible apply same_foldl; (try intros)))

theorem fencePage_same {ps : List Part} {s0 : State} {s : State} {p : Nat}
    (hW : Within [.dcache] ps) (hK : SameBut ps s0 s) :
    SameBut ps s0 (fencePage s p) := by
  unfold fencePage
  repeat' (first | with_reducible assumption | simp only [same_mk_dcache hW]
                  | (with_reducible apply same_foldl; (try intros)))

theorem acquireAll_same {ps : List Part} {s0 : State} {s : State} {taken : List Nat} {e0 : List (Nat × Nat)}
    (hW : Within [.csr, .pages, .pageCache, .holders, .slots, .migq] ps) (hK : SameBut ps s0 s) :
    SameBut ps s0 (acquireAll s taken e0).1 := by
  have w1 : Within [.holders] ps := Within.trans (by decide +kernel) hW
  revert hK
  fun_induction acquireAll s taken e0 <;> intro hK
  all_goals (repeat' (first | with_reducible assumption | with_reducible apply acquire_same hW
                             | with_reducible apply releasePages_same w1
                             | with_reducible refine same_fst (by assumption) ?_))
  all_goals (try (apply_assumption; repeat' (first | with_reducible assumption | with_reducible apply acquire_same hW
                                                     | with_reducible refine same_fst (by assumption) ?_)))

theorem execNbuPageAcquire_same {ps : List Part} {s0 : State} {n : Fin 48} {page : Nat} {sectors : W64} {s : State}
    (hW : Within [.csr, .pages, .pageCache, .holders, .slots, .migq, .nbus] ps) (hK : SameBut ps s0 s) :
    OutSame ps s0 (execNbuPageAcquire n page sectors s) := by
  have w1 : Within [.nbus] ps := Within.trans (by decide +kernel) hW
  have w2 : Within [.csr, .pages, .pageCache, .holders, .slots, .migq] ps := Within.trans (by decide +kernel) hW
  unfold execNbuPageAcquire
  repeat' (first | with_reducible assumption | with_reducible apply setNbu_same w1
                  | with_reducible apply acquire_same w2 | with_reducible apply outSame_next
                  | with_reducible refine same_fst (by assumption) ?_ | split)

theorem execNbuFence_same {ps : List Part} {s0 : State} {n : Fin 48} {page : Nat} {s : State}
    (hW : Within [.dcache] ps) (hK : SameBut ps s0 s) :
    OutSame ps s0 (execNbuFence n page s) := by
  unfold execNbuFence
  repeat' (first | with_reducible assumption | with_reducible apply fencePage_same hW
                  | with_reducible apply outSame_next | split)

theorem execNbuPageRelease_same {ps : List Part} {s0 : State} {n : Fin 48} {page : Nat} {s : State}
    (hW : Within [.holders, .nbus] ps) (hK : SameBut ps s0 s) :
    OutSame ps s0 (execNbuPageRelease n page s) := by
  have w1 : Within [.nbus] ps := Within.trans (by decide +kernel) hW
  have w2 : Within [.holders] ps := Within.trans (by decide +kernel) hW
  unfold execNbuPageRelease
  repeat' (first | with_reducible assumption | with_reducible apply setNbu_same w1
                  | with_reducible apply releasePage_same w2 | with_reducible apply outSame_next | extract_lets
                  | split)

theorem nbuLine_same {ps : List Part} {s0 : State} {s : State} {n : Nat} {lta : Nat}
    (hW : Within [.csr, .evt, .stks, .fastMark] ps) (hK : SameBut ps s0 s) :
    SameBut ps s0 (nbuLine s n lta).s := by
  unfold nbuLine
  repeat' (first | with_reducible assumption | with_reducible apply frameReadNbu_same hW | split)

theorem nbuBytesAt_same {ps : List Part} {s0 : State} {s : State} {n : Nat} {e0 : List Nat}
    (hW : Within [.csr, .evt, .answers, .stks, .fastMark, .pages, .frameMap, .blocks, .slots, .migq, .stalled, .stallFail, .plcCh, .plans] ps) (hK : SameBut ps s0 s) :
    SameBut ps s0 (nbuBytesAt s n e0).s := by
  have w1 : Within [.csr, .evt, .answers, .pages, .frameMap, .blocks, .slots, .migq, .stalled, .stallFail, .plcCh, .plans] ps := Within.trans (by decide +kernel) hW
  have w2 : Within [.csr, .evt, .stks, .fastMark] ps := Within.trans (by decide +kernel) hW
  revert hK
  fun_induction nbuBytesAt s n e0 <;> intro hK
  all_goals (repeat' (first | with_reducible assumption | split | dsimp only | dsimp +zetaDelta only))
  all_goals (try (apply_assumption; repeat' (first | with_reducible assumption | with_reducible apply reportBad_same w1
                                                     | with_reducible apply nbuLine_same w2)))

theorem nbuBytes_same {ps : List Part} {s0 : State} {s : State} {n : Nat} {lta : Nat} {len : Nat}
    (hW : Within [.csr, .evt, .answers, .stks, .fastMark, .pages, .frameMap, .blocks, .slots, .migq, .stalled, .stallFail, .plcCh, .plans] ps) (hK : SameBut ps s0 s) :
    SameBut ps s0 (nbuBytes s n lta len).s := by
  unfold nbuBytes
  repeat' (first | with_reducible assumption | with_reducible apply nbuBytesAt_same hW)

theorem formLines_same {ps : List Part} {s0 : State} {s : State} {n : Nat} {prot : Bool} {es : List Edit}
    {e0 : List Nat}
    (hW : Within [.csr, .evt, .answers, .stks, .fastMark, .pages, .frameMap, .blocks, .slots, .migq, .stalled, .stallFail, .plcCh, .plans] ps) (hK : SameBut ps s0 s) : SameBut ps s0 (formLines s n prot es e0).1 := by
  induction e0 generalizing s with
  | nil => exact hK
  | cons l ls ih =>
    unfold formLines
    apply ih
    split
    · exact hK
    · exact nbuBytesAt_same (Within.trans (by decide +kernel) hW) hK

theorem sendDelta_same {ps : List Part} {s0 : State} {s : State} {n : Nat} {key : Nat} {r : Bytes}
    (hW : Within [.csr, .outbox] ps) (hK : SameBut ps s0 s) :
    SameBut ps s0 (sendDelta s n key r) := by
  have w1 : Within [.csr] ps := Within.trans (by decide +kernel) hW
  have w2 : Within [.outbox] ps := Within.trans (by decide +kernel) hW
  unfold sendDelta
  repeat' (first | with_reducible assumption | with_reducible apply bumpStat_same w1
                  | with_reducible apply send_same w2)

theorem sendFirst_same {ps : List Part} {s0 : State} {s : State} {n : Nat} {e0 : List CLine} {e1 : List CLine}
    (hW : Within [.csr, .nbus, .outbox, .commit_] ps) (hK : SameBut ps s0 s) :
    SameBut ps s0 (sendFirst s n e0 e1) := by
  have w1 : Within [.nbus] ps := Within.trans (by decide +kernel) hW
  have w2 : Within [.csr, .outbox] ps := Within.trans (by decide +kernel) hW
  revert hK
  fun_induction sendFirst s n e0 e1 <;> intro hK
  all_goals (repeat' (first | with_reducible assumption | with_reducible apply setNbu_same w1
                             | with_reducible apply sendDelta_same w2))
  all_goals (try (apply_assumption; repeat' (with_reducible assumption)))

theorem sendDue_same {ps : List Part} {s0 : State} {n : Nat} {e0 : Nat} {e1 : State}
    (hW : Within [.csr, .nbus, .outbox, .commit_] ps) (hK : SameBut ps s0 e1) :
    SameBut ps s0 (sendDue n e0 e1) := by
  revert hK
  fun_induction sendDue n e0 e1 <;> intro hK
  all_goals (repeat' (with_reducible assumption))
  all_goals (try (apply_assumption; repeat' (first | with_reducible assumption | with_reducible apply sendFirst_same hW)))

theorem showLine_same {ps : List Part} {s0 : State} {s : State} {c : CLine}
    (hW : Within [.fast, .fastMark] ps) (hK : SameBut ps s0 s) :
    SameBut ps s0 (showLine s c) := by
  unfold showLine
  repeat' (first | with_reducible assumption | simp only [same_mk_fast_fastMark hW])

theorem takeAck_same {ps : List Part} {s0 : State} {s : State} {n : Nat} {key : Nat} {q : Nat}
    (hW : Within [.csr, .fast, .fastMark, .nbus, .outbox, .commit_] ps) (hK : SameBut ps s0 s) :
    SameBut ps s0 (takeAck s n key q) := by
  have w1 : Within [.nbus] ps := Within.trans (by decide +kernel) hW
  have w2 : Within [.csr, .nbus, .outbox, .commit_] ps := Within.trans (by decide +kernel) hW
  have w3 : Within [.fast, .fastMark] ps := Within.trans (by decide +kernel) hW
  unfold takeAck
  repeat' (first | with_reducible assumption | with_reducible apply setNbu_same w1
                  | with_reducible apply sendDue_same w2 | with_reducible apply showLine_same w3
                  | (with_reducible apply same_foldl; (try intros)))

theorem deltaAckEff_same {ps : List Part} {s0 : State} {s : State} {n : Nat} {a : Bytes}
    (hW : Within [.csr, .fast, .fastMark, .nbus, .outbox, .commit_] ps) (hK : SameBut ps s0 s) :
    SameBut ps s0 (deltaAckEff s n a) := by
  unfold deltaAckEff
  repeat' (first | with_reducible assumption | with_reducible apply takeAck_same hW)

theorem execDeltaAckReceive_same {ps : List Part} {s0 : State} {n : Fin 48} {ack : Bytes} {s : State}
    (hW : Within [.csr, .fast, .fastMark, .nbus, .outbox, .commit_] ps) (hK : SameBut ps s0 s) :
    OutSame ps s0 (execDeltaAckReceive n ack s) := by
  unfold execDeltaAckReceive
  repeat' (first | with_reducible assumption | with_reducible apply deltaAckEff_same hW
                  | with_reducible apply outSame_next | split)

theorem ackDelta_same {ps : List Part} {s0 : State} {s : State} {n : Nat} {d : Bytes}
    (hW : Within [.outbox] ps) (hK : SameBut ps s0 s) :
    SameBut ps s0 (ackDelta s n d) := by
  unfold ackDelta
  repeat' (first | with_reducible assumption | with_reducible apply send_same hW)

theorem deltaEff_same {ps : List Part} {s0 : State} {s : State} {n : Nat} {d : Bytes}
    (hW : Within [.csr, .evt, .answers, .stks, .fast, .fastMark, .pages, .pageCache, .holders, .frameMap, .blocks, .slots, .migq, .stalled, .stallFail, .plcCh, .plans, .nbus, .dcache, .outbox] ps) (hK : SameBut ps s0 s) :
    SameBut ps s0 (deltaEff s n d) := by
  have w1 : Within [.csr] ps := Within.trans (by decide +kernel) hW
  have w2 : Within [.csr, .evt] ps := Within.trans (by decide +kernel) hW
  have w3 : Within [.csr, .evt, .stks, .fast, .fastMark] ps := Within.trans (by decide +kernel) hW
  have w4 : Within [.nbus] ps := Within.trans (by decide +kernel) hW
  have w5 : Within [.csr, .pages, .pageCache, .holders, .slots, .migq] ps := Within.trans (by decide +kernel) hW
  have w6 : Within [.holders] ps := Within.trans (by decide +kernel) hW
  have w7 : Within [.dcache] ps := Within.trans (by decide +kernel) hW
  have w8 : Within [.csr, .evt, .answers, .stks, .fastMark, .pages, .frameMap, .blocks, .slots, .migq, .stalled, .stallFail, .plcCh, .plans] ps := Within.trans (by decide +kernel) hW
  have w9 : Within [.outbox] ps := Within.trans (by decide +kernel) hW
  unfold deltaEff
  repeat' (first | with_reducible assumption | with_reducible apply bumpStat_same w1
                  | with_reducible apply bumpOcc_same w2 | with_reducible apply frameWrite_same w3
                  | with_reducible apply setNbu_same w4 | with_reducible apply acquire_same w5
                  | with_reducible apply releasePage_same w6 | with_reducible apply fencePage_same w7
                  | with_reducible apply nbuBytesAt_same w8 | with_reducible apply ackDelta_same w9
                  | with_reducible refine same_fst (by assumption) ?_ | extract_lets | split | dsimp only
                  | dsimp +zetaDelta only)

theorem execDeltaReceive_same {ps : List Part} {s0 : State} {n : Fin 48} {delta : Bytes} {s : State}
    (hW : Within [.csr, .evt, .answers, .stks, .fast, .fastMark, .pages, .pageCache, .holders, .frameMap, .blocks, .slots, .migq, .stalled, .stallFail, .plcCh, .plans, .nbus, .dcache, .outbox] ps) (hK : SameBut ps s0 s) :
    OutSame ps s0 (execDeltaReceive n delta s) := by
  unfold execDeltaReceive
  repeat' (first | with_reducible assumption | with_reducible apply deltaEff_same hW
                  | with_reducible apply outSame_next | split)

theorem resendAll_same {ps : List Part} {s0 : State} {s : State} {n : Nat} {key : Nat}
    (hW : Within [.csr, .evt, .outbox] ps) (hK : SameBut ps s0 s) :
    SameBut ps s0 (resendAll s n key) := by
  have w1 : Within [.csr, .evt] ps := Within.trans (by decide +kernel) hW
  have w2 : Within [.outbox] ps := Within.trans (by decide +kernel) hW
  unfold resendAll
  repeat' (first | with_reducible assumption | with_reducible apply bumpOcc_same w1
                  | with_reducible apply send_same w2 | (with_reducible apply same_foldl; (try intros)))

theorem execDeltaResend_same {ps : List Part} {s0 : State} {n : Fin 48} {dev : Nat} {holder : Fin 48} {s : State}
    (hW : Within [.csr, .evt, .nbus, .outbox] ps) (hK : SameBut ps s0 s) :
    OutSame ps s0 (execDeltaResend n dev holder s) := by
  have w1 : Within [.csr, .evt] ps := Within.trans (by decide +kernel) hW
  have w2 : Within [.nbus] ps := Within.trans (by decide +kernel) hW
  have w3 : Within [.csr, .evt, .outbox] ps := Within.trans (by decide +kernel) hW
  unfold execDeltaResend
  repeat' (first | with_reducible assumption | with_reducible apply raise_same w1
                  | with_reducible apply setNbu_same w2 | with_reducible apply resendAll_same w3
                  | with_reducible apply outSame_next | extract_lets | split)

theorem execMarkSend_same {ps : List Part} {s0 : State} {n : Fin 48} {dev : Nat} {holder : Fin 48} {s : State}
    (hW : Within [.csr, .nbus, .outbox] ps) (hK : SameBut ps s0 s) :
    OutSame ps s0 (execMarkSend n dev holder s) := by
  have w1 : Within [.nbus] ps := Within.trans (by decide +kernel) hW
  have w2 : Within [.csr, .outbox] ps := Within.trans (by decide +kernel) hW
  unfold execMarkSend
  repeat' (first | with_reducible assumption | with_reducible apply setNbu_same w1
                  | with_reducible apply sendDelta_same w2 | with_reducible apply outSame_next | extract_lets
                  | split)

theorem placeLines_same {ps : List Part} {s0 : State} {s : State} {n : Nat} {prot : Bool} {tile : Option Nat}
    {ls : List NewLine}
    (hW : Within [.csr, .nbus, .outbox, .commit_] ps) (hK : SameBut ps s0 s) :
    SameBut ps s0 (placeLines s n prot tile ls).1 := by
  have w1 : Within [.nbus] ps := Within.trans (by decide +kernel) hW
  unfold placeLines
  repeat' (first | with_reducible assumption | with_reducible apply setNbu_same w1
                  | with_reducible apply sendDue_same hW)

theorem execCommitLineWrite_same {ps : List Part} {s0 : State} {n : Fin 48} {s : State}
    (hW : Within [.csr, .evt, .stks, .fast, .fastMark, .nbus, .commit_] ps) (hK : SameBut ps s0 s) :
    OutSame ps s0 (execCommitLineWrite n s) := by
  have w1 : Within [.csr, .evt, .stks, .fast, .fastMark] ps := Within.trans (by decide +kernel) hW
  have w2 : Within [.nbus] ps := Within.trans (by decide +kernel) hW
  unfold execCommitLineWrite
  repeat' (first | with_reducible assumption | with_reducible apply frameWrite_same w1
                  | with_reducible apply setNbu_same w2 | with_reducible apply outSame_next | extract_lets | split)

theorem execNbuRetainedRestore_same {ps : List Part} {s0 : State} {n : Fin 48} {s : State}
    (hW : Within [.csr, .evt, .pages, .pageCache, .holders, .slots, .migq, .nbus, .outbox, .commit_] ps) (hK : SameBut ps s0 s) :
    OutSame ps s0 (execNbuRetainedRestore n s) := by
  have w1 : Within [.nbus] ps := Within.trans (by decide +kernel) hW
  have w2 : Within [.csr, .pages, .pageCache, .holders, .slots, .migq] ps := Within.trans (by decide +kernel) hW
  have w3 : Within [.csr, .nbus, .outbox, .commit_] ps := Within.trans (by decide +kernel) hW
  have w4 : Within [.csr, .evt, .outbox] ps := Within.trans (by decide +kernel) hW
  unfold execNbuRetainedRestore
  repeat' (first | with_reducible assumption | with_reducible apply setNbu_same w1
                  | with_reducible apply acquireAll_same w2 | with_reducible apply sendDue_same w3
                  | with_reducible apply resendAll_same w4 | with_reducible apply outSame_next
                  | with_reducible refine same_fst (by assumption) ?_
                  | (with_reducible apply same_foldl; (try intros)) | extract_lets | split)

end Sys2Proof.Machine
end

