-- ==== Sys2Proof/Laws/FrameNbuRow.lean ====
section
/-! SUPPORT. What the functions of Machine/NbuRow.lean leave unchanged (see Laws/Frame.lean). -/

set_option Elab.async false -- many small kernel checks: one thread does them
set_option linter.unusedSimpArgs false
set_option simprocs false -- no numeral of a goal is evaluated in these proofs

namespace Sys2Proof.Machine

theorem loadRow_same {ps : List Part} {s0 : State} {s : State} {n : Nat} {x : Stream} {step : Nat} {t : Nat} {r : Nat}
    (hW : Within [.csr, .evt, .answers, .stks, .fastMark, .pages, .frameMap, .blocks, .slots, .migq, .stalled, .stallFail, .plcCh, .plans] ps) (hK : SameBut ps s0 s) :
    SameBut ps s0 (loadRow s n x step t r).1 := by
  unfold loadRow
  repeat' (first | with_reducible assumption | with_reducible apply nbuBytes_same hW | extract_lets | split)

theorem loadStreams_same {ps : List Part} {s0 : State} {s : State} {n : Nat} {bind : Bytes} {b : Bytes}
    {e0 : List Nat}
    (hW : Within [.csr, .evt, .answers, .stks, .fastMark, .pages, .frameMap, .blocks, .slots, .migq, .stalled, .stallFail, .plcCh, .plans] ps) (hK : SameBut ps s0 s) :
    SameBut ps s0 (loadStreams s n bind b e0).1 := by
  revert hK
  fun_induction loadStreams s n bind b e0 <;> intro hK
  all_goals (repeat' (first | with_reducible assumption | with_reducible refine same_fst (by assumption) ?_ | extract_lets))
  all_goals (try (apply_assumption; repeat' (first | with_reducible assumption | with_reducible apply loadRow_same hW
                                                     | with_reducible refine same_fst (by assumption) ?_)))

theorem applyRow_same {ps : List Part} {s0 : State} {s : State} {n : Nat} {bind : Bytes} {b : Bytes}
    {pages : List Nat} {x : Stamp}
    (hW : Within [.stamp, .csr, .evt, .answers, .stks, .fastMark, .pages, .holders, .frameMap, .blocks, .slots, .migq, .stalled, .stallFail, .plcCh, .plans, .nbus, .dcache, .outbox, .commit_] ps) (hK : SameBut ps s0 s) :
    SameBut ps s0 (applyRow s n bind b pages x).1 := by
  have w1 : Within [.csr] ps := Within.trans (by decide +kernel) hW
  have w2 : Within [.holders] ps := Within.trans (by decide +kernel) hW
  have w3 : Within [.dcache] ps := Within.trans (by decide +kernel) hW
  have w4 : Within [.csr, .evt, .answers, .stks, .fastMark, .pages, .frameMap, .blocks, .slots, .migq, .stalled, .stallFail, .plcCh, .plans] ps := Within.trans (by decide +kernel) hW
  have w5 : Within [.csr, .nbus, .outbox, .commit_] ps := Within.trans (by decide +kernel) hW
  have w6 : Within [.stamp] ps := Within.trans (by decide +kernel) hW
  unfold applyRow
  repeat' (first | with_reducible assumption | with_reducible apply bumpStat_same w1
                  | with_reducible apply releasePages_same w2 | with_reducible apply fencePage_same w3
                  | with_reducible apply formLines_same w4 | with_reducible apply placeLines_same w5
                  | with_reducible apply loadStreams_same w4 | simp only [same_mk_stamp w6]
                  | (with_reducible apply same_foldl; (try intros)) | split)

theorem tryRow_same {ps : List Part} {s0 : State} {s : State} {n : Nat} {b : Bytes}
    (hW : Within [.freeCtr, .stamp, .csr, .evt, .answers, .stks, .fastMark, .pages, .pageCache, .holders, .frameMap, .blocks, .slots, .migq, .stalled, .stallFail, .plcCh, .plans, .nbus, .dcache, .outbox, .commit_] ps) (hK : SameBut ps s0 s) :
    SameBut ps s0 (tryRow s n b).1 := by
  have w1 : Within [.csr, .evt] ps := Within.trans (by decide +kernel) hW
  have w2 : Within [.freeCtr, .csr, .evt, .stalled] ps := Within.trans (by decide +kernel) hW
  have w3 : Within [.holders] ps := Within.trans (by decide +kernel) hW
  have w4 : Within [.csr, .pages, .pageCache, .holders, .slots, .migq] ps := Within.trans (by decide +kernel) hW
  have w5 : Within [.csr, .evt, .answers, .stks, .fastMark, .pages, .frameMap, .blocks, .slots, .migq, .stalled, .stallFail, .plcCh, .plans] ps := Within.trans (by decide +kernel) hW
  have w6 : Within [.stamp, .csr, .evt, .answers, .stks, .fastMark, .pages, .holders, .frameMap, .blocks, .slots, .migq, .stalled, .stallFail, .plcCh, .plans, .nbus, .dcache, .outbox, .commit_] ps := Within.trans (by decide +kernel) hW
  unfold tryRow
  repeat' (first | with_reducible assumption | with_reducible apply bumpOcc_same w1
                  | with_reducible apply registerStall_same w2 | with_reducible apply releasePages_same w3
                  | with_reducible apply acquireAll_same w4 | with_reducible apply nbuBytes_same w5
                  | with_reducible apply applyRow_same w6 | with_reducible refine same_fst (by assumption) ?_
                  | extract_lets | split)

theorem freeEntry_same {ps : List Part} {s0 : State} {s : State} {n : Nat}
    (hW : Within [.nbus] ps) (hK : SameBut ps s0 s) :
    SameBut ps s0 (freeEntry s n) := by
  unfold freeEntry
  repeat' (first | with_reducible assumption | with_reducible apply setNbu_same hW | extract_lets | split)

theorem takeRow_same {ps : List Part} {s0 : State} {s : State} {n : Nat} {i : Nat}
    (hW : Within [.freeCtr, .stamp, .csr, .evt, .answers, .stks, .fastMark, .pages, .pageCache, .holders, .frameMap, .blocks, .slots, .migq, .stalled, .stallFail, .plcCh, .plans, .nbus, .dcache, .outbox, .commit_] ps) (hK : SameBut ps s0 s) :
    SameBut ps s0 (takeRow s n i) := by
  have w1 : Within [.csr] ps := Within.trans (by decide +kernel) hW
  have w2 : Within [.nbus] ps := Within.trans (by decide +kernel) hW
  unfold takeRow
  repeat' (first | with_reducible assumption | with_reducible apply bumpStat_same w1
                  | with_reducible apply setNbu_same w2 | with_reducible apply tryRow_same hW
                  | with_reducible apply freeEntry_same w2 | with_reducible refine same_fst (by assumption) ?_
                  | extract_lets | split)

theorem execNbuRowReceive_same {ps : List Part} {s0 : State} {n : Fin 48} {row : Bytes} {s : State}
    (hW : Within [.csr, .evt, .nbus, .rowsInFlight] ps) (hK : SameBut ps s0 s) :
    OutSame ps s0 (execNbuRowReceive n row s) := by
  have w1 : Within [.csr, .evt] ps := Within.trans (by decide +kernel) hW
  have w2 : Within [.nbus] ps := Within.trans (by decide +kernel) hW
  have w3 : Within [.rowsInFlight] ps := Within.trans (by decide +kernel) hW
  unfold execNbuRowReceive
  repeat' (first | with_reducible assumption | with_reducible apply raise_same w1
                  | with_reducible apply setNbu_same w2 | with_reducible apply outSame_next
                  | simp only [same_mk_rowsInFlight w3] | split)

theorem execNbuRowApply_same {ps : List Part} {s0 : State} {n : Fin 48} {s : State}
    (hW : Within [.freeCtr, .stamp, .csr, .evt, .answers, .stks, .fastMark, .pages, .pageCache, .holders, .frameMap, .blocks, .slots, .migq, .stalled, .stallFail, .plcCh, .plans, .nbus, .dcache, .outbox, .commit_] ps) (hK : SameBut ps s0 s) :
    OutSame ps s0 (execNbuRowApply n s) := by
  have w1 : Within [.csr] ps := Within.trans (by decide +kernel) hW
  have w2 : Within [.nbus] ps := Within.trans (by decide +kernel) hW
  unfold execNbuRowApply
  repeat' (first | with_reducible assumption | with_reducible apply bumpStat_same w1
                  | with_reducible apply setNbu_same w2 | with_reducible apply takeRow_same hW
                  | with_reducible apply outSame_next | extract_lets | split)

theorem endParked_same {ps : List Part} {s0 : State} {s : State} {n : Nat} {p : Nat} {st : Nat}
    (hW : Within [.nbus] ps) (hK : SameBut ps s0 s) :
    SameBut ps s0 (endParked s n p st) := by
  unfold endParked
  repeat' (first | with_reducible assumption | with_reducible apply setNbu_same hW)

theorem unparkFrom_same {ps : List Part} {s0 : State} {n : Nat} {e0 : Nat} {e1 : Nat} {e2 : State}
    (hW : Within [.freeCtr, .stamp, .csr, .evt, .answers, .stks, .fastMark, .pages, .pageCache, .holders, .frameMap, .blocks, .slots, .migq, .stalled, .stallFail, .plcCh, .plans, .nbus, .dcache, .outbox, .commit_] ps) (hK : SameBut ps s0 e2) :
    SameBut ps s0 (unparkFrom n e0 e1 e2) := by
  revert hK
  fun_induction unparkFrom n e0 e1 e2 <;> intro hK
  all_goals (repeat' (first | with_reducible assumption | dsimp +zetaDelta only))
  all_goals (try (apply_assumption; repeat' (first | with_reducible assumption | with_reducible apply takeRow_same hW)))

theorem execRowUnpark_same {ps : List Part} {s0 : State} {n : Fin 48} {s : State}
    (hW : Within [.freeCtr, .stamp, .csr, .evt, .answers, .stks, .fastMark, .pages, .pageCache, .holders, .frameMap, .blocks, .slots, .migq, .stalled, .stallFail, .plcCh, .plans, .nbus, .dcache, .outbox, .commit_] ps) (hK : SameBut ps s0 s) :
    OutSame ps s0 (execRowUnpark n s) := by
  have w1 : Within [.nbus] ps := Within.trans (by decide +kernel) hW
  have w2 : Within [.stalled, .stallFail] ps := Within.trans (by decide +kernel) hW
  unfold execRowUnpark
  repeat' (first | with_reducible assumption | with_reducible apply endParked_same w1
                  | with_reducible apply unparkFrom_same hW | with_reducible apply outSame_next
                  | simp only [same_mk_stalled_stallFail w2] | (with_reducible apply same_foldl; (try intros))
                  | extract_lets | split)

theorem loadTile_same {ps : List Part} {s0 : State} {s : State} {n : Nat} {x : Stream} {step : Nat} {t : Nat}
    {e0 : List Nat}
    (hW : Within [.csr, .evt, .answers, .stks, .fastMark, .pages, .frameMap, .blocks, .slots, .migq, .stalled, .stallFail, .plcCh, .plans] ps) (hK : SameBut ps s0 s) :
    SameBut ps s0 (loadTile s n x step t e0).1 := by
  revert hK
  fun_induction loadTile s n x step t e0 <;> intro hK
  all_goals (repeat' (first | with_reducible assumption | with_reducible refine same_fst (by assumption) ?_ | extract_lets
                             | dsimp +zetaDelta only))
  all_goals (try (apply_assumption; repeat' (first | with_reducible assumption | with_reducible apply nbuBytes_same hW)))

theorem transEdits_same {ps : List Part} {s0 : State} {s : State} {n : Nat} {bind : Bytes} {step : Nat} {t : Nat}
    {e0 : List Nat}
    (hW : Within [.csr, .evt, .answers, .stks, .fastMark, .pages, .frameMap, .blocks, .slots, .migq, .stalled, .stallFail, .plcCh, .plans] ps) (hK : SameBut ps s0 s) :
    SameBut ps s0 (transEdits s n bind step t e0).1 := by
  revert hK
  fun_induction transEdits s n bind step t e0 <;> intro hK
  all_goals (repeat' (first | with_reducible assumption | with_reducible refine same_fst (by assumption) ?_ | extract_lets))
  all_goals (try (apply_assumption; repeat' (first | with_reducible assumption | with_reducible apply loadTile_same hW
                                                     | with_reducible refine same_fst (by assumption) ?_)))

theorem placeEdits_same {ps : List Part} {s0 : State} {s : State} {n : Nat} {prot : Bool} {es : List Edit}
    {stamp : Option Edit}
    (hW : Within [.stamp, .csr, .evt, .answers, .stks, .fastMark, .pages, .frameMap, .blocks, .slots, .migq, .stalled, .stallFail, .plcCh, .plans, .nbus, .outbox, .commit_] ps) (hK : SameBut ps s0 s) :
    SameBut ps s0 (placeEdits s n prot es stamp).1 := by
  have w1 : Within [.csr, .evt, .answers, .stks, .fastMark, .pages, .frameMap, .blocks, .slots, .migq, .stalled, .stallFail, .plcCh, .plans] ps := Within.trans (by decide +kernel) hW
  have w2 : Within [.csr, .nbus, .outbox, .commit_] ps := Within.trans (by decide +kernel) hW
  have w3 : Within [.stamp] ps := Within.trans (by decide +kernel) hW
  unfold placeEdits
  repeat' (first | with_reducible assumption | with_reducible apply formLines_same w1
                  | with_reducible apply placeLines_same w2 | simp only [same_mk_stamp w3] | split)

theorem transposeTile_same {ps : List Part} {s0 : State} {s : State} {n : Nat} {bind : Bytes} {step : Nat} {t : Nat}
    (hW : Within [.stamp, .csr, .evt, .answers, .stks, .fastMark, .pages, .pageCache, .holders, .frameMap, .blocks, .slots, .migq, .stalled, .stallFail, .plcCh, .plans, .nbus, .dcache, .outbox, .commit_] ps) (hK : SameBut ps s0 s) :
    SameBut ps s0 (transposeTile s n bind step t).1 := by
  have w1 : Within [.holders] ps := Within.trans (by decide +kernel) hW
  have w2 : Within [.dcache] ps := Within.trans (by decide +kernel) hW
  have w3 : Within [.csr, .pages, .pageCache, .holders, .slots, .migq] ps := Within.trans (by decide +kernel) hW
  have w4 : Within [.csr, .evt, .answers, .stks, .fastMark, .pages, .frameMap, .blocks, .slots, .migq, .stalled, .stallFail, .plcCh, .plans] ps := Within.trans (by decide +kernel) hW
  have w5 : Within [.stamp, .csr, .evt, .answers, .stks, .fastMark, .pages, .frameMap, .blocks, .slots, .migq, .stalled, .stallFail, .plcCh, .plans, .nbus, .outbox, .commit_] ps := Within.trans (by decide +kernel) hW
  unfold transposeTile
  repeat' (first | with_reducible assumption | with_reducible apply releasePages_same w1
                  | with_reducible apply fencePage_same w2 | with_reducible apply acquireAll_same w3
                  | with_reducible apply nbuBytes_same w4 | with_reducible apply transEdits_same w4
                  | with_reducible apply placeEdits_same w5 | with_reducible refine same_fst (by assumption) ?_
                  | (with_reducible apply same_foldl; (try intros)) | extract_lets | split)

theorem setWork_same {ps : List Part} {s0 : State} {s : State} {n : Nat} {i : Nat} {w : Work}
    (hW : Within [.nbus] ps) (hK : SameBut ps s0 s) :
    SameBut ps s0 (setWork s n i w) := by
  unfold setWork
  repeat' (first | with_reducible assumption | with_reducible apply setNbu_same hW)

theorem execTransposeTile_same {ps : List Part} {s0 : State} {n : Fin 48} {s : State}
    (hW : Within [.stamp, .csr, .evt, .answers, .stks, .fastMark, .pages, .pageCache, .holders, .frameMap, .blocks, .slots, .migq, .stalled, .stallFail, .plcCh, .plans, .nbus, .dcache, .outbox, .commit_] ps) (hK : SameBut ps s0 s) :
    OutSame ps s0 (execTransposeTile n s) := by
  have w1 : Within [.nbus] ps := Within.trans (by decide +kernel) hW
  unfold execTransposeTile
  repeat' (first | with_reducible assumption | with_reducible apply transposeTile_same hW
                  | with_reducible apply setWork_same w1 | with_reducible apply outSame_next
                  | with_reducible refine same_fst (by assumption) ?_ | extract_lets | split)

theorem execNbuRowAnswer_same {ps : List Part} {s0 : State} {n : Fin 48} {s : State}
    (hW : Within [.holders, .nbus, .rowAnswers] ps) (hK : SameBut ps s0 s) :
    OutSame ps s0 (execNbuRowAnswer n s) := by
  have w1 : Within [.nbus] ps := Within.trans (by decide +kernel) hW
  have w2 : Within [.holders] ps := Within.trans (by decide +kernel) hW
  have w3 : Within [.rowAnswers] ps := Within.trans (by decide +kernel) hW
  unfold execNbuRowAnswer
  repeat' (first | with_reducible assumption | with_reducible apply setNbu_same w1
                  | with_reducible apply releasePages_same w2 | with_reducible apply freeEntry_same w1
                  | with_reducible apply outSame_next | simp only [same_mk_rowAnswers w3] | extract_lets | split)

theorem putCmd_same {ps : List Part} {s0 : State} {s : State} {n : Nat} {c : Option NCmd}
    (hW : Within [.nbus] ps) (hK : SameBut ps s0 s) :
    SameBut ps s0 (putCmd s n c) := by
  unfold putCmd
  repeat' (first | with_reducible assumption | with_reducible apply setNbu_same hW)

theorem progLoad_same {ps : List Part} {s0 : State} {s : State} {n : Nat} {c : NCmd}
    (hW : Within [.freeCtr, .csr, .evt, .answers, .stks, .fast, .fastMark, .deepMark, .pages, .pageCache, .frameMap, .blocks, .slots, .migq, .stalled, .stallFail, .plcCh, .plans, .nbus] ps) (hK : SameBut ps s0 s) :
    SameBut ps s0 (progLoad s n c).1 := by
  have w1 : Within [.freeCtr, .csr, .evt, .answers, .stks, .fast, .fastMark, .deepMark, .pages, .pageCache, .frameMap, .blocks, .slots, .migq, .stalled, .stallFail, .plcCh, .plans] ps := Within.trans (by decide +kernel) hW
  have w2 : Within [.nbus] ps := Within.trans (by decide +kernel) hW
  unfold progLoad
  repeat' (first | with_reducible assumption | with_reducible apply ltaRead_same w1
                  | with_reducible apply setNbu_same w2 | with_reducible refine same_fst (by assumption) ?_
                  | extract_lets | split)

theorem bindLoadPart_same {ps : List Part} {s0 : State} {s : State} {n : Nat} {c : NCmd} {i : Nat}
    (hW : Within [.freeCtr, .csr, .evt, .answers, .stks, .fast, .fastMark, .deepMark, .pages, .pageCache, .frameMap, .blocks, .slots, .migq, .stalled, .stallFail, .plcCh, .plans, .nbus] ps) (hK : SameBut ps s0 s) :
    SameBut ps s0 (bindLoadPart s n c i).1 := by
  have w1 : Within [.freeCtr, .csr, .evt, .answers, .stks, .fast, .fastMark, .deepMark, .pages, .pageCache, .frameMap, .blocks, .slots, .migq, .stalled, .stallFail, .plcCh, .plans] ps := Within.trans (by decide +kernel) hW
  have w2 : Within [.nbus] ps := Within.trans (by decide +kernel) hW
  unfold bindLoadPart
  repeat' (first | with_reducible assumption | with_reducible apply ltaRead_same w1
                  | with_reducible apply setNbu_same w2 | with_reducible refine same_fst (by assumption) ?_
                  | extract_lets | split)

theorem bindClearPart_same {ps : List Part} {s0 : State} {s : State} {n : Nat} {c : NCmd} {i : Nat}
    (hW : Within [.nbus] ps) (hK : SameBut ps s0 s) :
    SameBut ps s0 (bindClearPart s n c i).1 := by
  unfold bindClearPart
  repeat' (first | with_reducible assumption | with_reducible apply setNbu_same hW | extract_lets | split)

theorem rederive_same {ps : List Part} {s0 : State} {s : State} {n : Nat} {bind : Bytes} {step : Nat} {t : Nat}
    {i : Nat}
    (hW : Within [.csr, .evt, .answers, .stks, .fastMark, .pages, .frameMap, .blocks, .slots, .migq, .stalled, .stallFail, .plcCh, .plans] ps) (hK : SameBut ps s0 s) :
    SameBut ps s0 (rederive s n bind step t i).1 := by
  unfold rederive
  repeat' (first | with_reducible assumption | with_reducible apply loadTile_same hW
                  | with_reducible refine same_fst (by assumption) ?_ | extract_lets | split)

theorem auditStreams_same {ps : List Part} {s0 : State} {s : State} {n : Nat} {bind : Bytes} {step : Nat} {t : Nat}
    {e0 : List Nat}
    (hW : Within [.csr, .evt, .answers, .stks, .fastMark, .pages, .frameMap, .blocks, .slots, .migq, .stalled, .stallFail, .plcCh, .plans] ps) (hK : SameBut ps s0 s) :
    SameBut ps s0 (auditStreams s n bind step t e0).1 := by
  revert hK
  fun_induction auditStreams s n bind step t e0 <;> intro hK
  all_goals (repeat' (first | with_reducible assumption | with_reducible refine same_fst (by assumption) ?_ | extract_lets))
  all_goals (try (apply_assumption; repeat' (first | with_reducible assumption | with_reducible apply loadTile_same hW
                                                     | with_reducible apply rederive_same hW
                                                     | with_reducible refine same_fst (by assumption) ?_)))

theorem auditPart_same {ps : List Part} {s0 : State} {s : State} {n : Nat} {c : NCmd} {i : Nat}
    (hW : Within [.stamp, .csr, .evt, .answers, .stks, .fastMark, .pages, .pageCache, .holders, .frameMap, .blocks, .slots, .migq, .stalled, .stallFail, .plcCh, .plans, .nbus, .dcache, .outbox, .commit_] ps) (hK : SameBut ps s0 s) :
    SameBut ps s0 (auditPart s n c i).1 := by
  have w1 : Within [.holders] ps := Within.trans (by decide +kernel) hW
  have w2 : Within [.dcache] ps := Within.trans (by decide +kernel) hW
  have w3 : Within [.csr, .pages, .pageCache, .holders, .slots, .migq] ps := Within.trans (by decide +kernel) hW
  have w4 : Within [.csr, .evt, .answers, .stks, .fastMark, .pages, .frameMap, .blocks, .slots, .migq, .stalled, .stallFail, .plcCh, .plans] ps := Within.trans (by decide +kernel) hW
  have w5 : Within [.stamp, .csr, .evt, .answers, .stks, .fastMark, .pages, .frameMap, .blocks, .slots, .migq, .stalled, .stallFail, .plcCh, .plans, .nbus, .outbox, .commit_] ps := Within.trans (by decide +kernel) hW
  unfold auditPart
  repeat' (first | with_reducible assumption | with_reducible apply releasePage_same w1
                  | with_reducible apply releasePages_same w1 | with_reducible apply fencePage_same w2
                  | with_reducible apply acquireAll_same w3 | with_reducible apply nbuBytes_same w4
                  | with_reducible apply placeEdits_same w5 | with_reducible apply auditStreams_same w4
                  | with_reducible refine same_fst (by assumption) ?_
                  | (with_reducible apply same_foldl; (try intros)) | extract_lets | split | dsimp +zetaDelta only)

theorem transposePart_same {ps : List Part} {s0 : State} {s : State} {n : Nat} {c : NCmd} {i : Nat}
    (hW : Within [.stamp, .csr, .evt, .answers, .stks, .fastMark, .pages, .pageCache, .holders, .frameMap, .blocks, .slots, .migq, .stalled, .stallFail, .plcCh, .plans, .nbus, .dcache, .outbox, .commit_] ps) (hK : SameBut ps s0 s) :
    SameBut ps s0 (transposePart s n c i).1 := by
  have w1 : Within [.holders] ps := Within.trans (by decide +kernel) hW
  have w2 : Within [.csr, .pages, .pageCache, .holders, .slots, .migq] ps := Within.trans (by decide +kernel) hW
  have w3 : Within [.csr, .evt, .answers, .stks, .fastMark, .pages, .frameMap, .blocks, .slots, .migq, .stalled, .stallFail, .plcCh, .plans] ps := Within.trans (by decide +kernel) hW
  unfold transposePart
  repeat' (first | with_reducible assumption | with_reducible apply releasePage_same w1
                  | with_reducible apply acquireAll_same w2 | with_reducible apply nbuBytes_same w3
                  | with_reducible apply transposeTile_same hW | with_reducible refine same_fst (by assumption) ?_
                  | extract_lets | split)

theorem jobRead_same {ps : List Part} {s0 : State} {s : State} {n : Nat} {c : NCmd}
    (hW : Within [.freeCtr, .csr, .evt, .answers, .stks, .fast, .fastMark, .deepMark, .pages, .pageCache, .frameMap, .blocks, .slots, .migq, .stalled, .stallFail, .plcCh, .plans] ps) (hK : SameBut ps s0 s) :
    SameBut ps s0 (jobRead s n c).1 := by
  unfold jobRead
  repeat' (first | with_reducible assumption | with_reducible apply ltaRead_same hW
                  | with_reducible refine same_fst (by assumption) ?_ | split)

theorem axpbyPart_same {ps : List Part} {s0 : State} {s : State} {n : Nat} {c : NCmd} {i : Nat}
    (hW : Within [.stamp, .csr, .evt, .answers, .stks, .fastMark, .pages, .pageCache, .holders, .frameMap, .blocks, .slots, .migq, .stalled, .stallFail, .plcCh, .plans, .nbus, .dcache, .outbox, .commit_] ps) (hK : SameBut ps s0 s) :
    SameBut ps s0 (axpbyPart s n c i).1 := by
  have w1 : Within [.holders] ps := Within.trans (by decide +kernel) hW
  have w2 : Within [.dcache] ps := Within.trans (by decide +kernel) hW
  have w3 : Within [.csr, .pages, .pageCache, .holders, .slots, .migq] ps := Within.trans (by decide +kernel) hW
  have w4 : Within [.csr, .evt, .answers, .stks, .fastMark, .pages, .frameMap, .blocks, .slots, .migq, .stalled, .stallFail, .plcCh, .plans] ps := Within.trans (by decide +kernel) hW
  have w5 : Within [.stamp, .csr, .evt, .answers, .stks, .fastMark, .pages, .frameMap, .blocks, .slots, .migq, .stalled, .stallFail, .plcCh, .plans, .nbus, .outbox, .commit_] ps := Within.trans (by decide +kernel) hW
  unfold axpbyPart
  repeat' (first | with_reducible assumption | with_reducible apply releasePages_same w1
                  | with_reducible apply fencePage_same w2 | with_reducible apply acquireAll_same w3
                  | with_reducible apply nbuBytes_same w4 | with_reducible apply placeEdits_same w5
                  | with_reducible refine same_fst (by assumption) ?_ | extract_lets | split)

theorem loadRowsAt_same {ps : List Part} {s0 : State} {s : State} {n : Nat} {base : Nat} {w : Nat} {fmt : Nat}
    {e0 : List Nat}
    (hW : Within [.csr, .evt, .answers, .stks, .fastMark, .pages, .frameMap, .blocks, .slots, .migq, .stalled, .stallFail, .plcCh, .plans] ps) (hK : SameBut ps s0 s) :
    SameBut ps s0 (loadRowsAt s n base w fmt e0).1 := by
  revert hK
  fun_induction loadRowsAt s n base w fmt e0 <;> intro hK
  all_goals (repeat' (first | with_reducible assumption | with_reducible refine same_fst (by assumption) ?_ | extract_lets
                             | dsimp +zetaDelta only))
  all_goals (try (apply_assumption; repeat' (first | with_reducible assumption | with_reducible apply nbuBytes_same hW)))

theorem jobDense_same {ps : List Part} {s0 : State} {s : State} {n : Nat} {c : NCmd} {offs : List Nat}
    {weights : List (List Nat)}
    (hW : Within [.freeCtr, .csr, .evt, .answers, .stks, .fast, .fastMark, .deepMark, .pages, .pageCache, .holders, .frameMap, .blocks, .slots, .migq, .stalled, .stallFail, .plcCh, .plans] ps) (hK : SameBut ps s0 s) :
    SameBut ps s0 (jobDense s n c offs weights).1 := by
  have w1 : Within [.freeCtr, .csr, .evt, .answers, .stks, .fast, .fastMark, .deepMark, .pages, .pageCache, .frameMap, .blocks, .slots, .migq, .stalled, .stallFail, .plcCh, .plans] ps := Within.trans (by decide +kernel) hW
  have w2 : Within [.holders] ps := Within.trans (by decide +kernel) hW
  have w3 : Within [.csr, .pages, .pageCache, .holders, .slots, .migq] ps := Within.trans (by decide +kernel) hW
  have w4 : Within [.csr, .evt, .answers, .stks, .fastMark, .pages, .frameMap, .blocks, .slots, .migq, .stalled, .stallFail, .plcCh, .plans] ps := Within.trans (by decide +kernel) hW
  unfold jobDense
  repeat' (first | with_reducible assumption | with_reducible apply ltaWrite_same w1
                  | with_reducible apply releasePages_same w2 | with_reducible apply acquireAll_same w3
                  | with_reducible apply loadRowsAt_same w4 | with_reducible refine same_fst (by assumption) ?_
                  | extract_lets | split)

theorem gemvPart_same {ps : List Part} {s0 : State} {s : State} {n : Nat} {c : NCmd}
    (hW : Within [.freeCtr, .csr, .evt, .answers, .stks, .fast, .fastMark, .deepMark, .pages, .pageCache, .holders, .frameMap, .blocks, .slots, .migq, .stalled, .stallFail, .plcCh, .plans] ps) (hK : SameBut ps s0 s) :
    SameBut ps s0 (gemvPart s n c).1 := by
  have w1 : Within [.freeCtr, .csr, .evt, .answers, .stks, .fast, .fastMark, .deepMark, .pages, .pageCache, .frameMap, .blocks, .slots, .migq, .stalled, .stallFail, .plcCh, .plans] ps := Within.trans (by decide +kernel) hW
  unfold gemvPart
  repeat' (first | with_reducible assumption | with_reducible apply ltaRead_same w1
                  | with_reducible apply jobDense_same hW | with_reducible refine same_fst (by assumption) ?_
                  | extract_lets | split)

theorem embedPart_same {ps : List Part} {s0 : State} {s : State} {n : Nat} {c : NCmd}
    (hW : Within [.freeCtr, .csr, .evt, .answers, .stks, .fast, .fastMark, .deepMark, .pages, .pageCache, .holders, .frameMap, .blocks, .slots, .migq, .stalled, .stallFail, .plcCh, .plans] ps) (hK : SameBut ps s0 s) :
    SameBut ps s0 (embedPart s n c).1 := by
  have w1 : Within [.freeCtr, .csr, .evt, .answers, .stks, .fast, .fastMark, .deepMark, .pages, .pageCache, .frameMap, .blocks, .slots, .migq, .stalled, .stallFail, .plcCh, .plans] ps := Within.trans (by decide +kernel) hW
  unfold embedPart
  repeat' (first | with_reducible assumption | with_reducible apply ltaRead_same w1
                  | with_reducible apply jobDense_same hW | with_reducible refine same_fst (by assumption) ?_
                  | extract_lets | split)

theorem jobPart1_same {ps : List Part} {s0 : State} {s : State} {n : Nat} {c : NCmd} {i : Nat}
    (hW : Within [.freeCtr, .stamp, .csr, .evt, .answers, .stks, .fast, .fastMark, .deepMark, .pages, .pageCache, .holders, .frameMap, .blocks, .slots, .migq, .stalled, .stallFail, .plcCh, .plans, .nbus, .dcache, .outbox, .commit_] ps) (hK : SameBut ps s0 s) :
    SameBut ps s0 (jobPart1 s n c i).1 := by
  have w1 : Within [.stamp, .csr, .evt, .answers, .stks, .fastMark, .pages, .pageCache, .holders, .frameMap, .blocks, .slots, .migq, .stalled, .stallFail, .plcCh, .plans, .nbus, .dcache, .outbox, .commit_] ps := Within.trans (by decide +kernel) hW
  have w2 : Within [.freeCtr, .csr, .evt, .answers, .stks, .fast, .fastMark, .deepMark, .pages, .pageCache, .holders, .frameMap, .blocks, .slots, .migq, .stalled, .stallFail, .plcCh, .plans] ps := Within.trans (by decide +kernel) hW
  unfold jobPart1
  repeat' (first | with_reducible assumption | with_reducible apply axpbyPart_same w1
                  | with_reducible apply gemvPart_same w2 | with_reducible apply embedPart_same w2 | split)

theorem nbuPart_same {ps : List Part} {s0 : State} {s : State} {n : Nat} {c : NCmd} {i : Nat}
    (hW : Within [.freeCtr, .stamp, .csr, .evt, .answers, .stks, .fast, .fastMark, .deepMark, .pages, .pageCache, .holders, .frameMap, .blocks, .slots, .migq, .stalled, .stallFail, .plcCh, .plans, .nbus, .dcache, .outbox, .commit_] ps) (hK : SameBut ps s0 s) :
    SameBut ps s0 (nbuPart s n c i).1 := by
  have w1 : Within [.freeCtr, .csr, .evt, .answers, .stks, .fast, .fastMark, .deepMark, .pages, .pageCache, .frameMap, .blocks, .slots, .migq, .stalled, .stallFail, .plcCh, .plans, .nbus] ps := Within.trans (by decide +kernel) hW
  have w2 : Within [.nbus] ps := Within.trans (by decide +kernel) hW
  have w3 : Within [.stamp, .csr, .evt, .answers, .stks, .fastMark, .pages, .pageCache, .holders, .frameMap, .blocks, .slots, .migq, .stalled, .stallFail, .plcCh, .plans, .nbus, .dcache, .outbox, .commit_] ps := Within.trans (by decide +kernel) hW
  unfold nbuPart
  repeat' (first | with_reducible assumption | with_reducible apply bindLoadPart_same w1
                  | with_reducible apply bindClearPart_same w2 | with_reducible apply auditPart_same w3
                  | with_reducible apply transposePart_same w3 | split)

theorem nbuTryParts_same {ps : List Part} {s0 : State} {n e0 e1 : Nat} {e2 : State}
    (hW : Within [.freeCtr, .stamp, .csr, .evt, .answers, .stks, .fast, .fastMark, .deepMark, .pages, .pageCache, .holders, .frameMap, .blocks, .slots, .migq, .stalled, .stallFail, .plcCh, .plans, .nbus, .dcache, .outbox, .commit_] ps)
    (hK : SameBut ps s0 e2) :
    SameBut ps s0 (nbuTryParts n e0 e1 e2) := by
  induction e0 generalizing e1 e2 with
  | zero => exact hK
  | succ f ih =>
    unfold nbuTryParts
    split
    · exact hK
    · apply ih
      split
      · split
        rename_i e
        exact putCmd_same (Within.trans (by decide +kernel) hW) (same_fst e (nbuPart_same (Within.trans (by decide +kernel) hW) hK))
      · exact hK

theorem nbuTry_same {ps : List Part} {s0 : State} {s : State} {n : Nat}
    (hW : Within [.freeCtr, .stamp, .csr, .evt, .answers, .stks, .fast, .fastMark, .deepMark, .pages, .pageCache, .holders, .frameMap, .blocks, .slots, .migq, .stalled, .stallFail, .plcCh, .plans, .nbus, .dcache, .outbox, .commit_] ps) (hK : SameBut ps s0 s) :
    SameBut ps s0 (nbuTry s n) := by
  have w1 : Within [.nbus] ps := Within.trans (by decide +kernel) hW
  have w2 : Within [.freeCtr, .csr, .evt, .answers, .stks, .fast, .fastMark, .deepMark, .pages, .pageCache, .frameMap, .blocks, .slots, .migq, .stalled, .stallFail, .plcCh, .plans, .nbus] ps := Within.trans (by decide +kernel) hW
  have w3 : Within [.freeCtr, .csr, .evt, .answers, .stks, .fast, .fastMark, .deepMark, .pages, .pageCache, .frameMap, .blocks, .slots, .migq, .stalled, .stallFail, .plcCh, .plans] ps := Within.trans (by decide +kernel) hW
  unfold nbuTry
  repeat' (first | with_reducible assumption | with_reducible apply setNbu_same w1
                  | with_reducible apply putCmd_same w1 | with_reducible apply progLoad_same w2
                  | with_reducible apply jobRead_same w3 | with_reducible apply nbuTryParts_same hW | extract_lets
                  | split)

theorem nbuIssue_same {ps : List Part} {s0 : State} {s : State} {i : Initiator} {n : Nat} {op : Nat} {evt : Bool}
    (hW : Within [.freeCtr, .stamp, .csr, .evt, .answers, .stks, .fast, .fastMark, .deepMark, .pages, .pageCache, .holders, .frameMap, .blocks, .slots, .migq, .stalled, .stallFail, .plcCh, .plans, .nbus, .dcache, .outbox, .commit_] ps) (hK : SameBut ps s0 s) :
    SameBut ps s0 (nbuIssue s i n op evt) := by
  have w1 : Within [.csr, .evt] ps := Within.trans (by decide +kernel) hW
  have w2 : Within [.nbus] ps := Within.trans (by decide +kernel) hW
  unfold nbuIssue
  repeat' (first | with_reducible assumption | with_reducible apply violation_same w1
                  | with_reducible apply putCmd_same w2 | with_reducible apply nbuTry_same hW | extract_lets | split)

theorem execJobPart_same {ps : List Part} {s0 : State} {n : Fin 48} {s : State}
    (hW : Within [.freeCtr, .stamp, .csr, .evt, .answers, .stks, .fast, .fastMark, .deepMark, .pages, .pageCache, .holders, .frameMap, .blocks, .slots, .migq, .stalled, .stallFail, .plcCh, .plans, .nbus, .dcache, .outbox, .commit_] ps) (hK : SameBut ps s0 s) :
    OutSame ps s0 (execJobPart n s) := by
  have w1 : Within [.nbus] ps := Within.trans (by decide +kernel) hW
  have w2 : Within [.answers] ps := Within.trans (by decide +kernel) hW
  unfold execJobPart
  repeat' (first | with_reducible assumption | with_reducible apply putCmd_same w1
                  | with_reducible apply jobPart1_same hW | with_reducible apply outSame_next
                  | simp only [same_mk_answers w2] | split)

theorem execNbuCmdDone_same {ps : List Part} {s0 : State} {n : Fin 48} {s : State}
    (hW : Within [.freeCtr, .stamp, .csr, .evt, .answers, .stks, .fast, .fastMark, .deepMark, .pages, .pageCache, .holders, .frameMap, .blocks, .slots, .migq, .stalled, .stallFail, .plcCh, .plans, .nbus, .dcache, .outbox, .commit_] ps) (hK : SameBut ps s0 s) :
    OutSame ps s0 (execNbuCmdDone n s) := by
  have w1 : Within [.csr] ps := Within.trans (by decide +kernel) hW
  have w2 : Within [.csr, .evt] ps := Within.trans (by decide +kernel) hW
  have w3 : Within [.holders] ps := Within.trans (by decide +kernel) hW
  have w4 : Within [.nbus] ps := Within.trans (by decide +kernel) hW
  have w5 : Within [.answers] ps := Within.trans (by decide +kernel) hW
  unfold execNbuCmdDone
  repeat' (first | with_reducible assumption | with_reducible apply wr_same w1 | with_reducible apply raise_same w2
                  | with_reducible apply releasePages_same w3 | with_reducible apply putCmd_same w4
                  | with_reducible apply nbuTry_same hW | with_reducible apply outSame_next
                  | simp only [same_mk_answers w5] | extract_lets | split)

theorem nbuAcceptEff_same {ps : List Part} {s0 : State} {s : State} {n : Nat} {was : Bool} {now : Bool}
    (hW : Within [.nbus] ps) (hK : SameBut ps s0 s) :
    SameBut ps s0 (nbuAcceptEff s n was now) := by
  unfold nbuAcceptEff
  repeat' (first | with_reducible assumption | with_reducible apply setNbu_same hW | extract_lets | split)

theorem nbuReset_same {ps : List Part} {s0 : State} {s : State} {n : Nat} {cold : Bool}
    (hW : Within [.holders, .nbus, .rowsInFlight] ps) (hK : SameBut ps s0 s) :
    SameBut ps s0 (nbuReset s n cold) := by
  have w1 : Within [.nbus] ps := Within.trans (by decide +kernel) hW
  have w2 : Within [.holders] ps := Within.trans (by decide +kernel) hW
  have w3 : Within [.rowsInFlight] ps := Within.trans (by decide +kernel) hW
  unfold nbuReset
  repeat' (first | with_reducible assumption | with_reducible apply setNbu_same w1
                  | with_reducible apply releasePages_same w2 | simp only [same_mk_rowsInFlight w3] | split)

theorem nbuEpochLine_same {ps : List Part} {s0 : State} {s : State} {n : Nat} {c : CLine}
    (hW : Within [.nbus] ps) (hK : SameBut ps s0 s) :
    SameBut ps s0 (nbuEpochLine s n c).1 := by
  unfold nbuEpochLine
  repeat' (first | with_reducible assumption | with_reducible apply setNbu_same hW | extract_lets | split)

theorem nbuEpochLines_same {ps : List Part} {s0 : State} {n : Nat} {e0 : State} {e1 : List CLine}
    (hW : Within [.nbus] ps) (hK : SameBut ps s0 e0) :
    SameBut ps s0 (nbuEpochLines n e0 e1).1 := by
  revert hK
  fun_induction nbuEpochLines n e0 e1 <;> intro hK
  all_goals (repeat' (first | with_reducible assumption | with_reducible refine same_fst (by assumption) ?_ | extract_lets))
  all_goals (try (apply_assumption; repeat' (first | with_reducible assumption | with_reducible apply nbuEpochLine_same hW
                                                     | with_reducible refine same_fst (by assumption) ?_)))

theorem nbuEpoch_same {ps : List Part} {s0 : State} {s : State} {n : Nat}
    (hW : Within [.csr, .evt, .nbus, .outbox, .commit_] ps) (hK : SameBut ps s0 s) :
    SameBut ps s0 (nbuEpoch s n) := by
  have w1 : Within [.nbus] ps := Within.trans (by decide +kernel) hW
  have w2 : Within [.csr, .evt, .outbox] ps := Within.trans (by decide +kernel) hW
  have w3 : Within [.commit_] ps := Within.trans (by decide +kernel) hW
  unfold nbuEpoch
  repeat' (first | with_reducible assumption | with_reducible apply setNbu_same w1
                  | with_reducible apply resendAll_same w2 | with_reducible apply nbuEpochLines_same w1
                  | simp only [same_mk_commit w3] | (with_reducible apply same_foldl; (try intros)))

end Sys2Proof.Machine
end

