-- ==== Sys2Proof/Laws/FrameRelay.lean ====
section
/-! SUPPORT. What the functions of Machine/Relay.lean leave unchanged (see Laws/Frame.lean). -/

set_option Elab.async false -- many small kernel checks: one thread does them
set_option linter.unusedSimpArgs false
set_option simprocs false -- no numeral of a goal is evaluated in these proofs

namespace Sys2Proof.Machine

theorem setRly_same {ps : List Part} {s0 : State} {s : State} {e : Nat} {v : Rly}
    (hW : Within [.rlys] ps) (hK : SameBut ps s0 s) :
    SameBut ps s0 (setRly s e v) := by
  unfold setRly
  repeat' (first | with_reducible assumption | simp only [same_mk_rlys hW])

theorem ringPush_same {ps : List Part} {s0 : State} {s : State} {ini : Initiator} {piA : Nat} {ciA : Nat}
    {log2 : Nat} {v : Nat}
    (hW : Within [.csr, .evt] ps) (hK : SameBut ps s0 s) :
    SameBut ps s0 (ringPush s ini piA ciA log2 v) := by
  have w1 : Within [.csr] ps := Within.trans (by decide +kernel) hW
  unfold ringPush
  repeat' (first | with_reducible assumption | with_reducible apply setFld_same w1
                  | with_reducible apply violation_same hW | extract_lets | split)

theorem ringFetch_same {ps : List Part} {s0 : State} {s : State} {key : Nat} {base : Nat} {log2 : Nat} {ci : Nat}
    {n : Nat}
    (hW : Within [.freeCtr, .csr, .evt, .answers, .stks, .fast, .fastMark, .deepMark, .pages, .pageCache, .frameMap, .blocks, .slots, .migq, .stalled, .stallFail, .plcCh, .plans] ps) (hK : SameBut ps s0 s) :
    SameBut ps s0 (ringFetch s key base log2 ci n).1 := by
  unfold ringFetch
  repeat' (first | with_reducible assumption | with_reducible apply ltaRead_same hW
                  | with_reducible refine same_fst (by assumption) ?_ | split)

theorem rlyFinish_same {ps : List Part} {s0 : State} {s : State} {e : Nat} {b : Bytes} {r : Report} {count : Nat}
    {bstat : Option Nat} {rebuild : Bool}
    (hW : Within [.rlys] ps) (hK : SameBut ps s0 s) :
    SameBut ps s0 (rlyFinish s e b r count bstat rebuild) := by
  unfold rlyFinish
  repeat' (first | with_reducible assumption | with_reducible apply setRly_same hW)

theorem rlyCapture_same {ps : List Part} {s0 : State} {s : State} {e : Nat} {st : Nat} {b : Bytes}
    (hW : Within [.csr] ps) (hK : SameBut ps s0 s) :
    SameBut ps s0 (rlyCapture s e st b) := by
  unfold rlyCapture
  repeat' (first | with_reducible assumption | with_reducible apply wr_same hW | split)

theorem rlyEvent_same {ps : List Part} {s0 : State} {s : State} {e : Nat} {f : RFin}
    (hW : Within [.csr, .evt] ps) (hK : SameBut ps s0 s) :
    SameBut ps s0 (rlyEvent s e f) := by
  unfold rlyEvent
  repeat' (first | with_reducible assumption | with_reducible apply raise_same hW | extract_lets | split)

theorem rlySignal_same {ps : List Part} {s0 : State} {s : State} {b : Bytes}
    (hW : Within [.csr, .evt, .cores] ps) (hK : SameBut ps s0 s) :
    SameBut ps s0 (rlySignal s b) := by
  unfold rlySignal
  repeat' (first | with_reducible assumption | with_reducible apply sbSet_same hW | split)

theorem finDuties_same {ps : List Part} {s0 : State} {s : State} {e : Nat} {f : RFin}
    (hW : Within [.csr, .evt, .cores] ps) (hK : SameBut ps s0 s) :
    SameBut ps s0 (finDuties s e f) := by
  have w1 : Within [.csr] ps := Within.trans (by decide +kernel) hW
  have w2 : Within [.csr, .evt] ps := Within.trans (by decide +kernel) hW
  unfold finDuties
  repeat' (first | with_reducible assumption | with_reducible apply rlyCapture_same w1
                  | with_reducible apply rlyEvent_same w2 | with_reducible apply rlySignal_same hW | extract_lets
                  | split | dsimp +zetaDelta only)

theorem finOne_same {ps : List Part} {s0 : State} {s : State} {e : Nat} {f : RFin}
    (hW : Within [.freeCtr, .csr, .evt, .cores, .answers, .stks, .fast, .fastMark, .deepMark, .pages, .pageCache, .frameMap, .blocks, .slots, .migq, .stalled, .stallFail, .plcCh, .plans] ps) (hK : SameBut ps s0 s) :
    SameBut ps s0 (finOne s e f).1 := by
  have w1 : Within [.freeCtr, .csr, .evt, .answers, .stks, .fast, .fastMark, .deepMark, .pages, .pageCache, .frameMap, .blocks, .slots, .migq, .stalled, .stallFail, .plcCh, .plans] ps := Within.trans (by decide +kernel) hW
  have w2 : Within [.csr, .evt, .cores] ps := Within.trans (by decide +kernel) hW
  unfold finOne
  repeat' (first | with_reducible assumption | with_reducible apply ltaWrite_same w1
                  | with_reducible apply finDuties_same w2 | with_reducible refine same_fst (by assumption) ?_
                  | extract_lets | split)

theorem runFins_same {ps : List Part} {s0 : State} {e : Nat} {e0 : State} {e1 : List RFin}
    (hW : Within [.freeCtr, .csr, .evt, .cores, .answers, .stks, .fast, .fastMark, .deepMark, .pages, .pageCache, .frameMap, .blocks, .slots, .migq, .stalled, .stallFail, .plcCh, .plans, .rlys] ps) (hK : SameBut ps s0 e0) :
    SameBut ps s0 (runFins e e0 e1) := by
  have w1 : Within [.rlys] ps := Within.trans (by decide +kernel) hW
  have w2 : Within [.freeCtr, .csr, .evt, .cores, .answers, .stks, .fast, .fastMark, .deepMark, .pages, .pageCache, .frameMap, .blocks, .slots, .migq, .stalled, .stallFail, .plcCh, .plans] ps := Within.trans (by decide +kernel) hW
  revert hK
  fun_induction runFins e e0 e1 <;> intro hK
  all_goals (repeat' (first | with_reducible assumption | dsimp +zetaDelta only))
  all_goals (try (apply_assumption; repeat' (first | with_reducible assumption | with_reducible apply setRly_same w1
                                                     | with_reducible apply finOne_same w2
                                                     | with_reducible refine same_fst (by assumption) ?_)))

theorem setBkt_same {ps : List Part} {s0 : State} {s : State} {e : Nat} {k : Bucket}
    (hW : Within [.rlys] ps) (hK : SameBut ps s0 s) :
    SameBut ps s0 (setBkt s e k) := by
  unfold setBkt
  repeat' (first | with_reducible assumption | with_reducible apply setRly_same hW)

theorem setRow_same {ps : List Part} {s0 : State} {s : State} {e : Nat} {k : Bucket} {b : Nat} {r : RRow}
    (hW : Within [.rlys] ps) (hK : SameBut ps s0 s) :
    SameBut ps s0 (setRow s e k b r) := by
  unfold setRow
  repeat' (first | with_reducible assumption | with_reducible apply setBkt_same hW)

theorem endRow_same {ps : List Part} {s0 : State} {s : State} {e : Nat} {tag : Nat} {b : Nat} {st : Nat}
    (hW : Within [.csr, .rlys] ps) (hK : SameBut ps s0 s) :
    SameBut ps s0 (endRow s e tag b st) := by
  have w1 : Within [.csr] ps := Within.trans (by decide +kernel) hW
  have w2 : Within [.rlys] ps := Within.trans (by decide +kernel) hW
  unfold endRow
  repeat' (first | with_reducible assumption | with_reducible apply bumpStat_same w1
                  | with_reducible apply setRly_same w2 | with_reducible apply setRow_same w2 | extract_lets | split)

theorem sendResends_same {ps : List Part} {s0 : State} {s : State} {e : Nat} {k : Bucket} {b : Nat}
    (hW : Within [.csr, .evt, .outbox] ps) (hK : SameBut ps s0 s) :
    SameBut ps s0 (sendResends s e k b) := by
  have w1 : Within [.csr, .evt] ps := Within.trans (by decide +kernel) hW
  have w2 : Within [.outbox] ps := Within.trans (by decide +kernel) hW
  unfold sendResends
  repeat' (first | with_reducible assumption | with_reducible apply bumpOcc_same w1
                  | with_reducible apply send_same w2 | (with_reducible apply same_foldl; (try intros))
                  | extract_lets | split)

theorem rowFailed_same {ps : List Part} {s0 : State} {s : State} {e : Nat} {tag : Nat} {b : Nat} {st : Nat}
    (hW : Within [.csr, .evt, .outbox, .rlys] ps) (hK : SameBut ps s0 s) :
    SameBut ps s0 (rowFailed s e tag b st) := by
  have w1 : Within [.csr, .evt] ps := Within.trans (by decide +kernel) hW
  have w2 : Within [.rlys] ps := Within.trans (by decide +kernel) hW
  have w3 : Within [.csr, .rlys] ps := Within.trans (by decide +kernel) hW
  have w4 : Within [.csr, .evt, .outbox] ps := Within.trans (by decide +kernel) hW
  unfold rowFailed
  repeat' (first | with_reducible assumption | with_reducible apply bumpOcc_same w1
                  | with_reducible apply setRly_same w2 | with_reducible apply setRow_same w2
                  | with_reducible apply endRow_same w3 | with_reducible apply sendResends_same w4 | extract_lets
                  | split)

theorem queueRow_same {ps : List Part} {s0 : State} {s : State} {e : Nat} {tag : Nat} {b : Nat}
    (hW : Within [.rlys] ps) (hK : SameBut ps s0 s) :
    SameBut ps s0 (queueRow s e tag b) := by
  unfold queueRow
  repeat' (first | with_reducible assumption | with_reducible apply setRly_same hW
                  | with_reducible apply setRow_same hW | split)

theorem rowSettle_same {ps : List Part} {s0 : State} {s : State} {e : Nat} {tag : Nat} {b : Nat}
    (hW : Within [.csr, .evt, .outbox, .rlys] ps) (hK : SameBut ps s0 s) :
    SameBut ps s0 (rowSettle s e tag b) := by
  have w1 : Within [.rlys] ps := Within.trans (by decide +kernel) hW
  unfold rowSettle
  repeat' (first | with_reducible assumption | with_reducible apply rowFailed_same hW
                  | with_reducible apply queueRow_same w1 | extract_lets | split)

theorem takeSource_same {ps : List Part} {s0 : State} {s : State} {e : Nat} {tag : Nat} {b : Nat} {c : Nat}
    {X : Nat} {ms : List Int} {t : Taker}
    (hW : Within [.csr, .evt, .rlys] ps) (hK : SameBut ps s0 s) :
    SameBut ps s0 (takeSource s e tag b c X ms t) := by
  have w1 : Within [.csr] ps := Within.trans (by decide +kernel) hW
  have w2 : Within [.csr, .evt] ps := Within.trans (by decide +kernel) hW
  have w3 : Within [.rlys] ps := Within.trans (by decide +kernel) hW
  unfold takeSource
  repeat' (first | with_reducible assumption | with_reducible apply bumpStat_same w1
                  | with_reducible apply raise_same w2 | with_reducible apply bumpOcc_same w2
                  | with_reducible apply setRow_same w3 | extract_lets | split | dsimp +zetaDelta only)

theorem ringTaken_same {ps : List Part} {s0 : State} {s : State} {ciA : Nat}
    (hW : Within [.csr] ps) (hK : SameBut ps s0 s) :
    SameBut ps s0 (ringTaken s ciA) := by
  unfold ringTaken
  repeat' (first | with_reducible assumption | with_reducible apply setFld_same hW)

theorem sqHead_same {ps : List Part} {s0 : State} {s : State} {e : Nat} {q : Nat}
    (hW : Within [.freeCtr, .csr, .evt, .answers, .stks, .fast, .fastMark, .deepMark, .pages, .pageCache, .frameMap, .blocks, .slots, .migq, .stalled, .stallFail, .plcCh, .plans] ps) (hK : SameBut ps s0 s) :
    SameBut ps s0 (sqHead s e q).1 := by
  have w1 : Within [.csr] ps := Within.trans (by decide +kernel) hW
  unfold sqHead
  repeat' (first | with_reducible assumption | with_reducible apply ringFetch_same hW
                  | with_reducible apply ringTaken_same w1 | with_reducible refine same_fst (by assumption) ?_
                  | extract_lets | split)

theorem openTake_same {ps : List Part} {s0 : State} {s : State} {e : Nat} {q : Nat} {b : Bytes}
    (hW : Within [.freeCtr, .csr, .evt, .answers, .stks, .fast, .fastMark, .deepMark, .pages, .pageCache, .frameMap, .blocks, .slots, .migq, .stalled, .stallFail, .plcCh, .plans, .rlys] ps) (hK : SameBut ps s0 s) :
    SameBut ps s0 (openTake s e q b) := by
  have w1 : Within [.freeCtr, .csr, .evt, .answers, .stks, .fast, .fastMark, .deepMark, .pages, .pageCache, .frameMap, .blocks, .slots, .migq, .stalled, .stallFail, .plcCh, .plans] ps := Within.trans (by decide +kernel) hW
  have w2 : Within [.rlys] ps := Within.trans (by decide +kernel) hW
  have w3 : Within [.csr] ps := Within.trans (by decide +kernel) hW
  unfold openTake
  repeat' (first | with_reducible assumption | with_reducible apply ltaRead_same w1
                  | with_reducible apply setRly_same w2 | with_reducible apply rlyFinish_same w2
                  | with_reducible apply ringTaken_same w3 | with_reducible refine same_fst (by assumption) ?_
                  | extract_lets | split)

theorem sendAnswer_same {ps : List Part} {s0 : State} {s : State} {r : Bytes} {code : Nat} {notTaken : Nat}
    {bst : Nat}
    (hW : Within [.outbox] ps) (hK : SameBut ps s0 s) :
    SameBut ps s0 (sendAnswer s r code notTaken bst) := by
  unfold sendAnswer
  repeat' (first | with_reducible assumption | with_reducible apply send_same hW)

theorem settleRows_same {ps : List Part} {s0 : State} {e : Nat} {tag : Nat} {c : Nat} {t : Taker} {e0 : State}
    {e1 : List (Nat × Nat × Nat × List Int)}
    (hW : Within [.csr, .evt, .rlys] ps) (hK : SameBut ps s0 e0) :
    SameBut ps s0 (settleRows e tag c t e0 e1).1 := by
  have w1 : Within [.rlys] ps := Within.trans (by decide +kernel) hW
  revert hK
  fun_induction settleRows e tag c t e0 e1 <;> intro hK
  all_goals (repeat' (first | with_reducible assumption | with_reducible refine same_fst (by assumption) ?_ | extract_lets))
  all_goals (try (apply_assumption; repeat' (first | with_reducible assumption | with_reducible apply setRow_same w1
                                                     | with_reducible apply takeSource_same hW
                                                     | with_reducible refine same_fst (by assumption) ?_
                                                     | extract_lets | split)))

theorem contribTake_same {ps : List Part} {s0 : State} {s : State} {e tag c tile : Nat} {t : Taker} {k : Bucket}
    {r : Bytes}
    (hW : Within [.csr, .evt, .outbox, .rlys] ps) (hK : SameBut ps s0 s) : SameBut ps s0 (contribTake s e tag c tile t k r) := by
  have ha : ∀ {s r a b c}, SameBut ps s0 s → SameBut ps s0 (sendAnswer s r a b c) :=
    fun h => sendAnswer_same (Within.trans (by decide +kernel) hW) h
  unfold contribTake
  extract_lets s2 rows holds no s3 s4
  have h2 : SameBut ps s0 s2 := setBkt_same (Within.trans (by decide +kernel) hW) hK
  have h3 : SameBut ps s0 no.1 := settleRows_same (Within.trans (by decide +kernel) hW) h2
  have h4 : SameBut ps s0 s4 := ha (bumpOcc_same (Within.trans (by decide +kernel) hW) h3)
  clear_value s4 s3 no
  split
  · exact ha h2
  split
  · exact ha h2
  · exact same_foldl (fun s x h => rowSettle_same (Within.trans (by decide +kernel) hW) h) _ _ h4

theorem closedAnswer_same {ps : List Part} {s0 : State} {s : State} {r : Bytes} {step : Serial} {st : Nat}
    (hW : Within [.outbox] ps) (hK : SameBut ps s0 s) :
    SameBut ps s0 (closedAnswer s r step st) := by
  unfold closedAnswer
  repeat' (first | with_reducible assumption | with_reducible apply sendAnswer_same hW | split)

theorem contribOpen_same {ps : List Part} {s0 : State} {s : State} {e : Nat} {tag : Nat} {c : Nat} {tile : Nat}
    {t : Taker} {k : Bucket} {r : Bytes} {step : Serial}
    (hW : Within [.csr, .evt, .outbox, .rlys] ps) (hK : SameBut ps s0 s) :
    SameBut ps s0 (contribOpen s e tag c tile t k r step) := by
  have w1 : Within [.outbox] ps := Within.trans (by decide +kernel) hW
  unfold contribOpen
  repeat' (first | with_reducible assumption | with_reducible apply sendAnswer_same w1
                  | with_reducible apply contribTake_same hW | split)

theorem contribFor_same {ps : List Part} {s0 : State} {s : State} {e tag c tile step : Nat} {t : Taker} {r : Bytes}
    (hW : Within [.csr, .evt, .outbox, .rlys] ps) (hK : SameBut ps s0 s) : SameBut ps s0 (contribFor s e tag c tile step t r) := by
  unfold contribFor
  cases bktOf s e tag with
  | none =>
    cases smGet none (rlyOf s e).closed tag with
    | none => exact sendAnswer_same (Within.trans (by decide +kernel) hW) hK
    | some k => exact closedAnswer_same (Within.trans (by decide +kernel) hW) hK
  | some k => exact contribOpen_same (Within.trans (by decide +kernel) hW) hK

theorem contribEff_same {ps : List Part} {s0 : State} {s : State} {e : Nat} {r : Bytes}
    (hW : Within [.csr, .evt, .outbox, .rlys] ps) (hK : SameBut ps s0 s) :
    SameBut ps s0 (contribEff s e r) := by
  have w1 : Within [.csr] ps := Within.trans (by decide +kernel) hW
  have w2 : Within [.outbox] ps := Within.trans (by decide +kernel) hW
  unfold contribEff
  repeat' (first | with_reducible assumption | with_reducible apply bumpStat_same w1
                  | with_reducible apply sendAnswer_same w2 | with_reducible apply contribFor_same hW | extract_lets
                  | split)

theorem takeHeld_same {ps : List Part} {s0 : State} {e : Nat} {tag : Nat} {b : Nat} {s : State}
    {x : Nat × Option HeldSub}
    (hW : Within [.csr, .evt, .rlys] ps) (hK : SameBut ps s0 s) :
    SameBut ps s0 (takeHeld e tag b s x) := by
  have w1 : Within [.rlys] ps := Within.trans (by decide +kernel) hW
  unfold takeHeld
  repeat' (first | with_reducible assumption | with_reducible apply setRow_same w1
                  | with_reducible apply takeSource_same hW | extract_lets | split)

theorem deadlineEff_same {ps : List Part} {s0 : State} {s : State} {e : Nat} {tag : Nat}
    (hW : Within [.csr, .evt, .outbox, .rlys] ps) (hK : SameBut ps s0 s) :
    SameBut ps s0 (deadlineEff s e tag) := by
  have w1 : Within [.csr, .evt] ps := Within.trans (by decide +kernel) hW
  have w2 : Within [.rlys] ps := Within.trans (by decide +kernel) hW
  have w3 : Within [.csr, .evt, .rlys] ps := Within.trans (by decide +kernel) hW
  unfold deadlineEff
  repeat' (first | with_reducible assumption | with_reducible apply raise_same w1
                  | with_reducible apply setBkt_same w2 | with_reducible apply rowSettle_same hW
                  | with_reducible apply takeHeld_same w3 | (with_reducible apply same_foldl; (try intros))
                  | extract_lets | split)

theorem hardEff_same {ps : List Part} {s0 : State} {s : State} {e : Nat} {tag : Nat}
    (hW : Within [.csr, .rlys] ps) (hK : SameBut ps s0 s) :
    SameBut ps s0 (hardEff s e tag) := by
  unfold hardEff
  repeat' (first | with_reducible assumption | with_reducible apply endRow_same hW
                  | (with_reducible apply same_foldl; (try intros)) | split)

theorem deliverNext_same {ps : List Part} {s0 : State} {s : State} {e : Nat} {e0 : List (Nat × Nat)}
    (hW : Within [.csr, .evt, .nbus, .rowsInFlight, .outbox, .rlys] ps) (hK : SameBut ps s0 s) :
    SameBut ps s0 (deliverNext s e e0) := by
  have w1 : Within [.nbus] ps := Within.trans (by decide +kernel) hW
  have w2 : Within [.rlys] ps := Within.trans (by decide +kernel) hW
  have w3 : Within [.csr, .rlys] ps := Within.trans (by decide +kernel) hW
  have w4 : Within [.csr, .evt, .outbox, .rlys] ps := Within.trans (by decide +kernel) hW
  have w5 : Within [.rowsInFlight] ps := Within.trans (by decide +kernel) hW
  revert hK
  fun_induction deliverNext s e e0 <;> intro hK
  all_goals (repeat' (first | with_reducible assumption | with_reducible apply setNbu_same w1
                             | with_reducible apply setRly_same w2 | with_reducible apply setRow_same w2
                             | with_reducible apply endRow_same w3 | with_reducible apply rowFailed_same w4
                             | simp only [same_mk_rowsInFlight w5]))
  all_goals (try (apply_assumption; repeat' (with_reducible assumption)))

theorem resendRow_same {ps : List Part} {s0 : State} {s : State} {e : Nat} {tag : Nat} {b : Nat}
    (hW : Within [.csr, .evt, .rlys] ps) (hK : SameBut ps s0 s) :
    SameBut ps s0 (resendRow s e tag b) := by
  have w1 : Within [.csr, .evt] ps := Within.trans (by decide +kernel) hW
  have w2 : Within [.rlys] ps := Within.trans (by decide +kernel) hW
  unfold resendRow
  repeat' (first | with_reducible assumption | with_reducible apply bumpOcc_same w1
                  | with_reducible apply queueRow_same w2)

theorem nbuAnswerEff_same {ps : List Part} {s0 : State} {s : State} {e : Nat} {a : Bytes}
    (hW : Within [.csr, .evt, .outbox, .rlys] ps) (hK : SameBut ps s0 s) :
    SameBut ps s0 (nbuAnswerEff s e a) := by
  have w1 : Within [.csr, .evt] ps := Within.trans (by decide +kernel) hW
  have w2 : Within [.rlys] ps := Within.trans (by decide +kernel) hW
  have w3 : Within [.csr, .rlys] ps := Within.trans (by decide +kernel) hW
  have w4 : Within [.csr, .evt, .rlys] ps := Within.trans (by decide +kernel) hW
  unfold nbuAnswerEff
  repeat' (first | with_reducible assumption | with_reducible apply raise_same w1
                  | with_reducible apply setRly_same w2 | with_reducible apply setRow_same w2
                  | with_reducible apply endRow_same w3 | with_reducible apply rowFailed_same hW
                  | with_reducible apply resendRow_same w4 | extract_lets | split)

theorem cancelRows_same {ps : List Part} {s0 : State} {s : State} {e : Nat} {k : Bucket}
    (hW : Within [.csr, .rlys] ps) (hK : SameBut ps s0 s) :
    SameBut ps s0 (cancelRows s e k) := by
  unfold cancelRows
  repeat' (first | with_reducible assumption | with_reducible apply endRow_same hW
                  | (with_reducible apply same_foldl; (try intros)))

theorem releaseRows_same {ps : List Part} {s0 : State} {s : State} {e : Nat} {k : Bucket} {again : Bool}
    (hW : Within [.csr, .evt, .rlys] ps) (hK : SameBut ps s0 s) :
    SameBut ps s0 (releaseRows s e k again) := by
  have w1 : Within [.csr, .rlys] ps := Within.trans (by decide +kernel) hW
  unfold releaseRows
  repeat' (first | with_reducible assumption | with_reducible apply endRow_same w1
                  | with_reducible apply resendRow_same hW | (with_reducible apply same_foldl; (try intros))
                  | extract_lets | split)

theorem sendDone_same {ps : List Part} {s0 : State} {s : State} {d : RDone}
    (hW : Within [.outbox] ps) (hK : SameBut ps s0 s) :
    SameBut ps s0 (sendDone s d) := by
  unfold sendDone
  repeat' (first | with_reducible assumption | with_reducible apply send_same hW)

theorem optWrite_same {ps : List Part} {s0 : State} {s : State} {key : Nat} {addr : Nat} {bs : Bytes}
    (hW : Within [.freeCtr, .csr, .evt, .answers, .stks, .fast, .fastMark, .deepMark, .pages, .pageCache, .frameMap, .blocks, .slots, .migq, .stalled, .stallFail, .plcCh, .plans] ps) (hK : SameBut ps s0 s) :
    SameBut ps s0 (optWrite s key addr bs).1 := by
  unfold optWrite
  repeat' (first | with_reducible assumption | with_reducible apply ltaWrite_same hW
                  | with_reducible refine same_fst (by assumption) ?_ | split)

theorem closeBucket_same {ps : List Part} {s0 : State} {e : Nat} {s : State} {k : Bucket}
    (hW : Within [.freeCtr, .csr, .evt, .answers, .stks, .fast, .fastMark, .deepMark, .pages, .pageCache, .frameMap, .blocks, .slots, .migq, .stalled, .stallFail, .plcCh, .plans, .outbox, .rlys] ps) (hK : SameBut ps s0 s) :
    SameBut ps s0 (closeBucket e s k) := by
  have w1 : Within [.rlys] ps := Within.trans (by decide +kernel) hW
  have w2 : Within [.outbox] ps := Within.trans (by decide +kernel) hW
  have w3 : Within [.freeCtr, .csr, .evt, .answers, .stks, .fast, .fastMark, .deepMark, .pages, .pageCache, .frameMap, .blocks, .slots, .migq, .stalled, .stallFail, .plcCh, .plans] ps := Within.trans (by decide +kernel) hW
  unfold closeBucket
  repeat' (first | with_reducible assumption | with_reducible apply setRly_same w1
                  | with_reducible apply rlyFinish_same w1 | with_reducible apply sendDone_same w2
                  | with_reducible apply optWrite_same w3 | with_reducible refine same_fst (by assumption) ?_
                  | (with_reducible apply same_foldl; (try intros)) | extract_lets | split)

end Sys2Proof.Machine
end

