-- ==== Sys2Proof/Laws/FrameRelaySend.lean ====
section
/-! SUPPORT. What the functions of Machine/RelaySend.lean leave unchanged (see Laws/Frame.lean). -/

set_option Elab.async false -- many small kernel checks: one thread does them
set_option linter.unusedSimpArgs false
set_option simprocs false -- no numeral of a goal is evaluated in these proofs

namespace Sys2Proof.Machine

theorem stageTile_same {ps : List Part} {s0 : State} {s : State} {e : Nat} {x : RSend} {j : Nat} {mask : Nat}
    (hW : Within [.freeCtr, .csr, .evt, .answers, .stks, .fast, .fastMark, .deepMark, .pages, .pageCache, .frameMap, .blocks, .slots, .migq, .stalled, .stallFail, .plcCh, .plans] ps) (hK : SameBut ps s0 s) :
    SameBut ps s0 (stageTile s e x j mask).1 := by
  unfold stageTile
  repeat' (first | with_reducible assumption | with_reducible apply ltaRead_same hW
                  | with_reducible refine same_fst (by assumption) ?_ | extract_lets | split)

theorem setSend_same {ps : List Part} {s0 : State} {s : State} {e : Nat} {x : RSend}
    (hW : Within [.rlys] ps) (hK : SameBut ps s0 s) :
    SameBut ps s0 (setSend s e x) := by
  unfold setSend
  repeat' (first | with_reducible assumption | with_reducible apply setRly_same hW)

theorem sendContrib_same {ps : List Part} {s0 : State} {s : State} {e : Nat} {dev : Nat} {r : Bytes}
    (hW : Within [.csr, .outbox] ps) (hK : SameBut ps s0 s) :
    SameBut ps s0 (sendContrib s e dev r) := by
  have w1 : Within [.csr] ps := Within.trans (by decide +kernel) hW
  have w2 : Within [.outbox] ps := Within.trans (by decide +kernel) hW
  unfold sendContrib
  repeat' (first | with_reducible assumption | with_reducible apply bumpStat_same w1
                  | with_reducible apply send_same w2)

theorem runRecs_same {ps : List Part} {s0 : State} {e : Nat} {e0 : State} {e1 : RSend} {e2 : List CRec}
    {e3 : List CRec}
    (hW : Within [.freeCtr, .csr, .evt, .answers, .stks, .fast, .fastMark, .deepMark, .pages, .pageCache, .frameMap, .blocks, .slots, .migq, .stalled, .stallFail, .plcCh, .plans, .outbox, .rlys] ps) (hK : SameBut ps s0 e0) : SameBut ps s0 (runRecs e e0 e1 e2 e3) := by
  induction e3 generalizing e0 e1 e2 with
  | nil => exact setSend_same (Within.trans (by decide +kernel) hW) hK
  | cons r rs ih =>
    unfold runRecs
    split
    · exact ih hK
    split
    · rename_i eq; exact ih (same_fst eq (stageTile_same (Within.trans (by decide +kernel) hW) hK))
    · rename_i eq
      have h := same_fst eq (stageTile_same (Within.trans (by decide +kernel) hW) hK)
      split
      · exact ih h
      · exact ih (sendContrib_same (Within.trans (by decide +kernel) hW) h)

theorem completeSend_same {ps : List Part} {s0 : State} {s : State} {e : Nat} {x : RSend}
    (hW : Within [.rlys] ps) (hK : SameBut ps s0 s) :
    SameBut ps s0 (completeSend s e x) := by
  unfold completeSend
  repeat' (first | with_reducible assumption | with_reducible apply setRly_same hW
                  | with_reducible apply rlyFinish_same hW)

theorem checkSend_same {ps : List Part} {s0 : State} {e : Nat} {s : State} {x : RSend}
    (hW : Within [.rlys] ps) (hK : SameBut ps s0 s) :
    SameBut ps s0 (checkSend e s x) := by
  unfold checkSend
  repeat' (first | with_reducible assumption | with_reducible apply completeSend_same hW | split)

theorem sendSector_same {ps : List Part} {s0 : State} {s : State} {e : Nat} {x : RbEnt} {k : Nat} {sends : Nat}
    (hW : Within [.outbox, .rlys] ps) (hK : SameBut ps s0 s) :
    SameBut ps s0 (sendSector s e x k sends) := by
  have w1 : Within [.outbox] ps := Within.trans (by decide +kernel) hW
  have w2 : Within [.rlys] ps := Within.trans (by decide +kernel) hW
  unfold sendSector
  repeat' (first | with_reducible assumption | with_reducible apply send_same w1
                  | with_reducible apply setRly_same w2)

theorem startSectors_same {ps : List Part} {s0 : State} {e : Nat} {x : RbEnt} {e0 : State} {e1 : List Nat}
    (hW : Within [.outbox, .rlys] ps) (hK : SameBut ps s0 e0) :
    SameBut ps s0 (startSectors e x e0 e1) := by
  revert hK
  fun_induction startSectors e x e0 e1 <;> intro hK
  all_goals (repeat' (with_reducible assumption))
  all_goals (try (apply_assumption; repeat' (first | with_reducible assumption | with_reducible apply sendSector_same hW)))

theorem checkRebuild_same {ps : List Part} {s0 : State} {e : Nat} {s : State} {x : RbEnt}
    (hW : Within [.outbox, .rlys] ps) (hK : SameBut ps s0 s) :
    SameBut ps s0 (checkRebuild e s x) := by
  have w1 : Within [.rlys] ps := Within.trans (by decide +kernel) hW
  unfold checkRebuild
  repeat' (first | with_reducible assumption | with_reducible apply setRly_same w1
                  | with_reducible apply rlyFinish_same w1 | with_reducible apply startSectors_same hW
                  | extract_lets | split)

theorem rlyWork_same {ps : List Part} {s0 : State} {s : State} {e : Nat}
    (hW : Within [.freeCtr, .csr, .evt, .cores, .answers, .stks, .fast, .fastMark, .deepMark, .pages, .pageCache, .frameMap, .blocks, .slots, .migq, .stalled, .stallFail, .plcCh, .plans, .outbox, .rlys] ps) (hK : SameBut ps s0 s) :
    SameBut ps s0 (rlyWork s e) := by
  have w1 : Within [.freeCtr, .csr, .evt, .cores, .answers, .stks, .fast, .fastMark, .deepMark, .pages, .pageCache, .frameMap, .blocks, .slots, .migq, .stalled, .stallFail, .plcCh, .plans, .rlys] ps := Within.trans (by decide +kernel) hW
  have w2 : Within [.freeCtr, .csr, .evt, .answers, .stks, .fast, .fastMark, .deepMark, .pages, .pageCache, .frameMap, .blocks, .slots, .migq, .stalled, .stallFail, .plcCh, .plans, .outbox, .rlys] ps := Within.trans (by decide +kernel) hW
  have w3 : Within [.rlys] ps := Within.trans (by decide +kernel) hW
  have w4 : Within [.outbox, .rlys] ps := Within.trans (by decide +kernel) hW
  unfold rlyWork
  repeat' (first | with_reducible assumption | with_reducible apply runFins_same w1
                  | with_reducible apply closeBucket_same w2 | with_reducible apply runRecs_same w2
                  | with_reducible apply checkSend_same w3 | with_reducible apply checkRebuild_same w4
                  | (with_reducible apply same_foldl; (try intros)) | extract_lets | split)

theorem probeAnswer_same {ps : List Part} {s0 : State} {s : State} {e : Nat} {x : RSend} {a : Bytes}
    (hW : Within [.rlys] ps) (hK : SameBut ps s0 s) :
    SameBut ps s0 (probeAnswer s e x a) := by
  unfold probeAnswer
  repeat' (first | with_reducible assumption | with_reducible apply setSend_same hW
                  | with_reducible apply completeSend_same hW | extract_lets | split)

theorem answerEff_same {ps : List Part} {s0 : State} {s : State} {e : Nat} {a : Bytes}
    (hW : Within [.rlys] ps) (hK : SameBut ps s0 s) :
    SameBut ps s0 (answerEff s e a) := by
  unfold answerEff
  repeat' (first | with_reducible assumption | with_reducible apply setSend_same hW
                  | with_reducible apply probeAnswer_same hW | extract_lets | split)

theorem resendEff_same {ps : List Part} {s0 : State} {s : State} {e : Nat} {a : Bytes}
    (hW : Within [.rlys] ps) (hK : SameBut ps s0 s) :
    SameBut ps s0 (resendEff s e a) := by
  unfold resendEff
  repeat' (first | with_reducible assumption | with_reducible apply setSend_same hW | split)

theorem doneEff_same {ps : List Part} {s0 : State} {s : State} {e : Nat} {a : Bytes}
    (hW : Within [.outbox, .rlys] ps) (hK : SameBut ps s0 s) :
    SameBut ps s0 (doneEff s e a) := by
  have w1 : Within [.outbox] ps := Within.trans (by decide +kernel) hW
  have w2 : Within [.rlys] ps := Within.trans (by decide +kernel) hW
  unfold doneEff
  repeat' (first | with_reducible assumption | with_reducible apply send_same w1
                  | with_reducible apply setRly_same w2)

theorem doneAckEff_same {ps : List Part} {s0 : State} {s : State} {e : Nat} {a : Bytes}
    (hW : Within [.rlys] ps) (hK : SameBut ps s0 s) :
    SameBut ps s0 (doneAckEff s e a) := by
  unfold doneAckEff
  repeat' (first | with_reducible assumption | with_reducible apply setRly_same hW)

theorem hopFail_same {ps : List Part} {s0 : State} {s : State} {e : Nat} {x : RSend}
    (hW : Within [.csr, .evt] ps) (hK : SameBut ps s0 s) :
    SameBut ps s0 (hopFail s e x) := by
  unfold hopFail
  repeat' (first | with_reducible assumption | with_reducible apply raise_same hW)

theorem quietSector_same {ps : List Part} {s0 : State} {s : State} {p : Nat} {k : Nat}
    (hW : Within [.csr, .evt, .answers, .stks, .fastMark, .deepMark, .pages, .pageCache, .frameMap, .blocks, .slots, .migq, .stalled, .stallFail, .plcCh, .plans] ps) (hK : SameBut ps s0 s) :
    SameBut ps s0 (quietSector s p k).1 := by
  have w1 : Within [.csr] ps := Within.trans (by decide +kernel) hW
  have w2 : Within [.csr, .evt, .stks, .fastMark] ps := Within.trans (by decide +kernel) hW
  have w3 : Within [.csr, .pages, .pageCache] ps := Within.trans (by decide +kernel) hW
  have w4 : Within [.csr, .evt, .stks, .deepMark] ps := Within.trans (by decide +kernel) hW
  unfold quietSector
  repeat' (first | with_reducible assumption | with_reducible apply bumpStat_same w1
                  | with_reducible apply frameRead_same w2 | with_reducible apply touchCache_same w3
                  | with_reducible apply deepSector_same w4 | extract_lets | split | dsimp +zetaDelta only)

theorem quietSector_sameHit {ps : List Part} {s0 : State} {s : State} {p : Nat} {k : Nat}
    (hW : Within [.csr, .evt, .answers, .stks, .fastMark, .deepMark, .pages, .pageCache, .frameMap, .blocks, .slots, .migq, .stalled, .stallFail, .plcCh, .plans, .outbox] ps)
    (hK : SameBut ps s0 s) :
    ∀ h, (quietSector s p k).2 = some h → SameBut ps s0 h.s := by
  have hr : ∀ {s a b c}, SameBut ps s0 s → SameBut ps s0 (reportBad s a b c) :=
    fun h => reportBad_same (Within.trans (by decide +kernel) hW) h
  have hb : ∀ {s a b c}, SameBut ps s0 s → SameBut ps s0 (bumpStat s a b c) :=
    fun h => bumpStat_same (Within.trans (by decide +kernel) hW) h
  have h' : SameBut ps s0 (touchCache (bumpStat s Csr.PLC_LOOKUPS 1 (some plcIdx)) p) :=
    touchCache_same (Within.trans (by decide +kernel) hW) (hb hK)
  unfold quietSector
  extract_lets e s' hd deep hf fast
  have k' : SameBut ps s0 s' := h'
  have kd : SameBut ps s0 (reportBad hd.s p hd.st hd.loc) := hr (deepSector_same (Within.trans (by decide +kernel) hW) (hb h'))
  have kf : SameBut ps s0 (reportBad hf.s p hf.st hf.loc) := hr (frameRead_same (Within.trans (by decide +kernel) hW) h')
  clear_value hd hf
  have d : ∀ h, deep.2 = some h → SameBut ps s0 h.s := by
    intro h hh
    by_cases hc : ¬ stkOpen s (12 + dgaStack e.dga) = true
    · have : deep = (s, none) := if_pos hc
      rw [this] at hh; cases hh
    · have : deep = (hd.s, some { hd with s := reportBad hd.s p hd.st hd.loc }) := if_neg hc
      rw [this] at hh; cases hh; exact kd
  have f : ∀ h, fast.2 = some h → SameBut ps s0 h.s := by
    intro h hh
    by_cases hc : ¬ frameOpen s (entFrame e) (k * 4096) 4096 = true
    · have : fast = (s, none) := if_pos hc
      rw [this] at hh; cases hh
    · have : fast = (hf.s, some { hf with s := reportBad hf.s p hf.st hf.loc }) := if_neg hc
      rw [this] at hh; cases hh; exact kf
  clear_value fast deep s'
  split
  · intro h e; cases e
  split
  · intro h e; cases e; exact hK
  split
  · intro h e; cases e; exact k'
  · intro h e; cases e; exact k'
  · intro h e; cases e; exact k'
  · exact d
  · split
    · split
      · exact d
      · exact f
    · exact f
  · exact f

theorem xpartEff_same {ps : List Part} {s0 : State} {s : State} {e : Nat} {r : Bytes}
    (hW : Within [.csr, .evt, .answers, .stks, .fastMark, .deepMark, .pages, .pageCache, .frameMap, .blocks, .slots, .migq, .stalled, .stallFail, .plcCh, .plans, .outbox] ps)
    (hK : SameBut ps s0 s) :
    SameBut ps s0 (xpartEff s e r) := by
  unfold xpartEff
  extract_lets w hop c pass
  have hp : ∀ x st d, SameBut ps s0 x → SameBut ps s0 (pass x st d) :=
    fun x st d h => send_same (Within.trans (by decide +kernel) hW) h
  split
  · exact hK
  split
  · exact hp _ _ _ hK
  split
  · rename_i eq; exact same_fst eq (quietSector_same (Within.trans (by decide +kernel) hW) hK)
  · rename_i eq
    have h := quietSector_sameHit hW hK _ (congrArg Prod.snd eq)
    split <;> exact hp _ _ _ h

theorem endSector_same {ps : List Part} {s0 : State} {s : State} {e : Nat} {o : XOut} {st : Nat}
    (hW : Within [.csr, .rlys] ps) (hK : SameBut ps s0 s) :
    SameBut ps s0 (endSector s e o st) := by
  have w1 : Within [.csr] ps := Within.trans (by decide +kernel) hW
  have w2 : Within [.rlys] ps := Within.trans (by decide +kernel) hW
  unfold endSector
  repeat' (first | with_reducible assumption | with_reducible apply bumpStat_same w1
                  | with_reducible apply setRly_same w2 | extract_lets | split)

theorem xpartReturnEff_same {ps : List Part} {s0 : State} {s : State} {e : Nat} {r : Bytes} {ext : Ext}
    (hW : Within [.freeCtr, .csr, .evt, .answers, .stks, .fast, .fastMark, .deepMark, .pages, .pageCache, .frameMap, .blocks, .slots, .migq, .stalled, .stallFail, .plcCh, .plans, .rlys] ps) (hK : SameBut ps s0 s) :
    SameBut ps s0 (xpartReturnEff s e r ext) := by
  have w1 : Within [.freeCtr, .csr, .evt, .answers, .stks, .fast, .fastMark, .deepMark, .pages, .pageCache, .frameMap, .blocks, .slots, .migq, .stalled, .stallFail, .plcCh, .plans] ps := Within.trans (by decide +kernel) hW
  have w2 : Within [.csr, .rlys] ps := Within.trans (by decide +kernel) hW
  unfold xpartReturnEff
  repeat' (first | with_reducible assumption | with_reducible apply ltaWrite_same w1
                  | with_reducible apply endSector_same w2 | with_reducible refine same_fst (by assumption) ?_
                  | extract_lets | split)

theorem execRlyOpen_same {ps : List Part} {s0 : State} {e : Fin 2} {q : Fin 16} {s : State}
    (hW : Within [.freeCtr, .csr, .evt, .cores, .answers, .stks, .fast, .fastMark, .deepMark, .pages, .pageCache, .frameMap, .blocks, .slots, .migq, .stalled, .stallFail, .plcCh, .plans, .outbox, .rlys] ps) (hK : SameBut ps s0 s) :
    OutSame ps s0 (execRlyOpen e q s) := by
  have w1 : Within [.freeCtr, .csr, .evt, .answers, .stks, .fast, .fastMark, .deepMark, .pages, .pageCache, .frameMap, .blocks, .slots, .migq, .stalled, .stallFail, .plcCh, .plans] ps := Within.trans (by decide +kernel) hW
  have w2 : Within [.freeCtr, .csr, .evt, .answers, .stks, .fast, .fastMark, .deepMark, .pages, .pageCache, .frameMap, .blocks, .slots, .migq, .stalled, .stallFail, .plcCh, .plans, .rlys] ps := Within.trans (by decide +kernel) hW
  unfold execRlyOpen
  repeat' (first | with_reducible assumption | with_reducible apply sqHead_same w1
                  | with_reducible apply openTake_same w2 | with_reducible apply rlyWork_same hW
                  | with_reducible apply outSame_next | with_reducible refine same_fst (by assumption) ?_ | split)

theorem execRlySend_same {ps : List Part} {s0 : State} {e : Fin 2} {q : Fin 16} {s : State}
    (hW : Within [.freeCtr, .csr, .evt, .cores, .answers, .stks, .fast, .fastMark, .deepMark, .pages, .pageCache, .frameMap, .blocks, .slots, .migq, .stalled, .stallFail, .plcCh, .plans, .outbox, .rlys] ps) (hK : SameBut ps s0 s) :
    OutSame ps s0 (execRlySend e q s) := by
  have w1 : Within [.rlys] ps := Within.trans (by decide +kernel) hW
  have w2 : Within [.csr] ps := Within.trans (by decide +kernel) hW
  have w3 : Within [.freeCtr, .csr, .evt, .answers, .stks, .fast, .fastMark, .deepMark, .pages, .pageCache, .frameMap, .blocks, .slots, .migq, .stalled, .stallFail, .plcCh, .plans] ps := Within.trans (by decide +kernel) hW
  unfold execRlySend
  repeat' (first | with_reducible assumption | with_reducible apply setRly_same w1
                  | with_reducible apply rlyFinish_same w1 | with_reducible apply ringTaken_same w2
                  | with_reducible apply sqHead_same w3 | with_reducible apply rlyWork_same hW
                  | with_reducible apply outSame_next | with_reducible refine same_fst (by assumption) ?_
                  | extract_lets | split)

theorem cancelEff_same {ps : List Part} {s0 : State} {s : State} {e : Nat} {b : Bytes}
    (hW : Within [.csr, .rlys] ps) (hK : SameBut ps s0 s) :
    SameBut ps s0 (cancelEff s e b) := by
  have w1 : Within [.rlys] ps := Within.trans (by decide +kernel) hW
  unfold cancelEff
  repeat' (first | with_reducible assumption | with_reducible apply cancelRows_same hW
                  | with_reducible apply completeSend_same w1 | (with_reducible apply same_foldl; (try intros))
                  | extract_lets | split)

theorem execRlyCancel_same {ps : List Part} {s0 : State} {e : Fin 2} {q : Fin 16} {s : State}
    (hW : Within [.freeCtr, .csr, .evt, .cores, .answers, .stks, .fast, .fastMark, .deepMark, .pages, .pageCache, .frameMap, .blocks, .slots, .migq, .stalled, .stallFail, .plcCh, .plans, .outbox, .rlys] ps) (hK : SameBut ps s0 s) :
    OutSame ps s0 (execRlyCancel e q s) := by
  have w1 : Within [.rlys] ps := Within.trans (by decide +kernel) hW
  have w2 : Within [.csr] ps := Within.trans (by decide +kernel) hW
  have w3 : Within [.freeCtr, .csr, .evt, .answers, .stks, .fast, .fastMark, .deepMark, .pages, .pageCache, .frameMap, .blocks, .slots, .migq, .stalled, .stallFail, .plcCh, .plans] ps := Within.trans (by decide +kernel) hW
  have w4 : Within [.csr, .rlys] ps := Within.trans (by decide +kernel) hW
  unfold execRlyCancel
  repeat' (first | with_reducible assumption | with_reducible apply rlyFinish_same w1
                  | with_reducible apply ringTaken_same w2 | with_reducible apply sqHead_same w3
                  | with_reducible apply rlyWork_same hW | with_reducible apply cancelEff_same w4
                  | with_reducible apply outSame_next | with_reducible refine same_fst (by assumption) ?_
                  | extract_lets | split | dsimp +zetaDelta only)

theorem execRlyRelease_same {ps : List Part} {s0 : State} {e : Fin 2} {q : Fin 16} {s : State}
    (hW : Within [.freeCtr, .csr, .evt, .cores, .answers, .stks, .fast, .fastMark, .deepMark, .pages, .pageCache, .frameMap, .blocks, .slots, .migq, .stalled, .stallFail, .plcCh, .plans, .outbox, .rlys] ps) (hK : SameBut ps s0 s) :
    OutSame ps s0 (execRlyRelease e q s) := by
  have w1 : Within [.rlys] ps := Within.trans (by decide +kernel) hW
  have w2 : Within [.csr] ps := Within.trans (by decide +kernel) hW
  have w3 : Within [.freeCtr, .csr, .evt, .answers, .stks, .fast, .fastMark, .deepMark, .pages, .pageCache, .frameMap, .blocks, .slots, .migq, .stalled, .stallFail, .plcCh, .plans] ps := Within.trans (by decide +kernel) hW
  have w4 : Within [.csr, .evt, .rlys] ps := Within.trans (by decide +kernel) hW
  unfold execRlyRelease
  repeat' (first | with_reducible assumption | with_reducible apply rlyFinish_same w1
                  | with_reducible apply ringTaken_same w2 | with_reducible apply sqHead_same w3
                  | with_reducible apply releaseRows_same w4 | with_reducible apply rlyWork_same hW
                  | with_reducible apply outSame_next | with_reducible refine same_fst (by assumption) ?_
                  | extract_lets | split | dsimp +zetaDelta only)

theorem execContribReceive_same {ps : List Part} {s0 : State} {e : Fin 2} {r : Bytes} {s : State}
    (hW : Within [.freeCtr, .csr, .evt, .cores, .answers, .stks, .fast, .fastMark, .deepMark, .pages, .pageCache, .frameMap, .blocks, .slots, .migq, .stalled, .stallFail, .plcCh, .plans, .outbox, .rlys] ps) (hK : SameBut ps s0 s) :
    OutSame ps s0 (execContribReceive e r s) := by
  have w1 : Within [.csr, .evt, .outbox, .rlys] ps := Within.trans (by decide +kernel) hW
  unfold execContribReceive
  repeat' (first | with_reducible assumption | with_reducible apply contribEff_same w1
                  | with_reducible apply rlyWork_same hW | with_reducible apply outSame_next | split)

theorem execAnswerReceive_same {ps : List Part} {s0 : State} {e : Fin 2} {r : Bytes} {s : State}
    (hW : Within [.freeCtr, .csr, .evt, .cores, .answers, .stks, .fast, .fastMark, .deepMark, .pages, .pageCache, .frameMap, .blocks, .slots, .migq, .stalled, .stallFail, .plcCh, .plans, .outbox, .rlys] ps) (hK : SameBut ps s0 s) :
    OutSame ps s0 (execAnswerReceive e r s) := by
  have w1 : Within [.rlys] ps := Within.trans (by decide +kernel) hW
  unfold execAnswerReceive
  repeat' (first | with_reducible assumption | with_reducible apply rlyWork_same hW
                  | with_reducible apply answerEff_same w1 | with_reducible apply outSame_next | split)

theorem execResendReceive_same {ps : List Part} {s0 : State} {e : Fin 2} {r : Bytes} {s : State}
    (hW : Within [.freeCtr, .csr, .evt, .cores, .answers, .stks, .fast, .fastMark, .deepMark, .pages, .pageCache, .frameMap, .blocks, .slots, .migq, .stalled, .stallFail, .plcCh, .plans, .outbox, .rlys] ps) (hK : SameBut ps s0 s) :
    OutSame ps s0 (execResendReceive e r s) := by
  have w1 : Within [.rlys] ps := Within.trans (by decide +kernel) hW
  unfold execResendReceive
  repeat' (first | with_reducible assumption | with_reducible apply rlyWork_same hW
                  | with_reducible apply resendEff_same w1 | with_reducible apply outSame_next | split)

theorem execDoneReceive_same {ps : List Part} {s0 : State} {e : Fin 2} {r : Bytes} {s : State}
    (hW : Within [.freeCtr, .csr, .evt, .cores, .answers, .stks, .fast, .fastMark, .deepMark, .pages, .pageCache, .frameMap, .blocks, .slots, .migq, .stalled, .stallFail, .plcCh, .plans, .outbox, .rlys] ps) (hK : SameBut ps s0 s) :
    OutSame ps s0 (execDoneReceive e r s) := by
  have w1 : Within [.outbox, .rlys] ps := Within.trans (by decide +kernel) hW
  unfold execDoneReceive
  repeat' (first | with_reducible assumption | with_reducible apply rlyWork_same hW
                  | with_reducible apply doneEff_same w1 | with_reducible apply outSame_next | split)

theorem execDoneAckReceive_same {ps : List Part} {s0 : State} {e : Fin 2} {r : Bytes} {s : State}
    (hW : Within [.freeCtr, .csr, .evt, .cores, .answers, .stks, .fast, .fastMark, .deepMark, .pages, .pageCache, .frameMap, .blocks, .slots, .migq, .stalled, .stallFail, .plcCh, .plans, .outbox, .rlys] ps) (hK : SameBut ps s0 s) :
    OutSame ps s0 (execDoneAckReceive e r s) := by
  have w1 : Within [.rlys] ps := Within.trans (by decide +kernel) hW
  unfold execDoneAckReceive
  repeat' (first | with_reducible assumption | with_reducible apply rlyWork_same hW
                  | with_reducible apply doneAckEff_same w1 | with_reducible apply outSame_next | split)

theorem execRlyHopTimeout_same {ps : List Part} {s0 : State} {e : Fin 2} {n : Nat} {s : State}
    (hW : Within [.freeCtr, .csr, .evt, .cores, .answers, .stks, .fast, .fastMark, .deepMark, .pages, .pageCache, .frameMap, .blocks, .slots, .migq, .stalled, .stallFail, .plcCh, .plans, .outbox, .rlys] ps) (hK : SameBut ps s0 s) :
    OutSame ps s0 (execRlyHopTimeout e n s) := by
  have w1 : Within [.rlys] ps := Within.trans (by decide +kernel) hW
  have w2 : Within [.csr, .outbox] ps := Within.trans (by decide +kernel) hW
  have w3 : Within [.csr, .evt] ps := Within.trans (by decide +kernel) hW
  unfold execRlyHopTimeout
  repeat' (first | with_reducible assumption | with_reducible apply setSend_same w1
                  | with_reducible apply sendContrib_same w2 | with_reducible apply rlyWork_same hW
                  | with_reducible apply hopFail_same w3 | with_reducible apply outSame_next | extract_lets | split)

theorem execRlyRetryTimer_same {ps : List Part} {s0 : State} {e : Fin 2} {n : Nat} {s : State}
    (hW : Within [.freeCtr, .csr, .evt, .cores, .answers, .stks, .fast, .fastMark, .deepMark, .pages, .pageCache, .frameMap, .blocks, .slots, .migq, .stalled, .stallFail, .plcCh, .plans, .outbox, .rlys] ps) (hK : SameBut ps s0 s) :
    OutSame ps s0 (execRlyRetryTimer e n s) := by
  have w1 : Within [.csr, .evt, .rlys] ps := Within.trans (by decide +kernel) hW
  have w2 : Within [.rlys] ps := Within.trans (by decide +kernel) hW
  have w3 : Within [.csr, .outbox] ps := Within.trans (by decide +kernel) hW
  unfold execRlyRetryTimer
  repeat' (first | with_reducible assumption | with_reducible apply resendRow_same w1
                  | with_reducible apply setSend_same w2 | with_reducible apply sendContrib_same w3
                  | with_reducible apply rlyWork_same hW | with_reducible apply outSame_next | extract_lets | split)

theorem execBucketDeadline_same {ps : List Part} {s0 : State} {e : Fin 2} {tag : Nat} {s : State}
    (hW : Within [.freeCtr, .csr, .evt, .cores, .answers, .stks, .fast, .fastMark, .deepMark, .pages, .pageCache, .frameMap, .blocks, .slots, .migq, .stalled, .stallFail, .plcCh, .plans, .outbox, .rlys] ps) (hK : SameBut ps s0 s) :
    OutSame ps s0 (execBucketDeadline e tag s) := by
  have w1 : Within [.csr, .evt, .outbox, .rlys] ps := Within.trans (by decide +kernel) hW
  unfold execBucketDeadline
  repeat' (first | with_reducible assumption | with_reducible apply deadlineEff_same w1
                  | with_reducible apply rlyWork_same hW | with_reducible apply outSame_next | split)

theorem execBucketHardLimit_same {ps : List Part} {s0 : State} {e : Fin 2} {tag : Nat} {s : State}
    (hW : Within [.freeCtr, .csr, .evt, .cores, .answers, .stks, .fast, .fastMark, .deepMark, .pages, .pageCache, .frameMap, .blocks, .slots, .migq, .stalled, .stallFail, .plcCh, .plans, .outbox, .rlys] ps) (hK : SameBut ps s0 s) :
    OutSame ps s0 (execBucketHardLimit e tag s) := by
  have w1 : Within [.csr, .rlys] ps := Within.trans (by decide +kernel) hW
  unfold execBucketHardLimit
  repeat' (first | with_reducible assumption | with_reducible apply hardEff_same w1
                  | with_reducible apply rlyWork_same hW | with_reducible apply outSame_next | split)

theorem execRowDeliver_same {ps : List Part} {s0 : State} {e : Fin 2} {s : State}
    (hW : Within [.freeCtr, .csr, .evt, .cores, .answers, .stks, .fast, .fastMark, .deepMark, .pages, .pageCache, .frameMap, .blocks, .slots, .migq, .stalled, .stallFail, .plcCh, .plans, .nbus, .rowsInFlight, .outbox, .rlys] ps) (hK : SameBut ps s0 s) :
    OutSame ps s0 (execRowDeliver e s) := by
  have w1 : Within [.csr, .evt, .nbus, .rowsInFlight, .outbox, .rlys] ps := Within.trans (by decide +kernel) hW
  have w2 : Within [.freeCtr, .csr, .evt, .cores, .answers, .stks, .fast, .fastMark, .deepMark, .pages, .pageCache, .frameMap, .blocks, .slots, .migq, .stalled, .stallFail, .plcCh, .plans, .outbox, .rlys] ps := Within.trans (by decide +kernel) hW
  unfold execRowDeliver
  repeat' (first | with_reducible assumption | with_reducible apply deliverNext_same w1
                  | with_reducible apply rlyWork_same w2 | with_reducible apply outSame_next | split)

theorem execNbuAnswerReceive_same {ps : List Part} {s0 : State} {e : Fin 2} {answer : Bytes} {s : State}
    (hW : Within [.freeCtr, .csr, .evt, .cores, .answers, .stks, .fast, .fastMark, .deepMark, .pages, .pageCache, .frameMap, .blocks, .slots, .migq, .stalled, .stallFail, .plcCh, .plans, .rowAnswers, .outbox, .rlys] ps) (hK : SameBut ps s0 s) :
    OutSame ps s0 (execNbuAnswerReceive e answer s) := by
  have w2 : Within [.csr, .evt, .outbox, .rlys] ps := Within.trans (by decide +kernel) hW
  have w3 : Within [.freeCtr, .csr, .evt, .cores, .answers, .stks, .fast, .fastMark, .deepMark, .pages, .pageCache, .frameMap, .blocks, .slots, .migq, .stalled, .stallFail, .plcCh, .plans, .outbox, .rlys] ps := Within.trans (by decide +kernel) hW
  have w4 : Within [.rowAnswers] ps := Within.trans (by decide +kernel) hW
  unfold execNbuAnswerReceive
  repeat' (first | with_reducible assumption | with_reducible apply nbuAnswerEff_same w2
                  | with_reducible apply rlyWork_same w3 | with_reducible apply outSame_next
                  | simp only [same_mk_rowAnswers w4] | split)

theorem execDeliveryTimeout_same {ps : List Part} {s0 : State} {e : Fin 2} {tag : Nat} {row : Nat} {s : State}
    (hW : Within [.freeCtr, .csr, .evt, .cores, .answers, .stks, .fast, .fastMark, .deepMark, .pages, .pageCache, .frameMap, .blocks, .slots, .migq, .stalled, .stallFail, .plcCh, .plans, .outbox, .rlys] ps) (hK : SameBut ps s0 s) :
    OutSame ps s0 (execDeliveryTimeout e tag row s) := by
  have w1 : Within [.csr, .evt, .rlys] ps := Within.trans (by decide +kernel) hW
  unfold execDeliveryTimeout
  repeat' (first | with_reducible assumption | with_reducible apply resendRow_same w1
                  | with_reducible apply rlyWork_same hW | with_reducible apply outSame_next | split)

theorem execDoneRepeat_same {ps : List Part} {s0 : State} {e : Fin 2} {n : Nat} {s : State}
    (hW : Within [.freeCtr, .csr, .evt, .cores, .answers, .stks, .fast, .fastMark, .deepMark, .pages, .pageCache, .frameMap, .blocks, .slots, .migq, .stalled, .stallFail, .plcCh, .plans, .outbox, .rlys] ps) (hK : SameBut ps s0 s) :
    OutSame ps s0 (execDoneRepeat e n s) := by
  have w1 : Within [.rlys] ps := Within.trans (by decide +kernel) hW
  have w2 : Within [.outbox] ps := Within.trans (by decide +kernel) hW
  unfold execDoneRepeat
  repeat' (first | with_reducible assumption | with_reducible apply setRly_same w1
                  | with_reducible apply sendDone_same w2 | with_reducible apply rlyWork_same hW
                  | with_reducible apply outSame_next | extract_lets | split)

theorem execSendProbe_same {ps : List Part} {s0 : State} {e : Fin 2} {n : Nat} {s : State}
    (hW : Within [.freeCtr, .csr, .evt, .cores, .answers, .stks, .fast, .fastMark, .deepMark, .pages, .pageCache, .frameMap, .blocks, .slots, .migq, .stalled, .stallFail, .plcCh, .plans, .outbox, .rlys] ps) (hK : SameBut ps s0 s) :
    OutSame ps s0 (execSendProbe e n s) := by
  have w1 : Within [.freeCtr, .csr, .evt, .answers, .stks, .fast, .fastMark, .deepMark, .pages, .pageCache, .frameMap, .blocks, .slots, .migq, .stalled, .stallFail, .plcCh, .plans] ps := Within.trans (by decide +kernel) hW
  have w2 : Within [.rlys] ps := Within.trans (by decide +kernel) hW
  have w3 : Within [.csr, .outbox] ps := Within.trans (by decide +kernel) hW
  have w4 : Within [.csr, .evt] ps := Within.trans (by decide +kernel) hW
  unfold execSendProbe
  repeat' (first | with_reducible assumption | with_reducible apply stageTile_same w1
                  | with_reducible apply setSend_same w2 | with_reducible apply sendContrib_same w3
                  | with_reducible apply completeSend_same w2 | with_reducible apply rlyWork_same hW
                  | with_reducible apply hopFail_same w4 | with_reducible apply outSame_next
                  | with_reducible refine same_fst (by assumption) ?_ | extract_lets | split)

theorem execRebuildEntry_same {ps : List Part} {s0 : State} {e : Fin 2} {s : State}
    (hW : Within [.freeCtr, .csr, .evt, .cores, .answers, .stks, .fast, .fastMark, .deepMark, .pages, .pageCache, .frameMap, .blocks, .slots, .migq, .stalled, .stallFail, .plcCh, .plans, .outbox, .rlys] ps) (hK : SameBut ps s0 s) :
    OutSame ps s0 (execRebuildEntry e s) := by
  have w1 : Within [.rlys] ps := Within.trans (by decide +kernel) hW
  have w2 : Within [.freeCtr, .csr, .evt, .answers, .stks, .fast, .fastMark, .deepMark, .pages, .pageCache, .frameMap, .blocks, .slots, .migq, .stalled, .stallFail, .plcCh, .plans] ps := Within.trans (by decide +kernel) hW
  have w3 : Within [.csr] ps := Within.trans (by decide +kernel) hW
  unfold execRebuildEntry
  repeat' (first | with_reducible assumption | with_reducible apply setRly_same w1
                  | with_reducible apply ringFetch_same w2 | with_reducible apply rlyFinish_same w1
                  | with_reducible apply ringTaken_same w3 | with_reducible apply rlyWork_same hW
                  | with_reducible apply outSame_next | with_reducible refine same_fst (by assumption) ?_
                  | extract_lets | split)

theorem execXpartReceive_same {ps : List Part} {s0 : State} {e : Fin 2} {r : Bytes} {s : State}
    (hW : Within [.freeCtr, .csr, .evt, .cores, .answers, .stks, .fast, .fastMark, .deepMark, .pages, .pageCache, .frameMap, .blocks, .slots, .migq, .stalled, .stallFail, .plcCh, .plans, .outbox, .rlys] ps) (hK : SameBut ps s0 s) :
    OutSame ps s0 (execXpartReceive e r s) := by
  have w1 : Within [.csr, .evt, .answers, .stks, .fastMark, .deepMark, .pages, .pageCache, .frameMap, .blocks, .slots, .migq, .stalled, .stallFail, .plcCh, .plans, .outbox] ps := Within.trans (by decide +kernel) hW
  unfold execXpartReceive
  repeat' (first | with_reducible assumption | with_reducible apply rlyWork_same hW
                  | with_reducible apply xpartEff_same w1 | with_reducible apply outSame_next | split)

theorem execXpartReturn_same {ps : List Part} {s0 : State} {e : Fin 2} {r : Bytes} {ext : Ext} {s : State}
    (hW : Within [.freeCtr, .csr, .evt, .cores, .answers, .stks, .fast, .fastMark, .deepMark, .pages, .pageCache, .frameMap, .blocks, .slots, .migq, .stalled, .stallFail, .plcCh, .plans, .outbox, .rlys] ps) (hK : SameBut ps s0 s) :
    OutSame ps s0 (execXpartReturn e r ext s) := by
  have w1 : Within [.freeCtr, .csr, .evt, .answers, .stks, .fast, .fastMark, .deepMark, .pages, .pageCache, .frameMap, .blocks, .slots, .migq, .stalled, .stallFail, .plcCh, .plans, .rlys] ps := Within.trans (by decide +kernel) hW
  unfold execXpartReturn
  repeat' (first | with_reducible assumption | with_reducible apply rlyWork_same hW
                  | with_reducible apply xpartReturnEff_same w1 | with_reducible apply outSame_next | split)

theorem execXpartTimeout_same {ps : List Part} {s0 : State} {e : Fin 2} {token : Nat} {s : State}
    (hW : Within [.freeCtr, .csr, .evt, .cores, .answers, .stks, .fast, .fastMark, .deepMark, .pages, .pageCache, .frameMap, .blocks, .slots, .migq, .stalled, .stallFail, .plcCh, .plans, .outbox, .rlys] ps) (hK : SameBut ps s0 s) :
    OutSame ps s0 (execXpartTimeout e token s) := by
  have w1 : Within [.rlys] ps := Within.trans (by decide +kernel) hW
  have w2 : Within [.outbox, .rlys] ps := Within.trans (by decide +kernel) hW
  have w3 : Within [.csr, .rlys] ps := Within.trans (by decide +kernel) hW
  unfold execXpartTimeout
  repeat' (first | with_reducible assumption | with_reducible apply setRly_same w1
                  | with_reducible apply sendSector_same w2 | with_reducible apply rlyWork_same hW
                  | with_reducible apply endSector_same w3 | with_reducible apply outSame_next | extract_lets
                  | split)

theorem rlyReset_same {ps : List Part} {s0 : State} {s : State}
    (hW : Within [.rowAnswers, .rlys] ps) (hK : SameBut ps s0 s) :
    SameBut ps s0 (rlyReset s) := by
  unfold rlyReset
  repeat' (first | with_reducible assumption | simp only [same_mk_rowAnswers_rlys hW])

theorem rlySqPi_same {ps : List Part} {s0 : State} {s : State} {ini : Initiator} {e : Nat} {q : Nat} {v : Nat}
    (hW : Within [.csr, .evt] ps) (hK : SameBut ps s0 s) :
    SameBut ps s0 (rlySqPi s ini e q v) := by
  unfold rlySqPi
  repeat' (first | with_reducible assumption | with_reducible apply ringPush_same hW)

theorem rlyRbPi_same {ps : List Part} {s0 : State} {s : State} {ini : Initiator} {e : Nat} {v : Nat}
    (hW : Within [.csr, .evt] ps) (hK : SameBut ps s0 s) :
    SameBut ps s0 (rlyRbPi s ini e v) := by
  unfold rlyRbPi
  repeat' (first | with_reducible assumption | with_reducible apply ringPush_same hW)

end Sys2Proof.Machine
end

