-- ==== Sys2Proof/Laws/FrameMediaJobs.lean ====
section
/-! SUPPORT. What the functions of Machine/MediaJobs.lean leave unchanged (see Laws/Frame.lean). -/

set_option Elab.async false -- many small kernel checks: one thread does them
set_option linter.unusedSimpArgs false
set_option simprocs false -- no numeral of a goal is evaluated in these proofs

namespace Sys2Proof.Machine

theorem setMedJob_same {ps : List Part} {s0 : State} {s : State} {e : Nat} {j : Option MedJob}
    (hW : Within [.med] ps) (hK : SameBut ps s0 s) :
    SameBut ps s0 (setMedJob s e j) := by
  unfold setMedJob
  repeat' (first | with_reducible assumption | simp only [same_mk_med hW])

theorem medComplete_same {ps : List Part} {s0 : State} {s : State} {ring : Nat} {b : Bytes} {r : Report} {count : Nat}
    (hW : Within [.freeCtr, .csr, .evt, .cores, .answers, .stks, .fast, .fastMark, .deepMark, .pages, .pageCache, .frameMap, .blocks, .slots, .migq, .stalled, .stallFail, .plcCh, .plans] ps) (hK : SameBut ps s0 s) :
    SameBut ps s0 (medComplete s ring b r count).1 := by
  have w1 : Within [.csr, .evt] ps := Within.trans (by decide +kernel) hW
  have w2 : Within [.freeCtr, .csr, .evt, .answers, .stks, .fast, .fastMark, .deepMark, .pages, .pageCache, .frameMap, .blocks, .slots, .migq, .stalled, .stallFail, .plcCh, .plans] ps := Within.trans (by decide +kernel) hW
  have w3 : Within [.csr, .evt, .cores] ps := Within.trans (by decide +kernel) hW
  unfold medComplete
  repeat' (first | with_reducible assumption | with_reducible apply raise_same w1
                  | with_reducible apply ltaWrite_same w2 | with_reducible apply rlySignal_same w3
                  | with_reducible refine same_fst (by assumption) ?_ | extract_lets | split | dsimp only
                  | dsimp +zetaDelta only)

theorem medHead_same {ps : List Part} {s0 : State} {s : State} {r : Nat}
    (hW : Within [.freeCtr, .csr, .evt, .answers, .stks, .fast, .fastMark, .deepMark, .pages, .pageCache, .frameMap, .blocks, .slots, .migq, .stalled, .stallFail, .plcCh, .plans] ps) (hK : SameBut ps s0 s) :
    SameBut ps s0 (medHead s r).1 := by
  have w1 : Within [.csr] ps := Within.trans (by decide +kernel) hW
  unfold medHead
  repeat' (first | with_reducible assumption | with_reducible apply ringFetch_same hW
                  | with_reducible apply ringTaken_same w1 | with_reducible refine same_fst (by assumption) ?_
                  | extract_lets | split)

theorem medTaken_same {ps : List Part} {s0 : State} {s : State} {r : Nat}
    (hW : Within [.csr] ps) (hK : SameBut ps s0 s) :
    SameBut ps s0 (medTaken s r) := by
  unfold medTaken
  repeat' (first | with_reducible assumption | with_reducible apply ringTaken_same hW)

theorem decodeEvents_same {ps : List Part} {s0 : State} {s : State} {e : Nat} {j : MedJob}
    (hW : Within [.csr, .evt] ps) (hK : SameBut ps s0 s) :
    SameBut ps s0 (decodeEvents s e j) := by
  have w1 : Within [.csr] ps := Within.trans (by decide +kernel) hW
  unfold decodeEvents
  repeat' (first | with_reducible assumption | with_reducible apply bumpStat_same w1
                  | with_reducible apply raise_same hW | with_reducible apply bumpOcc_same hW | extract_lets | split
                  | dsimp +zetaDelta only)

theorem execIngest_same {ps : List Part} {s0 : State} {r : Fin 8} {d : Decoded} {s : State}
    (hW : Within [.freeCtr, .csr, .evt, .answers, .stks, .fast, .fastMark, .deepMark, .pages, .pageCache, .frameMap, .blocks, .slots, .migq, .stalled, .stallFail, .plcCh, .plans, .med] ps) (hK : SameBut ps s0 s) :
    OutSame ps s0 (execIngest r d s) := by
  have w1 : Within [.freeCtr, .csr, .evt, .answers, .stks, .fast, .fastMark, .deepMark, .pages, .pageCache, .frameMap, .blocks, .slots, .migq, .stalled, .stallFail, .plcCh, .plans] ps := Within.trans (by decide +kernel) hW
  have w2 : Within [.med] ps := Within.trans (by decide +kernel) hW
  have w3 : Within [.csr] ps := Within.trans (by decide +kernel) hW
  have w4 : Within [.csr, .evt] ps := Within.trans (by decide +kernel) hW
  have w5 : Within [.freeCtr] ps := Within.trans (by decide +kernel) hW
  unfold execIngest
  repeat' (first | with_reducible assumption | with_reducible apply ltaRead_same w1
                  | with_reducible apply setMedJob_same w2 | with_reducible apply medHead_same w1
                  | with_reducible apply medTaken_same w3 | with_reducible apply decodeEvents_same w4
                  | with_reducible apply outSame_next | simp only [same_mk_freeCtr w5]
                  | with_reducible refine same_fst (by assumption) ?_ | extract_lets | split)

theorem execIngestFrame_same {ps : List Part} {s0 : State} {e : Fin 32} {ext : Ext} {s : State}
    (hW : Within [.freeCtr, .csr, .evt, .answers, .stks, .fast, .fastMark, .deepMark, .pages, .pageCache, .frameMap, .blocks, .slots, .migq, .stalled, .stallFail, .plcCh, .plans, .med] ps) (hK : SameBut ps s0 s) :
    OutSame ps s0 (execIngestFrame e ext s) := by
  have w1 : Within [.csr] ps := Within.trans (by decide +kernel) hW
  have w2 : Within [.csr, .evt] ps := Within.trans (by decide +kernel) hW
  have w3 : Within [.freeCtr, .csr, .evt, .answers, .stks, .fast, .fastMark, .deepMark, .pages, .pageCache, .frameMap, .blocks, .slots, .migq, .stalled, .stallFail, .plcCh, .plans] ps := Within.trans (by decide +kernel) hW
  have w4 : Within [.med] ps := Within.trans (by decide +kernel) hW
  unfold execIngestFrame
  repeat' (first | with_reducible assumption | with_reducible apply wr_same w1
                  | with_reducible apply bumpStat_same w1 | with_reducible apply bumpOcc_same w2
                  | with_reducible apply ltaWrite_same w3 | with_reducible apply setMedJob_same w4
                  | with_reducible apply outSame_next | with_reducible refine same_fst (by assumption) ?_
                  | extract_lets | split)

theorem execIngestJobDone_same {ps : List Part} {s0 : State} {e : Fin 32} {_ext : Ext} {s : State}
    (hW : Within [.freeCtr, .csr, .evt, .cores, .answers, .stks, .fast, .fastMark, .deepMark, .pages, .pageCache, .frameMap, .blocks, .slots, .migq, .stalled, .stallFail, .plcCh, .plans, .med] ps) (hK : SameBut ps s0 s) :
    OutSame ps s0 (execIngestJobDone e _ext s) := by
  have w1 : Within [.freeCtr, .csr, .evt, .answers, .stks, .fast, .fastMark, .deepMark, .pages, .pageCache, .frameMap, .blocks, .slots, .migq, .stalled, .stallFail, .plcCh, .plans] ps := Within.trans (by decide +kernel) hW
  have w2 : Within [.med] ps := Within.trans (by decide +kernel) hW
  have w3 : Within [.freeCtr, .csr, .evt, .cores, .answers, .stks, .fast, .fastMark, .deepMark, .pages, .pageCache, .frameMap, .blocks, .slots, .migq, .stalled, .stallFail, .plcCh, .plans] ps := Within.trans (by decide +kernel) hW
  unfold execIngestJobDone
  repeat' (first | with_reducible assumption | with_reducible apply ltaWrite_same w1
                  | with_reducible apply setMedJob_same w2 | with_reducible apply medComplete_same w3
                  | with_reducible apply outSame_next | with_reducible refine same_fst (by assumption) ?_
                  | extract_lets | split | dsimp +zetaDelta only)

theorem execMedCancel_same {ps : List Part} {s0 : State} {r : Fin 8} {s : State}
    (hW : Within [.freeCtr, .csr, .evt, .cores, .answers, .stks, .fast, .fastMark, .deepMark, .pages, .pageCache, .frameMap, .blocks, .slots, .migq, .stalled, .stallFail, .plcCh, .plans, .med] ps) (hK : SameBut ps s0 s) :
    OutSame ps s0 (execMedCancel r s) := by
  have w1 : Within [.freeCtr, .csr, .evt, .cores, .answers, .stks, .fast, .fastMark, .deepMark, .pages, .pageCache, .frameMap, .blocks, .slots, .migq, .stalled, .stallFail, .plcCh, .plans] ps := Within.trans (by decide +kernel) hW
  have w2 : Within [.freeCtr, .csr, .evt, .answers, .stks, .fast, .fastMark, .deepMark, .pages, .pageCache, .frameMap, .blocks, .slots, .migq, .stalled, .stallFail, .plcCh, .plans] ps := Within.trans (by decide +kernel) hW
  have w3 : Within [.csr] ps := Within.trans (by decide +kernel) hW
  have w4 : Within [.med] ps := Within.trans (by decide +kernel) hW
  unfold execMedCancel
  repeat' (first | with_reducible assumption | with_reducible apply medComplete_same w1
                  | with_reducible apply medHead_same w2 | with_reducible apply medTaken_same w3
                  | with_reducible apply outSame_next | simp only [same_mk_med w4]
                  | with_reducible refine same_fst (by assumption) ?_ | split)

theorem execShuf_same {ps : List Part} {s0 : State} {r : Fin 8} {s : State}
    (hW : Within [.freeCtr, .csr, .evt, .answers, .stks, .fast, .fastMark, .deepMark, .pages, .pageCache, .frameMap, .blocks, .slots, .migq, .stalled, .stallFail, .plcCh, .plans, .med] ps) (hK : SameBut ps s0 s) :
    OutSame ps s0 (execShuf r s) := by
  have w1 : Within [.freeCtr, .csr, .evt, .answers, .stks, .fast, .fastMark, .deepMark, .pages, .pageCache, .frameMap, .blocks, .slots, .migq, .stalled, .stallFail, .plcCh, .plans] ps := Within.trans (by decide +kernel) hW
  have w2 : Within [.csr] ps := Within.trans (by decide +kernel) hW
  have w3 : Within [.med] ps := Within.trans (by decide +kernel) hW
  unfold execShuf
  repeat' (first | with_reducible assumption | with_reducible apply ltaRead_same w1
                  | with_reducible apply medHead_same w1 | with_reducible apply medTaken_same w2
                  | with_reducible apply outSame_next | simp only [same_mk_med w3]
                  | with_reducible refine same_fst (by assumption) ?_ | split)

theorem shufFinish_same {ps : List Part} {s0 : State} {s : State} {x : ShufJob}
    (hW : Within [.freeCtr, .csr, .evt, .cores, .answers, .stks, .fast, .fastMark, .deepMark, .pages, .pageCache, .frameMap, .blocks, .slots, .migq, .stalled, .stallFail, .plcCh, .plans, .med] ps) (hK : SameBut ps s0 s) :
    SameBut ps s0 (shufFinish s x) := by
  have w1 : Within [.freeCtr, .csr, .evt, .cores, .answers, .stks, .fast, .fastMark, .deepMark, .pages, .pageCache, .frameMap, .blocks, .slots, .migq, .stalled, .stallFail, .plcCh, .plans] ps := Within.trans (by decide +kernel) hW
  have w2 : Within [.med] ps := Within.trans (by decide +kernel) hW
  unfold shufFinish
  repeat' (first | with_reducible assumption | with_reducible apply medComplete_same w1 | simp only [same_mk_med w2]
                  | with_reducible refine same_fst (by assumption) ?_ | split)

theorem execShufJobGenerate_same {ps : List Part} {s0 : State} {s : State}
    (hW : Within [.freeCtr, .csr, .evt, .cores, .answers, .stks, .fast, .fastMark, .deepMark, .pages, .pageCache, .frameMap, .blocks, .slots, .migq, .stalled, .stallFail, .plcCh, .plans, .med] ps) (hK : SameBut ps s0 s) :
    OutSame ps s0 (execShufJobGenerate s) := by
  have w1 : Within [.csr] ps := Within.trans (by decide +kernel) hW
  have w2 : Within [.freeCtr, .csr, .evt, .answers, .stks, .fast, .fastMark, .deepMark, .pages, .pageCache, .frameMap, .blocks, .slots, .migq, .stalled, .stallFail, .plcCh, .plans] ps := Within.trans (by decide +kernel) hW
  have w3 : Within [.med] ps := Within.trans (by decide +kernel) hW
  unfold execShufJobGenerate
  repeat' (first | with_reducible assumption | with_reducible apply setFld_same w1
                  | with_reducible apply bumpStat_same w1 | with_reducible apply ltaRead_same w2
                  | with_reducible apply ltaWrite_same w2 | with_reducible apply shufFinish_same hW
                  | with_reducible apply outSame_next | simp only [same_mk_med w3]
                  | with_reducible refine same_fst (by assumption) ?_ | extract_lets | split)

theorem medSqPi_same {ps : List Part} {s0 : State} {s : State} {ini : Initiator} {r : Nat} {v : Nat}
    (hW : Within [.csr, .evt] ps) (hK : SameBut ps s0 s) :
    SameBut ps s0 (medSqPi s ini r v) := by
  unfold medSqPi
  repeat' (first | with_reducible assumption | with_reducible apply ringPush_same hW)

theorem medReset_same {ps : List Part} {s0 : State} {s : State}
    (hW : Within [.med] ps) (hK : SameBut ps s0 s) :
    SameBut ps s0 (medReset s) := by
  unfold medReset
  repeat' (first | with_reducible assumption | simp only [same_mk_med hW])

end Sys2Proof.Machine
end

