-- ==== Sys2Proof/Laws/FrameLink.lean ====
section
/-! SUPPORT. What the functions of Machine/Link.lean leave unchanged (see Laws/Frame.lean). -/

set_option Elab.async false -- many small kernel checks: one thread does them
set_option linter.unusedSimpArgs false
set_option simprocs false -- no numeral of a goal is evaluated in these proofs

namespace Sys2Proof.Machine

theorem setLink_same {ps : List Part} {s0 : State} {s : State} {l : Nat} {v : Link}
    (hW : Within [.links] ps) (hK : SameBut ps s0 s) :
    SameBut ps s0 (setLink s l v) := by
  unfold setLink
  repeat' (first | with_reducible assumption | simp only [same_mk_links hW])

theorem emit_same {ps : List Part} {s0 : State} {s : State} {l : Nat} {f : Flit}
    (hW : Within [.links] ps) (hK : SameBut ps s0 s) :
    SameBut ps s0 (emit s l f) := by
  unfold emit
  repeat' (first | with_reducible assumption | with_reducible apply setLink_same hW)

theorem linkQueue_same {ps : List Part} {s0 : State} {s : State} {l : Nat} {vc : Nat} {hc : Nat} {bs : Bytes}
    (hW : Within [.links] ps) (hK : SameBut ps s0 s) :
    SameBut ps s0 (linkQueue s l vc hc bs) := by
  unfold linkQueue
  repeat' (first | with_reducible assumption | with_reducible apply setLink_same hW)

theorem emitInit_same {ps : List Part} {s0 : State} {s : State} {l : Nat}
    (hW : Within [.links] ps) (hK : SameBut ps s0 s) :
    SameBut ps s0 (emitInit s l) := by
  unfold emitInit
  repeat' (first | with_reducible assumption | with_reducible apply emit_same hW)

theorem dropMsg_same {ps : List Part} {s0 : State} {s : State} {reason : Nat} {dst : Nat} {src : Nat} {mtype : Nat}
    (hW : Within [.csr, .evt] ps) (hK : SameBut ps s0 s) :
    SameBut ps s0 (dropMsg s reason dst src mtype) := by
  have w1 : Within [.csr] ps := Within.trans (by decide +kernel) hW
  unfold dropMsg
  repeat' (first | with_reducible assumption | with_reducible apply wr_same w1 | with_reducible apply raise_same hW
                  | with_reducible apply bumpOcc_same hW | extract_lets | split)

theorem dropPartial_same {ps : List Part} {s0 : State} {s : State} {l : Nat} {v : Link}
    (hW : Within [.csr, .evt] ps) (hK : SameBut ps s0 s) :
    SameBut ps s0 (dropPartial s l v) := by
  unfold dropPartial
  repeat' (first | with_reducible assumption | with_reducible apply dropMsg_same hW
                  | (with_reducible apply same_foldl; (try intros)) | extract_lets | split)

theorem hostSuspend_same {ps : List Part} {s0 : State} {s : State}
    (hW : Within [.csr] ps) (hK : SameBut ps s0 s) :
    SameBut ps s0 (hostSuspend s) := by
  unfold hostSuspend
  repeat' (first | with_reducible assumption | with_reducible apply setFld_same hW | split)

theorem linkStop_same {ps : List Part} {s0 : State} {s : State} {l : Nat} {st : LinkSt} {cause : Nat}
    (hW : Within [.csr, .evt, .links, .fabc] ps) (hK : SameBut ps s0 s) :
    SameBut ps s0 (linkStop s l st cause) := by
  have w1 : Within [.csr] ps := Within.trans (by decide +kernel) hW
  have w2 : Within [.csr, .evt] ps := Within.trans (by decide +kernel) hW
  have w3 : Within [.links] ps := Within.trans (by decide +kernel) hW
  have w4 : Within [.fabc] ps := Within.trans (by decide +kernel) hW
  unfold linkStop
  repeat' (first | with_reducible assumption | with_reducible apply setFlag_same w1
                  | with_reducible apply raise_same w2 | with_reducible apply bumpOcc_same w2
                  | with_reducible apply setLink_same w3 | with_reducible apply dropPartial_same w2
                  | with_reducible apply hostSuspend_same w1 | simp only [same_mk_fabc w4] | extract_lets | split)

theorem protoError_same {ps : List Part} {s0 : State} {s : State} {l : Nat}
    (hW : Within [.csr, .evt, .links, .fabc] ps) (hK : SameBut ps s0 s) :
    SameBut ps s0 (protoError s l) := by
  unfold protoError
  repeat' (first | with_reducible assumption | with_reducible apply linkStop_same hW)

theorem linkTrain_same {ps : List Part} {s0 : State} {s : State} {l : Nat}
    (hW : Within [.links] ps) (hK : SameBut ps s0 s) :
    SameBut ps s0 (linkTrain s l) := by
  unfold linkTrain
  repeat' (first | with_reducible assumption | with_reducible apply setLink_same hW)

theorem linkEnableEff_same {ps : List Part} {s0 : State} {s : State} {l : Nat}
    (hW : Within [.csr, .evt, .links, .fabc] ps) (hK : SameBut ps s0 s) :
    SameBut ps s0 (linkEnableEff s l) := by
  have w1 : Within [.links] ps := Within.trans (by decide +kernel) hW
  unfold linkEnableEff
  repeat' (first | with_reducible assumption | with_reducible apply linkStop_same hW
                  | with_reducible apply linkTrain_same w1 | extract_lets | split)

theorem linkRetrainEff_same {ps : List Part} {s0 : State} {s : State} {l : Nat}
    (hW : Within [.links] ps) (hK : SameBut ps s0 s) :
    SameBut ps s0 (linkRetrainEff s l) := by
  unfold linkRetrainEff
  repeat' (first | with_reducible assumption | with_reducible apply linkTrain_same hW | split)

theorem linkUpEvent_same {ps : List Part} {s0 : State} {s : State} {l : Nat}
    (hW : Within [.csr, .evt] ps) (hK : SameBut ps s0 s) :
    SameBut ps s0 (linkUpEvent s l) := by
  unfold linkUpEvent
  repeat' (first | with_reducible assumption | with_reducible apply raise_same hW)

theorem linkAdmitEff_same {ps : List Part} {s0 : State} {s : State} {l : Nat}
    (hW : Within [.csr, .evt, .links] ps) (hK : SameBut ps s0 s) :
    SameBut ps s0 (linkAdmitEff s l) := by
  have w1 : Within [.links] ps := Within.trans (by decide +kernel) hW
  have w2 : Within [.csr, .evt] ps := Within.trans (by decide +kernel) hW
  unfold linkAdmitEff
  repeat' (first | with_reducible assumption | with_reducible apply setLink_same w1
                  | with_reducible apply linkUpEvent_same w2 | extract_lets | split)

theorem linkRevokeEff_same {ps : List Part} {s0 : State} {s : State} {l : Nat}
    (hW : Within [.csr, .evt, .links, .fabc] ps) (hK : SameBut ps s0 s) :
    SameBut ps s0 (linkRevokeEff s l) := by
  unfold linkRevokeEff
  repeat' (first | with_reducible assumption | with_reducible apply linkStop_same hW | split)

theorem sendLocal_same {ps : List Part} {s0 : State} {s : State} {l : Nat} {sub : Nat} {p : Bytes}
    (hW : Within [.links] ps) (hK : SameBut ps s0 s) :
    SameBut ps s0 (sendLocal s l sub p) := by
  unfold sendLocal
  repeat' (first | with_reducible assumption | with_reducible apply linkQueue_same hW)

theorem linkReady_same {ps : List Part} {s0 : State} {s : State} {l : Nat}
    (hW : Within [.freeCtr, .csr, .evt, .links] ps) (hK : SameBut ps s0 s) :
    SameBut ps s0 (linkReady s l) := by
  have w1 : Within [.csr, .evt] ps := Within.trans (by decide +kernel) hW
  have w2 : Within [.links] ps := Within.trans (by decide +kernel) hW
  have w3 : Within [.csr, .evt, .links] ps := Within.trans (by decide +kernel) hW
  have w4 : Within [.freeCtr] ps := Within.trans (by decide +kernel) hW
  unfold linkReady
  repeat' (first | with_reducible assumption | with_reducible apply raise_same w1
                  | with_reducible apply setLink_same w2 | with_reducible apply linkAdmitEff_same w3
                  | with_reducible apply sendLocal_same w2 | simp only [same_mk_freeCtr w4] | split)

theorem helloRx_same {ps : List Part} {s0 : State} {s : State} {l : Nat}
    (hW : Within [.csr, .evt] ps) (hK : SameBut ps s0 s) :
    SameBut ps s0 (helloRx s l) := by
  unfold helloRx
  repeat' (first | with_reducible assumption | with_reducible apply raise_same hW | extract_lets | split)

theorem freeArrived_same {ps : List Part} {s0 : State} {s : State} {l : Nat} {bs : Bytes}
    (hW : Within [.links] ps) (hK : SameBut ps s0 s) :
    SameBut ps s0 (freeArrived s l bs) := by
  unfold freeArrived
  repeat' (first | with_reducible assumption | with_reducible apply setLink_same hW | extract_lets | split)

theorem flitLost_same {ps : List Part} {s0 : State} {s : State} {l : Nat}
    (hW : Within [.links] ps) (hK : SameBut ps s0 s) :
    SameBut ps s0 (flitLost s l) := by
  unfold flitLost
  repeat' (first | with_reducible assumption | with_reducible apply setLink_same hW
                  | with_reducible apply emit_same hW | extract_lets | split)

theorem crcFail_same {ps : List Part} {s0 : State} {s : State} {l : Nat} {n : Nat}
    (hW : Within [.csr, .evt, .links] ps) (hK : SameBut ps s0 s) :
    SameBut ps s0 (crcFail s l n) := by
  have w1 : Within [.csr, .evt] ps := Within.trans (by decide +kernel) hW
  have w2 : Within [.links] ps := Within.trans (by decide +kernel) hW
  unfold crcFail
  repeat' (first | with_reducible assumption | with_reducible apply bumpOcc_same w1
                  | with_reducible apply flitLost_same w2 | extract_lets | split)

theorem dataFlit_same {ps : List Part} {s0 : State} {s : State} {l : Nat} {f : Flit}
    (hW : Within [.csr, .evt, .links, .fabc] ps) (hK : SameBut ps s0 s) :
    SameBut ps s0 (dataFlit s l f) := by
  have w1 : Within [.csr] ps := Within.trans (by decide +kernel) hW
  have w2 : Within [.links] ps := Within.trans (by decide +kernel) hW
  unfold dataFlit
  repeat' (first | with_reducible assumption | with_reducible apply bumpStat_same w1
                  | with_reducible apply setLink_same w2 | with_reducible apply protoError_same hW
                  | with_reducible apply flitLost_same w2 | extract_lets | split)

theorem heartbeat_same {ps : List Part} {s0 : State} {s : State} {l : Nat} {f : Flit}
    (hW : Within [.stalled, .links] ps) (hK : SameBut ps s0 s) :
    SameBut ps s0 (heartbeat s l f) := by
  have w1 : Within [.links] ps := Within.trans (by decide +kernel) hW
  unfold heartbeat
  repeat' (first | with_reducible assumption | with_reducible apply setLink_same w1 | extract_lets | split)

theorem initFlit_same {ps : List Part} {s0 : State} {s : State} {l : Nat} {f : Flit}
    (hW : Within [.freeCtr, .csr, .evt, .links] ps) (hK : SameBut ps s0 s) :
    SameBut ps s0 (initFlit s l f) := by
  have w1 : Within [.links] ps := Within.trans (by decide +kernel) hW
  unfold initFlit
  repeat' (first | with_reducible assumption | with_reducible apply setLink_same w1
                  | with_reducible apply emitInit_same w1 | with_reducible apply linkReady_same hW | extract_lets
                  | split)

theorem resendHeld_same {ps : List Part} {s0 : State} {s : State} {l : Nat}
    (hW : Within [.csr, .evt, .links, .fabc] ps) (hK : SameBut ps s0 s) :
    SameBut ps s0 (resendHeld s l) := by
  have w1 : Within [.csr, .evt] ps := Within.trans (by decide +kernel) hW
  have w2 : Within [.links] ps := Within.trans (by decide +kernel) hW
  unfold resendHeld
  repeat' (first | with_reducible assumption | with_reducible apply bumpOcc_same w1
                  | with_reducible apply setLink_same w2 | with_reducible apply emit_same w2
                  | with_reducible apply linkStop_same hW | extract_lets | split)

theorem takeFlit_same {ps : List Part} {s0 : State} {s : State} {l : Nat} {f : Flit}
    (hW : Within [.freeCtr, .csr, .evt, .cores, .answers, .stks, .fast, .fastMark, .deepMark, .pages, .pageCache, .frameMap, .blocks, .slots, .migq, .stalled, .stallFail, .plcCh, .plans, .outbox, .links, .fabc, .hlk, .harts] ps) (hK : SameBut ps s0 s) :
    SameBut ps s0 (takeFlit s l f) := by
  have w1 : Within [.links] ps := Within.trans (by decide +kernel) hW
  have w2 : Within [.csr, .evt, .links, .fabc] ps := Within.trans (by decide +kernel) hW
  have w3 : Within [.csr, .evt, .links] ps := Within.trans (by decide +kernel) hW
  have w4 : Within [.stalled, .links] ps := Within.trans (by decide +kernel) hW
  unfold takeFlit
  repeat' (first | with_reducible assumption | with_reducible apply setLink_same w1
                  | with_reducible apply protoError_same w2 | with_reducible apply crcFail_same w3
                  | with_reducible apply dataFlit_same w2 | with_reducible apply heartbeat_same w4
                  | with_reducible apply resendHeld_same w2 | extract_lets | split)

theorem execLinkTrained_same {ps : List Part} {s0 : State} {l : Fin 25} {lanes : Byte} {s : State}
    (hW : Within [.csr, .evt, .links] ps) (hK : SameBut ps s0 s) :
    OutSame ps s0 (execLinkTrained l lanes s) := by
  have w1 : Within [.csr, .evt] ps := Within.trans (by decide +kernel) hW
  have w2 : Within [.links] ps := Within.trans (by decide +kernel) hW
  unfold execLinkTrained
  repeat' (first | with_reducible assumption | with_reducible apply raise_same w1
                  | with_reducible apply setLink_same w2 | with_reducible apply emitInit_same w2
                  | with_reducible apply outSame_next | extract_lets | split)

theorem execLinkTrainingTimeout_same {ps : List Part} {s0 : State} {l : Fin 25} {s : State}
    (hW : Within [.csr, .evt, .links, .fabc] ps) (hK : SameBut ps s0 s) :
    OutSame ps s0 (execLinkTrainingTimeout l s) := by
  unfold execLinkTrainingTimeout
  repeat' (first | with_reducible assumption | with_reducible apply linkStop_same hW
                  | with_reducible apply outSame_next | split)

theorem execLinkAutoRetrain_same {ps : List Part} {s0 : State} {l : Fin 25} {s : State}
    (hW : Within [.links] ps) (hK : SameBut ps s0 s) :
    OutSame ps s0 (execLinkAutoRetrain l s) := by
  unfold execLinkAutoRetrain
  repeat' (first | with_reducible assumption | with_reducible apply linkTrain_same hW
                  | with_reducible apply outSame_next | split)

theorem execLaneLockLost_same {ps : List Part} {s0 : State} {l : Fin 25} {s : State}
    (hW : Within [.csr, .evt, .links, .fabc] ps) (hK : SameBut ps s0 s) :
    OutSame ps s0 (execLaneLockLost l s) := by
  unfold execLaneLockLost
  repeat' (first | with_reducible assumption | with_reducible apply linkStop_same hW
                  | with_reducible apply outSame_next | split)

theorem execInitFlitReceive_same {ps : List Part} {s0 : State} {l : Fin 25} {f : Flit} {s : State}
    (hW : Within [.freeCtr, .csr, .evt, .links, .fabc] ps) (hK : SameBut ps s0 s) :
    OutSame ps s0 (execInitFlitReceive l f s) := by
  have w1 : Within [.csr, .evt, .links, .fabc] ps := Within.trans (by decide +kernel) hW
  have w2 : Within [.csr, .evt, .links] ps := Within.trans (by decide +kernel) hW
  have w3 : Within [.freeCtr, .csr, .evt, .links] ps := Within.trans (by decide +kernel) hW
  unfold execInitFlitReceive
  repeat' (first | with_reducible assumption | with_reducible apply protoError_same w1
                  | with_reducible apply crcFail_same w2 | with_reducible apply initFlit_same w3
                  | with_reducible apply outSame_next | extract_lets | split)

theorem execDataFlitReceive_same {ps : List Part} {s0 : State} {l : Fin 25} {f : Flit} {s : State}
    (hW : Within [.freeCtr, .csr, .evt, .cores, .answers, .stks, .fast, .fastMark, .deepMark, .pages, .pageCache, .frameMap, .blocks, .slots, .migq, .stalled, .stallFail, .plcCh, .plans, .outbox, .links, .fabc, .hlk, .harts] ps) (hK : SameBut ps s0 s) :
    OutSame ps s0 (execDataFlitReceive l f s) := by
  unfold execDataFlitReceive
  repeat' (first | with_reducible assumption | with_reducible apply takeFlit_same hW
                  | with_reducible apply outSame_next | split)

theorem execFecUncorrectable_same {ps : List Part} {s0 : State} {l : Fin 25} {flits : Nat} {s : State}
    (hW : Within [.csr, .evt, .links] ps) (hK : SameBut ps s0 s) :
    OutSame ps s0 (execFecUncorrectable l flits s) := by
  have w1 : Within [.csr, .evt] ps := Within.trans (by decide +kernel) hW
  unfold execFecUncorrectable
  repeat' (first | with_reducible assumption | with_reducible apply bumpOcc_same w1
                  | with_reducible apply crcFail_same hW | with_reducible apply outSame_next | split)

theorem execNakReceive_same {ps : List Part} {s0 : State} {l : Fin 25} {f : Flit} {s : State}
    (hW : Within [.freeCtr, .csr, .evt, .cores, .answers, .stks, .fast, .fastMark, .deepMark, .pages, .pageCache, .frameMap, .blocks, .slots, .migq, .stalled, .stallFail, .plcCh, .plans, .outbox, .links, .fabc, .hlk, .harts] ps) (hK : SameBut ps s0 s) :
    OutSame ps s0 (execNakReceive l f s) := by
  unfold execNakReceive
  repeat' (first | with_reducible assumption | with_reducible apply takeFlit_same hW
                  | with_reducible apply outSame_next | split)

theorem execAckTimeout_same {ps : List Part} {s0 : State} {l : Fin 25} {s : State}
    (hW : Within [.csr, .evt, .links, .fabc] ps) (hK : SameBut ps s0 s) :
    OutSame ps s0 (execAckTimeout l s) := by
  unfold execAckTimeout
  repeat' (first | with_reducible assumption | with_reducible apply resendHeld_same hW
                  | with_reducible apply outSame_next | split)

theorem execFlitSend_same {ps : List Part} {s0 : State} {l : Fin 25} {s : State}
    (hW : Within [.freeCtr, .csr, .evt, .cores, .answers, .stks, .fast, .fastMark, .deepMark, .pages, .pageCache, .frameMap, .blocks, .slots, .migq, .stalled, .stallFail, .plcCh, .plans, .outbox, .links, .hlk, .harts] ps) (hK : SameBut ps s0 s) :
    OutSame ps s0 (execFlitSend l s) := by
  have w1 : Within [.csr] ps := Within.trans (by decide +kernel) hW
  have w2 : Within [.links] ps := Within.trans (by decide +kernel) hW
  unfold execFlitSend
  repeat' (first | with_reducible assumption | with_reducible apply bumpStat_same w1
                  | with_reducible apply setLink_same w2 | with_reducible apply emit_same w2
                  | with_reducible apply outSame_next | extract_lets | split)

theorem execKeepaliveSend_same {ps : List Part} {s0 : State} {l : Fin 25} {s : State}
    (hW : Within [.links] ps) (hK : SameBut ps s0 s) :
    OutSame ps s0 (execKeepaliveSend l s) := by
  unfold execKeepaliveSend
  repeat' (first | with_reducible assumption | with_reducible apply emit_same hW | with_reducible apply outSame_next
                  | split)

theorem execKeepaliveTimeout_same {ps : List Part} {s0 : State} {l : Fin 25} {s : State}
    (hW : Within [.csr, .evt, .links, .fabc] ps) (hK : SameBut ps s0 s) :
    OutSame ps s0 (execKeepaliveTimeout l s) := by
  unfold execKeepaliveTimeout
  repeat' (first | with_reducible assumption | with_reducible apply linkStop_same hW
                  | with_reducible apply outSame_next | split)

theorem execPeerStalled_same {ps : List Part} {s0 : State} {l : Fin 24} {s : State}
    (hW : Within [.csr, .evt, .stalled, .links] ps) (hK : SameBut ps s0 s) :
    OutSame ps s0 (execPeerStalled l s) := by
  have w1 : Within [.csr, .evt] ps := Within.trans (by decide +kernel) hW
  have w2 : Within [.links] ps := Within.trans (by decide +kernel) hW
  have w3 : Within [.stalled] ps := Within.trans (by decide +kernel) hW
  unfold execPeerStalled
  repeat' (first | with_reducible assumption | with_reducible apply raise_same w1
                  | with_reducible apply setLink_same w2 | with_reducible apply outSame_next
                  | simp only [same_mk_stalled w3] | split)

theorem execHelloReceive_same {ps : List Part} {s0 : State} {l : Fin 24} {m : FabMsg} {s : State}
    (hW : Within [.csr, .evt, .links, .fabc] ps) (hK : SameBut ps s0 s) :
    OutSame ps s0 (execHelloReceive l m s) := by
  have w1 : Within [.csr] ps := Within.trans (by decide +kernel) hW
  have w2 : Within [.links] ps := Within.trans (by decide +kernel) hW
  have w3 : Within [.csr, .evt] ps := Within.trans (by decide +kernel) hW
  have w4 : Within [.fabc] ps := Within.trans (by decide +kernel) hW
  unfold execHelloReceive
  repeat' (first | with_reducible assumption | with_reducible apply wr_same w1
                  | with_reducible apply setLink_same w2 | with_reducible apply helloRx_same w3
                  | with_reducible apply freeArrived_same w2 | with_reducible apply outSame_next
                  | simp only [same_mk_fabc w4] | split)

theorem execHelloProofReceive_same {ps : List Part} {s0 : State} {l : Fin 24} {m : FabMsg} {s : State}
    (hW : Within [.csr, .evt, .links] ps) (hK : SameBut ps s0 s) :
    OutSame ps s0 (execHelloProofReceive l m s) := by
  have w1 : Within [.links] ps := Within.trans (by decide +kernel) hW
  have w2 : Within [.csr, .evt] ps := Within.trans (by decide +kernel) hW
  unfold execHelloProofReceive
  repeat' (first | with_reducible assumption | with_reducible apply setLink_same w1
                  | with_reducible apply helloRx_same w2 | with_reducible apply freeArrived_same w1
                  | with_reducible apply outSame_next | extract_lets | split)

theorem endTxns_same {ps : List Part} {s0 : State} {s : State} {p : Txn → Bool} {st : Nat}
    (hW : Within [.answers, .fabc] ps) (hK : SameBut ps s0 s) :
    SameBut ps s0 (endTxns s p st) := by
  have w1 : Within [.answers] ps := Within.trans (by decide +kernel) hW
  have w2 : Within [.fabc] ps := Within.trans (by decide +kernel) hW
  unfold endTxns
  repeat' (first | with_reducible assumption | with_reducible apply answer_same w1 | simp only [same_mk_fabc w2]
                  | (with_reducible apply same_foldl; (try intros)))

theorem portReset_same {ps : List Part} {s0 : State} {s : State} {p : Nat}
    (hW : Within [.answers, .links, .fabc] ps) (hK : SameBut ps s0 s) :
    SameBut ps s0 (portReset s p) := by
  have w1 : Within [.answers, .fabc] ps := Within.trans (by decide +kernel) hW
  have w2 : Within [.links, .fabc] ps := Within.trans (by decide +kernel) hW
  unfold portReset
  repeat' (first | with_reducible assumption | with_reducible apply endTxns_same w1
                  | simp only [same_mk_links_fabc w2])

theorem portCommit_same {ps : List Part} {s0 : State} {s : State} {p : Nat} {was : Bool}
    (hW : Within [.csr, .evt, .links, .fabc] ps) (hK : SameBut ps s0 s) :
    SameBut ps s0 (portCommit s p was) := by
  unfold portCommit
  repeat' (first | with_reducible assumption | with_reducible apply linkStop_same hW
                  | with_reducible apply linkEnableEff_same hW | extract_lets | split | dsimp +zetaDelta only)

end Sys2Proof.Machine
end

