-- ==== Sys2Proof/Laws/FrameFabric.lean ====
section
/-! SUPPORT. What the functions of Machine/Fabric.lean leave unchanged (see Laws/Frame.lean). -/

set_option Elab.async false -- many small kernel checks: one thread does them
set_option linter.unusedSimpArgs false
set_option simprocs false -- no numeral of a goal is evaluated in these proofs

namespace Sys2Proof.Machine

theorem leave_same {ps : List Part} {s0 : State} {s : State} {m : FabMsg} {l : Nat} {c : Nat}
    (hW : Within [.links] ps) (hK : SameBut ps s0 s) :
    SameBut ps s0 (leave s m l c) := by
  unfold leave
  repeat' (first | with_reducible assumption | with_reducible apply linkQueue_same hW)

theorem noteLink_same {ps : List Part} {s0 : State} {s : State} {m : FabMsg} {l : Nat}
    (hW : Within [.fabc] ps) (hK : SameBut ps s0 s) :
    SameBut ps s0 (noteLink s m l) := by
  unfold noteLink
  repeat' (first | with_reducible assumption | simp only [same_mk_fabc hW] | split)

theorem startOwn_same {ps : List Part} {s0 : State} {s : State} {t : State} {m : FabMsg} {f : Fate}
    (hW : Within [.csr, .evt, .links, .fabc] ps) (hK : SameBut ps s0 s) (hK1 : SameBut ps s0 t) :
    SameBut ps s0 (startOwn s t m f) := by
  have w1 : Within [.csr] ps := Within.trans (by decide +kernel) hW
  have w2 : Within [.csr, .evt] ps := Within.trans (by decide +kernel) hW
  have w3 : Within [.links] ps := Within.trans (by decide +kernel) hW
  have w4 : Within [.fabc] ps := Within.trans (by decide +kernel) hW
  unfold startOwn
  repeat' (first | with_reducible assumption | with_reducible apply bumpStat_same w1
                  | with_reducible apply bumpOcc_same w2 | with_reducible apply dropMsg_same w2
                  | with_reducible apply leave_same w3 | with_reducible apply noteLink_same w4 | extract_lets
                  | split)

theorem pushHead_same {ps : List Part} {s0 : State} {s : State}
    (hW : Within [.freeCtr, .csr, .evt, .answers, .stks, .fast, .fastMark, .deepMark, .pages, .pageCache, .frameMap, .blocks, .slots, .migq, .stalled, .stallFail, .plcCh, .plans] ps) (hK : SameBut ps s0 s) :
    SameBut ps s0 (pushHead s).1 := by
  unfold pushHead
  repeat' (first | with_reducible assumption | with_reducible apply ltaRead_same hW
                  | with_reducible refine same_fst (by assumption) ?_ | split)

theorem popPush_same {ps : List Part} {s0 : State} {s : State}
    (hW : Within [.fabc] ps) (hK : SameBut ps s0 s) :
    SameBut ps s0 (popPush s) := by
  unfold popPush
  repeat' (first | with_reducible assumption | simp only [same_mk_fabc hW])

theorem routeOwn_same {ps : List Part} {s0 : State} {s : State} {m : FabMsg}
    (hW : Within [.freeCtr, .csr, .evt, .answers, .stks, .fast, .fastMark, .deepMark, .pages, .pageCache, .frameMap, .blocks, .slots, .migq, .stalled, .stallFail, .plcCh, .plans, .outbox, .links, .fabc] ps) (hK : SameBut ps s0 s) :
    SameBut ps s0 (routeOwn s m) := by
  have w1 : Within [.csr, .evt, .links, .fabc] ps := Within.trans (by decide +kernel) hW
  have w2 : Within [.freeCtr, .csr, .evt, .answers, .stks, .fast, .fastMark, .deepMark, .pages, .pageCache, .frameMap, .blocks, .slots, .migq, .stalled, .stallFail, .plcCh, .plans] ps := Within.trans (by decide +kernel) hW
  have w3 : Within [.fabc] ps := Within.trans (by decide +kernel) hW
  have w4 : Within [.outbox] ps := Within.trans (by decide +kernel) hW
  unfold routeOwn
  repeat' (first | with_reducible assumption | with_reducible apply startOwn_same w1
                  | with_reducible apply pushHead_same w2 | with_reducible apply popPush_same w3
                  | simp only [same_mk_outbox w4] | with_reducible refine same_fst (by assumption) ?_ | split)

theorem routeIn_same {ps : List Part} {s0 : State} {s : State} {l : Nat} {m : FabMsg} {out : FabMsg} {f : Fate}
    (hW : Within [.csr, .evt, .links] ps) (hK : SameBut ps s0 s) :
    SameBut ps s0 (routeIn s l m out f) := by
  have w1 : Within [.csr] ps := Within.trans (by decide +kernel) hW
  have w2 : Within [.csr, .evt] ps := Within.trans (by decide +kernel) hW
  have w3 : Within [.links] ps := Within.trans (by decide +kernel) hW
  unfold routeIn
  repeat' (first | with_reducible assumption | with_reducible apply bumpStat_same w1
                  | with_reducible apply dropMsg_same w2 | with_reducible apply freeArrived_same w3
                  | with_reducible apply leave_same w3 | extract_lets | split)

theorem execMessageRoute_same {ps : List Part} {s0 : State} {ingress : Option (Fin 24)} {m : FabMsg} {s : State}
    (hW : Within [.freeCtr, .csr, .evt, .answers, .stks, .fast, .fastMark, .deepMark, .pages, .pageCache, .frameMap, .blocks, .slots, .migq, .stalled, .stallFail, .plcCh, .plans, .outbox, .links, .fabc] ps) (hK : SameBut ps s0 s) :
    OutSame ps s0 (execMessageRoute ingress m s) := by
  have w1 : Within [.csr, .evt, .links] ps := Within.trans (by decide +kernel) hW
  unfold execMessageRoute
  repeat' (first | with_reducible assumption | with_reducible apply routeOwn_same hW
                  | with_reducible apply routeIn_same w1 | with_reducible apply outSame_next | split)

theorem execSrForward_same {ps : List Part} {s0 : State} {ingress : Fin 24} {m : FabMsg} {s : State}
    (hW : Within [.csr, .evt, .links] ps) (hK : SameBut ps s0 s) :
    OutSame ps s0 (execSrForward ingress m s) := by
  unfold execSrForward
  repeat' (first | with_reducible assumption | with_reducible apply routeIn_same hW
                  | with_reducible apply outSame_next | extract_lets | split)

theorem endTxn_same {ps : List Part} {s0 : State} {s : State} {tag : Nat} {st : Nat} {data : Bytes}
    (hW : Within [.answers, .fabc] ps) (hK : SameBut ps s0 s) :
    SameBut ps s0 (endTxn s tag st data) := by
  have w1 : Within [.answers] ps := Within.trans (by decide +kernel) hW
  have w2 : Within [.fabc] ps := Within.trans (by decide +kernel) hW
  unfold endTxn
  repeat' (first | with_reducible assumption | with_reducible apply answer_same w1 | simp only [same_mk_fabc w2])

theorem responseEff_same {ps : List Part} {s0 : State} {s : State} {m : FabMsg}
    (hW : Within [.csr, .evt, .answers, .fabc] ps) (hK : SameBut ps s0 s) :
    SameBut ps s0 (responseEff s m) := by
  have w1 : Within [.csr, .evt] ps := Within.trans (by decide +kernel) hW
  have w2 : Within [.answers, .fabc] ps := Within.trans (by decide +kernel) hW
  unfold responseEff
  repeat' (first | with_reducible assumption | with_reducible apply bumpOcc_same w1
                  | with_reducible apply endTxn_same w2 | split)

theorem execRdRsp_same {ps : List Part} {s0 : State} {m : FabMsg} {s : State}
    (hW : Within [.csr, .evt, .answers, .fabc] ps) (hK : SameBut ps s0 s) :
    OutSame ps s0 (execRdRsp m s) := by
  have w1 : Within [.answers] ps := Within.trans (by decide +kernel) hW
  unfold execRdRsp
  repeat' (first | with_reducible assumption | with_reducible apply responseEff_same hW
                  | with_reducible apply outSame_next | simp only [same_mk_answers w1] | split)

theorem execWrRsp_same {ps : List Part} {s0 : State} {m : FabMsg} {s : State}
    (hW : Within [.csr, .evt, .answers, .fabc] ps) (hK : SameBut ps s0 s) :
    OutSame ps s0 (execWrRsp m s) := by
  have w1 : Within [.answers] ps := Within.trans (by decide +kernel) hW
  unfold execWrRsp
  repeat' (first | with_reducible assumption | with_reducible apply responseEff_same hW
                  | with_reducible apply outSame_next | simp only [same_mk_answers w1] | split)

theorem execFabricRequestTimeout_same {ps : List Part} {s0 : State} {tag : Nat} {s : State}
    (hW : Within [.csr, .evt, .answers, .fabc] ps) (hK : SameBut ps s0 s) :
    OutSame ps s0 (execFabricRequestTimeout tag s) := by
  have w1 : Within [.csr, .evt] ps := Within.trans (by decide +kernel) hW
  have w2 : Within [.answers, .fabc] ps := Within.trans (by decide +kernel) hW
  have w3 : Within [.answers] ps := Within.trans (by decide +kernel) hW
  unfold execFabricRequestTimeout
  repeat' (first | with_reducible assumption | with_reducible apply bumpOcc_same w1
                  | with_reducible apply endTxn_same w2 | with_reducible apply outSame_next
                  | simp only [same_mk_answers w3] | split)

theorem recordEff_same {ps : List Part} {s0 : State} {s : State} {b : Bytes}
    (hW : Within [.freeCtr, .csr, .evt, .answers, .stks, .fast, .fastMark, .deepMark, .pages, .pageCache, .frameMap, .blocks, .slots, .migq, .stalled, .stallFail, .plcCh, .plans, .outbox, .rlys] ps) (hK : SameBut ps s0 s) :
    SameBut ps s0 (recordEff s b) := by
  have w1 : Within [.csr, .evt, .outbox, .rlys] ps := Within.trans (by decide +kernel) hW
  have w2 : Within [.rlys] ps := Within.trans (by decide +kernel) hW
  have w3 : Within [.outbox, .rlys] ps := Within.trans (by decide +kernel) hW
  have w4 : Within [.csr, .evt, .answers, .stks, .fastMark, .deepMark, .pages, .pageCache, .frameMap, .blocks, .slots, .migq, .stalled, .stallFail, .plcCh, .plans, .outbox] ps := Within.trans (by decide +kernel) hW
  have w5 : Within [.freeCtr, .csr, .evt, .answers, .stks, .fast, .fastMark, .deepMark, .pages, .pageCache, .frameMap, .blocks, .slots, .migq, .stalled, .stallFail, .plcCh, .plans, .rlys] ps := Within.trans (by decide +kernel) hW
  unfold recordEff
  repeat' (first | with_reducible assumption | with_reducible apply contribEff_same w1
                  | with_reducible apply answerEff_same w2 | with_reducible apply resendEff_same w2
                  | with_reducible apply doneEff_same w3 | with_reducible apply doneAckEff_same w2
                  | with_reducible apply xpartEff_same w4 | with_reducible apply xpartReturnEff_same w5
                  | extract_lets | split)

theorem execRelayMsgReceive_same {ps : List Part} {s0 : State} {m : FabMsg} {s : State}
    (hW : Within [.freeCtr, .csr, .evt, .cores, .answers, .stks, .fast, .fastMark, .deepMark, .pages, .pageCache, .holders, .frameMap, .blocks, .slots, .migq, .stalled, .stallFail, .plcCh, .plans, .nbus, .dcache, .outbox, .rlys, .commit_] ps) (hK : SameBut ps s0 s) :
    OutSame ps s0 (execRelayMsgReceive m s) := by
  have w1 : Within [.csr, .fast, .fastMark, .nbus, .outbox, .commit_] ps := Within.trans (by decide +kernel) hW
  have w2 : Within [.csr, .evt, .answers, .stks, .fast, .fastMark, .pages, .pageCache, .holders, .frameMap, .blocks, .slots, .migq, .stalled, .stallFail, .plcCh, .plans, .nbus, .dcache, .outbox] ps := Within.trans (by decide +kernel) hW
  have w3 : Within [.freeCtr, .csr, .evt, .cores, .answers, .stks, .fast, .fastMark, .deepMark, .pages, .pageCache, .frameMap, .blocks, .slots, .migq, .stalled, .stallFail, .plcCh, .plans, .outbox, .rlys] ps := Within.trans (by decide +kernel) hW
  have w4 : Within [.freeCtr, .csr, .evt, .answers, .stks, .fast, .fastMark, .deepMark, .pages, .pageCache, .frameMap, .blocks, .slots, .migq, .stalled, .stallFail, .plcCh, .plans, .outbox, .rlys] ps := Within.trans (by decide +kernel) hW
  unfold execRelayMsgReceive
  repeat' (first | with_reducible assumption | with_reducible apply deltaAckEff_same w1
                  | with_reducible apply deltaEff_same w2 | with_reducible apply rlyWork_same w3
                  | with_reducible apply recordEff_same w4 | with_reducible apply outSame_next | extract_lets
                  | split)

theorem execMailboxReceive_same {ps : List Part} {s0 : State} {m : FabMsg} {s : State}
    (hW : Within [.freeCtr, .csr, .evt, .answers, .stks, .fast, .fastMark, .deepMark, .pages, .pageCache, .frameMap, .blocks, .slots, .migq, .stalled, .stallFail, .plcCh, .plans] ps) (hK : SameBut ps s0 s) :
    OutSame ps s0 (execMailboxReceive m s) := by
  have w1 : Within [.csr] ps := Within.trans (by decide +kernel) hW
  have w2 : Within [.csr, .evt] ps := Within.trans (by decide +kernel) hW
  unfold execMailboxReceive
  repeat' (first | with_reducible assumption | with_reducible apply setFld_same w1
                  | with_reducible apply raise_same w2 | with_reducible apply bumpOcc_same w2
                  | with_reducible apply ltaWrite_same hW | with_reducible apply outSame_next
                  | with_reducible refine same_fst (by assumption) ?_ | extract_lets | split)

theorem mgmtPush_same {ps : List Part} {s0 : State} {s : State} {lta : Nat}
    (hW : Within [.csr, .fabc] ps) (hK : SameBut ps s0 s) :
    SameBut ps s0 (mgmtPush s lta) := by
  have w1 : Within [.csr] ps := Within.trans (by decide +kernel) hW
  have w2 : Within [.fabc] ps := Within.trans (by decide +kernel) hW
  unfold mgmtPush
  repeat' (first | with_reducible assumption | with_reducible apply setFlag_same w1 | simp only [same_mk_fabc w2]
                  | split)

theorem routeSwitch_same {ps : List Part} {s0 : State} {s : State}
    (hW : Within [.csr, .evt, .nbus, .outbox, .commit_] ps) (hK : SameBut ps s0 s) :
    SameBut ps s0 (routeSwitch s) := by
  have w1 : Within [.csr] ps := Within.trans (by decide +kernel) hW
  have w2 : Within [.csr, .evt] ps := Within.trans (by decide +kernel) hW
  unfold routeSwitch
  repeat' (first | with_reducible assumption | with_reducible apply wr_same w1
                  | with_reducible apply setFlag_same w1 | with_reducible apply raise_same w2
                  | with_reducible apply nbuEpoch_same hW | (with_reducible apply same_foldl; (try intros)))

theorem jrnlDrop_same {ps : List Part} {s0 : State} {s : State} {dev : Nat} {seqs : Bool}
    (hW : Within [.nbus] ps) (hK : SameBut ps s0 s) :
    SameBut ps s0 (jrnlDrop s dev seqs) := by
  unfold jrnlDrop
  repeat' (first | with_reducible assumption | with_reducible apply setNbu_same hW
                  | (with_reducible apply same_foldl; (try intros)))

theorem revertLines_same {ps : List Part} {s0 : State} {e0 : State} {e1 : List (Bytes × Nat)}
    (hW : Within [.freeCtr, .csr, .evt, .answers, .stks, .fast, .fastMark, .deepMark, .pages, .pageCache, .frameMap, .blocks, .slots, .migq, .stalled, .stallFail, .plcCh, .plans] ps) (hK : SameBut ps s0 e0) :
    SameBut ps s0 (revertLines e0 e1) := by
  revert hK
  fun_induction revertLines e0 e1 <;> intro hK
  all_goals (repeat' (with_reducible assumption))
  all_goals (try (apply_assumption; repeat' (first | with_reducible assumption | with_reducible apply ltaRead_same hW
                                                     | with_reducible apply ltaWrite_same hW
                                                     | with_reducible refine same_fst (by assumption) ?_)))

theorem linesWait_same {ps : List Part} {s0 : State} {s : State} {e0 : List Bytes}
    (hW : Within [.pages, .slots, .migq] ps) (hK : SameBut ps s0 s) :
    SameBut ps s0 (linesWait s e0).1 := by
  revert hK
  fun_induction linesWait s e0 <;> intro hK
  all_goals (repeat' (first | with_reducible assumption | with_reducible apply firstWait_same hW
                             | with_reducible refine same_fst (by assumption) ?_))
  all_goals (try (apply_assumption; repeat' (first | with_reducible assumption | with_reducible apply firstWait_same hW
                                                     | with_reducible refine same_fst (by assumption) ?_)))

theorem jrnlEnd_same {ps : List Part} {s0 : State} {s : State} {st : Nat}
    (hW : Within [.csr, .fabc] ps) (hK : SameBut ps s0 s) :
    SameBut ps s0 (jrnlEnd s st) := by
  have w1 : Within [.csr] ps := Within.trans (by decide +kernel) hW
  have w2 : Within [.fabc] ps := Within.trans (by decide +kernel) hW
  unfold jrnlEnd
  repeat' (first | with_reducible assumption | with_reducible apply setFld_same w1 | simp only [same_mk_fabc w2])

theorem jrnlWork_same {ps : List Part} {s0 : State} {s : State}
    (hW : Within [.freeCtr, .csr, .evt, .answers, .stks, .fast, .fastMark, .deepMark, .pages, .pageCache, .frameMap, .blocks, .slots, .migq, .stalled, .stallFail, .plcCh, .plans, .nbus, .fabc] ps) (hK : SameBut ps s0 s) :
    SameBut ps s0 (jrnlWork s) := by
  have w1 : Within [.csr] ps := Within.trans (by decide +kernel) hW
  have w2 : Within [.freeCtr, .csr, .evt, .answers, .stks, .fast, .fastMark, .deepMark, .pages, .pageCache, .frameMap, .blocks, .slots, .migq, .stalled, .stallFail, .plcCh, .plans] ps := Within.trans (by decide +kernel) hW
  have w3 : Within [.nbus] ps := Within.trans (by decide +kernel) hW
  have w4 : Within [.pages, .slots, .migq] ps := Within.trans (by decide +kernel) hW
  have w5 : Within [.csr, .fabc] ps := Within.trans (by decide +kernel) hW
  unfold jrnlWork
  repeat' (first | with_reducible assumption | with_reducible apply wr_same w1
                  | with_reducible apply ltaRead_same w2 | with_reducible apply ltaWrite_same w2
                  | with_reducible apply jrnlDrop_same w3 | with_reducible apply revertLines_same w2
                  | with_reducible apply linesWait_same w4 | with_reducible apply jrnlEnd_same w5
                  | with_reducible refine same_fst (by assumption) ?_ | extract_lets | split)

theorem jrnlEff_same {ps : List Part} {s0 : State} {s : State} {ini : Initiator} {op : Nat} {dev : Nat}
    (hW : Within [.freeCtr, .csr, .evt, .answers, .stks, .fast, .fastMark, .deepMark, .pages, .pageCache, .frameMap, .blocks, .slots, .migq, .stalled, .stallFail, .plcCh, .plans, .nbus, .fabc] ps) (hK : SameBut ps s0 s) :
    SameBut ps s0 (jrnlEff s ini op dev) := by
  have w1 : Within [.csr, .evt] ps := Within.trans (by decide +kernel) hW
  have w2 : Within [.fabc] ps := Within.trans (by decide +kernel) hW
  unfold jrnlEff
  repeat' (first | with_reducible assumption | with_reducible apply violation_same w1
                  | with_reducible apply jrnlWork_same hW | simp only [same_mk_fabc w2] | split)

theorem fabcReset_same {ps : List Part} {s0 : State} {s : State}
    (hW : Within [.answers, .outbox, .fabc] ps) (hK : SameBut ps s0 s) :
    SameBut ps s0 (fabcReset s) := by
  have w1 : Within [.answers, .fabc] ps := Within.trans (by decide +kernel) hW
  have w2 : Within [.outbox, .fabc] ps := Within.trans (by decide +kernel) hW
  unfold fabcReset
  repeat' (first | with_reducible assumption | with_reducible apply endTxns_same w1
                  | simp only [same_mk_outbox_fabc w2])

end Sys2Proof.Machine
end

