-- ==== Sys2Proof/Laws/FrameHlk.lean ====
section
/-! SUPPORT. What the functions of Machine/Hlk.lean leave unchanged (see Laws/Frame.lean). -/

set_option Elab.async false -- many small kernel checks: one thread does them
set_option linter.unusedSimpArgs false
set_option simprocs false -- no numeral of a goal is evaluated in these proofs

namespace Sys2Proof.Machine

theorem setSession_same {ps : List Part} {s0 : State} {s : State} {v : Nat}
    (hW : Within [.csr] ps) (hK : SameBut ps s0 s) :
    SameBut ps s0 (setSession s v) := by
  unfold setSession
  repeat' (first | with_reducible assumption | with_reducible apply setFld_same hW)

theorem setHlk_same {ps : List Part} {s0 : State} {s : State} {h : Hlk}
    (hW : Within [.hlk] ps) (hK : SameBut ps s0 s) :
    SameBut ps s0 (setHlk s h) := by
  unfold setHlk
  repeat' (first | with_reducible assumption | simp only [same_mk_hlk hW])

theorem hostSend_same {ps : List Part} {s0 : State} {s : State} {m : HostMsg}
    (hW : Within [.links] ps) (hK : SameBut ps s0 s) :
    SameBut ps s0 (hostSend s m) := by
  unfold hostSend
  repeat' (first | with_reducible assumption | with_reducible apply linkQueue_same hW | split)

theorem hostTaken_same {ps : List Part} {s0 : State} {s : State} {m : HostMsg}
    (hW : Within [.links] ps) (hK : SameBut ps s0 s) :
    SameBut ps s0 (hostTaken s m) := by
  unfold hostTaken
  repeat' (first | with_reducible assumption | with_reducible apply freeArrived_same hW)

theorem hostViol_same {ps : List Part} {s0 : State} {s : State} {write : Bool} {ini : Initiator}
    (hW : Within [.csr, .evt] ps) (hK : SameBut ps s0 s) :
    SameBut ps s0 (hostViol s write ini) := by
  unfold hostViol
  repeat' (first | with_reducible assumption | with_reducible apply bumpOcc_same hW
                  | with_reducible apply violation_same hW)

theorem issueWrites_same {ps : List Part} {s0 : State} {addr : Nat} {data : Bytes} {o : HostOwner} {e0 : State}
    {e1 : List (Nat × Nat)}
    (hW : Within [.freeCtr, .csr, .evt, .answers, .stks, .fast, .fastMark, .deepMark, .pages, .pageCache, .frameMap, .blocks, .slots, .migq, .stalled, .stallFail, .plcCh, .plans, .links, .hlk] ps) (hK : SameBut ps s0 e0) :
    SameBut ps s0 (issueWrites addr data o e0 e1).1 := by
  have w2 : Within [.freeCtr, .csr, .evt, .answers, .stks, .fast, .fastMark, .deepMark, .pages, .pageCache, .frameMap, .blocks, .slots, .migq, .stalled, .stallFail, .plcCh, .plans] ps := Within.trans (by decide +kernel) hW
  have w1 : Within [.csr] ps := Within.trans (by decide +kernel) hW
  have w3 : Within [.hlk] ps := Within.trans (by decide +kernel) hW
  have w4 : Within [.links] ps := Within.trans (by decide +kernel) hW
  revert hK
  fun_induction issueWrites addr data o e0 e1 <;> intro hK
  all_goals (repeat' (first | with_reducible assumption | with_reducible apply ltaWrite_same w2
                             | with_reducible refine same_fst (by assumption) ?_ | extract_lets
                             | dsimp +zetaDelta only))
  all_goals (try (apply_assumption; repeat' (first | with_reducible assumption | with_reducible apply wr_same w1
                                                     | with_reducible apply ltaWrite_same w2
                                                     | with_reducible apply setHlk_same w3
                                                     | with_reducible apply hostSend_same w4
                                                     | with_reducible refine same_fst (by assumption) ?_)))

theorem jrnlReady_same {ps : List Part} {s0 : State} {s : State} {e0 : List (Nat × Nat)} {e1 : Nat}
    (hW : Within [.pages, .slots, .migq] ps) (hK : SameBut ps s0 s) :
    SameBut ps s0 (jrnlReady s e0 e1).1 := by
  revert hK
  fun_induction jrnlReady s e0 e1 <;> intro hK
  all_goals (repeat' (first | with_reducible assumption | with_reducible apply firstWait_same hW
                             | with_reducible refine same_fst (by assumption) ?_))
  all_goals (try (apply_assumption; repeat' (first | with_reducible assumption | with_reducible apply firstWait_same hW
                                                     | with_reducible refine same_fst (by assumption) ?_)))

theorem hostWrite_same {ps : List Part} {s0 : State} {s : State} {ini : Initiator} {a : Nat} {data : Bytes}
    {o : HostOwner}
    (hW : Within [.freeCtr, .csr, .evt, .answers, .stks, .fast, .fastMark, .deepMark, .pages, .pageCache, .frameMap, .blocks, .slots, .migq, .stalled, .stallFail, .plcCh, .plans, .links, .hlk] ps) (hK : SameBut ps s0 s) :
    SameBut ps s0 (hostWrite s ini a data o).1 := by
  have w1 : Within [.csr, .evt] ps := Within.trans (by decide +kernel) hW
  have w2 : Within [.pages, .slots, .migq] ps := Within.trans (by decide +kernel) hW
  unfold hostWrite
  repeat' (first | with_reducible assumption | with_reducible apply hostViol_same w1
                  | with_reducible apply issueWrites_same hW | with_reducible apply jrnlReady_same w2
                  | with_reducible refine same_fst (by assumption) ?_ | extract_lets | split)

theorem issueReads_same {ps : List Part} {s0 : State} {addr : Nat} {o : HostOwner} {e0 : State}
    {e1 : List (Nat × Nat)}
    (hW : Within [.links, .hlk] ps) (hK : SameBut ps s0 e0) :
    SameBut ps s0 (issueReads addr o e0 e1) := by
  have w1 : Within [.hlk] ps := Within.trans (by decide +kernel) hW
  have w2 : Within [.links] ps := Within.trans (by decide +kernel) hW
  revert hK
  fun_induction issueReads addr o e0 e1 <;> intro hK
  all_goals (repeat' (first | with_reducible assumption | extract_lets | dsimp +zetaDelta only))
  all_goals (try (apply_assumption; repeat' (first | with_reducible assumption | with_reducible apply setHlk_same w1
                                                     | with_reducible apply hostSend_same w2)))

theorem hostRead_same {ps : List Part} {s0 : State} {s : State} {ini : Initiator} {a : Nat} {n : Nat} {o : HostOwner}
    (hW : Within [.csr, .evt, .links, .hlk] ps) (hK : SameBut ps s0 s) :
    SameBut ps s0 (hostRead s ini a n o).1 := by
  have w1 : Within [.csr, .evt] ps := Within.trans (by decide +kernel) hW
  have w2 : Within [.links, .hlk] ps := Within.trans (by decide +kernel) hW
  unfold hostRead
  repeat' (first | with_reducible assumption | with_reducible apply hostViol_same w1
                  | with_reducible apply issueReads_same w2 | split)

theorem endCmdPart_same {ps : List Part} {s0 : State} {s : State} {q : Nat} {cid : Nat} {part : Nat} {st : Nat}
    (hW : Within [.hlk] ps) (hK : SameBut ps s0 s) :
    SameBut ps s0 (endCmdPart s q cid part st) := by
  unfold endCmdPart
  repeat' (first | with_reducible assumption | with_reducible apply setHlk_same hW | extract_lets | split)

theorem respond_same {ps : List Part} {s0 : State} {s : State} {m : FabMsg} {st : Nat} {data : Bytes}
    (hW : Within [.outbox] ps) (hK : SameBut ps s0 s) :
    SameBut ps s0 (respond s m st data) := by
  unfold respond
  repeat' (first | with_reducible assumption | with_reducible apply send_same hW)

theorem endStrmPart_same {ps : List Part} {s0 : State} {s : State} {c : Nat} {t : Nat} {d : Nat} {part : Nat}
    {st : Nat}
    (hW : Within [.cores] ps) (hK : SameBut ps s0 s) :
    SameBut ps s0 (endStrmPart s c t d part st) := by
  unfold endStrmPart
  repeat' (first | with_reducible assumption | with_reducible apply setCore_same hW | extract_lets | split)

theorem endHartStore_same {ps : List Part} {s0 : State} {s : State} {p : Nat} {st : Nat}
    (hW : Within [.harts] ps) (hK : SameBut ps s0 s) :
    SameBut ps s0 (endHartStore s p st) := by
  unfold endHartStore
  repeat' (first | with_reducible assumption | simp only [same_mk_harts hW] | split)

theorem ownerDone_same {ps : List Part} {s0 : State} {s : State} {o : HostOwner} {st : Nat} {data : Bytes}
    (hW : Within [.cores, .answers, .outbox, .hlk, .harts] ps) (hK : SameBut ps s0 s) :
    SameBut ps s0 (ownerDone s o st data) := by
  have w1 : Within [.answers] ps := Within.trans (by decide +kernel) hW
  have w2 : Within [.hlk] ps := Within.trans (by decide +kernel) hW
  have w3 : Within [.outbox] ps := Within.trans (by decide +kernel) hW
  have w4 : Within [.cores] ps := Within.trans (by decide +kernel) hW
  have w5 : Within [.harts] ps := Within.trans (by decide +kernel) hW
  unfold ownerDone
  repeat' (first | with_reducible assumption | with_reducible apply answer_same w1
                  | with_reducible apply endCmdPart_same w2 | with_reducible apply respond_same w3
                  | with_reducible apply endStrmPart_same w4 | with_reducible apply endHartStore_same w5 | split)

theorem settleOwners_same {ps : List Part} {s0 : State} {st : Nat} {e0 : State} {e1 : List HostOwner}
    (hW : Within [.cores, .answers, .outbox, .hlk, .harts] ps)
    (hK : SameBut ps s0 e0) : SameBut ps s0 (settleOwners st e0 e1) := by
  induction e1 generalizing e0 with
  | nil => exact hK
  | cons o os ih =>
    unfold settleOwners
    apply ih
    split
    · exact hK
    · exact ownerDone_same (Within.trans (by decide +kernel) hW) hK

theorem freeJrnl_same {ps : List Part} {s0 : State} {s : State} {q : Nat}
    (hW : Within [.csr, .cores, .answers, .outbox, .hlk, .harts] ps) (hK : SameBut ps s0 s) :
    SameBut ps s0 (freeJrnl s q) := by
  have w1 : Within [.csr] ps := Within.trans (by decide +kernel) hW
  have w2 : Within [.hlk] ps := Within.trans (by decide +kernel) hW
  have w3 : Within [.cores, .answers, .outbox, .hlk, .harts] ps := Within.trans (by decide +kernel) hW
  unfold freeJrnl
  repeat' (first | with_reducible assumption | with_reducible apply wr_same w1 | with_reducible apply setHlk_same w2
                  | with_reducible apply settleOwners_same w3)

theorem orphanPut_same {ps : List Part} {s0 : State} {s : State} {e : Bytes}
    (hW : Within [.freeCtr, .csr, .evt, .answers, .stks, .fast, .fastMark, .deepMark, .pages, .pageCache, .frameMap, .blocks, .slots, .migq, .stalled, .stallFail, .plcCh, .plans, .hlk] ps) (hK : SameBut ps s0 s) :
    SameBut ps s0 (orphanPut s e).1 := by
  have w1 : Within [.csr] ps := Within.trans (by decide +kernel) hW
  have w2 : Within [.csr, .evt] ps := Within.trans (by decide +kernel) hW
  have w3 : Within [.freeCtr, .csr, .evt, .answers, .stks, .fast, .fastMark, .deepMark, .pages, .pageCache, .frameMap, .blocks, .slots, .migq, .stalled, .stallFail, .plcCh, .plans] ps := Within.trans (by decide +kernel) hW
  have w4 : Within [.hlk] ps := Within.trans (by decide +kernel) hW
  unfold orphanPut
  repeat' (first | with_reducible assumption | with_reducible apply wr_same w1 | with_reducible apply raise_same w2
                  | with_reducible apply bumpOcc_same w2 | with_reducible apply ltaWrite_same w3
                  | with_reducible apply setHlk_same w4 | with_reducible refine same_fst (by assumption) ?_
                  | extract_lets | split)

theorem vecWrite_same {ps : List Part} {s0 : State} {s : State} {v : Nat}
    (hW : Within [.freeCtr, .csr, .evt, .answers, .stks, .fast, .fastMark, .deepMark, .pages, .pageCache, .frameMap, .blocks, .slots, .migq, .stalled, .stallFail, .plcCh, .plans, .links, .hlk] ps) (hK : SameBut ps s0 s) :
    SameBut ps s0 (vecWrite s v).1 := by
  unfold vecWrite
  repeat' (first | with_reducible assumption | with_reducible apply hostWrite_same hW
                  | with_reducible refine same_fst (by assumption) ?_ | split)

theorem signalVec_same {ps : List Part} {s0 : State} {s : State} {v : Nat}
    (hW : Within [.freeCtr, .csr, .evt, .answers, .stks, .fast, .fastMark, .deepMark, .pages, .pageCache, .frameMap, .blocks, .slots, .migq, .stalled, .stallFail, .plcCh, .plans, .links, .hlk] ps) (hK : SameBut ps s0 s) :
    SameBut ps s0 (signalVec s v) := by
  have w1 : Within [.csr] ps := Within.trans (by decide +kernel) hW
  have w2 : Within [.hlk] ps := Within.trans (by decide +kernel) hW
  unfold signalVec
  repeat' (first | with_reducible assumption | with_reducible apply setFlag_same w1
                  | with_reducible apply setHlk_same w2 | with_reducible apply vecWrite_same hW
                  | with_reducible refine same_fst (by assumption) ?_ | extract_lets | split)

theorem cqSignal_same {ps : List Part} {s0 : State} {s : State} {c : Nat}
    (hW : Within [.freeCtr, .csr, .evt, .answers, .stks, .fast, .fastMark, .deepMark, .pages, .pageCache, .frameMap, .blocks, .slots, .migq, .stalled, .stallFail, .plcCh, .plans, .links, .hlk] ps) (hK : SameBut ps s0 s) :
    SameBut ps s0 (cqSignal s c) := by
  have w1 : Within [.hlk] ps := Within.trans (by decide +kernel) hW
  unfold cqSignal
  repeat' (first | with_reducible assumption | with_reducible apply setHlk_same w1
                  | with_reducible apply signalVec_same hW)

theorem cqAdvance_same {ps : List Part} {s0 : State} {s : State} {c : Nat}
    (hW : Within [.freeCtr, .csr, .evt, .answers, .stks, .fast, .fastMark, .deepMark, .pages, .pageCache, .frameMap, .blocks, .slots, .migq, .stalled, .stallFail, .plcCh, .plans, .links, .hlk] ps) (hK : SameBut ps s0 s) :
    SameBut ps s0 (cqAdvance s c) := by
  have w1 : Within [.csr] ps := Within.trans (by decide +kernel) hW
  have w2 : Within [.hlk] ps := Within.trans (by decide +kernel) hW
  unfold cqAdvance
  repeat' (first | with_reducible assumption | with_reducible apply setFld_same w1
                  | with_reducible apply setHlk_same w2 | with_reducible apply cqSignal_same hW | extract_lets
                  | split)

theorem cqPut_same {ps : List Part} {s0 : State} {s : State} {c : Nat} {e : Bytes}
    (hW : Within [.freeCtr, .csr, .evt, .answers, .stks, .fast, .fastMark, .deepMark, .pages, .pageCache, .frameMap, .blocks, .slots, .migq, .stalled, .stallFail, .plcCh, .plans, .links, .hlk] ps) (hK : SameBut ps s0 s) :
    SameBut ps s0 (cqPut s c e).1 := by
  have w1 : Within [.freeCtr, .csr, .evt, .answers, .stks, .fast, .fastMark, .deepMark, .pages, .pageCache, .frameMap, .blocks, .slots, .migq, .stalled, .stallFail, .plcCh, .plans] ps := Within.trans (by decide +kernel) hW
  unfold cqPut
  repeat' (first | with_reducible assumption | with_reducible apply ltaWrite_same w1
                  | with_reducible apply hostWrite_same hW | with_reducible apply cqAdvance_same hW
                  | with_reducible refine same_fst (by assumption) ?_ | extract_lets | split)

theorem putOne_same {ps : List Part} {s0 : State} {s : State} {k : Nat} {e : Bytes}
    (hW : Within [.freeCtr, .csr, .evt, .answers, .stks, .fast, .fastMark, .deepMark, .pages, .pageCache, .frameMap, .blocks, .slots, .migq, .stalled, .stallFail, .plcCh, .plans, .links, .hlk] ps) (hK : SameBut ps s0 s) :
    SameBut ps s0 (putOne s k e).1 := by
  have w1 : Within [.freeCtr, .csr, .evt, .answers, .stks, .fast, .fastMark, .deepMark, .pages, .pageCache, .frameMap, .blocks, .slots, .migq, .stalled, .stallFail, .plcCh, .plans, .hlk] ps := Within.trans (by decide +kernel) hW
  unfold putOne
  repeat' (first | with_reducible assumption | with_reducible apply orphanPut_same w1
                  | with_reducible apply vecWrite_same hW | with_reducible apply cqPut_same hW | split)

theorem putAll_same {ps : List Part} {s0 : State} {e0 : State} {e1 : List Nat} {e2 : List (Nat × Bytes)}
    (hW : Within [.freeCtr, .csr, .evt, .answers, .stks, .fast, .fastMark, .deepMark, .pages, .pageCache, .frameMap, .blocks, .slots, .migq, .stalled, .stallFail, .plcCh, .plans, .links, .hlk] ps) (hK : SameBut ps s0 e0) :
    SameBut ps s0 (putAll e0 e1 e2).1 := by
  revert hK
  fun_induction putAll e0 e1 e2 <;> intro hK
  all_goals (repeat' (first | with_reducible assumption | with_reducible refine same_fst (by assumption) ?_ | extract_lets))
  all_goals (try (apply_assumption; repeat' (first | with_reducible assumption | with_reducible apply putOne_same hW
                                                     | with_reducible refine same_fst (by assumption) ?_)))

theorem hlkDrain_same {ps : List Part} {s0 : State} {s : State}
    (hW : Within [.freeCtr, .csr, .evt, .answers, .stks, .fast, .fastMark, .deepMark, .pages, .pageCache, .frameMap, .blocks, .slots, .migq, .stalled, .stallFail, .plcCh, .plans, .links, .hlk] ps) (hK : SameBut ps s0 s) :
    SameBut ps s0 (hlkDrain s) := by
  have w1 : Within [.hlk] ps := Within.trans (by decide +kernel) hW
  unfold hlkDrain
  repeat' (first | with_reducible assumption | with_reducible apply setHlk_same w1
                  | with_reducible apply putAll_same hW)

theorem startCmds_same {ps : List Part} {s0 : State} {s : State} {q : Nat}
    (hW : Within [.hlk] ps) (hK : SameBut ps s0 s) :
    SameBut ps s0 (startCmds s q) := by
  unfold startCmds
  repeat' (first | with_reducible assumption | with_reducible apply setHlk_same hW)

theorem cmdComplete_same {ps : List Part} {s0 : State} {s : State} {c : HCmd} {r : Report}
    (hW : Within [.freeCtr, .csr, .evt, .answers, .stks, .fast, .fastMark, .deepMark, .pages, .pageCache, .frameMap, .blocks, .slots, .migq, .stalled, .stallFail, .plcCh, .plans, .links, .hlk] ps) (hK : SameBut ps s0 s) :
    SameBut ps s0 (cmdComplete s c r) := by
  have w1 : Within [.csr] ps := Within.trans (by decide +kernel) hW
  have w2 : Within [.hlk] ps := Within.trans (by decide +kernel) hW
  unfold cmdComplete
  repeat' (first | with_reducible assumption | with_reducible apply bumpStat_same w1
                  | with_reducible apply setHlk_same w2 | with_reducible apply hlkDrain_same hW
                  | with_reducible apply startCmds_same w2 | extract_lets | split)

theorem execHlkCmdComplete_same {ps : List Part} {s0 : State} {q : Fin 256} {cid : BitVec 16} {s : State}
    (hW : Within [.freeCtr, .csr, .evt, .answers, .stks, .fast, .fastMark, .deepMark, .pages, .pageCache, .frameMap, .blocks, .slots, .migq, .stalled, .stallFail, .plcCh, .plans, .links, .hlk] ps) (hK : SameBut ps s0 s) :
    OutSame ps s0 (execHlkCmdComplete q cid s) := by
  unfold execHlkCmdComplete
  repeat' (first | with_reducible assumption | with_reducible apply hlkDrain_same hW
                  | with_reducible apply cmdComplete_same hW | with_reducible apply outSame_next | split)

theorem putCmdH_same {ps : List Part} {s0 : State} {s : State} {c : HCmd} {c' : HCmd}
    (hW : Within [.hlk] ps) (hK : SameBut ps s0 s) :
    SameBut ps s0 (putCmdH s c c') := by
  unfold putCmdH
  repeat' (first | with_reducible assumption | with_reducible apply setHlk_same hW)

theorem setCmdPart_same {ps : List Part} {s0 : State} {s : State} {c : HCmd} {k : Nat} {v : HPart}
    (hW : Within [.hlk] ps) (hK : SameBut ps s0 s) :
    SameBut ps s0 (setCmdPart s c k v) := by
  unfold setCmdPart
  repeat' (first | with_reducible assumption | with_reducible apply putCmdH_same hW)

theorem execHlkNop_same {ps : List Part} {s0 : State} {q : Fin 256} {cid : BitVec 16} {s : State}
    (hW : Within [.hlk] ps) (hK : SameBut ps s0 s) :
    OutSame ps s0 (execHlkNop q cid s) := by
  unfold execHlkNop
  repeat' (first | with_reducible assumption | with_reducible apply setCmdPart_same hW
                  | with_reducible apply outSame_next | split)

theorem execFwCall_same {ps : List Part} {s0 : State} {q : Fin 256} {cid : BitVec 16} {s : State}
    (hW : Within [.freeCtr, .csr, .evt, .answers, .stks, .fast, .fastMark, .deepMark, .pages, .pageCache, .frameMap, .blocks, .slots, .migq, .stalled, .stallFail, .plcCh, .plans, .hlk] ps) (hK : SameBut ps s0 s) :
    OutSame ps s0 (execFwCall q cid s) := by
  have w1 : Within [.csr] ps := Within.trans (by decide +kernel) hW
  have w2 : Within [.csr, .evt] ps := Within.trans (by decide +kernel) hW
  have w3 : Within [.freeCtr, .csr, .evt, .answers, .stks, .fast, .fastMark, .deepMark, .pages, .pageCache, .frameMap, .blocks, .slots, .migq, .stalled, .stallFail, .plcCh, .plans] ps := Within.trans (by decide +kernel) hW
  have w4 : Within [.hlk] ps := Within.trans (by decide +kernel) hW
  unfold execFwCall
  repeat' (first | with_reducible assumption | with_reducible apply setFld_same w1
                  | with_reducible apply raise_same w2 | with_reducible apply ltaWrite_same w3
                  | with_reducible apply putCmdH_same w4 | with_reducible apply setCmdPart_same w4
                  | with_reducible apply outSame_next | with_reducible refine same_fst (by assumption) ?_
                  | extract_lets | split)

theorem fwDoneEff_same {ps : List Part} {s0 : State} {s : State} {ini : Initiator} {v : Nat}
    (hW : Within [.csr, .evt, .hlk] ps) (hK : SameBut ps s0 s) :
    SameBut ps s0 (fwDoneEff s ini v) := by
  have w1 : Within [.csr, .evt] ps := Within.trans (by decide +kernel) hW
  have w2 : Within [.hlk] ps := Within.trans (by decide +kernel) hW
  unfold fwDoneEff
  repeat' (first | with_reducible assumption | with_reducible apply violation_same w1
                  | with_reducible apply putCmdH_same w2 | extract_lets | split)

theorem sqTailEff_same {ps : List Part} {s0 : State} {s : State} {ini : Initiator} {q : Nat} {v : Nat}
    (hW : Within [.csr, .evt] ps) (hK : SameBut ps s0 s) :
    SameBut ps s0 (sqTailEff s ini q v) := by
  have w1 : Within [.csr] ps := Within.trans (by decide +kernel) hW
  unfold sqTailEff
  repeat' (first | with_reducible assumption | with_reducible apply setFld_same w1
                  | with_reducible apply violation_same hW | extract_lets | split)

theorem cqHeadEff_same {ps : List Part} {s0 : State} {s : State} {ini : Initiator} {c : Nat} {v : Nat}
    (hW : Within [.freeCtr, .csr, .evt, .answers, .stks, .fast, .fastMark, .deepMark, .pages, .pageCache, .frameMap, .blocks, .slots, .migq, .stalled, .stallFail, .plcCh, .plans, .links, .hlk] ps) (hK : SameBut ps s0 s) :
    SameBut ps s0 (cqHeadEff s ini c v) := by
  have w1 : Within [.csr] ps := Within.trans (by decide +kernel) hW
  have w2 : Within [.csr, .evt] ps := Within.trans (by decide +kernel) hW
  unfold cqHeadEff
  repeat' (first | with_reducible assumption | with_reducible apply setFld_same w1
                  | with_reducible apply violation_same w2 | with_reducible apply hlkDrain_same hW | extract_lets
                  | split)

theorem sqTake_same {ps : List Part} {s0 : State} {s : State} {q : Nat} {b : Bytes}
    (hW : Within [.csr, .hlk] ps) (hK : SameBut ps s0 s) :
    SameBut ps s0 (sqTake s q b) := by
  have w1 : Within [.csr] ps := Within.trans (by decide +kernel) hW
  have w2 : Within [.hlk] ps := Within.trans (by decide +kernel) hW
  unfold sqTake
  repeat' (first | with_reducible assumption | with_reducible apply setFld_same w1
                  | with_reducible apply setHlk_same w2 | with_reducible apply startCmds_same w2)

theorem execSqFetch_same {ps : List Part} {s0 : State} {q : Fin 256} {ext : Ext} {s : State}
    (hW : Within [.freeCtr, .csr, .evt, .answers, .stks, .fast, .fastMark, .deepMark, .pages, .pageCache, .frameMap, .blocks, .slots, .migq, .stalled, .stallFail, .plcCh, .plans, .hlk] ps) (hK : SameBut ps s0 s) :
    OutSame ps s0 (execSqFetch q ext s) := by
  have w1 : Within [.freeCtr, .csr, .evt, .answers, .stks, .fast, .fastMark, .deepMark, .pages, .pageCache, .frameMap, .blocks, .slots, .migq, .stalled, .stallFail, .plcCh, .plans] ps := Within.trans (by decide +kernel) hW
  have w2 : Within [.csr, .evt] ps := Within.trans (by decide +kernel) hW
  have w3 : Within [.csr, .hlk] ps := Within.trans (by decide +kernel) hW
  unfold execSqFetch
  repeat' (first | with_reducible assumption | with_reducible apply ltaRead_same w1
                  | with_reducible apply hostViol_same w2 | with_reducible apply sqTake_same w3
                  | with_reducible apply outSame_next | with_reducible refine same_fst (by assumption) ?_
                  | extract_lets | split)

theorem execCqCoalTimer_same {ps : List Part} {s0 : State} {q : Fin 256} {s : State}
    (hW : Within [.freeCtr, .csr, .evt, .answers, .stks, .fast, .fastMark, .deepMark, .pages, .pageCache, .frameMap, .blocks, .slots, .migq, .stalled, .stallFail, .plcCh, .plans, .links, .hlk] ps) (hK : SameBut ps s0 s) :
    OutSame ps s0 (execCqCoalTimer q s) := by
  unfold execCqCoalTimer
  repeat' (first | with_reducible assumption | with_reducible apply cqSignal_same hW
                  | with_reducible apply outSame_next | split)

theorem vecUnmaskEff_same {ps : List Part} {s0 : State} {s : State} {v : Nat}
    (hW : Within [.freeCtr, .csr, .evt, .answers, .stks, .fast, .fastMark, .deepMark, .pages, .pageCache, .frameMap, .blocks, .slots, .migq, .stalled, .stallFail, .plcCh, .plans, .links, .hlk] ps) (hK : SameBut ps s0 s) :
    SameBut ps s0 (vecUnmaskEff s v) := by
  have w1 : Within [.csr] ps := Within.trans (by decide +kernel) hW
  unfold vecUnmaskEff
  repeat' (first | with_reducible assumption | with_reducible apply setFlag_same w1
                  | with_reducible apply signalVec_same hW | extract_lets | split)

theorem hostDisable_same {ps : List Part} {s0 : State} {s : State}
    (hW : Within [.csr] ps) (hK : SameBut ps s0 s) :
    SameBut ps s0 (hostDisable s) := by
  unfold hostDisable
  repeat' (first | with_reducible assumption | with_reducible apply setFld_same hW
                  | with_reducible apply setFlag_same hW | (with_reducible apply same_foldl; (try intros)))

theorem hostLost_same {ps : List Part} {s0 : State} {s : State} {cause : Nat} {epoch : Option Nat}
    (hW : Within [.freeCtr, .csr, .evt, .cores, .answers, .stks, .fast, .fastMark, .deepMark, .pages, .pageCache, .frameMap, .blocks, .slots, .migq, .stalled, .stallFail, .plcCh, .plans, .outbox, .links, .hlk, .harts] ps) (hK : SameBut ps s0 s) :
    SameBut ps s0 (hostLost s cause epoch) := by
  have w1 : Within [.csr] ps := Within.trans (by decide +kernel) hW
  have w2 : Within [.csr, .evt] ps := Within.trans (by decide +kernel) hW
  have w3 : Within [.hlk] ps := Within.trans (by decide +kernel) hW
  have w4 : Within [.cores, .answers, .outbox, .hlk, .harts] ps := Within.trans (by decide +kernel) hW
  have w5 : Within [.freeCtr, .csr, .evt, .answers, .stks, .fast, .fastMark, .deepMark, .pages, .pageCache, .frameMap, .blocks, .slots, .migq, .stalled, .stallFail, .plcCh, .plans, .links, .hlk] ps := Within.trans (by decide +kernel) hW
  unfold hostLost
  repeat' (first | with_reducible assumption | with_reducible apply wr_same w1 | with_reducible apply raise_same w2
                  | with_reducible apply bumpOcc_same w2 | with_reducible apply setSession_same w1
                  | with_reducible apply setHlk_same w3 | with_reducible apply ownerDone_same w4
                  | with_reducible apply hlkDrain_same w5 | with_reducible apply hostDisable_same w1
                  | (with_reducible apply same_foldl; (try intros)) | extract_lets | split)

theorem replayRead_same {ps : List Part} {s0 : State} {e0 : State} {e1 : List JEnt}
    (hW : Within [.freeCtr, .csr, .evt, .answers, .stks, .fast, .fastMark, .deepMark, .pages, .pageCache, .frameMap, .blocks, .slots, .migq, .stalled, .stallFail, .plcCh, .plans] ps) (hK : SameBut ps s0 e0) :
    SameBut ps s0 (replayRead e0 e1).1 := by
  revert hK
  fun_induction replayRead e0 e1 <;> intro hK
  all_goals (repeat' (first | with_reducible assumption | with_reducible apply ltaRead_same hW
                             | with_reducible refine same_fst (by assumption) ?_ | extract_lets))
  all_goals (try (apply_assumption; repeat' (first | with_reducible assumption | with_reducible apply ltaRead_same hW
                                                     | with_reducible refine same_fst (by assumption) ?_)))

theorem replay_same {ps : List Part} {s0 : State} {s : State}
    (hW : Within [.freeCtr, .csr, .evt, .cores, .answers, .stks, .fast, .fastMark, .deepMark, .pages, .pageCache, .frameMap, .blocks, .slots, .migq, .stalled, .stallFail, .plcCh, .plans, .outbox, .links, .hlk, .harts] ps) (hK : SameBut ps s0 s) :
    SameBut ps s0 (replay s) := by
  have w1 : Within [.csr, .evt] ps := Within.trans (by decide +kernel) hW
  have w2 : Within [.csr] ps := Within.trans (by decide +kernel) hW
  have w3 : Within [.links] ps := Within.trans (by decide +kernel) hW
  have w4 : Within [.freeCtr, .csr, .evt, .answers, .stks, .fast, .fastMark, .deepMark, .pages, .pageCache, .frameMap, .blocks, .slots, .migq, .stalled, .stallFail, .plcCh, .plans, .links, .hlk] ps := Within.trans (by decide +kernel) hW
  have w5 : Within [.freeCtr, .csr, .evt, .answers, .stks, .fast, .fastMark, .deepMark, .pages, .pageCache, .frameMap, .blocks, .slots, .migq, .stalled, .stallFail, .plcCh, .plans] ps := Within.trans (by decide +kernel) hW
  unfold replay
  repeat' (first | with_reducible assumption | with_reducible apply bumpOcc_same w1
                  | with_reducible apply setSession_same w2 | with_reducible apply hostSend_same w3
                  | with_reducible apply hlkDrain_same w4 | with_reducible apply hostLost_same hW
                  | with_reducible apply replayRead_same w5 | with_reducible refine same_fst (by assumption) ?_
                  | (with_reducible apply same_foldl; (try intros)) | extract_lets | split)

theorem resumeEff_same {ps : List Part} {s0 : State} {s : State} {m : HostMsg}
    (hW : Within [.freeCtr, .csr, .evt, .cores, .answers, .stks, .fast, .fastMark, .deepMark, .pages, .pageCache, .frameMap, .blocks, .slots, .migq, .stalled, .stallFail, .plcCh, .plans, .outbox, .links, .fabc, .hlk, .harts] ps) (hK : SameBut ps s0 s) :
    SameBut ps s0 (resumeEff s m) := by
  have w1 : Within [.csr] ps := Within.trans (by decide +kernel) hW
  have w2 : Within [.csr, .evt, .links, .fabc] ps := Within.trans (by decide +kernel) hW
  have w3 : Within [.csr, .cores, .answers, .outbox, .hlk, .harts] ps := Within.trans (by decide +kernel) hW
  have w4 : Within [.freeCtr, .csr, .evt, .cores, .answers, .stks, .fast, .fastMark, .deepMark, .pages, .pageCache, .frameMap, .blocks, .slots, .migq, .stalled, .stallFail, .plcCh, .plans, .outbox, .links, .hlk, .harts] ps := Within.trans (by decide +kernel) hW
  unfold resumeEff
  repeat' (first | with_reducible assumption | with_reducible apply wr_same w1
                  | with_reducible apply protoError_same w2 | with_reducible apply freeJrnl_same w3
                  | with_reducible apply hostLost_same w4 | with_reducible apply replay_same w4 | split)

theorem attachEff_same {ps : List Part} {s0 : State} {s : State} {ini : Initiator} {key : Nat}
    (hW : Within [.csr, .evt, .hlk] ps) (hK : SameBut ps s0 s) :
    SameBut ps s0 (attachEff s ini key) := by
  have w1 : Within [.csr] ps := Within.trans (by decide +kernel) hW
  have w2 : Within [.csr, .evt] ps := Within.trans (by decide +kernel) hW
  have w3 : Within [.hlk] ps := Within.trans (by decide +kernel) hW
  unfold attachEff
  repeat' (first | with_reducible assumption | with_reducible apply setFld_same w1
                  | with_reducible apply setFlag_same w1 | with_reducible apply raise_same w2
                  | with_reducible apply violation_same w2 | with_reducible apply setSession_same w1
                  | with_reducible apply setHlk_same w3 | extract_lets | split)

theorem detachEff_same {ps : List Part} {s0 : State} {s : State}
    (hW : Within [.csr] ps) (hK : SameBut ps s0 s) :
    SameBut ps s0 (detachEff s) := by
  unfold detachEff
  repeat' (first | with_reducible assumption | with_reducible apply setSession_same hW | split)

theorem execDetachTimeout_same {ps : List Part} {s0 : State} {s : State}
    (hW : Within [.freeCtr, .csr, .evt, .cores, .answers, .stks, .fast, .fastMark, .deepMark, .pages, .pageCache, .frameMap, .blocks, .slots, .migq, .stalled, .stallFail, .plcCh, .plans, .outbox, .links, .hlk, .harts] ps) (hK : SameBut ps s0 s) :
    OutSame ps s0 (execDetachTimeout s) := by
  have w1 : Within [.answers] ps := Within.trans (by decide +kernel) hW
  unfold execDetachTimeout
  repeat' (first | with_reducible assumption | with_reducible apply hostLost_same hW
                  | with_reducible apply outSame_next | simp only [same_mk_answers w1] | split)

theorem execDetachComplete_same {ps : List Part} {s0 : State} {s : State}
    (hW : Within [.csr, .hlk] ps) (hK : SameBut ps s0 s) :
    OutSame ps s0 (execDetachComplete s) := by
  have w1 : Within [.csr] ps := Within.trans (by decide +kernel) hW
  have w2 : Within [.hlk] ps := Within.trans (by decide +kernel) hW
  unfold execDetachComplete
  repeat' (first | with_reducible assumption | with_reducible apply wr_same w1
                  | with_reducible apply setSession_same w1 | with_reducible apply setHlk_same w2
                  | with_reducible apply hostDisable_same w1 | with_reducible apply outSame_next | extract_lets
                  | split)

theorem execJack_same {ps : List Part} {s0 : State} {m : HostMsg} {s : State}
    (hW : Within [.freeCtr, .csr, .evt, .cores, .answers, .stks, .fast, .fastMark, .deepMark, .pages, .pageCache, .frameMap, .blocks, .slots, .migq, .stalled, .stallFail, .plcCh, .plans, .outbox, .links, .fabc, .hlk, .harts] ps) (hK : SameBut ps s0 s) :
    OutSame ps s0 (execJack m s) := by
  have w1 : Within [.csr, .evt, .links, .fabc] ps := Within.trans (by decide +kernel) hW
  have w2 : Within [.links] ps := Within.trans (by decide +kernel) hW
  have w3 : Within [.csr, .cores, .answers, .outbox, .hlk, .harts] ps := Within.trans (by decide +kernel) hW
  have w4 : Within [.freeCtr, .csr, .evt, .answers, .stks, .fast, .fastMark, .deepMark, .pages, .pageCache, .frameMap, .blocks, .slots, .migq, .stalled, .stallFail, .plcCh, .plans, .links, .hlk] ps := Within.trans (by decide +kernel) hW
  have w5 : Within [.answers] ps := Within.trans (by decide +kernel) hW
  unfold execJack
  repeat' (first | with_reducible assumption | with_reducible apply protoError_same w1
                  | with_reducible apply hostTaken_same w2 | with_reducible apply freeJrnl_same w3
                  | with_reducible apply hlkDrain_same w4 | with_reducible apply outSame_next
                  | simp only [same_mk_answers w5] | extract_lets | split)

theorem execResume_same {ps : List Part} {s0 : State} {m : HostMsg} {s : State}
    (hW : Within [.freeCtr, .csr, .evt, .cores, .answers, .stks, .fast, .fastMark, .deepMark, .pages, .pageCache, .frameMap, .blocks, .slots, .migq, .stalled, .stallFail, .plcCh, .plans, .outbox, .links, .fabc, .hlk, .harts] ps) (hK : SameBut ps s0 s) :
    OutSame ps s0 (execResume m s) := by
  have w1 : Within [.links] ps := Within.trans (by decide +kernel) hW
  have w2 : Within [.answers] ps := Within.trans (by decide +kernel) hW
  unfold execResume
  repeat' (first | with_reducible assumption | with_reducible apply hostTaken_same w1
                  | with_reducible apply resumeEff_same hW | with_reducible apply outSame_next
                  | simp only [same_mk_answers w2] | split)

theorem execHostReset_same {ps : List Part} {s0 : State} {m : HostMsg} {s : State}
    (hW : Within [.freeCtr, .csr, .evt, .cores, .answers, .stks, .fast, .fastMark, .deepMark, .pages, .pageCache, .frameMap, .blocks, .slots, .migq, .stalled, .stallFail, .plcCh, .plans, .outbox, .links, .hlk, .harts] ps) (hK : SameBut ps s0 s) :
    OutSame ps s0 (execHostReset m s) := by
  have w1 : Within [.csr] ps := Within.trans (by decide +kernel) hW
  have w2 : Within [.links] ps := Within.trans (by decide +kernel) hW
  have w3 : Within [.answers] ps := Within.trans (by decide +kernel) hW
  unfold execHostReset
  repeat' (first | with_reducible assumption | with_reducible apply wr_same w1
                  | with_reducible apply hostTaken_same w2 | with_reducible apply hostLost_same hW
                  | with_reducible apply outSame_next | simp only [same_mk_answers w3] | extract_lets | split)

theorem endRead_same {ps : List Part} {s0 : State} {s : State} {r : HRead} {st : Nat} {data : Bytes}
    (hW : Within [.cores, .answers, .outbox, .hlk, .harts] ps) (hK : SameBut ps s0 s) :
    SameBut ps s0 (endRead s r st data) := by
  have w1 : Within [.hlk] ps := Within.trans (by decide +kernel) hW
  unfold endRead
  repeat' (first | with_reducible assumption | with_reducible apply setHlk_same w1
                  | with_reducible apply ownerDone_same hW)

theorem execDRsp_same {ps : List Part} {s0 : State} {m : HostMsg} {s : State}
    (hW : Within [.cores, .answers, .outbox, .links, .hlk, .harts] ps) (hK : SameBut ps s0 s) :
    OutSame ps s0 (execDRsp m s) := by
  have w1 : Within [.links] ps := Within.trans (by decide +kernel) hW
  have w2 : Within [.cores, .answers, .outbox, .hlk, .harts] ps := Within.trans (by decide +kernel) hW
  have w3 : Within [.answers] ps := Within.trans (by decide +kernel) hW
  unfold execDRsp
  repeat' (first | with_reducible assumption | with_reducible apply hostTaken_same w1
                  | with_reducible apply endRead_same w2 | with_reducible apply outSame_next
                  | simp only [same_mk_answers w3] | extract_lets | split)

theorem execHostReadTimeout_same {ps : List Part} {s0 : State} {tag : Nat} {s : State}
    (hW : Within [.cores, .answers, .outbox, .hlk, .harts] ps) (hK : SameBut ps s0 s) :
    OutSame ps s0 (execHostReadTimeout tag s) := by
  have w1 : Within [.answers] ps := Within.trans (by decide +kernel) hW
  unfold execHostReadTimeout
  repeat' (first | with_reducible assumption | with_reducible apply endRead_same hW
                  | with_reducible apply outSame_next | simp only [same_mk_answers w1] | split)

theorem execHostWriteIssue_same {ps : List Part} {s0 : State} {owner : Nat} {addr : Nat} {data : Bytes} {s : State}
    (hW : Within [.freeCtr, .csr, .evt, .answers, .stks, .fast, .fastMark, .deepMark, .pages, .pageCache, .frameMap, .blocks, .slots, .migq, .stalled, .stallFail, .plcCh, .plans, .links, .hlk] ps) (hK : SameBut ps s0 s) :
    OutSame ps s0 (execHostWriteIssue owner addr data s) := by
  have w1 : Within [.answers] ps := Within.trans (by decide +kernel) hW
  unfold execHostWriteIssue
  repeat' (first | with_reducible assumption | with_reducible apply answer_same w1
                  | with_reducible apply hostWrite_same hW | with_reducible apply outSame_next
                  | simp only [same_mk_answers w1] | with_reducible refine same_fst (by assumption) ?_ | split)

theorem execHostReadIssue_same {ps : List Part} {s0 : State} {owner : Nat} {addr : Nat} {len : Nat} {s : State}
    (hW : Within [.csr, .evt, .answers, .links, .hlk] ps) (hK : SameBut ps s0 s) :
    OutSame ps s0 (execHostReadIssue owner addr len s) := by
  have w1 : Within [.answers] ps := Within.trans (by decide +kernel) hW
  have w2 : Within [.csr, .evt, .links, .hlk] ps := Within.trans (by decide +kernel) hW
  unfold execHostReadIssue
  repeat' (first | with_reducible assumption | with_reducible apply answer_same w1
                  | with_reducible apply hostRead_same w2 | with_reducible apply outSame_next
                  | simp only [same_mk_answers w1] | with_reducible refine same_fst (by assumption) ?_ | split)

theorem hlkReset_same {ps : List Part} {s0 : State} {s : State}
    (hW : Within [.cores, .answers, .outbox, .links, .hlk, .harts] ps) (hK : SameBut ps s0 s) :
    SameBut ps s0 (hlkReset s) := by
  have w1 : Within [.links] ps := Within.trans (by decide +kernel) hW
  have w2 : Within [.hlk] ps := Within.trans (by decide +kernel) hW
  have w3 : Within [.cores, .answers, .outbox, .hlk, .harts] ps := Within.trans (by decide +kernel) hW
  unfold hlkReset
  repeat' (first | with_reducible assumption | with_reducible apply setLink_same w1
                  | with_reducible apply setHlk_same w2 | with_reducible apply ownerDone_same w3
                  | (with_reducible apply same_foldl; (try intros)) | extract_lets | split)

end Sys2Proof.Machine
end

