-- ==== Sys2Proof/Laws/FrameEvent.lean ====
section
/-! SUPPORT. What the functions of Machine/Event.lean leave unchanged (see Laws/Frame.lean). -/

set_option Elab.async false -- many small kernel checks: one thread does them
set_option linter.unusedSimpArgs false
set_option simprocs false -- no numeral of a goal is evaluated in these proofs

namespace Sys2Proof.Machine

theorem setTgt_same {ps : List Part} {s0 : State} {s : State} {t : Nat} {v : Target}
    (hW : Within [.evt] ps) (hK : SameBut ps s0 s) :
    SameBut ps s0 (setTgt s t v) := by
  unfold setTgt
  repeat' (first | with_reducible assumption | simp only [same_mk_evt hW])

theorem evtSettle_same {ps : List Part} {s0 : State} {s : State}
    (hW : Within [.freeCtr, .csr, .evt, .answers, .stks, .fast, .fastMark, .deepMark, .pages, .pageCache, .frameMap, .blocks, .slots, .migq, .stalled, .stallFail, .plcCh, .plans, .links, .hlk] ps) (hK : SameBut ps s0 s) :
    SameBut ps s0 (evtSettle s) := by
  have w1 : Within [.evt] ps := Within.trans (by decide +kernel) hW
  unfold evtSettle
  repeat' (first | with_reducible assumption | with_reducible apply signalVec_same hW
                  | with_reducible apply setTgt_same w1 | extract_lets | split)

theorem dropLine_same {ps : List Part} {s0 : State} {s : State} {p : Nat} {lta : Nat}
    (hW : Within [.dcache] ps) (hK : SameBut ps s0 s) :
    SameBut ps s0 (dropLine s p lta) := by
  unfold dropLine
  repeat' (first | with_reducible assumption | simp only [same_mk_dcache hW])

theorem execEvtRingWrite_same {ps : List Part} {s0 : State} {t : Fin 9} {s : State}
    (hW : Within [.freeCtr, .csr, .evt, .answers, .stks, .fast, .fastMark, .deepMark, .pages, .pageCache, .frameMap, .blocks, .slots, .migq, .stalled, .stallFail, .plcCh, .plans, .dcache, .links, .hlk] ps) (hK : SameBut ps s0 s) :
    OutSame ps s0 (execEvtRingWrite t s) := by
  have w1 : Within [.csr, .evt] ps := Within.trans (by decide +kernel) hW
  have w2 : Within [.freeCtr, .csr, .evt, .answers, .stks, .fast, .fastMark, .deepMark, .pages, .pageCache, .frameMap, .blocks, .slots, .migq, .stalled, .stallFail, .plcCh, .plans] ps := Within.trans (by decide +kernel) hW
  have w3 : Within [.evt] ps := Within.trans (by decide +kernel) hW
  have w4 : Within [.freeCtr, .csr, .evt, .answers, .stks, .fast, .fastMark, .deepMark, .pages, .pageCache, .frameMap, .blocks, .slots, .migq, .stalled, .stallFail, .plcCh, .plans, .links, .hlk] ps := Within.trans (by decide +kernel) hW
  have w5 : Within [.dcache] ps := Within.trans (by decide +kernel) hW
  unfold execEvtRingWrite
  repeat' (first | with_reducible assumption | with_reducible apply raise_same w1
                  | with_reducible apply ltaWrite_same w2 | with_reducible apply setTgt_same w3
                  | with_reducible apply evtSettle_same w4 | with_reducible apply dropLine_same w5
                  | with_reducible apply outSame_next | simp only [same_mk_evt w3]
                  | with_reducible refine same_fst (by assumption) ?_ | extract_lets | split)

theorem nestEnterEff_same {ps : List Part} {s0 : State} {s : State} {t : Nat}
    (hW : Within [.freeCtr, .csr, .evt, .answers, .stks, .fast, .fastMark, .deepMark, .pages, .pageCache, .frameMap, .blocks, .slots, .migq, .stalled, .stallFail, .plcCh, .plans, .links, .hlk] ps) (hK : SameBut ps s0 s) :
    SameBut ps s0 (nestEnterEff s t) := by
  have w1 : Within [.evt] ps := Within.trans (by decide +kernel) hW
  unfold nestEnterEff
  repeat' (first | with_reducible assumption | with_reducible apply setTgt_same w1
                  | with_reducible apply evtSettle_same hW | extract_lets | split)

theorem nestExitEff_same {ps : List Part} {s0 : State} {s : State} {ini : Initiator} {t : Nat}
    (hW : Within [.freeCtr, .csr, .evt, .answers, .stks, .fast, .fastMark, .deepMark, .pages, .pageCache, .frameMap, .blocks, .slots, .migq, .stalled, .stallFail, .plcCh, .plans, .links, .hlk] ps) (hK : SameBut ps s0 s) :
    SameBut ps s0 (nestExitEff s ini t) := by
  have w1 : Within [.csr, .evt] ps := Within.trans (by decide +kernel) hW
  have w2 : Within [.evt] ps := Within.trans (by decide +kernel) hW
  unfold nestExitEff
  repeat' (first | with_reducible assumption | with_reducible apply violation_same w1
                  | with_reducible apply setTgt_same w2 | with_reducible apply evtSettle_same hW | extract_lets
                  | split)

theorem tgtCiEff_same {ps : List Part} {s0 : State} {s : State} {ini : Initiator} {t : Nat} {w : Nat}
    (hW : Within [.freeCtr, .csr, .evt, .answers, .stks, .fast, .fastMark, .deepMark, .pages, .pageCache, .frameMap, .blocks, .slots, .migq, .stalled, .stallFail, .plcCh, .plans, .links, .hlk] ps) (hK : SameBut ps s0 s) :
    SameBut ps s0 (tgtCiEff s ini t w) := by
  have w1 : Within [.csr, .evt] ps := Within.trans (by decide +kernel) hW
  have w2 : Within [.evt] ps := Within.trans (by decide +kernel) hW
  unfold tgtCiEff
  repeat' (first | with_reducible assumption | with_reducible apply violation_same w1
                  | with_reducible apply setTgt_same w2 | with_reducible apply evtSettle_same hW | extract_lets
                  | split)

theorem evtFaultClearEff_same {ps : List Part} {s0 : State} {s : State} {t : Nat}
    (hW : Within [.freeCtr, .csr, .evt, .answers, .stks, .fast, .fastMark, .deepMark, .pages, .pageCache, .frameMap, .blocks, .slots, .migq, .stalled, .stallFail, .plcCh, .plans, .links, .hlk] ps) (hK : SameBut ps s0 s) :
    SameBut ps s0 (evtFaultClearEff s t) := by
  have w1 : Within [.evt] ps := Within.trans (by decide +kernel) hW
  unfold evtFaultClearEff
  repeat' (first | with_reducible assumption | with_reducible apply setTgt_same w1
                  | with_reducible apply evtSettle_same hW)

theorem bpCommit_same {ps : List Part} {s0 : State} {s : State} {t : Nat}
    (hW : Within [.freeCtr, .csr, .evt, .answers, .stks, .fast, .fastMark, .deepMark, .pages, .pageCache, .frameMap, .blocks, .slots, .migq, .stalled, .stallFail, .plcCh, .plans, .links, .hlk] ps) (hK : SameBut ps s0 s) :
    SameBut ps s0 (bpCommit s t) := by
  have w1 : Within [.evt] ps := Within.trans (by decide +kernel) hW
  unfold bpCommit
  repeat' (first | with_reducible assumption | with_reducible apply setTgt_same w1
                  | with_reducible apply evtSettle_same hW)

theorem purgeEff_same {ps : List Part} {s0 : State} {s : State} {src : Nat}
    (hW : Within [.evt] ps) (hK : SameBut ps s0 s) :
    SameBut ps s0 (purgeEff s src) := by
  unfold purgeEff
  repeat' (first | with_reducible assumption | simp only [same_mk_evt hW])

theorem swraiseEff_same {ps : List Part} {s0 : State} {s : State} {ini : Initiator} {v : Nat}
    (hW : Within [.csr, .evt] ps) (hK : SameBut ps s0 s) :
    SameBut ps s0 (swraiseEff s ini v) := by
  unfold swraiseEff
  repeat' (first | with_reducible assumption | with_reducible apply raise_same hW)

theorem execEvtLineAccept_same {ps : List Part} {s0 : State} {l : Fin 8} {asserted : Bool} {s : State}
    (hW : Within [.freeCtr, .csr, .evt] ps) (hK : SameBut ps s0 s) :
    OutSame ps s0 (execEvtLineAccept l asserted s) := by
  have w1 : Within [.csr, .evt] ps := Within.trans (by decide +kernel) hW
  have w3 : Within [.evt] ps := Within.trans (by decide +kernel) hW
  unfold execEvtLineAccept
  repeat' (first | with_reducible assumption | with_reducible apply raise_same w1
                  | with_reducible apply outSame_next | simp only [same_mk_evt w3] | split)

theorem execDomeBufferDrain_same {ps : List Part} {s0 : State} {s : State}
    (hW : Within [.csr, .evt] ps) (hK : SameBut ps s0 s) :
    OutSame ps s0 (execDomeBufferDrain s) := by
  unfold execDomeBufferDrain
  repeat' (first | with_reducible assumption | with_reducible apply drainDome_same hW
                  | with_reducible apply outSame_next | split)

theorem evtReset_same {ps : List Part} {s0 : State} {s : State}
    (hW : Within [.evt] ps) (hK : SameBut ps s0 s) :
    SameBut ps s0 (evtReset s) := by
  unfold evtReset
  repeat' (first | with_reducible assumption | simp only [same_mk_evt hW])

end Sys2Proof.Machine
end

