-- ==== Sys2Proof/Laws/FrameHart.lean ====
section
/-! SUPPORT. What the functions of Machine/Hart.lean leave unchanged (see Laws/Frame.lean). -/

set_option Elab.async false -- many small kernel checks: one thread does them
set_option linter.unusedSimpArgs false
set_option simprocs false -- no numeral of a goal is evaluated in these proofs

namespace Sys2Proof.Machine

theorem setHart_same {ps : List Part} {s0 : State} {s : State} {p : Nat} {h : Hart}
    (hW : Within [.harts] ps) (hK : SameBut ps s0 s) :
    SameBut ps s0 (setHart s p h) := by
  unfold setHart
  repeat' (first | with_reducible assumption | simp only [same_mk_harts hW])

theorem execProcWfiWake_same {ps : List Part} {s0 : State} {p : Fin 8} {s : State}
    (hW : Within [.harts] ps) (hK : SameBut ps s0 s) :
    OutSame ps s0 (execProcWfiWake p s) := by
  unfold execProcWfiWake
  repeat' (first | with_reducible assumption | with_reducible apply setHart_same hW
                  | with_reducible apply outSame_next | extract_lets | split)

theorem execMtimecmpMatch_same {ps : List Part} {s0 : State} {p : Fin 8} {s : State}
    (hW : Within [.stamp] ps) (hK : SameBut ps s0 s) :
    OutSame ps s0 (execMtimecmpMatch p s) := by
  unfold execMtimecmpMatch
  repeat' (first | with_reducible assumption | with_reducible apply outSame_next | simp only [same_mk_stamp hW])

theorem wdtSync_same {ps : List Part} {s0 : State} {s : State} {p : Nat}
    (hW : Within [.harts] ps) (hK : SameBut ps s0 s) :
    SameBut ps s0 (wdtSync s p) := by
  unfold wdtSync
  repeat' (first | with_reducible assumption | with_reducible apply setHart_same hW)

theorem wdtLoad_same {ps : List Part} {s0 : State} {s : State} {p : Nat}
    (hW : Within [.harts] ps) (hK : SameBut ps s0 s) :
    SameBut ps s0 (wdtLoad s p) := by
  unfold wdtLoad
  repeat' (first | with_reducible assumption | with_reducible apply setHart_same hW)

theorem wdtWriteEff_same {ps : List Part} {s0 : State} {s : State} {p : Nat} {v : Nat}
    (hW : Within [.csr, .harts] ps) (hK : SameBut ps s0 s) :
    SameBut ps s0 (wdtWriteEff s p v) := by
  have w1 : Within [.csr] ps := Within.trans (by decide +kernel) hW
  have w2 : Within [.harts] ps := Within.trans (by decide +kernel) hW
  unfold wdtWriteEff
  repeat' (first | with_reducible assumption | with_reducible apply wr_same w1
                  | with_reducible apply wdtSync_same w2 | with_reducible apply wdtLoad_same w2 | extract_lets
                  | split)

theorem wdtKickEff_same {ps : List Part} {s0 : State} {s : State} {ini : Initiator} {p : Nat} {v : Nat}
    (hW : Within [.csr, .evt, .harts] ps) (hK : SameBut ps s0 s) :
    SameBut ps s0 (wdtKickEff s ini p v) := by
  have w1 : Within [.csr, .evt] ps := Within.trans (by decide +kernel) hW
  have w2 : Within [.harts] ps := Within.trans (by decide +kernel) hW
  unfold wdtKickEff
  repeat' (first | with_reducible assumption | with_reducible apply violation_same w1
                  | with_reducible apply wdtLoad_same w2 | split)

theorem dropHostIo_same {ps : List Part} {s0 : State} {s : State} {p : Nat}
    (hW : Within [.hlk, .harts] ps) (hK : SameBut ps s0 s) :
    SameBut ps s0 (dropHostIo s p) := by
  have w1 : Within [.hlk] ps := Within.trans (by decide +kernel) hW
  have w2 : Within [.harts] ps := Within.trans (by decide +kernel) hW
  unfold dropHostIo
  repeat' (first | with_reducible assumption | with_reducible apply setHlk_same w1
                  | with_reducible apply setHart_same w2)

theorem runEff_same {ps : List Part} {s0 : State} {s : State} {p : Nat}
    (hW : Within [.harts] ps) (hK : SameBut ps s0 s) :
    SameBut ps s0 (runEff s p) := by
  unfold runEff
  repeat' (first | with_reducible assumption | with_reducible apply setHart_same hW
                  | with_reducible apply wdtSync_same hW | extract_lets | split)

theorem haltNow_same {ps : List Part} {s0 : State} {s : State} {p : Nat}
    (hW : Within [.csr, .evt, .hlk, .harts] ps) (hK : SameBut ps s0 s) :
    SameBut ps s0 (haltNow s p) := by
  have w1 : Within [.csr, .evt] ps := Within.trans (by decide +kernel) hW
  have w2 : Within [.harts] ps := Within.trans (by decide +kernel) hW
  have w3 : Within [.hlk, .harts] ps := Within.trans (by decide +kernel) hW
  unfold haltNow
  repeat' (first | with_reducible assumption | with_reducible apply raise_same w1
                  | with_reducible apply setHart_same w2 | with_reducible apply wdtSync_same w2
                  | with_reducible apply dropHostIo_same w3)

theorem haltEff_same {ps : List Part} {s0 : State} {s : State} {p : Nat}
    (hW : Within [.csr, .evt, .hlk, .harts] ps) (hK : SameBut ps s0 s) :
    SameBut ps s0 (haltEff s p) := by
  unfold haltEff
  repeat' (first | with_reducible assumption | with_reducible apply haltNow_same hW | split)

theorem dinvEff_same {ps : List Part} {s0 : State} {s : State} {p : Nat}
    (hW : Within [.dcache] ps) (hK : SameBut ps s0 s) :
    SameBut ps s0 (dinvEff s p) := by
  unfold dinvEff
  repeat' (first | with_reducible assumption | simp only [same_mk_dcache hW])

theorem hartReset_same {ps : List Part} {s0 : State} {s : State} {p : Nat}
    (hW : Within [.evt, .dcache, .hlk, .harts] ps) (hK : SameBut ps s0 s) :
    SameBut ps s0 (hartReset s p) := by
  have w1 : Within [.evt] ps := Within.trans (by decide +kernel) hW
  have w2 : Within [.harts] ps := Within.trans (by decide +kernel) hW
  have w3 : Within [.hlk, .harts] ps := Within.trans (by decide +kernel) hW
  have w4 : Within [.dcache] ps := Within.trans (by decide +kernel) hW
  unfold hartReset
  repeat' (first | with_reducible assumption | with_reducible apply setTgt_same w1
                  | with_reducible apply setHart_same w2 | with_reducible apply dropHostIo_same w3
                  | with_reducible apply dinvEff_same w4)

theorem procErr_same {ps : List Part} {s0 : State} {s : State} {p : Nat} {st : Nat} {addr : Nat}
    (hW : Within [.csr] ps) (hK : SameBut ps s0 s) :
    SameBut ps s0 (procErr s p st addr) := by
  unfold procErr
  repeat' (first | with_reducible assumption | with_reducible apply wr_same hW | split)

end Sys2Proof.Machine
end

