-- ==== Sys2Proof/Laws/FrameReset.lean ====
section
/-! SUPPORT. What the functions of Machine/Reset.lean leave unchanged (see Laws/Frame.lean). -/

set_option Elab.async false -- many small kernel checks: one thread does them
set_option linter.unusedSimpArgs false
set_option simprocs false -- no numeral of a goal is evaluated in these proofs

namespace Sys2Proof.Machine

theorem trimQuiet_same {ps : List Part} {s0 : State} {s : State}
    (hW : Within [.quiet] ps) (hK : SameBut ps s0 s) :
    SameBut ps s0 (trimQuiet s) := by
  unfold trimQuiet
  repeat' (first | with_reducible assumption | simp only [same_mk_quiet hW])

theorem resetRegs_same {ps : List Part} {s0 : State} {s : State} {mask : Nat} {cold : Bool}
    (hW : Within [.csr, .shadow, .heldLow, .latchHigh, .quiet, .heldWrites, .coreHeld] ps) (hK : SameBut ps s0 s) :
    SameBut ps s0 (resetRegs s mask cold) := by
  have w1 : Within [.csr] ps := Within.trans (by decide +kernel) hW
  unfold resetRegs
  repeat' (first | with_reducible assumption | with_reducible apply wr_same w1 | with_reducible apply setFld_same w1
                  | simp only [same_mk_csr_shadow_heldLow_latchHigh_quiet_heldWrites_coreHeld hW] | split)

theorem coresReset_same {ps : List Part} {s0 : State} {s : State} {q : Nat}
    (hW : Within [.cores, .ephResults, .hlk] ps) (hK : SameBut ps s0 s) :
    SameBut ps s0 (coresReset s q) := by
  have w1 : Within [.hlk] ps := Within.trans (by decide +kernel) hW
  have w2 : Within [.cores, .ephResults] ps := Within.trans (by decide +kernel) hW
  unfold coresReset
  repeat' (first | with_reducible assumption | with_reducible apply setHlk_same w1
                  | simp only [same_mk_cores_ephResults w2] | (with_reducible apply same_foldl; (try intros)))

theorem stripPlans_same {ps : List Part} {s0 : State} {s : State}
    (hW : Within [.cores] ps) (hK : SameBut ps s0 s) :
    SameBut ps s0 (stripPlans s) := by
  unfold stripPlans
  repeat' (first | with_reducible assumption | simp only [same_mk_cores hW])

theorem pwrReset_same {ps : List Part} {s0 : State} {s : State} {cold : Bool}
    (hW : Within [.pwr] ps) (hK : SameBut ps s0 s) :
    SameBut ps s0 (pwrReset s cold) := by
  unfold pwrReset
  repeat' (first | with_reducible assumption | simp only [same_mk_pwr hW])

theorem domReset_same {ps : List Part} {s0 : State} {s : State} {mask : Nat}
    (hW : Within [.pwr] ps) (hK : SameBut ps s0 s) :
    SameBut ps s0 (domReset s mask) := by
  unfold domReset
  repeat' (first | with_reducible assumption | simp only [same_mk_pwr hW])

theorem bootReset_same {ps : List Part} {s0 : State} {s : State} {cold : Bool}
    (hW : Within [.boot] ps) (hK : SameBut ps s0 s) :
    SameBut ps s0 (bootReset s cold) := by
  unfold bootReset
  repeat' (first | with_reducible assumption | simp only [same_mk_boot hW])

theorem onBit_same {ps : List Part} {s0 : State} {mask : Nat} {b : Nat} {f : State → State} {s : State}
    (hW : Within [] ps) (hK : SameBut ps s0 s) (hf_f : ∀ a0, SameBut ps s0 a0 → SameBut ps s0 (f a0)) :
    SameBut ps s0 (onBit mask b f s) := by
  unfold onBit
  repeat' (first | with_reducible assumption | with_reducible apply hf_f | split)

theorem onBits_same {ps : List Part} {s0 : State} {mask : Nat} {b : Nat} {n : Nat} {f : State → Nat → State}
    {s : State}
    (hW : Within [] ps) (hK : SameBut ps s0 s) (hf_f : ∀ a0 a1, SameBut ps s0 a0 → SameBut ps s0 (f a0 a1)) :
    SameBut ps s0 (onBits mask b n f s) := by
  unfold onBits
  repeat' (first | with_reducible assumption | with_reducible apply hf_f
                  | (with_reducible apply same_foldl; (try intros)) | extract_lets | split)

theorem doReset_same {ps : List Part} {s0 : State} {s : State} {mask : Nat} {cold : Bool}
    (hW : Within [.stamp, .csr, .shadow, .heldLow, .latchHigh, .quiet, .heldWrites, .evt, .pwr, .cores, .coreHeld, .triggers, .ephResults, .answers, .stks, .fast, .deep, .fastMark, .deepMark, .pages, .pageCache, .holders, .frameMap, .blocks, .frameCur, .blockCur, .slots, .migq, .sweep, .stalled, .stallFail, .plcCh, .plans, .plcFits, .plcRestoring, .nbus, .rowsInFlight, .rowAnswers, .dcache, .outbox, .rlys, .med, .links, .fabc, .hlk, .harts, .boot, .commit_] ps) (hK : SameBut ps s0 s) :
    SameBut ps s0 (doReset s mask cold) := by
  have w1 : Within [.csr, .evt, .answers, .stks, .fast, .deep, .fastMark, .deepMark] ps := Within.trans (by decide +kernel) hW
  have w2 : Within [.triggers, .ephResults, .answers, .pages, .pageCache, .holders, .frameMap, .blocks, .frameCur, .blockCur, .slots, .migq, .sweep, .stalled, .stallFail, .plcCh, .plans, .plcFits, .plcRestoring] ps := Within.trans (by decide +kernel) hW
  have w3 : Within [.holders, .nbus, .rowsInFlight] ps := Within.trans (by decide +kernel) hW
  have w4 : Within [.rowAnswers, .rlys] ps := Within.trans (by decide +kernel) hW
  have w5 : Within [.med] ps := Within.trans (by decide +kernel) hW
  have w6 : Within [.answers, .links, .fabc] ps := Within.trans (by decide +kernel) hW
  have w7 : Within [.answers, .outbox, .fabc] ps := Within.trans (by decide +kernel) hW
  have w8 : Within [.cores, .answers, .outbox, .links, .hlk, .harts] ps := Within.trans (by decide +kernel) hW
  have w9 : Within [.evt] ps := Within.trans (by decide +kernel) hW
  have w10 : Within [.evt, .dcache, .hlk, .harts] ps := Within.trans (by decide +kernel) hW
  have w11 : Within [.csr, .shadow, .heldLow, .latchHigh, .quiet, .heldWrites, .coreHeld] ps := Within.trans (by decide +kernel) hW
  have w12 : Within [.cores, .ephResults, .hlk] ps := Within.trans (by decide +kernel) hW
  have w13 : Within [.cores] ps := Within.trans (by decide +kernel) hW
  have w14 : Within [.pwr] ps := Within.trans (by decide +kernel) hW
  have w15 : Within [.boot] ps := Within.trans (by decide +kernel) hW
  have w16 : Within [] ps := Within.trans (by decide +kernel) hW
  have w17 : Within [.heldWrites, .commit_] ps := Within.trans (by decide +kernel) hW
  have w18 : Within [.stamp] ps := Within.trans (by decide +kernel) hW
  unfold doReset
  repeat' (first | with_reducible assumption | with_reducible apply stkReset_same w1
                  | with_reducible apply plcReset_same w2 | with_reducible apply nbuReset_same w3
                  | with_reducible apply rlyReset_same w4 | with_reducible apply medReset_same w5
                  | with_reducible apply portReset_same w6 | with_reducible apply fabcReset_same w7
                  | with_reducible apply hlkReset_same w8 | with_reducible apply evtReset_same w9
                  | with_reducible apply hartReset_same w10 | with_reducible apply resetRegs_same w11
                  | with_reducible apply coresReset_same w12 | with_reducible apply stripPlans_same w13
                  | with_reducible apply pwrReset_same w14 | with_reducible apply domReset_same w14
                  | with_reducible apply bootReset_same w15 | with_reducible apply onBit_same w16
                  | with_reducible apply onBits_same w16 | simp only [same_mk_heldWrites_commit w17]
                  | simp only [same_mk_stamp w18] | (with_reducible apply same_foldl; (try intros)) | extract_lets
                  | split | with_reducible intro _)

theorem porReset_same {ps : List Part} {s0 : State} {s : State}
    (hW : Within [.csr, .shadow, .heldLow, .latchHigh, .evt, .rst, .pwr] ps) (hK : SameBut ps s0 s) :
    SameBut ps s0 (porReset s) := by
  have w1 : Within [.csr] ps := Within.trans (by decide +kernel) hW
  unfold porReset
  repeat' (first | with_reducible assumption | with_reducible apply wr_same w1
                  | simp only [same_mk_csr_shadow_heldLow_latchHigh_evt_rst_pwr hW])

theorem enterReach_same {ps : List Part} {s0 : State} {s : State} {r : Nat}
    (hW : Within [.stamp, .csr, .shadow, .heldLow, .latchHigh, .quiet, .heldWrites, .evt, .rst, .pwr, .cores, .coreHeld, .triggers, .ephResults, .answers, .stks, .fast, .deep, .fastMark, .deepMark, .pages, .pageCache, .holders, .frameMap, .blocks, .frameCur, .blockCur, .slots, .migq, .sweep, .stalled, .stallFail, .plcCh, .plans, .plcFits, .plcRestoring, .nbus, .rowsInFlight, .rowAnswers, .dcache, .outbox, .rlys, .med, .links, .fabc, .hlk, .harts, .boot, .commit_] ps) (hK : SameBut ps s0 s) :
    SameBut ps s0 (enterReach s r) := by
  have w1 : Within [.csr] ps := Within.trans (by decide +kernel) hW
  have w2 : Within [.quiet] ps := Within.trans (by decide +kernel) hW
  have w3 : Within [.stamp, .csr, .shadow, .heldLow, .latchHigh, .quiet, .heldWrites, .evt, .pwr, .cores, .coreHeld, .triggers, .ephResults, .answers, .stks, .fast, .deep, .fastMark, .deepMark, .pages, .pageCache, .holders, .frameMap, .blocks, .frameCur, .blockCur, .slots, .migq, .sweep, .stalled, .stallFail, .plcCh, .plans, .plcFits, .plcRestoring, .nbus, .rowsInFlight, .rowAnswers, .dcache, .outbox, .rlys, .med, .links, .fabc, .hlk, .harts, .boot, .commit_] ps := Within.trans (by decide +kernel) hW
  have w4 : Within [.rst] ps := Within.trans (by decide +kernel) hW
  unfold enterReach
  repeat' (first | with_reducible assumption | with_reducible apply wr_same w1
                  | with_reducible apply trimQuiet_same w2 | with_reducible apply doReset_same w3
                  | simp only [same_mk_rst w4] | extract_lets | split)

theorem assertSrc_same {ps : List Part} {s0 : State} {s : State} {b : Nat} {r : Nat} {hart : Option Nat}
    (hW : Within [.freeCtr, .stamp, .csr, .shadow, .heldLow, .latchHigh, .quiet, .heldWrites, .evt, .rst, .pwr, .cores, .coreHeld, .triggers, .ephResults, .answers, .stks, .fast, .deep, .fastMark, .deepMark, .pages, .pageCache, .holders, .frameMap, .blocks, .frameCur, .blockCur, .slots, .migq, .sweep, .stalled, .stallFail, .plcCh, .plans, .plcFits, .plcRestoring, .nbus, .rowsInFlight, .rowAnswers, .dcache, .outbox, .rlys, .med, .links, .fabc, .hlk, .harts, .boot, .commit_] ps) (hK : SameBut ps s0 s) :
    SameBut ps s0 (assertSrc s b r hart) := by
  have w2 : Within [.csr, .shadow, .heldLow, .latchHigh, .evt, .rst, .pwr] ps := Within.trans (by decide +kernel) hW
  have w3 : Within [.stamp, .csr, .shadow, .heldLow, .latchHigh, .quiet, .heldWrites, .evt, .rst, .pwr, .cores, .coreHeld, .triggers, .ephResults, .answers, .stks, .fast, .deep, .fastMark, .deepMark, .pages, .pageCache, .holders, .frameMap, .blocks, .frameCur, .blockCur, .slots, .migq, .sweep, .stalled, .stallFail, .plcCh, .plans, .plcFits, .plcRestoring, .nbus, .rowsInFlight, .rowAnswers, .dcache, .outbox, .rlys, .med, .links, .fabc, .hlk, .harts, .boot, .commit_] ps := Within.trans (by decide +kernel) hW
  have w4 : Within [.rst] ps := Within.trans (by decide +kernel) hW
  unfold assertSrc
  repeat' (first | with_reducible assumption | with_reducible apply porReset_same w2
                  | with_reducible apply enterReach_same w3 | simp only [same_mk_rst w4] | split)

theorem startExit_same {ps : List Part} {s0 : State} {s : State}
    (hW : Within [.csr, .evt, .rst] ps) (hK : SameBut ps s0 s) :
    SameBut ps s0 (startExit s) := by
  have w1 : Within [.csr] ps := Within.trans (by decide +kernel) hW
  have w2 : Within [.csr, .evt] ps := Within.trans (by decide +kernel) hW
  have w3 : Within [.rst] ps := Within.trans (by decide +kernel) hW
  unfold startExit
  repeat' (first | with_reducible assumption | with_reducible apply wr_same w1
                  | with_reducible apply bumpOcc_same w2 | simp only [same_mk_rst w3])

theorem releaseSrc_same {ps : List Part} {s0 : State} {s : State} {b : Nat}
    (hW : Within [.csr, .evt, .rst] ps) (hK : SameBut ps s0 s) :
    SameBut ps s0 (releaseSrc s b) := by
  have w1 : Within [.rst] ps := Within.trans (by decide +kernel) hW
  unfold releaseSrc
  repeat' (first | with_reducible assumption | with_reducible apply startExit_same hW | simp only [same_mk_rst w1]
                  | split)

theorem brownoutLevel_same {ps : List Part} {s0 : State} {s : State}
    (hW : Within [.freeCtr, .stamp, .csr, .shadow, .heldLow, .latchHigh, .quiet, .heldWrites, .evt, .rst, .pwr, .cores, .coreHeld, .triggers, .ephResults, .answers, .stks, .fast, .deep, .fastMark, .deepMark, .pages, .pageCache, .holders, .frameMap, .blocks, .frameCur, .blockCur, .slots, .migq, .sweep, .stalled, .stallFail, .plcCh, .plans, .plcFits, .plcRestoring, .nbus, .rowsInFlight, .rowAnswers, .dcache, .outbox, .rlys, .med, .links, .fabc, .hlk, .harts, .boot, .commit_] ps) (hK : SameBut ps s0 s) :
    SameBut ps s0 (brownoutLevel s) := by
  have w1 : Within [.csr, .evt, .rst] ps := Within.trans (by decide +kernel) hW
  unfold brownoutLevel
  repeat' (first | with_reducible assumption | with_reducible apply assertSrc_same hW
                  | with_reducible apply releaseSrc_same w1 | extract_lets | split)

theorem clockLevel_same {ps : List Part} {s0 : State} {s : State}
    (hW : Within [.freeCtr, .stamp, .csr, .shadow, .heldLow, .latchHigh, .quiet, .heldWrites, .evt, .rst, .pwr, .cores, .coreHeld, .triggers, .ephResults, .answers, .stks, .fast, .deep, .fastMark, .deepMark, .pages, .pageCache, .holders, .frameMap, .blocks, .frameCur, .blockCur, .slots, .migq, .sweep, .stalled, .stallFail, .plcCh, .plans, .plcFits, .plcRestoring, .nbus, .rowsInFlight, .rowAnswers, .dcache, .outbox, .rlys, .med, .links, .fabc, .hlk, .harts, .boot, .commit_] ps) (hK : SameBut ps s0 s) :
    SameBut ps s0 (clockLevel s) := by
  have w1 : Within [.csr, .evt, .rst] ps := Within.trans (by decide +kernel) hW
  unfold clockLevel
  repeat' (first | with_reducible assumption | with_reducible apply assertSrc_same hW
                  | with_reducible apply releaseSrc_same w1 | extract_lets | split)

theorem execRailThreshold_same {ps : List Part} {s0 : State} {r : Rail} {good : Bool} {s : State}
    (hW : Within [.freeCtr, .stamp, .csr, .shadow, .heldLow, .latchHigh, .quiet, .heldWrites, .evt, .rst, .pwr, .cores, .coreHeld, .triggers, .ephResults, .answers, .stks, .fast, .deep, .fastMark, .deepMark, .pages, .pageCache, .holders, .frameMap, .blocks, .frameCur, .blockCur, .slots, .migq, .sweep, .stalled, .stallFail, .plcCh, .plans, .plcFits, .plcRestoring, .nbus, .rowsInFlight, .rowAnswers, .dcache, .outbox, .rlys, .med, .links, .fabc, .hlk, .harts, .boot, .commit_] ps) (hK : SameBut ps s0 s) :
    OutSame ps s0 (execRailThreshold r good s) := by
  have w1 : Within [.rst] ps := Within.trans (by decide +kernel) hW
  unfold execRailThreshold
  repeat' (first | with_reducible assumption | with_reducible apply assertSrc_same hW
                  | with_reducible apply brownoutLevel_same hW | with_reducible apply outSame_next
                  | simp only [same_mk_rst w1] | extract_lets | split)

theorem execPowerOnHoldEnd_same {ps : List Part} {s0 : State} {s : State}
    (hW : Within [.csr, .evt, .rst] ps) (hK : SameBut ps s0 s) :
    OutSame ps s0 (execPowerOnHoldEnd s) := by
  unfold execPowerOnHoldEnd
  repeat' (first | with_reducible assumption | with_reducible apply releaseSrc_same hW
                  | with_reducible apply outSame_next | split)

theorem execResetPinAccept_same {ps : List Part} {s0 : State} {high : Bool} {s : State}
    (hW : Within [.freeCtr, .stamp, .csr, .shadow, .heldLow, .latchHigh, .quiet, .heldWrites, .evt, .rst, .pwr, .cores, .coreHeld, .triggers, .ephResults, .answers, .stks, .fast, .deep, .fastMark, .deepMark, .pages, .pageCache, .holders, .frameMap, .blocks, .frameCur, .blockCur, .slots, .migq, .sweep, .stalled, .stallFail, .plcCh, .plans, .plcFits, .plcRestoring, .nbus, .rowsInFlight, .rowAnswers, .dcache, .outbox, .rlys, .med, .links, .fabc, .hlk, .harts, .boot, .commit_] ps) (hK : SameBut ps s0 s) :
    OutSame ps s0 (execResetPinAccept high s) := by
  have w1 : Within [.csr, .evt, .rst] ps := Within.trans (by decide +kernel) hW
  have w2 : Within [.rst] ps := Within.trans (by decide +kernel) hW
  unfold execResetPinAccept
  repeat' (first | with_reducible assumption | with_reducible apply assertSrc_same hW
                  | with_reducible apply releaseSrc_same w1 | with_reducible apply outSame_next
                  | simp only [same_mk_rst w2] | split)

theorem execClockMonitorWindow_same {ps : List Part} {s0 : State} {edges : Nat} {s : State}
    (hW : Within [.freeCtr, .stamp, .csr, .shadow, .heldLow, .latchHigh, .quiet, .heldWrites, .evt, .rst, .pwr, .cores, .coreHeld, .triggers, .ephResults, .answers, .stks, .fast, .deep, .fastMark, .deepMark, .pages, .pageCache, .holders, .frameMap, .blocks, .frameCur, .blockCur, .slots, .migq, .sweep, .stalled, .stallFail, .plcCh, .plans, .plcFits, .plcRestoring, .nbus, .rowsInFlight, .rowAnswers, .dcache, .outbox, .rlys, .med, .links, .fabc, .hlk, .harts, .boot, .commit_] ps) (hK : SameBut ps s0 s) :
    OutSame ps s0 (execClockMonitorWindow edges s) := by
  have w1 : Within [.rst] ps := Within.trans (by decide +kernel) hW
  unfold execClockMonitorWindow
  repeat' (first | with_reducible assumption | with_reducible apply clockLevel_same hW
                  | with_reducible apply outSame_next | simp only [same_mk_rst w1] | split)

theorem execPllLossOfLock_same {ps : List Part} {s0 : State} {s : State}
    (hW : Within [.freeCtr, .stamp, .csr, .shadow, .heldLow, .latchHigh, .quiet, .heldWrites, .evt, .rst, .pwr, .cores, .coreHeld, .triggers, .ephResults, .answers, .stks, .fast, .deep, .fastMark, .deepMark, .pages, .pageCache, .holders, .frameMap, .blocks, .frameCur, .blockCur, .slots, .migq, .sweep, .stalled, .stallFail, .plcCh, .plans, .plcFits, .plcRestoring, .nbus, .rowsInFlight, .rowAnswers, .dcache, .outbox, .rlys, .med, .links, .fabc, .hlk, .harts, .boot, .commit_] ps) (hK : SameBut ps s0 s) :
    OutSame ps s0 (execPllLossOfLock s) := by
  have w1 : Within [.rst] ps := Within.trans (by decide +kernel) hW
  unfold execPllLossOfLock
  repeat' (first | with_reducible assumption | with_reducible apply clockLevel_same hW
                  | with_reducible apply outSame_next | simp only [same_mk_rst w1] | split)

theorem execResetSourceAssert_same {ps : List Part} {s0 : State} {src : RstSource} {reach : Reach}
    {hart : Option (Fin 8)} {s : State}
    (hW : Within [.freeCtr, .stamp, .csr, .shadow, .heldLow, .latchHigh, .quiet, .heldWrites, .evt, .rst, .pwr, .cores, .coreHeld, .triggers, .ephResults, .answers, .stks, .fast, .deep, .fastMark, .deepMark, .pages, .pageCache, .holders, .frameMap, .blocks, .frameCur, .blockCur, .slots, .migq, .sweep, .stalled, .stallFail, .plcCh, .plans, .plcFits, .plcRestoring, .nbus, .rowsInFlight, .rowAnswers, .dcache, .outbox, .rlys, .med, .links, .fabc, .hlk, .harts, .boot, .commit_] ps) (hK : SameBut ps s0 s) :
    OutSame ps s0 (execResetSourceAssert src reach hart s) := by
  unfold execResetSourceAssert
  repeat' (first | with_reducible assumption | with_reducible apply assertSrc_same hW
                  | with_reducible apply outSame_next | extract_lets | split)

theorem execResetSourceRelease_same {ps : List Part} {s0 : State} {src : RstSource} {s : State}
    (hW : Within [.freeCtr, .stamp, .csr, .shadow, .heldLow, .latchHigh, .quiet, .heldWrites, .evt, .rst, .pwr, .cores, .coreHeld, .triggers, .ephResults, .answers, .stks, .fast, .deep, .fastMark, .deepMark, .pages, .pageCache, .holders, .frameMap, .blocks, .frameCur, .blockCur, .slots, .migq, .sweep, .stalled, .stallFail, .plcCh, .plans, .plcFits, .plcRestoring, .nbus, .rowsInFlight, .rowAnswers, .dcache, .outbox, .rlys, .med, .links, .fabc, .hlk, .harts, .boot, .commit_] ps) (hK : SameBut ps s0 s) :
    OutSame ps s0 (execResetSourceRelease src s) := by
  have w1 : Within [.csr, .evt, .rst] ps := Within.trans (by decide +kernel) hW
  unfold execResetSourceRelease
  repeat' (first | with_reducible assumption | with_reducible apply releaseSrc_same w1
                  | with_reducible apply outSame_next | split)

theorem swreqEff_same {ps : List Part} {s0 : State} {s : State} {ini : Initiator} {v : Nat}
    (hW : Within [.freeCtr, .stamp, .csr, .shadow, .heldLow, .latchHigh, .quiet, .heldWrites, .evt, .rst, .pwr, .cores, .coreHeld, .triggers, .ephResults, .answers, .stks, .fast, .deep, .fastMark, .deepMark, .pages, .pageCache, .holders, .frameMap, .blocks, .frameCur, .blockCur, .slots, .migq, .sweep, .stalled, .stallFail, .plcCh, .plans, .plcFits, .plcRestoring, .nbus, .rowsInFlight, .rowAnswers, .dcache, .outbox, .rlys, .med, .links, .fabc, .hlk, .harts, .boot, .commit_] ps) (hK : SameBut ps s0 s) :
    SameBut ps s0 (swreqEff s ini v) := by
  have w1 : Within [.csr, .evt] ps := Within.trans (by decide +kernel) hW
  unfold swreqEff
  repeat' (first | with_reducible assumption | with_reducible apply violation_same w1
                  | with_reducible apply assertSrc_same hW | extract_lets | split)

theorem dbgreqEff_same {ps : List Part} {s0 : State} {s : State} {ini : Initiator} {v : Nat}
    (hW : Within [.freeCtr, .stamp, .csr, .shadow, .heldLow, .latchHigh, .quiet, .heldWrites, .evt, .rst, .pwr, .cores, .coreHeld, .triggers, .ephResults, .answers, .stks, .fast, .deep, .fastMark, .deepMark, .pages, .pageCache, .holders, .frameMap, .blocks, .frameCur, .blockCur, .slots, .migq, .sweep, .stalled, .stallFail, .plcCh, .plans, .plcFits, .plcRestoring, .nbus, .rowsInFlight, .rowAnswers, .dcache, .outbox, .rlys, .med, .links, .fabc, .hlk, .harts, .boot, .commit_] ps) (hK : SameBut ps s0 s) :
    SameBut ps s0 (dbgreqEff s ini v) := by
  have w1 : Within [.csr, .evt] ps := Within.trans (by decide +kernel) hW
  unfold dbgreqEff
  repeat' (first | with_reducible assumption | with_reducible apply violation_same w1
                  | with_reducible apply assertSrc_same hW | extract_lets | split)

theorem execWdtExpire_same {ps : List Part} {s0 : State} {p : Fin 8} {s : State}
    (hW : Within [.freeCtr, .stamp, .csr, .shadow, .heldLow, .latchHigh, .quiet, .heldWrites, .evt, .rst, .pwr, .cores, .coreHeld, .triggers, .ephResults, .answers, .stks, .fast, .deep, .fastMark, .deepMark, .pages, .pageCache, .holders, .frameMap, .blocks, .frameCur, .blockCur, .slots, .migq, .sweep, .stalled, .stallFail, .plcCh, .plans, .plcFits, .plcRestoring, .nbus, .rowsInFlight, .rowAnswers, .dcache, .outbox, .rlys, .med, .links, .fabc, .hlk, .harts, .boot, .commit_] ps) (hK : SameBut ps s0 s) :
    OutSame ps s0 (execWdtExpire p s) := by
  have w1 : Within [.csr] ps := Within.trans (by decide +kernel) hW
  have w2 : Within [.csr, .evt] ps := Within.trans (by decide +kernel) hW
  have w3 : Within [.harts] ps := Within.trans (by decide +kernel) hW
  unfold execWdtExpire
  repeat' (first | with_reducible assumption | with_reducible apply setFlag_same w1
                  | with_reducible apply raise_same w2 | with_reducible apply wdtLoad_same w3
                  | with_reducible apply assertSrc_same hW | with_reducible apply outSame_next | extract_lets
                  | split)

theorem lockup_same {ps : List Part} {s0 : State} {s : State} {p : Nat} {pc : Nat} {cause : Nat}
    (hW : Within [.freeCtr, .stamp, .csr, .shadow, .heldLow, .latchHigh, .quiet, .heldWrites, .evt, .rst, .pwr, .cores, .coreHeld, .triggers, .ephResults, .answers, .stks, .fast, .deep, .fastMark, .deepMark, .pages, .pageCache, .holders, .frameMap, .blocks, .frameCur, .blockCur, .slots, .migq, .sweep, .stalled, .stallFail, .plcCh, .plans, .plcFits, .plcRestoring, .nbus, .rowsInFlight, .rowAnswers, .dcache, .outbox, .rlys, .med, .links, .fabc, .hlk, .harts, .boot, .commit_] ps) (hK : SameBut ps s0 s) :
    SameBut ps s0 (lockup s p pc cause) := by
  have w1 : Within [.csr, .evt] ps := Within.trans (by decide +kernel) hW
  have w2 : Within [.harts] ps := Within.trans (by decide +kernel) hW
  unfold lockup
  repeat' (first | with_reducible assumption | with_reducible apply raise_same w1
                  | with_reducible apply setHart_same w2 | with_reducible apply assertSrc_same hW | extract_lets
                  | split)

theorem setMode_same {ps : List Part} {s0 : State} {s : State} {m : Nat}
    (hW : Within [.csr] ps) (hK : SameBut ps s0 s) :
    SameBut ps s0 (setMode s m) := by
  unfold setMode
  repeat' (first | with_reducible assumption | with_reducible apply setFld_same hW)

theorem execStrapReadDone_same {ps : List Part} {s0 : State} {codes : List Byte} {s : State}
    (hW : Within [.csr, .rst] ps) (hK : SameBut ps s0 s) :
    OutSame ps s0 (execStrapReadDone codes s) := by
  have w1 : Within [.csr] ps := Within.trans (by decide +kernel) hW
  have w2 : Within [.rst] ps := Within.trans (by decide +kernel) hW
  unfold execStrapReadDone
  repeat' (first | with_reducible assumption | with_reducible apply wr_same w1
                  | with_reducible apply setFlag_same w1 | with_reducible apply setMode_same w1
                  | with_reducible apply outSame_next | simp only [same_mk_rst w2] | split)

theorem wrWords_same {ps : List Part} {s0 : State} {s : State} {a : Nat} {v : Nat} {e0 : Nat}
    (hW : Within [.csr] ps) (hK : SameBut ps s0 s) :
    SameBut ps s0 (wrWords s a v e0) := by
  revert hK
  fun_induction wrWords s a v e0 <;> intro hK
  all_goals (repeat' (with_reducible assumption))
  all_goals (try (apply_assumption; repeat' (first | with_reducible assumption | with_reducible apply wr_same hW)))

theorem showKey_same {ps : List Part} {s0 : State} {s : State}
    (hW : Within [.csr] ps) (hK : SameBut ps s0 s) :
    SameBut ps s0 (showKey s) := by
  unfold showKey
  repeat' (first | with_reducible assumption | with_reducible apply setFlag_same hW)

theorem fuseCommit_same {ps : List Part} {s0 : State} {s : State} {ws : List W32}
    (hW : Within [.csr, .boot] ps) (hK : SameBut ps s0 s) :
    SameBut ps s0 (fuseCommit s ws) := by
  have w1 : Within [.csr] ps := Within.trans (by decide +kernel) hW
  have w2 : Within [.boot] ps := Within.trans (by decide +kernel) hW
  unfold fuseCommit
  repeat' (first | with_reducible assumption | with_reducible apply wr_same w1 | with_reducible apply setFld_same w1
                  | with_reducible apply wrWords_same w1 | simp only [same_mk_boot w2]
                  | (with_reducible apply same_foldl; (try intros)))

theorem execFuseLoadDone_same {ps : List Part} {s0 : State} {words : List W32} {s : State}
    (hW : Within [.csr, .rst, .boot] ps) (hK : SameBut ps s0 s) :
    OutSame ps s0 (execFuseLoadDone words s) := by
  have w1 : Within [.csr] ps := Within.trans (by decide +kernel) hW
  have w2 : Within [.csr, .boot] ps := Within.trans (by decide +kernel) hW
  have w3 : Within [.rst] ps := Within.trans (by decide +kernel) hW
  unfold execFuseLoadDone
  repeat' (first | with_reducible assumption | with_reducible apply setFld_same w1
                  | with_reducible apply setFlag_same w1 | with_reducible apply showKey_same w1
                  | with_reducible apply fuseCommit_same w2 | with_reducible apply outSame_next
                  | simp only [same_mk_rst w3] | split)

theorem execPllLockDone_same {ps : List Part} {s0 : State} {s : State}
    (hW : Within [.rst] ps) (hK : SameBut ps s0 s) :
    OutSame ps s0 (execPllLockDone s) := by
  unfold execPllLockDone
  repeat' (first | with_reducible assumption | with_reducible apply outSame_next | simp only [same_mk_rst hW]
                  | split)

theorem startRom_same {ps : List Part} {s0 : State} {s : State}
    (hW : Within [.harts, .boot] ps) (hK : SameBut ps s0 s) :
    SameBut ps s0 (startRom s) := by
  have w1 : Within [.harts] ps := Within.trans (by decide +kernel) hW
  have w2 : Within [.boot] ps := Within.trans (by decide +kernel) hW
  unfold startRom
  repeat' (first | with_reducible assumption | with_reducible apply runEff_same w1 | simp only [same_mk_boot w2])

theorem blocksExit_same {ps : List Part} {s0 : State} {s : State} {mask : Nat}
    (hW : Within [.csr, .evt, .links, .fabc] ps) (hK : SameBut ps s0 s) :
    SameBut ps s0 (blocksExit s mask) := by
  have w1 : Within [] ps := Within.trans (by decide +kernel) hW
  unfold blocksExit
  repeat' (first | with_reducible assumption | with_reducible apply linkEnableEff_same hW
                  | with_reducible apply onBit_same w1 | extract_lets | with_reducible intro _)

theorem resetDone_same {ps : List Part} {s0 : State} {s : State} {core : Bool}
    (hW : Within [.csr, .evt] ps) (hK : SameBut ps s0 s) :
    SameBut ps s0 (resetDone s core) := by
  unfold resetDone
  repeat' (first | with_reducible assumption | with_reducible apply raiseDome_same hW
                  | with_reducible apply raise_same hW | extract_lets | split)

theorem execResetRelease_same {ps : List Part} {s0 : State} {s : State}
    (hW : Within [.csr, .evt, .rst, .pwr, .links, .fabc, .harts, .boot] ps) (hK : SameBut ps s0 s) :
    OutSame ps s0 (execResetRelease s) := by
  have w1 : Within [.harts, .boot] ps := Within.trans (by decide +kernel) hW
  have w2 : Within [.csr, .evt, .links, .fabc] ps := Within.trans (by decide +kernel) hW
  have w3 : Within [.csr, .evt] ps := Within.trans (by decide +kernel) hW
  have w4 : Within [.rst] ps := Within.trans (by decide +kernel) hW
  have w6 : Within [.rst, .pwr] ps := Within.trans (by decide +kernel) hW
  unfold execResetRelease
  repeat' (first | with_reducible assumption | with_reducible apply startRom_same w1
                  | with_reducible apply blocksExit_same w2 | with_reducible apply resetDone_same w3
                  | with_reducible apply outSame_next | simp only [same_mk_rst w4] | simp only [same_mk_rst_pwr w6]
                  | extract_lets | split)

theorem blkReqEff_same {ps : List Part} {s0 : State} {s : State} {v : Nat}
    (hW : Within [.csr, .quiet, .evt, .rst, .links, .fabc] ps) (hK : SameBut ps s0 s) :
    SameBut ps s0 (blkReqEff s v) := by
  have w1 : Within [.csr] ps := Within.trans (by decide +kernel) hW
  have w2 : Within [.quiet] ps := Within.trans (by decide +kernel) hW
  have w3 : Within [.csr, .evt, .links, .fabc] ps := Within.trans (by decide +kernel) hW
  have w4 : Within [.rst] ps := Within.trans (by decide +kernel) hW
  unfold blkReqEff
  repeat' (first | with_reducible assumption | with_reducible apply wr_same w1
                  | with_reducible apply trimQuiet_same w2 | with_reducible apply blocksExit_same w3
                  | simp only [same_mk_rst w4])

theorem execBlockResetEnter_same {ps : List Part} {s0 : State} {b : Fin 64} {s : State}
    (hW : Within [.stamp, .csr, .shadow, .heldLow, .latchHigh, .quiet, .heldWrites, .evt, .rst, .pwr, .cores, .coreHeld, .triggers, .ephResults, .answers, .stks, .fast, .deep, .fastMark, .deepMark, .pages, .pageCache, .holders, .frameMap, .blocks, .frameCur, .blockCur, .slots, .migq, .sweep, .stalled, .stallFail, .plcCh, .plans, .plcFits, .plcRestoring, .nbus, .rowsInFlight, .rowAnswers, .dcache, .outbox, .rlys, .med, .links, .fabc, .hlk, .harts, .boot, .commit_] ps) (hK : SameBut ps s0 s) :
    OutSame ps s0 (execBlockResetEnter b s) := by
  have w1 : Within [.csr, .evt, .hlk, .harts] ps := Within.trans (by decide +kernel) hW
  have w2 : Within [.stamp, .csr, .shadow, .heldLow, .latchHigh, .quiet, .heldWrites, .evt, .pwr, .cores, .coreHeld, .triggers, .ephResults, .answers, .stks, .fast, .deep, .fastMark, .deepMark, .pages, .pageCache, .holders, .frameMap, .blocks, .frameCur, .blockCur, .slots, .migq, .sweep, .stalled, .stallFail, .plcCh, .plans, .plcFits, .plcRestoring, .nbus, .rowsInFlight, .rowAnswers, .dcache, .outbox, .rlys, .med, .links, .fabc, .hlk, .harts, .boot, .commit_] ps := Within.trans (by decide +kernel) hW
  have w3 : Within [.rst] ps := Within.trans (by decide +kernel) hW
  have w4 : Within [.csr] ps := Within.trans (by decide +kernel) hW
  unfold execBlockResetEnter
  repeat' (first | with_reducible assumption | with_reducible apply haltEff_same w1
                  | with_reducible apply doReset_same w2 | with_reducible apply outSame_next
                  | simp only [same_mk_rst w3] | simp only [same_mk_csr w4] | split)

theorem execBlkTimeout_same {ps : List Part} {s0 : State} {b : Fin 64} {s : State}
    (hW : Within [.csr, .quiet, .evt, .rst] ps) (hK : SameBut ps s0 s) :
    OutSame ps s0 (execBlkTimeout b s) := by
  have w1 : Within [.csr] ps := Within.trans (by decide +kernel) hW
  have w2 : Within [.csr, .evt] ps := Within.trans (by decide +kernel) hW
  have w3 : Within [.quiet] ps := Within.trans (by decide +kernel) hW
  have w4 : Within [.rst] ps := Within.trans (by decide +kernel) hW
  unfold execBlkTimeout
  repeat' (first | with_reducible assumption | with_reducible apply wr_same w1 | with_reducible apply raise_same w2
                  | with_reducible apply trimQuiet_same w3 | with_reducible apply outSame_next
                  | simp only [same_mk_rst w4] | split)

theorem execBlkDone_same {ps : List Part} {s0 : State} {b : Fin 64} {s : State}
    (hW : Within [.csr, .evt, .rst] ps) (hK : SameBut ps s0 s) :
    OutSame ps s0 (execBlkDone b s) := by
  have w1 : Within [.csr, .evt] ps := Within.trans (by decide +kernel) hW
  have w2 : Within [.rst] ps := Within.trans (by decide +kernel) hW
  unfold execBlkDone
  repeat' (first | with_reducible assumption | with_reducible apply raise_same w1
                  | with_reducible apply outSame_next | simp only [same_mk_rst w2] | split)

end Sys2Proof.Machine
end

