-- ==== Sys2Proof/Laws/FramePower.lean ====
section
/-! SUPPORT. What the functions of Machine/Power.lean leave unchanged (see Laws/Frame.lean). -/

set_option Elab.async false -- many small kernel checks: one thread does them
set_option linter.unusedSimpArgs false
set_option simprocs false -- no numeral of a goal is evaluated in these proofs

namespace Sys2Proof.Machine

theorem setPwr_same {ps : List Part} {s0 : State} {s : State} {p : Pwr}
    (hW : Within [.pwr] ps) (hK : SameBut ps s0 s) :
    SameBut ps s0 (setPwr s p) := by
  unfold setPwr
  repeat' (first | with_reducible assumption | simp only [same_mk_pwr hW])

theorem oppStart_same {ps : List Part} {s0 : State} {s : State}
    (hW : Within [.pwr] ps) (hK : SameBut ps s0 s) :
    SameBut ps s0 (oppStart s) := by
  unfold oppStart
  repeat' (first | with_reducible assumption | with_reducible apply setPwr_same hW | extract_lets | split)

theorem execOppDone_same {ps : List Part} {s0 : State} {s : State}
    (hW : Within [.csr, .evt, .pwr] ps) (hK : SameBut ps s0 s) :
    OutSame ps s0 (execOppDone s) := by
  have w1 : Within [.csr, .evt] ps := Within.trans (by decide +kernel) hW
  have w2 : Within [.pwr] ps := Within.trans (by decide +kernel) hW
  unfold execOppDone
  repeat' (first | with_reducible assumption | with_reducible apply raise_same w1
                  | with_reducible apply setPwr_same w2 | with_reducible apply outSame_next | extract_lets | split)

theorem execPowerSample_same {ps : List Part} {s0 : State} {fast : Nat} {slow : Nat} {energy : Nat} {s : State}
    (hW : Within [.csr, .pwr, .fast] ps) (hK : SameBut ps s0 s) :
    OutSame ps s0 (execPowerSample fast slow energy s) := by
  have w1 : Within [.csr] ps := Within.trans (by decide +kernel) hW
  have w2 : Within [.pwr] ps := Within.trans (by decide +kernel) hW
  unfold execPowerSample
  repeat' (first | with_reducible assumption | with_reducible apply bumpStat_same w1
                  | with_reducible apply setPwr_same w2 | with_reducible apply outSame_next | extract_lets | split)

theorem execCapAdjust_same {ps : List Part} {s0 : State} {s : State}
    (hW : Within [.csr, .evt, .pwr] ps) (hK : SameBut ps s0 s) :
    OutSame ps s0 (execCapAdjust s) := by
  have w1 : Within [.csr, .evt] ps := Within.trans (by decide +kernel) hW
  have w2 : Within [.pwr] ps := Within.trans (by decide +kernel) hW
  unfold execCapAdjust
  repeat' (first | with_reducible assumption | with_reducible apply raise_same w1
                  | with_reducible apply setPwr_same w2 | with_reducible apply oppStart_same w2
                  | with_reducible apply outSame_next | extract_lets | split)

theorem releaseQuads_same {ps : List Part} {s0 : State} {s : State}
    (hW : Within [.pwr] ps) (hK : SameBut ps s0 s) :
    SameBut ps s0 (releaseQuads s) := by
  unfold releaseQuads
  repeat' (first | with_reducible assumption | with_reducible apply setPwr_same hW | extract_lets | split)

theorem execThermalSample_same {ps : List Part} {s0 : State} {tj : Byte} {sensor : Fin 40} {s : State}
    (hW : Within [.csr, .evt, .pwr] ps) (hK : SameBut ps s0 s) :
    OutSame ps s0 (execThermalSample tj sensor s) := by
  have w1 : Within [.csr, .evt] ps := Within.trans (by decide +kernel) hW
  have w2 : Within [.pwr] ps := Within.trans (by decide +kernel) hW
  unfold execThermalSample
  repeat' (first | with_reducible assumption | with_reducible apply raise_same w1
                  | with_reducible apply bumpOcc_same w1 | with_reducible apply setPwr_same w2
                  | with_reducible apply releaseQuads_same w2 | with_reducible apply outSame_next | extract_lets
                  | split)

theorem execDomainAutoOff_same {ps : List Part} {s0 : State} {d : Fin 41} {s : State}
    (hW : Within [.csr, .pwr, .stks] ps) (hK : SameBut ps s0 s) :
    OutSame ps s0 (execDomainAutoOff d s) := by
  have w1 : Within [.csr, .stks] ps := Within.trans (by decide +kernel) hW
  have w2 : Within [.pwr] ps := Within.trans (by decide +kernel) hW
  unfold execDomainAutoOff
  repeat' (first | with_reducible assumption | with_reducible apply stkSelfRefresh_same w1
                  | with_reducible apply setPwr_same w2 | with_reducible apply outSame_next | extract_lets | split
                  | dsimp +zetaDelta only)

theorem startWake_same {ps : List Part} {s0 : State} {s : State}
    (hW : Within [.csr, .evt, .rst, .pwr] ps) (hK : SameBut ps s0 s) :
    SameBut ps s0 (startWake s) := by
  have w1 : Within [.csr, .evt] ps := Within.trans (by decide +kernel) hW
  have w2 : Within [.pwr] ps := Within.trans (by decide +kernel) hW
  have w3 : Within [.rst] ps := Within.trans (by decide +kernel) hW
  unfold startWake
  repeat' (first | with_reducible assumption | with_reducible apply bumpOcc_same w1
                  | with_reducible apply setPwr_same w2 | simp only [same_mk_rst w3] | split)

theorem wakeFire_same {ps : List Part} {s0 : State} {s : State} {c : Nat}
    (hW : Within [.csr, .evt, .rst, .pwr] ps) (hK : SameBut ps s0 s) :
    SameBut ps s0 (wakeFire s c) := by
  have w1 : Within [.csr] ps := Within.trans (by decide +kernel) hW
  have w2 : Within [.csr, .evt] ps := Within.trans (by decide +kernel) hW
  have w3 : Within [.pwr] ps := Within.trans (by decide +kernel) hW
  unfold wakeFire
  repeat' (first | with_reducible assumption | with_reducible apply wr_same w1 | with_reducible apply raise_same w2
                  | with_reducible apply setPwr_same w3 | with_reducible apply startWake_same hW | extract_lets
                  | split)

theorem execWakePinAccept_same {ps : List Part} {s0 : State} {high : Bool} {s : State}
    (hW : Within [.csr, .evt, .rst, .pwr] ps) (hK : SameBut ps s0 s) :
    OutSame ps s0 (execWakePinAccept high s) := by
  have w1 : Within [.pwr] ps := Within.trans (by decide +kernel) hW
  unfold execWakePinAccept
  repeat' (first | with_reducible assumption | with_reducible apply setPwr_same w1
                  | with_reducible apply wakeFire_same hW | with_reducible apply outSame_next | extract_lets | split)

theorem execSmbusAddressMatch_same {ps : List Part} {s0 : State} {addr : BitVec 7} {s : State}
    (hW : Within [.csr, .evt, .rst, .pwr] ps) (hK : SameBut ps s0 s) :
    OutSame ps s0 (execSmbusAddressMatch addr s) := by
  unfold execSmbusAddressMatch
  repeat' (first | with_reducible assumption | with_reducible apply wakeFire_same hW
                  | with_reducible apply outSame_next | split)

theorem execRalineActivity_same {ps : List Part} {s0 : State} {s : State}
    (hW : Within [.csr, .evt, .rst, .pwr] ps) (hK : SameBut ps s0 s) :
    OutSame ps s0 (execRalineActivity s) := by
  unfold execRalineActivity
  repeat' (first | with_reducible assumption | with_reducible apply wakeFire_same hW
                  | with_reducible apply outSame_next | split)

theorem execWatchWake_same {ps : List Part} {s0 : State} {source : Nat} {s : State}
    (hW : Within [.csr, .evt, .rst, .pwr] ps) (hK : SameBut ps s0 s) :
    OutSame ps s0 (execWatchWake source s) := by
  unfold execWatchWake
  repeat' (first | with_reducible assumption | with_reducible apply wakeFire_same hW
                  | with_reducible apply outSame_next | split)

theorem linksBack_same {ps : List Part} {s0 : State} {s : State}
    (hW : Within [.csr, .evt, .links, .fabc] ps) (hK : SameBut ps s0 s) :
    SameBut ps s0 (linksBack s) := by
  unfold linksBack
  repeat' (first | with_reducible assumption | with_reducible apply linkEnableEff_same hW
                  | (with_reducible apply same_foldl; (try intros)) | extract_lets | split)

theorem quadsBack_same {ps : List Part} {s0 : State} {s : State}
    (hW : Within [.pwr] ps) (hK : SameBut ps s0 s) :
    SameBut ps s0 (quadsBack s) := by
  unfold quadsBack
  repeat' (first | with_reducible assumption | with_reducible apply setPwr_same hW | extract_lets | split)

theorem wakeEnd_same {ps : List Part} {s0 : State} {s : State} {from_ : Nat}
    (hW : Within [.csr, .quiet, .evt, .pwr, .links, .fabc] ps) (hK : SameBut ps s0 s) :
    SameBut ps s0 (wakeEnd s from_) := by
  have w1 : Within [.csr, .evt] ps := Within.trans (by decide +kernel) hW
  have w2 : Within [.quiet] ps := Within.trans (by decide +kernel) hW
  have w3 : Within [.pwr] ps := Within.trans (by decide +kernel) hW
  have w4 : Within [.csr, .evt, .links, .fabc] ps := Within.trans (by decide +kernel) hW
  unfold wakeEnd
  repeat' (first | with_reducible assumption | with_reducible apply raise_same w1
                  | with_reducible apply trimQuiet_same w2 | with_reducible apply setPwr_same w3
                  | with_reducible apply linksBack_same w4 | with_reducible apply quadsBack_same w3 | extract_lets
                  | split)

theorem execWakeDone_same {ps : List Part} {s0 : State} {s : State}
    (hW : Within [.csr, .quiet, .evt, .pwr, .links, .fabc] ps) (hK : SameBut ps s0 s) :
    OutSame ps s0 (execWakeDone s) := by
  unfold execWakeDone
  repeat' (first | with_reducible assumption | with_reducible apply wakeEnd_same hW
                  | with_reducible apply outSame_next | split)

theorem execDomainWake_same {ps : List Part} {s0 : State} {d : Fin 41} {s : State}
    (hW : Within [.csr, .evt, .rst, .pwr] ps) (hK : SameBut ps s0 s) :
    OutSame ps s0 (execDomainWake d s) := by
  have w1 : Within [.csr, .evt] ps := Within.trans (by decide +kernel) hW
  have w2 : Within [.pwr] ps := Within.trans (by decide +kernel) hW
  unfold execDomainWake
  repeat' (first | with_reducible assumption | with_reducible apply bumpOcc_same w1
                  | with_reducible apply setPwr_same w2 | with_reducible apply wakeFire_same hW
                  | with_reducible apply outSame_next | extract_lets | split)

theorem execDomainReady_same {ps : List Part} {s0 : State} {d : Fin 41} {s : State}
    (hW : Within [.csr, .pwr, .stks] ps) (hK : SameBut ps s0 s) :
    OutSame ps s0 (execDomainReady d s) := by
  have w1 : Within [.csr, .stks] ps := Within.trans (by decide +kernel) hW
  have w2 : Within [.pwr] ps := Within.trans (by decide +kernel) hW
  unfold execDomainReady
  repeat' (first | with_reducible assumption | with_reducible apply stkWake_same w1
                  | with_reducible apply setPwr_same w2 | with_reducible apply outSame_next | extract_lets | split)

theorem openStatus_same {ps : List Part} {s0 : State} {s : State}
    (hW : Within [.freeCtr] ps) (hK : SameBut ps s0 s) :
    SameBut ps s0 (openStatus s).2 := by
  unfold openStatus
  repeat' (first | with_reducible assumption | with_reducible apply fresh_same hW)

theorem enterState_same {ps : List Part} {s0 : State} {s : State} {c : HCmd} {t : Nat}
    (hW : Within [.freeCtr, .csr, .evt, .rst, .pwr, .hlk] ps) (hK : SameBut ps s0 s) :
    SameBut ps s0 (enterState s c t) := by
  have w1 : Within [.csr, .evt] ps := Within.trans (by decide +kernel) hW
  have w2 : Within [.hlk] ps := Within.trans (by decide +kernel) hW
  have w3 : Within [.pwr] ps := Within.trans (by decide +kernel) hW
  have w4 : Within [.csr, .evt, .rst, .pwr] ps := Within.trans (by decide +kernel) hW
  have w5 : Within [.freeCtr] ps := Within.trans (by decide +kernel) hW
  unfold enterState
  repeat' (first | with_reducible assumption | with_reducible apply raise_same w1
                  | with_reducible apply putCmdH_same w2 | with_reducible apply setCmdPart_same w2
                  | with_reducible apply setPwr_same w3 | with_reducible apply wakeFire_same w4
                  | with_reducible apply openStatus_same w5 | extract_lets | split)

theorem execPowerEnter_same {ps : List Part} {s0 : State} {q : Fin 256} {cid : BitVec 16} {s : State}
    (hW : Within [.freeCtr, .csr, .evt, .rst, .pwr, .hlk] ps) (hK : SameBut ps s0 s) :
    OutSame ps s0 (execPowerEnter q cid s) := by
  unfold execPowerEnter
  repeat' (first | with_reducible assumption | with_reducible apply enterState_same hW
                  | with_reducible apply outSame_next | split)

theorem execPowerQuery_same {ps : List Part} {s0 : State} {q : Fin 256} {cid : BitVec 16} {s : State}
    (hW : Within [.hlk] ps) (hK : SameBut ps s0 s) :
    OutSame ps s0 (execPowerQuery q cid s) := by
  unfold execPowerQuery
  repeat' (first | with_reducible assumption | with_reducible apply putCmdH_same hW
                  | with_reducible apply outSame_next | split)

theorem entryReply_same {ps : List Part} {s0 : State} {s : State} {e : Entry} {st : Nat}
    (hW : Within [.hlk] ps) (hK : SameBut ps s0 s) :
    SameBut ps s0 (entryReply s e st) := by
  unfold entryReply
  repeat' (first | with_reducible assumption | with_reducible apply putCmdH_same hW | split)

theorem execEntryQuiesced_same {ps : List Part} {s0 : State} {s : State}
    (hW : Within [.pwr, .hlk] ps) (hK : SameBut ps s0 s) :
    OutSame ps s0 (execEntryQuiesced s) := by
  have w1 : Within [.pwr] ps := Within.trans (by decide +kernel) hW
  have w2 : Within [.hlk] ps := Within.trans (by decide +kernel) hW
  unfold execEntryQuiesced
  repeat' (first | with_reducible assumption | with_reducible apply setPwr_same w1
                  | with_reducible apply entryReply_same w2 | with_reducible apply outSame_next | extract_lets
                  | split)

theorem linkSleep_same {ps : List Part} {s0 : State} {s : State} {l : Nat}
    (hW : Within [.csr, .links, .fabc] ps) (hK : SameBut ps s0 s) :
    SameBut ps s0 (linkSleep s l) := by
  have w1 : Within [.csr] ps := Within.trans (by decide +kernel) hW
  have w2 : Within [.links] ps := Within.trans (by decide +kernel) hW
  have w3 : Within [.fabc] ps := Within.trans (by decide +kernel) hW
  unfold linkSleep
  repeat' (first | with_reducible assumption | with_reducible apply setFlag_same w1
                  | with_reducible apply setLink_same w2 | with_reducible apply hostSuspend_same w1
                  | simp only [same_mk_fabc w3] | split)

theorem clockStop_same {ps : List Part} {s0 : State} {s : State} {e : Entry}
    (hW : Within [.stamp, .csr, .shadow, .heldLow, .latchHigh, .quiet, .heldWrites, .evt, .rst, .pwr, .cores, .coreHeld, .triggers, .ephResults, .answers, .stks, .fast, .deep, .fastMark, .deepMark, .pages, .pageCache, .holders, .frameMap, .blocks, .frameCur, .blockCur, .slots, .migq, .sweep, .stalled, .stallFail, .plcCh, .plans, .plcFits, .plcRestoring, .nbus, .rowsInFlight, .rowAnswers, .dcache, .outbox, .rlys, .med, .links, .fabc, .hlk, .harts, .boot, .commit_] ps) (hK : SameBut ps s0 s) :
    SameBut ps s0 (clockStop s e) := by
  have w1 : Within [.csr, .stks] ps := Within.trans (by decide +kernel) hW
  have w2 : Within [.pwr] ps := Within.trans (by decide +kernel) hW
  have w3 : Within [.csr, .evt, .rst, .pwr] ps := Within.trans (by decide +kernel) hW
  have w4 : Within [.csr, .links, .fabc] ps := Within.trans (by decide +kernel) hW
  unfold clockStop
  repeat' (first | with_reducible assumption | with_reducible apply stkSelfRefresh_same w1
                  | with_reducible apply enterReach_same hW | with_reducible apply setPwr_same w2
                  | with_reducible apply startWake_same w3 | with_reducible apply linkSleep_same w4
                  | (with_reducible apply same_foldl; (try intros)) | extract_lets | split)

theorem execEntryClockStop_same {ps : List Part} {s0 : State} {s : State}
    (hW : Within [.stamp, .csr, .shadow, .heldLow, .latchHigh, .quiet, .heldWrites, .evt, .rst, .pwr, .cores, .coreHeld, .triggers, .ephResults, .answers, .stks, .fast, .deep, .fastMark, .deepMark, .pages, .pageCache, .holders, .frameMap, .blocks, .frameCur, .blockCur, .slots, .migq, .sweep, .stalled, .stallFail, .plcCh, .plans, .plcFits, .plcRestoring, .nbus, .rowsInFlight, .rowAnswers, .dcache, .outbox, .rlys, .med, .links, .fabc, .hlk, .harts, .boot, .commit_] ps) (hK : SameBut ps s0 s) :
    OutSame ps s0 (execEntryClockStop s) := by
  unfold execEntryClockStop
  repeat' (first | with_reducible assumption | with_reducible apply clockStop_same hW
                  | with_reducible apply outSame_next | split)

theorem execEntryAbandoned_same {ps : List Part} {s0 : State} {s : State}
    (hW : Within [.stamp, .csr, .shadow, .heldLow, .latchHigh, .quiet, .heldWrites, .evt, .rst, .pwr, .cores, .coreHeld, .triggers, .ephResults, .answers, .stks, .fast, .deep, .fastMark, .deepMark, .pages, .pageCache, .holders, .frameMap, .blocks, .frameCur, .blockCur, .slots, .migq, .sweep, .stalled, .stallFail, .plcCh, .plans, .plcFits, .plcRestoring, .nbus, .rowsInFlight, .rowAnswers, .dcache, .outbox, .rlys, .med, .links, .fabc, .hlk, .harts, .boot, .commit_] ps) (hK : SameBut ps s0 s) :
    OutSame ps s0 (execEntryAbandoned s) := by
  have w1 : Within [.csr, .evt] ps := Within.trans (by decide +kernel) hW
  have w2 : Within [.quiet] ps := Within.trans (by decide +kernel) hW
  have w3 : Within [.pwr] ps := Within.trans (by decide +kernel) hW
  have w4 : Within [.hlk] ps := Within.trans (by decide +kernel) hW
  unfold execEntryAbandoned
  repeat' (first | with_reducible assumption | with_reducible apply raise_same w1
                  | with_reducible apply trimQuiet_same w2 | with_reducible apply setPwr_same w3
                  | with_reducible apply entryReply_same w4 | with_reducible apply clockStop_same hW
                  | with_reducible apply outSame_next | extract_lets | split)

theorem railsGone_same {ps : List Part} {s0 : State} {s : State}
    (hW : Within [.freeCtr, .stamp, .csr, .shadow, .heldLow, .latchHigh, .quiet, .heldWrites, .evt, .rst, .pwr, .cores, .coreHeld, .triggers, .ephResults, .answers, .stks, .fast, .deep, .fastMark, .deepMark, .pages, .pageCache, .holders, .frameMap, .blocks, .frameCur, .blockCur, .slots, .migq, .sweep, .stalled, .stallFail, .plcCh, .plans, .plcFits, .plcRestoring, .nbus, .rowsInFlight, .rowAnswers, .dcache, .outbox, .rlys, .med, .links, .fabc, .hlk, .harts, .boot, .commit_] ps) (hK : SameBut ps s0 s) :
    SameBut ps s0 (railsGone s) := by
  have w1 : Within [.rst] ps := Within.trans (by decide +kernel) hW
  unfold railsGone
  repeat' (first | with_reducible assumption | with_reducible apply assertSrc_same hW | simp only [same_mk_rst w1]
                  | split)

theorem execOffWake_same {ps : List Part} {s0 : State} {s : State}
    (hW : Within [.freeCtr, .stamp, .csr, .shadow, .heldLow, .latchHigh, .quiet, .heldWrites, .evt, .rst, .pwr, .cores, .coreHeld, .triggers, .ephResults, .answers, .stks, .fast, .deep, .fastMark, .deepMark, .pages, .pageCache, .holders, .frameMap, .blocks, .frameCur, .blockCur, .slots, .migq, .sweep, .stalled, .stallFail, .plcCh, .plans, .plcFits, .plcRestoring, .nbus, .rowsInFlight, .rowAnswers, .dcache, .outbox, .rlys, .med, .links, .fabc, .hlk, .harts, .boot, .commit_] ps) (hK : SameBut ps s0 s) :
    OutSame ps s0 (execOffWake s) := by
  have w1 : Within [.pwr] ps := Within.trans (by decide +kernel) hW
  unfold execOffWake
  repeat' (first | with_reducible assumption | with_reducible apply setPwr_same w1
                  | with_reducible apply railsGone_same hW | with_reducible apply outSame_next | extract_lets
                  | split)

theorem execThermalShutdown_same {ps : List Part} {s0 : State} {s : State}
    (hW : Within [.csr, .pwr] ps) (hK : SameBut ps s0 s) :
    OutSame ps s0 (execThermalShutdown s) := by
  have w1 : Within [.csr] ps := Within.trans (by decide +kernel) hW
  have w2 : Within [.pwr] ps := Within.trans (by decide +kernel) hW
  unfold execThermalShutdown
  repeat' (first | with_reducible assumption | with_reducible apply setFlag_same w1
                  | with_reducible apply setPwr_same w2 | with_reducible apply outSame_next | extract_lets | split)

theorem execRailEnRelease_same {ps : List Part} {s0 : State} {s : State}
    (hW : Within [.freeCtr, .stamp, .csr, .shadow, .heldLow, .latchHigh, .quiet, .heldWrites, .evt, .rst, .pwr, .cores, .coreHeld, .triggers, .ephResults, .answers, .stks, .fast, .deep, .fastMark, .deepMark, .pages, .pageCache, .holders, .frameMap, .blocks, .frameCur, .blockCur, .slots, .migq, .sweep, .stalled, .stallFail, .plcCh, .plans, .plcFits, .plcRestoring, .nbus, .rowsInFlight, .rowAnswers, .dcache, .outbox, .rlys, .med, .links, .fabc, .hlk, .harts, .boot, .commit_] ps) (hK : SameBut ps s0 s) :
    OutSame ps s0 (execRailEnRelease s) := by
  have w1 : Within [.pwr] ps := Within.trans (by decide +kernel) hW
  unfold execRailEnRelease
  repeat' (first | with_reducible assumption | with_reducible apply setPwr_same w1
                  | with_reducible apply railsGone_same hW | with_reducible apply outSame_next | extract_lets
                  | split)

theorem execVstbyLoss_same {ps : List Part} {s0 : State} {s : State}
    (hW : Within [.freeCtr, .stamp, .csr, .shadow, .heldLow, .latchHigh, .quiet, .heldWrites, .evt, .rst, .pwr, .cores, .coreHeld, .triggers, .ephResults, .answers, .stks, .fast, .deep, .fastMark, .deepMark, .pages, .pageCache, .holders, .frameMap, .blocks, .frameCur, .blockCur, .slots, .migq, .sweep, .stalled, .stallFail, .plcCh, .plans, .plcFits, .plcRestoring, .nbus, .rowsInFlight, .rowAnswers, .dcache, .outbox, .rlys, .med, .links, .fabc, .hlk, .harts, .boot, .commit_] ps) (hK : SameBut ps s0 s) :
    OutSame ps s0 (execVstbyLoss s) := by
  have w1 : Within [.csr] ps := Within.trans (by decide +kernel) hW
  have w2 : Within [.pwr] ps := Within.trans (by decide +kernel) hW
  unfold execVstbyLoss
  repeat' (first | with_reducible assumption | with_reducible apply wr_same w1 | with_reducible apply setPwr_same w2
                  | with_reducible apply railsGone_same hW | with_reducible apply outSame_next)

theorem execSmbusBlockRead_same {ps : List Part} {s0 : State} {code : Byte} {s : State}
    (hW : Within [.pwr] ps) (hK : SameBut ps s0 s) :
    OutSame ps s0 (execSmbusBlockRead code s) := by
  unfold execSmbusBlockRead
  repeat' (first | with_reducible assumption | with_reducible apply setPwr_same hW
                  | with_reducible apply outSame_next | extract_lets | split)

end Sys2Proof.Machine
end

