-- ==== Sys2Proof/Laws/FramePlate.lean ====
section
/-! SUPPORT. What the functions of Machine/Plate.lean leave unchanged (see Laws/Frame.lean). -/

set_option Elab.async false -- many small kernel checks: one thread does them
set_option linter.unusedSimpArgs false
set_option simprocs false -- no numeral of a goal is evaluated in these proofs

namespace Sys2Proof.Machine

theorem quiesceReqEff_same {ps : List Part} {s0 : State} {s : State} {v : Nat}
    (hW : Within [.csr, .quiet] ps) (hK : SameBut ps s0 s) :
    SameBut ps s0 (quiesceReqEff s v) := by
  have w1 : Within [.csr] ps := Within.trans (by decide +kernel) hW
  have w2 : Within [.quiet] ps := Within.trans (by decide +kernel) hW
  unfold quiesceReqEff
  repeat' (first | with_reducible assumption | with_reducible apply wr_same w1
                  | with_reducible apply trimQuiet_same w2)

theorem execBlockQuiesced_same {ps : List Part} {s0 : State} {b : Fin 45} {s : State}
    (hW : Within [.quiet] ps) (hK : SameBut ps s0 s) :
    OutSame ps s0 (execBlockQuiesced b s) := by
  unfold execBlockQuiesced
  repeat' (first | with_reducible assumption | with_reducible apply outSame_next | simp only [same_mk_quiet hW]
                  | split)

theorem execQuiesceTimeout_same {ps : List Part} {s0 : State} {s : State}
    (hW : Within [.csr, .evt] ps) (hK : SameBut ps s0 s) :
    OutSame ps s0 (execQuiesceTimeout s) := by
  have w1 : Within [.csr] ps := Within.trans (by decide +kernel) hW
  unfold execQuiesceTimeout
  repeat' (first | with_reducible assumption | with_reducible apply setFlag_same w1
                  | with_reducible apply raise_same hW | with_reducible apply outSame_next | extract_lets | split)

theorem commitGoEff_same {ps : List Part} {s0 : State} {s : State} {ini : Initiator}
    (hW : Within [.csr, .evt, .commit_] ps) (hK : SameBut ps s0 s) :
    SameBut ps s0 (commitGoEff s ini) := by
  have w1 : Within [.csr] ps := Within.trans (by decide +kernel) hW
  have w2 : Within [.csr, .evt] ps := Within.trans (by decide +kernel) hW
  have w3 : Within [.commit_] ps := Within.trans (by decide +kernel) hW
  unfold commitGoEff
  repeat' (first | with_reducible assumption | with_reducible apply wr_same w1
                  | with_reducible apply setFlag_same w1 | with_reducible apply raise_same w2
                  | with_reducible apply violation_same w2 | simp only [same_mk_commit w3] | split)

theorem commitReg_same {ps : List Part} {s0 : State} {mask : Nat} {s : State} {a : Nat}
    (hW : Within [.csr] ps) (hK : SameBut ps s0 s) :
    SameBut ps s0 (commitReg mask s a) := by
  unfold commitReg
  repeat' (first | with_reducible assumption | with_reducible apply wr_same hW | extract_lets | split)

theorem commitUnits_same {ps : List Part} {s0 : State} {mask : Nat} {was : State} {s : State}
    (hW : Within [.freeCtr, .csr, .evt, .pwr, .answers, .stks, .fast, .fastMark, .deepMark, .pages, .pageCache, .frameMap, .blocks, .slots, .migq, .stalled, .stallFail, .plcCh, .plans, .plcFits, .links, .fabc, .hlk] ps) (hK : SameBut ps s0 was) (hK1 : SameBut ps s0 s) :
    SameBut ps s0 (commitUnits mask was s) := by
  have w1 : Within [.csr, .evt, .links, .fabc] ps := Within.trans (by decide +kernel) hW
  have w2 : Within [.freeCtr, .csr, .evt, .answers, .stks, .fast, .fastMark, .deepMark, .pages, .pageCache, .frameMap, .blocks, .slots, .migq, .stalled, .stallFail, .plcCh, .plans, .links, .hlk] ps := Within.trans (by decide +kernel) hW
  have w3 : Within [.pwr] ps := Within.trans (by decide +kernel) hW
  have w4 : Within [.plcFits] ps := Within.trans (by decide +kernel) hW
  unfold commitUnits
  repeat' (first | with_reducible assumption | with_reducible apply portCommit_same w1
                  | with_reducible apply bpCommit_same w2 | with_reducible apply oppStart_same w3
                  | simp only [same_mk_plcFits w4] | (with_reducible apply same_foldl; (try intros)) | extract_lets
                  | split)

theorem commitDo_same {ps : List Part} {s0 : State} {s : State} {mask : Nat}
    (hW : Within [.freeCtr, .csr, .quiet, .evt, .pwr, .answers, .stks, .fast, .fastMark, .deepMark, .pages, .pageCache, .frameMap, .blocks, .slots, .migq, .stalled, .stallFail, .plcCh, .plans, .plcFits, .links, .fabc, .hlk, .commit_] ps) (hK : SameBut ps s0 s) :
    SameBut ps s0 (commitDo s mask) := by
  have w1 : Within [.csr] ps := Within.trans (by decide +kernel) hW
  have w2 : Within [.quiet] ps := Within.trans (by decide +kernel) hW
  have w3 : Within [.freeCtr, .csr, .evt, .pwr, .answers, .stks, .fast, .fastMark, .deepMark, .pages, .pageCache, .frameMap, .blocks, .slots, .migq, .stalled, .stallFail, .plcCh, .plans, .plcFits, .links, .fabc, .hlk] ps := Within.trans (by decide +kernel) hW
  have w4 : Within [.commit_] ps := Within.trans (by decide +kernel) hW
  unfold commitDo
  repeat' (first | with_reducible assumption | with_reducible apply wr_same w1
                  | with_reducible apply setFlag_same w1 | with_reducible apply trimQuiet_same w2
                  | with_reducible apply commitReg_same w1 | with_reducible apply commitUnits_same w3
                  | simp only [same_mk_commit w4] | (with_reducible apply same_foldl; (try intros)))

theorem publishEff_same {ps : List Part} {s0 : State} {s : State}
    (hW : Within [.csr, .evt] ps) (hK : SameBut ps s0 s) :
    SameBut ps s0 (publishEff s) := by
  have w1 : Within [.csr] ps := Within.trans (by decide +kernel) hW
  unfold publishEff
  repeat' (first | with_reducible assumption | with_reducible apply setFlag_same w1
                  | with_reducible apply raise_same hW)

theorem plateClearEff_same {ps : List Part} {s0 : State} {s : State} {ini : Initiator}
    (hW : Within [.csr, .evt] ps) (hK : SameBut ps s0 s) :
    SameBut ps s0 (plateClearEff s ini) := by
  have w1 : Within [.csr] ps := Within.trans (by decide +kernel) hW
  unfold plateClearEff
  repeat' (first | with_reducible assumption | with_reducible apply setFlag_same w1
                  | with_reducible apply violation_same hW | split)

theorem plateAckEff_same {ps : List Part} {s0 : State} {s : State} {ini : Initiator} {v : Nat}
    (hW : Within [.csr, .evt] ps) (hK : SameBut ps s0 s) :
    SameBut ps s0 (plateAckEff s ini v) := by
  have w1 : Within [.csr] ps := Within.trans (by decide +kernel) hW
  unfold plateAckEff
  repeat' (first | with_reducible assumption | with_reducible apply setFlag_same w1
                  | with_reducible apply raise_same hW | with_reducible apply violation_same hW | split)

theorem clearPage_same {ps : List Part} {s0 : State} {s : State} {p : Nat}
    (hW : Within [.freeCtr, .csr, .evt, .answers, .stks, .fast, .fastMark, .deepMark, .pages, .pageCache, .frameMap, .blocks, .slots, .migq, .stalled, .stallFail, .plcCh, .plans] ps) (hK : SameBut ps s0 s) :
    SameBut ps s0 (clearPage s p).1 := by
  unfold clearPage
  repeat' (first | with_reducible assumption | with_reducible apply ltaWrite_same hW)

theorem clearPages_same {ps : List Part} {s0 : State} {e0 : List Nat} {e1 : State} {e2 : List Nat}
    (hW : Within [.freeCtr, .csr, .evt, .answers, .stks, .fast, .fastMark, .deepMark, .pages, .pageCache, .frameMap, .blocks, .slots, .migq, .stalled, .stallFail, .plcCh, .plans] ps) (hK : SameBut ps s0 e1) :
    SameBut ps s0 (clearPages e0 e1 e2).1 := by
  revert hK
  fun_induction clearPages e0 e1 e2 <;> intro hK
  all_goals (repeat' (first | with_reducible assumption | with_reducible apply clearPage_same hW
                             | with_reducible refine same_fst (by assumption) ?_))
  all_goals (try (apply_assumption; repeat' (first | with_reducible assumption | with_reducible apply clearPage_same hW
                                                     | with_reducible refine same_fst (by assumption) ?_)))

theorem execPlateClearDone_same {ps : List Part} {s0 : State} {s : State}
    (hW : Within [.freeCtr, .csr, .evt, .answers, .stks, .fast, .fastMark, .deepMark, .pages, .pageCache, .frameMap, .blocks, .slots, .migq, .stalled, .stallFail, .plcCh, .plans] ps) (hK : SameBut ps s0 s) :
    OutSame ps s0 (execPlateClearDone s) := by
  have w1 : Within [.csr] ps := Within.trans (by decide +kernel) hW
  have w2 : Within [.csr, .evt] ps := Within.trans (by decide +kernel) hW
  unfold execPlateClearDone
  repeat' (first | with_reducible assumption | with_reducible apply setFld_same w1
                  | with_reducible apply setFlag_same w1 | with_reducible apply raise_same w2
                  | with_reducible apply clearPages_same hW | with_reducible apply outSame_next
                  | with_reducible refine same_fst (by assumption) ?_ | split)

end Sys2Proof.Machine
end

