-- ==== Sys2Proof/Laws/FrameView.lean ====
section
/-! SUPPORT. What the functions of Machine/View.lean leave unchanged (see Laws/Frame.lean). -/

set_option Elab.async false -- many small kernel checks: one thread does them
set_option linter.unusedSimpArgs false
set_option simprocs false -- no numeral of a goal is evaluated in these proofs

namespace Sys2Proof.Machine

theorem readClear_same {ps : List Part} {s0 : State} {s : State} {r : RegAt} {left : Nat}
    (hW : Within [.csr] ps) (hK : SameBut ps s0 s) :
    SameBut ps s0 (readClear s r left) := by
  unfold readClear
  repeat' (first | with_reducible assumption | with_reducible apply wr_same hW | split)

end Sys2Proof.Machine
end

