-- ==== Sys2Proof/Laws/FrameBoot.lean ====
section
/-! SUPPORT. What the functions of Machine/Boot.lean leave unchanged (see Laws/Frame.lean). -/

set_option Elab.async false -- many small kernel checks: one thread does them
set_option linter.unusedSimpArgs false
set_option simprocs false -- no numeral of a goal is evaluated in these proofs

namespace Sys2Proof.Machine

theorem setPhase_same {ps : List Part} {s0 : State} {s : State} {p : Nat}
    (hW : Within [.csr] ps) (hK : SameBut ps s0 s) :
    SameBut ps s0 (setPhase s p) := by
  unfold setPhase
  repeat' (first | with_reducible assumption | with_reducible apply setFld_same hW)

theorem setBoot_same {ps : List Part} {s0 : State} {s : State} {b : Boot}
    (hW : Within [.boot] ps) (hK : SameBut ps s0 s) :
    SameBut ps s0 (setBoot s b) := by
  unfold setBoot
  repeat' (first | with_reducible assumption | simp only [same_mk_boot hW])

theorem startSect_same {ps : List Part} {s0 : State} {s : State} {x : Sect}
    (hW : Within [.csr, .harts] ps) (hK : SameBut ps s0 s) :
    SameBut ps s0 (startSect s x) := by
  have w1 : Within [.csr] ps := Within.trans (by decide +kernel) hW
  have w2 : Within [.harts] ps := Within.trans (by decide +kernel) hW
  unfold startSect
  repeat' (first | with_reducible assumption | with_reducible apply wr_same w1
                  | with_reducible apply setHart_same w2 | with_reducible apply runEff_same w2 | extract_lets
                  | split)

theorem startFirmware_same {ps : List Part} {s0 : State} {s : State} {r : Rom}
    (hW : Within [.csr, .evt, .harts, .boot] ps) (hK : SameBut ps s0 s) :
    SameBut ps s0 (startFirmware s r) := by
  have w1 : Within [.csr] ps := Within.trans (by decide +kernel) hW
  have w2 : Within [.csr, .evt] ps := Within.trans (by decide +kernel) hW
  have w3 : Within [.harts] ps := Within.trans (by decide +kernel) hW
  have w4 : Within [.boot] ps := Within.trans (by decide +kernel) hW
  have w5 : Within [.csr, .harts] ps := Within.trans (by decide +kernel) hW
  unfold startFirmware
  repeat' (first | with_reducible assumption | with_reducible apply setFld_same w1
                  | with_reducible apply raise_same w2 | with_reducible apply setHart_same w3
                  | with_reducible apply setPhase_same w1 | with_reducible apply setBoot_same w4
                  | with_reducible apply startSect_same w5 | (with_reducible apply same_foldl; (try intros))
                  | extract_lets | split)

theorem modeOvrEff_same {ps : List Part} {s0 : State} {s : State} {ini : Initiator} {m : Nat}
    (hW : Within [.csr, .evt, .boot] ps) (hK : SameBut ps s0 s) :
    SameBut ps s0 (modeOvrEff s ini m) := by
  have w1 : Within [.csr] ps := Within.trans (by decide +kernel) hW
  have w2 : Within [.csr, .evt] ps := Within.trans (by decide +kernel) hW
  have w3 : Within [.boot] ps := Within.trans (by decide +kernel) hW
  unfold modeOvrEff
  repeat' (first | with_reducible assumption | with_reducible apply setFld_same w1
                  | with_reducible apply violation_same w2 | with_reducible apply setPhase_same w1
                  | with_reducible apply setBoot_same w3 | extract_lets | split)

theorem confirmEff_same {ps : List Part} {s0 : State} {s : State}
    (hW : Within [.csr] ps) (hK : SameBut ps s0 s) :
    SameBut ps s0 (confirmEff s) := by
  unfold confirmEff
  repeat' (first | with_reducible assumption | with_reducible apply setFld_same hW | split)

theorem releaseEff_same {ps : List Part} {s0 : State} {s : State}
    (hW : Within [.csr, .evt, .harts, .boot] ps) (hK : SameBut ps s0 s) :
    SameBut ps s0 (releaseEff s) := by
  unfold releaseEff
  repeat' (first | with_reducible assumption | with_reducible apply startFirmware_same hW | split)

theorem hostDataEff_same {ps : List Part} {s0 : State} {s : State} {ini : Initiator} {v : Nat}
    (hW : Within [.csr, .evt, .boot] ps) (hK : SameBut ps s0 s) :
    SameBut ps s0 (hostDataEff s ini v) := by
  have w1 : Within [.csr, .evt] ps := Within.trans (by decide +kernel) hW
  have w2 : Within [.boot] ps := Within.trans (by decide +kernel) hW
  unfold hostDataEff
  repeat' (first | with_reducible assumption | with_reducible apply violation_same w1
                  | with_reducible apply setBoot_same w2 | extract_lets | split)

theorem flCmdEff_same {ps : List Part} {s0 : State} {s : State} {ini : Initiator} {op : Nat} {id : Bytes}
    (hW : Within [.csr, .evt, .boot] ps) (hK : SameBut ps s0 s) :
    SameBut ps s0 (flCmdEff s ini op id) := by
  have w1 : Within [.csr, .evt] ps := Within.trans (by decide +kernel) hW
  have w2 : Within [.boot] ps := Within.trans (by decide +kernel) hW
  unfold flCmdEff
  repeat' (first | with_reducible assumption | with_reducible apply violation_same w1
                  | with_reducible apply setBoot_same w2 | extract_lets | split)

theorem flBufPut_same {ps : List Part} {s0 : State} {s : State} {bs : Bytes}
    (hW : Within [.csr] ps) (hK : SameBut ps s0 s) :
    SameBut ps s0 (flBufPut s bs) := by
  unfold flBufPut
  repeat' (first | with_reducible assumption | with_reducible apply wr_same hW
                  | (with_reducible apply same_foldl; (try intros)))

theorem flashDo_same {ps : List Part} {s0 : State} {s : State} {op : Nat} {a : Nat} {n : Nat}
    (hW : Within [.csr, .boot] ps) (hK : SameBut ps s0 s) :
    SameBut ps s0 (flashDo s op a n).1 := by
  have w1 : Within [.boot] ps := Within.trans (by decide +kernel) hW
  have w2 : Within [.csr] ps := Within.trans (by decide +kernel) hW
  unfold flashDo
  repeat' (first | with_reducible assumption | with_reducible apply setBoot_same w1
                  | with_reducible apply flBufPut_same w2 | extract_lets | split)

theorem execFlashDone_same {ps : List Part} {s0 : State} {s : State}
    (hW : Within [.csr, .evt, .boot] ps) (hK : SameBut ps s0 s) :
    OutSame ps s0 (execFlashDone s) := by
  have w1 : Within [.csr] ps := Within.trans (by decide +kernel) hW
  have w2 : Within [.csr, .evt] ps := Within.trans (by decide +kernel) hW
  have w3 : Within [.boot] ps := Within.trans (by decide +kernel) hW
  have w4 : Within [.csr, .boot] ps := Within.trans (by decide +kernel) hW
  unfold execFlashDone
  repeat' (first | with_reducible assumption | with_reducible apply setFld_same w1
                  | with_reducible apply raise_same w2 | with_reducible apply setBoot_same w3
                  | with_reducible apply flashDo_same w4 | with_reducible apply outSame_next | split)

theorem secCmdEff_same {ps : List Part} {s0 : State} {s : State} {ini : Initiator} {op : Nat}
    (hW : Within [.csr, .evt, .boot] ps) (hK : SameBut ps s0 s) :
    SameBut ps s0 (secCmdEff s ini op) := by
  have w1 : Within [.csr, .evt] ps := Within.trans (by decide +kernel) hW
  have w2 : Within [.boot] ps := Within.trans (by decide +kernel) hW
  unfold secCmdEff
  repeat' (first | with_reducible assumption | with_reducible apply violation_same w1
                  | with_reducible apply setBoot_same w2 | extract_lets | split)

theorem extend_same {ps : List Part} {s0 : State} {s : State} {i : Nat} {d : Bytes}
    (hW : Within [.csr] ps) (hK : SameBut ps s0 s) :
    SameBut ps s0 (extend s i d) := by
  unfold extend
  repeat' (first | with_reducible assumption | with_reducible apply wrWords_same hW)

theorem blow_same {ps : List Part} {s0 : State} {s : State} {w : Nat} {v : Nat}
    (hW : Within [.boot] ps) (hK : SameBut ps s0 s) :
    SameBut ps s0 (blow s w v) := by
  unfold blow
  repeat' (first | with_reducible assumption | with_reducible apply setBoot_same hW)

theorem blowWords_same {ps : List Part} {s0 : State} {s : State} {w : Nat} {v : Nat} {e0 : Nat}
    (hW : Within [.boot] ps) (hK : SameBut ps s0 s) :
    SameBut ps s0 (blowWords s w v e0) := by
  revert hK
  fun_induction blowWords s w v e0 <;> intro hK
  all_goals (repeat' (with_reducible assumption))
  all_goals (try (apply_assumption; repeat' (first | with_reducible assumption | with_reducible apply blow_same hW)))

theorem secRead_same {ps : List Part} {s0 : State} {s : State} {k : Nat} {a : Nat} {n : Nat}
    {f : State → Bytes → State × Option Nat}
    (hW : Within [.freeCtr, .csr, .evt, .answers, .stks, .fast, .fastMark, .deepMark, .pages, .pageCache, .frameMap, .blocks, .slots, .migq, .stalled, .stallFail, .plcCh, .plans] ps) (hK : SameBut ps s0 s) (hf_f : ∀ a0 a1, SameBut ps s0 a0 → SameBut ps s0 (f a0 a1).1) :
    SameBut ps s0 (secRead s k a n f).1 := by
  unfold secRead
  repeat' (first | with_reducible assumption | with_reducible apply hf_f | with_reducible apply ltaRead_same hW
                  | with_reducible refine same_fst (by assumption) ?_ | split)

theorem secHashDo_same {ps : List Part} {s0 : State} {s : State} {a : Nat} {n : Nat}
    (hW : Within [.freeCtr, .csr, .evt, .answers, .stks, .fast, .fastMark, .deepMark, .pages, .pageCache, .frameMap, .blocks, .slots, .migq, .stalled, .stallFail, .plcCh, .plans] ps) (hK : SameBut ps s0 s) :
    SameBut ps s0 (secHashDo s a n).1 := by
  have w1 : Within [.csr] ps := Within.trans (by decide +kernel) hW
  unfold secHashDo
  repeat' (first | with_reducible assumption | with_reducible apply wrWords_same w1
                  | with_reducible apply secRead_same hW | extract_lets | with_reducible intro _)

theorem secVerifyDo_same {ps : List Part} {s0 : State} {s : State} {a : Nat}
    (hW : Within [.freeCtr, .csr, .evt, .answers, .stks, .fast, .fastMark, .deepMark, .pages, .pageCache, .frameMap, .blocks, .slots, .migq, .stalled, .stallFail, .plcCh, .plans] ps) (hK : SameBut ps s0 s) :
    SameBut ps s0 (secVerifyDo s a).1 := by
  have w1 : Within [.csr] ps := Within.trans (by decide +kernel) hW
  unfold secVerifyDo
  repeat' (first | with_reducible assumption | with_reducible apply setFlag_same w1
                  | with_reducible apply secRead_same hW | extract_lets | with_reducible intro _)

theorem secExtendDo_same {ps : List Part} {s0 : State} {s : State} {i : Nat} {a : Nat}
    (hW : Within [.freeCtr, .csr, .evt, .answers, .stks, .fast, .fastMark, .deepMark, .pages, .pageCache, .frameMap, .blocks, .slots, .migq, .stalled, .stallFail, .plcCh, .plans] ps) (hK : SameBut ps s0 s) :
    SameBut ps s0 (secExtendDo s i a).1 := by
  have w1 : Within [.csr] ps := Within.trans (by decide +kernel) hW
  unfold secExtendDo
  repeat' (first | with_reducible assumption | with_reducible apply extend_same w1
                  | with_reducible apply secRead_same hW | extract_lets | split | with_reducible intro _)

theorem secReportDo_same {ps : List Part} {s0 : State} {s : State} {a : Nat} {d : Nat}
    (hW : Within [.freeCtr, .csr, .evt, .answers, .stks, .fast, .fastMark, .deepMark, .pages, .pageCache, .frameMap, .blocks, .slots, .migq, .stalled, .stallFail, .plcCh, .plans] ps) (hK : SameBut ps s0 s) :
    SameBut ps s0 (secReportDo s a d).1 := by
  unfold secReportDo
  repeat' (first | with_reducible assumption | with_reducible apply ltaWrite_same hW
                  | with_reducible apply secRead_same hW | extract_lets | split | with_reducible intro _)

theorem svnSetDo_same {ps : List Part} {s0 : State} {s : State} {v : Nat}
    (hW : Within [.csr, .boot] ps) (hK : SameBut ps s0 s) :
    SameBut ps s0 (svnSetDo s v).1 := by
  have w1 : Within [.csr] ps := Within.trans (by decide +kernel) hW
  have w2 : Within [.boot] ps := Within.trans (by decide +kernel) hW
  unfold svnSetDo
  repeat' (first | with_reducible assumption | with_reducible apply setFld_same w1
                  | with_reducible apply blowWords_same w2 | split)

theorem keyProgramDo_same {ps : List Part} {s0 : State} {s : State} {t : Nat} {a : Nat}
    (hW : Within [.freeCtr, .csr, .evt, .answers, .stks, .fast, .fastMark, .deepMark, .pages, .pageCache, .frameMap, .blocks, .slots, .migq, .stalled, .stallFail, .plcCh, .plans, .boot] ps) (hK : SameBut ps s0 s) :
    SameBut ps s0 (keyProgramDo s t a).1 := by
  have w1 : Within [.csr] ps := Within.trans (by decide +kernel) hW
  have w2 : Within [.boot] ps := Within.trans (by decide +kernel) hW
  have w3 : Within [.freeCtr, .csr, .evt, .answers, .stks, .fast, .fastMark, .deepMark, .pages, .pageCache, .frameMap, .blocks, .slots, .migq, .stalled, .stallFail, .plcCh, .plans] ps := Within.trans (by decide +kernel) hW
  unfold keyProgramDo
  repeat' (first | with_reducible assumption | with_reducible apply setFlag_same w1
                  | with_reducible apply wrWords_same w1 | with_reducible apply blowWords_same w2
                  | with_reducible apply secRead_same w3 | extract_lets | split | with_reducible intro _)

theorem keyRevokeDo_same {ps : List Part} {s0 : State} {s : State} {t : Nat}
    (hW : Within [.csr, .boot] ps) (hK : SameBut ps s0 s) :
    SameBut ps s0 (keyRevokeDo s t).1 := by
  have w1 : Within [.csr] ps := Within.trans (by decide +kernel) hW
  have w2 : Within [.boot] ps := Within.trans (by decide +kernel) hW
  unfold keyRevokeDo
  repeat' (first | with_reducible assumption | with_reducible apply setFlag_same w1
                  | with_reducible apply blow_same w2 | split)

theorem lifecycleDo_same {ps : List Part} {s0 : State} {s : State}
    (hW : Within [.csr, .boot] ps) (hK : SameBut ps s0 s) :
    SameBut ps s0 (lifecycleDo s).1 := by
  have w1 : Within [.csr] ps := Within.trans (by decide +kernel) hW
  have w2 : Within [.boot] ps := Within.trans (by decide +kernel) hW
  unfold lifecycleDo
  repeat' (first | with_reducible assumption | with_reducible apply setFld_same w1
                  | with_reducible apply showKey_same w1 | with_reducible apply blow_same w2 | extract_lets | split)

theorem secDo_same {ps : List Part} {s0 : State} {s : State} {op : Nat} {a : Nat} {b : Nat}
    (hW : Within [.freeCtr, .csr, .evt, .answers, .stks, .fast, .fastMark, .deepMark, .pages, .pageCache, .frameMap, .blocks, .slots, .migq, .stalled, .stallFail, .plcCh, .plans, .boot] ps) (hK : SameBut ps s0 s) :
    SameBut ps s0 (secDo s op a b).1 := by
  have w1 : Within [.freeCtr, .csr, .evt, .answers, .stks, .fast, .fastMark, .deepMark, .pages, .pageCache, .frameMap, .blocks, .slots, .migq, .stalled, .stallFail, .plcCh, .plans] ps := Within.trans (by decide +kernel) hW
  have w2 : Within [.csr, .boot] ps := Within.trans (by decide +kernel) hW
  unfold secDo
  repeat' (first | with_reducible assumption | with_reducible apply secHashDo_same w1
                  | with_reducible apply secVerifyDo_same w1 | with_reducible apply secExtendDo_same w1
                  | with_reducible apply secReportDo_same w1 | with_reducible apply svnSetDo_same w2
                  | with_reducible apply keyProgramDo_same hW | with_reducible apply keyRevokeDo_same w2
                  | with_reducible apply lifecycleDo_same w2 | split)

theorem execSecCmdDone_same {ps : List Part} {s0 : State} {s : State}
    (hW : Within [.freeCtr, .csr, .evt, .answers, .stks, .fast, .fastMark, .deepMark, .pages, .pageCache, .frameMap, .blocks, .slots, .migq, .stalled, .stallFail, .plcCh, .plans, .boot] ps) (hK : SameBut ps s0 s) :
    OutSame ps s0 (execSecCmdDone s) := by
  have w1 : Within [.csr] ps := Within.trans (by decide +kernel) hW
  have w2 : Within [.csr, .evt] ps := Within.trans (by decide +kernel) hW
  have w3 : Within [.boot] ps := Within.trans (by decide +kernel) hW
  unfold execSecCmdDone
  repeat' (first | with_reducible assumption | with_reducible apply setFld_same w1
                  | with_reducible apply raise_same w2 | with_reducible apply setBoot_same w3
                  | with_reducible apply secDo_same hW | with_reducible apply outSame_next
                  | with_reducible refine same_fst (by assumption) ?_ | split)

theorem execHelloProofSign_same {ps : List Part} {s0 : State} {l : Fin 24} {s : State}
    (hW : Within [.links, .fabc] ps) (hK : SameBut ps s0 s) :
    OutSame ps s0 (execHelloProofSign l s) := by
  have w1 : Within [.links] ps := Within.trans (by decide +kernel) hW
  have w2 : Within [.fabc] ps := Within.trans (by decide +kernel) hW
  unfold execHelloProofSign
  repeat' (first | with_reducible assumption | with_reducible apply sendLocal_same w1
                  | with_reducible apply outSame_next | simp only [same_mk_fabc w2] | split)

end Sys2Proof.Machine
end

