-- ==== Sys2Proof/Laws/FrameAccess.lean ====
section
/-! SUPPORT. What the functions of Machine/Access.lean leave unchanged (see Laws/Frame.lean). -/

set_option Elab.async false -- many small kernel checks: one thread does them
set_option linter.unusedSimpArgs false
set_option simprocs false -- no numeral of a goal is evaluated in these proofs

namespace Sys2Proof.Machine

theorem markShadow_same {ps : List Part} {s0 : State} {s : State} {a : Nat}
    (hW : Within [.csr] ps) (hK : SameBut ps s0 s) :
    SameBut ps s0 (markShadow s a) := by
  unfold markShadow
  repeat' (first | with_reducible assumption | with_reducible apply wr_same hW | split)

theorem putField_same {ps : List Part} {s0 : State} {s : State} {ini : Initiator} {a : Nat} {w : Nat} {v : Nat}
    {f : Field}
    (hW : Within [.csr, .shadow, .evt] ps) (hK : SameBut ps s0 s) :
    SameBut ps s0 (putField s ini a w v f) := by
  have w1 : Within [.shadow] ps := Within.trans (by decide +kernel) hW
  have w2 : Within [.csr] ps := Within.trans (by decide +kernel) hW
  have w3 : Within [.csr, .evt] ps := Within.trans (by decide +kernel) hW
  unfold putField
  repeat' (first | with_reducible assumption | with_reducible apply wrShadow_same w1
                  | with_reducible apply setFld_same w2 | with_reducible apply violation_same w3
                  | with_reducible apply markShadow_same w2 | extract_lets | split)

theorem putFields_same {ps : List Part} {s0 : State} {s : State} {ini : Initiator} {r : RegAt} {w : Nat} {v : Nat}
    (hW : Within [.csr, .shadow, .evt] ps) (hK : SameBut ps s0 s) :
    SameBut ps s0 (putFields s ini r w v) := by
  unfold putFields
  repeat' (first | with_reducible assumption | with_reducible apply putField_same hW
                  | (with_reducible apply same_foldl; (try intros)))

theorem turnedAway_same {ps : List Part} {s0 : State} {s : State} {ini : Initiator} {w : Nat}
    (hW : Within [.csr, .evt] ps) (hK : SameBut ps s0 s) :
    SameBut ps s0 (turnedAway s ini w) := by
  unfold turnedAway
  repeat' (first | with_reducible assumption | with_reducible apply violation_same hW)

theorem putLocked_same {ps : List Part} {s0 : State} {s : State} {ini : Initiator} {r : RegAt} {w : Nat} {v : Nat}
    {hi : Nat} {lo : Nat} {locked : Bool}
    (hW : Within [.csr, .shadow, .evt] ps) (hK : SameBut ps s0 s) :
    SameBut ps s0 (putLocked s ini r w v hi lo locked) := by
  have w1 : Within [.csr, .evt] ps := Within.trans (by decide +kernel) hW
  unfold putLocked
  repeat' (first | with_reducible assumption | with_reducible apply putFields_same hW
                  | with_reducible apply turnedAway_same w1 | extract_lets | split)

theorem putUnless_same {ps : List Part} {s0 : State} {s : State} {ini : Initiator} {r : RegAt} {w : Nat} {v : Nat}
    {locked : Bool}
    (hW : Within [.csr, .shadow, .evt] ps) (hK : SameBut ps s0 s) :
    SameBut ps s0 (putUnless s ini r w v locked) := by
  have w1 : Within [.csr, .evt] ps := Within.trans (by decide +kernel) hW
  unfold putUnless
  repeat' (first | with_reducible assumption | with_reducible apply putFields_same hW
                  | with_reducible apply turnedAway_same w1 | split)

theorem whenB_same {ps : List Part} {s0 : State} {c : Bool} {f : State → State} {s : State}
    (hW : Within [] ps) (hK : SameBut ps s0 s) (hf_f : ∀ a0, SameBut ps s0 a0 → SameBut ps s0 (f a0)) :
    SameBut ps s0 (whenB c f s) := by
  unfold whenB
  repeat' (first | with_reducible assumption | with_reducible apply hf_f | split)

theorem putGlb_same {ps : List Part} {s0 : State} {s : State} {ini : Initiator} {r : RegAt} {w : Nat} {v : Nat}
    (hW : Within [.csr, .shadow, .quiet, .evt, .commit_] ps) (hK : SameBut ps s0 s) :
    SameBut ps s0 (putGlb s ini r w v) := by
  have w1 : Within [.csr, .quiet] ps := Within.trans (by decide +kernel) hW
  have w2 : Within [.csr, .evt, .commit_] ps := Within.trans (by decide +kernel) hW
  have w3 : Within [.csr, .evt] ps := Within.trans (by decide +kernel) hW
  have w4 : Within [.csr, .shadow, .evt] ps := Within.trans (by decide +kernel) hW
  have w5 : Within [] ps := Within.trans (by decide +kernel) hW
  unfold putGlb
  repeat' (first | with_reducible assumption | with_reducible apply quiesceReqEff_same w1
                  | with_reducible apply commitGoEff_same w2 | with_reducible apply publishEff_same w3
                  | with_reducible apply plateClearEff_same w3 | with_reducible apply plateAckEff_same w3
                  | with_reducible apply putFields_same w4 | with_reducible apply whenB_same w5 | extract_lets
                  | split | with_reducible intro _)

theorem strmFailEff_same {ps : List Part} {s0 : State} {s : State} {a : Nat} {v : Nat}
    (hW : Within [.csr] ps) (hK : SameBut ps s0 s) :
    SameBut ps s0 (strmFailEff s a v) := by
  unfold strmFailEff
  repeat' (first | with_reducible assumption | with_reducible apply setFld_same hW
                  | with_reducible apply setFlag_same hW | split)

theorem putCore_same {ps : List Part} {s0 : State} {s : State} {ini : Initiator} {r : RegAt} {w : Nat} {v : Nat}
    {c : Nat}
    (hW : Within [.csr, .shadow, .evt, .cores, .ephResults] ps) (hK : SameBut ps s0 s) :
    SameBut ps s0 (putCore s ini r w v c) := by
  have w1 : Within [.cores] ps := Within.trans (by decide +kernel) hW
  have w2 : Within [.csr, .evt, .cores, .ephResults] ps := Within.trans (by decide +kernel) hW
  have w3 : Within [.csr, .evt, .cores] ps := Within.trans (by decide +kernel) hW
  have w4 : Within [.csr, .cores] ps := Within.trans (by decide +kernel) hW
  have w5 : Within [.csr, .shadow, .evt] ps := Within.trans (by decide +kernel) hW
  have w6 : Within [] ps := Within.trans (by decide +kernel) hW
  have w7 : Within [.csr] ps := Within.trans (by decide +kernel) hW
  unfold putCore
  repeat' (first | with_reducible assumption | with_reducible apply setCore_same w1
                  | with_reducible apply strmCancelAll_same w2 | with_reducible apply coreRunEff_same w3
                  | with_reducible apply coreStopEff_same w1 | with_reducible apply corePcEff_same w3
                  | with_reducible apply coreFaultClrEff_same w1 | with_reducible apply coreSbClearEff_same w1
                  | with_reducible apply coreSbSetEff_same w3 | with_reducible apply coreSbFailEff_same w1
                  | with_reducible apply accTmodeEff_same w3 | with_reducible apply strmPushEff_same w4
                  | with_reducible apply putFields_same w5 | with_reducible apply whenB_same w6
                  | with_reducible apply strmFailEff_same w7 | extract_lets | split | with_reducible intro _)

theorem putStk_same {ps : List Part} {s0 : State} {s : State} {ini : Initiator} {r : RegAt} {w : Nat} {v : Nat}
    {i : Nat}
    (hW : Within [.csr, .shadow, .evt, .stks] ps) (hK : SameBut ps s0 s) :
    SameBut ps s0 (putStk s ini r w v i) := by
  have w1 : Within [.stks] ps := Within.trans (by decide +kernel) hW
  have w2 : Within [.csr] ps := Within.trans (by decide +kernel) hW
  have w3 : Within [.csr, .shadow, .evt] ps := Within.trans (by decide +kernel) hW
  have w4 : Within [] ps := Within.trans (by decide +kernel) hW
  unfold putStk
  repeat' (first | with_reducible assumption | with_reducible apply rowlogClrEff_same w1
                  | with_reducible apply errClearEff_same w2 | with_reducible apply putFields_same w3
                  | with_reducible apply whenB_same w4 | extract_lets | split | with_reducible intro _)

theorem putNbu_same {ps : List Part} {s0 : State} {s : State} {ini : Initiator} {r : RegAt} {w : Nat} {v : Nat}
    {n : Nat}
    (hW : Within [.freeCtr, .stamp, .csr, .shadow, .evt, .answers, .stks, .fast, .fastMark, .deepMark, .pages, .pageCache, .holders, .frameMap, .blocks, .slots, .migq, .stalled, .stallFail, .plcCh, .plans, .nbus, .dcache, .outbox, .commit_] ps) (hK : SameBut ps s0 s) :
    SameBut ps s0 (putNbu s ini r w v n) := by
  have w1 : Within [.freeCtr, .stamp, .csr, .evt, .answers, .stks, .fast, .fastMark, .deepMark, .pages, .pageCache, .holders, .frameMap, .blocks, .slots, .migq, .stalled, .stallFail, .plcCh, .plans, .nbus, .dcache, .outbox, .commit_] ps := Within.trans (by decide +kernel) hW
  have w2 : Within [.csr, .shadow, .evt] ps := Within.trans (by decide +kernel) hW
  have w3 : Within [.csr, .evt] ps := Within.trans (by decide +kernel) hW
  unfold putNbu
  repeat' (first | with_reducible assumption | with_reducible apply nbuIssue_same w1
                  | with_reducible apply putFields_same w2 | with_reducible apply turnedAway_same w3 | split)

theorem putPlc_same {ps : List Part} {s0 : State} {s : State} {ini : Initiator} {r : RegAt} {w : Nat} {v : Nat}
    (hW : Within [.freeCtr, .csr, .shadow, .evt, .ephResults, .answers, .stks, .fast, .deep, .fastMark, .deepMark, .pages, .pageCache, .frameMap, .blocks, .frameCur, .blockCur, .slots, .migq, .stalled, .stallFail, .plcCh, .plans] ps) (hK : SameBut ps s0 s) :
    SameBut ps s0 (putPlc s ini r w v) := by
  have w1 : Within [.freeCtr, .csr, .evt, .ephResults, .answers, .stks, .fast, .deep, .fastMark, .deepMark, .pages, .pageCache, .frameMap, .blocks, .frameCur, .blockCur, .slots, .migq, .stalled, .stallFail, .plcCh, .plans] ps := Within.trans (by decide +kernel) hW
  have w2 : Within [.csr, .shadow, .evt] ps := Within.trans (by decide +kernel) hW
  have w3 : Within [.csr, .evt] ps := Within.trans (by decide +kernel) hW
  unfold putPlc
  repeat' (first | with_reducible assumption | with_reducible apply plcIssue_same w1
                  | with_reducible apply putFields_same w2 | with_reducible apply turnedAway_same w3 | extract_lets
                  | split)

theorem putRings_same {ps : List Part} {s0 : State} {s : State} {ini : Initiator} {r : RegAt} {w : Nat} {v : Nat}
    (hW : Within [.csr, .shadow, .evt] ps) (hK : SameBut ps s0 s) :
    SameBut ps s0 (putRings s ini r w v) := by
  have w1 : Within [.csr, .evt] ps := Within.trans (by decide +kernel) hW
  unfold putRings
  repeat' (first | with_reducible assumption | with_reducible apply rlySqPi_same w1
                  | with_reducible apply rlyRbPi_same w1 | with_reducible apply medSqPi_same w1
                  | with_reducible apply putFields_same hW | with_reducible apply putUnless_same hW | extract_lets
                  | split)

theorem linkCtrlEff_same {ps : List Part} {s0 : State} {s : State} {ini : Initiator} {r : RegAt} {w : Nat} {v : Nat}
    {l : Nat}
    (hW : Within [.csr, .shadow, .evt, .links, .fabc] ps) (hK : SameBut ps s0 s) :
    SameBut ps s0 (linkCtrlEff s ini r w v l) := by
  have w1 : Within [.csr, .evt, .links, .fabc] ps := Within.trans (by decide +kernel) hW
  have w2 : Within [.links] ps := Within.trans (by decide +kernel) hW
  have w3 : Within [.csr, .evt, .links] ps := Within.trans (by decide +kernel) hW
  have w4 : Within [.csr, .shadow, .evt] ps := Within.trans (by decide +kernel) hW
  have w5 : Within [] ps := Within.trans (by decide +kernel) hW
  unfold linkCtrlEff
  repeat' (first | with_reducible assumption | with_reducible apply linkEnableEff_same w1
                  | with_reducible apply linkRetrainEff_same w2 | with_reducible apply linkAdmitEff_same w3
                  | with_reducible apply linkRevokeEff_same w1 | with_reducible apply putFields_same w4
                  | with_reducible apply whenB_same w5 | extract_lets | split | with_reducible intro _)

theorem putPort_same {ps : List Part} {s0 : State} {s : State} {ini : Initiator} {r : RegAt} {w : Nat} {v : Nat}
    (hW : Within [.csr, .shadow, .evt, .links, .fabc] ps) (hK : SameBut ps s0 s) :
    SameBut ps s0 (putPort s ini r w v) := by
  have w1 : Within [.csr, .shadow, .evt] ps := Within.trans (by decide +kernel) hW
  unfold putPort
  repeat' (first | with_reducible assumption | with_reducible apply putFields_same w1
                  | with_reducible apply linkCtrlEff_same hW | split)

theorem putFabc_same {ps : List Part} {s0 : State} {s : State} {ini : Initiator} {r : RegAt} {w : Nat} {v : Nat}
    (hW : Within [.freeCtr, .csr, .shadow, .evt, .answers, .stks, .fast, .fastMark, .deepMark, .pages, .pageCache, .frameMap, .blocks, .slots, .migq, .stalled, .stallFail, .plcCh, .plans, .nbus, .outbox, .fabc, .commit_] ps) (hK : SameBut ps s0 s) :
    SameBut ps s0 (putFabc s ini r w v) := by
  have w1 : Within [.csr, .fabc] ps := Within.trans (by decide +kernel) hW
  have w2 : Within [.csr, .evt, .nbus, .outbox, .commit_] ps := Within.trans (by decide +kernel) hW
  have w3 : Within [.freeCtr, .csr, .evt, .answers, .stks, .fast, .fastMark, .deepMark, .pages, .pageCache, .frameMap, .blocks, .slots, .migq, .stalled, .stallFail, .plcCh, .plans, .nbus, .fabc] ps := Within.trans (by decide +kernel) hW
  have w4 : Within [.csr, .shadow, .evt] ps := Within.trans (by decide +kernel) hW
  have w5 : Within [.csr, .evt] ps := Within.trans (by decide +kernel) hW
  have w6 : Within [] ps := Within.trans (by decide +kernel) hW
  unfold putFabc
  repeat' (first | with_reducible assumption | with_reducible apply mgmtPush_same w1
                  | with_reducible apply routeSwitch_same w2 | with_reducible apply jrnlEff_same w3
                  | with_reducible apply putFields_same w4 | with_reducible apply turnedAway_same w5
                  | with_reducible apply putUnless_same w4 | with_reducible apply whenB_same w6 | extract_lets
                  | split | with_reducible intro _)

theorem putHlk_same {ps : List Part} {s0 : State} {s : State} {ini : Initiator} {r : RegAt} {w : Nat} {v : Nat}
    (hW : Within [.freeCtr, .csr, .shadow, .evt, .answers, .stks, .fast, .fastMark, .deepMark, .pages, .pageCache, .frameMap, .blocks, .slots, .migq, .stalled, .stallFail, .plcCh, .plans, .links, .fabc, .hlk] ps) (hK : SameBut ps s0 s) :
    SameBut ps s0 (putHlk s ini r w v) := by
  have w1 : Within [.csr, .evt, .links, .fabc] ps := Within.trans (by decide +kernel) hW
  have w2 : Within [.links] ps := Within.trans (by decide +kernel) hW
  have w3 : Within [.freeCtr, .csr, .evt, .answers, .stks, .fast, .fastMark, .deepMark, .pages, .pageCache, .frameMap, .blocks, .slots, .migq, .stalled, .stallFail, .plcCh, .plans, .links, .hlk] ps := Within.trans (by decide +kernel) hW
  have w4 : Within [.csr, .evt, .hlk] ps := Within.trans (by decide +kernel) hW
  have w5 : Within [.csr, .evt] ps := Within.trans (by decide +kernel) hW
  have w6 : Within [.csr] ps := Within.trans (by decide +kernel) hW
  have w7 : Within [.csr, .shadow, .evt] ps := Within.trans (by decide +kernel) hW
  have w8 : Within [] ps := Within.trans (by decide +kernel) hW
  unfold putHlk
  repeat' (first | with_reducible assumption | with_reducible apply linkEnableEff_same w1
                  | with_reducible apply linkRetrainEff_same w2 | with_reducible apply hlkDrain_same w3
                  | with_reducible apply fwDoneEff_same w4 | with_reducible apply sqTailEff_same w5
                  | with_reducible apply cqHeadEff_same w3 | with_reducible apply vecUnmaskEff_same w3
                  | with_reducible apply attachEff_same w4 | with_reducible apply detachEff_same w6
                  | with_reducible apply putFields_same w7 | with_reducible apply putLocked_same w7
                  | with_reducible apply putUnless_same w7 | with_reducible apply whenB_same w8 | extract_lets
                  | split | with_reducible intro _)

theorem putEvt_same {ps : List Part} {s0 : State} {s : State} {ini : Initiator} {r : RegAt} {w : Nat} {v : Nat}
    (hW : Within [.freeCtr, .csr, .shadow, .evt, .answers, .stks, .fast, .fastMark, .deepMark, .pages, .pageCache, .frameMap, .blocks, .slots, .migq, .stalled, .stallFail, .plcCh, .plans, .links, .hlk] ps) (hK : SameBut ps s0 s) :
    SameBut ps s0 (putEvt s ini r w v) := by
  have w1 : Within [.freeCtr, .csr, .evt, .answers, .stks, .fast, .fastMark, .deepMark, .pages, .pageCache, .frameMap, .blocks, .slots, .migq, .stalled, .stallFail, .plcCh, .plans, .links, .hlk] ps := Within.trans (by decide +kernel) hW
  have w2 : Within [.evt] ps := Within.trans (by decide +kernel) hW
  have w3 : Within [.csr, .evt] ps := Within.trans (by decide +kernel) hW
  have w4 : Within [.csr, .shadow, .evt] ps := Within.trans (by decide +kernel) hW
  have w5 : Within [] ps := Within.trans (by decide +kernel) hW
  unfold putEvt
  repeat' (first | with_reducible assumption | with_reducible apply nestEnterEff_same w1
                  | with_reducible apply nestExitEff_same w1 | with_reducible apply tgtCiEff_same w1
                  | with_reducible apply evtFaultClearEff_same w1 | with_reducible apply purgeEff_same w2
                  | with_reducible apply swraiseEff_same w3 | with_reducible apply putFields_same w4
                  | with_reducible apply putLocked_same w4 | with_reducible apply putUnless_same w4
                  | with_reducible apply whenB_same w5 | extract_lets | split | with_reducible intro _)

theorem putProc_same {ps : List Part} {s0 : State} {s : State} {ini : Initiator} {r : RegAt} {w : Nat} {v : Nat}
    {p : Nat}
    (hW : Within [.csr, .shadow, .evt, .dcache, .hlk, .harts] ps) (hK : SameBut ps s0 s) :
    SameBut ps s0 (putProc s ini r w v p) := by
  have w1 : Within [.csr, .evt] ps := Within.trans (by decide +kernel) hW
  have w2 : Within [.csr, .harts] ps := Within.trans (by decide +kernel) hW
  have w3 : Within [.csr, .evt, .harts] ps := Within.trans (by decide +kernel) hW
  have w4 : Within [.harts] ps := Within.trans (by decide +kernel) hW
  have w5 : Within [.csr, .evt, .hlk, .harts] ps := Within.trans (by decide +kernel) hW
  have w6 : Within [.dcache] ps := Within.trans (by decide +kernel) hW
  have w7 : Within [.csr, .shadow, .evt] ps := Within.trans (by decide +kernel) hW
  have w8 : Within [] ps := Within.trans (by decide +kernel) hW
  unfold putProc
  repeat' (first | with_reducible assumption | with_reducible apply violation_same w1
                  | with_reducible apply wdtWriteEff_same w2 | with_reducible apply wdtKickEff_same w3
                  | with_reducible apply runEff_same w4 | with_reducible apply haltEff_same w5
                  | with_reducible apply dinvEff_same w6 | with_reducible apply putFields_same w7
                  | with_reducible apply whenB_same w8 | extract_lets | split | with_reducible intro _)

theorem flOpEff_same {ps : List Part} {s0 : State} {s : State} {ini : Initiator} {op : Nat}
    (hW : Within [.freeCtr, .csr, .evt, .boot] ps) (hK : SameBut ps s0 s) :
    SameBut ps s0 (flOpEff s ini op) := by
  have w1 : Within [.freeCtr] ps := Within.trans (by decide +kernel) hW
  have w2 : Within [.csr, .evt, .boot] ps := Within.trans (by decide +kernel) hW
  unfold flOpEff
  repeat' (first | with_reducible assumption | with_reducible apply fresh_same w1
                  | with_reducible apply flCmdEff_same w2 | split)

theorem putBoot_same {ps : List Part} {s0 : State} {s : State} {ini : Initiator} {r : RegAt} {w : Nat} {v : Nat}
    (hW : Within [.freeCtr, .csr, .shadow, .evt, .harts, .boot] ps) (hK : SameBut ps s0 s) :
    SameBut ps s0 (putBoot s ini r w v) := by
  have w1 : Within [.csr] ps := Within.trans (by decide +kernel) hW
  have w2 : Within [.csr, .evt, .boot] ps := Within.trans (by decide +kernel) hW
  have w3 : Within [.csr, .evt, .harts, .boot] ps := Within.trans (by decide +kernel) hW
  have w4 : Within [.csr, .shadow, .evt] ps := Within.trans (by decide +kernel) hW
  have w5 : Within [] ps := Within.trans (by decide +kernel) hW
  have w6 : Within [.freeCtr, .csr, .evt, .boot] ps := Within.trans (by decide +kernel) hW
  unfold putBoot
  repeat' (first | with_reducible assumption | with_reducible apply setFlag_same w1
                  | with_reducible apply modeOvrEff_same w2 | with_reducible apply confirmEff_same w1
                  | with_reducible apply releaseEff_same w3 | with_reducible apply hostDataEff_same w2
                  | with_reducible apply secCmdEff_same w2 | with_reducible apply putFields_same w4
                  | with_reducible apply putUnless_same w4 | with_reducible apply whenB_same w5
                  | with_reducible apply flOpEff_same w6 | extract_lets | split | with_reducible intro _)

theorem putRst_same {ps : List Part} {s0 : State} {s : State} {ini : Initiator} {r : RegAt} {w : Nat} {v : Nat}
    (hW : Within [.freeCtr, .stamp, .csr, .shadow, .heldLow, .latchHigh, .quiet, .heldWrites, .evt, .rst, .pwr, .cores, .coreHeld, .triggers, .ephResults, .answers, .stks, .fast, .deep, .fastMark, .deepMark, .pages, .pageCache, .holders, .frameMap, .blocks, .frameCur, .blockCur, .slots, .migq, .sweep, .stalled, .stallFail, .plcCh, .plans, .plcFits, .plcRestoring, .nbus, .rowsInFlight, .rowAnswers, .dcache, .outbox, .rlys, .med, .links, .fabc, .hlk, .harts, .boot, .commit_] ps) (hK : SameBut ps s0 s) :
    SameBut ps s0 (putRst s ini r w v) := by
  have w1 : Within [.csr, .quiet, .evt, .rst, .links, .fabc] ps := Within.trans (by decide +kernel) hW
  have w2 : Within [.pwr] ps := Within.trans (by decide +kernel) hW
  have w3 : Within [.csr, .shadow, .evt] ps := Within.trans (by decide +kernel) hW
  unfold putRst
  repeat' (first | with_reducible assumption | with_reducible apply swreqEff_same hW
                  | with_reducible apply dbgreqEff_same hW | with_reducible apply blkReqEff_same w1
                  | with_reducible apply setPwr_same w2 | with_reducible apply putFields_same w3 | extract_lets
                  | split)

theorem putReg_same {ps : List Part} {s0 : State} {s : State} {ini : Initiator} {r : RegAt} {w : Nat} {v : Nat}
    (hW : Within [.freeCtr, .stamp, .csr, .shadow, .heldLow, .latchHigh, .quiet, .heldWrites, .evt, .rst, .pwr, .cores, .coreHeld, .triggers, .ephResults, .answers, .stks, .fast, .deep, .fastMark, .deepMark, .pages, .pageCache, .holders, .frameMap, .blocks, .frameCur, .blockCur, .slots, .migq, .sweep, .stalled, .stallFail, .plcCh, .plans, .plcFits, .plcRestoring, .nbus, .rowsInFlight, .rowAnswers, .dcache, .outbox, .rlys, .med, .links, .fabc, .hlk, .harts, .boot, .commit_] ps) (hK : SameBut ps s0 s) :
    SameBut ps s0 (putReg s ini r w v) := by
  have w1 : Within [.csr, .shadow, .evt] ps := Within.trans (by decide +kernel) hW
  have w2 : Within [.csr, .shadow, .quiet, .evt, .commit_] ps := Within.trans (by decide +kernel) hW
  have w3 : Within [.csr, .shadow, .evt, .cores, .ephResults] ps := Within.trans (by decide +kernel) hW
  have w4 : Within [.csr, .shadow, .evt, .stks] ps := Within.trans (by decide +kernel) hW
  have w5 : Within [.freeCtr, .stamp, .csr, .shadow, .evt, .answers, .stks, .fast, .fastMark, .deepMark, .pages, .pageCache, .holders, .frameMap, .blocks, .slots, .migq, .stalled, .stallFail, .plcCh, .plans, .nbus, .dcache, .outbox, .commit_] ps := Within.trans (by decide +kernel) hW
  have w6 : Within [.freeCtr, .csr, .shadow, .evt, .ephResults, .answers, .stks, .fast, .deep, .fastMark, .deepMark, .pages, .pageCache, .frameMap, .blocks, .frameCur, .blockCur, .slots, .migq, .stalled, .stallFail, .plcCh, .plans] ps := Within.trans (by decide +kernel) hW
  have w7 : Within [.csr, .shadow, .evt, .links, .fabc] ps := Within.trans (by decide +kernel) hW
  have w8 : Within [.freeCtr, .csr, .shadow, .evt, .answers, .stks, .fast, .fastMark, .deepMark, .pages, .pageCache, .frameMap, .blocks, .slots, .migq, .stalled, .stallFail, .plcCh, .plans, .nbus, .outbox, .fabc, .commit_] ps := Within.trans (by decide +kernel) hW
  have w9 : Within [.freeCtr, .csr, .shadow, .evt, .answers, .stks, .fast, .fastMark, .deepMark, .pages, .pageCache, .frameMap, .blocks, .slots, .migq, .stalled, .stallFail, .plcCh, .plans, .links, .fabc, .hlk] ps := Within.trans (by decide +kernel) hW
  have w10 : Within [.freeCtr, .csr, .shadow, .evt, .answers, .stks, .fast, .fastMark, .deepMark, .pages, .pageCache, .frameMap, .blocks, .slots, .migq, .stalled, .stallFail, .plcCh, .plans, .links, .hlk] ps := Within.trans (by decide +kernel) hW
  have w11 : Within [.csr, .shadow, .evt, .dcache, .hlk, .harts] ps := Within.trans (by decide +kernel) hW
  have w12 : Within [.freeCtr, .csr, .shadow, .evt, .harts, .boot] ps := Within.trans (by decide +kernel) hW
  unfold putReg
  repeat' (first | with_reducible assumption | with_reducible apply putFields_same w1
                  | with_reducible apply putGlb_same w2 | with_reducible apply putCore_same w3
                  | with_reducible apply putStk_same w4 | with_reducible apply putNbu_same w5
                  | with_reducible apply putPlc_same w6 | with_reducible apply putRings_same w1
                  | with_reducible apply putPort_same w7 | with_reducible apply putFabc_same w8
                  | with_reducible apply putHlk_same w9 | with_reducible apply putEvt_same w10
                  | with_reducible apply putProc_same w11 | with_reducible apply putBoot_same w12
                  | with_reducible apply putRst_same hW | extract_lets | split)

theorem putWord_same {ps : List Part} {s0 : State} {s : State} {ini : Initiator} {r : RegAt} {a : Nat} {v : Nat}
    (hW : Within [.freeCtr, .stamp, .csr, .shadow, .heldLow, .latchHigh, .quiet, .heldWrites, .evt, .rst, .pwr, .cores, .coreHeld, .triggers, .ephResults, .answers, .stks, .fast, .deep, .fastMark, .deepMark, .pages, .pageCache, .holders, .frameMap, .blocks, .frameCur, .blockCur, .slots, .migq, .sweep, .stalled, .stallFail, .plcCh, .plans, .plcFits, .plcRestoring, .nbus, .rowsInFlight, .rowAnswers, .dcache, .outbox, .rlys, .med, .links, .fabc, .hlk, .harts, .boot, .commit_] ps) (hK : SameBut ps s0 s) :
    SameBut ps s0 (putWord s ini r a v) := by
  have w1 : Within [.coreHeld] ps := Within.trans (by decide +kernel) hW
  have w2 : Within [.heldLow] ps := Within.trans (by decide +kernel) hW
  have w3 : Within [.heldWrites] ps := Within.trans (by decide +kernel) hW
  unfold putWord
  repeat' (first | with_reducible assumption | with_reducible apply putReg_same hW | simp only [same_mk_coreHeld w1]
                  | simp only [same_mk_heldLow w2] | simp only [same_mk_heldWrites w3] | split)

theorem ctlWrite_same {ps : List Part} {s0 : State} {ini : Initiator} {a : Nat} {len : Nat} {v : Nat} {s : State}
    (hW : Within [.freeCtr, .stamp, .csr, .shadow, .heldLow, .latchHigh, .quiet, .heldWrites, .evt, .rst, .pwr, .cores, .coreHeld, .triggers, .ephResults, .answers, .stks, .fast, .deep, .fastMark, .deepMark, .pages, .pageCache, .holders, .frameMap, .blocks, .frameCur, .blockCur, .slots, .migq, .sweep, .stalled, .stallFail, .plcCh, .plans, .plcFits, .plcRestoring, .nbus, .rowsInFlight, .rowAnswers, .dcache, .outbox, .rlys, .med, .links, .fabc, .hlk, .harts, .boot, .commit_] ps) (hK : SameBut ps s0 s) :
    SameBut ps s0 (ctlWrite ini a len v s) := by
  have w1 : Within [.csr, .evt] ps := Within.trans (by decide +kernel) hW
  unfold ctlWrite
  repeat' (first | with_reducible assumption | with_reducible apply violation_same w1
                  | with_reducible apply putWord_same hW | split)

theorem land_same {ps : List Part} {s0 : State} {s : State} {h : HeldWrite}
    (hW : Within [.freeCtr, .stamp, .csr, .shadow, .heldLow, .latchHigh, .quiet, .heldWrites, .evt, .rst, .pwr, .cores, .coreHeld, .triggers, .ephResults, .answers, .stks, .fast, .deep, .fastMark, .deepMark, .pages, .pageCache, .holders, .frameMap, .blocks, .frameCur, .blockCur, .slots, .migq, .sweep, .stalled, .stallFail, .plcCh, .plans, .plcFits, .plcRestoring, .nbus, .rowsInFlight, .rowAnswers, .dcache, .outbox, .rlys, .med, .links, .fabc, .hlk, .harts, .boot, .commit_] ps) (hK : SameBut ps s0 s) :
    SameBut ps s0 (land s h) := by
  unfold land
  repeat' (first | with_reducible assumption | with_reducible apply putWord_same hW | split)

theorem getWord_same {ps : List Part} {s0 : State} {s : State} {ini : Initiator} {r : RegAt} {left : Nat}
    (hW : Within [.csr, .latchHigh] ps) (hK : SameBut ps s0 s) :
    SameBut ps s0 (getWord s ini r left).1 := by
  have w1 : Within [.csr] ps := Within.trans (by decide +kernel) hW
  have w2 : Within [.latchHigh] ps := Within.trans (by decide +kernel) hW
  unfold getWord
  repeat' (first | with_reducible assumption | with_reducible apply readClear_same w1
                  | simp only [same_mk_latchHigh w2] | extract_lets | split)

theorem ctlReadLeft_same {ps : List Part} {s0 : State} {ini : Initiator} {a : Nat} {len : Nat} {left : Nat}
    {s : State}
    (hW : Within [.csr, .latchHigh, .evt] ps) (hK : SameBut ps s0 s) :
    SameBut ps s0 (ctlReadLeft ini a len left s).1 := by
  have w1 : Within [.csr, .evt] ps := Within.trans (by decide +kernel) hW
  have w2 : Within [.csr, .latchHigh] ps := Within.trans (by decide +kernel) hW
  unfold ctlReadLeft
  repeat' (first | with_reducible assumption | with_reducible apply violation_same w1
                  | with_reducible apply getWord_same w2 | split)

theorem ctlRead_same {ps : List Part} {s0 : State} {ini : Initiator} {a : Nat} {len : Nat} {s : State}
    (hW : Within [.csr, .latchHigh, .evt] ps) (hK : SameBut ps s0 s) :
    SameBut ps s0 (ctlRead ini a len s).1 := by
  unfold ctlRead
  repeat' (first | with_reducible assumption | with_reducible apply ctlReadLeft_same hW)

theorem readOut_same {ps : List Part} {s0 : State} {ini : Initiator} {a : Nat} {left : Nat} {s : State}
    (hW : Within [.busData, .csr, .latchHigh, .evt] ps) (hK : SameBut ps s0 s) :
    SameBut ps s0 (readOut ini a left s) := by
  have w1 : Within [.csr, .latchHigh, .evt] ps := Within.trans (by decide +kernel) hW
  have w2 : Within [.busData] ps := Within.trans (by decide +kernel) hW
  unfold readOut
  repeat' (first | with_reducible assumption | with_reducible apply ctlReadLeft_same w1
                  | simp only [same_mk_busData w2])

end Sys2Proof.Machine
end

