-- ==== Sys2Proof/Laws/FrameRegCmds.lean ====
section
/-! SUPPORT. What the functions of Machine/RegCmds.lean leave unchanged (see Laws/Frame.lean). -/

set_option Elab.async false -- many small kernel checks: one thread does them
set_option linter.unusedSimpArgs false
set_option simprocs false -- no numeral of a goal is evaluated in these proofs

namespace Sys2Proof.Machine

theorem write32_same {ps : List Part} {s0 : State} {i : Initiator} {a : Nat} {v : Nat} {s : State}
    (hW : Within [.freeCtr, .stamp, .csr, .shadow, .heldLow, .latchHigh, .quiet, .heldWrites, .evt, .rst, .pwr, .cores, .coreHeld, .triggers, .ephResults, .answers, .stks, .fast, .deep, .fastMark, .deepMark, .pages, .pageCache, .holders, .frameMap, .blocks, .frameCur, .blockCur, .slots, .migq, .sweep, .stalled, .stallFail, .plcCh, .plans, .plcFits, .plcRestoring, .nbus, .rowsInFlight, .rowAnswers, .dcache, .outbox, .rlys, .med, .links, .fabc, .hlk, .harts, .boot, .commit_] ps) (hK : SameBut ps s0 s) :
    OutSame ps s0 (write32 i a v s) := by
  unfold write32
  repeat' (first | with_reducible assumption | with_reducible apply ctlWrite_same hW
                  | with_reducible apply outSame_next)

theorem execRegisterWrite_same {ps : List Part} {s0 : State} {i : Initiator} {a : Nat} {len : Nat} {v : W32}
    {s : State}
    (hW : Within [.freeCtr, .stamp, .csr, .shadow, .heldLow, .latchHigh, .quiet, .heldWrites, .evt, .rst, .pwr, .cores, .coreHeld, .triggers, .ephResults, .answers, .stks, .fast, .deep, .fastMark, .deepMark, .pages, .pageCache, .holders, .frameMap, .blocks, .frameCur, .blockCur, .slots, .migq, .sweep, .stalled, .stallFail, .plcCh, .plans, .plcFits, .plcRestoring, .nbus, .rowsInFlight, .rowAnswers, .dcache, .outbox, .rlys, .med, .links, .fabc, .hlk, .harts, .boot, .commit_] ps) (hK : SameBut ps s0 s) :
    OutSame ps s0 (execRegisterWrite i a len v s) := by
  unfold execRegisterWrite
  repeat' (first | with_reducible assumption | with_reducible apply ctlWrite_same hW
                  | with_reducible apply outSame_next)

theorem execReg64LowRead_same {ps : List Part} {s0 : State} {i : Initiator} {a : Nat} {s : State}
    (hW : Within [.busData, .csr, .latchHigh, .evt] ps) (hK : SameBut ps s0 s) :
    OutSame ps s0 (execReg64LowRead i a s) := by
  unfold execReg64LowRead
  repeat' (first | with_reducible assumption | with_reducible apply readOut_same hW
                  | with_reducible apply outSame_next)

theorem execReg64HighRead_same {ps : List Part} {s0 : State} {i : Initiator} {a : Nat} {s : State}
    (hW : Within [.busData, .csr, .latchHigh, .evt] ps) (hK : SameBut ps s0 s) :
    OutSame ps s0 (execReg64HighRead i a s) := by
  unfold execReg64HighRead
  repeat' (first | with_reducible assumption | with_reducible apply readOut_same hW
                  | with_reducible apply outSame_next)

theorem execReg64LowWrite_same {ps : List Part} {s0 : State} {i : Initiator} {a : Nat} {v : W32} {s : State}
    (hW : Within [.freeCtr, .stamp, .csr, .shadow, .heldLow, .latchHigh, .quiet, .heldWrites, .evt, .rst, .pwr, .cores, .coreHeld, .triggers, .ephResults, .answers, .stks, .fast, .deep, .fastMark, .deepMark, .pages, .pageCache, .holders, .frameMap, .blocks, .frameCur, .blockCur, .slots, .migq, .sweep, .stalled, .stallFail, .plcCh, .plans, .plcFits, .plcRestoring, .nbus, .rowsInFlight, .rowAnswers, .dcache, .outbox, .rlys, .med, .links, .fabc, .hlk, .harts, .boot, .commit_] ps) (hK : SameBut ps s0 s) :
    OutSame ps s0 (execReg64LowWrite i a v s) := by
  unfold execReg64LowWrite
  repeat' (first | with_reducible assumption | with_reducible apply write32_same hW)

theorem execReg64HighWrite_same {ps : List Part} {s0 : State} {i : Initiator} {a : Nat} {v : W32} {s : State}
    (hW : Within [.freeCtr, .stamp, .csr, .shadow, .heldLow, .latchHigh, .quiet, .heldWrites, .evt, .rst, .pwr, .cores, .coreHeld, .triggers, .ephResults, .answers, .stks, .fast, .deep, .fastMark, .deepMark, .pages, .pageCache, .holders, .frameMap, .blocks, .frameCur, .blockCur, .slots, .migq, .sweep, .stalled, .stallFail, .plcCh, .plans, .plcFits, .plcRestoring, .nbus, .rowsInFlight, .rowAnswers, .dcache, .outbox, .rlys, .med, .links, .fabc, .hlk, .harts, .boot, .commit_] ps) (hK : SameBut ps s0 s) :
    OutSame ps s0 (execReg64HighWrite i a v s) := by
  unfold execReg64HighWrite
  repeat' (first | with_reducible assumption | with_reducible apply write32_same hW)

theorem execRcCounterRead_same {ps : List Part} {s0 : State} {i : Initiator} {a : Nat} {sameCycle : Bool} {s : State}
    (hW : Within [.busData, .csr, .latchHigh, .evt] ps) (hK : SameBut ps s0 s) :
    OutSame ps s0 (execRcCounterRead i a sameCycle s) := by
  unfold execRcCounterRead
  repeat' (first | with_reducible assumption | with_reducible apply readOut_same hW
                  | with_reducible apply outSame_next)

theorem execShShadowWrite_same {ps : List Part} {s0 : State} {i : Initiator} {a : Nat} {v : W32} {s : State}
    (hW : Within [.freeCtr, .stamp, .csr, .shadow, .heldLow, .latchHigh, .quiet, .heldWrites, .evt, .rst, .pwr, .cores, .coreHeld, .triggers, .ephResults, .answers, .stks, .fast, .deep, .fastMark, .deepMark, .pages, .pageCache, .holders, .frameMap, .blocks, .frameCur, .blockCur, .slots, .migq, .sweep, .stalled, .stallFail, .plcCh, .plans, .plcFits, .plcRestoring, .nbus, .rowsInFlight, .rowAnswers, .dcache, .outbox, .rlys, .med, .links, .fabc, .hlk, .harts, .boot, .commit_] ps) (hK : SameBut ps s0 s) :
    OutSame ps s0 (execShShadowWrite i a v s) := by
  unfold execShShadowWrite
  repeat' (first | with_reducible assumption | with_reducible apply write32_same hW)

theorem execQuiesceRequest_same {ps : List Part} {s0 : State} {i : Initiator} {hi : W32} {s : State}
    (hW : Within [.freeCtr, .stamp, .csr, .shadow, .heldLow, .latchHigh, .quiet, .heldWrites, .evt, .rst, .pwr, .cores, .coreHeld, .triggers, .ephResults, .answers, .stks, .fast, .deep, .fastMark, .deepMark, .pages, .pageCache, .holders, .frameMap, .blocks, .frameCur, .blockCur, .slots, .migq, .sweep, .stalled, .stallFail, .plcCh, .plans, .plcFits, .plcRestoring, .nbus, .rowsInFlight, .rowAnswers, .dcache, .outbox, .rlys, .med, .links, .fabc, .hlk, .harts, .boot, .commit_] ps) (hK : SameBut ps s0 s) :
    OutSame ps s0 (execQuiesceRequest i hi s) := by
  unfold execQuiesceRequest
  repeat' (first | with_reducible assumption | with_reducible apply write32_same hW)

theorem execCommitGo_same {ps : List Part} {s0 : State} {i : Initiator} {v : W32} {s : State}
    (hW : Within [.freeCtr, .stamp, .csr, .shadow, .heldLow, .latchHigh, .quiet, .heldWrites, .evt, .rst, .pwr, .cores, .coreHeld, .triggers, .ephResults, .answers, .stks, .fast, .deep, .fastMark, .deepMark, .pages, .pageCache, .holders, .frameMap, .blocks, .frameCur, .blockCur, .slots, .migq, .sweep, .stalled, .stallFail, .plcCh, .plans, .plcFits, .plcRestoring, .nbus, .rowsInFlight, .rowAnswers, .dcache, .outbox, .rlys, .med, .links, .fabc, .hlk, .harts, .boot, .commit_] ps) (hK : SameBut ps s0 s) :
    OutSame ps s0 (execCommitGo i v s) := by
  unfold execCommitGo
  repeat' (first | with_reducible assumption | with_reducible apply write32_same hW)

theorem execCommitConfirm_same {ps : List Part} {s0 : State} {s : State}
    (hW : Within [.freeCtr, .stamp, .csr, .shadow, .heldLow, .latchHigh, .quiet, .heldWrites, .evt, .rst, .pwr, .cores, .coreHeld, .triggers, .ephResults, .answers, .stks, .fast, .deep, .fastMark, .deepMark, .pages, .pageCache, .holders, .frameMap, .blocks, .frameCur, .blockCur, .slots, .migq, .sweep, .stalled, .stallFail, .plcCh, .plans, .plcFits, .plcRestoring, .nbus, .rowsInFlight, .rowAnswers, .dcache, .outbox, .rlys, .med, .links, .fabc, .hlk, .harts, .boot, .commit_] ps) (hK : SameBut ps s0 s) :
    OutSame ps s0 (execCommitConfirm s) := by
  have w1 : Within [.freeCtr, .csr, .quiet, .evt, .pwr, .answers, .stks, .fast, .fastMark, .deepMark, .pages, .pageCache, .frameMap, .blocks, .slots, .migq, .stalled, .stallFail, .plcCh, .plans, .plcFits, .links, .fabc, .hlk, .commit_] ps := Within.trans (by decide +kernel) hW
  have w2 : Within [.heldWrites] ps := Within.trans (by decide +kernel) hW
  unfold execCommitConfirm
  repeat' (first | with_reducible assumption | with_reducible apply commitDo_same w1
                  | with_reducible apply land_same hW | with_reducible apply outSame_next
                  | simp only [same_mk_heldWrites w2] | (with_reducible apply same_foldl; (try intros)) | split)

theorem execCoreRun_same {ps : List Part} {s0 : State} {i : Initiator} {c : Fin 96} {s : State}
    (hW : Within [.freeCtr, .stamp, .csr, .shadow, .heldLow, .latchHigh, .quiet, .heldWrites, .evt, .rst, .pwr, .cores, .coreHeld, .triggers, .ephResults, .answers, .stks, .fast, .deep, .fastMark, .deepMark, .pages, .pageCache, .holders, .frameMap, .blocks, .frameCur, .blockCur, .slots, .migq, .sweep, .stalled, .stallFail, .plcCh, .plans, .plcFits, .plcRestoring, .nbus, .rowsInFlight, .rowAnswers, .dcache, .outbox, .rlys, .med, .links, .fabc, .hlk, .harts, .boot, .commit_] ps) (hK : SameBut ps s0 s) :
    OutSame ps s0 (execCoreRun i c s) := by
  unfold execCoreRun
  repeat' (first | with_reducible assumption | with_reducible apply write32_same hW)

theorem execCoreStop_same {ps : List Part} {s0 : State} {i : Initiator} {c : Fin 96} {s : State}
    (hW : Within [.freeCtr, .stamp, .csr, .shadow, .heldLow, .latchHigh, .quiet, .heldWrites, .evt, .rst, .pwr, .cores, .coreHeld, .triggers, .ephResults, .answers, .stks, .fast, .deep, .fastMark, .deepMark, .pages, .pageCache, .holders, .frameMap, .blocks, .frameCur, .blockCur, .slots, .migq, .sweep, .stalled, .stallFail, .plcCh, .plans, .plcFits, .plcRestoring, .nbus, .rowsInFlight, .rowAnswers, .dcache, .outbox, .rlys, .med, .links, .fabc, .hlk, .harts, .boot, .commit_] ps) (hK : SameBut ps s0 s) :
    OutSame ps s0 (execCoreStop i c s) := by
  unfold execCoreStop
  repeat' (first | with_reducible assumption | with_reducible apply write32_same hW)

theorem execCorePcWrite_same {ps : List Part} {s0 : State} {i : Initiator} {c : Fin 96} {v : W32} {s : State}
    (hW : Within [.freeCtr, .stamp, .csr, .shadow, .heldLow, .latchHigh, .quiet, .heldWrites, .evt, .rst, .pwr, .cores, .coreHeld, .triggers, .ephResults, .answers, .stks, .fast, .deep, .fastMark, .deepMark, .pages, .pageCache, .holders, .frameMap, .blocks, .frameCur, .blockCur, .slots, .migq, .sweep, .stalled, .stallFail, .plcCh, .plans, .plcFits, .plcRestoring, .nbus, .rowsInFlight, .rowAnswers, .dcache, .outbox, .rlys, .med, .links, .fabc, .hlk, .harts, .boot, .commit_] ps) (hK : SameBut ps s0 s) :
    OutSame ps s0 (execCorePcWrite i c v s) := by
  unfold execCorePcWrite
  repeat' (first | with_reducible assumption | with_reducible apply write32_same hW)

theorem execCoreFaultClr_same {ps : List Part} {s0 : State} {i : Initiator} {c : Fin 96} {s : State}
    (hW : Within [.freeCtr, .stamp, .csr, .shadow, .heldLow, .latchHigh, .quiet, .heldWrites, .evt, .rst, .pwr, .cores, .coreHeld, .triggers, .ephResults, .answers, .stks, .fast, .deep, .fastMark, .deepMark, .pages, .pageCache, .holders, .frameMap, .blocks, .frameCur, .blockCur, .slots, .migq, .sweep, .stalled, .stallFail, .plcCh, .plans, .plcFits, .plcRestoring, .nbus, .rowsInFlight, .rowAnswers, .dcache, .outbox, .rlys, .med, .links, .fabc, .hlk, .harts, .boot, .commit_] ps) (hK : SameBut ps s0 s) :
    OutSame ps s0 (execCoreFaultClr i c s) := by
  unfold execCoreFaultClr
  repeat' (first | with_reducible assumption | with_reducible apply write32_same hW)

theorem execCoreSbClear_same {ps : List Part} {s0 : State} {i : Initiator} {c : Fin 96} {hi : W32} {s : State}
    (hW : Within [.freeCtr, .stamp, .csr, .shadow, .heldLow, .latchHigh, .quiet, .heldWrites, .evt, .rst, .pwr, .cores, .coreHeld, .triggers, .ephResults, .answers, .stks, .fast, .deep, .fastMark, .deepMark, .pages, .pageCache, .holders, .frameMap, .blocks, .frameCur, .blockCur, .slots, .migq, .sweep, .stalled, .stallFail, .plcCh, .plans, .plcFits, .plcRestoring, .nbus, .rowsInFlight, .rowAnswers, .dcache, .outbox, .rlys, .med, .links, .fabc, .hlk, .harts, .boot, .commit_] ps) (hK : SameBut ps s0 s) :
    OutSame ps s0 (execCoreSbClear i c hi s) := by
  unfold execCoreSbClear
  repeat' (first | with_reducible assumption | with_reducible apply write32_same hW)

theorem execCoreSbSet_same {ps : List Part} {s0 : State} {i : Initiator} {c : Fin 96} {hi : W32} {s : State}
    (hW : Within [.freeCtr, .stamp, .csr, .shadow, .heldLow, .latchHigh, .quiet, .heldWrites, .evt, .rst, .pwr, .cores, .coreHeld, .triggers, .ephResults, .answers, .stks, .fast, .deep, .fastMark, .deepMark, .pages, .pageCache, .holders, .frameMap, .blocks, .frameCur, .blockCur, .slots, .migq, .sweep, .stalled, .stallFail, .plcCh, .plans, .plcFits, .plcRestoring, .nbus, .rowsInFlight, .rowAnswers, .dcache, .outbox, .rlys, .med, .links, .fabc, .hlk, .harts, .boot, .commit_] ps) (hK : SameBut ps s0 s) :
    OutSame ps s0 (execCoreSbSet i c hi s) := by
  unfold execCoreSbSet
  repeat' (first | with_reducible assumption | with_reducible apply write32_same hW)

theorem execAccTmodeWrite_same {ps : List Part} {s0 : State} {i : Initiator} {c : Fin 96} {hi : W32} {s : State}
    (hW : Within [.freeCtr, .stamp, .csr, .shadow, .heldLow, .latchHigh, .quiet, .heldWrites, .evt, .rst, .pwr, .cores, .coreHeld, .triggers, .ephResults, .answers, .stks, .fast, .deep, .fastMark, .deepMark, .pages, .pageCache, .holders, .frameMap, .blocks, .frameCur, .blockCur, .slots, .migq, .sweep, .stalled, .stallFail, .plcCh, .plans, .plcFits, .plcRestoring, .nbus, .rowsInFlight, .rowAnswers, .dcache, .outbox, .rlys, .med, .links, .fabc, .hlk, .harts, .boot, .commit_] ps) (hK : SameBut ps s0 s) :
    OutSame ps s0 (execAccTmodeWrite i c hi s) := by
  unfold execAccTmodeWrite
  repeat' (first | with_reducible assumption | with_reducible apply write32_same hW)

theorem execCoreInitDone_same {ps : List Part} {s0 : State} {c : Fin 96} {s : State}
    (hW : Within [.freeCtr, .stamp, .csr, .shadow, .heldLow, .latchHigh, .quiet, .heldWrites, .evt, .rst, .pwr, .cores, .coreHeld, .triggers, .ephResults, .answers, .stks, .fast, .deep, .fastMark, .deepMark, .pages, .pageCache, .holders, .frameMap, .blocks, .frameCur, .blockCur, .slots, .migq, .sweep, .stalled, .stallFail, .plcCh, .plans, .plcFits, .plcRestoring, .nbus, .rowsInFlight, .rowAnswers, .dcache, .outbox, .rlys, .med, .links, .fabc, .hlk, .harts, .boot, .commit_] ps) (hK : SameBut ps s0 s) :
    OutSame ps s0 (execCoreInitDone c s) := by
  have w1 : Within [.cores] ps := Within.trans (by decide +kernel) hW
  have w2 : Within [.coreHeld] ps := Within.trans (by decide +kernel) hW
  unfold execCoreInitDone
  repeat' (first | with_reducible assumption | with_reducible apply setCore_same w1
                  | with_reducible apply land_same hW | with_reducible apply outSame_next
                  | simp only [same_mk_coreHeld w2] | (with_reducible apply same_foldl; (try intros)) | split)

theorem execStrmPush_same {ps : List Part} {s0 : State} {i : Initiator} {c : Fin 96} {t : Fin 4} {hi : W32}
    {s : State}
    (hW : Within [.freeCtr, .stamp, .csr, .shadow, .heldLow, .latchHigh, .quiet, .heldWrites, .evt, .rst, .pwr, .cores, .coreHeld, .triggers, .ephResults, .answers, .stks, .fast, .deep, .fastMark, .deepMark, .pages, .pageCache, .holders, .frameMap, .blocks, .frameCur, .blockCur, .slots, .migq, .sweep, .stalled, .stallFail, .plcCh, .plans, .plcFits, .plcRestoring, .nbus, .rowsInFlight, .rowAnswers, .dcache, .outbox, .rlys, .med, .links, .fabc, .hlk, .harts, .boot, .commit_] ps) (hK : SameBut ps s0 s) :
    OutSame ps s0 (execStrmPush i c t hi s) := by
  unfold execStrmPush
  repeat' (first | with_reducible assumption | with_reducible apply write32_same hW)

theorem execStrmCancel_same {ps : List Part} {s0 : State} {i : Initiator} {c : Fin 96} {t : Fin 4} {s : State}
    (hW : Within [.freeCtr, .stamp, .csr, .shadow, .heldLow, .latchHigh, .quiet, .heldWrites, .evt, .rst, .pwr, .cores, .coreHeld, .triggers, .ephResults, .answers, .stks, .fast, .deep, .fastMark, .deepMark, .pages, .pageCache, .holders, .frameMap, .blocks, .frameCur, .blockCur, .slots, .migq, .sweep, .stalled, .stallFail, .plcCh, .plans, .plcFits, .plcRestoring, .nbus, .rowsInFlight, .rowAnswers, .dcache, .outbox, .rlys, .med, .links, .fabc, .hlk, .harts, .boot, .commit_] ps) (hK : SameBut ps s0 s) :
    OutSame ps s0 (execStrmCancel i c t s) := by
  unfold execStrmCancel
  repeat' (first | with_reducible assumption | with_reducible apply write32_same hW)

theorem execStrmFailClear_same {ps : List Part} {s0 : State} {i : Initiator} {c : Fin 96} {t : Fin 4} {s : State}
    (hW : Within [.freeCtr, .stamp, .csr, .shadow, .heldLow, .latchHigh, .quiet, .heldWrites, .evt, .rst, .pwr, .cores, .coreHeld, .triggers, .ephResults, .answers, .stks, .fast, .deep, .fastMark, .deepMark, .pages, .pageCache, .holders, .frameMap, .blocks, .frameCur, .blockCur, .slots, .migq, .sweep, .stalled, .stallFail, .plcCh, .plans, .plcFits, .plcRestoring, .nbus, .rowsInFlight, .rowAnswers, .dcache, .outbox, .rlys, .med, .links, .fabc, .hlk, .harts, .boot, .commit_] ps) (hK : SameBut ps s0 s) :
    OutSame ps s0 (execStrmFailClear i c t s) := by
  unfold execStrmFailClear
  repeat' (first | with_reducible assumption | with_reducible apply write32_same hW)

theorem execRowlogClr_same {ps : List Part} {s0 : State} {i : Initiator} {k : Fin 20} {s : State}
    (hW : Within [.freeCtr, .stamp, .csr, .shadow, .heldLow, .latchHigh, .quiet, .heldWrites, .evt, .rst, .pwr, .cores, .coreHeld, .triggers, .ephResults, .answers, .stks, .fast, .deep, .fastMark, .deepMark, .pages, .pageCache, .holders, .frameMap, .blocks, .frameCur, .blockCur, .slots, .migq, .sweep, .stalled, .stallFail, .plcCh, .plans, .plcFits, .plcRestoring, .nbus, .rowsInFlight, .rowAnswers, .dcache, .outbox, .rlys, .med, .links, .fabc, .hlk, .harts, .boot, .commit_] ps) (hK : SameBut ps s0 s) :
    OutSame ps s0 (execRowlogClr i k s) := by
  unfold execRowlogClr
  repeat' (first | with_reducible assumption | with_reducible apply write32_same hW)

theorem execErrCaptureClear_same {ps : List Part} {s0 : State} {i : Initiator} {k : Fin 20} {s : State}
    (hW : Within [.freeCtr, .stamp, .csr, .shadow, .heldLow, .latchHigh, .quiet, .heldWrites, .evt, .rst, .pwr, .cores, .coreHeld, .triggers, .ephResults, .answers, .stks, .fast, .deep, .fastMark, .deepMark, .pages, .pageCache, .holders, .frameMap, .blocks, .frameCur, .blockCur, .slots, .migq, .sweep, .stalled, .stallFail, .plcCh, .plans, .plcFits, .plcRestoring, .nbus, .rowsInFlight, .rowAnswers, .dcache, .outbox, .rlys, .med, .links, .fabc, .hlk, .harts, .boot, .commit_] ps) (hK : SameBut ps s0 s) :
    OutSame ps s0 (execErrCaptureClear i k s) := by
  unfold execErrCaptureClear
  repeat' (first | with_reducible assumption | with_reducible apply write32_same hW)

theorem plcWrite_same {ps : List Part} {s0 : State} {i : Initiator} {ch : Fin 4} {evt : Bool} {op : Nat} {s : State}
    (hW : Within [.freeCtr, .stamp, .csr, .shadow, .heldLow, .latchHigh, .quiet, .heldWrites, .evt, .rst, .pwr, .cores, .coreHeld, .triggers, .ephResults, .answers, .stks, .fast, .deep, .fastMark, .deepMark, .pages, .pageCache, .holders, .frameMap, .blocks, .frameCur, .blockCur, .slots, .migq, .sweep, .stalled, .stallFail, .plcCh, .plans, .plcFits, .plcRestoring, .nbus, .rowsInFlight, .rowAnswers, .dcache, .outbox, .rlys, .med, .links, .fabc, .hlk, .harts, .boot, .commit_] ps) (hK : SameBut ps s0 s) :
    OutSame ps s0 (plcWrite i ch evt op s) := by
  have w1 : Within [.answers] ps := Within.trans (by decide +kernel) hW
  unfold plcWrite
  repeat' (first | with_reducible assumption | with_reducible apply write32_same hW | simp only [same_mk_answers w1])

theorem execPlcRead_same {ps : List Part} {s0 : State} {i : Initiator} {ch : Fin 4} {evt : Bool} {s : State}
    (hW : Within [.freeCtr, .stamp, .csr, .shadow, .heldLow, .latchHigh, .quiet, .heldWrites, .evt, .rst, .pwr, .cores, .coreHeld, .triggers, .ephResults, .answers, .stks, .fast, .deep, .fastMark, .deepMark, .pages, .pageCache, .holders, .frameMap, .blocks, .frameCur, .blockCur, .slots, .migq, .sweep, .stalled, .stallFail, .plcCh, .plans, .plcFits, .plcRestoring, .nbus, .rowsInFlight, .rowAnswers, .dcache, .outbox, .rlys, .med, .links, .fabc, .hlk, .harts, .boot, .commit_] ps) (hK : SameBut ps s0 s) :
    OutSame ps s0 (execPlcRead i ch evt s) := by
  unfold execPlcRead
  repeat' (first | with_reducible assumption | with_reducible apply plcWrite_same hW)

theorem execPlcMap_same {ps : List Part} {s0 : State} {i : Initiator} {ch : Fin 4} {evt : Bool} {s : State}
    (hW : Within [.freeCtr, .stamp, .csr, .shadow, .heldLow, .latchHigh, .quiet, .heldWrites, .evt, .rst, .pwr, .cores, .coreHeld, .triggers, .ephResults, .answers, .stks, .fast, .deep, .fastMark, .deepMark, .pages, .pageCache, .holders, .frameMap, .blocks, .frameCur, .blockCur, .slots, .migq, .sweep, .stalled, .stallFail, .plcCh, .plans, .plcFits, .plcRestoring, .nbus, .rowsInFlight, .rowAnswers, .dcache, .outbox, .rlys, .med, .links, .fabc, .hlk, .harts, .boot, .commit_] ps) (hK : SameBut ps s0 s) :
    OutSame ps s0 (execPlcMap i ch evt s) := by
  unfold execPlcMap
  repeat' (first | with_reducible assumption | with_reducible apply plcWrite_same hW)

theorem execPlcUnmap_same {ps : List Part} {s0 : State} {i : Initiator} {ch : Fin 4} {evt : Bool} {s : State}
    (hW : Within [.freeCtr, .stamp, .csr, .shadow, .heldLow, .latchHigh, .quiet, .heldWrites, .evt, .rst, .pwr, .cores, .coreHeld, .triggers, .ephResults, .answers, .stks, .fast, .deep, .fastMark, .deepMark, .pages, .pageCache, .holders, .frameMap, .blocks, .frameCur, .blockCur, .slots, .migq, .sweep, .stalled, .stallFail, .plcCh, .plans, .plcFits, .plcRestoring, .nbus, .rowsInFlight, .rowAnswers, .dcache, .outbox, .rlys, .med, .links, .fabc, .hlk, .harts, .boot, .commit_] ps) (hK : SameBut ps s0 s) :
    OutSame ps s0 (execPlcUnmap i ch evt s) := by
  unfold execPlcUnmap
  repeat' (first | with_reducible assumption | with_reducible apply plcWrite_same hW)

theorem execPlcSetAttr_same {ps : List Part} {s0 : State} {i : Initiator} {ch : Fin 4} {evt : Bool} {s : State}
    (hW : Within [.freeCtr, .stamp, .csr, .shadow, .heldLow, .latchHigh, .quiet, .heldWrites, .evt, .rst, .pwr, .cores, .coreHeld, .triggers, .ephResults, .answers, .stks, .fast, .deep, .fastMark, .deepMark, .pages, .pageCache, .holders, .frameMap, .blocks, .frameCur, .blockCur, .slots, .migq, .sweep, .stalled, .stallFail, .plcCh, .plans, .plcFits, .plcRestoring, .nbus, .rowsInFlight, .rowAnswers, .dcache, .outbox, .rlys, .med, .links, .fabc, .hlk, .harts, .boot, .commit_] ps) (hK : SameBut ps s0 s) :
    OutSame ps s0 (execPlcSetAttr i ch evt s) := by
  unfold execPlcSetAttr
  repeat' (first | with_reducible assumption | with_reducible apply plcWrite_same hW)

theorem execPlcPromote_same {ps : List Part} {s0 : State} {i : Initiator} {ch : Fin 4} {evt : Bool} {s : State}
    (hW : Within [.freeCtr, .stamp, .csr, .shadow, .heldLow, .latchHigh, .quiet, .heldWrites, .evt, .rst, .pwr, .cores, .coreHeld, .triggers, .ephResults, .answers, .stks, .fast, .deep, .fastMark, .deepMark, .pages, .pageCache, .holders, .frameMap, .blocks, .frameCur, .blockCur, .slots, .migq, .sweep, .stalled, .stallFail, .plcCh, .plans, .plcFits, .plcRestoring, .nbus, .rowsInFlight, .rowAnswers, .dcache, .outbox, .rlys, .med, .links, .fabc, .hlk, .harts, .boot, .commit_] ps) (hK : SameBut ps s0 s) :
    OutSame ps s0 (execPlcPromote i ch evt s) := by
  unfold execPlcPromote
  repeat' (first | with_reducible assumption | with_reducible apply plcWrite_same hW)

theorem execPlcDemote_same {ps : List Part} {s0 : State} {i : Initiator} {ch : Fin 4} {evt : Bool} {s : State}
    (hW : Within [.freeCtr, .stamp, .csr, .shadow, .heldLow, .latchHigh, .quiet, .heldWrites, .evt, .rst, .pwr, .cores, .coreHeld, .triggers, .ephResults, .answers, .stks, .fast, .deep, .fastMark, .deepMark, .pages, .pageCache, .holders, .frameMap, .blocks, .frameCur, .blockCur, .slots, .migq, .sweep, .stalled, .stallFail, .plcCh, .plans, .plcFits, .plcRestoring, .nbus, .rowsInFlight, .rowAnswers, .dcache, .outbox, .rlys, .med, .links, .fabc, .hlk, .harts, .boot, .commit_] ps) (hK : SameBut ps s0 s) :
    OutSame ps s0 (execPlcDemote i ch evt s) := by
  unfold execPlcDemote
  repeat' (first | with_reducible assumption | with_reducible apply plcWrite_same hW)

theorem execPlcFlush_same {ps : List Part} {s0 : State} {i : Initiator} {ch : Fin 4} {evt : Bool} {s : State}
    (hW : Within [.freeCtr, .stamp, .csr, .shadow, .heldLow, .latchHigh, .quiet, .heldWrites, .evt, .rst, .pwr, .cores, .coreHeld, .triggers, .ephResults, .answers, .stks, .fast, .deep, .fastMark, .deepMark, .pages, .pageCache, .holders, .frameMap, .blocks, .frameCur, .blockCur, .slots, .migq, .sweep, .stalled, .stallFail, .plcCh, .plans, .plcFits, .plcRestoring, .nbus, .rowsInFlight, .rowAnswers, .dcache, .outbox, .rlys, .med, .links, .fabc, .hlk, .harts, .boot, .commit_] ps) (hK : SameBut ps s0 s) :
    OutSame ps s0 (execPlcFlush i ch evt s) := by
  unfold execPlcFlush
  repeat' (first | with_reducible assumption | with_reducible apply plcWrite_same hW)

theorem execPlcHome_same {ps : List Part} {s0 : State} {i : Initiator} {ch : Fin 4} {evt : Bool} {s : State}
    (hW : Within [.freeCtr, .stamp, .csr, .shadow, .heldLow, .latchHigh, .quiet, .heldWrites, .evt, .rst, .pwr, .cores, .coreHeld, .triggers, .ephResults, .answers, .stks, .fast, .deep, .fastMark, .deepMark, .pages, .pageCache, .holders, .frameMap, .blocks, .frameCur, .blockCur, .slots, .migq, .sweep, .stalled, .stallFail, .plcCh, .plans, .plcFits, .plcRestoring, .nbus, .rowsInFlight, .rowAnswers, .dcache, .outbox, .rlys, .med, .links, .fabc, .hlk, .harts, .boot, .commit_] ps) (hK : SameBut ps s0 s) :
    OutSame ps s0 (execPlcHome i ch evt s) := by
  unfold execPlcHome
  repeat' (first | with_reducible assumption | with_reducible apply plcWrite_same hW)

theorem execPlcRelocate_same {ps : List Part} {s0 : State} {i : Initiator} {ch : Fin 4} {evt : Bool} {s : State}
    (hW : Within [.freeCtr, .stamp, .csr, .shadow, .heldLow, .latchHigh, .quiet, .heldWrites, .evt, .rst, .pwr, .cores, .coreHeld, .triggers, .ephResults, .answers, .stks, .fast, .deep, .fastMark, .deepMark, .pages, .pageCache, .holders, .frameMap, .blocks, .frameCur, .blockCur, .slots, .migq, .sweep, .stalled, .stallFail, .plcCh, .plans, .plcFits, .plcRestoring, .nbus, .rowsInFlight, .rowAnswers, .dcache, .outbox, .rlys, .med, .links, .fabc, .hlk, .harts, .boot, .commit_] ps) (hK : SameBut ps s0 s) :
    OutSame ps s0 (execPlcRelocate i ch evt s) := by
  unfold execPlcRelocate
  repeat' (first | with_reducible assumption | with_reducible apply plcWrite_same hW)

theorem execPlcRetire_same {ps : List Part} {s0 : State} {i : Initiator} {ch : Fin 4} {evt : Bool} {s : State}
    (hW : Within [.freeCtr, .stamp, .csr, .shadow, .heldLow, .latchHigh, .quiet, .heldWrites, .evt, .rst, .pwr, .cores, .coreHeld, .triggers, .ephResults, .answers, .stks, .fast, .deep, .fastMark, .deepMark, .pages, .pageCache, .holders, .frameMap, .blocks, .frameCur, .blockCur, .slots, .migq, .sweep, .stalled, .stallFail, .plcCh, .plans, .plcFits, .plcRestoring, .nbus, .rowsInFlight, .rowAnswers, .dcache, .outbox, .rlys, .med, .links, .fabc, .hlk, .harts, .boot, .commit_] ps) (hK : SameBut ps s0 s) :
    OutSame ps s0 (execPlcRetire i ch evt s) := by
  unfold execPlcRetire
  repeat' (first | with_reducible assumption | with_reducible apply plcWrite_same hW)

theorem execPlcRelease_same {ps : List Part} {s0 : State} {i : Initiator} {ch : Fin 4} {evt : Bool} {s : State}
    (hW : Within [.freeCtr, .stamp, .csr, .shadow, .heldLow, .latchHigh, .quiet, .heldWrites, .evt, .rst, .pwr, .cores, .coreHeld, .triggers, .ephResults, .answers, .stks, .fast, .deep, .fastMark, .deepMark, .pages, .pageCache, .holders, .frameMap, .blocks, .frameCur, .blockCur, .slots, .migq, .sweep, .stalled, .stallFail, .plcCh, .plans, .plcFits, .plcRestoring, .nbus, .rowsInFlight, .rowAnswers, .dcache, .outbox, .rlys, .med, .links, .fabc, .hlk, .harts, .boot, .commit_] ps) (hK : SameBut ps s0 s) :
    OutSame ps s0 (execPlcRelease i ch evt s) := by
  unfold execPlcRelease
  repeat' (first | with_reducible assumption | with_reducible apply plcWrite_same hW)

theorem execPlcRebuild_same {ps : List Part} {s0 : State} {i : Initiator} {ch : Fin 4} {evt : Bool} {s : State}
    (hW : Within [.freeCtr, .stamp, .csr, .shadow, .heldLow, .latchHigh, .quiet, .heldWrites, .evt, .rst, .pwr, .cores, .coreHeld, .triggers, .ephResults, .answers, .stks, .fast, .deep, .fastMark, .deepMark, .pages, .pageCache, .holders, .frameMap, .blocks, .frameCur, .blockCur, .slots, .migq, .sweep, .stalled, .stallFail, .plcCh, .plans, .plcFits, .plcRestoring, .nbus, .rowsInFlight, .rowAnswers, .dcache, .outbox, .rlys, .med, .links, .fabc, .hlk, .harts, .boot, .commit_] ps) (hK : SameBut ps s0 s) :
    OutSame ps s0 (execPlcRebuild i ch evt s) := by
  unfold execPlcRebuild
  repeat' (first | with_reducible assumption | with_reducible apply plcWrite_same hW)

theorem execEphLoad_same {ps : List Part} {s0 : State} {i : Initiator} {ch : Fin 4} {evt : Bool} {s : State}
    (hW : Within [.freeCtr, .stamp, .csr, .shadow, .heldLow, .latchHigh, .quiet, .heldWrites, .evt, .rst, .pwr, .cores, .coreHeld, .triggers, .ephResults, .answers, .stks, .fast, .deep, .fastMark, .deepMark, .pages, .pageCache, .holders, .frameMap, .blocks, .frameCur, .blockCur, .slots, .migq, .sweep, .stalled, .stallFail, .plcCh, .plans, .plcFits, .plcRestoring, .nbus, .rowsInFlight, .rowAnswers, .dcache, .outbox, .rlys, .med, .links, .fabc, .hlk, .harts, .boot, .commit_] ps) (hK : SameBut ps s0 s) :
    OutSame ps s0 (execEphLoad i ch evt s) := by
  unfold execEphLoad
  repeat' (first | with_reducible assumption | with_reducible apply plcWrite_same hW)

theorem execEphArm_same {ps : List Part} {s0 : State} {i : Initiator} {ch : Fin 4} {evt : Bool} {s : State}
    (hW : Within [.freeCtr, .stamp, .csr, .shadow, .heldLow, .latchHigh, .quiet, .heldWrites, .evt, .rst, .pwr, .cores, .coreHeld, .triggers, .ephResults, .answers, .stks, .fast, .deep, .fastMark, .deepMark, .pages, .pageCache, .holders, .frameMap, .blocks, .frameCur, .blockCur, .slots, .migq, .sweep, .stalled, .stallFail, .plcCh, .plans, .plcFits, .plcRestoring, .nbus, .rowsInFlight, .rowAnswers, .dcache, .outbox, .rlys, .med, .links, .fabc, .hlk, .harts, .boot, .commit_] ps) (hK : SameBut ps s0 s) :
    OutSame ps s0 (execEphArm i ch evt s) := by
  unfold execEphArm
  repeat' (first | with_reducible assumption | with_reducible apply plcWrite_same hW)

theorem execEphDisarm_same {ps : List Part} {s0 : State} {i : Initiator} {ch : Fin 4} {evt : Bool} {s : State}
    (hW : Within [.freeCtr, .stamp, .csr, .shadow, .heldLow, .latchHigh, .quiet, .heldWrites, .evt, .rst, .pwr, .cores, .coreHeld, .triggers, .ephResults, .answers, .stks, .fast, .deep, .fastMark, .deepMark, .pages, .pageCache, .holders, .frameMap, .blocks, .frameCur, .blockCur, .slots, .migq, .sweep, .stalled, .stallFail, .plcCh, .plans, .plcFits, .plcRestoring, .nbus, .rowsInFlight, .rowAnswers, .dcache, .outbox, .rlys, .med, .links, .fabc, .hlk, .harts, .boot, .commit_] ps) (hK : SameBut ps s0 s) :
    OutSame ps s0 (execEphDisarm i ch evt s) := by
  unfold execEphDisarm
  repeat' (first | with_reducible assumption | with_reducible apply plcWrite_same hW)

theorem execEphUnload_same {ps : List Part} {s0 : State} {i : Initiator} {ch : Fin 4} {evt : Bool} {s : State}
    (hW : Within [.freeCtr, .stamp, .csr, .shadow, .heldLow, .latchHigh, .quiet, .heldWrites, .evt, .rst, .pwr, .cores, .coreHeld, .triggers, .ephResults, .answers, .stks, .fast, .deep, .fastMark, .deepMark, .pages, .pageCache, .holders, .frameMap, .blocks, .frameCur, .blockCur, .slots, .migq, .sweep, .stalled, .stallFail, .plcCh, .plans, .plcFits, .plcRestoring, .nbus, .rowsInFlight, .rowAnswers, .dcache, .outbox, .rlys, .med, .links, .fabc, .hlk, .harts, .boot, .commit_] ps) (hK : SameBut ps s0 s) :
    OutSame ps s0 (execEphUnload i ch evt s) := by
  unfold execEphUnload
  repeat' (first | with_reducible assumption | with_reducible apply plcWrite_same hW)

theorem nbuWrite_same {ps : List Part} {s0 : State} {i : Initiator} {n : Fin 48} {evt : Bool} {op : Nat} {s : State}
    (hW : Within [.freeCtr, .stamp, .csr, .shadow, .heldLow, .latchHigh, .quiet, .heldWrites, .evt, .rst, .pwr, .cores, .coreHeld, .triggers, .ephResults, .answers, .stks, .fast, .deep, .fastMark, .deepMark, .pages, .pageCache, .holders, .frameMap, .blocks, .frameCur, .blockCur, .slots, .migq, .sweep, .stalled, .stallFail, .plcCh, .plans, .plcFits, .plcRestoring, .nbus, .rowsInFlight, .rowAnswers, .dcache, .outbox, .rlys, .med, .links, .fabc, .hlk, .harts, .boot, .commit_] ps) (hK : SameBut ps s0 s) :
    OutSame ps s0 (nbuWrite i n evt op s) := by
  unfold nbuWrite
  repeat' (first | with_reducible assumption | with_reducible apply write32_same hW)

theorem execProgLoad_same {ps : List Part} {s0 : State} {i : Initiator} {n : Fin 48} {evt : Bool} {s : State}
    (hW : Within [.freeCtr, .stamp, .csr, .shadow, .heldLow, .latchHigh, .quiet, .heldWrites, .evt, .rst, .pwr, .cores, .coreHeld, .triggers, .ephResults, .answers, .stks, .fast, .deep, .fastMark, .deepMark, .pages, .pageCache, .holders, .frameMap, .blocks, .frameCur, .blockCur, .slots, .migq, .sweep, .stalled, .stallFail, .plcCh, .plans, .plcFits, .plcRestoring, .nbus, .rowsInFlight, .rowAnswers, .dcache, .outbox, .rlys, .med, .links, .fabc, .hlk, .harts, .boot, .commit_] ps) (hK : SameBut ps s0 s) :
    OutSame ps s0 (execProgLoad i n evt s) := by
  unfold execProgLoad
  repeat' (first | with_reducible assumption | with_reducible apply nbuWrite_same hW)

theorem execBindLoad_same {ps : List Part} {s0 : State} {i : Initiator} {n : Fin 48} {evt : Bool} {s : State}
    (hW : Within [.freeCtr, .stamp, .csr, .shadow, .heldLow, .latchHigh, .quiet, .heldWrites, .evt, .rst, .pwr, .cores, .coreHeld, .triggers, .ephResults, .answers, .stks, .fast, .deep, .fastMark, .deepMark, .pages, .pageCache, .holders, .frameMap, .blocks, .frameCur, .blockCur, .slots, .migq, .sweep, .stalled, .stallFail, .plcCh, .plans, .plcFits, .plcRestoring, .nbus, .rowsInFlight, .rowAnswers, .dcache, .outbox, .rlys, .med, .links, .fabc, .hlk, .harts, .boot, .commit_] ps) (hK : SameBut ps s0 s) :
    OutSame ps s0 (execBindLoad i n evt s) := by
  unfold execBindLoad
  repeat' (first | with_reducible assumption | with_reducible apply nbuWrite_same hW)

theorem execBindClear_same {ps : List Part} {s0 : State} {i : Initiator} {n : Fin 48} {evt : Bool} {s : State}
    (hW : Within [.freeCtr, .stamp, .csr, .shadow, .heldLow, .latchHigh, .quiet, .heldWrites, .evt, .rst, .pwr, .cores, .coreHeld, .triggers, .ephResults, .answers, .stks, .fast, .deep, .fastMark, .deepMark, .pages, .pageCache, .holders, .frameMap, .blocks, .frameCur, .blockCur, .slots, .migq, .sweep, .stalled, .stallFail, .plcCh, .plans, .plcFits, .plcRestoring, .nbus, .rowsInFlight, .rowAnswers, .dcache, .outbox, .rlys, .med, .links, .fabc, .hlk, .harts, .boot, .commit_] ps) (hK : SameBut ps s0 s) :
    OutSame ps s0 (execBindClear i n evt s) := by
  unfold execBindClear
  repeat' (first | with_reducible assumption | with_reducible apply nbuWrite_same hW)

theorem execJob_same {ps : List Part} {s0 : State} {i : Initiator} {n : Fin 48} {evt : Bool} {s : State}
    (hW : Within [.freeCtr, .stamp, .csr, .shadow, .heldLow, .latchHigh, .quiet, .heldWrites, .evt, .rst, .pwr, .cores, .coreHeld, .triggers, .ephResults, .answers, .stks, .fast, .deep, .fastMark, .deepMark, .pages, .pageCache, .holders, .frameMap, .blocks, .frameCur, .blockCur, .slots, .migq, .sweep, .stalled, .stallFail, .plcCh, .plans, .plcFits, .plcRestoring, .nbus, .rowsInFlight, .rowAnswers, .dcache, .outbox, .rlys, .med, .links, .fabc, .hlk, .harts, .boot, .commit_] ps) (hK : SameBut ps s0 s) :
    OutSame ps s0 (execJob i n evt s) := by
  unfold execJob
  repeat' (first | with_reducible assumption | with_reducible apply nbuWrite_same hW)

theorem execAudit_same {ps : List Part} {s0 : State} {i : Initiator} {n : Fin 48} {evt : Bool} {s : State}
    (hW : Within [.freeCtr, .stamp, .csr, .shadow, .heldLow, .latchHigh, .quiet, .heldWrites, .evt, .rst, .pwr, .cores, .coreHeld, .triggers, .ephResults, .answers, .stks, .fast, .deep, .fastMark, .deepMark, .pages, .pageCache, .holders, .frameMap, .blocks, .frameCur, .blockCur, .slots, .migq, .sweep, .stalled, .stallFail, .plcCh, .plans, .plcFits, .plcRestoring, .nbus, .rowsInFlight, .rowAnswers, .dcache, .outbox, .rlys, .med, .links, .fabc, .hlk, .harts, .boot, .commit_] ps) (hK : SameBut ps s0 s) :
    OutSame ps s0 (execAudit i n evt s) := by
  unfold execAudit
  repeat' (first | with_reducible assumption | with_reducible apply nbuWrite_same hW)

theorem execTranspose_same {ps : List Part} {s0 : State} {i : Initiator} {n : Fin 48} {evt : Bool} {s : State}
    (hW : Within [.freeCtr, .stamp, .csr, .shadow, .heldLow, .latchHigh, .quiet, .heldWrites, .evt, .rst, .pwr, .cores, .coreHeld, .triggers, .ephResults, .answers, .stks, .fast, .deep, .fastMark, .deepMark, .pages, .pageCache, .holders, .frameMap, .blocks, .frameCur, .blockCur, .slots, .migq, .sweep, .stalled, .stallFail, .plcCh, .plans, .plcFits, .plcRestoring, .nbus, .rowsInFlight, .rowAnswers, .dcache, .outbox, .rlys, .med, .links, .fabc, .hlk, .harts, .boot, .commit_] ps) (hK : SameBut ps s0 s) :
    OutSame ps s0 (execTranspose i n evt s) := by
  unfold execTranspose
  repeat' (first | with_reducible assumption | with_reducible apply nbuWrite_same hW)

theorem execSeqReset_same {ps : List Part} {s0 : State} {i : Initiator} {n : Fin 48} {evt : Bool} {s : State}
    (hW : Within [.freeCtr, .stamp, .csr, .shadow, .heldLow, .latchHigh, .quiet, .heldWrites, .evt, .rst, .pwr, .cores, .coreHeld, .triggers, .ephResults, .answers, .stks, .fast, .deep, .fastMark, .deepMark, .pages, .pageCache, .holders, .frameMap, .blocks, .frameCur, .blockCur, .slots, .migq, .sweep, .stalled, .stallFail, .plcCh, .plans, .plcFits, .plcRestoring, .nbus, .rowsInFlight, .rowAnswers, .dcache, .outbox, .rlys, .med, .links, .fabc, .hlk, .harts, .boot, .commit_] ps) (hK : SameBut ps s0 s) :
    OutSame ps s0 (execSeqReset i n evt s) := by
  unfold execSeqReset
  repeat' (first | with_reducible assumption | with_reducible apply nbuWrite_same hW)

theorem execRlySqPiWrite_same {ps : List Part} {s0 : State} {i : Initiator} {e : Fin 2} {q : Fin 16} {v : W32}
    {s : State}
    (hW : Within [.freeCtr, .stamp, .csr, .shadow, .heldLow, .latchHigh, .quiet, .heldWrites, .evt, .rst, .pwr, .cores, .coreHeld, .triggers, .ephResults, .answers, .stks, .fast, .deep, .fastMark, .deepMark, .pages, .pageCache, .holders, .frameMap, .blocks, .frameCur, .blockCur, .slots, .migq, .sweep, .stalled, .stallFail, .plcCh, .plans, .plcFits, .plcRestoring, .nbus, .rowsInFlight, .rowAnswers, .dcache, .outbox, .rlys, .med, .links, .fabc, .hlk, .harts, .boot, .commit_] ps) (hK : SameBut ps s0 s) :
    OutSame ps s0 (execRlySqPiWrite i e q v s) := by
  unfold execRlySqPiWrite
  repeat' (first | with_reducible assumption | with_reducible apply write32_same hW)

theorem execRlyRbPiWrite_same {ps : List Part} {s0 : State} {i : Initiator} {e : Fin 2} {v : W32} {s : State}
    (hW : Within [.freeCtr, .stamp, .csr, .shadow, .heldLow, .latchHigh, .quiet, .heldWrites, .evt, .rst, .pwr, .cores, .coreHeld, .triggers, .ephResults, .answers, .stks, .fast, .deep, .fastMark, .deepMark, .pages, .pageCache, .holders, .frameMap, .blocks, .frameCur, .blockCur, .slots, .migq, .sweep, .stalled, .stallFail, .plcCh, .plans, .plcFits, .plcRestoring, .nbus, .rowsInFlight, .rowAnswers, .dcache, .outbox, .rlys, .med, .links, .fabc, .hlk, .harts, .boot, .commit_] ps) (hK : SameBut ps s0 s) :
    OutSame ps s0 (execRlyRbPiWrite i e v s) := by
  unfold execRlyRbPiWrite
  repeat' (first | with_reducible assumption | with_reducible apply write32_same hW)

theorem execMedSqPiWrite_same {ps : List Part} {s0 : State} {i : Initiator} {r : Fin 8} {v : W32} {s : State}
    (hW : Within [.freeCtr, .stamp, .csr, .shadow, .heldLow, .latchHigh, .quiet, .heldWrites, .evt, .rst, .pwr, .cores, .coreHeld, .triggers, .ephResults, .answers, .stks, .fast, .deep, .fastMark, .deepMark, .pages, .pageCache, .holders, .frameMap, .blocks, .frameCur, .blockCur, .slots, .migq, .sweep, .stalled, .stallFail, .plcCh, .plans, .plcFits, .plcRestoring, .nbus, .rowsInFlight, .rowAnswers, .dcache, .outbox, .rlys, .med, .links, .fabc, .hlk, .harts, .boot, .commit_] ps) (hK : SameBut ps s0 s) :
    OutSame ps s0 (execMedSqPiWrite i r v s) := by
  unfold execMedSqPiWrite
  repeat' (first | with_reducible assumption | with_reducible apply write32_same hW)

theorem execLinkEnable_same {ps : List Part} {s0 : State} {i : Initiator} {l : Fin 24} {v : W32} {s : State}
    (hW : Within [.freeCtr, .stamp, .csr, .shadow, .heldLow, .latchHigh, .quiet, .heldWrites, .evt, .rst, .pwr, .cores, .coreHeld, .triggers, .ephResults, .answers, .stks, .fast, .deep, .fastMark, .deepMark, .pages, .pageCache, .holders, .frameMap, .blocks, .frameCur, .blockCur, .slots, .migq, .sweep, .stalled, .stallFail, .plcCh, .plans, .plcFits, .plcRestoring, .nbus, .rowsInFlight, .rowAnswers, .dcache, .outbox, .rlys, .med, .links, .fabc, .hlk, .harts, .boot, .commit_] ps) (hK : SameBut ps s0 s) :
    OutSame ps s0 (execLinkEnable i l v s) := by
  unfold execLinkEnable
  repeat' (first | with_reducible assumption | with_reducible apply write32_same hW)

theorem execLinkAdmit_same {ps : List Part} {s0 : State} {i : Initiator} {l : Fin 24} {v : W32} {s : State}
    (hW : Within [.freeCtr, .stamp, .csr, .shadow, .heldLow, .latchHigh, .quiet, .heldWrites, .evt, .rst, .pwr, .cores, .coreHeld, .triggers, .ephResults, .answers, .stks, .fast, .deep, .fastMark, .deepMark, .pages, .pageCache, .holders, .frameMap, .blocks, .frameCur, .blockCur, .slots, .migq, .sweep, .stalled, .stallFail, .plcCh, .plans, .plcFits, .plcRestoring, .nbus, .rowsInFlight, .rowAnswers, .dcache, .outbox, .rlys, .med, .links, .fabc, .hlk, .harts, .boot, .commit_] ps) (hK : SameBut ps s0 s) :
    OutSame ps s0 (execLinkAdmit i l v s) := by
  unfold execLinkAdmit
  repeat' (first | with_reducible assumption | with_reducible apply write32_same hW)

theorem execLinkRetrain_same {ps : List Part} {s0 : State} {i : Initiator} {l : Fin 25} {s : State}
    (hW : Within [.freeCtr, .stamp, .csr, .shadow, .heldLow, .latchHigh, .quiet, .heldWrites, .evt, .rst, .pwr, .cores, .coreHeld, .triggers, .ephResults, .answers, .stks, .fast, .deep, .fastMark, .deepMark, .pages, .pageCache, .holders, .frameMap, .blocks, .frameCur, .blockCur, .slots, .migq, .sweep, .stalled, .stallFail, .plcCh, .plans, .plcFits, .plcRestoring, .nbus, .rowsInFlight, .rowAnswers, .dcache, .outbox, .rlys, .med, .links, .fabc, .hlk, .harts, .boot, .commit_] ps) (hK : SameBut ps s0 s) :
    OutSame ps s0 (execLinkRetrain i l s) := by
  unfold execLinkRetrain
  repeat' (first | with_reducible assumption | with_reducible apply write32_same hW)

theorem execFabcMgmtPush_same {ps : List Part} {s0 : State} {i : Initiator} {hi : W32} {s : State}
    (hW : Within [.freeCtr, .stamp, .csr, .shadow, .heldLow, .latchHigh, .quiet, .heldWrites, .evt, .rst, .pwr, .cores, .coreHeld, .triggers, .ephResults, .answers, .stks, .fast, .deep, .fastMark, .deepMark, .pages, .pageCache, .holders, .frameMap, .blocks, .frameCur, .blockCur, .slots, .migq, .sweep, .stalled, .stallFail, .plcCh, .plans, .plcFits, .plcRestoring, .nbus, .rowsInFlight, .rowAnswers, .dcache, .outbox, .rlys, .med, .links, .fabc, .hlk, .harts, .boot, .commit_] ps) (hK : SameBut ps s0 s) :
    OutSame ps s0 (execFabcMgmtPush i hi s) := by
  unfold execFabcMgmtPush
  repeat' (first | with_reducible assumption | with_reducible apply write32_same hW)

theorem execRouteBankSwitch_same {ps : List Part} {s0 : State} {i : Initiator} {s : State}
    (hW : Within [.freeCtr, .stamp, .csr, .shadow, .heldLow, .latchHigh, .quiet, .heldWrites, .evt, .rst, .pwr, .cores, .coreHeld, .triggers, .ephResults, .answers, .stks, .fast, .deep, .fastMark, .deepMark, .pages, .pageCache, .holders, .frameMap, .blocks, .frameCur, .blockCur, .slots, .migq, .sweep, .stalled, .stallFail, .plcCh, .plans, .plcFits, .plcRestoring, .nbus, .rowsInFlight, .rowAnswers, .dcache, .outbox, .rlys, .med, .links, .fabc, .hlk, .harts, .boot, .commit_] ps) (hK : SameBut ps s0 s) :
    OutSame ps s0 (execRouteBankSwitch i s) := by
  unfold execRouteBankSwitch
  repeat' (first | with_reducible assumption | with_reducible apply write32_same hW)

theorem jrnlWrite_same {ps : List Part} {s0 : State} {i : Initiator} {dev : Nat} {op : Nat} {s : State}
    (hW : Within [.freeCtr, .stamp, .csr, .shadow, .heldLow, .latchHigh, .quiet, .heldWrites, .evt, .rst, .pwr, .cores, .coreHeld, .triggers, .ephResults, .answers, .stks, .fast, .deep, .fastMark, .deepMark, .pages, .pageCache, .holders, .frameMap, .blocks, .frameCur, .blockCur, .slots, .migq, .sweep, .stalled, .stallFail, .plcCh, .plans, .plcFits, .plcRestoring, .nbus, .rowsInFlight, .rowAnswers, .dcache, .outbox, .rlys, .med, .links, .fabc, .hlk, .harts, .boot, .commit_] ps) (hK : SameBut ps s0 s) :
    OutSame ps s0 (jrnlWrite i dev op s) := by
  unfold jrnlWrite
  repeat' (first | with_reducible assumption | with_reducible apply write32_same hW)

theorem execJrnlExport_same {ps : List Part} {s0 : State} {i : Initiator} {dev : Nat} {s : State}
    (hW : Within [.freeCtr, .stamp, .csr, .shadow, .heldLow, .latchHigh, .quiet, .heldWrites, .evt, .rst, .pwr, .cores, .coreHeld, .triggers, .ephResults, .answers, .stks, .fast, .deep, .fastMark, .deepMark, .pages, .pageCache, .holders, .frameMap, .blocks, .frameCur, .blockCur, .slots, .migq, .sweep, .stalled, .stallFail, .plcCh, .plans, .plcFits, .plcRestoring, .nbus, .rowsInFlight, .rowAnswers, .dcache, .outbox, .rlys, .med, .links, .fabc, .hlk, .harts, .boot, .commit_] ps) (hK : SameBut ps s0 s) :
    OutSame ps s0 (execJrnlExport i dev s) := by
  unfold execJrnlExport
  repeat' (first | with_reducible assumption | with_reducible apply jrnlWrite_same hW)

theorem execJrnlRevert_same {ps : List Part} {s0 : State} {i : Initiator} {dev : Nat} {s : State}
    (hW : Within [.freeCtr, .stamp, .csr, .shadow, .heldLow, .latchHigh, .quiet, .heldWrites, .evt, .rst, .pwr, .cores, .coreHeld, .triggers, .ephResults, .answers, .stks, .fast, .deep, .fastMark, .deepMark, .pages, .pageCache, .holders, .frameMap, .blocks, .frameCur, .blockCur, .slots, .migq, .sweep, .stalled, .stallFail, .plcCh, .plans, .plcFits, .plcRestoring, .nbus, .rowsInFlight, .rowAnswers, .dcache, .outbox, .rlys, .med, .links, .fabc, .hlk, .harts, .boot, .commit_] ps) (hK : SameBut ps s0 s) :
    OutSame ps s0 (execJrnlRevert i dev s) := by
  unfold execJrnlRevert
  repeat' (first | with_reducible assumption | with_reducible apply jrnlWrite_same hW)

theorem execJrnlForget_same {ps : List Part} {s0 : State} {i : Initiator} {dev : Nat} {s : State}
    (hW : Within [.freeCtr, .stamp, .csr, .shadow, .heldLow, .latchHigh, .quiet, .heldWrites, .evt, .rst, .pwr, .cores, .coreHeld, .triggers, .ephResults, .answers, .stks, .fast, .deep, .fastMark, .deepMark, .pages, .pageCache, .holders, .frameMap, .blocks, .frameCur, .blockCur, .slots, .migq, .sweep, .stalled, .stallFail, .plcCh, .plans, .plcFits, .plcRestoring, .nbus, .rowsInFlight, .rowAnswers, .dcache, .outbox, .rlys, .med, .links, .fabc, .hlk, .harts, .boot, .commit_] ps) (hK : SameBut ps s0 s) :
    OutSame ps s0 (execJrnlForget i dev s) := by
  unfold execJrnlForget
  repeat' (first | with_reducible assumption | with_reducible apply jrnlWrite_same hW)

theorem execHostAttach_same {ps : List Part} {s0 : State} {i : Initiator} {key : BitVec 16} {s : State}
    (hW : Within [.freeCtr, .stamp, .csr, .shadow, .heldLow, .latchHigh, .quiet, .heldWrites, .evt, .rst, .pwr, .cores, .coreHeld, .triggers, .ephResults, .answers, .stks, .fast, .deep, .fastMark, .deepMark, .pages, .pageCache, .holders, .frameMap, .blocks, .frameCur, .blockCur, .slots, .migq, .sweep, .stalled, .stallFail, .plcCh, .plans, .plcFits, .plcRestoring, .nbus, .rowsInFlight, .rowAnswers, .dcache, .outbox, .rlys, .med, .links, .fabc, .hlk, .harts, .boot, .commit_] ps) (hK : SameBut ps s0 s) :
    OutSame ps s0 (execHostAttach i key s) := by
  unfold execHostAttach
  repeat' (first | with_reducible assumption | with_reducible apply write32_same hW)

theorem execHostDetach_same {ps : List Part} {s0 : State} {i : Initiator} {s : State}
    (hW : Within [.freeCtr, .stamp, .csr, .shadow, .heldLow, .latchHigh, .quiet, .heldWrites, .evt, .rst, .pwr, .cores, .coreHeld, .triggers, .ephResults, .answers, .stks, .fast, .deep, .fastMark, .deepMark, .pages, .pageCache, .holders, .frameMap, .blocks, .frameCur, .blockCur, .slots, .migq, .sweep, .stalled, .stallFail, .plcCh, .plans, .plcFits, .plcRestoring, .nbus, .rowsInFlight, .rowAnswers, .dcache, .outbox, .rlys, .med, .links, .fabc, .hlk, .harts, .boot, .commit_] ps) (hK : SameBut ps s0 s) :
    OutSame ps s0 (execHostDetach i s) := by
  unfold execHostDetach
  repeat' (first | with_reducible assumption | with_reducible apply write32_same hW)

theorem execSqDoorbell_same {ps : List Part} {s0 : State} {i : Initiator} {q : Fin 256} {v : W32} {s : State}
    (hW : Within [.freeCtr, .stamp, .csr, .shadow, .heldLow, .latchHigh, .quiet, .heldWrites, .evt, .rst, .pwr, .cores, .coreHeld, .triggers, .ephResults, .answers, .stks, .fast, .deep, .fastMark, .deepMark, .pages, .pageCache, .holders, .frameMap, .blocks, .frameCur, .blockCur, .slots, .migq, .sweep, .stalled, .stallFail, .plcCh, .plans, .plcFits, .plcRestoring, .nbus, .rowsInFlight, .rowAnswers, .dcache, .outbox, .rlys, .med, .links, .fabc, .hlk, .harts, .boot, .commit_] ps) (hK : SameBut ps s0 s) :
    OutSame ps s0 (execSqDoorbell i q v s) := by
  unfold execSqDoorbell
  repeat' (first | with_reducible assumption | with_reducible apply write32_same hW)

theorem execCqHeadWrite_same {ps : List Part} {s0 : State} {i : Initiator} {q : Fin 256} {v : W32} {s : State}
    (hW : Within [.freeCtr, .stamp, .csr, .shadow, .heldLow, .latchHigh, .quiet, .heldWrites, .evt, .rst, .pwr, .cores, .coreHeld, .triggers, .ephResults, .answers, .stks, .fast, .deep, .fastMark, .deepMark, .pages, .pageCache, .holders, .frameMap, .blocks, .frameCur, .blockCur, .slots, .migq, .sweep, .stalled, .stallFail, .plcCh, .plans, .plcFits, .plcRestoring, .nbus, .rowsInFlight, .rowAnswers, .dcache, .outbox, .rlys, .med, .links, .fabc, .hlk, .harts, .boot, .commit_] ps) (hK : SameBut ps s0 s) :
    OutSame ps s0 (execCqHeadWrite i q v s) := by
  unfold execCqHeadWrite
  repeat' (first | with_reducible assumption | with_reducible apply write32_same hW)

theorem execVecUnmask_same {ps : List Part} {s0 : State} {i : Initiator} {v : Fin 256} {s : State}
    (hW : Within [.freeCtr, .stamp, .csr, .shadow, .heldLow, .latchHigh, .quiet, .heldWrites, .evt, .rst, .pwr, .cores, .coreHeld, .triggers, .ephResults, .answers, .stks, .fast, .deep, .fastMark, .deepMark, .pages, .pageCache, .holders, .frameMap, .blocks, .frameCur, .blockCur, .slots, .migq, .sweep, .stalled, .stallFail, .plcCh, .plans, .plcFits, .plcRestoring, .nbus, .rowsInFlight, .rowAnswers, .dcache, .outbox, .rlys, .med, .links, .fabc, .hlk, .harts, .boot, .commit_] ps) (hK : SameBut ps s0 s) :
    OutSame ps s0 (execVecUnmask i v s) := by
  unfold execVecUnmask
  repeat' (first | with_reducible assumption | with_reducible apply write32_same hW)

theorem execFwDone_same {ps : List Part} {s0 : State} {i : Initiator} {hi : W32} {s : State}
    (hW : Within [.freeCtr, .stamp, .csr, .shadow, .heldLow, .latchHigh, .quiet, .heldWrites, .evt, .rst, .pwr, .cores, .coreHeld, .triggers, .ephResults, .answers, .stks, .fast, .deep, .fastMark, .deepMark, .pages, .pageCache, .holders, .frameMap, .blocks, .frameCur, .blockCur, .slots, .migq, .sweep, .stalled, .stallFail, .plcCh, .plans, .plcFits, .plcRestoring, .nbus, .rowsInFlight, .rowAnswers, .dcache, .outbox, .rlys, .med, .links, .fabc, .hlk, .harts, .boot, .commit_] ps) (hK : SameBut ps s0 s) :
    OutSame ps s0 (execFwDone i hi s) := by
  unfold execFwDone
  repeat' (first | with_reducible assumption | with_reducible apply write32_same hW)

theorem execHwinWrite_same {ps : List Part} {s0 : State} {i : Initiator} {w : Fin 64} {size : Bool} {hi : W32}
    {s : State}
    (hW : Within [.freeCtr, .stamp, .csr, .shadow, .heldLow, .latchHigh, .quiet, .heldWrites, .evt, .rst, .pwr, .cores, .coreHeld, .triggers, .ephResults, .answers, .stks, .fast, .deep, .fastMark, .deepMark, .pages, .pageCache, .holders, .frameMap, .blocks, .frameCur, .blockCur, .slots, .migq, .sweep, .stalled, .stallFail, .plcCh, .plans, .plcFits, .plcRestoring, .nbus, .rowsInFlight, .rowAnswers, .dcache, .outbox, .rlys, .med, .links, .fabc, .hlk, .harts, .boot, .commit_] ps) (hK : SameBut ps s0 s) :
    OutSame ps s0 (execHwinWrite i w size hi s) := by
  unfold execHwinWrite
  repeat' (first | with_reducible assumption | with_reducible apply write32_same hW)

theorem procCtrl_same {ps : List Part} {s0 : State} {i : Initiator} {p : Fin 8} {v : Nat} {s : State}
    (hW : Within [.freeCtr, .stamp, .csr, .shadow, .heldLow, .latchHigh, .quiet, .heldWrites, .evt, .rst, .pwr, .cores, .coreHeld, .triggers, .ephResults, .answers, .stks, .fast, .deep, .fastMark, .deepMark, .pages, .pageCache, .holders, .frameMap, .blocks, .frameCur, .blockCur, .slots, .migq, .sweep, .stalled, .stallFail, .plcCh, .plans, .plcFits, .plcRestoring, .nbus, .rowsInFlight, .rowAnswers, .dcache, .outbox, .rlys, .med, .links, .fabc, .hlk, .harts, .boot, .commit_] ps) (hK : SameBut ps s0 s) :
    OutSame ps s0 (procCtrl i p v s) := by
  unfold procCtrl
  repeat' (first | with_reducible assumption | with_reducible apply write32_same hW)

theorem execProcRun_same {ps : List Part} {s0 : State} {i : Initiator} {p : Fin 8} {s : State}
    (hW : Within [.freeCtr, .stamp, .csr, .shadow, .heldLow, .latchHigh, .quiet, .heldWrites, .evt, .rst, .pwr, .cores, .coreHeld, .triggers, .ephResults, .answers, .stks, .fast, .deep, .fastMark, .deepMark, .pages, .pageCache, .holders, .frameMap, .blocks, .frameCur, .blockCur, .slots, .migq, .sweep, .stalled, .stallFail, .plcCh, .plans, .plcFits, .plcRestoring, .nbus, .rowsInFlight, .rowAnswers, .dcache, .outbox, .rlys, .med, .links, .fabc, .hlk, .harts, .boot, .commit_] ps) (hK : SameBut ps s0 s) :
    OutSame ps s0 (execProcRun i p s) := by
  unfold execProcRun
  repeat' (first | with_reducible assumption | with_reducible apply procCtrl_same hW)

theorem execProcHalt_same {ps : List Part} {s0 : State} {i : Initiator} {p : Fin 8} {s : State}
    (hW : Within [.freeCtr, .stamp, .csr, .shadow, .heldLow, .latchHigh, .quiet, .heldWrites, .evt, .rst, .pwr, .cores, .coreHeld, .triggers, .ephResults, .answers, .stks, .fast, .deep, .fastMark, .deepMark, .pages, .pageCache, .holders, .frameMap, .blocks, .frameCur, .blockCur, .slots, .migq, .sweep, .stalled, .stallFail, .plcCh, .plans, .plcFits, .plcRestoring, .nbus, .rowsInFlight, .rowAnswers, .dcache, .outbox, .rlys, .med, .links, .fabc, .hlk, .harts, .boot, .commit_] ps) (hK : SameBut ps s0 s) :
    OutSame ps s0 (execProcHalt i p s) := by
  unfold execProcHalt
  repeat' (first | with_reducible assumption | with_reducible apply procCtrl_same hW)

theorem execProcDinv_same {ps : List Part} {s0 : State} {i : Initiator} {p : Fin 8} {s : State}
    (hW : Within [.freeCtr, .stamp, .csr, .shadow, .heldLow, .latchHigh, .quiet, .heldWrites, .evt, .rst, .pwr, .cores, .coreHeld, .triggers, .ephResults, .answers, .stks, .fast, .deep, .fastMark, .deepMark, .pages, .pageCache, .holders, .frameMap, .blocks, .frameCur, .blockCur, .slots, .migq, .sweep, .stalled, .stallFail, .plcCh, .plans, .plcFits, .plcRestoring, .nbus, .rowsInFlight, .rowAnswers, .dcache, .outbox, .rlys, .med, .links, .fabc, .hlk, .harts, .boot, .commit_] ps) (hK : SameBut ps s0 s) :
    OutSame ps s0 (execProcDinv i p s) := by
  unfold execProcDinv
  repeat' (first | with_reducible assumption | with_reducible apply procCtrl_same hW)

theorem execWdtKick_same {ps : List Part} {s0 : State} {i : Initiator} {p : Fin 8} {v : W32} {s : State}
    (hW : Within [.freeCtr, .stamp, .csr, .shadow, .heldLow, .latchHigh, .quiet, .heldWrites, .evt, .rst, .pwr, .cores, .coreHeld, .triggers, .ephResults, .answers, .stks, .fast, .deep, .fastMark, .deepMark, .pages, .pageCache, .holders, .frameMap, .blocks, .frameCur, .blockCur, .slots, .migq, .sweep, .stalled, .stallFail, .plcCh, .plans, .plcFits, .plcRestoring, .nbus, .rowsInFlight, .rowAnswers, .dcache, .outbox, .rlys, .med, .links, .fabc, .hlk, .harts, .boot, .commit_] ps) (hK : SameBut ps s0 s) :
    OutSame ps s0 (execWdtKick i p v s) := by
  unfold execWdtKick
  repeat' (first | with_reducible assumption | with_reducible apply write32_same hW)

theorem execEvtSwraise_same {ps : List Part} {s0 : State} {i : Initiator} {v : W32} {s : State}
    (hW : Within [.freeCtr, .stamp, .csr, .shadow, .heldLow, .latchHigh, .quiet, .heldWrites, .evt, .rst, .pwr, .cores, .coreHeld, .triggers, .ephResults, .answers, .stks, .fast, .deep, .fastMark, .deepMark, .pages, .pageCache, .holders, .frameMap, .blocks, .frameCur, .blockCur, .slots, .migq, .sweep, .stalled, .stallFail, .plcCh, .plans, .plcFits, .plcRestoring, .nbus, .rowsInFlight, .rowAnswers, .dcache, .outbox, .rlys, .med, .links, .fabc, .hlk, .harts, .boot, .commit_] ps) (hK : SameBut ps s0 s) :
    OutSame ps s0 (execEvtSwraise i v s) := by
  unfold execEvtSwraise
  repeat' (first | with_reducible assumption | with_reducible apply write32_same hW)

theorem execEvtNestEnter_same {ps : List Part} {s0 : State} {i : Initiator} {t : Fin 9} {s : State}
    (hW : Within [.freeCtr, .stamp, .csr, .shadow, .heldLow, .latchHigh, .quiet, .heldWrites, .evt, .rst, .pwr, .cores, .coreHeld, .triggers, .ephResults, .answers, .stks, .fast, .deep, .fastMark, .deepMark, .pages, .pageCache, .holders, .frameMap, .blocks, .frameCur, .blockCur, .slots, .migq, .sweep, .stalled, .stallFail, .plcCh, .plans, .plcFits, .plcRestoring, .nbus, .rowsInFlight, .rowAnswers, .dcache, .outbox, .rlys, .med, .links, .fabc, .hlk, .harts, .boot, .commit_] ps) (hK : SameBut ps s0 s) :
    OutSame ps s0 (execEvtNestEnter i t s) := by
  unfold execEvtNestEnter
  repeat' (first | with_reducible assumption | with_reducible apply write32_same hW)

theorem execEvtNestExit_same {ps : List Part} {s0 : State} {i : Initiator} {t : Fin 9} {s : State}
    (hW : Within [.freeCtr, .stamp, .csr, .shadow, .heldLow, .latchHigh, .quiet, .heldWrites, .evt, .rst, .pwr, .cores, .coreHeld, .triggers, .ephResults, .answers, .stks, .fast, .deep, .fastMark, .deepMark, .pages, .pageCache, .holders, .frameMap, .blocks, .frameCur, .blockCur, .slots, .migq, .sweep, .stalled, .stallFail, .plcCh, .plans, .plcFits, .plcRestoring, .nbus, .rowsInFlight, .rowAnswers, .dcache, .outbox, .rlys, .med, .links, .fabc, .hlk, .harts, .boot, .commit_] ps) (hK : SameBut ps s0 s) :
    OutSame ps s0 (execEvtNestExit i t s) := by
  unfold execEvtNestExit
  repeat' (first | with_reducible assumption | with_reducible apply write32_same hW)

theorem execEvtTgtCiWrite_same {ps : List Part} {s0 : State} {i : Initiator} {t : Fin 9} {v : W32} {s : State}
    (hW : Within [.freeCtr, .stamp, .csr, .shadow, .heldLow, .latchHigh, .quiet, .heldWrites, .evt, .rst, .pwr, .cores, .coreHeld, .triggers, .ephResults, .answers, .stks, .fast, .deep, .fastMark, .deepMark, .pages, .pageCache, .holders, .frameMap, .blocks, .frameCur, .blockCur, .slots, .migq, .sweep, .stalled, .stallFail, .plcCh, .plans, .plcFits, .plcRestoring, .nbus, .rowsInFlight, .rowAnswers, .dcache, .outbox, .rlys, .med, .links, .fabc, .hlk, .harts, .boot, .commit_] ps) (hK : SameBut ps s0 s) :
    OutSame ps s0 (execEvtTgtCiWrite i t v s) := by
  unfold execEvtTgtCiWrite
  repeat' (first | with_reducible assumption | with_reducible apply write32_same hW)

theorem execEvtFaultClear_same {ps : List Part} {s0 : State} {i : Initiator} {t : Fin 9} {s : State}
    (hW : Within [.freeCtr, .stamp, .csr, .shadow, .heldLow, .latchHigh, .quiet, .heldWrites, .evt, .rst, .pwr, .cores, .coreHeld, .triggers, .ephResults, .answers, .stks, .fast, .deep, .fastMark, .deepMark, .pages, .pageCache, .holders, .frameMap, .blocks, .frameCur, .blockCur, .slots, .migq, .sweep, .stalled, .stallFail, .plcCh, .plans, .plcFits, .plcRestoring, .nbus, .rowsInFlight, .rowAnswers, .dcache, .outbox, .rlys, .med, .links, .fabc, .hlk, .harts, .boot, .commit_] ps) (hK : SameBut ps s0 s) :
    OutSame ps s0 (execEvtFaultClear i t s) := by
  unfold execEvtFaultClear
  repeat' (first | with_reducible assumption | with_reducible apply write32_same hW)

theorem execEvtSrcPurge_same {ps : List Part} {s0 : State} {i : Initiator} {n : Nat} {s : State}
    (hW : Within [.freeCtr, .stamp, .csr, .shadow, .heldLow, .latchHigh, .quiet, .heldWrites, .evt, .rst, .pwr, .cores, .coreHeld, .triggers, .ephResults, .answers, .stks, .fast, .deep, .fastMark, .deepMark, .pages, .pageCache, .holders, .frameMap, .blocks, .frameCur, .blockCur, .slots, .migq, .sweep, .stalled, .stallFail, .plcCh, .plans, .plcFits, .plcRestoring, .nbus, .rowsInFlight, .rowAnswers, .dcache, .outbox, .rlys, .med, .links, .fabc, .hlk, .harts, .boot, .commit_] ps) (hK : SameBut ps s0 s) :
    OutSame ps s0 (execEvtSrcPurge i n s) := by
  unfold execEvtSrcPurge
  repeat' (first | with_reducible assumption | with_reducible apply write32_same hW
                  | with_reducible apply outSame_next | extract_lets | split)

theorem execModeOvr_same {ps : List Part} {s0 : State} {i : Initiator} {m : Fin 16} {s : State}
    (hW : Within [.freeCtr, .stamp, .csr, .shadow, .heldLow, .latchHigh, .quiet, .heldWrites, .evt, .rst, .pwr, .cores, .coreHeld, .triggers, .ephResults, .answers, .stks, .fast, .deep, .fastMark, .deepMark, .pages, .pageCache, .holders, .frameMap, .blocks, .frameCur, .blockCur, .slots, .migq, .sweep, .stalled, .stallFail, .plcCh, .plans, .plcFits, .plcRestoring, .nbus, .rowsInFlight, .rowAnswers, .dcache, .outbox, .rlys, .med, .links, .fabc, .hlk, .harts, .boot, .commit_] ps) (hK : SameBut ps s0 s) :
    OutSame ps s0 (execModeOvr i m s) := by
  unfold execModeOvr
  repeat' (first | with_reducible assumption | with_reducible apply write32_same hW)

theorem execConfirm_same {ps : List Part} {s0 : State} {i : Initiator} {s : State}
    (hW : Within [.freeCtr, .stamp, .csr, .shadow, .heldLow, .latchHigh, .quiet, .heldWrites, .evt, .rst, .pwr, .cores, .coreHeld, .triggers, .ephResults, .answers, .stks, .fast, .deep, .fastMark, .deepMark, .pages, .pageCache, .holders, .frameMap, .blocks, .frameCur, .blockCur, .slots, .migq, .sweep, .stalled, .stallFail, .plcCh, .plans, .plcFits, .plcRestoring, .nbus, .rowsInFlight, .rowAnswers, .dcache, .outbox, .rlys, .med, .links, .fabc, .hlk, .harts, .boot, .commit_] ps) (hK : SameBut ps s0 s) :
    OutSame ps s0 (execConfirm i s) := by
  unfold execConfirm
  repeat' (first | with_reducible assumption | with_reducible apply write32_same hW)

theorem execBootRelease_same {ps : List Part} {s0 : State} {i : Initiator} {s : State}
    (hW : Within [.freeCtr, .stamp, .csr, .shadow, .heldLow, .latchHigh, .quiet, .heldWrites, .evt, .rst, .pwr, .cores, .coreHeld, .triggers, .ephResults, .answers, .stks, .fast, .deep, .fastMark, .deepMark, .pages, .pageCache, .holders, .frameMap, .blocks, .frameCur, .blockCur, .slots, .migq, .sweep, .stalled, .stallFail, .plcCh, .plans, .plcFits, .plcRestoring, .nbus, .rowsInFlight, .rowAnswers, .dcache, .outbox, .rlys, .med, .links, .fabc, .hlk, .harts, .boot, .commit_] ps) (hK : SameBut ps s0 s) :
    OutSame ps s0 (execBootRelease i s) := by
  unfold execBootRelease
  repeat' (first | with_reducible assumption | with_reducible apply write32_same hW)

theorem execBootHostData_same {ps : List Part} {s0 : State} {i : Initiator} {v : W32} {s : State}
    (hW : Within [.freeCtr, .stamp, .csr, .shadow, .heldLow, .latchHigh, .quiet, .heldWrites, .evt, .rst, .pwr, .cores, .coreHeld, .triggers, .ephResults, .answers, .stks, .fast, .deep, .fastMark, .deepMark, .pages, .pageCache, .holders, .frameMap, .blocks, .frameCur, .blockCur, .slots, .migq, .sweep, .stalled, .stallFail, .plcCh, .plans, .plcFits, .plcRestoring, .nbus, .rowsInFlight, .rowAnswers, .dcache, .outbox, .rlys, .med, .links, .fabc, .hlk, .harts, .boot, .commit_] ps) (hK : SameBut ps s0 s) :
    OutSame ps s0 (execBootHostData i v s) := by
  unfold execBootHostData
  repeat' (first | with_reducible assumption | with_reducible apply write32_same hW)

theorem execFlashRead_same {ps : List Part} {s0 : State} {i : Initiator} {s : State}
    (hW : Within [.freeCtr, .stamp, .csr, .shadow, .heldLow, .latchHigh, .quiet, .heldWrites, .evt, .rst, .pwr, .cores, .coreHeld, .triggers, .ephResults, .answers, .stks, .fast, .deep, .fastMark, .deepMark, .pages, .pageCache, .holders, .frameMap, .blocks, .frameCur, .blockCur, .slots, .migq, .sweep, .stalled, .stallFail, .plcCh, .plans, .plcFits, .plcRestoring, .nbus, .rowsInFlight, .rowAnswers, .dcache, .outbox, .rlys, .med, .links, .fabc, .hlk, .harts, .boot, .commit_] ps) (hK : SameBut ps s0 s) :
    OutSame ps s0 (execFlashRead i s) := by
  unfold execFlashRead
  repeat' (first | with_reducible assumption | with_reducible apply write32_same hW)

theorem execFlashProgram_same {ps : List Part} {s0 : State} {i : Initiator} {s : State}
    (hW : Within [.freeCtr, .stamp, .csr, .shadow, .heldLow, .latchHigh, .quiet, .heldWrites, .evt, .rst, .pwr, .cores, .coreHeld, .triggers, .ephResults, .answers, .stks, .fast, .deep, .fastMark, .deepMark, .pages, .pageCache, .holders, .frameMap, .blocks, .frameCur, .blockCur, .slots, .migq, .sweep, .stalled, .stallFail, .plcCh, .plans, .plcFits, .plcRestoring, .nbus, .rowsInFlight, .rowAnswers, .dcache, .outbox, .rlys, .med, .links, .fabc, .hlk, .harts, .boot, .commit_] ps) (hK : SameBut ps s0 s) :
    OutSame ps s0 (execFlashProgram i s) := by
  unfold execFlashProgram
  repeat' (first | with_reducible assumption | with_reducible apply write32_same hW)

theorem execFlashErase_same {ps : List Part} {s0 : State} {i : Initiator} {s : State}
    (hW : Within [.freeCtr, .stamp, .csr, .shadow, .heldLow, .latchHigh, .quiet, .heldWrites, .evt, .rst, .pwr, .cores, .coreHeld, .triggers, .ephResults, .answers, .stks, .fast, .deep, .fastMark, .deepMark, .pages, .pageCache, .holders, .frameMap, .blocks, .frameCur, .blockCur, .slots, .migq, .sweep, .stalled, .stallFail, .plcCh, .plans, .plcFits, .plcRestoring, .nbus, .rowsInFlight, .rowAnswers, .dcache, .outbox, .rlys, .med, .links, .fabc, .hlk, .harts, .boot, .commit_] ps) (hK : SameBut ps s0 s) :
    OutSame ps s0 (execFlashErase i s) := by
  unfold execFlashErase
  repeat' (first | with_reducible assumption | with_reducible apply write32_same hW)

theorem execFlashReadId_same {ps : List Part} {s0 : State} {i : Initiator} {id : Bytes} {s : State}
    (hW : Within [.freeCtr, .stamp, .csr, .shadow, .heldLow, .latchHigh, .quiet, .heldWrites, .evt, .rst, .pwr, .cores, .coreHeld, .triggers, .ephResults, .answers, .stks, .fast, .deep, .fastMark, .deepMark, .pages, .pageCache, .holders, .frameMap, .blocks, .frameCur, .blockCur, .slots, .migq, .sweep, .stalled, .stallFail, .plcCh, .plans, .plcFits, .plcRestoring, .nbus, .rowsInFlight, .rowAnswers, .dcache, .outbox, .rlys, .med, .links, .fabc, .hlk, .harts, .boot, .commit_] ps) (hK : SameBut ps s0 s) :
    OutSame ps s0 (execFlashReadId i id s) := by
  have w1 : Within [.boot] ps := Within.trans (by decide +kernel) hW
  unfold execFlashReadId
  repeat' (first | with_reducible assumption | with_reducible apply setBoot_same w1
                  | with_reducible apply ctlWrite_same hW | with_reducible apply outSame_next | extract_lets | split)

theorem execSecHash_same {ps : List Part} {s0 : State} {i : Initiator} {s : State}
    (hW : Within [.freeCtr, .stamp, .csr, .shadow, .heldLow, .latchHigh, .quiet, .heldWrites, .evt, .rst, .pwr, .cores, .coreHeld, .triggers, .ephResults, .answers, .stks, .fast, .deep, .fastMark, .deepMark, .pages, .pageCache, .holders, .frameMap, .blocks, .frameCur, .blockCur, .slots, .migq, .sweep, .stalled, .stallFail, .plcCh, .plans, .plcFits, .plcRestoring, .nbus, .rowsInFlight, .rowAnswers, .dcache, .outbox, .rlys, .med, .links, .fabc, .hlk, .harts, .boot, .commit_] ps) (hK : SameBut ps s0 s) :
    OutSame ps s0 (execSecHash i s) := by
  unfold execSecHash
  repeat' (first | with_reducible assumption | with_reducible apply write32_same hW)

theorem execSecVerify_same {ps : List Part} {s0 : State} {i : Initiator} {s : State}
    (hW : Within [.freeCtr, .stamp, .csr, .shadow, .heldLow, .latchHigh, .quiet, .heldWrites, .evt, .rst, .pwr, .cores, .coreHeld, .triggers, .ephResults, .answers, .stks, .fast, .deep, .fastMark, .deepMark, .pages, .pageCache, .holders, .frameMap, .blocks, .frameCur, .blockCur, .slots, .migq, .sweep, .stalled, .stallFail, .plcCh, .plans, .plcFits, .plcRestoring, .nbus, .rowsInFlight, .rowAnswers, .dcache, .outbox, .rlys, .med, .links, .fabc, .hlk, .harts, .boot, .commit_] ps) (hK : SameBut ps s0 s) :
    OutSame ps s0 (execSecVerify i s) := by
  unfold execSecVerify
  repeat' (first | with_reducible assumption | with_reducible apply write32_same hW)

theorem execSecExtend_same {ps : List Part} {s0 : State} {i : Initiator} {s : State}
    (hW : Within [.freeCtr, .stamp, .csr, .shadow, .heldLow, .latchHigh, .quiet, .heldWrites, .evt, .rst, .pwr, .cores, .coreHeld, .triggers, .ephResults, .answers, .stks, .fast, .deep, .fastMark, .deepMark, .pages, .pageCache, .holders, .frameMap, .blocks, .frameCur, .blockCur, .slots, .migq, .sweep, .stalled, .stallFail, .plcCh, .plans, .plcFits, .plcRestoring, .nbus, .rowsInFlight, .rowAnswers, .dcache, .outbox, .rlys, .med, .links, .fabc, .hlk, .harts, .boot, .commit_] ps) (hK : SameBut ps s0 s) :
    OutSame ps s0 (execSecExtend i s) := by
  unfold execSecExtend
  repeat' (first | with_reducible assumption | with_reducible apply write32_same hW)

theorem execSecReport_same {ps : List Part} {s0 : State} {i : Initiator} {s : State}
    (hW : Within [.freeCtr, .stamp, .csr, .shadow, .heldLow, .latchHigh, .quiet, .heldWrites, .evt, .rst, .pwr, .cores, .coreHeld, .triggers, .ephResults, .answers, .stks, .fast, .deep, .fastMark, .deepMark, .pages, .pageCache, .holders, .frameMap, .blocks, .frameCur, .blockCur, .slots, .migq, .sweep, .stalled, .stallFail, .plcCh, .plans, .plcFits, .plcRestoring, .nbus, .rowsInFlight, .rowAnswers, .dcache, .outbox, .rlys, .med, .links, .fabc, .hlk, .harts, .boot, .commit_] ps) (hK : SameBut ps s0 s) :
    OutSame ps s0 (execSecReport i s) := by
  unfold execSecReport
  repeat' (first | with_reducible assumption | with_reducible apply write32_same hW)

theorem execSvnSet_same {ps : List Part} {s0 : State} {i : Initiator} {s : State}
    (hW : Within [.freeCtr, .stamp, .csr, .shadow, .heldLow, .latchHigh, .quiet, .heldWrites, .evt, .rst, .pwr, .cores, .coreHeld, .triggers, .ephResults, .answers, .stks, .fast, .deep, .fastMark, .deepMark, .pages, .pageCache, .holders, .frameMap, .blocks, .frameCur, .blockCur, .slots, .migq, .sweep, .stalled, .stallFail, .plcCh, .plans, .plcFits, .plcRestoring, .nbus, .rowsInFlight, .rowAnswers, .dcache, .outbox, .rlys, .med, .links, .fabc, .hlk, .harts, .boot, .commit_] ps) (hK : SameBut ps s0 s) :
    OutSame ps s0 (execSvnSet i s) := by
  unfold execSvnSet
  repeat' (first | with_reducible assumption | with_reducible apply write32_same hW)

theorem execKeyProgram_same {ps : List Part} {s0 : State} {i : Initiator} {s : State}
    (hW : Within [.freeCtr, .stamp, .csr, .shadow, .heldLow, .latchHigh, .quiet, .heldWrites, .evt, .rst, .pwr, .cores, .coreHeld, .triggers, .ephResults, .answers, .stks, .fast, .deep, .fastMark, .deepMark, .pages, .pageCache, .holders, .frameMap, .blocks, .frameCur, .blockCur, .slots, .migq, .sweep, .stalled, .stallFail, .plcCh, .plans, .plcFits, .plcRestoring, .nbus, .rowsInFlight, .rowAnswers, .dcache, .outbox, .rlys, .med, .links, .fabc, .hlk, .harts, .boot, .commit_] ps) (hK : SameBut ps s0 s) :
    OutSame ps s0 (execKeyProgram i s) := by
  unfold execKeyProgram
  repeat' (first | with_reducible assumption | with_reducible apply write32_same hW)

theorem execKeyRevoke_same {ps : List Part} {s0 : State} {i : Initiator} {s : State}
    (hW : Within [.freeCtr, .stamp, .csr, .shadow, .heldLow, .latchHigh, .quiet, .heldWrites, .evt, .rst, .pwr, .cores, .coreHeld, .triggers, .ephResults, .answers, .stks, .fast, .deep, .fastMark, .deepMark, .pages, .pageCache, .holders, .frameMap, .blocks, .frameCur, .blockCur, .slots, .migq, .sweep, .stalled, .stallFail, .plcCh, .plans, .plcFits, .plcRestoring, .nbus, .rowsInFlight, .rowAnswers, .dcache, .outbox, .rlys, .med, .links, .fabc, .hlk, .harts, .boot, .commit_] ps) (hK : SameBut ps s0 s) :
    OutSame ps s0 (execKeyRevoke i s) := by
  unfold execKeyRevoke
  repeat' (first | with_reducible assumption | with_reducible apply write32_same hW)

theorem execLifecycleAdvance_same {ps : List Part} {s0 : State} {i : Initiator} {s : State}
    (hW : Within [.freeCtr, .stamp, .csr, .shadow, .heldLow, .latchHigh, .quiet, .heldWrites, .evt, .rst, .pwr, .cores, .coreHeld, .triggers, .ephResults, .answers, .stks, .fast, .deep, .fastMark, .deepMark, .pages, .pageCache, .holders, .frameMap, .blocks, .frameCur, .blockCur, .slots, .migq, .sweep, .stalled, .stallFail, .plcCh, .plans, .plcFits, .plcRestoring, .nbus, .rowsInFlight, .rowAnswers, .dcache, .outbox, .rlys, .med, .links, .fabc, .hlk, .harts, .boot, .commit_] ps) (hK : SameBut ps s0 s) :
    OutSame ps s0 (execLifecycleAdvance i s) := by
  unfold execLifecycleAdvance
  repeat' (first | with_reducible assumption | with_reducible apply write32_same hW)

theorem execSecPermLock_same {ps : List Part} {s0 : State} {i : Initiator} {s : State}
    (hW : Within [.freeCtr, .stamp, .csr, .shadow, .heldLow, .latchHigh, .quiet, .heldWrites, .evt, .rst, .pwr, .cores, .coreHeld, .triggers, .ephResults, .answers, .stks, .fast, .deep, .fastMark, .deepMark, .pages, .pageCache, .holders, .frameMap, .blocks, .frameCur, .blockCur, .slots, .migq, .sweep, .stalled, .stallFail, .plcCh, .plans, .plcFits, .plcRestoring, .nbus, .rowsInFlight, .rowAnswers, .dcache, .outbox, .rlys, .med, .links, .fabc, .hlk, .harts, .boot, .commit_] ps) (hK : SameBut ps s0 s) :
    OutSame ps s0 (execSecPermLock i s) := by
  unfold execSecPermLock
  repeat' (first | with_reducible assumption | with_reducible apply write32_same hW)

theorem execRstSwreq_same {ps : List Part} {s0 : State} {i : Initiator} {v : W32} {s : State}
    (hW : Within [.freeCtr, .stamp, .csr, .shadow, .heldLow, .latchHigh, .quiet, .heldWrites, .evt, .rst, .pwr, .cores, .coreHeld, .triggers, .ephResults, .answers, .stks, .fast, .deep, .fastMark, .deepMark, .pages, .pageCache, .holders, .frameMap, .blocks, .frameCur, .blockCur, .slots, .migq, .sweep, .stalled, .stallFail, .plcCh, .plans, .plcFits, .plcRestoring, .nbus, .rowsInFlight, .rowAnswers, .dcache, .outbox, .rlys, .med, .links, .fabc, .hlk, .harts, .boot, .commit_] ps) (hK : SameBut ps s0 s) :
    OutSame ps s0 (execRstSwreq i v s) := by
  unfold execRstSwreq
  repeat' (first | with_reducible assumption | with_reducible apply write32_same hW)

theorem execRstDbgreq_same {ps : List Part} {s0 : State} {i : Initiator} {v : W32} {s : State}
    (hW : Within [.freeCtr, .stamp, .csr, .shadow, .heldLow, .latchHigh, .quiet, .heldWrites, .evt, .rst, .pwr, .cores, .coreHeld, .triggers, .ephResults, .answers, .stks, .fast, .deep, .fastMark, .deepMark, .pages, .pageCache, .holders, .frameMap, .blocks, .frameCur, .blockCur, .slots, .migq, .sweep, .stalled, .stallFail, .plcCh, .plans, .plcFits, .plcRestoring, .nbus, .rowsInFlight, .rowAnswers, .dcache, .outbox, .rlys, .med, .links, .fabc, .hlk, .harts, .boot, .commit_] ps) (hK : SameBut ps s0 s) :
    OutSame ps s0 (execRstDbgreq i v s) := by
  unfold execRstDbgreq
  repeat' (first | with_reducible assumption | with_reducible apply write32_same hW)

theorem blkReqWrite_same {ps : List Part} {s0 : State} {i : Initiator} {v : Nat} {s : State}
    (hW : Within [.freeCtr, .stamp, .csr, .shadow, .heldLow, .latchHigh, .quiet, .heldWrites, .evt, .rst, .pwr, .cores, .coreHeld, .triggers, .ephResults, .answers, .stks, .fast, .deep, .fastMark, .deepMark, .pages, .pageCache, .holders, .frameMap, .blocks, .frameCur, .blockCur, .slots, .migq, .sweep, .stalled, .stallFail, .plcCh, .plans, .plcFits, .plcRestoring, .nbus, .rowsInFlight, .rowAnswers, .dcache, .outbox, .rlys, .med, .links, .fabc, .hlk, .harts, .boot, .commit_] ps) (hK : SameBut ps s0 s) :
    OutSame ps s0 (blkReqWrite i v s) := by
  unfold blkReqWrite
  repeat' (first | with_reducible assumption | with_reducible apply ctlWrite_same hW
                  | with_reducible apply write32_same hW)

theorem execBlockResetRequest_same {ps : List Part} {s0 : State} {i : Initiator} {b : Fin 64} {s : State}
    (hW : Within [.freeCtr, .stamp, .csr, .shadow, .heldLow, .latchHigh, .quiet, .heldWrites, .evt, .rst, .pwr, .cores, .coreHeld, .triggers, .ephResults, .answers, .stks, .fast, .deep, .fastMark, .deepMark, .pages, .pageCache, .holders, .frameMap, .blocks, .frameCur, .blockCur, .slots, .migq, .sweep, .stalled, .stallFail, .plcCh, .plans, .plcFits, .plcRestoring, .nbus, .rowsInFlight, .rowAnswers, .dcache, .outbox, .rlys, .med, .links, .fabc, .hlk, .harts, .boot, .commit_] ps) (hK : SameBut ps s0 s) :
    OutSame ps s0 (execBlockResetRequest i b s) := by
  unfold execBlockResetRequest
  repeat' (first | with_reducible assumption | with_reducible apply blkReqWrite_same hW)

theorem execBlockResetEnd_same {ps : List Part} {s0 : State} {i : Initiator} {b : Fin 64} {s : State}
    (hW : Within [.freeCtr, .stamp, .csr, .shadow, .heldLow, .latchHigh, .quiet, .heldWrites, .evt, .rst, .pwr, .cores, .coreHeld, .triggers, .ephResults, .answers, .stks, .fast, .deep, .fastMark, .deepMark, .pages, .pageCache, .holders, .frameMap, .blocks, .frameCur, .blockCur, .slots, .migq, .sweep, .stalled, .stallFail, .plcCh, .plans, .plcFits, .plcRestoring, .nbus, .rowsInFlight, .rowAnswers, .dcache, .outbox, .rlys, .med, .links, .fabc, .hlk, .harts, .boot, .commit_] ps) (hK : SameBut ps s0 s) :
    OutSame ps s0 (execBlockResetEnd i b s) := by
  unfold execBlockResetEnd
  repeat' (first | with_reducible assumption | with_reducible apply blkReqWrite_same hW)

theorem execPlatePublish_same {ps : List Part} {s0 : State} {i : Initiator} {s : State}
    (hW : Within [.freeCtr, .stamp, .csr, .shadow, .heldLow, .latchHigh, .quiet, .heldWrites, .evt, .rst, .pwr, .cores, .coreHeld, .triggers, .ephResults, .answers, .stks, .fast, .deep, .fastMark, .deepMark, .pages, .pageCache, .holders, .frameMap, .blocks, .frameCur, .blockCur, .slots, .migq, .sweep, .stalled, .stallFail, .plcCh, .plans, .plcFits, .plcRestoring, .nbus, .rowsInFlight, .rowAnswers, .dcache, .outbox, .rlys, .med, .links, .fabc, .hlk, .harts, .boot, .commit_] ps) (hK : SameBut ps s0 s) :
    OutSame ps s0 (execPlatePublish i s) := by
  unfold execPlatePublish
  repeat' (first | with_reducible assumption | with_reducible apply write32_same hW)

theorem execPlateClear_same {ps : List Part} {s0 : State} {i : Initiator} {s : State}
    (hW : Within [.freeCtr, .stamp, .csr, .shadow, .heldLow, .latchHigh, .quiet, .heldWrites, .evt, .rst, .pwr, .cores, .coreHeld, .triggers, .ephResults, .answers, .stks, .fast, .deep, .fastMark, .deepMark, .pages, .pageCache, .holders, .frameMap, .blocks, .frameCur, .blockCur, .slots, .migq, .sweep, .stalled, .stallFail, .plcCh, .plans, .plcFits, .plcRestoring, .nbus, .rowsInFlight, .rowAnswers, .dcache, .outbox, .rlys, .med, .links, .fabc, .hlk, .harts, .boot, .commit_] ps) (hK : SameBut ps s0 s) :
    OutSame ps s0 (execPlateClear i s) := by
  unfold execPlateClear
  repeat' (first | with_reducible assumption | with_reducible apply write32_same hW)

theorem execPlateAck_same {ps : List Part} {s0 : State} {i : Initiator} {seq : W32} {s : State}
    (hW : Within [.freeCtr, .stamp, .csr, .shadow, .heldLow, .latchHigh, .quiet, .heldWrites, .evt, .rst, .pwr, .cores, .coreHeld, .triggers, .ephResults, .answers, .stks, .fast, .deep, .fastMark, .deepMark, .pages, .pageCache, .holders, .frameMap, .blocks, .frameCur, .blockCur, .slots, .migq, .sweep, .stalled, .stallFail, .plcCh, .plans, .plcFits, .plcRestoring, .nbus, .rowsInFlight, .rowAnswers, .dcache, .outbox, .rlys, .med, .links, .fabc, .hlk, .harts, .boot, .commit_] ps) (hK : SameBut ps s0 s) :
    OutSame ps s0 (execPlateAck i seq s) := by
  unfold execPlateAck
  repeat' (first | with_reducible assumption | with_reducible apply write32_same hW)

end Sys2Proof.Machine
end

