-- ==== Sys2Proof/Laws/FrameFabAccess.lean ====
section
/-! SUPPORT. What the functions of Machine/FabAccess.lean leave unchanged (see Laws/Frame.lean). -/

set_option Elab.async false -- many small kernel checks: one thread does them
set_option linter.unusedSimpArgs false
set_option simprocs false -- no numeral of a goal is evaluated in these proofs

namespace Sys2Proof.Machine

theorem ltaEnd_same {ps : List Part} {s0 : State} {e0 : State × Option (Nat × Bytes)}
    (hW : Within [] ps)  (hf_e0 : SameBut ps s0 e0.1) :
    SameBut ps s0 (ltaEnd e0).1 := by
  unfold ltaEnd
  repeat' (first | with_reducible assumption | split)

theorem hostEnd_same {ps : List Part} {s0 : State} {n : Nat} {e0 : State × HostRes}
    (hW : Within [] ps)  (hf_e0 : SameBut ps s0 e0.1) :
    SameBut ps s0 (hostEnd n e0).1 := by
  unfold hostEnd
  repeat' (first | with_reducible assumption | split)

theorem fabServe_same {ps : List Part} {s0 : State} {s : State} {ini : Initiator} {key : Nat} {space : Nat}
    {off : Nat} {n : Nat} {w : Option Bytes} {owner : HostOwner}
    (hW : Within [.freeCtr, .stamp, .csr, .shadow, .heldLow, .latchHigh, .quiet, .heldWrites, .evt, .rst, .pwr, .cores, .coreHeld, .triggers, .ephResults, .answers, .stks, .fast, .deep, .fastMark, .deepMark, .pages, .pageCache, .holders, .frameMap, .blocks, .frameCur, .blockCur, .slots, .migq, .sweep, .stalled, .stallFail, .plcCh, .plans, .plcFits, .plcRestoring, .nbus, .rowsInFlight, .rowAnswers, .dcache, .outbox, .rlys, .med, .links, .fabc, .hlk, .harts, .boot, .commit_] ps) (hK : SameBut ps s0 s) :
    SameBut ps s0 (fabServe s ini key space off n w owner).1 := by
  have w1 : Within [.freeCtr, .csr, .evt, .answers, .stks, .fast, .fastMark, .deepMark, .pages, .pageCache, .frameMap, .blocks, .slots, .migq, .stalled, .stallFail, .plcCh, .plans] ps := Within.trans (by decide +kernel) hW
  have w2 : Within [.freeCtr, .csr, .evt, .answers, .stks, .fast, .fastMark, .deepMark, .pages, .pageCache, .frameMap, .blocks, .slots, .migq, .stalled, .stallFail, .plcCh, .plans, .links, .hlk] ps := Within.trans (by decide +kernel) hW
  have w3 : Within [.csr, .evt, .links, .hlk] ps := Within.trans (by decide +kernel) hW
  have w4 : Within [.csr, .latchHigh, .evt] ps := Within.trans (by decide +kernel) hW
  have w5 : Within [] ps := Within.trans (by decide +kernel) hW
  unfold fabServe
  repeat' (first | with_reducible assumption | with_reducible apply engineLta_same w1
                  | with_reducible apply hostWrite_same w2 | with_reducible apply hostRead_same w3
                  | with_reducible apply ctlWrite_same hW | with_reducible apply ctlRead_same w4
                  | with_reducible apply ltaEnd_same w5 | with_reducible apply hostEnd_same w5 | extract_lets
                  | split)

theorem windowViol_same {ps : List Part} {s0 : State} {s : State} {m : FabMsg}
    (hW : Within [.csr, .evt] ps) (hK : SameBut ps s0 s) :
    SameBut ps s0 (windowViol s m) := by
  have w1 : Within [.csr] ps := Within.trans (by decide +kernel) hW
  unfold windowViol
  repeat' (first | with_reducible assumption | with_reducible apply wr_same w1
                  | with_reducible apply bumpOcc_same hW | with_reducible apply violation_same hW | extract_lets
                  | split)

theorem requestEff_same {ps : List Part} {s0 : State} {s : State} {m : FabMsg}
    (hW : Within [.freeCtr, .stamp, .csr, .shadow, .heldLow, .latchHigh, .quiet, .heldWrites, .evt, .rst, .pwr, .cores, .coreHeld, .triggers, .ephResults, .answers, .stks, .fast, .deep, .fastMark, .deepMark, .pages, .pageCache, .holders, .frameMap, .blocks, .frameCur, .blockCur, .slots, .migq, .sweep, .stalled, .stallFail, .plcCh, .plans, .plcFits, .plcRestoring, .nbus, .rowsInFlight, .rowAnswers, .dcache, .outbox, .rlys, .med, .links, .fabc, .hlk, .harts, .boot, .commit_] ps) (hK : SameBut ps s0 s) :
    SameBut ps s0 (requestEff s m) := by
  have w1 : Within [.outbox] ps := Within.trans (by decide +kernel) hW
  have w2 : Within [.csr, .evt] ps := Within.trans (by decide +kernel) hW
  unfold requestEff
  repeat' (first | with_reducible assumption | with_reducible apply respond_same w1
                  | with_reducible apply fabServe_same hW | with_reducible apply windowViol_same w2
                  | with_reducible refine same_fst (by assumption) ?_ | extract_lets | split)

theorem execRdReq_same {ps : List Part} {s0 : State} {m : FabMsg} {s : State}
    (hW : Within [.freeCtr, .stamp, .csr, .shadow, .heldLow, .latchHigh, .quiet, .heldWrites, .evt, .rst, .pwr, .cores, .coreHeld, .triggers, .ephResults, .answers, .stks, .fast, .deep, .fastMark, .deepMark, .pages, .pageCache, .holders, .frameMap, .blocks, .frameCur, .blockCur, .slots, .migq, .sweep, .stalled, .stallFail, .plcCh, .plans, .plcFits, .plcRestoring, .nbus, .rowsInFlight, .rowAnswers, .dcache, .outbox, .rlys, .med, .links, .fabc, .hlk, .harts, .boot, .commit_] ps) (hK : SameBut ps s0 s) :
    OutSame ps s0 (execRdReq m s) := by
  unfold execRdReq
  repeat' (first | with_reducible assumption | with_reducible apply requestEff_same hW
                  | with_reducible apply outSame_next | split)

theorem execWrReq_same {ps : List Part} {s0 : State} {m : FabMsg} {s : State}
    (hW : Within [.freeCtr, .stamp, .csr, .shadow, .heldLow, .latchHigh, .quiet, .heldWrites, .evt, .rst, .pwr, .cores, .coreHeld, .triggers, .ephResults, .answers, .stks, .fast, .deep, .fastMark, .deepMark, .pages, .pageCache, .holders, .frameMap, .blocks, .frameCur, .blockCur, .slots, .migq, .sweep, .stalled, .stallFail, .plcCh, .plans, .plcFits, .plcRestoring, .nbus, .rowsInFlight, .rowAnswers, .dcache, .outbox, .rlys, .med, .links, .fabc, .hlk, .harts, .boot, .commit_] ps) (hK : SameBut ps s0 s) :
    OutSame ps s0 (execWrReq m s) := by
  unfold execWrReq
  repeat' (first | with_reducible assumption | with_reducible apply requestEff_same hW
                  | with_reducible apply outSame_next | split)

theorem takeTag_same {ps : List Part} {s0 : State} {s : State} {m : FabMsg} {t : Nat}
    (hW : Within [.outbox, .fabc] ps) (hK : SameBut ps s0 s) :
    SameBut ps s0 (takeTag s m t) := by
  have w1 : Within [.outbox] ps := Within.trans (by decide +kernel) hW
  have w2 : Within [.fabc] ps := Within.trans (by decide +kernel) hW
  unfold takeTag
  repeat' (first | with_reducible assumption | with_reducible apply send_same w1 | simp only [same_mk_fabc w2])

theorem execFabricRequestIssue_same {ps : List Part} {s0 : State} {m : FabMsg} {s : State}
    (hW : Within [.freeCtr, .stamp, .csr, .shadow, .heldLow, .latchHigh, .quiet, .heldWrites, .evt, .rst, .pwr, .cores, .coreHeld, .triggers, .ephResults, .answers, .stks, .fast, .deep, .fastMark, .deepMark, .pages, .pageCache, .holders, .frameMap, .blocks, .frameCur, .blockCur, .slots, .migq, .sweep, .stalled, .stallFail, .plcCh, .plans, .plcFits, .plcRestoring, .nbus, .rowsInFlight, .rowAnswers, .dcache, .outbox, .rlys, .med, .links, .fabc, .hlk, .harts, .boot, .commit_] ps) (hK : SameBut ps s0 s) :
    OutSame ps s0 (execFabricRequestIssue m s) := by
  have w1 : Within [.answers] ps := Within.trans (by decide +kernel) hW
  have w2 : Within [.outbox, .fabc] ps := Within.trans (by decide +kernel) hW
  unfold execFabricRequestIssue
  repeat' (first | with_reducible assumption | with_reducible apply answer_same w1
                  | with_reducible apply fabServe_same hW | with_reducible apply takeTag_same w2
                  | with_reducible apply outSame_next | simp only [same_mk_answers w1]
                  | with_reducible refine same_fst (by assumption) ?_ | split)

theorem srAnswer_same {ps : List Part} {s0 : State} {s : State} {m : FabMsg} {st : Nat} {d : Bytes}
    (hW : Within [.outbox] ps) (hK : SameBut ps s0 s) :
    SameBut ps s0 (srAnswer s m st d) := by
  unfold srAnswer
  repeat' (first | with_reducible assumption | with_reducible apply send_same hW)

theorem execSrRead_same {ps : List Part} {s0 : State} {m : FabMsg} {s : State}
    (hW : Within [.csr, .latchHigh, .evt, .outbox] ps) (hK : SameBut ps s0 s) :
    OutSame ps s0 (execSrRead m s) := by
  have w1 : Within [.csr, .evt] ps := Within.trans (by decide +kernel) hW
  have w2 : Within [.csr, .latchHigh, .evt] ps := Within.trans (by decide +kernel) hW
  have w3 : Within [.outbox] ps := Within.trans (by decide +kernel) hW
  unfold execSrRead
  repeat' (first | with_reducible assumption | with_reducible apply violation_same w1
                  | with_reducible apply ctlRead_same w2 | with_reducible apply srAnswer_same w3
                  | with_reducible apply outSame_next | split)

theorem execSrWrite_same {ps : List Part} {s0 : State} {m : FabMsg} {s : State}
    (hW : Within [.freeCtr, .stamp, .csr, .shadow, .heldLow, .latchHigh, .quiet, .heldWrites, .evt, .rst, .pwr, .cores, .coreHeld, .triggers, .ephResults, .answers, .stks, .fast, .deep, .fastMark, .deepMark, .pages, .pageCache, .holders, .frameMap, .blocks, .frameCur, .blockCur, .slots, .migq, .sweep, .stalled, .stallFail, .plcCh, .plans, .plcFits, .plcRestoring, .nbus, .rowsInFlight, .rowAnswers, .dcache, .outbox, .rlys, .med, .links, .fabc, .hlk, .harts, .boot, .commit_] ps) (hK : SameBut ps s0 s) :
    OutSame ps s0 (execSrWrite m s) := by
  have w1 : Within [.csr, .evt] ps := Within.trans (by decide +kernel) hW
  have w2 : Within [.outbox] ps := Within.trans (by decide +kernel) hW
  unfold execSrWrite
  repeat' (first | with_reducible assumption | with_reducible apply violation_same w1
                  | with_reducible apply ctlWrite_same hW | with_reducible apply srAnswer_same w2
                  | with_reducible apply outSame_next | split)

theorem dwinViol_same {ps : List Part} {s0 : State} {s : State} {write : Bool}
    (hW : Within [.csr, .evt] ps) (hK : SameBut ps s0 s) :
    SameBut ps s0 (dwinViol s write) := by
  unfold dwinViol
  repeat' (first | with_reducible assumption | with_reducible apply bumpOcc_same hW
                  | with_reducible apply violation_same hW)

theorem dwinServe_same {ps : List Part} {s0 : State} {s : State} {a : Nat} {n : Nat} {w : Option Bytes} {ext : Ext}
    (hW : Within [.freeCtr, .stamp, .csr, .shadow, .heldLow, .latchHigh, .quiet, .heldWrites, .evt, .rst, .pwr, .cores, .coreHeld, .triggers, .ephResults, .answers, .stks, .fast, .deep, .fastMark, .deepMark, .pages, .pageCache, .holders, .frameMap, .blocks, .frameCur, .blockCur, .slots, .migq, .sweep, .stalled, .stallFail, .plcCh, .plans, .plcFits, .plcRestoring, .nbus, .rowsInFlight, .rowAnswers, .dcache, .outbox, .rlys, .med, .links, .fabc, .hlk, .harts, .boot, .commit_] ps) (hK : SameBut ps s0 s) :
    SameBut ps s0 (dwinServe s a n w ext).1 := by
  have w1 : Within [.csr, .latchHigh, .evt] ps := Within.trans (by decide +kernel) hW
  have w2 : Within [.csr, .evt] ps := Within.trans (by decide +kernel) hW
  unfold dwinServe
  repeat' (first | with_reducible assumption | with_reducible apply ctlWrite_same hW
                  | with_reducible apply ctlRead_same w1 | with_reducible apply fabServe_same hW
                  | with_reducible apply dwinViol_same w2 | with_reducible refine same_fst (by assumption) ?_
                  | extract_lets | split)

theorem hostResponse_same {ps : List Part} {s0 : State} {s : State} {m : HostMsg} {st : Nat} {d : Bytes}
    (hW : Within [.links] ps) (hK : SameBut ps s0 s) :
    SameBut ps s0 (hostResponse s m st d) := by
  unfold hostResponse
  repeat' (first | with_reducible assumption | with_reducible apply hostSend_same hW)

theorem execHRd_same {ps : List Part} {s0 : State} {m : HostMsg} {ext : Ext} {s : State}
    (hW : Within [.freeCtr, .stamp, .csr, .shadow, .heldLow, .latchHigh, .quiet, .heldWrites, .evt, .rst, .pwr, .cores, .coreHeld, .triggers, .ephResults, .answers, .stks, .fast, .deep, .fastMark, .deepMark, .pages, .pageCache, .holders, .frameMap, .blocks, .frameCur, .blockCur, .slots, .migq, .sweep, .stalled, .stallFail, .plcCh, .plans, .plcFits, .plcRestoring, .nbus, .rowsInFlight, .rowAnswers, .dcache, .outbox, .rlys, .med, .links, .fabc, .hlk, .harts, .boot, .commit_] ps) (hK : SameBut ps s0 s) :
    OutSame ps s0 (execHRd m ext s) := by
  have w1 : Within [.csr, .evt, .links, .fabc] ps := Within.trans (by decide +kernel) hW
  have w2 : Within [.links] ps := Within.trans (by decide +kernel) hW
  unfold execHRd
  repeat' (first | with_reducible assumption | with_reducible apply protoError_same w1
                  | with_reducible apply hostTaken_same w2 | with_reducible apply dwinServe_same hW
                  | with_reducible apply hostResponse_same w2 | with_reducible apply outSame_next
                  | with_reducible refine same_fst (by assumption) ?_ | split)

theorem execHWr_same {ps : List Part} {s0 : State} {m : HostMsg} {ext : Ext} {s : State}
    (hW : Within [.freeCtr, .stamp, .csr, .shadow, .heldLow, .latchHigh, .quiet, .heldWrites, .evt, .rst, .pwr, .cores, .coreHeld, .triggers, .ephResults, .answers, .stks, .fast, .deep, .fastMark, .deepMark, .pages, .pageCache, .holders, .frameMap, .blocks, .frameCur, .blockCur, .slots, .migq, .sweep, .stalled, .stallFail, .plcCh, .plans, .plcFits, .plcRestoring, .nbus, .rowsInFlight, .rowAnswers, .dcache, .outbox, .rlys, .med, .links, .fabc, .hlk, .harts, .boot, .commit_] ps) (hK : SameBut ps s0 s) :
    OutSame ps s0 (execHWr m ext s) := by
  have w1 : Within [.csr, .evt] ps := Within.trans (by decide +kernel) hW
  have w2 : Within [.csr, .evt, .links, .fabc] ps := Within.trans (by decide +kernel) hW
  have w3 : Within [.links] ps := Within.trans (by decide +kernel) hW
  unfold execHWr
  repeat' (first | with_reducible assumption | with_reducible apply bumpOcc_same w1
                  | with_reducible apply protoError_same w2 | with_reducible apply hostTaken_same w3
                  | with_reducible apply dwinServe_same hW | with_reducible apply outSame_next
                  | with_reducible refine same_fst (by assumption) ?_ | extract_lets | split)

theorem endHPart_same {ps : List Part} {s0 : State} {s : State} {q : Nat} {cid : Nat} {op : Nat} {part : Nat}
    {v : HPart}
    (hW : Within [.hlk] ps) (hK : SameBut ps s0 s) :
    SameBut ps s0 (endHPart s q cid op part v) := by
  unfold endHPart
  repeat' (first | with_reducible assumption | with_reducible apply setCmdPart_same hW | split)

theorem cmdReadDev_same {ps : List Part} {s0 : State} {s : State} {key : Nat} {a : Nat} {n : Nat} {ext : Ext}
    (hW : Within [.freeCtr, .stamp, .csr, .shadow, .heldLow, .latchHigh, .quiet, .heldWrites, .evt, .rst, .pwr, .cores, .coreHeld, .triggers, .ephResults, .answers, .stks, .fast, .deep, .fastMark, .deepMark, .pages, .pageCache, .holders, .frameMap, .blocks, .frameCur, .blockCur, .slots, .migq, .sweep, .stalled, .stallFail, .plcCh, .plans, .plcFits, .plcRestoring, .nbus, .rowsInFlight, .rowAnswers, .dcache, .outbox, .rlys, .med, .links, .fabc, .hlk, .harts, .boot, .commit_] ps) (hK : SameBut ps s0 s) :
    SameBut ps s0 (cmdReadDev s key a n ext).1 := by
  have w1 : Within [.csr, .evt] ps := Within.trans (by decide +kernel) hW
  unfold cmdReadDev
  repeat' (first | with_reducible assumption | with_reducible apply hostViol_same w1
                  | with_reducible apply fabServe_same hW | with_reducible refine same_fst (by assumption) ?_
                  | split)

theorem cmdReadHost_same {ps : List Part} {s0 : State} {s : State} {a : Nat} {n : Nat} {ext : Ext}
    (hW : Within [.csr, .evt] ps) (hK : SameBut ps s0 s) :
    SameBut ps s0 (cmdReadHost s a n ext).1 := by
  unfold cmdReadHost
  repeat' (first | with_reducible assumption | with_reducible apply hostViol_same hW | split)

theorem cmdWrite_same {ps : List Part} {s0 : State} {s : State} {key : Nat} {a : Nat} {bs : Bytes} {toHost : Bool}
    {owner : HostOwner} {ext : Ext}
    (hW : Within [.freeCtr, .stamp, .csr, .shadow, .heldLow, .latchHigh, .quiet, .heldWrites, .evt, .rst, .pwr, .cores, .coreHeld, .triggers, .ephResults, .answers, .stks, .fast, .deep, .fastMark, .deepMark, .pages, .pageCache, .holders, .frameMap, .blocks, .frameCur, .blockCur, .slots, .migq, .sweep, .stalled, .stallFail, .plcCh, .plans, .plcFits, .plcRestoring, .nbus, .rowsInFlight, .rowAnswers, .dcache, .outbox, .rlys, .med, .links, .fabc, .hlk, .harts, .boot, .commit_] ps) (hK : SameBut ps s0 s) :
    SameBut ps s0 (cmdWrite s key a bs toHost owner ext).1 := by
  have w1 : Within [.freeCtr, .csr, .evt, .answers, .stks, .fast, .fastMark, .deepMark, .pages, .pageCache, .frameMap, .blocks, .slots, .migq, .stalled, .stallFail, .plcCh, .plans, .links, .hlk] ps := Within.trans (by decide +kernel) hW
  have w2 : Within [] ps := Within.trans (by decide +kernel) hW
  unfold cmdWrite
  repeat' (first | with_reducible assumption | with_reducible apply hostWrite_same w1
                  | with_reducible apply hostEnd_same w2 | with_reducible apply fabServe_same hW | split)

theorem writeEnd_same {ps : List Part} {s0 : State} {q : Nat} {cid : Nat} {op : Nat} {part : Nat}
    {e0 : State × FabRes}
    (hW : Within [.hlk] ps)  (hf_e0 : SameBut ps s0 e0.1) :
    SameBut ps s0 (writeEnd q cid op part e0) := by
  unfold writeEnd
  repeat' (first | with_reducible assumption | with_reducible apply endHPart_same hW | split)

theorem execWriteInline_same {ps : List Part} {s0 : State} {q : Fin 256} {cid : BitVec 16} {ext : Ext} {s : State}
    (hW : Within [.freeCtr, .stamp, .csr, .shadow, .heldLow, .latchHigh, .quiet, .heldWrites, .evt, .rst, .pwr, .cores, .coreHeld, .triggers, .ephResults, .answers, .stks, .fast, .deep, .fastMark, .deepMark, .pages, .pageCache, .holders, .frameMap, .blocks, .frameCur, .blockCur, .slots, .migq, .sweep, .stalled, .stallFail, .plcCh, .plans, .plcFits, .plcRestoring, .nbus, .rowsInFlight, .rowAnswers, .dcache, .outbox, .rlys, .med, .links, .fabc, .hlk, .harts, .boot, .commit_] ps) (hK : SameBut ps s0 s) :
    OutSame ps s0 (execWriteInline q cid ext s) := by
  have w1 : Within [.hlk] ps := Within.trans (by decide +kernel) hW
  unfold execWriteInline
  repeat' (first | with_reducible assumption | with_reducible apply cmdWrite_same hW
                  | with_reducible apply writeEnd_same w1 | with_reducible apply outSame_next | split)

theorem execCopy_same {ps : List Part} {s0 : State} {q : Fin 256} {cid : BitVec 16} {part : Nat} {src : Ext}
    {dst : Ext} {s : State}
    (hW : Within [.freeCtr, .stamp, .csr, .shadow, .heldLow, .latchHigh, .quiet, .heldWrites, .evt, .rst, .pwr, .cores, .coreHeld, .triggers, .ephResults, .answers, .stks, .fast, .deep, .fastMark, .deepMark, .pages, .pageCache, .holders, .frameMap, .blocks, .frameCur, .blockCur, .slots, .migq, .sweep, .stalled, .stallFail, .plcCh, .plans, .plcFits, .plcRestoring, .nbus, .rowsInFlight, .rowAnswers, .dcache, .outbox, .rlys, .med, .links, .fabc, .hlk, .harts, .boot, .commit_] ps) (hK : SameBut ps s0 s) :
    OutSame ps s0 (execCopy q cid part src dst s) := by
  have w1 : Within [.hlk] ps := Within.trans (by decide +kernel) hW
  have w2 : Within [.csr, .evt] ps := Within.trans (by decide +kernel) hW
  unfold execCopy
  repeat' (first | with_reducible assumption | with_reducible apply endHPart_same w1
                  | with_reducible apply cmdReadDev_same hW | with_reducible apply cmdReadHost_same w2
                  | with_reducible apply cmdWrite_same hW | with_reducible apply writeEnd_same w1
                  | with_reducible apply outSame_next | with_reducible refine same_fst (by assumption) ?_
                  | extract_lets | split)

theorem execReadSmall_same {ps : List Part} {s0 : State} {q : Fin 256} {cid : BitVec 16} {ext : Ext} {s : State}
    (hW : Within [.freeCtr, .stamp, .csr, .shadow, .heldLow, .latchHigh, .quiet, .heldWrites, .evt, .rst, .pwr, .cores, .coreHeld, .triggers, .ephResults, .answers, .stks, .fast, .deep, .fastMark, .deepMark, .pages, .pageCache, .holders, .frameMap, .blocks, .frameCur, .blockCur, .slots, .migq, .sweep, .stalled, .stallFail, .plcCh, .plans, .plcFits, .plcRestoring, .nbus, .rowsInFlight, .rowAnswers, .dcache, .outbox, .rlys, .med, .links, .fabc, .hlk, .harts, .boot, .commit_] ps) (hK : SameBut ps s0 s) :
    OutSame ps s0 (execReadSmall q cid ext s) := by
  have w1 : Within [.hlk] ps := Within.trans (by decide +kernel) hW
  unfold execReadSmall
  repeat' (first | with_reducible assumption | with_reducible apply putCmdH_same w1
                  | with_reducible apply cmdReadDev_same hW | with_reducible apply outSame_next
                  | with_reducible refine same_fst (by assumption) ?_ | split)

end Sys2Proof.Machine
end

