-- ==== Sys2Proof/Laws/FrameStrmCmds.lean ====
section
/-! SUPPORT. What the functions of Machine/StrmCmds.lean leave unchanged (see Laws/Frame.lean). -/

set_option Elab.async false -- many small kernel checks: one thread does them
set_option linter.unusedSimpArgs false
set_option simprocs false -- no numeral of a goal is evaluated in these proofs

namespace Sys2Proof.Machine

theorem execStrmPushFetch_same {ps : List Part} {s0 : State} {c : Fin 96} {t : Fin 4} {s : State}
    (hW : Within [.freeCtr, .csr, .evt, .cores, .answers, .stks, .fast, .fastMark, .deepMark, .pages, .pageCache, .frameMap, .blocks, .slots, .migq, .stalled, .stallFail, .plcCh, .plans] ps) (hK : SameBut ps s0 s) :
    OutSame ps s0 (execStrmPushFetch c t s) := by
  have w1 : Within [.cores] ps := Within.trans (by decide +kernel) hW
  have w2 : Within [.csr] ps := Within.trans (by decide +kernel) hW
  have w3 : Within [.freeCtr, .csr, .evt, .answers, .stks, .fast, .fastMark, .deepMark, .pages, .pageCache, .frameMap, .blocks, .slots, .migq, .stalled, .stallFail, .plcCh, .plans] ps := Within.trans (by decide +kernel) hW
  unfold execStrmPushFetch
  repeat' (first | with_reducible assumption | with_reducible apply setCore_same w1
                  | with_reducible apply strmPushFailed_same w2 | with_reducible apply ltaRead_same w3
                  | with_reducible apply outSame_next | with_reducible refine same_fst (by assumption) ?_
                  | extract_lets | split)

theorem execStrmDescStart_same {ps : List Part} {s0 : State} {c : Fin 96} {t : Fin 4} {tsBad : List Nat} {s : State}
    (hW : Within [.cores] ps) (hK : SameBut ps s0 s) :
    OutSame ps s0 (execStrmDescStart c t tsBad s) := by
  unfold execStrmDescStart
  repeat' (first | with_reducible assumption | with_reducible apply setCore_same hW
                  | with_reducible apply outSame_next | extract_lets | split)

theorem cmdReadPeer_same {ps : List Part} {s0 : State} {s : State} {key a n : Nat} {ext : Ext}
    (hW : Within [.freeCtr, .csr, .latchHigh, .evt, .answers, .stks, .fast, .fastMark, .deepMark, .pages, .pageCache, .frameMap, .blocks, .slots, .migq, .stalled, .stallFail, .plcCh, .plans] ps)
    (hK : SameBut ps s0 s) : SameBut ps s0 (runRead.cmdReadPeer s key a n ext).1 := by
  unfold runRead.cmdReadPeer
  split; exact hK
  split; exact hK
  split; exact hK
  split; exact cmdReadHost_same (Within.trans (by decide +kernel) hW) hK
  split; exact ltaRead_same (Within.trans (by decide +kernel) hW) hK
  refine same_foldl1 (fun r p h => ?_) _ _ hK
  split
  · split
    rename_i e
    exact same_fst e (ctlRead_same (Within.trans (by decide +kernel) hW) h)
  · exact h

theorem runRead_same {ps : List Part} {s0 : State} {s : State} {c key sp a n : Nat} {ext : Ext}
    (hW : Within [.freeCtr, .csr, .latchHigh, .evt, .answers, .stks, .fast, .fastMark, .deepMark, .pages, .pageCache, .frameMap, .blocks, .slots, .migq, .stalled, .stallFail, .plcCh, .plans] ps)
    (hK : SameBut ps s0 s) : SameBut ps s0 (runRead s c key sp a n ext).1 := by
  unfold runRead
  extract_lets core
  split
  · exact hK
  · exact hK
  · split
    · exact hK
    · exact ltaRead_same (Within.trans (by decide +kernel) hW) hK
  · exact cmdReadPeer_same hW hK
  · exact cmdReadHost_same (Within.trans (by decide +kernel) hW) hK

theorem coreWrite_same {ps : List Part} {s0 : State} {s : State} {c : Nat} {sp : Nat} {a : Nat} {bs : Bytes}
    (hW : Within [.cores] ps) (hK : SameBut ps s0 s) :
    SameBut ps s0 (coreWrite s c sp a bs).1 := by
  unfold coreWrite
  repeat' (first | with_reducible assumption | with_reducible apply setCore_same hW | extract_lets | split)

theorem runWrite_same {ps : List Part} {s0 : State} {s : State} {c : Nat} {key : Nat} {sp : Nat} {a : Nat}
    {bs : Bytes} {owner : HostOwner} {ext : Ext}
    (hW : Within [.freeCtr, .stamp, .csr, .shadow, .heldLow, .latchHigh, .quiet, .heldWrites, .evt, .rst, .pwr, .cores, .coreHeld, .triggers, .ephResults, .answers, .stks, .fast, .deep, .fastMark, .deepMark, .pages, .pageCache, .holders, .frameMap, .blocks, .frameCur, .blockCur, .slots, .migq, .sweep, .stalled, .stallFail, .plcCh, .plans, .plcFits, .plcRestoring, .nbus, .rowsInFlight, .rowAnswers, .dcache, .outbox, .rlys, .med, .links, .fabc, .hlk, .harts, .boot, .commit_] ps) (hK : SameBut ps s0 s) :
    SameBut ps s0 (runWrite s c key sp a bs owner ext).1 := by
  have w1 : Within [.freeCtr, .csr, .evt, .answers, .stks, .fast, .fastMark, .deepMark, .pages, .pageCache, .frameMap, .blocks, .slots, .migq, .stalled, .stallFail, .plcCh, .plans, .links, .hlk] ps := Within.trans (by decide +kernel) hW
  have w2 : Within [] ps := Within.trans (by decide +kernel) hW
  have w3 : Within [.cores] ps := Within.trans (by decide +kernel) hW
  unfold runWrite
  repeat' (first | with_reducible assumption | with_reducible apply hostWrite_same w1
                  | with_reducible apply ctlWrite_same hW | with_reducible apply hostEnd_same w2
                  | with_reducible apply fabServe_same hW | with_reducible apply coreWrite_same w3
                  | (with_reducible apply same_foldl; (try intros)) | split)

theorem writeKept_same {ps : List Part} {s0 : State} {c : Nat} {key : Nat} {sp : Nat} {a : Nat} {bs : Bytes}
    {owner : HostOwner} {ext : Ext} {e0 : State} {e1 : List (Nat × Nat)}
    (hW : Within [.freeCtr, .stamp, .csr, .shadow, .heldLow, .latchHigh, .quiet, .heldWrites, .evt, .rst, .pwr, .cores, .coreHeld, .triggers, .ephResults, .answers, .stks, .fast, .deep, .fastMark, .deepMark, .pages, .pageCache, .holders, .frameMap, .blocks, .frameCur, .blockCur, .slots, .migq, .sweep, .stalled, .stallFail, .plcCh, .plans, .plcFits, .plcRestoring, .nbus, .rowsInFlight, .rowAnswers, .dcache, .outbox, .rlys, .med, .links, .fabc, .hlk, .harts, .boot, .commit_] ps) (hK : SameBut ps s0 e0) :
    SameBut ps s0 (writeKept c key sp a bs owner ext e0 e1).1 := by
  revert hK
  fun_induction writeKept c key sp a bs owner ext e0 e1 <;> intro hK
  all_goals (repeat' (first | with_reducible assumption | with_reducible apply runWrite_same hW))
  all_goals (try (apply_assumption; repeat' (first | with_reducible assumption | with_reducible apply runWrite_same hW
                                                     | with_reducible refine same_fst (by assumption) ?_)))

theorem endRun_same {ps : List Part} {s0 : State} {s : State} {c : Nat} {t : Nat} {d : Nat} {i : Nat} {st : Nat}
    {n : Nat}
    (hW : Within [.csr, .cores] ps) (hK : SameBut ps s0 s) :
    SameBut ps s0 (endRun s c t d i st n) := by
  have w1 : Within [.csr] ps := Within.trans (by decide +kernel) hW
  have w2 : Within [.cores] ps := Within.trans (by decide +kernel) hW
  unfold endRun
  repeat' (first | with_reducible assumption | with_reducible apply bumpStat_same w1
                  | with_reducible apply setCore_same w2 | extract_lets | split | dsimp +zetaDelta only)

theorem partAway_same {ps : List Part} {s0 : State} {s : State} {c : Nat} {t : Nat} {d : Nat} {i : Nat} {n : Nat}
    (hW : Within [.csr, .cores] ps) (hK : SameBut ps s0 s) :
    SameBut ps s0 (partAway s c t d i n) := by
  have w1 : Within [.csr] ps := Within.trans (by decide +kernel) hW
  have w2 : Within [.cores] ps := Within.trans (by decide +kernel) hW
  unfold partAway
  repeat' (first | with_reducible assumption | with_reducible apply bumpStat_same w1
                  | with_reducible apply setCore_same w2 | extract_lets | split)

theorem execStrmPartDone_same {ps : List Part} {s0 : State} {c : Fin 96} {t : Fin 4} {d : Fin 4} {i : Nat}
    {ext : Ext} {s : State}
    (hW : Within [.freeCtr, .stamp, .csr, .shadow, .heldLow, .latchHigh, .quiet, .heldWrites, .evt, .rst, .pwr, .cores, .coreHeld, .triggers, .ephResults, .answers, .stks, .fast, .deep, .fastMark, .deepMark, .pages, .pageCache, .holders, .frameMap, .blocks, .frameCur, .blockCur, .slots, .migq, .sweep, .stalled, .stallFail, .plcCh, .plans, .plcFits, .plcRestoring, .nbus, .rowsInFlight, .rowAnswers, .dcache, .outbox, .rlys, .med, .links, .fabc, .hlk, .harts, .boot, .commit_] ps) (hK : SameBut ps s0 s) :
    OutSame ps s0 (execStrmPartDone c t d i ext s) := by
  have w1 : Within [.csr] ps := Within.trans (by decide +kernel) hW
  have w2 : Within [.freeCtr, .csr, .latchHigh, .evt, .answers, .stks, .fast, .fastMark, .deepMark, .pages, .pageCache, .frameMap, .blocks, .slots, .migq, .stalled, .stallFail, .plcCh, .plans] ps := Within.trans (by decide +kernel) hW
  have w3 : Within [.csr, .cores] ps := Within.trans (by decide +kernel) hW
  unfold execStrmPartDone
  repeat' (first | with_reducible assumption | with_reducible apply wr_same w1
                  | with_reducible apply runRead_same w2 | with_reducible apply writeKept_same hW
                  | with_reducible apply endRun_same w3 | with_reducible apply partAway_same w3
                  | with_reducible apply outSame_next | with_reducible refine same_fst (by assumption) ?_
                  | extract_lets | split)

theorem execStrmDescComplete_same {ps : List Part} {s0 : State} {c : Fin 96} {t : Fin 4} {d : Fin 4} {s : State}
    (hW : Within [.csr, .evt, .cores, .ephResults] ps) (hK : SameBut ps s0 s) :
    OutSame ps s0 (execStrmDescComplete c t d s) := by
  have w1 : Within [.cores] ps := Within.trans (by decide +kernel) hW
  unfold execStrmDescComplete
  repeat' (first | with_reducible assumption | with_reducible apply setCore_same w1
                  | with_reducible apply strmComplete_same hW | with_reducible apply outSame_next | extract_lets
                  | split)

end Sys2Proof.Machine
end

