-- ==== Sys2Proof/Laws/FrameBootRom.lean ====
section
/-! SUPPORT. What the functions of Machine/BootRom.lean leave unchanged (see Laws/Frame.lean). -/

set_option Elab.async false -- many small kernel checks: one thread does them
set_option linter.unusedSimpArgs false
set_option simprocs false -- no numeral of a goal is evaluated in these proofs

namespace Sys2Proof.Machine

theorem setRom_same {ps : List Part} {s0 : State} {s : State} {r : Rom}
    (hW : Within [.boot] ps) (hK : SameBut ps s0 s) :
    SameBut ps s0 (setRom s r) := by
  unfold setRom
  repeat' (first | with_reducible assumption | with_reducible apply setBoot_same hW)

theorem bootFail_same {ps : List Part} {s0 : State} {s : State}
    (hW : Within [.csr, .evt, .hlk, .harts, .boot] ps) (hK : SameBut ps s0 s) :
    SameBut ps s0 (bootFail s) := by
  have w1 : Within [.csr, .evt] ps := Within.trans (by decide +kernel) hW
  have w2 : Within [.csr, .evt, .hlk, .harts] ps := Within.trans (by decide +kernel) hW
  have w3 : Within [.csr] ps := Within.trans (by decide +kernel) hW
  have w4 : Within [.boot] ps := Within.trans (by decide +kernel) hW
  unfold bootFail
  repeat' (first | with_reducible assumption | with_reducible apply raise_same w1
                  | with_reducible apply haltNow_same w2 | with_reducible apply setPhase_same w3
                  | with_reducible apply setBoot_same w4)

theorem endInSafe_same {ps : List Part} {s0 : State} {s : State}
    (hW : Within [.csr, .boot] ps) (hK : SameBut ps s0 s) :
    SameBut ps s0 (endInSafe s) := by
  have w1 : Within [.csr] ps := Within.trans (by decide +kernel) hW
  have w2 : Within [.boot] ps := Within.trans (by decide +kernel) hW
  unfold endInSafe
  repeat' (first | with_reducible assumption | with_reducible apply setFld_same w1
                  | with_reducible apply showKey_same w1 | with_reducible apply setPhase_same w1
                  | with_reducible apply setRom_same w2)

theorem testFailed_same {ps : List Part} {s0 : State} {s : State} {m : Nat}
    (hW : Within [.stamp, .csr, .shadow, .heldLow, .latchHigh, .quiet, .heldWrites, .evt, .rst, .pwr, .cores, .coreHeld, .triggers, .ephResults, .answers, .stks, .fast, .deep, .fastMark, .deepMark, .pages, .pageCache, .holders, .frameMap, .blocks, .frameCur, .blockCur, .slots, .migq, .sweep, .stalled, .stallFail, .plcCh, .plans, .plcFits, .plcRestoring, .nbus, .rowsInFlight, .rowAnswers, .dcache, .outbox, .rlys, .med, .links, .fabc, .hlk, .harts, .boot, .commit_] ps) (hK : SameBut ps s0 s) :
    SameBut ps s0 (testFailed s m) := by
  have w1 : Within [.csr] ps := Within.trans (by decide +kernel) hW
  have w2 : Within [.stamp, .csr, .shadow, .heldLow, .latchHigh, .quiet, .heldWrites, .evt, .pwr, .cores, .coreHeld, .triggers, .ephResults, .answers, .stks, .fast, .deep, .fastMark, .deepMark, .pages, .pageCache, .holders, .frameMap, .blocks, .frameCur, .blockCur, .slots, .migq, .sweep, .stalled, .stallFail, .plcCh, .plans, .plcFits, .plcRestoring, .nbus, .rowsInFlight, .rowAnswers, .dcache, .outbox, .rlys, .med, .links, .fabc, .hlk, .harts, .boot, .commit_] ps := Within.trans (by decide +kernel) hW
  have w3 : Within [.rst] ps := Within.trans (by decide +kernel) hW
  unfold testFailed
  repeat' (first | with_reducible assumption | with_reducible apply wr_same w1
                  | with_reducible apply setFlag_same w1 | with_reducible apply doReset_same w2
                  | simp only [same_mk_rst w3] | split)

theorem loadIdentity_same {ps : List Part} {s0 : State} {s : State}
    (hW : Within [.csr] ps) (hK : SameBut ps s0 s) :
    SameBut ps s0 (loadIdentity s) := by
  unfold loadIdentity
  repeat' (first | with_reducible assumption | with_reducible apply wr_same hW
                  | with_reducible apply setFlag_same hW | with_reducible apply wrWords_same hW | extract_lets
                  | split)

theorem afterTest_same {ps : List Part} {s0 : State} {s : State}
    (hW : Within [.csr, .boot] ps) (hK : SameBut ps s0 s) :
    SameBut ps s0 (afterTest s) := by
  have w1 : Within [.csr] ps := Within.trans (by decide +kernel) hW
  unfold afterTest
  repeat' (first | with_reducible assumption | with_reducible apply setPhase_same w1
                  | with_reducible apply endInSafe_same hW | extract_lets | split)

theorem romSelfTest_same {ps : List Part} {s0 : State} {s : State}
    (hW : Within [.freeCtr, .stamp, .csr, .shadow, .heldLow, .latchHigh, .quiet, .heldWrites, .evt, .rst, .pwr, .cores, .coreHeld, .triggers, .ephResults, .answers, .stks, .fast, .deep, .fastMark, .deepMark, .pages, .pageCache, .holders, .frameMap, .blocks, .frameCur, .blockCur, .slots, .migq, .sweep, .stalled, .stallFail, .plcCh, .plans, .plcFits, .plcRestoring, .nbus, .rowsInFlight, .rowAnswers, .dcache, .outbox, .rlys, .med, .links, .fabc, .hlk, .harts, .boot, .commit_] ps) (hK : SameBut ps s0 s) :
    SameBut ps s0 (romSelfTest s) := by
  have w1 : Within [.freeCtr] ps := Within.trans (by decide +kernel) hW
  have w2 : Within [.csr, .evt, .hlk, .harts] ps := Within.trans (by decide +kernel) hW
  have w3 : Within [.csr, .evt, .hlk, .harts, .boot] ps := Within.trans (by decide +kernel) hW
  have w4 : Within [.stamp, .csr, .shadow, .heldLow, .latchHigh, .quiet, .heldWrites, .evt, .rst, .pwr, .cores, .coreHeld, .triggers, .ephResults, .answers, .stks, .fast, .deep, .fastMark, .deepMark, .pages, .pageCache, .holders, .frameMap, .blocks, .frameCur, .blockCur, .slots, .migq, .sweep, .stalled, .stallFail, .plcCh, .plans, .plcFits, .plcRestoring, .nbus, .rowsInFlight, .rowAnswers, .dcache, .outbox, .rlys, .med, .links, .fabc, .hlk, .harts, .boot, .commit_] ps := Within.trans (by decide +kernel) hW
  have w5 : Within [.csr] ps := Within.trans (by decide +kernel) hW
  have w6 : Within [.csr, .boot] ps := Within.trans (by decide +kernel) hW
  unfold romSelfTest
  repeat' (first | with_reducible assumption | with_reducible apply fresh_same w1
                  | with_reducible apply haltNow_same w2 | with_reducible apply bootFail_same w3
                  | with_reducible apply testFailed_same w4 | with_reducible apply loadIdentity_same w5
                  | with_reducible apply afterTest_same w6 | with_reducible refine same_snd (by assumption) ?_
                  | extract_lets | split)

theorem romSelect_same {ps : List Part} {s0 : State} {s : State} {r : Rom}
    (hW : Within [.csr, .boot] ps) (hK : SameBut ps s0 s) :
    SameBut ps s0 (romSelect s r) := by
  have w1 : Within [.csr] ps := Within.trans (by decide +kernel) hW
  have w2 : Within [.boot] ps := Within.trans (by decide +kernel) hW
  unfold romSelect
  repeat' (first | with_reducible assumption | with_reducible apply setFld_same w1
                  | with_reducible apply setPhase_same w1 | with_reducible apply setRom_same w2
                  | with_reducible apply endInSafe_same hW | split)

theorem imageFails_same {ps : List Part} {s0 : State} {s : State} {r : Rom}
    (hW : Within [.freeCtr, .csr, .evt, .harts, .boot] ps) (hK : SameBut ps s0 s) :
    SameBut ps s0 (imageFails s r) := by
  have w1 : Within [.csr] ps := Within.trans (by decide +kernel) hW
  have w2 : Within [.csr, .evt] ps := Within.trans (by decide +kernel) hW
  have w3 : Within [.freeCtr] ps := Within.trans (by decide +kernel) hW
  have w4 : Within [.harts] ps := Within.trans (by decide +kernel) hW
  have w5 : Within [.boot] ps := Within.trans (by decide +kernel) hW
  have w6 : Within [.csr, .boot] ps := Within.trans (by decide +kernel) hW
  unfold imageFails
  repeat' (first | with_reducible assumption | with_reducible apply setFlag_same w1
                  | with_reducible apply raise_same w2 | with_reducible apply fresh_same w3
                  | with_reducible apply setHart_same w4 | with_reducible apply setPhase_same w1
                  | with_reducible apply setRom_same w5 | with_reducible apply endInSafe_same w6
                  | with_reducible refine same_snd (by assumption) ?_
                  | (with_reducible apply same_foldl; (try intros)) | extract_lets | split)

theorem writeCode_same {ps : List Part} {s0 : State} {b : Bytes} {s : State} {x : Sect}
    (hW : Within [.harts] ps) (hK : SameBut ps s0 s) :
    SameBut ps s0 (writeCode b s x) := by
  unfold writeCode
  repeat' (first | with_reducible assumption | with_reducible apply setHart_same hW | extract_lets | split)

theorem loadImage_same {ps : List Part} {s0 : State} {s : State} {r : Rom} {b : Bytes} {room : Nat}
    (hW : Within [.freeCtr, .csr, .evt, .harts, .boot] ps) (hK : SameBut ps s0 s) :
    SameBut ps s0 (loadImage s r b room) := by
  have w1 : Within [.csr] ps := Within.trans (by decide +kernel) hW
  have w2 : Within [.boot] ps := Within.trans (by decide +kernel) hW
  have w3 : Within [.harts] ps := Within.trans (by decide +kernel) hW
  unfold loadImage
  repeat' (first | with_reducible assumption | with_reducible apply setPhase_same w1
                  | with_reducible apply setRom_same w2 | with_reducible apply imageFails_same hW
                  | with_reducible apply writeCode_same w3 | (with_reducible apply same_foldl; (try intros))
                  | extract_lets | split)

theorem romLoad_same {ps : List Part} {s0 : State} {s : State} {r : Rom}
    (hW : Within [.freeCtr, .csr, .evt, .harts, .boot] ps) (hK : SameBut ps s0 s) :
    SameBut ps s0 (romLoad s r) := by
  unfold romLoad
  repeat' (first | with_reducible assumption | with_reducible apply loadImage_same hW | extract_lets | split)

theorem applyPerm_same {ps : List Part} {s0 : State} {s : State} {b : Bytes}
    (hW : Within [.csr] ps) (hK : SameBut ps s0 s) :
    SameBut ps s0 (applyPerm s b) := by
  unfold applyPerm
  repeat' (first | with_reducible assumption | with_reducible apply wr_same hW
                  | with_reducible apply setFlag_same hW | (with_reducible apply same_foldl; (try intros))
                  | extract_lets | split)

theorem romVerify_same {ps : List Part} {s0 : State} {s : State} {r : Rom}
    (hW : Within [.freeCtr, .csr, .evt, .harts, .boot] ps) (hK : SameBut ps s0 s) :
    SameBut ps s0 (romVerify s r) := by
  have w1 : Within [.csr] ps := Within.trans (by decide +kernel) hW
  have w2 : Within [.boot] ps := Within.trans (by decide +kernel) hW
  unfold romVerify
  repeat' (first | with_reducible assumption | with_reducible apply wr_same w1 | with_reducible apply setFld_same w1
                  | with_reducible apply setPhase_same w1 | with_reducible apply setBoot_same w2
                  | with_reducible apply setRom_same w2 | with_reducible apply imageFails_same hW
                  | with_reducible apply applyPerm_same w1 | extract_lets | split)

theorem romWrite64_same {ps : List Part} {s0 : State} {s : State} {a : Nat} {v : Nat}
    (hW : Within [.freeCtr, .stamp, .csr, .shadow, .heldLow, .latchHigh, .quiet, .heldWrites, .evt, .rst, .pwr, .cores, .coreHeld, .triggers, .ephResults, .answers, .stks, .fast, .deep, .fastMark, .deepMark, .pages, .pageCache, .holders, .frameMap, .blocks, .frameCur, .blockCur, .slots, .migq, .sweep, .stalled, .stallFail, .plcCh, .plans, .plcFits, .plcRestoring, .nbus, .rowsInFlight, .rowAnswers, .dcache, .outbox, .rlys, .med, .links, .fabc, .hlk, .harts, .boot, .commit_] ps) (hK : SameBut ps s0 s) :
    SameBut ps s0 (romWrite64 s a v) := by
  unfold romWrite64
  repeat' (first | with_reducible assumption | with_reducible apply ctlWrite_same hW)

theorem romRead64_same {ps : List Part} {s0 : State} {s : State} {a : Nat} (hW : Within [.csr, .latchHigh, .evt] ps)
    (hK : SameBut ps s0 s) :
    SameBut ps s0 (romRead64 s a).1 := by
  unfold romRead64
  extract_lets lo hi
  have h1 : SameBut ps s0 lo.1 := ctlRead_same (Within.trans (by decide +kernel) hW) hK
  have h2 : SameBut ps s0 hi.1 := ctlRead_same (Within.trans (by decide +kernel) hW) h1
  exact same_pair h2

theorem recCommit_same {ps : List Part} {s0 : State} {s : State} {r : Rom} {mask : Nat}
    (hW : Within [.freeCtr, .stamp, .csr, .shadow, .heldLow, .latchHigh, .quiet, .heldWrites, .evt, .rst, .pwr, .cores, .coreHeld, .triggers, .ephResults, .answers, .stks, .fast, .deep, .fastMark, .deepMark, .pages, .pageCache, .holders, .frameMap, .blocks, .frameCur, .blockCur, .slots, .migq, .sweep, .stalled, .stallFail, .plcCh, .plans, .plcFits, .plcRestoring, .nbus, .rowsInFlight, .rowAnswers, .dcache, .outbox, .rlys, .med, .links, .fabc, .hlk, .harts, .boot, .commit_] ps)
    (hK : SameBut ps s0 s) :
    SameBut ps s0 (recCommit s r mask).1 := by
  have hr : ∀ {s a}, SameBut ps s0 s → SameBut ps s0 (romRead64 s a).1 :=
    fun h => romRead64_same (Within.trans (by decide +kernel) hW) h
  have hw : ∀ {s a v}, SameBut ps s0 s → SameBut ps s0 (romWrite64 s a v) :=
    fun h => romWrite64_same (Within.trans (by decide +kernel) hW) h
  unfold recCommit
  split
  · extract_lets v q
    have h1 : SameBut ps s0 v.1 := ctlRead_same (Within.trans (by decide +kernel) hW) hK
    have h2 : SameBut ps s0 q.1 := hr h1
    clear_value q v
    split
    · exact h1
    split
    · exact h1
    exact hw h2
  · extract_lets q s2 st s3
    have h1 : SameBut ps s0 q.1 := hr hK
    clear_value q
    have h2 : SameBut ps s0 s2 := by
      subst s2
      split
      · exact h1
      · exact hw h1
    have h3 : SameBut ps s0 st.1 := hr h2
    have h4 : SameBut ps s0 s3 := hw h3
    clear_value s3 st
    split
    · exact ctlWrite_same (Within.trans (by decide +kernel) hW) h4
    · exact h3

theorem recWait_same {ps : List Part} {s0 : State} {s : State} {r : Rom} {a : Nat} {mask : Nat} {want : Nat}
    {tmo : Nat}
    (hW : Within [.csr, .latchHigh, .evt] ps) (hK : SameBut ps s0 s) :
    SameBut ps s0 (recWait s r a mask want tmo).1 := by
  unfold recWait
  repeat' (first | with_reducible assumption | with_reducible apply ctlRead_same hW
                  | with_reducible refine same_fst (by assumption) ?_ | extract_lets | split)

theorem recDo_same {ps : List Part} {s0 : State} {s : State} {r : Rom} {x : Bytes}
    (hW : Within [.freeCtr, .stamp, .csr, .shadow, .heldLow, .latchHigh, .quiet, .heldWrites, .evt, .rst, .pwr, .cores, .coreHeld, .triggers, .ephResults, .answers, .stks, .fast, .deep, .fastMark, .deepMark, .pages, .pageCache, .holders, .frameMap, .blocks, .frameCur, .blockCur, .slots, .migq, .sweep, .stalled, .stallFail, .plcCh, .plans, .plcFits, .plcRestoring, .nbus, .rowsInFlight, .rowAnswers, .dcache, .outbox, .rlys, .med, .links, .fabc, .hlk, .harts, .boot, .commit_] ps) (hK : SameBut ps s0 s) :
    SameBut ps s0 (recDo s r x).1 := by
  have w1 : Within [.csr, .latchHigh, .evt] ps := Within.trans (by decide +kernel) hW
  unfold recDo
  repeat' (first | with_reducible assumption | with_reducible apply ctlWrite_same hW
                  | with_reducible apply recCommit_same hW | with_reducible apply recWait_same w1 | extract_lets
                  | split)

theorem romMeasure_same {ps : List Part} {s0 : State} {s : State} {b : Bytes}
    (hW : Within [.freeCtr, .csr] ps) (hK : SameBut ps s0 s) :
    SameBut ps s0 (romMeasure s b) := by
  have w1 : Within [.freeCtr] ps := Within.trans (by decide +kernel) hW
  have w2 : Within [.csr] ps := Within.trans (by decide +kernel) hW
  unfold romMeasure
  repeat' (first | with_reducible assumption | with_reducible apply fresh_same w1
                  | with_reducible apply extend_same w2)

theorem romConfig_same {ps : List Part} {s0 : State} {s : State} {r : Rom}
    (hW : Within [.freeCtr, .stamp, .csr, .shadow, .heldLow, .latchHigh, .quiet, .heldWrites, .evt, .rst, .pwr, .cores, .coreHeld, .triggers, .ephResults, .answers, .stks, .fast, .deep, .fastMark, .deepMark, .pages, .pageCache, .holders, .frameMap, .blocks, .frameCur, .blockCur, .slots, .migq, .sweep, .stalled, .stallFail, .plcCh, .plans, .plcFits, .plcRestoring, .nbus, .rowsInFlight, .rowAnswers, .dcache, .outbox, .rlys, .med, .links, .fabc, .hlk, .harts, .boot, .commit_] ps) (hK : SameBut ps s0 s) :
    SameBut ps s0 (romConfig s r) := by
  have w1 : Within [.csr, .evt] ps := Within.trans (by decide +kernel) hW
  have w2 : Within [.csr] ps := Within.trans (by decide +kernel) hW
  have w3 : Within [.csr, .evt, .harts, .boot] ps := Within.trans (by decide +kernel) hW
  have w4 : Within [.boot] ps := Within.trans (by decide +kernel) hW
  have w5 : Within [.csr, .evt, .hlk, .harts, .boot] ps := Within.trans (by decide +kernel) hW
  have w6 : Within [.freeCtr, .csr] ps := Within.trans (by decide +kernel) hW
  unfold romConfig
  repeat' (first | with_reducible assumption | with_reducible apply raise_same w1
                  | with_reducible apply setPhase_same w2 | with_reducible apply startFirmware_same w3
                  | with_reducible apply setRom_same w4 | with_reducible apply bootFail_same w5
                  | with_reducible apply recDo_same hW | with_reducible apply romMeasure_same w6
                  | with_reducible refine same_fst (by assumption) ?_ | extract_lets | split)

theorem romStep_same {ps : List Part} {s0 : State} {s : State} {r : Rom}
    (hW : Within [.freeCtr, .stamp, .csr, .shadow, .heldLow, .latchHigh, .quiet, .heldWrites, .evt, .rst, .pwr, .cores, .coreHeld, .triggers, .ephResults, .answers, .stks, .fast, .deep, .fastMark, .deepMark, .pages, .pageCache, .holders, .frameMap, .blocks, .frameCur, .blockCur, .slots, .migq, .sweep, .stalled, .stallFail, .plcCh, .plans, .plcFits, .plcRestoring, .nbus, .rowsInFlight, .rowAnswers, .dcache, .outbox, .rlys, .med, .links, .fabc, .hlk, .harts, .boot, .commit_] ps) (hK : SameBut ps s0 s) :
    SameBut ps s0 (romStep s r) := by
  have w1 : Within [.csr] ps := Within.trans (by decide +kernel) hW
  have w2 : Within [.csr, .boot] ps := Within.trans (by decide +kernel) hW
  have w3 : Within [.freeCtr, .csr, .evt, .harts, .boot] ps := Within.trans (by decide +kernel) hW
  unfold romStep
  repeat' (first | with_reducible assumption | with_reducible apply setPhase_same w1
                  | with_reducible apply romSelfTest_same hW | with_reducible apply romSelect_same w2
                  | with_reducible apply romLoad_same w3 | with_reducible apply romVerify_same w3
                  | with_reducible apply romConfig_same hW | split)

end Sys2Proof.Machine
end

