-- ==== Sys2Proof/Laws/FrameRiscV.lean ====
section
/-! SUPPORT. What the functions of Machine/RiscV.lean leave unchanged (see Laws/Frame.lean). -/

set_option Elab.async false -- many small kernel checks: one thread does them
set_option linter.unusedSimpArgs false
set_option simprocs false -- no numeral of a goal is evaluated in these proofs

namespace Sys2Proof.Machine

theorem csrDo_same {ps : List Part} {s0 s : State} {p : Nat} {write set : Bool} {num : Nat} {rd : Fin 32}
    {src : W64} {writes : Bool}
    (hW : Within [.freeCtr, .harts] ps) (hK : SameBut ps s0 s) : ∀ r, csrDo s p write set num rd src writes = some r → SameBut ps s0 r := by
  intro r hr
  unfold csrDo at hr
  split at hr
  · cases hr
  · split at hr
    · cases hr
    · extract_lets v h h' at hr
      cases hr
      exact setHart_same (Within.trans (by decide +kernel) hW) ((same_mk_freeCtr (Within.trans (by decide +kernel) hW)).2 hK)

theorem takeTrap_same {ps : List Part} {s0 : State} {s : State} {p : Nat} {cause : Nat} {tval : Nat} {irq : Bool}
    (hW : Within [.harts] ps) (hK : SameBut ps s0 s) :
    SameBut ps s0 (takeTrap s p cause tval irq) := by
  unfold takeTrap
  repeat' (first | with_reducible assumption | with_reducible apply setHart_same hW)

end Sys2Proof.Machine
end

