-- ==== Sys2Proof/Laws/FrameProcInstr.lean ====
section
/-! SUPPORT. What the functions of Machine/ProcInstr.lean leave unchanged (see Laws/Frame.lean). -/

set_option Elab.async false -- many small kernel checks: one thread does them
set_option linter.unusedSimpArgs false
set_option simprocs false -- no numeral of a goal is evaluated in these proofs

namespace Sys2Proof.Machine

theorem ldEnd_same {ps : List Part} {s0 : State} {s : State} {p : Nat} {a : Nat} {st : Nat} {d : Bytes}
    (hW : Within [.csr] ps) (hK : SameBut ps s0 s) :
    SameBut ps s0 (ldEnd s p a st d).1 := by
  unfold ldEnd
  repeat' (first | with_reducible assumption | with_reducible apply procErr_same hW | split)

theorem stEnd_same {ps : List Part} {s0 : State} {s : State} {p : Nat} {a : Nat} {st : Nat}
    (hW : Within [.csr] ps) (hK : SameBut ps s0 s) :
    SameBut ps s0 (stEnd s p a st).1 := by
  unfold stEnd
  repeat' (first | with_reducible assumption | with_reducible apply procErr_same hW | split)

theorem cacheFill_same {ps : List Part} {s0 : State} {s : State} {p : Nat} {line : Nat} {d : Bytes}
    (hW : Within [.freeCtr, .dcache] ps) (hK : SameBut ps s0 s) :
    SameBut ps s0 (cacheFill s p line d) := by
  have w1 : Within [.freeCtr] ps := Within.trans (by decide +kernel) hW
  have w2 : Within [.dcache] ps := Within.trans (by decide +kernel) hW
  unfold cacheFill
  repeat' (first | with_reducible assumption | with_reducible apply fresh_same w1 | simp only [same_mk_dcache w2])

theorem cachedLine_same {ps : List Part} {s0 : State} {s : State} {p : Nat} {line : Nat}
    (hW : Within [.freeCtr, .csr, .evt, .answers, .stks, .fast, .fastMark, .deepMark, .pages, .pageCache, .frameMap, .blocks, .slots, .migq, .stalled, .stallFail, .plcCh, .plans, .dcache] ps) (hK : SameBut ps s0 s) :
    SameBut ps s0 (cachedLine s p line).1 := by
  have w1 : Within [.freeCtr, .csr, .evt, .answers, .stks, .fast, .fastMark, .deepMark, .pages, .pageCache, .frameMap, .blocks, .slots, .migq, .stalled, .stallFail, .plcCh, .plans] ps := Within.trans (by decide +kernel) hW
  have w2 : Within [.freeCtr, .dcache] ps := Within.trans (by decide +kernel) hW
  unfold cachedLine
  repeat' (first | with_reducible assumption | with_reducible apply ltaRead_same w1
                  | with_reducible apply cacheFill_same w2 | with_reducible refine same_fst (by assumption) ?_
                  | split)

theorem tensorLoad_same {ps : List Part} {s0 : State} {s : State} {p : Nat} {a : Nat} {lta : Nat} {n : Nat}
    (hW : Within [.freeCtr, .csr, .evt, .answers, .stks, .fast, .fastMark, .deepMark, .pages, .pageCache, .frameMap, .blocks, .slots, .migq, .stalled, .stallFail, .plcCh, .plans, .dcache] ps) (hK : SameBut ps s0 s) :
    SameBut ps s0 (tensorLoad s p a lta n).1 := by
  have w1 : Within [.csr] ps := Within.trans (by decide +kernel) hW
  unfold tensorLoad
  repeat' (first | with_reducible assumption | with_reducible apply ldEnd_same w1
                  | with_reducible apply cachedLine_same hW | with_reducible refine same_fst (by assumption) ?_
                  | extract_lets | split)

theorem cacheUpdate_same {ps : List Part} {s0 : State} {s : State} {p : Nat} {line : Nat} {lta : Nat} {bs : Bytes}
    (hW : Within [.dcache] ps) (hK : SameBut ps s0 s) :
    SameBut ps s0 (cacheUpdate s p line lta bs) := by
  unfold cacheUpdate
  repeat' (first | with_reducible assumption | simp only [same_mk_dcache hW] | split)

theorem tensorStore_same {ps : List Part} {s0 : State} {s : State} {p : Nat} {a : Nat} {lta : Nat} {bs : Bytes}
    (hW : Within [.freeCtr, .csr, .evt, .answers, .stks, .fast, .fastMark, .deepMark, .pages, .pageCache, .frameMap, .blocks, .slots, .migq, .stalled, .stallFail, .plcCh, .plans, .dcache] ps) (hK : SameBut ps s0 s) :
    SameBut ps s0 (tensorStore s p a lta bs).1 := by
  have w1 : Within [.freeCtr, .csr, .evt, .answers, .stks, .fast, .fastMark, .deepMark, .pages, .pageCache, .frameMap, .blocks, .slots, .migq, .stalled, .stallFail, .plcCh, .plans] ps := Within.trans (by decide +kernel) hW
  have w2 : Within [.csr] ps := Within.trans (by decide +kernel) hW
  have w3 : Within [.dcache] ps := Within.trans (by decide +kernel) hW
  unfold tensorStore
  repeat' (first | with_reducible assumption | with_reducible apply ltaWrite_same w1
                  | with_reducible apply stEnd_same w2 | with_reducible apply cacheUpdate_same w3
                  | with_reducible refine same_fst (by assumption) ?_ | extract_lets | split)

theorem hostLoad_same {ps : List Part} {s0 : State} {s : State} {p : Nat} {a : Nat} {h : Nat} {n : Nat} {ext : Ext}
    (hW : Within [.csr, .evt] ps) (hK : SameBut ps s0 s) :
    SameBut ps s0 (hostLoad s p a h n ext).1 := by
  have w1 : Within [.csr] ps := Within.trans (by decide +kernel) hW
  unfold hostLoad
  repeat' (first | with_reducible assumption | with_reducible apply hostViol_same hW
                  | with_reducible apply ldEnd_same w1 | split)

theorem hartWaits_same {ps : List Part} {s0 : State} {s : State} {p : Nat}
    (hW : Within [.harts] ps) (hK : SameBut ps s0 s) :
    SameBut ps s0 (hartWaits s p) := by
  unfold hartWaits
  repeat' (first | with_reducible assumption | with_reducible apply setHart_same hW)

theorem hostStoreEnd_same {ps : List Part} {s0 : State} {p : Nat} {a : Nat} {e0 : State × HostRes}
    (hW : Within [.csr, .harts] ps)  (hf_e0 : SameBut ps s0 e0.1) :
    SameBut ps s0 (hostStoreEnd p a e0).1 := by
  have w1 : Within [.csr] ps := Within.trans (by decide +kernel) hW
  have w2 : Within [.harts] ps := Within.trans (by decide +kernel) hW
  unfold hostStoreEnd
  repeat' (first | with_reducible assumption | with_reducible apply stEnd_same w1
                  | with_reducible apply hartWaits_same w2 | split)

theorem aperLoad_same {ps : List Part} {s0 : State} {s : State} {p : Nat} {a : Nat} {f : Nat} {n : Nat} {ext : Ext}
    (hW : Within [.freeCtr, .stamp, .csr, .shadow, .heldLow, .latchHigh, .quiet, .heldWrites, .evt, .rst, .pwr, .cores, .coreHeld, .triggers, .ephResults, .answers, .stks, .fast, .deep, .fastMark, .deepMark, .pages, .pageCache, .holders, .frameMap, .blocks, .frameCur, .blockCur, .slots, .migq, .sweep, .stalled, .stallFail, .plcCh, .plans, .plcFits, .plcRestoring, .nbus, .rowsInFlight, .rowAnswers, .dcache, .outbox, .rlys, .med, .links, .fabc, .hlk, .harts, .boot, .commit_] ps) (hK : SameBut ps s0 s) :
    SameBut ps s0 (aperLoad s p a f n ext).1 := by
  have w1 : Within [.csr] ps := Within.trans (by decide +kernel) hW
  have w2 : Within [.csr, .evt] ps := Within.trans (by decide +kernel) hW
  unfold aperLoad
  repeat' (first | with_reducible assumption | with_reducible apply fabServe_same hW
                  | with_reducible apply ldEnd_same w1 | with_reducible apply hostLoad_same w2
                  | with_reducible refine same_fst (by assumption) ?_ | split)

theorem aperStore_same {ps : List Part} {s0 : State} {s : State} {p : Nat} {a : Nat} {f : Nat} {bs : Bytes}
    {ext : Ext}
    (hW : Within [.freeCtr, .stamp, .csr, .shadow, .heldLow, .latchHigh, .quiet, .heldWrites, .evt, .rst, .pwr, .cores, .coreHeld, .triggers, .ephResults, .answers, .stks, .fast, .deep, .fastMark, .deepMark, .pages, .pageCache, .holders, .frameMap, .blocks, .frameCur, .blockCur, .slots, .migq, .sweep, .stalled, .stallFail, .plcCh, .plans, .plcFits, .plcRestoring, .nbus, .rowsInFlight, .rowAnswers, .dcache, .outbox, .rlys, .med, .links, .fabc, .hlk, .harts, .boot, .commit_] ps) (hK : SameBut ps s0 s) :
    SameBut ps s0 (aperStore s p a f bs ext).1 := by
  have w1 : Within [.csr] ps := Within.trans (by decide +kernel) hW
  have w2 : Within [.harts] ps := Within.trans (by decide +kernel) hW
  unfold aperStore
  repeat' (first | with_reducible assumption | with_reducible apply fabServe_same hW
                  | with_reducible apply stEnd_same w1 | with_reducible apply hartWaits_same w2
                  | with_reducible refine same_fst (by assumption) ?_ | split)

theorem loadMem_same {ps : List Part} {s0 : State} {s : State} {p : Nat} {a : Nat} {n : Nat} {ext : Ext}
    (hW : Within [.freeCtr, .stamp, .csr, .shadow, .heldLow, .latchHigh, .quiet, .heldWrites, .evt, .rst, .pwr, .cores, .coreHeld, .triggers, .ephResults, .answers, .stks, .fast, .deep, .fastMark, .deepMark, .pages, .pageCache, .holders, .frameMap, .blocks, .frameCur, .blockCur, .slots, .migq, .sweep, .stalled, .stallFail, .plcCh, .plans, .plcFits, .plcRestoring, .nbus, .rowsInFlight, .rowAnswers, .dcache, .outbox, .rlys, .med, .links, .fabc, .hlk, .harts, .boot, .commit_] ps) (hK : SameBut ps s0 s) :
    SameBut ps s0 (loadMem s p a n ext).1 := by
  have w1 : Within [.csr, .latchHigh, .evt] ps := Within.trans (by decide +kernel) hW
  have w2 : Within [.csr] ps := Within.trans (by decide +kernel) hW
  have w3 : Within [.freeCtr, .csr, .evt, .answers, .stks, .fast, .fastMark, .deepMark, .pages, .pageCache, .frameMap, .blocks, .slots, .migq, .stalled, .stallFail, .plcCh, .plans, .dcache] ps := Within.trans (by decide +kernel) hW
  have w4 : Within [.csr, .evt] ps := Within.trans (by decide +kernel) hW
  unfold loadMem
  repeat' (first | with_reducible assumption | with_reducible apply ctlRead_same w1
                  | with_reducible apply ldEnd_same w2 | with_reducible apply tensorLoad_same w3
                  | with_reducible apply hostLoad_same w4 | with_reducible apply aperLoad_same hW | split)

theorem putLocal_same {ps : List Part} {s0 : State} {s : State} {p : Nat} {o : Nat} {bs : Bytes}
    (hW : Within [.harts] ps) (hK : SameBut ps s0 s) :
    SameBut ps s0 (putLocal s p o bs) := by
  unfold putLocal
  repeat' (first | with_reducible assumption | with_reducible apply setHart_same hW)

theorem storeMem_same {ps : List Part} {s0 : State} {s : State} {p : Nat} {a : Nat} {bs : Bytes} {ext : Ext}
    (hW : Within [.freeCtr, .stamp, .csr, .shadow, .heldLow, .latchHigh, .quiet, .heldWrites, .evt, .rst, .pwr, .cores, .coreHeld, .triggers, .ephResults, .answers, .stks, .fast, .deep, .fastMark, .deepMark, .pages, .pageCache, .holders, .frameMap, .blocks, .frameCur, .blockCur, .slots, .migq, .sweep, .stalled, .stallFail, .plcCh, .plans, .plcFits, .plcRestoring, .nbus, .rowsInFlight, .rowAnswers, .dcache, .outbox, .rlys, .med, .links, .fabc, .hlk, .harts, .boot, .commit_] ps) (hK : SameBut ps s0 s) :
    SameBut ps s0 (storeMem s p a bs ext).1 := by
  have w1 : Within [.freeCtr, .csr, .evt, .answers, .stks, .fast, .fastMark, .deepMark, .pages, .pageCache, .frameMap, .blocks, .slots, .migq, .stalled, .stallFail, .plcCh, .plans, .links, .hlk] ps := Within.trans (by decide +kernel) hW
  have w2 : Within [.harts] ps := Within.trans (by decide +kernel) hW
  have w3 : Within [.csr] ps := Within.trans (by decide +kernel) hW
  have w4 : Within [.freeCtr, .csr, .evt, .answers, .stks, .fast, .fastMark, .deepMark, .pages, .pageCache, .frameMap, .blocks, .slots, .migq, .stalled, .stallFail, .plcCh, .plans, .dcache] ps := Within.trans (by decide +kernel) hW
  have w5 : Within [.csr, .harts] ps := Within.trans (by decide +kernel) hW
  unfold storeMem
  repeat' (first | with_reducible assumption | with_reducible apply hostWrite_same w1
                  | with_reducible apply setHart_same w2 | with_reducible apply ctlWrite_same hW
                  | with_reducible apply stEnd_same w3 | with_reducible apply tensorStore_same w4
                  | with_reducible apply hostStoreEnd_same w5 | with_reducible apply aperStore_same hW
                  | with_reducible apply putLocal_same w2 | extract_lets | split)

theorem tensorAmo_same {ps : List Part} {s0 : State} {s : State} {p : Nat} {a : Nat} {lta : Nat} {n : Nat} {v : Nat}
    {op : AmoOp}
    (hW : Within [.freeCtr, .csr, .evt, .answers, .stks, .fast, .fastMark, .deepMark, .pages, .pageCache, .frameMap, .blocks, .slots, .migq, .stalled, .stallFail, .plcCh, .plans, .dcache] ps) (hK : SameBut ps s0 s) :
    SameBut ps s0 (tensorAmo s p a lta n v op).1 := by
  have w2 : Within [.freeCtr, .csr, .evt, .answers, .stks, .fast, .fastMark, .deepMark, .pages, .pageCache, .frameMap, .blocks, .slots, .migq, .stalled, .stallFail, .plcCh, .plans] ps := Within.trans (by decide +kernel) hW
  have w3 : Within [.dcache] ps := Within.trans (by decide +kernel) hW
  have w4 : Within [.csr] ps := Within.trans (by decide +kernel) hW
  unfold tensorAmo
  repeat' (first | with_reducible assumption | with_reducible apply engineLta_same w2
                  | with_reducible apply ltaWrite_same w2 | with_reducible apply dropLine_same w3
                  | with_reducible apply procErr_same w4 | with_reducible refine same_fst (by assumption) ?_
                  | extract_lets | split)

theorem amoMem_same {ps : List Part} {s0 : State} {s : State} {p : Nat} {a : Nat} {n : Nat} {v : Nat} {op : AmoOp}
    (hW : Within [.freeCtr, .csr, .evt, .answers, .stks, .fast, .fastMark, .deepMark, .pages, .pageCache, .frameMap, .blocks, .slots, .migq, .stalled, .stallFail, .plcCh, .plans, .dcache, .harts] ps) (hK : SameBut ps s0 s) :
    SameBut ps s0 (amoMem s p a n v op).1 := by
  have w1 : Within [.harts] ps := Within.trans (by decide +kernel) hW
  have w2 : Within [.freeCtr, .csr, .evt, .answers, .stks, .fast, .fastMark, .deepMark, .pages, .pageCache, .frameMap, .blocks, .slots, .migq, .stalled, .stallFail, .plcCh, .plans, .dcache] ps := Within.trans (by decide +kernel) hW
  unfold amoMem
  repeat' (first | with_reducible assumption | with_reducible apply putLocal_same w1
                  | with_reducible apply tensorAmo_same w2 | split)

theorem toX_same {ps : List Part} {s0 : State} {s : State} {p : Nat} {rd : Fin 32} {v : W64} {pc : Nat}
    (hW : Within [.harts] ps) (hK : SameBut ps s0 s) :
    SameBut ps s0 (toX s p rd v pc).1 := by
  unfold toX
  repeat' (first | with_reducible assumption | with_reducible apply setHart_same hW)

theorem loadDo_same {ps : List Part} {s0 : State} {s : State} {p : Nat} {a : Nat} {n : Nat} {next : Nat} {ext : Ext}
    {put : Hart → Nat → Hart}
    (hW : Within [.freeCtr, .stamp, .csr, .shadow, .heldLow, .latchHigh, .quiet, .heldWrites, .evt, .rst, .pwr, .cores, .coreHeld, .triggers, .ephResults, .answers, .stks, .fast, .deep, .fastMark, .deepMark, .pages, .pageCache, .holders, .frameMap, .blocks, .frameCur, .blockCur, .slots, .migq, .sweep, .stalled, .stallFail, .plcCh, .plans, .plcFits, .plcRestoring, .nbus, .rowsInFlight, .rowAnswers, .dcache, .outbox, .rlys, .med, .links, .fabc, .hlk, .harts, .boot, .commit_] ps) (hK : SameBut ps s0 s) :
    SameBut ps s0 (loadDo s p a n next ext put).1 := by
  have w1 : Within [.harts] ps := Within.trans (by decide +kernel) hW
  unfold loadDo
  repeat' (first | with_reducible assumption | with_reducible apply setHart_same w1
                  | with_reducible apply loadMem_same hW | with_reducible refine same_fst (by assumption) ?_ | split)

theorem storeDo_same {ps : List Part} {s0 : State} {s : State} {p : Nat} {a : Nat} {next : Nat} {bs : Bytes}
    {ext : Ext}
    (hW : Within [.freeCtr, .stamp, .csr, .shadow, .heldLow, .latchHigh, .quiet, .heldWrites, .evt, .rst, .pwr, .cores, .coreHeld, .triggers, .ephResults, .answers, .stks, .fast, .deep, .fastMark, .deepMark, .pages, .pageCache, .holders, .frameMap, .blocks, .frameCur, .blockCur, .slots, .migq, .sweep, .stalled, .stallFail, .plcCh, .plans, .plcFits, .plcRestoring, .nbus, .rowsInFlight, .rowAnswers, .dcache, .outbox, .rlys, .med, .links, .fabc, .hlk, .harts, .boot, .commit_] ps) (hK : SameBut ps s0 s) :
    SameBut ps s0 (storeDo s p a next bs ext).1 := by
  unfold storeDo
  repeat' (first | with_reducible assumption | with_reducible apply storeMem_same hW
                  | with_reducible refine same_fst (by assumption) ?_ | split)

theorem lrDo_same {ps : List Part} {s0 : State} {s : State} {p : Nat} {a : Nat} {n : Nat} {next : Nat} {rd : Fin 32}
    (hW : Within [.harts] ps) (hK : SameBut ps s0 s) :
    SameBut ps s0 (lrDo s p a n next rd).1 := by
  unfold lrDo
  repeat' (first | with_reducible assumption | with_reducible apply setHart_same hW | split)

theorem scDo_same {ps : List Part} {s0 : State} {s : State} {p : Nat} {a : Nat} {n : Nat} {next : Nat} {v : Nat}
    {rd : Fin 32}
    (hW : Within [.harts] ps) (hK : SameBut ps s0 s) :
    SameBut ps s0 (scDo s p a n next v rd).1 := by
  unfold scDo
  repeat' (first | with_reducible assumption | with_reducible apply setHart_same hW
                  | with_reducible apply putLocal_same hW | extract_lets | split)

theorem amoInstr_same {ps : List Part} {s0 : State} {s : State} {p : Nat} {a : Nat} {n : Nat} {next : Nat} {v : Nat}
    {op : AmoOp} {rd : Fin 32}
    (hW : Within [.freeCtr, .csr, .evt, .answers, .stks, .fast, .fastMark, .deepMark, .pages, .pageCache, .frameMap, .blocks, .slots, .migq, .stalled, .stallFail, .plcCh, .plans, .dcache, .harts] ps) (hK : SameBut ps s0 s) :
    SameBut ps s0 (amoInstr s p a n next v op rd).1 := by
  have w1 : Within [.harts] ps := Within.trans (by decide +kernel) hW
  unfold amoInstr
  repeat' (first | with_reducible assumption | with_reducible apply amoMem_same hW
                  | with_reducible apply toX_same w1 | with_reducible refine same_fst (by assumption) ?_ | split)

theorem csrInstr_same {ps : List Part} {s0 : State} {s : State} {p next : Nat} {write set : Bool} {num : Nat}
    {rd : Fin 32} {src : W64}
    {writes : Bool} (hW : Within [.freeCtr, .harts] ps) (hK : SameBut ps s0 s) : SameBut ps s0 (csrInstr s p next write set num rd src writes).1 := by
  unfold csrInstr
  split
  · rename_i e; exact csrDo_same hW hK _ e
  · exact hK

theorem fpInstr_same {ps : List Part} {s0 : State} {s : State} {p : Nat} {f : State × HRes}
    (hW : Within [] ps) (hK : SameBut ps s0 s) (hf_f : SameBut ps s0 f.1) :
    SameBut ps s0 (fpInstr s p f).1 := by
  unfold fpInstr
  repeat' (first | with_reducible assumption | split)

theorem hartOp_same {ps : List Part} {s0 : State} {s : State} {p : Nat} {len : Nat} {op : RvInstr}
    (hW : Within [.freeCtr, .stamp, .csr, .shadow, .heldLow, .latchHigh, .quiet, .heldWrites, .evt, .rst, .pwr, .cores, .coreHeld, .triggers, .ephResults, .answers, .stks, .fast, .deep, .fastMark, .deepMark, .pages, .pageCache, .holders, .frameMap, .blocks, .frameCur, .blockCur, .slots, .migq, .sweep, .stalled, .stallFail, .plcCh, .plans, .plcFits, .plcRestoring, .nbus, .rowsInFlight, .rowAnswers, .dcache, .outbox, .rlys, .med, .links, .fabc, .hlk, .harts, .boot, .commit_] ps) (hK : SameBut ps s0 s) :
    SameBut ps s0 (hartOp s p len op).1 := by
  have w1 : Within [.harts] ps := Within.trans (by decide +kernel) hW
  have w2 : Within [.freeCtr, .csr, .evt, .answers, .stks, .fast, .fastMark, .deepMark, .pages, .pageCache, .frameMap, .blocks, .slots, .migq, .stalled, .stallFail, .plcCh, .plans, .dcache, .harts] ps := Within.trans (by decide +kernel) hW
  have w3 : Within [.freeCtr, .harts] ps := Within.trans (by decide +kernel) hW
  have w4 : Within [] ps := Within.trans (by decide +kernel) hW
  unfold hartOp
  repeat' (first | with_reducible assumption | with_reducible apply setHart_same w1
                  | with_reducible apply toX_same w1 | with_reducible apply loadDo_same hW
                  | with_reducible apply storeDo_same hW | with_reducible apply lrDo_same w1
                  | with_reducible apply scDo_same w1 | with_reducible apply amoInstr_same w2
                  | with_reducible apply csrInstr_same w3 | with_reducible apply fpInstr_same w4 | extract_lets
                  | split)

theorem hartEnd_same {ps : List Part} {s0 : State} {p : Nat} {e0 : State × HRes}
    (hW : Within [.harts] ps)  (hf_e0 : SameBut ps s0 e0.1) :
    SameBut ps s0 (hartEnd p e0) := by
  unfold hartEnd
  repeat' (first | with_reducible assumption | with_reducible apply setHart_same hW
                  | with_reducible apply takeTrap_same hW | split)

theorem hartStep_same {ps : List Part} {s0 : State} {s : State} {p : Nat} {len : Nat} {op : RvInstr}
    {fails : Option Byte}
    (hW : Within [.freeCtr, .stamp, .csr, .shadow, .heldLow, .latchHigh, .quiet, .heldWrites, .evt, .rst, .pwr, .cores, .coreHeld, .triggers, .ephResults, .answers, .stks, .fast, .deep, .fastMark, .deepMark, .pages, .pageCache, .holders, .frameMap, .blocks, .frameCur, .blockCur, .slots, .migq, .sweep, .stalled, .stallFail, .plcCh, .plans, .plcFits, .plcRestoring, .nbus, .rowsInFlight, .rowAnswers, .dcache, .outbox, .rlys, .med, .links, .fabc, .hlk, .harts, .boot, .commit_] ps) (hK : SameBut ps s0 s) :
    SameBut ps s0 (hartStep s p len op fails) := by
  have w1 : Within [.harts] ps := Within.trans (by decide +kernel) hW
  have w2 : Within [.csr] ps := Within.trans (by decide +kernel) hW
  unfold hartStep
  repeat' (first | with_reducible assumption | with_reducible apply setHart_same w1
                  | with_reducible apply procErr_same w2 | with_reducible apply lockup_same hW
                  | with_reducible apply takeTrap_same w1 | with_reducible apply hartOp_same hW
                  | with_reducible apply hartEnd_same w1 | extract_lets | split | dsimp +zetaDelta only)

theorem execProcInstruction_same {ps : List Part} {s0 : State} {p : Fin 8} {op : RvInstr} {len : Nat}
    {fetchFails : Option Byte} {s : State}
    (hW : Within [.freeCtr, .stamp, .csr, .shadow, .heldLow, .latchHigh, .quiet, .heldWrites, .evt, .rst, .pwr, .cores, .coreHeld, .triggers, .ephResults, .answers, .stks, .fast, .deep, .fastMark, .deepMark, .pages, .pageCache, .holders, .frameMap, .blocks, .frameCur, .blockCur, .slots, .migq, .sweep, .stalled, .stallFail, .plcCh, .plans, .plcFits, .plcRestoring, .nbus, .rowsInFlight, .rowAnswers, .dcache, .outbox, .rlys, .med, .links, .fabc, .hlk, .harts, .boot, .commit_] ps) (hK : SameBut ps s0 s) :
    OutSame ps s0 (execProcInstruction p op len fetchFails s) := by
  unfold execProcInstruction
  repeat' (first | with_reducible assumption | with_reducible apply romStep_same hW
                  | with_reducible apply hartStep_same hW | with_reducible apply outSame_next | split)

end Sys2Proof.Machine
end

