-- ==== Sys2Proof/Laws/FrameTick.lean ====
section
/-! SUPPORT. What the functions of Machine/Tick.lean leave unchanged (see Laws/Frame.lean). -/

set_option Elab.async false -- many small kernel checks: one thread does them
set_option linter.unusedSimpArgs false
set_option simprocs false -- no numeral of a goal is evaluated in these proofs

namespace Sys2Proof.Machine

theorem tickThrottle_same {ps : List Part} {s0 : State} {s : State}
    (hW : Within [.csr] ps) (hK : SameBut ps s0 s) :
    SameBut ps s0 (tickThrottle s) := by
  unfold tickThrottle
  repeat' (first | with_reducible assumption | with_reducible apply bumpStat_same hW | split)

theorem tickEff_same {ps : List Part} {s0 : State} {s : State}
    (hW : Within [.freeCtr, .stamp, .csr, .evt, .answers, .stks, .fast, .fastMark, .deepMark, .pages, .pageCache, .frameMap, .blocks, .slots, .migq, .stalled, .stallFail, .plcCh, .plans, .nbus, .fabc] ps) (hK : SameBut ps s0 s) :
    SameBut ps s0 (tickEff s) := by
  have w1 : Within [.freeCtr, .csr, .evt, .answers, .stks, .fast, .fastMark, .deepMark, .pages, .pageCache, .frameMap, .blocks, .slots, .migq, .stalled, .stallFail, .plcCh, .plans, .nbus, .fabc] ps := Within.trans (by decide +kernel) hW
  have w2 : Within [.csr] ps := Within.trans (by decide +kernel) hW
  have w3 : Within [.stamp] ps := Within.trans (by decide +kernel) hW
  unfold tickEff
  repeat' (first | with_reducible assumption | with_reducible apply jrnlWork_same w1
                  | with_reducible apply tickThrottle_same w2 | simp only [same_mk_stamp w3] | split)

end Sys2Proof.Machine
end

