-- ==== Sys2Proof/Laws/SMap.lean ====
section
/-! SUPPORT. Sparse maps: what a read answers after a write, and that every write keeps the canonical form. -/

namespace Sys2Proof.Machine

variable {α : Type} (d : α) (m : SMap α) (k j : Nat)

@[simp] theorem smGet_nil : smGet d [] j = d := rfl

theorem smGet_smDel : smGet d (smDel m k) j = if j = k then d else smGet d m j := by
  induction m with
  | nil => simp [smDel, smGet]
  | cons p m ih =>
    obtain ⟨k', v'⟩ := p
    by_cases h : k' = k <;> by_cases h2 : k' = j <;> grind [smDel, smGet]

theorem smGet_smIns (v : α) (h : ∀ x ∈ m, x.1 ≠ k) :
    smGet d (smIns m k v) j = if j = k then v else smGet d m j := by
  induction m with
  | nil => simp [smIns, smGet, eq_comm]
  | cons p m ih =>
    obtain ⟨k', v'⟩ := p
    have hk : k' ≠ k := h (k', v') (by simp)
    have ih := ih (fun x hx => h x (by simp [hx]))
    unfold smIns
    split
    · simp [smGet, eq_comm]
    · simp only [smGet, ih]; grind

theorem not_mem_smDel : ∀ x ∈ smDel m k, x.1 ≠ k := by
  induction m with
  | nil => simp [smDel]
  | cons p m ih =>
    obtain ⟨k', v'⟩ := p
    unfold smDel
    split
    · exact ih
    · intro x hx; rcases List.mem_cons.1 hx with rfl | hx
      · assumption
      · exact ih x hx

/-- A read after a write: the written key gives the written value, every other key what it gave. -/
@[simp] theorem smGet_smSet [DecidableEq α] (v : α) :
    smGet d (smSet d m k v) j = if j = k then v else smGet d m j := by
  unfold smSet
  split
  · rw [smGet_smDel]; simp_all
  · rw [smGet_smIns _ _ _ _ _ (not_mem_smDel m k), smGet_smDel]; split <;> simp_all

/-- Another key reads as before, whatever an unlisted key reads as. -/
theorem smGet_smSet_ne {α : Type} {d e : α} [DecidableEq α] (m : SMap α) (k : Nat) (v : α) (j : Nat) (h : j ≠ k) :
    smGet e (smSet d m k v) j = smGet e m j := by
  unfold smSet
  split
  · rw [smGet_smDel, if_neg h]
  · rw [smGet_smIns _ _ _ _ _ (not_mem_smDel m k), if_neg h, smGet_smDel, if_neg h]

theorem smGet_smSet_eq {α : Type} {d : α} [DecidableEq α] (m : SMap α) (k : Nat) (v : α) :
    smGet d (smSet d m k v) k = v := by simp

variable [DecidableEq α]

/-- Key `k` may stand first in a map above `lo`. -/
def above : Option Nat → Nat → Prop
  | none, _ => True
  | some l, k => l < k

theorem smWfFrom_cons (lo : Option Nat) (v : α) :
    smWfFrom d lo ((k, v) :: m) = true ↔ above lo k ∧ v ≠ d ∧ smWfFrom d (some k) m = true := by
  cases lo <;> simp [smWfFrom, above, and_assoc]

theorem smWfFrom_weaken {lo lo' : Option Nat} (h : ∀ j, above lo' j → above lo j)
    (w : smWfFrom d lo' m = true) : smWfFrom d lo m = true := by
  cases m with
  | nil => rfl
  | cons p m => rw [smWfFrom_cons] at *; exact ⟨h _ w.1, w.2⟩

theorem smWfFrom_smDel : ∀ (m : SMap α) (lo : Option Nat), smWfFrom d lo m = true → smWfFrom d lo (smDel m k) = true
  | [], _, _ => rfl
  | (k', v') :: m, lo, w => by
    have ⟨a, b, c⟩ := (smWfFrom_cons d m k' lo v').1 w
    unfold smDel
    split
    · refine smWfFrom_weaken d _ ?_ (smWfFrom_smDel m (some k') c)
      intro j hj; cases lo with
      | none => trivial
      | some l => exact Nat.lt_trans a hj
    · exact (smWfFrom_cons _ _ _ _ _).2 ⟨a, b, smWfFrom_smDel m _ c⟩

theorem smWfFrom_smIns (v : α) (hv : v ≠ d) : ∀ (m : SMap α) (lo : Option Nat), above lo k → (∀ x ∈ m, x.1 ≠ k) →
    smWfFrom d lo m = true → smWfFrom d lo (smIns m k v) = true
  | [], lo, a, _, _ => (smWfFrom_cons _ _ _ _ _).2 ⟨a, hv, rfl⟩
  | (k', v') :: m, lo, a, h, w => by
    have ⟨a', b, c⟩ := (smWfFrom_cons d m k' lo v').1 w
    unfold smIns
    split
    · rename_i hlt
      exact (smWfFrom_cons _ _ _ _ _).2 ⟨a, hv, (smWfFrom_cons _ _ _ _ _).2 ⟨hlt, b, c⟩⟩
    · rename_i hge
      have hne : k' ≠ k := h (k', v') (by simp)
      refine (smWfFrom_cons _ _ _ _ _).2 ⟨a', b, smWfFrom_smIns v hv m _ ?_ (fun x hx => h x (by simp [hx])) c⟩
      show k' < k
      omega

/-- A write keeps the canonical form. -/
theorem smSet_wf {m : SMap α} (v : α) (w : smWf d m = true) : smWf d (smSet d m k v) = true := by
  unfold smSet
  split
  · exact smWfFrom_smDel d k m none w
  · rename_i hv
    exact smWfFrom_smIns d k v hv _ _ trivial (not_mem_smDel m k) (smWfFrom_smDel d k m none w)

theorem smWfFrom_filter (f : Nat × α → Bool) : ∀ (m : SMap α) (lo : Option Nat), smWfFrom d lo m = true →
    smWfFrom d lo (m.filter f) = true
  | [], _, _ => rfl
  | (k', v') :: m, lo, w => by
    have ⟨a, b, c⟩ := (smWfFrom_cons d m k' lo v').1 w
    rw [List.filter_cons]
    split
    · exact (smWfFrom_cons _ _ _ _ _).2 ⟨a, b, smWfFrom_filter f m _ c⟩
    · refine smWfFrom_weaken d _ ?_ (smWfFrom_filter f m (some k') c)
      intro j hj; cases lo with
      | none => trivial
      | some l => exact Nat.lt_trans a hj

/-- Dropping entries keeps the canonical form. -/
theorem smFilter_wf {m : SMap α} (f : Nat × α → Bool) (w : smWf d m = true) : smWf d (m.filter f) = true :=
  smWfFrom_filter d f m none w

/-! ### Byte memories -/

theorem memWrite_wf : ∀ {m : List Host.Cell} {a : Nat} {bs : Bytes}, memWf m = true → memWf (memWrite m a bs) = true
  | _, _, [], h => h
  | m, a, b :: _, h => memWrite_wf (m := smSet 0 m a b) (smSet_wf (d := 0) (k := a) (m := m) b h)

theorem memZero_wf {m : List Host.Cell} {a n : Nat} (h : memWf m = true) : memWf (memZero m a n) = true :=
  smFilter_wf 0 _ h

/-- A byte read after a write: a written byte, or the byte that was there. -/
theorem memByte_memWrite : ∀ (m : List Host.Cell) (a : Nat) (bs : Bytes) (x : Nat),
    memByte (memWrite m a bs) x = if a ≤ x ∧ x < a + bs.length then bs[x - a]?.getD 0 else memByte m x
  | m, a, [], x => by rw [memWrite, if_neg (by rw [List.length_nil]; omega)]
  | m, a, b :: bs, x => by
    rw [memWrite, memByte_memWrite _ (a + 1) bs x]
    by_cases h : x = a
    · subst h
      have e : ¬ (x + 1 ≤ x ∧ x < x + 1 + bs.length) := by omega
      rw [if_neg e, if_pos (by simp)]; simp [memByte]
    · have e : memByte (smSet 0 m a b) x = memByte m x := by simp [memByte, h]
      rw [e]
      by_cases h1 : a + 1 ≤ x ∧ x < a + 1 + bs.length
      · have h2 : a ≤ x ∧ x < a + (b :: bs).length := by simp; omega
        obtain ⟨n, hn⟩ : ∃ n, x - a = n + 1 := ⟨x - a - 1, by omega⟩
        rw [if_pos h1, if_pos h2, hn, List.getElem?_cons_succ]; congr 2; omega
      · have h2 : ¬ (a ≤ x ∧ x < a + (b :: bs).length) := by simp; omega
        rw [if_neg h1, if_neg h2]

theorem memByte_memWrite_out {m : List Host.Cell} {a : Nat} {bs : Bytes} {x : Nat} (h : x < a ∨ a + bs.length ≤ x) :
    memByte (memWrite m a bs) x = memByte m x := by
  rw [memByte_memWrite, if_neg (by omega)]

theorem memRead_memWrite : ∀ (bs : Bytes) (m : List Host.Cell) (a : Nat), memRead (memWrite m a bs) a bs.length = bs := by
  intro bs m a
  have key : ∀ (n k : Nat), k + n = bs.length → memRead (memWrite m a bs) (a + k) n = bs.drop k := by
    intro n
    induction n with
    | zero => intro k hk; rw [memRead, List.drop_eq_nil_of_le (by omega)]
    | succ n ih =>
      intro k hk
      rw [memRead, memByte_memWrite, if_pos (by omega), Nat.add_assoc, ih (k + 1) (by omega)]
      have hlt : k < bs.length := by omega
      rw [show a + k - a = k by omega, List.getElem?_eq_getElem hlt, Option.getD_some, List.drop_eq_getElem_cons hlt]
  simpa using key bs.length 0 (by omega)

theorem memByte_memZero (m : List Host.Cell) (a n x : Nat) :
    memByte (memZero m a n) x = if a ≤ x ∧ x < a + n then 0 else memByte m x := by
  unfold memByte memZero
  induction m with
  | nil => simp [smGet]
  | cons p m ih =>
    obtain ⟨k, v⟩ := p
    rw [List.filter_cons]
    split
    · rename_i h
      simp only [Bool.or_eq_true, decide_eq_true_eq] at h
      unfold smGet; rw [ih]; split <;> grind
    · rename_i h
      simp only [Bool.or_eq_true, decide_eq_true_eq] at h
      rw [ih]; simp only [smGet]; grind

end Sys2Proof.Machine
end

