-- ==== Sys2Proof/Laws/State.lean ====
section
/-! SUPPORT. What each named update of the state leaves in each field, and what is read where it wrote. -/

namespace Sys2Proof.Machine

section
variable (s : State)

@[simp] theorem wr_pending (a v : Nat) : (wr s a v).pending = s.pending := rfl
@[simp] theorem wr_busData (a v : Nat) : (wr s a v).busData = s.busData := rfl
@[simp] theorem wr_freeCtr (a v : Nat) : (wr s a v).freeCtr = s.freeCtr := rfl
@[simp] theorem wr_stamp (a v : Nat) : (wr s a v).stamp = s.stamp := rfl
@[simp] theorem wr_shadow (a v : Nat) : (wr s a v).shadow = s.shadow := rfl
@[simp] theorem wr_heldLow (a v : Nat) : (wr s a v).heldLow = s.heldLow := rfl
@[simp] theorem wr_latchHigh (a v : Nat) : (wr s a v).latchHigh = s.latchHigh := rfl
@[simp] theorem wr_quiet (a v : Nat) : (wr s a v).quiet = s.quiet := rfl
@[simp] theorem wr_heldWrites (a v : Nat) : (wr s a v).heldWrites = s.heldWrites := rfl
@[simp] theorem wr_evt (a v : Nat) : (wr s a v).evt = s.evt := rfl
@[simp] theorem wr_rst (a v : Nat) : (wr s a v).rst = s.rst := rfl
@[simp] theorem wr_pwr (a v : Nat) : (wr s a v).pwr = s.pwr := rfl
@[simp] theorem wr_cores (a v : Nat) : (wr s a v).cores = s.cores := rfl
@[simp] theorem wr_coreHeld (a v : Nat) : (wr s a v).coreHeld = s.coreHeld := rfl
@[simp] theorem wr_triggers (a v : Nat) : (wr s a v).triggers = s.triggers := rfl
@[simp] theorem wr_ephResults (a v : Nat) : (wr s a v).ephResults = s.ephResults := rfl
@[simp] theorem wr_answers (a v : Nat) : (wr s a v).answers = s.answers := rfl
@[simp] theorem wr_stks (a v : Nat) : (wr s a v).stks = s.stks := rfl
@[simp] theorem wr_fast (a v : Nat) : (wr s a v).fast = s.fast := rfl
@[simp] theorem wr_deep (a v : Nat) : (wr s a v).deep = s.deep := rfl
@[simp] theorem wr_fastMark (a v : Nat) : (wr s a v).fastMark = s.fastMark := rfl
@[simp] theorem wr_deepMark (a v : Nat) : (wr s a v).deepMark = s.deepMark := rfl
@[simp] theorem wr_pages (a v : Nat) : (wr s a v).pages = s.pages := rfl
@[simp] theorem wr_pageCache (a v : Nat) : (wr s a v).pageCache = s.pageCache := rfl
@[simp] theorem wr_holders (a v : Nat) : (wr s a v).holders = s.holders := rfl
@[simp] theorem wr_frameMap (a v : Nat) : (wr s a v).frameMap = s.frameMap := rfl
@[simp] theorem wr_blocks (a v : Nat) : (wr s a v).blocks = s.blocks := rfl
@[simp] theorem wr_frameCur (a v : Nat) : (wr s a v).frameCur = s.frameCur := rfl
@[simp] theorem wr_blockCur (a v : Nat) : (wr s a v).blockCur = s.blockCur := rfl
@[simp] theorem wr_slots (a v : Nat) : (wr s a v).slots = s.slots := rfl
@[simp] theorem wr_migq (a v : Nat) : (wr s a v).migq = s.migq := rfl
@[simp] theorem wr_sweep (a v : Nat) : (wr s a v).sweep = s.sweep := rfl
@[simp] theorem wr_stalled (a v : Nat) : (wr s a v).stalled = s.stalled := rfl
@[simp] theorem wr_stallFail (a v : Nat) : (wr s a v).stallFail = s.stallFail := rfl
@[simp] theorem wr_plcCh (a v : Nat) : (wr s a v).plcCh = s.plcCh := rfl
@[simp] theorem wr_plans (a v : Nat) : (wr s a v).plans = s.plans := rfl
@[simp] theorem wr_plcFits (a v : Nat) : (wr s a v).plcFits = s.plcFits := rfl
@[simp] theorem wr_plcRestoring (a v : Nat) : (wr s a v).plcRestoring = s.plcRestoring := rfl
@[simp] theorem wr_nbus (a v : Nat) : (wr s a v).nbus = s.nbus := rfl
@[simp] theorem wr_rowsInFlight (a v : Nat) : (wr s a v).rowsInFlight = s.rowsInFlight := rfl
@[simp] theorem wr_rowAnswers (a v : Nat) : (wr s a v).rowAnswers = s.rowAnswers := rfl
@[simp] theorem wr_dcache (a v : Nat) : (wr s a v).dcache = s.dcache := rfl
@[simp] theorem wr_outbox (a v : Nat) : (wr s a v).outbox = s.outbox := rfl
@[simp] theorem wr_rlys (a v : Nat) : (wr s a v).rlys = s.rlys := rfl
@[simp] theorem wr_med (a v : Nat) : (wr s a v).med = s.med := rfl
@[simp] theorem wr_links (a v : Nat) : (wr s a v).links = s.links := rfl
@[simp] theorem wr_fabc (a v : Nat) : (wr s a v).fabc = s.fabc := rfl
@[simp] theorem wr_hlk (a v : Nat) : (wr s a v).hlk = s.hlk := rfl
@[simp] theorem wr_harts (a v : Nat) : (wr s a v).harts = s.harts := rfl
@[simp] theorem wr_boot (a v : Nat) : (wr s a v).boot = s.boot := rfl
@[simp] theorem wr_commit (a v : Nat) : (wr s a v).commit = s.commit := rfl

@[simp] theorem wrShadow_pending (a v : Nat) : (wrShadow s a v).pending = s.pending := rfl
@[simp] theorem wrShadow_busData (a v : Nat) : (wrShadow s a v).busData = s.busData := rfl
@[simp] theorem wrShadow_freeCtr (a v : Nat) : (wrShadow s a v).freeCtr = s.freeCtr := rfl
@[simp] theorem wrShadow_stamp (a v : Nat) : (wrShadow s a v).stamp = s.stamp := rfl
@[simp] theorem wrShadow_csr (a v : Nat) : (wrShadow s a v).csr = s.csr := rfl
@[simp] theorem wrShadow_heldLow (a v : Nat) : (wrShadow s a v).heldLow = s.heldLow := rfl
@[simp] theorem wrShadow_latchHigh (a v : Nat) : (wrShadow s a v).latchHigh = s.latchHigh := rfl
@[simp] theorem wrShadow_quiet (a v : Nat) : (wrShadow s a v).quiet = s.quiet := rfl
@[simp] theorem wrShadow_heldWrites (a v : Nat) : (wrShadow s a v).heldWrites = s.heldWrites := rfl
@[simp] theorem wrShadow_evt (a v : Nat) : (wrShadow s a v).evt = s.evt := rfl
@[simp] theorem wrShadow_rst (a v : Nat) : (wrShadow s a v).rst = s.rst := rfl
@[simp] theorem wrShadow_pwr (a v : Nat) : (wrShadow s a v).pwr = s.pwr := rfl
@[simp] theorem wrShadow_cores (a v : Nat) : (wrShadow s a v).cores = s.cores := rfl
@[simp] theorem wrShadow_coreHeld (a v : Nat) : (wrShadow s a v).coreHeld = s.coreHeld := rfl
@[simp] theorem wrShadow_triggers (a v : Nat) : (wrShadow s a v).triggers = s.triggers := rfl
@[simp] theorem wrShadow_ephResults (a v : Nat) : (wrShadow s a v).ephResults = s.ephResults := rfl
@[simp] theorem wrShadow_answers (a v : Nat) : (wrShadow s a v).answers = s.answers := rfl
@[simp] theorem wrShadow_stks (a v : Nat) : (wrShadow s a v).stks = s.stks := rfl
@[simp] theorem wrShadow_fast (a v : Nat) : (wrShadow s a v).fast = s.fast := rfl
@[simp] theorem wrShadow_deep (a v : Nat) : (wrShadow s a v).deep = s.deep := rfl
@[simp] theorem wrShadow_fastMark (a v : Nat) : (wrShadow s a v).fastMark = s.fastMark := rfl
@[simp] theorem wrShadow_deepMark (a v : Nat) : (wrShadow s a v).deepMark = s.deepMark := rfl
@[simp] theorem wrShadow_pages (a v : Nat) : (wrShadow s a v).pages = s.pages := rfl
@[simp] theorem wrShadow_pageCache (a v : Nat) : (wrShadow s a v).pageCache = s.pageCache := rfl
@[simp] theorem wrShadow_holders (a v : Nat) : (wrShadow s a v).holders = s.holders := rfl
@[simp] theorem wrShadow_frameMap (a v : Nat) : (wrShadow s a v).frameMap = s.frameMap := rfl
@[simp] theorem wrShadow_blocks (a v : Nat) : (wrShadow s a v).blocks = s.blocks := rfl
@[simp] theorem wrShadow_frameCur (a v : Nat) : (wrShadow s a v).frameCur = s.frameCur := rfl
@[simp] theorem wrShadow_blockCur (a v : Nat) : (wrShadow s a v).blockCur = s.blockCur := rfl
@[simp] theorem wrShadow_slots (a v : Nat) : (wrShadow s a v).slots = s.slots := rfl
@[simp] theorem wrShadow_migq (a v : Nat) : (wrShadow s a v).migq = s.migq := rfl
@[simp] theorem wrShadow_sweep (a v : Nat) : (wrShadow s a v).sweep = s.sweep := rfl
@[simp] theorem wrShadow_stalled (a v : Nat) : (wrShadow s a v).stalled = s.stalled := rfl
@[simp] theorem wrShadow_stallFail (a v : Nat) : (wrShadow s a v).stallFail = s.stallFail := rfl
@[simp] theorem wrShadow_plcCh (a v : Nat) : (wrShadow s a v).plcCh = s.plcCh := rfl
@[simp] theorem wrShadow_plans (a v : Nat) : (wrShadow s a v).plans = s.plans := rfl
@[simp] theorem wrShadow_plcFits (a v : Nat) : (wrShadow s a v).plcFits = s.plcFits := rfl
@[simp] theorem wrShadow_plcRestoring (a v : Nat) : (wrShadow s a v).plcRestoring = s.plcRestoring := rfl
@[simp] theorem wrShadow_nbus (a v : Nat) : (wrShadow s a v).nbus = s.nbus := rfl
@[simp] theorem wrShadow_rowsInFlight (a v : Nat) : (wrShadow s a v).rowsInFlight = s.rowsInFlight := rfl
@[simp] theorem wrShadow_rowAnswers (a v : Nat) : (wrShadow s a v).rowAnswers = s.rowAnswers := rfl
@[simp] theorem wrShadow_dcache (a v : Nat) : (wrShadow s a v).dcache = s.dcache := rfl
@[simp] theorem wrShadow_outbox (a v : Nat) : (wrShadow s a v).outbox = s.outbox := rfl
@[simp] theorem wrShadow_rlys (a v : Nat) : (wrShadow s a v).rlys = s.rlys := rfl
@[simp] theorem wrShadow_med (a v : Nat) : (wrShadow s a v).med = s.med := rfl
@[simp] theorem wrShadow_links (a v : Nat) : (wrShadow s a v).links = s.links := rfl
@[simp] theorem wrShadow_fabc (a v : Nat) : (wrShadow s a v).fabc = s.fabc := rfl
@[simp] theorem wrShadow_hlk (a v : Nat) : (wrShadow s a v).hlk = s.hlk := rfl
@[simp] theorem wrShadow_harts (a v : Nat) : (wrShadow s a v).harts = s.harts := rfl
@[simp] theorem wrShadow_boot (a v : Nat) : (wrShadow s a v).boot = s.boot := rfl
@[simp] theorem wrShadow_commit (a v : Nat) : (wrShadow s a v).commit = s.commit := rfl

@[simp] theorem setFld_pending (a hi lo v : Nat) : (setFld s a hi lo v).pending = s.pending := rfl
@[simp] theorem setFld_busData (a hi lo v : Nat) : (setFld s a hi lo v).busData = s.busData := rfl
@[simp] theorem setFld_freeCtr (a hi lo v : Nat) : (setFld s a hi lo v).freeCtr = s.freeCtr := rfl
@[simp] theorem setFld_stamp (a hi lo v : Nat) : (setFld s a hi lo v).stamp = s.stamp := rfl
@[simp] theorem setFld_shadow (a hi lo v : Nat) : (setFld s a hi lo v).shadow = s.shadow := rfl
@[simp] theorem setFld_heldLow (a hi lo v : Nat) : (setFld s a hi lo v).heldLow = s.heldLow := rfl
@[simp] theorem setFld_latchHigh (a hi lo v : Nat) : (setFld s a hi lo v).latchHigh = s.latchHigh := rfl
@[simp] theorem setFld_quiet (a hi lo v : Nat) : (setFld s a hi lo v).quiet = s.quiet := rfl
@[simp] theorem setFld_heldWrites (a hi lo v : Nat) : (setFld s a hi lo v).heldWrites = s.heldWrites := rfl
@[simp] theorem setFld_evt (a hi lo v : Nat) : (setFld s a hi lo v).evt = s.evt := rfl
@[simp] theorem setFld_rst (a hi lo v : Nat) : (setFld s a hi lo v).rst = s.rst := rfl
@[simp] theorem setFld_pwr (a hi lo v : Nat) : (setFld s a hi lo v).pwr = s.pwr := rfl
@[simp] theorem setFld_cores (a hi lo v : Nat) : (setFld s a hi lo v).cores = s.cores := rfl
@[simp] theorem setFld_coreHeld (a hi lo v : Nat) : (setFld s a hi lo v).coreHeld = s.coreHeld := rfl
@[simp] theorem setFld_triggers (a hi lo v : Nat) : (setFld s a hi lo v).triggers = s.triggers := rfl
@[simp] theorem setFld_ephResults (a hi lo v : Nat) : (setFld s a hi lo v).ephResults = s.ephResults := rfl
@[simp] theorem setFld_answers (a hi lo v : Nat) : (setFld s a hi lo v).answers = s.answers := rfl
@[simp] theorem setFld_stks (a hi lo v : Nat) : (setFld s a hi lo v).stks = s.stks := rfl
@[simp] theorem setFld_fast (a hi lo v : Nat) : (setFld s a hi lo v).fast = s.fast := rfl
@[simp] theorem setFld_deep (a hi lo v : Nat) : (setFld s a hi lo v).deep = s.deep := rfl
@[simp] theorem setFld_fastMark (a hi lo v : Nat) : (setFld s a hi lo v).fastMark = s.fastMark := rfl
@[simp] theorem setFld_deepMark (a hi lo v : Nat) : (setFld s a hi lo v).deepMark = s.deepMark := rfl
@[simp] theorem setFld_pages (a hi lo v : Nat) : (setFld s a hi lo v).pages = s.pages := rfl
@[simp] theorem setFld_pageCache (a hi lo v : Nat) : (setFld s a hi lo v).pageCache = s.pageCache := rfl
@[simp] theorem setFld_holders (a hi lo v : Nat) : (setFld s a hi lo v).holders = s.holders := rfl
@[simp] theorem setFld_frameMap (a hi lo v : Nat) : (setFld s a hi lo v).frameMap = s.frameMap := rfl
@[simp] theorem setFld_blocks (a hi lo v : Nat) : (setFld s a hi lo v).blocks = s.blocks := rfl
@[simp] theorem setFld_frameCur (a hi lo v : Nat) : (setFld s a hi lo v).frameCur = s.frameCur := rfl
@[simp] theorem setFld_blockCur (a hi lo v : Nat) : (setFld s a hi lo v).blockCur = s.blockCur := rfl
@[simp] theorem setFld_slots (a hi lo v : Nat) : (setFld s a hi lo v).slots = s.slots := rfl
@[simp] theorem setFld_migq (a hi lo v : Nat) : (setFld s a hi lo v).migq = s.migq := rfl
@[simp] theorem setFld_sweep (a hi lo v : Nat) : (setFld s a hi lo v).sweep = s.sweep := rfl
@[simp] theorem setFld_stalled (a hi lo v : Nat) : (setFld s a hi lo v).stalled = s.stalled := rfl
@[simp] theorem setFld_stallFail (a hi lo v : Nat) : (setFld s a hi lo v).stallFail = s.stallFail := rfl
@[simp] theorem setFld_plcCh (a hi lo v : Nat) : (setFld s a hi lo v).plcCh = s.plcCh := rfl
@[simp] theorem setFld_plans (a hi lo v : Nat) : (setFld s a hi lo v).plans = s.plans := rfl
@[simp] theorem setFld_plcFits (a hi lo v : Nat) : (setFld s a hi lo v).plcFits = s.plcFits := rfl
@[simp] theorem setFld_plcRestoring (a hi lo v : Nat) : (setFld s a hi lo v).plcRestoring = s.plcRestoring := rfl
@[simp] theorem setFld_nbus (a hi lo v : Nat) : (setFld s a hi lo v).nbus = s.nbus := rfl
@[simp] theorem setFld_rowsInFlight (a hi lo v : Nat) : (setFld s a hi lo v).rowsInFlight = s.rowsInFlight := rfl
@[simp] theorem setFld_rowAnswers (a hi lo v : Nat) : (setFld s a hi lo v).rowAnswers = s.rowAnswers := rfl
@[simp] theorem setFld_dcache (a hi lo v : Nat) : (setFld s a hi lo v).dcache = s.dcache := rfl
@[simp] theorem setFld_outbox (a hi lo v : Nat) : (setFld s a hi lo v).outbox = s.outbox := rfl
@[simp] theorem setFld_rlys (a hi lo v : Nat) : (setFld s a hi lo v).rlys = s.rlys := rfl
@[simp] theorem setFld_med (a hi lo v : Nat) : (setFld s a hi lo v).med = s.med := rfl
@[simp] theorem setFld_links (a hi lo v : Nat) : (setFld s a hi lo v).links = s.links := rfl
@[simp] theorem setFld_fabc (a hi lo v : Nat) : (setFld s a hi lo v).fabc = s.fabc := rfl
@[simp] theorem setFld_hlk (a hi lo v : Nat) : (setFld s a hi lo v).hlk = s.hlk := rfl
@[simp] theorem setFld_harts (a hi lo v : Nat) : (setFld s a hi lo v).harts = s.harts := rfl
@[simp] theorem setFld_boot (a hi lo v : Nat) : (setFld s a hi lo v).boot = s.boot := rfl
@[simp] theorem setFld_commit (a hi lo v : Nat) : (setFld s a hi lo v).commit = s.commit := rfl

@[simp] theorem setFlag_pending (a n : Nat) (b : Bool) : (setFlag s a n b).pending = s.pending := rfl
@[simp] theorem setFlag_busData (a n : Nat) (b : Bool) : (setFlag s a n b).busData = s.busData := rfl
@[simp] theorem setFlag_freeCtr (a n : Nat) (b : Bool) : (setFlag s a n b).freeCtr = s.freeCtr := rfl
@[simp] theorem setFlag_stamp (a n : Nat) (b : Bool) : (setFlag s a n b).stamp = s.stamp := rfl
@[simp] theorem setFlag_shadow (a n : Nat) (b : Bool) : (setFlag s a n b).shadow = s.shadow := rfl
@[simp] theorem setFlag_heldLow (a n : Nat) (b : Bool) : (setFlag s a n b).heldLow = s.heldLow := rfl
@[simp] theorem setFlag_latchHigh (a n : Nat) (b : Bool) : (setFlag s a n b).latchHigh = s.latchHigh := rfl
@[simp] theorem setFlag_quiet (a n : Nat) (b : Bool) : (setFlag s a n b).quiet = s.quiet := rfl
@[simp] theorem setFlag_heldWrites (a n : Nat) (b : Bool) : (setFlag s a n b).heldWrites = s.heldWrites := rfl
@[simp] theorem setFlag_evt (a n : Nat) (b : Bool) : (setFlag s a n b).evt = s.evt := rfl
@[simp] theorem setFlag_rst (a n : Nat) (b : Bool) : (setFlag s a n b).rst = s.rst := rfl
@[simp] theorem setFlag_pwr (a n : Nat) (b : Bool) : (setFlag s a n b).pwr = s.pwr := rfl
@[simp] theorem setFlag_cores (a n : Nat) (b : Bool) : (setFlag s a n b).cores = s.cores := rfl
@[simp] theorem setFlag_coreHeld (a n : Nat) (b : Bool) : (setFlag s a n b).coreHeld = s.coreHeld := rfl
@[simp] theorem setFlag_triggers (a n : Nat) (b : Bool) : (setFlag s a n b).triggers = s.triggers := rfl
@[simp] theorem setFlag_ephResults (a n : Nat) (b : Bool) : (setFlag s a n b).ephResults = s.ephResults := rfl
@[simp] theorem setFlag_answers (a n : Nat) (b : Bool) : (setFlag s a n b).answers = s.answers := rfl
@[simp] theorem setFlag_stks (a n : Nat) (b : Bool) : (setFlag s a n b).stks = s.stks := rfl
@[simp] theorem setFlag_fast (a n : Nat) (b : Bool) : (setFlag s a n b).fast = s.fast := rfl
@[simp] theorem setFlag_deep (a n : Nat) (b : Bool) : (setFlag s a n b).deep = s.deep := rfl
@[simp] theorem setFlag_fastMark (a n : Nat) (b : Bool) : (setFlag s a n b).fastMark = s.fastMark := rfl
@[simp] theorem setFlag_deepMark (a n : Nat) (b : Bool) : (setFlag s a n b).deepMark = s.deepMark := rfl
@[simp] theorem setFlag_pages (a n : Nat) (b : Bool) : (setFlag s a n b).pages = s.pages := rfl
@[simp] theorem setFlag_pageCache (a n : Nat) (b : Bool) : (setFlag s a n b).pageCache = s.pageCache := rfl
@[simp] theorem setFlag_holders (a n : Nat) (b : Bool) : (setFlag s a n b).holders = s.holders := rfl
@[simp] theorem setFlag_frameMap (a n : Nat) (b : Bool) : (setFlag s a n b).frameMap = s.frameMap := rfl
@[simp] theorem setFlag_blocks (a n : Nat) (b : Bool) : (setFlag s a n b).blocks = s.blocks := rfl
@[simp] theorem setFlag_frameCur (a n : Nat) (b : Bool) : (setFlag s a n b).frameCur = s.frameCur := rfl
@[simp] theorem setFlag_blockCur (a n : Nat) (b : Bool) : (setFlag s a n b).blockCur = s.blockCur := rfl
@[simp] theorem setFlag_slots (a n : Nat) (b : Bool) : (setFlag s a n b).slots = s.slots := rfl
@[simp] theorem setFlag_migq (a n : Nat) (b : Bool) : (setFlag s a n b).migq = s.migq := rfl
@[simp] theorem setFlag_sweep (a n : Nat) (b : Bool) : (setFlag s a n b).sweep = s.sweep := rfl
@[simp] theorem setFlag_stalled (a n : Nat) (b : Bool) : (setFlag s a n b).stalled = s.stalled := rfl
@[simp] theorem setFlag_stallFail (a n : Nat) (b : Bool) : (setFlag s a n b).stallFail = s.stallFail := rfl
@[simp] theorem setFlag_plcCh (a n : Nat) (b : Bool) : (setFlag s a n b).plcCh = s.plcCh := rfl
@[simp] theorem setFlag_plans (a n : Nat) (b : Bool) : (setFlag s a n b).plans = s.plans := rfl
@[simp] theorem setFlag_plcFits (a n : Nat) (b : Bool) : (setFlag s a n b).plcFits = s.plcFits := rfl
@[simp] theorem setFlag_plcRestoring (a n : Nat) (b : Bool) : (setFlag s a n b).plcRestoring = s.plcRestoring := rfl
@[simp] theorem setFlag_nbus (a n : Nat) (b : Bool) : (setFlag s a n b).nbus = s.nbus := rfl
@[simp] theorem setFlag_rowsInFlight (a n : Nat) (b : Bool) : (setFlag s a n b).rowsInFlight = s.rowsInFlight := rfl
@[simp] theorem setFlag_rowAnswers (a n : Nat) (b : Bool) : (setFlag s a n b).rowAnswers = s.rowAnswers := rfl
@[simp] theorem setFlag_dcache (a n : Nat) (b : Bool) : (setFlag s a n b).dcache = s.dcache := rfl
@[simp] theorem setFlag_outbox (a n : Nat) (b : Bool) : (setFlag s a n b).outbox = s.outbox := rfl
@[simp] theorem setFlag_rlys (a n : Nat) (b : Bool) : (setFlag s a n b).rlys = s.rlys := rfl
@[simp] theorem setFlag_med (a n : Nat) (b : Bool) : (setFlag s a n b).med = s.med := rfl
@[simp] theorem setFlag_links (a n : Nat) (b : Bool) : (setFlag s a n b).links = s.links := rfl
@[simp] theorem setFlag_fabc (a n : Nat) (b : Bool) : (setFlag s a n b).fabc = s.fabc := rfl
@[simp] theorem setFlag_hlk (a n : Nat) (b : Bool) : (setFlag s a n b).hlk = s.hlk := rfl
@[simp] theorem setFlag_harts (a n : Nat) (b : Bool) : (setFlag s a n b).harts = s.harts := rfl
@[simp] theorem setFlag_boot (a n : Nat) (b : Bool) : (setFlag s a n b).boot = s.boot := rfl
@[simp] theorem setFlag_commit (a n : Nat) (b : Bool) : (setFlag s a n b).commit = s.commit := rfl

@[simp] theorem setCore_pending (c : Nat) (k : Core) : (setCore s c k).pending = s.pending := rfl
@[simp] theorem setCore_busData (c : Nat) (k : Core) : (setCore s c k).busData = s.busData := rfl
@[simp] theorem setCore_freeCtr (c : Nat) (k : Core) : (setCore s c k).freeCtr = s.freeCtr := rfl
@[simp] theorem setCore_stamp (c : Nat) (k : Core) : (setCore s c k).stamp = s.stamp := rfl
@[simp] theorem setCore_csr (c : Nat) (k : Core) : (setCore s c k).csr = s.csr := rfl
@[simp] theorem setCore_shadow (c : Nat) (k : Core) : (setCore s c k).shadow = s.shadow := rfl
@[simp] theorem setCore_heldLow (c : Nat) (k : Core) : (setCore s c k).heldLow = s.heldLow := rfl
@[simp] theorem setCore_latchHigh (c : Nat) (k : Core) : (setCore s c k).latchHigh = s.latchHigh := rfl
@[simp] theorem setCore_quiet (c : Nat) (k : Core) : (setCore s c k).quiet = s.quiet := rfl
@[simp] theorem setCore_heldWrites (c : Nat) (k : Core) : (setCore s c k).heldWrites = s.heldWrites := rfl
@[simp] theorem setCore_evt (c : Nat) (k : Core) : (setCore s c k).evt = s.evt := rfl
@[simp] theorem setCore_rst (c : Nat) (k : Core) : (setCore s c k).rst = s.rst := rfl
@[simp] theorem setCore_pwr (c : Nat) (k : Core) : (setCore s c k).pwr = s.pwr := rfl
@[simp] theorem setCore_coreHeld (c : Nat) (k : Core) : (setCore s c k).coreHeld = s.coreHeld := rfl
@[simp] theorem setCore_triggers (c : Nat) (k : Core) : (setCore s c k).triggers = s.triggers := rfl
@[simp] theorem setCore_ephResults (c : Nat) (k : Core) : (setCore s c k).ephResults = s.ephResults := rfl
@[simp] theorem setCore_answers (c : Nat) (k : Core) : (setCore s c k).answers = s.answers := rfl
@[simp] theorem setCore_stks (c : Nat) (k : Core) : (setCore s c k).stks = s.stks := rfl
@[simp] theorem setCore_fast (c : Nat) (k : Core) : (setCore s c k).fast = s.fast := rfl
@[simp] theorem setCore_deep (c : Nat) (k : Core) : (setCore s c k).deep = s.deep := rfl
@[simp] theorem setCore_fastMark (c : Nat) (k : Core) : (setCore s c k).fastMark = s.fastMark := rfl
@[simp] theorem setCore_deepMark (c : Nat) (k : Core) : (setCore s c k).deepMark = s.deepMark := rfl
@[simp] theorem setCore_pages (c : Nat) (k : Core) : (setCore s c k).pages = s.pages := rfl
@[simp] theorem setCore_pageCache (c : Nat) (k : Core) : (setCore s c k).pageCache = s.pageCache := rfl
@[simp] theorem setCore_holders (c : Nat) (k : Core) : (setCore s c k).holders = s.holders := rfl
@[simp] theorem setCore_frameMap (c : Nat) (k : Core) : (setCore s c k).frameMap = s.frameMap := rfl
@[simp] theorem setCore_blocks (c : Nat) (k : Core) : (setCore s c k).blocks = s.blocks := rfl
@[simp] theorem setCore_frameCur (c : Nat) (k : Core) : (setCore s c k).frameCur = s.frameCur := rfl
@[simp] theorem setCore_blockCur (c : Nat) (k : Core) : (setCore s c k).blockCur = s.blockCur := rfl
@[simp] theorem setCore_slots (c : Nat) (k : Core) : (setCore s c k).slots = s.slots := rfl
@[simp] theorem setCore_migq (c : Nat) (k : Core) : (setCore s c k).migq = s.migq := rfl
@[simp] theorem setCore_sweep (c : Nat) (k : Core) : (setCore s c k).sweep = s.sweep := rfl
@[simp] theorem setCore_stalled (c : Nat) (k : Core) : (setCore s c k).stalled = s.stalled := rfl
@[simp] theorem setCore_stallFail (c : Nat) (k : Core) : (setCore s c k).stallFail = s.stallFail := rfl
@[simp] theorem setCore_plcCh (c : Nat) (k : Core) : (setCore s c k).plcCh = s.plcCh := rfl
@[simp] theorem setCore_plans (c : Nat) (k : Core) : (setCore s c k).plans = s.plans := rfl
@[simp] theorem setCore_plcFits (c : Nat) (k : Core) : (setCore s c k).plcFits = s.plcFits := rfl
@[simp] theorem setCore_plcRestoring (c : Nat) (k : Core) : (setCore s c k).plcRestoring = s.plcRestoring := rfl
@[simp] theorem setCore_nbus (c : Nat) (k : Core) : (setCore s c k).nbus = s.nbus := rfl
@[simp] theorem setCore_rowsInFlight (c : Nat) (k : Core) : (setCore s c k).rowsInFlight = s.rowsInFlight := rfl
@[simp] theorem setCore_rowAnswers (c : Nat) (k : Core) : (setCore s c k).rowAnswers = s.rowAnswers := rfl
@[simp] theorem setCore_dcache (c : Nat) (k : Core) : (setCore s c k).dcache = s.dcache := rfl
@[simp] theorem setCore_outbox (c : Nat) (k : Core) : (setCore s c k).outbox = s.outbox := rfl
@[simp] theorem setCore_rlys (c : Nat) (k : Core) : (setCore s c k).rlys = s.rlys := rfl
@[simp] theorem setCore_med (c : Nat) (k : Core) : (setCore s c k).med = s.med := rfl
@[simp] theorem setCore_links (c : Nat) (k : Core) : (setCore s c k).links = s.links := rfl
@[simp] theorem setCore_fabc (c : Nat) (k : Core) : (setCore s c k).fabc = s.fabc := rfl
@[simp] theorem setCore_hlk (c : Nat) (k : Core) : (setCore s c k).hlk = s.hlk := rfl
@[simp] theorem setCore_harts (c : Nat) (k : Core) : (setCore s c k).harts = s.harts := rfl
@[simp] theorem setCore_boot (c : Nat) (k : Core) : (setCore s c k).boot = s.boot := rfl
@[simp] theorem setCore_commit (c : Nat) (k : Core) : (setCore s c k).commit = s.commit := rfl

@[simp] theorem setTgt_pending (t : Nat) (v : Target) : (setTgt s t v).pending = s.pending := rfl
@[simp] theorem setTgt_busData (t : Nat) (v : Target) : (setTgt s t v).busData = s.busData := rfl
@[simp] theorem setTgt_freeCtr (t : Nat) (v : Target) : (setTgt s t v).freeCtr = s.freeCtr := rfl
@[simp] theorem setTgt_stamp (t : Nat) (v : Target) : (setTgt s t v).stamp = s.stamp := rfl
@[simp] theorem setTgt_csr (t : Nat) (v : Target) : (setTgt s t v).csr = s.csr := rfl
@[simp] theorem setTgt_shadow (t : Nat) (v : Target) : (setTgt s t v).shadow = s.shadow := rfl
@[simp] theorem setTgt_heldLow (t : Nat) (v : Target) : (setTgt s t v).heldLow = s.heldLow := rfl
@[simp] theorem setTgt_latchHigh (t : Nat) (v : Target) : (setTgt s t v).latchHigh = s.latchHigh := rfl
@[simp] theorem setTgt_quiet (t : Nat) (v : Target) : (setTgt s t v).quiet = s.quiet := rfl
@[simp] theorem setTgt_heldWrites (t : Nat) (v : Target) : (setTgt s t v).heldWrites = s.heldWrites := rfl
@[simp] theorem setTgt_rst (t : Nat) (v : Target) : (setTgt s t v).rst = s.rst := rfl
@[simp] theorem setTgt_pwr (t : Nat) (v : Target) : (setTgt s t v).pwr = s.pwr := rfl
@[simp] theorem setTgt_cores (t : Nat) (v : Target) : (setTgt s t v).cores = s.cores := rfl
@[simp] theorem setTgt_coreHeld (t : Nat) (v : Target) : (setTgt s t v).coreHeld = s.coreHeld := rfl
@[simp] theorem setTgt_triggers (t : Nat) (v : Target) : (setTgt s t v).triggers = s.triggers := rfl
@[simp] theorem setTgt_ephResults (t : Nat) (v : Target) : (setTgt s t v).ephResults = s.ephResults := rfl
@[simp] theorem setTgt_answers (t : Nat) (v : Target) : (setTgt s t v).answers = s.answers := rfl
@[simp] theorem setTgt_stks (t : Nat) (v : Target) : (setTgt s t v).stks = s.stks := rfl
@[simp] theorem setTgt_fast (t : Nat) (v : Target) : (setTgt s t v).fast = s.fast := rfl
@[simp] theorem setTgt_deep (t : Nat) (v : Target) : (setTgt s t v).deep = s.deep := rfl
@[simp] theorem setTgt_fastMark (t : Nat) (v : Target) : (setTgt s t v).fastMark = s.fastMark := rfl
@[simp] theorem setTgt_deepMark (t : Nat) (v : Target) : (setTgt s t v).deepMark = s.deepMark := rfl
@[simp] theorem setTgt_pages (t : Nat) (v : Target) : (setTgt s t v).pages = s.pages := rfl
@[simp] theorem setTgt_pageCache (t : Nat) (v : Target) : (setTgt s t v).pageCache = s.pageCache := rfl
@[simp] theorem setTgt_holders (t : Nat) (v : Target) : (setTgt s t v).holders = s.holders := rfl
@[simp] theorem setTgt_frameMap (t : Nat) (v : Target) : (setTgt s t v).frameMap = s.frameMap := rfl
@[simp] theorem setTgt_blocks (t : Nat) (v : Target) : (setTgt s t v).blocks = s.blocks := rfl
@[simp] theorem setTgt_frameCur (t : Nat) (v : Target) : (setTgt s t v).frameCur = s.frameCur := rfl
@[simp] theorem setTgt_blockCur (t : Nat) (v : Target) : (setTgt s t v).blockCur = s.blockCur := rfl
@[simp] theorem setTgt_slots (t : Nat) (v : Target) : (setTgt s t v).slots = s.slots := rfl
@[simp] theorem setTgt_migq (t : Nat) (v : Target) : (setTgt s t v).migq = s.migq := rfl
@[simp] theorem setTgt_sweep (t : Nat) (v : Target) : (setTgt s t v).sweep = s.sweep := rfl
@[simp] theorem setTgt_stalled (t : Nat) (v : Target) : (setTgt s t v).stalled = s.stalled := rfl
@[simp] theorem setTgt_stallFail (t : Nat) (v : Target) : (setTgt s t v).stallFail = s.stallFail := rfl
@[simp] theorem setTgt_plcCh (t : Nat) (v : Target) : (setTgt s t v).plcCh = s.plcCh := rfl
@[simp] theorem setTgt_plans (t : Nat) (v : Target) : (setTgt s t v).plans = s.plans := rfl
@[simp] theorem setTgt_plcFits (t : Nat) (v : Target) : (setTgt s t v).plcFits = s.plcFits := rfl
@[simp] theorem setTgt_plcRestoring (t : Nat) (v : Target) : (setTgt s t v).plcRestoring = s.plcRestoring := rfl
@[simp] theorem setTgt_nbus (t : Nat) (v : Target) : (setTgt s t v).nbus = s.nbus := rfl
@[simp] theorem setTgt_rowsInFlight (t : Nat) (v : Target) : (setTgt s t v).rowsInFlight = s.rowsInFlight := rfl
@[simp] theorem setTgt_rowAnswers (t : Nat) (v : Target) : (setTgt s t v).rowAnswers = s.rowAnswers := rfl
@[simp] theorem setTgt_dcache (t : Nat) (v : Target) : (setTgt s t v).dcache = s.dcache := rfl
@[simp] theorem setTgt_outbox (t : Nat) (v : Target) : (setTgt s t v).outbox = s.outbox := rfl
@[simp] theorem setTgt_rlys (t : Nat) (v : Target) : (setTgt s t v).rlys = s.rlys := rfl
@[simp] theorem setTgt_med (t : Nat) (v : Target) : (setTgt s t v).med = s.med := rfl
@[simp] theorem setTgt_links (t : Nat) (v : Target) : (setTgt s t v).links = s.links := rfl
@[simp] theorem setTgt_fabc (t : Nat) (v : Target) : (setTgt s t v).fabc = s.fabc := rfl
@[simp] theorem setTgt_hlk (t : Nat) (v : Target) : (setTgt s t v).hlk = s.hlk := rfl
@[simp] theorem setTgt_harts (t : Nat) (v : Target) : (setTgt s t v).harts = s.harts := rfl
@[simp] theorem setTgt_boot (t : Nat) (v : Target) : (setTgt s t v).boot = s.boot := rfl
@[simp] theorem setTgt_commit (t : Nat) (v : Target) : (setTgt s t v).commit = s.commit := rfl

@[simp] theorem poolPut_pending (r : EvRec) : (poolPut s r).pending = s.pending := rfl
@[simp] theorem poolPut_busData (r : EvRec) : (poolPut s r).busData = s.busData := rfl
@[simp] theorem poolPut_freeCtr (r : EvRec) : (poolPut s r).freeCtr = s.freeCtr := rfl
@[simp] theorem poolPut_stamp (r : EvRec) : (poolPut s r).stamp = s.stamp := rfl
@[simp] theorem poolPut_csr (r : EvRec) : (poolPut s r).csr = s.csr := rfl
@[simp] theorem poolPut_shadow (r : EvRec) : (poolPut s r).shadow = s.shadow := rfl
@[simp] theorem poolPut_heldLow (r : EvRec) : (poolPut s r).heldLow = s.heldLow := rfl
@[simp] theorem poolPut_latchHigh (r : EvRec) : (poolPut s r).latchHigh = s.latchHigh := rfl
@[simp] theorem poolPut_quiet (r : EvRec) : (poolPut s r).quiet = s.quiet := rfl
@[simp] theorem poolPut_heldWrites (r : EvRec) : (poolPut s r).heldWrites = s.heldWrites := rfl
@[simp] theorem poolPut_rst (r : EvRec) : (poolPut s r).rst = s.rst := rfl
@[simp] theorem poolPut_pwr (r : EvRec) : (poolPut s r).pwr = s.pwr := rfl
@[simp] theorem poolPut_cores (r : EvRec) : (poolPut s r).cores = s.cores := rfl
@[simp] theorem poolPut_coreHeld (r : EvRec) : (poolPut s r).coreHeld = s.coreHeld := rfl
@[simp] theorem poolPut_triggers (r : EvRec) : (poolPut s r).triggers = s.triggers := rfl
@[simp] theorem poolPut_ephResults (r : EvRec) : (poolPut s r).ephResults = s.ephResults := rfl
@[simp] theorem poolPut_answers (r : EvRec) : (poolPut s r).answers = s.answers := rfl
@[simp] theorem poolPut_stks (r : EvRec) : (poolPut s r).stks = s.stks := rfl
@[simp] theorem poolPut_fast (r : EvRec) : (poolPut s r).fast = s.fast := rfl
@[simp] theorem poolPut_deep (r : EvRec) : (poolPut s r).deep = s.deep := rfl
@[simp] theorem poolPut_fastMark (r : EvRec) : (poolPut s r).fastMark = s.fastMark := rfl
@[simp] theorem poolPut_deepMark (r : EvRec) : (poolPut s r).deepMark = s.deepMark := rfl
@[simp] theorem poolPut_pages (r : EvRec) : (poolPut s r).pages = s.pages := rfl
@[simp] theorem poolPut_pageCache (r : EvRec) : (poolPut s r).pageCache = s.pageCache := rfl
@[simp] theorem poolPut_holders (r : EvRec) : (poolPut s r).holders = s.holders := rfl
@[simp] theorem poolPut_frameMap (r : EvRec) : (poolPut s r).frameMap = s.frameMap := rfl
@[simp] theorem poolPut_blocks (r : EvRec) : (poolPut s r).blocks = s.blocks := rfl
@[simp] theorem poolPut_frameCur (r : EvRec) : (poolPut s r).frameCur = s.frameCur := rfl
@[simp] theorem poolPut_blockCur (r : EvRec) : (poolPut s r).blockCur = s.blockCur := rfl
@[simp] theorem poolPut_slots (r : EvRec) : (poolPut s r).slots = s.slots := rfl
@[simp] theorem poolPut_migq (r : EvRec) : (poolPut s r).migq = s.migq := rfl
@[simp] theorem poolPut_sweep (r : EvRec) : (poolPut s r).sweep = s.sweep := rfl
@[simp] theorem poolPut_stalled (r : EvRec) : (poolPut s r).stalled = s.stalled := rfl
@[simp] theorem poolPut_stallFail (r : EvRec) : (poolPut s r).stallFail = s.stallFail := rfl
@[simp] theorem poolPut_plcCh (r : EvRec) : (poolPut s r).plcCh = s.plcCh := rfl
@[simp] theorem poolPut_plans (r : EvRec) : (poolPut s r).plans = s.plans := rfl
@[simp] theorem poolPut_plcFits (r : EvRec) : (poolPut s r).plcFits = s.plcFits := rfl
@[simp] theorem poolPut_plcRestoring (r : EvRec) : (poolPut s r).plcRestoring = s.plcRestoring := rfl
@[simp] theorem poolPut_nbus (r : EvRec) : (poolPut s r).nbus = s.nbus := rfl
@[simp] theorem poolPut_rowsInFlight (r : EvRec) : (poolPut s r).rowsInFlight = s.rowsInFlight := rfl
@[simp] theorem poolPut_rowAnswers (r : EvRec) : (poolPut s r).rowAnswers = s.rowAnswers := rfl
@[simp] theorem poolPut_dcache (r : EvRec) : (poolPut s r).dcache = s.dcache := rfl
@[simp] theorem poolPut_outbox (r : EvRec) : (poolPut s r).outbox = s.outbox := rfl
@[simp] theorem poolPut_rlys (r : EvRec) : (poolPut s r).rlys = s.rlys := rfl
@[simp] theorem poolPut_med (r : EvRec) : (poolPut s r).med = s.med := rfl
@[simp] theorem poolPut_links (r : EvRec) : (poolPut s r).links = s.links := rfl
@[simp] theorem poolPut_fabc (r : EvRec) : (poolPut s r).fabc = s.fabc := rfl
@[simp] theorem poolPut_hlk (r : EvRec) : (poolPut s r).hlk = s.hlk := rfl
@[simp] theorem poolPut_harts (r : EvRec) : (poolPut s r).harts = s.harts := rfl
@[simp] theorem poolPut_boot (r : EvRec) : (poolPut s r).boot = s.boot := rfl
@[simp] theorem poolPut_commit (r : EvRec) : (poolPut s r).commit = s.commit := rfl

@[simp] theorem setHart_pending (p : Nat) (h : Hart) : (setHart s p h).pending = s.pending := rfl
@[simp] theorem setHart_busData (p : Nat) (h : Hart) : (setHart s p h).busData = s.busData := rfl
@[simp] theorem setHart_freeCtr (p : Nat) (h : Hart) : (setHart s p h).freeCtr = s.freeCtr := rfl
@[simp] theorem setHart_stamp (p : Nat) (h : Hart) : (setHart s p h).stamp = s.stamp := rfl
@[simp] theorem setHart_csr (p : Nat) (h : Hart) : (setHart s p h).csr = s.csr := rfl
@[simp] theorem setHart_shadow (p : Nat) (h : Hart) : (setHart s p h).shadow = s.shadow := rfl
@[simp] theorem setHart_heldLow (p : Nat) (h : Hart) : (setHart s p h).heldLow = s.heldLow := rfl
@[simp] theorem setHart_latchHigh (p : Nat) (h : Hart) : (setHart s p h).latchHigh = s.latchHigh := rfl
@[simp] theorem setHart_quiet (p : Nat) (h : Hart) : (setHart s p h).quiet = s.quiet := rfl
@[simp] theorem setHart_heldWrites (p : Nat) (h : Hart) : (setHart s p h).heldWrites = s.heldWrites := rfl
@[simp] theorem setHart_evt (p : Nat) (h : Hart) : (setHart s p h).evt = s.evt := rfl
@[simp] theorem setHart_rst (p : Nat) (h : Hart) : (setHart s p h).rst = s.rst := rfl
@[simp] theorem setHart_pwr (p : Nat) (h : Hart) : (setHart s p h).pwr = s.pwr := rfl
@[simp] theorem setHart_cores (p : Nat) (h : Hart) : (setHart s p h).cores = s.cores := rfl
@[simp] theorem setHart_coreHeld (p : Nat) (h : Hart) : (setHart s p h).coreHeld = s.coreHeld := rfl
@[simp] theorem setHart_triggers (p : Nat) (h : Hart) : (setHart s p h).triggers = s.triggers := rfl
@[simp] theorem setHart_ephResults (p : Nat) (h : Hart) : (setHart s p h).ephResults = s.ephResults := rfl
@[simp] theorem setHart_answers (p : Nat) (h : Hart) : (setHart s p h).answers = s.answers := rfl
@[simp] theorem setHart_stks (p : Nat) (h : Hart) : (setHart s p h).stks = s.stks := rfl
@[simp] theorem setHart_fast (p : Nat) (h : Hart) : (setHart s p h).fast = s.fast := rfl
@[simp] theorem setHart_deep (p : Nat) (h : Hart) : (setHart s p h).deep = s.deep := rfl
@[simp] theorem setHart_fastMark (p : Nat) (h : Hart) : (setHart s p h).fastMark = s.fastMark := rfl
@[simp] theorem setHart_deepMark (p : Nat) (h : Hart) : (setHart s p h).deepMark = s.deepMark := rfl
@[simp] theorem setHart_pages (p : Nat) (h : Hart) : (setHart s p h).pages = s.pages := rfl
@[simp] theorem setHart_pageCache (p : Nat) (h : Hart) : (setHart s p h).pageCache = s.pageCache := rfl
@[simp] theorem setHart_holders (p : Nat) (h : Hart) : (setHart s p h).holders = s.holders := rfl
@[simp] theorem setHart_frameMap (p : Nat) (h : Hart) : (setHart s p h).frameMap = s.frameMap := rfl
@[simp] theorem setHart_blocks (p : Nat) (h : Hart) : (setHart s p h).blocks = s.blocks := rfl
@[simp] theorem setHart_frameCur (p : Nat) (h : Hart) : (setHart s p h).frameCur = s.frameCur := rfl
@[simp] theorem setHart_blockCur (p : Nat) (h : Hart) : (setHart s p h).blockCur = s.blockCur := rfl
@[simp] theorem setHart_slots (p : Nat) (h : Hart) : (setHart s p h).slots = s.slots := rfl
@[simp] theorem setHart_migq (p : Nat) (h : Hart) : (setHart s p h).migq = s.migq := rfl
@[simp] theorem setHart_sweep (p : Nat) (h : Hart) : (setHart s p h).sweep = s.sweep := rfl
@[simp] theorem setHart_stalled (p : Nat) (h : Hart) : (setHart s p h).stalled = s.stalled := rfl
@[simp] theorem setHart_stallFail (p : Nat) (h : Hart) : (setHart s p h).stallFail = s.stallFail := rfl
@[simp] theorem setHart_plcCh (p : Nat) (h : Hart) : (setHart s p h).plcCh = s.plcCh := rfl
@[simp] theorem setHart_plans (p : Nat) (h : Hart) : (setHart s p h).plans = s.plans := rfl
@[simp] theorem setHart_plcFits (p : Nat) (h : Hart) : (setHart s p h).plcFits = s.plcFits := rfl
@[simp] theorem setHart_plcRestoring (p : Nat) (h : Hart) : (setHart s p h).plcRestoring = s.plcRestoring := rfl
@[simp] theorem setHart_nbus (p : Nat) (h : Hart) : (setHart s p h).nbus = s.nbus := rfl
@[simp] theorem setHart_rowsInFlight (p : Nat) (h : Hart) : (setHart s p h).rowsInFlight = s.rowsInFlight := rfl
@[simp] theorem setHart_rowAnswers (p : Nat) (h : Hart) : (setHart s p h).rowAnswers = s.rowAnswers := rfl
@[simp] theorem setHart_dcache (p : Nat) (h : Hart) : (setHart s p h).dcache = s.dcache := rfl
@[simp] theorem setHart_outbox (p : Nat) (h : Hart) : (setHart s p h).outbox = s.outbox := rfl
@[simp] theorem setHart_rlys (p : Nat) (h : Hart) : (setHart s p h).rlys = s.rlys := rfl
@[simp] theorem setHart_med (p : Nat) (h : Hart) : (setHart s p h).med = s.med := rfl
@[simp] theorem setHart_links (p : Nat) (h : Hart) : (setHart s p h).links = s.links := rfl
@[simp] theorem setHart_fabc (p : Nat) (h : Hart) : (setHart s p h).fabc = s.fabc := rfl
@[simp] theorem setHart_hlk (p : Nat) (h : Hart) : (setHart s p h).hlk = s.hlk := rfl
@[simp] theorem setHart_boot (p : Nat) (h : Hart) : (setHart s p h).boot = s.boot := rfl
@[simp] theorem setHart_commit (p : Nat) (h : Hart) : (setHart s p h).commit = s.commit := rfl

@[simp] theorem setBoot_pending (b : Boot) : (setBoot s b).pending = s.pending := rfl
@[simp] theorem setBoot_busData (b : Boot) : (setBoot s b).busData = s.busData := rfl
@[simp] theorem setBoot_freeCtr (b : Boot) : (setBoot s b).freeCtr = s.freeCtr := rfl
@[simp] theorem setBoot_stamp (b : Boot) : (setBoot s b).stamp = s.stamp := rfl
@[simp] theorem setBoot_csr (b : Boot) : (setBoot s b).csr = s.csr := rfl
@[simp] theorem setBoot_shadow (b : Boot) : (setBoot s b).shadow = s.shadow := rfl
@[simp] theorem setBoot_heldLow (b : Boot) : (setBoot s b).heldLow = s.heldLow := rfl
@[simp] theorem setBoot_latchHigh (b : Boot) : (setBoot s b).latchHigh = s.latchHigh := rfl
@[simp] theorem setBoot_quiet (b : Boot) : (setBoot s b).quiet = s.quiet := rfl
@[simp] theorem setBoot_heldWrites (b : Boot) : (setBoot s b).heldWrites = s.heldWrites := rfl
@[simp] theorem setBoot_evt (b : Boot) : (setBoot s b).evt = s.evt := rfl
@[simp] theorem setBoot_rst (b : Boot) : (setBoot s b).rst = s.rst := rfl
@[simp] theorem setBoot_pwr (b : Boot) : (setBoot s b).pwr = s.pwr := rfl
@[simp] theorem setBoot_cores (b : Boot) : (setBoot s b).cores = s.cores := rfl
@[simp] theorem setBoot_coreHeld (b : Boot) : (setBoot s b).coreHeld = s.coreHeld := rfl
@[simp] theorem setBoot_triggers (b : Boot) : (setBoot s b).triggers = s.triggers := rfl
@[simp] theorem setBoot_ephResults (b : Boot) : (setBoot s b).ephResults = s.ephResults := rfl
@[simp] theorem setBoot_answers (b : Boot) : (setBoot s b).answers = s.answers := rfl
@[simp] theorem setBoot_stks (b : Boot) : (setBoot s b).stks = s.stks := rfl
@[simp] theorem setBoot_fast (b : Boot) : (setBoot s b).fast = s.fast := rfl
@[simp] theorem setBoot_deep (b : Boot) : (setBoot s b).deep = s.deep := rfl
@[simp] theorem setBoot_fastMark (b : Boot) : (setBoot s b).fastMark = s.fastMark := rfl
@[simp] theorem setBoot_deepMark (b : Boot) : (setBoot s b).deepMark = s.deepMark := rfl
@[simp] theorem setBoot_pages (b : Boot) : (setBoot s b).pages = s.pages := rfl
@[simp] theorem setBoot_pageCache (b : Boot) : (setBoot s b).pageCache = s.pageCache := rfl
@[simp] theorem setBoot_holders (b : Boot) : (setBoot s b).holders = s.holders := rfl
@[simp] theorem setBoot_frameMap (b : Boot) : (setBoot s b).frameMap = s.frameMap := rfl
@[simp] theorem setBoot_blocks (b : Boot) : (setBoot s b).blocks = s.blocks := rfl
@[simp] theorem setBoot_frameCur (b : Boot) : (setBoot s b).frameCur = s.frameCur := rfl
@[simp] theorem setBoot_blockCur (b : Boot) : (setBoot s b).blockCur = s.blockCur := rfl
@[simp] theorem setBoot_slots (b : Boot) : (setBoot s b).slots = s.slots := rfl
@[simp] theorem setBoot_migq (b : Boot) : (setBoot s b).migq = s.migq := rfl
@[simp] theorem setBoot_sweep (b : Boot) : (setBoot s b).sweep = s.sweep := rfl
@[simp] theorem setBoot_stalled (b : Boot) : (setBoot s b).stalled = s.stalled := rfl
@[simp] theorem setBoot_stallFail (b : Boot) : (setBoot s b).stallFail = s.stallFail := rfl
@[simp] theorem setBoot_plcCh (b : Boot) : (setBoot s b).plcCh = s.plcCh := rfl
@[simp] theorem setBoot_plans (b : Boot) : (setBoot s b).plans = s.plans := rfl
@[simp] theorem setBoot_plcFits (b : Boot) : (setBoot s b).plcFits = s.plcFits := rfl
@[simp] theorem setBoot_plcRestoring (b : Boot) : (setBoot s b).plcRestoring = s.plcRestoring := rfl
@[simp] theorem setBoot_nbus (b : Boot) : (setBoot s b).nbus = s.nbus := rfl
@[simp] theorem setBoot_rowsInFlight (b : Boot) : (setBoot s b).rowsInFlight = s.rowsInFlight := rfl
@[simp] theorem setBoot_rowAnswers (b : Boot) : (setBoot s b).rowAnswers = s.rowAnswers := rfl
@[simp] theorem setBoot_dcache (b : Boot) : (setBoot s b).dcache = s.dcache := rfl
@[simp] theorem setBoot_outbox (b : Boot) : (setBoot s b).outbox = s.outbox := rfl
@[simp] theorem setBoot_rlys (b : Boot) : (setBoot s b).rlys = s.rlys := rfl
@[simp] theorem setBoot_med (b : Boot) : (setBoot s b).med = s.med := rfl
@[simp] theorem setBoot_links (b : Boot) : (setBoot s b).links = s.links := rfl
@[simp] theorem setBoot_fabc (b : Boot) : (setBoot s b).fabc = s.fabc := rfl
@[simp] theorem setBoot_hlk (b : Boot) : (setBoot s b).hlk = s.hlk := rfl
@[simp] theorem setBoot_harts (b : Boot) : (setBoot s b).harts = s.harts := rfl
@[simp] theorem setBoot_commit (b : Boot) : (setBoot s b).commit = s.commit := rfl

@[simp] theorem setPwr_pending (p : Pwr) : (setPwr s p).pending = s.pending := rfl
@[simp] theorem setPwr_busData (p : Pwr) : (setPwr s p).busData = s.busData := rfl
@[simp] theorem setPwr_freeCtr (p : Pwr) : (setPwr s p).freeCtr = s.freeCtr := rfl
@[simp] theorem setPwr_stamp (p : Pwr) : (setPwr s p).stamp = s.stamp := rfl
@[simp] theorem setPwr_csr (p : Pwr) : (setPwr s p).csr = s.csr := rfl
@[simp] theorem setPwr_shadow (p : Pwr) : (setPwr s p).shadow = s.shadow := rfl
@[simp] theorem setPwr_heldLow (p : Pwr) : (setPwr s p).heldLow = s.heldLow := rfl
@[simp] theorem setPwr_latchHigh (p : Pwr) : (setPwr s p).latchHigh = s.latchHigh := rfl
@[simp] theorem setPwr_quiet (p : Pwr) : (setPwr s p).quiet = s.quiet := rfl
@[simp] theorem setPwr_heldWrites (p : Pwr) : (setPwr s p).heldWrites = s.heldWrites := rfl
@[simp] theorem setPwr_evt (p : Pwr) : (setPwr s p).evt = s.evt := rfl
@[simp] theorem setPwr_rst (p : Pwr) : (setPwr s p).rst = s.rst := rfl
@[simp] theorem setPwr_cores (p : Pwr) : (setPwr s p).cores = s.cores := rfl
@[simp] theorem setPwr_coreHeld (p : Pwr) : (setPwr s p).coreHeld = s.coreHeld := rfl
@[simp] theorem setPwr_triggers (p : Pwr) : (setPwr s p).triggers = s.triggers := rfl
@[simp] theorem setPwr_ephResults (p : Pwr) : (setPwr s p).ephResults = s.ephResults := rfl
@[simp] theorem setPwr_answers (p : Pwr) : (setPwr s p).answers = s.answers := rfl
@[simp] theorem setPwr_stks (p : Pwr) : (setPwr s p).stks = s.stks := rfl
@[simp] theorem setPwr_fast (p : Pwr) : (setPwr s p).fast = s.fast := rfl
@[simp] theorem setPwr_deep (p : Pwr) : (setPwr s p).deep = s.deep := rfl
@[simp] theorem setPwr_fastMark (p : Pwr) : (setPwr s p).fastMark = s.fastMark := rfl
@[simp] theorem setPwr_deepMark (p : Pwr) : (setPwr s p).deepMark = s.deepMark := rfl
@[simp] theorem setPwr_pages (p : Pwr) : (setPwr s p).pages = s.pages := rfl
@[simp] theorem setPwr_pageCache (p : Pwr) : (setPwr s p).pageCache = s.pageCache := rfl
@[simp] theorem setPwr_holders (p : Pwr) : (setPwr s p).holders = s.holders := rfl
@[simp] theorem setPwr_frameMap (p : Pwr) : (setPwr s p).frameMap = s.frameMap := rfl
@[simp] theorem setPwr_blocks (p : Pwr) : (setPwr s p).blocks = s.blocks := rfl
@[simp] theorem setPwr_frameCur (p : Pwr) : (setPwr s p).frameCur = s.frameCur := rfl
@[simp] theorem setPwr_blockCur (p : Pwr) : (setPwr s p).blockCur = s.blockCur := rfl
@[simp] theorem setPwr_slots (p : Pwr) : (setPwr s p).slots = s.slots := rfl
@[simp] theorem setPwr_migq (p : Pwr) : (setPwr s p).migq = s.migq := rfl
@[simp] theorem setPwr_sweep (p : Pwr) : (setPwr s p).sweep = s.sweep := rfl
@[simp] theorem setPwr_stalled (p : Pwr) : (setPwr s p).stalled = s.stalled := rfl
@[simp] theorem setPwr_stallFail (p : Pwr) : (setPwr s p).stallFail = s.stallFail := rfl
@[simp] theorem setPwr_plcCh (p : Pwr) : (setPwr s p).plcCh = s.plcCh := rfl
@[simp] theorem setPwr_plans (p : Pwr) : (setPwr s p).plans = s.plans := rfl
@[simp] theorem setPwr_plcFits (p : Pwr) : (setPwr s p).plcFits = s.plcFits := rfl
@[simp] theorem setPwr_plcRestoring (p : Pwr) : (setPwr s p).plcRestoring = s.plcRestoring := rfl
@[simp] theorem setPwr_nbus (p : Pwr) : (setPwr s p).nbus = s.nbus := rfl
@[simp] theorem setPwr_rowsInFlight (p : Pwr) : (setPwr s p).rowsInFlight = s.rowsInFlight := rfl
@[simp] theorem setPwr_rowAnswers (p : Pwr) : (setPwr s p).rowAnswers = s.rowAnswers := rfl
@[simp] theorem setPwr_dcache (p : Pwr) : (setPwr s p).dcache = s.dcache := rfl
@[simp] theorem setPwr_outbox (p : Pwr) : (setPwr s p).outbox = s.outbox := rfl
@[simp] theorem setPwr_rlys (p : Pwr) : (setPwr s p).rlys = s.rlys := rfl
@[simp] theorem setPwr_med (p : Pwr) : (setPwr s p).med = s.med := rfl
@[simp] theorem setPwr_links (p : Pwr) : (setPwr s p).links = s.links := rfl
@[simp] theorem setPwr_fabc (p : Pwr) : (setPwr s p).fabc = s.fabc := rfl
@[simp] theorem setPwr_hlk (p : Pwr) : (setPwr s p).hlk = s.hlk := rfl
@[simp] theorem setPwr_harts (p : Pwr) : (setPwr s p).harts = s.harts := rfl
@[simp] theorem setPwr_boot (p : Pwr) : (setPwr s p).boot = s.boot := rfl
@[simp] theorem setPwr_commit (p : Pwr) : (setPwr s p).commit = s.commit := rfl

@[simp] theorem setHlk_pending (h : Hlk) : (setHlk s h).pending = s.pending := rfl
@[simp] theorem setHlk_busData (h : Hlk) : (setHlk s h).busData = s.busData := rfl
@[simp] theorem setHlk_freeCtr (h : Hlk) : (setHlk s h).freeCtr = s.freeCtr := rfl
@[simp] theorem setHlk_stamp (h : Hlk) : (setHlk s h).stamp = s.stamp := rfl
@[simp] theorem setHlk_csr (h : Hlk) : (setHlk s h).csr = s.csr := rfl
@[simp] theorem setHlk_shadow (h : Hlk) : (setHlk s h).shadow = s.shadow := rfl
@[simp] theorem setHlk_heldLow (h : Hlk) : (setHlk s h).heldLow = s.heldLow := rfl
@[simp] theorem setHlk_latchHigh (h : Hlk) : (setHlk s h).latchHigh = s.latchHigh := rfl
@[simp] theorem setHlk_quiet (h : Hlk) : (setHlk s h).quiet = s.quiet := rfl
@[simp] theorem setHlk_heldWrites (h : Hlk) : (setHlk s h).heldWrites = s.heldWrites := rfl
@[simp] theorem setHlk_evt (h : Hlk) : (setHlk s h).evt = s.evt := rfl
@[simp] theorem setHlk_rst (h : Hlk) : (setHlk s h).rst = s.rst := rfl
@[simp] theorem setHlk_pwr (h : Hlk) : (setHlk s h).pwr = s.pwr := rfl
@[simp] theorem setHlk_cores (h : Hlk) : (setHlk s h).cores = s.cores := rfl
@[simp] theorem setHlk_coreHeld (h : Hlk) : (setHlk s h).coreHeld = s.coreHeld := rfl
@[simp] theorem setHlk_triggers (h : Hlk) : (setHlk s h).triggers = s.triggers := rfl
@[simp] theorem setHlk_ephResults (h : Hlk) : (setHlk s h).ephResults = s.ephResults := rfl
@[simp] theorem setHlk_answers (h : Hlk) : (setHlk s h).answers = s.answers := rfl
@[simp] theorem setHlk_stks (h : Hlk) : (setHlk s h).stks = s.stks := rfl
@[simp] theorem setHlk_fast (h : Hlk) : (setHlk s h).fast = s.fast := rfl
@[simp] theorem setHlk_deep (h : Hlk) : (setHlk s h).deep = s.deep := rfl
@[simp] theorem setHlk_fastMark (h : Hlk) : (setHlk s h).fastMark = s.fastMark := rfl
@[simp] theorem setHlk_deepMark (h : Hlk) : (setHlk s h).deepMark = s.deepMark := rfl
@[simp] theorem setHlk_pages (h : Hlk) : (setHlk s h).pages = s.pages := rfl
@[simp] theorem setHlk_pageCache (h : Hlk) : (setHlk s h).pageCache = s.pageCache := rfl
@[simp] theorem setHlk_holders (h : Hlk) : (setHlk s h).holders = s.holders := rfl
@[simp] theorem setHlk_frameMap (h : Hlk) : (setHlk s h).frameMap = s.frameMap := rfl
@[simp] theorem setHlk_blocks (h : Hlk) : (setHlk s h).blocks = s.blocks := rfl
@[simp] theorem setHlk_frameCur (h : Hlk) : (setHlk s h).frameCur = s.frameCur := rfl
@[simp] theorem setHlk_blockCur (h : Hlk) : (setHlk s h).blockCur = s.blockCur := rfl
@[simp] theorem setHlk_slots (h : Hlk) : (setHlk s h).slots = s.slots := rfl
@[simp] theorem setHlk_migq (h : Hlk) : (setHlk s h).migq = s.migq := rfl
@[simp] theorem setHlk_sweep (h : Hlk) : (setHlk s h).sweep = s.sweep := rfl
@[simp] theorem setHlk_stalled (h : Hlk) : (setHlk s h).stalled = s.stalled := rfl
@[simp] theorem setHlk_stallFail (h : Hlk) : (setHlk s h).stallFail = s.stallFail := rfl
@[simp] theorem setHlk_plcCh (h : Hlk) : (setHlk s h).plcCh = s.plcCh := rfl
@[simp] theorem setHlk_plans (h : Hlk) : (setHlk s h).plans = s.plans := rfl
@[simp] theorem setHlk_plcFits (h : Hlk) : (setHlk s h).plcFits = s.plcFits := rfl
@[simp] theorem setHlk_plcRestoring (h : Hlk) : (setHlk s h).plcRestoring = s.plcRestoring := rfl
@[simp] theorem setHlk_nbus (h : Hlk) : (setHlk s h).nbus = s.nbus := rfl
@[simp] theorem setHlk_rowsInFlight (h : Hlk) : (setHlk s h).rowsInFlight = s.rowsInFlight := rfl
@[simp] theorem setHlk_rowAnswers (h : Hlk) : (setHlk s h).rowAnswers = s.rowAnswers := rfl
@[simp] theorem setHlk_dcache (h : Hlk) : (setHlk s h).dcache = s.dcache := rfl
@[simp] theorem setHlk_outbox (h : Hlk) : (setHlk s h).outbox = s.outbox := rfl
@[simp] theorem setHlk_rlys (h : Hlk) : (setHlk s h).rlys = s.rlys := rfl
@[simp] theorem setHlk_med (h : Hlk) : (setHlk s h).med = s.med := rfl
@[simp] theorem setHlk_links (h : Hlk) : (setHlk s h).links = s.links := rfl
@[simp] theorem setHlk_fabc (h : Hlk) : (setHlk s h).fabc = s.fabc := rfl
@[simp] theorem setHlk_harts (h : Hlk) : (setHlk s h).harts = s.harts := rfl
@[simp] theorem setHlk_boot (h : Hlk) : (setHlk s h).boot = s.boot := rfl
@[simp] theorem setHlk_commit (h : Hlk) : (setHlk s h).commit = s.commit := rfl

@[simp] theorem setLink_pending (l : Nat) (v : Link) : (setLink s l v).pending = s.pending := rfl
@[simp] theorem setLink_busData (l : Nat) (v : Link) : (setLink s l v).busData = s.busData := rfl
@[simp] theorem setLink_freeCtr (l : Nat) (v : Link) : (setLink s l v).freeCtr = s.freeCtr := rfl
@[simp] theorem setLink_stamp (l : Nat) (v : Link) : (setLink s l v).stamp = s.stamp := rfl
@[simp] theorem setLink_csr (l : Nat) (v : Link) : (setLink s l v).csr = s.csr := rfl
@[simp] theorem setLink_shadow (l : Nat) (v : Link) : (setLink s l v).shadow = s.shadow := rfl
@[simp] theorem setLink_heldLow (l : Nat) (v : Link) : (setLink s l v).heldLow = s.heldLow := rfl
@[simp] theorem setLink_latchHigh (l : Nat) (v : Link) : (setLink s l v).latchHigh = s.latchHigh := rfl
@[simp] theorem setLink_quiet (l : Nat) (v : Link) : (setLink s l v).quiet = s.quiet := rfl
@[simp] theorem setLink_heldWrites (l : Nat) (v : Link) : (setLink s l v).heldWrites = s.heldWrites := rfl
@[simp] theorem setLink_evt (l : Nat) (v : Link) : (setLink s l v).evt = s.evt := rfl
@[simp] theorem setLink_rst (l : Nat) (v : Link) : (setLink s l v).rst = s.rst := rfl
@[simp] theorem setLink_pwr (l : Nat) (v : Link) : (setLink s l v).pwr = s.pwr := rfl
@[simp] theorem setLink_cores (l : Nat) (v : Link) : (setLink s l v).cores = s.cores := rfl
@[simp] theorem setLink_coreHeld (l : Nat) (v : Link) : (setLink s l v).coreHeld = s.coreHeld := rfl
@[simp] theorem setLink_triggers (l : Nat) (v : Link) : (setLink s l v).triggers = s.triggers := rfl
@[simp] theorem setLink_ephResults (l : Nat) (v : Link) : (setLink s l v).ephResults = s.ephResults := rfl
@[simp] theorem setLink_answers (l : Nat) (v : Link) : (setLink s l v).answers = s.answers := rfl
@[simp] theorem setLink_stks (l : Nat) (v : Link) : (setLink s l v).stks = s.stks := rfl
@[simp] theorem setLink_fast (l : Nat) (v : Link) : (setLink s l v).fast = s.fast := rfl
@[simp] theorem setLink_deep (l : Nat) (v : Link) : (setLink s l v).deep = s.deep := rfl
@[simp] theorem setLink_fastMark (l : Nat) (v : Link) : (setLink s l v).fastMark = s.fastMark := rfl
@[simp] theorem setLink_deepMark (l : Nat) (v : Link) : (setLink s l v).deepMark = s.deepMark := rfl
@[simp] theorem setLink_pages (l : Nat) (v : Link) : (setLink s l v).pages = s.pages := rfl
@[simp] theorem setLink_pageCache (l : Nat) (v : Link) : (setLink s l v).pageCache = s.pageCache := rfl
@[simp] theorem setLink_holders (l : Nat) (v : Link) : (setLink s l v).holders = s.holders := rfl
@[simp] theorem setLink_frameMap (l : Nat) (v : Link) : (setLink s l v).frameMap = s.frameMap := rfl
@[simp] theorem setLink_blocks (l : Nat) (v : Link) : (setLink s l v).blocks = s.blocks := rfl
@[simp] theorem setLink_frameCur (l : Nat) (v : Link) : (setLink s l v).frameCur = s.frameCur := rfl
@[simp] theorem setLink_blockCur (l : Nat) (v : Link) : (setLink s l v).blockCur = s.blockCur := rfl
@[simp] theorem setLink_slots (l : Nat) (v : Link) : (setLink s l v).slots = s.slots := rfl
@[simp] theorem setLink_migq (l : Nat) (v : Link) : (setLink s l v).migq = s.migq := rfl
@[simp] theorem setLink_sweep (l : Nat) (v : Link) : (setLink s l v).sweep = s.sweep := rfl
@[simp] theorem setLink_stalled (l : Nat) (v : Link) : (setLink s l v).stalled = s.stalled := rfl
@[simp] theorem setLink_stallFail (l : Nat) (v : Link) : (setLink s l v).stallFail = s.stallFail := rfl
@[simp] theorem setLink_plcCh (l : Nat) (v : Link) : (setLink s l v).plcCh = s.plcCh := rfl
@[simp] theorem setLink_plans (l : Nat) (v : Link) : (setLink s l v).plans = s.plans := rfl
@[simp] theorem setLink_plcFits (l : Nat) (v : Link) : (setLink s l v).plcFits = s.plcFits := rfl
@[simp] theorem setLink_plcRestoring (l : Nat) (v : Link) : (setLink s l v).plcRestoring = s.plcRestoring := rfl
@[simp] theorem setLink_nbus (l : Nat) (v : Link) : (setLink s l v).nbus = s.nbus := rfl
@[simp] theorem setLink_rowsInFlight (l : Nat) (v : Link) : (setLink s l v).rowsInFlight = s.rowsInFlight := rfl
@[simp] theorem setLink_rowAnswers (l : Nat) (v : Link) : (setLink s l v).rowAnswers = s.rowAnswers := rfl
@[simp] theorem setLink_dcache (l : Nat) (v : Link) : (setLink s l v).dcache = s.dcache := rfl
@[simp] theorem setLink_outbox (l : Nat) (v : Link) : (setLink s l v).outbox = s.outbox := rfl
@[simp] theorem setLink_rlys (l : Nat) (v : Link) : (setLink s l v).rlys = s.rlys := rfl
@[simp] theorem setLink_med (l : Nat) (v : Link) : (setLink s l v).med = s.med := rfl
@[simp] theorem setLink_fabc (l : Nat) (v : Link) : (setLink s l v).fabc = s.fabc := rfl
@[simp] theorem setLink_hlk (l : Nat) (v : Link) : (setLink s l v).hlk = s.hlk := rfl
@[simp] theorem setLink_harts (l : Nat) (v : Link) : (setLink s l v).harts = s.harts := rfl
@[simp] theorem setLink_boot (l : Nat) (v : Link) : (setLink s l v).boot = s.boot := rfl
@[simp] theorem setLink_commit (l : Nat) (v : Link) : (setLink s l v).commit = s.commit := rfl

@[simp] theorem setMedJob_pending (e : Nat) (j : Option MedJob) : (setMedJob s e j).pending = s.pending := rfl
@[simp] theorem setMedJob_busData (e : Nat) (j : Option MedJob) : (setMedJob s e j).busData = s.busData := rfl
@[simp] theorem setMedJob_freeCtr (e : Nat) (j : Option MedJob) : (setMedJob s e j).freeCtr = s.freeCtr := rfl
@[simp] theorem setMedJob_stamp (e : Nat) (j : Option MedJob) : (setMedJob s e j).stamp = s.stamp := rfl
@[simp] theorem setMedJob_csr (e : Nat) (j : Option MedJob) : (setMedJob s e j).csr = s.csr := rfl
@[simp] theorem setMedJob_shadow (e : Nat) (j : Option MedJob) : (setMedJob s e j).shadow = s.shadow := rfl
@[simp] theorem setMedJob_heldLow (e : Nat) (j : Option MedJob) : (setMedJob s e j).heldLow = s.heldLow := rfl
@[simp] theorem setMedJob_latchHigh (e : Nat) (j : Option MedJob) : (setMedJob s e j).latchHigh = s.latchHigh := rfl
@[simp] theorem setMedJob_quiet (e : Nat) (j : Option MedJob) : (setMedJob s e j).quiet = s.quiet := rfl
@[simp] theorem setMedJob_heldWrites (e : Nat) (j : Option MedJob) : (setMedJob s e j).heldWrites = s.heldWrites := rfl
@[simp] theorem setMedJob_evt (e : Nat) (j : Option MedJob) : (setMedJob s e j).evt = s.evt := rfl
@[simp] theorem setMedJob_rst (e : Nat) (j : Option MedJob) : (setMedJob s e j).rst = s.rst := rfl
@[simp] theorem setMedJob_pwr (e : Nat) (j : Option MedJob) : (setMedJob s e j).pwr = s.pwr := rfl
@[simp] theorem setMedJob_cores (e : Nat) (j : Option MedJob) : (setMedJob s e j).cores = s.cores := rfl
@[simp] theorem setMedJob_coreHeld (e : Nat) (j : Option MedJob) : (setMedJob s e j).coreHeld = s.coreHeld := rfl
@[simp] theorem setMedJob_triggers (e : Nat) (j : Option MedJob) : (setMedJob s e j).triggers = s.triggers := rfl
@[simp] theorem setMedJob_ephResults (e : Nat) (j : Option MedJob) : (setMedJob s e j).ephResults = s.ephResults := rfl
@[simp] theorem setMedJob_answers (e : Nat) (j : Option MedJob) : (setMedJob s e j).answers = s.answers := rfl
@[simp] theorem setMedJob_stks (e : Nat) (j : Option MedJob) : (setMedJob s e j).stks = s.stks := rfl
@[simp] theorem setMedJob_fast (e : Nat) (j : Option MedJob) : (setMedJob s e j).fast = s.fast := rfl
@[simp] theorem setMedJob_deep (e : Nat) (j : Option MedJob) : (setMedJob s e j).deep = s.deep := rfl
@[simp] theorem setMedJob_fastMark (e : Nat) (j : Option MedJob) : (setMedJob s e j).fastMark = s.fastMark := rfl
@[simp] theorem setMedJob_deepMark (e : Nat) (j : Option MedJob) : (setMedJob s e j).deepMark = s.deepMark := rfl
@[simp] theorem setMedJob_pages (e : Nat) (j : Option MedJob) : (setMedJob s e j).pages = s.pages := rfl
@[simp] theorem setMedJob_pageCache (e : Nat) (j : Option MedJob) : (setMedJob s e j).pageCache = s.pageCache := rfl
@[simp] theorem setMedJob_holders (e : Nat) (j : Option MedJob) : (setMedJob s e j).holders = s.holders := rfl
@[simp] theorem setMedJob_frameMap (e : Nat) (j : Option MedJob) : (setMedJob s e j).frameMap = s.frameMap := rfl
@[simp] theorem setMedJob_blocks (e : Nat) (j : Option MedJob) : (setMedJob s e j).blocks = s.blocks := rfl
@[simp] theorem setMedJob_frameCur (e : Nat) (j : Option MedJob) : (setMedJob s e j).frameCur = s.frameCur := rfl
@[simp] theorem setMedJob_blockCur (e : Nat) (j : Option MedJob) : (setMedJob s e j).blockCur = s.blockCur := rfl
@[simp] theorem setMedJob_slots (e : Nat) (j : Option MedJob) : (setMedJob s e j).slots = s.slots := rfl
@[simp] theorem setMedJob_migq (e : Nat) (j : Option MedJob) : (setMedJob s e j).migq = s.migq := rfl
@[simp] theorem setMedJob_sweep (e : Nat) (j : Option MedJob) : (setMedJob s e j).sweep = s.sweep := rfl
@[simp] theorem setMedJob_stalled (e : Nat) (j : Option MedJob) : (setMedJob s e j).stalled = s.stalled := rfl
@[simp] theorem setMedJob_stallFail (e : Nat) (j : Option MedJob) : (setMedJob s e j).stallFail = s.stallFail := rfl
@[simp] theorem setMedJob_plcCh (e : Nat) (j : Option MedJob) : (setMedJob s e j).plcCh = s.plcCh := rfl
@[simp] theorem setMedJob_plans (e : Nat) (j : Option MedJob) : (setMedJob s e j).plans = s.plans := rfl
@[simp] theorem setMedJob_plcFits (e : Nat) (j : Option MedJob) : (setMedJob s e j).plcFits = s.plcFits := rfl
@[simp] theorem setMedJob_plcRestoring (e : Nat) (j : Option MedJob) : (setMedJob s e j).plcRestoring = s.plcRestoring := rfl
@[simp] theorem setMedJob_nbus (e : Nat) (j : Option MedJob) : (setMedJob s e j).nbus = s.nbus := rfl
@[simp] theorem setMedJob_rowsInFlight (e : Nat) (j : Option MedJob) : (setMedJob s e j).rowsInFlight = s.rowsInFlight := rfl
@[simp] theorem setMedJob_rowAnswers (e : Nat) (j : Option MedJob) : (setMedJob s e j).rowAnswers = s.rowAnswers := rfl
@[simp] theorem setMedJob_dcache (e : Nat) (j : Option MedJob) : (setMedJob s e j).dcache = s.dcache := rfl
@[simp] theorem setMedJob_outbox (e : Nat) (j : Option MedJob) : (setMedJob s e j).outbox = s.outbox := rfl
@[simp] theorem setMedJob_rlys (e : Nat) (j : Option MedJob) : (setMedJob s e j).rlys = s.rlys := rfl
@[simp] theorem setMedJob_links (e : Nat) (j : Option MedJob) : (setMedJob s e j).links = s.links := rfl
@[simp] theorem setMedJob_fabc (e : Nat) (j : Option MedJob) : (setMedJob s e j).fabc = s.fabc := rfl
@[simp] theorem setMedJob_hlk (e : Nat) (j : Option MedJob) : (setMedJob s e j).hlk = s.hlk := rfl
@[simp] theorem setMedJob_harts (e : Nat) (j : Option MedJob) : (setMedJob s e j).harts = s.harts := rfl
@[simp] theorem setMedJob_boot (e : Nat) (j : Option MedJob) : (setMedJob s e j).boot = s.boot := rfl
@[simp] theorem setMedJob_commit (e : Nat) (j : Option MedJob) : (setMedJob s e j).commit = s.commit := rfl

@[simp] theorem setNbu_pending (n : Nat) (v : Nbu) : (setNbu s n v).pending = s.pending := rfl
@[simp] theorem setNbu_busData (n : Nat) (v : Nbu) : (setNbu s n v).busData = s.busData := rfl
@[simp] theorem setNbu_freeCtr (n : Nat) (v : Nbu) : (setNbu s n v).freeCtr = s.freeCtr := rfl
@[simp] theorem setNbu_stamp (n : Nat) (v : Nbu) : (setNbu s n v).stamp = s.stamp := rfl
@[simp] theorem setNbu_csr (n : Nat) (v : Nbu) : (setNbu s n v).csr = s.csr := rfl
@[simp] theorem setNbu_shadow (n : Nat) (v : Nbu) : (setNbu s n v).shadow = s.shadow := rfl
@[simp] theorem setNbu_heldLow (n : Nat) (v : Nbu) : (setNbu s n v).heldLow = s.heldLow := rfl
@[simp] theorem setNbu_latchHigh (n : Nat) (v : Nbu) : (setNbu s n v).latchHigh = s.latchHigh := rfl
@[simp] theorem setNbu_quiet (n : Nat) (v : Nbu) : (setNbu s n v).quiet = s.quiet := rfl
@[simp] theorem setNbu_heldWrites (n : Nat) (v : Nbu) : (setNbu s n v).heldWrites = s.heldWrites := rfl
@[simp] theorem setNbu_evt (n : Nat) (v : Nbu) : (setNbu s n v).evt = s.evt := rfl
@[simp] theorem setNbu_rst (n : Nat) (v : Nbu) : (setNbu s n v).rst = s.rst := rfl
@[simp] theorem setNbu_pwr (n : Nat) (v : Nbu) : (setNbu s n v).pwr = s.pwr := rfl
@[simp] theorem setNbu_cores (n : Nat) (v : Nbu) : (setNbu s n v).cores = s.cores := rfl
@[simp] theorem setNbu_coreHeld (n : Nat) (v : Nbu) : (setNbu s n v).coreHeld = s.coreHeld := rfl
@[simp] theorem setNbu_triggers (n : Nat) (v : Nbu) : (setNbu s n v).triggers = s.triggers := rfl
@[simp] theorem setNbu_ephResults (n : Nat) (v : Nbu) : (setNbu s n v).ephResults = s.ephResults := rfl
@[simp] theorem setNbu_answers (n : Nat) (v : Nbu) : (setNbu s n v).answers = s.answers := rfl
@[simp] theorem setNbu_stks (n : Nat) (v : Nbu) : (setNbu s n v).stks = s.stks := rfl
@[simp] theorem setNbu_fast (n : Nat) (v : Nbu) : (setNbu s n v).fast = s.fast := rfl
@[simp] theorem setNbu_deep (n : Nat) (v : Nbu) : (setNbu s n v).deep = s.deep := rfl
@[simp] theorem setNbu_fastMark (n : Nat) (v : Nbu) : (setNbu s n v).fastMark = s.fastMark := rfl
@[simp] theorem setNbu_deepMark (n : Nat) (v : Nbu) : (setNbu s n v).deepMark = s.deepMark := rfl
@[simp] theorem setNbu_pages (n : Nat) (v : Nbu) : (setNbu s n v).pages = s.pages := rfl
@[simp] theorem setNbu_pageCache (n : Nat) (v : Nbu) : (setNbu s n v).pageCache = s.pageCache := rfl
@[simp] theorem setNbu_holders (n : Nat) (v : Nbu) : (setNbu s n v).holders = s.holders := rfl
@[simp] theorem setNbu_frameMap (n : Nat) (v : Nbu) : (setNbu s n v).frameMap = s.frameMap := rfl
@[simp] theorem setNbu_blocks (n : Nat) (v : Nbu) : (setNbu s n v).blocks = s.blocks := rfl
@[simp] theorem setNbu_frameCur (n : Nat) (v : Nbu) : (setNbu s n v).frameCur = s.frameCur := rfl
@[simp] theorem setNbu_blockCur (n : Nat) (v : Nbu) : (setNbu s n v).blockCur = s.blockCur := rfl
@[simp] theorem setNbu_slots (n : Nat) (v : Nbu) : (setNbu s n v).slots = s.slots := rfl
@[simp] theorem setNbu_migq (n : Nat) (v : Nbu) : (setNbu s n v).migq = s.migq := rfl
@[simp] theorem setNbu_sweep (n : Nat) (v : Nbu) : (setNbu s n v).sweep = s.sweep := rfl
@[simp] theorem setNbu_stalled (n : Nat) (v : Nbu) : (setNbu s n v).stalled = s.stalled := rfl
@[simp] theorem setNbu_stallFail (n : Nat) (v : Nbu) : (setNbu s n v).stallFail = s.stallFail := rfl
@[simp] theorem setNbu_plcCh (n : Nat) (v : Nbu) : (setNbu s n v).plcCh = s.plcCh := rfl
@[simp] theorem setNbu_plans (n : Nat) (v : Nbu) : (setNbu s n v).plans = s.plans := rfl
@[simp] theorem setNbu_plcFits (n : Nat) (v : Nbu) : (setNbu s n v).plcFits = s.plcFits := rfl
@[simp] theorem setNbu_plcRestoring (n : Nat) (v : Nbu) : (setNbu s n v).plcRestoring = s.plcRestoring := rfl
@[simp] theorem setNbu_rowsInFlight (n : Nat) (v : Nbu) : (setNbu s n v).rowsInFlight = s.rowsInFlight := rfl
@[simp] theorem setNbu_rowAnswers (n : Nat) (v : Nbu) : (setNbu s n v).rowAnswers = s.rowAnswers := rfl
@[simp] theorem setNbu_dcache (n : Nat) (v : Nbu) : (setNbu s n v).dcache = s.dcache := rfl
@[simp] theorem setNbu_outbox (n : Nat) (v : Nbu) : (setNbu s n v).outbox = s.outbox := rfl
@[simp] theorem setNbu_rlys (n : Nat) (v : Nbu) : (setNbu s n v).rlys = s.rlys := rfl
@[simp] theorem setNbu_med (n : Nat) (v : Nbu) : (setNbu s n v).med = s.med := rfl
@[simp] theorem setNbu_links (n : Nat) (v : Nbu) : (setNbu s n v).links = s.links := rfl
@[simp] theorem setNbu_fabc (n : Nat) (v : Nbu) : (setNbu s n v).fabc = s.fabc := rfl
@[simp] theorem setNbu_hlk (n : Nat) (v : Nbu) : (setNbu s n v).hlk = s.hlk := rfl
@[simp] theorem setNbu_harts (n : Nat) (v : Nbu) : (setNbu s n v).harts = s.harts := rfl
@[simp] theorem setNbu_boot (n : Nat) (v : Nbu) : (setNbu s n v).boot = s.boot := rfl
@[simp] theorem setNbu_commit (n : Nat) (v : Nbu) : (setNbu s n v).commit = s.commit := rfl

@[simp] theorem setEnt_pending (p : Nat) (e : Ent) : (setEnt s p e).pending = s.pending := rfl
@[simp] theorem setEnt_busData (p : Nat) (e : Ent) : (setEnt s p e).busData = s.busData := rfl
@[simp] theorem setEnt_freeCtr (p : Nat) (e : Ent) : (setEnt s p e).freeCtr = s.freeCtr := rfl
@[simp] theorem setEnt_stamp (p : Nat) (e : Ent) : (setEnt s p e).stamp = s.stamp := rfl
@[simp] theorem setEnt_csr (p : Nat) (e : Ent) : (setEnt s p e).csr = s.csr := rfl
@[simp] theorem setEnt_shadow (p : Nat) (e : Ent) : (setEnt s p e).shadow = s.shadow := rfl
@[simp] theorem setEnt_heldLow (p : Nat) (e : Ent) : (setEnt s p e).heldLow = s.heldLow := rfl
@[simp] theorem setEnt_latchHigh (p : Nat) (e : Ent) : (setEnt s p e).latchHigh = s.latchHigh := rfl
@[simp] theorem setEnt_quiet (p : Nat) (e : Ent) : (setEnt s p e).quiet = s.quiet := rfl
@[simp] theorem setEnt_heldWrites (p : Nat) (e : Ent) : (setEnt s p e).heldWrites = s.heldWrites := rfl
@[simp] theorem setEnt_evt (p : Nat) (e : Ent) : (setEnt s p e).evt = s.evt := rfl
@[simp] theorem setEnt_rst (p : Nat) (e : Ent) : (setEnt s p e).rst = s.rst := rfl
@[simp] theorem setEnt_pwr (p : Nat) (e : Ent) : (setEnt s p e).pwr = s.pwr := rfl
@[simp] theorem setEnt_cores (p : Nat) (e : Ent) : (setEnt s p e).cores = s.cores := rfl
@[simp] theorem setEnt_coreHeld (p : Nat) (e : Ent) : (setEnt s p e).coreHeld = s.coreHeld := rfl
@[simp] theorem setEnt_triggers (p : Nat) (e : Ent) : (setEnt s p e).triggers = s.triggers := rfl
@[simp] theorem setEnt_ephResults (p : Nat) (e : Ent) : (setEnt s p e).ephResults = s.ephResults := rfl
@[simp] theorem setEnt_answers (p : Nat) (e : Ent) : (setEnt s p e).answers = s.answers := rfl
@[simp] theorem setEnt_stks (p : Nat) (e : Ent) : (setEnt s p e).stks = s.stks := rfl
@[simp] theorem setEnt_fast (p : Nat) (e : Ent) : (setEnt s p e).fast = s.fast := rfl
@[simp] theorem setEnt_deep (p : Nat) (e : Ent) : (setEnt s p e).deep = s.deep := rfl
@[simp] theorem setEnt_fastMark (p : Nat) (e : Ent) : (setEnt s p e).fastMark = s.fastMark := rfl
@[simp] theorem setEnt_deepMark (p : Nat) (e : Ent) : (setEnt s p e).deepMark = s.deepMark := rfl
@[simp] theorem setEnt_pageCache (p : Nat) (e : Ent) : (setEnt s p e).pageCache = s.pageCache := rfl
@[simp] theorem setEnt_holders (p : Nat) (e : Ent) : (setEnt s p e).holders = s.holders := rfl
@[simp] theorem setEnt_frameMap (p : Nat) (e : Ent) : (setEnt s p e).frameMap = s.frameMap := rfl
@[simp] theorem setEnt_blocks (p : Nat) (e : Ent) : (setEnt s p e).blocks = s.blocks := rfl
@[simp] theorem setEnt_frameCur (p : Nat) (e : Ent) : (setEnt s p e).frameCur = s.frameCur := rfl
@[simp] theorem setEnt_blockCur (p : Nat) (e : Ent) : (setEnt s p e).blockCur = s.blockCur := rfl
@[simp] theorem setEnt_slots (p : Nat) (e : Ent) : (setEnt s p e).slots = s.slots := rfl
@[simp] theorem setEnt_migq (p : Nat) (e : Ent) : (setEnt s p e).migq = s.migq := rfl
@[simp] theorem setEnt_sweep (p : Nat) (e : Ent) : (setEnt s p e).sweep = s.sweep := rfl
@[simp] theorem setEnt_stalled (p : Nat) (e : Ent) : (setEnt s p e).stalled = s.stalled := rfl
@[simp] theorem setEnt_stallFail (p : Nat) (e : Ent) : (setEnt s p e).stallFail = s.stallFail := rfl
@[simp] theorem setEnt_plcCh (p : Nat) (e : Ent) : (setEnt s p e).plcCh = s.plcCh := rfl
@[simp] theorem setEnt_plans (p : Nat) (e : Ent) : (setEnt s p e).plans = s.plans := rfl
@[simp] theorem setEnt_plcFits (p : Nat) (e : Ent) : (setEnt s p e).plcFits = s.plcFits := rfl
@[simp] theorem setEnt_plcRestoring (p : Nat) (e : Ent) : (setEnt s p e).plcRestoring = s.plcRestoring := rfl
@[simp] theorem setEnt_nbus (p : Nat) (e : Ent) : (setEnt s p e).nbus = s.nbus := rfl
@[simp] theorem setEnt_rowsInFlight (p : Nat) (e : Ent) : (setEnt s p e).rowsInFlight = s.rowsInFlight := rfl
@[simp] theorem setEnt_rowAnswers (p : Nat) (e : Ent) : (setEnt s p e).rowAnswers = s.rowAnswers := rfl
@[simp] theorem setEnt_dcache (p : Nat) (e : Ent) : (setEnt s p e).dcache = s.dcache := rfl
@[simp] theorem setEnt_outbox (p : Nat) (e : Ent) : (setEnt s p e).outbox = s.outbox := rfl
@[simp] theorem setEnt_rlys (p : Nat) (e : Ent) : (setEnt s p e).rlys = s.rlys := rfl
@[simp] theorem setEnt_med (p : Nat) (e : Ent) : (setEnt s p e).med = s.med := rfl
@[simp] theorem setEnt_links (p : Nat) (e : Ent) : (setEnt s p e).links = s.links := rfl
@[simp] theorem setEnt_fabc (p : Nat) (e : Ent) : (setEnt s p e).fabc = s.fabc := rfl
@[simp] theorem setEnt_hlk (p : Nat) (e : Ent) : (setEnt s p e).hlk = s.hlk := rfl
@[simp] theorem setEnt_harts (p : Nat) (e : Ent) : (setEnt s p e).harts = s.harts := rfl
@[simp] theorem setEnt_boot (p : Nat) (e : Ent) : (setEnt s p e).boot = s.boot := rfl
@[simp] theorem setEnt_commit (p : Nat) (e : Ent) : (setEnt s p e).commit = s.commit := rfl

@[simp] theorem setFrameCode_pending (d f c : Nat) : (setFrameCode s d f c).pending = s.pending := rfl
@[simp] theorem setFrameCode_busData (d f c : Nat) : (setFrameCode s d f c).busData = s.busData := rfl
@[simp] theorem setFrameCode_freeCtr (d f c : Nat) : (setFrameCode s d f c).freeCtr = s.freeCtr := rfl
@[simp] theorem setFrameCode_stamp (d f c : Nat) : (setFrameCode s d f c).stamp = s.stamp := rfl
@[simp] theorem setFrameCode_csr (d f c : Nat) : (setFrameCode s d f c).csr = s.csr := rfl
@[simp] theorem setFrameCode_shadow (d f c : Nat) : (setFrameCode s d f c).shadow = s.shadow := rfl
@[simp] theorem setFrameCode_heldLow (d f c : Nat) : (setFrameCode s d f c).heldLow = s.heldLow := rfl
@[simp] theorem setFrameCode_latchHigh (d f c : Nat) : (setFrameCode s d f c).latchHigh = s.latchHigh := rfl
@[simp] theorem setFrameCode_quiet (d f c : Nat) : (setFrameCode s d f c).quiet = s.quiet := rfl
@[simp] theorem setFrameCode_heldWrites (d f c : Nat) : (setFrameCode s d f c).heldWrites = s.heldWrites := rfl
@[simp] theorem setFrameCode_evt (d f c : Nat) : (setFrameCode s d f c).evt = s.evt := rfl
@[simp] theorem setFrameCode_rst (d f c : Nat) : (setFrameCode s d f c).rst = s.rst := rfl
@[simp] theorem setFrameCode_pwr (d f c : Nat) : (setFrameCode s d f c).pwr = s.pwr := rfl
@[simp] theorem setFrameCode_cores (d f c : Nat) : (setFrameCode s d f c).cores = s.cores := rfl
@[simp] theorem setFrameCode_coreHeld (d f c : Nat) : (setFrameCode s d f c).coreHeld = s.coreHeld := rfl
@[simp] theorem setFrameCode_triggers (d f c : Nat) : (setFrameCode s d f c).triggers = s.triggers := rfl
@[simp] theorem setFrameCode_ephResults (d f c : Nat) : (setFrameCode s d f c).ephResults = s.ephResults := rfl
@[simp] theorem setFrameCode_answers (d f c : Nat) : (setFrameCode s d f c).answers = s.answers := rfl
@[simp] theorem setFrameCode_stks (d f c : Nat) : (setFrameCode s d f c).stks = s.stks := rfl
@[simp] theorem setFrameCode_fast (d f c : Nat) : (setFrameCode s d f c).fast = s.fast := rfl
@[simp] theorem setFrameCode_deep (d f c : Nat) : (setFrameCode s d f c).deep = s.deep := rfl
@[simp] theorem setFrameCode_fastMark (d f c : Nat) : (setFrameCode s d f c).fastMark = s.fastMark := rfl
@[simp] theorem setFrameCode_deepMark (d f c : Nat) : (setFrameCode s d f c).deepMark = s.deepMark := rfl
@[simp] theorem setFrameCode_pages (d f c : Nat) : (setFrameCode s d f c).pages = s.pages := rfl
@[simp] theorem setFrameCode_pageCache (d f c : Nat) : (setFrameCode s d f c).pageCache = s.pageCache := rfl
@[simp] theorem setFrameCode_holders (d f c : Nat) : (setFrameCode s d f c).holders = s.holders := rfl
@[simp] theorem setFrameCode_blocks (d f c : Nat) : (setFrameCode s d f c).blocks = s.blocks := rfl
@[simp] theorem setFrameCode_frameCur (d f c : Nat) : (setFrameCode s d f c).frameCur = s.frameCur := rfl
@[simp] theorem setFrameCode_blockCur (d f c : Nat) : (setFrameCode s d f c).blockCur = s.blockCur := rfl
@[simp] theorem setFrameCode_slots (d f c : Nat) : (setFrameCode s d f c).slots = s.slots := rfl
@[simp] theorem setFrameCode_migq (d f c : Nat) : (setFrameCode s d f c).migq = s.migq := rfl
@[simp] theorem setFrameCode_sweep (d f c : Nat) : (setFrameCode s d f c).sweep = s.sweep := rfl
@[simp] theorem setFrameCode_stalled (d f c : Nat) : (setFrameCode s d f c).stalled = s.stalled := rfl
@[simp] theorem setFrameCode_stallFail (d f c : Nat) : (setFrameCode s d f c).stallFail = s.stallFail := rfl
@[simp] theorem setFrameCode_plcCh (d f c : Nat) : (setFrameCode s d f c).plcCh = s.plcCh := rfl
@[simp] theorem setFrameCode_plans (d f c : Nat) : (setFrameCode s d f c).plans = s.plans := rfl
@[simp] theorem setFrameCode_plcFits (d f c : Nat) : (setFrameCode s d f c).plcFits = s.plcFits := rfl
@[simp] theorem setFrameCode_plcRestoring (d f c : Nat) : (setFrameCode s d f c).plcRestoring = s.plcRestoring := rfl
@[simp] theorem setFrameCode_nbus (d f c : Nat) : (setFrameCode s d f c).nbus = s.nbus := rfl
@[simp] theorem setFrameCode_rowsInFlight (d f c : Nat) : (setFrameCode s d f c).rowsInFlight = s.rowsInFlight := rfl
@[simp] theorem setFrameCode_rowAnswers (d f c : Nat) : (setFrameCode s d f c).rowAnswers = s.rowAnswers := rfl
@[simp] theorem setFrameCode_dcache (d f c : Nat) : (setFrameCode s d f c).dcache = s.dcache := rfl
@[simp] theorem setFrameCode_outbox (d f c : Nat) : (setFrameCode s d f c).outbox = s.outbox := rfl
@[simp] theorem setFrameCode_rlys (d f c : Nat) : (setFrameCode s d f c).rlys = s.rlys := rfl
@[simp] theorem setFrameCode_med (d f c : Nat) : (setFrameCode s d f c).med = s.med := rfl
@[simp] theorem setFrameCode_links (d f c : Nat) : (setFrameCode s d f c).links = s.links := rfl
@[simp] theorem setFrameCode_fabc (d f c : Nat) : (setFrameCode s d f c).fabc = s.fabc := rfl
@[simp] theorem setFrameCode_hlk (d f c : Nat) : (setFrameCode s d f c).hlk = s.hlk := rfl
@[simp] theorem setFrameCode_harts (d f c : Nat) : (setFrameCode s d f c).harts = s.harts := rfl
@[simp] theorem setFrameCode_boot (d f c : Nat) : (setFrameCode s d f c).boot = s.boot := rfl
@[simp] theorem setFrameCode_commit (d f c : Nat) : (setFrameCode s d f c).commit = s.commit := rfl

@[simp] theorem setPlan_pending (p : Nat) (v : Plan) : (setPlan s p v).pending = s.pending := rfl
@[simp] theorem setPlan_busData (p : Nat) (v : Plan) : (setPlan s p v).busData = s.busData := rfl
@[simp] theorem setPlan_freeCtr (p : Nat) (v : Plan) : (setPlan s p v).freeCtr = s.freeCtr := rfl
@[simp] theorem setPlan_stamp (p : Nat) (v : Plan) : (setPlan s p v).stamp = s.stamp := rfl
@[simp] theorem setPlan_csr (p : Nat) (v : Plan) : (setPlan s p v).csr = s.csr := rfl
@[simp] theorem setPlan_shadow (p : Nat) (v : Plan) : (setPlan s p v).shadow = s.shadow := rfl
@[simp] theorem setPlan_heldLow (p : Nat) (v : Plan) : (setPlan s p v).heldLow = s.heldLow := rfl
@[simp] theorem setPlan_latchHigh (p : Nat) (v : Plan) : (setPlan s p v).latchHigh = s.latchHigh := rfl
@[simp] theorem setPlan_quiet (p : Nat) (v : Plan) : (setPlan s p v).quiet = s.quiet := rfl
@[simp] theorem setPlan_heldWrites (p : Nat) (v : Plan) : (setPlan s p v).heldWrites = s.heldWrites := rfl
@[simp] theorem setPlan_evt (p : Nat) (v : Plan) : (setPlan s p v).evt = s.evt := rfl
@[simp] theorem setPlan_rst (p : Nat) (v : Plan) : (setPlan s p v).rst = s.rst := rfl
@[simp] theorem setPlan_pwr (p : Nat) (v : Plan) : (setPlan s p v).pwr = s.pwr := rfl
@[simp] theorem setPlan_cores (p : Nat) (v : Plan) : (setPlan s p v).cores = s.cores := rfl
@[simp] theorem setPlan_coreHeld (p : Nat) (v : Plan) : (setPlan s p v).coreHeld = s.coreHeld := rfl
@[simp] theorem setPlan_triggers (p : Nat) (v : Plan) : (setPlan s p v).triggers = s.triggers := rfl
@[simp] theorem setPlan_ephResults (p : Nat) (v : Plan) : (setPlan s p v).ephResults = s.ephResults := rfl
@[simp] theorem setPlan_answers (p : Nat) (v : Plan) : (setPlan s p v).answers = s.answers := rfl
@[simp] theorem setPlan_stks (p : Nat) (v : Plan) : (setPlan s p v).stks = s.stks := rfl
@[simp] theorem setPlan_fast (p : Nat) (v : Plan) : (setPlan s p v).fast = s.fast := rfl
@[simp] theorem setPlan_deep (p : Nat) (v : Plan) : (setPlan s p v).deep = s.deep := rfl
@[simp] theorem setPlan_fastMark (p : Nat) (v : Plan) : (setPlan s p v).fastMark = s.fastMark := rfl
@[simp] theorem setPlan_deepMark (p : Nat) (v : Plan) : (setPlan s p v).deepMark = s.deepMark := rfl
@[simp] theorem setPlan_pages (p : Nat) (v : Plan) : (setPlan s p v).pages = s.pages := rfl
@[simp] theorem setPlan_pageCache (p : Nat) (v : Plan) : (setPlan s p v).pageCache = s.pageCache := rfl
@[simp] theorem setPlan_holders (p : Nat) (v : Plan) : (setPlan s p v).holders = s.holders := rfl
@[simp] theorem setPlan_frameMap (p : Nat) (v : Plan) : (setPlan s p v).frameMap = s.frameMap := rfl
@[simp] theorem setPlan_blocks (p : Nat) (v : Plan) : (setPlan s p v).blocks = s.blocks := rfl
@[simp] theorem setPlan_frameCur (p : Nat) (v : Plan) : (setPlan s p v).frameCur = s.frameCur := rfl
@[simp] theorem setPlan_blockCur (p : Nat) (v : Plan) : (setPlan s p v).blockCur = s.blockCur := rfl
@[simp] theorem setPlan_slots (p : Nat) (v : Plan) : (setPlan s p v).slots = s.slots := rfl
@[simp] theorem setPlan_migq (p : Nat) (v : Plan) : (setPlan s p v).migq = s.migq := rfl
@[simp] theorem setPlan_sweep (p : Nat) (v : Plan) : (setPlan s p v).sweep = s.sweep := rfl
@[simp] theorem setPlan_stalled (p : Nat) (v : Plan) : (setPlan s p v).stalled = s.stalled := rfl
@[simp] theorem setPlan_stallFail (p : Nat) (v : Plan) : (setPlan s p v).stallFail = s.stallFail := rfl
@[simp] theorem setPlan_plcCh (p : Nat) (v : Plan) : (setPlan s p v).plcCh = s.plcCh := rfl
@[simp] theorem setPlan_plcFits (p : Nat) (v : Plan) : (setPlan s p v).plcFits = s.plcFits := rfl
@[simp] theorem setPlan_plcRestoring (p : Nat) (v : Plan) : (setPlan s p v).plcRestoring = s.plcRestoring := rfl
@[simp] theorem setPlan_nbus (p : Nat) (v : Plan) : (setPlan s p v).nbus = s.nbus := rfl
@[simp] theorem setPlan_rowsInFlight (p : Nat) (v : Plan) : (setPlan s p v).rowsInFlight = s.rowsInFlight := rfl
@[simp] theorem setPlan_rowAnswers (p : Nat) (v : Plan) : (setPlan s p v).rowAnswers = s.rowAnswers := rfl
@[simp] theorem setPlan_dcache (p : Nat) (v : Plan) : (setPlan s p v).dcache = s.dcache := rfl
@[simp] theorem setPlan_outbox (p : Nat) (v : Plan) : (setPlan s p v).outbox = s.outbox := rfl
@[simp] theorem setPlan_rlys (p : Nat) (v : Plan) : (setPlan s p v).rlys = s.rlys := rfl
@[simp] theorem setPlan_med (p : Nat) (v : Plan) : (setPlan s p v).med = s.med := rfl
@[simp] theorem setPlan_links (p : Nat) (v : Plan) : (setPlan s p v).links = s.links := rfl
@[simp] theorem setPlan_fabc (p : Nat) (v : Plan) : (setPlan s p v).fabc = s.fabc := rfl
@[simp] theorem setPlan_hlk (p : Nat) (v : Plan) : (setPlan s p v).hlk = s.hlk := rfl
@[simp] theorem setPlan_harts (p : Nat) (v : Plan) : (setPlan s p v).harts = s.harts := rfl
@[simp] theorem setPlan_boot (p : Nat) (v : Plan) : (setPlan s p v).boot = s.boot := rfl
@[simp] theorem setPlan_commit (p : Nat) (v : Plan) : (setPlan s p v).commit = s.commit := rfl

@[simp] theorem setSlot_pending (i : Nat) (m : Option Mig) : (setSlot s i m).pending = s.pending := rfl
@[simp] theorem setSlot_busData (i : Nat) (m : Option Mig) : (setSlot s i m).busData = s.busData := rfl
@[simp] theorem setSlot_freeCtr (i : Nat) (m : Option Mig) : (setSlot s i m).freeCtr = s.freeCtr := rfl
@[simp] theorem setSlot_stamp (i : Nat) (m : Option Mig) : (setSlot s i m).stamp = s.stamp := rfl
@[simp] theorem setSlot_csr (i : Nat) (m : Option Mig) : (setSlot s i m).csr = s.csr := rfl
@[simp] theorem setSlot_shadow (i : Nat) (m : Option Mig) : (setSlot s i m).shadow = s.shadow := rfl
@[simp] theorem setSlot_heldLow (i : Nat) (m : Option Mig) : (setSlot s i m).heldLow = s.heldLow := rfl
@[simp] theorem setSlot_latchHigh (i : Nat) (m : Option Mig) : (setSlot s i m).latchHigh = s.latchHigh := rfl
@[simp] theorem setSlot_quiet (i : Nat) (m : Option Mig) : (setSlot s i m).quiet = s.quiet := rfl
@[simp] theorem setSlot_heldWrites (i : Nat) (m : Option Mig) : (setSlot s i m).heldWrites = s.heldWrites := rfl
@[simp] theorem setSlot_evt (i : Nat) (m : Option Mig) : (setSlot s i m).evt = s.evt := rfl
@[simp] theorem setSlot_rst (i : Nat) (m : Option Mig) : (setSlot s i m).rst = s.rst := rfl
@[simp] theorem setSlot_pwr (i : Nat) (m : Option Mig) : (setSlot s i m).pwr = s.pwr := rfl
@[simp] theorem setSlot_cores (i : Nat) (m : Option Mig) : (setSlot s i m).cores = s.cores := rfl
@[simp] theorem setSlot_coreHeld (i : Nat) (m : Option Mig) : (setSlot s i m).coreHeld = s.coreHeld := rfl
@[simp] theorem setSlot_triggers (i : Nat) (m : Option Mig) : (setSlot s i m).triggers = s.triggers := rfl
@[simp] theorem setSlot_ephResults (i : Nat) (m : Option Mig) : (setSlot s i m).ephResults = s.ephResults := rfl
@[simp] theorem setSlot_answers (i : Nat) (m : Option Mig) : (setSlot s i m).answers = s.answers := rfl
@[simp] theorem setSlot_stks (i : Nat) (m : Option Mig) : (setSlot s i m).stks = s.stks := rfl
@[simp] theorem setSlot_fast (i : Nat) (m : Option Mig) : (setSlot s i m).fast = s.fast := rfl
@[simp] theorem setSlot_deep (i : Nat) (m : Option Mig) : (setSlot s i m).deep = s.deep := rfl
@[simp] theorem setSlot_fastMark (i : Nat) (m : Option Mig) : (setSlot s i m).fastMark = s.fastMark := rfl
@[simp] theorem setSlot_deepMark (i : Nat) (m : Option Mig) : (setSlot s i m).deepMark = s.deepMark := rfl
@[simp] theorem setSlot_pages (i : Nat) (m : Option Mig) : (setSlot s i m).pages = s.pages := rfl
@[simp] theorem setSlot_pageCache (i : Nat) (m : Option Mig) : (setSlot s i m).pageCache = s.pageCache := rfl
@[simp] theorem setSlot_holders (i : Nat) (m : Option Mig) : (setSlot s i m).holders = s.holders := rfl
@[simp] theorem setSlot_frameMap (i : Nat) (m : Option Mig) : (setSlot s i m).frameMap = s.frameMap := rfl
@[simp] theorem setSlot_blocks (i : Nat) (m : Option Mig) : (setSlot s i m).blocks = s.blocks := rfl
@[simp] theorem setSlot_frameCur (i : Nat) (m : Option Mig) : (setSlot s i m).frameCur = s.frameCur := rfl
@[simp] theorem setSlot_blockCur (i : Nat) (m : Option Mig) : (setSlot s i m).blockCur = s.blockCur := rfl
@[simp] theorem setSlot_migq (i : Nat) (m : Option Mig) : (setSlot s i m).migq = s.migq := rfl
@[simp] theorem setSlot_sweep (i : Nat) (m : Option Mig) : (setSlot s i m).sweep = s.sweep := rfl
@[simp] theorem setSlot_stalled (i : Nat) (m : Option Mig) : (setSlot s i m).stalled = s.stalled := rfl
@[simp] theorem setSlot_stallFail (i : Nat) (m : Option Mig) : (setSlot s i m).stallFail = s.stallFail := rfl
@[simp] theorem setSlot_plcCh (i : Nat) (m : Option Mig) : (setSlot s i m).plcCh = s.plcCh := rfl
@[simp] theorem setSlot_plans (i : Nat) (m : Option Mig) : (setSlot s i m).plans = s.plans := rfl
@[simp] theorem setSlot_plcFits (i : Nat) (m : Option Mig) : (setSlot s i m).plcFits = s.plcFits := rfl
@[simp] theorem setSlot_plcRestoring (i : Nat) (m : Option Mig) : (setSlot s i m).plcRestoring = s.plcRestoring := rfl
@[simp] theorem setSlot_nbus (i : Nat) (m : Option Mig) : (setSlot s i m).nbus = s.nbus := rfl
@[simp] theorem setSlot_rowsInFlight (i : Nat) (m : Option Mig) : (setSlot s i m).rowsInFlight = s.rowsInFlight := rfl
@[simp] theorem setSlot_rowAnswers (i : Nat) (m : Option Mig) : (setSlot s i m).rowAnswers = s.rowAnswers := rfl
@[simp] theorem setSlot_dcache (i : Nat) (m : Option Mig) : (setSlot s i m).dcache = s.dcache := rfl
@[simp] theorem setSlot_outbox (i : Nat) (m : Option Mig) : (setSlot s i m).outbox = s.outbox := rfl
@[simp] theorem setSlot_rlys (i : Nat) (m : Option Mig) : (setSlot s i m).rlys = s.rlys := rfl
@[simp] theorem setSlot_med (i : Nat) (m : Option Mig) : (setSlot s i m).med = s.med := rfl
@[simp] theorem setSlot_links (i : Nat) (m : Option Mig) : (setSlot s i m).links = s.links := rfl
@[simp] theorem setSlot_fabc (i : Nat) (m : Option Mig) : (setSlot s i m).fabc = s.fabc := rfl
@[simp] theorem setSlot_hlk (i : Nat) (m : Option Mig) : (setSlot s i m).hlk = s.hlk := rfl
@[simp] theorem setSlot_harts (i : Nat) (m : Option Mig) : (setSlot s i m).harts = s.harts := rfl
@[simp] theorem setSlot_boot (i : Nat) (m : Option Mig) : (setSlot s i m).boot = s.boot := rfl
@[simp] theorem setSlot_commit (i : Nat) (m : Option Mig) : (setSlot s i m).commit = s.commit := rfl

@[simp] theorem setRly_pending (e : Nat) (v : Rly) : (setRly s e v).pending = s.pending := rfl
@[simp] theorem setRly_busData (e : Nat) (v : Rly) : (setRly s e v).busData = s.busData := rfl
@[simp] theorem setRly_freeCtr (e : Nat) (v : Rly) : (setRly s e v).freeCtr = s.freeCtr := rfl
@[simp] theorem setRly_stamp (e : Nat) (v : Rly) : (setRly s e v).stamp = s.stamp := rfl
@[simp] theorem setRly_csr (e : Nat) (v : Rly) : (setRly s e v).csr = s.csr := rfl
@[simp] theorem setRly_shadow (e : Nat) (v : Rly) : (setRly s e v).shadow = s.shadow := rfl
@[simp] theorem setRly_heldLow (e : Nat) (v : Rly) : (setRly s e v).heldLow = s.heldLow := rfl
@[simp] theorem setRly_latchHigh (e : Nat) (v : Rly) : (setRly s e v).latchHigh = s.latchHigh := rfl
@[simp] theorem setRly_quiet (e : Nat) (v : Rly) : (setRly s e v).quiet = s.quiet := rfl
@[simp] theorem setRly_heldWrites (e : Nat) (v : Rly) : (setRly s e v).heldWrites = s.heldWrites := rfl
@[simp] theorem setRly_evt (e : Nat) (v : Rly) : (setRly s e v).evt = s.evt := rfl
@[simp] theorem setRly_rst (e : Nat) (v : Rly) : (setRly s e v).rst = s.rst := rfl
@[simp] theorem setRly_pwr (e : Nat) (v : Rly) : (setRly s e v).pwr = s.pwr := rfl
@[simp] theorem setRly_cores (e : Nat) (v : Rly) : (setRly s e v).cores = s.cores := rfl
@[simp] theorem setRly_coreHeld (e : Nat) (v : Rly) : (setRly s e v).coreHeld = s.coreHeld := rfl
@[simp] theorem setRly_triggers (e : Nat) (v : Rly) : (setRly s e v).triggers = s.triggers := rfl
@[simp] theorem setRly_ephResults (e : Nat) (v : Rly) : (setRly s e v).ephResults = s.ephResults := rfl
@[simp] theorem setRly_answers (e : Nat) (v : Rly) : (setRly s e v).answers = s.answers := rfl
@[simp] theorem setRly_stks (e : Nat) (v : Rly) : (setRly s e v).stks = s.stks := rfl
@[simp] theorem setRly_fast (e : Nat) (v : Rly) : (setRly s e v).fast = s.fast := rfl
@[simp] theorem setRly_deep (e : Nat) (v : Rly) : (setRly s e v).deep = s.deep := rfl
@[simp] theorem setRly_fastMark (e : Nat) (v : Rly) : (setRly s e v).fastMark = s.fastMark := rfl
@[simp] theorem setRly_deepMark (e : Nat) (v : Rly) : (setRly s e v).deepMark = s.deepMark := rfl
@[simp] theorem setRly_pages (e : Nat) (v : Rly) : (setRly s e v).pages = s.pages := rfl
@[simp] theorem setRly_pageCache (e : Nat) (v : Rly) : (setRly s e v).pageCache = s.pageCache := rfl
@[simp] theorem setRly_holders (e : Nat) (v : Rly) : (setRly s e v).holders = s.holders := rfl
@[simp] theorem setRly_frameMap (e : Nat) (v : Rly) : (setRly s e v).frameMap = s.frameMap := rfl
@[simp] theorem setRly_blocks (e : Nat) (v : Rly) : (setRly s e v).blocks = s.blocks := rfl
@[simp] theorem setRly_frameCur (e : Nat) (v : Rly) : (setRly s e v).frameCur = s.frameCur := rfl
@[simp] theorem setRly_blockCur (e : Nat) (v : Rly) : (setRly s e v).blockCur = s.blockCur := rfl
@[simp] theorem setRly_slots (e : Nat) (v : Rly) : (setRly s e v).slots = s.slots := rfl
@[simp] theorem setRly_migq (e : Nat) (v : Rly) : (setRly s e v).migq = s.migq := rfl
@[simp] theorem setRly_sweep (e : Nat) (v : Rly) : (setRly s e v).sweep = s.sweep := rfl
@[simp] theorem setRly_stalled (e : Nat) (v : Rly) : (setRly s e v).stalled = s.stalled := rfl
@[simp] theorem setRly_stallFail (e : Nat) (v : Rly) : (setRly s e v).stallFail = s.stallFail := rfl
@[simp] theorem setRly_plcCh (e : Nat) (v : Rly) : (setRly s e v).plcCh = s.plcCh := rfl
@[simp] theorem setRly_plans (e : Nat) (v : Rly) : (setRly s e v).plans = s.plans := rfl
@[simp] theorem setRly_plcFits (e : Nat) (v : Rly) : (setRly s e v).plcFits = s.plcFits := rfl
@[simp] theorem setRly_plcRestoring (e : Nat) (v : Rly) : (setRly s e v).plcRestoring = s.plcRestoring := rfl
@[simp] theorem setRly_nbus (e : Nat) (v : Rly) : (setRly s e v).nbus = s.nbus := rfl
@[simp] theorem setRly_rowsInFlight (e : Nat) (v : Rly) : (setRly s e v).rowsInFlight = s.rowsInFlight := rfl
@[simp] theorem setRly_rowAnswers (e : Nat) (v : Rly) : (setRly s e v).rowAnswers = s.rowAnswers := rfl
@[simp] theorem setRly_dcache (e : Nat) (v : Rly) : (setRly s e v).dcache = s.dcache := rfl
@[simp] theorem setRly_outbox (e : Nat) (v : Rly) : (setRly s e v).outbox = s.outbox := rfl
@[simp] theorem setRly_med (e : Nat) (v : Rly) : (setRly s e v).med = s.med := rfl
@[simp] theorem setRly_links (e : Nat) (v : Rly) : (setRly s e v).links = s.links := rfl
@[simp] theorem setRly_fabc (e : Nat) (v : Rly) : (setRly s e v).fabc = s.fabc := rfl
@[simp] theorem setRly_hlk (e : Nat) (v : Rly) : (setRly s e v).hlk = s.hlk := rfl
@[simp] theorem setRly_harts (e : Nat) (v : Rly) : (setRly s e v).harts = s.harts := rfl
@[simp] theorem setRly_boot (e : Nat) (v : Rly) : (setRly s e v).boot = s.boot := rfl
@[simp] theorem setRly_commit (e : Nat) (v : Rly) : (setRly s e v).commit = s.commit := rfl

@[simp] theorem setStk_pending (i : Nat) (k : Stk) : (setStk s i k).pending = s.pending := rfl
@[simp] theorem setStk_busData (i : Nat) (k : Stk) : (setStk s i k).busData = s.busData := rfl
@[simp] theorem setStk_freeCtr (i : Nat) (k : Stk) : (setStk s i k).freeCtr = s.freeCtr := rfl
@[simp] theorem setStk_stamp (i : Nat) (k : Stk) : (setStk s i k).stamp = s.stamp := rfl
@[simp] theorem setStk_csr (i : Nat) (k : Stk) : (setStk s i k).csr = s.csr := rfl
@[simp] theorem setStk_shadow (i : Nat) (k : Stk) : (setStk s i k).shadow = s.shadow := rfl
@[simp] theorem setStk_heldLow (i : Nat) (k : Stk) : (setStk s i k).heldLow = s.heldLow := rfl
@[simp] theorem setStk_latchHigh (i : Nat) (k : Stk) : (setStk s i k).latchHigh = s.latchHigh := rfl
@[simp] theorem setStk_quiet (i : Nat) (k : Stk) : (setStk s i k).quiet = s.quiet := rfl
@[simp] theorem setStk_heldWrites (i : Nat) (k : Stk) : (setStk s i k).heldWrites = s.heldWrites := rfl
@[simp] theorem setStk_evt (i : Nat) (k : Stk) : (setStk s i k).evt = s.evt := rfl
@[simp] theorem setStk_rst (i : Nat) (k : Stk) : (setStk s i k).rst = s.rst := rfl
@[simp] theorem setStk_pwr (i : Nat) (k : Stk) : (setStk s i k).pwr = s.pwr := rfl
@[simp] theorem setStk_cores (i : Nat) (k : Stk) : (setStk s i k).cores = s.cores := rfl
@[simp] theorem setStk_coreHeld (i : Nat) (k : Stk) : (setStk s i k).coreHeld = s.coreHeld := rfl
@[simp] theorem setStk_triggers (i : Nat) (k : Stk) : (setStk s i k).triggers = s.triggers := rfl
@[simp] theorem setStk_ephResults (i : Nat) (k : Stk) : (setStk s i k).ephResults = s.ephResults := rfl
@[simp] theorem setStk_answers (i : Nat) (k : Stk) : (setStk s i k).answers = s.answers := rfl
@[simp] theorem setStk_fast (i : Nat) (k : Stk) : (setStk s i k).fast = s.fast := rfl
@[simp] theorem setStk_deep (i : Nat) (k : Stk) : (setStk s i k).deep = s.deep := rfl
@[simp] theorem setStk_fastMark (i : Nat) (k : Stk) : (setStk s i k).fastMark = s.fastMark := rfl
@[simp] theorem setStk_deepMark (i : Nat) (k : Stk) : (setStk s i k).deepMark = s.deepMark := rfl
@[simp] theorem setStk_pages (i : Nat) (k : Stk) : (setStk s i k).pages = s.pages := rfl
@[simp] theorem setStk_pageCache (i : Nat) (k : Stk) : (setStk s i k).pageCache = s.pageCache := rfl
@[simp] theorem setStk_holders (i : Nat) (k : Stk) : (setStk s i k).holders = s.holders := rfl
@[simp] theorem setStk_frameMap (i : Nat) (k : Stk) : (setStk s i k).frameMap = s.frameMap := rfl
@[simp] theorem setStk_blocks (i : Nat) (k : Stk) : (setStk s i k).blocks = s.blocks := rfl
@[simp] theorem setStk_frameCur (i : Nat) (k : Stk) : (setStk s i k).frameCur = s.frameCur := rfl
@[simp] theorem setStk_blockCur (i : Nat) (k : Stk) : (setStk s i k).blockCur = s.blockCur := rfl
@[simp] theorem setStk_slots (i : Nat) (k : Stk) : (setStk s i k).slots = s.slots := rfl
@[simp] theorem setStk_migq (i : Nat) (k : Stk) : (setStk s i k).migq = s.migq := rfl
@[simp] theorem setStk_sweep (i : Nat) (k : Stk) : (setStk s i k).sweep = s.sweep := rfl
@[simp] theorem setStk_stalled (i : Nat) (k : Stk) : (setStk s i k).stalled = s.stalled := rfl
@[simp] theorem setStk_stallFail (i : Nat) (k : Stk) : (setStk s i k).stallFail = s.stallFail := rfl
@[simp] theorem setStk_plcCh (i : Nat) (k : Stk) : (setStk s i k).plcCh = s.plcCh := rfl
@[simp] theorem setStk_plans (i : Nat) (k : Stk) : (setStk s i k).plans = s.plans := rfl
@[simp] theorem setStk_plcFits (i : Nat) (k : Stk) : (setStk s i k).plcFits = s.plcFits := rfl
@[simp] theorem setStk_plcRestoring (i : Nat) (k : Stk) : (setStk s i k).plcRestoring = s.plcRestoring := rfl
@[simp] theorem setStk_nbus (i : Nat) (k : Stk) : (setStk s i k).nbus = s.nbus := rfl
@[simp] theorem setStk_rowsInFlight (i : Nat) (k : Stk) : (setStk s i k).rowsInFlight = s.rowsInFlight := rfl
@[simp] theorem setStk_rowAnswers (i : Nat) (k : Stk) : (setStk s i k).rowAnswers = s.rowAnswers := rfl
@[simp] theorem setStk_dcache (i : Nat) (k : Stk) : (setStk s i k).dcache = s.dcache := rfl
@[simp] theorem setStk_outbox (i : Nat) (k : Stk) : (setStk s i k).outbox = s.outbox := rfl
@[simp] theorem setStk_rlys (i : Nat) (k : Stk) : (setStk s i k).rlys = s.rlys := rfl
@[simp] theorem setStk_med (i : Nat) (k : Stk) : (setStk s i k).med = s.med := rfl
@[simp] theorem setStk_links (i : Nat) (k : Stk) : (setStk s i k).links = s.links := rfl
@[simp] theorem setStk_fabc (i : Nat) (k : Stk) : (setStk s i k).fabc = s.fabc := rfl
@[simp] theorem setStk_hlk (i : Nat) (k : Stk) : (setStk s i k).hlk = s.hlk := rfl
@[simp] theorem setStk_harts (i : Nat) (k : Stk) : (setStk s i k).harts = s.harts := rfl
@[simp] theorem setStk_boot (i : Nat) (k : Stk) : (setStk s i k).boot = s.boot := rfl
@[simp] theorem setStk_commit (i : Nat) (k : Stk) : (setStk s i k).commit = s.commit := rfl

/-! ### Reading back -/

@[simp] theorem rd_lt (a : Nat) : rd s a < 2 ^ 64 := BitVec.isLt _

theorem rd_wr (a b v : Nat) : rd (wr s a v) b = if b = a then v % 2 ^ 64 else rd s b := by
  unfold rd wr
  split
  · subst_vars; simp [smGet_smSet]
  · rename_i h; simp only [smGet_smSet_ne (e := csrReset b) _ _ _ _ h]

@[simp] theorem rd_wr_same (a v : Nat) : rd (wr s a v) a = v % 2 ^ 64 := by simp [rd_wr]

@[simp] theorem rd_wr_ne {a b : Nat} (v : Nat) (h : b ≠ a) : rd (wr s a v) b = rd s b := by simp [rd_wr, h]

theorem rdShadow_wrShadow (a b v : Nat) : rdShadow (wrShadow s a v) b = if b = a then v % 2 ^ 64 else rdShadow s b := by
  unfold rdShadow wrShadow
  split
  · subst_vars; simp [smGet_smSet]
  · rename_i h; simp only [smGet_smSet_ne (e := csrReset b) _ _ _ _ h]

@[simp] theorem rdShadow_wr (a b v : Nat) : rdShadow (wr s a v) b = rdShadow s b := rfl

theorem coreOf_setCore (c d : Nat) (k : Core) : coreOf (setCore s c k) d = if d = c then k else coreOf s d := by
  simp [coreOf, setCore]
theorem hartOf_setHart (p q : Nat) (h : Hart) : hartOf (setHart s p h) q = if q = p then h else hartOf s q := by
  simp [hartOf, setHart]
theorem tgtOf_setTgt (p q : Nat) (v : Target) : tgtOf (setTgt s p v) q = if q = p then v else tgtOf s q := by
  simp [tgtOf, setTgt]
theorem linkOf_setLink (p q : Nat) (v : Link) : linkOf (setLink s p v) q = if q = p then v else linkOf s q := by
  simp [linkOf, setLink]
theorem nbuOf_setNbu (p q : Nat) (v : Nbu) : nbuOf (setNbu s p v) q = if q = p then v else nbuOf s q := by
  simp [nbuOf, setNbu]
theorem stkOf_setStk (p q : Nat) (v : Stk) : stkOf (setStk s p v) q = if q = p then v else stkOf s q := by
  simp [stkOf, setStk]
theorem rlyOf_setRly (p q : Nat) (v : Rly) : rlyOf (setRly s p v) q = if q = p then v else rlyOf s q := by
  simp [rlyOf, setRly]
theorem planOf_setPlan (p q : Nat) (v : Plan) : planOf (setPlan s p v) q = if q = p then v else planOf s q := by
  simp [planOf, setPlan]

@[simp] theorem coreOf_wr (a v : Nat) (x : Nat) : coreOf (wr s a v) x = coreOf s x := rfl
@[simp] theorem hartOf_wr (a v : Nat) (x : Nat) : hartOf (wr s a v) x = hartOf s x := rfl
@[simp] theorem rd_wrShadow (a v : Nat) (x : Nat) : rd (wrShadow s a v) x = rd s x := rfl
@[simp] theorem coreOf_wrShadow (a v : Nat) (x : Nat) : coreOf (wrShadow s a v) x = coreOf s x := rfl
@[simp] theorem hartOf_wrShadow (a v : Nat) (x : Nat) : hartOf (wrShadow s a v) x = hartOf s x := rfl
@[simp] theorem coreOf_setFld (a hi lo v : Nat) (x : Nat) : coreOf (setFld s a hi lo v) x = coreOf s x := rfl
@[simp] theorem hartOf_setFld (a hi lo v : Nat) (x : Nat) : hartOf (setFld s a hi lo v) x = hartOf s x := rfl
@[simp] theorem coreOf_setFlag (a n : Nat) (b : Bool) (x : Nat) : coreOf (setFlag s a n b) x = coreOf s x := rfl
@[simp] theorem hartOf_setFlag (a n : Nat) (b : Bool) (x : Nat) : hartOf (setFlag s a n b) x = hartOf s x := rfl
@[simp] theorem rd_setCore (c : Nat) (k : Core) (x : Nat) : rd (setCore s c k) x = rd s x := rfl
@[simp] theorem hartOf_setCore (c : Nat) (k : Core) (x : Nat) : hartOf (setCore s c k) x = hartOf s x := rfl
@[simp] theorem rd_setTgt (t : Nat) (v : Target) (x : Nat) : rd (setTgt s t v) x = rd s x := rfl
@[simp] theorem coreOf_setTgt (t : Nat) (v : Target) (x : Nat) : coreOf (setTgt s t v) x = coreOf s x := rfl
@[simp] theorem hartOf_setTgt (t : Nat) (v : Target) (x : Nat) : hartOf (setTgt s t v) x = hartOf s x := rfl
@[simp] theorem rd_poolPut (r : EvRec) (x : Nat) : rd (poolPut s r) x = rd s x := rfl
@[simp] theorem coreOf_poolPut (r : EvRec) (x : Nat) : coreOf (poolPut s r) x = coreOf s x := rfl
@[simp] theorem hartOf_poolPut (r : EvRec) (x : Nat) : hartOf (poolPut s r) x = hartOf s x := rfl
@[simp] theorem rd_setHart (p : Nat) (h : Hart) (x : Nat) : rd (setHart s p h) x = rd s x := rfl
@[simp] theorem coreOf_setHart (p : Nat) (h : Hart) (x : Nat) : coreOf (setHart s p h) x = coreOf s x := rfl
@[simp] theorem rd_setBoot (b : Boot) (x : Nat) : rd (setBoot s b) x = rd s x := rfl
@[simp] theorem coreOf_setBoot (b : Boot) (x : Nat) : coreOf (setBoot s b) x = coreOf s x := rfl
@[simp] theorem hartOf_setBoot (b : Boot) (x : Nat) : hartOf (setBoot s b) x = hartOf s x := rfl
@[simp] theorem rd_setPwr (p : Pwr) (x : Nat) : rd (setPwr s p) x = rd s x := rfl
@[simp] theorem coreOf_setPwr (p : Pwr) (x : Nat) : coreOf (setPwr s p) x = coreOf s x := rfl
@[simp] theorem hartOf_setPwr (p : Pwr) (x : Nat) : hartOf (setPwr s p) x = hartOf s x := rfl
@[simp] theorem rd_setHlk (h : Hlk) (x : Nat) : rd (setHlk s h) x = rd s x := rfl
@[simp] theorem coreOf_setHlk (h : Hlk) (x : Nat) : coreOf (setHlk s h) x = coreOf s x := rfl
@[simp] theorem hartOf_setHlk (h : Hlk) (x : Nat) : hartOf (setHlk s h) x = hartOf s x := rfl
@[simp] theorem rd_setLink (l : Nat) (v : Link) (x : Nat) : rd (setLink s l v) x = rd s x := rfl
@[simp] theorem coreOf_setLink (l : Nat) (v : Link) (x : Nat) : coreOf (setLink s l v) x = coreOf s x := rfl
@[simp] theorem hartOf_setLink (l : Nat) (v : Link) (x : Nat) : hartOf (setLink s l v) x = hartOf s x := rfl
@[simp] theorem rd_setMedJob (e : Nat) (j : Option MedJob) (x : Nat) : rd (setMedJob s e j) x = rd s x := rfl
@[simp] theorem coreOf_setMedJob (e : Nat) (j : Option MedJob) (x : Nat) : coreOf (setMedJob s e j) x = coreOf s x := rfl
@[simp] theorem hartOf_setMedJob (e : Nat) (j : Option MedJob) (x : Nat) : hartOf (setMedJob s e j) x = hartOf s x := rfl
@[simp] theorem rd_setNbu (n : Nat) (v : Nbu) (x : Nat) : rd (setNbu s n v) x = rd s x := rfl
@[simp] theorem coreOf_setNbu (n : Nat) (v : Nbu) (x : Nat) : coreOf (setNbu s n v) x = coreOf s x := rfl
@[simp] theorem hartOf_setNbu (n : Nat) (v : Nbu) (x : Nat) : hartOf (setNbu s n v) x = hartOf s x := rfl
@[simp] theorem rd_setEnt (p : Nat) (e : Ent) (x : Nat) : rd (setEnt s p e) x = rd s x := rfl
@[simp] theorem coreOf_setEnt (p : Nat) (e : Ent) (x : Nat) : coreOf (setEnt s p e) x = coreOf s x := rfl
@[simp] theorem hartOf_setEnt (p : Nat) (e : Ent) (x : Nat) : hartOf (setEnt s p e) x = hartOf s x := rfl
@[simp] theorem rd_setFrameCode (d f c : Nat) (x : Nat) : rd (setFrameCode s d f c) x = rd s x := rfl
@[simp] theorem coreOf_setFrameCode (d f c : Nat) (x : Nat) : coreOf (setFrameCode s d f c) x = coreOf s x := rfl
@[simp] theorem hartOf_setFrameCode (d f c : Nat) (x : Nat) : hartOf (setFrameCode s d f c) x = hartOf s x := rfl
@[simp] theorem rd_setPlan (p : Nat) (v : Plan) (x : Nat) : rd (setPlan s p v) x = rd s x := rfl
@[simp] theorem coreOf_setPlan (p : Nat) (v : Plan) (x : Nat) : coreOf (setPlan s p v) x = coreOf s x := rfl
@[simp] theorem hartOf_setPlan (p : Nat) (v : Plan) (x : Nat) : hartOf (setPlan s p v) x = hartOf s x := rfl
@[simp] theorem rd_setSlot (i : Nat) (m : Option Mig) (x : Nat) : rd (setSlot s i m) x = rd s x := rfl
@[simp] theorem coreOf_setSlot (i : Nat) (m : Option Mig) (x : Nat) : coreOf (setSlot s i m) x = coreOf s x := rfl
@[simp] theorem hartOf_setSlot (i : Nat) (m : Option Mig) (x : Nat) : hartOf (setSlot s i m) x = hartOf s x := rfl
@[simp] theorem rd_setRly (e : Nat) (v : Rly) (x : Nat) : rd (setRly s e v) x = rd s x := rfl
@[simp] theorem coreOf_setRly (e : Nat) (v : Rly) (x : Nat) : coreOf (setRly s e v) x = coreOf s x := rfl
@[simp] theorem hartOf_setRly (e : Nat) (v : Rly) (x : Nat) : hartOf (setRly s e v) x = hartOf s x := rfl
@[simp] theorem rd_setStk (i : Nat) (k : Stk) (x : Nat) : rd (setStk s i k) x = rd s x := rfl
@[simp] theorem coreOf_setStk (i : Nat) (k : Stk) (x : Nat) : coreOf (setStk s i k) x = coreOf s x := rfl
@[simp] theorem hartOf_setStk (i : Nat) (k : Stk) (x : Nat) : hartOf (setStk s i k) x = hartOf s x := rfl

end

end Sys2Proof.Machine
end

