-- ==== Sys2Proof/Laws/Issue.lean ====
section
/-! SUPPORT. What issuing an instruction of a tile core does, said once: the soft errors it meets, the word it runs, and how the
core goes on. -/

namespace Sys2Proof.Machine

variable {s t u : State} {c : Fin 96} {k : Core} {w cls op : Nat}

/-- A field of a part that is listed does not count. -/
theorem sameBut_of {ps : List Part} (h : ∀ p : Part, p ∉ ps → p.same s t) : SameBut ps s t := h

theorem SameBut.rfl' {ps : List Part} : SameBut ps s s := by intro p _; cases p <;> first | rfl | (intro a; rfl)

/-- An update of one core. -/
theorem setCore_becomes (c : Nat) (s : State) (k : Core) :
    coreOf (setCore s c k) c = k ∧ OtherCores c s (setCore s c k) ∧ SameBut [.cores] s (setCore s c k) := by
  refine ⟨by simp [coreOf_setCore], fun d hd => by simp [coreOf_setCore, hd], ?_⟩
  intro p hp; cases p <;> first | rfl | (intro a; rfl) | (exact absurd (by decide) hp)

/-- A counter that grows by nothing reads as before while it fits its 32 bits. -/
theorem rd_bumpOcc_zero (s : State) (a b : Nat) :
    rd (bumpOcc s a 0) b = rd s b ∨ (b = a ∧ 2 ^ 32 ≤ rd s a ∧ rd (bumpOcc s a 0) b = 2 ^ 32 - 1) := by
  have e : bumpOcc s a 0 = bumpRaw s a 0 := by unfold bumpOcc; rw [if_neg]; omega
  rw [e]; unfold bumpRaw; rw [rd_wr]
  have := rd_lt s a
  by_cases hb : b = a
  · subst hb
    rw [if_pos rfl]
    by_cases h : rd s b < 2 ^ 32
    · left; omega
    · right; omega
  · left; simp [hb]

theorem bumpOcc_zero_same (s : State) (a : Nat) : SameBut [.csr] s (bumpOcc s a 0) := by
  have e : bumpOcc s a 0 = bumpRaw s a 0 := by unfold bumpOcc; rw [if_neg]; omega
  rw [e]
  intro p hp; cases p <;> first | rfl | (intro a; rfl) | (exact absurd (by decide) hp)

theorem coreBecomes_of_set {c : Nat} (h : coreOf u c = k ∧ OtherCores c s u ∧ SameBut [.cores] s u) : CoreBecomes c s k u := by
  refine ⟨h.1, h.2.1, ?_, fun a => Or.inl (h.2.2 .csr (by decide) a)⟩
  intro p hp
  exact h.2.2 p (by intro q; apply hp; simp only [List.mem_singleton] at q; subst q; decide)

theorem CoreBecomes.trans {c : Nat} {k l : Core} (h : CoreBecomes c s k t) (g : CoreBecomes c t l u) : CoreBecomes c s l u := by
  refine ⟨g.1, fun d hd => (g.2.1 d hd).trans (h.2.1 d hd), ?_, ?_⟩
  · intro p hp
    have a := h.2.2.1 p hp; have b := g.2.2.1 p hp
    cases p <;> first | exact Eq.trans b a | exact fun x => (b x).trans (a x)
  · intro a
    rcases g.2.2.2 a with e | ⟨e, f⟩ <;> rcases h.2.2.2 a with e' | ⟨e', f'⟩
    · left; rw [e, e']
    · right; exact ⟨e', f'⟩
    · right; rw [e'] at f; exact ⟨e, f⟩
    · right; exact ⟨e', f'⟩

/-- A counter of soft errors that grows by nothing. -/
theorem becomes_bump {c a : Nat} (ha : a = Csr.CORE_TS_CE (c / 24) (c % 24) ∨ a = Csr.ACC_CE (c / 24) (c % 24)) (s : State) :
    CoreBecomes c s (coreOf s c) (bumpOcc s a 0) := by
  have e : bumpOcc s a 0 = bumpRaw s a 0 := by unfold bumpOcc; rw [if_neg]; omega
  refine ⟨by rw [e]; rfl, fun d _ => by rw [e]; rfl, ?_, ?_⟩
  · intro p hp
    have := bumpOcc_zero_same s a p (by intro q; apply hp; simp only [List.mem_singleton] at q; subst q; decide)
    exact this
  · intro b
    rcases rd_bumpOcc_zero s a b with h | ⟨h, g, _⟩
    · exact Or.inl h
    · subst h; exact Or.inr ⟨ha, g⟩

/-- No soft error: the core is as it was. -/
theorem strike_none (s : State) (c : Nat) : CoreBecomes c s (coreOf s c) (strike s c {}) := by
  unfold strike
  simp only [List.append_nil]
  have h1 := coreBecomes_of_set (setCore_becomes c s (coreOf s c))
  have h2 := becomes_bump (c := c) (Or.inl rfl) (setCore s c (coreOf s c))
  have h3 := becomes_bump (c := c) (Or.inr rfl) (bumpOcc (setCore s c (coreOf s c)) (Csr.CORE_TS_CE (c / 24) (c % 24)) 0)
  rw [h2.1] at h3
  rw [h1.1] at h2 h3
  exact (h1.trans h2).trans h3

/-- R103: an instruction of a legal word, without soft errors, is its effect on a state in which nothing of the core has
changed, and then its flow. -/
theorem issue_legal {eff : State → Nat → Nat → State × Flow} (h : Issues s c cls op w) :
    issue cls op eff c {} s =
      applyFlow (eff (strike s c {}) c w).1 c w (eff (strike s c {}) c w).2 := by
  obtain ⟨h1, h2, h3, h4, h5, h6, _⟩ := h
  have hk := (strike_none s c).1
  unfold issue
  simp only [h1, hk, h2, h3, h4, h5, h6, Bool.not_true, Bool.false_eq_true, if_false, and_self, if_true]

/-- R103: an effect on the core alone, without soft errors. -/
theorem issue_onCore {f : Core → Nat → Core × Flow} (h : Issues s c cls op w) :
    issue cls op (onCore f) c {} s =
      applyFlow (setCore (strike s c {}) c (f (coreOf s c) w).1) c w (f (coreOf s c) w).2 := by
  rw [issue_legal h]; unfold onCore; simp only [(strike_none s c).1]

/-- The core after an effect on it alone. -/
theorem becomes_onCore (s : State) (c : Nat) (l : Core) : CoreBecomes c s l (setCore (strike s c {}) c l) :=
  (strike_none s c).trans (coreBecomes_of_set (setCore_becomes c _ l))

theorem advance_becomes {l : Core} {c : Nat} (h : CoreBecomes c s l u) (hp : l.pc < 32767) :
    CoreBecomes c s { l with st := .running, wait := none, stall := none, pc := l.pc + 1 } (advance u c w) := by
  unfold advance
  simp only [h.1]
  rw [if_neg (by omega)]
  exact h.trans (coreBecomes_of_set (setCore_becomes c u _))

theorem Issues.st (h : Issues s c cls op w) : (coreOf s c).st = .running ∧ (coreOf s c).stall = none := by
  have := h.1
  unfold coreIssues at this
  simp only [Bool.and_eq_true, decide_eq_true_eq, Option.isNone_iff_eq_none] at this
  exact ⟨this.1.1.1.1, this.1.1.1.2⟩

/-- R103: an instruction that goes on to the next word. -/
theorem moves_next {l : Core} (hi : Issues s c cls op w) (h : CoreBecomes c s l u)
    (hl : l.pc = (coreOf s c).pc ∧ l.st = (coreOf s c).st ∧ l.stall = (coreOf s c).stall) : Moves c s l (applyFlow u c w .next) := by
  have hp : l.pc < 32767 := by rw [hl.1]; exact hi.2.2.2.2.2.2
  have := advance_becomes (w := w) h hp
  unfold Moves
  simp only [applyFlow]
  rw [hi.st.1, hi.st.2] at hl
  obtain ⟨e1, e2, e3⟩ := hl
  rw [← e1]
  cases l
  simp only at e2 e3
  subst e2 e3
  exact this

end Sys2Proof.Machine
end

