-- ==== Sys2Proof/Laws/Keeps.lean ====
section
/-! SUPPORT. What every command keeps: the queue, the canonical form of every memory, and the range of VL. One lemma per
function of the model that answers a state, named <function>_keeps; the ones of the meanings are exec…_keeps. -/

namespace Sys2Proof.Machine

/-- VL and tile store of a core, as `CoreInv` says. -/
def CoreOkAt (vl : Nat) (ts : List Host.Cell) : Prop := (1 ≤ vl ∧ vl ≤ 256) ∧ memWf ts = true
/-- `CoreInv`, in a form that an update of another field of the core does not touch. -/
abbrev CoreOk (k : Core) : Prop := CoreOkAt k.vl k.ts
abbrev LmemOk (h : Hart) : Prop := memWf h.lmem = true
structure Keeps (s t : State) : Prop where
  pending : t.pending = s.pending
  fast : memWf s.fast = true → memWf t.fast = true
  deep : memWf s.deep = true → memWf t.deep = true
  vl : (∀ c, CoreOk (coreOf s c)) → ∀ c, CoreOk (coreOf t c)
  lm : (∀ p, LmemOk (hartOf s p)) → ∀ p, LmemOk (hartOf t p)
def OutKeeps (s : State) (o : Out) : Prop := ∀ t, o = .next t → Keeps s t
theorem Keeps.refl (s : State) : Keeps s s := ⟨rfl, id, id, id, id⟩
theorem Keeps.trans {s t u : State} (h : Keeps s t) (k : Keeps t u) : Keeps s u :=
  ⟨k.pending.trans h.pending, fun x => k.fast (h.fast x), fun x => k.deep (h.deep x), fun x => k.vl (h.vl x), fun x => k.lm (h.lm x)⟩
theorem outKeeps_next {s t : State} (h : Keeps s t) : OutKeeps s (.next t) := by intro u e; cases e; exact h
theorem keeps_fst {α} {s0 s : State} {a : α} {x : State × α} (e : x = (s, a)) (h : Keeps s0 x.1) : Keeps s0 s := by
  subst e; exact h
theorem keeps_snd {α} {s0 s : State} {a : α} {x : α × State} (e : x = (a, s)) (h : Keeps s0 x.2) : Keeps s0 s := by
  subst e; exact h
theorem keeps_pair {α : Type} {s0 s : State} {a : α} (h : Keeps s0 s) : Keeps s0 (s, a).1 := h
theorem keeps_fstH {α} {s0 : State} {h : Hit} {a : α} {x : Hit × α} (e : x = (h, a)) (k : Keeps s0 x.1.s) : Keeps s0
    h.s := by
  subst e; exact k
theorem keeps_some {α} {s0 s : State} {a : α} {o : Option (State × α)} (h : ∀ r, o = some r → Keeps s0 r.1)
    (e : o = some (s, a)) : Keeps s0 s := h _ e
theorem keeps_foldl {α} {s0 : State} {f : State → α → State} (hf : ∀ s x, Keeps s0 s → Keeps s0 (f s x)) :
   ∀ (l : List α) (s : State), Keeps s0 s → Keeps s0 (l.foldl f s)
  | [], _, h => h
  | x :: l, s, h => keeps_foldl hf l _ (hf s x h)
theorem keeps_foldl1 {α β} {s0 : State} {f : State × β → α → State × β}
    (hf : ∀ s x, Keeps s0 s.1 → Keeps s0 (f s x).1) :
   ∀ (l : List α) (s : State × β), Keeps s0 s.1 → Keeps s0 (l.foldl f s).1
  | [], _, h => h
  | x :: l, s, h => keeps_foldl1 hf l _ (hf s x h)
theorem coreOk_fst {α} {k : Core} {a : α} {x : Core × α} (e : x = (k, a)) (h : CoreOk x.1) : CoreOk k := by
  subst e; exact h
theorem setCore_keeps {s0 s : State} {c : Nat} {k : Core} (h : Keeps s0 s)
    (hk : (∀ c, CoreOk (coreOf s c)) → CoreOk k) :
    Keeps s0 (setCore s c k) :=
  h.trans ⟨rfl, id, id, fun x n => by rw [coreOf_setCore]; split; exact hk x; exact x n, id⟩
theorem setHart_keeps {s0 s : State} {p : Nat} {k : Hart} (h : Keeps s0 s)
    (hk : (∀ p, LmemOk (hartOf s p)) → LmemOk k) :
    Keeps s0 (setHart s p k) :=
  h.trans ⟨rfl, id, id, id, fun x n => by rw [hartOf_setHart]; split; exact hk x; exact x n⟩
theorem lmemOk_fst {α} {k : Hart} {a : α} {x : Hart × α} (e : x = (k, a)) (h : LmemOk x.1) : LmemOk k := by
  subst e; exact h
theorem keeps_mk {s0 s : State} {x_busData : Nat} {x_freeCtr : Nat} {x_stamp : Nat} {x_csr : SMap W64}
    {x_shadow : SMap W64} {x_heldLow : SMap (Option W32)} {x_latchHigh : SMap W32} {x_quiet : Nat}
    {x_heldWrites : List HeldWrite} {x_evt : Evt} {x_rst : Rst} {x_pwr : Pwr} {x_coreHeld : List HeldWrite}
    {x_triggers : List (Nat × Nat)} {x_ephResults : List (Nat × Nat × Nat)} {x_answers : List Answer}
    {x_stks : SMap Stk} {x_fastMark : SMap (Option Mark)} {x_deepMark : SMap (Option Mark)} {x_pages : SMap Ent}
    {x_pageCache : SMap (List (Nat × Nat × Nat))} {x_holders : SMap Nat} {x_frameMap : SMap Nat}
    {x_blocks : SMap Bool} {x_frameCur : SMap Nat} {x_blockCur : SMap Nat} {x_slots : SMap (Option Mig)}
    {x_migq : List Mig} {x_sweep : SMap Nat} {x_stalled : List Stalled} {x_stallFail : SMap Nat}
    {x_plcCh : SMap (Option PlcCmd)} {x_plans : SMap Plan} {x_plcFits : Bool} {x_plcRestoring : Bool}
    {x_nbus : SMap Nbu} {x_rowsInFlight : List (Nat × Bytes)} {x_rowAnswers : List Bytes}
    {x_dcache : SMap (SMap (Option Bytes))} {x_outbox : List FabMsg} {x_rlys : SMap Rly} {x_med : Med}
    {x_links : SMap Link} {x_fabc : Fabc} {x_hlk : Hlk} {x_boot : Boot} {x_commit : Option Nat} (h : Keeps s0 s) :
    Keeps s0 (State.mk s.pending x_busData x_freeCtr x_stamp x_csr x_shadow x_heldLow x_latchHigh x_quiet x_heldWrites
      x_evt x_rst x_pwr s.cores x_coreHeld x_triggers x_ephResults x_answers x_stks s.fast s.deep x_fastMark
      x_deepMark x_pages x_pageCache x_holders x_frameMap x_blocks x_frameCur x_blockCur x_slots x_migq x_sweep
      x_stalled x_stallFail x_plcCh x_plans x_plcFits x_plcRestoring x_nbus x_rowsInFlight x_rowAnswers x_dcache
      x_outbox x_rlys x_med x_links x_fabc x_hlk s.harts x_boot x_commit) := h.trans ⟨rfl, id, id, fun x n => x n,
      id⟩
theorem memFilter_wf {m : List Host.Cell} {f : Host.Cell → Bool} (h : memWf m = true) : memWf (m.filter f) = true :=
    smFilter_wf 0 f h
theorem coreOkAt_write {v a : Nat} {m : List Host.Cell} {bs : Bytes} (h : CoreOkAt v m) : CoreOkAt v
    (memWrite m a bs) := ⟨h.1, memWrite_wf h.2⟩
theorem keeps_mk_iff {s0 s : State} {x_busData : Nat} {x_freeCtr : Nat} {x_stamp : Nat} {x_csr : SMap W64}
    {x_shadow : SMap W64} {x_heldLow : SMap (Option W32)} {x_latchHigh : SMap W32} {x_quiet : Nat}
    {x_heldWrites : List HeldWrite} {x_evt : Evt} {x_rst : Rst} {x_pwr : Pwr} {x_coreHeld : List HeldWrite}
    {x_triggers : List (Nat × Nat)} {x_ephResults : List (Nat × Nat × Nat)} {x_answers : List Answer}
    {x_stks : SMap Stk} {x_fastMark : SMap (Option Mark)} {x_deepMark : SMap (Option Mark)} {x_pages : SMap Ent}
    {x_pageCache : SMap (List (Nat × Nat × Nat))} {x_holders : SMap Nat} {x_frameMap : SMap Nat}
    {x_blocks : SMap Bool} {x_frameCur : SMap Nat} {x_blockCur : SMap Nat} {x_slots : SMap (Option Mig)}
    {x_migq : List Mig} {x_sweep : SMap Nat} {x_stalled : List Stalled} {x_stallFail : SMap Nat}
    {x_plcCh : SMap (Option PlcCmd)} {x_plans : SMap Plan} {x_plcFits : Bool} {x_plcRestoring : Bool}
    {x_nbus : SMap Nbu} {x_rowsInFlight : List (Nat × Bytes)} {x_rowAnswers : List Bytes}
    {x_dcache : SMap (SMap (Option Bytes))} {x_outbox : List FabMsg} {x_rlys : SMap Rly} {x_med : Med}
    {x_links : SMap Link} {x_fabc : Fabc} {x_hlk : Hlk} {x_boot : Boot} {x_commit : Option Nat} :
    Keeps s0 (State.mk s.pending x_busData x_freeCtr x_stamp x_csr x_shadow x_heldLow x_latchHigh x_quiet x_heldWrites
      x_evt x_rst x_pwr s.cores x_coreHeld x_triggers x_ephResults x_answers x_stks s.fast s.deep x_fastMark
      x_deepMark x_pages x_pageCache x_holders x_frameMap x_blocks x_frameCur x_blockCur x_slots x_migq x_sweep
      x_stalled x_stallFail x_plcCh x_plans x_plcFits x_plcRestoring x_nbus x_rowsInFlight x_rowAnswers x_dcache
      x_outbox x_rlys x_med x_links x_fabc x_hlk s.harts x_boot x_commit) ↔ Keeps s0 s := ⟨fun h => h.trans ⟨rfl,
      id, id, fun x n => x n, id⟩, fun h => keeps_mk h⟩
theorem keeps_mkc {s0 s : State} {x_busData : Nat} {x_freeCtr : Nat} {x_stamp : Nat} {x_csr : SMap W64}
    {x_shadow : SMap W64} {x_heldLow : SMap (Option W32)} {x_latchHigh : SMap W32} {x_quiet : Nat}
    {x_heldWrites : List HeldWrite} {x_evt : Evt} {x_rst : Rst} {x_pwr : Pwr} {x_coreHeld : List HeldWrite}
    {x_triggers : List (Nat × Nat)} {x_ephResults : List (Nat × Nat × Nat)} {x_answers : List Answer}
    {x_stks : SMap Stk} {x_fastMark : SMap (Option Mark)} {x_deepMark : SMap (Option Mark)} {x_pages : SMap Ent}
    {x_pageCache : SMap (List (Nat × Nat × Nat))} {x_holders : SMap Nat} {x_frameMap : SMap Nat}
    {x_blocks : SMap Bool} {x_frameCur : SMap Nat} {x_blockCur : SMap Nat} {x_slots : SMap (Option Mig)}
    {x_migq : List Mig} {x_sweep : SMap Nat} {x_stalled : List Stalled} {x_stallFail : SMap Nat}
    {x_plcCh : SMap (Option PlcCmd)} {x_plans : SMap Plan} {x_plcFits : Bool} {x_plcRestoring : Bool}
    {x_nbus : SMap Nbu} {x_rowsInFlight : List (Nat × Bytes)} {x_rowAnswers : List Bytes}
    {x_dcache : SMap (SMap (Option Bytes))} {x_outbox : List FabMsg} {x_rlys : SMap Rly} {x_med : Med}
    {x_links : SMap Link} {x_fabc : Fabc} {x_hlk : Hlk} {x_boot : Boot} {x_commit : Option Nat}
    {x_cores : SMap Core} (h : Keeps s0 s) (hk : (∀ c, CoreOk (coreOf s c)) → ∀ c, CoreOk (smGet {} x_cores c)) :
    Keeps s0 (State.mk s.pending x_busData x_freeCtr x_stamp x_csr x_shadow x_heldLow x_latchHigh x_quiet x_heldWrites
      x_evt x_rst x_pwr x_cores x_coreHeld x_triggers x_ephResults x_answers x_stks s.fast s.deep x_fastMark
      x_deepMark x_pages x_pageCache x_holders x_frameMap x_blocks x_frameCur x_blockCur x_slots x_migq x_sweep
      x_stalled x_stallFail x_plcCh x_plans x_plcFits x_plcRestoring x_nbus x_rowsInFlight x_rowAnswers x_dcache
      x_outbox x_rlys x_med x_links x_fabc x_hlk s.harts x_boot x_commit) := h.trans ⟨rfl, id, id, hk, id⟩
theorem keeps_mkh {s0 s : State} {x_busData : Nat} {x_freeCtr : Nat} {x_stamp : Nat} {x_csr : SMap W64}
    {x_shadow : SMap W64} {x_heldLow : SMap (Option W32)} {x_latchHigh : SMap W32} {x_quiet : Nat}
    {x_heldWrites : List HeldWrite} {x_evt : Evt} {x_rst : Rst} {x_pwr : Pwr} {x_coreHeld : List HeldWrite}
    {x_triggers : List (Nat × Nat)} {x_ephResults : List (Nat × Nat × Nat)} {x_answers : List Answer}
    {x_stks : SMap Stk} {x_fastMark : SMap (Option Mark)} {x_deepMark : SMap (Option Mark)} {x_pages : SMap Ent}
    {x_pageCache : SMap (List (Nat × Nat × Nat))} {x_holders : SMap Nat} {x_frameMap : SMap Nat}
    {x_blocks : SMap Bool} {x_frameCur : SMap Nat} {x_blockCur : SMap Nat} {x_slots : SMap (Option Mig)}
    {x_migq : List Mig} {x_sweep : SMap Nat} {x_stalled : List Stalled} {x_stallFail : SMap Nat}
    {x_plcCh : SMap (Option PlcCmd)} {x_plans : SMap Plan} {x_plcFits : Bool} {x_plcRestoring : Bool}
    {x_nbus : SMap Nbu} {x_rowsInFlight : List (Nat × Bytes)} {x_rowAnswers : List Bytes}
    {x_dcache : SMap (SMap (Option Bytes))} {x_outbox : List FabMsg} {x_rlys : SMap Rly} {x_med : Med}
    {x_links : SMap Link} {x_fabc : Fabc} {x_hlk : Hlk} {x_boot : Boot} {x_commit : Option Nat}
    {x_harts : SMap Hart} (h : Keeps s0 s) (hk : (∀ p, LmemOk (hartOf s p)) → ∀ p, LmemOk (smGet {} x_harts p)) :
    Keeps s0 (State.mk s.pending x_busData x_freeCtr x_stamp x_csr x_shadow x_heldLow x_latchHigh x_quiet x_heldWrites
      x_evt x_rst x_pwr s.cores x_coreHeld x_triggers x_ephResults x_answers x_stks s.fast s.deep x_fastMark
      x_deepMark x_pages x_pageCache x_holders x_frameMap x_blocks x_frameCur x_blockCur x_slots x_migq x_sweep
      x_stalled x_stallFail x_plcCh x_plans x_plcFits x_plcRestoring x_nbus x_rowsInFlight x_rowAnswers x_dcache
      x_outbox x_rlys x_med x_links x_fabc x_hlk x_harts x_boot x_commit) := h.trans ⟨rfl, id, id, id, hk⟩
theorem keeps_mkfast {s0 s : State} {x_busData : Nat} {x_freeCtr : Nat} {x_stamp : Nat} {x_csr : SMap W64}
    {x_shadow : SMap W64} {x_heldLow : SMap (Option W32)} {x_latchHigh : SMap W32} {x_quiet : Nat}
    {x_heldWrites : List HeldWrite} {x_evt : Evt} {x_rst : Rst} {x_pwr : Pwr} {x_coreHeld : List HeldWrite}
    {x_triggers : List (Nat × Nat)} {x_ephResults : List (Nat × Nat × Nat)} {x_answers : List Answer}
    {x_stks : SMap Stk} {x_fastMark : SMap (Option Mark)} {x_deepMark : SMap (Option Mark)} {x_pages : SMap Ent}
    {x_pageCache : SMap (List (Nat × Nat × Nat))} {x_holders : SMap Nat} {x_frameMap : SMap Nat}
    {x_blocks : SMap Bool} {x_frameCur : SMap Nat} {x_blockCur : SMap Nat} {x_slots : SMap (Option Mig)}
    {x_migq : List Mig} {x_sweep : SMap Nat} {x_stalled : List Stalled} {x_stallFail : SMap Nat}
    {x_plcCh : SMap (Option PlcCmd)} {x_plans : SMap Plan} {x_plcFits : Bool} {x_plcRestoring : Bool}
    {x_nbus : SMap Nbu} {x_rowsInFlight : List (Nat × Bytes)} {x_rowAnswers : List Bytes}
    {x_dcache : SMap (SMap (Option Bytes))} {x_outbox : List FabMsg} {x_rlys : SMap Rly} {x_med : Med}
    {x_links : SMap Link} {x_fabc : Fabc} {x_hlk : Hlk} {x_boot : Boot} {x_commit : Option Nat}
    {x_fast : List Host.Cell} (h : Keeps s0 s) (hk : memWf s.fast = true → memWf x_fast = true) :
    Keeps s0 (State.mk s.pending x_busData x_freeCtr x_stamp x_csr x_shadow x_heldLow x_latchHigh x_quiet x_heldWrites
      x_evt x_rst x_pwr s.cores x_coreHeld x_triggers x_ephResults x_answers x_stks x_fast s.deep x_fastMark
      x_deepMark x_pages x_pageCache x_holders x_frameMap x_blocks x_frameCur x_blockCur x_slots x_migq x_sweep
      x_stalled x_stallFail x_plcCh x_plans x_plcFits x_plcRestoring x_nbus x_rowsInFlight x_rowAnswers x_dcache
      x_outbox x_rlys x_med x_links x_fabc x_hlk s.harts x_boot x_commit) := h.trans ⟨rfl, hk, id, fun x n => x n,
      id⟩
theorem keeps_mkdeep {s0 s : State} {x_busData : Nat} {x_freeCtr : Nat} {x_stamp : Nat} {x_csr : SMap W64}
    {x_shadow : SMap W64} {x_heldLow : SMap (Option W32)} {x_latchHigh : SMap W32} {x_quiet : Nat}
    {x_heldWrites : List HeldWrite} {x_evt : Evt} {x_rst : Rst} {x_pwr : Pwr} {x_coreHeld : List HeldWrite}
    {x_triggers : List (Nat × Nat)} {x_ephResults : List (Nat × Nat × Nat)} {x_answers : List Answer}
    {x_stks : SMap Stk} {x_fastMark : SMap (Option Mark)} {x_deepMark : SMap (Option Mark)} {x_pages : SMap Ent}
    {x_pageCache : SMap (List (Nat × Nat × Nat))} {x_holders : SMap Nat} {x_frameMap : SMap Nat}
    {x_blocks : SMap Bool} {x_frameCur : SMap Nat} {x_blockCur : SMap Nat} {x_slots : SMap (Option Mig)}
    {x_migq : List Mig} {x_sweep : SMap Nat} {x_stalled : List Stalled} {x_stallFail : SMap Nat}
    {x_plcCh : SMap (Option PlcCmd)} {x_plans : SMap Plan} {x_plcFits : Bool} {x_plcRestoring : Bool}
    {x_nbus : SMap Nbu} {x_rowsInFlight : List (Nat × Bytes)} {x_rowAnswers : List Bytes}
    {x_dcache : SMap (SMap (Option Bytes))} {x_outbox : List FabMsg} {x_rlys : SMap Rly} {x_med : Med}
    {x_links : SMap Link} {x_fabc : Fabc} {x_hlk : Hlk} {x_boot : Boot} {x_commit : Option Nat}
    {x_deep : List Host.Cell} (h : Keeps s0 s) (hk : memWf s.deep = true → memWf x_deep = true) :
    Keeps s0 (State.mk s.pending x_busData x_freeCtr x_stamp x_csr x_shadow x_heldLow x_latchHigh x_quiet x_heldWrites
      x_evt x_rst x_pwr s.cores x_coreHeld x_triggers x_ephResults x_answers x_stks s.fast x_deep x_fastMark
      x_deepMark x_pages x_pageCache x_holders x_frameMap x_blocks x_frameCur x_blockCur x_slots x_migq x_sweep
      x_stalled x_stallFail x_plcCh x_plans x_plcFits x_plcRestoring x_nbus x_rowsInFlight x_rowAnswers x_dcache
      x_outbox x_rlys x_med x_links x_fabc x_hlk s.harts x_boot x_commit) := h.trans ⟨rfl, id, hk, fun x n => x n,
      id⟩

end Sys2Proof.Machine
end

