-- ==== Sys2Proof/Laws/KeepsOps.lean ====
section
/-! SUPPORT. What the functions of Machine/Ops.lean keep (see Laws/Keeps.lean). -/

set_option linter.unusedSimpArgs false
set_option simprocs false -- no numeral of a goal is evaluated in these proofs

namespace Sys2Proof.Machine

theorem wr_keeps {s0 : State} {s : State} {a : Nat} {v : Nat} (hK : Keeps s0 s) : Keeps s0 (wr s a v) := by
  unfold wr
  repeat' (first | with_reducible assumption | simp only [keeps_mk_iff])

theorem wrShadow_keeps {s0 : State} {s : State} {a : Nat} {v : Nat} (hK : Keeps s0 s) : Keeps s0 (wrShadow s a v)
    := by
  unfold wrShadow
  repeat' (first | with_reducible assumption | simp only [keeps_mk_iff])

theorem setFld_keeps {s0 : State} {s : State} {a : Nat} {hi : Nat} {lo : Nat} {v : Nat} (hK : Keeps s0 s) : Keeps s0
    (setFld s a hi lo v) := by
  unfold setFld
  repeat' (first | with_reducible assumption | with_reducible apply wr_keeps)

theorem setFlag_keeps {s0 : State} {s : State} {a : Nat} {n : Nat} {b : Bool} (hK : Keeps s0 s) : Keeps s0
    (setFlag s a n b) := by
  unfold setFlag
  repeat' (first | with_reducible assumption | with_reducible apply setFld_keeps)

theorem poolPut_keeps {s0 : State} {s : State} {r : EvRec} (hK : Keeps s0 s) : Keeps s0 (poolPut s r) := by
  unfold poolPut
  repeat' (first | with_reducible assumption | simp only [keeps_mk_iff])

theorem bumpStat_keeps {s0 : State} {s : State} {a : Nat} {n : Nat} {blk : Option Nat} (hK : Keeps s0 s) : Keeps s0
    (bumpStat s a n blk) := by
  unfold bumpStat
  repeat' (first | with_reducible assumption | with_reducible apply wr_keeps | simp only [keeps_mk_iff] | split)

theorem bumpRaw_keeps {s0 : State} {s : State} {a : Nat} {n : Nat} (hK : Keeps s0 s) : Keeps s0 (bumpRaw s a n) := by
  unfold bumpRaw
  repeat' (first | with_reducible assumption | with_reducible apply wr_keeps)

theorem dropRec_keeps {s0 : State} {s : State} {src : Nat} (hK : Keeps s0 s) : Keeps s0 (dropRec s src) := by
  unfold dropRec
  repeat' (first | with_reducible assumption | with_reducible apply setFlag_keeps
                  | with_reducible apply bumpStat_keeps)

theorem raiseQuiet_keeps {s0 : State} {s : State} {src : Nat} {code : Nat} {d0 : Nat} {d1 : Nat} (hK : Keeps s0 s) :
    Keeps s0 (raiseQuiet s src code d0 d1) := by
  unfold raiseQuiet
  repeat' (first | with_reducible assumption | with_reducible apply poolPut_keeps
                  | with_reducible apply bumpStat_keeps | with_reducible apply dropRec_keeps
                  | simp only [keeps_mk_iff] | split)

theorem reportDrop_keeps {s0 : State} {s : State} {src : Nat} (hK : Keeps s0 s) : Keeps s0 (reportDrop s src) := by
  unfold reportDrop
  repeat' (first | with_reducible assumption | with_reducible apply setFlag_keeps
                  | with_reducible apply raiseQuiet_keeps | split)

theorem raisePool_keeps {s0 : State} {s : State} {src : Nat} {code : Nat} {d0 : Nat} {d1 : Nat} (hK : Keeps s0 s) :
    Keeps s0 (raisePool s src code d0 d1) := by
  unfold raisePool
  repeat' (first | with_reducible assumption | with_reducible apply poolPut_keeps
                  | with_reducible apply bumpStat_keeps | with_reducible apply dropRec_keeps
                  | with_reducible apply reportDrop_keeps | simp only [keeps_mk_iff] | split)

theorem raiseDome_keeps {s0 : State} {s : State} {src : Nat} {code : Nat} {d0 : Nat} {d1 : Nat} (hK : Keeps s0 s) :
    Keeps s0 (raiseDome s src code d0 d1) := by
  unfold raiseDome
  repeat' (first | with_reducible assumption | with_reducible apply setFlag_keeps | simp only [keeps_mk_iff] | split)

theorem drainDome_keeps {s0 : State} {s : State} (hK : Keeps s0 s) : Keeps s0 (drainDome s) := by
  unfold drainDome
  repeat' (first | with_reducible assumption | with_reducible apply poolPut_keeps
                  | with_reducible apply bumpStat_keeps | with_reducible apply dropRec_keeps
                  | with_reducible apply reportDrop_keeps | simp only [keeps_mk_iff]
                  | (with_reducible apply keeps_foldl; (try intros)) | extract_lets | split)

theorem raise_keeps {s0 : State} {s : State} {src : Nat} {code : Nat} {d0 : Nat} {d1 : Nat} (hK : Keeps s0 s) :
    Keeps s0 (raise s src code d0 d1) := by
  unfold raise
  repeat' (first | with_reducible assumption | with_reducible apply raisePool_keeps
                  | with_reducible apply raiseDome_keeps | with_reducible apply drainDome_keeps | split)

theorem bumpOcc_keeps {s0 : State} {s : State} {a : Nat} {n : Nat} (hK : Keeps s0 s) : Keeps s0 (bumpOcc s a n) := by
  unfold bumpOcc
  repeat' (first | with_reducible assumption | with_reducible apply bumpRaw_keeps | with_reducible apply raise_keeps
                  | simp only [keeps_mk_iff] | split)

theorem captureViol_keeps {s0 : State} {s : State} {kind : Nat} {write : Bool} {cls : Nat} {addr : Nat}
    (hK : Keeps s0 s) : Keeps s0 (captureViol s kind write cls addr) := by
  unfold captureViol
  repeat' (first | with_reducible assumption | with_reducible apply wr_keeps | split)

theorem violation_keeps {s0 : State} {s : State} {kind : Nat} {write : Bool} {ini : Initiator} {addr : Nat}
    (hK : Keeps s0 s) : Keeps s0 (violation s kind write ini addr) := by
  unfold violation
  repeat' (first | with_reducible assumption | with_reducible apply bumpOcc_keeps
                  | with_reducible apply captureViol_keeps)

end Sys2Proof.Machine
end

