-- ==== Sys2Proof/Laws/KeepsCoreOps.lean ====
section
/-! SUPPORT. What the functions of Machine/CoreOps.lean keep (see Laws/Keeps.lean). -/

set_option linter.unusedSimpArgs false
set_option simprocs false -- no numeral of a goal is evaluated in these proofs

namespace Sys2Proof.Machine

theorem xw_coreOk {k : Core} {n : Nat} {v : Nat} (hV : CoreOk k) : CoreOk (xw k n v) := by
  unfold xw
  repeat' (first | with_reducible assumption | split)
  all_goals (try exact hV)

theorem foldWrite_wf (part : List Nat) : ∀ (ws : List (Nat × Byte)) (m : List Host.Cell), memWf m = true →
    memWf (ws.foldl (fun m w => if part.contains (w.1 / 8) then m else smSet 0 m w.1 w.2) m) = true
  | [], _, h => h
  | w :: ws, m, h => by
    rw [List.foldl_cons]
    apply foldWrite_wf part ws
    split
    · exact h
    · exact smSet_wf 0 w.1 w.2 h

theorem tsPut_coreOk {k : Core} {ws : List (Nat × Byte)} (hV : CoreOk k) : CoreOk (tsPut k ws).1 :=
  ⟨hV.1, foldWrite_wf _ ws _ hV.2⟩

theorem tsWrite_coreOk {k : Core} {a : Nat} {bs : Bytes} (hV : CoreOk k) : CoreOk (tsWrite k a bs).1 := by
  unfold tsWrite
  repeat' (first | with_reducible assumption | with_reducible apply tsPut_coreOk)
  all_goals (try exact hV)

theorem accPut_coreOk {k : Core} {ws : List (Nat × Nat)} (hV : CoreOk k) : CoreOk (accPut k ws).1 := by
  unfold accPut
  repeat' (with_reducible assumption)
  all_goals (try exact hV)

theorem accZeroTile_coreOk {k : Core} {t : Nat} (hV : CoreOk k) : CoreOk (accZeroTile k t) := by
  unfold accZeroTile
  repeat' (with_reducible assumption)
  all_goals (try exact hV)

theorem vPut_coreOk {k : Core} {r : Nat} {ws : List (Nat × Nat)} (hV : CoreOk k) : CoreOk (vPut k r ws).1 := by
  unfold vPut
  repeat' (with_reducible assumption)
  all_goals (try exact hV)

theorem mPut_coreOk {k : Core} {m : Nat} {v : Nat} (hV : CoreOk k) : CoreOk (mPut k m v) := by
  unfold mPut
  repeat' (with_reducible assumption)
  all_goals (try exact hV)

theorem coreFault_keeps {s0 : State} {s : State} {c : Nat} {w : Nat} {status : Nat} {cause : Nat} {addr : Nat}
    (hK : Keeps s0 s) : Keeps s0 (coreFault s c w status cause addr) := by
  unfold coreFault
  repeat' (first | with_reducible assumption | with_reducible apply wr_keeps | with_reducible apply raise_keeps
                  | with_reducible apply setCore_keeps | with_reducible exact hvl _ | extract_lets | intro hvl)

theorem accErrCapture_keeps {s0 : State} {s : State} {c : Nat} {b : Bad} (hK : Keeps s0 s) : Keeps s0
    (accErrCapture s c b) := by
  unfold accErrCapture
  repeat' (first | with_reducible assumption | with_reducible apply wr_keeps | simp only [keeps_mk_iff] | split)

theorem afterBads_keeps {s0 : State} {s : State} {c : Nat} {bads : List Bad} (hK : Keeps s0 s) : Keeps s0
    (afterBads s c bads).1 := by
  unfold afterBads
  repeat' (first | with_reducible assumption | with_reducible apply accErrCapture_keeps | simp only [keeps_mk_iff]
                  | (with_reducible apply keeps_foldl; (try intros)) | split)

theorem advance_keeps {s0 : State} {s : State} {c : Nat} {w : Nat} (hK : Keeps s0 s) : Keeps s0 (advance s c w) := by
  unfold advance
  repeat' (first | with_reducible assumption | with_reducible apply setCore_keeps
                  | with_reducible apply coreFault_keeps | simp only [keeps_mk_iff] | with_reducible exact hvl _
                  | extract_lets | split | intro hvl)

theorem applyFlow_keeps {s0 : State} {s : State} {c : Nat} {w : Nat} {fl : Flow} (hK : Keeps s0 s) : Keeps s0
    (applyFlow s c w fl) := by
  unfold applyFlow
  repeat' (first | with_reducible assumption | with_reducible apply raise_keeps | with_reducible apply setCore_keeps
                  | with_reducible apply coreFault_keeps | with_reducible apply advance_keeps
                  | simp only [keeps_mk_iff] | with_reducible exact hvl _ | extract_lets | split | intro hvl)

theorem strike_keeps {s0 : State} {s : State} {c : Nat} {k : Strike} (hK : Keeps s0 s) : Keeps s0 (strike s c k) := by
  unfold strike
  repeat' (first | with_reducible assumption | with_reducible apply bumpOcc_keeps
                  | with_reducible apply setCore_keeps | with_reducible exact hvl _ | extract_lets | intro hvl)

theorem fresh_keeps {s0 : State} {s : State} {kind : Nat} (hK : Keeps s0 s) : Keeps s0 (fresh s kind).2 := by
  unfold fresh
  repeat' (first | with_reducible assumption | simp only [keeps_mk_iff])

theorem issue_keeps {s0 : State} {cls : Nat} {op : Nat} {eff : State → Nat → Nat → State × Flow} {c : Fin 96}
    {k : Strike} {s : State} (hK : Keeps s0 s) (hf_eff : ∀ a0 a1 a2, Keeps s0 a0 → Keeps s0 (eff a0 a1 a2).1) :
    Keeps s0 (issue cls op eff c k s) := by
  unfold issue
  repeat' (first | with_reducible assumption | with_reducible apply hf_eff | with_reducible apply coreFault_keeps
                  | with_reducible apply applyFlow_keeps | with_reducible apply strike_keeps
                  | with_reducible apply fresh_keeps | simp only [keeps_mk_iff] | split)

theorem onCore_keeps {s0 : State} {f : Core → Nat → Core × Flow} {s : State} {c : Nat} {w : Nat} (hK : Keeps s0 s)
    (hf_f : ∀ a0 a1, CoreOk a0 → CoreOk (f a0 a1).1) : Keeps s0 (onCore f s c w).1 := by
  unfold onCore
  repeat' (first | with_reducible assumption | with_reducible apply hf_f | with_reducible apply setCore_keeps
                  | with_reducible exact hvl _ | extract_lets | intro hvl)

end Sys2Proof.Machine
end

