-- ==== Sys2Proof/Laws/KeepsStrmOps.lean ====
section
/-! SUPPORT. What the functions of Machine/StrmOps.lean keep (see Laws/Keeps.lean). -/

set_option linter.unusedSimpArgs false
set_option simprocs false -- no numeral of a goal is evaluated in these proofs

namespace Sys2Proof.Machine

theorem sbSet_keeps {s0 : State} {s : State} {c : Nat} {b : Nat} (hK : Keeps s0 s) : Keeps s0 (sbSet s c b) := by
  unfold sbSet
  repeat' (first | with_reducible assumption | with_reducible apply bumpOcc_keeps
                  | with_reducible apply setCore_keeps | simp only [keeps_mk_iff] | with_reducible exact hvl _
                  | extract_lets | split | intro hvl)

theorem sbFailSet_keeps {s0 : State} {s : State} {c : Nat} {b : Nat} {st : Nat} (hK : Keeps s0 s) : Keeps s0
    (sbFailSet s c b st) := by
  unfold sbFailSet
  repeat' (first | with_reducible assumption | with_reducible apply setCore_keeps | with_reducible exact hvl _
                  | extract_lets | intro hvl)

theorem sbClear_coreOk {k : Core} {mask : Nat} (hV : CoreOk k) : CoreOk (sbClear k mask) := by
  unfold sbClear
  repeat' (with_reducible assumption)
  all_goals (try exact hV)

theorem waitFlow_keeps {s0 : State} {s : State} {c : Nat} {mask : Nat} {clr : Bool} (hK : Keeps s0 s) : Keeps s0
    (waitFlow s c mask clr).1 := by
  unfold waitFlow
  repeat' (first | with_reducible assumption | with_reducible apply setCore_keeps | with_reducible apply sbClear_coreOk
                  | simp only [keeps_mk_iff] | with_reducible exact hvl _ | extract_lets | split | intro hvl)

theorem setStrm_coreOk {k : Core} {t : Nat} {v : Strm} (hV : CoreOk k) : CoreOk (setStrm k t v) := by
  unfold setStrm
  repeat' (with_reducible assumption)
  all_goals (try exact hV)

theorem strmEnqueue_coreOk {k : Core} {t : Nat} {e : QEnt} (hV : CoreOk k) : CoreOk (strmEnqueue k t e) := by
  unfold strmEnqueue
  repeat' (first | with_reducible assumption | with_reducible apply setStrm_coreOk)
  all_goals (try exact hV)

theorem strmCapture_keeps {s0 : State} {s : State} {c : Nat} {t : Nat} {tag : Nat} {r : Report} (hK : Keeps s0 s) :
    Keeps s0 (strmCapture s c t tag r) := by
  unfold strmCapture
  repeat' (first | with_reducible assumption | with_reducible apply wr_keeps | with_reducible apply setFld_keeps
                  | simp only [keeps_mk_iff] | split)

theorem strmDuties_keeps {s0 : State} {s : State} {c : Nat} {t : Nat} {b : Bytes} {r : Report} (hK : Keeps s0 s) :
    Keeps s0 (strmDuties s c t b r) := by
  unfold strmDuties
  repeat' (first | with_reducible assumption | with_reducible apply raise_keeps | with_reducible apply sbSet_keeps
                  | with_reducible apply sbFailSet_keeps | with_reducible apply strmCapture_keeps
                  | simp only [keeps_mk_iff] | extract_lets | split)

theorem strmComplete_keeps {s0 : State} {s : State} {c : Nat} {t : Nat} {b : Bytes} {eph : Option (Nat × Nat)}
    {r : Report} (hK : Keeps s0 s) : Keeps s0 (strmComplete s c t b eph r) := by
  unfold strmComplete
  repeat' (first | with_reducible assumption | with_reducible apply strmDuties_keeps | simp only [keeps_mk_iff]
                  | split)

theorem strmPushFailed_keeps {s0 : State} {s : State} {c : Nat} {t : Nat} {st : Nat} (hK : Keeps s0 s) : Keeps s0
    (strmPushFailed s c t st) := by
  unfold strmPushFailed
  repeat' (first | with_reducible assumption | with_reducible apply strmCapture_keeps)

theorem strmDropQueued_keeps {s0 : State} {s : State} {c : Nat} {t : Nat} {e0 : List QEnt} (hK : Keeps s0 s) : Keeps
    s0 (strmDropQueued s c t e0) := by
  revert hK
  fun_induction strmDropQueued s c t e0 <;> intro hK
  all_goals (repeat' (with_reducible assumption))
  all_goals (try (apply_assumption; repeat' (first | with_reducible assumption | with_reducible apply strmComplete_keeps
                                                     | with_reducible apply strmPushFailed_keeps)))

theorem strmCancelAll_keeps {s0 : State} {s : State} {c : Nat} {t : Nat} (hK : Keeps s0 s) : Keeps s0
    (strmCancelAll s c t) := by
  unfold strmCancelAll
  repeat' (first | with_reducible assumption | with_reducible apply setCore_keeps
                  | with_reducible apply strmDropQueued_keeps | with_reducible apply setStrm_coreOk
                  | with_reducible exact hvl _ | extract_lets | intro hvl)

end Sys2Proof.Machine
end

