-- ==== Sys2Proof/Laws/KeepsCoreCtl.lean ====
section
/-! SUPPORT. What the functions of Machine/CoreCtl.lean keep (see Laws/Keeps.lean). -/

set_option linter.unusedSimpArgs false
set_option simprocs false -- no numeral of a goal is evaluated in these proofs

namespace Sys2Proof.Machine

theorem execNop_keeps {s0 : State} {c : Fin 96} {k : Strike} {s : State} (hK : Keeps s0 s) : OutKeeps s0
    (execNop c k s) := by
  unfold execNop
  repeat' (first | with_reducible assumption | with_reducible apply issue_keeps | with_reducible apply onCore_keeps
                  | with_reducible apply outKeeps_next | simp only [keeps_mk_iff] | extract_lets | intro hvl)

theorem execHalt_keeps {s0 : State} {c : Fin 96} {k : Strike} {s : State} (hK : Keeps s0 s) : OutKeeps s0
    (execHalt c k s) := by
  unfold execHalt
  repeat' (first | with_reducible assumption | with_reducible apply issue_keeps | with_reducible apply onCore_keeps
                  | with_reducible apply outKeeps_next | simp only [keeps_mk_iff] | extract_lets | intro hvl)

theorem execLi_keeps {s0 : State} {c : Fin 96} {k : Strike} {s : State} (hK : Keeps s0 s) : OutKeeps s0
    (execLi c k s) := by
  unfold execLi
  repeat' (first | with_reducible assumption | with_reducible apply issue_keeps | with_reducible apply onCore_keeps
                  | with_reducible apply xw_coreOk | with_reducible apply outKeeps_next | simp only [keeps_mk_iff]
                  | extract_lets | intro hvl)

theorem execLui_keeps {s0 : State} {c : Fin 96} {k : Strike} {s : State} (hK : Keeps s0 s) : OutKeeps s0
    (execLui c k s) := by
  unfold execLui
  repeat' (first | with_reducible assumption | with_reducible apply issue_keeps | with_reducible apply onCore_keeps
                  | with_reducible apply xw_coreOk | with_reducible apply outKeeps_next | simp only [keeps_mk_iff]
                  | extract_lets | intro hvl)

theorem execAddi_keeps {s0 : State} {c : Fin 96} {k : Strike} {s : State} (hK : Keeps s0 s) : OutKeeps s0
    (execAddi c k s) := by
  unfold execAddi
  repeat' (first | with_reducible assumption | with_reducible apply issue_keeps | with_reducible apply onCore_keeps
                  | with_reducible apply xw_coreOk | with_reducible apply outKeeps_next | simp only [keeps_mk_iff]
                  | extract_lets | intro hvl)

theorem execAdd_keeps {s0 : State} {c : Fin 96} {k : Strike} {s : State} (hK : Keeps s0 s) : OutKeeps s0
    (execAdd c k s) := by
  unfold execAdd
  repeat' (first | with_reducible assumption | with_reducible apply issue_keeps | with_reducible apply onCore_keeps
                  | with_reducible apply xw_coreOk | with_reducible apply outKeeps_next | simp only [keeps_mk_iff]
                  | extract_lets | intro hvl)

theorem execSub_keeps {s0 : State} {c : Fin 96} {k : Strike} {s : State} (hK : Keeps s0 s) : OutKeeps s0
    (execSub c k s) := by
  unfold execSub
  repeat' (first | with_reducible assumption | with_reducible apply issue_keeps | with_reducible apply onCore_keeps
                  | with_reducible apply xw_coreOk | with_reducible apply outKeeps_next | simp only [keeps_mk_iff]
                  | extract_lets | intro hvl)

theorem execShli_keeps {s0 : State} {c : Fin 96} {k : Strike} {s : State} (hK : Keeps s0 s) : OutKeeps s0
    (execShli c k s) := by
  unfold execShli
  repeat' (first | with_reducible assumption | with_reducible apply issue_keeps | with_reducible apply onCore_keeps
                  | with_reducible apply xw_coreOk | with_reducible apply outKeeps_next | simp only [keeps_mk_iff]
                  | extract_lets | intro hvl)

theorem execBz_keeps {s0 : State} {c : Fin 96} {k : Strike} {s : State} (hK : Keeps s0 s) : OutKeeps s0
    (execBz c k s) := by
  unfold execBz
  repeat' (first | with_reducible assumption | with_reducible apply issue_keeps | with_reducible apply onCore_keeps
                  | with_reducible apply outKeeps_next | simp only [keeps_mk_iff] | extract_lets | intro hvl)

theorem execBnz_keeps {s0 : State} {c : Fin 96} {k : Strike} {s : State} (hK : Keeps s0 s) : OutKeeps s0
    (execBnz c k s) := by
  unfold execBnz
  repeat' (first | with_reducible assumption | with_reducible apply issue_keeps | with_reducible apply onCore_keeps
                  | with_reducible apply outKeeps_next | simp only [keeps_mk_iff] | extract_lets | intro hvl)

theorem execJmp_keeps {s0 : State} {c : Fin 96} {k : Strike} {s : State} (hK : Keeps s0 s) : OutKeeps s0
    (execJmp c k s) := by
  unfold execJmp
  repeat' (first | with_reducible assumption | with_reducible apply issue_keeps | with_reducible apply onCore_keeps
                  | with_reducible apply outKeeps_next | simp only [keeps_mk_iff] | extract_lets | intro hvl)

theorem execLoop_keeps {s0 : State} {c : Fin 96} {k : Strike} {s : State} (hK : Keeps s0 s) : OutKeeps s0
    (execLoop c k s) := by
  unfold execLoop
  repeat' (first | with_reducible assumption | with_reducible apply issue_keeps | with_reducible apply onCore_keeps
                  | with_reducible apply xw_coreOk | with_reducible apply outKeeps_next | simp only [keeps_mk_iff]
                  | intro hvl)

theorem strmIssueEff_keeps {s0 : State} {s : State} {c : Nat} {w : Nat} (hK : Keeps s0 s) : Keeps s0
    (strmIssueEff s c w).1 := by
  unfold strmIssueEff
  repeat' (first | with_reducible assumption | with_reducible apply setCore_keeps
                  | with_reducible apply strmEnqueue_coreOk | simp only [keeps_mk_iff] | with_reducible exact hvl _
                  | extract_lets | split | intro hvl)

theorem execStrmIssue_keeps {s0 : State} {c : Fin 96} {k : Strike} {s : State} (hK : Keeps s0 s) : OutKeeps s0
    (execStrmIssue c k s) := by
  unfold execStrmIssue
  repeat' (first | with_reducible assumption | with_reducible apply issue_keeps
                  | with_reducible apply strmIssueEff_keeps | with_reducible apply outKeeps_next)

theorem execStrmCancelInstr_keeps {s0 : State} {c : Fin 96} {k : Strike} {s : State} (hK : Keeps s0 s) : OutKeeps s0
    (execStrmCancelInstr c k s) := by
  unfold execStrmCancelInstr
  repeat' (first | with_reducible assumption | with_reducible apply issue_keeps
                  | with_reducible apply strmCancelAll_keeps | with_reducible apply outKeeps_next
                  | simp only [keeps_mk_iff] | intro hvl)

theorem execSyncWait_keeps {s0 : State} {c : Fin 96} {k : Strike} {s : State} (hK : Keeps s0 s) : OutKeeps s0
    (execSyncWait c k s) := by
  unfold execSyncWait
  repeat' (first | with_reducible assumption | with_reducible apply issue_keeps
                  | with_reducible apply waitFlow_keeps | with_reducible apply outKeeps_next | extract_lets
                  | intro hvl)

theorem execSyncWaitm_keeps {s0 : State} {c : Fin 96} {k : Strike} {s : State} (hK : Keeps s0 s) : OutKeeps s0
    (execSyncWaitm c k s) := by
  unfold execSyncWaitm
  repeat' (first | with_reducible assumption | with_reducible apply issue_keeps
                  | with_reducible apply waitFlow_keeps | with_reducible apply outKeeps_next | extract_lets
                  | intro hvl)

theorem execSyncSet_keeps {s0 : State} {c : Fin 96} {k : Strike} {s : State} (hK : Keeps s0 s) : OutKeeps s0
    (execSyncSet c k s) := by
  unfold execSyncSet
  repeat' (first | with_reducible assumption | with_reducible apply issue_keeps | with_reducible apply sbSet_keeps
                  | with_reducible apply outKeeps_next | simp only [keeps_mk_iff] | intro hvl)

theorem execSyncClr_keeps {s0 : State} {c : Fin 96} {k : Strike} {s : State} (hK : Keeps s0 s) : OutKeeps s0
    (execSyncClr c k s) := by
  unfold execSyncClr
  repeat' (first | with_reducible assumption | with_reducible apply issue_keeps | with_reducible apply onCore_keeps
                  | with_reducible apply sbClear_coreOk | with_reducible apply outKeeps_next | simp only [keeps_mk_iff]
                  | extract_lets | intro hvl)

theorem execSyncTest_keeps {s0 : State} {c : Fin 96} {k : Strike} {s : State} (hK : Keeps s0 s) : OutKeeps s0
    (execSyncTest c k s) := by
  unfold execSyncTest
  repeat' (first | with_reducible assumption | with_reducible apply issue_keeps | with_reducible apply onCore_keeps
                  | with_reducible apply xw_coreOk | with_reducible apply outKeeps_next | simp only [keeps_mk_iff]
                  | intro hvl)

theorem execSyncSig_keeps {s0 : State} {c : Fin 96} {k : Strike} {s : State} (hK : Keeps s0 s) : OutKeeps s0
    (execSyncSig c k s) := by
  unfold execSyncSig
  repeat' (first | with_reducible assumption | with_reducible apply issue_keeps | with_reducible apply onCore_keeps
                  | with_reducible apply outKeeps_next | simp only [keeps_mk_iff] | extract_lets | split | intro hvl)

theorem execSyncSigDeliver_keeps {s0 : State} {c : Fin 96} {s : State} (hK : Keeps s0 s) : OutKeeps s0
    (execSyncSigDeliver c s) := by
  unfold execSyncSigDeliver
  repeat' (first | with_reducible assumption | with_reducible apply setCore_keeps | with_reducible apply sbSet_keeps
                  | with_reducible apply outKeeps_next | simp only [keeps_mk_iff] | with_reducible exact hvl _
                  | extract_lets | split | intro hvl)

theorem execSyncBar_keeps {s0 : State} {c : Fin 96} {k : Strike} {s : State} (hK : Keeps s0 s) : OutKeeps s0
    (execSyncBar c k s) := by
  unfold execSyncBar
  repeat' (first | with_reducible assumption | with_reducible apply setCore_keeps | with_reducible apply issue_keeps
                  | with_reducible apply outKeeps_next | simp only [keeps_mk_iff] | with_reducible exact hvl _
                  | extract_lets | split | intro hvl)

theorem releaseBar_keeps {s0 : State} {s : State} {e0 : List Nat} (hK : Keeps s0 s) : Keeps s0 (releaseBar s e0) := by
  revert hK
  fun_induction releaseBar s e0 <;> intro hK
  all_goals (repeat' (first | with_reducible assumption | dsimp +zetaDelta only))
  all_goals (try (apply_assumption; repeat' (first | with_reducible assumption | with_reducible apply setCore_keeps
                                                     | with_reducible apply advance_keeps
                                                     | with_reducible exact hvl _ | extract_lets | intro hvl)))

theorem execBarComplete_keeps {s0 : State} {group : Fin 64} {id : Fin 256} {s : State} (hK : Keeps s0 s) : OutKeeps
    s0 (execBarComplete group id s) := by
  unfold execBarComplete
  repeat' (first | with_reducible assumption | with_reducible apply releaseBar_keeps
                  | with_reducible apply outKeeps_next | simp only [keeps_mk_iff] | split)

theorem execSyncMark_keeps {s0 : State} {c : Fin 96} {k : Strike} {s : State} (hK : Keeps s0 s) : OutKeeps s0
    (execSyncMark c k s) := by
  unfold execSyncMark
  repeat' (first | with_reducible assumption | with_reducible apply issue_keeps | with_reducible apply outKeeps_next
                  | simp only [keeps_mk_iff] | intro hvl)

theorem execSyncDrain_keeps {s0 : State} {c : Fin 96} {k : Strike} {s : State} (hK : Keeps s0 s) : OutKeeps s0
    (execSyncDrain c k s) := by
  unfold execSyncDrain
  repeat' (first | with_reducible assumption | with_reducible apply issue_keeps | with_reducible apply outKeeps_next
                  | simp only [keeps_mk_iff] | extract_lets | split | intro hvl)

theorem execCoreStallResume_keeps {s0 : State} {c : Fin 96} {s : State} (hK : Keeps s0 s) : OutKeeps s0
    (execCoreStallResume c s) := by
  unfold execCoreStallResume
  repeat' (first | with_reducible assumption | with_reducible apply setCore_keeps
                  | with_reducible apply advance_keeps | with_reducible apply applyFlow_keeps
                  | with_reducible apply waitFlow_keeps | with_reducible apply outKeeps_next
                  | simp only [keeps_mk_iff] | with_reducible exact hvl _ | extract_lets | split | intro hvl)

theorem coreRunEff_keeps {s0 : State} {s : State} {i : Initiator} {c : Nat} (hK : Keeps s0 s) : Keeps s0
    (coreRunEff s i c) := by
  unfold coreRunEff
  repeat' (first | with_reducible assumption | with_reducible apply violation_keeps
                  | with_reducible apply setCore_keeps | simp only [keeps_mk_iff] | with_reducible exact hvl _
                  | extract_lets | split | intro hvl)

theorem dropStalledPush_coreOk {k : Core} (hV : CoreOk k) : CoreOk (dropStalledPush k) := by
  unfold dropStalledPush
  repeat' (first | with_reducible assumption | simp only [keeps_mk_iff] | split)
  all_goals (try exact hV)

theorem coreStopEff_keeps {s0 : State} {s : State} {c : Nat} (hK : Keeps s0 s) : Keeps s0 (coreStopEff s c) := by
  unfold coreStopEff
  repeat' (first | with_reducible assumption | with_reducible apply setCore_keeps
                  | with_reducible apply dropStalledPush_coreOk | simp only [keeps_mk_iff] | with_reducible exact hvl _
                  | extract_lets | split | intro hvl)

theorem corePcEff_keeps {s0 : State} {s : State} {i : Initiator} {c : Nat} {v : Nat} (hK : Keeps s0 s) : Keeps s0
    (corePcEff s i c v) := by
  unfold corePcEff
  repeat' (first | with_reducible assumption | with_reducible apply violation_keeps
                  | with_reducible apply setCore_keeps | simp only [keeps_mk_iff] | with_reducible exact hvl _
                  | extract_lets | split | intro hvl)

theorem coreFaultClrEff_keeps {s0 : State} {s : State} {c : Nat} (hK : Keeps s0 s) : Keeps s0 (coreFaultClrEff s c)
    := by
  unfold coreFaultClrEff
  repeat' (first | with_reducible assumption | with_reducible apply setCore_keeps | simp only [keeps_mk_iff]
                  | with_reducible exact hvl _ | extract_lets | split | intro hvl)

theorem coreSbClearEff_keeps {s0 : State} {s : State} {c : Nat} {v : Nat} (hK : Keeps s0 s) : Keeps s0
    (coreSbClearEff s c v) := by
  unfold coreSbClearEff
  repeat' (first | with_reducible assumption | with_reducible apply setCore_keeps | with_reducible apply sbClear_coreOk
                  | with_reducible exact hvl _ | extract_lets | intro hvl)

theorem coreSbSetEff_keeps {s0 : State} {s : State} {c : Nat} {v : Nat} (hK : Keeps s0 s) : Keeps s0
    (coreSbSetEff s c v) := by
  unfold coreSbSetEff
  repeat' (first | with_reducible assumption | with_reducible apply sbSet_keeps
                  | (with_reducible apply keeps_foldl; (try intros)))

theorem coreSbFailEff_keeps {s0 : State} {s : State} {c : Nat} {v : Nat} (hK : Keeps s0 s) : Keeps s0
    (coreSbFailEff s c v) := by
  unfold coreSbFailEff
  repeat' (first | with_reducible assumption | with_reducible apply setCore_keeps | with_reducible exact hvl _
                  | extract_lets | intro hvl)

theorem accTmodeEff_keeps {s0 : State} {s : State} {i : Initiator} {c : Nat} {v : Nat} (hK : Keeps s0 s) : Keeps s0
    (accTmodeEff s i c v) := by
  unfold accTmodeEff
  repeat' (first | with_reducible assumption | with_reducible apply violation_keeps
                  | with_reducible apply setCore_keeps | simp only [keeps_mk_iff] | with_reducible exact hvl _
                  | extract_lets | split | intro hvl)

theorem strmPushEff_keeps {s0 : State} {s : State} {c : Nat} {t : Nat} {v : Nat} (hK : Keeps s0 s) : Keeps s0
    (strmPushEff s c t v) := by
  unfold strmPushEff
  repeat' (first | with_reducible assumption | with_reducible apply setFlag_keeps
                  | with_reducible apply setCore_keeps | with_reducible apply strmEnqueue_coreOk
                  | simp only [keeps_mk_iff] | with_reducible exact hvl _ | extract_lets | split | intro hvl)

end Sys2Proof.Machine
end

