-- ==== Sys2Proof/Laws/KeepsMatMul.lean ====
section
/-! SUPPORT. What the functions of Machine/MatMul.lean keep (see Laws/Keeps.lean). -/

set_option linter.unusedSimpArgs false
set_option simprocs false -- no numeral of a goal is evaluated in these proofs

namespace Sys2Proof.Machine

theorem mmLdwEff_keeps {s0 : State} {s : State} {c : Nat} {w : Nat} (hK : Keeps s0 s) : Keeps s0 (mmLdwEff s c w).1
    := by
  unfold mmLdwEff
  repeat' (first | with_reducible assumption | with_reducible apply setCore_keeps
                  | with_reducible apply afterBads_keeps | simp only [keeps_mk_iff] | with_reducible exact hvl _
                  | extract_lets | split | intro hvl)

theorem execMmLdw_keeps {s0 : State} {c : Fin 96} {k : Strike} {s : State} (hK : Keeps s0 s) : OutKeeps s0
    (execMmLdw c k s) := by
  unfold execMmLdw
  repeat' (first | with_reducible assumption | with_reducible apply issue_keeps
                  | with_reducible apply mmLdwEff_keeps | with_reducible apply outKeeps_next)

theorem mmRunEff_keeps {s0 : State} {s : State} {c : Nat} {w : Nat} (hK : Keeps s0 s) : Keeps s0 (mmRunEff s c w).1
    := by
  unfold mmRunEff
  repeat' (first | with_reducible assumption | with_reducible apply setFlag_keeps
                  | with_reducible apply bumpStat_keeps | with_reducible apply setCore_keeps
                  | with_reducible apply afterBads_keeps | with_reducible apply accPut_coreOk | simp only [keeps_mk_iff]
                  | with_reducible exact hvl _ | extract_lets | split | intro hvl)

theorem execMmRun_keeps {s0 : State} {c : Fin 96} {k : Strike} {s : State} (hK : Keeps s0 s) : OutKeeps s0
    (execMmRun c k s) := by
  unfold execMmRun
  repeat' (first | with_reducible assumption | with_reducible apply issue_keeps
                  | with_reducible apply mmRunEff_keeps | with_reducible apply outKeeps_next)

theorem execMmRunComplete_keeps {s0 : State} {c : Fin 96} {s : State} (hK : Keeps s0 s) : OutKeeps s0
    (execMmRunComplete c s) := by
  unfold execMmRunComplete
  repeat' (first | with_reducible assumption | with_reducible apply setCore_keeps
                  | with_reducible apply outKeeps_next | simp only [keeps_mk_iff] | with_reducible exact hvl _
                  | extract_lets | split | intro hvl)

theorem execTrqPush_keeps {s0 : State} {c : Fin 96} {s : State} (hK : Keeps s0 s) : OutKeeps s0 (execTrqPush c s)
    := by
  unfold execTrqPush
  repeat' (first | with_reducible assumption | with_reducible apply setCore_keeps
                  | with_reducible apply outKeeps_next | simp only [keeps_mk_iff] | with_reducible exact hvl _
                  | extract_lets | split | intro hvl)

end Sys2Proof.Machine
end

