-- ==== Sys2Proof/Laws/KeepsAccum.lean ====
section
/-! SUPPORT. What the functions of Machine/Accum.lean keep (see Laws/Keeps.lean). -/

set_option linter.unusedSimpArgs false
set_option simprocs false -- no numeral of a goal is evaluated in these proofs

namespace Sys2Proof.Machine

theorem accFlags_keeps {s0 : State} {s : State} {c : Nat} {f : Nat} (hK : Keeps s0 s) : Keeps s0 (accFlags s c f)
    := by
  unfold accFlags
  repeat' (first | with_reducible assumption | with_reducible apply wr_keeps)

theorem accIssue_keeps {s0 : State} {op : Nat} {eff : State → Nat → Nat → State × Flow} {c : Fin 96} {k : Strike}
    {s : State} (hK : Keeps s0 s) (hf_eff : ∀ a0 a1 a2, Keeps s0 a0 → Keeps s0 (eff a0 a1 a2).1) : Keeps s0
    (accIssue op eff c k s) := by
  unfold accIssue
  repeat' (first | with_reducible assumption | with_reducible apply hf_eff | with_reducible apply issue_keeps
                  | simp only [keeps_mk_iff] | extract_lets | split | intro hvl)

theorem accModeEff_coreOk {k : Core} {w : Nat} (hV : CoreOk k) : CoreOk (accModeEff k w).1 := by
  unfold accModeEff
  repeat' (first | with_reducible assumption | with_reducible apply accZeroTile_coreOk)
  all_goals (try exact hV)

theorem execAccMode_keeps {s0 : State} {c : Fin 96} {k : Strike} {s : State} (hK : Keeps s0 s) : OutKeeps s0
    (execAccMode c k s) := by
  unfold execAccMode
  repeat' (first | with_reducible assumption | with_reducible apply onCore_keeps
                  | with_reducible apply accIssue_keeps | with_reducible apply accModeEff_coreOk
                  | with_reducible apply outKeeps_next | extract_lets | intro hvl)

theorem execAccZero_keeps {s0 : State} {c : Fin 96} {k : Strike} {s : State} (hK : Keeps s0 s) : OutKeeps s0
    (execAccZero c k s) := by
  unfold execAccZero
  repeat' (first | with_reducible assumption | with_reducible apply onCore_keeps
                  | with_reducible apply accIssue_keeps | with_reducible apply accZeroTile_coreOk
                  | with_reducible apply outKeeps_next | simp only [keeps_mk_iff] | extract_lets | intro hvl)

theorem accLdEff_keeps {s0 : State} {s : State} {c : Nat} {w : Nat} (hK : Keeps s0 s) : Keeps s0 (accLdEff s c w).1
    := by
  unfold accLdEff
  extract_lets
  split
  · exact hK
  split
  · exact hK
  split
  extract_lets
  split
  split
  rename_i e
  extract_lets
  have hk : (∀ c, CoreOk (coreOf s c)) → CoreOk _ := fun hvl => coreOk_fst e (accPut_coreOk (hvl _))
  apply afterBads_keeps
  split
  · apply accFlags_keeps; exact setCore_keeps hK hk
  · exact setCore_keeps hK hk

theorem execAccLd_keeps {s0 : State} {c : Fin 96} {k : Strike} {s : State} (hK : Keeps s0 s) : OutKeeps s0
    (execAccLd c k s) := by
  unfold execAccLd
  repeat' (first | with_reducible assumption | with_reducible apply accIssue_keeps
                  | with_reducible apply accLdEff_keeps | with_reducible apply outKeeps_next)

theorem accStEff_keeps {s0 : State} {s : State} {c : Nat} {w : Nat} (hK : Keeps s0 s) : Keeps s0 (accStEff s c w).1
    := by
  unfold accStEff
  repeat' (first | with_reducible assumption | with_reducible apply setCore_keeps
                  | with_reducible apply afterBads_keeps | with_reducible apply accFlags_keeps
                  | with_reducible apply tsWrite_coreOk | simp only [keeps_mk_iff] | with_reducible exact hvl _
                  | extract_lets | split | intro hvl)

theorem execAccSt_keeps {s0 : State} {c : Fin 96} {k : Strike} {s : State} (hK : Keeps s0 s) : OutKeeps s0
    (execAccSt c k s) := by
  unfold execAccSt
  repeat' (first | with_reducible assumption | with_reducible apply accIssue_keeps
                  | with_reducible apply accStEff_keeps | with_reducible apply outKeeps_next)

theorem execAccPush_keeps {s0 : State} {c : Fin 96} {k : Strike} {s : State} (hK : Keeps s0 s) : OutKeeps s0
    (execAccPush c k s) := by
  unfold execAccPush
  repeat' (first | with_reducible assumption | with_reducible apply onCore_keeps
                  | with_reducible apply accIssue_keeps | with_reducible apply outKeeps_next
                  | simp only [keeps_mk_iff] | extract_lets | intro hvl)

theorem accSaddEff_keeps {s0 : State} {s : State} {c : Nat} {w : Nat} (hK : Keeps s0 s) : Keeps s0
    (accSaddEff s c w).1 := by
  unfold accSaddEff
  repeat' (first | with_reducible assumption | with_reducible apply setCore_keeps
                  | with_reducible apply afterBads_keeps | with_reducible apply accFlags_keeps
                  | with_reducible apply accPut_coreOk | simp only [keeps_mk_iff] | with_reducible exact hvl _
                  | extract_lets | split | intro hvl)

theorem execAccSadd_keeps {s0 : State} {c : Fin 96} {k : Strike} {s : State} (hK : Keeps s0 s) : OutKeeps s0
    (execAccSadd c k s) := by
  unfold execAccSadd
  repeat' (first | with_reducible assumption | with_reducible apply accIssue_keeps
                  | with_reducible apply accSaddEff_keeps | with_reducible apply outKeeps_next)

theorem accSmrgEff_keeps {s0 : State} {s : State} {c : Nat} {w : Nat} (hK : Keeps s0 s) : Keeps s0
    (accSmrgEff s c w).1 := by
  unfold accSmrgEff
  repeat' (first | with_reducible assumption | with_reducible apply setCore_keeps
                  | with_reducible apply afterBads_keeps | with_reducible apply accFlags_keeps
                  | with_reducible apply accPut_coreOk | simp only [keeps_mk_iff] | with_reducible exact hvl _
                  | extract_lets | split | intro hvl)

theorem execAccSmrg_keeps {s0 : State} {c : Fin 96} {k : Strike} {s : State} (hK : Keeps s0 s) : OutKeeps s0
    (execAccSmrg c k s) := by
  unfold execAccSmrg
  repeat' (first | with_reducible assumption | with_reducible apply accIssue_keeps
                  | with_reducible apply accSmrgEff_keeps | with_reducible apply outKeeps_next)

theorem accSfinEff_keeps {s0 : State} {s : State} {c : Nat} {w : Nat} (hK : Keeps s0 s) : Keeps s0
    (accSfinEff s c w).1 := by
  unfold accSfinEff
  repeat' (first | with_reducible assumption | with_reducible apply setCore_keeps
                  | with_reducible apply afterBads_keeps | with_reducible apply vPut_coreOk | simp only [keeps_mk_iff]
                  | with_reducible exact hvl _ | extract_lets | split | intro hvl)

theorem execAccSfin_keeps {s0 : State} {c : Fin 96} {k : Strike} {s : State} (hK : Keeps s0 s) : OutKeeps s0
    (execAccSfin c k s) := by
  unfold execAccSfin
  repeat' (first | with_reducible assumption | with_reducible apply accIssue_keeps
                  | with_reducible apply accSfinEff_keeps | with_reducible apply outKeeps_next)

end Sys2Proof.Machine
end

