-- ==== Sys2Proof/Laws/KeepsVector.lean ====
section
/-! SUPPORT. What the functions of Machine/Vector.lean keep (see Laws/Keeps.lean). -/

set_option linter.unusedSimpArgs false
set_option simprocs false -- no numeral of a goal is evaluated in these proofs

namespace Sys2Proof.Machine

theorem laneGroups_keeps {s0 : State} {s : State} {c : Nat} (hK : Keeps s0 s) : Keeps s0 (laneGroups s c) := by
  unfold laneGroups
  repeat' (first | with_reducible assumption | with_reducible apply bumpStat_keeps)

theorem vecElems_keeps {s0 : State} {srcs : Nat → List Nat} {f : List Nat → Nat} {s : State} {c : Nat} {w : Nat}
    (hK : Keeps s0 s) : Keeps s0 (vecElems srcs f s c w).1 := by
  unfold vecElems
  repeat' (first | with_reducible assumption | with_reducible apply setCore_keeps
                  | with_reducible apply afterBads_keeps | with_reducible apply laneGroups_keeps
                  | with_reducible apply vPut_coreOk | with_reducible exact hvl _ | extract_lets | intro hvl)

theorem vec1_keeps {s0 : State} {op : Nat} {f : Nat → Nat} {c : Fin 96} {k : Strike} {s : State} (hK : Keeps s0 s) :
    OutKeeps s0 (vec1 op f c k s) := by
  unfold vec1
  repeat' (first | with_reducible assumption | with_reducible apply issue_keeps
                  | with_reducible apply vecElems_keeps | with_reducible apply outKeeps_next)

theorem vec2_keeps {s0 : State} {op : Nat} {f : Nat → Nat → Nat} {c : Fin 96} {k : Strike} {s : State}
    (hK : Keeps s0 s) : OutKeeps s0 (vec2 op f c k s) := by
  unfold vec2
  repeat' (first | with_reducible assumption | with_reducible apply issue_keeps
                  | with_reducible apply vecElems_keeps | with_reducible apply outKeeps_next)

theorem vsetvlEff_coreOk {k : Core} {w : Nat} (hV : CoreOk k) : CoreOk (vsetvlEff k w).1 := by
  unfold vsetvlEff
  extract_lets v n
  split
  · exact hV
  · rename_i hv
    have h : 1 ≤ n ∧ n ≤ 256 := ⟨by show 1 ≤ min v 256; omega, Nat.min_le_right _ _⟩
    exact ⟨h, (xw_coreOk hV).2⟩

theorem execVsetvl_keeps {s0 : State} {c : Fin 96} {k : Strike} {s : State} (hK : Keeps s0 s) : OutKeeps s0
    (execVsetvl c k s) := by
  unfold execVsetvl
  repeat' (first | with_reducible assumption | with_reducible apply issue_keeps | with_reducible apply onCore_keeps
                  | with_reducible apply vsetvlEff_coreOk | with_reducible apply outKeeps_next | extract_lets
                  | intro hvl)

theorem vldEff_keeps {s0 : State} {s : State} {c : Nat} {w : Nat} (hK : Keeps s0 s) : Keeps s0 (vldEff s c w).1 := by
  unfold vldEff
  repeat' (first | with_reducible assumption | with_reducible apply setCore_keeps
                  | with_reducible apply afterBads_keeps | with_reducible apply laneGroups_keeps
                  | with_reducible apply vPut_coreOk | simp only [keeps_mk_iff] | with_reducible exact hvl _
                  | extract_lets | split | intro hvl)

theorem execVld_keeps {s0 : State} {c : Fin 96} {k : Strike} {s : State} (hK : Keeps s0 s) : OutKeeps s0
    (execVld c k s) := by
  unfold execVld
  repeat' (first | with_reducible assumption | with_reducible apply issue_keeps | with_reducible apply vldEff_keeps
                  | with_reducible apply outKeeps_next)

theorem vstPut_coreOk {k : Core} {fmt : Nat} {as : List Nat} {ws : List (Nat × Byte)} (hV : CoreOk k) : CoreOk
    (vstPut k fmt as ws).1 := by
  unfold vstPut
  repeat' (first | with_reducible assumption | with_reducible apply tsPut_coreOk | simp only [keeps_mk_iff] | split)
  all_goals (try exact hV)

theorem vstEff_keeps {s0 : State} {s : State} {c : Nat} {w : Nat} (hK : Keeps s0 s) : Keeps s0 (vstEff s c w).1 := by
  unfold vstEff
  repeat' (first | with_reducible assumption | with_reducible apply setCore_keeps
                  | with_reducible apply afterBads_keeps | with_reducible apply accFlags_keeps
                  | with_reducible apply laneGroups_keeps | with_reducible apply accPut_coreOk
                  | with_reducible apply vstPut_coreOk | simp only [keeps_mk_iff] | with_reducible exact hvl _
                  | extract_lets | split | intro hvl)

theorem execVst_keeps {s0 : State} {c : Fin 96} {k : Strike} {s : State} (hK : Keeps s0 s) : OutKeeps s0
    (execVst c k s) := by
  unfold execVst
  repeat' (first | with_reducible assumption | with_reducible apply issue_keeps | with_reducible apply vstEff_keeps
                  | with_reducible apply outKeeps_next)

theorem vstg8Eff_keeps {s0 : State} {s : State} {c : Nat} {w : Nat} (hK : Keeps s0 s) : Keeps s0 (vstg8Eff s c w).1
    := by
  unfold vstg8Eff
  repeat' (first | with_reducible assumption | with_reducible apply setCore_keeps
                  | with_reducible apply afterBads_keeps | with_reducible apply accFlags_keeps
                  | with_reducible apply laneGroups_keeps | with_reducible apply tsWrite_coreOk
                  | with_reducible apply vPut_coreOk | simp only [keeps_mk_iff] | with_reducible exact hvl _
                  | extract_lets | split | intro hvl)

theorem execVstg8_keeps {s0 : State} {c : Fin 96} {k : Strike} {s : State} (hK : Keeps s0 s) : OutKeeps s0
    (execVstg8 c k s) := by
  unfold execVstg8
  repeat' (first | with_reducible assumption | with_reducible apply issue_keeps
                  | with_reducible apply vstg8Eff_keeps | with_reducible apply outKeeps_next)

theorem vtrqpopEff_coreOk {k : Core} {w : Nat} (hV : CoreOk k) : CoreOk (vtrqpopEff k w).1 := by
  unfold vtrqpopEff
  repeat' (first | with_reducible assumption | with_reducible apply xw_coreOk | simp only [keeps_mk_iff] | split)
  all_goals (try exact hV)

theorem execVtrqpop_keeps {s0 : State} {c : Fin 96} {k : Strike} {s : State} (hK : Keeps s0 s) : OutKeeps s0
    (execVtrqpop c k s) := by
  unfold execVtrqpop
  repeat' (first | with_reducible assumption | with_reducible apply issue_keeps | with_reducible apply onCore_keeps
                  | with_reducible apply vtrqpopEff_coreOk | with_reducible apply outKeeps_next | extract_lets
                  | intro hvl)

theorem execVext_keeps {s0 : State} {c : Fin 96} {k : Strike} {s : State} (hK : Keeps s0 s) : OutKeeps s0
    (execVext c k s) := by
  unfold execVext
  repeat' (first | with_reducible assumption | with_reducible apply setCore_keeps
                  | with_reducible apply afterBads_keeps | with_reducible apply issue_keeps
                  | with_reducible apply xw_coreOk | with_reducible apply outKeeps_next | simp only [keeps_mk_iff]
                  | with_reducible exact hvl _ | extract_lets | intro hvl)

theorem execVins_keeps {s0 : State} {c : Fin 96} {k : Strike} {s : State} (hK : Keeps s0 s) : OutKeeps s0
    (execVins c k s) := by
  unfold execVins
  repeat' (first | with_reducible assumption | with_reducible apply setCore_keeps
                  | with_reducible apply afterBads_keeps | with_reducible apply issue_keeps
                  | with_reducible apply vPut_coreOk | with_reducible apply outKeeps_next | simp only [keeps_mk_iff]
                  | with_reducible exact hvl _ | extract_lets | intro hvl)

theorem execVmov_keeps {s0 : State} {c : Fin 96} {k : Strike} {s : State} (hK : Keeps s0 s) : OutKeeps s0
    (execVmov c k s) := by
  unfold execVmov
  repeat' (first | with_reducible assumption | with_reducible apply vec1_keeps)

theorem execVfadd_keeps {s0 : State} {c : Fin 96} {k : Strike} {s : State} (hK : Keeps s0 s) : OutKeeps s0
    (execVfadd c k s) := by
  unfold execVfadd
  repeat' (first | with_reducible assumption | with_reducible apply vec2_keeps)

theorem execVfsub_keeps {s0 : State} {c : Fin 96} {k : Strike} {s : State} (hK : Keeps s0 s) : OutKeeps s0
    (execVfsub c k s) := by
  unfold execVfsub
  repeat' (first | with_reducible assumption | with_reducible apply vec2_keeps)

theorem execVfmul_keeps {s0 : State} {c : Fin 96} {k : Strike} {s : State} (hK : Keeps s0 s) : OutKeeps s0
    (execVfmul c k s) := by
  unfold execVfmul
  repeat' (first | with_reducible assumption | with_reducible apply vec2_keeps)

theorem execVffma_keeps {s0 : State} {c : Fin 96} {k : Strike} {s : State} (hK : Keeps s0 s) : OutKeeps s0
    (execVffma c k s) := by
  unfold execVffma
  repeat' (first | with_reducible assumption | with_reducible apply issue_keeps
                  | with_reducible apply vecElems_keeps | with_reducible apply outKeeps_next)

theorem execVfmax_keeps {s0 : State} {c : Fin 96} {k : Strike} {s : State} (hK : Keeps s0 s) : OutKeeps s0
    (execVfmax c k s) := by
  unfold execVfmax
  repeat' (first | with_reducible assumption | with_reducible apply vec2_keeps)

theorem execVfmin_keeps {s0 : State} {c : Fin 96} {k : Strike} {s : State} (hK : Keeps s0 s) : OutKeeps s0
    (execVfmin c k s) := by
  unfold execVfmin
  repeat' (first | with_reducible assumption | with_reducible apply vec2_keeps)

theorem execVfabs_keeps {s0 : State} {c : Fin 96} {k : Strike} {s : State} (hK : Keeps s0 s) : OutKeeps s0
    (execVfabs c k s) := by
  unfold execVfabs
  repeat' (first | with_reducible assumption | with_reducible apply vec1_keeps)

theorem execVfneg_keeps {s0 : State} {c : Fin 96} {k : Strike} {s : State} (hK : Keeps s0 s) : OutKeeps s0
    (execVfneg c k s) := by
  unfold execVfneg
  repeat' (first | with_reducible assumption | with_reducible apply vec1_keeps)

theorem execVrcp_keeps {s0 : State} {c : Fin 96} {k : Strike} {s : State} (hK : Keeps s0 s) : OutKeeps s0
    (execVrcp c k s) := by
  unfold execVrcp
  repeat' (first | with_reducible assumption | with_reducible apply vec1_keeps)

theorem execVrsqrt_keeps {s0 : State} {c : Fin 96} {k : Strike} {s : State} (hK : Keeps s0 s) : OutKeeps s0
    (execVrsqrt c k s) := by
  unfold execVrsqrt
  repeat' (first | with_reducible assumption | with_reducible apply vec1_keeps)

theorem execVsqrt_keeps {s0 : State} {c : Fin 96} {k : Strike} {s : State} (hK : Keeps s0 s) : OutKeeps s0
    (execVsqrt c k s) := by
  unfold execVsqrt
  repeat' (first | with_reducible assumption | with_reducible apply vec1_keeps)

theorem execVexp2_keeps {s0 : State} {c : Fin 96} {k : Strike} {s : State} (hK : Keeps s0 s) : OutKeeps s0
    (execVexp2 c k s) := by
  unfold execVexp2
  repeat' (first | with_reducible assumption | with_reducible apply vec1_keeps)

theorem execVlog2_keeps {s0 : State} {c : Fin 96} {k : Strike} {s : State} (hK : Keeps s0 s) : OutKeeps s0
    (execVlog2 c k s) := by
  unfold execVlog2
  repeat' (first | with_reducible assumption | with_reducible apply vec1_keeps)

theorem execVtanh_keeps {s0 : State} {c : Fin 96} {k : Strike} {s : State} (hK : Keeps s0 s) : OutKeeps s0
    (execVtanh c k s) := by
  unfold execVtanh
  repeat' (first | with_reducible assumption | with_reducible apply vec1_keeps)

theorem execVsigm_keeps {s0 : State} {c : Fin 96} {k : Strike} {s : State} (hK : Keeps s0 s) : OutKeeps s0
    (execVsigm c k s) := by
  unfold execVsigm
  repeat' (first | with_reducible assumption | with_reducible apply vec1_keeps)

theorem execVerf_keeps {s0 : State} {c : Fin 96} {k : Strike} {s : State} (hK : Keeps s0 s) : OutKeeps s0
    (execVerf c k s) := by
  unfold execVerf
  repeat' (first | with_reducible assumption | with_reducible apply vec1_keeps)

theorem execVcvtif_keeps {s0 : State} {c : Fin 96} {k : Strike} {s : State} (hK : Keeps s0 s) : OutKeeps s0
    (execVcvtif c k s) := by
  unfold execVcvtif
  repeat' (first | with_reducible assumption | with_reducible apply vec1_keeps)

theorem vcvtfiEff_keeps {s0 : State} {s : State} {c : Nat} {w : Nat} (hK : Keeps s0 s) : Keeps s0
    (vcvtfiEff s c w).1 := by
  unfold vcvtfiEff
  repeat' (first | with_reducible assumption | with_reducible apply accFlags_keeps
                  | with_reducible apply vecElems_keeps)

theorem execVcvtfi_keeps {s0 : State} {c : Fin 96} {k : Strike} {s : State} (hK : Keeps s0 s) : OutKeeps s0
    (execVcvtfi c k s) := by
  unfold execVcvtfi
  repeat' (first | with_reducible assumption | with_reducible apply issue_keeps
                  | with_reducible apply vcvtfiEff_keeps | with_reducible apply outKeeps_next)

theorem execVexps_keeps {s0 : State} {c : Fin 96} {k : Strike} {s : State} (hK : Keeps s0 s) : OutKeeps s0
    (execVexps c k s) := by
  unfold execVexps
  repeat' (first | with_reducible assumption | with_reducible apply issue_keeps
                  | with_reducible apply vecElems_keeps | with_reducible apply outKeeps_next | extract_lets
                  | intro hvl)

theorem vcmpEff_keeps {s0 : State} {cmp : Nat → Nat → Nat → Bool} {s : State} {c : Nat} {w : Nat} (hK : Keeps s0 s)
    : Keeps s0 (vcmpEff cmp s c w).1 := by
  unfold vcmpEff
  repeat' (first | with_reducible assumption | with_reducible apply setCore_keeps
                  | with_reducible apply afterBads_keeps | with_reducible apply laneGroups_keeps
                  | with_reducible apply mPut_coreOk | with_reducible exact hvl _ | extract_lets | intro hvl)

theorem execVfcmp_keeps {s0 : State} {c : Fin 96} {k : Strike} {s : State} (hK : Keeps s0 s) : OutKeeps s0
    (execVfcmp c k s) := by
  unfold execVfcmp
  repeat' (first | with_reducible assumption | with_reducible apply issue_keeps | with_reducible apply vcmpEff_keeps
                  | with_reducible apply outKeeps_next)

theorem execVicmp_keeps {s0 : State} {c : Fin 96} {k : Strike} {s : State} (hK : Keeps s0 s) : OutKeeps s0
    (execVicmp c k s) := by
  unfold execVicmp
  repeat' (first | with_reducible assumption | with_reducible apply issue_keeps | with_reducible apply vcmpEff_keeps
                  | with_reducible apply outKeeps_next)

theorem vredEff_keeps {s0 : State} {op : Nat → Nat → Nat} {ident : Nat} {s : State} {c : Nat} {w : Nat}
    (hK : Keeps s0 s) : Keeps s0 (vredEff op ident s c w).1 := by
  unfold vredEff
  repeat' (first | with_reducible assumption | with_reducible apply setCore_keeps
                  | with_reducible apply afterBads_keeps | with_reducible apply laneGroups_keeps
                  | with_reducible apply vPut_coreOk | with_reducible exact hvl _ | extract_lets | intro hvl)

theorem execVfrsum_keeps {s0 : State} {c : Fin 96} {k : Strike} {s : State} (hK : Keeps s0 s) : OutKeeps s0
    (execVfrsum c k s) := by
  unfold execVfrsum
  repeat' (first | with_reducible assumption | with_reducible apply issue_keeps | with_reducible apply vredEff_keeps
                  | with_reducible apply outKeeps_next)

theorem execVfrmax_keeps {s0 : State} {c : Fin 96} {k : Strike} {s : State} (hK : Keeps s0 s) : OutKeeps s0
    (execVfrmax c k s) := by
  unfold execVfrmax
  repeat' (first | with_reducible assumption | with_reducible apply issue_keeps | with_reducible apply vredEff_keeps
                  | with_reducible apply outKeeps_next)

theorem execVfrmin_keeps {s0 : State} {c : Fin 96} {k : Strike} {s : State} (hK : Keeps s0 s) : OutKeeps s0
    (execVfrmin c k s) := by
  unfold execVfrmin
  repeat' (first | with_reducible assumption | with_reducible apply issue_keeps | with_reducible apply vredEff_keeps
                  | with_reducible apply outKeeps_next)

theorem execVirsum_keeps {s0 : State} {c : Fin 96} {k : Strike} {s : State} (hK : Keeps s0 s) : OutKeeps s0
    (execVirsum c k s) := by
  unfold execVirsum
  repeat' (first | with_reducible assumption | with_reducible apply issue_keeps | with_reducible apply vredEff_keeps
                  | with_reducible apply outKeeps_next)

theorem vselEff_keeps {s0 : State} {s : State} {c : Nat} {w : Nat} (hK : Keeps s0 s) : Keeps s0 (vselEff s c w).1
    := by
  unfold vselEff
  repeat' (first | with_reducible assumption | with_reducible apply setCore_keeps
                  | with_reducible apply afterBads_keeps | with_reducible apply laneGroups_keeps
                  | with_reducible apply vPut_coreOk | with_reducible exact hvl _ | extract_lets | intro hvl)

theorem execVsel_keeps {s0 : State} {c : Fin 96} {k : Strike} {s : State} (hK : Keeps s0 s) : OutKeeps s0
    (execVsel c k s) := by
  unfold execVsel
  repeat' (first | with_reducible assumption | with_reducible apply issue_keeps | with_reducible apply vselEff_keeps
                  | with_reducible apply outKeeps_next)

theorem execViadd_keeps {s0 : State} {c : Fin 96} {k : Strike} {s : State} (hK : Keeps s0 s) : OutKeeps s0
    (execViadd c k s) := by
  unfold execViadd
  repeat' (first | with_reducible assumption | with_reducible apply vec2_keeps)

theorem execVisub_keeps {s0 : State} {c : Fin 96} {k : Strike} {s : State} (hK : Keeps s0 s) : OutKeeps s0
    (execVisub c k s) := by
  unfold execVisub
  repeat' (first | with_reducible assumption | with_reducible apply vec2_keeps)

theorem execVimul_keeps {s0 : State} {c : Fin 96} {k : Strike} {s : State} (hK : Keeps s0 s) : OutKeeps s0
    (execVimul c k s) := by
  unfold execVimul
  repeat' (first | with_reducible assumption | with_reducible apply vec2_keeps)

theorem execVimax_keeps {s0 : State} {c : Fin 96} {k : Strike} {s : State} (hK : Keeps s0 s) : OutKeeps s0
    (execVimax c k s) := by
  unfold execVimax
  repeat' (first | with_reducible assumption | with_reducible apply vec2_keeps)

theorem execVimin_keeps {s0 : State} {c : Fin 96} {k : Strike} {s : State} (hK : Keeps s0 s) : OutKeeps s0
    (execVimin c k s) := by
  unfold execVimin
  repeat' (first | with_reducible assumption | with_reducible apply vec2_keeps)

theorem execVand_keeps {s0 : State} {c : Fin 96} {k : Strike} {s : State} (hK : Keeps s0 s) : OutKeeps s0
    (execVand c k s) := by
  unfold execVand
  repeat' (first | with_reducible assumption | with_reducible apply vec2_keeps)

theorem execVor_keeps {s0 : State} {c : Fin 96} {k : Strike} {s : State} (hK : Keeps s0 s) : OutKeeps s0
    (execVor c k s) := by
  unfold execVor
  repeat' (first | with_reducible assumption | with_reducible apply vec2_keeps)

theorem execVxor_keeps {s0 : State} {c : Fin 96} {k : Strike} {s : State} (hK : Keeps s0 s) : OutKeeps s0
    (execVxor c k s) := by
  unfold execVxor
  repeat' (first | with_reducible assumption | with_reducible apply vec2_keeps)

theorem execVshl_keeps {s0 : State} {c : Fin 96} {k : Strike} {s : State} (hK : Keeps s0 s) : OutKeeps s0
    (execVshl c k s) := by
  unfold execVshl
  repeat' (first | with_reducible assumption | with_reducible apply vec2_keeps)

theorem execVshra_keeps {s0 : State} {c : Fin 96} {k : Strike} {s : State} (hK : Keeps s0 s) : OutKeeps s0
    (execVshra c k s) := by
  unfold execVshra
  repeat' (first | with_reducible assumption | with_reducible apply vec2_keeps)

theorem execVshrl_keeps {s0 : State} {c : Fin 96} {k : Strike} {s : State} (hK : Keeps s0 s) : OutKeeps s0
    (execVshrl c k s) := by
  unfold execVshrl
  repeat' (first | with_reducible assumption | with_reducible apply vec2_keeps)

theorem maskEff_keeps {s0 : State} {f : Nat → Nat → Nat} {useA : Bool} {useB : Bool} {s : State} {c : Nat} {w : Nat}
    (hK : Keeps s0 s) : Keeps s0 (maskEff f useA useB s c w).1 := by
  unfold maskEff
  repeat' (first | with_reducible assumption | with_reducible apply setCore_keeps
                  | with_reducible apply afterBads_keeps | with_reducible apply mPut_coreOk | simp only [keeps_mk_iff]
                  | with_reducible exact hvl _ | extract_lets | split | intro hvl)

theorem execVmset_keeps {s0 : State} {c : Fin 96} {k : Strike} {s : State} (hK : Keeps s0 s) : OutKeeps s0
    (execVmset c k s) := by
  unfold execVmset
  repeat' (first | with_reducible assumption | with_reducible apply issue_keeps | with_reducible apply maskEff_keeps
                  | with_reducible apply outKeeps_next)

theorem execVmnot_keeps {s0 : State} {c : Fin 96} {k : Strike} {s : State} (hK : Keeps s0 s) : OutKeeps s0
    (execVmnot c k s) := by
  unfold execVmnot
  repeat' (first | with_reducible assumption | with_reducible apply issue_keeps | with_reducible apply maskEff_keeps
                  | with_reducible apply outKeeps_next)

theorem execVmand_keeps {s0 : State} {c : Fin 96} {k : Strike} {s : State} (hK : Keeps s0 s) : OutKeeps s0
    (execVmand c k s) := by
  unfold execVmand
  repeat' (first | with_reducible assumption | with_reducible apply issue_keeps | with_reducible apply maskEff_keeps
                  | with_reducible apply outKeeps_next)

theorem execVmor_keeps {s0 : State} {c : Fin 96} {k : Strike} {s : State} (hK : Keeps s0 s) : OutKeeps s0
    (execVmor c k s) := by
  unfold execVmor
  repeat' (first | with_reducible assumption | with_reducible apply issue_keeps | with_reducible apply maskEff_keeps
                  | with_reducible apply outKeeps_next)

theorem execVmpop_keeps {s0 : State} {c : Fin 96} {k : Strike} {s : State} (hK : Keeps s0 s) : OutKeeps s0
    (execVmpop c k s) := by
  unfold execVmpop
  repeat' (first | with_reducible assumption | with_reducible apply setCore_keeps
                  | with_reducible apply afterBads_keeps | with_reducible apply issue_keeps
                  | with_reducible apply xw_coreOk | with_reducible apply outKeeps_next | simp only [keeps_mk_iff]
                  | with_reducible exact hvl _ | extract_lets | intro hvl)

end Sys2Proof.Machine
end

