-- ==== Sys2Proof/Laws/KeepsStacks.lean ====
section
/-! SUPPORT. What the functions of Machine/Stacks.lean keep (see Laws/Keeps.lean). -/

set_option linter.unusedSimpArgs false
set_option simprocs false -- no numeral of a goal is evaluated in these proofs

namespace Sys2Proof.Machine

theorem setStk_keeps {s0 : State} {s : State} {i : Nat} {k : Stk} (hK : Keeps s0 s) : Keeps s0 (setStk s i k) := by
  unfold setStk
  repeat' (first | with_reducible assumption | simp only [keeps_mk_iff])

theorem stkCapture_keeps {s0 : State} {s : State} {i : Nat} {kind : Nat} {loc : Nat} (hK : Keeps s0 s) : Keeps s0
    (stkCapture s i kind loc) := by
  unfold stkCapture
  repeat' (first | with_reducible assumption | with_reducible apply wr_keeps | with_reducible apply setFld_keeps
                  | simp only [keeps_mk_iff] | split)

theorem rowCorrect_keeps {s0 : State} {s : State} {i : Nat} {ch : Nat} {bank : Nat} {row : Nat} (hK : Keeps s0 s) :
    Keeps s0 (rowCorrect s i ch bank row) := by
  unfold rowCorrect
  repeat' (first | with_reducible assumption | with_reducible apply raise_keeps | with_reducible apply setStk_keeps
                  | simp only [keeps_mk_iff] | split)

theorem countRead_keeps {s0 : State} {s : State} {i : Nat} {n : Nat} (hK : Keeps s0 s) : Keeps s0 (countRead s i n)
    := by
  unfold countRead
  repeat' (first | with_reducible assumption | with_reducible apply bumpStat_keeps)

theorem countWritten_keeps {s0 : State} {s : State} {i : Nat} {n : Nat} (hK : Keeps s0 s) : Keeps s0
    (countWritten s i n) := by
  unfold countWritten
  repeat' (first | with_reducible assumption | with_reducible apply bumpStat_keeps)

theorem openRowAt_keeps {s0 : State} {s : State} {i : Nat} {ch : Nat} {bank : Nat} {row : Nat} (hK : Keeps s0 s) :
    Keeps s0 (openRowAt s i ch bank row) := by
  unfold openRowAt
  repeat' (first | with_reducible assumption | with_reducible apply setStk_keeps)

theorem lineDecode_keeps {s0 : State} {s : State} {l : Loc} {kind : Nat} (hK : Keeps s0 s) : Keeps s0
    (lineDecode s l kind).1 := by
  unfold lineDecode
  repeat' (first | with_reducible assumption | with_reducible apply raise_keeps | with_reducible apply bumpOcc_keeps
                  | with_reducible apply stkCapture_keeps | with_reducible apply rowCorrect_keeps
                  | with_reducible apply countRead_keeps | with_reducible apply countWritten_keeps
                  | with_reducible apply openRowAt_keeps | simp only [keeps_mk_iff] | split)

theorem lineRead_keeps {s0 : State} {s : State} {l : Loc} {n : Nat} {kind : Nat} (hK : Keeps s0 s) : Keeps s0
    (lineRead s l n kind).s := by
  unfold lineRead
  repeat' (first | with_reducible assumption | with_reducible apply lineDecode_keeps | simp only [keeps_mk_iff]
                  | with_reducible refine keeps_fst (by assumption) ?_ | split)

theorem lineWrite_keeps {s0 : State} {s : State} {l : Loc} {bs : Bytes} (hK : Keeps s0 s) : Keeps s0
    (lineWrite s l bs).s := by
  unfold lineWrite
  repeat' (first | with_reducible assumption | with_reducible apply countWritten_keeps
                  | with_reducible apply openRowAt_keeps | with_reducible apply lineDecode_keeps
                  | simp only [keeps_mk_iff] | with_reducible refine keeps_fst (by assumption) ?_ | extract_lets
                  | split | intro hvl | with_reducible apply memWrite_wf | with_reducible apply keeps_mkfast)

theorem granDecode_keeps {s0 : State} {s : State} {g : Nat} {kind : Nat} (hK : Keeps s0 s) : Keeps s0
    (granDecode s g kind).1 := by
  unfold granDecode
  repeat' (first | with_reducible assumption | with_reducible apply raise_keeps | with_reducible apply bumpOcc_keeps
                  | with_reducible apply stkCapture_keeps | with_reducible apply rowCorrect_keeps
                  | with_reducible apply countRead_keeps | with_reducible apply countWritten_keeps
                  | with_reducible apply openRowAt_keeps | simp only [keeps_mk_iff] | split)

theorem granRead_keeps {s0 : State} {s : State} {g : Nat} (hK : Keeps s0 s) : Keeps s0 (granRead s g).s := by
  unfold granRead
  repeat' (first | with_reducible assumption | with_reducible apply granDecode_keeps | simp only [keeps_mk_iff]
                  | with_reducible refine keeps_fst (by assumption) ?_ | split)

theorem granWrite_keeps {s0 : State} {s : State} {g : Nat} {bs : Bytes} (hK : Keeps s0 s) : Keeps s0
    (granWrite s g bs) := by
  unfold granWrite
  repeat' (first | with_reducible assumption | with_reducible apply countWritten_keeps
                  | with_reducible apply openRowAt_keeps | extract_lets | intro hvl
                  | with_reducible apply memWrite_wf | with_reducible apply keeps_mkdeep)

theorem gransRead_keeps {s0 : State} {s : State} {g : Nat} {e0 : Nat} (hK : Keeps s0 s) : Keeps s0
    (gransRead s g e0).s := by
  revert hK
  fun_induction gransRead s g e0 <;> intro hK
  all_goals (repeat' (first | with_reducible assumption | simp only [keeps_mk_iff] | dsimp +zetaDelta only))
  all_goals (try (apply_assumption; repeat' (first | with_reducible assumption | with_reducible apply granRead_keeps)))

theorem gransWrite_keeps {s0 : State} {s : State} {g : Nat} {e0 : Nat} {e1 : Bytes} (hK : Keeps s0 s) : Keeps s0
    (gransWrite s g e0 e1) := by
  revert hK
  fun_induction gransWrite s g e0 e1 <;> intro hK
  all_goals (repeat' (with_reducible assumption))
  all_goals (try (apply_assumption; repeat' (first | with_reducible assumption | with_reducible apply granWrite_keeps)))

theorem frameReadAt_keeps {s0 : State} {s : State} {f : Frame} {kind : Nat} {e0 : List (Nat × Nat)}
    (hK : Keeps s0 s) : Keeps s0 (frameReadAt s f kind e0).s := by
  induction e0 generalizing s with
  | nil => exact hK
  | cons x ps ih =>
    unfold frameReadAt
    apply ih
    split
    · exact lineRead_keeps hK
    · exact hK

theorem frameRead_keeps {s0 : State} {s : State} {f : Frame} {o : Nat} {n : Nat} (hK : Keeps s0 s) : Keeps s0
    (frameRead s f o n).s := by
  unfold frameRead
  repeat' (first | with_reducible assumption | with_reducible apply frameReadAt_keeps)

theorem frameReadNbu_keeps {s0 : State} {s : State} {f : Frame} {o : Nat} {n : Nat} (hK : Keeps s0 s) : Keeps s0
    (frameReadNbu s f o n).s := by
  unfold frameReadNbu
  repeat' (first | with_reducible assumption | with_reducible apply frameReadAt_keeps)

theorem frameWriteAt_keeps {s0 : State} {s : State} {f : Frame} {e0 : List (Nat × Nat)} {e1 : Bytes}
    (hK : Keeps s0 s) : Keeps s0 (frameWriteAt s f e0 e1).s := by
  induction e0 generalizing s e1 with
  | nil => exact hK
  | cons x ps ih =>
    unfold frameWriteAt
    apply ih
    split
    · exact lineWrite_keeps hK
    · exact hK

theorem frameWrite_keeps {s0 : State} {s : State} {f : Frame} {o : Nat} {bs : Bytes} (hK : Keeps s0 s) : Keeps s0
    (frameWrite s f o bs).s := by
  unfold frameWrite
  repeat' (first | with_reducible assumption | with_reducible apply frameWriteAt_keeps)

theorem stkAccept_keeps {s0 : State} {s : State} {i : Nat} (hK : Keeps s0 s) : Keeps s0 (stkAccept s i) := by
  unfold stkAccept
  repeat' (first | with_reducible assumption | with_reducible apply setStk_keeps | simp only [keeps_mk_iff] | split)

theorem answer_keeps {s0 : State} {s : State} {who : Nat} {st : Nat} {data : Bytes} (hK : Keeps s0 s) : Keeps s0
    (answer s who st data) := by
  unfold answer
  repeat' (first | with_reducible assumption | simp only [keeps_mk_iff])

theorem execFastLineRequest_keeps {s0 : State} {f : Fin 12} {r : LineReq} {s : State} (hK : Keeps s0 s) : OutKeeps
    s0 (execFastLineRequest f r s) := by
  unfold execFastLineRequest
  repeat' (first | with_reducible assumption | with_reducible apply setStk_keeps
                  | with_reducible apply stkAccept_keeps | with_reducible apply outKeeps_next
                  | simp only [keeps_mk_iff] | split)

theorem lineServe_keeps {s0 : State} {s : State} {i : Nat} {r : LineReq} (hK : Keeps s0 s) : Keeps s0
    (lineServe s i r) := by
  unfold lineServe
  repeat' (first | with_reducible assumption | with_reducible apply lineRead_keeps
                  | with_reducible apply lineWrite_keeps | with_reducible apply answer_keeps
                  | simp only [keeps_mk_iff] | split)

theorem strikeLine_keeps {s0 : State} {s : State} {key : Nat} {n : Nat} (hK : Keeps s0 s) : Keeps s0
    (strikeLine s key n) := by
  unfold strikeLine
  repeat' (first | with_reducible assumption | simp only [keeps_mk_iff])

theorem strikeGran_keeps {s0 : State} {s : State} {g : Nat} {n : Nat} (hK : Keeps s0 s) : Keeps s0
    (strikeGran s g n) := by
  unfold strikeGran
  repeat' (first | with_reducible assumption | simp only [keeps_mk_iff])

theorem execFastAccessDone_keeps {s0 : State} {f : Fin 12} {n : Nat} {symErrors : Nat} {onDie : Nat} {s : State}
    (hK : Keeps s0 s) : OutKeeps s0 (execFastAccessDone f n symErrors onDie s) := by
  unfold execFastAccessDone
  repeat' (first | with_reducible assumption | with_reducible apply bumpOcc_keeps
                  | with_reducible apply setStk_keeps | with_reducible apply lineServe_keeps
                  | with_reducible apply strikeLine_keeps | with_reducible apply outKeeps_next
                  | simp only [keeps_mk_iff] | split)

theorem execDeepGranuleRequest_keeps {s0 : State} {d : Fin 8} {r : GranReq} {s : State} (hK : Keeps s0 s) : OutKeeps
    s0 (execDeepGranuleRequest d r s) := by
  unfold execDeepGranuleRequest
  repeat' (first | with_reducible assumption | with_reducible apply setStk_keeps
                  | with_reducible apply stkAccept_keeps | with_reducible apply answer_keeps
                  | with_reducible apply outKeeps_next | simp only [keeps_mk_iff] | split)

theorem granServe_keeps {s0 : State} {s : State} {r : GranReq} (hK : Keeps s0 s) : Keeps s0 (granServe s r) := by
  unfold granServe
  repeat' (first | with_reducible assumption | with_reducible apply gransRead_keeps
                  | with_reducible apply gransWrite_keeps | with_reducible apply answer_keeps
                  | simp only [keeps_mk_iff] | split)

theorem dropGran_keeps {s0 : State} {s : State} {i : Nat} {n : Nat} (hK : Keeps s0 s) : Keeps s0 (dropGran s i n)
    := by
  unfold dropGran
  repeat' (first | with_reducible assumption | with_reducible apply setStk_keeps
                  | with_reducible apply stkAccept_keeps)

theorem execDeepAccessDone_keeps {s0 : State} {d : Fin 8} {n : Nat} {symErrors : List Nat} {onDie : Nat} {s : State}
    (hK : Keeps s0 s) : OutKeeps s0 (execDeepAccessDone d n symErrors onDie s) := by
  unfold execDeepAccessDone
  repeat' (first | with_reducible assumption | with_reducible apply bumpOcc_keeps
                  | with_reducible apply strikeGran_keeps | with_reducible apply granServe_keeps
                  | with_reducible apply dropGran_keeps | with_reducible apply outKeeps_next
                  | simp only [keeps_mk_iff] | (with_reducible apply keeps_foldl; (try intros)) | split)

theorem execRefreshInterval_keeps {s0 : State} {i : Fin 20} {channel : Nat} {bank : Nat} {s : State}
    (hK : Keeps s0 s) : OutKeeps s0 (execRefreshInterval i channel bank s) := by
  unfold execRefreshInterval
  repeat' (first | with_reducible assumption | with_reducible apply bumpOcc_keeps
                  | with_reducible apply setStk_keeps | with_reducible apply outKeeps_next
                  | simp only [keeps_mk_iff] | extract_lets | split)

theorem execBankRefresh_keeps {s0 : State} {i : Fin 20} {channel : Nat} {bank : Nat} {s : State} (hK : Keeps s0 s) :
    OutKeeps s0 (execBankRefresh i channel bank s) := by
  unfold execBankRefresh
  repeat' (first | with_reducible assumption | with_reducible apply setStk_keeps
                  | with_reducible apply outKeeps_next | simp only [keeps_mk_iff] | split)

theorem execStackTempSample_keeps {s0 : State} {i : Fin 20} {celsius : Byte} {s : State} (hK : Keeps s0 s) :
    OutKeeps s0 (execStackTempSample i celsius s) := by
  unfold execStackTempSample
  repeat' (first | with_reducible assumption | with_reducible apply wr_keeps | with_reducible apply setFlag_keeps
                  | with_reducible apply raise_keeps | with_reducible apply outKeeps_next | simp only [keeps_mk_iff]
                  | extract_lets | split)

theorem scrubReads_keeps {s0 : State} {s : State} {i : Nat} {idx : Nat} {syms : List (Nat × Nat)} (hK : Keeps s0 s)
    : Keeps s0 (scrubReads s i idx syms) := by
  unfold scrubReads
  repeat' (first | with_reducible assumption | with_reducible apply lineDecode_keeps
                  | with_reducible apply granDecode_keeps | with_reducible apply strikeLine_keeps
                  | with_reducible apply strikeGran_keeps | simp only [keeps_mk_iff]
                  | (with_reducible apply keeps_foldl; (try intros)) | split)

theorem execScrubStep_keeps {s0 : State} {i : Fin 20} {symErrors : List (Nat × Nat)} {onDie : Nat} {s : State}
    (hK : Keeps s0 s) : OutKeeps s0 (execScrubStep i symErrors onDie s) := by
  unfold execScrubStep
  repeat' (first | with_reducible assumption | with_reducible apply wr_keeps | with_reducible apply raise_keeps
                  | with_reducible apply bumpOcc_keeps | with_reducible apply scrubReads_keeps
                  | with_reducible apply outKeeps_next | simp only [keeps_mk_iff] | split)

theorem rowlogClrEff_keeps {s0 : State} {s : State} {i : Nat} (hK : Keeps s0 s) : Keeps s0 (rowlogClrEff s i) := by
  unfold rowlogClrEff
  repeat' (first | with_reducible assumption | with_reducible apply setStk_keeps)

theorem errClearEff_keeps {s0 : State} {s : State} {i : Nat} (hK : Keeps s0 s) : Keeps s0 (errClearEff s i) := by
  unfold errClearEff
  repeat' (first | with_reducible assumption | with_reducible apply setFld_keeps
                  | with_reducible apply setFlag_keeps)

theorem execStackInitDone_keeps {s0 : State} {i : Fin 20} {s : State} (hK : Keeps s0 s) : OutKeeps s0
    (execStackInitDone i s) := by
  unfold execStackInitDone
  repeat' (first | with_reducible assumption | with_reducible apply setFlag_keeps | with_reducible apply raise_keeps
                  | with_reducible apply setStk_keeps | with_reducible apply stkAccept_keeps
                  | with_reducible apply outKeeps_next | simp only [keeps_mk_iff] | split)

theorem execControllerReady_keeps {s0 : State} {i : Fin 20} {s : State} (hK : Keeps s0 s) : OutKeeps s0
    (execControllerReady i s) := by
  unfold execControllerReady
  repeat' (first | with_reducible assumption | with_reducible apply setFlag_keeps
                  | with_reducible apply stkAccept_keeps | with_reducible apply outKeeps_next
                  | simp only [keeps_mk_iff] | extract_lets | split)

theorem stkSelfRefresh_keeps {s0 : State} {s : State} {i : Nat} (hK : Keeps s0 s) : Keeps s0 (stkSelfRefresh s i)
    := by
  unfold stkSelfRefresh
  repeat' (first | with_reducible assumption | with_reducible apply setFlag_keeps
                  | with_reducible apply setStk_keeps | simp only [keeps_mk_iff] | split)

theorem stkWake_keeps {s0 : State} {s : State} {i : Nat} (hK : Keeps s0 s) : Keeps s0 (stkWake s i) := by
  unfold stkWake
  repeat' (first | with_reducible assumption | with_reducible apply setFlag_keeps
                  | with_reducible apply setStk_keeps | with_reducible apply stkAccept_keeps
                  | simp only [keeps_mk_iff] | split)

theorem execSelfRefreshExit_keeps {s0 : State} {i : Fin 20} {s : State} (hK : Keeps s0 s) : OutKeeps s0
    (execSelfRefreshExit i s) := by
  unfold execSelfRefreshExit
  repeat' (first | with_reducible assumption | with_reducible apply stkWake_keeps
                  | with_reducible apply outKeeps_next | split)

theorem stkReset_keeps {s0 : State} {s : State} {i : Nat} {cold : Bool} (hK : Keeps s0 s) : Keeps s0
    (stkReset s i cold) := by
  unfold stkReset
  repeat' (first | with_reducible assumption | with_reducible apply setStk_keeps | with_reducible apply answer_keeps
                  | with_reducible apply lineServe_keeps | with_reducible apply granServe_keeps
                  | simp only [keeps_mk_iff] | (with_reducible apply keeps_foldl; (try intros)) | extract_lets
                  | split | intro hvl | with_reducible apply memFilter_wf | with_reducible apply keeps_mkfast
                  | with_reducible apply keeps_mkdeep)

end Sys2Proof.Machine
end

