-- ==== Sys2Proof/Laws/KeepsPlace.lean ====
section
/-! SUPPORT. What the functions of Machine/Place.lean keep (see Laws/Keeps.lean). -/

set_option linter.unusedSimpArgs false
set_option simprocs false -- no numeral of a goal is evaluated in these proofs

namespace Sys2Proof.Machine

theorem setEnt_keeps {s0 : State} {s : State} {p : Nat} {e : Ent} (hK : Keeps s0 s) : Keeps s0 (setEnt s p e) := by
  unfold setEnt
  repeat' (first | with_reducible assumption | simp only [keeps_mk_iff])

theorem putSet_keeps {s0 : State} {s : State} {p : Nat} {l : List (Nat × Nat × Nat)} (hK : Keeps s0 s) : Keeps s0
    (putSet s p l) := by
  unfold putSet
  repeat' (first | with_reducible assumption | simp only [keeps_mk_iff])

theorem heatToRegion_keeps {s0 : State} {s : State} {w : Nat × Nat × Nat} (hK : Keeps s0 s) : Keeps s0
    (heatToRegion s w) := by
  unfold heatToRegion
  repeat' (first | with_reducible assumption | with_reducible apply setEnt_keeps | simp only [keeps_mk_iff] | split)

theorem touchCache_keeps {s0 : State} {s : State} {p : Nat} (hK : Keeps s0 s) : Keeps s0 (touchCache s p) := by
  unfold touchCache
  repeat' (first | with_reducible assumption | with_reducible apply bumpStat_keeps
                  | with_reducible apply putSet_keeps | with_reducible apply heatToRegion_keeps
                  | simp only [keeps_mk_iff] | split)

theorem setHeat_keeps {s0 : State} {s : State} {p : Nat} {h : Nat} {ep : Nat} (hK : Keeps s0 s) : Keeps s0
    (setHeat s p h ep) := by
  unfold setHeat
  repeat' (first | with_reducible assumption | with_reducible apply putSet_keeps
                  | with_reducible apply heatToRegion_keeps | split)

theorem touchHeat_keeps {s0 : State} {s : State} {p : Nat} {n : Nat} (hK : Keeps s0 s) : Keeps s0 (touchHeat s p n)
    := by
  unfold touchHeat
  repeat' (first | with_reducible assumption | with_reducible apply setHeat_keeps)

theorem setFrameCode_keeps {s0 : State} {s : State} {d : Nat} {f : Nat} {c : Nat} (hK : Keeps s0 s) : Keeps s0
    (setFrameCode s d f c) := by
  unfold setFrameCode
  repeat' (first | with_reducible assumption | simp only [keeps_mk_iff])

theorem allocFrame_keeps {s0 s : State} {d : Nat} (hK : Keeps s0 s) : ∀ r, allocFrame s d = some r → Keeps s0 r.1
    := by
  intro r hr
  unfold allocFrame at hr
  split at hr
  · cases hr
  · cases hr
    simp only [keeps_mk_iff]
    exact setFrameCode_keeps hK

theorem giveFrame_keeps {s0 : State} {s : State} {e : Ent} {c : Nat} (hK : Keeps s0 s) : Keeps s0 (giveFrame s e c)
    := by
  unfold giveFrame
  repeat' (first | with_reducible assumption | with_reducible apply setFrameCode_keeps)

theorem markBlocks_keeps {s0 : State} {s : State} {d : Nat} {b : Nat} {n : Nat} {used : Bool} (hK : Keeps s0 s) :
    Keeps s0 (markBlocks s d b n used) := by
  unfold markBlocks
  repeat' (first | with_reducible assumption | simp only [keeps_mk_iff])

theorem allocRun_keeps {s0 s : State} {len : Nat} {e0 : List Nat} (hK : Keeps s0 s) : ∀ r, allocRun s len e0 = some
    r → Keeps s0 r.1 := by
  intro r hr
  induction e0 with
  | nil => cases hr
  | cons d ds ih =>
    unfold allocRun at hr
    split at hr
    · exact ih hr
    · cases hr
      simp only [keeps_mk_iff]
      exact markBlocks_keeps hK

theorem allocExtent_keeps {s0 s : State} {n : Nat} (hK : Keeps s0 s) : ∀ r, allocExtent s n = some r → Keeps s0 r.1 :=
  allocRun_keeps hK

theorem freeExtent_keeps {s0 : State} {s : State} {dga : Nat} {len : Nat} (hK : Keeps s0 s) : Keeps s0
    (freeExtent s dga len) := by
  unfold freeExtent
  repeat' (first | with_reducible assumption | with_reducible apply markBlocks_keeps)

theorem deepFull_keeps {s0 : State} {s : State} {p : Nat} {n : Nat} (hK : Keeps s0 s) : Keeps s0 (deepFull s p n)
    := by
  unfold deepFull
  repeat' (first | with_reducible assumption | with_reducible apply raise_keeps)

theorem readMap_keeps {s0 : State} {s : State} {p : Nat} {e : Ent} (hK : Keeps s0 s) : Keeps s0 (readMap s p e).1.s
    := by
  unfold readMap
  repeat' (first | with_reducible assumption | with_reducible apply granRead_keeps | simp only [keeps_mk_iff]
                  | split)

theorem deepSector_keeps {s0 : State} {s : State} {p : Nat} {e : Ent} {k : Nat} (hK : Keeps s0 s) : Keeps s0
    (deepSector s p e k).s := by
  unfold deepSector
  repeat' (first | with_reducible assumption | with_reducible apply gransRead_keeps
                  | with_reducible apply readMap_keeps | simp only [keeps_mk_iff] | split)

end Sys2Proof.Machine
end

