-- ==== Sys2Proof/Laws/KeepsPlaceMig.lean ====
section
/-! SUPPORT. What the functions of Machine/PlaceMig.lean keep (see Laws/Keeps.lean). -/

set_option linter.unusedSimpArgs false
set_option simprocs false -- no numeral of a goal is evaluated in these proofs

namespace Sys2Proof.Machine

theorem setSlot_keeps {s0 : State} {s : State} {i : Nat} {m : Option Mig} (hK : Keeps s0 s) : Keeps s0
    (setSlot s i m) := by
  unfold setSlot
  repeat' (first | with_reducible assumption | simp only [keeps_mk_iff])

theorem raiseClass_keeps {s0 : State} {s : State} {p : Nat} {c : Nat} (hK : Keeps s0 s) : Keeps s0
    (raiseClass s p c) := by
  unfold raiseClass
  repeat' (first | with_reducible assumption | simp only [keeps_mk_iff])

theorem queueMig_keeps {s0 : State} {s : State} {p : Nat} {dir : MigDir} {c : Nat} {eph : List (Nat × Nat)}
    (hK : Keeps s0 s) : Keeps s0 (queueMig s p dir c eph) := by
  unfold queueMig
  repeat' (first | with_reducible assumption | simp only [keeps_mk_iff] | split)

theorem endStalled_keeps {s0 : State} {s : State} {p : Nat} {st : Nat} (hK : Keeps s0 s) : Keeps s0
    (endStalled s p st) := by
  unfold endStalled
  repeat' (first | with_reducible assumption | with_reducible apply answer_keeps | simp only [keeps_mk_iff]
                  | (with_reducible apply keeps_foldl; (try intros)) | extract_lets | split)

theorem homeFast_keeps {s0 : State} {s : State} {p : Nat} (hK : Keeps s0 s) : Keeps s0 (homeFast s p) := by
  unfold homeFast
  repeat' (first | with_reducible assumption | with_reducible apply setEnt_keeps
                  | with_reducible apply freeExtent_keeps | extract_lets | split)

theorem notifyCh_keeps {s0 : State} {p : Nat} {dir : MigDir} {st : Nat} {s : State} {ch : Nat} (hK : Keeps s0 s) :
    Keeps s0 (notifyCh p dir st s ch) := by
  unfold notifyCh
  repeat' (first | with_reducible assumption | with_reducible apply homeFast_keeps | simp only [keeps_mk_iff]
                  | split)

theorem notifyEph_keeps {s0 : State} {s : State} {p : Nat} {st : Nat} (hK : Keeps s0 s) : Keeps s0
    (notifyEph s p st) := by
  unfold notifyEph
  repeat' (first | with_reducible assumption | simp only [keeps_mk_iff])

theorem notify_keeps {s0 : State} {s : State} {p : Nat} {dir : MigDir} {st : Nat} (hK : Keeps s0 s) : Keeps s0
    (notify s p dir st) := by
  unfold notify
  repeat' (first | with_reducible assumption | with_reducible apply notifyCh_keeps
                  | with_reducible apply notifyEph_keeps | simp only [keeps_mk_iff]
                  | (with_reducible apply keeps_foldl; (try intros)) | split)

theorem revertMig_keeps {s0 : State} {s : State} {m : Mig} (hK : Keeps s0 s) : Keeps s0 (revertMig s m) := by
  unfold revertMig
  repeat' (first | with_reducible assumption | with_reducible apply setEnt_keeps
                  | with_reducible apply giveFrame_keeps | simp only [keeps_mk_iff] | split)

theorem abandonMig_keeps {s0 : State} {s : State} {i : Nat} {m : Mig} {st : Nat} (hK : Keeps s0 s) : Keeps s0
    (abandonMig s i m st) := by
  unfold abandonMig
  repeat' (first | with_reducible assumption | with_reducible apply setSlot_keeps
                  | with_reducible apply endStalled_keeps | with_reducible apply notify_keeps
                  | with_reducible apply revertMig_keeps | extract_lets | split)

theorem stopDemotion_keeps {s0 : State} {s : State} {i : Nat} {m : Mig} (hK : Keeps s0 s) : Keeps s0
    (stopDemotion s i m) := by
  unfold stopDemotion
  repeat' (first | with_reducible assumption | with_reducible apply setEnt_keeps
                  | with_reducible apply setSlot_keeps | with_reducible apply queueMig_keeps
                  | simp only [keeps_mk_iff] | split)

theorem poisonPage_keeps {s0 : State} {s : State} {p : Nat} {st : Nat} {loc : Nat} (hK : Keeps s0 s) : Keeps s0
    (poisonPage s p st loc) := by
  unfold poisonPage
  repeat' (first | with_reducible assumption | with_reducible apply raise_keeps | with_reducible apply bumpOcc_keeps
                  | with_reducible apply setEnt_keeps | with_reducible apply giveFrame_keeps
                  | with_reducible apply setSlot_keeps | with_reducible apply endStalled_keeps
                  | with_reducible apply notify_keeps | simp only [keeps_mk_iff] | extract_lets | split)

theorem reportBad_keeps {s0 : State} {s : State} {p : Nat} {st : Nat} {loc : Nat} (hK : Keeps s0 s) : Keeps s0
    (reportBad s p st loc) := by
  unfold reportBad
  repeat' (first | with_reducible assumption | with_reducible apply poisonPage_keeps | split)

theorem registerStall_keeps {s0 : State} {s : State} {key : Nat} {fresh : Bool} {req : Option LtaReq} {p : Nat}
    {secs : List Nat} {late : Bool} (hK : Keeps s0 s) : Keeps s0 (registerStall s key fresh req p secs late) := by
  unfold registerStall
  repeat' (first | with_reducible assumption | with_reducible apply bumpOcc_keeps | simp only [keeps_mk_iff] | split)

theorem pieceWaits_keeps {s0 : State} {s : State} {write : Bool} {q : Piece} (hK : Keeps s0 s) : Keeps s0
    (pieceWaits s write q).1 := by
  unfold pieceWaits
  repeat' (first | with_reducible assumption | with_reducible apply raiseClass_keeps
                  | with_reducible apply queueMig_keeps | with_reducible apply stopDemotion_keeps
                  | simp only [keeps_mk_iff] | split)

theorem firstWait_keeps {s0 : State} {s : State} {write : Bool} {e0 : List Piece} (hK : Keeps s0 s) : Keeps s0
    (firstWait s write e0).1 := by
  revert hK
  fun_induction firstWait s write e0 <;> intro hK
  all_goals (repeat' (first | with_reducible assumption | with_reducible apply pieceWaits_keeps | simp only [keeps_mk_iff]
                             | with_reducible refine keeps_fst (by assumption) ?_))
  all_goals (try (apply_assumption; repeat' (first | with_reducible assumption | with_reducible apply pieceWaits_keeps
                                                     | with_reducible refine keeps_fst (by assumption) ?_)))

theorem bypassRead_keeps {s0 : State} {s : State} {p : Nat} {e : Ent} {e0 : List Nat} (hK : Keeps s0 s) : Keeps s0
    (bypassRead s p e e0).s := by
  revert hK
  fun_induction bypassRead s p e e0 <;> intro hK
  all_goals (repeat' (first | with_reducible assumption | simp only [keeps_mk_iff] | dsimp +zetaDelta only))
  all_goals (try (apply_assumption; repeat' (first | with_reducible assumption | with_reducible apply bumpStat_keeps
                                                     | with_reducible apply deepSector_keeps)))

theorem markDirty_keeps {s0 : State} {s : State} {p : Nat} {mask : Nat} (hK : Keeps s0 s) : Keeps s0
    (markDirty s p mask) := by
  unfold markDirty
  repeat' (first | with_reducible assumption | with_reducible apply setEnt_keeps | simp only [keeps_mk_iff] | split)

theorem admitHeat_keeps {s0 : State} {s : State} {q : Piece} (hK : Keeps s0 s) : Keeps s0 (admitHeat s q) := by
  unfold admitHeat
  repeat' (first | with_reducible assumption | with_reducible apply touchHeat_keeps
                  | with_reducible apply queueMig_keeps | simp only [keeps_mk_iff] | split)

theorem pieceServe_keeps {s0 : State} {s : State} {q : Piece} {wr? : Option Bytes} (hK : Keeps s0 s) : Keeps s0
    (pieceServe s q wr?).s := by
  unfold pieceServe
  repeat' (first | with_reducible assumption | with_reducible apply bumpStat_keeps
                  | with_reducible apply frameRead_keeps | with_reducible apply frameWrite_keeps
                  | with_reducible apply touchCache_keeps | with_reducible apply reportBad_keeps
                  | with_reducible apply bypassRead_keeps | with_reducible apply markDirty_keeps
                  | with_reducible apply admitHeat_keeps | simp only [keeps_mk_iff] | split)

theorem serveAll_keeps {s0 : State} {s : State} {e0 : List Piece} {e1 : Option Bytes} (hK : Keeps s0 s) : Keeps s0
    (serveAll s e0 e1).s := by
  revert hK
  fun_induction serveAll s e0 e1 <;> intro hK
  all_goals (repeat' (first | with_reducible assumption | simp only [keeps_mk_iff] | dsimp +zetaDelta only))
  all_goals (try (apply_assumption; repeat' (first | with_reducible assumption | with_reducible apply pieceServe_keeps)))

theorem ltaRun_keeps {s0 : State} {s : State} {key : Nat} {fresh : Bool} {req : Option LtaReq} {addr : Nat}
    {n : Nat} {w : Option Bytes} (hK : Keeps s0 s) : Keeps s0 (ltaRun s key fresh req addr n w).1 := by
  unfold ltaRun
  repeat' (first | with_reducible assumption | with_reducible apply registerStall_keeps
                  | with_reducible apply firstWait_keeps | with_reducible apply serveAll_keeps
                  | simp only [keeps_mk_iff] | with_reducible refine keeps_fst (by assumption) ?_ | split)

theorem engineLta_keeps {s0 : State} {s : State} {key : Nat} {addr : Nat} {n : Nat} {w : Option Bytes}
    (hK : Keeps s0 s) : Keeps s0 (engineLta s key addr n w).1 := by
  unfold engineLta
  repeat' (first | with_reducible assumption | with_reducible apply ltaRun_keeps | simp only [keeps_mk_iff]
                  | with_reducible refine keeps_fst (by assumption) ?_ | split)

theorem ltaRead_keeps {s0 : State} {s : State} {key : Nat} {addr : Nat} {n : Nat} (hK : Keeps s0 s) : Keeps s0
    (ltaRead s key addr n).1 := by
  unfold ltaRead
  repeat' (first | with_reducible assumption | with_reducible apply engineLta_keeps)

theorem ltaWrite_keeps {s0 : State} {s : State} {key : Nat} {addr : Nat} {bs : Bytes} (hK : Keeps s0 s) : Keeps s0
    (ltaWrite s key addr bs).1 := by
  unfold ltaWrite
  repeat' (first | with_reducible assumption | with_reducible apply engineLta_keeps | simp only [keeps_mk_iff]
                  | with_reducible refine keeps_fst (by assumption) ?_ | split)

theorem execLtaAccess_keeps {s0 : State} {r : LtaReq} {s : State} (hK : Keeps s0 s) : OutKeeps s0
    (execLtaAccess r s) := by
  unfold execLtaAccess
  repeat' (first | with_reducible assumption | with_reducible apply answer_keeps
                  | with_reducible apply strikeLine_keeps | with_reducible apply strikeGran_keeps
                  | with_reducible apply ltaRun_keeps | with_reducible apply outKeeps_next
                  | simp only [keeps_mk_iff] | with_reducible refine keeps_fst (by assumption) ?_
                  | (with_reducible apply keeps_foldl; (try intros)) | split)

theorem execStalledRequestResume_keeps {s0 : State} {n : Nat} {s : State} (hK : Keeps s0 s) : OutKeeps s0
    (execStalledRequestResume n s) := by
  unfold execStalledRequestResume
  repeat' (first | with_reducible assumption | with_reducible apply answer_keeps | with_reducible apply ltaRun_keeps
                  | with_reducible apply outKeeps_next | simp only [keeps_mk_iff]
                  | with_reducible refine keeps_fst (by assumption) ?_ | split)

theorem settleMigs_keeps {s0 : State} {s : State} (hK : Keeps s0 s) : Keeps s0 (settleMigs s) := by
  unfold settleMigs
  repeat' (first | with_reducible assumption | with_reducible apply notify_keeps | simp only [keeps_mk_iff]
                  | (with_reducible apply keeps_foldl; (try intros)))

theorem startMig_keeps {s0 : State} {s : State} {i : Nat} {m : Mig} (hK : Keeps s0 s) : Keeps s0 (startMig s i m)
    := by
  unfold startMig
  repeat' (first | with_reducible assumption | with_reducible apply setEnt_keeps
                  | with_reducible apply touchCache_keeps | with_reducible apply setSlot_keeps
                  | simp only [keeps_mk_iff] | extract_lets | split
                  | with_reducible refine keeps_some (allocFrame_keeps ?_) (by assumption))

theorem execMigrationStart_keeps {s0 : State} {s : State} (hK : Keeps s0 s) : OutKeeps s0 (execMigrationStart s) := by
  unfold execMigrationStart
  repeat' (first | with_reducible assumption | with_reducible apply settleMigs_keeps
                  | with_reducible apply startMig_keeps | with_reducible apply outKeeps_next
                  | simp only [keeps_mk_iff] | split)

theorem execFrameWaitExpire_keeps {s0 : State} {page : Nat} {s : State} (hK : Keeps s0 s) : OutKeeps s0
    (execFrameWaitExpire page s) := by
  unfold execFrameWaitExpire
  repeat' (first | with_reducible assumption | with_reducible apply raise_keeps
                  | with_reducible apply endStalled_keeps | with_reducible apply notify_keeps
                  | with_reducible apply outKeeps_next | simp only [keeps_mk_iff] | split)

theorem execPromotionSector_keeps {s0 : State} {slot : Fin 32} {s : State} (hK : Keeps s0 s) : OutKeeps s0
    (execPromotionSector slot s) := by
  unfold execPromotionSector
  repeat' (first | with_reducible assumption | with_reducible apply bumpStat_keeps
                  | with_reducible apply frameWrite_keeps | with_reducible apply setEnt_keeps
                  | with_reducible apply deepSector_keeps | with_reducible apply setSlot_keeps
                  | with_reducible apply notify_keeps | with_reducible apply abandonMig_keeps
                  | with_reducible apply poisonPage_keeps | with_reducible apply outKeeps_next
                  | simp only [keeps_mk_iff] | split)

theorem frameSectors_keeps {s0 : State} {s : State} {f : Frame} {e0 : List Nat} (hK : Keeps s0 s) : Keeps s0
    (frameSectors s f e0).1.s := by
  induction e0 generalizing s with
  | nil => exact hK
  | cons x ps ih =>
    unfold frameSectors
    exact ih (frameRead_keeps hK)

theorem relocateExtent_keeps {s0 : State} {s : State} {p : Nat} (hK : Keeps s0 s) : Keeps s0 (relocateExtent s p).1
    := by
  unfold relocateExtent
  repeat' (first | with_reducible assumption | with_reducible apply bumpStat_keeps
                  | with_reducible apply bumpOcc_keeps | with_reducible apply granWrite_keeps
                  | with_reducible apply gransWrite_keeps | with_reducible apply setEnt_keeps
                  | with_reducible apply freeExtent_keeps | with_reducible apply deepFull_keeps
                  | with_reducible apply frameSectors_keeps | simp only [keeps_mk_iff] | extract_lets | split
                  | with_reducible refine keeps_some (allocExtent_keeps ?_) (by assumption))

theorem writeBack_keeps {s0 : State} {s : State} {p : Nat} {k : Nat} (hK : Keeps s0 s) : Keeps s0
    (writeBack s p k).1 := by
  unfold writeBack
  repeat' (first | with_reducible assumption | with_reducible apply bumpStat_keeps
                  | with_reducible apply granWrite_keeps | with_reducible apply gransWrite_keeps
                  | with_reducible apply frameRead_keeps | with_reducible apply setEnt_keeps
                  | with_reducible apply readMap_keeps | with_reducible apply relocateExtent_keeps
                  | simp only [keeps_mk_iff] | split)

theorem finishWriteback_keeps {s0 : State} {s : State} {slot : Nat} {m : Mig} (hK : Keeps s0 s) : Keeps s0
    (finishWriteback s slot m) := by
  unfold finishWriteback
  repeat' (first | with_reducible assumption | with_reducible apply bumpStat_keeps
                  | with_reducible apply setEnt_keeps | with_reducible apply giveFrame_keeps
                  | with_reducible apply setSlot_keeps | with_reducible apply notify_keeps
                  | simp only [keeps_mk_iff] | extract_lets | split)

theorem execWritebackSector_keeps {s0 : State} {slot : Fin 32} {s : State} (hK : Keeps s0 s) : OutKeeps s0
    (execWritebackSector slot s) := by
  unfold execWritebackSector
  repeat' (first | with_reducible assumption | with_reducible apply abandonMig_keeps
                  | with_reducible apply poisonPage_keeps | with_reducible apply writeBack_keeps
                  | with_reducible apply finishWriteback_keeps | with_reducible apply outKeeps_next
                  | simp only [keeps_mk_iff] | with_reducible refine keeps_fst (by assumption) ?_ | split)

theorem timeoutUse_keeps {s0 : State} {s : State} {r : GranReq} (hK : Keeps s0 s) : Keeps s0 (timeoutUse s r) := by
  unfold timeoutUse
  repeat' (first | with_reducible assumption | with_reducible apply raise_keeps | with_reducible apply bumpOcc_keeps
                  | with_reducible apply answer_keeps | with_reducible apply abandonMig_keeps
                  | simp only [keeps_mk_iff] | split)

theorem execDeepTierTimeout_keeps {s0 : State} {d : Fin 8} {n : Nat} {issued : Bool} {s : State} (hK : Keeps s0 s) :
    OutKeeps s0 (execDeepTierTimeout d n issued s) := by
  unfold execDeepTierTimeout
  repeat' (first | with_reducible assumption | with_reducible apply bumpOcc_keeps
                  | with_reducible apply gransWrite_keeps | with_reducible apply dropGran_keeps
                  | with_reducible apply timeoutUse_keeps | with_reducible apply outKeeps_next
                  | simp only [keeps_mk_iff] | extract_lets | split)

theorem execEpochTick_keeps {s0 : State} {s : State} (hK : Keeps s0 s) : OutKeeps s0 (execEpochTick s) := by
  unfold execEpochTick
  repeat' (first | with_reducible assumption | with_reducible apply setFld_keeps
                  | with_reducible apply outKeeps_next | split)

theorem execSweepVisit_keeps {s0 : State} {die : Fin 2} {s : State} (hK : Keeps s0 s) : OutKeeps s0
    (execSweepVisit die s) := by
  unfold execSweepVisit
  repeat' (first | with_reducible assumption | with_reducible apply setHeat_keeps
                  | with_reducible apply queueMig_keeps | with_reducible apply outKeeps_next
                  | simp only [keeps_mk_iff] | split)

theorem execPagePoisonReport_keeps {s0 : State} {page : Nat} {status : Byte} {loc : W64} {s : State}
    (hK : Keeps s0 s) : OutKeeps s0 (execPagePoisonReport page status loc s) := by
  unfold execPagePoisonReport
  repeat' (first | with_reducible assumption | with_reducible apply reportBad_keeps
                  | with_reducible apply outKeeps_next | simp only [keeps_mk_iff] | split)

theorem plcReset_keeps {s0 : State} {s : State} {cold : Bool} (hK : Keeps s0 s) : Keeps s0 (plcReset s cold) := by
  unfold plcReset
  repeat' (first | with_reducible assumption | with_reducible apply answer_keeps | simp only [keeps_mk_iff]
                  | (with_reducible apply keeps_foldl; (try intros)) | extract_lets | split)

theorem execPlcJournalReplay_keeps {s0 : State} {s : State} (hK : Keeps s0 s) : OutKeeps s0 (execPlcJournalReplay s)
    := by
  unfold execPlcJournalReplay
  repeat' (first | with_reducible assumption | with_reducible apply setSlot_keeps
                  | with_reducible apply revertMig_keeps | with_reducible apply outKeeps_next
                  | simp only [keeps_mk_iff] | (with_reducible apply keeps_foldl; (try intros)) | split)

end Sys2Proof.Machine
end

