-- ==== Sys2Proof/Laws/KeepsPlaceCmd.lean ====
section
/-! SUPPORT. What the functions of Machine/PlaceCmd.lean keep (see Laws/Keeps.lean). -/

set_option linter.unusedSimpArgs false
set_option simprocs false -- no numeral of a goal is evaluated in these proofs

namespace Sys2Proof.Machine

theorem dropMigs_keeps {s0 : State} {s : State} {p : Nat} (hK : Keeps s0 s) : Keeps s0 (dropMigs s p) := by
  unfold dropMigs
  repeat' (first | with_reducible assumption | with_reducible apply setSlot_keeps
                  | with_reducible apply notify_keeps | simp only [keeps_mk_iff] | extract_lets | split)

theorem freeStorage_keeps {s0 : State} {s : State} {e : Ent} {c : Nat} (hK : Keeps s0 s) : Keeps s0
    (freeStorage s e c) := by
  unfold freeStorage
  repeat' (first | with_reducible assumption | with_reducible apply giveFrame_keeps
                  | with_reducible apply freeExtent_keeps | simp only [keeps_mk_iff] | extract_lets | split)

theorem newExtent_keeps {s0 s : State} {p cfmt : Nat} (hK : Keeps s0 s) : ∀ r, newExtent s p cfmt = some r → Keeps
    s0 r.1 := by
  intro r hr
  obtain ⟨x, hx, hr⟩ := Option.map_eq_some_iff.1 hr
  rw [← hr]
  exact keeps_pair (granWrite_keeps (allocExtent_keeps hK x hx))

theorem mapFastDone_keeps {s0 : State} {h : Hit} {p d f : Nat} {n : Ent} (hK : Keeps s0 h.s) : Keeps s0
    (mapFastDone h p d f n).1 := by
  unfold mapFastDone
  split
  · exact setFrameCode_keeps hK
  · exact setEnt_keeps hK

theorem partMapCmd_keeps {s0 : State} {s : State} {p : Nat} {a1 : Nat} {a2 : Nat} (hK : Keeps s0 s) : Keeps s0
    (partMapCmd s p a1 a2).1 := by
  unfold partMapCmd
  repeat' (first | with_reducible assumption | with_reducible apply frameWrite_keeps
                  | with_reducible apply setEnt_keeps | with_reducible apply deepFull_keeps
                  | with_reducible apply mapFastDone_keeps | simp only [keeps_mk_iff] | extract_lets | split
                  | with_reducible refine keeps_some (allocFrame_keeps ?_) (by assumption)
                  | with_reducible refine keeps_some (newExtent_keeps ?_) (by assumption))

theorem partUnmap_keeps {s0 : State} {s : State} {p : Nat} (hK : Keeps s0 s) : Keeps s0 (partUnmap s p).1 := by
  unfold partUnmap
  repeat' (first | with_reducible assumption | with_reducible apply setEnt_keeps
                  | with_reducible apply dropMigs_keeps | with_reducible apply freeStorage_keeps
                  | simp only [keeps_mk_iff] | split)

theorem partSetAttr_keeps {s0 : State} {s : State} {p : Nat} {a1 : Nat} {a2 : Nat} (hK : Keeps s0 s) : Keeps s0
    (partSetAttr s p a1 a2).1 := by
  unfold partSetAttr
  repeat' (first | with_reducible assumption | with_reducible apply setEnt_keeps | simp only [keeps_mk_iff] | split)

theorem partPromote_keeps {s0 : State} {s : State} {p : Nat} {a1 : Nat} (hK : Keeps s0 s) : Keeps s0
    (partPromote s p a1).1 := by
  unfold partPromote
  repeat' (first | with_reducible assumption | with_reducible apply raiseClass_keeps
                  | with_reducible apply queueMig_keeps | simp only [keeps_mk_iff] | split)

theorem partDemote_keeps {s0 : State} {s : State} {p : Nat} (hK : Keeps s0 s) : Keeps s0 (partDemote s p).1 := by
  unfold partDemote
  repeat' (first | with_reducible assumption | with_reducible apply queueMig_keeps | simp only [keeps_mk_iff]
                  | split)

theorem partFlush_keeps {s0 : State} {s : State} {p : Nat} (hK : Keeps s0 s) : Keeps s0 (partFlush s p).1 := by
  unfold partFlush
  repeat' (first | with_reducible assumption | with_reducible apply queueMig_keeps | simp only [keeps_mk_iff]
                  | split)

theorem partHome_keeps {s0 : State} {s : State} {p : Nat} {a1 : Nat} (hK : Keeps s0 s) : Keeps s0
    (partHome s p a1).1 := by
  unfold partHome
  repeat' (first | with_reducible assumption | with_reducible apply setEnt_keeps
                  | with_reducible apply deepFull_keeps | with_reducible apply raiseClass_keeps
                  | with_reducible apply queueMig_keeps | with_reducible apply homeFast_keeps
                  | with_reducible apply dropMigs_keeps | simp only [keeps_mk_iff] | extract_lets | split
                  | with_reducible refine keeps_some (newExtent_keeps ?_) (by assumption))

theorem copySectors_keeps {s0 : State} {f : Frame} {e0 : State} {e1 : List Bytes} {e2 : Nat} (hK : Keeps s0 e0) :
    Keeps s0 (copySectors f e0 e1 e2).s := by
  revert hK
  fun_induction copySectors f e0 e1 e2 <;> intro hK
  all_goals (repeat' (first | with_reducible assumption | with_reducible apply frameWrite_keeps | dsimp +zetaDelta only))
  all_goals (try (apply_assumption; repeat' (first | with_reducible assumption | with_reducible apply frameWrite_keeps)))

theorem partRelocate_keeps {s0 : State} {s : State} {p : Nat} {a1 : Nat} (hK : Keeps s0 s) : Keeps s0
    (partRelocate s p a1).1 := by
  unfold partRelocate
  repeat' (first | with_reducible assumption | with_reducible apply setEnt_keeps
                  | with_reducible apply setFrameCode_keeps | with_reducible apply giveFrame_keeps
                  | with_reducible apply reportBad_keeps | with_reducible apply frameSectors_keeps
                  | with_reducible apply copySectors_keeps | simp only [keeps_mk_iff] | extract_lets | split
                  | with_reducible refine keeps_some (allocFrame_keeps ?_) (by assumption))

theorem partRetire_keeps {s0 : State} {s : State} {p : Nat} (hK : Keeps s0 s) : Keeps s0 (partRetire s p).1 := by
  unfold partRetire
  repeat' (first | with_reducible assumption | with_reducible apply setEnt_keeps
                  | with_reducible apply dropMigs_keeps | with_reducible apply freeStorage_keeps
                  | simp only [keeps_mk_iff] | split)

theorem partRelease_keeps {s0 : State} {s : State} {p : Nat} (hK : Keeps s0 s) : Keeps s0 (partRelease s p).1 := by
  unfold partRelease
  repeat' (first | with_reducible assumption | with_reducible apply setEnt_keeps | simp only [keeps_mk_iff] | split)

theorem rebuildFrame_keeps {s0 s : State} {own : Bool} {f d : Nat} (hK : Keeps s0 s) :
    ∀ r, (if own = true then some (s, f) else allocFrame s d) = some r → Keeps s0 r.1 := by
  intro r hr
  split at hr
  · cases hr; exact hK
  · exact allocFrame_keeps hK r hr

theorem partRebuild_keeps {s0 : State} {s : State} {ch : Nat} {p : Nat} {a1 : Nat} {a2 : Nat} (hK : Keeps s0 s) :
    Keeps s0 (partRebuild s ch p a1 a2).1 := by
  unfold partRebuild
  extract_lets e own d
  split; exact hK
  split; exact hK
  split; exact hK
  rename_i s' f heq
  have h1 : Keeps s0 s' := keeps_some (rebuildFrame_keeps hK) heq
  extract_lets fr undo
  have hu : ∀ x, Keeps s0 x → Keeps s0 (undo x) := by
    intro x hx
    show Keeps s0 (if own then x else setFrameCode x d f 0)
    split
    · exact hx
    · exact setFrameCode_keeps hx
  split; exact hK
  split
  · rename_i e1
    exact hu _ (keeps_fst e1 (ltaRead_keeps h1))
  · rename_i e1
    have h2 := keeps_fst e1 (ltaRead_keeps h1)
    split; exact hu _ h2
    extract_lets h
    split; exact hu _ (frameWrite_keeps h2)
    apply setEnt_keeps
    show Keeps s0 (if own || !hasFrame e then h.s else giveFrame h.s e 2)
    split
    · exact frameWrite_keeps h2
    · exact giveFrame_keeps (frameWrite_keeps h2)

theorem partRead_keeps {s0 : State} {s : State} {ch : Nat} {p : Nat} (hK : Keeps s0 s) : Keeps s0
    (partRead s ch p).1 := by
  unfold partRead
  repeat' (first | with_reducible assumption | with_reducible apply wr_keeps | simp only [keeps_mk_iff]
                  | (with_reducible apply keeps_foldl; (try intros)))

theorem tryPart_keeps {s0 : State} {s : State} {ch : Nat} {c : PlcCmd} {i : Nat} (hK : Keeps s0 s) : Keeps s0
    (tryPart s ch c i).1 := by
  unfold tryPart
  repeat' (first | with_reducible assumption | with_reducible apply partMapCmd_keeps
                  | with_reducible apply partUnmap_keeps | with_reducible apply partSetAttr_keeps
                  | with_reducible apply partPromote_keeps | with_reducible apply partDemote_keeps
                  | with_reducible apply partFlush_keeps | with_reducible apply partHome_keeps
                  | with_reducible apply partRelocate_keeps | with_reducible apply partRetire_keeps
                  | with_reducible apply partRelease_keeps | with_reducible apply partRebuild_keeps
                  | with_reducible apply partRead_keeps | simp only [keeps_mk_iff] | split)

theorem tryParts_keeps {s0 : State} {ch e0 e1 : Nat} {e2 : State} (hK : Keeps s0 e2) : Keeps s0
    (tryParts ch e0 e1 e2) := by
  induction e0 generalizing e1 e2 with
  | zero => exact hK
  | succ n ih =>
    unfold tryParts
    split
    · exact hK
    · apply ih
      split
      · split
        rename_i e
        have h := keeps_fst e (tryPart_keeps hK)
        split
        · simp only [keeps_mk_iff]; exact h
        · exact h
      · exact hK

theorem setPlan_keeps {s0 : State} {s : State} {p : Nat} {v : Plan} (hK : Keeps s0 s) : Keeps s0 (setPlan s p v) := by
  unfold setPlan
  repeat' (first | with_reducible assumption | simp only [keeps_mk_iff])

theorem showPlan_keeps {s0 : State} {s : State} {p : Nat} (hK : Keeps s0 s) : Keeps s0 (showPlan s p) := by
  unfold showPlan
  repeat' (first | with_reducible assumption | with_reducible apply wr_keeps)

theorem readEntries_keeps {s0 : State} {ch : Nat} {a : Nat} {e0 : Nat} {e1 : Nat} {e2 : State} (hK : Keeps s0 e2) :
    Keeps s0 (readEntries ch a e0 e1 e2).1 := by
  revert hK
  fun_induction readEntries ch a e0 e1 e2 <;> intro hK
  all_goals (repeat' (first | with_reducible assumption | with_reducible apply ltaRead_keeps | simp only [keeps_mk_iff]
                             | with_reducible refine keeps_fst (by assumption) ?_ | extract_lets))
  all_goals (try (apply_assumption; repeat' (first | with_reducible assumption | with_reducible apply ltaRead_keeps
                                                     | with_reducible refine keeps_fst (by assumption) ?_)))

theorem ephLoadEff_keeps {s0 : State} {s : State} {ch : Nat} {c : PlcCmd} (hK : Keeps s0 s) : Keeps s0
    (ephLoadEff s ch c).1 := by
  unfold ephLoadEff
  repeat' (first | with_reducible assumption | with_reducible apply setPlan_keeps
                  | with_reducible apply showPlan_keeps | with_reducible apply readEntries_keeps
                  | simp only [keeps_mk_iff] | with_reducible refine keeps_fst (by assumption) ?_ | split)

theorem ephArmEff_keeps {s0 : State} {s : State} {c : PlcCmd} (hK : Keeps s0 s) : Keeps s0 (ephArmEff s c).1 := by
  unfold ephArmEff
  repeat' (first | with_reducible assumption | with_reducible apply wr_keeps | with_reducible apply setPlan_keeps
                  | with_reducible apply showPlan_keeps | simp only [keeps_mk_iff] | split)

theorem ephDisarmEff_keeps {s0 : State} {s : State} {c : PlcCmd} (hK : Keeps s0 s) : Keeps s0 (ephDisarmEff s c).1
    := by
  unfold ephDisarmEff
  repeat' (first | with_reducible assumption | with_reducible apply setPlan_keeps
                  | with_reducible apply showPlan_keeps | simp only [keeps_mk_iff] | split)

theorem ephUnloadEff_keeps {s0 : State} {s : State} {c : PlcCmd} (hK : Keeps s0 s) : Keeps s0 (ephUnloadEff s c).1
    := by
  unfold ephUnloadEff
  repeat' (first | with_reducible assumption | with_reducible apply setPlan_keeps
                  | with_reducible apply showPlan_keeps | simp only [keeps_mk_iff] | split)

theorem tryPlan_keeps {s0 : State} {s : State} {ch : Nat} {c : PlcCmd} (hK : Keeps s0 s) : Keeps s0 (tryPlan s ch c)
    := by
  unfold tryPlan
  repeat' (first | with_reducible assumption | with_reducible apply ephLoadEff_keeps
                  | with_reducible apply ephArmEff_keeps | with_reducible apply ephDisarmEff_keeps
                  | with_reducible apply ephUnloadEff_keeps | simp only [keeps_mk_iff] | split)

theorem plcTry_keeps {s0 : State} {s : State} {ch : Nat} (hK : Keeps s0 s) : Keeps s0 (plcTry s ch) := by
  unfold plcTry
  repeat' (first | with_reducible assumption | with_reducible apply tryParts_keeps
                  | with_reducible apply tryPlan_keeps | split)

theorem plcIssue_keeps {s0 : State} {s : State} {i : Initiator} {ch : Nat} {op : Nat} {evt : Bool} (hK : Keeps s0 s)
    : Keeps s0 (plcIssue s i ch op evt) := by
  unfold plcIssue
  repeat' (first | with_reducible assumption | with_reducible apply violation_keeps
                  | with_reducible apply plcTry_keeps | simp only [keeps_mk_iff] | split)

theorem execPlcCmdDone_keeps {s0 : State} {ch : Fin 4} {s : State} (hK : Keeps s0 s) : OutKeeps s0
    (execPlcCmdDone ch s) := by
  unfold execPlcCmdDone
  repeat' (first | with_reducible assumption | with_reducible apply wr_keeps | with_reducible apply raise_keeps
                  | with_reducible apply plcTry_keeps | with_reducible apply outKeeps_next
                  | simp only [keeps_mk_iff] | extract_lets | split)

theorem setEph_keeps {s0 : State} {s : State} {p : Nat} {e : Nat} {v : EphEnt} (hK : Keeps s0 s) : Keeps s0
    (setEph s p e v) := by
  unfold setEph
  repeat' (first | with_reducible assumption | with_reducible apply setPlan_keeps)

theorem firePages_keeps {s0 : State} {b : Bytes} {e0 : List Nat} {e1 : State} {e2 : EphRun} (hK : Keeps s0 e1) :
    Keeps s0 (firePages b e0 e1 e2).1 := by
  revert hK
  fun_induction firePages b e0 e1 e2 <;> intro hK
  all_goals (repeat' (with_reducible assumption))
  all_goals (try (apply_assumption; repeat' (first | with_reducible assumption | with_reducible apply raiseClass_keeps
                                                     | with_reducible apply queueMig_keeps)))

theorem fireEntry_keeps {s0 : State} {g : Nat} {m : Nat} {s : State} {x : Nat × Nat × EphEnt} (hK : Keeps s0 s) :
    Keeps s0 (fireEntry g m s x) := by
  unfold fireEntry
  repeat' (first | with_reducible assumption | with_reducible apply bumpRaw_keeps
                  | with_reducible apply setEph_keeps | with_reducible apply firePages_keeps
                  | simp only [keeps_mk_iff] | split)

theorem lateEntry_keeps {s0 : State} {g : Nat} {m : Nat} {s : State} {x : Nat × Nat × EphEnt} (hK : Keeps s0 s) :
    Keeps s0 (lateEntry g m s x) := by
  unfold lateEntry
  repeat' (first | with_reducible assumption | with_reducible apply raise_keeps | with_reducible apply bumpOcc_keeps
                  | with_reducible apply setEph_keeps | simp only [keeps_mk_iff] | split)

theorem execEphMarker_keeps {s0 : State} {s : State} (hK : Keeps s0 s) : OutKeeps s0 (execEphMarker s) := by
  unfold execEphMarker
  repeat' (first | with_reducible assumption | with_reducible apply fireEntry_keeps
                  | with_reducible apply lateEntry_keeps | with_reducible apply outKeeps_next
                  | simp only [keeps_mk_iff] | (with_reducible apply keeps_foldl; (try intros)) | split)

theorem execEphDescPush_keeps {s0 : State} {plan : Fin 4} {entry : Nat} {s : State} (hK : Keeps s0 s) : OutKeeps s0
    (execEphDescPush plan entry s) := by
  unfold execEphDescPush
  split
  · exact outKeeps_next hK
  · extract_lets c t k
    split
    · exact outKeeps_next (setCore_keeps (setEph_keeps hK) (fun hvl => strmEnqueue_coreOk (hvl c)))
    · exact outKeeps_next hK

theorem ephFinish_keeps {s0 : State} {s : State} {p : Nat} {e : Nat} {v : EphEnt} {r : EphRun} {rest : List EphRun}
    {rep : Report} {lta : Nat} (hK : Keeps s0 s) : Keeps s0 (ephFinish s p e v r rest rep lta) := by
  unfold ephFinish
  repeat' (first | with_reducible assumption | with_reducible apply raise_keeps | with_reducible apply bumpOcc_keeps
                  | with_reducible apply setEph_keeps | simp only [keeps_mk_iff] | extract_lets | split)

theorem execEphEntryComplete_keeps {s0 : State} {plan : Fin 4} {entry : Nat} {s : State} (hK : Keeps s0 s) :
    OutKeeps s0 (execEphEntryComplete plan entry s) := by
  unfold execEphEntryComplete
  repeat' (first | with_reducible assumption | with_reducible apply ephFinish_keeps
                  | with_reducible apply outKeeps_next | simp only [keeps_mk_iff] | split)

end Sys2Proof.Machine
end

