-- ==== Sys2Proof/Laws/KeepsNbu.lean ====
section
/-! SUPPORT. What the functions of Machine/Nbu.lean keep (see Laws/Keeps.lean). -/

set_option linter.unusedSimpArgs false
set_option simprocs false -- no numeral of a goal is evaluated in these proofs

namespace Sys2Proof.Machine

theorem setNbu_keeps {s0 : State} {s : State} {n : Nat} {v : Nbu} (hK : Keeps s0 s) : Keeps s0 (setNbu s n v) := by
  unfold setNbu
  repeat' (first | with_reducible assumption | simp only [keeps_mk_iff])

theorem send_keeps {s0 : State} {s : State} {m : FabMsg} (hK : Keeps s0 s) : Keeps s0 (send s m) := by
  unfold send
  repeat' (first | with_reducible assumption | simp only [keeps_mk_iff])

theorem execBurstGrant_keeps {s0 : State} {n : Fin 48} {banks : List (Fin 32)} {s : State} (hK : Keeps s0 s) :
    OutKeeps s0 (execBurstGrant n banks s) := by
  unfold execBurstGrant
  repeat' (first | with_reducible assumption | with_reducible apply setStk_keeps
                  | with_reducible apply outKeeps_next | simp only [keeps_mk_iff] | split)

theorem endBurst_keeps {s0 : State} {s : State} {n : Nat} (hK : Keeps s0 s) : Keeps s0 (endBurst s n) := by
  unfold endBurst
  repeat' (first | with_reducible assumption | with_reducible apply setStk_keeps)

theorem execBurstEnd_keeps {s0 : State} {n : Fin 48} {s : State} (hK : Keeps s0 s) : OutKeeps s0 (execBurstEnd n s)
    := by
  unfold execBurstEnd
  repeat' (first | with_reducible assumption | with_reducible apply endBurst_keeps
                  | with_reducible apply outKeeps_next | split)

theorem execBurstPreempt_keeps {s0 : State} {n : Fin 48} {s : State} (hK : Keeps s0 s) : OutKeeps s0
    (execBurstPreempt n s) := by
  unfold execBurstPreempt
  repeat' (first | with_reducible assumption | with_reducible apply bumpOcc_keeps
                  | with_reducible apply endBurst_keeps | with_reducible apply outKeeps_next
                  | simp only [keeps_mk_iff] | split)

theorem acquire_keeps {s0 : State} {s : State} {p : Nat} {secs : Nat} (hK : Keeps s0 s) : Keeps s0
    (acquire s p secs).1 := by
  unfold acquire
  repeat' (first | with_reducible assumption | with_reducible apply touchCache_keeps
                  | with_reducible apply raiseClass_keeps | with_reducible apply queueMig_keeps
                  | with_reducible apply stopDemotion_keeps | with_reducible apply markDirty_keeps
                  | simp only [keeps_mk_iff] | split)

theorem releasePage_keeps {s0 : State} {s : State} {p : Nat} (hK : Keeps s0 s) : Keeps s0 (releasePage s p) := by
  unfold releasePage
  repeat' (first | with_reducible assumption | simp only [keeps_mk_iff])

theorem releasePages_keeps {s0 : State} {s : State} {l : List Nat} (hK : Keeps s0 s) : Keeps s0 (releasePages s l)
    := by
  unfold releasePages
  repeat' (first | with_reducible assumption | with_reducible apply releasePage_keeps
                  | (with_reducible apply keeps_foldl; (try intros)))

theorem fencePage_keeps {s0 : State} {s : State} {p : Nat} (hK : Keeps s0 s) : Keeps s0 (fencePage s p) := by
  unfold fencePage
  repeat' (first | with_reducible assumption | simp only [keeps_mk_iff]
                  | (with_reducible apply keeps_foldl; (try intros)))

theorem acquireAll_keeps {s0 : State} {s : State} {taken : List Nat} {e0 : List (Nat × Nat)} (hK : Keeps s0 s) :
    Keeps s0 (acquireAll s taken e0).1 := by
  revert hK
  fun_induction acquireAll s taken e0 <;> intro hK
  all_goals (repeat' (first | with_reducible assumption | with_reducible apply acquire_keeps
                             | with_reducible apply releasePages_keeps
                             | with_reducible refine keeps_fst (by assumption) ?_))
  all_goals (try (apply_assumption; repeat' (first | with_reducible assumption | with_reducible apply acquire_keeps
                                                     | with_reducible refine keeps_fst (by assumption) ?_)))

theorem execNbuPageAcquire_keeps {s0 : State} {n : Fin 48} {page : Nat} {sectors : W64} {s : State}
    (hK : Keeps s0 s) : OutKeeps s0 (execNbuPageAcquire n page sectors s) := by
  unfold execNbuPageAcquire
  repeat' (first | with_reducible assumption | with_reducible apply setNbu_keeps
                  | with_reducible apply acquire_keeps | with_reducible apply outKeeps_next
                  | simp only [keeps_mk_iff] | with_reducible refine keeps_fst (by assumption) ?_ | split)

theorem execNbuFence_keeps {s0 : State} {n : Fin 48} {page : Nat} {s : State} (hK : Keeps s0 s) : OutKeeps s0
    (execNbuFence n page s) := by
  unfold execNbuFence
  repeat' (first | with_reducible assumption | with_reducible apply fencePage_keeps
                  | with_reducible apply outKeeps_next | split)

theorem execNbuPageRelease_keeps {s0 : State} {n : Fin 48} {page : Nat} {s : State} (hK : Keeps s0 s) : OutKeeps s0
    (execNbuPageRelease n page s) := by
  unfold execNbuPageRelease
  repeat' (first | with_reducible assumption | with_reducible apply setNbu_keeps
                  | with_reducible apply releasePage_keeps | with_reducible apply outKeeps_next
                  | simp only [keeps_mk_iff] | split)

theorem nbuLine_keeps {s0 : State} {s : State} {n : Nat} {lta : Nat} (hK : Keeps s0 s) : Keeps s0
    (nbuLine s n lta).s := by
  unfold nbuLine
  repeat' (first | with_reducible assumption | with_reducible apply frameReadNbu_keeps | split)

theorem nbuBytesAt_keeps {s0 : State} {s : State} {n : Nat} {e0 : List Nat} (hK : Keeps s0 s) : Keeps s0
    (nbuBytesAt s n e0).s := by
  revert hK
  fun_induction nbuBytesAt s n e0 <;> intro hK
  all_goals (repeat' (first | with_reducible assumption | simp only [keeps_mk_iff] | dsimp +zetaDelta only))
  all_goals (try (apply_assumption; repeat' (first | with_reducible assumption | with_reducible apply reportBad_keeps
                                                     | with_reducible apply nbuLine_keeps)))

theorem nbuBytes_keeps {s0 : State} {s : State} {n : Nat} {lta : Nat} {len : Nat} (hK : Keeps s0 s) : Keeps s0
    (nbuBytes s n lta len).s := by
  unfold nbuBytes
  repeat' (first | with_reducible assumption | with_reducible apply nbuBytesAt_keeps)

theorem formLines_keeps {s0 : State} {s : State} {n : Nat} {prot : Bool} {es : List Edit} {e0 : List Nat}
    (hK : Keeps s0 s) : Keeps s0 (formLines s n prot es e0).1 := by
  induction e0 generalizing s with
  | nil => exact hK
  | cons l ls ih =>
    unfold formLines
    apply ih
    split
    · exact hK
    · exact nbuBytesAt_keeps hK

theorem sendDelta_keeps {s0 : State} {s : State} {n : Nat} {key : Nat} {r : Bytes} (hK : Keeps s0 s) : Keeps s0
    (sendDelta s n key r) := by
  unfold sendDelta
  repeat' (first | with_reducible assumption | with_reducible apply bumpStat_keeps | with_reducible apply send_keeps)

theorem sendFirst_keeps {s0 : State} {s : State} {n : Nat} {e0 : List CLine} {e1 : List CLine} (hK : Keeps s0 s) :
    Keeps s0 (sendFirst s n e0 e1) := by
  revert hK
  fun_induction sendFirst s n e0 e1 <;> intro hK
  all_goals (repeat' (first | with_reducible assumption | with_reducible apply setNbu_keeps
                             | with_reducible apply sendDelta_keeps))
  all_goals (try (apply_assumption; repeat' (with_reducible assumption)))

theorem sendDue_keeps {s0 : State} {n : Nat} {e0 : Nat} {e1 : State} (hK : Keeps s0 e1) : Keeps s0 (sendDue n e0 e1)
    := by
  revert hK
  fun_induction sendDue n e0 e1 <;> intro hK
  all_goals (repeat' (with_reducible assumption))
  all_goals (try (apply_assumption; repeat' (first | with_reducible assumption | with_reducible apply sendFirst_keeps)))

theorem showLine_keeps {s0 : State} {s : State} {c : CLine} (hK : Keeps s0 s) : Keeps s0 (showLine s c) := by
  unfold showLine
  repeat' (first | with_reducible assumption | simp only [keeps_mk_iff] | extract_lets | intro hvl
                  | with_reducible apply memWrite_wf | with_reducible apply keeps_mkfast)

theorem takeAck_keeps {s0 : State} {s : State} {n : Nat} {key : Nat} {q : Nat} (hK : Keeps s0 s) : Keeps s0
    (takeAck s n key q) := by
  unfold takeAck
  repeat' (first | with_reducible assumption | with_reducible apply setNbu_keeps
                  | with_reducible apply sendDue_keeps | with_reducible apply showLine_keeps
                  | simp only [keeps_mk_iff] | (with_reducible apply keeps_foldl; (try intros)))

theorem deltaAckEff_keeps {s0 : State} {s : State} {n : Nat} {a : Bytes} (hK : Keeps s0 s) : Keeps s0
    (deltaAckEff s n a) := by
  unfold deltaAckEff
  repeat' (first | with_reducible assumption | with_reducible apply takeAck_keeps)

theorem execDeltaAckReceive_keeps {s0 : State} {n : Fin 48} {ack : Bytes} {s : State} (hK : Keeps s0 s) : OutKeeps
    s0 (execDeltaAckReceive n ack s) := by
  unfold execDeltaAckReceive
  repeat' (first | with_reducible assumption | with_reducible apply deltaAckEff_keeps
                  | with_reducible apply outKeeps_next | split)

theorem ackDelta_keeps {s0 : State} {s : State} {n : Nat} {d : Bytes} (hK : Keeps s0 s) : Keeps s0 (ackDelta s n d)
    := by
  unfold ackDelta
  repeat' (first | with_reducible assumption | with_reducible apply send_keeps)

theorem deltaEff_keeps {s0 : State} {s : State} {n : Nat} {d : Bytes} (hK : Keeps s0 s) : Keeps s0 (deltaEff s n d)
    := by
  unfold deltaEff
  repeat' (first | with_reducible assumption | with_reducible apply bumpStat_keeps
                  | with_reducible apply bumpOcc_keeps | with_reducible apply frameWrite_keeps
                  | with_reducible apply setNbu_keeps | with_reducible apply acquire_keeps
                  | with_reducible apply releasePage_keeps | with_reducible apply fencePage_keeps
                  | with_reducible apply nbuBytesAt_keeps | with_reducible apply ackDelta_keeps
                  | simp only [keeps_mk_iff] | with_reducible refine keeps_fst (by assumption) ?_ | split)

theorem execDeltaReceive_keeps {s0 : State} {n : Fin 48} {delta : Bytes} {s : State} (hK : Keeps s0 s) : OutKeeps s0
    (execDeltaReceive n delta s) := by
  unfold execDeltaReceive
  repeat' (first | with_reducible assumption | with_reducible apply deltaEff_keeps
                  | with_reducible apply outKeeps_next | split)

theorem resendAll_keeps {s0 : State} {s : State} {n : Nat} {key : Nat} (hK : Keeps s0 s) : Keeps s0
    (resendAll s n key) := by
  unfold resendAll
  repeat' (first | with_reducible assumption | with_reducible apply bumpOcc_keeps | with_reducible apply send_keeps
                  | (with_reducible apply keeps_foldl; (try intros)))

theorem execDeltaResend_keeps {s0 : State} {n : Fin 48} {dev : Nat} {holder : Fin 48} {s : State} (hK : Keeps s0 s)
    : OutKeeps s0 (execDeltaResend n dev holder s) := by
  unfold execDeltaResend
  repeat' (first | with_reducible assumption | with_reducible apply raise_keeps | with_reducible apply setNbu_keeps
                  | with_reducible apply resendAll_keeps | with_reducible apply outKeeps_next
                  | simp only [keeps_mk_iff] | extract_lets | split)

theorem execMarkSend_keeps {s0 : State} {n : Fin 48} {dev : Nat} {holder : Fin 48} {s : State} (hK : Keeps s0 s) :
    OutKeeps s0 (execMarkSend n dev holder s) := by
  unfold execMarkSend
  repeat' (first | with_reducible assumption | with_reducible apply setNbu_keeps
                  | with_reducible apply sendDelta_keeps | with_reducible apply outKeeps_next
                  | simp only [keeps_mk_iff] | split)

theorem placeLines_keeps {s0 : State} {s : State} {n : Nat} {prot : Bool} {tile : Option Nat} {ls : List NewLine}
    (hK : Keeps s0 s) : Keeps s0 (placeLines s n prot tile ls).1 := by
  unfold placeLines
  repeat' (first | with_reducible assumption | with_reducible apply setNbu_keeps
                  | with_reducible apply sendDue_keeps)

theorem execCommitLineWrite_keeps {s0 : State} {n : Fin 48} {s : State} (hK : Keeps s0 s) : OutKeeps s0
    (execCommitLineWrite n s) := by
  unfold execCommitLineWrite
  repeat' (first | with_reducible assumption | with_reducible apply frameWrite_keeps
                  | with_reducible apply setNbu_keeps | with_reducible apply outKeeps_next
                  | simp only [keeps_mk_iff] | split)

theorem execNbuRetainedRestore_keeps {s0 : State} {n : Fin 48} {s : State} (hK : Keeps s0 s) : OutKeeps s0
    (execNbuRetainedRestore n s) := by
  unfold execNbuRetainedRestore
  repeat' (first | with_reducible assumption | with_reducible apply setNbu_keeps
                  | with_reducible apply acquireAll_keeps | with_reducible apply sendDue_keeps
                  | with_reducible apply resendAll_keeps | with_reducible apply outKeeps_next
                  | simp only [keeps_mk_iff] | with_reducible refine keeps_fst (by assumption) ?_
                  | (with_reducible apply keeps_foldl; (try intros)) | split)

end Sys2Proof.Machine
end

