-- ==== Sys2Proof/Laws/KeepsNbuRow.lean ====
section
/-! SUPPORT. What the functions of Machine/NbuRow.lean keep (see Laws/Keeps.lean). -/

set_option linter.unusedSimpArgs false
set_option simprocs false -- no numeral of a goal is evaluated in these proofs

namespace Sys2Proof.Machine

theorem loadRow_keeps {s0 : State} {s : State} {n : Nat} {x : Stream} {step : Nat} {t : Nat} {r : Nat}
    (hK : Keeps s0 s) : Keeps s0 (loadRow s n x step t r).1 := by
  unfold loadRow
  repeat' (first | with_reducible assumption | with_reducible apply nbuBytes_keeps | simp only [keeps_mk_iff]
                  | split)

theorem loadStreams_keeps {s0 : State} {s : State} {n : Nat} {bind : Bytes} {b : Bytes} {e0 : List Nat}
    (hK : Keeps s0 s) : Keeps s0 (loadStreams s n bind b e0).1 := by
  revert hK
  fun_induction loadStreams s n bind b e0 <;> intro hK
  all_goals (repeat' (first | with_reducible assumption | simp only [keeps_mk_iff]
                             | with_reducible refine keeps_fst (by assumption) ?_ | extract_lets))
  all_goals (try (apply_assumption; repeat' (first | with_reducible assumption | with_reducible apply loadRow_keeps
                                                     | with_reducible refine keeps_fst (by assumption) ?_)))

theorem applyRow_keeps {s0 : State} {s : State} {n : Nat} {bind : Bytes} {b : Bytes} {pages : List Nat} {x : Stamp}
    (hK : Keeps s0 s) : Keeps s0 (applyRow s n bind b pages x).1 := by
  unfold applyRow
  repeat' (first | with_reducible assumption | with_reducible apply bumpStat_keeps
                  | with_reducible apply releasePages_keeps | with_reducible apply fencePage_keeps
                  | with_reducible apply formLines_keeps | with_reducible apply placeLines_keeps
                  | with_reducible apply loadStreams_keeps | simp only [keeps_mk_iff]
                  | (with_reducible apply keeps_foldl; (try intros)) | split)

theorem tryRow_keeps {s0 : State} {s : State} {n : Nat} {b : Bytes} (hK : Keeps s0 s) : Keeps s0 (tryRow s n b).1
    := by
  unfold tryRow
  repeat' (first | with_reducible assumption | with_reducible apply bumpOcc_keeps
                  | with_reducible apply registerStall_keeps | with_reducible apply releasePages_keeps
                  | with_reducible apply acquireAll_keeps | with_reducible apply nbuBytes_keeps
                  | with_reducible apply applyRow_keeps | simp only [keeps_mk_iff]
                  | with_reducible refine keeps_fst (by assumption) ?_ | split)

theorem freeEntry_keeps {s0 : State} {s : State} {n : Nat} (hK : Keeps s0 s) : Keeps s0 (freeEntry s n) := by
  unfold freeEntry
  repeat' (first | with_reducible assumption | with_reducible apply setNbu_keeps | simp only [keeps_mk_iff] | split)

theorem takeRow_keeps {s0 : State} {s : State} {n : Nat} {i : Nat} (hK : Keeps s0 s) : Keeps s0 (takeRow s n i) := by
  unfold takeRow
  repeat' (first | with_reducible assumption | with_reducible apply bumpStat_keeps
                  | with_reducible apply setNbu_keeps | with_reducible apply tryRow_keeps
                  | with_reducible apply freeEntry_keeps | simp only [keeps_mk_iff] | split)

theorem execNbuRowReceive_keeps {s0 : State} {n : Fin 48} {row : Bytes} {s : State} (hK : Keeps s0 s) : OutKeeps s0
    (execNbuRowReceive n row s) := by
  unfold execNbuRowReceive
  repeat' (first | with_reducible assumption | with_reducible apply raise_keeps | with_reducible apply setNbu_keeps
                  | with_reducible apply outKeeps_next | simp only [keeps_mk_iff] | split)

theorem execNbuRowApply_keeps {s0 : State} {n : Fin 48} {s : State} (hK : Keeps s0 s) : OutKeeps s0
    (execNbuRowApply n s) := by
  unfold execNbuRowApply
  repeat' (first | with_reducible assumption | with_reducible apply bumpStat_keeps
                  | with_reducible apply setNbu_keeps | with_reducible apply takeRow_keeps
                  | with_reducible apply outKeeps_next | simp only [keeps_mk_iff] | split)

theorem endParked_keeps {s0 : State} {s : State} {n : Nat} {p : Nat} {st : Nat} (hK : Keeps s0 s) : Keeps s0
    (endParked s n p st) := by
  unfold endParked
  repeat' (first | with_reducible assumption | with_reducible apply setNbu_keeps)

theorem unparkFrom_keeps {s0 : State} {n : Nat} {e0 : Nat} {e1 : Nat} {e2 : State} (hK : Keeps s0 e2) : Keeps s0
    (unparkFrom n e0 e1 e2) := by
  revert hK
  fun_induction unparkFrom n e0 e1 e2 <;> intro hK
  all_goals (repeat' (first | with_reducible assumption | dsimp +zetaDelta only))
  all_goals (try (apply_assumption; repeat' (first | with_reducible assumption | with_reducible apply takeRow_keeps)))

theorem execRowUnpark_keeps {s0 : State} {n : Fin 48} {s : State} (hK : Keeps s0 s) : OutKeeps s0
    (execRowUnpark n s) := by
  unfold execRowUnpark
  repeat' (first | with_reducible assumption | with_reducible apply endParked_keeps
                  | with_reducible apply unparkFrom_keeps | with_reducible apply outKeeps_next
                  | simp only [keeps_mk_iff] | (with_reducible apply keeps_foldl; (try intros)) | extract_lets
                  | split)

theorem loadTile_keeps {s0 : State} {s : State} {n : Nat} {x : Stream} {step : Nat} {t : Nat} {e0 : List Nat}
    (hK : Keeps s0 s) : Keeps s0 (loadTile s n x step t e0).1 := by
  revert hK
  fun_induction loadTile s n x step t e0 <;> intro hK
  all_goals (repeat' (first | with_reducible assumption | simp only [keeps_mk_iff]
                             | with_reducible refine keeps_fst (by assumption) ?_ | extract_lets
                             | dsimp +zetaDelta only))
  all_goals (try (apply_assumption; repeat' (first | with_reducible assumption | with_reducible apply nbuBytes_keeps)))

theorem transEdits_keeps {s0 : State} {s : State} {n : Nat} {bind : Bytes} {step : Nat} {t : Nat} {e0 : List Nat}
    (hK : Keeps s0 s) : Keeps s0 (transEdits s n bind step t e0).1 := by
  revert hK
  fun_induction transEdits s n bind step t e0 <;> intro hK
  all_goals (repeat' (first | with_reducible assumption | simp only [keeps_mk_iff]
                             | with_reducible refine keeps_fst (by assumption) ?_ | extract_lets))
  all_goals (try (apply_assumption; repeat' (first | with_reducible assumption | with_reducible apply loadTile_keeps
                                                     | with_reducible refine keeps_fst (by assumption) ?_)))

theorem placeEdits_keeps {s0 : State} {s : State} {n : Nat} {prot : Bool} {es : List Edit} {stamp : Option Edit}
    (hK : Keeps s0 s) : Keeps s0 (placeEdits s n prot es stamp).1 := by
  unfold placeEdits
  repeat' (first | with_reducible assumption | with_reducible apply formLines_keeps
                  | with_reducible apply placeLines_keeps | simp only [keeps_mk_iff] | split)

theorem transposeTile_keeps {s0 : State} {s : State} {n : Nat} {bind : Bytes} {step : Nat} {t : Nat}
    (hK : Keeps s0 s) : Keeps s0 (transposeTile s n bind step t).1 := by
  unfold transposeTile
  repeat' (first | with_reducible assumption | with_reducible apply releasePages_keeps
                  | with_reducible apply fencePage_keeps | with_reducible apply acquireAll_keeps
                  | with_reducible apply nbuBytes_keeps | with_reducible apply transEdits_keeps
                  | with_reducible apply placeEdits_keeps | simp only [keeps_mk_iff]
                  | with_reducible refine keeps_fst (by assumption) ?_
                  | (with_reducible apply keeps_foldl; (try intros)) | split)

theorem setWork_keeps {s0 : State} {s : State} {n : Nat} {i : Nat} {w : Work} (hK : Keeps s0 s) : Keeps s0
    (setWork s n i w) := by
  unfold setWork
  repeat' (first | with_reducible assumption | with_reducible apply setNbu_keeps)

theorem execTransposeTile_keeps {s0 : State} {n : Fin 48} {s : State} (hK : Keeps s0 s) : OutKeeps s0
    (execTransposeTile n s) := by
  unfold execTransposeTile
  repeat' (first | with_reducible assumption | with_reducible apply transposeTile_keeps
                  | with_reducible apply setWork_keeps | with_reducible apply outKeeps_next
                  | simp only [keeps_mk_iff] | with_reducible refine keeps_fst (by assumption) ?_ | extract_lets
                  | split)

theorem execNbuRowAnswer_keeps {s0 : State} {n : Fin 48} {s : State} (hK : Keeps s0 s) : OutKeeps s0
    (execNbuRowAnswer n s) := by
  unfold execNbuRowAnswer
  repeat' (first | with_reducible assumption | with_reducible apply setNbu_keeps
                  | with_reducible apply releasePages_keeps | with_reducible apply freeEntry_keeps
                  | with_reducible apply outKeeps_next | simp only [keeps_mk_iff] | extract_lets | split)

theorem putCmd_keeps {s0 : State} {s : State} {n : Nat} {c : Option NCmd} (hK : Keeps s0 s) : Keeps s0
    (putCmd s n c) := by
  unfold putCmd
  repeat' (first | with_reducible assumption | with_reducible apply setNbu_keeps)

theorem progLoad_keeps {s0 : State} {s : State} {n : Nat} {c : NCmd} (hK : Keeps s0 s) : Keeps s0 (progLoad s n c).1
    := by
  unfold progLoad
  repeat' (first | with_reducible assumption | with_reducible apply ltaRead_keeps
                  | with_reducible apply setNbu_keeps | simp only [keeps_mk_iff]
                  | with_reducible refine keeps_fst (by assumption) ?_ | split)

theorem bindLoadPart_keeps {s0 : State} {s : State} {n : Nat} {c : NCmd} {i : Nat} (hK : Keeps s0 s) : Keeps s0
    (bindLoadPart s n c i).1 := by
  unfold bindLoadPart
  repeat' (first | with_reducible assumption | with_reducible apply ltaRead_keeps
                  | with_reducible apply setNbu_keeps | simp only [keeps_mk_iff]
                  | with_reducible refine keeps_fst (by assumption) ?_ | split)

theorem bindClearPart_keeps {s0 : State} {s : State} {n : Nat} {c : NCmd} {i : Nat} (hK : Keeps s0 s) : Keeps s0
    (bindClearPart s n c i).1 := by
  unfold bindClearPart
  repeat' (first | with_reducible assumption | with_reducible apply setNbu_keeps | simp only [keeps_mk_iff] | split)

theorem rederive_keeps {s0 : State} {s : State} {n : Nat} {bind : Bytes} {step : Nat} {t : Nat} {i : Nat}
    (hK : Keeps s0 s) : Keeps s0 (rederive s n bind step t i).1 := by
  unfold rederive
  repeat' (first | with_reducible assumption | with_reducible apply loadTile_keeps | simp only [keeps_mk_iff]
                  | split)

theorem auditStreams_keeps {s0 : State} {s : State} {n : Nat} {bind : Bytes} {step : Nat} {t : Nat} {e0 : List Nat}
    (hK : Keeps s0 s) : Keeps s0 (auditStreams s n bind step t e0).1 := by
  revert hK
  fun_induction auditStreams s n bind step t e0 <;> intro hK
  all_goals (repeat' (first | with_reducible assumption | simp only [keeps_mk_iff]
                             | with_reducible refine keeps_fst (by assumption) ?_ | extract_lets))
  all_goals (try (apply_assumption; repeat' (first | with_reducible assumption | with_reducible apply loadTile_keeps
                                                     | with_reducible apply rederive_keeps
                                                     | with_reducible refine keeps_fst (by assumption) ?_)))

theorem auditPart_keeps {s0 : State} {s : State} {n : Nat} {c : NCmd} {i : Nat} (hK : Keeps s0 s) : Keeps s0
    (auditPart s n c i).1 := by
  unfold auditPart
  repeat' (first | with_reducible assumption | with_reducible apply releasePage_keeps
                  | with_reducible apply releasePages_keeps | with_reducible apply fencePage_keeps
                  | with_reducible apply acquireAll_keeps | with_reducible apply nbuBytes_keeps
                  | with_reducible apply placeEdits_keeps | with_reducible apply auditStreams_keeps
                  | simp only [keeps_mk_iff] | with_reducible refine keeps_fst (by assumption) ?_
                  | (with_reducible apply keeps_foldl; (try intros)) | split)

theorem transposePart_keeps {s0 : State} {s : State} {n : Nat} {c : NCmd} {i : Nat} (hK : Keeps s0 s) : Keeps s0
    (transposePart s n c i).1 := by
  unfold transposePart
  repeat' (first | with_reducible assumption | with_reducible apply releasePage_keeps
                  | with_reducible apply acquireAll_keeps | with_reducible apply nbuBytes_keeps
                  | with_reducible apply transposeTile_keeps | simp only [keeps_mk_iff]
                  | with_reducible refine keeps_fst (by assumption) ?_ | split)

theorem jobRead_keeps {s0 : State} {s : State} {n : Nat} {c : NCmd} (hK : Keeps s0 s) : Keeps s0 (jobRead s n c).1
    := by
  unfold jobRead
  repeat' (first | with_reducible assumption | with_reducible apply ltaRead_keeps | simp only [keeps_mk_iff]
                  | with_reducible refine keeps_fst (by assumption) ?_ | split)

theorem axpbyPart_keeps {s0 : State} {s : State} {n : Nat} {c : NCmd} {i : Nat} (hK : Keeps s0 s) : Keeps s0
    (axpbyPart s n c i).1 := by
  unfold axpbyPart
  repeat' (first | with_reducible assumption | with_reducible apply releasePages_keeps
                  | with_reducible apply fencePage_keeps | with_reducible apply acquireAll_keeps
                  | with_reducible apply nbuBytes_keeps | with_reducible apply placeEdits_keeps
                  | simp only [keeps_mk_iff] | with_reducible refine keeps_fst (by assumption) ?_ | split)

theorem loadRowsAt_keeps {s0 : State} {s : State} {n : Nat} {base : Nat} {w : Nat} {fmt : Nat} {e0 : List Nat}
    (hK : Keeps s0 s) : Keeps s0 (loadRowsAt s n base w fmt e0).1 := by
  revert hK
  fun_induction loadRowsAt s n base w fmt e0 <;> intro hK
  all_goals (repeat' (first | with_reducible assumption | simp only [keeps_mk_iff]
                             | with_reducible refine keeps_fst (by assumption) ?_ | extract_lets
                             | dsimp +zetaDelta only))
  all_goals (try (apply_assumption; repeat' (first | with_reducible assumption | with_reducible apply nbuBytes_keeps)))

theorem jobDense_keeps {s0 : State} {s : State} {n : Nat} {c : NCmd} {offs : List Nat} {weights : List (List Nat)}
    (hK : Keeps s0 s) : Keeps s0 (jobDense s n c offs weights).1 := by
  unfold jobDense
  repeat' (first | with_reducible assumption | with_reducible apply ltaWrite_keeps
                  | with_reducible apply releasePages_keeps | with_reducible apply acquireAll_keeps
                  | with_reducible apply loadRowsAt_keeps | simp only [keeps_mk_iff]
                  | with_reducible refine keeps_fst (by assumption) ?_ | split)

theorem gemvPart_keeps {s0 : State} {s : State} {n : Nat} {c : NCmd} (hK : Keeps s0 s) : Keeps s0 (gemvPart s n c).1
    := by
  unfold gemvPart
  repeat' (first | with_reducible assumption | with_reducible apply ltaRead_keeps
                  | with_reducible apply jobDense_keeps | simp only [keeps_mk_iff]
                  | with_reducible refine keeps_fst (by assumption) ?_ | split)

theorem embedPart_keeps {s0 : State} {s : State} {n : Nat} {c : NCmd} (hK : Keeps s0 s) : Keeps s0
    (embedPart s n c).1 := by
  unfold embedPart
  repeat' (first | with_reducible assumption | with_reducible apply ltaRead_keeps
                  | with_reducible apply jobDense_keeps | simp only [keeps_mk_iff]
                  | with_reducible refine keeps_fst (by assumption) ?_ | split)

theorem jobPart1_keeps {s0 : State} {s : State} {n : Nat} {c : NCmd} {i : Nat} (hK : Keeps s0 s) : Keeps s0
    (jobPart1 s n c i).1 := by
  unfold jobPart1
  repeat' (first | with_reducible assumption | with_reducible apply axpbyPart_keeps
                  | with_reducible apply gemvPart_keeps | with_reducible apply embedPart_keeps | split)

theorem nbuPart_keeps {s0 : State} {s : State} {n : Nat} {c : NCmd} {i : Nat} (hK : Keeps s0 s) : Keeps s0
    (nbuPart s n c i).1 := by
  unfold nbuPart
  repeat' (first | with_reducible assumption | with_reducible apply bindLoadPart_keeps
                  | with_reducible apply bindClearPart_keeps | with_reducible apply auditPart_keeps
                  | with_reducible apply transposePart_keeps | simp only [keeps_mk_iff] | split)

theorem nbuTryParts_keeps {s0 : State} {n e0 e1 : Nat} {e2 : State} (hK : Keeps s0 e2) : Keeps s0
    (nbuTryParts n e0 e1 e2) := by
  induction e0 generalizing e1 e2 with
  | zero => exact hK
  | succ f ih =>
    unfold nbuTryParts
    split
    · exact hK
    · apply ih
      split
      · split
        rename_i e
        exact putCmd_keeps (keeps_fst e (nbuPart_keeps hK))
      · exact hK

theorem nbuTry_keeps {s0 : State} {s : State} {n : Nat} (hK : Keeps s0 s) : Keeps s0 (nbuTry s n) := by
  unfold nbuTry
  repeat' (first | with_reducible assumption | with_reducible apply setNbu_keeps | with_reducible apply putCmd_keeps
                  | with_reducible apply progLoad_keeps | with_reducible apply jobRead_keeps
                  | with_reducible apply nbuTryParts_keeps | simp only [keeps_mk_iff] | split)

theorem nbuIssue_keeps {s0 : State} {s : State} {i : Initiator} {n : Nat} {op : Nat} {evt : Bool} (hK : Keeps s0 s)
    : Keeps s0 (nbuIssue s i n op evt) := by
  unfold nbuIssue
  repeat' (first | with_reducible assumption | with_reducible apply violation_keeps
                  | with_reducible apply putCmd_keeps | with_reducible apply nbuTry_keeps | simp only [keeps_mk_iff]
                  | split)

theorem execJobPart_keeps {s0 : State} {n : Fin 48} {s : State} (hK : Keeps s0 s) : OutKeeps s0 (execJobPart n s)
    := by
  unfold execJobPart
  repeat' (first | with_reducible assumption | with_reducible apply putCmd_keeps
                  | with_reducible apply jobPart1_keeps | with_reducible apply outKeeps_next
                  | simp only [keeps_mk_iff] | split)

theorem execNbuCmdDone_keeps {s0 : State} {n : Fin 48} {s : State} (hK : Keeps s0 s) : OutKeeps s0
    (execNbuCmdDone n s) := by
  unfold execNbuCmdDone
  repeat' (first | with_reducible assumption | with_reducible apply wr_keeps | with_reducible apply raise_keeps
                  | with_reducible apply releasePages_keeps | with_reducible apply putCmd_keeps
                  | with_reducible apply nbuTry_keeps | with_reducible apply outKeeps_next
                  | simp only [keeps_mk_iff] | extract_lets | split)

theorem nbuAcceptEff_keeps {s0 : State} {s : State} {n : Nat} {was : Bool} {now : Bool} (hK : Keeps s0 s) : Keeps s0
    (nbuAcceptEff s n was now) := by
  unfold nbuAcceptEff
  repeat' (first | with_reducible assumption | with_reducible apply setNbu_keeps | simp only [keeps_mk_iff] | split)

theorem nbuReset_keeps {s0 : State} {s : State} {n : Nat} {cold : Bool} (hK : Keeps s0 s) : Keeps s0
    (nbuReset s n cold) := by
  unfold nbuReset
  repeat' (first | with_reducible assumption | with_reducible apply setNbu_keeps
                  | with_reducible apply releasePages_keeps | simp only [keeps_mk_iff] | split)

theorem nbuEpochLine_keeps {s0 : State} {s : State} {n : Nat} {c : CLine} (hK : Keeps s0 s) : Keeps s0
    (nbuEpochLine s n c).1 := by
  unfold nbuEpochLine
  repeat' (first | with_reducible assumption | with_reducible apply setNbu_keeps | simp only [keeps_mk_iff] | split)

theorem nbuEpochLines_keeps {s0 : State} {n : Nat} {e0 : State} {e1 : List CLine} (hK : Keeps s0 e0) : Keeps s0
    (nbuEpochLines n e0 e1).1 := by
  revert hK
  fun_induction nbuEpochLines n e0 e1 <;> intro hK
  all_goals (repeat' (first | with_reducible assumption | simp only [keeps_mk_iff]
                             | with_reducible refine keeps_fst (by assumption) ?_ | extract_lets))
  all_goals (try (apply_assumption; repeat' (first | with_reducible assumption | with_reducible apply nbuEpochLine_keeps
                                                     | with_reducible refine keeps_fst (by assumption) ?_)))

theorem nbuEpoch_keeps {s0 : State} {s : State} {n : Nat} (hK : Keeps s0 s) : Keeps s0 (nbuEpoch s n) := by
  unfold nbuEpoch
  repeat' (first | with_reducible assumption | with_reducible apply setNbu_keeps
                  | with_reducible apply resendAll_keeps | with_reducible apply nbuEpochLines_keeps
                  | simp only [keeps_mk_iff] | (with_reducible apply keeps_foldl; (try intros)))

end Sys2Proof.Machine
end

