-- ==== Sys2Proof/Laws/KeepsRelay.lean ====
section
/-! SUPPORT. What the functions of Machine/Relay.lean keep (see Laws/Keeps.lean). -/

set_option linter.unusedSimpArgs false
set_option simprocs false -- no numeral of a goal is evaluated in these proofs

namespace Sys2Proof.Machine

theorem setRly_keeps {s0 : State} {s : State} {e : Nat} {v : Rly} (hK : Keeps s0 s) : Keeps s0 (setRly s e v) := by
  unfold setRly
  repeat' (first | with_reducible assumption | simp only [keeps_mk_iff])

theorem ringPush_keeps {s0 : State} {s : State} {ini : Initiator} {piA : Nat} {ciA : Nat} {log2 : Nat} {v : Nat}
    (hK : Keeps s0 s) : Keeps s0 (ringPush s ini piA ciA log2 v) := by
  unfold ringPush
  repeat' (first | with_reducible assumption | with_reducible apply setFld_keeps
                  | with_reducible apply violation_keeps | simp only [keeps_mk_iff] | split)

theorem ringFetch_keeps {s0 : State} {s : State} {key : Nat} {base : Nat} {log2 : Nat} {ci : Nat} {n : Nat}
    (hK : Keeps s0 s) : Keeps s0 (ringFetch s key base log2 ci n).1 := by
  unfold ringFetch
  repeat' (first | with_reducible assumption | with_reducible apply ltaRead_keeps | simp only [keeps_mk_iff]
                  | with_reducible refine keeps_fst (by assumption) ?_ | split)

theorem rlyFinish_keeps {s0 : State} {s : State} {e : Nat} {b : Bytes} {r : Report} {count : Nat}
    {bstat : Option Nat} {rebuild : Bool} (hK : Keeps s0 s) : Keeps s0 (rlyFinish s e b r count bstat rebuild) := by
  unfold rlyFinish
  repeat' (first | with_reducible assumption | with_reducible apply setRly_keeps)

theorem rlyCapture_keeps {s0 : State} {s : State} {e : Nat} {st : Nat} {b : Bytes} (hK : Keeps s0 s) : Keeps s0
    (rlyCapture s e st b) := by
  unfold rlyCapture
  repeat' (first | with_reducible assumption | with_reducible apply wr_keeps | split)

theorem rlyEvent_keeps {s0 : State} {s : State} {e : Nat} {f : RFin} (hK : Keeps s0 s) : Keeps s0 (rlyEvent s e f)
    := by
  unfold rlyEvent
  repeat' (first | with_reducible assumption | with_reducible apply raise_keeps | simp only [keeps_mk_iff] | split)

theorem rlySignal_keeps {s0 : State} {s : State} {b : Bytes} (hK : Keeps s0 s) : Keeps s0 (rlySignal s b) := by
  unfold rlySignal
  repeat' (first | with_reducible assumption | with_reducible apply sbSet_keeps | split)

theorem finDuties_keeps {s0 : State} {s : State} {e : Nat} {f : RFin} (hK : Keeps s0 s) : Keeps s0 (finDuties s e f)
    := by
  unfold finDuties
  repeat' (first | with_reducible assumption | with_reducible apply rlyCapture_keeps
                  | with_reducible apply rlyEvent_keeps | with_reducible apply rlySignal_keeps
                  | simp only [keeps_mk_iff] | extract_lets | split)

theorem finOne_keeps {s0 : State} {s : State} {e : Nat} {f : RFin} (hK : Keeps s0 s) : Keeps s0 (finOne s e f).1 := by
  unfold finOne
  repeat' (first | with_reducible assumption | with_reducible apply ltaWrite_keeps
                  | with_reducible apply finDuties_keeps | simp only [keeps_mk_iff]
                  | with_reducible refine keeps_fst (by assumption) ?_ | split)

theorem runFins_keeps {s0 : State} {e : Nat} {e0 : State} {e1 : List RFin} (hK : Keeps s0 e0) : Keeps s0
    (runFins e e0 e1) := by
  revert hK
  fun_induction runFins e e0 e1 <;> intro hK
  all_goals (repeat' (first | with_reducible assumption | dsimp +zetaDelta only))
  all_goals (try (apply_assumption; repeat' (first | with_reducible assumption | with_reducible apply setRly_keeps | with_reducible apply finOne_keeps
                                                     | with_reducible refine keeps_fst (by assumption) ?_)))

theorem setBkt_keeps {s0 : State} {s : State} {e : Nat} {k : Bucket} (hK : Keeps s0 s) : Keeps s0 (setBkt s e k) := by
  unfold setBkt
  repeat' (first | with_reducible assumption | with_reducible apply setRly_keeps)

theorem setRow_keeps {s0 : State} {s : State} {e : Nat} {k : Bucket} {b : Nat} {r : RRow} (hK : Keeps s0 s) : Keeps
    s0 (setRow s e k b r) := by
  unfold setRow
  repeat' (first | with_reducible assumption | with_reducible apply setBkt_keeps)

theorem endRow_keeps {s0 : State} {s : State} {e : Nat} {tag : Nat} {b : Nat} {st : Nat} (hK : Keeps s0 s) : Keeps
    s0 (endRow s e tag b st) := by
  unfold endRow
  repeat' (first | with_reducible assumption | with_reducible apply bumpStat_keeps
                  | with_reducible apply setRly_keeps | with_reducible apply setRow_keeps | simp only [keeps_mk_iff]
                  | split)

theorem sendResends_keeps {s0 : State} {s : State} {e : Nat} {k : Bucket} {b : Nat} (hK : Keeps s0 s) : Keeps s0
    (sendResends s e k b) := by
  unfold sendResends
  repeat' (first | with_reducible assumption | with_reducible apply bumpOcc_keeps | with_reducible apply send_keeps
                  | (with_reducible apply keeps_foldl; (try intros)) | extract_lets | split)

theorem rowFailed_keeps {s0 : State} {s : State} {e : Nat} {tag : Nat} {b : Nat} {st : Nat} (hK : Keeps s0 s) :
    Keeps s0 (rowFailed s e tag b st) := by
  unfold rowFailed
  repeat' (first | with_reducible assumption | with_reducible apply bumpOcc_keeps
                  | with_reducible apply setRly_keeps | with_reducible apply setRow_keeps
                  | with_reducible apply endRow_keeps | with_reducible apply sendResends_keeps
                  | simp only [keeps_mk_iff] | split)

theorem queueRow_keeps {s0 : State} {s : State} {e : Nat} {tag : Nat} {b : Nat} (hK : Keeps s0 s) : Keeps s0
    (queueRow s e tag b) := by
  unfold queueRow
  repeat' (first | with_reducible assumption | with_reducible apply setRly_keeps | with_reducible apply setRow_keeps
                  | simp only [keeps_mk_iff] | split)

theorem rowSettle_keeps {s0 : State} {s : State} {e : Nat} {tag : Nat} {b : Nat} (hK : Keeps s0 s) : Keeps s0
    (rowSettle s e tag b) := by
  unfold rowSettle
  repeat' (first | with_reducible assumption | with_reducible apply rowFailed_keeps
                  | with_reducible apply queueRow_keeps | simp only [keeps_mk_iff] | split)

theorem takeSource_keeps {s0 : State} {s : State} {e : Nat} {tag : Nat} {b : Nat} {c : Nat} {X : Nat}
    {ms : List Int} {t : Taker} (hK : Keeps s0 s) : Keeps s0 (takeSource s e tag b c X ms t) := by
  unfold takeSource
  repeat' (first | with_reducible assumption | with_reducible apply bumpStat_keeps
                  | with_reducible apply raise_keeps | with_reducible apply bumpOcc_keeps
                  | with_reducible apply setRow_keeps | simp only [keeps_mk_iff] | extract_lets | split)

theorem ringTaken_keeps {s0 : State} {s : State} {ciA : Nat} (hK : Keeps s0 s) : Keeps s0 (ringTaken s ciA) := by
  unfold ringTaken
  repeat' (first | with_reducible assumption | with_reducible apply setFld_keeps)

theorem sqHead_keeps {s0 : State} {s : State} {e : Nat} {q : Nat} (hK : Keeps s0 s) : Keeps s0 (sqHead s e q).1 := by
  unfold sqHead
  repeat' (first | with_reducible assumption | with_reducible apply ringFetch_keeps
                  | with_reducible apply ringTaken_keeps | simp only [keeps_mk_iff]
                  | with_reducible refine keeps_fst (by assumption) ?_ | split)

theorem openTake_keeps {s0 : State} {s : State} {e : Nat} {q : Nat} {b : Bytes} (hK : Keeps s0 s) : Keeps s0
    (openTake s e q b) := by
  unfold openTake
  repeat' (first | with_reducible assumption | with_reducible apply ltaRead_keeps
                  | with_reducible apply setRly_keeps | with_reducible apply rlyFinish_keeps
                  | with_reducible apply ringTaken_keeps | simp only [keeps_mk_iff]
                  | with_reducible refine keeps_fst (by assumption) ?_ | split)

theorem sendAnswer_keeps {s0 : State} {s : State} {r : Bytes} {code : Nat} {notTaken : Nat} {bst : Nat}
    (hK : Keeps s0 s) : Keeps s0 (sendAnswer s r code notTaken bst) := by
  unfold sendAnswer
  repeat' (first | with_reducible assumption | with_reducible apply send_keeps)

theorem settleRows_keeps {s0 : State} {e : Nat} {tag : Nat} {c : Nat} {t : Taker} {e0 : State}
    {e1 : List (Nat × Nat × Nat × List Int)} (hK : Keeps s0 e0) : Keeps s0 (settleRows e tag c t e0 e1).1 := by
  revert hK
  fun_induction settleRows e tag c t e0 e1 <;> intro hK
  all_goals (repeat' (first | with_reducible assumption | simp only [keeps_mk_iff]
                             | with_reducible refine keeps_fst (by assumption) ?_ | extract_lets))
  all_goals (try (apply_assumption; repeat' (first | with_reducible assumption | with_reducible apply setRow_keeps
                                                     | with_reducible apply takeSource_keeps
                                                     | simp only [keeps_mk_iff]
                                                     | with_reducible refine keeps_fst (by assumption) ?_ | split)))

theorem contribTake_keeps {s0 : State} {s : State} {e tag c tile : Nat} {t : Taker} {k : Bucket} {r : Bytes}
    (hK : Keeps s0 s) : Keeps s0 (contribTake s e tag c tile t k r) := by
  unfold contribTake
  extract_lets s2 rows holds no s3 s4
  have h2 : Keeps s0 s2 := setBkt_keeps hK
  have h3 : Keeps s0 no.1 := settleRows_keeps h2
  have h4 : Keeps s0 s4 := sendAnswer_keeps (bumpOcc_keeps h3)
  clear_value s4 s3 no
  split
  · exact sendAnswer_keeps h2
  split
  · exact sendAnswer_keeps h2
  · exact keeps_foldl (fun s x h => rowSettle_keeps h) _ _ h4

theorem closedAnswer_keeps {s0 : State} {s : State} {r : Bytes} {step : Serial} {st : Nat} (hK : Keeps s0 s) : Keeps
    s0 (closedAnswer s r step st) := by
  unfold closedAnswer
  repeat' (first | with_reducible assumption | with_reducible apply sendAnswer_keeps | split)

theorem contribOpen_keeps {s0 : State} {s : State} {e : Nat} {tag : Nat} {c : Nat} {tile : Nat} {t : Taker}
    {k : Bucket} {r : Bytes} {step : Serial} (hK : Keeps s0 s) : Keeps s0 (contribOpen s e tag c tile t k r step)
    := by
  unfold contribOpen
  repeat' (first | with_reducible assumption | with_reducible apply sendAnswer_keeps
                  | with_reducible apply contribTake_keeps | split)

theorem contribFor_keeps {s0 : State} {s : State} {e tag c tile step : Nat} {t : Taker} {r : Bytes}
    (hK : Keeps s0 s) : Keeps s0 (contribFor s e tag c tile step t r) := by
  unfold contribFor
  cases bktOf s e tag with
  | none =>
    cases smGet none (rlyOf s e).closed tag with
    | none => exact sendAnswer_keeps hK
    | some k => exact closedAnswer_keeps hK
  | some k => exact contribOpen_keeps hK

theorem contribEff_keeps {s0 : State} {s : State} {e : Nat} {r : Bytes} (hK : Keeps s0 s) : Keeps s0
    (contribEff s e r) := by
  unfold contribEff
  repeat' (first | with_reducible assumption | with_reducible apply bumpStat_keeps
                  | with_reducible apply sendAnswer_keeps | with_reducible apply contribFor_keeps
                  | simp only [keeps_mk_iff] | split)

theorem takeHeld_keeps {s0 : State} {e : Nat} {tag : Nat} {b : Nat} {s : State} {x : Nat × Option HeldSub}
    (hK : Keeps s0 s) : Keeps s0 (takeHeld e tag b s x) := by
  unfold takeHeld
  repeat' (first | with_reducible assumption | with_reducible apply setRow_keeps
                  | with_reducible apply takeSource_keeps | simp only [keeps_mk_iff] | split)

theorem deadlineEff_keeps {s0 : State} {s : State} {e : Nat} {tag : Nat} (hK : Keeps s0 s) : Keeps s0
    (deadlineEff s e tag) := by
  unfold deadlineEff
  repeat' (first | with_reducible assumption | with_reducible apply raise_keeps | with_reducible apply setBkt_keeps
                  | with_reducible apply rowSettle_keeps | with_reducible apply takeHeld_keeps
                  | simp only [keeps_mk_iff] | (with_reducible apply keeps_foldl; (try intros)) | split)

theorem hardEff_keeps {s0 : State} {s : State} {e : Nat} {tag : Nat} (hK : Keeps s0 s) : Keeps s0 (hardEff s e tag)
    := by
  unfold hardEff
  repeat' (first | with_reducible assumption | with_reducible apply endRow_keeps
                  | (with_reducible apply keeps_foldl; (try intros)) | split)

theorem deliverNext_keeps {s0 : State} {s : State} {e : Nat} {e0 : List (Nat × Nat)} (hK : Keeps s0 s) : Keeps s0
    (deliverNext s e e0) := by
  revert hK
  fun_induction deliverNext s e e0 <;> intro hK
  all_goals (repeat' (first | with_reducible assumption | with_reducible apply setNbu_keeps | with_reducible apply setRly_keeps
                             | with_reducible apply setRow_keeps | with_reducible apply endRow_keeps
                             | with_reducible apply rowFailed_keeps | simp only [keeps_mk_iff]))
  all_goals (try (apply_assumption; repeat' (with_reducible assumption)))

theorem resendRow_keeps {s0 : State} {s : State} {e : Nat} {tag : Nat} {b : Nat} (hK : Keeps s0 s) : Keeps s0
    (resendRow s e tag b) := by
  unfold resendRow
  repeat' (first | with_reducible assumption | with_reducible apply bumpOcc_keeps
                  | with_reducible apply queueRow_keeps)

theorem nbuAnswerEff_keeps {s0 : State} {s : State} {e : Nat} {a : Bytes} (hK : Keeps s0 s) : Keeps s0
    (nbuAnswerEff s e a) := by
  unfold nbuAnswerEff
  repeat' (first | with_reducible assumption | with_reducible apply raise_keeps | with_reducible apply setRly_keeps
                  | with_reducible apply setRow_keeps | with_reducible apply endRow_keeps
                  | with_reducible apply rowFailed_keeps | with_reducible apply resendRow_keeps
                  | simp only [keeps_mk_iff] | split)

theorem cancelRows_keeps {s0 : State} {s : State} {e : Nat} {k : Bucket} (hK : Keeps s0 s) : Keeps s0
    (cancelRows s e k) := by
  unfold cancelRows
  repeat' (first | with_reducible assumption | with_reducible apply endRow_keeps
                  | (with_reducible apply keeps_foldl; (try intros)))

theorem releaseRows_keeps {s0 : State} {s : State} {e : Nat} {k : Bucket} {again : Bool} (hK : Keeps s0 s) : Keeps
    s0 (releaseRows s e k again) := by
  unfold releaseRows
  repeat' (first | with_reducible assumption | with_reducible apply endRow_keeps
                  | with_reducible apply resendRow_keeps | (with_reducible apply keeps_foldl; (try intros))
                  | extract_lets | split)

theorem sendDone_keeps {s0 : State} {s : State} {d : RDone} (hK : Keeps s0 s) : Keeps s0 (sendDone s d) := by
  unfold sendDone
  repeat' (first | with_reducible assumption | with_reducible apply send_keeps)

theorem optWrite_keeps {s0 : State} {s : State} {key : Nat} {addr : Nat} {bs : Bytes} (hK : Keeps s0 s) : Keeps s0
    (optWrite s key addr bs).1 := by
  unfold optWrite
  repeat' (first | with_reducible assumption | with_reducible apply ltaWrite_keeps | simp only [keeps_mk_iff]
                  | with_reducible refine keeps_fst (by assumption) ?_ | split)

theorem closeBucket_keeps {s0 : State} {e : Nat} {s : State} {k : Bucket} (hK : Keeps s0 s) : Keeps s0
    (closeBucket e s k) := by
  unfold closeBucket
  repeat' (first | with_reducible assumption | with_reducible apply setRly_keeps
                  | with_reducible apply rlyFinish_keeps | with_reducible apply sendDone_keeps
                  | with_reducible apply optWrite_keeps | simp only [keeps_mk_iff]
                  | with_reducible refine keeps_fst (by assumption) ?_
                  | (with_reducible apply keeps_foldl; (try intros)) | split)

end Sys2Proof.Machine
end

