-- ==== Sys2Proof/Laws/KeepsRelaySend.lean ====
section
/-! SUPPORT. What the functions of Machine/RelaySend.lean keep (see Laws/Keeps.lean). -/

set_option linter.unusedSimpArgs false
set_option simprocs false -- no numeral of a goal is evaluated in these proofs

namespace Sys2Proof.Machine

theorem stageTile_keeps {s0 : State} {s : State} {e : Nat} {x : RSend} {j : Nat} {mask : Nat} (hK : Keeps s0 s) :
    Keeps s0 (stageTile s e x j mask).1 := by
  unfold stageTile
  repeat' (first | with_reducible assumption | with_reducible apply ltaRead_keeps | simp only [keeps_mk_iff]
                  | with_reducible refine keeps_fst (by assumption) ?_ | split)

theorem setSend_keeps {s0 : State} {s : State} {e : Nat} {x : RSend} (hK : Keeps s0 s) : Keeps s0 (setSend s e x)
    := by
  unfold setSend
  repeat' (first | with_reducible assumption | with_reducible apply setRly_keeps)

theorem sendContrib_keeps {s0 : State} {s : State} {e : Nat} {dev : Nat} {r : Bytes} (hK : Keeps s0 s) : Keeps s0
    (sendContrib s e dev r) := by
  unfold sendContrib
  repeat' (first | with_reducible assumption | with_reducible apply bumpStat_keeps | with_reducible apply send_keeps)

theorem runRecs_keeps {s0 : State} {e : Nat} {e0 : State} {e1 : RSend} {e2 : List CRec} {e3 : List CRec}
    (hK : Keeps s0 e0) : Keeps s0 (runRecs e e0 e1 e2 e3) := by
  induction e3 generalizing e0 e1 e2 with
  | nil => exact setSend_keeps hK
  | cons r rs ih =>
    unfold runRecs
    split
    · exact ih hK
    split
    · rename_i eq; exact ih (keeps_fst eq (stageTile_keeps hK))
    · rename_i eq
      have h := keeps_fst eq (stageTile_keeps hK)
      split
      · exact ih h
      · exact ih (sendContrib_keeps h)

theorem completeSend_keeps {s0 : State} {s : State} {e : Nat} {x : RSend} (hK : Keeps s0 s) : Keeps s0
    (completeSend s e x) := by
  unfold completeSend
  repeat' (first | with_reducible assumption | with_reducible apply setRly_keeps
                  | with_reducible apply rlyFinish_keeps)

theorem checkSend_keeps {s0 : State} {e : Nat} {s : State} {x : RSend} (hK : Keeps s0 s) : Keeps s0
    (checkSend e s x) := by
  unfold checkSend
  repeat' (first | with_reducible assumption | with_reducible apply completeSend_keeps | split)

theorem sendSector_keeps {s0 : State} {s : State} {e : Nat} {x : RbEnt} {k : Nat} {sends : Nat} (hK : Keeps s0 s) :
    Keeps s0 (sendSector s e x k sends) := by
  unfold sendSector
  repeat' (first | with_reducible assumption | with_reducible apply send_keeps | with_reducible apply setRly_keeps)

theorem startSectors_keeps {s0 : State} {e : Nat} {x : RbEnt} {e0 : State} {e1 : List Nat} (hK : Keeps s0 e0) :
    Keeps s0 (startSectors e x e0 e1) := by
  revert hK
  fun_induction startSectors e x e0 e1 <;> intro hK
  all_goals (repeat' (with_reducible assumption))
  all_goals (try (apply_assumption; repeat' (first | with_reducible assumption | with_reducible apply sendSector_keeps)))

theorem checkRebuild_keeps {s0 : State} {e : Nat} {s : State} {x : RbEnt} (hK : Keeps s0 s) : Keeps s0
    (checkRebuild e s x) := by
  unfold checkRebuild
  repeat' (first | with_reducible assumption | with_reducible apply setRly_keeps
                  | with_reducible apply rlyFinish_keeps | with_reducible apply startSectors_keeps
                  | simp only [keeps_mk_iff] | split)

theorem rlyWork_keeps {s0 : State} {s : State} {e : Nat} (hK : Keeps s0 s) : Keeps s0 (rlyWork s e) := by
  unfold rlyWork
  repeat' (first | with_reducible assumption | with_reducible apply runFins_keeps
                  | with_reducible apply closeBucket_keeps | with_reducible apply runRecs_keeps
                  | with_reducible apply checkSend_keeps | with_reducible apply checkRebuild_keeps
                  | simp only [keeps_mk_iff] | (with_reducible apply keeps_foldl; (try intros)) | split)

theorem probeAnswer_keeps {s0 : State} {s : State} {e : Nat} {x : RSend} {a : Bytes} (hK : Keeps s0 s) : Keeps s0
    (probeAnswer s e x a) := by
  unfold probeAnswer
  repeat' (first | with_reducible assumption | with_reducible apply setSend_keeps
                  | with_reducible apply completeSend_keeps | simp only [keeps_mk_iff] | split)

theorem answerEff_keeps {s0 : State} {s : State} {e : Nat} {a : Bytes} (hK : Keeps s0 s) : Keeps s0
    (answerEff s e a) := by
  unfold answerEff
  repeat' (first | with_reducible assumption | with_reducible apply setSend_keeps
                  | with_reducible apply probeAnswer_keeps | simp only [keeps_mk_iff] | split)

theorem resendEff_keeps {s0 : State} {s : State} {e : Nat} {a : Bytes} (hK : Keeps s0 s) : Keeps s0
    (resendEff s e a) := by
  unfold resendEff
  repeat' (first | with_reducible assumption | with_reducible apply setSend_keeps | split)

theorem doneEff_keeps {s0 : State} {s : State} {e : Nat} {a : Bytes} (hK : Keeps s0 s) : Keeps s0 (doneEff s e a)
    := by
  unfold doneEff
  repeat' (first | with_reducible assumption | with_reducible apply send_keeps | with_reducible apply setRly_keeps)

theorem doneAckEff_keeps {s0 : State} {s : State} {e : Nat} {a : Bytes} (hK : Keeps s0 s) : Keeps s0
    (doneAckEff s e a) := by
  unfold doneAckEff
  repeat' (first | with_reducible assumption | with_reducible apply setRly_keeps)

theorem hopFail_keeps {s0 : State} {s : State} {e : Nat} {x : RSend} (hK : Keeps s0 s) : Keeps s0 (hopFail s e x)
    := by
  unfold hopFail
  repeat' (first | with_reducible assumption | with_reducible apply raise_keeps)

theorem quietSector_keeps {s0 : State} {s : State} {p : Nat} {k : Nat} (hK : Keeps s0 s) : Keeps s0
    (quietSector s p k).1 := by
  have h' : Keeps s0 (touchCache (bumpStat s Csr.PLC_LOOKUPS 1 (some plcIdx)) p) := touchCache_keeps (bumpStat_keeps hK)
  unfold quietSector
  extract_lets e s' hd deep hf fast
  have kd : Keeps s0 hd.s := deepSector_keeps (bumpStat_keeps h')
  have kf : Keeps s0 hf.s := frameRead_keeps h'
  have k2 : Keeps s0 s' := h'
  clear_value hd hf
  have d : Keeps s0 deep.1 := by
    by_cases hc : ¬ stkOpen s (12 + dgaStack e.dga) = true
    · have : deep = (s, none) := if_pos hc
      rw [this]; exact keeps_pair hK
    · have : deep = (hd.s, some { hd with s := reportBad hd.s p hd.st hd.loc }) := if_neg hc
      rw [this]; exact keeps_pair kd
  have f : Keeps s0 fast.1 := by
    by_cases hc : ¬ frameOpen s (entFrame e) (k * 4096) 4096 = true
    · have : fast = (s, none) := if_pos hc
      rw [this]; exact keeps_pair hK
    · have : fast = (hf.s, some { hf with s := reportBad hf.s p hf.st hf.loc }) := if_neg hc
      rw [this]; exact keeps_pair kf
  clear_value fast deep s'
  repeat' (first | exact hK | exact k2 | exact d | exact f | split)

theorem quietSector_hit {s0 : State} {s : State} {p : Nat} {k : Nat} (hK : Keeps s0 s) : ∀ h, (quietSector s p k).2
    = some h → Keeps s0 h.s := by
  have h' : Keeps s0 (touchCache (bumpStat s Csr.PLC_LOOKUPS 1 (some plcIdx)) p) := touchCache_keeps (bumpStat_keeps hK)
  unfold quietSector
  extract_lets e s' hd deep hf fast
  have k' : Keeps s0 s' := h'
  have kd : Keeps s0 (reportBad hd.s p hd.st hd.loc) := reportBad_keeps (deepSector_keeps (bumpStat_keeps h'))
  have kf : Keeps s0 (reportBad hf.s p hf.st hf.loc) := reportBad_keeps (frameRead_keeps h')
  clear_value hd hf
  have d : ∀ h, deep.2 = some h → Keeps s0 h.s := by
    intro h hh
    by_cases hc : ¬ stkOpen s (12 + dgaStack e.dga) = true
    · have : deep = (s, none) := if_pos hc
      rw [this] at hh; cases hh
    · have : deep = (hd.s, some { hd with s := reportBad hd.s p hd.st hd.loc }) := if_neg hc
      rw [this] at hh; cases hh; exact kd
  have f : ∀ h, fast.2 = some h → Keeps s0 h.s := by
    intro h hh
    by_cases hc : ¬ frameOpen s (entFrame e) (k * 4096) 4096 = true
    · have : fast = (s, none) := if_pos hc
      rw [this] at hh; cases hh
    · have : fast = (hf.s, some { hf with s := reportBad hf.s p hf.st hf.loc }) := if_neg hc
      rw [this] at hh; cases hh; exact kf
  clear_value fast deep s'
  split
  · intro h e; cases e
  split
  · intro h e; cases e; exact hK
  split
  · intro h e; cases e; exact k'
  · intro h e; cases e; exact k'
  · intro h e; cases e; exact k'
  · exact d
  · split
    · split
      · exact d
      · exact f
    · exact f
  · exact f

theorem xpartEff_keeps {s0 : State} {s : State} {e : Nat} {r : Bytes} (hK : Keeps s0 s) : Keeps s0 (xpartEff s e r)
    := by
  unfold xpartEff
  extract_lets w hop c pass
  have hp : ∀ x st d, Keeps s0 x → Keeps s0 (pass x st d) := fun x st d h => send_keeps h
  split
  · exact hK
  split
  · exact hp _ _ _ hK
  split
  · rename_i eq; exact keeps_fst eq (quietSector_keeps hK)
  · rename_i eq
    have h := quietSector_hit hK _ (congrArg Prod.snd eq)
    split <;> exact hp _ _ _ h

theorem endSector_keeps {s0 : State} {s : State} {e : Nat} {o : XOut} {st : Nat} (hK : Keeps s0 s) : Keeps s0
    (endSector s e o st) := by
  unfold endSector
  repeat' (first | with_reducible assumption | with_reducible apply bumpStat_keeps
                  | with_reducible apply setRly_keeps | simp only [keeps_mk_iff] | split)

theorem xpartReturnEff_keeps {s0 : State} {s : State} {e : Nat} {r : Bytes} {ext : Ext} (hK : Keeps s0 s) : Keeps s0
    (xpartReturnEff s e r ext) := by
  unfold xpartReturnEff
  repeat' (first | with_reducible assumption | with_reducible apply ltaWrite_keeps
                  | with_reducible apply endSector_keeps | simp only [keeps_mk_iff]
                  | with_reducible refine keeps_fst (by assumption) ?_ | split)

theorem execRlyOpen_keeps {s0 : State} {e : Fin 2} {q : Fin 16} {s : State} (hK : Keeps s0 s) : OutKeeps s0
    (execRlyOpen e q s) := by
  unfold execRlyOpen
  repeat' (first | with_reducible assumption | with_reducible apply sqHead_keeps
                  | with_reducible apply openTake_keeps | with_reducible apply rlyWork_keeps
                  | with_reducible apply outKeeps_next | with_reducible refine keeps_fst (by assumption) ?_ | split)

theorem execRlySend_keeps {s0 : State} {e : Fin 2} {q : Fin 16} {s : State} (hK : Keeps s0 s) : OutKeeps s0
    (execRlySend e q s) := by
  unfold execRlySend
  repeat' (first | with_reducible assumption | with_reducible apply setRly_keeps
                  | with_reducible apply rlyFinish_keeps | with_reducible apply ringTaken_keeps
                  | with_reducible apply sqHead_keeps | with_reducible apply rlyWork_keeps
                  | with_reducible apply outKeeps_next | simp only [keeps_mk_iff]
                  | with_reducible refine keeps_fst (by assumption) ?_ | split)

theorem cancelEff_keeps {s0 : State} {s : State} {e : Nat} {b : Bytes} (hK : Keeps s0 s) : Keeps s0
    (cancelEff s e b) := by
  unfold cancelEff
  repeat' (first | with_reducible assumption | with_reducible apply cancelRows_keeps
                  | with_reducible apply completeSend_keeps | simp only [keeps_mk_iff]
                  | (with_reducible apply keeps_foldl; (try intros)) | extract_lets | split)

theorem execRlyCancel_keeps {s0 : State} {e : Fin 2} {q : Fin 16} {s : State} (hK : Keeps s0 s) : OutKeeps s0
    (execRlyCancel e q s) := by
  unfold execRlyCancel
  repeat' (first | with_reducible assumption | with_reducible apply rlyFinish_keeps
                  | with_reducible apply ringTaken_keeps | with_reducible apply sqHead_keeps
                  | with_reducible apply rlyWork_keeps | with_reducible apply cancelEff_keeps
                  | with_reducible apply outKeeps_next | simp only [keeps_mk_iff]
                  | with_reducible refine keeps_fst (by assumption) ?_ | extract_lets | split)

theorem execRlyRelease_keeps {s0 : State} {e : Fin 2} {q : Fin 16} {s : State} (hK : Keeps s0 s) : OutKeeps s0
    (execRlyRelease e q s) := by
  unfold execRlyRelease
  repeat' (first | with_reducible assumption | with_reducible apply rlyFinish_keeps
                  | with_reducible apply ringTaken_keeps | with_reducible apply sqHead_keeps
                  | with_reducible apply releaseRows_keeps | with_reducible apply rlyWork_keeps
                  | with_reducible apply outKeeps_next | simp only [keeps_mk_iff]
                  | with_reducible refine keeps_fst (by assumption) ?_ | extract_lets | split)

theorem execContribReceive_keeps {s0 : State} {e : Fin 2} {r : Bytes} {s : State} (hK : Keeps s0 s) : OutKeeps s0
    (execContribReceive e r s) := by
  unfold execContribReceive
  repeat' (first | with_reducible assumption | with_reducible apply contribEff_keeps
                  | with_reducible apply rlyWork_keeps | with_reducible apply outKeeps_next | split)

theorem execAnswerReceive_keeps {s0 : State} {e : Fin 2} {r : Bytes} {s : State} (hK : Keeps s0 s) : OutKeeps s0
    (execAnswerReceive e r s) := by
  unfold execAnswerReceive
  repeat' (first | with_reducible assumption | with_reducible apply rlyWork_keeps
                  | with_reducible apply answerEff_keeps | with_reducible apply outKeeps_next | split)

theorem execResendReceive_keeps {s0 : State} {e : Fin 2} {r : Bytes} {s : State} (hK : Keeps s0 s) : OutKeeps s0
    (execResendReceive e r s) := by
  unfold execResendReceive
  repeat' (first | with_reducible assumption | with_reducible apply rlyWork_keeps
                  | with_reducible apply resendEff_keeps | with_reducible apply outKeeps_next | split)

theorem execDoneReceive_keeps {s0 : State} {e : Fin 2} {r : Bytes} {s : State} (hK : Keeps s0 s) : OutKeeps s0
    (execDoneReceive e r s) := by
  unfold execDoneReceive
  repeat' (first | with_reducible assumption | with_reducible apply rlyWork_keeps
                  | with_reducible apply doneEff_keeps | with_reducible apply outKeeps_next | split)

theorem execDoneAckReceive_keeps {s0 : State} {e : Fin 2} {r : Bytes} {s : State} (hK : Keeps s0 s) : OutKeeps s0
    (execDoneAckReceive e r s) := by
  unfold execDoneAckReceive
  repeat' (first | with_reducible assumption | with_reducible apply rlyWork_keeps
                  | with_reducible apply doneAckEff_keeps | with_reducible apply outKeeps_next | split)

theorem execRlyHopTimeout_keeps {s0 : State} {e : Fin 2} {n : Nat} {s : State} (hK : Keeps s0 s) : OutKeeps s0
    (execRlyHopTimeout e n s) := by
  unfold execRlyHopTimeout
  repeat' (first | with_reducible assumption | with_reducible apply setSend_keeps
                  | with_reducible apply sendContrib_keeps | with_reducible apply rlyWork_keeps
                  | with_reducible apply hopFail_keeps | with_reducible apply outKeeps_next
                  | simp only [keeps_mk_iff] | split)

theorem execRlyRetryTimer_keeps {s0 : State} {e : Fin 2} {n : Nat} {s : State} (hK : Keeps s0 s) : OutKeeps s0
    (execRlyRetryTimer e n s) := by
  unfold execRlyRetryTimer
  repeat' (first | with_reducible assumption | with_reducible apply resendRow_keeps
                  | with_reducible apply setSend_keeps | with_reducible apply sendContrib_keeps
                  | with_reducible apply rlyWork_keeps | with_reducible apply outKeeps_next
                  | simp only [keeps_mk_iff] | split)

theorem execBucketDeadline_keeps {s0 : State} {e : Fin 2} {tag : Nat} {s : State} (hK : Keeps s0 s) : OutKeeps s0
    (execBucketDeadline e tag s) := by
  unfold execBucketDeadline
  repeat' (first | with_reducible assumption | with_reducible apply deadlineEff_keeps
                  | with_reducible apply rlyWork_keeps | with_reducible apply outKeeps_next | split)

theorem execBucketHardLimit_keeps {s0 : State} {e : Fin 2} {tag : Nat} {s : State} (hK : Keeps s0 s) : OutKeeps s0
    (execBucketHardLimit e tag s) := by
  unfold execBucketHardLimit
  repeat' (first | with_reducible assumption | with_reducible apply hardEff_keeps
                  | with_reducible apply rlyWork_keeps | with_reducible apply outKeeps_next | split)

theorem execRowDeliver_keeps {s0 : State} {e : Fin 2} {s : State} (hK : Keeps s0 s) : OutKeeps s0
    (execRowDeliver e s) := by
  unfold execRowDeliver
  repeat' (first | with_reducible assumption | with_reducible apply deliverNext_keeps
                  | with_reducible apply rlyWork_keeps | with_reducible apply outKeeps_next | split)

theorem execNbuAnswerReceive_keeps {s0 : State} {e : Fin 2} {answer : Bytes} {s : State} (hK : Keeps s0 s) :
    OutKeeps s0 (execNbuAnswerReceive e answer s) := by
  unfold execNbuAnswerReceive
  repeat' (first | with_reducible assumption | with_reducible apply nbuAnswerEff_keeps
                  | with_reducible apply rlyWork_keeps | with_reducible apply outKeeps_next
                  | simp only [keeps_mk_iff] | split)

theorem execDeliveryTimeout_keeps {s0 : State} {e : Fin 2} {tag : Nat} {row : Nat} {s : State} (hK : Keeps s0 s) :
    OutKeeps s0 (execDeliveryTimeout e tag row s) := by
  unfold execDeliveryTimeout
  repeat' (first | with_reducible assumption | with_reducible apply resendRow_keeps
                  | with_reducible apply rlyWork_keeps | with_reducible apply outKeeps_next | split)

theorem execDoneRepeat_keeps {s0 : State} {e : Fin 2} {n : Nat} {s : State} (hK : Keeps s0 s) : OutKeeps s0
    (execDoneRepeat e n s) := by
  unfold execDoneRepeat
  repeat' (first | with_reducible assumption | with_reducible apply setRly_keeps
                  | with_reducible apply sendDone_keeps | with_reducible apply rlyWork_keeps
                  | with_reducible apply outKeeps_next | simp only [keeps_mk_iff] | split)

theorem execSendProbe_keeps {s0 : State} {e : Fin 2} {n : Nat} {s : State} (hK : Keeps s0 s) : OutKeeps s0
    (execSendProbe e n s) := by
  unfold execSendProbe
  repeat' (first | with_reducible assumption | with_reducible apply stageTile_keeps
                  | with_reducible apply setSend_keeps | with_reducible apply sendContrib_keeps
                  | with_reducible apply completeSend_keeps | with_reducible apply rlyWork_keeps
                  | with_reducible apply hopFail_keeps | with_reducible apply outKeeps_next
                  | simp only [keeps_mk_iff] | with_reducible refine keeps_fst (by assumption) ?_ | extract_lets
                  | split)

theorem execRebuildEntry_keeps {s0 : State} {e : Fin 2} {s : State} (hK : Keeps s0 s) : OutKeeps s0
    (execRebuildEntry e s) := by
  unfold execRebuildEntry
  repeat' (first | with_reducible assumption | with_reducible apply setRly_keeps
                  | with_reducible apply ringFetch_keeps | with_reducible apply rlyFinish_keeps
                  | with_reducible apply ringTaken_keeps | with_reducible apply rlyWork_keeps
                  | with_reducible apply outKeeps_next | simp only [keeps_mk_iff]
                  | with_reducible refine keeps_fst (by assumption) ?_ | extract_lets | split)

theorem execXpartReceive_keeps {s0 : State} {e : Fin 2} {r : Bytes} {s : State} (hK : Keeps s0 s) : OutKeeps s0
    (execXpartReceive e r s) := by
  unfold execXpartReceive
  repeat' (first | with_reducible assumption | with_reducible apply rlyWork_keeps
                  | with_reducible apply xpartEff_keeps | with_reducible apply outKeeps_next | split)

theorem execXpartReturn_keeps {s0 : State} {e : Fin 2} {r : Bytes} {ext : Ext} {s : State} (hK : Keeps s0 s) :
    OutKeeps s0 (execXpartReturn e r ext s) := by
  unfold execXpartReturn
  repeat' (first | with_reducible assumption | with_reducible apply rlyWork_keeps
                  | with_reducible apply xpartReturnEff_keeps | with_reducible apply outKeeps_next | split)

theorem execXpartTimeout_keeps {s0 : State} {e : Fin 2} {token : Nat} {s : State} (hK : Keeps s0 s) : OutKeeps s0
    (execXpartTimeout e token s) := by
  unfold execXpartTimeout
  repeat' (first | with_reducible assumption | with_reducible apply setRly_keeps
                  | with_reducible apply sendSector_keeps | with_reducible apply rlyWork_keeps
                  | with_reducible apply endSector_keeps | with_reducible apply outKeeps_next
                  | simp only [keeps_mk_iff] | split)

theorem rlyReset_keeps {s0 : State} {s : State} (hK : Keeps s0 s) : Keeps s0 (rlyReset s) := by
  unfold rlyReset
  repeat' (first | with_reducible assumption | simp only [keeps_mk_iff])

theorem rlySqPi_keeps {s0 : State} {s : State} {ini : Initiator} {e : Nat} {q : Nat} {v : Nat} (hK : Keeps s0 s) :
    Keeps s0 (rlySqPi s ini e q v) := by
  unfold rlySqPi
  repeat' (first | with_reducible assumption | with_reducible apply ringPush_keeps)

theorem rlyRbPi_keeps {s0 : State} {s : State} {ini : Initiator} {e : Nat} {v : Nat} (hK : Keeps s0 s) : Keeps s0
    (rlyRbPi s ini e v) := by
  unfold rlyRbPi
  repeat' (first | with_reducible assumption | with_reducible apply ringPush_keeps)

end Sys2Proof.Machine
end

