-- ==== Sys2Proof/Laws/KeepsMediaJobs.lean ====
section
/-! SUPPORT. What the functions of Machine/MediaJobs.lean keep (see Laws/Keeps.lean). -/

set_option linter.unusedSimpArgs false
set_option simprocs false -- no numeral of a goal is evaluated in these proofs

namespace Sys2Proof.Machine

theorem setMedJob_keeps {s0 : State} {s : State} {e : Nat} {j : Option MedJob} (hK : Keeps s0 s) : Keeps s0
    (setMedJob s e j) := by
  unfold setMedJob
  repeat' (first | with_reducible assumption | simp only [keeps_mk_iff])

theorem medComplete_keeps {s0 : State} {s : State} {ring : Nat} {b : Bytes} {r : Report} {count : Nat}
    (hK : Keeps s0 s) : Keeps s0 (medComplete s ring b r count).1 := by
  unfold medComplete
  repeat' (first | with_reducible assumption | with_reducible apply raise_keeps
                  | with_reducible apply ltaWrite_keeps | with_reducible apply rlySignal_keeps
                  | simp only [keeps_mk_iff] | with_reducible refine keeps_fst (by assumption) ?_ | extract_lets
                  | split)

theorem medHead_keeps {s0 : State} {s : State} {r : Nat} (hK : Keeps s0 s) : Keeps s0 (medHead s r).1 := by
  unfold medHead
  repeat' (first | with_reducible assumption | with_reducible apply ringFetch_keeps
                  | with_reducible apply ringTaken_keeps | simp only [keeps_mk_iff]
                  | with_reducible refine keeps_fst (by assumption) ?_ | split)

theorem medTaken_keeps {s0 : State} {s : State} {r : Nat} (hK : Keeps s0 s) : Keeps s0 (medTaken s r) := by
  unfold medTaken
  repeat' (first | with_reducible assumption | with_reducible apply ringTaken_keeps)

theorem decodeEvents_keeps {s0 : State} {s : State} {e : Nat} {j : MedJob} (hK : Keeps s0 s) : Keeps s0
    (decodeEvents s e j) := by
  unfold decodeEvents
  repeat' (first | with_reducible assumption | with_reducible apply bumpStat_keeps
                  | with_reducible apply raise_keeps | with_reducible apply bumpOcc_keeps | simp only [keeps_mk_iff]
                  | extract_lets | split)

theorem execIngest_keeps {s0 : State} {r : Fin 8} {d : Decoded} {s : State} (hK : Keeps s0 s) : OutKeeps s0
    (execIngest r d s) := by
  unfold execIngest
  repeat' (first | with_reducible assumption | with_reducible apply ltaRead_keeps
                  | with_reducible apply setMedJob_keeps | with_reducible apply medHead_keeps
                  | with_reducible apply medTaken_keeps | with_reducible apply decodeEvents_keeps
                  | with_reducible apply outKeeps_next | simp only [keeps_mk_iff]
                  | with_reducible refine keeps_fst (by assumption) ?_ | extract_lets | split)

theorem execIngestFrame_keeps {s0 : State} {e : Fin 32} {ext : Ext} {s : State} (hK : Keeps s0 s) : OutKeeps s0
    (execIngestFrame e ext s) := by
  unfold execIngestFrame
  repeat' (first | with_reducible assumption | with_reducible apply wr_keeps | with_reducible apply bumpStat_keeps
                  | with_reducible apply bumpOcc_keeps | with_reducible apply ltaWrite_keeps
                  | with_reducible apply setMedJob_keeps | with_reducible apply outKeeps_next
                  | simp only [keeps_mk_iff] | with_reducible refine keeps_fst (by assumption) ?_ | extract_lets
                  | split)

theorem execIngestJobDone_keeps {s0 : State} {e : Fin 32} {_ext : Ext} {s : State} (hK : Keeps s0 s) : OutKeeps s0
    (execIngestJobDone e _ext s) := by
  unfold execIngestJobDone
  repeat' (first | with_reducible assumption | with_reducible apply ltaWrite_keeps
                  | with_reducible apply setMedJob_keeps | with_reducible apply medComplete_keeps
                  | with_reducible apply outKeeps_next | simp only [keeps_mk_iff]
                  | with_reducible refine keeps_fst (by assumption) ?_ | extract_lets | split)

theorem execMedCancel_keeps {s0 : State} {r : Fin 8} {s : State} (hK : Keeps s0 s) : OutKeeps s0 (execMedCancel r s)
    := by
  unfold execMedCancel
  repeat' (first | with_reducible assumption | with_reducible apply medComplete_keeps
                  | with_reducible apply medHead_keeps | with_reducible apply medTaken_keeps
                  | with_reducible apply outKeeps_next | simp only [keeps_mk_iff]
                  | with_reducible refine keeps_fst (by assumption) ?_ | split)

theorem execShuf_keeps {s0 : State} {r : Fin 8} {s : State} (hK : Keeps s0 s) : OutKeeps s0 (execShuf r s) := by
  unfold execShuf
  repeat' (first | with_reducible assumption | with_reducible apply ltaRead_keeps
                  | with_reducible apply medHead_keeps | with_reducible apply medTaken_keeps
                  | with_reducible apply outKeeps_next | simp only [keeps_mk_iff]
                  | with_reducible refine keeps_fst (by assumption) ?_ | split)

theorem shufFinish_keeps {s0 : State} {s : State} {x : ShufJob} (hK : Keeps s0 s) : Keeps s0 (shufFinish s x) := by
  unfold shufFinish
  repeat' (first | with_reducible assumption | with_reducible apply medComplete_keeps | simp only [keeps_mk_iff]
                  | with_reducible refine keeps_fst (by assumption) ?_ | split)

theorem execShufJobGenerate_keeps {s0 : State} {s : State} (hK : Keeps s0 s) : OutKeeps s0 (execShufJobGenerate s)
    := by
  unfold execShufJobGenerate
  repeat' (first | with_reducible assumption | with_reducible apply setFld_keeps
                  | with_reducible apply bumpStat_keeps | with_reducible apply ltaRead_keeps
                  | with_reducible apply ltaWrite_keeps | with_reducible apply shufFinish_keeps
                  | with_reducible apply outKeeps_next | simp only [keeps_mk_iff]
                  | with_reducible refine keeps_fst (by assumption) ?_ | extract_lets | split)

theorem medSqPi_keeps {s0 : State} {s : State} {ini : Initiator} {r : Nat} {v : Nat} (hK : Keeps s0 s) : Keeps s0
    (medSqPi s ini r v) := by
  unfold medSqPi
  repeat' (first | with_reducible assumption | with_reducible apply ringPush_keeps)

theorem medReset_keeps {s0 : State} {s : State} (hK : Keeps s0 s) : Keeps s0 (medReset s) := by
  unfold medReset
  repeat' (first | with_reducible assumption | simp only [keeps_mk_iff])

end Sys2Proof.Machine
end

