-- ==== Sys2Proof/Laws/KeepsLink.lean ====
section
/-! SUPPORT. What the functions of Machine/Link.lean keep (see Laws/Keeps.lean). -/

set_option linter.unusedSimpArgs false
set_option simprocs false -- no numeral of a goal is evaluated in these proofs

namespace Sys2Proof.Machine

theorem setLink_keeps {s0 : State} {s : State} {l : Nat} {v : Link} (hK : Keeps s0 s) : Keeps s0 (setLink s l v) := by
  unfold setLink
  repeat' (first | with_reducible assumption | simp only [keeps_mk_iff])

theorem emit_keeps {s0 : State} {s : State} {l : Nat} {f : Flit} (hK : Keeps s0 s) : Keeps s0 (emit s l f) := by
  unfold emit
  repeat' (first | with_reducible assumption | with_reducible apply setLink_keeps)

theorem linkQueue_keeps {s0 : State} {s : State} {l : Nat} {vc : Nat} {hc : Nat} {bs : Bytes} (hK : Keeps s0 s) :
    Keeps s0 (linkQueue s l vc hc bs) := by
  unfold linkQueue
  repeat' (first | with_reducible assumption | with_reducible apply setLink_keeps)

theorem emitInit_keeps {s0 : State} {s : State} {l : Nat} (hK : Keeps s0 s) : Keeps s0 (emitInit s l) := by
  unfold emitInit
  repeat' (first | with_reducible assumption | with_reducible apply emit_keeps)

theorem dropMsg_keeps {s0 : State} {s : State} {reason : Nat} {dst : Nat} {src : Nat} {mtype : Nat}
    (hK : Keeps s0 s) : Keeps s0 (dropMsg s reason dst src mtype) := by
  unfold dropMsg
  repeat' (first | with_reducible assumption | with_reducible apply wr_keeps | with_reducible apply raise_keeps
                  | with_reducible apply bumpOcc_keeps | simp only [keeps_mk_iff] | split)

theorem dropPartial_keeps {s0 : State} {s : State} {l : Nat} {v : Link} (hK : Keeps s0 s) : Keeps s0
    (dropPartial s l v) := by
  unfold dropPartial
  repeat' (first | with_reducible assumption | with_reducible apply dropMsg_keeps | simp only [keeps_mk_iff]
                  | (with_reducible apply keeps_foldl; (try intros)) | extract_lets | split)

theorem hostSuspend_keeps {s0 : State} {s : State} (hK : Keeps s0 s) : Keeps s0 (hostSuspend s) := by
  unfold hostSuspend
  repeat' (first | with_reducible assumption | with_reducible apply setFld_keeps | split)

theorem linkStop_keeps {s0 : State} {s : State} {l : Nat} {st : LinkSt} {cause : Nat} (hK : Keeps s0 s) : Keeps s0
    (linkStop s l st cause) := by
  unfold linkStop
  repeat' (first | with_reducible assumption | with_reducible apply setFlag_keeps | with_reducible apply raise_keeps
                  | with_reducible apply bumpOcc_keeps | with_reducible apply setLink_keeps
                  | with_reducible apply dropPartial_keeps | with_reducible apply hostSuspend_keeps
                  | simp only [keeps_mk_iff] | extract_lets | split)

theorem protoError_keeps {s0 : State} {s : State} {l : Nat} (hK : Keeps s0 s) : Keeps s0 (protoError s l) := by
  unfold protoError
  repeat' (first | with_reducible assumption | with_reducible apply linkStop_keeps)

theorem linkTrain_keeps {s0 : State} {s : State} {l : Nat} (hK : Keeps s0 s) : Keeps s0 (linkTrain s l) := by
  unfold linkTrain
  repeat' (first | with_reducible assumption | with_reducible apply setLink_keeps)

theorem linkEnableEff_keeps {s0 : State} {s : State} {l : Nat} (hK : Keeps s0 s) : Keeps s0 (linkEnableEff s l) := by
  unfold linkEnableEff
  repeat' (first | with_reducible assumption | with_reducible apply linkStop_keeps
                  | with_reducible apply linkTrain_keeps | simp only [keeps_mk_iff] | split)

theorem linkRetrainEff_keeps {s0 : State} {s : State} {l : Nat} (hK : Keeps s0 s) : Keeps s0 (linkRetrainEff s l)
    := by
  unfold linkRetrainEff
  repeat' (first | with_reducible assumption | with_reducible apply linkTrain_keeps | split)

theorem linkUpEvent_keeps {s0 : State} {s : State} {l : Nat} (hK : Keeps s0 s) : Keeps s0 (linkUpEvent s l) := by
  unfold linkUpEvent
  repeat' (first | with_reducible assumption | with_reducible apply raise_keeps)

theorem linkAdmitEff_keeps {s0 : State} {s : State} {l : Nat} (hK : Keeps s0 s) : Keeps s0 (linkAdmitEff s l) := by
  unfold linkAdmitEff
  repeat' (first | with_reducible assumption | with_reducible apply setLink_keeps
                  | with_reducible apply linkUpEvent_keeps | simp only [keeps_mk_iff] | split)

theorem linkRevokeEff_keeps {s0 : State} {s : State} {l : Nat} (hK : Keeps s0 s) : Keeps s0 (linkRevokeEff s l) := by
  unfold linkRevokeEff
  repeat' (first | with_reducible assumption | with_reducible apply linkStop_keeps | split)

theorem sendLocal_keeps {s0 : State} {s : State} {l : Nat} {sub : Nat} {p : Bytes} (hK : Keeps s0 s) : Keeps s0
    (sendLocal s l sub p) := by
  unfold sendLocal
  repeat' (first | with_reducible assumption | with_reducible apply linkQueue_keeps)

theorem linkReady_keeps {s0 : State} {s : State} {l : Nat} (hK : Keeps s0 s) : Keeps s0 (linkReady s l) := by
  unfold linkReady
  repeat' (first | with_reducible assumption | with_reducible apply raise_keeps | with_reducible apply setLink_keeps
                  | with_reducible apply linkAdmitEff_keeps | with_reducible apply sendLocal_keeps
                  | simp only [keeps_mk_iff] | split)

theorem helloRx_keeps {s0 : State} {s : State} {l : Nat} (hK : Keeps s0 s) : Keeps s0 (helloRx s l) := by
  unfold helloRx
  repeat' (first | with_reducible assumption | with_reducible apply raise_keeps | simp only [keeps_mk_iff] | split)

theorem freeArrived_keeps {s0 : State} {s : State} {l : Nat} {bs : Bytes} (hK : Keeps s0 s) : Keeps s0
    (freeArrived s l bs) := by
  unfold freeArrived
  repeat' (first | with_reducible assumption | with_reducible apply setLink_keeps | simp only [keeps_mk_iff] | split)

theorem flitLost_keeps {s0 : State} {s : State} {l : Nat} (hK : Keeps s0 s) : Keeps s0 (flitLost s l) := by
  unfold flitLost
  repeat' (first | with_reducible assumption | with_reducible apply setLink_keeps | with_reducible apply emit_keeps
                  | simp only [keeps_mk_iff] | split)

theorem crcFail_keeps {s0 : State} {s : State} {l : Nat} {n : Nat} (hK : Keeps s0 s) : Keeps s0 (crcFail s l n) := by
  unfold crcFail
  repeat' (first | with_reducible assumption | with_reducible apply bumpOcc_keeps
                  | with_reducible apply flitLost_keeps | simp only [keeps_mk_iff] | split)

theorem dataFlit_keeps {s0 : State} {s : State} {l : Nat} {f : Flit} (hK : Keeps s0 s) : Keeps s0 (dataFlit s l f)
    := by
  unfold dataFlit
  repeat' (first | with_reducible assumption | with_reducible apply bumpStat_keeps
                  | with_reducible apply setLink_keeps | with_reducible apply protoError_keeps
                  | with_reducible apply flitLost_keeps | simp only [keeps_mk_iff] | split)

theorem heartbeat_keeps {s0 : State} {s : State} {l : Nat} {f : Flit} (hK : Keeps s0 s) : Keeps s0 (heartbeat s l f)
    := by
  unfold heartbeat
  repeat' (first | with_reducible assumption | with_reducible apply setLink_keeps | simp only [keeps_mk_iff] | split)

theorem initFlit_keeps {s0 : State} {s : State} {l : Nat} {f : Flit} (hK : Keeps s0 s) : Keeps s0 (initFlit s l f)
    := by
  unfold initFlit
  repeat' (first | with_reducible assumption | with_reducible apply setLink_keeps
                  | with_reducible apply emitInit_keeps | with_reducible apply linkReady_keeps
                  | simp only [keeps_mk_iff] | split)

theorem resendHeld_keeps {s0 : State} {s : State} {l : Nat} (hK : Keeps s0 s) : Keeps s0 (resendHeld s l) := by
  unfold resendHeld
  repeat' (first | with_reducible assumption | with_reducible apply bumpOcc_keeps
                  | with_reducible apply setLink_keeps | with_reducible apply emit_keeps
                  | with_reducible apply linkStop_keeps | simp only [keeps_mk_iff] | split)

theorem takeFlit_keeps {s0 : State} {s : State} {l : Nat} {f : Flit} (hK : Keeps s0 s) : Keeps s0 (takeFlit s l f)
    := by
  unfold takeFlit
  repeat' (first | with_reducible assumption | with_reducible apply setLink_keeps
                  | with_reducible apply protoError_keeps | with_reducible apply crcFail_keeps
                  | with_reducible apply dataFlit_keeps | with_reducible apply heartbeat_keeps
                  | with_reducible apply resendHeld_keeps | simp only [keeps_mk_iff] | split)

theorem execLinkTrained_keeps {s0 : State} {l : Fin 25} {lanes : Byte} {s : State} (hK : Keeps s0 s) : OutKeeps s0
    (execLinkTrained l lanes s) := by
  unfold execLinkTrained
  repeat' (first | with_reducible assumption | with_reducible apply raise_keeps | with_reducible apply setLink_keeps
                  | with_reducible apply emitInit_keeps | with_reducible apply outKeeps_next
                  | simp only [keeps_mk_iff] | extract_lets | split)

theorem execLinkTrainingTimeout_keeps {s0 : State} {l : Fin 25} {s : State} (hK : Keeps s0 s) : OutKeeps s0
    (execLinkTrainingTimeout l s) := by
  unfold execLinkTrainingTimeout
  repeat' (first | with_reducible assumption | with_reducible apply linkStop_keeps
                  | with_reducible apply outKeeps_next | split)

theorem execLinkAutoRetrain_keeps {s0 : State} {l : Fin 25} {s : State} (hK : Keeps s0 s) : OutKeeps s0
    (execLinkAutoRetrain l s) := by
  unfold execLinkAutoRetrain
  repeat' (first | with_reducible assumption | with_reducible apply linkTrain_keeps
                  | with_reducible apply outKeeps_next | split)

theorem execLaneLockLost_keeps {s0 : State} {l : Fin 25} {s : State} (hK : Keeps s0 s) : OutKeeps s0
    (execLaneLockLost l s) := by
  unfold execLaneLockLost
  repeat' (first | with_reducible assumption | with_reducible apply linkStop_keeps
                  | with_reducible apply outKeeps_next | split)

theorem execInitFlitReceive_keeps {s0 : State} {l : Fin 25} {f : Flit} {s : State} (hK : Keeps s0 s) : OutKeeps s0
    (execInitFlitReceive l f s) := by
  unfold execInitFlitReceive
  repeat' (first | with_reducible assumption | with_reducible apply protoError_keeps
                  | with_reducible apply crcFail_keeps | with_reducible apply initFlit_keeps
                  | with_reducible apply outKeeps_next | extract_lets | split)

theorem execDataFlitReceive_keeps {s0 : State} {l : Fin 25} {f : Flit} {s : State} (hK : Keeps s0 s) : OutKeeps s0
    (execDataFlitReceive l f s) := by
  unfold execDataFlitReceive
  repeat' (first | with_reducible assumption | with_reducible apply takeFlit_keeps
                  | with_reducible apply outKeeps_next | split)

theorem execFecUncorrectable_keeps {s0 : State} {l : Fin 25} {flits : Nat} {s : State} (hK : Keeps s0 s) : OutKeeps
    s0 (execFecUncorrectable l flits s) := by
  unfold execFecUncorrectable
  repeat' (first | with_reducible assumption | with_reducible apply bumpOcc_keeps
                  | with_reducible apply crcFail_keeps | with_reducible apply outKeeps_next | split)

theorem execNakReceive_keeps {s0 : State} {l : Fin 25} {f : Flit} {s : State} (hK : Keeps s0 s) : OutKeeps s0
    (execNakReceive l f s) := by
  unfold execNakReceive
  repeat' (first | with_reducible assumption | with_reducible apply takeFlit_keeps
                  | with_reducible apply outKeeps_next | split)

theorem execAckTimeout_keeps {s0 : State} {l : Fin 25} {s : State} (hK : Keeps s0 s) : OutKeeps s0
    (execAckTimeout l s) := by
  unfold execAckTimeout
  repeat' (first | with_reducible assumption | with_reducible apply resendHeld_keeps
                  | with_reducible apply outKeeps_next | split)

theorem execFlitSend_keeps {s0 : State} {l : Fin 25} {s : State} (hK : Keeps s0 s) : OutKeeps s0 (execFlitSend l s)
    := by
  unfold execFlitSend
  repeat' (first | with_reducible assumption | with_reducible apply bumpStat_keeps
                  | with_reducible apply setLink_keeps | with_reducible apply emit_keeps
                  | with_reducible apply outKeeps_next | simp only [keeps_mk_iff] | split)

theorem execKeepaliveSend_keeps {s0 : State} {l : Fin 25} {s : State} (hK : Keeps s0 s) : OutKeeps s0
    (execKeepaliveSend l s) := by
  unfold execKeepaliveSend
  repeat' (first | with_reducible assumption | with_reducible apply emit_keeps | with_reducible apply outKeeps_next
                  | split)

theorem execKeepaliveTimeout_keeps {s0 : State} {l : Fin 25} {s : State} (hK : Keeps s0 s) : OutKeeps s0
    (execKeepaliveTimeout l s) := by
  unfold execKeepaliveTimeout
  repeat' (first | with_reducible assumption | with_reducible apply linkStop_keeps
                  | with_reducible apply outKeeps_next | split)

theorem execPeerStalled_keeps {s0 : State} {l : Fin 24} {s : State} (hK : Keeps s0 s) : OutKeeps s0
    (execPeerStalled l s) := by
  unfold execPeerStalled
  repeat' (first | with_reducible assumption | with_reducible apply raise_keeps | with_reducible apply setLink_keeps
                  | with_reducible apply outKeeps_next | simp only [keeps_mk_iff] | split)

theorem execHelloReceive_keeps {s0 : State} {l : Fin 24} {m : FabMsg} {s : State} (hK : Keeps s0 s) : OutKeeps s0
    (execHelloReceive l m s) := by
  unfold execHelloReceive
  repeat' (first | with_reducible assumption | with_reducible apply wr_keeps | with_reducible apply setLink_keeps
                  | with_reducible apply helloRx_keeps | with_reducible apply freeArrived_keeps
                  | with_reducible apply outKeeps_next | simp only [keeps_mk_iff] | split)

theorem execHelloProofReceive_keeps {s0 : State} {l : Fin 24} {m : FabMsg} {s : State} (hK : Keeps s0 s) : OutKeeps
    s0 (execHelloProofReceive l m s) := by
  unfold execHelloProofReceive
  repeat' (first | with_reducible assumption | with_reducible apply setLink_keeps
                  | with_reducible apply helloRx_keeps | with_reducible apply freeArrived_keeps
                  | with_reducible apply outKeeps_next | simp only [keeps_mk_iff] | split)

theorem endTxns_keeps {s0 : State} {s : State} {p : Txn → Bool} {st : Nat} (hK : Keeps s0 s) : Keeps s0
    (endTxns s p st) := by
  unfold endTxns
  repeat' (first | with_reducible assumption | with_reducible apply answer_keeps | simp only [keeps_mk_iff]
                  | (with_reducible apply keeps_foldl; (try intros)))

theorem portReset_keeps {s0 : State} {s : State} {p : Nat} (hK : Keeps s0 s) : Keeps s0 (portReset s p) := by
  unfold portReset
  repeat' (first | with_reducible assumption | with_reducible apply endTxns_keeps | simp only [keeps_mk_iff])

theorem portCommit_keeps {s0 : State} {s : State} {p : Nat} {was : Bool} (hK : Keeps s0 s) : Keeps s0
    (portCommit s p was) := by
  unfold portCommit
  repeat' (first | with_reducible assumption | with_reducible apply linkStop_keeps
                  | with_reducible apply linkEnableEff_keeps | simp only [keeps_mk_iff] | extract_lets | split)

end Sys2Proof.Machine
end

