-- ==== Sys2Proof/Laws/KeepsFabric.lean ====
section
/-! SUPPORT. What the functions of Machine/Fabric.lean keep (see Laws/Keeps.lean). -/

set_option linter.unusedSimpArgs false
set_option simprocs false -- no numeral of a goal is evaluated in these proofs

namespace Sys2Proof.Machine

theorem leave_keeps {s0 : State} {s : State} {m : FabMsg} {l : Nat} {c : Nat} (hK : Keeps s0 s) : Keeps s0
    (leave s m l c) := by
  unfold leave
  repeat' (first | with_reducible assumption | with_reducible apply linkQueue_keeps)

theorem noteLink_keeps {s0 : State} {s : State} {m : FabMsg} {l : Nat} (hK : Keeps s0 s) : Keeps s0 (noteLink s m l)
    := by
  unfold noteLink
  repeat' (first | with_reducible assumption | simp only [keeps_mk_iff] | split)

theorem startOwn_keeps {s0 : State} {s : State} {t : State} {m : FabMsg} {f : Fate} (hK : Keeps s0 s)
    (hK1 : Keeps s0 t) : Keeps s0 (startOwn s t m f) := by
  unfold startOwn
  repeat' (first | with_reducible assumption | with_reducible apply bumpStat_keeps
                  | with_reducible apply bumpOcc_keeps | with_reducible apply dropMsg_keeps
                  | with_reducible apply leave_keeps | with_reducible apply noteLink_keeps
                  | simp only [keeps_mk_iff] | split)

theorem pushHead_keeps {s0 : State} {s : State} (hK : Keeps s0 s) : Keeps s0 (pushHead s).1 := by
  unfold pushHead
  repeat' (first | with_reducible assumption | with_reducible apply ltaRead_keeps | simp only [keeps_mk_iff]
                  | with_reducible refine keeps_fst (by assumption) ?_ | split)

theorem popPush_keeps {s0 : State} {s : State} (hK : Keeps s0 s) : Keeps s0 (popPush s) := by
  unfold popPush
  repeat' (first | with_reducible assumption | simp only [keeps_mk_iff])

theorem routeOwn_keeps {s0 : State} {s : State} {m : FabMsg} (hK : Keeps s0 s) : Keeps s0 (routeOwn s m) := by
  unfold routeOwn
  repeat' (first | with_reducible assumption | with_reducible apply startOwn_keeps
                  | with_reducible apply pushHead_keeps | with_reducible apply popPush_keeps
                  | simp only [keeps_mk_iff] | with_reducible refine keeps_fst (by assumption) ?_ | split)

theorem routeIn_keeps {s0 : State} {s : State} {l : Nat} {m : FabMsg} {out : FabMsg} {f : Fate} (hK : Keeps s0 s) :
    Keeps s0 (routeIn s l m out f) := by
  unfold routeIn
  repeat' (first | with_reducible assumption | with_reducible apply bumpStat_keeps
                  | with_reducible apply dropMsg_keeps | with_reducible apply freeArrived_keeps
                  | with_reducible apply leave_keeps | simp only [keeps_mk_iff] | split)

theorem execMessageRoute_keeps {s0 : State} {ingress : Option (Fin 24)} {m : FabMsg} {s : State} (hK : Keeps s0 s) :
    OutKeeps s0 (execMessageRoute ingress m s) := by
  unfold execMessageRoute
  repeat' (first | with_reducible assumption | with_reducible apply routeOwn_keeps
                  | with_reducible apply routeIn_keeps | with_reducible apply outKeeps_next | split)

theorem execSrForward_keeps {s0 : State} {ingress : Fin 24} {m : FabMsg} {s : State} (hK : Keeps s0 s) : OutKeeps s0
    (execSrForward ingress m s) := by
  unfold execSrForward
  repeat' (first | with_reducible assumption | with_reducible apply routeIn_keeps
                  | with_reducible apply outKeeps_next | simp only [keeps_mk_iff] | split)

theorem endTxn_keeps {s0 : State} {s : State} {tag : Nat} {st : Nat} {data : Bytes} (hK : Keeps s0 s) : Keeps s0
    (endTxn s tag st data) := by
  unfold endTxn
  repeat' (first | with_reducible assumption | with_reducible apply answer_keeps | simp only [keeps_mk_iff])

theorem responseEff_keeps {s0 : State} {s : State} {m : FabMsg} (hK : Keeps s0 s) : Keeps s0 (responseEff s m) := by
  unfold responseEff
  repeat' (first | with_reducible assumption | with_reducible apply bumpOcc_keeps
                  | with_reducible apply endTxn_keeps | split)

theorem execRdRsp_keeps {s0 : State} {m : FabMsg} {s : State} (hK : Keeps s0 s) : OutKeeps s0 (execRdRsp m s) := by
  unfold execRdRsp
  repeat' (first | with_reducible assumption | with_reducible apply responseEff_keeps
                  | with_reducible apply outKeeps_next | simp only [keeps_mk_iff] | split)

theorem execWrRsp_keeps {s0 : State} {m : FabMsg} {s : State} (hK : Keeps s0 s) : OutKeeps s0 (execWrRsp m s) := by
  unfold execWrRsp
  repeat' (first | with_reducible assumption | with_reducible apply responseEff_keeps
                  | with_reducible apply outKeeps_next | simp only [keeps_mk_iff] | split)

theorem execFabricRequestTimeout_keeps {s0 : State} {tag : Nat} {s : State} (hK : Keeps s0 s) : OutKeeps s0
    (execFabricRequestTimeout tag s) := by
  unfold execFabricRequestTimeout
  repeat' (first | with_reducible assumption | with_reducible apply bumpOcc_keeps
                  | with_reducible apply endTxn_keeps | with_reducible apply outKeeps_next
                  | simp only [keeps_mk_iff] | split)

theorem recordEff_keeps {s0 : State} {s : State} {b : Bytes} (hK : Keeps s0 s) : Keeps s0 (recordEff s b) := by
  unfold recordEff
  repeat' (first | with_reducible assumption | with_reducible apply contribEff_keeps
                  | with_reducible apply answerEff_keeps | with_reducible apply resendEff_keeps
                  | with_reducible apply doneEff_keeps | with_reducible apply doneAckEff_keeps
                  | with_reducible apply xpartEff_keeps | with_reducible apply xpartReturnEff_keeps
                  | simp only [keeps_mk_iff] | split)

theorem execRelayMsgReceive_keeps {s0 : State} {m : FabMsg} {s : State} (hK : Keeps s0 s) : OutKeeps s0
    (execRelayMsgReceive m s) := by
  unfold execRelayMsgReceive
  repeat' (first | with_reducible assumption | with_reducible apply deltaAckEff_keeps
                  | with_reducible apply deltaEff_keeps | with_reducible apply rlyWork_keeps
                  | with_reducible apply recordEff_keeps | with_reducible apply outKeeps_next
                  | simp only [keeps_mk_iff] | extract_lets | split)

theorem execMailboxReceive_keeps {s0 : State} {m : FabMsg} {s : State} (hK : Keeps s0 s) : OutKeeps s0
    (execMailboxReceive m s) := by
  unfold execMailboxReceive
  repeat' (first | with_reducible assumption | with_reducible apply setFld_keeps | with_reducible apply raise_keeps
                  | with_reducible apply bumpOcc_keeps | with_reducible apply ltaWrite_keeps
                  | with_reducible apply outKeeps_next | simp only [keeps_mk_iff]
                  | with_reducible refine keeps_fst (by assumption) ?_ | extract_lets | split)

theorem mgmtPush_keeps {s0 : State} {s : State} {lta : Nat} (hK : Keeps s0 s) : Keeps s0 (mgmtPush s lta) := by
  unfold mgmtPush
  repeat' (first | with_reducible assumption | with_reducible apply setFlag_keeps | simp only [keeps_mk_iff] | split)

theorem routeSwitch_keeps {s0 : State} {s : State} (hK : Keeps s0 s) : Keeps s0 (routeSwitch s) := by
  unfold routeSwitch
  repeat' (first | with_reducible assumption | with_reducible apply wr_keeps | with_reducible apply setFlag_keeps
                  | with_reducible apply raise_keeps | with_reducible apply nbuEpoch_keeps
                  | (with_reducible apply keeps_foldl; (try intros)))

theorem jrnlDrop_keeps {s0 : State} {s : State} {dev : Nat} {seqs : Bool} (hK : Keeps s0 s) : Keeps s0
    (jrnlDrop s dev seqs) := by
  unfold jrnlDrop
  repeat' (first | with_reducible assumption | with_reducible apply setNbu_keeps | simp only [keeps_mk_iff]
                  | (with_reducible apply keeps_foldl; (try intros)))

theorem revertLines_keeps {s0 : State} {e0 : State} {e1 : List (Bytes × Nat)} (hK : Keeps s0 e0) : Keeps s0
    (revertLines e0 e1) := by
  revert hK
  fun_induction revertLines e0 e1 <;> intro hK
  all_goals (repeat' (with_reducible assumption))
  all_goals (try (apply_assumption; repeat' (first | with_reducible assumption | with_reducible apply ltaRead_keeps
                                                     | with_reducible apply ltaWrite_keeps
                                                     | with_reducible refine keeps_fst (by assumption) ?_)))

theorem linesWait_keeps {s0 : State} {s : State} {e0 : List Bytes} (hK : Keeps s0 s) : Keeps s0 (linesWait s e0).1
    := by
  revert hK
  fun_induction linesWait s e0 <;> intro hK
  all_goals (repeat' (first | with_reducible assumption | with_reducible apply firstWait_keeps | simp only [keeps_mk_iff]
                             | with_reducible refine keeps_fst (by assumption) ?_))
  all_goals (try (apply_assumption; repeat' (first | with_reducible assumption | with_reducible apply firstWait_keeps
                                                     | with_reducible refine keeps_fst (by assumption) ?_)))

theorem jrnlEnd_keeps {s0 : State} {s : State} {st : Nat} (hK : Keeps s0 s) : Keeps s0 (jrnlEnd s st) := by
  unfold jrnlEnd
  repeat' (first | with_reducible assumption | with_reducible apply setFld_keeps | simp only [keeps_mk_iff])

theorem jrnlWork_keeps {s0 : State} {s : State} (hK : Keeps s0 s) : Keeps s0 (jrnlWork s) := by
  unfold jrnlWork
  repeat' (first | with_reducible assumption | with_reducible apply wr_keeps | with_reducible apply ltaRead_keeps
                  | with_reducible apply ltaWrite_keeps | with_reducible apply jrnlDrop_keeps
                  | with_reducible apply revertLines_keeps | with_reducible apply linesWait_keeps
                  | with_reducible apply jrnlEnd_keeps | simp only [keeps_mk_iff]
                  | with_reducible refine keeps_fst (by assumption) ?_ | extract_lets | split)

theorem jrnlEff_keeps {s0 : State} {s : State} {ini : Initiator} {op : Nat} {dev : Nat} (hK : Keeps s0 s) : Keeps s0
    (jrnlEff s ini op dev) := by
  unfold jrnlEff
  repeat' (first | with_reducible assumption | with_reducible apply violation_keeps
                  | with_reducible apply jrnlWork_keeps | simp only [keeps_mk_iff] | split)

theorem fabcReset_keeps {s0 : State} {s : State} (hK : Keeps s0 s) : Keeps s0 (fabcReset s) := by
  unfold fabcReset
  repeat' (first | with_reducible assumption | with_reducible apply endTxns_keeps | simp only [keeps_mk_iff])

end Sys2Proof.Machine
end

