-- ==== Sys2Proof/Laws/KeepsHlk.lean ====
section
/-! SUPPORT. What the functions of Machine/Hlk.lean keep (see Laws/Keeps.lean). -/

set_option linter.unusedSimpArgs false
set_option simprocs false -- no numeral of a goal is evaluated in these proofs

namespace Sys2Proof.Machine

theorem setSession_keeps {s0 : State} {s : State} {v : Nat} (hK : Keeps s0 s) : Keeps s0 (setSession s v) := by
  unfold setSession
  repeat' (first | with_reducible assumption | with_reducible apply setFld_keeps)

theorem setHlk_keeps {s0 : State} {s : State} {h : Hlk} (hK : Keeps s0 s) : Keeps s0 (setHlk s h) := by
  unfold setHlk
  repeat' (first | with_reducible assumption | simp only [keeps_mk_iff])

theorem hostSend_keeps {s0 : State} {s : State} {m : HostMsg} (hK : Keeps s0 s) : Keeps s0 (hostSend s m) := by
  unfold hostSend
  repeat' (first | with_reducible assumption | with_reducible apply linkQueue_keeps | split)

theorem hostTaken_keeps {s0 : State} {s : State} {m : HostMsg} (hK : Keeps s0 s) : Keeps s0 (hostTaken s m) := by
  unfold hostTaken
  repeat' (first | with_reducible assumption | with_reducible apply freeArrived_keeps)

theorem hostViol_keeps {s0 : State} {s : State} {write : Bool} {ini : Initiator} (hK : Keeps s0 s) : Keeps s0
    (hostViol s write ini) := by
  unfold hostViol
  repeat' (first | with_reducible assumption | with_reducible apply bumpOcc_keeps
                  | with_reducible apply violation_keeps)

theorem issueWrites_keeps {s0 : State} {addr : Nat} {data : Bytes} {o : HostOwner} {e0 : State}
    {e1 : List (Nat × Nat)} (hK : Keeps s0 e0) : Keeps s0 (issueWrites addr data o e0 e1).1 := by
  revert hK
  fun_induction issueWrites addr data o e0 e1 <;> intro hK
  all_goals (repeat' (first | with_reducible assumption | with_reducible apply ltaWrite_keeps | simp only [keeps_mk_iff]
                             | with_reducible refine keeps_fst (by assumption) ?_ | dsimp +zetaDelta only))
  all_goals (try (apply_assumption; repeat' (first | with_reducible assumption | with_reducible apply wr_keeps | with_reducible apply ltaWrite_keeps
                                                     | with_reducible apply setHlk_keeps
                                                     | with_reducible apply hostSend_keeps
                                                     | with_reducible refine keeps_fst (by assumption) ?_)))

theorem jrnlReady_keeps {s0 : State} {s : State} {e0 : List (Nat × Nat)} {e1 : Nat} (hK : Keeps s0 s) : Keeps s0
    (jrnlReady s e0 e1).1 := by
  revert hK
  fun_induction jrnlReady s e0 e1 <;> intro hK
  all_goals (repeat' (first | with_reducible assumption | with_reducible apply firstWait_keeps | simp only [keeps_mk_iff]
                             | with_reducible refine keeps_fst (by assumption) ?_))
  all_goals (try (apply_assumption; repeat' (first | with_reducible assumption | with_reducible apply firstWait_keeps
                                                     | with_reducible refine keeps_fst (by assumption) ?_)))

theorem hostWrite_keeps {s0 : State} {s : State} {ini : Initiator} {a : Nat} {data : Bytes} {o : HostOwner}
    (hK : Keeps s0 s) : Keeps s0 (hostWrite s ini a data o).1 := by
  unfold hostWrite
  repeat' (first | with_reducible assumption | with_reducible apply hostViol_keeps
                  | with_reducible apply issueWrites_keeps | with_reducible apply jrnlReady_keeps
                  | simp only [keeps_mk_iff] | with_reducible refine keeps_fst (by assumption) ?_ | extract_lets
                  | split)

theorem issueReads_keeps {s0 : State} {addr : Nat} {o : HostOwner} {e0 : State} {e1 : List (Nat × Nat)}
    (hK : Keeps s0 e0) : Keeps s0 (issueReads addr o e0 e1) := by
  revert hK
  fun_induction issueReads addr o e0 e1 <;> intro hK
  all_goals (repeat' (first | with_reducible assumption | simp only [keeps_mk_iff] | dsimp +zetaDelta only))
  all_goals (try (apply_assumption; repeat' (first | with_reducible assumption | with_reducible apply setHlk_keeps
                                                     | with_reducible apply hostSend_keeps)))

theorem hostRead_keeps {s0 : State} {s : State} {ini : Initiator} {a : Nat} {n : Nat} {o : HostOwner}
    (hK : Keeps s0 s) : Keeps s0 (hostRead s ini a n o).1 := by
  unfold hostRead
  repeat' (first | with_reducible assumption | with_reducible apply hostViol_keeps
                  | with_reducible apply issueReads_keeps | split)

theorem endCmdPart_keeps {s0 : State} {s : State} {q : Nat} {cid : Nat} {part : Nat} {st : Nat} (hK : Keeps s0 s) :
    Keeps s0 (endCmdPart s q cid part st) := by
  unfold endCmdPart
  repeat' (first | with_reducible assumption | with_reducible apply setHlk_keeps | simp only [keeps_mk_iff] | split)

theorem respond_keeps {s0 : State} {s : State} {m : FabMsg} {st : Nat} {data : Bytes} (hK : Keeps s0 s) : Keeps s0
    (respond s m st data) := by
  unfold respond
  repeat' (first | with_reducible assumption | with_reducible apply send_keeps)

theorem endStrmPart_keeps {s0 : State} {s : State} {c : Nat} {t : Nat} {d : Nat} {part : Nat} {st : Nat}
    (hK : Keeps s0 s) : Keeps s0 (endStrmPart s c t d part st) := by
  unfold endStrmPart
  repeat' (first | with_reducible assumption | with_reducible apply setCore_keeps | with_reducible apply setStrm_coreOk
                  | simp only [keeps_mk_iff] | with_reducible exact hvl _ | extract_lets | split | intro hvl)

theorem endHartStore_keeps {s0 : State} {s : State} {p : Nat} {st : Nat} (hK : Keeps s0 s) : Keeps s0
    (endHartStore s p st) := by
  unfold endHartStore
  extract_lets h
  split
  · refine hK.trans ⟨rfl, id, id, id, fun x q => ?_⟩
    show LmemOk (smGet {} (smSet {} s.harts p { h with hostIo := some (some st) }) q)
    rw [smGet_smSet]
    split
    · exact x p
    · exact x q
  · exact hK

theorem ownerDone_keeps {s0 : State} {s : State} {o : HostOwner} {st : Nat} {data : Bytes} (hK : Keeps s0 s) : Keeps
    s0 (ownerDone s o st data) := by
  unfold ownerDone
  repeat' (first | with_reducible assumption | with_reducible apply answer_keeps
                  | with_reducible apply endCmdPart_keeps | with_reducible apply respond_keeps
                  | with_reducible apply endStrmPart_keeps | with_reducible apply endHartStore_keeps | split)

theorem settleOwners_keeps {s0 : State} {st : Nat} {e0 : State} {e1 : List HostOwner} (hK : Keeps s0 e0) : Keeps s0
    (settleOwners st e0 e1) := by
  induction e1 generalizing e0 with
  | nil => exact hK
  | cons o os ih =>
    unfold settleOwners
    apply ih
    split
    · exact hK
    · exact ownerDone_keeps hK

theorem freeJrnl_keeps {s0 : State} {s : State} {q : Nat} (hK : Keeps s0 s) : Keeps s0 (freeJrnl s q) := by
  unfold freeJrnl
  repeat' (first | with_reducible assumption | with_reducible apply wr_keeps | with_reducible apply setHlk_keeps
                  | with_reducible apply settleOwners_keeps)

theorem orphanPut_keeps {s0 : State} {s : State} {e : Bytes} (hK : Keeps s0 s) : Keeps s0 (orphanPut s e).1 := by
  unfold orphanPut
  repeat' (first | with_reducible assumption | with_reducible apply wr_keeps | with_reducible apply raise_keeps
                  | with_reducible apply bumpOcc_keeps | with_reducible apply ltaWrite_keeps
                  | with_reducible apply setHlk_keeps | simp only [keeps_mk_iff]
                  | with_reducible refine keeps_fst (by assumption) ?_ | split)

theorem vecWrite_keeps {s0 : State} {s : State} {v : Nat} (hK : Keeps s0 s) : Keeps s0 (vecWrite s v).1 := by
  unfold vecWrite
  repeat' (first | with_reducible assumption | with_reducible apply hostWrite_keeps | simp only [keeps_mk_iff]
                  | with_reducible refine keeps_fst (by assumption) ?_ | split)

theorem signalVec_keeps {s0 : State} {s : State} {v : Nat} (hK : Keeps s0 s) : Keeps s0 (signalVec s v) := by
  unfold signalVec
  repeat' (first | with_reducible assumption | with_reducible apply setFlag_keeps
                  | with_reducible apply setHlk_keeps | with_reducible apply vecWrite_keeps
                  | simp only [keeps_mk_iff] | with_reducible refine keeps_fst (by assumption) ?_ | split)

theorem cqSignal_keeps {s0 : State} {s : State} {c : Nat} (hK : Keeps s0 s) : Keeps s0 (cqSignal s c) := by
  unfold cqSignal
  repeat' (first | with_reducible assumption | with_reducible apply setHlk_keeps
                  | with_reducible apply signalVec_keeps)

theorem cqAdvance_keeps {s0 : State} {s : State} {c : Nat} (hK : Keeps s0 s) : Keeps s0 (cqAdvance s c) := by
  unfold cqAdvance
  repeat' (first | with_reducible assumption | with_reducible apply setFld_keeps | with_reducible apply setHlk_keeps
                  | with_reducible apply cqSignal_keeps | simp only [keeps_mk_iff] | split)

theorem cqPut_keeps {s0 : State} {s : State} {c : Nat} {e : Bytes} (hK : Keeps s0 s) : Keeps s0 (cqPut s c e).1 := by
  unfold cqPut
  repeat' (first | with_reducible assumption | with_reducible apply ltaWrite_keeps
                  | with_reducible apply hostWrite_keeps | with_reducible apply cqAdvance_keeps
                  | simp only [keeps_mk_iff] | with_reducible refine keeps_fst (by assumption) ?_ | split)

theorem putOne_keeps {s0 : State} {s : State} {k : Nat} {e : Bytes} (hK : Keeps s0 s) : Keeps s0 (putOne s k e).1
    := by
  unfold putOne
  repeat' (first | with_reducible assumption | with_reducible apply orphanPut_keeps
                  | with_reducible apply vecWrite_keeps | with_reducible apply cqPut_keeps | split)

theorem putAll_keeps {s0 : State} {e0 : State} {e1 : List Nat} {e2 : List (Nat × Bytes)} (hK : Keeps s0 e0) : Keeps
    s0 (putAll e0 e1 e2).1 := by
  revert hK
  fun_induction putAll e0 e1 e2 <;> intro hK
  all_goals (repeat' (first | with_reducible assumption | simp only [keeps_mk_iff]
                             | with_reducible refine keeps_fst (by assumption) ?_ | extract_lets))
  all_goals (try (apply_assumption; repeat' (first | with_reducible assumption | with_reducible apply putOne_keeps
                                                     | with_reducible refine keeps_fst (by assumption) ?_)))

theorem hlkDrain_keeps {s0 : State} {s : State} (hK : Keeps s0 s) : Keeps s0 (hlkDrain s) := by
  unfold hlkDrain
  repeat' (first | with_reducible assumption | with_reducible apply setHlk_keeps | with_reducible apply putAll_keeps)

theorem startCmds_keeps {s0 : State} {s : State} {q : Nat} (hK : Keeps s0 s) : Keeps s0 (startCmds s q) := by
  unfold startCmds
  repeat' (first | with_reducible assumption | with_reducible apply setHlk_keeps)

theorem cmdComplete_keeps {s0 : State} {s : State} {c : HCmd} {r : Report} (hK : Keeps s0 s) : Keeps s0
    (cmdComplete s c r) := by
  unfold cmdComplete
  repeat' (first | with_reducible assumption | with_reducible apply bumpStat_keeps
                  | with_reducible apply setHlk_keeps | with_reducible apply hlkDrain_keeps
                  | with_reducible apply startCmds_keeps | simp only [keeps_mk_iff] | split)

theorem execHlkCmdComplete_keeps {s0 : State} {q : Fin 256} {cid : BitVec 16} {s : State} (hK : Keeps s0 s) :
    OutKeeps s0 (execHlkCmdComplete q cid s) := by
  unfold execHlkCmdComplete
  repeat' (first | with_reducible assumption | with_reducible apply hlkDrain_keeps
                  | with_reducible apply cmdComplete_keeps | with_reducible apply outKeeps_next | split)

theorem putCmdH_keeps {s0 : State} {s : State} {c : HCmd} {c' : HCmd} (hK : Keeps s0 s) : Keeps s0 (putCmdH s c c')
    := by
  unfold putCmdH
  repeat' (first | with_reducible assumption | with_reducible apply setHlk_keeps)

theorem setCmdPart_keeps {s0 : State} {s : State} {c : HCmd} {k : Nat} {v : HPart} (hK : Keeps s0 s) : Keeps s0
    (setCmdPart s c k v) := by
  unfold setCmdPart
  repeat' (first | with_reducible assumption | with_reducible apply putCmdH_keeps)

theorem execHlkNop_keeps {s0 : State} {q : Fin 256} {cid : BitVec 16} {s : State} (hK : Keeps s0 s) : OutKeeps s0
    (execHlkNop q cid s) := by
  unfold execHlkNop
  repeat' (first | with_reducible assumption | with_reducible apply setCmdPart_keeps
                  | with_reducible apply outKeeps_next | split)

theorem execFwCall_keeps {s0 : State} {q : Fin 256} {cid : BitVec 16} {s : State} (hK : Keeps s0 s) : OutKeeps s0
    (execFwCall q cid s) := by
  unfold execFwCall
  repeat' (first | with_reducible assumption | with_reducible apply setFld_keeps | with_reducible apply raise_keeps
                  | with_reducible apply ltaWrite_keeps | with_reducible apply putCmdH_keeps
                  | with_reducible apply setCmdPart_keeps | with_reducible apply outKeeps_next
                  | simp only [keeps_mk_iff] | with_reducible refine keeps_fst (by assumption) ?_ | extract_lets
                  | split)

theorem fwDoneEff_keeps {s0 : State} {s : State} {ini : Initiator} {v : Nat} (hK : Keeps s0 s) : Keeps s0
    (fwDoneEff s ini v) := by
  unfold fwDoneEff
  repeat' (first | with_reducible assumption | with_reducible apply violation_keeps
                  | with_reducible apply putCmdH_keeps | simp only [keeps_mk_iff] | split)

theorem sqTailEff_keeps {s0 : State} {s : State} {ini : Initiator} {q : Nat} {v : Nat} (hK : Keeps s0 s) : Keeps s0
    (sqTailEff s ini q v) := by
  unfold sqTailEff
  repeat' (first | with_reducible assumption | with_reducible apply setFld_keeps
                  | with_reducible apply violation_keeps | simp only [keeps_mk_iff] | split)

theorem cqHeadEff_keeps {s0 : State} {s : State} {ini : Initiator} {c : Nat} {v : Nat} (hK : Keeps s0 s) : Keeps s0
    (cqHeadEff s ini c v) := by
  unfold cqHeadEff
  repeat' (first | with_reducible assumption | with_reducible apply setFld_keeps
                  | with_reducible apply violation_keeps | with_reducible apply hlkDrain_keeps
                  | simp only [keeps_mk_iff] | split)

theorem sqTake_keeps {s0 : State} {s : State} {q : Nat} {b : Bytes} (hK : Keeps s0 s) : Keeps s0 (sqTake s q b) := by
  unfold sqTake
  repeat' (first | with_reducible assumption | with_reducible apply setFld_keeps | with_reducible apply setHlk_keeps
                  | with_reducible apply startCmds_keeps)

theorem execSqFetch_keeps {s0 : State} {q : Fin 256} {ext : Ext} {s : State} (hK : Keeps s0 s) : OutKeeps s0
    (execSqFetch q ext s) := by
  unfold execSqFetch
  repeat' (first | with_reducible assumption | with_reducible apply ltaRead_keeps
                  | with_reducible apply hostViol_keeps | with_reducible apply sqTake_keeps
                  | with_reducible apply outKeeps_next | simp only [keeps_mk_iff]
                  | with_reducible refine keeps_fst (by assumption) ?_ | extract_lets | split)

theorem execCqCoalTimer_keeps {s0 : State} {q : Fin 256} {s : State} (hK : Keeps s0 s) : OutKeeps s0
    (execCqCoalTimer q s) := by
  unfold execCqCoalTimer
  repeat' (first | with_reducible assumption | with_reducible apply cqSignal_keeps
                  | with_reducible apply outKeeps_next | split)

theorem vecUnmaskEff_keeps {s0 : State} {s : State} {v : Nat} (hK : Keeps s0 s) : Keeps s0 (vecUnmaskEff s v) := by
  unfold vecUnmaskEff
  repeat' (first | with_reducible assumption | with_reducible apply setFlag_keeps
                  | with_reducible apply signalVec_keeps | simp only [keeps_mk_iff] | split)

theorem hostDisable_keeps {s0 : State} {s : State} (hK : Keeps s0 s) : Keeps s0 (hostDisable s) := by
  unfold hostDisable
  repeat' (first | with_reducible assumption | with_reducible apply setFld_keeps
                  | with_reducible apply setFlag_keeps | simp only [keeps_mk_iff]
                  | (with_reducible apply keeps_foldl; (try intros)))

theorem hostLost_keeps {s0 : State} {s : State} {cause : Nat} {epoch : Option Nat} (hK : Keeps s0 s) : Keeps s0
    (hostLost s cause epoch) := by
  unfold hostLost
  repeat' (first | with_reducible assumption | with_reducible apply wr_keeps | with_reducible apply raise_keeps
                  | with_reducible apply bumpOcc_keeps | with_reducible apply setSession_keeps
                  | with_reducible apply setHlk_keeps | with_reducible apply ownerDone_keeps
                  | with_reducible apply hlkDrain_keeps | with_reducible apply hostDisable_keeps
                  | simp only [keeps_mk_iff] | (with_reducible apply keeps_foldl; (try intros)) | split)

theorem replayRead_keeps {s0 : State} {e0 : State} {e1 : List JEnt} (hK : Keeps s0 e0) : Keeps s0
    (replayRead e0 e1).1 := by
  revert hK
  fun_induction replayRead e0 e1 <;> intro hK
  all_goals (repeat' (first | with_reducible assumption | with_reducible apply ltaRead_keeps | simp only [keeps_mk_iff]
                             | with_reducible refine keeps_fst (by assumption) ?_ | extract_lets))
  all_goals (try (apply_assumption; repeat' (first | with_reducible assumption | with_reducible apply ltaRead_keeps
                                                     | with_reducible refine keeps_fst (by assumption) ?_)))

theorem replay_keeps {s0 : State} {s : State} (hK : Keeps s0 s) : Keeps s0 (replay s) := by
  unfold replay
  repeat' (first | with_reducible assumption | with_reducible apply bumpOcc_keeps
                  | with_reducible apply setSession_keeps | with_reducible apply hostSend_keeps
                  | with_reducible apply hlkDrain_keeps | with_reducible apply hostLost_keeps
                  | with_reducible apply replayRead_keeps | simp only [keeps_mk_iff]
                  | with_reducible refine keeps_fst (by assumption) ?_
                  | (with_reducible apply keeps_foldl; (try intros)) | extract_lets | split)

theorem resumeEff_keeps {s0 : State} {s : State} {m : HostMsg} (hK : Keeps s0 s) : Keeps s0 (resumeEff s m) := by
  unfold resumeEff
  repeat' (first | with_reducible assumption | with_reducible apply wr_keeps | with_reducible apply protoError_keeps
                  | with_reducible apply freeJrnl_keeps | with_reducible apply hostLost_keeps
                  | with_reducible apply replay_keeps | split)

theorem attachEff_keeps {s0 : State} {s : State} {ini : Initiator} {key : Nat} (hK : Keeps s0 s) : Keeps s0
    (attachEff s ini key) := by
  unfold attachEff
  repeat' (first | with_reducible assumption | with_reducible apply setFld_keeps
                  | with_reducible apply setFlag_keeps | with_reducible apply raise_keeps
                  | with_reducible apply violation_keeps | with_reducible apply setSession_keeps
                  | with_reducible apply setHlk_keeps | simp only [keeps_mk_iff] | split)

theorem detachEff_keeps {s0 : State} {s : State} (hK : Keeps s0 s) : Keeps s0 (detachEff s) := by
  unfold detachEff
  repeat' (first | with_reducible assumption | with_reducible apply setSession_keeps | split)

theorem execDetachTimeout_keeps {s0 : State} {s : State} (hK : Keeps s0 s) : OutKeeps s0 (execDetachTimeout s) := by
  unfold execDetachTimeout
  repeat' (first | with_reducible assumption | with_reducible apply hostLost_keeps
                  | with_reducible apply outKeeps_next | simp only [keeps_mk_iff] | split)

theorem execDetachComplete_keeps {s0 : State} {s : State} (hK : Keeps s0 s) : OutKeeps s0 (execDetachComplete s) := by
  unfold execDetachComplete
  repeat' (first | with_reducible assumption | with_reducible apply wr_keeps | with_reducible apply setSession_keeps
                  | with_reducible apply setHlk_keeps | with_reducible apply hostDisable_keeps
                  | with_reducible apply outKeeps_next | simp only [keeps_mk_iff] | split)

theorem execJack_keeps {s0 : State} {m : HostMsg} {s : State} (hK : Keeps s0 s) : OutKeeps s0 (execJack m s) := by
  unfold execJack
  repeat' (first | with_reducible assumption | with_reducible apply protoError_keeps
                  | with_reducible apply hostTaken_keeps | with_reducible apply freeJrnl_keeps
                  | with_reducible apply hlkDrain_keeps | with_reducible apply outKeeps_next
                  | simp only [keeps_mk_iff] | extract_lets | split)

theorem execResume_keeps {s0 : State} {m : HostMsg} {s : State} (hK : Keeps s0 s) : OutKeeps s0 (execResume m s) := by
  unfold execResume
  repeat' (first | with_reducible assumption | with_reducible apply hostTaken_keeps
                  | with_reducible apply resumeEff_keeps | with_reducible apply outKeeps_next
                  | simp only [keeps_mk_iff] | split)

theorem execHostReset_keeps {s0 : State} {m : HostMsg} {s : State} (hK : Keeps s0 s) : OutKeeps s0
    (execHostReset m s) := by
  unfold execHostReset
  repeat' (first | with_reducible assumption | with_reducible apply wr_keeps | with_reducible apply hostTaken_keeps
                  | with_reducible apply hostLost_keeps | with_reducible apply outKeeps_next
                  | simp only [keeps_mk_iff] | extract_lets | split)

theorem endRead_keeps {s0 : State} {s : State} {r : HRead} {st : Nat} {data : Bytes} (hK : Keeps s0 s) : Keeps s0
    (endRead s r st data) := by
  unfold endRead
  repeat' (first | with_reducible assumption | with_reducible apply setHlk_keeps
                  | with_reducible apply ownerDone_keeps)

theorem execDRsp_keeps {s0 : State} {m : HostMsg} {s : State} (hK : Keeps s0 s) : OutKeeps s0 (execDRsp m s) := by
  unfold execDRsp
  repeat' (first | with_reducible assumption | with_reducible apply hostTaken_keeps
                  | with_reducible apply endRead_keeps | with_reducible apply outKeeps_next
                  | simp only [keeps_mk_iff] | extract_lets | split)

theorem execHostReadTimeout_keeps {s0 : State} {tag : Nat} {s : State} (hK : Keeps s0 s) : OutKeeps s0
    (execHostReadTimeout tag s) := by
  unfold execHostReadTimeout
  repeat' (first | with_reducible assumption | with_reducible apply endRead_keeps
                  | with_reducible apply outKeeps_next | simp only [keeps_mk_iff] | split)

theorem execHostWriteIssue_keeps {s0 : State} {owner : Nat} {addr : Nat} {data : Bytes} {s : State}
    (hK : Keeps s0 s) : OutKeeps s0 (execHostWriteIssue owner addr data s) := by
  unfold execHostWriteIssue
  repeat' (first | with_reducible assumption | with_reducible apply answer_keeps
                  | with_reducible apply hostWrite_keeps | with_reducible apply outKeeps_next
                  | simp only [keeps_mk_iff] | with_reducible refine keeps_fst (by assumption) ?_ | split)

theorem execHostReadIssue_keeps {s0 : State} {owner : Nat} {addr : Nat} {len : Nat} {s : State} (hK : Keeps s0 s) :
    OutKeeps s0 (execHostReadIssue owner addr len s) := by
  unfold execHostReadIssue
  repeat' (first | with_reducible assumption | with_reducible apply answer_keeps
                  | with_reducible apply hostRead_keeps | with_reducible apply outKeeps_next
                  | simp only [keeps_mk_iff] | with_reducible refine keeps_fst (by assumption) ?_ | split)

theorem hlkReset_keeps {s0 : State} {s : State} (hK : Keeps s0 s) : Keeps s0 (hlkReset s) := by
  unfold hlkReset
  repeat' (first | with_reducible assumption | with_reducible apply setLink_keeps
                  | with_reducible apply setHlk_keeps | with_reducible apply ownerDone_keeps
                  | (with_reducible apply keeps_foldl; (try intros)) | extract_lets | split)

end Sys2Proof.Machine
end

