-- ==== Sys2Proof/Laws/KeepsEvent.lean ====
section
/-! SUPPORT. What the functions of Machine/Event.lean keep (see Laws/Keeps.lean). -/

set_option linter.unusedSimpArgs false
set_option simprocs false -- no numeral of a goal is evaluated in these proofs

namespace Sys2Proof.Machine

theorem setTgt_keeps {s0 : State} {s : State} {t : Nat} {v : Target} (hK : Keeps s0 s) : Keeps s0 (setTgt s t v) := by
  unfold setTgt
  repeat' (first | with_reducible assumption | simp only [keeps_mk_iff])

theorem evtSettle_keeps {s0 : State} {s : State} (hK : Keeps s0 s) : Keeps s0 (evtSettle s) := by
  unfold evtSettle
  repeat' (first | with_reducible assumption | with_reducible apply signalVec_keeps
                  | with_reducible apply setTgt_keeps | simp only [keeps_mk_iff] | split)

theorem dropLine_keeps {s0 : State} {s : State} {p : Nat} {lta : Nat} (hK : Keeps s0 s) : Keeps s0
    (dropLine s p lta) := by
  unfold dropLine
  repeat' (first | with_reducible assumption | simp only [keeps_mk_iff])

theorem execEvtRingWrite_keeps {s0 : State} {t : Fin 9} {s : State} (hK : Keeps s0 s) : OutKeeps s0
    (execEvtRingWrite t s) := by
  unfold execEvtRingWrite
  repeat' (first | with_reducible assumption | with_reducible apply raise_keeps
                  | with_reducible apply ltaWrite_keeps | with_reducible apply setTgt_keeps
                  | with_reducible apply evtSettle_keeps | with_reducible apply dropLine_keeps
                  | with_reducible apply outKeeps_next | simp only [keeps_mk_iff]
                  | with_reducible refine keeps_fst (by assumption) ?_ | extract_lets | split)

theorem nestEnterEff_keeps {s0 : State} {s : State} {t : Nat} (hK : Keeps s0 s) : Keeps s0 (nestEnterEff s t) := by
  unfold nestEnterEff
  repeat' (first | with_reducible assumption | with_reducible apply setTgt_keeps
                  | with_reducible apply evtSettle_keeps | simp only [keeps_mk_iff] | split)

theorem nestExitEff_keeps {s0 : State} {s : State} {ini : Initiator} {t : Nat} (hK : Keeps s0 s) : Keeps s0
    (nestExitEff s ini t) := by
  unfold nestExitEff
  repeat' (first | with_reducible assumption | with_reducible apply violation_keeps
                  | with_reducible apply setTgt_keeps | with_reducible apply evtSettle_keeps
                  | simp only [keeps_mk_iff] | split)

theorem tgtCiEff_keeps {s0 : State} {s : State} {ini : Initiator} {t : Nat} {w : Nat} (hK : Keeps s0 s) : Keeps s0
    (tgtCiEff s ini t w) := by
  unfold tgtCiEff
  repeat' (first | with_reducible assumption | with_reducible apply violation_keeps
                  | with_reducible apply setTgt_keeps | with_reducible apply evtSettle_keeps
                  | simp only [keeps_mk_iff] | split)

theorem evtFaultClearEff_keeps {s0 : State} {s : State} {t : Nat} (hK : Keeps s0 s) : Keeps s0
    (evtFaultClearEff s t) := by
  unfold evtFaultClearEff
  repeat' (first | with_reducible assumption | with_reducible apply setTgt_keeps
                  | with_reducible apply evtSettle_keeps)

theorem bpCommit_keeps {s0 : State} {s : State} {t : Nat} (hK : Keeps s0 s) : Keeps s0 (bpCommit s t) := by
  unfold bpCommit
  repeat' (first | with_reducible assumption | with_reducible apply setTgt_keeps
                  | with_reducible apply evtSettle_keeps)

theorem purgeEff_keeps {s0 : State} {s : State} {src : Nat} (hK : Keeps s0 s) : Keeps s0 (purgeEff s src) := by
  unfold purgeEff
  repeat' (first | with_reducible assumption | simp only [keeps_mk_iff])

theorem swraiseEff_keeps {s0 : State} {s : State} {ini : Initiator} {v : Nat} (hK : Keeps s0 s) : Keeps s0
    (swraiseEff s ini v) := by
  unfold swraiseEff
  repeat' (first | with_reducible assumption | with_reducible apply raise_keeps)

theorem execEvtLineAccept_keeps {s0 : State} {l : Fin 8} {asserted : Bool} {s : State} (hK : Keeps s0 s) : OutKeeps
    s0 (execEvtLineAccept l asserted s) := by
  unfold execEvtLineAccept
  repeat' (first | with_reducible assumption | with_reducible apply raise_keeps | with_reducible apply outKeeps_next
                  | simp only [keeps_mk_iff] | split)

theorem execDomeBufferDrain_keeps {s0 : State} {s : State} (hK : Keeps s0 s) : OutKeeps s0 (execDomeBufferDrain s)
    := by
  unfold execDomeBufferDrain
  repeat' (first | with_reducible assumption | with_reducible apply drainDome_keeps
                  | with_reducible apply outKeeps_next | split)

theorem evtReset_keeps {s0 : State} {s : State} (hK : Keeps s0 s) : Keeps s0 (evtReset s) := by
  unfold evtReset
  repeat' (first | with_reducible assumption | simp only [keeps_mk_iff])

end Sys2Proof.Machine
end

