-- ==== Sys2Proof/Laws/KeepsHart.lean ====
section
/-! SUPPORT. What the functions of Machine/Hart.lean keep (see Laws/Keeps.lean). -/

set_option linter.unusedSimpArgs false
set_option simprocs false -- no numeral of a goal is evaluated in these proofs

namespace Sys2Proof.Machine

theorem execProcWfiWake_keeps {s0 : State} {p : Fin 8} {s : State} (hK : Keeps s0 s) : OutKeeps s0
    (execProcWfiWake p s) := by
  unfold execProcWfiWake
  repeat' (first | with_reducible assumption | with_reducible apply setHart_keeps
                  | with_reducible apply outKeeps_next | simp only [keeps_mk_iff] | with_reducible exact hvl _
                  | extract_lets | split | intro hvl)

theorem execMtimecmpMatch_keeps {s0 : State} {p : Fin 8} {s : State} (hK : Keeps s0 s) : OutKeeps s0
    (execMtimecmpMatch p s) := by
  unfold execMtimecmpMatch
  repeat' (first | with_reducible assumption | with_reducible apply outKeeps_next | simp only [keeps_mk_iff])

theorem wdtSync_keeps {s0 : State} {s : State} {p : Nat} (hK : Keeps s0 s) : Keeps s0 (wdtSync s p) := by
  unfold wdtSync
  repeat' (first | with_reducible assumption | with_reducible apply setHart_keeps | simp only [keeps_mk_iff]
                  | with_reducible exact hvl _ | intro hvl)

theorem wdtLoad_keeps {s0 : State} {s : State} {p : Nat} (hK : Keeps s0 s) : Keeps s0 (wdtLoad s p) := by
  unfold wdtLoad
  repeat' (first | with_reducible assumption | with_reducible apply setHart_keeps | simp only [keeps_mk_iff]
                  | with_reducible exact hvl _ | intro hvl)

theorem wdtWriteEff_keeps {s0 : State} {s : State} {p : Nat} {v : Nat} (hK : Keeps s0 s) : Keeps s0
    (wdtWriteEff s p v) := by
  unfold wdtWriteEff
  repeat' (first | with_reducible assumption | with_reducible apply wr_keeps | with_reducible apply wdtSync_keeps
                  | with_reducible apply wdtLoad_keeps | simp only [keeps_mk_iff] | split)

theorem wdtKickEff_keeps {s0 : State} {s : State} {ini : Initiator} {p : Nat} {v : Nat} (hK : Keeps s0 s) : Keeps s0
    (wdtKickEff s ini p v) := by
  unfold wdtKickEff
  repeat' (first | with_reducible assumption | with_reducible apply violation_keeps
                  | with_reducible apply wdtLoad_keeps | split)

theorem dropHostIo_keeps {s0 : State} {s : State} {p : Nat} (hK : Keeps s0 s) : Keeps s0 (dropHostIo s p) := by
  unfold dropHostIo
  repeat' (first | with_reducible assumption | with_reducible apply setHlk_keeps
                  | with_reducible apply setHart_keeps | simp only [keeps_mk_iff] | with_reducible exact hvl _
                  | intro hvl)

theorem runEff_keeps {s0 : State} {s : State} {p : Nat} (hK : Keeps s0 s) : Keeps s0 (runEff s p) := by
  unfold runEff
  repeat' (first | with_reducible assumption | with_reducible apply setHart_keeps
                  | with_reducible apply wdtSync_keeps | simp only [keeps_mk_iff] | with_reducible exact hvl _
                  | extract_lets | split | intro hvl)

theorem haltNow_keeps {s0 : State} {s : State} {p : Nat} (hK : Keeps s0 s) : Keeps s0 (haltNow s p) := by
  unfold haltNow
  repeat' (first | with_reducible assumption | with_reducible apply raise_keeps | with_reducible apply setHart_keeps
                  | with_reducible apply wdtSync_keeps | with_reducible apply dropHostIo_keeps
                  | with_reducible exact hvl _ | extract_lets | intro hvl)

theorem haltEff_keeps {s0 : State} {s : State} {p : Nat} (hK : Keeps s0 s) : Keeps s0 (haltEff s p) := by
  unfold haltEff
  repeat' (first | with_reducible assumption | with_reducible apply haltNow_keeps | split)

theorem dinvEff_keeps {s0 : State} {s : State} {p : Nat} (hK : Keeps s0 s) : Keeps s0 (dinvEff s p) := by
  unfold dinvEff
  repeat' (first | with_reducible assumption | simp only [keeps_mk_iff])

theorem hartReset_keeps {s0 : State} {s : State} {p : Nat} (hK : Keeps s0 s) : Keeps s0 (hartReset s p) :=
  setTgt_keeps (dinvEff_keeps (setHart_keeps (dropHostIo_keeps hK) (fun _ => rfl)))

theorem procErr_keeps {s0 : State} {s : State} {p : Nat} {st : Nat} {addr : Nat} (hK : Keeps s0 s) : Keeps s0
    (procErr s p st addr) := by
  unfold procErr
  repeat' (first | with_reducible assumption | with_reducible apply wr_keeps | split)

end Sys2Proof.Machine
end

