-- ==== Sys2Proof/Laws/KeepsReset.lean ====
section
/-! SUPPORT. What the functions of Machine/Reset.lean keep (see Laws/Keeps.lean). -/

set_option linter.unusedSimpArgs false
set_option simprocs false -- no numeral of a goal is evaluated in these proofs

namespace Sys2Proof.Machine

theorem trimQuiet_keeps {s0 : State} {s : State} (hK : Keeps s0 s) : Keeps s0 (trimQuiet s) := by
  unfold trimQuiet
  repeat' (first | with_reducible assumption | simp only [keeps_mk_iff])

theorem resetRegs_keeps {s0 : State} {s : State} {mask : Nat} {cold : Bool} (hK : Keeps s0 s) : Keeps s0
    (resetRegs s mask cold) := by
  unfold resetRegs
  repeat' (first | with_reducible assumption | with_reducible apply wr_keeps | with_reducible apply setFld_keeps
                  | simp only [keeps_mk_iff] | split)

theorem coresReset_keeps {s0 : State} {s : State} {q : Nat} (hK : Keeps s0 s) : Keeps s0 (coresReset s q) := by
  unfold coresReset
  extract_lets own v s1
  have h1 : Keeps s0 s1 := setHlk_keeps hK
  refine keeps_foldl (fun t c h => ?_) _ _ h1
  refine h.trans ⟨rfl, id, id, fun x d => ?_, id⟩
  show CoreOk (smGet {} (smDel t.cores c) d)
  rw [smGet_smDel]
  split
  · exact ⟨⟨by decide, by decide⟩, rfl⟩
  · exact x d

theorem smGet_map {α : Type} (d : α) (f : Nat × α → α) (k : Nat) : ∀ m : SMap α,
    (∃ p ∈ m, p.1 = k ∧ smGet d (m.map (fun c => (c.1, f c))) k = f p ∧ smGet d m k = p.2)
      ∨ (smGet d (m.map (fun c => (c.1, f c))) k = d ∧ smGet d m k = d)
  | [] => .inr ⟨rfl, rfl⟩
  | (j, v) :: m => by
    by_cases h : j = k
    · exact .inl ⟨(j, v), by simp, h, by simp [smGet, h], by simp [smGet, h]⟩
    · rcases smGet_map d f k m with ⟨p, hp, a, b, c⟩ | ⟨a, b⟩
      · exact .inl ⟨p, by simp [hp], a, by simp [smGet, h, b], by simp [smGet, h, c]⟩
      · exact .inr ⟨by simp [smGet, h, a], by simp [smGet, h, b]⟩

theorem stripPlans_keeps {s0 : State} {s : State} (hK : Keeps s0 s) : Keeps s0 (stripPlans s) := by
  refine hK.trans ⟨rfl, id, id, fun x d => ?_, id⟩
  have hd := x d
  show CoreOk (smGet {} (s.cores.map _) d)
  rcases smGet_map ({} : Core) (fun c => { c.2 with strm := c.2.strm.map (fun v => (v.1, stripEph v.2)) }) d s.cores with
    ⟨p, -, -, b, c⟩ | ⟨a, b⟩
  · rw [b]
    rw [show coreOf s d = p.2 from c] at hd
    exact hd
  · rw [a, ← show coreOf s d = {} from b]; exact hd

theorem pwrReset_keeps {s0 : State} {s : State} {cold : Bool} (hK : Keeps s0 s) : Keeps s0 (pwrReset s cold) := by
  unfold pwrReset
  repeat' (first | with_reducible assumption | simp only [keeps_mk_iff])

theorem domReset_keeps {s0 : State} {s : State} {mask : Nat} (hK : Keeps s0 s) : Keeps s0 (domReset s mask) := by
  unfold domReset
  repeat' (first | with_reducible assumption | simp only [keeps_mk_iff])

theorem bootReset_keeps {s0 : State} {s : State} {cold : Bool} (hK : Keeps s0 s) : Keeps s0 (bootReset s cold) := by
  unfold bootReset
  repeat' (first | with_reducible assumption | simp only [keeps_mk_iff])

theorem onBit_keeps {s0 : State} {mask : Nat} {b : Nat} {f : State → State} {s : State} (hK : Keeps s0 s)
    (hf_f : ∀ a0, Keeps s0 a0 → Keeps s0 (f a0)) : Keeps s0 (onBit mask b f s) := by
  unfold onBit
  repeat' (first | with_reducible assumption | with_reducible apply hf_f | split)

theorem onBits_keeps {s0 : State} {mask : Nat} {b : Nat} {n : Nat} {f : State → Nat → State} {s : State}
    (hK : Keeps s0 s) (hf_f : ∀ a0 a1, Keeps s0 a0 → Keeps s0 (f a0 a1)) : Keeps s0 (onBits mask b n f s) := by
  unfold onBits
  repeat' (first | with_reducible assumption | with_reducible apply hf_f
                  | (with_reducible apply keeps_foldl; (try intros)) | extract_lets | split)

theorem doReset_keeps {s0 : State} {s : State} {mask : Nat} {cold : Bool} (hK : Keeps s0 s) : Keeps s0
    (doReset s mask cold) := by
  unfold doReset
  repeat' (first | with_reducible assumption | with_reducible apply stkReset_keeps
                  | with_reducible apply plcReset_keeps | with_reducible apply nbuReset_keeps
                  | with_reducible apply rlyReset_keeps | with_reducible apply medReset_keeps
                  | with_reducible apply portReset_keeps | with_reducible apply fabcReset_keeps
                  | with_reducible apply hlkReset_keeps | with_reducible apply evtReset_keeps
                  | with_reducible apply hartReset_keeps | with_reducible apply resetRegs_keeps
                  | with_reducible apply coresReset_keeps | with_reducible apply stripPlans_keeps
                  | with_reducible apply pwrReset_keeps | with_reducible apply domReset_keeps
                  | with_reducible apply bootReset_keeps | with_reducible apply onBit_keeps
                  | with_reducible apply onBits_keeps | simp only [keeps_mk_iff]
                  | (with_reducible apply keeps_foldl; (try intros)) | extract_lets | split | intro hvl)

theorem porReset_keeps {s0 : State} {s : State} (hK : Keeps s0 s) : Keeps s0 (porReset s) := by
  unfold porReset
  repeat' (first | with_reducible assumption | with_reducible apply wr_keeps | simp only [keeps_mk_iff])

theorem enterReach_keeps {s0 : State} {s : State} {r : Nat} (hK : Keeps s0 s) : Keeps s0 (enterReach s r) := by
  unfold enterReach
  repeat' (first | with_reducible assumption | with_reducible apply wr_keeps | with_reducible apply trimQuiet_keeps
                  | with_reducible apply doReset_keeps | simp only [keeps_mk_iff] | extract_lets | split)

theorem assertSrc_keeps {s0 : State} {s : State} {b : Nat} {r : Nat} {hart : Option Nat} (hK : Keeps s0 s) : Keeps
    s0 (assertSrc s b r hart) := by
  unfold assertSrc
  repeat' (first | with_reducible assumption | with_reducible apply porReset_keeps
                  | with_reducible apply enterReach_keeps | simp only [keeps_mk_iff] | split)

theorem startExit_keeps {s0 : State} {s : State} (hK : Keeps s0 s) : Keeps s0 (startExit s) := by
  unfold startExit
  repeat' (first | with_reducible assumption | with_reducible apply wr_keeps | with_reducible apply bumpOcc_keeps
                  | simp only [keeps_mk_iff])

theorem releaseSrc_keeps {s0 : State} {s : State} {b : Nat} (hK : Keeps s0 s) : Keeps s0 (releaseSrc s b) := by
  unfold releaseSrc
  repeat' (first | with_reducible assumption | with_reducible apply startExit_keeps | simp only [keeps_mk_iff]
                  | split)

theorem brownoutLevel_keeps {s0 : State} {s : State} (hK : Keeps s0 s) : Keeps s0 (brownoutLevel s) := by
  unfold brownoutLevel
  repeat' (first | with_reducible assumption | with_reducible apply assertSrc_keeps
                  | with_reducible apply releaseSrc_keeps | simp only [keeps_mk_iff] | split)

theorem clockLevel_keeps {s0 : State} {s : State} (hK : Keeps s0 s) : Keeps s0 (clockLevel s) := by
  unfold clockLevel
  repeat' (first | with_reducible assumption | with_reducible apply assertSrc_keeps
                  | with_reducible apply releaseSrc_keeps | simp only [keeps_mk_iff] | split)

theorem execRailThreshold_keeps {s0 : State} {r : Rail} {good : Bool} {s : State} (hK : Keeps s0 s) : OutKeeps s0
    (execRailThreshold r good s) := by
  unfold execRailThreshold
  repeat' (first | with_reducible assumption | with_reducible apply assertSrc_keeps
                  | with_reducible apply brownoutLevel_keeps | with_reducible apply outKeeps_next
                  | simp only [keeps_mk_iff] | extract_lets | split)

theorem execPowerOnHoldEnd_keeps {s0 : State} {s : State} (hK : Keeps s0 s) : OutKeeps s0 (execPowerOnHoldEnd s) := by
  unfold execPowerOnHoldEnd
  repeat' (first | with_reducible assumption | with_reducible apply releaseSrc_keeps
                  | with_reducible apply outKeeps_next | split)

theorem execResetPinAccept_keeps {s0 : State} {high : Bool} {s : State} (hK : Keeps s0 s) : OutKeeps s0
    (execResetPinAccept high s) := by
  unfold execResetPinAccept
  repeat' (first | with_reducible assumption | with_reducible apply assertSrc_keeps
                  | with_reducible apply releaseSrc_keeps | with_reducible apply outKeeps_next
                  | simp only [keeps_mk_iff] | split)

theorem execClockMonitorWindow_keeps {s0 : State} {edges : Nat} {s : State} (hK : Keeps s0 s) : OutKeeps s0
    (execClockMonitorWindow edges s) := by
  unfold execClockMonitorWindow
  repeat' (first | with_reducible assumption | with_reducible apply clockLevel_keeps
                  | with_reducible apply outKeeps_next | simp only [keeps_mk_iff] | split)

theorem execPllLossOfLock_keeps {s0 : State} {s : State} (hK : Keeps s0 s) : OutKeeps s0 (execPllLossOfLock s) := by
  unfold execPllLossOfLock
  repeat' (first | with_reducible assumption | with_reducible apply clockLevel_keeps
                  | with_reducible apply outKeeps_next | simp only [keeps_mk_iff] | split)

theorem execResetSourceAssert_keeps {s0 : State} {src : RstSource} {reach : Reach} {hart : Option (Fin 8)}
    {s : State} (hK : Keeps s0 s) : OutKeeps s0 (execResetSourceAssert src reach hart s) := by
  unfold execResetSourceAssert
  repeat' (first | with_reducible assumption | with_reducible apply assertSrc_keeps
                  | with_reducible apply outKeeps_next | simp only [keeps_mk_iff] | split)

theorem execResetSourceRelease_keeps {s0 : State} {src : RstSource} {s : State} (hK : Keeps s0 s) : OutKeeps s0
    (execResetSourceRelease src s) := by
  unfold execResetSourceRelease
  repeat' (first | with_reducible assumption | with_reducible apply releaseSrc_keeps
                  | with_reducible apply outKeeps_next | split)

theorem swreqEff_keeps {s0 : State} {s : State} {ini : Initiator} {v : Nat} (hK : Keeps s0 s) : Keeps s0
    (swreqEff s ini v) := by
  unfold swreqEff
  repeat' (first | with_reducible assumption | with_reducible apply violation_keeps
                  | with_reducible apply assertSrc_keeps | simp only [keeps_mk_iff] | split)

theorem dbgreqEff_keeps {s0 : State} {s : State} {ini : Initiator} {v : Nat} (hK : Keeps s0 s) : Keeps s0
    (dbgreqEff s ini v) := by
  unfold dbgreqEff
  repeat' (first | with_reducible assumption | with_reducible apply violation_keeps
                  | with_reducible apply assertSrc_keeps | simp only [keeps_mk_iff] | split)

theorem execWdtExpire_keeps {s0 : State} {p : Fin 8} {s : State} (hK : Keeps s0 s) : OutKeeps s0 (execWdtExpire p s)
    := by
  unfold execWdtExpire
  repeat' (first | with_reducible assumption | with_reducible apply setFlag_keeps | with_reducible apply raise_keeps
                  | with_reducible apply wdtLoad_keeps | with_reducible apply assertSrc_keeps
                  | with_reducible apply outKeeps_next | simp only [keeps_mk_iff] | split)

theorem lockup_keeps {s0 : State} {s : State} {p : Nat} {pc : Nat} {cause : Nat} (hK : Keeps s0 s) : Keeps s0
    (lockup s p pc cause) := by
  unfold lockup
  repeat' (first | with_reducible assumption | with_reducible apply raise_keeps | with_reducible apply setHart_keeps
                  | with_reducible apply assertSrc_keeps | simp only [keeps_mk_iff] | with_reducible exact hvl _
                  | extract_lets | split | intro hvl)

theorem setMode_keeps {s0 : State} {s : State} {m : Nat} (hK : Keeps s0 s) : Keeps s0 (setMode s m) := by
  unfold setMode
  repeat' (first | with_reducible assumption | with_reducible apply setFld_keeps)

theorem execStrapReadDone_keeps {s0 : State} {codes : List Byte} {s : State} (hK : Keeps s0 s) : OutKeeps s0
    (execStrapReadDone codes s) := by
  unfold execStrapReadDone
  repeat' (first | with_reducible assumption | with_reducible apply wr_keeps | with_reducible apply setFlag_keeps
                  | with_reducible apply setMode_keeps | with_reducible apply outKeeps_next
                  | simp only [keeps_mk_iff] | split)

theorem wrWords_keeps {s0 : State} {s : State} {a : Nat} {v : Nat} {e0 : Nat} (hK : Keeps s0 s) : Keeps s0
    (wrWords s a v e0) := by
  revert hK
  fun_induction wrWords s a v e0 <;> intro hK
  all_goals (repeat' (with_reducible assumption))
  all_goals (try (apply_assumption; repeat' (first | with_reducible assumption | with_reducible apply wr_keeps)))

theorem showKey_keeps {s0 : State} {s : State} (hK : Keeps s0 s) : Keeps s0 (showKey s) := by
  unfold showKey
  repeat' (first | with_reducible assumption | with_reducible apply setFlag_keeps)

theorem fuseCommit_keeps {s0 : State} {s : State} {ws : List W32} (hK : Keeps s0 s) : Keeps s0 (fuseCommit s ws) := by
  unfold fuseCommit
  repeat' (first | with_reducible assumption | with_reducible apply wr_keeps | with_reducible apply setFld_keeps
                  | with_reducible apply wrWords_keeps | simp only [keeps_mk_iff]
                  | (with_reducible apply keeps_foldl; (try intros)))

theorem execFuseLoadDone_keeps {s0 : State} {words : List W32} {s : State} (hK : Keeps s0 s) : OutKeeps s0
    (execFuseLoadDone words s) := by
  unfold execFuseLoadDone
  repeat' (first | with_reducible assumption | with_reducible apply setFld_keeps
                  | with_reducible apply setFlag_keeps | with_reducible apply showKey_keeps
                  | with_reducible apply fuseCommit_keeps | with_reducible apply outKeeps_next
                  | simp only [keeps_mk_iff] | split)

theorem execPllLockDone_keeps {s0 : State} {s : State} (hK : Keeps s0 s) : OutKeeps s0 (execPllLockDone s) := by
  unfold execPllLockDone
  repeat' (first | with_reducible assumption | with_reducible apply outKeeps_next | simp only [keeps_mk_iff] | split)

theorem startRom_keeps {s0 : State} {s : State} (hK : Keeps s0 s) : Keeps s0 (startRom s) := by
  unfold startRom
  repeat' (first | with_reducible assumption | with_reducible apply runEff_keeps | simp only [keeps_mk_iff])

theorem blocksExit_keeps {s0 : State} {s : State} {mask : Nat} (hK : Keeps s0 s) : Keeps s0 (blocksExit s mask) := by
  unfold blocksExit
  repeat' (first | with_reducible assumption | with_reducible apply linkEnableEff_keeps
                  | with_reducible apply onBit_keeps | extract_lets | intro hvl)

theorem resetDone_keeps {s0 : State} {s : State} {core : Bool} (hK : Keeps s0 s) : Keeps s0 (resetDone s core) := by
  unfold resetDone
  repeat' (first | with_reducible assumption | with_reducible apply raiseDome_keeps
                  | with_reducible apply raise_keeps | simp only [keeps_mk_iff] | split)

theorem execResetRelease_keeps {s0 : State} {s : State} (hK : Keeps s0 s) : OutKeeps s0 (execResetRelease s) := by
  unfold execResetRelease
  repeat' (first | with_reducible assumption | with_reducible apply startRom_keeps
                  | with_reducible apply blocksExit_keeps | with_reducible apply resetDone_keeps
                  | with_reducible apply outKeeps_next | simp only [keeps_mk_iff] | extract_lets | split)

theorem blkReqEff_keeps {s0 : State} {s : State} {v : Nat} (hK : Keeps s0 s) : Keeps s0 (blkReqEff s v) := by
  unfold blkReqEff
  repeat' (first | with_reducible assumption | with_reducible apply wr_keeps | with_reducible apply trimQuiet_keeps
                  | with_reducible apply blocksExit_keeps | simp only [keeps_mk_iff])

theorem execBlockResetEnter_keeps {s0 : State} {b : Fin 64} {s : State} (hK : Keeps s0 s) : OutKeeps s0
    (execBlockResetEnter b s) := by
  unfold execBlockResetEnter
  repeat' (first | with_reducible assumption | with_reducible apply haltEff_keeps
                  | with_reducible apply doReset_keeps | with_reducible apply outKeeps_next
                  | simp only [keeps_mk_iff] | split)

theorem execBlkTimeout_keeps {s0 : State} {b : Fin 64} {s : State} (hK : Keeps s0 s) : OutKeeps s0
    (execBlkTimeout b s) := by
  unfold execBlkTimeout
  repeat' (first | with_reducible assumption | with_reducible apply wr_keeps | with_reducible apply raise_keeps
                  | with_reducible apply trimQuiet_keeps | with_reducible apply outKeeps_next
                  | simp only [keeps_mk_iff] | split)

theorem execBlkDone_keeps {s0 : State} {b : Fin 64} {s : State} (hK : Keeps s0 s) : OutKeeps s0 (execBlkDone b s)
    := by
  unfold execBlkDone
  repeat' (first | with_reducible assumption | with_reducible apply raise_keeps | with_reducible apply outKeeps_next
                  | simp only [keeps_mk_iff] | split)

end Sys2Proof.Machine
end

