-- ==== Sys2Proof/Laws/KeepsPower.lean ====
section
/-! SUPPORT. What the functions of Machine/Power.lean keep (see Laws/Keeps.lean). -/

set_option linter.unusedSimpArgs false
set_option simprocs false -- no numeral of a goal is evaluated in these proofs

namespace Sys2Proof.Machine

theorem setPwr_keeps {s0 : State} {s : State} {p : Pwr} (hK : Keeps s0 s) : Keeps s0 (setPwr s p) := by
  unfold setPwr
  repeat' (first | with_reducible assumption | simp only [keeps_mk_iff])

theorem oppStart_keeps {s0 : State} {s : State} (hK : Keeps s0 s) : Keeps s0 (oppStart s) := by
  unfold oppStart
  repeat' (first | with_reducible assumption | with_reducible apply setPwr_keeps | simp only [keeps_mk_iff] | split)

theorem execOppDone_keeps {s0 : State} {s : State} (hK : Keeps s0 s) : OutKeeps s0 (execOppDone s) := by
  unfold execOppDone
  repeat' (first | with_reducible assumption | with_reducible apply raise_keeps | with_reducible apply setPwr_keeps
                  | with_reducible apply outKeeps_next | simp only [keeps_mk_iff] | split)

theorem execPowerSample_keeps {s0 : State} {fast : Nat} {slow : Nat} {energy : Nat} {s : State} (hK : Keeps s0 s) :
    OutKeeps s0 (execPowerSample fast slow energy s) := by
  unfold execPowerSample
  repeat' (first | with_reducible assumption | with_reducible apply bumpStat_keeps
                  | with_reducible apply setPwr_keeps | with_reducible apply outKeeps_next
                  | simp only [keeps_mk_iff] | split)

theorem execCapAdjust_keeps {s0 : State} {s : State} (hK : Keeps s0 s) : OutKeeps s0 (execCapAdjust s) := by
  unfold execCapAdjust
  repeat' (first | with_reducible assumption | with_reducible apply raise_keeps | with_reducible apply setPwr_keeps
                  | with_reducible apply oppStart_keeps | with_reducible apply outKeeps_next
                  | simp only [keeps_mk_iff] | extract_lets | split)

theorem releaseQuads_keeps {s0 : State} {s : State} (hK : Keeps s0 s) : Keeps s0 (releaseQuads s) := by
  unfold releaseQuads
  repeat' (first | with_reducible assumption | with_reducible apply setPwr_keeps | simp only [keeps_mk_iff] | split)

theorem execThermalSample_keeps {s0 : State} {tj : Byte} {sensor : Fin 40} {s : State} (hK : Keeps s0 s) : OutKeeps
    s0 (execThermalSample tj sensor s) := by
  unfold execThermalSample
  repeat' (first | with_reducible assumption | with_reducible apply raise_keeps | with_reducible apply bumpOcc_keeps
                  | with_reducible apply setPwr_keeps | with_reducible apply releaseQuads_keeps
                  | with_reducible apply outKeeps_next | simp only [keeps_mk_iff] | split)

theorem execDomainAutoOff_keeps {s0 : State} {d : Fin 41} {s : State} (hK : Keeps s0 s) : OutKeeps s0
    (execDomainAutoOff d s) := by
  unfold execDomainAutoOff
  repeat' (first | with_reducible assumption | with_reducible apply stkSelfRefresh_keeps
                  | with_reducible apply setPwr_keeps | with_reducible apply outKeeps_next
                  | simp only [keeps_mk_iff] | extract_lets | split)

theorem startWake_keeps {s0 : State} {s : State} (hK : Keeps s0 s) : Keeps s0 (startWake s) := by
  unfold startWake
  repeat' (first | with_reducible assumption | with_reducible apply bumpOcc_keeps
                  | with_reducible apply setPwr_keeps | simp only [keeps_mk_iff] | split)

theorem wakeFire_keeps {s0 : State} {s : State} {c : Nat} (hK : Keeps s0 s) : Keeps s0 (wakeFire s c) := by
  unfold wakeFire
  repeat' (first | with_reducible assumption | with_reducible apply wr_keeps | with_reducible apply raise_keeps
                  | with_reducible apply setPwr_keeps | with_reducible apply startWake_keeps
                  | simp only [keeps_mk_iff] | split)

theorem execWakePinAccept_keeps {s0 : State} {high : Bool} {s : State} (hK : Keeps s0 s) : OutKeeps s0
    (execWakePinAccept high s) := by
  unfold execWakePinAccept
  repeat' (first | with_reducible assumption | with_reducible apply setPwr_keeps
                  | with_reducible apply wakeFire_keeps | with_reducible apply outKeeps_next
                  | simp only [keeps_mk_iff] | extract_lets | split)

theorem execSmbusAddressMatch_keeps {s0 : State} {addr : BitVec 7} {s : State} (hK : Keeps s0 s) : OutKeeps s0
    (execSmbusAddressMatch addr s) := by
  unfold execSmbusAddressMatch
  repeat' (first | with_reducible assumption | with_reducible apply wakeFire_keeps
                  | with_reducible apply outKeeps_next | split)

theorem execRalineActivity_keeps {s0 : State} {s : State} (hK : Keeps s0 s) : OutKeeps s0 (execRalineActivity s) := by
  unfold execRalineActivity
  repeat' (first | with_reducible assumption | with_reducible apply wakeFire_keeps
                  | with_reducible apply outKeeps_next | split)

theorem execWatchWake_keeps {s0 : State} {source : Nat} {s : State} (hK : Keeps s0 s) : OutKeeps s0
    (execWatchWake source s) := by
  unfold execWatchWake
  repeat' (first | with_reducible assumption | with_reducible apply wakeFire_keeps
                  | with_reducible apply outKeeps_next | split)

theorem linksBack_keeps {s0 : State} {s : State} (hK : Keeps s0 s) : Keeps s0 (linksBack s) := by
  unfold linksBack
  repeat' (first | with_reducible assumption | with_reducible apply linkEnableEff_keeps
                  | (with_reducible apply keeps_foldl; (try intros)) | extract_lets | split)

theorem quadsBack_keeps {s0 : State} {s : State} (hK : Keeps s0 s) : Keeps s0 (quadsBack s) := by
  unfold quadsBack
  repeat' (first | with_reducible assumption | with_reducible apply setPwr_keeps | simp only [keeps_mk_iff] | split)

theorem wakeEnd_keeps {s0 : State} {s : State} {from_ : Nat} (hK : Keeps s0 s) : Keeps s0 (wakeEnd s from_) := by
  unfold wakeEnd
  repeat' (first | with_reducible assumption | with_reducible apply raise_keeps
                  | with_reducible apply trimQuiet_keeps | with_reducible apply setPwr_keeps
                  | with_reducible apply linksBack_keeps | with_reducible apply quadsBack_keeps
                  | simp only [keeps_mk_iff] | split)

theorem execWakeDone_keeps {s0 : State} {s : State} (hK : Keeps s0 s) : OutKeeps s0 (execWakeDone s) := by
  unfold execWakeDone
  repeat' (first | with_reducible assumption | with_reducible apply wakeEnd_keeps
                  | with_reducible apply outKeeps_next | split)

theorem execDomainWake_keeps {s0 : State} {d : Fin 41} {s : State} (hK : Keeps s0 s) : OutKeeps s0
    (execDomainWake d s) := by
  unfold execDomainWake
  repeat' (first | with_reducible assumption | with_reducible apply bumpOcc_keeps
                  | with_reducible apply setPwr_keeps | with_reducible apply wakeFire_keeps
                  | with_reducible apply outKeeps_next | simp only [keeps_mk_iff] | extract_lets | split)

theorem execDomainReady_keeps {s0 : State} {d : Fin 41} {s : State} (hK : Keeps s0 s) : OutKeeps s0
    (execDomainReady d s) := by
  unfold execDomainReady
  repeat' (first | with_reducible assumption | with_reducible apply stkWake_keeps
                  | with_reducible apply setPwr_keeps | with_reducible apply outKeeps_next
                  | simp only [keeps_mk_iff] | extract_lets | split)

theorem openStatus_keeps {s0 : State} {s : State} (hK : Keeps s0 s) : Keeps s0 (openStatus s).2 := by
  unfold openStatus
  repeat' (first | with_reducible assumption | with_reducible apply fresh_keeps)

theorem enterState_keeps {s0 : State} {s : State} {c : HCmd} {t : Nat} (hK : Keeps s0 s) : Keeps s0
    (enterState s c t) := by
  unfold enterState
  repeat' (first | with_reducible assumption | with_reducible apply raise_keeps | with_reducible apply putCmdH_keeps
                  | with_reducible apply setCmdPart_keeps | with_reducible apply setPwr_keeps
                  | with_reducible apply wakeFire_keeps | with_reducible apply openStatus_keeps
                  | simp only [keeps_mk_iff] | split)

theorem execPowerEnter_keeps {s0 : State} {q : Fin 256} {cid : BitVec 16} {s : State} (hK : Keeps s0 s) : OutKeeps
    s0 (execPowerEnter q cid s) := by
  unfold execPowerEnter
  repeat' (first | with_reducible assumption | with_reducible apply enterState_keeps
                  | with_reducible apply outKeeps_next | split)

theorem execPowerQuery_keeps {s0 : State} {q : Fin 256} {cid : BitVec 16} {s : State} (hK : Keeps s0 s) : OutKeeps
    s0 (execPowerQuery q cid s) := by
  unfold execPowerQuery
  repeat' (first | with_reducible assumption | with_reducible apply putCmdH_keeps
                  | with_reducible apply outKeeps_next | split)

theorem entryReply_keeps {s0 : State} {s : State} {e : Entry} {st : Nat} (hK : Keeps s0 s) : Keeps s0
    (entryReply s e st) := by
  unfold entryReply
  repeat' (first | with_reducible assumption | with_reducible apply putCmdH_keeps | split)

theorem execEntryQuiesced_keeps {s0 : State} {s : State} (hK : Keeps s0 s) : OutKeeps s0 (execEntryQuiesced s) := by
  unfold execEntryQuiesced
  repeat' (first | with_reducible assumption | with_reducible apply setPwr_keeps
                  | with_reducible apply entryReply_keeps | with_reducible apply outKeeps_next
                  | simp only [keeps_mk_iff] | split)

theorem linkSleep_keeps {s0 : State} {s : State} {l : Nat} (hK : Keeps s0 s) : Keeps s0 (linkSleep s l) := by
  unfold linkSleep
  repeat' (first | with_reducible assumption | with_reducible apply setFlag_keeps
                  | with_reducible apply setLink_keeps | with_reducible apply hostSuspend_keeps
                  | simp only [keeps_mk_iff] | split)

theorem clockStop_keeps {s0 : State} {s : State} {e : Entry} (hK : Keeps s0 s) : Keeps s0 (clockStop s e) := by
  unfold clockStop
  repeat' (first | with_reducible assumption | with_reducible apply stkSelfRefresh_keeps
                  | with_reducible apply enterReach_keeps | with_reducible apply setPwr_keeps
                  | with_reducible apply startWake_keeps | with_reducible apply linkSleep_keeps
                  | simp only [keeps_mk_iff] | (with_reducible apply keeps_foldl; (try intros)) | split)

theorem execEntryClockStop_keeps {s0 : State} {s : State} (hK : Keeps s0 s) : OutKeeps s0 (execEntryClockStop s) := by
  unfold execEntryClockStop
  repeat' (first | with_reducible assumption | with_reducible apply clockStop_keeps
                  | with_reducible apply outKeeps_next | split)

theorem execEntryAbandoned_keeps {s0 : State} {s : State} (hK : Keeps s0 s) : OutKeeps s0 (execEntryAbandoned s) := by
  unfold execEntryAbandoned
  repeat' (first | with_reducible assumption | with_reducible apply raise_keeps
                  | with_reducible apply trimQuiet_keeps | with_reducible apply setPwr_keeps
                  | with_reducible apply entryReply_keeps | with_reducible apply clockStop_keeps
                  | with_reducible apply outKeeps_next | simp only [keeps_mk_iff] | split)

theorem railsGone_keeps {s0 : State} {s : State} (hK : Keeps s0 s) : Keeps s0 (railsGone s) := by
  unfold railsGone
  repeat' (first | with_reducible assumption | with_reducible apply assertSrc_keeps | simp only [keeps_mk_iff]
                  | split)

theorem execOffWake_keeps {s0 : State} {s : State} (hK : Keeps s0 s) : OutKeeps s0 (execOffWake s) := by
  unfold execOffWake
  repeat' (first | with_reducible assumption | with_reducible apply setPwr_keeps
                  | with_reducible apply railsGone_keeps | with_reducible apply outKeeps_next
                  | simp only [keeps_mk_iff] | split)

theorem execThermalShutdown_keeps {s0 : State} {s : State} (hK : Keeps s0 s) : OutKeeps s0 (execThermalShutdown s)
    := by
  unfold execThermalShutdown
  repeat' (first | with_reducible assumption | with_reducible apply setFlag_keeps
                  | with_reducible apply setPwr_keeps | with_reducible apply outKeeps_next
                  | simp only [keeps_mk_iff] | split)

theorem execRailEnRelease_keeps {s0 : State} {s : State} (hK : Keeps s0 s) : OutKeeps s0 (execRailEnRelease s) := by
  unfold execRailEnRelease
  repeat' (first | with_reducible assumption | with_reducible apply setPwr_keeps
                  | with_reducible apply railsGone_keeps | with_reducible apply outKeeps_next
                  | simp only [keeps_mk_iff] | split)

theorem execVstbyLoss_keeps {s0 : State} {s : State} (hK : Keeps s0 s) : OutKeeps s0 (execVstbyLoss s) := by
  unfold execVstbyLoss
  repeat' (first | with_reducible assumption | with_reducible apply wr_keeps | with_reducible apply setPwr_keeps
                  | with_reducible apply railsGone_keeps | with_reducible apply outKeeps_next)

theorem execSmbusBlockRead_keeps {s0 : State} {code : Byte} {s : State} (hK : Keeps s0 s) : OutKeeps s0
    (execSmbusBlockRead code s) := by
  unfold execSmbusBlockRead
  repeat' (first | with_reducible assumption | with_reducible apply setPwr_keeps
                  | with_reducible apply outKeeps_next | simp only [keeps_mk_iff] | split)

end Sys2Proof.Machine
end

