-- ==== Sys2Proof/Laws/KeepsPlate.lean ====
section
/-! SUPPORT. What the functions of Machine/Plate.lean keep (see Laws/Keeps.lean). -/

set_option linter.unusedSimpArgs false
set_option simprocs false -- no numeral of a goal is evaluated in these proofs

namespace Sys2Proof.Machine

theorem quiesceReqEff_keeps {s0 : State} {s : State} {v : Nat} (hK : Keeps s0 s) : Keeps s0 (quiesceReqEff s v) := by
  unfold quiesceReqEff
  repeat' (first | with_reducible assumption | with_reducible apply wr_keeps | with_reducible apply trimQuiet_keeps)

theorem execBlockQuiesced_keeps {s0 : State} {b : Fin 45} {s : State} (hK : Keeps s0 s) : OutKeeps s0
    (execBlockQuiesced b s) := by
  unfold execBlockQuiesced
  repeat' (first | with_reducible assumption | with_reducible apply outKeeps_next | simp only [keeps_mk_iff] | split)

theorem execQuiesceTimeout_keeps {s0 : State} {s : State} (hK : Keeps s0 s) : OutKeeps s0 (execQuiesceTimeout s) := by
  unfold execQuiesceTimeout
  repeat' (first | with_reducible assumption | with_reducible apply setFlag_keeps | with_reducible apply raise_keeps
                  | with_reducible apply outKeeps_next | simp only [keeps_mk_iff] | split)

theorem commitGoEff_keeps {s0 : State} {s : State} {ini : Initiator} (hK : Keeps s0 s) : Keeps s0
    (commitGoEff s ini) := by
  unfold commitGoEff
  repeat' (first | with_reducible assumption | with_reducible apply wr_keeps | with_reducible apply setFlag_keeps
                  | with_reducible apply raise_keeps | with_reducible apply violation_keeps
                  | simp only [keeps_mk_iff] | split)

theorem commitReg_keeps {s0 : State} {mask : Nat} {s : State} {a : Nat} (hK : Keeps s0 s) : Keeps s0
    (commitReg mask s a) := by
  unfold commitReg
  repeat' (first | with_reducible assumption | with_reducible apply wr_keeps | simp only [keeps_mk_iff] | split)

theorem commitUnits_keeps {s0 : State} {mask : Nat} {was : State} {s : State} (hK : Keeps s0 was) (hK1 : Keeps s0 s)
    : Keeps s0 (commitUnits mask was s) := by
  unfold commitUnits
  repeat' (first | with_reducible assumption | with_reducible apply portCommit_keeps
                  | with_reducible apply bpCommit_keeps | with_reducible apply oppStart_keeps
                  | simp only [keeps_mk_iff] | (with_reducible apply keeps_foldl; (try intros)) | extract_lets
                  | split)

theorem commitDo_keeps {s0 : State} {s : State} {mask : Nat} (hK : Keeps s0 s) : Keeps s0 (commitDo s mask) := by
  unfold commitDo
  repeat' (first | with_reducible assumption | with_reducible apply wr_keeps | with_reducible apply setFlag_keeps
                  | with_reducible apply trimQuiet_keeps | with_reducible apply commitReg_keeps
                  | with_reducible apply commitUnits_keeps | simp only [keeps_mk_iff]
                  | (with_reducible apply keeps_foldl; (try intros)))

theorem publishEff_keeps {s0 : State} {s : State} (hK : Keeps s0 s) : Keeps s0 (publishEff s) := by
  unfold publishEff
  repeat' (first | with_reducible assumption | with_reducible apply setFlag_keeps | with_reducible apply raise_keeps)

theorem plateClearEff_keeps {s0 : State} {s : State} {ini : Initiator} (hK : Keeps s0 s) : Keeps s0
    (plateClearEff s ini) := by
  unfold plateClearEff
  repeat' (first | with_reducible assumption | with_reducible apply setFlag_keeps
                  | with_reducible apply violation_keeps | split)

theorem plateAckEff_keeps {s0 : State} {s : State} {ini : Initiator} {v : Nat} (hK : Keeps s0 s) : Keeps s0
    (plateAckEff s ini v) := by
  unfold plateAckEff
  repeat' (first | with_reducible assumption | with_reducible apply setFlag_keeps | with_reducible apply raise_keeps
                  | with_reducible apply violation_keeps | split)

theorem clearPage_keeps {s0 : State} {s : State} {p : Nat} (hK : Keeps s0 s) : Keeps s0 (clearPage s p).1 := by
  unfold clearPage
  repeat' (first | with_reducible assumption | with_reducible apply ltaWrite_keeps)

theorem clearPages_keeps {s0 : State} {e0 : List Nat} {e1 : State} {e2 : List Nat} (hK : Keeps s0 e1) : Keeps s0
    (clearPages e0 e1 e2).1 := by
  revert hK
  fun_induction clearPages e0 e1 e2 <;> intro hK
  all_goals (repeat' (first | with_reducible assumption | with_reducible apply clearPage_keeps | simp only [keeps_mk_iff]
                             | with_reducible refine keeps_fst (by assumption) ?_))
  all_goals (try (apply_assumption; repeat' (first | with_reducible assumption | with_reducible apply clearPage_keeps
                                                     | with_reducible refine keeps_fst (by assumption) ?_)))

theorem execPlateClearDone_keeps {s0 : State} {s : State} (hK : Keeps s0 s) : OutKeeps s0 (execPlateClearDone s) := by
  unfold execPlateClearDone
  repeat' (first | with_reducible assumption | with_reducible apply setFld_keeps
                  | with_reducible apply setFlag_keeps | with_reducible apply raise_keeps
                  | with_reducible apply clearPages_keeps | with_reducible apply outKeeps_next
                  | simp only [keeps_mk_iff] | with_reducible refine keeps_fst (by assumption) ?_ | split)

end Sys2Proof.Machine
end

