-- ==== Sys2Proof/Laws/KeepsView.lean ====
section
/-! SUPPORT. What the functions of Machine/View.lean keep (see Laws/Keeps.lean). -/

set_option linter.unusedSimpArgs false
set_option simprocs false -- no numeral of a goal is evaluated in these proofs

namespace Sys2Proof.Machine

theorem readClear_keeps {s0 : State} {s : State} {r : RegAt} {left : Nat} (hK : Keeps s0 s) : Keeps s0
    (readClear s r left) := by
  unfold readClear
  repeat' (first | with_reducible assumption | with_reducible apply wr_keeps | split)

end Sys2Proof.Machine
end

