-- ==== Sys2Proof/Laws/KeepsBoot.lean ====
section
/-! SUPPORT. What the functions of Machine/Boot.lean keep (see Laws/Keeps.lean). -/

set_option linter.unusedSimpArgs false
set_option simprocs false -- no numeral of a goal is evaluated in these proofs

namespace Sys2Proof.Machine

theorem setPhase_keeps {s0 : State} {s : State} {p : Nat} (hK : Keeps s0 s) : Keeps s0 (setPhase s p) := by
  unfold setPhase
  repeat' (first | with_reducible assumption | with_reducible apply setFld_keeps)

theorem setBoot_keeps {s0 : State} {s : State} {b : Boot} (hK : Keeps s0 s) : Keeps s0 (setBoot s b) := by
  unfold setBoot
  repeat' (first | with_reducible assumption | simp only [keeps_mk_iff])

theorem startSect_keeps {s0 : State} {s : State} {x : Sect} (hK : Keeps s0 s) : Keeps s0 (startSect s x) := by
  unfold startSect
  repeat' (first | with_reducible assumption | with_reducible apply wr_keeps | with_reducible apply setHart_keeps
                  | with_reducible apply runEff_keeps | simp only [keeps_mk_iff] | with_reducible exact hvl _
                  | extract_lets | split | intro hvl)

theorem startFirmware_keeps {s0 : State} {s : State} {r : Rom} (hK : Keeps s0 s) : Keeps s0 (startFirmware s r) := by
  unfold startFirmware
  repeat' (first | with_reducible assumption | with_reducible apply setFld_keeps | with_reducible apply raise_keeps
                  | with_reducible apply setHart_keeps | with_reducible apply setPhase_keeps
                  | with_reducible apply setBoot_keeps | with_reducible apply startSect_keeps
                  | simp only [keeps_mk_iff] | (with_reducible apply keeps_foldl; (try intros))
                  | with_reducible exact hvl _ | extract_lets | split | intro hvl)

theorem modeOvrEff_keeps {s0 : State} {s : State} {ini : Initiator} {m : Nat} (hK : Keeps s0 s) : Keeps s0
    (modeOvrEff s ini m) := by
  unfold modeOvrEff
  repeat' (first | with_reducible assumption | with_reducible apply setFld_keeps
                  | with_reducible apply violation_keeps | with_reducible apply setPhase_keeps
                  | with_reducible apply setBoot_keeps | simp only [keeps_mk_iff] | split)

theorem confirmEff_keeps {s0 : State} {s : State} (hK : Keeps s0 s) : Keeps s0 (confirmEff s) := by
  unfold confirmEff
  repeat' (first | with_reducible assumption | with_reducible apply setFld_keeps | split)

theorem releaseEff_keeps {s0 : State} {s : State} (hK : Keeps s0 s) : Keeps s0 (releaseEff s) := by
  unfold releaseEff
  repeat' (first | with_reducible assumption | with_reducible apply startFirmware_keeps | split)

theorem hostDataEff_keeps {s0 : State} {s : State} {ini : Initiator} {v : Nat} (hK : Keeps s0 s) : Keeps s0
    (hostDataEff s ini v) := by
  unfold hostDataEff
  repeat' (first | with_reducible assumption | with_reducible apply violation_keeps
                  | with_reducible apply setBoot_keeps | simp only [keeps_mk_iff] | split)

theorem flCmdEff_keeps {s0 : State} {s : State} {ini : Initiator} {op : Nat} {id : Bytes} (hK : Keeps s0 s) : Keeps
    s0 (flCmdEff s ini op id) := by
  unfold flCmdEff
  repeat' (first | with_reducible assumption | with_reducible apply violation_keeps
                  | with_reducible apply setBoot_keeps | simp only [keeps_mk_iff] | split)

theorem flBufPut_keeps {s0 : State} {s : State} {bs : Bytes} (hK : Keeps s0 s) : Keeps s0 (flBufPut s bs) := by
  unfold flBufPut
  repeat' (first | with_reducible assumption | with_reducible apply wr_keeps | simp only [keeps_mk_iff]
                  | (with_reducible apply keeps_foldl; (try intros)))

theorem flashDo_keeps {s0 : State} {s : State} {op : Nat} {a : Nat} {n : Nat} (hK : Keeps s0 s) : Keeps s0
    (flashDo s op a n).1 := by
  unfold flashDo
  repeat' (first | with_reducible assumption | with_reducible apply setBoot_keeps
                  | with_reducible apply flBufPut_keeps | simp only [keeps_mk_iff] | split)

theorem execFlashDone_keeps {s0 : State} {s : State} (hK : Keeps s0 s) : OutKeeps s0 (execFlashDone s) := by
  unfold execFlashDone
  repeat' (first | with_reducible assumption | with_reducible apply setFld_keeps | with_reducible apply raise_keeps
                  | with_reducible apply setBoot_keeps | with_reducible apply flashDo_keeps
                  | with_reducible apply outKeeps_next | simp only [keeps_mk_iff] | split)

theorem secCmdEff_keeps {s0 : State} {s : State} {ini : Initiator} {op : Nat} (hK : Keeps s0 s) : Keeps s0
    (secCmdEff s ini op) := by
  unfold secCmdEff
  repeat' (first | with_reducible assumption | with_reducible apply violation_keeps
                  | with_reducible apply setBoot_keeps | simp only [keeps_mk_iff] | split)

theorem extend_keeps {s0 : State} {s : State} {i : Nat} {d : Bytes} (hK : Keeps s0 s) : Keeps s0 (extend s i d) := by
  unfold extend
  repeat' (first | with_reducible assumption | with_reducible apply wrWords_keeps)

theorem blow_keeps {s0 : State} {s : State} {w : Nat} {v : Nat} (hK : Keeps s0 s) : Keeps s0 (blow s w v) := by
  unfold blow
  repeat' (first | with_reducible assumption | with_reducible apply setBoot_keeps)

theorem blowWords_keeps {s0 : State} {s : State} {w : Nat} {v : Nat} {e0 : Nat} (hK : Keeps s0 s) : Keeps s0
    (blowWords s w v e0) := by
  revert hK
  fun_induction blowWords s w v e0 <;> intro hK
  all_goals (repeat' (with_reducible assumption))
  all_goals (try (apply_assumption; repeat' (first | with_reducible assumption | with_reducible apply blow_keeps)))

theorem secRead_keeps {s0 : State} {s : State} {k : Nat} {a : Nat} {n : Nat}
    {f : State → Bytes → State × Option Nat} (hK : Keeps s0 s) (hf_f : ∀ a0 a1, Keeps s0 a0 → Keeps s0 (f a0 a1).1)
    : Keeps s0 (secRead s k a n f).1 := by
  unfold secRead
  repeat' (first | with_reducible assumption | with_reducible apply hf_f | with_reducible apply ltaRead_keeps
                  | simp only [keeps_mk_iff] | with_reducible refine keeps_fst (by assumption) ?_ | split)

theorem secHashDo_keeps {s0 : State} {s : State} {a : Nat} {n : Nat} (hK : Keeps s0 s) : Keeps s0
    (secHashDo s a n).1 := by
  unfold secHashDo
  repeat' (first | with_reducible assumption | with_reducible apply wrWords_keeps
                  | with_reducible apply secRead_keeps | simp only [keeps_mk_iff] | intro hvl)

theorem secVerifyDo_keeps {s0 : State} {s : State} {a : Nat} (hK : Keeps s0 s) : Keeps s0 (secVerifyDo s a).1 := by
  unfold secVerifyDo
  repeat' (first | with_reducible assumption | with_reducible apply setFlag_keeps
                  | with_reducible apply secRead_keeps | simp only [keeps_mk_iff] | intro hvl)

theorem secExtendDo_keeps {s0 : State} {s : State} {i : Nat} {a : Nat} (hK : Keeps s0 s) : Keeps s0
    (secExtendDo s i a).1 := by
  unfold secExtendDo
  repeat' (first | with_reducible assumption | with_reducible apply extend_keeps
                  | with_reducible apply secRead_keeps | simp only [keeps_mk_iff] | split | intro hvl)

theorem secReportDo_keeps {s0 : State} {s : State} {a : Nat} {d : Nat} (hK : Keeps s0 s) : Keeps s0
    (secReportDo s a d).1 := by
  unfold secReportDo
  repeat' (first | with_reducible assumption | with_reducible apply ltaWrite_keeps
                  | with_reducible apply secRead_keeps | simp only [keeps_mk_iff] | extract_lets | split | intro hvl)

theorem svnSetDo_keeps {s0 : State} {s : State} {v : Nat} (hK : Keeps s0 s) : Keeps s0 (svnSetDo s v).1 := by
  unfold svnSetDo
  repeat' (first | with_reducible assumption | with_reducible apply setFld_keeps
                  | with_reducible apply blowWords_keeps | split)

theorem keyProgramDo_keeps {s0 : State} {s : State} {t : Nat} {a : Nat} (hK : Keeps s0 s) : Keeps s0
    (keyProgramDo s t a).1 := by
  unfold keyProgramDo
  repeat' (first | with_reducible assumption | with_reducible apply setFlag_keeps
                  | with_reducible apply wrWords_keeps | with_reducible apply blowWords_keeps
                  | with_reducible apply secRead_keeps | simp only [keeps_mk_iff] | split | intro hvl)

theorem keyRevokeDo_keeps {s0 : State} {s : State} {t : Nat} (hK : Keeps s0 s) : Keeps s0 (keyRevokeDo s t).1 := by
  unfold keyRevokeDo
  repeat' (first | with_reducible assumption | with_reducible apply setFlag_keeps | with_reducible apply blow_keeps
                  | split)

theorem lifecycleDo_keeps {s0 : State} {s : State} (hK : Keeps s0 s) : Keeps s0 (lifecycleDo s).1 := by
  unfold lifecycleDo
  repeat' (first | with_reducible assumption | with_reducible apply setFld_keeps
                  | with_reducible apply showKey_keeps | with_reducible apply blow_keeps | simp only [keeps_mk_iff]
                  | split)

theorem secDo_keeps {s0 : State} {s : State} {op : Nat} {a : Nat} {b : Nat} (hK : Keeps s0 s) : Keeps s0
    (secDo s op a b).1 := by
  unfold secDo
  repeat' (first | with_reducible assumption | with_reducible apply secHashDo_keeps
                  | with_reducible apply secVerifyDo_keeps | with_reducible apply secExtendDo_keeps
                  | with_reducible apply secReportDo_keeps | with_reducible apply svnSetDo_keeps
                  | with_reducible apply keyProgramDo_keeps | with_reducible apply keyRevokeDo_keeps
                  | with_reducible apply lifecycleDo_keeps | split)

theorem execSecCmdDone_keeps {s0 : State} {s : State} (hK : Keeps s0 s) : OutKeeps s0 (execSecCmdDone s) := by
  unfold execSecCmdDone
  repeat' (first | with_reducible assumption | with_reducible apply setFld_keeps | with_reducible apply raise_keeps
                  | with_reducible apply setBoot_keeps | with_reducible apply secDo_keeps
                  | with_reducible apply outKeeps_next | simp only [keeps_mk_iff]
                  | with_reducible refine keeps_fst (by assumption) ?_ | split)

theorem execHelloProofSign_keeps {s0 : State} {l : Fin 24} {s : State} (hK : Keeps s0 s) : OutKeeps s0
    (execHelloProofSign l s) := by
  unfold execHelloProofSign
  repeat' (first | with_reducible assumption | with_reducible apply sendLocal_keeps
                  | with_reducible apply outKeeps_next | simp only [keeps_mk_iff] | split)

end Sys2Proof.Machine
end

