-- ==== Sys2Proof/Laws/KeepsAccess.lean ====
section
/-! SUPPORT. What the functions of Machine/Access.lean keep (see Laws/Keeps.lean). -/

set_option linter.unusedSimpArgs false
set_option simprocs false -- no numeral of a goal is evaluated in these proofs

namespace Sys2Proof.Machine

theorem markShadow_keeps {s0 : State} {s : State} {a : Nat} (hK : Keeps s0 s) : Keeps s0 (markShadow s a) := by
  unfold markShadow
  repeat' (first | with_reducible assumption | with_reducible apply wr_keeps | split)

theorem putField_keeps {s0 : State} {s : State} {ini : Initiator} {a : Nat} {w : Nat} {v : Nat} {f : Field}
    (hK : Keeps s0 s) : Keeps s0 (putField s ini a w v f) := by
  unfold putField
  repeat' (first | with_reducible assumption | with_reducible apply wrShadow_keeps
                  | with_reducible apply setFld_keeps | with_reducible apply violation_keeps
                  | with_reducible apply markShadow_keeps | simp only [keeps_mk_iff] | split)

theorem putFields_keeps {s0 : State} {s : State} {ini : Initiator} {r : RegAt} {w : Nat} {v : Nat} (hK : Keeps s0 s)
    : Keeps s0 (putFields s ini r w v) := by
  unfold putFields
  repeat' (first | with_reducible assumption | with_reducible apply putField_keeps
                  | (with_reducible apply keeps_foldl; (try intros)))

theorem turnedAway_keeps {s0 : State} {s : State} {ini : Initiator} {w : Nat} (hK : Keeps s0 s) : Keeps s0
    (turnedAway s ini w) := by
  unfold turnedAway
  repeat' (first | with_reducible assumption | with_reducible apply violation_keeps)

theorem putLocked_keeps {s0 : State} {s : State} {ini : Initiator} {r : RegAt} {w : Nat} {v : Nat} {hi : Nat}
    {lo : Nat} {locked : Bool} (hK : Keeps s0 s) : Keeps s0 (putLocked s ini r w v hi lo locked) := by
  unfold putLocked
  repeat' (first | with_reducible assumption | with_reducible apply putFields_keeps
                  | with_reducible apply turnedAway_keeps | simp only [keeps_mk_iff] | split)

theorem putUnless_keeps {s0 : State} {s : State} {ini : Initiator} {r : RegAt} {w : Nat} {v : Nat} {locked : Bool}
    (hK : Keeps s0 s) : Keeps s0 (putUnless s ini r w v locked) := by
  unfold putUnless
  repeat' (first | with_reducible assumption | with_reducible apply putFields_keeps
                  | with_reducible apply turnedAway_keeps | split)

theorem whenB_keeps {s0 : State} {c : Bool} {f : State → State} {s : State} (hK : Keeps s0 s)
    (hf_f : ∀ a0, Keeps s0 a0 → Keeps s0 (f a0)) : Keeps s0 (whenB c f s) := by
  unfold whenB
  repeat' (first | with_reducible assumption | with_reducible apply hf_f | split)

theorem putGlb_keeps {s0 : State} {s : State} {ini : Initiator} {r : RegAt} {w : Nat} {v : Nat} (hK : Keeps s0 s) :
    Keeps s0 (putGlb s ini r w v) := by
  unfold putGlb
  repeat' (first | with_reducible assumption | with_reducible apply quiesceReqEff_keeps
                  | with_reducible apply commitGoEff_keeps | with_reducible apply publishEff_keeps
                  | with_reducible apply plateClearEff_keeps | with_reducible apply plateAckEff_keeps
                  | with_reducible apply putFields_keeps | with_reducible apply whenB_keeps | extract_lets | split
                  | intro hvl)

theorem strmFailEff_keeps {s0 : State} {s : State} {a : Nat} {v : Nat} (hK : Keeps s0 s) : Keeps s0
    (strmFailEff s a v) := by
  unfold strmFailEff
  repeat' (first | with_reducible assumption | with_reducible apply setFld_keeps
                  | with_reducible apply setFlag_keeps | split)

theorem putCore_keeps {s0 : State} {s : State} {ini : Initiator} {r : RegAt} {w : Nat} {v : Nat} {c : Nat}
    (hK : Keeps s0 s) : Keeps s0 (putCore s ini r w v c) := by
  unfold putCore
  repeat' (first | with_reducible assumption | with_reducible apply setCore_keeps
                  | with_reducible apply strmCancelAll_keeps | with_reducible apply coreRunEff_keeps
                  | with_reducible apply coreStopEff_keeps | with_reducible apply corePcEff_keeps
                  | with_reducible apply coreFaultClrEff_keeps | with_reducible apply coreSbClearEff_keeps
                  | with_reducible apply coreSbSetEff_keeps | with_reducible apply coreSbFailEff_keeps
                  | with_reducible apply accTmodeEff_keeps | with_reducible apply strmPushEff_keeps
                  | with_reducible apply putFields_keeps | with_reducible apply whenB_keeps
                  | with_reducible apply strmFailEff_keeps | simp only [keeps_mk_iff] | with_reducible exact hvl _
                  | extract_lets | split | intro hvl)

theorem putStk_keeps {s0 : State} {s : State} {ini : Initiator} {r : RegAt} {w : Nat} {v : Nat} {i : Nat}
    (hK : Keeps s0 s) : Keeps s0 (putStk s ini r w v i) := by
  unfold putStk
  repeat' (first | with_reducible assumption | with_reducible apply rowlogClrEff_keeps
                  | with_reducible apply errClearEff_keeps | with_reducible apply putFields_keeps
                  | with_reducible apply whenB_keeps | extract_lets | split | intro hvl)

theorem putNbu_keeps {s0 : State} {s : State} {ini : Initiator} {r : RegAt} {w : Nat} {v : Nat} {n : Nat}
    (hK : Keeps s0 s) : Keeps s0 (putNbu s ini r w v n) := by
  unfold putNbu
  repeat' (first | with_reducible assumption | with_reducible apply nbuIssue_keeps
                  | with_reducible apply putFields_keeps | with_reducible apply turnedAway_keeps | split)

theorem putPlc_keeps {s0 : State} {s : State} {ini : Initiator} {r : RegAt} {w : Nat} {v : Nat} (hK : Keeps s0 s) :
    Keeps s0 (putPlc s ini r w v) := by
  unfold putPlc
  repeat' (first | with_reducible assumption | with_reducible apply plcIssue_keeps
                  | with_reducible apply putFields_keeps | with_reducible apply turnedAway_keeps
                  | simp only [keeps_mk_iff] | split)

theorem putRings_keeps {s0 : State} {s : State} {ini : Initiator} {r : RegAt} {w : Nat} {v : Nat} (hK : Keeps s0 s)
    : Keeps s0 (putRings s ini r w v) := by
  unfold putRings
  repeat' (first | with_reducible assumption | with_reducible apply rlySqPi_keeps
                  | with_reducible apply rlyRbPi_keeps | with_reducible apply medSqPi_keeps
                  | with_reducible apply putFields_keeps | with_reducible apply putUnless_keeps
                  | simp only [keeps_mk_iff] | split)

theorem linkCtrlEff_keeps {s0 : State} {s : State} {ini : Initiator} {r : RegAt} {w : Nat} {v : Nat} {l : Nat}
    (hK : Keeps s0 s) : Keeps s0 (linkCtrlEff s ini r w v l) := by
  unfold linkCtrlEff
  repeat' (first | with_reducible assumption | with_reducible apply linkEnableEff_keeps
                  | with_reducible apply linkRetrainEff_keeps | with_reducible apply linkAdmitEff_keeps
                  | with_reducible apply linkRevokeEff_keeps | with_reducible apply putFields_keeps
                  | with_reducible apply whenB_keeps | extract_lets | split | intro hvl)

theorem putPort_keeps {s0 : State} {s : State} {ini : Initiator} {r : RegAt} {w : Nat} {v : Nat} (hK : Keeps s0 s) :
    Keeps s0 (putPort s ini r w v) := by
  unfold putPort
  repeat' (first | with_reducible assumption | with_reducible apply putFields_keeps
                  | with_reducible apply linkCtrlEff_keeps | split)

theorem putFabc_keeps {s0 : State} {s : State} {ini : Initiator} {r : RegAt} {w : Nat} {v : Nat} (hK : Keeps s0 s) :
    Keeps s0 (putFabc s ini r w v) := by
  unfold putFabc
  repeat' (first | with_reducible assumption | with_reducible apply mgmtPush_keeps
                  | with_reducible apply routeSwitch_keeps | with_reducible apply jrnlEff_keeps
                  | with_reducible apply putFields_keeps | with_reducible apply turnedAway_keeps
                  | with_reducible apply putUnless_keeps | with_reducible apply whenB_keeps
                  | simp only [keeps_mk_iff] | split)

theorem putHlk_keeps {s0 : State} {s : State} {ini : Initiator} {r : RegAt} {w : Nat} {v : Nat} (hK : Keeps s0 s) :
    Keeps s0 (putHlk s ini r w v) := by
  unfold putHlk
  repeat' (first | with_reducible assumption | with_reducible apply linkEnableEff_keeps
                  | with_reducible apply linkRetrainEff_keeps | with_reducible apply hlkDrain_keeps
                  | with_reducible apply fwDoneEff_keeps | with_reducible apply sqTailEff_keeps
                  | with_reducible apply cqHeadEff_keeps | with_reducible apply vecUnmaskEff_keeps
                  | with_reducible apply attachEff_keeps | with_reducible apply detachEff_keeps
                  | with_reducible apply putFields_keeps | with_reducible apply putLocked_keeps
                  | with_reducible apply putUnless_keeps | with_reducible apply whenB_keeps
                  | simp only [keeps_mk_iff] | extract_lets | split | intro hvl)

theorem putEvt_keeps {s0 : State} {s : State} {ini : Initiator} {r : RegAt} {w : Nat} {v : Nat} (hK : Keeps s0 s) :
    Keeps s0 (putEvt s ini r w v) := by
  unfold putEvt
  repeat' (first | with_reducible assumption | with_reducible apply nestEnterEff_keeps
                  | with_reducible apply nestExitEff_keeps | with_reducible apply tgtCiEff_keeps
                  | with_reducible apply evtFaultClearEff_keeps | with_reducible apply purgeEff_keeps
                  | with_reducible apply swraiseEff_keeps | with_reducible apply putFields_keeps
                  | with_reducible apply putLocked_keeps | with_reducible apply putUnless_keeps
                  | with_reducible apply whenB_keeps | simp only [keeps_mk_iff] | extract_lets | split | intro hvl)

theorem putProc_keeps {s0 : State} {s : State} {ini : Initiator} {r : RegAt} {w : Nat} {v : Nat} {p : Nat}
    (hK : Keeps s0 s) : Keeps s0 (putProc s ini r w v p) := by
  unfold putProc
  repeat' (first | with_reducible assumption | with_reducible apply violation_keeps
                  | with_reducible apply wdtWriteEff_keeps | with_reducible apply wdtKickEff_keeps
                  | with_reducible apply runEff_keeps | with_reducible apply haltEff_keeps
                  | with_reducible apply dinvEff_keeps | with_reducible apply putFields_keeps
                  | with_reducible apply whenB_keeps | simp only [keeps_mk_iff] | extract_lets | split | intro hvl)

theorem flOpEff_keeps {s0 : State} {s : State} {ini : Initiator} {op : Nat} (hK : Keeps s0 s) : Keeps s0
    (flOpEff s ini op) := by
  unfold flOpEff
  repeat' (first | with_reducible assumption | with_reducible apply fresh_keeps
                  | with_reducible apply flCmdEff_keeps | simp only [keeps_mk_iff] | split)

theorem putBoot_keeps {s0 : State} {s : State} {ini : Initiator} {r : RegAt} {w : Nat} {v : Nat} (hK : Keeps s0 s) :
    Keeps s0 (putBoot s ini r w v) := by
  unfold putBoot
  repeat' (first | with_reducible assumption | with_reducible apply setFlag_keeps
                  | with_reducible apply modeOvrEff_keeps | with_reducible apply confirmEff_keeps
                  | with_reducible apply releaseEff_keeps | with_reducible apply hostDataEff_keeps
                  | with_reducible apply secCmdEff_keeps | with_reducible apply putFields_keeps
                  | with_reducible apply putUnless_keeps | with_reducible apply whenB_keeps
                  | with_reducible apply flOpEff_keeps | simp only [keeps_mk_iff] | extract_lets | split | intro hvl)

theorem putRst_keeps {s0 : State} {s : State} {ini : Initiator} {r : RegAt} {w : Nat} {v : Nat} (hK : Keeps s0 s) :
    Keeps s0 (putRst s ini r w v) := by
  unfold putRst
  repeat' (first | with_reducible assumption | with_reducible apply swreqEff_keeps
                  | with_reducible apply dbgreqEff_keeps | with_reducible apply blkReqEff_keeps
                  | with_reducible apply setPwr_keeps | with_reducible apply putFields_keeps
                  | simp only [keeps_mk_iff] | split)

theorem putReg_keeps {s0 : State} {s : State} {ini : Initiator} {r : RegAt} {w : Nat} {v : Nat} (hK : Keeps s0 s) :
    Keeps s0 (putReg s ini r w v) := by
  unfold putReg
  repeat' (first | with_reducible assumption | with_reducible apply putFields_keeps
                  | with_reducible apply putGlb_keeps | with_reducible apply putCore_keeps
                  | with_reducible apply putStk_keeps | with_reducible apply putNbu_keeps
                  | with_reducible apply putPlc_keeps | with_reducible apply putRings_keeps
                  | with_reducible apply putPort_keeps | with_reducible apply putFabc_keeps
                  | with_reducible apply putHlk_keeps | with_reducible apply putEvt_keeps
                  | with_reducible apply putProc_keeps | with_reducible apply putBoot_keeps
                  | with_reducible apply putRst_keeps | simp only [keeps_mk_iff] | split)

theorem putWord_keeps {s0 : State} {s : State} {ini : Initiator} {r : RegAt} {a : Nat} {v : Nat} (hK : Keeps s0 s) :
    Keeps s0 (putWord s ini r a v) := by
  unfold putWord
  repeat' (first | with_reducible assumption | with_reducible apply putReg_keeps | simp only [keeps_mk_iff] | split)

theorem ctlWrite_keeps {s0 : State} {ini : Initiator} {a : Nat} {len : Nat} {v : Nat} {s : State} (hK : Keeps s0 s)
    : Keeps s0 (ctlWrite ini a len v s) := by
  unfold ctlWrite
  repeat' (first | with_reducible assumption | with_reducible apply violation_keeps
                  | with_reducible apply putWord_keeps | split)

theorem land_keeps {s0 : State} {s : State} {h : HeldWrite} (hK : Keeps s0 s) : Keeps s0 (land s h) := by
  unfold land
  repeat' (first | with_reducible assumption | with_reducible apply putWord_keeps | split)

theorem getWord_keeps {s0 : State} {s : State} {ini : Initiator} {r : RegAt} {left : Nat} (hK : Keeps s0 s) : Keeps
    s0 (getWord s ini r left).1 := by
  unfold getWord
  repeat' (first | with_reducible assumption | with_reducible apply readClear_keeps | simp only [keeps_mk_iff]
                  | extract_lets | split)

theorem ctlReadLeft_keeps {s0 : State} {ini : Initiator} {a : Nat} {len : Nat} {left : Nat} {s : State}
    (hK : Keeps s0 s) : Keeps s0 (ctlReadLeft ini a len left s).1 := by
  unfold ctlReadLeft
  repeat' (first | with_reducible assumption | with_reducible apply violation_keeps
                  | with_reducible apply getWord_keeps | split)

theorem ctlRead_keeps {s0 : State} {ini : Initiator} {a : Nat} {len : Nat} {s : State} (hK : Keeps s0 s) : Keeps s0
    (ctlRead ini a len s).1 := by
  unfold ctlRead
  repeat' (first | with_reducible assumption | with_reducible apply ctlReadLeft_keeps)

theorem readOut_keeps {s0 : State} {ini : Initiator} {a : Nat} {left : Nat} {s : State} (hK : Keeps s0 s) : Keeps s0
    (readOut ini a left s) := by
  unfold readOut
  repeat' (first | with_reducible assumption | with_reducible apply ctlReadLeft_keeps | simp only [keeps_mk_iff])

end Sys2Proof.Machine
end

