-- ==== Sys2Proof/Laws/KeepsRegCmds.lean ====
section
/-! SUPPORT. What the functions of Machine/RegCmds.lean keep (see Laws/Keeps.lean). -/

set_option linter.unusedSimpArgs false
set_option simprocs false -- no numeral of a goal is evaluated in these proofs

namespace Sys2Proof.Machine

theorem write32_keeps {s0 : State} {i : Initiator} {a : Nat} {v : Nat} {s : State} (hK : Keeps s0 s) : OutKeeps s0
    (write32 i a v s) := by
  unfold write32
  repeat' (first | with_reducible assumption | with_reducible apply ctlWrite_keeps
                  | with_reducible apply outKeeps_next)

theorem execRegisterWrite_keeps {s0 : State} {i : Initiator} {a : Nat} {len : Nat} {v : W32} {s : State}
    (hK : Keeps s0 s) : OutKeeps s0 (execRegisterWrite i a len v s) := by
  unfold execRegisterWrite
  repeat' (first | with_reducible assumption | with_reducible apply ctlWrite_keeps
                  | with_reducible apply outKeeps_next)

theorem execReg64LowRead_keeps {s0 : State} {i : Initiator} {a : Nat} {s : State} (hK : Keeps s0 s) : OutKeeps s0
    (execReg64LowRead i a s) := by
  unfold execReg64LowRead
  repeat' (first | with_reducible assumption | with_reducible apply readOut_keeps
                  | with_reducible apply outKeeps_next)

theorem execReg64HighRead_keeps {s0 : State} {i : Initiator} {a : Nat} {s : State} (hK : Keeps s0 s) : OutKeeps s0
    (execReg64HighRead i a s) := by
  unfold execReg64HighRead
  repeat' (first | with_reducible assumption | with_reducible apply readOut_keeps
                  | with_reducible apply outKeeps_next)

theorem execReg64LowWrite_keeps {s0 : State} {i : Initiator} {a : Nat} {v : W32} {s : State} (hK : Keeps s0 s) :
    OutKeeps s0 (execReg64LowWrite i a v s) := by
  unfold execReg64LowWrite
  repeat' (first | with_reducible assumption | with_reducible apply write32_keeps)

theorem execReg64HighWrite_keeps {s0 : State} {i : Initiator} {a : Nat} {v : W32} {s : State} (hK : Keeps s0 s) :
    OutKeeps s0 (execReg64HighWrite i a v s) := by
  unfold execReg64HighWrite
  repeat' (first | with_reducible assumption | with_reducible apply write32_keeps)

theorem execRcCounterRead_keeps {s0 : State} {i : Initiator} {a : Nat} {sameCycle : Bool} {s : State}
    (hK : Keeps s0 s) : OutKeeps s0 (execRcCounterRead i a sameCycle s) := by
  unfold execRcCounterRead
  repeat' (first | with_reducible assumption | with_reducible apply readOut_keeps
                  | with_reducible apply outKeeps_next)

theorem execShShadowWrite_keeps {s0 : State} {i : Initiator} {a : Nat} {v : W32} {s : State} (hK : Keeps s0 s) :
    OutKeeps s0 (execShShadowWrite i a v s) := by
  unfold execShShadowWrite
  repeat' (first | with_reducible assumption | with_reducible apply write32_keeps)

theorem execQuiesceRequest_keeps {s0 : State} {i : Initiator} {hi : W32} {s : State} (hK : Keeps s0 s) : OutKeeps s0
    (execQuiesceRequest i hi s) := by
  unfold execQuiesceRequest
  repeat' (first | with_reducible assumption | with_reducible apply write32_keeps)

theorem execCommitGo_keeps {s0 : State} {i : Initiator} {v : W32} {s : State} (hK : Keeps s0 s) : OutKeeps s0
    (execCommitGo i v s) := by
  unfold execCommitGo
  repeat' (first | with_reducible assumption | with_reducible apply write32_keeps)

theorem execCommitConfirm_keeps {s0 : State} {s : State} (hK : Keeps s0 s) : OutKeeps s0 (execCommitConfirm s) := by
  unfold execCommitConfirm
  repeat' (first | with_reducible assumption | with_reducible apply commitDo_keeps | with_reducible apply land_keeps
                  | with_reducible apply outKeeps_next | simp only [keeps_mk_iff]
                  | (with_reducible apply keeps_foldl; (try intros)) | split)

theorem execCoreRun_keeps {s0 : State} {i : Initiator} {c : Fin 96} {s : State} (hK : Keeps s0 s) : OutKeeps s0
    (execCoreRun i c s) := by
  unfold execCoreRun
  repeat' (first | with_reducible assumption | with_reducible apply write32_keeps)

theorem execCoreStop_keeps {s0 : State} {i : Initiator} {c : Fin 96} {s : State} (hK : Keeps s0 s) : OutKeeps s0
    (execCoreStop i c s) := by
  unfold execCoreStop
  repeat' (first | with_reducible assumption | with_reducible apply write32_keeps)

theorem execCorePcWrite_keeps {s0 : State} {i : Initiator} {c : Fin 96} {v : W32} {s : State} (hK : Keeps s0 s) :
    OutKeeps s0 (execCorePcWrite i c v s) := by
  unfold execCorePcWrite
  repeat' (first | with_reducible assumption | with_reducible apply write32_keeps)

theorem execCoreFaultClr_keeps {s0 : State} {i : Initiator} {c : Fin 96} {s : State} (hK : Keeps s0 s) : OutKeeps s0
    (execCoreFaultClr i c s) := by
  unfold execCoreFaultClr
  repeat' (first | with_reducible assumption | with_reducible apply write32_keeps)

theorem execCoreSbClear_keeps {s0 : State} {i : Initiator} {c : Fin 96} {hi : W32} {s : State} (hK : Keeps s0 s) :
    OutKeeps s0 (execCoreSbClear i c hi s) := by
  unfold execCoreSbClear
  repeat' (first | with_reducible assumption | with_reducible apply write32_keeps)

theorem execCoreSbSet_keeps {s0 : State} {i : Initiator} {c : Fin 96} {hi : W32} {s : State} (hK : Keeps s0 s) :
    OutKeeps s0 (execCoreSbSet i c hi s) := by
  unfold execCoreSbSet
  repeat' (first | with_reducible assumption | with_reducible apply write32_keeps)

theorem execAccTmodeWrite_keeps {s0 : State} {i : Initiator} {c : Fin 96} {hi : W32} {s : State} (hK : Keeps s0 s) :
    OutKeeps s0 (execAccTmodeWrite i c hi s) := by
  unfold execAccTmodeWrite
  repeat' (first | with_reducible assumption | with_reducible apply write32_keeps)

theorem execCoreInitDone_keeps {s0 : State} {c : Fin 96} {s : State} (hK : Keeps s0 s) : OutKeeps s0
    (execCoreInitDone c s) := by
  unfold execCoreInitDone
  repeat' (first | with_reducible assumption | with_reducible apply setCore_keeps | with_reducible apply land_keeps
                  | with_reducible apply outKeeps_next | simp only [keeps_mk_iff]
                  | (with_reducible apply keeps_foldl; (try intros)) | with_reducible exact hvl _ | extract_lets
                  | split | intro hvl)

theorem execStrmPush_keeps {s0 : State} {i : Initiator} {c : Fin 96} {t : Fin 4} {hi : W32} {s : State}
    (hK : Keeps s0 s) : OutKeeps s0 (execStrmPush i c t hi s) := by
  unfold execStrmPush
  repeat' (first | with_reducible assumption | with_reducible apply write32_keeps)

theorem execStrmCancel_keeps {s0 : State} {i : Initiator} {c : Fin 96} {t : Fin 4} {s : State} (hK : Keeps s0 s) :
    OutKeeps s0 (execStrmCancel i c t s) := by
  unfold execStrmCancel
  repeat' (first | with_reducible assumption | with_reducible apply write32_keeps)

theorem execStrmFailClear_keeps {s0 : State} {i : Initiator} {c : Fin 96} {t : Fin 4} {s : State} (hK : Keeps s0 s)
    : OutKeeps s0 (execStrmFailClear i c t s) := by
  unfold execStrmFailClear
  repeat' (first | with_reducible assumption | with_reducible apply write32_keeps)

theorem execRowlogClr_keeps {s0 : State} {i : Initiator} {k : Fin 20} {s : State} (hK : Keeps s0 s) : OutKeeps s0
    (execRowlogClr i k s) := by
  unfold execRowlogClr
  repeat' (first | with_reducible assumption | with_reducible apply write32_keeps)

theorem execErrCaptureClear_keeps {s0 : State} {i : Initiator} {k : Fin 20} {s : State} (hK : Keeps s0 s) : OutKeeps
    s0 (execErrCaptureClear i k s) := by
  unfold execErrCaptureClear
  repeat' (first | with_reducible assumption | with_reducible apply write32_keeps)

theorem plcWrite_keeps {s0 : State} {i : Initiator} {ch : Fin 4} {evt : Bool} {op : Nat} {s : State}
    (hK : Keeps s0 s) : OutKeeps s0 (plcWrite i ch evt op s) := by
  unfold plcWrite
  repeat' (first | with_reducible assumption | with_reducible apply write32_keeps | simp only [keeps_mk_iff])

theorem execPlcRead_keeps {s0 : State} {i : Initiator} {ch : Fin 4} {evt : Bool} {s : State} (hK : Keeps s0 s) :
    OutKeeps s0 (execPlcRead i ch evt s) := by
  unfold execPlcRead
  repeat' (first | with_reducible assumption | with_reducible apply plcWrite_keeps)

theorem execPlcMap_keeps {s0 : State} {i : Initiator} {ch : Fin 4} {evt : Bool} {s : State} (hK : Keeps s0 s) :
    OutKeeps s0 (execPlcMap i ch evt s) := by
  unfold execPlcMap
  repeat' (first | with_reducible assumption | with_reducible apply plcWrite_keeps)

theorem execPlcUnmap_keeps {s0 : State} {i : Initiator} {ch : Fin 4} {evt : Bool} {s : State} (hK : Keeps s0 s) :
    OutKeeps s0 (execPlcUnmap i ch evt s) := by
  unfold execPlcUnmap
  repeat' (first | with_reducible assumption | with_reducible apply plcWrite_keeps)

theorem execPlcSetAttr_keeps {s0 : State} {i : Initiator} {ch : Fin 4} {evt : Bool} {s : State} (hK : Keeps s0 s) :
    OutKeeps s0 (execPlcSetAttr i ch evt s) := by
  unfold execPlcSetAttr
  repeat' (first | with_reducible assumption | with_reducible apply plcWrite_keeps)

theorem execPlcPromote_keeps {s0 : State} {i : Initiator} {ch : Fin 4} {evt : Bool} {s : State} (hK : Keeps s0 s) :
    OutKeeps s0 (execPlcPromote i ch evt s) := by
  unfold execPlcPromote
  repeat' (first | with_reducible assumption | with_reducible apply plcWrite_keeps)

theorem execPlcDemote_keeps {s0 : State} {i : Initiator} {ch : Fin 4} {evt : Bool} {s : State} (hK : Keeps s0 s) :
    OutKeeps s0 (execPlcDemote i ch evt s) := by
  unfold execPlcDemote
  repeat' (first | with_reducible assumption | with_reducible apply plcWrite_keeps)

theorem execPlcFlush_keeps {s0 : State} {i : Initiator} {ch : Fin 4} {evt : Bool} {s : State} (hK : Keeps s0 s) :
    OutKeeps s0 (execPlcFlush i ch evt s) := by
  unfold execPlcFlush
  repeat' (first | with_reducible assumption | with_reducible apply plcWrite_keeps)

theorem execPlcHome_keeps {s0 : State} {i : Initiator} {ch : Fin 4} {evt : Bool} {s : State} (hK : Keeps s0 s) :
    OutKeeps s0 (execPlcHome i ch evt s) := by
  unfold execPlcHome
  repeat' (first | with_reducible assumption | with_reducible apply plcWrite_keeps)

theorem execPlcRelocate_keeps {s0 : State} {i : Initiator} {ch : Fin 4} {evt : Bool} {s : State} (hK : Keeps s0 s) :
    OutKeeps s0 (execPlcRelocate i ch evt s) := by
  unfold execPlcRelocate
  repeat' (first | with_reducible assumption | with_reducible apply plcWrite_keeps)

theorem execPlcRetire_keeps {s0 : State} {i : Initiator} {ch : Fin 4} {evt : Bool} {s : State} (hK : Keeps s0 s) :
    OutKeeps s0 (execPlcRetire i ch evt s) := by
  unfold execPlcRetire
  repeat' (first | with_reducible assumption | with_reducible apply plcWrite_keeps)

theorem execPlcRelease_keeps {s0 : State} {i : Initiator} {ch : Fin 4} {evt : Bool} {s : State} (hK : Keeps s0 s) :
    OutKeeps s0 (execPlcRelease i ch evt s) := by
  unfold execPlcRelease
  repeat' (first | with_reducible assumption | with_reducible apply plcWrite_keeps)

theorem execPlcRebuild_keeps {s0 : State} {i : Initiator} {ch : Fin 4} {evt : Bool} {s : State} (hK : Keeps s0 s) :
    OutKeeps s0 (execPlcRebuild i ch evt s) := by
  unfold execPlcRebuild
  repeat' (first | with_reducible assumption | with_reducible apply plcWrite_keeps)

theorem execEphLoad_keeps {s0 : State} {i : Initiator} {ch : Fin 4} {evt : Bool} {s : State} (hK : Keeps s0 s) :
    OutKeeps s0 (execEphLoad i ch evt s) := by
  unfold execEphLoad
  repeat' (first | with_reducible assumption | with_reducible apply plcWrite_keeps)

theorem execEphArm_keeps {s0 : State} {i : Initiator} {ch : Fin 4} {evt : Bool} {s : State} (hK : Keeps s0 s) :
    OutKeeps s0 (execEphArm i ch evt s) := by
  unfold execEphArm
  repeat' (first | with_reducible assumption | with_reducible apply plcWrite_keeps)

theorem execEphDisarm_keeps {s0 : State} {i : Initiator} {ch : Fin 4} {evt : Bool} {s : State} (hK : Keeps s0 s) :
    OutKeeps s0 (execEphDisarm i ch evt s) := by
  unfold execEphDisarm
  repeat' (first | with_reducible assumption | with_reducible apply plcWrite_keeps)

theorem execEphUnload_keeps {s0 : State} {i : Initiator} {ch : Fin 4} {evt : Bool} {s : State} (hK : Keeps s0 s) :
    OutKeeps s0 (execEphUnload i ch evt s) := by
  unfold execEphUnload
  repeat' (first | with_reducible assumption | with_reducible apply plcWrite_keeps)

theorem nbuWrite_keeps {s0 : State} {i : Initiator} {n : Fin 48} {evt : Bool} {op : Nat} {s : State}
    (hK : Keeps s0 s) : OutKeeps s0 (nbuWrite i n evt op s) := by
  unfold nbuWrite
  repeat' (first | with_reducible assumption | with_reducible apply write32_keeps)

theorem execProgLoad_keeps {s0 : State} {i : Initiator} {n : Fin 48} {evt : Bool} {s : State} (hK : Keeps s0 s) :
    OutKeeps s0 (execProgLoad i n evt s) := by
  unfold execProgLoad
  repeat' (first | with_reducible assumption | with_reducible apply nbuWrite_keeps)

theorem execBindLoad_keeps {s0 : State} {i : Initiator} {n : Fin 48} {evt : Bool} {s : State} (hK : Keeps s0 s) :
    OutKeeps s0 (execBindLoad i n evt s) := by
  unfold execBindLoad
  repeat' (first | with_reducible assumption | with_reducible apply nbuWrite_keeps)

theorem execBindClear_keeps {s0 : State} {i : Initiator} {n : Fin 48} {evt : Bool} {s : State} (hK : Keeps s0 s) :
    OutKeeps s0 (execBindClear i n evt s) := by
  unfold execBindClear
  repeat' (first | with_reducible assumption | with_reducible apply nbuWrite_keeps)

theorem execJob_keeps {s0 : State} {i : Initiator} {n : Fin 48} {evt : Bool} {s : State} (hK : Keeps s0 s) :
    OutKeeps s0 (execJob i n evt s) := by
  unfold execJob
  repeat' (first | with_reducible assumption | with_reducible apply nbuWrite_keeps)

theorem execAudit_keeps {s0 : State} {i : Initiator} {n : Fin 48} {evt : Bool} {s : State} (hK : Keeps s0 s) :
    OutKeeps s0 (execAudit i n evt s) := by
  unfold execAudit
  repeat' (first | with_reducible assumption | with_reducible apply nbuWrite_keeps)

theorem execTranspose_keeps {s0 : State} {i : Initiator} {n : Fin 48} {evt : Bool} {s : State} (hK : Keeps s0 s) :
    OutKeeps s0 (execTranspose i n evt s) := by
  unfold execTranspose
  repeat' (first | with_reducible assumption | with_reducible apply nbuWrite_keeps)

theorem execSeqReset_keeps {s0 : State} {i : Initiator} {n : Fin 48} {evt : Bool} {s : State} (hK : Keeps s0 s) :
    OutKeeps s0 (execSeqReset i n evt s) := by
  unfold execSeqReset
  repeat' (first | with_reducible assumption | with_reducible apply nbuWrite_keeps)

theorem execRlySqPiWrite_keeps {s0 : State} {i : Initiator} {e : Fin 2} {q : Fin 16} {v : W32} {s : State}
    (hK : Keeps s0 s) : OutKeeps s0 (execRlySqPiWrite i e q v s) := by
  unfold execRlySqPiWrite
  repeat' (first | with_reducible assumption | with_reducible apply write32_keeps)

theorem execRlyRbPiWrite_keeps {s0 : State} {i : Initiator} {e : Fin 2} {v : W32} {s : State} (hK : Keeps s0 s) :
    OutKeeps s0 (execRlyRbPiWrite i e v s) := by
  unfold execRlyRbPiWrite
  repeat' (first | with_reducible assumption | with_reducible apply write32_keeps)

theorem execMedSqPiWrite_keeps {s0 : State} {i : Initiator} {r : Fin 8} {v : W32} {s : State} (hK : Keeps s0 s) :
    OutKeeps s0 (execMedSqPiWrite i r v s) := by
  unfold execMedSqPiWrite
  repeat' (first | with_reducible assumption | with_reducible apply write32_keeps)

theorem execLinkEnable_keeps {s0 : State} {i : Initiator} {l : Fin 24} {v : W32} {s : State} (hK : Keeps s0 s) :
    OutKeeps s0 (execLinkEnable i l v s) := by
  unfold execLinkEnable
  repeat' (first | with_reducible assumption | with_reducible apply write32_keeps)

theorem execLinkAdmit_keeps {s0 : State} {i : Initiator} {l : Fin 24} {v : W32} {s : State} (hK : Keeps s0 s) :
    OutKeeps s0 (execLinkAdmit i l v s) := by
  unfold execLinkAdmit
  repeat' (first | with_reducible assumption | with_reducible apply write32_keeps)

theorem execLinkRetrain_keeps {s0 : State} {i : Initiator} {l : Fin 25} {s : State} (hK : Keeps s0 s) : OutKeeps s0
    (execLinkRetrain i l s) := by
  unfold execLinkRetrain
  repeat' (first | with_reducible assumption | with_reducible apply write32_keeps)

theorem execFabcMgmtPush_keeps {s0 : State} {i : Initiator} {hi : W32} {s : State} (hK : Keeps s0 s) : OutKeeps s0
    (execFabcMgmtPush i hi s) := by
  unfold execFabcMgmtPush
  repeat' (first | with_reducible assumption | with_reducible apply write32_keeps)

theorem execRouteBankSwitch_keeps {s0 : State} {i : Initiator} {s : State} (hK : Keeps s0 s) : OutKeeps s0
    (execRouteBankSwitch i s) := by
  unfold execRouteBankSwitch
  repeat' (first | with_reducible assumption | with_reducible apply write32_keeps)

theorem jrnlWrite_keeps {s0 : State} {i : Initiator} {dev : Nat} {op : Nat} {s : State} (hK : Keeps s0 s) : OutKeeps
    s0 (jrnlWrite i dev op s) := by
  unfold jrnlWrite
  repeat' (first | with_reducible assumption | with_reducible apply write32_keeps)

theorem execJrnlExport_keeps {s0 : State} {i : Initiator} {dev : Nat} {s : State} (hK : Keeps s0 s) : OutKeeps s0
    (execJrnlExport i dev s) := by
  unfold execJrnlExport
  repeat' (first | with_reducible assumption | with_reducible apply jrnlWrite_keeps)

theorem execJrnlRevert_keeps {s0 : State} {i : Initiator} {dev : Nat} {s : State} (hK : Keeps s0 s) : OutKeeps s0
    (execJrnlRevert i dev s) := by
  unfold execJrnlRevert
  repeat' (first | with_reducible assumption | with_reducible apply jrnlWrite_keeps)

theorem execJrnlForget_keeps {s0 : State} {i : Initiator} {dev : Nat} {s : State} (hK : Keeps s0 s) : OutKeeps s0
    (execJrnlForget i dev s) := by
  unfold execJrnlForget
  repeat' (first | with_reducible assumption | with_reducible apply jrnlWrite_keeps)

theorem execHostAttach_keeps {s0 : State} {i : Initiator} {key : BitVec 16} {s : State} (hK : Keeps s0 s) : OutKeeps
    s0 (execHostAttach i key s) := by
  unfold execHostAttach
  repeat' (first | with_reducible assumption | with_reducible apply write32_keeps)

theorem execHostDetach_keeps {s0 : State} {i : Initiator} {s : State} (hK : Keeps s0 s) : OutKeeps s0
    (execHostDetach i s) := by
  unfold execHostDetach
  repeat' (first | with_reducible assumption | with_reducible apply write32_keeps)

theorem execSqDoorbell_keeps {s0 : State} {i : Initiator} {q : Fin 256} {v : W32} {s : State} (hK : Keeps s0 s) :
    OutKeeps s0 (execSqDoorbell i q v s) := by
  unfold execSqDoorbell
  repeat' (first | with_reducible assumption | with_reducible apply write32_keeps)

theorem execCqHeadWrite_keeps {s0 : State} {i : Initiator} {q : Fin 256} {v : W32} {s : State} (hK : Keeps s0 s) :
    OutKeeps s0 (execCqHeadWrite i q v s) := by
  unfold execCqHeadWrite
  repeat' (first | with_reducible assumption | with_reducible apply write32_keeps)

theorem execVecUnmask_keeps {s0 : State} {i : Initiator} {v : Fin 256} {s : State} (hK : Keeps s0 s) : OutKeeps s0
    (execVecUnmask i v s) := by
  unfold execVecUnmask
  repeat' (first | with_reducible assumption | with_reducible apply write32_keeps)

theorem execFwDone_keeps {s0 : State} {i : Initiator} {hi : W32} {s : State} (hK : Keeps s0 s) : OutKeeps s0
    (execFwDone i hi s) := by
  unfold execFwDone
  repeat' (first | with_reducible assumption | with_reducible apply write32_keeps)

theorem execHwinWrite_keeps {s0 : State} {i : Initiator} {w : Fin 64} {size : Bool} {hi : W32} {s : State}
    (hK : Keeps s0 s) : OutKeeps s0 (execHwinWrite i w size hi s) := by
  unfold execHwinWrite
  repeat' (first | with_reducible assumption | with_reducible apply write32_keeps)

theorem procCtrl_keeps {s0 : State} {i : Initiator} {p : Fin 8} {v : Nat} {s : State} (hK : Keeps s0 s) : OutKeeps
    s0 (procCtrl i p v s) := by
  unfold procCtrl
  repeat' (first | with_reducible assumption | with_reducible apply write32_keeps)

theorem execProcRun_keeps {s0 : State} {i : Initiator} {p : Fin 8} {s : State} (hK : Keeps s0 s) : OutKeeps s0
    (execProcRun i p s) := by
  unfold execProcRun
  repeat' (first | with_reducible assumption | with_reducible apply procCtrl_keeps)

theorem execProcHalt_keeps {s0 : State} {i : Initiator} {p : Fin 8} {s : State} (hK : Keeps s0 s) : OutKeeps s0
    (execProcHalt i p s) := by
  unfold execProcHalt
  repeat' (first | with_reducible assumption | with_reducible apply procCtrl_keeps)

theorem execProcDinv_keeps {s0 : State} {i : Initiator} {p : Fin 8} {s : State} (hK : Keeps s0 s) : OutKeeps s0
    (execProcDinv i p s) := by
  unfold execProcDinv
  repeat' (first | with_reducible assumption | with_reducible apply procCtrl_keeps)

theorem execWdtKick_keeps {s0 : State} {i : Initiator} {p : Fin 8} {v : W32} {s : State} (hK : Keeps s0 s) :
    OutKeeps s0 (execWdtKick i p v s) := by
  unfold execWdtKick
  repeat' (first | with_reducible assumption | with_reducible apply write32_keeps)

theorem execEvtSwraise_keeps {s0 : State} {i : Initiator} {v : W32} {s : State} (hK : Keeps s0 s) : OutKeeps s0
    (execEvtSwraise i v s) := by
  unfold execEvtSwraise
  repeat' (first | with_reducible assumption | with_reducible apply write32_keeps)

theorem execEvtNestEnter_keeps {s0 : State} {i : Initiator} {t : Fin 9} {s : State} (hK : Keeps s0 s) : OutKeeps s0
    (execEvtNestEnter i t s) := by
  unfold execEvtNestEnter
  repeat' (first | with_reducible assumption | with_reducible apply write32_keeps)

theorem execEvtNestExit_keeps {s0 : State} {i : Initiator} {t : Fin 9} {s : State} (hK : Keeps s0 s) : OutKeeps s0
    (execEvtNestExit i t s) := by
  unfold execEvtNestExit
  repeat' (first | with_reducible assumption | with_reducible apply write32_keeps)

theorem execEvtTgtCiWrite_keeps {s0 : State} {i : Initiator} {t : Fin 9} {v : W32} {s : State} (hK : Keeps s0 s) :
    OutKeeps s0 (execEvtTgtCiWrite i t v s) := by
  unfold execEvtTgtCiWrite
  repeat' (first | with_reducible assumption | with_reducible apply write32_keeps)

theorem execEvtFaultClear_keeps {s0 : State} {i : Initiator} {t : Fin 9} {s : State} (hK : Keeps s0 s) : OutKeeps s0
    (execEvtFaultClear i t s) := by
  unfold execEvtFaultClear
  repeat' (first | with_reducible assumption | with_reducible apply write32_keeps)

theorem execEvtSrcPurge_keeps {s0 : State} {i : Initiator} {n : Nat} {s : State} (hK : Keeps s0 s) : OutKeeps s0
    (execEvtSrcPurge i n s) := by
  unfold execEvtSrcPurge
  repeat' (first | with_reducible assumption | with_reducible apply write32_keeps
                  | with_reducible apply outKeeps_next | simp only [keeps_mk_iff] | split)

theorem execModeOvr_keeps {s0 : State} {i : Initiator} {m : Fin 16} {s : State} (hK : Keeps s0 s) : OutKeeps s0
    (execModeOvr i m s) := by
  unfold execModeOvr
  repeat' (first | with_reducible assumption | with_reducible apply write32_keeps)

theorem execConfirm_keeps {s0 : State} {i : Initiator} {s : State} (hK : Keeps s0 s) : OutKeeps s0 (execConfirm i s)
    := by
  unfold execConfirm
  repeat' (first | with_reducible assumption | with_reducible apply write32_keeps)

theorem execBootRelease_keeps {s0 : State} {i : Initiator} {s : State} (hK : Keeps s0 s) : OutKeeps s0
    (execBootRelease i s) := by
  unfold execBootRelease
  repeat' (first | with_reducible assumption | with_reducible apply write32_keeps)

theorem execBootHostData_keeps {s0 : State} {i : Initiator} {v : W32} {s : State} (hK : Keeps s0 s) : OutKeeps s0
    (execBootHostData i v s) := by
  unfold execBootHostData
  repeat' (first | with_reducible assumption | with_reducible apply write32_keeps)

theorem execFlashRead_keeps {s0 : State} {i : Initiator} {s : State} (hK : Keeps s0 s) : OutKeeps s0
    (execFlashRead i s) := by
  unfold execFlashRead
  repeat' (first | with_reducible assumption | with_reducible apply write32_keeps)

theorem execFlashProgram_keeps {s0 : State} {i : Initiator} {s : State} (hK : Keeps s0 s) : OutKeeps s0
    (execFlashProgram i s) := by
  unfold execFlashProgram
  repeat' (first | with_reducible assumption | with_reducible apply write32_keeps)

theorem execFlashErase_keeps {s0 : State} {i : Initiator} {s : State} (hK : Keeps s0 s) : OutKeeps s0
    (execFlashErase i s) := by
  unfold execFlashErase
  repeat' (first | with_reducible assumption | with_reducible apply write32_keeps)

theorem execFlashReadId_keeps {s0 : State} {i : Initiator} {id : Bytes} {s : State} (hK : Keeps s0 s) : OutKeeps s0
    (execFlashReadId i id s) := by
  unfold execFlashReadId
  repeat' (first | with_reducible assumption | with_reducible apply setBoot_keeps
                  | with_reducible apply ctlWrite_keeps | with_reducible apply outKeeps_next
                  | simp only [keeps_mk_iff] | split)

theorem execSecHash_keeps {s0 : State} {i : Initiator} {s : State} (hK : Keeps s0 s) : OutKeeps s0 (execSecHash i s)
    := by
  unfold execSecHash
  repeat' (first | with_reducible assumption | with_reducible apply write32_keeps)

theorem execSecVerify_keeps {s0 : State} {i : Initiator} {s : State} (hK : Keeps s0 s) : OutKeeps s0
    (execSecVerify i s) := by
  unfold execSecVerify
  repeat' (first | with_reducible assumption | with_reducible apply write32_keeps)

theorem execSecExtend_keeps {s0 : State} {i : Initiator} {s : State} (hK : Keeps s0 s) : OutKeeps s0
    (execSecExtend i s) := by
  unfold execSecExtend
  repeat' (first | with_reducible assumption | with_reducible apply write32_keeps)

theorem execSecReport_keeps {s0 : State} {i : Initiator} {s : State} (hK : Keeps s0 s) : OutKeeps s0
    (execSecReport i s) := by
  unfold execSecReport
  repeat' (first | with_reducible assumption | with_reducible apply write32_keeps)

theorem execSvnSet_keeps {s0 : State} {i : Initiator} {s : State} (hK : Keeps s0 s) : OutKeeps s0 (execSvnSet i s)
    := by
  unfold execSvnSet
  repeat' (first | with_reducible assumption | with_reducible apply write32_keeps)

theorem execKeyProgram_keeps {s0 : State} {i : Initiator} {s : State} (hK : Keeps s0 s) : OutKeeps s0
    (execKeyProgram i s) := by
  unfold execKeyProgram
  repeat' (first | with_reducible assumption | with_reducible apply write32_keeps)

theorem execKeyRevoke_keeps {s0 : State} {i : Initiator} {s : State} (hK : Keeps s0 s) : OutKeeps s0
    (execKeyRevoke i s) := by
  unfold execKeyRevoke
  repeat' (first | with_reducible assumption | with_reducible apply write32_keeps)

theorem execLifecycleAdvance_keeps {s0 : State} {i : Initiator} {s : State} (hK : Keeps s0 s) : OutKeeps s0
    (execLifecycleAdvance i s) := by
  unfold execLifecycleAdvance
  repeat' (first | with_reducible assumption | with_reducible apply write32_keeps)

theorem execSecPermLock_keeps {s0 : State} {i : Initiator} {s : State} (hK : Keeps s0 s) : OutKeeps s0
    (execSecPermLock i s) := by
  unfold execSecPermLock
  repeat' (first | with_reducible assumption | with_reducible apply write32_keeps)

theorem execRstSwreq_keeps {s0 : State} {i : Initiator} {v : W32} {s : State} (hK : Keeps s0 s) : OutKeeps s0
    (execRstSwreq i v s) := by
  unfold execRstSwreq
  repeat' (first | with_reducible assumption | with_reducible apply write32_keeps)

theorem execRstDbgreq_keeps {s0 : State} {i : Initiator} {v : W32} {s : State} (hK : Keeps s0 s) : OutKeeps s0
    (execRstDbgreq i v s) := by
  unfold execRstDbgreq
  repeat' (first | with_reducible assumption | with_reducible apply write32_keeps)

theorem blkReqWrite_keeps {s0 : State} {i : Initiator} {v : Nat} {s : State} (hK : Keeps s0 s) : OutKeeps s0
    (blkReqWrite i v s) := by
  unfold blkReqWrite
  repeat' (first | with_reducible assumption | with_reducible apply ctlWrite_keeps
                  | with_reducible apply write32_keeps)

theorem execBlockResetRequest_keeps {s0 : State} {i : Initiator} {b : Fin 64} {s : State} (hK : Keeps s0 s) :
    OutKeeps s0 (execBlockResetRequest i b s) := by
  unfold execBlockResetRequest
  repeat' (first | with_reducible assumption | with_reducible apply blkReqWrite_keeps)

theorem execBlockResetEnd_keeps {s0 : State} {i : Initiator} {b : Fin 64} {s : State} (hK : Keeps s0 s) : OutKeeps
    s0 (execBlockResetEnd i b s) := by
  unfold execBlockResetEnd
  repeat' (first | with_reducible assumption | with_reducible apply blkReqWrite_keeps)

theorem execPlatePublish_keeps {s0 : State} {i : Initiator} {s : State} (hK : Keeps s0 s) : OutKeeps s0
    (execPlatePublish i s) := by
  unfold execPlatePublish
  repeat' (first | with_reducible assumption | with_reducible apply write32_keeps)

theorem execPlateClear_keeps {s0 : State} {i : Initiator} {s : State} (hK : Keeps s0 s) : OutKeeps s0
    (execPlateClear i s) := by
  unfold execPlateClear
  repeat' (first | with_reducible assumption | with_reducible apply write32_keeps)

theorem execPlateAck_keeps {s0 : State} {i : Initiator} {seq : W32} {s : State} (hK : Keeps s0 s) : OutKeeps s0
    (execPlateAck i seq s) := by
  unfold execPlateAck
  repeat' (first | with_reducible assumption | with_reducible apply write32_keeps)

end Sys2Proof.Machine
end

