-- ==== Sys2Proof/Laws/KeepsFabAccess.lean ====
section
/-! SUPPORT. What the functions of Machine/FabAccess.lean keep (see Laws/Keeps.lean). -/

set_option linter.unusedSimpArgs false
set_option simprocs false -- no numeral of a goal is evaluated in these proofs

namespace Sys2Proof.Machine

theorem ltaEnd_keeps {s0 : State} {e0 : State × Option (Nat × Bytes)}  (hf_e0 : Keeps s0 e0.1) : Keeps s0
    (ltaEnd e0).1 := by
  unfold ltaEnd
  repeat' (first | with_reducible assumption | split)

theorem hostEnd_keeps {s0 : State} {n : Nat} {e0 : State × HostRes}  (hf_e0 : Keeps s0 e0.1) : Keeps s0
    (hostEnd n e0).1 := by
  unfold hostEnd
  repeat' (first | with_reducible assumption | split)

theorem fabServe_keeps {s0 : State} {s : State} {ini : Initiator} {key : Nat} {space : Nat} {off : Nat} {n : Nat}
    {w : Option Bytes} {owner : HostOwner} (hK : Keeps s0 s) : Keeps s0 (fabServe s ini key space off n w owner).1
    := by
  unfold fabServe
  repeat' (first | with_reducible assumption | with_reducible apply engineLta_keeps
                  | with_reducible apply hostWrite_keeps | with_reducible apply hostRead_keeps
                  | with_reducible apply ctlWrite_keeps | with_reducible apply ctlRead_keeps
                  | with_reducible apply ltaEnd_keeps | with_reducible apply hostEnd_keeps
                  | simp only [keeps_mk_iff] | split)

theorem windowViol_keeps {s0 : State} {s : State} {m : FabMsg} (hK : Keeps s0 s) : Keeps s0 (windowViol s m) := by
  unfold windowViol
  repeat' (first | with_reducible assumption | with_reducible apply wr_keeps | with_reducible apply bumpOcc_keeps
                  | with_reducible apply violation_keeps | simp only [keeps_mk_iff] | split)

theorem requestEff_keeps {s0 : State} {s : State} {m : FabMsg} (hK : Keeps s0 s) : Keeps s0 (requestEff s m) := by
  unfold requestEff
  repeat' (first | with_reducible assumption | with_reducible apply respond_keeps
                  | with_reducible apply fabServe_keeps | with_reducible apply windowViol_keeps
                  | simp only [keeps_mk_iff] | with_reducible refine keeps_fst (by assumption) ?_ | split)

theorem execRdReq_keeps {s0 : State} {m : FabMsg} {s : State} (hK : Keeps s0 s) : OutKeeps s0 (execRdReq m s) := by
  unfold execRdReq
  repeat' (first | with_reducible assumption | with_reducible apply requestEff_keeps
                  | with_reducible apply outKeeps_next | split)

theorem execWrReq_keeps {s0 : State} {m : FabMsg} {s : State} (hK : Keeps s0 s) : OutKeeps s0 (execWrReq m s) := by
  unfold execWrReq
  repeat' (first | with_reducible assumption | with_reducible apply requestEff_keeps
                  | with_reducible apply outKeeps_next | split)

theorem takeTag_keeps {s0 : State} {s : State} {m : FabMsg} {t : Nat} (hK : Keeps s0 s) : Keeps s0 (takeTag s m t)
    := by
  unfold takeTag
  repeat' (first | with_reducible assumption | with_reducible apply send_keeps | simp only [keeps_mk_iff])

theorem execFabricRequestIssue_keeps {s0 : State} {m : FabMsg} {s : State} (hK : Keeps s0 s) : OutKeeps s0
    (execFabricRequestIssue m s) := by
  unfold execFabricRequestIssue
  repeat' (first | with_reducible assumption | with_reducible apply answer_keeps
                  | with_reducible apply fabServe_keeps | with_reducible apply takeTag_keeps
                  | with_reducible apply outKeeps_next | simp only [keeps_mk_iff]
                  | with_reducible refine keeps_fst (by assumption) ?_ | split)

theorem srAnswer_keeps {s0 : State} {s : State} {m : FabMsg} {st : Nat} {d : Bytes} (hK : Keeps s0 s) : Keeps s0
    (srAnswer s m st d) := by
  unfold srAnswer
  repeat' (first | with_reducible assumption | with_reducible apply send_keeps)

theorem execSrRead_keeps {s0 : State} {m : FabMsg} {s : State} (hK : Keeps s0 s) : OutKeeps s0 (execSrRead m s) := by
  unfold execSrRead
  repeat' (first | with_reducible assumption | with_reducible apply violation_keeps
                  | with_reducible apply ctlRead_keeps | with_reducible apply srAnswer_keeps
                  | with_reducible apply outKeeps_next | simp only [keeps_mk_iff] | split)

theorem execSrWrite_keeps {s0 : State} {m : FabMsg} {s : State} (hK : Keeps s0 s) : OutKeeps s0 (execSrWrite m s)
    := by
  unfold execSrWrite
  repeat' (first | with_reducible assumption | with_reducible apply violation_keeps
                  | with_reducible apply ctlWrite_keeps | with_reducible apply srAnswer_keeps
                  | with_reducible apply outKeeps_next | split)

theorem dwinViol_keeps {s0 : State} {s : State} {write : Bool} (hK : Keeps s0 s) : Keeps s0 (dwinViol s write) := by
  unfold dwinViol
  repeat' (first | with_reducible assumption | with_reducible apply bumpOcc_keeps
                  | with_reducible apply violation_keeps)

theorem dwinServe_keeps {s0 : State} {s : State} {a : Nat} {n : Nat} {w : Option Bytes} {ext : Ext}
    (hK : Keeps s0 s) : Keeps s0 (dwinServe s a n w ext).1 := by
  unfold dwinServe
  repeat' (first | with_reducible assumption | with_reducible apply ctlWrite_keeps
                  | with_reducible apply ctlRead_keeps | with_reducible apply fabServe_keeps
                  | with_reducible apply dwinViol_keeps | simp only [keeps_mk_iff]
                  | with_reducible refine keeps_fst (by assumption) ?_ | split)

theorem hostResponse_keeps {s0 : State} {s : State} {m : HostMsg} {st : Nat} {d : Bytes} (hK : Keeps s0 s) : Keeps
    s0 (hostResponse s m st d) := by
  unfold hostResponse
  repeat' (first | with_reducible assumption | with_reducible apply hostSend_keeps)

theorem execHRd_keeps {s0 : State} {m : HostMsg} {ext : Ext} {s : State} (hK : Keeps s0 s) : OutKeeps s0
    (execHRd m ext s) := by
  unfold execHRd
  repeat' (first | with_reducible assumption | with_reducible apply protoError_keeps
                  | with_reducible apply hostTaken_keeps | with_reducible apply dwinServe_keeps
                  | with_reducible apply hostResponse_keeps | with_reducible apply outKeeps_next
                  | with_reducible refine keeps_fst (by assumption) ?_ | split)

theorem execHWr_keeps {s0 : State} {m : HostMsg} {ext : Ext} {s : State} (hK : Keeps s0 s) : OutKeeps s0
    (execHWr m ext s) := by
  unfold execHWr
  repeat' (first | with_reducible assumption | with_reducible apply bumpOcc_keeps
                  | with_reducible apply protoError_keeps | with_reducible apply hostTaken_keeps
                  | with_reducible apply dwinServe_keeps | with_reducible apply outKeeps_next
                  | simp only [keeps_mk_iff] | with_reducible refine keeps_fst (by assumption) ?_ | extract_lets
                  | split)

theorem endHPart_keeps {s0 : State} {s : State} {q : Nat} {cid : Nat} {op : Nat} {part : Nat} {v : HPart}
    (hK : Keeps s0 s) : Keeps s0 (endHPart s q cid op part v) := by
  unfold endHPart
  repeat' (first | with_reducible assumption | with_reducible apply setCmdPart_keeps | split)

theorem cmdReadDev_keeps {s0 : State} {s : State} {key : Nat} {a : Nat} {n : Nat} {ext : Ext} (hK : Keeps s0 s) :
    Keeps s0 (cmdReadDev s key a n ext).1 := by
  unfold cmdReadDev
  repeat' (first | with_reducible assumption | with_reducible apply hostViol_keeps
                  | with_reducible apply fabServe_keeps | simp only [keeps_mk_iff]
                  | with_reducible refine keeps_fst (by assumption) ?_ | split)

theorem cmdReadHost_keeps {s0 : State} {s : State} {a : Nat} {n : Nat} {ext : Ext} (hK : Keeps s0 s) : Keeps s0
    (cmdReadHost s a n ext).1 := by
  unfold cmdReadHost
  repeat' (first | with_reducible assumption | with_reducible apply hostViol_keeps | split)

theorem cmdWrite_keeps {s0 : State} {s : State} {key : Nat} {a : Nat} {bs : Bytes} {toHost : Bool}
    {owner : HostOwner} {ext : Ext} (hK : Keeps s0 s) : Keeps s0 (cmdWrite s key a bs toHost owner ext).1 := by
  unfold cmdWrite
  repeat' (first | with_reducible assumption | with_reducible apply hostWrite_keeps
                  | with_reducible apply hostEnd_keeps | with_reducible apply fabServe_keeps | split)

theorem writeEnd_keeps {s0 : State} {q : Nat} {cid : Nat} {op : Nat} {part : Nat} {e0 : State × FabRes} 
    (hf_e0 : Keeps s0 e0.1) : Keeps s0 (writeEnd q cid op part e0) := by
  unfold writeEnd
  repeat' (first | with_reducible assumption | with_reducible apply endHPart_keeps | split)

theorem execWriteInline_keeps {s0 : State} {q : Fin 256} {cid : BitVec 16} {ext : Ext} {s : State} (hK : Keeps s0 s)
    : OutKeeps s0 (execWriteInline q cid ext s) := by
  unfold execWriteInline
  repeat' (first | with_reducible assumption | with_reducible apply cmdWrite_keeps
                  | with_reducible apply writeEnd_keeps | with_reducible apply outKeeps_next | split)

theorem execCopy_keeps {s0 : State} {q : Fin 256} {cid : BitVec 16} {part : Nat} {src : Ext} {dst : Ext} {s : State}
    (hK : Keeps s0 s) : OutKeeps s0 (execCopy q cid part src dst s) := by
  unfold execCopy
  repeat' (first | with_reducible assumption | with_reducible apply endHPart_keeps
                  | with_reducible apply cmdReadDev_keeps | with_reducible apply cmdReadHost_keeps
                  | with_reducible apply cmdWrite_keeps | with_reducible apply writeEnd_keeps
                  | with_reducible apply outKeeps_next | simp only [keeps_mk_iff]
                  | with_reducible refine keeps_fst (by assumption) ?_ | extract_lets | split)

theorem execReadSmall_keeps {s0 : State} {q : Fin 256} {cid : BitVec 16} {ext : Ext} {s : State} (hK : Keeps s0 s) :
    OutKeeps s0 (execReadSmall q cid ext s) := by
  unfold execReadSmall
  repeat' (first | with_reducible assumption | with_reducible apply putCmdH_keeps
                  | with_reducible apply cmdReadDev_keeps | with_reducible apply outKeeps_next
                  | simp only [keeps_mk_iff] | with_reducible refine keeps_fst (by assumption) ?_ | split)

end Sys2Proof.Machine
end

