-- ==== Sys2Proof/Laws/KeepsStrmCmds.lean ====
section
/-! SUPPORT. What the functions of Machine/StrmCmds.lean keep (see Laws/Keeps.lean). -/

set_option linter.unusedSimpArgs false
set_option simprocs false -- no numeral of a goal is evaluated in these proofs

namespace Sys2Proof.Machine

theorem execStrmPushFetch_keeps {s0 : State} {c : Fin 96} {t : Fin 4} {s : State} (hK : Keeps s0 s) : OutKeeps s0
    (execStrmPushFetch c t s) := by
  unfold execStrmPushFetch
  repeat' (first | with_reducible assumption | with_reducible apply setCore_keeps
                  | with_reducible apply strmPushFailed_keeps | with_reducible apply ltaRead_keeps
                  | with_reducible apply setStrm_coreOk | with_reducible apply outKeeps_next | simp only [keeps_mk_iff]
                  | with_reducible refine keeps_fst (by assumption) ?_ | with_reducible exact hvl _ | extract_lets
                  | split | intro hvl)

theorem execStrmDescStart_keeps {s0 : State} {c : Fin 96} {t : Fin 4} {tsBad : List Nat} {s : State}
    (hK : Keeps s0 s) : OutKeeps s0 (execStrmDescStart c t tsBad s) := by
  unfold execStrmDescStart
  repeat' (first | with_reducible assumption | with_reducible apply setCore_keeps | with_reducible apply setStrm_coreOk
                  | with_reducible apply outKeeps_next | simp only [keeps_mk_iff] | with_reducible exact hvl _
                  | extract_lets | split | intro hvl)

theorem imemWrite_coreOk {k : Core} {a : Nat} {bs : Bytes} (hV : CoreOk k) : CoreOk (imemWrite k a bs) := by
  unfold imemWrite
  repeat' (with_reducible assumption)
  all_goals (try exact hV)

theorem cmdReadHost_keepsW {s0 : State} {s : State} {a n : Nat} {ext : Ext} (hK : Keeps s0 s) : Keeps s0
    (cmdReadHost s a n ext).1 := cmdReadHost_keeps hK

theorem cmdReadPeer_keeps {s0 : State} {s : State} {key a n : Nat} {ext : Ext} (hK : Keeps s0 s) :
    Keeps s0 (runRead.cmdReadPeer s key a n ext).1 := by
  unfold runRead.cmdReadPeer
  split; exact hK
  split; exact hK
  split; exact hK
  split; exact cmdReadHost_keeps hK
  split; exact ltaRead_keeps hK
  refine keeps_foldl1 (fun r p h => ?_) _ _ hK
  split
  · split
    rename_i e
    exact keeps_fst e (ctlRead_keeps h)
  · exact h

theorem runRead_keeps {s0 : State} {s : State} {c key sp a n : Nat} {ext : Ext} (hK : Keeps s0 s) : Keeps s0
    (runRead s c key sp a n ext).1 := by
  unfold runRead
  extract_lets core
  split
  · exact hK
  · exact hK
  · split
    · exact hK
    · exact ltaRead_keeps hK
  · exact cmdReadPeer_keeps hK
  · exact cmdReadHost_keeps hK

theorem coreWrite_keeps {s0 : State} {s : State} {c : Nat} {sp : Nat} {a : Nat} {bs : Bytes} (hK : Keeps s0 s) :
    Keeps s0 (coreWrite s c sp a bs).1 := by
  unfold coreWrite
  repeat' (first | with_reducible assumption | with_reducible apply setCore_keeps | with_reducible apply tsWrite_coreOk
                  | with_reducible apply accPut_coreOk | with_reducible apply imemWrite_coreOk | simp only [keeps_mk_iff]
                  | with_reducible exact hvl _ | extract_lets | split | intro hvl)

theorem runWrite_keeps {s0 : State} {s : State} {c : Nat} {key : Nat} {sp : Nat} {a : Nat} {bs : Bytes}
    {owner : HostOwner} {ext : Ext} (hK : Keeps s0 s) : Keeps s0 (runWrite s c key sp a bs owner ext).1 := by
  unfold runWrite
  repeat' (first | with_reducible assumption | with_reducible apply hostWrite_keeps
                  | with_reducible apply ctlWrite_keeps | with_reducible apply hostEnd_keeps
                  | with_reducible apply fabServe_keeps | with_reducible apply coreWrite_keeps
                  | simp only [keeps_mk_iff] | (with_reducible apply keeps_foldl; (try intros)) | split)

theorem writeKept_keeps {s0 : State} {c : Nat} {key : Nat} {sp : Nat} {a : Nat} {bs : Bytes} {owner : HostOwner}
    {ext : Ext} {e0 : State} {e1 : List (Nat × Nat)} (hK : Keeps s0 e0) : Keeps s0
    (writeKept c key sp a bs owner ext e0 e1).1 := by
  revert hK
  fun_induction writeKept c key sp a bs owner ext e0 e1 <;> intro hK
  all_goals (repeat' (first | with_reducible assumption | with_reducible apply runWrite_keeps))
  all_goals (try (apply_assumption; repeat' (first | with_reducible assumption | with_reducible apply runWrite_keeps
                                                     | with_reducible refine keeps_fst (by assumption) ?_)))

theorem endRun_keeps {s0 : State} {s : State} {c : Nat} {t : Nat} {d : Nat} {i : Nat} {st : Nat} {n : Nat}
    (hK : Keeps s0 s) : Keeps s0 (endRun s c t d i st n) := by
  unfold endRun
  repeat' (first | with_reducible assumption | with_reducible apply bumpStat_keeps
                  | with_reducible apply setCore_keeps | with_reducible apply setStrm_coreOk | simp only [keeps_mk_iff]
                  | with_reducible exact hvl _ | extract_lets | split | intro hvl)

theorem partAway_keeps {s0 : State} {s : State} {c : Nat} {t : Nat} {d : Nat} {i : Nat} {n : Nat} (hK : Keeps s0 s)
    : Keeps s0 (partAway s c t d i n) := by
  unfold partAway
  repeat' (first | with_reducible assumption | with_reducible apply bumpStat_keeps
                  | with_reducible apply setCore_keeps | with_reducible apply setStrm_coreOk | simp only [keeps_mk_iff]
                  | with_reducible exact hvl _ | extract_lets | split | intro hvl)

theorem execStrmPartDone_keeps {s0 : State} {c : Fin 96} {t : Fin 4} {d : Fin 4} {i : Nat} {ext : Ext} {s : State}
    (hK : Keeps s0 s) : OutKeeps s0 (execStrmPartDone c t d i ext s) := by
  unfold execStrmPartDone
  repeat' (first | with_reducible assumption | with_reducible apply wr_keeps | with_reducible apply runRead_keeps
                  | with_reducible apply writeKept_keeps | with_reducible apply endRun_keeps
                  | with_reducible apply partAway_keeps | with_reducible apply outKeeps_next
                  | simp only [keeps_mk_iff] | with_reducible refine keeps_fst (by assumption) ?_ | split)

theorem execStrmDescComplete_keeps {s0 : State} {c : Fin 96} {t : Fin 4} {d : Fin 4} {s : State} (hK : Keeps s0 s) :
    OutKeeps s0 (execStrmDescComplete c t d s) := by
  unfold execStrmDescComplete
  repeat' (first | with_reducible assumption | with_reducible apply setCore_keeps
                  | with_reducible apply strmComplete_keeps | with_reducible apply setStrm_coreOk
                  | with_reducible apply outKeeps_next | simp only [keeps_mk_iff] | with_reducible exact hvl _
                  | extract_lets | split | intro hvl)

end Sys2Proof.Machine
end

