-- ==== Sys2Proof/Laws/KeepsBootRom.lean ====
section
/-! SUPPORT. What the functions of Machine/BootRom.lean keep (see Laws/Keeps.lean). -/

set_option linter.unusedSimpArgs false
set_option simprocs false -- no numeral of a goal is evaluated in these proofs

namespace Sys2Proof.Machine

theorem setRom_keeps {s0 : State} {s : State} {r : Rom} (hK : Keeps s0 s) : Keeps s0 (setRom s r) := by
  unfold setRom
  repeat' (first | with_reducible assumption | with_reducible apply setBoot_keeps)

theorem bootFail_keeps {s0 : State} {s : State} (hK : Keeps s0 s) : Keeps s0 (bootFail s) := by
  unfold bootFail
  repeat' (first | with_reducible assumption | with_reducible apply raise_keeps | with_reducible apply haltNow_keeps
                  | with_reducible apply setPhase_keeps | with_reducible apply setBoot_keeps)

theorem endInSafe_keeps {s0 : State} {s : State} (hK : Keeps s0 s) : Keeps s0 (endInSafe s) := by
  unfold endInSafe
  repeat' (first | with_reducible assumption | with_reducible apply setFld_keeps
                  | with_reducible apply showKey_keeps | with_reducible apply setPhase_keeps
                  | with_reducible apply setRom_keeps)

theorem testFailed_keeps {s0 : State} {s : State} {m : Nat} (hK : Keeps s0 s) : Keeps s0 (testFailed s m) := by
  unfold testFailed
  repeat' (first | with_reducible assumption | with_reducible apply wr_keeps | with_reducible apply setFlag_keeps
                  | with_reducible apply doReset_keeps | simp only [keeps_mk_iff] | split)

theorem loadIdentity_keeps {s0 : State} {s : State} (hK : Keeps s0 s) : Keeps s0 (loadIdentity s) := by
  unfold loadIdentity
  repeat' (first | with_reducible assumption | with_reducible apply wr_keeps | with_reducible apply setFlag_keeps
                  | with_reducible apply wrWords_keeps | simp only [keeps_mk_iff] | split)

theorem afterTest_keeps {s0 : State} {s : State} (hK : Keeps s0 s) : Keeps s0 (afterTest s) := by
  unfold afterTest
  repeat' (first | with_reducible assumption | with_reducible apply setPhase_keeps
                  | with_reducible apply endInSafe_keeps | simp only [keeps_mk_iff] | split)

theorem romSelfTest_keeps {s0 : State} {s : State} (hK : Keeps s0 s) : Keeps s0 (romSelfTest s) := by
  unfold romSelfTest
  repeat' (first | with_reducible assumption | with_reducible apply fresh_keeps | with_reducible apply haltNow_keeps
                  | with_reducible apply bootFail_keeps | with_reducible apply testFailed_keeps
                  | with_reducible apply loadIdentity_keeps | with_reducible apply afterTest_keeps
                  | simp only [keeps_mk_iff] | split)

theorem romSelect_keeps {s0 : State} {s : State} {r : Rom} (hK : Keeps s0 s) : Keeps s0 (romSelect s r) := by
  unfold romSelect
  repeat' (first | with_reducible assumption | with_reducible apply setFld_keeps
                  | with_reducible apply setPhase_keeps | with_reducible apply setRom_keeps
                  | with_reducible apply endInSafe_keeps | split)

theorem imageFails_keeps {s0 : State} {s : State} {r : Rom} (hK : Keeps s0 s) : Keeps s0 (imageFails s r) := by
  unfold imageFails
  extract_lets s1
  have h1 : Keeps s0 s1 := keeps_foldl (fun t p h => setHart_keeps h (fun _ => rfl)) _ _ hK
  split
  · exact endInSafe_keeps h1
  · extract_lets r'
    split
    · exact endInSafe_keeps h1
    · rename_i e
      exact setPhase_keeps (setRom_keeps (raise_keeps (setFlag_keeps (keeps_snd e (fresh_keeps h1)))))

theorem writeCode_keeps {s0 : State} {b : Bytes} {s : State} {x : Sect} (hK : Keeps s0 s) : Keeps s0
    (writeCode b s x) := by
  unfold writeCode
  repeat' (first | with_reducible assumption | with_reducible apply setHart_keeps | simp only [keeps_mk_iff]
                  | with_reducible exact hvl _ | extract_lets | split | intro hvl | with_reducible apply memWrite_wf)

theorem loadImage_keeps {s0 : State} {s : State} {r : Rom} {b : Bytes} {room : Nat} (hK : Keeps s0 s) : Keeps s0
    (loadImage s r b room) := by
  unfold loadImage
  repeat' (first | with_reducible assumption | with_reducible apply setPhase_keeps
                  | with_reducible apply setRom_keeps | with_reducible apply imageFails_keeps
                  | with_reducible apply writeCode_keeps | simp only [keeps_mk_iff]
                  | (with_reducible apply keeps_foldl; (try intros)) | split)

theorem romLoad_keeps {s0 : State} {s : State} {r : Rom} (hK : Keeps s0 s) : Keeps s0 (romLoad s r) := by
  unfold romLoad
  repeat' (first | with_reducible assumption | with_reducible apply loadImage_keeps | simp only [keeps_mk_iff]
                  | split)

theorem applyPerm_keeps {s0 : State} {s : State} {b : Bytes} (hK : Keeps s0 s) : Keeps s0 (applyPerm s b) := by
  unfold applyPerm
  repeat' (first | with_reducible assumption | with_reducible apply wr_keeps | with_reducible apply setFlag_keeps
                  | (with_reducible apply keeps_foldl; (try intros)) | extract_lets | split)

theorem romVerify_keeps {s0 : State} {s : State} {r : Rom} (hK : Keeps s0 s) : Keeps s0 (romVerify s r) := by
  unfold romVerify
  repeat' (first | with_reducible assumption | with_reducible apply wr_keeps | with_reducible apply setFld_keeps
                  | with_reducible apply setPhase_keeps | with_reducible apply setBoot_keeps
                  | with_reducible apply setRom_keeps | with_reducible apply imageFails_keeps
                  | with_reducible apply applyPerm_keeps | simp only [keeps_mk_iff] | split)

theorem romWrite64_keeps {s0 : State} {s : State} {a : Nat} {v : Nat} (hK : Keeps s0 s) : Keeps s0
    (romWrite64 s a v) := by
  unfold romWrite64
  repeat' (first | with_reducible assumption | with_reducible apply ctlWrite_keeps)

theorem romRead64_keeps {s0 : State} {s : State} {a : Nat} (hK : Keeps s0 s) : Keeps s0 (romRead64 s a).1 := by
  unfold romRead64
  extract_lets lo hi
  have h1 : Keeps s0 lo.1 := ctlRead_keeps hK
  have h2 : Keeps s0 hi.1 := ctlRead_keeps h1
  exact keeps_pair h2

theorem recCommit_keeps {s0 : State} {s : State} {r : Rom} {mask : Nat} (hK : Keeps s0 s) : Keeps s0
    (recCommit s r mask).1 := by
  unfold recCommit
  split
  · extract_lets v q
    have h1 : Keeps s0 v.1 := ctlRead_keeps hK
    have h2 : Keeps s0 q.1 := romRead64_keeps h1
    clear_value q v
    split
    · exact h1
    split
    · exact h1
    exact romWrite64_keeps h2
  · extract_lets q s2 st s3
    have h1 : Keeps s0 q.1 := romRead64_keeps hK
    clear_value q
    have h2 : Keeps s0 s2 := by
      subst s2
      split
      · exact h1
      · exact romWrite64_keeps h1
    have h3 : Keeps s0 st.1 := romRead64_keeps h2
    have h4 : Keeps s0 s3 := romWrite64_keeps h3
    clear_value s3 st
    split
    · exact ctlWrite_keeps h4
    · exact h3

theorem recWait_keeps {s0 : State} {s : State} {r : Rom} {a : Nat} {mask : Nat} {want : Nat} {tmo : Nat}
    (hK : Keeps s0 s) : Keeps s0 (recWait s r a mask want tmo).1 := by
  unfold recWait
  repeat' (first | with_reducible assumption | with_reducible apply ctlRead_keeps | simp only [keeps_mk_iff] | split)

theorem recDo_keeps {s0 : State} {s : State} {r : Rom} {x : Bytes} (hK : Keeps s0 s) : Keeps s0 (recDo s r x).1 := by
  unfold recDo
  repeat' (first | with_reducible assumption | with_reducible apply ctlWrite_keeps
                  | with_reducible apply recCommit_keeps | with_reducible apply recWait_keeps
                  | simp only [keeps_mk_iff] | split)

theorem romMeasure_keeps {s0 : State} {s : State} {b : Bytes} (hK : Keeps s0 s) : Keeps s0 (romMeasure s b) := by
  unfold romMeasure
  repeat' (first | with_reducible assumption | with_reducible apply fresh_keeps | with_reducible apply extend_keeps)

theorem romConfig_keeps {s0 : State} {s : State} {r : Rom} (hK : Keeps s0 s) : Keeps s0 (romConfig s r) := by
  unfold romConfig
  repeat' (first | with_reducible assumption | with_reducible apply raise_keeps
                  | with_reducible apply setPhase_keeps | with_reducible apply startFirmware_keeps
                  | with_reducible apply setRom_keeps | with_reducible apply bootFail_keeps
                  | with_reducible apply recDo_keeps | with_reducible apply romMeasure_keeps
                  | simp only [keeps_mk_iff] | with_reducible refine keeps_fst (by assumption) ?_ | split)

theorem romStep_keeps {s0 : State} {s : State} {r : Rom} (hK : Keeps s0 s) : Keeps s0 (romStep s r) := by
  unfold romStep
  repeat' (first | with_reducible assumption | with_reducible apply setPhase_keeps
                  | with_reducible apply romSelfTest_keeps | with_reducible apply romSelect_keeps
                  | with_reducible apply romLoad_keeps | with_reducible apply romVerify_keeps
                  | with_reducible apply romConfig_keeps | split)

end Sys2Proof.Machine
end

