-- ==== Sys2Proof/Laws/KeepsRiscV.lean ====
section
/-! SUPPORT. What the functions of Machine/RiscV.lean keep (see Laws/Keeps.lean). -/

set_option linter.unusedSimpArgs false
set_option simprocs false -- no numeral of a goal is evaluated in these proofs

namespace Sys2Proof.Machine

theorem setX_lmemOk {h : Hart} {i : Fin 32} {v : W64} (hV : LmemOk h) : LmemOk (setX h i v) := by
  unfold setX
  repeat' (first | with_reducible assumption | split)
  all_goals (try exact hV)

theorem setF_lmemOk {h : Hart} {i : Fin 32} {v : W64} (hV : LmemOk h) : LmemOk (setF h i v) := by
  unfold setF
  repeat' (with_reducible assumption)
  all_goals (try exact hV)

theorem fpDo_lmemOk {h : Hart} {op : FpOp} {double : Bool} {rd : Fin 32} {rs1 : Fin 32} {rs2 : Fin 32} {rs3 : Fin 32}
    {rm : Nat} (hV : LmemOk h) : LmemOk (fpDo h op double rd rs1 rs2 rs3 rm) := by
  unfold fpDo
  repeat' (first | with_reducible assumption | with_reducible apply setX_lmemOk | with_reducible apply setF_lmemOk
                  | simp only [keeps_mk_iff] | split)
  all_goals (try exact hV)

theorem lmemOk_ite {p : Prop} [Decidable p] {a b : Hart} (ha : LmemOk a) (hb : LmemOk b) : LmemOk (if p then a else b) := by
  split
  · exact ha
  · exact hb

theorem csrPut_lmemOk {h : Hart} {num v : Nat} (hV : LmemOk h) : LmemOk (csrPut h num v) :=
  lmemOk_ite hV (lmemOk_ite hV (lmemOk_ite hV (lmemOk_ite hV (lmemOk_ite hV (lmemOk_ite hV (lmemOk_ite hV (lmemOk_ite hV (lmemOk_ite hV (lmemOk_ite hV
    (lmemOk_ite hV hV))))))))))

theorem csrDo_keeps {s0 s : State} {p : Nat} {write set : Bool} {num : Nat} {rd : Fin 32} {src : W64}
    {writes : Bool} (hK : Keeps s0 s) :
    ∀ r, csrDo s p write set num rd src writes = some r → Keeps s0 r := by
  intro r hr
  unfold csrDo at hr
  split at hr
  · cases hr
  · split at hr
    · cases hr
    · extract_lets v h h' at hr
      cases hr
      refine setHart_keeps (keeps_mk_iff.2 hK) (fun x => setX_lmemOk ?_)
      show LmemOk (if writes then csrPut h num v else h)
      split
      · exact csrPut_lmemOk (x p)
      · exact x p

theorem takeTrap_keeps {s0 : State} {s : State} {p : Nat} {cause : Nat} {tval : Nat} {irq : Bool} (hK : Keeps s0 s)
    : Keeps s0 (takeTrap s p cause tval irq) := by
  unfold takeTrap
  repeat' (first | with_reducible assumption | with_reducible apply setHart_keeps | with_reducible exact hvl _
                  | extract_lets | split | intro hvl)

theorem mretDo_lmemOk {h : Hart} (hV : LmemOk h) : LmemOk (mretDo h) := by
  unfold mretDo
  repeat' (with_reducible assumption)
  all_goals (try exact hV)

end Sys2Proof.Machine
end

