-- ==== Sys2Proof/Laws/KeepsProcInstr.lean ====
section
/-! SUPPORT. What the functions of Machine/ProcInstr.lean keep (see Laws/Keeps.lean). -/

set_option linter.unusedSimpArgs false
set_option simprocs false -- no numeral of a goal is evaluated in these proofs

namespace Sys2Proof.Machine

theorem ldEnd_keeps {s0 : State} {s : State} {p : Nat} {a : Nat} {st : Nat} {d : Bytes} (hK : Keeps s0 s) : Keeps s0
    (ldEnd s p a st d).1 := by
  unfold ldEnd
  repeat' (first | with_reducible assumption | with_reducible apply procErr_keeps | split)

theorem stEnd_keeps {s0 : State} {s : State} {p : Nat} {a : Nat} {st : Nat} (hK : Keeps s0 s) : Keeps s0
    (stEnd s p a st).1 := by
  unfold stEnd
  repeat' (first | with_reducible assumption | with_reducible apply procErr_keeps | split)

theorem cacheFill_keeps {s0 : State} {s : State} {p : Nat} {line : Nat} {d : Bytes} (hK : Keeps s0 s) : Keeps s0
    (cacheFill s p line d) := by
  unfold cacheFill
  repeat' (first | with_reducible assumption | with_reducible apply fresh_keeps | simp only [keeps_mk_iff])

theorem cachedLine_keeps {s0 : State} {s : State} {p : Nat} {line : Nat} (hK : Keeps s0 s) : Keeps s0
    (cachedLine s p line).1 := by
  unfold cachedLine
  repeat' (first | with_reducible assumption | with_reducible apply ltaRead_keeps
                  | with_reducible apply cacheFill_keeps | with_reducible refine keeps_fst (by assumption) ?_
                  | split)

theorem tensorLoad_keeps {s0 : State} {s : State} {p : Nat} {a : Nat} {lta : Nat} {n : Nat} (hK : Keeps s0 s) :
    Keeps s0 (tensorLoad s p a lta n).1 := by
  unfold tensorLoad
  repeat' (first | with_reducible assumption | with_reducible apply ldEnd_keeps
                  | with_reducible apply cachedLine_keeps | simp only [keeps_mk_iff]
                  | with_reducible refine keeps_fst (by assumption) ?_ | split)

theorem cacheUpdate_keeps {s0 : State} {s : State} {p : Nat} {line : Nat} {lta : Nat} {bs : Bytes} (hK : Keeps s0 s)
    : Keeps s0 (cacheUpdate s p line lta bs) := by
  unfold cacheUpdate
  repeat' (first | with_reducible assumption | simp only [keeps_mk_iff] | split)

theorem tensorStore_keeps {s0 : State} {s : State} {p : Nat} {a : Nat} {lta : Nat} {bs : Bytes} (hK : Keeps s0 s) :
    Keeps s0 (tensorStore s p a lta bs).1 := by
  unfold tensorStore
  repeat' (first | with_reducible assumption | with_reducible apply ltaWrite_keeps
                  | with_reducible apply stEnd_keeps | with_reducible apply cacheUpdate_keeps
                  | simp only [keeps_mk_iff] | with_reducible refine keeps_fst (by assumption) ?_ | split)

theorem hostLoad_keeps {s0 : State} {s : State} {p : Nat} {a : Nat} {h : Nat} {n : Nat} {ext : Ext}
    (hK : Keeps s0 s) : Keeps s0 (hostLoad s p a h n ext).1 := by
  unfold hostLoad
  repeat' (first | with_reducible assumption | with_reducible apply hostViol_keeps
                  | with_reducible apply ldEnd_keeps | split)

theorem hartWaits_keeps {s0 : State} {s : State} {p : Nat} (hK : Keeps s0 s) : Keeps s0 (hartWaits s p) := by
  unfold hartWaits
  repeat' (first | with_reducible assumption | with_reducible apply setHart_keeps | simp only [keeps_mk_iff]
                  | with_reducible exact hvl _ | intro hvl)

theorem hostStoreEnd_keeps {s0 : State} {p : Nat} {a : Nat} {e0 : State × HostRes}  (hf_e0 : Keeps s0 e0.1) : Keeps
    s0 (hostStoreEnd p a e0).1 := by
  unfold hostStoreEnd
  repeat' (first | with_reducible assumption | with_reducible apply stEnd_keeps
                  | with_reducible apply hartWaits_keeps | split)

theorem aperLoad_keeps {s0 : State} {s : State} {p : Nat} {a : Nat} {f : Nat} {n : Nat} {ext : Ext}
    (hK : Keeps s0 s) : Keeps s0 (aperLoad s p a f n ext).1 := by
  unfold aperLoad
  repeat' (first | with_reducible assumption | with_reducible apply fabServe_keeps
                  | with_reducible apply ldEnd_keeps | with_reducible apply hostLoad_keeps
                  | simp only [keeps_mk_iff] | with_reducible refine keeps_fst (by assumption) ?_ | split)

theorem aperStore_keeps {s0 : State} {s : State} {p : Nat} {a : Nat} {f : Nat} {bs : Bytes} {ext : Ext}
    (hK : Keeps s0 s) : Keeps s0 (aperStore s p a f bs ext).1 := by
  unfold aperStore
  repeat' (first | with_reducible assumption | with_reducible apply fabServe_keeps
                  | with_reducible apply stEnd_keeps | with_reducible apply hartWaits_keeps
                  | simp only [keeps_mk_iff] | with_reducible refine keeps_fst (by assumption) ?_ | split)

theorem loadMem_keeps {s0 : State} {s : State} {p : Nat} {a : Nat} {n : Nat} {ext : Ext} (hK : Keeps s0 s) : Keeps
    s0 (loadMem s p a n ext).1 := by
  unfold loadMem
  repeat' (first | with_reducible assumption | with_reducible apply ctlRead_keeps | with_reducible apply ldEnd_keeps
                  | with_reducible apply tensorLoad_keeps | with_reducible apply hostLoad_keeps
                  | with_reducible apply aperLoad_keeps | simp only [keeps_mk_iff] | split)

theorem putLocal_keeps {s0 : State} {s : State} {p : Nat} {o : Nat} {bs : Bytes} (hK : Keeps s0 s) : Keeps s0
    (putLocal s p o bs) := by
  unfold putLocal
  repeat' (first | with_reducible assumption | with_reducible apply setHart_keeps | with_reducible exact hvl _
                  | extract_lets | intro hvl | with_reducible apply memWrite_wf)

theorem storeMem_keeps {s0 : State} {s : State} {p : Nat} {a : Nat} {bs : Bytes} {ext : Ext} (hK : Keeps s0 s) :
    Keeps s0 (storeMem s p a bs ext).1 := by
  unfold storeMem
  repeat' (first | with_reducible assumption | with_reducible apply hostWrite_keeps
                  | with_reducible apply setHart_keeps | with_reducible apply ctlWrite_keeps
                  | with_reducible apply stEnd_keeps | with_reducible apply tensorStore_keeps
                  | with_reducible apply hostStoreEnd_keeps | with_reducible apply aperStore_keeps
                  | with_reducible apply putLocal_keeps | simp only [keeps_mk_iff] | with_reducible exact hvl _
                  | extract_lets | split | intro hvl)

theorem tensorAmo_keeps {s0 : State} {s : State} {p : Nat} {a : Nat} {lta : Nat} {n : Nat} {v : Nat} {op : AmoOp}
    (hK : Keeps s0 s) : Keeps s0 (tensorAmo s p a lta n v op).1 := by
  unfold tensorAmo
  repeat' (first | with_reducible assumption | with_reducible apply engineLta_keeps
                  | with_reducible apply ltaWrite_keeps | with_reducible apply dropLine_keeps
                  | with_reducible apply procErr_keeps | simp only [keeps_mk_iff]
                  | with_reducible refine keeps_fst (by assumption) ?_ | split)

theorem amoMem_keeps {s0 : State} {s : State} {p : Nat} {a : Nat} {n : Nat} {v : Nat} {op : AmoOp} (hK : Keeps s0 s)
    : Keeps s0 (amoMem s p a n v op).1 := by
  unfold amoMem
  repeat' (first | with_reducible assumption | with_reducible apply putLocal_keeps
                  | with_reducible apply tensorAmo_keeps | simp only [keeps_mk_iff] | split)

theorem toX_keeps {s0 : State} {s : State} {p : Nat} {rd : Fin 32} {v : W64} {pc : Nat} (hK : Keeps s0 s) : Keeps s0
    (toX s p rd v pc).1 := by
  unfold toX
  repeat' (first | with_reducible assumption | with_reducible apply setHart_keeps | with_reducible apply setX_lmemOk
                  | with_reducible exact hvl _ | extract_lets | intro hvl)

theorem loadDo_keeps {s0 : State} {s : State} {p : Nat} {a : Nat} {n : Nat} {next : Nat} {ext : Ext}
    {put : Hart → Nat → Hart} (hK : Keeps s0 s) (hf_put : ∀ a0 a1, LmemOk a0 → LmemOk (put a0 a1)) : Keeps s0
    (loadDo s p a n next ext put).1 := by
  unfold loadDo
  repeat' (first | with_reducible assumption | with_reducible apply hf_put | with_reducible apply setHart_keeps
                  | with_reducible apply loadMem_keeps | simp only [keeps_mk_iff]
                  | with_reducible refine keeps_fst (by assumption) ?_ | with_reducible exact hvl _ | extract_lets
                  | split | intro hvl)

theorem storeDo_keeps {s0 : State} {s : State} {p : Nat} {a : Nat} {next : Nat} {bs : Bytes} {ext : Ext}
    (hK : Keeps s0 s) : Keeps s0 (storeDo s p a next bs ext).1 := by
  unfold storeDo
  repeat' (first | with_reducible assumption | with_reducible apply storeMem_keeps | simp only [keeps_mk_iff]
                  | with_reducible refine keeps_fst (by assumption) ?_ | split)

theorem lrDo_keeps {s0 : State} {s : State} {p : Nat} {a : Nat} {n : Nat} {next : Nat} {rd : Fin 32}
    (hK : Keeps s0 s) : Keeps s0 (lrDo s p a n next rd).1 := by
  unfold lrDo
  repeat' (first | with_reducible assumption | with_reducible apply setHart_keeps | with_reducible apply setX_lmemOk
                  | simp only [keeps_mk_iff] | with_reducible exact hvl _ | extract_lets | split | intro hvl)

theorem scDo_keeps {s0 : State} {s : State} {p : Nat} {a : Nat} {n : Nat} {next : Nat} {v : Nat} {rd : Fin 32}
    (hK : Keeps s0 s) : Keeps s0 (scDo s p a n next v rd).1 := by
  unfold scDo
  repeat' (first | with_reducible assumption | with_reducible apply setHart_keeps
                  | with_reducible apply putLocal_keeps | with_reducible apply setX_lmemOk | simp only [keeps_mk_iff]
                  | with_reducible exact hvl _ | extract_lets | split | intro hvl)

theorem amoInstr_keeps {s0 : State} {s : State} {p : Nat} {a : Nat} {n : Nat} {next : Nat} {v : Nat} {op : AmoOp}
    {rd : Fin 32} (hK : Keeps s0 s) : Keeps s0 (amoInstr s p a n next v op rd).1 := by
  unfold amoInstr
  repeat' (first | with_reducible assumption | with_reducible apply amoMem_keeps | with_reducible apply toX_keeps
                  | simp only [keeps_mk_iff] | with_reducible refine keeps_fst (by assumption) ?_ | split)

theorem csrInstr_keeps {s0 : State} {s : State} {p next : Nat} {write set : Bool} {num : Nat} {rd : Fin 32}
    {src : W64} {writes : Bool} (hK : Keeps s0 s) : Keeps s0 (csrInstr s p next write set num rd src writes).1 := by
  unfold csrInstr
  split
  · rename_i e; exact csrDo_keeps hK _ e
  · exact hK

theorem fpInstr_keeps {s0 : State} {s : State} {p : Nat} {f : State × HRes} (hK : Keeps s0 s) (hf_f : Keeps s0 f.1)
    : Keeps s0 (fpInstr s p f).1 := by
  unfold fpInstr
  repeat' (first | with_reducible assumption | split)

theorem hartOp_keeps {s0 : State} {s : State} {p : Nat} {len : Nat} {op : RvInstr} (hK : Keeps s0 s) : Keeps s0
    (hartOp s p len op).1 := by
  unfold hartOp
  repeat' (first | with_reducible assumption | with_reducible apply setHart_keeps | with_reducible apply toX_keeps
                  | with_reducible apply loadDo_keeps | with_reducible apply storeDo_keeps
                  | with_reducible apply lrDo_keeps | with_reducible apply scDo_keeps
                  | with_reducible apply amoInstr_keeps | with_reducible apply csrInstr_keeps
                  | with_reducible apply fpInstr_keeps | with_reducible apply setX_lmemOk | with_reducible apply setF_lmemOk
                  | with_reducible apply fpDo_lmemOk | with_reducible apply mretDo_lmemOk | simp only [keeps_mk_iff]
                  | with_reducible exact hvl _ | extract_lets | split | intro hvl)

theorem hartEnd_keeps {s0 : State} {p : Nat} {e0 : State × HRes}  (hf_e0 : Keeps s0 e0.1) : Keeps s0 (hartEnd p e0)
    := by
  unfold hartEnd
  repeat' (first | with_reducible assumption | with_reducible apply setHart_keeps
                  | with_reducible apply takeTrap_keeps | simp only [keeps_mk_iff] | with_reducible exact hvl _
                  | extract_lets | split | intro hvl)

theorem hartStep_keeps {s0 : State} {s : State} {p : Nat} {len : Nat} {op : RvInstr} {fails : Option Byte}
    (hK : Keeps s0 s) : Keeps s0 (hartStep s p len op fails) := by
  unfold hartStep
  repeat' (first | with_reducible assumption | with_reducible apply setHart_keeps
                  | with_reducible apply procErr_keeps | with_reducible apply lockup_keeps
                  | with_reducible apply takeTrap_keeps | with_reducible apply hartOp_keeps
                  | with_reducible apply hartEnd_keeps | simp only [keeps_mk_iff] | with_reducible exact hvl _
                  | extract_lets | split | intro hvl)

theorem execProcInstruction_keeps {s0 : State} {p : Fin 8} {op : RvInstr} {len : Nat} {fetchFails : Option Byte}
    {s : State} (hK : Keeps s0 s) : OutKeeps s0 (execProcInstruction p op len fetchFails s) := by
  unfold execProcInstruction
  repeat' (first | with_reducible assumption | with_reducible apply romStep_keeps
                  | with_reducible apply hartStep_keeps | with_reducible apply outKeeps_next | split)

end Sys2Proof.Machine
end

