-- ==== Sys2Proof/Laws/KeepsTick.lean ====
section
/-! SUPPORT. What the functions of Machine/Tick.lean keep (see Laws/Keeps.lean). -/

set_option linter.unusedSimpArgs false
set_option simprocs false -- no numeral of a goal is evaluated in these proofs

namespace Sys2Proof.Machine

theorem tickThrottle_keeps {s0 : State} {s : State} (hK : Keeps s0 s) : Keeps s0 (tickThrottle s) := by
  unfold tickThrottle
  repeat' (first | with_reducible assumption | with_reducible apply bumpStat_keeps | split)

theorem tickEff_keeps {s0 : State} {s : State} (hK : Keeps s0 s) : Keeps s0 (tickEff s) := by
  unfold tickEff
  repeat' (first | with_reducible assumption | with_reducible apply jrnlWork_keeps
                  | with_reducible apply tickThrottle_keeps | simp only [keeps_mk_iff] | split)

end Sys2Proof.Machine
end

