-- ==== Sys2Proof/Laws/PerInstr.lean ====
section
/-! SUPPORT. For each command, what its well-formedness says of its operands, as propositions: the bounds of the manual
on each of them, or that nothing is asked of them. -/

namespace Sys2Proof.Laws.Operands

open Sys2Proof

/-- The units of a core's memories that errors strike exist (R85, R103, R112, R126). -/
def StrikeFits (k : Strike) : Prop :=
  (∀ n ∈ k.ts, n < 524288) ∧ (∀ n ∈ k.acc, n < 65536) ∧ (∀ n ∈ k.vreg, n < 4096) ∧ (∀ n ∈ k.mask, n < 16) ∧ ∀ n ∈ k.imem, n < 32768

/-- The fields of a fabric message fit (R358). -/
def MsgFits (m : FabMsg) : Prop :=
  m.mtype < 16 ∧ m.dst < 4096 ∧ m.src < 4096 ∧ m.hops < 16 ∧ m.tag < 131072 ∧ m.gen < 8 ∧ m.rsvd < 8 ∧ m.sub < 256
    ∧ m.addr < 2 ^ 64 ∧ m.len < 16384 ∧ (∀ n ∈ m.route, n < 32) ∧ m.route.length ≤ 9 ∧ (∀ n ∈ m.rroute, n < 32) ∧ m.rroute.length ≤ 9

/-- The fields of a host message fit (R420). -/
def HostFits (m : HostMsg) : Prop :=
  m.mtype < 16 ∧ m.tag < 2 ^ 24 ∧ m.jseq < 2 ^ 32 ∧ m.addr < 2 ^ 64 ∧ m.len ≤ 4096 ∧ m.hepoch < 2 ^ 32

/-- The fields of a flit fit (R349). -/
def FlitFits (f : Flit) : Prop :=
  f.seq < 4096 ∧ f.ack < 4096 ∧ f.ftype < 8 ∧ f.vc < 4 ∧ f.hc < 2 ∧ f.cvc < 4 ∧ f.chc < 2 ∧ f.payload.length ≤ 244

/-- A source of events exists (R451). -/
def SourceFits (n : Nat) : Prop := n ≤ 93 ∨ 96 ≤ n ∧ n ≤ 143 ∨ 256 ≤ n ∧ n ≤ 351 ∨ 384 ≤ n ∧ n ≤ 479

/-- A line request stays in its line and brings its bytes when it writes (R148). -/
def LineFits (r : LineReq) : Prop :=
  r.chaddr < 2 ^ 31 ∧ 1 ≤ r.len ∧ r.chaddr % 64 + r.len ≤ 64 ∧ if r.write then r.data.length = r.len else r.data = []

/-- A granule request names a granule and brings its bytes when it writes (R150). -/
def GranFits (r : GranReq) : Prop := 1 ≤ r.count ∧ if r.write then r.data.length = 512 * r.count else r.data = []

/-- An access of tensor memory has a length and brings its bytes when it writes (R28). -/
def LtaFits (r : LtaReq) : Prop := 1 ≤ r.len ∧ r.addr < 2 ^ 64 ∧ if r.write then r.data.length = r.len else r.data = []

theorem below_iff (n : Nat) (l : List Nat) : below n l = true ↔ ∀ x ∈ l, x < n := by simp [below]
theorem strike_iff (k : Strike) : wfStrike k = true ↔ StrikeFits k := by simp [wfStrike, StrikeFits, below_iff, and_assoc]
theorem msg_iff (m : FabMsg) : wfMsg m = true ↔ MsgFits m := by simp [wfMsg, MsgFits, below_iff, and_assoc]
theorem host_iff (m : HostMsg) : wfHost m = true ↔ HostFits m := by simp [wfHost, HostFits, and_assoc]
theorem flit_iff (f : Flit) : wfFlit f = true ↔ FlitFits f := by simp [wfFlit, FlitFits, and_assoc]
theorem source_iff (n : Nat) : sourceNo n = true ↔ SourceFits n := by simp [sourceNo, SourceFits, or_assoc]
theorem line_iff (r : LineReq) : wfLine r = true ↔ LineFits r := by simp [wfLine, LineFits, and_assoc]
theorem gran_iff (r : GranReq) : wfGran r = true ↔ GranFits r := by simp [wfGran, GranFits]
theorem lta_iff (r : LtaReq) : wfLta r = true ↔ LtaFits r := by simp [wfLta, LtaFits, and_assoc]
theorem ext_iff (e : Ext) : wfExt e = true ↔ e.status.toNat < 15 := by simp [wfExt]
theorem record_iff (b : Bytes) : record b = true ↔ b.length ≤ 8192 := by simp [record]
theorem page_iff (p : Nat) : pageNo p = true ↔ p < 2 ^ 26 := by simp [pageNo]
theorem addr_iff (a : Nat) : ctlAddr a = true ↔ a < 2 ^ 28 := by simp [ctlAddr]

theorem asked_iff : (true = true) ↔ True := by simp

/-- What a well-formed command's operands satisfy. -/
def Fits (i : Instr) : Prop :=
  match i with
  | .registerWrite _ addr _ _ => addr < 2 ^ 28
  | .reg64LowRead _ addr => addr < 2 ^ 28
  | .reg64HighRead _ addr => addr < 2 ^ 28
  | .reg64LowWrite _ addr _ => addr < 2 ^ 28
  | .reg64HighWrite _ addr _ => addr < 2 ^ 28
  | .rcCounterRead _ addr _ => addr < 2 ^ 28
  | .shShadowWrite _ addr _ => addr < 2 ^ 28
  | .quiesceRequest _ _ => True
  | .blockQuiesced _ => True
  | .quiesceTimeout => True
  | .commitGo _ _ => True
  | .commitConfirm => True
  | .nop _ k => StrikeFits k
  | .halt _ k => StrikeFits k
  | .li _ k => StrikeFits k
  | .lui _ k => StrikeFits k
  | .addi _ k => StrikeFits k
  | .add _ k => StrikeFits k
  | .sub _ k => StrikeFits k
  | .shli _ k => StrikeFits k
  | .bz _ k => StrikeFits k
  | .bnz _ k => StrikeFits k
  | .jmp _ k => StrikeFits k
  | .loop _ k => StrikeFits k
  | .strmIssue _ k => StrikeFits k
  | .strmCancelInstr _ k => StrikeFits k
  | .mmLdw _ k => StrikeFits k
  | .mmRun _ k => StrikeFits k
  | .mmRunComplete _ => True
  | .syncWait _ k => StrikeFits k
  | .syncWaitm _ k => StrikeFits k
  | .syncSet _ k => StrikeFits k
  | .syncClr _ k => StrikeFits k
  | .syncTest _ k => StrikeFits k
  | .syncSig _ k => StrikeFits k
  | .syncSigDeliver _ => True
  | .syncBar _ k => StrikeFits k
  | .barComplete _ _ => True
  | .syncMark _ k => StrikeFits k
  | .syncDrain _ k => StrikeFits k
  | .coreStallResume _ => True
  | .coreRun _ _ => True
  | .coreStop _ _ => True
  | .corePcWrite _ _ _ => True
  | .coreFaultClr _ _ => True
  | .coreSbClear _ _ _ => True
  | .coreSbSet _ _ _ => True
  | .accTmodeWrite _ _ _ => True
  | .coreInitDone _ => True
  | .strmPush _ _ _ _ => True
  | .strmPushFetch _ _ => True
  | .strmCancel _ _ _ => True
  | .strmFailClear _ _ _ => True
  | .strmDescStart _ _ tsBad => ∀ n ∈ tsBad, n < 524288
  | .strmPartDone _ _ _ part ext => part < 64 ∧ ext.status.toNat < 15
  | .strmDescComplete _ _ _ => True
  | .accMode _ k => StrikeFits k
  | .accZero _ k => StrikeFits k
  | .accLd _ k => StrikeFits k
  | .accSt _ k => StrikeFits k
  | .accPush _ k => StrikeFits k
  | .trqPush _ => True
  | .accSadd _ k => StrikeFits k
  | .accSmrg _ k => StrikeFits k
  | .accSfin _ k => StrikeFits k
  | .vsetvl _ k => StrikeFits k
  | .vld _ k => StrikeFits k
  | .vst _ k => StrikeFits k
  | .vstg8 _ k => StrikeFits k
  | .vtrqpop _ k => StrikeFits k
  | .vext _ k => StrikeFits k
  | .vins _ k => StrikeFits k
  | .vmov _ k => StrikeFits k
  | .vfadd _ k => StrikeFits k
  | .vfsub _ k => StrikeFits k
  | .vfmul _ k => StrikeFits k
  | .vffma _ k => StrikeFits k
  | .vfmax _ k => StrikeFits k
  | .vfmin _ k => StrikeFits k
  | .vfabs _ k => StrikeFits k
  | .vfneg _ k => StrikeFits k
  | .vrcp _ k => StrikeFits k
  | .vrsqrt _ k => StrikeFits k
  | .vsqrt _ k => StrikeFits k
  | .vexp2 _ k => StrikeFits k
  | .vlog2 _ k => StrikeFits k
  | .vtanh _ k => StrikeFits k
  | .vsigm _ k => StrikeFits k
  | .verf _ k => StrikeFits k
  | .vcvtif _ k => StrikeFits k
  | .vcvtfi _ k => StrikeFits k
  | .vexps _ k => StrikeFits k
  | .vfcmp _ k => StrikeFits k
  | .vfrsum _ k => StrikeFits k
  | .vfrmax _ k => StrikeFits k
  | .vfrmin _ k => StrikeFits k
  | .vsel _ k => StrikeFits k
  | .viadd _ k => StrikeFits k
  | .visub _ k => StrikeFits k
  | .vimul _ k => StrikeFits k
  | .vimax _ k => StrikeFits k
  | .vimin _ k => StrikeFits k
  | .vand _ k => StrikeFits k
  | .vor _ k => StrikeFits k
  | .vxor _ k => StrikeFits k
  | .vshl _ k => StrikeFits k
  | .vshra _ k => StrikeFits k
  | .vshrl _ k => StrikeFits k
  | .vicmp _ k => StrikeFits k
  | .virsum _ k => StrikeFits k
  | .vmset _ k => StrikeFits k
  | .vmnot _ k => StrikeFits k
  | .vmand _ k => StrikeFits k
  | .vmor _ k => StrikeFits k
  | .vmpop _ k => StrikeFits k
  | .fastLineRequest _ r => LineFits r
  | .fastAccessDone _ _ symErrors _ => symErrors ≤ 72
  | .deepGranuleRequest _ r => GranFits r
  | .deepAccessDone _ _ _ _ => True
  | .deepTierTimeout _ _ _ => True
  | .refreshInterval _ channel bank => channel < 64 ∧ bank < 32
  | .bankRefresh _ channel bank => channel < 64 ∧ bank < 32
  | .stackTempSample _ _ => True
  | .scrubStep _ symErrors _ => symErrors.length ≤ 64
  | .rowlogClr _ _ => True
  | .errCaptureClear _ _ => True
  | .stackInitDone _ => True
  | .controllerReady _ => True
  | .selfRefreshExit _ => True
  | .ltaAccess r => LtaFits r
  | .migrationStart => True
  | .promotionSector _ => True
  | .stalledRequestResume _ => True
  | .writebackSector _ => True
  | .frameWaitExpire page => page < 2 ^ 26
  | .epochTick => True
  | .sweepVisit _ => True
  | .pagePoisonReport page _ _ => page < 2 ^ 26
  | .plcJournalReplay => True
  | .plcRead _ _ _ => True
  | .plcMap _ _ _ => True
  | .plcUnmap _ _ _ => True
  | .plcSetAttr _ _ _ => True
  | .plcPromote _ _ _ => True
  | .plcDemote _ _ _ => True
  | .plcFlush _ _ _ => True
  | .plcHome _ _ _ => True
  | .plcRelocate _ _ _ => True
  | .plcRetire _ _ _ => True
  | .plcRelease _ _ _ => True
  | .plcRebuild _ _ _ => True
  | .ephLoad _ _ _ => True
  | .ephArm _ _ _ => True
  | .ephDisarm _ _ _ => True
  | .ephUnload _ _ _ => True
  | .plcCmdDone _ => True
  | .ephMarker => True
  | .ephDescPush _ entry => entry < 4096
  | .ephEntryComplete _ entry => entry < 4096
  | .nbuPageAcquire _ page _ => page < 2 ^ 26
  | .nbuFence _ page => page < 2 ^ 26
  | .nbuPageRelease _ page => page < 2 ^ 26
  | .burstGrant _ _ => True
  | .burstEnd _ => True
  | .burstPreempt _ => True
  | .nbuRowReceive _ row => row.length ≤ 8192
  | .nbuRowApply _ => True
  | .rowUnpark _ => True
  | .transposeTile _ => True
  | .nbuRowAnswer _ => True
  | .deltaReceive _ delta => delta.length ≤ 8192
  | .deltaAckReceive _ ack => ack.length ≤ 8192
  | .commitLineWrite _ => True
  | .deltaResend _ dev _ => dev < 4096
  | .markSend _ dev _ => dev < 4096
  | .nbuRetainedRestore _ => True
  | .progLoad _ _ _ => True
  | .bindLoad _ _ _ => True
  | .bindClear _ _ _ => True
  | .job _ _ _ => True
  | .jobPart _ => True
  | .audit _ _ _ => True
  | .transpose _ _ _ => True
  | .seqReset _ _ _ => True
  | .nbuCmdDone _ => True
  | .rlySqPiWrite _ _ _ _ => True
  | .rlyOpen _ _ => True
  | .rlySend _ _ => True
  | .rlyCancel _ _ => True
  | .rlyRelease _ _ => True
  | .contribReceive _ rec => rec.length ≤ 8192
  | .answerReceive _ rec => rec.length ≤ 8192
  | .resendReceive _ rec => rec.length ≤ 8192
  | .doneReceive _ rec => rec.length ≤ 8192
  | .doneAckReceive _ rec => rec.length ≤ 8192
  | .rlyHopTimeout _ _ => True
  | .rlyRetryTimer _ _ => True
  | .bucketDeadline _ _ => True
  | .bucketHardLimit _ _ => True
  | .rowDeliver _ => True
  | .nbuAnswerReceive _ answer => answer.length ≤ 8192
  | .deliveryTimeout _ _ _ => True
  | .doneRepeat _ _ => True
  | .sendProbe _ _ => True
  | .rlyRbPiWrite _ _ _ => True
  | .rebuildEntry _ => True
  | .xpartReceive _ rec => rec.length ≤ 8192
  | .xpartReturn _ rec ext => rec.length ≤ 8192 ∧ ext.status.toNat < 15
  | .xpartTimeout _ _ => True
  | .medSqPiWrite _ _ _ => True
  | .ingest _ _ => True
  | .shuf _ => True
  | .medCancel _ => True
  | .shufJobGenerate => True
  | .ingestFrame _ ext => ext.status.toNat < 15
  | .ingestJobDone _ ext => ext.status.toNat < 15
  | .linkEnable _ _ _ => True
  | .linkAdmit _ _ _ => True
  | .linkRetrain _ _ => True
  | .linkTrained _ _ => True
  | .linkTrainingTimeout _ => True
  | .linkAutoRetrain _ => True
  | .laneLockLost _ => True
  | .initFlitReceive _ f => FlitFits f
  | .dataFlitReceive _ f => FlitFits f
  | .fecUncorrectable _ _ => True
  | .nakReceive _ f => FlitFits f
  | .ackTimeout _ => True
  | .flitSend _ => True
  | .keepaliveSend _ => True
  | .keepaliveTimeout _ => True
  | .peerStalled _ => True
  | .helloReceive _ m => MsgFits m
  | .helloProofReceive _ m => MsgFits m
  | .messageRoute _ m => MsgFits m
  | .fabricRequestIssue m => MsgFits m
  | .rdReq m => MsgFits m
  | .wrReq m => MsgFits m
  | .rdRsp m => MsgFits m
  | .wrRsp m => MsgFits m
  | .fabricRequestTimeout tag => tag < 131072
  | .relayMsgReceive m => MsgFits m
  | .srForward _ m => MsgFits m
  | .srRead m => MsgFits m
  | .srWrite m => MsgFits m
  | .mailboxReceive m => MsgFits m
  | .fabcMgmtPush _ _ => True
  | .routeBankSwitch _ => True
  | .jrnlExport _ dev => dev < 4096
  | .jrnlRevert _ dev => dev < 4096
  | .jrnlForget _ dev => dev < 4096
  | .hRd m ext => HostFits m ∧ ext.status.toNat < 15
  | .hWr m ext => HostFits m ∧ ext.status.toNat < 15
  | .hostWriteIssue _ addr data => addr < 2 ^ 44 ∧ 1 ≤ data.length
  | .hostReadIssue _ addr len => addr < 2 ^ 44 ∧ 1 ≤ len
  | .dRsp m => HostFits m
  | .hostReadTimeout tag => tag < 2 ^ 24
  | .jack m => HostFits m
  | .resume m => HostFits m
  | .hostReset m => HostFits m
  | .detachTimeout => True
  | .hostAttach _ _ => True
  | .hostDetach _ => True
  | .detachComplete => True
  | .sqDoorbell _ _ _ => True
  | .cqHeadWrite _ _ _ => True
  | .sqFetch _ ext => ext.data.length = 64 ∨ ext.status ≠ 0
  | .hlkNop _ _ => True
  | .writeInline _ _ ext => ext.status.toNat < 15
  | .copy _ _ part src dst => part < 1048576 ∧ src.status.toNat < 15 ∧ dst.status.toNat < 15
  | .readSmall _ _ ext => ext.status.toNat < 15
  | .fwCall _ _ => True
  | .powerEnter _ _ => True
  | .powerQuery _ _ => True
  | .hlkCmdComplete _ _ => True
  | .cqCoalTimer _ => True
  | .vecUnmask _ _ => True
  | .fwDone _ _ => True
  | .hwinWrite _ _ _ _ => True
  | .procInstruction _ op len _ => (len = 2 ∨ len = 4) ∧ wfRv op = true
  | .procRun _ _ => True
  | .procHalt _ _ => True
  | .procDinv _ _ => True
  | .procWfiWake _ => True
  | .mtimecmpMatch _ => True
  | .wdtKick _ _ _ => True
  | .wdtExpire _ => True
  | .evtSwraise _ _ => True
  | .evtRingWrite _ => True
  | .evtNestEnter _ _ => True
  | .evtNestExit _ _ => True
  | .evtTgtCiWrite _ _ _ => True
  | .evtFaultClear _ _ => True
  | .evtSrcPurge _ n => SourceFits n
  | .evtLineAccept _ _ => True
  | .domeBufferDrain => True
  | .modeOvr _ _ => True
  | .confirm _ => True
  | .bootRelease _ => True
  | .bootHostData _ _ => True
  | .flashRead _ => True
  | .flashProgram _ => True
  | .flashErase _ => True
  | .flashReadId _ id => id.length ≤ 256
  | .flashDone => True
  | .secHash _ => True
  | .secVerify _ => True
  | .secExtend _ => True
  | .secReport _ => True
  | .svnSet _ => True
  | .keyProgram _ => True
  | .keyRevoke _ => True
  | .lifecycleAdvance _ => True
  | .secCmdDone => True
  | .secPermLock _ => True
  | .helloProofSign _ => True
  | .railThreshold _ _ => True
  | .resetPinAccept _ => True
  | .clockMonitorWindow _ => True
  | .rstSwreq _ _ => True
  | .rstDbgreq _ _ => True
  | .resetSourceAssert _ _ _ => True
  | .resetSourceRelease _ => True
  | .fuseLoadDone words => words.length = 512
  | .pllLockDone => True
  | .resetRelease => True
  | .blockResetRequest _ _ => True
  | .blockResetEnter _ => True
  | .blkTimeout _ => True
  | .blockResetEnd _ _ => True
  | .blkDone _ => True
  | .entryQuiesced => True
  | .entryClockStop => True
  | .entryAbandoned => True
  | .wakePinAccept _ => True
  | .smbusAddressMatch _ => True
  | .ralineActivity => True
  | .watchWake source => SourceFits source
  | .wakeDone => True
  | .offWake => True
  | .domainAutoOff _ => True
  | .domainWake _ => True
  | .domainReady _ => True
  | .oppDone => True
  | .powerSample fast slow _ => fast < 65536 ∧ slow < 65536
  | .capAdjust => True
  | .thermalSample _ _ => True
  | .thermalShutdown => True
  | .railEnRelease => True
  | .smbusBlockRead _ => True
  | .platePublish _ => True
  | .plateClear _ => True
  | .plateClearDone => True
  | .plateAck _ _ => True
  | .powerOnHoldEnd => True
  | .pllLossOfLock => True
  | .vstbyLoss => True
  | .strapReadDone codes => codes.length = 8

/-- A command is well formed exactly when its operands are within the bounds the manual gives them. -/
def Statement (i : Instr) : Prop := WellFormed i = true ↔ Fits i

theorem registerWrite : ∀ a0 a1 a2 a3, Statement (.registerWrite a0 a1 a2 a3) := fun _ _ _ _ => addr_iff _
theorem reg64LowRead : ∀ a0 a1, Statement (.reg64LowRead a0 a1) := fun _ _ => addr_iff _
theorem reg64HighRead : ∀ a0 a1, Statement (.reg64HighRead a0 a1) := fun _ _ => addr_iff _
theorem reg64LowWrite : ∀ a0 a1 a2, Statement (.reg64LowWrite a0 a1 a2) := fun _ _ _ => addr_iff _
theorem reg64HighWrite : ∀ a0 a1 a2, Statement (.reg64HighWrite a0 a1 a2) := fun _ _ _ => addr_iff _
theorem rcCounterRead : ∀ a0 a1 a2, Statement (.rcCounterRead a0 a1 a2) := fun _ _ _ => addr_iff _
theorem shShadowWrite : ∀ a0 a1 a2, Statement (.shShadowWrite a0 a1 a2) := fun _ _ _ => addr_iff _
theorem quiesceRequest : ∀ a0 a1, Statement (.quiesceRequest a0 a1) := fun _ _ => asked_iff
theorem blockQuiesced : ∀ a0, Statement (.blockQuiesced a0) := fun _ => asked_iff
theorem quiesceTimeout : Statement .quiesceTimeout := asked_iff
theorem commitGo : ∀ a0 a1, Statement (.commitGo a0 a1) := fun _ _ => asked_iff
theorem commitConfirm : Statement .commitConfirm := asked_iff
theorem nop : ∀ a0 a1, Statement (.nop a0 a1) := fun _ _ => strike_iff _
theorem halt : ∀ a0 a1, Statement (.halt a0 a1) := fun _ _ => strike_iff _
theorem li : ∀ a0 a1, Statement (.li a0 a1) := fun _ _ => strike_iff _
theorem lui : ∀ a0 a1, Statement (.lui a0 a1) := fun _ _ => strike_iff _
theorem addi : ∀ a0 a1, Statement (.addi a0 a1) := fun _ _ => strike_iff _
theorem add : ∀ a0 a1, Statement (.add a0 a1) := fun _ _ => strike_iff _
theorem sub : ∀ a0 a1, Statement (.sub a0 a1) := fun _ _ => strike_iff _
theorem shli : ∀ a0 a1, Statement (.shli a0 a1) := fun _ _ => strike_iff _
theorem bz : ∀ a0 a1, Statement (.bz a0 a1) := fun _ _ => strike_iff _
theorem bnz : ∀ a0 a1, Statement (.bnz a0 a1) := fun _ _ => strike_iff _
theorem jmp : ∀ a0 a1, Statement (.jmp a0 a1) := fun _ _ => strike_iff _
theorem loop : ∀ a0 a1, Statement (.loop a0 a1) := fun _ _ => strike_iff _
theorem strmIssue : ∀ a0 a1, Statement (.strmIssue a0 a1) := fun _ _ => strike_iff _
theorem strmCancelInstr : ∀ a0 a1, Statement (.strmCancelInstr a0 a1) := fun _ _ => strike_iff _
theorem mmLdw : ∀ a0 a1, Statement (.mmLdw a0 a1) := fun _ _ => strike_iff _
theorem mmRun : ∀ a0 a1, Statement (.mmRun a0 a1) := fun _ _ => strike_iff _
theorem mmRunComplete : ∀ a0, Statement (.mmRunComplete a0) := fun _ => asked_iff
theorem syncWait : ∀ a0 a1, Statement (.syncWait a0 a1) := fun _ _ => strike_iff _
theorem syncWaitm : ∀ a0 a1, Statement (.syncWaitm a0 a1) := fun _ _ => strike_iff _
theorem syncSet : ∀ a0 a1, Statement (.syncSet a0 a1) := fun _ _ => strike_iff _
theorem syncClr : ∀ a0 a1, Statement (.syncClr a0 a1) := fun _ _ => strike_iff _
theorem syncTest : ∀ a0 a1, Statement (.syncTest a0 a1) := fun _ _ => strike_iff _
theorem syncSig : ∀ a0 a1, Statement (.syncSig a0 a1) := fun _ _ => strike_iff _
theorem syncSigDeliver : ∀ a0, Statement (.syncSigDeliver a0) := fun _ => asked_iff
theorem syncBar : ∀ a0 a1, Statement (.syncBar a0 a1) := fun _ _ => strike_iff _
theorem barComplete : ∀ a0 a1, Statement (.barComplete a0 a1) := fun _ _ => asked_iff
theorem syncMark : ∀ a0 a1, Statement (.syncMark a0 a1) := fun _ _ => strike_iff _
theorem syncDrain : ∀ a0 a1, Statement (.syncDrain a0 a1) := fun _ _ => strike_iff _
theorem coreStallResume : ∀ a0, Statement (.coreStallResume a0) := fun _ => asked_iff
theorem coreRun : ∀ a0 a1, Statement (.coreRun a0 a1) := fun _ _ => asked_iff
theorem coreStop : ∀ a0 a1, Statement (.coreStop a0 a1) := fun _ _ => asked_iff
theorem corePcWrite : ∀ a0 a1 a2, Statement (.corePcWrite a0 a1 a2) := fun _ _ _ => asked_iff
theorem coreFaultClr : ∀ a0 a1, Statement (.coreFaultClr a0 a1) := fun _ _ => asked_iff
theorem coreSbClear : ∀ a0 a1 a2, Statement (.coreSbClear a0 a1 a2) := fun _ _ _ => asked_iff
theorem coreSbSet : ∀ a0 a1 a2, Statement (.coreSbSet a0 a1 a2) := fun _ _ _ => asked_iff
theorem accTmodeWrite : ∀ a0 a1 a2, Statement (.accTmodeWrite a0 a1 a2) := fun _ _ _ => asked_iff
theorem coreInitDone : ∀ a0, Statement (.coreInitDone a0) := fun _ => asked_iff
theorem strmPush : ∀ a0 a1 a2 a3, Statement (.strmPush a0 a1 a2 a3) := fun _ _ _ _ => asked_iff
theorem strmPushFetch : ∀ a0 a1, Statement (.strmPushFetch a0 a1) := fun _ _ => asked_iff
theorem strmCancel : ∀ a0 a1 a2, Statement (.strmCancel a0 a1 a2) := fun _ _ _ => asked_iff
theorem strmFailClear : ∀ a0 a1 a2, Statement (.strmFailClear a0 a1 a2) := fun _ _ _ => asked_iff
theorem strmDescStart : ∀ a0 a1 a2, Statement (.strmDescStart a0 a1 a2) := fun _ _ _ => below_iff _ _
theorem strmPartDone : ∀ a0 a1 a2 a3 a4, Statement (.strmPartDone a0 a1 a2 a3 a4) := by
  intro _x0 _x1 _x2 part ext
  show (decide (part < 64) && wfExt ext) = true ↔ (part < 64 ∧ ext.status.toNat < 15)
  simp [ext_iff]
theorem strmDescComplete : ∀ a0 a1 a2, Statement (.strmDescComplete a0 a1 a2) := fun _ _ _ => asked_iff
theorem accMode : ∀ a0 a1, Statement (.accMode a0 a1) := fun _ _ => strike_iff _
theorem accZero : ∀ a0 a1, Statement (.accZero a0 a1) := fun _ _ => strike_iff _
theorem accLd : ∀ a0 a1, Statement (.accLd a0 a1) := fun _ _ => strike_iff _
theorem accSt : ∀ a0 a1, Statement (.accSt a0 a1) := fun _ _ => strike_iff _
theorem accPush : ∀ a0 a1, Statement (.accPush a0 a1) := fun _ _ => strike_iff _
theorem trqPush : ∀ a0, Statement (.trqPush a0) := fun _ => asked_iff
theorem accSadd : ∀ a0 a1, Statement (.accSadd a0 a1) := fun _ _ => strike_iff _
theorem accSmrg : ∀ a0 a1, Statement (.accSmrg a0 a1) := fun _ _ => strike_iff _
theorem accSfin : ∀ a0 a1, Statement (.accSfin a0 a1) := fun _ _ => strike_iff _
theorem vsetvl : ∀ a0 a1, Statement (.vsetvl a0 a1) := fun _ _ => strike_iff _
theorem vld : ∀ a0 a1, Statement (.vld a0 a1) := fun _ _ => strike_iff _
theorem vst : ∀ a0 a1, Statement (.vst a0 a1) := fun _ _ => strike_iff _
theorem vstg8 : ∀ a0 a1, Statement (.vstg8 a0 a1) := fun _ _ => strike_iff _
theorem vtrqpop : ∀ a0 a1, Statement (.vtrqpop a0 a1) := fun _ _ => strike_iff _
theorem vext : ∀ a0 a1, Statement (.vext a0 a1) := fun _ _ => strike_iff _
theorem vins : ∀ a0 a1, Statement (.vins a0 a1) := fun _ _ => strike_iff _
theorem vmov : ∀ a0 a1, Statement (.vmov a0 a1) := fun _ _ => strike_iff _
theorem vfadd : ∀ a0 a1, Statement (.vfadd a0 a1) := fun _ _ => strike_iff _
theorem vfsub : ∀ a0 a1, Statement (.vfsub a0 a1) := fun _ _ => strike_iff _
theorem vfmul : ∀ a0 a1, Statement (.vfmul a0 a1) := fun _ _ => strike_iff _
theorem vffma : ∀ a0 a1, Statement (.vffma a0 a1) := fun _ _ => strike_iff _
theorem vfmax : ∀ a0 a1, Statement (.vfmax a0 a1) := fun _ _ => strike_iff _
theorem vfmin : ∀ a0 a1, Statement (.vfmin a0 a1) := fun _ _ => strike_iff _
theorem vfabs : ∀ a0 a1, Statement (.vfabs a0 a1) := fun _ _ => strike_iff _
theorem vfneg : ∀ a0 a1, Statement (.vfneg a0 a1) := fun _ _ => strike_iff _
theorem vrcp : ∀ a0 a1, Statement (.vrcp a0 a1) := fun _ _ => strike_iff _
theorem vrsqrt : ∀ a0 a1, Statement (.vrsqrt a0 a1) := fun _ _ => strike_iff _
theorem vsqrt : ∀ a0 a1, Statement (.vsqrt a0 a1) := fun _ _ => strike_iff _
theorem vexp2 : ∀ a0 a1, Statement (.vexp2 a0 a1) := fun _ _ => strike_iff _
theorem vlog2 : ∀ a0 a1, Statement (.vlog2 a0 a1) := fun _ _ => strike_iff _
theorem vtanh : ∀ a0 a1, Statement (.vtanh a0 a1) := fun _ _ => strike_iff _
theorem vsigm : ∀ a0 a1, Statement (.vsigm a0 a1) := fun _ _ => strike_iff _
theorem verf : ∀ a0 a1, Statement (.verf a0 a1) := fun _ _ => strike_iff _
theorem vcvtif : ∀ a0 a1, Statement (.vcvtif a0 a1) := fun _ _ => strike_iff _
theorem vcvtfi : ∀ a0 a1, Statement (.vcvtfi a0 a1) := fun _ _ => strike_iff _
theorem vexps : ∀ a0 a1, Statement (.vexps a0 a1) := fun _ _ => strike_iff _
theorem vfcmp : ∀ a0 a1, Statement (.vfcmp a0 a1) := fun _ _ => strike_iff _
theorem vfrsum : ∀ a0 a1, Statement (.vfrsum a0 a1) := fun _ _ => strike_iff _
theorem vfrmax : ∀ a0 a1, Statement (.vfrmax a0 a1) := fun _ _ => strike_iff _
theorem vfrmin : ∀ a0 a1, Statement (.vfrmin a0 a1) := fun _ _ => strike_iff _
theorem vsel : ∀ a0 a1, Statement (.vsel a0 a1) := fun _ _ => strike_iff _
theorem viadd : ∀ a0 a1, Statement (.viadd a0 a1) := fun _ _ => strike_iff _
theorem visub : ∀ a0 a1, Statement (.visub a0 a1) := fun _ _ => strike_iff _
theorem vimul : ∀ a0 a1, Statement (.vimul a0 a1) := fun _ _ => strike_iff _
theorem vimax : ∀ a0 a1, Statement (.vimax a0 a1) := fun _ _ => strike_iff _
theorem vimin : ∀ a0 a1, Statement (.vimin a0 a1) := fun _ _ => strike_iff _
theorem vand : ∀ a0 a1, Statement (.vand a0 a1) := fun _ _ => strike_iff _
theorem vor : ∀ a0 a1, Statement (.vor a0 a1) := fun _ _ => strike_iff _
theorem vxor : ∀ a0 a1, Statement (.vxor a0 a1) := fun _ _ => strike_iff _
theorem vshl : ∀ a0 a1, Statement (.vshl a0 a1) := fun _ _ => strike_iff _
theorem vshra : ∀ a0 a1, Statement (.vshra a0 a1) := fun _ _ => strike_iff _
theorem vshrl : ∀ a0 a1, Statement (.vshrl a0 a1) := fun _ _ => strike_iff _
theorem vicmp : ∀ a0 a1, Statement (.vicmp a0 a1) := fun _ _ => strike_iff _
theorem virsum : ∀ a0 a1, Statement (.virsum a0 a1) := fun _ _ => strike_iff _
theorem vmset : ∀ a0 a1, Statement (.vmset a0 a1) := fun _ _ => strike_iff _
theorem vmnot : ∀ a0 a1, Statement (.vmnot a0 a1) := fun _ _ => strike_iff _
theorem vmand : ∀ a0 a1, Statement (.vmand a0 a1) := fun _ _ => strike_iff _
theorem vmor : ∀ a0 a1, Statement (.vmor a0 a1) := fun _ _ => strike_iff _
theorem vmpop : ∀ a0 a1, Statement (.vmpop a0 a1) := fun _ _ => strike_iff _
theorem fastLineRequest : ∀ a0 a1, Statement (.fastLineRequest a0 a1) := fun _ _ => line_iff _
theorem fastAccessDone : ∀ a0 a1 a2 a3, Statement (.fastAccessDone a0 a1 a2 a3) := by
  intro _x0 _x1 symErrors _x3
  show (decide (symErrors ≤ 72)) = true ↔ (symErrors ≤ 72)
  simp []
theorem deepGranuleRequest : ∀ a0 a1, Statement (.deepGranuleRequest a0 a1) := fun _ _ => gran_iff _
theorem deepAccessDone : ∀ a0 a1 a2 a3, Statement (.deepAccessDone a0 a1 a2 a3) := fun _ _ _ _ => asked_iff
theorem deepTierTimeout : ∀ a0 a1 a2, Statement (.deepTierTimeout a0 a1 a2) := fun _ _ _ => asked_iff
theorem refreshInterval : ∀ a0 a1 a2, Statement (.refreshInterval a0 a1 a2) := by
  intro _x0 channel bank
  show (decide (channel < 64) && decide (bank < 32)) = true ↔ (channel < 64 ∧ bank < 32)
  simp []
theorem bankRefresh : ∀ a0 a1 a2, Statement (.bankRefresh a0 a1 a2) := by
  intro _x0 channel bank
  show (decide (channel < 64) && decide (bank < 32)) = true ↔ (channel < 64 ∧ bank < 32)
  simp []
theorem stackTempSample : ∀ a0 a1, Statement (.stackTempSample a0 a1) := fun _ _ => asked_iff
theorem scrubStep : ∀ a0 a1 a2, Statement (.scrubStep a0 a1 a2) := by
  intro _x0 symErrors _x2
  show (decide (symErrors.length ≤ 64)) = true ↔ (symErrors.length ≤ 64)
  simp []
theorem rowlogClr : ∀ a0 a1, Statement (.rowlogClr a0 a1) := fun _ _ => asked_iff
theorem errCaptureClear : ∀ a0 a1, Statement (.errCaptureClear a0 a1) := fun _ _ => asked_iff
theorem stackInitDone : ∀ a0, Statement (.stackInitDone a0) := fun _ => asked_iff
theorem controllerReady : ∀ a0, Statement (.controllerReady a0) := fun _ => asked_iff
theorem selfRefreshExit : ∀ a0, Statement (.selfRefreshExit a0) := fun _ => asked_iff
theorem ltaAccess : ∀ a0, Statement (.ltaAccess a0) := fun _ => lta_iff _
theorem migrationStart : Statement .migrationStart := asked_iff
theorem promotionSector : ∀ a0, Statement (.promotionSector a0) := fun _ => asked_iff
theorem stalledRequestResume : ∀ a0, Statement (.stalledRequestResume a0) := fun _ => asked_iff
theorem writebackSector : ∀ a0, Statement (.writebackSector a0) := fun _ => asked_iff
theorem frameWaitExpire : ∀ a0, Statement (.frameWaitExpire a0) := fun _ => page_iff _
theorem epochTick : Statement .epochTick := asked_iff
theorem sweepVisit : ∀ a0, Statement (.sweepVisit a0) := fun _ => asked_iff
theorem pagePoisonReport : ∀ a0 a1 a2, Statement (.pagePoisonReport a0 a1 a2) := fun _ _ _ => page_iff _
theorem plcJournalReplay : Statement .plcJournalReplay := asked_iff
theorem plcRead : ∀ a0 a1 a2, Statement (.plcRead a0 a1 a2) := fun _ _ _ => asked_iff
theorem plcMap : ∀ a0 a1 a2, Statement (.plcMap a0 a1 a2) := fun _ _ _ => asked_iff
theorem plcUnmap : ∀ a0 a1 a2, Statement (.plcUnmap a0 a1 a2) := fun _ _ _ => asked_iff
theorem plcSetAttr : ∀ a0 a1 a2, Statement (.plcSetAttr a0 a1 a2) := fun _ _ _ => asked_iff
theorem plcPromote : ∀ a0 a1 a2, Statement (.plcPromote a0 a1 a2) := fun _ _ _ => asked_iff
theorem plcDemote : ∀ a0 a1 a2, Statement (.plcDemote a0 a1 a2) := fun _ _ _ => asked_iff
theorem plcFlush : ∀ a0 a1 a2, Statement (.plcFlush a0 a1 a2) := fun _ _ _ => asked_iff
theorem plcHome : ∀ a0 a1 a2, Statement (.plcHome a0 a1 a2) := fun _ _ _ => asked_iff
theorem plcRelocate : ∀ a0 a1 a2, Statement (.plcRelocate a0 a1 a2) := fun _ _ _ => asked_iff
theorem plcRetire : ∀ a0 a1 a2, Statement (.plcRetire a0 a1 a2) := fun _ _ _ => asked_iff
theorem plcRelease : ∀ a0 a1 a2, Statement (.plcRelease a0 a1 a2) := fun _ _ _ => asked_iff
theorem plcRebuild : ∀ a0 a1 a2, Statement (.plcRebuild a0 a1 a2) := fun _ _ _ => asked_iff
theorem ephLoad : ∀ a0 a1 a2, Statement (.ephLoad a0 a1 a2) := fun _ _ _ => asked_iff
theorem ephArm : ∀ a0 a1 a2, Statement (.ephArm a0 a1 a2) := fun _ _ _ => asked_iff
theorem ephDisarm : ∀ a0 a1 a2, Statement (.ephDisarm a0 a1 a2) := fun _ _ _ => asked_iff
theorem ephUnload : ∀ a0 a1 a2, Statement (.ephUnload a0 a1 a2) := fun _ _ _ => asked_iff
theorem plcCmdDone : ∀ a0, Statement (.plcCmdDone a0) := fun _ => asked_iff
theorem ephMarker : Statement .ephMarker := asked_iff
theorem ephDescPush : ∀ a0 a1, Statement (.ephDescPush a0 a1) := by
  intro _x0 entry
  show (decide (entry < 4096)) = true ↔ (entry < 4096)
  simp []
theorem ephEntryComplete : ∀ a0 a1, Statement (.ephEntryComplete a0 a1) := by
  intro _x0 entry
  show (decide (entry < 4096)) = true ↔ (entry < 4096)
  simp []
theorem nbuPageAcquire : ∀ a0 a1 a2, Statement (.nbuPageAcquire a0 a1 a2) := fun _ _ _ => page_iff _
theorem nbuFence : ∀ a0 a1, Statement (.nbuFence a0 a1) := fun _ _ => page_iff _
theorem nbuPageRelease : ∀ a0 a1, Statement (.nbuPageRelease a0 a1) := fun _ _ => page_iff _
theorem burstGrant : ∀ a0 a1, Statement (.burstGrant a0 a1) := fun _ _ => asked_iff
theorem burstEnd : ∀ a0, Statement (.burstEnd a0) := fun _ => asked_iff
theorem burstPreempt : ∀ a0, Statement (.burstPreempt a0) := fun _ => asked_iff
theorem nbuRowReceive : ∀ a0 a1, Statement (.nbuRowReceive a0 a1) := by
  intro _x0 row
  show (decide (row.length ≤ 8192)) = true ↔ (row.length ≤ 8192)
  simp []
theorem nbuRowApply : ∀ a0, Statement (.nbuRowApply a0) := fun _ => asked_iff
theorem rowUnpark : ∀ a0, Statement (.rowUnpark a0) := fun _ => asked_iff
theorem transposeTile : ∀ a0, Statement (.transposeTile a0) := fun _ => asked_iff
theorem nbuRowAnswer : ∀ a0, Statement (.nbuRowAnswer a0) := fun _ => asked_iff
theorem deltaReceive : ∀ a0 a1, Statement (.deltaReceive a0 a1) := fun _ _ => record_iff _
theorem deltaAckReceive : ∀ a0 a1, Statement (.deltaAckReceive a0 a1) := fun _ _ => record_iff _
theorem commitLineWrite : ∀ a0, Statement (.commitLineWrite a0) := fun _ => asked_iff
theorem deltaResend : ∀ a0 a1 a2, Statement (.deltaResend a0 a1 a2) := by
  intro _x0 dev _x2
  show (decide (dev < 4096)) = true ↔ (dev < 4096)
  simp []
theorem markSend : ∀ a0 a1 a2, Statement (.markSend a0 a1 a2) := by
  intro _x0 dev _x2
  show (decide (dev < 4096)) = true ↔ (dev < 4096)
  simp []
theorem nbuRetainedRestore : ∀ a0, Statement (.nbuRetainedRestore a0) := fun _ => asked_iff
theorem progLoad : ∀ a0 a1 a2, Statement (.progLoad a0 a1 a2) := fun _ _ _ => asked_iff
theorem bindLoad : ∀ a0 a1 a2, Statement (.bindLoad a0 a1 a2) := fun _ _ _ => asked_iff
theorem bindClear : ∀ a0 a1 a2, Statement (.bindClear a0 a1 a2) := fun _ _ _ => asked_iff
theorem job : ∀ a0 a1 a2, Statement (.job a0 a1 a2) := fun _ _ _ => asked_iff
theorem jobPart : ∀ a0, Statement (.jobPart a0) := fun _ => asked_iff
theorem audit : ∀ a0 a1 a2, Statement (.audit a0 a1 a2) := fun _ _ _ => asked_iff
theorem transpose : ∀ a0 a1 a2, Statement (.transpose a0 a1 a2) := fun _ _ _ => asked_iff
theorem seqReset : ∀ a0 a1 a2, Statement (.seqReset a0 a1 a2) := fun _ _ _ => asked_iff
theorem nbuCmdDone : ∀ a0, Statement (.nbuCmdDone a0) := fun _ => asked_iff
theorem rlySqPiWrite : ∀ a0 a1 a2 a3, Statement (.rlySqPiWrite a0 a1 a2 a3) := fun _ _ _ _ => asked_iff
theorem rlyOpen : ∀ a0 a1, Statement (.rlyOpen a0 a1) := fun _ _ => asked_iff
theorem rlySend : ∀ a0 a1, Statement (.rlySend a0 a1) := fun _ _ => asked_iff
theorem rlyCancel : ∀ a0 a1, Statement (.rlyCancel a0 a1) := fun _ _ => asked_iff
theorem rlyRelease : ∀ a0 a1, Statement (.rlyRelease a0 a1) := fun _ _ => asked_iff
theorem contribReceive : ∀ a0 a1, Statement (.contribReceive a0 a1) := fun _ _ => record_iff _
theorem answerReceive : ∀ a0 a1, Statement (.answerReceive a0 a1) := fun _ _ => record_iff _
theorem resendReceive : ∀ a0 a1, Statement (.resendReceive a0 a1) := fun _ _ => record_iff _
theorem doneReceive : ∀ a0 a1, Statement (.doneReceive a0 a1) := fun _ _ => record_iff _
theorem doneAckReceive : ∀ a0 a1, Statement (.doneAckReceive a0 a1) := fun _ _ => record_iff _
theorem rlyHopTimeout : ∀ a0 a1, Statement (.rlyHopTimeout a0 a1) := fun _ _ => asked_iff
theorem rlyRetryTimer : ∀ a0 a1, Statement (.rlyRetryTimer a0 a1) := fun _ _ => asked_iff
theorem bucketDeadline : ∀ a0 a1, Statement (.bucketDeadline a0 a1) := fun _ _ => asked_iff
theorem bucketHardLimit : ∀ a0 a1, Statement (.bucketHardLimit a0 a1) := fun _ _ => asked_iff
theorem rowDeliver : ∀ a0, Statement (.rowDeliver a0) := fun _ => asked_iff
theorem nbuAnswerReceive : ∀ a0 a1, Statement (.nbuAnswerReceive a0 a1) := fun _ _ => record_iff _
theorem deliveryTimeout : ∀ a0 a1 a2, Statement (.deliveryTimeout a0 a1 a2) := fun _ _ _ => asked_iff
theorem doneRepeat : ∀ a0 a1, Statement (.doneRepeat a0 a1) := fun _ _ => asked_iff
theorem sendProbe : ∀ a0 a1, Statement (.sendProbe a0 a1) := fun _ _ => asked_iff
theorem rlyRbPiWrite : ∀ a0 a1 a2, Statement (.rlyRbPiWrite a0 a1 a2) := fun _ _ _ => asked_iff
theorem rebuildEntry : ∀ a0, Statement (.rebuildEntry a0) := fun _ => asked_iff
theorem xpartReceive : ∀ a0 a1, Statement (.xpartReceive a0 a1) := fun _ _ => record_iff _
theorem xpartReturn : ∀ a0 a1 a2, Statement (.xpartReturn a0 a1 a2) := by
  intro _x0 rec ext
  show (record rec && wfExt ext) = true ↔ (rec.length ≤ 8192 ∧ ext.status.toNat < 15)
  simp [ext_iff, record_iff]
theorem xpartTimeout : ∀ a0 a1, Statement (.xpartTimeout a0 a1) := fun _ _ => asked_iff
theorem medSqPiWrite : ∀ a0 a1 a2, Statement (.medSqPiWrite a0 a1 a2) := fun _ _ _ => asked_iff
theorem ingest : ∀ a0 a1, Statement (.ingest a0 a1) := fun _ _ => asked_iff
theorem shuf : ∀ a0, Statement (.shuf a0) := fun _ => asked_iff
theorem medCancel : ∀ a0, Statement (.medCancel a0) := fun _ => asked_iff
theorem shufJobGenerate : Statement .shufJobGenerate := asked_iff
theorem ingestFrame : ∀ a0 a1, Statement (.ingestFrame a0 a1) := fun _ _ => ext_iff _
theorem ingestJobDone : ∀ a0 a1, Statement (.ingestJobDone a0 a1) := fun _ _ => ext_iff _
theorem linkEnable : ∀ a0 a1 a2, Statement (.linkEnable a0 a1 a2) := fun _ _ _ => asked_iff
theorem linkAdmit : ∀ a0 a1 a2, Statement (.linkAdmit a0 a1 a2) := fun _ _ _ => asked_iff
theorem linkRetrain : ∀ a0 a1, Statement (.linkRetrain a0 a1) := fun _ _ => asked_iff
theorem linkTrained : ∀ a0 a1, Statement (.linkTrained a0 a1) := fun _ _ => asked_iff
theorem linkTrainingTimeout : ∀ a0, Statement (.linkTrainingTimeout a0) := fun _ => asked_iff
theorem linkAutoRetrain : ∀ a0, Statement (.linkAutoRetrain a0) := fun _ => asked_iff
theorem laneLockLost : ∀ a0, Statement (.laneLockLost a0) := fun _ => asked_iff
theorem initFlitReceive : ∀ a0 a1, Statement (.initFlitReceive a0 a1) := fun _ _ => flit_iff _
theorem dataFlitReceive : ∀ a0 a1, Statement (.dataFlitReceive a0 a1) := fun _ _ => flit_iff _
theorem fecUncorrectable : ∀ a0 a1, Statement (.fecUncorrectable a0 a1) := fun _ _ => asked_iff
theorem nakReceive : ∀ a0 a1, Statement (.nakReceive a0 a1) := fun _ _ => flit_iff _
theorem ackTimeout : ∀ a0, Statement (.ackTimeout a0) := fun _ => asked_iff
theorem flitSend : ∀ a0, Statement (.flitSend a0) := fun _ => asked_iff
theorem keepaliveSend : ∀ a0, Statement (.keepaliveSend a0) := fun _ => asked_iff
theorem keepaliveTimeout : ∀ a0, Statement (.keepaliveTimeout a0) := fun _ => asked_iff
theorem peerStalled : ∀ a0, Statement (.peerStalled a0) := fun _ => asked_iff
theorem helloReceive : ∀ a0 a1, Statement (.helloReceive a0 a1) := fun _ _ => msg_iff _
theorem helloProofReceive : ∀ a0 a1, Statement (.helloProofReceive a0 a1) := fun _ _ => msg_iff _
theorem messageRoute : ∀ a0 a1, Statement (.messageRoute a0 a1) := fun _ _ => msg_iff _
theorem fabricRequestIssue : ∀ a0, Statement (.fabricRequestIssue a0) := fun _ => msg_iff _
theorem rdReq : ∀ a0, Statement (.rdReq a0) := fun _ => msg_iff _
theorem wrReq : ∀ a0, Statement (.wrReq a0) := fun _ => msg_iff _
theorem rdRsp : ∀ a0, Statement (.rdRsp a0) := fun _ => msg_iff _
theorem wrRsp : ∀ a0, Statement (.wrRsp a0) := fun _ => msg_iff _
theorem fabricRequestTimeout : ∀ a0, Statement (.fabricRequestTimeout a0) := by
  intro tag
  show (decide (tag < 131072)) = true ↔ (tag < 131072)
  simp []
theorem relayMsgReceive : ∀ a0, Statement (.relayMsgReceive a0) := fun _ => msg_iff _
theorem srForward : ∀ a0 a1, Statement (.srForward a0 a1) := fun _ _ => msg_iff _
theorem srRead : ∀ a0, Statement (.srRead a0) := fun _ => msg_iff _
theorem srWrite : ∀ a0, Statement (.srWrite a0) := fun _ => msg_iff _
theorem mailboxReceive : ∀ a0, Statement (.mailboxReceive a0) := fun _ => msg_iff _
theorem fabcMgmtPush : ∀ a0 a1, Statement (.fabcMgmtPush a0 a1) := fun _ _ => asked_iff
theorem routeBankSwitch : ∀ a0, Statement (.routeBankSwitch a0) := fun _ => asked_iff
theorem jrnlExport : ∀ a0 a1, Statement (.jrnlExport a0 a1) := by
  intro _x0 dev
  show (decide (dev < 4096)) = true ↔ (dev < 4096)
  simp []
theorem jrnlRevert : ∀ a0 a1, Statement (.jrnlRevert a0 a1) := by
  intro _x0 dev
  show (decide (dev < 4096)) = true ↔ (dev < 4096)
  simp []
theorem jrnlForget : ∀ a0 a1, Statement (.jrnlForget a0 a1) := by
  intro _x0 dev
  show (decide (dev < 4096)) = true ↔ (dev < 4096)
  simp []
theorem hRd : ∀ a0 a1, Statement (.hRd a0 a1) := by
  intro m ext
  show (wfHost m && wfExt ext) = true ↔ (HostFits m ∧ ext.status.toNat < 15)
  simp [host_iff, ext_iff]
theorem hWr : ∀ a0 a1, Statement (.hWr a0 a1) := by
  intro m ext
  show (wfHost m && wfExt ext) = true ↔ (HostFits m ∧ ext.status.toNat < 15)
  simp [host_iff, ext_iff]
theorem hostWriteIssue : ∀ a0 a1 a2, Statement (.hostWriteIssue a0 a1 a2) := by
  intro _x0 addr data
  show (decide (addr < 2 ^ 44) && decide (1 ≤ data.length)) = true ↔ (addr < 2 ^ 44 ∧ 1 ≤ data.length)
  simp []
theorem hostReadIssue : ∀ a0 a1 a2, Statement (.hostReadIssue a0 a1 a2) := by
  intro _x0 addr len
  show (decide (addr < 2 ^ 44) && decide (1 ≤ len)) = true ↔ (addr < 2 ^ 44 ∧ 1 ≤ len)
  simp []
theorem dRsp : ∀ a0, Statement (.dRsp a0) := fun _ => host_iff _
theorem hostReadTimeout : ∀ a0, Statement (.hostReadTimeout a0) := by
  intro tag
  show (decide (tag < 2 ^ 24)) = true ↔ (tag < 2 ^ 24)
  simp []
theorem jack : ∀ a0, Statement (.jack a0) := fun _ => host_iff _
theorem resume : ∀ a0, Statement (.resume a0) := fun _ => host_iff _
theorem hostReset : ∀ a0, Statement (.hostReset a0) := fun _ => host_iff _
theorem detachTimeout : Statement .detachTimeout := asked_iff
theorem hostAttach : ∀ a0 a1, Statement (.hostAttach a0 a1) := fun _ _ => asked_iff
theorem hostDetach : ∀ a0, Statement (.hostDetach a0) := fun _ => asked_iff
theorem detachComplete : Statement .detachComplete := asked_iff
theorem sqDoorbell : ∀ a0 a1 a2, Statement (.sqDoorbell a0 a1 a2) := fun _ _ _ => asked_iff
theorem cqHeadWrite : ∀ a0 a1 a2, Statement (.cqHeadWrite a0 a1 a2) := fun _ _ _ => asked_iff
theorem sqFetch : ∀ a0 a1, Statement (.sqFetch a0 a1) := by
  intro _x0 ext
  show (decide (ext.data.length = 64) || decide (ext.status ≠ 0)) = true ↔ (ext.data.length = 64 ∨ ext.status ≠ 0)
  simp []
theorem hlkNop : ∀ a0 a1, Statement (.hlkNop a0 a1) := fun _ _ => asked_iff
theorem writeInline : ∀ a0 a1 a2, Statement (.writeInline a0 a1 a2) := fun _ _ _ => ext_iff _
theorem copy : ∀ a0 a1 a2 a3 a4, Statement (.copy a0 a1 a2 a3 a4) := by
  intro _x0 _x1 part src dst
  show (decide (part < 1048576) && wfExt src && wfExt dst) = true ↔ (part < 1048576 ∧ src.status.toNat < 15 ∧ dst.status.toNat < 15)
  simp [ext_iff, and_assoc]
theorem readSmall : ∀ a0 a1 a2, Statement (.readSmall a0 a1 a2) := fun _ _ _ => ext_iff _
theorem fwCall : ∀ a0 a1, Statement (.fwCall a0 a1) := fun _ _ => asked_iff
theorem powerEnter : ∀ a0 a1, Statement (.powerEnter a0 a1) := fun _ _ => asked_iff
theorem powerQuery : ∀ a0 a1, Statement (.powerQuery a0 a1) := fun _ _ => asked_iff
theorem hlkCmdComplete : ∀ a0 a1, Statement (.hlkCmdComplete a0 a1) := fun _ _ => asked_iff
theorem cqCoalTimer : ∀ a0, Statement (.cqCoalTimer a0) := fun _ => asked_iff
theorem vecUnmask : ∀ a0 a1, Statement (.vecUnmask a0 a1) := fun _ _ => asked_iff
theorem fwDone : ∀ a0 a1, Statement (.fwDone a0 a1) := fun _ _ => asked_iff
theorem hwinWrite : ∀ a0 a1 a2 a3, Statement (.hwinWrite a0 a1 a2 a3) := fun _ _ _ _ => asked_iff
theorem procInstruction : ∀ a0 a1 a2 a3, Statement (.procInstruction a0 a1 a2 a3) := by
  intro _x0 op len _x3
  show ((decide (len = 2) || decide (len = 4)) && wfRv op) = true ↔ ((len = 2 ∨ len = 4) ∧ wfRv op = true)
  simp []
theorem procRun : ∀ a0 a1, Statement (.procRun a0 a1) := fun _ _ => asked_iff
theorem procHalt : ∀ a0 a1, Statement (.procHalt a0 a1) := fun _ _ => asked_iff
theorem procDinv : ∀ a0 a1, Statement (.procDinv a0 a1) := fun _ _ => asked_iff
theorem procWfiWake : ∀ a0, Statement (.procWfiWake a0) := fun _ => asked_iff
theorem mtimecmpMatch : ∀ a0, Statement (.mtimecmpMatch a0) := fun _ => asked_iff
theorem wdtKick : ∀ a0 a1 a2, Statement (.wdtKick a0 a1 a2) := fun _ _ _ => asked_iff
theorem wdtExpire : ∀ a0, Statement (.wdtExpire a0) := fun _ => asked_iff
theorem evtSwraise : ∀ a0 a1, Statement (.evtSwraise a0 a1) := fun _ _ => asked_iff
theorem evtRingWrite : ∀ a0, Statement (.evtRingWrite a0) := fun _ => asked_iff
theorem evtNestEnter : ∀ a0 a1, Statement (.evtNestEnter a0 a1) := fun _ _ => asked_iff
theorem evtNestExit : ∀ a0 a1, Statement (.evtNestExit a0 a1) := fun _ _ => asked_iff
theorem evtTgtCiWrite : ∀ a0 a1 a2, Statement (.evtTgtCiWrite a0 a1 a2) := fun _ _ _ => asked_iff
theorem evtFaultClear : ∀ a0 a1, Statement (.evtFaultClear a0 a1) := fun _ _ => asked_iff
theorem evtSrcPurge : ∀ a0 a1, Statement (.evtSrcPurge a0 a1) := fun _ _ => source_iff _
theorem evtLineAccept : ∀ a0 a1, Statement (.evtLineAccept a0 a1) := fun _ _ => asked_iff
theorem domeBufferDrain : Statement .domeBufferDrain := asked_iff
theorem modeOvr : ∀ a0 a1, Statement (.modeOvr a0 a1) := fun _ _ => asked_iff
theorem confirm : ∀ a0, Statement (.confirm a0) := fun _ => asked_iff
theorem bootRelease : ∀ a0, Statement (.bootRelease a0) := fun _ => asked_iff
theorem bootHostData : ∀ a0 a1, Statement (.bootHostData a0 a1) := fun _ _ => asked_iff
theorem flashRead : ∀ a0, Statement (.flashRead a0) := fun _ => asked_iff
theorem flashProgram : ∀ a0, Statement (.flashProgram a0) := fun _ => asked_iff
theorem flashErase : ∀ a0, Statement (.flashErase a0) := fun _ => asked_iff
theorem flashReadId : ∀ a0 a1, Statement (.flashReadId a0 a1) := by
  intro _x0 id
  show (decide (id.length ≤ 256)) = true ↔ (id.length ≤ 256)
  simp []
theorem flashDone : Statement .flashDone := asked_iff
theorem secHash : ∀ a0, Statement (.secHash a0) := fun _ => asked_iff
theorem secVerify : ∀ a0, Statement (.secVerify a0) := fun _ => asked_iff
theorem secExtend : ∀ a0, Statement (.secExtend a0) := fun _ => asked_iff
theorem secReport : ∀ a0, Statement (.secReport a0) := fun _ => asked_iff
theorem svnSet : ∀ a0, Statement (.svnSet a0) := fun _ => asked_iff
theorem keyProgram : ∀ a0, Statement (.keyProgram a0) := fun _ => asked_iff
theorem keyRevoke : ∀ a0, Statement (.keyRevoke a0) := fun _ => asked_iff
theorem lifecycleAdvance : ∀ a0, Statement (.lifecycleAdvance a0) := fun _ => asked_iff
theorem secCmdDone : Statement .secCmdDone := asked_iff
theorem secPermLock : ∀ a0, Statement (.secPermLock a0) := fun _ => asked_iff
theorem helloProofSign : ∀ a0, Statement (.helloProofSign a0) := fun _ => asked_iff
theorem railThreshold : ∀ a0 a1, Statement (.railThreshold a0 a1) := fun _ _ => asked_iff
theorem resetPinAccept : ∀ a0, Statement (.resetPinAccept a0) := fun _ => asked_iff
theorem clockMonitorWindow : ∀ a0, Statement (.clockMonitorWindow a0) := fun _ => asked_iff
theorem rstSwreq : ∀ a0 a1, Statement (.rstSwreq a0 a1) := fun _ _ => asked_iff
theorem rstDbgreq : ∀ a0 a1, Statement (.rstDbgreq a0 a1) := fun _ _ => asked_iff
theorem resetSourceAssert : ∀ a0 a1 a2, Statement (.resetSourceAssert a0 a1 a2) := fun _ _ _ => asked_iff
theorem resetSourceRelease : ∀ a0, Statement (.resetSourceRelease a0) := fun _ => asked_iff
theorem fuseLoadDone : ∀ a0, Statement (.fuseLoadDone a0) := by
  intro words
  show (decide (words.length = 512)) = true ↔ (words.length = 512)
  simp []
theorem pllLockDone : Statement .pllLockDone := asked_iff
theorem resetRelease : Statement .resetRelease := asked_iff
theorem blockResetRequest : ∀ a0 a1, Statement (.blockResetRequest a0 a1) := fun _ _ => asked_iff
theorem blockResetEnter : ∀ a0, Statement (.blockResetEnter a0) := fun _ => asked_iff
theorem blkTimeout : ∀ a0, Statement (.blkTimeout a0) := fun _ => asked_iff
theorem blockResetEnd : ∀ a0 a1, Statement (.blockResetEnd a0 a1) := fun _ _ => asked_iff
theorem blkDone : ∀ a0, Statement (.blkDone a0) := fun _ => asked_iff
theorem entryQuiesced : Statement .entryQuiesced := asked_iff
theorem entryClockStop : Statement .entryClockStop := asked_iff
theorem entryAbandoned : Statement .entryAbandoned := asked_iff
theorem wakePinAccept : ∀ a0, Statement (.wakePinAccept a0) := fun _ => asked_iff
theorem smbusAddressMatch : ∀ a0, Statement (.smbusAddressMatch a0) := fun _ => asked_iff
theorem ralineActivity : Statement .ralineActivity := asked_iff
theorem watchWake : ∀ a0, Statement (.watchWake a0) := fun _ => source_iff _
theorem wakeDone : Statement .wakeDone := asked_iff
theorem offWake : Statement .offWake := asked_iff
theorem domainAutoOff : ∀ a0, Statement (.domainAutoOff a0) := fun _ => asked_iff
theorem domainWake : ∀ a0, Statement (.domainWake a0) := fun _ => asked_iff
theorem domainReady : ∀ a0, Statement (.domainReady a0) := fun _ => asked_iff
theorem oppDone : Statement .oppDone := asked_iff
theorem powerSample : ∀ a0 a1 a2, Statement (.powerSample a0 a1 a2) := by
  intro fast slow _x2
  show (decide (fast < 65536) && decide (slow < 65536)) = true ↔ (fast < 65536 ∧ slow < 65536)
  simp []
theorem capAdjust : Statement .capAdjust := asked_iff
theorem thermalSample : ∀ a0 a1, Statement (.thermalSample a0 a1) := fun _ _ => asked_iff
theorem thermalShutdown : Statement .thermalShutdown := asked_iff
theorem railEnRelease : Statement .railEnRelease := asked_iff
theorem smbusBlockRead : ∀ a0, Statement (.smbusBlockRead a0) := fun _ => asked_iff
theorem platePublish : ∀ a0, Statement (.platePublish a0) := fun _ => asked_iff
theorem plateClear : ∀ a0, Statement (.plateClear a0) := fun _ => asked_iff
theorem plateClearDone : Statement .plateClearDone := asked_iff
theorem plateAck : ∀ a0 a1, Statement (.plateAck a0 a1) := fun _ _ => asked_iff
theorem powerOnHoldEnd : Statement .powerOnHoldEnd := asked_iff
theorem pllLossOfLock : Statement .pllLossOfLock := asked_iff
theorem vstbyLoss : Statement .vstbyLoss := asked_iff
theorem strapReadDone : ∀ a0, Statement (.strapReadDone a0) := by
  intro codes
  show (decide (codes.length = 8)) = true ↔ (codes.length = 8)
  simp []

end Sys2Proof.Laws.Operands
end

