-- ==== Sys2Proof/Tests/Slice0.lean ====
section
/-! SUPPORT. Tests. -/

namespace Sys2Proof.Tests

theorem test_reset_queue : Machine.State.reset.pending = [] := by decide

end Sys2Proof.Tests
end

section
/-! PROOFS. Bit fields of a number: what a field reads after a field was written (R5). -/

namespace Sys2Proof

theorem testBit_bits (v hi lo i : Nat) : (bits v hi lo).testBit i = (decide (i < hi + 1 - lo) && v.testBit (lo + i)) := by
  simp [bits, Nat.testBit_mod_two_pow, Nat.testBit_shiftRight]

theorem bits_lt (v hi lo : Nat) : bits v hi lo < 2 ^ (hi + 1 - lo) := Nat.mod_lt _ (Nat.two_pow_pos _)

/-- The new bits stand between the old bits above and below them. -/
theorem testBit_setBits {hi lo : Nat} (h : lo ≤ hi) (v x i : Nat) :
    (setBits v hi lo x).testBit i = if lo ≤ i ∧ i ≤ hi then x.testBit (i - lo) else v.testBit i := by
  have hlow : v % 2 ^ lo < 2 ^ lo := Nat.mod_lt _ (Nat.two_pow_pos _)
  have hmid : 2 ^ lo * (x % 2 ^ (hi + 1 - lo)) + v % 2 ^ lo < 2 ^ (hi + 1) := by
    have hx : x % 2 ^ (hi + 1 - lo) < 2 ^ (hi + 1 - lo) := Nat.mod_lt _ (Nat.two_pow_pos _)
    calc 2 ^ lo * (x % 2 ^ (hi + 1 - lo)) + v % 2 ^ lo < 2 ^ lo * (x % 2 ^ (hi + 1 - lo) + 1) := by
          rw [Nat.mul_succ]; omega
      _ ≤ 2 ^ lo * 2 ^ (hi + 1 - lo) := Nat.mul_le_mul_left _ hx
      _ = 2 ^ (hi + 1) := by rw [← Nat.pow_add]; congr 1; omega
  have hsum : setBits v hi lo x =
      2 ^ (hi + 1) * (v >>> (hi + 1)) + (2 ^ lo * (x % 2 ^ (hi + 1 - lo)) + v % 2 ^ lo) := by
    simp only [setBits, Nat.shiftLeft_eq]; ring
  rw [hsum, Nat.testBit_two_pow_mul_add _ hmid, Nat.testBit_two_pow_mul_add _ hlow]
  simp only [Nat.testBit_mod_two_pow, Nat.testBit_shiftRight]
  rcases Nat.lt_or_ge i lo with below | h1
  · simp [below, show i < hi + 1 by omega, show ¬ lo ≤ i by omega]
  · rcases Nat.lt_or_ge hi i with above | h2
    · simp [show ¬ i < hi + 1 by omega, show ¬ i ≤ hi by omega, show hi + 1 + (i - (hi + 1)) = i by omega]
    · simp [h1, h2, show i < hi + 1 by omega, show ¬ i < lo by omega, show i - lo < hi + 1 - lo by omega]

theorem bits_setBits_same {hi lo : Nat} (h : lo ≤ hi) (v x : Nat) :
    bits (setBits v hi lo x) hi lo = x % 2 ^ (hi + 1 - lo) := by
  refine Nat.eq_of_testBit_eq fun i => ?_
  rw [testBit_bits, testBit_setBits h, Nat.testBit_mod_two_pow]
  by_cases hi' : i < hi + 1 - lo
  · simp [hi', show lo + i ≤ hi by omega]
  · simp [hi']

theorem bits_setBits_apart {hi lo hi' lo' : Nat} (h : lo ≤ hi) (hd : hi < lo' ∨ hi' < lo) (v x : Nat) :
    bits (setBits v hi lo x) hi' lo' = bits v hi' lo' := by
  refine Nat.eq_of_testBit_eq fun i => ?_
  rw [testBit_bits, testBit_bits, testBit_setBits h]
  by_cases hi'' : i < hi' + 1 - lo'
  · rw [if_neg (by omega)]
  · simp [hi'']

theorem setBits_lt {hi lo v n : Nat} (h : lo ≤ hi) (hn : hi < n) (hv : v < 2 ^ n) (x : Nat) : setBits v hi lo x < 2 ^ n := by
  refine Nat.lt_pow_two_of_testBit _ fun i hi' => ?_
  rw [testBit_setBits h, if_neg (by omega)]
  exact Nat.testBit_lt_two_pow (hv.trans_le (Nat.pow_le_pow_right (by omega) hi'))

end Sys2Proof
end

section
/-! PROOFS. Which register an access reaches (R33), and what the register tables keep. -/

namespace Sys2Proof.Machine

/-- The bytes of a register. -/
def RegRow.size (row : RegRow) : Nat := if row.wide then 8 else 4

/-- The fields of a register lie one below the other, in 64 bits. -/
structure FieldsApart (fs : List Field) : Prop where
  bound : ∀ f ∈ fs, f.lo ≤ f.hi ∧ f.hi < 64
  apart : fs.Pairwise (fun f g => g.hi < f.lo)

/-- A register and its repeats lie at multiples of its size, and its fields lie apart. -/
def rowOk (row : RegRow) : Bool :=
  decide (row.size ∣ row.first) && row.dims.all (fun d => decide (row.size ∣ d.1))
    && row.fields.all (fun f => decide (f.lo ≤ f.hi ∧ f.hi < 64)) && decide (row.fields.Pairwise (fun f g => g.hi < f.lo))

theorem rowOk_iff {row : RegRow} :
    rowOk row = true ↔ row.size ∣ row.first ∧ (∀ d ∈ row.dims, row.size ∣ d.1) ∧ FieldsApart row.fields := by
  simp only [rowOk, Bool.and_eq_true, decide_eq_true_eq, List.all_eq_true]
  exact ⟨fun ⟨⟨⟨h1, h2⟩, h3⟩, h4⟩ => ⟨h1, h2, h3, h4⟩, fun ⟨h1, h2, h3, h4⟩ => ⟨⟨⟨h1, h2⟩, h3⟩, h4⟩⟩

theorem rowsOf_ok (b : Blk) : ∀ row ∈ rowsOf b, rowOk row = true := by
  rw [← List.all_eq_true]
  cases b <;> simp only [rowsOf] <;> decide +kernel

theorem matchDims_mod {m : Nat} : ∀ {dims : List (Nat × Nat)} {off r : Nat} {is : List Nat},
    (∀ d ∈ dims, m ∣ d.1) → matchDims dims off = some (is, r) → r % m = off % m
  | [], _, _, _, _, h => by cases h; rfl
  | (stride, count) :: ds, off, r, is, hm, h => by
    unfold matchDims at h
    split at h
    · split at h
      · next heq =>
        cases h
        rw [matchDims_mod (fun d hd => hm d (.tail _ hd)) heq]
        exact Nat.mod_mod_of_dvd _ (hm (stride, count) (.head _))
      · cases h
    · cases h

/-- A register met at a word's address begins in the same eight bytes. -/
theorem matchRow_some {row : RegRow} {a : Nat} {r : RegAt} (h : matchRow row a = some r) (hok : rowOk row = true)
    (ha : a % 4 = 0) : r.row = row ∧ r.base / 8 = a / 8 := by
  rcases hd : matchDims row.dims (a - row.first) with _ | ⟨is, q⟩
  · simp [matchRow, hd] at h
  simp only [matchRow, hd, Option.ite_none_left_eq_some, Option.ite_none_right_eq_some, Option.some.injEq] at h
  obtain ⟨hlow, hq, _, rfl⟩ := h
  obtain ⟨hfirst, hdims, _⟩ := rowOk_iff.1 hok
  have hmod := matchDims_mod hdims hd
  refine ⟨rfl, ?_⟩
  cases hw : row.wide <;> simp only [RegRow.size, hw, Bool.false_eq_true, if_false, if_true] at hq hfirst hmod ⊢ <;> omega

theorem findRow_some {rows : List RegRow} {a : Nat} {r : RegAt} (h : findRow rows a = some r) :
    ∃ row ∈ rows, matchRow row a = some r := by
  induction rows with
  | nil => cases h
  | cons row rows ih =>
    unfold findRow at h
    split at h
    · next x e => cases h; exact ⟨row, .head _, e⟩
    · obtain ⟨row', hm, e⟩ := ih h
      exact ⟨row', .tail _ hm, e⟩

/-- R33: blocks begin at multiples of 64 KB, so the words of eight bytes lie in one block. -/
theorem blkOf_eq_of_div {a b : Nat} (h : a / 8 = b / 8) : blkOf a = blkOf b := by
  have page : a / 0x10000 = b / 0x10000 := by omega
  unfold blkOf
  rw [page]
  simp only []
  repeat' refine if_congr (by omega) ?_ ?_
  all_goals
    first
    | with_reducible rfl
    | (simp only [Option.some.injEq, Blk.core.injEq, Blk.quad.injEq, Blk.fsc.injEq, Blk.nbu.injEq, Blk.dsc.injEq,
        Blk.rly.injEq, Blk.port.injEq]; omega)

theorem regAt_some {a : Nat} {r : RegAt} (h : regAt a = some r) (ha : a % 4 = 0) :
    ∃ b, blkOf r.base = some b ∧ r.row ∈ rowsOf b := by
  unfold regAt at h
  split at h
  · cases h
  next b hb =>
    obtain ⟨row, hmem, hrow⟩ := findRow_some h
    obtain ⟨rfl, hbase⟩ := matchRow_some hrow (rowsOf_ok b row hmem) ha
    exact ⟨b, (blkOf_eq_of_div hbase).trans hb, hmem⟩

theorem gate_served {s : State} {i : Initiator} {a len : Nat} {w : Bool} {r : RegAt} (h : gate s i a len w = .served r) :
    a % 4 = 0 ∧ regAt a = some r := by
  unfold gate at h
  grind

/-- The block of a register that an access reaches lists its row. -/
theorem Reaches.row {s : State} {i : Initiator} {a : Nat} {w : Bool} {r : RegAt} (h : Reaches s i a w r) :
    ∃ b, blkOf r.base = some b ∧ r.row ∈ rowsOf b := by
  obtain ⟨_, hgate, _⟩ := h
  obtain ⟨ha, hr⟩ := gate_served hgate
  exact regAt_some hr ha

theorem fieldsApart_of_mem {b : Blk} {row : RegRow} (h : row ∈ rowsOf b) : FieldsApart row.fields := by
  obtain ⟨_, _, hfields⟩ := rowOk_iff.1 (rowsOf_ok b row h)
  exact hfields

/-! ### A write of a register that no unit gives a rule of its own

Every arm of a block's meaning but the last is for a register that `ownRule` lists. -/

section
variable {s : State} {ini : Initiator} {r : RegAt} {w v : Nat} (h : r.row.reg ∉ ownRule)
include h

theorem putGlb_eq_putFields : putGlb s ini r w v = putFields s ini r w v := by
  unfold putGlb; split <;> simp_all [ownRule]

theorem putCore_eq_putFields {c : Nat} : putCore s ini r w v c = putFields s ini r w v := by
  unfold putCore; extract_lets; split <;> simp_all [ownRule]

theorem putStk_eq_putFields {i : Nat} : putStk s ini r w v i = putFields s ini r w v := by
  unfold putStk; split <;> simp_all [ownRule]

theorem putNbu_eq_putFields {n : Nat} : putNbu s ini r w v n = putFields s ini r w v := by
  unfold putNbu; split <;> simp_all [ownRule]

theorem putPlc_eq_putFields : putPlc s ini r w v = putFields s ini r w v := by
  unfold putPlc; split <;> simp_all [ownRule]

theorem putRings_eq_putFields : putRings s ini r w v = putFields s ini r w v := by
  unfold putRings; extract_lets; split <;> simp_all [ownRule]

theorem putPort_eq_putFields : putPort s ini r w v = putFields s ini r w v := by
  unfold putPort; split <;> simp_all [ownRule]

theorem putFabc_eq_putFields : putFabc s ini r w v = putFields s ini r w v := by
  unfold putFabc; extract_lets; split <;> simp_all [ownRule]

theorem putHlk_eq_putFields : putHlk s ini r w v = putFields s ini r w v := by
  unfold putHlk; extract_lets; split <;> simp_all [ownRule]

theorem putEvt_eq_putFields : putEvt s ini r w v = putFields s ini r w v := by
  unfold putEvt; extract_lets; split <;> simp_all [ownRule]

theorem putProc_eq_putFields {p : Nat} : putProc s ini r w v p = putFields s ini r w v := by
  unfold putProc; split <;> simp_all [ownRule]

theorem putBoot_eq_putFields : putBoot s ini r w v = putFields s ini r w v := by
  unfold putBoot; split <;> simp_all [ownRule]

theorem putRst_eq_putFields : putRst s ini r w v = putFields s ini r w v := by
  unfold putRst; split <;> simp_all [ownRule]

/-- R12: a register that no unit gives a rule of its own takes a write field by field. -/
theorem putReg_eq_putFields {b : Blk} (hb : blkOf r.base = some b) (hrow : r.row ∈ rowsOf b) :
    putReg s ini r w v = putFields s ini r w v := by
  simp only [putReg, hb]
  cases b with
  | clk | dbg => cases hrow
  | aon => rfl
  | glb => exact putGlb_eq_putFields h
  | core c => exact putCore_eq_putFields h
  | fsc _ | dsc _ => exact putStk_eq_putFields h
  | nbu _ => exact putNbu_eq_putFields h
  | plc => exact putPlc_eq_putFields h
  | rly _ | med => exact putRings_eq_putFields h
  | port _ => exact putPort_eq_putFields h
  | fabc => exact putFabc_eq_putFields h
  | hlk => exact putHlk_eq_putFields h
  | evt => exact putEvt_eq_putFields h
  | quad _ | cpx => exact putProc_eq_putFields h
  | boot | sec => exact putBoot_eq_putFields h
  | rst | pwr => exact putRst_eq_putFields h

end
end Sys2Proof.Machine
end

section
/-! PROOFS. A write field by field (R12, R15, R42): what one field takes, and that the fields of one register do not meet. -/

namespace Sys2Proof.Machine

/-! ### Blocks with shadow copies -/

/-- R40: a commit index is the number of a bit of a 64-bit register. -/
theorem commitIdx_lt {a i : Nat} : (blkOf a).bind Blk.commitIdx = some i → i < 64 := by
  unfold blkOf
  simp only []
  repeat'
    refine iteInduction (motive := fun o => Option.bind o Blk.commitIdx = some i → i < 64) (fun _ => ?_) (fun _ => ?_)
  · split <;> intro h <;> cases h <;> decide
  all_goals
    intro h
    cases h
  all_goals omega

/-- GLB has no shadow copies. -/
theorem ne_dirty_of_commitIdx {a i : Nat} (h : (blkOf a).bind Blk.commitIdx = some i) : a ≠ Csr.GLB_SHADOW_DIRTY := by
  rintro rfl
  cases h

theorem rd_markShadow_of_ne {s : State} {a b : Nat} (h : b ≠ Csr.GLB_SHADOW_DIRTY) : rd (markShadow s a) b = rd s b := by
  unfold markShadow
  split
  · exact rd_wr_ne s _ h
  · rfl

theorem rd_markShadow_self (s : State) (a : Nat) : rd (markShadow s a) a = rd s a := by
  by_cases h : a = Csr.GLB_SHADOW_DIRTY
  · subst h; rfl
  · exact rd_markShadow_of_ne h

theorem rdShadow_markShadow (s : State) (a b : Nat) : rdShadow (markShadow s a) b = rdShadow s b := by
  unfold markShadow
  split <;> rfl

theorem rdShadow_lt (s : State) (a : Nat) : rdShadow s a < 2 ^ 64 := BitVec.isLt _

theorem bit_dirty_markShadow {s : State} {a b : Nat}
    (h : bit (rd s Csr.GLB_SHADOW_DIRTY) b = true ∨ (blkOf a).bind Blk.commitIdx = some b) :
    bit (rd (markShadow s a) Csr.GLB_SHADOW_DIRTY) b = true := by
  unfold markShadow bit at *
  split
  · next i hi =>
    have hb : b < 64 := by
      rcases h with h | h
      · by_contra hb
        rw [Nat.testBit_lt_two_pow ((rd_lt s _).trans_le (Nat.pow_le_pow_right (by omega) (by omega : 64 ≤ b)))] at h
        cases h
      · exact commitIdx_lt h
    rw [rd_wr_same, Nat.testBit_mod_two_pow, Nat.testBit_or, Nat.one_shiftLeft, Nat.testBit_two_pow]
    rw [hi, Option.some.injEq] at h
    simpa [hb] using h
  · next hi => simpa [hi] using h

/-! ### One field of a write (R12) -/

/-- What a field that held `old` holds after `x` was written to it. -/
def Field.written (f : Field) (old x : Nat) : Nat :=
  match f.acc with
  | .rw | .rws => x
  | .w1c => without64 old x
  | .w1s => old ||| x
  | .ro | .wo | .rc | .sh => old

/-- One field of `FieldsTake`, for the register at `a`. -/
def FieldTakes (s : State) (a v : Nat) (f : Field) (t : State) : Prop :=
  fld t a f.hi f.lo = f.written (fld s a f.hi f.lo) (bits v f.hi f.lo)
    ∧ (f.acc = .sh → bits (rdShadow t a) f.hi f.lo = bits v f.hi f.lo
        ∧ ∀ b, (blkOf a).bind Blk.commitIdx = some b → bit (rd t Csr.GLB_SHADOW_DIRTY) b = true)

theorem fieldsTake_iff {s t : State} {r : RegAt} {v : Nat} :
    FieldsTake s r v t ↔ ∀ f ∈ r.row.fields, FieldTakes s r.base v f t := Iff.rfl

/-- Two fields share no bit. -/
def Field.Apart (f g : Field) : Prop := f.hi < g.lo ∨ g.hi < f.lo

/-- Of the registers and shadow copies, only those fields of the register at `a` change, and its block is marked. -/
structure OnlyFields (a : Nat) (fs : List Field) (s t : State) : Prop where
  parts : SameBut [.csr, .shadow] s t
  regs : OtherRegs [a, Csr.GLB_SHADOW_DIRTY] s t
  shadows : OtherShadows [a] s t
  active : ∀ g, (∀ f ∈ fs, f.Apart g) → fld t a g.hi g.lo = fld s a g.hi g.lo
  shadow : ∀ g, (∀ f ∈ fs, f.Apart g) → bits (rdShadow t a) g.hi g.lo = bits (rdShadow s a) g.hi g.lo
  dirty : ∀ b, (blkOf a).bind Blk.commitIdx = some b → bit (rd s Csr.GLB_SHADOW_DIRTY) b = true →
    bit (rd t Csr.GLB_SHADOW_DIRTY) b = true

theorem OnlyFields.refl (a : Nat) (fs : List Field) (s : State) : OnlyFields a fs s s :=
  ⟨.refl _ s, fun _ _ => rfl, fun _ _ => rfl, fun _ _ => rfl, fun _ _ => rfl, fun _ _ => id⟩

theorem OnlyFields.cons {a : Nat} {f : Field} {fs : List Field} {s t u : State} (h : OnlyFields a [f] s t)
    (k : OnlyFields a fs t u) : OnlyFields a (f :: fs) s u where
  parts := h.parts.trans k.parts
  regs b hb := (k.regs b hb).trans (h.regs b hb)
  shadows b hb := (k.shadows b hb).trans (h.shadows b hb)
  active g hg := (k.active g fun x hx => hg x (.tail _ hx)).trans (h.active g (by simpa using hg f (.head _)))
  shadow g hg := (k.shadow g fun x hx => hg x (.tail _ hx)).trans (h.shadow g (by simpa using hg f (.head _)))
  dirty b hb hs := k.dirty b hb (h.dirty b hb hs)

section
variable {s t u : State} {a v : Nat} {f : Field}

/-- Later writes of other fields leave what a field took. -/
theorem FieldTakes.kept {fs : List Field} (h : FieldTakes s a v f t) (k : OnlyFields a fs t u)
    (hd : ∀ g ∈ fs, g.Apart f) : FieldTakes s a v f u :=
  ⟨(k.active f hd).trans h.1, fun e => ⟨(k.shadow f hd).trans (h.2 e).1, fun b hb => k.dirty b hb ((h.2 e).2 b hb)⟩⟩

/-- A field takes the same after an earlier write of another field. -/
theorem FieldTakes.after {g : Field} (h : FieldTakes t a v f u) (k : OnlyFields a [g] s t) (hd : g.Apart f) :
    FieldTakes s a v f u :=
  ⟨by rw [h.1, k.active f (by simpa using hd)], h.2⟩

theorem fld_setFld_same (hlo : f.lo ≤ f.hi) (hhi : f.hi < 64) (x : Nat) :
    fld (setFld s a f.hi f.lo x) a f.hi f.lo = x % 2 ^ (f.hi + 1 - f.lo) := by
  rw [fld, setFld, rd_wr_same, Nat.mod_eq_of_lt (setBits_lt hlo hhi (rd_lt s a) x), bits_setBits_same hlo]

theorem setFld_onlyFields (hlo : f.lo ≤ f.hi) (hhi : f.hi < 64) (x : Nat) : OnlyFields a [f] s (setFld s a f.hi f.lo x) where
  parts := setFld_same (fun p hp => by simp_all) (.refl _ s)
  regs b hb := rd_wr_ne s _ (by simp_all)
  shadows b _ := rfl
  active g hg := by
    rw [fld, setFld, rd_wr_same, Nat.mod_eq_of_lt (setBits_lt hlo hhi (rd_lt s a) x),
      bits_setBits_apart hlo (hg f (.head _)), fld]
  shadow _ _ := rfl
  dirty b hb h := by rwa [setFld, rd_wr_ne s _ (ne_dirty_of_commitIdx hb).symm]

theorem shadowWrite_onlyFields (hlo : f.lo ≤ f.hi) (hhi : f.hi < 64) (x : Nat) :
    OnlyFields a [f] s (markShadow (wrShadow s a (setBits (rdShadow s a) f.hi f.lo x)) a) where
  parts := markShadow_same (fun p hp => by simp_all) (wrShadow_same (fun p hp => by simp_all) (.refl _ s))
  regs b hb := rd_markShadow_of_ne (by simp_all)
  shadows b hb := by rw [rdShadow_markShadow, rdShadow_wrShadow, if_neg (by simpa using hb)]
  active g _ := by rw [fld, rd_markShadow_self]; rfl
  shadow g hg := by
    rw [rdShadow_markShadow, rdShadow_wrShadow, if_pos rfl, Nat.mod_eq_of_lt (setBits_lt hlo hhi (rdShadow_lt s a) x),
      bits_setBits_apart hlo (hg f (.head _))]
  dirty b _ h := bit_dirty_markShadow (.inl h)

/-- R12, R42: a field takes a value that is not reserved by its access code, and nothing else changes. -/
theorem putField_takes {ini : Initiator} {w : Nat} (hlo : f.lo ≤ f.hi) (hhi : f.hi < 64)
    (hl : f.legal.ok (bits v f.hi f.lo) = true) :
    FieldTakes s a v f (putField s ini a w v f) ∧ OnlyFields a [f] s (putField s ini a w v f) := by
  have hx : bits v f.hi f.lo < 2 ^ (f.hi + 1 - f.lo) := bits_lt ..
  have hold : fld s a f.hi f.lo < 2 ^ (f.hi + 1 - f.lo) := bits_lt ..
  -- a field whose new active value `x` is written at once
  have hset {x : Nat} (hw : f.written (fld s a f.hi f.lo) (bits v f.hi f.lo) = x) (hlt : x < 2 ^ (f.hi + 1 - f.lo))
      (hsh : f.acc ≠ .sh) : FieldTakes s a v f (setFld s a f.hi f.lo x) ∧ OnlyFields a [f] s (setFld s a f.hi f.lo x) :=
    ⟨⟨by rw [fld_setFld_same hlo hhi, Nat.mod_eq_of_lt hlt, hw], fun e => absurd e hsh⟩, setFld_onlyFields hlo hhi x⟩
  unfold putField
  cases hacc : f.acc with
  | rw | rws =>
    simp only [hl, if_true]
    exact hset (by simp [Field.written, hacc]) hx (by simp [hacc])
  | w1c =>
    exact hset (by simp [Field.written, hacc]) (Nat.and_le_left.trans_lt hold) (by simp [hacc])
  | w1s =>
    exact hset (by simp [Field.written, hacc]) (Nat.or_lt_two_pow hold hx) (by simp [hacc])
  | sh =>
    simp only [hl, if_true]
    have only := shadowWrite_onlyFields (s := s) (a := a) hlo hhi (bits v f.hi f.lo)
    refine ⟨⟨by rw [fld, rd_markShadow_self]; simp [Field.written, hacc]; rfl, fun _ => ⟨?_, fun b hb => ?_⟩⟩, only⟩
    · rw [rdShadow_markShadow, rdShadow_wrShadow, if_pos rfl, Nat.mod_eq_of_lt (setBits_lt hlo hhi (rdShadow_lt s a) _),
        bits_setBits_same hlo, Nat.mod_eq_of_lt hx]
    · exact bit_dirty_markShadow (.inr hb)
  | ro | wo | rc => exact ⟨⟨by simp [Field.written, hacc], by simp [hacc]⟩, .refl ..⟩

end

/-! ### All fields of a write -/

theorem foldl_putField_takes {ini : Initiator} {a w v : Nat} :
    ∀ {fs : List Field} (s : State), FieldsApart fs → (∀ f ∈ fs, f.legal.ok (bits v f.hi f.lo) = true) →
      (∀ f ∈ fs, FieldTakes s a v f (fs.foldl (fun s f => putField s ini a w v f) s))
        ∧ OnlyFields a fs s (fs.foldl (fun s f => putField s ini a w v f) s)
  | [], s, _, _ => ⟨fun _ h => (nomatch h), .refl ..⟩
  | f :: fs, s, hfs, hl => by
    obtain ⟨hlow, hrest⟩ := List.pairwise_cons.1 hfs.apart
    obtain ⟨hlo, hhi⟩ := hfs.bound f (.head _)
    obtain ⟨htake, honly⟩ := putField_takes (s := s) (a := a) (ini := ini) (w := w) hlo hhi (hl f (.head _))
    obtain ⟨htakes, honlys⟩ := foldl_putField_takes (ini := ini) (a := a) (w := w) (v := v) (putField s ini a w v f)
      ⟨fun g hg => hfs.bound g (.tail _ hg), hrest⟩ (fun g hg => hl g (.tail _ hg))
    refine ⟨fun g hg => ?_, honly.cons honlys⟩
    rcases List.mem_cons.1 hg with rfl | hg
    · exact htake.kept honlys fun g hg => .inl (hlow g hg)
    · exact (htakes g hg).after honly (.inr (hlow g hg))

end Sys2Proof.Machine
end

section
/-! PROOFS. Word writes that reach a register: a low word that is held, and a whole value that is written (R10). -/

namespace Sys2Proof.Machine

/-- The low word that is held for an initiator's write of register r. -/
def setHeldLow (s : State) (i : Initiator) (r : RegAt) (x : Option W32) : State :=
  { s with heldLow := smSet none s.heldLow (iniKey i r.base) x }

section
variable {s : State} {i : Initiator} {a : Nat} {r : RegAt}

theorem setHeldLow_same (x : Option W32) : SameBut [.heldLow] s (setHeldLow s i r x) :=
  (same_mk_heldLow (Within.refl _)).2 (.refl _ s)

theorem heldLow_setHeldLow (x : Option W32) (k : Nat) :
    smGet none (setHeldLow s i r x).heldLow k = if k = iniKey i r.base then x else smGet none s.heldLow k :=
  smGet_smSet ..

theorem ctlWrite_of_reaches (h : Reaches s i a true r) (v : Nat) : ctlWrite i a 4 v s = putWord s i r a v := by
  obtain ⟨hawake, hgate, _⟩ := h
  simp [ctlWrite, hawake, hgate]

section
variable (h : Reaches s i a true r)
include h

/-- R10: a low word is only held. -/
theorem putWord_low (hw : r.row.wide = true) (hh : r.high = false) (v : W32) :
    putWord s i r a v.toNat = setHeldLow s i r (some v) := by
  obtain ⟨hcore, _⟩ := h.2.2 rfl
  simp [putWord, hcore, hw, hh, setHeldLow]

/-- R10: a high word is written with the low word held for its initiator, which is then no longer held. -/
theorem putWord_high (hw : r.row.wide = true) (hh : r.high = true) (v : W32) :
    putWord s i r a v.toNat = putReg (setHeldLow s i r none) i r a (v.toNat * 2 ^ 32 + lowWordFor s i r) := by
  obtain ⟨hcore, hcommit⟩ := h.2.2 rfl
  simp [putWord, hcore, hcommit, hw, hh, setHeldLow, lowWordFor, Nat.mod_eq_of_lt v.isLt]

theorem putWord_narrow (hw : r.row.wide = false) (v : W32) : putWord s i r a v.toNat = putReg s i r a v.toNat := by
  obtain ⟨hcore, hcommit⟩ := h.2.2 rfl
  simp [putWord, hcore, hcommit, hw, Nat.mod_eq_of_lt v.isLt]

/-- R12, R42: a register that no unit gives a rule of its own takes legal values field by field. -/
theorem putReg_takes {t : State} {w v : Nat} (hown : r.row.reg ∉ ownRule) (hl : LegalFor r v) :
    FieldsTake t r v (putReg t i r w v) ∧ OnlyFields r.base r.row.fields t (putReg t i r w v) := by
  obtain ⟨b, hb, hrow⟩ := h.row
  rw [putReg_eq_putFields hown hb hrow, putFields, fieldsTake_iff]
  exact foldl_putField_takes t (fieldsApart_of_mem hrow) hl

end

end

end Sys2Proof.Machine

open Sys2Proof Sys2Proof.Machine

/-- Settles O7: a word that reaches a register without a rule of its own is `putFields` of it (`putReg_takes`), on the state
that holds no low word for it any more when the word is a high one; a low word is `setHeldLow`. -/
theorem writesByField : Obligations.WritesByField := by
  intro s i a v r h
  have narrow (hown : r.row.reg ∉ ownRule) (hw : r.row.wide = false) (hl : LegalFor r v.toNat) :
      FieldsTake s r v.toNat (ctlWrite i a 4 v.toNat s) ∧ SameBut [.csr, .shadow] s (ctlWrite i a 4 v.toNat s)
        ∧ OtherRegs [r.base, Csr.GLB_SHADOW_DIRTY] s (ctlWrite i a 4 v.toNat s)
        ∧ OtherShadows [r.base] s (ctlWrite i a 4 v.toNat s) := by
    rw [ctlWrite_of_reaches h, putWord_narrow h hw]
    obtain ⟨htake, honly⟩ := putReg_takes h hown hl
    exact ⟨htake, honly.parts, honly.regs, honly.shadows⟩
  refine ⟨fun hown hw hl => ⟨_, rfl, narrow hown hw hl⟩, fun hown hw hl => ⟨_, rfl, narrow hown hw hl⟩,
    fun hw hh => ⟨_, rfl, ?_⟩, fun hown hw hh hl => ⟨_, rfl, ?_⟩⟩
  · rw [ctlWrite_of_reaches h, putWord_low h hw hh]
    exact ⟨by rw [heldLow_setHeldLow, if_pos rfl], fun k hk => by rw [heldLow_setHeldLow, if_neg hk], setHeldLow_same _⟩
  · rw [ctlWrite_of_reaches h, putWord_high h hw hh]
    obtain ⟨htake, honly⟩ := putReg_takes (t := setHeldLow s i r none) (w := a) h hown hl
    have hheld : SameBut [.csr, .shadow, .heldLow] s (setHeldLow s i r none) := (setHeldLow_same none).mono (by decide)
    refine ⟨htake, ?_, hheld.trans (honly.parts.mono (by decide)), honly.regs, honly.shadows⟩
    rw [honly.parts .heldLow (by decide), heldLow_setHeldLow, if_pos rfl]

end

section
/-! PROOFS. Every meaning answers a next state and keeps the queue. One lemma per meaning that branches, named
<meaning>_answers: each branch of it ends in a next state. -/

namespace Sys2Proof.Machine

/-- The outcome is a next state. -/
def Answers (o : Out) : Prop := ∃ t, o = .next t

theorem Answers.next (t : State) : Answers (.next t) := ⟨t, rfl⟩

theorem execBlockQuiesced_answers {b : Fin 45} {s : State} : Answers (execBlockQuiesced b s) := by
  unfold execBlockQuiesced
  repeat' (first | with_reducible exact .next _ | split)

theorem execQuiesceTimeout_answers {s : State} : Answers (execQuiesceTimeout s) := by
  unfold execQuiesceTimeout
  repeat' (first | with_reducible exact .next _ | extract_lets | split)

theorem execCommitConfirm_answers {s : State} : Answers (execCommitConfirm s) := by
  unfold execCommitConfirm
  repeat' (first | with_reducible exact .next _ | split)

theorem execMmRunComplete_answers {c : Fin 96} {s : State} : Answers (execMmRunComplete c s) := by
  unfold execMmRunComplete
  repeat' (first | with_reducible exact .next _ | split)

theorem execSyncSigDeliver_answers {c : Fin 96} {s : State} : Answers (execSyncSigDeliver c s) := by
  unfold execSyncSigDeliver
  repeat' (first | with_reducible exact .next _ | extract_lets | split)

theorem execBarComplete_answers {group : Fin 64} {id : Fin 256} {s : State} :
    Answers (execBarComplete group id s) := by
  unfold execBarComplete
  repeat' (first | with_reducible exact .next _ | extract_lets | split)

theorem execCoreStallResume_answers {c : Fin 96} {s : State} : Answers (execCoreStallResume c s) := by
  unfold execCoreStallResume
  repeat' (first | with_reducible exact .next _ | extract_lets | split)

theorem execCoreInitDone_answers {c : Fin 96} {s : State} : Answers (execCoreInitDone c s) := by
  unfold execCoreInitDone
  repeat' (first | with_reducible exact .next _ | extract_lets | split)

theorem execStrmPushFetch_answers {c : Fin 96} {t : Fin 4} {s : State} : Answers (execStrmPushFetch c t s) := by
  unfold execStrmPushFetch
  repeat' (first | with_reducible exact .next _ | extract_lets | split)

theorem execStrmDescStart_answers {c : Fin 96} {t : Fin 4} {tsBad : List Nat} {s : State} :
    Answers (execStrmDescStart c t tsBad s) := by
  unfold execStrmDescStart
  repeat' (first | with_reducible exact .next _ | extract_lets | split)

theorem execStrmPartDone_answers {c : Fin 96} {t d : Fin 4} {i : Nat} {ext : Ext} {s : State} :
    Answers (execStrmPartDone c t d i ext s) := by
  unfold execStrmPartDone
  repeat' (first | with_reducible exact .next _ | extract_lets | split)

theorem execStrmDescComplete_answers {c : Fin 96} {t d : Fin 4} {s : State} :
    Answers (execStrmDescComplete c t d s) := by
  unfold execStrmDescComplete
  repeat' (first | with_reducible exact .next _ | extract_lets | split)

theorem execTrqPush_answers {c : Fin 96} {s : State} : Answers (execTrqPush c s) := by
  unfold execTrqPush
  repeat' (first | with_reducible exact .next _ | extract_lets | split)

theorem execFastLineRequest_answers {f : Fin 12} {r : LineReq} {s : State} : Answers (execFastLineRequest f r s) := by
  unfold execFastLineRequest
  repeat' (first | with_reducible exact .next _ | split)

theorem execFastAccessDone_answers {f : Fin 12} {n : Nat} {symErrors onDie : Nat} {s : State} :
    Answers (execFastAccessDone f n symErrors onDie s) := by
  unfold execFastAccessDone
  repeat' (first | with_reducible exact .next _ | extract_lets | split)

theorem execDeepGranuleRequest_answers {d : Fin 8} {r : GranReq} {s : State} :
    Answers (execDeepGranuleRequest d r s) := by
  unfold execDeepGranuleRequest
  repeat' (first | with_reducible exact .next _ | split)

theorem execDeepAccessDone_answers {d : Fin 8} {n : Nat} {symErrors : List Nat} {onDie : Nat} {s : State} :
    Answers (execDeepAccessDone d n symErrors onDie s) := by
  unfold execDeepAccessDone
  repeat' (first | with_reducible exact .next _ | extract_lets | split)

theorem execDeepTierTimeout_answers {d : Fin 8} {n : Nat} {issued : Bool} {s : State} :
    Answers (execDeepTierTimeout d n issued s) := by
  unfold execDeepTierTimeout
  repeat' (first | with_reducible exact .next _ | extract_lets | split)

theorem execRefreshInterval_answers {i : Fin 20} {channel bank : Nat} {s : State} :
    Answers (execRefreshInterval i channel bank s) := by
  unfold execRefreshInterval
  repeat' (first | with_reducible exact .next _ | split)

theorem execBankRefresh_answers {i : Fin 20} {channel bank : Nat} {s : State} :
    Answers (execBankRefresh i channel bank s) := by
  unfold execBankRefresh
  repeat' (first | with_reducible exact .next _ | extract_lets | split)

theorem execStackTempSample_answers {i : Fin 20} {celsius : Byte} {s : State} :
    Answers (execStackTempSample i celsius s) := by
  unfold execStackTempSample
  repeat' (first | with_reducible exact .next _ | split)

theorem execScrubStep_answers {i : Fin 20} {symErrors : List (Nat × Nat)} {onDie : Nat} {s : State} :
    Answers (execScrubStep i symErrors onDie s) := by
  unfold execScrubStep
  repeat' (first | with_reducible exact .next _ | extract_lets | split)

theorem execStackInitDone_answers {i : Fin 20} {s : State} : Answers (execStackInitDone i s) := by
  unfold execStackInitDone
  repeat' (first | with_reducible exact .next _ | extract_lets | split)

theorem execControllerReady_answers {i : Fin 20} {s : State} : Answers (execControllerReady i s) := by
  unfold execControllerReady
  repeat' (first | with_reducible exact .next _ | extract_lets | split)

theorem execSelfRefreshExit_answers {i : Fin 20} {s : State} : Answers (execSelfRefreshExit i s) := by
  unfold execSelfRefreshExit
  repeat' (first | with_reducible exact .next _ | split)

theorem execLtaAccess_answers {r : LtaReq} {s : State} : Answers (execLtaAccess r s) := by
  unfold execLtaAccess
  repeat' (first | with_reducible exact .next _ | extract_lets | split)

theorem execMigrationStart_answers {s : State} : Answers (execMigrationStart s) := by
  unfold execMigrationStart
  repeat' (first | with_reducible exact .next _ | extract_lets | split)

theorem execPromotionSector_answers {slot : Fin 32} {s : State} : Answers (execPromotionSector slot s) := by
  unfold execPromotionSector
  repeat' (first | with_reducible exact .next _ | extract_lets | split)

theorem execStalledRequestResume_answers {n : Nat} {s : State} : Answers (execStalledRequestResume n s) := by
  unfold execStalledRequestResume
  repeat' (first | with_reducible exact .next _ | extract_lets | split)

theorem execWritebackSector_answers {slot : Fin 32} {s : State} : Answers (execWritebackSector slot s) := by
  unfold execWritebackSector
  repeat' (first | with_reducible exact .next _ | extract_lets | split)

theorem execFrameWaitExpire_answers {page : Nat} {s : State} : Answers (execFrameWaitExpire page s) := by
  unfold execFrameWaitExpire
  repeat' (first | with_reducible exact .next _ | extract_lets | split)

theorem execEpochTick_answers {s : State} : Answers (execEpochTick s) := by
  unfold execEpochTick
  repeat' (first | with_reducible exact .next _ | split)

theorem execSweepVisit_answers {die : Fin 2} {s : State} : Answers (execSweepVisit die s) := by
  unfold execSweepVisit
  repeat' (first | with_reducible exact .next _ | extract_lets | split)

theorem execPagePoisonReport_answers {page : Nat} {status : Byte} {loc : W64} {s : State} :
    Answers (execPagePoisonReport page status loc s) := by
  unfold execPagePoisonReport
  repeat' (first | with_reducible exact .next _ | extract_lets | split)

theorem execPlcJournalReplay_answers {s : State} : Answers (execPlcJournalReplay s) := by
  unfold execPlcJournalReplay
  repeat' (first | with_reducible exact .next _ | split)

theorem execPlcCmdDone_answers {ch : Fin 4} {s : State} : Answers (execPlcCmdDone ch s) := by
  unfold execPlcCmdDone
  repeat' (first | with_reducible exact .next _ | extract_lets | split)

theorem execEphMarker_answers {s : State} : Answers (execEphMarker s) := by
  unfold execEphMarker
  repeat' (first | with_reducible exact .next _ | split)

theorem execEphDescPush_answers {plan : Fin 4} {entry : Nat} {s : State} :
    Answers (execEphDescPush plan entry s) := by
  unfold execEphDescPush
  repeat' (first | with_reducible exact .next _ | extract_lets | split)

theorem execEphEntryComplete_answers {plan : Fin 4} {entry : Nat} {s : State} :
    Answers (execEphEntryComplete plan entry s) := by
  unfold execEphEntryComplete
  repeat' (first | with_reducible exact .next _ | split)

theorem execNbuPageAcquire_answers {n : Fin 48} {page : Nat} {sectors : W64} {s : State} :
    Answers (execNbuPageAcquire n page sectors s) := by
  unfold execNbuPageAcquire
  repeat' (first | with_reducible exact .next _ | split)

theorem execNbuFence_answers {n : Fin 48} {page : Nat} {s : State} : Answers (execNbuFence n page s) := by
  unfold execNbuFence
  repeat' (first | with_reducible exact .next _ | split)

theorem execNbuPageRelease_answers {n : Fin 48} {page : Nat} {s : State} : Answers (execNbuPageRelease n page s) := by
  unfold execNbuPageRelease
  repeat' (first | with_reducible exact .next _ | split)

theorem execBurstGrant_answers {n : Fin 48} {banks : List (Fin 32)} {s : State} :
    Answers (execBurstGrant n banks s) := by
  unfold execBurstGrant
  repeat' (first | with_reducible exact .next _ | extract_lets | split)

theorem execBurstEnd_answers {n : Fin 48} {s : State} : Answers (execBurstEnd n s) := by
  unfold execBurstEnd
  repeat' (first | with_reducible exact .next _ | split)

theorem execBurstPreempt_answers {n : Fin 48} {s : State} : Answers (execBurstPreempt n s) := by
  unfold execBurstPreempt
  repeat' (first | with_reducible exact .next _ | extract_lets | split)

theorem execNbuRowReceive_answers {n : Fin 48} {row : Bytes} {s : State} : Answers (execNbuRowReceive n row s) := by
  unfold execNbuRowReceive
  repeat' (first | with_reducible exact .next _ | extract_lets | split)

theorem execNbuRowApply_answers {n : Fin 48} {s : State} : Answers (execNbuRowApply n s) := by
  unfold execNbuRowApply
  repeat' (first | with_reducible exact .next _ | extract_lets | split)

theorem execRowUnpark_answers {n : Fin 48} {s : State} : Answers (execRowUnpark n s) := by
  unfold execRowUnpark
  repeat' (first | with_reducible exact .next _ | split)

theorem execTransposeTile_answers {n : Fin 48} {s : State} : Answers (execTransposeTile n s) := by
  unfold execTransposeTile
  repeat' (first | with_reducible exact .next _ | extract_lets | split)

theorem execNbuRowAnswer_answers {n : Fin 48} {s : State} : Answers (execNbuRowAnswer n s) := by
  unfold execNbuRowAnswer
  repeat' (first | with_reducible exact .next _ | extract_lets | split)

theorem execDeltaReceive_answers {n : Fin 48} {delta : Bytes} {s : State} : Answers (execDeltaReceive n delta s) := by
  unfold execDeltaReceive
  repeat' (first | with_reducible exact .next _ | split)

theorem execDeltaAckReceive_answers {n : Fin 48} {ack : Bytes} {s : State} :
    Answers (execDeltaAckReceive n ack s) := by
  unfold execDeltaAckReceive
  repeat' (first | with_reducible exact .next _ | split)

theorem execCommitLineWrite_answers {n : Fin 48} {s : State} : Answers (execCommitLineWrite n s) := by
  unfold execCommitLineWrite
  repeat' (first | with_reducible exact .next _ | extract_lets | split)

theorem execDeltaResend_answers {n : Fin 48} {dev : Nat} {holder : Fin 48} {s : State} :
    Answers (execDeltaResend n dev holder s) := by
  unfold execDeltaResend
  repeat' (first | with_reducible exact .next _ | extract_lets | split)

theorem execMarkSend_answers {n : Fin 48} {dev : Nat} {holder : Fin 48} {s : State} :
    Answers (execMarkSend n dev holder s) := by
  unfold execMarkSend
  repeat' (first | with_reducible exact .next _ | extract_lets | split)

theorem execNbuRetainedRestore_answers {n : Fin 48} {s : State} : Answers (execNbuRetainedRestore n s) := by
  unfold execNbuRetainedRestore
  repeat' (first | with_reducible exact .next _ | extract_lets | split)

theorem execJobPart_answers {n : Fin 48} {s : State} : Answers (execJobPart n s) := by
  unfold execJobPart
  repeat' (first | with_reducible exact .next _ | extract_lets | split)

theorem execNbuCmdDone_answers {n : Fin 48} {s : State} : Answers (execNbuCmdDone n s) := by
  unfold execNbuCmdDone
  repeat' (first | with_reducible exact .next _ | extract_lets | split | dsimp +zetaDelta only)

theorem execRlyOpen_answers {e : Fin 2} {q : Fin 16} {s : State} : Answers (execRlyOpen e q s) := by
  unfold execRlyOpen
  repeat' (first | with_reducible exact .next _ | split)

theorem execRlySend_answers {e : Fin 2} {q : Fin 16} {s : State} : Answers (execRlySend e q s) := by
  unfold execRlySend
  repeat' (first | with_reducible exact .next _ | extract_lets | split)

theorem execRlyCancel_answers {e : Fin 2} {q : Fin 16} {s : State} : Answers (execRlyCancel e q s) := by
  unfold execRlyCancel
  repeat' (first | with_reducible exact .next _ | split)

theorem execRlyRelease_answers {e : Fin 2} {q : Fin 16} {s : State} : Answers (execRlyRelease e q s) := by
  unfold execRlyRelease
  repeat' (first | with_reducible exact .next _ | split)

theorem execContribReceive_answers {e : Fin 2} {r : Bytes} {s : State} : Answers (execContribReceive e r s) := by
  unfold execContribReceive
  repeat' (first | with_reducible exact .next _ | split)

theorem execAnswerReceive_answers {e : Fin 2} {r : Bytes} {s : State} : Answers (execAnswerReceive e r s) := by
  unfold execAnswerReceive
  repeat' (first | with_reducible exact .next _ | split)

theorem execResendReceive_answers {e : Fin 2} {r : Bytes} {s : State} : Answers (execResendReceive e r s) := by
  unfold execResendReceive
  repeat' (first | with_reducible exact .next _ | split)

theorem execDoneReceive_answers {e : Fin 2} {r : Bytes} {s : State} : Answers (execDoneReceive e r s) := by
  unfold execDoneReceive
  repeat' (first | with_reducible exact .next _ | split)

theorem execDoneAckReceive_answers {e : Fin 2} {r : Bytes} {s : State} : Answers (execDoneAckReceive e r s) := by
  unfold execDoneAckReceive
  repeat' (first | with_reducible exact .next _ | split)

theorem execRlyHopTimeout_answers {e : Fin 2} {n : Nat} {s : State} : Answers (execRlyHopTimeout e n s) := by
  unfold execRlyHopTimeout
  repeat' (first | with_reducible exact .next _ | split)

theorem execRlyRetryTimer_answers {e : Fin 2} {n : Nat} {s : State} : Answers (execRlyRetryTimer e n s) := by
  unfold execRlyRetryTimer
  repeat' (first | with_reducible exact .next _ | extract_lets | split)

theorem execBucketDeadline_answers {e : Fin 2} {tag : Nat} {s : State} : Answers (execBucketDeadline e tag s) := by
  unfold execBucketDeadline
  repeat' (first | with_reducible exact .next _ | split)

theorem execBucketHardLimit_answers {e : Fin 2} {tag : Nat} {s : State} : Answers (execBucketHardLimit e tag s) := by
  unfold execBucketHardLimit
  repeat' (first | with_reducible exact .next _ | split)

theorem execRowDeliver_answers {e : Fin 2} {s : State} : Answers (execRowDeliver e s) := by
  unfold execRowDeliver
  repeat' (first | with_reducible exact .next _ | split)

theorem execNbuAnswerReceive_answers {e : Fin 2} {answer : Bytes} {s : State} :
    Answers (execNbuAnswerReceive e answer s) := by
  unfold execNbuAnswerReceive
  repeat' (first | with_reducible exact .next _ | split)

theorem execDeliveryTimeout_answers {e : Fin 2} {tag row : Nat} {s : State} :
    Answers (execDeliveryTimeout e tag row s) := by
  unfold execDeliveryTimeout
  repeat' (first | with_reducible exact .next _ | split)

theorem execDoneRepeat_answers {e : Fin 2} {n : Nat} {s : State} : Answers (execDoneRepeat e n s) := by
  unfold execDoneRepeat
  repeat' (first | with_reducible exact .next _ | extract_lets | split)

theorem execSendProbe_answers {e : Fin 2} {n : Nat} {s : State} : Answers (execSendProbe e n s) := by
  unfold execSendProbe
  repeat' (first | with_reducible exact .next _ | extract_lets | split)

theorem execRebuildEntry_answers {e : Fin 2} {s : State} : Answers (execRebuildEntry e s) := by
  unfold execRebuildEntry
  repeat' (first | with_reducible exact .next _ | extract_lets | split)

theorem execXpartReceive_answers {e : Fin 2} {r : Bytes} {s : State} : Answers (execXpartReceive e r s) := by
  unfold execXpartReceive
  repeat' (first | with_reducible exact .next _ | split)

theorem execXpartReturn_answers {e : Fin 2} {r : Bytes} {ext : Ext} {s : State} :
    Answers (execXpartReturn e r ext s) := by
  unfold execXpartReturn
  repeat' (first | with_reducible exact .next _ | split)

theorem execXpartTimeout_answers {e : Fin 2} {token : Nat} {s : State} : Answers (execXpartTimeout e token s) := by
  unfold execXpartTimeout
  repeat' (first | with_reducible exact .next _ | extract_lets | split)

theorem execIngest_answers {r : Fin 8} {d : Decoded} {s : State} : Answers (execIngest r d s) := by
  unfold execIngest
  repeat' (first | with_reducible exact .next _ | extract_lets | split)

theorem execShuf_answers {r : Fin 8} {s : State} : Answers (execShuf r s) := by
  unfold execShuf
  repeat' (first | with_reducible exact .next _ | extract_lets | split)

theorem execMedCancel_answers {r : Fin 8} {s : State} : Answers (execMedCancel r s) := by
  unfold execMedCancel
  repeat' (first | with_reducible exact .next _ | extract_lets | split)

theorem execShufJobGenerate_answers {s : State} : Answers (execShufJobGenerate s) := by
  unfold execShufJobGenerate
  repeat' (first | with_reducible exact .next _ | extract_lets | split)

theorem execIngestFrame_answers {e : Fin 32} {ext : Ext} {s : State} : Answers (execIngestFrame e ext s) := by
  unfold execIngestFrame
  repeat' (first | with_reducible exact .next _ | split)

theorem execIngestJobDone_answers {e : Fin 32} {_ext : Ext} {s : State} : Answers (execIngestJobDone e _ext s) := by
  unfold execIngestJobDone
  repeat' (first | with_reducible exact .next _ | extract_lets | split | dsimp +zetaDelta only)

theorem execLinkTrained_answers {l : Fin 25} {lanes : Byte} {s : State} : Answers (execLinkTrained l lanes s) := by
  unfold execLinkTrained
  repeat' (first | with_reducible exact .next _ | extract_lets | split)

theorem execLinkTrainingTimeout_answers {l : Fin 25} {s : State} : Answers (execLinkTrainingTimeout l s) := by
  unfold execLinkTrainingTimeout
  repeat' (first | with_reducible exact .next _ | split)

theorem execLinkAutoRetrain_answers {l : Fin 25} {s : State} : Answers (execLinkAutoRetrain l s) := by
  unfold execLinkAutoRetrain
  repeat' (first | with_reducible exact .next _ | split)

theorem execLaneLockLost_answers {l : Fin 25} {s : State} : Answers (execLaneLockLost l s) := by
  unfold execLaneLockLost
  repeat' (first | with_reducible exact .next _ | split)

theorem execInitFlitReceive_answers {l : Fin 25} {f : Flit} {s : State} : Answers (execInitFlitReceive l f s) := by
  unfold execInitFlitReceive
  repeat' (first | with_reducible exact .next _ | split)

theorem execDataFlitReceive_answers {l : Fin 25} {f : Flit} {s : State} : Answers (execDataFlitReceive l f s) := by
  unfold execDataFlitReceive
  repeat' (first | with_reducible exact .next _ | split)

theorem execFecUncorrectable_answers {l : Fin 25} {flits : Nat} {s : State} :
    Answers (execFecUncorrectable l flits s) := by
  unfold execFecUncorrectable
  repeat' (first | with_reducible exact .next _ | split)

theorem execNakReceive_answers {l : Fin 25} {f : Flit} {s : State} : Answers (execNakReceive l f s) := by
  unfold execNakReceive
  repeat' (first | with_reducible exact .next _ | split)

theorem execAckTimeout_answers {l : Fin 25} {s : State} : Answers (execAckTimeout l s) := by
  unfold execAckTimeout
  repeat' (first | with_reducible exact .next _ | split)

theorem execFlitSend_answers {l : Fin 25} {s : State} : Answers (execFlitSend l s) := by
  unfold execFlitSend
  repeat' (first | with_reducible exact .next _ | extract_lets | split)

theorem execKeepaliveSend_answers {l : Fin 25} {s : State} : Answers (execKeepaliveSend l s) := by
  unfold execKeepaliveSend
  repeat' (first | with_reducible exact .next _ | split)

theorem execKeepaliveTimeout_answers {l : Fin 25} {s : State} : Answers (execKeepaliveTimeout l s) := by
  unfold execKeepaliveTimeout
  repeat' (first | with_reducible exact .next _ | split)

theorem execPeerStalled_answers {l : Fin 24} {s : State} : Answers (execPeerStalled l s) := by
  unfold execPeerStalled
  repeat' (first | with_reducible exact .next _ | extract_lets | split)

theorem execHelloReceive_answers {l : Fin 24} {m : FabMsg} {s : State} : Answers (execHelloReceive l m s) := by
  unfold execHelloReceive
  repeat' (first | with_reducible exact .next _ | extract_lets | split)

theorem execHelloProofReceive_answers {l : Fin 24} {m : FabMsg} {s : State} :
    Answers (execHelloProofReceive l m s) := by
  unfold execHelloProofReceive
  repeat' (first | with_reducible exact .next _ | split)

theorem execMessageRoute_answers {ingress : Option (Fin 24)} {m : FabMsg} {s : State} :
    Answers (execMessageRoute ingress m s) := by
  unfold execMessageRoute
  repeat' (first | with_reducible exact .next _ | split)

theorem execFabricRequestIssue_answers {m : FabMsg} {s : State} : Answers (execFabricRequestIssue m s) := by
  unfold execFabricRequestIssue
  repeat' (first | with_reducible exact .next _ | extract_lets | split)

theorem execRdReq_answers {m : FabMsg} {s : State} : Answers (execRdReq m s) := by
  unfold execRdReq
  repeat' (first | with_reducible exact .next _ | split)

theorem execWrReq_answers {m : FabMsg} {s : State} : Answers (execWrReq m s) := by
  unfold execWrReq
  repeat' (first | with_reducible exact .next _ | split)

theorem execRdRsp_answers {m : FabMsg} {s : State} : Answers (execRdRsp m s) := by
  unfold execRdRsp
  repeat' (first | with_reducible exact .next _ | extract_lets | split)

theorem execWrRsp_answers {m : FabMsg} {s : State} : Answers (execWrRsp m s) := by
  unfold execWrRsp
  repeat' (first | with_reducible exact .next _ | extract_lets | split)

theorem execFabricRequestTimeout_answers {tag : Nat} {s : State} : Answers (execFabricRequestTimeout tag s) := by
  unfold execFabricRequestTimeout
  repeat' (first | with_reducible exact .next _ | extract_lets | split)

theorem execRelayMsgReceive_answers {m : FabMsg} {s : State} : Answers (execRelayMsgReceive m s) := by
  unfold execRelayMsgReceive
  repeat' (first | with_reducible exact .next _ | extract_lets | split)

theorem execSrForward_answers {ingress : Fin 24} {m : FabMsg} {s : State} : Answers (execSrForward ingress m s) := by
  unfold execSrForward
  repeat' (first | with_reducible exact .next _ | split)

theorem execSrRead_answers {m : FabMsg} {s : State} : Answers (execSrRead m s) := by
  unfold execSrRead
  repeat' (first | with_reducible exact .next _ | split)

theorem execSrWrite_answers {m : FabMsg} {s : State} : Answers (execSrWrite m s) := by
  unfold execSrWrite
  repeat' (first | with_reducible exact .next _ | split)

theorem execMailboxReceive_answers {m : FabMsg} {s : State} : Answers (execMailboxReceive m s) := by
  unfold execMailboxReceive
  repeat' (first | with_reducible exact .next _ | extract_lets | split)

theorem execHRd_answers {m : HostMsg} {ext : Ext} {s : State} : Answers (execHRd m ext s) := by
  unfold execHRd
  repeat' (first | with_reducible exact .next _ | split)

theorem execHWr_answers {m : HostMsg} {ext : Ext} {s : State} : Answers (execHWr m ext s) := by
  unfold execHWr
  repeat' (first | with_reducible exact .next _ | split)

theorem execHostWriteIssue_answers {owner addr : Nat} {data : Bytes} {s : State} :
    Answers (execHostWriteIssue owner addr data s) := by
  unfold execHostWriteIssue
  repeat' (first | with_reducible exact .next _ | extract_lets | split)

theorem execHostReadIssue_answers {owner addr len : Nat} {s : State} :
    Answers (execHostReadIssue owner addr len s) := by
  unfold execHostReadIssue
  repeat' (first | with_reducible exact .next _ | extract_lets | split)

theorem execDRsp_answers {m : HostMsg} {s : State} : Answers (execDRsp m s) := by
  unfold execDRsp
  repeat' (first | with_reducible exact .next _ | extract_lets | split)

theorem execHostReadTimeout_answers {tag : Nat} {s : State} : Answers (execHostReadTimeout tag s) := by
  unfold execHostReadTimeout
  repeat' (first | with_reducible exact .next _ | extract_lets | split)

theorem execJack_answers {m : HostMsg} {s : State} : Answers (execJack m s) := by
  unfold execJack
  repeat' (first | with_reducible exact .next _ | extract_lets | split)

theorem execResume_answers {m : HostMsg} {s : State} : Answers (execResume m s) := by
  unfold execResume
  repeat' (first | with_reducible exact .next _ | extract_lets | split)

theorem execHostReset_answers {m : HostMsg} {s : State} : Answers (execHostReset m s) := by
  unfold execHostReset
  repeat' (first | with_reducible exact .next _ | extract_lets | split)

theorem execDetachTimeout_answers {s : State} : Answers (execDetachTimeout s) := by
  unfold execDetachTimeout
  repeat' (first | with_reducible exact .next _ | extract_lets | split)

theorem execDetachComplete_answers {s : State} : Answers (execDetachComplete s) := by
  unfold execDetachComplete
  repeat' (first | with_reducible exact .next _ | split)

theorem execSqFetch_answers {q : Fin 256} {ext : Ext} {s : State} : Answers (execSqFetch q ext s) := by
  unfold execSqFetch
  repeat' (first | with_reducible exact .next _ | extract_lets | split)

theorem execHlkNop_answers {q : Fin 256} {cid : BitVec 16} {s : State} : Answers (execHlkNop q cid s) := by
  unfold execHlkNop
  repeat' (first | with_reducible exact .next _ | split)

theorem execWriteInline_answers {q : Fin 256} {cid : BitVec 16} {ext : Ext} {s : State} :
    Answers (execWriteInline q cid ext s) := by
  unfold execWriteInline
  repeat' (first | with_reducible exact .next _ | split)

theorem execCopy_answers {q : Fin 256} {cid : BitVec 16} {part : Nat} {src dst : Ext} {s : State} :
    Answers (execCopy q cid part src dst s) := by
  unfold execCopy
  repeat' (first | with_reducible exact .next _ | extract_lets | split)

theorem execReadSmall_answers {q : Fin 256} {cid : BitVec 16} {ext : Ext} {s : State} :
    Answers (execReadSmall q cid ext s) := by
  unfold execReadSmall
  repeat' (first | with_reducible exact .next _ | split)

theorem execFwCall_answers {q : Fin 256} {cid : BitVec 16} {s : State} : Answers (execFwCall q cid s) := by
  unfold execFwCall
  repeat' (first | with_reducible exact .next _ | extract_lets | split)

theorem execPowerEnter_answers {q : Fin 256} {cid : BitVec 16} {s : State} : Answers (execPowerEnter q cid s) := by
  unfold execPowerEnter
  repeat' (first | with_reducible exact .next _ | split)

theorem execPowerQuery_answers {q : Fin 256} {cid : BitVec 16} {s : State} : Answers (execPowerQuery q cid s) := by
  unfold execPowerQuery
  repeat' (first | with_reducible exact .next _ | split)

theorem execHlkCmdComplete_answers {q : Fin 256} {cid : BitVec 16} {s : State} :
    Answers (execHlkCmdComplete q cid s) := by
  unfold execHlkCmdComplete
  repeat' (first | with_reducible exact .next _ | split)

theorem execCqCoalTimer_answers {q : Fin 256} {s : State} : Answers (execCqCoalTimer q s) := by
  unfold execCqCoalTimer
  repeat' (first | with_reducible exact .next _ | split)

theorem execProcInstruction_answers {p : Fin 8} {op : RvInstr} {len : Nat} {fetchFails : Option Byte} {s : State} :
    Answers (execProcInstruction p op len fetchFails s) := by
  unfold execProcInstruction
  repeat' (first | with_reducible exact .next _ | split)

theorem execProcWfiWake_answers {p : Fin 8} {s : State} : Answers (execProcWfiWake p s) := by
  unfold execProcWfiWake
  repeat' (first | with_reducible exact .next _ | extract_lets | split)

theorem execWdtExpire_answers {p : Fin 8} {s : State} : Answers (execWdtExpire p s) := by
  unfold execWdtExpire
  repeat' (first | with_reducible exact .next _ | split)

theorem execEvtRingWrite_answers {t : Fin 9} {s : State} : Answers (execEvtRingWrite t s) := by
  unfold execEvtRingWrite
  repeat' (first | with_reducible exact .next _ | extract_lets | split)

theorem execEvtSrcPurge_answers {i : Initiator} {n : Nat} {s : State} : Answers (execEvtSrcPurge i n s) := by
  unfold execEvtSrcPurge
  repeat' (first | exact .next _ | split)

theorem execEvtLineAccept_answers {l : Fin 8} {asserted : Bool} {s : State} :
    Answers (execEvtLineAccept l asserted s) := by
  unfold execEvtLineAccept
  repeat' (first | with_reducible exact .next _ | extract_lets | split)

theorem execDomeBufferDrain_answers {s : State} : Answers (execDomeBufferDrain s) := by
  unfold execDomeBufferDrain
  repeat' (first | with_reducible exact .next _ | split)

theorem execFlashReadId_answers {i : Initiator} {id : Bytes} {s : State} : Answers (execFlashReadId i id s) := by
  unfold execFlashReadId
  repeat' (first | with_reducible exact .next _ | extract_lets | split)

theorem execFlashDone_answers {s : State} : Answers (execFlashDone s) := by
  unfold execFlashDone
  repeat' (first | with_reducible exact .next _ | split)

theorem execSecCmdDone_answers {s : State} : Answers (execSecCmdDone s) := by
  unfold execSecCmdDone
  repeat' (first | with_reducible exact .next _ | split)

theorem execHelloProofSign_answers {l : Fin 24} {s : State} : Answers (execHelloProofSign l s) := by
  unfold execHelloProofSign
  repeat' (first | with_reducible exact .next _ | split)

theorem execRailThreshold_answers {r : Rail} {good : Bool} {s : State} : Answers (execRailThreshold r good s) := by
  unfold execRailThreshold
  repeat' (first | with_reducible exact .next _ | split)

theorem execResetPinAccept_answers {high : Bool} {s : State} : Answers (execResetPinAccept high s) := by
  unfold execResetPinAccept
  repeat' (first | with_reducible exact .next _ | extract_lets | split)

theorem execClockMonitorWindow_answers {edges : Nat} {s : State} : Answers (execClockMonitorWindow edges s) := by
  unfold execClockMonitorWindow
  repeat' (first | with_reducible exact .next _ | split)

theorem execResetSourceAssert_answers {src : RstSource} {reach : Reach} {hart : Option (Fin 8)} {s : State} :
    Answers (execResetSourceAssert src reach hart s) := by
  unfold execResetSourceAssert
  repeat' (first | with_reducible exact .next _ | split)

theorem execResetSourceRelease_answers {src : RstSource} {s : State} : Answers (execResetSourceRelease src s) := by
  unfold execResetSourceRelease
  repeat' (first | with_reducible exact .next _ | split)

theorem execFuseLoadDone_answers {words : List W32} {s : State} : Answers (execFuseLoadDone words s) := by
  unfold execFuseLoadDone
  repeat' (first | with_reducible exact .next _ | extract_lets | split)

theorem execPllLockDone_answers {s : State} : Answers (execPllLockDone s) := by
  unfold execPllLockDone
  repeat' (first | with_reducible exact .next _ | split)

theorem execResetRelease_answers {s : State} : Answers (execResetRelease s) := by
  unfold execResetRelease
  repeat' (first | with_reducible exact .next _ | split)

theorem execBlockResetEnter_answers {b : Fin 64} {s : State} : Answers (execBlockResetEnter b s) := by
  unfold execBlockResetEnter
  repeat' (first | with_reducible exact .next _ | split)

theorem execBlkTimeout_answers {b : Fin 64} {s : State} : Answers (execBlkTimeout b s) := by
  unfold execBlkTimeout
  repeat' (first | with_reducible exact .next _ | split)

theorem execBlkDone_answers {b : Fin 64} {s : State} : Answers (execBlkDone b s) := by
  unfold execBlkDone
  repeat' (first | with_reducible exact .next _ | split)

theorem execEntryQuiesced_answers {s : State} : Answers (execEntryQuiesced s) := by
  unfold execEntryQuiesced
  repeat' (first | with_reducible exact .next _ | split)

theorem execEntryClockStop_answers {s : State} : Answers (execEntryClockStop s) := by
  unfold execEntryClockStop
  repeat' (first | with_reducible exact .next _ | split)

theorem execEntryAbandoned_answers {s : State} : Answers (execEntryAbandoned s) := by
  unfold execEntryAbandoned
  repeat' (first | with_reducible exact .next _ | split)

theorem execWakePinAccept_answers {high : Bool} {s : State} : Answers (execWakePinAccept high s) := by
  unfold execWakePinAccept
  repeat' (first | with_reducible exact .next _ | split)

theorem execSmbusAddressMatch_answers {addr : BitVec 7} {s : State} : Answers (execSmbusAddressMatch addr s) := by
  unfold execSmbusAddressMatch
  repeat' (first | with_reducible exact .next _ | split)

theorem execRalineActivity_answers {s : State} : Answers (execRalineActivity s) := by
  unfold execRalineActivity
  repeat' (first | with_reducible exact .next _ | split)

theorem execWatchWake_answers {source : Nat} {s : State} : Answers (execWatchWake source s) := by
  unfold execWatchWake
  repeat' (first | with_reducible exact .next _ | split)

theorem execWakeDone_answers {s : State} : Answers (execWakeDone s) := by
  unfold execWakeDone
  repeat' (first | with_reducible exact .next _ | split)

theorem execOffWake_answers {s : State} : Answers (execOffWake s) := by
  unfold execOffWake
  repeat' (first | with_reducible exact .next _ | split)

theorem execDomainAutoOff_answers {d : Fin 41} {s : State} : Answers (execDomainAutoOff d s) := by
  unfold execDomainAutoOff
  repeat' (first | with_reducible exact .next _ | split)

theorem execDomainWake_answers {d : Fin 41} {s : State} : Answers (execDomainWake d s) := by
  unfold execDomainWake
  repeat' (first | with_reducible exact .next _ | split)

theorem execDomainReady_answers {d : Fin 41} {s : State} : Answers (execDomainReady d s) := by
  unfold execDomainReady
  repeat' (first | with_reducible exact .next _ | split)

theorem execOppDone_answers {s : State} : Answers (execOppDone s) := by
  unfold execOppDone
  repeat' (first | with_reducible exact .next _ | split)

theorem execPowerSample_answers {fast slow : Nat} {energy : Nat} {s : State} :
    Answers (execPowerSample fast slow energy s) := by
  unfold execPowerSample
  repeat' (first | with_reducible exact .next _ | split)

theorem execCapAdjust_answers {s : State} : Answers (execCapAdjust s) := by
  unfold execCapAdjust
  repeat' (first | with_reducible exact .next _ | extract_lets | split)

theorem execThermalSample_answers {tj : Byte} {sensor : Fin 40} {s : State} :
    Answers (execThermalSample tj sensor s) := by
  unfold execThermalSample
  repeat' (first | with_reducible exact .next _ | extract_lets | split)

theorem execThermalShutdown_answers {s : State} : Answers (execThermalShutdown s) := by
  unfold execThermalShutdown
  repeat' (first | with_reducible exact .next _ | split)

theorem execRailEnRelease_answers {s : State} : Answers (execRailEnRelease s) := by
  unfold execRailEnRelease
  repeat' (first | with_reducible exact .next _ | split)

theorem execSmbusBlockRead_answers {code : Byte} {s : State} : Answers (execSmbusBlockRead code s) := by
  unfold execSmbusBlockRead
  repeat' (first | with_reducible exact .next _ | split)

theorem execPlateClearDone_answers {s : State} : Answers (execPlateClearDone s) := by
  unfold execPlateClearDone
  repeat' (first | with_reducible exact .next _ | split)

theorem execPowerOnHoldEnd_answers {s : State} : Answers (execPowerOnHoldEnd s) := by
  unfold execPowerOnHoldEnd
  repeat' (first | with_reducible exact .next _ | split)

theorem execPllLossOfLock_answers {s : State} : Answers (execPllLossOfLock s) := by
  unfold execPllLossOfLock
  repeat' (first | with_reducible exact .next _ | split)

theorem execStrapReadDone_answers {codes : List Byte} {s : State} : Answers (execStrapReadDone codes s) := by
  unfold execStrapReadDone
  repeat' (first | with_reducible exact .next _ | extract_lets | split)

/-- No meaning stops the machine. -/
theorem exec_answers (s : State) : ∀ c : Instr, Answers (exec c s)
  | .registerWrite .. => .next _
  | .reg64LowRead .. => .next _
  | .reg64HighRead .. => .next _
  | .reg64LowWrite .. => .next _
  | .reg64HighWrite .. => .next _
  | .rcCounterRead .. => .next _
  | .shShadowWrite .. => .next _
  | .quiesceRequest .. => .next _
  | .blockQuiesced .. => execBlockQuiesced_answers
  | .quiesceTimeout .. => execQuiesceTimeout_answers
  | .commitGo .. => .next _
  | .commitConfirm .. => execCommitConfirm_answers
  | .nop .. => .next _
  | .halt .. => .next _
  | .li .. => .next _
  | .lui .. => .next _
  | .addi .. => .next _
  | .add .. => .next _
  | .sub .. => .next _
  | .shli .. => .next _
  | .bz .. => .next _
  | .bnz .. => .next _
  | .jmp .. => .next _
  | .loop .. => .next _
  | .strmIssue .. => .next _
  | .strmCancelInstr .. => .next _
  | .mmLdw .. => .next _
  | .mmRun .. => .next _
  | .mmRunComplete .. => execMmRunComplete_answers
  | .syncWait .. => .next _
  | .syncWaitm .. => .next _
  | .syncSet .. => .next _
  | .syncClr .. => .next _
  | .syncTest .. => .next _
  | .syncSig .. => .next _
  | .syncSigDeliver .. => execSyncSigDeliver_answers
  | .syncBar .. => .next _
  | .barComplete .. => execBarComplete_answers
  | .syncMark .. => .next _
  | .syncDrain .. => .next _
  | .coreStallResume .. => execCoreStallResume_answers
  | .coreRun .. => .next _
  | .coreStop .. => .next _
  | .corePcWrite .. => .next _
  | .coreFaultClr .. => .next _
  | .coreSbClear .. => .next _
  | .coreSbSet .. => .next _
  | .accTmodeWrite .. => .next _
  | .coreInitDone .. => execCoreInitDone_answers
  | .strmPush .. => .next _
  | .strmPushFetch .. => execStrmPushFetch_answers
  | .strmCancel .. => .next _
  | .strmFailClear .. => .next _
  | .strmDescStart .. => execStrmDescStart_answers
  | .strmPartDone .. => execStrmPartDone_answers
  | .strmDescComplete .. => execStrmDescComplete_answers
  | .accMode .. => .next _
  | .accZero .. => .next _
  | .accLd .. => .next _
  | .accSt .. => .next _
  | .accPush .. => .next _
  | .trqPush .. => execTrqPush_answers
  | .accSadd .. => .next _
  | .accSmrg .. => .next _
  | .accSfin .. => .next _
  | .vsetvl .. => .next _
  | .vld .. => .next _
  | .vst .. => .next _
  | .vstg8 .. => .next _
  | .vtrqpop .. => .next _
  | .vext .. => .next _
  | .vins .. => .next _
  | .vmov .. => .next _
  | .vfadd .. => .next _
  | .vfsub .. => .next _
  | .vfmul .. => .next _
  | .vffma .. => .next _
  | .vfmax .. => .next _
  | .vfmin .. => .next _
  | .vfabs .. => .next _
  | .vfneg .. => .next _
  | .vrcp .. => .next _
  | .vrsqrt .. => .next _
  | .vsqrt .. => .next _
  | .vexp2 .. => .next _
  | .vlog2 .. => .next _
  | .vtanh .. => .next _
  | .vsigm .. => .next _
  | .verf .. => .next _
  | .vcvtif .. => .next _
  | .vcvtfi .. => .next _
  | .vexps .. => .next _
  | .vfcmp .. => .next _
  | .vfrsum .. => .next _
  | .vfrmax .. => .next _
  | .vfrmin .. => .next _
  | .vsel .. => .next _
  | .viadd .. => .next _
  | .visub .. => .next _
  | .vimul .. => .next _
  | .vimax .. => .next _
  | .vimin .. => .next _
  | .vand .. => .next _
  | .vor .. => .next _
  | .vxor .. => .next _
  | .vshl .. => .next _
  | .vshra .. => .next _
  | .vshrl .. => .next _
  | .vicmp .. => .next _
  | .virsum .. => .next _
  | .vmset .. => .next _
  | .vmnot .. => .next _
  | .vmand .. => .next _
  | .vmor .. => .next _
  | .vmpop .. => .next _
  | .fastLineRequest .. => execFastLineRequest_answers
  | .fastAccessDone .. => execFastAccessDone_answers
  | .deepGranuleRequest .. => execDeepGranuleRequest_answers
  | .deepAccessDone .. => execDeepAccessDone_answers
  | .deepTierTimeout .. => execDeepTierTimeout_answers
  | .refreshInterval .. => execRefreshInterval_answers
  | .bankRefresh .. => execBankRefresh_answers
  | .stackTempSample .. => execStackTempSample_answers
  | .scrubStep .. => execScrubStep_answers
  | .rowlogClr .. => .next _
  | .errCaptureClear .. => .next _
  | .stackInitDone .. => execStackInitDone_answers
  | .controllerReady .. => execControllerReady_answers
  | .selfRefreshExit .. => execSelfRefreshExit_answers
  | .ltaAccess .. => execLtaAccess_answers
  | .migrationStart .. => execMigrationStart_answers
  | .promotionSector .. => execPromotionSector_answers
  | .stalledRequestResume .. => execStalledRequestResume_answers
  | .writebackSector .. => execWritebackSector_answers
  | .frameWaitExpire .. => execFrameWaitExpire_answers
  | .epochTick .. => execEpochTick_answers
  | .sweepVisit .. => execSweepVisit_answers
  | .pagePoisonReport .. => execPagePoisonReport_answers
  | .plcJournalReplay .. => execPlcJournalReplay_answers
  | .plcRead .. => .next _
  | .plcMap .. => .next _
  | .plcUnmap .. => .next _
  | .plcSetAttr .. => .next _
  | .plcPromote .. => .next _
  | .plcDemote .. => .next _
  | .plcFlush .. => .next _
  | .plcHome .. => .next _
  | .plcRelocate .. => .next _
  | .plcRetire .. => .next _
  | .plcRelease .. => .next _
  | .plcRebuild .. => .next _
  | .ephLoad .. => .next _
  | .ephArm .. => .next _
  | .ephDisarm .. => .next _
  | .ephUnload .. => .next _
  | .plcCmdDone .. => execPlcCmdDone_answers
  | .ephMarker .. => execEphMarker_answers
  | .ephDescPush .. => execEphDescPush_answers
  | .ephEntryComplete .. => execEphEntryComplete_answers
  | .nbuPageAcquire .. => execNbuPageAcquire_answers
  | .nbuFence .. => execNbuFence_answers
  | .nbuPageRelease .. => execNbuPageRelease_answers
  | .burstGrant .. => execBurstGrant_answers
  | .burstEnd .. => execBurstEnd_answers
  | .burstPreempt .. => execBurstPreempt_answers
  | .nbuRowReceive .. => execNbuRowReceive_answers
  | .nbuRowApply .. => execNbuRowApply_answers
  | .rowUnpark .. => execRowUnpark_answers
  | .transposeTile .. => execTransposeTile_answers
  | .nbuRowAnswer .. => execNbuRowAnswer_answers
  | .deltaReceive .. => execDeltaReceive_answers
  | .deltaAckReceive .. => execDeltaAckReceive_answers
  | .commitLineWrite .. => execCommitLineWrite_answers
  | .deltaResend .. => execDeltaResend_answers
  | .markSend .. => execMarkSend_answers
  | .nbuRetainedRestore .. => execNbuRetainedRestore_answers
  | .progLoad .. => .next _
  | .bindLoad .. => .next _
  | .bindClear .. => .next _
  | .job .. => .next _
  | .jobPart .. => execJobPart_answers
  | .audit .. => .next _
  | .transpose .. => .next _
  | .seqReset .. => .next _
  | .nbuCmdDone .. => execNbuCmdDone_answers
  | .rlySqPiWrite .. => .next _
  | .rlyOpen .. => execRlyOpen_answers
  | .rlySend .. => execRlySend_answers
  | .rlyCancel .. => execRlyCancel_answers
  | .rlyRelease .. => execRlyRelease_answers
  | .contribReceive .. => execContribReceive_answers
  | .answerReceive .. => execAnswerReceive_answers
  | .resendReceive .. => execResendReceive_answers
  | .doneReceive .. => execDoneReceive_answers
  | .doneAckReceive .. => execDoneAckReceive_answers
  | .rlyHopTimeout .. => execRlyHopTimeout_answers
  | .rlyRetryTimer .. => execRlyRetryTimer_answers
  | .bucketDeadline .. => execBucketDeadline_answers
  | .bucketHardLimit .. => execBucketHardLimit_answers
  | .rowDeliver .. => execRowDeliver_answers
  | .nbuAnswerReceive .. => execNbuAnswerReceive_answers
  | .deliveryTimeout .. => execDeliveryTimeout_answers
  | .doneRepeat .. => execDoneRepeat_answers
  | .sendProbe .. => execSendProbe_answers
  | .rlyRbPiWrite .. => .next _
  | .rebuildEntry .. => execRebuildEntry_answers
  | .xpartReceive .. => execXpartReceive_answers
  | .xpartReturn .. => execXpartReturn_answers
  | .xpartTimeout .. => execXpartTimeout_answers
  | .medSqPiWrite .. => .next _
  | .ingest .. => execIngest_answers
  | .shuf .. => execShuf_answers
  | .medCancel .. => execMedCancel_answers
  | .shufJobGenerate .. => execShufJobGenerate_answers
  | .ingestFrame .. => execIngestFrame_answers
  | .ingestJobDone _ ext => execIngestJobDone_answers (_ext := ext)
  | .linkEnable .. => .next _
  | .linkAdmit .. => .next _
  | .linkRetrain .. => .next _
  | .linkTrained .. => execLinkTrained_answers
  | .linkTrainingTimeout .. => execLinkTrainingTimeout_answers
  | .linkAutoRetrain .. => execLinkAutoRetrain_answers
  | .laneLockLost .. => execLaneLockLost_answers
  | .initFlitReceive .. => execInitFlitReceive_answers
  | .dataFlitReceive .. => execDataFlitReceive_answers
  | .fecUncorrectable .. => execFecUncorrectable_answers
  | .nakReceive .. => execNakReceive_answers
  | .ackTimeout .. => execAckTimeout_answers
  | .flitSend .. => execFlitSend_answers
  | .keepaliveSend .. => execKeepaliveSend_answers
  | .keepaliveTimeout .. => execKeepaliveTimeout_answers
  | .peerStalled .. => execPeerStalled_answers
  | .helloReceive .. => execHelloReceive_answers
  | .helloProofReceive .. => execHelloProofReceive_answers
  | .messageRoute .. => execMessageRoute_answers
  | .fabricRequestIssue .. => execFabricRequestIssue_answers
  | .rdReq .. => execRdReq_answers
  | .wrReq .. => execWrReq_answers
  | .rdRsp .. => execRdRsp_answers
  | .wrRsp .. => execWrRsp_answers
  | .fabricRequestTimeout .. => execFabricRequestTimeout_answers
  | .relayMsgReceive .. => execRelayMsgReceive_answers
  | .srForward .. => execSrForward_answers
  | .srRead .. => execSrRead_answers
  | .srWrite .. => execSrWrite_answers
  | .mailboxReceive .. => execMailboxReceive_answers
  | .fabcMgmtPush .. => .next _
  | .routeBankSwitch .. => .next _
  | .jrnlExport .. => .next _
  | .jrnlRevert .. => .next _
  | .jrnlForget .. => .next _
  | .hRd .. => execHRd_answers
  | .hWr .. => execHWr_answers
  | .hostWriteIssue .. => execHostWriteIssue_answers
  | .hostReadIssue .. => execHostReadIssue_answers
  | .dRsp .. => execDRsp_answers
  | .hostReadTimeout .. => execHostReadTimeout_answers
  | .jack .. => execJack_answers
  | .resume .. => execResume_answers
  | .hostReset .. => execHostReset_answers
  | .detachTimeout .. => execDetachTimeout_answers
  | .hostAttach .. => .next _
  | .hostDetach .. => .next _
  | .detachComplete .. => execDetachComplete_answers
  | .sqDoorbell .. => .next _
  | .cqHeadWrite .. => .next _
  | .sqFetch .. => execSqFetch_answers
  | .hlkNop .. => execHlkNop_answers
  | .writeInline .. => execWriteInline_answers
  | .copy .. => execCopy_answers
  | .readSmall .. => execReadSmall_answers
  | .fwCall .. => execFwCall_answers
  | .powerEnter .. => execPowerEnter_answers
  | .powerQuery .. => execPowerQuery_answers
  | .hlkCmdComplete .. => execHlkCmdComplete_answers
  | .cqCoalTimer .. => execCqCoalTimer_answers
  | .vecUnmask .. => .next _
  | .fwDone .. => .next _
  | .hwinWrite .. => .next _
  | .procInstruction .. => execProcInstruction_answers
  | .procRun .. => .next _
  | .procHalt .. => .next _
  | .procDinv .. => .next _
  | .procWfiWake .. => execProcWfiWake_answers
  | .mtimecmpMatch .. => .next _
  | .wdtKick .. => .next _
  | .wdtExpire .. => execWdtExpire_answers
  | .evtSwraise .. => .next _
  | .evtRingWrite .. => execEvtRingWrite_answers
  | .evtNestEnter .. => .next _
  | .evtNestExit .. => .next _
  | .evtTgtCiWrite .. => .next _
  | .evtFaultClear .. => .next _
  | .evtSrcPurge .. => execEvtSrcPurge_answers
  | .evtLineAccept .. => execEvtLineAccept_answers
  | .domeBufferDrain .. => execDomeBufferDrain_answers
  | .modeOvr .. => .next _
  | .confirm .. => .next _
  | .bootRelease .. => .next _
  | .bootHostData .. => .next _
  | .flashRead .. => .next _
  | .flashProgram .. => .next _
  | .flashErase .. => .next _
  | .flashReadId .. => execFlashReadId_answers
  | .flashDone .. => execFlashDone_answers
  | .secHash .. => .next _
  | .secVerify .. => .next _
  | .secExtend .. => .next _
  | .secReport .. => .next _
  | .svnSet .. => .next _
  | .keyProgram .. => .next _
  | .keyRevoke .. => .next _
  | .lifecycleAdvance .. => .next _
  | .secCmdDone .. => execSecCmdDone_answers
  | .secPermLock .. => .next _
  | .helloProofSign .. => execHelloProofSign_answers
  | .railThreshold .. => execRailThreshold_answers
  | .resetPinAccept .. => execResetPinAccept_answers
  | .clockMonitorWindow .. => execClockMonitorWindow_answers
  | .rstSwreq .. => .next _
  | .rstDbgreq .. => .next _
  | .resetSourceAssert .. => execResetSourceAssert_answers
  | .resetSourceRelease .. => execResetSourceRelease_answers
  | .fuseLoadDone .. => execFuseLoadDone_answers
  | .pllLockDone .. => execPllLockDone_answers
  | .resetRelease .. => execResetRelease_answers
  | .blockResetRequest .. => .next _
  | .blockResetEnter .. => execBlockResetEnter_answers
  | .blkTimeout .. => execBlkTimeout_answers
  | .blockResetEnd .. => .next _
  | .blkDone .. => execBlkDone_answers
  | .entryQuiesced .. => execEntryQuiesced_answers
  | .entryClockStop .. => execEntryClockStop_answers
  | .entryAbandoned .. => execEntryAbandoned_answers
  | .wakePinAccept .. => execWakePinAccept_answers
  | .smbusAddressMatch .. => execSmbusAddressMatch_answers
  | .ralineActivity .. => execRalineActivity_answers
  | .watchWake .. => execWatchWake_answers
  | .wakeDone .. => execWakeDone_answers
  | .offWake .. => execOffWake_answers
  | .domainAutoOff .. => execDomainAutoOff_answers
  | .domainWake .. => execDomainWake_answers
  | .domainReady .. => execDomainReady_answers
  | .oppDone .. => execOppDone_answers
  | .powerSample .. => execPowerSample_answers
  | .capAdjust .. => execCapAdjust_answers
  | .thermalSample .. => execThermalSample_answers
  | .thermalShutdown .. => execThermalShutdown_answers
  | .railEnRelease .. => execRailEnRelease_answers
  | .smbusBlockRead .. => execSmbusBlockRead_answers
  | .platePublish .. => .next _
  | .plateClear .. => .next _
  | .plateClearDone .. => execPlateClearDone_answers
  | .plateAck .. => .next _
  | .powerOnHoldEnd .. => execPowerOnHoldEnd_answers
  | .pllLossOfLock .. => execPllLossOfLock_answers
  | .vstbyLoss .. => .next _
  | .strapReadDone .. => execStrapReadDone_answers

/-- Every meaning keeps what `Keeps` says: the queue, the canonical form of every memory, and the range of VL. -/
theorem exec_keeps (s : State) : ∀ c : Instr, OutKeeps s (exec c s)
  | .registerWrite .. => execRegisterWrite_keeps (.refl s)
  | .reg64LowRead .. => execReg64LowRead_keeps (.refl s)
  | .reg64HighRead .. => execReg64HighRead_keeps (.refl s)
  | .reg64LowWrite .. => execReg64LowWrite_keeps (.refl s)
  | .reg64HighWrite .. => execReg64HighWrite_keeps (.refl s)
  | .rcCounterRead .. => execRcCounterRead_keeps (.refl s)
  | .shShadowWrite .. => execShShadowWrite_keeps (.refl s)
  | .quiesceRequest .. => execQuiesceRequest_keeps (.refl s)
  | .blockQuiesced .. => execBlockQuiesced_keeps (.refl s)
  | .quiesceTimeout .. => execQuiesceTimeout_keeps (.refl s)
  | .commitGo .. => execCommitGo_keeps (.refl s)
  | .commitConfirm .. => execCommitConfirm_keeps (.refl s)
  | .nop .. => execNop_keeps (.refl s)
  | .halt .. => execHalt_keeps (.refl s)
  | .li .. => execLi_keeps (.refl s)
  | .lui .. => execLui_keeps (.refl s)
  | .addi .. => execAddi_keeps (.refl s)
  | .add .. => execAdd_keeps (.refl s)
  | .sub .. => execSub_keeps (.refl s)
  | .shli .. => execShli_keeps (.refl s)
  | .bz .. => execBz_keeps (.refl s)
  | .bnz .. => execBnz_keeps (.refl s)
  | .jmp .. => execJmp_keeps (.refl s)
  | .loop .. => execLoop_keeps (.refl s)
  | .strmIssue .. => execStrmIssue_keeps (.refl s)
  | .strmCancelInstr .. => execStrmCancelInstr_keeps (.refl s)
  | .mmLdw .. => execMmLdw_keeps (.refl s)
  | .mmRun .. => execMmRun_keeps (.refl s)
  | .mmRunComplete .. => execMmRunComplete_keeps (.refl s)
  | .syncWait .. => execSyncWait_keeps (.refl s)
  | .syncWaitm .. => execSyncWaitm_keeps (.refl s)
  | .syncSet .. => execSyncSet_keeps (.refl s)
  | .syncClr .. => execSyncClr_keeps (.refl s)
  | .syncTest .. => execSyncTest_keeps (.refl s)
  | .syncSig .. => execSyncSig_keeps (.refl s)
  | .syncSigDeliver .. => execSyncSigDeliver_keeps (.refl s)
  | .syncBar .. => execSyncBar_keeps (.refl s)
  | .barComplete .. => execBarComplete_keeps (.refl s)
  | .syncMark .. => execSyncMark_keeps (.refl s)
  | .syncDrain .. => execSyncDrain_keeps (.refl s)
  | .coreStallResume .. => execCoreStallResume_keeps (.refl s)
  | .coreRun .. => execCoreRun_keeps (.refl s)
  | .coreStop .. => execCoreStop_keeps (.refl s)
  | .corePcWrite .. => execCorePcWrite_keeps (.refl s)
  | .coreFaultClr .. => execCoreFaultClr_keeps (.refl s)
  | .coreSbClear .. => execCoreSbClear_keeps (.refl s)
  | .coreSbSet .. => execCoreSbSet_keeps (.refl s)
  | .accTmodeWrite .. => execAccTmodeWrite_keeps (.refl s)
  | .coreInitDone .. => execCoreInitDone_keeps (.refl s)
  | .strmPush .. => execStrmPush_keeps (.refl s)
  | .strmPushFetch .. => execStrmPushFetch_keeps (.refl s)
  | .strmCancel .. => execStrmCancel_keeps (.refl s)
  | .strmFailClear .. => execStrmFailClear_keeps (.refl s)
  | .strmDescStart .. => execStrmDescStart_keeps (.refl s)
  | .strmPartDone .. => execStrmPartDone_keeps (.refl s)
  | .strmDescComplete .. => execStrmDescComplete_keeps (.refl s)
  | .accMode .. => execAccMode_keeps (.refl s)
  | .accZero .. => execAccZero_keeps (.refl s)
  | .accLd .. => execAccLd_keeps (.refl s)
  | .accSt .. => execAccSt_keeps (.refl s)
  | .accPush .. => execAccPush_keeps (.refl s)
  | .trqPush .. => execTrqPush_keeps (.refl s)
  | .accSadd .. => execAccSadd_keeps (.refl s)
  | .accSmrg .. => execAccSmrg_keeps (.refl s)
  | .accSfin .. => execAccSfin_keeps (.refl s)
  | .vsetvl .. => execVsetvl_keeps (.refl s)
  | .vld .. => execVld_keeps (.refl s)
  | .vst .. => execVst_keeps (.refl s)
  | .vstg8 .. => execVstg8_keeps (.refl s)
  | .vtrqpop .. => execVtrqpop_keeps (.refl s)
  | .vext .. => execVext_keeps (.refl s)
  | .vins .. => execVins_keeps (.refl s)
  | .vmov .. => execVmov_keeps (.refl s)
  | .vfadd .. => execVfadd_keeps (.refl s)
  | .vfsub .. => execVfsub_keeps (.refl s)
  | .vfmul .. => execVfmul_keeps (.refl s)
  | .vffma .. => execVffma_keeps (.refl s)
  | .vfmax .. => execVfmax_keeps (.refl s)
  | .vfmin .. => execVfmin_keeps (.refl s)
  | .vfabs .. => execVfabs_keeps (.refl s)
  | .vfneg .. => execVfneg_keeps (.refl s)
  | .vrcp .. => execVrcp_keeps (.refl s)
  | .vrsqrt .. => execVrsqrt_keeps (.refl s)
  | .vsqrt .. => execVsqrt_keeps (.refl s)
  | .vexp2 .. => execVexp2_keeps (.refl s)
  | .vlog2 .. => execVlog2_keeps (.refl s)
  | .vtanh .. => execVtanh_keeps (.refl s)
  | .vsigm .. => execVsigm_keeps (.refl s)
  | .verf .. => execVerf_keeps (.refl s)
  | .vcvtif .. => execVcvtif_keeps (.refl s)
  | .vcvtfi .. => execVcvtfi_keeps (.refl s)
  | .vexps .. => execVexps_keeps (.refl s)
  | .vfcmp .. => execVfcmp_keeps (.refl s)
  | .vfrsum .. => execVfrsum_keeps (.refl s)
  | .vfrmax .. => execVfrmax_keeps (.refl s)
  | .vfrmin .. => execVfrmin_keeps (.refl s)
  | .vsel .. => execVsel_keeps (.refl s)
  | .viadd .. => execViadd_keeps (.refl s)
  | .visub .. => execVisub_keeps (.refl s)
  | .vimul .. => execVimul_keeps (.refl s)
  | .vimax .. => execVimax_keeps (.refl s)
  | .vimin .. => execVimin_keeps (.refl s)
  | .vand .. => execVand_keeps (.refl s)
  | .vor .. => execVor_keeps (.refl s)
  | .vxor .. => execVxor_keeps (.refl s)
  | .vshl .. => execVshl_keeps (.refl s)
  | .vshra .. => execVshra_keeps (.refl s)
  | .vshrl .. => execVshrl_keeps (.refl s)
  | .vicmp .. => execVicmp_keeps (.refl s)
  | .virsum .. => execVirsum_keeps (.refl s)
  | .vmset .. => execVmset_keeps (.refl s)
  | .vmnot .. => execVmnot_keeps (.refl s)
  | .vmand .. => execVmand_keeps (.refl s)
  | .vmor .. => execVmor_keeps (.refl s)
  | .vmpop .. => execVmpop_keeps (.refl s)
  | .fastLineRequest .. => execFastLineRequest_keeps (.refl s)
  | .fastAccessDone .. => execFastAccessDone_keeps (.refl s)
  | .deepGranuleRequest .. => execDeepGranuleRequest_keeps (.refl s)
  | .deepAccessDone .. => execDeepAccessDone_keeps (.refl s)
  | .deepTierTimeout .. => execDeepTierTimeout_keeps (.refl s)
  | .refreshInterval .. => execRefreshInterval_keeps (.refl s)
  | .bankRefresh .. => execBankRefresh_keeps (.refl s)
  | .stackTempSample .. => execStackTempSample_keeps (.refl s)
  | .scrubStep .. => execScrubStep_keeps (.refl s)
  | .rowlogClr .. => execRowlogClr_keeps (.refl s)
  | .errCaptureClear .. => execErrCaptureClear_keeps (.refl s)
  | .stackInitDone .. => execStackInitDone_keeps (.refl s)
  | .controllerReady .. => execControllerReady_keeps (.refl s)
  | .selfRefreshExit .. => execSelfRefreshExit_keeps (.refl s)
  | .ltaAccess .. => execLtaAccess_keeps (.refl s)
  | .migrationStart .. => execMigrationStart_keeps (.refl s)
  | .promotionSector .. => execPromotionSector_keeps (.refl s)
  | .stalledRequestResume .. => execStalledRequestResume_keeps (.refl s)
  | .writebackSector .. => execWritebackSector_keeps (.refl s)
  | .frameWaitExpire .. => execFrameWaitExpire_keeps (.refl s)
  | .epochTick .. => execEpochTick_keeps (.refl s)
  | .sweepVisit .. => execSweepVisit_keeps (.refl s)
  | .pagePoisonReport .. => execPagePoisonReport_keeps (.refl s)
  | .plcJournalReplay .. => execPlcJournalReplay_keeps (.refl s)
  | .plcRead .. => execPlcRead_keeps (.refl s)
  | .plcMap .. => execPlcMap_keeps (.refl s)
  | .plcUnmap .. => execPlcUnmap_keeps (.refl s)
  | .plcSetAttr .. => execPlcSetAttr_keeps (.refl s)
  | .plcPromote .. => execPlcPromote_keeps (.refl s)
  | .plcDemote .. => execPlcDemote_keeps (.refl s)
  | .plcFlush .. => execPlcFlush_keeps (.refl s)
  | .plcHome .. => execPlcHome_keeps (.refl s)
  | .plcRelocate .. => execPlcRelocate_keeps (.refl s)
  | .plcRetire .. => execPlcRetire_keeps (.refl s)
  | .plcRelease .. => execPlcRelease_keeps (.refl s)
  | .plcRebuild .. => execPlcRebuild_keeps (.refl s)
  | .ephLoad .. => execEphLoad_keeps (.refl s)
  | .ephArm .. => execEphArm_keeps (.refl s)
  | .ephDisarm .. => execEphDisarm_keeps (.refl s)
  | .ephUnload .. => execEphUnload_keeps (.refl s)
  | .plcCmdDone .. => execPlcCmdDone_keeps (.refl s)
  | .ephMarker .. => execEphMarker_keeps (.refl s)
  | .ephDescPush .. => execEphDescPush_keeps (.refl s)
  | .ephEntryComplete .. => execEphEntryComplete_keeps (.refl s)
  | .nbuPageAcquire .. => execNbuPageAcquire_keeps (.refl s)
  | .nbuFence .. => execNbuFence_keeps (.refl s)
  | .nbuPageRelease .. => execNbuPageRelease_keeps (.refl s)
  | .burstGrant .. => execBurstGrant_keeps (.refl s)
  | .burstEnd .. => execBurstEnd_keeps (.refl s)
  | .burstPreempt .. => execBurstPreempt_keeps (.refl s)
  | .nbuRowReceive .. => execNbuRowReceive_keeps (.refl s)
  | .nbuRowApply .. => execNbuRowApply_keeps (.refl s)
  | .rowUnpark .. => execRowUnpark_keeps (.refl s)
  | .transposeTile .. => execTransposeTile_keeps (.refl s)
  | .nbuRowAnswer .. => execNbuRowAnswer_keeps (.refl s)
  | .deltaReceive .. => execDeltaReceive_keeps (.refl s)
  | .deltaAckReceive .. => execDeltaAckReceive_keeps (.refl s)
  | .commitLineWrite .. => execCommitLineWrite_keeps (.refl s)
  | .deltaResend .. => execDeltaResend_keeps (.refl s)
  | .markSend .. => execMarkSend_keeps (.refl s)
  | .nbuRetainedRestore .. => execNbuRetainedRestore_keeps (.refl s)
  | .progLoad .. => execProgLoad_keeps (.refl s)
  | .bindLoad .. => execBindLoad_keeps (.refl s)
  | .bindClear .. => execBindClear_keeps (.refl s)
  | .job .. => execJob_keeps (.refl s)
  | .jobPart .. => execJobPart_keeps (.refl s)
  | .audit .. => execAudit_keeps (.refl s)
  | .transpose .. => execTranspose_keeps (.refl s)
  | .seqReset .. => execSeqReset_keeps (.refl s)
  | .nbuCmdDone .. => execNbuCmdDone_keeps (.refl s)
  | .rlySqPiWrite .. => execRlySqPiWrite_keeps (.refl s)
  | .rlyOpen .. => execRlyOpen_keeps (.refl s)
  | .rlySend .. => execRlySend_keeps (.refl s)
  | .rlyCancel .. => execRlyCancel_keeps (.refl s)
  | .rlyRelease .. => execRlyRelease_keeps (.refl s)
  | .contribReceive .. => execContribReceive_keeps (.refl s)
  | .answerReceive .. => execAnswerReceive_keeps (.refl s)
  | .resendReceive .. => execResendReceive_keeps (.refl s)
  | .doneReceive .. => execDoneReceive_keeps (.refl s)
  | .doneAckReceive .. => execDoneAckReceive_keeps (.refl s)
  | .rlyHopTimeout .. => execRlyHopTimeout_keeps (.refl s)
  | .rlyRetryTimer .. => execRlyRetryTimer_keeps (.refl s)
  | .bucketDeadline .. => execBucketDeadline_keeps (.refl s)
  | .bucketHardLimit .. => execBucketHardLimit_keeps (.refl s)
  | .rowDeliver .. => execRowDeliver_keeps (.refl s)
  | .nbuAnswerReceive .. => execNbuAnswerReceive_keeps (.refl s)
  | .deliveryTimeout .. => execDeliveryTimeout_keeps (.refl s)
  | .doneRepeat .. => execDoneRepeat_keeps (.refl s)
  | .sendProbe .. => execSendProbe_keeps (.refl s)
  | .rlyRbPiWrite .. => execRlyRbPiWrite_keeps (.refl s)
  | .rebuildEntry .. => execRebuildEntry_keeps (.refl s)
  | .xpartReceive .. => execXpartReceive_keeps (.refl s)
  | .xpartReturn .. => execXpartReturn_keeps (.refl s)
  | .xpartTimeout .. => execXpartTimeout_keeps (.refl s)
  | .medSqPiWrite .. => execMedSqPiWrite_keeps (.refl s)
  | .ingest .. => execIngest_keeps (.refl s)
  | .shuf .. => execShuf_keeps (.refl s)
  | .medCancel .. => execMedCancel_keeps (.refl s)
  | .shufJobGenerate .. => execShufJobGenerate_keeps (.refl s)
  | .ingestFrame .. => execIngestFrame_keeps (.refl s)
  | .ingestJobDone _ ext => execIngestJobDone_keeps (_ext := ext) (.refl s)
  | .linkEnable .. => execLinkEnable_keeps (.refl s)
  | .linkAdmit .. => execLinkAdmit_keeps (.refl s)
  | .linkRetrain .. => execLinkRetrain_keeps (.refl s)
  | .linkTrained .. => execLinkTrained_keeps (.refl s)
  | .linkTrainingTimeout .. => execLinkTrainingTimeout_keeps (.refl s)
  | .linkAutoRetrain .. => execLinkAutoRetrain_keeps (.refl s)
  | .laneLockLost .. => execLaneLockLost_keeps (.refl s)
  | .initFlitReceive .. => execInitFlitReceive_keeps (.refl s)
  | .dataFlitReceive .. => execDataFlitReceive_keeps (.refl s)
  | .fecUncorrectable .. => execFecUncorrectable_keeps (.refl s)
  | .nakReceive .. => execNakReceive_keeps (.refl s)
  | .ackTimeout .. => execAckTimeout_keeps (.refl s)
  | .flitSend .. => execFlitSend_keeps (.refl s)
  | .keepaliveSend .. => execKeepaliveSend_keeps (.refl s)
  | .keepaliveTimeout .. => execKeepaliveTimeout_keeps (.refl s)
  | .peerStalled .. => execPeerStalled_keeps (.refl s)
  | .helloReceive .. => execHelloReceive_keeps (.refl s)
  | .helloProofReceive .. => execHelloProofReceive_keeps (.refl s)
  | .messageRoute .. => execMessageRoute_keeps (.refl s)
  | .fabricRequestIssue .. => execFabricRequestIssue_keeps (.refl s)
  | .rdReq .. => execRdReq_keeps (.refl s)
  | .wrReq .. => execWrReq_keeps (.refl s)
  | .rdRsp .. => execRdRsp_keeps (.refl s)
  | .wrRsp .. => execWrRsp_keeps (.refl s)
  | .fabricRequestTimeout .. => execFabricRequestTimeout_keeps (.refl s)
  | .relayMsgReceive .. => execRelayMsgReceive_keeps (.refl s)
  | .srForward .. => execSrForward_keeps (.refl s)
  | .srRead .. => execSrRead_keeps (.refl s)
  | .srWrite .. => execSrWrite_keeps (.refl s)
  | .mailboxReceive .. => execMailboxReceive_keeps (.refl s)
  | .fabcMgmtPush .. => execFabcMgmtPush_keeps (.refl s)
  | .routeBankSwitch .. => execRouteBankSwitch_keeps (.refl s)
  | .jrnlExport .. => execJrnlExport_keeps (.refl s)
  | .jrnlRevert .. => execJrnlRevert_keeps (.refl s)
  | .jrnlForget .. => execJrnlForget_keeps (.refl s)
  | .hRd .. => execHRd_keeps (.refl s)
  | .hWr .. => execHWr_keeps (.refl s)
  | .hostWriteIssue .. => execHostWriteIssue_keeps (.refl s)
  | .hostReadIssue .. => execHostReadIssue_keeps (.refl s)
  | .dRsp .. => execDRsp_keeps (.refl s)
  | .hostReadTimeout .. => execHostReadTimeout_keeps (.refl s)
  | .jack .. => execJack_keeps (.refl s)
  | .resume .. => execResume_keeps (.refl s)
  | .hostReset .. => execHostReset_keeps (.refl s)
  | .detachTimeout .. => execDetachTimeout_keeps (.refl s)
  | .hostAttach .. => execHostAttach_keeps (.refl s)
  | .hostDetach .. => execHostDetach_keeps (.refl s)
  | .detachComplete .. => execDetachComplete_keeps (.refl s)
  | .sqDoorbell .. => execSqDoorbell_keeps (.refl s)
  | .cqHeadWrite .. => execCqHeadWrite_keeps (.refl s)
  | .sqFetch .. => execSqFetch_keeps (.refl s)
  | .hlkNop .. => execHlkNop_keeps (.refl s)
  | .writeInline .. => execWriteInline_keeps (.refl s)
  | .copy .. => execCopy_keeps (.refl s)
  | .readSmall .. => execReadSmall_keeps (.refl s)
  | .fwCall .. => execFwCall_keeps (.refl s)
  | .powerEnter .. => execPowerEnter_keeps (.refl s)
  | .powerQuery .. => execPowerQuery_keeps (.refl s)
  | .hlkCmdComplete .. => execHlkCmdComplete_keeps (.refl s)
  | .cqCoalTimer .. => execCqCoalTimer_keeps (.refl s)
  | .vecUnmask .. => execVecUnmask_keeps (.refl s)
  | .fwDone .. => execFwDone_keeps (.refl s)
  | .hwinWrite .. => execHwinWrite_keeps (.refl s)
  | .procInstruction .. => execProcInstruction_keeps (.refl s)
  | .procRun .. => execProcRun_keeps (.refl s)
  | .procHalt .. => execProcHalt_keeps (.refl s)
  | .procDinv .. => execProcDinv_keeps (.refl s)
  | .procWfiWake .. => execProcWfiWake_keeps (.refl s)
  | .mtimecmpMatch .. => execMtimecmpMatch_keeps (.refl s)
  | .wdtKick .. => execWdtKick_keeps (.refl s)
  | .wdtExpire .. => execWdtExpire_keeps (.refl s)
  | .evtSwraise .. => execEvtSwraise_keeps (.refl s)
  | .evtRingWrite .. => execEvtRingWrite_keeps (.refl s)
  | .evtNestEnter .. => execEvtNestEnter_keeps (.refl s)
  | .evtNestExit .. => execEvtNestExit_keeps (.refl s)
  | .evtTgtCiWrite .. => execEvtTgtCiWrite_keeps (.refl s)
  | .evtFaultClear .. => execEvtFaultClear_keeps (.refl s)
  | .evtSrcPurge .. => execEvtSrcPurge_keeps (.refl s)
  | .evtLineAccept .. => execEvtLineAccept_keeps (.refl s)
  | .domeBufferDrain .. => execDomeBufferDrain_keeps (.refl s)
  | .modeOvr .. => execModeOvr_keeps (.refl s)
  | .confirm .. => execConfirm_keeps (.refl s)
  | .bootRelease .. => execBootRelease_keeps (.refl s)
  | .bootHostData .. => execBootHostData_keeps (.refl s)
  | .flashRead .. => execFlashRead_keeps (.refl s)
  | .flashProgram .. => execFlashProgram_keeps (.refl s)
  | .flashErase .. => execFlashErase_keeps (.refl s)
  | .flashReadId .. => execFlashReadId_keeps (.refl s)
  | .flashDone .. => execFlashDone_keeps (.refl s)
  | .secHash .. => execSecHash_keeps (.refl s)
  | .secVerify .. => execSecVerify_keeps (.refl s)
  | .secExtend .. => execSecExtend_keeps (.refl s)
  | .secReport .. => execSecReport_keeps (.refl s)
  | .svnSet .. => execSvnSet_keeps (.refl s)
  | .keyProgram .. => execKeyProgram_keeps (.refl s)
  | .keyRevoke .. => execKeyRevoke_keeps (.refl s)
  | .lifecycleAdvance .. => execLifecycleAdvance_keeps (.refl s)
  | .secCmdDone .. => execSecCmdDone_keeps (.refl s)
  | .secPermLock .. => execSecPermLock_keeps (.refl s)
  | .helloProofSign .. => execHelloProofSign_keeps (.refl s)
  | .railThreshold .. => execRailThreshold_keeps (.refl s)
  | .resetPinAccept .. => execResetPinAccept_keeps (.refl s)
  | .clockMonitorWindow .. => execClockMonitorWindow_keeps (.refl s)
  | .rstSwreq .. => execRstSwreq_keeps (.refl s)
  | .rstDbgreq .. => execRstDbgreq_keeps (.refl s)
  | .resetSourceAssert .. => execResetSourceAssert_keeps (.refl s)
  | .resetSourceRelease .. => execResetSourceRelease_keeps (.refl s)
  | .fuseLoadDone .. => execFuseLoadDone_keeps (.refl s)
  | .pllLockDone .. => execPllLockDone_keeps (.refl s)
  | .resetRelease .. => execResetRelease_keeps (.refl s)
  | .blockResetRequest .. => execBlockResetRequest_keeps (.refl s)
  | .blockResetEnter .. => execBlockResetEnter_keeps (.refl s)
  | .blkTimeout .. => execBlkTimeout_keeps (.refl s)
  | .blockResetEnd .. => execBlockResetEnd_keeps (.refl s)
  | .blkDone .. => execBlkDone_keeps (.refl s)
  | .entryQuiesced .. => execEntryQuiesced_keeps (.refl s)
  | .entryClockStop .. => execEntryClockStop_keeps (.refl s)
  | .entryAbandoned .. => execEntryAbandoned_keeps (.refl s)
  | .wakePinAccept .. => execWakePinAccept_keeps (.refl s)
  | .smbusAddressMatch .. => execSmbusAddressMatch_keeps (.refl s)
  | .ralineActivity .. => execRalineActivity_keeps (.refl s)
  | .watchWake .. => execWatchWake_keeps (.refl s)
  | .wakeDone .. => execWakeDone_keeps (.refl s)
  | .offWake .. => execOffWake_keeps (.refl s)
  | .domainAutoOff .. => execDomainAutoOff_keeps (.refl s)
  | .domainWake .. => execDomainWake_keeps (.refl s)
  | .domainReady .. => execDomainReady_keeps (.refl s)
  | .oppDone .. => execOppDone_keeps (.refl s)
  | .powerSample .. => execPowerSample_keeps (.refl s)
  | .capAdjust .. => execCapAdjust_keeps (.refl s)
  | .thermalSample .. => execThermalSample_keeps (.refl s)
  | .thermalShutdown .. => execThermalShutdown_keeps (.refl s)
  | .railEnRelease .. => execRailEnRelease_keeps (.refl s)
  | .smbusBlockRead .. => execSmbusBlockRead_keeps (.refl s)
  | .platePublish .. => execPlatePublish_keeps (.refl s)
  | .plateClear .. => execPlateClear_keeps (.refl s)
  | .plateClearDone .. => execPlateClearDone_keeps (.refl s)
  | .plateAck .. => execPlateAck_keeps (.refl s)
  | .powerOnHoldEnd .. => execPowerOnHoldEnd_keeps (.refl s)
  | .pllLossOfLock .. => execPllLossOfLock_keeps (.refl s)
  | .vstbyLoss .. => execVstbyLoss_keeps (.refl s)
  | .strapReadDone .. => execStrapReadDone_keeps (.refl s)

end Sys2Proof.Machine

open Sys2Proof Sys2Proof.Machine

/-- Settles O3: no meaning stops (`exec_answers`), and each keeps the queue (`exec_keeps`). -/
theorem commandsLeaveQueue : Obligations.CommandsLeaveQueue :=
  ⟨fun c s => exec_answers s c, fun c s t h => (exec_keeps s c t h).pending⟩

/-- Settles O1: of a queue that is not empty, `step` runs the front. -/
theorem stepRunsFrontCommand : Obligations.StepRunsFrontCommand := by
  intro c rest s h
  rw [step, h]

end

section
/-! PROOFS. A clearing read of a counter that holds more than its field (R13). -/

namespace Sys2Proof.Machine

/-- A state whose violation counter, a field of 32 bits in a stored word of 64, stands at 2^32. -/
def wideCounterState : State := { csr := [(Csr.GLB_VIOL_CNT, 2 ^ 32)] }

/-- GLB_VIOL_CNT as an access meets it. -/
def violCntReg : RegAt := ⟨⟨.GLB_VIOL_CNT, 0x80, [], false, [fd 31 0 .rc 0], 0⟩, [], 0x80, false⟩

theorem wideCounterState_reaches : Reaches wideCounterState (.cp 0) Csr.GLB_VIOL_CNT false violCntReg :=
  ⟨by decide, by decide +kernel, nofun⟩

theorem rd_wideCounterState_after_read :
    rd (readOut (.cp 0) Csr.GLB_VIOL_CNT 0 wideCounterState) Csr.GLB_VIOL_CNT = 2 ^ 32 := by decide +kernel

end Sys2Proof.Machine

open Sys2Proof Sys2Proof.Machine

/-- Refutes O6: its last clause says of every state that a clearing read leaves the stored word of the counter at 0. The
word has 64 bits and the read clears the counter's field, bits 31 to 0: a word of 2^32 stays as it is. The statement bounds
nothing of what the word holds. -/
theorem not_registerReads : ¬ Obligations.RegisterReads := by
  rintro ⟨_, hclear⟩
  obtain ⟨t, ht, _, hzero, _⟩ := hclear wideCounterState (.cp 0) Csr.GLB_VIOL_CNT violCntReg false
    wideCounterState_reaches ⟨fd 31 0 .rc 0, List.mem_singleton_self _, rfl⟩
  cases ht
  exact absurd (rd_wideCounterState_after_read.symm.trans hzero) (by decide)

end

section
/-! PROOFS. An uncorrectable line reported while the Dome holds a record of a source that does not exist (R453, R464). -/

namespace Sys2Proof.Machine

/-- What a register reads as in the state that an outcome answers. -/
def outRd (o : Out) (a : Nat) : Option Nat :=
  match o with
  | .next t => some (rd t a)
  | .fault _ | .refused _ => none

/-- A read of the first line of fast stack 0. -/
def strayLine : LineReq := { initiator := 1, channel := 0, chaddr := 0, len := 64, write := false }

/-- A record of no source: its number is so high that EVT_SRC_STAT of it, by address, is FSC_UE of fast stack 0. -/
def strayRec : EvRec := ⟨(Csr.FSC_UE 0 - Csr.EVT_SRC_STAT 0) / 4, 0, 0, 0, 0, 0, 0⟩

/-- Fast stack 0 is ready and has accepted `strayLine`; the Dome holds `strayRec`, and the pool has no room for it. -/
def strayDomeState : State :=
  { csr := [(Csr.FSC_STAT 0, 1)]
    stks := [(0, { lines := [(strayLine, true)] })]
    evt := { dome := [strayRec], pool := List.replicate 64 strayRec } }

theorem strayDomeState_serves :
    stkRuns strayDomeState 0 = true ∧ bankBlocked strayDomeState 0 0 (fastBank 0) (fastRow 0) = false := by decide +kernel

theorem rd_fscUe_strayDomeState : rd strayDomeState (stkReg 0 0x30) = 0 := by decide +kernel

/-- R453: the record finds no room, and its source's DROP flag, bit 31, is set in what is the count of the errors. -/
theorem outRd_strayDomeState :
    outRd (exec (.fastAccessDone 0 0 4 0) strayDomeState) (stkReg 0 0x30) = some (2 ^ 31 + 1) := by decide +kernel

end Sys2Proof.Machine

open Sys2Proof Sys2Proof.Machine

/-- Refutes O27: of every state, its clause on uncorrectable lines says that FSC_UE grows by one. The event of such a line
moves the Dome's records into the pool first, and the state is not bound to hold only records of sources that exist: a
dropped record of source 0x7F380C sets bit 31 of the word at EVT_SRC_STAT[0x7F380C], which is FSC_UE of fast stack 0. -/
theorem not_fastLines : ¬ Obligations.FastLines := by
  intro h
  obtain ⟨_, _, _, _, huncorrectable, _⟩ := h strayDomeState 0 strayLine 0 (by decide) (by decide) (by decide)
  obtain ⟨hruns, hfree⟩ := strayDomeState_serves
  obtain ⟨t, ht, _, hcount, _⟩ := huncorrectable 4 ⟨rfl, hruns, by simp, hfree⟩ rfl rfl (by decide)
    (by rw [show ((0 : Fin 12) : Nat) = 0 from rfl, rd_fscUe_strayDomeState]; decide)
  have hafter : some (rd t (stkReg 0 0x30)) = some (2 ^ 31 + 1) := by
    rw [← outRd_strayDomeState, ht]; rfl
  rw [show rd t (stkReg 0 0x30) = 0 + 1 from rd_fscUe_strayDomeState ▸ hcount] at hafter
  exact absurd hafter (by decide)

end

section
/-! PROOFS. A write of a whole page that the fast tier serves now (R149, R185, R186): the counters it counts in, what it keeps,
and that the next page can be served after it. -/

namespace Sys2Proof.Machine

/-! ### Lists of numbers and of bytes -/

theorem mem_countUp {n a x : Nat} : x ∈ countUp a n ↔ a ≤ x ∧ x < a + n := by
  induction n generalizing a with
  | zero => simp [countUp]
  | succ n ih => rw [countUp, List.mem_cons, ih]; omega

@[simp] theorem length_bytesAt (bs : Bytes) (o n : Nat) : (bytesAt bs o n).length = n := by
  simp [bytesAt]

theorem pagePieces_page (p : Nat) : pagePieces (p * 2 ^ 18) (2 ^ 18) = [⟨p, 0, 2 ^ 18⟩] := by
  have first : p * 2 ^ 18 / 2 ^ 18 = p := by omega
  have count : (p * 2 ^ 18 + 2 ^ 18 - 1) / 2 ^ 18 + 1 - p = 1 := by omega
  simp only [pagePieces, first, count, countUp, List.map_cons, List.map_nil, Nat.max_self, Nat.sub_self]
  simp [show min (p * 262144 + 262144) ((p + 1) * 262144) - p * 262144 = 262144 by omega]

/-- A page is cut into whole lines. -/
theorem linePieces_page {q : Nat × Nat} (h : q ∈ linePieces 0 (2 ^ 18)) : q.1 < 2 ^ 18 ∧ q.2 = 64 := by
  simp only [linePieces, Nat.reducePow, OfNat.ofNat_ne_zero, if_false, List.mem_map, mem_countUp] at h
  obtain ⟨k, hk, rfl⟩ := h
  dsimp only
  omega

theorem zero_mem_linePieces_page : (0, 64) ∈ linePieces 0 (2 ^ 18) := by
  simp only [linePieces, Nat.reducePow, OfNat.ofNat_ne_zero, if_false, List.mem_map, mem_countUp]
  exact ⟨0, by omega, by decide⟩

/-! ### Counters of the tiers -/

/-- Registers in which accesses of the fast tier may count: none of them steers an access (FSC_STAT and DSC_STAT lie at
offset 8 of their blocks, FSC_LAYOUT and GLB_QUIESCE_REQ at offset 0x10). -/
structure Counters (l : List Nat) : Prop where
  ovf : Csr.GLB_STAT_OVF ∈ l
  lookups : Csr.PLC_LOOKUPS ∈ l
  misses : Csr.PLC_MISSES ∈ l
  apart : ∀ a ∈ l, a % 2 ^ 20 ≠ 0x08 ∧ a % 2 ^ 20 ≠ 0x10

theorem Counters.stat_not_mem {l : List Nat} (hl : Counters l) (i : Nat) : stkReg i 0x08 ∉ l := fun h => by
  have := hl.apart _ h
  unfold stkReg at this
  split at this <;> omega

theorem Counters.layout_not_mem {l : List Nat} (hl : Counters l) (i : Nat) : Csr.FSC_LAYOUT i ∉ l := fun h => by
  have := hl.apart _ h
  unfold Csr.FSC_LAYOUT at this
  omega

theorem Counters.quiesceReq_not_mem {l : List Nat} (hl : Counters l) : Csr.GLB_QUIESCE_REQ ∉ l := fun h => by
  have := hl.apart _ h
  simp [Csr.GLB_QUIESCE_REQ] at this

/-! ### What a served write keeps -/

theorem HeatOnly.of_eq {s t : State} {p : Nat} (h : pageEnt t p = pageEnt s p) : HeatOnly s t p :=
  ⟨(pageEnt s p).heat, (pageEnt s p).epoch, h⟩

theorem HeatOnly.trans {s t u : State} {p : Nat} (h : HeatOnly s t p) (k : HeatOnly t u p) : HeatOnly s u p := by
  obtain ⟨_, _, e⟩ := h
  obtain ⟨x, y, e'⟩ := k
  exact ⟨x, y, by rw [e', e]⟩

/-- Between `s` and `t` the fast tier was written by accesses that were served: registers of `l` counted, entries are as they
were but for heat, and no line was left with an error. -/
structure TierWork (l : List Nat) (s t : State) : Prop where
  parts : SameBut writeParts s t
  regs : OtherRegs l s t
  grows : ∀ a, rd s a ≤ rd t a
  ents : ∀ p, HeatOnly s t p
  clean : Clean s → Clean t

section
variable {l : List Nat} {s t u : State}

theorem TierWork.refl (l : List Nat) (s : State) : TierWork l s s :=
  ⟨.refl _ s, fun _ _ => rfl, fun _ => Nat.le_refl _, fun _ => .of_eq rfl, id⟩

theorem TierWork.trans (h : TierWork l s t) (k : TierWork l t u) : TierWork l s u :=
  ⟨h.parts.trans k.parts, fun a ha => (k.regs a ha).trans (h.regs a ha), fun a => (h.grows a).trans (k.grows a),
    fun p => (h.ents p).trans (k.ents p), k.clean ∘ h.clean⟩

/-- Where entries and marks stay as they are. -/
theorem TierWork.of_counted (h : SameBut [.csr, .stks, .pageCache, .fast] s t) (hr : OtherRegs l s t)
    (hg : ∀ a, rd s a ≤ rd t a) : TierWork l s t where
  parts := h.mono (by decide)
  regs := hr
  grows := hg
  ents p := .of_eq (by rw [pageEnt, pageEnt, h .pages (by decide)])
  clean hc := by
    rw [Clean, h .fastMark (by decide), h .deepMark (by decide)]
    exact hc

/-- And registers too. -/
theorem TierWork.of_sameBut (h : SameBut [.stks, .pageCache, .fast] s t) : TierWork l s t :=
  have hr := h .csr (by decide)
  .of_counted (h.mono (by decide)) (fun a _ => hr a) fun a => (hr a).ge

/-- A whole line that is written ends its mark. -/
theorem TierWork.clearMark (s : State) (k : Nat) :
    TierWork l s { s with fastMark := smSet none s.fastMark k none } where
  parts := (same_mk_fastMark (by decide)).2 (.refl _ s)
  regs _ _ := rfl
  grows _ := Nat.le_refl _
  ents _ := .of_eq rfl
  clean hc := ⟨fun x => by rw [smGet_smSet]; split; exacts [rfl, hc.1 x], hc.2⟩

/-! ### Counting -/

theorem rd_bumpStat_of_ne {a b n : Nat} {blk : Option Nat} (ha : b ≠ a) (ho : b ≠ Csr.GLB_STAT_OVF) :
    rd (bumpStat s a n blk) b = rd s b := by
  unfold bumpStat
  split
  · exact rd_wr_ne s _ ha
  · cases blk with
    | none => exact rd_wr_ne s _ ha
    | some i => rw [rd_wr_ne _ _ ho, rd_wr_ne _ _ ha]

/-- R548: a statistics counter grows, or stands at all ones. -/
theorem rd_bumpStat_self {a n : Nat} {blk : Option Nat} (ho : a ≠ Csr.GLB_STAT_OVF) :
    rd (bumpStat s a n blk) a = min (rd s a + n) (2 ^ 64 - 1) := by
  unfold bumpStat
  split
  next h => rw [rd_wr_same, Nat.mod_eq_of_lt h, Nat.min_eq_left (by omega)]
  next h =>
    rw [Nat.min_eq_right (by omega)]
    cases blk <;> simp [ho]

theorem le_rd_wr {a b v : Nat} (h : rd s a ≤ v % 2 ^ 64) : rd s b ≤ rd (wr s a v) b := by
  rw [rd_wr]
  split
  next e => exact e ▸ h
  · exact Nat.le_refl _

theorem le_rd_bumpStat (a b n : Nat) (blk : Option Nat) : rd s b ≤ rd (bumpStat s a n blk) b := by
  have hfull : rd s b ≤ rd (wr s a (2 ^ 64 - 1)) b := le_rd_wr (by have := rd_lt s a; omega)
  unfold bumpStat
  split
  next h => exact le_rd_wr (by rw [Nat.mod_eq_of_lt h]; omega)
  · cases blk with
    | none => exact hfull
    | some i =>
      refine hfull.trans (le_rd_wr ?_)
      rw [Nat.or_mod_two_pow, Nat.mod_eq_of_lt (rd_lt ..)]
      exact Nat.left_le_or

theorem TierWork.bumpStat {a : Nat} (hl : Counters l) (ha : a ∈ l) (s : State) (n : Nat) (blk : Option Nat) :
    TierWork l s (bumpStat s a n blk) :=
  .of_counted (bumpStat_same (by decide) (.refl _ s))
    (fun b hb => rd_bumpStat_of_ne (fun e => hb (e ▸ ha)) (fun e => hb (e ▸ hl.ovf))) fun b => le_rd_bumpStat a b n blk

/-! ### Entries met through their cache (R189, R192) -/

theorem TierWork.putSet (s : State) (p : Nat) (w : List (Nat × Nat × Nat)) : TierWork l s (putSet s p w) :=
  .of_sameBut (putSet_same (by decide) (.refl _ s))

theorem TierWork.heatToRegion (s : State) (w : Nat × Nat × Nat) : TierWork l s (heatToRegion s w) := by
  unfold Machine.heatToRegion
  split
  · exact .refl l s
  · refine ⟨setEnt_same (by decide) (.refl _ s), fun _ _ => rfl, fun _ => Nat.le_refl _, fun p => ?_, id⟩
    simp only [HeatOnly, pageEnt, setEnt, smGet_smSet]
    split
    next e => exact ⟨_, _, by rw [e]⟩
    · exact HeatOnly.of_eq (s := s) (t := s) rfl

theorem TierWork.touchCache (hl : Counters l) (s : State) (p : Nat) : TierWork l s (touchCache s p) := by
  unfold Machine.touchCache
  split
  · exact .putSet ..
  · extract_lets v w
    refine (TierWork.bumpStat hl hl.misses s 1 (some plcIdx)).trans ?_
    split
    · exact .putSet ..
    · split
      · exact (TierWork.heatToRegion ..).trans (.putSet ..)
      · exact .refl ..

theorem TierWork.touchHeat (s : State) (p n : Nat) : TierWork l s (touchHeat s p n) := by
  unfold Machine.touchHeat setHeat
  split
  · exact .putSet ..
  · exact .heatToRegion ..

theorem HeatOnly.state {p : Nat} (h : HeatOnly s t p) : (pageEnt t p).state = (pageEnt s p).state := by
  obtain ⟨_, _, e⟩ := h
  rw [e]

theorem HeatOnly.frame {p : Nat} (h : HeatOnly s t p) : entFrame (pageEnt t p) = entFrame (pageEnt s p) := by
  obtain ⟨_, _, e⟩ := h
  rw [e, entFrame, entFrame]

/-- R193: only an access to a deep page may queue a promotion. -/
theorem admitHeat_of_fastHomed {q : Piece} (h : (pageEnt s q.page).state = .fastHomed) :
    admitHeat s q = touchHeat s q.page (pieceSectors q).length := by
  have := (TierWork.touchHeat (l := []) s q.page (pieceSectors q).length).ents q.page
  simp [admitHeat, this.state, h]

/-! ### What decides whether an access is served -/

section
variable (hl : Counters l) (w : TierWork l s t)
include hl w

theorem TierWork.works (i : Nat) : works t i = works s i := by
  have hpwr : t.pwr = s.pwr := w.parts .pwr (by decide)
  have hrst : t.rst = s.rst := w.parts .rst (by decide)
  have hquiet : t.quiet = s.quiet := w.parts .quiet (by decide)
  have hcommit : t.commit = s.commit := w.parts .commit_ (by decide)
  have hreq := w.regs _ hl.quiesceReq_not_mem
  simp only [Machine.works, blkHeld, awake, inResetBit, quiesceWanted, entryMask, domainOff, hpwr, hrst, hquiet, hcommit,
    hreq]

theorem TierWork.frameOpen (f : Frame) (o n : Nat) : frameOpen t f o n = frameOpen s f o n := by
  simp only [Machine.frameOpen, stkOpen, stkReady, stkInitDone, flag, w.works hl, w.regs _ (hl.stat_not_mem _)]

theorem TierWork.locFits (f : Frame) (x : Loc) : locFits t f x = locFits s f x := by
  rw [Machine.locFits, Machine.locFits, stripedFrames, stripedFrames, fld, fld, w.regs _ (hl.layout_not_mem _)]

/-- R185, R186: what can be written now can be written after it. -/
theorem WritesNow.after {a n : Nat} (h : WritesNow s a n) : WritesNow t a n := by
  obtain ⟨⟨hruns, hready, hfail, hstalled, hclean, ha, hn, hpage, hfast, hfits, hopen⟩, hhomed⟩ := h
  have hframe := (w.ents (a / 2 ^ 18)).frame
  have hstate := (w.ents (a / 2 ^ 18)).state
  have hrst : t.rst = s.rst := w.parts .rst (by decide)
  have hplc : t.plcFits = s.plcFits := w.parts .plcFits (by decide)
  have hrestoring : t.plcRestoring = s.plcRestoring := w.parts .plcRestoring (by decide)
  refine ⟨⟨?_, ?_, ?_, ?_, w.clean hclean, ha, hn, hpage, ?_, ?_, ?_⟩, hstate.trans hhomed⟩
  · rw [plcRuns, w.works hl]; exact hruns
  · simpa only [plcReady, inResetBit, hrst, hplc, hrestoring] using hready
  · exact (w.parts .stallFail (by decide)).trans hfail
  · exact (w.parts .stalled (by decide)).trans hstalled
  · simpa only [InFast, hstate] using hfast
  · intro o ho
    rw [hframe, w.locFits hl]
    exact hfits o ho
  · rw [hframe, w.frameOpen hl]
    exact hopen

end

/-! ### Lines and frames (R149) -/

/-- R149: a whole line is written without being read, and counts. -/
theorem lineWrite_wholeLine {x : Loc} {bs : Bytes} (hl : Counters l) (hw : stkReg x.stack 0x50 ∈ l) (hb : bs.length = 64) :
    (lineWrite s x bs).st = 0 ∧ TierWork l s (lineWrite s x bs).s ∧ 0 < rd (lineWrite s x bs).s (stkReg x.stack 0x50) := by
  have hovf : stkReg x.stack 0x50 ≠ Csr.GLB_STAT_OVF := by
    unfold stkReg Csr.GLB_STAT_OVF
    split <;> omega
  simp only [lineWrite, hb, if_true]
  refine ⟨trivial, ?_, ?_⟩
  · refine .trans ?_ (.bumpStat hl hw _ 64 _)
    exact (TierWork.of_sameBut (openRowAt_same (by decide) (.refl _ s))).trans <|
      (TierWork.clearMark _ _).trans (.of_sameBut ((same_mk_fast (by decide)).2 (.refl _ _)))
  · rw [countWritten, rd_bumpStat_self hovf]
    omega

/-- A frame's bytes written in whole lines, where each line fits: every line is written. -/
theorem frameWriteAt_wholeLines {f : Frame} (hl : Counters l) : ∀ {ps : List (Nat × Nat)} {s : State} {bs : Bytes},
    (∀ q ∈ ps, q.2 = 64 ∧ locFits s f (frameLoc f q.1) = true ∧ stkReg (frameLoc f q.1).stack 0x50 ∈ l) →
    (frameWriteAt s f ps bs).st = 0 ∧ TierWork l s (frameWriteAt s f ps bs).s
      ∧ ∀ q ∈ ps, 0 < rd (frameWriteAt s f ps bs).s (stkReg (frameLoc f q.1).stack 0x50)
  | [], s, _, _ => ⟨rfl, .refl l s, nofun⟩
  | (o, n) :: ps, s, bs, h => by
    obtain ⟨hn, hfits, hmem⟩ := h (o, n) (.head _)
    obtain ⟨hst, hwork, hpos⟩ := lineWrite_wholeLine (s := s) (bs := bytesAt bs 0 n) hl hmem ((length_bytesAt ..).trans hn)
    obtain ⟨hst', hwork', hpos'⟩ := frameWriteAt_wholeLines (f := f) (ps := ps) (bs := bs.drop n) hl fun q hq => by
      rw [hwork.locFits hl]
      exact h q (.tail _ hq)
    simp only at hfits
    simp only [frameWriteAt, hfits, if_true, hst, hst']
    refine ⟨by decide, hwork.trans hwork', fun q hq => ?_⟩
    rcases List.mem_cons.1 hq with rfl | hq
    · exact hpos.trans_le (hwork'.grows _)
    · exact hpos' q hq

/-! ### Pages -/

/-- The write of a page is served now, and what it counts is in `l`. -/
structure PageWrites (l : List Nat) (s : State) (p : Nat) : Prop where
  now : WritesNow s (p * 2 ^ 18) (2 ^ 18)
  counts : ∀ o, o < 2 ^ 18 → stkReg (frameLoc (entFrame (pageEnt s p)) o).stack 0x50 ∈ l

theorem PageWrites.after {p : Nat} (hl : Counters l) (w : TierWork l s t) (h : PageWrites l s p) : PageWrites l t p :=
  ⟨h.now.after hl w, by rw [(w.ents p).frame]; exact h.counts⟩

section
variable {p : Nat} (h : PageWrites l s p)
include h

theorem PageWrites.homed : (pageEnt s p).state = .fastHomed := by
  obtain ⟨_, homed⟩ := h.now
  rwa [Nat.mul_div_cancel p (by decide)] at homed

theorem PageWrites.fits : FrameFits s (entFrame (pageEnt s p)) := by
  obtain ⟨⟨_, _, _, _, _, _, _, _, _, hfits, _⟩, _⟩ := h.now
  rwa [Nat.mul_div_cancel p (by decide)] at hfits

theorem PageWrites.opens : frameOpen s (entFrame (pageEnt s p)) 0 (2 ^ 18) = true := by
  obtain ⟨⟨_, _, _, _, _, _, _, _, _, _, hopen⟩, _⟩ := h.now
  rwa [Nat.mul_div_cancel p (by decide), Nat.mul_mod_left] at hopen

end

/-- The bytes that the stack of a page's first line has written. -/
def pageCount (s : State) (p : Nat) : Nat := stkReg (frameLoc (entFrame (pageEnt s p)) 0).stack 0x50

theorem reportBad_of_ok {p st loc : Nat} (h : st = 0) : reportBad s p st loc = s := by
  subst h
  rfl

/-- R186, R192: a write to a fast-homed page is a write of its frame, after the entry was met and its heat counted. -/
theorem pieceServe_fastHomed {q : Piece} {bs : Bytes} (hl : Counters l) (h : (pageEnt s q.page).state = .fastHomed) :
    ∃ v, TierWork l s v ∧ ((frameWrite v (entFrame (pageEnt s q.page)) q.off bs).st = 0 →
      pieceServe s q (some bs) = frameWrite v (entFrame (pageEnt s q.page)) q.off bs) := by
  have hmet : TierWork l s (touchCache (bumpStat s Csr.PLC_LOOKUPS 1 (some plcIdx)) q.page) :=
    (TierWork.bumpStat hl hl.lookups s 1 _).trans (.touchCache hl _ _)
  have hmetHomed := (hmet.ents q.page).state.trans h
  have hheat := hmet.trans (.touchHeat _ q.page (pieceSectors q).length)
  have hheatHomed := (hheat.ents q.page).state.trans h
  refine ⟨_, hheat, fun hst => ?_⟩
  simp only [pieceServe, hmetHomed, (hmet.ents q.page).frame, admitHeat_of_fastHomed hmetHomed, markDirty, hheatHomed,
    reportBad_of_ok hst]

theorem frameWrite_page {f : Frame} {bs : Bytes} (hl : Counters l) (hb : bs.length = 2 ^ 18) (hfit : FrameFits s f)
    (hw : ∀ o, o < 2 ^ 18 → stkReg (frameLoc f o).stack 0x50 ∈ l) :
    (frameWrite s f 0 bs).st = 0 ∧ TierWork l s (frameWrite s f 0 bs).s
      ∧ 0 < rd (frameWrite s f 0 bs).s (stkReg (frameLoc f 0).stack 0x50) := by
  rw [frameWrite, hb]
  obtain ⟨hst, hwork, hpos⟩ := frameWriteAt_wholeLines (s := s) (f := f) (ps := linePieces 0 (2 ^ 18)) (bs := bs) hl
    fun q hq => by
      obtain ⟨ho, hn⟩ := linePieces_page hq
      exact ⟨hn, (hfit _ ho).1, hw _ ho⟩
  exact ⟨hst, hwork, hpos (0, 64) zero_mem_linePieces_page⟩

theorem FrameFits.after {f : Frame} (hl : Counters l) (w : TierWork l s t) (h : FrameFits s f) : FrameFits t f :=
  fun o ho => by rw [w.locFits hl]; exact h o ho

theorem pieceServe_page {p : Nat} {bs : Bytes} (hl : Counters l) (h : PageWrites l s p) (hb : bs.length = 2 ^ 18) :
    (pieceServe s ⟨p, 0, 2 ^ 18⟩ (some bs)).st = 0 ∧ TierWork l s (pieceServe s ⟨p, 0, 2 ^ 18⟩ (some bs)).s
      ∧ 0 < rd (pieceServe s ⟨p, 0, 2 ^ 18⟩ (some bs)).s (pageCount s p) := by
  obtain ⟨v, hv, hserve⟩ := pieceServe_fastHomed (q := ⟨p, 0, 2 ^ 18⟩) (bs := bs) hl h.homed
  obtain ⟨hst, hwork, hpos⟩ := frameWrite_page hl hb (h.fits.after hl hv) h.counts
  rw [hserve hst]
  exact ⟨hst, hv.trans hwork, hpos⟩

theorem serveAll_page {p : Nat} {bs : Bytes} (hl : Counters l) (h : PageWrites l s p) :
    (serveAll s [⟨p, 0, 2 ^ 18⟩] (some bs)).st = 0 ∧ TierWork l s (serveAll s [⟨p, 0, 2 ^ 18⟩] (some bs)).s
      ∧ 0 < rd (serveAll s [⟨p, 0, 2 ^ 18⟩] (some bs)).s (pageCount s p) := by
  obtain ⟨hst, hserved⟩ := pieceServe_page hl h (length_bytesAt bs 0 (2 ^ 18))
  simp only [serveAll, Option.map_some, hst]
  exact ⟨rfl, hserved⟩

/-- R185: a page whose frame's stacks are open does not wait. -/
theorem firstWait_page {p : Nat} (h : PageWrites l s p) : firstWait s true [⟨p, 0, 2 ^ 18⟩] = (s, none) := by
  simp only [firstWait, pieceWaits, h.homed, h.opens, Bool.not_true]

/-- R185: an access that need not wait is performed. -/
theorem ltaRun_of_noWait {v : State} {ps : List Piece} {key addr n : Nat} {fresh : Bool} {req : Option LtaReq}
    {w : Option Bytes} (hruns : plcRuns s = true) (hready : plcReady s = true) (hrange : ltaInRange addr n = true)
    (hps : pagePieces addr n = ps) (hwait : firstWait s w.isSome ps = (v, none)) :
    ltaRun s key fresh req addr n w = ((serveAll v ps w).s, some ((serveAll v ps w).st, (serveAll v ps w).data)) := by
  subst hps
  simp [ltaRun, hruns, hready, hrange, hwait]

/-- Where no engine's access is stalled, an engine's access is one of the space. -/
theorem engineLta_of_ltaRun {key addr n : Nat} {w : Option Bytes} {r : Nat × Bytes} (hfail : s.stallFail = [])
    (hstalled : t.stalled = []) (h : ltaRun s key true none addr n w = (t, some r)) :
    engineLta s key addr n w = (t, some r) := by
  cases t
  subst hstalled
  simp [engineLta, hfail, h]

theorem length_zeroPage : zeroPage.length = 2 ^ 18 := List.length_replicate

/-- R185, R556: a page that can be written now is cleared. -/
theorem clearPage_served {p : Nat} (hl : Counters l) (h : PageWrites l s p) :
    ∃ t, clearPage s p = (t, some 0) ∧ TierWork l s t ∧ 0 < rd t (pageCount s p) := by
  obtain ⟨hst, hwork, hpos⟩ := serveAll_page (bs := zeroPage) hl h
  obtain ⟨⟨hruns, hready, hfail, hstalled, _, hspace, _⟩, _⟩ := h.now
  have hrange : ltaInRange (p * 2 ^ 18) (2 ^ 18) = true := by
    rw [ltaInRange, decide_eq_true_eq]
    omega
  have hrun := ltaRun_of_noWait (key := engKey 24 0 p) (fresh := true) (req := none) (w := some zeroPage) hruns hready hrange
    (pagePieces_page p) (firstWait_page h)
  have hengine := engineLta_of_ltaRun hfail ((hwork.parts .stalled (by decide)).trans hstalled) hrun
  refine ⟨_, ?_, hwork, hpos⟩
  rw [clearPage, ltaWrite, length_zeroPage, hengine, hst]

/-- R556: pages that can be written now are all cleared. -/
theorem clearPages_served (hl : Counters l) : ∀ {ps : List Nat} {s : State} {sts : List Nat},
    (∀ p ∈ ps, PageWrites l s p) → ∃ t sts', clearPages ps s sts = (t, some sts') ∧ TierWork l s t
      ∧ ∀ p ∈ ps, 0 < rd t (pageCount s p)
  | [], s, sts, _ => ⟨s, sts.reverse, rfl, .refl l s, nofun⟩
  | p :: ps, s, sts, h => by
    obtain ⟨v, hv, hwork, hpos⟩ := clearPage_served hl (h p (.head _))
    obtain ⟨t, sts', ht, hwork', hpos'⟩ := clearPages_served hl (ps := ps) (s := v) (sts := 0 :: sts) fun q hq =>
      (h q (.tail _ hq)).after hl hwork
    refine ⟨t, sts', by simp only [clearPages, hv, ht], hwork.trans hwork', fun q hq => ?_⟩
    rcases List.mem_cons.1 hq with rfl | hq
    · exact hpos.trans_le (hwork'.grows _)
    · rw [pageCount, ← (hwork.ents q).frame]
      exact hpos' q hq

end
end Sys2Proof.Machine
end

section
/-! PROOFS. A clear of the Plate dump whose pages are said to lie in a stack that does not exist (R184, R556). -/

namespace Sys2Proof.Machine

theorem evtUp_congr {s t : State} (hpwr : t.pwr = s.pwr) (hrst : t.rst = s.rst) : evtUp t = evtUp s := by
  simp only [evtUp, blkUp, awake, blkInReset, inResetBit, hpwr, hrst]

/-- R464: while EVT is held, a source outside the Dome raises nothing. -/
theorem raise_of_evtHeld {s : State} {src code d0 d1 : Nat} (h : evtUp s = false) (hsrc : domeSource src = false) :
    raise s src code d0 d1 = s := by
  simp [raise, h, hsrc]

/-- R556: how a clear ends once all its pages are written, while EVT is held. -/
theorem execPlateClearDone_of_cleared {s t : State} {sts : List Nat} (hup : blkUp s .glb = true)
    (hbusy : flag s Csr.GLB_PLATE_STAT 30 = true) (hevt : evtUp t = false)
    (h : clearPages (countUp (fld s Csr.GLB_PLATE_BASE 25 0) 256) s [] = (t, some sts)) :
    execPlateClearDone s = .next (setFlag (setFld t Csr.GLB_PLATE_STAT 15 8 (partReport sts).status)
      Csr.GLB_PLATE_STAT 30 false) := by
  simp only [execPlateClearDone, hup, hbusy, h, and_self, if_true]
  exact congrArg _ (raise_of_evtHeld hevt rfl)

/-- A fast-homed page in the first BANKED frame of stack 92: there are 20 stacks. -/
def strayEnt : Ent := { banked := true, stack := 92, state := .fastHomed }

/-- A clear of pages 0 to 255, all of which are `strayEnt`. What would be that stack's status register says that the stack is
ready; EVT is held in reset, so that no event moves anything. -/
def strayPageState : State :=
  { csr := [(Csr.GLB_PLATE_STAT, 2 ^ 30), (stkReg 92 0x08, 0x9)]
    rst := { blk := 2 ^ 41 }
    pages := (countUp 0 256).map fun p => (p, strayEnt)
    plcFits := true }

/-- What would be stack 92's count of bytes written lies past the end of the control-register space. -/
def strayCount : Nat := stkReg 92 0x50

/-- The registers that the clear counts in. -/
def strayRegs : List Nat := [Csr.GLB_STAT_OVF, Csr.PLC_LOOKUPS, Csr.PLC_MISSES, strayCount]

theorem strayCount_mem : strayCount ∈ strayRegs := by decide

theorem strayRegs_counters : Counters strayRegs := ⟨by decide, by decide, by decide, by decide⟩

theorem strayPageState_clears : blkUp strayPageState .glb = true ∧ flag strayPageState Csr.GLB_PLATE_STAT 30 = true
    ∧ fld strayPageState Csr.GLB_PLATE_BASE 25 0 = 0 ∧ evtUp strayPageState = false ∧ rd strayPageState strayCount = 0 := by
  decide +kernel

theorem pageEnt_strayPageState : ∀ p < 256, pageEnt strayPageState p = strayEnt := by decide +kernel

theorem strayPageState_open : plcRuns strayPageState = true ∧ plcReady strayPageState = true
    ∧ frameOpen strayPageState (entFrame strayEnt) 0 (2 ^ 18) = true ∧ stripedFrames strayPageState 92 = 0 := by
  decide +kernel

theorem frameFits_strayEnt : FrameFits strayPageState (entFrame strayEnt) := by
  intro o _
  obtain ⟨_, _, _, hlayout⟩ := strayPageState_open
  refine ⟨by simp [locFits, entFrame, strayEnt, frameLoc, bankedLoc, hlayout], ?_⟩
  have := bits_lt (o / 256) 9 6
  simp only [frameLoc, entFrame, strayEnt, bankedLoc, if_true]
  omega

theorem strayPageState_writes {p : Nat} (hp : p < 256) : PageWrites strayRegs strayPageState p := by
  obtain ⟨hruns, hready, hopen, _⟩ := strayPageState_open
  have hent := pageEnt_strayPageState p hp
  have hpage : p * 2 ^ 18 / 2 ^ 18 = p := Nat.mul_div_cancel p (by decide)
  have hoff : p * 2 ^ 18 % 2 ^ 18 = 0 := Nat.mul_mod_left p _
  refine ⟨⟨⟨hruns, hready, rfl, rfl, ⟨fun _ => rfl, fun _ => rfl⟩, by omega, by decide, by omega, ?_, ?_, ?_⟩, ?_⟩, ?_⟩
  · exact .inl (by rw [hpage, hent]; rfl)
  · rw [hpage, hent]; exact frameFits_strayEnt
  · rw [hpage, hoff, hent]; exact hopen
  · rw [hpage, hent]; rfl
  · intro o _
    rw [hent, show (frameLoc (entFrame strayEnt) o).stack = 92 from rfl]
    exact strayCount_mem

end Sys2Proof.Machine

open Sys2Proof Sys2Proof.Machine

/-- Refutes O60: of every state, its clause on the end of a Plate clear says that only GLB_PLATE_STAT and the counters of the
20 stacks change. The stack that a page's entry names is not bound to be one of them: a clear of pages in stack 92 counts the
bytes written in the word at what would be that stack's register, past the end of the register space. -/
theorem not_commitsAndPlate : ¬ Obligations.CommitsAndPlate := by
  intro h
  obtain ⟨_, _, _, _, _, _, _, hclear, _⟩ := h strayPageState (.cp 0)
  obtain ⟨hup, hbusy, hbase, hevt, hzero⟩ := strayPageState_clears
  obtain ⟨t, ht, u, _, _, _, _, hparts, hregs, rfl⟩ := hclear hup hbusy fun p hp => by
    rw [hbase, Nat.zero_add]
    exact (strayPageState_writes hp).now
  have hu : raise u 0 0x06 0 256 = u :=
    raise_of_evtHeld ((evtUp_congr (hparts .pwr (by decide)) (hparts .rst (by decide))).trans hevt) rfl
  obtain ⟨v, sts, hv, hwork, hpos⟩ := clearPages_served strayRegs_counters (ps := countUp 0 256) (sts := [])
    fun p hp => strayPageState_writes (mem_countUp.1 hp).2
  have hcounted : 0 < rd v strayCount := by
    have := hpos 0 (mem_countUp.2 (by decide))
    rwa [pageCount, pageEnt_strayPageState 0 (by decide)] at this
  have hv' : evtUp v = false := (evtUp_congr (hwork.parts .pwr (by decide)) (hwork.parts .rst (by decide))).trans hevt
  have hend := execPlateClearDone_of_cleared hup hbusy hv' (by rw [hbase]; exact hv)
  have hout := Host.Outcome.next.inj ((hend.symm.trans ht).trans (congrArg _ hu))
  have hkept : rd v strayCount = rd u strayCount := by
    rw [← hout, setFlag, setFld, setFld, rd_wr_ne _ _ (by decide), rd_wr_ne _ _ (by decide)]
  rw [hkept, hregs strayCount (by decide), hzero] at hcounted
  exact absurd hcounted (by decide)

end

section
/-! PROOFS. Issue of an instruction of a tile core without soft errors (R103), once for each way on: to the next word, to a
wait, to a stall. -/

namespace Sys2Proof.Machine

/-- Core `l` has not gone on from where core `k` stands: word, state and stall are the same. -/
def AtSameWord (k l : Core) : Prop := l.pc = k.pc ∧ l.st = k.st ∧ l.stall = k.stall

theorem AtSameWord.refl (k : Core) : AtSameWord k k := ⟨rfl, rfl, rfl⟩

theorem xw_atSameWord (k : Core) (n v : Nat) : AtSameWord k (xw k n v) := by
  unfold xw
  split <;> exact .refl k

@[simp] theorem coreOf_strike_none (s : State) (c d : Nat) : coreOf (strike s c {}) d = coreOf s d := by
  obtain ⟨hself, hother, _⟩ := strike_none s c
  by_cases h : d = c
  · rw [h, hself]
  · exact hother d h

theorem rd_strike_none {s : State} {c a : Nat} (h : a ∉ issueRegs c) : rd (strike s c {}) a = rd s a := by
  obtain ⟨_, _, _, hregs⟩ := strike_none s c
  refine (hregs a).resolve_right fun ⟨hce, _⟩ => h ?_
  simpa [issueRegs] using hce

theorem strike_none_same (s : State) (c : Nat) : SameBut [.cores, .csr] s (strike s c {}) :=
  (strike_none s c).2.2.1

theorem strike_none_others (s : State) (c : Nat) : OtherCores c s (strike s c {}) := (strike_none s c).2.1

section
variable {s u : State} {c : Fin 96} {cls op w : Nat} {eff : State → Nat → Nat → State × Flow} {l : Core}

theorem Issues.pc_lt (h : Issues s c cls op w) : (coreOf s c).pc < 32767 := h.2.2.2.2.2.2

/-- An effect that goes on to the next word. -/
theorem issue_next (hi : Issues s c cls op w) (heff : eff (strike s c {}) c w = (u, .next))
    (hl : AtSameWord (coreOf s c) (coreOf u c)) :
    issue cls op eff c {} s = setCore u c { coreOf u c with pc := (coreOf s c).pc + 1, wait := none } := by
  obtain ⟨hpc, hst, hstall⟩ := hl
  obtain ⟨hrun, hfree⟩ := hi.st
  have hword := hi.pc_lt
  rw [issue_legal hi, heff]
  simp only [applyFlow, advance, hpc, hst, hstall, hrun, hfree]
  rw [if_neg (by omega)]

/-- What an effect that goes on to the next word leaves, when it may change the parts `ps`. -/
theorem issue_next_keeps {ps : List Part} (hi : Issues s c cls op w) (heff : eff (strike s c {}) c w = (u, .next))
    (hl : AtSameWord (coreOf s c) (coreOf u c)) (hother : OtherCores c s u) (hparts : SameBut ps s u)
    (hW : Within [.cores] ps) :
    coreOf (issue cls op eff c {} s) c = { coreOf u c with pc := (coreOf s c).pc + 1, wait := none }
      ∧ OtherCores c s (issue cls op eff c {} s) ∧ SameBut ps s (issue cls op eff c {} s)
      ∧ ∀ a, rd (issue cls op eff c {} s) a = rd u a := by
  rw [issue_next hi heff hl]
  obtain ⟨hself, hrest, _⟩ := setCore_becomes c u { coreOf u c with pc := (coreOf s c).pc + 1, wait := none }
  exact ⟨hself, fun d hd => (hrest d hd).trans (hother d hd), setCore_same hW hparts, fun _ => rfl⟩

/-- An effect on the core alone that goes on to the next word. -/
theorem issue_moves (hi : Issues s c cls op w) (heff : eff (strike s c {}) c w = (u, .next)) (hu : CoreBecomes c s l u)
    (hl : AtSameWord (coreOf s c) l) : Moves c s l (issue cls op eff c {} s) := by
  rw [issue_legal hi, heff]
  exact moves_next hi hu hl

theorem issue_onCore_moves {f : Core → Nat → Core × Flow} (hi : Issues s c cls op w) (hf : f (coreOf s c) w = (l, .next))
    (hl : AtSameWord (coreOf s c) l) : Moves c s l (issue cls op (onCore f) c {} s) := by
  refine issue_moves hi ?_ (becomes_onCore s c l) hl
  simp [onCore, hf]

/-- An effect on the core alone that leaves the core waiting at its word. -/
theorem issue_waits {x : Wait} (hi : Issues s c cls op w) (heff : eff (strike s c {}) c w = (u, .wait x))
    (hu : CoreBecomes c s l u) :
    CoreBecomes c s { l with st := .waiting, wait := some x } (issue cls op eff c {} s) := by
  rw [issue_legal hi, heff]
  simp only [applyFlow, hu.1]
  exact hu.trans (coreBecomes_of_set (setCore_becomes c u _))

/-- An effect that leaves the core stalled at its word. -/
theorem issue_stalls {x : Stall} (hi : Issues s c cls op w) (heff : eff (strike s c {}) c w = (strike s c {}, .stall x)) :
    CoreBecomes c s { coreOf s c with stall := some x } (issue cls op eff c {} s) := by
  rw [issue_legal hi, heff]
  simp only [applyFlow, coreOf_strike_none]
  exact becomes_onCore s c _

end

end Sys2Proof.Machine
end

section
/-! PROOFS. Scalar registers (R103). -/

namespace Sys2Proof.Machine

theorem xr_lt (k : Core) (n : Nat) : xr k n < 2 ^ 64 := by
  unfold xr
  split
  · decide
  · exact BitVec.isLt _

/-- A scalar register keeps 64 bits. -/
theorem xw_mod (k : Core) (n v : Nat) : xw k n (v % 2 ^ 64) = xw k n v := by
  unfold xw
  rw [show BitVec.ofNat 64 (v % 2 ^ 64) = BitVec.ofNat 64 v from BitVec.eq_of_toNat_eq (by simp)]

theorem xr_xw_self (k : Core) (n v : Nat) : xr (xw k n v) n = if n = 0 then 0 else v % 2 ^ 64 := by
  unfold xr xw
  split <;> simp

theorem xr_xw_ne (k : Core) {n m : Nat} (v : Nat) (h : m ≠ n) : xr (xw k n v) m = xr k m := by
  unfold xr xw
  split
  · rfl
  · split
    · rfl
    · simp [h]

end Sys2Proof.Machine

open Sys2Proof Sys2Proof.Machine

/-- Settles O10: each of the six is an effect on Xd alone (`issue_onCore_moves`), and Xd keeps 64 bits of it (`xw_mod`). -/
theorem scalarArithmetic : Obligations.ScalarArithmetic := by
  intro s c w k d a b
  have writes (v : Nat) {op : Nat} {f : Core → Nat → Core × Flow} (hi : Issues s c 0 op w) (hf : f k w = (xw k d v, .next)) :
      Moves c s (xw k d v) (issue 0 op (onCore f) c {} s) :=
    issue_onCore_moves hi hf (xw_atSameWord k d v)
  refine ⟨fun hi => ⟨_, rfl, writes _ hi rfl⟩, fun hi => ⟨_, rfl, writes _ hi ?_⟩, fun hi => ⟨_, rfl, writes _ hi rfl⟩,
    fun hi => ⟨_, rfl, writes _ hi ?_⟩, fun hi => ⟨_, rfl, writes _ hi ?_⟩, fun hi => ⟨_, rfl, writes _ hi ?_⟩,
    fun n v => xr_xw_self k n v, fun n m v => xr_xw_ne k v⟩
  · rw [Nat.shiftLeft_eq]
  · rw [xw_mod]
  · have hb : b ≤ 2 ^ 64 := (xr_lt k _).le
    rw [xw_mod, Nat.add_sub_assoc hb]
  · rw [Nat.shiftLeft_eq, xw_mod]

end

section
/-! PROOFS. The scoreboard of a core (R100 to R102): its bits after each use, and what a wait on them does. -/

namespace Sys2Proof.Machine

theorem testBit_without64 (v m n : Nat) : (without64 v m).testBit n = (v.testBit n && decide (n < 64) && !m.testBit n) := by
  have hm : m % 2 ^ 64 < 2 ^ 64 := Nat.mod_lt _ (by decide)
  rw [without64, Nat.testBit_and, show 2 ^ 64 - 1 - m % 2 ^ 64 = 2 ^ 64 - (m % 2 ^ 64 + 1) by omega,
    Nat.testBit_two_pow_sub_succ hm, Nat.testBit_mod_two_pow]
  by_cases h : n < 64 <;> simp [h]

theorem sbClear_atSameWord (k : Core) (mask : Nat) : AtSameWord k (sbClear k mask) := ⟨rfl, rfl, rfl⟩

/-- A wait of one bit that is clear is not met. -/
theorem and_two_pow_ne_of_bit {v b : Nat} (h : bit v b = false) : v &&& 2 ^ b ≠ 2 ^ b := by
  intro e
  have hbit := congrArg (fun x => x.testBit b) e
  simp only [Nat.testBit_and, Nat.testBit_two_pow_self, Bool.and_true] at hbit
  rw [bit, hbit] at h
  cases h

section
variable {s : State} {c b mask : Nat} {clr : Bool}

theorem sbSet_of_clear (h : bit (coreOf s c).sb b = false) :
    sbSet s c b = setCore s c { coreOf s c with sb := (coreOf s c).sb ||| 2 ^ b } := by
  simp [sbSet, h, Nat.shiftLeft_eq]

/-- R101: a bit set again is only counted. -/
theorem sbSet_of_set (h : bit (coreOf s c).sb b = true) :
    sbSet s c b = bumpOcc s (Csr.CORE_SB_OVERSET (c / 24) (c % 24)) 1 := by
  simp [sbSet, h]

/-- R102: every bit is set and none has failed, or failures are let pass: the wait is over. -/
theorem waitFlow_ready (hset : (coreOf s c).sb &&& mask = mask)
    (hok : mask &&& (coreOf s c).sbFail = 0 ∨ flag s (Csr.CORE_CTRL (c / 24) (c % 24)) 2 = true) :
    waitFlow s c mask clr = (if clr then setCore s c (sbClear (coreOf s c) mask) else s, .next) := by
  rcases hok with h | h <;> simp [waitFlow, hset, h]

/-- R102: not every bit is set: the core waits. -/
theorem waitFlow_waits (h : (coreOf s c).sb &&& mask ≠ mask) : waitFlow s c mask clr = (s, .wait (.sb mask clr)) := by
  simp [waitFlow, h]

end

/-- An occurrence that leaves its counter below its limit is only counted. -/
theorem bumpOcc_of_lt {s : State} {a n : Nat} (h : rd s a + n < 2 ^ 32 - 1) : bumpOcc s a n = wr s a (rd s a + n) := by
  unfold bumpOcc bumpRaw
  rw [if_neg (by omega), Nat.min_eq_left (by omega)]

section
variable {s : State} {c : Fin 96} {op w : Nat}

/-- The bit that lets failures pass reads as before a soft error could be met. -/
theorem flag_ctrl_strike_none :
    flag (strike s c {}) (Csr.CORE_CTRL (c / 24) (c % 24)) 2 = flag s (Csr.CORE_CTRL (c / 24) (c % 24)) 2 := by
  rw [flag, rd_strike_none (by simp [issueRegs, Csr.CORE_CTRL, Csr.CORE_TS_CE, Csr.ACC_CE]), flag]

/-- R102: an instruction that waits on bits that are all there goes on. -/
theorem issue_waitFlow_ready {mask : Nat} {clr : Bool} {eff : State → Nat → Nat → State × Flow} (hi : Issues s c 5 op w)
    (heff : eff (strike s c {}) c w = waitFlow (strike s c {}) c mask clr) (hset : (coreOf s c).sb &&& mask = mask)
    (hok : mask &&& (coreOf s c).sbFail = 0 ∨ flag s (Csr.CORE_CTRL (c / 24) (c % 24)) 2 = true) :
    Moves c s (if clr then sbClear (coreOf s c) mask else coreOf s c) (issue 5 op eff c {} s) := by
  have hflow := heff.trans (waitFlow_ready (clr := clr) (by rwa [coreOf_strike_none])
    (by rwa [coreOf_strike_none, flag_ctrl_strike_none]))
  rw [coreOf_strike_none] at hflow
  cases clr with
  | false => simpa using issue_moves hi (by simpa using hflow) (strike_none s c) (.refl _)
  | true => simpa using issue_moves hi (by simpa using hflow) (becomes_onCore s c _) (sbClear_atSameWord _ _)

/-- R102: an instruction that waits on bits that are not all there leaves the core waiting. -/
theorem issue_waitFlow_waits {mask : Nat} {clr : Bool} {eff : State → Nat → Nat → State × Flow} (hi : Issues s c 5 op w)
    (heff : eff (strike s c {}) c w = waitFlow (strike s c {}) c mask clr) (h : (coreOf s c).sb &&& mask ≠ mask) :
    CoreBecomes c s { coreOf s c with st := .waiting, wait := some (.sb mask clr) } (issue 5 op eff c {} s) :=
  issue_waits hi (heff.trans (waitFlow_waits (by rwa [coreOf_strike_none]))) (strike_none s c)

variable {eff : State → Nat → Nat → State × Flow}

/-- R101: setting a bit that is set counts in CORE_SB_OVERSET. -/
theorem issue_sbSet_counts {o b : Nat} (ho : o = Csr.CORE_SB_OVERSET (c / 24) (c % 24)) (hi : Issues s c 5 op w)
    (heff : eff (strike s c {}) c w = (sbSet (strike s c {}) c b, .next)) (hset : bit (coreOf s c).sb b = true)
    (hlt : rd s o + 1 < 2 ^ 32 - 1) :
    rd (issue 5 op eff c {} s) o = rd s o + 1
      ∧ coreOf (issue 5 op eff c {} s) c = { coreOf s c with pc := (coreOf s c).pc + 1, wait := none }
      ∧ OtherCores c s (issue 5 op eff c {} s) ∧ SameBut [.cores, .csr] s (issue 5 op eff c {} s)
      ∧ OtherRegs (o :: issueRegs c) s (issue 5 op eff c {} s) := by
  have hread : rd (strike s c {}) o = rd s o :=
    rd_strike_none (by simp [ho, issueRegs, Csr.CORE_SB_OVERSET, Csr.CORE_TS_CE, Csr.ACC_CE])
  rw [sbSet_of_set (by rwa [coreOf_strike_none]), ← ho, bumpOcc_of_lt (by rwa [hread]), hread] at heff
  have hcore (d : Nat) : coreOf (wr (strike s c {}) o (rd s o + 1)) d = coreOf s d := by simp
  obtain ⟨hself, hother, hparts, hregs⟩ := issue_next_keeps hi heff (by rw [hcore]; exact .refl _) (fun d _ => hcore d)
    (wr_same (by decide) (strike_none_same s c)) (by decide)
  refine ⟨?_, by rw [hself, hcore], hother, hparts, fun a ha => ?_⟩
  · rw [hregs, rd_wr, if_pos rfl, Nat.mod_eq_of_lt (by omega)]
  · obtain ⟨hne, hce⟩ := List.ne_and_not_mem_of_not_mem_cons ha
    rw [hregs, rd_wr, if_neg hne, rd_strike_none hce]

/-- No soft error moves a core to another group. -/
theorem fld_group_strike_none (s : State) (c d : Nat) :
    fld (strike s c {}) (Csr.CORE_CFG (d / 24) (d % 24)) 5 0 = fld s (Csr.CORE_CFG (d / 24) (d % 24)) 5 0 := by
  rw [fld, rd_strike_none (by simp [issueRegs, Csr.CORE_CFG, Csr.CORE_TS_CE, Csr.ACC_CE]; omega), fld]

/-- The placement engine is sent the core's group and the marker of the word. -/
def sendMark (s : State) (c w : Nat) : State :=
  { s with triggers := s.triggers ++ [(fld s (Csr.CORE_CFG (c / 24) (c % 24)) 5 0, bits w 53 38)] }

theorem sendMark_same {ps : List Part} {s₀ : State} (hW : Within [.triggers] ps) (h : SameBut ps s₀ s) (d : Nat) :
    SameBut ps s₀ (sendMark s d w) := (same_mk_triggers hW).2 h

/-- R103, R207: a marker is sent. -/
theorem issue_sendMark (hi : Issues s c 5 op w) (heff : eff (strike s c {}) c w = (sendMark (strike s c {}) c w, .next)) :
    (issue 5 op eff c {} s).triggers = s.triggers ++ [(fld s (Csr.CORE_CFG (c / 24) (c % 24)) 5 0, bits w 53 38)]
      ∧ coreOf (issue 5 op eff c {} s) c = { coreOf s c with pc := (coreOf s c).pc + 1, wait := none }
      ∧ OtherCores c s (issue 5 op eff c {} s) ∧ SameBut [.cores, .csr, .triggers] s (issue 5 op eff c {} s)
      ∧ OtherRegs (issueRegs c) s (issue 5 op eff c {} s) := by
  have hcore (d : Nat) : coreOf (sendMark (strike s c {}) c w) d = coreOf s d := coreOf_strike_none s c d
  have hword : AtSameWord (coreOf s c) (coreOf (sendMark (strike s c {}) c w) c) := by rw [hcore]; exact .refl _
  have hlist : (strike s c {}).triggers = s.triggers := strike_none_same s c .triggers (by decide)
  obtain ⟨hself, hother, hparts, hregs⟩ := issue_next_keeps (ps := [.cores, .csr, .triggers]) hi heff hword
    (fun d _ => hcore d) (sendMark_same (by decide) ((strike_none_same s c).mono (by decide)) c) (by decide)
  refine ⟨?_, by rw [hself, hcore], hother, hparts, fun a ha => (hregs a).trans (rd_strike_none ha)⟩
  rw [issue_next hi heff hword, setCore_triggers, sendMark, hlist, fld_group_strike_none]

end

end Sys2Proof.Machine

open Sys2Proof Sys2Proof.Machine

/-- Settles O12: SYNC.WAIT, WAITM and DRAIN go on or wait (`issue_waitFlow_ready`, `issue_waitFlow_waits`); SET, CLR, TEST and
SIG are effects on the core alone; the overset counter and the list of markers grow by what `issue_next` leaves of them. -/
theorem scoreboardUse : Obligations.ScoreboardUse := by
  constructor
  · intro s c w k ready
    refine ⟨fun hi h => ⟨_, rfl, ?_⟩, fun hi h => ⟨_, rfl, ?_⟩, fun hi h => ⟨_, rfl, ?_⟩,
      fun hi h => ⟨_, rfl, ?_⟩, fun hi h => ⟨_, rfl, ?_⟩, fun hi h => ⟨_, rfl, ?_⟩⟩
    · exact issue_waitFlow_ready hi (by rw [Nat.one_shiftLeft]) h.1 h.2
    · exact issue_waitFlow_waits hi (by rw [Nat.one_shiftLeft]) (and_two_pow_ne_of_bit h)
    · exact issue_waitFlow_ready hi (by rw [coreOf_strike_none]) h.1 h.2
    · exact issue_waitFlow_waits hi (by rw [coreOf_strike_none]) h
    · exact issue_moves hi (by simp [show (coreOf s c).flight = [] from h]) (strike_none s c) (.refl k)
    · exact issue_waits hi (by simp [show (coreOf s c).flight ≠ [] from h]) (strike_none s c)
  · intro s c w k b o
    refine ⟨fun hi h => ⟨_, rfl, ?_⟩, fun hi h hlt => ⟨_, rfl, ?_⟩, fun hi => ⟨_, rfl, ?_⟩,
      fun m n => ⟨testBit_without64 .., testBit_without64 ..⟩, fun hi => ⟨_, rfl, ?_⟩, fun hi h => ⟨_, rfl, ?_⟩,
      fun hi => ⟨_, rfl, ?_⟩⟩
    · exact issue_moves hi (by rw [sbSet_of_clear (by rwa [coreOf_strike_none]), coreOf_strike_none])
        (becomes_onCore s c _) ⟨rfl, rfl, rfl⟩
    · exact issue_sbSet_counts rfl hi rfl h hlt
    · exact issue_onCore_moves hi (by rw [Nat.one_shiftLeft]) (sbClear_atSameWord k _)
    · exact issue_onCore_moves hi rfl (xw_atSameWord k _ _)
    · exact issue_onCore_moves hi (if_neg (by omega)) ⟨rfl, rfl, rfl⟩
    · exact issue_sendMark hi rfl

end

section
/-! PROOFS. Signals, barriers and cores that go on (R82, R103, R105): commands that change cores and nothing else. -/

namespace Sys2Proof.Machine

/-- Core c becomes `k`, and nothing else changes. -/
def SetsCore (c : Nat) (s : State) (k : Core) (t : State) : Prop :=
  coreOf t c = k ∧ OtherCores c s t ∧ SameBut [.cores] s t

theorem setCore_sets (s : State) (c : Nat) (k : Core) : SetsCore c s k (setCore s c k) := setCore_becomes c s k

theorem SetsCore.trans {s t u : State} {c : Nat} {k l : Core} (h : SetsCore c s k t) (g : SetsCore c t l u) :
    SetsCore c s l u :=
  ⟨g.1, fun d hd => (g.2.1 d hd).trans (h.2.1 d hd), h.2.2.trans g.2.2⟩

/-- The core record that stands at the next word, running. -/
def Core.goesOn (k : Core) : Core := { k with st := .running, wait := none, stall := none, pc := k.pc + 1 }

theorem advance_eq_setCore {s : State} {c w : Nat} (h : (coreOf s c).pc < 32767) :
    advance s c w = setCore s c (coreOf s c).goesOn := by
  simp only [advance, Core.goesOn]
  rw [if_neg (by omega)]

/-! ### Barriers -/

/-- A soft error takes no core from its group. -/
theorem barGroup_strike_none (s : State) (c g : Nat) : barGroup (strike s c {}) g = barGroup s g := by
  have hrst : (strike s c {}).rst = s.rst := strike_none_same s c .rst (by decide)
  refine List.filter_congr fun d _ => ?_
  have hreset : inResetBit (strike s c {}) (d / 24) = inResetBit s (d / 24) := by simp only [inResetBit, hrst]
  rw [fld_group_strike_none, hreset]

theorem barGroup_nodup (s : State) (g : Nat) : (barGroup s g).Nodup := List.nodup_range.filter _

/-- A core released from its barrier stands at the next word. -/
def Core.released (k : Core) : Core := { k with bar := none }.goesOn

theorem releaseBar_cons {s : State} {c : Nat} {cs : List Nat} (h : (coreOf s c).pc < 32767) :
    ∃ t, SetsCore c s (coreOf s c).released t ∧ releaseBar s (c :: cs) = releaseBar t cs := by
  refine ⟨_, ?_, by rw [releaseBar]⟩
  have hself : coreOf (setCore s c { coreOf s c with bar := none }) c = { coreOf s c with bar := none } :=
    (setCore_sets s c _).1
  rw [advance_eq_setCore (by rw [hself]; exact h), hself]
  exact (setCore_sets s c _).trans (setCore_sets _ c _)

/-- R103: every core of the list is released, and no other changes. -/
theorem releaseBar_releases : ∀ (cs : List Nat) (s : State), cs.Nodup → (∀ d ∈ cs, (coreOf s d).pc < 32767) →
    (∀ d ∈ cs, coreOf (releaseBar s cs) d = (coreOf s d).released) ∧ (∀ d, d ∉ cs → coreOf (releaseBar s cs) d = coreOf s d)
      ∧ SameBut [.cores] s (releaseBar s cs)
  | [], s, _, _ => ⟨nofun, fun _ _ => rfl, .refl _ s⟩
  | c :: cs, s, hnodup, hpc => by
    obtain ⟨hc, hcs⟩ := List.nodup_cons.1 hnodup
    obtain ⟨t, ⟨hself, hother, hparts⟩, heq⟩ := releaseBar_cons (cs := cs) (hpc c (.head _))
    have hne : ∀ d ∈ cs, d ≠ c := fun d hd e => hc (e ▸ hd)
    obtain ⟨hin, hout, hrest⟩ := releaseBar_releases cs t hcs fun d hd => by
      rw [hother d (hne d hd)]; exact hpc d (.tail _ hd)
    rw [heq]
    refine ⟨fun d hd => ?_, fun d hd => ?_, hparts.trans hrest⟩
    · rcases List.mem_cons.1 hd with rfl | hd
      · rw [hout d hc, hself]
      · rw [hin d hd, hother d (hne d hd)]
    · obtain ⟨hdc, hdcs⟩ := List.ne_and_not_mem_of_not_mem_cons hd
      rw [hout d hdcs, hother d hdc]

theorem execBarComplete_arrived {s : State} {g : Fin 64} {id : Fin 256} (hawake : awake s = true) (hsome : barGroup s g ≠ [])
    (harrived : ∀ d ∈ barGroup s g, (coreOf s d).bar = some id.val) :
    execBarComplete g id s = .next (releaseBar s (barGroup s g)) := by
  have hall : (barGroup s g).all (fun d => decide ((coreOf s d).bar = some id.val)) = true := by
    simpa [List.all_eq_true] using harrived
  simp only [execBarComplete, hall, hawake, List.isEmpty_iff, hsome, not_false_eq_true, and_self, if_true]

/-! ### Signals -/

section
variable {s : State} {c : Fin 96} {mark tgt b : Nat} {rest : List (Nat × Nat × Nat)}

theorem execSyncSigDeliver_sets (hawake : awake s = true) (hsigs : (coreOf s c).sigs = (mark, tgt, b) :: rest)
    (hdone : ∀ f ∈ (coreOf s c).flight, mark ≤ f.seq) (hup : inResetBit s (tgt / 24) = false)
    (hon : domainOff s (tgt / 24) = false) :
    execSyncSigDeliver c s = .next (sbSet (setCore s c { coreOf s c with sigs := rest }) tgt b) := by
  have hdone' : (coreOf s c).flight.any (fun f => decide (f.seq < mark)) = false := by simpa using hdone
  simp [execSyncSigDeliver, hsigs, hdone', hawake, hup, hon]

theorem execSyncSigDeliver_drops (hawake : awake s = true) (hsigs : (coreOf s c).sigs = (mark, tgt, b) :: rest)
    (hdone : ∀ f ∈ (coreOf s c).flight, mark ≤ f.seq) (hreset : inResetBit s (tgt / 24) = true) :
    execSyncSigDeliver c s = .next (setCore s c { coreOf s c with sigs := rest }) := by
  have hdone' : (coreOf s c).flight.any (fun f => decide (f.seq < mark)) = false := by simpa using hdone
  simp [execSyncSigDeliver, hsigs, hdone', hawake, hreset]

/-- Bit b of core tgt sets with the signal of core c that brought it gone; both may be one core. -/
theorem sbSet_after_signal {l : Core} (hl : l = { coreOf s c with sigs := rest }) (hb : bit (coreOf s tgt).sb b = false) :
    coreOf (sbSet (setCore s c l) tgt b) tgt = { coreOf s tgt with
        sb := (coreOf s tgt).sb ||| 2 ^ b, sigs := if tgt = c then rest else (coreOf s tgt).sigs }
      ∧ (tgt ≠ c → coreOf (sbSet (setCore s c l) tgt b) c = l)
      ∧ (∀ d, d ≠ c.val → d ≠ tgt → coreOf (sbSet (setCore s c l) tgt b) d = coreOf s d)
      ∧ SameBut [.cores] s (sbSet (setCore s c l) tgt b) := by
  obtain ⟨_, _, hparts⟩ := setCore_sets s c l
  have htgt : coreOf (setCore s c l) tgt = if tgt = c then l else coreOf s tgt := coreOf_setCore s c tgt l
  have hclear : bit (coreOf (setCore s c l) tgt).sb b = false := by
    rw [htgt]
    split
    · next e => rw [hl, ← e]; exact hb
    · exact hb
  rw [sbSet_of_clear hclear, htgt]
  refine ⟨?_, fun hne => ?_, fun d hdc hdt => ?_, hparts.trans (setCore_sets _ tgt _).2.2⟩
  · rw [coreOf_setCore, if_pos rfl]
    split
    · next e => rw [hl, ← e]
    · rfl
  · rw [coreOf_setCore, if_neg (Ne.symm hne), coreOf_setCore, if_pos rfl]
  · rw [coreOf_setCore, if_neg hdt, coreOf_setCore, if_neg hdc]

end

/-! ### Waits and stalls (R105) -/

/-- What a core stalls for is there. -/
def StallOver (k : Core) : Prop :=
  (∃ q, k.stall = some (.queue q) ∧ (strmOf k q).queue.length < 16) ∨ (k.stall = some .trqEmpty ∧ k.trq ≠ [])
    ∨ (k.stall = some .drain ∧ k.flight = []) ∨ ∃ mm, k.stall = some (.unit mm) ∧ unitStalled k mm = false

section
variable {s : State} {c : Fin 96} (hworks : works s (c / 24) = true) (hup : inResetBit s (c / 24) = false)
include hworks hup

theorem execCoreStallResume_sb {mask : Nat} {clr : Bool} (hst : (coreOf s c).st = .waiting)
    (hwait : (coreOf s c).wait = some (.sb mask clr)) (hset : (coreOf s c).sb &&& mask = mask)
    (hok : mask &&& (coreOf s c).sbFail = 0) :
    execCoreStallResume c s =
      .next (advance (if clr then setCore s c (sbClear (coreOf s c) mask) else s) c (fetchWord (coreOf s c))) := by
  simp [execCoreStallResume, hworks, hup, hst, hwait, hset, waitFlow_ready hset (.inl hok), applyFlow]

theorem execCoreStallResume_drain (hst : (coreOf s c).st = .waiting) (hwait : (coreOf s c).wait = some .drain)
    (hflight : (coreOf s c).flight = []) :
    execCoreStallResume c s = .next (advance s c (fetchWord (coreOf s c))) := by
  simp [execCoreStallResume, hworks, hup, hst, hwait, hflight]

theorem execCoreStallResume_stall (hst : (coreOf s c).st = .running) (hover : StallOver (coreOf s c)) :
    execCoreStallResume c s = .next (setCore s c { coreOf s c with stall := none }) := by
  rcases hover with ⟨q, hstall, hroom⟩ | ⟨hstall, hsome⟩ | ⟨hstall, hdone⟩ | ⟨mm, hstall, hfree⟩
  · simp [execCoreStallResume, hworks, hup, hst, hstall, strmRoom, hroom]
  · simp [execCoreStallResume, hworks, hup, hst, hstall, hsome]
  · simp [execCoreStallResume, hworks, hup, hst, hstall, hdone]
  · simp [execCoreStallResume, hworks, hup, hst, hstall, hfree]

end

end Sys2Proof.Machine

open Sys2Proof Sys2Proof.Machine

/-- Settles O13: what each of the four commands answers where its conditions hold, and what that leaves: of a signal
`sbSet_after_signal`, of a barrier `releaseBar_releases`, of a wait and a stall one core that is set. -/
theorem signalsAndBarriers : Obligations.SignalsAndBarriers := by
  refine ⟨fun s c mark tgt b rest hawake hsigs hdone => ⟨fun hup hon hb => ?_, fun hreset => ?_⟩, ?_, ?_⟩
  · exact ⟨_, execSyncSigDeliver_sets hawake hsigs hdone hup hon, sbSet_after_signal rfl hb⟩
  · exact ⟨_, execSyncSigDeliver_drops hawake hsigs hdone hreset, setCore_sets s c _⟩
  · intro s c w g id k
    have hgroup : barGroup (strike s c {}) (fld (strike s c {}) (Csr.CORE_CFG (c / 24) (c % 24)) 5 0)
        = barGroup s (fld s (Csr.CORE_CFG (c / 24) (c % 24)) 5 0) := by rw [barGroup_strike_none, fld_group_strike_none]
    refine ⟨fun hi halone => ⟨_, rfl, ?_⟩, fun hi hmore => ⟨_, rfl, ?_⟩, fun hawake hsome harrived => ?_⟩
    · exact issue_moves hi (if_pos (hgroup.trans halone)) (strike_none s c) (.refl k)
    · refine issue_waits (l := { k with bar := some (bits w 53 46) }) hi ((if_neg (hgroup ▸ hmore)).trans ?_)
        (becomes_onCore s c _)
      rw [coreOf_strike_none]
    · exact ⟨_, execBarComplete_arrived hawake hsome fun d hd => (harrived d hd).1,
        releaseBar_releases _ s (barGroup_nodup s g) fun d hd => (harrived d hd).2⟩
  · intro s c k on hworks hup hpc
    refine ⟨fun mask clr hst hwait hset hok => ⟨_, execCoreStallResume_sb hworks hup hst hwait hset hok, ?_⟩,
      fun hst hwait hflight => ⟨_, execCoreStallResume_drain hworks hup hst hwait hflight, ?_⟩,
      fun hst hover => ⟨_, execCoreStallResume_stall hworks hup hst hover, setCore_sets s c _⟩⟩
    · cases clr with
      | false =>
        rw [if_neg nofun, if_neg nofun, advance_eq_setCore hpc]
        exact setCore_sets s c _
      | true =>
        obtain ⟨hself, _⟩ := setCore_sets s c (sbClear k mask)
        rw [if_pos rfl, if_pos rfl, advance_eq_setCore (by rw [hself]; exact hpc), hself]
        exact (setCore_sets s c _).trans (setCore_sets _ c _)
    · rw [advance_eq_setCore hpc]
      exact setCore_sets s c _

end

section
/-! PROOFS. What completing and cancelling descriptors does to a core (R98, R99): it marks scoreboard bits, and takes none back. -/

namespace Sys2Proof.Machine

/-! ### Scoreboard marks -/

/-- Of the cores only core c changes, and of it only the scoreboard, whose bits stay set. -/
structure Marks (c : Nat) (s t : State) : Prop where
  others : OtherCores c s t
  rest : coreOf t c =
    { coreOf s c with sb := (coreOf t c).sb, sbFail := (coreOf t c).sbFail, sbStatus := (coreOf t c).sbStatus }
  sb : ∀ b, bit (coreOf s c).sb b = true → bit (coreOf t c).sb b = true
  fail : ∀ b, bit (coreOf s c).sbFail b = true → bit (coreOf t c).sbFail b = true

theorem bit_or_left {v b : Nat} (m : Nat) (h : bit v b = true) : bit (v ||| m) b = true := by
  rw [bit] at h
  rw [bit, Nat.testBit_or, h, Bool.true_or]

theorem bit_or_two_pow (v b : Nat) : bit (v ||| 2 ^ b) b = true := by
  rw [bit, Nat.testBit_or, Nat.testBit_two_pow_self, Bool.or_true]

section
variable {s t u : State} {c b n : Nat}

theorem Marks.of_sameCores (h : Part.cores.same s t) : Marks c s t where
  others d _ := h d
  rest := by rw [h c]
  sb b hb := by rwa [h c]
  fail b hb := by rwa [h c]

theorem Marks.trans (h : Marks c s t) (k : Marks c t u) : Marks c s u where
  others d hd := (k.others d hd).trans (h.others d hd)
  rest := by rw [k.rest, h.rest]
  sb b hb := k.sb b (h.sb b hb)
  fail b hb := k.fail b (h.fail b hb)

theorem Marks.refl (c : Nat) (s : State) : Marks c s s := .of_sameCores fun _ => rfl

theorem Marks.ite {p : Prop} [Decidable p] (h : Marks c s t) (k : Marks c s u) : Marks c s (if p then t else u) := by
  split
  · exact h
  · exact k

theorem sbSet_marks : Marks c s (sbSet s c b) := by
  cases hb : bit (coreOf s c).sb b with
  | true =>
    rw [sbSet_of_set hb]
    exact .of_sameCores (bumpOcc_same (.refl _) (.refl _ s) .cores (by decide))
  | false =>
    rw [sbSet_of_clear hb]
    obtain ⟨hself, hother, _⟩ := setCore_sets s c { coreOf s c with sb := (coreOf s c).sb ||| 2 ^ b }
    refine ⟨hother, ?_, fun n hn => ?_, fun n hn => ?_⟩ <;> rw [hself]
    · exact bit_or_left _ hn
    · exact hn

theorem bit_sbSet : bit (coreOf (sbSet s c b) c).sb b = true := by
  cases hb : bit (coreOf s c).sb b with
  | true => exact sbSet_marks.sb b hb
  | false =>
    rw [sbSet_of_clear hb, (setCore_sets s c _).1]
    exact bit_or_two_pow _ b

theorem sbFailSet_marks : Marks c s (sbFailSet s c b n) := by
  obtain ⟨hself, hother, _⟩ := setCore_sets s c
    { coreOf s c with
      sbFail := (coreOf s c).sbFail ||| 1 <<< b
      sbStatus := smSet 0 (coreOf s c).sbStatus b n }
  refine ⟨hother, ?_, fun n hn => ?_, fun n hn => ?_⟩ <;> rw [sbFailSet, hself]
  · exact hn
  · exact bit_or_left _ hn

theorem bit_sbFailSet : bit (coreOf (sbFailSet s c b n) c).sbFail b = true := by
  rw [sbFailSet, (setCore_sets s c _).1, Nat.one_shiftLeft]
  exact bit_or_two_pow _ b

end

/-! ### Completions -/

section
variable {s : State} {c t : Nat} {b : Bytes} {r : Report}

/-- The scoreboard bit that a descriptor names. -/
abbrev descBit (b : Bytes) : Nat := bits (fieldAt b 0 4) 20 15

theorem strmCapture_marks {tag : Nat} : Marks c s (strmCapture s c t tag r) :=
  .of_sameCores (strmCapture_same (.refl _) (.refl _ s) .cores (by decide))

theorem raise_marks {src code d0 d1 : Nat} : Marks c s (raise s src code d0 d1) :=
  .of_sameCores (raise_same (.refl _) (.refl _ s) .cores (by decide))

/-- A completion of a descriptor that names a bit sets it, and when it failed the fail bit too. -/
theorem strmDuties_marks :
    Marks c s (strmDuties s c t b r)
      ∧ (bit (fieldAt b 0 4) 21 = true → r.status ≠ 0 → bit (coreOf (strmDuties s c t b r) c).sb (descBit b) = true
          ∧ bit (coreOf (strmDuties s c t b r) c).sbFail (descBit b) = true) := by
  unfold strmDuties
  extract_lets w tag s₁ s₂
  have hset : Marks c s s₁ := .ite sbSet_marks (.refl c s)
  have hfail : Marks c s₁ s₂ := .ite (.trans (.ite sbFailSet_marks (.refl c s₁)) strmCapture_marks) (.refl c s₁)
  have hraise : Marks c s₂ (if bit w 14 then raise s₂ (strmSrc c) r.status (tag <<< 32 + r.pfx) r.map else s₂) :=
    .ite raise_marks (.refl c s₂)
  refine ⟨hset.trans (hfail.trans hraise), fun h21 hst => ⟨(hfail.trans hraise).sb _ ?_, hraise.fail _ ?_⟩⟩
  · rw [show s₁ = sbSet s c (descBit b) from if_pos h21]
    exact bit_sbSet
  · rw [show s₂ = strmCapture (sbFailSet s₁ c (descBit b) r.status) c t tag r from
      (if_pos hst).trans (by rw [if_pos h21])]
    exact strmCapture_marks.fail _ bit_sbFailSet

theorem strmComplete_marks {eph : Option (Nat × Nat)} :
    Marks c s (strmComplete s c t b eph r)
      ∧ (bit (fieldAt b 0 4) 21 = true → r.status ≠ 0 → bit (coreOf (strmComplete s c t b eph r) c).sb (descBit b) = true
          ∧ bit (coreOf (strmComplete s c t b eph r) c).sbFail (descBit b) = true) := by
  obtain ⟨hmarks, hset⟩ := strmDuties_marks (s := s) (c := c) (t := t) (b := b) (r := r)
  cases eph with
  | none => exact ⟨hmarks, hset⟩
  | some e => exact ⟨hmarks.trans (.of_sameCores fun _ => rfl), hset⟩

end

/-- R99: every queued descriptor that names a bit sets it and its fail bit. -/
theorem strmDropQueued_marks {c t : Nat} : ∀ (es : List QEnt) (s : State),
    Marks c s (strmDropQueued s c t es)
      ∧ ∀ b e, QEnt.desc b e ∈ es → bit (fieldAt b 0 4) 21 = true →
          bit (coreOf (strmDropQueued s c t es) c).sb (descBit b) = true
          ∧ bit (coreOf (strmDropQueued s c t es) c).sbFail (descBit b) = true
  | [], s => ⟨.of_sameCores fun _ => rfl, nofun⟩
  | .push a :: es, s => by
    obtain ⟨hmarks, hbits⟩ := strmDropQueued_marks es (strmPushFailed s c t 0x0E)
    refine ⟨strmCapture_marks.trans hmarks, fun b e hmem => hbits b e ?_⟩
    simpa using hmem
  | .desc b eph :: es, s => by
    obtain ⟨hmarks, hbits⟩ := strmDropQueued_marks es (strmComplete s c t b eph (wholeReport 0x0E))
    obtain ⟨hfirst, hset⟩ := strmComplete_marks (s := s) (c := c) (t := t) (b := b) (r := wholeReport 0x0E) (eph := eph)
    refine ⟨hfirst.trans hmarks, fun b' e hmem h21 => ?_⟩
    rcases List.mem_cons.1 hmem with heq | hmem
    · obtain ⟨rfl, rfl⟩ := QEnt.desc.inj heq
      obtain ⟨hsb, hfail⟩ := hset h21 (by decide)
      exact ⟨hmarks.sb _ hsb, hmarks.fail _ hfail⟩
    · exact hbits b' e hmem h21

theorem strmOf_setStrm (k : Core) (t : Nat) (v : Strm) : strmOf (setStrm k t v) t = v := smGet_smSet_eq k.strm t v

/-- R99: a cancelled streamer holds no queue, and what it has in progress stops. -/
theorem strmCancelAll_cancels (s : State) (c t : Nat) :
    (strmOf (coreOf (strmCancelAll s c t) c) t).queue = []
      ∧ (strmOf (coreOf (strmCancelAll s c t) c) t).prog = stopProgs (strmOf (coreOf s c) t).prog
      ∧ AtSameWord (coreOf s c) (coreOf (strmCancelAll s c t) c)
      ∧ (∀ b e, QEnt.desc b e ∈ (strmOf (coreOf s c) t).queue → bit (fieldAt b 0 4) 21 = true →
          bit (coreOf (strmCancelAll s c t) c).sb (descBit b) = true
          ∧ bit (coreOf (strmCancelAll s c t) c).sbFail (descBit b) = true)
      ∧ OtherCores c s (strmCancelAll s c t) := by
  obtain ⟨hself, hother, _⟩ := setCore_sets s c
    (setStrm (coreOf s c) t { queue := [], prog := stopProgs (strmOf (coreOf s c) t).prog })
  obtain ⟨hmarks, hbits⟩ := strmDropQueued_marks (c := c) (t := t) (strmOf (coreOf s c) t).queue (setCore s c
    (setStrm (coreOf s c) t { queue := [], prog := stopProgs (strmOf (coreOf s c) t).prog }))
  have hrest := hmarks.rest
  rw [hself] at hrest
  have hstrm : strmOf (coreOf (strmCancelAll s c t) c) t = { queue := [], prog := stopProgs (strmOf (coreOf s c) t).prog } := by
    rw [strmCancelAll, hrest]
    exact strmOf_setStrm ..
  refine ⟨by rw [hstrm], by rw [hstrm], ?_, hbits, fun d hd => (hmarks.others d hd).trans (hother d hd)⟩
  rw [strmCancelAll, hrest]
  exact ⟨rfl, rfl, rfl⟩

end Sys2Proof.Machine
end

section
/-! PROOFS. STRM.ISSUE, STRM.CANCEL and the completion of a descriptor (R88, R96 to R98, R103, R111). -/

namespace Sys2Proof.Machine

/-! ### Little-endian fields (R6) -/

/-- `n` bytes hold a number modulo 2^8n. -/
theorem toLE_mod : ∀ (n v m : Nat), 8 * n ≤ m → toLE (v % 2 ^ m) n = toLE v n
  | 0, _, _, _ => rfl
  | n + 1, v, m, h => by
    have hm : 2 ^ m = 256 * 2 ^ (m - 8) := by rw [show (256 : Nat) = 2 ^ 8 from rfl, ← Nat.pow_add]; congr 1; omega
    have hbyte : BitVec.ofNat 8 (v % 2 ^ m) = BitVec.ofNat 8 v := by
      refine BitVec.eq_of_toNat_eq ?_
      rw [BitVec.toNat_ofNat, BitVec.toNat_ofNat, hm]
      exact Nat.mod_mod_of_dvd v (Nat.dvd_mul_right ..)
    have hrest : v % 2 ^ m / 256 = v / 256 % 2 ^ (m - 8) := by rw [hm, Nat.mod_mul_right_div_self]
    rw [toLE, toLE, hbyte, hrest, toLE_mod n (v / 256) (m - 8) (by omega)]

theorem fromLE_lt : ∀ bs : Bytes, fromLE bs < 256 ^ bs.length
  | [] => by decide
  | b :: bs => by
    have hb := b.isLt
    have hrest := fromLE_lt bs
    rw [fromLE, List.length_cons, Nat.pow_succ]
    omega

theorem fieldAt_lt (bs : Bytes) (o n : Nat) : fieldAt bs o n < 256 ^ n := by
  simpa [fieldAt] using fromLE_lt (bytesAt bs o n)

/-! ### Reads of a sound tile store -/

/-- R85: where every unit corrects, a read is of the stored bytes and meets no error. -/
theorem tsRead_of_sound {k : Core} (h : k.tsBad = []) (a n : Nat) : tsRead k a n = (memRead k.ts a n, []) := by
  simp [tsRead, h]

/-! ### STRM.ISSUE -/

section
variable {s : State} {c w : Nat} (hfits : ¬ (xr (coreOf s c) (bits w 51 48) % 64 ≠ 0 ∨ 2 ^ 22 ≤ xr (coreOf s c) (bits w 51 48)))
  (hdrain : bit w 39 = true → (coreOf s c).flight = [])
include hfits hdrain

theorem strmIssueEff_queues (hroom : (strmOf (coreOf s c) (bits w 53 52)).queue.length < 16) (hsound : (coreOf s c).tsBad = []) :
    strmIssueEff s c w = (setCore s c (strmEnqueue (coreOf s c) (bits w 53 52)
      (.desc (addDescAddrs (memRead (coreOf s c).ts (xr (coreOf s c) (bits w 51 48)) 64) (xr (coreOf s c) (bits w 47 44))
        (xr (coreOf s c) (bits w 43 40))) none)), .next) := by
  have hgo : ¬ (bit w 39 = true ∧ ¬ (coreOf s c).flight.isEmpty = true) := fun ⟨h, hf⟩ => hf (by rw [hdrain h]; rfl)
  simp only [strmIssueEff, if_neg hfits, if_neg hgo, strmRoom, hroom, decide_true, not_true_eq_false, if_false,
    tsRead_of_sound hsound]

theorem strmIssueEff_stalls (hfull : 16 ≤ (strmOf (coreOf s c) (bits w 53 52)).queue.length) :
    strmIssueEff s c w = (s, .stall (.queue (bits w 53 52))) := by
  have hgo : ¬ (bit w 39 = true ∧ ¬ (coreOf s c).flight.isEmpty = true) := fun ⟨h, hf⟩ => hf (by rw [hdrain h]; rfl)
  have hroom : ¬ (strmOf (coreOf s c) (bits w 53 52)).queue.length < 16 := by omega
  simp only [strmIssueEff, if_neg hfits, if_neg hgo, strmRoom, hroom, decide_false, Bool.false_eq_true, not_false_eq_true,
    if_true]

end

/-! ### Completions -/

/-- R98: core `k` with scoreboard bit b set, and failed with a status. -/
def Core.failBit (k : Core) (b st : Nat) : Core :=
  { k with
    sb := k.sb ||| 2 ^ b
    sbFail := k.sbFail ||| 2 ^ b
    sbStatus := smSet 0 k.sbStatus b st }

/-- R98: core `k` whose streamer t has nothing in progress in place d. -/
def Core.freePlace (k : Core) (t d : Nat) : Core :=
  setStrm k t { strmOf k t with prog := smSet none (strmOf k t).prog d none }

theorem prog_freePlace (k : Core) (t d : Nat) : smGet none (strmOf (k.freePlace t d) t).prog d = none := by
  rw [Core.freePlace, strmOf_setStrm]
  exact smGet_smSet_eq (strmOf k t).prog d none

theorem failBit_marks (k : Core) (b st : Nat) : bit (k.failBit b st).sb b = true ∧ bit (k.failBit b st).sbFail b = true
    ∧ smGet 0 (k.failBit b st).sbStatus b = st :=
  ⟨bit_or_two_pow k.sb b, bit_or_two_pow k.sbFail b, smGet_smSet_eq k.sbStatus b st⟩

section
variable {s : State} {c t : Nat} {k : Core} {b : Bytes} {r : Report} (hk : coreOf s c = k)
  (hbit : bit (fieldAt b 0 4) 21 = true) (hquiet : bit (fieldAt b 0 4) 14 = false) (hclear : bit k.sb (descBit b) = false)
include hk hbit hquiet hclear

/-- R98: a completion without a failure sets its bit, and nothing else. -/
theorem strmComplete_ok (hok : r.status = 0) :
    SetsCore c s { k with sb := k.sb ||| 2 ^ descBit b } (strmComplete s c t b none r) := by
  subst hk
  simp only [strmComplete, strmDuties, hbit, hok, hquiet, if_true, ne_eq, not_true_eq_false, Bool.false_eq_true, if_false]
  rw [sbSet_of_clear hclear]
  exact setCore_sets s c _

/-- R98: a completion with a failure sets its bit and the fail bit, and is captured. -/
theorem strmComplete_failed (hfail : r.status ≠ 0) :
    ∃ v, SetsCore c s (k.failBit (descBit b) r.status) v ∧ strmComplete s c t b none r = strmCapture v c t (fieldAt b 60 4) r := by
  subst hk
  refine ⟨sbFailSet (sbSet s c (descBit b)) c (descBit b) r.status, ?_, ?_⟩
  · rw [sbSet_of_clear hclear, sbFailSet, coreOf_setCore, if_pos rfl, Nat.one_shiftLeft]
    exact (setCore_sets s c _).trans (setCore_sets _ c _)
  · simp only [strmComplete, strmDuties, hbit, hfail, hquiet, if_true, ne_eq, not_false_eq_true, Bool.false_eq_true, if_false]

end

/-- R111: what a streamer's capture registers hold after a failure, when they held none. -/
theorem strmCapture_captures {s : State} {c t tag : Nat} {r : Report} (h : flag s (Csr.STRM_FAIL (c / 24) (c % 24) t) 0 = false) :
    rd (strmCapture s c t tag r) (Csr.STRM_FAIL (c / 24) (c % 24) t) = (r.status * 2 ^ 24 + r.firstFail * 2 ^ 16 + 1) % 2 ^ 64
      ∧ rd (strmCapture s c t tag r) (Csr.STRM_FAIL_TAG (c / 24) (c % 24) t) = tag % 2 ^ 64
      ∧ rd (strmCapture s c t tag r) (Csr.STRM_FAIL_PREFIX (c / 24) (c % 24) t) = r.pfx % 2 ^ 64
      ∧ rd (strmCapture s c t tag r) (Csr.STRM_FAIL_MAP (c / 24) (c % 24) t) = r.map % 2 ^ 64 := by
  simp only [strmCapture, h, Bool.false_eq_true, if_false]
  simp [Nat.shiftLeft_eq, Csr.STRM_FAIL, Csr.STRM_FAIL_TAG, Csr.STRM_FAIL_PREFIX, Csr.STRM_FAIL_MAP]

theorem strmCapture_sameCores (s : State) (c t tag : Nat) (r : Report) (d : Nat) :
    coreOf (strmCapture s c t tag r) d = coreOf s d :=
  strmCapture_same (.refl [.csr]) (.refl _ s) .cores (by decide) d

theorem execStrmDescComplete_ended {s : State} {c : Fin 96} {t d : Fin 4} {p : Prog} (hworks : strmWorks s c = true)
    (hp : smGet none (strmOf (coreOf s c) t).prog d = some p) (haway : p.away = [])
    (hended : p.ended.isSome = true ∨ p.parts ≤ p.done.length) :
    execStrmDescComplete c t d s =
      .next (strmComplete (setCore s c ((coreOf s c).freePlace t d)) c t p.b p.eph (progReport p)) := by
  have hover : p.ended = none → p.parts ≤ p.done.length := fun hnone => hended.resolve_left (by simp [hnone])
  have hrun : ¬ (¬ strmWorks s c = true ∨ ¬ p.away.isEmpty = true ∨ (p.ended.isNone = true ∧ p.done.length < p.parts)) := by
    simpa [hworks, haway] using hover
  simp only [execStrmDescComplete, hp, if_neg hrun, Core.freePlace]

/-! ### The commands -/

section
variable {s : State} {c : Fin 96} {w : Nat}

/-- R103: STRM.CANCEL cancels streamer `u`, and the core goes on. -/
theorem issue_strmCancelAll {u : Nat} {eff : State → Nat → Nat → State × Flow} (hi : Issues s c 1 0x01 w)
    (heff : eff (strike s c {}) c w = (strmCancelAll (strike s c {}) c u, .next)) :
    (strmOf (coreOf (issue 1 0x01 eff c {} s) c) u).queue = []
      ∧ (strmOf (coreOf (issue 1 0x01 eff c {} s) c) u).prog = stopProgs (strmOf (coreOf s c) u).prog
      ∧ (coreOf (issue 1 0x01 eff c {} s) c).pc = (coreOf s c).pc + 1
      ∧ (∀ b e, QEnt.desc b e ∈ (strmOf (coreOf s c) u).queue → bit (fieldAt b 0 4) 21 = true →
          bit (coreOf (issue 1 0x01 eff c {} s) c).sb (descBit b) = true
          ∧ bit (coreOf (issue 1 0x01 eff c {} s) c).sbFail (descBit b) = true)
      ∧ OtherCores c s (issue 1 0x01 eff c {} s) ∧ SameBut [.cores, .csr, .evt, .ephResults] s (issue 1 0x01 eff c {} s) := by
  obtain ⟨hqueue, hprog, hword, hbits, hother⟩ := strmCancelAll_cancels (strike s c {}) c u
  rw [coreOf_strike_none] at hprog hword hbits
  obtain ⟨hself, hothers, hparts, _⟩ := issue_next_keeps hi heff hword
    (fun d hd => (hother d hd).trans (strike_none_others s c d hd))
    (strmCancelAll_same (ps := [.cores, .csr, .evt, .ephResults]) (by decide) ((strike_none_same s c).mono (by decide)))
    (by decide)
  rw [hself]
  generalize coreOf (strmCancelAll (strike s c {}) c u) c = l at hqueue hprog hbits ⊢
  exact ⟨hqueue, hprog, rfl, hbits, hothers, hparts⟩

end

end Sys2Proof.Machine

open Sys2Proof Sys2Proof.Machine

/-- Settles O24: STRM.ISSUE is `strmIssueEff_queues` or stalls, STRM.CANCEL is `issue_strmCancelAll`, and a completion does
its duties (`strmComplete_ok`, `strmComplete_failed`) on the core whose descriptor has left its place. -/
theorem streamWork : Obligations.StreamWork := by
  constructor
  · intro s c w k u xd b moved
    have hcore : coreOf (strike s c {}) c = k := coreOf_strike_none s c c
    refine ⟨fun hi hsound hal hlt hdrain hroom => ⟨_, rfl, ?_⟩, fun hi hal hlt hdrain hfull => ⟨_, rfl, ?_⟩,
      fun hi => ⟨_, rfl, issue_strmCancelAll hi rfl⟩⟩
    · have heff := strmIssueEff_queues (s := strike s c {}) (c := c) (w := w)
      rw [hcore] at heff
      have hmoved : addDescAddrs b (xr k (bits w 47 44)) (xr k (bits w 43 40)) = moved := by
        rw [addDescAddrs, toLE_mod _ _ _ (by decide), toLE_mod _ _ _ (by decide)]
      refine issue_moves hi ((heff (by omega) hdrain hroom hsound.1).trans ?_) (becomes_onCore s c _) ⟨rfl, rfl, rfl⟩
      rw [hmoved, strmEnqueue]
    · refine issue_stalls hi (strmIssueEff_stalls ?_ ?_ ?_) <;> rw [hcore]
      · omega
      · exact hdrain
      · exact hfull
  · intro s c u d p k w r a hworks hp haway hended heph hquiet
    have hexec := execStrmDescComplete_ended hworks hp haway hended
    rw [heph] at hexec
    have hfree := setCore_sets s c (k.freePlace u d)
    refine ⟨fun hok h21 hclear => ⟨_, hexec, hfree.trans (strmComplete_ok hfree.1 h21 hquiet hclear hok)⟩,
      fun hfail h21 hclear hvalid => ⟨_, hexec, ?_⟩⟩
    obtain ⟨v, hv, hcapture⟩ := strmComplete_failed (t := u) hfree.1 h21 hquiet hclear hfail
    obtain ⟨hcore, hother, hparts⟩ := hfree.trans hv
    obtain ⟨hsb, hfailed, hstatus⟩ := failBit_marks (k.freePlace u d) (descBit p.b) r.status
    obtain ⟨hstat, htag, hpfx, hmap⟩ := strmCapture_captures (tag := fieldAt p.b 60 4) (r := r)
      (show flag v a 0 = false by rw [flag, hparts .csr (by decide) a]; exact hvalid)
    have hwide : fieldAt p.b 60 4 % 2 ^ 64 = fieldAt p.b 60 4 := Nat.mod_eq_of_lt ((fieldAt_lt p.b 60 4).trans (by decide))
    have hcores := strmCapture_sameCores v c u (fieldAt p.b 60 4) r
    rw [hcapture, hcores, hcore]
    exact ⟨hsb, hfailed, hstatus, hstat, htag.trans hwide, hpfx, hmap, prog_freePlace k u d,
      fun e he => (hcores e).trans (hother e he), strmCapture_same (by decide) (hparts.mono (by decide))⟩

end

section
/-! PROOFS. Word writes of the scoreboard and streamer registers of a core (R99, R100, R111, R574). -/

namespace Sys2Proof.Machine

/-! ### The registers an access meets (R33, R109) -/

/-- A register that each core has. -/
def coreRow (reg : Reg) (first : Nat) (wide : Bool) (fields : List Field) : RegRow :=
  ⟨reg, first, [(0x400000, 4), (0x10000, 24)], wide, fields, 0⟩

/-- A register that each streamer of each core has. -/
def strmRow (reg : Reg) (first : Nat) (wide : Bool) (fields : List Field) : RegRow :=
  ⟨reg, first, [(0x400000, 4), (0x10000, 24), (0x40, 4)], wide, fields, 0⟩

theorem coreSb_at : ∀ c : Fin 96, regAt (Csr.CORE_SB (c / 24) (c % 24) + 4)
    = some ⟨coreRow .CORE_SB 0x1000028 true [fd 63 0 .w1c 0], [c / 24, c % 24], Csr.CORE_SB (c / 24) (c % 24), true⟩ := by
  decide +kernel

theorem coreSbSet_at : ∀ c : Fin 96, regAt (Csr.CORE_SB_SET (c / 24) (c % 24) + 4)
    = some ⟨coreRow .CORE_SB_SET 0x1000030 true [fd 63 0 .w1s 0], [c / 24, c % 24], Csr.CORE_SB_SET (c / 24) (c % 24),
      true⟩ := by
  decide +kernel

theorem strmPush_at : ∀ (c : Fin 96) (u : Fin 4), regAt (Csr.STRM_PUSH (c / 24) (c % 24) u + 4)
    = some ⟨strmRow .STRM_PUSH 0x1000100 true [fd 43 0 .wo 0], [c / 24, c % 24, u], Csr.STRM_PUSH (c / 24) (c % 24) u,
      true⟩ := by
  decide +kernel

theorem strmCancel_at : ∀ (c : Fin 96) (u : Fin 4), regAt (Csr.STRM_CANCEL (c / 24) (c % 24) u)
    = some ⟨strmRow .STRM_CANCEL 0x100010c false [fd 0 0 .wo 0], [c / 24, c % 24, u], Csr.STRM_CANCEL (c / 24) (c % 24) u,
      false⟩ := by
  decide +kernel

theorem strmFail_at : ∀ (c : Fin 96) (u : Fin 4), regAt (Csr.STRM_FAIL (c / 24) (c % 24) u)
    = some ⟨strmRow .STRM_FAIL 0x1000110 false [fd 31 24 .ro 0, fd 23 16 .ro 0, fd 15 8 .ro 0, fd 0 0 .w1c 0],
      [c / 24, c % 24, u], Csr.STRM_FAIL (c / 24) (c % 24) u, false⟩ := by
  decide +kernel

/-- R33: the 64 KB from a core's first address on are the core's. -/
theorem blkOf_core {c : Fin 96} {a : Nat} (hlow : 0x1000000 + c / 24 * 0x400000 + c % 24 * 0x10000 ≤ a)
    (hhigh : a < 0x1010000 + c / 24 * 0x400000 + c % 24 * 0x10000) : blkOf a = some (.core c) := by
  have hc := c.isLt
  unfold blkOf
  rw [if_neg (by omega), if_neg (by omega), if_pos (by omega)]
  simp only []
  rw [if_pos (by omega)]
  simp only [Option.some.injEq, Blk.core.injEq]
  omega

section
variable {s : State} {i : Initiator} {a : Nat} {r : RegAt} {c : Nat} (h : Access s i a true) (hr : regAt a = some r)
  (hb : blkOf r.base = some (.core c))
include h hr hb

theorem ctlWrite_core_high (hw : r.row.wide = true) (hh : r.high = true) (hi lo : W32)
    (hlow : smGet none s.heldLow (iniKey i r.base) = some lo) :
    ctlWrite i a 4 hi.toNat s = putCore (setHeldLow s i r none) i r a (hi.toNat * 2 ^ 32 + lo.toNat) c := by
  obtain ⟨r', hr', hreach⟩ := h
  obtain rfl : r' = r := Option.some.inj (hr'.symm.trans hr)
  rw [ctlWrite_of_reaches hreach, putWord_high hreach hw hh]
  simp only [putReg, hb, lowWordFor, hlow]

theorem ctlWrite_core_narrow (hw : r.row.wide = false) (v : W32) :
    ctlWrite i a 4 v.toNat s = putCore s i r a v.toNat c := by
  obtain ⟨r', hr', hreach⟩ := h
  obtain rfl : r' = r := Option.some.inj (hr'.symm.trans hr)
  rw [ctlWrite_of_reaches hreach, putWord_narrow hreach hw]
  simp only [putReg, hb]

end

/-- A core set once the held low word is used. -/
theorem SetsCore.after_held {s t : State} {i : Initiator} {r : RegAt} {c : Nat} {k : Core}
    (h : SetsCore c (setHeldLow s i r none) k t) : coreOf t c = k ∧ OtherCores c s t ∧ SameBut [.cores, .heldLow] s t := by
  obtain ⟨hself, hother, hparts⟩ := h
  exact ⟨hself, hother, ((setHeldLow_same none).mono (by decide)).trans (hparts.mono (by decide))⟩

/-! ### Scoreboard bits set one by one -/

/-- The bits of a list set in a number. -/
def orBits (v : Nat) (bs : List Nat) : Nat := bs.foldl (fun v b => v ||| 2 ^ b) v

theorem testBit_orBits : ∀ (bs : List Nat) (v n : Nat), (orBits v bs).testBit n = (v.testBit n || decide (n ∈ bs))
  | [], v, n => by simp [orBits]
  | b :: bs, v, n => by
    rw [orBits, List.foldl_cons, ← orBits, testBit_orBits bs, Nat.testBit_or, Nat.testBit_two_pow, Bool.or_assoc]
    simp [eq_comm]

/-- A 64-bit number is its bits. -/
theorem orBits_bitsOf {m : Nat} (hm : m < 2 ^ 64) (v : Nat) :
    orBits v ((List.range 64).filter (fun b => bit m b)) = v ||| m := by
  refine Nat.eq_of_testBit_eq fun n => ?_
  rw [testBit_orBits, Nat.testBit_or]
  congr 1
  by_cases h : n < 64
  · simp [h, bit]
  · have hn : m.testBit n = false := Nat.testBit_lt_two_pow (hm.trans_le (Nat.pow_le_pow_right (by decide) (by omega)))
    simp [h, hn]

/-- R100: clear bits set one after the other are all set, and none is counted. -/
theorem foldl_sbSet_sets {c : Nat} : ∀ (bs : List Nat) (s : State), bs.Nodup → (∀ b ∈ bs, bit (coreOf s c).sb b = false) →
    SetsCore c s { coreOf s c with sb := orBits (coreOf s c).sb bs } (bs.foldl (fun s b => sbSet s c b) s)
  | [], s, _, _ => ⟨rfl, fun _ _ => rfl, .refl _ s⟩
  | b :: bs, s, hnodup, hclear => by
    obtain ⟨hb, hbs⟩ := List.nodup_cons.1 hnodup
    have hfirst := setCore_sets s c { coreOf s c with sb := (coreOf s c).sb ||| 2 ^ b }
    rw [List.foldl_cons, sbSet_of_clear (hclear b (.head _))]
    have hrest := foldl_sbSet_sets bs _ hbs fun b' hb' => by
      rw [hfirst.1, bit, Nat.testBit_or, Nat.testBit_two_pow]
      have hne : b ≠ b' := fun e => hb (e ▸ hb')
      simpa [hne, bit] using hclear b' (.tail _ hb')
    rw [hfirst.1] at hrest
    exact hfirst.trans hrest

theorem coreSbSetEff_sets {s : State} {c v : Nat} (hv : v < 2 ^ 64) (hclear : (coreOf s c).sb &&& v = 0) :
    SetsCore c s { coreOf s c with sb := (coreOf s c).sb ||| v } (coreSbSetEff s c v) := by
  rw [← orBits_bitsOf hv]
  refine foldl_sbSet_sets _ s (List.nodup_range.filter _) fun b hb => ?_
  have hbit : v.testBit b = true := (List.mem_filter.1 hb).2
  have hand := congrArg (fun x => x.testBit b) hclear
  simpa [hbit, bit] using hand

/-! ### Capture registers (R111) -/

theorem rd_setFld_self {s : State} {a hi lo : Nat} (hlo : lo ≤ hi) (hhi : hi < 64) (x : Nat) :
    rd (setFld s a hi lo x) a = setBits (rd s a) hi lo x := by
  rw [setFld, rd_wr, if_pos rfl, Nat.mod_eq_of_lt (setBits_lt hlo hhi (rd_lt s a) x)]

/-- R111: VALID and EXTRA clear, and the rest of the capture stays. -/
theorem strmFailEff_clears (s : State) (a : Nat) :
    flag (strmFailEff s a 1) a 0 = false ∧ fld (strmFailEff s a 1) a 15 8 = 0
      ∧ fld (strmFailEff s a 1) a 31 16 = fld s a 31 16 ∧ OtherRegs [a] s (strmFailEff s a 1)
      ∧ SameBut [.csr] s (strmFailEff s a 1) := by
  have hstep : strmFailEff s a 1 = setFlag (setFld s a 15 8 0) a 0 false := if_pos (by decide)
  have hread : rd (strmFailEff s a 1) a = setBits (setBits (rd s a) 15 8 0) 0 0 0 := by
    rw [hstep, setFlag, rd_setFld_self (by decide) (by decide), rd_setFld_self (by decide) (by decide)]
    rfl
  refine ⟨?_, ?_, ?_, fun b hb => ?_, ?_⟩
  · rw [flag, hread, bit, testBit_setBits (by decide)]
    rfl
  · rw [fld, hread, bits_setBits_apart (by decide) (by decide), bits_setBits_same (by decide)]
    rfl
  · rw [fld, hread, bits_setBits_apart (by decide) (by decide), bits_setBits_apart (by decide) (by decide), fld]
  · rw [hstep, setFlag, setFld, setFld, rd_wr_ne _ _ (by simpa using hb), rd_wr_ne _ _ (by simpa using hb)]
  · rw [hstep]
    exact setFlag_same (.refl _) (setFld_same (.refl _) (.refl _ s))

/-! ### The commands -/

section
variable {s : State} {i : Initiator} {c : Fin 96} {u : Fin 4} {hi lo : W32}

theorem execCoreSbClear_high (h : Access s i (Csr.CORE_SB (c / 24) (c % 24) + 4) true)
    (hlow : smGet none s.heldLow (iniKey i (Csr.CORE_SB (c / 24) (c % 24))) = some lo) :
    ∃ r, execCoreSbClear i c hi s = .next (coreSbClearEff (setHeldLow s i r none) c (hi.toNat * 2 ^ 32 + lo.toNat)) :=
  ⟨_, congrArg Host.Outcome.next (ctlWrite_core_high h (coreSb_at c)
    (blkOf_core (by simp [Csr.CORE_SB]) (by simp [Csr.CORE_SB])) rfl rfl hi lo hlow)⟩

theorem execCoreSbSet_high (h : Access s i (Csr.CORE_SB_SET (c / 24) (c % 24) + 4) true)
    (hlow : smGet none s.heldLow (iniKey i (Csr.CORE_SB_SET (c / 24) (c % 24))) = some lo) :
    ∃ r, execCoreSbSet i c hi s = .next (coreSbSetEff (setHeldLow s i r none) c (hi.toNat * 2 ^ 32 + lo.toNat)) :=
  ⟨_, congrArg Host.Outcome.next (ctlWrite_core_high h (coreSbSet_at c)
    (blkOf_core (by simp [Csr.CORE_SB_SET]) (by simp [Csr.CORE_SB_SET])) rfl rfl hi lo hlow)⟩

theorem execStrmPush_high (h : Access s i (Csr.STRM_PUSH (c / 24) (c % 24) u + 4) true)
    (hlow : smGet none s.heldLow (iniKey i (Csr.STRM_PUSH (c / 24) (c % 24) u)) = some lo) :
    ∃ r, execStrmPush i c u hi s = .next (strmPushEff (setHeldLow s i r none) c u (hi.toNat * 2 ^ 32 + lo.toNat)) :=
  ⟨_, congrArg Host.Outcome.next (ctlWrite_core_high h (strmPush_at c u)
    (blkOf_core (c := c) (by simp only [Csr.STRM_PUSH]; omega) (by simp only [Csr.STRM_PUSH]; omega)) rfl rfl hi lo hlow)⟩

theorem execStrmCancel_narrow (h : Access s i (Csr.STRM_CANCEL (c / 24) (c % 24) u) true) :
    execStrmCancel i c u s = .next (strmCancelAll s c u) :=
  congrArg Host.Outcome.next (ctlWrite_core_narrow h (strmCancel_at c u)
    (blkOf_core (c := c) (by simp only [Csr.STRM_CANCEL]; omega) (by simp only [Csr.STRM_CANCEL]; omega)) rfl 1)

theorem execStrmFailClear_narrow (h : Access s i (Csr.STRM_FAIL (c / 24) (c % 24) u) true) :
    execStrmFailClear i c u s = .next (strmFailEff s (Csr.STRM_FAIL (c / 24) (c % 24) u) 1) :=
  congrArg Host.Outcome.next (ctlWrite_core_narrow h (strmFail_at c u)
    (blkOf_core (c := c) (by simp only [Csr.STRM_FAIL]; omega) (by simp only [Csr.STRM_FAIL]; omega)) rfl 1)

/-- R574: a pushed address takes the entry at the end of a queue with room. -/
theorem strmPushEff_sets {t v : Nat} (hroom : (strmOf (coreOf s c) t).queue.length < 16) :
    SetsCore c s (setStrm (coreOf s c) t
      { strmOf (coreOf s c) t with queue := (strmOf (coreOf s c) t).queue ++ [.push (v % 2 ^ 44)] }) (strmPushEff s c t v) := by
  simp only [strmPushEff, strmRoom, hroom, decide_true, if_true]
  exact setCore_sets s c _

end

end Sys2Proof.Machine

open Sys2Proof Sys2Proof.Machine

/-- Settles O15: each write reaches the register's own rule (`ctlWrite_core_high`, `ctlWrite_core_narrow`), and what the rules
leave is `coreSbSetEff_sets`, `strmPushEff_sets`, `strmCancelAll_cancels` and `strmFailEff_clears`. -/
theorem coreRegisters : Obligations.CoreRegisters := by
  intro s i c u hi lo k q n v
  have hv : v < 2 ^ 64 := by have := hi.isLt; have := lo.isLt; omega
  refine ⟨fun h hlow => ?_, fun h hlow hclear => ?_, fun h hlow hroom => ?_, fun h => ?_, fun h => ?_⟩
  · obtain ⟨r, hexec⟩ := execCoreSbClear_high (hi := hi) h hlow
    exact ⟨_, hexec, (setCore_sets (setHeldLow s i r none) c (sbClear k v)).after_held⟩
  · obtain ⟨r, hexec⟩ := execCoreSbSet_high (hi := hi) h hlow
    exact ⟨_, hexec, (coreSbSetEff_sets (s := setHeldLow s i r none) hv hclear).after_held⟩
  · obtain ⟨r, hexec⟩ := execStrmPush_high (hi := hi) h hlow
    obtain ⟨hself, hother, hparts⟩ := (strmPushEff_sets (s := setHeldLow s i r none) (v := v) hroom).after_held
    refine ⟨_, hexec, ?_, ?_, ?_, hother, hparts⟩ <;> rw [hself, strmOf_setStrm] <;> rfl
  · obtain ⟨hqueue, hprog, _, hbits, hother⟩ := strmCancelAll_cancels s c u
    exact ⟨_, execStrmCancel_narrow h, hqueue, hprog, hbits, hother, strmCancelAll_same (by decide) (.refl _ s)⟩
  · obtain ⟨hvalid, hextra, hrest, hregs, hparts⟩ := strmFailEff_clears s (Csr.STRM_FAIL q n u)
    exact ⟨_, execStrmFailClear_narrow h, hvalid, hextra, hrest, hregs, hparts⟩

end

section
/-! PROOFS. Weight loads, and the completion of runs with their pushes (R79 to R81, R104, R123, R125). -/

namespace Sys2Proof.Machine

/-- R79, R80: the elements of the tile of format `fmt` at an address of the tile store, transposed when `tb`. -/
def storedTile (k : Core) (fmt : Nat) (tb : Bool) (a : Nat) : List Nat :=
  let es := elemsOf (memRead k.ts a (tileBytes fmt)) (fmtBits fmt)
  if tb then transposeTile' es else es

/-- R79, R80: the weights that a sound tile store holds for a load. -/
def storedWeights (k : Core) (a opb : Nat) (tb depth : Bool) : Weights :=
  let n := tileBytes (opb / 16)
  ⟨opb, depth, storedTile k (opb / 16) tb a ++ (if depth then storedTile k (opb / 16) tb (a + n) else []),
    if bit opb 2 then (memRead k.ts (a + (if depth then 2 * n else n)) 64).map (·.toNat) else []⟩

theorem loadWeights_of_sound {k : Core} (h : k.tsBad = []) (a opb : Nat) (tb depth : Bool) :
    loadWeights k a opb tb depth = (storedWeights k a opb tb depth, []) := by
  simp only [loadWeights, tsRead_of_sound h, storedWeights, storedTile, Nat.add_zero]
  cases depth <;> cases bit opb 2 <;> simp

theorem mmLdwEff_loads {s : State} {c w : Nat} (hsound : (coreOf s c).tsBad = []) (hfree : unitStalled (coreOf s c) true = false)
    (hfits : operandFits (xr (coreOf s c) (bits w 53 50)) (operandBytes (bits w 49 42) (bit w 40)) = true) :
    mmLdwEff s c w = (setCore s c { coreOf s c with
      shadow := some (storedWeights (coreOf s c) (xr (coreOf s c) (bits w 53 50)) (bits w 49 42) (bit w 41) (bit w 40)) },
      .next) := by
  simp [mmLdwEff, hfree, hfits, loadWeights_of_sound hsound, afterBads]

/-! ### Flights -/

/-- R81: the oldest run becomes a push, or leaves. -/
theorem completeRun_append : ∀ {before : List Flight} {f : Flight} {after : List Flight}, (∀ g ∈ before, g.run = false) →
    f.run = true →
    completeRun (before ++ f :: after) = before ++ (if f.push then [{ f with run := false }] else []) ++ after
  | [], f, after, _, hf => by
    rw [List.nil_append, completeRun, if_pos hf]
    split <;> rfl
  | g :: before, f, after, hb, hf => by
    rw [List.cons_append, completeRun, if_neg (by simp [hb g (.head _)]),
      completeRun_append (fun x hx => hb x (.tail _ hx)) hf]
    rfl

/-- R123: a push that nothing earlier must enter before is the first that may enter. -/
theorem nextPush_append {f : Flight} {after : List Flight} (hpush : f.push = true) (hrun : f.run = false) :
    ∀ (before passed : List Flight), (∀ g ∈ passed ++ before, g.push = false ∧ g.tile ≠ f.tile) →
      nextPush passed (before ++ f :: after) = some (f, passed ++ before ++ after)
  | [], passed, h => by
    have hall : passed.all (fun g => !g.push && decide (g.tile ≠ f.tile)) = true := by
      simpa [List.all_eq_true] using h
    rw [List.nil_append, nextPush, if_pos ⟨hpush, by simp [hrun], hall⟩, List.append_nil]
  | g :: before, passed, h => by
    have hg : g.push = false := (h g (by simp)).1
    rw [List.cons_append, nextPush, if_neg (by simp [hg]), nextPush_append hpush hrun before (passed ++ [g]) (by simpa using h)]
    simp

section
variable {s : State} {c : Fin 96} {before after : List Flight} {f : Flight} (hawake : awake s = true)
  (hup : inResetBit s (c / 24) = false) (hflight : (coreOf s c).flight = before ++ f :: after)
include hawake hup hflight

theorem execMmRunComplete_oldest (hbefore : ∀ g ∈ before, g.run = false) (hf : f.run = true) :
    execMmRunComplete c s = .next (setCore s c { coreOf s c with
      flight := before ++ (if f.push then [{ f with run := false }] else []) ++ after }) := by
  simp only [execMmRunComplete, hawake, hup, hflight, completeRun_append hbefore hf, Bool.false_eq_true, not_false_eq_true,
    and_self, if_true]

theorem execTrqPush_enters (hbefore : ∀ g ∈ before, g.push = false ∧ g.tile ≠ f.tile) (hpush : f.push = true)
    (hrun : f.run = false) (hroom : (coreOf s c).trq.length < 16) :
    execTrqPush c s = .next (setCore s c { coreOf s c with
      trq := (coreOf s c).trq ++ [f.tile]
      flight := before ++ after }) := by
  have hgo : ¬ (¬ awake s = true ∨ inResetBit s (c / 24) = true ∨ 16 ≤ (coreOf s c).trq.length) := by
    simpa [hawake, hup] using hroom
  simp only [execTrqPush, if_neg hgo, hflight, nextPush_append hpush hrun before [] (by simpa using hbefore), List.nil_append]

end

end Sys2Proof.Machine

open Sys2Proof Sys2Proof.Machine

/-- Settles O16: MM.LDW reads what the sound tile store holds (`mmLdwEff_loads`), and the two completions set the core alone
(`execMmRunComplete_oldest`, `execTrqPush_enters`). -/
theorem matrixRuns : Obligations.MatrixRuns := by
  constructor
  · intro s c w k opb n a tile hi hsound hfree hfits
    refine ⟨_, rfl, issue_moves hi ?_ (becomes_onCore s c _) ⟨rfl, rfl, rfl⟩⟩
    have heff := mmLdwEff_loads (s := strike s c {}) (c := c) (w := w)
    rw [coreOf_strike_none] at heff
    exact heff hsound.1 hfree hfits
  · intro s c before after f k hawake hup hflight
    exact ⟨fun hbefore hf => ⟨_, execMmRunComplete_oldest hawake hup hflight hbefore hf, setCore_sets s c _⟩,
      fun hbefore hpush hrun hroom =>
        ⟨_, execTrqPush_enters hawake hup hflight hbefore hpush hrun hroom, setCore_sets s c _⟩⟩

end

section
/-! PROOFS. Array runs (R76 to R78, R81, R104): what a run adds to the accumulator of a core whose memories are sound. -/

namespace Sys2Proof.Machine

/-! ### Words written to a sparse map at different keys -/

/-- Words written one after the other. -/
def putWords (m : SMap W32) (ws : List (Nat × Nat)) : SMap W32 :=
  ws.foldl (fun m x => smSet 0 m x.1 (BitVec.ofNat 32 x.2)) m

theorem smGet_putWords_of_not_mem : ∀ (ws : List (Nat × Nat)) (m : SMap W32) (j : Nat), j ∉ ws.map (·.1) →
    smGet 0 (putWords m ws) j = smGet 0 m j
  | [], _, _, _ => rfl
  | x :: ws, m, j, h => by
    obtain ⟨hx, hws⟩ := List.ne_and_not_mem_of_not_mem_cons h
    rw [putWords, List.foldl_cons, ← putWords, smGet_putWords_of_not_mem ws _ j hws, smGet_smSet, if_neg hx]

theorem smGet_putWords_of_mem : ∀ (ws : List (Nat × Nat)) (m : SMap W32) (x : Nat × Nat), (ws.map (·.1)).Nodup → x ∈ ws →
    smGet 0 (putWords m ws) x.1 = BitVec.ofNat 32 x.2
  | y :: ws, m, x, hnodup, hx => by
    obtain ⟨hy, hws⟩ := List.nodup_cons.1 hnodup
    rw [putWords, List.foldl_cons, ← putWords]
    rcases List.mem_cons.1 hx with rfl | hx
    · rw [smGet_putWords_of_not_mem ws _ _ hy, smGet_smSet_eq]
    · exact smGet_putWords_of_mem ws _ x hws hx

/-- R117: where every unit corrects, words are written and none is refused. -/
theorem accPut_of_sound {k : Core} (h : k.accBad = []) (ws : List (Nat × Nat)) :
    accPut k ws = ({ k with acc := putWords k.acc ws }, []) := by
  simp [accPut, unitWrite, h, putWords, List.foldl_map]

/-! ### The rows of a run -/

/-- R76: the words of a run are listed with what an addition clamped. -/
theorem foldl_lists {γ β : Type} {step : List γ × Bool × β → Nat → List γ × Bool × β} {f : Nat → γ}
    (hstep : ∀ r n, ∃ b, step r n = (r.1 ++ [f n], b, r.2.2)) :
    ∀ (ns : List Nat) (r : List γ × Bool × β), ∃ b, ns.foldl step r = (r.1 ++ ns.map f, b, r.2.2)
  | [], r => ⟨r.2.1, by simp⟩
  | n :: ns, r => by
    obtain ⟨b, hb⟩ := hstep r n
    obtain ⟨b', hb'⟩ := foldl_lists hstep ns (step r n)
    exact ⟨b', by rw [List.foldl_cons, hb', hb]; simp⟩

/-- R104: the number of rows that a run's word names. -/
def runRows (w : Nat) : Nat := if bits w 30 25 = 0 then 64 else bits w 30 25

/-- R104: the first of them. -/
def runRow0 (w : Nat) : Nat := bits w 41 31

/-- R76 to R78: what a run of class `cls` leaves at column j of its row i. -/
def runElem (k : Core) (w : Nat) (wt : Weights) (cls : PairClass) (i j : Nat) : Nat :=
  let opa := bits w 49 42
  let ar := (loadARows k (xr k (bits w 53 50)) opa (runRows w) wt.depth).1
  let old := if bit w 22 then 0 else accVal k ((runRow0 w + i) * 64 + j)
  match cls with
  | .int => wrapInt 32 (intSum (decide (tileMode k (runRow0 w / 64) = 2)) (signed 32 old) (sumOrder wt.depth)
      (fun x => intElem (opa / 16) (aElem ar i x)) (fun x => intElem (wt.opb / 16) (wt.cells.toArray.getD (64 * x + j) 0))).1
  | _ => floatElem old opa wt.opb (bits w 24 23) (sumOrder wt.depth) ar wt wt.cells.toArray i j

/-- The words that a run writes. -/
def runWords (k : Core) (w : Nat) (wt : Weights) (cls : PairClass) : List (Nat × Nat) :=
  (List.range (runRows w * 64)).map fun n => ((runRow0 w + n / 64) * 64 + n % 64, runElem k w wt cls (n / 64) (n % 64))

section
variable {k : Core} {w : Nat} {wt : Weights} {cls : PairClass}

theorem loadARows_of_sound (h : k.tsBad = []) (a opa rows : Nat) (dual : Bool) : (loadARows k a opa rows dual).2 = [] := by
  simp only [loadARows, tsRead_of_sound h]
  cases dual <;> cases bit opa 2 <;> rfl

theorem mmRunRows_of_sound (hts : k.tsBad = []) (hacc : k.accBad = []) :
    ∃ clamped, mmRunRows k w wt cls = (runWords k w wt cls, clamped, []) := by
  have hold (x : Nat) : (if bit w 22 then (0, []) else accRead k x) = ((if bit w 22 then 0 else accVal k x : Nat), ([] : List Bad)) := by
    rw [show accRead k x = (accVal k x, []) by simp [accRead, hacc, accVal]]
    split <;> rfl
  unfold mmRunRows
  refine (foldl_lists (f := fun n => ((runRow0 w + n / 64) * 64 + n % 64, runElem k w wt cls (n / 64) (n % 64)))
    (fun r n => ?_) _ _).imp fun _ hb => hb.trans ?_
  · simp only [hold, List.append_nil]
    cases cls with
    | int => exact ⟨_, rfl⟩
    | float => exact ⟨_, rfl⟩
    | narrow => exact ⟨_, rfl⟩
  · rw [List.nil_append]
    exact congrArg (fun x => (runWords k w wt cls, _, x)) (loadARows_of_sound hts _ _ (runRows w) _)

/-- The words of a run are numbered in order from its first row on. -/
theorem map_fst_runWords : (runWords k w wt cls).map (·.1) = (List.range (runRows w * 64)).map (runRow0 w * 64 + ·) := by
  rw [runWords, List.map_map]
  refine List.map_congr_left fun n _ => ?_
  simp only [Function.comp]
  omega

theorem runWords_nodup : ((runWords k w wt cls).map (·.1)).Nodup := by
  rw [map_fst_runWords]
  exact List.nodup_range.map fun _ _ => Nat.add_left_cancel

theorem mem_runWords {i j : Nat} (hi : i < runRows w) (hj : j < 64) :
    ((runRow0 w + i) * 64 + j, runElem k w wt cls i j) ∈ runWords k w wt cls := by
  refine List.mem_map.2 ⟨i * 64 + j, List.mem_range.2 (by omega), ?_⟩
  rw [show (i * 64 + j) / 64 = i by omega, show (i * 64 + j) % 64 = j by omega]

theorem not_mem_runWords {x : Nat} (hx : x < runRow0 w * 64 ∨ (runRow0 w + runRows w) * 64 ≤ x) :
    x ∉ (runWords k w wt cls).map (·.1) := by
  rw [map_fst_runWords, List.mem_map]
  rintro ⟨n, hn, rfl⟩
  have := List.mem_range.1 hn
  omega

/-- R81, R104: core `k` once a run has issued: its words stand in the accumulator, its weights are the active ones, and it is
in flight. -/
def Core.ran (k : Core) (w : Nat) (wt : Weights) (cls : PairClass) : Core :=
  { k with
    acc := putWords k.acc (runWords k w wt cls)
    active := some wt
    shadow := none
    flight := k.flight ++ [⟨k.issued, bits w 41 37, true, bit w 21, true⟩]
    issued := k.issued + 1 }

theorem accVal_ran_row {i j : Nat} (hi : i < runRows w) (hj : j < 64) :
    accVal (k.ran w wt cls) ((runRow0 w + i) * 64 + j) = runElem k w wt cls i j % 2 ^ 32 := by
  have hword := smGet_putWords_of_mem (runWords k w wt cls) k.acc _ runWords_nodup (mem_runWords hi hj)
  rw [accVal, Core.ran, hword, BitVec.toNat_ofNat]

theorem accVal_ran_other {x : Nat} (hx : x < runRow0 w * 64 ∨ (runRow0 w + runRows w) * 64 ≤ x) :
    accVal (k.ran w wt cls) x = accVal k x := by
  rw [accVal, Core.ran, smGet_putWords_of_not_mem _ _ _ (not_mem_runWords hx), accVal]

end

/-! ### Counting a run -/

/-- The MM cycles of a run counted, and INT_SAT set when an addition clamped. -/
def countRun (s : State) (c n : Nat) (clamped : Bool) : State :=
  bumpStat (if clamped then setFlag s (Csr.ACC_VEC_FLAGS (c / 24) (c % 24)) 4 true else s)
    (Csr.CORE_STAT_MM (c / 24) (c % 24)) n (some (c / 24))

section
variable {s : State} {c n : Nat} {clamped : Bool}

theorem countRun_same : SameBut [.csr] s (countRun s c n clamped) := by
  refine bumpStat_same (.refl _) ?_
  split
  · exact setFlag_same (.refl _) (.refl _ s)
  · exact .refl _ s

theorem rd_ite_setFlag {a b : Nat} (h : b ≠ a) : rd (if clamped then setFlag s a 4 true else s) b = rd s b := by
  split
  · exact rd_wr_ne s _ h
  · rfl

theorem rd_countRun_of_not_mem {a : Nat}
    (h : a ∉ [Csr.CORE_STAT_MM (c / 24) (c % 24), Csr.GLB_STAT_OVF, Csr.ACC_VEC_FLAGS (c / 24) (c % 24)]) :
    rd (countRun s c n clamped) a = rd s a := by
  simp only [List.mem_cons, List.not_mem_nil, or_false, not_or] at h
  obtain ⟨hstat, hovf, hflags⟩ := h
  rw [countRun, rd_bumpStat_of_ne hstat hovf, rd_ite_setFlag hflags]

theorem rd_countRun_stat (h : rd s (Csr.CORE_STAT_MM (c / 24) (c % 24)) + n < 2 ^ 64) :
    rd (countRun s c n clamped) (Csr.CORE_STAT_MM (c / 24) (c % 24)) = rd s (Csr.CORE_STAT_MM (c / 24) (c % 24)) + n := by
  rw [countRun, rd_bumpStat_self (by simp [Csr.CORE_STAT_MM, Csr.GLB_STAT_OVF]; omega),
    rd_ite_setFlag (by simp [Csr.CORE_STAT_MM, Csr.ACC_VEC_FLAGS])]
  omega

/-- R103: an effect that makes the core `k` and counts a run, and goes on to the next word. -/
theorem issue_countRun {c : Fin 96} {cls op w : Nat} {eff : State → Nat → Nat → State × Flow} {k : Core}
    (hi : Issues s c cls op w) (heff : eff (strike s c {}) c w = (countRun (setCore (strike s c {}) c k) c n clamped, .next))
    (hk : AtSameWord (coreOf s c) k) :
    CoreDoes c s [Csr.CORE_STAT_MM (c / 24) (c % 24), Csr.GLB_STAT_OVF, Csr.ACC_VEC_FLAGS (c / 24) (c % 24)]
        { k with pc := (coreOf s c).pc + 1, wait := none } (issue cls op eff c {} s)
      ∧ (rd s (Csr.CORE_STAT_MM (c / 24) (c % 24)) + n < 2 ^ 64 →
          rd (issue cls op eff c {} s) (Csr.CORE_STAT_MM (c / 24) (c % 24)) = rd s (Csr.CORE_STAT_MM (c / 24) (c % 24)) + n) := by
  obtain ⟨hset, hothers, hkept, _⟩ := becomes_onCore s c k
  have hcores (d : Nat) := countRun_same (s := setCore (strike s c {}) c k) (c := c) (n := n) (clamped := clamped)
    .cores (by decide) d
  obtain ⟨hself, hother, hparts, hregs⟩ := issue_next_keeps hi heff (by rw [hcores, hset]; exact hk)
    (fun d hd => (hcores d).trans (hothers d hd)) (hkept.trans (countRun_same.mono (by decide))) (by decide)
  rw [hcores, hset] at hself
  refine ⟨⟨hself, hother, hparts, fun a ha => ?_⟩, fun hlt => ?_⟩
  · obtain ⟨hcount, hce⟩ := not_or.1 (fun h => ha (List.mem_append.2 h))
    rw [hregs, rd_countRun_of_not_mem hcount, rd_setCore, rd_strike_none hce]
  · have hread : rd (strike s c {}) (Csr.CORE_STAT_MM (c / 24) (c % 24)) = rd s (Csr.CORE_STAT_MM (c / 24) (c % 24)) :=
      rd_strike_none (by simp [issueRegs, Csr.CORE_STAT_MM, Csr.CORE_TS_CE, Csr.ACC_CE])
    rw [hregs, rd_countRun_stat (by rwa [rd_setCore, hread]), rd_setCore, hread]

/-- R76, R104: what the effect of MM.RUN is when its checks pass. -/
theorem mmRunEff_runs {k : Core} {w : Nat} {wt : Weights} {cls : PairClass} (hk : coreOf s c = k) (hts : k.tsBad = [])
    (hacc : k.accBad = []) (hfree : unitStalled k true = false) (hwt : (k.shadow <|> k.active) = some wt)
    (hcls : pairClass (bits w 49 46) (wt.opb / 16) wt.depth = some cls) (hcheck : mmRunCheck k w = none) :
    ∃ clamped, mmRunEff s c w = (countRun (setCore s c (k.ran w wt cls)) c
      (runRows w * passCount (bits w 49 42) wt.opb (bits w 24 23) cls) clamped, .next) := by
  obtain ⟨clamped, hrows⟩ := mmRunRows_of_sound (w := w) (wt := wt) (cls := cls) hts hacc
  refine ⟨clamped, ?_⟩
  simp only [mmRunEff, hk, hfree, Bool.false_eq_true, if_false, hcheck, hwt, hcls, hrows, accPut_of_sound hacc]
  rfl

end

end Sys2Proof.Machine

open Sys2Proof Sys2Proof.Machine

/-- Settles O17: of a core with sound memories the effect is `mmRunEff_runs`; the words of the accumulator are `accVal_ran_row`
and `accVal_ran_other`, the counters `rd_countRun_stat` and `rd_countRun_of_not_mem`. The sums stand in the accumulator at issue
(log entry 39), and a scaled product is rounded before its addition (log entry 37): both are the model's choice. -/
theorem arrayRun : Obligations.ArrayRun := by
  intro s c w wt cls k opa rows row0 ar m n old hi hsound hfree hwt hcls hcheck
  obtain ⟨hts, hacc, _⟩ := hsound
  obtain ⟨clamped, heff⟩ := mmRunEff_runs (coreOf_strike_none s c c) hts hacc hfree hwt hcls hcheck
  obtain ⟨hdoes, hstat⟩ := issue_countRun hi heff ⟨rfl, rfl, rfl⟩
  have hself := hdoes.1
  have hacc' : (coreOf (issue 2 0x01 mmRunEff c {} s) c).acc = (k.ran w wt cls).acc := by rw [hself]
  refine ⟨issue 2 0x01 mmRunEff c {} s, rfl, fun i j hi hj => ?_, fun x hx => ?_, ?_, hstat⟩
  · rw [accVal, hacc', ← accVal]
    refine (accVal_ran_row hi hj).trans ?_
    cases cls <;> rfl
  · rw [accVal, hacc', ← accVal]
    exact accVal_ran_other hx
  · rw [hacc']
    exact hdoes

end

section
/-! PROOFS. The machine after a power-on (R105, R348, R448, R501, R516). -/

namespace Sys2Proof.Machine

/-- Nothing is listed after a power-on: cores, processors and links are as a reset leaves them. -/
theorem coreOf_reset (c : Nat) : coreOf State.reset c = {} := rfl
theorem hartOf_reset (p : Nat) : hartOf State.reset p = {} := rfl
theorem linkOf_reset (l : Nat) : linkOf State.reset l = {} := rfl

theorem inv_reset : Inv State.reset where
  fast := rfl
  deep := rfl
  cores c := by
    rw [coreOf_reset]
    exact ⟨by decide, rfl⟩
  harts p := by
    rw [hartOf_reset]
    rfl

/-- No register has been written: each reads its reset value. -/
theorem registers_reset : let r := State.reset
    rd r Csr.PWR_CFG = 0x1F ∧ rd r Csr.PWR_ENTRY_TMO = 0xF4240 ∧ fld r Csr.PWR_LIMIT 26 16 = 1800
    ∧ fld r Csr.PWR_LIMIT 10 0 = 1600 ∧ fld r Csr.PWR_THERM 15 8 = 100 ∧ fld r Csr.PWR_THERM 7 0 = 105
    ∧ rd r Csr.PWR_DOM_IDLE = 100 ∧ rd r Csr.AON_WAKE_EN = 0xF ∧ rd r Csr.AON_SMB_ADDR = 0x5A
    ∧ rd r Csr.AON_WAKE_PIN % 256 = 250 ∧ rd r Csr.GLB_GEN = 0 ∧ rd r Csr.GLB_VIOL_CNT = 0 := by
  decide +kernel

theorem session_reset : session State.reset = 0 := by decide +kernel

end Sys2Proof.Machine

open Sys2Proof Sys2Proof.Machine

/-- Settles O5: no core, processor, link or memory byte is listed after a power-on (`coreOf_reset` and the like), and the
registers read their reset values. -/
theorem resetHasInv : Obligations.ResetHasInv := by
  refine ⟨inv_reset, rfl, rfl, rfl, rfl, rfl, session_reset, rfl, fun c => ?_, fun p => ?_, fun l => ?_, registers_reset⟩
  · rw [coreOf_reset]
    exact ⟨rfl, rfl, rfl, rfl⟩
  · rw [hartOf_reset]
  · rw [linkOf_reset]

end

section
/-! PROOFS. The invariant of every step (R86, R128, R172): what `Keeps` says of a command or of a cycle, read as the invariant. -/

namespace Sys2Proof.Machine

theorem Keeps.inv {s t : State} (h : Keeps s t) (hi : Inv s) : Inv t :=
  ⟨h.fast hi.fast, h.deep hi.deep, h.vl hi.cores, h.lm hi.harts⟩

/-- The invariant says nothing of the queue. -/
theorem Inv.of_pending {s : State} (hi : Inv s) (q : List Instr) : Inv { s with pending := q } :=
  ⟨hi.fast, hi.deep, hi.cores, hi.harts⟩

end Sys2Proof.Machine

open Sys2Proof Sys2Proof.Machine

/-- Settles O4: a step is a cycle, which keeps the invariant (`tickEff_keeps`), or the front command on the queue's rest, and
every meaning keeps it (`exec_keeps`, one lemma for each). -/
theorem stepKeepsInv : Obligations.StepKeepsInv := by
  intro s t hi h
  cases hq : s.pending with
  | nil =>
    rw [step, hq] at h
    cases h
    exact (tickEff_keeps (.refl s)).inv hi
  | cons c rest =>
    rw [stepRunsFrontCommand c rest s hq] at h
    exact (exec_keeps _ c t h).inv (hi.of_pending rest)

end

section
/-! PROOFS. The memories of a core where every unit corrects (R85, R117): a read is what is stored, and a write of numbered
cells refuses none. -/

namespace Sys2Proof.Machine

/-! ### Cells written in order -/

/-- What writes leave as it is, a run of them leaves as it is. -/
theorem foldl_kept {σ ε β : Type} {step : σ → ε → σ} {read : σ → β} :
    ∀ {l : List ε}, (∀ e ∈ l, ∀ m, read (step m e) = read m) → ∀ m, read (l.foldl step m) = read m
  | [], _, _ => rfl
  | e :: l, h, m => by
    rw [List.foldl_cons, foldl_kept (fun x hx => h x (.tail _ hx)), h e (.head _)]

/-- Bytes written one after the other. -/
def putBytes (m : List Host.Cell) (ws : List (Nat × Byte)) : List Host.Cell := ws.foldl (fun m x => smSet 0 m x.1 x.2) m

theorem putBytes_append (m : List Host.Cell) (ws xs : List (Nat × Byte)) :
    putBytes m (ws ++ xs) = putBytes (putBytes m ws) xs := List.foldl_append

/-- Bytes numbered from an address on are a write at it. -/
theorem putBytes_zip : ∀ (bs : Bytes) (m : List Host.Cell) (a : Nat),
    putBytes m ((countUp a bs.length).zip bs) = memWrite m a bs
  | [], _, _ => rfl
  | b :: bs, m, a => by
    rw [memWrite, ← putBytes_zip bs]
    rfl

/-- Words numbered by the keys of a list without repeats: each listed key holds its word, every other what it held. -/
theorem smGet_putWords_map {ι : Type} {is : List ι} {key val : ι → Nat} (m : SMap W32) (h : (is.map key).Nodup) :
    (∀ i ∈ is, smGet 0 (putWords m (is.map fun i => (key i, val i))) (key i) = BitVec.ofNat 32 (val i))
      ∧ ∀ j, j ∉ is.map key → smGet 0 (putWords m (is.map fun i => (key i, val i))) j = smGet 0 m j := by
  have hkeys : (is.map fun i => (key i, val i)).map (·.1) = is.map key := by simp
  refine ⟨fun i hi => ?_, fun j hj => smGet_putWords_of_not_mem _ m j (hkeys ▸ hj)⟩
  exact smGet_putWords_of_mem _ m (key i, val i) (hkeys ▸ h) (List.mem_map.2 ⟨i, hi, rfl⟩)

/-! ### Reads -/

section
variable {k : Core}

theorem accRead_of_sound (h : k.accBad = []) (i : Nat) : accRead k i = (accVal k i, []) := by
  simp [accRead, h, accVal]

theorem vRead_of_sound (h : k.vregBad = []) (r i : Nat) : vRead k r i = (elemVal k r i, []) := by
  simp [vRead, h, elemVal]

theorem mRead_of_sound (h : k.maskBad = []) (m : Nat) : mRead k m = ((maskVal k m).toNat, []) := by
  simp [mRead, h, maskVal]

theorem elemVal_lt (k : Core) (r i : Nat) : elemVal k r i < 2 ^ 32 := BitVec.isLt _

/-! ### Writes -/

/-- Core `k` with elements of vector register d written. -/
def Core.withElems (k : Core) (d : Nat) (ws : List (Nat × Nat)) : Core :=
  { k with vreg := putWords k.vreg (ws.map fun x => (d * 256 + x.1, x.2)) }

theorem vPut_of_sound (h : k.vregBad = []) (d : Nat) (ws : List (Nat × Nat)) : vPut k d ws = (k.withElems d ws, []) := by
  simp [vPut, unitWrite, h, Core.withElems, putWords, List.foldl_map]

theorem mPut_of_sound (h : k.maskBad = []) (m v : Nat) :
    mPut k m v = { k with mask := smSet maskReset k.mask m (BitVec.ofNat 256 v) } := by
  simp [mPut, h]

/-- Core `k` with another accumulator. -/
def Core.withAcc (k : Core) (m : SMap W32) : Core := { k with acc := m }

/-- Core `k` with another tile store. -/
def Core.withTs (k : Core) (m : List Host.Cell) : Core := { k with ts := m }

theorem tsPut_of_sound (h : k.tsBad = []) (ws : List (Nat × Byte)) : tsPut k ws = (k.withTs (putBytes k.ts ws), []) := by
  simp [tsPut, unitWrite, h, putBytes, Core.withTs]

theorem tsWrite_of_sound (h : k.tsBad = []) (a : Nat) (bs : Bytes) :
    tsWrite k a bs = (k.withTs (memWrite k.ts a bs), []) := by
  rw [tsWrite, tsPut_of_sound h, putBytes_zip]

/-- A second write follows the first. -/
theorem tsWrite_withTs (h : k.tsBad = []) (m : List Host.Cell) (a : Nat) (bs : Bytes) :
    tsWrite (k.withTs m) a bs = (k.withTs (memWrite m a bs), []) := tsWrite_of_sound (k := k.withTs m) h a bs

theorem vPut_withTs (h : k.vregBad = []) (m : List Host.Cell) (d : Nat) (ws : List (Nat × Nat)) :
    vPut (k.withTs m) d ws = ((k.withTs m).withElems d ws, []) := vPut_of_sound (k := k.withTs m) h d ws

/-- R126: of elements of d numbered by a list without repeats, each holds its value; every other element of every register
holds what it held. -/
theorem elemVal_withElems_map {is : List Nat} {f : Nat → Nat} {d : Nat} (hnodup : is.Nodup) (hlt : ∀ i ∈ is, i < 256)
    (r : Nat) {i : Nat} (hi : i < 256) :
    (r = d ∧ i ∈ is → elemVal (k.withElems d (is.map fun i => (i, f i))) r i = f i % 2 ^ 32)
      ∧ (¬ (r = d ∧ i ∈ is) → elemVal (k.withElems d (is.map fun i => (i, f i))) r i = elemVal k r i) := by
  have hkeys : (is.map (d * 256 + ·)).Nodup := hnodup.map fun _ _ => Nat.add_left_cancel
  obtain ⟨hin, hout⟩ := smGet_putWords_map (val := f) k.vreg hkeys
  have hcells : (is.map fun i => (i, f i)).map (fun x => (d * 256 + x.1, x.2)) = is.map fun i => (d * 256 + i, f i) := by
    simp
  simp only [elemVal, Core.withElems, hcells]
  refine ⟨fun ⟨hr, h⟩ => ?_, fun h => congrArg _ (hout _ fun hmem => h ?_)⟩
  · rw [hr, hin i h, BitVec.toNat_ofNat]
  · obtain ⟨j, hj, e⟩ := List.mem_map.1 hmem
    have := hlt j hj
    obtain ⟨rfl, rfl⟩ : d = r ∧ j = i := by omega
    exact ⟨rfl, hj⟩

end

end Sys2Proof.Machine
end

section
/-! PROOFS. An instruction of a core that goes on to the next word and counts what it did in the core's registers: the lane
groups of a vector instruction (R138, R144), and the flags of conversions and sums (R74). -/

namespace Sys2Proof.Machine

section
variable {s t u : State} {c : Nat} {regs : List Nat} {k l : Core}

/-- R117: an instruction that met no uncorrectable data goes on. -/
theorem afterBads_of_nil {bads : List Bad} (h : bads = []) : afterBads s c bads = (s, .next) := by
  rw [h]
  rfl

theorem CoreDoes.core (h : CoreDoes c s regs l t) : coreOf t c = l := h.1

theorem CoreDoes.congr (h : CoreDoes c s regs l t) (e : l = k) : CoreDoes c s regs k t := e ▸ h

theorem CoreDoes.mono {regs' : List Nat} (h : CoreDoes c s regs l t) (hr : regs ⊆ regs') : CoreDoes c s regs' l t := by
  obtain ⟨hself, hother, hparts, hregs⟩ := h
  refine ⟨hself, hother, hparts, fun a ha => hregs a fun hm => ha ?_⟩
  exact List.mem_append.2 ((List.mem_append.1 hm).imp_left fun h => hr h)

/-- The core alone is set. -/
theorem coreDoes_setCore (s : State) (c : Nat) (l : Core) : CoreDoes c s [] l (setCore (strike s c {}) c l) := by
  obtain ⟨hself, hother, hparts, _⟩ := becomes_onCore s c l
  exact ⟨hself, hother, hparts, fun a ha => rd_strike_none ha⟩

/-- What another tile store leaves of the core. -/
theorem CoreDoes.of_withTs {m : List Host.Cell} {p : Nat} (h : CoreDoes c s regs { k.withTs m with pc := p, wait := none } t) :
    (coreOf t c).ts = m ∧ CoreDoes c s regs { k with ts := (coreOf t c).ts, pc := p, wait := none } t := by
  have hts : (coreOf t c).ts = m := by
    rw [h.core]
    rfl
  exact ⟨hts, h.congr (by rw [hts]; rfl)⟩

/-- What another accumulator leaves of the core. -/
theorem CoreDoes.of_withAcc {m : SMap W32} {p : Nat} (h : CoreDoes c s regs { k.withAcc m with pc := p, wait := none } t) :
    (coreOf t c).acc = m ∧ CoreDoes c s regs { k with acc := (coreOf t c).acc, pc := p, wait := none } t := by
  have hacc : (coreOf t c).acc = m := by
    rw [h.core]
    rfl
  exact ⟨hacc, h.congr (by rw [hacc]; rfl)⟩

/-- Registers counted in. -/
theorem CoreDoes.counts {add : List Nat} (h : CoreDoes c s regs l t) (hparts : SameBut [.csr] t u)
    (hregs : OtherRegs add t u) : CoreDoes c s (add ++ regs) l u := by
  obtain ⟨hself, hother, hkept, hold⟩ := h
  have hcores := hparts .cores (by decide)
  refine ⟨(hcores c).trans hself, fun d hd => (hcores d).trans (hother d hd), hkept.trans (hparts.mono (by decide)),
    fun a ha => ?_⟩
  rw [List.append_assoc, List.mem_append, not_or] at ha
  exact (hregs a ha.1).trans (hold a ha.2)

/-- R74: flags set. -/
theorem CoreDoes.accFlags (h : CoreDoes c s regs l t) (f : Nat) :
    CoreDoes c s (Csr.ACC_VEC_FLAGS (c / 24) (c % 24) :: regs) l (Machine.accFlags t c f) :=
  h.counts (add := [_]) (accFlags_same (by decide) (.refl _ t)) fun a ha => by
    rw [Machine.accFlags, rd_wr_ne t _ (List.ne_of_not_mem_cons ha)]

/-- R74: flags set where something is to be noted. -/
theorem CoreDoes.ite_accFlags (h : CoreDoes c s regs l t) (b : Bool) (f : Nat) :
    CoreDoes c s (Csr.ACC_VEC_FLAGS (c / 24) (c % 24) :: regs) l (if b then Machine.accFlags t c f else t) := by
  cases b with
  | false => exact h.mono (List.subset_cons_self _ _)
  | true => exact h.accFlags f

/-- R138, R144: `CoreDoes`, and the lane groups of the core before are counted. -/
def LanesDo (c : Nat) (s : State) (regs : List Nat) (l : Core) (t : State) : Prop :=
  let v := Csr.VEC_STAT (c / 24) (c % 24)
  CoreDoes c s (v :: Csr.GLB_STAT_OVF :: regs) l t
    ∧ (rd s v + ceilDiv (coreOf s c).vl 64 < 2 ^ 64 → rd t v = rd s v + ceilDiv (coreOf s c).vl 64)

theorem laneGroups_counts (s : State) (c : Nat) (l : Core) (hvl : l.vl = (coreOf s c).vl) :
    LanesDo c s [] l (laneGroups (setCore (strike s c {}) c l) c) := by
  have hset := coreDoes_setCore s c l
  have hread : rd (strike s c {}) (Csr.VEC_STAT (c / 24) (c % 24)) = rd s (Csr.VEC_STAT (c / 24) (c % 24)) :=
    rd_strike_none (by simp [issueRegs, Csr.VEC_STAT, Csr.CORE_TS_CE, Csr.ACC_CE])
  have hkept := laneGroups_same (ps := [.csr]) (c := c) (by decide) (.refl _ (setCore (strike s c {}) c l))
  refine ⟨hset.counts (add := [_, _]) hkept fun a ha => ?_, fun hlt => ?_⟩
  · simp only [List.mem_cons, List.not_mem_nil, or_false, not_or] at ha
    exact rd_bumpStat_of_ne ha.1 ha.2
  · rw [laneGroups, rd_bumpStat_self (by simp [Csr.VEC_STAT, Csr.GLB_STAT_OVF]; omega), hset.core, hvl, rd_setCore, hread]
    omega

/-- R74: the flags of what the lanes converted. -/
theorem LanesDo.accFlags (h : LanesDo c s [] l t) (f : Nat) :
    LanesDo c s [Csr.ACC_VEC_FLAGS (c / 24) (c % 24)] l (Machine.accFlags t c f) := by
  obtain ⟨hdoes, hcount⟩ := h
  refine ⟨(hdoes.accFlags f).mono ?_, fun hlt => ?_⟩
  · intro a ha
    simp only [List.mem_cons, List.not_mem_nil, or_false] at ha ⊢
    tauto
  · rw [Machine.accFlags, rd_wr_ne _ _ (by simp [Csr.VEC_STAT, Csr.ACC_VEC_FLAGS]), hcount hlt]

end

section
variable {s u : State} {c : Fin 96} {cls op w : Nat} {eff : State → Nat → Nat → State × Flow} {l : Core} {regs : List Nat}

/-- R103: an effect on the core and the registers it counts in, that goes on to the next word. -/
theorem issue_coreDoes (hi : Issues s c cls op w) (heff : eff (strike s c {}) c w = (u, .next))
    (hu : CoreDoes c s regs l u) (hl : AtSameWord (coreOf s c) l) :
    CoreDoes c s regs { l with pc := (coreOf s c).pc + 1, wait := none } (issue cls op eff c {} s)
      ∧ ∀ a, rd (issue cls op eff c {} s) a = rd u a := by
  obtain ⟨hself, hother, hparts, hregs⟩ := hu
  obtain ⟨hself', hother', hparts', hregs'⟩ := issue_next_keeps hi heff (hself.symm ▸ hl) hother hparts (by decide)
  exact ⟨⟨by rw [hself', hself], hother', hparts', fun a ha => (hregs' a).trans (hregs a ha)⟩, hregs'⟩

/-- R103, R138: an effect of the lanes. -/
theorem issue_lanesDo (hi : Issues s c cls op w) (heff : eff (strike s c {}) c w = (u, .next))
    (hu : LanesDo c s regs l u) (hl : AtSameWord (coreOf s c) l) :
    LanesDo c s regs { l with pc := (coreOf s c).pc + 1, wait := none } (issue cls op eff c {} s) := by
  obtain ⟨hdoes, hcount⟩ := hu
  obtain ⟨hdoes', hread⟩ := issue_coreDoes hi heff hdoes hl
  exact ⟨hdoes', fun hlt => (hread _).trans (hcount hlt)⟩

/-- R133, R138: an effect of the lanes that writes elements of one vector register, those of a list. -/
theorem issue_vecResult {P : Nat → Prop} {is : List Nat} {d : Nat} {f : Nat → Nat} (hi : Issues s c 4 op w)
    (heff : eff (strike s c {}) c w = (u, .next))
    (hu : LanesDo c s regs ((coreOf s c).withElems d (is.map fun i => (i, f i))) u)
    (hnodup : is.Nodup) (hmem : ∀ i, i ∈ is ↔ P i) (hlt : ∀ i ∈ is, i < 256) :
    VecResult c s regs P d f (issue 4 op eff c {} s) := by
  obtain ⟨hdoes, hcount⟩ := issue_lanesDo hi heff hu ⟨rfl, rfl, rfl⟩
  refine ⟨fun r i hi => ?_, hdoes.congr (by rw [hdoes.core]; rfl), hcount⟩
  rw [hdoes.core, ← hmem]
  exact elemVal_withElems_map hnodup hlt r hi

end

end Sys2Proof.Machine
end

section
/-! PROOFS. Element operations of the vector engine (R127, R133, R135, R136): each participating element of VD becomes one
function of the elements of the sources. -/

namespace Sys2Proof.Machine

/-! ### The elements that take part (R127, R128) -/

/-- The elements that take part, in order. -/
def takerList (k : Core) (w : Nat) : List Nat :=
  (List.range k.vl).filter fun i => !bit w 33 || (maskVal k (bits w 32 31)).getLsbD i

theorem takers_of_sound {k : Core} (h : k.maskBad = []) (w : Nat) : takers k w = (takerList k w, []) := by
  unfold takers takerList
  rw [mRead_of_sound h]
  cases bit w 33 with
  | false => simp
  | true => rfl

theorem mem_takerList {k : Core} {w i : Nat} : i ∈ takerList k w ↔ TakesPart k w i := by
  simp only [takerList, TakesPart, List.mem_filter, List.mem_range]
  cases bit w 33 <;> simp

theorem takerList_sorted (k : Core) (w : Nat) : (takerList k w).Pairwise (· < ·) := List.pairwise_lt_range.filter _

theorem takerList_nodup (k : Core) (w : Nat) : (takerList k w).Nodup := List.nodup_range.filter _

theorem takerList_lt {k : Core} {w i n : Nat} (hvl : k.vl ≤ n) (hi : i ∈ takerList k w) : i < n :=
  (mem_takerList.1 hi).1.trans_le hvl

/-! ### One rule for every element operation -/

section
variable {s : State} {c : Fin 96} {op w : Nat} {eff : State → Nat → Nat → State × Flow}

/-- The lanes write the elements of one vector register, listed in `ws`. -/
def writeLanes (s : State) (c d : Nat) (ws : List (Nat × Nat)) : State :=
  laneGroups (setCore s c ((coreOf s c).withElems d ws)) c

theorem writeLanes_counts (s : State) (c d : Nat) (ws : List (Nat × Nat)) :
    LanesDo c s [] ((coreOf s c).withElems d ws) (writeLanes (strike s c {}) c d ws) := by
  rw [writeLanes, coreOf_strike_none]
  exact laneGroups_counts s c _ rfl

/-- R133: an effect that writes the elements of VD that take part. -/
theorem issue_takers {d : Nat} {f : Nat → Nat} (hi : Issues s c 4 op w) (hvl : (coreOf s c).vl ≤ 256)
    (heff : eff (strike s c {}) c w =
      (writeLanes (strike s c {}) c d ((takerList (coreOf s c) w).map fun i => (i, f i)), .next)) :
    VecResult c s [] (TakesPart (coreOf s c) w) d f (issue 4 op eff c {} s) :=
  issue_vecResult hi heff (writeLanes_counts s c d _) (takerList_nodup _ w) (fun _ => mem_takerList) fun _ => takerList_lt hvl

end

theorem vecElems_of_sound {s : State} {c : Nat} (h : Sound s c) (srcs : Nat → List Nat) (f : List Nat → Nat) (w : Nat) :
    vecElems srcs f s c w = (writeLanes s c (bits w 53 49) ((takerList (coreOf s c) w).map fun i =>
      (i, f ((srcs w).map fun r => elemVal (coreOf s c) r i))), .next) := by
  obtain ⟨_, _, hvreg, hmask⟩ := h
  simp only [vecElems, takers_of_sound hmask, vRead_of_sound hvreg, vPut_of_sound hvreg, List.map_map, Function.comp_def]
  exact afterBads_of_nil (by simp [List.flatMap_eq_nil_iff])

/-- A core meets no error where it met none before. -/
theorem Sound.strike_none {s : State} {c : Nat} (h : Sound s c) : Sound (strike s c {}) c := by
  unfold Sound
  rw [coreOf_strike_none]
  exact h

/-- Values that are the same in 32 bits are the same result. -/
theorem VecResult.congr {c : Nat} {s t : State} {regs : List Nat} {P : Nat → Prop} {d : Nat} {f g : Nat → Nat}
    (h : VecResult c s regs P d f t) (e : ∀ i, f i % 2 ^ 32 = g i % 2 ^ 32) : VecResult c s regs P d g t := by
  obtain ⟨helems, hrest⟩ := h
  exact ⟨fun r i hi => ⟨fun hp => ((helems r i hi).1 hp).trans (e i), (helems r i hi).2⟩, hrest⟩

section
variable {mk : Fin 96 → Strike → Instr} {op : Nat}

theorem ElemRule.congr {f g : Core → Nat → Nat → Nat} (h : ElemRule mk op f)
    (e : ∀ k w i, f k w i % 2 ^ 32 = g k w i % 2 ^ 32) : ElemRule mk op g := by
  intro s c w hi hsound hvl
  obtain ⟨t, ht, hresult⟩ := h s c w hi hsound hvl
  exact ⟨t, ht, hresult.congr (e _ w)⟩

/-- R133, R142: an instruction whose effect is an element operation. -/
theorem elemRule_of_vecElems (srcs : Nat → List Nat) (g : Nat → List Nat → Nat)
    (hexec : ∀ c s, exec (mk c {}) s = .next (issue 4 op (fun s c w => vecElems srcs (g w) s c w) c {} s)) :
    ElemRule mk op fun k w i => g w ((srcs w).map fun r => elemVal k r i) := by
  intro s c w hi hsound hvl
  refine ⟨_, hexec c s, issue_takers hi hvl ?_⟩
  rw [vecElems_of_sound hsound.strike_none, coreOf_strike_none]

theorem elemRule_vec1 (g : Nat → Nat) (hexec : ∀ c s, exec (mk c {}) s = vec1 op g c {} s) :
    ElemRule mk op fun k w i => g (va k w i) :=
  elemRule_of_vecElems srcA (fun _ l => g (l.getD 0 0)) hexec

theorem elemRule_vec2 (g : Nat → Nat → Nat) (hexec : ∀ c s, exec (mk c {}) s = vec2 op g c {} s) :
    ElemRule mk op fun k w i => g (va k w i) (vb k w i) :=
  elemRule_of_vecElems srcAB (fun _ l => g (l.getD 0 0) (l.getD 1 0)) hexec

end

/-! ### Lanes are words of 32 bits -/

theorem va_lt (k : Core) (w i : Nat) : va k w i < 2 ^ 32 := elemVal_lt ..

theorem vb_lt (k : Core) (w i : Nat) : vb k w i < 2 ^ 32 := elemVal_lt ..

/-- Turning the sign bit of 32 bits is adding it. -/
theorem xor_sign_eq {v : Nat} (h : v < 2 ^ 32) : v ^^^ 2 ^ 31 = (v + 2 ^ 31) % 2 ^ 32 := by
  refine Nat.eq_of_testBit_eq fun i => ?_
  rw [Nat.testBit_xor, Nat.testBit_two_pow, Nat.testBit_mod_two_pow, Nat.add_comm v]
  rcases Nat.lt_trichotomy i 31 with below | rfl | above
  · simp [Nat.testBit_two_pow_add_gt below, show ¬ 31 = i by omega, show i < 32 by omega]
  · rw [Nat.testBit_two_pow_add_eq]
    simp
  · simp [show ¬ 31 = i by omega, show ¬ i < 32 by omega,
      Nat.testBit_lt_two_pow (h.trans_le (Nat.pow_le_pow_right (by omega) (show 32 ≤ i by omega)))]

end Sys2Proof.Machine

open Sys2Proof Sys2Proof.Machine

/-- Settles O19: each instruction is an element operation (`elemRule_of_vecElems`). That each of the seven functions of R135
has one value for one element, free within its stated accuracy, is log entry 35, the model's choice. -/
theorem vectorFloat : Obligations.VectorFloat := by
  refine ⟨⟨elemRule_vec1 (fun a => a) fun _ _ => rfl, elemRule_vec2 fadd fun _ _ => rfl, elemRule_vec2 fsub fun _ _ => rfl,
    elemRule_vec2 fmul fun _ _ => rfl, ?_, elemRule_vec2 fmax fun _ _ => rfl, elemRule_vec2 fmin fun _ _ => rfl,
    elemRule_vec1 absElem fun _ _ => rfl, (elemRule_vec1 negElem fun _ _ => rfl).congr fun k w i => ?_,
    elemRule_vec1 (fun a => enc32 (numOfInt (i32 a))) fun _ _ => rfl, ?_⟩,
    elemRule_vec1 fnRcp fun _ _ => rfl, elemRule_vec1 fnRsqrt fun _ _ => rfl, elemRule_vec1 fnSqrt fun _ _ => rfl,
    elemRule_vec1 fnExp2 fun _ _ => rfl, elemRule_vec1 fnLog2 fun _ _ => rfl, elemRule_vec1 fnTanh fun _ _ => rfl,
    elemRule_vec1 fnSigm fun _ _ => rfl, elemRule_vec1 fnErf fun _ _ => rfl⟩
  · exact elemRule_of_vecElems srcABC (fun _ l => ffma (l.getD 0 0) (l.getD 1 0) (l.getD 2 0)) fun _ _ => rfl
  · rw [negElem, xor_sign_eq (va_lt k w i)]
  · exact elemRule_of_vecElems srcA (fun w l => expScale (signed 8 (bits w 7 0)) (l.getD 0 0)) fun _ _ => rfl

end

section
/-! PROOFS. Integer element operations (R133): a lane as a signed and as a plain number. -/

namespace Sys2Proof.Machine

/-- A lane read as a signed integer and written back is the lane. -/
theorem wrapInt_signed {v : Nat} (h : v < 2 ^ 32) : wrapInt 32 (signed 32 v) = v := by
  unfold wrapInt signed
  split <;> omega

/-- R133: the greater of two lanes as signed numbers, in 32 bits. -/
theorem wrapInt_max {a b : Nat} (ha : a < 2 ^ 32) (hb : b < 2 ^ 32) :
    (if i32 a < i32 b then b else a) = wrapInt 32 (max (signed 32 a) (signed 32 b)) := by
  rw [i32, i32]
  rcases lt_or_ge (signed 32 a) (signed 32 b) with h | h
  · rw [if_pos h, max_eq_right h.le, wrapInt_signed hb]
  · rw [if_neg (not_lt.2 h), max_eq_left h, wrapInt_signed ha]

theorem wrapInt_min {a b : Nat} (ha : a < 2 ^ 32) (hb : b < 2 ^ 32) :
    (if i32 b < i32 a then b else a) = wrapInt 32 (min (signed 32 a) (signed 32 b)) := by
  rw [i32, i32]
  rcases lt_or_ge (signed 32 b) (signed 32 a) with h | h
  · rw [if_pos h, min_eq_right h.le, wrapInt_signed hb]
  · rw [if_neg (not_lt.2 h), min_eq_left h, wrapInt_signed ha]

end Sys2Proof.Machine

open Sys2Proof Sys2Proof.Machine

/-- Settles O20: each instruction is an element operation of two sources (`elemRule_vec2`), and 32 bits of its value are those
of the rule's. -/
theorem vectorInteger : Obligations.VectorInteger := by
  refine ⟨(elemRule_vec2 (fun a b => (a + b) % 2 ^ 32) fun _ _ => rfl).congr fun k w i => Nat.mod_mod ..,
    (elemRule_vec2 (fun a b => (a + (2 ^ 32 - b)) % 2 ^ 32) fun _ _ => rfl).congr fun k w i => ?_,
    (elemRule_vec2 (fun a b => (a * b) % 2 ^ 32) fun _ _ => rfl).congr fun k w i => Nat.mod_mod ..,
    (elemRule_vec2 (fun a b => if i32 a < i32 b then b else a) fun _ _ => rfl).congr fun k w i => ?_,
    (elemRule_vec2 (fun a b => if i32 b < i32 a then b else a) fun _ _ => rfl).congr fun k w i => ?_,
    elemRule_vec2 (fun a b => a &&& b) fun _ _ => rfl, elemRule_vec2 (fun a b => a ||| b) fun _ _ => rfl,
    elemRule_vec2 (fun a b => a ^^^ b) fun _ _ => rfl,
    (elemRule_vec2 (fun a b => (a <<< (b % 32)) % 2 ^ 32) fun _ _ => rfl).congr fun k w i => ?_,
    (elemRule_vec2 (fun a b => wrapInt 32 (i32 a / (2 ^ (b % 32) : Nat))) fun _ _ => rfl).congr fun k w i => ?_,
    (elemRule_vec2 (fun a b => a >>> (b % 32)) fun _ _ => rfl).congr fun k w i => ?_⟩
  · rw [Nat.mod_mod, Nat.add_sub_assoc (vb_lt k w i).le]
  · rw [wrapInt_max (va_lt k w i) (vb_lt k w i)]
  · rw [wrapInt_min (va_lt k w i) (vb_lt k w i)]
  · rw [Nat.mod_mod, Nat.shiftLeft_eq]
  · rw [i32, Nat.cast_pow, Nat.cast_ofNat]
  · rw [Nat.shiftRight_eq_div_pow]

end

section
/-! PROOFS. Reductions (R134): a sum folded lane by lane and pair by pair in 32 bits is the sum of the elements in 32 bits. -/

namespace Sys2Proof.Machine

open Finset in
/-- The terms up to 2n, two by two. -/
theorem sum_range_pairs (f : Nat → Nat) (n : Nat) :
    ∑ i ∈ range n, (f (2 * i) + f (2 * i + 1)) = ∑ i ∈ range (2 * n), f i := by
  induction n with
  | zero => rfl
  | succ n ih => rw [sum_range_succ, ih, Nat.mul_succ, sum_range_succ, sum_range_succ, Nat.add_assoc]

/-- Addition that wraps at 32 bits. -/
def wrapAdd (a b : Nat) : Nat := (a + b) % 2 ^ 32

theorem foldPairs_wrapAdd : ∀ (n : Nat) (f : Nat → Nat),
    foldPairs wrapAdd n ((List.range (2 ^ n)).map f) ≡ ∑ i ∈ Finset.range (2 ^ n), f i [MOD 2 ^ 32]
  | 0, f => by
    simp only [pow_zero, Finset.sum_range_one]
    rfl
  | n + 1, f => by
    have hlen : ((List.range (2 ^ (n + 1))).map f).length / 2 = 2 ^ n := by
      rw [List.length_map, List.length_range]
      omega
    have hpairs : (List.range (2 ^ n)).map (fun i => wrapAdd (((List.range (2 ^ (n + 1))).map f).getD (2 * i) 0)
        (((List.range (2 ^ (n + 1))).map f).getD (2 * i + 1) 0))
        = (List.range (2 ^ n)).map fun i => wrapAdd (f (2 * i)) (f (2 * i + 1)) := by
      refine List.map_congr_left fun i hi => ?_
      have hi := List.mem_range.1 hi
      simp [List.getD_eq_getElem?_getD, show 2 * i < 2 ^ (n + 1) by omega, show 2 * i + 1 < 2 ^ (n + 1) by omega]
    rw [foldPairs, hlen, hpairs]
    refine (foldPairs_wrapAdd n _).trans ?_
    rw [pow_succ' 2 n, ← sum_range_pairs]
    exact Nat.ModEq.sum fun i _ => Nat.mod_modEq _ _

/-- The element of a list of numbered values. -/
def elemOr (vals : List (Nat × Nat)) (e : Nat) : Nat :=
  match vals.find? (fun v => v.1 = e) with
  | some v => v.2
  | none => 0

theorem elemOr_map (g : Nat → Nat) (e : Nat) : ∀ is : List Nat, elemOr (is.map fun i => (i, g i)) e = if e ∈ is then g e else 0
  | [] => rfl
  | i :: is => by
    by_cases h : i = e
    · subst h
      simp [elemOr]
    · have hskip : elemOr ((i :: is).map fun i => (i, g i)) e = elemOr (is.map fun i => (i, g i)) e := by
        simp only [elemOr, List.map_cons, List.find?_cons, h, decide_false]
      rw [hskip, elemOr_map g e is]
      simp [Ne.symm h]

/-- R134: the elements of a lane, in 32 bits. -/
theorem lane_wrapAdd (vals : List (Nat × Nat)) (es : List Nat) (a : Nat) :
    es.foldl (fun acc e => match vals.find? (fun v => v.1 = e) with | some v => wrapAdd acc v.2 | none => acc) a
      ≡ a + (es.map (elemOr vals)).sum [MOD 2 ^ 32] := by
  induction es generalizing a with
  | nil => rfl
  | cons e es ih =>
    rw [List.map_cons, List.sum_cons, ← Nat.add_assoc, List.foldl_cons]
    refine (ih _).trans (Nat.ModEq.add_right _ ?_)
    cases h : vals.find? (fun v => v.1 = e) with
    | none =>
      simp only [elemOr, h]
      rfl
    | some v =>
      simp only [elemOr, h]
      exact Nat.mod_modEq _ _

/-- R134: the reduction of VIRSUM is the sum of the elements that take part. -/
theorem reduceElems_wrapAdd {is : List Nat} (hnodup : is.Nodup) (hlt : ∀ i ∈ is, i < 256) (g : Nat → Nat) :
    reduceElems wrapAdd 0 (is.map fun i => (i, g i)) ≡ (is.map g).sum [MOD 2 ^ 32] := by
  have hlanes : ∀ f : Nat → Nat, ∑ i ∈ Finset.range 64, (f i + (f (i + 64) + (f (i + 128) + f (i + 192))))
      = ∑ i ∈ Finset.range 256, f i := by
    intro f
    rw [show 256 = 64 + (64 + (64 + 64)) from rfl]
    simp only [Finset.sum_range_add, Finset.sum_add_distrib, Nat.add_comm, Nat.add_left_comm]
  refine (foldPairs_wrapAdd 6 _).trans ?_
  calc ∑ i ∈ Finset.range 64, _
      ≡ ∑ i ∈ Finset.range 64, (0 + ([i, i + 64, i + 128, i + 192].map (elemOr (is.map fun i => (i, g i)))).sum) [MOD 2 ^ 32] :=
        Nat.ModEq.sum fun i _ => lane_wrapAdd _ _ 0
    _ = ∑ i ∈ Finset.range 256, elemOr (is.map fun i => (i, g i)) i := by
        rw [← hlanes]
        simp
    _ = ∑ i ∈ is.toFinset, g i := by
        simp only [elemOr_map]
        rw [← Finset.sum_filter]
        congr 1
        ext i
        simpa using hlt i
    _ = (is.map g).sum := List.sum_toFinset g hnodup

end Sys2Proof.Machine
end

section
/-! PROOFS. Vector instructions that convert, select, reduce, compare, and act on whole masks (R133, R134, R137), on a core
whose memories are sound. -/

namespace Sys2Proof.Machine

/-! ### Masks (R126) -/

/-- A number with the bits of a list set. -/
theorem testBit_maskOf (is : List Nat) (i : Nat) : (maskOf is).testBit i = decide (i ∈ is) := by
  have hor : maskOf is = orBits 0 is := by simp only [maskOf, orBits, Nat.one_shiftLeft]
  rw [hor, testBit_orBits, Nat.zero_testBit, Bool.false_or]

/-- Core `k` with mask register d written. -/
def Core.withMask (k : Core) (d : Nat) (v : BitVec 256) : Core := { k with mask := smSet maskReset k.mask d v }

theorem maskVal_withMask (k : Core) (d : Nat) (v : BitVec 256) (m : Nat) :
    maskVal (k.withMask d v) m = if m = d then v else maskVal k m := smGet_smSet ..

section
variable {s : State} {c w : Nat} (h : Sound s c)
include h

theorem mPut_of_sound' (d v : Nat) : mPut (coreOf s c) d v = (coreOf s c).withMask d (BitVec.ofNat 256 v) :=
  mPut_of_sound h.2.2.2 d v

theorem maskEff_of_sound (f : Nat → Nat → Nat) (useA useB : Bool) :
    maskEff f useA useB s c w = (setCore s c ((coreOf s c).withMask (bits w 50 49) (BitVec.ofNat 256
      (f (if useA then (maskVal (coreOf s c) (bits w 45 44)).toNat else 0)
        (if useB then (maskVal (coreOf s c) (bits w 40 39)).toNat else 0)))), .next) := by
  obtain ⟨_, _, _, hmask⟩ := id h
  simp only [maskEff, mRead_of_sound hmask, mPut_of_sound' h]
  cases useA <;> cases useB <;> rfl

theorem vcmpEff_of_sound (cmp : Nat → Nat → Nat → Bool) :
    vcmpEff cmp s c w = (laneGroups (setCore s c ((coreOf s c).withMask (bits w 50 49) (BitVec.ofNat 256
      (maskOf ((takerList (coreOf s c) w).filter fun i => cmp (bits w 30 28) (va (coreOf s c) w i) (vb (coreOf s c) w i)))))) c,
      .next) := by
  obtain ⟨_, _, hvreg, hmask⟩ := id h
  simp only [vcmpEff, takers_of_sound hmask, vRead_of_sound hvreg, mPut_of_sound' h]
  rw [afterBads_of_nil (by simp [List.flatMap_eq_nil_iff]), List.filter_map, List.map_map]
  simp only [Function.comp_def, List.map_id']
  rfl

/-! ### Lanes -/

theorem vredEff_of_sound (op : Nat → Nat → Nat) (ident : Nat) :
    vredEff op ident s c w = (writeLanes s c (bits w 53 49) ([0].map fun i =>
      (i, reduceElems op ident ((takerList (coreOf s c) w).map fun i => (i, va (coreOf s c) w i)))), .next) := by
  obtain ⟨_, _, hvreg, hmask⟩ := h
  simp only [vredEff, takers_of_sound hmask, vRead_of_sound hvreg, vPut_of_sound hvreg, List.map_map, Function.comp_def]
  exact afterBads_of_nil (by simp [List.flatMap_eq_nil_iff])

theorem vselEff_of_sound :
    vselEff s c w = (writeLanes s c (bits w 53 49) ((List.range (coreOf s c).vl).map fun i =>
      (i, if (maskVal (coreOf s c) (bits w 32 31)).getLsbD i then va (coreOf s c) w i else vb (coreOf s c) w i)), .next) := by
  obtain ⟨_, _, hvreg, hmask⟩ := h
  have hpick (i : Nat) : elemVal (coreOf s c)
      (bits w (if bit (maskVal (coreOf s c) (bits w 32 31)).toNat i then 48 else 43)
        (if bit (maskVal (coreOf s c) (bits w 32 31)).toNat i then 44 else 39)) i
      = if (maskVal (coreOf s c) (bits w 32 31)).getLsbD i then va (coreOf s c) w i else vb (coreOf s c) w i := by
    rw [bit, BitVec.testBit_toNat]
    cases (maskVal (coreOf s c) (bits w 32 31)).getLsbD i <;> rfl
  simp only [vselEff, mRead_of_sound hmask, vRead_of_sound hvreg, vPut_of_sound hvreg, List.map_map, Function.comp_def, hpick]
  exact afterBads_of_nil (by simp [List.flatMap_eq_nil_iff])

theorem vcvtfiEff_of_sound : ∃ flags, vcvtfiEff s c w = (accFlags (writeLanes s c (bits w 53 49)
    ((takerList (coreOf s c) w).map fun i => (i, (cvtfi (if bit w 30 then .rtz else .rne) (va (coreOf s c) w i)).1))) c flags,
    .next) :=
  ⟨_, by rw [vcvtfiEff, vecElems_of_sound h]; rfl⟩

end

/-! ### Issue -/

section
variable {s : State} {c : Fin 96} {op w : Nat} {eff : State → Nat → Nat → State × Flow}

/-- R134: an effect that writes element 0 of VD. -/
theorem issue_element_zero {d v : Nat} (hi : Issues s c 4 op w)
    (heff : eff (strike s c {}) c w = (writeLanes (strike s c {}) c d ([0].map fun i => (i, v)), .next)) :
    VecResult c s [] (fun i => i = 0) d (fun _ => v) (issue 4 op eff c {} s) :=
  issue_vecResult hi heff (writeLanes_counts s c d _) (List.nodup_singleton 0) (fun _ => List.mem_singleton) fun i hi => by
    rw [List.mem_singleton.1 hi]
    decide

/-- R134: a reduction over the elements that take part. -/
theorem issue_vredEff {f : Nat → Nat → Nat} {ident : Nat} (hi : Issues s c 4 op w) (hsound : Sound s c) :
    VecResult c s [] (fun i => i = 0) (bits w 53 49)
      (fun _ => reduceElems f ident ((takerList (coreOf s c) w).map fun i => (i, va (coreOf s c) w i)))
      (issue 4 op (vredEff f ident) c {} s) :=
  issue_element_zero hi (by rw [vredEff_of_sound hsound.strike_none, coreOf_strike_none])

/-- R137: a comparison writes every bit of its mask. -/
theorem issue_vcmpEff {cmp : Nat → Nat → Nat → Bool} (hi : Issues s c 4 op w) (hsound : Sound s c) :
    let k := coreOf s c
    let t := issue 4 op (vcmpEff cmp) c {} s
    (∀ i, i < 256 → ((maskVal (coreOf t c) (bits w 50 49)).getLsbD i = true ↔
        TakesPart k w i ∧ cmp (bits w 30 28) (va k w i) (vb k w i) = true))
      ∧ (∀ m, m ≠ bits w 50 49 → maskVal (coreOf t c) m = maskVal k m)
      ∧ CoreDoes c s [Csr.VEC_STAT (c / 24) (c % 24), Csr.GLB_STAT_OVF]
          { k with mask := (coreOf t c).mask, pc := k.pc + 1, wait := none } t := by
  intro k t
  have heff := vcmpEff_of_sound (w := w) hsound.strike_none cmp
  rw [coreOf_strike_none] at heff
  obtain ⟨hdoes, _⟩ := issue_lanesDo hi heff (laneGroups_counts s c _ rfl) ⟨rfl, rfl, rfl⟩
  have hmask (m : Nat) := (congrArg (maskVal · m) hdoes.core).trans (maskVal_withMask k (bits w 50 49) _ m)
  refine ⟨fun i hi => ?_, fun m hm => (hmask m).trans (if_neg hm), hdoes.congr (by rw [hdoes.core]; rfl)⟩
  rw [show maskVal (coreOf t c) (bits w 50 49) = _ from (hmask _).trans (if_pos rfl), BitVec.getLsbD_ofNat, testBit_maskOf]
  simp [hi, List.mem_filter, mem_takerList, k]

/-- R137: an operation on whole masks writes one. -/
theorem issue_maskEff {f : Nat → Nat → Nat} {useA useB : Bool} {v : BitVec 256} (hi : Issues s c 4 op w) (hsound : Sound s c)
    (hv : BitVec.ofNat 256 (f (if useA then (maskVal (coreOf s c) (bits w 45 44)).toNat else 0)
      (if useB then (maskVal (coreOf s c) (bits w 40 39)).toNat else 0)) = v) :
    Moves c s ((coreOf s c).withMask (bits w 50 49) v) (issue 4 op (maskEff f useA useB) c {} s) := by
  refine issue_moves hi ?_ (becomes_onCore s c _) ⟨rfl, rfl, rfl⟩
  rw [maskEff_of_sound hsound.strike_none, coreOf_strike_none, hv]

end

theorem ofNat_not (a : BitVec 256) : BitVec.ofNat 256 (2 ^ 256 - 1 - a.toNat) = ~~~a := by
  rw [← BitVec.toNat_not, BitVec.ofNat_toNat, BitVec.setWidth_eq]

theorem ofNat_and (a b : BitVec 256) : BitVec.ofNat 256 (a.toNat &&& b.toNat) = a &&& b := by
  rw [← BitVec.toNat_and, BitVec.ofNat_toNat, BitVec.setWidth_eq]

theorem ofNat_or (a b : BitVec 256) : BitVec.ofNat 256 (a.toNat ||| b.toNat) = a ||| b := by
  rw [← BitVec.toNat_or, BitVec.ofNat_toNat, BitVec.setWidth_eq]

end Sys2Proof.Machine

open Sys2Proof Sys2Proof.Machine

/-- Settles O21: of a sound core each effect is written out (`vcvtfiEff_of_sound` and its like), the sum of VIRSUM is
`reduceElems_wrapAdd`, and what a comparison leaves of its mask is `testBit_maskOf`. -/
theorem vectorSelect : Obligations.VectorSelect := by
  constructor
  · intro s c w k flags vals zero hsound hvl
    refine ⟨fun hi => ⟨_, rfl, ?_⟩, fun hi => ⟨_, rfl, ?_⟩, fun hi => ⟨_, rfl, issue_vredEff hi hsound⟩,
      fun hi => ⟨_, rfl, issue_vredEff hi hsound⟩, fun hi => ⟨_, rfl, issue_vredEff hi hsound⟩, fun hi => ⟨_, rfl, ?_⟩⟩
    · obtain ⟨f, heff⟩ := vcvtfiEff_of_sound (w := w) hsound.strike_none
      rw [coreOf_strike_none] at heff
      exact issue_vecResult hi heff ((writeLanes_counts s c _ _).accFlags f) (takerList_nodup k w) (fun _ => mem_takerList)
        fun _ => takerList_lt hvl
    · have heff := vselEff_of_sound (w := w) hsound.strike_none
      rw [coreOf_strike_none] at heff
      exact issue_vecResult hi heff (writeLanes_counts s c _ _) List.nodup_range (fun _ => List.mem_range)
        fun i hi => (List.mem_range.1 hi).trans_le hvl
    · refine (issue_vredEff hi hsound).congr fun _ => ?_
      rw [List.map_map]
      exact reduceElems_wrapAdd (takerList_nodup k w) (fun _ => takerList_lt hvl) _
  · intro s c w k d a b put v compares hsound hvl
    refine ⟨fun hi => ⟨_, rfl, issue_vcmpEff hi hsound⟩, fun hi => ⟨_, rfl, issue_vcmpEff hi hsound⟩,
      fun hi => ⟨_, rfl, issue_maskEff hi hsound (by decide +kernel)⟩, fun hi => ⟨_, rfl, issue_maskEff hi hsound (ofNat_not a)⟩,
      fun hi => ⟨_, rfl, issue_maskEff hi hsound (ofNat_and a b)⟩, fun hi => ⟨_, rfl, issue_maskEff hi hsound (ofNat_or a b)⟩,
      fun hi => ⟨_, rfl, issue_moves hi ?_ (becomes_onCore s c _) (xw_atSameWord k _ _)⟩⟩
    obtain ⟨_, _, _, hmask⟩ := hsound
    simp only [coreOf_strike_none, mRead_of_sound hmask, bit, BitVec.testBit_toNat]
    rfl

end

section
/-! PROOFS. VSETVL, VTRQPOP, VEXT and VINS (R124, R128, R142). -/

namespace Sys2Proof.Machine

/-- A word keeps 32 bits. -/
theorem ofNat_bits (v : Nat) : BitVec.ofNat 32 (bits v 31 0) = BitVec.ofNat 32 v :=
  BitVec.eq_of_toNat_eq (by simp [bits])

/-- R124: a pop takes the oldest tile. -/
theorem vtrqpopEff_cons {k : Core} {u : Nat} {rest : List Nat} (h : k.trq = u :: rest) (w : Nat) :
    vtrqpopEff k w = ({ xw k (bits w 53 50) u with trq := rest }, .next) := by
  simp only [vtrqpopEff, h]

theorem vtrqpopEff_nil {k : Core} (h : k.trq = []) (w : Nat) : vtrqpopEff k w = (k, .stall .trqEmpty) := by
  simp only [vtrqpopEff, h]

end Sys2Proof.Machine

open Sys2Proof Sys2Proof.Machine

/-- Settles O22: VSETVL and VTRQPOP are effects on the core alone (`issue_onCore_moves`), an empty queue stalls
(`issue_onCore`), and VEXT and VINS meet no error on a sound core. -/
theorem vectorScalar : Obligations.VectorScalar := by
  intro s c w k n
  refine ⟨fun hi hn => ⟨_, rfl, issue_onCore_moves hi ?_ (xw_atSameWord k _ _)⟩,
    fun u rest hi hq => ⟨_, rfl, issue_onCore_moves hi ?_ (xw_atSameWord k _ _)⟩, fun hi hq => ⟨_, rfl, ?_⟩,
    fun hi hsound => ⟨_, rfl, issue_moves hi ?_ (becomes_onCore s c _) (xw_atSameWord k _ _)⟩,
    fun hi hsound => ⟨_, rfl, issue_moves hi ?_ (becomes_onCore s c _) ⟨rfl, rfl, rfl⟩⟩⟩
  · exact if_neg hn
  · exact vtrqpopEff_cons hq w
  · rw [issue_onCore hi, vtrqpopEff_nil hq w]
    obtain ⟨hself, _⟩ := setCore_becomes c (strike s c {}) k
    simp only [applyFlow, hself]
    exact (becomes_onCore s c k).trans (coreBecomes_of_set (setCore_becomes c _ _))
  · obtain ⟨_, _, hvreg, _⟩ := hsound
    simp only [coreOf_strike_none, vRead_of_sound hvreg]
    rfl
  · obtain ⟨_, _, hvreg, _⟩ := hsound
    simp only [coreOf_strike_none, vPut_of_sound hvreg, Core.withElems, List.map_cons, List.map_nil, putWords, List.foldl_cons,
      List.foldl_nil, ofNat_bits]
    rfl

end

section
/-! PROOFS. Byte memories written piece by piece: what the last piece at an address leaves there, and what two pieces that lie
apart leave (R56, R131). -/

namespace Sys2Proof.Machine

theorem length_toLE : ∀ (n v : Nat), (toLE v n).length = n
  | 0, _ => rfl
  | n + 1, v => by rw [toLE, List.length_cons, length_toLE]

/-- A read is of the bytes it covers alone. -/
theorem memRead_congr {m m' : List Host.Cell} : ∀ {n a : Nat}, (∀ x, a ≤ x → x < a + n → memByte m x = memByte m' x) →
    memRead m a n = memRead m' a n
  | 0, _, _ => rfl
  | n + 1, a, h => by
    rw [memRead, memRead, h a (Nat.le_refl a) (by omega), memRead_congr fun x hx hlt => h x (by omega) (by omega)]

theorem memRead_memWrite_apart {m : List Host.Cell} {a n b : Nat} {bs : Bytes} (h : a + n ≤ b ∨ b + bs.length ≤ a) :
    memRead (memWrite m b bs) a n = memRead m a n :=
  memRead_congr fun x hx hlt => memByte_memWrite_out (by omega)

/-- Two writes that lie apart: each is read back, and no other byte changes. -/
theorem memWrite_two {m : List Host.Cell} {a b : Nat} {bs cs : Bytes} (h : a + bs.length ≤ b ∨ b + cs.length ≤ a) :
    memRead (memWrite (memWrite m a bs) b cs) a bs.length = bs ∧ memRead (memWrite (memWrite m a bs) b cs) b cs.length = cs
      ∧ ∀ x, (x < a ∨ a + bs.length ≤ x) → (x < b ∨ b + cs.length ≤ x) →
        memByte (memWrite (memWrite m a bs) b cs) x = memByte m x :=
  ⟨by rw [memRead_memWrite_apart h, memRead_memWrite], memRead_memWrite .., fun x hx hx' => by
    rw [memByte_memWrite_out hx', memByte_memWrite_out hx]⟩

/-! ### Elements stored one after the other -/

/-- R56: the nibble of a memory: the low one of its byte first. -/
def nibbleAt (m : List Host.Cell) (x : Nat) : Nat := (memByte m (x / 2)).toNat / 16 ^ (x % 2) % 16

/-- R56, R131: a memory once an element of a format is stored at its address; a nibble keeps the other half of its byte. -/
def storeCell (fmt : Nat) (m : List Host.Cell) (x : Nat × Nat) : List Host.Cell :=
  if fmtBits fmt = 4 then
    smSet 0 m (x.1 / 2) (BitVec.ofNat 8 (if x.1 % 2 = 0 then (memByte m (x.1 / 2)).toNat / 16 * 16 + x.2 % 16
      else (memByte m (x.1 / 2)).toNat % 16 + 16 * (x.2 % 16)))
  else memWrite m x.1 (toLE x.2 (fmtBits fmt / 8))

theorem pendingByte_eq (k : Core) (a : Nat) (ws : List (Nat × Byte)) :
    pendingByte k ws a = (memByte (putBytes k.ts ws) a).toNat := by
  induction ws using List.reverseRecOn with
  | nil => rfl
  | append_singleton ws x ih =>
    have hlast : memByte (putBytes k.ts (ws ++ [x])) a = if a = x.1 then x.2 else memByte (putBytes k.ts ws) a := by
      rw [putBytes_append]
      exact smGet_smSet ..
    rw [hlast]
    unfold pendingByte at *
    by_cases h : x.1 = a
    · simp [h]
    · simpa [h, Ne.symm h] using ih

theorem putBytes_storeElem (k : Core) (fmt : Nat) (ws : List (Nat × Byte)) (a v : Nat) :
    putBytes k.ts (storeElem k fmt ws a v) = storeCell fmt (putBytes k.ts ws) (a, v) := by
  unfold storeElem storeCell
  split
  · rw [putBytes_append, pendingByte_eq]
    rfl
  · have hlen := length_toLE (fmtBits fmt / 8) v
    rw [putBytes_append, ← putBytes_zip, hlen]

/-- The bytes of stored elements, written, are the elements stored one after the other. -/
theorem putBytes_foldl_storeElem (k : Core) (fmt : Nat) (cell : Nat → Nat × Nat) :
    ∀ (is : List Nat) (ws : List (Nat × Byte)), putBytes k.ts (is.foldl (fun ws i => storeElem k fmt ws (cell i).1 (cell i).2) ws)
      = (is.map cell).foldl (storeCell fmt) (putBytes k.ts ws)
  | [], _ => rfl
  | i :: is, ws => by
    rw [List.foldl_cons, List.map_cons, List.foldl_cons, putBytes_foldl_storeElem k fmt cell is, putBytes_storeElem]

section
variable {fmt : Nat} {m : List Host.Cell} {a v : Nat}

theorem nibbleAt_storeCell (h : fmtBits fmt = 4) (x : Nat) :
    nibbleAt (storeCell fmt m (a, v)) x = if x = a then v % 16 else nibbleAt m x := by
  have hbyte := (memByte m (a / 2)).isLt
  simp only [nibbleAt, storeCell, if_pos h]
  rw [memByte, smGet_smSet]
  by_cases hb : x / 2 = a / 2
  · rw [if_pos hb, hb, BitVec.toNat_ofNat]
    generalize (memByte m (a / 2)).toNat = b at hbyte
    rcases Nat.mod_two_eq_zero_or_one x with hx | hx <;> rcases Nat.mod_two_eq_zero_or_one a with ha | ha <;>
      simp only [hx, ha, pow_zero, pow_one, Nat.div_one, if_true, one_ne_zero, if_false]
    · rw [if_pos (by omega)]
      omega
    · rw [if_neg (by omega)]
      omega
    · rw [if_neg (by omega)]
      omega
    · rw [if_pos (by omega)]
      omega
  · rw [if_neg hb, if_neg fun e => hb (by rw [e])]
    rfl

theorem memRead_storeCell_same (h : fmtBits fmt ≠ 4) :
    memRead (storeCell fmt m (a, v)) a (fmtBits fmt / 8) = toLE v (fmtBits fmt / 8) := by
  have hread := memRead_memWrite (toLE v (fmtBits fmt / 8)) m a
  rw [length_toLE] at hread
  rw [storeCell, if_neg h, hread]

theorem memRead_storeCell_apart (h : fmtBits fmt ≠ 4) {b n : Nat} (hab : b + n ≤ a ∨ a + fmtBits fmt / 8 ≤ b) :
    memRead (storeCell fmt m (a, v)) b n = memRead m b n := by
  rw [storeCell, if_neg h, memRead_memWrite_apart (by rw [length_toLE]; exact hab)]

theorem memByte_storeCell_out (h : fmtBits fmt ≠ 4) {x : Nat} (hx : x < a ∨ a + fmtBits fmt / 8 ≤ x) :
    memByte (storeCell fmt m (a, v)) x = memByte m x := by
  rw [storeCell, if_neg h, memByte_memWrite_out (by rw [length_toLE]; exact hx)]

end

/-! ### Elements that take part, stored in order -/

section
variable {σ ε β : Type} {step : σ → ε → σ} {read : σ → β} {cell : Nat → ε} {k : Core} {w i : Nat}

/-- What no participating element writes is left as it is. -/
theorem foldl_takers_kept (h : ∀ j, TakesPart k w j → ∀ m, read (step m (cell j)) = read m) (m : σ) :
    read (((takerList k w).map cell).foldl step m) = read m := by
  refine foldl_kept (fun e he => ?_) m
  obtain ⟨j, hj, rfl⟩ := List.mem_map.1 he
  exact h j (mem_takerList.1 hj)

/-- What no later participating element writes is left as element i writes it. -/
theorem foldl_takers_last (hi : TakesPart k w i)
    (h : ∀ j, i < j → TakesPart k w j → ∀ m, read (step m (cell j)) = read m) (m : σ) :
    ∃ m', read (((takerList k w).map cell).foldl step m) = read (step m' (cell i)) := by
  obtain ⟨before, after, hsplit⟩ := List.append_of_mem (mem_takerList.2 hi)
  have hsorted := takerList_sorted k w
  rw [hsplit, List.pairwise_append, List.pairwise_cons] at hsorted
  obtain ⟨_, ⟨hlater, _⟩, _⟩ := hsorted
  refine ⟨(before.map cell).foldl step m, ?_⟩
  rw [hsplit, List.map_append, List.map_cons, List.foldl_append, List.foldl_cons]
  refine foldl_kept (fun e he => ?_) _
  obtain ⟨j, hj, rfl⟩ := List.mem_map.1 he
  exact h j (hlater j hj) (mem_takerList.1 (hsplit ▸ by simp [hj]))

end

end Sys2Proof.Machine
end

section
/-! PROOFS. VLD, VST and VSTG8 on a core whose memories are sound (R129 to R132). -/

namespace Sys2Proof.Machine

/-- R143: every element that takes part lies inside its memory. -/
theorem all_inside {k : Core} {w fmt : Nat} (hin : ∀ i, TakesPart k w i → elemInside w fmt (elemAddr k w fmt i) = true) :
    ((takerList k w).any fun i => !elemInside w fmt (elemAddr k w fmt i)) = false := by
  rw [List.any_eq_false]
  intro i hi
  simp [hin i (mem_takerList.1 hi)]

/-! ### What a store leaves (R131) -/

/-- The converted value of element i of a store, and its flags. -/
def convStored (k : Core) (w i : Nat) : Nat × Flags :=
  convElem (bits w 30 23)
    (if bit w 35 then numOfInt (signed 32 (elemVal k (bits w 53 49) i)) else dec32 (elemVal k (bits w 53 49) i))

/-- Its address and its value. -/
def storedElem (k : Core) (w i : Nat) : Nat × Nat := ((elemAddr k w (bits w 30 27) i).toNat, (convStored k w i).1)

/-- R74: the flags of a store. -/
def storedFlags (k : Core) (w : Nat) : Nat :=
  flagsNat ((takerList k w).foldl (fun f i => flagsOr f (convStored k w i).2) {})

/-- The tile store after a store: its elements in order. -/
def storedTs (k : Core) (w : Nat) : List Host.Cell :=
  ((takerList k w).map (storedElem k w)).foldl (storeCell (bits w 30 27)) k.ts

/-- The accumulator after a store of lanes bit for bit. -/
def storedAcc (k : Core) (w : Nat) : SMap W32 :=
  putWords k.acc ((takerList k w).map fun i => ((elemAddr k w 0 i).toNat, elemVal k (bits w 53 49) i))

section
variable {k : Core} {w i : Nat}

theorem memRead_storedTs (hfmt : fmtBits (bits w 30 27) ≠ 4) (hi : TakesPart k w i)
    (hlast : ∀ j, i < j → TakesPart k w j → (storedElem k w i).1 + fmtBits (bits w 30 27) / 8 ≤ (storedElem k w j).1
      ∨ (storedElem k w j).1 + fmtBits (bits w 30 27) / 8 ≤ (storedElem k w i).1) :
    memRead (storedTs k w) (storedElem k w i).1 (fmtBits (bits w 30 27) / 8)
      = toLE (storedElem k w i).2 (fmtBits (bits w 30 27) / 8) := by
  obtain ⟨m, hm⟩ := foldl_takers_last (cell := storedElem k w)
    (read := fun m => memRead m (storedElem k w i).1 (fmtBits (bits w 30 27) / 8)) hi
    (fun j hj hjp m => memRead_storeCell_apart hfmt (hlast j hj hjp)) k.ts
  exact hm.trans (memRead_storeCell_same hfmt)

theorem memByte_storedTs_out (hfmt : fmtBits (bits w 30 27) ≠ 4) {x : Nat}
    (hx : ∀ j, TakesPart k w j → x < (storedElem k w j).1 ∨ (storedElem k w j).1 + fmtBits (bits w 30 27) / 8 ≤ x) :
    memByte (storedTs k w) x = memByte k.ts x :=
  foldl_takers_kept (read := fun m => memByte m x) (fun j hj _ => memByte_storeCell_out hfmt (hx j hj)) k.ts

theorem nibbleAt_storedTs (hfmt : fmtBits (bits w 30 27) = 4) (hi : TakesPart k w i)
    (hlast : ∀ j, i < j → TakesPart k w j → (storedElem k w i).1 ≠ (storedElem k w j).1) :
    nibbleAt (storedTs k w) (storedElem k w i).1 = (storedElem k w i).2 % 16 := by
  obtain ⟨m, hm⟩ := foldl_takers_last (cell := storedElem k w) (read := fun m => nibbleAt m (storedElem k w i).1) hi
    (fun j hj hjp m => (nibbleAt_storeCell hfmt _).trans (if_neg (hlast j hj hjp))) k.ts
  exact hm.trans ((nibbleAt_storeCell hfmt _).trans (if_pos rfl))

theorem nibbleAt_storedTs_out (hfmt : fmtBits (bits w 30 27) = 4) {x : Nat}
    (hx : ∀ j, TakesPart k w j → (storedElem k w j).1 ≠ x) : nibbleAt (storedTs k w) x = nibbleAt k.ts x :=
  foldl_takers_kept (read := fun m => nibbleAt m x)
    (fun j hj _ => (nibbleAt_storeCell hfmt _).trans (if_neg (hx j hj).symm)) k.ts

theorem smGet_storedAcc (hi : TakesPart k w i)
    (hlast : ∀ j, i < j → TakesPart k w j → (elemAddr k w 0 i).toNat ≠ (elemAddr k w 0 j).toNat) :
    smGet 0 (storedAcc k w) (elemAddr k w 0 i).toNat = BitVec.ofNat 32 (elemVal k (bits w 53 49) i) := by
  obtain ⟨m, hm⟩ := foldl_takers_last (step := fun m x => smSet 0 m x.1 (BitVec.ofNat 32 x.2))
    (cell := fun i => ((elemAddr k w 0 i).toNat, elemVal k (bits w 53 49) i))
    (read := fun m => smGet 0 m (elemAddr k w 0 i).toNat) hi
    (fun j hj hjp m => (smGet_smSet ..).trans (if_neg (hlast j hj hjp))) k.acc
  exact hm.trans (smGet_smSet_eq ..)

theorem smGet_storedAcc_out {x : Nat} (hx : ∀ j, TakesPart k w j → (elemAddr k w 0 j).toNat ≠ x) :
    smGet 0 (storedAcc k w) x = smGet 0 k.acc x := by
  refine smGet_putWords_of_not_mem _ _ x fun hmem => ?_
  simp only [List.map_map, List.mem_map, Function.comp_def] at hmem
  obtain ⟨j, hj, e⟩ := hmem
  exact hx j (mem_takerList.1 hj) e

end

/-! ### Effects -/

section
variable {s : State} {c w : Nat} (h : Sound s c)
include h

theorem vldElem_of_sound (fmt a : Nat) : (vldElem (coreOf s c) w fmt a).2 = [] := by
  obtain ⟨hts, hacc, _⟩ := h
  simp only [vldElem, accRead_of_sound hacc, tsRead_of_sound hts]
  split
  · rfl
  · split <;> rfl

theorem vldEff_of_sound (hin : ∀ i, TakesPart (coreOf s c) w i →
    elemInside w (bits w 40 37) (elemAddr (coreOf s c) w (bits w 40 37) i) = true) :
    vldEff s c w = (writeLanes s c (bits w 53 49) ((takerList (coreOf s c) w).map fun i =>
      (i, (vldElem (coreOf s c) w (bits w 40 37) (elemAddr (coreOf s c) w (bits w 40 37) i).toNat).1)), .next) := by
  obtain ⟨_, _, hvreg, hmask⟩ := id h
  simp only [vldEff, takers_of_sound hmask, all_inside hin, vPut_of_sound hvreg, List.map_map, Function.comp_def,
    Bool.false_eq_true, if_false]
  exact afterBads_of_nil (by simp [List.flatMap_eq_nil_iff, vldElem_of_sound h])

omit h in
theorem bits_ctl_format (w : Nat) : bits w 30 23 / 16 = bits w 30 27 := by
  simp only [bits, Nat.shiftRight_eq_div_pow]
  omega

omit h in
theorem vstPut_of_sound {k : Core} (h : k.tsBad = []) (fmt : Nat) (as : List Nat) (ws : List (Nat × Byte)) :
    vstPut k fmt as ws = (k.withTs (putBytes k.ts ws), []) := by
  unfold vstPut
  split
  · simp [h, tsPut_of_sound h]
  · exact tsPut_of_sound h ws

/-- R131: a store to the tile store. -/
theorem vstEff_of_sound (hts : bit w 36 = false) (hin : ∀ i, TakesPart (coreOf s c) w i →
    elemInside w (bits w 30 27) (elemAddr (coreOf s c) w (bits w 30 27) i) = true) :
    vstEff s c w = (accFlags (laneGroups (setCore s c ((coreOf s c).withTs
      (storedTs (coreOf s c) w))) c) c (storedFlags (coreOf s c) w), .next) := by
  obtain ⟨hbad, _, hvreg, hmask⟩ := id h
  have hcells := putBytes_foldl_storeElem (coreOf s c) (bits w 30 27) (storedElem (coreOf s c) w) (takerList (coreOf s c) w) []
  simp only [vstEff, hts, Bool.false_eq_true, if_false, bits_ctl_format, takers_of_sound hmask, all_inside hin,
    vRead_of_sound hvreg, vstPut_of_sound hbad, List.map_map, Function.comp_def, List.foldl_map]
  rw [afterBads_of_nil (by simp [List.flatMap_eq_nil_iff])]
  exact congrArg (fun m => (accFlags (laneGroups (setCore s c ((coreOf s c).withTs m)) c) c (storedFlags (coreOf s c) w),
    Flow.next)) hcells

/-- R131: a store to the accumulator. -/
theorem vstEff_acc_of_sound (hacc : bit w 36 = true) (hin : ∀ i, TakesPart (coreOf s c) w i →
    elemInside w 0 (elemAddr (coreOf s c) w 0 i) = true) :
    vstEff s c w = (laneGroups (setCore s c ((coreOf s c).withAcc (storedAcc (coreOf s c) w))) c, .next) := by
  obtain ⟨_, hbad, hvreg, hmask⟩ := id h
  simp only [vstEff, hacc, if_true, takers_of_sound hmask, all_inside hin, Bool.false_eq_true, if_false,
    vRead_of_sound hvreg, accPut_of_sound hbad, List.map_map, Function.comp_def]
  exact afterBads_of_nil (by simp [List.flatMap_eq_nil_iff])

end

/-! ### VSTG8 -/

theorem length_convG8 (r : Rnd) (xs : List Num) : (convG8 r xs).2.1.length = xs.length := by
  unfold convG8
  split
  · exact List.length_map ..
  · split <;> exact List.length_map ..

theorem length_g8Group (r : Rnd) (xs : List Nat) :
    (g8Group r xs).2.1.length = xs.length ∧ (g8Group r xs).2.2.1.length = xs.length := by
  have hlen := length_convG8 r (xs.map dec32)
  rw [List.length_map] at hlen
  simp [g8Group, hlen]

/-- A stretch of numbered values. -/
theorem take_drop_map_range (f : Nat → Nat) {a b n : Nat} (h : a + b ≤ n) :
    (((List.range n).map f).drop a).take b = (List.range b).map fun i => f (a + i) := by
  refine List.ext_getElem (by simp; omega) fun i _ _ => ?_
  simp

/-- R132: the groups that VSTG8 stores. -/
def storedGroups (k : Core) (w : Nat) : List (Nat × List Int × List Nat × Flags) :=
  (List.range (k.vl / 64)).map fun g => g8Group (if bit w 30 then .rtz else .rne)
    ((List.range 64).map fun i => elemVal k (bits w 53 49) (64 * g + i))

section
variable (k : Core) (w : Nat)

/-- Their mantissas. -/
def groupMants : Bytes := (storedGroups k w).flatMap fun g => g.2.1.map fun m => BitVec.ofInt 8 m

/-- Their exponents. -/
def groupExps : Bytes := (storedGroups k w).map fun g => BitVec.ofNat 8 g.1

/-- Their remainders. -/
def groupRems : List Nat := (storedGroups k w).flatMap fun g => g.2.2.1

theorem mem_storedGroups {g : Nat × List Int × List Nat × Flags} (hg : g ∈ storedGroups k w) :
    g.2.1.length = 64 ∧ g.2.2.1.length = 64 := by
  obtain ⟨n, _, rfl⟩ := List.mem_map.1 hg
  have := length_g8Group (if bit w 30 then .rtz else .rne)
    ((List.range 64).map fun i => elemVal k (bits w 53 49) (64 * n + i))
  rwa [List.length_map, List.length_range] at this

theorem length_storedGroups : (storedGroups k w).length = k.vl / 64 := by simp [storedGroups]

theorem length_groupExps : (groupExps k w).length = k.vl / 64 := by rw [groupExps, List.length_map, length_storedGroups]

/-- A list of groups of 64 values, one after the other. -/
theorem length_flatMap_groups {α β : Type} {f : α → List β} {n : Nat} : ∀ {l : List α}, (∀ x ∈ l, (f x).length = n) →
    (l.flatMap f).length = n * l.length
  | [], _ => rfl
  | x :: l, h => by
    rw [List.flatMap_cons, List.length_append, h x (.head _), length_flatMap_groups fun y hy => h y (.tail _ hy),
      List.length_cons, Nat.mul_succ, Nat.add_comm]

theorem length_groupMants (hvl : k.vl % 64 = 0) : (groupMants k w).length = k.vl := by
  rw [groupMants, length_flatMap_groups (n := 64) fun g hg => by rw [List.length_map, (mem_storedGroups k w hg).1],
    length_storedGroups]
  omega

theorem length_groupRems (hvl : k.vl % 64 = 0) : (groupRems k w).length = k.vl := by
  rw [groupRems, length_flatMap_groups (n := 64) fun g hg => (mem_storedGroups k w hg).2, length_storedGroups]
  omega

/-- Numbered values of a list as long as their numbers. -/
theorem zip_range_eq_map {n : Nat} {l : List Nat} (h : l.length = n) :
    (List.range n).zip l = (List.range n).map fun i => (i, l.getD i 0) := by
  refine List.ext_getElem (by simp [h]) fun i h1 _ => ?_
  have hi : i < l.length := by simp at h1; omega
  simp [List.getD_eq_getElem?_getD, hi]

end

/-- R132: the tile store after the two writes of VSTG8. -/
def groupTs (k : Core) (w : Nat) : List Host.Cell :=
  memWrite (memWrite k.ts (bits (xr k (bits w 48 45)) 21 0) (groupMants k w)) (bits (xr k (bits w 44 41)) 21 0) (groupExps k w)

/-- R132: the core after VSTG8: its tile store, and the remainders in VR. -/
def groupCore (k : Core) (w : Nat) : Core :=
  (k.withTs (groupTs k w)).withElems (bits w 40 36) ((List.range k.vl).map fun i => (i, (groupRems k w).getD i 0))

theorem vstg8Eff_of_sound {s : State} {c w : Nat} (h : Sound s c) (hvl : (coreOf s c).vl % 64 = 0)
    (ha : bits (xr (coreOf s c) (bits w 48 45)) 21 0 + (coreOf s c).vl ≤ 2 ^ 22)
    (hb : bits (xr (coreOf s c) (bits w 44 41)) 21 0 + (coreOf s c).vl / 64 ≤ 2 ^ 22) :
    ∃ flags, vstg8Eff s c w = (accFlags (laneGroups (setCore s c (groupCore (coreOf s c) w)) c) c flags, .next) := by
  obtain ⟨hts, _, hvreg, _⟩ := h
  have hgroups : (List.range ((coreOf s c).vl / 64)).map (fun g => g8Group (if bit w 30 then .rtz else .rne)
      ((((List.range (coreOf s c).vl).map fun i => elemVal (coreOf s c) (bits w 53 49) i).drop (64 * g)).take 64))
      = storedGroups (coreOf s c) w := by
    refine List.map_congr_left fun g hg => ?_
    have hg := List.mem_range.1 hg
    rw [take_drop_map_range _ (by omega)]
  have hgo : ¬ (2 ^ 22 < bits (xr (coreOf s c) (bits w 48 45)) 21 0 + (coreOf s c).vl
      ∨ 2 ^ 22 < bits (xr (coreOf s c) (bits w 44 41)) 21 0 + (coreOf s c).vl / 64) := by omega
  simp only [vstg8Eff, hvl, ne_eq, not_true_eq_false, if_false, if_neg hgo, vRead_of_sound hvreg, List.map_map,
    Function.comp_def, hgroups, tsWrite_of_sound hts, tsWrite_withTs hts, vPut_withTs hvreg]
  rw [groupCore, ← zip_range_eq_map (length_groupRems (coreOf s c) w hvl)]
  exact ⟨_, afterBads_of_nil (by simp [List.flatMap_eq_nil_iff])⟩

/-- What VSTG8 leaves of the core besides its tile store and its vector registers. -/
theorem CoreDoes.of_groupCore {c : Nat} {s t : State} {regs : List Nat} {k : Core} {w p : Nat}
    (h : CoreDoes c s regs { groupCore k w with pc := p, wait := none } t) :
    (coreOf t c).ts = groupTs k w ∧ (∀ r i, elemVal (coreOf t c) r i = elemVal (groupCore k w) r i)
      ∧ CoreDoes c s regs { k with ts := (coreOf t c).ts, vreg := (coreOf t c).vreg, pc := p, wait := none } t := by
  have hts : (coreOf t c).ts = groupTs k w := by
    rw [h.core]
    rfl
  have hvreg : (coreOf t c).vreg = (groupCore k w).vreg := by rw [h.core]
  refine ⟨hts, fun r i => by rw [elemVal, hvreg, elemVal], h.congr ?_⟩
  rw [hts, hvreg]
  rfl

/-! ### Issue -/

section
variable {s : State} {c : Fin 96} {w : Nat} (hsound : Sound s c)
include hsound

/-- R131: what VST leaves of the core that it stores from, to the tile store. -/
theorem issue_vst (hi : Issues s c 4 0x02 w) (hts : bit w 36 = false) (hin : ∀ i, TakesPart (coreOf s c) w i →
    elemInside w (bits w 30 27) (elemAddr (coreOf s c) w (bits w 30 27) i) = true) :
    (coreOf (issue 4 0x02 vstEff c {} s) c).ts = storedTs (coreOf s c) w
      ∧ CoreDoes c s [Csr.VEC_STAT (c / 24) (c % 24), Csr.GLB_STAT_OVF, Csr.ACC_VEC_FLAGS (c / 24) (c % 24)]
          { coreOf s c with ts := (coreOf (issue 4 0x02 vstEff c {} s) c).ts, pc := (coreOf s c).pc + 1, wait := none }
          (issue 4 0x02 vstEff c {} s) := by
  have heff := vstEff_of_sound (w := w) hsound.strike_none hts
  rw [coreOf_strike_none] at heff
  have hlanes := laneGroups_counts s c ((coreOf s c).withTs (storedTs (coreOf s c) w)) rfl
  exact (issue_lanesDo hi (heff hin) (hlanes.accFlags _) ⟨rfl, rfl, rfl⟩).1.of_withTs

theorem issue_vst_acc (hi : Issues s c 4 0x02 w) (hacc : bit w 36 = true)
    (hin : ∀ i, TakesPart (coreOf s c) w i → elemInside w 0 (elemAddr (coreOf s c) w 0 i) = true) :
    (coreOf (issue 4 0x02 vstEff c {} s) c).acc = storedAcc (coreOf s c) w
      ∧ CoreDoes c s [Csr.VEC_STAT (c / 24) (c % 24), Csr.GLB_STAT_OVF]
          { coreOf s c with acc := (coreOf (issue 4 0x02 vstEff c {} s) c).acc, pc := (coreOf s c).pc + 1, wait := none }
          (issue 4 0x02 vstEff c {} s) := by
  have heff := vstEff_acc_of_sound (w := w) hsound.strike_none hacc
  rw [coreOf_strike_none] at heff
  exact (issue_lanesDo hi (heff hin) (laneGroups_counts s c _ rfl) ⟨rfl, rfl, rfl⟩).1.of_withAcc

theorem issue_vstg8 (hi : Issues s c 4 0x03 w) (hvl : (coreOf s c).vl % 64 = 0)
    (ha : bits (xr (coreOf s c) (bits w 48 45)) 21 0 + (coreOf s c).vl ≤ 2 ^ 22)
    (hb : bits (xr (coreOf s c) (bits w 44 41)) 21 0 + (coreOf s c).vl / 64 ≤ 2 ^ 22) :
    CoreDoes c s [Csr.VEC_STAT (c / 24) (c % 24), Csr.GLB_STAT_OVF, Csr.ACC_VEC_FLAGS (c / 24) (c % 24)]
      { groupCore (coreOf s c) w with pc := (coreOf s c).pc + 1, wait := none } (issue 4 0x03 vstg8Eff c {} s) := by
  have heff := vstg8Eff_of_sound (w := w) hsound.strike_none
  rw [coreOf_strike_none] at heff
  obtain ⟨f, heff⟩ := heff hvl ha hb
  exact (issue_lanesDo hi heff ((laneGroups_counts s c (groupCore (coreOf s c) w) rfl).accFlags f) ⟨rfl, rfl, rfl⟩).1

end

end Sys2Proof.Machine

open Sys2Proof Sys2Proof.Machine

/-- Settles O23: of a sound core each effect is written out (`vldEff_of_sound` and its like). What a store leaves at an address
is what the last element stored there leaves (`foldl_takers_last`); the two areas of VSTG8 lie apart (`memWrite_two`). -/
theorem vectorMemory : Obligations.VectorMemory := by
  intro s c w k flags v hsound hvl
  refine ⟨fun hi hin => ⟨_, rfl, ?_⟩, ?_, ?_, ?_⟩
  · have heff := vldEff_of_sound (w := w) hsound.strike_none
    rw [coreOf_strike_none] at heff
    exact issue_takers hi hvl (heff hin)
  · intro fmt n a val hi hts hin
    obtain ⟨hstore, hdoes⟩ := issue_vst hsound hi hts hin
    exact ⟨fun hfmt => ⟨_, rfl, fun i hpart hlast => hstore ▸ memRead_storedTs hfmt hpart hlast,
        fun x hx => hstore ▸ memByte_storedTs_out hfmt hx, hdoes⟩,
      fun hfmt => ⟨_, rfl, fun i hpart hlast => hstore ▸ nibbleAt_storedTs hfmt hpart hlast,
        fun x hx => hstore ▸ nibbleAt_storedTs_out hfmt hx, hdoes⟩⟩
  · intro a hi hacc hin
    obtain ⟨hstore, hdoes⟩ := issue_vst_acc hsound hi hacc hin
    refine ⟨_, rfl, fun i hpart hlast => ?_, fun x hx => ?_, hdoes⟩
    · rw [accVal, hstore, smGet_storedAcc hpart hlast, BitVec.toNat_ofNat, Nat.mod_eq_of_lt (elemVal_lt ..)]
    · rw [accVal, hstore, smGet_storedAcc_out hx, accVal]
  · intro xa xb gs hi hvl64 _ ha hb hapart
    obtain ⟨hstore, helem, hdoes⟩ := (issue_vstg8 hsound hi hvl64 ha hb).of_groupCore
    have hmants := length_groupMants k w hvl64
    have hexps := length_groupExps k w
    obtain ⟨hreadMants, hreadExps, hother⟩ := memWrite_two (m := k.ts) (a := xa) (b := xb) (bs := groupMants k w)
      (cs := groupExps k w) (by rw [hmants, hexps]; exact hapart)
    rw [hmants] at hreadMants hother
    rw [hexps] at hreadExps hother
    have hrems (r : Nat) {i : Nat} := elemVal_withElems_map (k := k.withTs (groupTs k w)) (d := bits w 40 36)
      (f := fun i => (groupRems k w).getD i 0) (List.nodup_range (n := k.vl))
      (fun i hi => (List.mem_range.1 hi).trans_le hvl) r (i := i)
    refine ⟨_, rfl, hstore ▸ hreadMants, hstore ▸ hreadExps, fun x hx hx' => hstore ▸ hother x hx hx', fun i hi => ?_,
      fun r i hi hne => ?_, hdoes⟩
    · exact (helem _ i).trans ((hrems _ (hi.trans_le hvl)).1 ⟨rfl, List.mem_range.2 hi⟩)
    · exact (helem r i).trans ((hrems r hi).2 fun ⟨hr, hmem⟩ => absurd (List.mem_range.1 hmem) (not_lt.2 (hne hr)))

end

section
/-! PROOFS. Instructions of the accumulator on a core whose memories are sound (R112 to R114, R130, R139 to R141). -/

namespace Sys2Proof.Machine

/-! ### Tiles -/

/-- Dropping entries by their keys. -/
theorem smGet_filter {α : Type} (d : α) (p : Nat → Bool) (i : Nat) : ∀ m : SMap α,
    smGet d (m.filter fun x => p x.1) i = if p i then smGet d m i else d
  | [] => by simp
  | (k, v) :: m => by
    have ih := smGet_filter d p i m
    rw [List.filter_cons]
    by_cases hk : k = i
    · subst hk
      cases hp : p k <;> simp [hp, ih, smGet]
    · cases p k <;> simp [ih, smGet, hk]

/-- R114: the accumulator with tile t zeroed. -/
def zeroedAcc (k : Core) (t : Nat) : SMap W32 := k.acc.filter fun x => decide (x.1 / 4096 ≠ t)

theorem accZeroTile_of_sound {k : Core} (h : k.accBad = []) (t : Nat) : accZeroTile k t = k.withAcc (zeroedAcc k t) := by
  simp [accZeroTile, h, Core.withAcc, zeroedAcc]

theorem smGet_zeroedAcc (k : Core) (t i : Nat) : smGet 0 (zeroedAcc k t) i = if i / 4096 = t then 0 else smGet 0 k.acc i := by
  rw [zeroedAcc, smGet_filter 0 (fun i => decide (i / 4096 ≠ t)) i]
  by_cases h : i / 4096 = t <;> simp [h]

/-! ### Words written, and flags -/

/-- R117, R139: the accumulator is `m`, and `f` is set in the flags where a sum was clamped. -/
def putAcc (s : State) (c : Nat) (m : SMap W32) (clamped : Bool) (f : Nat) : State :=
  if clamped then accFlags (setCore s c ((coreOf s c).withAcc m)) c f else setCore s c ((coreOf s c).withAcc m)

/-- The words of a fold written, when it and the write met no error. -/
theorem putAcc_of_words {s : State} {c f : Nat} {ws : List (Nat × Nat)} {clamped : Bool} {bads : List Bad}
    (hacc : (coreOf s c).accBad = []) (hbads : bads = []) :
    (match accPut (coreOf s c) ws with
      | (k, part) => afterBads (if clamped then accFlags (setCore s c k) c f else setCore s c k) c (bads ++ part))
      = (putAcc s c (putWords (coreOf s c).acc ws) clamped f, .next) := by
  rw [accPut_of_sound hacc, hbads]
  exact afterBads_of_nil rfl

/-! ### Issue -/

section
variable {s : State} {c : Fin 96} {op w : Nat} {eff : State → Nat → Nat → State × Flow}

/-- R125: no push holds the unit back. -/
theorem accIssue_eq_issue (hi : Issues s c 3 op w) (hfree : unitStalled (coreOf s c) false = false) :
    accIssue op eff c {} s = issue 3 op eff c {} s := by
  rw [accIssue, issue_legal hi, issue_legal hi, coreOf_strike_none, hfree]
  rfl

/-- R139: an effect that is another accumulator, with a flag where something was clamped. -/
theorem accIssue_withAcc {m : SMap W32} {b : Bool} {f : Nat} (hi : Issues s c 3 op w)
    (hfree : unitStalled (coreOf s c) false = false)
    (heff : eff (strike s c {}) c w = (putAcc (strike s c {}) c m b f, .next)) :
    (coreOf (accIssue op eff c {} s) c).acc = m ∧ CoreDoes c s [Csr.ACC_VEC_FLAGS (c / 24) (c % 24)]
      { coreOf s c with acc := (coreOf (accIssue op eff c {} s) c).acc, pc := (coreOf s c).pc + 1, wait := none }
      (accIssue op eff c {} s) := by
  have hput : CoreDoes c s [Csr.ACC_VEC_FLAGS (c / 24) (c % 24)] ((coreOf s c).withAcc m) (putAcc (strike s c {}) c m b f) := by
    rw [putAcc, coreOf_strike_none]
    exact (coreDoes_setCore s c _).ite_accFlags b f
  rw [accIssue_eq_issue hi hfree]
  exact (issue_coreDoes hi heff hput ⟨rfl, rfl, rfl⟩).1.of_withAcc

/-- R141: an effect that is another tile store, with the flags of what was converted. -/
theorem accIssue_withTs {m : List Host.Cell} {f : Nat} (hi : Issues s c 3 op w)
    (hfree : unitStalled (coreOf s c) false = false)
    (heff : eff (strike s c {}) c w = (accFlags (setCore (strike s c {}) c ((coreOf s c).withTs m)) c f, .next)) :
    (coreOf (accIssue op eff c {} s) c).ts = m ∧ CoreDoes c s [Csr.ACC_VEC_FLAGS (c / 24) (c % 24)]
      { coreOf s c with ts := (coreOf (accIssue op eff c {} s) c).ts, pc := (coreOf s c).pc + 1, wait := none }
      (accIssue op eff c {} s) := by
  rw [accIssue_eq_issue hi hfree]
  exact (issue_coreDoes hi heff ((coreDoes_setCore s c _).accFlags f) ⟨rfl, rfl, rfl⟩).1.of_withTs

/-- An effect on the core alone. -/
theorem accIssue_onCore {f : Core → Nat → Core × Flow} {l : Core} (hi : Issues s c 3 op w)
    (hfree : unitStalled (coreOf s c) false = false) (hf : f (coreOf s c) w = (l, .next)) (hl : AtSameWord (coreOf s c) l) :
    CoreDoes c s [] { l with pc := (coreOf s c).pc + 1, wait := none } (accIssue op (onCore f) c {} s) := by
  rw [accIssue_eq_issue hi hfree]
  refine (issue_coreDoes hi ?_ (coreDoes_setCore s c l) hl).1
  simp [onCore, hf]

end

/-! ### Modes (R113, R114) -/

theorem tileMode_setBits_same (k : Core) (t m : Nat) (hm : m < 4) :
    tileMode { k with tmode := setBits k.tmode (2 * t + 1) (2 * t) m } t = m := by
  rw [tileMode, bits_setBits_same (by omega), show 2 * t + 1 + 1 - 2 * t = 2 by omega]
  exact Nat.mod_eq_of_lt hm

theorem tileMode_setBits_ne (k : Core) {t v : Nat} (h : v ≠ t) (m : Nat) :
    tileMode { k with tmode := setBits k.tmode (2 * t + 1) (2 * t) m } v = tileMode k v := by
  rw [tileMode, bits_setBits_apart (by omega) (by omega), tileMode]

/-! ### Folds that list words and meet no error -/

/-- What a fold lists is listed in order, and the errors stay those that it began with. -/
theorem foldl_appends {γ β : Type} {step : List γ × Bool × β → Nat → List γ × Bool × β} (f : Nat → List γ)
    (hstep : ∀ r n, ∃ b, step r n = (r.1 ++ f n, b, r.2.2)) : ∀ {ns : List Nat} {r : List γ × Bool × β} {ws : List γ}
      {b : Bool} {bads : β}, ns.foldl step r = (ws, b, bads) → ws = r.1 ++ ns.flatMap f ∧ bads = r.2.2
  | [], r, _, _, _, h => by
    cases h
    simp
  | n :: ns, r, _, _, _, h => by
    obtain ⟨b, hb⟩ := hstep r n
    rw [List.foldl_cons, hb] at h
    obtain ⟨hws, hbads⟩ := foldl_appends f hstep h
    exact ⟨by rw [hws, List.flatMap_cons, List.append_assoc], hbads⟩

/-! ### ACC.LD (R130, R139) -/

/-- R130, R139: what ACC.LD leaves in word i of its tile. -/
def loadedElem (k : Core) (w i : Nat) : Nat :=
  (accLoadElem (tileMode k (bits w 45 41)) (bits w 49 46) (bit w 40)
    (if bit w 40 then accVal k (4096 * bits w 45 41 + i) else 0)
    ((elemsOf (memRead k.ts (bits (xr k (bits w 53 50)) 21 0) (tileBytes (bits w 49 46))) (fmtBits (bits w 49 46))).toArray.getD
      i 0)).1

/-- The accumulator after it. -/
def loadedAcc (k : Core) (w : Nat) : SMap W32 :=
  putWords k.acc ((List.range 4096).flatMap fun i => [(4096 * bits w 45 41 + i, loadedElem k w i)])

theorem smGet_loadedAcc (k : Core) (w x : Nat) : smGet 0 (loadedAcc k w) x =
    if x / 4096 = bits w 45 41 then BitVec.ofNat 32 (loadedElem k w (x % 4096)) else smGet 0 k.acc x := by
  have hnodup : ((List.range 4096).map (4096 * bits w 45 41 + ·)).Nodup := List.nodup_range.map fun _ _ => Nat.add_left_cancel
  obtain ⟨hin, hout⟩ := smGet_putWords_map (val := loadedElem k w) k.acc hnodup
  rw [loadedAcc, ← List.map_eq_flatMap]
  split
  next h =>
    have hx : 4096 * bits w 45 41 + x % 4096 = x := by omega
    rw [← hin (x % 4096) (List.mem_range.2 (Nat.mod_lt _ (by decide))), hx]
  next h =>
    refine hout x fun hmem => h ?_
    obtain ⟨i, hi, rfl⟩ := List.mem_map.1 hmem
    have := List.mem_range.1 hi
    omega

theorem accLdEff_of_sound {s : State} {c w : Nat} (h : Sound s c) (hmode : tileMode (coreOf s c) (bits w 45 41) ≠ 3)
    (hfloat : fmtFloat (bits w 49 46) = true → tileMode (coreOf s c) (bits w 45 41) = 0)
    (hint : fmtInt (bits w 49 46) = true → tileMode (coreOf s c) (bits w 45 41) ≠ 0)
    (hfits : operandFits (bits (xr (coreOf s c) (bits w 53 50)) 21 0) (tileBytes (bits w 49 46)) = true) :
    ∃ clamped, accLdEff s c w = (putAcc s c (loadedAcc (coreOf s c) w) clamped 16, .next) := by
  obtain ⟨hts, hacc, _⟩ := h
  have hgo : ¬ (tileMode (coreOf s c) (bits w 45 41) = 3
      ∨ (fmtFloat (bits w 49 46) && tileMode (coreOf s c) (bits w 45 41) != 0) = true
      ∨ (fmtInt (bits w 49 46) && tileMode (coreOf s c) (bits w 45 41) == 0) = true) := by
    simp only [Bool.and_eq_true, bne_iff_ne, beq_iff_eq]
    tauto
  have hold (add : Bool) (x : Nat) : (if add then accRead (coreOf s c) x else (0, []))
      = ((if add then accVal (coreOf s c) x else 0 : Nat), ([] : List Bad)) := by
    rw [accRead_of_sound hacc]
    split <;> rfl
  -- the fold of 4096 words must stay folded: each step is taken apart by `split`
  unfold accLdEff
  extract_lets k fmt t add m a
  rw [if_neg hgo, if_neg (not_not.2 hfits)]
  split
  next bs bad0 hread =>
  obtain ⟨rfl, rfl⟩ := Prod.mk.inj ((tsRead_of_sound hts _ _).symm.trans hread)
  extract_lets es
  split
  next ws clamped bads hfold =>
  obtain ⟨hws, hbads⟩ := foldl_appends (fun i => [(4096 * t + i, loadedElem k w i)])
    (fun r i => ⟨_, by simp only [k, hold, List.append_nil]; rfl⟩) hfold
  refine ⟨clamped, ?_⟩
  rw [loadedAcc, ← List.nil_append (List.flatMap _ _)]
  exact hws ▸ putAcc_of_words hacc hbads

end Sys2Proof.Machine
end


section
/-! PROOFS. The statistics sets (R119 to R122) of a core whose memories are sound. -/

namespace Sys2Proof.Machine

/-! ### Columns -/

/-- R119: column j of a set as it is stored. -/
def storedCol (k : Core) (t set j : Nat) : StatCol :=
  ⟨accVal k (statIdx t set 0 j), accVal k (statIdx t set 1 j), accVal k (statIdx t set 2 j), accVal k (statIdx t set 3 j),
    accVal k (statIdx t set 4 j), accVal k (statIdx t set 5 j)⟩

theorem statRead_of_sound {k : Core} (h : k.accBad = []) (t set j : Nat) : statRead k t set j = (storedCol k t set j, []) := by
  simp only [statRead, accRead_of_sound h]
  rfl

/-- The words of the 64 columns of a set. -/
def setWords (t set : Nat) (new : Nat → StatCol) : List (Nat × Nat) := (List.range 64).flatMap fun j => statWords t set j (new j)

theorem statIdx_inj {t set r j r' j' : Nat} (hj : j < 64) (hj' : j' < 64) (h : statIdx t set r j = statIdx t set r' j') :
    r = r' ∧ j = j' := by
  unfold statIdx at h
  omega

theorem setWords_keys (t set : Nat) (new : Nat → StatCol) :
    (setWords t set new).map (·.1) = (List.range 64).flatMap fun j => (List.range 6).map fun r => statIdx t set r j := by
  rw [setWords, List.map_flatMap]
  rfl

theorem setWords_nodup (t set : Nat) (new : Nat → StatCol) : ((setWords t set new).map (·.1)).Nodup := by
  rw [setWords_keys, List.nodup_flatMap]
  refine ⟨fun j _ => List.nodup_range.map fun r r' h => by unfold statIdx at h; omega, ?_⟩
  refine List.nodup_range.pairwise_of_forall_ne fun j hj j' hj' hne x hx hx' => hne ?_
  obtain ⟨r, _, rfl⟩ := List.mem_map.1 hx
  obtain ⟨r', _, h⟩ := List.mem_map.1 hx'
  exact (statIdx_inj (List.mem_range.1 hj') (List.mem_range.1 hj) h).2.symm

/-- R119: what a set leaves in the accumulator when its columns are written. -/
theorem smGet_putWords_setWords (m : SMap W32) (t set : Nat) (new : Nat → StatCol) :
    (∀ j, j < 64 → ∀ x ∈ statWords t set j (new j), smGet 0 (putWords m (setWords t set new)) x.1 = BitVec.ofNat 32 x.2)
      ∧ ∀ i, i / 64 < 64 * t + 6 * set ∨ 64 * t + 6 * set + 6 ≤ i / 64 →
        smGet 0 (putWords m (setWords t set new)) i = smGet 0 m i := by
  refine ⟨fun j hj x hx => smGet_putWords_of_mem _ m x (setWords_nodup t set new)
    (List.mem_flatMap.2 ⟨j, List.mem_range.2 hj, hx⟩), fun i hi => smGet_putWords_of_not_mem _ m i fun hmem => ?_⟩
  rw [setWords_keys] at hmem
  obtain ⟨j, hj, hmem⟩ := List.mem_flatMap.1 hmem
  obtain ⟨r, hr, rfl⟩ := List.mem_map.1 hmem
  have := List.mem_range.1 hj
  have := List.mem_range.1 hr
  unfold statIdx at hi
  omega

/-! ### Effects -/

section
variable {s : State} {c w : Nat} (h : Sound s c) (hmode : tileMode (coreOf s c) (bits w 53 49) = 3)
include h hmode

/-- R122: the merge of the 64 columns. -/
theorem accSmrgEff_of_sound (hsrc : tileMode (coreOf s c) (bits w 44 40) = 3) :
    ∃ sat, accSmrgEff s c w = (putAcc s c (putWords (coreOf s c).acc (setWords (bits w 53 49) (bits w 48 45) fun j =>
      (statMerge (storedCol (coreOf s c) (bits w 53 49) (bits w 48 45) j)
        (storedCol (coreOf s c) (bits w 44 40) (bits w 39 36) j)).1)) sat 32, .next) := by
  obtain ⟨_, hacc, _⟩ := h
  unfold accSmrgEff
  extract_lets k t src
  rw [if_neg (by simp [k, t, src, hmode, hsrc])]
  split
  next ws sat bads hfold =>
  obtain ⟨hws, hbads⟩ := foldl_appends (fun j => statWords t (bits w 48 45) j
      (statMerge (storedCol k t (bits w 48 45) j) (storedCol k src (bits w 39 36) j)).1)
    (fun r j => ⟨_, by simp only [k, statRead_of_sound hacc, List.append_nil]; rfl⟩) hfold
  refine ⟨sat, ?_⟩
  rw [setWords, ← List.nil_append (List.flatMap _ _)]
  exact hws ▸ putAcc_of_words hacc hbads

/-- R120: the value of row r and column j of the source of ACC.SADD. -/
def addedVal (k : Core) (w r j : Nat) : Nat :=
  if bit w 44 then loadElem (bits w 34 31) ((elemsOf (memRead k.ts (bits (xr k (bits w 38 35)) 21 0)
    (bits w 30 24 * (tileBytes (bits w 34 31) / 64))) (fmtBits (bits w 34 31))).toArray.getD (64 * r + j) 0)
  else accVal k ((64 * bits w 43 39 + r) * 64 + j)

/-- R120: the rows of the source folded into the 64 columns. -/
theorem accSaddEff_of_sound (htile : bit w 44 = false → tileMode (coreOf s c) (bits w 43 39) = 0)
    (hts : bit w 44 = true → fmtInt (bits w 34 31) = false
      ∧ operandFits (bits (xr (coreOf s c) (bits w 38 35)) 21 0) (tileBytes (bits w 34 31)) = true) :
    ∃ sat, accSaddEff s c w = (putAcc s c (putWords (coreOf s c).acc (setWords (bits w 53 49) (bits w 48 45) fun j =>
      (statFoldAll (storedCol (coreOf s c) (bits w 53 49) (bits w 48 45) j)
        ((List.range (bits w 30 24)).map fun r => addedVal (coreOf s c) w r j)).1)) sat 32, .next) := by
  obtain ⟨hbad, hacc, _⟩ := h
  unfold accSaddEff
  extract_lets k t set src fmt rows a
  rw [if_neg (by simpa [k, t, src, hmode] using htile), if_neg (by simpa [k, a, fmt] using fun h => (hts h).2)]
  split
  next bs bad0 hread =>
  extract_lets es srcVal
  obtain ⟨hbad0, hval⟩ : bad0 = [] ∧ ∀ r j, srcVal r j = (addedVal k w r j, []) := by
    unfold addedVal
    cases h44 : bit w 44 with
    | false =>
      simp only [h44, Bool.false_eq_true, if_false, Prod.mk.injEq] at hread
      exact ⟨hread.2.symm, fun r j => by simp only [srcVal, h44, Bool.false_eq_true, if_false]; exact accRead_of_sound hacc _⟩
    | true =>
      simp only [h44, if_true] at hread
      obtain ⟨rfl, rfl⟩ := Prod.mk.inj ((tsRead_of_sound hbad _ _).symm.trans hread)
      exact ⟨rfl, fun r j => by simp only [srcVal, h44, if_true, fmt, (hts h44).1, Bool.false_eq_true, if_false]; rfl⟩
  split
  next ws sat bads hfold =>
  obtain ⟨hws, hbads⟩ := foldl_appends (fun j => statWords t set j
      (statFoldAll (storedCol k t set j) ((List.range rows).map fun r => addedVal k w r j)).1)
    (fun r j => ⟨_, by simp [k, statRead_of_sound hacc, hval, Function.comp_def]; rfl⟩) hfold
  refine ⟨sat, ?_⟩
  rw [setWords, ← List.nil_append (List.flatMap _ _)]
  exact hws ▸ putAcc_of_words hacc (hbads.trans hbad0)

/-- R121: the core with the mean and the variance of each column of a set in two registers. -/
def finishedCore (k : Core) (w : Nat) : Core :=
  let out (j : Nat) := statFinish (storedCol k (bits w 53 49) (bits w 48 45) j) (bit w 34)
  (k.withElems (bits w 44 40) ((List.range 64).map fun j => (j, (out j).1))).withElems (bits w 39 35)
    ((List.range 64).map fun j => (j, (out j).2))

omit h hmode in
theorem withElems_withElems (k : Core) (d d' : Nat) (ws ws' : List (Nat × Nat)) :
    (k.withElems d ws).withElems d' ws' = { k with vreg := ((k.withElems d ws).withElems d' ws').vreg } := rfl

omit h hmode in
theorem finishedCore_eq (k : Core) (w : Nat) : finishedCore k w = { k with vreg := (finishedCore k w).vreg } :=
  withElems_withElems ..

theorem accSfinEff_of_sound : accSfinEff s c w = (setCore s c (finishedCore (coreOf s c) w), .next) := by
  obtain ⟨_, hacc, hvreg, _⟩ := h
  have hvreg' (d : Nat) (ws : List (Nat × Nat)) (d' : Nat) (ws' : List (Nat × Nat)) :
      vPut ((coreOf s c).withElems d ws) d' ws' = (((coreOf s c).withElems d ws).withElems d' ws', []) :=
    vPut_of_sound (k := (coreOf s c).withElems d ws) hvreg d' ws'
  simp only [accSfinEff, hmode, ne_eq, not_true_eq_false, if_false, statRead_of_sound hacc, vPut_of_sound hvreg, hvreg',
    List.map_map, Function.comp_def]
  exact afterBads_of_nil (by simp [List.flatMap_eq_nil_iff])

end

/-- R121: what the two writes of ACC.SFIN leave; of one register named twice, the variance. -/
theorem elemVal_finishedCore (k : Core) (w : Nat) :
    (∀ j, j < 64 → (bits w 44 40 ≠ bits w 39 35 → elemVal (finishedCore k w) (bits w 44 40) j
        = (statFinish (storedCol k (bits w 53 49) (bits w 48 45) j) (bit w 34)).1 % 2 ^ 32)
      ∧ elemVal (finishedCore k w) (bits w 39 35) j
        = (statFinish (storedCol k (bits w 53 49) (bits w 48 45) j) (bit w 34)).2 % 2 ^ 32)
    ∧ ∀ r i, i < 256 → (r = bits w 44 40 ∨ r = bits w 39 35 → 64 ≤ i) → elemVal (finishedCore k w) r i = elemVal k r i := by
  have hput (l : Core) (d : Nat) (f : Nat → Nat) (r : Nat) {i : Nat} := elemVal_withElems_map (k := l) (d := d) (f := f)
    (List.nodup_range (n := 64)) (fun i hi => (List.mem_range.1 hi).trans (by decide)) r (i := i)
  refine ⟨fun j hj => ⟨fun hne => ?_, ?_⟩, fun r i hi hout => ?_⟩
  · exact ((hput _ _ _ _ (by omega)).2 fun hr => hne hr.1).trans ((hput _ _ _ _ (by omega)).1 ⟨rfl, List.mem_range.2 hj⟩)
  · exact (hput _ _ _ _ (by omega)).1 ⟨rfl, List.mem_range.2 hj⟩
  · have hnot (d : Nat) (hd : r = d → 64 ≤ i) : ¬ (r = d ∧ i ∈ List.range 64) :=
      fun ⟨hr, hmem⟩ => absurd (List.mem_range.1 hmem) (not_lt.2 (hd hr))
    exact ((hput _ _ _ r hi).2 (hnot _ fun h => hout (.inr h))).trans ((hput _ _ _ r hi).2 (hnot _ fun h => hout (.inl h)))

end Sys2Proof.Machine
end

section
/-! PROOFS. ACC.ST (R141) on a core whose memories are sound. -/

namespace Sys2Proof.Machine

/-! ### Bytes of a record read from memory -/

theorem drop_memRead (m : List Host.Cell) : ∀ (i a n : Nat), (memRead m a n).drop i = memRead m (a + i) (n - i)
  | 0, _, _ => rfl
  | i + 1, a, 0 => by simp [memRead]
  | i + 1, a, n + 1 => by
    rw [memRead, List.drop_succ_cons, drop_memRead m i, Nat.add_sub_add_right]
    congr 1
    omega

theorem fieldAt_memRead {m : List Host.Cell} {a i n : Nat} (h : i < n) :
    fieldAt (memRead m a n) i 1 = (memByte m (a + i)).toNat := by
  obtain ⟨d, hd⟩ : ∃ d, n - i = d + 1 := ⟨n - i - 1, by omega⟩
  simp [fieldAt, bytesAt, drop_memRead, hd, memRead, fromLE]

theorem fieldAt_nil (i : Nat) : fieldAt [] i 1 = 0 := by simp [fieldAt, bytesAt, fromLE]

/-- R141: a vector of 64 scales is read only where the word asks for it. -/
theorem scales_of_sound {k : Core} (h : k.tsBad = []) (p : Bool) (b : Nat) :
    (if p then tsRead k b 64 else ([], [])) = ((if p then memRead k.ts b 64 else [] : Bytes), ([] : List Bad)) := by
  cases p
  · rfl
  · exact tsRead_of_sound h b 64

theorem fieldAt_scales {k : Core} (p : Bool) (b : Nat) {i : Nat} (hi : i < 64) :
    fieldAt (if p then memRead k.ts b 64 else []) i 1 = if p then (memByte k.ts (b + i)).toNat else 0 := by
  cases p
  · exact fieldAt_nil i
  · exact fieldAt_memRead hi

/-! ### Values and rows -/

/-- R141: the exact value of element i of the tile that ACC.ST stores. -/
def tileValue (k : Core) (w i : Nat) : Num :=
  let b := bits (xr k (bits w 34 31)) 21 0
  accStValue (tileMode k (bits w 41 37)) (bits w 36 35) (accVal k (4096 * bits w 41 37 + i))
    (scaleExp (if bit (bits w 36 35) 0 then (memByte k.ts (b + i / 64)).toNat else 0))
    (scaleExp (if bit (bits w 36 35) 1 then (memByte k.ts (b + 64 + i % 64)).toNat else 0))

/-- R141: the values of the tile, row after row. -/
def tileValues (k : Core) (w : Nat) : List Num := (List.range 4096).map (tileValue k w)

/-- R73, R141: its rows as G8 groups. -/
def tileRows (k : Core) (w : Nat) : List (Nat × List Int × Flags) :=
  (List.range 64).map fun r => convG8 (convRnd (bits w 49 42)) (((tileValues k w).drop (64 * r)).take 64)

/-- Their mantissas. -/
def rowMants (k : Core) (w : Nat) : Bytes := (tileRows k w).flatMap fun r => r.2.1.map fun m => BitVec.ofInt 8 m

/-- Their exponents. -/
def rowExps (k : Core) (w : Nat) : Bytes := (tileRows k w).map fun r => BitVec.ofNat 8 r.1

theorem length_tileValues (k : Core) (w : Nat) : (tileValues k w).length = 4096 := by
  rw [tileValues, List.length_map, List.length_range]

theorem length_tileRows (k : Core) (w : Nat) : (tileRows k w).length = 64 := by
  rw [tileRows, List.length_map, List.length_range]

theorem length_rowExps (k : Core) (w : Nat) : (rowExps k w).length = 64 := by
  rw [rowExps, List.length_map, length_tileRows]

theorem length_rowMants (k : Core) (w : Nat) : (rowMants k w).length = 4096 := by
  rw [rowMants, length_flatMap_groups (n := 64), length_tileRows]
  intro row hrow
  obtain ⟨r, hr, rfl⟩ := List.mem_map.1 hrow
  have hr := List.mem_range.1 hr
  rw [List.length_map, length_convG8, List.length_take, List.length_drop, length_tileValues]
  omega

/-- R73: the rows' bytes are listed in order. -/
theorem accG8Rows_eq (r : Rnd) (rows : List (List Num)) : ∃ flags, accG8Rows r rows =
    (rows.flatMap fun xs => (convG8 r xs).2.1.map fun m => BitVec.ofInt 8 m,
      rows.map fun xs => BitVec.ofNat 8 (convG8 r xs).1, flags) := by
  induction rows using List.reverseRecOn with
  | nil => exact ⟨_, rfl⟩
  | append_singleton rows xs ih =>
    obtain ⟨flags, ih⟩ := ih
    unfold accG8Rows at ih ⊢
    rw [List.foldl_append, ih]
    exact ⟨flagsOr flags (convG8 r xs).2.2, by simp⟩

/-! ### Effect -/

/-- R141: the tile store with the converted tile. -/
def tileTs (k : Core) (w : Nat) : List Host.Cell :=
  memWrite k.ts (bits (xr k (bits w 53 50)) 21 0)
    (packElems (fmtBits (bits w 49 46)) ((tileValues k w).map fun x => (convElem (bits w 49 42) x).1))

/-- R73, R141: the tile store with the tile's G8 rows and their exponents. -/
def rowsTs (k : Core) (w : Nat) : List Host.Cell :=
  memWrite (memWrite k.ts (bits (xr k (bits w 53 50)) 21 0) (rowMants k w)) (bits (xr k (bits w 34 31)) 21 0) (rowExps k w)

theorem accStEff_of_sound {s : State} {c w : Nat} (h : Sound s c) (hcheck : accStCheck (coreOf s c) w = none) :
    ∃ flags, accStEff s c w = (accFlags (setCore s c ((coreOf s c).withTs (if bits w 49 46 = 10 then
      rowsTs (coreOf s c) w else tileTs (coreOf s c) w))) c flags, .next) := by
  obtain ⟨hts, hacc, _⟩ := h
  unfold accStEff
  extract_lets k t ctl fmt scl a b words badw
  split
  next fl hfl => exact absurd (hcheck.symm.trans hfl) nofun
  split
  next rs br hrs =>
  split
  next cs bc hcs =>
  obtain ⟨rfl, rfl⟩ := Prod.mk.inj ((scales_of_sound hts _ _).symm.trans hrs)
  obtain ⟨rfl, rfl⟩ := Prod.mk.inj ((scales_of_sound hts _ _).symm.trans hcs)
  extract_lets val xs rows cv f
  have hwords : words = (List.range 4096).map fun i => (accVal k (4096 * t + i), []) :=
    List.map_congr_left fun i _ => accRead_of_sound hacc _
  have hbadw : badw = [] := by simp [badw, hwords, List.flatMap_eq_nil_iff]
  have hval (i : Nat) (hi : i < 4096) : val i (accVal k (4096 * t + i)) = tileValue k w i := by
    simp only [val, fieldAt_scales _ _ (show i / 64 < 64 by omega), fieldAt_scales _ _ (show i % 64 < 64 by omega)]
    rfl
  have hxs : xs = tileValues k w := by
    have hzip : words.zip (List.range 4096) = (List.range 4096).map fun i => ((accVal k (4096 * t + i), []), i) := by
      rw [hwords, List.zip_map_left, List.zip_eq_zipWith, List.zipWith_self, List.map_map]
      rfl
    simp only [xs, hzip, List.map_map]
    exact List.map_congr_left fun i hi => hval i (List.mem_range.1 hi)
  rw [hbadw]
  split
  next =>
    obtain ⟨flags, hrows⟩ := accG8Rows_eq (convRnd ctl) rows
    have hbytes : accG8Rows (convRnd ctl) rows = (rowMants k w, rowExps k w, flags) := by
      rw [hrows, rowMants, rowExps, tileRows, ← hxs]
      simp only [rows, List.flatMap_map, List.map_map, Function.comp_def]
      rfl
    rw [hbytes]
    split
    next ms es g heq =>
    obtain ⟨rfl, rfl, rfl⟩ : rowMants k w = ms ∧ rowExps k w = es ∧ flags = g := by simpa using heq
    rw [tsWrite_of_sound (k := k) hts]
    dsimp only
    rw [tsWrite_withTs (k := k) hts]
    exact ⟨flagsNat flags, afterBads_of_nil rfl⟩
  next =>
    have hcv : cv.map (·.1) = (tileValues k w).map fun x => (convElem ctl x).1 := by
      rw [← hxs]
      exact List.map_map
    rw [hcv, tsWrite_of_sound (k := k) hts]
    exact ⟨flagsNat f, afterBads_of_nil rfl⟩

end Sys2Proof.Machine
end

section
/-! PROOFS. What the accumulator's instructions leave of a sound core (R114, R119 to R122, R130, R139 to R141). -/

namespace Sys2Proof.Machine

/-- R114: the core with a tile's mode set and the tile zeroed. -/
def modedCore (k : Core) (t m : Nat) : Core :=
  { k with tmode := setBits k.tmode (2 * t + 1) (2 * t) m, acc := zeroedAcc k t }

theorem accModeEff_of_sound {k : Core} (h : k.accBad = []) (w : Nat) :
    accModeEff k w = (modedCore k (bits w 53 49) (bits w 48 47), .next) :=
  congrArg (·, Flow.next) (accZeroTile_of_sound
    (k := { k with tmode := setBits k.tmode (2 * bits w 53 49 + 1) (2 * bits w 53 49) (bits w 48 47) }) h _)

section
variable {s : State} {c : Fin 96} {w : Nat} (hfree : unitStalled (coreOf s c) false = false) (hsound : Sound s c)
include hfree hsound

/-- R114: what ACC.MODE leaves of the core. -/
theorem issue_accMode (hi : Issues s c 3 0x00 w) : CoreDoes c s []
    { modedCore (coreOf s c) (bits w 53 49) (bits w 48 47) with pc := (coreOf s c).pc + 1, wait := none }
    (accIssue 0x00 (onCore accModeEff) c {} s) := by
  obtain ⟨_, hacc, _⟩ := hsound
  exact accIssue_onCore hi hfree (accModeEff_of_sound hacc w) ⟨rfl, rfl, rfl⟩

/-- R139: ACC.ZERO. -/
theorem issue_accZero (hi : Issues s c 3 0x01 w) : AccResult c s [] (fun i => i / 4096 = bits w 53 49) (fun _ => 0)
    (accIssue 0x01 (onCore fun r w => (accZeroTile r (bits w 53 49), .next)) c {} s) := by
  obtain ⟨_, hbad, _⟩ := hsound
  obtain ⟨hacc, hdoes⟩ := (accIssue_onCore (l := (coreOf s c).withAcc (zeroedAcc (coreOf s c) (bits w 53 49)))
    (f := fun r w => (accZeroTile r (bits w 53 49), .next)) hi hfree (by rw [accZeroTile_of_sound hbad])
    ⟨rfl, rfl, rfl⟩).of_withAcc
  refine ⟨fun i => ⟨fun h => ?_, fun h => ?_⟩, hdoes⟩
  · rw [accVal, hacc, smGet_zeroedAcc, if_pos h]
    rfl
  · rw [accVal, hacc, smGet_zeroedAcc, if_neg h, accVal]

/-- R130, R139: ACC.LD. -/
theorem issue_accLd (hi : Issues s c 3 0x02 w) (hmode : tileMode (coreOf s c) (bits w 45 41) ≠ 3)
    (hfloat : fmtFloat (bits w 49 46) = true → tileMode (coreOf s c) (bits w 45 41) = 0)
    (hint : fmtInt (bits w 49 46) = true → tileMode (coreOf s c) (bits w 45 41) ≠ 0)
    (hfits : operandFits (bits (xr (coreOf s c) (bits w 53 50)) 21 0) (tileBytes (bits w 49 46)) = true) :
    AccResult c s [Csr.ACC_VEC_FLAGS (c / 24) (c % 24)] (fun i => i / 4096 = bits w 45 41)
      (fun i => loadedElem (coreOf s c) w (i % 4096)) (accIssue 0x02 accLdEff c {} s) := by
  have heff := accLdEff_of_sound (w := w) hsound.strike_none
  rw [coreOf_strike_none] at heff
  obtain ⟨clamped, heff⟩ := heff hmode hfloat hint hfits
  obtain ⟨hacc, hdoes⟩ := accIssue_withAcc hi hfree heff
  refine ⟨fun i => ⟨fun h => ?_, fun h => ?_⟩, hdoes⟩
  · rw [accVal, hacc, smGet_loadedAcc, if_pos h, BitVec.toNat_ofNat]
  · rw [accVal, hacc, smGet_loadedAcc, if_neg h, accVal]

/-- R141: what ACC.ST leaves of the core. -/
theorem issue_accSt (hi : Issues s c 3 0x03 w) (hcheck : accStCheck (coreOf s c) w = none) :
    (coreOf (accIssue 0x03 accStEff c {} s) c).ts
        = (if bits w 49 46 = 10 then rowsTs (coreOf s c) w else tileTs (coreOf s c) w)
      ∧ CoreDoes c s [Csr.ACC_VEC_FLAGS (c / 24) (c % 24)]
          { coreOf s c with ts := (coreOf (accIssue 0x03 accStEff c {} s) c).ts, pc := (coreOf s c).pc + 1, wait := none }
          (accIssue 0x03 accStEff c {} s) := by
  have heff := accStEff_of_sound (w := w) hsound.strike_none
  rw [coreOf_strike_none] at heff
  obtain ⟨flags, heff⟩ := heff hcheck
  exact accIssue_withTs hi hfree heff

/-- R119: the words of a set are those of the columns `new`; every other word of the accumulator is as before. -/
def SetResult (c : Nat) (s : State) (t set : Nat) (new : Nat → StatCol) (u : State) : Prop :=
  (∀ j, j < 64 → ∀ x ∈ statWords t set j (new j), accVal (coreOf u c) x.1 = x.2 % 2 ^ 32)
    ∧ (∀ i, i / 64 < 64 * t + 6 * set ∨ 64 * t + 6 * set + 6 ≤ i / 64 → accVal (coreOf u c) i = accVal (coreOf s c) i)
    ∧ CoreDoes c s [Csr.ACC_VEC_FLAGS (c / 24) (c % 24)]
        { coreOf s c with acc := (coreOf u c).acc, pc := (coreOf s c).pc + 1, wait := none } u

omit hsound in
theorem issue_setResult {op t set f : Nat} {new : Nat → StatCol} {eff : State → Nat → Nat → State × Flow}
    (hi : Issues s c 3 op w) (heff : ∃ sat, eff (strike s c {}) c w
      = (putAcc (strike s c {}) c (putWords (coreOf s c).acc (setWords t set new)) sat f, .next)) :
    SetResult c s t set new (accIssue op eff c {} s) := by
  obtain ⟨sat, heff⟩ := heff
  obtain ⟨hacc, hdoes⟩ := accIssue_withAcc hi hfree heff
  obtain ⟨hin, hout⟩ := smGet_putWords_setWords (coreOf s c).acc t set new
  refine ⟨fun j hj x hx => ?_, fun i hi => ?_, hdoes⟩
  · rw [accVal, hacc, hin j hj x hx, BitVec.toNat_ofNat]
  · rw [accVal, hacc, hout i hi, accVal]

variable (hmode : tileMode (coreOf s c) (bits w 53 49) = 3)
include hmode

/-- R120: ACC.SADD. -/
theorem issue_accSadd (hi : Issues s c 3 0x05 w)
    (htile : bit w 44 = false → tileMode (coreOf s c) (bits w 43 39) = 0)
    (hts : bit w 44 = true → fmtInt (bits w 34 31) = false
      ∧ operandFits (bits (xr (coreOf s c) (bits w 38 35)) 21 0) (tileBytes (bits w 34 31)) = true) :
    SetResult c s (bits w 53 49) (bits w 48 45) (fun j => (statFoldAll (storedCol (coreOf s c) (bits w 53 49) (bits w 48 45) j)
      ((List.range (bits w 30 24)).map fun r => addedVal (coreOf s c) w r j)).1) (accIssue 0x05 accSaddEff c {} s) := by
  have heff := accSaddEff_of_sound (w := w) hsound.strike_none
  rw [coreOf_strike_none] at heff
  exact issue_setResult hfree hi (heff hmode htile hts)

/-- R122: ACC.SMRG. -/
theorem issue_accSmrg (hi : Issues s c 3 0x06 w) (hsrc : tileMode (coreOf s c) (bits w 44 40) = 3) :
    SetResult c s (bits w 53 49) (bits w 48 45) (fun j => (statMerge (storedCol (coreOf s c) (bits w 53 49) (bits w 48 45) j)
      (storedCol (coreOf s c) (bits w 44 40) (bits w 39 36) j)).1) (accIssue 0x06 accSmrgEff c {} s) := by
  have heff := accSmrgEff_of_sound (w := w) hsound.strike_none
  rw [coreOf_strike_none] at heff
  exact issue_setResult hfree hi (heff hmode hsrc)

/-- R121: what ACC.SFIN leaves of the core. -/
theorem issue_accSfin (hi : Issues s c 3 0x07 w) : CoreDoes c s []
    { finishedCore (coreOf s c) w with pc := (coreOf s c).pc + 1, wait := none } (accIssue 0x07 accSfinEff c {} s) := by
  have heff := accSfinEff_of_sound (w := w) hsound.strike_none
  rw [coreOf_strike_none] at heff
  rw [accIssue_eq_issue hi hfree]
  exact (issue_coreDoes hi (heff hmode) (coreDoes_setCore s c _) ⟨rfl, rfl, rfl⟩).1

end

end Sys2Proof.Machine

open Sys2Proof Sys2Proof.Machine

/-- Settles O18: of a sound core each effect is written out (`accLdEff_of_sound` and its like). The words of a load and of a
statistics set are listed without repeats, so each holds what was listed for it; the two areas of a G8 store lie apart
(`memWrite_two`). -/
theorem accumulatorInstructions : Obligations.AccumulatorInstructions := by
  refine ⟨?_, ?_, ?_⟩
  · intro s c w k u hfree hsound
    refine ⟨fun hi => ⟨_, rfl, ?_⟩, fun hi => ⟨_, rfl, issue_accZero hfree hsound hi⟩, fun hi => ⟨_, rfl, ?_⟩⟩
    · have hdoes := issue_accMode hfree hsound hi
      have hcore := hdoes.core
      refine ⟨fun i => ?_, ?_, fun v _ hv => ?_, hdoes.congr (by rw [hcore]; rfl)⟩
      · rw [accVal, hcore]
        exact (congrArg BitVec.toNat (smGet_zeroedAcc k u i)).trans (apply_ite ..)
      · rw [hcore]
        exact tileMode_setBits_same k u _ (bits_lt w 48 47)
      · rw [hcore]
        exact tileMode_setBits_ne k hv _
    · show Moves c s _ (accIssue _ _ c {} s)
      rw [accIssue_eq_issue hi hfree]
      exact issue_onCore_moves hi rfl ⟨rfl, rfl, rfl⟩
  · intro s c w k fmt a flags hfree hsound
    refine ⟨?_, ?_⟩
    · intro u m es hi hne hfloat hint hfits
      obtain ⟨hval, hdoes⟩ := issue_accLd hfree hsound hi hne hfloat hint hfits
      refine ⟨_, rfl, fun i => ⟨fun h => ?_, (hval i).2⟩, hdoes⟩
      have hi : 4096 * u + i % 4096 = i := by omega
      exact ((hval i).1 h).trans (congrArg (fun x =>
        (accLoadElem m fmt (bit w 40) (if bit w 40 then accVal k x else 0) (es.getD (i % 4096) 0)).1 % 2 ^ 32) hi)
    · intro u b xs hi hcheck
      obtain ⟨hstore, hdoes⟩ := issue_accSt hfree hsound hi hcheck
      refine ⟨fun hfmt => ?_, fun hfmt hapart => ?_⟩
      · rw [if_neg hfmt] at hstore
        exact ⟨_, rfl, hstore ▸ memRead_memWrite .., fun x hx => hstore ▸ memByte_memWrite_out hx, hdoes⟩
      · obtain ⟨hreadMants, hreadExps, hother⟩ := memWrite_two (m := k.ts) (a := a) (b := b) (bs := rowMants k w)
          (cs := rowExps k w) (by rwa [length_rowMants, length_rowExps])
        rw [length_rowMants] at hreadMants hother
        rw [length_rowExps] at hreadExps hother
        rw [if_pos hfmt] at hstore
        exact ⟨_, rfl, hstore ▸ hreadMants, hstore ▸ hreadExps, fun x hx hx' => hstore ▸ hother x hx hx', hdoes⟩
  · intro s c w k u set flags col becomes hfree hsound hmode
    refine ⟨?_, ?_, fun hi hsrc => ⟨_, rfl, issue_accSmrg hfree hsound hmode hi hsrc⟩, ?_⟩
    · intro hi h44 htile
      have h := issue_accSadd hfree hsound hmode hi (fun _ => htile) fun h => absurd (h44.symm.trans h) nofun
      simp only [addedVal, h44, Bool.false_eq_true, if_false] at h
      exact ⟨_, rfl, h⟩
    · intro fmt a es hi h44 hint hfits
      have h := issue_accSadd hfree hsound hmode hi (fun h => absurd (h44.symm.trans h) nofun) fun _ => ⟨hint, hfits⟩
      simp only [addedVal, h44, if_true] at h
      exact ⟨_, rfl, h⟩
    · intro hi
      have hdoes := issue_accSfin hfree hsound hmode hi
      obtain ⟨hin, hout⟩ := elemVal_finishedCore k w
      have helem (r i : Nat) : elemVal (coreOf (accIssue 0x07 accSfinEff c {} s) c) r i = elemVal (finishedCore k w) r i := by
        rw [hdoes.core, elemVal, elemVal]
      refine ⟨_, rfl, fun j hj => ⟨fun hne => (helem _ j).trans ((hin j hj).1 hne), (helem _ j).trans (hin j hj).2⟩,
        fun r i hi h => (helem r i).trans (hout r i hi h), hdoes.congr ?_⟩
      rw [hdoes.core]
      exact congrArg (fun l : Core => { l with pc := k.pc + 1, wait := none }) (finishedCore_eq k w)

end

section
/-! PROOFS. What a request to a stack leaves of the stack and of every other one: its open row and the registers it counts
in (R147, R157, R178, R179), and the flags of a register. -/

namespace Sys2Proof.Machine

/-! ### Registers -/

@[simp] theorem stkReg_inj {i a b : Nat} : stkReg i a = stkReg i b ↔ a = b := by simp [stkReg]

theorem flag_setFlag {n : Nat} (hn : n < 64) (s : State) (a m : Nat) (b : Bool) :
    flag (setFlag s a n b) a m = if m = n then b else flag s a m := by
  rw [flag, setFlag, rd_setFld_self (Nat.le_refl n) hn, bit, testBit_setBits (Nat.le_refl n)]
  by_cases h : m = n
  · subst h
    cases b <;> simp
  · rw [if_neg (by omega), if_neg h]
    rfl

theorem rd_setFlag_ne {s : State} {a b n : Nat} {x : Bool} (h : b ≠ a) : rd (setFlag s a n x) b = rd s b := rd_wr_ne s _ h

/-- An occurrence counter that grows by nothing leaves every other register. -/
theorem bumpOcc_zero_otherRegs (s : State) (a : Nat) : OtherRegs [a] s (bumpOcc s a 0) := fun b hb => by
  rcases rd_bumpOcc_zero s a b with h | ⟨h, _⟩
  · exact h
  · exact absurd (List.mem_singleton.2 h) hb

theorem bumpStat_otherRegs (s : State) (a n : Nat) (blk : Option Nat) :
    OtherRegs [a, Csr.GLB_STAT_OVF] s (bumpStat s a n blk) := fun b hb => by
  simp only [List.mem_cons, List.not_mem_nil, or_false, not_or] at hb
  exact rd_bumpStat_of_ne hb.1 hb.2

/-! ### Work of one stack -/

/-- Between `s` and `t` only parts of `ps` and registers of `l` changed, and of the stacks only stack i, whose queue of
granule requests stayed. -/
structure StackWork (ps : List Part) (l : List Nat) (i : Nat) (s t : State) : Prop where
  parts : SameBut ps s t
  regs : OtherRegs l s t
  others : ∀ j, j ≠ i → stkOf t j = stkOf s j
  grans : (stkOf t i).grans = (stkOf s i).grans

section
variable {ps qs : List Part} {l m : List Nat} {i : Nat} {s t u : State}

theorem StackWork.refl (ps : List Part) (l : List Nat) (i : Nat) (s : State) : StackWork ps l i s s :=
  ⟨.refl ps s, fun _ _ => rfl, fun _ _ => rfl, rfl⟩

theorem StackWork.trans (h : StackWork ps l i s t) (k : StackWork ps l i t u) : StackWork ps l i s u :=
  ⟨h.parts.trans k.parts, fun a ha => (k.regs a ha).trans (h.regs a ha), fun j hj => (k.others j hj).trans (h.others j hj),
    k.grans.trans h.grans⟩

theorem StackWork.mono (h : StackWork ps l i s t) (hps : Within ps qs) (hl : l ⊆ m) : StackWork qs m i s t :=
  ⟨h.parts.mono hps, fun a ha => h.regs a fun hm => ha (hl hm), h.others, h.grans⟩

theorem stkOf_congr (h : t.stks = s.stks) (j : Nat) : stkOf t j = stkOf s j := by rw [stkOf, stkOf, h]

/-- Where the stacks are no part of what changed. -/
theorem StackWork.of_sameBut (h : SameBut ps s t) (hstks : Part.stks ∉ ps) (hl : OtherRegs l s t) : StackWork ps l i s t :=
  have hs : t.stks = s.stks := h .stks hstks
  ⟨h, hl, fun j _ => stkOf_congr hs j, by rw [stkOf_congr hs]⟩

theorem StackWork.openRowAt (s : State) (i ch bank row : Nat) : StackWork [.stks] [] i s (openRowAt s i ch bank row) where
  parts := openRowAt_same (.refl _) (.refl _ s)
  regs _ _ := rfl
  others j hj := by rw [Machine.openRowAt, stkOf_setStk, if_neg hj]
  grans := by rw [Machine.openRowAt, stkOf_setStk, if_pos rfl]

theorem StackWork.bumpStat (s : State) (i a n : Nat) (blk : Option Nat) :
    StackWork [.csr] [a, Csr.GLB_STAT_OVF] i s (bumpStat s a n blk) :=
  .of_sameBut (bumpStat_same (.refl _) (.refl _ s)) (by decide) (bumpStat_otherRegs s a n blk)

/-- R147, R178: a row is opened and bytes read from it are counted. -/
theorem StackWork.read (s : State) (i ch bank row n : Nat) :
    StackWork [.stks, .csr] [stkReg i 0x48, Csr.GLB_STAT_OVF] i s (countRead (Machine.openRowAt s i ch bank row) i n) :=
  ((StackWork.openRowAt s i ch bank row).mono (by decide) (List.nil_subset _)).trans
    ((StackWork.bumpStat ..).mono (by decide) (List.Subset.refl _))

end

/-! ### Words without a mark -/

/-- R157: a line that holds no error decodes. -/
theorem lineDecode_of_noMark {s : State} {x : Loc} {kind : Nat} (h : smGet none s.fastMark (lineKey x) = none) :
    lineDecode s x kind
      = (countRead (openRowAt s x.stack (x.ch % 32) (fastBank x.a) (fastRow x.a)) x.stack 64, 0) := by
  unfold lineDecode
  extract_lets i v
  have hmark : v.fastMark = s.fastMark := (StackWork.read s i _ _ _ _).parts .fastMark (by decide)
  rw [hmark, h]

/-- R157: a granule that holds no error decodes. -/
theorem granDecode_of_noMark {s : State} {g kind : Nat} (h : smGet none s.deepMark g = none) :
    granDecode s g kind
      = (countRead (openRowAt s (12 + dgaStack g) (dgaChannel g) (dgaBank g) (dgaRow g)) (12 + dgaStack g) 512, 0) := by
  unfold granDecode
  extract_lets i v
  have hmark : v.deepMark = s.deepMark := (StackWork.read s i _ _ _ _).parts .deepMark (by decide)
  rw [hmark, h]

/-! ### What a controller accepts (R148, R180) -/

theorem map_fst_acceptGrans (now : Nat) : ∀ (room : Nat) (q : List (GranReq × Option Nat)),
    (acceptGrans now room q).map (·.1) = q.map (·.1)
  | _, [] => rfl
  | room, (_, some _) :: q => by simp [acceptGrans, map_fst_acceptGrans now room q]
  | 0, (_, none) :: q => by simp [acceptGrans, map_fst_acceptGrans now 0 q]
  | room + 1, (_, none) :: q => by simp [acceptGrans, map_fst_acceptGrans now room q]

/-- A request behind accepted ones is the one that room is used for. -/
theorem acceptGrans_snoc {now room : Nat} {r : GranReq} : ∀ {q : List (GranReq × Option Nat)}, 0 < room →
    (∀ g ∈ q, g.2.isSome = true) → acceptGrans now room (q ++ [(r, none)]) = q ++ [(r, some now)]
  | [], h, _ => by
    obtain ⟨m, rfl⟩ := Nat.exists_eq_succ_of_ne_zero h.ne'
    rfl
  | (_, some _) :: q, h, hq => by
    rw [List.cons_append, acceptGrans, acceptGrans_snoc h fun g hg => hq g (.tail _ hg), List.cons_append]
  | (_, none) :: q, _, hq => nomatch hq _ (.head _)

section
variable {s : State} {i : Nat}

theorem stkOf_stkAccept_ne {j : Nat} (h : j ≠ i) : stkOf (stkAccept s i) j = stkOf s j := by
  unfold stkAccept
  split
  · rw [stkOf_setStk, if_neg h]
  · rfl

/-- A controller that accepts keeps the requests it holds. -/
theorem requests_stkAccept : (stkOf (stkAccept s i) i).grans.map (·.1) = (stkOf s i).grans.map (·.1) := by
  unfold stkAccept
  split
  · rw [stkOf_setStk, if_pos rfl]
    exact map_fst_acceptGrans ..
  · rfl

/-- R180: an open controller with room accepts a request put behind accepted ones. -/
theorem grans_stkAccept_snoc {q : List (GranReq × Option Nat)} {r : GranReq} (hopen : stkOpen s i = true)
    (hq : (stkOf s i).grans = q ++ [(r, none)]) (hall : ∀ g ∈ q, g.2.isSome = true)
    (hroom : acceptedGrans (stkOf s i) < 128) : (stkOf (stkAccept s i) i).grans = q ++ [(r, some s.stamp)] := by
  rw [stkAccept, if_pos hopen, stkOf_setStk, if_pos rfl]
  dsimp only
  rw [hq, acceptGrans_snoc (by omega) hall]

/-- A controller that holds no request stays as it is. -/
theorem stkOf_stkAccept_of_empty {k : Stk} (hk : stkOf s i = k) (hlines : k.lines = []) (hgrans : k.grans = [])
    (j : Nat) : stkOf (stkAccept s i) j = stkOf s j := by
  subst hk
  unfold stkAccept
  split
  · rw [stkOf_setStk]
    split
    next h =>
      subst h
      simp only [hlines, hgrans, List.map_nil, acceptGrans]
      rw [← hlines, ← hgrans]
    · rfl
  · rfl

theorem rd_stkAccept (a : Nat) : rd (stkAccept s i) a = rd s a :=
  stkAccept_same (.refl [.stks]) (.refl _ s) .csr (by decide) a

end

end Sys2Proof.Machine
end

section
/-! PROOFS. Granules read and written one after the other (R150, R157, R159), and a request taken from its queue (R180). -/

namespace Sys2Proof.Machine

/-! ### Bytes one after the other -/

theorem memRead_add (m : List Host.Cell) : ∀ (n a k : Nat), memRead m a (n + k) = memRead m a n ++ memRead m (a + n) k
  | 0, a, k => by rw [Nat.zero_add]; rfl
  | n + 1, a, k => by
    rw [Nat.succ_add, memRead, memRead_add m n (a + 1) k, memRead, List.cons_append, Nat.succ_add_eq_add_succ]

theorem memWrite_append : ∀ (bs cs : Bytes) (m : List Host.Cell) (a : Nat),
    memWrite m a (bs ++ cs) = memWrite (memWrite m a bs) (a + bs.length) cs
  | [], _, _, _ => rfl
  | b :: bs, cs, m, a => by
    rw [List.cons_append, memWrite, memWrite_append bs cs, memWrite, List.length_cons, Nat.succ_add_eq_add_succ]

theorem bytesAt_zero_of_le {bs : Bytes} {n : Nat} (h : n ≤ bs.length) : bytesAt bs 0 n = bs.take n := by
  simp [bytesAt, h]

/-! ### Granules -/

/-- R171: the granules from `g` on, `n` of them, lie in stack i. -/
def GransIn (i g n : Nat) : Prop := ∀ x, g ≤ x → x < g + n → 12 + dgaStack x = i

theorem GransIn.head {i g n : Nat} (h : GransIn i g (n + 1)) : 12 + dgaStack g = i := h g (Nat.le_refl g) (by omega)

theorem GransIn.tail {i g n : Nat} (h : GransIn i g (n + 1)) : GransIn i (g + 1) n :=
  fun x hx hlt => h x (by omega) (by omega)

/-- R180: a request in range names granules of one stack. -/
theorem gransIn_of_granReqOk {d : Nat} {r : GranReq} (h : granReqOk d r = true) : GransIn (12 + d) r.dga r.count := by
  intro x hx hlt
  simp only [granReqOk, Bool.and_eq_true, decide_eq_true_eq, dgaStack, bits, Nat.shiftRight_eq_div_pow] at h ⊢
  omega

section
variable {i : Nat}

theorem granRead_of_decodes {s v : State} {g : Nat} (h : granDecode s g 0x1 = (v, 0)) :
    granRead s g = { s := v, data := memRead v.deep (g * 512) 512 } := by
  unfold granRead
  rw [h]
  rfl

/-- R157: granules without marks are read as they are stored. -/
theorem gransRead_of_noMark : ∀ {n g : Nat} {s : State}, GransIn i g n →
    (∀ x, g ≤ x → x < g + n → smGet none s.deepMark x = none) →
    (gransRead s g n).st = 0 ∧ (gransRead s g n).data = memRead s.deep (g * 512) (512 * n)
      ∧ StackWork [.stks, .csr] [stkReg i 0x48, Csr.GLB_STAT_OVF] i s (gransRead s g n).s
  | 0, _, s, _, _ => ⟨rfl, rfl, .refl _ _ _ s⟩
  | n + 1, g, s, hin, hmark => by
    have hdecode := granDecode_of_noMark (kind := 0x1) (hmark g (Nat.le_refl g) (by omega))
    rw [hin.head] at hdecode
    have hwork := StackWork.read s i (dgaChannel g) (dgaBank g) (dgaRow g) 512
    generalize countRead (openRowAt s i (dgaChannel g) (dgaBank g) (dgaRow g)) i 512 = v at hdecode hwork
    have hread := granRead_of_decodes hdecode
    have hbytes (a k : Nat) : memRead v.deep a k = memRead s.deep a k :=
      memRead_congr fun x _ _ => hwork.parts .deep (by decide) x
    obtain ⟨hst, hdata, hrest⟩ := gransRead_of_noMark (s := v) hin.tail fun x hx hlt => by
      rw [hwork.parts .deepMark (by decide)]
      exact hmark x (by omega) (by omega)
    simp only [gransRead, hread]
    refine ⟨hst, ?_, hwork.trans hrest⟩
    rw [hdata, hbytes, hbytes, Nat.add_mul, Nat.one_mul, Nat.mul_add, Nat.mul_one, Nat.add_comm (512 * n), memRead_add]

/-- R159: one granule written. -/
theorem granWrite_work (s : State) (g : Nat) (bs : Bytes) :
    StackWork [.stks, .csr, .deep, .deepMark] [stkReg (12 + dgaStack g) 0x50, Csr.GLB_STAT_OVF] (12 + dgaStack g) s
      (granWrite s g bs) := by
  have hopen := StackWork.openRowAt s (12 + dgaStack g) (dgaChannel g) (dgaBank g) (dgaRow g)
  have hstk (j : Nat) :
      stkOf (granWrite s g bs) j = stkOf (openRowAt s (12 + dgaStack g) (dgaChannel g) (dgaBank g) (dgaRow g)) j := by
    unfold granWrite
    exact stkOf_congr (countWritten_same (.refl [.csr]) (.refl _ _) .stks (by decide)) j
  refine ⟨granWrite_same (by decide) (.refl _ s), ?_, fun j hj => (hstk j).trans (hopen.others j hj),
    (congrArg _ (hstk _)).trans hopen.grans⟩
  unfold granWrite countWritten
  intro a ha
  rw [bumpStat_otherRegs _ _ _ _ a ha]
  rfl

theorem bumpStat_deep (s : State) (a n : Nat) (blk : Option Nat) : (bumpStat s a n blk).deep = s.deep := by
  unfold bumpStat
  split
  · rfl
  · cases blk <;> rfl

theorem granWrite_deep (s : State) (g : Nat) (bs : Bytes) :
    (granWrite s g bs).deep = memWrite s.deep (g * 512) (bytesAt bs 0 512) := by
  unfold granWrite countWritten
  rw [bumpStat_deep]
  rfl

theorem granWrite_deepMark (s : State) (g : Nat) (bs : Bytes) :
    (granWrite s g bs).deepMark = smSet none s.deepMark g none := by
  unfold granWrite
  exact countWritten_same (.refl [.csr]) (.refl _ _) .deepMark (by decide)

theorem gransWrite_succ (s : State) (g n : Nat) (bs : Bytes) :
    gransWrite s g (n + 1) bs = gransWrite (granWrite s g bs) (g + 1) n (bs.drop 512) := by
  conv_lhs => unfold gransWrite

theorem gransWrite_work : ∀ {n g : Nat} {s : State} {bs : Bytes}, GransIn i g n →
    StackWork [.stks, .csr, .deep, .deepMark] [stkReg i 0x50, Csr.GLB_STAT_OVF] i s (gransWrite s g n bs)
  | 0, _, s, _, _ => .refl _ _ _ s
  | n + 1, g, s, bs, hin => by
    have hfirst := granWrite_work s g bs
    rw [hin.head] at hfirst
    rw [gransWrite_succ]
    exact hfirst.trans (gransWrite_work hin.tail)

/-- R159: whole granules written one after the other are one write of their bytes. -/
theorem gransWrite_deep : ∀ {n g : Nat} {s : State} {bs : Bytes}, bs.length = 512 * n →
    (gransWrite s g n bs).deep = memWrite s.deep (g * 512) bs
  | 0, _, _, [], _ => rfl
  | n + 1, g, s, bs, hlen => by
    rw [Nat.mul_add, Nat.mul_one] at hlen
    have hfirst : 512 ≤ bs.length := hlen ▸ Nat.le_add_left ..
    have hrest : (bs.drop 512).length = 512 * n := by rw [List.length_drop, hlen, Nat.add_sub_cancel]
    rw [gransWrite_succ, gransWrite_deep hrest, granWrite_deep, bytesAt_zero_of_le hfirst, Nat.add_mul, Nat.one_mul]
    conv_rhs => rw [← List.take_append_drop 512 bs, memWrite_append, List.length_take_of_le hfirst]

/-- R159: granules written whole hold no error any more. -/
theorem deepMark_gransWrite : ∀ {n g : Nat} {s : State} {bs : Bytes} (x : Nat),
    smGet none (gransWrite s g n bs).deepMark x = if g ≤ x ∧ x < g + n then none else smGet none s.deepMark x
  | 0, g, s, _, x => by rw [if_neg (by omega)]; rfl
  | n + 1, g, s, bs, x => by
    rw [gransWrite_succ, deepMark_gransWrite, granWrite_deepMark, smGet_smSet]
    by_cases h : x = g
    · rw [if_pos h, ite_self, if_pos (by omega)]
    · rw [if_neg h]
      exact if_congr (by omega) rfl rfl

end

/-! ### The queue of a deep controller -/

theorem execDeepGranuleRequest_of_ok {d : Fin 8} {r : GranReq} {s : State} (h : granReqOk d r = true) :
    execDeepGranuleRequest d r s = .next (stkAccept (setStk { s with answers := [] } (12 + d)
      { stkOf s (12 + d) with grans := (stkOf s (12 + d)).grans ++ [(r, none)] }) (12 + d)) := if_pos h

theorem execDeepGranuleRequest_of_bad {d : Fin 8} {r : GranReq} {s : State} (h : granReqOk d r = false) :
    execDeepGranuleRequest d r s = .next (answer { s with answers := [] } plcUnit 0x0A []) := if_neg (by simp [h])

/-- R180: request n of stack i has left the queue, and nothing is answered yet. -/
structure GranTaken (i n : Nat) (s t : State) : Prop where
  parts : SameBut [.stks, .csr, .answers] s t
  regs : OtherRegs [stkReg i 0x2C] s t
  others : ∀ j, j ≠ i → stkOf t j = stkOf s j
  left : (stkOf t i).grans.map (·.1) = ((stkOf s i).grans.take n ++ (stkOf s i).grans.drop (n + 1)).map (·.1)
  answers : t.answers = []

/-- R180: a request whose bank is free leaves the queue and is performed. -/
theorem execDeepAccessDone_serves {d : Fin 8} {n at_ : Nat} {r : GranReq} {s : State}
    (hreq : (stkOf s (12 + d)).grans[n]? = some (r, some at_)) (hruns : stkRuns s (12 + d) = true)
    (hfree : bankBlocked s (12 + d) (dgaChannel r.dga) (dgaBank r.dga) (dgaRow r.dga) = false) :
    ∃ v, execDeepAccessDone d n [] 0 s = .next (granServe v r) ∧ GranTaken (12 + d) n s v := by
  let v := bumpOcc { s with answers := [] } (stkReg (12 + d) 0x2C) 0
  have hcount : SameBut [.csr] { s with answers := [] } v := bumpOcc_zero_same _ _
  have hanswers : SameBut [.stks, .csr, .answers] s { s with answers := [] } :=
    (same_mk_answers (by decide)).2 (.refl _ s)
  have hstk (j : Nat) : stkOf v j = stkOf s j := stkOf_congr (hcount .stks (by decide)) j
  have hdrop : SameBut [.stks] v (dropGran v (12 + d) n) := dropGran_same (.refl _) (.refl _ v)
  refine ⟨dropGran v (12 + d) n, ?_, ?_, fun a ha => ?_, fun j hj => ?_, ?_, ?_⟩
  · have hruns' : stkRuns { s with answers := [] } (12 + d) = true := hruns
    have hfree' : bankBlocked { s with answers := [] } (12 + d) (dgaChannel r.dga) (dgaBank r.dga) (dgaRow r.dga) = false :=
      hfree
    have hreq' : (stkOf { s with answers := [] } (12 + d)).grans[n]? = some (r, some at_) := hreq
    simp only [execDeepAccessDone, hreq', hruns', hfree', List.zip_nil_right, List.foldl_nil, Bool.not_true, Bool.or_self,
      Bool.false_eq_true, if_false]
    rfl
  · exact hanswers.trans ((hcount.mono (by decide)).trans (hdrop.mono (by decide)))
  · exact (hdrop .csr (by decide) a).trans (bumpOcc_zero_otherRegs { s with answers := [] } _ a ha)
  · rw [dropGran, stkOf_stkAccept_ne hj, stkOf_setStk, if_neg hj, hstk]
  · rw [dropGran, requests_stkAccept, stkOf_setStk, if_pos rfl, hstk]
  · exact (hdrop .answers (by decide)).trans (hcount .answers (by decide))

theorem granServe_of_write {s : State} {r : GranReq} (h : r.write = true) :
    granServe s r = answer (gransWrite s r.dga r.count r.data) plcUnit 0 [] := if_pos h

theorem granServe_of_read {s : State} {r : GranReq} (h : r.write = false) (hst : (gransRead s r.dga r.count).st = 0) :
    granServe s r = answer (gransRead s r.dga r.count).s plcUnit 0 (gransRead s r.dga r.count).data := by
  simp [granServe, h, hst]

/-- What is left of a request once its granules are moved and it is answered. -/
theorem GranTaken.answered {ps : List Part} {l : List Nat} {i n who st : Nat} {bs : Bytes} {s v w : State}
    (h : GranTaken i n s v) (hw : StackWork ps l i v w) (hans : Part.answers ∉ ps) (hps : Within [.stks, .csr] ps) :
    (answer w who st bs).answers = [⟨who, st, bs⟩]
      ∧ (stkOf (answer w who st bs) i).grans.map (·.1)
          = ((stkOf s i).grans.take n ++ (stkOf s i).grans.drop (n + 1)).map (·.1)
      ∧ (∀ j, j ≠ i → stkOf (answer w who st bs) j = stkOf s j)
      ∧ SameBut (.answers :: ps) s (answer w who st bs)
      ∧ OtherRegs (stkReg i 0x2C :: l) s (answer w who st bs) := by
  have hnone : w.answers = [] := (hw.parts .answers hans).trans h.answers
  refine ⟨by rw [answer, hnone]; rfl, ?_, fun j hj => (hw.others j hj).trans (h.others j hj), ?_, fun a ha => ?_⟩
  · exact (congrArg _ hw.grans).trans h.left
  · have hwparts : SameBut (.answers :: ps) v w := hw.parts.mono fun _ hp => .tail _ hp
    refine answer_same (fun _ hp => List.mem_singleton.1 hp ▸ .head _) ((h.parts.mono ?_).trans hwparts)
    intro p hp
    simp only [List.mem_cons, List.not_mem_nil, or_false] at hp
    rcases hp with rfl | rfl | rfl
    · exact .tail _ (hps _ (by decide))
    · exact .tail _ (hps _ (by decide))
    · exact .head _
  · simp only [List.mem_cons, not_or] at ha
    exact (hw.regs a ha.2).trans (h.regs a (by simpa using ha.1))

end Sys2Proof.Machine

open Sys2Proof Sys2Proof.Machine

/-- Settles O28: a request in range is put behind the queue (`requests_stkAccept`, `grans_stkAccept_snoc`). One that completes
has left the queue (`execDeepAccessDone_serves`), and its granules, all of the request's stack, are written as one run of bytes
(`gransWrite_deep`) or read as they are stored (`gransRead_of_noMark`). -/
theorem deepGranules : Obligations.DeepGranules := by
  intro s d r n at_ i k others done left
  refine ⟨fun hok => ⟨_, execDeepGranuleRequest_of_ok hok, ?_, ?_, fun j hj => ?_, fun hopen hroom hall => ?_, ?_⟩,
    fun hbad => ⟨_, execDeepGranuleRequest_of_bad hbad, rfl, ?_⟩, fun hok ⟨hreq, hruns, hfree⟩ hwrite hlen => ?_,
    fun hok ⟨hreq, hruns, hfree⟩ hread hmark => ?_⟩
  · rw [requests_stkAccept, stkOf_setStk, if_pos rfl, List.map_append]
    rfl
  · exact stkAccept_same (.refl [.stks]) (.refl _ _) .answers (by decide)
  · rw [stkOf_stkAccept_ne hj, stkOf_setStk, if_neg hj]
    rfl
  · refine grans_stkAccept_snoc hopen (by rw [stkOf_setStk, if_pos rfl]) hall ?_
    rw [stkOf_setStk, if_pos rfl]
    simpa [acceptedGrans] using hroom
  · exact stkAccept_same (by decide) (setStk_same (by decide) ((same_mk_answers (by decide)).2 (.refl _ s)))
  · exact answer_same (.refl _) ((same_mk_answers (.refl _)).2 (.refl _ s))
  · obtain ⟨v, hexec, htaken⟩ := execDeepAccessDone_serves hreq hruns hfree
    obtain ⟨hans, hleft, hothers, hparts, hregs⟩ := htaken.answered (who := plcUnit) (st := 0) (bs := [])
      (gransWrite_work (bs := r.data) (gransIn_of_granReqOk hok)) (by decide) (by decide)
    rw [granServe_of_write hwrite] at hexec
    have hdeep : (answer (gransWrite v r.dga r.count r.data) plcUnit 0 []).deep = memWrite v.deep (r.dga * 512) r.data :=
      gransWrite_deep hlen
    refine ⟨_, hexec, ?_, fun x hx => ?_, hans, hleft, hothers, fun g => ?_, hparts.mono (by decide), hregs⟩
    · rw [hdeep, ← hlen, memRead_memWrite]
    · rw [Nat.add_mul, Nat.mul_comm r.count, ← hlen] at hx
      rw [hdeep, memByte_memWrite_out hx]
      exact htaken.parts .deep (by decide) x
    · exact (deepMark_gransWrite g).trans (by rw [htaken.parts .deepMark (by decide)])
  · obtain ⟨v, hexec, htaken⟩ := execDeepAccessDone_serves hreq hruns hfree
    obtain ⟨hst, hdata, hwork⟩ := gransRead_of_noMark (s := v) (gransIn_of_granReqOk hok) fun g hg hlt => by
      rw [htaken.parts .deepMark (by decide)]
      exact hmark g hg hlt
    obtain ⟨hans, hleft, hothers, hparts, hregs⟩ := htaken.answered (who := plcUnit) (st := 0)
      (bs := (gransRead v r.dga r.count).data) hwork (by decide) (by decide)
    rw [granServe_of_read hread hst] at hexec
    refine ⟨_, hexec, ?_, hleft, hothers, hparts.mono (by decide), hregs⟩
    rw [hans, hdata, memRead_congr fun x _ _ => htaken.parts .deep (by decide) x]
    rfl

end

section
/-! PROOFS. Refresh, temperature and scrub of a stack (R151 to R153, R161). -/

namespace Sys2Proof.Machine

section
variable {s : State} {i : Nat}

theorem setStk_sets (s : State) (i : Nat) (k : Stk) : stkOf (setStk s i k) i = k
    ∧ (∀ j, j ≠ i → stkOf (setStk s i k) j = stkOf s j) ∧ SameBut [.stks] s (setStk s i k) :=
  ⟨by rw [stkOf_setStk, if_pos rfl], fun j hj => by rw [stkOf_setStk, if_neg hj], setStk_same (.refl _) (.refl _ s)⟩

theorem wr_otherRegs (s : State) (a v : Nat) : OtherRegs [a] s (wr s a v) :=
  fun _ hb => rd_wr_ne s v (by simpa using hb)

theorem setFlag_otherRegs (s : State) (a n : Nat) (b : Bool) : OtherRegs [a] s (setFlag s a n b) :=
  wr_otherRegs s a _

theorem OtherRegs.trans {l m : List Nat} {s t u : State} (h : OtherRegs l s t) (k : OtherRegs m t u) :
    OtherRegs (l ++ m) s u := fun a ha => by
  rw [List.mem_append, not_or] at ha
  exact (k a ha.2).trans (h a ha.1)

theorem OtherRegs.mono {l m : List Nat} {s t : State} (h : OtherRegs l s t) (hl : l ⊆ m) : OtherRegs m s t :=
  fun a ha => h a fun hm => ha (hl hm)

end

/-! ### Refresh -/

section
variable {s : State} {i : Fin 20} {ch bank : Nat}

/-- R152: what an interval does to its bank, before it is counted. -/
theorem execRefreshInterval_next (hbank : bankExists i ch bank = true) (hruns : stkRuns s i = true) :
    ∃ k : Stk, k.owed = smSet 0 (stkOf s i).owed (ch * 64 + bank) (smGet 0 (stkOf s i).owed (ch * 64 + bank) + 1)
      ∧ k.openRow = (stkOf s i).openRow
      ∧ execRefreshInterval i ch bank s
        = .next (if smGet 0 (stkOf s i).owed (ch * 64 + bank) + 1 = (postponeMax s i : Int)
            then bumpOcc (setStk s i k) (stkReg i 0x38) 1 else setStk s i k) := by
  refine ⟨_, ?_, ?_, if_pos ⟨hbank, hruns⟩⟩ <;> rfl

/-- R151: a refresh of a bank that no burst holds. -/
theorem execBankRefresh_next (hbank : bankExists i ch bank = true) (hruns : stkRuns s i = true)
    (howed : -8 < smGet 0 (stkOf s i).owed (ch * 64 + bank)) (hbursts : (stkOf s i).bursts = []) :
    execBankRefresh i ch bank s = .next (setStk s i { stkOf s i with
      owed := smSet 0 (stkOf s i).owed (ch * 64 + bank) (smGet 0 (stkOf s i).owed (ch * 64 + bank) - 1)
      openRow := smSet 0 (stkOf s i).openRow (ch * 64 + bank) 0 }) :=
  if_pos ⟨hbank, hruns, howed, by simp [hbursts]⟩

end

/-! ### Temperature -/

/-- R153: a report is noted, and compared with the limit. -/
theorem execStackTempSample_awake {s : State} {i : Fin 20} {c : Byte} (hawake : awake s = true)
    (hreset : inResetBit s (4 + i) = false) :
    execStackTempSample i c s = .next (
      if ¬ flag s (stkReg i 0x08) 4 ∧ fld s (stkReg i 0x14) 15 8 ≤ c.toNat then
        raise (setFlag (wr s (stkReg i 0x0C) c.toNat) (stkReg i 0x08) 4 true) (56 + i) 0x04 c.toNat
          (fld s (stkReg i 0x14) 15 8)
      else if flag s (stkReg i 0x08) 4 ∧ c.toNat + 5 ≤ fld s (stkReg i 0x14) 15 8 then
        setFlag (wr s (stkReg i 0x0C) c.toNat) (stkReg i 0x08) 4 false
      else wr s (stkReg i 0x0C) c.toNat) := by
  have hstat : flag (wr s (stkReg i 0x0C) c.toNat) (stkReg i 0x08) 4 = flag s (stkReg i 0x08) 4 := by
    rw [flag, rd_wr_ne s _ (by simp), flag]
  rw [execStackTempSample, if_pos ⟨hawake, by simp [stkIdx, hreset]⟩]
  simp only [hstat, stkSrc]

theorem rd_wr_byte (s : State) (a : Nat) (c : Byte) : rd (wr s a c.toNat) a = c.toNat := by
  rw [rd_wr_same, Nat.mod_eq_of_lt (c.isLt.trans (by decide))]

/-- R153: a temperature noted, and the mark of a hot stack set or cleared. -/
theorem temp_noted_marked (s : State) (i : Nat) (c : Byte) (b : Bool) :
    rd (setFlag (wr s (stkReg i 0x0C) c.toNat) (stkReg i 0x08) 4 b) (stkReg i 0x0C) = c.toNat
      ∧ flag (setFlag (wr s (stkReg i 0x0C) c.toNat) (stkReg i 0x08) 4 b) (stkReg i 0x08) 4 = b
      ∧ SameBut [.csr] s (setFlag (wr s (stkReg i 0x0C) c.toNat) (stkReg i 0x08) 4 b)
      ∧ OtherRegs [stkReg i 0x0C, stkReg i 0x08] s (setFlag (wr s (stkReg i 0x0C) c.toNat) (stkReg i 0x08) 4 b) :=
  ⟨by rw [rd_setFlag_ne (by simp), rd_wr_byte], by rw [flag_setFlag (by decide), if_pos rfl],
    setFlag_same (.refl _) (wr_same (.refl _) (.refl _ s)), (wr_otherRegs s _ _).trans (setFlag_otherRegs _ _ _ _)⟩

/-! ### Scrub -/

/-- Stack i has read words, its own, and no word of either tier holds an error. -/
structure ScrubWork (i : Nat) (s t : State) : Prop where
  work : StackWork [.stks, .csr, .fastMark, .deepMark] [stkReg i 0x48, Csr.GLB_STAT_OVF] i s t
  clean : Clean t

section
variable {s t u : State} {i : Nat}

theorem ScrubWork.trans (h : ScrubWork i s t) (k : ScrubWork i t u) : ScrubWork i s u := ⟨h.work.trans k.work, k.clean⟩

/-- Where the marks read as before. -/
theorem ScrubWork.of_read (hc : Clean s) (h : StackWork [.stks, .csr] [stkReg i 0x48, Csr.GLB_STAT_OVF] i s t) :
    ScrubWork i s t where
  work := h.mono (by decide) (List.Subset.refl _)
  clean := by
    rw [Clean, h.parts .fastMark (by decide), h.parts .deepMark (by decide)]
    exact hc

theorem addErrs_zero (m : Option Mark) : addErrs m 0 = m := if_pos rfl

theorem smGet_addErrs_zero (m : SMap (Option Mark)) (k x : Nat) :
    smGet none (smSet none m k (addErrs (smGet none m k) 0)) x = smGet none m x := by
  rw [smGet_smSet, addErrs_zero]
  split
  next h => rw [h]
  · rfl

theorem ScrubWork.strikeLine_zero (hc : Clean s) (k : Nat) : ScrubWork i s (strikeLine s k 0) where
  work := (StackWork.of_sameBut (strikeLine_same (.refl [.fastMark]) (.refl _ s)) (by decide) fun _ _ => rfl).mono
    (by decide) (List.nil_subset _)
  clean := ⟨fun x => (smGet_addErrs_zero ..).trans (hc.1 x), hc.2⟩

theorem ScrubWork.strikeGran_zero (hc : Clean s) (g : Nat) : ScrubWork i s (strikeGran s g 0) where
  work := (StackWork.of_sameBut (strikeGran_same (.refl [.deepMark]) (.refl _ s)) (by decide) fun _ _ => rfl).mono
    (by decide) (List.nil_subset _)
  clean := ⟨hc.1, fun x => (smGet_addErrs_zero ..).trans (hc.2 x)⟩

/-- R161: a fast line without errors is scrubbed. -/
theorem ScrubWork.line (hc : Clean s) (x : Loc) (kind : Nat) :
    ScrubWork x.stack s (lineDecode (strikeLine s (lineKey x) 0) x kind).1 := by
  have hstrike := ScrubWork.strikeLine_zero (i := x.stack) hc (lineKey x)
  rw [lineDecode_of_noMark (hstrike.clean.1 _)]
  exact hstrike.trans (.of_read hstrike.clean (.read ..))

/-- R161: a granule without errors is scrubbed. -/
theorem ScrubWork.gran (hc : Clean s) {g : Nat} (hg : 12 + dgaStack g = i) (kind : Nat) :
    ScrubWork i s (granDecode (strikeGran s g 0) g kind).1 := by
  have hstrike := ScrubWork.strikeGran_zero (i := i) hc g
  have hread := StackWork.read (strikeGran s g 0) i (dgaChannel g) (dgaBank g) (dgaRow g) 512
  rw [granDecode_of_noMark (hstrike.clean.2 _), hg]
  dsimp only
  exact hstrike.trans (.of_read hstrike.clean hread)

/-- Steps that each scrub words of stack i. -/
theorem ScrubWork.foldl {f : State → Nat → State} {xs : List Nat} (hc : Clean s)
    (hf : ∀ t, Clean t → ∀ x ∈ xs, ScrubWork i t (f t x)) : ScrubWork i s (xs.foldl f s) :=
  List.foldlRecOn xs f (motive := ScrubWork i s) ⟨.refl .., hc⟩ fun t ht x hx => ht.trans (hf t ht.clean x hx)

end

/-- R171: the granules of one index of a deep stack lie in it. -/
theorem dgaStack_scrub {d idx ch : Nat} (hd : d < 8) (hidx : idx < 2 ^ 26) (hch : ch < 32) :
    dgaStack (d * 2 ^ 31 + idx * 32 + ch) = d := by
  simp only [dgaStack, bits, Nat.shiftRight_eq_div_pow]
  omega

/-- R161: where no word holds an error, a scrub of one index reads it in every channel. -/
theorem scrubReads_clean {s : State} {i idx : Nat} (hi : i < 20) (hidx : idx < 2 ^ 26) (hc : Clean s) :
    ScrubWork i s (scrubReads s i idx []) := by
  unfold scrubReads
  split
  · exact ScrubWork.foldl hc fun t ht ch _ => .line ht ⟨i, ch, idx * 64⟩ _
  · refine ScrubWork.foldl hc fun t ht ch hch => .gran ht ?_ _
    rw [dgaStack_scrub (by omega) hidx (mem_countUp.1 hch).2]
    omega

/-- R161: the index after which a scrub begins again. -/
def lastScrub (i : Nat) : Nat := if i < 12 then 33554431 else 67108863

/-- R161: a scrub step reads its index, counts, and moves on or begins again. -/
theorem execScrubStep_next {s : State} {i : Fin 20} (hen : flag s (stkReg i 0x04) 1 = true) (hopen : stkOpen s i = true)
    (hc : Clean s) : ∃ v, Clean v
      ∧ StackWork [.stks, .csr, .fastMark, .deepMark] [stkReg i 0x2C, stkReg i 0x48, Csr.GLB_STAT_OVF] i s v
      ∧ execScrubStep i [] 0 s = .next (
        if lastScrub i ≤ bits (rd s (stkReg i 0x20)) 25 0 then
          raise (wr v (stkReg i 0x20) (((bits (rd s (stkReg i 0x20)) 63 32 + 1) % 2 ^ 32) <<< 32)) (56 + i) 0x06
            ((bits (rd s (stkReg i 0x20)) 63 32 + 1) % 2 ^ 32) 0
        else wr v (stkReg i 0x20) (rd s (stkReg i 0x20) + 1)) := by
  have hscrub := scrubReads_clean i.isLt (bits_lt (rd s (stkReg i 0x20)) 25 0) hc
  have hcount := bumpOcc_zero_same (scrubReads s i (bits (rd s (stkReg i 0x20)) 25 0) []) (stkReg i 0x2C)
  have hcounted := StackWork.of_sameBut (i := i) hcount (by decide) (bumpOcc_zero_otherRegs _ _)
  refine ⟨_, ?_, (hscrub.work.mono (.refl _) (List.subset_cons_self _ _)).trans
    (hcounted.mono (by decide) (by simp)), ?_⟩
  · rw [Clean, hcount .fastMark (by decide), hcount .deepMark (by decide)]
    exact hscrub.clean
  · rw [execScrubStep, if_pos ⟨hen, hopen⟩]
    exact (apply_ite Host.Outcome.next ..).symm

end Sys2Proof.Machine
end

section
/-! PROOFS. Register commands of a stack (R162, R164), its initialisation, reset and self-refresh (R172 to R175). -/

namespace Sys2Proof.Machine

/-! ### The registers that an access meets (R33, R178, R179) -/

/-- A register of 32 bits that controllers of both kinds have at one offset. -/
def stkRow (k : Nat) (fast deep : Reg) (off : Nat) (fields : List Field) : RegRow :=
  if k < 12 then ⟨fast, 0x2000000 + off, [(0x100000, 12)], false, fields, 0⟩
  else ⟨deep, 0x3000000 + off, [(0x100000, 8)], false, fields, 0⟩

/-- FSC_CTRL or DSC_CTRL as an access meets it. -/
def stkCtrl (k : Nat) : RegAt :=
  ⟨stkRow k .FSC_CTRL .DSC_CTRL 0x04 [fd 1 1 .rw 1, fd 0 0 .wo 0], [k % 12], stkReg k 0x04, false⟩

/-- FSC_ERR_STAT or DSC_ERR_STAT as an access meets it. -/
def stkErrStat (k : Nat) : RegAt :=
  ⟨stkRow k .FSC_ERR_STAT .DSC_ERR_STAT 0x3C [fd 31 31 .w1c 0, fd 30 28 .ro 0, fd 7 0 .ro 0], [k % 12], stkReg k 0x3C,
    false⟩

theorem stkCtrl_at : ∀ k : Fin 20, regAt (stkReg k 0x04) = some (stkCtrl k) := by decide +kernel

theorem stkErrStat_at : ∀ k : Fin 20, regAt (stkReg k 0x3C) = some (stkErrStat k) := by decide +kernel

/-- R33: the block of a controller. -/
def stkBlk (k : Nat) : Blk := if k < 12 then .fsc k else .dsc (k - 12)

theorem blkOf_stkCtrl : ∀ k : Fin 20, blkOf (stkReg k 0x04) = some (stkBlk k) := by decide +kernel

theorem blkOf_stkErrStat : ∀ k : Fin 20, blkOf (stkReg k 0x3C) = some (stkBlk k) := by decide +kernel

section
variable {s : State} {i : Initiator} {k : Fin 20}

/-- R12: a word written to a register of a stack controller. -/
theorem ctlWrite_stk {off : Nat} {r : RegAt} (h : Access s i (stkReg k off) true) (hr : regAt (stkReg k off) = some r)
    (hb : blkOf r.base = some (stkBlk k)) (hw : r.row.wide = false) (v : W32) :
    ctlWrite i (stkReg k off) 4 v.toNat s = putStk s i r (stkReg k off) v.toNat k := by
  obtain ⟨r', hr', hreach⟩ := h
  obtain rfl : r' = r := Option.some.inj (hr'.symm.trans hr)
  rw [ctlWrite_of_reaches hreach, putWord_narrow hreach hw, putReg, hb, stkBlk]
  by_cases h12 : k.val < 12
  · simp only [h12, if_true]
  · simp only [h12, if_false, show 12 + (k.val - 12) = k.val by omega]

theorem stkRow_wide (k : Nat) (f d : Reg) (off : Nat) (fs : List Field) : (stkRow k f d off fs).wide = false := by
  unfold stkRow
  split <;> rfl

theorem stkRow_fields (k : Nat) (f d : Reg) (off : Nat) (fs : List Field) : (stkRow k f d off fs).fields = fs := by
  unfold stkRow
  split <;> rfl

theorem stkRow_reg (k : Nat) (f d : Reg) (off : Nat) (fs : List Field) :
    (stkRow k f d off fs).reg = if k < 12 then f else d := by
  unfold stkRow
  split <;> rfl

/-- R162: SCRUB_EN takes its bit, and ROWLOG_CLR acts where its bit is 1. -/
theorem putStk_ctrl (s : State) (i : Initiator) (k w v : Nat) : putStk s i (stkCtrl k) w v k
    = whenB (bit v 0) (fun s => rowlogClrEff s k) (setFld s (stkReg k 0x04) 1 1 (bits v 1 1)) := by
  have hfields : putFields s i (stkCtrl k) w v = setFld s (stkReg k 0x04) 1 1 (bits v 1 1) := by
    rw [putFields, show (stkCtrl k).row.fields = _ from stkRow_fields ..]
    rfl
  rw [← hfields]
  by_cases h : k < 12 <;> simp only [putStk, stkCtrl, stkRow_reg, h, if_true, if_false]

/-- R164: the capture clears where VALID's bit is 1. -/
theorem putStk_errStat (s : State) (i : Initiator) (k w v : Nat) :
    putStk s i (stkErrStat k) w v k = whenB (bit v 31) (fun s => errClearEff s k) s := by
  by_cases h : k < 12 <;> simp only [putStk, stkErrStat, stkRow_reg, h, if_true, if_false]

/-! ### Row table and capture -/

/-- A field that is written with what it holds. -/
theorem rd_setFld_bits {s : State} {a hi lo : Nat} (hlo : lo ≤ hi) (hhi : hi < 64) (b : Nat) :
    rd (setFld s a hi lo (bits (rd s a) hi lo)) b = rd s b := by
  by_cases h : b = a
  · subst h
    rw [rd_setFld_self hlo hhi]
    refine Nat.eq_of_testBit_eq fun n => ?_
    rw [testBit_setBits hlo]
    split
    next hn => rw [testBit_bits, decide_eq_true (by omega), Bool.true_and, Nat.add_sub_cancel' hn.1]
    · rfl
  · exact rd_wr_ne s _ h

/-- R162: ROWLOG_CLR written beside the SCRUB_EN that the register holds. -/
theorem execRowlogClr_clears (h : Access s i (stkReg k 0x04) true) : ∃ t, execRowlogClr i k s = .next (rowlogClrEff t k)
    ∧ t.stks = s.stks ∧ SameBut [] s t := by
  have hlt : rd s (stkReg k 0x04) / 2 % 2 * 2 + 1 < 2 ^ 32 := by omega
  have hscrub : bits (rd s (stkReg k 0x04) / 2 % 2 * 2 + 1) 1 1 = bits (rd s (stkReg k 0x04)) 1 1 := by
    simp only [bits, Nat.shiftRight_eq_div_pow]
    omega
  have hclr : bit (rd s (stkReg k 0x04) / 2 % 2 * 2 + 1) 0 = true := by
    rw [bit, Nat.testBit_zero, decide_eq_true_eq]
    omega
  have hwrite := ctlWrite_stk h (stkCtrl_at k) (blkOf_stkCtrl k) (stkRow_wide ..)
    (BitVec.ofNat 32 (rd s (stkReg k 0x04) / 2 % 2 * 2 + 1))
  rw [BitVec.toNat_ofNat, Nat.mod_eq_of_lt hlt, putStk_ctrl, hscrub, hclr] at hwrite
  refine ⟨_, congrArg Host.Outcome.next hwrite, rfl, fun p _ => ?_⟩
  by_cases hp : p = .csr
  · subst hp
    exact rd_setFld_bits (by decide) (by decide)
  · exact setFld_same (.refl [.csr]) (.refl _ s) p (by simpa using hp)

/-- R164: VALID written 1. -/
theorem execErrCaptureClear_clears (h : Access s i (stkReg k 0x3C) true) :
    execErrCaptureClear i k s = .next (errClearEff s k) := by
  have hwrite := ctlWrite_stk h (stkErrStat_at k) (blkOf_stkErrStat k) (stkRow_wide ..) (BitVec.ofNat 32 (2 ^ 31))
  rw [putStk_errStat] at hwrite
  exact congrArg Host.Outcome.next hwrite

end

/-- R164: VALID and EXTRA clear, and the rest of the capture stays. -/
theorem errClearEff_clears (s : State) (k : Nat) :
    flag (errClearEff s k) (stkReg k 0x3C) 31 = false ∧ fld (errClearEff s k) (stkReg k 0x3C) 7 0 = 0
      ∧ fld (errClearEff s k) (stkReg k 0x3C) 30 8 = fld s (stkReg k 0x3C) 30 8 ∧ SameBut [.csr] s (errClearEff s k)
      ∧ OtherRegs [stkReg k 0x3C] s (errClearEff s k) := by
  have hread : rd (errClearEff s k) (stkReg k 0x3C) = setBits (setBits (rd s (stkReg k 0x3C)) 31 31 0) 7 0 0 := by
    rw [errClearEff, rd_setFld_self (by decide) (by decide), setFlag, rd_setFld_self (by decide) (by decide)]
    rfl
  refine ⟨?_, ?_, ?_, errClearEff_same (.refl _) (.refl _ s), ?_⟩
  · rw [flag, hread, bit, testBit_setBits (by decide), if_neg (by decide), testBit_setBits (by decide)]
    rfl
  · rw [fld, hread, bits_setBits_same (by decide)]
    rfl
  · rw [fld, hread, bits_setBits_apart (by decide) (by decide), bits_setBits_apart (by decide) (by decide), fld]
  · exact ((setFlag_otherRegs s _ _ _).trans (wr_otherRegs _ _ _)).mono (by simp)

/-! ### Initialisation, reset and self-refresh -/

/-- R172, R174: stack i's status once READY sets, with INIT_DONE where the contents were kept. -/
def readied (s : State) (i : Nat) (cold : Bool) : State :=
  let t := setFlag (setFlag s (stkReg i 0x08) 0 true) (stkReg i 0x08) 2 false
  if cold then t else setFlag t (stkReg i 0x08) 3 true

theorem readied_changes (s : State) (i : Nat) (cold : Bool) :
    SameBut [.csr] s (readied s i cold) ∧ OtherRegs [stkReg i 0x08] s (readied s i cold) := by
  have hparts : SameBut [.csr] s (setFlag (setFlag s (stkReg i 0x08) 0 true) (stkReg i 0x08) 2 false) :=
    setFlag_same (.refl _) (setFlag_same (.refl _) (.refl _ s))
  have hregs := (setFlag_otherRegs s (stkReg i 0x08) 0 true).trans (setFlag_otherRegs _ (stkReg i 0x08) 2 false)
  cases cold with
  | true => exact ⟨hparts, hregs.mono (by simp)⟩
  | false =>
    exact ⟨setFlag_same (.refl _) hparts, (hregs.trans (setFlag_otherRegs _ (stkReg i 0x08) 3 true)).mono (by simp)⟩

theorem flag_readied (s : State) (i : Nat) (cold : Bool) : flag (readied s i cold) (stkReg i 0x08) 0 = true
    ∧ flag (readied s i cold) (stkReg i 0x08) 2 = false
    ∧ (flag (readied s i cold) (stkReg i 0x08) 3 = true ↔ cold = false ∨ flag s (stkReg i 0x08) 3 = true) := by
  cases cold <;> simp [readied, flag_setFlag]

/-- R172: stack i once its contents are initialised. -/
def initialised (s : State) (i : Nat) : State :=
  setFlag (setStk s i { stkOf s i with cold := false }) (stkReg i 0x08) 3 true

theorem initialised_changes (s : State) (i : Nat) : stkOf (initialised s i) i = { stkOf s i with cold := false }
    ∧ flag (initialised s i) (stkReg i 0x08) 3 = true ∧ (∀ j, j ≠ i → stkOf (initialised s i) j = stkOf s j)
    ∧ SameBut [.stks, .csr] s (initialised s i) ∧ OtherRegs [stkReg i 0x08] s (initialised s i) := by
  obtain ⟨hself, hothers, hparts⟩ := setStk_sets s i { stkOf s i with cold := false }
  exact ⟨hself, by rw [initialised, flag_setFlag (by decide), if_pos rfl], hothers,
    setFlag_same (by decide) (hparts.mono (by decide)), setFlag_otherRegs (setStk ..) _ _ _⟩

/-- R175: stack i out of a power state's self-refresh. -/
def woken (s : State) (i : Nat) : State :=
  setFlag (setFlag (setStk s i { stkOf s i with powerSr := false }) (stkReg i 0x08) 2 false) (stkReg i 0x08) 0 true

theorem woken_changes (s : State) (i : Nat) : stkOf (woken s i) i = { stkOf s i with powerSr := false }
    ∧ flag (woken s i) (stkReg i 0x08) 0 = true ∧ flag (woken s i) (stkReg i 0x08) 2 = false
    ∧ (∀ j, j ≠ i → stkOf (woken s i) j = stkOf s j)
    ∧ SameBut [.stks, .csr] s (woken s i) ∧ OtherRegs [stkReg i 0x08] s (woken s i) := by
  obtain ⟨hself, hothers, hparts⟩ := setStk_sets s i { stkOf s i with powerSr := false }
  exact ⟨hself, by simp [woken, flag_setFlag], by simp [woken, flag_setFlag], hothers,
    setFlag_same (by decide) (setFlag_same (by decide) (hparts.mono (by decide))),
    ((setFlag_otherRegs (setStk ..) _ _ _).trans (setFlag_otherRegs _ _ _ _)).mono (by simp)⟩

section
variable {s : State} {k : Fin 20} (hawake : awake s = true) (hreset : inResetBit s (4 + k) = false)
include hawake hreset

/-- R172: the end of initialisation. -/
theorem execStackInitDone_next (hcold : (stkOf s k).cold = true) (hready : flag s (stkReg k 0x08) 0 = true) :
    execStackInitDone k s = .next (stkAccept (raise (initialised s k) (56 + k) 0x05 0 0) k) :=
  if_pos ⟨hcold, hawake, by simp [stkIdx, hreset], hready⟩

/-- R172, R174: READY sets, and INIT_DONE where the contents were kept. -/
theorem execControllerReady_next (hsr : (stkOf s k).powerSr = false) (hoff : domainOff s (4 + k) = false)
    (hready : flag s (stkReg k 0x08) 0 = false) :
    execControllerReady k s = .next (stkAccept (readied s k (stkOf s k).cold) k) :=
  if_pos ⟨hawake, by simp [stkIdx, hreset], by simp [stkReady, hready], by simp [hsr], by simp [stkIdx, hoff]⟩

/-- R175: a stack is brought out of a power state's self-refresh. -/
theorem execSelfRefreshExit_next (hsr : (stkOf s k).powerSr = true) (hoff : domainOff s (4 + k) = false) :
    execSelfRefreshExit k s = .next (stkAccept (woken s k) k) := by
  rw [execSelfRefreshExit, if_pos ⟨hawake, by simp [stkIdx, hreset], by simp [stkIdx, hoff]⟩, stkWake, if_pos hsr]
  rfl

end

theorem flag_stkAccept (s : State) (i a n : Nat) : flag (stkAccept s i) a n = flag s a n := by
  rw [flag, rd_stkAccept, flag]

theorem stkAccept_otherRegs {l : List Nat} {s t : State} (h : OtherRegs l s t) (i : Nat) : OtherRegs l s (stkAccept t i) :=
  fun a ha => (rd_stkAccept a).trans (h a ha)

end Sys2Proof.Machine

open Sys2Proof Sys2Proof.Machine

/-- Settles O29: each command's next state is written out (`execRefreshInterval_next` and its like). A scrub of clean words
reads its own stack and marks nothing (`scrubReads_clean`); a register command reaches the controller's rule (`ctlWrite_stk`);
and a controller that holds no request accepts nothing (`stkOf_stkAccept_of_empty`). -/
theorem stackControl : Obligations.StackControl := by
  refine ⟨?_, ?_⟩
  · intro s i ch bank celsius k key o others lim stat pos last
    refine ⟨fun hbank hruns hlim => ?_, fun hbank hruns hlim hcount => ?_, fun hbank hruns howed hbursts => ?_,
      fun hawake hreset => ⟨_, execStackTempSample_awake hawake hreset, fun hcool hlow => ?_, fun hcool hhigh => ?_,
        fun hhot hlow => ?_⟩,
      fun hen hopen hfast hdeep hidx hpos => ?_, fun hen hopen hfast hdeep hidx => ?_⟩
    · obtain ⟨k', howed, hrow, hexec⟩ := execRefreshInterval_next hbank hruns
      obtain ⟨hself, hothers, hparts⟩ := setStk_sets s i k'
      rw [if_neg hlim] at hexec
      refine ⟨_, hexec, fun x => ?_, by rw [hself, hrow], hothers, hparts⟩
      rw [hself, howed, smGet_smSet]
    · obtain ⟨k', howed, _, hexec⟩ := execRefreshInterval_next hbank hruns
      obtain ⟨hself, hothers, hparts⟩ := setStk_sets s i k'
      rw [if_pos hlim, bumpOcc_of_lt (s := setStk s i k') hcount] at hexec
      refine ⟨_, hexec, ?_, ?_, hothers, wr_same (by decide) (hparts.mono (by decide)), wr_otherRegs _ _ _⟩
      · exact (congrArg (fun k : Stk => smGet 0 k.owed key) hself).trans (by rw [howed, smGet_smSet, if_pos rfl])
      · rw [rd_wr_same, rd_setStk, Nat.mod_eq_of_lt (hcount.trans (show 2 ^ 32 - 1 < 2 ^ 64 by decide))]
    · obtain ⟨hself, hothers, hparts⟩ := setStk_sets s i { k with
        owed := smSet 0 k.owed key (o - 1), openRow := smSet 0 k.openRow key 0 }
      refine ⟨_, execBankRefresh_next hbank hruns howed hbursts, fun x => ?_, fun x => ?_, hothers, hparts⟩
      · rw [hself, smGet_smSet]
      · rw [hself, smGet_smSet]
    · rw [if_neg fun h => absurd h.2 (Nat.not_le.2 hlow), if_neg fun h => Bool.false_ne_true (hcool.symm.trans h.1)]
      exact ⟨rd_wr_byte .., wr_same (.refl _) (.refl _ s), wr_otherRegs s _ _⟩
    · obtain ⟨htemp, hmark, hparts, hregs⟩ := temp_noted_marked s i celsius true
      refine ⟨_, htemp, hmark, hparts, hregs, if_pos ⟨fun h => Bool.false_ne_true (hcool.symm.trans h), hhigh⟩⟩
    · obtain ⟨htemp, hmark, hparts, hregs⟩ := temp_noted_marked s i celsius false
      rw [if_neg fun h => h.1 hhot, if_pos ⟨hhot, hlow⟩]
      exact ⟨htemp, hmark, hparts, hregs⟩
    · obtain ⟨v, hclean, hwork, hexec⟩ := execScrubStep_next hen hopen ⟨hfast, hdeep⟩
      rw [if_neg (show ¬ lastScrub i ≤ _ from Nat.not_le.2 hidx)] at hexec
      refine ⟨_, hexec, ?_, fun x => ⟨hclean.1 x, hclean.2 x⟩, hwork.others, wr_same (by decide) hwork.parts,
        (hwork.regs.trans (wr_otherRegs v _ _)).mono (by simp)⟩
      rw [rd_wr_same, Nat.mod_eq_of_lt hpos]
    · obtain ⟨v, _, hwork, hexec⟩ := execScrubStep_next hen hopen ⟨hfast, hdeep⟩
      rw [if_pos (show lastScrub i ≤ _ from hidx)] at hexec
      have hpass : (bits pos 63 32 + 1) % 2 ^ 32 < 2 ^ 32 := Nat.mod_lt _ (by decide)
      refine ⟨_, hexec, _, ?_, wr_same (by decide) hwork.parts, rfl⟩
      rw [rd_wr_same, Nat.shiftLeft_eq]
      exact Nat.mod_eq_of_lt (by omega)
  · intro s i k v others stat cap
    refine ⟨fun h => ?_, fun h => ⟨_, execErrCaptureClear_clears h, errClearEff_clears s k⟩,
      fun hlines hgrans hcold hawake hreset hready => ?_,
      fun hlines hgrans hsr hawake hreset hoff hready => ?_, fun hlines hgrans hsr hawake hreset hoff => ?_⟩
    · obtain ⟨t, hexec, hstks, hparts⟩ := execRowlogClr_clears h
      obtain ⟨hself, hothers, hset⟩ := setStk_sets t k { stkOf t k with rowlog := [] }
      exact ⟨_, hexec, hself.trans (by rw [stkOf_congr hstks]), fun j hj => (hothers j hj).trans (stkOf_congr hstks j),
        (hparts.mono nofun).trans hset⟩
    · obtain ⟨hself, hinit, hothers, hparts, hregs⟩ := initialised_changes s k
      have hraise : SameBut [.csr, .evt] (initialised s k) (raise (initialised s k) (56 + k) 0x05 0 0) :=
        raise_same (.refl _) (.refl _ _)
      have hkept := stkOf_congr (hraise .stks (by decide))
      have haccept := stkOf_stkAccept_of_empty ((hkept k).trans hself) hlines hgrans
      exact ⟨_, execStackInitDone_next hawake hreset hcold hready, _, hself, hinit, hothers, hparts, hregs,
        fun j => (haccept j).trans (hkept j), stkAccept_same (by decide) (hraise.mono (by decide)),
        stkAccept_same (.refl [.stks]) (.refl _ _) .evt (by decide)⟩
    · obtain ⟨hparts, hregs⟩ := readied_changes s k v.cold
      obtain ⟨hset, hrefresh, hinit⟩ := flag_readied s k v.cold
      have hkept := stkOf_congr (hparts .stks (by decide))
      have haccept := stkOf_stkAccept_of_empty (hkept k) hlines hgrans
      exact ⟨_, execControllerReady_next hawake hreset hsr hoff hready, (flag_stkAccept ..).trans hset,
        (flag_stkAccept ..).trans hrefresh, by rw [flag_stkAccept]; exact hinit, fun j => (haccept j).trans (hkept j),
        stkAccept_same (by decide) (hparts.mono (by decide)), stkAccept_otherRegs hregs k⟩
    · obtain ⟨hself, hset, hrefresh, hothers, hparts, hregs⟩ := woken_changes s k
      have haccept := stkOf_stkAccept_of_empty hself hlines hgrans
      exact ⟨_, execSelfRefreshExit_next hawake hreset hsr hoff, (haccept k).trans hself, (flag_stkAccept ..).trans hset,
        (flag_stkAccept ..).trans hrefresh, fun j hj => (haccept j).trans (hothers j hj), stkAccept_same (by decide) hparts,
        stkAccept_otherRegs hregs k⟩

end

section
/-! PROOFS. A page command of one page (R205): what PLC_CMD's write begins, and how its part ends. -/

namespace Sys2Proof.Machine

/-! ### PLC_CMD as an access meets it (R33) -/

def plcCmdAt (ch : Nat) : RegAt :=
  ⟨⟨.PLC_CMD, 0x3801000, [(0x100, 4)], false, [fd 8 8 .rw 0, fd 7 0 .wo 0], 0⟩, [ch], Csr.PLC_CMD ch, false⟩

theorem plcCmd_at : ∀ ch : Fin 4, regAt (Csr.PLC_CMD ch) = some (plcCmdAt ch) := by decide +kernel

theorem blkOf_plcCmd : ∀ ch : Fin 4, blkOf (Csr.PLC_CMD ch) = some .plc := by decide +kernel

/-! ### A command begins -/

/-- Nothing is answered, and EVT of PLC_CMD took its bit. -/
def plcWritten (s : State) (ch : Nat) (evt : Bool) : State :=
  setFld { s with answers := [] } (Csr.PLC_CMD ch) 8 8 evt.toNat

/-- R205: the command of channel ch with its arguments, none of whose parts has begun: one page's. -/
def pageCmd (s : State) (ch op : Nat) (evt : Bool) : PlcCmd :=
  { op := op, a0 := rd s (Csr.PLC_CMD_ARG ch 0), a1 := rd s (Csr.PLC_CMD_ARG ch 1), a2 := rd s (Csr.PLC_CMD_ARG ch 2),
    evt := evt, parts := [.todo] }

/-- R205: the channel holds the command, and its part can be tried. -/
def plcBegun (s : State) (ch op : Nat) (evt : Bool) : State :=
  { plcWritten s ch evt with plcCh := smSet none s.plcCh ch (some (pageCmd s ch op evt)) }

/-- The command's part is `r` now. -/
def plcTried (t : State) (ch : Nat) (c : PlcCmd) (r : PlcPart) : State :=
  { t with plcCh := smSet none t.plcCh ch (some { c with parts := [r] }) }

section
variable {s : State} {i : Initiator} {ch : Fin 4} {op : Nat} {evt : Bool}

theorem plcBegun_same (s : State) (ch op : Nat) (evt : Bool) : SameBut [.answers, .plcCh, .csr] s (plcBegun s ch op evt) :=
  (same_mk_plcCh (by decide)).2 (setFld_same (by decide) ((same_mk_answers (by decide)).2 (.refl _ s)))

theorem plcBegun_otherRegs (s : State) (ch op : Nat) (evt : Bool) : OtherRegs [Csr.PLC_CMD ch] s (plcBegun s ch op evt) :=
  fun a ha => wr_otherRegs { s with answers := [] } _ _ a ha

theorem plcCh_plcBegun (s : State) (ch op : Nat) (evt : Bool) :
    smGet none (plcBegun s ch op evt).plcCh ch = some (pageCmd s ch op evt) := by
  rw [plcBegun, smGet_smSet_eq]

theorem holdsCmd_plcTried (t : State) (r : PlcPart) : HoldsCmd s ch op evt [r] (plcTried t ch (pageCmd s ch op evt) r) := by
  rw [HoldsCmd, plcTried, smGet_smSet_eq]
  rfl

theorem plcTried_same (t : State) (ch : Nat) (c : PlcCmd) (r : PlcPart) : SameBut [.plcCh] t (plcTried t ch c r) :=
  (same_mk_plcCh (.refl _)).2 (.refl _ t)

theorem putPlc_plcCmd {w v : Nat} (hidle : smGet none s.plcCh ch = none) (h : v % 256 ≠ 0) :
    putPlc s i (plcCmdAt ch) w v = plcIssue (setFld s (Csr.PLC_CMD ch) 8 8 (bits v 8 8)) i ch (v % 256) (bit v 8) := by
  simp only [putPlc, show (plcCmdAt ch).row.reg = .PLC_CMD from rfl, show (plcCmdAt ch).idx.getD 0 0 = ch from rfl, hidle, h,
    if_false, Option.isSome_none, Bool.false_eq_true]
  rfl

theorem ctlWrite_plcCmd (h : Access s i (Csr.PLC_CMD ch) true) (hidle : smGet none s.plcCh ch = none) (v : W32)
    (hv : v.toNat % 256 ≠ 0) : ctlWrite i (Csr.PLC_CMD ch) 4 v.toNat s
      = plcIssue (setFld s (Csr.PLC_CMD ch) 8 8 (bits v.toNat 8 8)) i ch (v.toNat % 256) (bit v.toNat 8) := by
  obtain ⟨r, hr, hreach⟩ := h
  obtain rfl : plcCmdAt ch = r := Option.some.inj ((plcCmd_at ch).symm.trans hr)
  rw [ctlWrite_of_reaches hreach, putWord_narrow hreach rfl]
  simp only [putReg, show (plcCmdAt ch).base = Csr.PLC_CMD ch from rfl, blkOf_plcCmd, putPlc_plcCmd hidle hv]

/-- R12, R205: an OP that is written to PLC_CMD of an idle channel is issued. -/
theorem plcWrite_issues (h : Access s i (Csr.PLC_CMD ch) true) (hidle : s.plcCh = []) (h0 : op ≠ 0) (hop : op < 256) :
    plcWrite i ch evt op s = .next (plcIssue (plcWritten s ch evt) i ch op evt) := by
  have hle := Bool.toNat_le evt
  obtain ⟨v, hv⟩ : ∃ v : W32, v.toNat = 256 * evt.toNat + op := ⟨.ofNat 32 (256 * evt.toNat + op), by
    rw [BitVec.toNat_ofNat]; omega⟩
  have hbits : bits v.toNat 8 8 = evt.toNat := by
    rw [bits, Nat.shiftRight_eq_div_pow]
    omega
  have hbit : bit v.toNat 8 = evt := by
    rw [bit, Nat.testBit_eq_decide_div_mod_eq, show v.toNat / 2 ^ 8 % 2 = evt.toNat by omega]
    cases evt <;> rfl
  have hop' : v.toNat % 256 = op := by omega
  have hwrite := ctlWrite_plcCmd (s := { s with answers := [] }) h (congrArg (smGet none · ch.val) hidle) v (by omega)
  rw [hbits, hbit, hop'] at hwrite
  have hword : (if evt then 256 else 0) + op = v.toNat := by rw [hv]; cases evt <;> rfl
  rw [plcWrite, write32, hword, hwrite]
  rfl

theorem rd_plcWritten_arg (s : State) (ch : Nat) (evt : Bool) (j : Nat) :
    rd (plcWritten s ch evt) (Csr.PLC_CMD_ARG ch j) = rd s (Csr.PLC_CMD_ARG ch j) :=
  wr_otherRegs { s with answers := [] } _ _ _ (by simp only [Csr.PLC_CMD_ARG, Csr.PLC_CMD, List.mem_singleton]; omega)

/-- R205: the one part of a command that has just begun is tried. -/
theorem tryParts_one {v t : State} {c : PlcCmd} {r : PlcPart} (hc : smGet none v.plcCh ch = some c) (hparts : c.parts = [.todo])
    (htry : tryPart v ch c 0 = (t, r)) (hch : t.plcCh = v.plcCh) : tryParts ch 1 0 v = plcTried t ch c r := by
  simp [tryParts, hc, hparts, htry, hch, setPart, plcTried]

/-- R205: a page command of one page is begun, and its part tried. -/
theorem plcIssue_onePage (hidle : s.plcCh = []) (hready : plcReady s = true) (hop : op < 0x10)
    (hpage : rd s (Csr.PLC_CMD_ARG ch 0) < 2 ^ 26)
    (hargs : argsBad op (rd s (Csr.PLC_CMD_ARG ch 0)) (rd s (Csr.PLC_CMD_ARG ch 1)) (rd s (Csr.PLC_CMD_ARG ch 2)) = false) :
    plcIssue (plcWritten s ch evt) i ch op evt = tryParts ch 1 0 (plcBegun s ch op evt) := by
  have hcount : bits (rd s (Csr.PLC_CMD_ARG ch 0)) 47 32 = 0 := by
    rw [bits, Nat.shiftRight_eq_div_pow]
    omega
  have hready' : plcReady (plcWritten s ch evt) = true := hready
  have hnone : smGet none (plcWritten s ch evt).plcCh ch = none := congrArg (smGet none · ch.val) hidle
  rw [plcIssue, hnone]
  simp only [rd_plcWritten_arg, hready', hargs, hcount, Bool.not_true,
    Bool.false_eq_true, if_false, show ¬ 0x10 ≤ op by omega]
  rw [plcTry]
  simp only [smGet_smSet_eq, Option.isSome_none, Bool.false_eq_true, if_false, show ¬ 0x10 ≤ op by omega]
  rfl

/-! ### The part of a page command -/

/-- What an OP does to page p (R206). -/
def pagePart (v : State) (ch op p a1 a2 : Nat) : State × PlcPart :=
  match op with
  | 0x01 => partRead v ch p
  | 0x02 => partMapCmd v p a1 a2
  | 0x03 => partUnmap v p
  | 0x04 => partSetAttr v p a1 a2
  | 0x05 => partPromote v p a1
  | 0x06 => partDemote v p
  | 0x07 => partFlush v p
  | 0x08 => partHome v p a1
  | 0x09 => partRelocate v p a1
  | 0x0A => partRetire v p
  | 0x0B => partRelease v p
  | _ => partRebuild v ch p a1 a2

theorem tryPart_eq_pagePart {v : State} {c : PlcCmd} (hready : plcReady v = true) (hpage : c.a0 < 2 ^ 26)
    (hstate : (pageEnt v c.a0).state ≠ .migrating) : tryPart v ch c 0 = pagePart v ch c.op c.a0 c.a1 c.a2 := by
  have hp : cmdPage c + 0 = c.a0 := by
    rw [Nat.add_zero, cmdPage, bits, Nat.shiftRight_zero, Nat.mod_eq_of_lt hpage]
  simp only [tryPart, hp, hready, hstate, Nat.not_le.2 hpage, Bool.not_true, Bool.false_eq_true, if_false]
  rfl

/-- R205: the bits that ARG0 of a page command may have. -/
def pageMask : Nat := 2 ^ 26 - 1 + (2 ^ 48 - 2 ^ 32)

theorem strayBits_of_page {a0 : Nat} (hpage : a0 < 2 ^ 26) : strayBits a0 (some pageMask) = false := by
  have hlow : (a0 &&& pageMask) % 2 ^ 26 = a0 := by
    rw [Nat.and_mod_two_pow, Nat.mod_eq_of_lt hpage]
    exact Nat.and_two_pow_sub_one_of_lt_two_pow hpage
  rw [Nat.mod_eq_of_lt (Nat.and_le_left.trans_lt hpage)] at hlow
  exact decide_eq_false (not_not_intro hlow)

theorem argsBad_of_page {a0 a1 a2 : Nat} {m1 m2 : Option Nat} (hmask : argMasks op = some (pageMask, m1, m2))
    (hpage : a0 < 2 ^ 26) (h1 : strayBits a1 m1 = false) (h2 : strayBits a2 m2 = false) : argsBad op a0 a1 a2 = false := by
  have hcount : bits a0 47 32 = 0 := by
    rw [bits, Nat.shiftRight_eq_div_pow]
    omega
  simp [argsBad, hmask, strayBits_of_page hpage, h1, h2, hcount]

/-- R205: a command of one page that begins and whose part answers `r` at once. -/
theorem plcWrite_onePage {t : State} {r : PlcPart} {m1 m2 : Option Nat} (h : PlcStarts s i ch)
    (hpage : rd s (Csr.PLC_CMD_ARG ch 0) < 2 ^ 26) (h0 : op ≠ 0) (hop : op < 0x10)
    (hmask : argMasks op = some (pageMask, m1, m2)) (h1 : strayBits (rd s (Csr.PLC_CMD_ARG ch 1)) m1 = false)
    (h2 : strayBits (rd s (Csr.PLC_CMD_ARG ch 2)) m2 = false)
    (hstate : (pageEnt s (rd s (Csr.PLC_CMD_ARG ch 0))).state ≠ .migrating)
    (hpart : pagePart (plcBegun s ch op evt) ch op (rd s (Csr.PLC_CMD_ARG ch 0)) (rd s (Csr.PLC_CMD_ARG ch 1))
      (rd s (Csr.PLC_CMD_ARG ch 2)) = (t, r))
    (hch : t.plcCh = (plcBegun s ch op evt).plcCh) :
    plcWrite i ch evt op s = .next (plcTried t ch (pageCmd s ch op evt) r) := by
  obtain ⟨haccess, hidle, hready⟩ := h
  have htry := tryPart_eq_pagePart (ch := ch) (v := plcBegun s ch op evt) (c := pageCmd s ch op evt) hready hpage hstate
  rw [plcWrite_issues haccess hidle h0 (by omega),
    plcIssue_onePage hidle hready hop hpage (argsBad_of_page hmask hpage h1 h2),
    tryParts_one (plcCh_plcBegun ..) rfl (htry.trans hpart) hch]

theorem plcTried_sameBut {t : State} {r : PlcPart} {ps : List Part} (hpart : SameBut ps (plcBegun s ch op evt) t)
    (hps : Within [.answers, .plcCh, .csr] ps) : SameBut ps s (plcTried t ch (pageCmd s ch op evt) r) :=
  have htried : SameBut [.plcCh] t (plcTried t ch (pageCmd s ch op evt) r) := plcTried_same t ch _ r
  ((plcBegun_same s ch op evt).mono hps).trans
    (hpart.trans (htried.mono (.trans (by decide) hps)))

theorem plcTried_otherRegs {t : State} {r : PlcPart} {l : List Nat} (hpart : OtherRegs l (plcBegun s ch op evt) t) :
    OtherRegs (Csr.PLC_CMD ch :: l) s (plcTried t ch (pageCmd s ch op evt) r) := fun a ha => by
  rw [List.mem_cons, not_or] at ha
  exact (hpart a ha.2).trans (plcBegun_otherRegs s ch op evt a (by simpa using ha.1))

/-! ### Migrations and what a part leaves of them (R188, R195, R206) -/

theorem pageEnt_setEnt (s : State) (p q : Nat) (e : Ent) : pageEnt (setEnt s p e) q = if q = p then e else pageEnt s q :=
  smGet_smSet ..

/-- A part that wrote page p's entry and no other. -/
theorem pageEnt_plcTried_setEnt (t : State) (p : Nat) (e : Ent) (ch : Nat) (c : PlcCmd) (r : PlcPart) :
    pageEnt (plcTried (setEnt t p e) ch c r) p = e
      ∧ ∀ q, q ≠ p → pageEnt (plcTried (setEnt t p e) ch c r) q = pageEnt t q :=
  ⟨(pageEnt_setEnt t p p e).trans (if_pos rfl), fun q hq => (pageEnt_setEnt t p q e).trans (if_neg hq)⟩

/-- R206: no channel waits for a migration while the only command's part is tried. -/
theorem chanWaits_plcBegun (hidle : s.plcCh = []) (j p : Nat) (dir : MigDir) :
    chanWaits (plcBegun s ch op evt) j p dir = false := by
  have hpart (n : Nat) : ((pageCmd s ch op evt).parts[n]? == some .waits) = false := by cases n <;> rfl
  simp only [chanWaits, plcBegun, hidle, smGet_smSet]
  split
  · rfl
  · next c hc =>
    split at hc
    · cases hc
      rw [hpart, Bool.and_false]
    · cases hc

theorem notify_of_noneWaits {v : State} {p : Nat} {dir : MigDir} {st : Nat} (hnone : ∀ j, chanWaits v j p dir = false)
    (hplans : v.plans = []) : notify v p dir st = v := by
  have hch (j : Nat) : notifyCh p dir st v j = v := by
    unfold notifyCh
    split
    · rw [if_neg (by simp [hnone])]
    · rfl
  have heph : notifyEph v p st = v := by
    cases v
    simp_all [notifyEph]
  have hfold : (countUp 0 4).foldl (notifyCh p dir st) v = v := by simp [countUp, hch]
  simp only [notify, hfold, heph, ite_self]

/-- R188: a page without migrations leaves the engine's care with nothing dropped. -/
theorem dropMigs_of_noMigration {v : State} {p : Nat} (h : NoMigration v p) (hnone : ∀ j dir, chanWaits v j p dir = false) :
    dropMigs v p = v := by
  obtain ⟨hmigq, hslot, hplans, _⟩ := h
  have hfilter : v.migq.filter (fun m => decide (m.page ≠ p)) = v.migq :=
    List.filter_eq_self.2 fun m hm => decide_eq_true (hmigq m hm)
  have hsame : { v with migq := v.migq.filter (fun m => decide (m.page ≠ p)) } = v := by rw [hfilter]
  simp only [dropMigs, hsame, hslot, notify_of_noneWaits (fun j => hnone j _) hplans]

theorem queueMig_of_none {v : State} {p c : Nat} {dir : MigDir} (hmigq : v.migq = []) (hslots : v.slots = []) :
    queueMig v p dir c [] = { v with migq := [{ page := p, cls := c, dir := dir }] } := by
  have hrunning : runningMigs v = [] := by simp [runningMigs, slotOf, hslots]
  simp [queueMig, hmigq, hrunning]

theorem raiseClass_of_single {v : State} {m : Mig} (hmigq : v.migq = [m]) (hslots : v.slots = []) :
    raiseClass v m.page m.cls = v := by
  cases v
  simp_all [raiseClass]

/-- R188: a page of the fast tier holds a frame. -/
theorem InFast.hasFrame {p : Nat} (h : InFast s p) : hasFrame (pageEnt s p) = true := by
  rcases h with h | h | h <;> simp [Machine.hasFrame, h, PSt.hasFrame]

theorem InFast.ne_of_not {p : Nat} {x : PSt} (h : InFast s p)
    (hx : x ≠ .fastHomed ∧ x ≠ .cachedClean ∧ x ≠ .cachedDirty) : (pageEnt s p).state ≠ x := by
  rintro rfl
  rcases h with h | h | h
  · exact hx.1 h
  · exact hx.2.1 h
  · exact hx.2.2 h

end

/-! ### Registers that place frames, and blocks of an extent (R166, R183, R191) -/

/-- Blocks marked one after the other. -/
theorem smGet_foldl_mark (used : Bool) : ∀ (n a : Nat) (m : SMap Bool) (k : Nat),
    smGet false ((countUp a n).foldl (fun m k => smSet false m k used) m) k
      = if a ≤ k ∧ k < a + n then used else smGet false m k
  | 0, a, m, k => by rw [countUp, List.foldl_nil, if_neg (by omega)]
  | n + 1, a, m, k => by
    rw [countUp, List.foldl_cons, smGet_foldl_mark used n, smGet_smSet]
    by_cases h : k = a
    · rw [if_pos h, ite_self, if_pos (by omega)]
    · rw [if_neg h]
      exact if_congr (by omega) rfl rfl

theorem strayBits_of_lt {x n : Nat} (h : x < 2 ^ n) : strayBits x (some (2 ^ n - 1)) = false :=
  decide_eq_false (not_not_intro (Nat.and_two_pow_sub_one_of_lt_two_pow h))

section
variable {s t : State} {l : List Nat} (h : OtherRegs l s t)
include h

theorem OtherRegs.stripedFrames {i : Nat} (hi : Csr.FSC_LAYOUT i ∉ l) : stripedFrames t i = stripedFrames s i := by
  rw [Machine.stripedFrames, Machine.stripedFrames, fld, fld, h _ hi]

theorem OtherRegs.frameIdx (hl : Csr.FSC_LAYOUT 0 ∉ l) (d f : Nat) : frameIdx t d f = frameIdx s d f := by
  simp only [Machine.frameIdx, poolP, h.stripedFrames hl]

end

theorem layout_ne_plcCmd (i ch : Nat) : Csr.FSC_LAYOUT i ∉ [Csr.PLC_CMD ch] := by
  rw [List.mem_singleton, Csr.FSC_LAYOUT, Csr.PLC_CMD]
  omega

theorem frameIdx_plcBegun (s : State) (ch op : Nat) (evt : Bool) (d f : Nat) :
    frameIdx (plcBegun s ch op evt) d f = frameIdx s d f :=
  (plcBegun_otherRegs s ch op evt).frameIdx (layout_ne_plcCmd 0 ch) d f

/-- R183: a frame given up has its code in the map. -/
theorem frameMap_giveFrame (s : State) (e : Ent) (c : Nat) :
    smGet 0 (giveFrame s e c).frameMap (frameIdx s (domOf e.banked e.stack) e.frame) = c := by
  rw [giveFrame, setFrameCode, smGet_smSet_eq]

end Sys2Proof.Machine

end

section
/-! PROOFS. Commands that move a page or give it up (R188, R206). -/

namespace Sys2Proof.Machine

variable {s v : State} {p : Nat}

/-- R188: the entry of a page that HOME made fast-homed. -/
def homedEnt (e : Ent) : Ent := { e with state := .fastHomed, dirty := 0, extLen := 0, dga := 0 }

/-- R188: the entry of a page that RETIRE gave up. -/
def retiredEnt (e : Ent) : Ent :=
  { e with state := .retired, frame := 0, dirty := 0, pstate := .invalid, extLen := 0, dga := 0 }

/-- A promotion, demotion or flush of page p is the only one that waits. -/
def migAsked (v : State) (p cls : Nat) (dir : MigDir) : State := { v with migq := [{ page := p, cls := cls, dir := dir }] }

/-- R205, R206: what PROMOTE, DEMOTE and FLUSH leave, while their page's migration waits. -/
theorem migAsked_leaves (s : State) (ch : Fin 4) (op : Nat) (evt : Bool) (p cls : Nat) (dir : MigDir) :
    let t := plcTried (migAsked (plcBegun s ch op evt) p cls dir) ch (pageCmd s ch op evt) .waits
    HoldsCmd s ch op evt [.waits] t ∧ SameBut [.answers, .plcCh, .csr, .migq] s t ∧ OtherRegs [Csr.PLC_CMD ch] s t :=
  ⟨holdsCmd_plcTried .., plcTried_sameBut ((same_mk_migq (by decide)).2 (.refl _ _)) (by decide),
    plcTried_otherRegs (l := []) fun _ _ => rfl⟩

theorem partPromote_deep (hstate : (pageEnt v p).state = .deepResident) {a1 : Nat} (ha : a1 < 2) (hmigq : v.migq = [])
    (hslots : v.slots = []) : partPromote v p a1 = (migAsked v p (if a1 = 1 then 0 else 4) .promote, .waits) := by
  have hbit : (if bit a1 0 = true then 0 else 4) = if a1 = 1 then 0 else 4 := by
    obtain rfl | rfl : a1 = 0 ∨ a1 = 1 := by omega
    all_goals rfl
  simp only [partPromote, hstate, hbit, queueMig_of_none hmigq hslots]
  exact congrArg (·, PlcPart.waits) (raiseClass_of_single (m := { page := p, cls := _, dir := .promote }) rfl hslots)

theorem partDemote_cached (hstate : (pageEnt v p).state = .cachedClean ∨ (pageEnt v p).state = .cachedDirty)
    (hpin : (pageEnt v p).pin = false) (hlock : (pageEnt v p).lockFw = false) (hnbu : nbuLocked v p = false)
    (hmigq : v.migq = []) (hslots : v.slots = []) : partDemote v p = (migAsked v p 7 .demote, .waits) := by
  rcases hstate with h | h <;> simp [partDemote, h, hpin, hlock, hnbu, queueMig_of_none hmigq hslots, migAsked]

theorem partFlush_dirty (hstate : (pageEnt v p).state = .cachedDirty) (hmigq : v.migq = []) (hslots : v.slots = []) :
    partFlush v p = (migAsked v p 7 .flush, .waits) := by
  simp [partFlush, hstate, queueMig_of_none hmigq hslots, migAsked]

theorem partHome_cached (hstate : (pageEnt v p).state = .cachedClean ∨ (pageEnt v p).state = .cachedDirty)
    (hmigs : NoMigration v p) {a1 : Nat} (ha : a1 = 0)
    (hnone : ∀ j dir, chanWaits v j p dir = false) (hext : (pageEnt v p).extLen ≠ 0) :
    partHome v p a1
      = (setEnt (freeExtent v (pageEnt v p).dga (pageEnt v p).extLen) p (homedEnt (pageEnt v p)), .ended 0) := by
  subst ha
  have hhome : homeFast v p = setEnt (freeExtent v (pageEnt v p).dga (pageEnt v p).extLen) p (homedEnt (pageEnt v p)) := by
    rw [homeFast, if_neg hext]
    rfl
  rcases hstate with h | h <;>
    simp [partHome, h, dropMigs_of_noMigration hmigs hnone, hhome, show bit 0 0 = false from rfl]

theorem freeStorage_frame {e : Ent} (hframe : hasFrame e = true) (hext : e.extLen = 0) (c : Nat) :
    freeStorage v e c = giveFrame v e c := by
  simp [freeStorage, hframe, hext]

theorem partRetire_fast (hfast : InFast v p) (hmigs : NoMigration v p) (hnone : ∀ j dir, chanWaits v j p dir = false)
    (hext : (pageEnt v p).extLen = 0) :
    partRetire v p = (setEnt (giveFrame v (pageEnt v p) 2) p (retiredEnt (pageEnt v p)), .ended 0) := by
  have hdrop : dropMigs (giveFrame v (pageEnt v p) 2) p = giveFrame v (pageEnt v p) 2 :=
    dropMigs_of_noMigration (v := giveFrame v (pageEnt v p) 2) hmigs hnone
  have hinvalid := hfast.ne_of_not (x := .invalid) (by decide)
  have hretired := hfast.ne_of_not (x := .retired) (by decide)
  simp only [partRetire, hinvalid, hretired, or_self, if_false, freeStorage_frame hfast.hasFrame hext, hdrop]
  rfl

theorem partRelease_retired (hstate : (pageEnt v p).state = .retired) : partRelease v p = (setEnt v p {}, .ended 0) := by
  simp [partRelease, hstate]

end Sys2Proof.Machine

open Sys2Proof Sys2Proof.Machine

/-- Settles O33: each command begins on an idle channel and its one part is tried at once (`plcWrite_onePage`). PROMOTE, DEMOTE
and FLUSH leave one migration waiting (`migAsked`); HOME frees the extent's blocks (`smGet_foldl_mark`), RETIRE marks the frame
retired, and neither drops anything of a page without migrations (`dropMigs_of_noMigration`). -/
theorem pageMovement : Obligations.PageMovement := by
  intro s i ch evt p a1 e cmd others hstarts hp
  have hnone (op : Nat) (j : Nat) (dir : MigDir) := chanWaits_plcBegun (op := op) (evt := evt) (ch := ch) hstarts.2.1 j p dir
  have notMigrating {x : PSt} (hx : e.state = x) (hne : x ≠ .migrating) : e.state ≠ .migrating := hx ▸ hne
  refine ⟨fun hstate ha hmigq hslots => ?_, fun hstate hpin hlock hnbu hmigq hslots => ?_, fun hstate hmigq hslots => ?_,
    fun hstate ha hmigs hext => ?_, fun hfast hmigs hext => ?_, fun hstate => ?_⟩
  · exact ⟨_, plcWrite_onePage hstarts hp (by decide) (by decide) rfl (strayBits_of_lt (n := 1) ha) rfl
        (notMigrating hstate nofun) (partPromote_deep (v := plcBegun s ch 0x05 evt) hstate ha hmigq hslots) rfl,
      rfl, migAsked_leaves ..⟩
  · exact ⟨_, plcWrite_onePage hstarts hp (by decide) (by decide) rfl rfl rfl
        (hstate.elim (notMigrating · nofun) (notMigrating · nofun))
        (partDemote_cached (v := plcBegun s ch 0x06 evt) hstate hpin hlock hnbu hmigq hslots) rfl,
      rfl, migAsked_leaves ..⟩
  · exact ⟨_, plcWrite_onePage hstarts hp (by decide) (by decide) rfl rfl rfl (notMigrating hstate nofun)
        (partFlush_dirty (v := plcBegun s ch 0x07 evt) hstate hmigq hslots) rfl,
      rfl, migAsked_leaves ..⟩
  · obtain ⟨hself, hothers⟩ := pageEnt_plcTried_setEnt (freeExtent (plcBegun s ch 0x08 evt) e.dga e.extLen) p (homedEnt e) ch
      (pageCmd s ch 0x08 evt) (.ended 0)
    refine ⟨_, plcWrite_onePage hstarts hp (by decide) (by decide) rfl (strayBits_of_lt (n := 1) (by omega)) rfl
        (hstate.elim (notMigrating · nofun) (notMigrating · nofun))
        (partHome_cached (v := plcBegun s ch 0x08 evt) hstate hmigs ha (hnone _) hext) rfl,
      hself, hothers, fun k hlo hhi => ?_, holdsCmd_plcTried ..,
      plcTried_sameBut (setEnt_same (by decide) (freeExtent_same (by decide) (.refl _ _))) (by decide),
      plcTried_otherRegs (l := []) fun _ _ => rfl⟩
    exact (smGet_foldl_mark ..).trans (if_pos ⟨hlo, hhi⟩)
  · obtain ⟨hself, hothers⟩ := pageEnt_plcTried_setEnt (giveFrame (plcBegun s ch 0x0A evt) e 2) p (retiredEnt e) ch
      (pageCmd s ch 0x0A evt) (.ended 0)
    have hframe := frameMap_giveFrame (plcBegun s ch 0x0A evt) e 2
    rw [frameIdx_plcBegun] at hframe
    exact ⟨_, plcWrite_onePage hstarts hp (by decide) (by decide) rfl rfl rfl (hfast.ne_of_not (by decide))
        (partRetire_fast (v := plcBegun s ch 0x0A evt) hfast hmigs (hnone _) hext) rfl,
      hself, hothers, hframe, holdsCmd_plcTried ..,
      plcTried_sameBut (setEnt_same (by decide) (giveFrame_same (by decide) (.refl _ _))) (by decide),
      plcTried_otherRegs (l := []) fun _ _ => rfl⟩
  · obtain ⟨hself, hothers⟩ := pageEnt_plcTried_setEnt (plcBegun s ch 0x0B evt) p {} ch (pageCmd s ch 0x0B evt) (.ended 0)
    exact ⟨_, plcWrite_onePage hstarts hp (by decide) (by decide) rfl rfl rfl (notMigrating hstate nofun)
        (partRelease_retired (v := plcBegun s ch 0x0B evt) hstate) rfl,
      hself, hothers, holdsCmd_plcTried .., plcTried_sameBut (setEnt_same (by decide) (.refl _ _)) (by decide),
      plcTried_otherRegs (l := []) fun _ _ => rfl⟩

end

section
/-! PROOFS. Placement of frames: which registers decide it, and a whole frame of zeros (R149, R166 to R168, R183, R190). -/

namespace Sys2Proof.Machine

/-! ### Registers that place frames and open stacks -/

/-- No register of `l` places frames (FSC_LAYOUT, PLC_TABLE) or opens a stack (FSC_STAT, DSC_STAT, GLB_QUIESCE_REQ). -/
structure PlacesNothing (l : List Nat) : Prop where
  layout : ∀ i, Csr.FSC_LAYOUT i ∉ l
  table : Csr.PLC_TABLE ∉ l
  stat : ∀ i, stkReg i 0x08 ∉ l
  quiesceReq : Csr.GLB_QUIESCE_REQ ∉ l

theorem placesNothing_plcCmd (ch : Fin 4) : PlacesNothing [Csr.PLC_CMD ch] := by
  have := ch.isLt
  constructor <;> simp only [List.mem_singleton, Csr.FSC_LAYOUT, Csr.PLC_TABLE, Csr.GLB_QUIESCE_REQ, Csr.PLC_CMD, stkReg]
  · omega
  · omega
  · intro i
    split <;> omega
  · omega

section
variable {s t : State} {l : List Nat} (hl : PlacesNothing l) (h : OtherRegs l s t)
include hl h

theorem PlacesNothing.locFits (f : Frame) (x : Loc) : locFits t f x = locFits s f x := by
  simp only [Machine.locFits, h.stripedFrames (hl.layout _)]

theorem PlacesNothing.frameFits {f : Frame} (hfit : FrameFits s f) : FrameFits t f := fun o ho => by
  rw [hl.locFits h]
  exact hfit o ho

theorem PlacesNothing.findFrame (hmap : t.frameMap = s.frameMap) (hcur : t.frameCur = s.frameCur) (d : Nat) :
    findFrame t d = findFrame s d := by
  have hlo : domLo t d = domLo s d := by simp only [domLo, h.stripedFrames (hl.layout _)]
  have hhi : domHi t d = domHi s d := by simp only [domHi, poolP, h.stripedFrames (hl.layout _)]
  have hspan : regionSpan t d = regionSpan s d := by simp only [regionSpan, baseFrame, fld, h _ hl.table]
  have hused : usedFrames t d = usedFrames s d := by
    simp only [usedFrames, h.frameIdx (hl.layout 0), hlo, hhi, hmap]
  simp only [Machine.findFrame, hused, hspan, hlo, hhi, hcur]

end

theorem stkOpen_plcBegun (s : State) (ch : Fin 4) (op : Nat) (evt : Bool) (i : Nat) :
    stkOpen (plcBegun s ch op evt) i = stkOpen s i := by
  have hl := placesNothing_plcCmd ch
  have hregs := plcBegun_otherRegs s ch op evt
  simp only [stkOpen, works, blkHeld, quiesceWanted, stkReady, stkInitDone, flag, hregs _ hl.quiesceReq, hregs _ (hl.stat _)]
  rfl

theorem tiersOpen_plcBegun (s : State) (ch : Fin 4) (op : Nat) (evt : Bool) (is : List Nat) :
    tiersOpen (plcBegun s ch op evt) is = tiersOpen s is := by
  simp only [tiersOpen, stkOpen_plcBegun]

/-! ### Lines of a frame -/

/-- R167, R168: a line lies whole in one channel, and its bytes one after the other. -/
theorem fastKey_frameLoc_add {o j : Nat} (f : Frame) (ho : o % 64 = 0) (hj : j < 64) :
    fastKey (frameLoc f (o + j)) = fastKey (frameLoc f o) + j := by
  have hdiv : (o + j) / 256 = o / 256 := by omega
  have hmod : (o + j) % 256 = o % 256 + j := by omega
  unfold frameLoc
  split <;> simp only [bankedLoc, stripedLoc, fastKey, hdiv, hmod] <;> omega

theorem line_mem_linePieces_page {o : Nat} (h : o < 2 ^ 18) : (o / 64 * 64, 64) ∈ linePieces 0 (2 ^ 18) := by
  simp only [linePieces, Nat.reducePow, OfNat.ofNat_ne_zero, if_false, List.mem_map, mem_countUp]
  refine ⟨o / 64, by omega, ?_⟩
  simp only [Prod.mk.injEq]
  omega

theorem linePieces_page_aligned {q : Nat × Nat} (h : q ∈ linePieces 0 (2 ^ 18)) : q.1 % 64 = 0 := by
  simp only [linePieces, Nat.reducePow, OfNat.ofNat_ne_zero, if_false, List.mem_map, mem_countUp] at h
  obtain ⟨k, _, rfl⟩ := h
  dsimp only
  omega

/-! ### Whole lines of zeros -/

theorem bumpStat_fast (s : State) (a n : Nat) (blk : Option Nat) : (bumpStat s a n blk).fast = s.fast := by
  unfold bumpStat
  split
  · rfl
  · cases blk <;> rfl

section
variable {l : List Nat} {s : State} {f : Frame}

theorem lineWrite_wholeLine_leaves {x : Loc} {bs : Bytes} (hb : bs.length = 64) :
    (lineWrite s x bs).s.fast = memWrite s.fast (fastKey x) bs
      ∧ SameBut [.csr, .stks, .fast, .fastMark] s (lineWrite s x bs).s := by
  simp only [lineWrite, hb, if_true]
  exact ⟨bumpStat_fast .., countWritten_same (by decide)
    ((same_mk_fast_fastMark (ps := [.csr, .stks, .fast, .fastMark]) (by decide)).2 (openRowAt_same (by decide) (.refl _ s)))⟩

theorem getD_of_zeros {bs : Bytes} (h : ∀ b ∈ bs, b = 0) (k : Nat) : bs[k]?.getD 0 = 0 := by
  rcases hk : bs[k]? with _ | b
  · rfl
  · exact h b (List.mem_of_getElem? hk)

theorem bytesAt_zeros {bs : Bytes} (h : ∀ b ∈ bs, b = 0) (o n : Nat) : ∀ b ∈ bytesAt bs o n, b = 0 := by
  intro b hb
  rcases List.mem_append.1 hb with hb | hb
  · exact h b (List.mem_of_mem_drop (List.mem_of_mem_take hb))
  · exact List.eq_of_mem_replicate hb

/-- Byte x lies in a line that the list names. -/
def InLines (f : Frame) (ps : List (Nat × Nat)) (x : Nat) : Prop :=
  ∃ q ∈ ps, fastKey (frameLoc f q.1) ≤ x ∧ x < fastKey (frameLoc f q.1) + 64

/-- R149: whole lines of zeros: their bytes are zero, and no other byte changes. -/
theorem frameWriteAt_zeros (hl : Counters l) : ∀ {ps : List (Nat × Nat)} {s : State} {bs : Bytes},
    (∀ q ∈ ps, q.2 = 64 ∧ locFits s f (frameLoc f q.1) = true ∧ stkReg (frameLoc f q.1).stack 0x50 ∈ l) →
    (∀ b ∈ bs, b = 0) → SameBut [.csr, .stks, .fast, .fastMark] s (frameWriteAt s f ps bs).s
      ∧ ∀ x, (InLines f ps x → memByte (frameWriteAt s f ps bs).s.fast x = 0)
        ∧ (¬ InLines f ps x → memByte (frameWriteAt s f ps bs).s.fast x = memByte s.fast x)
  | [], s, _, _, _ => ⟨.refl _ s, fun _ => ⟨fun ⟨_, h, _⟩ => (nomatch h), fun _ => rfl⟩⟩
  | (o, n) :: ps, s, bs, h, hz => by
    obtain ⟨hn, hfits, hmem⟩ := h (o, n) (.head _)
    have hlen : (bytesAt bs 0 n).length = 64 := (length_bytesAt ..).trans hn
    obtain ⟨_, hwork, _⟩ := lineWrite_wholeLine (s := s) hl hmem hlen
    obtain ⟨hfast, hparts⟩ := lineWrite_wholeLine_leaves (s := s) (x := frameLoc f o) hlen
    obtain ⟨hparts', hbytes⟩ := frameWriteAt_zeros hl (ps := ps) (s := (lineWrite s (frameLoc f o) (bytesAt bs 0 n)).s)
      (bs := bs.drop n) (fun q hq => by rw [hwork.locFits hl]; exact h q (.tail _ hq))
      fun b hb => hz b (List.mem_of_mem_drop hb)
    simp only at hfits
    simp only [frameWriteAt, hfits, if_true]
    refine ⟨hparts.trans hparts', fun x => ⟨fun hin => ?_, fun hout => ?_⟩⟩
    · by_cases hrest : InLines f ps x
      · exact (hbytes x).1 hrest
      · obtain ⟨q, hq, hx⟩ := hin
        rcases List.mem_cons.1 hq with rfl | hq
        · rw [(hbytes x).2 hrest, hfast, memByte_memWrite, if_pos (by rw [hlen]; exact hx),
            getD_of_zeros (bytesAt_zeros hz 0 n)]
        · exact absurd ⟨q, hq, hx⟩ hrest
    · rw [(hbytes x).2 fun ⟨q, hq, hx⟩ => hout ⟨q, .tail _ hq, hx⟩, hfast,
        memByte_memWrite_out (by
          rw [hlen]
          by_contra hx
          exact hout ⟨(o, n), .head _, by simp only; omega⟩)]

/-- R149, R206: a frame of zeros is written. -/
theorem frameWrite_zeroPage (hl : Counters l) (hfit : FrameFits s f)
    (hw : ∀ o, o < 2 ^ 18 → stkReg (frameLoc f o).stack 0x50 ∈ l) :
    SameBut [.csr, .stks, .fast, .fastMark] s (frameWrite s f 0 zeroPage).s
      ∧ (∀ o, o < 2 ^ 18 → frameByte (frameWrite s f 0 zeroPage).s f o = 0)
      ∧ OtherFrames f s (frameWrite s f 0 zeroPage).s := by
  rw [frameWrite, length_zeroPage]
  obtain ⟨hparts, hbytes⟩ := frameWriteAt_zeros (s := s) (f := f) (ps := linePieces 0 (2 ^ 18)) (bs := zeroPage) hl
    (fun q hq => by
      obtain ⟨ho, hn⟩ := linePieces_page hq
      exact ⟨hn, (hfit _ ho).1, hw _ ho⟩)
    fun b hb => List.eq_of_mem_replicate hb
  refine ⟨hparts, fun o ho => (hbytes _).1 ⟨_, line_mem_linePieces_page ho, ?_⟩, fun x hx => (hbytes x).2 ?_⟩
  · have hkey := fastKey_frameLoc_add f (o := o / 64 * 64) (j := o % 64) (by omega) (by omega)
    rw [show o / 64 * 64 + o % 64 = o by omega] at hkey
    simp only
    omega
  · rintro ⟨q, hq, hlow, hhigh⟩
    have hkey := fastKey_frameLoc_add f (o := q.1) (j := x - fastKey (frameLoc f q.1)) (linePieces_page_aligned hq) (by omega)
    have hpage := linePieces_page hq
    have haligned := linePieces_page_aligned hq
    exact hx _ (by omega) (hkey.trans (by omega))

end

/-! ### The counters of the tiers -/

theorem tierRegs_counters : Counters tierRegs := ⟨by decide, by decide, by decide, by decide⟩

theorem written_mem_tierRegs {i : Nat} (h : i < 20) : stkReg i 0x50 ∈ tierRegs := by
  simp only [tierRegs, List.mem_append, List.mem_map, List.mem_range]
  exact .inr ⟨i, h, rfl⟩

/-- R167, R168: a frame lies in the fast stacks. -/
theorem frameLoc_stack_lt {f : Frame} (h : f.banked = true → f.stack ≤ 11) (o : Nat) : (frameLoc f o).stack < 20 := by
  unfold frameLoc
  split
  next hb => exact (h hb).trans_lt (by decide)
  · simp only [stripedLoc]
    omega

end Sys2Proof.Machine
end

section
/-! PROOFS. READ, MAP, UNMAP and SET_ATTR (R188, R191, R205, R206). -/

namespace Sys2Proof.Machine

variable {s v : State} {p : Nat}

/-! ### READ -/

theorem rd_plcBegun {ch : Fin 4} {a : Nat} (op : Nat) (evt : Bool) (h : a ≠ Csr.PLC_CMD ch) :
    rd (plcBegun s ch op evt) a = rd s a :=
  plcBegun_otherRegs s ch op evt a (by simpa using h)

theorem epochNow_plcBegun (s : State) (ch : Fin 4) (op : Nat) (evt : Bool) :
    epochNow (plcBegun s ch op evt) = epochNow s := by
  have hne : Csr.PLC_EPOCH ≠ Csr.PLC_CMD ch := by
    simp only [Csr.PLC_EPOCH, Csr.PLC_CMD]
    omega
  rw [epochNow, epochNow, fld, fld, rd_plcBegun op evt hne]

theorem currentHeat_plcBegun (s : State) (ch : Fin 4) (op : Nat) (evt : Bool) (p : Nat) :
    currentHeat (plcBegun s ch op evt) p = currentHeat s p := by
  simp only [currentHeat, epochNow_plcBegun]
  rfl

/-- R206: the words that READ shows. -/
def readWords (s : State) (p : Nat) : List Nat :=
  entWords (pageEnt s p) (currentHeat s p) (epochNow s) (nbuLocked s p)

theorem readWords_plcBegun (s : State) (ch : Fin 4) (op : Nat) (evt : Bool) (p : Nat) :
    readWords (plcBegun s ch op evt) p = readWords s p := by
  simp only [readWords, currentHeat_plcBegun, epochNow_plcBegun]
  rfl

/-- The words of an entry put in PLC_CMD_ENTRY. -/
def entryShown (s : State) (ch : Nat) (ws : List Nat) : State :=
  (ws.zip (countUp 0 4)).foldl (fun s x => wr s (Csr.PLC_CMD_ENTRY ch x.2) x.1) s

theorem partRead_shows (v : State) (ch p : Nat) : partRead v ch p = (entryShown v ch (readWords v p), .ended 0) := rfl

theorem entry_ne {ch j k : Nat} (h : j ≠ k) : Csr.PLC_CMD_ENTRY ch j ≠ Csr.PLC_CMD_ENTRY ch k := by
  simp only [Csr.PLC_CMD_ENTRY]
  omega

theorem entryShown_four (s : State) (ch a b c d : Nat) :
    (∀ j w, [a, b, c, d][j]? = some w → rd (entryShown s ch [a, b, c, d]) (Csr.PLC_CMD_ENTRY ch j) = w % 2 ^ 64)
      ∧ SameBut [.csr] s (entryShown s ch [a, b, c, d])
      ∧ OtherRegs ((List.range 4).map (Csr.PLC_CMD_ENTRY ch)) s (entryShown s ch [a, b, c, d]) := by
  simp only [entryShown, countUp, List.zip_cons_cons, List.zip_nil_right, List.foldl_cons, List.foldl_nil]
  refine ⟨fun j w hw => ?_, wr_same (.refl _) (wr_same (.refl _) (wr_same (.refl _) (wr_same (.refl _) (.refl _ s)))), ?_⟩
  · match j with
    | 0 | 1 | 2 | 3 =>
      cases hw
      simp [entry_ne]
    | j + 4 => cases hw
  · exact ((((wr_otherRegs s _ a).trans (wr_otherRegs _ _ b)).trans (wr_otherRegs _ _ c)).trans (wr_otherRegs _ _ d)).mono
      (List.Subset.refl _)

theorem entryShown_readWords (s v : State) (ch p : Nat) :
    (∀ j w, (readWords s p)[j]? = some w → rd (entryShown v ch (readWords s p)) (Csr.PLC_CMD_ENTRY ch j) = w % 2 ^ 64)
      ∧ SameBut [.csr] v (entryShown v ch (readWords s p))
      ∧ OtherRegs ((List.range 4).map (Csr.PLC_CMD_ENTRY ch)) v (entryShown v ch (readWords s p)) :=
  entryShown_four v ch _ _ _ _

/-! ### UNMAP and SET_ATTR -/

theorem partUnmap_fast (hfast : InFast v p) (hmigs : NoMigration v p) (hnone : ∀ j dir, chanWaits v j p dir = false)
    (hext : (pageEnt v p).extLen = 0) : partUnmap v p = (setEnt (giveFrame v (pageEnt v p) 0) p {}, .ended 0) := by
  have hdrop : dropMigs (giveFrame v (pageEnt v p) 0) p = giveFrame v (pageEnt v p) 0 :=
    dropMigs_of_noMigration (v := giveFrame v (pageEnt v p) 0) hmigs hnone
  have hinvalid := hfast.ne_of_not (x := .invalid) (by decide)
  have hretired := hfast.ne_of_not (x := .retired) (by decide)
  simp only [partUnmap, hinvalid, hretired, or_self, if_false, freeStorage_frame hfast.hasFrame hext, hdrop]

/-- R206: the entry after SET_ATTR: a field is set where its bit of the mask is. -/
def attrEnt (e : Ent) (a1 a2 : Nat) : Ent :=
  { e with
    pin := if bit a1 16 then bit a1 0 else e.pin
    lockFw := if bit a1 17 then bit a1 1 else e.lockFw
    cfmt := if bit a1 18 then bits a1 5 2 else e.cfmt
    banked := if bit a1 19 then bit a1 6 else e.banked
    stack := if bit a1 19 then bits a1 10 7 else e.stack
    swtag := if bit a1 20 then a2 else e.swtag }

section
variable (c : Bool) (e : Ent) (x : Nat) (b : Bool)

theorem ite_pin : (if c then { e with pin := b } else e) = { e with pin := if c then b else e.pin } := by cases c <;> rfl

theorem ite_lockFw : (if c then { e with lockFw := b } else e) = { e with lockFw := if c then b else e.lockFw } := by
  cases c <;> rfl

theorem ite_cfmt : (if c then { e with cfmt := x } else e) = { e with cfmt := if c then x else e.cfmt } := by cases c <;> rfl

theorem ite_place : (if c then { e with banked := b, stack := x } else e)
    = { e with banked := if c then b else e.banked, stack := if c then x else e.stack } := by cases c <;> rfl

theorem ite_swtag : (if c then { e with swtag := x } else e) = { e with swtag := if c then x else e.swtag } := by
  cases c <;> rfl

end

theorem partSetAttr_takes {a1 a2 : Nat} (hstate : (pageEnt v p).state = .deepResident ∨ InFast v p)
    (hdeep : bit a1 19 = true → (pageEnt v p).state = .deepResident) (hstack : bit a1 19 = true → bit a1 6 = true → bits a1 10 7 ≤ 11)
    (hfmt : bit a1 18 = true → bits a1 5 2 < 12 ∨ 14 < bits a1 5 2) :
    partSetAttr v p a1 a2 = (setEnt v p (attrEnt (pageEnt v p) a1 a2), .ended 0) := by
  have hinvalid : (pageEnt v p).state ≠ .invalid := hstate.elim (fun h => h ▸ nofun) (·.ne_of_not (by decide))
  have hretired : (pageEnt v p).state ≠ .retired := hstate.elim (fun h => h ▸ nofun) (·.ne_of_not (by decide))
  have hlegal : ¬ ((bit a1 19 ∧ bit a1 6 ∧ 11 < bits a1 10 7) ∨ (bit a1 18 ∧ 0xC ≤ bits a1 5 2 ∧ bits a1 5 2 ≤ 0xE)) := by
    rintro (⟨h19, h6, h⟩ | ⟨h18, h⟩)
    · have := hstack h19 h6
      omega
    · have := hfmt h18
      omega
  have hadmit : ¬ (bit a1 19 ∧ (pageEnt v p).state ≠ .deepResident) := fun ⟨h19, h⟩ => h (hdeep h19)
  unfold partSetAttr
  extract_lets e e1 e2 e3 e4 e5
  rw [if_neg hlegal, if_neg (by simp [e, hinvalid, hretired]), if_neg hadmit]
  have h1 : e1 = _ := ite_pin (bit a1 16) e (bit a1 0)
  have h2 : e2 = _ := ite_lockFw (bit a1 17) e1 (bit a1 1)
  have h3 : e3 = _ := ite_cfmt (bit a1 18) e2 (bits a1 5 2)
  have h4 : e4 = _ := ite_place (bit a1 19) e3 (bits a1 10 7) (bit a1 6)
  have h5 : e5 = _ := ite_swtag (bit a1 20) e4 a2
  rw [h5, h4, h3, h2, h1]
  rfl

/-! ### MAP -/

/-- R188, R206: the entry that MAP gives a page, before it has storage. -/
def mappedEnt (a1 a2 : Nat) : Ent :=
  { cfmt := bits a1 9 6, banked := bit a1 1, stack := bits a1 5 2, pin := bit a1 10, swtag := a2 }

/-- R206: arguments that MAP takes. -/
structure MapLegal (a1 : Nat) : Prop where
  stack : bit a1 1 = true → bits a1 5 2 ≤ 11
  fmt : bits a1 9 6 < 12 ∨ 14 < bits a1 9 6

theorem MapLegal.not_malformed {a1 : Nat} (h : MapLegal a1) :
    ¬ ((bit a1 1 ∧ 11 < bits a1 5 2) ∨ (0xC ≤ bits a1 9 6 ∧ bits a1 9 6 ≤ 0xE)) := by
  have hfmt := h.fmt
  rintro (⟨h1, hs⟩ | hf)
  · have := h.stack h1
    omega
  · omega

/-- R183, R190: frame f of domain d is taken, and the cursor moves past it. -/
def frameTaken (v : State) (d f : Nat) : State :=
  { setFrameCode v d f 1 with
    frameCur := smSet 0 v.frameCur d (if f + 1 < domHi (setFrameCode v d f 1) d then f + 1
      else domLo (setFrameCode v d f 1) d) }

theorem allocFrame_of_findFrame {d f : Nat} (h : findFrame v d = some f) : allocFrame v d = some (frameTaken v d f, f) := by
  rw [allocFrame, h]
  rfl

theorem frameTaken_same (v : State) (d f : Nat) : SameBut [.frameMap, .frameCur] v (frameTaken v d f) :=
  (same_mk_frameCur (by decide)).2 (setFrameCode_same (by decide) (.refl _ v))

theorem frameMap_frameTaken (v : State) (d f : Nat) : smGet 0 (frameTaken v d f).frameMap (frameIdx v d f) = 1 := by
  rw [frameTaken, setFrameCode, smGet_smSet_eq]

/-- R206: MAP in the fast tier: the frame found is taken, zeroed, and given to the page. -/
theorem partMapCmd_fast {a1 a2 f : Nat} (hlegal : MapLegal a1) (hstate : (pageEnt v p).state = .invalid) (hfast : bit a1 0 = false)
    (hfind : findFrame v (domOf (bit a1 1) (bits a1 5 2)) = some f)
    (hopen : tiersOpen v (frameAll ⟨bit a1 1, bits a1 5 2, f⟩) = true)
    (hst : (frameWrite (frameTaken v (domOf (bit a1 1) (bits a1 5 2)) f) ⟨bit a1 1, bits a1 5 2, f⟩ 0 zeroPage).st = 0) :
    partMapCmd v p a1 a2 = (setEnt
      (frameWrite (frameTaken v (domOf (bit a1 1) (bits a1 5 2)) f) ⟨bit a1 1, bits a1 5 2, f⟩ 0 zeroPage).s p
      { mappedEnt a1 a2 with state := .fastHomed, frame := f }, .ended 0) := by
  simp only [partMapCmd, hlegal.not_malformed, hstate, hfast, allocFrame_of_findFrame hfind, hopen, mapFastDone, hst, if_false,
    ne_eq, not_true_eq_false, Bool.false_eq_true, Bool.not_true]
  rfl

/-- R206: a frame taken and zeroed: what it leaves. -/
structure FrameZeroed (v : State) (d : Nat) (fr : Frame) (u : State) : Prop where
  zero : ∀ o, o < 2 ^ 18 → frameByte u fr o = 0
  frames : OtherFrames fr v u
  taken : smGet 0 u.frameMap (frameIdx v d fr.num) = 1
  parts : SameBut [.frameMap, .frameCur, .csr, .stks, .fast, .fastMark] v u
  regs : OtherRegs tierRegs v u

theorem frameWrite_frameTaken {d f : Nat} {fr : Frame} (hstack : fr.banked = true → fr.stack ≤ 11) (hfit : FrameFits v fr)
    (hf : fr.num = f) : (frameWrite (frameTaken v d f) fr 0 zeroPage).st = 0
      ∧ FrameZeroed v d fr (frameWrite (frameTaken v d f) fr 0 zeroPage).s := by
  subst hf
  have hcounted (o : Nat) (_ : o < 2 ^ 18) : stkReg (frameLoc fr o).stack 0x50 ∈ tierRegs :=
    written_mem_tierRegs (frameLoc_stack_lt hstack o)
  have hfit' : FrameFits (frameTaken v d fr.num) fr := hfit
  obtain ⟨hst, hwork, _⟩ := frameWrite_page tierRegs_counters length_zeroPage hfit' hcounted
  obtain ⟨hparts, hzero, hother⟩ := frameWrite_zeroPage tierRegs_counters hfit' hcounted
  have htaken : SameBut [.frameMap, .frameCur] v (frameTaken v d fr.num) := frameTaken_same v d fr.num
  have hmap : (frameWrite (frameTaken v d fr.num) fr 0 zeroPage).s.frameMap = (frameTaken v d fr.num).frameMap :=
    hparts .frameMap (by decide)
  have hmapped : smGet 0 (frameWrite (frameTaken v d fr.num) fr 0 zeroPage).s.frameMap (frameIdx v d fr.num) = 1 := by
    rw [hmap, frameMap_frameTaken]
  exact ⟨hst, hzero, hother, hmapped, (htaken.mono (by decide)).trans (hparts.mono (by decide)),
    hwork.regs⟩

/-- R191: with no block in use every deep stack has as many free ones, and stack 0 is tried first. -/
theorem stackOrder_of_noBlocks (h : v.blocks = []) : stackOrder v = countUp 0 8 := by
  have hfree (d : Nat) : freeBlocks v d = 2 ^ 27 := by simp [freeBlocks, usedBlocks, h, smKeys]
  simp [stackOrder, hfree, countUp, orderIns]

/-- R191: the first block of the deep tier is taken. -/
def firstBlockTaken (v : State) : State :=
  { v with
    blocks := smSet false v.blocks 0 true
    blockCur := smSet 0 v.blockCur 0 1 }

theorem allocExtent_of_noBlocks (h : v.blocks = []) (hcur : v.blockCur = []) : allocExtent v 16 = some (firstBlockTaken v, 0) := by
  have hrun : findRun v 0 1 = some 0 := by simp [findRun, usedBlocks, h, smKeys, hcur, firstRun]
  simp only [allocExtent, stackOrder_of_noBlocks h, countUp, allocRun, hrun]
  rfl

/-- R206: MAP in the deep tier: an extent of zero sectors. -/
theorem partMapCmd_deep {a1 a2 : Nat} (hlegal : MapLegal a1) (hstate : (pageEnt v p).state = .invalid) (hdeep : bit a1 0 = true)
    (hopen : tiersOpen v (countUp 12 8) = true) (h : v.blocks = []) (hcur : v.blockCur = []) :
    partMapCmd v p a1 a2 = (setEnt (granWrite (firstBlockTaken v) 0 (blankMap p (bits a1 9 6))) p
      { mappedEnt a1 a2 with state := .deepResident, dga := 0, extLen := 16 }, .ended 0) := by
  simp only [partMapCmd, hlegal.not_malformed, hstate, hdeep, hopen, newExtent, allocExtent_of_noBlocks h hcur, if_false,
    ne_eq, not_true_eq_false, Bool.false_eq_true, Bool.not_true, if_true, Option.map_some]
  rfl

theorem length_mapBytes (p cfmt : Nat) (es : List MapEnt) : (mapBytes p cfmt es).length = 512 := by
  rw [mapBytes, List.length_append, List.length_append, length_bytesAt, length_toLE, List.length_replicate]

/-- R191: a map granule written at the start of the deep tier, in the first block: what it leaves. -/
structure FirstMap (v : State) (bs : Bytes) (u : State) : Prop where
  map : memRead u.deep 0 512 = bs
  rest : ∀ x, 512 ≤ x → memByte u.deep x = memByte v.deep x
  blocks : ∀ b, smGet false u.blocks b = decide (b = 0)
  parts : SameBut [.blocks, .blockCur, .csr, .deep, .deepMark, .stks] v u
  regs : OtherRegs tierRegs v u

theorem firstBlockTaken_same (v : State) : SameBut [.blocks, .blockCur] v (firstBlockTaken v) :=
  have hblocks : SameBut [.blocks, .blockCur] v { v with blocks := smSet false v.blocks 0 true } :=
    (same_mk_blocks (by decide)).2 (.refl _ v)
  (same_mk_blockCur (by decide)).2 hblocks

theorem granWrite_firstBlockTaken {bs : Bytes} (hlen : bs.length = 512) (h : v.blocks = []) :
    FirstMap v bs (granWrite (firstBlockTaken v) 0 bs) := by
  have hwork := granWrite_work (firstBlockTaken v) 0 bs
  have hdeep : (granWrite (firstBlockTaken v) 0 bs).deep = memWrite v.deep 0 bs := by
    rw [granWrite_deep, Nat.zero_mul, bytesAt_zero_of_le hlen.ge, List.take_of_length_le hlen.le]
    rfl
  have hblocks : (granWrite (firstBlockTaken v) 0 bs).blocks = smSet false v.blocks 0 true := hwork.parts .blocks (by decide)
  refine ⟨?_, fun x hx => ?_, fun b => ?_, ((firstBlockTaken_same v).mono (by decide)).trans (hwork.parts.mono (by decide)),
    OtherRegs.mono hwork.regs (by decide)⟩
  · rw [hdeep, ← hlen]
    exact memRead_memWrite ..
  · rw [hdeep]
    exact memByte_memWrite_out (by omega)
  · rw [hblocks, h, smGet_smSet]
    by_cases hb : b = 0
    · rw [if_pos hb, decide_eq_true hb]
    · rw [if_neg hb, decide_eq_false hb]
      rfl

end Sys2Proof.Machine

open Sys2Proof Sys2Proof.Machine

/-- Settles O32: each command begins on an idle channel and its one part is tried at once (`plcWrite_onePage`). READ shows the
words of the entry (`entryShown_readWords`); MAP takes the frame found and zeroes it (`frameWrite_frameTaken`), or takes
the first block and writes its map (`granWrite_firstBlockTaken`); UNMAP gives the frame back; SET_ATTR writes `attrEnt`. -/
theorem pageCommands : Obligations.PageCommands := by
  intro s i ch evt p a1 a2 e cmd others hstarts hp
  have hnone (op : Nat) (j : Nat) (dir : MigDir) := chanWaits_plcBegun (op := op) (evt := evt) (ch := ch) hstarts.2.1 j p dir
  have hregs := plcBegun_otherRegs s ch 0x02 evt
  have hplaces := placesNothing_plcCmd ch
  have notMigrating {x : PSt} (hx : e.state = x) (hne : x ≠ .migrating) : e.state ≠ .migrating := hx ▸ hne
  have ha2 : strayBits a2 (some (2 ^ 64 - 1)) = false := strayBits_of_lt (rd_lt ..)
  refine ⟨fun hstate => ?_, fun f => ?_, fun hstate ha1 hdeep hstack hfmt hopen hblocks hcur => ?_, fun hfast hext hmigs => ?_,
    fun hstate ha1 hmask hdeep hstack hfmt => ?_⟩
  · obtain ⟨hshown, hparts, hentry⟩ := entryShown_readWords s (plcBegun s ch 0x01 evt) ch p
    have hpart := partRead_shows (plcBegun s ch 0x01 evt) ch p
    rw [readWords_plcBegun] at hpart
    obtain ⟨u, hu⟩ : ∃ u, entryShown (plcBegun s ch 0x01 evt) ch (readWords s p) = u := ⟨_, rfl⟩
    rw [hu] at hshown hparts hentry hpart
    exact ⟨_, plcWrite_onePage hstarts hp (by decide) (by decide) rfl rfl rfl hstate hpart (hparts .plcCh (by decide)), hshown,
      holdsCmd_plcTried .., plcTried_sameBut (hparts.mono (by decide)) (by decide), plcTried_otherRegs hentry⟩
  · intro d fr hstate ha1 hfast hstack hfmt hfind hopen hfit
    obtain ⟨hst, hzeroed⟩ := frameWrite_frameTaken (d := d) hstack (hplaces.frameFits hregs hfit) (rfl : fr.num = f)
    have hpart := partMapCmd_fast (v := plcBegun s ch 0x02 evt) (a2 := a2) ⟨hstack, hfmt⟩ hstate hfast
      ((hplaces.findFrame hregs rfl rfl _).trans hfind) ((tiersOpen_plcBegun ..).trans hopen) hst
    obtain ⟨u, hu⟩ : ∃ u, (frameWrite (frameTaken (plcBegun s ch 0x02 evt) d f) fr 0 zeroPage).s = u := ⟨_, rfl⟩
    rw [hu] at hpart hzeroed
    obtain ⟨hself, hothers⟩ := pageEnt_plcTried_setEnt u p { mappedEnt a1 a2 with state := .fastHomed, frame := f } ch
      (pageCmd s ch 0x02 evt) (.ended 0)
    have hpages : u.pages = s.pages := hzeroed.parts .pages (by decide)
    have htaken := hzeroed.taken
    rw [frameIdx_plcBegun] at htaken
    exact ⟨_, plcWrite_onePage hstarts hp (by decide) (by decide) rfl (strayBits_of_lt (n := 11) ha1) ha2 (notMigrating hstate nofun)
        hpart (hzeroed.parts .plcCh (by decide)), hself,
      fun q hq => (hothers q hq).trans (congrArg (smGet ({} : Ent) · q) hpages), hzeroed.zero, hzeroed.frames, htaken,
      holdsCmd_plcTried .., plcTried_sameBut (setEnt_same (by decide) (hzeroed.parts.mono (by decide))) (by decide),
      plcTried_otherRegs hzeroed.regs⟩
  · have hmapped := granWrite_firstBlockTaken (v := plcBegun s ch 0x02 evt) (bs := blankMap p (bits a1 9 6))
      (length_mapBytes ..) hblocks
    have hpart := partMapCmd_deep (v := plcBegun s ch 0x02 evt) (p := p) (a2 := a2) ⟨hstack, hfmt⟩ hstate hdeep
      ((tiersOpen_plcBegun ..).trans hopen) hblocks hcur
    obtain ⟨u, hu⟩ : ∃ u, granWrite (firstBlockTaken (plcBegun s ch 0x02 evt)) 0 (blankMap p (bits a1 9 6)) = u := ⟨_, rfl⟩
    rw [hu] at hpart hmapped
    obtain ⟨hself, hothers⟩ := pageEnt_plcTried_setEnt u p { mappedEnt a1 a2 with state := .deepResident, dga := 0, extLen := 16 } ch
      (pageCmd s ch 0x02 evt) (.ended 0)
    have hpages : u.pages = s.pages := hmapped.parts .pages (by decide)
    exact ⟨_, plcWrite_onePage hstarts hp (by decide) (by decide) rfl (strayBits_of_lt (n := 11) ha1) ha2 (notMigrating hstate nofun)
        hpart (hmapped.parts .plcCh (by decide)), hself,
      fun q hq => (hothers q hq).trans (congrArg (smGet ({} : Ent) · q) hpages), hmapped.map, hmapped.rest, holdsCmd_plcTried ..,
      hmapped.blocks, plcTried_sameBut (setEnt_same (by decide) (hmapped.parts.mono (by decide))) (by decide),
      plcTried_otherRegs hmapped.regs⟩
  · obtain ⟨hself, hothers⟩ := pageEnt_plcTried_setEnt (giveFrame (plcBegun s ch 0x03 evt) e 0) p {} ch
      (pageCmd s ch 0x03 evt) (.ended 0)
    have hframe := frameMap_giveFrame (plcBegun s ch 0x03 evt) e 0
    rw [frameIdx_plcBegun] at hframe
    exact ⟨_, plcWrite_onePage hstarts hp (by decide) (by decide) rfl rfl rfl (hfast.ne_of_not (by decide))
        (partUnmap_fast (v := plcBegun s ch 0x03 evt) hfast hmigs (hnone _) hext) rfl,
      hself, hothers, hframe, holdsCmd_plcTried ..,
      plcTried_sameBut (setEnt_same (by decide) (giveFrame_same (by decide) (.refl _ _))) (by decide),
      plcTried_otherRegs (l := []) fun _ _ => rfl⟩
  · obtain ⟨hself, hothers⟩ := pageEnt_plcTried_setEnt (plcBegun s ch 0x04 evt) p (attrEnt e a1 a2) ch
      (pageCmd s ch 0x04 evt) (.ended 0)
    exact ⟨_, plcWrite_onePage hstarts hp (by decide) (by decide) rfl (decide_eq_false (not_not_intro hmask)) ha2
        (hstate.elim (notMigrating · nofun) (·.ne_of_not (by decide)))
        (partSetAttr_takes (v := plcBegun s ch 0x04 evt) hstate hdeep hstack hfmt) rfl,
      hself, hothers, holdsCmd_plcTried .., plcTried_sameBut (setEnt_same (by decide) (.refl _ _)) (by decide),
      plcTried_otherRegs (l := []) fun _ _ => rfl⟩

end

section
/-! PROOFS. Pages that are said to lie in a stack that does not exist (R184): an access to one (R185), and EPH_LOAD of one
(R208). The stack that a page's entry names is not bound to be one of the 20 (`strayEnt`): what is read there is counted in the
word at what would be that stack's register, which `tierRegs` does not hold. -/

namespace Sys2Proof.Machine

/-- What would be stack 92's count of bytes read. -/
def strayReads : Nat := stkReg 92 0x48

/-- The value of a register once a command has been answered. -/
def rdAfter (o : Out) (a : Nat) : Nat :=
  match o with
  | .next t => rd t a
  | _ => 0

theorem rdAfter_of_otherRegs {o : Out} {s t : State} {l : List Nat} {a : Nat} (ho : o = .next t) (h : OtherRegs l s t) (ha : a ∉ l) :
    rdAfter o a = rd s a := by
  subst ho
  exact h a ha

theorem strayReads_not_mem : strayReads ∉ tierRegs := by decide +kernel

/-- R185: a line of the page is read: 64 bytes. -/
theorem strayReads_ltaAccess :
    rdAfter (exec (.ltaAccess { unit := 0, addr := 0, len := 1, write := false }) strayPageState) strayReads = 64 := by
  decide +kernel

/-- Page 0 is `strayEnt`, and both its stack and stack 0 are ready. Channel 0 holds the arguments of an EPH_LOAD of one entry
from page 0, channel 1 those of a RELOCATE of page 0 to a BANKED frame of stack 0. -/
def strayCmdState : State :=
  { csr := [(stkReg 0 0x08, 0x9), (Csr.PLC_CMD_ARG 0 2, 1), (Csr.PLC_CMD_ARG 1 1, 2), (stkReg 92 0x08, 0x9)]
    pages := [(0, strayEnt)]
    plcFits := true }

theorem strayReads_ephLoad : rdAfter (exec (.ephLoad (.cp 0) 0 false) strayCmdState) strayReads = 64 := by
  decide +kernel

theorem clean_strayCmdState : Clean strayCmdState := ⟨fun _ => rfl, fun _ => rfl⟩

theorem plcStarts_strayCmdState (ch : Fin 4) : PlcStarts strayCmdState (.cp 0) ch := by
  have hreach : ∀ ch : Fin 4, gate strayCmdState (.cp 0) (Csr.PLC_CMD ch) 4 true = .served (plcCmdAt ch)
      ∧ coreHolds strayCmdState (Csr.PLC_CMD ch) = false ∧ commitHolds strayCmdState (plcCmdAt ch) = false := by
    decide +kernel
  obtain ⟨hgate, hholds⟩ := hreach ch
  exact ⟨⟨plcCmdAt ch, plcCmd_at ch, by decide +kernel, hgate, fun _ => hholds⟩, rfl, by decide +kernel⟩

end Sys2Proof.Machine

open Sys2Proof Sys2Proof.Machine

/-- Refutes O30: of every state, its clause on a read says that only the counters of the 20 stacks change. A read of page 0 in
stack 92 counts the bytes read in the word at what would be that stack's register. -/
theorem not_tensorAccess : ¬ Obligations.TensorAccess := by
  intro h
  obtain ⟨hruns, hready, _⟩ := strayPageState_open
  have hent : pageEnt strayPageState 0 = strayEnt := pageEnt_strayPageState 0 (by decide)
  have hopen : frameOpen strayPageState (entFrame (pageEnt strayPageState 0)) 0 1 = true := by
    rw [hent]
    decide +kernel
  obtain ⟨hread, _⟩ := h strayPageState 0 0 1 [0] hruns hready (by decide) (by decide) (by decide) rfl
    ⟨fun _ => rfl, fun _ => rfl⟩
  obtain ⟨t, ht, _, _, _, _, _, hregs⟩ := hread (.inl (congrArg Ent.state hent)) hopen (hent ▸ frameFits_strayEnt)
  have hkept := rdAfter_of_otherRegs ht hregs strayReads_not_mem
  rw [strayReads_ltaAccess, show rd strayPageState strayReads = 0 by decide +kernel] at hkept
  exact absurd hkept (by decide)

/-- Refutes O35: of every state, its clause on EPH_LOAD says that only the counters of the 20 stacks change. A plan read from page
0 in stack 92 counts the bytes read in the word at what would be that stack's register. -/
theorem not_placementPlans : ¬ Obligations.PlacementPlans := by
  rintro ⟨hcmds, _⟩
  obtain ⟨hload, _⟩ := hcmds strayCmdState (.cp 0) 0 false (plcStarts_strayCmdState 0) (by decide +kernel)
  obtain ⟨t, ht, _, _, _, _, _, _, hregs⟩ := hload (by decide +kernel) (by decide +kernel) (by decide +kernel) (by decide +kernel)
    (by decide +kernel) (by decide +kernel) rfl rfl clean_strayCmdState (.inl (by decide +kernel)) (by decide +kernel)
    (by decide +kernel)
  have hkept := rdAfter_of_otherRegs (a := strayReads) ht hregs (by decide +kernel)
  rw [strayReads_ephLoad, show rd strayCmdState strayReads = 0 by decide +kernel] at hkept
  exact absurd hkept (by decide)

end

section
/-! PROOFS. Lines and sectors of a clean fast tier (R157, R185): what a read or a write of them counts, and a RELOCATE that
copies from a stack that does not exist (R184, R206). -/

namespace Sys2Proof.Machine

variable {l : List Nat} {s v : State} {f : Frame}

/-! ### Lines -/

theorem stkReg_reads_ne_ovf (i : Nat) : stkReg i 0x48 ≠ Csr.GLB_STAT_OVF := by
  unfold stkReg Csr.GLB_STAT_OVF
  split <;> omega

/-- R157: a line without a mark is read, and counts. -/
theorem lineDecode_clean {x : Loc} (hl : Counters l) (hclean : Clean s) (hmem : stkReg x.stack 0x48 ∈ l) (kind : Nat) :
    (lineDecode s x kind).2 = 0 ∧ TierWork l s (lineDecode s x kind).1 ∧ 0 < rd (lineDecode s x kind).1 (stkReg x.stack 0x48) := by
  rw [lineDecode_of_noMark (hclean.1 _)]
  have hopened (ch bank row : Nat) : TierWork l s (openRowAt s x.stack ch bank row) :=
    .of_sameBut (openRowAt_same (by decide) (.refl _ s))
  refine ⟨rfl, (hopened ..).trans (.bumpStat hl hmem _ 64 (some (stkIdx x.stack))), ?_⟩
  rw [countRead, rd_bumpStat_self (stkReg_reads_ne_ovf _)]
  omega

theorem lineRead_clean {x : Loc} (hl : Counters l) (hclean : Clean s) (hmem : stkReg x.stack 0x48 ∈ l) (n kind : Nat) :
    (lineRead s x n kind).st = 0 ∧ TierWork l s (lineRead s x n kind).s
      ∧ 0 < rd (lineRead s x n kind).s (stkReg x.stack 0x48) := by
  obtain ⟨hst, hwork⟩ := lineDecode_clean hl hclean hmem kind
  rcases hdecode : lineDecode s x kind with ⟨t, st⟩
  rw [hdecode] at hst hwork
  obtain rfl : st = 0 := hst
  simp only [lineRead, hdecode]
  exact ⟨trivial, hwork⟩

/-- R149: a line of a clean tier is written, whole or in part. -/
theorem lineWrite_clean {x : Loc} (hl : Counters l) (hclean : Clean s) (hreads : stkReg x.stack 0x48 ∈ l)
    (hwrites : stkReg x.stack 0x50 ∈ l) (bs : Bytes) : TierWork l s (lineWrite s x bs).s := by
  by_cases hb : bs.length = 64
  · obtain ⟨_, hwork, _⟩ := lineWrite_wholeLine (s := s) hl hwrites hb
    exact hwork
  · obtain ⟨hst, hwork, _⟩ := lineDecode_clean hl hclean hreads 0x3
    rcases hdecode : lineDecode s x 0x3 with ⟨t, st⟩
    rw [hdecode] at hst hwork
    obtain rfl : st = 0 := hst
    simp only [lineWrite, hb, if_false, hdecode]
    exact (hwork.trans (.of_sameBut ((same_mk_fast (by decide)).2 (.refl _ _)))).trans (.bumpStat hl hwrites _ 64 _)

/-! ### Frames -/

theorem frameReadAt_clean (hl : Counters l) (kind : Nat) : ∀ {ps : List (Nat × Nat)} {s : State}, Clean s →
    (∀ q ∈ ps, locFits s f (frameLoc f q.1) = true ∧ stkReg (frameLoc f q.1).stack 0x48 ∈ l) →
    (frameReadAt s f kind ps).st = 0 ∧ TierWork l s (frameReadAt s f kind ps).s
      ∧ ∀ q ∈ ps, 0 < rd (frameReadAt s f kind ps).s (stkReg (frameLoc f q.1).stack 0x48)
  | [], s, _, _ => ⟨rfl, .refl l s, nofun⟩
  | (o, n) :: ps, s, hclean, h => by
    obtain ⟨hfits, hmem⟩ := h (o, n) (.head _)
    obtain ⟨hst, hwork, hpos⟩ := lineRead_clean hl hclean hmem n kind
    obtain ⟨hst', hwork', hpos'⟩ := frameReadAt_clean hl kind (ps := ps) (hwork.clean hclean) fun q hq => by
      rw [hwork.locFits hl]
      exact h q (.tail _ hq)
    simp only at hfits
    simp only [frameReadAt, hfits, if_true, hst, hst']
    refine ⟨by decide, hwork.trans hwork', fun q hq => ?_⟩
    rcases List.mem_cons.1 hq with rfl | hq
    · exact hpos.trans_le (hwork'.grows _)
    · exact hpos' q hq

theorem mem_linePieces_sector {k : Nat} {q : Nat × Nat} (hk : k < 64) (h : q ∈ linePieces (k * 4096) 4096) : q.1 < 2 ^ 18 := by
  simp only [linePieces, OfNat.ofNat_ne_zero, if_false, List.mem_map, mem_countUp] at h
  obtain ⟨j, hj, rfl⟩ := h
  dsimp only
  omega

theorem zero_mem_linePieces_sector : (0, 64) ∈ linePieces (0 * 4096) 4096 := by decide

/-- R195: sectors of a frame that fits are read, and count; the first sector among them in the stack of its first line. -/
theorem frameSectors_clean (hl : Counters l) {ks : List Nat} (hclean : Clean s) (hfit : FrameFits s f)
    (hmem : ∀ o, stkReg (frameLoc f o).stack 0x48 ∈ l) (hks : ∀ k ∈ ks, k < 64) :
    (frameSectors s f ks).1.st = 0 ∧ TierWork l s (frameSectors s f ks).1.s
      ∧ (0 ∈ ks → 0 < rd (frameSectors s f ks).1.s (stkReg (frameLoc f 0).stack 0x48)) := by
  induction ks generalizing s with
  | nil => exact ⟨rfl, .refl l s, nofun⟩
  | cons k ks ih =>
    obtain ⟨hst, hwork, hpos⟩ := frameReadAt_clean (f := f) hl 0x1 (ps := linePieces (k * 4096) 4096) hclean fun q hq =>
      ⟨(hfit _ (mem_linePieces_sector (hks k (.head _)) hq)).1, hmem _⟩
    obtain ⟨hst', hwork', hpos'⟩ := ih (hwork.clean hclean) (hfit.after hl hwork) fun j hj => hks j (.tail _ hj)
    rw [← frameRead] at hst hwork hpos hst' hwork' hpos'
    simp only [frameSectors, hst, hst']
    refine ⟨by decide, hwork.trans hwork', fun h0 => ?_⟩
    rcases List.mem_cons.1 h0 with rfl | h0
    · exact (hpos _ zero_mem_linePieces_sector).trans_le (hwork'.grows _)
    · exact hpos' h0

section
variable (hl : Counters l) (hreads : ∀ o, stkReg (frameLoc f o).stack 0x48 ∈ l)
  (hwrites : ∀ o, stkReg (frameLoc f o).stack 0x50 ∈ l)
include hl hreads hwrites

theorem frameWriteAt_clean : ∀ {ps : List (Nat × Nat)} {s : State} {bs : Bytes}, Clean s → TierWork l s (frameWriteAt s f ps bs).s
  | [], s, _, _ => .refl l s
  | (o, n) :: ps, s, bs, hclean => by
    simp only [frameWriteAt]
    split
    · have hwork := lineWrite_clean hl hclean (hreads o) (hwrites o) (bytesAt bs 0 n)
      exact hwork.trans (frameWriteAt_clean (hwork.clean hclean))
    · exact frameWriteAt_clean hclean

theorem copySectors_clean : ∀ {secs : List Bytes} {s : State} {k : Nat}, Clean s → TierWork l s (copySectors f s secs k).s
  | [], s, _, _ => .refl l s
  | b :: secs, s, k, hclean => by
    have hwork : TierWork l s (frameWrite s f (k * 4096) b).s := frameWriteAt_clean hl hreads hwrites hclean
    simp only [copySectors]
    split
    · exact hwork
    · exact hwork.trans (copySectors_clean (hwork.clean hclean))

end

/-- R166, R167: a BANKED frame behind its stack's striped ones. -/
theorem frameFits_of_banked (hbanked : f.banked = true) (hlow : stripedFrames s f.stack ≤ f.num) (hhigh : f.num < 524288) :
    FrameFits s f := by
  intro o _
  have hoffset := bits_lt (o / 256) 9 6
  simp only [locFits, frameLoc, hbanked, bankedLoc, if_true, hlow, hhigh, decide_true, Bool.and_self, true_and]
  omega

/-! ### RELOCATE -/

/-- R206: a RELOCATE whose frames are open counts what it reads, however its copy ends. -/
theorem partRelocate_counts {p a1 n : Nat} (hl : Counters l) (hclean : Clean v) (hstate : (pageEnt v p).state = .fastHomed)
    (hstack : bit a1 1 = true → bits a1 5 2 ≤ 11) (hfind : findFrame v (domOf (bit a1 1) (bits a1 5 2)) = some n)
    (hopen : tiersOpen v (frameAll ⟨bit a1 1, bits a1 5 2, n⟩ ++ frameAll (entFrame (pageEnt v p))) = true)
    (hfit : FrameFits v (entFrame (pageEnt v p))) (hsource : ∀ o, stkReg (frameLoc (entFrame (pageEnt v p)) o).stack 0x48 ∈ l)
    (hreads : ∀ o, stkReg (frameLoc ⟨bit a1 1, bits a1 5 2, n⟩ o).stack 0x48 ∈ l)
    (hwrites : ∀ o, stkReg (frameLoc ⟨bit a1 1, bits a1 5 2, n⟩ o).stack 0x50 ∈ l) :
    (partRelocate v p a1).1.plcCh = v.plcCh
      ∧ 0 < rd (partRelocate v p a1).1 (stkReg (frameLoc (entFrame (pageEnt v p)) 0).stack 0x48) := by
  have hlegal : ¬ (bit a1 1 ∧ 11 < bits a1 5 2) := fun ⟨hb, hs⟩ => absurd (hstack hb) (Nat.not_le.2 hs)
  have hfit' : FrameFits (frameTaken v (domOf (bit a1 1) (bits a1 5 2)) n) (entFrame (pageEnt v p)) := hfit
  obtain ⟨hst, hread, hpos⟩ := frameSectors_clean (ks := countUp 0 64) hl (s := frameTaken v (domOf (bit a1 1) (bits a1 5 2)) n)
    hclean hfit' hsource fun k hk => (mem_countUp.1 hk).2
  simp only [partRelocate, hlegal, hstate, allocFrame_of_findFrame hfind, hopen, if_false, Bool.not_true, Bool.false_eq_true]
  rcases hsecs : frameSectors (frameTaken v (domOf (bit a1 1) (bits a1 5 2)) n) (entFrame (pageEnt v p)) (countUp 0 64) with ⟨h, secs⟩
  rw [hsecs] at hst hread hpos
  dsimp only at hst hread hpos
  have hcopy := copySectors_clean hl hreads hwrites (secs := secs) (k := 0) (hread.clean hclean)
  have hch : (copySectors ⟨bit a1 1, bits a1 5 2, n⟩ h.s secs 0).s.plcCh = v.plcCh :=
    (hread.trans hcopy).parts .plcCh (by decide)
  have hcounted := (hpos (by decide)).trans_le (hcopy.grows _)
  simp only [hst, ne_eq, not_true_eq_false, if_false]
  split
  · exact ⟨hch, hcounted⟩
  · exact ⟨hch, hcounted⟩

/-- R205, R206: and so does the command. -/
theorem plcRelocate_counts {i : Initiator} {ch : Fin 4} {evt : Bool} {p a1 n : Nat} {t : State} (hl : Counters l)
    (hp : rd s (Csr.PLC_CMD_ARG ch 0) = p) (ha1 : rd s (Csr.PLC_CMD_ARG ch 1) = a1) (hstarts : PlcStarts s i ch) (hpage : p < 2 ^ 26)
    (hclean : Clean s) (hstate : (pageEnt s p).state = .fastHomed) (hlt : a1 < 2 ^ 6) (hstack : bit a1 1 = true → bits a1 5 2 ≤ 11)
    (hfind : findFrame s (domOf (bit a1 1) (bits a1 5 2)) = some n)
    (hopen : tiersOpen s (frameAll ⟨bit a1 1, bits a1 5 2, n⟩ ++ frameAll (entFrame (pageEnt s p))) = true)
    (hfit : FrameFits s (entFrame (pageEnt s p))) (hsource : ∀ o, stkReg (frameLoc (entFrame (pageEnt s p)) o).stack 0x48 ∈ l)
    (hreads : ∀ o, stkReg (frameLoc ⟨bit a1 1, bits a1 5 2, n⟩ o).stack 0x48 ∈ l)
    (hwrites : ∀ o, stkReg (frameLoc ⟨bit a1 1, bits a1 5 2, n⟩ o).stack 0x50 ∈ l)
    (ht : exec (.plcRelocate i ch evt) s = .next t) : 0 < rd t (stkReg (frameLoc (entFrame (pageEnt s p)) 0).stack 0x48) := by
  subst hp ha1
  have hplaces := placesNothing_plcCmd ch
  have hregs := plcBegun_otherRegs s ch 0x09 evt
  obtain ⟨hch, hcounted⟩ := partRelocate_counts (v := plcBegun s ch 0x09 evt) hl hclean hstate hstack
    ((hplaces.findFrame hregs rfl rfl _).trans hfind) ((tiersOpen_plcBegun ..).trans hopen) (hplaces.frameFits hregs hfit)
    hsource hreads hwrites
  have hout : exec (.plcRelocate i ch evt) s = .next (plcTried _ ch (pageCmd s ch 0x09 evt) _) :=
    plcWrite_onePage hstarts hpage (by decide) (by decide) rfl (strayBits_of_lt (n := 6) hlt) rfl (hstate ▸ nofun) rfl hch
  exact Host.Outcome.next.inj (hout.symm.trans ht) ▸ hcounted

/-- The registers that a RELOCATE from stack 92 to stack 0 counts in. -/
def strayRelocateRegs : List Nat :=
  [Csr.GLB_STAT_OVF, Csr.PLC_LOOKUPS, Csr.PLC_MISSES, strayReads, stkReg 0 0x48, stkReg 0 0x50]

theorem strayRelocateRegs_counters : Counters strayRelocateRegs := ⟨by decide, by decide, by decide, by decide⟩

end Sys2Proof.Machine

open Sys2Proof Sys2Proof.Machine

/-- Refutes O34: of every state, its clause on RELOCATE says that only the counters of the 20 stacks change. A RELOCATE of page 0
from stack 92 counts the bytes read in the word at what would be that stack's register. -/
theorem not_pageCopies : ¬ Obligations.PageCopies := by
  intro h
  have hpage : rd strayCmdState (Csr.PLC_CMD_ARG (1 : Fin 4) 0) = 0 := by decide +kernel
  have htarget : rd strayCmdState (Csr.PLC_CMD_ARG (1 : Fin 4) 1) = 2 := by decide +kernel
  have hent : pageEnt strayCmdState 0 = strayEnt := by decide +kernel
  have hhomed : (pageEnt strayCmdState 0).state = .fastHomed := congrArg Ent.state hent
  have hfind : findFrame strayCmdState (domOf (bit 2 1) (bits 2 5 2)) = some 0 := by decide +kernel
  have hapart : frameIdx strayCmdState (domOf (bit 2 1) (bits 2 5 2)) 0 ≠ frameIdx strayCmdState
      (domOf (pageEnt strayCmdState 0).banked (pageEnt strayCmdState 0).stack) (pageEnt strayCmdState 0).frame := by decide +kernel
  have hopen : tiersOpen strayCmdState (frameAll ⟨bit 2 1, bits 2 5 2, 0⟩ ++ frameAll (entFrame (pageEnt strayCmdState 0))) = true := by
    decide +kernel
  have hsource : FrameFits strayCmdState (entFrame (pageEnt strayCmdState 0)) := by
    rw [hent]
    exact frameFits_of_banked rfl (by decide +kernel) (by decide)
  have hfit : FrameFits strayCmdState ⟨bit 2 1, bits 2 5 2, 0⟩ := frameFits_of_banked (by decide) (by decide +kernel) (by decide)
  have hrelocate := h strayCmdState (.cp 0) 1 false
  simp only [hpage, htarget] at hrelocate
  obtain ⟨hrelocate, _⟩ := hrelocate (plcStarts_strayCmdState 1) (by decide) clean_strayCmdState
  obtain ⟨t, ht, _, _, _, _, _, _, _, _, hregs⟩ := hrelocate 0 (.inl hhomed) (by decide) (by decide) hfind hapart hopen hfit hsource
  have hcounted := plcRelocate_counts (l := strayRelocateRegs) strayRelocateRegs_counters hpage htarget
    (plcStarts_strayCmdState 1) (by decide) clean_strayCmdState hhomed (by decide) (by decide) hfind hopen hsource
    (fun o => by rw [hent, show (frameLoc (entFrame strayEnt) o).stack = 92 from rfl]; decide)
    (fun o => by rw [show (frameLoc ⟨bit 2 1, bits 2 5 2, 0⟩ o).stack = 0 from rfl]; decide)
    (fun o => by rw [show (frameLoc ⟨bit 2 1, bits 2 5 2, 0⟩ o).stack = 0 from rfl]; decide) ht
  rw [hent, show stkReg (frameLoc (entFrame strayEnt) 0).stack 0x48 = strayReads from rfl, hregs strayReads (by decide +kernel),
    show rd strayCmdState strayReads = 0 by decide +kernel] at hcounted
  exact absurd hcounted (by decide)

end

section
/-! PROOFS. A page that a near-bank unit holds (R228 to R230): what an acquire answers and changes, what a fence takes from the
data caches, and what a release gives up. -/

namespace Sys2Proof.Machine

variable {s : State} {p secs : Nat}

/-! ### Entries met through their cache and marked dirty (R186, R189) -/

theorem pageEnt_heatToRegion_ne {w : Nat × Nat × Nat} (h : w.1 ≠ p) : pageEnt (heatToRegion s w) p = pageEnt s p := by
  unfold heatToRegion
  split
  · rfl
  · rw [pageEnt_setEnt, if_neg h.symm]

/-- R189: a page that is met evicts another page than itself. -/
theorem pageEnt_touchCache_self (s : State) (p : Nat) : pageEnt (touchCache s p) p = pageEnt s p := by
  unfold touchCache
  split
  · rfl
  next habsent =>
    extract_lets t w
    have hset : setOf t p = setOf s p := by
      rw [setOf, setOf, show t.pageCache = s.pageCache from bumpStat_same (ps := [.csr]) (.refl _) (.refl _ s) .pageCache (by decide)]
    have hent : pageEnt t p = pageEnt s p := by
      rw [pageEnt, pageEnt, show t.pages = s.pages from bumpStat_same (ps := [.csr]) (.refl _) (.refl _ s) .pages (by decide)]
    split
    · exact hent
    · split
      next v hevict =>
        have hmem : v ∈ setOf s p := by
          rw [← hset]
          exact List.mem_reverse.1 (List.mem_of_find?_eq_some hevict)
        have hne : v.1 ≠ p := by simpa using List.find?_eq_none.1 habsent v hmem
        exact (pageEnt_heatToRegion_ne hne).trans hent
      · exact hent

theorem touchCache_otherRegs (s : State) (p : Nat) : OtherRegs [Csr.PLC_MISSES, Csr.GLB_STAT_OVF] s (touchCache s p) := by
  have hcount := bumpStat_otherRegs s Csr.PLC_MISSES 1 (some plcIdx)
  have hregs (u : State) (w : Nat × Nat × Nat) : OtherRegs [] u (heatToRegion u w) := fun a _ =>
    heatToRegion_same (ps := [.pages]) (.refl _) (.refl _ u) .csr (by decide) a
  unfold touchCache
  split
  · exact fun _ _ => rfl
  · extract_lets
    split
    · exact hcount
    · split
      · exact fun a ha => (hregs _ _ a (by simp)).trans (hcount a ha)
      · exact hcount

/-- R189, R192: and the other pages keep their entries but for heat. -/
theorem heatOnly_touchCache (s : State) (p q : Nat) : HeatOnly s (touchCache s p) q :=
  (TierWork.touchCache (l := [Csr.GLB_STAT_OVF, Csr.PLC_LOOKUPS, Csr.PLC_MISSES])
    ⟨by decide, by decide, by decide, by decide⟩ s p).ents q

theorem pageEnt_markDirty_ne {q : Nat} (h : q ≠ p) : pageEnt (markDirty s p secs) q = pageEnt s q := by
  unfold markDirty
  extract_lets
  split
  · rw [pageEnt_setEnt, if_neg h]
  · rw [pageEnt_setEnt, if_neg h]
  · rfl

/-- R186: sectors to be written of a page in the fast tier. -/
theorem pageEnt_markDirty_self (h : InFast s p) : pageEnt (markDirty s p secs) p =
    if (pageEnt s p).state = .fastHomed then pageEnt s p
    else { pageEnt s p with dirty := (pageEnt s p).dirty ||| secs, state := .cachedDirty } := by
  rcases h with h | h | h
  · simp only [markDirty, h, if_true]
  · simp only [markDirty, h, pageEnt_setEnt, if_true, reduceCtorEq, if_false]
  · simp only [markDirty, h, pageEnt_setEnt, if_true, reduceCtorEq, if_false]

/-! ### An acquire (R228) -/

/-- The page met through its cache, with the sectors to be written marked. -/
def pageReadied (s : State) (p secs : Nat) : State :=
  if secs = 0 then touchCache s p else markDirty (touchCache s p) p secs

/-- One more hold of the page. -/
def heldOnceMore (s : State) (p : Nat) : State := { s with holders := smSet 0 s.holders p (holderCount s p + 1) }

/-- R228: a page in the fast tier that may be pinned is acquired. -/
theorem acquire_of_inFast (htakes : plcTakes s = true) (hpin : mayPin s p = true) (hroom : holderCount s p < 255) (hfast : InFast s p) :
    acquire s p secs = (heldOnceMore (pageReadied s p secs) p, .got) := by
  have hfree : decide (255 ≤ holderCount s p) = false := decide_eq_false (by omega)
  rcases hfast with h | h | h <;>
    simp only [acquire, htakes, hpin, hfree, h, Bool.not_true, Bool.or_self, Bool.false_eq_true, if_false] <;> rfl

theorem pageReadied_same (s : State) (p secs : Nat) : SameBut [.pages, .pageCache, .csr] s (pageReadied s p secs) := by
  have htouch : SameBut [.pages, .pageCache, .csr] s (touchCache s p) := touchCache_same (by decide) (.refl _ s)
  unfold pageReadied
  split
  · exact htouch
  · exact markDirty_same (by decide) htouch

theorem pageReadied_otherRegs (s : State) (p secs : Nat) :
    OtherRegs [Csr.PLC_MISSES, Csr.GLB_STAT_OVF] s (pageReadied s p secs) := by
  unfold pageReadied
  split
  · exact touchCache_otherRegs s p
  · exact fun a ha => (markDirty_same (ps := [.pages]) (.refl _) (.refl _ _) .csr (by decide) a).trans (touchCache_otherRegs s p a ha)

theorem heatOnly_pageReadied {q : Nat} (h : q ≠ p) : HeatOnly s (pageReadied s p secs) q := by
  unfold pageReadied
  split
  · exact heatOnly_touchCache s p q
  · exact (heatOnly_touchCache s p q).trans (.of_eq (pageEnt_markDirty_ne h))

theorem pageEnt_pageReadied (h : InFast s p) : pageEnt (pageReadied s p secs) p =
    if secs = 0 ∨ (pageEnt s p).state = .fastHomed then pageEnt s p
    else { pageEnt s p with dirty := (pageEnt s p).dirty ||| secs, state := .cachedDirty } := by
  have htouch := pageEnt_touchCache_self s p
  unfold pageReadied
  by_cases hsecs : secs = 0
  · rw [if_pos hsecs, if_pos (.inl hsecs), htouch]
  · rw [if_neg hsecs, pageEnt_markDirty_self (by rwa [InFast, htouch]), htouch]
    simp only [hsecs, false_or]

theorem holdsMore_heldOnceMore (s : State) (p secs : Nat) : HoldsMore s p 1 (heldOnceMore (pageReadied s p secs) p) := by
  have hholders : (pageReadied s p secs).holders = s.holders := pageReadied_same s p secs .holders (by decide)
  intro q
  simp only [heldOnceMore, holderCount, hholders, smGet_smSet]
  split
  next h => rw [h]
  · rfl

/-! ### A fence (R229) -/

/-- R229: each of the first four data caches keeps the lines of other pages. -/
theorem dcache_fencePage (s : State) (p c : Nat) : smGet [] (fencePage s p).dcache c =
    if c < 4 then (smGet [] s.dcache c).filter (fun l => l.1 / 2 ^ 18 ≠ p) else smGet [] s.dcache c := by
  simp only [fencePage, countUp, List.foldl_cons, List.foldl_nil, smGet_smSet]
  by_cases h : c < 4
  · rw [if_pos h]
    interval_cases c <;> rfl
  · rw [if_neg h, if_neg (by omega), if_neg (by omega), if_neg (by omega), if_neg (by omega)]

theorem line_fencePage (s : State) (p c l : Nat) : smGet none (smGet [] (fencePage s p).dcache c) l =
    if c < 4 ∧ l / 2 ^ 18 = p then none else smGet none (smGet [] s.dcache c) l := by
  rw [dcache_fencePage]
  by_cases hc : c < 4
  · simp only [hc, if_true, true_and, smGet_filter none (fun k => decide (k / 2 ^ 18 ≠ p)) l, decide_eq_true_eq, ite_not]
  · simp only [hc, if_false, false_and]

/-! ### A release (R230) -/

theorem holders_releasePage (s : State) (p q : Nat) :
    smGet 0 (releasePage s p).holders q = smGet 0 s.holders q - if q = p then 1 else 0 := by
  simp only [releasePage, holderCount, smGet_smSet]
  split
  next h => rw [h]
  · rfl

/-! ### The unit's record -/

/-- Unit n alone is written. -/
theorem setNbu_sets (s : State) (n : Nat) (v : Nbu) :
    nbuOf (setNbu s n v) n = v ∧ OtherNbus n s (setNbu s n v) ∧ SameBut [.nbus] s (setNbu s n v) :=
  ⟨by rw [nbuOf_setNbu, if_pos rfl], fun m hm => by rw [nbuOf_setNbu, if_neg hm], setNbu_same (.refl _) (.refl _ s)⟩

end Sys2Proof.Machine
end

section
/-! PROOFS. Bursts of the banks of a near-bank unit (R222 to R224): when one is granted, and what its end and its pre-emption
leave. -/

namespace Sys2Proof.Machine

variable {s : State} {n : Fin 48}

/-- R222: the state in which unit n's burst of the banks stands. -/
theorem execBurstGrant_of_free {banks : List (Fin 32)} (hworks : nbuWorks s n = true) (hopen : stkOpen s (n.val / 4) = true)
    (hsome : banks ≠ []) (hfew : (banks.map (·.val)).eraseDups.length ≤ 8)
    (hfree : smGet [] (stkOf s (n.val / 4)).bursts (n.val % 4) = [])
    (howed : ∀ b ∈ banks, ∀ j, j < 8 →
      smGet 0 (stkOf s (n.val / 4)).owed ((8 * (n.val % 4) + j) * 64 + b.val) < (postponeMax s (n.val / 4) : Int)) :
    execBurstGrant n banks s = .next (setStk s (n.val / 4) { stkOf s (n.val / 4) with
      bursts := smSet [] (stkOf s (n.val / 4)).bursts (n.val % 4) (banks.map (·.val)).eraseDups }) := by
  have hsome' : (banks.map (·.val)).eraseDups ≠ [] := by
    cases banks with
    | nil => exact absurd rfl hsome
    | cons b bs => simp [List.eraseDups_cons]
  have howed' : (banks.map (·.val)).eraseDups.all (fun b => (countUp (8 * (n.val % 4)) 8).all
      (fun q => decide (smGet 0 (stkOf s (n.val / 4)).owed (q * 64 + b) < (postponeMax s (n.val / 4) : Int)))) = true := by
    simp only [List.all_eq_true, decide_eq_true_eq, mem_countUp, List.mem_eraseDups, List.mem_map]
    rintro _ ⟨b, hb, rfl⟩ q ⟨hlow, hhigh⟩
    have := howed b hb (q - 8 * (n.val % 4)) (by omega)
    rwa [Nat.add_sub_cancel' hlow] at this
  exact if_pos ⟨hworks, hopen, hsome', hfew, hfree, howed'⟩

/-- The controller's record once the burst of its unit k has ended. -/
def withoutBurst (r : Stk) (k : Nat) : Stk :=
  { r with
    bursts := smSet [] r.bursts k []
    preempt := r.preempt.filter (· ≠ k)
    openRow := r.openRow.filter (fun o => !(o.1 / 512 == k && (smGet [] r.bursts k).contains (o.1 % 64))) }

theorem endBurst_eq (s : State) (n : Nat) : endBurst s n = setStk s (n / 4) (withoutBurst (stkOf s (n / 4)) (n % 4)) := rfl

theorem bursts_withoutBurst (r : Stk) (k : Nat) : smGet [] (withoutBurst r k).bursts k = []
    ∧ ∀ j, j ≠ k → smGet [] (withoutBurst r k).bursts j = smGet [] r.bursts j :=
  ⟨smGet_smSet_eq r.bursts k [], fun j hj => smGet_smSet_ne (d := []) r.bursts k [] j hj⟩

theorem not_mem_preempt_withoutBurst (r : Stk) (k : Nat) : k ∉ (withoutBurst r k).preempt := by
  simp [withoutBurst]

/-- R147: the rows of the burst's banks are closed. -/
theorem openRow_withoutBurst {r : Stk} {k : Nat} : ∀ o ∈ (withoutBurst r k).openRow,
    ¬(o.1 / 512 = k ∧ o.1 % 64 ∈ smGet [] r.bursts k) := by
  intro o ho
  simpa [or_iff_not_imp_left] using (List.mem_filter.1 ho).2

theorem stkOf_wr (s : State) (a v i : Nat) : stkOf (wr s a v) i = stkOf s i := rfl

theorem execBurstEnd_of_standing (h : smGet [] (stkOf s (n.val / 4)).bursts (n.val % 4) ≠ []) :
    execBurstEnd n s = .next (endBurst s n) := if_neg h

/-- R224: a pre-empted burst ends and is counted. -/
theorem execBurstPreempt_of_standing (hpre : n.val % 4 ∈ (stkOf s (n.val / 4)).preempt)
    (h : smGet [] (stkOf s (n.val / 4)).bursts (n.val % 4) ≠ [])
    (hcount : rd s (Csr.NBU_PREEMPT (n.val / 4) (n.val % 4)) + 1 < 2 ^ 32 - 1) :
    execBurstPreempt n s = .next (wr (endBurst s n) (Csr.NBU_PREEMPT (n.val / 4) (n.val % 4))
      (rd s (Csr.NBU_PREEMPT (n.val / 4) (n.val % 4)) + 1)) := by
  have hwill : (stkOf s (n.val / 4)).preempt.contains (n.val % 4) ∧ smGet [] (stkOf s (n.val / 4)).bursts (n.val % 4) ≠ [] :=
    ⟨List.contains_iff_mem.2 hpre, h⟩
  refine (if_pos hwill).trans ?_
  have hrd : rd (endBurst s n) (Csr.NBU_PREEMPT (n.val / 4) (n.val % 4)) = rd s (Csr.NBU_PREEMPT (n.val / 4) (n.val % 4)) :=
    rd_setStk ..
  rw [bumpOcc_of_lt (hrd.symm ▸ hcount), hrd]

end Sys2Proof.Machine

open Sys2Proof Sys2Proof.Machine

/-- Settles O36: a page of the fast tier that may be pinned is met, marked and held once more (`acquire_of_inFast`); a fence
filters four data caches (`line_fencePage`); a release takes one hold back. A burst that fits is granted
(`execBurstGrant_of_free`), and `withoutBurst` is what its end leaves, counted when it is pre-empted. -/
theorem unitPagesAndBursts : Obligations.UnitPagesAndBursts := by
  intro s n p v r k other
  refine ⟨fun sec hworks htakes hpin hroom hfast hp => ?_, fun hheld => ?_, fun hheld => ?_,
    fun banks hworks hopen hsome hfew hfree howed => ?_, fun hstands => ?_, fun hpre hstands hcount => ?_⟩
  · let u := heldOnceMore (pageReadied s p sec.toNat) p
    have hnbus : u.nbus = s.nbus := pageReadied_same s p _ .nbus (by decide)
    have hnbu (m : Nat) : nbuOf u m = nbuOf s m := by rw [nbuOf, nbuOf, hnbus]
    obtain ⟨hself, hothers, hsame⟩ := setNbu_sets u n { nbuOf u n with held := p :: (nbuOf u n).held }
    refine ⟨setNbu u n { nbuOf u n with held := p :: (nbuOf u n).held }, ?_, holdsMore_heldOnceMore s p _, ?_,
      fun m hm => (hothers m hm).trans (hnbu m), ?_, fun q hq => heatOnly_pageReadied hq, ?_, pageReadied_otherRegs s p _⟩
    · show execNbuPageAcquire n p sec s = _
      rw [execNbuPageAcquire, if_pos ⟨hworks, hp⟩, acquire_of_inFast htakes hpin hroom hfast]
    · rw [hself, hnbu]
    · have hzero : sec = 0 ↔ sec.toNat = 0 := by rw [← BitVec.toNat_inj]; rfl
      simp only [hzero]
      split
      next h => exact (pageEnt_pageReadied hfast).trans (if_pos h)
      next h => exact (pageEnt_pageReadied hfast).trans (if_neg h)
    · exact (((pageReadied_same s p _).mono (by decide)).trans ((same_mk_holders (by decide)).2 (.refl _ _))).trans
        (hsame.mono (by decide))
  · exact ⟨fencePage s p, if_pos (List.contains_iff_mem.2 hheld), line_fencePage s p, fencePage_same (.refl _) (.refl _ s)⟩
  · obtain ⟨hself, hothers, hsame⟩ := setNbu_sets (releasePage s p) n { nbuOf s n with held := (nbuOf s n).held.erase p }
    refine ⟨_, if_pos (List.contains_iff_mem.2 hheld), holders_releasePage s p, hself, hothers, ?_⟩
    exact (releasePage_same (by decide) (.refl _ s)).trans (hsame.mono (by decide))
  · refine ⟨_, execBurstGrant_of_free hworks hopen hsome hfew hfree howed, ?_⟩
    obtain ⟨hself, hothers, hsame⟩ := setStk_sets s (n.val / 4)
      { stkOf s (n.val / 4) with bursts := smSet [] (stkOf s (n.val / 4)).bursts (n.val % 4) (banks.map (·.val)).eraseDups }
    refine ⟨?_, hothers, hsame⟩
    rw [hself]
    exact ⟨smGet_smSet_eq .., fun j hj => smGet_smSet_ne _ _ _ j hj, rfl⟩
  · obtain ⟨hself, hothers, hsame⟩ := setStk_sets s (n.val / 4) (withoutBurst (stkOf s (n.val / 4)) (n.val % 4))
    obtain ⟨hended, hkept⟩ := bursts_withoutBurst (stkOf s (n.val / 4)) (n.val % 4)
    refine ⟨_, execBurstEnd_of_standing hstands, ?_, hothers, hsame⟩
    rw [endBurst_eq, hself]
    exact ⟨hended, hkept, not_mem_preempt_withoutBurst (stkOf s (n.val / 4)) (n.val % 4), openRow_withoutBurst, rfl⟩
  · obtain ⟨hself, hothers, hsame⟩ := setStk_sets s (n.val / 4) (withoutBurst (stkOf s (n.val / 4)) (n.val % 4))
    obtain ⟨hended, _⟩ := bursts_withoutBurst (stkOf s (n.val / 4)) (n.val % 4)
    refine ⟨_, execBurstPreempt_of_standing hpre hstands hcount, ?_, ?_, ?_, fun j hj => (stkOf_wr ..).trans (hothers j hj), ?_, fun b hb =>
      (wr_otherRegs (endBurst s n) _ _ b hb).trans (rd_setStk ..)⟩
    · rw [stkOf_wr, endBurst_eq, hself]
      exact hended
    · rw [stkOf_wr, endBurst_eq, hself]
      exact not_mem_preempt_withoutBurst (stkOf s (n.val / 4)) (n.val % 4)
    · rw [rd_wr_same, Nat.mod_eq_of_lt (by omega)]
    · exact (hsame.mono (by decide)).trans (wr_same (by decide) (.refl _ _))

end

section
/-! PROOFS. A row whose binding loads 64 elements from the last line of a page: the unit reads on in the next page, which is
said to lie in a stack that does not exist (R184, R232, R235). -/

namespace Sys2Proof.Machine

/-- R231, R232: a binding of one tile with one stream of FP32 elements, whose base is the last line of page 0 and so lies in the
quarter of unit 3; its stamps begin at the first byte of that quarter. The bytes left out read as zero. -/
def overrunBinding : Bytes := toLE (2 ^ 31 + 1) 4 ++ toLE 1 4 ++ toLE (3 * 4096) 8 ++ toLE (2 ^ 18 - 64) 8

/-- R239: a program that loads stream 0 into register 0 and stores nothing. -/
def overrunProgram : List Nat := [0x02 * 2 ^ 26]

/-- Unit 3 has received a row of zeros, for row 0 of tile 0 of that binding. Page 0 is a page of its stack, which is ready, and
page 1 is `strayEnt`. -/
def overrunRowState : State :=
  { csr := [(stkReg 0 0x08, 0x9)]
    pages := [(0, { banked := true, state := .fastHomed }), (1, strayEnt)]
    plcFits := true
    nbus := [(3, { rowq := [{ raw := List.replicate 400 0 }], progs := [(0, overrunProgram)], binds := [(0, overrunBinding)] })] }

/-- R235, R236: the row passes its checks, its operands' first bytes lie in page 0, and it is the first of its step. -/
theorem overrunRowState_row : rowCheck overrunBinding (List.replicate 400 0) = 0 ∧ bindProt overrunBinding = false
    ∧ (loadStreams overrunRowState 3 overrunBinding (List.replicate 400 0) (loadsOf overrunProgram)).2.1 = 0
    ∧ (∀ a ∈ (rowOperands overrunProgram overrunBinding (List.replicate 400 0)).map (·.1),
        a / 2 ^ 18 = 0 ∧ inQuarter overrunRowState 3 a = true)
    ∧ stampLta overrunBinding 0 % 16 = 0 := by decide +kernel

theorem holdable_overrunRowState : nbuWorks overrunRowState 3 = true ∧ Holdable overrunRowState 0 := by
  unfold Holdable
  decide +kernel

/-- R178: three of the four lines that hold the 64 elements lie in page 1. -/
theorem strayReads_nbuRowApply : rdAfter (exec (.nbuRowApply 3) overrunRowState) strayReads = 192 := by decide +kernel

end Sys2Proof.Machine

open Sys2Proof Sys2Proof.Machine

/-- Refutes O37: of every state, its clause on a row that is applied asks that the first byte of each operand lie in page p, and
says that only NBU_ROWS and the counters of the 20 stacks change. The state is not bound to hold bindings that BIND_LOAD takes
(R233), nor entries of stacks that exist: a stream whose base is the last line of page 0 is read on in page 1, in stack 92, and
the bytes read there are counted in the word at what would be that stack's register. -/
theorem not_rowsOfUnits : ¬ Obligations.RowsOfUnits := by
  intro h
  obtain ⟨hcheck, hplain, hloads, hoperands, haligned⟩ := overrunRowState_row
  obtain ⟨hworks, hold⟩ := holdable_overrunRowState
  have hfits : FrameFits overrunRowState (entFrame (pageEnt overrunRowState 0)) := by
    rw [show pageEnt overrunRowState 0 = { banked := true, state := .fastHomed } by decide +kernel]
    exact frameFits_of_banked rfl (by decide +kernel) (by decide)
  obtain ⟨_, happly, _⟩ := h overrunRowState 3
  obtain ⟨t, ht, _, _, _, _, _, _, _, hregs⟩ := happly { raw := List.replicate 400 0 } [] 0 rfl rfl hcheck hplain rfl
    ⟨hworks, hold, ⟨fun _ => rfl, fun _ => rfl⟩, hfits, rfl, hoperands⟩ haligned hloads nofun (.inr (by decide +kernel))
    (by decide +kernel) (by decide +kernel)
  have hkept := rdAfter_of_otherRegs (a := strayReads) ht hregs (by decide +kernel)
  rw [strayReads_nbuRowApply, show rd overrunRowState strayReads = 0 by decide +kernel] at hkept
  exact absurd hkept (by decide)

end

section
/-! PROOFS. A waiting line of a page that is said to lie in a stack that does not exist (R184, R247). -/

namespace Sys2Proof.Machine

/-- The first line of page 0, unprotected. -/
def strayCommitLine : CLine := { lta := 0, data := List.replicate 64 0, delta := [], grp := 0, stamp := false, prot := false }

/-- Unit 0, whose stack is ready, has `strayCommitLine` waiting; page 0 is `strayEnt`. -/
def strayCommitState : State :=
  { csr := [(stkReg 0 0x08, 0x9)]
    pages := [(0, strayEnt)]
    nbus := [(0, { commit := [strayCommitLine] })] }

theorem strayCommitState_writes : (nbuOf strayCommitState 0).commit = [strayCommitLine] ∧ awake strayCommitState = true
    ∧ stkRuns strayCommitState 0 = true ∧ pageEnt strayCommitState 0 = strayEnt ∧ hasFrame strayEnt = true
    ∧ rd strayCommitState strayCount = 0 := by decide +kernel

/-- R178: the line is written: 64 bytes. -/
theorem strayCount_commitLineWrite : rdAfter (exec (.commitLineWrite 0) strayCommitState) strayCount = 64 := by decide +kernel

theorem strayCount_not_mem : strayCount ∉ tierRegs := by decide +kernel

end Sys2Proof.Machine

open Sys2Proof Sys2Proof.Machine

/-- Refutes O38: of every state, its clause on the write of an acknowledged line says that only the counters of the 20 stacks
change. The line of a page in stack 92 is counted in the word at what would be that stack's count of bytes written. -/
theorem not_deltasAndCommit : ¬ Obligations.DeltasAndCommit := by
  intro h
  obtain ⟨hcommit, hawake, hruns, hent, hframe, hzero⟩ := strayCommitState_writes
  have hfits : FrameFits strayCommitState (entFrame (pageEnt strayCommitState 0)) := by
    rw [hent]
    exact frameFits_of_banked rfl (by decide +kernel) (by decide)
  obtain ⟨_, _, hwrite, _⟩ := h strayCommitState 0
  obtain ⟨t, ht, _, _, _, _, hregs⟩ := hwrite strayCommitLine hcommit (.inr rfl) hawake hruns (by decide) (hent ▸ hframe) rfl rfl hfits
  have hkept := rdAfter_of_otherRegs ht hregs strayCount_not_mem
  rw [strayCount_commitLineWrite, hzero] at hkept
  exact absurd hkept (by decide)

end

section
/-! PROOFS. A program that a near-bank unit loads from a page that is said to lie in a stack that does not exist (R184, R242). -/

namespace Sys2Proof.Machine

/-- NBU_CMD of unit 0 as an access meets it. -/
def nbuCmdReg : RegAt :=
  ⟨⟨.NBU_CMD, 0x2080200, [(0x100000, 12), (0x20000, 4)], false, [fd 8 8 .rw 0, fd 7 0 .wo 0], 0⟩, [0, 0], Csr.NBU_CMD 0 0, false⟩

theorem nbuStarts_strayCmdState : NbuStarts strayCmdState (.cp 0) 0 :=
  ⟨⟨nbuCmdReg, by decide +kernel, by decide +kernel, by decide +kernel, fun _ => by decide +kernel⟩, rfl, by decide +kernel⟩

/-- R185: the image of a program can be read from page 0 now. -/
theorem readsNow_strayCmdState : ReadsNow strayCmdState 0 256 := by
  have hent : pageEnt strayCmdState (0 / 2 ^ 18) = strayEnt := by decide +kernel
  refine ⟨by decide +kernel, by decide +kernel, rfl, rfl, clean_strayCmdState, by decide, by decide, by decide, .inl ?_, ?_, ?_⟩
  · rw [hent]; rfl
  · rw [hent]; exact frameFits_of_banked rfl (by decide +kernel) (by decide)
  · decide +kernel

theorem progBad_strayCmdState : progBad (elemsOf (ltaBytes strayCmdState 0 256) 32) = false := by decide +kernel

/-- R178: four lines are read. -/
theorem strayReads_progLoad : rdAfter (exec (.progLoad (.cp 0) 0 false) strayCmdState) strayReads = 256 := by decide +kernel

end Sys2Proof.Machine

open Sys2Proof Sys2Proof.Machine

/-- Refutes O39: of every state, its clause on PROG_LOAD says that only NBU_CMD and the counters of the 20 stacks change. A
program in a page in stack 92 counts the bytes read in the word at what would be that stack's register. -/
theorem not_unitCommands : ¬ Obligations.UnitCommands := by
  intro h
  have hslot : rd strayCmdState (Csr.NBU_CMD_ARG 0 0 0) = 0 := by decide +kernel
  have haddr : rd strayCmdState (Csr.NBU_CMD_ARG 0 0 1) = 0 := by decide +kernel
  have hread : ReadsNow strayCmdState (rd strayCmdState (Csr.NBU_CMD_ARG 0 0 1)) 256 := haddr ▸ readsNow_strayCmdState
  have himage : progBad (elemsOf (ltaBytes strayCmdState (rd strayCmdState (Csr.NBU_CMD_ARG 0 0 1)) 256) 32) = false :=
    haddr ▸ progBad_strayCmdState
  obtain ⟨hcommands, _⟩ := h strayCmdState 0 (.cp 0) false
  obtain ⟨hload, _⟩ := hcommands nbuStarts_strayCmdState
  obtain ⟨t, ht, _, _, _, _, hregs⟩ := hload (hslot ▸ by decide) hread himage
  have hkept := rdAfter_of_otherRegs (a := strayReads) ht hregs (by decide +kernel)
  rw [strayReads_progLoad, show rd strayCmdState strayReads = 0 by decide +kernel] at hkept
  exact absurd hkept (by decide)

end

section
/-! PROOFS. Relay entries and rebuild sectors read from a page that is said to lie in a stack that does not exist (R184, R285,
R404). -/

namespace Sys2Proof.Machine

/-- R287: an OPEN for one tile, whose delivery list and reference table lie at address 64 and read as zero. -/
def strayOpen : Bytes := toLE (2 ^ 28) 4 ++ toLE 0 8 ++ toLE 1 4 ++ toLE 64 8 ++ toLE 64 8 ++ toLE 0 32

/-- Engine 0 is enabled, and its submission ring 0 of one entry, at address 0, holds `strayOpen`. Page 0 is `strayEnt`, and what
would be its stack's status register says that the stack is ready. -/
def strayRelayState : State :=
  { csr := [(Csr.RLY_CTRL 0, 1), (Csr.RLY_SQ_SIZE 0 0, 2 ^ 31), (Csr.RLY_SQ_PI 0 0, 1), (stkReg 92 0x08, 0x9)]
    fast := memWrite [] (fastKey (frameLoc (entFrame strayEnt) 0)) strayOpen
    pages := [(0, strayEnt)]
    plcFits := true }

/-- R185: what lies in page 0 can be read now. -/
theorem readsNow_strayRelayState {a n : Nat} (hn : 0 < n) (hpage : a + n ≤ 2 ^ 18)
    (hopen : frameOpen strayRelayState (entFrame strayEnt) a n = true) : ReadsNow strayRelayState a n := by
  have hzero : a / 2 ^ 18 = 0 := Nat.div_eq_of_lt (by omega)
  have hoffset : a % 2 ^ 18 = a := Nat.mod_eq_of_lt (by omega)
  have hent : pageEnt strayRelayState (a / 2 ^ 18) = strayEnt := by rw [hzero]; decide
  refine ⟨by decide, by decide, rfl, rfl, ⟨fun _ => rfl, fun _ => rfl⟩, by omega, hn, by omega, .inl ?_, ?_, ?_⟩
  · rw [hent]; rfl
  · rw [hent]; exact frameFits_of_banked rfl (by decide) (by decide)
  · rw [hent, hoffset]; exact hopen

/-- R285, R290: the entry is next in its ring, and passes its checks. -/
theorem sqHas_strayRelayState : SqHas strayRelayState 0 0 strayOpen :=
  ⟨by unfold RlyAtWork; decide, by decide, by decide,
    readsNow_strayRelayState (a := 0) (by decide) (by decide) (by decide), by decide⟩

theorem openCheck_strayOpen : eKind strayOpen = 1 ∧ openCheck strayRelayState 0 strayOpen = 0
    ∧ (countUp 0 (oTiles strayOpen)).any (dlBad (ltaBytes strayRelayState (oDlist strayOpen) (16 * oTiles strayOpen))) = false := by
  decide

/-- R178: the entry, its delivery list and its reference table are read, a line each. -/
theorem strayReads_rlyOpen : rdAfter (exec (.rlyOpen 0 0) strayRelayState) strayReads = 192 := by decide

/-- R403: a sector's record that asks module 0xFFF for sector 0 of its page 0. -/
def strayXpart : Bytes := toLE 0 16 ++ toLE (0xFFF * 2 ^ 26) 8

/-- R178: the sector is read. -/
theorem strayReads_xpartReceive : rdAfter (exec (.xpartReceive 0 strayXpart) strayRelayState) strayReads = 4096 := by
  decide

theorem rd_strayReads_strayRelayState : rd strayRelayState strayReads = 0 := by decide

end Sys2Proof.Machine

open Sys2Proof Sys2Proof.Machine

/-- Refutes O40: of every state, its clause on OPEN says that only the ring's consumer index and the counters of the 20 stacks
change. A ring, a delivery list and a reference table in a page in stack 92 count the bytes read in the word at what would be
that stack's register. -/
theorem not_relayEntries : ¬ Obligations.RelayEntries := by
  intro h
  obtain ⟨hkind, hcheck, hlist⟩ := openCheck_strayOpen
  obtain ⟨_, _, _, hopen, _⟩ := h strayRelayState 0 0 strayOpen
  obtain ⟨t, ht, _, _, _, _, _, hregs⟩ := hopen sqHas_strayRelayState ⟨rfl, rfl, rfl, rfl⟩ hkind hcheck
    (readsNow_strayRelayState (by decide) (by decide) (by decide))
    (readsNow_strayRelayState (by decide) (by decide) (by decide)) hlist
  have hkept := rdAfter_of_otherRegs (a := strayReads) ht hregs (by decide)
  rw [strayReads_rlyOpen, rd_strayReads_strayRelayState] at hkept
  exact absurd hkept (by decide)

/-- Refutes O42: of every state, its clause on a sector's record that a contributor passes on says that only the counters of the
20 stacks change. A sector of a page in stack 92 counts the bytes read in the word at what would be that stack's register. -/
theorem not_relaySenders : ¬ Obligations.RelaySenders := by
  intro h
  obtain ⟨_, _, _, _, _, _, _, _, hpass, _⟩ := h strayRelayState 0 strayXpart
  obtain ⟨t, ht, _, _, _, hregs⟩ := hpass (by decide) (by decide) ⟨rfl, rfl, rfl, rfl⟩ (by decide)
    (by decide) (by decide) (readsNow_strayRelayState (by decide) (by decide) (by decide))
  have hkept := rdAfter_of_otherRegs ht hregs strayReads_not_mem
  rw [strayReads_xpartReceive, rd_strayReads_strayRelayState] at hkept
  exact absurd hkept (by decide)

end

section
/-! PROOFS. The record of a Relay engine: what a second write of it leaves, and events, which neither read nor change it. -/

namespace Sys2Proof.Machine

/-! ### A second write of a key -/

section
variable {α : Type} (m : SMap α) (k : Nat)

theorem smDel_smDel : smDel (smDel m k) k = smDel m k := by
  induction m with
  | nil => rfl
  | cons p m ih => by_cases h : p.1 = k <;> simp [smDel, h, ih]

theorem smDel_smIns (v : α) : smDel (smIns m k v) k = smDel m k := by
  induction m with
  | nil => simp [smIns, smDel]
  | cons p m ih =>
    rw [smIns]
    split
    · simp [smDel]
    · by_cases h : p.1 = k <;> simp [smDel, h, ih]

/-- The second write of a key is the one that counts. -/
theorem smSet_smSet [DecidableEq α] (d v w : α) : smSet d (smSet d m k v) k w = smSet d m k w := by
  have hdel : smDel (smSet d m k v) k = smDel m k := by
    unfold smSet
    split
    · exact smDel_smDel m k
    · rw [smDel_smIns, smDel_smDel]
  rw [smSet, hdel]
  rfl

/-- A key that is not listed. -/
theorem smGet_of_not_mem_smKeys (d : α) (h : k ∉ smKeys m) : smGet d m k = d := by
  induction m with
  | nil => rfl
  | cons p m ih =>
    simp only [smKeys, List.map_cons, List.mem_cons, not_or] at h
    rw [smGet, if_neg (Ne.symm h.1)]
    exact ih h.2

end

variable {s t : State} {e : Nat} {v w : Rly}

theorem setRly_setRly (s : State) (e : Nat) (v w : Rly) : setRly (setRly s e v) e w = setRly s e w := by
  simp only [setRly, smSet_smSet]

@[simp] theorem rlyOf_setRly_self (s : State) (e : Nat) (v : Rly) : rlyOf (setRly s e v) e = v := by rw [rlyOf_setRly, if_pos rfl]

/-- Engine e alone is written. -/
theorem setRly_sets (s : State) (e : Nat) (v : Rly) :
    rlyOf (setRly s e v) e = v ∧ OtherRlys e s (setRly s e v) ∧ SameBut [.rlys] s (setRly s e v) :=
  ⟨rlyOf_setRly_self s e v, fun d hd => by rw [rlyOf_setRly, if_neg hd], setRly_same (.refl _) (.refl _ s)⟩

theorem rlyOf_of_same {ps : List Part} (h : SameBut ps s t) (hrlys : Part.rlys ∉ ps) (e : Nat) : rlyOf t e = rlyOf s e := by
  rw [rlyOf, rlyOf, h .rlys hrlys]

theorem rlyOf_raise (s : State) (src code d0 d1 e : Nat) : rlyOf (raise s src code d0 d1) e = rlyOf s e :=
  rlyOf_of_same (raise_same (ps := [.csr, .evt]) (by decide) (.refl _ s)) (by decide) e

/-! ### Events (R452, R453, R464) -/

/-- R548: a statistics counter with room is only counted. -/
theorem bumpStat_of_lt {a n : Nat} {blk : Option Nat} (h : rd s a + n < 2 ^ 64) : bumpStat s a n blk = wr s a (rd s a + n) := if_pos h

theorem flag_setRly (a n : Nat) : flag (setRly s e v) a n = flag s a n := rfl

theorem poolRoom_setRly (src : Nat) : poolRoom (setRly s e v) src = poolRoom s src := rfl

theorem formRec_setRly (src code d0 d1 : Nat) : formRec (setRly s e v) src code d0 d1 = formRec s src code d0 d1 := rfl

theorem poolPut_setRly (r : EvRec) : poolPut (setRly s e v) r = setRly (poolPut s r) e v := rfl

theorem withEvt_setRly (x : Evt) : { setRly s e v with evt := x } = setRly { s with evt := x } e v := rfl

theorem wr_setRly (a x : Nat) : wr (setRly s e v) a x = setRly (wr s a x) e v := rfl

theorem setFlag_setRly (a n : Nat) (b : Bool) : setFlag (setRly s e v) a n b = setRly (setFlag s a n b) e v := rfl

theorem bumpStat_setRly (a n : Nat) (blk : Option Nat) : bumpStat (setRly s e v) a n blk = setRly (bumpStat s a n blk) e v := by
  by_cases h : rd s a + n < 2 ^ 64 <;> cases blk <;> simp only [bumpStat, rd_setRly, wr_setRly, h, if_true, if_false]

theorem dropRec_setRly (src : Nat) : dropRec (setRly s e v) src = setRly (dropRec s src) e v := by
  rw [dropRec, setFlag_setRly, bumpStat_setRly, dropRec]

theorem raiseQuiet_setRly (src code d0 d1 : Nat) :
    raiseQuiet (setRly s e v) src code d0 d1 = setRly (raiseQuiet s src code d0 d1) e v := by
  simp only [raiseQuiet, flag_setRly, bumpStat_setRly, poolRoom_setRly, formRec_setRly, poolPut_setRly, dropRec_setRly,
    apply_ite (setRly · e v)]

theorem reportDrop_setRly (src : Nat) : reportDrop (setRly s e v) src = setRly (reportDrop s src) e v := by
  simp only [reportDrop, flag_setRly, rd_setRly, setFlag_setRly, raiseQuiet_setRly, apply_ite (setRly · e v)]

theorem raisePool_setRly (src code d0 d1 : Nat) : raisePool (setRly s e v) src code d0 d1 = setRly (raisePool s src code d0 d1) e v := by
  simp only [raisePool, flag_setRly, bumpStat_setRly, poolRoom_setRly, formRec_setRly, poolPut_setRly, dropRec_setRly,
    reportDrop_setRly, apply_ite (setRly · e v)]

theorem raiseDome_setRly (src code d0 d1 : Nat) : raiseDome (setRly s e v) src code d0 d1 = setRly (raiseDome s src code d0 d1) e v := by
  unfold raiseDome
  by_cases h : s.evt.dome.length < 64
  · rw [if_pos h, setRly_evt, if_pos h, formRec_setRly]
    exact withEvt_setRly _
  · rw [if_neg h, setRly_evt, if_neg h, setFlag_setRly]

theorem drainDome_setRly : drainDome (setRly s e v) = setRly (drainDome s) e v := by
  refine List.foldl_hom (setRly · e v) (init := { s with evt := { s.evt with dome := [] } }) (H := fun u r => ?_)
  simp only [bumpStat_setRly, poolRoom_setRly, poolPut_setRly, dropRec_setRly, reportDrop_setRly, apply_ite (setRly · e v)]

theorem evtUp_setRly : evtUp (setRly s e v) = evtUp s := rfl

/-- An event neither reads nor changes what the engines hold. -/
theorem raise_setRly (src code d0 d1 : Nat) : raise (setRly s e v) src code d0 d1 = setRly (raise s src code d0 d1) e v := by
  simp only [raise, evtUp_setRly, drainDome_setRly, raisePool_setRly, raiseDome_setRly, apply_ite (setRly · e v)]

end Sys2Proof.Machine

end

section
/-! PROOFS. A Relay engine that holds one bucket and nothing else (R277, R304): its bucket's rows as they change, and when what the
engine does on its own leaves it as it is. -/

namespace Sys2Proof.Machine

/-- An engine whose only work is bucket k. -/
def Lone (v : Rly) (k : Bucket) : Prop := v.sends = [] ∧ v.rbs = [] ∧ v.fins = [] ∧ v.open_ = [k]

section
variable {v : Rly} {k : Bucket} (h : Lone v k)
include h

theorem Lone.sends : v.sends = [] := h.1

theorem Lone.rbs : v.rbs = [] := h.2.1

theorem Lone.fins : v.fins = [] := h.2.2.1

theorem Lone.bucket : v.open_ = [k] := h.2.2.2

end

variable {s : State} {e b st : Nat} {k k' : Bucket} {r : RRow}

/-! ### The bucket -/

theorem bktOf_of_lone (h : Lone (rlyOf s e) k) : bktOf s e (eTag k.entry) = some k := by
  simp [bktOf, h.bucket]

theorem setBkt_of_lone (h : Lone (rlyOf s e) k) (htag : eTag k'.entry = eTag k.entry) :
    setBkt s e k' = setRly s e { rlyOf s e with open_ := [k'] } := by
  simp [setBkt, h.bucket, htag]

theorem setRow_of_lone (h : Lone (rlyOf s e) k) (htag : eTag k'.entry = eTag k.entry) :
    setRow s e k' b r = setRly s e { rlyOf s e with open_ := [{ k' with rows := smSet {} k'.rows b r }] } :=
  setBkt_of_lone h htag

theorem mem_bktRows : b ∈ bktRows k ↔ b < 64 * oTiles k.entry := by
  rw [bktRows, mem_countUp]
  omega

theorem rowOf_smSet_self : rowOf { k with rows := smSet {} k.rows b r } b = r := smGet_smSet_eq k.rows b r

theorem rowOf_smSet_ne {o : Nat} (h : o ≠ b) : rowOf { k with rows := smSet {} k.rows b r } o = rowOf k o :=
  smGet_smSet_ne k.rows b r o h

theorem rowEnded_filling (h : r.st = .filling) : rowEnded r = false := by rw [rowEnded, h]

theorem rowOf_of_noRows (h : k.rows = []) (b : Nat) : rowOf k b = {} := by rw [rowOf, h]; rfl

/-! ### One row -/

/-- R304: a row ends. -/
theorem endRow_of_lone (h : Lone (rlyOf s e) k) (hst : st ≠ 0) : endRow s e (eTag k.entry) b st = setRly s e
    { rlyOf s e with
      open_ := [{ k with rows := smSet {} k.rows b { rowOf k b with st := .ended st } }]
      dlv := (rlyOf s e).dlv.filter (· ≠ (eTag k.entry, b)) } := by
  simp only [endRow, bktOf_of_lone h, setRow_of_lone h rfl, rlyOf_setRly_self, setRly_setRly, if_neg hst]

/-- R303: a row that ends with OK is counted. -/
theorem endRow_ok_of_lone (h : Lone (rlyOf s e) k) (hroom : rd s (Csr.RLY_ROWS e) + 1 < 2 ^ 64) : endRow s e (eTag k.entry) b 0 =
    wr (setRly s e { rlyOf s e with
      open_ := [{ k with rows := smSet {} k.rows b { rowOf k b with st := .ended 0 } }]
      dlv := (rlyOf s e).dlv.filter (· ≠ (eTag k.entry, b)) }) (Csr.RLY_ROWS e) (rd s (Csr.RLY_ROWS e) + 1) := by
  simp only [endRow, bktOf_of_lone h, setRow_of_lone h rfl, rlyOf_setRly_self, setRly_setRly, if_true,
    bumpStat_of_lt (s := setRly s e _) hroom, rd_setRly]

/-- R303: a row waits for its turn to be sent. -/
theorem queueRow_of_lone (h : Lone (rlyOf s e) k) : queueRow s e (eTag k.entry) b = setRly s e
    { rlyOf s e with
      open_ := [{ k with rows := smSet {} k.rows b { rowOf k b with st := .ready } }]
      dlv := (rlyOf s e).dlv.filter (· ≠ (eTag k.entry, b)) ++ [(eTag k.entry, b)] } := by
  simp only [queueRow, bktOf_of_lone h, setRow_of_lone h rfl, rlyOf_setRly_self, setRly_setRly]

/-- R296: a row that a source has not filled is not checked. -/
theorem rowSettle_of_untaken {o : Nat} (h : Lone (rlyOf s e) k) (ho : o < oNsrc k.entry)
    (huntaken : smGet false (rowOf k b).taken o = false) :
    rowSettle s e (eTag k.entry) b = s := by
  have hopen : ¬ (countUp 0 (oNsrc k.entry)).all (fun c => smGet false (rowOf k b).taken c) = true := fun hall =>
    absurd ((List.all_eq_true.1 hall o (mem_countUp.2 ⟨by omega, by omega⟩)).symm.trans huntaken) (by decide)
  simp only [rowSettle, bktOf_of_lone h, hopen, Bool.false_eq_true, and_false, if_false]

/-! ### What the engine does on its own -/

theorem rlyWork_of_idle (h : RlyIdle (rlyOf s e)) : rlyWork s e = s := by
  obtain ⟨hsends, hopen, hrbs, hfins⟩ := h
  simp only [rlyWork, hsends, hopen, hrbs, hfins, List.foldl_nil, runFins, ite_self]

/-- R305: a bucket with a row that has not ended stays open. -/
theorem closeBucket_of_unended (hb : b < 64 * oTiles k.entry) (h : rowEnded (rowOf k b) = false) : closeBucket e s k = s := by
  have hsome : ¬ (bktRows k).all (fun b => rowEnded (rowOf k b)) = true := fun hall =>
    absurd ((List.all_eq_true.1 hall b (mem_bktRows.2 hb)).symm.trans h) (by decide)
  simp only [closeBucket, if_pos hsome]

theorem rlyWork_of_unended (h : Lone (rlyOf s e) k) (hb : b < 64 * oTiles k.entry) (hrow : rowEnded (rowOf k b) = false) :
    rlyWork s e = s := by
  obtain ⟨hsends, hrbs, hfins, hbucket⟩ := h
  simp only [rlyWork, hsends, hbucket, hrbs, hfins, List.foldl_cons, List.foldl_nil, closeBucket_of_unended hb hrow, runFins, ite_self]

/-- Where more rows than listed are left, one is not listed. -/
theorem exists_unlisted_row {n : Nat} (b : Nat) (h : k.rows.length + 1 < n) : ∃ o, o < n ∧ o ≠ b ∧ rowOf k o = {} := by
  have hcard : (b :: smKeys k.rows).toFinset.card < (Finset.range n).card := by
    refine (List.toFinset_card_le _).trans_lt ?_
    simpa [smKeys] using h
  obtain ⟨o, ho, hfree⟩ := Finset.exists_mem_notMem_of_card_lt_card hcard
  rw [List.mem_toFinset, List.mem_cons, not_or] at hfree
  exact ⟨o, Finset.mem_range.1 ho, hfree.1, smGet_of_not_mem_smKeys k.rows o {} hfree.2⟩

end Sys2Proof.Machine

end

section
/-! PROOFS. A contribution row taken by the row of its bucket (R294 to R296, R299). -/

namespace Sys2Proof.Machine

/-! ### Sums (R295) -/

section
variable {z : Int} {n j : Nat}

theorem addElem_small (z : Int) (r : RRow) (n : Nat) (m : Int) (h : (fixElem m z).1.natAbs < 2 ^ 39) : addElem z r n m =
    { r with
      sum := smSet 0 r.sum n (smGet 0 r.sum n + (fixElem m z).1)
      res := smSet 0 r.res n ((smGet 0 r.res n + (fixElem m z).2) % 255) } :=
  if_neg (Nat.not_le.2 h)

theorem addElem_big (z : Int) (r : RRow) (n : Nat) (m : Int) (h : ¬ (fixElem m z).1.natAbs < 2 ^ 39) :
    addElem z r n m = { r with tooBig := true } :=
  if_pos (Nat.not_lt.1 h)

theorem addElem_only (z : Int) (r : RRow) (n : Nat) (m : Int) :
    ∃ sum res big, addElem z r n m = { r with sum := sum, res := res, tooBig := big } := by
  by_cases h : (fixElem m z).1.natAbs < 2 ^ 39
  · exact ⟨_, _, _, addElem_small z r n m h⟩
  · exact ⟨_, _, _, addElem_big z r n m h⟩

/-- R295: elements change the sums, the residues and the mark of one too large. -/
theorem addElems_only (z : Int) : ∀ (ms : List Int) (r : RRow) (n : Nat),
    ∃ sum res big, addElems z r n ms = { r with sum := sum, res := res, tooBig := big }
  | [], _, _ => ⟨_, _, _, rfl⟩
  | m :: ms, r, n => by
    obtain ⟨_, _, _, hfirst⟩ := addElem_only z r n m
    obtain ⟨sum, res, big, hrest⟩ := addElems_only z ms (addElem z r n m) (n + 1)
    refine ⟨sum, res, big, ?_⟩
    rw [addElems, hrest, hfirst]

/-- R295: the sum of an element once `m` is added to it. -/
def sumWith (z m sum : Int) : Int := if (fixElem m z).1.natAbs < 2 ^ 39 then sum + (fixElem m z).1 else sum

/-- R295: and its residue. -/
def resWith (z m : Int) (res : Nat) : Nat := if (fixElem m z).1.natAbs < 2 ^ 39 then (res + (fixElem m z).2) % 255 else res

theorem addElem_at (z : Int) (r : RRow) (n : Nat) (m : Int) :
    smGet 0 (addElem z r n m).sum n = sumWith z m (smGet 0 r.sum n) ∧ smGet 0 (addElem z r n m).res n = resWith z m (smGet 0 r.res n) := by
  by_cases h : (fixElem m z).1.natAbs < 2 ^ 39
  · rw [addElem_small z r n m h, sumWith, resWith, if_pos h, if_pos h]
    exact ⟨smGet_smSet_eq .., smGet_smSet_eq ..⟩
  · rw [addElem_big z r n m h, sumWith, resWith, if_neg h, if_neg h]
    exact ⟨rfl, rfl⟩

theorem addElem_ne (r : RRow) (m : Int) (h : j ≠ n) :
    smGet 0 (addElem z r n m).sum j = smGet 0 r.sum j ∧ smGet 0 (addElem z r n m).res j = smGet 0 r.res j := by
  by_cases hz : (fixElem m z).1.natAbs < 2 ^ 39
  · rw [addElem_small z r n m hz]
    exact ⟨smGet_smSet_ne _ _ _ _ h, smGet_smSet_ne _ _ _ _ h⟩
  · rw [addElem_big z r n m hz]
    exact ⟨rfl, rfl⟩

theorem addElems_before : ∀ (ms : List Int) (r : RRow) (n : Nat), j < n →
    smGet 0 (addElems z r n ms).sum j = smGet 0 r.sum j ∧ smGet 0 (addElems z r n ms).res j = smGet 0 r.res j
  | [], _, _, _ => ⟨rfl, rfl⟩
  | m :: ms, r, n, h => by
    obtain ⟨hsum, hres⟩ := addElem_ne (z := z) r m (Nat.ne_of_lt h)
    obtain ⟨hsum', hres'⟩ := addElems_before ms (addElem z r n m) (n + 1) (by omega)
    exact ⟨hsum'.trans hsum, hres'.trans hres⟩

/-- R295: each element is added to its own sum and residue. -/
theorem addElems_at : ∀ (ms : List Int) (r : RRow) (n i : Nat), i < ms.length →
    smGet 0 (addElems z r n ms).sum (n + i) = sumWith z (ms.getD i 0) (smGet 0 r.sum (n + i))
      ∧ smGet 0 (addElems z r n ms).res (n + i) = resWith z (ms.getD i 0) (smGet 0 r.res (n + i))
  | m :: ms, r, n, 0, _ => by
    obtain ⟨hsum, hres⟩ := addElems_before (z := z) ms (addElem z r n m) (n + 1) (Nat.lt_succ_self n)
    obtain ⟨hsum', hres'⟩ := addElem_at z r n m
    exact ⟨hsum.trans hsum', hres.trans hres'⟩
  | m :: ms, r, n, i + 1, h => by
    obtain ⟨hsum, hres⟩ := addElems_at ms (addElem z r n m) (n + 1) i (by simpa using h)
    obtain ⟨hsum', hres'⟩ := addElem_ne (z := z) (j := n + (i + 1)) (n := n) r m (by omega)
    rw [show n + 1 + i = n + (i + 1) by omega] at hsum hres
    rw [hsum'] at hsum
    rw [hres'] at hres
    exact ⟨hsum, hres⟩

end

/-! ### A source taken -/

variable {s : State} {e b c x X : Nat} {k : Bucket} {rec : Bytes} {ms : List Int} {d : Taker}

/-- R295, R299: the row once source c has filled it with `ms` at exponent X. -/
def takenRow (k : Bucket) (b c X : Nat) (ms : List Int) (d : Taker) : RRow :=
  let r := addElems ((X : Int) - rowRef k b + 20) (rowOf k b) 0 ms
  { r with
    maxX := max r.maxX X
    taken := smSet false r.taken c true
    takers := smSet none r.takers c (some d)
    subs := smSet none r.subs c none }

theorem takenRow_eq (k : Bucket) (b c X : Nat) (ms : List Int) (d : Taker) : takenRow k b c X ms d =
    { rowOf k b with
      sum := (takenRow k b c X ms d).sum
      res := (takenRow k b c X ms d).res
      tooBig := (takenRow k b c X ms d).tooBig
      maxX := max (rowOf k b).maxX X
      taken := smSet false (rowOf k b).taken c true
      takers := smSet none (rowOf k b).takers c (some d)
      subs := smSet none (rowOf k b).subs c none } := by
  obtain ⟨sum, res, big, h⟩ := addElems_only ((X : Int) - rowRef k b + 20) ms (rowOf k b) 0
  simp only [takenRow, h]

theorem takenRow_at (c X : Nat) (d : Taker) {j : Nat} (hj : j < ms.length) :
    smGet 0 (takenRow k b c X ms d).sum j = sumWith ((X : Int) - rowRef k b + 20) (ms.getD j 0) (smGet 0 (rowOf k b).sum j)
      ∧ smGet 0 (takenRow k b c X ms d).res j = resWith ((X : Int) - rowRef k b + 20) (ms.getD j 0) (smGet 0 (rowOf k b).res j) := by
  have h := addElems_at (z := (X : Int) - rowRef k b + 20) ms (rowOf k b) 0 j hj
  rwa [Nat.zero_add] at h

/-- The bucket with that row. -/
def takenBucket (k : Bucket) (b c X : Nat) (ms : List Int) (d : Taker) : Bucket :=
  { k with rows := smSet {} k.rows b (takenRow k b c X ms d) }

/-- R295: a source that contributes itself is taken. -/
theorem takeSource_of_lone (h : Lone (rlyOf s e) k) (hX : X ≠ 0xFF) (hsub : d.sub = false)
    (hroom : rd s (Csr.RLY_ELEMS e) + 64 < 2 ^ 64) :
    takeSource s e (eTag k.entry) b c X ms d =
      wr (setRly s e { rlyOf s e with open_ := [takenBucket k b c X ms d] }) (Csr.RLY_ELEMS e) (rd s (Csr.RLY_ELEMS e) + 64) := by
  have hset (r : RRow) : setRow s e { k with subEvt := k.subEvt || false } b r =
      setRly s e { rlyOf s e with open_ := [{ k with rows := smSet {} k.rows b r }] } := by
    rw [Bool.or_false]
    exact setRow_of_lone h rfl
  simp only [takeSource, bktOf_of_lone h, hsub, hset, Bool.false_and, Bool.false_eq_true, if_false, false_and, takeSum, if_neg hX,
    bumpStat_of_lt (s := setRly s e _) hroom, rd_setRly]
  rfl

/-! ### The record -/

theorem serial_self {n a : Nat} (h : a < 2 ^ n) : serial n a a = .equal := by
  simp [serial, Nat.mod_eq_of_lt h]

theorem maskBits_two_pow : ∀ x < 64, maskBits (2 ^ x) = [x] := by decide

theorem maskBits_zero : maskBits 0 = [] := by decide

/-- R292: the row of a dense record that carries row x alone. -/
theorem contribRows_of_single {p : Bytes} {mask : Nat} (hmask : mask = 2 ^ x) (hx : x < 64) :
    contribRows false p (maskBits mask) = [(x, fieldAt p 0 1, (bytesAt p 1 64).map mant)] := by
  rw [hmask, maskBits_two_pow x hx]
  rfl

/-- R299: a filling row takes a source that has no taker. -/
theorem arrival_of_free {r : RRow} (hfilling : r.st = .filling) (hfree : smGet none r.takers c = none) : arrival k r c false = .take := by
  simp [arrival, hfilling, hfree]

/-- The bucket knows the sender. -/
def withSender (k : Bucket) (d : Nat) : Bucket := { k with senders := (k.senders ++ [d]).eraseDups }

theorem rlyOf_sendAnswer (s : State) (rec : Bytes) (code no st e : Nat) : rlyOf (sendAnswer s rec code no st) e = rlyOf s e := rfl

theorem settleRows_of_take (h : Lone (rlyOf s e) k) (harrive : arrival k (rowOf k b) c d.sub = .take) :
    settleRows e (eTag k.entry) c d s [(b, x, X, ms)] = (takeSource s e (eTag k.entry) b c X ms d, 0) := by
  simp only [settleRows, bktOf_of_lone h, harrive, Nat.or_zero]

/-- A record of one row, dense and of its source itself, whose row is free for that source and stays unsettled (R294, R299). -/
def Fits (k : Bucket) (c tile x o : Nat) (d : Taker) (rec : Bytes) : Prop :=
  (c < oNsrc k.entry ∧ tile < oTiles k.entry ∧ x < 64) ∧ (d.sub = false ∧ d.sparse = false ∧ fieldAt rec 16 8 = 2 ^ x)
  ∧ fieldAt (rec.drop 32) 0 1 ≠ 0xFF ∧ (rowOf k (64 * tile + x)).st = .filling
  ∧ smGet none (rowOf k (64 * tile + x)).takers c = none
  ∧ (o < oNsrc k.entry ∧ o ≠ c ∧ smGet false (rowOf k (64 * tile + x)).taken o = false)

/-- R292: that row, its number in the bucket first. -/
def carriedRow (tile x : Nat) (rec : Bytes) : Nat × Nat × Nat × List Int :=
  (64 * tile + x, x, fieldAt (rec.drop 32) 0 1, (bytesAt (rec.drop 32) 1 64).map mant)

/-- The bucket once the record's row is taken. -/
def contribBucket (k : Bucket) (c tile x : Nat) (d : Taker) (rec : Bytes) : Bucket :=
  takenBucket (withSender k d.dev) (64 * tile + x) c (fieldAt (rec.drop 32) 0 1) ((bytesAt (rec.drop 32) 1 64).map mant) d

/-- The engine that holds it, its 64 elements counted and none of its rows refused. -/
def contribCounted (s : State) (e : Nat) (k : Bucket) : State :=
  bumpOcc (wr (setRly s e { rlyOf s e with open_ := [k] }) (Csr.RLY_ELEMS e) (rd s (Csr.RLY_ELEMS e) + 64)) (Csr.RLY_NOTTAKEN e) 0

theorem contribCounted_same (s : State) (e : Nat) (k : Bucket) :
    SameBut [.csr] (setRly s e { rlyOf s e with open_ := [k] }) (contribCounted s e k) :=
  (wr_same (by decide) (.refl _ _)).trans (bumpOcc_zero_same _ _)

theorem rlyOf_contribCounted (s : State) (e : Nat) (k : Bucket) :
    rlyOf (contribCounted s e k) e = { rlyOf s e with open_ := [k] } :=
  (rlyOf_of_same (contribCounted_same s e k) (by decide) e).trans (rlyOf_setRly_self ..)

theorem lone_contribCounted {k' : Bucket} (h : Lone (rlyOf s e) k) : Lone (rlyOf (contribCounted s e k') e) k' := by
  rw [rlyOf_contribCounted]
  exact ⟨h.sends, h.rbs, h.fins, rfl⟩

theorem rowOf_contribBucket (k : Bucket) (c tile x : Nat) (d : Taker) (rec : Bytes) :
    rowOf (contribBucket k c tile x d rec) (64 * tile + x) =
      takenRow k (64 * tile + x) c (fieldAt (rec.drop 32) 0 1) ((bytesAt (rec.drop 32) 1 64).map mant) d :=
  rowOf_smSet_self

/-- R294, R299: what a record of this step does, its rows settled one after the other. -/
theorem contribTake_of_settled {tag tile m : Nat} {t : State} {rows : List (Nat × Nat × Nat × List Int)}
    (hgate : ¬ (oNsrc k.entry ≤ c ∨ oTiles k.entry ≤ tile))
    (hrows : (contribRows d.sparse (rec.drop 32) (maskBits (fieldAt rec 16 8))).map (fun x => (64 * tile + x.1, x)) = rows)
    (hheld : rows.filter (fun x => decide (arrival k (rowOf k x.1) c d.sub = .hold)) = [])
    (hsettled : settleRows e tag c d (setBkt s e (withSender k d.dev)) rows = (t, m)) :
    contribTake s e tag c tile d k rec =
      rows.foldl (fun s x => rowSettle s e tag x.1)
        (sendAnswer (bumpOcc t (Csr.RLY_NOTTAKEN e) (maskBits m).length) rec 0 m 0) := by
  rw [withSender] at hsettled
  unfold contribTake
  rw [if_neg hgate, hrows]
  dsimp only
  rw [hheld, List.length_nil, if_neg (Nat.not_lt_zero _), hsettled]

section
variable {tile o : Nat} (h : Lone (rlyOf s e) k) (hfits : Fits k c tile x o d rec)
include hfits

theorem filling_contribBucket : (rowOf (contribBucket k c tile x d rec) (64 * tile + x)).st = .filling := by
  obtain ⟨_, _, _, hfilling, _⟩ := hfits
  rw [rowOf_contribBucket, takenRow_eq]
  exact hfilling

theorem untaken_contribBucket : smGet false (rowOf (contribBucket k c tile x d rec) (64 * tile + x)).taken o = false := by
  obtain ⟨_, _, _, _, _, _, hne, huntaken⟩ := hfits
  rw [rowOf_contribBucket, takenRow_eq]
  show smGet false (smSet false (rowOf k (64 * tile + x)).taken c true) o = false
  rw [smGet_smSet_ne _ _ _ _ hne, huntaken]

include h

/-- R294, R299: the row is added, and the record answered. -/
theorem contribTake_of_fits (hroom : rd s (Csr.RLY_ELEMS e) + 64 < 2 ^ 64) : contribTake s e (eTag k.entry) c tile d k rec =
    sendAnswer (contribCounted s e (contribBucket k c tile x d rec)) rec 0 0 0 := by
  have hopen := untaken_contribBucket hfits
  obtain ⟨⟨hsource, hinside, hrow⟩, ⟨hitself, hdense, hmask⟩, hvalid, hfilling, hfree, ho, _⟩ := hfits
  have hknown : Lone (rlyOf (setRly s e { rlyOf s e with open_ := [withSender k d.dev] }) e) (withSender k d.dev) := by
    rw [rlyOf_setRly_self]
    exact ⟨h.sends, h.rbs, h.fins, rfl⟩
  have harrive : arrival k (rowOf k (64 * tile + x)) c d.sub = .take := hitself ▸ arrival_of_free hfilling hfree
  have htaken : settleRows e (eTag k.entry) c d (setBkt s e (withSender k d.dev)) [carriedRow tile x rec] =
      (wr (setRly s e { rlyOf s e with open_ := [contribBucket k c tile x d rec] }) (Csr.RLY_ELEMS e) (rd s (Csr.RLY_ELEMS e) + 64), 0) := by
    rw [setBkt_of_lone (k' := withSender k d.dev) h rfl]
    refine (settleRows_of_take hknown harrive).trans ?_
    rw [takeSource_of_lone hknown hvalid hitself hroom, rlyOf_setRly_self, setRly_setRly]
    rfl
  have hanswered : Lone (rlyOf (sendAnswer (contribCounted s e (contribBucket k c tile x d rec)) rec 0 0 0) e)
      (contribBucket k c tile x d rec) := by
    rw [rlyOf_sendAnswer]
    exact lone_contribCounted h
  have hsettled : rowSettle (sendAnswer (contribCounted s e (contribBucket k c tile x d rec)) rec 0 0 0) e (eTag k.entry)
      (64 * tile + x) = sendAnswer (contribCounted s e (contribBucket k c tile x d rec)) rec 0 0 0 :=
    rowSettle_of_untaken (k := contribBucket k c tile x d rec) hanswered ho hopen
  have hgate : ¬ (oNsrc k.entry ≤ c ∨ oTiles k.entry ≤ tile) := by omega
  have hheld : [carriedRow tile x rec].filter (fun x => decide (arrival k (rowOf k x.1) c d.sub = .hold)) = [] := by
    simp only [carriedRow, List.filter_cons, harrive, reduceCtorEq, decide_false, Bool.false_eq_true, if_false, List.filter_nil]
  have hrows : (contribRows d.sparse (rec.drop 32) (maskBits (fieldAt rec 16 8))).map (fun x => (64 * tile + x.1, x)) =
      [carriedRow tile x rec] := by
    rw [hdense, contribRows_of_single hmask hrow]
    rfl
  refine (contribTake_of_settled hgate hrows hheld htaken).trans ?_
  rw [maskBits_zero, List.length_nil, List.foldl_cons, List.foldl_nil]
  exact hsettled

end

end Sys2Proof.Machine

end

section
/-! PROOFS. The hard limit of a bucket that nothing has reached (R301, R305): every row ends, and the bucket closes. -/

namespace Sys2Proof.Machine

variable {s : State} {e st : Nat} {k : Bucket} {bs : List Nat}

/-! ### Rows that end -/

theorem length_countUp (a n : Nat) : (countUp a n).length = n := by
  induction n generalizing a with
  | zero => rfl
  | succ n ih => rw [countUp, List.length_cons, ih]

/-- Rows `bs` end with status st. -/
def endedRows (st : Nat) (m : SMap RRow) (bs : List Nat) : SMap RRow :=
  bs.foldl (fun m b => smSet {} m b { smGet ({} : RRow) m b with st := .ended st }) m

theorem smGet_endedRows {st : Nat} {b : Nat} : ∀ {bs : List Nat} {m : SMap RRow}, smGet {} (endedRows st m bs) b =
    if b ∈ bs then { smGet ({} : RRow) m b with st := .ended st } else smGet {} m b
  | [], _ => rfl
  | c :: bs, m => by
    have ih := smGet_endedRows (st := st) (b := b) (bs := bs) (m := smSet {} m c { smGet ({} : RRow) m c with st := .ended st })
    rw [endedRows, List.foldl_cons, ← endedRows, ih]
    by_cases hbs : b ∈ bs <;> by_cases hc : b = c <;> simp [hbs, hc]

/-- R304: rows of an engine's only bucket end, none of them waiting to be sent. -/
theorem endRows_of_lone (h : Lone (rlyOf s e) k) (hdlv : (rlyOf s e).dlv = []) (hst : st ≠ 0) (hbs : bs ≠ []) :
    bs.foldl (fun s b => endRow s e (eTag k.entry) b st) s =
      setRly s e { rlyOf s e with open_ := [{ k with rows := endedRows st k.rows bs }] } := by
  have hone (u : State) (m : SMap RRow) (b : Nat) (hu : rlyOf u e = { rlyOf s e with open_ := [{ k with rows := m }] }) :
      endRow u e (eTag k.entry) b st =
        setRly u e { rlyOf s e with open_ := [{ k with rows := smSet {} m b { smGet ({} : RRow) m b with st := .ended st } }] } := by
    have hlone : Lone (rlyOf u e) { k with rows := m } := by
      rw [hu]
      exact ⟨h.sends, h.rbs, h.fins, rfl⟩
    rw [endRow_of_lone (k := { k with rows := m }) hlone hst, hu]
    simp only [hdlv, List.filter_nil]
    rfl
  cases bs with
  | nil => exact absurd rfl hbs
  | cons b bs =>
    rw [List.foldl_cons, hone s k.rows b (by rw [← h.bucket])]
    refine List.foldl_hom (fun m => setRly s e { rlyOf s e with open_ := [{ k with rows := m }] }) (H := fun m c => ?_)
    rw [hone _ m c (rlyOf_setRly_self ..), setRly_setRly]

/-! ### The report (R96, R291) -/

theorem firstFail_replicate {n : Nat} (hst : st ≠ 0) (hn : 0 < n) : firstFail (List.replicate n st) = st := by
  obtain ⟨n, rfl⟩ := Nat.exists_eq_succ_of_ne_zero hn.ne'
  rw [List.replicate_succ, firstFail, if_neg hst]

/-- R96: more than one part failed. -/
theorem partStatus_replicate {n : Nat} (hst : st ≠ 0) (hn : 2 ≤ n) : partStatus (List.replicate n st) = 1 := by
  obtain ⟨n, rfl⟩ := Nat.exists_eq_add_of_le' hn
  simp [partStatus, List.replicate_succ, hst]

/-- R291: the status and the first failure in a completion word without a bucket status. -/
theorem bits_complWord {r : Report} (count : Nat) (hst : r.status < 256) (hff : r.firstFail < 256) :
    bits (complWord r count none) 63 56 = r.status ∧ bits (complWord r count none) 55 48 = r.firstFail := by
  simp only [bits, complWord, Option.getD_none, Option.isSome_none, Bool.false_eq_true, if_false, Nat.shiftLeft_eq,
    Nat.shiftRight_eq_div_pow]
  have hcount := Nat.min_le_right count 65535
  have hpfx := Nat.min_le_right r.pfx 8191
  omega

/-! ### The bucket closes (R305) -/

/-- What the engine holds once its only bucket has closed with a bucket status. -/
def closedWith (v : Rly) (k : Bucket) (status : Nat) : Rly :=
  { v with
    open_ := []
    closed := smSet none v.closed (eTag k.entry) (some (eStep k.entry, status))
    next := v.next + 1
    fins := [] }

/-- The completion of its OPEN. -/
def closeFin (v : Rly) (k : Bucket) (r : Report) : RFin := ⟨v.next, k.entry, complWord r 0 none, r.map, false⟩

theorem closeBucket_of_ended (h : Lone (rlyOf s e) k) (hrows : ∀ b < 64 * oTiles k.entry, rowOf k b = { st := .ended st })
    (hsenders : k.senders = []) (hstats : oStats k.entry = 0) (hlog : oLog k.entry = 0) :
    let r := partReport (List.replicate (64 * oTiles k.entry) st)
    closeBucket e s k = setRly s e { closedWith (rlyOf s e) k r.status with fins := [closeFin (rlyOf s e) k r] } := by
  intro r
  have hrow (b : Nat) (hb : b ∈ bktRows k) : rowOf k b = { st := .ended st } := hrows b (mem_bktRows.1 hb)
  have hall : (bktRows k).all (fun b => rowEnded (rowOf k b)) = true := List.all_eq_true.2 fun b hb => by rw [hrow b hb]; rfl
  have hsts (f : Nat → Nat) (hf : ∀ b ∈ bktRows k, f b = st) : (bktRows k).map f = List.replicate (64 * oTiles k.entry) st := by
    rw [List.map_congr_left hf, List.map_const', bktRows, length_countUp]
  have hsubs : (bktRows k).filter (fun b => decide (subMask (rowOf k b) ≠ 0)) = [] := List.filter_eq_nil_iff.2 fun b hb => by
    rw [hrow b hb, show subMask { st := .ended st } = 0 from rfl]
    decide
  simp only [closeBucket, hall, not_true_eq_false, if_false, optWrite, hstats, hlog, if_true, hsubs, hsenders, List.map_nil,
    List.length_nil, List.filter_nil, List.append_nil, List.foldl_nil]
  rw [hsts _ fun b hb => by rw [hrow b hb]]
  simp only [rlyFinish, rlyOf_setRly_self, setRly_setRly, h.bucket, h.fins, List.filter_cons, List.filter_nil, ne_eq, not_true_eq_false,
    decide_false, Bool.false_eq_true, if_false, List.nil_append]
  rfl

theorem rlyCapture_setRly (v : Rly) (st : Nat) (b : Bytes) : rlyCapture (setRly s e v) e st b = setRly (rlyCapture s e st b) e v := by
  unfold rlyCapture
  rw [flag_setRly]
  by_cases h : st = 0 ∨ flag s (Csr.RLY_FAIL e) 31 = true
  · rw [if_pos h, if_pos h]
  · rw [if_neg h, if_neg h, wr_setRly, wr_setRly]

theorem rlyOf_rlyCapture (s : State) (e st : Nat) (b : Bytes) : rlyOf (rlyCapture s e st b) e = rlyOf s e :=
  rlyOf_of_same (rlyCapture_same (ps := [.csr]) (by decide) (.refl _ s)) (by decide) e

section
variable {r : Report} (hsilent : Silent k.entry) (hkind : eKind k.entry = 1) (hst : r.status ≠ 0) (hbyte : r.status < 256)
  (hfirst : r.firstFail < 256)
include hsilent hkind hst hbyte hfirst

/-- R309, R310: a failed bucket is captured and reported. -/
theorem finDuties_closeFin (s : State) (e : Nat) (v : Rly) : finDuties s e (closeFin v k r) =
    raise (rlyCapture s e r.status k.entry) (rlySrc e) r.status (tagStep k.entry + r.status * 2 ^ 40 + r.firstFail * 2 ^ 32) r.map := by
  obtain ⟨_, hsb, _⟩ := hsilent
  obtain ⟨hstatus, hfail⟩ := bits_complWord (r := r) 0 hbyte hfirst
  have hsignal : rlySignal s k.entry = s := by simp only [rlySignal, hsb, Bool.false_eq_true, false_and, if_false]
  simp only [finDuties, closeFin, Bool.false_eq_true, if_false, hsignal, hkind, true_or, if_true, hstatus, rlyEvent, hst, false_and,
    hfail, Nat.shiftLeft_eq]

/-- R286: without a scoreboard bit and a completion word, the completion leaves the engine at once. -/
theorem runFins_closeFin (s : State) (e : Nat) (v w : Rly) :
    runFins e (setRly s e { w with fins := [closeFin v k r] }) [closeFin v k r] =
      raise (rlyCapture (setRly s e { w with fins := [] }) e r.status k.entry) (rlySrc e) r.status
        (tagStep k.entry + r.status * 2 ^ 40 + r.firstFail * 2 ^ 32) r.map := by
  have hduties := finDuties_closeFin hsilent hkind hst hbyte hfirst (setRly s e { w with fins := [closeFin v k r] }) e v
  obtain ⟨hcomp, hsb, _⟩ := hsilent
  have hone (u : State) : finOne u e (closeFin v k r) = (finDuties u e (closeFin v k r), true) := by
    simp only [finOne, closeFin, hsb, Bool.false_eq_true, false_and, and_false, if_false, hcomp, true_or, if_true]
  rw [runFins, hone]
  simp only [runFins, hduties, rlyOf_raise, rlyOf_rlyCapture, rlyOf_setRly_self, List.filter_cons, List.filter_nil, ne_eq, not_true_eq_false,
    decide_false, Bool.false_eq_true, if_false]
  rw [← raise_setRly, ← rlyCapture_setRly, setRly_setRly]

end

/-- When its bucket closes, the engine tries the completions in line. -/
theorem rlyWork_of_closing {w : Rly} (hup : rlyUp s = true) (h : Lone (rlyOf s e) k) (hclose : closeBucket e s k = setRly s e w)
    (hrbs : w.rbs = []) : rlyWork s e = runFins e (setRly s e w) w.fins := by
  simp only [rlyWork, hup, not_true_eq_false, if_false, h.sends, List.foldl_nil, h.bucket, List.foldl_cons, hclose, rlyOf_setRly_self,
    hrbs]

/-- R305, R310: a bucket whose every row has ended with st closes: its failure is captured, and its event is raised. -/
theorem rlyWork_of_ended (hup : rlyUp s = true) (h : Lone (rlyOf s e) k)
    (hrows : ∀ b < 64 * oTiles k.entry, rowOf k b = { st := .ended st }) (hst : st ≠ 0) (hbyte : st < 256) (htiles : 0 < oTiles k.entry)
    (hsenders : k.senders = []) (hstats : oStats k.entry = 0) (hlog : oLog k.entry = 0) (hsilent : Silent k.entry)
    (hkind : eKind k.entry = 1) :
    let r := partReport (List.replicate (64 * oTiles k.entry) st)
    rlyWork s e = raise (rlyCapture (setRly s e (closedWith (rlyOf s e) k r.status)) e r.status k.entry) (rlySrc e) r.status
      (tagStep k.entry + r.status * 2 ^ 40 + r.firstFail * 2 ^ 32) r.map := by
  intro r
  have hstatus : r.status = 1 := partStatus_replicate hst (by omega)
  have hfirst : r.firstFail = st := firstFail_replicate hst (by omega)
  have hclosed := closeBucket_of_ended h hrows hsenders hstats hlog
  have hfins := runFins_closeFin hsilent hkind (r := r) (by omega) (by omega) (by omega) s e (rlyOf s e) (closedWith (rlyOf s e) k r.status)
  exact (rlyWork_of_closing hup h hclosed h.rbs).trans hfins

end Sys2Proof.Machine

end

section
/-! PROOFS. The commands that act on the rows of an engine's only bucket (R294 to R303, R305). -/

namespace Sys2Proof.Machine

variable {s t u : State} {e : Fin 2} {k : Bucket} {b o : Nat} {rec : Bytes}

/-! ### Registers and messages -/

theorem bumpOcc_zero_rd {a : Nat} (h : rd s a < 2 ^ 32) (x : Nat) : rd (bumpOcc s a 0) x = rd s x := by
  rcases rd_bumpOcc_zero s a x with hx | ⟨_, hwide, _⟩
  · exact hx
  · omega

theorem relayMsg_congr (h : rd t Csr.FABC_SELF = rd s Csr.FABC_SELF) (dst sub : Nat) (p : Bytes) :
    relayMsg t dst sub p = relayMsg s dst sub p := by
  rw [relayMsg, relayMsg, selfDev, selfDev, flag, flag, fld, fld, h]

/-- R293: the answer to a record is given to the fabric. -/
theorem outbox_sendAnswer (hout : u.outbox = s.outbox) (hself : rd u Csr.FABC_SELF = rd s Csr.FABC_SELF) (code no st : Nat) :
    (sendAnswer u rec code no st).outbox = s.outbox ++ [relayMsg s (bits (fieldAt rec 0 4) 27 16) 0x01 (answerRec rec code no st)] := by
  rw [← hout, ← relayMsg_congr hself]
  rfl

theorem rlyUp_of_works (h : works s rlyIdx = true) : rlyUp s = true := by
  simp only [works, blkHeld, Bool.and_eq_true, Bool.not_eq_true', Bool.or_eq_false_iff, Bool.not_eq_false'] at h
  obtain ⟨⟨⟨hawake, hreset⟩, _⟩, _⟩ := h
  simp only [rlyUp, hawake, hreset, Bool.not_false, Bool.and_self]

/-! ### Records of contributions (R294) -/

/-- The record's bytes counted. -/
def rxCounted (s : State) (e : Nat) (rec : Bytes) : State := wr s (Csr.RLY_RX_BYTES e) (rd s (Csr.RLY_RX_BYTES e) + rec.length)

theorem rlyOf_rxCounted (s : State) (e : Nat) (rec : Bytes) (d : Nat) : rlyOf (rxCounted s e rec) d = rlyOf s d := by
  rw [rlyOf, rxCounted, wr_rlys, rlyOf]

theorem rd_rxCounted_ne {a e : Nat} (h : a ≠ Csr.RLY_RX_BYTES e) (s : State) (rec : Bytes) : rd (rxCounted s e rec) a = rd s a :=
  rd_wr_ne s _ h

theorem ctrl_ne_rx (e : Fin 2) : Csr.RLY_CTRL e ≠ Csr.RLY_RX_BYTES e := by unfold Csr.RLY_CTRL Csr.RLY_RX_BYTES; omega

theorem rlyOn_rxCounted (s : State) (e : Fin 2) (rec : Bytes) : rlyOn (rxCounted s e rec) e = rlyOn s e :=
  congrArg (bit · 0) (rd_rxCounted_ne (ctrl_ne_rx e) s rec)

theorem serial_step (b : Bytes) (o : Nat) : serial 32 (fieldAt b o 4) (fieldAt b o 4) = .equal := serial_self (fieldAt_lt b o 4)

/-- R294: a record for an engine at work is looked at once its bytes are counted. -/
theorem contribEff_of_atWork (hon : rlyOn s e = true) (hrx : rd s (Csr.RLY_RX_BYTES e) + rec.length < 2 ^ 64) : contribEff s e rec =
    contribFor (rxCounted s e rec) e (fieldAt rec 8 2) (bits (fieldAt rec 0 4) 15 8) (bits (fieldAt rec 0 4) 5 0) (fieldAt rec 4 4)
      ⟨bit (fieldAt rec 0 4) 7, bits (fieldAt rec 0 4) 27 16, bit (fieldAt rec 0 4) 6⟩ rec := by
  have hon' : ¬ ¬ rlyOn (rxCounted s e rec) e = true := not_not.2 ((rlyOn_rxCounted s e rec).trans hon)
  unfold contribEff
  rw [bumpStat_of_lt hrx, ← rxCounted, if_neg hon']

/-- R294: a record for the bucket's tag and step is the bucket's. -/
theorem contribFor_of_lone {c tile : Nat} {d : Taker} (h : Lone (rlyOf s e) k) :
    contribFor s e (eTag k.entry) c tile (eStep k.entry) d rec = contribTake s e (eTag k.entry) c tile d k rec := by
  rw [contribFor, bktOf_of_lone h]
  dsimp only
  rw [eStep, serial_step, contribOpen]

/-- R294: a record for the step of its tag that closed last is answered with the bucket's status. -/
theorem contribFor_of_closed {c tile tag st : Nat} {d : Taker} (hidle : RlyIdle (rlyOf s e))
    (hclosed : smGet none (rlyOf s e).closed tag = some (fieldAt rec 4 4, st)) :
    contribFor s e tag c tile (fieldAt rec 4 4) d rec = sendAnswer s rec 5 0 st := by
  obtain ⟨_, hopen, _⟩ := hidle
  have hnone : bktOf s e tag = none := by rw [bktOf, hopen]; rfl
  rw [contribFor, hnone]
  dsimp only
  rw [hclosed]
  dsimp only
  rw [serial_step, closedAnswer]

/-- The device of a record that brings its source's own dense row. -/
def plainTaker (rec : Bytes) : Taker := ⟨false, bits (fieldAt rec 0 4) 27 16, false⟩

/-- What the engine holds of the bucket once the record is taken. -/
def contributed (s : State) (e : Nat) (k : Bucket) (x : Nat) (rec : Bytes) : State :=
  contribCounted (rxCounted s e rec) e
    (contribBucket k (bits (fieldAt rec 0 4) 15 8) (bits (fieldAt rec 0 4) 5 0) x (plainTaker rec) rec)

theorem execContribReceive_of_fits {x : Nat} (hwork : RlyAtWork s e) (h : Lone (rlyOf s e) k) (htag : fieldAt rec 8 2 = eTag k.entry)
    (hengine : eTag k.entry % 2 = e) (hstep : fieldAt rec 4 4 = eStep k.entry) (hsub : bit (fieldAt rec 0 4) 7 = false)
    (hsparse : bit (fieldAt rec 0 4) 6 = false)
    (hfits : Fits k (bits (fieldAt rec 0 4) 15 8) (bits (fieldAt rec 0 4) 5 0) x o (plainTaker rec) rec)
    (hrx : rd s (Csr.RLY_RX_BYTES e) + rec.length < 2 ^ 64) (hel : rd s (Csr.RLY_ELEMS e) + 64 < 2 ^ 64) :
    execContribReceive e rec s = .next (sendAnswer (contributed s e k x rec) rec 0 0 0) := by
  have hne : Csr.RLY_ELEMS e ≠ Csr.RLY_RX_BYTES e := by unfold Csr.RLY_ELEMS Csr.RLY_RX_BYTES; omega
  have hroom : rd (rxCounted s e rec) (Csr.RLY_ELEMS e) + 64 < 2 ^ 64 := by rwa [rxCounted, rd_wr_ne s _ hne]
  rw [← rlyOf_rxCounted s e rec] at h
  have heff : contribEff s e rec = sendAnswer (contributed s e k x rec) rec 0 0 0 := by
    rw [contribEff_of_atWork hwork.1 hrx, htag, hstep, hsub, hsparse, ← plainTaker, contribFor_of_lone h]
    exact contribTake_of_fits h hfits hroom
  have hrow := rowEnded_filling (filling_contribBucket hfits)
  have hinside : 64 * bits (fieldAt rec 0 4) 5 0 + x < 64 * oTiles k.entry := by
    obtain ⟨⟨_, hinside, hrow⟩, _⟩ := hfits
    omega
  have hanswered : Lone (rlyOf (sendAnswer (contributed s e k x rec) rec 0 0 0) e)
      (contribBucket k (bits (fieldAt rec 0 4) 15 8) (bits (fieldAt rec 0 4) 5 0) x (plainTaker rec) rec) := by
    rw [rlyOf_sendAnswer]
    exact lone_contribCounted h
  rw [execContribReceive, if_pos ⟨hwork.2, by rw [recEngine, htag, hengine]⟩, heff, rlyWork_of_unended hanswered hinside hrow]

theorem execContribReceive_of_closed {st : Nat} (hwork : RlyAtWork s e) (hidle : RlyIdle (rlyOf s e)) (hengine : fieldAt rec 8 2 % 2 = e)
    (hclosed : smGet none (rlyOf s e).closed (fieldAt rec 8 2) = some (fieldAt rec 4 4, st))
    (hrx : rd s (Csr.RLY_RX_BYTES e) + rec.length < 2 ^ 64) :
    execContribReceive e rec s = .next (sendAnswer (rxCounted s e rec) rec 5 0 st) := by
  rw [← rlyOf_rxCounted s e rec] at hidle hclosed
  have hanswered : RlyIdle (rlyOf (sendAnswer (rxCounted s e rec) rec 5 0 st) e) := by rwa [rlyOf_sendAnswer]
  rw [execContribReceive, if_pos ⟨hwork.2, hengine⟩, contribEff_of_atWork hwork.1 hrx, contribFor_of_closed hidle hclosed,
    rlyWork_of_idle hanswered]

/-! ### What the record leaves -/

section
variable {x : Nat} (hroom : rd s (Csr.RLY_NOTTAKEN e) < 2 ^ 32)
include hroom

theorem rd_contributed (a : Nat) : rd (contributed s e k x rec) a =
    if a = Csr.RLY_ELEMS e then (rd s (Csr.RLY_ELEMS e) + 64) % 2 ^ 64 else rd (rxCounted s e rec) a := by
  obtain ⟨hel, hrx, hne⟩ : Csr.RLY_NOTTAKEN e ≠ Csr.RLY_ELEMS e ∧ Csr.RLY_NOTTAKEN e ≠ Csr.RLY_RX_BYTES e
      ∧ Csr.RLY_ELEMS e ≠ Csr.RLY_RX_BYTES e := by
    unfold Csr.RLY_NOTTAKEN Csr.RLY_ELEMS Csr.RLY_RX_BYTES; omega
  rw [contributed, contribCounted, bumpOcc_zero_rd, rd_wr, rd_setRly, rd_rxCounted_ne hne]
  rwa [rd_wr_ne _ _ hel, rd_setRly, rd_rxCounted_ne hrx]

theorem rd_contributed_elems (h : rd s (Csr.RLY_ELEMS e) + 64 < 2 ^ 64) :
    rd (contributed s e k x rec) (Csr.RLY_ELEMS e) = rd s (Csr.RLY_ELEMS e) + 64 := by
  rw [rd_contributed hroom, if_pos rfl, Nat.mod_eq_of_lt h]

theorem rd_contributed_rx (h : rd s (Csr.RLY_RX_BYTES e) + rec.length < 2 ^ 64) :
    rd (contributed s e k x rec) (Csr.RLY_RX_BYTES e) = rd s (Csr.RLY_RX_BYTES e) + rec.length := by
  have hne : Csr.RLY_RX_BYTES e ≠ Csr.RLY_ELEMS e := by unfold Csr.RLY_ELEMS Csr.RLY_RX_BYTES; omega
  rw [rd_contributed hroom, if_neg hne, rxCounted, rd_wr_same, Nat.mod_eq_of_lt h]

theorem contributed_otherRegs : OtherRegs [Csr.RLY_RX_BYTES e, Csr.RLY_ELEMS e] s (contributed s e k x rec) := fun a ha => by
  rw [List.mem_cons, List.mem_singleton, not_or] at ha
  rw [rd_contributed hroom, if_neg ha.2, rd_rxCounted_ne ha.1]

end

theorem rlyOf_contributed (x : Nat) : rlyOf (contributed s e k x rec) e = { rlyOf s e with
    open_ := [contribBucket k (bits (fieldAt rec 0 4) 15 8) (bits (fieldAt rec 0 4) 5 0) x (plainTaker rec) rec] } := by
  rw [contributed, rlyOf_contribCounted, rlyOf_rxCounted]

theorem self_not_mem (e : Fin 2) : Csr.FABC_SELF ∉ [Csr.RLY_RX_BYTES e, Csr.RLY_ELEMS e] := by
  simp only [Csr.FABC_SELF, Csr.RLY_RX_BYTES, Csr.RLY_ELEMS, List.mem_cons, List.not_mem_nil, or_false]
  omega

theorem contributed_same (x : Nat) : SameBut [.rlys, .csr] s (contributed s e k x rec) :=
  (setRly_same (by decide) (wr_same (by decide) (.refl _ s))).trans
    ((contribCounted_same (rxCounted s e rec) e _).mono (by decide))

theorem otherRlys_contributed (x : Nat) : OtherRlys e s (contributed s e k x rec) := fun d hd => by
  rw [contributed, rlyOf_of_same (contribCounted_same (rxCounted s e rec) e _) (by decide), rlyOf_setRly, if_neg hd, rlyOf_rxCounted]

/-! ### Deadlines (R299, R301) -/

/-- The bucket's deadline has passed. -/
def pastDeadline (s : State) (e : Nat) (k : Bucket) : State :=
  setRly s e { rlyOf s e with open_ := [{ k with passed := true }] }

theorem bktRows_ne_nil (h : 0 < oTiles k.entry) : bktRows k ≠ [] :=
  List.ne_nil_of_mem (mem_bktRows.2 (show 0 < 64 * oTiles k.entry by omega))

theorem filter_filling_of_noRows (h : k.rows = []) : (bktRows k).filter (fun b => decide ((rowOf k b).st = .filling)) = bktRows k :=
  List.filter_eq_self.2 fun b _ => by rw [rowOf_of_noRows h]; rfl

theorem length_bktRows (k : Bucket) : (bktRows k).length = 64 * oTiles k.entry := length_countUp ..

/-- R301: the deadline of a bucket that nothing has reached is reported with all its rows. -/
theorem deadlineEff_of_noRows (h : Lone (rlyOf s e) k) (hrows : k.rows = []) (htiles : 0 < oTiles k.entry) :
    deadlineEff s e (eTag k.entry) = raise (pastDeadline s e k) (rlySrc e) 0x05 (tagStep k.entry) (64 * oTiles k.entry) := by
  have hpast : Lone (rlyOf (pastDeadline s e k) e) { k with passed := true } := by
    rw [pastDeadline, rlyOf_setRly_self]
    exact ⟨h.sends, h.rbs, h.fins, rfl⟩
  have hbucket : bktOf (pastDeadline s e k) e (eTag k.entry) = some { k with passed := true } := bktOf_of_lone hpast
  have hset : setBkt s e { k with passed := true } = pastDeadline s e k := setBkt_of_lone h rfl
  have hleft : (bktRows { k with passed := true }).filter (fun b => decide ((rowOf { k with passed := true } b).st = .filling)) = bktRows k :=
    filter_filling_of_noRows (k := { k with passed := true }) hrows
  unfold deadlineEff
  rw [bktOf_of_lone h]
  dsimp only
  rw [hset, hrows, List.filter_nil, List.foldl_nil, hbucket]
  dsimp only
  rw [hleft, if_neg (bktRows_ne_nil htiles), length_bktRows]

theorem execBucketDeadline_of_noRows (hworks : works s rlyIdx = true) (h : Lone (rlyOf s e) k) (hrows : k.rows = [])
    (hpassed : k.passed = false) (hdeadline : oDeadline k.entry ≠ 0) (htiles : 0 < oTiles k.entry) :
    execBucketDeadline e (eTag k.entry) s =
      .next (raise (pastDeadline s e k) (rlySrc e) 0x05 (tagStep k.entry) (64 * oTiles k.entry)) := by
  have hraised : Lone (rlyOf (raise (pastDeadline s e k) (rlySrc e) 0x05 (tagStep k.entry) (64 * oTiles k.entry)) e)
      { k with passed := true } := by
    rw [rlyOf_raise, pastDeadline, rlyOf_setRly_self]
    exact ⟨h.sends, h.rbs, h.fins, rfl⟩
  have hopen : rowEnded (rowOf { k with passed := true } 0) = false :=
    rowEnded_filling (by rw [rowOf_of_noRows (k := { k with passed := true }) hrows])
  simp only [execBucketDeadline, bktOf_of_lone h]
  rw [if_pos ⟨hworks, hdeadline, by rw [hpassed]; decide⟩, deadlineEff_of_noRows h hrows htiles,
    rlyWork_of_unended (b := 0) hraised (show 0 < 64 * oTiles k.entry by omega) hopen]

/-- R301, R305: the hard limit ends every row of a bucket that nothing has reached, and the bucket closes. -/
theorem execBucketHardLimit_of_noRows (hworks : works s rlyIdx = true) (h : Lone (rlyOf s e) k) (hdlv : (rlyOf s e).dlv = [])
    (hrows : k.rows = []) (hsenders : k.senders = []) (hhard : oHard k.entry ≠ 0) (hstats : oStats k.entry = 0) (hlog : oLog k.entry = 0)
    (hsilent : Silent k.entry) (hkind : eKind k.entry = 1) (htiles : 0 < oTiles k.entry) :
    let r := partReport (List.replicate (64 * oTiles k.entry) 0x05)
    execBucketHardLimit e (eTag k.entry) s =
      .next (raise (rlyCapture (setRly s e (closedWith (rlyOf s e) k r.status)) e r.status k.entry) (rlySrc e) r.status
        (tagStep k.entry + r.status * 2 ^ 40 + r.firstFail * 2 ^ 32) r.map) := by
  intro r
  let k' : Bucket := { k with rows := endedRows 0x05 k.rows (bktRows k) }
  have hended : hardEff s e (eTag k.entry) = setRly s e { rlyOf s e with open_ := [k'] } := by
    simp only [hardEff, bktOf_of_lone h, filter_filling_of_noRows hrows]
    exact endRows_of_lone h hdlv (by decide) (bktRows_ne_nil htiles)
  have hlone : Lone (rlyOf (setRly s e { rlyOf s e with open_ := [k'] }) e) k' := by
    rw [rlyOf_setRly_self]
    exact ⟨h.sends, h.rbs, h.fins, rfl⟩
  have hrow (b : Nat) (hb : b < 64 * oTiles k.entry) : rowOf k' b = { st := .ended 0x05 } := by
    rw [rowOf, smGet_endedRows, if_pos (mem_bktRows.2 hb), hrows]
    rfl
  have hup : rlyUp (setRly s e { rlyOf s e with open_ := [k'] }) = true := rlyUp_of_works hworks
  have hclosed := rlyWork_of_ended hup hlone hrow (by decide) (by decide) htiles hsenders hstats hlog hsilent hkind
  simp only [execBucketHardLimit, bktOf_of_lone h]
  rw [if_pos ⟨hworks, hhard⟩, hended, hclosed, rlyOf_setRly_self, setRly_setRly]
  rfl

/-- R310: a failure is captured while none is. -/
theorem rlyCapture_of_free {st : Nat} (hkind : eKind k.entry = 1) (hst : st ≠ 0) (hfree : flag s (Csr.RLY_FAIL e) 31 = false) :
    rlyCapture s e st k.entry =
      wr (wr s (Csr.RLY_FAIL e) (2 ^ 31 + st * 2 ^ 16 + eTag k.entry)) (Csr.RLY_FAIL_STEP e) (eStep k.entry) := by
  have hnone : ¬ (st = 0 ∨ flag s (Csr.RLY_FAIL e) 31 = true) := by simp [hst, hfree]
  have hopen : ¬ eKind k.entry = 2 := by omega
  rw [rlyCapture, if_neg hnone, if_neg hopen, Nat.one_shiftLeft, Nat.shiftLeft_eq, Nat.add_zero]

theorem rlyCapture_of_held {st : Nat} {b : Bytes} (hheld : flag s (Csr.RLY_FAIL e) 31 = true) : rlyCapture s e st b = s := by
  rw [rlyCapture, if_pos (.inr hheld)]

theorem rlyCapture_otherRegs (s : State) (e st : Nat) (b : Bytes) :
    OtherRegs [Csr.RLY_FAIL e, Csr.RLY_FAIL_STEP e] s (rlyCapture s e st b) := fun a ha => by
  rw [List.mem_cons, List.mem_singleton, not_or] at ha
  unfold rlyCapture
  split
  · rfl
  · rw [rd_wr_ne _ _ ha.2, rd_wr_ne _ _ ha.1]

theorem fail_ne_failStep (e : Fin 2) : Csr.RLY_FAIL e ≠ Csr.RLY_FAIL_STEP e := by unfold Csr.RLY_FAIL Csr.RLY_FAIL_STEP; omega

/-- R305, R310: what a bucket leaves that closes with st in every row. -/
theorem closesAll_of_raise {st : Nat} {regs : List Nat} {parts : List Part} {w : Rly} (hst : st ≠ 0) (htiles : 0 < oTiles k.entry)
    (hkind : eKind k.entry = 1) :
    let r := partReport (List.replicate (64 * oTiles k.entry) st)
    ClosesAll s e k st regs parts w
      (raise (rlyCapture (setRly s e (closedWith w k r.status)) e r.status k.entry) (rlySrc e) r.status
        (tagStep k.entry + r.status * 2 ^ 40 + r.firstFail * 2 ^ 32) r.map) := by
  intro r
  have hstatus : r.status = 1 := partStatus_replicate hst (by omega)
  have hcapture := rlyCapture_same (ps := [.csr]) (e := e) (st := r.status) (b := k.entry) (.refl _)
    (.refl _ (setRly s e (closedWith w k r.status)))
  obtain ⟨hself, hothers, hsame⟩ := setRly_sets s e (closedWith w k r.status)
  refine ⟨rlyCapture (setRly s e (closedWith w k r.status)) e r.status k.entry, ?_, fun d hd => ?_, fun hfree => ?_, fun hheld => ?_, ?_,
    fun a ha => ?_, rfl⟩
  · rw [rlyOf_rlyCapture, hself]
    rfl
  · rw [rlyOf_of_same hcapture (by decide), hothers d hd]
  · have htag := fieldAt_lt k.entry 8 2
    have hstep := fieldAt_lt k.entry 4 4
    rw [rlyCapture_of_free hkind (by omega) ((flag_setRly ..).trans hfree), rd_wr_same, rd_wr_ne _ _ (fail_ne_failStep e),
      rd_wr_same, eTag, eStep]
    exact ⟨Nat.mod_eq_of_lt (by omega), Nat.mod_eq_of_lt (by omega)⟩
  · rw [rlyCapture_of_held (s := setRly s e _) hheld]
    exact ⟨rfl, rfl⟩
  · refine (hsame.mono ?_).trans (hcapture.mono ?_)
    · exact fun p hp => List.mem_cons.2 (.inl (List.mem_singleton.1 hp))
    · exact fun p hp => List.mem_cons.2 (.inr (List.mem_cons.2 (.inl (List.mem_singleton.1 hp))))
  · rw [List.mem_cons, List.mem_cons, not_or, not_or] at ha
    refine (rlyCapture_otherRegs (setRly s e (closedWith w k r.status)) e r.status k.entry a ?_).trans (rd_setRly ..)
    simp only [List.mem_cons, List.not_mem_nil, or_false, not_or]
    exact ⟨ha.1, ha.2.1⟩

/-! ### Rows on their way (R302, R303) -/

/-- Row b of the bucket. -/
def withRow (k : Bucket) (b : Nat) (r : RRow) : Bucket := { k with rows := smSet {} k.rows b r }

/-- R303: row b on its way to unit n. -/
def delivered (s : State) (e : Nat) (k : Bucket) (b n : Nat) : State :=
  setNbu { setRly s e { rlyOf s e with open_ := [withRow k b { rowOf k b with st := .sent, everSent := true }], dlv := [] } with
    rowsInFlight := s.rowsInFlight ++ [(n, deliveryBytes k b)] }
    n { nbuOf s n with credits := (nbuOf s n).credits - 1 }

theorem delivered_same (s : State) (e : Nat) (k : Bucket) (b n : Nat) : SameBut [.nbus, .rowsInFlight]
    (setRly s e { rlyOf s e with open_ := [withRow k b { rowOf k b with st := .sent, everSent := true }], dlv := [] }) (delivered s e k b n) :=
  setNbu_same (by decide) ((same_mk_rowsInFlight (by decide)).2 (.refl _ _))

theorem rlyOf_delivered (s : State) (e : Nat) (k : Bucket) (b n : Nat) : rlyOf (delivered s e k b n) e =
    { rlyOf s e with open_ := [withRow k b { rowOf k b with st := .sent, everSent := true }], dlv := [] } :=
  (rlyOf_of_same (delivered_same s e k b n) (by decide) e).trans (rlyOf_setRly_self ..)

/-- R303: the only row in line is sent to its unit, which has a credit. -/
theorem deliverNext_of_credit {n : Nat} (h : Lone (rlyOf s e) k) (hdlv : (rlyOf s e).dlv = [(eTag k.entry, b)])
    (hverdict : rowVerdict (rowOf k b) = 0) (hunit : rowUnit s k b = some n) (hcredit : 0 < (nbuOf s n).credits) :
    deliverNext s e [(eTag k.entry, b)] = delivered s e k b n := by
  rw [deliverNext, bktOf_of_lone h]
  dsimp only
  rw [if_neg (not_not.2 hverdict), hunit]
  dsimp only
  rw [if_neg hcredit.ne', setRow_of_lone h rfl, rlyOf_setRly_self, setRly_setRly, setRly_rowsInFlight, hdlv]
  simp only [List.filter_cons, List.filter_nil, ne_eq, not_true_eq_false, decide_false, Bool.false_eq_true, if_false]
  rw [delivered, withRow]

theorem execRowDeliver_of_credit {n : Nat} (hup : rlyUp s = true) (hruns : plcRuns s = true) (hready : plcReady s = true)
    (h : Lone (rlyOf s e) k) (hdlv : (rlyOf s e).dlv = [(eTag k.entry, b)]) (hverdict : rowVerdict (rowOf k b) = 0)
    (hunit : rowUnit s k b = some n) (hcredit : 0 < (nbuOf s n).credits) (htiles : 1 < oTiles k.entry) (hfew : k.rows.length ≤ 64) :
    execRowDeliver e s = .next (delivered s e k b n) := by
  have hsent : Lone (rlyOf (delivered s e k b n) e) (withRow k b { rowOf k b with st := .sent, everSent := true }) := by
    rw [rlyOf_delivered]
    exact ⟨h.sends, h.rbs, h.fins, rfl⟩
  obtain ⟨o, ho, hob, hrow⟩ := exists_unlisted_row (k := k) b (show k.rows.length + 1 < 64 * oTiles k.entry by omega)
  have hopen : rowEnded (rowOf (withRow k b { rowOf k b with st := .sent, everSent := true }) o) = false :=
    rowEnded_filling (by rw [withRow, rowOf_smSet_ne hob, hrow])
  rw [execRowDeliver, if_pos ⟨hup, hruns, hready⟩, hdlv, deliverNext_of_credit h hdlv hverdict hunit hcredit,
    rlyWork_of_unended hsent ho hopen]

/-- R303: the row ends that a unit has answered with OK, and is counted. -/
def answered (s : State) (e : Nat) (k : Bucket) (b : Nat) : State :=
  wr (setRly s e { rlyOf s e with open_ := [withRow k b { rowOf k b with st := .ended 0 }], dlv := [] }) (Csr.RLY_ROWS e)
    (rd s (Csr.RLY_ROWS e) + 1)

theorem answered_same (s : State) (e : Nat) (k : Bucket) (b : Nat) : SameBut [.rlys, .csr] s (answered s e k b) :=
  wr_same (by decide) (setRly_same (by decide) (.refl _ s))

theorem rlyOf_answered (s : State) (e : Nat) (k : Bucket) (b d : Nat) : rlyOf (answered s e k b) d =
    if d = e then { rlyOf s e with open_ := [withRow k b { rowOf k b with st := .ended 0 }], dlv := [] } else rlyOf s d := by
  rw [answered, rlyOf, wr_rlys, ← rlyOf, rlyOf_setRly]

theorem rd_answered (h : rd s (Csr.RLY_ROWS e) + 1 < 2 ^ 64) (k : Bucket) (b : Nat) :
    rd (answered s e k b) (Csr.RLY_ROWS e) = rd s (Csr.RLY_ROWS e) + 1 := by
  rw [answered, rd_wr_same, Nat.mod_eq_of_lt h]

theorem answered_otherRegs (s : State) (e : Nat) (k : Bucket) (b : Nat) :
    OtherRegs [Csr.RLY_ROWS e] s (answered s e k b) := fun a ha => by
  rw [answered, rd_wr_ne _ _ (List.mem_singleton.not.1 ha), rd_setRly]

theorem nbuAnswerEff_of_ok {a : Bytes} (h : Lone (rlyOf s e) k) (hdlv : (rlyOf s e).dlv = []) (htag : rBucket a = eTag k.entry)
    (hstep : rStep a = eStep k.entry) (hrow : answeredRow k a = some b) (hok : fieldAt a 12 1 = 0)
    (hroom : rd s (Csr.RLY_ROWS e) + 1 < 2 ^ 64) : nbuAnswerEff s e a = answered s e k b := by
  unfold nbuAnswerEff
  rw [htag, bktOf_of_lone h]
  dsimp only
  rw [if_pos hstep.symm, hrow]
  dsimp only
  rw [hok]
  simp only [OfNat.zero_ne_ofNat, or_self, if_false]
  rw [endRow_ok_of_lone h hroom, hdlv, List.filter_nil, answered, withRow]

theorem execNbuAnswerReceive_of_ok {a : Bytes} (hup : rlyUp s = true) (h : Lone (rlyOf s e) k) (hdlv : (rlyOf s e).dlv = [])
    (htag : rBucket a = eTag k.entry) (hengine : eTag k.entry % 2 = e) (hstep : rStep a = eStep k.entry)
    (hrow : answeredRow k a = some b) (hok : fieldAt a 12 1 = 0) (ho : o ∈ bktRows k) (hob : o ≠ b) (hopen : rowEnded (rowOf k o) = false)
    (hroom : rd s (Csr.RLY_ROWS e) + 1 < 2 ^ 64) :
    execNbuAnswerReceive e a s = .next (answered { s with rowAnswers := s.rowAnswers.erase a } e k b) := by
  have hended : Lone (rlyOf (answered { s with rowAnswers := s.rowAnswers.erase a } e k b) e)
      (withRow k b { rowOf k b with st := .ended 0 }) := by
    rw [rlyOf_answered, if_pos rfl]
    exact ⟨h.sends, h.rbs, h.fins, rfl⟩
  have hleft : rowEnded (rowOf (withRow k b { rowOf k b with st := .ended 0 }) o) = false := by rwa [withRow, rowOf_smSet_ne hob]
  rw [execNbuAnswerReceive, if_pos ⟨hup, by rw [htag, hengine]⟩,
    nbuAnswerEff_of_ok (s := { s with rowAnswers := s.rowAnswers.erase a }) h hdlv htag hstep hrow hok hroom,
    rlyWork_of_unended hended (mem_bktRows.1 ho) hleft]

/-- R303: the row that no unit has answered waits for its turn again, and is counted. -/
def redelivered (s : State) (e : Nat) (k : Bucket) (b : Nat) : State :=
  setRly (wr s (Csr.RLY_REDELIVER e) (rd s (Csr.RLY_REDELIVER e) + 1)) e
    { rlyOf s e with open_ := [withRow k b { rowOf k b with st := .ready }], dlv := [(eTag k.entry, b)] }

theorem rd_redelivered (h : rd s (Csr.RLY_REDELIVER e) + 1 < 2 ^ 32 - 1) (k : Bucket) (b : Nat) :
    rd (redelivered s e k b) (Csr.RLY_REDELIVER e) = rd s (Csr.RLY_REDELIVER e) + 1 := by
  rw [redelivered, rd_setRly, rd_wr_same, Nat.mod_eq_of_lt (by omega)]

theorem redelivered_otherRegs (s : State) (e : Nat) (k : Bucket) (b : Nat) :
    OtherRegs [Csr.RLY_REDELIVER e] s (redelivered s e k b) := fun a ha => by
  rw [redelivered, rd_setRly, rd_wr_ne _ _ (List.mem_singleton.not.1 ha)]

theorem execDeliveryTimeout_of_sent (hup : rlyUp s = true) (h : Lone (rlyOf s e) k) (hdlv : (rlyOf s e).dlv = [])
    (hsent : (rowOf k b).st = .sent) (ho : o ∈ bktRows k) (hob : o ≠ b) (hopen : rowEnded (rowOf k o) = false)
    (hroom : rd s (Csr.RLY_REDELIVER e) + 1 < 2 ^ 32 - 1) :
    execDeliveryTimeout e (eTag k.entry) b s = .next (redelivered s e k b) := by
  have hqueued : Lone (rlyOf (redelivered s e k b) e) (withRow k b { rowOf k b with st := .ready }) := by
    rw [redelivered, rlyOf_setRly_self]
    exact ⟨h.sends, h.rbs, h.fins, rfl⟩
  have hleft : rowEnded (rowOf (withRow k b { rowOf k b with st := .ready }) o) = false := by rwa [withRow, rowOf_smSet_ne hob]
  have hcounted : Lone (rlyOf (wr s (Csr.RLY_REDELIVER e) (rd s (Csr.RLY_REDELIVER e) + 1)) e) k := by rwa [rlyOf, wr_rlys]
  have heff : resendRow s e (eTag k.entry) b = redelivered s e k b := by
    rw [resendRow, bumpOcc_of_lt hroom, queueRow_of_lone hcounted, rlyOf, wr_rlys, ← rlyOf, hdlv]
    rfl
  rw [execDeliveryTimeout, bktOf_of_lone h]
  dsimp only
  rw [if_pos ⟨hup, hsent⟩, heff, rlyWork_of_unended hqueued (mem_bktRows.1 ho) hleft]

end Sys2Proof.Machine

end

section

open Sys2Proof Sys2Proof.Machine

/-- Settles O41: a record that fits its row is added and answered (`execContribReceive_of_fits`), and the sums follow from
`takenRow_at`; a bucket that nothing has reached passes its deadline with every row filling, and at its hard limit all of them
end, so that it closes (`rlyWork_of_ended`); the other clauses change one row of a bucket that another row keeps open
(`rlyWork_of_unended`). -/
theorem relayRows : Obligations.RelayRows := by
  intro s e k
  refine ⟨fun r x hwork halone htag hengine hstep hsub hsparse hc htile hx hmask hX hfilling hfree hother hrx hel hroom => ?_,
    fun r st hwork hidle hengine hclosed hrx => ?_, fun hworks halone hrows hpassed hdeadline htiles => ?_,
    fun hworks halone hdlv hrows hsenders hhard hstats hlog hsilent hkind htiles => ?_,
    fun b n hup hruns hready halone hdlv hverdict hunit hcredit htiles hfew => ?_,
    fun a b hup halone hdlv htag hengine hstep hrow hok hother hroom => ?_,
    fun b hup halone hdlv hsent hother hroom => ?_⟩
  · obtain ⟨o, ho, hoc, huntaken⟩ := hother
    have hfits : Fits k (bits (fieldAt r 0 4) 15 8) (bits (fieldAt r 0 4) 5 0) x o (plainTaker r) r :=
      ⟨⟨hc, htile, hx⟩, ⟨rfl, rfl, hmask⟩, hX, hfilling, hfree, ho, hoc, huntaken⟩
    have hsame : SameBut [.rlys, .csr] s (contributed s e k x r) := contributed_same x
    have hregs : OtherRegs [Csr.RLY_RX_BYTES e, Csr.RLY_ELEMS e] s (contributed s e k x r) := contributed_otherRegs hroom
    have hanswer : SameBut [.outbox] (contributed s e k x r) (sendAnswer (contributed s e k x r) r 0 0 0) :=
      sendAnswer_same (.refl _) (.refl _ _)
    have hrd := hanswer .csr (by decide)
    refine ⟨_, execContribReceive_of_fits hwork halone htag (htag ▸ hengine) hstep hsub hsparse hfits hrx hel,
      takenRow k (64 * bits (fieldAt r 0 4) 5 0 + x) (bits (fieldAt r 0 4) 15 8) (fieldAt (r.drop 32) 0 1)
        ((bytesAt (r.drop 32) 1 64).map mant) (plainTaker r), ?_, fun j hj => ?_, ?_, ?_, ?_, ?_, ?_, ?_, ?_⟩
    · rw [rlyOf_sendAnswer, rlyOf_contributed]
      rfl
    · exact takenRow_at _ _ _ (by rwa [List.length_map, length_bytesAt])
    · exact takenRow_eq ..
    · exact outbox_sendAnswer (hsame .outbox (by decide)) (hregs _ (self_not_mem e)) 0 0 0
    · exact (hrd _).trans (rd_contributed_rx hroom hrx)
    · exact (hrd _).trans (rd_contributed_elems hroom hel)
    · exact fun d hd => (rlyOf_of_same hanswer (by decide) d).trans (otherRlys_contributed x d hd)
    · exact (hsame.mono (by decide)).trans (hanswer.mono (by decide))
    · exact fun a ha => (hrd a).trans (hregs a ha)
  · have hanswer : SameBut [.outbox] (rxCounted s e r) (sendAnswer (rxCounted s e r) r 5 0 st) := sendAnswer_same (.refl _) (.refl _ _)
    have hrd := hanswer .csr (by decide)
    have hne : Csr.FABC_SELF ≠ Csr.RLY_RX_BYTES e := fun h => self_not_mem e (h ▸ .head _)
    refine ⟨_, execContribReceive_of_closed hwork hidle hengine hclosed hrx, ?_, ?_, ?_, fun a ha => ?_⟩
    · exact outbox_sendAnswer (wr_outbox ..) (rd_rxCounted_ne hne s r) 5 0 st
    · exact (hrd _).trans ((rd_wr_same ..).trans (Nat.mod_eq_of_lt hrx))
    · exact (wr_same (by decide) (.refl _ s)).trans (hanswer.mono (by decide))
    · exact (hrd a).trans (wr_otherRegs s _ _ a ha)
  · obtain ⟨hself, hothers, hsame⟩ := setRly_sets s e { rlyOf s e with open_ := [{ k with passed := true }] }
    exact ⟨_, execBucketDeadline_of_noRows hworks halone hrows hpassed hdeadline htiles, pastDeadline s e k,
      hself, hothers, hsame, rfl⟩
  · exact ⟨_, execBucketHardLimit_of_noRows hworks halone hdlv hrows hsenders hhard hstats hlog hsilent hkind
      htiles, closesAll_of_raise (by decide) htiles hkind⟩
  · obtain ⟨_, hothers, hsame⟩ := setRly_sets s e
      { rlyOf s e with open_ := [withRow k b { rowOf k b with st := .sent, everSent := true }], dlv := [] }
    have hsent := delivered_same s e k b n
    refine ⟨_, execRowDeliver_of_credit hup hruns hready halone hdlv hverdict hunit hcredit htiles hfew, rfl,
      ?_, ?_, rlyOf_delivered .., ?_, (hsame.mono (by decide)).trans (hsent.mono (by decide))⟩
    · rw [delivered, nbuOf_setNbu, if_pos rfl]
    · exact fun m hm => by rw [delivered, nbuOf_setNbu, if_neg hm]; rfl
    · exact fun d hd => (rlyOf_of_same hsent (by decide) d).trans (hothers d hd)
  · obtain ⟨o, ho, hob, hopen⟩ := hother
    refine ⟨_, execNbuAnswerReceive_of_ok hup halone hdlv htag (htag ▸ hengine) hstep hrow hok ho hob hopen hroom,
      ?_, rfl, ?_, ?_, ?_, ?_⟩
    · rw [rlyOf_answered, if_pos rfl, ← hdlv]
      rfl
    · exact rd_answered (s := { s with rowAnswers := s.rowAnswers.erase a }) hroom k b
    · exact fun d hd => by rw [rlyOf_answered, if_neg hd]; rfl
    · have hended := answered_same { s with rowAnswers := s.rowAnswers.erase a } e k b
      exact ((same_mk_rowAnswers (by decide)).2 (.refl _ s)).trans (hended.mono (by decide))
    · exact answered_otherRegs { s with rowAnswers := s.rowAnswers.erase a } e k b
  · obtain ⟨o, ho, hob, hopen⟩ := hother
    obtain ⟨hself, hothers, hsame⟩ := setRly_sets (wr s (Csr.RLY_REDELIVER e) (rd s (Csr.RLY_REDELIVER e) + 1)) e
      { rlyOf s e with open_ := [withRow k b { rowOf k b with st := .ready }], dlv := [(eTag k.entry, b)] }
    have hcounted : SameBut [.csr] s (wr s (Csr.RLY_REDELIVER e) (rd s (Csr.RLY_REDELIVER e) + 1)) := wr_same (.refl _) (.refl _ s)
    refine ⟨_, execDeliveryTimeout_of_sent hup halone hdlv hsent ho hob hopen hroom, hself,
      rd_redelivered hroom k b, ?_, ?_, redelivered_otherRegs s e k b⟩
    · exact fun d hd => (hothers d hd).trans (rlyOf_of_same hcounted (by decide) d)
    · exact (hcounted.mono (by decide)).trans (hsame.mono (by decide))

end

section
/-! PROOFS. A CANCEL entry read from a page that is said to lie in a stack that does not exist (R184, R333, R334). -/

namespace Sys2Proof.Machine

/-- R334: a CANCEL of STEP 0 that signals nothing, writes no completion word and asks for no event. -/
def strayCancel : Bytes := toLE (3 * 2 ^ 28) 128

/-- The media block is enabled, and its ring 0 of one entry, at address 0, holds `strayCancel`. Page 0 is `strayEnt`, and what
would be its stack's status register says that the stack is ready. -/
def strayMediaState : State :=
  { csr := [(Csr.MED_CTRL, 1), (Csr.MED_SQ_SIZE 0, 2 ^ 31), (Csr.MED_SQ_PI 0, 1), (stkReg 92 0x08, 0x9)]
    fast := memWrite [] (fastKey (frameLoc (entFrame strayEnt) 0)) strayCancel
    pages := [(0, strayEnt)]
    plcFits := true }

/-- R185: the ring's entry can be read now. -/
theorem readsNow_strayMediaState : ReadsNow strayMediaState 0 128 := by
  have hent : pageEnt strayMediaState (0 / 2 ^ 18) = strayEnt := by decide
  refine ⟨by decide, by decide, rfl, rfl, ⟨fun _ => rfl, fun _ => rfl⟩, by decide, by decide, by decide, .inl ?_, ?_, ?_⟩
  · rw [hent]; rfl
  · rw [hent]; exact frameFits_of_banked rfl (by decide) (by decide)
  · rw [hent]; decide

/-- R333: the entry is next in ring 0, and the block takes it. -/
theorem medHas_strayMediaState : MedHas strayMediaState 0 strayCancel :=
  ⟨by decide, by decide, by decide, by decide, readsNow_strayMediaState, by decide +kernel⟩

/-- R334: the entry is a CANCEL and passes its checks. -/
theorem strayCancel_checks : eKind strayCancel = 3 ∧ medCommonBad strayCancel = false ∧ mComp strayCancel = 0
    ∧ eSbEn strayCancel = false ∧ eEvt strayCancel = false := by decide +kernel

/-- R178: the entry is read: two lines. -/
theorem strayReads_medCancel : rdAfter (exec (.medCancel 0) strayMediaState) strayReads = 128 := by decide +kernel

theorem strayReads_not_mem_ring : strayReads ∉ Csr.MED_SQ_CI 0 :: tierRegs := by decide +kernel

theorem rd_strayReads_strayMediaState : rd strayMediaState strayReads = 0 := by decide

end Sys2Proof.Machine

open Sys2Proof Sys2Proof.Machine

/-- Refutes O43: of every state, its clause on CANCEL says that only the ring's consumer index and the counters of the 20 stacks
change. A ring in a page in stack 92 counts the bytes read in the word at what would be that stack's register. -/
theorem not_mediaJobs : ¬ Obligations.MediaJobs := by
  intro h
  obtain ⟨hkind, hcheck, hword, hsignal, hevent⟩ := strayCancel_checks
  obtain ⟨_, _, _, _, _, _, hcancel, _⟩ := h strayMediaState 0 strayCancel
  obtain ⟨t, ht, _, _, _, _, _, hregs⟩ := hcancel medHas_strayMediaState hkind hcheck hword hsignal hevent
  have hkept := rdAfter_of_otherRegs ht hregs strayReads_not_mem_ring
  rw [strayReads_medCancel, rd_strayReads_strayMediaState] at hkept
  exact absurd hkept (by decide)

end

section
/-! PROOFS. The record of a link as flits and messages change it (R349, R353, R356, R358), and counters with room (R547, R548). -/

set_option deprecated.oldSectionVars true -- one thread elaborates these proofs: the check's memory is tight

namespace Sys2Proof.Machine

variable {s t u : State} {l : Nat} {v w : Link}

/-! ### Writes of the record -/

@[simp] theorem linkOf_setLink_self (s : State) (l : Nat) (v : Link) : linkOf (setLink s l v) l = v := by rw [linkOf_setLink, if_pos rfl]

theorem setLink_setLink (s : State) (l : Nat) (v w : Link) : setLink (setLink s l v) l w = setLink s l w := by
  simp only [setLink, smSet_smSet]

/-- Link l alone is written. -/
theorem otherLinks_setLink (s : State) (l : Nat) (v : Link) : OtherLinks l s (setLink s l v) :=
  fun d hd => by rw [linkOf_setLink, if_neg hd]

theorem setLink_only (s : State) (l : Nat) (v : Link) : SameBut [.links] s (setLink s l v) := setLink_same (.refl _) (.refl _ s)

theorem linkOf_of_same {ps : List Part} (h : SameBut ps s t) (hlinks : Part.links ∉ ps) (l : Nat) : linkOf t l = linkOf s l := by
  rw [linkOf, linkOf, h .links hlinks]

theorem linkOf_raise (s : State) (src code d0 d1 l : Nat) : linkOf (raise s src code d0 d1) l = linkOf s l :=
  linkOf_of_same (raise_same (ps := [.csr, .evt]) (by decide) (.refl _ s)) (by decide) l

/-! ### Flits and messages -/

theorem emit_eq (s : State) (l : Nat) (f : Flit) :
    emit s l f = setLink s l { linkOf s l with lastTx := some (sentFlit (linkOf s l) f) } := rfl

theorem emit_sets (s : State) (l : Nat) (f : Flit) :
    linkOf (emit s l f) l = { linkOf s l with lastTx := some (sentFlit (linkOf s l) f) } ∧ OtherLinks l s (emit s l f)
    ∧ SameBut [.links] s (emit s l f) :=
  ⟨linkOf_setLink_self .., otherLinks_setLink _ _ _, setLink_only _ _ _⟩

theorem emit_setLink (s : State) (l : Nat) (v : Link) (f : Flit) :
    emit (setLink s l v) l f = setLink s l { v with lastTx := some (sentFlit v f) } := by
  rw [emit_eq, linkOf_setLink_self, setLink_setLink]

theorem linkQueue_eq (s : State) (l vc hc : Nat) (bs : Bytes) : linkQueue s l vc hc bs
    = setLink s l { linkOf s l with txq := (linkOf s l).txq ++ flitsOf vc hc (ceilDiv bs.length 244) true bs } := rfl

theorem linkQueue_setLink (s : State) (l vc hc : Nat) (v : Link) (bs : Bytes) : linkQueue (setLink s l v) l vc hc bs
    = setLink s l { v with txq := v.txq ++ flitsOf vc hc (ceilDiv bs.length 244) true bs } := by
  rw [linkQueue_eq, linkOf_setLink_self, setLink_setLink]

/-- R356: where nothing has arrived, nothing is freed. -/
theorem freeArrived_of_nil (h : (linkOf s l).arrived = []) (bs : Bytes) : freeArrived s l bs = s := by
  simp [freeArrived, h]

/-- R356: the buffers of the one message that has arrived are freed. -/
theorem freeArrived_of_frees {m : FabMsg} {c : Nat} (h : Frees s l m c v) : freeArrived s l (msgBytes m) = setLink s l v := by
  obtain ⟨harrived, rfl⟩ := h
  simp [freeArrived, harrived]

theorem arrivedClass_of_frees {m : FabMsg} {c : Nat} (h : Frees s l m c v) : arrivedClass s l m = c % 2 := by
  obtain ⟨harrived, _⟩ := h
  simp [arrivedClass, harrived]

/-- R358, R368: a message leaves on one link. -/
theorem leave_leaves (s : State) (m : FabMsg) (l c : Nat) :
    Leaves s m l c (leave s m l c) ∧ OtherLinks l s (leave s m l c) ∧ SameBut [.links] s (leave s m l c) :=
  ⟨linkOf_setLink_self .., otherLinks_setLink _ _ _, setLink_only _ _ _⟩

/-! ### Counters with room -/

/-- One register is written. -/
theorem wr_sets {a n : Nat} (h : n < 2 ^ 64) : rd (wr s a n) a = n ∧ OtherRegs [a] s (wr s a n) ∧ SameBut [.csr] s (wr s a n) :=
  ⟨by rw [rd_wr_same, Nat.mod_eq_of_lt h], wr_otherRegs s a n, wr_same (.refl _) (.refl _ s)⟩

theorem bumpStat_counts {a n : Nat} {blk : Option Nat} (h : rd s a + n < 2 ^ 64) : rd (bumpStat s a n blk) a = rd s a + n
    ∧ OtherRegs [a] s (bumpStat s a n blk) ∧ SameBut [.csr] s (bumpStat s a n blk) := by
  rw [bumpStat_of_lt h]
  exact wr_sets h

theorem bumpOcc_counts {a n : Nat} (h : rd s a + n < 2 ^ 32 - 1) : rd (bumpOcc s a n) a = rd s a + n
    ∧ OtherRegs [a] s (bumpOcc s a n) ∧ SameBut [.csr] s (bumpOcc s a n) := by
  rw [bumpOcc_of_lt h]
  exact wr_sets (by omega)

end Sys2Proof.Machine

end

section
/-! PROOFS. Routing of fabric messages (R366 to R371, R376): the fate of a message, and what it leaves behind. -/

set_option deprecated.oldSectionVars true -- one thread elaborates these proofs: the check's memory is tight

namespace Sys2Proof.Machine

variable {s t : State} {m : FabMsg} {l : Nat}

/-! ### The fate of a message (R367 to R370, R376) -/

theorem routeFate_here (hform : formatBad m = false) (hself : forSelf s m = true) : routeFate s m 0 false = .here := by
  simp [routeFate, hform, hself]

/-- R371: a message that came over a link is taken where its source's entry admits it. -/
theorem routeFate_arrived_here {c : Nat} (hform : formatBad m = false) (hself : forSelf s m = true)
    (hsrc : bit (routeEntry s m.src) 30 = true) : routeFate s m c true = .here := by
  simp [routeFate, hform, hself, hsrc]

theorem routeFate_unrouted (hform : formatBad m = false) (hself : forSelf s m = false) (hhops : m.hops + 1 ≤ fld s Csr.FABC_CFG 3 0)
    (hroute : bit (routeEntry s m.dst) 31 = false) : routeFate s m 0 false = .drop 0x02 := by
  simp [routeFate, hform, hself, hroute, Nat.not_lt.2 hhops]

/-- R368: of one eligible link, that one is chosen. -/
theorem chooseLink_singleton (s : State) (m : FabMsg) (c l : Nat) : chooseLink s m c [l] = some l := by
  unfold chooseLink
  split
  · rw [List.length_singleton, Nat.mod_one]
    rfl
  · rfl

theorem outClass_zero (s : State) (l : Nat) : outClass s 0 l = if dateline s l then 1 else 0 := by simp [outClass]

theorem routeFate_via (h : RoutesBy s m l) : routeFate s m 0 false = .via l (if dateline s l then 1 else 0) := by
  obtain ⟨hform, _, hself, hhops, hroute, hone, hup, _⟩ := h
  have heligible : eligible s (routeEntry s m.dst) 0 = [l] := by simp [eligible, hone, hup]
  simp [routeFate, hform, hself, hroute, Nat.not_lt.2 hhops, heligible, chooseLink_singleton, outClass_zero]

/-- R376: the next slot of a source-routed message names a link that is UP. -/
theorem srFate_via {i k : Nat} (hform : formatBad m = false) (hi : i < 9) (hslot : slotAt m.route i % 32 = k) (hk : k < 24)
    (hup : linkUp s k = true) : srFate s m i 0 = .via k (if dateline s k then 1 else 0) := by
  have hnot : ¬(formatBad m = true ∨ 9 ≤ i) := by simp [hform, hi]
  rw [srFate, if_neg hnot, hslot]
  simp [show k ≠ 31 by omega, show ¬ 24 ≤ k by omega, hup, outClass_zero]

/-! ### What a message leaves behind (R366, R368) -/

/-- R366: a message of this module has left its unit, and is counted. -/
def taken (s : State) (m : FabMsg) : State := bumpStat { s with outbox := s.outbox.erase m } Csr.FABC_TX_MSGS 1 (some 38)

theorem taken_counts (h : rd s Csr.FABC_TX_MSGS + 1 < 2 ^ 64) : (taken s m).outbox = s.outbox.erase m
    ∧ rd (taken s m) Csr.FABC_TX_MSGS = rd s Csr.FABC_TX_MSGS + 1 ∧ SameBut [.outbox, .csr] s (taken s m)
    ∧ OtherRegs [Csr.FABC_TX_MSGS] s (taken s m) := by
  obtain ⟨hcount, hregs, hsame⟩ := bumpStat_counts (s := { s with outbox := s.outbox.erase m }) (blk := some 38) h
  exact ⟨hsame .outbox (by decide), hcount, ((same_mk_outbox (by decide)).2 (.refl _ s)).trans (hsame.mono (by decide)), hregs⟩

/-- R368: a message of this module meets its fate. -/
theorem execMessageRoute_own (hup : fabcUp s = true) (hm : m ∈ s.outbox) (hsr : m.sr = false) : execMessageRoute none m s
    = .next (startOwn s { s with outbox := s.outbox.erase m } m (routeFate s m 0 false)) := by
  simp [execMessageRoute, routeOwn, ownFate, hup, hm, hsr]

theorem startOwn_here : startOwn s { s with outbox := s.outbox.erase m } m .here
    = bumpStat (taken s m) Csr.FABC_RX_MSGS 1 (some 38) := rfl

theorem startOwn_drop (r : Nat) : startOwn s { s with outbox := s.outbox.erase m } m (.drop r)
    = dropMsg (taken s m) r m.dst m.src m.mtype := rfl

theorem startOwn_via {c : Nat} (hcredit : 0 < linkCredit (linkOf s l) (2 * vcOf m.mtype + c))
    (htag : smGet none s.fabc.txns m.tag = none) :
    startOwn s { s with outbox := s.outbox.erase m } m (.via l c) = leave (taken s m) m l c := by
  have hsame : (taken s m).fabc = s.fabc :=
    (bumpStat_same (ps := [.csr]) (s := { s with outbox := s.outbox.erase m }) (.refl _) (.refl _ _)) .fabc (by decide)
  have hnote : noteLink (leave (taken s m) m l c) m l = leave (taken s m) m l c := by
    rw [noteLink, show (leave (taken s m) m l c).fabc = (taken s m).fabc from rfl, hsame, htag]
  simp only [startOwn, mayStart, decide_eq_true hcredit, if_true]
  exact hnote

/-- R368: a message that came over a link meets its fate. -/
theorem execMessageRoute_arrived {l : Fin 24} (hup : fabcUp s = true) (hlink : linkUp s l = true) (hsr : m.sr = false)
    (hlocal : ¬(m.mtype = 6 ∧ m.sub ≤ 2 ∧ m.hops = 0)) : execMessageRoute (some l) m s
      = .next (routeIn s l m m (routeFate s m (arrivedClass s l m) true)) := by
  simp [execMessageRoute, hup, hlink, hsr, hlocal]

theorem routeIn_here {c : Nat} {v : Link} (h : Frees s l m c v) :
    routeIn s l m m .here = bumpStat (setLink s l v) Csr.FABC_RX_MSGS 1 (some 38) := by
  rw [routeIn, freeArrived_of_frees h]

/-- R376: a source-routed message goes on with the link it came over recorded. -/
theorem routeIn_via {c k d : Nat} {v : Link} {o : FabMsg} (h : Frees s l m c v)
    (hcredit : 0 < linkCredit (linkOf s k) (2 * vcOf o.mtype + d)) :
    routeIn s l m o (.via k d) = leave (setLink s l v) o k d := by
  simp only [routeIn, mayStart, decide_eq_true hcredit, if_true, freeArrived_of_frees h]

theorem execSrForward_eq {l : Fin 24} (hup : fabcUp s = true) (hlink : linkUp s l = true) (hsr : m.sr = true) (hhops : 0 < m.hops) :
    execSrForward l m s = .next (routeIn s l m { m with rroute := setSlotAt m.rroute (m.hops - 1) l.val }
      (srFate s m m.hops (arrivedClass s l m))) := by
  simp [execSrForward, hup, hlink, hsr, show m.hops ≠ 0 by omega]

end Sys2Proof.Machine

open Sys2Proof Sys2Proof.Machine

/-- Settles O46: the hypotheses of each clause decide the message's fate, and with it the one state it leaves. -/
theorem fabricRouting : Obligations.FabricRouting := by
  intro s m tx rx hup
  refine ⟨fun hm hform hsr hself htx hrx => ?_, fun l hm hroutes htag htx => ?_,
    fun hm hform hsr hself hhops hroute htx => ?_, fun l c v hlink hform hsr hlocal hself hsrc hfrees hrx => ?_, ?_⟩
  · obtain ⟨hout, hsent, hparts, hregs⟩ := taken_counts (m := m) htx
    have hkept : rd (taken s m) rx = rd s rx := hregs rx (by decide)
    obtain ⟨hcount, hregs', hsame⟩ := bumpStat_counts (s := taken s m) (blk := some 38) (hkept ▸ hrx)
    refine ⟨_, (execMessageRoute_own hup hm hsr).trans (by rw [routeFate_here hform hself, startOwn_here]),
      (hsame .outbox (by decide)).trans hout, (hregs' tx (by decide)).trans hsent, hcount.trans (by rw [hkept]),
      hparts.trans (hsame.mono (by decide)), hregs.trans hregs'⟩
  · obtain ⟨hout, hsent, hparts, hregs⟩ := taken_counts (m := m) htx
    have hlinks (d : Nat) : linkOf (taken s m) d = linkOf s d := linkOf_of_same hparts (by decide) d
    obtain ⟨hleaves, hothers, hsame⟩ := leave_leaves (taken s m) m l (if dateline s l then 1 else 0)
    obtain ⟨_, hsr, _, _, _, _, _, hcredit⟩ := id hroutes
    refine ⟨_, (execMessageRoute_own hup hm hsr).trans (by rw [routeFate_via hroutes, startOwn_via hcredit htag]), ?_,
      fun d hd => (hothers d hd).trans (hlinks d), hout, hsent, (hparts.mono (by decide)).trans (hsame.mono (by decide)), hregs⟩
    rwa [Leaves, hlinks] at hleaves
  · obtain ⟨hout, hsent, hparts, hregs⟩ := taken_counts (m := m) htx
    exact ⟨_, (execMessageRoute_own hup hm hsr).trans (by rw [routeFate_unrouted hform hself hhops hroute, startOwn_drop]),
      taken s m, hout, hsent, hparts, hregs, rfl⟩
  · obtain ⟨hcount, hregs, hsame⟩ := bumpStat_counts (s := setLink s l v) (a := rx) (blk := some 38) hrx
    have hlinks (d : Nat) := linkOf_of_same hsame (by decide) d
    refine ⟨_, (execMessageRoute_arrived hup hlink hsr hlocal).trans
      (by rw [routeFate_arrived_here hform hself hsrc, routeIn_here hfrees]), (hlinks l).trans (linkOf_setLink_self ..),
      fun d hd => (hlinks d).trans (otherLinks_setLink s l v d hd), hcount, ?_, hregs⟩
    exact ((setLink_only s l v).mono (by decide)).trans (hsame.mono (by decide))
  · intro l c v k o hlink hsr hform hhops hlast hslot hk hkup hkl hfrees hc hcredit
    obtain ⟨hleaves, hothers, hsame⟩ := leave_leaves (setLink s l v) o k (if dateline s k then 1 else 0)
    have hclass : arrivedClass s l m = 0 := (arrivedClass_of_frees hfrees).trans hc
    have hfate := srFate_via hform hlast hslot hk hkup
    refine ⟨_, (execSrForward_eq hup hlink hsr hhops).trans
      (by rw [hclass, hfate]; exact congrArg _ (routeIn_via (o := o) hfrees hcredit)),
      (hothers l hkl.symm).trans (linkOf_setLink_self ..), ?_,
      fun d hdl hdk => (hothers d hdk).trans (otherLinks_setLink s l v d hdl), (setLink_only s l v).trans hsame⟩
    rwa [Leaves, otherLinks_setLink s l v k hkl] at hleaves

end

section
/-! PROOFS. A link that stops (R348, R370, R419, R427): what it leaves where nothing is half-way across it. -/

set_option deprecated.oldSectionVars true -- one thread elaborates these proofs: the check's memory is tight

namespace Sys2Proof.Machine

variable {s t : State} {l a cause : Nat}

theorem linkOpen_iff {v : Link} : linkOpen v = true ↔ v.st = .hello ∨ v.st = .up := by simp [linkOpen]

theorem CanStop.powered (h : CanStop s l) : linkPowered s l = true := h.1

/-- R370: where nothing is half-way across a link, nothing is dropped. -/
theorem dropPartial_of_nil {v : Link} (hpart : v.part = []) (htxq : v.txq = []) : dropPartial s l v = s := by
  have hsent : partSent v = 0 := by simp [partSent, htxq]
  rw [dropPartial, hpart, hsent]
  exact ite_self s

/-- R348, R419: the link is DOWN, and counted in its register. -/
def linkDowned (s : State) (l a : Nat) : State := wr (setLink s l (linkIdle (linkOf s l) .down)) a (rd s a + 1)

theorem linkDowned_sets (hroom : rd s a + 1 < 2 ^ 32 - 1) : linkOf (linkDowned s l a) l = linkIdle (linkOf s l) .down
    ∧ OtherLinks l s (linkDowned s l a) ∧ rd (linkDowned s l a) a = rd s a + 1 ∧ OtherRegs [a] s (linkDowned s l a)
    ∧ SameBut [.links, .csr] s (linkDowned s l a) := by
  obtain ⟨hcount, hregs, hsame⟩ := wr_sets (s := setLink s l (linkIdle (linkOf s l) .down)) (a := a) (n := rd s a + 1) (by omega)
  have hlinks := linkOf_of_same hsame (by decide)
  exact ⟨(hlinks l).trans (linkOf_setLink_self ..), fun d hd => (hlinks d).trans (otherLinks_setLink s l _ d hd), hcount, hregs,
    ((setLink_only s l _).mono (by decide)).trans (hsame.mono (by decide))⟩

/-- R348: no proof is asked for any more for link l. -/
def proofDropped (s : State) (l : Nat) : State := { s with fabc := { s.fabc with proofs := s.fabc.proofs.filter (· ≠ l) } }

theorem fabc_proofDropped (s : State) (l : Nat) :
    (proofDropped s l).fabc = { s.fabc with proofs := s.fabc.proofs.filter (· ≠ l) } := rfl

theorem rd_proofDropped (s : State) (l a : Nat) : rd (proofDropped s l) a = rd s a := rfl

/-- R348: a Sargil link that stops, before its event: ADMIT clears. -/
def portStopped (s : State) (l : Nat) : State :=
  proofDropped (setFlag (linkDowned s l (Csr.FAB_LINK_DOWN (l / 2) (l % 2))) (Csr.FAB_LINK_CTRL (l / 2) (l % 2)) 1 false) l

/-- R419, R427: the Raline link that stops, before its event: its session is suspended. -/
def hostStopped (s : State) : State :=
  if (linkOf s 24).st = .up then hostSuspend (linkDowned s 24 Csr.HLK_LINK_DOWN) else linkDowned s 24 Csr.HLK_LINK_DOWN

theorem linkStop_port (h : CanStop s l) (hl : l < 24) : linkStop s l .down cause
    = raise (portStopped s l) (82 + l / 2) 0x02 (cause + l * 256) (rd (portStopped s l) (Csr.FAB_LINK_PEER (l / 2) (l % 2))) := by
  obtain ⟨_, hpart, htxq, hroom⟩ := h
  have hhost : isHost l = false := by simp [isHost, Nat.ne_of_lt hl]
  rw [linkReg, if_neg (Nat.ne_of_lt hl), ← rd_setLink s l (linkIdle (linkOf s l) .down)] at hroom
  simp only [linkStop, dropPartial_of_nil hpart htxq, ite_self, hhost, Bool.false_eq_true, if_false, linkSrc,
    bumpOcc_of_lt hroom, rd_setLink, Nat.shiftLeft_eq]
  rfl

theorem linkStop_host (h : CanStop s 24) : linkStop s 24 .down cause
    = raise (hostStopped s) 80 0x02 cause (rd (hostStopped s) Csr.HLK_JSEQ_ACK) := by
  obtain ⟨_, hpart, htxq, hroom⟩ := h
  rw [linkReg, if_pos rfl, ← rd_setLink s 24 (linkIdle (linkOf s 24) .down)] at hroom
  simp only [linkStop, dropPartial_of_nil hpart htxq, ite_self, show isHost 24 = true from rfl, if_true,
    bumpOcc_of_lt hroom, rd_setLink, hostStopped, linkDowned]

theorem portStopped_stops (hroom : rd s (Csr.FAB_LINK_DOWN (l / 2) (l % 2)) + 1 < 2 ^ 32 - 1) :
    linkOf (portStopped s l) l = linkIdle (linkOf s l) .down ∧ OtherLinks l s (portStopped s l)
    ∧ rd (portStopped s l) (Csr.FAB_LINK_DOWN (l / 2) (l % 2)) = rd s (Csr.FAB_LINK_DOWN (l / 2) (l % 2)) + 1
    ∧ flag (portStopped s l) (Csr.FAB_LINK_CTRL (l / 2) (l % 2)) 1 = false
    ∧ OtherRegs [Csr.FAB_LINK_DOWN (l / 2) (l % 2), Csr.FAB_LINK_CTRL (l / 2) (l % 2)] s (portStopped s l)
    ∧ SameBut [.links, .fabc, .csr] s (portStopped s l) := by
  have hapart : Csr.FAB_LINK_DOWN (l / 2) (l % 2) ≠ Csr.FAB_LINK_CTRL (l / 2) (l % 2) := by
    simp only [Csr.FAB_LINK_DOWN, Csr.FAB_LINK_CTRL]; omega
  obtain ⟨hlink, hothers, hcount, hregs, hparts⟩ := linkDowned_sets (l := l) hroom
  have hsame : SameBut [.csr, .fabc] (linkDowned s l (Csr.FAB_LINK_DOWN (l / 2) (l % 2))) (portStopped s l) :=
    (same_mk_fabc (by decide)).2 (setFlag_same (by decide) (.refl _ _))
  have hlinks := linkOf_of_same hsame (by decide)
  refine ⟨(hlinks l).trans hlink, fun d hd => (hlinks d).trans (hothers d hd), ?_, ?_, fun a ha => ?_,
    (hparts.mono (by decide)).trans (hsame.mono (by decide))⟩
  · rw [portStopped, rd_proofDropped, rd_setFlag_ne hapart, hcount]
  · rw [portStopped, flag, rd_proofDropped, ← flag, flag_setFlag (by decide), if_pos rfl]
  · rw [portStopped, rd_proofDropped]
    exact hregs.trans (setFlag_otherRegs _ _ 1 false) a ha

theorem portStopped_fabc (s : State) (l : Nat) :
    (portStopped s l).fabc = { s.fabc with proofs := s.fabc.proofs.filter (· ≠ l) } := by
  rw [portStopped, fabc_proofDropped, setFlag_fabc, linkDowned, wr_fabc, setLink_fabc]

/-- R427: a session that was attached is suspended. -/
theorem hostSuspend_suspends (t : State) : fld (hostSuspend t) Csr.HLK_SESSION 1 0
      = (if fld t Csr.HLK_SESSION 1 0 = 1 then 2 else fld t Csr.HLK_SESSION 1 0)
    ∧ OtherRegs [Csr.HLK_SESSION] t (hostSuspend t) := by
  unfold hostSuspend
  split
  · refine ⟨?_, wr_otherRegs t _ _⟩
    rw [fld, rd_setFld_self (by decide) (by decide), bits_setBits_same (by decide)]
    rfl
  · exact ⟨rfl, fun _ _ => rfl⟩

theorem hostStopped_stops (hroom : rd s Csr.HLK_LINK_DOWN + 1 < 2 ^ 32 - 1) :
    linkOf (hostStopped s) 24 = linkIdle (linkOf s 24) .down ∧ OtherLinks 24 s (hostStopped s)
    ∧ rd (hostStopped s) Csr.HLK_LINK_DOWN = rd s Csr.HLK_LINK_DOWN + 1
    ∧ fld (hostStopped s) Csr.HLK_SESSION 1 0
      = (if (linkOf s 24).st = .up ∧ fld s Csr.HLK_SESSION 1 0 = 1 then 2 else fld s Csr.HLK_SESSION 1 0)
    ∧ OtherRegs [Csr.HLK_LINK_DOWN, Csr.HLK_SESSION] s (hostStopped s) ∧ SameBut [.links, .csr] s (hostStopped s) := by
  obtain ⟨hlink, hothers, hcount, hregs, hparts⟩ := linkDowned_sets (l := 24) hroom
  have hsession : fld (linkDowned s 24 Csr.HLK_LINK_DOWN) Csr.HLK_SESSION 1 0 = fld s Csr.HLK_SESSION 1 0 :=
    congrArg (bits · 1 0) (hregs _ (by decide))
  unfold hostStopped
  by_cases hup : (linkOf s 24).st = .up
  · obtain ⟨hstate, hregs'⟩ := hostSuspend_suspends (linkDowned s 24 Csr.HLK_LINK_DOWN)
    have hsame : SameBut [.csr] _ (hostSuspend (linkDowned s 24 Csr.HLK_LINK_DOWN)) := hostSuspend_same (.refl _) (.refl _ _)
    have hlinks := linkOf_of_same hsame (by decide)
    rw [if_pos hup]
    exact ⟨(hlinks 24).trans hlink, fun d hd => (hlinks d).trans (hothers d hd), (hregs' _ (by decide)).trans hcount,
      by rw [hstate, hsession]; simp only [hup, true_and], hregs.trans hregs', hparts.trans (hsame.mono (by decide))⟩
  · rw [if_neg hup]
    exact ⟨hlink, hothers, hcount, by rw [hsession, if_neg (fun h => hup h.1)], hregs.mono (by simp), hparts⟩

/-- R348, R370, R419, R427: a link that can stop goes DOWN with its cause. -/
theorem linkStop_stops (h : CanStop s l) (hl : l < 25) : LinkStops s l cause (linkStop s l .down cause) := by
  obtain ⟨_, _, _, hroom⟩ := id h
  rcases Nat.lt_or_ge l 24 with hport | hhost
  · rw [linkStop_port h hport]
    rw [linkReg, if_neg (Nat.ne_of_lt hport)] at hroom
    obtain ⟨hlink, hothers, hcount, hadmit, hregs, hparts⟩ := portStopped_stops hroom
    have hpeer : rd (portStopped s l) (Csr.FAB_LINK_PEER (l / 2) (l % 2)) = rd s (Csr.FAB_LINK_PEER (l / 2) (l % 2)) :=
      hregs _ (by simp [Csr.FAB_LINK_PEER, Csr.FAB_LINK_DOWN, Csr.FAB_LINK_CTRL])
    simp only [LinkStops, linkReg, if_neg (Nat.ne_of_lt hport)]
    exact ⟨portStopped s l, hlink, hothers, hcount, fun _ => ⟨hadmit, portStopped_fabc s l, hregs, hparts, by rw [hpeer]⟩,
      fun h24 => absurd h24 (Nat.ne_of_lt hport)⟩
  · obtain rfl : l = 24 := by omega
    rw [linkStop_host h]
    rw [linkReg, if_pos rfl] at hroom
    obtain ⟨hlink, hothers, hcount, hsession, hregs, hparts⟩ := hostStopped_stops hroom
    simp only [LinkStops, linkReg, if_true]
    exact ⟨hostStopped s, hlink, hothers, hcount, fun h24 => absurd h24 (by decide),
      fun _ => ⟨hsession, hregs, hparts, by rw [hregs Csr.HLK_JSEQ_ACK (by decide)]⟩⟩

end Sys2Proof.Machine

end

section
/-! PROOFS. A write of a link's control register (R348, R419): FAB_LINK_CTRL of a Sargil link, HLK_CTRL of the Raline link. -/

set_option deprecated.oldSectionVars true -- one thread elaborates these proofs: the check's memory is tight

namespace Sys2Proof.Machine

variable {s t : State} {i : Initiator} {l a v : Nat}

/-! ### The register as an access meets it (R33, R388, R440) -/

/-- RETRAIN, then ADMIT or AUTO_RETRAIN, then ENABLE; the last two reset to `reset`. -/
def ctrlFields (reset : Nat) : List Field := [fd 2 2 .wo 0, fd 1 1 .rw reset, fd 0 0 .rw reset]

def linkCtrlAt (l : Nat) : RegAt :=
  ⟨⟨.FAB_LINK_CTRL, 0x4000100, [(0x100000, 12), (0x80, 2)], false, ctrlFields 0, 0⟩, [l / 2, l % 2],
    Csr.FAB_LINK_CTRL (l / 2) (l % 2), false⟩

def hlkCtrlAt : RegAt := ⟨⟨.HLK_CTRL, 0x5000000, [], false, ctrlFields 1, 0⟩, [], Csr.HLK_CTRL, false⟩

theorem linkCtrl_at : ∀ l : Fin 24, regAt (Csr.FAB_LINK_CTRL (l / 2) (l % 2)) = some (linkCtrlAt l) := by decide

theorem blkOf_linkCtrl : ∀ l : Fin 24, blkOf (Csr.FAB_LINK_CTRL (l / 2) (l % 2)) = some (.port (l / 2)) := by decide

theorem hlkCtrl_at : regAt Csr.HLK_CTRL = some hlkCtrlAt := by decide

theorem blkOf_hlkCtrl : blkOf Csr.HLK_CTRL = some .hlk := by decide

theorem ctlWrite_narrow {r : RegAt} (h : Access s i a true) (hr : regAt a = some r) (hw : r.row.wide = false) (x : W32) :
    ctlWrite i a 4 x.toNat s = putReg s i r a x.toNat := by
  obtain ⟨r', hr', hreach⟩ := h
  obtain rfl : r' = r := Option.some.inj (hr'.symm.trans hr)
  rw [ctlWrite_of_reaches hreach, putWord_narrow hreach hw]

/-! ### What a write does to the register -/

theorem bits_bit (v n : Nat) : bits v n n = if bit v n then 1 else 0 := by
  rw [bits, show n + 1 - n = 1 by omega, Nat.shiftRight_eq_div_pow, Nat.pow_one, ← Nat.toNat_testBit, bit]
  cases v.testBit n <;> rfl

/-- R348, R419: ADMIT or AUTO_RETRAIN and ENABLE take their bits. -/
def ctrlWritten (s : State) (a v : Nat) : State := setFlag (setFlag s a 1 (bit v 1)) a 0 (bit v 0)

theorem foldl_ctrlFields (s : State) (i : Initiator) (a w v reset : Nat) :
    (ctrlFields reset).foldl (fun s f => putField s i a w v f) s = ctrlWritten s a v := by
  simp only [ctrlFields, fd, List.foldl_cons, List.foldl_nil, putField, Legal.ok, if_true, bits_bit, ctrlWritten, setFlag]

theorem ctrlWritten_sets (s : State) (a v : Nat) : flag (ctrlWritten s a v) a 0 = bit v 0 ∧ flag (ctrlWritten s a v) a 1 = bit v 1
    ∧ OtherRegs [a] s (ctrlWritten s a v) ∧ SameBut [.csr] s (ctrlWritten s a v) := by
  refine ⟨?_, ?_, ((setFlag_otherRegs s a 1 _).trans (setFlag_otherRegs _ a 0 _)).mono (by simp),
    setFlag_same (.refl _) (setFlag_same (.refl _) (.refl _ s))⟩
  · rw [ctrlWritten, flag_setFlag (by decide), if_pos rfl]
  · rw [ctrlWritten, flag_setFlag (by decide), if_neg (by decide), flag_setFlag (by decide), if_pos rfl]

theorem linkOf_ctrlWritten (s : State) (a v l : Nat) : linkOf (ctrlWritten s a v) l = linkOf s l := by
  obtain ⟨_, _, _, hsame⟩ := ctrlWritten_sets s a v
  exact linkOf_of_same hsame (by decide) l

/-! ### What the register makes a link do -/

theorem linkEnableEff_trains (hen : linkEnabled s l = true) (hoff : (linkOf s l).st = .off) (hexists : linkExists s l = true) :
    linkEnableEff s l = linkTrain s l := by
  simp [linkEnableEff, hen, hoff, hexists]

theorem linkEnableEff_of_on (hen : linkEnabled s l = true) (hon : (linkOf s l).st ≠ .off) : linkEnableEff s l = s := by
  simp [linkEnableEff, hen, hon]

/-- R348: what ADMIT does beyond its bit, where the link is neither in HELLO nor UP. -/
theorem admit_of_closed (hhello : (linkOf s l).st ≠ .hello) (hup : (linkOf s l).st ≠ .up) (b : Bool) :
    (if b then linkAdmitEff s l else linkRevokeEff s l) = s := by
  simp [linkAdmitEff, linkRevokeEff, hhello, hup]

theorem linkAdmitEff_admits (hhello : (linkOf s l).st = .hello) (hadmit : flag s (Csr.FAB_LINK_CTRL (l / 2) (l % 2)) 1 = true) :
    linkAdmitEff s l = linkUpEvent (setLink s l { linkOf s l with st := .up }) l := by
  simp [linkAdmitEff, hhello, hadmit]

theorem retrain_of_up (h : (linkOf s l).st ≠ .down) (b : Bool) : whenB b (fun s => linkRetrainEff s l) s = s := by
  simp [whenB, linkRetrainEff, h]

theorem linkTrain_st (s : State) (l : Nat) : (linkOf (linkTrain s l) l).st = .training := by
  rw [linkTrain, linkOf_setLink_self]
  rfl

/-- R348: a link's record written once its control register was. -/
theorem setLink_ctrlWritten (s : State) (a x l : Nat) (v : Link) : linkOf (setLink (ctrlWritten s a x) l v) l = v
    ∧ OtherLinks l s (setLink (ctrlWritten s a x) l v) ∧ flag (setLink (ctrlWritten s a x) l v) a 0 = bit x 0
    ∧ flag (setLink (ctrlWritten s a x) l v) a 1 = bit x 1 ∧ OtherRegs [a] s (setLink (ctrlWritten s a x) l v)
    ∧ SameBut [.links, .csr] s (setLink (ctrlWritten s a x) l v) := by
  obtain ⟨henable, hadmit, hregs, hsame⟩ := ctrlWritten_sets s a x
  refine ⟨linkOf_setLink_self .., fun d hd => ?_, henable, hadmit, fun b hb => (rd_setLink _ _ _ b).trans (hregs b hb),
    setLink_same (by decide) (hsame.mono (by decide))⟩
  rw [linkOf_setLink, if_neg hd, linkOf_ctrlWritten]

theorem linkTrain_ctrlWritten (s : State) (a x l : Nat) :
    linkTrain (ctrlWritten s a x) l = setLink (ctrlWritten s a x) l (linkIdle (linkOf s l) .training) := by
  rw [linkTrain, linkOf_ctrlWritten]

/-! ### Words written (R348, R419, R471) -/

theorem linkExists_ctrlWritten (s : State) (l v : Nat) :
    linkExists (ctrlWritten s (Csr.FAB_LINK_CTRL (l / 2) (l % 2)) v) l = linkExists s l := by
  obtain ⟨_, _, hregs, _⟩ := ctrlWritten_sets s (Csr.FAB_LINK_CTRL (l / 2) (l % 2)) v
  rw [linkExists, linkSplit, flag, hregs _ (by simp only [Csr.FAB_PORT_CFG, Csr.FAB_LINK_CTRL, List.mem_singleton]; omega)]
  rfl

theorem linkEnabled_port (hl : l < 24) (s : State) : linkEnabled s l = flag s (Csr.FAB_LINK_CTRL (l / 2) (l % 2)) 0 := by
  simp [linkEnabled, isHost, Nat.ne_of_lt hl]

/-- R471: a written word as it acts: in ISOLATED, ENABLE keeps its value. -/
def ctrlWord (s : State) (l v : Nat) : Nat :=
  if isolated s then setBits v 0 0 (fld s (Csr.FAB_LINK_CTRL (l / 2) (l % 2)) 0 0) else v

/-- R348: what a write of FAB_LINK_CTRL does, with the word as it acts. -/
def portCtrl (s : State) (l v : Nat) : State :=
  let t := linkEnableEff (ctrlWritten s (Csr.FAB_LINK_CTRL (l / 2) (l % 2)) v) l
  whenB (bit v 2) (fun s => linkRetrainEff s l) (if bit v 1 then linkAdmitEff t l else linkRevokeEff t l)

theorem ctlWrite_linkCtrl {l : Fin 24} (h : Access s i (Csr.FAB_LINK_CTRL (l / 2) (l % 2)) true) (x : W32) :
    ctlWrite i (Csr.FAB_LINK_CTRL (l / 2) (l % 2)) 4 x.toNat s = portCtrl s l (ctrlWord s l x.toNat) := by
  have hlink : 2 * (l.val / 2) + l.val % 2 = l := by omega
  rw [ctlWrite_narrow h (linkCtrl_at l) rfl, putReg, show (linkCtrlAt l).base = Csr.FAB_LINK_CTRL (l / 2) (l % 2) from rfl,
    blkOf_linkCtrl]
  show linkCtrlEff s i (linkCtrlAt l) _ x.toNat (2 * (l.val / 2) + l.val % 2) = _
  rw [hlink]
  simp only [linkCtrlEff, putFields, linkCtrlAt, foldl_ctrlFields, portCtrl, ctrlWord]
  rfl

theorem ctlWrite_hlkCtrl (h : Access s i Csr.HLK_CTRL true) (x : W32) : ctlWrite i Csr.HLK_CTRL 4 x.toNat s
    = whenB (bit x.toNat 2) (fun s => linkRetrainEff s 24) (linkEnableEff (ctrlWritten s Csr.HLK_CTRL x.toNat) 24) := by
  rw [ctlWrite_narrow h hlkCtrl_at rfl, putReg, show hlkCtrlAt.base = Csr.HLK_CTRL from rfl, blkOf_hlkCtrl]
  simp only [putHlk, putFields, hlkCtrlAt, foldl_ctrlFields]

/-- R348: ENABLE takes a link that is OFF to training. -/
theorem portCtrl_enables {l : Fin 24} (hoff : (linkOf s l).st = .off) (hexists : linkExists s l = true) (hen : bit v 0 = true) :
    portCtrl s l v = setLink (ctrlWritten s (Csr.FAB_LINK_CTRL (l / 2) (l % 2)) v) l (linkIdle (linkOf s l) .training) := by
  obtain ⟨henable, _⟩ := ctrlWritten_sets s (Csr.FAB_LINK_CTRL (l / 2) (l % 2)) v
  have hst := linkTrain_st (ctrlWritten s (Csr.FAB_LINK_CTRL (l / 2) (l % 2)) v) l
  rw [portCtrl, linkEnableEff_trains (by rw [linkEnabled_port l.isLt, henable, hen]) (by rw [linkOf_ctrlWritten, hoff])
    (by rw [linkExists_ctrlWritten, hexists])]
  rw [admit_of_closed (by simp [hst]) (by simp [hst]), retrain_of_up (by simp [hst]), linkTrain_ctrlWritten]

/-- R348: ADMIT takes a link in HELLO to UP. -/
theorem portCtrl_admits {l : Fin 24} (hhello : (linkOf s l).st = .hello) (hen : bit v 0 = true) (hadmit : bit v 1 = true) :
    portCtrl s l v = linkUpEvent (setLink (ctrlWritten s (Csr.FAB_LINK_CTRL (l / 2) (l % 2)) v) l { linkOf s l with st := .up }) l := by
  obtain ⟨henable, hadmitted, _⟩ := ctrlWritten_sets s (Csr.FAB_LINK_CTRL (l / 2) (l % 2)) v
  have hlink := linkOf_ctrlWritten s (Csr.FAB_LINK_CTRL (l / 2) (l % 2)) v l
  rw [portCtrl, linkEnableEff_of_on (by rw [linkEnabled_port l.isLt, henable, hen]) (by simp [hlink, hhello]), hadmit]
  simp only [if_true]
  rw [linkAdmitEff_admits (by rw [hlink, hhello]) (by rw [hadmitted, hadmit]), hlink, retrain_of_up]
  rw [linkUpEvent, linkOf_raise, linkOf_setLink_self]
  exact (by decide : LinkSt.up ≠ .down)

/-- R348: RETRAIN takes a link that is DOWN to training. -/
theorem portCtrl_retrains {l : Fin 24} (hdown : (linkOf s l).st = .down) (hen : bit v 0 = true) (hretrain : bit v 2 = true) :
    portCtrl s l v = setLink (ctrlWritten s (Csr.FAB_LINK_CTRL (l / 2) (l % 2)) v) l (linkIdle (linkOf s l) .training) := by
  obtain ⟨henable, _⟩ := ctrlWritten_sets s (Csr.FAB_LINK_CTRL (l / 2) (l % 2)) v
  have hlink := linkOf_ctrlWritten s (Csr.FAB_LINK_CTRL (l / 2) (l % 2)) v l
  rw [portCtrl, linkEnableEff_of_on (by rw [linkEnabled_port l.isLt, henable, hen]) (by simp [hlink, hdown])]
  rw [admit_of_closed (by simp [hlink, hdown]) (by simp [hlink, hdown]), hretrain, whenB, if_pos rfl, linkRetrainEff, hlink,
    if_pos hdown, linkTrain_ctrlWritten]

/-- R419: RETRAIN takes the Raline link to training where it is DOWN. -/
theorem hlkCtrl_retrains (hdown : (linkOf s 24).st = .down) (hen : bit v 0 = true) (hretrain : bit v 2 = true) :
    whenB (bit v 2) (fun s => linkRetrainEff s 24) (linkEnableEff (ctrlWritten s Csr.HLK_CTRL v) 24)
      = setLink (ctrlWritten s Csr.HLK_CTRL v) 24 (linkIdle (linkOf s 24) .training) := by
  obtain ⟨henable, _⟩ := ctrlWritten_sets s Csr.HLK_CTRL v
  have hlink := linkOf_ctrlWritten s Csr.HLK_CTRL v 24
  rw [linkEnableEff_of_on (by rw [linkEnabled, show isHost 24 = true from rfl, if_pos rfl, henable, hen]) (by simp [hlink, hdown]),
    hretrain, whenB, if_pos rfl, linkRetrainEff, hlink,
    if_pos hdown, linkTrain_ctrlWritten]

/-! ### RETRAIN written with the other fields as they are -/

theorem bit_retrainWord (v : Nat) : bit (v % 4 + 4) 0 = bit v 0 ∧ bit (v % 4 + 4) 2 = true := by
  have hlow : v % 2 ^ 2 < 2 ^ 2 := Nat.mod_lt _ (by decide)
  rw [show v % 4 + 4 = 2 ^ 2 * 1 + v % 2 ^ 2 by omega, bit, bit, bit, Nat.testBit_two_pow_mul_add _ hlow,
    Nat.testBit_two_pow_mul_add _ hlow, Nat.testBit_mod_two_pow]
  simp

theorem bit_ctrlWord_ne {n : Nat} (hn : n ≠ 0) (s : State) (l v : Nat) : bit (ctrlWord s l v) n = bit v n := by
  unfold ctrlWord
  split
  · rw [bit, testBit_setBits (Nat.le_refl 0), if_neg (by omega)]
    rfl
  · rfl

/-- R471: a word written with ENABLE as it is acts as it stands in ISOLATED too. -/
theorem bit_ctrlWord_enable (h : bit v 0 = flag s (Csr.FAB_LINK_CTRL (l / 2) (l % 2)) 0) : bit (ctrlWord s l v) 0 = bit v 0 := by
  unfold ctrlWord
  split
  · rw [h, bit, testBit_setBits (Nat.le_refl 0), if_pos (by omega), fld, testBit_bits]
    rfl
  · rfl

end Sys2Proof.Machine

end

section
/-! PROOFS. Training, INIT flits and hellos of a link (R347, R348, R351, R372, R373, R419). -/

set_option deprecated.oldSectionVars true -- one thread elaborates these proofs: the check's memory is tight

namespace Sys2Proof.Machine

variable {s t : State} {l : Nat} {v w : Link} {f : Flit}

/-! ### INIT flits (R351) -/

/-- The payload of an INIT flit tells of the link's record its width and SEEN alone. -/
theorem initPayload_setLink (hwidth : w.width = v.width) (hseen : w.seen = v.seen) :
    initPayload (setLink s l w) l = initPayload (setLink s l v) l := by
  simp only [initPayload, linkOf_setLink_self, hwidth, hseen]
  rfl

/-- R351: a link with an INIT flit just sent, which tells of the record as it is. -/
def initSent (s : State) (l : Nat) (v : Link) : State :=
  setLink s l { v with lastTx := some (sentFlit v { ftype := 4, payload := initPayload (setLink s l v) l }) }

theorem emitInit_setLink (s : State) (l : Nat) (v : Link) : emitInit (setLink s l v) l = initSent s l v := by
  rw [emitInit, emit_setLink, initSent]

theorem initSent_sets (s : State) (l : Nat) (v : Link) : linkOf (initSent s l v) l
      = { v with lastTx := some (sentFlit v { ftype := 4, payload := initPayload (initSent s l v) l }) }
    ∧ OtherLinks l s (initSent s l v) ∧ SameBut [.links] s (initSent s l v) := by
  have hpayload : initPayload (initSent s l v) l = initPayload (setLink s l v) l := initPayload_setLink rfl rfl
  refine ⟨?_, otherLinks_setLink _ _ _, setLink_only _ _ _⟩
  rw [hpayload, initSent, linkOf_setLink_self]

/-- R351: the credits that an INIT flit grants. -/
def initCredits (f : Flit) : SMap Nat :=
  (countUp 0 8).foldl (fun m k => smSet 0 m k (fieldAt f.payload (4 + 2 * k) 2)) []

theorem smGet_foldl_smSet (g : Nat → Nat) (j n a : Nat) (m : SMap Nat) :
    smGet 0 ((countUp a n).foldl (fun m k => smSet 0 m k (g k)) m) j = if a ≤ j ∧ j < a + n then g j else smGet 0 m j := by
  induction n generalizing a m with
  | zero => rw [countUp, List.foldl_nil, if_neg (by omega)]
  | succ n ih =>
    rw [countUp, List.foldl_cons, ih, smGet_smSet]
    by_cases h : j = a
    · subst h; rw [if_neg (by omega), if_pos rfl, if_pos (by omega)]
    · rw [if_neg h]; exact if_congr (by omega) rfl rfl

theorem smGet_initCredits (f : Flit) (j : Nat) :
    smGet 0 (initCredits f) j = if j < 8 then fieldAt f.payload (4 + 2 * j) 2 else 0 := by
  rw [initCredits, smGet_foldl_smSet]
  exact if_congr (by omega) rfl rfl

/-- R351: an INIT flit was received: its credits are taken, and an INIT flit with SEEN = 1 is sent. -/
def initTaken (s : State) (l : Nat) (f : Flit) : State := initSent s l { linkOf s l with seen := true, crInit := initCredits f }

theorem initFlit_takes (hst : (linkOf s l).st = .init) : initFlit s l f
    = if bit (fieldAt f.payload 3 1) 0 then linkReady (initTaken s l f) l else initTaken s l f := by
  rw [initFlit]
  simp only []
  rw [if_neg (not_not.2 hst), emitInit_setLink]
  rfl

theorem execInitFlitReceive_takes {k : Fin 25} (hpower : linkPowered s k = true) (hst : (linkOf s k).st = .init)
    (hcrc : f.crcOk = true) (hform : flitOk k f = true) (htype : f.ftype = 4) : execInitFlitReceive k f s
      = .next (if bit (fieldAt f.payload 3 1) 0 then linkReady (initTaken s k f) k else initTaken s k f) := by
  rw [← initFlit_takes hst]
  simp [execInitFlitReceive, hpower, hst, hcrc, hform, htype]

theorem initTaken_sets (s : State) (l : Nat) (f : Flit) : linkOf (initTaken s l f) l = { linkOf s l with
        seen := true
        crInit := initCredits f
        lastTx := some (sentFlit (linkOf s l) { ftype := 4, payload := initPayload (initTaken s l f) l }) }
    ∧ OtherLinks l s (initTaken s l f) ∧ SameBut [.links] s (initTaken s l f) :=
  initSent_sets ..

/-! ### Training (R347, R348) -/

/-- R345, R347, R417: the width of a link all of whose lanes are locked. -/
def fullWidth (s : State) (l : Nat) : Nat := if l = 24 ∨ linkSplit s l = true then 4 else 8

theorem execLinkTrained_takes {k : Fin 25} (hpower : linkPowered s k = true) (hst : (linkOf s k).st = .training) :
    execLinkTrained k 0xFF s = .next (initSent s k { linkOf s k with st := .init, width := fullWidth s k }) := by
  have hlow : decide ((0xFF : Byte).toNat &&& 0x0F = 0x0F) = true := by decide
  have hhigh : decide ((0xFF : Byte).toNat &&& 0xF0 = 0xF0) = true := by decide
  have hkept (v : Link) : linkSplit (initSent s k v) k = linkSplit s k := rfl
  simp only [execLinkTrained, hlow, hhigh, ite_self, if_true, Bool.and_self, emitInit_setLink, hkept, fullWidth, isHost]
  by_cases hhost : k.val = 24
  · rw [hhost] at hpower hst ⊢
    simp [hpower, hst]
  · by_cases hsplit : linkSplit s k = true
    · simp [hhost, hsplit, hpower, hst]
    · simp [hhost, hsplit, hpower, hst]

theorem linkTrain_sets (s : State) (l : Nat) : linkOf (linkTrain s l) l = linkIdle (linkOf s l) .training
    ∧ OtherLinks l s (linkTrain s l) ∧ SameBut [.links] s (linkTrain s l) :=
  ⟨linkOf_setLink_self .., otherLinks_setLink _ _ _, setLink_only _ _ _⟩

/-! ### Entering UP and HELLO (R348, R372, R419) -/

/-- R419: the Raline link is UP. -/
def hostUp (s : State) : State := setLink s 24 { linkOf s 24 with st := .up }

theorem hostUp_sets (s : State) : linkOf (hostUp s) 24 = { linkOf s 24 with st := .up } ∧ OtherLinks 24 s (hostUp s)
    ∧ SameBut [.links] s (hostUp s) :=
  ⟨linkOf_setLink_self .., otherLinks_setLink _ _ _, setLink_only _ _ _⟩

theorem linkReady_host (s : State) : linkReady s 24 = raise (hostUp s) 80 0x01 (linkOf s 24).width 0 := rfl

/-- R372: a new nonce is drawn. -/
def nonceDrawn (s : State) : State := { s with freeCtr := s.freeCtr + 1 }

/-- R372: the record of a link that enters HELLO, with nothing sent yet. -/
def helloRecord (s : State) (l : Nat) : Link := { linkOf s l with st := .hello, nonce := Config.freeValue 10 s.freeCtr % 2 ^ 256 }

/-- R372: the HELLO that link l sends. -/
def helloMsg (s : State) (l : Nat) : FabMsg :=
  { mtype := 6, dst := 0, src := devId s, sub := 1, len := (helloBytes s l).length, payload := helloBytes s l }

/-- The HELLO tells of the link's record its width and its nonce alone. -/
theorem helloMsg_setLink (hwidth : w.width = v.width) (hnonce : w.nonce = v.nonce) :
    helloMsg (setLink s l w) l = helloMsg (setLink s l v) l := by
  have hbytes : helloBytes (setLink s l w) l = helloBytes (setLink s l v) l := by
    simp only [helloBytes, linkOf_setLink_self, hwidth, hnonce]
    rfl
  rw [helloMsg, helloMsg, hbytes]
  rfl

/-- R372: the flits of a HELLO. -/
def helloFlits (m : FabMsg) : List Flit := flitsOf 3 0 (ceilDiv (msgBytes m).length 244) true (msgBytes m)

/-- R372: a Sargil link enters HELLO, and its HELLO waits to be sent. -/
def helloEntered (s : State) (l : Nat) : State :=
  setLink (nonceDrawn s) l { helloRecord s l with
    txq := (linkOf s l).txq ++ helloFlits (helloMsg (setLink (nonceDrawn s) l (helloRecord s l)) l) }

theorem linkReady_port (hl : l < 24) (hadmit : flag s (Csr.FAB_LINK_CTRL (l / 2) (l % 2)) 1 = false) :
    linkReady s l = helloEntered s l := by
  have hhost : isHost l = false := by simp [isHost, Nat.ne_of_lt hl]
  have hsent : sendLocal (setLink (nonceDrawn s) l (helloRecord s l)) l 0x01
      (helloBytes (setLink (nonceDrawn s) l (helloRecord s l)) l) = helloEntered s l := linkQueue_setLink ..
  have hkept : flag (helloEntered s l) (Csr.FAB_LINK_CTRL (l / 2) (l % 2)) 1 = false := hadmit
  rw [linkReady, hhost]
  refine (congrArg (linkAdmitEff · l) hsent).trans ?_
  simp [linkAdmitEff, hkept]

theorem helloEntered_sets (s : State) (l : Nat) : (linkOf (helloEntered s l) l).st = .hello
    ∧ (linkOf (helloEntered s l) l).seen = (linkOf s l).seen
    ∧ (linkOf (helloEntered s l) l).nonce = Config.freeValue 10 s.freeCtr % 2 ^ 256
    ∧ (helloEntered s l).freeCtr = s.freeCtr + 1
    ∧ (linkOf (helloEntered s l) l).txq = (linkOf s l).txq ++ helloFlits (helloMsg (helloEntered s l) l)
    ∧ OtherLinks l s (helloEntered s l) ∧ SameBut [.links, .freeCtr] s (helloEntered s l) := by
  have hmsg : helloMsg (helloEntered s l) l = helloMsg (setLink (nonceDrawn s) l (helloRecord s l)) l :=
    helloMsg_setLink rfl rfl
  have hlink : linkOf (helloEntered s l) l = { helloRecord s l with
      txq := (linkOf s l).txq ++ helloFlits (helloMsg (helloEntered s l) l) } := by
    rw [hmsg, helloEntered, linkOf_setLink_self]
  exact ⟨by rw [hlink]; rfl, by rw [hlink]; rfl, by rw [hlink]; rfl, rfl, by rw [hlink], otherLinks_setLink _ _ _,
    setLink_same (by decide) ((same_mk_freeCtr (by decide)).2 (.refl _ s))⟩

/-! ### Hellos received (R373) -/

/-- R373: a HELLO is stored, and its sender noted. -/
def helloNoted (s : State) (l : Nat) (b : Bytes) : State :=
  wr (wr (setLink s l { linkOf s l with gotHello := true, hello := b }) (Csr.FAB_LINK_PEER (l / 2) (l % 2)) (fieldAt b 0 8))
    (Csr.FAB_LINK_PEER_INFO (l / 2) (l % 2)) (2 ^ 31 + bits (fieldAt b 14 1) 4 0 * 2 ^ 16 + bits (fieldAt b 12 2) 11 0)

theorem helloNoted_sets (s : State) (l : Nat) (b : Bytes) :
    linkOf (helloNoted s l b) l = { linkOf s l with gotHello := true, hello := b } ∧ OtherLinks l s (helloNoted s l b)
    ∧ rd (helloNoted s l b) (Csr.FAB_LINK_PEER (l / 2) (l % 2)) = fieldAt b 0 8
    ∧ rd (helloNoted s l b) (Csr.FAB_LINK_PEER_INFO (l / 2) (l % 2))
      = 2 ^ 31 + bits (fieldAt b 14 1) 4 0 * 2 ^ 16 + bits (fieldAt b 12 2) 11 0
    ∧ SameBut [.links, .csr] s (helloNoted s l b)
    ∧ OtherRegs [Csr.FAB_LINK_PEER (l / 2) (l % 2), Csr.FAB_LINK_PEER_INFO (l / 2) (l % 2)] s (helloNoted s l b) := by
  have hphys : fieldAt b 0 8 < 2 ^ 64 := fieldAt_lt b 0 8
  have hlink := bits_lt (fieldAt b 14 1) 4 0
  have hdev := bits_lt (fieldAt b 12 2) 11 0
  have hapart : Csr.FAB_LINK_PEER (l / 2) (l % 2) ≠ Csr.FAB_LINK_PEER_INFO (l / 2) (l % 2) := by
    simp only [Csr.FAB_LINK_PEER, Csr.FAB_LINK_PEER_INFO]; omega
  obtain ⟨hpeer, hregs, hsame⟩ := wr_sets (s := setLink s l { linkOf s l with gotHello := true, hello := b })
    (a := Csr.FAB_LINK_PEER (l / 2) (l % 2)) hphys
  obtain ⟨hinfo, hregs', hsame'⟩ := wr_sets (s := wr (setLink s l { linkOf s l with gotHello := true, hello := b })
    (Csr.FAB_LINK_PEER (l / 2) (l % 2)) (fieldAt b 0 8)) (a := Csr.FAB_LINK_PEER_INFO (l / 2) (l % 2))
    (n := 2 ^ 31 + bits (fieldAt b 14 1) 4 0 * 2 ^ 16 + bits (fieldAt b 12 2) 11 0) (by omega)
  have hlinks := linkOf_of_same (hsame.trans hsame') (by decide)
  exact ⟨(hlinks l).trans (linkOf_setLink_self ..), fun d hd => (hlinks d).trans (otherLinks_setLink s l _ d hd),
    (hregs' _ (by simpa using hapart)).trans hpeer, hinfo,
    ((setLink_only s l _).mono (by decide)).trans ((hsame.trans hsame').mono (by decide)), hregs.trans hregs'⟩

/-- R373: a proof is asked of SEC for link l. -/
def proofAsked (s : State) (l : Nat) : State := { s with fabc := { s.fabc with proofs := (s.fabc.proofs ++ [l]).eraseDups } }

theorem proofAsked_same (s : State) (l : Nat) : SameBut [.fabc] s (proofAsked s l) :=
  (same_mk_fabc (.refl _)).2 (.refl _ s)

theorem rd_proofAsked (s : State) (l a : Nat) : rd (proofAsked s l) a = rd s a := rfl

theorem fabc_proofAsked (s : State) (l : Nat) :
    (proofAsked s l).fabc = { s.fabc with proofs := (s.fabc.proofs ++ [l]).eraseDups } := rfl

theorem execHelloReceive_takes {l : Fin 24} {m : FabMsg} (hpower : linkPowered s l = true) (hst : (linkOf s l).st = .hello)
    (htype : m.mtype = 6) (hsub : m.sub = 1) (hsr : m.sr = false) (hhops : m.hops = 0) (harrived : (linkOf s l).arrived = [])
    (hproof : (linkOf s l).gotProof = false) :
    execHelloReceive l m s = .next (proofAsked (helloNoted s l m.payload) l) := by
  obtain ⟨hlink, _⟩ := helloNoted_sets s l m.payload
  have hrx : helloRx (proofAsked (helloNoted s l m.payload) l) l = proofAsked (helloNoted s l m.payload) l := by
    have hasked := (linkOf_of_same (proofAsked_same (helloNoted s l m.payload) l) (by decide) l).trans hlink
    simp [helloRx, hasked, hproof]
  have hopen : linkPowered s l = true ∧ (linkOf s l).st = .hello ∧ m.mtype = 6 ∧ m.sub = 0x01 ∧ ¬ m.sr = true ∧ m.hops = 0 :=
    ⟨hpower, hst, htype, hsub, by simp [hsr], hhops⟩
  rw [execHelloReceive]
  simp only []
  rw [if_pos hopen, freeArrived_of_nil harrived, Nat.shiftLeft_eq, Nat.shiftLeft_eq, Nat.one_mul]
  exact congrArg _ hrx

/-- R373: a HELLO_PROOF is stored, and both hellos together raise HELLO_RX. -/
theorem execHelloProofReceive_takes {l : Fin 24} {m : FabMsg} (hpower : linkPowered s l = true) (hst : (linkOf s l).st = .hello)
    (htype : m.mtype = 6) (hsub : m.sub = 2) (hsr : m.sr = false) (hhops : m.hops = 0) (harrived : (linkOf s l).arrived = []) :
    execHelloProofReceive l m s
      = .next (helloRx (setLink s l { linkOf s l with gotProof := true, proof := m.payload }) l) := by
  simp [execHelloProofReceive, hpower, hst, htype, hsub, hsr, hhops, freeArrived_of_nil harrived]

/-- R373: HELLO_RX follows once both hellos are there. -/
theorem helloRx_setProof {u : State} (hl : l < 24) (hproof : (linkOf u l).gotProof = true) : helloRx u l
    = if (linkOf u l).gotHello then raise u (82 + l / 2) 0x03 (rd u (Csr.FAB_LINK_PEER (l / 2) (l % 2))) l else u := by
  simp [helloRx, hproof, linkSrc, isHost, Nat.ne_of_lt hl]

/-- R375: a peer whose heartbeat stands is reported once. -/
theorem execPeerStalled_reports {l : Fin 24} {hb : Nat} (hpower : linkPowered s l = true) (hst : (linkOf s l).st = .up)
    (hstalled : (linkOf s l).stalled = false) (hlimit : fld s Csr.FABC_HB 31 16 ≠ 0) (hlast : (linkOf s l).lastHb = some hb) :
    execPeerStalled l s = .next (raise (setLink s l { linkOf s l with stalled := true }) (82 + l / 2) 0x05
      (rd s (Csr.FAB_LINK_PEER (l / 2) (l % 2))) (hb + l * 2 ^ 16)) := by
  simp only [execPeerStalled, hpower, hst, hstalled, hlast, Bool.false_eq_true, not_false_eq_true, and_self, ne_eq, hlimit,
    if_true, linkSrc, isHost, decide_eq_false (Nat.ne_of_lt l.isLt), if_false, Nat.shiftLeft_eq]

end Sys2Proof.Machine
end

section
/-! PROOFS. The commands of a link (R347, R348, R351, R372 to R375, R419). -/

set_option deprecated.oldSectionVars true -- one thread elaborates these proofs: the check's memory is tight

namespace Sys2Proof.Machine

variable {s t : State} {i : Initiator} {l : Nat}

/-- R385: LINK_UP, in a state whose registers of the link's peer read as in `s`. -/
theorem linkUpEvent_eq {u : State} (hl : l < 24) (h : OtherRegs [Csr.FAB_LINK_CTRL (l / 2) (l % 2)] s u) : linkUpEvent u l
    = raise u (82 + l / 2) 0x01 (rd s (Csr.FAB_LINK_PEER (l / 2) (l % 2)))
        (fld s (Csr.FAB_LINK_PEER_INFO (l / 2) (l % 2)) 11 0 + l * 2 ^ 16 + (linkOf u l).width * 2 ^ 24) := by
  have hpeer := h (Csr.FAB_LINK_PEER (l / 2) (l % 2)) (by simp [Csr.FAB_LINK_PEER, Csr.FAB_LINK_CTRL])
  have hinfo := h (Csr.FAB_LINK_PEER_INFO (l / 2) (l % 2)) (by simp [Csr.FAB_LINK_PEER_INFO, Csr.FAB_LINK_CTRL])
  simp only [linkUpEvent, fld, hpeer, hinfo, linkSrc, isHost, decide_eq_false (Nat.ne_of_lt hl), Bool.false_eq_true, if_false,
    Nat.shiftLeft_eq]

theorem execLinkEnable_enables {l : Fin 24} {x : W32} (h : Access s i (Csr.FAB_LINK_CTRL (l / 2) (l % 2)) true)
    (hiso : isolated s = false) (hoff : (linkOf s l).st = .off) (hexists : linkExists s l = true) (hen : bit x.toNat 0 = true) :
    execLinkEnable i l x s = .next (setLink (ctrlWritten s (Csr.FAB_LINK_CTRL (l / 2) (l % 2)) x.toNat) l (linkIdle (linkOf s l) .training)) := by
  have hword : ctrlWord s l x.toNat = x.toNat := by simp [ctrlWord, hiso]
  rw [execLinkEnable, write32, ctlWrite_linkCtrl h, hword, portCtrl_enables hoff hexists hen]

theorem execLinkAdmit_admits {l : Fin 24} {x : W32} (h : Access s i (Csr.FAB_LINK_CTRL (l / 2) (l % 2)) true)
    (hiso : isolated s = false) (hhello : (linkOf s l).st = .hello) (hen : bit x.toNat 0 = true) (hadmit : bit x.toNat 1 = true) :
    execLinkAdmit i l x s = .next (linkUpEvent
      (setLink (ctrlWritten s (Csr.FAB_LINK_CTRL (l / 2) (l % 2)) x.toNat) l { linkOf s l with st := .up }) l) := by
  have hword : ctrlWord s l x.toNat = x.toNat := by simp [ctrlWord, hiso]
  rw [execLinkAdmit, write32, ctlWrite_linkCtrl h, hword, portCtrl_admits hhello hen hadmit]

/-- R348, R419: RETRAIN, written with the other fields as they are, takes a link that is DOWN to training. -/
theorem execLinkRetrain_trains {k : Fin 25} (h : Access s i (linkReg k Csr.FAB_LINK_CTRL Csr.HLK_CTRL) true)
    (hdown : (linkOf s k).st = .down) (hen : linkEnabled s k = true) :
    ∃ v, execLinkRetrain i k s = .next (setLink (ctrlWritten s (linkReg k Csr.FAB_LINK_CTRL Csr.HLK_CTRL) v) k
      (linkIdle (linkOf s k) .training)) := by
  have hword (a : Nat) : (BitVec.ofNat 32 (rd s a % 4 + 4)).toNat = rd s a % 4 + 4 := by
    rw [BitVec.toNat_ofNat]
    omega
  rcases Nat.lt_or_ge k.val 24 with hport | hhost
  · obtain ⟨l, hl⟩ : ∃ l : Fin 24, k.val = l.val := ⟨⟨k, hport⟩, rfl⟩
    have hne : l.val ≠ 24 := Nat.ne_of_lt l.isLt
    simp only [execLinkRetrain, linkReg, hl, if_neg hne] at h hdown hen ⊢
    obtain ⟨hkeep, hretrain⟩ := bit_retrainWord (rd s (Csr.FAB_LINK_CTRL (l / 2) (l % 2)))
    rw [linkEnabled_port l.isLt] at hen
    rw [write32, ← hword, ctlWrite_linkCtrl h, hword]
    exact ⟨_, congrArg _ (portCtrl_retrains hdown ((bit_ctrlWord_enable hkeep).trans (hkeep.trans hen))
      ((bit_ctrlWord_ne (by decide) s l _).trans hretrain))⟩
  · have h24 : k.val = 24 := by omega
    simp only [execLinkRetrain, linkReg, h24, if_true] at h hdown hen ⊢
    obtain ⟨hkeep, hretrain⟩ := bit_retrainWord (rd s Csr.HLK_CTRL)
    rw [linkEnabled, show isHost 24 = true from rfl, if_pos rfl] at hen
    rw [write32, ← hword, ctlWrite_hlkCtrl h, hword]
    exact ⟨_, congrArg _ (hlkCtrl_retrains hdown (hkeep.trans hen) hretrain)⟩

theorem execLaneLockLost_stops {k : Fin 25} (hpower : linkPowered s k = true)
    (hst : (linkOf s k).st = .init ∨ (linkOf s k).st = .hello ∨ (linkOf s k).st = .up) :
    execLaneLockLost k s = .next (linkStop s k .down (if k.val = 24 then 0x07 else 0x01)) := by
  rw [execLaneLockLost, if_pos ⟨hpower, by rw [linkOpen_iff]; tauto⟩]
  simp [isHost]

/-- R419: the Raline link is UP once INIT flits with SEEN = 1 have crossed both ways. -/
theorem execInitFlitReceive_host {f : Flit} (hpower : linkPowered s 24 = true) (hst : (linkOf s 24).st = .init)
    (hcrc : f.crcOk = true) (hform : flitOk 24 f = true) (htype : f.ftype = 4) (hseen : bit (fieldAt f.payload 3 1) 0 = true) :
    execInitFlitReceive 24 f s = .next (raise (hostUp (initTaken s 24 f)) 80 0x01 (linkOf s 24).width 0) := by
  obtain ⟨hlink, _⟩ := initTaken_sets s 24 f
  rw [execInitFlitReceive_takes (k := 24) hpower hst hcrc hform htype, if_pos hseen, show ((24 : Fin 25) : Nat) = 24 from rfl,
    linkReady_host, hlink]

/-- R348, R372: a Sargil link enters HELLO once INIT flits with SEEN = 1 have crossed both ways. -/
theorem execInitFlitReceive_port {l : Fin 24} {f : Flit} (hpower : linkPowered s l = true) (hst : (linkOf s l).st = .init)
    (hcrc : f.crcOk = true) (hform : flitOk l f = true) (htype : f.ftype = 4) (hseen : bit (fieldAt f.payload 3 1) 0 = true)
    (hadmit : flag s (Csr.FAB_LINK_CTRL (l / 2) (l % 2)) 1 = false) :
    execInitFlitReceive l.castSucc f s = .next (helloEntered (initTaken s l f) l) := by
  have hkept : flag (initTaken s l f) (Csr.FAB_LINK_CTRL (l / 2) (l % 2)) 1 = false := hadmit
  rw [execInitFlitReceive_takes (k := l.castSucc) hpower hst hcrc hform htype, if_pos hseen, Fin.val_castSucc,
    linkReady_port l.isLt hkept]

end Sys2Proof.Machine

open Sys2Proof Sys2Proof.Machine

/-- Settles O44, a clause at a time: each command's hypotheses decide its branch, and with it the one state it answers. -/
theorem linkStates : Obligations.LinkStates := by
  intro s l k i x v y c pw trains
  have hl := l.isLt
  refine ⟨fun haccess hiso hoff hexists hen => ?_, fun haccess hiso hhello hen hadmit => ?_, ?_, ?_,
    fun hstops hst => ⟨_, if_pos ⟨hstops.powered, hst⟩, linkStop_stops hstops k.isLt⟩, fun hpower hst hauto => ?_,
    fun hstops hst => ⟨_, execLaneLockLost_stops hstops.powered hst, linkStop_stops hstops k.isLt⟩,
    fun hstops hst => ⟨_, if_pos ⟨hstops.powered, linkOpen_iff.2 hst⟩, linkStop_stops hstops k.isLt⟩,
    fun f hpower hst hcrc hform htype hseen => ?_, fun f hpower hst hcrc hform htype hseen => ?_,
    fun f hpower hst hcrc hform htype hseen hadmit => ?_, fun hpower hst => ?_, fun hb hpower hst hstalled hlimit hlast => ?_, ?_,
    fun m hpower hst htype hsub hsr hhops harrived => ?_⟩
  · obtain ⟨hlink, hothers, henable, hadmit, hregs, hsame⟩ := setLink_ctrlWritten s c x.toNat l (linkIdle v .training)
    exact ⟨_, execLinkEnable_enables haccess hiso hoff hexists hen, ⟨hlink, hothers⟩, henable.trans hen, hadmit, hsame, hregs⟩
  · obtain ⟨hlink, hothers, henable, hadmitted, hregs, hsame⟩ := setLink_ctrlWritten s c x.toNat l { v with st := .up }
    refine ⟨_, execLinkAdmit_admits haccess hiso hhello hen hadmit, _, hlink, hothers, henable.trans hen,
      hadmitted.trans hadmit, hsame, hregs, ?_⟩
    rw [linkUpEvent_eq hl hregs, hlink]
  · intro a haccess hdown hen
    obtain ⟨w, hnext⟩ := execLinkRetrain_trains haccess hdown hen
    obtain ⟨hlink, hothers, _, _, hregs, hsame⟩ := setLink_ctrlWritten s a w k (linkIdle y .training)
    exact ⟨_, hnext, ⟨hlink, hothers⟩, hsame, hregs⟩
  · rintro lanes w hpower hst rfl
    exact ⟨_, execLinkTrained_takes hpower hst, initSent_sets ..⟩
  · obtain ⟨hlink, hothers, hsame⟩ := linkTrain_sets s k
    exact ⟨_, if_pos ⟨hpower, hst, hauto⟩, ⟨hlink, hothers⟩, hsame⟩
  · obtain ⟨hlink, hothers, hsame⟩ := initTaken_sets s k f
    refine ⟨initTaken s k f, (execInitFlitReceive_takes hpower hst hcrc hform htype).trans (by rw [hseen]; rfl), fun j => ?_, ?_,
      hothers, hsame⟩
    · rw [hlink, smGet_initCredits]
    · rw [hlink]
  · obtain ⟨hlink, hothers, hsame⟩ := initTaken_sets s 24 f
    obtain ⟨hup, hothers', hsame'⟩ := hostUp_sets (initTaken s 24 f)
    exact ⟨_, execInitFlitReceive_host hpower hst hcrc hform htype hseen, hostUp (initTaken s 24 f), by rw [hup],
      by rw [hup, hlink], fun d hd => (hothers' d hd).trans (hothers d hd), hsame.trans hsame', rfl⟩
  · obtain ⟨hlink, hothers, hsame⟩ := initTaken_sets s l f
    obtain ⟨hhello, hseen', hnonce, hctr, htxq, hothers', hsame'⟩ := helloEntered_sets (initTaken s l f) l
    exact ⟨_, execInitFlitReceive_port hpower hst hcrc hform htype hseen hadmit, hhello, hseen'.trans (by rw [hlink]), hnonce,
      hctr, htxq.trans (by rw [hlink]; rfl), fun d hd => (hothers' d hd).trans (hothers d hd), (hsame.mono (by decide)).trans hsame'⟩
  · exact ⟨_, if_pos ⟨hpower, linkOpen_iff.2 hst⟩, emit_sets ..⟩
  · exact ⟨_, execPeerStalled_reports hpower hst hstalled hlimit hlast, _, linkOf_setLink_self .., otherLinks_setLink _ _ _,
      setLink_only _ _ _, rfl⟩
  · intro m p q b hpower hst htype hsub hsr hhops harrived hproof
    obtain ⟨hlink, hothers, hpeer, hinfo, hsame, hregs⟩ := helloNoted_sets s l b
    have hasked := proofAsked_same (helloNoted s l b) l
    have hlinks := linkOf_of_same hasked (by decide)
    refine ⟨_, execHelloReceive_takes hpower hst htype hsub hsr hhops harrived hproof, (hlinks l).trans hlink,
      fun d hd => (hlinks d).trans (hothers d hd), (rd_proofAsked ..).trans hpeer,
      (rd_proofAsked ..).trans hinfo, ?_, (hsame.mono (by decide)).trans (hasked.mono (by decide)),
      fun a ha => (rd_proofAsked _ _ a).trans (hregs a ha)⟩
    rw [fabc_proofAsked, hsame .fabc (by decide)]
  · have hlink := linkOf_setLink_self s l { v with gotProof := true, proof := m.payload }
    refine ⟨_, execHelloProofReceive_takes hpower hst htype hsub hsr hhops harrived, _, hlink, otherLinks_setLink _ _ _,
      setLink_only _ _ _, ?_⟩
    rw [helloRx_setProof hl (by rw [hlink]), hlink]
    rfl

end

section
/-! PROOFS. A peer's read request and an export of the parity journal, served from a page that is said to lie in a stack that
does not exist (R184, R364, R415). -/

set_option deprecated.oldSectionVars true -- one thread elaborates these proofs: the check's memory is tight

namespace Sys2Proof.Machine

/-- R415: a record of the journal of one byte, which names device 0 as its source. -/
def strayEntry : Bytes := [0]

/-- This module is device 0, and the journal of unit 0 holds `strayEntry`. Page 0 is `strayEnt`, and what would be its stack's
status register says that the stack is ready. -/
def strayFabricState : State :=
  { csr := [(Csr.FABC_SELF, 2 ^ 31), (stkReg 92 0x08, 0x9)]
    pages := [(0, strayEnt)]
    plcFits := true
    nbus := [(0, { jrnl := [strayEntry] })] }

/-- R185, R186: a byte at the start of page 0 can be read and written now. -/
theorem writesNow_strayFabricState : WritesNow strayFabricState 0 1 := by
  have hent : pageEnt strayFabricState (0 / 2 ^ 18) = strayEnt := by decide
  refine ⟨⟨by decide, by decide, rfl, rfl, ⟨fun _ => rfl, fun _ => rfl⟩, by decide, by decide, by decide, .inl ?_, ?_, ?_⟩, ?_⟩
  · rw [hent]; rfl
  · rw [hent]; exact frameFits_of_banked rfl (by decide) (by decide)
  · rw [hent]; decide
  · rw [hent]; rfl

/-- R361: a request of the module itself to read one byte of its local tensor space. -/
def strayRequest : FabMsg := { mtype := 1, dst := 0, src := 0, len := 1 }

/-- R361, R383: the request is served: nothing is wrong with it, and it is the module's own. -/
theorem strayRequest_served : fabcUp strayFabricState = true ∧ reqBad strayRequest = 0
    ∧ admitted strayFabricState strayRequest = true ∧ fabSpace strayRequest.addr = 0 := by decide

/-- R178: one line is read. -/
theorem strayReads_rdReq : rdAfter (exec (.rdReq strayRequest) strayFabricState) strayReads = 64 := by decide

/-- PGRP_JRNL_CMD as an access meets it. -/
def jrnlCmdAt : RegAt :=
  ⟨⟨.PGRP_JRNL_CMD, 0x4c2040c, [], false, [fd 27 16 .rw 0, fd 1 0 .wo 0], 0⟩, [], Csr.PGRP_JRNL_CMD, false⟩

theorem access_jrnlCmd_strayFabricState : Access strayFabricState (.cp 0) Csr.PGRP_JRNL_CMD true :=
  ⟨jrnlCmdAt, by decide, by decide, by decide, fun _ => by decide⟩

theorem jrnlEntries_strayFabricState : jrnlEntries strayFabricState 0 = [strayEntry] := by decide

/-- R178: one line is written. -/
theorem strayCount_jrnlExport : rdAfter (exec (.jrnlExport (.cp 0) 0) strayFabricState) strayCount = 64 := by decide

end Sys2Proof.Machine

open Sys2Proof Sys2Proof.Machine

/-- Refutes O47: of every state, its clause on a peer's read says that only the counters of the 20 stacks change. A read of page
0 in stack 92 counts the bytes read in the word at what would be that stack's register. -/
theorem not_fabricRequests : ¬ Obligations.FabricRequests := by
  intro h
  obtain ⟨hup, hgood, hadmitted, hspace⟩ := strayRequest_served
  obtain ⟨_, _, hread, _⟩ := h strayFabricState strayRequest hup
  obtain ⟨hnow, _⟩ := writesNow_strayFabricState
  obtain ⟨t, ht, _, _, _, hregs⟩ := hread rfl hgood hadmitted hspace hnow
  have hkept := rdAfter_of_otherRegs ht hregs strayReads_not_mem
  rw [strayReads_rdReq, show rd strayFabricState strayReads = 0 by decide] at hkept
  exact absurd hkept (by decide)

/-- Refutes O48: of every state, its clause on the journal's export says that only the registers of the operation and the
counters of the 20 stacks change. A list in a page in stack 92 is counted in the word at what would be that stack's count of
bytes written. -/
theorem not_fabricManagement : ¬ Obligations.FabricManagement := by
  intro h
  obtain ⟨_, _, _, _, _, hexport, _⟩ := h strayFabricState (.cp 0)
  obtain ⟨t, ht, _, _, _, _, _, hregs⟩ := hexport 0 ⟨access_jrnlCmd_strayFabricState, rfl, by decide⟩
    (by rw [jrnlEntries_strayFabricState]; decide) (by rw [jrnlEntries_strayFabricState]; decide)
    (by rw [jrnlEntries_strayFabricState]; exact writesNow_strayFabricState)
  have hkept := rdAfter_of_otherRegs (a := strayCount) ht hregs (by decide)
  rw [strayCount_jrnlExport, show rd strayFabricState strayCount = 0 by decide] at hkept
  exact absurd hkept (by decide)

end

section
/-! PROOFS. What the host link reads of a page that is said to lie in a stack that does not exist (R184): a read by the host
through a device window (R422), a submission queue's entry (R432) and a READ_SMALL (R434). -/

set_option deprecated.oldSectionVars true -- one thread elaborates these proofs: the check's memory is tight

namespace Sys2Proof.Machine

/-- R434: a started READ_SMALL of one byte at fabric address 0. -/
def straySmallRead : HCmd :=
  { sq := 0, incarn := 0, bytes := [0, 0, 3] ++ List.replicate 21 0 ++ [1], started := true, parts := [.todo] }

/-- The Raline link is UP and the host is attached. Device window 1 admits reads of page 0. Submission queue 0, a ring at address
0, has an entry to fetch, and `straySmallRead` in progress. Page 0 is `strayEnt`, and what would be its stack's status register
says that the stack is ready. -/
def strayHostState : State :=
  { csr := [(Csr.HLK_SESSION, 1), (Csr.HLK_DWIN_CTRL 0, 2 ^ 31 + 2 ^ 29), (Csr.HLK_DWIN_SIZE 0, 1),
      (Csr.HLK_SQ_CFG 0, 2 ^ 31 + 2 ^ 30), (Csr.HLK_SQ_TAIL 0, 1), (stkReg 92 0x08, 0x9)]
    pages := [(0, strayEnt)]
    plcFits := true
    hlk := { cmds := [straySmallRead] }
    links := [(24, { st := .up })] }

/-- R185: the first bytes of page 0 can be read now. -/
theorem readsNow_strayHostState {n : Nat} (hn : 0 < n) (hpage : n ≤ 2 ^ 18)
    (hopen : frameOpen strayHostState (entFrame strayEnt) 0 n = true) : ReadsNow strayHostState 0 n := by
  have hent : pageEnt strayHostState (0 / 2 ^ 18) = strayEnt := by decide
  refine ⟨by decide, by decide, rfl, rfl, ⟨fun _ => rfl, fun _ => rfl⟩, by decide, hn, by omega, .inl ?_, ?_, ?_⟩
  · rw [hent]; rfl
  · rw [hent]; exact frameFits_of_banked rfl (by decide) (by decide)
  · rw [hent]; exact hopen

theorem rd_strayReads_strayHostState : rd strayHostState strayReads = 0 := by decide

/-! ### A read by the host -/

/-- R422: a read of one byte at the start of device window 1. -/
def strayHostRead : HostMsg := { mtype := 1, addr := 2 ^ 34, len := 1 }

/-- R422: the window takes the read to page 0 of this module. -/
theorem strayHostRead_served : hostArrives strayHostState strayHostRead 1 = true ∧ hostMsgBad strayHostRead = false
    ∧ dwin strayHostState strayHostRead.addr strayHostRead.len false = .fab 0
    ∧ ownDev strayHostState (fabDev 0) true = true := by decide

/-- R178: one line is read. -/
theorem strayReads_hRd : rdAfter (exec (.hRd strayHostRead {}) strayHostState) strayReads = 64 := by decide

/-! ### An entry of a submission queue -/

/-- R432: the entry of queue 0 is the one to fetch: 128 zero bytes. -/
theorem strayEntry_next : works strayHostState 39 = true ∧ session strayHostState = 1 ∧ sqTurn strayHostState = some 0
    ∧ flag strayHostState (Csr.HLK_SQ_CFG 0) 30 = true ∧ ltaBytes strayHostState 0 128 = List.replicate 128 0 := by decide

/-- R178: the entry is read: two lines. -/
theorem strayReads_sqFetch : rdAfter (exec (.sqFetch 0 {}) strayHostState) strayReads = 128 := by decide

/-! ### READ_SMALL -/

/-- R434: the command is still to be done, and its address is one of this module. -/
theorem straySmallRead_todo : hlkUp strayHostState = true ∧ todoCmd strayHostState 0 0 3 0 = some straySmallRead
    ∧ cAddr0 straySmallRead = 0 ∧ cLen straySmallRead = 1 ∧ ownDev strayHostState (fabDev 0) true = true := by decide

/-- R178: one line is read. -/
theorem strayReads_readSmall : rdAfter (exec (.readSmall 0 0 {}) strayHostState) strayReads = 64 := by decide

end Sys2Proof.Machine

open Sys2Proof Sys2Proof.Machine

/-- Refutes O49: of every state, its clause on a read by the host of this module's tensor space says that only the counters of
the 20 stacks change. A read of page 0 in stack 92 counts the bytes read in the word at what would be that stack's register. -/
theorem not_hostAccess : ¬ Obligations.HostAccess := by
  intro h
  obtain ⟨harrives, hgood, hwindow, hown⟩ := strayHostRead_served
  obtain ⟨_, _, _, hread, _⟩ := h strayHostState strayHostRead {}
  obtain ⟨t, ht, _, _, _, hregs⟩ := hread 0 harrives hgood hwindow rfl rfl hown
    (readsNow_strayHostState (n := 1) (by decide) (by decide) (by decide))
  have hkept := rdAfter_of_otherRegs ht hregs strayReads_not_mem
  rw [strayReads_hRd, rd_strayReads_strayHostState] at hkept
  exact absurd hkept (by decide)

/-- Refutes O50: of every state, its clause on an entry fetched from tensor memory says that only the queue's head and the
counters of the 20 stacks change. A ring in a page in stack 92 counts the bytes read in the word at what would be that stack's
register. -/
theorem not_hostSessions : ¬ Obligations.HostSessions := by
  intro h
  obtain ⟨_, hqueues⟩ := h
  obtain ⟨hworks, hsession, hturn, hlocal, hbytes⟩ := strayEntry_next
  obtain ⟨_, _, hfetch, _⟩ := hqueues strayHostState (.cp 0) 0 0
  obtain ⟨hfetch, _⟩ := hfetch {} (List.replicate 128 0) hworks hsession hturn List.length_replicate (by decide)
  obtain ⟨t, ht, _, _, _, hregs⟩ := hfetch hlocal
    (readsNow_strayHostState (n := 128) (by decide) (by decide) (by decide)) hbytes
  have hkept := rdAfter_of_otherRegs (a := strayReads) ht hregs (by decide)
  rw [strayReads_sqFetch, rd_strayReads_strayHostState] at hkept
  exact absurd hkept (by decide)

/-- Refutes O51: of every state, its clause on READ_SMALL of this module's tensor space says that only the counters of the 20
stacks change. A READ_SMALL of page 0 in stack 92 counts the bytes read in the word at what would be that stack's register. -/
theorem not_hostCommands : ¬ Obligations.HostCommands := by
  intro h
  obtain ⟨hup, htodo, haddr, hlen, hown⟩ := straySmallRead_todo
  obtain ⟨_, _, _, hread, _⟩ := h strayHostState 0 0 {}
  obtain ⟨t, ht, _, _, _, hregs⟩ := hread straySmallRead ⟨hup, htodo⟩ (haddr ▸ ⟨rfl, rfl, hown⟩)
    (by rw [haddr, hlen]; exact readsNow_strayHostState (by decide) (by decide) (by decide))
  have hkept := rdAfter_of_otherRegs ht hregs strayReads_not_mem
  rw [strayReads_readSmall, rd_strayReads_strayHostState] at hkept
  exact absurd hkept (by decide)

end
